-- ==== Sys2Proof/Word.lean ====
section
/-! DEFINITION. The plain containers the model is written with: a timer, a bit of the line, and a table
of a fixed number of like things. Nothing here decides what the part does. -/

namespace Sys2Proof

/-- A timer of the part: `none` while it is stopped, otherwise the milliseconds it has still to run. -/
abbrev Timer := Option Nat

/-- A bit as the line shows it (R162): `false` is dominant and stands for 0, `true` is recessive and stands for 1. -/
abbrev Bit := Bool

/-- A table of exactly `n` like things (claims, channels, tanks, setup items), kept as a list so that it can be
written out and compared. -/
structure Tab (n : Nat) (α : Type) where
  items : List α
  len : items.length = n
  deriving DecidableEq, Repr

namespace Tab

variable {n : Nat} {α β : Type}

def get (t : Tab n α) (i : Fin n) : α := t.items[i.val]'(by rw [t.len]; exact i.isLt)

def set (t : Tab n α) (i : Fin n) (x : α) : Tab n α := ⟨t.items.set i.val x, by rw [List.length_set, t.len]⟩

/-- Change one item. -/
def modify (t : Tab n α) (i : Fin n) (f : α → α) : Tab n α := t.set i (f (t.get i))

def map (f : α → β) (t : Tab n α) : Tab n β := ⟨t.items.map f, by rw [List.length_map, t.len]⟩

/-- The table with every item `x`. -/
def fill (n : Nat) (x : α) : Tab n α := ⟨List.replicate n x, List.length_replicate⟩

@[simp] theorem get_set_self (t : Tab n α) (i : Fin n) (x : α) : (t.set i x).get i = x := by
  simp [get, set]

@[simp] theorem get_set_ne (t : Tab n α) (i j : Fin n) (x : α) (h : i ≠ j) : (t.set i x).get j = t.get j := by
  have : i.val ≠ j.val := fun e => h (Fin.ext e)
  simp [get, set, this]

theorem get_set (t : Tab n α) (i j : Fin n) (x : α) : (t.set i x).get j = if i = j then x else t.get j := by
  by_cases h : i = j
  · subst h; simp
  · simp [h]

@[simp] theorem get_modify_self (t : Tab n α) (i : Fin n) (f : α → α) : (t.modify i f).get i = f (t.get i) := by
  simp [modify]

@[simp] theorem get_modify_ne (t : Tab n α) (i j : Fin n) (f : α → α) (h : i ≠ j) :
    (t.modify i f).get j = t.get j := by
  simp [modify, h]

@[simp] theorem get_map (t : Tab n α) (f : α → β) (i : Fin n) : (t.map f).get i = f (t.get i) := by
  simp [get, map]

@[simp] theorem get_fill (x : α) (i : Fin n) : (fill n x).get i = x := by
  simp [get, fill]

theorem get_mem (t : Tab n α) (i : Fin n) : t.get i ∈ t.items := List.getElem_mem _

theorem mem_iff (t : Tab n α) (x : α) : x ∈ t.items ↔ ∃ i, t.get i = x := by
  constructor
  · intro h
    obtain ⟨k, hk, rfl⟩ := List.getElem_of_mem h
    exact ⟨⟨k, t.len ▸ hk⟩, rfl⟩
  · rintro ⟨i, rfl⟩
    exact get_mem t i

theorem ext_get {s t : Tab n α} (h : ∀ i, s.get i = t.get i) : s = t := by
  obtain ⟨a, ha⟩ := s
  obtain ⟨b, hb⟩ := t
  have : a = b := by
    apply List.ext_getElem (by rw [ha, hb])
    intro k h1 h2
    exact h ⟨k, ha ▸ h1⟩
  subst this
  rfl

@[simp] theorem set_get (t : Tab n α) (i : Fin n) : t.set i (t.get i) = t := by
  apply ext_get
  intro j
  rw [get_set]
  split
  · subst_vars; rfl
  · rfl

end Tab

end Sys2Proof
end

