-- ==== Sys2Proof/Syntax.lean ====
section
/-! DEFINITION. The commands of the HN24, one constructor of `Instr` for every row of spec/opcode_table.json, and
the operands they carry. A command is an event that reaches the block: a timer running out, an input changing, a frame
closing or meeting its fate, a sampling event, or the Dispatcher handing over the record at the head of the Receive
Queue. The table gives no row any bits. A command carries as operands exactly what the block cannot know from its own
state: the level of a pin after its change, the samples of a reading, the bits of a received frame, the straps, and
which of several like timers it is that ran out. The Dispatcher's commands carry nothing: their record stands in the
Receive Queue (R169, R170). -/

namespace Sys2Proof

/-- The record kinds of R174; codes 12 to 15 name no kind. -/
inductive Kind
  | status | supply | draw | shed | tank | climate | motion | interlock | light | request | setup | notice
  | unknown (n : Fin 4)
  deriving DecidableEq, Repr

/-- The five function straps FS0 to FS4 as read (R183). -/
structure Functions where
  supply : Bool
  water : Bool
  heat : Bool
  motion : Bool
  lights : Bool
  deriving DecidableEq, Repr

/-- The strap pins: ST0 to ST2 as a number from 0 to 7 and FS0 to FS4 (pin summary of the introduction, R183). -/
structure Straps where
  st : Nat
  fs : Functions
  deriving DecidableEq, Repr

/-- The key of a Peer View entry: source station 1 to 8, kind and subject 0 to 15 (R57). -/
structure Key where
  station : Nat
  kind : Kind
  subject : Nat
  deriving DecidableEq, Repr

/-- One of a channel's two end stops. -/
inductive EndStop
  | retracted | extended
  deriving DecidableEq, Repr

/-- The commands, in the order of spec/opcode_table.json. -/
inductive Instr
  -- resets, phases and setup (R183 to R186)
  | connectReset (straps : Straps)
  | restart (cellIntact : Bool)
  | resetReleased (straps : Straps)
  | listenTimerExpiry
  | setupTimerExpiry
  | calibrateTimerExpiry
  | setup
  | setupEnd
  -- charge accounting (R1 to R29)
  | accountingInterval (rawI rawV rawT : Int)
  | shedPeriod
  | supplyPeriod
  -- the line, the Receive Queue and the Dispatcher (R162 to R170)
  | frameClose (line : List Bit)
  | busSilentTimerExpiry
  | dispatchErrorNote
  | unknownKind
  | noticePassedOver
  | requestPassedOver
  -- Peer View (R56 to R80)
  | peerArrival
  | viewOverflowTimerExpiry
  | entryAging (key : Key)
  | entryStale (key : Key)
  | holdTimerExpiry
  | engChange (asserted : Bool)
  | localDriveSet
  | localDriveClear
  | chgavChange (asserted : Bool)
  -- Load Broker (R30 to R55)
  | shedReceived
  | contestWindowEnd (load : Fin 7)
  | drawRepeat (load : Fin 7)
  -- sending (R165 to R167, R172)
  | frameSendStart
  | arbitrationLost
  | bitErrorAbort
  | frameCompleted
  | frameNoack
  | probeTimerExpiry
  | gatherTimeout (cls : Nat)
  -- Water Manager (R81 to R103)
  | waterReadingEvent (tk0 tk1 tk2 : Nat) (tt0 tt1 tt2 : Int)
  | pdemChange (asserted : Bool)
  | runawayCountExpiry
  | frostDueTime
  | circulationTimerExpiry
  | dumpfbChange (isOpen : Bool)
  | valveFaultTimerExpiry
  | closeDump
  | clearPump
  | tankPeriod (tank : Fin 3)
  -- Climate Controller (R104 to R123)
  | climateReadingEvent (tz0 tz1 : Int)
  | hrunChange (asserted : Bool)
  | hfltChange (asserted : Bool)
  | startTimerExpiry
  | runTimerExpiry
  | purgeTimerExpiry
  | setSetpoint
  | setClimateMode
  | resetHeater
  | climatePeriod (zone : Fin 2)
  -- Motion Controller (R124 to R147)
  | extend
  | retract
  | stop
  | endStopChange (ch : Fin 2) (which : EndStop) (active : Bool)
  | dwellTimerExpiry (ch : Fin 2)
  | travelTimerExpiry (ch : Fin 2)
  | stallTimerExpiry (ch : Fin 2)
  | backoffTimerExpiry (ch : Fin 2)
  | idleTimerExpiry (ch : Fin 2)
  | calibrationEnd (ch : Fin 2) (sensed : Nat)
  | windWindowEnd
  | windLockoutExpiry
  | interlockRepeat (ch : Fin 2)
  | holdAsserted
  | holdReleased
  | motionPeriod (ch : Fin 2)
  -- Light Controller (R148 to R161)
  | fadeStep (ch : Fin 8)
  | setLevel
  | allOff
  | recallScene
  | storeScene
  | courtesyCountdownExpiry
  | lightPeriod (ch : Fin 8)
  -- Station Status and the Start Sequencer (R174 to R187)
  | statusPeriod
  | statusCountersPeriod
  | ackAttention
  | enterStorage
  | leaveStorage
  -- added rows of the table
  | windPulse
  | motorCurrentChange (ch : Fin 2) (sensed : Nat)
  | requestCodeZero
  deriving DecidableEq, Repr

end Sys2Proof
end

