-- ==== Sys2Proof/Decode.lean ====
section
/-! DEFINITION. spec/opcode_table.json gives no row any bits: the HN24 takes events, not instruction words. So no
word spells a command. (How the bits of a FRAME on the habitation bus are read is in Machine/Frame.lean.) -/

namespace Sys2Proof

/-- The command a word spells by the table's bits: none, because no row of the table gives bits. -/
def decodeTableWord (_nbits _w : Nat) : Option Instr := none

end Sys2Proof
end

