-- ==== Sys2Proof/Config.lean ====
section
/-! DEFINITION. The constants the spec fixes for every HN24: sizes, periods and times in milliseconds. The spec
leaves no value of a result open, so there is no free value here (notes/assumptions/1.md). -/

namespace Sys2Proof.Config

/-- R184 -/
def listenMs : Nat := 2000
def setupMs : Nat := 5000
def calibrateMs : Nat := 3000
/-- R2 -/
def intervalMs : Nat := 100
/-- R24 -/
def shedMs : Nat := 200
/-- R26 -/
def supplyMs : Nat := 500
def supplyStorageMs : Nat := 2500
/-- R38, R39 -/
def contestMs : Nat := 60
/-- R53 -/
def drawRepeatMs : Nat := 1000
/-- R70 -/
def overflowMs : Nat := 10000
/-- R71 -/
def holdMs : Nat := 10000
/-- R76 -/
def driveSetMs : Nat := 1000
def driveClearMs : Nat := 3000
/-- R81, R104 -/
def readingMs : Nat := 1000
/-- R88 -/
def runawayMs : Nat := 120000
/-- R93 -/
def circulationMs : Nat := 120000
def catchUpMs : Nat := 300000
/-- R100 -/
def valveFaultMs : Nat := 10000
/-- R101, R121, R160 -/
def slowPeriodMs : Nat := 5000
/-- R112 to R114 -/
def heaterStartMs : Nat := 180000
def heaterRunMs : Nat := 60000
def heaterPurgeMs : Nat := 180000
/-- R132 -/
def dwellMs : Nat := 300
/-- R134 -/
def stallMs : Nat := 200
/-- R135 -/
def backoffMs : Nat := 1000
/-- R137 -/
def idleMs : Nat := 600000
def calibrationMs : Nat := 50
/-- R140 -/
def windWindowMs : Nat := 1000
def windLockoutMs : Nat := 600000
/-- R141 -/
def interlockMs : Nat := 200
/-- R145 -/
def motionMs : Nat := 1000
def motionMovingMs : Nat := 200
/-- R150 -/
def fadeStepMs : Nat := 20
/-- R159 -/
def courtesyMs : Nat := 60000
/-- R167 -/
def probeMs : Nat := 1000
/-- R168 -/
def silenceMs : Nat := 3000
/-- R173 -/
def gatherDefaultMs : Nat := 50
/-- R178 -/
def statusMs : Nat := 1000
def statusStorageMs : Nat := 5000
def countersMs : Nat := 5000
/-- R169, R171 -/
def rxCapacity : Nat := 16
def periodicSlots : Nat := 8
def urgentSlots : Nat := 2
/-- R34 -/
def maxAmount : Nat := 30000

end Sys2Proof.Config
end

