-- ==== Sys2Proof/Machine/Records.lean ====
section
/-! DEFINITION. Records: what one station tells another (R174). A payload is kept as its fields (R58), each at the
number the record carries, so that a value beyond its stated range is kept as heard (R175); the bits of each layout
are in Machine/Frame.lean. -/

namespace Sys2Proof.Machine

/-- STATUS subject 0 (R177). Phase, last request and outcome are codes. -/
structure StatusState where
  fns : Functions
  phase : Nat
  storage : Bool
  localDrive : Bool
  chargeSource : Bool
  lineFault : Bool
  busSilent : Bool
  attention : Bool
  request : Nat
  outcome : Nat
  defaultsUsed : Bool
  clamped : Bool
  deriving DecidableEq, Repr

/-- STATUS subject 1: the five counters (R177). -/
structure StatusCounters where
  overrun : Nat
  dropped : Nat
  foreign : Nat
  unknown : Nat
  tableError : Nat
  deriving DecidableEq, Repr

/-- STATUS subject 2: Late Setup and the declared-monitor summary, monitor 0 first (R177). -/
structure StatusMonitors where
  lateSetup : Nat
  summary : List Bool
  deriving DecidableEq, Repr

/-- SUPPLY (R25, R176). -/
structure SupplyRec where
  soc : Nat
  h : Nat
  withdrawn : Bool
  lowVoltage : Bool
  anchored : Bool
  tc : Int
  trend : Nat
  deriving DecidableEq, Repr

/-- DRAW (R53, R176); `state` is the payload state's code. -/
structure DrawRec where
  held : Nat
  asked : Nat
  rank : Nat
  state : Nat
  deriving DecidableEq, Repr

/-- SHED (R24); `cause` is the cause's code. -/
structure ShedRec where
  level : Nat
  cause : Nat
  deriving DecidableEq, Repr

/-- TANK (R101); `level` is 0 to 1000, or the code 1023 for Unknown. -/
structure TankRec where
  level : Nat
  temp : Int
  guard : Bool
  demand : Bool
  owed : Nat
  dumpOpen : Bool
  deriving DecidableEq, Repr

/-- CLIMATE (R121); mode, heater state, frost service and pad are codes. -/
structure ClimateRec where
  temp : Int
  setpoint : Nat
  mode : Nat
  heater : Nat
  demand : Nat
  frost : Nat
  pad : Nat
  deriving DecidableEq, Repr

/-- MOTION (R145); state, position and pending are codes. -/
structure MotionRec where
  state : Nat
  position : Nat
  pending : Nat
  protective : Bool
  hold : Bool
  travelFault : Bool
  stall : Bool
  windLockout : Bool
  deriving DecidableEq, Repr

/-- INTERLOCK (R141); state and move are codes. -/
structure InterlockRec where
  state : Nat
  move : Nat
  hold : Bool
  deriving DecidableEq, Repr

/-- LIGHT (R160); raise result and claim are codes. -/
structure LightRec where
  level : Nat
  target : Nat
  fading : Bool
  ceiling : Nat
  courtesy : Bool
  result : Nat
  claim : Nat
  deriving DecidableEq, Repr

/-- REQUEST (R179). -/
structure RequestRec where
  code : Nat
  index : Nat
  value : Int
  deriving DecidableEq, Repr

/-- SETUP (R185): an item index and a 32-bit value. -/
structure SetupRec where
  index : Nat
  value : Nat
  deriving DecidableEq, Repr

/-- NOTICE (R181). -/
structure NoticeRec where
  summary : List Bool
  monitor : Nat
  declared : Bool
  count : Nat
  deriving DecidableEq, Repr

/-- A payload by its kind and, for STATUS, by its subject. STATUS subjects 3 to 15 and the kinds 12 to 15 have no
layout and are kept as their 40 bits. -/
inductive Payload
  | status0 (f : StatusState)
  | status1 (f : StatusCounters)
  | status2 (f : StatusMonitors)
  | statusOther (bits : List Bit)
  | supply (f : SupplyRec)
  | draw (f : DrawRec)
  | shed (f : ShedRec)
  | tank (f : TankRec)
  | climate (f : ClimateRec)
  | motion (f : MotionRec)
  | interlock (f : InterlockRec)
  | light (f : LightRec)
  | request (f : RequestRec)
  | setup (f : SetupRec)
  | notice (f : NoticeRec)
  | unknown (n : Fin 4) (bits : List Bit)
  deriving DecidableEq, Repr

/-- A record: a subject of 0 to 15 and a payload, whose kind is the record's kind (R174). -/
structure Record where
  subject : Nat
  payload : Payload
  deriving DecidableEq, Repr

def Payload.kind : Payload → Kind
  | .status0 _ | .status1 _ | .status2 _ | .statusOther _ => .status
  | .supply _ => .supply
  | .draw _ => .draw
  | .shed _ => .shed
  | .tank _ => .tank
  | .climate _ => .climate
  | .motion _ => .motion
  | .interlock _ => .interlock
  | .light _ => .light
  | .request _ => .request
  | .setup _ => .setup
  | .notice _ => .notice
  | .unknown n _ => .unknown n

def Record.kind (r : Record) : Kind := r.payload.kind

/-- The code of TANK's level Unknown; DESIGN CHOICE, notes/assumptions/3.md. -/
def unknownLevelCode : Nat := 1023

end Sys2Proof.Machine

namespace Sys2Proof

/-- The code of a kind (R174). -/
def Kind.code : Kind → Nat
  | .status => 0 | .supply => 1 | .draw => 2 | .shed => 3 | .tank => 4 | .climate => 5 | .motion => 6
  | .interlock => 7 | .light => 8 | .request => 9 | .setup => 10 | .notice => 11
  | .unknown n => 12 + n.val

/-- The class a kind fixes (R174); the kinds 12 to 15 have none and are sent by nobody. -/
def Kind.cls : Kind → Nat
  | .shed | .interlock => 0
  | .draw | .request | .setup => 1
  | .status | .supply | .motion | .notice => 2
  | .tank | .climate | .light => 3
  | .unknown _ => 3

/-- STATUS, SUPPLY and DRAW are the critical kinds (R56). -/
def Kind.critical : Kind → Bool
  | .status | .supply | .draw => true
  | _ => false

end Sys2Proof
end

