-- ==== Sys2Proof/Machine/State.lean ====
section
/-! DEFINITION. Everything the spec gives the HN24 to hold, block by block, as plain data, and what it holds right
after reset. INVENTORY.md lists each field with its rule and its reset value. -/

namespace Sys2Proof.Machine

/-! ### Inputs -/

/-- The levels of the digital inputs as last seen, the sensed motor currents, and the strap pins (pin summary). The
analogue samples of the reading events are operands of their commands and are held where their block keeps them. -/
structure Pins where
  eng : Bool
  chgav : Bool
  pdem : Bool
  dumpOpen : Bool
  hrun : Bool
  hflt : Bool
  hold : Bool
  er : Tab 2 Bool
  ee : Tab 2 Bool
  motor : Tab 2 Nat
  straps : Straps
  deriving DecidableEq, Repr

/-! ### Start Sequencer, setup values, Retained Cell (R183 to R187) -/

/-- `reset` is the time from the start of a reset to its end; the four others are the phases of R184. -/
inductive Phase
  | reset | listen | setup | calibrate | run
  deriving DecidableEq, Repr

/-- The 49 setup values in force, each as the 32-bit value a SETUP carries (R185). -/
abbrev Values := Tab 49 Nat

/-- R105 -/
inductive ClimateMode
  | off | comfort | frostOnly
  deriving DecidableEq, Repr

/-- The Retained Cell (R183): its items and whether its check holds. -/
structure Cell where
  q : Nat
  r : Nat
  anchored : Bool
  capKept : Nat
  values : Values
  setpoints : Tab 2 Int
  chosen : ClimateMode
  lockout : Bool
  scenes : Tab 4 (Tab 8 Nat)
  good : Bool
  deriving DecidableEq, Repr

structure Seq where
  phase : Phase
  storage : Bool
  phaseTimer : Timer
  /-- The reset under way is a Restart, so its end tests the cell (R183). -/
  isRestart : Bool
  station : Nat
  fns : Functions
  values : Values
  pendingItems : Tab 49 (Option Nat)
  /-- A SETUP record for an item was taken in this Setup phase (R186). -/
  tookItem : Bool
  defaultsUsed : Bool
  clamped : Bool
  lateSetup : Nat
  deriving DecidableEq, Repr

/-! ### Station Status (R177 to R182) -/

structure Status where
  summary : Tab 19 Bool
  changeCount : Nat
  attention : Bool
  lastRequest : Nat
  outcome : Nat
  /-- The MODEL's own: how many requests the station has answered, so that an owner knows whether its request is
  still the last one (R129, R180). -/
  serial : Nat
  deriving DecidableEq, Repr

/-! ### Load Broker (R30 to R55) -/

/-- R31 -/
inductive ClaimState
  | idle | waiting | contest | held | forced
  deriving DecidableEq, Repr

structure Claim where
  rank : Nat
  st : ClaimState
  held : Nat
  asked : Nat
  /-- The ask kind: `true` for Single, `false` for Standing. -/
  single : Bool
  raise : Bool
  /-- The contest is in its announcing stage (R38). -/
  announcing : Bool
  window : Timer
  /-- The MODEL's own: the number of the claim's present contest, carried by its Contest record so that the fate of a
  superseded record is known as such (R38). -/
  serial : Nat
  deriving DecidableEq, Repr

/-- The figures of a usable SUPPLY entry (R62). -/
structure Usable where
  station : Nat
  soc : Nat
  h : Nat
  withdrawn : Bool
  tc : Int
  deriving DecidableEq, Repr

structure Broker where
  claims : Tab 7 Claim
  /-- The remembered level of station n stands at place n − 1 (R48). -/
  remembered : Tab 8 Nat
  /-- The shed level in force (R48). -/
  level : Nat
  /-- The usable SUPPLY figures as last taken, against which a change is seen (R45). -/
  usable : Option Usable
  /-- The MODEL's own: the number the next contest takes. -/
  nextSerial : Nat
  deriving DecidableEq, Repr

/-! ### Peer View (R56 to R80) -/

/-- R59 -/
inductive Freshness
  | fresh | aging | stale | held
  deriving DecidableEq, Repr

/-- R58 -/
structure Entry where
  valid : Bool
  station : Nat
  subject : Nat
  payload : Payload
  fresh : Freshness
  age : Nat
  drive : Bool
  clear : Nat
  check : Bool
  deriving DecidableEq, Repr

/-- A set of four ways with its replacement bits (R57, R66). -/
structure ViewSet where
  ways : Tab 4 Entry
  b0 : Bool
  b1 : Bool
  b2 : Bool
  deriving DecidableEq, Repr

/-- The causes of an invalidation (R61). -/
inductive Cause
  | evicted | checkFailure | roster | pinning
  deriving DecidableEq, Repr

/-- A change the Peer View tells its readers of (R61). -/
inductive Change
  | stored (before : Option Payload) (after : Payload)
  | freshness (old new : Freshness)
  | invalidated (cause : Cause)
  deriving DecidableEq, Repr

structure ViewChange where
  key : Key
  what : Change
  deriving DecidableEq, Repr

structure View where
  sets : Tab 16 ViewSet
  /-- The hold timer runs exactly while a hold is in force (R71). -/
  holdTimer : Timer
  overflow : Bool
  overflowTimer : Timer
  tableError : Nat
  foreign : Nat
  localDrive : Bool
  driveSetWait : Timer
  driveClearWait : Timer
  driveAccepted : Bool
  /-- The MODEL's own: changes not yet told to the readers within the present step; empty between steps. -/
  changes : List ViewChange
  deriving DecidableEq, Repr

/-! ### The Habitation Bus (R162 to R173) -/

/-- R164 -/
inductive Disposition
  | good | stuffError | truncated | checkFail
  deriving DecidableEq, Repr

/-- A record with the number of the contest it announces, 0 for every other record. -/
structure Tagged where
  record : Record
  tag : Nat
  deriving DecidableEq, Repr

/-- A waiting record of the Transmit Gatherer with its join time (R171); `ripe` says that it has waited the gather
timeout. -/
structure Waiting where
  item : Tagged
  join : Nat
  ripe : Bool
  deriving DecidableEq, Repr

/-- A frame in a transmit buffer (R165); `probe` marks a probe frame (R167). -/
structure TxFrame where
  cls : Nat
  records : List Tagged
  probe : Bool
  deriving DecidableEq, Repr

/-- The own frame on the line: which buffer it is in, and the bits being driven (R163). -/
structure Sending where
  urgent : Bool
  bits : List Bit
  deriving DecidableEq, Repr

/-- An entry of the Receive Queue: a Good frame with the records still to be applied, or an error note (R164, R169). -/
inductive RxEntry
  | good (station cls : Nat) (records : List Record)
  | note (d : Disposition)
  deriving DecidableEq, Repr

structure Bus where
  urgentBuf : Option TxFrame
  normalBuf : Option TxFrame
  sending : Option Sending
  failed : Nat
  lineFault : Bool
  probeTimer : Timer
  probeCount : Nat
  busSilent : Bool
  silenceTimer : Timer
  /-- The disposition of the last received frame, and whether its acknowledge slot was driven dominant (R164). -/
  lastClose : Option Disposition
  acked : Bool
  rx : List RxEntry
  overrun : Nat
  dropped : Nat
  unknown : Nat
  periodic : List Waiting
  urgent : List Waiting
  gatherMs : Nat
  deriving DecidableEq, Repr

/-! ### Supply Monitor (R1 to R29) -/

/-- R25 -/
inductive Trend
  | rest | charging | discharging | atBound
  deriving DecidableEq, Repr

/-- The latest figures (R2). -/
structure Figures where
  q : Nat
  r : Nat
  full : Bool
  empty : Bool
  tc : Int
  cuse : Nat
  avail : Nat
  soc : Nat
  h : Nat
  permit : Bool
  anchored : Bool
  trend : Trend
  level : Nat
  overrange : Bool
  lowVoltage : Bool
  overdraw : Bool
  roleClash : Bool
  deriving DecidableEq, Repr

structure Supply where
  q : Nat
  r : Nat
  /-- The capacity in Ah the counter is kept for (R29). -/
  capKept : Nat
  full : Bool
  empty : Bool
  anchored : Bool
  fullCount : Nat
  restCount : Nat
  overrange : Bool
  overrangeCount : Nat
  lowVoltage : Bool
  lowVoltageCount : Nat
  overdraw : Bool
  overdrawCount : Nat
  roleClash : Bool
  permit : Bool
  permitCount : Nat
  chginh : Bool
  level : Nat
  escalation : Nat
  recovery : Nat
  latest : Option Figures
  intervalTimer : Timer
  /-- A SUPPLY is due at the end of the first interval after entering or leaving Storage (R26). -/
  onNext : Bool
  deriving DecidableEq, Repr

/-! ### Water Manager (R81 to R103) -/

structure Tank where
  level : Option Nat
  prev : Option Nat
  temp : Int
  declared : Bool
  count : Nat
  deriving DecidableEq, Repr

/-- The frost cycle states of section 4.4. -/
inductive Cycle
  | off | timing | asking | circulating | drained
  deriving DecidableEq, Repr

/-- The DUMP output: not driven, or driven toward a position (R97, R102). -/
inductive DumpDrive
  | notDriven | toOpen | toClosed
  deriving DecidableEq, Repr

structure Water where
  tanks : Tab 3 Tank
  guard : Bool
  guardCount : Nat
  cycle : Cycle
  owed : Nat
  demand : Bool
  dueTimer : Timer
  /-- The first cycle falls due on entry into Run (R91). -/
  dueOnRun : Bool
  circTimer : Timer
  pump : Bool
  runaway : Bool
  runawayTimer : Timer
  dumpCount : Nat
  dumpCmdOpen : Bool
  dumpDrive : DumpDrive
  valveFault : Bool
  valveTimer : Timer
  readTimer : Timer
  deriving DecidableEq, Repr

/-! ### Climate Controller (R104 to R123) -/

structure Zone where
  temp : Int
  setpoint : Int
  demand : Nat
  deriving DecidableEq, Repr

/-- The heater link states of section 5.3. -/
inductive Heater
  | off | starting | running | purging | lockout
  deriving DecidableEq, Repr

structure Climate where
  zones : Tab 2 Zone
  chosen : ClimateMode
  call : Bool
  callCount : Nat
  frost : Bool
  /-- The last frost Try was Refused or Lost and the heater has not since been Running (R111, R121). -/
  tryFailed : Bool
  heater : Heater
  hen : Bool
  hdem : Nat
  failures : Nat
  remembered : Bool
  startTimer : Timer
  runTimer : Timer
  purgeTimer : Timer
  lockout : Bool
  padWanted : Bool
  pad : Bool
  readTimer : Timer
  deriving DecidableEq, Repr

/-! ### Motion Controller (R124 to R147) -/

/-- The nine channel states of R126. -/
inductive MState
  | unknown | retracted | extended | midway | extending | retracting | braking | backoff | fault
  deriving DecidableEq, Repr

/-- R124 -/
inductive Bridge
  | off | extend | retract | short
  deriving DecidableEq, Repr

/-- Pending moves and follow-ons (R125); a pending move is never `backoff` or `settleFault`. -/
inductive Move
  | none | extend | retract | protective | backoff | settleFault
  deriving DecidableEq, Repr

structure Chan where
  st : MState
  bridge : Bridge
  pending : Move
  followOn : Move
  protective : Bool
  /-- The MODEL's own: the serial number of the request that made the pending move or the follow-on, 0 for none (R129). -/
  req : Nat
  offset : Nat
  calTimer : Timer
  /-- The MODEL's own: the sensed currents of the ms of a calibration that have run, added up (R137); 0 without one. -/
  calSum : Nat
  travel : Timer
  stall : Timer
  backoff : Timer
  dwell : Timer
  idle : Timer
  travelFault : Bool
  stalled : Bool
  deriving DecidableEq, Repr

structure Motion where
  chans : Tab 2 Chan
  windPulses : Nat
  windyCount : Nat
  windWindow : Timer
  windLockout : Timer
  windDeclared : Bool
  ilock : Bool
  deriving DecidableEq, Repr

/-! ### Light Controller (R148 to R161) -/

structure Light where
  level : Nat
  target : Nat
  start : Nat
  elapsed : Nat
  fading : Bool
  stepTimer : Timer
  /-- The PWM duty on the channel's output, per mille (R149). -/
  duty : Nat
  deriving DecidableEq, Repr

/-- R160 -/
inductive RaiseResult
  | none | full | scaled750 | scaled500 | scaled250 | refused
  deriving DecidableEq, Repr

/-- A group's pending request (R152, R153): the targets asked for the group's four channels, the targets under
decision, the scale under decision in per mille, and the serial number of the request that made it (0 for none). -/
structure GroupReq where
  want : Tab 4 Nat
  trial : Tab 4 Nat
  scale : Nat
  req : Nat
  deriving DecidableEq, Repr

structure Group where
  pending : Option GroupReq
  result : RaiseResult
  deriving DecidableEq, Repr

/-- A courtesy change that waits for the group's pending request to end (R154, R159). -/
inductive CourtesyDue
  | none | light | restore
  deriving DecidableEq, Repr

structure Lights where
  chans : Tab 8 Light
  groups : Tab 2 Group
  ceiling : Nat
  scenes : Tab 4 (Tab 8 Nat)
  courtesy : Bool
  prevTarget : Nat
  /-- The courtesy call as last worked out, and the station that last showed the step out (R159). -/
  call : Bool
  source : Nat
  countdown : Timer
  due : CourtesyDue
  deriving DecidableEq, Repr

/-! ### Record periods and handovers -/

/-- The periods of the records, each with the timer of the next handover. -/
structure Periods where
  status : Timer
  counters : Timer
  supply : Timer
  shed : Timer
  draw : Tab 7 Timer
  tank : Tab 3 Timer
  climate : Tab 2 Timer
  motion : Tab 2 Timer
  interlock : Tab 2 Timer
  light : Tab 8 Timer
  deriving DecidableEq, Repr

/-- The MODEL's own: the records a step has found to be handed over at its end (notes/assumptions/5.md); all clear
between steps. -/
structure Due where
  status0 : Bool
  status1 : Bool
  status2 : Bool
  supply : Bool
  shed : Bool
  tank : Tab 3 Bool
  climate : Tab 2 Bool
  motion : Tab 2 Bool
  interlock : Tab 2 Bool
  light : Tab 8 Bool
  deriving DecidableEq, Repr

/-- The state of one HN24, with the queue of commands that wait (the MODEL's own) and a millisecond clock (the MODEL's
own, from which the join times of R171 are taken). -/
structure State where
  now : Nat
  pending : List Instr
  pins : Pins
  seq : Seq
  cell : Cell
  status : Status
  broker : Broker
  view : View
  bus : Bus
  supply : Supply
  water : Water
  climate : Climate
  motion : Motion
  lights : Lights
  periods : Periods
  due : Due
  deriving DecidableEq, Repr

/-- No command of the part ends in a fault: every row of the table is an event with an effect, and where an event
finds nothing to act on the part stays as it is. The type has no constructor. -/
inductive Fault
  deriving DecidableEq, Repr

/-- The one refusal. -/
inductive Refusal
  /-- Raised by `exec` alone, for a row of the table that has no meaning yet. Safe: nothing is claimed of that row. -/
  | notModelled (mnemonic : String)
  deriving DecidableEq, Repr

/-! ### Updates of one block -/

namespace State

def setPins (s : State) (x : Pins) : State := { s with pins := x }
def setSeq (s : State) (x : Seq) : State := { s with seq := x }
def setCell (s : State) (x : Cell) : State := { s with cell := x }
def setStatus (s : State) (x : Status) : State := { s with status := x }
def setBroker (s : State) (x : Broker) : State := { s with broker := x }
def setView (s : State) (x : View) : State := { s with view := x }
def setBus (s : State) (x : Bus) : State := { s with bus := x }
def setSupply (s : State) (x : Supply) : State := { s with supply := x }
def setWater (s : State) (x : Water) : State := { s with water := x }
def setClimate (s : State) (x : Climate) : State := { s with climate := x }
def setMotion (s : State) (x : Motion) : State := { s with motion := x }
def setLights (s : State) (x : Lights) : State := { s with lights := x }
def setPeriods (s : State) (x : Periods) : State := { s with periods := x }
def setDue (s : State) (x : Due) : State := { s with due := x }

end State

/-! ### The values after reset -/

/-- The defaults of the 49 setup items (R6, R185). The two-part items hold their first part in the upper 16 bits. -/
def defaultItems : List Nat :=
  [100, 1, 95, 200, 10000, 500, 11600, 14200, 200, 50]
  ++ [12000 * 65536 + 0, 12800 * 65536 + 100, 13000 * 65536 + 200, 13100 * 65536 + 400]
  ++ [13200 * 65536 + 600, 13300 * 65536 + 800, 13400 * 65536 + 950, 13600 * 65536 + 1000]
  ++ [2, 0, 255, 20, 4095, 4095, 4095, 500, 1000, 150, 0, 400, 800, 1200, 15, 40, 1500, 1500, 0, 20, 800]
  ++ [100, 100, 100, 100, 100, 100, 100, 100, 8, 50]

def defaultValues : Values := ⟨defaultItems, by decide⟩

/-- The Retained Cell as a Connect reset leaves it (R27, R122, R161, R183). -/
def Cell.default : Cell :=
  { q := 180000000, r := 0, anchored := false, capKept := 100, values := defaultValues,
    setpoints := Tab.fill 2 180, chosen := .comfort, lockout := false,
    scenes := Tab.fill 4 (Tab.fill 8 0), good := true }

/-- R31 -/
def Claim.reset : Claim :=
  { rank := 0, st := .idle, held := 0, asked := 0, single := false, raise := false,
    announcing := false, window := none, serial := 0 }

def Broker.reset : Broker :=
  { claims := Tab.fill 7 Claim.reset, remembered := Tab.fill 8 0, level := 0, usable := none, nextSerial := 1 }

/-- An entry that holds no key (R58); its other fields are not read. -/
def Entry.empty : Entry :=
  { valid := false, station := 1, subject := 0, payload := .statusOther [], fresh := .fresh, age := 0,
    drive := false, clear := 0, check := false }

/-- R79 -/
def View.reset : View :=
  { sets := Tab.fill 16 { ways := Tab.fill 4 Entry.empty, b0 := false, b1 := false, b2 := false },
    holdTimer := none, overflow := false, overflowTimer := none, tableError := 0, foreign := 0,
    localDrive := false, driveSetWait := none, driveClearWait := none, driveAccepted := false, changes := [] }

/-- R173, with the silence timer not yet set. -/
def Bus.reset : Bus :=
  { urgentBuf := none, normalBuf := none, sending := none, failed := 0, lineFault := false, probeTimer := none,
    probeCount := 0, busSilent := false, silenceTimer := none, lastClose := none, acked := false, rx := [],
    overrun := 0, dropped := 0, unknown := 0, periodic := [], urgent := [], gatherMs := Config.gatherDefaultMs }

/-- R177 to R182 -/
def Status.reset : Status :=
  { summary := Tab.fill 19 false, changeCount := 0, attention := false, lastRequest := 0, outcome := 0, serial := 0 }

/-- R27, R28: the values after reset with the counter taken from the cell. -/
def Supply.reset (c : Cell) : Supply :=
  { q := c.q, r := c.r, capKept := c.capKept, full := false, empty := false, anchored := c.anchored, fullCount := 0,
    restCount := 0, overrange := false, overrangeCount := 0, lowVoltage := false, lowVoltageCount := 0,
    overdraw := false, overdrawCount := 0, roleClash := false, permit := true, permitCount := 0, chginh := false,
    level := 0, escalation := 0, recovery := 0, latest := none, intervalTimer := none, onNext := false }

def Tank.reset : Tank := { level := none, prev := none, temp := 0, declared := false, count := 0 }

/-- R102, with the dump command taken from the feedback. -/
def Water.reset (feedbackOpen : Bool) : Water :=
  { tanks := Tab.fill 3 Tank.reset, guard := false, guardCount := 0, cycle := .off, owed := 0, demand := false,
    dueTimer := none, dueOnRun := false, circTimer := none, pump := false, runaway := false, runawayTimer := none,
    dumpCount := 0, dumpCmdOpen := feedbackOpen, dumpDrive := .notDriven, valveFault := false, valveTimer := none,
    readTimer := none }

/-- R122: setpoints, chosen mode and Lockout come from the cell. -/
def Climate.reset (c : Cell) : Climate :=
  { zones := c.setpoints.map (fun p => { temp := 0, setpoint := p, demand := 0 }), chosen := c.chosen, call := false,
    callCount := 0, frost := false, tryFailed := false, heater := if c.lockout then .lockout else .off, hen := false,
    hdem := 0, failures := 0, remembered := false, startTimer := none, runTimer := none, purgeTimer := none,
    lockout := c.lockout, padWanted := false, pad := false, readTimer := none }

/-- The state a channel starts from by its two stops (R146). -/
def MState.atReset (er ee : Bool) : MState :=
  match er, ee with
  | true, false => .retracted
  | false, true => .extended
  | _, _ => .unknown

def Chan.reset (st : MState) : Chan :=
  { st := st, bridge := .off, pending := .none, followOn := .none, protective := false, req := 0, offset := 0,
    calTimer := none, calSum := 0, travel := none, stall := none, backoff := none, dwell := none, idle := none,
    travelFault := false, stalled := false }

/-- R146 -/
def Motion.reset (p : Pins) : Motion :=
  { chans := ⟨[Chan.reset (MState.atReset (p.er.get 0) (p.ee.get 0)),
               Chan.reset (MState.atReset (p.er.get 1) (p.ee.get 1))], rfl⟩,
    windPulses := 0, windyCount := 0, windWindow := none, windLockout := none, windDeclared := false, ilock := false }

def Light.reset : Light :=
  { level := 0, target := 0, start := 0, elapsed := 0, fading := false, stepTimer := none, duty := 0 }

/-- R161: the scenes come from the cell. -/
def Lights.reset (c : Cell) : Lights :=
  { chans := Tab.fill 8 Light.reset, groups := Tab.fill 2 { pending := none, result := .none }, ceiling := 1000,
    scenes := c.scenes, courtesy := false, prevTarget := 0, call := false, source := 0, countdown := none,
    due := .none }

def Periods.reset : Periods :=
  { status := none, counters := none, supply := none, shed := none, draw := Tab.fill 7 none, tank := Tab.fill 3 none,
    climate := Tab.fill 2 none, motion := Tab.fill 2 none, interlock := Tab.fill 2 none, light := Tab.fill 8 none }

def Due.reset : Due :=
  { status0 := false, status1 := false, status2 := false, supply := false, shed := false, tank := Tab.fill 3 false,
    climate := Tab.fill 2 false, motion := Tab.fill 2 false, interlock := Tab.fill 2 false, light := Tab.fill 8 false }

/-- The inputs before anything has changed them: nothing asserted, the dump valve's feedback Closed, no end stop
active, no motor current. DESIGN CHOICE, notes/assumptions/2.md. -/
def Pins.initial : Pins :=
  { eng := false, chgav := false, pdem := false, dumpOpen := false, hrun := false, hflt := false, hold := false,
    er := Tab.fill 2 false, ee := Tab.fill 2 false, motor := Tab.fill 2 0,
    straps := { st := 0, fs := { supply := true, water := true, heat := true, motion := true, lights := true } } }

/-- The Start Sequencer at the start of a reset, with the straps' values and setup values given (R183). -/
def Seq.reset (isRestart : Bool) (station : Nat) (fns : Functions) (v : Values) : Seq :=
  { phase := .reset, storage := false, phaseTimer := none, isRestart := isRestart, station := station, fns := fns,
    values := v, pendingItems := Tab.fill 49 none, tookItem := false, defaultsUsed := false, clamped := false,
    lateSetup := 0 }

/-- The part right after a Connect reset has ended: in Listen, the Listen timer at 2 s, the silence timer at 3 s, the
wind window running, the Retained Cell at its defaults (R27, R31, R79, R102, R122, R146, R161, R168, R173, R183, R184).
The straps' values are the model's choice (notes/assumptions/2.md). -/
def State.reset : State :=
  { now := 0, pending := [], pins := Pins.initial,
    seq := { Seq.reset false 1 Pins.initial.straps.fs defaultValues with
      phase := .listen, phaseTimer := some Config.listenMs },
    cell := Cell.default, status := Status.reset, broker := Broker.reset, view := View.reset,
    bus := { Bus.reset with silenceTimer := some Config.silenceMs }, supply := Supply.reset Cell.default,
    water := Water.reset false, climate := Climate.reset Cell.default,
    motion := { Motion.reset Pins.initial with windWindow := some Config.windWindowMs },
    lights := Lights.reset Cell.default, periods := Periods.reset, due := Due.reset }

end Sys2Proof.Machine
end

