-- ==== Sys2Proof/Machine/Frame.lean ====
section
/-! DEFINITION. The bits of records and frames (R163, R164, R176, R177, R179, R181): the layouts of the payloads, the
check word, stuffing, and what a receiver makes of the bits of a frame. The layouts the spec does not table are a
DESIGN CHOICE of notes/assumptions/3.md. -/

namespace Sys2Proof.Machine

/-! ### Numbers as bits, most significant bit first (R163) -/

/-- The low `w` bits of `v`. -/
def bitsOf : Nat → Nat → List Bit
  | 0, _ => []
  | w + 1, v => v.testBit w :: bitsOf w v

def natOf (b : List Bit) : Nat := b.foldl (fun a x => 2 * a + x.toNat) 0

/-- Two's complement in `w` bits. -/
def signedBits (w : Nat) (z : Int) : List Bit := bitsOf w (z % (2 ^ w : Nat)).toNat

def signedOf (w n : Nat) : Int := if 2 ^ (w - 1) ≤ n then (n : Int) - (2 ^ w : Nat) else n

/-- A field of `w` bits that begins `off` bits into `b`. -/
def fieldAt (b : List Bit) (off w : Nat) : Nat := natOf ((b.drop off).take w)

def flagAt (b : List Bit) (off : Nat) : Bool := b.getD off false

/-- A list of bits made exactly `w` long, zeros following. -/
def padTo (w : Nat) (b : List Bit) : List Bit := (b ++ List.replicate w false).take w

/-! ### Payload layouts -/

/-- The 40 bits of a payload: STATUS by R177, SUPPLY and DRAW by R176, REQUEST by R179, NOTICE by R181, the others by
notes/assumptions/3.md. -/
def Payload.bits : Payload → List Bit
  | .status0 f => padTo 40
      ([f.fns.supply, f.fns.water, f.fns.heat, f.fns.motion, f.fns.lights] ++ bitsOf 2 f.phase
        ++ [f.storage, f.localDrive, f.chargeSource, f.lineFault, f.busSilent, f.attention]
        ++ bitsOf 4 f.request ++ bitsOf 4 f.outcome ++ [f.defaultsUsed, f.clamped])
  | .status1 f => padTo 40
      (bitsOf 8 f.overrun ++ bitsOf 8 f.dropped ++ bitsOf 8 f.foreign ++ bitsOf 8 f.unknown ++ bitsOf 8 f.tableError)
  | .status2 f => padTo 40 (bitsOf 8 f.lateSetup ++ padTo 19 f.summary)
  | .statusOther b => padTo 40 b
  | .supply f => padTo 40
      (bitsOf 10 f.soc ++ bitsOf 15 f.h ++ [f.withdrawn, f.lowVoltage, f.anchored] ++ signedBits 8 f.tc
        ++ bitsOf 2 f.trend)
  | .draw f => padTo 40 (bitsOf 15 f.held ++ bitsOf 15 f.asked ++ bitsOf 3 f.rank ++ bitsOf 3 f.state)
  | .shed f => padTo 40 (bitsOf 3 f.level ++ bitsOf 3 f.cause)
  | .tank f => padTo 40
      (bitsOf 10 f.level ++ signedBits 11 f.temp ++ [f.guard, f.demand] ++ bitsOf 3 f.owed ++ [f.dumpOpen])
  | .climate f => padTo 40
      (signedBits 11 f.temp ++ bitsOf 9 f.setpoint ++ bitsOf 2 f.mode ++ bitsOf 3 f.heater ++ bitsOf 7 f.demand
        ++ bitsOf 2 f.frost ++ bitsOf 2 f.pad)
  | .motion f => padTo 40
      (bitsOf 4 f.state ++ bitsOf 2 f.position ++ bitsOf 2 f.pending
        ++ [f.protective, f.hold, f.travelFault, f.stall, f.windLockout])
  | .interlock f => padTo 40 (bitsOf 4 f.state ++ bitsOf 3 f.move ++ [f.hold])
  | .light f => padTo 40
      (bitsOf 10 f.level ++ bitsOf 10 f.target ++ [f.fading] ++ bitsOf 10 f.ceiling ++ [f.courtesy]
        ++ bitsOf 3 f.result ++ bitsOf 2 f.claim)
  | .request f => padTo 40 (bitsOf 4 f.code ++ bitsOf 8 f.index ++ signedBits 16 f.value)
  | .setup f => padTo 40 (bitsOf 6 f.index ++ bitsOf 32 f.value)
  | .notice f => padTo 40 (padTo 19 f.summary ++ bitsOf 5 f.monitor ++ [f.declared] ++ bitsOf 8 f.count)
  | .unknown _ b => padTo 40 b

/-- The payload that 40 bits carry under a kind's code and a subject. Bits a layout marks as 0 are not read (R175).
The value of a SETUP is read unsigned (DESIGN CHOICE: notes/assumptions/93.md). -/
def Payload.ofBits (kind subject : Nat) (b : List Bit) : Payload :=
  match kind with
  | 0 =>
    match subject with
    | 0 => .status0
        { fns := { supply := flagAt b 0, water := flagAt b 1, heat := flagAt b 2, motion := flagAt b 3,
                   lights := flagAt b 4 },
          phase := fieldAt b 5 2, storage := flagAt b 7, localDrive := flagAt b 8, chargeSource := flagAt b 9,
          lineFault := flagAt b 10, busSilent := flagAt b 11, attention := flagAt b 12, request := fieldAt b 13 4,
          outcome := fieldAt b 17 4, defaultsUsed := flagAt b 21, clamped := flagAt b 22 }
    | 1 => .status1
        { overrun := fieldAt b 0 8, dropped := fieldAt b 8 8, foreign := fieldAt b 16 8, unknown := fieldAt b 24 8,
          tableError := fieldAt b 32 8 }
    | 2 => .status2 { lateSetup := fieldAt b 0 8, summary := (b.drop 8).take 19 }
    | _ => .statusOther b
  | 1 => .supply
      { soc := fieldAt b 0 10, h := fieldAt b 10 15, withdrawn := flagAt b 25, lowVoltage := flagAt b 26,
        anchored := flagAt b 27, tc := signedOf 8 (fieldAt b 28 8), trend := fieldAt b 36 2 }
  | 2 => .draw
      { held := fieldAt b 0 15, asked := fieldAt b 15 15, rank := fieldAt b 30 3, state := fieldAt b 33 3 }
  | 3 => .shed { level := fieldAt b 0 3, cause := fieldAt b 3 3 }
  | 4 => .tank
      { level := fieldAt b 0 10, temp := signedOf 11 (fieldAt b 10 11), guard := flagAt b 21, demand := flagAt b 22,
        owed := fieldAt b 23 3, dumpOpen := flagAt b 26 }
  | 5 => .climate
      { temp := signedOf 11 (fieldAt b 0 11), setpoint := fieldAt b 11 9, mode := fieldAt b 20 2,
        heater := fieldAt b 22 3, demand := fieldAt b 25 7, frost := fieldAt b 32 2, pad := fieldAt b 34 2 }
  | 6 => .motion
      { state := fieldAt b 0 4, position := fieldAt b 4 2, pending := fieldAt b 6 2, protective := flagAt b 8,
        hold := flagAt b 9, travelFault := flagAt b 10, stall := flagAt b 11, windLockout := flagAt b 12 }
  | 7 => .interlock { state := fieldAt b 0 4, move := fieldAt b 4 3, hold := flagAt b 7 }
  | 8 => .light
      { level := fieldAt b 0 10, target := fieldAt b 10 10, fading := flagAt b 20, ceiling := fieldAt b 21 10,
        courtesy := flagAt b 31, result := fieldAt b 32 3, claim := fieldAt b 35 2 }
  | 9 => .request
      { code := fieldAt b 0 4, index := fieldAt b 4 8, value := signedOf 16 (fieldAt b 12 16) }
  | 10 => .setup { index := fieldAt b 0 6, value := fieldAt b 6 32 }
  | 11 => .notice
      { summary := b.take 19, monitor := fieldAt b 19 5, declared := flagAt b 24, count := fieldAt b 25 8 }
  | 12 => .unknown 0 b
  | 13 => .unknown 1 b
  | 14 => .unknown 2 b
  | _ => .unknown 3 b

/-- A record's 48 bits (R176). -/
def Record.bits (r : Record) : List Bit := bitsOf 4 r.kind.code ++ bitsOf 4 r.subject ++ r.payload.bits

def Record.ofBits (b : List Bit) : Record :=
  { subject := fieldAt b 4 4, payload := Payload.ofBits (fieldAt b 0 4) (fieldAt b 4 4) ((b.drop 8).take 40) }

/-- The records in `n` × 48 bits, in frame order. -/
def recordsOf : Nat → List Bit → List Record
  | 0, _ => []
  | n + 1, b => Record.ofBits (b.take 48) :: recordsOf n (b.drop 48)

/-! ### The check word (R163) -/

def checkStep (reg : BitVec 16) (b : Bit) : BitVec 16 :=
  if b != reg.msb then (reg <<< 1) ^^^ 0x8BB7#16 else reg <<< 1

def checkWord (b : List Bit) : BitVec 16 := b.foldl checkStep 0xFFFF#16

/-! ### Stuffing (R163) -/

/-- Insert, after every run of 6 equal bits, one bit of the opposite value, which counts as the first of the next
run. `last` and `run` are the value and the length of the run so far. -/
def stuffFrom (last : Bit) (run : Nat) : List Bit → List Bit
  | [] => []
  | b :: rest =>
    let run' := if b = last then run + 1 else 1
    if run' = 6 then b :: (!b) :: stuffFrom (!b) 1 rest
    else b :: stuffFrom b run' rest

def stuff (b : List Bit) : List Bit := stuffFrom true 0 b

/-! ### A frame on the line (R163) -/

/-- The bits of a frame from the arbitration field through the last record. -/
def headBits (cls station : Nat) (records : List Record) : List Bit :=
  bitsOf 2 cls ++ bitsOf 3 (station - 1) ++ bitsOf 2 (records.length - 1) ++ (records.map Record.bits).flatten

/-- The bits of a frame before stuffing, from the start bit through the check word. -/
def plainBits (cls station : Nat) (records : List Record) : List Bit :=
  let h := headBits cls station records
  [false] ++ h ++ bitsOf 16 (checkWord h).toNat

/-- The bits a sender drives: the stuffed frame, the recessive acknowledge slot, and the end field. -/
def frameBits (cls station : Nat) (records : List Record) : List Bit :=
  stuff (plainBits cls station records) ++ [true] ++ [true, true, true, true]

/-! ### Receiving (R164) -/

/-- How a received frame closes. -/
inductive Reception
  | good (cls station : Nat) (records : List Record)
  | error (d : Disposition)
  deriving DecidableEq, Repr

/-- The number of records the count field announces, once the bits without stuff bits reach it. -/
def countOf (acc : List Bit) : Nat := fieldAt acc 6 2 + 1

/-- The bits without stuff bits reach the last bit of the check word. -/
def complete (acc : List Bit) : Bool := decide (8 ≤ acc.length) && decide (acc.length = 24 + 48 * countOf acc)

/-- What a frame whose check word is complete closes with. -/
def closeWith (acc : List Bit) : Reception :=
  let n := countOf acc
  let h := (acc.drop 1).take (7 + 48 * n)
  if fieldAt acc (8 + 48 * n) 16 = (checkWord h).toNat then
    .good (fieldAt acc 1 2) (fieldAt acc 3 3 + 1) (recordsOf n ((acc.drop 8).take (48 * n)))
  else .error .checkFail

/-- Take in the line bit by bit, removing the bit that follows a run of 6 equal bits; 7 equal bits close the frame as
Stuff Error (dominant) or Truncated (recessive). `none` when the bits end before the frame closes. -/
def receiveFrom (last : Bit) (run : Nat) (acc : List Bit) : List Bit → Option Reception
  | [] => none
  | b :: rest =>
    if run = 6 then
      if b = last then some (.error (if b then .truncated else .stuffError))
      else receiveFrom b 1 acc rest
    else
      let acc' := acc ++ [b]
      if complete acc' then some (closeWith acc')
      else receiveFrom b (if b = last then run + 1 else 1) acc' rest

/-- What a receiver makes of the bits from a start bit on; without a dominant start bit there is no frame. -/
def receive (line : List Bit) : Option Reception :=
  match line with
  | false :: _ => receiveFrom true 0 [] line
  | _ => none

end Sys2Proof.Machine
end

