-- ==== Sys2Proof/Machine/Ops.lean ====
section
/-! DEFINITION. The operations every block shares: small arithmetic, timers, the setup items by their names, and the
Transmit Gatherer, through which every record leaves (R171, R172). The part takes no exception: raising a monitor is an
effect on State (Flags.lean). -/

namespace Sys2Proof.Machine

/-! ### Arithmetic and timers -/

/-- Counters shown to the outside stop at 255 (introduction, Counters). -/
def sat255 (n : Nat) : Nat := min n 255

def clampInt (lo hi x : Int) : Int := max lo (min x hi)

/-- One millisecond passes on a timer; a timer that has run down waits for its expiry command. -/
def tickTimer (t : Timer) : Timer := t.map (· - 1)

def upper16 (v : Nat) : Nat := v / 65536
def lower16 (v : Nat) : Nat := v % 65536

/-- Count consecutive events: a condition that fails sets the count to zero, and at the `limit`th the answer is `true`
with the count at zero again. -/
def countTo (limit : Nat) (cond : Bool) (count : Nat) : Nat × Bool :=
  if cond then if limit ≤ count + 1 then (0, true) else (count + 1, false) else (0, false)

def fin2 : List (Fin 2) := [0, 1]
def fin3 : List (Fin 3) := [0, 1, 2]
def fin4 : List (Fin 4) := [0, 1, 2, 3]
def fin7 : List (Fin 7) := [0, 1, 2, 3, 4, 5, 6]
def fin8 : List (Fin 8) := [0, 1, 2, 3, 4, 5, 6, 7]
def fin16 : List (Fin 16) := [0, 1, 2, 3, 4, 5, 6, 7, 8, 9, 10, 11, 12, 13, 14, 15]
def fin19 : List (Fin 19) := [0, 1, 2, 3, 4, 5, 6, 7, 8, 9, 10, 11, 12, 13, 14, 15, 16, 17, 18]

/-! ### The setup items by name (R185) -/

namespace Item

def capacity (v : Values) : Nat := v.get 0
def lithium (v : Values) : Bool := v.get 1 == 1
def efficiency (v : Values) : Nat := v.get 2
def reserve (v : Values) : Nat := v.get 3
def imax (v : Values) : Nat := v.get 4
def baseLoad (v : Values) : Nat := v.get 5
def vcut (v : Values) : Nat := v.get 6
def vfull (v : Values) : Nat := v.get 7
def itail (v : Values) : Nat := v.get 8
def floorF (v : Values) : Nat := v.get 9
/-- The open-circuit table: mV and per mille of the eight points. -/
def octPoints (v : Values) : List (Nat × Nat) :=
  [v.get 10, v.get 11, v.get 12, v.get 13, v.get 14, v.get 15, v.get 16, v.get 17].map
    (fun x => (upper16 x, lower16 x))
def pinned (v : Values) : Nat := v.get 18
def rosterClosed (v : Values) : Bool := v.get 19 == 1
/-- Station `n` is in the roster list. -/
def rosterLists (v : Values) (n : Nat) : Bool := (v.get 20).testBit (n - 1)
def frostIntervalMs (v : Values) : Nat := v.get 21 * 60000
def tankItem (v : Values) : Fin 3 → Nat
  | 0 => v.get 22
  | 1 => v.get 23
  | 2 => v.get 24
def tankEmpty (v : Values) (t : Fin 3) : Nat := upper16 (tankItem v t)
def tankFull (v : Values) (t : Fin 3) : Nat := lower16 (tankItem v t)
def pumpDraw (v : Values) : Nat := v.get 25
def startDraw (v : Values) : Nat := v.get 26
def runDraw (v : Values) : Nat := v.get 27
def padFitted (v : Values) : Bool := v.get 28 == 1
def padDraw (v : Values) : Nat := v.get 29
def motionDraw (v : Values) : Fin 2 → Nat
  | 0 => v.get 30
  | 1 => v.get 31
def travelMs (v : Values) : Fin 2 → Nat
  | 0 => v.get 32 * 1000
  | 1 => v.get 33 * 1000
def stallThreshold (v : Values) : Fin 2 → Nat
  | 0 => v.get 34
  | 1 => v.get 35
def holdHalt (v : Values) : Bool := v.get 36 == 1
def windThreshold (v : Values) : Nat := v.get 37
def fadeMs (v : Values) : Nat := v.get 38
def lightDraw (v : Values) : Fin 8 → Nat
  | 0 => v.get 39
  | 1 => v.get 40
  | 2 => v.get 41
  | 3 => v.get 42
  | 4 => v.get 43
  | 5 => v.get 44
  | 6 => v.get 45
  | 7 => v.get 46
/-- The courtesy channel, or none for the code 8. -/
def courtesy (v : Values) : Option (Fin 8) := if h : v.get 47 < 8 then some ⟨v.get 47, h⟩ else none
def gatherMs (v : Values) : Nat := v.get 48

end Item

/-! ### Questions every block asks -/

/-- Run, with Storage inside it (R184). -/
def State.inRun (s : State) : Bool := s.seq.phase == .run

def State.inReset (s : State) : Bool := s.seq.phase == .reset

def State.claim (s : State) (id : Fin 7) : Claim := s.broker.claims.get id

/-- The station's own charge source (R119). -/
def State.chargeSource (s : State) : Bool := s.pins.eng || s.pins.chgav

def State.setClaim (s : State) (id : Fin 7) (c : Claim) : State :=
  s.setBroker { s.broker with claims := s.broker.claims.set id c }

def State.setChan (s : State) (ch : Fin 2) (c : Chan) : State :=
  s.setMotion { s.motion with chans := s.motion.chans.set ch c }

def State.chan (s : State) (ch : Fin 2) : Chan := s.motion.chans.get ch

/-! ### The Transmit Gatherer (R171, R172) -/

def Waiting.cls (w : Waiting) : Nat := w.item.record.kind.cls

def Waiting.sameKey (r : Record) (w : Waiting) : Bool :=
  w.item.record.kind == r.kind && w.item.record.subject == r.subject

/-- Replace the payload of the waiting record of the same kind and subject in place, keeping its slot and join time. -/
def coalesce (t : Tagged) (lane : List Waiting) : List Waiting :=
  lane.map fun w => if w.sameKey t.record then { w with item := t } else w

/-- Take out the first record of the lane that meets `p`, the oldest since the lane is in order of join times. -/
def dropOldest (p : Waiting → Bool) (lane : List Waiting) : List Waiting := lane.eraseP p

/-- What a full periodic lane gives up: its oldest class-3 record, or else its oldest class-2 record. Class-1 records
are not discarded; a lane of eight of them cannot come about (R171) and is left as it is. -/
def Bus.joinFullPeriodic (now : Nat) (t : Tagged) (b : Bus) : Bus :=
  if b.periodic.any (fun w => w.cls == 3) then
    { b with periodic := dropOldest (fun w => w.cls == 3) b.periodic ++ [⟨t, now, false⟩], dropped := sat255 (b.dropped + 1) }
  else if b.periodic.any (fun w => w.cls == 2) then
    { b with periodic := dropOldest (fun w => w.cls == 2) b.periodic ++ [⟨t, now, false⟩], dropped := sat255 (b.dropped + 1) }
  else b

/-- A record handed over enters its lane (R171). -/
def Bus.join (now : Nat) (t : Tagged) (b : Bus) : Bus :=
  if t.record.kind.cls = 0 then
    if b.urgent.any (Waiting.sameKey t.record) then { b with urgent := coalesce t b.urgent }
    else if b.urgent.length < Config.urgentSlots then { b with urgent := b.urgent ++ [⟨t, now, false⟩] }
    else { b with urgent := b.urgent.drop 1 ++ [⟨t, now, false⟩], dropped := sat255 (b.dropped + 1) }
  else if b.periodic.any (Waiting.sameKey t.record) then { b with periodic := coalesce t b.periodic }
  else if b.periodic.length < Config.periodicSlots then { b with periodic := b.periodic ++ [⟨t, now, false⟩] }
  else b.joinFullPeriodic now t

def Bus.ofClass (c : Nat) (b : Bus) : List Waiting := b.periodic.filter (fun w => w.cls == c)

/-- Class 1, 2 or 3 is ready (R172). A record past the timeout then in force stays ripe when a longer one comes into force
(DESIGN CHOICE: notes/assumptions/74.md). -/
def Bus.ready (now c : Nat) (b : Bus) : Bool :=
  match b.ofClass c with
  | [] => false
  | w :: rest => c == 1 || decide (3 ≤ rest.length) || w.ripe || decide (w.join + b.gatherMs ≤ now)

/-- Take the first `n` records of class `c` out of a lane. -/
def takeOut (c n : Nat) : List Waiting → List Waiting
  | [] => []
  | w :: rest =>
    if w.cls == c then
      match n with
      | 0 => w :: takeOut c 0 rest
      | k + 1 => takeOut c k rest
    else w :: takeOut c n rest

/-- Build a frame of class `c` into the normal buffer: up to four of its records, oldest first (R172). -/
def Bus.buildNormal (c : Nat) (b : Bus) : Bus :=
  { b with
    normalBuf := some { cls := c, records := ((b.ofClass c).take 4).map (·.item), probe := false }
    periodic := takeOut c 4 b.periodic }

/-- Build whatever is ready into an empty buffer; while Line Fault is declared, nothing (R167, R172). -/
def Bus.build (now : Nat) (b : Bus) : Bus :=
  if b.lineFault then b
  else
    let b := if b.urgentBuf.isNone && !b.urgent.isEmpty then
        { b with
          urgentBuf := some { cls := 0, records := (b.urgent.take 4).map (·.item), probe := false }
          urgent := b.urgent.drop 4 }
      else b
    if b.normalBuf.isSome then b
    else if b.ready now 1 then b.buildNormal 1
    else if b.ready now 2 then b.buildNormal 2
    else if b.ready now 3 then b.buildNormal 3
    else b

/-- Hand a record to the Transmit Gatherer, which builds at once what has become ready. -/
def State.hand (s : State) (r : Record) (tag : Nat) : State :=
  s.setBus (((s.bus.join s.now ⟨r, tag⟩)).build s.now)

end Sys2Proof.Machine
end

