-- ==== Sys2Proof/Machine/Flags.lean ====
section
/-! DEFINITION. Station Status: monitors, the declared-monitor summary, NOTICE, attention, the outcome of requests and
the figures of STATUS (R177 to R182). -/

namespace Sys2Proof.Machine

/-! ### Monitors (R181) -/

namespace Mon
def overrange : Fin 19 := 0
def lowVoltage : Fin 19 := 1
def overdraw : Fin 19 := 2
def roleClash : Fin 19 := 3
def viewOverflow : Fin 19 := 4
def tank : Fin 3 → Fin 19
  | 0 => 5
  | 1 => 6
  | 2 => 7
def frostGuard : Fin 19 := 8
def pumpRunaway : Fin 19 := 9
def valveFault : Fin 19 := 10
def lockout : Fin 19 := 11
def travelFault : Fin 2 → Fin 19
  | 0 => 12
  | 1 => 13
def stall : Fin 2 → Fin 19
  | 0 => 14
  | 1 => 15
def windLockout : Fin 19 := 16
def lineFault : Fin 19 := 17
def busSilent : Fin 19 := 18
end Mon

/-- The attention class (R181). -/
def attentionClass (n : Fin 19) : Bool := [1, 2, 3, 9, 10, 11, 12, 13, 16, 17].contains n.val

/-- The NOTICE of a change of monitor `n`, with the summary and the change count as they stand (R181). -/
def noticeRecord (s : State) (n : Fin 19) (declared : Bool) : Record :=
  { subject := 0,
    payload := .notice { summary := s.status.summary.items, monitor := n.val, declared := declared,
                         count := s.status.changeCount } }

/-- Set the attention flag for a declaration of the attention class in Run (R182). -/
def State.raiseAttention (s : State) (n : Fin 19) (declared : Bool) : State :=
  if declared && attentionClass n && s.inRun then s.setStatus { s.status with attention := true } else s

/-- A monitor's change is handed to the Station Status logic (R178, R181): the summary and the change count follow it,
STATUS subject 2 falls due, and from entry into Run onward a NOTICE goes out and a declaration of the attention class
sets the flag. Where claims follow in the same event, notes/assumptions/89.md says which goes first (DESIGN CHOICE). -/
def State.monitor (s : State) (n : Fin 19) (declared : Bool) : State :=
  let s := (s.setStatus { s.status with
    summary := s.status.summary.set n declared, changeCount := sat255 (s.status.changeCount + 1) }).setDue
    { s.due with status2 := true }
  let s := if s.inRun then s.hand (noticeRecord s n declared) 0 else s
  s.raiseAttention n declared

/-- On entering Run: one NOTICE of declaration for each monitor then declared, in order, with attention (R181, R182). -/
def State.runEntryNotices (s : State) : State :=
  fin19.foldl (fun s n =>
    if s.status.summary.get n then (s.hand (noticeRecord s n true) 0).raiseAttention n true else s) s

/-! ### Requests and outcomes (R179, R180) -/

namespace Outcome
def accepted : Nat := 1
def waiting : Nat := 2
def absent : Nat := 3
def drive : Nat := 4
def hold : Nat := 5
def wind : Nat := 6
def frost : Nat := 7
def lockout : Nat := 8
def storage : Nat := 9
def phase : Nat := 10
def range : Nat := 11
def fault : Nat := 12
end Outcome

/-- Answer a request: the last request and the outcome are set, and STATUS subject 0 is handed over (R178, R180). -/
def State.answer (s : State) (code outcome : Nat) : State :=
  (s.setStatus { s.status with lastRequest := code, outcome := outcome, serial := s.status.serial + 1 }).setDue
    { s.due with status0 := true }

/-- Change the outcome shown for the request numbered `req`, while it is still the last the station answered (R180). -/
def State.reviseOutcome (s : State) (req outcome : Nat) : State :=
  if req != 0 && req == s.status.serial then s.setStatus { s.status with outcome := outcome } else s

/-! ### STATUS figures (R177) -/

def Phase.code : Phase → Nat
  | .reset | .listen => 0
  | .setup => 1
  | .calibrate => 2
  | .run => 3

def statusState (s : State) : StatusState :=
  { fns := s.seq.fns, phase := s.seq.phase.code, storage := s.seq.storage, localDrive := s.view.localDrive,
    chargeSource := s.chargeSource, lineFault := s.bus.lineFault, busSilent := s.bus.busSilent,
    attention := s.status.attention, request := s.status.lastRequest, outcome := s.status.outcome,
    defaultsUsed := s.seq.defaultsUsed, clamped := s.seq.clamped }

def status0Record (s : State) : Record := { subject := 0, payload := .status0 (statusState s) }

def status1Record (s : State) : Record :=
  { subject := 1,
    payload := .status1 { overrun := s.bus.overrun, dropped := s.bus.dropped, foreign := s.view.foreign,
                          unknown := s.bus.unknown, tableError := s.view.tableError } }

def status2Record (s : State) : Record :=
  { subject := 2,
    payload := .status2 { lateSetup := s.seq.lateSetup, summary := s.status.summary.items } }

end Sys2Proof.Machine
end

