-- ==== Sys2Proof/Machine/View.lean ====
section
/-! DEFINITION. The Peer View (R56 to R80): the table, its keys and sets, freshness, replacement, checking, losses and
holds. What the readers do with a change is in Machine/React.lean. -/

namespace Sys2Proof.Machine

/-! ### Keys, kinds and thresholds -/

def Entry.kind (e : Entry) : Kind := e.payload.kind
def Entry.key (e : Entry) : Key := { station := e.station, kind := e.kind, subject := e.subject }

/-- The set a key is stored in (R57). -/
def setOf (k : Key) : Fin 16 := ⟨(5 * k.kind.code + k.station + 3 * k.subject) % 16, Nat.mod_lt _ (by decide)⟩

/-- Aging thresholds (R59). -/
def agingAt : Kind → Nat
  | .status => 3000 | .supply => 1500 | .draw => 3000
  | .tank | .climate | .light => 15000
  | .motion => 3000 | .interlock => 600
  | _ => 0

/-- Stale thresholds (R59). -/
def staleAt : Kind → Nat
  | .status => 12000 | .supply => 6000 | .draw => 6000
  | .tank | .climate | .light => 40000
  | .motion => 12000 | .interlock => 2000
  | _ => 0

/-- Freshness by age and kind (R59). -/
def freshnessAt (k : Kind) (age : Nat) : Freshness :=
  if age < agingAt k then .fresh else if age < staleAt k then .aging else .stale

/-- Fresh or Aging: what a reader treats as present (R60). -/
def Freshness.live : Freshness → Bool
  | .fresh | .aging => true
  | _ => false

/-! ### The check (R58, R69) -/

def Freshness.code : Freshness → Nat
  | .fresh => 0 | .aging => 1 | .stale => 2 | .held => 3

/-- Parity over every field of the entry but the check itself. -/
def Entry.parity (e : Entry) : Bool :=
  ([e.valid] ++ bitsOf 3 (e.station - 1) ++ bitsOf 4 e.kind.code ++ bitsOf 4 e.subject ++ e.payload.bits
    ++ bitsOf 2 e.fresh.code ++ bitsOf 16 e.age ++ [e.drive] ++ bitsOf 2 e.clear).foldl xor false

/-- Work the check out afresh, as every write to an entry does. -/
def Entry.seal (e : Entry) : Entry := { e with check := e.parity }

/-- A valid entry whose check disagrees. -/
def Entry.bad (e : Entry) : Bool := e.valid && e.check != e.parity

/-- An emptied entry keeps nothing that is read. -/
def Entry.invalidate (e : Entry) : Entry := { e with valid := false }.seal

/-- A valid DRAW entry that is Fresh or Aging: its loss declares View Overflow (R70). -/
def Entry.liveDraw (e : Entry) : Bool := e.valid && e.kind == .draw && e.fresh.live

/-! ### The table -/

def ViewSet.entries (v : ViewSet) : List Entry := v.ways.items.filter (·.valid)

def State.entries (s : State) : List Entry := s.view.sets.items.flatMap ViewSet.entries

/-- Apply `f` to every way of every set. -/
def State.mapEntries (s : State) (f : Entry → Entry) : State :=
  s.setView { s.view with sets := s.view.sets.map fun v => { v with ways := v.ways.map f } }

def State.tell (s : State) (cs : List ViewChange) : State :=
  s.setView { s.view with changes := s.view.changes ++ cs }

/-! ### View Overflow (R70) -/

/-- A loss declares View Overflow, or restarts its clear timer. -/
def State.lose (s : State) : State :=
  let was := s.view.overflow
  let s := s.setView { s.view with overflow := true, overflowTimer := some Config.overflowMs }
  if was then s else s.monitor Mon.viewOverflow true

/-! ### Checking on a read (R69) -/

def ViewSet.scrub (p : Entry → Bool) (v : ViewSet) : ViewSet :=
  { v with ways := v.ways.map fun e => if e.bad && p e then e.invalidate else e }

/-- The entries that a read meeting `p` finds in check failure, by set and then by way (DESIGN CHOICE:
notes/assumptions/85.md). -/
def State.badEntries (s : State) (p : Fin 16 → Entry → Bool) : List Entry :=
  fin16.flatMap fun i => (s.view.sets.get i).ways.items.filter fun e => e.bad && p i e

/-- Read the entries that meet `p`: one whose check disagrees is invalidated, counted as a Table Error, told to the
readers, and, when it reads as a Fresh or Aging DRAW, lost (R69). The loss declares View Overflow here, before the readers
are told at the end of the step (DESIGN CHOICE: notes/assumptions/58.md). -/
def State.read (s : State) (p : Fin 16 → Entry → Bool) : State :=
  let bad := s.badEntries p
  if bad.isEmpty then s
  else
    let s' := s.setView { s.view with
      sets := ⟨fin16.map fun i => (s.view.sets.get i).scrub (p i), rfl⟩
      tableError := sat255 (s.view.tableError + bad.length)
      changes := s.view.changes ++ bad.map fun e => { key := e.key, what := .invalidated .checkFailure } }
    if bad.any Entry.liveDraw then s'.lose else s'

/-- Read every entry that meets `p`, wherever it stands. -/
def State.readAll (s : State) (p : Entry → Bool) : State := s.read fun _ e => p e

/-! ### Replacement (R64 to R67) -/

/-- The two bits on a way's path are set to point away from it (R66). -/
def ViewSet.touch (v : ViewSet) : Fin 4 → ViewSet
  | 0 => { v with b0 := true, b1 := true }
  | 1 => { v with b0 := true, b1 := false }
  | 2 => { v with b0 := false, b2 := true }
  | 3 => { v with b0 := false, b2 := false }

/-- The way the full tree names (R66). -/
def ViewSet.fullTree (v : ViewSet) : Fin 4 :=
  if v.b0 then (if v.b2 then 3 else 2) else (if v.b1 then 1 else 0)

/-- The way the bits name for a non-critical record, with `k` ways pinned (R67). -/
def ViewSet.unpinnedTree (v : ViewSet) (k : Nat) : Fin 4 :=
  match k with
  | 0 => v.fullTree
  | 1 => if v.fullTree = 0 then 1 else v.fullTree
  | 2 => if v.b2 then 3 else 2
  | _ => 3

/-- The ways a record may take: all four for a critical kind, the unpinned ones otherwise (R64). -/
def mayTake (critical : Bool) (k : Nat) : List (Fin 4) :=
  if critical then fin4 else fin4.filter fun w => decide (k ≤ w.val)

/-- The way to fill: the lowest invalid, else the lowest Stale, else the way the bits name (R65). -/
def ViewSet.victim (v : ViewSet) (critical : Bool) (k : Nat) : Fin 4 :=
  let ways := mayTake critical k
  match ways.find? (fun w => !(v.ways.get w).valid) with
  | some w => w
  | none =>
    match ways.find? (fun w => (v.ways.get w).fresh == .stale) with
    | some w => w
    | none => if critical then v.fullTree else v.unpinnedTree k

/-- The way that holds a key. -/
def ViewSet.find (v : ViewSet) (k : Key) : Option (Fin 4) :=
  fin4.find? fun w => (v.ways.get w).valid && (v.ways.get w).key == k

/-! ### Arrival (R63, R64, R68, R77) -/

/-- The local drive a STATUS subject 0 payload carries; none for every other payload. -/
def Payload.drive? : Payload → Option Bool
  | .status0 f => some f.localDrive
  | _ => none

/-- Debounced drive and clear count of an entry just filled, or hit while Stale (R77). -/
def driveFirst (p : Payload) : Bool × Nat := (p.drive?.getD false, 0)

/-- Debounced drive and clear count after a record is stored into a Fresh, Aging or Held entry (R77). -/
def driveNext (e : Entry) (p : Payload) : Bool × Nat :=
  match p.drive? with
  | none => (false, 0)
  | some true => (true, 0)
  | some false => if e.drive then (if e.clear < 2 then (true, e.clear + 1) else (false, 0)) else (false, 0)

/-- The freshness of an entry just stored: Held while a hold is in force, else Fresh (R63, R72). -/
def View.storeFreshness (v : View) : Freshness := if v.holdTimer.isSome then .held else .fresh

def Entry.filled (station subject : Nat) (p : Payload) (f : Freshness) : Entry :=
  { valid := true, station := station, subject := subject, payload := p, fresh := f, age := 0,
    drive := (driveFirst p).1, clear := (driveFirst p).2, check := false : Entry }.seal

def Entry.hit (e : Entry) (p : Payload) (f : Freshness) : Entry :=
  let d := if e.fresh = .stale then driveFirst p else driveNext e p
  { e with payload := p, fresh := f, age := 0, drive := d.1, clear := d.2 : Entry }.seal

def State.setWay (s : State) (i : Fin 16) (w : Fin 4) (e : Entry) : State :=
  let v := s.view.sets.get i
  s.setView { s.view with sets := s.view.sets.set i ({ v with ways := v.ways.set w e }.touch w) }

/-- A hit (R63): the entry takes the payload, and the readers are told. -/
def State.hit (s : State) (i : Fin 16) (w : Fin 4) (p : Payload) : State :=
  let e := (s.view.sets.get i).ways.get w
  let e' := e.hit p s.view.storeFreshness
  (s.setWay i w e').tell
    ({ key := e.key, what := .stored (some e.payload) p } ::
      if e.fresh = e'.fresh then [] else [{ key := e.key, what := .freshness e.fresh e'.fresh }])

/-- A fill (R64, R65, R68): the way chosen gives up what it holds, a Fresh or Aging DRAW being a loss. View Overflow then
stands declared before the readers hear of the loss (DESIGN CHOICE: notes/assumptions/58.md). -/
def State.fill (s : State) (i : Fin 16) (k : Key) (p : Payload) : State :=
  let v := s.view.sets.get i
  let w := v.victim k.kind.critical (Item.pinned s.seq.values)
  let old := v.ways.get w
  let s' := (s.setWay i w (Entry.filled k.station k.subject p s.view.storeFreshness)).tell
    ((if old.valid then [{ key := old.key, what := .invalidated .evicted }] else [])
      ++ [{ key := k, what := .stored none p }])
  if old.liveDraw then s'.lose else s'

/-- An arrival: a record of a stored kind from another station (R56, R63). -/
def State.arrive (s : State) (station : Nat) (r : Record) : State :=
  let k : Key := { station := station, kind := r.kind, subject := r.subject }
  let i := setOf k
  let s := s.read fun j _ => j == i
  match (s.view.sets.get i).find k with
  | some w => s.hit i w r.payload
  | none => s.fill i k r.payload

/-! ### Changes of freshness (R59, R71, R73) -/

/-- Give every entry that meets `p` the freshness and age `f` names, and tell the readers of each change, by set and then by way
(DESIGN CHOICE: notes/assumptions/85.md). -/
def State.refresh (s : State) (p : Entry → Bool) (f : Entry → Freshness × Nat) : State :=
  let hit := s.entries.filter p
  (s.mapEntries fun e =>
    if e.valid && p e then { e with fresh := (f e).1, age := (f e).2 : Entry }.seal else e).tell
    (hit.filterMap fun e =>
      if e.fresh = (f e).1 then none else some { key := e.key, what := .freshness e.fresh (f e).1 })

/-- The entry's age reaches `limit` in the millisecond at hand (R59). An age that an arrival has just taken back to 0
does not. -/
def Entry.reaches (e : Entry) (limit : Nat) : Bool := decide (limit ≤ e.age + 1)

/-- An entry's age reaches its Aging threshold. -/
def State.entryAges (s : State) (k : Key) : State :=
  s.refresh (fun e => e.key == k && e.fresh == .fresh && e.reaches (agingAt e.kind)) fun e =>
    (.aging, agingAt e.kind)

/-- An entry's age reaches its Stale threshold. -/
def State.entryGoesStale (s : State) (k : Key) : State :=
  s.refresh (fun e => e.key == k && e.fresh.live && e.reaches (staleAt e.kind)) fun e =>
    (.stale, staleAt e.kind)

/-- A hold begins: every Fresh or Aging entry becomes Held at its age (R71). -/
def State.holdBegins (s : State) : State :=
  let s := s.refresh (fun e => e.fresh.live) (fun e => (.held, e.age))
  s.setView { s.view with holdTimer := some Config.holdMs }

/-- Line Fault clears during a hold: every Held entry takes up its age (R73). -/
def State.holdResumes (s : State) : State :=
  let s := s.refresh (fun e => e.fresh == .held) (fun e => (freshnessAt e.kind e.age, e.age))
  s.setView { s.view with holdTimer := none }

/-- The hold timer expires: every valid entry becomes Stale (R73). -/
def State.holdRunsOut (s : State) : State :=
  let s := s.refresh (fun _ => true) (fun e => (.stale, staleAt e.kind))
  s.setView { s.view with holdTimer := none }

/-! ### The end of Setup (R75) -/

/-- Invalidate every valid entry that meets `p`, for `cause`; no loss and no Table Error. The readers are told by set and then by
way (DESIGN CHOICE: notes/assumptions/85.md). -/
def State.expel (s : State) (p : Fin 4 → Entry → Bool) (cause : Cause) : State :=
  let gone := s.view.sets.items.flatMap fun v =>
    (fin4.filter fun w => (v.ways.get w).valid && p w (v.ways.get w)).map fun w => v.ways.get w
  (s.setView { s.view with sets := s.view.sets.map fun v =>
      { v with ways := ⟨fin4.map fun w =>
          let e := v.ways.get w
          if e.valid && p w e then e.invalidate else e, rfl⟩ } }).tell
    (gone.map fun e => { key := e.key, what := .invalidated cause })

/-- Bring the table into line with the roster and the pinned-way count now in force (R75), the roster first (DESIGN CHOICE:
notes/assumptions/85.md). -/
def State.rosterAndPinning (s : State) : State :=
  let v := s.seq.values
  let s := if Item.rosterClosed v then s.expel (fun _ e => !Item.rosterLists v e.station) .roster else s
  s.expel (fun w e => !e.kind.critical && decide (w.val < Item.pinned v)) .pinning

/-! ### What the readers read -/

/-- A SUPPLY entry of subject 0 that is Fresh, Aging or Held, with its figures taken as R175 gives (R62). -/
def Entry.usable? (e : Entry) : Option Usable :=
  match e.payload with
  | .supply f =>
    if e.valid && e.subject == 0 && e.fresh != .stale then
      some { station := e.station, soc := min f.soc 1000, h := min f.h Config.maxAmount, withdrawn := f.withdrawn,
             tc := f.tc }
    else none
  | _ => none

/-- The stations 1 to 8. -/
def stations : List Nat := [1, 2, 3, 4, 5, 6, 7, 8]

/-- The usable SUPPLY entry of a station without the supply function: the lowest-numbered sender's (R62). -/
def State.peerUsable (s : State) : Option Usable :=
  stations.findSome? fun n => s.entries.findSome? fun e => if e.station = n then e.usable? else none

/-- The supply station's own latest figures as its usable SUPPLY entry (R2, R62). -/
def State.ownUsable (s : State) : Option Usable :=
  s.supply.latest.map fun f =>
    { station := s.seq.station, soc := f.soc, h := f.h, withdrawn := !f.permit, tc := f.tc }

def State.usable (s : State) : Option Usable := if s.seq.fns.supply then s.ownUsable else s.peerUsable

/-- Reading the usable SUPPLY entry checks the entries it is chosen from (R69), those of senders with higher numbers than the one
chosen too (DESIGN CHOICE: notes/assumptions/91.md). -/
def State.readSupply (s : State) : State :=
  if s.seq.fns.supply then s else s.readAll fun e => e.usable?.isSome

/-- A STATUS subject 0 entry that counts toward drive accepted (R78). -/
def Entry.showsDrive (e : Entry) : Bool :=
  e.valid && e.kind == .status && e.subject == 0 && e.fresh != .stale && e.drive

/-- Drive accepted as its inputs now stand (R78). -/
def State.driveNow (s : State) : Bool := s.view.localDrive || s.entries.any Entry.showsDrive

/-- A Fresh or Aging TANK entry with frost demand set (R110). -/
def Entry.showsFrostDemand (e : Entry) : Bool :=
  e.valid && e.fresh.live && match e.payload with
    | .tank f => f.demand
    | _ => false

/-- A Fresh or Aging CLIMATE entry of zone 0 or 1 whose heater is Running, code 2 (R97). -/
def Entry.showsHeater (e : Entry) : Bool :=
  e.valid && e.fresh.live && decide (e.subject ≤ 1) && match e.payload with
    | .climate f => f.heater == 2
    | _ => false

/-- A Fresh or Aging STATUS subject 0 entry with charge source set (R119). -/
def Entry.showsCharge (e : Entry) : Bool :=
  e.valid && e.fresh.live && e.subject == 0 && match e.payload with
    | .status0 f => f.chargeSource
    | _ => false

/-- The step's state code in a Fresh or Aging MOTION entry of subject 0 (R159). -/
def Entry.stepCode? (e : Entry) : Option Nat :=
  if e.valid && e.fresh.live && e.subject == 0 then
    match e.payload with
    | .motion f => some f.state
    | _ => none
  else none

end Sys2Proof.Machine
end

