-- ==== Sys2Proof/Machine/Broker.lean ====
section
/-! DEFINITION. The Load Broker (R30 to R55): the claim table, the order among claims, the known total, the pre-test,
contests, and the operations an owning block reaches its claim through. What an owner does with a report, and the
yields to the shed level, are in the owners' files and in Machine/React.lean. -/

namespace Sys2Proof.Machine

/-- What the Broker reports to an owner (R33); `none` when an ask has been taken and nothing is told yet, `waits` when a
standing ask's contest was not won, of which R33 tells the owner nothing but after which the heater may ask anew (R111). -/
inductive Reply
  | none | granted | refused | lost | waits | yield
  deriving DecidableEq, Repr

/-! ### Load ids (R30) -/

def loadHeater : Fin 7 := 0
def loadPad : Fin 7 := 1
def loadPump : Fin 7 := 2
def loadMotor : Fin 2 → Fin 7
  | 0 => 3
  | 1 => 4
def loadLights : Fin 2 → Fin 7
  | 0 => 5
  | 1 => 6

def isLightLoad (id : Fin 7) : Bool := decide (5 ≤ id.val)

/-! ### Order and known total (R35, R36) -/

/-- A claim as the order sees it: rank, station number and load id. -/
structure Place where
  rank : Nat
  station : Nat
  load : Nat
  deriving DecidableEq, Repr

/-- X outranks Y (R35). -/
def Place.outranks (x y : Place) : Bool :=
  decide (x.rank < y.rank) ||
    (x.rank == y.rank && (decide (x.station < y.station) || (x.station == y.station && decide (x.load < y.load))))

/-- The rank a claim's ask is tested and ordered at: a raise of a light group kept at rank 0 is contested at rank 6 (R51). -/
def askRank (id : Fin 7) (c : Claim) : Nat := if c.st = .held ∧ c.rank = 0 ∧ isLightLoad id then 6 else c.rank

def State.place (s : State) (id : Fin 7) (c : Claim) : Place :=
  { rank := askRank id c, station := s.seq.station, load := id.val }

/-- What another own claim counts toward the known total of the claim at `x` (R36). -/
def State.ownShare (s : State) (x : Place) (id : Fin 7) : Nat :=
  let c := s.claim id
  match c.st with
  | .held => if c.raise && (s.place id c).outranks x then c.asked else c.held
  | .forced => c.held
  | .contest => if (s.place id c).outranks x then c.asked else 0
  | _ => 0

/-- What a Peer View entry counts toward the known total of the claim at `x` (R36), its fields taken as R175 gives. -/
def Entry.share (x : Place) (e : Entry) : Nat :=
  if e.valid && e.fresh.live && decide (e.subject ≤ 6) then
    match e.payload with
    | .draw f =>
      let held := min f.held Config.maxAmount
      match f.state with
      | 1 =>
        if Place.outranks { rank := min f.rank 6, station := e.station, load := e.subject } x then
          min f.asked Config.maxAmount
        else held
      | 2 | 3 => held
      | _ => 0
    | _ => 0
  else 0

/-- The known total for the claim `id` standing at `x` (R36). -/
def State.knownTotal (s : State) (id : Fin 7) (x : Place) : Nat :=
  ((fin7.filter (· ≠ id)).map (s.ownShare x)).sum + (s.entries.map (Entry.share x)).sum

/-! ### The pre-test (R37) -/

/-- Every condition of the pre-test holds for the claim `id` at rank `rank` and amount `a`, with the usable SUPPLY entry as the
table now shows it and the level in force as the Broker last worked it out (DESIGN CHOICE: notes/assumptions/88.md). -/
def State.passes (s : State) (id : Fin 7) (rank a : Nat) : Bool :=
  match s.usable with
  | none => false
  | some u =>
    decide (rank + s.broker.level < 7)
      && !(s.view.overflow && decide (2 ≤ rank))
      && !(s.seq.storage && decide (5 ≤ rank))
      && !s.bus.lineFault
      && decide (s.knownTotal id { rank := rank, station := s.seq.station, load := id.val } + a ≤ u.h)

/-- The Broker reads the SUPPLY and DRAW entries it counts, each read checked (R69), at every pre-test, also where another of
its conditions already fails (DESIGN CHOICE: notes/assumptions/82.md). Where the read invalidates the usable SUPPLY entry, the
test goes on with the next sender's H and the shed level that stood; the level in force follows when the readers are told, at
the end of the step (R48; DESIGN CHOICE: notes/assumptions/88.md). -/
def State.brokerReads (s : State) : State :=
  s.readSupply.readAll fun e => e.liveDraw && decide (e.subject ≤ 6)

/-! ### DRAW records (R53) -/

def drawOf (c : Claim) : DrawRec :=
  match c.st with
  | .contest => { held := 0, asked := c.asked, rank := c.rank, state := 1 }
  | .held =>
    if c.raise then { held := c.held, asked := c.asked, rank := c.rank, state := 1 }
    else { held := c.held, asked := c.held, rank := c.rank, state := 2 }
  | .forced => { held := c.held, asked := c.held, rank := 1, state := 3 }
  | _ => { held := 0, asked := 0, rank := c.rank, state := 0 }

/-- A contest is running for the claim: its own, or that of a raise. -/
def Claim.contesting (c : Claim) : Bool := c.st == .contest || (c.st == .held && c.raise)

def Claim.drawing (c : Claim) : Bool := c.st == .held || c.st == .forced

/-- Hand over the DRAW of a claim; a Held or Forced claim repeats it 1 s later (R53), one with a raise pending in payload
state Contest (DESIGN CHOICE: notes/assumptions/81.md). -/
def State.handDraw (s : State) (id : Fin 7) : State :=
  let c := s.claim id
  let s := s.hand { subject := id.val, payload := .draw (drawOf c) } (if c.contesting then c.serial else 0)
  s.setPeriods { s.periods with
    draw := s.periods.draw.set id (if c.drawing then some Config.drawRepeatMs else none) }

/-- Set a claim and hand over its DRAW. -/
def State.putClaim (s : State) (id : Fin 7) (c : Claim) : State := (s.setClaim id c).handDraw id

/-! ### Contests (R38 to R40) -/

/-- The claim with no contest running and nothing held or asked. -/
def Claim.toIdle (c : Claim) : Claim :=
  { c with st := .idle, held := 0, asked := 0, raise := false, announcing := false, window := none }

/-- The claim Waiting for its asked amount. -/
def Claim.toWaiting (c : Claim) : Claim :=
  { c with st := .waiting, held := 0, raise := false, announcing := false, window := none }

/-- The claim Held at an amount with no raise. -/
def Claim.toHeld (c : Claim) (a : Nat) : Claim :=
  { c with st := .held, held := a, asked := a, raise := false, announcing := false, window := none }

/-- Start the contest of a claim that has passed its pre-test: its DRAW Contest is handed over and the announcing
stage begins (R38). -/
def State.startContest (s : State) (id : Fin 7) (c : Claim) : State :=
  let n := s.broker.nextSerial
  let s := s.setBroker { s.broker with nextSerial := n + 1 }
  s.putClaim id { c with announcing := true, window := none, serial := n }

/-- A standing ask or a re-test: the pre-test is worked; a pass starts the contest, a failure leaves it Waiting. -/
def State.testWaiting (s : State) (id : Fin 7) : State :=
  let s := s.brokerReads
  let c := s.claim id
  if s.passes id c.rank c.asked then s.startContest id { c with st := .contest, held := 0, raise := false }
  else s.setClaim id c.toWaiting

/-- The Waiting claims in outranking order, strongest first (R35, R45). -/
def State.retestOrder (s : State) : List (Fin 7) :=
  [0, 1, 2, 3, 4, 5, 6].flatMap fun r => fin7.filter fun id => (s.claim id).st == .waiting && (s.claim id).rank == r

/-- A re-test event (R45). -/
def State.retest (s : State) : State :=
  s.retestOrder.foldl (fun s id => if (s.claim id).st = .waiting then s.testWaiting id else s) s

/-- A running contest of a new claim is abandoned: the claim is Idle and its DRAW Released is handed over (R33). -/
def State.abandonContest (s : State) (id : Fin 7) : State :=
  if (s.claim id).st = .contest then s.putClaim id (s.claim id).toIdle else s

/-! ### The operations of R33 -/

/-- Release (R40, R43). From Held, Forced and Contest a DRAW Released is handed over; from Waiting no record is sent;
from Idle nothing happens. A release is a re-test event. -/
def State.release (s : State) (id : Fin 7) : State :=
  match (s.claim id).st with
  | .idle => s
  | .waiting => (s.setClaim id (s.claim id).toIdle).retest
  | _ => (s.putClaim id (s.claim id).toIdle).retest

/-- Ask (`single = false`) and Try (`single = true`) of rank `rank` and amount `a` (R33, R34, R37, R46). An ask of a
claim that is Held or Forced leaves it as it is. -/
def State.ask (s : State) (id : Fin 7) (rank a : Nat) (single : Bool) : State × Reply :=
  let a := min a Config.maxAmount
  if a = 0 then (s.release id, .none)
  else if (s.claim id).drawing then (s, .refused)
  else
    let s := s.abandonContest id
    let c := { s.claim id with rank := rank, asked := a, single := single, raise := false }
    if rank = 0 then (s.putClaim id (c.toHeld a), .granted)
    else
      let s := s.brokerReads
      if s.passes id rank a then (s.startContest id { c with st := .contest, held := 0 }, .none)
      else if single then (s.setClaim id c.toIdle, .refused)
      else (s.setClaim id c.toWaiting, .none)

/-- Lower (R43); to 0 it is a Release (R34). A pending raise is abandoned. A Lower is a re-test event. A Lower to more than
the held amount, and any Lower, to 0 too, of a claim neither Held nor Forced, is Refused and changes nothing (DESIGN
CHOICE: notes/assumptions/46.md). -/
def State.lower (s : State) (id : Fin 7) (a : Nat) : State × Reply :=
  let c := s.claim id
  if !c.drawing || decide (c.held < a) then (s, .refused)
  else if a = 0 then (s.release id, .none)
  else
    ((s.putClaim id { c with held := a, asked := a, raise := false, announcing := false, window := none }).retest, .none)

/-- A pending raise is abandoned: the claim stays Held at its old amount and its DRAW says so (R42). -/
def State.abandonRaise (s : State) (id : Fin 7) : State :=
  if (s.claim id).raise then s.putClaim id ((s.claim id).toHeld (s.claim id).held) else s

/-- Raise (R42, R46, R51). -/
def State.raise (s : State) (id : Fin 7) (a : Nat) : State × Reply :=
  let a := min a Config.maxAmount
  let c := s.claim id
  if c.st ≠ .held then (s, .refused)
  else if a ≤ c.held then s.lower id a
  else if c.rank = 0 ∧ ¬ isLightLoad id then (s.putClaim id (c.toHeld a), .granted)
  else
    let s := (s.abandonRaise id).brokerReads
    let c := s.claim id
    if s.passes id (askRank id c) a then (s.startContest id { c with asked := a, raise := true }, .none)
    else (s, .refused)

/-- Re-rank (R44). The reply `yield` says that the weaker rank of a Held claim gives way to the shed level in force at
once; the owner then takes its yield action. A Held claim re-ranked to the rank it has stands, and no DRAW is handed over
(DESIGN CHOICE: notes/assumptions/80.md). -/
def State.rerank (s : State) (id : Fin 7) (rank : Nat) : State × Reply :=
  let c := s.claim id
  match c.st with
  | .waiting => ((s.setClaim id { c with rank := rank }).testWaiting id, .none)
  | .held =>
    if rank = c.rank then (s, .none)
    else
      let s := s.putClaim id { c with rank := rank }
      (s, if c.rank < rank ∧ 7 ≤ rank + s.broker.level then .yield else .none)
  | _ => (s, .refused)

/-- The Forced condition: SoC of at least F, or no usable SUPPLY entry (R47). -/
def State.forcedCondition (s : State) : Bool :=
  match s.usable with
  | none => true
  | some u => decide (Item.floorF s.seq.values ≤ u.soc)

/-- Force (R47). A claim that is already Forced is taken again at the new amount, or kept when the condition fails
(DESIGN CHOICE: notes/assumptions/47.md). -/
def State.force (s : State) (id : Fin 7) (a : Nat) : State × Reply :=
  let s := (s.abandonContest id).readSupply
  let c := s.claim id
  if s.forcedCondition then
    let a := min a Config.maxAmount
    (s.putClaim id { c with rank := 1, st := .forced, held := a, asked := a, raise := false, announcing := false,
                            window := none }, .granted)
  else
    match c.st with
    | .idle | .waiting => (s.setClaim id c.toIdle, .refused)
    | _ => (s, .refused)

/-- A yield by completion: the claim is re-ranked to 0, keeps its held amount, and a pending raise is abandoned (R49). -/
def State.complete (s : State) (id : Fin 7) : State :=
  s.putClaim id { (s.claim id).toHeld (s.claim id).held with rank := 0 }

/-! ### The end of a window and the fate of an announcement (R38, R39) -/

/-- How a contest ends when it is not won: a raise leaves the claim Held at its old amount, a single ask leaves it Idle,
a standing ask Waiting. -/
def Claim.lose (c : Claim) : Claim :=
  if c.st = .held then c.toHeld c.held else if c.single then c.toIdle else c.toWaiting

/-- The owner is told Lost of a raise and of a single ask; a standing ask waits. -/
def Claim.lossReply (c : Claim) : Reply := if c.st = .held ∨ c.single then .lost else .waits

/-- The 60 ms contest window expires (R39). -/
def State.windowEnd (s : State) (id : Fin 7) : State × Reply :=
  let s := s.brokerReads
  let c := s.claim id
  if s.passes id (askRank id c) c.asked then (s.putClaim id (c.toHeld c.asked), .granted)
  else (s.putClaim id c.lose, c.lossReply)

/-- Completion of the frame that carries a contest's own record starts its window (R38). -/
def State.announced (s : State) (id : Fin 7) (tag : Nat) : State :=
  let c := s.claim id
  if c.contesting && c.announcing && tag == c.serial then
    s.setClaim id { c with announcing := false, window := some Config.contestMs }
  else s

/-- Failure of that frame: no station has stored the record, so nothing is sent (R38). -/
def State.announceFailed (s : State) (id : Fin 7) (tag : Nat) : State × Reply :=
  let c := s.claim id
  if c.contesting && c.announcing && tag == c.serial then (s.setClaim id c.lose, c.lossReply)
  else (s, .none)

/-- A new claim's contest at a rank that yields ends when the level rises: Waiting, or Idle with Lost (R40). -/
def State.contestYields (s : State) (id : Fin 7) : State × Reply :=
  let c := s.claim id
  (s.putClaim id c.lose, c.lossReply)

end Sys2Proof.Machine
end

