-- ==== Sys2Proof/Machine/Lights.lean ====
section
/-! DEFINITION. The Light Controller (R148 to R161): levels, fades, group claims and their scaled requests, the
ceiling, scenes and the courtesy channel. -/

namespace Sys2Proof.Machine

/-! ### Channels and groups -/

/-- Channel `k` of group `g` (R30). -/
def groupChan (g : Fin 2) (k : Fin 4) : Fin 8 := ⟨4 * g.val + k.val, by omega⟩

def groupOf (ch : Fin 8) : Fin 2 := if ch.val < 4 then 0 else 1

/-- The output's duty in per mille (R149). -/
def dutyOf (level : Nat) : Nat := level * level / 1000

def Light.toLevel (l : Light) (x : Nat) : Light := { l with level := x, duty := dutyOf x }

/-- What a channel of rated draw `rated` counts toward an amount at a level (R151, R152). -/
def drawTerm (rated level : Nat) : Nat := if level = 0 then 0 else max 1 (rated * dutyOf level / 1000)

def State.light (s : State) (ch : Fin 8) : Light := s.lights.chans.get ch

def State.setLight (s : State) (ch : Fin 8) (l : Light) : State :=
  s.setLights { s.lights with chans := s.lights.chans.set ch l }

def State.group (s : State) (g : Fin 2) : Group := s.lights.groups.get g

def State.setGroup (s : State) (g : Fin 2) (x : Group) : State :=
  s.setLights { s.lights with groups := s.lights.groups.set g x }

/-- The present targets of a group's channels. -/
def State.groupTargets (s : State) (g : Fin 2) : Tab 4 Nat :=
  ⟨fin4.map fun k => (s.light (groupChan g k)).target, rfl⟩

/-- The covering amount of new targets for a group (R152). -/
def State.covering (s : State) (g : Fin 2) (t : Tab 4 Nat) : Nat :=
  (fin4.map fun k =>
    drawTerm (Item.lightDraw s.seq.values (groupChan g k)) (max (s.light (groupChan g k)).level (t.get k))).sum

/-- The target amount of a group (R151). -/
def State.targetAmount (s : State) (g : Fin 2) : Nat :=
  (fin4.map fun k =>
    drawTerm (Item.lightDraw s.seq.values (groupChan g k)) (s.light (groupChan g k)).target).sum

/-- The held amount of a group's claim, 0 when it holds none. -/
def State.groupHeld (s : State) (g : Fin 2) : Nat := (s.claim (loadLights g)).held

/-! ### Fades (R150, R151) -/

/-- A channel's target changes to `t`: nothing for the target it has; otherwise a fade starts from the present level,
or, where the level is already there or the fade time is 0, ends at once. -/
def Light.retarget (fadeMs : Nat) (l : Light) (t : Nat) : Light :=
  if t = l.target then l
  else
    let l := { l with target := t }
    if t = l.level then { l with fading := false, stepTimer := none }
    else if fadeMs = 0 then { l.toLevel t with fading := false, stepTimer := none }
    else { l with start := l.level, elapsed := 0, fading := true, stepTimer := some Config.fadeStepMs }

/-- One 20 ms step of a fade (R150). -/
def Light.fadeStep (fadeMs : Nat) (l : Light) : Light :=
  let e := l.elapsed + Config.fadeStepMs
  if e < fadeMs then
    { l.toLevel ((l.start : Int) + (((l.target : Int) - l.start) * e).tdiv fadeMs).toNat with
      elapsed := e, stepTimer := some Config.fadeStepMs }
  else { l.toLevel l.target with elapsed := e, fading := false, stepTimer := none }

/-- A group is settled when none of its channels is fading and no request is pending (R151, R154). -/
def State.settled (s : State) (g : Fin 2) : Bool :=
  (fin4.all fun k => !(s.light (groupChan g k)).fading) && (s.group g).pending.isNone

/-- A settled group's claim comes down to the target amount, or is released (R151). One whose target amount is above the held
amount stands (DESIGN CHOICE: notes/assumptions/73.md). -/
def State.amend (s : State) (g : Fin 2) : State :=
  let c := s.claim (loadLights g)
  if s.settled g && c.st == .held then
    let a := s.targetAmount g
    if a = 0 then s.release (loadLights g)
    else if a < c.held then (s.lower (loadLights g) a).1
    else s
  else s

/-- New targets are taken and their fades start (R151, R152). -/
def State.takeTargets (s : State) (g : Fin 2) (t : Tab 4 Nat) : State :=
  (fin4.foldl (fun s k =>
    s.setLight (groupChan g k) ((s.light (groupChan g k)).retarget (Item.fadeMs s.seq.values) (t.get k))) s).amend g

/-! ### Group requests (R152 to R154) -/

/-- Some group still has the request numbered `req` pending. -/
def State.requestPending (s : State) (req : Nat) : Bool :=
  [(0 : Fin 2), 1].any fun g => match (s.group g).pending with
    | some r => r.req == req
    | none => false

/-- A request's outcome becomes Accepted when its last group has ended (R153, R158). -/
def State.finishRequest (s : State) (req : Nat) : State :=
  if s.requestPending req then s else s.reviseOutcome req Outcome.accepted

def resultOf (scale : Nat) : RaiseResult :=
  match scale with
  | 1000 => .full
  | 750 => .scaled750
  | 500 => .scaled500
  | _ => .scaled250

/-- The request ends with the targets under decision taken. -/
def State.requestTaken (s : State) (g : Fin 2) (r : GroupReq) : State :=
  ((s.setGroup g { pending := none, result := resultOf r.scale }).takeTargets g r.trial).finishRequest r.req

/-- No scale fits: the targets stay as they were (R153). -/
def State.requestRefused (s : State) (g : Fin 2) (r : GroupReq) : State :=
  ((s.setGroup g { pending := none, result := .refused }).amend g).finishRequest r.req

/-- Ask for a group's amount: a Raise while the claim is Held, a Try at rank 6 otherwise (R152). -/
def State.askGroup (s : State) (g : Fin 2) (a : Nat) : State × Reply :=
  if (s.claim (loadLights g)).st = .held then s.raise (loadLights g) a else s.ask (loadLights g) 6 a true

/-- The targets of a request at a scale: channels it raised come part of the way, the others keep the request's (R153). -/
def State.scaledTargets (s : State) (g : Fin 2) (want : Tab 4 Nat) (scale : Nat) : Tab 4 Nat :=
  ⟨fin4.map fun k =>
    let t := (s.light (groupChan g k)).target
    if t < want.get k then t + (want.get k - t) * scale / 1000 else want.get k, rfl⟩

/-- Try the scaled requests in turn: the first that fits at once or passes to a contest is taken up (R153). -/
def tryScales (g : Fin 2) (r : GroupReq) : List Nat → State → State
  | [], s => s.requestRefused g r
  | x :: xs, s =>
    let r := { r with trial := s.scaledTargets g r.want x, scale := x }
    if s.covering g r.trial ≤ s.groupHeld g then s.requestTaken g r
    else
      match (s.setGroup g { s.group g with pending := some r }).askGroup g (s.covering g r.trial) with
      | (s, .refused) => tryScales g r xs s
      | (s, .granted) => s.requestTaken g r
      | (s, _) => s

/-- A change of a group's targets (R152): taken at once when the claim covers it, else pending on a Raise or a Try. -/
def State.changeGroup (s : State) (g : Fin 2) (t : Tab 4 Nat) (req : Nat) : State :=
  let t := t.map fun x => min x s.lights.ceiling
  if s.covering g t ≤ s.groupHeld g then s.takeTargets g t
  else
    let r : GroupReq := { want := t, trial := t, scale := 1000, req := req }
    match (s.setGroup g { s.group g with pending := some r }).askGroup g (s.covering g t) with
    | (s, .refused) => tryScales g r [750, 500, 250] s
    | (s, .granted) => s.requestTaken g r
    | (s, _) => s

/-- A pending request is withdrawn at the Broker: a raise by a Raise to the held amount, a Try by a release (R154). -/
def State.withdrawAsk (s : State) (g : Fin 2) : State :=
  match (s.claim (loadLights g)).st with
  | .held => (s.raise (loadLights g) (s.groupHeld g)).1
  | .contest => s.release (loadLights g)
  | _ => s

/-- A pending request is abandoned for a new one (R154). The result of the group's last raise stays as shown (DESIGN
CHOICE: notes/assumptions/62.md). -/
def State.abandonRequest (s : State) (g : Fin 2) : State :=
  if (s.group g).pending.isSome then
    let s := s.withdrawAsk g
    s.setGroup g { s.group g with pending := none }
  else s

/-- A pending request ends as though no scale fits, its claim having been dealt with, with the outcome given (R154). -/
def State.requestEnds (s : State) (g : Fin 2) (outcome : Nat) : State :=
  match (s.group g).pending with
  | none => s
  | some r =>
    let s := s.setGroup g { pending := none, result := .refused }
    if outcome = Outcome.accepted then s.finishRequest r.req else s.reviseOutcome r.req outcome

/-- Entering Storage ends a pending request with the outcome Storage (R154). Its raise or Try is withdrawn in the same event
(DESIGN CHOICE: notes/assumptions/72.md). -/
def State.requestEndsInStorage (s : State) (g : Fin 2) : State :=
  if (s.group g).pending.isSome then (s.withdrawAsk g).requestEnds g Outcome.storage else s

/-! ### The courtesy channel (R159) -/

/-- A channel's target changes, as a change worked out by R152. -/
def State.changeChannel (s : State) (ch : Fin 8) (x req : Nat) : State :=
  let g := groupOf ch
  s.changeGroup g ⟨fin4.map fun k =>
    if groupChan g k = ch then x else (s.light (groupChan g k)).target, rfl⟩ req

/-- The courtesy channel's target falls due to change; the change waits while its group has a request pending (R154). A
target is held against 600 when the change is made, not when it falls due (DESIGN CHOICE: notes/assumptions/55.md). A return that
falls due while the light's own change waits takes its place (DESIGN CHOICE: notes/assumptions/63.md). -/
def State.courtesyChange (s : State) (ch : Fin 8) (d : CourtesyDue) : State :=
  if (s.group (groupOf ch)).pending.isSome then s.setLights { s.lights with due := d }
  else
    let s := s.setLights { s.lights with due := .none }
    match d with
    | .none => s
    | .light => if (s.light ch).target < 600 then s.changeChannel ch 600 0 else s
    | .restore => s.changeChannel ch s.lights.prevTarget 0

/-- A courtesy change that waited is made once the request has ended. -/
def State.courtesyResumes (s : State) : State :=
  match Item.courtesy s.seq.values with
  | none => s
  | some ch => if s.lights.due = .none then s else s.courtesyChange ch s.lights.due

/-- A request of the user ends the courtesy (R157 to R159). -/
def State.courtesyEnds (s : State) : State :=
  s.setLights { s.lights with courtesy := false, countdown := none, due := .none }

/-- The own step, when the station has the motion function. -/
def State.ownStep (s : State) : Option MState := if s.seq.fns.motion then some (s.chan 0).st else none

/-- The station that shows the step Extending or Extended, the own one first (R159). -/
def State.stepOut (s : State) : Option Nat :=
  if s.ownStep = some .extending ∨ s.ownStep = some .extended then some s.seq.station
  else (s.entries.find? fun e => e.stepCode? == some 4 || e.stepCode? == some 2).map (·.station)

/-- Some source shows the step Retracted, whichever one showed it out (DEDUCED: notes/assumptions/56.md). -/
def State.stepHome (s : State) : Bool :=
  s.ownStep == some .retracted || s.entries.any fun e => e.stepCode? == some 1

/-- The courtesy call is worked out (R159). `lost` names the station whose step entry has just gone Stale or been
invalidated. A call that becomes set while a return waits replaces the return (notes/assumptions/34.md). -/
def State.courtesyFollows (s : State) (lost : Option Nat) : State :=
  if !(s.seq.fns.lights && s.inRun) then s
  else
    match Item.courtesy s.seq.values with
    | none => s
    | some ch =>
      let s := s.readAll fun e => e.kind == .motion
      match s.stepOut with
      | some from_ =>
        let was := s.lights.call
        let s := s.setLights { s.lights with call := true, source := from_ }
        if was then s
        else if s.lights.courtesy then s.setLights { s.lights with countdown := none }
        else
          (s.setLights { s.lights with courtesy := true, prevTarget := (s.light ch).target }).courtesyChange ch .light
      | none =>
        let s := s.setLights { s.lights with call := false }
        if s.lights.courtesy && s.lights.countdown.isNone && (s.stepHome || lost == some s.lights.source) then
          s.setLights { s.lights with countdown := some Config.courtesyMs }
        else s

/-! ### The ceiling (R155, R156) -/

def State.ceilingNow (s : State) : Nat :=
  if s.seq.storage then 0 else match s.broker.level with
    | 0 => 1000
    | 1 => 250
    | _ => 0

/-- The ceiling is worked out again; when it falls, targets above it come down to it, and a group with no fade to run
is amended at once. -/
def State.ceilingFollows (s : State) : State :=
  let c := s.ceilingNow
  let s := s.setLights { s.lights with
    ceiling := c
    chans := s.lights.chans.map fun l => if c < l.target then l.retarget (Item.fadeMs s.seq.values) c else l }
  (s.amend 0).amend 1

/-! ### Reports of the Broker -/

/-- A group's raise or Try is Granted (R152). -/
def State.lightsGranted (s : State) (g : Fin 2) : State :=
  match (s.group g).pending with
  | some r => (s.requestTaken g r).courtesyResumes
  | none => s

/-- A group's raise or Try is Lost: the next scale is tried (R153). -/
def State.lightsLost (s : State) (g : Fin 2) : State :=
  match (s.group g).pending with
  | some r => (tryScales g r ([750, 500, 250].filter (· < r.scale)) s).courtesyResumes
  | none => s

/-- A group yields to the shed level, or its Try is ended by it: the pending request ends (R154, R156). The ceiling is
applied when every claim has yielded. -/
def State.lightsYield (s : State) (g : Fin 2) : State := s.requestEnds g Outcome.accepted

/-! ### Requests -/

/-- A request of the user gives a group new targets; a pending one is abandoned first (R154, R157, R158). -/
def State.requestGroup (s : State) (g : Fin 2) (t : Tab 4 Nat) (req : Nat) : State :=
  (s.abandonRequest g).changeGroup g t req

/-- The outcome of a light request that has been worked out: Waiting while a contest for it runs (R153, R157). -/
def State.answerLights (s : State) (code req : Nat) : State :=
  s.answer code (if s.requestPending req then Outcome.waiting else Outcome.accepted)

/-! ### A fade step -/

def State.fadeStepped (s : State) (ch : Fin 8) : State :=
  (s.setLight ch ((s.light ch).fadeStep (Item.fadeMs s.seq.values))).amend (groupOf ch)

/-! ### The LIGHT record (R160) -/

def RaiseResult.code : RaiseResult → Nat
  | .none => 0 | .full => 1 | .scaled750 => 2 | .scaled500 => 3 | .scaled250 => 4 | .refused => 5

/-- The claim field: 0 Idle, 1 Contest, 2 Held, 3 Held at rank 0. -/
def claimField (c : Claim) : Nat :=
  match c.st with
  | .contest => 1
  | .held => if c.rank = 0 then 3 else 2
  | _ => 0

/-- The channel is the courtesy channel and lit for the step. -/
def State.courtesyOn (s : State) (ch : Fin 8) : Bool :=
  s.lights.courtesy && Item.courtesy s.seq.values == some ch

def lightRecord (s : State) (ch : Fin 8) : Record :=
  let l := s.light ch
  { subject := ch.val,
    payload := .light { level := l.level, target := l.target, fading := l.fading, ceiling := s.lights.ceiling,
                        courtesy := s.courtesyOn ch, result := (s.group (groupOf ch)).result.code,
                        claim := claimField (s.claim (loadLights (groupOf ch))) } }

end Sys2Proof.Machine
end

