-- ==== Sys2Proof/Machine/Motion.lean ====
section
/-! DEFINITION. The Motion Controller (R124 to R147): channels and their stops, moves and dwells, stall and travel
limit, protection from drive and wind, HOLD, the yields, MOTION and INTERLOCK. -/

namespace Sys2Proof.Machine

/-! ### Channels -/

/-- At rest (R125). -/
def Chan.atRest (c : Chan) : Bool :=
  match c.st with
  | .unknown | .retracted | .extended | .midway | .fault => true
  | _ => false

/-- Moving (R125). -/
def Chan.moving (c : Chan) : Bool :=
  match c.st with
  | .extending | .retracting | .backoff => true
  | _ => false

def Chan.calibrating (c : Chan) : Bool := c.calTimer.isSome

/-- The moves that keep a claim through a dwell (R132). -/
def Move.isMove : Move → Bool
  | .extend | .retract | .protective | .backoff => true
  | _ => false

def State.modChan (s : State) (ch : Fin 2) (f : Chan → Chan) : State := s.setChan ch (f (s.chan ch))

/-- The Motion Controller acts: it is fitted, and the station is in Run (R124). -/
def State.motionRuns (s : State) : Bool := s.seq.fns.motion && s.inRun

def State.motorHeld (s : State) (ch : Fin 2) : Bool := (s.claim (loadMotor ch)).st == .held

/-- The Light Controller of the same station sees the step's state change (R159). -/
def State.stepSeen (s : State) (ch : Fin 2) : State := if ch = 0 then s.courtesyFollows none else s

/-- Where the stops put a channel at rest that stood in `was` (R126). -/
def State.byStops (s : State) (ch : Fin 2) (was : MState) : MState :=
  match s.pins.er.get ch, s.pins.ee.get ch with
  | true, false => .retracted
  | false, true => .extended
  | false, false => if was = .unknown then .unknown else .midway
  | true, true => .unknown

/-- The corrected current is above the stall threshold (R134). -/
def State.overCurrent (s : State) (ch : Fin 2) : Bool :=
  decide (Item.stallThreshold s.seq.values ch < s.pins.motor.get ch - (s.chan ch).offset)

/-- The stall timer at the start of a move (R134). -/
def State.stallArmed (s : State) (ch : Fin 2) : Timer := if s.overCurrent ch then some Config.stallMs else none

/-- A channel needs protection (R138). -/
def State.needs (s : State) (ch : Fin 2) : Bool := s.view.driveAccepted || (ch == 1 && s.motion.windLockout.isSome)

/-- What the end of a requested move by a need for protection shows: Drive, or Wind (R129). -/
def State.needOutcome (s : State) : Nat := if s.view.driveAccepted then Outcome.drive else Outcome.wind

/-- The conditions of R127 that are tested again when an Extend starts (R130). -/
def State.extendRefusal (s : State) (ch : Fin 2) : Option Nat :=
  if s.view.driveAccepted then some Outcome.drive
  else if s.seq.storage then some Outcome.storage
  else if s.pins.hold then some Outcome.hold
  else if (s.chan ch).st = .fault then some Outcome.fault
  else if ch = 1 ∧ s.motion.windLockout.isSome then some Outcome.wind
  else none

/-! ### Dwells, arrivals and starts (R130 to R136) -/

/-- Enter Braking (R132): the claim stays Held when `keep` says so, the follow-on is a move and the claim is Held; it is
released otherwise. `req` is the request the follow-on came from. -/
def State.brake (s : State) (ch : Fin 2) (f : Move) (req : Nat) (keep : Bool) : State :=
  let s := s.modChan ch fun c => { c with
    st := .braking, bridge := .short, pending := .none, followOn := f, protective := false, req := req,
    travel := none, stall := none, backoff := none, idle := none, dwell := some Config.dwellMs }
  (if keep && f.isMove && s.motorHeld ch then s else s.release (loadMotor ch)).stepSeen ch

/-- Clear the Stall monitor (R131, R134). -/
def State.clearStall (s : State) (ch : Fin 2) : State :=
  if (s.chan ch).stalled then (s.modChan ch fun c => { c with stalled := false }).monitor (Mon.stall ch) false else s

/-- Clear the Travel Fault monitor (R131, R136). -/
def State.clearTravelFault (s : State) (ch : Fin 2) : State :=
  if (s.chan ch).travelFault then
    (s.modChan ch fun c => { c with travelFault := false }).monitor (Mon.travelFault ch) false
  else s

/-- Declare Travel Fault (R133, R134, R136). -/
def State.declareTravelFault (s : State) (ch : Fin 2) : State :=
  if (s.chan ch).travelFault then s
  else (s.modChan ch fun c => { c with travelFault := true }).monitor (Mon.travelFault ch) true

/-- A moving channel arrives at the stop in its direction of travel (R131). A pending Extend kept behind the move becomes
the follow-on; the claim is released in any case. -/
def State.arriveAt (s : State) (ch : Fin 2) : State :=
  let c := s.chan ch
  let follow := c.pending == .extend
  let s := (s.brake ch (if follow then .extend else .none) (if follow then c.req else 0) false).clearStall ch
  if c.st = .extending then s else s.clearTravelFault ch

/-- The stop in a moving channel's direction of travel is active (R131). -/
def State.atTarget (s : State) (ch : Fin 2) : Bool :=
  match (s.chan ch).st with
  | .extending => s.pins.ee.get ch
  | .retracting | .backoff => s.pins.er.get ch
  | _ => false

/-- A move has just begun: a stop already active is an arrival in the same event (R130, R131). -/
def State.begun (s : State) (ch : Fin 2) : State :=
  let s := s.stepSeen ch
  if s.atTarget ch then s.arriveAt ch else s

/-- A move starts with its claim Held (R130). -/
def State.startMove (s : State) (ch : Fin 2) (m : Move) : State :=
  let req := (s.chan ch).req
  let stall := s.stallArmed ch
  let s := s.modChan ch fun c => { c with
    st := if m = .extend then .extending else .retracting
    bridge := if m = .extend then .extend else .retract
    pending := .none, followOn := .none, protective := m == .protective, req := 0,
    travel := some (Item.travelMs s.seq.values ch), stall := stall, backoff := none, dwell := none, idle := none }
  let s := s.setDue { s.due with motion := s.due.motion.set ch true }
  (s.reviseOutcome req Outcome.accepted).begun ch

/-- A Backoff starts at the end of its dwell (R135). -/
def State.startBackoff (s : State) (ch : Fin 2) : State :=
  let stall := s.stallArmed ch
  let s := s.modChan ch fun c => { c with
    st := .backoff, bridge := .retract, pending := .none, followOn := .none, protective := false, req := 0,
    travel := none, stall := stall, backoff := some Config.backoffMs, dwell := none, idle := none }
  s.begun ch

/-- The channel settles at rest; with no pending move its idle timer starts (R132, R137). -/
def State.settle (s : State) (ch : Fin 2) (st : MState) (pending : Move) (req : Nat) : State :=
  (s.modChan ch fun c => { c with
    st := st, bridge := .off, pending := pending, followOn := .none, protective := false, req := req, dwell := none,
    idle := if pending = .none then some Config.idleMs else none }).stepSeen ch

/-- A channel at rest loses its pending move; the idle timer of an idle channel runs afresh. -/
def State.dropPending (s : State) (ch : Fin 2) : State :=
  s.modChan ch fun c => { c with
    pending := .none, req := 0, idle := if c.atRest && !c.calibrating then some Config.idleMs else c.idle }

/-- The pending move of a channel at rest ends with an outcome and its claim is released (R129). -/
def State.endPending (s : State) (ch : Fin 2) (outcome : Nat) : State :=
  let req := (s.chan ch).req
  ((s.dropPending ch).release (loadMotor ch)).reviseOutcome req outcome

/-! ### Acting on a pending move (R130, R137, R138, R143) -/

/-- Start the pending move of a channel at rest whose claim is Held, from entry into Run onward (R124, R130). A claim granted
under HOLD to a pending Retract is released (DESIGN CHOICE: notes/assumptions/70.md). -/
def State.tryStart (s : State) (ch : Fin 2) : State :=
  let c := s.chan ch
  if !s.motionRuns || !c.atRest || c.calibrating || !s.motorHeld ch then s
  else
    match c.pending with
    | .extend =>
      match s.extendRefusal ch with
      | none => s.startMove ch .extend
      | some o => s.endPending ch o
    | .retract => if s.pins.hold then s.release (loadMotor ch) else s.startMove ch .retract
    | .protective => if s.pins.hold then s.release (loadMotor ch) else s.startMove ch .protective
    | _ => s

/-- The claim of a Protective move, Held at once at rank 0 (R46, R138). -/
def State.claimProtective (s : State) (ch : Fin 2) : State :=
  if s.motorHeld ch then (s.rerank (loadMotor ch) 0).1
  else (s.ask (loadMotor ch) 0 (Item.motionDraw s.seq.values ch) false).1

/-- A standing Ask at rank 3, unless the claim goes on as it stands (R127, R128). -/
def State.claimRequested (s : State) (ch : Fin 2) : State :=
  if (s.claim (loadMotor ch)).st = .idle then (s.ask (loadMotor ch) 3 (Item.motionDraw s.seq.values ch) false).1
  else s

/-- A channel at rest acts on its pending move as far as calibration and HOLD allow. -/
def State.actOnPending (s : State) (ch : Fin 2) : State :=
  let c := s.chan ch
  if !c.atRest || c.calibrating then s
  else
    match c.pending with
    | .protective => if s.pins.hold then s else (s.claimProtective ch).tryStart ch
    | .retract => if s.pins.hold then s else (s.claimRequested ch).tryStart ch
    | .extend => (s.claimRequested ch).tryStart ch
    | _ => s

/-- A channel at rest takes a pending move: its idle timer stops (R137). -/
def State.takePending (s : State) (ch : Fin 2) (m : Move) (req : Nat) : State :=
  (s.modChan ch fun c => { c with pending := m, req := req, idle := none }).actOnPending ch

/-! ### Requests (R127 to R129) -/

/-- An Extend that meets no refusal of R127. Extended, calibrating, with no pending move, it is Accepted
(DESIGN CHOICE: notes/assumptions/52.md). In the place of a Retract follow-on it leaves the kept claim at the rank where it
stands, also at the 0 that a yield has brought it to (DESIGN CHOICE: notes/assumptions/71.md). -/
def State.takeExtend (s : State) (code : Nat) (ch : Fin 2) : State :=
  let c := s.chan ch
  match c.st with
  | .extending => s.answer code Outcome.accepted
  | .braking =>
    match c.followOn with
    | .backoff | .settleFault => s.answer code Outcome.fault
    | .protective => s.answer code Outcome.drive
    | _ =>
      let s := s.answer code Outcome.waiting
      s.modChan ch fun c => { c with followOn := .extend, req := s.status.serial }
  | .retracting | .backoff =>
    let s := s.answer code Outcome.waiting
    if (s.claim (loadMotor ch)).rank = 0 then
      s.modChan ch fun c => { c with pending := .extend, req := s.status.serial }
    else s.brake ch .extend s.status.serial true
  | st =>
    if st = .extended ∧ c.pending = .none then s.answer code Outcome.accepted
    else
      let s := s.answer code Outcome.waiting
      s.takePending ch .extend s.status.serial

/-- The move a Retract makes: the Protective one when the channel needs protection (R128). -/
def State.retractMove (s : State) (ch : Fin 2) : Move := if s.needs ch then .protective else .retract

/-- A Backoff becomes a full retract, with the travel timer set afresh (R128, R139). -/
def State.backoffRetracts (s : State) (ch : Fin 2) (protective : Bool) : State :=
  (s.modChan ch fun c => { c with
    st := .retracting, backoff := none, travel := some (Item.travelMs s.seq.values ch),
    protective := protective }).stepSeen ch

/-- A Retract that meets no refusal (R128). In a Backoff it keeps an Extend that is pending behind it (DESIGN CHOICE:
notes/assumptions/53.md); in a dwell its follow-on takes the place of a Protective that HOLD Halt has left pending (DESIGN
CHOICE: notes/assumptions/60.md); at rest under HOLD it leaves the claim of the Extend it replaces as it stands (DESIGN
CHOICE: notes/assumptions/70.md). -/
def State.takeRetract (s : State) (code : Nat) (ch : Fin 2) : State :=
  let c := s.chan ch
  match c.st with
  | .retracted | .retracting => s.answer code Outcome.accepted
  | .backoff => (s.answer code Outcome.accepted).backoffRetracts ch (s.needs ch)
  | .extending =>
    let s := s.answer code Outcome.waiting
    s.brake ch (s.retractMove ch) s.status.serial true
  | .braking =>
    match c.followOn with
    | .backoff | .settleFault => s.answer code Outcome.fault
    | .protective => s.answer code Outcome.accepted
    | _ =>
      let s := s.answer code Outcome.waiting
      let s := s.modChan ch fun c => { c with
        pending := .none, followOn := s.retractMove ch, req := s.status.serial }
      if s.needs ch && s.motorHeld ch then (s.rerank (loadMotor ch) 0).1 else s
  | _ =>
    let s := s.answer code Outcome.waiting
    s.takePending ch (s.retractMove ch) s.status.serial

/-- The move under way, the pending move or the follow-on is Protective (R129, R145). -/
def Chan.isProtective (c : Chan) : Bool := c.protective || c.pending == .protective || c.followOn == .protective

/-- A Stop that meets none of the first three refusals of R127 (R129). While Braking it keeps a Protective that HOLD has left
pending (DEDUCED: notes/assumptions/54.md). -/
def State.takeStop (s : State) (code : Nat) (ch : Fin 2) : State :=
  let c := s.chan ch
  if c.isProtective && s.view.driveAccepted then s.answer code Outcome.drive
  else if c.isProtective && ch == 1 then s.answer code Outcome.wind
  else
    let s := s.answer code Outcome.accepted
    if c.moving then s.brake ch .none 0 false
    else if c.st = .braking then
      match c.followOn with
      | .extend | .retract =>
        (s.modChan ch fun c => { c with followOn := .none, req := 0 }).release (loadMotor ch)
      | _ => s
    else if c.pending = .none then s
    else (s.dropPending ch).release (loadMotor ch)

/-! ### Protection (R138 to R140) -/

/-- A requested move that a need replaces ends with the outcome Drive or Wind (R129, R139). -/
def State.replacedByNeed (s : State) (ch : Fin 2) : State := s.reviseOutcome (s.chan ch).req s.needOutcome

/-- A need that gives a channel at rest no retract still ends its pending Extend and releases the claim (R129, R139;
notes/assumptions/39.md). -/
def State.extendMeetsNeed (s : State) (ch : Fin 2) : State :=
  if (s.chan ch).pending = .extend then s.endPending ch s.needOutcome else s

/-- A Protective move takes the place of the pending move of a channel at rest (R138, R139). Where HOLD or calibration keeps
it back, the claim of the move it replaces is released, for it stays pending with no claim (R139, R142). -/
def State.pendProtective (s : State) (ch : Fin 2) : State :=
  let s := s.replacedByNeed ch
  (if s.pins.hold || (s.chan ch).calibrating then s.release (loadMotor ch) else s).takePending ch .protective 0

/-- A need for protection falls due on a channel (R138 to R140). One that arises again while a Protective retract is under way
ends an Extend pending behind it at once (DESIGN CHOICE: notes/assumptions/78.md). -/
def State.needDue (s : State) (ch : Fin 2) : State :=
  if !s.motionRuns then s
  else
    let c := s.chan ch
    match c.st with
    | .retracted => s.extendMeetsNeed ch
    | .extending => ((s.brake ch .protective 0 true).rerank (loadMotor ch) 0).1
    | .retracting =>
      let s := s.replacedByNeed ch
      ((s.modChan ch fun c => { c with protective := true, pending := .none, req := 0 }).rerank (loadMotor ch) 0).1
    | .backoff =>
      let s := (s.replacedByNeed ch).modChan ch fun c => { c with pending := .none, req := 0 }
      ((s.rerank (loadMotor ch) 0).1).backoffRetracts ch true
    | .braking =>
      match c.followOn with
      | .settleFault => s
      | .backoff | .protective => (s.rerank (loadMotor ch) 0).1
      | _ =>
        let s := s.replacedByNeed ch
        ((s.modChan ch fun c => { c with followOn := .protective, pending := .none, req := 0 }).rerank
          (loadMotor ch) 0).1
    | st =>
      if st = .unknown ∧ s.pins.er.get ch then s.extendMeetsNeed ch
      else if c.pending = .protective then s
      else s.pendProtective ch

/-- The need has ended on a channel: a Protective move that has not started is dropped (R138 to R140). A Waiting outcome of
the Retract it came from stays shown (DESIGN CHOICE: notes/assumptions/57.md). -/
def State.needEnds (s : State) (ch : Fin 2) : State :=
  if s.needs ch then s
  else
    let s := if (s.chan ch).pending = .protective then (s.dropPending ch).release (loadMotor ch) else s
    if (s.chan ch).followOn = .protective then
      (s.modChan ch fun c => { c with followOn := .none, req := 0 }).release (loadMotor ch)
    else s

/-- Drive accepted has changed (R139). Channel 0 acts before channel 1 (DESIGN CHOICE: notes/assumptions/6.md). -/
def State.motionSeesDrive (s : State) : State :=
  if s.view.driveAccepted then (s.needDue 0).needDue 1 else (s.needEnds 0).needEnds 1

/-- Entry into Run with a need standing (R138). Channel 0 acts before channel 1 (DESIGN CHOICE: notes/assumptions/6.md). -/
def State.motionEntersRun (s : State) : State :=
  let s := if s.needs 0 then s.needDue 0 else s
  if s.needs 1 then s.needDue 1 else s

/-- The wind lockout begins, or restarts (R140). -/
def State.windLockoutBegins (s : State) : State :=
  let was := s.motion.windDeclared
  let s := s.setMotion { s.motion with windLockout := some Config.windLockoutMs, windDeclared := true }
  (if was then s else s.monitor Mon.windLockout true).needDue 1

/-- A wind window ends, and the next begins (R140). -/
def State.windWindowEnds (s : State) : State :=
  let windy := decide (Item.windThreshold s.seq.values < s.motion.windPulses)
  let n := countTo 3 (windy && (s.chan 1).st != .retracted) s.motion.windyCount
  let s := s.setMotion { s.motion with windPulses := 0, windyCount := n.1, windWindow := some Config.windWindowMs }
  if n.2 then s.windLockoutBegins else s

/-- The wind lockout timer expires (R140). -/
def State.windLockoutEnds (s : State) : State :=
  let s := s.setMotion { s.motion with windLockout := none, windDeclared := false }
  (s.monitor Mon.windLockout false).needEnds 1

/-! ### The end of a dwell (R132) -/

/-- A dwell ends and its follow-on is taken (R132). An Extend starts with the kept claim at the rank where it stands, also at
the 0 that a yield has brought it to (DESIGN CHOICE: notes/assumptions/71.md). -/
def State.dwellEnds (s : State) (ch : Fin 2) : State :=
  let c := s.chan ch
  let s := s.modChan ch fun c => { c with bridge := .off, dwell := none }
  let rest := s.byStops ch .braking
  match c.followOn with
  | .none => (s.settle ch rest c.pending c.req).actOnPending ch
  | .settleFault => s.settle ch .fault .none 0
  | .backoff =>
    if s.pins.hold then
      (s.release (loadMotor ch)).settle ch .midway (if s.needs ch then .protective else .none) 0
    else if s.needs ch then (s.claimProtective ch).startMove ch .protective
    else s.startBackoff ch
  | .extend =>
    if s.motorHeld ch then
      match s.extendRefusal ch with
      | none => s.startMove ch .extend
      | some o => ((s.release (loadMotor ch)).settle ch rest .none 0).reviseOutcome c.req o
    else (s.settle ch rest .extend c.req).claimRequested ch
  | .retract =>
    if s.pins.hold then (s.release (loadMotor ch)).settle ch rest .retract c.req
    else if s.motorHeld ch then s.startMove ch .retract
    else (s.settle ch rest .retract c.req).claimRequested ch
  | .protective =>
    if s.pins.hold then (s.release (loadMotor ch)).settle ch rest .protective c.req
    else (s.claimProtective ch).startMove ch .protective

/-! ### Timers of a move (R133 to R137) -/

/-- The travel limit expires (R133). A Waiting outcome of a pending move that ends here stays shown
(DESIGN CHOICE: notes/assumptions/57.md). -/
def State.travelExpires (s : State) (ch : Fin 2) : State := (s.brake ch .settleFault 0 false).declareTravelFault ch

/-- The channel has stalled (R134). A Waiting outcome of a pending move that ends here stays shown
(DESIGN CHOICE: notes/assumptions/57.md). -/
def State.stalls (s : State) (ch : Fin 2) : State :=
  let extending := (s.chan ch).st == .extending
  let s := if (s.chan ch).stalled then s
    else (s.modChan ch fun c => { c with stalled := true }).monitor (Mon.stall ch) true
  if extending then s.brake ch .backoff 0 true
  else (s.brake ch .settleFault 0 false).declareTravelFault ch

/-- The backoff's second ends (R135). -/
def State.backoffEnds (s : State) (ch : Fin 2) : State :=
  let c := s.chan ch
  let follow := c.pending == .extend
  s.brake ch (if follow then .extend else .none) (if follow then c.req else 0) false

/-- A calibration begins, with no reading taken yet (R137). -/
def State.calibrationBegins (s : State) (ch : Fin 2) : State :=
  s.modChan ch fun c => { c with calTimer := some Config.calibrationMs, calSum := 0, idle := none }

/-- The mean sensed current over the 50 ms of a calibration (R137): the readings added up, those ms that have not run counting
at the present reading (DESIGN CHOICE: notes/assumptions/79.md). -/
def Chan.calMean (c : Chan) (sensed : Nat) : Nat :=
  (c.calSum + c.calTimer.getD 0 * sensed) / Config.calibrationMs

/-- A calibration ends: the offset becomes the mean it measured, and the channel acts on its pending move (R137). -/
def State.calibrated (s : State) (ch : Fin 2) : State :=
  let s := s.modChan ch fun c => { c with
    calTimer := none, calSum := 0, offset := c.calMean (s.pins.motor.get ch),
    idle := if c.atRest && c.pending == .none then some Config.idleMs else c.idle }
  s.actOnPending ch

/-- The sensed current of a moving channel changes: the stall timer begins, goes on, or is set back (R134). -/
def State.currentFollows (s : State) (ch : Fin 2) : State :=
  if (s.chan ch).moving then
    s.modChan ch fun c => { c with
      stall := if s.overCurrent ch then some (c.stall.getD Config.stallMs) else none }
  else s

/-! ### End stops and HOLD (R126, R131, R142, R143) -/

/-- A channel's stops have changed (R126, R131, R138). -/
def State.stopsFollow (s : State) (ch : Fin 2) : State :=
  let c := s.chan ch
  if c.moving then if s.atTarget ch then s.arriveAt ch else s
  else if c.atRest && c.st != .fault then
    let st := s.byStops ch c.st
    if st = c.st then s
    else
      let s := (s.modChan ch fun c => { c with st := st }).stepSeen ch
      if c.st = .retracted ∧ s.needs ch then s.needDue ch else s
  else s

/-- HOLD becomes asserted (R142). An Extend pending behind a moving channel's rank-0 move ends with outcome Hold in Halt and
stays pending in Finish (DESIGN CHOICE: notes/assumptions/67.md). -/
def State.holdFollows (s : State) (ch : Fin 2) : State :=
  let c := s.chan ch
  if c.moving then
    if Item.holdHalt s.seq.values then
      let s := (s.reviseOutcome c.req Outcome.hold).brake ch .none 0 false
      if c.protective then s.modChan ch fun c => { c with pending := .protective } else s
    else s
  else if c.atRest then
    match c.pending with
    | .extend => s.endPending ch Outcome.hold
    | .retract => s.release (loadMotor ch)
    | _ => s
  else s

/-! ### Reports of the Broker (R130, R144) -/

/-- The motor claim is Granted. -/
def State.motionGranted (s : State) (ch : Fin 2) : State := s.tryStart ch

/-- A Held motor claim yields to the shed level (R144). -/
def State.motionYields (s : State) (ch : Fin 2) : State :=
  let c := s.chan ch
  match c.st with
  | .extending => s.brake ch .none 0 false
  | .retracting | .backoff => s.complete (loadMotor ch)
  | .braking =>
    match c.followOn with
    | .retract | .backoff => s.complete (loadMotor ch)
    | _ => s.release (loadMotor ch)
  | _ => s.release (loadMotor ch)

/-! ### Storage (R147) -/

/-- Entering Storage ends a pending Extend, or an Extend follow-on. -/
def State.extendEndsInStorage (s : State) (ch : Fin 2) : State :=
  let c := s.chan ch
  if c.pending = .extend then
    if c.atRest then s.endPending ch Outcome.storage
    else (s.dropPending ch).reviseOutcome c.req Outcome.storage
  else if c.followOn = .extend then
    ((s.modChan ch fun c => { c with followOn := .none, req := 0 }).release (loadMotor ch)).reviseOutcome c.req
      Outcome.storage
  else s

/-! ### Violation, MOTION and INTERLOCK (R141, R145) -/

/-- A channel is in violation, reported from entry into Run onward (R141). -/
def State.inViolation (s : State) (ch : Fin 2) : Bool :=
  s.motionRuns && s.view.driveAccepted && (s.chan ch).st != .retracted

def MState.code : MState → Nat
  | .unknown => 0 | .retracted => 1 | .extended => 2 | .midway => 3 | .extending => 4 | .retracting => 5
  | .braking => 6 | .backoff => 7 | .fault => 8

def Move.code : Move → Nat
  | .none => 0 | .extend => 1 | .retract => 2 | .protective => 3 | .backoff => 4 | .settleFault => 5

/-- The pending move, or the follow-on while Braking. -/
def Chan.next (c : Chan) : Move := if c.st = .braking then c.followOn else c.pending

/-- MOTION's pending field has no value for a Backoff or a Settle to Fault, and shows None for them. -/
def Move.shown : Move → Move
  | .backoff | .settleFault => .none
  | m => m

/-- The position code of R145: 0 retracted stop, 1 extended stop, 2 between, 3 unknown. -/
def State.position (s : State) (ch : Fin 2) : Nat :=
  match s.pins.er.get ch, s.pins.ee.get ch with
  | true, false => 0
  | false, true => 1
  | false, false => if (s.chan ch).st = .unknown then 3 else 2
  | true, true => 3

def motionRecord (s : State) (ch : Fin 2) : Record :=
  let c := s.chan ch
  { subject := ch.val,
    payload := .motion { state := c.st.code, position := s.position ch, pending := c.next.shown.code,
                         protective := c.isProtective, hold := s.pins.hold, travelFault := c.travelFault,
                         stall := c.stalled, windLockout := ch == 1 && s.motion.windDeclared } }

def interlockRecord (s : State) (ch : Fin 2) : Record :=
  let c := s.chan ch
  { subject := ch.val,
    payload := .interlock { state := c.st.code, move := c.next.code, hold := s.pins.hold } }

end Sys2Proof.Machine
end

