-- ==== Sys2Proof/Machine/Climate.lean ====
section
/-! DEFINITION. The Climate Controller (R104 to R123): zones and demand, the comfort call, frost service, the heater
link and the warming pad. -/

namespace Sys2Proof.Machine

/-! ### Zones, mode and demand (R105, R108) -/

/-- The mode in force: FrostOnly in Storage, the chosen mode otherwise. -/
def State.modeInForce (s : State) : ClimateMode := if s.seq.storage then .frostOnly else s.climate.chosen

/-- A zone's demand in per cent (R108). -/
def zoneDemand (setpoint temp : Int) : Nat := (clampInt 0 100 (((setpoint - temp) * 25).tdiv 10)).toNat

def State.comfortDemand (s : State) : Nat :=
  if s.modeInForce = .comfort then max (s.climate.zones.get 0).demand (s.climate.zones.get 1).demand else 0

/-- The comfort demand, raised to 30 while frost service is active (R108). -/
def State.heaterDemand (s : State) : Nat :=
  if s.climate.frost then max s.comfortDemand 30 else s.comfortDemand

/-- HDEM carries the heater demand in Starting and Running, and zero duty otherwise (R108). -/
def State.updateHdem (s : State) : State :=
  s.setClimate { s.climate with
    hdem := if s.climate.heater = .starting ∨ s.climate.heater = .running then s.heaterDemand else 0 }

/-- The heater is wanted (R111). -/
def State.heaterWanted (s : State) : Bool :=
  (s.climate.call || s.climate.frost) && !s.climate.lockout && s.inRun

/-- Its rank: 1 while frost service is active, 4 otherwise (R111). -/
def State.heaterRank (s : State) : Nat := if s.climate.frost then 1 else 4

/-! ### The heater link (R112 to R117) -/

/-- Enter Purging (R114): HEN off, HDEM zero, a claim still above the run draw lowered to it, the purge timer set, and
the remembered demand set if the heater is wanted. -/
def State.enterPurging (s : State) : State :=
  let s := s.setClimate { s.climate with
    heater := .purging, hen := false, hdem := 0, startTimer := none, runTimer := none,
    purgeTimer := some Config.heaterPurgeMs, remembered := s.heaterWanted }
  if Item.runDraw s.seq.values < (s.claim loadHeater).held then
    (s.lower loadHeater (Item.runDraw s.seq.values)).1
  else s

/-- Declare Lockout and write the Retained Cell (R115, R116), before the purge lowers the claim (DESIGN CHOICE:
notes/assumptions/89.md). -/
def State.declareLockout (s : State) : State :=
  let s := s.setClimate { s.climate with lockout := true }
  (s.setCell { s.cell with lockout := true }).monitor Mon.lockout true

/-- A failed start, fault or flame-out (R115): counted, the second declares Lockout, and the heater purges. -/
def State.heaterFails (s : State) : State :=
  let s := s.setClimate { s.climate with failures := min 2 (s.climate.failures + 1) }
  let s := if s.climate.failures = 2 ∧ ¬ s.climate.lockout then s.declareLockout else s
  s.enterPurging

/-- Enter Running (R113): the claim comes down to the run draw and the run timer starts. -/
def State.enterRunning (s : State) : State :=
  let s := s.setClimate { s.climate with
    heater := .running, startTimer := none, runTimer := some Config.heaterRunMs, tryFailed := false }
  ((s.lower loadHeater (Item.runDraw s.seq.values)).1).updateHdem

/-- Enter Starting (R112). HFLT already asserted is a failed start; HRUN already asserted enters Running. -/
def State.enterStarting (s : State) : State :=
  let s := (s.setClimate { s.climate with
    heater := .starting, hen := true, startTimer := some Config.heaterStartMs }).updateHdem
  if s.pins.hflt then s.heaterFails else if s.pins.hrun then s.enterRunning else s

/-- The controller's part of a yield (R117): HEN off and a purge; a purge under way runs on. -/
def State.heaterYields (s : State) : State :=
  match s.climate.heater with
  | .starting | .running | .off => s.enterPurging
  | _ => s

/-- Re-rank a Held heater claim whose rank is no longer the reason's; a claim kept at rank 0 stays (R111, R114). A
weaker rank that gives way at once yields by completion (R44, R50). -/
def State.heaterRerank (s : State) : State :=
  let c := s.claim loadHeater
  if c.st = .held ∧ c.rank ≠ 0 ∧ c.rank ≠ s.heaterRank then
    match s.rerank loadHeater s.heaterRank with
    | (s, .yield) => (s.complete loadHeater).heaterYields
    | (s, _) => s
  else s

/-- Ask for a heater that is Off and wanted (R111): with frost service a Try at rank 1, followed at once by a standing
Ask when it is Refused; for comfort a standing Ask at rank 4. A Try that passes leaves the mark of an earlier one that was
Refused or Lost (DEDUCED: notes/assumptions/59.md). -/
def State.askHeater (s : State) : State :=
  let a := Item.startDraw s.seq.values
  if s.climate.frost then
    match s.ask loadHeater 1 a true with
    | (s, .refused) => ((s.setClimate { s.climate with tryFailed := true }).ask loadHeater 1 a false).1
    | (s, _) => s
  else (s.ask loadHeater 4 a false).1

/-- The heater follows whether it is wanted and at what rank (R111 to R114). -/
def State.heaterFollows (s : State) : State :=
  if s.seq.fns.heat && s.inRun then
    (match s.climate.heater with
    | .off =>
      match (s.claim loadHeater).st with
      | .idle => if s.heaterWanted then s.askHeater else s
      | .waiting =>
        if s.heaterWanted then
          if (s.claim loadHeater).rank = s.heaterRank then s else (s.rerank loadHeater s.heaterRank).1
        else s.release loadHeater
      | .contest => if s.heaterWanted then s else s.release loadHeater
      | _ => s
    | .starting | .running => if s.heaterWanted then s.heaterRerank else s.enterPurging.heaterRerank
    | .purging => (s.setClimate { s.climate with remembered := s.heaterWanted }).heaterRerank
    | .lockout => s).updateHdem
  else s

/-- The heater claim is Granted (R111, R112): its rank is made the reason's before Starting. -/
def State.heaterGranted (s : State) : State :=
  let s := s.heaterRerank
  if s.climate.heater = .off then s.enterStarting else s

/-- A standing Ask for the start draw at the reason's rank, while the heater is wanted (R111). -/
def State.heaterStands (s : State) : State :=
  if s.heaterWanted then (s.ask loadHeater s.heaterRank (Item.startDraw s.seq.values) false).1 else s

/-- The frost Try is Lost (R111, R117): a standing Ask follows, at rank 1 while frost service is active. Where it has ended
and the comfort call stands, the rank is 4 (DEDUCED: notes/assumptions/50.md). -/
def State.heaterLost (s : State) : State :=
  (if s.climate.frost then s.setClimate { s.climate with tryFailed := true } else s).heaterStands

/-- A standing ask's contest was not won and its claim waits (R111): where frost service has become active since, a standing
Ask at rank 1 follows at once; where it has ended since, one at rank 4 (DEDUCED: notes/assumptions/50.md). -/
def State.heaterWaits (s : State) : State :=
  let c := s.claim loadHeater
  if c.st = .waiting ∧ c.rank ≠ s.heaterRank then s.heaterStands else s

/-! ### Frost service (R110) -/

/-- Frost service as its inputs now stand. -/
def State.frostServiceNow (s : State) : Bool :=
  s.seq.fns.heat && s.inRun && s.modeInForce != .off
    && ((s.seq.fns.water && s.water.demand) || s.entries.any Entry.showsFrostDemand)

/-- Work frost service out again (R110), each TANK entry read being checked: every Fresh or Aging one, also where mode Off or the
own flag already decides (DESIGN CHOICE: notes/assumptions/90.md). -/
def State.frostService (s : State) : State :=
  if s.seq.fns.heat && s.inRun then
    let s := s.readAll fun e => e.kind == .tank && e.fresh.live
    let f := s.frostServiceNow
    if f = s.climate.frost then s
    else (s.setClimate { s.climate with frost := f, tryFailed := s.climate.tryFailed && f }).heaterFollows
  else s

/-- The mode in force has changed (R105, R109): away from Comfort the call clears, and frost service is worked out. A change
to Comfort leaves the call clear until the next reading or setpoint change (DEDUCED: notes/assumptions/49.md). -/
def State.modeChanged (s : State) : State :=
  if s.seq.fns.heat then
    let s := if s.modeInForce = .comfort then s else s.setClimate { s.climate with call := false, callCount := 0 }
    s.frostService.heaterFollows
  else s

/-- A comfort demand of 10 or more sets the call (R109). -/
def State.setCall (s : State) : State :=
  if s.inRun ∧ 10 ≤ s.comfortDemand then s.setClimate { s.climate with call := true } else s

/-- While the call is set, a climate reading event counts comfort demand 0; the sixtieth in a row clears it (R109). -/
def State.countCall (s : State) : State :=
  if s.climate.call then
    let n := countTo 60 (s.comfortDemand == 0) s.climate.callCount
    s.setClimate { s.climate with callCount := n.1, call := !n.2 }
  else s

/-! ### The warming pad (R119, R120) -/

/-- The pad is wanted, as its inputs now stand (R119). -/
def State.padWantedNow (s : State) : Bool :=
  s.inRun && (match s.usable with
    | none => false
    | some u => u.withdrawn && decide (u.tc < 5))
    && (s.chargeSource || s.entries.any Entry.showsCharge)

/-- The pad is worked out again (R119, R120); the STATUS and SUPPLY entries read are checked: every Fresh or Aging STATUS entry of
subject 0, also where the other inputs already decide (DESIGN CHOICE: notes/assumptions/91.md). -/
def State.padFollows (s : State) : State :=
  if s.seq.fns.heat && Item.padFitted s.seq.values && s.inRun then
    let s := s.readSupply.readAll fun e => e.kind == .status && e.subject == 0 && e.fresh.live
    let s := s.setClimate { s.climate with padWanted := s.padWantedNow }
    if s.climate.padWanted then
      if (s.claim loadPad).st = .idle then (s.ask loadPad 2 (Item.padDraw s.seq.values) false).1 else s
    else (s.setClimate { s.climate with pad := false }).release loadPad
  else s

/-- The pad claim is Granted. -/
def State.padGranted (s : State) : State := s.setClimate { s.climate with pad := true }

/-- The pad claim yields by release, and is asked again at once while the pad is wanted (R120). -/
def State.padYields (s : State) : State :=
  let s := (s.setClimate { s.climate with pad := false }).release loadPad
  if s.climate.padWanted then (s.ask loadPad 2 (Item.padDraw s.seq.values) false).1 else s

/-! ### The CLIMATE record (R121) -/

def ClimateMode.code : ClimateMode → Nat
  | .off => 0 | .comfort => 1 | .frostOnly => 2

def Heater.code : Heater → Nat
  | .off => 0 | .starting => 1 | .running => 2 | .purging => 3 | .lockout => 4

/-- The frost-service field: 0 Off, 1 Asking, 2 Refused, 3 Served. -/
def State.frostField (s : State) : Nat :=
  if !s.climate.frost then 0 else if s.climate.heater = .running then 3 else if s.climate.tryFailed then 2 else 1

/-- The pad field: 0 Off, 1 Asking, 2 On. -/
def State.padField (s : State) : Nat := if s.climate.pad then 2 else if s.climate.padWanted then 1 else 0

def climateRecord (s : State) (z : Fin 2) : Record :=
  let x := s.climate.zones.get z
  { subject := z.val,
    payload := .climate { temp := x.temp, setpoint := x.setpoint.toNat, mode := s.modeInForce.code,
                          heater := s.climate.heater.code, demand := x.demand, frost := s.frostField,
                          pad := s.padField } }

end Sys2Proof.Machine
end

