-- ==== Sys2Proof/Machine/Water.lean ====
section
/-! DEFINITION. The Water Manager (R81 to R103): tanks, the pump, the frost guard and its cycles, the dump valve. -/

namespace Sys2Proof.Machine

/-! ### What the pump depends on (R86, R87) -/

/-- The published fresh level is 30 or more; Unknown fails (R83, R87). -/
def State.freshOk (s : State) : Bool :=
  match (s.water.tanks.get 0).level with
  | some l => decide (30 ≤ l)
  | none => false

/-- The dump valve is closed: command Closed and feedback Closed (section 4.5). -/
def State.valveClosed (s : State) : Bool := !s.water.dumpCmdOpen && !s.pins.dumpOpen

/-- The demand path wants the pump (R86). -/
def State.demandWants (s : State) : Bool :=
  s.pins.pdem && !s.water.runaway && s.freshOk && s.valveClosed && s.inRun

def Cycle.holdsClaim : Cycle → Bool
  | .asking | .circulating => true
  | _ => false

/-- What PUMP is by R87. -/
def State.pumpNow (s : State) : Bool :=
  let c := s.claim loadPump
  c.drawing && s.freshOk && s.valveClosed
    && ((s.demandWants && c.st == .held && c.rank == 5) || s.water.cycle == .circulating)

/-- PUMP follows its conditions, and the runaway count follows PUMP: it runs while PUMP is on with no cycle
Circulating, and is at zero otherwise (R87, R88). -/
def State.pumpFollows (s : State) : State :=
  let p := s.pumpNow
  s.setWater { s.water with
    pump := p
    runawayTimer :=
      if p && s.water.cycle != .circulating then some (s.water.runawayTimer.getD Config.runawayMs) else none }

/-- Switch PUMP off and release the claim, in that order (R32). -/
def State.pumpReleased (s : State) : State :=
  (s.setWater { s.water with pump := false, runawayTimer := none }).release loadPump

/-- The demand path asks when it wants the pump and no cycle holds the claim, and releases when it ceases to (R86). -/
def State.demandFollows (s : State) : State :=
  if s.seq.fns.water && s.inRun then
    (if s.water.cycle.holdsClaim then s
    else if s.demandWants then
      if (s.claim loadPump).st = .idle then (s.ask loadPump 5 (Item.pumpDraw s.seq.values) false).1 else s
    else if (s.claim loadPump).st = .idle then s
    else s.pumpReleased).pumpFollows
  else s

/-! ### Frost cycles (R91 to R96) -/

/-- The frost-demand flag, whose change works frost service of the same station out again (R93, R110). -/
def State.setDemand (s : State) (d : Bool) : State :=
  if s.water.demand = d then s else (s.setWater { s.water with demand := d }).frostService

/-- Timing with the next cycle due `ms` from now. -/
def State.timing (s : State) (ms : Nat) : State :=
  s.setWater { s.water with cycle := .timing, dueTimer := some ms, dueOnRun := false, circTimer := none }

/-- Enter Circulating (R93). -/
def State.enterCirculating (s : State) : State :=
  (((s.setWater { s.water with
    cycle := .circulating, circTimer := some Config.circulationMs, dueTimer := none }).setDemand true)).pumpFollows

/-- The pump claim at the end of a cycle (R96): passed back to the demand path by a re-rank to 5 when it wants the
pump, the claim is Held and the station is not in Storage; released in every other case. -/
def State.disposeClaim (s : State) : State :=
  if s.demandWants ∧ (s.claim loadPump).st = .held ∧ ¬ s.seq.storage then
    match s.rerank loadPump 5 with
    | (s, .yield) => s.pumpReleased.demandFollows
    | (s, _) => s.demandFollows
  else s.pumpReleased.demandFollows

/-- A cycle is completed (R93). -/
def State.cycleCompleted (s : State) : State :=
  let s := s.setDemand false
  let owed := s.water.owed - 1
  ((s.setWater { s.water with owed := owed }).timing
    (if 0 < owed then Config.catchUpMs else Item.frostIntervalMs s.seq.values)).disposeClaim

/-- A cycle is postponed (R94). -/
def State.cyclePostponed (s : State) : State :=
  let s := s.setDemand false
  ((s.setWater { s.water with owed := min 4 (s.water.owed + 1) }).timing
    (Item.frostIntervalMs s.seq.values)).demandFollows

/-- The frost guard clears (R91, R94, R95). -/
def State.cyclingEnds (s : State) : State :=
  let was := s.water.cycle
  let s := s.setDemand false
  let s := s.setWater { s.water with
    cycle := .off, owed := 0, dueTimer := none, dueOnRun := false, circTimer := none }
  if was.holdsClaim then s.disposeClaim else s

/-- The valve is not closed while the guard is declared: Drained (R95, R98). -/
def State.drain (s : State) : State :=
  let was := s.water.cycle
  let s := s.setDemand false
  let s := s.setWater { s.water with
    cycle := .drained, owed := 0, dueTimer := none, dueOnRun := false, circTimer := none }
  if was.holdsClaim then s.pumpReleased.demandFollows else s.demandFollows

/-- Valve Fault timing starts afresh at each change of command or feedback, and agreement clears Valve Fault (R100),
whose NOTICE is handed over before the demand path or the drain follows the valve (DESIGN CHOICE: notes/assumptions/89.md). -/
def State.valveTiming (s : State) : State :=
  if s.water.dumpCmdOpen = s.pins.dumpOpen then
    let s := s.setWater { s.water with valveTimer := none }
    if s.water.valveFault then
      (s.setWater { s.water with valveFault := false }).monitor Mon.valveFault false
    else s
  else s.setWater { s.water with valveTimer := some Config.valveFaultMs }

/-- The dump valve opens (R98). -/
def State.openDump (s : State) : State :=
  ((s.setWater { s.water with
    dumpCmdOpen := true, dumpDrive := .toOpen, dumpCount := 0 }).valveTiming).drain

/-- The frost cycle state follows the valve while the guard is declared (R95, R98), and the demand path follows it. -/
def State.valveFollows (s : State) : State :=
  if s.water.guard then
    if s.valveClosed then
      if s.water.cycle = .drained then (s.timing (Item.frostIntervalMs s.seq.values)).demandFollows else s.demandFollows
    else if s.water.cycle = .drained then s.demandFollows else s.drain
  else s.demandFollows

/-- A due cycle is taken (R92, R96): skipped, tried, or forced. -/
def State.takeDue (s : State) : State :=
  let a := Item.pumpDraw s.seq.values
  if !s.freshOk then s.timing (Item.frostIntervalMs s.seq.values)
  else if s.water.owed < 4 then
    if (s.claim loadPump).st = .held then (s.rerank loadPump 1).1.enterCirculating
    else
      match (s.setWater { s.water with cycle := .asking, dueTimer := none, dueOnRun := false }).ask loadPump 1 a true with
      | (s, .refused) => s.cyclePostponed
      | (s, _) => s
  else
    match s.force loadPump a with
    | (s, .granted) => s.enterCirculating
    | (s, _) => s.openDump

/-- The frost guard becomes declared (R91). -/
def State.cyclingBegins (s : State) : State :=
  if !s.valveClosed then s.drain
  else if s.inRun then (s.timing 0).takeDue
  else s.setWater { s.water with cycle := .timing, dueOnRun := true }

/-! ### Reports of the Broker -/

/-- The pump claim is Granted: to a cycle that asks, or to the demand path. -/
def State.pumpGranted (s : State) : State :=
  if s.water.cycle = .asking then s.enterCirculating else s.pumpFollows

/-- The cycle's Try is Lost. -/
def State.pumpLost (s : State) : State := if s.water.cycle = .asking then s.cyclePostponed else s

/-- The pump claim yields by release (R50): a cycle is postponed, the demand path asks again while it wants (R86). -/
def State.pumpYields (s : State) : State :=
  let s := s.pumpReleased
  if s.water.cycle = .circulating then s.cyclePostponed else s.demandFollows

/-! ### The reading event (R81 to R85, R90, R97) -/

/-- The level a probe reading stands for; none for a tank that is not fitted (R82). -/
def probeLevel (e fu raw : Nat) : Option Nat :=
  if e = fu then none
  else some (clampInt 0 1000 ((((raw : Int) - e) * 1000).tdiv ((fu : Int) - e))).toNat

/-- Two levels agree within 20 (R83). -/
def agree (x p : Nat) : Bool := decide (x ≤ p + 20) && decide (p ≤ x + 20)

/-- One tank's part of stage 1 (R83, R84). -/
def Tank.reading (t : Tank) (x : Option Nat) (temp : Int) (driving : Bool) : Tank :=
  match x with
  | none => { t with temp := temp }
  | some l =>
    let publish := !driving && (match t.prev with
      | some p => agree l p
      | none => false)
    { t with temp := temp, prev := some l, level := if publish then some l else t.level }

def State.readTank (s : State) (t : Fin 3) (raw : Nat) (temp : Int) : State :=
  let x := probeLevel (Item.tankEmpty s.seq.values t) (Item.tankFull s.seq.values t) raw
  s.setWater { s.water with
    tanks := s.water.tanks.modify t fun k => k.reading x (clampInt (-400) 850 temp) s.view.driveAccepted }

/-- The condition a tank monitor counts in its present state (R85). -/
def tankCondition (t : Fin 3) (declared : Bool) (level : Nat) : Bool :=
  match t, declared with
  | 0, false => decide (level < 100)
  | 0, true => decide (150 ≤ level)
  | _, false => decide (900 ≤ level)
  | _, true => decide (level < 850)

/-- Stage 2 for one tank (R85). -/
def State.tankMonitor (s : State) (t : Fin 3) : State :=
  let k := s.water.tanks.get t
  let n := countTo 3 (match k.level with
    | some l => tankCondition t k.declared l
    | none => false) k.count
  let s := s.setWater { s.water with
    tanks := s.water.tanks.set t { k with count := n.1, declared := k.declared != n.2 } }
  if n.2 then s.monitor (Mon.tank t) (!k.declared) else s

def State.freshTemp (s : State) : Int := (s.water.tanks.get 0).temp

/-- Stage 3: the frost guard (R90). -/
def State.guardReads (s : State) : State :=
  if s.water.guard then
    let n := countTo 10 (decide (50 ≤ s.freshTemp)) s.water.guardCount
    let s := s.setWater { s.water with guardCount := n.1, guard := !n.2 }
    if n.2 then (s.monitor Mon.frostGuard false).cyclingEnds else s
  else
    let n := countTo 3 (decide (s.freshTemp < 30)) s.water.guardCount
    let s := s.setWater { s.water with guardCount := n.1, guard := n.2 }
    if n.2 then (s.monitor Mon.frostGuard true).cyclingBegins else s

/-- A heater is known to run (R97). -/
def State.heaterKnown (s : State) : Bool :=
  (s.seq.fns.heat && s.climate.heater == .running) || s.entries.any Entry.showsHeater

/-- The published fresh level is above 30. -/
def State.freshAbove30 (s : State) : Bool :=
  match (s.water.tanks.get 0).level with
  | some l => decide (30 < l)
  | none => false

/-- Stage 4: the dump count (R97). The CLIMATE entries are read at every reading event in Run, also where another condition
already fails (DESIGN CHOICE: notes/assumptions/69.md). -/
def State.dumpReads (s : State) : State :=
  if s.inRun then
    let s := s.readAll fun e => e.kind == .climate && e.fresh.live && decide (e.subject ≤ 1)
    let n := countTo 5 (s.water.guard && s.valveClosed && decide (s.freshTemp ≤ 5) && s.freshAbove30 && !s.heaterKnown)
      s.water.dumpCount
    let s := s.setWater { s.water with dumpCount := n.1 }
    if n.2 then s.openDump else s
  else s

/-- Stage 5: the pump conditions against the new fresh level (R86, R87, R95). -/
def State.pumpReads (s : State) : State :=
  if s.freshOk then s.demandFollows
  else
    match s.water.cycle with
    | .asking =>
      ((s.release loadPump).timing (Item.frostIntervalMs s.seq.values)).demandFollows
    | .circulating =>
      (s.setWater { s.water with pump := false, runawayTimer := none }).cycleCompleted
    | _ => s.demandFollows

/-- A reading event of the Water Manager: its five stages in order (R81). -/
def State.waterReads (s : State) (tk0 tk1 tk2 : Nat) (tt0 tt1 tt2 : Int) : State :=
  let s := ((s.readTank 0 tk0 tt0).readTank 1 tk1 tt1).readTank 2 tk2 tt2
  let s := ((s.tankMonitor 0).tankMonitor 1).tankMonitor 2
  s.guardReads.dumpReads.pumpReads

/-! ### Entry into Run -/

/-- DUMP is driven from Run onward; a guard declared in Calibrate has its first cycle now; the demand path may ask
(R86, R91, R102). The drive stays on in the position reached (DESIGN CHOICE: notes/assumptions/48.md). The due cycle is taken
before the demand path asks (DESIGN CHOICE: notes/assumptions/77.md). -/
def State.waterEntersRun (s : State) : State :=
  if s.seq.fns.water then
    let s := s.setWater { s.water with dumpDrive := if s.water.dumpCmdOpen then .toOpen else .toClosed }
    let s := if s.water.cycle = .timing ∧ s.water.dueOnRun then (s.timing 0).takeDue else s
    s.demandFollows
  else s

/-! ### The TANK record (R101) -/

def tankRecord (s : State) (t : Fin 3) : Record :=
  let k := s.water.tanks.get t
  { subject := t.val,
    payload := .tank { level := k.level.getD unknownLevelCode, temp := k.temp, guard := s.water.guard,
                       demand := s.water.demand, owed := s.water.owed, dumpOpen := s.water.dumpCmdOpen } }

end Sys2Proof.Machine
end

