-- ==== Sys2Proof/Machine/React.lean ====
section
/-! DEFINITION. How a change in one block reaches the others: the Broker's reports to the owners, the shed level in
force and its yields, the usable SUPPLY entry, drive accepted, Storage, and the changes of the Peer View (R48 to R52,
R61, R62, R78, R187). The orders that the spec leaves open are in notes/assumptions/6.md, 83.md to 85.md
and 88.md. -/

namespace Sys2Proof.Machine

/-! ### Reports of the Broker to the owners (R33) -/

/-- Hand a report to the block that owns the load (R30). -/
def State.report (s : State) (id : Fin 7) (r : Reply) : State :=
  match r with
  | .granted =>
    match id with
    | 0 => s.heaterGranted
    | 1 => s.padGranted
    | 2 => s.pumpGranted
    | 3 => s.motionGranted 0
    | 4 => s.motionGranted 1
    | 5 => s.lightsGranted 0
    | 6 => s.lightsGranted 1
  | .lost =>
    match id with
    | 0 => s.heaterLost
    | 2 => s.pumpLost
    | 5 => s.lightsLost 0
    | 6 => s.lightsLost 1
    | _ => s
  | .waits => if id = 0 then s.heaterWaits else s
  | _ => s

/-! ### Yields (R49, R50) -/

/-- A Held claim yields in the way of its load. -/
def State.yieldHeld (s : State) (id : Fin 7) : State :=
  match id with
  | 0 => (s.complete loadHeater).heaterYields
  | 1 => s.padYields
  | 2 => s.pumpYields
  | 3 => s.motionYields 0
  | 4 => s.motionYields 1
  | 5 => (s.complete (loadLights 0)).lightsYield 0
  | 6 => (s.complete (loadLights 1)).lightsYield 1

/-- The owner of a single ask that the level has ended is told Lost (R40); a light request ends with it (R154). -/
def State.lostToLevel (s : State) (id : Fin 7) (r : Reply) : State :=
  match r with
  | .lost =>
    match id with
    | 5 => s.lightsYield 0
    | 6 => s.lightsYield 1
    | _ => s.report id .lost
  | r => s.report id r

/-- The rank of a claim yields to the shed level in force (R49). -/
def State.rankYields (s : State) (id : Fin 7) : Bool := decide (7 ≤ (s.claim id).rank + s.broker.level)

/-- One claim's part of a rise of the level (R40, R49). -/
def State.yieldOne (s : State) (id : Fin 7) : State :=
  if !s.rankYields id then s
  else
    match (s.claim id).st with
    | .held => s.yieldHeld id
    | .contest =>
      match s.contestYields id with
      | (s, r) => s.lostToLevel id r
    | _ => s

/-! ### The shed level in force (R48, R51) -/

/-- The place of a station's remembered level. -/
def stationIx (n : Nat) : Fin 8 := ⟨(n - 1) % 8, Nat.mod_lt _ (by decide)⟩

/-- The shed level in force as its inputs now stand (R48). -/
def State.levelNow (s : State) : Nat :=
  if s.seq.fns.supply then
    match s.supply.latest with
    | some f => f.level
    | none => 0
  else
    match s.peerUsable with
    | some u => s.broker.remembered.get (stationIx u.station)
    | none => 0

/-- A light group kept at rank 0 is re-ranked to 6 when the level falls to 0 (R51, R156), also one that still fades out
under the ceiling of 0 (DESIGN CHOICE: notes/assumptions/68.md). -/
def State.lightsRestored (s : State) (g : Fin 2) : State :=
  let c := s.claim (loadLights g)
  if c.st = .held ∧ c.rank = 0 then s.putClaim (loadLights g) { c with rank := 6 } else s

/-- The level in force is worked out again, each SUPPLY entry it is chosen by being checked (R69); a rise makes claims
yield, a fall re-tests the Waiting ones (R45, R49, R51), and the light ceiling follows (R155, R156). A fall to 0 by the
loss of the usable SUPPLY entry is one like any other (R51, R52; DESIGN CHOICE: notes/assumptions/66.md). -/
def State.levelFollows (s : State) : State :=
  let s := s.readSupply
  let old := s.broker.level
  let l := s.levelNow
  if l = old then s
  else
    let s := s.setBroker { s.broker with level := l }
    if old < l then (fin7.foldl State.yieldOne s).ceilingFollows.courtesyResumes
    else
      let s := if l = 0 then (s.lightsRestored 0).lightsRestored 1 else s
      s.ceilingFollows.retest

/-- H has risen between two usable figures (R45). -/
def raisesH (old new : Option Usable) : Bool :=
  match old, new with
  | none, some _ => true
  | some a, some b => decide (a.h < b.h)
  | _, none => false

/-- The usable SUPPLY entry is chosen afresh (R62): the level in force, the Waiting claims and the pad follow it, in this order
(DESIGN CHOICE: notes/assumptions/83.md). -/
def State.supplyChanged (s : State) : State :=
  let s := s.readSupply
  let old := s.broker.usable
  let new := s.usable
  let s := (s.setBroker { s.broker with usable := new }).levelFollows
  let s := if raisesH old new then s.retest else s
  s.padFollows

/-! ### Storage (R187) -/

/-- The SUPPLY period stops until the end of the first interval of the new mode (R26). -/
def State.supplyModeChanged (s : State) : State :=
  (s.setSupply { s.supply with onNext := s.seq.fns.supply }).setPeriods { s.periods with supply := none }

/-- Storage is entered, and every block is told: pending light requests end, the climate mode changes, the ceiling falls, and
pending Extends end, in this order (DESIGN CHOICE: notes/assumptions/84.md). -/
def State.storageEntered (s : State) : State :=
  let s := (s.setSeq { s.seq with storage := true }).supplyModeChanged
  let s := (s.requestEndsInStorage 0).requestEndsInStorage 1
  ((s.modeChanged.ceilingFollows.courtesyResumes).extendEndsInStorage 0).extendEndsInStorage 1

/-- Storage is left, and every block is told: the Waiting claims are re-tested before the climate mode and the ceiling change
(DESIGN CHOICE: notes/assumptions/84.md). -/
def State.storageLeft (s : State) : State :=
  let s := (s.setSeq { s.seq with storage := false }).supplyModeChanged
  s.retest.modeChanged.ceilingFollows

/-! ### Drive accepted (R78) -/

/-- Drive accepted is worked out again, each STATUS entry read being checked; on a change the Motion Controller acts,
and a value of true ends Storage in the same event. -/
def State.driveFollows (s : State) : State :=
  let s := s.readAll fun e => e.kind == .status
  let d := s.driveNow
  if d = s.view.driveAccepted then s
  else
    let s := s.setView { s.view with driveAccepted := d }
    let s := if s.seq.fns.motion then s.motionSeesDrive else s
    if d && s.seq.storage then s.storageLeft else s

/-! ### Changes of the Peer View (R61) -/

/-- The change takes the entry from its readers: it has gone Stale or been invalidated. -/
def Change.dropped : Change → Bool
  | .freshness _ .stale => true
  | .invalidated _ => true
  | _ => false

/-- A DRAW payload taken as Released (R175). -/
def DrawRec.released (d : DrawRec) : Bool := d.state == 0 || decide (4 ≤ d.state)

/-- A change of a DRAW entry that is a re-test event (R45, R61). -/
def Change.frees : Change → Bool
  | .stored before (.draw d) =>
    d.released || (match before with
      | some (.draw o) => decide (min d.held Config.maxAmount < min o.held Config.maxAmount)
      | _ => false)
  | c => c.dropped

/-- A station's remembered level returns to 0 (R48). -/
def State.forgetLevel (s : State) (station : Nat) : State :=
  s.setBroker { s.broker with remembered := s.broker.remembered.set (stationIx station) 0 }

/-- A change of a STATUS entry at which drive accepted is worked out afresh (R78): every change of a subject 0 entry,
a store that leaves its debounced drive as it was among them (DESIGN CHOICE: notes/assumptions/86.md), and a change of
freshness or an invalidation of an entry of any other subject, which has no debounced drive. -/
def ViewChange.movesDrive (c : ViewChange) : Bool :=
  decide (c.key.subject = 0) || (match c.what with
    | .stored _ _ => false
    | .freshness _ _ => true
    | .invalidated _ => true)

/-- The station whose step entry, a MOTION of subject 0, has gone Stale or been invalidated (R159). -/
def ViewChange.lostStep (c : ViewChange) : Option Nat :=
  if c.what.dropped ∧ c.key.subject = 0 then some c.key.station else none

/-- What the readers do with one change. The pad and the courtesy call are worked out at a change of a STATUS and of a
MOTION entry of any subject (R119, R159). Drive accepted follows a STATUS change before the pad does (DESIGN CHOICE:
notes/assumptions/83.md). -/
def State.reactTo (s : State) (c : ViewChange) : State :=
  match c.key.kind with
  | .status => (if c.movesDrive then s.driveFollows else s).padFollows
  | .supply =>
    if c.key.subject = 0 then
      (if c.what.dropped then s.forgetLevel c.key.station else s).supplyChanged
    else s
  | .draw => if c.what.frees && decide (c.key.subject ≤ 6) then s.retest else s
  | .tank => s.frostService
  | .motion => s.courtesyFollows c.lostStep
  | _ => s

/-- Tell the readers of the changes one by one, in order. A change told can only add check failures, of which a table
of 64 entries has no more than 64. -/
def State.tellChanges : Nat → State → State
  | 0, s => s.setView { s.view with changes := [] }
  | n + 1, s =>
    match s.view.changes with
    | [] => s
    | c :: rest => tellChanges n ((s.setView { s.view with changes := rest }).reactTo c)

/-- Tell the readers, at the end of the step, of every change it has made to the Peer View (R61; DESIGN CHOICE:
notes/assumptions/88.md). -/
def State.tellReaders (s : State) : State := s.tellChanges (s.view.changes.length + 65)

end Sys2Proof.Machine
end

