-- ==== Sys2Proof/Machine/Supply.lean ====
section
/-! DEFINITION. The Supply Monitor (R1 to R29): the eleven stages of an accounting interval, its monitors, the charge
permit, the shed level, and the SUPPLY and SHED records. Each stage is a function of the Supply Monitor's own state;
the handing over of its monitors' changes stands around them. -/

namespace Sys2Proof.Machine

/-! ### Inputs (R3, R4) -/

def clampCurrent (raw : Int) : Int := clampInt (-50000) 50000 raw
def clampVoltage (raw : Int) : Int := clampInt 0 20000 raw
def clampTemperature (raw : Int) : Int := clampInt (-400) 850 raw

/-- The raw current lies beyond the range. -/
def beyondRange (raw : Int) : Bool := decide (raw < -50000) || decide (50000 < raw)

/-- Overrange: declared at the first reading beyond the range, cleared at the tenth in a row within it (R4). -/
def Supply.overrangeReads (u : Supply) (raw : Int) : Supply :=
  if u.overrange then
    let n := countTo 10 (!beyondRange raw) u.overrangeCount
    { u with overrange := !n.2, overrangeCount := n.1 }
  else { u with overrange := beyondRange raw, overrangeCount := 0 }

/-- Low Voltage: declared at the fifth interval below the cut, cleared at the fiftieth at 300 mV or more above it (R16). -/
def Supply.lowVoltageReads (u : Supply) (v : Values) (volts : Int) : Supply :=
  if u.lowVoltage then
    let n := countTo 50 (decide ((Item.vcut v : Int) + 300 ≤ volts)) u.lowVoltageCount
    { u with lowVoltage := !n.2, lowVoltageCount := n.1 }
  else
    let n := countTo 5 (decide (volts < Item.vcut v)) u.lowVoltageCount
    { u with lowVoltage := n.2, lowVoltageCount := n.1 }

/-- The charge permit, and CHGINH with it (R20, R21). -/
def Supply.permitReads (u : Supply) (v : Values) (temp : Int) : Supply :=
  if Item.lithium v then
    if u.permit then
      { u with permit := decide (0 ≤ temp), permitCount := 0, chginh := decide (temp < 0) }
    else
      let n := countTo 50 (decide (20 ≤ temp)) u.permitCount
      { u with permit := n.2, permitCount := n.1, chginh := !n.2 }
  else { u with permit := true, permitCount := 0, chginh := false }

/-! ### The counter (R7 to R9) -/

/-- Qfull (R7). -/
def qFull (v : Values) : Nat := Item.capacity v * 3600000

/-- The increment and the new remainder of Step 1 (R8). -/
def increment (eff r : Nat) (i : Int) : Int × Nat :=
  if 0 < i then
    let t := i.toNat * eff + r
    ((t / 100 : Nat), t % 100)
  else (i, r)

/-- Step 1 (R8, R9). -/
def Supply.countCharge (u : Supply) (v : Values) (i : Int) : Supply :=
  let d := increment (Item.efficiency v) u.r i
  let sum : Int := (u.q : Int) + d.1
  if (qFull v : Int) < sum then { u with q := qFull v, r := d.2, full := true, empty := false }
  else if sum < 0 then { u with q := 0, r := d.2, full := false, empty := true }
  else
    { u with
      q := sum.toNat, r := d.2
      full := u.full && decide (qFull v ≤ sum.toNat), empty := u.empty && decide (sum.toNat = 0) }

/-! ### Usable charge and headroom (R10 to R12) -/

/-- The whole-degree temperature, rounded down (R10). -/
def wholeDegrees (temp : Int) : Int := temp / 10

/-- The derating in per mille (R10). -/
def derating (lithium : Bool) (tc : Int) : Nat :=
  if 20 ≤ tc then 1000
  else (max 500 (1000 - (if lithium then 3 else 8) * (20 - tc))).toNat

def usableCapacity (v : Values) (temp : Int) : Nat :=
  qFull v * derating (Item.lithium v) (wholeDegrees temp) / 1000

/-- The available charge (R11). -/
def available (v : Values) (q : Nat) (temp : Int) : Nat := q - (qFull v - usableCapacity v temp)

/-- The state of charge in per mille (R11). -/
def stateOfCharge (v : Values) (q : Nat) (temp : Int) : Nat :=
  available v q temp * 1000 / usableCapacity v temp

/-- The headroom (R12). -/
def headroom (v : Values) (lowVoltage : Bool) (soc : Nat) : Nat :=
  if lowVoltage then 0
  else if Item.reserve v + 100 ≤ soc then Item.imax v
  else if Item.reserve v < soc then Item.imax v * (soc - Item.reserve v) / 100
  else 0

/-- The headroom of the counter as it stands. -/
def Supply.headroomNow (u : Supply) (v : Values) (temp : Int) : Nat :=
  headroom v u.lowVoltage (stateOfCharge v u.q temp)

/-! ### Anchors (R13 to R15) -/

/-- Interpolate within the segments of the open-circuit table, for a voltage above the first point's. -/
def ocvSegments (volts : Int) : List (Nat × Nat) → Nat
  | [] => 0
  | [p] => p.2
  | a :: b :: rest =>
    if volts < b.1 then
      ((a.2 : Int) + (((b.2 : Int) - a.2) * (volts - a.1)).tdiv ((b.1 : Int) - a.1)).toNat
    else ocvSegments volts (b :: rest)

/-- The state of charge the open-circuit table gives (R14). -/
def ocvCharge (v : Values) (volts : Int) : Nat :=
  match Item.octPoints v with
  | [] => 0
  | a :: rest => if volts ≤ a.1 then a.2 else ocvSegments volts (a :: rest)

def fullCondition (v : Values) (i volts : Int) : Bool :=
  decide ((Item.vfull v : Int) ≤ volts) && decide (0 < i) && decide (i ≤ Item.itail v)

def restCondition (i : Int) : Bool := decide (-20 ≤ i) && decide (i ≤ 20)

/-- Step 5: the full anchor, else the rest anchor, when its count completes (R13 to R15). -/
def Supply.anchors (u : Supply) (v : Values) (i volts : Int) : Supply :=
  let f := if fullCondition v i volts then u.fullCount + 1 else 0
  let r := if restCondition i then u.restCount + 1 else 0
  if 3000 ≤ f then
    { u with q := qFull v, r := 0, anchored := true, empty := false, fullCount := 0, restCount := 0 }
  else if 18000 ≤ r then
    let q := ocvCharge v volts * qFull v / 1000
    { u with
      q := q, r := 0, anchored := true, fullCount := 0, restCount := 0,
      full := u.full && decide (q = qFull v), empty := u.empty && decide (q = 0) }
  else { u with fullCount := f, restCount := r }

/-! ### Overdraw and the shed level (R17, R22, R23) -/

/-- Overdraw: declared at the tenth interval of excess discharge, cleared at the thirtieth without it (R17). -/
def Supply.overdrawReads (u : Supply) (v : Values) (i temp : Int) : Supply :=
  let excess := decide (((u.headroomNow v temp + Item.baseLoad v : Nat) : Int) < -i)
  if u.overdraw then
    let n := countTo 30 (!excess) u.overdrawCount
    { u with overdraw := !n.2, overdrawCount := n.1 }
  else
    let n := countTo 10 excess u.overdrawCount
    { u with overdraw := n.2, overdrawCount := n.1 }

/-- The shed level (R22, R23); `declared` says that Overdraw or Low Voltage has become declared in this interval. -/
def Supply.levelReads (u : Supply) (declared : Bool) : Supply :=
  if declared then { u with level := min 6 (u.level + 1), escalation := 0, recovery := 0 }
  else if u.overdraw || u.lowVoltage then
    let n := countTo 10 true u.escalation
    { u with level := if n.2 then min 6 (u.level + 1) else u.level, escalation := n.1, recovery := 0 }
  else if 0 < u.level then
    let n := countTo 100 true u.recovery
    { u with level := if n.2 then u.level - 1 else u.level, recovery := n.1 }
  else { u with recovery := 0 }

/-! ### Posting (R2, R25) -/

def trendOf (u : Supply) (i : Int) : Trend :=
  if u.full || u.empty then .atBound else if 20 < i then .charging else if i < -20 then .discharging else .rest

/-- The interval's figures (R2). -/
def Supply.figures (u : Supply) (v : Values) (i temp : Int) : Figures :=
  { q := u.q, r := u.r, full := u.full, empty := u.empty, tc := wholeDegrees temp, cuse := usableCapacity v temp,
    avail := available v u.q temp, soc := stateOfCharge v u.q temp, h := u.headroomNow v temp, permit := u.permit,
    anchored := u.anchored, trend := trendOf u i, level := u.level, overrange := u.overrange,
    lowVoltage := u.lowVoltage, overdraw := u.overdraw, roleClash := u.roleClash }

/-- Stages 1 to 8: the samples, Low Voltage, the permit, Steps 1 to 5. -/
def Supply.counted (u : Supply) (v : Values) (rawI rawV rawT : Int) : Supply :=
  ((((u.overrangeReads rawI).lowVoltageReads v (clampVoltage rawV)).permitReads v (clampTemperature rawT)).countCharge v
    (clampCurrent rawI)).anchors v (clampCurrent rawI) (clampVoltage rawV)

/-- Stages 9 to 11 after `Supply.counted`, with Role Clash as read and the figures posted. -/
def Supply.posted (u : Supply) (v : Values) (rawI rawT : Int) (lowWas clash : Bool) : Supply :=
  let d := { u.overdrawReads v (clampCurrent rawI) (clampTemperature rawT) with roleClash := clash }
  let l := d.levelReads ((d.overdraw && !u.overdraw) || (u.lowVoltage && !lowWas))
  { l with latest := some (l.figures v (clampCurrent rawI) (clampTemperature rawT)),
           intervalTimer := some Config.intervalMs, onNext := false }

/-- Hand a monitor over when it has changed (R19). -/
def State.handChange (s : State) (n : Fin 19) (old new : Bool) : State := if old = new then s else s.monitor n new

/-- A SUPPLY entry of another station that is Fresh or Aging (R18); SUPPLY has no subject but 0, and a reader ignores any
other (R58, R174). -/
def Entry.clashes (e : Entry) : Bool := e.valid && e.kind == .supply && e.subject == 0 && e.fresh.live

/-- What an interval hands over and tells the Broker, from the Supply Monitor as it was (R2, R24, R26). -/
def State.intervalEnds (s : State) (was : Supply) : State :=
  let u := s.supply
  let s := s.setCell { s.cell with q := u.q, r := u.r, anchored := u.anchored }
  let s := s.setDue { s.due with
    supply := s.due.supply || (s.inRun && (was.lowVoltage != u.lowVoltage || was.permit != u.permit || was.onNext))
    shed := s.due.shed || (s.inRun && was.level != u.level) }
  s.supplyChanged

/-- An accounting interval (R2). For Role Clash, stage 9 reads, and so checks, only the SUPPLY entries of subject 0 that are
Fresh or Aging (R18, R69; DESIGN CHOICE: notes/assumptions/76.md). -/
def State.accountingInterval (s : State) (rawI rawV rawT : Int) : State :=
  let v := s.seq.values
  let was := s.supply
  let c := was.counted v rawI rawV rawT
  let s := (s.setSupply c).handChange Mon.overrange was.overrange c.overrange
  let s := s.handChange Mon.lowVoltage was.lowVoltage c.lowVoltage
  let s := s.readAll Entry.clashes
  let p := c.posted v rawI rawT was.lowVoltage (s.entries.any Entry.clashes)
  let s := (s.setSupply p).handChange Mon.overdraw was.overdraw p.overdraw
  let s := s.handChange Mon.roleClash was.roleClash p.roleClash
  s.intervalEnds was

/-! ### The SUPPLY and SHED records (R24, R25) -/

def Trend.code : Trend → Nat
  | .rest => 0 | .charging => 1 | .discharging => 2 | .atBound => 3

def Figures.supplyRec (f : Figures) : SupplyRec :=
  { soc := f.soc, h := f.h, withdrawn := !f.permit, lowVoltage := f.lowVoltage, anchored := f.anchored, tc := f.tc,
    trend := f.trend.code }

/-- The cause of a SHED: 0 Overdraw, 1 Low Voltage, 2 Both, 3 Recovering, 4 None. -/
def Figures.cause (f : Figures) : Nat :=
  match f.overdraw, f.lowVoltage with
  | true, false => 0
  | false, true => 1
  | true, true => 2
  | false, false => if 0 < f.level then 3 else 4

def Figures.supplyRecord (f : Figures) : Record := { subject := 0, payload := .supply f.supplyRec }

def Figures.shedRecord (f : Figures) : Record := { subject := 0, payload := .shed { level := f.level, cause := f.cause } }

end Sys2Proof.Machine
end

