-- ==== Sys2Proof/Machine/Operands.lean ====
section
/-! DEFINITION. What a command acts on: the record at the head of the Receive Queue that the Dispatcher hands over
(R169, R170, R74), and the arguments of a REQUEST (R179). A Dispatcher command whose kind of record does not stand at
the head finds nothing to hand over (notes/assumptions/7.md). -/

namespace Sys2Proof.Machine

/-! ### The head of the Receive Queue (R169) -/

/-- The next record to apply, with its source station. -/
def State.nextRecord (s : State) : Option (Nat × Record) :=
  match s.bus.rx with
  | .good station _ (r :: _) :: _ => some (station, r)
  | _ => none

/-- The queue with its next record applied: an entry leaves with its last record. -/
def dropRecord : List RxEntry → List RxEntry
  | .good station cls (_ :: r :: rest) :: q => .good station cls (r :: rest) :: q
  | _ :: q => q
  | [] => []

/-- The roster in force ignores a station's records, and so does a station's own number (R74). -/
def State.rosterRejects (s : State) (station : Nat) : Bool :=
  (Item.rosterClosed s.seq.values && !Item.rosterLists s.seq.values station) || station == s.seq.station

/-- Apply the next record, when it meets `p`: ignored and counted Foreign, or handed to `f` (R74, R170). -/
def State.dispatch (s : State) (p : Record → Bool) (f : State → Nat → Record → State) : State :=
  if s.inReset then s
  else
    match s.nextRecord with
    | none => s
    | some (station, r) =>
      if p r then
        let s := s.setBus { s.bus with rx := dropRecord s.bus.rx }
        if s.rosterRejects station then s.setView { s.view with foreign := sat255 (s.view.foreign + 1) }
        else f s station r
      else s

/-! ### Requests (R179) -/

/-- A subject that addresses this station: 0 for all, or its own number. -/
def State.addressed (s : State) (r : Record) : Bool := r.subject == 0 || r.subject == s.seq.station

/-- A REQUEST of a code, addressed to this station. -/
def State.isRequest (s : State) (code : Nat) (r : Record) : Bool :=
  match r.payload with
  | .request f => s.addressed r && f.code == code
  | _ => false

/-- The index and value arguments of a REQUEST. -/
def Record.arguments (r : Record) : Nat × Int :=
  match r.payload with
  | .request f => (f.index, f.value)
  | _ => (0, 0)

/-- Hand a REQUEST of a code to the block that answers it. -/
def State.onRequest (s : State) (code : Nat) (f : State → Nat → Int → State) : State :=
  s.dispatch (s.isRequest code) fun s _ r => f s r.arguments.1 r.arguments.2

/-- A channel or zone argument. -/
def asFin2 (n : Nat) : Option (Fin 2) := if h : n < 2 then some ⟨n, h⟩ else none
def asFin4 (n : Nat) : Option (Fin 4) := if h : n < 4 then some ⟨n, h⟩ else none
def asFin8 (n : Nat) : Option (Fin 8) := if h : n < 8 then some ⟨n, h⟩ else none

/-- The first two refusals that most requests share: Absent without the function, Phase outside Run and Storage. -/
def State.refusal (s : State) (fitted : Bool) : Option Nat :=
  if !fitted then some Outcome.absent else if !s.inRun then some Outcome.phase else none

end Sys2Proof.Machine
end

