-- ==== Sys2Proof/Machine/Sequencer.lean ====
section
/-! DEFINITION. The Start Sequencer (R183 to R187): resets, the Retained Cell, the phases, setup values, and what every
block does on entering Calibrate and Run. -/

namespace Sys2Proof.Machine

/-! ### Setup values (R185) -/

/-- The lower bound, upper bound and step of an item with a plain number; the two-part items and the roster list are
taken apart in `clampItem`. Item 27 has no upper bound until the end of Setup. -/
def itemRange : Nat → Nat × Nat × Nat
  | 0 => (20, 600, 1) | 1 => (0, 1, 1) | 2 => (80, 100, 1) | 3 => (100, 500, 1) | 4 => (1000, 30000, 1)
  | 5 => (0, 5000, 1) | 6 => (10000, 12800, 1) | 7 => (13000, 15000, 1) | 8 => (50, 1000, 1) | 9 => (30, 150, 1)
  | 18 => (0, 3, 1) | 19 => (0, 1, 1) | 21 => (10, 60, 1) | 25 => (1, 30000, 1) | 26 => (1, 30000, 1)
  | 27 => (1, 4294967295, 1) | 28 => (0, 1, 1) | 29 => (1, 30000, 1) | 30 => (1, 30000, 1) | 31 => (1, 30000, 1)
  | 32 => (2, 60, 1) | 33 => (2, 60, 1) | 34 => (100, 30000, 1) | 35 => (100, 30000, 1) | 36 => (0, 1, 1)
  | 37 => (1, 255, 1) | 38 => (0, 5000, 100) | 47 => (0, 8, 1) | 48 => (10, 250, 10)
  | _ => (1, 30000, 1)

/-- A value brought into a range and down to a step. -/
def clampStep (r : Nat × Nat × Nat) (v : Nat) : Nat :=
  let x := max r.1 (min r.2.1 v)
  x / r.2.2 * r.2.2

/-- Both parts of a two-part value brought to their upper bounds. -/
def clampParts (hi lo v : Nat) : Nat := min hi (upper16 v) * 65536 + min lo (lower16 v)

/-- The value an item takes for a value received (R185), which is unsigned (DESIGN CHOICE: notes/assumptions/93.md). -/
def clampItem (i v : Nat) : Nat :=
  if 10 ≤ i ∧ i ≤ 17 then clampParts 20000 1000 v
  else if i = 20 then v % 256
  else if 22 ≤ i ∧ i ≤ 24 then clampParts 4095 4095 v
  else clampStep (itemRange i) v

/-- The number of an item, when the index names one. -/
def asItem (n : Nat) : Option (Fin 49) := if h : n < 49 then some ⟨n, h⟩ else none

/-- Take a SETUP for an item, or mark one that names none (R185). -/
def State.takeSetup (s : State) (index value : Nat) : State :=
  match asItem index with
  | none => s.setSeq { s.seq with clamped := true }
  | some i =>
    let x := clampItem index value
    s.setSeq { s.seq with
      pendingItems := s.seq.pendingItems.set i (some x), tookItem := true, clamped := s.seq.clamped || x != value }

/-- The SETUP record's index and value. -/
def Record.setupFields (r : Record) : Nat × Nat :=
  match r.payload with
  | .setup f => (f.index, f.value)
  | _ => (0, 0)

/-- A SETUP that the Dispatcher hands over and that does not end Setup (R185). -/
def State.setupHandled (s : State) (r : Record) : State :=
  if !s.addressed r then s
  else if s.seq.phase != .setup then s.setSeq { s.seq with lateSetup := sat255 (s.seq.lateSetup + 1) }
  else s.takeSetup r.setupFields.1 r.setupFields.2

/-- The SETUP End that this station takes in Setup. -/
def State.isSetupEnd (s : State) (r : Record) : Bool :=
  match r.payload with
  | .setup f => s.seq.phase == .setup && s.addressed r && f.index == 63
  | _ => false

/-- Every other SETUP. -/
def State.isSetupItem (s : State) (r : Record) : Bool :=
  match r.payload with
  | .setup _ => !s.isSetupEnd r
  | _ => false

/-! ### The end of Setup (R6, R29, R75, R186) -/

/-- The values with every pending value taken (R186). -/
def mergeItems (v : Values) (p : Tab 49 (Option Nat)) : Values :=
  ⟨List.zipWith (fun a b => b.getD a) v.items p.items, by rw [List.length_zipWith, v.len, p.len]; rfl⟩

def strictlyAscending : List Nat → Bool
  | a :: b :: rest => decide (a < b) && strictlyAscending (b :: rest)
  | _ => true

/-- The open-circuit table's voltages are strictly ascending (R6). -/
def tableAscends (v : Values) : Bool := strictlyAscending ((Item.octPoints v).map (·.1))

/-- The default open-circuit table in place of the table in force (R6). -/
def withDefaultTable (v : Values) : Values :=
  ⟨v.items.take 10 ++ (defaultItems.drop 10).take 8 ++ v.items.drop 18, by
    simp [v.len, defaultItems]⟩

/-- Item 27 clamped to the start draw in force (R185, R186). -/
def withRunDraw (v : Values) : Values := v.set 27 (min (Item.runDraw v) (Item.startDraw v))

/-- The values that come into force at the end of Setup, and whether bringing them into force has clamped any. The
open-circuit table is tested on every station, with the supply function or without (DEDUCED: notes/assumptions/65.md). -/
def valuesAtEnd (v : Values) (p : Tab 49 (Option Nat)) : Values × Bool :=
  let m := mergeItems v p
  let r := withRunDraw m
  let t := if tableAscends r then r else withDefaultTable r
  (t, Item.runDraw m != Item.runDraw r || !tableAscends r)

/-- The counter is re-initialised when the capacity in force is not the one it was kept for (R29). -/
def Supply.recount (u : Supply) (v : Values) : Supply :=
  if Item.capacity v = u.capKept then u
  else { u with q := qFull v / 2, r := 0, anchored := false, full := false, empty := false, capKept := Item.capacity v }

/-- Calibrate is entered: the motion channels calibrate, and the reading timers and the first interval start (R184). -/
def State.calibrateEntered (s : State) : State :=
  let s := s.setSeq { s.seq with phase := .calibrate, phaseTimer := some Config.calibrateMs }
  let s := if s.seq.fns.motion then (s.calibrationBegins 0).calibrationBegins 1 else s
  let s := if s.seq.fns.water then s.setWater { s.water with readTimer := some 0 } else s
  let s := if s.seq.fns.heat then s.setClimate { s.climate with readTimer := some 0 } else s
  if s.seq.fns.supply then s.setSupply { s.supply with intervalTimer := some 0 } else s

/-- Setup ends: the values are taken and locked, the counter, the gather timeout and the table follow them, the cell is
written, and Calibrate begins (R186). The readers are told of what the table gave up after that, at the end of the step (R75;
DESIGN CHOICE: notes/assumptions/88.md). -/
def State.setupEnds (s : State) : State :=
  let e := valuesAtEnd s.seq.values s.seq.pendingItems
  let s := s.setSeq { s.seq with
    values := e.1, pendingItems := Tab.fill 49 none, clamped := s.seq.clamped || e.2,
    defaultsUsed := s.seq.defaultsUsed || !s.seq.tookItem }
  let s := if s.seq.fns.supply then s.setSupply (s.supply.recount s.seq.values) else s
  let s := s.setBus { s.bus with gatherMs := Item.gatherMs s.seq.values }
  let s := s.setCell { s.cell with
    values := s.seq.values, q := s.supply.q, r := s.supply.r, anchored := s.supply.anchored,
    capKept := s.supply.capKept }
  let s := s.setDue { s.due with status0 := true }
  (s.rosterAndPinning).calibrateEntered

/-! ### Entry into Run (R184) -/

/-- Every record that is handed over on entering Run falls due (R24, R26, R101, R121, R145, R160, R178). -/
def Due.atRun (shed : Bool) (d : Due) : Due :=
  { d with
    status0 := true, supply := true, shed := shed, tank := Tab.fill 3 true, climate := Tab.fill 2 true,
    motion := Tab.fill 2 true, light := Tab.fill 8 true }

/-- The station enters Run, and each block takes its actions (R86, R91, R110, R111, R119, R138, R155, R159, R181). -/
def State.runEntered (s : State) : State :=
  let s := s.setSeq { s.seq with phase := .run, phaseTimer := none }
  let s := (s.setDue (s.due.atRun (decide (0 < s.supply.level)))).runEntryNotices
  let s := s.waterEntersRun.frostService.heaterFollows.padFollows
  let s := if s.seq.fns.motion then s.motionEntersRun else s
  s.ceilingFollows.courtesyFollows none

/-! ### Resets (R27, R28, R31, R79, R102, R122, R146, R161, R173, R183) -/

/-- Every block stops and every output goes off; the part is in reset. -/
def State.inResetWith (s : State) (isRestart : Bool) (station : Nat) (fns : Functions) (c : Cell) : State :=
  { s with
    seq := Seq.reset isRestart station fns c.values, cell := c, status := Status.reset, broker := Broker.reset,
    view := View.reset, bus := Bus.reset, supply := Supply.reset c, water := Water.reset s.pins.dumpOpen,
    climate := Climate.reset c, motion := Motion.reset s.pins, lights := Lights.reset c, periods := Periods.reset,
    due := Due.reset }

/-- A Connect reset: the cell takes its defaults and the straps are read. -/
def State.connects (s : State) (p : Straps) : State :=
  (s.setPins { s.pins with straps := p }).inResetWith false (p.st + 1) p.fs Cell.default

/-- A Restart; `intact` says that what the cell holds still agrees with its check. -/
def State.restarts (s : State) (intact : Bool) : State :=
  s.inResetWith true s.seq.station s.seq.fns { s.cell with good := s.cell.good && intact }

/-- The cell after its check has been tested at the end of a Restart: kept, or rewritten with the defaults. -/
def Cell.tested (c : Cell) (isRestart : Bool) : Cell := if isRestart && !c.good then Cell.default else c

/-- The reset ends and Listen begins; an asserted ENG begins its wait, and a retained Lockout is handed over (R122), on a
station that still has the heater function (DEDUCED: notes/assumptions/51.md). -/
def State.released (s : State) (p : Straps) : State :=
  let s := (s.setPins { s.pins with straps := p }).inResetWith s.seq.isRestart (p.st + 1) p.fs
    (s.cell.tested s.seq.isRestart)
  let s := s.setSeq { s.seq with phase := .listen, phaseTimer := some Config.listenMs }
  let s := s.setBus { s.bus with silenceTimer := some Config.silenceMs }
  let s := if p.fs.motion then s.setMotion { s.motion with windWindow := some Config.windWindowMs } else s
  let s := if s.pins.eng then s.setView { s.view with driveSetWait := some Config.driveSetMs } else s
  if p.fs.heat && s.climate.lockout then s.monitor Mon.lockout true else s

end Sys2Proof.Machine
end

