-- ==== Sys2Proof/Machine/Publish.lean ====
section
/-! DEFINITION. What a step hands over at its end (R24, R26, R101, R121, R141, R145, R160, R178): each record that has
fallen due, or whose fields have changed since the step began, is handed to the Transmit Gatherer, and its period runs
afresh. One record of each key goes out per step, in the order of this file (notes/assumptions/5.md). -/

namespace Sys2Proof.Machine

/-! ### Periods -/

def State.statusPeriodMs (s : State) : Nat := if s.seq.storage then Config.statusStorageMs else Config.statusMs
def State.supplyPeriodMs (s : State) : Nat := if s.seq.storage then Config.supplyStorageMs else Config.supplyMs

/-- Moving or Braking (R145). -/
def Chan.active (c : Chan) : Bool := c.moving || c.st == .braking

def State.motionPeriodMs (s : State) (ch : Fin 2) : Nat :=
  if (s.chan ch).active then Config.motionMovingMs else Config.motionMs

/-! ### SHED, SUPPLY and STATUS -/

/-- SHED, with the figures as posted (R24). -/
def State.publishShed (s : State) : State :=
  match s.supply.latest with
  | some f =>
    if s.due.shed && s.inRun then
      (s.hand f.shedRecord 0).setPeriods { s.periods with shed := if 0 < f.level then some Config.shedMs else none }
    else s
  | none => s

/-- SUPPLY, with the figures as posted (R25, R26). -/
def State.publishSupply (s : State) : State :=
  match s.supply.latest with
  | some f =>
    if s.due.supply && s.inRun && s.seq.fns.supply then
      (s.hand f.supplyRecord 0).setPeriods { s.periods with supply := some s.supplyPeriodMs }
    else s
  | none => s

/-- STATUS subject 0 on a change of any field, on an answer, and at its period (R178). -/
def State.publishStatus0 (was s : State) : State :=
  if s.due.status0 || statusState was != statusState s then
    (s.hand (status0Record s) 0).setPeriods { s.periods with
      status := if s.inRun then some s.statusPeriodMs else none }
  else s

/-- STATUS subject 1 at its period (R178). -/
def State.publishStatus1 (s : State) : State := if s.due.status1 then s.hand (status1Record s) 0 else s

/-- STATUS subject 2 at its period and at each change of the summary (R178). -/
def State.publishStatus2 (s : State) : State := if s.due.status2 then s.hand (status2Record s) 0 else s

/-! ### TANK and CLIMATE -/

/-- The frost fields that every TANK carries. -/
def Water.shared (w : Water) : Bool × Bool × Nat × Bool := (w.guard, w.demand, w.owed, w.dumpCmdOpen)

def State.publishTank (was s : State) (t : Fin 3) : State :=
  if s.seq.fns.water && s.inRun && (s.due.tank.get t || was.water.shared != s.water.shared) then
    (s.hand (tankRecord s t) 0).setPeriods { s.periods with
      tank := s.periods.tank.set t (some Config.slowPeriodMs) }
  else s

/-- The heater and pad fields that every CLIMATE carries. -/
def State.climateShared (s : State) : Heater × ClimateMode × Nat × Nat :=
  (s.climate.heater, s.modeInForce, s.frostField, s.padField)

def State.publishClimate (was s : State) (z : Fin 2) : State :=
  if s.seq.fns.heat && s.inRun && (s.due.climate.get z || was.climateShared != s.climateShared) then
    (s.hand (climateRecord s z) 0).setPeriods { s.periods with
      climate := s.periods.climate.set z (some Config.slowPeriodMs) }
  else s

/-! ### MOTION and INTERLOCK -/

def State.publishMotion (was s : State) (ch : Fin 2) : State :=
  if s.motionRuns && (s.due.motion.get ch || motionRecord was ch != motionRecord s ch) then
    (s.hand (motionRecord s ch) 0).setPeriods { s.periods with
      motion := s.periods.motion.set ch (some (s.motionPeriodMs ch)) }
  else s

/-- INTERLOCK when a violation begins and at its repeats (R141). -/
def State.publishInterlock (was s : State) (ch : Fin 2) : State :=
  if s.inViolation ch && (s.due.interlock.get ch || !was.inViolation ch) then
    (s.hand (interlockRecord s ch) 0).setPeriods { s.periods with
      interlock := s.periods.interlock.set ch (some Config.interlockMs) }
  else s

/-- ILOCK follows the violations, and the INTERLOCK repeats of a channel stop with its violation (R141). -/
def State.driveIlock (s : State) : State :=
  let p := s.periods.interlock
  let p := if s.inViolation 0 then p else p.set 0 none
  let p := if s.inViolation 1 then p else p.set 1 none
  (s.setMotion { s.motion with ilock := s.inViolation 0 || s.inViolation 1 }).setPeriods
    { s.periods with interlock := p }

/-! ### LIGHT -/

/-- The fields of LIGHT whose change hands it over. -/
def State.lightShared (s : State) (ch : Fin 8) : Nat × Bool × Nat × RaiseResult × Nat :=
  ((s.light ch).target, s.courtesyOn ch, s.lights.ceiling, (s.group (groupOf ch)).result,
    claimField (s.claim (loadLights (groupOf ch))))

def State.publishLight (was s : State) (ch : Fin 8) : State :=
  if s.seq.fns.lights && s.inRun && (s.due.light.get ch || was.lightShared ch != s.lightShared ch
      || ((was.light ch).fading && !(s.light ch).fading)) then
    (s.hand (lightRecord s ch) 0).setPeriods { s.periods with
      light := s.periods.light.set ch (some Config.slowPeriodMs) }
  else s

/-! ### The end of a step -/

/-- The station hands records over from Setup onward (R178, R184). -/
def State.publishes (s : State) : Bool := s.seq.phase != .reset && s.seq.phase != .listen

/-- Hand over what the step has made due, `was` being the state the step began from. -/
def State.handOver (was s : State) : State :=
  let s := State.publishStatus0 was s.publishShed.publishSupply
  let s := s.publishStatus1.publishStatus2
  let s := fin3.foldl (fun s t => State.publishTank was s t) s
  let s := fin2.foldl (fun s z => State.publishClimate was s z) s
  let s := fin2.foldl (fun s ch => State.publishInterlock was (State.publishMotion was s ch) ch) s
  fin8.foldl (fun s ch => State.publishLight was s ch) s

/-- The end of every step: the readers are told of what the Peer View has changed (DESIGN CHOICE: notes/assumptions/88.md), the
records due are handed over, and ILOCK follows the violations. -/
def State.publish (was s : State) : State :=
  let s := s.tellReaders
  ((if s.publishes then State.handOver was s else s).setDue Due.reset).driveIlock

end Sys2Proof.Machine
end

