-- ==== Sys2Proof/Machine/Line.lean ====
section
/-! DEFINITION. The Line Controller (R162 to R169): what becomes of a received frame, the sending of a frame, its fate
and the reports of it, Line Fault with its probes, and Bus Silent. -/

namespace Sys2Proof.Machine

/-! ### Receiving (R164, R168, R169) -/

/-- Hand an entry to the Receive Queue: a Good frame that finds it full is counted Overrun, an error note is lost
without count (R169). -/
def Bus.enqueue (e : RxEntry) (b : Bus) : Bus :=
  if b.rx.length < Config.rxCapacity then { b with rx := b.rx ++ [e] }
  else
    match e with
    | .good _ _ _ => { b with overrun := sat255 (b.overrun + 1) }
    | .note _ => b

/-- A Good frame of another station is heard: the silence timer is set again and Bus Silent clears (R168). -/
def State.heardGood (s : State) : State :=
  let was := s.bus.busSilent
  let s := s.setBus { s.bus with silenceTimer := some Config.silenceMs, busSilent := false }
  if was then s.monitor Mon.busSilent false else s

/-- A frame of another station closes (R164). -/
def State.frameCloses (s : State) (r : Reception) : State :=
  match r with
  | .good cls station records =>
    (s.setBus { s.bus.enqueue (.good station cls records) with lastClose := some .good, acked := true }).heardGood
  | .error d => s.setBus { s.bus.enqueue (.note d) with lastClose := some d, acked := false }

/-- The bits of a received frame come to its close; while the station is sending it receives nothing (R162, R164). -/
def State.receives (s : State) (line : List Bit) : State :=
  if s.inReset || s.bus.sending.isSome then s
  else
    match receive line with
    | some r => s.frameCloses r
    | none => s

/-- The silence timer expires (R168). -/
def State.fallsSilent (s : State) : State :=
  (s.setBus { s.bus with silenceTimer := none, busSilent := true }).monitor Mon.busSilent true

/-! ### Sending (R165) -/

/-- The frame that goes next: the urgent buffer's, else the normal buffer's. -/
def Bus.offer (b : Bus) : Option (Bool × TxFrame) :=
  match b.urgentBuf with
  | some f => some (true, f)
  | none => b.normalBuf.map fun f => (false, f)

/-- The bits a frame of this station drives. -/
def State.drives (s : State) (f : TxFrame) : List Bit :=
  frameBits f.cls s.seq.station (f.records.map (·.record))

/-- The line is idle, and a frame goes out; none does in Listen (R162, R165). -/
def State.startsSending (s : State) : State :=
  if !s.publishes || s.bus.sending.isSome then s
  else
    match s.bus.offer with
    | some (u, f) => s.setBus { s.bus with sending := some { urgent := u, bits := s.drives f } }
    | none => s

/-- The station stops driving; its frame stays in its buffer. -/
def State.stopsSending (s : State) : State := s.setBus { s.bus with sending := none }

/-- The frame on the line. -/
def Bus.onLine (b : Bus) : Option TxFrame :=
  match b.sending with
  | some x => if x.urgent then b.urgentBuf else b.normalBuf
  | none => none

/-- The frame on the line leaves its buffer (R166). -/
def Bus.leave (b : Bus) : Bus :=
  match b.sending with
  | some x =>
    if x.urgent then { b with urgentBuf := none, sending := none } else { b with normalBuf := none, sending := none }
  | none => b

/-! ### Reports of a fate (R38, R166) -/

/-- The load whose contest a record announces. -/
def Tagged.contestOf (t : Tagged) : Option (Fin 7) :=
  if t.tag = 0 then none else if h : t.record.subject < 7 then some ⟨t.record.subject, h⟩ else none

/-- The Broker hears that a frame with these records was completed. -/
def State.reportCompleted (s : State) (records : List Tagged) : State :=
  records.foldl (fun s t => match t.contestOf with
    | some id => s.announced id t.tag
    | none => s) s

/-- The Broker hears that a frame with these records failed, and tells the owners. -/
def State.reportFailed (s : State) (records : List Tagged) : State :=
  records.foldl (fun s t => match t.contestOf with
    | some id =>
      match s.announceFailed id t.tag with
      | (s, r) => s.report id r
    | none => s) s

/-- The Gatherer builds what is ready (R172). -/
def State.builds (s : State) : State := s.setBus (s.bus.build s.now)

/-! ### Line Fault (R71, R73, R167) -/

/-- The frames in the buffers, taken out when Line Fault is declared. -/
def Bus.held (b : Bus) : List Tagged :=
  (b.urgentBuf.elim [] (·.records)) ++ (b.normalBuf.elim [] (·.records))

/-- Line Fault is declared (R71, R167): probing begins, a hold begins, the NOTICE is handed over, and what the buffers held is
reported Failed, in that order (DESIGN CHOICE: notes/assumptions/89.md); the readers are told that entries are Held at the
end of the step, after the owners have acted on those reports (DESIGN CHOICE: notes/assumptions/88.md). -/
def State.declareLineFault (s : State) : State :=
  let gone := s.bus.held
  let s := s.setBus { s.bus with
    lineFault := true, probeTimer := some Config.probeMs, probeCount := 0, urgentBuf := none, normalBuf := none }
  (s.holdBegins.monitor Mon.lineFault true).reportFailed gone

/-- Line Fault clears (R71, R167): probing stops, the NOTICE is handed over and the slots are examined with it, a hold still
in force ends, and the Waiting claims are tested again, in that order (DESIGN CHOICE: notes/assumptions/75.md). The readers
hear of the resumed freshness after that, at the end of the step (R73; DESIGN CHOICE: notes/assumptions/88.md). -/
def State.clearLineFault (s : State) : State :=
  let s := s.setBus { s.bus with lineFault := false, probeTimer := none, probeCount := 0, failed := 0 }
  let s := s.monitor Mon.lineFault false
  (if s.view.holdTimer.isSome then s.holdResumes else s).retest

/-- The line counts of a completed frame (R167). -/
def State.countCompleted (s : State) (probe : Bool) : State :=
  let s := s.setBus { s.bus with failed := 0 }
  if s.bus.lineFault && probe then
    if 1 ≤ s.bus.probeCount then s.clearLineFault else s.setBus { s.bus with probeCount := 1 }
  else s

/-- The line counts of a failed frame (R167). -/
def State.countFailed (s : State) (probe : Bool) : State :=
  let s := s.setBus { s.bus with
    failed := min 8 (s.bus.failed + 1), probeCount := if probe then 0 else s.bus.probeCount }
  if s.bus.failed = 8 ∧ ¬ s.bus.lineFault then s.declareLineFault else s

/-- The frame on the line is completed (R166). -/
def State.frameCompleted (s : State) : State :=
  match s.bus.onLine with
  | some f => (((s.setBus s.bus.leave).reportCompleted f.records).countCompleted f.probe).builds
  | none => s

/-- The frame on the line is a failed frame (R166). A record that an owner hands over on hearing the report is built at once into
the emptied buffer, with other waiting records of class 1, before the failure is counted; the eighth failure then takes that
frame out again as Failed (R167; DESIGN CHOICE: notes/assumptions/92.md). -/
def State.frameFailed (s : State) : State :=
  match s.bus.onLine with
  | some f => (((s.setBus s.bus.leave).reportFailed f.records).countFailed f.probe).builds
  | none => s

/-- A probe is built into the normal buffer, and a waiting STATUS subject 0 is removed without count (R167). -/
def State.buildProbe (s : State) : State :=
  if s.bus.normalBuf.isSome then s
  else
    s.setBus { s.bus with
      normalBuf := some { cls := 2, records := [⟨status0Record s, 0⟩], probe := true }
      periodic := s.bus.periodic.filter fun w => !w.sameKey (status0Record s) }

/-- The probe timer expires (R167). -/
def State.probeDue (s : State) : State := (s.setBus { s.bus with probeTimer := some Config.probeMs }).buildProbe

/-- The oldest waiting record of a class has waited the gather timeout (R172). -/
def Bus.ripen (c : Nat) (b : Bus) : Bus :=
  match b.ofClass c with
  | [] => b
  | w :: _ => { b with periodic := b.periodic.map fun x => if x.cls == c && decide (x.join ≤ w.join) then { x with ripe := true } else x }

/-- A gather timeout runs out (R172). -/
def State.gathered (s : State) (c : Nat) : State := (s.setBus (s.bus.ripen c)).builds

end Sys2Proof.Machine
end

