-- ==== Sys2Proof/Machine/ExecStart.lean ====
section
/-! DEFINITION. The meanings of the resets, phases and setup commands (R183 to R186). A command whose timer is not
running, or whose record is not at the head of the Receive Queue, leaves the part as it is. -/

namespace Sys2Proof.Machine

/-- The end of a command: what it has made due is handed over. -/
def done (was s : State) : Host.Outcome State Fault Refusal := .next (State.publish was s)

/-- CONNECT_RESET (R183). -/
def execConnectReset (p : Straps) (s : State) : Host.Outcome State Fault Refusal := done s (s.connects p)

/-- RESTART (R183). -/
def execRestart (intact : Bool) (s : State) : Host.Outcome State Fault Refusal := done s (s.restarts intact)

/-- RESET_RELEASED (R183, R184). -/
def execResetReleased (p : Straps) (s : State) : Host.Outcome State Fault Refusal :=
  done s (if s.inReset then s.released p else s)

/-- LISTEN_TIMER_EXPIRY (R178, R184). -/
def execListenTimerExpiry (s : State) : Host.Outcome State Fault Refusal :=
  done s (if s.seq.phase = .listen ∧ s.seq.phaseTimer.isSome then
    ((s.setSeq { s.seq with phase := .setup, phaseTimer := some Config.setupMs }).setPeriods
      { s.periods with counters := some Config.countersMs }).setDue
      { s.due with status0 := true, status1 := true, status2 := true }
  else s)

/-- SETUP_TIMER_EXPIRY (R184, R186). -/
def execSetupTimerExpiry (s : State) : Host.Outcome State Fault Refusal :=
  done s (if s.seq.phase = .setup ∧ s.seq.phaseTimer.isSome then s.setupEnds else s)

/-- CALIBRATE_TIMER_EXPIRY (R184). -/
def execCalibrateTimerExpiry (s : State) : Host.Outcome State Fault Refusal :=
  done s (if s.seq.phase = .calibrate ∧ s.seq.phaseTimer.isSome then s.runEntered else s)

/-- SETUP (R170, R185). -/
def execSetup (s : State) : Host.Outcome State Fault Refusal :=
  done s (s.dispatch s.isSetupItem fun s _ r => s.setupHandled r)

/-- SETUP_END (R185, R186). -/
def execSetupEnd (s : State) : Host.Outcome State Fault Refusal :=
  done s (s.dispatch s.isSetupEnd fun s _ _ => s.setupEnds)

end Sys2Proof.Machine
end

