-- ==== Sys2Proof/Machine/ExecBus.lean ====
section
/-! DEFINITION. The meanings of the commands of the line, the Receive Queue, the Dispatcher and the Transmit Gatherer
(R162 to R172, R179). -/

namespace Sys2Proof.Machine

/-- FRAME_CLOSE (R164). -/
def execFrameClose (line : List Bit) (s : State) : Host.Outcome State Fault Refusal := done s (s.receives line)

/-- BUS_SILENT_TIMER_EXPIRY (R168). -/
def execBusSilentTimerExpiry (s : State) : Host.Outcome State Fault Refusal :=
  done s (if s.bus.silenceTimer.isSome then s.fallsSilent else s)

/-- DISPATCH_ERROR_NOTE (R170). -/
def execDispatchErrorNote (s : State) : Host.Outcome State Fault Refusal :=
  done s (match s.bus.rx with
    | .note _ :: q => s.setBus { s.bus with rx := q }
    | _ => s)

/-- A record of a kind the part does not know. -/
def Record.unknownKind (r : Record) : Bool :=
  match r.kind with
  | .unknown _ => true
  | _ => false

/-- UNKNOWN_KIND (R170). -/
def execUnknownKind (s : State) : Host.Outcome State Fault Refusal :=
  done s (s.dispatch Record.unknownKind fun s _ _ =>
    s.setBus { s.bus with unknown := sat255 (s.bus.unknown + 1) })

/-- NOTICE_PASSED_OVER (R170). -/
def execNoticePassedOver (s : State) : Host.Outcome State Fault Refusal :=
  done s (s.dispatch (fun r => r.kind == .notice) fun s _ _ => s)

/-- REQUEST_PASSED_OVER (R170). -/
def execRequestPassedOver (s : State) : Host.Outcome State Fault Refusal :=
  done s (s.dispatch (fun r => r.kind == .request && !s.addressed r) fun s _ _ => s)

/-- REQUEST_CODE_ZERO (R179). -/
def execRequestCodeZero (s : State) : Host.Outcome State Fault Refusal :=
  done s (s.onRequest 0 fun s _ _ => s)

/-- FRAME_SEND_START (R165). -/
def execFrameSendStart (s : State) : Host.Outcome State Fault Refusal := done s s.startsSending

/-- ARBITRATION_LOST (R165). -/
def execArbitrationLost (s : State) : Host.Outcome State Fault Refusal := done s s.stopsSending

/-- BIT_ERROR_ABORT (R166). -/
def execBitErrorAbort (s : State) : Host.Outcome State Fault Refusal := done s s.frameFailed

/-- FRAME_COMPLETED (R166). -/
def execFrameCompleted (s : State) : Host.Outcome State Fault Refusal := done s s.frameCompleted

/-- FRAME_NOACK (R166). -/
def execFrameNoack (s : State) : Host.Outcome State Fault Refusal := done s s.frameFailed

/-- PROBE_TIMER_EXPIRY (R167). -/
def execProbeTimerExpiry (s : State) : Host.Outcome State Fault Refusal :=
  done s (if s.bus.probeTimer.isSome then s.probeDue else s)

/-- GATHER_TIMEOUT (R172). -/
def execGatherTimeout (cls : Nat) (s : State) : Host.Outcome State Fault Refusal :=
  done s (if cls = 2 ∨ cls = 3 then s.gathered cls else s)

end Sys2Proof.Machine
end

