-- ==== Sys2Proof/Machine/ExecClimate.lean ====
section
/-! DEFINITION. The meanings of the Climate Controller's commands (R104 to R123). -/

namespace Sys2Proof.Machine

/-- The zones with a new reading (R104, R108). -/
def Zone.reading (z : Zone) (temp : Int) : Zone :=
  let t := clampInt (-400) 850 temp
  { z with temp := t, demand := zoneDemand z.setpoint t }

/-- A climate reading event (R104, R108, R109). -/
def State.climateReads (s : State) (tz0 tz1 : Int) : State :=
  let s := s.setClimate { s.climate with
    zones := (s.climate.zones.modify 0 (·.reading tz0)).modify 1 (·.reading tz1)
    readTimer := some Config.readingMs }
  if s.inRun then s.setCall.countCall.heaterFollows else s

/-- CLIMATE_READING_EVENT (R104). -/
def execClimateReadingEvent (tz0 tz1 : Int) (s : State) : Host.Outcome State Fault Refusal :=
  done s (if s.seq.fns.heat ∧ s.climate.readTimer.isSome then s.climateReads tz0 tz1 else s)

/-- HRUN_CHANGE (R112, R113, R118). -/
def execHrunChange (asserted : Bool) (s : State) : Host.Outcome State Fault Refusal :=
  done s (
    let s := s.setPins { s.pins with hrun := asserted }
    match s.climate.heater, asserted with
    | .starting, true => s.enterRunning
    | .running, false => if s.pins.hflt then s else s.heaterFails
    | _, _ => s)

/-- HFLT_CHANGE (R112, R113, R118). -/
def execHfltChange (asserted : Bool) (s : State) : Host.Outcome State Fault Refusal :=
  done s (
    let s := s.setPins { s.pins with hflt := asserted }
    match s.climate.heater, asserted with
    | .starting, true => s.heaterFails
    | .running, true => s.heaterFails
    | _, _ => s)

/-- START_TIMER_EXPIRY (R112). -/
def execStartTimerExpiry (s : State) : Host.Outcome State Fault Refusal :=
  done s (if s.climate.startTimer.isSome then s.heaterFails else s)

/-- RUN_TIMER_EXPIRY (R113). -/
def execRunTimerExpiry (s : State) : Host.Outcome State Fault Refusal :=
  done s (if s.climate.runTimer.isSome then s.setClimate { s.climate with failures := 0, runTimer := none } else s)

/-- The purge ends (R114, R116). -/
def State.purgeEnds (s : State) : State :=
  let again := s.climate.remembered
  let s := s.setClimate { s.climate with
    heater := if s.climate.lockout then .lockout else .off, purgeTimer := none, remembered := false }
  let s := s.release loadHeater
  if again && s.heaterWanted then s.askHeater else s

/-- PURGE_TIMER_EXPIRY (R114). -/
def execPurgeTimerExpiry (s : State) : Host.Outcome State Fault Refusal :=
  done s (if s.climate.purgeTimer.isSome then s.purgeEnds else s)

/-- A setpoint is taken for a zone and kept in the cell (R105, R106). -/
def State.takeSetpoint (s : State) (z : Fin 2) (value : Int) : State :=
  let p := clampInt 50 300 value
  let s := s.setClimate { s.climate with
    zones := s.climate.zones.modify z fun x => { x with setpoint := p, demand := zoneDemand p x.temp } }
  let s := s.setCell { s.cell with setpoints := s.cell.setpoints.set z p }
  (s.setDue { s.due with climate := s.due.climate.set z true }).setCall.heaterFollows

/-- SET_SETPOINT (R106). -/
def execSetSetpoint (s : State) : Host.Outcome State Fault Refusal :=
  done s (s.onRequest 1 fun s zone value =>
    match s.refusal s.seq.fns.heat with
    | some o => s.answer 1 o
    | none =>
      match asFin2 zone with
      | none => s.answer 1 Outcome.range
      | some z => (s.answer 1 Outcome.accepted).takeSetpoint z value)

/-- The modes by their codes (R179). -/
def asMode : Nat → Option ClimateMode
  | 0 => some .off
  | 1 => some .comfort
  | 2 => some .frostOnly
  | _ => none

/-- A mode is taken and kept in the cell (R105, R107). -/
def State.takeMode (s : State) (m : ClimateMode) : State :=
  if s.climate.chosen = m then s
  else ((s.setClimate { s.climate with chosen := m }).setCell { s.cell with chosen := m }).modeChanged

/-- SET_CLIMATE_MODE (R107). -/
def execSetClimateMode (s : State) : Host.Outcome State Fault Refusal :=
  done s (s.onRequest 2 fun s mode _ =>
    match s.refusal s.seq.fns.heat with
    | some o => s.answer 2 o
    | none =>
      match asMode mode with
      | none => s.answer 2 Outcome.range
      | some m =>
        if s.seq.storage then s.answer 2 Outcome.storage
        else
          (s.answer 2 (if m ≠ .off ∧ s.climate.lockout then Outcome.lockout else Outcome.accepted)).takeMode m)

/-- An accepted ResetHeater (R116). -/
def State.heaterResets (s : State) : State :=
  let was := s.climate.lockout
  let s := s.setClimate { s.climate with
    failures := 0, lockout := false, heater := if s.climate.heater = .lockout then .off else s.climate.heater }
  let s := if was then (s.setCell { s.cell with lockout := false }).monitor Mon.lockout false else s
  s.heaterFollows

/-- RESET_HEATER (R116). -/
def execResetHeater (s : State) : Host.Outcome State Fault Refusal :=
  done s (s.onRequest 3 fun s _ _ =>
    match s.refusal s.seq.fns.heat with
    | some o => s.answer 3 o
    | none => (s.answer 3 Outcome.accepted).heaterResets)

/-- CLIMATE_PERIOD (R121). -/
def execClimatePeriod (zone : Fin 2) (s : State) : Host.Outcome State Fault Refusal :=
  done s (if (s.periods.climate.get zone).isSome then
    s.setDue { s.due with climate := s.due.climate.set zone true }
  else s)

end Sys2Proof.Machine
end

