-- ==== Sys2Proof/Machine/ExecLights.lean ====
section
/-! DEFINITION. The meanings of the Light Controller's commands (R148 to R161). -/

namespace Sys2Proof.Machine

/-- FADE_STEP (R150). -/
def execFadeStep (ch : Fin 8) (s : State) : Host.Outcome State Fault Refusal :=
  done s (if (s.light ch).stepTimer.isSome then s.fadeStepped ch else s)

/-- A light request that Storage refuses: Absent, Phase, Range and Storage in that order (R157, R158). -/
def State.lightRefusal (s : State) (inRange : Bool) : Option Nat :=
  match s.refusal s.seq.fns.lights with
  | some o => some o
  | none =>
    if !inRange then some Outcome.range else if s.seq.storage then some Outcome.storage else none

/-- A level of 0 to 1000 (R157). -/
def clampLevel (v : Int) : Nat := (clampInt 0 1000 v).toNat

/-- A SetLevel that is taken (R157, R159). A courtesy change that waited for the request it abandons is made after it (DESIGN
CHOICE: notes/assumptions/64.md). -/
def State.takeLevel (s : State) (ch : Fin 8) (value : Int) : State :=
  let req := s.status.serial + 1
  let s := if Item.courtesy s.seq.values = some ch then s.courtesyEnds else s
  let g := groupOf ch
  let t : Tab 4 Nat := ⟨fin4.map fun k =>
    if groupChan g k = ch then clampLevel value else (s.light (groupChan g k)).target, rfl⟩
  ((s.requestGroup g t req).answerLights 7 req).courtesyResumes

/-- SET_LEVEL (R157). -/
def execSetLevel (s : State) : Host.Outcome State Fault Refusal :=
  done s (s.onRequest 7 fun s channel value =>
    match asFin8 channel with
    | none => s.answer 7 ((s.lightRefusal false).getD Outcome.range)
    | some ch =>
      match s.lightRefusal true with
      | some o => s.answer 7 o
      | none => s.takeLevel ch value)

/-- An AllOff that is taken (R157): pending requests are abandoned, and every channel has target 0 at once, whatever the
groups' claims hold. -/
def State.takeAllOff (s : State) : State :=
  let s := (s.courtesyEnds.abandonRequest 0).abandonRequest 1
  ((s.takeTargets 0 (Tab.fill 4 0)).takeTargets 1 (Tab.fill 4 0)).answer 10 Outcome.accepted

/-- ALL_OFF (R157). -/
def execAllOff (s : State) : Host.Outcome State Fault Refusal :=
  done s (s.onRequest 10 fun s _ _ =>
    match s.refusal s.seq.fns.lights with
    | some o => s.answer 10 o
    | none => s.takeAllOff)

/-- A group's part of a scene. -/
def sceneGroup (g : Fin 2) (x : Tab 8 Nat) : Tab 4 Nat := ⟨fin4.map fun k => x.get (groupChan g k), rfl⟩

/-- A RecallScene that is taken (R158), group 0 asking before group 1 (DESIGN CHOICE: notes/assumptions/61.md). -/
def State.takeScene (s : State) (n : Fin 4) : State :=
  let req := s.status.serial + 1
  let x := s.lights.scenes.get n
  let s := s.courtesyEnds
  (((s.requestGroup 0 (sceneGroup 0 x) req).requestGroup 1 (sceneGroup 1 x) req).answerLights 8 req).courtesyResumes

/-- RECALL_SCENE (R158). -/
def execRecallScene (s : State) : Host.Outcome State Fault Refusal :=
  done s (s.onRequest 8 fun s scene _ =>
    match asFin4 scene with
    | none => s.answer 8 ((s.lightRefusal false).getD Outcome.range)
    | some n =>
      match s.lightRefusal true with
      | some o => s.answer 8 o
      | none => s.takeScene n)

/-- The level a scene keeps of a channel: the previous target for the courtesy channel while it is lit (R158). -/
def State.sceneLevel (s : State) (ch : Fin 8) : Nat :=
  if s.courtesyOn ch then s.lights.prevTarget else (s.light ch).target

/-- A StoreScene that is taken, kept in the cell (R158). -/
def State.keepScene (s : State) (n : Fin 4) : State :=
  let scenes := s.lights.scenes.set n ⟨fin8.map s.sceneLevel, rfl⟩
  ((s.setLights { s.lights with scenes := scenes }).setCell { s.cell with scenes := scenes }).answer 9 Outcome.accepted

/-- STORE_SCENE (R158). -/
def execStoreScene (s : State) : Host.Outcome State Fault Refusal :=
  done s (s.onRequest 9 fun s scene _ =>
    match asFin4 scene with
    | none => s.answer 9 ((s.lightRefusal false).getD Outcome.range)
    | some n =>
      match s.lightRefusal true with
      | some o => s.answer 9 o
      | none => s.keepScene n)

/-- The return countdown ends (R159). -/
def State.courtesyReturns (s : State) : State :=
  let s := s.setLights { s.lights with courtesy := false, countdown := none }
  match Item.courtesy s.seq.values with
  | some ch => s.courtesyChange ch .restore
  | none => s

/-- COURTESY_COUNTDOWN_EXPIRY (R159). -/
def execCourtesyCountdownExpiry (s : State) : Host.Outcome State Fault Refusal :=
  done s (if s.lights.countdown.isSome then s.courtesyReturns else s)

/-- LIGHT_PERIOD (R160). -/
def execLightPeriod (ch : Fin 8) (s : State) : Host.Outcome State Fault Refusal :=
  done s (if (s.periods.light.get ch).isSome then
    s.setDue { s.due with light := s.due.light.set ch true }
  else s)

end Sys2Proof.Machine
end

