-- ==== Sys2Proof/Machine/ExecMotion.lean ====
section
/-! DEFINITION. The meanings of the Motion Controller's commands (R124 to R147). -/

namespace Sys2Proof.Machine

/-- The Motion Controller reads its inputs: it is fitted and the part is out of reset (R124). -/
def State.motionActs (s : State) : Bool := s.seq.fns.motion && !s.inReset

/-- A motion request: the first three refusals of R127, and then what the request does with its channel. -/
def State.motionRequest (s : State) (code : Nat) (f : State → Fin 2 → State) : State :=
  s.onRequest code fun s channel _ =>
    match s.refusal s.seq.fns.motion with
    | some o => s.answer code o
    | none =>
      match asFin2 channel with
      | none => s.answer code Outcome.range
      | some ch => f s ch

/-- EXTEND (R127). -/
def execExtend (s : State) : Host.Outcome State Fault Refusal :=
  done s (s.motionRequest 4 fun s ch =>
    match s.extendRefusal ch with
    | some o => s.answer 4 o
    | none => s.takeExtend 4 ch)

/-- RETRACT (R128). -/
def execRetract (s : State) : Host.Outcome State Fault Refusal :=
  done s (s.motionRequest 5 fun s ch => s.takeRetract 5 ch)

/-- STOP (R129). -/
def execStop (s : State) : Host.Outcome State Fault Refusal :=
  done s (s.motionRequest 6 fun s ch => s.takeStop 6 ch)

/-- The level of an end stop. -/
def Pins.withStop (p : Pins) (ch : Fin 2) (which : EndStop) (active : Bool) : Pins :=
  match which with
  | .retracted => { p with er := p.er.set ch active }
  | .extended => { p with ee := p.ee.set ch active }

/-- END_STOP_CHANGE (R126, R131). -/
def execEndStopChange (ch : Fin 2) (which : EndStop) (active : Bool) (s : State) : Host.Outcome State Fault Refusal :=
  done s (
    let s := s.setPins (s.pins.withStop ch which active)
    if s.motionActs then s.stopsFollow ch else s)

/-- DWELL_TIMER_EXPIRY (R132). -/
def execDwellTimerExpiry (ch : Fin 2) (s : State) : Host.Outcome State Fault Refusal :=
  done s (if s.motionRuns ∧ (s.chan ch).dwell.isSome then s.dwellEnds ch else s)

/-- TRAVEL_TIMER_EXPIRY (R133). -/
def execTravelTimerExpiry (ch : Fin 2) (s : State) : Host.Outcome State Fault Refusal :=
  done s (if (s.chan ch).travel.isSome then s.travelExpires ch else s)

/-- STALL_TIMER_EXPIRY (R134). -/
def execStallTimerExpiry (ch : Fin 2) (s : State) : Host.Outcome State Fault Refusal :=
  done s (if (s.chan ch).stall.isSome then s.stalls ch else s)

/-- BACKOFF_TIMER_EXPIRY (R135). -/
def execBackoffTimerExpiry (ch : Fin 2) (s : State) : Host.Outcome State Fault Refusal :=
  done s (if (s.chan ch).backoff.isSome then s.backoffEnds ch else s)

/-- IDLE_TIMER_EXPIRY (R137). -/
def execIdleTimerExpiry (ch : Fin 2) (s : State) : Host.Outcome State Fault Refusal :=
  done s (if (s.chan ch).idle.isSome then s.calibrationBegins ch else s)

/-- CALIBRATION_END (R137), with what the sense input reads as the calibration ends. -/
def execCalibrationEnd (ch : Fin 2) (sensed : Nat) (s : State) : Host.Outcome State Fault Refusal :=
  done s (if (s.chan ch).calibrating then
    (s.setPins { s.pins with motor := s.pins.motor.set ch sensed }).calibrated ch
  else s)

/-- WIND_PULSE (R140). -/
def execWindPulse (s : State) : Host.Outcome State Fault Refusal :=
  done s (if s.motionActs then s.setMotion { s.motion with windPulses := s.motion.windPulses + 1 } else s)

/-- WIND_WINDOW_END (R140). -/
def execWindWindowEnd (s : State) : Host.Outcome State Fault Refusal :=
  done s (if s.motion.windWindow.isSome then s.windWindowEnds else s)

/-- WIND_LOCKOUT_EXPIRY (R140). -/
def execWindLockoutExpiry (s : State) : Host.Outcome State Fault Refusal :=
  done s (if s.motion.windLockout.isSome then s.windLockoutEnds else s)

/-- INTERLOCK_REPEAT (R141). -/
def execInterlockRepeat (ch : Fin 2) (s : State) : Host.Outcome State Fault Refusal :=
  done s (if (s.periods.interlock.get ch).isSome then
    s.setDue { s.due with interlock := s.due.interlock.set ch true }
  else s)

/-- HOLD_ASSERTED (R142). Channel 0 acts before channel 1 (DESIGN CHOICE: notes/assumptions/6.md). -/
def execHoldAsserted (s : State) : Host.Outcome State Fault Refusal :=
  done s (if s.pins.hold then s
  else
    let s := s.setPins { s.pins with hold := true }
    if s.motionRuns then (s.holdFollows 0).holdFollows 1 else s)

/-- HOLD_RELEASED (R143). Channel 0 acts before channel 1 (DESIGN CHOICE: notes/assumptions/6.md). -/
def execHoldReleased (s : State) : Host.Outcome State Fault Refusal :=
  done s (if s.pins.hold then
    let s := s.setPins { s.pins with hold := false }
    if s.motionRuns then (s.actOnPending 0).actOnPending 1 else s
  else s)

/-- MOTOR_CURRENT_CHANGE (R134). -/
def execMotorCurrentChange (ch : Fin 2) (sensed : Nat) (s : State) : Host.Outcome State Fault Refusal :=
  done s ((s.setPins { s.pins with motor := s.pins.motor.set ch sensed }).currentFollows ch)

/-- MOTION_PERIOD (R145). -/
def execMotionPeriod (ch : Fin 2) (s : State) : Host.Outcome State Fault Refusal :=
  done s (if (s.periods.motion.get ch).isSome then
    s.setDue { s.due with motion := s.due.motion.set ch true }
  else s)

end Sys2Proof.Machine
end

