-- ==== Sys2Proof/Machine/ExecStatus.lean ====
section
/-! DEFINITION. The meanings of the Station Status commands and of the Storage requests (R178, R182, R187). -/

namespace Sys2Proof.Machine

/-- STATUS_PERIOD (R178). -/
def execStatusPeriod (s : State) : Host.Outcome State Fault Refusal :=
  done s (if s.periods.status.isSome then s.setDue { s.due with status0 := true } else s)

/-- STATUS_COUNTERS_PERIOD (R178). -/
def execStatusCountersPeriod (s : State) : Host.Outcome State Fault Refusal :=
  done s (if s.periods.counters.isSome then
    (s.setPeriods { s.periods with counters := some Config.countersMs }).setDue
      { s.due with status1 := true, status2 := true }
  else s)

/-- ACK_ATTENTION (R182). -/
def execAckAttention (s : State) : Host.Outcome State Fault Refusal :=
  done s (s.onRequest 13 fun s _ _ =>
    match s.refusal true with
    | some o => s.answer 13 o
    | none =>
      let s := s.answer 13 Outcome.accepted
      s.setStatus { s.status with attention := false })

/-- ENTER_STORAGE (R187). -/
def execEnterStorage (s : State) : Host.Outcome State Fault Refusal :=
  done s (s.onRequest 14 fun s _ _ =>
    match s.refusal true with
    | some o => s.answer 14 o
    | none =>
      if s.seq.storage then s.answer 14 Outcome.accepted
      else if s.view.driveAccepted then s.answer 14 Outcome.drive
      else (s.answer 14 Outcome.accepted).storageEntered)

/-- LEAVE_STORAGE (R187). -/
def execLeaveStorage (s : State) : Host.Outcome State Fault Refusal :=
  done s (s.onRequest 15 fun s _ _ =>
    match s.refusal true with
    | some o => s.answer 15 o
    | none =>
      let s := s.answer 15 Outcome.accepted
      if s.seq.storage then s.storageLeft else s)

end Sys2Proof.Machine
end

