-- ==== Sys2Proof/Machine/ExecSupply.lean ====
section
/-! DEFINITION. The meanings of the charge accounting commands (R1 to R29). -/

namespace Sys2Proof.Machine

/-- ACCOUNTING_INTERVAL (R2). -/
def execAccountingInterval (rawI rawV rawT : Int) (s : State) : Host.Outcome State Fault Refusal :=
  done s (if s.seq.fns.supply ∧ s.supply.intervalTimer.isSome then s.accountingInterval rawI rawV rawT else s)

/-- SHED_PERIOD (R24). -/
def execShedPeriod (s : State) : Host.Outcome State Fault Refusal :=
  done s (if s.periods.shed.isSome then s.setDue { s.due with shed := true } else s)

/-- SUPPLY_PERIOD (R26). -/
def execSupplyPeriod (s : State) : Host.Outcome State Fault Refusal :=
  done s (if s.periods.supply.isSome then s.setDue { s.due with supply := true } else s)

end Sys2Proof.Machine
end

