-- ==== Sys2Proof/WellFormed.lean ====
section
/-! DEFINITION. The operands a command can carry on the part: the ranges the spec gives its converters, straps,
keys and classes. A command outside them does not come from the hardware. -/

namespace Sys2Proof

/-- Three station straps make a number from 0 to 7 (R183). -/
def Straps.wf (p : Straps) : Bool := decide (p.st ≤ 7)

/-- The kinds the Peer View stores (R56). -/
def Kind.stored : Kind → Bool
  | .status | .supply | .draw | .tank | .climate | .motion | .interlock | .light => true
  | _ => false

/-- A key the Peer View can hold (R57): a station from 1 to 8, a stored kind, a subject from 0 to 15. -/
def Key.wf (k : Key) : Bool := decide (1 ≤ k.station ∧ k.station ≤ 8) && k.kind.stored && decide (k.subject ≤ 15)

/-- What the operands of a well-formed command meet: probes read 0 to 4,095 (R81), a frame opens with its dominant
start bit (R163), a gather timeout runs for class 2 or 3 (R172). -/
def Instr.wf : Instr → Bool
  | .connectReset p => p.wf
  | .resetReleased p => p.wf
  | .frameClose line => line.head? == some false
  | .entryAging k => k.wf
  | .entryStale k => k.wf
  | .gatherTimeout c => c == 2 || c == 3
  | .waterReadingEvent a b c _ _ _ => decide (a ≤ 4095 ∧ b ≤ 4095 ∧ c ≤ 4095)
  | _ => true

end Sys2Proof
end

