-- ==== Sys2Proof/Machine/ExecView.lean ====
section
/-! DEFINITION. The meanings of the Peer View and Load Broker commands (R30 to R80) and of the inputs ENG and CHGAV. -/

namespace Sys2Proof.Machine

/-- PEER_ARRIVAL (R63). -/
def execPeerArrival (s : State) : Host.Outcome State Fault Refusal :=
  done s (s.dispatch (fun r => r.kind.stored) fun s station r => s.arrive station r)

/-- VIEW_OVERFLOW_TIMER_EXPIRY (R45, R70). A timer that a loss has just restarted has not run down, and the monitor stays
declared. The NOTICE is handed over before the Waiting claims are tested again (DESIGN CHOICE: notes/assumptions/87.md). -/
def execViewOverflowTimerExpiry (s : State) : Host.Outcome State Fault Refusal :=
  done s (if s.view.overflowTimer = some 0 then
    ((s.setView { s.view with overflow := false, overflowTimer := none }).monitor Mon.viewOverflow false).retest
  else s)

/-- ENTRY_AGING (R59). -/
def execEntryAging (k : Key) (s : State) : Host.Outcome State Fault Refusal := done s (s.entryAges k)

/-- ENTRY_STALE (R59). -/
def execEntryStale (k : Key) (s : State) : Host.Outcome State Fault Refusal := done s (s.entryGoesStale k)

/-- HOLD_TIMER_EXPIRY (R73). -/
def execHoldTimerExpiry (s : State) : Host.Outcome State Fault Refusal :=
  done s (if s.view.holdTimer.isSome then s.holdRunsOut else s)

/-- The waits of local drive after a change of ENG (R76). -/
def View.engWaits (v : View) (asserted : Bool) : View :=
  { v with
    driveSetWait := if asserted && !v.localDrive then some Config.driveSetMs else none
    driveClearWait := if !asserted && v.localDrive then some Config.driveClearMs else none }

/-- ENG_CHANGE (R76, R119). -/
def execEngChange (asserted : Bool) (s : State) : Host.Outcome State Fault Refusal :=
  done s (if s.pins.eng = asserted then s
  else
    let s := s.setPins { s.pins with eng := asserted }
    if s.inReset then s else (s.setView (s.view.engWaits asserted)).padFollows)

/-- LOCAL_DRIVE_SET (R76, R78). -/
def execLocalDriveSet (s : State) : Host.Outcome State Fault Refusal :=
  done s (if s.view.driveSetWait.isSome then
    (s.setView { s.view with localDrive := true, driveSetWait := none }).driveFollows
  else s)

/-- LOCAL_DRIVE_CLEAR (R76, R78). -/
def execLocalDriveClear (s : State) : Host.Outcome State Fault Refusal :=
  done s (if s.view.driveClearWait.isSome then
    (s.setView { s.view with localDrive := false, driveClearWait := none }).driveFollows
  else s)

/-- CHGAV_CHANGE (R119). -/
def execChgavChange (asserted : Bool) (s : State) : Host.Outcome State Fault Refusal :=
  done s (s.setPins { s.pins with chgav := asserted }).padFollows

/-- A SUPPLY entry that lets its station's SHED be taken (R48). -/
def Entry.shedSource (station : Nat) (e : Entry) : Bool :=
  e.valid && e.kind == .supply && e.subject == 0 && e.station == station && e.fresh != .stale

/-- A SHED sets its sender's remembered level (R48). -/
def State.takeShed (s : State) (station : Nat) (r : Record) : State :=
  match r.payload with
  | .shed f =>
    let s := s.readAll (Entry.shedSource station)
    if s.entries.any (Entry.shedSource station) then
      (s.setBroker { s.broker with
        remembered := s.broker.remembered.set (stationIx station) (min f.level 6) }).levelFollows
    else s
  | _ => s

/-- SHED_RECEIVED (R48). -/
def execShedReceived (s : State) : Host.Outcome State Fault Refusal :=
  done s (s.dispatch (fun r => r.kind == .shed) fun s station r => s.takeShed station r)

/-- CONTEST_WINDOW_END (R39). -/
def execContestWindowEnd (load : Fin 7) (s : State) : Host.Outcome State Fault Refusal :=
  done s (if (s.claim load).window.isSome then
    match s.windowEnd load with
    | (s, r) => s.report load r
  else s)

/-- DRAW_REPEAT (R53). -/
def execDrawRepeat (load : Fin 7) (s : State) : Host.Outcome State Fault Refusal :=
  done s (if (s.periods.draw.get load).isSome ∧ (s.claim load).drawing then s.handDraw load else s)

end Sys2Proof.Machine
end

