-- ==== Sys2Proof/Machine/ExecWater.lean ====
section
/-! DEFINITION. The meanings of the Water Manager's commands (R81 to R103). -/

namespace Sys2Proof.Machine

/-- The Water Manager acts: it is fitted and the part is out of reset (R81). -/
def State.waterActs (s : State) : Bool := s.seq.fns.water && !s.inReset

/-- WATER_READING_EVENT (R81). -/
def execWaterReadingEvent (tk0 tk1 tk2 : Nat) (tt0 tt1 tt2 : Int) (s : State) : Host.Outcome State Fault Refusal :=
  done s (if s.waterActs ∧ s.water.readTimer.isSome then
    (s.setWater { s.water with readTimer := some Config.readingMs }).waterReads tk0 tk1 tk2 tt0 tt1 tt2
  else s)

/-- PDEM_CHANGE (R86). -/
def execPdemChange (asserted : Bool) (s : State) : Host.Outcome State Fault Refusal :=
  done s (s.setPins { s.pins with pdem := asserted }).demandFollows

/-- RUNAWAY_COUNT_EXPIRY (R88). The claim is released before the NOTICE is handed over (DESIGN CHOICE:
notes/assumptions/89.md). -/
def execRunawayCountExpiry (s : State) : Host.Outcome State Fault Refusal :=
  done s (if s.water.runawayTimer.isSome then
    ((s.setWater { s.water with runaway := true }).pumpReleased.monitor Mon.pumpRunaway true).demandFollows
  else s)

/-- FROST_DUE_TIME (R92). -/
def execFrostDueTime (s : State) : Host.Outcome State Fault Refusal :=
  done s (if s.inRun ∧ s.water.cycle = .timing ∧ s.water.dueTimer.isSome then s.takeDue else s)

/-- CIRCULATION_TIMER_EXPIRY (R93). -/
def execCirculationTimerExpiry (s : State) : Host.Outcome State Fault Refusal :=
  done s (if s.water.circTimer.isSome then s.cycleCompleted else s)

/-- DUMPFB_CHANGE (R98, R100). Where Valve Fault clears, its NOTICE is handed over before the demand path may ask (DESIGN CHOICE:
notes/assumptions/89.md). -/
def execDumpfbChange (isOpen : Bool) (s : State) : Host.Outcome State Fault Refusal :=
  done s (if s.pins.dumpOpen = isOpen then s
  else
    let s := s.setPins { s.pins with dumpOpen := isOpen }
    if s.waterActs then s.valveTiming.valveFollows else s)

/-- VALVE_FAULT_TIMER_EXPIRY (R100). -/
def execValveFaultTimerExpiry (s : State) : Host.Outcome State Fault Refusal :=
  done s (if s.water.valveTimer.isSome then
    let was := s.water.valveFault
    let s := s.setWater { s.water with valveFault := true, valveTimer := none }
    if was then s else s.monitor Mon.valveFault true
  else s)

/-- An accepted CloseDump (R99). Where Valve Fault clears, its NOTICE is handed over before the demand path may ask (DESIGN
CHOICE: notes/assumptions/89.md). -/
def State.closesDump (s : State) : State :=
  if s.water.dumpCmdOpen then
    ((s.setWater { s.water with
      dumpCmdOpen := false, dumpDrive := .toClosed, dumpCount := 0 }).valveTiming).valveFollows
  else s

/-- CLOSE_DUMP (R99). -/
def execCloseDump (s : State) : Host.Outcome State Fault Refusal :=
  done s (s.onRequest 11 fun s _ _ =>
    match s.refusal s.seq.fns.water with
    | some o => s.answer 11 o
    | none => if s.freshTemp < 30 then s.answer 11 Outcome.frost else (s.answer 11 Outcome.accepted).closesDump)

/-- CLEAR_PUMP (R89). The NOTICE is handed over before the demand path asks (DESIGN CHOICE: notes/assumptions/89.md). -/
def execClearPump (s : State) : Host.Outcome State Fault Refusal :=
  done s (s.onRequest 12 fun s _ _ =>
    match s.refusal s.seq.fns.water with
    | some o => s.answer 12 o
    | none =>
      let s := s.answer 12 Outcome.accepted
      if s.water.runaway then
        ((s.setWater { s.water with runaway := false }).monitor Mon.pumpRunaway false).demandFollows
      else s)

/-- TANK_PERIOD (R101). -/
def execTankPeriod (tank : Fin 3) (s : State) : Host.Outcome State Fault Refusal :=
  done s (if (s.periods.tank.get tank).isSome then s.setDue { s.due with tank := s.due.tank.set tank true } else s)

end Sys2Proof.Machine
end

