-- ==== Sys2Proof/Machine/Dispatch.lean ====
section
/-! DEFINITION. One arm per command of spec/opcode_table.json, each one direct call of its meaning. -/

namespace Sys2Proof.Machine

def exec (i : Instr) (s : State) : Host.Outcome State Fault Refusal :=
  match i with
  | .connectReset straps => Sys2Proof.Machine.execConnectReset straps s
  | .restart cellIntact => Sys2Proof.Machine.execRestart cellIntact s
  | .resetReleased straps => Sys2Proof.Machine.execResetReleased straps s
  | .listenTimerExpiry => Sys2Proof.Machine.execListenTimerExpiry s
  | .setupTimerExpiry => Sys2Proof.Machine.execSetupTimerExpiry s
  | .calibrateTimerExpiry => Sys2Proof.Machine.execCalibrateTimerExpiry s
  | .setup => Sys2Proof.Machine.execSetup s
  | .setupEnd => Sys2Proof.Machine.execSetupEnd s
  | .accountingInterval rawI rawV rawT => Sys2Proof.Machine.execAccountingInterval rawI rawV rawT s
  | .shedPeriod => Sys2Proof.Machine.execShedPeriod s
  | .supplyPeriod => Sys2Proof.Machine.execSupplyPeriod s
  | .frameClose line => Sys2Proof.Machine.execFrameClose line s
  | .busSilentTimerExpiry => Sys2Proof.Machine.execBusSilentTimerExpiry s
  | .dispatchErrorNote => Sys2Proof.Machine.execDispatchErrorNote s
  | .unknownKind => Sys2Proof.Machine.execUnknownKind s
  | .noticePassedOver => Sys2Proof.Machine.execNoticePassedOver s
  | .requestPassedOver => Sys2Proof.Machine.execRequestPassedOver s
  | .peerArrival => Sys2Proof.Machine.execPeerArrival s
  | .viewOverflowTimerExpiry => Sys2Proof.Machine.execViewOverflowTimerExpiry s
  | .entryAging key => Sys2Proof.Machine.execEntryAging key s
  | .entryStale key => Sys2Proof.Machine.execEntryStale key s
  | .holdTimerExpiry => Sys2Proof.Machine.execHoldTimerExpiry s
  | .engChange asserted => Sys2Proof.Machine.execEngChange asserted s
  | .localDriveSet => Sys2Proof.Machine.execLocalDriveSet s
  | .localDriveClear => Sys2Proof.Machine.execLocalDriveClear s
  | .chgavChange asserted => Sys2Proof.Machine.execChgavChange asserted s
  | .shedReceived => Sys2Proof.Machine.execShedReceived s
  | .contestWindowEnd load => Sys2Proof.Machine.execContestWindowEnd load s
  | .drawRepeat load => Sys2Proof.Machine.execDrawRepeat load s
  | .frameSendStart => Sys2Proof.Machine.execFrameSendStart s
  | .arbitrationLost => Sys2Proof.Machine.execArbitrationLost s
  | .bitErrorAbort => Sys2Proof.Machine.execBitErrorAbort s
  | .frameCompleted => Sys2Proof.Machine.execFrameCompleted s
  | .frameNoack => Sys2Proof.Machine.execFrameNoack s
  | .probeTimerExpiry => Sys2Proof.Machine.execProbeTimerExpiry s
  | .gatherTimeout cls => Sys2Proof.Machine.execGatherTimeout cls s
  | .waterReadingEvent tk0 tk1 tk2 tt0 tt1 tt2 => Sys2Proof.Machine.execWaterReadingEvent tk0 tk1 tk2 tt0 tt1 tt2 s
  | .pdemChange asserted => Sys2Proof.Machine.execPdemChange asserted s
  | .runawayCountExpiry => Sys2Proof.Machine.execRunawayCountExpiry s
  | .frostDueTime => Sys2Proof.Machine.execFrostDueTime s
  | .circulationTimerExpiry => Sys2Proof.Machine.execCirculationTimerExpiry s
  | .dumpfbChange isOpen => Sys2Proof.Machine.execDumpfbChange isOpen s
  | .valveFaultTimerExpiry => Sys2Proof.Machine.execValveFaultTimerExpiry s
  | .closeDump => Sys2Proof.Machine.execCloseDump s
  | .clearPump => Sys2Proof.Machine.execClearPump s
  | .tankPeriod tank => Sys2Proof.Machine.execTankPeriod tank s
  | .climateReadingEvent tz0 tz1 => Sys2Proof.Machine.execClimateReadingEvent tz0 tz1 s
  | .hrunChange asserted => Sys2Proof.Machine.execHrunChange asserted s
  | .hfltChange asserted => Sys2Proof.Machine.execHfltChange asserted s
  | .startTimerExpiry => Sys2Proof.Machine.execStartTimerExpiry s
  | .runTimerExpiry => Sys2Proof.Machine.execRunTimerExpiry s
  | .purgeTimerExpiry => Sys2Proof.Machine.execPurgeTimerExpiry s
  | .setSetpoint => Sys2Proof.Machine.execSetSetpoint s
  | .setClimateMode => Sys2Proof.Machine.execSetClimateMode s
  | .resetHeater => Sys2Proof.Machine.execResetHeater s
  | .climatePeriod zone => Sys2Proof.Machine.execClimatePeriod zone s
  | .extend => Sys2Proof.Machine.execExtend s
  | .retract => Sys2Proof.Machine.execRetract s
  | .stop => Sys2Proof.Machine.execStop s
  | .endStopChange ch which active => Sys2Proof.Machine.execEndStopChange ch which active s
  | .dwellTimerExpiry ch => Sys2Proof.Machine.execDwellTimerExpiry ch s
  | .travelTimerExpiry ch => Sys2Proof.Machine.execTravelTimerExpiry ch s
  | .stallTimerExpiry ch => Sys2Proof.Machine.execStallTimerExpiry ch s
  | .backoffTimerExpiry ch => Sys2Proof.Machine.execBackoffTimerExpiry ch s
  | .idleTimerExpiry ch => Sys2Proof.Machine.execIdleTimerExpiry ch s
  | .calibrationEnd ch sensed => Sys2Proof.Machine.execCalibrationEnd ch sensed s
  | .windWindowEnd => Sys2Proof.Machine.execWindWindowEnd s
  | .windLockoutExpiry => Sys2Proof.Machine.execWindLockoutExpiry s
  | .interlockRepeat ch => Sys2Proof.Machine.execInterlockRepeat ch s
  | .holdAsserted => Sys2Proof.Machine.execHoldAsserted s
  | .holdReleased => Sys2Proof.Machine.execHoldReleased s
  | .motionPeriod ch => Sys2Proof.Machine.execMotionPeriod ch s
  | .fadeStep ch => Sys2Proof.Machine.execFadeStep ch s
  | .setLevel => Sys2Proof.Machine.execSetLevel s
  | .allOff => Sys2Proof.Machine.execAllOff s
  | .recallScene => Sys2Proof.Machine.execRecallScene s
  | .storeScene => Sys2Proof.Machine.execStoreScene s
  | .courtesyCountdownExpiry => Sys2Proof.Machine.execCourtesyCountdownExpiry s
  | .lightPeriod ch => Sys2Proof.Machine.execLightPeriod ch s
  | .statusPeriod => Sys2Proof.Machine.execStatusPeriod s
  | .statusCountersPeriod => Sys2Proof.Machine.execStatusCountersPeriod s
  | .ackAttention => Sys2Proof.Machine.execAckAttention s
  | .enterStorage => Sys2Proof.Machine.execEnterStorage s
  | .leaveStorage => Sys2Proof.Machine.execLeaveStorage s
  | .windPulse => Sys2Proof.Machine.execWindPulse s
  | .motorCurrentChange ch sensed => Sys2Proof.Machine.execMotorCurrentChange ch sensed s
  | .requestCodeZero => Sys2Proof.Machine.execRequestCodeZero s

end Sys2Proof.Machine
end

