-- ==== Sys2Proof/Machine/Tick.lean ====
section
/-! DEFINITION. A millisecond in which no command comes: the clock and every timer of the part run on (R59, and the
timers of every chapter). What a timer causes when it has run down comes with its own command; how the two go together
is in notes/assumptions/4.md. -/

namespace Sys2Proof.Machine

/-- The age an entry counts up to before its next change of freshness (R59). -/
def Entry.ageLimit (e : Entry) : Nat :=
  match e.fresh with
  | .fresh => agingAt e.kind - 1
  | .aging => staleAt e.kind - 1
  | _ => e.age

/-- An entry's age counts up by a millisecond; a Stale one's and a Held one's stand still (R59, R71). -/
def Entry.tick (e : Entry) : Entry :=
  if e.valid && e.fresh.live && decide (e.age < e.ageLimit) then { e with age := e.age + 1 : Entry }.seal else e

def Claim.tick (c : Claim) : Claim := { c with window := tickTimer c.window }

def View.tick (v : View) : View :=
  { v with
    sets := v.sets.map fun x => { x with ways := x.ways.map Entry.tick }
    holdTimer := tickTimer v.holdTimer, overflowTimer := tickTimer v.overflowTimer
    driveSetWait := tickTimer v.driveSetWait, driveClearWait := tickTimer v.driveClearWait }

/-- A millisecond of a channel whose sense input reads `sensed`. While a calibration runs the reading is added to those its
mean is taken of, one a millisecond (R137; DESIGN CHOICE: notes/assumptions/79.md). -/
def Chan.tick (c : Chan) (sensed : Nat) : Chan :=
  { c with
    calTimer := tickTimer c.calTimer, calSum := if c.calTimer.any (0 < ·) then c.calSum + sensed else c.calSum
    travel := tickTimer c.travel, stall := tickTimer c.stall
    backoff := tickTimer c.backoff, dwell := tickTimer c.dwell, idle := tickTimer c.idle }

def Periods.tick (p : Periods) : Periods :=
  { status := tickTimer p.status, counters := tickTimer p.counters, supply := tickTimer p.supply,
    shed := tickTimer p.shed, draw := p.draw.map tickTimer, tank := p.tank.map tickTimer,
    climate := p.climate.map tickTimer, motion := p.motion.map tickTimer, interlock := p.interlock.map tickTimer,
    light := p.light.map tickTimer }

def Water.tick (w : Water) : Water :=
  { w with
    dueTimer := tickTimer w.dueTimer, circTimer := tickTimer w.circTimer, runawayTimer := tickTimer w.runawayTimer
    valveTimer := tickTimer w.valveTimer, readTimer := tickTimer w.readTimer }

def Climate.tick (c : Climate) : Climate :=
  { c with
    startTimer := tickTimer c.startTimer, runTimer := tickTimer c.runTimer, purgeTimer := tickTimer c.purgeTimer
    readTimer := tickTimer c.readTimer }

def Motion.tick (m : Motion) (sensed : Tab 2 Nat) : Motion :=
  { m with
    chans := ⟨fin2.map fun ch => (m.chans.get ch).tick (sensed.get ch), rfl⟩
    windWindow := tickTimer m.windWindow, windLockout := tickTimer m.windLockout }

def Light.tick (l : Light) : Light := { l with stepTimer := tickTimer l.stepTimer }

/-- One millisecond passes. -/
def State.tick (s : State) : State :=
  { s with
    now := s.now + 1
    seq := { s.seq with phaseTimer := tickTimer s.seq.phaseTimer }
    broker := { s.broker with claims := s.broker.claims.map Claim.tick }
    view := s.view.tick
    bus := { s.bus with probeTimer := tickTimer s.bus.probeTimer, silenceTimer := tickTimer s.bus.silenceTimer }
    supply := { s.supply with intervalTimer := tickTimer s.supply.intervalTimer }
    water := s.water.tick
    climate := s.climate.tick
    motion := s.motion.tick s.pins.motor
    lights := { s.lights with chans := s.lights.chans.map Light.tick, countdown := tickTimer s.lights.countdown }
    periods := s.periods.tick }

end Sys2Proof.Machine
end

