-- ==== Sys2Proof/Safety.lean ====
section
/-! DEFINITION. What counts as a sound state of the part, in the terms the statements use: the limits the spec gives the
queues, buffers, claims and counters, the entries' checks, the rule about Extending under drive, and the model's own
fields at rest between steps. Nothing here is assumed of a state; the statements say which of it they need. -/

namespace Sys2Proof.Machine

/-- Every entry's check agrees with its fields (R58). -/
def View.checked (v : View) : Prop := ∀ i w, ((v.sets.get i).ways.get w).bad = false

/-- Two waiting records differ in kind or subject. -/
def Waiting.differs (a b : Waiting) : Prop :=
  a.item.record.kind ≠ b.item.record.kind ∨ a.item.record.subject ≠ b.item.record.subject

/-- A frame carries one to four records (R163). -/
def TxFrame.fits (f : TxFrame) : Prop := 1 ≤ f.records.length ∧ f.records.length ≤ 4

/-- The Gatherer holds at most 8 periodic and 2 urgent records, never two of one kind and subject, and the buffers hold
frames of one to four records (R163, R171). -/
def Bus.lanesFit (b : Bus) : Prop :=
  b.periodic.length ≤ 8 ∧ b.urgent.length ≤ 2 ∧ b.periodic.Pairwise Waiting.differs ∧ b.urgent.Pairwise Waiting.differs
    ∧ (∀ f, b.urgentBuf = some f → f.fits) ∧ (∀ f, b.normalBuf = some f → f.fits)

/-- The Receive Queue holds at most 16 entries (R169). -/
def Bus.queueFits (b : Bus) : Prop := b.rx.length ≤ 16

/-- What R31 and R47 say of a claim's fields. -/
def Claim.fits (c : Claim) : Prop :=
  c.rank ≤ 6 ∧ c.held ≤ 30000 ∧ c.asked ≤ 30000
    ∧ (c.drawing = false → c.held = 0)
    ∧ (c.raise = true → c.st = .held)
    ∧ (c.drawing = true → c.raise = false → c.asked = c.held)
    ∧ (c.st = .forced → c.rank = 1)

def Broker.claimsFit (b : Broker) : Prop := ∀ id, (b.claims.get id).fits

/-- The counters shown to the outside stop at 255 (R69, R74, R169 to R171, R181, R185). -/
def State.countersFit (s : State) : Prop :=
  s.bus.overrun ≤ 255 ∧ s.bus.dropped ≤ 255 ∧ s.bus.unknown ≤ 255 ∧ s.view.foreign ≤ 255 ∧ s.view.tableError ≤ 255
    ∧ s.status.changeCount ≤ 255 ∧ s.seq.lateSetup ≤ 255

/-- No channel is Extending while drive accepted is true, and none is outside Run (R124, R139). -/
def State.extendSafe (s : State) : Prop :=
  ∀ ch, (s.chan ch).st = .extending → s.view.driveAccepted = false ∧ s.motionRuns = true

/-- The model's own fields between steps: no change of the Peer View is untold and no record is left due; and ILOCK and
the INTERLOCK repeats agree with the violations (R141). -/
def State.quiet (s : State) : Prop :=
  s.view.changes = [] ∧ s.due = Due.reset ∧ s.motion.ilock = (s.inViolation 0 || s.inViolation 1)
    ∧ ∀ ch, s.inViolation ch = false → s.periods.interlock.get ch = none

/-- A sound state. -/
structure State.Sound (s : State) : Prop where
  checked : s.view.checked
  lanes : s.bus.lanesFit
  queue : s.bus.queueFits
  claims : s.broker.claimsFit
  counters : s.countersFit
  extend : s.extendSafe
  quiet : s.quiet

/-- `t` is `s` after records were handed over at the end of a step: everything but the Gatherer's lanes and buffers, the
Dropped counter, the periods, the marks of due records and ILOCK is as in `s`. -/
def State.handedOver (s t : State) : Prop :=
  t = { s with
    bus := { s.bus with
      urgentBuf := t.bus.urgentBuf, normalBuf := t.bus.normalBuf, dropped := t.bus.dropped
      periodic := t.bus.periodic, urgent := t.bus.urgent }
    periods := t.periods, due := Due.reset, motion := { s.motion with ilock := t.motion.ilock } }

/-! ### Premises and results the statements share -/

/-- The next record the Dispatcher applies is `r` from station `n`, and the roster lets it in (R74, R170). -/
def State.brings (s : State) (n : Nat) (r : Record) : Prop :=
  s.inReset = false ∧ s.nextRecord = some (n, r) ∧ s.rosterRejects n = false

/-- The next record the Dispatcher applies is a REQUEST of `code` addressed to this station, with these arguments, and
the roster lets it in (R179). -/
def State.asks (s : State) (code index : Nat) (value : Int) : Prop :=
  ∃ n k, s.brings n { subject := k, payload := .request { code := code, index := index, value := value } }
    ∧ (k = 0 ∨ k = s.seq.station)

/-- The state with that record out of the Receive Queue (R169). -/
def State.taken (s : State) : State := s.setBus { s.bus with rx := dropRecord s.bus.rx }

/-- The state with a request answered: its code and outcome are shown (R180), and the model's own count goes on. -/
def State.answered (s : State) (code outcome : Nat) : State :=
  s.setStatus { s.status with lastRequest := code, outcome := outcome, serial := s.status.serial + 1 }

/-- The request `code` is shown with the outcome (R180). -/
def State.shows (s : State) (code outcome : Nat) : Prop := s.status.lastRequest = code ∧ s.status.outcome = outcome

/-- The Gatherer holds a record, waiting in a lane or built into a frame that stands in a buffer (R165, R171). -/
def Bus.carries (b : Bus) (r : Record) : Prop :=
  (∃ w ∈ b.periodic ++ b.urgent, w.item.record = r)
    ∨ ∃ f, (b.urgentBuf = some f ∨ b.normalBuf = some f) ∧ ∃ x ∈ f.records, x.record = r

/-- The frame that an empty normal buffer takes from the slots (R172). Class 1 is ready while a record of it waits, class 2 or 3
while four wait or its oldest has waited the gather timeout; the lowest class ready goes, up to four of its records, oldest
first. There is none where no class is ready. -/
def Bus.nextNormal (b : Bus) (now : Nat) : Option TxFrame :=
  let late := fun k => (b.ofClass k).head?.any fun w => w.ripe || decide (w.join + b.gatherMs ≤ now)
  let ready := fun k => (k == 1 && !(b.ofClass k).isEmpty) || decide (4 ≤ (b.ofClass k).length) || late k
  ([1, 2, 3].find? ready).map fun k => { cls := k, records := ((b.ofClass k).take 4).map (·.item), probe := false }

/-- From `b` to `c` an emptied normal buffer has taken its next frame from the slots, or nothing while Line Fault is declared;
the frame's records, and no others, have left them (R167, R172). -/
def Bus.refills (b c : Bus) (now : Nat) : Prop :=
  let next := if b.lineFault = true then none else b.nextNormal now
  c.normalBuf = next ∧ ∀ k, c.ofClass k = (b.ofClass k).drop (if next.any (·.cls == k) then 4 else 0)

/-- The frame announces the contest that runs for the claim, in its announcing stage (R38). -/
def State.announces (s : State) (f : TxFrame) (id : Fin 7) : Prop :=
  let c := s.claim id
  c.contesting = true ∧ c.announcing = true ∧ ∃ x ∈ f.records, x.tag ≠ 0 ∧ x.tag = c.serial ∧ x.record.subject = id.val

/-- The standing ask in contest, to which its owner does nothing more when the contest is not won (R33, R38): the
heater's is at the rank that its reason gives. -/
def State.onlyWaits (s : State) (id : Fin 7) : Prop :=
  (s.claim id).st = .contest ∧ (s.claim id).single = false
    ∧ (id = loadHeater → (s.claim id).rank = s.heaterRank)

/-- Of the scales 750, 500 and 250 below `scale`, `t` takes up the first at which a group's request for the targets
`want` fits what the claim held in `s`, its targets then being taken, or whose covering amount passes the pre-test, its
contest then running; where there is none the request ends Refused, and the targets stay (R152, R153). A channel that the
request raised comes that part of its way, and any other takes what the request gives it. -/
def State.scalesDown (s t : State) (g : Fin 2) (want : Tab 4 Nat) (scale : Nat) : Prop :=
  let id := loadLights g
  let held := (s.claim id).held
  let trial := fun (x : Nat) (k : Fin 4) =>
    let now := (s.light (groupChan g k)).target
    if now < want.get k then now + (want.get k - now) * x / 1000 else want.get k
  let cover := fun x : Nat => (fin4.map fun k =>
    let m := max (s.light (groupChan g k)).level (trial x k)
    if m = 0 then 0 else max 1 (Item.lightDraw s.seq.values (groupChan g k) * (m * m / 1000) / 1000)).sum
  let fitting := ([750, 500, 250].filter (· < scale)).find? fun x =>
    decide (cover x ≤ held) || s.passes id 6 (min (cover x) 30000)
  let stay := ∀ k, (t.light (groupChan g k)).target = (s.light (groupChan g k)).target
  match fitting with
  | none => (t.group g).pending = none ∧ (t.group g).result = .refused ∧ (t.claim id).contesting = false ∧ stay
  | some x =>
    if cover x ≤ held then
      (t.group g).pending = none ∧ (t.group g).result = resultOf x ∧ (t.claim id).contesting = false
        ∧ ∀ k, (t.light (groupChan g k)).target = trial x k
    else
      (∃ r, (t.group g).pending = some r ∧ r.want = want ∧ r.scale = x ∧ ∀ k, r.trial.get k = trial x k)
        ∧ (t.claim id).contesting = true ∧ (t.claim id).announcing = true ∧ (t.claim id).held = held
        ∧ (t.claim id).asked = min (cover x) 30000 ∧ stay

/-- From `s` to `t` a need for protection has fallen due on a channel in Run, and the channel has acted by its state (R138,
R139): a channel on its way or braking keeps its claim, re-ranked to 0; one at rest away from home retracts at once on a
claim Held at rank 0 unless HOLD or calibration keeps the Protective move pending, with no claim; one at home only loses a
pending Extend (DEDUCED, notes/assumptions/39.md), and so does one under a Protective retract already (DESIGN CHOICE,
notes/assumptions/78.md). An Extend that is replaced shows Drive or Wind where it is the last request handled (R129). -/
def State.meetsNeed (s t : State) (ch : Fin 2) : Prop :=
  let c := s.chan ch
  let d := t.chan ch
  let claim := s.claim (loadMotor ch)
  let now := t.claim (loadMotor ch)
  let kept := now.st = claim.st ∧ now.held = claim.held ∧ (claim.st = .held → now.rank = 0)
  let home := c.st = .retracted ∨ c.st = .unknown ∧ s.pins.er.get ch = true
  (c.st = .extending → kept ∧ d = { c with
      st := .braking, bridge := .short, pending := .none, followOn := .protective, protective := false, req := 0
      travel := none, stall := none, dwell := some 300 })
    ∧ (c.st = .retracting → kept ∧ d = { c with protective := true, pending := .none, req := 0 })
    ∧ (c.st = .backoff → kept ∧ d = { c with
        st := .retracting, backoff := none, travel := some (Item.travelMs s.seq.values ch), protective := true
        pending := .none, req := 0 })
    ∧ (c.st = .braking →
        (c.followOn = .settleFault → now = claim ∧ d = c)
          ∧ (c.followOn = .backoff ∨ c.followOn = .protective → kept ∧ d = c)
          ∧ (c.followOn = .none ∨ c.followOn = .extend ∨ c.followOn = .retract →
              kept ∧ d = { c with followOn := .protective, pending := .none, req := 0 }))
    ∧ (home → (c.pending = .extend → now.st = .idle ∧ d.st = c.st ∧ d.pending = .none) ∧ (c.pending ≠ .extend → d = c))
    ∧ (c.atRest = true → ¬ home →
        (c.pending = .protective → d = c)
          ∧ (c.pending ≠ .protective → s.pins.hold = true ∨ c.calTimer.isSome = true →
              now.st = .idle ∧ d = { c with pending := .protective, req := 0, idle := none })
          ∧ (c.pending ≠ .protective → s.pins.hold = false → c.calTimer = none →
              if s.pins.er.get ch = true then now.st = .idle ∧ d.st = .braking ∧ d.bridge = .short ∧ d.followOn = .none
              else now.st = .held ∧ now.rank = 0 ∧ d.st = .retracting ∧ d.bridge = .retract ∧ d.pending = .none
                ∧ d.protective = true ∧ d.travel = some (Item.travelMs s.seq.values ch)))
    ∧ (c.st ≠ .extending → c.pending = .extend ∨ c.followOn = .extend → c.req ≠ 0 → c.req = s.status.serial →
        t.status.outcome = if t.view.driveAccepted = true then 4 else 6)

/-- From `s` to `t` the need for protection of a channel has ended (R138 to R140): a Protective move that is pending or
follows on becomes None and its claim is Idle, an idle channel's idle timer running afresh (DEDUCED, notes/assumptions/20.md);
anything else stands, a Protective move under way included. -/
def State.losesNeed (s t : State) (ch : Fin 2) : Prop :=
  let c := s.chan ch
  let drops := c.pending = .protective
  let off := c.followOn = .protective
  (drops ∨ off → (t.claim (loadMotor ch)).st = .idle)
    ∧ (¬ drops → ¬ off → (s.claim (loadMotor ch)).st ≠ .waiting → t.claim (loadMotor ch) = s.claim (loadMotor ch))
    ∧ t.chan ch = { c with
        pending := if drops then .none else c.pending, followOn := if off then .none else c.followOn
        req := if drops ∨ off then 0 else c.req
        idle := if drops ∧ c.atRest = true ∧ c.calTimer = none then some 600000 else c.idle }

/-- Every output is off (R183, R184): PUMP, DUMP, HEN, HDEM, the pad, the bridges, ILOCK, CHGINH and the lights. -/
def State.outputsOff (s : State) : Prop :=
  s.water.pump = false ∧ s.water.dumpDrive = .notDriven ∧ s.climate.hen = false ∧ s.climate.hdem = 0
    ∧ s.climate.pad = false ∧ (∀ ch, (s.chan ch).bridge = .off) ∧ s.motion.ilock = false ∧ s.supply.chginh = false
    ∧ ∀ ch, (s.light ch).duty = 0

/-! ### How far a command reaches -/

/-- `t` is `s` but for the Broker, the bus, the view, the status, the periods and the due marks. -/
def Shared (s t : State) : Prop :=
  t = { s with broker := t.broker, bus := t.bus, view := t.view, status := t.status, periods := t.periods, due := t.due }

/-- `t` is `s` but for what `Shared` allows, the Climate Controller and the cell. -/
def Warm (s t : State) : Prop := Shared { s with climate := t.climate, cell := t.cell } t

/-- `t` is `s` but for what `Shared` allows and the Light Controller. -/
def Lit (s t : State) : Prop := Shared { s with lights := t.lights } t

/-- `t` is `s` but for what `Shared` allows, the Motion Controller and the Light Controller. -/
def Moved (s t : State) : Prop := Shared { s with motion := t.motion, lights := t.lights } t

/-- `t` is `s` but for what `Shared` allows, the Water Manager, the Climate Controller and the cell. -/
def Wet (s t : State) : Prop := Shared { s with water := t.water, climate := t.climate, cell := t.cell } t

/-! ### Block invariants: what a state between steps keeps to, block by block

The statements say that every step keeps them; other statements take them as premises. -/

/-- The value lies in the item's range and on its step (R185); each part of a two-part item in its own. -/
def inRange (i v : Nat) : Prop :=
  if 10 ≤ i ∧ i ≤ 17 then upper16 v ≤ 20000 ∧ lower16 v ≤ 1000
  else if i = 20 then v < 256
  else if 22 ≤ i ∧ i ≤ 24 then upper16 v ≤ 4095 ∧ lower16 v ≤ 4095
  else (itemRange i).1 ≤ v ∧ v ≤ (itemRange i).2.1 ∧ v % (itemRange i).2.2 = 0

/-- Setup values that may be in force: each in its range, the run draw at most the start draw, the open-circuit
voltages strictly ascending (R6, R185, R186). -/
def Values.fit (v : Values) : Prop :=
  (∀ i : Fin 49, inRange i.val (v.get i)) ∧ Item.runDraw v ≤ Item.startDraw v ∧ tableAscends v = true

/-- The values in force fit, and so does every pending value; and the gather timeout in force lies within 10 to 250 ms
(R172, R185). -/
def State.valuesFit (s : State) : Prop :=
  Values.fit s.seq.values ∧ (∀ (i : Fin 49) (x : Nat), s.seq.pendingItems.get i = some x → inRange i.val x)
    ∧ 10 ≤ s.bus.gatherMs ∧ s.bus.gatherMs ≤ 250

/-- The Retained Cell holds what its owners hold (R28, R122, R161, R183, R186). -/
def State.cellMirrors (s : State) : Prop :=
  s.cell.values = s.seq.values ∧ s.cell.q = s.supply.q ∧ s.cell.r = s.supply.r ∧ s.cell.anchored = s.supply.anchored
    ∧ s.cell.capKept = s.supply.capKept ∧ (∀ z, s.cell.setpoints.get z = (s.climate.zones.get z).setpoint)
    ∧ s.cell.chosen = s.climate.chosen ∧ s.cell.lockout = s.climate.lockout ∧ s.cell.scenes = s.lights.scenes

/-- The Supply Monitor: Q within 0 to Qfull of the capacity it is kept for and r within 0 to 99 (R7), L at most 6 (R22),
and figures within their ranges (R11, R12). The capacity kept is the one in force from the first interval on (R29). -/
def State.supplyFits (s : State) : Prop :=
  s.supply.q ≤ s.supply.capKept * 3600000 ∧ s.supply.r ≤ 99 ∧ s.supply.level ≤ 6
    ∧ (s.seq.fns.supply = true → s.supply.intervalTimer.isSome = true → s.supply.capKept = Item.capacity s.seq.values)
    ∧ ∀ f, s.supply.latest = some f → f.soc ≤ 1000 ∧ f.h ≤ 30000 ∧ f.level ≤ 6

/-- The station has the function of the block that owns the load (R30). -/
def State.ownerFitted (s : State) (id : Fin 7) : Bool :=
  match id with
  | 0 | 1 => s.seq.fns.heat
  | 2 => s.seq.fns.water
  | 3 | 4 => s.seq.fns.motion
  | 5 | 6 => s.seq.fns.lights

/-- The ranks a load's claim may stand at: those of its purposes, and rank 0 where it yields by completion or retracts
for protection (R30). -/
def loadRanks : Fin 7 → List Nat
  | 0 => [0, 1, 4]
  | 1 => [2]
  | 2 => [1, 5]
  | 3 | 4 => [0, 3]
  | 5 | 6 => [0, 6]

/-- The claims as the owners use them. A claim is Idle outside Run and on a station without its function, and stands at
a rank of its load; it asks and holds at least 1 count; only a light group raises, only the pump is Forced; a contest is
in its announcing stage or its window runs; a light group asks by Try; no Held claim and no contest has a rank that
yields to the level in force; a light group stays at rank 0 only while the level is above 0 (R30, R32, R34, R38 to R40,
R42, R47, R49, R51). -/
def State.claimsServe (s : State) : Prop :=
  s.broker.level ≤ 6 ∧ (∀ n, s.broker.remembered.get n ≤ 6) ∧ ∀ id,
    let c := s.claim id
    (c.st ≠ .idle → s.inRun = true ∧ s.ownerFitted id = true ∧ c.rank ∈ loadRanks id ∧ 1 ≤ c.asked)
      ∧ (c.drawing = true → 1 ≤ c.held) ∧ (c.raise = true → 5 ≤ id.val) ∧ (c.st = .forced → id = loadPump)
      ∧ (c.announcing = true → c.contesting = true)
      ∧ (c.window.isSome = true → c.contesting = true ∧ c.announcing = false)
      ∧ (c.contesting = true → (c.announcing = true ∨ c.window.isSome = true) ∧ askRank id c + s.broker.level < 7)
      ∧ (c.st = .waiting → c.single = false) ∧ (c.st = .contest ∨ c.st = .waiting → c.rank ≠ 0)
      ∧ (c.st = .held → c.rank + s.broker.level < 7)
      ∧ (5 ≤ id.val → c.st ≠ .waiting ∧ (c.st = .contest → c.single = true)
          ∧ (c.st = .held → c.rank = 0 → 0 < s.broker.level))

/-- The Peer View (R57, R58, R59, R63, R64): every valid entry stands in its key's set and no two hold one key; its kind
is stored and its station is another; the pinned ways hold critical kinds from the end of Setup on; a Fresh entry's age is
below its Aging threshold, an Aging one's between the thresholds. -/
def State.viewFits (s : State) : Prop :=
  ∀ i w, let e := (s.view.sets.get i).ways.get w
    e.valid = true →
      setOf e.key = i ∧ e.kind.stored = true ∧ e.station ≠ s.seq.station
        ∧ (∀ x, ((s.view.sets.get i).ways.get x).valid = true → ((s.view.sets.get i).ways.get x).key = e.key → x = w)
        ∧ (w.val < Item.pinned s.seq.values → e.kind.critical = true)
        ∧ (e.fresh = .fresh → e.age < agingAt e.kind)
        ∧ (e.fresh = .aging → agingAt e.kind ≤ e.age ∧ e.age < staleAt e.kind)
        ∧ (e.fresh = .held → s.view.holdTimer.isSome = true)

/-- The Water Manager (R32, R81, R87 to R96): PUMP is on only while its claim is Held or Forced, the fresh level is 30
or more and the valve is closed, and the runaway count runs only with it and outside a circulation; owed is at most 4, and
0 while the guard is clear, as it is in reset; the cycle is Off exactly while the guard is clear, and Drained only while
the valve is not closed; the frost-demand flag is set exactly while Circulating, whose claim is Held or Forced; the claim stands at
rank 1 exactly for a cycle, Asking by a Try, and only a cycle is Forced. -/
def State.waterFits (s : State) : Prop :=
  let c := s.claim loadPump
  (s.water.pump = true → c.drawing = true ∧ s.freshOk = true ∧ s.valveClosed = true ∧ s.inRun = true
      ∧ s.seq.fns.water = true)
    ∧ (s.water.runawayTimer.isSome = true → s.water.pump = true ∧ s.water.cycle ≠ .circulating)
    ∧ s.water.owed ≤ 4 ∧ (s.water.guard = false ↔ s.water.cycle = .off)
    ∧ (s.water.guard = true → s.seq.fns.water = true ∧ s.inReset = false)
    ∧ (s.water.cycle = .off ∨ s.water.cycle = .drained → s.water.owed = 0)
    ∧ (s.water.cycle = .drained → s.valveClosed = false)
    ∧ (s.water.demand = true ↔ s.water.cycle = .circulating)
    ∧ (s.water.circTimer.isSome = true ↔ s.water.cycle = .circulating)
    ∧ (s.water.cycle = .circulating → c.drawing = true) ∧ (c.st = .forced → s.water.cycle = .circulating)
    ∧ (s.water.cycle = .asking → c.st = .contest ∧ c.single = true)
    ∧ (c.st ≠ .idle → (c.rank = 1 ↔ s.water.cycle = .asking ∨ s.water.cycle = .circulating))

/-- The Climate Controller (R32, R108, R110 to R120): a zone's demand is at most 100; frost service is what its inputs give
in Run on a station with the heater, and inactive elsewhere; HEN is on exactly while Starting or Running, and the claim is Held
exactly while Starting, Running or Purging and asks only while Off; it asks for the start draw, by Try at rank 1 alone,
holds it while Starting, and holds the run draw while Running; HDEM is 0 in the other states and at most 100; each
timer runs in its own state; the Lockout state has Lockout declared, which outside it stands only through a purge; PAD is on exactly while its
claim is Held; the failure count is at most 2. -/
def State.climateFits (s : State) : Prop :=
  (∀ z, (s.climate.zones.get z).demand ≤ 100) ∧ s.climate.frost = s.frostServiceNow
    ∧ ((s.claim loadHeater).st = .contest → (s.claim loadHeater).single = true → (s.claim loadHeater).rank = 1)
    ∧ (s.climate.hen = true ↔ s.climate.heater = .starting ∨ s.climate.heater = .running)
    ∧ ((s.claim loadHeater).st = .held ↔
        s.climate.heater = .starting ∨ s.climate.heater = .running ∨ s.climate.heater = .purging)
    ∧ ((s.claim loadHeater).st = .contest ∨ (s.claim loadHeater).st = .waiting → s.climate.heater = .off
        ∧ (s.claim loadHeater).asked = Item.startDraw s.seq.values)
    ∧ (s.climate.heater = .starting → (s.claim loadHeater).held = Item.startDraw s.seq.values)
    ∧ (s.climate.heater = .running → (s.claim loadHeater).held = Item.runDraw s.seq.values)
    ∧ (s.climate.hen = false → s.climate.hdem = 0) ∧ s.climate.hdem ≤ 100
    ∧ (s.climate.startTimer.isSome = true ↔ s.climate.heater = .starting)
    ∧ (s.climate.runTimer.isSome = true → s.climate.heater = .running)
    ∧ (s.climate.purgeTimer.isSome = true ↔ s.climate.heater = .purging)
    ∧ (s.climate.heater = .lockout → s.climate.lockout = true)
    ∧ (s.climate.lockout = true → s.climate.heater = .lockout ∨ s.climate.heater = .purging)
    ∧ ((s.claim loadPad).st = .held ↔ s.climate.pad = true) ∧ s.climate.failures ≤ 2

/-- The bridge of a channel by its state (R126). -/
def MState.bridge : MState → Bridge
  | .extending => .extend
  | .retracting | .backoff => .retract
  | .braking => .short
  | _ => .off

/-- A channel (R124 to R142): the bridge is its state's; a follow-on stands only while Braking and a pending move is a
move; a channel leaves its rest, or waits to, only in Run; each timer runs in its own states; a channel that calibrates or
waits for its idle timer is at rest; a calibration has no more than its 50 ms to run, and without one no reading is
kept; a moving channel has its claim Held, one that brakes has it Held for the move that follows on or Idle, and one at
rest with nothing pending has it Idle. -/
def State.chanFits (s : State) (ch : Fin 2) : Prop :=
  let c := s.chan ch
  let claim := (s.claim (loadMotor ch)).st
  c.bridge = c.st.bridge ∧ (c.followOn ≠ .none → c.st = .braking)
    ∧ c.pending ≠ .backoff ∧ c.pending ≠ .settleFault
    ∧ (c.atRest = false ∨ c.pending ≠ .none → s.motionRuns = true)
    ∧ (c.st = .braking → c.pending = .none ∨ c.pending = .protective ∧ (c.followOn = .none ∨ c.followOn = .extend))
    ∧ (c.moving = true → c.pending = .none ∨ c.pending = .extend)
    ∧ (c.travel.isSome = true ↔ c.st = .extending ∨ c.st = .retracting)
    ∧ (c.backoff.isSome = true ↔ c.st = .backoff) ∧ (c.dwell.isSome = true ↔ c.st = .braking)
    ∧ (c.stall.isSome = true → c.moving = true) ∧ (c.calTimer.isSome = true → c.atRest = true ∧ c.idle = none)
    ∧ c.calTimer.getD 0 ≤ Config.calibrationMs ∧ (c.calTimer = none → c.calSum = 0)
    ∧ (c.idle.isSome = true → c.atRest = true ∧ c.pending = .none)
    ∧ (c.protective = true → c.st = .retracting)
    ∧ (c.moving = true ∨ c.followOn = .backoff → claim = .held)
    ∧ (c.st = .braking → claim = .idle ∨ c.followOn.isMove = true ∧ claim = .held)
    ∧ (c.atRest = true → c.pending = .none → claim = .idle)

def State.motionFits (s : State) : Prop := ∀ ch, s.chanFits ch

/-- The requests that wait on a channel or a group are none that the station has still to answer (R129, R153, R180). -/
def State.requestsFit (s : State) : Prop :=
  (∀ ch, (s.chan ch).req ≤ s.status.serial) ∧ ∀ g r, (s.group g).pending = some r → r.req ≤ s.status.serial

/-- The Light Controller (R32, R148 to R155): the ceiling is the one in force; levels and targets lie within 0 to 1000,
no target above the ceiling; the duty is the level's; a fading channel stands where its fade has brought it, any other at
its target; a lit channel, or one with a target, has its group's claim Held; a group that contests has its request
pending and is not in Storage; outside Run, and without the function, nothing is lit and nothing waits; a change of the
courtesy light waits only for a request pending in its group (R154, R159). -/
def State.lightsFit (s : State) : Prop :=
  s.lights.ceiling = s.ceilingNow
    ∧ (∀ ch, let l := s.light ch
        l.level ≤ 1000 ∧ l.start ≤ 1000 ∧ l.target ≤ s.lights.ceiling ∧ l.duty = dutyOf l.level
          ∧ (l.fading = false → l.level = l.target) ∧ (l.stepTimer.isSome = true ↔ l.fading = true)
          ∧ (l.fading = true → l.elapsed < Item.fadeMs s.seq.values ∧ l.level ≠ l.target
              ∧ (l.level : Int) = l.start + (((l.target : Int) - l.start) * l.elapsed).tdiv (Item.fadeMs s.seq.values))
          ∧ (0 < l.level ∨ 0 < l.target → (s.claim (loadLights (groupOf ch))).st = .held))
    ∧ (∀ g, let c := s.claim (loadLights g)
        (∀ r, (s.group g).pending = some r → ∀ k, r.want.get k ≤ 1000 ∧ r.trial.get k ≤ 1000)
          ∧ (c.contesting = true → (s.group g).pending.isSome = true ∧ s.seq.storage = false)
          ∧ ((s.group g).pending.isSome = true → c.st ≠ .idle))
    ∧ (s.inRun = true ∧ s.seq.fns.lights = true
        ∨ s.lights.due = .none ∧ s.lights.countdown = none ∧ s.lights.courtesy = false)
    ∧ (s.lights.due ≠ .none →
        ((Item.courtesy s.seq.values).any fun ch => (s.group (groupOf ch)).pending.isSome) = true)

/-- Every block is in order. -/
structure State.Fits (s : State) : Prop where
  sound : s.Sound
  values : s.valuesFit
  cell : s.cellMirrors
  supply : s.supplyFits
  claims : s.claimsServe
  view : s.viewFits
  water : s.waterFits
  climate : s.climateFits
  motion : s.motionFits
  requests : s.requestsFit
  lights : s.lightsFit

/-! ### Records that fit their layouts -/

/-- Every field fits the bits its layout gives it (R176, R177, R179, R181, notes/assumptions/3.md). -/
def Payload.fitsBits (subject : Nat) : Payload → Prop
  | .status0 f => subject = 0 ∧ f.phase < 4 ∧ f.request < 16 ∧ f.outcome < 16
  | .status1 f => subject = 1 ∧ f.overrun < 256 ∧ f.dropped < 256 ∧ f.foreign < 256 ∧ f.unknown < 256 ∧ f.tableError < 256
  | .status2 f => subject = 2 ∧ f.lateSetup < 256 ∧ f.summary.length = 19
  | .statusOther b => 3 ≤ subject ∧ b.length = 40
  | .supply f => f.soc < 1024 ∧ f.h < 32768 ∧ -128 ≤ f.tc ∧ f.tc < 128 ∧ f.trend < 4
  | .draw f => f.held < 32768 ∧ f.asked < 32768 ∧ f.rank < 8 ∧ f.state < 8
  | .shed f => f.level < 8 ∧ f.cause < 8
  | .tank f => f.level < 1024 ∧ -1024 ≤ f.temp ∧ f.temp < 1024 ∧ f.owed < 8
  | .climate f => -1024 ≤ f.temp ∧ f.temp < 1024 ∧ f.setpoint < 512 ∧ f.mode < 4 ∧ f.heater < 8 ∧ f.demand < 128
      ∧ f.frost < 4 ∧ f.pad < 4
  | .motion f => f.state < 16 ∧ f.position < 4 ∧ f.pending < 4
  | .interlock f => f.state < 16 ∧ f.move < 8
  | .light f => f.level < 1024 ∧ f.target < 1024 ∧ f.ceiling < 1024 ∧ f.result < 8 ∧ f.claim < 4
  | .request f => f.code < 16 ∧ f.index < 256 ∧ -32768 ≤ f.value ∧ f.value < 32768
  | .setup f => f.index < 64 ∧ f.value < 4294967296
  | .notice f => f.summary.length = 19 ∧ f.monitor < 32 ∧ f.count < 256
  | .unknown _ b => b.length = 40

def Record.fitsBits (r : Record) : Prop := r.subject < 16 ∧ r.payload.fitsBits r.subject

end Sys2Proof.Machine
end

