-- ==== Sys2Proof/Certificates/Slice0/Obligations.lean ====
section
/-! DEFINITION. The statements about the HN24, chapter by chapter. Where a statement's premise says that no change of
the Peer View is untold (`s.view.changes = []`) or that the state is sound, that is an invariant of every step
(`Obligations.SoundStep`, `Obligations.FitsAtReset`). `State.handedOver u t` says that `t` is `u` but for the Gatherer's
waiting records and buffers, the Dropped counter, the periods and ILOCK. An expiry, period or reading command is taken
whenever its timer runs, but where a statement says otherwise (DESIGN CHOICE, log entry 4). -/

open Sys2Proof Sys2Proof.Machine

/-! ### The machine -/

/-- A step executes the command at the front of the queue on the part with the queue's rest. -/
def Obligations.StepRunsFrontCommand : Prop :=
  ∀ (s : State) (c : Instr) (rest : List Instr), s.pending = c :: rest → step s = exec c (s.withPending rest)

/-- With no command waiting a step is a millisecond of the clock (DESIGN CHOICE, log entry 4), and this is all of it: the
queue stays empty, the clock counts, every running timer of every block counts down and a stopped one stays stopped, and a
Fresh or Aging entry's age counts up by one as far as its next threshold allows, while a Stale or Held entry's age stands
still (R59, R71). A channel that calibrates adds its sensed current, as the readings its mean is taken of (R137; DESIGN
CHOICE, log entry 79). Pins, status, cell and every other field stand. -/
def Obligations.IdleStepIsAMillisecond : Prop :=
  ∀ s : State, s.pending = [] → ∃ t, step s = .next t ∧
    let down : Timer → Timer := fun x => x.map (· - 1)
    t = { s with
        now := s.now + 1, seq := t.seq, bus := t.bus, view := t.view, broker := t.broker, supply := t.supply
        water := t.water, climate := t.climate, motion := t.motion, lights := t.lights, periods := t.periods }
      ∧ t.seq = { s.seq with phaseTimer := down s.seq.phaseTimer }
      ∧ t.bus = { s.bus with probeTimer := down s.bus.probeTimer, silenceTimer := down s.bus.silenceTimer }
      ∧ t.supply = { s.supply with intervalTimer := down s.supply.intervalTimer }
      ∧ t.water = { s.water with
          dueTimer := down s.water.dueTimer, circTimer := down s.water.circTimer
          runawayTimer := down s.water.runawayTimer, valveTimer := down s.water.valveTimer
          readTimer := down s.water.readTimer }
      ∧ t.climate = { s.climate with
          startTimer := down s.climate.startTimer, runTimer := down s.climate.runTimer
          purgeTimer := down s.climate.purgeTimer, readTimer := down s.climate.readTimer }
      ∧ t.broker = { s.broker with claims := t.broker.claims }
      ∧ (∀ id, t.claim id = { s.claim id with window := down (s.claim id).window })
      ∧ t.motion = { s.motion with
          chans := t.motion.chans, windWindow := down s.motion.windWindow, windLockout := down s.motion.windLockout }
      ∧ (∀ ch, t.chan ch = { s.chan ch with
          calTimer := down (s.chan ch).calTimer
          calSum := (s.chan ch).calSum + if (s.chan ch).calTimer.any (0 < ·) = true then s.pins.motor.get ch else 0
          travel := down (s.chan ch).travel, stall := down (s.chan ch).stall
          backoff := down (s.chan ch).backoff, dwell := down (s.chan ch).dwell, idle := down (s.chan ch).idle })
      ∧ t.lights = { s.lights with chans := t.lights.chans, countdown := down s.lights.countdown }
      ∧ (∀ ch, t.light ch = { s.light ch with stepTimer := down (s.light ch).stepTimer })
      ∧ t.periods.status = down s.periods.status ∧ t.periods.counters = down s.periods.counters
      ∧ t.periods.supply = down s.periods.supply ∧ t.periods.shed = down s.periods.shed
      ∧ (∀ id, t.periods.draw.get id = down (s.periods.draw.get id))
      ∧ (∀ k, t.periods.tank.get k = down (s.periods.tank.get k))
      ∧ (∀ z, t.periods.climate.get z = down (s.periods.climate.get z))
      ∧ (∀ ch, t.periods.motion.get ch = down (s.periods.motion.get ch)
          ∧ t.periods.interlock.get ch = down (s.periods.interlock.get ch))
      ∧ (∀ ch, t.periods.light.get ch = down (s.periods.light.get ch))
      ∧ t.view = { s.view with
          sets := t.view.sets, holdTimer := down s.view.holdTimer, overflowTimer := down s.view.overflowTimer
          driveSetWait := down s.view.driveSetWait, driveClearWait := down s.view.driveClearWait }
      ∧ ∀ i, (t.view.sets.get i).b0 = (s.view.sets.get i).b0 ∧ (t.view.sets.get i).b1 = (s.view.sets.get i).b1
        ∧ (t.view.sets.get i).b2 = (s.view.sets.get i).b2
        ∧ ∀ w, let e := (s.view.sets.get i).ways.get w
            let f := (t.view.sets.get i).ways.get w
            f.valid = e.valid ∧ f.key = e.key ∧ f.payload = e.payload ∧ f.fresh = e.fresh ∧ f.drive = e.drive
              ∧ f.clear = e.clear
              ∧ (e.valid = true → e.fresh = .fresh → e.age + 1 < agingAt e.kind → f.age = e.age + 1)
              ∧ (e.valid = true → e.fresh = .aging → e.age + 1 < staleAt e.kind → f.age = e.age + 1)
              ∧ (e.fresh = .stale ∨ e.fresh = .held → f.age = e.age)

/-- Every command answers a next state from every state, and takes nothing from and adds nothing to the queue. -/
def Obligations.EveryCommandCompletes : Prop :=
  ∀ (c : Instr) (s : State), ∃ t, exec c s = .next t ∧ t.pending = s.pending

/-- The invariant of every step: the entries' checks agree, the Gatherer, its buffers and the Receive Queue hold no more
than their places and never two waiting records of one kind and subject, every claim's fields agree with its state, the
counters stop at 255, no channel is Extending while drive is accepted or outside Run, and ILOCK agrees with the
violations (R31, R58, R139, R141, R163, R169, R171). -/
def Obligations.SoundStep : Prop := ∀ s t : State, s.Sound → step s = .next t → t.Sound

/-- The state after reset is in order, block by block. -/
def Obligations.FitsAtReset : Prop := State.reset.Fits

/-- Every step from a state in order keeps the setup values within their ranges and ascending (R185, R186), the gather
timeout in force within 10 to 250 ms (R172), the Retained Cell equal to what its owners hold (R183), and the Supply
Monitor's counter, remainder, level and figures within their bounds (R7, R11, R12, R22). -/
def Obligations.StepKeepsValuesCellAndSupply : Prop :=
  ∀ s t : State, s.Fits → step s = .next t → t.valuesFit ∧ t.cellMirrors ∧ t.supplyFits

/-- Every step from a state in order keeps the Peer View's: each valid entry in its key's set, one entry a key, only
stored kinds from other stations, pinned ways for critical kinds, each age within its freshness (R57 to R59, R63, R64). -/
def Obligations.StepKeepsView : Prop := ∀ s t : State, s.Fits → step s = .next t → t.viewFits

/-- Every step from a state in order keeps the Water Manager's and the Climate Controller's: the pump, the heater and the
pad run only on their claims, each timer in its own state, what is owed at most 4, each zone's demand at most 100 and HDEM 0
with HEN off (R32, R81 to R120); frost service is what the mode in force and the frost-demand flags give (R110), and the
heater Tries at rank 1 alone (R111). -/
def Obligations.StepKeepsHeatAndWater : Prop := ∀ s t : State, s.Fits → step s = .next t → t.waterFits ∧ t.climateFits

/-- Every step from a state in order keeps the Motion Controller's: the bridge is its state's, each timer runs in its own
states, a moving channel has its claim Held and one at rest with nothing pending has it Idle; and a request that waits is
no later than the last one answered (R124 to R142, R180). -/
def Obligations.StepKeepsMotion : Prop := ∀ s t : State, s.Fits → step s = .next t → t.motionFits ∧ t.requestsFit

/-- Every step from a state in order keeps the Light Controller's and the claims': levels and targets within the ceiling,
duties their levels', fades where their elapsed time has brought them, lit groups on Held claims; each claim at a rank of
its load, Idle outside Run, and none Held or contesting at a rank that yields to the level in force (R30 to R51, R148 to
R155). -/
def Obligations.StepKeepsLightsAndClaims : Prop :=
  ∀ s t : State, s.Fits → step s = .next t → t.lightsFit ∧ t.claimsServe

/-- After every step from a state in order no load draws without its claim (R32): the heater input and the pad are on, a
bridge drives, and a light has duty only in Run with that load's claim Held; the pump runs only with its claim Held or
Forced; no channel is Extending while drive is accepted (R139); and no light's target is above the ceiling (R155). -/
def Obligations.NoLoadDrawsWithoutItsClaim : Prop :=
  ∀ s t : State, s.Fits → step s = .next t →
    (t.climate.hen = true → t.seq.phase = .run ∧ (t.claim loadHeater).st = .held)
      ∧ (t.climate.pad = true → t.seq.phase = .run ∧ (t.claim loadPad).st = .held)
      ∧ (t.water.pump = true → t.seq.phase = .run ∧ ((t.claim loadPump).st = .held ∨ (t.claim loadPump).st = .forced))
      ∧ (∀ ch, (t.chan ch).bridge = .extend ∨ (t.chan ch).bridge = .retract →
          t.seq.phase = .run ∧ (t.claim (loadMotor ch)).st = .held)
      ∧ (∀ ch, 0 < (t.light ch).duty → t.seq.phase = .run ∧ (t.claim (loadLights (groupOf ch))).st = .held)
      ∧ (∀ ch, (t.chan ch).st = .extending → t.view.driveAccepted = false)
      ∧ ∀ ch, (t.light ch).target ≤ (if t.seq.storage = true then 0 else if t.broker.level = 0 then 1000
          else if t.broker.level = 1 then 250 else 0)

/-! ### Resets, phases and setup (R183 to R186) -/

/-- Right after a Connect reset the station listens for 2 s with a silence timer of 3 s; every claim is Idle, the Peer
View, the Receive Queue and the Gatherer hold nothing, no monitor is declared, every counter is 0, every output is off,
Q is half of Qfull for the default 100 Ah and Anchored is No (R27, R31, R79, R161, R168, R173, R181, R184). The values in
force, and the cell's, are the defaults: each item's of the table of R185 with the open-circuit points of R6, both
setpoints at 18.0 °C, the mode Comfort, Lockout clear and every scene dark (R122, R161, R183). The straps'
reading, station 1 with every function, is the model's choice (log entry 2). -/
def Obligations.AfterReset : Prop :=
  let s := State.reset
  s.seq.phase = .listen ∧ s.seq.phaseTimer = some 2000 ∧ s.seq.storage = false ∧ s.bus.silenceTimer = some 3000
    ∧ (∀ id, (s.claim id).st = .idle ∧ (s.claim id).held = 0) ∧ s.entries = [] ∧ s.view.driveAccepted = false
    ∧ s.bus.rx = [] ∧ s.bus.periodic = [] ∧ s.bus.urgent = [] ∧ s.bus.urgentBuf = none ∧ s.bus.normalBuf = none
    ∧ s.bus.lineFault = false ∧ s.bus.busSilent = false ∧ (∀ n, s.status.summary.get n = false)
    ∧ s.status.attention = false ∧ s.shows 0 0 ∧ s.bus.overrun = 0 ∧ s.bus.dropped = 0 ∧ s.bus.unknown = 0
    ∧ s.view.foreign = 0 ∧ s.view.tableError = 0 ∧ s.seq.lateSetup = 0 ∧ s.status.changeCount = 0 ∧ s.outputsOff
    ∧ s.supply.q = 100 * 3600000 / 2 ∧ s.supply.r = 0 ∧ s.supply.anchored = false ∧ s.lights.ceiling = 1000
    ∧ s.cell = Cell.default ∧ s.seq.values = defaultValues
    ∧ s.seq.values.items =
      [100, 1, 95, 200, 10000, 500, 11600, 14200, 200, 50]
        ++ [(12000, 0), (12800, 100), (13000, 200), (13100, 400), (13200, 600), (13300, 800), (13400, 950),
          (13600, 1000)].map (fun p => 2 ^ 16 * p.1 + p.2)
        ++ [2, 0, 2 ^ 8 - 1, 20] ++ List.replicate 3 (2 ^ 16 * 0 + 4095)
        ++ [500, 1000, 150, 0, 400, 800, 1200, 15, 40, 1500, 1500, 0, 20, 800] ++ List.replicate 8 100 ++ [8, 50]
    ∧ s.cell.values = s.seq.values ∧ s.cell.q = 100 * 3600000 / 2 ∧ s.cell.r = 0 ∧ s.cell.anchored = false
    ∧ s.cell.capKept = 100 ∧ s.cell.good = true ∧ s.bus.gatherMs = 50
    ∧ (∀ z, s.cell.setpoints.get z = 180 ∧ (s.climate.zones.get z).setpoint = 180)
    ∧ s.cell.chosen = .comfort ∧ s.climate.chosen = .comfort ∧ s.cell.lockout = false ∧ s.climate.lockout = false
    ∧ ∀ n ch, (s.cell.scenes.get n).get ch = 0 ∧ (s.lights.scenes.get n).get ch = 0

/-- A reset, taken in any state (R28, R102, R122, R146, R161, R183): every output goes off, the bus, the view, the claims, the
status and the periods start afresh, the phase is that of the reset, and so does every block: the Supply Monitor at level 0
with no marker, no count and no figures; every tank Unknown, the guard clear, the cycle Off with nothing owed and the dump
command taken from the feedback; the heater Off, in Lockout where the cell keeps one, with no failure and no timer running;
each channel where its stops put it, with nothing pending; every light dark. Counter, remainder, Anchored, setpoints, chosen
mode, Lockout and scenes are the cell's. A Connect reset gives the cell its defaults and reads the straps, at the command
that begins it (DEDUCED, log entry 9); a Restart keeps the cell's items, its check spoilt where the cell did not survive
(log entry 25). The tank and zone temperatures and the zone demands, to which the spec gives no value before the first
reading, are 0 (DESIGN CHOICE, log entry 26). -/
def Obligations.ResetsStartAfresh : Prop :=
  ∀ (p : Straps) (intact : Bool) (s : State),
    let supply := fun (c : Cell) (t : State) => let m := t.supply
      m.q = c.q ∧ m.r = c.r ∧ m.capKept = c.capKept ∧ m.anchored = c.anchored ∧ m.full = false ∧ m.empty = false
        ∧ m.level = 0 ∧ m.latest = none ∧ m.intervalTimer = none ∧ m.permit = true ∧ m.lowVoltage = false
        ∧ m.overdraw = false ∧ m.overrange = false ∧ m.roleClash = false ∧ m.onNext = false
        ∧ [m.fullCount, m.restCount, m.overrangeCount, m.lowVoltageCount, m.overdrawCount, m.permitCount, m.escalation,
          m.recovery] = [0, 0, 0, 0, 0, 0, 0, 0]
    let water := fun t : State => let m := t.water
      (∀ k, (m.tanks.get k).level = none ∧ (m.tanks.get k).prev = none ∧ (m.tanks.get k).temp = 0
          ∧ (m.tanks.get k).declared = false ∧ (m.tanks.get k).count = 0)
        ∧ m.guard = false ∧ m.guardCount = 0 ∧ m.cycle = .off ∧ m.owed = 0 ∧ m.demand = false ∧ m.dueOnRun = false
        ∧ m.runaway = false ∧ m.dumpCount = 0 ∧ m.dumpCmdOpen = s.pins.dumpOpen ∧ m.valveFault = false
        ∧ [m.dueTimer, m.circTimer, m.runawayTimer, m.valveTimer, m.readTimer] = [none, none, none, none, none]
    let climate := fun (c : Cell) (t : State) => let m := t.climate
      (∀ z, m.zones.get z = { temp := 0, setpoint := c.setpoints.get z, demand := 0 })
        ∧ m.chosen = c.chosen ∧ m.lockout = c.lockout ∧ m.heater = (if c.lockout = true then .lockout else .off)
        ∧ m.call = false ∧ m.callCount = 0 ∧ m.frost = false ∧ m.failures = 0 ∧ m.remembered = false ∧ m.padWanted = false
        ∧ [m.startTimer, m.runTimer, m.purgeTimer, m.readTimer] = [none, none, none, none]
    let motion := fun t : State => let m := t.motion
      (∀ ch, (t.chan ch).st = (if s.pins.er.get ch = s.pins.ee.get ch then .unknown
            else if s.pins.er.get ch = true then .retracted else .extended)
          ∧ (t.chan ch).pending = .none ∧ (t.chan ch).followOn = .none ∧ (t.chan ch).offset = 0 ∧ (t.chan ch).calSum = 0
          ∧ (t.chan ch).travelFault = false ∧ (t.chan ch).stalled = false
          ∧ [(t.chan ch).calTimer, (t.chan ch).travel, (t.chan ch).stall, (t.chan ch).backoff, (t.chan ch).dwell,
            (t.chan ch).idle] = [none, none, none, none, none, none])
        ∧ m.windPulses = 0 ∧ m.windyCount = 0 ∧ m.windWindow = none ∧ m.windLockout = none ∧ m.windDeclared = false
    let lights := fun (c : Cell) (t : State) => let m := t.lights
      (∀ ch, let l := t.light ch
          l.level = 0 ∧ l.target = 0 ∧ l.fading = false ∧ l.stepTimer = none ∧ l.duty = 0)
        ∧ (∀ g, t.group g = { pending := none, result := .none })
        ∧ m.ceiling = 1000 ∧ m.scenes = c.scenes ∧ m.courtesy = false ∧ m.call = false ∧ m.countdown = none ∧ m.due = .none
    let afresh := fun (c : Cell) (t : State) => t.seq.phase = .reset ∧ t.seq.storage = false ∧ t.seq.lateSetup = 0
      ∧ t.seq.defaultsUsed = false ∧ t.seq.clamped = false ∧ t.seq.tookItem = false
      ∧ (∀ i, t.seq.pendingItems.get i = none) ∧ t.outputsOff ∧ t.broker = Broker.reset ∧ t.view = View.reset
      ∧ t.status = Status.reset ∧ t.bus = Bus.reset ∧ t.periods = Periods.reset ∧ t.now = s.now
      ∧ t.cell = c ∧ t.seq.values = c.values ∧ supply c t ∧ water t ∧ climate c t ∧ motion t ∧ lights c t;
    (∃ t, exec (.connectReset p) s = .next t ∧ afresh Cell.default t ∧ t.seq.isRestart = false
        ∧ t.seq.station = p.st + 1 ∧ t.seq.fns = p.fs ∧ t.pins = { s.pins with straps := p })
      ∧ ∃ t, exec (.restart intact) s = .next t ∧ afresh { s.cell with good := s.cell.good && intact } t
        ∧ t.seq.isRestart = true ∧ t.pins = s.pins

/-- The end of a reset: the straps are read, a Restart's cell that fails its check takes a Connect reset's values, and
Listen begins with its 2 s timer and the silence timer of 3 s; a Lockout the cell keeps is declared from the start, on a
station with the heater function (R115, R122, R168, R181, R183, R184); without the function none is (DEDUCED, log entry 51).
Out of reset the command finds no reset to end and leaves the part as it is (DESIGN CHOICE, log entry 8). -/
def Obligations.ResetReleasedBeginsListen : Prop :=
  ∀ (p : Straps) (s : State), s.view.changes = [] →
    (s.inReset = true → ∃ t, exec (.resetReleased p) s = .next t
      ∧ let c := if s.seq.isRestart = true ∧ s.cell.good = false then Cell.default else s.cell
        t.seq.phase = .listen ∧ t.seq.phaseTimer = some 2000 ∧ t.seq.station = p.st + 1 ∧ t.seq.fns = p.fs
          ∧ t.pins = { s.pins with straps := p } ∧ t.bus.silenceTimer = some 3000 ∧ t.cell = c ∧ t.seq.values = c.values
          ∧ t.supply.q = c.q ∧ t.supply.r = c.r ∧ t.supply.anchored = c.anchored ∧ t.lights.scenes = c.scenes
          ∧ (∀ z, (t.climate.zones.get z).setpoint = c.setpoints.get z) ∧ t.climate.chosen = c.chosen
          ∧ t.climate.lockout = c.lockout ∧ t.outputsOff ∧ (∀ id, (t.claim id).st = .idle) ∧ t.entries = []
          ∧ t.status.changeCount = (if p.fs.heat = true ∧ c.lockout = true then 1 else 0)
          ∧ (∀ n, t.status.summary.get n = (decide (n = Mon.lockout) && p.fs.heat && c.lockout)))
    ∧ (s.inReset = false → ∃ t, exec (.resetReleased p) s = .next t ∧ s.handedOver t)

/-- The Listen timer expires: Setup begins with its 5 s timer, and all three subjects of STATUS are handed over, their
figures those of the state reached; three free slots keep any of them from being discarded (R171, R178, R184). -/
def Obligations.ListenEndsInSetup : Prop :=
  ∀ s : State, s.quiet → s.seq.phase = .listen → s.seq.phaseTimer.isSome = true → s.bus.periodic.length ≤ 5 →
    ∃ t, exec .listenTimerExpiry s = .next t
      ∧ (s.setSeq { s.seq with phase := .setup, phaseTimer := some 5000 }).handedOver t
      ∧ t.bus.carries (status0Record t) ∧ t.bus.carries (status1Record t) ∧ t.bus.carries (status2Record t)
      ∧ t.periods.counters = some 5000

/-- A SETUP that is let in and addressed to this station, by its index and the phase (R185): outside Setup Late Setup
counts; in Setup an index from 49 to 62 sets Clamped; an item's value is clamped and held as pending, and Clamped is set
when clamping changes it. A SETUP for another station changes nothing. That the 32-bit value is unsigned is the model's choice
(DESIGN CHOICE, log entry 93). -/
def Obligations.SetupRecordTaken : Prop :=
  ∀ (s : State) (n k i v : Nat), s.view.changes = [] →
    s.brings n { subject := k, payload := .setup { index := i, value := v } } → i ≤ 63 →
      (s.seq.phase = .setup → i = 63 → k ≠ 0 ∧ k ≠ s.seq.station) →
      ∃ t, exec .setup s = .next t ∧
        (if k ≠ 0 ∧ k ≠ s.seq.station then s.taken.handedOver t
        else if s.seq.phase ≠ .setup then
          (s.taken.setSeq { s.seq with lateSetup := min (s.seq.lateSetup + 1) 255 }).handedOver t
        else if h : i < 49 then
          (s.taken.setSeq { s.seq with
            pendingItems := s.seq.pendingItems.set ⟨i, h⟩ (some (clampItem i v)), tookItem := true,
            clamped := s.seq.clamped || decide (clampItem i v ≠ v) }).handedOver t
        else (s.taken.setSeq { s.seq with clamped := true }).handedOver t)

/-- What an item takes for a value received, by the table of R185: a plain item the value itself when it lies in the item's
range and on its step, the upper bound for a value above it, the lower bound for one below it; an open-circuit point and a
tank calibration each part to its upper bound; the roster list its low 8 bits. Item 27's upper bound comes at the end of
Setup. That the value and its 16-bit parts are unsigned, so that one with its top bit set comes to the upper bound, is the
model's choice (DESIGN CHOICE, log entry 93). -/
def Obligations.SetupValuesAreClamped : Prop :=
  ∀ i v : Nat, i < 49 → v < 4294967296 →
    (10 ≤ i ∧ i ≤ 17 → clampItem i v = min 20000 (v / 65536) * 65536 + min 1000 (v % 65536))
    ∧ (22 ≤ i ∧ i ≤ 24 → clampItem i v = min 4095 (v / 65536) * 65536 + min 4095 (v % 65536))
    ∧ (i = 20 → clampItem i v = v % 256)
    ∧ ∀ lo hi step : Nat, (i, lo, hi, step) ∈
        [(0, 20, 600, 1), (1, 0, 1, 1), (2, 80, 100, 1), (3, 100, 500, 1), (4, 1000, 30000, 1), (5, 0, 5000, 1),
          (6, 10000, 12800, 1), (7, 13000, 15000, 1), (8, 50, 1000, 1), (9, 30, 150, 1), (18, 0, 3, 1), (19, 0, 1, 1),
          (21, 10, 60, 1), (25, 1, 30000, 1), (26, 1, 30000, 1), (27, 1, 4294967295, 1), (28, 0, 1, 1),
          (29, 1, 30000, 1), (30, 1, 30000, 1), (31, 1, 30000, 1), (32, 2, 60, 1), (33, 2, 60, 1),
          (34, 100, 30000, 1), (35, 100, 30000, 1), (36, 0, 1, 1), (37, 1, 255, 1), (38, 0, 5000, 100),
          (39, 1, 30000, 1), (40, 1, 30000, 1), (41, 1, 30000, 1), (42, 1, 30000, 1), (43, 1, 30000, 1),
          (44, 1, 30000, 1), (45, 1, 30000, 1), (46, 1, 30000, 1), (47, 0, 8, 1), (48, 10, 250, 10)] →
      lo ≤ clampItem i v ∧ clampItem i v ≤ hi ∧ clampItem i v % step = 0
        ∧ (hi < v → clampItem i v = hi) ∧ (v < lo → clampItem i v = lo)
        ∧ (lo ≤ v → v ≤ hi → clampItem i v ≤ v ∧ v < clampItem i v + step)

/-- Setup ends, by its timer or by a SETUP End (R6, R29, R172, R184, R186): every item takes its pending value or
keeps its own; item 27 comes down to the start draw; the eight open-circuit points take their defaults unless their
voltages strictly ascend, on every station (DEDUCED, log entry 65); the counter starts at half of Qfull when the
capacity is not the one it was kept for, on a supply station and on no other (DEDUCED, log entry 31); the gather
timeout follows item 48; the cell is written; Defaults used and Clamped are set; and Calibrate begins with its 3 s
timer and the first interval. What the Peer View gives up to the roster and the pinned ways then in force (R75) is in
CalibrateStartsTheReadings. -/
def Obligations.SetupEndsInCalibrate : Prop :=
  ∀ (c : Instr) (s : State), s.Sound → s.seq.phase = .setup →
    (c = .setupTimerExpiry ∧ s.seq.phaseTimer.isSome = true ∨ c = .setupEnd ∧ ∃ n k v,
      s.brings n { subject := k, payload := .setup { index := 63, value := v } } ∧ (k = 0 ∨ k = s.seq.station)) →
    ∃ t, exec c s = .next t
      ∧ let m := fun i => (s.seq.pendingItems.get i).getD (s.seq.values.get i)
        let ascends := m 10 / 65536 < m 11 / 65536 ∧ m 11 / 65536 < m 12 / 65536 ∧ m 12 / 65536 < m 13 / 65536
          ∧ m 13 / 65536 < m 14 / 65536 ∧ m 14 / 65536 < m 15 / 65536 ∧ m 15 / 65536 < m 16 / 65536
          ∧ m 16 / 65536 < m 17 / 65536
        let v := t.seq.values
        t.seq.phase = .calibrate ∧ t.seq.phaseTimer = some 3000
          ∧ (∀ i : Fin 49, i ≠ 27 → (i.val < 10 ∨ 17 < i.val ∨ ascends) → v.get i = m i)
          ∧ v.get 27 = min (m 27) (m 26)
          ∧ (∀ i : Fin 49, 10 ≤ i.val → i.val ≤ 17 → ¬ ascends → v.get i = defaultValues.get i)
          ∧ t.seq.defaultsUsed = (s.seq.defaultsUsed || !s.seq.tookItem)
          ∧ t.seq.clamped = (s.seq.clamped || decide (m 26 < m 27) || decide (¬ ascends))
          ∧ t.seq.station = s.seq.station ∧ t.seq.fns = s.seq.fns
          ∧ t.bus.gatherMs = v.get 48
          ∧ t.cell.values = v ∧ t.cell.q = t.supply.q ∧ t.cell.r = t.supply.r ∧ t.cell.anchored = t.supply.anchored
          ∧ t.cell.capKept = t.supply.capKept
          ∧ (s.seq.fns.supply = true → t.supply.capKept = v.get 0 ∧ t.supply.intervalTimer = some 0)
          ∧ (s.seq.fns.supply = true → s.supply.capKept ≠ v.get 0 →
              t.supply.q = v.get 0 * 3600000 / 2 ∧ t.supply.r = 0 ∧ t.supply.anchored = false)
          ∧ ((s.seq.fns.supply = true → s.supply.capKept = v.get 0) →
              t.supply.q = s.supply.q ∧ t.supply.r = s.supply.r ∧ t.supply.anchored = s.supply.anchored)

/-- The end of Setup, by its timer or by a SETUP End, in a state that fits (R75, R137, R178, R184). With the values
taken in force the Peer View is brought into line: with a Closed roster every entry of a station not listed is
invalidated, and so is every entry of a non-critical kind in a way now pinned; every other way, the replacement bits,
View Overflow and Table Error stand. Both motion channels calibrate for 50 ms, and the water and climate reading
timers and the first interval start at once; no claim is asked, no channel moves, every output is off, and STATUS
subject 0 goes out. -/
def Obligations.CalibrateStartsTheReadings : Prop :=
  ∀ (c : Instr) (s : State), s.Fits → s.seq.phase = .setup →
    (c = .setupTimerExpiry ∧ s.seq.phaseTimer.isSome = true ∨ c = .setupEnd ∧ ∃ n k v,
      s.brings n { subject := k, payload := .setup { index := 63, value := v } } ∧ (k = 0 ∨ k = s.seq.station)) →
    ∃ t, exec c s = .next t ∧
      let v := t.seq.values;
      (∀ i, (t.view.sets.get i).b0 = (s.view.sets.get i).b0 ∧ (t.view.sets.get i).b1 = (s.view.sets.get i).b1
          ∧ (t.view.sets.get i).b2 = (s.view.sets.get i).b2 ∧ ∀ w, let e := (s.view.sets.get i).ways.get w;
            let g := (t.view.sets.get i).ways.get w;
            if e.valid = true ∧ (v.get 19 = 1 ∧ (v.get 20).testBit (e.station - 1) = false
                ∨ e.kind.critical = false ∧ w.val < v.get 18) then g.valid = false else g = e)
        ∧ t.view.overflow = s.view.overflow ∧ t.view.overflowTimer = s.view.overflowTimer
        ∧ t.view.tableError = s.view.tableError ∧ t.view.foreign = s.view.foreign ∧ t.view.localDrive = s.view.localDrive
        ∧ t.seq.phase = .calibrate ∧ t.seq.phaseTimer = some 3000 ∧ t.pins = s.pins
        ∧ (s.seq.fns.motion = true → ∀ ch, t.chan ch = { s.chan ch with calTimer := some 50, calSum := 0, idle := none })
        ∧ (s.seq.fns.water = true → t.water = { s.water with readTimer := some 0 })
        ∧ (s.seq.fns.heat = true → t.climate.readTimer = some 0)
        ∧ (s.seq.fns.supply = true → t.supply.intervalTimer = some 0)
        ∧ (∀ id, (t.claim id).st = .idle) ∧ (s.outputsOff → t.outputsOff)
        ∧ (s.bus.periodic.length ≤ 7 → t.bus.carries (status0Record t))

/-- The end of Calibrate, in a state that fits (R24, R26, R86, R91, R92, R101, R102, R110, R111, R119, R138, R145,
R155, R159, R160, R178, R184). The station is in Run, and each block fitted takes its actions, water before heater,
pad, motion and lights (DESIGN CHOICE, log entry 6), so that the pump's pre-test is worked on the state before any of
them. DUMP is driven toward the dump command, also where the valve already stands there (DESIGN CHOICE, log entry 48).
A frost cycle that fell due before Run is taken, ahead of the tap's demand (DESIGN CHOICE, log entry 77): put off with
the fresh level low, tried at rank 1, postponed where the pre-test fails; else the pump is asked for at rank 5 on tap
demand. Frost service, the heater's ask and the pad's
follow their inputs. A channel that needs protection retracts at once unless it is retracted, calibrates or is held;
any other is as it was. The ceiling is the level's, and the courtesy call follows the step. Each period runs afresh,
and the first records go to the Gatherer, where its eight slots are too few in the order of handover, by which the
LIGHT records of channels 3 and up stay (DESIGN CHOICE, log entry 5). -/
def Obligations.CalibrateEndsInRun : Prop :=
  ∀ (s : State), s.Fits → s.seq.phase = .calibrate → s.seq.phaseTimer.isSome = true →
    ∃ t, exec .calibrateTimerExpiry s = .next t ∧
      let v := s.seq.values;
      let pump := t.claim loadPump;
      let heat := t.claim loadHeater;
      let pad := t.claim loadPad;
      let fresh := (s.water.tanks.get 0).level.any fun l => decide (30 ≤ l);
      let closed := s.water.dumpCmdOpen = false ∧ s.pins.dumpOpen = false;
      let first := s.water.cycle = .timing ∧ s.water.dueOnRun = true;
      let wants := s.pins.pdem = true ∧ s.water.runaway = false ∧ fresh = true ∧ closed;
      let asks := fun (c : Claim) (rank a : Nat) =>
        decide ((c.st = .contest ∨ c.st = .waiting) ∧ c.rank = rank ∧ c.asked = a);
      t.seq = { s.seq with phase := .run, phaseTimer := none } ∧ t.pins = s.pins ∧ t.supply = s.supply ∧ t.view = s.view
        ∧ (s.seq.fns.water = true → s.water.owed < 4 →
            t.water.dumpDrive = (if t.water.dumpCmdOpen = true then .toOpen else .toClosed)
              ∧ t.water.dumpCmdOpen = s.water.dumpCmdOpen ∧ t.water.pump = false ∧ t.water.guard = s.water.guard
              ∧ (first → fresh = false → t.water.cycle = .timing ∧ t.water.dueTimer = some (v.get 21 * 60000)
                  ∧ t.water.owed = s.water.owed ∧ pump.st = .idle)
              ∧ (first → fresh = true → s.passes loadPump 1 (v.get 25) = true →
                  t.water.cycle = .asking ∧ asks pump 1 (v.get 25) = true ∧ pump.single = true)
              ∧ (first → fresh = true → s.passes loadPump 1 (v.get 25) = false →
                  t.water.cycle = .timing ∧ t.water.dueTimer = some (v.get 21 * 60000) ∧ t.water.owed = s.water.owed + 1)
              ∧ (¬ first → t.water.cycle = s.water.cycle ∧ t.water.owed = s.water.owed)
              ∧ (t.water.cycle ≠ .asking → if wants then asks pump 5 (v.get 25) = true ∧ pump.single = false
                  else pump.st = .idle))
        ∧ (s.seq.fns.heat = true → t.climate.heater = s.climate.heater ∧ t.climate.call = s.climate.call
            ∧ t.climate.frost = (decide (s.seq.storage = true ∨ s.climate.chosen ≠ .off)
                && ((s.seq.fns.water && t.water.demand) || s.entries.any Entry.showsFrostDemand))
            ∧ (s.climate.heater = .off →
                if (t.climate.call = true ∨ t.climate.frost = true) ∧ s.climate.lockout = false then
                  asks heat (if t.climate.frost = true then 1 else 4) (v.get 26) = true else heat.st = .idle)
            ∧ (v.get 28 = 1 → t.climate.padWanted = ((s.usable.any fun u => u.withdrawn && decide (u.tc < 5))
                  && (s.pins.eng || s.pins.chgav || s.entries.any Entry.showsCharge))
                ∧ (if t.climate.padWanted = true then asks pad 2 (v.get 29) = true else pad.st = .idle)))
        ∧ (s.seq.fns.motion = true → ∀ ch, let c := s.chan ch;
            let need := s.view.driveAccepted = true ∨ ch = 1 ∧ s.motion.windLockout.isSome = true;
            let home := c.st = .retracted ∨ c.st = .unknown ∧ s.pins.er.get ch = true;
            (¬ need ∨ home → t.chan ch = c ∧ (t.claim (loadMotor ch)).st = .idle)
              ∧ (need → ¬ home → c.calTimer.isSome = true ∨ s.pins.hold = true →
                  t.chan ch = { c with pending := .protective, req := 0, idle := none })
              ∧ (need → ¬ home → c.calTimer = none → s.pins.hold = false → s.pins.er.get ch = false →
                  (t.chan ch).st = .retracting ∧ (t.chan ch).bridge = .retract ∧ (t.chan ch).protective = true
                    ∧ (t.claim (loadMotor ch)).st = .held ∧ (t.claim (loadMotor ch)).rank = 0))
        ∧ t.lights.ceiling = (if s.seq.storage = true then 0 else if s.broker.level = 0 then 1000
            else if s.broker.level = 1 then 250 else 0)
        ∧ (s.seq.fns.lights = true → v.get 47 < 8 → s.lights.call = false →
            t.lights.call = t.stepOut.isSome ∧ t.lights.courtesy = t.lights.call)
        ∧ t.periods.status = some (if s.seq.storage = true then 5000 else 1000)
        ∧ (s.seq.fns.supply = true → ∀ f, s.supply.latest = some f →
            t.periods.supply = some (if s.seq.storage = true then 2500 else 500)
              ∧ (0 < s.supply.level → 0 < f.level → t.periods.shed = some 200))
        ∧ (s.seq.fns.water = true → ∀ k, t.periods.tank.get k = some 5000)
        ∧ (s.seq.fns.heat = true → ∀ z, t.periods.climate.get z = some 5000)
        ∧ (s.seq.fns.motion = true → ∀ ch, (t.periods.motion.get ch).isSome = true
            ∧ (s.view.driveAccepted = true → (t.chan ch).st ≠ .retracted → t.periods.interlock.get ch = some 200))
        ∧ (s.seq.fns.lights = true → ∀ ch, t.periods.light.get ch = some 5000)
        ∧ (s.bus.periodic = [] → s.bus.urgent = [] → s.bus.urgentBuf = none → s.bus.normalBuf = none →
            s.bus.lineFault = false → (∀ id, (t.claim id).st = .idle) → s.view.driveAccepted = false →
            s.motion.windLockout = none →
            t.bus.carries (status0Record t)
              ∧ (s.seq.fns.supply = true → ∀ f, s.supply.latest = some f → t.bus.carries f.supplyRecord
                  ∧ (0 < s.supply.level → t.bus.carries f.shedRecord))
              ∧ (s.seq.fns.motion = true → ∀ ch, t.bus.carries (motionRecord t ch))
              ∧ (s.seq.fns.lights = false → (s.seq.fns.water = true → ∀ k, t.bus.carries (tankRecord t k))
                  ∧ (s.seq.fns.heat = true → ∀ z, t.bus.carries (climateRecord t z)))
              ∧ (s.seq.fns.lights = true → s.seq.fns.water = false → s.seq.fns.heat = false →
                  ∀ ch : Fin 8, 3 ≤ ch.val → t.bus.carries (lightRecord t ch)))
        ∧ (s.bus.lineFault = false → s.bus.periodic = [] → ∀ id, (t.claim id).contesting = true →
            t.bus.carries { subject := id.val, payload := .draw (drawOf (t.claim id)) })

/-! ### Station Status, Storage and the periods (R178 to R182, R187) -/

/-- A change of a monitor (R181, R182): its place in the summary follows it, the change count grows by one up to 255,
STATUS subject 2 falls due, the attention flag is set by a declaration of its class in Run, and a NOTICE with the new
summary is handed over in Run and in no earlier phase. On entry into Run the monitors declared before have their NOTICEs of
declaration, handed over in monitor-number order with the summary and the change count as they stand, which they leave as
they are, and set the flag for the class; the Gatherer then holds the NOTICE of the last of them. So it is at the command that
ends Calibrate, in a state that fits (R184): the flag is set exactly where it stood or a monitor of its class was declared,
no monitor is declared anew, and, with no channel's fault and no valve fault to clear, the summary and the count stand, and
the Gatherer, where nothing asks or moves and its slots are not filled, holds that last NOTICE after the command. -/
def Obligations.MonitorChange : Prop :=
  ∀ (s : State) (n : Fin 19) (d : Bool), let t := s.monitor n d
    (∀ k, t.status.summary.get k = if k = n then d else s.status.summary.get k)
      ∧ t.status.changeCount = min (s.status.changeCount + 1) 255 ∧ t.due = { s.due with status2 := true }
      ∧ t.status.attention = (s.status.attention
          || (d && decide (n.val ∈ [1, 2, 3, 9, 10, 11, 12, 13, 16, 17]) && decide (s.seq.phase = .run)))
      ∧ (s.seq.phase ≠ .run → t.bus = s.bus)
      ∧ (s.seq.phase = .run → s.bus.periodic.length ≤ 7 → t.bus.carries (Record.mk 0 (.notice
          { summary := t.status.summary.items, monitor := n.val, declared := d, count := t.status.changeCount })))
      ∧ t.status.lastRequest = s.status.lastRequest ∧ t.status.outcome = s.status.outcome
      ∧ (s.seq.phase = .run → let u := s.runEntryNotices
          let notice := fun k : Fin 19 => Record.mk 0 (.notice
            { summary := s.status.summary.items, monitor := k.val, declared := true, count := s.status.changeCount })
          u.status.summary = s.status.summary ∧ u.status.changeCount = s.status.changeCount
            ∧ (u.status.attention = true ↔ s.status.attention = true
                ∨ ∃ n : Fin 19, n.val ∈ [1, 2, 3, 9, 10, 11, 12, 13, 16, 17] ∧ s.status.summary.get n = true)
            ∧ u.bus = ((List.finRange 19).filter fun k => s.status.summary.get k).foldl
                (fun b k => (b.join s.now { record := notice k, tag := 0 }).build s.now) s.bus
            ∧ (∀ k, s.status.summary.get k = true → (∀ m, s.status.summary.get m = true → m ≤ k) →
                s.bus.periodic.length ≤ 7 → u.bus.carries (notice k))
            ∧ ((∀ n, s.status.summary.get n = false) → u = s))
      ∧ (s.Fits → s.seq.phase = .calibrate → s.seq.phaseTimer.isSome = true →
          ∃ t, exec .calibrateTimerExpiry s = .next t
            ∧ (t.status.attention = true ↔ s.status.attention = true
                ∨ ∃ n : Fin 19, n.val ∈ [1, 2, 3, 9, 10, 11, 12, 13, 16, 17] ∧ s.status.summary.get n = true)
            ∧ (∀ n, t.status.summary.get n = true → s.status.summary.get n = true)
            ∧ ((∀ ch, (s.chan ch).stalled = false ∧ (s.chan ch).travelFault = false) → s.water.valveFault = false →
                t.status.summary = s.status.summary ∧ t.status.changeCount = s.status.changeCount
                  ∧ ((∀ id, (t.claim id).st = .idle) → s.view.driveAccepted = false → s.motion.windLockout = none →
                      s.bus.periodic.length ≤ 2 → ∀ k, s.status.summary.get k = true →
                      (∀ m, s.status.summary.get m = true → m ≤ k) → t.bus.carries (Record.mk 0 (.notice
                        { summary := s.status.summary.items, monitor := k.val, declared := true
                          count := s.status.changeCount })))))

/-- AckAttention (R182): Phase outside Run and Storage, Accepted with the flag clear otherwise; STATUS subject 0 shows it
at once from Setup onward. -/
def Obligations.AckAttention : Prop :=
  ∀ (s : State) (i : Nat) (v : Int), s.quiet → s.asks 13 i v → ∃ t, exec .ackAttention s = .next t
    ∧ (s.seq.phase ≠ .run → (s.taken.answered 13 10).handedOver t)
    ∧ (s.seq.phase = .run → ((s.taken.answered 13 1).setStatus
        { (s.taken.answered 13 1).status with attention := false }).handedOver t)
    ∧ (s.seq.phase ≠ .listen → s.bus.periodic.length ≤ 7 → t.bus.carries (status0Record t))

/-- EnterStorage and LeaveStorage by the table of R187. Before Run both answer Phase. EnterStorage: Accepted with no
change in Storage, Drive with no change while drive is accepted, otherwise Storage is entered and every block is told:
the ceiling and every light's target are 0 (R155), no Extend is pending or follows on (R147), the SUPPLY period waits for
the next interval (R26), STATUS goes out every 5 s (R178). The heater then serves frost alone, whatever the chosen mode,
which stands (R105, R110, R123): the comfort call is cleared, and a heater at work purges unless frost service is active, by
which its claim goes on at rank 1, or at the 0 a yield has left it. LeaveStorage: Accepted with no change outside Storage; in
Storage it is left, the ceiling is again the one of the level in force, STATUS goes out every second, and the chosen mode
is in force: with Off frost service ends, a heater that nothing wants any longer purges, and with Comfort the call waits
for the next reading (DEDUCED, log entry 49). CLIMATE goes out where the mode
in force changes. -/
def Obligations.StorageRequests : Prop :=
  ∀ (s : State) (i : Nat) (v : Int), s.Fits →
    let served := fun s : State => (s.seq.fns.water && s.water.demand) || s.entries.any Entry.showsFrostDemand
    let atWork := fun s : State => s.climate.heater = .starting ∨ s.climate.heater = .running
    let purges := fun t : State => t.climate.heater = .purging ∧ t.climate.hen = false ∧ t.climate.hdem = 0
      ∧ t.climate.purgeTimer = some 180000
    (s.asks 14 i v → ∃ t, exec .enterStorage s = .next t
      ∧ (s.seq.phase ≠ .run → (s.taken.answered 14 10).handedOver t)
      ∧ (s.seq.phase = .run → s.seq.storage = true → (s.taken.answered 14 1).handedOver t)
      ∧ (s.seq.phase = .run → s.seq.storage = false → s.view.driveAccepted = true →
          (s.taken.answered 14 4).handedOver t)
      ∧ (s.seq.phase = .run → s.seq.storage = false → s.view.driveAccepted = false →
          t.seq = { s.seq with storage := true } ∧ t.shows 14 1 ∧ t.pins = s.pins ∧ t.lights.ceiling = 0
            ∧ (∀ ch, (t.light ch).target = 0) ∧ (∀ ch, (t.chan ch).pending ≠ .extend ∧ (t.chan ch).followOn ≠ .extend)
            ∧ t.supply = { s.supply with onNext := s.seq.fns.supply } ∧ t.periods.supply = none
            ∧ t.periods.status = some 5000
            ∧ (s.seq.fns.heat = true → t.climate.chosen = s.climate.chosen ∧ t.climate.call = false
                ∧ t.climate.callCount = 0 ∧ t.climate.frost = served s
                ∧ (atWork s → t.climate.frost = false → purges t)
                ∧ (atWork s → t.climate.frost = true → t.climate.heater = s.climate.heater
                    ∧ (t.claim loadHeater).st = .held
                    ∧ (t.claim loadHeater).rank = if (s.claim loadHeater).rank = 0 then 0 else 1)
                ∧ (s.climate.heater = .off → t.climate.frost = false → (t.claim loadHeater).st = .idle)
                ∧ (s.climate.chosen ≠ .frostOnly → ∀ z, t.periods.climate.get z = some 5000))))
    ∧ (s.asks 15 i v → ∃ t, exec .leaveStorage s = .next t
      ∧ (s.seq.phase ≠ .run → (s.taken.answered 15 10).handedOver t)
      ∧ (s.seq.phase = .run → s.seq.storage = false → (s.taken.answered 15 1).handedOver t)
      ∧ (s.seq.phase = .run → s.seq.storage = true →
          t.seq = { s.seq with storage := false } ∧ t.shows 15 1 ∧ t.pins = s.pins
            ∧ t.lights.ceiling = (if s.broker.level = 0 then 1000 else if s.broker.level = 1 then 250 else 0)
            ∧ t.supply = { s.supply with onNext := s.seq.fns.supply } ∧ t.periods.supply = none
            ∧ t.periods.status = some 1000
            ∧ (s.seq.fns.heat = true → t.climate.chosen = s.climate.chosen
                ∧ t.climate.frost = (decide (s.climate.chosen ≠ .off) && served s)
                ∧ (if s.climate.chosen = .comfort then t.climate.call = s.climate.call
                  else t.climate.call = false ∧ t.climate.callCount = 0)
                ∧ (atWork s → t.climate.call = false → t.climate.frost = false → purges t)
                ∧ (atWork s → t.climate.frost = true → t.climate.heater = s.climate.heater)
                ∧ (s.climate.chosen ≠ .frostOnly → ∀ z, t.periods.climate.get z = some 5000))))

/-- The ends of the periods, in a settled station in Run, each for a block that is fitted (R24, R26, R53, R101, R121,
R141, R145, R160, R178): exactly the one record of the period, with its figures as they stand, is handed to the
Gatherer, and the period runs afresh, of the length the mode or the channel's state gives it; the counters' period
hands over two. A Held claim with a raise pending repeats its DRAW in payload state Contest (DESIGN CHOICE, log entry 81).
Nothing else changes. -/
def Obligations.PeriodsHandOver : Prop :=
  ∀ (s : State), s.quiet → s.seq.phase = .run →
    (s.periods.status.isSome = true → exec .statusPeriod s = .next ((s.hand (status0Record s) 0).setPeriods
        { s.periods with status := some (if s.seq.storage = true then 5000 else 1000) }))
      ∧ (s.periods.counters.isSome = true → exec .statusCountersPeriod s = .next
          (((s.hand (status1Record s) 0).hand (status2Record s) 0).setPeriods { s.periods with counters := some 5000 }))
      ∧ (∀ f, s.supply.latest = some f →
          (s.periods.shed.isSome = true → exec .shedPeriod s = .next ((s.hand f.shedRecord 0).setPeriods
            { s.periods with shed := if 0 < f.level then some 200 else none }))
          ∧ (s.seq.fns.supply = true → s.periods.supply.isSome = true → exec .supplyPeriod s = .next
            ((s.hand f.supplyRecord 0).setPeriods
              { s.periods with supply := some (if s.seq.storage = true then 2500 else 500) })))
      ∧ (∀ id, (s.periods.draw.get id).isSome = true → (s.claim id).drawing = true → exec (.drawRepeat id) s = .next
          ((s.hand { subject := id.val, payload := .draw (drawOf (s.claim id)) }
            (if (s.claim id).raise = true ∧ (s.claim id).st = .held then (s.claim id).serial else 0)).setPeriods
            { s.periods with draw := s.periods.draw.set id (some 1000) }))
      ∧ (s.seq.fns.water = true → ∀ k, (s.periods.tank.get k).isSome = true → exec (.tankPeriod k) s = .next
          ((s.hand (tankRecord s k) 0).setPeriods { s.periods with tank := s.periods.tank.set k (some 5000) }))
      ∧ (s.seq.fns.heat = true → ∀ z, (s.periods.climate.get z).isSome = true → exec (.climatePeriod z) s = .next
          ((s.hand (climateRecord s z) 0).setPeriods { s.periods with climate := s.periods.climate.set z (some 5000) }))
      ∧ (s.seq.fns.motion = true → ∀ ch, ((s.periods.motion.get ch).isSome = true → exec (.motionPeriod ch) s = .next
            ((s.hand (motionRecord s ch) 0).setPeriods { s.periods with
              motion := s.periods.motion.set ch (some (if (s.chan ch).atRest = true then 1000 else 200)) }))
          ∧ ((s.periods.interlock.get ch).isSome = true → exec (.interlockRepeat ch) s = .next
            ((s.hand (interlockRecord s ch) 0).setPeriods { s.periods with
              interlock := s.periods.interlock.set ch (some 200) })))
      ∧ (s.seq.fns.lights = true → ∀ ch, (s.periods.light.get ch).isSome = true → exec (.lightPeriod ch) s = .next
          ((s.hand (lightRecord s ch) 0).setPeriods { s.periods with light := s.periods.light.set ch (some 5000) }))

/-! ### The line, the Receive Queue, the Dispatcher and the Gatherer (R162 to R172) -/

/-- Encoding and decoding agree: the bits a station drives for a frame of one to four records whose fields fit their
layouts are received as Good, with the frame's class, its station and its records (R163, R164, R174, R176). The layouts
that the spec does not table are the model's choice (log entry 3). -/
def Obligations.FrameRoundTrip : Prop :=
  ∀ (cls station : Nat) (records : List Record), cls ≤ 3 → 1 ≤ station → station ≤ 8 → 1 ≤ records.length →
    records.length ≤ 4 → (∀ r ∈ records, r.fitsBits) →
      receive (frameBits cls station records) = some (.good cls station records)

/-- Stuffing and the errors a receiver finds (R163, R164). A stuffed frame never shows 7 equal bits in a row. A line that
has not closed a frame by the sixth of 7 equal bits closes it at the seventh, dominant as Stuff Error and recessive as
Truncated, whatever bits follow. And a frame whose check word is not the one worked out closes as Check Fail. -/
def Obligations.StuffingAndSevenEqualBits : Prop :=
  (∀ b : List Bit, ∀ i, i + 7 ≤ (stuff b).length → ¬ ∃ x, ∀ j, j < 7 → (stuff b).getD (i + j) (!x) = x)
    ∧ (∀ (x : Bit) (before rest : List Bit), (before ++ [x]).head? = some false →
        receive (before ++ List.replicate 6 x) = none →
        receive (before ++ List.replicate 7 x ++ rest) = some (.error (if x = true then .truncated else .stuffError)))
    ∧ ∀ (cls station w : Nat) (records : List Record) (rest : List Bit), cls ≤ 3 → 1 ≤ station → station ≤ 8 →
        1 ≤ records.length → records.length ≤ 4 → (∀ r ∈ records, r.fitsBits) → w < 65536 →
        w ≠ (checkWord (headBits cls station records)).toNat →
        receive (stuff ([false] ++ headBits cls station records ++ bitsOf 16 w) ++ rest) = some (.error .checkFail)

/-- A frame received closes while the part is out of reset and does not send (R164, R168, R169). A Good frame is
acknowledged, sets the silence timer to 3 s, clears Bus Silent, one of the own station number too (DEDUCED, log entry
24), and joins the queue, or, when 16 entries stand in it, is lost and counted Overrun up to 255. An error note is not
acknowledged and joins the queue, or is lost without count. When the silence timer expires, Bus Silent is declared,
and nothing else changes on the line. -/
def Obligations.FrameClose : Prop :=
  ∀ s : State, s.view.changes = [] →
    (∀ (line : List Bit) (r : Reception), s.inReset = false → s.bus.sending = none → receive line = some r →
      ∃ t, exec (.frameClose line) s = .next t ∧ t.view = s.view ∧ t.seq = s.seq ∧ t.broker = s.broker ∧ t.pins = s.pins
        ∧ (match r with
          | .good cls station records =>
            t.bus.lastClose = some .good ∧ t.bus.acked = true ∧ t.bus.silenceTimer = some 3000 ∧ t.bus.busSilent = false
              ∧ t.bus.rx = (if s.bus.rx.length < 16 then s.bus.rx ++ [.good station cls records] else s.bus.rx)
              ∧ t.bus.overrun = (if s.bus.rx.length < 16 then s.bus.overrun else min (s.bus.overrun + 1) 255)
              ∧ t.status.summary.get Mon.busSilent = (s.status.summary.get Mon.busSilent && !s.bus.busSilent)
          | .error d =>
            t.bus.lastClose = some d ∧ t.bus.acked = false ∧ t.bus.silenceTimer = s.bus.silenceTimer
              ∧ t.bus.busSilent = s.bus.busSilent ∧ t.bus.overrun = s.bus.overrun
              ∧ t.bus.rx = (if s.bus.rx.length < 16 then s.bus.rx ++ [.note d] else s.bus.rx)))
    ∧ (s.bus.silenceTimer.isSome = true → ∃ t, exec .busSilentTimerExpiry s = .next t
      ∧ t.bus.busSilent = true ∧ t.bus.silenceTimer = none ∧ t.status.summary.get Mon.busSilent = true
      ∧ t.bus.rx = s.bus.rx ∧ t.bus.sending = s.bus.sending ∧ t.view = s.view ∧ t.broker = s.broker ∧ t.seq = s.seq
      ∧ t.status.attention = s.status.attention)

/-- Records the Dispatcher passes over or ignores leave the Receive Queue and nothing else changes but a counter: an error
note, a record of kinds 12 to 15 (Unknown, up to 255), a NOTICE, a REQUEST for another station, a REQUEST with code 0
(R170, R179). -/
def Obligations.DispatcherPassesOver : Prop :=
  ∀ s : State, s.view.changes = [] →
    (∀ d q, s.bus.rx = .note d :: q →
      ∃ t, exec .dispatchErrorNote s = .next t ∧ (s.setBus { s.bus with rx := q }).handedOver t)
    ∧ (∀ n k x b, s.brings n { subject := k, payload := .unknown x b } → ∃ t, exec .unknownKind s = .next t
      ∧ (s.taken.setBus { s.taken.bus with unknown := min (s.bus.unknown + 1) 255 }).handedOver t)
    ∧ (∀ n k f, s.brings n { subject := k, payload := .notice f } →
      ∃ t, exec .noticePassedOver s = .next t ∧ s.taken.handedOver t)
    ∧ (∀ n k f, s.brings n { subject := k, payload := .request f } → k ≠ 0 → k ≠ s.seq.station →
      ∃ t, exec .requestPassedOver s = .next t ∧ s.taken.handedOver t)
    ∧ (∀ i v, s.asks 0 i v → ∃ t, exec .requestCodeZero s = .next t ∧ s.taken.handedOver t)

/-- A record from a station the roster keeps out, or from the own station number, is ignored and counted Foreign up to 255,
whatever it is, at the command that applies it: a record of a stored kind, a SHED, a NOTICE, one of an unknown kind, a
SETUP or SETUP End, a REQUEST for another station, and an addressed REQUEST of every code (R74, R170). -/
def Obligations.RosterKeepsOut : Prop :=
  ∀ (s : State) (n : Nat) (r : Record) (c : Instr), s.view.changes = [] → s.inReset = false →
    s.nextRecord = some (n, r) →
    (n = s.seq.station ∨ s.seq.values.get 19 = 1 ∧ (s.seq.values.get 20).testBit (n - 1) = false) →
    (let here := r.subject = 0 ∨ r.subject = s.seq.station;
      match r.payload with
      | .shed _ => c = .shedReceived
      | .notice _ => c = .noticePassedOver
      | .unknown _ _ => c = .unknownKind
      | .setup f => c = if s.seq.phase = .setup ∧ here ∧ f.index = 63 then .setupEnd else .setup
      | .request f =>
        if here then some c = [Instr.requestCodeZero, .setSetpoint, .setClimateMode, .resetHeater, .extend, .retract,
          .stop, .setLevel, .recallScene, .storeScene, .allOff, .closeDump, .clearPump, .ackAttention, .enterStorage,
          .leaveStorage][f.code]?
        else c = .requestPassedOver
      | _ => c = .peerArrival) →
    ∃ t, exec c s = .next t
      ∧ (s.taken.setView { s.view with foreign := min (s.view.foreign + 1) 255 }).handedOver t

/-- The line is idle and a buffer holds a frame, from the end of Listen on: the urgent buffer's frame goes out when it
holds one, else the normal buffer's, as the bits of R163; the frame stays in its buffer. In Listen none is sent (R162,
R165). A sender that loses arbitration stops driving, and nothing else changes: its frame and the failed-frame count stand
(R167). -/
def Obligations.FrameSendStart : Prop :=
  ∀ s : State, s.quiet →
    (s.seq.phase = .listen → ∃ t, exec .frameSendStart s = .next t ∧ s.handedOver t)
    ∧ (s.seq.phase ≠ .reset → s.seq.phase ≠ .listen → s.bus.sending = none →
      (∀ f, s.bus.urgentBuf = some f → ∃ t, exec .frameSendStart s = .next t
        ∧ (s.setBus { s.bus with
            sending := some ⟨true, frameBits f.cls s.seq.station (f.records.map (·.record))⟩ }).handedOver t)
      ∧ (∀ f, s.bus.urgentBuf = none → s.bus.normalBuf = some f → ∃ t, exec .frameSendStart s = .next t
        ∧ (s.setBus { s.bus with
            sending := some ⟨false, frameBits f.cls s.seq.station (f.records.map (·.record))⟩ }).handedOver t)
      ∧ (s.bus.urgentBuf = none → s.bus.normalBuf = none → ∃ t, exec .frameSendStart s = .next t ∧ s.handedOver t))
    ∧ exec .arbitrationLost s = .next (s.setBus { s.bus with sending := none })

/-- A frame on the line fails, by a bit error or without acknowledgement, in a state that fits (R38, R166, R167). It leaves its buffer; the
failed-frame count grows by one up to 8, a probe's failure sets the probe count to zero, and while the count stays below 8
or Line Fault stands no more follows from the count. Where it announces no running contest but those of standing asks whose
owners have nothing to add, each of these claims waits, nothing else changes, no Released is sent, and without Line Fault
the buffer takes the next frame that is ready: the urgent one whatever waits in its lane, the normal one the lowest class
that is ready, if one is, up to four records, oldest first (`Bus.refills`, R172). Where it announces one contest alone,
that contest ends as one lost, at its owner: the frost cycle that asked is postponed, owed by one more up to
4; the heater, with frost service active, makes a standing Ask at rank 1 after a Try or a contest at rank 4; a light group
goes on to its scaled requests (R94, R111, R153). Records of contests since superseded are notice alone. -/
def Obligations.FrameFails : Prop :=
  ∀ (c : Instr) (s : State) (f : TxFrame) (u : Bool) (bits : List Bit), c = .bitErrorAbort ∨ c = .frameNoack →
    s.Fits → s.bus.sending = some { urgent := u, bits := bits } →
    (if u = true then s.bus.urgentBuf else s.bus.normalBuf) = some f →
    (s.bus.failed + 1 < 8 ∨ s.bus.lineFault = true) → ∃ t, exec c s = .next t
      ∧ let counts := t.bus.failed = min 8 (s.bus.failed + 1) ∧ t.bus.sending = none
          ∧ t.bus.lineFault = s.bus.lineFault ∧ t.bus.probeCount = (if f.probe = true then 0 else s.bus.probeCount)
          ∧ t.view = s.view ∧ t.seq = s.seq
        ((∀ id, s.announces f id → s.onlyWaits id) → counts ∧ t.status = s.status
          ∧ t.broker = { s.broker with claims := t.broker.claims }
          ∧ (∀ id, (s.announces f id → t.claim id =
                { s.claim id with st := .waiting, held := 0, raise := false, announcing := false, window := none })
              ∧ (¬ s.announces f id → t.claim id = s.claim id))
          ∧ (u = true → t.bus.urgentBuf = if s.bus.lineFault = true ∨ s.bus.urgent = [] then none
              else some { cls := 0, records := (s.bus.urgent.take 4).map (·.item), probe := false })
          ∧ (u = false → s.bus.refills t.bus s.now))
        ∧ ((∀ x ∈ f.records, x.tag < s.broker.nextSerial) → counts ∧ t.pins = s.pins ∧ t.supply = s.supply
          ∧ ∀ id, s.announces f id → (∀ j, s.announces f j → j = id) → let c := s.claim id
            (∀ j, j ≠ id → (s.claim j).st ≠ .waiting → t.claim j = s.claim j)
              ∧ (id = loadPump → s.water.cycle = .asking → t.water.cycle = .timing
                  ∧ t.water.owed = min 4 (s.water.owed + 1) ∧ t.water.demand = false
                  ∧ t.water.dueTimer = some (Item.frostIntervalMs s.seq.values))
              ∧ (id = loadHeater → c.single = true ∨ c.rank = 4 → s.climate.frost = true → let d := t.claim id
                  d.rank = 1 ∧ d.single = false ∧ d.asked = s.seq.values.get 26 ∧ t.climate.heater = .off
                    ∧ d.st = if s.passes id 1 (s.seq.values.get 26) = true then .contest else .waiting)
              ∧ ∀ g r, id = loadLights g → (s.group g).pending = some r → s.lights.due = .none → c.held < 30000 →
                  s.scalesDown t g r.want r.scale)

/-- The eighth failed frame in a row declares Line Fault (R71, R167): both buffers are empty and nothing is built from the
slots, the probe timer runs its second, a hold of 10 s begins in which every Fresh or Aging entry is Held at its age, and
the monitor is declared. Its frame, and the one in the other buffer, are reported failed (R38): where they announce no
running contests but those of standing asks whose owners have nothing to add, and drive accepted agrees with its inputs,
the claims of the pump and the motors whose contests they announce wait. -/
def Obligations.EighthFailureDeclaresLineFault : Prop :=
  ∀ (c : Instr) (s : State) (f : TxFrame) (u : Bool) (bits : List Bit), c = .bitErrorAbort ∨ c = .frameNoack →
    s.Fits → s.bus.sending = some { urgent := u, bits := bits } →
    (if u = true then s.bus.urgentBuf else s.bus.normalBuf) = some f → s.bus.failed = 7 → s.bus.lineFault = false →
    ∃ t, exec c s = .next t ∧ t.bus.lineFault = true ∧ t.bus.failed = 8 ∧ t.bus.probeTimer = some 1000
      ∧ t.bus.urgentBuf = none ∧ t.bus.normalBuf = none ∧ t.bus.sending = none ∧ t.view.holdTimer = some 10000
      ∧ t.status.summary.get Mon.lineFault = true ∧ t.seq.station = s.seq.station
      ∧ (∀ i w, let e := (s.view.sets.get i).ways.get w
          let g := (t.view.sets.get i).ways.get w
          g.valid = e.valid ∧ g.key = e.key ∧ g.payload = e.payload ∧ (e.valid = true → g.age = e.age)
            ∧ (e.valid = true → (e.fresh = .fresh ∨ e.fresh = .aging) → g.fresh = .held))
      ∧ let gone := fun x : TxFrame => s.bus.urgentBuf = some x ∨ s.bus.normalBuf = some x
        (s.view.driveAccepted = s.driveNow → (∀ x id, gone x → s.announces x id → s.onlyWaits id) →
          ∀ x id, gone x → s.announces x id → 2 ≤ id.val → t.claim id =
            { s.claim id with st := .waiting, held := 0, raise := false, announcing := false, window := none })

/-- A frame is completed with acknowledgement (R38, R166, R167): it leaves its buffer, which without Line Fault takes
the next frame that is ready: the urgent one whatever waits in its lane, the normal one the lowest class that is ready, if
one is, up to four records, oldest first (`Bus.refills`, R172); the failed-frame count is zero, and a contest in its announcing
stage that the frame announces starts its window of 60 ms; every other claim stands as it was. While Line Fault is declared
the first probe completed only counts. -/
def Obligations.FrameCompleted : Prop :=
  ∀ (s : State) (f : TxFrame) (u : Bool) (bits : List Bit), s.quiet →
    s.bus.sending = some { urgent := u, bits := bits } →
    (if u = true then s.bus.urgentBuf else s.bus.normalBuf) = some f →
    (s.bus.lineFault = false ∨ f.probe = false ∨ s.bus.probeCount = 0) → ∃ t, exec .frameCompleted s = .next t
      ∧ t.bus.failed = 0 ∧ t.bus.sending = none ∧ t.bus.lineFault = s.bus.lineFault ∧ t.view = s.view ∧ t.seq = s.seq
      ∧ t.bus.probeCount = (if s.bus.lineFault = true ∧ f.probe = true then 1 else s.bus.probeCount)
      ∧ (u = true → t.bus.urgentBuf = if s.bus.lineFault = true ∨ s.bus.urgent = [] then none
          else some { cls := 0, records := (s.bus.urgent.take 4).map (·.item), probe := false })
      ∧ (u = false → s.bus.refills t.bus s.now)
      ∧ ∀ id, t.claim id =
          if (s.claim id).contesting = true ∧ (s.claim id).announcing = true
              ∧ (∃ x ∈ f.records, x.tag ≠ 0 ∧ x.tag = (s.claim id).serial ∧ x.record.subject = id.val)
          then { s.claim id with announcing := false, window := some 60 } else s.claim id

/-- Probing, and the end of Line Fault (R73, R167). The probe timer expires: its second runs afresh, and when the normal
buffer is empty a probe of one record, the STATUS subject 0 as it stands, is built into it, a waiting STATUS subject 0
leaving the slots without count. The second probe in a row completed with acknowledgement clears Line Fault: probing stops,
the counts are zero, a hold ends with every Held entry taking up its age, and the monitor clears. -/
def Obligations.ProbesAndTheEndOfLineFault : Prop :=
  (∀ s : State, s.quiet → s.bus.probeTimer.isSome = true →
    exec .probeTimerExpiry s = .next (s.setBus (if s.bus.normalBuf.isSome = true
      then { s.bus with probeTimer := some 1000 }
      else { s.bus with
        probeTimer := some 1000
        normalBuf := some { cls := 2, records := [{ record := status0Record s, tag := 0 }], probe := true }
        periodic := s.bus.periodic.filter fun w =>
          !(w.item.record.kind == .status && w.item.record.subject == 0) })))
  ∧ ∀ (s : State) (f : TxFrame) (bits : List Bit), s.Fits → s.bus.sending = some { urgent := false, bits := bits } →
    s.bus.normalBuf = some f → f.probe = true → s.bus.lineFault = true → s.bus.probeCount = 1 →
    ∃ t, exec .frameCompleted s = .next t
      ∧ t.bus.lineFault = false ∧ t.bus.probeTimer = none ∧ t.bus.probeCount = 0 ∧ t.bus.failed = 0
      ∧ t.view.holdTimer = none ∧ t.status.summary.get Mon.lineFault = false
      ∧ ∀ i w, let e := (s.view.sets.get i).ways.get w
          let g := (t.view.sets.get i).ways.get w
          g.valid = e.valid ∧ g.key = e.key ∧ (e.valid = true → e.fresh = .held →
            g.age = e.age ∧ g.fresh = if e.age < agingAt e.kind then .fresh else if e.age < staleAt e.kind then .aging
              else .stale)

/-! ### The figures a claim is tested against (R36, R37, R62) -/

/-- The figures a claim is tested against, and the test (R36, R37, R62), in a state that fits. The usable SUPPLY of a
supply station is its own latest figures; of any other it is that of the lowest-numbered station whose SUPPLY subject 0 is
Fresh, Aging or Held. The known total counts each other own claim that is Held or Forced with its held amount, a raise or a
contest that outranks the claim with its asked amount, and each Fresh or Aging DRAW of a peer likewise. The pre-test passes
exactly when a supply is known, the rank is below 7 less the shed level, no View Overflow, Storage or Line Fault bars it,
and the known total with the amount stays within H. -/
def Obligations.PreTestAndKnownTotal : Prop :=
  ∀ (s : State) (id : Fin 7) (rank a : Nat), s.Fits →
    let outranks := fun r n l : Nat =>
      decide (r < rank ∨ r = rank ∧ (n < s.seq.station ∨ n = s.seq.station ∧ l < id.val))
    let own := fun o : Fin 7 =>
      let c := s.claim o
      let raised := outranks (if c.rank = 0 ∧ 5 ≤ o.val then 6 else c.rank) s.seq.station o.val
      if o = id then 0
      else if c.st = .held then (if c.raise = true ∧ raised = true then c.asked else c.held)
      else if c.st = .forced then c.held
      else if c.st = .contest ∧ outranks c.rank s.seq.station o.val = true then c.asked else 0
    let peer := fun e : Entry =>
      match e.payload with
      | .draw f =>
        if e.subject ≤ 6 ∧ (e.fresh = .fresh ∨ e.fresh = .aging) then
          if f.state = 1 ∧ outranks (min f.rank 6) e.station e.subject = true then min f.asked 30000
          else if 1 ≤ f.state ∧ f.state ≤ 3 then min f.held 30000 else 0
        else 0
      | _ => 0
    let total := ([0, 1, 2, 3, 4, 5, 6].map own).sum + (s.entries.map peer).sum
    let supplies := fun e : Entry =>
      e.kind = .supply ∧ e.subject = 0 ∧ e.fresh ≠ .stale ∧ 1 ≤ e.station ∧ e.station ≤ 8
    s.knownTotal id { rank := rank, station := s.seq.station, load := id.val } = total
      ∧ (s.passes id rank a = true ↔ ∃ u, s.usable = some u ∧ rank + s.broker.level < 7
          ∧ ¬ (s.view.overflow = true ∧ 2 ≤ rank) ∧ ¬ (s.seq.storage = true ∧ 5 ≤ rank) ∧ s.bus.lineFault = false
          ∧ total + a ≤ u.h)
      ∧ (s.seq.fns.supply = true → (s.usable = none ↔ s.supply.latest = none)
          ∧ ∀ f, s.supply.latest = some f → ∃ u, s.usable = some u ∧ u.station = s.seq.station ∧ u.soc = f.soc ∧ u.h = f.h
            ∧ u.withdrawn = !f.permit ∧ u.tc = f.tc)
      ∧ (s.seq.fns.supply = false → (s.usable = none ↔ ∀ e ∈ s.entries, ¬ supplies e)
          ∧ ∀ e ∈ s.entries, supplies e → (∀ x ∈ s.entries, supplies x → e.station ≤ x.station) →
            ∃ f, e.payload = .supply f ∧ s.usable = some
              { station := e.station, soc := min f.soc 1000, h := min f.h 30000, withdrawn := f.withdrawn, tc := f.tc })

/-! ### The Transmit Gatherer (R171, R172) and the layouts (R176 to R181) -/

/-- What the Gatherer builds, and when (R167, R172). Class 1 is ready while a record of it waits; class 2 or 3 while four wait,
or once its oldest has waited the gather timeout, as GATHER_TIMEOUT marks it too (DESIGN CHOICE, log entry 4). An empty
normal buffer takes the lowest class that is ready, up to four of its records, oldest first, which leave their slots, and
nothing where none is ready. So it is when a record is handed over: one of class 0 or class 1 that finds its class and the
buffer empty goes out at once, and the fourth of class 2 or 3 takes the other three with it. And so it is when a gather
timeout runs out with records of its class waiting: that class goes, unless an earlier one is ready. A frame in a buffer
stays, and while Line Fault is declared nothing is built. -/
def Obligations.GatherTimeoutBuilds : Prop :=
  (∀ (b : Bus) (now : Nat),
    let frame := fun k : Nat => some { cls := k, records := ((b.ofClass k).take 4).map (·.item), probe := false : TxFrame };
    let late := fun k => ∃ w rest, b.ofClass k = w :: rest ∧ (w.ripe = true ∨ w.join + b.gatherMs ≤ now);
    let ready := fun k => k = 1 ∧ b.ofClass k ≠ [] ∨ 4 ≤ (b.ofClass k).length ∨ late k;
    (ready 1 → b.nextNormal now = frame 1) ∧ (¬ ready 1 → ready 2 → b.nextNormal now = frame 2)
      ∧ (¬ ready 1 → ¬ ready 2 → ready 3 → b.nextNormal now = frame 3)
      ∧ (¬ ready 1 → ¬ ready 2 → ¬ ready 3 → b.nextNormal now = none))
  ∧ (∀ (s : State) (r : Record) (tag : Nat),
    let x : Tagged := { record := r, tag := tag };
    let b := s.bus;
    let j := b.join s.now x;
    let c := (s.hand r tag).bus;
    (b.lineFault = true → c = j)
      ∧ (b.normalBuf.isSome = true → c.normalBuf = b.normalBuf ∧ c.periodic = j.periodic)
      ∧ (b.normalBuf = none → j.refills c s.now)
      ∧ (b.lineFault = false →
        (b.urgentBuf.isSome = true ∨ j.urgent = [] → c.urgentBuf = b.urgentBuf ∧ c.urgent = j.urgent)
          ∧ (b.urgentBuf = none → j.urgent ≠ [] → c.urgent = j.urgent.drop 4
              ∧ c.urgentBuf = some { cls := 0, records := (j.urgent.take 4).map (·.item), probe := false })
          ∧ (r.kind.cls = 0 → b.urgentBuf = none → b.urgent = [] →
              c.urgentBuf = some { cls := 0, records := [x], probe := false } ∧ c.urgent = [])
          ∧ (r.kind.cls = 1 → b.normalBuf = none → b.ofClass 1 = [] → b.periodic.length ≤ 7 →
              c.normalBuf = some { cls := 1, records := [x], probe := false } ∧ c.periodic = b.periodic)
          ∧ (2 ≤ r.kind.cls → b.normalBuf = none → b.ofClass 1 = [] → (r.kind.cls = 3 → b.ofClass 2 = []) →
              b.periodic.length ≤ 7 → (b.ofClass r.kind.cls).length = 3 →
              (∀ w ∈ b.periodic, w.item.record.kind ≠ r.kind ∨ w.item.record.subject ≠ r.subject) →
              c.normalBuf = some { cls := r.kind.cls, records := (b.ofClass r.kind.cls).map (·.item) ++ [x], probe := false }
                ∧ c.ofClass r.kind.cls = [])))
  ∧ ∀ (s : State) (c : Nat), s.quiet → c = 2 ∨ c = 3 → s.bus.ofClass c ≠ [] → ∃ t, exec (.gatherTimeout c) s = .next t
    ∧ t.broker = s.broker ∧ t.view = s.view
    ∧ t.bus.urgentBuf = (if s.bus.lineFault = true ∨ s.bus.urgentBuf.isSome = true ∨ s.bus.urgent = [] then s.bus.urgentBuf
        else some { cls := 0, records := (s.bus.urgent.take 4).map (·.item), probe := false })
    ∧ (s.bus.lineFault = true ∨ s.bus.normalBuf.isSome = true → t.bus.normalBuf = s.bus.normalBuf
        ∧ t.bus.periodic.map (·.item) = s.bus.periodic.map (·.item))
    ∧ (s.bus.lineFault = false → s.bus.normalBuf = none →
        let late := (s.bus.ofClass 2).head?.any fun w => w.ripe || decide (w.join + s.bus.gatherMs ≤ s.now);
        let k := if s.bus.ofClass 1 ≠ [] then 1 else if 4 ≤ (s.bus.ofClass 2).length ∨ late = true then 2 else c;
        t.bus.normalBuf = some { cls := k, records := ((s.bus.ofClass k).take 4).map (·.item), probe := false }
          ∧ ∀ j, (t.bus.ofClass j).map (·.item) = ((s.bus.ofClass j).drop (if j = k then 4 else 0)).map (·.item))

/-- A record handed over to a lane within its places (R171): it takes the place of a waiting record of its kind and
subject, with that record's join time; or it takes a free slot with the present moment as its join time; or the lane's
oldest class-3 record, else its oldest class-2 record, else, in the urgent lane, its older record, is discarded and counted
Dropped up to 255. -/
def Obligations.RecordJoins : Prop :=
  ∀ (b : Bus) (now : Nat) (t : Tagged), b.lanesFit → let r := b.join now t
    let lane := fun b : Bus => if t.record.kind.cls = 0 then b.urgent else b.periodic
    let other := fun b : Bus => if t.record.kind.cls = 0 then b.periodic else b.urgent
    let places := if t.record.kind.cls = 0 then 2 else 8
    let same := fun w : Waiting => w.item.record.kind == t.record.kind && w.item.record.subject == t.record.subject
    other r = other b ∧ r.urgentBuf = b.urgentBuf ∧ r.normalBuf = b.normalBuf
      ∧ ((lane b).any same = true → lane r = (lane b).map (fun w => if same w then { w with item := t } else w)
          ∧ r.dropped = b.dropped)
      ∧ ((lane b).any same = false → (lane b).length < places →
          lane r = lane b ++ [{ item := t, join := now, ripe := false }] ∧ r.dropped = b.dropped)
      ∧ ((lane b).any same = false → (lane b).length = places →
          (t.record.kind.cls = 0 ∨ ∃ w ∈ lane b, w.item.record.kind.cls = 2 ∨ w.item.record.kind.cls = 3) →
          ∃ x y w, lane b = x ++ w :: y ∧ lane r = x ++ y ++ [{ item := t, join := now, ripe := false }]
            ∧ r.dropped = min (b.dropped + 1) 255
            ∧ (t.record.kind.cls = 0 → x = [])
            ∧ (t.record.kind.cls ≠ 0 → (∃ v ∈ lane b, v.item.record.kind.cls = 3) → w.item.record.kind.cls = 3)
            ∧ (t.record.kind.cls ≠ 0 → ¬ (∃ v ∈ lane b, v.item.record.kind.cls = 3) → w.item.record.kind.cls = 2)
            ∧ (t.record.kind.cls ≠ 0 → ∀ v ∈ x, v.item.record.kind.cls ≠ w.item.record.kind.cls))

/-- The payloads a partner must decode, as numbers of 40 bits (R176, R177, R179, R181): every field stands where the tables
put it, and the bits the tables mark as 0 are 0; the declared-monitor summary has monitor n at bit 31 − n of STATUS subject
2 and at bit 39 − n of a NOTICE. -/
def Obligations.TabledLayouts : Prop :=
  (∀ f : SupplyRec, (Payload.supply f).fitsBits 0 → natOf (Payload.supply f).bits =
      f.soc * 2 ^ 30 + f.h * 2 ^ 15 + f.withdrawn.toNat * 2 ^ 14 + f.lowVoltage.toNat * 2 ^ 13
        + f.anchored.toNat * 2 ^ 12 + (f.tc % 256).toNat * 2 ^ 4 + f.trend * 2 ^ 2)
    ∧ (∀ f : DrawRec, (Payload.draw f).fitsBits 0 → natOf (Payload.draw f).bits =
      f.held * 2 ^ 25 + f.asked * 2 ^ 10 + f.rank * 2 ^ 7 + f.state * 2 ^ 4)
    ∧ (∀ f : StatusState, (Payload.status0 f).fitsBits 0 → natOf (Payload.status0 f).bits =
      f.fns.supply.toNat * 2 ^ 39 + f.fns.water.toNat * 2 ^ 38 + f.fns.heat.toNat * 2 ^ 37 + f.fns.motion.toNat * 2 ^ 36
        + f.fns.lights.toNat * 2 ^ 35 + f.phase * 2 ^ 33 + f.storage.toNat * 2 ^ 32 + f.localDrive.toNat * 2 ^ 31
        + f.chargeSource.toNat * 2 ^ 30 + f.lineFault.toNat * 2 ^ 29 + f.busSilent.toNat * 2 ^ 28
        + f.attention.toNat * 2 ^ 27 + f.request * 2 ^ 23 + f.outcome * 2 ^ 19 + f.defaultsUsed.toNat * 2 ^ 18
        + f.clamped.toNat * 2 ^ 17)
    ∧ (∀ f : StatusCounters, (Payload.status1 f).fitsBits 1 → natOf (Payload.status1 f).bits =
      f.overrun * 2 ^ 32 + f.dropped * 2 ^ 24 + f.foreign * 2 ^ 16 + f.unknown * 2 ^ 8 + f.tableError)
    ∧ (∀ f : StatusMonitors, (Payload.status2 f).fitsBits 2 → natOf (Payload.status2 f).bits =
      f.lateSetup * 2 ^ 32 + ((List.range 19).map fun n => (f.summary.getD n false).toNat * 2 ^ (31 - n)).sum)
    ∧ (∀ f : NoticeRec, (Payload.notice f).fitsBits 0 → natOf (Payload.notice f).bits =
      ((List.range 19).map fun n => (f.summary.getD n false).toNat * 2 ^ (39 - n)).sum
        + f.monitor * 2 ^ 16 + f.declared.toNat * 2 ^ 15 + f.count * 2 ^ 7)
    ∧ ∀ f : RequestRec, (Payload.request f).fitsBits 0 → natOf (Payload.request f).bits =
      f.code * 2 ^ 36 + f.index * 2 ^ 28 + (f.value % 65536).toNat * 2 ^ 12

/-! ### The Peer View (R56 to R80) -/

/-- A record of a stored kind that the roster lets in, in a sound state (R56, R57, R63 to R66, R68, R70, R72, R77,
R78). It goes into the one set of its key: into the way that holds the key, else into the way the replacement names.
That way then holds the key and the payload at age 0, Fresh, or Held while a hold is in force; the two bits on its
path point away from it; every other way and set is as it was. A Fresh or Aging DRAW that gives way is a loss, which
declares View Overflow or sets its 10 s again. A STATUS subject 0 sets the debounced drive at once and takes it back
on the third clear in a row, or at once where the entry is new or was Stale; drive accepted follows. -/
def Obligations.PeerArrivalStores : Prop :=
  ∀ (s : State) (n : Nat) (r : Record), s.Sound → s.brings n r → r.kind.stored = true →
    ∃ t, exec .peerArrival s = .next t ∧
      let k : Key := { station := n, kind := r.kind, subject := r.subject };
      let v := s.view.sets.get (setOf k);
      let u := t.view.sets.get (setOf k);
      (∀ j, j ≠ setOf k → t.view.sets.get j = s.view.sets.get j) ∧ t.pins = s.pins ∧ t.bus.rx = dropRecord s.bus.rx
        ∧ t.view.holdTimer = s.view.holdTimer
        ∧ (r.kind = .status → r.subject = 0 →
            t.view.driveAccepted = (t.view.localDrive || t.entries.any Entry.showsDrive))
        ∧ ∃ w : Fin 4, let e := v.ways.get w;
          let g := u.ways.get w;
          let held : Bool := e.valid && e.key == k;
          g.valid = true ∧ g.key = k ∧ g.payload = r.payload ∧ g.age = 0
            ∧ g.fresh = (if s.view.holdTimer.isSome = true then .held else .fresh)
            ∧ (∀ x, x ≠ w → u.ways.get x = v.ways.get x)
            ∧ u.b0 = decide (w.val < 2) ∧ u.b1 = (if w.val < 2 then decide (w.val = 0) else v.b1)
            ∧ u.b2 = (if w.val < 2 then v.b2 else decide (w.val = 2))
            ∧ ((∃ x, (v.ways.get x).valid = true ∧ (v.ways.get x).key = k) → held = true)
            ∧ (held = false → w = v.victim r.kind.critical (Item.pinned s.seq.values))
            ∧ (let lost : Bool := !held && e.liveDraw;
                t.view.overflow = (s.view.overflow || lost)
                  ∧ t.view.overflowTimer = (if lost = true then some 10000 else s.view.overflowTimer)
                  ∧ (s.view.overflow = false → t.status.summary.get Mon.viewOverflow =
                      (s.status.summary.get Mon.viewOverflow || lost)))
            ∧ (match r.payload with
              | .status0 f =>
                (held = false ∨ e.fresh = .stale → g.drive = f.localDrive ∧ g.clear = 0)
                  ∧ (held = true → e.fresh ≠ .stale →
                      (f.localDrive = true → g.drive = true ∧ g.clear = 0)
                        ∧ (f.localDrive = false → e.drive = true → e.clear < 2 → g.drive = true ∧ g.clear = e.clear + 1)
                        ∧ (f.localDrive = false → e.drive = true → 2 ≤ e.clear → g.drive = false ∧ g.clear = 0)
                        ∧ (f.localDrive = false → e.drive = false → g.drive = false))
              | _ => True)

/-- The way a fill takes (R64, R65, R66, R67): among the ways the record may take, the lowest-numbered invalid one; if
none is invalid, the lowest-numbered Stale one; if none is Stale, the way the set's bits name, read as the full tree
for a critical record and within the unpinned ways for a non-critical one. -/
def Obligations.ReplacementNamesTheWay : Prop :=
  ∀ (v : ViewSet) (critical : Bool) (k : Nat), k ≤ 3 →
    let w := v.victim critical k;
    let may := fun x : Fin 4 => critical = true ∨ k ≤ x.val;
    let tree : Fin 4 := if v.b0 = true then (if v.b2 = true then 3 else 2) else (if v.b1 = true then 1 else 0);
    may w ∧ (∀ x, may x → (v.ways.get x).valid = false → (v.ways.get w).valid = false ∧ w ≤ x)
      ∧ ((∀ x, may x → (v.ways.get x).valid = true) → ∀ x, may x → (v.ways.get x).fresh = .stale →
          (v.ways.get w).fresh = .stale ∧ w ≤ x)
      ∧ ((∀ x, may x → (v.ways.get x).valid = true ∧ (v.ways.get x).fresh ≠ .stale) →
          w = if critical = true ∨ k = 0 then tree else if k = 1 then (if tree = 0 then 1 else tree)
            else if k = 2 then (if v.b2 = true then 3 else 2) else 3)

/-- The timers of the Peer View's entries, in a sound state (R48, R59, R70, R73). The thresholds are those of the
table of R59. ENTRY_AGING makes the Fresh entry of its key Aging when its age reaches the threshold, and ENTRY_STALE
makes the Fresh or Aging one Stale; an age that an arrival has taken back to 0 is left as it is, and so is every other
way of the table. A SUPPLY subject 0 that goes Stale takes its station's remembered level to 0. The end of a hold
makes every valid entry Stale, at the Stale threshold as its age (DEDUCED, log entry 13), and no hold is in force. The
end of View Overflow clears it and its monitor, and only Waiting claims are tested again; with a clear timer that a
loss has restarted nothing changes. -/
def Obligations.EntryTimers : Prop :=
  ∀ (s : State) (k : Key), s.Sound →
    ([Kind.status, .supply, .draw, .tank, .climate, .light, .motion, .interlock].map fun x => (agingAt x, staleAt x)) =
        [(3000, 12000), (1500, 6000), (3000, 6000), (15000, 40000), (15000, 40000), (15000, 40000), (3000, 12000), (600, 2000)]
      ∧ (∃ t, exec (.entryAging k) s = .next t ∧ t.pins = s.pins ∧ t.view.holdTimer = s.view.holdTimer
        ∧ t.view.overflow = s.view.overflow ∧ ∀ i w, let e := (s.view.sets.get i).ways.get w;
          let g := (t.view.sets.get i).ways.get w;
          if e.valid = true ∧ e.key = k ∧ e.fresh = .fresh ∧ agingAt e.kind ≤ e.age + 1 then
            g.valid = true ∧ g.key = k ∧ g.payload = e.payload ∧ g.drive = e.drive ∧ g.fresh = .aging
              ∧ g.age = agingAt e.kind
          else g = e)
      ∧ (∃ t, exec (.entryStale k) s = .next t ∧ t.pins = s.pins ∧ t.view.holdTimer = s.view.holdTimer
        ∧ t.view.overflow = s.view.overflow
        ∧ (∀ i w, let e := (s.view.sets.get i).ways.get w;
          let g := (t.view.sets.get i).ways.get w;
          if e.valid = true ∧ e.key = k ∧ (e.fresh = .fresh ∨ e.fresh = .aging) ∧ staleAt e.kind ≤ e.age + 1 then
            g.valid = true ∧ g.key = k ∧ g.payload = e.payload ∧ g.fresh = .stale ∧ g.age = staleAt e.kind
              ∧ (k.kind = .supply → k.subject = 0 → t.broker.remembered.get (stationIx k.station) = 0)
          else g = e))
      ∧ (s.view.holdTimer.isSome = true → ∃ t, exec .holdTimerExpiry s = .next t ∧ t.pins = s.pins
        ∧ t.view.holdTimer = none ∧ t.bus.lineFault = s.bus.lineFault ∧ ∀ i w, let e := (s.view.sets.get i).ways.get w;
          let g := (t.view.sets.get i).ways.get w;
          if e.valid = true then
            g.valid = true ∧ g.key = e.key ∧ g.payload = e.payload ∧ g.fresh = .stale ∧ g.age = staleAt e.kind
          else g = e)
      ∧ (s.view.overflowTimer = some 0 → ∃ t, exec .viewOverflowTimerExpiry s = .next t ∧ Shared s t
        ∧ t.view = { s.view with overflow := false, overflowTimer := none }
        ∧ t.status.summary.get Mon.viewOverflow = false ∧ t.broker.level = s.broker.level
        ∧ ∀ id, if (s.claim id).st = .waiting then (t.claim id).st = .waiting ∨ (t.claim id).st = .contest
          else t.claim id = s.claim id)
      ∧ (s.view.overflowTimer ≠ some 0 → ∃ t, exec .viewOverflowTimerExpiry s = .next t ∧ s.handedOver t)

/-- ENG, the local drive and CHGAV, in a state that fits (R76, R78, R119, R139, R187). A change of ENG out of reset
starts the wait of 1 s or 3 s that the local drive then needs, or stops it; an ENG already at the level changes
nothing (DESIGN CHOICE, log entry 33), and in reset only the pin is taken (DEDUCED, log entry 9). The end of the wait
of 1 s sets the local drive, and with it drive accepted: Storage ends, and every channel acts by the row of R139 for its
state (`State.meetsNeed`): an Extending one brakes for a protective retract, a Retracting one, a Backoff, a Braking one and
one at rest away from home make theirs a protective one, and an Extend pending on a Retracted one ends with its claim Idle
(DEDUCED, log entry 39: the table of R139 has no such action for Retracted), as does one pending behind a retract that is
Protective already (DESIGN CHOICE, log entry 78).
The end of the wait of 3 s clears it, and drive accepted is then what the peers' STATUS entries show; where it ends, a
Protective move that is pending or follows on is dropped (`State.losesNeed`), the idle timer of a channel at rest running
afresh (DEDUCED, log entry 20), on the awning not while the wind lockout runs (R139, R140). On a station in Run with a
pad the pad is wanted as R119 gives, and an unwanted one is off with its claim Idle. -/
def Obligations.DriveInputs : Prop :=
  ∀ (s : State) (a : Bool), s.Fits →
    let padFits := fun t : State => s.seq.fns.heat = true → Item.padFitted s.seq.values = true → s.seq.phase = .run →
      t.climate.padWanted = ((s.usable.any fun u => u.withdrawn && decide (u.tc < 5))
          && (t.pins.eng || t.pins.chgav || s.entries.any Entry.showsCharge))
        ∧ (t.climate.padWanted = false → t.climate.pad = false ∧ (t.claim loadPad).st = .idle)
    (∃ t, exec (.engChange a) s = .next t
        ∧ (s.pins.eng = a → s.handedOver t)
        ∧ (s.pins.eng ≠ a → s.seq.phase = .reset → (s.setPins { s.pins with eng := a }).handedOver t)
        ∧ (s.pins.eng ≠ a → s.seq.phase ≠ .reset → Warm (s.setPins { s.pins with eng := a }) t ∧ padFits t
            ∧ t.view = { s.view with
              driveSetWait := if a = true ∧ s.view.localDrive = false then some 1000 else none
              driveClearWait := if a = false ∧ s.view.localDrive = true then some 3000 else none }))
      ∧ (s.view.driveSetWait.isSome = true → ∃ t, exec .localDriveSet s = .next t ∧ t.pins = s.pins
        ∧ t.view = { s.view with localDrive := true, driveSetWait := none, driveAccepted := true }
        ∧ t.seq = { s.seq with storage := if s.view.driveAccepted = true then s.seq.storage else false }
        ∧ (s.view.driveAccepted = true ∨ s.motionRuns = false → ∀ ch, t.chan ch = s.chan ch)
        ∧ (s.view.driveAccepted = false → s.motionRuns = true → ∀ ch, s.meetsNeed t ch)
        ∧ (s.view.driveAccepted = false → ∀ ch, (t.chan ch).pending ≠ .extend ∧ (t.chan ch).followOn ≠ .extend
            ∧ ((s.chan ch).st = .retracted → (t.chan ch).st = .retracted ∧ ((s.chan ch).pending = .extend →
                (t.chan ch).pending = .none ∧ (t.claim (loadMotor ch)).st = .idle))))
      ∧ (s.view.driveClearWait.isSome = true → ∃ t, exec .localDriveClear s = .next t ∧ t.pins = s.pins
        ∧ (let d := s.entries.any Entry.showsDrive;
          t.view = { s.view with localDrive := false, driveClearWait := none, driveAccepted := d }
            ∧ t.seq = { s.seq with storage := if d = true ∧ s.view.driveAccepted = false then false else s.seq.storage }
            ∧ (d = s.view.driveAccepted ∨ s.motionRuns = false → ∀ ch, t.chan ch = s.chan ch)
            ∧ (s.view.driveAccepted = false → d = true → s.motionRuns = true → ∀ ch, s.meetsNeed t ch)
            ∧ (s.view.driveAccepted = true → d = false → s.motionRuns = true → ∀ ch,
                if ch = 1 ∧ s.motion.windLockout.isSome = true then t.chan ch = s.chan ch else s.losesNeed t ch)))
      ∧ ∃ t, exec (.chgavChange a) s = .next t ∧ Warm (s.setPins { s.pins with chgav := a }) t ∧ t.view = s.view
        ∧ padFits t

/-! ### Charge accounting (R1 to R29) -/

/-- An accounting interval on the supply station, in a state that fits (R2 to R5, R7 to R26, R28, R48). The samples are
clamped; the increment, with the remainder while charging, is added and Q clamped to 0 to Qfull,
unless an anchor completes: the full anchor sets Q to Qfull, both clear r and set Anchored. A clamp sets the Full or
the Empty marker, which clears when a sum or an anchor leaves Q off its bound; the trend is At Bound while one is set,
and else the current's. The rest anchor takes its state of charge from the open-circuit table: a point's at or outside the
ends, and between two points the part of the way truncated toward zero. Low Voltage, Overdraw and Overrange follow their
counts and the summary follows them; the permit is withdrawn below freezing on a lithium bank, and CHGINH with it. Every
count goes up by one while its condition holds, and is 0 when it breaks or completes. The figures posted are those of the
rules, the shed level follows the two monitors, and the Broker takes it as the level in force. The cell holds the counter,
and the next interval is 100 ms away. A change of the level in Run hands over SHED at once, with its cause as log entry 3
codes it, and its 200 ms begin, or end with the level 0; a change of Low Voltage or of the permit, or the first interval
after a change of mode, hands over SUPPLY at once and its period begins. A Fresh or Aging SUPPLY of subject 0 declares Role
Clash (R58, R174: SUPPLY has no other subject). -/
def Obligations.AccountingInterval : Prop :=
  ∀ (s : State) (rawI rawV rawT : Int), s.Fits → s.seq.fns.supply = true → s.supply.intervalTimer.isSome = true →
    ∃ t, exec (.accountingInterval rawI rawV rawT) s = .next t ∧
      let v := s.seq.values;
      let i : Int := max (-50000) (min rawI 50000);
      let volts : Int := max 0 (min rawV 20000);
      let temp : Int := max (-400) (min rawT 850);
      let full := v.get 0 * 3600000;
      let charge := i.toNat * v.get 2 + s.supply.r;
      let sum : Int := s.supply.q + (if 0 < i then ((charge / 100 : Nat) : Int) else i);
      let fullAnchor := (v.get 7 : Int) ≤ volts ∧ 0 < i ∧ i ≤ v.get 8 ∧ 3000 ≤ s.supply.fullCount + 1;
      let restAnchor := -20 ≤ i ∧ i ≤ 20 ∧ 18000 ≤ s.supply.restCount + 1;
      let u := t.supply;
      let derate : Nat := if 20 ≤ temp / 10 then 1000
        else (max 500 (1000 - (if v.get 1 = 1 then 3 else 8) * (20 - temp / 10)) : Int).toNat;
      let cuse := full * derate / 1000;
      let soc := (u.q - (full - cuse)) * 1000 / cuse;
      let h := if u.lowVoltage = true then 0 else if v.get 3 + 100 ≤ soc then v.get 4
        else if v.get 3 < soc then v.get 4 * (soc - v.get 3) / 100 else 0;
      let excess : Bool := decide (((h + v.get 5 : Nat) : Int) < -i);
      let beyond : Bool := decide (rawI < -50000) || decide (50000 < rawI);
      let newly : Bool := (u.overdraw && !s.supply.overdraw) || (u.lowVoltage && !s.supply.lowVoltage);
      let up := fun (limit : Nat) (holds : Bool) (c : Nat) => if holds = true ∧ c + 1 < limit then c + 1 else 0;
      let low : Bool := if s.supply.lowVoltage = true then decide ((v.get 6 : Int) + 300 ≤ volts) else decide (volts < v.get 6);
      let strained : Bool := if s.supply.overdraw = true then !excess else excess;
      let pv := fun k : Fin 8 => v.get ⟨10 + k.val, by omega⟩ / 65536;
      let pm := fun k : Fin 8 => v.get ⟨10 + k.val, by omega⟩ % 65536;
      t.pins = s.pins ∧ t.view = s.view ∧ t.seq = s.seq ∧ u.intervalTimer = some 100
        ∧ (¬ fullAnchor → ¬ restAnchor → (u.q : Int) = max 0 (min sum full)
            ∧ (u.r : Int) = (if 0 < i then ((charge % 100 : Nat) : Int) else s.supply.r) ∧ u.anchored = s.supply.anchored)
        ∧ (fullAnchor → u.q = full ∧ u.r = 0 ∧ u.anchored = true)
        ∧ (¬ fullAnchor → restAnchor → u.r = 0 ∧ u.anchored = true ∧ ∃ at_ : Nat, u.q = at_ * full / 1000
            ∧ (volts ≤ pv 0 → at_ = pm 0) ∧ ((pv 7 : Int) ≤ volts → at_ = pm 7)
            ∧ ∀ k : Fin 7, (pv k.castSucc : Int) ≤ volts → volts < pv k.succ →
                (at_ : Int) = pm k.castSucc + (((pm k.succ : Int) - pm k.castSucc) * (volts - pv k.castSucc)).tdiv
                  ((pv k.succ : Int) - pv k.castSucc))
        ∧ (fullAnchor ∨ restAnchor → u.fullCount = 0 ∧ u.restCount = 0)
        ∧ (¬ fullAnchor → ¬ restAnchor →
            u.fullCount = (if (v.get 7 : Int) ≤ volts ∧ 0 < i ∧ i ≤ v.get 8 then s.supply.fullCount + 1 else 0)
              ∧ u.restCount = if -20 ≤ i ∧ i ≤ 20 then s.supply.restCount + 1 else 0)
        ∧ t.cell = { s.cell with q := u.q, r := u.r, anchored := u.anchored, capKept := t.cell.capKept }
        ∧ u.lowVoltage = (if s.supply.lowVoltage = true then !(low && decide (50 ≤ s.supply.lowVoltageCount + 1))
            else low && decide (5 ≤ s.supply.lowVoltageCount + 1))
        ∧ u.lowVoltageCount = up (if s.supply.lowVoltage = true then 50 else 5) low s.supply.lowVoltageCount
        ∧ u.overdraw = (if s.supply.overdraw = true then !(strained && decide (30 ≤ s.supply.overdrawCount + 1))
            else strained && decide (10 ≤ s.supply.overdrawCount + 1))
        ∧ u.overdrawCount = up (if s.supply.overdraw = true then 30 else 10) strained s.supply.overdrawCount
        ∧ u.overrange = (if s.supply.overrange = true then !(!beyond && decide (10 ≤ s.supply.overrangeCount + 1))
            else beyond)
        ∧ u.overrangeCount = up 10 (s.supply.overrange && !beyond) s.supply.overrangeCount
        ∧ u.roleClash = s.entries.any (fun e => e.kind == .supply && e.subject == 0 && e.fresh.live)
        ∧ u.permit = (if v.get 1 = 1 then (if s.supply.permit = true then decide (0 ≤ temp)
            else decide (20 ≤ temp) && decide (50 ≤ s.supply.permitCount + 1)) else true)
        ∧ u.permitCount = up 50 (decide (v.get 1 = 1) && !s.supply.permit && decide (20 ≤ temp)) s.supply.permitCount
        ∧ u.chginh = !u.permit
        ∧ (∀ n : Fin 4, let old := [s.supply.overrange, s.supply.lowVoltage, s.supply.overdraw, s.supply.roleClash].getD n.val false;
            let new := [u.overrange, u.lowVoltage, u.overdraw, u.roleClash].getD n.val false;
            let place : Fin 19 := ⟨n.val, by omega⟩;
            t.status.summary.get place = if old = new then s.status.summary.get place else new)
        ∧ u.level = (if newly = true then min 6 (s.supply.level + 1)
            else if u.overdraw = true ∨ u.lowVoltage = true then
              (if 10 ≤ s.supply.escalation + 1 then min 6 (s.supply.level + 1) else s.supply.level)
            else if 100 ≤ s.supply.recovery + 1 then s.supply.level - 1 else s.supply.level)
        ∧ (newly = true → u.escalation = 0)
        ∧ (newly = false → u.overdraw = true ∨ u.lowVoltage = true → u.escalation = up 10 true s.supply.escalation)
        ∧ u.recovery = (if newly = true ∨ u.overdraw = true ∨ u.lowVoltage = true then 0
            else up 100 (decide (0 < s.supply.level)) s.supply.recovery)
        ∧ t.broker.level = u.level ∧ u.onNext = false
        ∧ (let f := decide (full < sum) || (s.supply.full && decide (full ≤ sum));
            let e := decide (sum < 0) || (s.supply.empty && decide (sum ≤ 0));
            u.full = (if ¬ fullAnchor ∧ restAnchor then f && decide (u.q = full) else f)
              ∧ u.empty = (if fullAnchor then false else if restAnchor then e && decide (u.q = 0) else e))
        ∧ (∃ f, u.latest = some f ∧ f.full = u.full ∧ f.empty = u.empty
            ∧ f.trend = (if u.full = true ∨ u.empty = true then .atBound else if 20 < i then .charging
                else if i < -20 then .discharging else .rest)
            ∧ f.q = u.q ∧ f.r = u.r ∧ f.tc = temp / 10 ∧ f.cuse = cuse ∧ f.soc = soc ∧ f.h = h
            ∧ f.permit = u.permit ∧ f.anchored = u.anchored ∧ f.level = u.level ∧ f.lowVoltage = u.lowVoltage
            ∧ f.overdraw = u.overdraw ∧ f.overrange = u.overrange ∧ f.roleClash = u.roleClash ∧ f.avail = u.q - (full - cuse)
            ∧ (if s.seq.phase = .run ∧ u.level ≠ s.supply.level then
                t.periods.shed = (if 0 < u.level then some 200 else none) ∧ t.bus.carries f.shedRecord
              else t.periods.shed = s.periods.shed)
            ∧ (if s.seq.phase = .run ∧ (u.lowVoltage ≠ s.supply.lowVoltage ∨ u.permit ≠ s.supply.permit
                  ∨ s.supply.onNext = true) then
                t.periods.supply = some (if s.seq.storage = true then 2500 else 500)
                  ∧ ((∀ id, (s.claim id).st = .idle) → v.get 28 = 0 → s.bus.periodic.length ≤ 3 → t.bus.carries f.supplyRecord)
              else t.periods.supply = s.periods.supply))

/-- The state of charge (R11): the charge that cannot be reached, Qfull − C_use, is taken off the bottom; A is what is left
of Q, or 0; the state of charge is A × 1000 / C_use, truncated. A never exceeds C_use, the state of charge runs from 0 to
1000, and C_use is not zero. A full bank shows 1000 at any temperature, one at or below the inaccessible part shows 0, and
warming the bank, Q standing, lowers the inaccessible part and never lowers the state of charge. -/
def Obligations.StateOfCharge : Prop :=
  ∀ (v : Values) (q : Nat) (temp warmer : Int), v.fit → q ≤ qFull v → temp ≤ warmer →
    let full := v.get 0 * 3600000
    let cuse := usableCapacity v temp
    let a := available v q temp
    let soc := stateOfCharge v q temp
    qFull v = full ∧ 72000000 ≤ full ∧ 500 ≤ derating (Item.lithium v) (wholeDegrees temp)
      ∧ cuse = full * derating (Item.lithium v) (wholeDegrees temp) / 1000 ∧ cuse ≠ 0 ∧ cuse ≤ full
      ∧ (full - cuse ≤ q → a + (full - cuse) = q) ∧ (q ≤ full - cuse → a = 0 ∧ soc = 0)
      ∧ soc = a * 1000 / cuse ∧ a ≤ cuse ∧ soc ≤ 1000 ∧ (q = full → soc = 1000)
      ∧ full - usableCapacity v warmer ≤ full - cuse ∧ soc ≤ stateOfCharge v q warmer

/-! ### The Load Broker (R30 to R55) -/

/-- A SHED record that is let in, in a state that fits (R40, R48, R49, R50, R144, R155). It is ignored unless a SUPPLY
subject 0 of its station stands Fresh, Aging or Held (the subject is DEDUCED, log entry 32). Otherwise its level, at
most 6, is the station's remembered level, the level in force is the one of the usable SUPPLY's station, or the supply
station's own, and the light ceiling follows. A Held claim whose rank yields to that level gives way in the same
event, the heater and the lights to rank 0, the pad and the pump by release, a Forced claim stays, and no Held claim
has a rank of 7 less the level or more. A motor claim is released where its channel extends, which then brakes, or
waits to extend, and kept at rank 0 where it comes home or is about to. A contest at such a rank ends: a standing ask
waits, a light group is Idle with nothing pending, a frost cycle is postponed, and, while frost service stands, the
heater's Try, which is at rank 1 in such a state (R111), is followed by a standing Ask at rank 1. -/
def Obligations.ShedReceived : Prop :=
  ∀ (s : State) (n k l c : Nat), s.Fits → s.brings n { subject := k, payload := .shed { level := l, cause := c } } →
    ∃ t, exec .shedReceived s = .next t ∧
      let source := s.entries.any fun e => e.kind == .supply && e.subject == 0 && e.station == n && e.fresh != .stale;
      (source = false → s.taken.handedOver t)
        ∧ (source = true → t.view = s.view ∧ t.pins = s.pins ∧ t.supply = s.supply ∧ t.seq = s.seq
            ∧ t.broker.remembered = s.broker.remembered.set (stationIx n) (min l 6)
            ∧ t.broker.level = (if s.seq.fns.supply = true then s.supply.latest.elim 0 (·.level)
                else s.peerUsable.elim 0 fun u => t.broker.remembered.get (stationIx u.station))
            ∧ t.lights.ceiling = (if s.seq.storage = true then 0 else if t.broker.level = 0 then 1000
                else if t.broker.level = 1 then 250 else 0)
            ∧ ∀ id, ((t.claim id).st = .held → (t.claim id).rank + t.broker.level < 7)
                ∧ ((s.claim id).st = .forced → t.claim id = s.claim id)
                ∧ ((s.claim id).st = .held → s.broker.level < t.broker.level →
                    7 ≤ (s.claim id).rank + t.broker.level →
                    (id = loadPad ∨ id = loadPump → (t.claim id).st ≠ .held)
                      ∧ (id = loadHeater → (t.claim id).st = .held ∧ (t.claim id).rank = 0)
                      ∧ (5 ≤ id.val → (t.claim id).st = .held → (t.claim id).rank = 0)
                      ∧ ∀ ch, id = loadMotor ch → let c := s.chan ch;
                        (c.st = .extending → (t.claim id).st = .idle ∧ t.chan ch = { c with
                            st := .braking, bridge := .short, pending := .none, followOn := .none, req := 0,
                            travel := none, stall := none, dwell := some 300 })
                          ∧ (c.st = .retracting ∨ c.st = .backoff ∨ c.followOn = .retract ∨ c.followOn = .backoff →
                              (t.claim id).st = .held ∧ (t.claim id).rank = 0 ∧ (t.claim id).held = (s.claim id).held
                                ∧ t.chan ch = c)
                          ∧ (c.followOn = .extend → (t.claim id).st = .idle ∧ t.chan ch = c))
                  ∧ ((s.claim id).st = .contest → s.broker.level < t.broker.level →
                      7 ≤ (s.claim id).rank + t.broker.level →
                      ((s.claim id).single = false →
                          (id = loadHeater → (s.claim id).rank = s.heaterRank ∧ s.water.demand = false) →
                        t.claim id = { s.claim id with st := .waiting, held := 0, raise := false, announcing := false, window := none })
                      ∧ (5 ≤ id.val → (t.claim id).st = .idle
                          ∧ (t.group (if id = loadLights 0 then 0 else 1)).pending = none)
                      ∧ (id = loadPump → s.water.cycle = .asking → t.water.cycle = .timing
                          ∧ t.water.owed = min 4 (s.water.owed + 1))
                      ∧ (id = loadHeater → (s.claim id).single = true → s.climate.frost = true → s.water.demand = false →
                          (t.claim id).st = .waiting ∧ (t.claim id).rank = 1 ∧ (t.claim id).single = false)))

/-- The window of a contest ends, in a state that fits (R39, R51, R92 to R94, R111, R112, R119, R130, R152, R153): the
pre-test, worked again at the contest's rank with its asked amount, decides. Failed, a standing ask waits and nothing
else changes, the Try of a frost cycle is postponed, owed by one more up to 4, the heater, with frost service active,
makes a standing Ask at rank 1 after a Try or a contest at rank 4, and a light group goes on to the first scaled
request below its scale that fits or passes the pre-test, or ends Refused. Passed, the owner goes ahead. The pad comes
on; the heater is Starting unless its running or fault input is asserted already; a cycle that asks circulates for 120
s; the pump runs for the tap; a pending Extend or Retract that nothing refuses starts; a light group's request takes
its targets and shows its scale. -/
def Obligations.ContestWindowDecides : Prop :=
  ∀ (s : State) (id : Fin 7), s.Fits → (s.claim id).window.isSome = true →
    ∃ t, exec (.contestWindowEnd id) s = .next t ∧
      let c := s.claim id;
      let won := s.passes id (askRank id c) c.asked;
      t.view = s.view ∧ t.pins = s.pins ∧ t.supply = s.supply ∧ t.seq = s.seq
        ∧ (won = false → c.st = .contest → c.single = false → (id = loadHeater → c.rank = s.heaterRank) →
            (s.setClaim id { c with st := .waiting, held := 0, raise := false, announcing := false, window := none }).handedOver t)
        ∧ (won = false → id = loadPump → s.water.cycle = .asking →
            t.water.cycle = .timing ∧ t.water.owed = min 4 (s.water.owed + 1) ∧ t.water.demand = false
              ∧ t.water.dueTimer = some (Item.frostIntervalMs s.seq.values))
        ∧ (won = false → id = loadHeater → c.single = true ∨ c.rank = 4 → s.climate.frost = true →
            let d := t.claim id;
            d.rank = 1 ∧ d.single = false ∧ d.asked = s.seq.values.get 26 ∧ t.climate.heater = .off
              ∧ d.st = if s.passes id 1 (s.seq.values.get 26) = true then .contest else .waiting)
        ∧ (won = true → (id = loadPad → t.climate.pad = true ∧ (t.claim id).st = .held ∧ (t.claim id).held = c.asked)
            ∧ (id = loadHeater → c.rank = s.heaterRank → s.pins.hrun = false → s.pins.hflt = false →
                t.climate.heater = .starting ∧ t.climate.hen = true ∧ t.climate.startTimer = some 180000
                  ∧ (t.claim id).st = .held ∧ (t.claim id).held = c.asked ∧ (t.claim id).rank = c.rank)
            ∧ (id = loadPump → (t.claim id).st = .held ∧ (t.claim id).held = c.asked
                ∧ (s.water.cycle = .asking → t.water.cycle = .circulating ∧ t.water.circTimer = some 120000
                    ∧ t.water.demand = true ∧ t.water.pump = (s.freshOk && s.valveClosed))
                ∧ (s.water.cycle ≠ .asking → t.water.cycle = s.water.cycle ∧ t.water.pump = s.demandWants))
            ∧ (∀ ch, id = loadMotor ch → (s.chan ch).calTimer = none →
                ((s.chan ch).pending = .extend → s.extendRefusal ch = none → s.pins.ee.get ch = false →
                  (t.chan ch).st = .extending ∧ (t.chan ch).bridge = .extend ∧ (t.chan ch).pending = .none
                    ∧ (t.chan ch).travel = some (Item.travelMs s.seq.values ch) ∧ (t.claim id).st = .held)
                ∧ ((s.chan ch).pending = .retract → s.pins.hold = false → s.pins.er.get ch = false →
                  (t.chan ch).st = .retracting ∧ (t.chan ch).bridge = .retract ∧ (t.chan ch).pending = .none
                    ∧ (t.chan ch).travel = some (Item.travelMs s.seq.values ch) ∧ (t.claim id).st = .held))
            ∧ (∀ g r, id = loadLights g → (s.group g).pending = some r → s.lights.due = .none →
                (t.group g).pending = none ∧ (t.group g).result = resultOf r.scale
                  ∧ ∀ k, (t.light (groupChan g k)).target = r.trial.get k))
        ∧ (∀ g r, won = false → id = loadLights g → (s.group g).pending = some r → s.lights.due = .none → c.held < 30000 →
            s.scalesDown t g r.want r.scale)

/-- The operations an owner reaches its claim through, in a sound state (R33, R34, R37, R38, R40, R42 to R44, R46,
R47).
An ask of rank 1 to 6 by an owner that draws nothing starts a contest where the pre-test passes; else a Try is refused
and leaves the claim Idle, and a standing ask waits. An ask at rank 0 is Held at once; one of a claim that draws is
refused and changes nothing (DEDUCED, log entry 14). A Release leaves the claim Idle. A Lower takes the smaller amount
at once. A Raise that the pre-test passes contests the new total and keeps the old amount, and one that it fails is
refused. A Re-rank of a Waiting claim takes the rank and works the pre-test at it at once; of a Held one it takes the rank
at once, with all the rest of the claim, a pending raise's contest included, as it was, and hands over its DRAW with the
new rank, and where the new rank is the weaker one and yields to the level in force the owner is told to yield; to the rank
it has it changes nothing (DESIGN CHOICE, log entry 80). A Force is granted at rank 1 when no SUPPLY is usable or its state of charge is at the floor or above; of a
claim already Forced it is granted again at the new amount, or refused with the claim kept (DESIGN CHOICE, log entry
47). No other claim changes but a Waiting one that is tested again. -/
def Obligations.BrokerOperations : Prop :=
  ∀ (s : State) (id : Fin 7) (rank a : Nat) (single : Bool), s.Sound → 1 ≤ a → a ≤ 30000 →
    let c := s.claim id;
    let others := fun t : State => ∀ j, j ≠ id → (s.claim j).st ≠ .waiting → t.claim j = s.claim j;
    (c.drawing = false → 1 ≤ rank → rank ≤ 6 → let x := s.ask id rank a single;
        others x.1 ∧ x.1.view = s.view ∧
        if s.passes id rank a = true then
          x.2 = .none ∧ x.1.claim id =
            ⟨rank, .contest, 0, a, single, false, true, none, s.broker.nextSerial⟩
        else if single = true then x.2 = .refused ∧ (x.1.claim id).st = .idle ∧ (x.1.claim id).held = 0
        else x.2 = .none ∧ (x.1.claim id).st = .waiting ∧ (x.1.claim id).asked = a ∧ (x.1.claim id).rank = rank
          ∧ (x.1.claim id).held = 0)
      ∧ (c.drawing = false → let x := s.ask id 0 a single;
        x.2 = .granted ∧ (x.1.claim id).st = .held ∧ (x.1.claim id).held = a ∧ (x.1.claim id).rank = 0 ∧ others x.1)
      ∧ (c.drawing = true → s.ask id rank a single = (s, .refused))
      ∧ (c.st ≠ .idle → let t := s.release id;
        (t.claim id).st = .idle ∧ (t.claim id).held = 0 ∧ (t.claim id).asked = 0 ∧ others t ∧ t.view = s.view)
      ∧ (c.drawing = true → a ≤ c.held → let x := s.lower id a;
        x.2 = .none ∧ x.1.claim id = { c with held := a, asked := a, raise := false, announcing := false, window := none }
          ∧ others x.1)
      ∧ (c.st = .held → c.held < a → c.rank ≠ 0 ∨ 5 ≤ id.val → let x := s.raise id a;
        (x.1.claim id).st = .held ∧ (x.1.claim id).held = c.held ∧ others x.1
          ∧ if s.passes id (askRank id c) a = true then
              x.2 = .none ∧ (x.1.claim id).raise = true ∧ (x.1.claim id).asked = a ∧ (x.1.claim id).announcing = true
            else x.2 = .refused ∧ (x.1.claim id).raise = false)
      ∧ (1 ≤ rank → rank ≤ 6 → c.st = .waiting → let x := s.rerank id rank;
        x.2 = .none ∧ others x.1 ∧ x.1.claim id =
          if s.passes id rank c.asked = true then
            ⟨rank, .contest, 0, c.asked, c.single, false, true, none, s.broker.nextSerial⟩
          else { c with rank := rank, st := .waiting, held := 0, raise := false, announcing := false, window := none })
      ∧ (rank ≤ 6 → c.st = .held → let x := s.rerank id rank;
        let d := { c with rank := rank };
        x.1.claim id = d ∧ (∀ j, j ≠ id → x.1.claim j = s.claim j) ∧ x.1.broker.level = s.broker.level
          ∧ x.2 = (if c.rank < rank ∧ 7 ≤ rank + s.broker.level then .yield else .none)
          ∧ (rank = c.rank → x.1 = s)
          ∧ (rank ≠ c.rank → s.bus.periodic.length ≤ 7 → x.1.bus.carries { subject := id.val, payload := .draw (DrawRec.mk
              c.held (if c.raise = true then c.asked else c.held) rank (if c.raise = true then 1 else 2)) }))
      ∧ (let x := s.force id a;
        others x.1 ∧ if (s.usable.all fun u => decide (Item.floorF s.seq.values ≤ u.soc)) = true then
          x.2 = .granted ∧ (x.1.claim id).st = .forced ∧ (x.1.claim id).held = a ∧ (x.1.claim id).rank = 1
        else x.2 = .refused ∧ (c.drawing = true → x.1.claim id = c) ∧ (c.drawing = false → (x.1.claim id).st = .idle))

/-! ### Water and the frost guard (R81 to R103) -/

/-- A reading event of the Water Manager, in a state that fits (R81 to R85, R90 to R92, R94, R97, R98). Each fitted tank's level
is worked out by its two points and published when it agrees with the reading before within 20 and drive is not
accepted; an unfitted one's stays. Each tank monitor and the frost guard turn at their counts, which go up by one at a
reading in the counted condition and are 0 after one outside it, one at an Unknown level, and one that completes them. In
Run, the fifth counted reading of a declared guard, a closed valve, water at 0.5 °C or below, a level above 30 and no heater
known to run opens the dump valve: Drained, nothing owed; otherwise the command stands. A reading that declares the guard
and does not open the valve begins frost cycling: Drained where the valve is not closed; before Run, Timing with the first
cycle due on entry into Run; in Run that cycle is taken at once: skipped with the fresh level under 30 or Unknown, on a
claim Held for the tap, by a Try at rank 1, or postponed where its pre-test fails. The next reading is 1 s away. That a
CLIMATE record shows Running by the code 2 is the model's choice (DESIGN CHOICE, log entry 3). -/
def Obligations.WaterReading : Prop :=
  ∀ (s : State) (raw : Fin 3 → Nat) (temp : Fin 3 → Int), s.Fits → s.waterActs = true → s.water.readTimer.isSome = true →
    ∃ t, exec (.waterReadingEvent (raw 0) (raw 1) (raw 2) (temp 0) (temp 1) (temp 2)) s = .next t ∧
      let cold : Int := max (-400) (min (temp 0) 850);
      Wet s t ∧ t.view = s.view ∧ t.water.readTimer = some 1000
        ∧ (∀ k, let old := s.water.tanks.get k;
            let new := t.water.tanks.get k;
            let e := Item.tankEmpty s.seq.values k;
            let full := Item.tankFull s.seq.values k;
            let cond : Bool := new.level.any fun l =>
              if k = 0 then (if old.declared = true then decide (150 ≤ l) else decide (l < 100))
              else if old.declared = true then decide (l < 850) else decide (900 ≤ l);
            new.temp = max (-400) (min (temp k) 850) ∧ (e = full → new.level = old.level ∧ new.prev = old.prev)
              ∧ (e ≠ full → let x := (max 0 (min ((((raw k : Int) - e) * 1000).tdiv ((full : Int) - e)) 1000)).toNat;
                  new.prev = some x
                    ∧ new.level = if s.view.driveAccepted = false
                        ∧ (old.prev.any fun p => decide (x ≤ p + 20) && decide (p ≤ x + 20)) = true
                      then some x else old.level)
              ∧ new.declared = (old.declared != (cond && decide (3 ≤ old.count + 1)))
              ∧ new.count = (if cond = true ∧ old.count + 1 < 3 then old.count + 1 else 0)
              ∧ (new.declared ≠ old.declared → t.status.summary.get (Mon.tank k) = new.declared))
        ∧ t.water.guard = (if s.water.guard = true
            then !(decide (50 ≤ cold) && decide (10 ≤ s.water.guardCount + 1))
            else decide (cold < 30) && decide (3 ≤ s.water.guardCount + 1))
        ∧ t.water.guardCount = (if s.water.guard = true
            then (if 50 ≤ cold ∧ s.water.guardCount + 1 < 10 then s.water.guardCount + 1 else 0)
            else if cold < 30 ∧ s.water.guardCount + 1 < 3 then s.water.guardCount + 1 else 0)
        ∧ (t.water.guard ≠ s.water.guard → t.status.summary.get Mon.frostGuard = t.water.guard)
        ∧ (let heater : Bool := (s.seq.fns.heat && s.climate.heater == .running) || s.entries.any Entry.showsHeater;
            let counted : Bool := s.inRun && t.water.guard && s.valveClosed && decide (cold ≤ 5) && !heater
              && ((t.water.tanks.get 0).level.any fun l => decide (30 < l));
            if counted = true ∧ 5 ≤ s.water.dumpCount + 1 then
              t.water.dumpCmdOpen = true ∧ t.water.dumpDrive = .toOpen ∧ t.water.cycle = .drained ∧ t.water.owed = 0
                ∧ t.water.dumpCount = 0 ∧ t.water.pump = false ∧ (t.claim loadPump).st = .idle
            else t.water.dumpCmdOpen = s.water.dumpCmdOpen ∧ (s.inRun = true →
                t.water.dumpCount = if counted = true then s.water.dumpCount + 1 else 0)
              ∧ (s.water.guard = false → t.water.guard = true →
                let fresh := (t.water.tanks.get 0).level.any fun l => decide (30 ≤ l);
                let interval := s.seq.values.get 21 * 60000;
                let draw := s.seq.values.get 25;
                let c := s.claim loadPump;
                let d := t.claim loadPump;
                if s.valveClosed = false then
                  t.water.cycle = .drained ∧ t.water.owed = 0 ∧ t.water.pump = false ∧ d.st = .idle
                else if s.inRun = false then
                  t.water.cycle = .timing ∧ t.water.dueOnRun = true ∧ t.water.owed = 0 ∧ d.st = .idle
                else if fresh = false then
                  t.water.cycle = .timing ∧ t.water.dueTimer = some interval ∧ t.water.owed = 0
                else if c.st = .held then
                  t.water.cycle = .circulating ∧ t.water.circTimer = some 120000 ∧ t.water.demand = true
                    ∧ t.water.pump = true ∧ t.water.owed = 0 ∧ d = { c with rank := 1 }
                else if s.passes loadPump 1 draw = true then
                  t.water.cycle = .asking ∧ t.water.owed = 0 ∧ d.st = .contest ∧ d.rank = 1 ∧ d.asked = draw
                    ∧ d.single = true
                else t.water.cycle = .timing ∧ t.water.dueTimer = some interval ∧ t.water.owed = 1
                  ∧ t.water.demand = false))

/-- The tap's switch, the runaway count and ClearPump, in a state that fits (R86 to R89). A change of PDEM is taken;
with no cycle holding the claim, a demand that does not want the pump leaves it off with its claim Idle, one that
wants it and has no claim asks at rank 5 for the rated draw, contesting where the pre-test passes and waiting
otherwise, and one with its claim Held runs the pump. The end of the runaway count stops the pump, leaves its claim
Idle and declares Pump Runaway. ClearPump is answered Absent, Phase or Accepted; accepted it clears Pump Runaway, and
a tap still open, with its conditions met and no claim, makes a standing Ask at rank 5 at once; where Pump Runaway is
clear nothing changes. That PDEM at the level already present works the demand out again is the model's choice (DESIGN
CHOICE, log entry 33). -/
def Obligations.PumpCommands : Prop :=
  ∀ (s : State) (a : Bool), s.Fits →
    (∃ t, exec (.pdemChange a) s = .next t ∧ Wet (s.setPins { s.pins with pdem := a }) t ∧ t.view = s.view
        ∧ t.water.cycle = s.water.cycle ∧ (s.seq.fns.water = false ∨ s.inRun = false ∨ s.water.cycle.holdsClaim = true →
            t.broker = s.broker)
        ∧ (s.seq.fns.water = true → s.inRun = true → s.water.cycle.holdsClaim = false →
            if (a && !s.water.runaway && s.freshOk && s.valveClosed) = true then
              if (s.claim loadPump).st = .idle then
                (t.claim loadPump).rank = 5 ∧ (t.claim loadPump).asked = s.seq.values.get 25 ∧ t.water.pump = false
                  ∧ (t.claim loadPump).st =
                    if s.passes loadPump 5 (s.seq.values.get 25) = true then .contest else .waiting
              else t.claim loadPump = s.claim loadPump ∧ t.water.pump = decide ((s.claim loadPump).st = .held)
            else (t.claim loadPump).st = .idle ∧ t.water.pump = false))
      ∧ (s.water.runawayTimer.isSome = true → ∃ t, exec .runawayCountExpiry s = .next t ∧ Wet s t ∧ t.view = s.view
        ∧ t.water.runaway = true ∧ t.water.pump = false ∧ t.water.runawayTimer = none ∧ (t.claim loadPump).st = .idle
        ∧ t.status.summary.get Mon.pumpRunaway = true ∧ t.status.attention = true ∧ t.water.cycle = s.water.cycle)
      ∧ ∀ i v, s.asks 12 i v → ∃ t, exec .clearPump s = .next t
        ∧ (s.seq.fns.water = false → (s.taken.answered 12 3).handedOver t)
        ∧ (s.seq.fns.water = true → s.seq.phase ≠ .run → (s.taken.answered 12 10).handedOver t)
        ∧ (s.seq.fns.water = true → s.seq.phase = .run → if s.water.runaway = true then
              Wet s t ∧ t.view = s.view ∧ t.shows 12 1 ∧ t.water.runaway = false
                ∧ t.status.summary.get Mon.pumpRunaway = false ∧ (s.demandWants = false → s.pins.pdem = true →
                  s.freshOk = true → s.valveClosed = true → (t.claim loadPump).st ≠ .idle ∧ ((s.claim loadPump).st = .idle →
                    (t.claim loadPump).rank = 5 ∧ (t.claim loadPump).single = false
                      ∧ (t.claim loadPump).asked = s.seq.values.get 25 ∧ (t.claim loadPump).st =
                        if s.passes loadPump 5 (s.seq.values.get 25) = true then .contest else .waiting))
            else (s.taken.answered 12 1).handedOver t)

/-- A due frost cycle, and the end of one, in a state that fits in Run (R47, R92 to R94, R96, R98). With the fresh
level under 30 or Unknown the cycle is skipped. With fewer than four owed, a claim Held for the tap is taken over at
rank 1 and the cycle circulates; else a Try at rank 1 for the rated draw asks, or, where the pre-test fails, the cycle
is postponed and owed grows by one. With four owed the claim is Forced and the cycle circulates when no SUPPLY is
usable or the charge stands at the floor or above; else the dump valve opens. When the 120 s end, owed falls by one,
the next cycle is due 5 min later while any is owed and an interval later otherwise, the demand flag clears, and the
claim goes back to a tap that wants it, at rank 5, or is released. -/
def Obligations.FrostCycles : Prop :=
  ∀ (s : State), s.Fits → s.inRun = true →
    let interval := s.seq.values.get 21 * 60000;
    let draw := s.seq.values.get 25;
    let c := s.claim loadPump;
    (s.water.cycle = .timing → s.water.dueTimer.isSome = true → ∃ t, exec .frostDueTime s = .next t ∧
        Wet s t ∧ t.view = s.view ∧
        let circulates := t.water.cycle = .circulating ∧ t.water.circTimer = some 120000 ∧ t.water.demand = true
          ∧ t.water.owed = s.water.owed ∧ t.water.pump = s.valveClosed;
        let d := t.claim loadPump;
        if s.freshOk = false then
          t.water = { s.water with dueTimer := some interval, dueOnRun := false, circTimer := none } ∧ t.broker = s.broker
        else if s.water.owed < 4 then
          if c.st = .held then circulates ∧ d.st = .held ∧ d.held = c.held ∧ d.rank = 1
          else if s.passes loadPump 1 draw = true then
            t.water.cycle = .asking ∧ d.st = .contest ∧ d.rank = 1 ∧ d.asked = draw ∧ d.single = true
              ∧ t.water.owed = s.water.owed
          else t.water.cycle = .timing ∧ t.water.owed = s.water.owed + 1 ∧ t.water.dueTimer = some interval
            ∧ t.water.demand = false ∧ (s.demandWants = true → d.st ≠ .idle ∧ d.rank = 5)
        else if (s.usable.all fun u => decide (s.seq.values.get 9 ≤ u.soc)) = true then
          circulates ∧ d.st = .forced ∧ d.held = draw ∧ d.rank = 1
        else t.water.cycle = .drained ∧ t.water.owed = 0 ∧ t.water.dumpCmdOpen = true ∧ t.water.dumpDrive = .toOpen
          ∧ t.water.pump = false ∧ d.st = .idle)
      ∧ (s.water.circTimer.isSome = true → ∃ t, exec .circulationTimerExpiry s = .next t ∧
        Wet s t ∧ t.view = s.view ∧ t.water.cycle = .timing ∧ t.water.owed = s.water.owed - 1 ∧ t.water.demand = false
          ∧ t.water.circTimer = none ∧ t.water.dueTimer = (if 1 < s.water.owed then some 300000 else some interval)
          ∧ (s.demandWants = false → (t.claim loadPump).st = .idle ∧ t.water.pump = false)
          ∧ (s.demandWants = true → c.st = .held → s.seq.storage = false → s.broker.level ≤ 1 →
              (t.claim loadPump).st = .held ∧ (t.claim loadPump).rank = 5 ∧ t.water.pump = true)
          ∧ (s.demandWants = true → c.st = .forced ∨ s.seq.storage = true ∨ 2 ≤ s.broker.level →
              (t.claim loadPump).rank = 5 ∧ t.water.pump = false
                ∧ ((t.claim loadPump).st = .waiting ∨ (t.claim loadPump).st = .contest)))

/-- The dump valve's feedback, its fault timer and CloseDump, in a state that fits (R98 to R100). A change of the
feedback is taken, and a feedback already at the level changes nothing (DESIGN CHOICE, log entry 33); out of reset on
a water station the 10 s of Valve Fault start afresh while command and feedback differ, and stop, Valve Fault
clearing, when they agree; while the guard is declared a valve that is not closed is Drained with nothing owed, and
one that becomes closed in Drained has its next cycle an interval away. The end of the 10 s declares Valve Fault and
no more, once: a Valve Fault already declared is not declared again (DEDUCED, log entry 23). CloseDump is answered
Absent, Phase, Frost below 3.0 °C, or Accepted; accepted with the command Open it commands and drives the valve closed
and starts the 10 s unless the valve reads closed, and otherwise changes nothing. -/
def Obligations.DumpValve : Prop :=
  ∀ (s : State) (b : Bool), s.Fits →
    (∃ t, exec (.dumpfbChange b) s = .next t ∧
        (s.pins.dumpOpen = b → s.handedOver t)
        ∧ (s.pins.dumpOpen ≠ b → s.waterActs = false → (s.setPins { s.pins with dumpOpen := b }).handedOver t)
        ∧ (s.pins.dumpOpen ≠ b → s.waterActs = true → Wet (s.setPins { s.pins with dumpOpen := b }) t ∧ t.view = s.view
            ∧ t.water.dumpCmdOpen = s.water.dumpCmdOpen ∧ t.water.guard = s.water.guard
            ∧ t.water.valveTimer = (if s.water.dumpCmdOpen = b then none else some 10000)
            ∧ t.water.valveFault = (s.water.valveFault && decide (s.water.dumpCmdOpen ≠ b))
            ∧ (t.water.valveFault ≠ s.water.valveFault → t.status.summary.get Mon.valveFault = false)
            ∧ (s.water.guard = true → s.water.dumpCmdOpen = true ∨ b = true →
                t.water.cycle = .drained ∧ t.water.owed = 0 ∧ t.water.demand = false)
            ∧ (s.water.cycle = .drained → s.water.dumpCmdOpen = false → b = false →
                t.water.cycle = .timing ∧ t.water.dueTimer = some (s.seq.values.get 21 * 60000))))
      ∧ (s.water.valveTimer.isSome = true → ∃ t, exec .valveFaultTimerExpiry s = .next t ∧
        Shared (s.setWater { s.water with valveFault := true, valveTimer := none }) t ∧ t.view = s.view
          ∧ t.broker = s.broker ∧ (s.water.valveFault = false → t.status.summary.get Mon.valveFault = true)
          ∧ (s.water.valveFault = true → t.status = s.status))
      ∧ ∀ i v, s.asks 11 i v → ∃ t, exec .closeDump s = .next t ∧
        (s.seq.fns.water = false → (s.taken.answered 11 3).handedOver t)
        ∧ (s.seq.fns.water = true → s.seq.phase ≠ .run → (s.taken.answered 11 10).handedOver t)
        ∧ (s.seq.fns.water = true → s.seq.phase = .run → (s.water.tanks.get 0).temp < 30 →
            (s.taken.answered 11 7).handedOver t)
        ∧ (s.seq.fns.water = true → s.seq.phase = .run → 30 ≤ (s.water.tanks.get 0).temp →
            (s.water.dumpCmdOpen = false → (s.taken.answered 11 1).handedOver t)
            ∧ (s.water.dumpCmdOpen = true → Wet s t ∧ t.view = s.view ∧ t.shows 11 1 ∧ t.water.dumpCmdOpen = false
                ∧ t.water.dumpDrive = .toClosed ∧ t.water.dumpCount = 0
                ∧ t.water.valveTimer = (if s.pins.dumpOpen = true then some 10000 else none)))

/-! ### Climate and the heater link (R104 to R123) -/

/-- Readings, setpoints and the mode, in a state that fits (R104 to R109, R111). A reading event takes both
temperatures, works out each zone's demand by R108 and, in Run, sets the call at a comfort demand of 10 or more and
clears it at the sixtieth demand of 0 in a row: while the call is set the count goes up by one at a demand of 0, and is 0
after any other and after the sixtieth. The next reading is 1 s away. SetSetpoint is answered Absent, Phase,
Range or Accepted, and SetClimateMode Absent, Phase, Range, Storage, Lockout or Accepted; what is taken acts, and is
kept in the cell, with the clamped setpoint's demand worked out and the call cleared, with its count, by any mode but Comfort; a change
to Comfort leaves it as it was, whatever the demand (DEDUCED, log entry 49). In Run, HDEM is then the heater demand
while Starting or Running, 0 otherwise; and, the purge aside, a heater no longer wanted purges and a wanted one that
is Off has a claim. -/
def Obligations.ClimateSettings : Prop :=
  ∀ (s : State), s.Fits →
    let comfort := fun t : State => if s.seq.storage = false ∧ t.climate.chosen = .comfort
      then max (t.climate.zones.get 0).demand (t.climate.zones.get 1).demand else 0;
    let per := fun (setpoint temp : Int) => max (0 : Int) (min (((setpoint - temp) * 25).tdiv 10) 100);
    let follows := fun t : State =>
      t.climate.hdem = (if t.climate.heater = .starting ∨ t.climate.heater = .running then
          (if t.climate.frost = true then max (comfort t) 30 else comfort t) else 0)
        ∧ (t.climate.heater = .starting ∨ t.climate.heater = .running → t.climate.call = true ∨ t.climate.frost = true)
        ∧ (t.climate.heater = .off → (t.climate.call = true ∨ t.climate.frost = true ↔ (t.claim loadHeater).st ≠ .idle))
        ∧ (s.climate.heater = .running → t.climate.heater = .purging →
            t.climate.hen = false ∧ t.climate.purgeTimer = some 180000 ∧ (t.claim loadHeater).held ≤ s.seq.values.get 27);
    (∀ temp : Fin 2 → Int, s.seq.fns.heat = true → s.climate.readTimer.isSome = true → ∃ t, exec (.climateReadingEvent (temp 0) (temp 1)) s = .next t ∧
      Warm s t ∧ t.view = s.view ∧ t.climate.readTimer = some 1000 ∧ t.climate.chosen = s.climate.chosen
        ∧ (∀ z, (t.climate.zones.get z).temp = max (-400) (min (temp z) 850)
            ∧ (t.climate.zones.get z).setpoint = (s.climate.zones.get z).setpoint
            ∧ ((t.climate.zones.get z).demand : Int) = per (s.climate.zones.get z).setpoint (max (-400) (min (temp z) 850)))
        ∧ t.climate.call = (if s.inRun = true then decide (10 ≤ comfort t)
            || (s.climate.call && !(comfort t == 0 && decide (60 ≤ s.climate.callCount + 1))) else s.climate.call)
        ∧ t.climate.callCount = (if s.inRun = true ∧ (s.climate.call = true ∨ 10 ≤ comfort t) then
            (if comfort t = 0 ∧ s.climate.callCount + 1 < 60 then s.climate.callCount + 1 else 0) else s.climate.callCount)
        ∧ (s.inRun = true → follows t))
      ∧ (∀ zone value, s.asks 1 zone value → ∃ t, exec .setSetpoint s = .next t ∧
        (s.seq.fns.heat = false → (s.taken.answered 1 3).handedOver t)
          ∧ (s.seq.fns.heat = true → s.seq.phase ≠ .run → (s.taken.answered 1 10).handedOver t)
          ∧ (s.seq.fns.heat = true → s.seq.phase = .run → 2 ≤ zone → (s.taken.answered 1 11).handedOver t)
          ∧ (s.seq.fns.heat = true → s.seq.phase = .run → zone < 2 → Warm s t ∧ t.view = s.view ∧ t.shows 1 1 ∧ follows t
              ∧ (∀ z, if z.val = zone then (t.climate.zones.get z).setpoint = max 50 (min value 300)
                    ∧ (t.climate.zones.get z).temp = (s.climate.zones.get z).temp
                    ∧ ((t.climate.zones.get z).demand : Int) = per (max 50 (min value 300)) (s.climate.zones.get z).temp
                  else t.climate.zones.get z = s.climate.zones.get z)
              ∧ t.climate.chosen = s.climate.chosen ∧ t.climate.call = (s.climate.call || decide (10 ≤ comfort t))
              ∧ t.climate.callCount = s.climate.callCount
              ∧ ∀ z, t.cell.setpoints.get z = (t.climate.zones.get z).setpoint))
      ∧ (∀ mode value, s.asks 2 mode value → ∃ t, exec .setClimateMode s = .next t ∧
        let m : ClimateMode := if mode = 0 then .off else if mode = 1 then .comfort else .frostOnly;
        (s.seq.fns.heat = false → (s.taken.answered 2 3).handedOver t)
          ∧ (s.seq.fns.heat = true → s.seq.phase ≠ .run → (s.taken.answered 2 10).handedOver t)
          ∧ (s.seq.fns.heat = true → s.seq.phase = .run →
              (3 ≤ mode → (s.taken.answered 2 11).handedOver t)
                ∧ (mode < 3 → s.seq.storage = true → (s.taken.answered 2 9).handedOver t)
                ∧ (mode < 3 → s.seq.storage = false → let o := if s.climate.lockout = true ∧ mode ≠ 0 then 8 else 1;
                    if s.climate.chosen = m then (s.taken.answered 2 o).handedOver t
                    else Warm s t ∧ t.view = s.view ∧ t.shows 2 o ∧ t.climate.chosen = m ∧ t.cell.chosen = m
                      ∧ t.climate.zones = s.climate.zones ∧ t.climate.call = (s.climate.call && decide (mode = 1))
                      ∧ (mode ≠ 1 → t.climate.callCount = 0)
                      ∧ (mode = 0 → t.climate.frost = false) ∧ follows t)))

/-- The heater link, in a state that fits, in which a Starting heater holds the start draw and a Running one the run
draw (R111 to R116, R118). HRUN ends a start: Running, the claim lowered to the run draw, 60 s to a clear failure
count. Its loss while Running without HFLT, HFLT while Starting or Running, and the end of the start timer are
failures: HEN off, HDEM 0, a purge of 180 s, the claim at most the run draw, the failure count grows to at most 2, and
the second declares Lockout, kept in the cell. Any other change is only taken; that an input acts on the level it brings,
one already present too, is the model's choice (DESIGN CHOICE, log entry 33). The end of the run timer clears the count.
The end of the purge leaves Lockout, or Off with the claim released, and asked again where a demand was remembered and
still stands. ResetHeater is answered Absent, Phase or Accepted; accepted it clears the count and Lockout, and a heater
in Lockout is Off. -/
def Obligations.HeaterLink : Prop :=
  ∀ (s : State), s.Fits →
    let c := s.climate;
    let wants := fun t : State => (t.climate.call || t.climate.frost) && !t.climate.lockout;
    let fails := fun t : State => t.climate.heater = .purging ∧ t.climate.hen = false ∧ t.climate.hdem = 0
      ∧ t.climate.startTimer = none ∧ t.climate.runTimer = none ∧ t.climate.purgeTimer = some 180000
      ∧ t.climate.failures = min 2 (c.failures + 1) ∧ t.climate.lockout = (c.lockout || decide (1 ≤ c.failures))
      ∧ t.climate.remembered = wants t ∧ (t.climate.lockout = true → t.cell.lockout = true)
      ∧ (c.lockout = false → 1 ≤ c.failures → t.status.summary.get Mon.lockout = true ∧ t.status.attention = true)
      ∧ (t.claim loadHeater).st = .held
      ∧ (t.claim loadHeater).held = min (s.claim loadHeater).held (s.seq.values.get 27);
    (∀ a, ∃ t, exec (.hrunChange a) s = .next t ∧
      (c.heater = .starting → a = true → Warm (s.setPins { s.pins with hrun := a }) t ∧ t.view = s.view
          ∧ t.climate.heater = .running ∧ t.climate.hen = true ∧ t.climate.startTimer = none
          ∧ t.climate.runTimer = some 60000 ∧ t.climate.hdem = s.heaterDemand ∧ t.climate.failures = c.failures
          ∧ (t.claim loadHeater).st = .held ∧ (t.claim loadHeater).held = s.seq.values.get 27
          ∧ (t.claim loadHeater).rank = (s.claim loadHeater).rank)
        ∧ (c.heater = .running → a = false → s.pins.hflt = false →
            Warm (s.setPins { s.pins with hrun := a }) t ∧ t.view = s.view ∧ fails t)
        ∧ (¬ (c.heater = .starting ∧ a = true) → ¬ (c.heater = .running ∧ a = false ∧ s.pins.hflt = false) →
            (s.setPins { s.pins with hrun := a }).handedOver t))
      ∧ (∀ a, ∃ t, exec (.hfltChange a) s = .next t ∧
        if a = true ∧ (c.heater = .starting ∨ c.heater = .running) then
          Warm (s.setPins { s.pins with hflt := a }) t ∧ t.view = s.view ∧ fails t
        else (s.setPins { s.pins with hflt := a }).handedOver t)
      ∧ (c.startTimer.isSome = true → ∃ t, exec .startTimerExpiry s = .next t ∧
        Warm s t ∧ t.view = s.view ∧ fails t)
      ∧ (c.runTimer.isSome = true → ∃ t, exec .runTimerExpiry s = .next t ∧
        (s.setClimate { c with failures := 0, runTimer := none }).handedOver t)
      ∧ (c.purgeTimer.isSome = true → ∃ t, exec .purgeTimerExpiry s = .next t ∧
        Warm s t ∧ t.view = s.view ∧ t.climate.purgeTimer = none ∧ t.climate.hen = false
          ∧ t.climate.heater = (if c.lockout = true then .lockout else .off)
          ∧ ((c.remembered && wants s && s.inRun) = false → (t.claim loadHeater).st = .idle)
          ∧ ((c.remembered && wants s && s.inRun) = true → (t.claim loadHeater).asked = s.seq.values.get 26
              ∧ (t.claim loadHeater).rank = (if c.frost = true then 1 else 4)
              ∧ ((t.claim loadHeater).st = .contest ∨ (t.claim loadHeater).st = .waiting)))
      ∧ (∀ i v, s.asks 3 i v → ∃ t, exec .resetHeater s = .next t ∧
        (s.seq.fns.heat = false → (s.taken.answered 3 3).handedOver t)
          ∧ (s.seq.fns.heat = true → s.seq.phase ≠ .run → (s.taken.answered 3 10).handedOver t)
          ∧ (s.seq.fns.heat = true → s.seq.phase = .run → Warm s t ∧ t.view = s.view ∧ t.shows 3 1
              ∧ t.climate.failures = 0 ∧ t.climate.lockout = false ∧ t.cell.lockout = false
              ∧ (c.lockout = true → t.status.summary.get Mon.lockout = false)
              ∧ (c.heater = .lockout → t.climate.heater = .off
                  ∧ (wants t = true → (t.claim loadHeater).asked = s.seq.values.get 26)
                  ∧ (wants t = false → (t.claim loadHeater).st = .idle))
              ∧ (c.heater = .purging → t.climate.heater = .purging ∧ t.climate.purgeTimer = c.purgeTimer)))

/-! ### Step and awning (R124 to R147) -/

/-- Extend, in a state that fits (R127, R130, R180). Absent, Phase, Range, Drive, Storage, Hold, Fault and Wind,
tested in that order, refuse it and change nothing more. Otherwise: Extending, and Extended with nothing pending, are
answered Accepted, the latter also while calibrating (DESIGN CHOICE, log entry 52); a Braking channel with follow-on
Backoff or Settle to Fault answers Fault, with Protective Drive, and any other takes follow-on Extend, Waiting, also
beside a Protective left pending in the dwell (DEDUCED, log entry 21), a claim kept there standing at its rank, 0 too
(DESIGN CHOICE, log entry 71); a Retracting or Backoff channel whose claim
stands at rank 0 keeps the Extend pending, any other is braked with follow-on Extend and its claim kept; a channel at
rest keeps the Extend pending and, with its claim Idle and no calibration running, asks at rank 3 for the rated draw.
No claim at another rank or load changes but a Waiting one. -/
def Obligations.MotionExtend : Prop :=
  ∀ (s : State) (i : Nat) (v : Int), s.Fits →
    let frame := fun (ch : Fin 2) (t : State) => Moved s t ∧ t.view = s.view ∧ (∀ o, o ≠ ch → t.chan o = s.chan o)
      ∧ (∀ id : Fin 7, id.val < 5 → id ≠ loadMotor ch → (s.claim id).st ≠ .waiting → t.claim id = s.claim id);
    (s.asks 4 i v → ∃ t, exec .extend s = .next t ∧
      (s.seq.fns.motion = false → (s.taken.answered 4 3).handedOver t)
        ∧ (s.seq.fns.motion = true → s.seq.phase ≠ .run → (s.taken.answered 4 10).handedOver t)
        ∧ (s.seq.fns.motion = true → s.seq.phase = .run → 2 ≤ i → (s.taken.answered 4 11).handedOver t)
        ∧ ∀ ch : Fin 2, s.seq.fns.motion = true → s.seq.phase = .run → i = ch.val →
            let c := s.chan ch;
            let wind := ch = 1 ∧ s.motion.windLockout.isSome = true;
            (s.view.driveAccepted = true → (s.taken.answered 4 4).handedOver t)
              ∧ (s.view.driveAccepted = false → s.seq.storage = true → (s.taken.answered 4 9).handedOver t)
              ∧ (s.view.driveAccepted = false → s.seq.storage = false → s.pins.hold = true →
                  (s.taken.answered 4 5).handedOver t)
              ∧ (s.view.driveAccepted = false → s.seq.storage = false → s.pins.hold = false → c.st = .fault →
                  (s.taken.answered 4 12).handedOver t)
              ∧ (s.view.driveAccepted = false → s.seq.storage = false → s.pins.hold = false → c.st ≠ .fault → wind →
                  (s.taken.answered 4 6).handedOver t))
      ∧ (∀ ch : Fin 2, s.asks 4 i v → s.seq.fns.motion = true → s.seq.phase = .run → i = ch.val → s.extendRefusal ch = none → ∃ t, exec .extend s = .next t ∧
        let c := s.chan ch;
        let now := s.taken.answered 4 2;
        let req := s.status.serial + 1;
        let claim := s.claim (loadMotor ch);
        (c.st = .extending ∨ c.st = .extended ∧ c.pending = .none → (s.taken.answered 4 1).handedOver t)
          ∧ (c.st = .braking →
              (c.followOn = .backoff ∨ c.followOn = .settleFault → (s.taken.answered 4 12).handedOver t)
                ∧ (c.followOn = .protective → (s.taken.answered 4 4).handedOver t)
                ∧ (c.followOn = .none ∨ c.followOn = .extend ∨ c.followOn = .retract →
                    (now.setChan ch { c with followOn := .extend, req := req }).handedOver t))
          ∧ (c.st = .retracting ∨ c.st = .backoff →
              (claim.rank = 0 → (now.setChan ch { c with pending := .extend, req := req }).handedOver t)
                ∧ (claim.rank ≠ 0 → frame ch t ∧ t.shows 4 2 ∧ t.claim (loadMotor ch) = claim
                    ∧ t.chan ch = { c with
                      st := .braking, bridge := .short, pending := .none, followOn := .extend, protective := false, req := req,
                      travel := none, stall := none, backoff := none, idle := none, dwell := some 300 }))
          ∧ (c.atRest = true → ¬ (c.st = .extended ∧ c.pending = .none) → claim.st ≠ .held ∨ c.calTimer.isSome = true →
              frame ch t ∧ t.shows 4 2 ∧ t.chan ch = { c with pending := .extend, req := req, idle := none }
                ∧ (claim.st = .idle → c.calTimer = none →
                    let d := t.claim (loadMotor ch);
                    d.rank = 3 ∧ d.asked = s.seq.values.get (if ch = 0 then 30 else 31)
                      ∧ d.st = if s.passes (loadMotor ch) 3 (Item.motionDraw s.seq.values ch) = true then .contest else .waiting)
                ∧ (claim.st ≠ .idle ∨ c.calTimer.isSome = true → t.claim (loadMotor ch) = claim)))

/-- Retract and Stop, in a state that fits (R128, R129). Absent, Phase and Range refuse them. Retract: home or coming
home is Accepted; a Backoff becomes a full retract, and keeps an Extend pending behind it (DESIGN CHOICE, log entry
53); an Extending channel is braked with the retract as follow-on and its claim kept; a Braking one answers Fault or
Accepted, or takes it as follow-on, in place of a Protective left pending in the dwell (DESIGN CHOICE, log entry 60);
one at rest keeps it pending, a requested one asking at rank 3 and a Protective one starting at once when neither HOLD
nor calibration keeps it back; under HOLD the claim of an Extend that it replaces stands (DESIGN CHOICE, log entry 70).
The move is Protective while the channel needs protection. Stop: Drive or Wind keep a Protective move; a moving channel
is braked with no follow-on, a requested follow-on or pending move becomes None, and the claim is Idle; a braking
channel keeps a Protective left pending (DEDUCED, log entry 54). -/
def Obligations.MotionRetractAndStop : Prop :=
  ∀ (s : State) (i : Nat) (v : Int), s.Fits →
    let frame := fun (ch : Fin 2) (t : State) => Moved s t ∧ t.view = s.view ∧ (∀ o, o ≠ ch → t.chan o = s.chan o)
      ∧ (∀ id : Fin 7, id.val < 5 → id ≠ loadMotor ch → (s.claim id).st ≠ .waiting → t.claim id = s.claim id);
    let refuses := fun (code : Nat) (t : State) =>
      (s.seq.fns.motion = false → (s.taken.answered code 3).handedOver t)
        ∧ (s.seq.fns.motion = true → s.seq.phase ≠ .run → (s.taken.answered code 10).handedOver t)
        ∧ (s.seq.fns.motion = true → s.seq.phase = .run → 2 ≤ i → (s.taken.answered code 11).handedOver t);
    (s.asks 5 i v → ∃ t, exec .retract s = .next t ∧
      refuses 5 t ∧ ∀ ch : Fin 2, s.seq.fns.motion = true → s.seq.phase = .run → i = ch.val →
        let c := s.chan ch;
        let needs := s.view.driveAccepted = true ∨ ch = 1 ∧ s.motion.windLockout.isSome = true;
        let m : Move := if s.needs ch = true then .protective else .retract;
        let req := s.status.serial + 1;
        let claim := s.claim (loadMotor ch);
        (s.needs ch = true ↔ needs)
          ∧ (c.st = .retracted ∨ c.st = .retracting → (s.taken.answered 5 1).handedOver t)
          ∧ (c.st = .backoff → frame ch t ∧ t.shows 5 1 ∧ t.claim (loadMotor ch) = claim ∧ t.chan ch = { c with
              st := .retracting, backoff := none, travel := some (Item.travelMs s.seq.values ch), protective := s.needs ch })
          ∧ (c.st = .extending → frame ch t ∧ t.shows 5 2 ∧ t.claim (loadMotor ch) = claim ∧ t.chan ch = { c with
              st := .braking, bridge := .short, pending := .none, followOn := m, protective := false, req := req,
              travel := none, stall := none, backoff := none, idle := none, dwell := some 300 })
          ∧ (c.st = .braking →
              (c.followOn = .backoff ∨ c.followOn = .settleFault → (s.taken.answered 5 12).handedOver t)
                ∧ (c.followOn = .protective → (s.taken.answered 5 1).handedOver t)
                ∧ (c.followOn = .none ∨ c.followOn = .extend ∨ c.followOn = .retract → frame ch t ∧ t.shows 5 2
                    ∧ t.chan ch = { c with pending := .none, followOn := m, req := req }
                    ∧ (t.claim (loadMotor ch)).st = claim.st
                    ∧ (claim.st = .held → (t.claim (loadMotor ch)).rank = if needs then 0 else claim.rank)))
          ∧ (c.atRest = true → c.st ≠ .retracted → frame ch t ∧
              (s.pins.hold = true ∨ c.calTimer.isSome = true → t.shows 5 2 ∧ t.claim (loadMotor ch) = claim
                  ∧ t.chan ch = { c with pending := m, req := req, idle := none })
                ∧ (s.pins.hold = false → c.calTimer = none → needs → s.pins.er.get ch = false →
                    t.shows 5 1 ∧ (t.chan ch).st = .retracting ∧ (t.chan ch).bridge = .retract
                      ∧ (t.chan ch).protective = true ∧ (t.chan ch).travel = some (Item.travelMs s.seq.values ch)
                      ∧ (t.claim (loadMotor ch)).st = .held ∧ (t.claim (loadMotor ch)).rank = 0)
                ∧ (s.pins.hold = false → c.calTimer = none → ¬ needs → claim.st = .idle →
                    let d := t.claim (loadMotor ch);
                    t.shows 5 2 ∧ (t.chan ch).st = c.st ∧ (t.chan ch).pending = .retract ∧ d.rank = 3
                      ∧ d.asked = s.seq.values.get (if ch = 0 then 30 else 31)
                      ∧ d.st = if s.passes (loadMotor ch) 3 (Item.motionDraw s.seq.values ch) = true then .contest
                        else .waiting)))
      ∧ (s.asks 6 i v → ∃ t, exec .stop s = .next t ∧
        refuses 6 t ∧ ∀ ch : Fin 2, s.seq.fns.motion = true → s.seq.phase = .run → i = ch.val →
          let c := s.chan ch;
          let protective := c.protective = true ∨ c.pending = .protective ∨ c.followOn = .protective;
          (protective → s.view.driveAccepted = true → (s.taken.answered 6 4).handedOver t)
            ∧ (protective → s.view.driveAccepted = false → ch = 1 → (s.taken.answered 6 6).handedOver t)
            ∧ (¬ protective ∨ s.view.driveAccepted = false ∧ ch = 0 → frame ch t ∧ t.shows 6 1
                ∧ (c.moving = true → (t.claim (loadMotor ch)).st = .idle ∧ t.chan ch = { c with
                    st := .braking, bridge := .short, pending := .none, followOn := .none, protective := false, req := 0,
                    travel := none, stall := none, backoff := none, idle := none, dwell := some 300 })
                ∧ (c.st = .braking → c.followOn = .extend ∨ c.followOn = .retract →
                    (t.claim (loadMotor ch)).st = .idle ∧ t.chan ch = { c with followOn := .none, req := 0 })
                ∧ (c.atRest = true → c.pending ≠ .none → (t.claim (loadMotor ch)).st = .idle
                    ∧ (t.chan ch).pending = .none ∧ (t.chan ch).st = c.st)
                ∧ (c.moving = false → c.pending = .none → c.followOn ≠ .extend → c.followOn ≠ .retract →
                    (s.taken.answered 6 1).handedOver t)))

/-- The timers of a channel, in a state that fits (R131 to R137). The dwell ends: a settled channel stands as its
stops say, or in Fault; a follow-on starts when its conditions hold, or stays pending with its claim released under
HOLD. The travel limit brakes to a Fault with Travel Fault declared; a stall brakes to a Backoff with the claim kept
when Extending, and otherwise to a Fault with both monitors; the Backoff's second ends in a dwell with the claim
released. That a Backoff under HOLD rests Midway with a Protective pending, and that wind counts as drive there, is
DEDUCED (log entry 19), and so is the release of the claim at a Backoff's end with an Extend to follow (log entry 22).
An Extend that follows on starts with the kept claim at its rank, 0 too (DESIGN CHOICE, log entry 71).
The idle timer starts a calibration of 50 ms. Its end takes what the sense input then reads, and the mean of the readings
of the 50 ms, one a ms, those that have not run counting at the last, becomes the offset (DESIGN CHOICE, log entry 79,
of what R137 leaves open: when the input is read). The motor's current starts, keeps or stops the 200 ms of a stall.
Nothing of the other channel changes. -/
def Obligations.MotionTimers : Prop :=
  ∀ (s : State) (ch : Fin 2), s.Fits →
    let c := s.chan ch;
    let claim := s.claim (loadMotor ch);
    let stops : MState := if s.pins.er.get ch = true then (if s.pins.ee.get ch = true then .unknown else .retracted)
      else if s.pins.ee.get ch = true then .extended else .midway;
    let frameOf := fun u t : State => Moved u t ∧ t.view = s.view ∧ (∀ o, o ≠ ch → t.chan o = s.chan o)
      ∧ (∀ id : Fin 7, id.val < 5 → id ≠ loadMotor ch → (s.claim id).st ≠ .waiting → t.claim id = s.claim id);
    let frame := frameOf s;
    let rests := fun (t : State) (st : MState) (m : Move) => (t.chan ch).st = st ∧ (t.chan ch).bridge = .off
      ∧ (t.chan ch).pending = m ∧ (t.chan ch).followOn = .none ∧ (t.chan ch).dwell = none;
    let moves := fun (t : State) (st : MState) (b : Bridge) => (t.chan ch).st = st ∧ (t.chan ch).bridge = b
      ∧ (t.chan ch).pending = .none ∧ (t.chan ch).followOn = .none ∧ (t.chan ch).dwell = none
      ∧ (t.claim (loadMotor ch)).st = .held
      ∧ (st ≠ .backoff → (t.chan ch).travel = some (Item.travelMs s.seq.values ch) ∧ (t.chan ch).backoff = none)
      ∧ (st = .backoff → (t.chan ch).backoff = some 1000 ∧ (t.chan ch).travel = none);
    let brakes := fun (t : State) (m : Move) => (t.chan ch).st = .braking ∧ (t.chan ch).bridge = .short
      ∧ (t.chan ch).followOn = m ∧ (t.chan ch).dwell = some 300 ∧ (t.chan ch).travel = none
      ∧ (t.chan ch).stall = none ∧ (t.chan ch).backoff = none;
    (c.dwell.isSome = true → s.motionRuns = true → ∃ t, exec (.dwellTimerExpiry ch) s = .next t ∧
      let free := (t.claim (loadMotor ch)).st = .idle;
      frame t
        ∧ (c.followOn = .none → c.pending = .none → rests t stops .none ∧ (t.chan ch).idle = some 600000 ∧ free)
        ∧ (c.followOn = .settleFault → rests t .fault .none ∧ free)
        ∧ (c.followOn = .backoff → if s.pins.hold = true then
              rests t .midway (if s.needs ch = true then .protective else .none) ∧ free
            else s.pins.er.get ch = false → if s.needs ch = true then
              moves t .retracting .retract ∧ (t.chan ch).protective = true ∧ (t.claim (loadMotor ch)).rank = 0
            else moves t .backoff .retract ∧ t.claim (loadMotor ch) = claim)
        ∧ (c.followOn = .extend → if claim.st = .held then
              if s.extendRefusal ch = none then s.pins.ee.get ch = false →
                moves t .extending .extend ∧ t.claim (loadMotor ch) = claim
              else rests t stops .none ∧ free
            else rests t stops .extend ∧ (t.claim (loadMotor ch)).rank = 3
              ∧ (t.claim (loadMotor ch)).asked = Item.motionDraw s.seq.values ch
              ∧ ((t.claim (loadMotor ch)).st = .contest ∨ (t.claim (loadMotor ch)).st = .waiting))
        ∧ (c.followOn = .retract → if s.pins.hold = true then rests t stops .retract ∧ free
            else if claim.st = .held then s.pins.er.get ch = false →
              moves t .retracting .retract ∧ t.claim (loadMotor ch) = claim
            else rests t stops .retract ∧ (t.claim (loadMotor ch)).rank = 3)
        ∧ (c.followOn = .protective → if s.pins.hold = true then rests t stops .protective ∧ free
            else s.pins.er.get ch = false → moves t .retracting .retract ∧ (t.chan ch).protective = true
              ∧ (t.claim (loadMotor ch)).rank = 0))
      ∧ (c.travel.isSome = true → ∃ t, exec (.travelTimerExpiry ch) s = .next t ∧
        frame t ∧ brakes t .settleFault ∧ (t.chan ch).travelFault = true ∧ (t.claim (loadMotor ch)).st = .idle
          ∧ (t.chan ch).stalled = c.stalled ∧ (c.travelFault = false → t.status.summary.get (Mon.travelFault ch) = true))
      ∧ (c.stall.isSome = true → ∃ t, exec (.stallTimerExpiry ch) s = .next t ∧
        frame t ∧ (t.chan ch).stalled = true ∧ (c.stalled = false → t.status.summary.get (Mon.stall ch) = true)
          ∧ (if c.st = .extending then brakes t .backoff ∧ t.claim (loadMotor ch) = claim
                ∧ (t.chan ch).travelFault = c.travelFault
              else brakes t .settleFault ∧ (t.claim (loadMotor ch)).st = .idle ∧ (t.chan ch).travelFault = true
                ∧ (c.travelFault = false → t.status.summary.get (Mon.travelFault ch) = true)))
      ∧ (c.backoff.isSome = true → ∃ t, exec (.backoffTimerExpiry ch) s = .next t ∧
        frame t ∧ brakes t (if c.pending = .extend then .extend else .none) ∧ (t.claim (loadMotor ch)).st = .idle
          ∧ (t.chan ch).travelFault = c.travelFault ∧ (t.chan ch).stalled = c.stalled)
      ∧ (c.idle.isSome = true → ∃ t, exec (.idleTimerExpiry ch) s = .next t ∧
        (s.setChan ch { c with calTimer := some 50, calSum := 0, idle := none }).handedOver t)
      ∧ (∀ x : Nat, c.calTimer.isSome = true → ∃ t, exec (.calibrationEnd ch x) s = .next t ∧
        let mean := (c.calSum + c.calTimer.getD 0 * x) / 50;
        let u := s.setPins { s.pins with motor := s.pins.motor.set ch x };
        frameOf u t ∧ (t.chan ch).offset = mean ∧ (t.chan ch).calTimer = none ∧ (t.chan ch).calSum = 0
          ∧ (c.pending = .none →
              (u.setChan ch { c with calTimer := none, calSum := 0, offset := mean, idle := some 600000 }).handedOver t)
          ∧ (c.pending = .extend ∨ c.pending = .retract → claim.st = .idle →
              s.pins.hold = false ∨ c.pending = .extend → (t.claim (loadMotor ch)).rank = 3 ∧ (t.chan ch).pending = c.pending)
          ∧ (c.pending = .protective → s.motionRuns = true → s.pins.hold = false → s.pins.er.get ch = false →
              moves t .retracting .retract ∧ (t.chan ch).protective = true ∧ (t.claim (loadMotor ch)).rank = 0))
      ∧ (∀ x : Nat, ∃ t, exec (.motorCurrentChange ch x) s = .next t ∧
        let above := Item.stallThreshold s.seq.values ch < x - c.offset;
        let u := s.setPins { s.pins with motor := s.pins.motor.set ch x };
        (if c.moving = true then u.setChan ch { c with stall := if above then some (c.stall.getD 200) else none }
          else u).handedOver t)

/-- The stops, HOLD and the wind, in a state that fits (R126, R131, R138, R139, R140, R142, R143). A stop's change is taken:
a moving channel whose stop is now active is braked, its claim Idle, also where a pending Extend becomes the follow-on
(DEDUCED, log entry 22), Stall clear and, coming home, Travel Fault too; one at rest and not in Fault stands as its
stops say; a Braking one and one in Fault stay. HOLD asserted: in Halt a moving channel is braked with its claim Idle,
a Protective move pending again; in Finish it runs on; an Extend pending behind the move ends in Halt and stays in
Finish (DESIGN CHOICE, log entry 67); at rest a pending Extend ends and a pending Retract's claim is Idle. HOLD
released: a pending Protective starts at rank 0 and a pending Retract has a claim. A pulse counts; the third windy
window in a row in which the awning is not Retracted begins a lockout of 10 min, declared, on which the awning acts by the
row of R139 for its state (DEDUCED of a Backoff, log entry 19), but that a pending Extend of a Retracted one, or of an Unknown
one at its retracted stop, ends too (DEDUCED, log entry 39), as does one pending behind a retract that is Protective already
(DESIGN CHOICE, log entry 78). Its end clears it, with a Protective, pending or following on, that drive does not need, the
idle timer of a channel at rest running afresh (DEDUCED, log entry 20). A level already present does nothing (DESIGN CHOICE,
log entry 33), and Halt keeps a Protective pending while braking (DEDUCED, log entry 21). -/
def Obligations.MotionEvents : Prop :=
  ∀ (s : State) (ch : Fin 2), s.Fits →
    let c := s.chan ch;
    let claim := s.claim (loadMotor ch);
    let braked : Chan := { c with
      st := .braking, bridge := .short, pending := .none, followOn := .none, protective := false, req := 0,
      travel := none, stall := none, backoff := none, idle := none, dwell := some 300 };
    (∀ (a : Bool) (which : EndStop), ∃ t, exec (.endStopChange ch which a) s = .next t ∧
      let er := if which = .retracted then a else s.pins.er.get ch;
      let ee := if which = .extended then a else s.pins.ee.get ch;
      let p : Pins := { s.pins with er := s.pins.er.set ch er, ee := s.pins.ee.set ch ee };
      let stops : MState := if er = true then (if ee = true then .unknown else .retracted)
        else if ee = true then .extended else if c.st = .unknown then .unknown else .midway;
      let target := if c.st = .extending then ee else er;
      let acts := s.seq.fns.motion = true ∧ s.seq.phase ≠ .reset;
      (¬ acts ∨ c.st = .braking ∨ c.st = .fault ∨ c.moving = true ∧ target = false ∨ c.atRest = true ∧ stops = c.st →
          (s.setPins p).handedOver t)
        ∧ (acts → Moved (s.setPins p) t ∧ t.view = s.view ∧ ∀ o, o ≠ ch → t.chan o = s.chan o)
        ∧ (acts → c.moving = true → target = true → (t.claim (loadMotor ch)).st = .idle ∧ t.chan ch = { braked with
            followOn := if c.pending = .extend then .extend else .none, req := if c.pending = .extend then c.req else 0
            stalled := false, travelFault := c.travelFault && decide (c.st = .extending) })
        ∧ (acts → c.atRest = true → c.st ≠ .fault → c.st ≠ .retracted ∨ s.needs ch = false →
            t.chan ch = { c with st := stops } ∧ t.claim (loadMotor ch) = claim)
        ∧ (acts → c.st = .retracted → c.pending ≠ .protective → s.needs ch = true → s.motionRuns = true → stops ≠ .retracted →
            er = false →
            if s.pins.hold = true ∨ c.calTimer.isSome = true then
              (t.chan ch).st = stops ∧ (t.chan ch).pending = .protective ∧ (t.claim (loadMotor ch)).st = .idle
            else (t.chan ch).st = .retracting ∧ (t.chan ch).protective = true ∧ (t.claim (loadMotor ch)).rank = 0))
      ∧ (∃ t, exec .holdAsserted s = .next t ∧
        let halt := s.seq.values.get 36 = 1;
        let u := s.setPins { s.pins with hold := true };
        (s.pins.hold = true → s.handedOver t)
          ∧ (s.pins.hold = false → s.motionRuns = false → u.handedOver t)
          ∧ (s.pins.hold = false → s.motionRuns = true → Moved u t ∧ t.view = s.view
              ∧ (c.moving = true → halt → (t.claim (loadMotor ch)).st = .idle
                  ∧ t.chan ch = { braked with pending := if c.protective = true then .protective else .none })
              ∧ (c.moving = true → ¬ halt → t.chan ch = c ∧ t.claim (loadMotor ch) = claim)
              ∧ (c.st = .braking → t.chan ch = c ∧ t.claim (loadMotor ch) = claim)
              ∧ (c.atRest = true → c.pending = .extend → (t.claim (loadMotor ch)).st = .idle
                  ∧ (t.chan ch).pending = .none ∧ (t.chan ch).st = c.st)
              ∧ (c.atRest = true → c.pending = .retract → (t.claim (loadMotor ch)).st = .idle ∧ t.chan ch = c)
              ∧ (c.atRest = true → c.pending = .none ∨ c.pending = .protective → t.chan ch = c)))
      ∧ (∃ t, exec .holdReleased s = .next t ∧
        let u := s.setPins { s.pins with hold := false };
        (s.pins.hold = false → s.handedOver t)
          ∧ (s.pins.hold = true → s.motionRuns = false → u.handedOver t)
          ∧ (s.pins.hold = true → s.motionRuns = true → Moved u t ∧ t.view = s.view
              ∧ (c.atRest = false ∨ c.calTimer.isSome = true ∨ c.pending = .none → t.chan ch = c)
              ∧ (c.atRest = true → c.calTimer = none → c.pending = .protective → s.pins.er.get ch = false →
                  (t.chan ch).st = .retracting ∧ (t.chan ch).bridge = .retract ∧ (t.chan ch).protective = true
                    ∧ (t.claim (loadMotor ch)).st = .held ∧ (t.claim (loadMotor ch)).rank = 0)
              ∧ (c.atRest = true → c.calTimer = none → c.pending = .retract → claim.st = .idle →
                  t.chan ch = c ∧ (t.claim (loadMotor ch)).rank = 3
                    ∧ ((t.claim (loadMotor ch)).st = .contest ∨ (t.claim (loadMotor ch)).st = .waiting))))
      ∧ (∃ t, exec .windPulse s = .next t ∧
        (if s.seq.fns.motion = true ∧ s.seq.phase ≠ .reset then
          s.setMotion { s.motion with windPulses := s.motion.windPulses + 1 } else s).handedOver t)
      ∧ (s.motion.windWindow.isSome = true → ∃ t, exec .windWindowEnd s = .next t ∧
        let windy := s.seq.values.get 37 < s.motion.windPulses ∧ (s.chan 1).st ≠ .retracted;
        let third := windy ∧ 3 ≤ s.motion.windyCount + 1;
        (¬ third → (s.setMotion { s.motion with
            windPulses := 0, windyCount := if windy then s.motion.windyCount + 1 else 0, windWindow := some 1000 }).handedOver t)
          ∧ (third → Moved s t ∧ t.view = s.view ∧ t.chan 0 = s.chan 0 ∧ t.motion.windPulses = 0 ∧ t.motion.windyCount = 0
              ∧ t.motion.windWindow = some 1000 ∧ t.motion.windLockout = some 600000 ∧ t.motion.windDeclared = true
              ∧ (s.motion.windDeclared = false → t.status.summary.get Mon.windLockout = true)
              ∧ (s.motionRuns = false → t.chan 1 = s.chan 1) ∧ (s.motionRuns = true → s.meetsNeed t 1)))
      ∧ (s.motion.windLockout.isSome = true → ∃ t, exec .windLockoutExpiry s = .next t ∧
        Moved s t ∧ t.view = s.view ∧ t.chan 0 = s.chan 0 ∧ t.motion.windLockout = none ∧ t.motion.windDeclared = false
          ∧ t.status.summary.get Mon.windLockout = false
          ∧ (if s.view.driveAccepted = true then t.chan 1 = s.chan 1 else s.losesNeed t 1))

/-! ### Cabin lights (R148 to R161) -/

/-- A fade step, in a state that fits (R149 to R151). Elapsed grows by 20; below the fade time the level is start plus
the part of the way elapsed, truncated toward zero, and the next step is 20 ms away; at the fade time the level is the
target and the fade ends. The duty is level squared over 1000. When none of the group's channels fades any longer and
nothing is pending, a Held claim comes down to the target amount, the sum of rated draw times target duty over 1000
with at least 1 for a target above 0, or is released at 0; otherwise it stands. That a claim below its target amount stands
as it is, a case R151 does not name, is the model's choice (DESIGN CHOICE, log entry 73). No other channel changes. -/
def Obligations.FadeSteps : Prop :=
  ∀ (s : State) (ch : Fin 8), s.Fits →
    let l := s.light ch;
    let g := groupOf ch;
    let amount := fun t : State => (fin4.map fun k => let x := t.light (groupChan g k);
      if x.target = 0 then 0 else max 1 (Item.lightDraw s.seq.values (groupChan g k) * (x.target * x.target / 1000) / 1000)).sum;
    l.stepTimer.isSome = true → ∃ t, exec (.fadeStep ch) s = .next t ∧
      let x := t.light ch;
      let e := l.elapsed + 20;
      let fade := s.seq.values.get 38;
      let done := (∀ k, (t.light (groupChan g k)).fading = false) ∧ (s.group g).pending = none;
      Lit s t ∧ t.view = s.view ∧ (∀ o, o ≠ ch → t.light o = s.light o) ∧ x.target = l.target
        ∧ x.duty = x.level * x.level / 1000 ∧ (∀ id : Fin 7, id.val < 5 → (s.claim id).st ≠ .waiting → t.claim id = s.claim id)
        ∧ (e < fade → (x.level : Int) = l.start + (((l.target : Int) - l.start) * e).tdiv fade ∧ x.elapsed = e
            ∧ x.fading = true ∧ x.stepTimer = some 20)
        ∧ (fade ≤ e → x.level = l.target ∧ x.fading = false ∧ x.stepTimer = none)
        ∧ (¬ done → t.claim (loadLights g) = s.claim (loadLights g))
        ∧ (done → (s.claim (loadLights g)).st = .held →
            (amount t = 0 → (t.claim (loadLights g)).st = .idle)
              ∧ (0 < amount t → (t.claim (loadLights g)).st = .held
                  ∧ (t.claim (loadLights g)).held = min (amount t) (s.claim (loadLights g)).held))

/-- SetLevel and AllOff, in a state that fits (R151, R152, R154, R157, R159). They are answered Absent, Phase, and
SetLevel Range and Storage too. A request pending in the group of a SetLevel that is taken is abandoned first, its raise
ended with the claim Held at its old amount, its Try with the claim Idle; the Waiting claims are then tested again, and the
SetLevel is worked out in the state that leaves (R154, `State.abandonRequest`, which without a pending request changes
nothing). Within what the claim holds, it gives the channel the clamped level as its target at once and is Accepted; one
above it becomes pending with a contest and is Waiting when the claim's Try or raise passes its pre-test; where it fails it,
the first of the scales 750, 500 and 250 that fits or passes is taken up, or none, and the outcome is Waiting while a contest
runs and Accepted otherwise (R153). So the outcome shown is the new request's. On the courtesy channel it ends the courtesy. AllOff ends the courtesy and is Accepted; nothing stays pending
in either group and every channel has target 0 at once: at level 0 it stays dark, above it fades, and a group wholly
dark has its claim Idle. A change of the courtesy light that waited for its group is dropped with the courtesy
(DEDUCED, log entry 34). -/
def Obligations.LightLevels : Prop :=
  ∀ (s : State) (i : Nat) (v : Int), s.Fits →
    (s.asks 7 i v → ∃ t, exec .setLevel s = .next t ∧
      (s.seq.fns.lights = false → (s.taken.answered 7 3).handedOver t)
        ∧ (s.seq.fns.lights = true → s.seq.phase ≠ .run → (s.taken.answered 7 10).handedOver t)
        ∧ (s.seq.fns.lights = true → s.seq.phase = .run → 8 ≤ i → (s.taken.answered 7 11).handedOver t)
        ∧ (s.seq.fns.lights = true → s.seq.phase = .run → i < 8 → s.seq.storage = true →
            (s.taken.answered 7 9).handedOver t)
        ∧ ∀ ch : Fin 8, s.seq.fns.lights = true → s.seq.phase = .run → i = ch.val → s.seq.storage = false →
            let x := min (max 0 (min v 1000)).toNat s.lights.ceiling;
            let g := groupOf ch;
            let l := s.light ch;
            let c := s.claim (loadLights g);
            let u := s.abandonRequest g;
            let want := fun o : Fin 8 => if o = ch then x else (s.light o).target;
            let cover := (fin4.map fun k => let m := max (s.light (groupChan g k)).level (want (groupChan g k));
              if m = 0 then 0 else max 1 (Item.lightDraw s.seq.values (groupChan g k) * (m * m / 1000) / 1000)).sum;
            Lit s t ∧ t.view = s.view ∧ (∀ o, groupOf o ≠ g → t.light o = s.light o)
              ∧ (∀ id : Fin 7, id.val < 5 → (s.claim id).st ≠ .waiting → t.claim id = s.claim id)
              ∧ t.lights.courtesy = (s.lights.courtesy && !(Item.courtesy s.seq.values == some ch))
              ∧ ((s.group g).pending.isSome = true → (u.group g).pending = none ∧ (u.claim (loadLights g)).contesting = false
                  ∧ (u.claim (loadLights g)).held = c.held ∧ (c.st = .held → (u.claim (loadLights g)).st = .held)
                  ∧ (c.st = .contest → (u.claim (loadLights g)).st = .idle))
              ∧ (s.lights.due = .none → cover ≤ c.held →
                  t.shows 7 1 ∧ (t.light ch).target = x ∧ (t.group g).pending = none
                    ∧ (t.claim (loadLights g)).contesting = false ∧ (∀ o, o ≠ ch → t.light o = s.light o)
                    ∧ (x = l.target → t.light ch = l) ∧ (x ≠ l.target → x = l.level → (t.light ch).fading = false)
                    ∧ (x ≠ l.target → x ≠ l.level → 0 < s.seq.values.get 38 → (t.light ch).level = l.level
                        ∧ (t.light ch).start = l.level ∧ (t.light ch).elapsed = 0 ∧ (t.light ch).fading = true
                        ∧ (t.light ch).stepTimer = some 20))
              ∧ (c.held < cover → u.passes (loadLights g) 6 (min cover 30000) = true → c.held < 30000 →
                  t.shows 7 2 ∧ (∀ o, t.light o = s.light o) ∧ (t.claim (loadLights g)).contesting = true
                    ∧ (t.claim (loadLights g)).asked = min cover 30000 ∧ (t.claim (loadLights g)).held = c.held
                    ∧ ∃ r, (t.group g).pending = some r ∧ r.want.get ⟨ch.val % 4, Nat.mod_lt _ (by decide)⟩ = x
                        ∧ r.trial = r.want ∧ r.scale = 1000)
              ∧ (s.lights.due = .none → c.held < cover →
                  u.passes (loadLights g) 6 (min cover 30000) = false → c.held < 30000 →
                  u.scalesDown t g ⟨fin4.map fun k => want (groupChan g k), rfl⟩ 1000
                    ∧ t.shows 7 (if (t.group g).pending.isSome = true then 2 else 1)))
      ∧ (s.asks 10 i v → ∃ t, exec .allOff s = .next t ∧
        (s.seq.fns.lights = false → (s.taken.answered 10 3).handedOver t)
          ∧ (s.seq.fns.lights = true → s.seq.phase ≠ .run → (s.taken.answered 10 10).handedOver t)
          ∧ (s.seq.fns.lights = true → s.seq.phase = .run → Lit s t ∧ t.view = s.view ∧ t.shows 10 1
              ∧ t.lights.courtesy = false ∧ t.lights.countdown = none ∧ t.lights.due = .none
              ∧ (∀ id : Fin 7, id.val < 5 → (s.claim id).st ≠ .waiting → t.claim id = s.claim id)
              ∧ ∀ g, (t.group g).pending = none
                  ∧ ((∀ k, (s.light (groupChan g k)).level = 0) → (t.claim (loadLights g)).st = .idle)
                  ∧ ∀ k, let l := s.light (groupChan g k);
                    let x := t.light (groupChan g k);
                    x.target = 0 ∧ (l.level = 0 → x.level = 0 ∧ x.fading = false)
                      ∧ (0 < s.seq.values.get 38 → x.level = l.level ∧ (x.fading = true ↔ 0 < l.level))))

/-- Scenes and the courtesy light, in a state that fits (R158, R159). RecallScene and StoreScene are answered Absent,
Phase, Range and Storage; StoreScene keeps every channel's target, the previous target of a courtesy channel lit for
the step, in the scene and in the cell, and is Accepted. A RecallScene that is taken abandons what is pending in each
group first (R154): a group whose claim holds the scene's amount takes the scene's levels, up to the ceiling, as its targets,
with nothing pending and no contest, and where both do it is Accepted; where group 0's amount, asked first (DESIGN CHOICE,
log entry 61), passes the pre-test instead, a contest runs for it, in place of any other, and it is Waiting. It
ends the courtesy. The end of the countdown ends the courtesy: with nothing pending in the group and no more than its
claim holds, the courtesy channel takes its previous target back, up to the ceiling, and a change that must wait stays
due. The courtesy itself begins when the step comes out, by a MOTION subject 0 of a peer that shows it Extending or Extended
or by the own step's start: a countdown stops, or else the channel's target is kept as the previous target and, where it is
below 600, is changed to 600, up to the ceiling, as a request would change it, after a request pending in its group. When no
source shows the step out any longer the light stays; and where a source shows it Retracted (any one, DEDUCED, log entry 56),
or the entry that showed it out goes Stale, the minute's countdown begins. That Range is tested before Storage is DEDUCED,
log entry 35, and log entries 34, 55 and 63 say when a waiting change is made, replaced or dropped. The codes of the states in
a MOTION record, 4 for Extending, 2 for Extended and 1 for Retracted, are the model's choice (DESIGN CHOICE, log entry 3). -/
def Obligations.ScenesAndCourtesy : Prop :=
  ∀ (s : State) (i : Nat) (v : Int), s.Fits →
    let refuses := fun (code : Nat) (t : State) =>
      (s.seq.fns.lights = false → (s.taken.answered code 3).handedOver t)
        ∧ (s.seq.fns.lights = true → s.seq.phase ≠ .run → (s.taken.answered code 10).handedOver t)
        ∧ (s.seq.fns.lights = true → s.seq.phase = .run → 4 ≤ i → (s.taken.answered code 11).handedOver t)
        ∧ (s.seq.fns.lights = true → s.seq.phase = .run → i < 4 → s.seq.storage = true →
            (s.taken.answered code 9).handedOver t);
    (s.asks 8 i v → ∃ t, exec .recallScene s = .next t ∧
      refuses 8 t ∧ ∀ n : Fin 4, s.seq.fns.lights = true → s.seq.phase = .run → i = n.val → s.seq.storage = false →
        let want := fun ch : Fin 8 => min ((s.lights.scenes.get n).get ch) s.lights.ceiling;
        let cover := fun g : Fin 2 => (fin4.map fun k =>
          let m := max (s.light (groupChan g k)).level (want (groupChan g k));
          if m = 0 then 0 else max 1 (Item.lightDraw s.seq.values (groupChan g k) * (m * m / 1000) / 1000)).sum;
        Lit s t ∧ t.view = s.view ∧ t.lights.courtesy = false ∧ t.lights.countdown = none ∧ t.lights.due = .none
          ∧ t.lights.scenes = s.lights.scenes
          ∧ (∀ id : Fin 7, id.val < 5 → (s.claim id).st ≠ .waiting → t.claim id = s.claim id)
          ∧ (∀ g, cover g ≤ (s.claim (loadLights g)).held → (t.group g).pending = none
              ∧ (t.claim (loadLights g)).contesting = false
              ∧ ∀ k, (t.light (groupChan g k)).target = want (groupChan g k))
          ∧ ((∀ g, cover g ≤ (s.claim (loadLights g)).held) → t.shows 8 1)
          ∧ ((s.claim (loadLights 0)).held < min (cover 0) 30000 →
              (s.abandonRequest 0).passes (loadLights 0) 6 (min (cover 0) 30000) = true →
              t.shows 8 2 ∧ (t.claim (loadLights 0)).contesting = true
                ∧ (t.claim (loadLights 0)).asked = min (cover 0) 30000
                ∧ (t.claim (loadLights 0)).held = (s.claim (loadLights 0)).held
                ∧ (∃ r, (t.group 0).pending = some r ∧ r.scale = 1000 ∧ r.trial = r.want
                    ∧ ∀ k, r.want.get k = want (groupChan 0 k))
                ∧ ∀ k, (t.light (groupChan 0 k)).target = (s.light (groupChan 0 k)).target))
      ∧ (s.asks 9 i v → ∃ t, exec .storeScene s = .next t ∧
        refuses 9 t ∧ ∀ n : Fin 4, s.seq.fns.lights = true → s.seq.phase = .run → i = n.val → s.seq.storage = false →
          let x : Tab 4 (Tab 8 Nat) := s.lights.scenes.set n ⟨fin8.map fun ch =>
            if s.lights.courtesy = true ∧ s.seq.values.get 47 = ch.val then s.lights.prevTarget else (s.light ch).target, rfl⟩;
          (((s.taken.answered 9 1).setLights { s.lights with scenes := x }).setCell { s.cell with scenes := x }).handedOver t)
      ∧ (s.lights.countdown.isSome = true → ∃ t, exec .courtesyCountdownExpiry s = .next t ∧
        Lit s t ∧ t.view = s.view ∧ t.lights.courtesy = false ∧ t.lights.countdown = none
          ∧ (∀ id : Fin 7, id.val < 5 → (s.claim id).st ≠ .waiting → t.claim id = s.claim id)
          ∧ ∀ ch, Item.courtesy s.seq.values = some ch →
              let g := groupOf ch;
              let x := min s.lights.prevTarget s.lights.ceiling;
              let want := fun o : Fin 8 => if o = ch then x else (s.light o).target;
              let cover := (fin4.map fun k => let m := max (s.light (groupChan g k)).level (want (groupChan g k));
                if m = 0 then 0 else max 1 (Item.lightDraw s.seq.values (groupChan g k) * (m * m / 1000) / 1000)).sum;
              ((s.group g).pending.isSome = true → t.lights.due = .restore ∧ ∀ o, t.light o = s.light o)
                ∧ ((s.group g).pending = none → t.lights.due = .none ∧ (cover ≤ (s.claim (loadLights g)).held →
                    (t.light ch).target = x ∧ ∀ o, o ≠ ch → t.light o = s.light o)))
      ∧ ∀ ch, Item.courtesy s.seq.values = some ch → s.seq.fns.lights = true → s.seq.phase = .run →
        let g := groupOf ch;
        let id := loadLights g;
        let x := min 600 s.lights.ceiling;
        let want := fun o : Fin 8 => if o = ch then x else (s.light o).target;
        let cover := (fin4.map fun k => let m := max (s.light (groupChan g k)).level (want (groupChan g k));
          if m = 0 then 0 else max 1 (Item.lightDraw s.seq.values (groupChan g k) * (m * m / 1000) / 1000)).sum;
        let same := fun t : State => ∀ o, t.light o = s.light o;
        let ownOut := s.seq.fns.motion = true ∧ ((s.chan 0).st = .extending ∨ (s.chan 0).st = .extended);
        let ownHome := s.seq.fns.motion = true ∧ (s.chan 0).st = .retracted;
        let peer := fun (n c : Nat) => ∃ e ∈ s.entries, e.station ≠ n ∧ e.stepCode? = some c;
        let begins := fun t : State => t.lights.call = true ∧ t.lights.courtesy = true
          ∧ (s.lights.courtesy = true → t.lights.countdown = none ∧ t.lights.prevTarget = s.lights.prevTarget
              ∧ t.lights.due = s.lights.due ∧ same t)
          ∧ (s.lights.courtesy = false → t.lights.prevTarget = (s.light ch).target
              ∧ ((s.group g).pending.isSome = true → t.lights.due = .light ∧ same t)
              ∧ ((s.group g).pending = none → t.lights.due = .none
                  ∧ (600 ≤ (s.light ch).target → same t)
                  ∧ ((s.light ch).target < 600 → cover ≤ (s.claim id).held →
                      (t.light ch).target = x ∧ ∀ o, o ≠ ch → t.light o = s.light o)));
        let ends := fun t : State => t.lights.call = false ∧ t.lights.courtesy = true
          ∧ t.lights.prevTarget = s.lights.prevTarget ∧ t.lights.due = s.lights.due ∧ same t;
        (∀ (n : Nat) (f : MotionRec), s.brings n { subject := 0, payload := .motion f } → s.view.holdTimer = none →
            let k : Key := { station := n, kind := .motion, subject := 0 };
            let v := s.view.sets.get (setOf k);
            (∃ e ∈ s.entries, e.key = k) ∨ (v.ways.get (v.victim false (Item.pinned s.seq.values))).valid = false →
            ∃ t, exec .peerArrival s = .next t
              ∧ (f.state = 4 ∨ f.state = 2 → s.lights.call = false → begins t
                  ∧ (s.lights.courtesy = false → (s.group g).pending = none → (s.light ch).target < 600 →
                      (s.claim id).held < cover → (s.claim id).held < 30000 →
                      if s.passes id 6 (min cover 30000) = true then
                        (t.claim id).contesting = true ∧ (t.claim id).asked = min cover 30000 ∧ same t
                      else s.scalesDown t g ⟨fin4.map fun k => want (groupChan g k), rfl⟩ 1000))
              ∧ (f.state ≠ 4 → f.state ≠ 2 → ¬ ownOut → ¬ peer n 4 → ¬ peer n 2 → s.lights.courtesy = true →
                  s.lights.countdown = none → ends t
                    ∧ (f.state = 1 ∨ ownHome ∨ peer n 1 → t.lights.countdown = some 60000)
                    ∧ (f.state ≠ 1 → ¬ ownHome → ¬ peer n 1 → t.lights.countdown = none)))
          ∧ ((s.claim (loadMotor 0)).window.isSome = true → (s.chan 0).pending = .extend → (s.chan 0).calTimer = none →
              s.extendRefusal 0 = none → s.pins.ee.get 0 = false → s.lights.call = false →
              s.passes (loadMotor 0) (askRank (loadMotor 0) (s.claim (loadMotor 0))) (s.claim (loadMotor 0)).asked = true →
              ∃ t, exec (.contestWindowEnd 3) s = .next t ∧ begins t)
          ∧ (∀ e ∈ s.entries, let n := e.station;
              e.key = { station := n, kind := .motion, subject := 0 } → e.fresh = .fresh ∨ e.fresh = .aging →
              12000 ≤ e.age + 1 → s.lights.courtesy = true → s.lights.countdown = none → s.lights.source = n → ¬ ownOut →
              ¬ peer n 4 → ¬ peer n 2 →
              ∃ t, exec (.entryStale e.key) s = .next t ∧ ends t ∧ t.lights.countdown = some 60000)
          ∧ ((s.chan 0).dwell.isSome = true → (s.chan 0).followOn = .none → (s.chan 0).pending = .none →
              s.motionRuns = true → s.pins.er.get 0 = true → s.pins.ee.get 0 = false → s.lights.courtesy = true →
              s.lights.countdown = none → ¬ peer 0 4 → ¬ peer 0 2 →
              ∃ t, exec (.dwellTimerExpiry 0) s = .next t ∧ ends t ∧ t.lights.countdown = some 60000)
end

