-- ==== Sys2Proof/Laws/State.lean ====
section
/-! SUPPORT. One lemma per field per update of a block of State, and for the queue: no later proof unfolds an update. -/

namespace Sys2Proof.Machine

/-! ### State.setPins -/

@[simp] theorem State.setPins_now (s : State) (x : Pins) : (s.setPins x).now = s.now := rfl
@[simp] theorem State.setPins_pending (s : State) (x : Pins) : (s.setPins x).pending = s.pending := rfl
@[simp] theorem State.setPins_pins (s : State) (x : Pins) : (s.setPins x).pins = x := rfl
@[simp] theorem State.setPins_seq (s : State) (x : Pins) : (s.setPins x).seq = s.seq := rfl
@[simp] theorem State.setPins_cell (s : State) (x : Pins) : (s.setPins x).cell = s.cell := rfl
@[simp] theorem State.setPins_status (s : State) (x : Pins) : (s.setPins x).status = s.status := rfl
@[simp] theorem State.setPins_broker (s : State) (x : Pins) : (s.setPins x).broker = s.broker := rfl
@[simp] theorem State.setPins_view (s : State) (x : Pins) : (s.setPins x).view = s.view := rfl
@[simp] theorem State.setPins_bus (s : State) (x : Pins) : (s.setPins x).bus = s.bus := rfl
@[simp] theorem State.setPins_supply (s : State) (x : Pins) : (s.setPins x).supply = s.supply := rfl
@[simp] theorem State.setPins_water (s : State) (x : Pins) : (s.setPins x).water = s.water := rfl
@[simp] theorem State.setPins_climate (s : State) (x : Pins) : (s.setPins x).climate = s.climate := rfl
@[simp] theorem State.setPins_motion (s : State) (x : Pins) : (s.setPins x).motion = s.motion := rfl
@[simp] theorem State.setPins_lights (s : State) (x : Pins) : (s.setPins x).lights = s.lights := rfl
@[simp] theorem State.setPins_periods (s : State) (x : Pins) : (s.setPins x).periods = s.periods := rfl
@[simp] theorem State.setPins_due (s : State) (x : Pins) : (s.setPins x).due = s.due := rfl
@[simp] theorem State.setPins_self (s : State) : s.setPins s.pins = s := rfl
@[simp] theorem State.setPins_setPins (s : State) (x y : Pins) : (s.setPins x).setPins y = s.setPins y := rfl

/-! ### State.setSeq -/

@[simp] theorem State.setSeq_now (s : State) (x : Seq) : (s.setSeq x).now = s.now := rfl
@[simp] theorem State.setSeq_pending (s : State) (x : Seq) : (s.setSeq x).pending = s.pending := rfl
@[simp] theorem State.setSeq_pins (s : State) (x : Seq) : (s.setSeq x).pins = s.pins := rfl
@[simp] theorem State.setSeq_seq (s : State) (x : Seq) : (s.setSeq x).seq = x := rfl
@[simp] theorem State.setSeq_cell (s : State) (x : Seq) : (s.setSeq x).cell = s.cell := rfl
@[simp] theorem State.setSeq_status (s : State) (x : Seq) : (s.setSeq x).status = s.status := rfl
@[simp] theorem State.setSeq_broker (s : State) (x : Seq) : (s.setSeq x).broker = s.broker := rfl
@[simp] theorem State.setSeq_view (s : State) (x : Seq) : (s.setSeq x).view = s.view := rfl
@[simp] theorem State.setSeq_bus (s : State) (x : Seq) : (s.setSeq x).bus = s.bus := rfl
@[simp] theorem State.setSeq_supply (s : State) (x : Seq) : (s.setSeq x).supply = s.supply := rfl
@[simp] theorem State.setSeq_water (s : State) (x : Seq) : (s.setSeq x).water = s.water := rfl
@[simp] theorem State.setSeq_climate (s : State) (x : Seq) : (s.setSeq x).climate = s.climate := rfl
@[simp] theorem State.setSeq_motion (s : State) (x : Seq) : (s.setSeq x).motion = s.motion := rfl
@[simp] theorem State.setSeq_lights (s : State) (x : Seq) : (s.setSeq x).lights = s.lights := rfl
@[simp] theorem State.setSeq_periods (s : State) (x : Seq) : (s.setSeq x).periods = s.periods := rfl
@[simp] theorem State.setSeq_due (s : State) (x : Seq) : (s.setSeq x).due = s.due := rfl
@[simp] theorem State.setSeq_self (s : State) : s.setSeq s.seq = s := rfl
@[simp] theorem State.setSeq_setSeq (s : State) (x y : Seq) : (s.setSeq x).setSeq y = s.setSeq y := rfl

/-! ### State.setCell -/

@[simp] theorem State.setCell_now (s : State) (x : Cell) : (s.setCell x).now = s.now := rfl
@[simp] theorem State.setCell_pending (s : State) (x : Cell) : (s.setCell x).pending = s.pending := rfl
@[simp] theorem State.setCell_pins (s : State) (x : Cell) : (s.setCell x).pins = s.pins := rfl
@[simp] theorem State.setCell_seq (s : State) (x : Cell) : (s.setCell x).seq = s.seq := rfl
@[simp] theorem State.setCell_cell (s : State) (x : Cell) : (s.setCell x).cell = x := rfl
@[simp] theorem State.setCell_status (s : State) (x : Cell) : (s.setCell x).status = s.status := rfl
@[simp] theorem State.setCell_broker (s : State) (x : Cell) : (s.setCell x).broker = s.broker := rfl
@[simp] theorem State.setCell_view (s : State) (x : Cell) : (s.setCell x).view = s.view := rfl
@[simp] theorem State.setCell_bus (s : State) (x : Cell) : (s.setCell x).bus = s.bus := rfl
@[simp] theorem State.setCell_supply (s : State) (x : Cell) : (s.setCell x).supply = s.supply := rfl
@[simp] theorem State.setCell_water (s : State) (x : Cell) : (s.setCell x).water = s.water := rfl
@[simp] theorem State.setCell_climate (s : State) (x : Cell) : (s.setCell x).climate = s.climate := rfl
@[simp] theorem State.setCell_motion (s : State) (x : Cell) : (s.setCell x).motion = s.motion := rfl
@[simp] theorem State.setCell_lights (s : State) (x : Cell) : (s.setCell x).lights = s.lights := rfl
@[simp] theorem State.setCell_periods (s : State) (x : Cell) : (s.setCell x).periods = s.periods := rfl
@[simp] theorem State.setCell_due (s : State) (x : Cell) : (s.setCell x).due = s.due := rfl
@[simp] theorem State.setCell_self (s : State) : s.setCell s.cell = s := rfl
@[simp] theorem State.setCell_setCell (s : State) (x y : Cell) : (s.setCell x).setCell y = s.setCell y := rfl

/-! ### State.setStatus -/

@[simp] theorem State.setStatus_now (s : State) (x : Status) : (s.setStatus x).now = s.now := rfl
@[simp] theorem State.setStatus_pending (s : State) (x : Status) : (s.setStatus x).pending = s.pending := rfl
@[simp] theorem State.setStatus_pins (s : State) (x : Status) : (s.setStatus x).pins = s.pins := rfl
@[simp] theorem State.setStatus_seq (s : State) (x : Status) : (s.setStatus x).seq = s.seq := rfl
@[simp] theorem State.setStatus_cell (s : State) (x : Status) : (s.setStatus x).cell = s.cell := rfl
@[simp] theorem State.setStatus_status (s : State) (x : Status) : (s.setStatus x).status = x := rfl
@[simp] theorem State.setStatus_broker (s : State) (x : Status) : (s.setStatus x).broker = s.broker := rfl
@[simp] theorem State.setStatus_view (s : State) (x : Status) : (s.setStatus x).view = s.view := rfl
@[simp] theorem State.setStatus_bus (s : State) (x : Status) : (s.setStatus x).bus = s.bus := rfl
@[simp] theorem State.setStatus_supply (s : State) (x : Status) : (s.setStatus x).supply = s.supply := rfl
@[simp] theorem State.setStatus_water (s : State) (x : Status) : (s.setStatus x).water = s.water := rfl
@[simp] theorem State.setStatus_climate (s : State) (x : Status) : (s.setStatus x).climate = s.climate := rfl
@[simp] theorem State.setStatus_motion (s : State) (x : Status) : (s.setStatus x).motion = s.motion := rfl
@[simp] theorem State.setStatus_lights (s : State) (x : Status) : (s.setStatus x).lights = s.lights := rfl
@[simp] theorem State.setStatus_periods (s : State) (x : Status) : (s.setStatus x).periods = s.periods := rfl
@[simp] theorem State.setStatus_due (s : State) (x : Status) : (s.setStatus x).due = s.due := rfl
@[simp] theorem State.setStatus_self (s : State) : s.setStatus s.status = s := rfl
@[simp] theorem State.setStatus_setStatus (s : State) (x y : Status) : (s.setStatus x).setStatus y = s.setStatus y := rfl

/-! ### State.setBroker -/

@[simp] theorem State.setBroker_now (s : State) (x : Broker) : (s.setBroker x).now = s.now := rfl
@[simp] theorem State.setBroker_pending (s : State) (x : Broker) : (s.setBroker x).pending = s.pending := rfl
@[simp] theorem State.setBroker_pins (s : State) (x : Broker) : (s.setBroker x).pins = s.pins := rfl
@[simp] theorem State.setBroker_seq (s : State) (x : Broker) : (s.setBroker x).seq = s.seq := rfl
@[simp] theorem State.setBroker_cell (s : State) (x : Broker) : (s.setBroker x).cell = s.cell := rfl
@[simp] theorem State.setBroker_status (s : State) (x : Broker) : (s.setBroker x).status = s.status := rfl
@[simp] theorem State.setBroker_broker (s : State) (x : Broker) : (s.setBroker x).broker = x := rfl
@[simp] theorem State.setBroker_view (s : State) (x : Broker) : (s.setBroker x).view = s.view := rfl
@[simp] theorem State.setBroker_bus (s : State) (x : Broker) : (s.setBroker x).bus = s.bus := rfl
@[simp] theorem State.setBroker_supply (s : State) (x : Broker) : (s.setBroker x).supply = s.supply := rfl
@[simp] theorem State.setBroker_water (s : State) (x : Broker) : (s.setBroker x).water = s.water := rfl
@[simp] theorem State.setBroker_climate (s : State) (x : Broker) : (s.setBroker x).climate = s.climate := rfl
@[simp] theorem State.setBroker_motion (s : State) (x : Broker) : (s.setBroker x).motion = s.motion := rfl
@[simp] theorem State.setBroker_lights (s : State) (x : Broker) : (s.setBroker x).lights = s.lights := rfl
@[simp] theorem State.setBroker_periods (s : State) (x : Broker) : (s.setBroker x).periods = s.periods := rfl
@[simp] theorem State.setBroker_due (s : State) (x : Broker) : (s.setBroker x).due = s.due := rfl
@[simp] theorem State.setBroker_self (s : State) : s.setBroker s.broker = s := rfl
@[simp] theorem State.setBroker_setBroker (s : State) (x y : Broker) : (s.setBroker x).setBroker y = s.setBroker y := rfl

/-! ### State.setView -/

@[simp] theorem State.setView_now (s : State) (x : View) : (s.setView x).now = s.now := rfl
@[simp] theorem State.setView_pending (s : State) (x : View) : (s.setView x).pending = s.pending := rfl
@[simp] theorem State.setView_pins (s : State) (x : View) : (s.setView x).pins = s.pins := rfl
@[simp] theorem State.setView_seq (s : State) (x : View) : (s.setView x).seq = s.seq := rfl
@[simp] theorem State.setView_cell (s : State) (x : View) : (s.setView x).cell = s.cell := rfl
@[simp] theorem State.setView_status (s : State) (x : View) : (s.setView x).status = s.status := rfl
@[simp] theorem State.setView_broker (s : State) (x : View) : (s.setView x).broker = s.broker := rfl
@[simp] theorem State.setView_view (s : State) (x : View) : (s.setView x).view = x := rfl
@[simp] theorem State.setView_bus (s : State) (x : View) : (s.setView x).bus = s.bus := rfl
@[simp] theorem State.setView_supply (s : State) (x : View) : (s.setView x).supply = s.supply := rfl
@[simp] theorem State.setView_water (s : State) (x : View) : (s.setView x).water = s.water := rfl
@[simp] theorem State.setView_climate (s : State) (x : View) : (s.setView x).climate = s.climate := rfl
@[simp] theorem State.setView_motion (s : State) (x : View) : (s.setView x).motion = s.motion := rfl
@[simp] theorem State.setView_lights (s : State) (x : View) : (s.setView x).lights = s.lights := rfl
@[simp] theorem State.setView_periods (s : State) (x : View) : (s.setView x).periods = s.periods := rfl
@[simp] theorem State.setView_due (s : State) (x : View) : (s.setView x).due = s.due := rfl
@[simp] theorem State.setView_self (s : State) : s.setView s.view = s := rfl
@[simp] theorem State.setView_setView (s : State) (x y : View) : (s.setView x).setView y = s.setView y := rfl

/-! ### State.setBus -/

@[simp] theorem State.setBus_now (s : State) (x : Bus) : (s.setBus x).now = s.now := rfl
@[simp] theorem State.setBus_pending (s : State) (x : Bus) : (s.setBus x).pending = s.pending := rfl
@[simp] theorem State.setBus_pins (s : State) (x : Bus) : (s.setBus x).pins = s.pins := rfl
@[simp] theorem State.setBus_seq (s : State) (x : Bus) : (s.setBus x).seq = s.seq := rfl
@[simp] theorem State.setBus_cell (s : State) (x : Bus) : (s.setBus x).cell = s.cell := rfl
@[simp] theorem State.setBus_status (s : State) (x : Bus) : (s.setBus x).status = s.status := rfl
@[simp] theorem State.setBus_broker (s : State) (x : Bus) : (s.setBus x).broker = s.broker := rfl
@[simp] theorem State.setBus_view (s : State) (x : Bus) : (s.setBus x).view = s.view := rfl
@[simp] theorem State.setBus_bus (s : State) (x : Bus) : (s.setBus x).bus = x := rfl
@[simp] theorem State.setBus_supply (s : State) (x : Bus) : (s.setBus x).supply = s.supply := rfl
@[simp] theorem State.setBus_water (s : State) (x : Bus) : (s.setBus x).water = s.water := rfl
@[simp] theorem State.setBus_climate (s : State) (x : Bus) : (s.setBus x).climate = s.climate := rfl
@[simp] theorem State.setBus_motion (s : State) (x : Bus) : (s.setBus x).motion = s.motion := rfl
@[simp] theorem State.setBus_lights (s : State) (x : Bus) : (s.setBus x).lights = s.lights := rfl
@[simp] theorem State.setBus_periods (s : State) (x : Bus) : (s.setBus x).periods = s.periods := rfl
@[simp] theorem State.setBus_due (s : State) (x : Bus) : (s.setBus x).due = s.due := rfl
@[simp] theorem State.setBus_self (s : State) : s.setBus s.bus = s := rfl
@[simp] theorem State.setBus_setBus (s : State) (x y : Bus) : (s.setBus x).setBus y = s.setBus y := rfl

/-! ### State.setSupply -/

@[simp] theorem State.setSupply_now (s : State) (x : Supply) : (s.setSupply x).now = s.now := rfl
@[simp] theorem State.setSupply_pending (s : State) (x : Supply) : (s.setSupply x).pending = s.pending := rfl
@[simp] theorem State.setSupply_pins (s : State) (x : Supply) : (s.setSupply x).pins = s.pins := rfl
@[simp] theorem State.setSupply_seq (s : State) (x : Supply) : (s.setSupply x).seq = s.seq := rfl
@[simp] theorem State.setSupply_cell (s : State) (x : Supply) : (s.setSupply x).cell = s.cell := rfl
@[simp] theorem State.setSupply_status (s : State) (x : Supply) : (s.setSupply x).status = s.status := rfl
@[simp] theorem State.setSupply_broker (s : State) (x : Supply) : (s.setSupply x).broker = s.broker := rfl
@[simp] theorem State.setSupply_view (s : State) (x : Supply) : (s.setSupply x).view = s.view := rfl
@[simp] theorem State.setSupply_bus (s : State) (x : Supply) : (s.setSupply x).bus = s.bus := rfl
@[simp] theorem State.setSupply_supply (s : State) (x : Supply) : (s.setSupply x).supply = x := rfl
@[simp] theorem State.setSupply_water (s : State) (x : Supply) : (s.setSupply x).water = s.water := rfl
@[simp] theorem State.setSupply_climate (s : State) (x : Supply) : (s.setSupply x).climate = s.climate := rfl
@[simp] theorem State.setSupply_motion (s : State) (x : Supply) : (s.setSupply x).motion = s.motion := rfl
@[simp] theorem State.setSupply_lights (s : State) (x : Supply) : (s.setSupply x).lights = s.lights := rfl
@[simp] theorem State.setSupply_periods (s : State) (x : Supply) : (s.setSupply x).periods = s.periods := rfl
@[simp] theorem State.setSupply_due (s : State) (x : Supply) : (s.setSupply x).due = s.due := rfl
@[simp] theorem State.setSupply_self (s : State) : s.setSupply s.supply = s := rfl
@[simp] theorem State.setSupply_setSupply (s : State) (x y : Supply) : (s.setSupply x).setSupply y = s.setSupply y := rfl

/-! ### State.setWater -/

@[simp] theorem State.setWater_now (s : State) (x : Water) : (s.setWater x).now = s.now := rfl
@[simp] theorem State.setWater_pending (s : State) (x : Water) : (s.setWater x).pending = s.pending := rfl
@[simp] theorem State.setWater_pins (s : State) (x : Water) : (s.setWater x).pins = s.pins := rfl
@[simp] theorem State.setWater_seq (s : State) (x : Water) : (s.setWater x).seq = s.seq := rfl
@[simp] theorem State.setWater_cell (s : State) (x : Water) : (s.setWater x).cell = s.cell := rfl
@[simp] theorem State.setWater_status (s : State) (x : Water) : (s.setWater x).status = s.status := rfl
@[simp] theorem State.setWater_broker (s : State) (x : Water) : (s.setWater x).broker = s.broker := rfl
@[simp] theorem State.setWater_view (s : State) (x : Water) : (s.setWater x).view = s.view := rfl
@[simp] theorem State.setWater_bus (s : State) (x : Water) : (s.setWater x).bus = s.bus := rfl
@[simp] theorem State.setWater_supply (s : State) (x : Water) : (s.setWater x).supply = s.supply := rfl
@[simp] theorem State.setWater_water (s : State) (x : Water) : (s.setWater x).water = x := rfl
@[simp] theorem State.setWater_climate (s : State) (x : Water) : (s.setWater x).climate = s.climate := rfl
@[simp] theorem State.setWater_motion (s : State) (x : Water) : (s.setWater x).motion = s.motion := rfl
@[simp] theorem State.setWater_lights (s : State) (x : Water) : (s.setWater x).lights = s.lights := rfl
@[simp] theorem State.setWater_periods (s : State) (x : Water) : (s.setWater x).periods = s.periods := rfl
@[simp] theorem State.setWater_due (s : State) (x : Water) : (s.setWater x).due = s.due := rfl
@[simp] theorem State.setWater_self (s : State) : s.setWater s.water = s := rfl
@[simp] theorem State.setWater_setWater (s : State) (x y : Water) : (s.setWater x).setWater y = s.setWater y := rfl

/-! ### State.setClimate -/

@[simp] theorem State.setClimate_now (s : State) (x : Climate) : (s.setClimate x).now = s.now := rfl
@[simp] theorem State.setClimate_pending (s : State) (x : Climate) : (s.setClimate x).pending = s.pending := rfl
@[simp] theorem State.setClimate_pins (s : State) (x : Climate) : (s.setClimate x).pins = s.pins := rfl
@[simp] theorem State.setClimate_seq (s : State) (x : Climate) : (s.setClimate x).seq = s.seq := rfl
@[simp] theorem State.setClimate_cell (s : State) (x : Climate) : (s.setClimate x).cell = s.cell := rfl
@[simp] theorem State.setClimate_status (s : State) (x : Climate) : (s.setClimate x).status = s.status := rfl
@[simp] theorem State.setClimate_broker (s : State) (x : Climate) : (s.setClimate x).broker = s.broker := rfl
@[simp] theorem State.setClimate_view (s : State) (x : Climate) : (s.setClimate x).view = s.view := rfl
@[simp] theorem State.setClimate_bus (s : State) (x : Climate) : (s.setClimate x).bus = s.bus := rfl
@[simp] theorem State.setClimate_supply (s : State) (x : Climate) : (s.setClimate x).supply = s.supply := rfl
@[simp] theorem State.setClimate_water (s : State) (x : Climate) : (s.setClimate x).water = s.water := rfl
@[simp] theorem State.setClimate_climate (s : State) (x : Climate) : (s.setClimate x).climate = x := rfl
@[simp] theorem State.setClimate_motion (s : State) (x : Climate) : (s.setClimate x).motion = s.motion := rfl
@[simp] theorem State.setClimate_lights (s : State) (x : Climate) : (s.setClimate x).lights = s.lights := rfl
@[simp] theorem State.setClimate_periods (s : State) (x : Climate) : (s.setClimate x).periods = s.periods := rfl
@[simp] theorem State.setClimate_due (s : State) (x : Climate) : (s.setClimate x).due = s.due := rfl
@[simp] theorem State.setClimate_self (s : State) : s.setClimate s.climate = s := rfl
@[simp] theorem State.setClimate_setClimate (s : State) (x y : Climate) : (s.setClimate x).setClimate y = s.setClimate y := rfl

/-! ### State.setMotion -/

@[simp] theorem State.setMotion_now (s : State) (x : Motion) : (s.setMotion x).now = s.now := rfl
@[simp] theorem State.setMotion_pending (s : State) (x : Motion) : (s.setMotion x).pending = s.pending := rfl
@[simp] theorem State.setMotion_pins (s : State) (x : Motion) : (s.setMotion x).pins = s.pins := rfl
@[simp] theorem State.setMotion_seq (s : State) (x : Motion) : (s.setMotion x).seq = s.seq := rfl
@[simp] theorem State.setMotion_cell (s : State) (x : Motion) : (s.setMotion x).cell = s.cell := rfl
@[simp] theorem State.setMotion_status (s : State) (x : Motion) : (s.setMotion x).status = s.status := rfl
@[simp] theorem State.setMotion_broker (s : State) (x : Motion) : (s.setMotion x).broker = s.broker := rfl
@[simp] theorem State.setMotion_view (s : State) (x : Motion) : (s.setMotion x).view = s.view := rfl
@[simp] theorem State.setMotion_bus (s : State) (x : Motion) : (s.setMotion x).bus = s.bus := rfl
@[simp] theorem State.setMotion_supply (s : State) (x : Motion) : (s.setMotion x).supply = s.supply := rfl
@[simp] theorem State.setMotion_water (s : State) (x : Motion) : (s.setMotion x).water = s.water := rfl
@[simp] theorem State.setMotion_climate (s : State) (x : Motion) : (s.setMotion x).climate = s.climate := rfl
@[simp] theorem State.setMotion_motion (s : State) (x : Motion) : (s.setMotion x).motion = x := rfl
@[simp] theorem State.setMotion_lights (s : State) (x : Motion) : (s.setMotion x).lights = s.lights := rfl
@[simp] theorem State.setMotion_periods (s : State) (x : Motion) : (s.setMotion x).periods = s.periods := rfl
@[simp] theorem State.setMotion_due (s : State) (x : Motion) : (s.setMotion x).due = s.due := rfl
@[simp] theorem State.setMotion_self (s : State) : s.setMotion s.motion = s := rfl
@[simp] theorem State.setMotion_setMotion (s : State) (x y : Motion) : (s.setMotion x).setMotion y = s.setMotion y := rfl

/-! ### State.setLights -/

@[simp] theorem State.setLights_now (s : State) (x : Lights) : (s.setLights x).now = s.now := rfl
@[simp] theorem State.setLights_pending (s : State) (x : Lights) : (s.setLights x).pending = s.pending := rfl
@[simp] theorem State.setLights_pins (s : State) (x : Lights) : (s.setLights x).pins = s.pins := rfl
@[simp] theorem State.setLights_seq (s : State) (x : Lights) : (s.setLights x).seq = s.seq := rfl
@[simp] theorem State.setLights_cell (s : State) (x : Lights) : (s.setLights x).cell = s.cell := rfl
@[simp] theorem State.setLights_status (s : State) (x : Lights) : (s.setLights x).status = s.status := rfl
@[simp] theorem State.setLights_broker (s : State) (x : Lights) : (s.setLights x).broker = s.broker := rfl
@[simp] theorem State.setLights_view (s : State) (x : Lights) : (s.setLights x).view = s.view := rfl
@[simp] theorem State.setLights_bus (s : State) (x : Lights) : (s.setLights x).bus = s.bus := rfl
@[simp] theorem State.setLights_supply (s : State) (x : Lights) : (s.setLights x).supply = s.supply := rfl
@[simp] theorem State.setLights_water (s : State) (x : Lights) : (s.setLights x).water = s.water := rfl
@[simp] theorem State.setLights_climate (s : State) (x : Lights) : (s.setLights x).climate = s.climate := rfl
@[simp] theorem State.setLights_motion (s : State) (x : Lights) : (s.setLights x).motion = s.motion := rfl
@[simp] theorem State.setLights_lights (s : State) (x : Lights) : (s.setLights x).lights = x := rfl
@[simp] theorem State.setLights_periods (s : State) (x : Lights) : (s.setLights x).periods = s.periods := rfl
@[simp] theorem State.setLights_due (s : State) (x : Lights) : (s.setLights x).due = s.due := rfl
@[simp] theorem State.setLights_self (s : State) : s.setLights s.lights = s := rfl
@[simp] theorem State.setLights_setLights (s : State) (x y : Lights) : (s.setLights x).setLights y = s.setLights y := rfl

/-! ### State.setPeriods -/

@[simp] theorem State.setPeriods_now (s : State) (x : Periods) : (s.setPeriods x).now = s.now := rfl
@[simp] theorem State.setPeriods_pending (s : State) (x : Periods) : (s.setPeriods x).pending = s.pending := rfl
@[simp] theorem State.setPeriods_pins (s : State) (x : Periods) : (s.setPeriods x).pins = s.pins := rfl
@[simp] theorem State.setPeriods_seq (s : State) (x : Periods) : (s.setPeriods x).seq = s.seq := rfl
@[simp] theorem State.setPeriods_cell (s : State) (x : Periods) : (s.setPeriods x).cell = s.cell := rfl
@[simp] theorem State.setPeriods_status (s : State) (x : Periods) : (s.setPeriods x).status = s.status := rfl
@[simp] theorem State.setPeriods_broker (s : State) (x : Periods) : (s.setPeriods x).broker = s.broker := rfl
@[simp] theorem State.setPeriods_view (s : State) (x : Periods) : (s.setPeriods x).view = s.view := rfl
@[simp] theorem State.setPeriods_bus (s : State) (x : Periods) : (s.setPeriods x).bus = s.bus := rfl
@[simp] theorem State.setPeriods_supply (s : State) (x : Periods) : (s.setPeriods x).supply = s.supply := rfl
@[simp] theorem State.setPeriods_water (s : State) (x : Periods) : (s.setPeriods x).water = s.water := rfl
@[simp] theorem State.setPeriods_climate (s : State) (x : Periods) : (s.setPeriods x).climate = s.climate := rfl
@[simp] theorem State.setPeriods_motion (s : State) (x : Periods) : (s.setPeriods x).motion = s.motion := rfl
@[simp] theorem State.setPeriods_lights (s : State) (x : Periods) : (s.setPeriods x).lights = s.lights := rfl
@[simp] theorem State.setPeriods_periods (s : State) (x : Periods) : (s.setPeriods x).periods = x := rfl
@[simp] theorem State.setPeriods_due (s : State) (x : Periods) : (s.setPeriods x).due = s.due := rfl
@[simp] theorem State.setPeriods_self (s : State) : s.setPeriods s.periods = s := rfl
@[simp] theorem State.setPeriods_setPeriods (s : State) (x y : Periods) : (s.setPeriods x).setPeriods y = s.setPeriods y := rfl

/-! ### State.setDue -/

@[simp] theorem State.setDue_now (s : State) (x : Due) : (s.setDue x).now = s.now := rfl
@[simp] theorem State.setDue_pending (s : State) (x : Due) : (s.setDue x).pending = s.pending := rfl
@[simp] theorem State.setDue_pins (s : State) (x : Due) : (s.setDue x).pins = s.pins := rfl
@[simp] theorem State.setDue_seq (s : State) (x : Due) : (s.setDue x).seq = s.seq := rfl
@[simp] theorem State.setDue_cell (s : State) (x : Due) : (s.setDue x).cell = s.cell := rfl
@[simp] theorem State.setDue_status (s : State) (x : Due) : (s.setDue x).status = s.status := rfl
@[simp] theorem State.setDue_broker (s : State) (x : Due) : (s.setDue x).broker = s.broker := rfl
@[simp] theorem State.setDue_view (s : State) (x : Due) : (s.setDue x).view = s.view := rfl
@[simp] theorem State.setDue_bus (s : State) (x : Due) : (s.setDue x).bus = s.bus := rfl
@[simp] theorem State.setDue_supply (s : State) (x : Due) : (s.setDue x).supply = s.supply := rfl
@[simp] theorem State.setDue_water (s : State) (x : Due) : (s.setDue x).water = s.water := rfl
@[simp] theorem State.setDue_climate (s : State) (x : Due) : (s.setDue x).climate = s.climate := rfl
@[simp] theorem State.setDue_motion (s : State) (x : Due) : (s.setDue x).motion = s.motion := rfl
@[simp] theorem State.setDue_lights (s : State) (x : Due) : (s.setDue x).lights = s.lights := rfl
@[simp] theorem State.setDue_periods (s : State) (x : Due) : (s.setDue x).periods = s.periods := rfl
@[simp] theorem State.setDue_due (s : State) (x : Due) : (s.setDue x).due = x := rfl
@[simp] theorem State.setDue_self (s : State) : s.setDue s.due = s := rfl
@[simp] theorem State.setDue_setDue (s : State) (x y : Due) : (s.setDue x).setDue y = s.setDue y := rfl

/-! ### State.withPending -/

@[simp] theorem State.withPending_now (s : State) (q : List Instr) : (s.withPending q).now = s.now := rfl
@[simp] theorem State.withPending_pending (s : State) (q : List Instr) : (s.withPending q).pending = q := rfl
@[simp] theorem State.withPending_pins (s : State) (q : List Instr) : (s.withPending q).pins = s.pins := rfl
@[simp] theorem State.withPending_seq (s : State) (q : List Instr) : (s.withPending q).seq = s.seq := rfl
@[simp] theorem State.withPending_cell (s : State) (q : List Instr) : (s.withPending q).cell = s.cell := rfl
@[simp] theorem State.withPending_status (s : State) (q : List Instr) : (s.withPending q).status = s.status := rfl
@[simp] theorem State.withPending_broker (s : State) (q : List Instr) : (s.withPending q).broker = s.broker := rfl
@[simp] theorem State.withPending_view (s : State) (q : List Instr) : (s.withPending q).view = s.view := rfl
@[simp] theorem State.withPending_bus (s : State) (q : List Instr) : (s.withPending q).bus = s.bus := rfl
@[simp] theorem State.withPending_supply (s : State) (q : List Instr) : (s.withPending q).supply = s.supply := rfl
@[simp] theorem State.withPending_water (s : State) (q : List Instr) : (s.withPending q).water = s.water := rfl
@[simp] theorem State.withPending_climate (s : State) (q : List Instr) : (s.withPending q).climate = s.climate := rfl
@[simp] theorem State.withPending_motion (s : State) (q : List Instr) : (s.withPending q).motion = s.motion := rfl
@[simp] theorem State.withPending_lights (s : State) (q : List Instr) : (s.withPending q).lights = s.lights := rfl
@[simp] theorem State.withPending_periods (s : State) (q : List Instr) : (s.withPending q).periods = s.periods := rfl
@[simp] theorem State.withPending_due (s : State) (q : List Instr) : (s.withPending q).due = s.due := rfl

end Sys2Proof.Machine
end

