-- ==== Sys2Proof/Laws/Bus.lean ====
section
/-! SUPPORT. What the Transmit Gatherer can do (R171, R172): joining and building change nothing but the lanes, the
buffers and the Dropped counter, leave a frame in a buffer alone, and keep the limits of the lanes. -/

namespace Sys2Proof.Machine

/-- `b'` differs from `b` in the lanes, the buffers and the Dropped counter at most. -/
def Bus.sameLine (b b' : Bus) : Prop :=
  b' = { b with
    urgentBuf := b'.urgentBuf, normalBuf := b'.normalBuf, dropped := b'.dropped
    periodic := b'.periodic, urgent := b'.urgent }

theorem Bus.sameLine_refl (b : Bus) : b.sameLine b := rfl

theorem Bus.sameLine_trans {a b c : Bus} (h : a.sameLine b) (k : b.sameLine c) : a.sameLine c := by
  unfold Bus.sameLine at *
  rw [k, h]

/-! ### Lanes as lists -/

theorem sat255_le (n : Nat) : sat255 n ≤ 255 := Nat.min_le_right n 255

theorem coalesce_length (t : Tagged) (l : List Waiting) : (coalesce t l).length = l.length := by
  simp [coalesce]

theorem coalesce_pairwise (t : Tagged) (l : List Waiting) (h : l.Pairwise Waiting.differs) :
    (coalesce t l).Pairwise Waiting.differs := by
  unfold coalesce
  rw [List.pairwise_map]
  refine h.imp ?_
  intro a b hab
  unfold Waiting.differs at *
  split <;> split <;> rename_i h1 h2 <;> simp [Waiting.sameKey] at h1 h2 <;> simp_all

theorem append_pairwise (w : Waiting) (l : List Waiting) (h : l.Pairwise Waiting.differs)
    (k : l.any (Waiting.sameKey w.item.record) = false) : (l ++ [w]).Pairwise Waiting.differs := by
  rw [List.pairwise_append]
  refine ⟨h, List.pairwise_singleton _ _, ?_⟩
  intro a ha b hb
  simp only [List.mem_singleton] at hb
  subst hb
  rw [List.any_eq_false] at k
  have := k a ha
  simp [Waiting.sameKey] at this
  unfold Waiting.differs
  tauto

theorem any_of_sublist {p : Waiting → Bool} {l m : List Waiting} (h : l.Sublist m) (k : m.any p = false) :
    l.any p = false := by
  rw [List.any_eq_false] at *
  exact fun x hx => k x (h.subset hx)

theorem eraseP_length_lt {p : Waiting → Bool} {l : List Waiting} (h : l.any p = true) :
    (l.eraseP p).length + 1 = l.length := by
  obtain ⟨x, hx, hp⟩ := List.any_eq_true.mp h
  rw [List.length_eraseP_of_mem hx hp]
  have := List.length_pos_of_mem hx
  omega

theorem takeOut_sublist (c n : Nat) (l : List Waiting) : (takeOut c n l).Sublist l := by
  induction l generalizing n with
  | nil => simp [takeOut]
  | cons w rest ih =>
    unfold takeOut
    split
    · cases n with
      | zero => exact (ih 0).cons_cons w
      | succ k => exact (ih k).cons w
    · exact (ih n).cons_cons w

/-! ### Joining -/

theorem Bus.joinFullPeriodic_sameLine (now : Nat) (t : Tagged) (b : Bus) : b.sameLine (b.joinFullPeriodic now t) := by
  unfold Bus.joinFullPeriodic
  split
  · rfl
  · split <;> rfl

theorem Bus.join_sameLine (now : Nat) (t : Tagged) (b : Bus) : b.sameLine (b.join now t) := by
  unfold Bus.join
  repeat' split
  all_goals first | rfl | exact Bus.joinFullPeriodic_sameLine now t b

theorem Bus.join_buffers (now : Nat) (t : Tagged) (b : Bus) :
    (b.join now t).urgentBuf = b.urgentBuf ∧ (b.join now t).normalBuf = b.normalBuf := by
  unfold Bus.join Bus.joinFullPeriodic
  repeat' split
  all_goals exact ⟨rfl, rfl⟩

theorem Bus.join_dropped (now : Nat) (t : Tagged) (b : Bus) (h : b.dropped ≤ 255) : (b.join now t).dropped ≤ 255 := by
  unfold Bus.join Bus.joinFullPeriodic
  repeat' split
  all_goals first | exact h | exact sat255_le _

theorem Bus.joinFullPeriodic_fits (now : Nat) (t : Tagged) (b : Bus) (h : b.lanesFit)
    (k : b.periodic.any (Waiting.sameKey t.record) = false) : (b.joinFullPeriodic now t).lanesFit := by
  obtain ⟨h1, h2, h3, h4, h5, h6⟩ := h
  have key : ∀ p : Waiting → Bool, b.periodic.any p = true →
      (dropOldest p b.periodic ++ [Waiting.mk t now false]).length ≤ 8 ∧
      (dropOldest p b.periodic ++ [Waiting.mk t now false]).Pairwise Waiting.differs := by
    intro p hp
    refine ⟨?_, ?_⟩
    · have := eraseP_length_lt hp
      simp [dropOldest]
      omega
    · refine append_pairwise _ _ (h3.sublist List.eraseP_sublist) ?_
      exact any_of_sublist List.eraseP_sublist k
  unfold Bus.joinFullPeriodic
  split
  · rename_i hp
    exact ⟨(key _ hp).1, h2, (key _ hp).2, h4, h5, h6⟩
  · split
    · rename_i hp
      exact ⟨(key _ hp).1, h2, (key _ hp).2, h4, h5, h6⟩
    · exact ⟨h1, h2, h3, h4, h5, h6⟩

theorem Bus.join_fits (now : Nat) (t : Tagged) (b : Bus) (h : b.lanesFit) : (b.join now t).lanesFit := by
  obtain ⟨h1, h2, h3, h4, h5, h6⟩ := h
  unfold Bus.join
  split
  · split
    · exact ⟨h1, by simpa [coalesce_length] using h2, h3, coalesce_pairwise _ _ h4, h5, h6⟩
    · rename_i hk
      have hk := Bool.eq_false_iff.mpr hk
      split
      · rename_i hl
        refine ⟨h1, ?_, h3, append_pairwise _ _ h4 hk, h5, h6⟩
        simp [Config.urgentSlots] at hl ⊢
        omega
      · refine ⟨h1, ?_, h3, append_pairwise _ _ (h4.sublist (List.drop_sublist _ _)) ?_, h5, h6⟩
        · simp
          omega
        · exact any_of_sublist (List.drop_sublist _ _) hk
  · split
    · exact ⟨by simpa [coalesce_length] using h1, h2, coalesce_pairwise _ _ h3, h4, h5, h6⟩
    · rename_i hk
      have hk := Bool.eq_false_iff.mpr hk
      split
      · rename_i hl
        refine ⟨?_, h2, append_pairwise _ _ h3 hk, h4, h5, h6⟩
        simp [Config.periodicSlots] at hl ⊢
        omega
      · exact Bus.joinFullPeriodic_fits now t b ⟨h1, h2, h3, h4, h5, h6⟩ hk

/-! ### Building -/

theorem take4_fits {l : List Waiting} (h : l ≠ []) (c : Nat) :
    TxFrame.fits { cls := c, records := (l.take 4).map (·.item), probe := false } := by
  have : 0 < l.length := List.length_pos_iff.mpr h
  constructor <;> (simp only [List.length_map, List.length_take]; omega)

theorem Bus.ready_ofClass {now c : Nat} {b : Bus} (h : b.ready now c = true) : b.ofClass c ≠ [] := by
  intro e
  simp [Bus.ready, e] at h

theorem Bus.buildNormal_fits {now c : Nat} {b : Bus} (h : b.lanesFit) (k : b.ready now c = true) :
    (b.buildNormal c).lanesFit := by
  obtain ⟨h1, h2, h3, h4, h5, h6⟩ := h
  have hs := takeOut_sublist c 4 b.periodic
  refine ⟨le_trans hs.length_le h1, h2, h3.sublist hs, h4, h5, ?_⟩
  intro f hf
  simp only [Bus.buildNormal, Option.some.injEq] at hf
  subst hf
  exact take4_fits (Bus.ready_ofClass k) c

/-- The urgent part of building. -/
def Bus.buildUrgent (b : Bus) : Bus :=
  if b.urgentBuf.isNone && !b.urgent.isEmpty then
    { b with
      urgentBuf := some { cls := 0, records := (b.urgent.take 4).map (·.item), probe := false }
      urgent := b.urgent.drop 4 }
  else b

/-- The normal part of building. -/
def Bus.buildRest (now : Nat) (b : Bus) : Bus :=
  if b.normalBuf.isSome then b
  else if b.ready now 1 then b.buildNormal 1
  else if b.ready now 2 then b.buildNormal 2
  else if b.ready now 3 then b.buildNormal 3
  else b

theorem Bus.build_eq (now : Nat) (b : Bus) :
    b.build now = if b.lineFault then b else b.buildUrgent.buildRest now := rfl

theorem Bus.buildUrgent_fits {b : Bus} (h : b.lanesFit) : b.buildUrgent.lanesFit := by
  obtain ⟨h1, h2, h3, h4, h5, h6⟩ := h
  unfold Bus.buildUrgent
  split
  · rename_i hb
    simp only [Bool.and_eq_true, Bool.not_eq_true', List.isEmpty_eq_false_iff] at hb
    refine ⟨h1, ?_, h3, h4.sublist (List.drop_sublist _ _), ?_, h6⟩
    · simp
      omega
    · intro f hf
      simp only [Option.some.injEq] at hf
      subst hf
      exact take4_fits hb.2 0
  · exact ⟨h1, h2, h3, h4, h5, h6⟩

theorem Bus.buildRest_fits {now : Nat} {b : Bus} (h : b.lanesFit) : (b.buildRest now).lanesFit := by
  unfold Bus.buildRest
  repeat' split
  all_goals first | exact h | exact Bus.buildNormal_fits h (by assumption)

theorem Bus.build_fits (now : Nat) (b : Bus) (h : b.lanesFit) : (b.build now).lanesFit := by
  rw [Bus.build_eq]
  split
  · exact h
  · exact Bus.buildRest_fits (Bus.buildUrgent_fits h)

theorem Bus.build_sameLine (now : Nat) (b : Bus) : b.sameLine (b.build now) := by
  rw [Bus.build_eq]
  unfold Bus.buildUrgent Bus.buildRest Bus.buildNormal
  repeat' split
  all_goals rfl

theorem Bus.build_dropped (now : Nat) (b : Bus) : (b.build now).dropped = b.dropped := by
  rw [Bus.build_eq]
  unfold Bus.buildUrgent Bus.buildRest Bus.buildNormal
  repeat' split
  all_goals rfl

/-- Building leaves a frame that is in a buffer where it is (R172). -/
theorem Bus.build_keeps (now : Nat) (b : Bus) :
    (∀ f, b.urgentBuf = some f → (b.build now).urgentBuf = some f) ∧
    (∀ f, b.normalBuf = some f → (b.build now).normalBuf = some f) := by
  rw [Bus.build_eq]
  unfold Bus.buildUrgent Bus.buildRest Bus.buildNormal
  repeat' split
  all_goals simp_all

theorem Bus.ready_iff (now k : Nat) (b : Bus) : b.ready now k =
    ((k == 1 && !(b.ofClass k).isEmpty) || decide (4 ≤ (b.ofClass k).length)
      || ((b.ofClass k).head?.any fun w => w.ripe || decide (w.join + b.gatherMs ≤ now))) := by
  unfold Bus.ready
  cases h : b.ofClass k with
  | nil => simp
  | cons w rest => simp [Bool.or_assoc]

/-- What the normal buffer holds once the Gatherer has built what is ready (R167, R172). -/
theorem Bus.build_normalBuf (now : Nat) (b : Bus) : (b.build now).normalBuf =
    if b.lineFault = true ∨ b.normalBuf.isSome = true then b.normalBuf else b.nextNormal now := by
  have hu : b.buildUrgent.normalBuf = b.normalBuf ∧ (∀ k, b.buildUrgent.ofClass k = b.ofClass k)
      ∧ ∀ k, b.buildUrgent.ready now k = b.ready now k := by
    unfold Bus.buildUrgent
    split <;> exact ⟨rfl, fun _ => rfl, fun _ => rfl⟩
  rw [Bus.build_eq]
  unfold Bus.buildRest Bus.buildNormal Bus.nextNormal
  simp only [hu, ← Bus.ready_iff, List.find?]
  cases hl : b.lineFault <;> cases hn : b.normalBuf <;> simp [hu, hn]
  cases b.ready now 1 <;> cases b.ready now 2 <;> cases b.ready now 3 <;> simp [hu, hn]

theorem takeOut_ofClass (c k : Nat) (l : List Waiting) (n : Nat) :
    (takeOut c n l).filter (fun w => w.cls == k) = (l.filter fun w => w.cls == k).drop (if c = k then n else 0) := by
  induction l generalizing n with
  | nil => simp [takeOut]
  | cons w rest ih =>
    unfold takeOut
    by_cases hc : w.cls = c
    · cases n with
      | zero => simp [hc, List.filter_cons, ih]
      | succ n =>
        by_cases hk : c = k
        · subst hk
          simp [hc, ih]
        · simp [hc, ih, hk]
    · by_cases hk : c = k
      · subst hk
        simp [hc, ih]
      · simp [hc, ih, hk, List.filter_cons]

/-- An empty normal buffer takes its next frame when the Gatherer builds (R172). -/
theorem Bus.build_refills (now : Nat) (b : Bus) (h : b.normalBuf = none) : b.refills (b.build now) now := by
  have hu : (∀ k, b.buildUrgent.ofClass k = b.ofClass k) ∧ (∀ k, b.buildUrgent.ready now k = b.ready now k)
      ∧ b.buildUrgent.normalBuf = none ∧ b.buildUrgent.periodic = b.periodic := by
    unfold Bus.buildUrgent
    split <;> exact ⟨fun _ => rfl, fun _ => rfl, h, rfl⟩
  refine ⟨?_, fun k => ?_⟩
  · rw [Bus.build_normalBuf]
    simp [h]
  · rw [Bus.build_eq]
    unfold Bus.buildRest Bus.buildNormal Bus.nextNormal
    simp only [hu, ← Bus.ready_iff, List.find?]
    have ho : ∀ c, ({ b.buildUrgent with periodic := takeOut c 4 b.periodic } : Bus).ofClass k
        = (b.ofClass k).drop (if c = k then 4 else 0) := fun c => takeOut_ofClass c k _ 4
    cases hl : b.lineFault <;> simp
    cases b.ready now 1 <;> cases b.ready now 2 <;> cases b.ready now 3 <;> simp [hu] <;>
      exact ho _

/-! ### Handing a record over -/

theorem State.hand_eq (s : State) (r : Record) (tag : Nat) :
    s.hand r tag = s.setBus ((s.bus.join s.now ⟨r, tag⟩).build s.now) := rfl

theorem State.hand_sameLine (s : State) (r : Record) (tag : Nat) : s.bus.sameLine (s.hand r tag).bus :=
  Bus.sameLine_trans (Bus.join_sameLine _ _ _) (Bus.build_sameLine _ _)

theorem State.hand_lanesFit (s : State) (r : Record) (tag : Nat) (h : s.bus.lanesFit) : (s.hand r tag).bus.lanesFit :=
  Bus.build_fits _ _ (Bus.join_fits _ _ _ h)

theorem State.hand_dropped (s : State) (r : Record) (tag : Nat) (h : s.bus.dropped ≤ 255) :
    (s.hand r tag).bus.dropped ≤ 255 := by
  rw [State.hand_eq, State.setBus_bus, Bus.build_dropped]
  exact Bus.join_dropped _ _ _ h

end Sys2Proof.Machine
end

