-- ==== Sys2Proof/Laws/Broker.lean ====
section
/-! SUPPORT. What the shared operations of Station Status, the Peer View's reads and the Load Broker can do, said once
for each: on a state whose checks, lanes, claims and counters are in order they keep them so, and change no block but
Station Status, the claim table, the periods of DRAW and the Gatherer (R31, R33 to R47, R69, R171, R181). -/

namespace Sys2Proof.Machine

/-! ### The relation -/

/-- What every operation of the blocks needs and keeps. -/
structure State.Ok (s : State) : Prop where
  checked : s.view.checked
  lanes : s.bus.lanesFit
  claims : s.broker.claimsFit
  dropped : s.bus.dropped ≤ 255
  changes : s.status.changeCount ≤ 255

/-- What no operation of the blocks changes. -/
structure State.Base (s t : State) : Prop where
  now : t.now = s.now
  pending : t.pending = s.pending
  pins : t.pins = s.pins
  seq : t.seq = s.seq
  supply : t.supply = s.supply
  view : t.view = s.view
  cell : t.cell = { s.cell with lockout := t.cell.lockout }
  bus : s.bus.sameLine t.bus

theorem State.Base.refl (s : State) : State.Base s s := ⟨rfl, rfl, rfl, rfl, rfl, rfl, rfl, rfl⟩

theorem State.Base.trans {s t u : State} (h : State.Base s t) (k : State.Base t u) : State.Base s u where
  now := k.now.trans h.now
  pending := k.pending.trans h.pending
  pins := k.pins.trans h.pins
  seq := k.seq.trans h.seq
  supply := k.supply.trans h.supply
  view := k.view.trans h.view
  cell := by rw [k.cell, h.cell]
  bus := Bus.sameLine_trans h.bus k.bus

/-- From an orderly `s`, `t` is orderly and differs from `s` in the blocks `Base` does not name, and not in the
channels of the Motion Controller. -/
def Calm (s t : State) : Prop := s.Ok → t.Ok ∧ State.Base s t ∧ t.motion = s.motion

theorem Calm.refl (s : State) : Calm s s := fun h => ⟨h, State.Base.refl s, rfl⟩

theorem Calm.trans {s t u : State} (h : Calm s t) (k : Calm t u) : Calm s u := fun o =>
  have a := h o
  have b := k a.1
  ⟨b.1, a.2.1.trans b.2.1, b.2.2.trans a.2.2⟩

theorem Calm.ite {s : State} {p : Prop} [Decidable p] {a b : State} (h : p → Calm s a) (k : ¬p → Calm s b) :
    Calm s (if p then a else b) := by
  split
  · exact h ‹_›
  · exact k ‹_›

theorem Calm.itePair {s : State} {α : Type} {p : Prop} [Decidable p] {a b : State × α} (h : p → Calm s a.1)
    (k : ¬p → Calm s b.1) : Calm s (if p then a else b).1 := by
  split
  · exact h ‹_›
  · exact k ‹_›

theorem Calm.foldl {α : Type} (f : State → α → State) (h : ∀ s x, Calm s (f s x)) (l : List α) (s : State) :
    Calm s (l.foldl f s) := by
  induction l generalizing s with
  | nil => exact Calm.refl s
  | cons x xs ih => exact (h s x).trans (ih (f s x))

/-- An operation may use that the state it starts from is orderly. -/
theorem Calm.intro {s t : State} (h : s.Ok → Calm s t) : Calm s t := fun o => h o o

/-! ### Updates of one block -/

theorem setStatus_calm (s : State) (x : Status) (h : s.status.changeCount ≤ 255 → x.changeCount ≤ 255) :
    Calm s (s.setStatus x) := fun o =>
  ⟨⟨o.checked, o.lanes, o.claims, o.dropped, h o.changes⟩, ⟨rfl, rfl, rfl, rfl, rfl, rfl, rfl, rfl⟩, rfl⟩

theorem setBroker_calm (s : State) (x : Broker) (h : s.broker.claimsFit → x.claimsFit) : Calm s (s.setBroker x) :=
  fun o => ⟨⟨o.checked, o.lanes, h o.claims, o.dropped, o.changes⟩, ⟨rfl, rfl, rfl, rfl, rfl, rfl, rfl, rfl⟩, rfl⟩

theorem setWater_calm (s : State) (x : Water) : Calm s (s.setWater x) :=
  fun o => ⟨⟨o.checked, o.lanes, o.claims, o.dropped, o.changes⟩, ⟨rfl, rfl, rfl, rfl, rfl, rfl, rfl, rfl⟩, rfl⟩

theorem setClimate_calm (s : State) (x : Climate) : Calm s (s.setClimate x) :=
  fun o => ⟨⟨o.checked, o.lanes, o.claims, o.dropped, o.changes⟩, ⟨rfl, rfl, rfl, rfl, rfl, rfl, rfl, rfl⟩, rfl⟩

theorem setLights_calm (s : State) (x : Lights) : Calm s (s.setLights x) :=
  fun o => ⟨⟨o.checked, o.lanes, o.claims, o.dropped, o.changes⟩, ⟨rfl, rfl, rfl, rfl, rfl, rfl, rfl, rfl⟩, rfl⟩

theorem setPeriods_calm (s : State) (x : Periods) : Calm s (s.setPeriods x) :=
  fun o => ⟨⟨o.checked, o.lanes, o.claims, o.dropped, o.changes⟩, ⟨rfl, rfl, rfl, rfl, rfl, rfl, rfl, rfl⟩, rfl⟩

theorem setDue_calm (s : State) (x : Due) : Calm s (s.setDue x) :=
  fun o => ⟨⟨o.checked, o.lanes, o.claims, o.dropped, o.changes⟩, ⟨rfl, rfl, rfl, rfl, rfl, rfl, rfl, rfl⟩, rfl⟩

theorem setLockout_calm (s : State) (b : Bool) : Calm s (s.setCell { s.cell with lockout := b }) :=
  fun o => ⟨⟨o.checked, o.lanes, o.claims, o.dropped, o.changes⟩, ⟨rfl, rfl, rfl, rfl, rfl, rfl, rfl, rfl⟩, rfl⟩

theorem hand_calm (s : State) (r : Record) (tag : Nat) : Calm s (s.hand r tag) := fun o =>
  ⟨⟨o.checked, State.hand_lanesFit s r tag o.lanes, o.claims, State.hand_dropped s r tag o.dropped, o.changes⟩,
    ⟨rfl, rfl, rfl, rfl, rfl, rfl, rfl, State.hand_sameLine s r tag⟩, rfl⟩

/-! ### Station Status -/

theorem raiseAttention_calm (s : State) (n : Fin 19) (d : Bool) : Calm s (s.raiseAttention n d) := by
  unfold State.raiseAttention
  split
  · exact setStatus_calm s _ id
  · exact Calm.refl s

/-- A monitor's change moves the summary, the change count, the attention flag and the Gatherer (R181, R182). -/
theorem monitor_calm (s : State) (n : Fin 19) (d : Bool) : Calm s (s.monitor n d) := by
  unfold State.monitor
  refine Calm.trans ?_ (raiseAttention_calm _ n d)
  refine Calm.trans (t := (s.setStatus _).setDue _) ?_ (Calm.ite (fun _ => hand_calm _ _ _) (fun _ => Calm.refl _))
  exact Calm.trans (setStatus_calm s _ (fun _ => by simp [sat255])) (setDue_calm _ _)

theorem runEntryNotices_calm (s : State) : Calm s s.runEntryNotices := by
  unfold State.runEntryNotices
  apply Calm.foldl
  intro s n
  exact Calm.ite (fun _ => (hand_calm _ _ _).trans (raiseAttention_calm _ _ _)) (fun _ => Calm.refl _)

theorem answer_calm (s : State) (code o : Nat) : Calm s (s.answer code o) := by
  refine Calm.trans (setStatus_calm s _ ?_) (setDue_calm _ _)
  exact id

theorem reviseOutcome_calm (s : State) (req o : Nat) : Calm s (s.reviseOutcome req o) := by
  unfold State.reviseOutcome
  split
  · exact setStatus_calm s _ id
  · exact Calm.refl s

/-! ### Reads of the Peer View -/

theorem badEntries_nil {s : State} (h : s.view.checked) (p : Fin 16 → Entry → Bool) : s.badEntries p = [] := by
  unfold State.badEntries
  rw [List.flatMap_eq_nil_iff]
  intro i _
  rw [List.filter_eq_nil_iff]
  intro e he
  obtain ⟨w, rfl⟩ := (Tab.mem_iff _ _).mp he
  simp [h i w]

/-- A read of entries whose checks agree changes nothing (R69). -/
theorem read_checked {s : State} (h : s.view.checked) (p : Fin 16 → Entry → Bool) : s.read p = s := by
  unfold State.read
  simp [badEntries_nil h p]

theorem readAll_checked {s : State} (h : s.view.checked) (p : Entry → Bool) : s.readAll p = s := read_checked h _

theorem readSupply_checked {s : State} (h : s.view.checked) : s.readSupply = s := by
  unfold State.readSupply
  split
  · rfl
  · exact readAll_checked h _

theorem brokerReads_checked {s : State} (h : s.view.checked) : s.brokerReads = s := by
  unfold State.brokerReads
  rw [readSupply_checked h, readAll_checked h]

theorem readAll_calm (s : State) (p : Entry → Bool) : Calm s (s.readAll p) :=
  Calm.intro fun o => by rw [readAll_checked o.checked]; exact Calm.refl s

theorem readSupply_calm (s : State) : Calm s s.readSupply :=
  Calm.intro fun o => by rw [readSupply_checked o.checked]; exact Calm.refl s

theorem brokerReads_calm (s : State) : Calm s s.brokerReads :=
  Calm.intro fun o => by rw [brokerReads_checked o.checked]; exact Calm.refl s

/-! ### Claims -/

theorem Claim.toIdle_fits {c : Claim} (h : c.rank ≤ 6) : c.toIdle.fits := by
  simp [Claim.toIdle, Claim.fits, Claim.drawing, h]

theorem Claim.toWaiting_fits {c : Claim} (h : c.rank ≤ 6) (k : c.asked ≤ 30000) : c.toWaiting.fits := by
  simp [Claim.toWaiting, Claim.fits, Claim.drawing, h, k]

theorem Claim.toHeld_fits {c : Claim} {a : Nat} (h : c.rank ≤ 6) (k : a ≤ 30000) : (c.toHeld a).fits := by
  simp [Claim.toHeld, Claim.fits, Claim.drawing, h, k]

theorem Claim.toHeld_rank_fits {c : Claim} {a r : Nat} (h : r ≤ 6) (k : a ≤ 30000) :
    Claim.fits { c.toHeld a with rank := r } := by
  simp [Claim.toHeld, Claim.fits, Claim.drawing, h, k]

theorem Claim.lose_fits {c : Claim} (h : c.fits) : c.lose.fits := by
  unfold Claim.lose
  split
  · exact Claim.toHeld_fits h.1 h.2.1
  · split
    · exact Claim.toIdle_fits h.1
    · exact Claim.toWaiting_fits h.1 h.2.2.1

theorem State.Ok.claim {s : State} (o : s.Ok) (id : Fin 7) : (s.claim id).fits := o.claims id

theorem setClaim_calm (s : State) (id : Fin 7) (c : Claim) (h : c.fits) : Calm s (s.setClaim id c) := by
  apply setBroker_calm
  intro k j
  by_cases e : id = j
  · subst e; simpa using h
  · simpa [e] using k j

theorem handDraw_calm (s : State) (id : Fin 7) : Calm s (s.handDraw id) := (hand_calm s _ _).trans (setPeriods_calm _ _)

theorem putClaim_calm (s : State) (id : Fin 7) (c : Claim) (h : c.fits) : Calm s (s.putClaim id c) :=
  (setClaim_calm s id c h).trans (handDraw_calm _ id)

theorem startContest_calm (s : State) (id : Fin 7) (c : Claim)
    (h : ∀ n, Claim.fits { c with announcing := true, window := none, serial := n }) :
    Calm s (s.startContest id c) := by
  refine Calm.trans (setBroker_calm s _ ?_) (putClaim_calm _ id _ (h _))
  exact fun k => k

theorem contest_fits {c : Claim} (h : c.rank ≤ 6) (k : c.asked ≤ 30000) (n : Nat) :
    Claim.fits { c with st := .contest, held := 0, raise := false, announcing := true, window := none, serial := n } := by
  simp [Claim.fits, Claim.drawing, h, k]

/-- A re-test starts a contest or leaves the claim Waiting (R45). -/
theorem testWaiting_calm (s : State) (id : Fin 7) : Calm s (s.testWaiting id) := by
  apply Calm.intro
  intro o
  have f := o.claim id
  unfold State.testWaiting
  simp only [brokerReads_checked o.checked]
  refine Calm.ite (fun _ => startContest_calm s id _ fun n => ?_) (fun _ => ?_)
  · exact contest_fits f.1 f.2.2.1 n
  · exact setClaim_calm s id _ (Claim.toWaiting_fits f.1 f.2.2.1)

theorem retest_calm (s : State) : Calm s s.retest := by
  unfold State.retest
  exact Calm.foldl _ (fun s id => Calm.ite (fun _ => testWaiting_calm s id) (fun _ => Calm.refl s)) _ _

theorem abandonContest_calm (s : State) (id : Fin 7) : Calm s (s.abandonContest id) :=
  Calm.intro fun o => Calm.ite (fun _ => putClaim_calm s id _ (Claim.toIdle_fits (o.claim id).1)) (fun _ => Calm.refl s)

/-- A release leaves the claim Idle and re-tests the Waiting ones (R43, R45). -/
theorem release_calm (s : State) (id : Fin 7) : Calm s (s.release id) := by
  apply Calm.intro
  intro o
  have f := Claim.toIdle_fits (o.claim id).1
  unfold State.release
  split
  · exact Calm.refl s
  · exact (setClaim_calm s id _ f).trans (retest_calm _)
  · exact (putClaim_calm s id _ f).trans (retest_calm _)

/-- An ask of a rank of 0 to 6 (R33, R34). -/
theorem ask_calm (s : State) (id : Fin 7) (rank a : Nat) (single : Bool) (h : rank ≤ 6) :
    Calm s (s.ask id rank a single).1 := by
  have ha : min a Config.maxAmount ≤ 30000 := Nat.min_le_right _ _
  unfold State.ask
  refine Calm.itePair (fun _ => release_calm s id) (fun _ => Calm.itePair (fun _ => Calm.refl s) (fun _ => ?_))
  refine (abandonContest_calm s id).trans ?_
  refine Calm.itePair (fun _ => putClaim_calm _ id _ ?_) (fun _ => Calm.intro fun o => ?_)
  · simp [Claim.toHeld, Claim.fits, Claim.drawing, h, ha]
  · dsimp only
    rw [brokerReads_checked o.checked]
    refine Calm.itePair (fun _ => startContest_calm _ id _ fun n => ?_)
      (fun _ => Calm.itePair (fun _ => setClaim_calm _ id _ ?_) (fun _ => setClaim_calm _ id _ ?_))
    · simp [Claim.fits, Claim.drawing, h, ha]
    · simp [Claim.toIdle, Claim.fits, Claim.drawing, h]
    · simp [Claim.toWaiting, Claim.fits, Claim.drawing, h, ha]

theorem Claim.lowered_fits {c : Claim} {a : Nat} (f : c.fits) (d : c.drawing = true) (h : a ≤ c.held) :
    Claim.fits { c with held := a, asked := a, raise := false, announcing := false, window := none } := by
  obtain ⟨h1, h2, h3, h4, h5, h6, h7⟩ := f
  have : a ≤ 30000 := le_trans h h2
  refine ⟨h1, this, this, fun k => ?_, by simp, by simp, h7⟩
  exact absurd (show c.drawing = false from k) (by simp [d])

/-- A Lower takes effect at once (R43). -/
theorem lower_calm (s : State) (id : Fin 7) (a : Nat) : Calm s (s.lower id a).1 := by
  apply Calm.intro
  intro o
  unfold State.lower
  refine Calm.itePair (fun _ => Calm.refl s) (fun hd => Calm.itePair (fun _ => release_calm s id) (fun _ => ?_))
  refine (putClaim_calm s id _ ?_).trans (retest_calm _)
  simp at hd
  exact Claim.lowered_fits (o.claim id) hd.1 hd.2

theorem abandonRaise_calm (s : State) (id : Fin 7) : Calm s (s.abandonRaise id) :=
  Calm.intro fun o =>
    Calm.ite (fun _ => putClaim_calm s id _ (Claim.toHeld_fits (o.claim id).1 (o.claim id).2.1)) (fun _ => Calm.refl s)

theorem abandonRaise_held (s : State) (id : Fin 7) (h : (s.claim id).st = .held) :
    ((s.abandonRaise id).claim id).st = .held := by
  unfold State.abandonRaise
  split
  · simp [State.putClaim, State.handDraw, State.hand, State.setClaim, State.claim, Claim.toHeld]
  · exact h

/-- A Raise is granted at rank 0, contested, or leaves the claim Held (R42, R46, R51). -/
theorem raise_calm (s : State) (id : Fin 7) (a : Nat) : Calm s (s.raise id a).1 := by
  have ha : min a Config.maxAmount ≤ 30000 := Nat.min_le_right _ _
  apply Calm.intro
  intro o
  unfold State.raise
  refine Calm.itePair (fun _ => Calm.refl s) (fun hst => ?_)
  simp only [ne_eq, not_not] at hst
  refine Calm.itePair (fun _ => lower_calm s id _) (fun _ => ?_)
  refine Calm.itePair (fun _ => putClaim_calm s id _ (Claim.toHeld_fits (o.claim id).1 ha)) (fun _ => ?_)
  refine (abandonRaise_calm s id).trans (Calm.intro fun o' => ?_)
  have hh := abandonRaise_held s id hst
  obtain ⟨h1, h2, h3, h4, h5, h6, h7⟩ := o'.claim id
  dsimp only
  rw [brokerReads_checked o'.checked]
  refine Calm.itePair (fun _ => startContest_calm _ id _ fun n => ?_) (fun _ => Calm.refl _)
  exact ⟨h1, h2, ha, h4, fun _ => hh, by simp, h7⟩

/-- A Re-rank to a rank of 0 to 6 (R44). -/
theorem rerank_calm (s : State) (id : Fin 7) (rank : Nat) (h : rank ≤ 6) : Calm s (s.rerank id rank).1 := by
  apply Calm.intro
  intro o
  obtain ⟨h1, h2, h3, h4, h5, h6, h7⟩ := o.claim id
  have f (k : (s.claim id).st ≠ .forced) : Claim.fits { s.claim id with rank := rank } :=
    ⟨h, h2, h3, h4, h5, h6, fun e => absurd e k⟩
  unfold State.rerank
  dsimp only
  split
  · exact (setClaim_calm s id _ (f (by simp_all))).trans (testWaiting_calm _ id)
  · exact Calm.itePair (fun _ => Calm.refl s) (fun _ => putClaim_calm s id _ (f (by simp_all)))
  · exact Calm.refl s

/-- A Force makes the claim Forced at rank 1, or refuses (R47). -/
theorem force_calm (s : State) (id : Fin 7) (a : Nat) : Calm s (s.force id a).1 := by
  have ha : min a Config.maxAmount ≤ 30000 := Nat.min_le_right _ _
  unfold State.force
  refine (abandonContest_calm s id).trans (Calm.intro fun o => ?_)
  simp only [readSupply_checked o.checked]
  split
  · refine putClaim_calm _ id _ ?_
    simp [Claim.fits, Claim.drawing]
    omega
  · split
    · exact setClaim_calm _ id _ (Claim.toIdle_fits (o.claim id).1)
    · exact setClaim_calm _ id _ (Claim.toIdle_fits (o.claim id).1)
    · exact Calm.refl _

/-- A yield by completion leaves the claim Held at rank 0 with its amount (R49). -/
theorem complete_calm (s : State) (id : Fin 7) : Calm s (s.complete id) :=
  Calm.intro fun o => putClaim_calm s id _ (Claim.toHeld_rank_fits (Nat.zero_le 6) (o.claim id).2.1)

/-- A window's end leaves the claim Held at its asked amount, or lost (R39). -/
theorem windowEnd_calm (s : State) (id : Fin 7) : Calm s (s.windowEnd id).1 := by
  apply Calm.intro
  intro o
  have f := o.claim id
  unfold State.windowEnd
  dsimp only
  rw [brokerReads_checked o.checked]
  exact Calm.itePair (fun _ => putClaim_calm s id _ (Claim.toHeld_fits f.1 f.2.2.1))
    (fun _ => putClaim_calm s id _ (Claim.lose_fits f))

theorem announced_calm (s : State) (id : Fin 7) (tag : Nat) : Calm s (s.announced id tag) :=
  Calm.intro fun o => Calm.ite (fun _ => setClaim_calm s id _ (o.claim id)) (fun _ => Calm.refl s)

theorem announceFailed_calm (s : State) (id : Fin 7) (tag : Nat) : Calm s (s.announceFailed id tag).1 :=
  Calm.intro fun o =>
    Calm.itePair (fun _ => setClaim_calm s id _ (Claim.lose_fits (o.claim id))) (fun _ => Calm.refl s)

theorem contestYields_calm (s : State) (id : Fin 7) : Calm s (s.contestYields id).1 :=
  Calm.intro fun o => putClaim_calm s id _ (Claim.lose_fits (o.claim id))

end Sys2Proof.Machine
end

