-- ==== Sys2Proof/Laws/Climate.lean ====
section
/-! SUPPORT. The operations of the Climate Controller keep an orderly state orderly, and change no block but the
Climate Controller, Station Status, the claim table, the cell's Lockout and the Gatherer. -/

namespace Sys2Proof.Machine

theorem heaterRank_le (s : State) : s.heaterRank ≤ 6 := by
  unfold State.heaterRank
  split <;> omega

theorem updateHdem_calm (s : State) : Calm s s.updateHdem := setClimate_calm _ _

theorem enterPurging_calm (s : State) : Calm s s.enterPurging :=
  (setClimate_calm s _).trans (Calm.ite (fun _ => lower_calm _ _ _) (fun _ => Calm.refl _))

theorem declareLockout_calm (s : State) : Calm s s.declareLockout :=
  (setClimate_calm s _).trans ((setLockout_calm _ true).trans (monitor_calm _ _ _))

theorem heaterFails_calm (s : State) : Calm s s.heaterFails :=
  (setClimate_calm s _).trans
    ((Calm.ite (fun _ => declareLockout_calm _) (fun _ => Calm.refl _)).trans (enterPurging_calm _))

theorem enterRunning_calm (s : State) : Calm s s.enterRunning :=
  (setClimate_calm s _).trans ((lower_calm _ _ _).trans (updateHdem_calm _))

theorem enterStarting_calm (s : State) : Calm s s.enterStarting :=
  ((setClimate_calm s _).trans (updateHdem_calm _)).trans
    (Calm.ite (fun _ => heaterFails_calm _)
      (fun _ => Calm.ite (fun _ => enterRunning_calm _) (fun _ => Calm.refl _)))

theorem heaterYields_calm (s : State) : Calm s s.heaterYields := by
  unfold State.heaterYields
  split <;> first | exact enterPurging_calm s | exact Calm.refl s

theorem heaterRerank_calm (s : State) : Calm s s.heaterRerank := by
  unfold State.heaterRerank
  refine Calm.ite (fun _ => ?_) (fun _ => Calm.refl s)
  have h := rerank_calm s loadHeater s.heaterRank (heaterRank_le s)
  generalize s.rerank loadHeater s.heaterRank = p at h ⊢
  obtain ⟨t, r⟩ := p
  cases r <;> first | exact h | exact Calm.trans h ((complete_calm t loadHeater).trans (heaterYields_calm _))

theorem askHeater_calm (s : State) : Calm s s.askHeater := by
  unfold State.askHeater
  refine Calm.ite (fun _ => ?_) (fun _ => ask_calm s _ _ _ _ (by decide))
  have h := ask_calm s loadHeater 1 (Item.startDraw s.seq.values) true (by decide)
  dsimp only
  generalize s.ask loadHeater 1 (Item.startDraw s.seq.values) true = p at h ⊢
  obtain ⟨t, r⟩ := p
  cases r <;> first | exact h | exact h.trans ((setClimate_calm _ _).trans (ask_calm _ _ _ _ _ (by decide)))

theorem heaterFollows_calm (s : State) : Calm s s.heaterFollows := by
  unfold State.heaterFollows
  refine Calm.ite (fun _ => ?_) (fun _ => Calm.refl s)
  refine Calm.trans ?_ (updateHdem_calm _)
  have k := heaterRank_le s
  split
  · split
    · exact Calm.ite (fun _ => askHeater_calm s) (fun _ => Calm.refl s)
    · exact Calm.ite (fun _ => Calm.ite (fun _ => Calm.refl s) (fun _ => rerank_calm s _ _ k))
        (fun _ => release_calm s _)
    · exact Calm.ite (fun _ => Calm.refl s) (fun _ => release_calm s _)
    · exact Calm.refl s
  · exact Calm.ite (fun _ => heaterRerank_calm s) (fun _ => (enterPurging_calm s).trans (heaterRerank_calm _))
  · exact Calm.ite (fun _ => heaterRerank_calm s) (fun _ => (enterPurging_calm s).trans (heaterRerank_calm _))
  · exact (setClimate_calm s _).trans (heaterRerank_calm _)
  · exact Calm.refl s

theorem heaterGranted_calm (s : State) : Calm s s.heaterGranted :=
  (heaterRerank_calm s).trans (Calm.ite (fun _ => enterStarting_calm _) (fun _ => Calm.refl _))

theorem heaterStands_calm (s : State) : Calm s s.heaterStands :=
  Calm.ite (fun _ => ask_calm _ _ _ _ _ (heaterRank_le _)) (fun _ => Calm.refl _)

theorem heaterLost_calm (s : State) : Calm s s.heaterLost :=
  Calm.trans (Calm.ite (fun _ => setClimate_calm s _) (fun _ => Calm.refl s)) (heaterStands_calm _)

theorem heaterWaits_calm (s : State) : Calm s s.heaterWaits :=
  Calm.ite (fun _ => heaterStands_calm s) (fun _ => Calm.refl s)

theorem frostService_calm (s : State) : Calm s s.frostService := by
  unfold State.frostService
  refine Calm.ite (fun _ => ?_) (fun _ => Calm.refl s)
  refine (readAll_calm s fun e => e.kind == .tank && e.fresh.live).trans ?_
  exact Calm.ite (fun _ => Calm.refl _) (fun _ => (setClimate_calm _ _).trans (heaterFollows_calm _))

theorem modeChanged_calm (s : State) : Calm s s.modeChanged := by
  unfold State.modeChanged
  refine Calm.ite (fun _ => ?_) (fun _ => Calm.refl s)
  refine Calm.trans ?_ ((frostService_calm _).trans (heaterFollows_calm _))
  exact Calm.ite (fun _ => Calm.refl s) (fun _ => setClimate_calm s _)

theorem setCall_calm (s : State) : Calm s s.setCall :=
  Calm.ite (fun _ => setClimate_calm s _) (fun _ => Calm.refl s)

theorem countCall_calm (s : State) : Calm s s.countCall :=
  Calm.ite (fun _ => setClimate_calm s _) (fun _ => Calm.refl s)

theorem padFollows_calm (s : State) : Calm s s.padFollows := by
  unfold State.padFollows
  refine Calm.ite (fun _ => ?_) (fun _ => Calm.refl s)
  refine ((readSupply_calm s).trans
    (readAll_calm _ fun e => e.kind == .status && e.subject == 0 && e.fresh.live)).trans ?_
  generalize State.readAll _ _ = u
  refine (setClimate_calm u { u.climate with padWanted := u.padWantedNow }).trans ?_
  refine Calm.ite (fun _ => Calm.ite (fun _ => ask_calm _ _ _ _ _ (by decide)) (fun _ => Calm.refl _)) (fun _ => ?_)
  exact (setClimate_calm _ _).trans (release_calm _ _)

theorem padGranted_calm (s : State) : Calm s s.padGranted := setClimate_calm s _

theorem padYields_calm (s : State) : Calm s s.padYields :=
  ((setClimate_calm s _).trans (release_calm _ _)).trans
    (Calm.ite (fun _ => ask_calm _ _ _ _ _ (by decide)) (fun _ => Calm.refl _))

end Sys2Proof.Machine
end

