-- ==== Sys2Proof/Laws/Lights.lean ====
section
/-! SUPPORT. The operations of the Light Controller keep an orderly state orderly, and change no block but the Light
Controller, the outcome shown, the claim table and the Gatherer. -/

namespace Sys2Proof.Machine

theorem setLight_calm (s : State) (ch : Fin 8) (l : Light) : Calm s (s.setLight ch l) := setLights_calm s _

theorem setGroup_calm (s : State) (g : Fin 2) (x : Group) : Calm s (s.setGroup g x) := setLights_calm s _

theorem amend_calm (s : State) (g : Fin 2) : Calm s (s.amend g) := by
  unfold State.amend
  refine Calm.ite (fun _ => ?_) (fun _ => Calm.refl s)
  exact Calm.ite (fun _ => release_calm s _) (fun _ => Calm.ite (fun _ => lower_calm s _ _) (fun _ => Calm.refl s))

theorem takeTargets_calm (s : State) (g : Fin 2) (t : Tab 4 Nat) : Calm s (s.takeTargets g t) :=
  (Calm.foldl _ (fun s _ => setLight_calm s _ _) _ s).trans (amend_calm _ g)

theorem finishRequest_calm (s : State) (req : Nat) : Calm s (s.finishRequest req) :=
  Calm.ite (fun _ => Calm.refl s) (fun _ => reviseOutcome_calm s _ _)

theorem requestTaken_calm (s : State) (g : Fin 2) (r : GroupReq) : Calm s (s.requestTaken g r) :=
  (setGroup_calm s g _).trans ((takeTargets_calm _ g _).trans (finishRequest_calm _ _))

theorem requestRefused_calm (s : State) (g : Fin 2) (r : GroupReq) : Calm s (s.requestRefused g r) :=
  (setGroup_calm s g _).trans ((amend_calm _ g).trans (finishRequest_calm _ _))

theorem askGroup_calm (s : State) (g : Fin 2) (a : Nat) : Calm s (s.askGroup g a).1 := by
  unfold State.askGroup
  split
  · exact raise_calm s _ _
  · exact ask_calm s _ _ _ _ (by decide)

theorem tryScales_calm (g : Fin 2) (r : GroupReq) (l : List Nat) (s : State) : Calm s (tryScales g r l s) := by
  induction l generalizing r s with
  | nil => exact requestRefused_calm s g r
  | cons x xs ih =>
    unfold tryScales
    refine Calm.ite (fun _ => requestTaken_calm s g _) (fun _ => ?_)
    dsimp only
    generalize hu : State.setGroup s g _ = u
    refine Calm.trans (hu ▸ setGroup_calm s g _) ?_
    have h := askGroup_calm u g (s.covering g (s.scaledTargets g r.want x))
    generalize u.askGroup g (s.covering g (s.scaledTargets g r.want x)) = p at h ⊢
    obtain ⟨t, y⟩ := p
    cases y <;> first | exact h | exact h.trans (ih _ t) | exact h.trans (requestTaken_calm t g _)

theorem changeGroup_calm (s : State) (g : Fin 2) (t : Tab 4 Nat) (req : Nat) : Calm s (s.changeGroup g t req) := by
  unfold State.changeGroup
  refine Calm.ite (fun _ => takeTargets_calm s g _) (fun _ => ?_)
  dsimp only
  generalize hu : State.setGroup s g _ = u
  refine Calm.trans (hu ▸ setGroup_calm s g _) ?_
  have h := askGroup_calm u g (s.covering g (t.map fun x => min x s.lights.ceiling))
  generalize u.askGroup g (s.covering g (t.map fun x => min x s.lights.ceiling)) = p at h ⊢
  obtain ⟨v, y⟩ := p
  cases y <;> first
    | exact h
    | exact h.trans (tryScales_calm g _ _ v)
    | exact h.trans (requestTaken_calm v g _)

theorem withdrawAsk_calm (s : State) (g : Fin 2) : Calm s (s.withdrawAsk g) := by
  unfold State.withdrawAsk
  split <;> first | exact raise_calm s _ _ | exact release_calm s _ | exact Calm.refl s

theorem abandonRequest_calm (s : State) (g : Fin 2) : Calm s (s.abandonRequest g) :=
  Calm.ite (fun _ => (withdrawAsk_calm s g).trans (setGroup_calm _ g _)) (fun _ => Calm.refl s)

theorem requestEnds_calm (s : State) (g : Fin 2) (o : Nat) : Calm s (s.requestEnds g o) := by
  unfold State.requestEnds
  split
  · exact Calm.refl s
  · exact (setGroup_calm s g _).trans
      (Calm.ite (fun _ => finishRequest_calm _ _) (fun _ => reviseOutcome_calm _ _ _))

theorem requestEndsInStorage_calm (s : State) (g : Fin 2) : Calm s (s.requestEndsInStorage g) :=
  Calm.ite (fun _ => (withdrawAsk_calm s g).trans (requestEnds_calm _ g _)) (fun _ => Calm.refl s)

theorem changeChannel_calm (s : State) (ch : Fin 8) (x req : Nat) : Calm s (s.changeChannel ch x req) :=
  changeGroup_calm s _ _ _

theorem courtesyChange_calm (s : State) (ch : Fin 8) (d : CourtesyDue) : Calm s (s.courtesyChange ch d) := by
  unfold State.courtesyChange
  refine Calm.ite (fun _ => setLights_calm s _) (fun _ => (setLights_calm s { s.lights with due := .none }).trans ?_)
  cases d with
  | none => exact Calm.refl _
  | light => exact Calm.ite (fun _ => changeChannel_calm _ _ _ _) (fun _ => Calm.refl _)
  | restore => exact changeChannel_calm _ _ _ _

theorem courtesyResumes_calm (s : State) : Calm s s.courtesyResumes := by
  unfold State.courtesyResumes
  split
  · exact Calm.refl s
  · exact Calm.ite (fun _ => Calm.refl s) (fun _ => courtesyChange_calm s _ _)

theorem courtesyEnds_calm (s : State) : Calm s s.courtesyEnds := setLights_calm s _

theorem courtesyFollows_calm (s : State) (lost : Option Nat) : Calm s (s.courtesyFollows lost) := by
  unfold State.courtesyFollows
  refine Calm.ite (fun _ => Calm.refl s) (fun _ => ?_)
  split
  · exact Calm.refl s
  · refine (readAll_calm s fun e => e.kind == .motion).trans ?_
    generalize s.readAll _ = u
    dsimp only
    split
    · exact (setLights_calm u _).trans
        (Calm.ite (fun _ => Calm.refl _) (fun _ => Calm.ite (fun _ => setLights_calm _ _)
          (fun _ => (setLights_calm _ _).trans (courtesyChange_calm _ _ _))))
    · exact (setLights_calm u _).trans (Calm.ite (fun _ => setLights_calm _ _) (fun _ => Calm.refl _))

theorem ceilingFollows_calm (s : State) : Calm s s.ceilingFollows :=
  (setLights_calm s _).trans ((amend_calm _ 0).trans (amend_calm _ 1))

theorem lightsGranted_calm (s : State) (g : Fin 2) : Calm s (s.lightsGranted g) := by
  unfold State.lightsGranted
  split
  · exact (requestTaken_calm s g _).trans (courtesyResumes_calm _)
  · exact Calm.refl s

theorem lightsLost_calm (s : State) (g : Fin 2) : Calm s (s.lightsLost g) := by
  unfold State.lightsLost
  split
  · exact (tryScales_calm g _ _ s).trans (courtesyResumes_calm _)
  · exact Calm.refl s

theorem lightsYield_calm (s : State) (g : Fin 2) : Calm s (s.lightsYield g) := requestEnds_calm s g _

theorem requestGroup_calm (s : State) (g : Fin 2) (t : Tab 4 Nat) (req : Nat) : Calm s (s.requestGroup g t req) :=
  (abandonRequest_calm s g).trans (changeGroup_calm _ g t req)

theorem answerLights_calm (s : State) (code req : Nat) : Calm s (s.answerLights code req) := answer_calm s _ _

theorem fadeStepped_calm (s : State) (ch : Fin 8) : Calm s (s.fadeStepped ch) :=
  (setLight_calm s ch _).trans (amend_calm _ _)

end Sys2Proof.Machine
end

