-- ==== Sys2Proof/Laws/Motion.lean ====
section
/-! SUPPORT. The operations of the Motion Controller keep an orderly state orderly, change no block but the Motion
Controller, the outcome shown, Station Status, the claim table, the lights' courtesy and the Gatherer, and begin an
Extend only in Run with drive accepted false (R124, R127, R139). -/

namespace Sys2Proof.Machine

/-- From an orderly `s`, `t` is orderly, differs from `s` in the blocks `Base` does not name, and a channel that is
Extending in `t` and was not in `s` was begun in Run with drive accepted false. -/
def Steady (s t : State) : Prop :=
  s.Ok → t.Ok ∧ State.Base s t ∧ ∀ ch, (t.chan ch).st = .extending →
    (s.chan ch).st = .extending ∨ (s.view.driveAccepted = false ∧ s.motionRuns = true)

theorem motionRuns_of_seq {s t : State} (h : t.seq = s.seq) : t.motionRuns = s.motionRuns := by
  simp [State.motionRuns, State.inRun, h]

theorem Calm.steady {s t : State} (h : Calm s t) : Steady s t := fun o =>
  have a := h o
  ⟨a.1, a.2.1, fun ch k => Or.inl (by simpa [State.chan, a.2.2] using k)⟩

theorem Steady.refl (s : State) : Steady s s := (Calm.refl s).steady

theorem Steady.trans {s t u : State} (h : Steady s t) (k : Steady t u) : Steady s u := fun o =>
  have a := h o
  have b := k a.1
  ⟨b.1, a.2.1.trans b.2.1, fun ch e => by
    rcases b.2.2 ch e with e | ⟨e, f⟩
    · exact a.2.2 ch e
    · exact Or.inr ⟨by rw [← a.2.1.view]; exact e, by rw [← motionRuns_of_seq a.2.1.seq]; exact f⟩⟩

theorem Steady.ite {s : State} {p : Prop} [Decidable p] {a b : State} (h : p → Steady s a) (k : ¬p → Steady s b) :
    Steady s (if p then a else b) := by
  split
  · exact h ‹_›
  · exact k ‹_›

theorem Steady.foldl {α : Type} (f : State → α → State) (h : ∀ s x, Steady s (f s x)) (l : List α) (s : State) :
    Steady s (l.foldl f s) := by
  induction l generalizing s with
  | nil => exact Steady.refl s
  | cons x xs ih => exact (h s x).trans (ih (f s x))

/-- An operation may use that the state it starts from is orderly. -/
theorem Steady.intro {s t : State} (h : s.Ok → Steady s t) : Steady s t := fun o => h o o

/-! ### Updates of a channel -/

theorem modChan_chan (s : State) (ch k : Fin 2) (f : Chan → Chan) :
    (s.modChan ch f).chan k = if ch = k then f (s.chan ch) else s.chan k := by
  simp [State.modChan, State.setChan, State.chan, Tab.get_set]

/-- A channel's new fields do not begin an Extend, or begin it as R127 and R124 allow. -/
theorem modChan_steady (s : State) (ch : Fin 2) (f : Chan → Chan)
    (h : (f (s.chan ch)).st = .extending →
      (s.chan ch).st = .extending ∨ (s.view.driveAccepted = false ∧ s.motionRuns = true)) :
    Steady s (s.modChan ch f) := fun o =>
  ⟨⟨o.checked, o.lanes, o.claims, o.dropped, o.changes⟩, ⟨rfl, rfl, rfl, rfl, rfl, rfl, rfl, rfl⟩, fun k e => by
    rw [modChan_chan] at e
    split at e
    · subst_vars
      exact h e
    · exact Or.inl e⟩

/-- Fields other than the state. -/
theorem modChan_same (s : State) (ch : Fin 2) (f : Chan → Chan) (h : (f (s.chan ch)).st = (s.chan ch).st) :
    Steady s (s.modChan ch f) := modChan_steady s ch f fun e => Or.inl (h ▸ e)

/-- A new state other than Extending. -/
theorem modChan_away (s : State) (ch : Fin 2) (f : Chan → Chan) (h : (f (s.chan ch)).st ≠ .extending) :
    Steady s (s.modChan ch f) := modChan_steady s ch f fun e => absurd e h

/-- Fields of the Motion Controller other than its channels. -/
theorem setMotion_steady (s : State) (m : Motion) (h : m.chans = s.motion.chans) : Steady s (s.setMotion m) := fun o =>
  ⟨⟨o.checked, o.lanes, o.claims, o.dropped, o.changes⟩, ⟨rfl, rfl, rfl, rfl, rfl, rfl, rfl, rfl⟩, fun ch e =>
    Or.inl (by simpa [State.chan, h] using e)⟩

theorem stepSeen_calm (s : State) (ch : Fin 2) : Calm s (s.stepSeen ch) :=
  Calm.ite (fun _ => courtesyFollows_calm s none) (fun _ => Calm.refl s)

/-! ### Dwells, arrivals and starts -/

theorem release_steady (s : State) (id : Fin 7) : Steady s (s.release id) := (release_calm s id).steady

theorem rerank0_steady (s : State) (id : Fin 7) : Steady s (s.rerank id 0).1 := (rerank_calm s id 0 (by decide)).steady

theorem reviseOutcome_steady (s : State) (req o : Nat) : Steady s (s.reviseOutcome req o) :=
  (reviseOutcome_calm s req o).steady

theorem answer_steady (s : State) (code o : Nat) : Steady s (s.answer code o) := (answer_calm s code o).steady

theorem monitor_steady (s : State) (n : Fin 19) (d : Bool) : Steady s (s.monitor n d) := (monitor_calm s n d).steady

theorem brake_steady (s : State) (ch : Fin 2) (f : Move) (req : Nat) (keep : Bool) :
    Steady s (s.brake ch f req keep) :=
  (modChan_away s ch _ (by simp)).trans
    ((Steady.ite (fun _ => Steady.refl _) (fun _ => release_steady _ _)).trans (stepSeen_calm _ ch).steady)

theorem clearStall_steady (s : State) (ch : Fin 2) : Steady s (s.clearStall ch) :=
  Steady.ite (fun _ => (modChan_same s ch _ rfl).trans (monitor_steady _ _ _)) (fun _ => Steady.refl s)

theorem clearTravelFault_steady (s : State) (ch : Fin 2) : Steady s (s.clearTravelFault ch) :=
  Steady.ite (fun _ => (modChan_same s ch _ rfl).trans (monitor_steady _ _ _)) (fun _ => Steady.refl s)

theorem declareTravelFault_steady (s : State) (ch : Fin 2) : Steady s (s.declareTravelFault ch) :=
  Steady.ite (fun _ => Steady.refl s) (fun _ => (modChan_same s ch _ rfl).trans (monitor_steady _ _ _))

theorem arriveAt_steady (s : State) (ch : Fin 2) : Steady s (s.arriveAt ch) :=
  ((brake_steady s ch _ _ _).trans (clearStall_steady _ ch)).trans
    (Steady.ite (fun _ => Steady.refl _) (fun _ => clearTravelFault_steady _ ch))

theorem begun_steady (s : State) (ch : Fin 2) : Steady s (s.begun ch) :=
  (stepSeen_calm s ch).steady.trans (Steady.ite (fun _ => arriveAt_steady _ ch) (fun _ => Steady.refl _))

/-- A move begins; an Extend only in Run with drive accepted false. -/
theorem startMove_steady (s : State) (ch : Fin 2) (m : Move)
    (h : m = .extend → s.view.driveAccepted = false ∧ s.motionRuns = true) : Steady s (s.startMove ch m) := by
  unfold State.startMove
  refine (modChan_steady s ch _ ?_).trans
    ((setDue_calm _ _).steady.trans ((reviseOutcome_steady _ _ _).trans (begun_steady _ ch)))
  intro e
  dsimp only at e
  split at e
  · exact Or.inr (h ‹_›)
  · exact absurd e (by simp)

theorem startBackoff_steady (s : State) (ch : Fin 2) : Steady s (s.startBackoff ch) :=
  (modChan_away s ch _ (by simp)).trans (begun_steady _ ch)

/-- A channel settles at rest. -/
theorem settle_steady (s : State) (ch : Fin 2) (st : MState) (p : Move) (req : Nat) (h : st ≠ .extending) :
    Steady s (s.settle ch st p req) :=
  (modChan_away s ch _ h).trans (stepSeen_calm _ ch).steady

theorem dropPending_steady (s : State) (ch : Fin 2) : Steady s (s.dropPending ch) := modChan_same s ch _ rfl

theorem endPending_steady (s : State) (ch : Fin 2) (o : Nat) : Steady s (s.endPending ch o) :=
  (dropPending_steady s ch).trans ((release_steady _ _).trans (reviseOutcome_steady _ _ _))

/-- An Extend that meets no refusal of R127 meets no drive (R127). -/
theorem extendRefusal_none {s : State} {ch : Fin 2} (h : s.extendRefusal ch = none) : s.view.driveAccepted = false := by
  unfold State.extendRefusal at h
  split at h
  · exact absurd h (by simp)
  · exact Bool.eq_false_iff.mpr ‹_›

/-! ### Acting on a pending move -/

theorem tryStart_steady (s : State) (ch : Fin 2) : Steady s (s.tryStart ch) := by
  unfold State.tryStart
  refine Steady.ite (fun _ => Steady.refl s) (fun hr => ?_)
  have hr : s.motionRuns = true := by
    simp at hr
    exact hr.1.1.1
  split
  · split
    · rename_i hn
      exact startMove_steady s ch .extend fun _ => ⟨extendRefusal_none hn, hr⟩
    · exact endPending_steady s ch _
  · exact Steady.ite (fun _ => release_steady s _) (fun _ => startMove_steady s ch .retract (by simp))
  · exact Steady.ite (fun _ => release_steady s _) (fun _ => startMove_steady s ch .protective (by simp))
  · exact Steady.refl s

theorem claimProtective_calm (s : State) (ch : Fin 2) : Calm s (s.claimProtective ch) :=
  Calm.ite (fun _ => rerank_calm s _ _ (by decide)) (fun _ => ask_calm s _ _ _ _ (by decide))

theorem claimRequested_calm (s : State) (ch : Fin 2) : Calm s (s.claimRequested ch) :=
  Calm.ite (fun _ => ask_calm s _ _ _ _ (by decide)) (fun _ => Calm.refl s)

theorem actOnPending_steady (s : State) (ch : Fin 2) : Steady s (s.actOnPending ch) := by
  unfold State.actOnPending
  refine Steady.ite (fun _ => Steady.refl s) (fun _ => ?_)
  split
  · exact Steady.ite (fun _ => Steady.refl s)
      (fun _ => (claimProtective_calm s ch).steady.trans (tryStart_steady _ ch))
  · exact Steady.ite (fun _ => Steady.refl s)
      (fun _ => (claimRequested_calm s ch).steady.trans (tryStart_steady _ ch))
  · exact (claimRequested_calm s ch).steady.trans (tryStart_steady _ ch)
  · exact Steady.refl s

theorem takePending_steady (s : State) (ch : Fin 2) (m : Move) (req : Nat) : Steady s (s.takePending ch m req) :=
  (modChan_same s ch _ rfl).trans (actOnPending_steady _ ch)

/-! ### Requests -/

theorem takeExtend_steady (s : State) (code : Nat) (ch : Fin 2) : Steady s (s.takeExtend code ch) := by
  unfold State.takeExtend
  dsimp only
  split
  · exact answer_steady s _ _
  · split
    · exact answer_steady s _ _
    · exact answer_steady s _ _
    · exact answer_steady s _ _
    · exact (answer_steady s _ _).trans (modChan_same _ ch _ rfl)
  · exact (answer_steady s _ _).trans
      (Steady.ite (fun _ => modChan_same _ ch _ rfl) (fun _ => brake_steady _ ch _ _ _))
  · exact (answer_steady s _ _).trans
      (Steady.ite (fun _ => modChan_same _ ch _ rfl) (fun _ => brake_steady _ ch _ _ _))
  · exact Steady.ite (fun _ => answer_steady s _ _)
      (fun _ => (answer_steady s _ _).trans (takePending_steady _ ch _ _))

theorem backoffRetracts_steady (s : State) (ch : Fin 2) (p : Bool) : Steady s (s.backoffRetracts ch p) :=
  (modChan_away s ch _ (by simp)).trans (stepSeen_calm _ ch).steady

theorem takeRetract_steady (s : State) (code : Nat) (ch : Fin 2) : Steady s (s.takeRetract code ch) := by
  unfold State.takeRetract
  dsimp only
  split
  · exact answer_steady s _ _
  · exact answer_steady s _ _
  · exact (answer_steady s _ _).trans (backoffRetracts_steady _ ch _)
  · exact (answer_steady s _ _).trans (brake_steady _ ch _ _ _)
  · split
    · exact answer_steady s _ _
    · exact answer_steady s _ _
    · exact answer_steady s _ _
    · exact (answer_steady s _ _).trans ((modChan_same _ ch _ rfl).trans
        (Steady.ite (fun _ => rerank0_steady _ _) (fun _ => Steady.refl _)))
  · exact (answer_steady s _ _).trans (takePending_steady _ ch _ _)

theorem takeStop_steady (s : State) (code : Nat) (ch : Fin 2) : Steady s (s.takeStop code ch) := by
  unfold State.takeStop
  refine Steady.ite (fun _ => answer_steady s _ _) (fun _ => Steady.ite (fun _ => answer_steady s _ _) (fun _ => ?_))
  refine (answer_steady s code Outcome.accepted).trans ?_
  refine Steady.ite (fun _ => brake_steady _ ch _ _ _) (fun _ => Steady.ite (fun _ => ?_) (fun _ => ?_))
  · split
    · exact (modChan_same _ ch _ rfl).trans (release_steady _ _)
    · exact (modChan_same _ ch _ rfl).trans (release_steady _ _)
    · exact Steady.refl _
  · exact Steady.ite (fun _ => Steady.refl _) (fun _ => (dropPending_steady _ ch).trans (release_steady _ _))

/-! ### Protection -/

theorem replacedByNeed_steady (s : State) (ch : Fin 2) : Steady s (s.replacedByNeed ch) := reviseOutcome_steady s _ _

theorem extendMeetsNeed_steady (s : State) (ch : Fin 2) : Steady s (s.extendMeetsNeed ch) :=
  Steady.ite (fun _ => endPending_steady s ch _) (fun _ => Steady.refl s)

theorem pendProtective_steady (s : State) (ch : Fin 2) : Steady s (s.pendProtective ch) :=
  ((replacedByNeed_steady s ch).trans (Steady.ite (fun _ => release_steady _ _) (fun _ => Steady.refl _))).trans
    (takePending_steady _ ch _ _)

theorem needDue_steady (s : State) (ch : Fin 2) : Steady s (s.needDue ch) := by
  unfold State.needDue
  refine Steady.ite (fun _ => Steady.refl s) (fun _ => ?_)
  dsimp only
  split
  · exact extendMeetsNeed_steady s ch
  · exact (brake_steady s ch _ _ _).trans (rerank0_steady _ _)
  · exact (replacedByNeed_steady s ch).trans ((modChan_same _ ch _ rfl).trans (rerank0_steady _ _))
  · exact (replacedByNeed_steady s ch).trans ((modChan_same _ ch _ rfl).trans
      ((rerank0_steady _ _).trans (backoffRetracts_steady _ ch _)))
  · split
    · exact Steady.refl s
    · exact rerank0_steady s _
    · exact rerank0_steady s _
    · exact (replacedByNeed_steady s ch).trans ((modChan_same _ ch _ rfl).trans (rerank0_steady _ _))
  · exact Steady.ite (fun _ => extendMeetsNeed_steady s ch) (fun _ => Steady.ite (fun _ => Steady.refl s)
      (fun _ => pendProtective_steady s ch))

theorem needEnds_steady (s : State) (ch : Fin 2) : Steady s (s.needEnds ch) :=
  Steady.ite (fun _ => Steady.refl s) (fun _ =>
    (Steady.ite (fun _ => (dropPending_steady s ch).trans (release_steady _ _)) (fun _ => Steady.refl s)).trans
      (Steady.ite (fun _ => (modChan_same _ ch _ rfl).trans (release_steady _ _)) (fun _ => Steady.refl _)))

theorem motionEntersRun_steady (s : State) : Steady s s.motionEntersRun :=
  (Steady.ite (fun _ => needDue_steady s 0) (fun _ => Steady.refl s)).trans
    (Steady.ite (fun _ => needDue_steady _ 1) (fun _ => Steady.refl _))

theorem windLockoutBegins_steady (s : State) : Steady s s.windLockoutBegins :=
  (setMotion_steady s _ (by rfl)).trans
    ((Steady.ite (fun _ => Steady.refl _) (fun _ => monitor_steady _ _ _)).trans (needDue_steady _ 1))

theorem windWindowEnds_steady (s : State) : Steady s s.windWindowEnds :=
  (setMotion_steady s _ (by rfl)).trans (Steady.ite (fun _ => windLockoutBegins_steady _) (fun _ => Steady.refl _))

theorem windLockoutEnds_steady (s : State) : Steady s s.windLockoutEnds :=
  (setMotion_steady s _ (by rfl)).trans ((monitor_steady _ _ _).trans (needEnds_steady _ 1))

/-! ### The end of a dwell, and the timers of a move -/

theorem byStops_ne (s : State) (ch : Fin 2) (was : MState) : s.byStops ch was ≠ .extending := by
  unfold State.byStops
  repeat' split
  all_goals simp

/-- A dwell ends in Run. -/
theorem dwellEnds_steady (s : State) (ch : Fin 2) (hr : s.motionRuns = true) : Steady s (s.dwellEnds ch) := by
  unfold State.dwellEnds
  dsimp only
  generalize hu : s.modChan ch (fun c => { c with bridge := .off, dwell := none }) = u
  have h1 : Steady s u := hu ▸ modChan_same s ch _ rfl
  have hu' : u.motionRuns = true := by rw [← hu]; exact hr
  refine h1.trans ?_
  have hb := byStops_ne u ch .braking
  split
  · exact (settle_steady u ch _ _ _ hb).trans (actOnPending_steady _ ch)
  · exact settle_steady u ch _ _ _ (by simp)
  · refine Steady.ite (fun _ => ?_) (fun _ => Steady.ite (fun _ => ?_) (fun _ => startBackoff_steady u ch))
    · exact (release_steady u _).trans (settle_steady _ ch _ _ _ (by simp))
    · exact (claimProtective_calm u ch).steady.trans (startMove_steady _ ch _ (by simp))
  · refine Steady.ite (fun _ => ?_) (fun _ => ?_)
    · split
      · rename_i hn
        exact startMove_steady u ch _ fun _ => ⟨extendRefusal_none hn, hu'⟩
      · exact (release_steady u _).trans ((settle_steady _ ch _ _ _ hb).trans (reviseOutcome_steady _ _ _))
    · exact (settle_steady u ch _ _ _ hb).trans (claimRequested_calm _ ch).steady
  · refine Steady.ite (fun _ => ?_) (fun _ => Steady.ite (fun _ => startMove_steady u ch _ (by simp)) (fun _ => ?_))
    · exact (release_steady u _).trans (settle_steady _ ch _ _ _ hb)
    · exact (settle_steady u ch _ _ _ hb).trans (claimRequested_calm _ ch).steady
  · refine Steady.ite (fun _ => ?_) (fun _ => ?_)
    · exact (release_steady u _).trans (settle_steady _ ch _ _ _ hb)
    · exact (claimProtective_calm u ch).steady.trans (startMove_steady _ ch _ (by simp))

theorem travelExpires_steady (s : State) (ch : Fin 2) : Steady s (s.travelExpires ch) :=
  (brake_steady s ch _ _ _).trans (declareTravelFault_steady _ ch)

theorem stalls_steady (s : State) (ch : Fin 2) : Steady s (s.stalls ch) :=
  (Steady.ite (fun _ => Steady.refl s) (fun _ => (modChan_same s ch _ rfl).trans (monitor_steady _ _ _))).trans
    (Steady.ite (fun _ => brake_steady _ ch _ _ _)
      (fun _ => (brake_steady _ ch _ _ _).trans (declareTravelFault_steady _ ch)))

theorem backoffEnds_steady (s : State) (ch : Fin 2) : Steady s (s.backoffEnds ch) := brake_steady s ch _ _ _

theorem calibrationBegins_steady (s : State) (ch : Fin 2) : Steady s (s.calibrationBegins ch) :=
  modChan_same s ch _ rfl

/-- A current that stays the same over a whole calibration is its mean. -/
theorem calMean_of_constant (c : Chan) (x k : Nat) (h : c.calTimer = some k) (hk : k ≤ Config.calibrationMs)
    (hs : c.calSum = (Config.calibrationMs - k) * x) : c.calMean x = x := by
  have e : (Config.calibrationMs - k) * x + k * x = Config.calibrationMs * x := by
    rw [← Nat.add_mul, Nat.sub_add_cancel hk]
  rw [Chan.calMean, h, hs, Option.getD_some, e, Nat.mul_div_cancel_left x (by decide)]

theorem calibrated_steady (s : State) (ch : Fin 2) : Steady s (s.calibrated ch) :=
  (modChan_same s ch _ rfl).trans (actOnPending_steady _ ch)

theorem currentFollows_steady (s : State) (ch : Fin 2) : Steady s (s.currentFollows ch) :=
  Steady.ite (fun _ => modChan_same s ch _ rfl) (fun _ => Steady.refl s)

/-! ### End stops, HOLD, the Broker and Storage -/

theorem stopsFollow_steady (s : State) (ch : Fin 2) : Steady s (s.stopsFollow ch) := by
  unfold State.stopsFollow
  refine Steady.ite (fun _ => Steady.ite (fun _ => arriveAt_steady s ch) (fun _ => Steady.refl s)) (fun _ => ?_)
  refine Steady.ite (fun _ => Steady.ite (fun _ => Steady.refl s) (fun _ => ?_)) (fun _ => Steady.refl s)
  exact ((modChan_away s ch _ (byStops_ne s ch _)).trans (stepSeen_calm _ ch).steady).trans
    (Steady.ite (fun _ => needDue_steady _ ch) (fun _ => Steady.refl _))

theorem holdFollows_steady (s : State) (ch : Fin 2) : Steady s (s.holdFollows ch) := by
  unfold State.holdFollows
  refine Steady.ite (fun _ => Steady.ite (fun _ => ?_) (fun _ => Steady.refl s)) (fun _ => Steady.ite (fun _ => ?_)
    (fun _ => Steady.refl s))
  · exact ((reviseOutcome_steady s _ _).trans (brake_steady _ ch _ _ _)).trans
      (Steady.ite (fun _ => modChan_same _ ch _ rfl) (fun _ => Steady.refl _))
  · split
    · exact endPending_steady s ch _
    · exact release_steady s _
    · exact Steady.refl s

theorem motionGranted_steady (s : State) (ch : Fin 2) : Steady s (s.motionGranted ch) := tryStart_steady s ch

theorem motionYields_steady (s : State) (ch : Fin 2) : Steady s (s.motionYields ch) := by
  unfold State.motionYields
  dsimp only
  split
  · exact brake_steady s ch _ _ _
  · exact (complete_calm s _).steady
  · exact (complete_calm s _).steady
  · split
    · exact (complete_calm s _).steady
    · exact (complete_calm s _).steady
    · exact release_steady s _
  · exact release_steady s _

theorem extendEndsInStorage_steady (s : State) (ch : Fin 2) : Steady s (s.extendEndsInStorage ch) := by
  unfold State.extendEndsInStorage
  refine Steady.ite (fun _ => Steady.ite (fun _ => endPending_steady s ch _) (fun _ => ?_)) (fun _ => ?_)
  · exact (dropPending_steady s ch).trans (reviseOutcome_steady _ _ _)
  · exact Steady.ite
      (fun _ => (modChan_same s ch _ rfl).trans ((release_steady _ _).trans (reviseOutcome_steady _ _ _)))
      (fun _ => Steady.refl s)

end Sys2Proof.Machine
end

