-- ==== Sys2Proof/Laws/Water.lean ====
section
/-! SUPPORT. The operations of the Water Manager keep an orderly state orderly, and change no block but the Water
Manager, the Climate Controller (frost service), Station Status, the claim table and the Gatherer. -/

namespace Sys2Proof.Machine

theorem pumpFollows_calm (s : State) : Calm s s.pumpFollows := setWater_calm s _

theorem pumpReleased_calm (s : State) : Calm s s.pumpReleased := (setWater_calm s _).trans (release_calm _ _)

theorem demandFollows_calm (s : State) : Calm s s.demandFollows := by
  unfold State.demandFollows
  refine Calm.ite (fun _ => ?_) (fun _ => Calm.refl s)
  refine Calm.trans ?_ (pumpFollows_calm _)
  refine Calm.ite (fun _ => Calm.refl s) (fun _ => Calm.ite (fun _ => ?_) (fun _ => ?_))
  · exact Calm.ite (fun _ => ask_calm s _ _ _ _ (by decide)) (fun _ => Calm.refl s)
  · exact Calm.ite (fun _ => Calm.refl s) (fun _ => pumpReleased_calm s)

theorem setDemand_calm (s : State) (d : Bool) : Calm s (s.setDemand d) :=
  Calm.ite (fun _ => Calm.refl s) (fun _ => (setWater_calm s _).trans (frostService_calm _))

theorem timing_calm (s : State) (ms : Nat) : Calm s (s.timing ms) := setWater_calm s _

theorem enterCirculating_calm (s : State) : Calm s s.enterCirculating :=
  (setWater_calm s _).trans ((setDemand_calm _ _).trans (pumpFollows_calm _))

theorem disposeClaim_calm (s : State) : Calm s s.disposeClaim := by
  unfold State.disposeClaim
  refine Calm.ite (fun _ => ?_) (fun _ => (pumpReleased_calm s).trans (demandFollows_calm _))
  have h := rerank_calm s loadPump 5 (by decide)
  generalize s.rerank loadPump 5 = p at h ⊢
  obtain ⟨t, r⟩ := p
  cases r <;> first
    | exact h.trans (demandFollows_calm _)
    | exact h.trans ((pumpReleased_calm _).trans (demandFollows_calm _))

theorem cycleCompleted_calm (s : State) : Calm s s.cycleCompleted :=
  (setDemand_calm s _).trans ((setWater_calm _ _).trans ((timing_calm _ _).trans (disposeClaim_calm _)))

theorem cyclePostponed_calm (s : State) : Calm s s.cyclePostponed :=
  (setDemand_calm s _).trans ((setWater_calm _ _).trans ((timing_calm _ _).trans (demandFollows_calm _)))

theorem cyclingEnds_calm (s : State) : Calm s s.cyclingEnds :=
  (setDemand_calm s _).trans ((setWater_calm _ _).trans
    (Calm.ite (fun _ => disposeClaim_calm _) (fun _ => Calm.refl _)))

theorem drain_calm (s : State) : Calm s s.drain :=
  (setDemand_calm s _).trans ((setWater_calm _ _).trans
    (Calm.ite (fun _ => (pumpReleased_calm _).trans (demandFollows_calm _)) (fun _ => demandFollows_calm _)))

theorem valveTiming_calm (s : State) : Calm s s.valveTiming :=
  Calm.ite (fun _ => (setWater_calm s _).trans
      (Calm.ite (fun _ => (setWater_calm _ _).trans (monitor_calm _ _ _)) (fun _ => Calm.refl _)))
    (fun _ => setWater_calm s _)

theorem openDump_calm (s : State) : Calm s s.openDump :=
  (setWater_calm s _).trans ((valveTiming_calm _).trans (drain_calm _))

theorem valveFollows_calm (s : State) : Calm s s.valveFollows := by
  unfold State.valveFollows
  repeat' split
  all_goals first
    | exact demandFollows_calm s
    | exact drain_calm s
    | exact (timing_calm s _).trans (demandFollows_calm _)

theorem takeDue_calm (s : State) : Calm s s.takeDue := by
  unfold State.takeDue
  refine Calm.ite (fun _ => timing_calm s _) (fun _ => Calm.ite (fun _ => Calm.ite (fun _ => ?_) (fun _ => ?_)) (fun _ => ?_))
  · exact (rerank_calm s _ _ (by decide)).trans (enterCirculating_calm _)
  · refine (setWater_calm s { s.water with cycle := .asking, dueTimer := none, dueOnRun := false }).trans ?_
    generalize s.setWater { s.water with cycle := .asking, dueTimer := none, dueOnRun := false } = u
    have h := ask_calm u loadPump 1 (Item.pumpDraw s.seq.values) true (by decide)
    generalize u.ask loadPump 1 (Item.pumpDraw s.seq.values) true = p at h ⊢
    obtain ⟨t, r⟩ := p
    cases r <;> first | exact h | exact h.trans (cyclePostponed_calm _)
  · have h := force_calm s loadPump (Item.pumpDraw s.seq.values)
    generalize s.force loadPump (Item.pumpDraw s.seq.values) = p at h ⊢
    obtain ⟨t, r⟩ := p
    cases r <;> first | exact h.trans (enterCirculating_calm _) | exact h.trans (openDump_calm _)

theorem cyclingBegins_calm (s : State) : Calm s s.cyclingBegins :=
  Calm.ite (fun _ => drain_calm s)
    (fun _ => Calm.ite (fun _ => (timing_calm s _).trans (takeDue_calm _)) (fun _ => setWater_calm s _))

theorem pumpGranted_calm (s : State) : Calm s s.pumpGranted :=
  Calm.ite (fun _ => enterCirculating_calm s) (fun _ => pumpFollows_calm s)

theorem pumpLost_calm (s : State) : Calm s s.pumpLost :=
  Calm.ite (fun _ => cyclePostponed_calm s) (fun _ => Calm.refl s)

theorem pumpYields_calm (s : State) : Calm s s.pumpYields :=
  (pumpReleased_calm s).trans (Calm.ite (fun _ => cyclePostponed_calm _) (fun _ => demandFollows_calm _))

theorem readTank_calm (s : State) (t : Fin 3) (raw : Nat) (temp : Int) : Calm s (s.readTank t raw temp) :=
  setWater_calm s _

theorem tankMonitor_calm (s : State) (t : Fin 3) : Calm s (s.tankMonitor t) :=
  (setWater_calm s _).trans (Calm.ite (fun _ => monitor_calm _ _ _) (fun _ => Calm.refl _))

theorem guardReads_calm (s : State) : Calm s s.guardReads :=
  Calm.ite
    (fun _ => (setWater_calm s _).trans
      (Calm.ite (fun _ => (monitor_calm _ _ _).trans (cyclingEnds_calm _)) (fun _ => Calm.refl _)))
    (fun _ => (setWater_calm s _).trans
      (Calm.ite (fun _ => (monitor_calm _ _ _).trans (cyclingBegins_calm _)) (fun _ => Calm.refl _)))

theorem dumpReads_calm (s : State) : Calm s s.dumpReads :=
  Calm.ite
    (fun _ => (readAll_calm s _).trans ((setWater_calm _ _).trans
      (Calm.ite (fun _ => openDump_calm _) (fun _ => Calm.refl _))))
    (fun _ => Calm.refl s)

theorem pumpReads_calm (s : State) : Calm s s.pumpReads := by
  unfold State.pumpReads
  refine Calm.ite (fun _ => demandFollows_calm s) (fun _ => ?_)
  split
  · exact (release_calm s _).trans ((timing_calm _ _).trans (demandFollows_calm _))
  · exact (setWater_calm s _).trans (cycleCompleted_calm _)
  · exact demandFollows_calm s

/-- A water reading event moves the Water Manager and what it asks for (R81 to R97). -/
theorem waterReads_calm (s : State) (a b c : Nat) (x y z : Int) : Calm s (s.waterReads a b c x y z) :=
  ((readTank_calm s _ _ _).trans ((readTank_calm _ _ _ _).trans (readTank_calm _ _ _ _))).trans
    ((((tankMonitor_calm _ _).trans (tankMonitor_calm _ _)).trans (tankMonitor_calm _ _)).trans
      ((guardReads_calm _).trans ((dumpReads_calm _).trans (pumpReads_calm _))))

theorem waterEntersRun_calm (s : State) : Calm s s.waterEntersRun := by
  unfold State.waterEntersRun
  refine Calm.ite (fun _ => ?_) (fun _ => Calm.refl s)
  exact (setWater_calm s _).trans
    ((Calm.ite (fun _ => (timing_calm _ _).trans (takeDue_calm _)) (fun _ => Calm.refl _)).trans (demandFollows_calm _))

end Sys2Proof.Machine
end

