-- ==== Sys2Proof/Laws/React.lean ====
section
/-! SUPPORT. What a change in one block does to the others: the reports of the Broker, the yields, the level in force,
the usable SUPPLY entry, Storage, drive accepted, and the telling of the readers keep an orderly state orderly and no
channel Extending under drive (R48 to R52, R61, R62, R78, R139, R187). -/

namespace Sys2Proof.Machine

/-! ### The relation -/

/-- What no telling of a change alters. -/
structure State.Kin (s t : State) : Prop where
  now : t.now = s.now
  pending : t.pending = s.pending
  pins : t.pins = s.pins
  seq : t.seq = { s.seq with storage := t.seq.storage }
  supply : t.supply = { s.supply with onNext := t.supply.onNext }
  view : t.view = { s.view with driveAccepted := t.view.driveAccepted, changes := t.view.changes }
  cell : t.cell = { s.cell with lockout := t.cell.lockout }
  bus : s.bus.sameLine t.bus

theorem State.Kin.refl (s : State) : State.Kin s s := ⟨rfl, rfl, rfl, rfl, rfl, rfl, rfl, rfl⟩

theorem State.Kin.trans {s t u : State} (h : State.Kin s t) (k : State.Kin t u) : State.Kin s u where
  now := k.now.trans h.now
  pending := k.pending.trans h.pending
  pins := k.pins.trans h.pins
  seq := by rw [k.seq, h.seq]
  supply := by rw [k.supply, h.supply]
  view := by rw [k.view, h.view]
  cell := by rw [k.cell, h.cell]
  bus := Bus.sameLine_trans h.bus k.bus

theorem State.Base.kin {s t : State} (h : State.Base s t) : State.Kin s t where
  now := h.now
  pending := h.pending
  pins := h.pins
  seq := by rw [h.seq]
  supply := by rw [h.supply]
  view := by rw [h.view]
  cell := h.cell
  bus := h.bus

/-- From an orderly `s` with no channel Extending under drive, `t` is such a state too, and differs from `s` only in
the blocks and fields `Kin` does not name. -/
def Loose (s t : State) : Prop := s.Ok → s.extendSafe → t.Ok ∧ t.extendSafe ∧ State.Kin s t

theorem Loose.refl (s : State) : Loose s s := fun o e => ⟨o, e, State.Kin.refl s⟩

theorem Loose.trans {s t u : State} (h : Loose s t) (k : Loose t u) : Loose s u := fun o e =>
  have a := h o e
  have b := k a.1 a.2.1
  ⟨b.1, b.2.1, a.2.2.trans b.2.2⟩

theorem Loose.ite {s : State} {p : Prop} [Decidable p] {a b : State} (h : p → Loose s a) (k : ¬p → Loose s b) :
    Loose s (if p then a else b) := by
  split
  · exact h ‹_›
  · exact k ‹_›

theorem Loose.intro {s t : State} (h : s.Ok → s.extendSafe → Loose s t) : Loose s t := fun o e => h o e o e

theorem Steady.loose {s t : State} (h : Steady s t) : Loose s t := fun o e =>
  have a := h o
  ⟨a.1, fun ch k => by
    rw [a.2.1.view, motionRuns_of_seq a.2.1.seq]
    rcases a.2.2 ch k with k | k
    · exact e ch k
    · exact k, a.2.1.kin⟩

theorem Calm.loose {s t : State} (h : Calm s t) : Loose s t := h.steady.loose

/-! ### Reports and yields -/

theorem report_steady (s : State) (id : Fin 7) (r : Reply) : Steady s (s.report id r) := by
  unfold State.report
  split
  · split
    · exact (heaterGranted_calm s).steady
    · exact (padGranted_calm s).steady
    · exact (pumpGranted_calm s).steady
    · exact motionGranted_steady s 0
    · exact motionGranted_steady s 1
    · exact (lightsGranted_calm s 0).steady
    · exact (lightsGranted_calm s 1).steady
  · split
    · exact (heaterLost_calm s).steady
    · exact (pumpLost_calm s).steady
    · exact (lightsLost_calm s 0).steady
    · exact (lightsLost_calm s 1).steady
    · exact Steady.refl s
  · exact Steady.ite (fun _ => (heaterWaits_calm s).steady) (fun _ => Steady.refl s)
  · exact Steady.refl s

theorem yieldHeld_steady (s : State) (id : Fin 7) : Steady s (s.yieldHeld id) := by
  unfold State.yieldHeld
  split
  · exact ((complete_calm s _).trans (heaterYields_calm _)).steady
  · exact (padYields_calm s).steady
  · exact (pumpYields_calm s).steady
  · exact motionYields_steady s 0
  · exact motionYields_steady s 1
  · exact ((complete_calm s _).trans (lightsYield_calm _ 0)).steady
  · exact ((complete_calm s _).trans (lightsYield_calm _ 1)).steady

theorem lostToLevel_steady (s : State) (id : Fin 7) (r : Reply) : Steady s (s.lostToLevel id r) := by
  unfold State.lostToLevel
  split
  · split
    · exact (lightsYield_calm s 0).steady
    · exact (lightsYield_calm s 1).steady
    · exact report_steady s id _
  · exact report_steady s id _

theorem yieldOne_steady (s : State) (id : Fin 7) : Steady s (s.yieldOne id) := by
  unfold State.yieldOne
  refine Steady.ite (fun _ => Steady.refl s) (fun _ => ?_)
  split
  · exact yieldHeld_steady s id
  · have h := (contestYields_calm s id).steady
    generalize s.contestYields id = p at h ⊢
    obtain ⟨t, r⟩ := p
    exact h.trans (lostToLevel_steady t id r)
  · exact Steady.refl s

/-! ### The level in force and the usable SUPPLY entry -/

theorem lightsRestored_calm (s : State) (g : Fin 2) : Calm s (s.lightsRestored g) := by
  apply Calm.intro
  intro o
  obtain ⟨h1, h2, h3, h4, h5, h6, h7⟩ := o.claim (loadLights g)
  refine Calm.ite (fun h => putClaim_calm s _ _ ?_) (fun _ => Calm.refl s)
  exact ⟨le_refl 6, h2, h3, h4, h5, h6, fun k => absurd (h.1.symm.trans k) (by simp)⟩

/-- The level in force follows its inputs, and the claims and the ceiling follow it (R48, R49, R51). -/
theorem levelFollows_steady (s : State) : Steady s s.levelFollows := by
  unfold State.levelFollows
  refine (readSupply_calm s).steady.trans ?_
  generalize s.readSupply = s
  refine Steady.ite (fun _ => Steady.refl s) (fun _ => ?_)
  refine ((setBroker_calm s { s.broker with level := s.levelNow } fun h => h).steady).trans ?_
  generalize s.setBroker _ = u
  refine Steady.ite (fun _ => ?_) (fun _ => ?_)
  · exact (Steady.foldl _ yieldOne_steady _ u).trans ((ceilingFollows_calm _).trans (courtesyResumes_calm _)).steady
  · exact ((Calm.ite (fun _ => (lightsRestored_calm u 0).trans (lightsRestored_calm _ 1)) (fun _ => Calm.refl u)).trans
      ((ceilingFollows_calm _).trans (retest_calm _))).steady

theorem supplyChanged_steady (s : State) : Steady s s.supplyChanged := by
  unfold State.supplyChanged
  refine (readSupply_calm s).steady.trans ?_
  generalize s.readSupply = u
  refine ((setBroker_calm u { u.broker with usable := u.usable } fun h => h).steady).trans ?_
  exact ((levelFollows_steady _).trans
    (Steady.ite (fun _ => (retest_calm _).steady) (fun _ => Steady.refl _))).trans (padFollows_calm _).steady

theorem forgetLevel_calm (s : State) (n : Nat) : Calm s (s.forgetLevel n) := setBroker_calm s _ fun h => h

/-! ### Storage and drive accepted -/

theorem setStorage_loose (s : State) (b : Bool) : Loose s (s.setSeq { s.seq with storage := b }) := fun o e =>
  ⟨⟨o.checked, o.lanes, o.claims, o.dropped, o.changes⟩, e, ⟨rfl, rfl, rfl, rfl, rfl, rfl, rfl, rfl⟩⟩

theorem setOnNext_loose (s : State) (b : Bool) : Loose s (s.setSupply { s.supply with onNext := b }) := fun o e =>
  ⟨⟨o.checked, o.lanes, o.claims, o.dropped, o.changes⟩, e, ⟨rfl, rfl, rfl, rfl, rfl, rfl, rfl, rfl⟩⟩

theorem setChanges_loose (s : State) (c : List ViewChange) : Loose s (s.setView { s.view with changes := c }) :=
  fun o e =>
  ⟨⟨o.checked, o.lanes, o.claims, o.dropped, o.changes⟩, e, ⟨rfl, rfl, rfl, rfl, rfl, rfl, rfl, rfl⟩⟩

theorem supplyModeChanged_loose (s : State) : Loose s s.supplyModeChanged :=
  (setOnNext_loose s _).trans (setPeriods_calm _ _).loose

theorem storageEntered_loose (s : State) : Loose s s.storageEntered :=
  ((setStorage_loose s true).trans (supplyModeChanged_loose _)).trans
    (((requestEndsInStorage_calm _ 0).trans (requestEndsInStorage_calm _ 1)).loose.trans
      ((((modeChanged_calm _).trans ((ceilingFollows_calm _).trans (courtesyResumes_calm _))).loose).trans
        ((extendEndsInStorage_steady _ 0).trans (extendEndsInStorage_steady _ 1)).loose))

theorem storageLeft_loose (s : State) : Loose s s.storageLeft :=
  ((setStorage_loose s false).trans (supplyModeChanged_loose _)).trans
    ((retest_calm _).trans ((modeChanged_calm _).trans (ceilingFollows_calm _))).loose

theorem setDrive_kin (s : State) (d : Bool) : State.Kin s (s.setView { s.view with driveAccepted := d }) :=
  ⟨rfl, rfl, rfl, rfl, rfl, rfl, rfl, rfl⟩

theorem setDrive_ok {s : State} (o : s.Ok) (d : Bool) : (s.setView { s.view with driveAccepted := d }).Ok :=
  ⟨o.checked, o.lanes, o.claims, o.dropped, o.changes⟩

/-- The channels of a state whose motion does not run are left alone. -/
theorem State.Calm_chan {s t : State} (h : Calm s t) (o : s.Ok) (ch : Fin 2) : t.chan ch = s.chan ch := by
  simp [State.chan, (h o).2.2]

theorem brake_chan {s : State} (o : s.Ok) (ch : Fin 2) (f : Move) (req : Nat) (keep : Bool) :
    ((s.brake ch f req keep).chan ch).st = .braking := by
  unfold State.brake
  dsimp only
  generalize hu : s.modChan ch _ = u
  have hu' : Steady s u := hu ▸ modChan_away s ch _ (by simp)
  have hc : (u.chan ch).st = .braking := by rw [← hu, modChan_chan]; simp
  have hk : Calm u (State.stepSeen (if keep && f.isMove && u.motorHeld ch then u else u.release (loadMotor ch)) ch) :=
    (Calm.ite (fun _ => Calm.refl u) (fun _ => release_calm u _)).trans (stepSeen_calm _ ch)
  rw [State.Calm_chan hk (hu' o).1]
  exact hc

/-- A need for protection stops an Extend (R139). -/
theorem needDue_stops {s : State} (o : s.Ok) (ch : Fin 2) (h : s.motionRuns = true) (d : s.view.driveAccepted = true) :
    ((s.needDue ch).chan ch).st ≠ .extending := by
  intro e
  have hs := (needDue_steady s ch o).2.2 ch e
  rcases hs with hs | hs
  · have : (s.needDue ch) = ((s.brake ch .protective 0 true).rerank (loadMotor ch) 0).1 := by
      simp [State.needDue, h, hs]
    rw [this, State.Calm_chan (rerank_calm _ _ _ (by decide)) (brake_steady s ch _ _ _ o).1, brake_chan o] at e
    exact absurd e (by simp)
  · exact absurd d (by simp [hs.1])

/-- With drive accepted, no new Extend can come about. -/
theorem Steady.keeps_away {s t : State} (h : Steady s t) (o : s.Ok) (d : s.view.driveAccepted = true) {ch : Fin 2}
    (k : (s.chan ch).st ≠ .extending) : (t.chan ch).st ≠ .extending := fun e => by
  rcases (h o).2.2 ch e with e | e
  · exact k e
  · exact absurd d (by simp [e.1])

theorem motionSeesDrive_loose (s : State) (o : s.Ok) (e : s.extendSafe) (d : Bool)
    (hd : d ≠ s.view.driveAccepted) :
    (s.setView { s.view with driveAccepted := d }).motionSeesDrive.Ok ∧
      (s.setView { s.view with driveAccepted := d }).motionSeesDrive.extendSafe ∧
      State.Kin s (s.setView { s.view with driveAccepted := d }).motionSeesDrive := by
  generalize hu : s.setView { s.view with driveAccepted := d } = u
  have ou : u.Ok := hu ▸ setDrive_ok o d
  have ku : State.Kin s u := hu ▸ setDrive_kin s d
  have hdu : u.view.driveAccepted = d := by rw [← hu]; rfl
  have hc : ∀ ch, u.chan ch = s.chan ch := fun ch => by rw [← hu]; rfl
  have hr : u.motionRuns = s.motionRuns := by rw [← hu]; rfl
  unfold State.motionSeesDrive
  rw [hdu]
  cases d with
  | true =>
    simp only [if_true]
    have h0 := needDue_steady u 0
    have h1 := needDue_steady (u.needDue 0) 1
    have a := h0 ou
    have b := h1 a.1
    refine ⟨b.1, ?_, ku.trans (a.2.1.trans b.2.1).kin⟩
    have hv0 : (u.needDue 0).view.driveAccepted = true := by rw [a.2.1.view, hdu]
    have key : ∀ ch, (((u.needDue 0).needDue 1).chan ch).st ≠ .extending := by
      by_cases hrun : u.motionRuns = true
      · have hrun0 : (u.needDue 0).motionRuns = true := by rw [motionRuns_of_seq a.2.1.seq]; exact hrun
        intro ch
        by_cases hch : ch = 1
        · subst hch
          exact needDue_stops a.1 1 hrun0 hv0
        · have : ch = 0 := by omega
          subst this
          exact h1.keeps_away a.1 hv0 (needDue_stops ou 0 hrun hdu)
      · intro ch
        have : (u.chan ch).st ≠ .extending := fun k => by
          rw [hc] at k
          rw [hr] at hrun
          exact hrun (e ch k).2
        exact h1.keeps_away a.1 hv0 (h0.keeps_away ou hdu this)
    exact fun ch k => absurd k (key ch)
  | false =>
    have hs : s.view.driveAccepted = true := by cases h : s.view.driveAccepted <;> simp_all
    have eu : u.extendSafe := fun ch k => by
      rw [hc] at k
      exact absurd hs (by simp [(e ch k).1])
    have l := ((needEnds_steady u 0).trans (needEnds_steady _ 1)).loose ou eu
    exact ⟨l.1, l.2.1, ku.trans l.2.2⟩

/-- Drive accepted follows its inputs, and no channel stays Extending under drive (R78, R139). -/
theorem driveFollows_loose (s : State) : Loose s s.driveFollows := by
  apply Loose.intro
  intro o e
  unfold State.driveFollows
  dsimp only
  rw [readAll_checked o.checked]
  refine Loose.ite (fun _ => Loose.refl s) (fun hd => ?_)
  refine Loose.trans (t := if (s.setView { s.view with driveAccepted := s.driveNow }).seq.fns.motion then
      (s.setView { s.view with driveAccepted := s.driveNow }).motionSeesDrive
    else s.setView { s.view with driveAccepted := s.driveNow }) (fun _ _ => ?_)
    (Loose.ite (fun _ => storageLeft_loose _) (fun _ => Loose.refl _))
  split
  · exact motionSeesDrive_loose s o e s.driveNow hd
  · rename_i hm
    refine ⟨setDrive_ok o _, fun ch k => ?_, setDrive_kin s _⟩
    have := (e ch k).2
    simp [State.motionRuns] at this
    exact absurd this.1 hm

/-! ### Changes of the Peer View -/

theorem reactTo_loose (s : State) (c : ViewChange) : Loose s (s.reactTo c) := by
  unfold State.reactTo
  split
  · exact (Loose.ite (fun _ => driveFollows_loose s) (fun _ => Loose.refl s)).trans
      (padFollows_calm _).loose
  · exact Loose.ite (fun _ => (Calm.ite (fun _ => forgetLevel_calm s _) (fun _ => Calm.refl s)).loose.trans
      (supplyChanged_steady _).loose) (fun _ => Loose.refl s)
  · exact Loose.ite (fun _ => (retest_calm s).loose) (fun _ => Loose.refl s)
  · exact (frostService_calm s).loose
  · exact (courtesyFollows_calm s _).loose
  · exact Loose.refl s

theorem tellChanges_loose (n : Nat) (s : State) : Loose s (s.tellChanges n) := by
  induction n generalizing s with
  | zero => exact setChanges_loose s []
  | succ n ih =>
    unfold State.tellChanges
    split
    · exact Loose.refl s
    · exact ((setChanges_loose s _).trans (reactTo_loose _ _)).trans (ih _)

/-- After the telling no change is untold. -/
theorem tellChanges_empty (n : Nat) (s : State) : (s.tellChanges n).view.changes = [] := by
  induction n generalizing s with
  | zero => rfl
  | succ n ih =>
    unfold State.tellChanges
    split
    · assumption
    · exact ih _

/-- Telling the readers keeps an orderly state orderly and safe, and leaves no change untold (R61). -/
theorem tellReaders_loose (s : State) : Loose s s.tellReaders := tellChanges_loose _ s

theorem tellReaders_empty (s : State) : s.tellReaders.view.changes = [] := tellChanges_empty _ s

/-- With nothing to tell, nothing happens. -/
theorem tellReaders_none {s : State} (h : s.view.changes = []) : s.tellReaders = s := by
  simp [State.tellReaders, State.tellChanges, h]

end Sys2Proof.Machine
end

