-- ==== Sys2Proof/Laws/Publish.lean ====
section
/-! SUPPORT. The end of a step: handing over changes nothing but the lanes, the buffers, the Dropped counter and the
periods, and after it the model's own fields are at rest (R61, R141, R171). -/

namespace Sys2Proof.Machine

/-- `t` is `s` after records were handed over. -/
structure Hands (s t : State) : Prop where
  rest : t = (s.setBus t.bus).setPeriods t.periods
  line : s.bus.sameLine t.bus
  lanes : s.bus.lanesFit → t.bus.lanesFit
  dropped : s.bus.dropped ≤ 255 → t.bus.dropped ≤ 255

theorem Hands.refl (s : State) : Hands s s := ⟨rfl, rfl, id, id⟩

theorem Hands.trans {s t u : State} (h : Hands s t) (k : Hands t u) : Hands s u where
  rest := by rw [k.rest, h.rest]; rfl
  line := Bus.sameLine_trans h.line k.line
  lanes := k.lanes ∘ h.lanes
  dropped := k.dropped ∘ h.dropped

theorem Hands.foldl {α : Type} (f : State → α → State) (h : ∀ s x, Hands s (f s x)) (l : List α) (s : State) :
    Hands s (l.foldl f s) := by
  induction l generalizing s with
  | nil => exact Hands.refl s
  | cons x xs ih => exact (h s x).trans (ih (f s x))

theorem hand_hands (s : State) (r : Record) (tag : Nat) : Hands s (s.hand r tag) :=
  ⟨rfl, State.hand_sameLine s r tag, State.hand_lanesFit s r tag, State.hand_dropped s r tag⟩

theorem setPeriods_hands (s : State) (p : Periods) : Hands s (s.setPeriods p) := ⟨rfl, rfl, id, id⟩

theorem hand_setPeriods_hands (s : State) (r : Record) (p : Periods) : Hands s ((s.hand r 0).setPeriods p) :=
  (hand_hands s r 0).trans (setPeriods_hands _ p)

theorem Hands.ite {s a b : State} {p : Prop} [Decidable p] (h : Hands s a) (k : Hands s b) :
    Hands s (if p then a else b) := by
  split
  · exact h
  · exact k

theorem publishShed_hands (s : State) : Hands s s.publishShed := by
  unfold State.publishShed
  split
  · exact Hands.ite (hand_setPeriods_hands s _ _) (Hands.refl s)
  · exact Hands.refl s

theorem publishSupply_hands (s : State) : Hands s s.publishSupply := by
  unfold State.publishSupply
  split
  · exact Hands.ite (hand_setPeriods_hands s _ _) (Hands.refl s)
  · exact Hands.refl s

theorem publishStatus0_hands (was s : State) : Hands s (State.publishStatus0 was s) :=
  Hands.ite (hand_setPeriods_hands s _ _) (Hands.refl s)

theorem publishStatus1_hands (s : State) : Hands s s.publishStatus1 := Hands.ite (hand_hands s _ _) (Hands.refl s)

theorem publishStatus2_hands (s : State) : Hands s s.publishStatus2 := Hands.ite (hand_hands s _ _) (Hands.refl s)

theorem publishTank_hands (was s : State) (t : Fin 3) : Hands s (State.publishTank was s t) :=
  Hands.ite (hand_setPeriods_hands s _ _) (Hands.refl s)

theorem publishClimate_hands (was s : State) (z : Fin 2) : Hands s (State.publishClimate was s z) :=
  Hands.ite (hand_setPeriods_hands s _ _) (Hands.refl s)

theorem publishMotion_hands (was s : State) (ch : Fin 2) : Hands s (State.publishMotion was s ch) :=
  Hands.ite (hand_setPeriods_hands s _ _) (Hands.refl s)

theorem publishInterlock_hands (was s : State) (ch : Fin 2) : Hands s (State.publishInterlock was s ch) :=
  Hands.ite (hand_setPeriods_hands s _ _) (Hands.refl s)

theorem publishLight_hands (was s : State) (ch : Fin 8) : Hands s (State.publishLight was s ch) :=
  Hands.ite (hand_setPeriods_hands s _ _) (Hands.refl s)

/-- Handing over changes the Gatherer and the periods (R171). -/
theorem handOver_hands (was s : State) : Hands s (State.handOver was s) := by
  unfold State.handOver
  dsimp only
  refine Hands.trans ?_ (Hands.foldl _ (fun s ch => publishLight_hands was s ch) _ _)
  refine Hands.trans ?_ (Hands.foldl _
    (fun s ch => (publishMotion_hands was s ch).trans (publishInterlock_hands was _ ch)) _ _)
  refine Hands.trans ?_ (Hands.foldl _ (fun s z => publishClimate_hands was s z) _ _)
  refine Hands.trans ?_ (Hands.foldl _ (fun s t => publishTank_hands was s t) _ _)
  exact ((publishShed_hands s).trans ((publishSupply_hands _).trans (publishStatus0_hands was _))).trans
    ((publishStatus1_hands _).trans (publishStatus2_hands _))

theorem Hands.ok {s t : State} (h : Hands s t) (o : s.Ok) : t.Ok := by
  rw [h.rest]
  exact ⟨o.checked, h.lanes o.lanes, o.claims, h.dropped o.dropped, o.changes⟩

/-- ILOCK and the INTERLOCK repeats follow the violations (R141). -/
theorem driveIlock_quiet (s : State) (h : s.view.changes = []) (d : s.due = Due.reset) : s.driveIlock.quiet := by
  refine ⟨h, d, rfl, fun ch k => ?_⟩
  have k : s.inViolation ch = false := k
  show (if s.inViolation 1 then (if s.inViolation 0 then s.periods.interlock else s.periods.interlock.set 0 none)
    else (if s.inViolation 0 then s.periods.interlock else s.periods.interlock.set 0 none).set 1 none).get ch = none
  have : ch = 0 ∨ ch = 1 := by omega
  rcases this with rfl | rfl
  · cases h1 : s.inViolation 1 <;> simp [k]
  · simp [k]

theorem setDue_ok {s : State} (o : s.Ok) (d : Due) : (s.setDue d).Ok :=
  ⟨o.checked, o.lanes, o.claims, o.dropped, o.changes⟩

theorem driveIlock_ok {s : State} (o : s.Ok) : s.driveIlock.Ok :=
  ⟨o.checked, o.lanes, o.claims, o.dropped, o.changes⟩

theorem driveIlock_safe {s : State} (e : s.extendSafe) : s.driveIlock.extendSafe := fun ch k => e ch k

/-- What the end of a step does to a state `s` whose changes are told: records are handed over and nothing else
changes. -/
theorem publish_handedOver (was s : State) (h : s.view.changes = []) : State.handedOver s (State.publish was s) := by
  unfold State.publish
  dsimp only
  rw [tellReaders_none h]
  have hh : Hands s (if s.publishes then State.handOver was s else s) := Hands.ite (handOver_hands was s) (Hands.refl s)
  generalize (if s.publishes then State.handOver was s else s) = u at hh ⊢
  have r := hh.rest
  have l := hh.line
  unfold Bus.sameLine at l
  unfold State.handedOver
  rw [r]
  simp only [State.driveIlock, State.setBus, State.setPeriods, State.setDue, State.setMotion]
  rw [l]

/-- The end of a step keeps an orderly state orderly and safe, and leaves the model's own fields at rest. -/
theorem publish_keeps (was s : State) (o : s.Ok) (e : s.extendSafe) :
    (State.publish was s).Ok ∧ (State.publish was s).extendSafe ∧ (State.publish was s).quiet
      ∧ ∃ u, State.Kin s u ∧ Hands u (if u.publishes then State.handOver was u else u) ∧
        State.publish was s = ((if u.publishes then State.handOver was u else u).setDue Due.reset).driveIlock := by
  obtain ⟨o1, e1, k1⟩ := tellReaders_loose s o e
  have n1 := tellReaders_empty s
  unfold State.publish
  dsimp only
  generalize s.tellReaders = u at o1 e1 k1 n1 ⊢
  have hh : Hands u (if u.publishes then State.handOver was u else u) :=
    Hands.ite (handOver_hands was u) (Hands.refl u)
  have ov := hh.ok o1
  have ev : (if u.publishes then State.handOver was u else u).extendSafe := by
    rw [hh.rest]
    exact e1
  have nv : (if u.publishes then State.handOver was u else u).view.changes = [] := by
    rw [hh.rest]
    exact n1
  refine ⟨?_, ?_, ?_, u, k1, hh, rfl⟩
  · exact driveIlock_ok (setDue_ok ov _)
  · exact driveIlock_safe (s := State.setDue _ Due.reset) ev
  · exact driveIlock_quiet _ nv rfl

end Sys2Proof.Machine
end

