-- ==== Sys2Proof/Laws/Sound.lean ====
section
/-! SUPPORT. A sane state (a sound one, within a step) stays sane under every operation of the Peer View, the Line
Controller, the Dispatcher, the Supply Monitor and the Start Sequencer, and the end of a step makes it sound. -/

namespace Sys2Proof.Machine

/-- A sound state but for the model's own fields, which rest only between steps. -/
structure State.Sane (s : State) : Prop where
  checked : s.view.checked
  lanes : s.bus.lanesFit
  queue : s.bus.queueFits
  claims : s.broker.claimsFit
  counters : s.countersFit
  extend : s.extendSafe

/-- `t` is sane if `s` is. -/
def Keeps (s t : State) : Prop := s.Sane → t.Sane

theorem State.Sane.ok {s : State} (h : s.Sane) : s.Ok :=
  ⟨h.checked, h.lanes, h.claims, h.counters.2.1, h.counters.2.2.2.2.2.1⟩

theorem State.Sound.sane {s : State} (h : s.Sound) : s.Sane :=
  ⟨h.checked, h.lanes, h.queue, h.claims, h.counters, h.extend⟩

theorem Keeps.refl (s : State) : Keeps s s := id

theorem Keeps.trans {s t u : State} (h : Keeps s t) (k : Keeps t u) : Keeps s u := k ∘ h

theorem Keeps.ite {s a b : State} {p : Prop} [Decidable p] (h : p → Keeps s a) (k : ¬p → Keeps s b) :
    Keeps s (if p then a else b) := by
  split
  · exact h ‹_›
  · exact k ‹_›

theorem Keeps.foldl {α : Type} (f : State → α → State) (h : ∀ s x, Keeps s (f s x)) (l : List α) (s : State) :
    Keeps s (l.foldl f s) := by
  induction l generalizing s with
  | nil => exact Keeps.refl s
  | cons x xs ih => exact (h s x).trans (ih (f s x))

theorem Keeps.intro {s t : State} (h : s.Sane → Keeps s t) : Keeps s t := fun o => h o o

theorem sameLine_fields {b c : Bus} (h : b.sameLine c) :
    c.rx = b.rx ∧ c.overrun = b.overrun ∧ c.unknown = b.unknown := by
  unfold Bus.sameLine at h
  rw [h]
  exact ⟨rfl, rfl, rfl⟩

theorem Loose.keeps {s t : State} (h : Loose s t) : Keeps s t := fun o => by
  obtain ⟨a, e, k⟩ := h o.ok o.extend
  obtain ⟨f1, f2, f3⟩ := sameLine_fields k.bus
  obtain ⟨c1, c2, c3, c4, c5, c6, c7⟩ := o.counters
  refine ⟨a.checked, a.lanes, ?_, a.claims, ⟨?_, a.dropped, ?_, ?_, ?_, a.changes, ?_⟩, e⟩
  · simpa [Bus.queueFits, f1] using o.queue
  · rw [f2]; exact c1
  · rw [f3]; exact c3
  · rw [k.view]; exact c4
  · rw [k.view]; exact c5
  · rw [k.seq]; exact c7

theorem Steady.keeps {s t : State} (h : Steady s t) : Keeps s t := h.loose.keeps

theorem Calm.keeps {s t : State} (h : Calm s t) : Keeps s t := h.loose.keeps

/-- The end of a step makes a sane state sound. -/
theorem publish_sound (was : State) {s : State} (h : s.Sane) : (State.publish was s).Sound := by
  obtain ⟨o, e, q, u, k, hh, eq⟩ := publish_keeps was s h.ok h.extend
  obtain ⟨c1, c2, c3, c4, c5, c6, c7⟩ := h.counters
  have f := sameLine_fields k.bus
  have g := sameLine_fields hh.line
  have hb : (State.publish was s).bus = (if u.publishes then State.handOver was u else u).bus := by rw [eq]; rfl
  have hv : (State.publish was s).view = u.view := by
    rw [eq]
    show (if u.publishes then State.handOver was u else u).view = u.view
    rw [hh.rest]
    rfl
  have hq : (State.publish was s).seq = u.seq := by
    rw [eq]
    show (if u.publishes then State.handOver was u else u).seq = u.seq
    rw [hh.rest]
    rfl
  refine ⟨o.checked, o.lanes, ?_, o.claims, ⟨?_, o.dropped, ?_, ?_, ?_, o.changes, ?_⟩, e, q⟩
  · unfold Bus.queueFits
    rw [hb, g.1, f.1]
    exact h.queue
  · rw [hb, g.2.1, f.2.1]; exact c1
  · rw [hb, g.2.2, f.2.2]; exact c3
  · rw [hv, k.view]; exact c4
  · rw [hv, k.view]; exact c5
  · rw [hq, k.seq]; exact c7

/-! ### Updates of one block -/

/-- A new bus whose lanes, queue and counters are within their limits. -/
theorem setBus_keeps (s : State) (b : Bus)
    (h : s.bus.lanesFit → b.lanesFit) (q : s.bus.queueFits → b.queueFits) (c1 : s.bus.overrun ≤ 255 → b.overrun ≤ 255)
    (c2 : s.bus.dropped ≤ 255 → b.dropped ≤ 255) (c3 : s.bus.unknown ≤ 255 → b.unknown ≤ 255) :
    Keeps s (s.setBus b) := fun o =>
  ⟨o.checked, h o.lanes, q o.queue, o.claims,
    ⟨c1 o.counters.1, c2 o.counters.2.1, c3 o.counters.2.2.1, o.counters.2.2.2⟩, o.extend⟩

/-- A new view of the same drive whose entries' checks agree. -/
theorem setView_keeps (s : State) (v : View) (h : s.view.checked → v.checked)
    (d : v.driveAccepted = s.view.driveAccepted) (c4 : s.view.foreign ≤ 255 → v.foreign ≤ 255)
    (c5 : s.view.tableError ≤ 255 → v.tableError ≤ 255) : Keeps s (s.setView v) := fun o =>
  ⟨h o.checked, o.lanes, o.queue, o.claims,
    ⟨o.counters.1, o.counters.2.1, o.counters.2.2.1, c4 o.counters.2.2.2.1, c5 o.counters.2.2.2.2.1,
      o.counters.2.2.2.2.2⟩,
    fun ch k => by
      have := o.extend ch k
      exact ⟨d.trans this.1, this.2⟩⟩

theorem setPins_keeps (s : State) (p : Pins) : Keeps s (s.setPins p) := fun o =>
  ⟨o.checked, o.lanes, o.queue, o.claims, o.counters, o.extend⟩

theorem setCell_keeps (s : State) (c : Cell) : Keeps s (s.setCell c) := fun o =>
  ⟨o.checked, o.lanes, o.queue, o.claims, o.counters, o.extend⟩

theorem setSupply_keeps (s : State) (x : Supply) : Keeps s (s.setSupply x) := fun o =>
  ⟨o.checked, o.lanes, o.queue, o.claims, o.counters, o.extend⟩

/-- A new sequencer state with the same functions that stays in Run if it was. -/
theorem setSeq_keeps (s : State) (x : Seq) (h : s.seq.lateSetup ≤ 255 → x.lateSetup ≤ 255) (f : x.fns = s.seq.fns)
    (p : s.seq.phase = .run → x.phase = .run) : Keeps s (s.setSeq x) := fun o =>
  ⟨o.checked, o.lanes, o.queue, o.claims,
    ⟨o.counters.1, o.counters.2.1, o.counters.2.2.1, o.counters.2.2.2.1, o.counters.2.2.2.2.1,
      o.counters.2.2.2.2.2.1, h o.counters.2.2.2.2.2.2⟩,
    fun ch k => by
      have a := o.extend ch k
      refine ⟨a.1, ?_⟩
      have b := a.2
      simp [State.motionRuns, State.inRun] at b ⊢
      exact ⟨f ▸ b.1, p b.2⟩⟩

/-! ### Entries and their checks (R58) -/

/-- An entry just written agrees with its check. -/
theorem Entry.seal_good (e : Entry) : e.seal.bad = false := by
  have h : e.seal.check = e.seal.parity := rfl
  simp [Entry.bad, h]

theorem Entry.invalidate_good (e : Entry) : e.invalidate.bad = false := Entry.seal_good _

theorem setWay_keeps (s : State) (i : Fin 16) (w : Fin 4) (e : Entry) (h : e.bad = false) :
    Keeps s (s.setWay i w e) := by
  refine setView_keeps s _ ?_ rfl id id
  intro k j x
  have hw : ∀ v : ViewSet, (v.touch w).ways = v.ways := by
    intro v
    unfold ViewSet.touch
    split <;> rfl
  simp only [Tab.get_set]
  split
  · subst_vars
    rw [hw]
    simp only [Tab.get_set]
    split
    · exact h
    · exact k _ x
  · exact k j x

theorem tell_keeps (s : State) (cs : List ViewChange) : Keeps s (s.tell cs) :=
  setView_keeps s _ (fun h => h) rfl id id

theorem lose_keeps (s : State) : Keeps s s.lose :=
  (setView_keeps s { s.view with overflow := true, overflowTimer := some Config.overflowMs } (fun h => h) rfl id id).trans
    (Keeps.ite (fun _ => Keeps.refl _) (fun _ => (monitor_calm _ _ _).keeps))

theorem read_keeps (s : State) (p : Fin 16 → Entry → Bool) : Keeps s (s.read p) :=
  Keeps.intro fun o => by rw [read_checked o.checked]; exact Keeps.refl s

theorem readAll_keeps (s : State) (p : Entry → Bool) : Keeps s (s.readAll p) := read_keeps s _

theorem hit_keeps (s : State) (i : Fin 16) (w : Fin 4) (p : Payload) : Keeps s (s.hit i w p) :=
  (setWay_keeps s i w _ (Entry.seal_good _)).trans (tell_keeps _ _)

theorem fill_keeps (s : State) (i : Fin 16) (k : Key) (p : Payload) : Keeps s (s.fill i k p) :=
  ((setWay_keeps s i _ _ (Entry.seal_good _)).trans (tell_keeps _ _)).trans
    (Keeps.ite (fun _ => lose_keeps _) (fun _ => Keeps.refl _))

/-- An arrival keeps every entry's check right (R58, R63). -/
theorem arrive_keeps (s : State) (n : Nat) (r : Record) : Keeps s (s.arrive n r) := by
  unfold State.arrive
  dsimp only
  refine (read_keeps s fun j _ => j == setOf { station := n, kind := r.kind, subject := r.subject }).trans ?_
  generalize s.read _ = u
  split
  · exact hit_keeps u _ _ _
  · exact fill_keeps u _ _ _

theorem mapEntries_keeps (s : State) (f : Entry → Entry) (h : ∀ e, e.bad = false → (f e).bad = false) :
    Keeps s (s.mapEntries f) := by
  refine setView_keeps s _ ?_ rfl id id
  intro k i w
  simp only [Tab.get_map]
  exact h _ (k i w)

theorem refresh_keeps (s : State) (p : Entry → Bool) (f : Entry → Freshness × Nat) : Keeps s (s.refresh p f) := by
  refine (mapEntries_keeps s _ ?_).trans (tell_keeps _ _)
  intro e he
  split
  · exact Entry.seal_good _
  · exact he

theorem entryAges_keeps (s : State) (k : Key) : Keeps s (s.entryAges k) := refresh_keeps s _ _

theorem entryGoesStale_keeps (s : State) (k : Key) : Keeps s (s.entryGoesStale k) := refresh_keeps s _ _

theorem holdBegins_keeps (s : State) : Keeps s s.holdBegins :=
  (refresh_keeps s _ _).trans (setView_keeps _ _ (fun h => h) rfl id id)

theorem holdResumes_keeps (s : State) : Keeps s s.holdResumes :=
  (refresh_keeps s _ _).trans (setView_keeps _ _ (fun h => h) rfl id id)

theorem holdRunsOut_keeps (s : State) : Keeps s s.holdRunsOut :=
  (refresh_keeps s _ _).trans (setView_keeps _ _ (fun h => h) rfl id id)

theorem expel_keeps (s : State) (p : Fin 4 → Entry → Bool) (c : Cause) : Keeps s (s.expel p c) := by
  refine (setView_keeps s { s.view with sets := s.view.sets.map fun v =>
      { v with ways := ⟨fin4.map fun w =>
          let e := v.ways.get w
          if e.valid && p w e then e.invalidate else e, rfl⟩ } } ?_ rfl id id).trans (tell_keeps _ _)
  intro k i w
  simp only [Tab.get_map]
  have key : ∀ w', (if ((s.view.sets.get i).ways.get w').valid && p w' ((s.view.sets.get i).ways.get w') then
      ((s.view.sets.get i).ways.get w').invalidate else (s.view.sets.get i).ways.get w').bad = false := by
    intro w'
    split
    · exact Entry.invalidate_good _
    · exact k i w'
  have : w = 0 ∨ w = 1 ∨ w = 2 ∨ w = 3 := by omega
  rcases this with rfl | rfl | rfl | rfl <;> exact key _

theorem rosterAndPinning_keeps (s : State) : Keeps s s.rosterAndPinning := by
  unfold State.rosterAndPinning
  refine Keeps.trans ?_ (expel_keeps _ _ _)
  exact Keeps.ite (fun _ => expel_keeps s _ _) (fun _ => Keeps.refl s)

/-! ### The Line Controller -/

theorem enqueue_queueFits (e : RxEntry) (b : Bus) (h : b.queueFits) : (b.enqueue e).queueFits := by
  unfold Bus.enqueue
  split
  · rename_i hl
    simp [Bus.queueFits, Config.rxCapacity] at hl ⊢
    omega
  · split <;> exact h

theorem enqueue_rest (e : RxEntry) (b : Bus) :
    (b.lanesFit → (b.enqueue e).lanesFit) ∧ (b.overrun ≤ 255 → (b.enqueue e).overrun ≤ 255)
      ∧ (b.enqueue e).dropped = b.dropped ∧ (b.enqueue e).unknown = b.unknown := by
  unfold Bus.enqueue
  split
  · exact ⟨fun h => h, id, rfl, rfl⟩
  · split
    · exact ⟨fun h => h, fun _ => sat255_le _, rfl, rfl⟩
    · exact ⟨fun h => h, id, rfl, rfl⟩

theorem frameCloses_keeps (s : State) (r : Reception) : Keeps s (s.frameCloses r) := by
  have key : ∀ e d a, Keeps s (s.setBus { s.bus.enqueue e with lastClose := d, acked := a }) := fun e d a =>
    have r := enqueue_rest e s.bus
    setBus_keeps s _ r.1 (enqueue_queueFits e s.bus) r.2.1 (fun h => le_of_eq_of_le r.2.2.1 h)
      (fun h => le_of_eq_of_le r.2.2.2 h)
  unfold State.frameCloses
  split
  · generalize hu : s.setBus _ = u
    refine Keeps.trans (hu ▸ key _ _ _) ?_
    exact (setBus_keeps u { u.bus with silenceTimer := some Config.silenceMs, busSilent := false } (fun h => h)
      (fun h => h) id id id).trans (Keeps.ite (fun _ => (monitor_calm _ _ _).keeps) (fun _ => Keeps.refl _))
  · exact key _ _ _

theorem receives_keeps (s : State) (line : List Bit) : Keeps s (s.receives line) := by
  unfold State.receives
  refine Keeps.ite (fun _ => Keeps.refl s) (fun _ => ?_)
  split
  · exact frameCloses_keeps s _
  · exact Keeps.refl s

theorem fallsSilent_keeps (s : State) : Keeps s s.fallsSilent :=
  (setBus_keeps s { s.bus with silenceTimer := none, busSilent := true } (fun h => h) (fun h => h) id id id).trans
    (monitor_calm _ _ _).keeps

theorem setSending_keeps (s : State) (x : Option Sending) : Keeps s (s.setBus { s.bus with sending := x }) :=
  setBus_keeps s _ (fun h => h) (fun h => h) id id id

theorem startsSending_keeps (s : State) : Keeps s s.startsSending := by
  unfold State.startsSending
  refine Keeps.ite (fun _ => Keeps.refl s) (fun _ => ?_)
  split
  · exact setSending_keeps s _
  · exact Keeps.refl s

theorem stopsSending_keeps (s : State) : Keeps s s.stopsSending := setSending_keeps s _

theorem leave_keeps (s : State) : Keeps s (s.setBus s.bus.leave) := by
  unfold Bus.leave
  split
  · split
    · exact setBus_keeps s _ (fun h => ⟨h.1, h.2.1, h.2.2.1, h.2.2.2.1, by simp, h.2.2.2.2.2⟩) (fun h => h) id id id
    · exact setBus_keeps s _ (fun h => ⟨h.1, h.2.1, h.2.2.1, h.2.2.2.1, h.2.2.2.2.1, by simp⟩) (fun h => h) id id id
  · exact setBus_keeps s _ (fun h => h) (fun h => h) id id id

theorem reportCompleted_keeps (s : State) (l : List Tagged) : Keeps s (s.reportCompleted l) := by
  unfold State.reportCompleted
  refine Keeps.foldl _ (fun s t => ?_) l s
  split
  · exact (announced_calm s _ _).keeps
  · exact Keeps.refl s

theorem reportFailed_keeps (s : State) (l : List Tagged) : Keeps s (s.reportFailed l) := by
  unfold State.reportFailed
  refine Keeps.foldl _ (fun s t => ?_) l s
  dsimp only
  split
  · rename_i id _
    have h := (announceFailed_calm s id t.tag).keeps
    generalize s.announceFailed id t.tag = p at h ⊢
    obtain ⟨u, r⟩ := p
    exact Keeps.trans h (report_steady u id r).keeps
  · exact Keeps.refl s

theorem builds_keeps (s : State) : Keeps s s.builds :=
  setBus_keeps s _ (Bus.build_fits _ _) (fun h => by
      have := (sameLine_fields (Bus.build_sameLine s.now s.bus)).1
      unfold Bus.queueFits at *
      rw [this]
      exact h)
    (fun h => by rw [(sameLine_fields (Bus.build_sameLine s.now s.bus)).2.1]; exact h)
    (fun h => by rw [Bus.build_dropped]; exact h)
    (fun h => by rw [(sameLine_fields (Bus.build_sameLine s.now s.bus)).2.2]; exact h)

theorem declareLineFault_keeps (s : State) : Keeps s s.declareLineFault := by
  unfold State.declareLineFault
  dsimp only
  refine Keeps.trans (t := s.setBus { s.bus with
    lineFault := true, probeTimer := some Config.probeMs, probeCount := 0, urgentBuf := none, normalBuf := none }) ?_
    ((holdBegins_keeps _).trans ((monitor_calm _ _ _).keeps.trans (reportFailed_keeps _ _)))
  exact setBus_keeps s _ (fun h => ⟨h.1, h.2.1, h.2.2.1, h.2.2.2.1, by simp, by simp⟩) (fun h => h) id id id

theorem clearLineFault_keeps (s : State) : Keeps s s.clearLineFault :=
  (setBus_keeps s { s.bus with lineFault := false, probeTimer := none, probeCount := 0, failed := 0 } (fun h => h)
    (fun h => h) id id id).trans ((monitor_calm _ _ _).keeps.trans
      ((Keeps.ite (fun _ => holdResumes_keeps _) (fun _ => Keeps.refl _)).trans (retest_calm _).keeps))

theorem countCompleted_keeps (s : State) (p : Bool) : Keeps s (s.countCompleted p) :=
  (setBus_keeps s { s.bus with failed := 0 } (fun h => h) (fun h => h) id id id).trans
    (Keeps.ite (fun _ => Keeps.ite (fun _ => clearLineFault_keeps _)
      (fun _ => setBus_keeps _ _ (fun h => h) (fun h => h) id id id)) (fun _ => Keeps.refl _))

theorem countFailed_keeps (s : State) (p : Bool) : Keeps s (s.countFailed p) :=
  (setBus_keeps s { s.bus with
    failed := min 8 (s.bus.failed + 1), probeCount := if p then 0 else s.bus.probeCount } (fun h => h) (fun h => h)
    id id id).trans (Keeps.ite (fun _ => declareLineFault_keeps _) (fun _ => Keeps.refl _))

theorem frameCompleted_keeps (s : State) : Keeps s s.frameCompleted := by
  unfold State.frameCompleted
  split
  · exact ((leave_keeps s).trans (reportCompleted_keeps _ _)).trans ((countCompleted_keeps _ _).trans (builds_keeps _))
  · exact Keeps.refl s

theorem frameFailed_keeps (s : State) : Keeps s s.frameFailed := by
  unfold State.frameFailed
  split
  · exact ((leave_keeps s).trans (reportFailed_keeps _ _)).trans ((countFailed_keeps _ _).trans (builds_keeps _))
  · exact Keeps.refl s

theorem buildProbe_keeps (s : State) : Keeps s s.buildProbe := by
  unfold State.buildProbe
  refine Keeps.ite (fun _ => Keeps.refl s) (fun _ => setBus_keeps s _ (fun h => ?_) (fun h => h) id id id)
  obtain ⟨h1, h2, h3, h4, h5, h6⟩ := h
  refine ⟨le_trans (List.length_filter_le _ _) h1, h2, h3.sublist List.filter_sublist, h4, h5, ?_⟩
  intro f hf
  simp only [Option.some.injEq] at hf
  subst hf
  exact ⟨le_refl 1, by simp⟩

theorem probeDue_keeps (s : State) : Keeps s s.probeDue :=
  (setBus_keeps s { s.bus with probeTimer := some Config.probeMs } (fun h => h) (fun h => h) id id id).trans
    (buildProbe_keeps _)

theorem ripen_lanes (c : Nat) (b : Bus) (h : b.lanesFit) : (b.ripen c).lanesFit := by
  unfold Bus.ripen
  split
  · exact h
  · obtain ⟨h1, h2, h3, h4, h5, h6⟩ := h
    refine ⟨by simpa using h1, h2, ?_, h4, h5, h6⟩
    rw [List.pairwise_map]
    refine h3.imp ?_
    intro x y hxy
    unfold Waiting.differs at *
    split <;> split <;> exact hxy

theorem gathered_keeps (s : State) (c : Nat) : Keeps s (s.gathered c) := by
  refine Keeps.trans (t := s.setBus (s.bus.ripen c)) ?_ (builds_keeps _)
  refine setBus_keeps s _ (ripen_lanes c s.bus) ?_ ?_ ?_ ?_ <;> unfold Bus.ripen <;> split <;> exact id

/-! ### The Dispatcher, the Supply Monitor and the Start Sequencer -/

theorem dropRecord_length (q : List RxEntry) : (dropRecord q).length ≤ q.length := by
  unfold dropRecord
  split <;> simp

/-- The Dispatcher keeps a state sane when the block it hands the record to does (R74, R169). -/
theorem dispatch_keeps (s : State) (p : Record → Bool) (f : State → Nat → Record → State)
    (h : ∀ u n r, p r = true → u.seq = s.seq → Keeps u (f u n r)) : Keeps s (s.dispatch p f) := by
  unfold State.dispatch
  refine Keeps.ite (fun _ => Keeps.refl s) (fun _ => ?_)
  split
  · exact Keeps.refl s
  · refine Keeps.ite (fun hp => ?_) (fun _ => Keeps.refl s)
    refine (setBus_keeps s { s.bus with rx := dropRecord s.bus.rx } (fun h => h)
      (fun h => le_trans (dropRecord_length _) h) id id id).trans ?_
    exact Keeps.ite (fun _ => setView_keeps _ _ (fun h => h) rfl (fun _ => sat255_le _) id) (fun _ => h _ _ _ hp rfl)

theorem onRequest_keeps (s : State) (code : Nat) (f : State → Nat → Int → State) (h : ∀ u n v, Keeps u (f u n v)) :
    Keeps s (s.onRequest code f) := dispatch_keeps s _ _ fun u _ _ _ _ => h u _ _

theorem handChange_keeps (s : State) (n : Fin 19) (a b : Bool) : Keeps s (s.handChange n a b) :=
  Keeps.ite (fun _ => Keeps.refl s) (fun _ => (monitor_calm s _ _).keeps)

theorem intervalEnds_keeps (s : State) (was : Supply) : Keeps s (s.intervalEnds was) :=
  (setCell_keeps s _).trans ((setDue_calm _ _).keeps.trans (supplyChanged_steady _).keeps)

theorem accountingInterval_keeps (s : State) (i v t : Int) : Keeps s (s.accountingInterval i v t) :=
  ((setSupply_keeps s _).trans (handChange_keeps _ _ _ _)).trans ((handChange_keeps _ _ _ _).trans
    ((readAll_keeps _ _).trans (((setSupply_keeps _ _).trans (handChange_keeps _ _ _ _)).trans
      ((handChange_keeps _ _ _ _).trans (intervalEnds_keeps _ _)))))

theorem takeSetup_keeps (s : State) (i v : Nat) : Keeps s (s.takeSetup i v) := by
  unfold State.takeSetup
  split <;> exact setSeq_keeps s _ id rfl id

theorem setupHandled_keeps (s : State) (r : Record) : Keeps s (s.setupHandled r) :=
  Keeps.ite (fun _ => Keeps.refl s)
    (fun _ => Keeps.ite (fun _ => setSeq_keeps s _ (fun _ => sat255_le _) rfl id) (fun _ => takeSetup_keeps s _ _))

/-- Calibrate is entered from a phase other than Run. -/
theorem calibrateEntered_keeps (s : State) (h : s.seq.phase ≠ .run) : Keeps s s.calibrateEntered :=
  (setSeq_keeps s { s.seq with phase := .calibrate, phaseTimer := some Config.calibrateMs } id rfl
    (fun k => absurd k h)).trans
    ((Keeps.ite (fun _ => ((calibrationBegins_steady _ 0).trans (calibrationBegins_steady _ 1)).keeps)
        (fun _ => Keeps.refl _)).trans
      ((Keeps.ite (fun _ => (setWater_calm _ _).keeps) (fun _ => Keeps.refl _)).trans
        ((Keeps.ite (fun _ => (setClimate_calm _ _).keeps) (fun _ => Keeps.refl _)).trans
          (Keeps.ite (fun _ => setSupply_keeps _ _) (fun _ => Keeps.refl _)))))

theorem rosterAndPinning_seq (s : State) : s.rosterAndPinning.seq = s.seq := by
  unfold State.rosterAndPinning
  dsimp only
  split <;> rfl

/-- Setup ends in the Setup phase. -/
theorem setupEnds_keeps (s : State) (h : s.seq.phase = .setup) : Keeps s s.setupEnds := by
  unfold State.setupEnds
  dsimp only
  generalize hu : s.setSeq _ = u
  have ku : Keeps s u := hu ▸ setSeq_keeps s _ id rfl id
  have pu : u.seq.phase ≠ .run := by rw [← hu]; simp [h]
  refine ku.trans ?_
  generalize hv : (if u.seq.fns.supply then u.setSupply (u.supply.recount u.seq.values) else u) = v
  have kv : Keeps u v := hv ▸ Keeps.ite (fun _ => setSupply_keeps u _) (fun _ => Keeps.refl u)
  have pv : v.seq = u.seq := by rw [← hv]; split <;> rfl
  refine kv.trans ?_
  refine Keeps.trans ?_ (calibrateEntered_keeps _ ?_)
  · refine Keeps.trans ?_ (rosterAndPinning_keeps _)
    refine Keeps.trans ?_ (setDue_calm _ _).keeps
    refine Keeps.trans ?_ (setCell_keeps _ _)
    exact setBus_keeps v _ (fun h => h) (fun h => h) id id id
  · rw [rosterAndPinning_seq]
    show v.seq.phase ≠ .run
    rw [pv]
    exact pu

/-- Run is entered from another phase. -/
theorem enterRun_keeps (s : State) (h : s.seq.phase ≠ .run) :
    Keeps s (s.setSeq { s.seq with phase := .run, phaseTimer := none }) := fun o =>
  ⟨o.checked, o.lanes, o.queue, o.claims, o.counters, fun ch k => by
    have b := (o.extend ch k).2
    simp [State.motionRuns, State.inRun] at b
    exact absurd b.2 h⟩

theorem runEntered_keeps (s : State) (h : s.seq.phase ≠ .run) : Keeps s s.runEntered := by
  unfold State.runEntered
  dsimp only
  refine (enterRun_keeps s h).trans ?_
  generalize s.setSeq _ = u
  refine Keeps.trans ?_ ((ceilingFollows_calm _).trans (courtesyFollows_calm _ none)).keeps
  generalize hv : (u.setDue _).runEntryNotices.waterEntersRun.frostService.heaterFollows.padFollows = v
  have kv : Keeps u v := hv ▸ (((setDue_calm u _).trans (runEntryNotices_calm _)).trans
    ((waterEntersRun_calm _).trans ((frostService_calm _).trans ((heaterFollows_calm _).trans
      (padFollows_calm _))))).keeps
  exact kv.trans (Keeps.ite (fun _ => (motionEntersRun_steady v).keeps) (fun _ => Keeps.refl v))

/-! ### Resets -/

theorem View.reset_checked : View.reset.checked := by
  intro i w
  simp [View.reset, Entry.bad, Entry.empty]

theorem Broker.reset_fits : Broker.reset.claimsFit := by
  intro id
  simp [Broker.reset, Claim.reset, Claim.fits, Claim.drawing]

theorem Bus.reset_lanesFit : Bus.reset.lanesFit := by
  simp [Bus.lanesFit, Bus.reset]

theorem Motion.reset_rest (p : Pins) (ch : Fin 2) : ((Motion.reset p).chans.get ch).st ≠ .extending := by
  have : ch = 0 ∨ ch = 1 := by omega
  rcases this with rfl | rfl <;> simp only [Motion.reset, Tab.get, Chan.reset, MState.atReset] <;> dsimp <;> split <;>
    simp

/-- A part in reset is sane whatever it was (R27, R31, R79, R102, R122, R146, R161, R173). -/
theorem inResetWith_sane (s : State) (r : Bool) (n : Nat) (f : Functions) (c : Cell) : (s.inResetWith r n f c).Sane where
  checked := View.reset_checked
  lanes := Bus.reset_lanesFit
  queue := Nat.zero_le _
  claims := Broker.reset_fits
  counters := ⟨Nat.zero_le _, Nat.zero_le _, Nat.zero_le _, Nat.zero_le _, Nat.zero_le _, Nat.zero_le _, Nat.zero_le _⟩
  extend := fun ch k => absurd k (Motion.reset_rest s.pins ch)

theorem connects_sane (s : State) (p : Straps) : (s.connects p).Sane := inResetWith_sane _ _ _ _ _

theorem restarts_sane (s : State) (b : Bool) : (s.restarts b).Sane := inResetWith_sane _ _ _ _ _

theorem released_sane (s : State) (p : Straps) : (s.released p).Sane := by
  unfold State.released
  dsimp only
  have h := inResetWith_sane (s.setPins { s.pins with straps := p }) s.seq.isRestart (p.st + 1) p.fs
    (s.cell.tested s.seq.isRestart)
  generalize hu : (s.setPins { s.pins with straps := p }).inResetWith s.seq.isRestart (p.st + 1) p.fs
    (s.cell.tested s.seq.isRestart) = u at h ⊢
  have hp : u.seq.phase ≠ .run := by rw [← hu]; simp [State.inResetWith, Seq.reset]
  have k1 : Keeps u (u.setSeq { u.seq with phase := .listen, phaseTimer := some Config.listenMs }) :=
    setSeq_keeps u _ id rfl (fun k => absurd k hp)
  generalize u.setSeq { u.seq with phase := .listen, phaseTimer := some Config.listenMs } = v at k1 ⊢
  have k2 : Keeps v (v.setBus { v.bus with silenceTimer := some Config.silenceMs }) :=
    setBus_keeps v _ (fun h => h) (fun h => h) id id id
  generalize v.setBus { v.bus with silenceTimer := some Config.silenceMs } = w at k2 ⊢
  have k3 : Keeps w (if p.fs.motion then w.setMotion { w.motion with windWindow := some Config.windWindowMs } else w) :=
    Keeps.ite (fun _ => (setMotion_steady w _ (by rfl)).keeps) (fun _ => Keeps.refl w)
  generalize (if p.fs.motion then w.setMotion { w.motion with windWindow := some Config.windWindowMs } else w) = x
    at k3 ⊢
  have k4 : Keeps x (if x.pins.eng then x.setView { x.view with driveSetWait := some Config.driveSetMs } else x) :=
    Keeps.ite (fun _ => setView_keeps x _ (fun h => h) rfl id id) (fun _ => Keeps.refl x)
  generalize (if x.pins.eng then x.setView { x.view with driveSetWait := some Config.driveSetMs } else x) = y at k4 ⊢
  exact Keeps.ite (fun _ => (monitor_calm y _ _).keeps) (fun _ => Keeps.refl y) (k4 (k3 (k2 (k1 h))))

/-! ### A millisecond -/

theorem Entry.tick_good (e : Entry) (h : e.bad = false) : e.tick.bad = false := by
  unfold Entry.tick
  split
  · exact Entry.seal_good _
  · exact h

/-- What a millisecond does to a channel. -/
@[simp] theorem tick_chan (s : State) (ch : Fin 2) : s.tick.chan ch = (s.chan ch).tick (s.pins.motor.get ch) :=
  match ch with
  | 0 => rfl
  | 1 => rfl

/-- A millisecond keeps a sound state sound (R59). -/
theorem tick_sound {s : State} (h : s.Sound) : s.tick.Sound where
  checked := fun i w => by
    simp only [State.tick, View.tick, Tab.get_map]
    exact Entry.tick_good _ (h.checked i w)
  lanes := h.lanes
  queue := h.queue
  claims := fun id => by
    have := h.claims id
    simp only [State.tick, Tab.get_map]
    exact this
  counters := h.counters
  extend := fun ch k => by
    have e : (s.tick.chan ch).st = (s.chan ch).st := by simp [Chan.tick]
    exact h.extend ch (e ▸ k)
  quiet := by
    have v : ∀ ch, s.tick.inViolation ch = s.inViolation ch := fun ch => by
      have e : (s.tick.chan ch).st = (s.chan ch).st := by simp [Chan.tick]
      unfold State.inViolation
      rw [e]
      rfl
    obtain ⟨q1, q2, q3, q4⟩ := h.quiet
    refine ⟨q1, q2, ?_, fun ch k => ?_⟩
    · rw [v, v]; exact q3
    · rw [v] at k
      have := q4 ch k
      simp [State.tick, Periods.tick, this, tickTimer]

end Sys2Proof.Machine
end

