-- ==== Sys2Proof/Laws/Commands.lean ====
section
/-! SUPPORT. What a command comes to when it finds what it acts on: its end, and the record or request it takes from the
Receive Queue. -/

namespace Sys2Proof.Machine

/-- A command that tells the readers of nothing ends with records handed over and nothing else. -/
theorem done_handedOver (was s : State) (h : s.view.changes = []) : ∃ t, done was s = .next t ∧ s.handedOver t :=
  ⟨_, rfl, publish_handedOver was s h⟩

/-- The state with the next record taken from the queue keeps its roster. -/
theorem taken_rosterRejects (s : State) (n : Nat) : s.taken.rosterRejects n = s.rosterRejects n := rfl

/-- A record that is let in is handed to its block. -/
theorem dispatch_brings {s : State} {n : Nat} {r : Record} (h : s.brings n r) {p : Record → Bool} (hp : p r = true)
    (f : State → Nat → Record → State) : s.dispatch p f = f s.taken n r := by
  obtain ⟨h1, h2, h3⟩ := h
  unfold State.dispatch
  rw [if_neg (by simp [h1]), h2]
  dsimp only
  rw [if_pos hp]
  have : (State.setBus s { s.bus with rx := dropRecord s.bus.rx }).rosterRejects n = false := h3
  simp only [this]
  rfl

/-- A request addressed to the station is handed to the block that answers it, with its arguments. -/
theorem onRequest_asks {s : State} {code index : Nat} {value : Int} (h : s.asks code index value)
    (f : State → Nat → Int → State) : s.onRequest code f = f s.taken index value := by
  obtain ⟨n, k, hb, hk⟩ := h
  unfold State.onRequest
  rw [dispatch_brings hb]
  · rfl
  · rcases hk with rfl | rfl <;> simp [State.isRequest, State.addressed]

/-- A reset with nothing to hand over ends as it stands. -/
theorem publish_rest (was s : State) (p : s.publishes = false) (h : s.view.changes = []) (d : s.due = Due.reset)
    (m : s.motionRuns = false) (i : s.motion.ilock = false) (t : s.periods.interlock = Tab.fill 2 none) :
    State.publish was s = s := by
  have v : ∀ ch, s.inViolation ch = false := fun ch => by simp [State.inViolation, m]
  unfold State.publish
  dsimp only
  rw [tellReaders_none h, p]
  have e : s.setDue Due.reset = s := by rw [← d]; rfl
  have f : (Tab.fill 2 (none : Timer)).set 0 none = Tab.fill 2 none := by decide
  have g : (Tab.fill 2 (none : Timer)).set 1 none = Tab.fill 2 none := by decide
  rw [if_neg (by decide), e]
  unfold State.driveIlock
  dsimp only
  rw [v 0, v 1, t]
  simp only [Bool.false_eq_true, if_false, Bool.or_self, f, g]
  rw [← i, ← t]
  rfl

end Sys2Proof.Machine
end

