-- ==== Sys2Proof/Laws/Reach.lean ====
section
/-! SUPPORT. How far an operation reaches: which blocks of the state it leaves exactly as they were, whatever the state
it starts from. Broker and Station Status operations stay within the claim table, the Gatherer, the view's reads and the
periods; each block's own operations add that block (R30, R33, R61, R181). -/

namespace Sys2Proof.Machine

theorem Shared.refl (s : State) : Shared s s := rfl

theorem Shared.trans {s t u : State} (h : Shared s t) (k : Shared t u) : Shared s u := by
  unfold Shared at *
  rw [k, h]

theorem Shared.ite {s a b : State} {p : Prop} [Decidable p] (h : Shared s a) (k : Shared s b) :
    Shared s (if p then a else b) := by
  split
  · exact h
  · exact k

theorem Shared.itePair {s : State} {α : Type} {p : Prop} [Decidable p] {a b : State × α} (h : Shared s a.1)
    (k : Shared s b.1) : Shared s (if p then a else b).1 := by
  split
  · exact h
  · exact k

theorem Shared.foldl {α : Type} (f : State → α → State) (h : ∀ s x, Shared s (f s x)) (l : List α) (s : State) :
    Shared s (l.foldl f s) := by
  induction l generalizing s with
  | nil => exact Shared.refl s
  | cons x xs ih => exact (h s x).trans (ih (f s x))

theorem Shared.water {s t : State} (h : Shared s t) : t.water = s.water := by rw [h]
theorem Shared.climate {s t : State} (h : Shared s t) : t.climate = s.climate := by rw [h]
theorem Shared.motion {s t : State} (h : Shared s t) : t.motion = s.motion := by rw [h]
theorem Shared.lights {s t : State} (h : Shared s t) : t.lights = s.lights := by rw [h]
theorem Shared.seq {s t : State} (h : Shared s t) : t.seq = s.seq := by rw [h]
theorem Shared.pins {s t : State} (h : Shared s t) : t.pins = s.pins := by rw [h]
theorem Shared.supply {s t : State} (h : Shared s t) : t.supply = s.supply := by rw [h]
theorem Shared.cell {s t : State} (h : Shared s t) : t.cell = s.cell := by rw [h]

/-! ### Station Status and the Gatherer -/

theorem hand_shared (s : State) (r : Record) (tag : Nat) : Shared s (s.hand r tag) := rfl

theorem answer_shared (s : State) (c o : Nat) : Shared s (s.answer c o) := rfl

theorem reviseOutcome_shared (s : State) (r o : Nat) : Shared s (s.reviseOutcome r o) := Shared.ite rfl rfl

theorem raiseAttention_shared (s : State) (n : Fin 19) (d : Bool) : Shared s (s.raiseAttention n d) := Shared.ite rfl rfl

theorem monitor_shared (s : State) (n : Fin 19) (d : Bool) : Shared s (s.monitor n d) := by
  unfold State.monitor
  dsimp only
  refine Shared.trans ?_ (raiseAttention_shared _ n d)
  exact Shared.ite rfl rfl

/-! ### Reads of the Peer View -/

theorem lose_shared (s : State) : Shared s s.lose := by
  unfold State.lose
  dsimp only
  refine Shared.ite rfl ?_
  exact (show Shared s (s.setView _) from rfl).trans (monitor_shared _ _ _)

theorem read_shared (s : State) (p : Fin 16 → Entry → Bool) : Shared s (s.read p) := by
  unfold State.read
  dsimp only
  refine Shared.ite rfl (Shared.ite ?_ rfl)
  exact (show Shared s (s.setView _) from rfl).trans (lose_shared _)

theorem readAll_shared (s : State) (p : Entry → Bool) : Shared s (s.readAll p) := read_shared s _

theorem readSupply_shared (s : State) : Shared s s.readSupply := Shared.ite rfl (readAll_shared _ _)

theorem brokerReads_shared (s : State) : Shared s s.brokerReads := (readSupply_shared s).trans (readAll_shared _ _)

/-! ### The Load Broker -/

theorem setClaim_shared (s : State) (id : Fin 7) (c : Claim) : Shared s (s.setClaim id c) := rfl

theorem handDraw_shared (s : State) (id : Fin 7) : Shared s (s.handDraw id) := rfl

theorem putClaim_shared (s : State) (id : Fin 7) (c : Claim) : Shared s (s.putClaim id c) := rfl

theorem startContest_shared (s : State) (id : Fin 7) (c : Claim) : Shared s (s.startContest id c) := rfl

theorem testWaiting_shared (s : State) (id : Fin 7) : Shared s (s.testWaiting id) := by
  unfold State.testWaiting
  dsimp only
  refine (brokerReads_shared s).trans (Shared.ite ?_ ?_)
  · exact startContest_shared _ _ _
  · exact setClaim_shared _ _ _

theorem retest_shared (s : State) : Shared s s.retest :=
  Shared.foldl _ (fun s id => by
    split
    · exact testWaiting_shared s id
    · exact Shared.refl s) _ s

theorem abandonContest_shared (s : State) (id : Fin 7) : Shared s (s.abandonContest id) :=
  Shared.ite (putClaim_shared _ _ _) rfl

theorem release_shared (s : State) (id : Fin 7) : Shared s (s.release id) := by
  unfold State.release
  split
  · rfl
  · exact (setClaim_shared _ _ _).trans (retest_shared _)
  · exact (putClaim_shared _ _ _).trans (retest_shared _)

theorem ask_shared (s : State) (id : Fin 7) (r a : Nat) (b : Bool) : Shared s (s.ask id r a b).1 := by
  unfold State.ask
  dsimp only
  refine Shared.itePair (release_shared s id) (Shared.itePair rfl (Shared.itePair ?_ ?_))
  · exact (abandonContest_shared s id).trans (putClaim_shared _ _ _)
  · refine ((abandonContest_shared s id).trans (brokerReads_shared _)).trans (Shared.itePair ?_ (Shared.itePair ?_ ?_))
    · exact startContest_shared _ _ _
    · exact setClaim_shared _ _ _
    · exact setClaim_shared _ _ _

theorem lower_shared (s : State) (id : Fin 7) (a : Nat) : Shared s (s.lower id a).1 := by
  unfold State.lower
  dsimp only
  refine Shared.itePair rfl (Shared.itePair (release_shared s id) ?_)
  exact (putClaim_shared _ _ _).trans (retest_shared _)

theorem abandonRaise_shared (s : State) (id : Fin 7) : Shared s (s.abandonRaise id) :=
  Shared.ite (putClaim_shared _ _ _) rfl

theorem raise_shared (s : State) (id : Fin 7) (a : Nat) : Shared s (s.raise id a).1 := by
  unfold State.raise
  dsimp only
  refine Shared.itePair rfl (Shared.itePair (lower_shared s id _) (Shared.itePair (putClaim_shared _ _ _) ?_))
  refine ((abandonRaise_shared s id).trans (brokerReads_shared _)).trans (Shared.itePair ?_ rfl)
  exact startContest_shared _ _ _

theorem rerank_shared (s : State) (id : Fin 7) (r : Nat) : Shared s (s.rerank id r).1 := by
  unfold State.rerank
  dsimp only
  split
  · exact (setClaim_shared _ _ _).trans (testWaiting_shared _ _)
  · exact Shared.itePair rfl (putClaim_shared _ _ _)
  · rfl

theorem force_shared (s : State) (id : Fin 7) (a : Nat) : Shared s (s.force id a).1 := by
  unfold State.force
  dsimp only
  refine ((abandonContest_shared s id).trans (readSupply_shared _)).trans (Shared.itePair (putClaim_shared _ _ _) ?_)
  split
  · exact setClaim_shared _ _ _
  · exact setClaim_shared _ _ _
  · rfl

theorem complete_shared (s : State) (id : Fin 7) : Shared s (s.complete id) := putClaim_shared _ _ _

theorem windowEnd_shared (s : State) (id : Fin 7) : Shared s (s.windowEnd id).1 := by
  unfold State.windowEnd
  dsimp only
  exact (brokerReads_shared s).trans (Shared.itePair (putClaim_shared _ _ _) (putClaim_shared _ _ _))

theorem announced_shared (s : State) (id : Fin 7) (n : Nat) : Shared s (s.announced id n) :=
  Shared.ite (setClaim_shared _ _ _) rfl

theorem announceFailed_shared (s : State) (id : Fin 7) (n : Nat) : Shared s (s.announceFailed id n).1 :=
  Shared.itePair (setClaim_shared _ _ _) rfl

theorem contestYields_shared (s : State) (id : Fin 7) : Shared s (s.contestYields id).1 := putClaim_shared _ _ _

/-! ### The blocks -/

theorem Shared.warm {s t : State} (h : Shared s t) : Warm s t := by unfold Warm Shared at *; rw [h]
theorem Shared.lit {s t : State} (h : Shared s t) : Lit s t := by unfold Lit Shared at *; rw [h]
theorem Shared.moved {s t : State} (h : Shared s t) : Moved s t := by unfold Moved Shared at *; rw [h]
theorem Shared.wet {s t : State} (h : Shared s t) : Wet s t := by unfold Wet Shared at *; rw [h]
theorem Warm.wet {s t : State} (h : Warm s t) : Wet s t := by unfold Wet Warm Shared at *; rw [h]
theorem Lit.moved {s t : State} (h : Lit s t) : Moved s t := by unfold Moved Lit Shared at *; rw [h]

theorem Warm.trans {s t u : State} (h : Warm s t) (k : Warm t u) : Warm s u := by
  unfold Warm Shared at *
  rw [k, h]

theorem Lit.trans {s t u : State} (h : Lit s t) (k : Lit t u) : Lit s u := by
  unfold Lit Shared at *
  rw [k, h]

theorem Moved.trans {s t u : State} (h : Moved s t) (k : Moved t u) : Moved s u := by
  unfold Moved Shared at *
  rw [k, h]

theorem Wet.trans {s t u : State} (h : Wet s t) (k : Wet t u) : Wet s u := by
  unfold Wet Shared at *
  rw [k, h]

theorem Warm.refl (s : State) : Warm s s := (Shared.refl s).warm
theorem Lit.refl (s : State) : Lit s s := (Shared.refl s).lit
theorem Moved.refl (s : State) : Moved s s := (Shared.refl s).moved
theorem Wet.refl (s : State) : Wet s s := (Shared.refl s).wet

theorem Warm.ite {s a b : State} {p : Prop} [Decidable p] (h : Warm s a) (k : Warm s b) : Warm s (if p then a else b) := by
  split <;> assumption

theorem Lit.ite {s a b : State} {p : Prop} [Decidable p] (h : Lit s a) (k : Lit s b) : Lit s (if p then a else b) := by
  split <;> assumption

theorem Moved.ite {s a b : State} {p : Prop} [Decidable p] (h : Moved s a) (k : Moved s b) :
    Moved s (if p then a else b) := by
  split <;> assumption

theorem Wet.ite {s a b : State} {p : Prop} [Decidable p] (h : Wet s a) (k : Wet s b) : Wet s (if p then a else b) := by
  split <;> assumption

theorem setClimate_warm (s : State) (c : Climate) : Warm s (s.setClimate c) := rfl
theorem setCell_warm (s : State) (c : Cell) : Warm s (s.setCell c) := rfl
theorem setLights_lit (s : State) (l : Lights) : Lit s (s.setLights l) := rfl
theorem setMotion_moved (s : State) (m : Motion) : Moved s (s.setMotion m) := rfl
theorem setWater_wet (s : State) (w : Water) : Wet s (s.setWater w) := rfl
theorem setChan_moved (s : State) (ch : Fin 2) (c : Chan) : Moved s (s.setChan ch c) := rfl
theorem modChan_moved (s : State) (ch : Fin 2) (f : Chan → Chan) : Moved s (s.modChan ch f) := rfl
theorem setLight_lit (s : State) (ch : Fin 8) (l : Light) : Lit s (s.setLight ch l) := rfl
theorem setGroup_lit (s : State) (g : Fin 2) (x : Group) : Lit s (s.setGroup g x) := rfl

/-! ### The Climate Controller's operations -/

theorem updateHdem_warm (s : State) : Warm s s.updateHdem := setClimate_warm _ _

theorem enterPurging_warm (s : State) : Warm s s.enterPurging := by
  unfold State.enterPurging
  dsimp only
  exact Warm.ite ((setClimate_warm _ _).trans (lower_shared _ _ _).warm) (setClimate_warm _ _)

theorem declareLockout_warm (s : State) : Warm s s.declareLockout :=
  ((setClimate_warm _ _).trans (setCell_warm _ _)).trans (monitor_shared _ _ _).warm

theorem heaterFails_warm (s : State) : Warm s s.heaterFails := by
  unfold State.heaterFails
  dsimp only
  refine Warm.trans ?_ (enterPurging_warm _)
  exact Warm.ite ((setClimate_warm _ _).trans (declareLockout_warm _)) (setClimate_warm _ _)

theorem enterRunning_warm (s : State) : Warm s s.enterRunning :=
  ((setClimate_warm _ _).trans (lower_shared _ _ _).warm).trans (updateHdem_warm _)

theorem enterStarting_warm (s : State) : Warm s s.enterStarting := by
  unfold State.enterStarting
  dsimp only
  have h := (setClimate_warm s _).trans (updateHdem_warm (s.setClimate { s.climate with
    heater := .starting, hen := true, startTimer := some Config.heaterStartMs }))
  exact Warm.ite (h.trans (heaterFails_warm _)) (Warm.ite (h.trans (enterRunning_warm _)) h)

theorem heaterYields_warm (s : State) : Warm s s.heaterYields := by
  unfold State.heaterYields
  split <;> first | exact enterPurging_warm s | exact Warm.refl s

theorem heaterRerank_warm (s : State) : Warm s s.heaterRerank := by
  unfold State.heaterRerank
  dsimp only
  refine Warm.ite ?_ (Warm.refl s)
  have h := rerank_shared s loadHeater s.heaterRank
  split <;> (rename_i e; rw [e] at h)
  · exact (h.warm.trans (complete_shared _ _).warm).trans (heaterYields_warm _)
  · exact h.warm

theorem askHeater_warm (s : State) : Warm s s.askHeater := by
  unfold State.askHeater
  dsimp only
  refine Warm.ite ?_ (ask_shared _ _ _ _ _).warm
  have h := ask_shared s loadHeater 1 (Item.startDraw s.seq.values) true
  split <;> (rename_i e; rw [e] at h)
  · exact (h.warm.trans (setClimate_warm _ _)).trans (ask_shared _ _ _ _ _).warm
  · exact h.warm

theorem heaterFollows_warm (s : State) : Warm s s.heaterFollows := by
  unfold State.heaterFollows
  refine Warm.ite (Warm.trans ?_ (updateHdem_warm _)) (Warm.refl s)
  repeat' split
  all_goals first
    | exact Warm.refl s
    | exact askHeater_warm s
    | exact (rerank_shared _ _ _).warm
    | exact (release_shared _ _).warm
    | exact heaterRerank_warm s
    | exact (enterPurging_warm s).trans (heaterRerank_warm _)
    | exact (setClimate_warm _ _).trans (heaterRerank_warm _)

theorem heaterGranted_warm (s : State) : Warm s s.heaterGranted := by
  unfold State.heaterGranted
  dsimp only
  exact Warm.ite ((heaterRerank_warm s).trans (enterStarting_warm _)) (heaterRerank_warm s)

theorem heaterStands_shared (s : State) : Shared s s.heaterStands := Shared.ite (ask_shared _ _ _ _ _) (Shared.refl s)

theorem heaterLost_warm (s : State) : Warm s s.heaterLost :=
  (Warm.ite (setClimate_warm _ _) (Warm.refl s)).trans (heaterStands_shared _).warm

theorem heaterWaits_shared (s : State) : Shared s s.heaterWaits := Shared.ite (heaterStands_shared s) (Shared.refl s)

theorem frostService_warm (s : State) : Warm s s.frostService := by
  unfold State.frostService
  dsimp only
  refine Warm.ite (Warm.trans (readAll_shared s _).warm (Warm.ite (Warm.refl _) ?_)) (Warm.refl s)
  exact (setClimate_warm _ _).trans (heaterFollows_warm _)

theorem modeChanged_warm (s : State) : Warm s s.modeChanged := by
  unfold State.modeChanged
  dsimp only
  refine Warm.ite (Warm.trans (Warm.trans ?_ (frostService_warm _)) (heaterFollows_warm _)) (Warm.refl s)
  exact Warm.ite (Warm.refl s) (setClimate_warm _ _)

theorem setCall_warm (s : State) : Warm s s.setCall := Warm.ite (setClimate_warm _ _) (Warm.refl s)

theorem countCall_warm (s : State) : Warm s s.countCall := Warm.ite (setClimate_warm _ _) (Warm.refl s)

theorem padFollows_warm (s : State) : Warm s s.padFollows := by
  unfold State.padFollows
  dsimp only
  refine Warm.ite (Warm.trans ((readSupply_shared s).trans (readAll_shared _ _)).warm
    (Warm.trans (setClimate_warm _ _) (Warm.ite (Warm.ite (ask_shared _ _ _ _ _).warm (Warm.refl _)) ?_))) (Warm.refl s)
  exact (setClimate_warm _ _).trans (release_shared _ _).warm

theorem padYields_warm (s : State) : Warm s s.padYields := by
  unfold State.padYields
  dsimp only
  have h : Warm s ((s.setClimate { s.climate with pad := false }).release loadPad) :=
    (setClimate_warm _ _).trans (release_shared _ _).warm
  exact Warm.ite (h.trans (ask_shared _ _ _ _ _).warm) h

/-! ### The Light Controller's operations -/

theorem amend_shared (s : State) (g : Fin 2) : Shared s (s.amend g) := by
  unfold State.amend
  dsimp only
  exact Shared.ite (Shared.ite (release_shared _ _) (Shared.ite (lower_shared _ _ _) (Shared.refl s))) (Shared.refl s)

theorem takeTargets_lit (s : State) (g : Fin 2) (t : Tab 4 Nat) : Lit s (s.takeTargets g t) :=
  Lit.trans (((setLight_lit _ _ _).trans (setLight_lit _ _ _)).trans ((setLight_lit _ _ _).trans (setLight_lit _ _ _)))
    (amend_shared _ _).lit

theorem finishRequest_shared (s : State) (n : Nat) : Shared s (s.finishRequest n) :=
  Shared.ite (Shared.refl s) (reviseOutcome_shared _ _ _)

theorem requestTaken_lit (s : State) (g : Fin 2) (r : GroupReq) : Lit s (s.requestTaken g r) :=
  ((setGroup_lit _ _ _).trans (takeTargets_lit _ _ _)).trans (finishRequest_shared _ _).lit

theorem requestRefused_lit (s : State) (g : Fin 2) (r : GroupReq) : Lit s (s.requestRefused g r) :=
  ((setGroup_lit _ _ _).trans (amend_shared _ _).lit).trans (finishRequest_shared _ _).lit

theorem askGroup_shared (s : State) (g : Fin 2) (a : Nat) : Shared s (s.askGroup g a).1 :=
  Shared.itePair (raise_shared _ _ _) (ask_shared _ _ _ _ _)

theorem tryScales_lit (g : Fin 2) (l : List Nat) : ∀ (s : State) (r : GroupReq), Lit s (tryScales g r l s) := by
  induction l with
  | nil => exact fun s r => requestRefused_lit s g r
  | cons x xs ih =>
    intro s r
    unfold tryScales
    dsimp only
    refine Lit.ite (requestTaken_lit _ _ _) ?_
    generalize hr : ({ r with trial := s.scaledTargets g r.want x, scale := x } : GroupReq) = r'
    generalize hu : s.setGroup g { s.group g with pending := some r' } = u
    have h0 : Lit s u := hu ▸ setGroup_lit _ _ _
    have k := fun a => askGroup_shared u g a
    split <;> (rename_i e; have h := congrArg Prod.fst e ▸ k _)
    · exact (h0.trans h.lit).trans (ih _ _)
    · exact (h0.trans h.lit).trans (requestTaken_lit _ _ _)
    · exact h0.trans h.lit

theorem changeGroup_lit (s : State) (g : Fin 2) (t : Tab 4 Nat) (n : Nat) : Lit s (s.changeGroup g t n) := by
  unfold State.changeGroup
  dsimp only
  refine Lit.ite (takeTargets_lit _ _ _) ?_
  generalize hr : ({ want := _, trial := _, scale := 1000, req := n } : GroupReq) = r'
  generalize hu : s.setGroup g { s.group g with pending := some r' } = u
  have h0 : Lit s u := hu ▸ setGroup_lit _ _ _
  have k := fun a => askGroup_shared u g a
  split <;> (rename_i e; have h := congrArg Prod.fst e ▸ k _)
  · exact (h0.trans h.lit).trans (tryScales_lit _ _ _ _)
  · exact (h0.trans h.lit).trans (requestTaken_lit _ _ _)
  · exact h0.trans h.lit

theorem withdrawAsk_shared (s : State) (g : Fin 2) : Shared s (s.withdrawAsk g) := by
  unfold State.withdrawAsk
  split
  · exact raise_shared _ _ _
  · exact release_shared _ _
  · exact Shared.refl s

theorem abandonRequest_lit (s : State) (g : Fin 2) : Lit s (s.abandonRequest g) :=
  Lit.ite ((withdrawAsk_shared s g).lit.trans (setGroup_lit _ _ _)) (Lit.refl s)

theorem requestEnds_lit (s : State) (g : Fin 2) (o : Nat) : Lit s (s.requestEnds g o) := by
  unfold State.requestEnds
  split
  · exact Lit.refl s
  · dsimp only
    exact Lit.ite ((setGroup_lit _ _ _).trans (finishRequest_shared _ _).lit)
      ((setGroup_lit _ _ _).trans (reviseOutcome_shared _ _ _).lit)

theorem requestEndsInStorage_lit (s : State) (g : Fin 2) : Lit s (s.requestEndsInStorage g) :=
  Lit.ite ((withdrawAsk_shared s g).lit.trans (requestEnds_lit _ _ _)) (Lit.refl s)

theorem courtesyChange_lit (s : State) (ch : Fin 8) (d : CourtesyDue) : Lit s (s.courtesyChange ch d) := by
  unfold State.courtesyChange
  refine Lit.ite (setLights_lit _ _) ?_
  dsimp only
  split
  · exact setLights_lit _ _
  · exact Lit.ite ((setLights_lit _ _).trans (changeGroup_lit _ _ _ _)) (setLights_lit _ _)
  · exact (setLights_lit _ _).trans (changeGroup_lit _ _ _ _)

theorem courtesyResumes_lit (s : State) : Lit s s.courtesyResumes := by
  unfold State.courtesyResumes
  split
  · exact Lit.refl s
  · exact Lit.ite (Lit.refl s) (courtesyChange_lit _ _ _)

theorem courtesyFollows_lit (s : State) (l : Option Nat) : Lit s (s.courtesyFollows l) := by
  unfold State.courtesyFollows
  refine Lit.ite (Lit.refl s) ?_
  split
  · exact Lit.refl s
  · dsimp only
    have h := (readAll_shared s fun e => e.kind == .motion).lit
    generalize (s.readAll fun e => e.kind == .motion) = u at h ⊢
    have k := fun l => h.trans (setLights_lit u l)
    split
    · refine Lit.ite (k _) (Lit.ite ((k _).trans (setLights_lit _ _)) ?_)
      exact ((k _).trans (setLights_lit _ _)).trans (courtesyChange_lit _ _ _)
    · exact Lit.ite ((k _).trans (setLights_lit _ _)) (k _)

theorem ceilingFollows_lit (s : State) : Lit s s.ceilingFollows :=
  ((setLights_lit s _).trans (amend_shared _ _).lit).trans (amend_shared _ _).lit

theorem lightsGranted_lit (s : State) (g : Fin 2) : Lit s (s.lightsGranted g) := by
  unfold State.lightsGranted
  split
  · exact (requestTaken_lit _ _ _).trans (courtesyResumes_lit _)
  · exact Lit.refl s

theorem lightsLost_lit (s : State) (g : Fin 2) : Lit s (s.lightsLost g) := by
  unfold State.lightsLost
  split
  · exact (tryScales_lit _ _ _ _).trans (courtesyResumes_lit _)
  · exact Lit.refl s

theorem lightsRestored_shared (s : State) (g : Fin 2) : Shared s (s.lightsRestored g) :=
  Shared.ite (putClaim_shared _ _ _) (Shared.refl s)

/-! ### The Motion Controller's operations -/

theorem stepSeen_lit (s : State) (ch : Fin 2) : Lit s (s.stepSeen ch) := Lit.ite (courtesyFollows_lit _ _) (Lit.refl s)

theorem brake_moved (s : State) (ch : Fin 2) (f : Move) (n : Nat) (k : Bool) : Moved s (s.brake ch f n k) := by
  unfold State.brake
  dsimp only
  have k := fun f => modChan_moved s ch f
  exact (Moved.ite (k _) ((k _).trans (release_shared _ _).moved)).trans (stepSeen_lit _ _).moved

theorem clearStall_moved (s : State) (ch : Fin 2) : Moved s (s.clearStall ch) :=
  Moved.ite ((modChan_moved _ _ _).trans (monitor_shared _ _ _).moved) (Moved.refl s)

theorem clearTravelFault_moved (s : State) (ch : Fin 2) : Moved s (s.clearTravelFault ch) :=
  Moved.ite ((modChan_moved _ _ _).trans (monitor_shared _ _ _).moved) (Moved.refl s)

theorem declareTravelFault_moved (s : State) (ch : Fin 2) : Moved s (s.declareTravelFault ch) :=
  Moved.ite (Moved.refl s) ((modChan_moved _ _ _).trans (monitor_shared _ _ _).moved)

theorem arriveAt_moved (s : State) (ch : Fin 2) : Moved s (s.arriveAt ch) := by
  unfold State.arriveAt
  dsimp only
  have h := (brake_moved s ch (if (s.chan ch).pending == .extend then .extend else .none)
    (if (s.chan ch).pending == .extend then (s.chan ch).req else 0) false).trans (clearStall_moved _ ch)
  exact Moved.ite h (h.trans (clearTravelFault_moved _ ch))

theorem begun_moved (s : State) (ch : Fin 2) : Moved s (s.begun ch) := by
  unfold State.begun
  dsimp only
  exact Moved.ite ((stepSeen_lit s ch).moved.trans (arriveAt_moved _ _)) (stepSeen_lit s ch).moved

theorem startMove_moved (s : State) (ch : Fin 2) (m : Move) : Moved s (s.startMove ch m) := by
  unfold State.startMove
  dsimp only
  refine Moved.trans (Moved.trans ?_ (reviseOutcome_shared _ _ _).moved) (begun_moved _ ch)
  exact (modChan_moved s ch _).trans (show Shared _ (State.setDue _ _) from rfl).moved

theorem startBackoff_moved (s : State) (ch : Fin 2) : Moved s (s.startBackoff ch) :=
  (modChan_moved s ch _).trans (begun_moved _ ch)

theorem settle_moved (s : State) (ch : Fin 2) (x : MState) (m : Move) (n : Nat) : Moved s (s.settle ch x m n) :=
  (modChan_moved s ch _).trans (stepSeen_lit _ ch).moved

theorem endPending_moved (s : State) (ch : Fin 2) (o : Nat) : Moved s (s.endPending ch o) :=
  ((modChan_moved s ch _).trans (release_shared _ _).moved).trans (reviseOutcome_shared _ _ _).moved

theorem tryStart_moved (s : State) (ch : Fin 2) : Moved s (s.tryStart ch) := by
  unfold State.tryStart
  dsimp only
  refine Moved.ite (Moved.refl s) ?_
  repeat' split
  all_goals first
    | exact startMove_moved _ _ _
    | exact endPending_moved _ _ _
    | exact (release_shared _ _).moved
    | exact Moved.refl s

theorem claimProtective_shared (s : State) (ch : Fin 2) : Shared s (s.claimProtective ch) :=
  Shared.ite (rerank_shared _ _ _) (ask_shared _ _ _ _ _)

theorem claimRequested_shared (s : State) (ch : Fin 2) : Shared s (s.claimRequested ch) :=
  Shared.ite (ask_shared _ _ _ _ _) (Shared.refl s)

theorem actOnPending_moved (s : State) (ch : Fin 2) : Moved s (s.actOnPending ch) := by
  unfold State.actOnPending
  dsimp only
  refine Moved.ite (Moved.refl s) ?_
  split
  · exact Moved.ite (Moved.refl s) ((claimProtective_shared s ch).moved.trans (tryStart_moved _ _))
  · exact Moved.ite (Moved.refl s) ((claimRequested_shared s ch).moved.trans (tryStart_moved _ _))
  · exact (claimRequested_shared s ch).moved.trans (tryStart_moved _ _)
  · exact Moved.refl s

theorem takePending_moved (s : State) (ch : Fin 2) (m : Move) (n : Nat) : Moved s (s.takePending ch m n) :=
  (modChan_moved s ch _).trans (actOnPending_moved _ ch)

theorem backoffRetracts_moved (s : State) (ch : Fin 2) (b : Bool) : Moved s (s.backoffRetracts ch b) :=
  (modChan_moved s ch _).trans (stepSeen_lit _ ch).moved

theorem replacedByNeed_shared (s : State) (ch : Fin 2) : Shared s (s.replacedByNeed ch) := reviseOutcome_shared _ _ _

theorem extendMeetsNeed_moved (s : State) (ch : Fin 2) : Moved s (s.extendMeetsNeed ch) :=
  Moved.ite (endPending_moved s ch _) (Moved.refl s)

theorem pendProtective_moved (s : State) (ch : Fin 2) : Moved s (s.pendProtective ch) :=
  ((replacedByNeed_shared s ch).moved.trans (Moved.ite (release_shared _ _).moved (Moved.refl _))).trans
    (takePending_moved _ _ _ _)

theorem needDue_moved (s : State) (ch : Fin 2) : Moved s (s.needDue ch) := by
  unfold State.needDue
  dsimp only
  refine Moved.ite (Moved.refl s) ?_
  split
  · exact extendMeetsNeed_moved s ch
  · exact (brake_moved s ch _ _ _).trans (rerank_shared _ _ _).moved
  · exact ((replacedByNeed_shared s ch).moved.trans (modChan_moved _ ch _)).trans (rerank_shared _ _ _).moved
  · exact (((replacedByNeed_shared s ch).moved.trans (modChan_moved _ ch _)).trans (rerank_shared _ _ _).moved).trans
      (backoffRetracts_moved _ _ _)
  · split
    · exact Moved.refl s
    · exact (rerank_shared _ _ _).moved
    · exact (rerank_shared _ _ _).moved
    · exact ((replacedByNeed_shared s ch).moved.trans (modChan_moved _ ch _)).trans (rerank_shared _ _ _).moved
  · exact Moved.ite (extendMeetsNeed_moved s ch)
      (Moved.ite (Moved.refl s) (pendProtective_moved s ch))

theorem needEnds_moved (s : State) (ch : Fin 2) : Moved s (s.needEnds ch) := by
  unfold State.needEnds
  dsimp only
  refine Moved.ite (Moved.refl s) ?_
  have h : Moved s (if (s.chan ch).pending = .protective then (s.dropPending ch).release (loadMotor ch) else s) :=
    Moved.ite ((modChan_moved s ch _).trans (release_shared _ _).moved) (Moved.refl s)
  exact Moved.ite ((h.trans (modChan_moved _ ch _)).trans (release_shared _ _).moved) h

theorem motionSeesDrive_moved (s : State) : Moved s s.motionSeesDrive :=
  Moved.ite ((needDue_moved s 0).trans (needDue_moved _ 1)) ((needEnds_moved s 0).trans (needEnds_moved _ 1))

theorem motionEntersRun_moved (s : State) : Moved s s.motionEntersRun := by
  unfold State.motionEntersRun
  dsimp only
  have h : Moved s (if s.needs 0 then s.needDue 0 else s) := Moved.ite (needDue_moved s 0) (Moved.refl s)
  exact Moved.ite (h.trans (needDue_moved _ 1)) h

theorem dwellEnds_moved (s : State) (ch : Fin 2) : Moved s (s.dwellEnds ch) := by
  unfold State.dwellEnds
  dsimp only
  have k := fun f => modChan_moved s ch f
  split
  · exact (k _).trans ((settle_moved _ _ _ _ _).trans (actOnPending_moved _ ch))
  · exact (k _).trans (settle_moved _ _ _ _ _)
  · exact Moved.ite ((k _).trans ((release_shared _ _).moved.trans (settle_moved _ _ _ _ _)))
      (Moved.ite ((k _).trans ((claimProtective_shared _ ch).moved.trans (startMove_moved _ _ _)))
        ((k _).trans (startBackoff_moved _ _)))
  · refine Moved.ite ?_ ((k _).trans ((settle_moved _ _ _ _ _).trans (claimRequested_shared _ ch).moved))
    split
    · exact (k _).trans (startMove_moved _ _ _)
    · exact (k _).trans (((release_shared _ _).moved.trans (settle_moved _ _ _ _ _)).trans
        (reviseOutcome_shared _ _ _).moved)
  · exact Moved.ite ((k _).trans ((release_shared _ _).moved.trans (settle_moved _ _ _ _ _)))
      (Moved.ite ((k _).trans (startMove_moved _ _ _))
        ((k _).trans ((settle_moved _ _ _ _ _).trans (claimRequested_shared _ ch).moved)))
  · exact Moved.ite ((k _).trans ((release_shared _ _).moved.trans (settle_moved _ _ _ _ _)))
      ((k _).trans ((claimProtective_shared _ ch).moved.trans (startMove_moved _ _ _)))

theorem stalls_moved (s : State) (ch : Fin 2) : Moved s (s.stalls ch) := by
  unfold State.stalls
  dsimp only
  have h : Moved s (if (s.chan ch).stalled then s
    else (s.modChan ch fun c => { c with stalled := true }).monitor (Mon.stall ch) true) :=
    Moved.ite (Moved.refl s) ((modChan_moved _ _ _).trans (monitor_shared _ _ _).moved)
  exact Moved.ite (h.trans (brake_moved _ _ _ _ _))
    ((h.trans (brake_moved _ _ _ _ _)).trans (declareTravelFault_moved _ _))

theorem motionYields_moved (s : State) (ch : Fin 2) : Moved s (s.motionYields ch) := by
  unfold State.motionYields
  dsimp only
  repeat' split
  all_goals first
    | exact brake_moved _ _ _ _ _
    | exact (complete_shared _ _).moved
    | exact (release_shared _ _).moved

theorem extendEndsInStorage_moved (s : State) (ch : Fin 2) : Moved s (s.extendEndsInStorage ch) := by
  unfold State.extendEndsInStorage
  dsimp only
  refine Moved.ite (Moved.ite (endPending_moved _ _ _) ?_) (Moved.ite ?_ (Moved.refl s))
  · exact (modChan_moved s ch _).trans (reviseOutcome_shared _ _ _).moved
  · exact ((modChan_moved s ch _).trans (release_shared _ _).moved).trans (reviseOutcome_shared _ _ _).moved

/-! ### The Water Manager's operations -/

theorem pumpFollows_wet (s : State) : Wet s s.pumpFollows := setWater_wet _ _

theorem pumpReleased_wet (s : State) : Wet s s.pumpReleased := (setWater_wet _ _).trans (release_shared _ _).wet

theorem demandFollows_wet (s : State) : Wet s s.demandFollows := by
  unfold State.demandFollows
  refine Wet.ite (Wet.trans ?_ (pumpFollows_wet _)) (Wet.refl s)
  exact Wet.ite (Wet.refl s) (Wet.ite (Wet.ite (ask_shared _ _ _ _ _).wet (Wet.refl s))
    (Wet.ite (Wet.refl s) (pumpReleased_wet s)))

theorem setDemand_wet (s : State) (d : Bool) : Wet s (s.setDemand d) :=
  Wet.ite (Wet.refl s) ((setWater_wet _ _).trans (frostService_warm _).wet)

theorem timing_wet (s : State) (n : Nat) : Wet s (s.timing n) := setWater_wet _ _

theorem enterCirculating_wet (s : State) : Wet s s.enterCirculating :=
  ((setWater_wet _ _).trans (setDemand_wet _ _)).trans (pumpFollows_wet _)

theorem disposeClaim_wet (s : State) : Wet s s.disposeClaim := by
  unfold State.disposeClaim
  refine Wet.ite ?_ ((pumpReleased_wet s).trans (demandFollows_wet _))
  have h := rerank_shared s loadPump 5
  split <;> (rename_i e; rw [e] at h)
  · exact (h.wet.trans (pumpReleased_wet _)).trans (demandFollows_wet _)
  · exact h.wet.trans (demandFollows_wet _)

theorem cycleCompleted_wet (s : State) : Wet s s.cycleCompleted :=
  (((setDemand_wet s false).trans (setWater_wet _ _)).trans (timing_wet _ _)).trans (disposeClaim_wet _)

theorem cyclePostponed_wet (s : State) : Wet s s.cyclePostponed :=
  (((setDemand_wet s false).trans (setWater_wet _ _)).trans (timing_wet _ _)).trans (demandFollows_wet _)

theorem cyclingEnds_wet (s : State) : Wet s s.cyclingEnds := by
  unfold State.cyclingEnds
  dsimp only
  have h := (setDemand_wet s false).trans (setWater_wet (s.setDemand false) { (s.setDemand false).water with
    cycle := .off, owed := 0, dueTimer := none, dueOnRun := false, circTimer := none })
  exact Wet.ite (h.trans (disposeClaim_wet _)) h

theorem drain_wet (s : State) : Wet s s.drain := by
  unfold State.drain
  dsimp only
  have h := (setDemand_wet s false).trans (setWater_wet (s.setDemand false) { (s.setDemand false).water with
    cycle := .drained, owed := 0, dueTimer := none, dueOnRun := false, circTimer := none })
  exact Wet.ite ((h.trans (pumpReleased_wet _)).trans (demandFollows_wet _)) (h.trans (demandFollows_wet _))

theorem valveTiming_wet (s : State) : Wet s s.valveTiming := by
  unfold State.valveTiming
  dsimp only
  refine Wet.ite (Wet.ite ?_ (setWater_wet _ _)) (setWater_wet _ _)
  exact ((setWater_wet _ _).trans (setWater_wet _ _)).trans (monitor_shared _ _ _).wet

theorem openDump_wet (s : State) : Wet s s.openDump :=
  ((setWater_wet _ _).trans (valveTiming_wet _)).trans (drain_wet _)

theorem valveFollows_wet (s : State) : Wet s s.valveFollows := by
  unfold State.valveFollows
  exact Wet.ite (Wet.ite (Wet.ite ((timing_wet _ _).trans (demandFollows_wet _)) (demandFollows_wet _))
    (Wet.ite (demandFollows_wet _) (drain_wet _))) (demandFollows_wet _)

theorem takeDue_wet (s : State) : Wet s s.takeDue := by
  unfold State.takeDue
  dsimp only
  refine Wet.ite (timing_wet _ _) (Wet.ite (Wet.ite ((rerank_shared _ _ _).wet.trans (enterCirculating_wet _)) ?_) ?_)
  · generalize hu : s.setWater { s.water with cycle := .asking, dueTimer := none, dueOnRun := false } = u
    have h0 : Wet s u := hu ▸ setWater_wet _ _
    generalize Item.pumpDraw s.seq.values = a
    have h := ask_shared u loadPump 1 a true
    split <;> (rename_i e; rw [e] at h)
    · exact (h0.trans h.wet).trans (cyclePostponed_wet _)
    · exact h0.trans h.wet
  · generalize Item.pumpDraw s.seq.values = a
    have h := force_shared s loadPump a
    split <;> (rename_i e; rw [e] at h)
    · exact h.wet.trans (enterCirculating_wet _)
    · exact h.wet.trans (openDump_wet _)

theorem cyclingBegins_wet (s : State) : Wet s s.cyclingBegins :=
  Wet.ite (drain_wet s) (Wet.ite ((timing_wet _ _).trans (takeDue_wet _)) (setWater_wet _ _))

theorem pumpGranted_wet (s : State) : Wet s s.pumpGranted := Wet.ite (enterCirculating_wet s) (pumpFollows_wet s)

theorem pumpLost_wet (s : State) : Wet s s.pumpLost := Wet.ite (cyclePostponed_wet s) (Wet.refl s)

theorem pumpYields_wet (s : State) : Wet s s.pumpYields := by
  unfold State.pumpYields
  dsimp only
  exact Wet.ite ((pumpReleased_wet s).trans (cyclePostponed_wet _)) ((pumpReleased_wet s).trans (demandFollows_wet _))

theorem guardReads_wet (s : State) : Wet s s.guardReads := by
  unfold State.guardReads
  dsimp only
  refine Wet.ite (Wet.ite ?_ (setWater_wet _ _)) (Wet.ite ?_ (setWater_wet _ _))
  · exact ((setWater_wet _ _).trans (monitor_shared _ _ _).wet).trans (cyclingEnds_wet _)
  · exact ((setWater_wet _ _).trans (monitor_shared _ _ _).wet).trans (cyclingBegins_wet _)

theorem dumpReads_wet (s : State) : Wet s s.dumpReads := by
  unfold State.dumpReads
  dsimp only
  refine Wet.ite ((readAll_shared s _).wet.trans (Wet.ite ?_ (setWater_wet _ _))) (Wet.refl s)
  exact (setWater_wet _ _).trans (openDump_wet _)

theorem pumpReads_wet (s : State) : Wet s s.pumpReads := by
  unfold State.pumpReads
  refine Wet.ite (demandFollows_wet s) ?_
  split
  · exact ((release_shared _ _).wet.trans (timing_wet _ _)).trans (demandFollows_wet _)
  · exact (setWater_wet _ _).trans (cycleCompleted_wet _)
  · exact demandFollows_wet s

theorem tankMonitor_wet (s : State) (t : Fin 3) : Wet s (s.tankMonitor t) := by
  unfold State.tankMonitor
  dsimp only
  exact Wet.ite ((setWater_wet _ _).trans (monitor_shared _ _ _).wet) (setWater_wet _ _)

theorem readTank_wet (s : State) (t : Fin 3) (a : Nat) (x : Int) : Wet s (s.readTank t a x) := setWater_wet _ _

theorem waterReads_wet (s : State) (a b c : Nat) (x y z : Int) : Wet s (s.waterReads a b c x y z) :=
  ((readTank_wet s 0 a x).trans ((readTank_wet _ 1 b y).trans (readTank_wet _ 2 c z))).trans
    (((tankMonitor_wet _ 0).trans ((tankMonitor_wet _ 1).trans (tankMonitor_wet _ 2))).trans
      ((guardReads_wet _).trans ((dumpReads_wet _).trans (pumpReads_wet _))))

end Sys2Proof.Machine
end

