-- ==== Sys2Proof/Tests/Slice0.lean ====
section
/-! SUPPORT. Tests of the model, each on one step of a small state or on one function, its expected result taken from
the spec's text, tables and worked sequences; and the witnesses: for each statement with hypotheses a theorem
`witness_<Name>` shows concrete states and operands that meet them, clause by clause. -/

namespace Sys2Proof.Tests

open Sys2Proof.Machine

set_option Elab.async false

/-! ### Operands outside the hardware's ranges -/

theorem test_wf_station_strap : Straps.wf { st := 8, fs := ⟨true, true, true, true, true⟩ } = false := by decide
theorem test_wf_connect_reset :
    (Instr.connectReset { st := 8, fs := ⟨true, true, true, true, true⟩ }).wf = false := by decide
theorem test_wf_reset_released :
    (Instr.resetReleased { st := 9, fs := ⟨true, true, true, true, true⟩ }).wf = false := by decide
theorem test_wf_key_station : Key.wf { station := 9, kind := .draw, subject := 0 } = false := by decide
theorem test_wf_key_kind : Key.wf { station := 1, kind := .shed, subject := 0 } = false := by decide
theorem test_wf_key_subject : (Instr.entryAging { station := 1, kind := .draw, subject := 16 }).wf = false := by decide
theorem test_wf_entry_stale : (Instr.entryStale { station := 0, kind := .draw, subject := 0 }).wf = false := by decide
theorem test_wf_frame_recessive_start : (Instr.frameClose [true, false]).wf = false := by decide
theorem test_wf_gather_class : (Instr.gatherTimeout 1).wf = false := by decide
theorem test_wf_probe : (Instr.waterReadingEvent 4096 0 0 0 0 0).wf = false := by decide
theorem test_wf_accepts : (Instr.gatherTimeout 2).wf = true ∧ (Instr.waterReadingEvent 4095 0 0 0 0 0).wf = true := by
  decide
theorem test_no_word_spells_a_command : decodeTableWord 16 0 = none := by decide

/-! ### The spec's tables and worked figures -/

/-- R57: DRAW for load 4 and INTERLOCK for subject 1, both from station 4, go to set 10. -/
theorem test_sets_meet : setOf ⟨4, .draw, 4⟩ = 10 ∧ setOf ⟨4, .interlock, 1⟩ = 10 := by decide
/-- The Peer View chapter's worked sequence: CLIMATE of station 1, zone 0, goes to set 10. -/
theorem test_set_of_climate : setOf ⟨1, .climate, 0⟩ = 10 := by decide
/-- R10: whole degrees round down. -/
theorem test_whole_degrees : wholeDegrees (-52) = -6 ∧ wholeDegrees (-1) = -1 ∧ wholeDegrees 199 = 19 := by decide
/-- R10: the derating table, Lead and Lithium. -/
theorem test_derating : derating false 19 = 992 ∧ derating true 19 = 997 ∧ derating false 0 = 840
    ∧ derating true (-20) = 880 ∧ derating false (-40) = 520 ∧ derating true (-40) = 820 := by decide
/-- R12: the headroom table for Imax 10,000 and ρ 200. -/
theorem test_headroom : headroom defaultValues false 200 = 0 ∧ headroom defaultValues false 201 = 100
    ∧ headroom defaultValues false 250 = 5000 ∧ headroom defaultValues false 299 = 9900
    ∧ headroom defaultValues false 300 = 10000 ∧ headroom defaultValues true 300 = 0 := by decide
/-- R8: the largest charging step. -/
theorem test_largest_increment : increment 100 99 50000 = (50000, 99) := by decide
/-- R82: a probe whose reading falls as the tank fills; a tank that is not fitted. -/
theorem test_probe_level : probeLevel 3800 400 2100 = some 500 ∧ probeLevel 0 4095 4095 = some 1000
    ∧ probeLevel 7 7 9 = none := by decide
/-- R83: 500, 530, 540, 480, 470 publish 540 at the third reading and 470 at the fifth. -/
theorem test_debounce :
    let t : Tank := { level := none, prev := none, temp := 0, declared := false, count := 0 }
    let r := fun (t : Tank) x => t.reading (some x) 0 false
    (r (r t 500) 530).level = none ∧ (r (r (r t 500) 530) 540).level = some 540
      ∧ (r (r (r (r t 500) 530) 540) 480).level = some 540
      ∧ (r (r (r (r (r t 500) 530) 540) 480) 470).level = some 470 := by decide
/-- R108: the demand table for setpoint 180. -/
theorem test_demand : zoneDemand 180 185 = 0 ∧ zoneDemand 180 177 = 7 ∧ zoneDemand 180 176 = 10
    ∧ zoneDemand 180 160 = 50 ∧ zoneDemand 180 130 = 100 := by decide
/-- R149: the duty table. -/
theorem test_duty : dutyOf 31 = 0 ∧ dutyOf 32 = 1 ∧ dutyOf 250 = 62 ∧ dutyOf 450 = 202 ∧ dutyOf 750 = 562
    ∧ dutyOf 1000 = 1000 := by decide
/-- R150: a fade of 800 ms from 0 to 800 passes 200 at 200 ms. -/
theorem test_fade : ((⟨190, 800, 0, 180, true, some 0, 36⟩ : Light).fadeStep 800).level = 200 := by decide
/-- R185: a fade time is rounded down to its step of 100; a code beyond the last is taken as the last. -/
theorem test_clamp_item : clampItem 38 850 = 800 ∧ clampItem 1 7 = 1 ∧ clampItem 21 90 = 60 := by decide
/-- R163: before stuffing a frame of one record is 77 bits, of four 221; five of them, the acknowledge slot and the end
field, follow the check word. -/
theorem test_frame_length : (plainBits 2 3 [⟨0, .status1 ⟨0, 0, 0, 0, 0⟩⟩]).length + 5 = 77 := by decide +kernel
/-- R163, R164, R174, R179: REQUEST 9, subject 4, code 4 (Extend), index 1, value −2 from station 4 in class 1, bit by
bit: its fields most significant first. -/
theorem test_request_bits : headBits 1 4 [⟨4, .request ⟨4, 1, -2⟩⟩] =
    [false, true, false, true, true, false, false]
      ++ [true, false, false, true, false, true, false, false]
      ++ [false, true, false, false, false, false, false, false, false, false, false, true]
      ++ [true, true, true, true, true, true, true, true, true, true, true, true, true, true, true, false]
      ++ List.replicate 12 false := by decide +kernel
/-- R163: after six equal bits one of the opposite value is inserted. -/
theorem test_stuffing : (stuff (List.replicate 6 false)).length = 7 := by decide

/-! ### States for the tests -/

/-- The state is sound, worked out. -/
def soundB (s : State) : Bool :=
  decide (∀ i w, ((s.view.sets.get i).ways.get w).bad = false)
    && decide (s.bus.periodic.length ≤ 8 ∧ s.bus.urgent.length ≤ 2)
    && decide (s.bus.periodic.Pairwise fun a b => a.item.record.kind ≠ b.item.record.kind
        ∨ a.item.record.subject ≠ b.item.record.subject)
    && decide (s.bus.urgent.Pairwise fun a b => a.item.record.kind ≠ b.item.record.kind
        ∨ a.item.record.subject ≠ b.item.record.subject)
    && (s.bus.urgentBuf.all fun f => decide (1 ≤ f.records.length ∧ f.records.length ≤ 4))
    && (s.bus.normalBuf.all fun f => decide (1 ≤ f.records.length ∧ f.records.length ≤ 4))
    && decide (s.bus.rx.length ≤ 16)
    && decide (∀ id, let c := s.broker.claims.get id
      c.rank ≤ 6 ∧ c.held ≤ 30000 ∧ c.asked ≤ 30000 ∧ (c.drawing = false → c.held = 0) ∧ (c.raise = true → c.st = .held)
        ∧ (c.drawing = true → c.raise = false → c.asked = c.held) ∧ (c.st = .forced → c.rank = 1))
    && decide (s.bus.overrun ≤ 255 ∧ s.bus.dropped ≤ 255 ∧ s.bus.unknown ≤ 255 ∧ s.view.foreign ≤ 255
      ∧ s.view.tableError ≤ 255 ∧ s.status.changeCount ≤ 255 ∧ s.seq.lateSetup ≤ 255)
    && decide (∀ ch, (s.chan ch).st = .extending → s.view.driveAccepted = false ∧ s.motionRuns = true)
    && decide (s.view.changes = [] ∧ s.due = Due.reset ∧ s.motion.ilock = (s.inViolation 0 || s.inViolation 1)
      ∧ ∀ ch, s.inViolation ch = false → s.periods.interlock.get ch = none)

theorem sound_of {s : State} (h : soundB s = true) : s.Sound := by
  simp only [soundB, Bool.and_eq_true, decide_eq_true_eq] at h
  obtain ⟨⟨⟨⟨⟨⟨⟨⟨⟨⟨h1, h2⟩, h3⟩, h4⟩, h5⟩, h6⟩, h7⟩, h8⟩, h9⟩, h10⟩, h11⟩ := h
  refine ⟨h1, ⟨h2.1, h2.2, h3, h4, ?_, ?_⟩, h7, h8, h9, h10, h11⟩
  · intro f hf; rw [hf] at h5; simpa [TxFrame.fits] using h5
  · intro f hf; rw [hf] at h6; simpa [TxFrame.fits] using h6

/-- Every pending value in its item's range; none is pending in most of the tests' states. -/
def pendingB (s : State) : Bool :=
  s.seq.pendingItems == Tab.fill 49 none || (List.finRange 49).all fun i =>
    (s.seq.pendingItems.get i).all fun x => @decide (inRange i.val x) (by unfold inRange; infer_instance)

theorem default_fit : defaultValues.fit :=
  of_decide_eq_true (inst := by unfold Values.fit inRange; infer_instance) (by decide +kernel)

/-- The values in force fit; most of the tests' states have the defaults. -/
def valuesB (s : State) : Bool :=
  s.seq.values == defaultValues || @decide s.seq.values.fit (by unfold Values.fit inRange; infer_instance)

theorem values_of {s : State} (h : valuesB s = true) : s.seq.values.fit := by
  simp only [valuesB, Bool.or_eq_true, beq_iff_eq, decide_eq_true_eq] at h
  rcases h with h | h
  · rw [h]
    exact default_fit
  · exact h

theorem pending_of {s : State} (h : pendingB s = true) (i : Fin 49) (x : Nat)
    (hx : s.seq.pendingItems.get i = some x) : inRange i.val x := by
  simp only [pendingB, Bool.or_eq_true, beq_iff_eq] at h
  rcases h with h | h
  · rw [h] at hx
    simp at hx
  · have := List.all_eq_true.1 h i (List.mem_finRange i)
    rw [hx] at this
    simpa using this

def claimsB (s : State) : Bool := @decide s.claimsServe (by
  dsimp only [State.claimsServe]
  repeat' first
    | refine @instDecidableAnd _ _ ?_ ?_
    | refine @Nat.decidableForallFin _ _ (fun _ => ?_)
    | infer_instance)

def viewB (s : State) : Bool := @decide s.viewFits (by
  dsimp only [State.viewFits]
  repeat' first
    | refine @instDecidableAnd _ _ ?_ ?_
    | refine @Nat.decidableForallFin _ _ (fun _ => ?_)
    | infer_instance)

def waterB (s : State) : Bool := @decide s.waterFits (by
  dsimp only [State.waterFits]
  repeat' first
    | refine @instDecidableAnd _ _ ?_ ?_
    | refine @Nat.decidableForallFin _ _ (fun _ => ?_)
    | infer_instance)

def climateB (s : State) : Bool := @decide s.climateFits (by
  dsimp only [State.climateFits]
  repeat' first
    | refine @instDecidableAnd _ _ ?_ ?_
    | refine @Nat.decidableForallFin _ _ (fun _ => ?_)
    | infer_instance)

def motionB (s : State) : Bool := @decide s.motionFits (by
  dsimp only [State.motionFits, State.chanFits]
  repeat' first
    | refine @instDecidableAnd _ _ ?_ ?_
    | refine @Nat.decidableForallFin _ _ (fun _ => ?_)
    | infer_instance)

def lightsB (s : State) : Bool := @decide s.lightsFit (by
  dsimp only [State.lightsFit]
  repeat' first
    | refine @instDecidableAnd _ _ ?_ ?_
    | refine @Nat.decidableForallFin _ _ (fun _ => ?_)
    | infer_instance)

/-- The state is in order, worked out. -/
def fitsB (s : State) : Bool :=
  soundB s
    && (valuesB s && decide (10 ≤ s.bus.gatherMs ∧ s.bus.gatherMs ≤ 250))
    && pendingB s
    && @decide s.cellMirrors (by unfold State.cellMirrors; infer_instance)
    && decide (s.supply.q ≤ s.supply.capKept * 3600000 ∧ s.supply.r ≤ 99 ∧ s.supply.level ≤ 6
      ∧ (s.seq.fns.supply = true → s.supply.intervalTimer.isSome = true → s.supply.capKept = Item.capacity s.seq.values))
    && (s.supply.latest.all fun f => decide (f.soc ≤ 1000 ∧ f.h ≤ 30000 ∧ f.level ≤ 6))
    && claimsB s
    && viewB s
    && waterB s
    && climateB s
    && motionB s
    && decide (∀ ch, (s.chan ch).req ≤ s.status.serial)
    && ([(0 : Fin 2), 1].all fun g => (s.group g).pending.all fun r => decide (r.req ≤ s.status.serial))
    && lightsB s

theorem fits_of {s : State} (h : fitsB s = true) : s.Fits := by
  simp only [fitsB, claimsB, viewB, waterB, climateB, motionB, lightsB, Bool.and_eq_true, decide_eq_true_eq] at h
  obtain ⟨⟨⟨⟨⟨⟨⟨⟨⟨⟨⟨⟨⟨h1, h2⟩, h3⟩, h4⟩, h5⟩, h6⟩, h7⟩, h8⟩, h9⟩, h10⟩, h11⟩, h12⟩, h13⟩, h14⟩ := h
  refine ⟨sound_of h1, ⟨values_of h2.1, pending_of h3, h2.2⟩, h4, ⟨h5.1, h5.2.1, h5.2.2.1, h5.2.2.2, ?_⟩, h7, h8, h9, h10, h11, ⟨h12, ?_⟩, h14⟩
  · intro f hf
    rw [hf] at h6
    simpa using h6
  · intro g r hr
    have := List.all_eq_true.1 h13 g (by match g with | 0 => simp | 1 => simp)
    rw [hr] at this
    simpa using this

/-- The part in a phase, right after it began there, its blocks as reset leaves them, its phase timer run down. -/
def stand (p : Phase) : State :=
  State.reset.setSeq { State.reset.seq with phase := p, phaseTimer := if p = .run then none else some 0 }

def run : State := stand .run

/-- Station 2's frame of one record stands in the Receive Queue. -/
def heard (s : State) (r : Record) : State := s.setBus { s.bus with rx := [.good 2 1 [r]] }

/-- Station 2 asks all stations. -/
def asked (s : State) (code index : Nat) (value : Int) : State := heard s ⟨0, .request ⟨code, index, value⟩⟩

/-- A claim Held, or in Contest with its window run down. -/
def holding (s : State) (id : Fin 7) (rank a : Nat) : State := s.setClaim id { (s.claim id).toHeld a with rank := rank }
def contesting (s : State) (id : Fin 7) (rank a : Nat) (single : Bool) : State :=
  s.setClaim id ⟨rank, .contest, 0, a, single, false, false, some 0, 1⟩

/-- A peer's or the own SUPPLY figures that offer `h` counts. -/
def offering (s : State) (h : Nat) : State :=
  let f : Figures := ⟨0, 0, false, false, 20, 1, 1, 500, h, true, false, .rest, 0, false, false, false, false⟩
  s.setSupply { s.supply with latest := some f }

theorem asks_asked (s : State) (code index : Nat) (value : Int) (h : s.inReset = false)
    (hr : s.rosterRejects 2 = false) : (asked s code index value).asks code index value :=
  ⟨2, 0, ⟨h, rfl, hr⟩, .inl rfl⟩

/-- The state a command leaves. -/
def after (c : Instr) (s : State) : State :=
  match exec c s with
  | .next t => t
  | _ => s

/-- Drive is accepted, and both channels, not Retracted, are in violation. -/
def driven (s : State) : State :=
  (s.setView { s.view with localDrive := true, driveAccepted := true }).setMotion { s.motion with ilock := s.motionRuns }

/-- A channel moves, with its claim Held at rank 3. -/
def moving (s : State) (ch : Fin 2) (m : MState) : State :=
  (holding s (loadMotor ch) 3 800).modChan ch fun c => { c with
    st := m, bridge := m.bridge, travel := if m = .backoff then none else some 0
    backoff := if m = .backoff then some 0 else none, stall := some 0 }

/-- A channel brakes, with what follows on, its claim Held for a move. -/
def braking (s : State) (ch : Fin 2) (f : Move) : State :=
  (if f.isMove then holding s (loadMotor ch) (if f = .protective then 0 else 3) 800 else s).modChan ch fun c => { c with
    st := .braking, bridge := .short, followOn := f, dwell := some 0 }

/-- A channel stands still in a state. -/
def resting (s : State) (ch : Fin 2) (m : MState) : State := s.modChan ch fun c => { c with st := m }

/-- A channel at rest has a move pending. -/
def pends (s : State) (ch : Fin 2) (m : Move) : State := s.modChan ch fun c => { c with pending := m }

/-- The wind lockout runs. -/
def windy (s : State) : State :=
  s.setMotion { s.motion with windLockout := some 0, windDeclared := true }

/-- HOLD is asserted. -/
def held (s : State) : State := s.setPins { s.pins with hold := true }

/-- Channel 0 is lit at its target 250, its group's claim Held for 6 counts. -/
def lit (s : State) : State :=
  (holding s 5 6 6).setLight 0 ⟨250, 250, 0, 0, false, none, 62⟩

/-- Channel 0 fades from 0 to 250 and has come to 6, its group's claim Held for 6 counts. -/
def fading (s : State) : State :=
  (holding s 5 6 6).setLight 0 ⟨6, 250, 0, 20, true, some 0, 0⟩

/-- A peer's record stands in a way of the Peer View, Fresh; in the last one, unless the way matters. -/
def knowsAt (s : State) (w : Fin 4) (station : Nat) (r : Record) : State :=
  let k : Key := ⟨station, r.kind, r.subject⟩
  let v := s.view.sets.get (setOf k)
  let e := Entry.filled station r.subject r.payload .fresh
  s.setView { s.view with sets := s.view.sets.set (setOf k) { v with ways := v.ways.set w e } }
def knows (s : State) (station : Nat) (r : Record) : State := knowsAt s 3 station r

/-- Frost service is active, by a peer's tank that demands it. -/
def frosty (s : State) : State :=
  (knows s 2 ⟨0, .tank ⟨500, 50, true, true, 0, false⟩⟩).setClimate { s.climate with frost := true }

/-- The heater stands in a state, its claim Held at rank 4 where that state holds it: the start draw while Starting. -/
def heating (s : State) (h : Heater) : State :=
  (if h = .off ∨ h = .lockout then s else holding s loadHeater 4 (if h = .starting then 1000 else 150)).setClimate { s.climate with
    heater := h, hen := h == .starting || h == .running, startTimer := if h = .starting then some 0 else none
    runTimer := if h = .running then some 0 else none, purgeTimer := if h = .purging then some 0 else none
    lockout := h == .lockout } |>.setCell { s.cell with lockout := h == .lockout }

/-- A published fresh level, and the frost guard declared with its cycle. -/
def filled (s : State) (level : Nat) : State :=
  s.setWater { s.water with tanks := s.water.tanks.set 0 { s.water.tanks.get 0 with level := some level } }
def guarded (s : State) (c : Cycle) : State :=
  s.setWater { s.water with guard := true, cycle := c, dueTimer := some 0 }

/-- A frame of one STATUS subject 0 in a buffer and on the line. -/
def sends (s : State) (urgent probe : Bool) : State :=
  let f : TxFrame := { cls := 2, records := [{ record := status0Record s, tag := 0 }], probe := probe }
  s.setBus { s.bus with
    urgentBuf := if urgent then some f else none, normalBuf := if urgent then none else some f
    sending := some { urgent := urgent, bits := [] } }

/-- Line Fault is declared and probes are sent. -/
def faulted (s : State) (n : Nat) : State :=
  s.setBus { s.bus with lineFault := true, failed := 8, probeTimer := some 0, probeCount := n }

/-- Every entry stands one millisecond before its Stale threshold, at the freshness given. -/
def old (s : State) (f : Freshness) : State :=
  s.mapEntries fun e => if e.valid then { e with fresh := f, age := staleAt e.kind - 1 : Entry }.seal else e

/-- A SUPPLY record of a peer, for the View's and the Broker's witnesses. -/
def figures : Record := ⟨0, .supply ⟨500, 5000, false, false, false, 20, 0⟩⟩

/-! ### One step of a small state -/

/-- R186: a Connect reset's counter for 100 Ah is half of Qfull. -/
theorem test_reset_counter : State.reset.supply.q = 180000000 := by decide
/-- R183: a Restart with a spoilt cell takes the Connect reset's values at the end of the reset. -/
theorem test_restart_spoilt :
    (after (.resetReleased ⟨2, ⟨true, true, true, true, true⟩⟩)
      (after (.restart false) (run.setCell { run.cell with q := 5 }))).supply.q = 180000000 := by decide +kernel
/-- The worked sequence of a Restart: SETUP item 21, value 90, is held as 60 and sets Clamped. -/
theorem test_setup_item : let t := after .setup (heard (stand .setup) ⟨0, .setup ⟨21, 90⟩⟩)
    t.seq.pendingItems.get 21 = some 60 ∧ t.seq.clamped = true := by decide +kernel
/-- R185: a SETUP outside Setup counts Late. -/
theorem test_late_setup : (after .setup (heard run ⟨0, .setup ⟨3, 100⟩⟩)).seq.lateSetup = 1 := by decide +kernel
/-- R184: Listen lasts 2 s and is followed by Setup with its 5 s. -/
theorem test_listen_ends : (after .listenTimerExpiry State.reset).seq.phase = .setup
    ∧ (after .listenTimerExpiry State.reset).seq.phaseTimer = some 5000 := by decide +kernel
/-- R8: 100 counts at 95 % add 95 mC; R29: half of Qfull before. -/
theorem test_interval_charges :
    (after (.accountingInterval 100 12600 200) ((stand .calibrate).setSupply
      { run.supply with intervalTimer := some 0 })).supply.q = 180000095 := by decide +kernel
/-- R8: discharge is counted in full. -/
theorem test_interval_discharges :
    (after (.accountingInterval (-700) 12600 200) ((stand .calibrate).setSupply
      { run.supply with intervalTimer := some 0 })).supply.q = 179999300 := by decide +kernel
/-- R58, R174: a reader ignores a SUPPLY of a subject that has no meaning, the test for Role Clash (R18) too. -/
theorem test_role_clash_subject :
    let clash := fun n : Nat => (after (.accountingInterval 100 12600 200) ((knows run 2 { figures with subject := n }).setSupply
      { run.supply with intervalTimer := some 0 })).supply.roleClash
    clash 0 = true ∧ clash 1 = false := by decide +kernel
/-- R48: a SHED of a station with no SUPPLY entry is ignored. -/
theorem test_shed_without_supply :
    (after .shedReceived (heard run ⟨0, .shed ⟨3, 0⟩⟩)).broker.remembered.get 1 = 0 := by decide +kernel
/-- R63, R64: a first record fills a way of its key's set, past the two pinned ways for a non-critical kind. -/
theorem test_arrival_fills :
    let e := ((after .peerArrival (heard run ⟨0, .tank ⟨500, 50, false, false, 0, false⟩⟩)).view.sets.get
      (setOf ⟨2, .tank, 0⟩)).ways.get 2
    e.valid = true ∧ e.station = 2 ∧ e.age = 0 ∧ e.fresh = .fresh := by decide +kernel
/-- R59: a record that arrives before the Stale expiry of its key is taken leaves the entry Fresh at age 0. -/
theorem test_stale_after_arrival :
    let s := after .peerArrival (heard (old (knows run 2 figures) .aging) figures)
    (after (.entryStale ⟨2, .supply, 0⟩) s).entries.map (fun e => (e.fresh, e.age)) = [(.fresh, 0)] := by decide +kernel
/-- R70: a loss restarts the clear timer, and the expiry it outran leaves View Overflow declared. -/
theorem test_overflow_restarted :
    let s := run.setView { run.view with overflow := true, overflowTimer := some 10000 }
    (after .viewOverflowTimerExpiry s).view.overflow = true := by decide +kernel
/-- R74: the own station number is Foreign. -/
theorem test_own_number_foreign :
    (after .unknownKind (heard (run.setSeq { run.seq with station := 2 })
      ⟨0, .unknown 0 (List.replicate 40 false)⟩)).view.foreign = 1 := by decide +kernel
/-- R76: ENG asserted waits 1 s before local drive. -/
theorem test_eng_waits : (after (.engChange true) run).view.driveSetWait = some 1000
    ∧ (after (.engChange true) run).view.localDrive = false := by decide +kernel
/-- R39: a contest with no usable SUPPLY fails its pre-test; the standing ask waits. -/
theorem test_contest_without_supply :
    ((after (.contestWindowEnd 1) (contesting (run.setSeq
      { run.seq with fns := ⟨false, true, true, true, true⟩ }) 1 2 400 false)).claim 1).st = .waiting := by decide +kernel
/-- R167: the eighth failed frame declares Line Fault and starts the probe timer and a hold. -/
theorem test_line_fault :
    let t := after .frameNoack ((sends run false false).setBus { (sends run false false).bus with failed := 7 })
    t.bus.lineFault = true ∧ t.bus.probeTimer = some 1000 ∧ t.view.holdTimer = some 10000 := by decide +kernel
/-- R164: a Good frame of another station joins the queue and is acknowledged. -/
theorem test_frame_close :
    let t := after (.frameClose (frameBits 1 2 [⟨0, .request ⟨13, 0, 0⟩⟩])) run
    t.bus.rx = [.good 2 1 [⟨0, .request ⟨13, 0, 0⟩⟩]] ∧ t.bus.acked = true := by decide +kernel
/-- R90: the frost guard is declared at the third reading below 3.0 °C. -/
theorem test_guard_declared :
    (after (.waterReadingEvent 0 0 0 29 0 0) (run.setWater { run.water with guardCount := 2, readTimer := some 0 })).water.guard
      = true := by decide +kernel
/-- R97: the fifth counted reading at 0.5 °C opens the dump valve. -/
theorem test_dump_opens :
    let s := guarded (filled run 500) .timing
    (after (.waterReadingEvent 2048 0 0 5 0 0) (s.setWater { s.water with dumpCount := 4, readTimer := some 0 })).water.dumpDrive
      = .toOpen := by decide +kernel
/-- R112: HFLT during a start is a failure; the second declares Lockout (R115). -/
theorem test_second_failure :
    let s := heating run .starting
    let t := after (.hfltChange true) (s.setClimate { s.climate with failures := 1 })
    t.climate.heater = .purging ∧ t.climate.lockout = true ∧ t.climate.purgeTimer = some 180000 := by decide +kernel
/-- R78: the ageing of a STATUS subject 1 has drive accepted worked out, and finds the subject 0 that counted bad (R69). -/
theorem test_status_ages_drive :
    let one : Record := ⟨1, .status1 ⟨0, 0, 0, 0, 0⟩⟩
    let s := knows (knows run 2 (status0Record run)) 2 one
    let s := s.mapEntries fun e =>
      if e.valid && e.subject == 0 then { e with drive := true } else { e with age := agingAt e.kind - 1 : Entry }.seal
    let t := after (.entryAging ⟨2, .status, 1⟩) (s.setView { s.view with driveAccepted := true })
    t.view.driveAccepted = false ∧ t.view.tableError = 1 := by decide +kernel
/-- An entry stands with its debounced drive set behind its check. -/
def spoilt (s : State) : State :=
  s.mapEntries fun e => if e.valid && e.subject == 0 then { e with drive := true } else e
/-- R119: a STATUS subject 1 has the pad worked out, and finds a subject 0 entry of another set bad (R69). -/
theorem test_status_moves_pad :
    let s := run.setSeq { run.seq with values := run.seq.values.set 28 1 }
    let t := after .peerArrival (heard (spoilt (knows s 3 (status0Record run))) ⟨1, .status1 ⟨0, 0, 0, 0, 0⟩⟩)
    t.view.tableError = 1 := by decide +kernel
/-- R159: a MOTION subject 1 has the courtesy call worked out, and a step entry that fails its check begins the return. -/
theorem test_motion_moves_courtesy :
    let s := (run.setSeq { run.seq with values := run.seq.values.set 47 0 }).setLights { run.lights with
      courtesy := true, call := true, source := 3 }
    let t := after .peerArrival (heard (spoilt (knows s 3 (motionRecord run 0))) (motionRecord run 1))
    t.view.tableError = 1 ∧ t.lights.call = false ∧ t.lights.countdown = some 60000 := by decide +kernel
/-- R153: 1000 per mille asked with 60 counts on offer comes down to the scale 750. -/
theorem test_light_scaled :
    let t := after .setLevel (asked (offering run 60) 7 0 1000)
    (t.group 0).pending.map (·.scale) = some 750 ∧ (t.claim 5).asked = 56 := by decide +kernel
/-- R106: a setpoint is clamped to 5.0 to 30.0 °C. -/
theorem test_setpoint_clamped :
    ((after .setSetpoint (asked run 1 0 350)).climate.zones.get 0).setpoint = 300 := by decide +kernel
/-- R127: an Extend with HOLD asserted is refused with Hold. -/
theorem test_extend_hold : (after .extend (asked (held run) 4 0 0)).status.outcome = 5 := by decide +kernel
/-- R127, the worked sequence: an Extend asks at rank 3 for 800 counts and shows Waiting. -/
theorem test_extend_asks :
    let t := after .extend (asked (offering run 5000) 4 0 0)
    (t.claim 3).st = .contest ∧ (t.claim 3).rank = 3 ∧ (t.claim 3).asked = 800 ∧ t.status.outcome = 2 := by decide +kernel
/-- R132, the worked sequence: at the dwell's end with HOLD asserted a Protective move waits with no claim, at Midway. -/
theorem test_dwell_under_hold :
    let t := after (.dwellTimerExpiry 0) (driven (held (braking run 0 .protective)))
    (t.chan 0).st = .midway ∧ (t.chan 0).pending = .protective ∧ (t.claim 3).st = .idle := by decide +kernel
/-- R143, the worked sequence: HOLD released, the Protective move starts at rank 0. -/
theorem test_hold_released :
    let t := after .holdReleased (driven (held (pends (resting run 0 .midway) 0 .protective)))
    (t.chan 0).st = .retracting ∧ (t.claim 3).st = .held ∧ (t.claim 3).rank = 0 := by decide +kernel
/-- R139: drive accepted brakes an Extending channel. -/
theorem test_drive_brakes :
    let s := moving run 0 .extending
    ((after .localDriveSet (s.setView { s.view with driveSetWait := some 0 })).chan 0).st = .braking := by decide +kernel
/-- R139: drive accepted under HOLD ends a pending Extend and releases its claim; the Protective move waits with none. -/
theorem test_drive_under_hold :
    let s := held (contesting (pends (resting run 0 .midway) 0 .extend) 3 3 800 false)
    let t := after .localDriveSet (s.setView { s.view with driveSetWait := some 0 })
    (t.chan 0).pending = .protective ∧ (t.claim 3).st = .idle := by decide +kernel
/-- R134: an Extending channel that stalls brakes for a Backoff. -/
theorem test_stall_backs_off :
    ((after (.stallTimerExpiry 1) (moving run 1 .extending)).chan 1).followOn = .backoff := by decide +kernel
/-- R137: the offset becomes the mean sensed current of the 50 ms: 4000 read in 40 ms, and 200 in each of the last 10. -/
theorem test_calibration_mean :
    ((after (.calibrationEnd 0 200) (run.modChan 0 fun c =>
      { c with calTimer := some 10, calSum := 4000 })).chan 0).offset = 120 := by decide +kernel
/-- R152: one channel of rated draw 100 at level 1000 is a Try for 100 counts at rank 6. -/
theorem test_set_level :
    let t := after .setLevel (asked (offering run 5000) 7 3 1000)
    (t.claim 5).st = .contest ∧ (t.claim 5).rank = 6 ∧ (t.claim 5).asked = 100 ∧ t.status.outcome = 2 := by decide +kernel
/-- R153: with no current on offer the request is Refused, and shown Accepted. -/
theorem test_set_level_refused :
    let t := after .setLevel (asked run 7 3 1000)
    (t.group 0).result = .refused ∧ (t.light 3).target = 0 ∧ t.status.outcome = 1 := by decide +kernel
/-- R157: AllOff gives every channel target 0 at once, whatever the group asks for and holds. -/
theorem test_all_off :
    let t := after .allOff (asked (lit run) 10 0 0)
    (t.light 0).target = 0 ∧ (t.light 0).level = 250 ∧ t.status.outcome = 1 := by decide +kernel
/-- R187: EnterStorage with drive accepted is answered Drive. -/
theorem test_enter_storage_drive : (after .enterStorage (asked (driven run) 14 0 0)).status.outcome = 4 := by decide +kernel
/-- R180: a REQUEST with code 0 is ignored. -/
theorem test_code_zero : (after .requestCodeZero (asked run 0 0 0)).status.lastRequest = 0 := by decide +kernel

/-! ### Witnesses -/

/-- The station lacks every function. -/
def bare (s : State) : State := s.setSeq { s.seq with fns := ⟨false, false, false, false, false⟩ }

/-- Storage, with the ceiling it sets. -/
def stored (s : State) : State :=
  (s.setSeq { s.seq with storage := true }).setLights { s.lights with ceiling := 0 }

theorem fits_all {l : List State} (h : l.all fitsB = true) : ∀ s ∈ l, s.Fits := fun s hs =>
  fits_of (List.all_eq_true.1 h s hs)

theorem brings_all {l : List State} {r : Record}
    (h : l.all (fun s => fitsB (heard s r) && !s.inReset && !s.rosterRejects 2) = true) :
    ∀ s ∈ l, (heard s r).Fits ∧ (heard s r).brings 2 r := by
  intro s hs
  have := List.all_eq_true.1 h s hs
  simp only [Bool.and_eq_true, Bool.not_eq_eq_eq_not, Bool.not_true] at this
  exact ⟨fits_of this.1.1, this.1.2, rfl, this.2⟩

theorem asks_all {l : List State} {code index : Nat} {value : Int}
    (h : l.all (fun s => fitsB (asked s code index value) && !s.inReset && !s.rosterRejects 2) = true) :
    ∀ s ∈ l, (asked s code index value).Fits ∧ (asked s code index value).asks code index value := fun s hs =>
  let b := brings_all (r := ⟨0, .request ⟨code, index, value⟩⟩) h s hs
  ⟨b.1, 2, 0, b.2, .inl rfl⟩

theorem witness_StepRunsFrontCommand : ∃ c rest, (run.withPending [.statusPeriod]).pending = c :: rest := ⟨_, _, rfl⟩
theorem witness_IdleStepIsAMillisecond : State.reset.pending = [] := rfl
theorem witness_SoundStep : run.Sound ∧ ∃ t, step (run.withPending [.listenTimerExpiry]) = .next t :=
  ⟨sound_of (by decide +kernel), _, rfl⟩
/-- For every `StepKeeps…` statement and for NoLoadDrawsWithoutItsClaim: a lit part whose fade goes on. -/
theorem witness_StepKeeps : ((fading run).withPending [.fadeStep 0]).Fits
    ∧ ∃ t, step ((fading run).withPending [.fadeStep 0]) = .next t := ⟨fits_of (by decide +kernel), _, rfl⟩

theorem witness_ResetReleasedBeginsListen : ((stand .reset).view.changes = [] ∧ (stand .reset).inReset = true)
    ∧ run.view.changes = [] ∧ run.inReset = false := by decide +kernel
theorem witness_ListenEndsInSetup : State.reset.quiet ∧ State.reset.seq.phase = .listen
    ∧ State.reset.seq.phaseTimer.isSome = true ∧ State.reset.bus.periodic.length ≤ 5 :=
  ⟨(sound_of (by decide +kernel)).quiet, by decide +kernel⟩
/-- For another station; outside Setup; the last item; an index of no item. -/
theorem witness_SetupRecordTaken :
    (heard (stand .setup) ⟨5, .setup ⟨63, 0⟩⟩).brings 2 ⟨5, .setup ⟨63, 0⟩⟩
      ∧ (heard run ⟨0, .setup ⟨63, 0⟩⟩).brings 2 ⟨0, .setup ⟨63, 0⟩⟩
      ∧ (heard (stand .setup) ⟨1, .setup ⟨48, 250⟩⟩).brings 2 ⟨1, .setup ⟨48, 250⟩⟩
      ∧ (heard (stand .setup) ⟨0, .setup ⟨49, 0⟩⟩).brings 2 ⟨0, .setup ⟨49, 0⟩⟩ ∧ run.view.changes = [] :=
  ⟨⟨by decide +kernel, rfl, by decide +kernel⟩, ⟨by decide +kernel, rfl, by decide +kernel⟩,
    ⟨by decide +kernel, rfl, by decide +kernel⟩, ⟨by decide +kernel, rfl, by decide +kernel⟩, rfl⟩
/-- The bounds of each kind of item at its last number, and above, below and within a plain item's range. -/
theorem witness_SetupValuesAreClamped :
    clampItem 17 (20001 * 65536 + 1001) = 20000 * 65536 + 1000 ∧ clampItem 24 (4096 * 65536) = 4095 * 65536
      ∧ clampItem 20 256 = 0 ∧ clampItem 0 601 = 600 ∧ clampItem 0 19 = 20 ∧ clampItem 48 109 = 100 := by decide
theorem witness_SetupEndsInCalibrate : (stand .setup).Sound ∧ (stand .setup).seq.phaseTimer.isSome = true
    ∧ (heard (stand .setup) ⟨0, .setup ⟨63, 0⟩⟩).Sound
    ∧ (heard (stand .setup) ⟨0, .setup ⟨63, 0⟩⟩).brings 2 ⟨0, .setup ⟨63, 0⟩⟩ :=
  ⟨sound_of (by decide +kernel), by decide +kernel, sound_of (by decide +kernel), by decide +kernel, rfl, by decide +kernel⟩
/-- By the timer and by a SETUP End, with a view that gives up a station to the roster and a way to the pinning, and one that
gives up nothing. -/
theorem witness_CalibrateStartsTheReadings :
    let view := knowsAt (knows (stand .setup) 2 figures) 2 2 ⟨0, .tank ⟨500, 50, false, false, 0, false⟩⟩
    let shut := view.setSeq { view.seq with
      pendingItems := ((view.seq.pendingItems.set 18 (some 3)).set 19 (some 1)).set 20 (some 253) }
    (∀ s ∈ [stand .setup, shut], s.Fits ∧ s.seq.phase = .setup ∧ s.seq.phaseTimer.isSome = true
        ∧ s.bus.periodic.length ≤ 7 ∧ s.outputsOff)
      ∧ (∀ s ∈ [stand .setup, shut], (heard s ⟨0, .setup ⟨63, 0⟩⟩).Fits
        ∧ (heard s ⟨0, .setup ⟨63, 0⟩⟩).brings 2 ⟨0, .setup ⟨63, 0⟩⟩)
      ∧ (after .setupTimerExpiry shut).seq.values.get 18 = 3 ∧ shut.entries.length = 2
      ∧ (after .setupTimerExpiry shut).entries = [] := by
  refine ⟨?_, ?_, by decide +kernel⟩ <;> intro s hs <;> simp only [List.mem_cons, List.not_mem_nil, or_false] at hs <;>
    rcases hs with rfl | rfl
  · exact ⟨fits_of (by decide +kernel), by unfold State.outputsOff; decide +kernel⟩
  · exact ⟨fits_of (by decide +kernel), by unfold State.outputsOff; decide +kernel⟩
  · exact ⟨fits_of (by decide +kernel), by decide +kernel, rfl, by decide +kernel⟩
  · exact ⟨fits_of (by decide +kernel), by decide +kernel, rfl, by decide +kernel⟩
/-- A first frost cycle with the fresh level Unknown, with a pre-test that passes, and with one that fails; the tap open; a
comfort call; frost demand of a peer; a need for protection of a channel free to move, one that is held and one that
calibrates; the wind; figures and a shed level; a quiet part with an empty Gatherer. -/
theorem witness_CalibrateEndsInRun :
    let c := stand .calibrate
    let first := fun s : State => let s := guarded s .timing; s.setWater { s.water with dueOnRun := true }
    let hold := c.modChan 0 fun x => { x with calTimer := some 0 }
    (∀ s ∈ [first c, first (filled (offering c 5000) 30), first (filled c 30),
        (filled (offering c 5000) 30).setPins { c.pins with pdem := true },
        c.setClimate { c.climate with call := true }, knows c 2 ⟨0, .tank ⟨500, 50, true, true, 0, false⟩⟩,
        driven (resting c 0 .midway), held (driven (resting c 0 .midway)), driven hold, windy (resting c 1 .midway),
        (offering c 5000).setSupply { (offering c 5000).supply with level := 1 }, c], s.Fits)
      ∧ c.seq.phase = .calibrate ∧ c.seq.phaseTimer.isSome = true
      ∧ (filled (offering c 5000) 30).passes loadPump 1 (c.seq.values.get 25) = true
      ∧ (filled c 30).passes loadPump 1 (c.seq.values.get 25) = false
      ∧ c.bus.periodic = [] ∧ c.bus.urgent = [] ∧ c.bus.urgentBuf = none ∧ c.bus.normalBuf = none
      ∧ ∀ id, ((after .calibrateTimerExpiry c).claim id).st = .idle := ⟨fits_all (by decide +kernel), by decide +kernel⟩
/-- In Run with no monitor declared, with two, and before Run; at the end of Calibrate with two of the attention class,
with none, and with one of a channel. -/
theorem witness_MonitorChange : (run.seq.phase = .run ∧ run.bus.periodic.length ≤ 7
    ∧ (∀ n, run.status.summary.get n = false) ∧ State.reset.seq.phase ≠ .run
    ∧ let two := (run.status.summary.set 2 true).set 18 true
      two.get 18 = true ∧ (∀ m, two.get m = true → m ≤ 18) ∧ two.get 2 = true)
    ∧ let c := stand .calibrate
      let faults := (c.setSupply { c.supply with lowVoltage := true }).setStatus { c.status with
        summary := (c.status.summary.set 1 true).set 17 true, changeCount := 2 }
      let stalled := (c.modChan 1 fun x => { x with stalled := true }).setStatus { c.status with
        summary := c.status.summary.set 15 true, changeCount := 1 }
      (∀ s ∈ [c, faults, stalled], s.Fits) ∧ faults.bus.periodic.length ≤ 2 ∧ faults.view.driveAccepted = false
        ∧ faults.motion.windLockout = none ∧ (∀ id, ((after .calibrateTimerExpiry faults).claim id).st = .idle)
        ∧ (after .calibrateTimerExpiry faults).status.attention = true
        ∧ (after .calibrateTimerExpiry stalled).status.attention = false :=
  ⟨by decide +kernel, fits_all (by decide +kernel), by decide +kernel⟩
theorem witness_AckAttention : ∀ s ∈ [run, stand .setup, State.reset],
    (asked s 13 0 0).Fits ∧ (asked s 13 0 0).asks 13 0 0 := asks_all (by decide +kernel)
/-- The heater with frost service active, its claim at rank 1; the comfort call set; the mode Off chosen. -/
def served (s : State) : State := if (s.claim 0).st = .idle then s else s.setClaim 0 { s.claim 0 with rank := 1 }
def calling (s : State) : State := s.setClimate { s.climate with call := true, callCount := 59 }
def chosenOff (s : State) : State :=
  (s.setClimate { s.climate with chosen := .off }).setCell { s.cell with chosen := .off }
/-- Before Run, in Storage, with drive accepted, and in Run; the heater at work with a call and with frost service, asked for,
and yielded to rank 0. -/
theorem witness_StorageRequests :
    (∀ s ∈ [stand .calibrate, stored run, driven run, run, calling (heating run .starting), calling (heating run .running),
        heating (frosty run) .running, served (heating (frosty run) .starting), contesting (calling run) 0 4 1000 false,
        (heating (frosty run) .running).setClaim 0 { (heating run .running).claim 0 with rank := 0 }],
        (asked s 14 0 0).Fits ∧ (asked s 14 0 0).asks 14 0 0)
      ∧ ∀ s ∈ [stand .calibrate, run, stored run, stored (served (heating (frosty run) .running)),
          chosenOff (stored (served (heating (frosty run) .starting))), calling (stored (heating run .running)),
          stored (heating run .running)],
        (asked s 15 0 0).Fits ∧ (asked s 15 0 0).asks 15 0 0 :=
  ⟨asks_all (by decide +kernel), asks_all (by decide +kernel)⟩
/-- Every period runs, on a part that draws and is in violation. -/
def periodic : State :=
  (driven (holding (offering run 5000) 3 0 800)).setPeriods
    ⟨some 0, some 0, some 0, some 0, Tab.fill 7 (some 0), Tab.fill 3 (some 0), Tab.fill 2 (some 0), Tab.fill 2 (some 0),
      Tab.fill 2 (some 0), Tab.fill 8 (some 0)⟩
theorem witness_PeriodsHandOver : periodic.quiet ∧ periodic.seq.phase = .run ∧ periodic.supply.latest.isSome = true
    ∧ (periodic.periods.draw.get 3).isSome = true ∧ (periodic.claim 3).drawing = true
    ∧ (periodic.periods.interlock.get 1).isSome = true := ⟨(sound_of (by decide +kernel)).quiet, by decide +kernel⟩

/-- The last class and station, four records with every field at its largest. -/
theorem witness_FrameRoundTrip : (3 : Nat) ≤ 3 ∧ (1 : Nat) ≤ 8 ∧ (8 : Nat) ≤ 8
    ∧ ∀ r ∈ List.replicate 4 (Record.mk 15 (.request ⟨15, 255, -32768⟩)), r.fitsBits := by
  refine ⟨by decide, by decide, by decide, ?_⟩
  intro r hr
  rw [List.eq_of_mem_replicate hr]
  exact ⟨by decide, by unfold Payload.fitsBits; decide⟩
/-- Six equal bits leave a frame open, from its start and later; a frame whose check word is another. -/
theorem witness_StuffingAndSevenEqualBits : 0 + 7 ≤ (stuff (List.replicate 6 false)).length
    ∧ receive (List.replicate 6 false) = none ∧ receive ([false] ++ List.replicate 6 true) = none
    ∧ (Record.mk 15 (.request ⟨15, 255, -32768⟩)).fitsBits
    ∧ 0 ≠ (checkWord (headBits 3 8 [⟨15, .request ⟨15, 255, -32768⟩⟩])).toNat :=
  ⟨by decide, by decide, by decide, ⟨by decide, by unfold Payload.fitsBits; decide⟩, by decide +kernel⟩
/-- A Good frame, one of seven dominant bits, and a silence timer that runs. -/
theorem witness_FrameClose : run.view.changes = [] ∧ run.inReset = false ∧ run.bus.sending = none
    ∧ receive (frameBits 1 2 [⟨0, .request ⟨13, 0, 0⟩⟩]) = some (.good 1 2 [⟨0, .request ⟨13, 0, 0⟩⟩])
    ∧ receive (List.replicate 7 false) = some (.error .stuffError) ∧ run.bus.silenceTimer.isSome = true := by
  decide +kernel
theorem witness_DispatcherPassesOver : (run.setBus { run.bus with rx := [.note .truncated] }).bus.rx = [.note .truncated]
    ∧ (heard run ⟨0, .unknown 3 (List.replicate 40 true)⟩).brings 2 ⟨0, .unknown 3 (List.replicate 40 true)⟩
    ∧ (heard run ⟨0, .notice ⟨List.replicate 19 false, 0, false, 0⟩⟩).brings 2
        ⟨0, .notice ⟨List.replicate 19 false, 0, false, 0⟩⟩
    ∧ (heard run ⟨5, .request ⟨4, 0, 0⟩⟩).brings 2 ⟨5, .request ⟨4, 0, 0⟩⟩ ∧ (asked run 0 0 0).asks 0 0 0 :=
  ⟨rfl, ⟨by decide +kernel, rfl, by decide +kernel⟩, ⟨by decide +kernel, rfl, by decide +kernel⟩,
    ⟨by decide +kernel, rfl, by decide +kernel⟩, asks_asked run 0 0 0 (by decide +kernel) (by decide +kernel)⟩
/-- The own number, and a Closed roster that leaves station 2 out, with a record of each sort. -/
theorem witness_RosterKeepsOut :
    let own := fun s : State => s.setSeq { s.seq with station := 2 }
    let shut := run.setSeq { run.seq with values := (run.seq.values.set 19 1).set 20 253 }
    (∀ s ∈ [own run, own (stand .setup)], ∀ r ∈ ([⟨0, .shed ⟨1, 0⟩⟩, ⟨0, .notice ⟨List.replicate 19 false, 0, false, 0⟩⟩,
        ⟨0, .unknown 3 []⟩, ⟨0, .setup ⟨63, 0⟩⟩, ⟨5, .setup ⟨48, 0⟩⟩, ⟨0, .request ⟨0, 0, 0⟩⟩, ⟨2, .request ⟨15, 0, 0⟩⟩,
        ⟨5, .request ⟨4, 0, 0⟩⟩, figures] : List Record), (heard s r).nextRecord = some (s.seq.station, r))
      ∧ (heard shut ⟨0, .draw ⟨0, 0, 0, 0⟩⟩).nextRecord = some (2, ⟨0, .draw ⟨0, 0, 0, 0⟩⟩)
      ∧ shut.seq.values.get 19 = 1 ∧ (shut.seq.values.get 20).testBit (2 - 1) = false
      ∧ shut.view.changes = [] ∧ shut.inReset = false := by decide +kernel
/-- Listen; the urgent buffer's frame; the normal one's; neither. -/
theorem witness_FrameSendStart : (∀ s ∈ [State.reset, sends run true false, sends run false false, run], s.Fits)
    ∧ State.reset.seq.phase = .listen ∧ (sends run true false).bus.urgentBuf.isSome = true
    ∧ (sends run false false).bus.urgentBuf = none ∧ run.bus.normalBuf = none :=
  ⟨fits_all (by decide +kernel), by decide +kernel⟩
/-- A contest in its announcing stage, its record in a frame of the normal buffer and on the line. -/
def announcing (s : State) (id : Fin 7) : State :=
  let c := { s.claim id with announcing := true, window := none, serial := 1 }
  let f : TxFrame := { cls := 1, records := [⟨⟨id.val, .draw (drawOf c)⟩, 1⟩], probe := false }
  ((s.setClaim id c).setBroker { (s.setClaim id c).broker with nextSerial := 2 }).setBus { s.bus with
    normalBuf := some f, sending := some { urgent := false, bits := [] } }
/-- The frame in the normal buffer announces the contest of this claim, and no other. -/
def announcesOnly (s : State) (id : Fin 7) : Bool :=
  match s.bus.normalBuf with
  | none => false
  | some f => (f.records.all fun x => decide (x.tag < s.broker.nextSerial)) && fin7.all fun j =>
      (j == id) == ((s.claim j).contesting && (s.claim j).announcing
        && f.records.any fun x => x.tag != 0 && x.tag == (s.claim j).serial && x.record.subject == j.val)
/-- A light group's request for 100 per mille on its first channel. -/
def lightsAsk : GroupReq := ⟨⟨[100, 0, 0, 0], rfl⟩, ⟨[100, 0, 0, 0], rfl⟩, 1000, 0⟩
/-- Frames that announce a contest: of a standing ask of the pad; of a frost cycle; of the heater's Try with frost service
active; of a light group. -/
theorem witness_FrameFails_announcing :
    ∀ x ∈ [(contesting run 1 2 400 false, (1 : Fin 7)), (contesting (guarded run .asking) 2 1 500 true, 2),
        (contesting (frosty run) 0 1 1000 true, 0),
        (contesting (run.setGroup 0 ⟨some lightsAsk, .none⟩) 5 6 1 true, 5)],
      (announcing x.1 x.2).Fits ∧ announcesOnly (announcing x.1 x.2) x.2 = true
        ∧ (announcing x.1 x.2).bus.failed + 1 < 8 := by
  intro x hx
  refine ⟨fits_all (l := [announcing (contesting run 1 2 400 false) 1, announcing (contesting (guarded run .asking) 2 1 500 true) 2,
      announcing (contesting (frosty run) 0 1 1000 true) 0,
      announcing (contesting (run.setGroup 0 ⟨some lightsAsk, .none⟩) 5 6 1 true) 5]) (by decide +kernel) _ ?_, ?_⟩
  all_goals
    simp only [List.mem_cons, List.not_mem_nil, or_false] at hx
    rcases hx with rfl | rfl | rfl | rfl
  all_goals decide +kernel
/-- A frame of each buffer fails, the seventh in a row, and one while Line Fault is declared. -/
theorem witness_FrameFails : ∀ s ∈ [(sends run true false).setBus { (sends run true false).bus with failed := 6 },
      faulted (sends run false true) 1], s.Fits
    ∧ (∃ u bits, s.bus.sending = some { urgent := u, bits := bits }
        ∧ ((if u = true then s.bus.urgentBuf else s.bus.normalBuf).isSome = true))
    ∧ (s.bus.failed + 1 < 8 ∨ s.bus.lineFault = true) := by
  intro s hs
  refine ⟨fits_all (l := [(sends run true false).setBus { (sends run true false).bus with failed := 6 },
      faulted (sends run false true) 1]) (by decide +kernel) s hs, ?_⟩
  simp only [List.mem_cons, List.not_mem_nil, or_false] at hs
  rcases hs with rfl | rfl
  · exact ⟨⟨true, [], rfl, rfl⟩, by decide +kernel⟩
  · exact ⟨⟨false, [], rfl, rfl⟩, by decide +kernel⟩
theorem witness_EighthFailureDeclaresLineFault :
    let s := (sends run false false).setBus { (sends run false false).bus with failed := 7 }
    s.Fits ∧ s.bus.sending = some { urgent := false, bits := [] } ∧ s.bus.normalBuf.isSome = true ∧ s.bus.failed = 7
      ∧ s.bus.lineFault = false := ⟨fits_of (by decide +kernel), by decide +kernel⟩
/-- The eighth frame announces the contest of a motor's standing ask. -/
theorem witness_EighthFailure_announcing :
    let x := announcing (contesting (pends run 0 .extend) 3 3 800 false) 3
    let s := x.setBus { x.bus with failed := 7 }
    s.Fits ∧ announcesOnly s 3 = true ∧ s.view.driveAccepted = s.driveNow ∧ (s.claim 3).single = false
      ∧ s.bus.lineFault = false := ⟨fits_of (by decide +kernel), by decide +kernel⟩
/-- Eight class-3 records fill the lane. -/
def full : State :=
  run.setBus { run.bus with periodic := (List.range 8).map fun n =>
    ⟨⟨⟨n, .tank ⟨0, 0, false, false, 0, false⟩⟩, 0⟩, 0, false⟩ }
/-- Seven class-1 records and a class-2 one fill the periodic lane, and two INTERLOCKs the urgent one. -/
def fullAhead : State :=
  run.setBus { run.bus with
    periodic := ((List.range 7).map fun n => ⟨⟨⟨n, .draw ⟨1, 1, 6, 2⟩⟩, 0⟩, 0, false⟩) ++ [⟨⟨status0Record run, 0⟩, 5, false⟩]
    urgent := [0, 1].map fun n => ⟨⟨⟨n, .interlock ⟨0, 0, false⟩⟩, 0⟩, n, false⟩ }
/-- The lanes of R172's worked sequence: what waits when records join, with an earlier class late, and a fourth of a class. -/
def lanes (late : Bool) : State :=
  let w := fun (r : Record) => (⟨⟨r, 0⟩, 0, late⟩ : Waiting)
  (run.setBus { run.bus with periodic := [w (status0Record run), w (lightRecord run 3), w (lightRecord run 4), w (lightRecord run 5)] })
/-- R171, R172, the worked sequence of section 8.7, its t = 0 at 50 ms: what the ten records leave in the normal buffer, in the
lane and counted Dropped; then the frames built as the buffer empties at 5, 7 and 12 ms. -/
theorem test_ceiling_change_at_the_door :
    let w := fun (r : Record) (at_ : Nat) => (⟨⟨r, 0⟩, at_, false⟩ : Waiting)
    let light := fun n => (⟨n, .light ⟨0, 0, false, 250, false, 0, 0⟩⟩ : Record)
    let draw := fun n => (⟨n, .draw ⟨1, 1, 0, 2⟩⟩ : Record)
    let key := fun r : Record => (r.kind, r.subject)
    let s := ([draw 5, draw 6] ++ (List.range 8).map light).foldl (fun s r => s.hand r 0)
      { run with now := 50, bus := { run.bus with periodic := [w (status0Record run) 10, w (motionRecord run 0) 30] } }
    let next := fun (now : Nat) (b : Bus) => Bus.build now { b with normalBuf := none }
    let frame := fun b : Bus => b.normalBuf.map fun f => f.records.map fun x => key x.record
    frame s.bus = some [(.draw, 5)] ∧ s.bus.dropped = 3
      ∧ (s.bus.periodic.map fun x => key x.item.record)
        = [(.status, 0), (.motion, 0), (.draw, 6), (.light, 3), (.light, 4), (.light, 5), (.light, 6), (.light, 7)]
      ∧ frame (next 55 s.bus) = some [(.draw, 6)]
      ∧ frame (next 57 (next 55 s.bus)) = some [(.light, 3), (.light, 4), (.light, 5), (.light, 6)]
      ∧ frame (next 62 (next 57 (next 55 s.bus))) = some [(.status, 0), (.motion, 0)] := by decide +kernel
/-- A frame of each buffer; one of the normal buffer with records of classes 1 and 2 waiting, and of 2 and 3; a first probe. -/
theorem witness_FrameCompleted :
    (∀ s ∈ [sends run true false, sends run false false, sends fullAhead false false, sends (lanes true) false false,
        faulted (sends run false true) 0], s.Fits)
      ∧ (sends run true false).bus.lineFault = false ∧ (faulted (sends run false true) 0).bus.probeCount = 0
      ∧ (faulted (sends run false true) 0).bus.sending = some { urgent := false, bits := [] } :=
  ⟨fits_all (by decide +kernel), by decide +kernel⟩
theorem witness_ProbesAndTheEndOfLineFault : let s := faulted (sends run false true) 1
    (faulted run 0).quiet ∧ (faulted run 0).bus.probeTimer.isSome = true ∧ s.Fits
      ∧ s.bus.sending = some { urgent := false, bits := [] } ∧ (s.bus.normalBuf.any (·.probe)) = true
      ∧ s.bus.lineFault = true ∧ s.bus.probeCount = 1 :=
  ⟨(sound_of (by decide +kernel)).quiet, by decide +kernel, fits_of (by decide +kernel), by decide +kernel⟩
/-- A supply station with and without figures; one that hears two SUPPLY stations, a raise and a peer's Contest. -/
theorem witness_PreTestAndKnownTotal :
    let peer := knows (knows (run.setSeq { run.seq with fns := ⟨false, true, true, true, true⟩ }) 3 figures) 2 figures
    let busy := knows (holding (peer.setClaim 5 ⟨6, .held, 6, 9, true, true, false, some 0, 1⟩) 4 0 800) 2
      ⟨4, .draw ⟨0, 700, 3, 1⟩⟩
    (∀ s ∈ [run, offering run 5000, peer], s.Fits) ∧ (offering run 5000).supply.latest.isSome = true
      ∧ (peer.entries.filter fun e => e.kind == .supply).length = 2 ∧ peer.usable.map (·.station) = some 2
      ∧ busy.knownTotal 3 ⟨3, 1, 3⟩ = 806 ∧ busy.knownTotal 5 ⟨6, 1, 5⟩ = 1500
      ∧ peer.passes 3 3 5000 = true ∧ peer.passes 3 3 5001 = false ∧ run.passes 3 3 1 = false :=
  ⟨fits_all (by decide +kernel), by decide +kernel⟩
/-- Records are handed over to lanes as they stand: of class 0 and 1 to a part with empty lanes, and the fourth of class 3. -/
theorem witness_GatherTimeoutBuilds_hand :
    let three := run.setBus { run.bus with periodic := (lanes false).bus.periodic.drop 1 }
    run.bus.lineFault = false ∧ run.bus.urgentBuf = none ∧ run.bus.normalBuf = none ∧ run.bus.urgent = []
      ∧ run.bus.ofClass 1 = [] ∧ run.bus.periodic.length ≤ 7 ∧ (Kind.interlock).cls = 0 ∧ (Kind.draw).cls = 1
      ∧ three.bus.ofClass 1 = [] ∧ three.bus.ofClass 2 = [] ∧ (three.bus.ofClass 3).length = 3 ∧ three.bus.periodic.length ≤ 7
      ∧ (∀ w ∈ three.bus.periodic, w.item.record.kind ≠ .light ∨ w.item.record.subject ≠ 6)
      ∧ ((lanes false).bus.nextNormal 49).isNone = true ∧ ((lanes true).bus.nextNormal 49).map (·.cls) = some 2
      ∧ ((lanes false).bus.nextNormal 50).map (·.cls) = some 2 ∧ (three.bus.nextNormal 50).map (·.cls) = some 3
      ∧ (full.bus.nextNormal 0).map (·.cls) = some 3 ∧ (fullAhead.bus.nextNormal 0).map (·.cls) = some 1 := by
  decide +kernel
/-- A gather timeout of class 3 with class 2 not ready and with it late, a record of each earlier class waiting. -/
theorem witness_GatherTimeoutBuilds_order : ∀ s ∈ [lanes false, lanes true, fullAhead], s.quiet ∧ s.bus.normalBuf = none
    ∧ s.bus.lineFault = false ∧ (s.bus.ofClass 3 ≠ [] ∨ s.bus.ofClass 2 ≠ []) := by
  intro s hs
  simp only [List.mem_cons, List.not_mem_nil, or_false] at hs
  rcases hs with rfl | rfl | rfl <;> exact ⟨(sound_of (by decide +kernel)).quiet, by decide +kernel⟩
/-- A class-3 record waits; the normal buffer is empty, or Line Fault is declared. -/
theorem witness_GatherTimeoutBuilds :
    let s := run.setBus { run.bus with periodic := [⟨⟨lightRecord run 0, 0⟩, 0, false⟩] }
    s.quiet ∧ s.bus.ofClass 3 ≠ [] ∧ s.bus.ofClass 1 = [] ∧ s.bus.ofClass 2 = [] ∧ s.bus.urgent = []
      ∧ s.bus.lineFault = false ∧ s.bus.normalBuf = none ∧ (faulted s 0).quiet ∧ (faulted s 0).bus.lineFault = true :=
  ⟨(sound_of (by decide +kernel)).quiet, by decide +kernel, by decide +kernel, by decide +kernel, by decide +kernel,
    by decide +kernel, by decide +kernel, (sound_of (by decide +kernel)).quiet, by decide +kernel⟩
/-- A record joins: its key waits; a slot is free; the lane is full, with class-3 records, with none but a class-2 one after
class-1 ones, and the urgent lane. -/
theorem witness_RecordJoins : run.bus.lanesFit ∧ full.bus.lanesFit ∧ full.bus.periodic.length = 8
    ∧ (full.bus.periodic.any fun x => x.item.record.kind == .tank && x.item.record.subject == 7) = true
    ∧ (full.bus.periodic.any fun x => x.item.record.kind == .draw) = false
    ∧ (full.bus.periodic.any fun x => decide (x.item.record.kind.cls = 3)) = true
    ∧ fullAhead.bus.lanesFit ∧ fullAhead.bus.periodic.length = 8 ∧ fullAhead.bus.urgent.length = 2
    ∧ (fullAhead.bus.periodic.any fun x => decide (x.item.record.kind.cls = 3) || x.item.record.kind == .supply) = false
    ∧ (∃ w ∈ fullAhead.bus.periodic, w.item.record.kind.cls = 2)
    ∧ ((fullAhead.bus.join 9 ⟨figures, 0⟩).periodic.map fun w => (w.item.record.kind, w.item.record.subject))
      = ((List.range 7).map fun n => (Kind.draw, n)) ++ [(.supply, 0)]
    ∧ (fullAhead.bus.urgent.any fun x => x.item.record.kind == .shed) = false
    ∧ ((fullAhead.bus.join 9 ⟨⟨0, .shed ⟨1, 0⟩⟩, 0⟩).urgent.map fun w => (w.item.record.kind, w.item.record.subject))
      = [(.interlock, 1), (.shed, 0)] :=
  ⟨(sound_of (s := run) (by decide +kernel)).lanes, (sound_of (s := full) (by decide +kernel)).lanes, by decide +kernel,
    by decide +kernel, by decide +kernel, by decide +kernel,
    (sound_of (s := fullAhead) (by decide +kernel)).lanes, by decide +kernel⟩
theorem witness_TabledLayouts : (Payload.supply ⟨1023, 32767, true, true, true, -128, 3⟩).fitsBits 0
    ∧ (Payload.draw ⟨32767, 32767, 7, 7⟩).fitsBits 0 ∧ (Payload.status1 ⟨255, 255, 255, 255, 255⟩).fitsBits 1
    ∧ (Payload.request ⟨15, 255, 32767⟩).fitsBits 0 ∧ (Payload.status0
      ⟨⟨true, true, true, true, true⟩, 3, true, true, true, true, true, true, 15, 15, true, true⟩).fitsBits 0
    ∧ (Payload.status2 ⟨255, List.replicate 19 true⟩).fitsBits 2
    ∧ (Payload.notice ⟨List.replicate 19 true, 31, true, 255⟩).fitsBits 0 :=
  ⟨by unfold Payload.fitsBits; decide, by unfold Payload.fitsBits; decide, by unfold Payload.fitsBits; decide,
    by unfold Payload.fitsBits; decide, by unfold Payload.fitsBits; decide, by unfold Payload.fitsBits; decide,
    by unfold Payload.fitsBits; decide⟩

/-- A new key; a key the set holds; a STATUS subject 0. -/
theorem witness_PeerArrivalStores : ∀ r ∈ [figures, status0Record run],
    (heard run r).Sound ∧ (heard (knows run 2 r) r).Sound ∧ (heard (knows run 2 r) r).brings 2 r ∧ r.kind.stored = true := by
  intro r hr
  simp only [List.mem_cons, List.not_mem_nil, or_false] at hr
  rcases hr with rfl | rfl <;>
    exact ⟨sound_of (by decide +kernel), sound_of (by decide +kernel), ⟨by decide +kernel, rfl, by decide +kernel⟩, by decide⟩
/-- Four peers' DRAW records fill set 2; the STATUS subject 0 of station 2 takes the way of a Fresh one, a loss, with View
Overflow clear and with it declared. -/
theorem witness_PeerArrivalStores_lost :
    let d : Nat → Record := fun n => ⟨n, .draw ⟨5, 5, 6, 2⟩⟩
    let s := knowsAt (knowsAt (knowsAt (knowsAt run 0 8 (d 0)) 1 5 (d 1)) 2 2 (d 2)) 3 6 (d 6)
    let lossy := s.setView { s.view with overflow := true, overflowTimer := some 7 }
    let r := status0Record run
    (∀ x ∈ [s, lossy], (heard x r).Sound ∧ (heard x r).brings 2 r) ∧ r.kind.stored = true
      ∧ setOf ⟨2, .status, 0⟩ = 2 ∧ (((s.view.sets.get 2).ways.get ((s.view.sets.get 2).victim true 2)).liveDraw) = true
      ∧ s.view.overflow = false ∧ (after .peerArrival (heard s r)).view.overflowTimer = some 10000
      ∧ (after .peerArrival (heard lossy r)).view.overflowTimer = some 10000 := by
  intro d s lossy r
  refine ⟨?_, by decide +kernel⟩
  intro x hx
  simp only [List.mem_cons, List.not_mem_nil, or_false] at hx
  rcases hx with rfl | rfl <;> exact ⟨sound_of (by decide +kernel), by decide +kernel, rfl, by decide +kernel⟩
/-- A set whose four ways hold Fresh entries, and its bits. -/
def fullSet (b0 b1 b2 : Bool) : ViewSet :=
  ⟨Tab.fill 4 (Entry.filled 2 0 figures.payload .fresh), b0, b1, b2⟩
def withWay (v : ViewSet) (w : Fin 4) (f : Entry → Entry) : ViewSet := { v with ways := v.ways.set w (f (v.ways.get w)) }
/-- R65 to R67, clause by clause. An invalid way the record may take, the lowest of two, ahead of a Stale one, and one it may
not take; Stale ways and none invalid; neither, and the bits name the way, for a critical record over the full tree and for
a non-critical one with each number of ways pinned. -/
theorem witness_ReplacementNamesTheWay :
    let v := fullSet false false true
    let gone := fun (w : Fin 4) (v : ViewSet) => withWay v w Entry.invalidate
    let stale := fun (w : Fin 4) (v : ViewSet) => withWay v w fun e => { e with fresh := .stale }
    ((gone 3 (gone 1 (stale 0 v))).victim true 2 = 1 ∧ (gone 3 (gone 1 (stale 0 v))).victim false 2 = 3
        ∧ (gone 1 (stale 2 v)).victim false 2 = 2)
      ∧ ((∀ x, ((stale 3 (stale 1 v)).ways.get x).valid = true) ∧ (stale 3 (stale 1 v)).victim true 3 = 1
        ∧ (stale 3 (stale 1 v)).victim false 2 = 3)
      ∧ (∀ x, (v.ways.get x).valid = true ∧ (v.ways.get x).fresh ≠ .stale)
      ∧ ([fullSet false false true, fullSet false true true, fullSet true true false, fullSet true false true].map
          fun u => (u.victim true 2, u.victim false 0, u.victim false 1, u.victim false 2, u.victim false 3))
        = [(0, 0, 1, 3, 3), (1, 1, 1, 3, 3), (2, 2, 2, 2, 3), (3, 3, 3, 3, 3)] := by decide +kernel
/-- A Fresh SUPPLY entry an age short of Stale and one whose age has been taken back; a hold and an overflow that run out, and
an overflow whose clear timer a loss has restarted. -/
theorem witness_EntryTimers :
    let s := (old (knows run 2 figures) .aging).setView { (old (knows run 2 figures) .aging).view with
      holdTimer := some 0, overflow := true, overflowTimer := some 0 }
    s.Sound ∧ (knows run 2 figures).Sound
      ∧ (s.entries.any fun e => e.key == ⟨2, .supply, 0⟩ && e.fresh == .aging && staleAt e.kind ≤ e.age + 1) = true
      ∧ ((knows run 2 figures).entries.any fun e => e.fresh == .fresh && e.age == 0) = true
      ∧ s.view.holdTimer.isSome = true ∧ s.view.overflowTimer = some 0
      ∧ (run.setView { run.view with overflow := true, overflowTimer := some 10000 }).Sound :=
  ⟨sound_of (by decide +kernel), sound_of (by decide +kernel), by decide +kernel, by decide +kernel, by decide +kernel,
    by decide +kernel, sound_of (by decide +kernel)⟩
/-- A channel in each state that a need for protection meets in R139: on its way, Braking before each follow-on, at rest away
from home (free, held, calibrating, on the stop it comes home to), at home, with each pending move. -/
def meeting (s : State) (ch : Fin 2) : List State :=
  [moving s ch .extending, moving s ch .retracting, (moving s ch .retracting).modChan ch fun c => { c with pending := .extend },
    moving s ch .backoff] ++ ([Move.none, .extend, .retract, .protective, .backoff, .settleFault].map (braking s ch)) ++
  [resting s ch .midway, held (resting s ch .extended),
    held (contesting (pends (resting s ch .midway) ch .extend) (loadMotor ch) 3 800 false),
    (resting s ch .fault).modChan ch fun c => { c with calTimer := some 0 },
    (resting s ch .fault).setPins { s.pins with er := s.pins.er.set ch true }, s,
    pends (resting s ch .retracted) ch .extend, held (pends (resting s ch .unknown) ch .protective)]
/-- In reset; in Run; each wait run down, on every row of R139, and where the need ends with a Protective pending, following on,
under way and, on the awning, standing for the wind. -/
theorem witness_DriveInputs :
    let waits := fun s : State => s.setView { s.view with driveSetWait := some 0 }
    let clears := fun s : State => s.setView { s.view with driveClearWait := some 0 }
    (∀ s ∈ [stand .reset, run, waits (stand .calibrate), waits (driven run), clears run, clears (driven run),
        clears (driven (held (pends run 0 .protective))), clears (driven (braking run 0 .protective)),
        clears (driven ((moving run 0 .retracting).modChan 0 fun c => { c with protective := true })),
        clears (driven (windy (held (pends run 1 .protective))))], s.Fits)
      ∧ (∀ s ∈ (meeting run 0).map waits, s.Fits) ∧ (∀ s ∈ (meeting run 1).map waits, s.Fits) ∧ run.pins.eng = false
      ∧ run.motionRuns = true :=
  ⟨fits_all (by decide +kernel), fits_all (by decide +kernel), fits_all (by decide +kernel), by decide, by decide +kernel⟩
/-- An ordinary interval; one that completes the full count, one the rest count; counts one short of each bound; a level that
rises and one that falls in Run, and the first interval after a change of mode; the open-circuit table's voltages where its
clauses meet. -/
theorem witness_AccountingInterval :
    let u := { run.supply with intervalTimer := some 0 }
    let v := run.seq.values
    (∀ s ∈ [run.setSupply { u with fullCount := 2999 }, (stand .calibrate).setSupply { u with restCount := 17999 },
        run.setSupply { u with lowVoltageCount := 4, overdrawCount := 9, escalation := 9 },
        run.setSupply { u with level := 1, recovery := 99 }, run.setSupply { u with onNext := true },
        run.setSupply { u with lowVoltage := true, overdraw := true, overrange := true, lowVoltageCount := 49,
                               overdrawCount := 29, overrangeCount := 9, permitCount := 49, permit := false }], s.Fits)
      ∧ run.seq.fns.supply = true ∧ v.get 28 = 0 ∧ (∀ id, (run.claim id).st = .idle) ∧ run.bus.periodic.length ≤ 3
      ∧ v.get 10 / 65536 = 12000 ∧ v.get 11 / 65536 = 12800 ∧ v.get 17 / 65536 = 13600
      ∧ (ocvCharge v 12000, ocvCharge v 12001, ocvCharge v 12799, ocvCharge v 12800, ocvCharge v 13599, ocvCharge v 13600)
        = (0, 0, 99, 100, 999, 1000) := ⟨fits_all (by decide +kernel), by decide +kernel⟩
theorem witness_StateOfCharge : defaultValues.fit ∧ qFull defaultValues ≤ qFull defaultValues ∧ (-400 : Int) ≤ 850 :=
  ⟨default_fit, Nat.le_refl _, by decide⟩
/-- The pump runs on its Held claim with its count run down. -/
def pumping : State :=
  let s := holding (filled run 30) 2 5 500
  (s.setPins { s.pins with pdem := true }).setWater { s.water with pump := true, runawayTimer := some 0 }
/-- Without and with a SUPPLY of the sender; a level at which each sort of Held claim and of contest yields. -/
theorem witness_ShedReceived :
    let shed : Record := ⟨0, .shed ⟨6, 0⟩⟩
    let peer := knows (run.setSeq { run.seq with fns := ⟨false, true, true, true, true⟩ }) 2 figures
    ∀ s ∈ [run, moving peer 0 .extending, moving peer 0 .retracting, braking peer 0 .extend, braking peer 0 .retract,
        heating peer .running, pumping, contesting peer 1 2 400 false, contesting (guarded peer .asking) 2 1 500 true,
        contesting (frosty peer) 0 1 1000 true, lit peer,
        (holding peer 1 2 400).setClimate { peer.climate with pad := true },
        contesting (peer.setGroup 0 ⟨some lightsAsk, .none⟩) 5 6 1 true],
      (heard s shed).Fits ∧ (heard s shed).brings 2 shed := brings_all (by decide +kernel)
/-- A window ends for each kind of load, won with current on offer and lost without. -/
theorem witness_ContestWindowDecides :
    let s := offering run 5000
    (∀ x ∈ [contesting run 1 2 400 false, contesting (guarded run .asking) 2 1 500 true, contesting s 1 2 400 false,
        contesting s 0 4 1000 false, contesting (frosty run) 0 4 1000 false,
        contesting s 2 5 500 false, contesting (guarded s .asking) 2 1 500 true,
        contesting (pends s 0 .extend) 3 3 800 false, contesting (pends s 1 .retract) 4 3 1200 false,
        contesting (s.setGroup 0 ⟨some lightsAsk, .none⟩) 5 6 1 true,
        contesting (run.setGroup 0 ⟨some lightsAsk, .none⟩) 5 6 1 true], x.Fits)
      ∧ (contesting s 1 2 400 false).passes 1 2 400 = true ∧ (contesting run 1 2 400 false).passes 1 2 400 = false :=
  ⟨fits_all (by decide +kernel), by decide +kernel⟩
/-- A claim Waiting at a rank. -/
def waitingAt (s : State) (id : Fin 7) (rank a : Nat) : State :=
  s.setClaim id ⟨rank, .waiting, 0, a, false, false, false, none, 0⟩
/-- A claim that draws nothing, one Held below and one Held at the amount asked, and one Forced; one Waiting for a re-rank
that passes and for one that does not, one Held for a re-rank to a stronger, to the same and to a weaker rank that yields. -/
theorem witness_BrokerOperations : run.Sound ∧ (holding run 2 5 29999).Sound ∧ (holding run 5 0 30000).Sound
    ∧ (run.claim 2).drawing = false ∧ ((holding run 2 5 29999).claim 2).held < 30000
    ∧ 30000 ≤ ((holding run 5 0 30000).claim 5).held
    ∧ (waitingAt (offering run 5000) 0 4 1000).Sound ∧ (waitingAt run 0 4 1000).Sound
    ∧ (waitingAt (offering run 5000) 0 4 1000).passes 0 1 1000 = true ∧ (waitingAt run 0 4 1000).passes 0 1 1000 = false
    ∧ (let s := (holding run 2 1 500).setBroker { (holding run 2 1 500).broker with level := 2 }
      s.Sound ∧ (s.claim 2).st = .held ∧ (s.claim 2).rank = 1 ∧ 7 ≤ 5 + s.broker.level ∧ s.bus.periodic.length ≤ 7
        ∧ (s.rerank 2 5).2 = .yield ∧ (s.rerank 2 1).1 = s ∧ (s.rerank 2 0).2 = .none) :=
  ⟨sound_of (by decide +kernel), sound_of (by decide +kernel), sound_of (by decide +kernel), by decide +kernel,
    by decide +kernel, by decide +kernel, sound_of (by decide +kernel), sound_of (by decide +kernel), by decide +kernel,
    by decide +kernel, sound_of (by decide +kernel), by decide +kernel⟩
/-- The states a reading event is taken in: before Run; one that completes the dump count; counts one short and part-way, of a
tank monitor to declare and to clear, and of the guard to clear; and the third cold reading, with the valve not closed, before
Run, with the fresh level Unknown, with the claim Held for the tap, with a Try that passes and with one that fails. -/
def readings : List State :=
  let cold := fun s : State => s.setWater { s.water with guardCount := 2 }
  let counts := fun (s : State) (declared : Bool) (n : Nat) => s.setWater { s.water with
    tanks := s.water.tanks.map fun k => { k with declared := declared, count := n } }
  [stand .calibrate, (guarded (filled run 31) .timing).setWater { (guarded (filled run 31) .timing).water with dumpCount := 4 },
    counts (filled run 99) false 2, counts (filled run 150) true 1,
    (guarded run .timing).setWater { (guarded run .timing).water with guardCount := 9 },
    cold ((filled run 31).setPins { run.pins with dumpOpen := true }), cold (stand .calibrate), cold run,
    cold (holding (filled run 31) 2 5 500), cold (filled (offering run 5000) 31), cold (filled run 31)].map fun s =>
      s.setWater { s.water with readTimer := some 0 }
theorem witness_WaterReading : (∀ s ∈ readings, s.Fits ∧ s.waterActs = true ∧ s.water.readTimer.isSome = true)
    ∧ ((readings.drop 5).map fun s => let t := after (.waterReadingEvent 300 0 0 29 0 0) s
        (s.water.guard, t.water.guard, t.water.cycle, t.water.owed))
      = [(false, true, .drained, 0), (false, true, .timing, 0), (false, true, .timing, 0), (false, true, .circulating, 0),
          (false, true, .asking, 0), (false, true, .timing, 1)] := by
  refine ⟨fun s hs => ⟨fits_all (l := readings) (by decide +kernel) s hs, ?_⟩, by decide +kernel⟩
  have h : readings.all (fun s => s.waterActs && s.water.readTimer.isSome) = true := by decide +kernel
  simpa using List.all_eq_true.1 h s hs

/-- A cycle circulates, Held or Forced, four owed. -/
def circulating (st : ClaimState) : State :=
  let s := guarded (filled run 30) .circulating
  ((s.setClaim 2 ⟨1, st, 500, 500, false, false, false, none, 0⟩).setClimate { s.climate with frost := true }).setWater
    { s.water with demand := true, circTimer := some 0, dueTimer := none, owed := 4, pump := true }
/-- The tap is open behind a declared Pump Runaway. -/
def tapOpen (s : State) : State :=
  (s.setPins { s.pins with pdem := true }).setWater { s.water with runaway := true }
theorem witness_PumpCommands : (∀ s ∈ [bare run, run, filled run 30, circulating .held, pumping], s.Fits)
    ∧ pumping.water.runawayTimer.isSome = true
    ∧ (∀ s ∈ [bare run, stand .calibrate, run, run.setWater { run.water with runaway := true }, tapOpen (filled run 30),
        tapOpen (filled (offering run 5000) 30)], (asked s 12 0 0).Fits ∧ (asked s 12 0 0).asks 12 0 0)
    ∧ ∀ s ∈ [tapOpen (filled run 30), tapOpen (filled (offering run 5000) 30)], s.demandWants = false
      ∧ s.freshOk = true ∧ s.valveClosed = true ∧ (s.claim loadPump).st = .idle
      ∧ s.passes loadPump 5 (s.seq.values.get 25) = s.usable.isSome :=
  ⟨fits_all (by decide +kernel), by decide +kernel, asks_all (by decide +kernel), by decide +kernel⟩
/-- A cycle falls due: fresh level Unknown; the claim Held for the tap; a Try that passes, and one that fails; four owed,
with no SUPPLY usable and with a low one. A circulation ends, Held and Forced. -/
theorem witness_FrostCycles :
    let four := fun s : State => s.setWater { s.water with owed := 4 }
    let low := fun s : State => s.setSupply { s.supply with latest := s.supply.latest.map fun f => { f with soc := 49 } }
    (∀ s ∈ [guarded run .timing, guarded (holding (filled run 30) 2 5 500) .timing,
        guarded (filled (offering run 5000) 30) .timing, guarded (filled run 30) .timing,
        four (guarded (filled run 30) .timing), low (four (guarded (filled (offering run 0) 30) .timing)),
        circulating .held, circulating .forced], s.Fits)
      ∧ (circulating .held).water.circTimer.isSome = true ∧ (circulating .held).inRun = true :=
  ⟨fits_all (by decide +kernel), by decide +kernel⟩
theorem witness_DumpValve :
    (∀ s ∈ [bare run, run, guarded run .timing, run.setWater { run.water with valveTimer := some 0 }], s.Fits)
      ∧ ∀ s ∈ [bare run, stand .calibrate, run.setWater { run.water with tanks := run.water.tanks.set 0 ⟨none, none, 29, false, 0⟩ },
          run.setWater { run.water with tanks := run.water.tanks.set 0 ⟨none, none, 30, false, 0⟩, dumpCmdOpen := true }],
        (asked s 11 0 0).Fits ∧ (asked s 11 0 0).asks 11 0 0 :=
  ⟨fits_all (by decide +kernel), asks_all (by decide +kernel)⟩
/-- Readings before Run and in Run; a zone of the two and one beyond; each refusal. -/
theorem witness_ClimateSettings :
    (∀ s ∈ [(stand .calibrate).setClimate { run.climate with readTimer := some 0 },
        (heating run .running).setClimate { (heating run .running).climate with readTimer := some 0 },
        (calling (heating run .running)).setClimate { (calling (heating run .running)).climate with readTimer := some 0 }],
        s.Fits)
      ∧ (∀ s ∈ [bare run, stand .calibrate, run], (asked s 1 1 300).Fits ∧ (asked s 1 1 300).asks 1 1 300)
      ∧ (∀ s ∈ [run], (asked s 1 2 300).Fits ∧ (asked s 1 2 300).asks 1 2 300)
      ∧ (∀ s ∈ [run], (asked s 2 3 0).Fits ∧ (asked s 2 3 0).asks 2 3 0)
      ∧ ∀ s ∈ [bare run, stand .calibrate, stored run, heating run .lockout, run],
        (asked s 2 2 0).Fits ∧ (asked s 2 2 0).asks 2 2 0 :=
  ⟨fits_all (by decide +kernel), asks_all (by decide +kernel), asks_all (by decide +kernel), asks_all (by decide +kernel),
    asks_all (by decide +kernel)⟩
theorem witness_HeaterLink :
    (∀ s ∈ [heating run .starting, heating run .running, heating run .purging, heating run .lockout, run], s.Fits)
      ∧ (heating run .starting).climate.startTimer.isSome = true ∧ (heating run .running).climate.runTimer.isSome = true
      ∧ (heating run .purging).climate.purgeTimer.isSome = true
      ∧ ∀ s ∈ [bare run, stand .calibrate, heating run .lockout, heating run .purging],
        (asked s 3 0 0).Fits ∧ (asked s 3 0 0).asks 3 0 0 :=
  ⟨fits_all (by decide +kernel), by decide +kernel, by decide +kernel, by decide +kernel, asks_all (by decide +kernel)⟩
/-- Each refusal in its order, the awning's for Wind, a channel of two beyond; then each state a channel may be in. -/
theorem witness_MotionExtend :
    (∀ s ∈ [bare run, stand .calibrate, driven run, stored run, held run, resting run 0 .fault, moving run 0 .extending,
        resting run 0 .extended, braking run 0 .backoff, braking run 0 .settleFault, braking run 0 .protective,
        braking run 0 .none, holding (moving run 0 .retracting) 3 0 800, moving run 0 .backoff,
        resting (offering run 5000) 0 .midway, resting run 0 .retracted,
        run.modChan 0 fun c => { c with calTimer := some 0 }], (asked s 4 0 0).Fits ∧ (asked s 4 0 0).asks 4 0 0)
      ∧ (∀ s ∈ [windy run], (asked s 4 1 0).Fits ∧ (asked s 4 1 0).asks 4 1 0)
      ∧ ∀ s ∈ [run], (asked s 4 2 0).Fits ∧ (asked s 4 2 0).asks 4 2 0 :=
  ⟨asks_all (by decide +kernel), asks_all (by decide +kernel), asks_all (by decide +kernel)⟩
theorem witness_MotionRetractAndStop :
    (∀ s ∈ [bare run, stand .calibrate, resting run 0 .retracted, moving run 0 .retracting, moving run 0 .backoff,
        moving run 0 .extending, braking run 0 .backoff, braking run 0 .protective, braking run 0 .extend,
        driven (braking run 0 .none), held (resting run 0 .midway), driven (resting run 0 .midway), resting run 0 .fault],
        (asked s 5 0 0).Fits ∧ (asked s 5 0 0).asks 5 0 0)
      ∧ (∀ s ∈ [run], (asked s 5 2 0).Fits ∧ (asked s 5 2 0).asks 5 2 0)
      ∧ (∀ s ∈ [driven (braking run 0 .protective), braking run 0 .protective, moving run 0 .extending,
          braking run 0 .retract, pends run 0 .extend, run], (asked s 6 0 0).Fits ∧ (asked s 6 0 0).asks 6 0 0)
      ∧ ∀ s ∈ [windy (braking run 1 .protective)], (asked s 6 1 0).Fits ∧ (asked s 6 1 0).asks 6 1 0 :=
  ⟨asks_all (by decide +kernel), asks_all (by decide +kernel), asks_all (by decide +kernel), asks_all (by decide +kernel)⟩
/-- A dwell with each follow-on, with and without HOLD and a need; each timer run down; a calibration with and without a
pending move. -/
theorem witness_MotionTimers :
    (∀ f ∈ [Move.none, .settleFault, .backoff, .extend, .retract, .protective], ∀ s ∈ [braking run 0 f,
        held (braking run 0 f), driven (braking run 0 f)], s.Fits)
      ∧ (braking run 0 .none).motionRuns = true
      ∧ (∀ s ∈ [moving run 0 .extending, moving run 0 .retracting, moving run 0 .backoff,
          run.modChan 0 fun c => { c with idle := some 0 }, run.modChan 0 fun c => { c with calTimer := some 0 },
          (pends run 0 .extend).modChan 0 fun c => { c with calTimer := some 0 },
          (pends run 0 .protective).modChan 0 fun c => { c with calTimer := some 0 }], s.Fits) := by
  refine ⟨?_, by decide +kernel, fits_all (by decide +kernel)⟩
  intro f hf
  simp only [List.mem_cons, List.not_mem_nil, or_false] at hf
  rcases hf with rfl | rfl | rfl | rfl | rfl | rfl <;> exact fits_all (by decide +kernel)
theorem witness_MotionEvents :
    (∀ s ∈ [bare run, braking run 0 .none, resting run 0 .fault, moving run 0 .extending, moving run 0 .retracting, run,
        driven (resting run 0 .retracted) |>.setMotion { (resting run 0 .retracted).motion with ilock := true },
        pends run 0 .extend, pends run 0 .retract, held (pends run 0 .protective), held (pends run 0 .retract), held run,
        (moving run 0 .extending).setSeq { run.seq with values := run.seq.values.set 36 1 } |>.setCell
          { run.cell with values := run.seq.values.set 36 1 },
        windy (pends run 1 .protective),
        windy (braking run 1 .protective), windy (driven (held (pends run 1 .protective))),
        (stand .calibrate).setMotion { run.motion with windPulses := 21, windyCount := 2 }], s.Fits)
      ∧ (∀ s ∈ (meeting run 1).map (fun s => s.setMotion { s.motion with windPulses := 21, windyCount := 2 }), s.Fits)
      ∧ run.motion.windWindow.isSome = true ∧ (windy run).motion.windLockout.isSome = true :=
  ⟨fits_all (by decide +kernel), fits_all (by decide +kernel), by decide +kernel⟩
/-- A step within the fade, and the last one. -/
theorem witness_FadeSteps :
    (∀ s ∈ [fading run, (fading run).setLight 0 ⟨243, 250, 0, 780, true, some 0, 59⟩], s.Fits)
      ∧ ((fading run).light 0).stepTimer.isSome = true := ⟨fits_all (by decide +kernel), by decide +kernel⟩
/-- A request is pending in group 0: a Try of a dark group, or a raise of a lit one's claim. -/
def requesting (s : State) : State := contesting (s.setGroup 0 ⟨some lightsAsk, .none⟩) 5 6 1 true
def raising (s : State) : State :=
  let s := (lit s).setGroup 0 ⟨some ⟨⟨[900, 0, 0, 0], rfl⟩, ⟨[900, 0, 0, 0], rfl⟩, 1000, 0⟩, .none⟩
  s.setClaim 5 ⟨6, .held, 6, 81, true, true, false, some 0, 1⟩
/-- A request meets one that is pending (R154): nothing more than is held, and more, with current on offer and without, also
while a pad's claim waits for the current that the earlier one gives up. -/
theorem witness_LightLevels_pending :
    (∀ s ∈ [requesting run, requesting (offering run 5000), raising run, raising (offering run 5000),
        waitingAt ((requesting (offering run 100)).setSeq { run.seq with values := run.seq.values.set 28 1 } |>.setCell
          { run.cell with values := run.seq.values.set 28 1 } |>.setClimate { run.climate with padWanted := true }) 1 2 100],
        ((asked s 7 0 1000).Fits ∧ (asked s 7 0 1000).asks 7 0 1000)
          ∧ ((asked s 7 0 0).Fits ∧ (asked s 7 0 0).asks 7 0 0)
          ∧ (asked s 8 3 0).Fits ∧ (asked s 8 3 0).asks 8 3 0)
      ∧ (let t := after .setLevel (asked (raising (offering run 5000)) 7 0 0)
        t.status.outcome = 1 ∧ (t.light 0).target = 0 ∧ (t.claim 5).raise = false)
      ∧ (let t := after .setLevel (asked (requesting (offering run 5000)) 7 0 1000)
        t.status.outcome = 2 ∧ (t.claim 5).asked = 100 ∧ (t.claim 5).announcing = true) := by
  refine ⟨fun s hs => ⟨?_, ?_, ?_⟩, by decide +kernel⟩
  · exact asks_all (code := 7) (index := 0) (value := 1000) (by decide +kernel) s hs
  · exact asks_all (code := 7) (index := 0) (value := 0) (by decide +kernel) s hs
  · exact asks_all (code := 8) (index := 3) (value := 0) (by decide +kernel) s hs
/-- Each refusal; a change within what is held, above it with current on offer, and above what is offered: a scale passes,
one fits what is held, none does. -/
theorem witness_LightLevels :
    (∀ s ∈ [bare run, stand .calibrate, stored run, lit run, offering run 5000],
        (asked s 7 0 250).Fits ∧ (asked s 7 0 250).asks 7 0 250)
      ∧ (∀ s ∈ [run], (asked s 7 8 250).Fits ∧ (asked s 7 8 250).asks 7 8 250)
      ∧ (∀ s ∈ [offering run 60, holding run 5 6 60, run], (asked s 7 0 1000).Fits ∧ (asked s 7 0 1000).asks 7 0 1000)
      ∧ ∀ s ∈ [bare run, stand .calibrate, lit run, stored run,
          contesting (run.setGroup 0 ⟨some lightsAsk, .none⟩) 5 6 1 true],
        (asked s 10 0 0).Fits ∧ (asked s 10 0 0).asks 10 0 0 :=
  ⟨asks_all (by decide +kernel), asks_all (by decide +kernel), asks_all (by decide +kernel), asks_all (by decide +kernel)⟩
/-- Scene 3 lights channel 0, and current is on offer. -/
def bright : State :=
  let x := run.lights.scenes.set 3 ⟨[900, 0, 0, 0, 0, 0, 0, 0], rfl⟩
  (offering run 5000).setLights { run.lights with scenes := x } |>.setCell { run.cell with scenes := x }
/-- Channel `ch` is the courtesy channel. -/
def courteous (s : State) (ch : Fin 8) : State :=
  let v := s.seq.values.set 47 ch.val
  (s.setSeq { s.seq with values := v }).setCell { s.cell with values := v }
/-- The courtesy channel is lit for the step that station 3 shows out, and stays so when nothing shows it out any longer. -/
def lightsTheStep (s : State) (call : Bool) : State :=
  s.setLights { s.lights with courtesy := true, call := call, source := 3 }
/-- A MOTION record of the step in a state. -/
def stepRecord (state : Nat) : Record := ⟨0, .motion ⟨state, 0, 0, false, false, false, false, false⟩⟩
/-- Each refusal; a dark scene and a lit one; a courtesy countdown run down. -/
theorem witness_ScenesAndCourtesy :
    (∀ s ∈ [bare run, stand .calibrate, stored run, run, bright], (asked s 8 3 0).Fits ∧ (asked s 8 3 0).asks 8 3 0)
      ∧ (∀ s ∈ [run], (asked s 8 4 0).Fits ∧ (asked s 8 4 0).asks 8 4 0)
      ∧ (∀ s ∈ [bare run, stand .calibrate, stored run, lit run], (asked s 9 3 0).Fits ∧ (asked s 9 3 0).asks 9 3 0)
      ∧ ∀ s ∈ [run.setLights { run.lights with courtesy := true, countdown := some 0 }], s.Fits :=
  ⟨asks_all (by decide +kernel), asks_all (by decide +kernel), asks_all (by decide +kernel), fits_all (by decide +kernel)⟩
/-- The step comes out at a peer: onto a dark channel that is offered nothing, a scale and all it asks, onto one that a request
waits for, onto one whose claim holds enough, onto one lit already, and while a countdown runs. It comes out at the own start.
It comes home at a peer with its entry here, and with another peer or the own step home; the entry goes Stale; the own step
settles at home. -/
theorem witness_ScenesAndCourtesy_call :
    let c := courteous run 0
    let alone := fun s : State => s.setSeq { s.seq with fns := ⟨true, true, true, false, true⟩ }
    let off := lightsTheStep (knows c 3 (stepRecord 8)) false
    let own := contesting (pends (courteous (offering run 5000) 0) 0 .extend) 3 3 800 false
    let stale := lightsTheStep (old (knows c 3 (stepRecord 2)) .aging) true
    let settles := (lightsTheStep (braking c 0 .none) false).setPins { run.pins with er := run.pins.er.set 0 true }
    (∀ s ∈ [c, alone c, courteous (offering run 30) 0, courteous (offering run 5000) 0, courteous (lit run) 0,
        contesting ((courteous run 0).setGroup 0 ⟨some lightsAsk, .none⟩) 5 6 1 true,
        (holding c 5 6 100).setLight 0 ⟨1000, 1000, 0, 0, false, none, 1000⟩,
        (holding c 5 6 100).setLight 1 ⟨1000, 1000, 0, 0, false, none, 1000⟩,
        off.setLights { off.lights with countdown := some 5 }],
        (heard s (stepRecord 2)).Fits ∧ (heard s (stepRecord 2)).brings 2 (stepRecord 2))
      ∧ (∀ s ∈ [off, knows off 4 (stepRecord 1), resting off 0 .retracted],
        ((heard s (stepRecord 8)).Fits ∧ (heard s (stepRecord 8)).brings 2 (stepRecord 8))
          ∧ (heard s (stepRecord 1)).Fits ∧ (heard s (stepRecord 1)).brings 2 (stepRecord 1))
      ∧ (∀ s ∈ [own, stale, settles], s.Fits) ∧ Item.courtesy c.seq.values = some 0 ∧ c.view.holdTimer = none
      ∧ (let v := c.view.sets.get (setOf ⟨2, .motion, 0⟩)
        (v.ways.get (v.victim false 2)).valid = false)
      ∧ own.extendRefusal 0 = none ∧ own.passes 3 3 800 = true
      ∧ (stale.entries.all fun e => e.key == ⟨3, .motion, 0⟩ && e.fresh == .aging && decide (12000 ≤ e.age + 1)) = true
      ∧ stale.entries.length = 1 ∧ (settles.chan 0).dwell.isSome = true := by
  intro c alone off own stale settles
  refine ⟨brings_all (by decide +kernel), ?_, fits_all (by decide +kernel), by decide +kernel⟩
  intro s hs
  exact ⟨brings_all (l := [off, knows off 4 (stepRecord 1), resting off 0 .retracted]) (by decide +kernel) s hs,
    brings_all (l := [off, knows off 4 (stepRecord 1), resting off 0 .retracted]) (by decide +kernel) s hs⟩

end Sys2Proof.Tests
end

