-- ==== Sys2Proof/Proofs/ChargeAccounting.lean ====
section
/-! PROOFS. Chapter 1, charge accounting: what the derating, the usable capacity, the available charge and the state of
charge (R7, R10, R11) keep to, and the obligation about them. The idea: with Q at most Qfull the available charge is
C_use less the charge missing from a full bank, which does not depend on the temperature. -/

namespace Sys2Proof.Machine

/-! ### The derating and the usable capacity (R10) -/

theorem derating_of_warm {lithium : Bool} {tc : Int} (h : 20 ≤ tc) : derating lithium tc = 1000 := if_pos h

/-- R10 below 20 degrees, over the integers. -/
theorem derating_of_cold {lithium : Bool} {tc : Int} (h : tc < 20) :
    (derating lithium tc : Int) = max 500 (1000 - (if lithium then 3 else 8) * (20 - tc)) := by
  rw [derating, if_neg (Int.not_le.mpr h), Int.toNat_of_nonneg (by omega)]

theorem five_hundred_le_derating (lithium : Bool) (tc : Int) : 500 ≤ derating lithium tc := by
  rcases Int.lt_or_le tc 20 with cold | warm
  · have := derating_of_cold (lithium := lithium) cold
    omega
  · rw [derating_of_warm warm]
    decide

theorem derating_le_thousand (lithium : Bool) (tc : Int) : derating lithium tc ≤ 1000 := by
  rcases Int.lt_or_le tc 20 with cold | warm
  · have := derating_of_cold (lithium := lithium) cold
    cases lithium <;> simp only [Bool.false_eq_true, if_true, if_false] at this <;> omega
  · exact (derating_of_warm warm).le

theorem derating_mono (lithium : Bool) {tc warmer : Int} (h : tc ≤ warmer) :
    derating lithium tc ≤ derating lithium warmer := by
  rcases Int.lt_or_le warmer 20 with cold | warm
  · have here := derating_of_cold (lithium := lithium) (Int.lt_of_le_of_lt h cold)
    have there := derating_of_cold (lithium := lithium) cold
    cases lithium <;> simp only [Bool.false_eq_true, if_true, if_false] at here there <;> omega
  · rw [derating_of_warm warm]
    exact derating_le_thousand lithium tc

theorem wholeDegrees_mono {temp warmer : Int} (h : temp ≤ warmer) : wholeDegrees temp ≤ wholeDegrees warmer :=
  Int.ediv_le_ediv (by decide) h

/-- The smallest bank holds 20 Ah (R7, R185). -/
theorem Values.fit.qFull_ge {v : Values} (h : v.fit) : 72000000 ≤ qFull v := by
  obtain ⟨ranges, -, -⟩ := h
  obtain ⟨least, -, -⟩ : 20 ≤ v.get 0 ∧ v.get 0 ≤ 600 ∧ v.get 0 % 1 = 0 := ranges 0
  exact Nat.mul_le_mul_right 3600000 least

theorem usableCapacity_le_qFull (v : Values) (temp : Int) : usableCapacity v temp ≤ qFull v :=
  Nat.div_le_of_le_mul <| (Nat.mul_comm 1000 _).symm ▸ Nat.mul_le_mul_left _ (derating_le_thousand _ _)

theorem Values.fit.usableCapacity_pos {v : Values} (h : v.fit) (temp : Int) : 0 < usableCapacity v temp :=
  Nat.div_pos
    (calc 1000 ≤ 72000000 * 500 := by decide
      _ ≤ qFull v * derating _ _ := Nat.mul_le_mul h.qFull_ge (five_hundred_le_derating _ _))
    (by decide)

theorem usableCapacity_mono (v : Values) {temp warmer : Int} (h : temp ≤ warmer) :
    usableCapacity v temp ≤ usableCapacity v warmer :=
  Nat.div_le_div_right (Nat.mul_le_mul_left _ (derating_mono _ (wholeDegrees_mono h)))

/-! ### The available charge and the state of charge (R11) -/

theorem available_add_unreachable {v : Values} {q : Nat} {temp : Int} (h : qFull v - usableCapacity v temp ≤ q) :
    available v q temp + (qFull v - usableCapacity v temp) = q :=
  Nat.sub_add_cancel h

theorem available_of_unreachable {v : Values} {q : Nat} {temp : Int} (h : q ≤ qFull v - usableCapacity v temp) :
    available v q temp = 0 :=
  Nat.sub_eq_zero_of_le h

theorem stateOfCharge_of_unreachable {v : Values} {q : Nat} {temp : Int}
    (h : q ≤ qFull v - usableCapacity v temp) : stateOfCharge v q temp = 0 := by
  rw [stateOfCharge, available_of_unreachable h, Nat.zero_mul, Nat.zero_div]

/-- The available charge is the usable capacity less what is missing from a full bank. -/
theorem available_eq_usableCapacity_sub_missing {v : Values} {q : Nat} (temp : Int) (h : q ≤ qFull v) :
    available v q temp = usableCapacity v temp - (qFull v - q) := by
  have := usableCapacity_le_qFull v temp
  unfold available
  omega

theorem available_le_usableCapacity {v : Values} {q : Nat} (temp : Int) (h : q ≤ qFull v) :
    available v q temp ≤ usableCapacity v temp :=
  (available_eq_usableCapacity_sub_missing temp h).trans_le (Nat.sub_le _ _)

theorem available_full (v : Values) (temp : Int) : available v (qFull v) temp = usableCapacity v temp :=
  Nat.sub_sub_self (usableCapacity_le_qFull v temp)

theorem stateOfCharge_le_thousand {v : Values} {q : Nat} (temp : Int) (h : q ≤ qFull v) :
    stateOfCharge v q temp ≤ 1000 :=
  Nat.div_le_of_le_mul (Nat.mul_le_mul_right 1000 (available_le_usableCapacity temp h))

theorem Values.fit.stateOfCharge_of_full {v : Values} {q : Nat} (h : v.fit) (temp : Int) (full : q = qFull v) :
    stateOfCharge v q temp = 1000 := by
  rw [stateOfCharge, full, available_full]
  exact Nat.mul_div_right 1000 (h.usableCapacity_pos temp)

/-- The per mille left of a capacity that the same charge is missing from grows with the capacity. -/
theorem permille_left_mono {missing c c' : Nat} (pos : 0 < c) (h : c ≤ c') :
    (c - missing) * 1000 / c ≤ (c' - missing) * 1000 / c' := by
  rw [Nat.le_div_iff_mul_le (Nat.lt_of_lt_of_le pos h)]
  generalize share : (c - missing) * 1000 / c = x
  have whole : x ≤ 1000 := share ▸ Nat.div_le_of_le_mul (Nat.mul_le_mul_right 1000 (Nat.sub_le c missing))
  have taken : x * c ≤ (c - missing) * 1000 := share ▸ Nat.div_mul_le_self _ _
  obtain ⟨gain, rfl⟩ := Nat.exists_eq_add_of_le h
  rcases Nat.le_total c missing with spent | left
  · have : x = 0 := by rw [← share, Nat.sub_eq_zero_of_le spent, Nat.zero_mul, Nat.zero_div]
    simp [this]
  · calc x * (c + gain) = x * c + x * gain := Nat.mul_add ..
      _ ≤ (c - missing) * 1000 + 1000 * gain := Nat.add_le_add taken (Nat.mul_le_mul_right gain whole)
      _ = (c + gain - missing) * 1000 := by omega

theorem Values.fit.stateOfCharge_mono {v : Values} {q : Nat} {temp warmer : Int} (h : v.fit) (hq : q ≤ qFull v)
    (hw : temp ≤ warmer) : stateOfCharge v q temp ≤ stateOfCharge v q warmer := by
  simp only [stateOfCharge, available_eq_usableCapacity_sub_missing _ hq]
  exact permille_left_mono (h.usableCapacity_pos temp) (usableCapacity_mono v hw)

end Sys2Proof.Machine

namespace Sys2Proof.Proofs

open Sys2Proof.Machine

/-- Settles O44, from the facts on the usable capacity (R10) and on the available charge (R11) above. -/
theorem stateOfCharge : Obligations.StateOfCharge := by
  intro v q temp warmer fit hq hw full cuse a soc
  exact ⟨rfl, fit.qFull_ge, five_hundred_le_derating _ _, rfl, (fit.usableCapacity_pos temp).ne',
    usableCapacity_le_qFull v temp, available_add_unreachable,
    fun low => ⟨available_of_unreachable low, stateOfCharge_of_unreachable low⟩, rfl,
    available_le_usableCapacity temp hq, stateOfCharge_le_thousand temp hq,
    fit.stateOfCharge_of_full temp,
    Nat.sub_le_sub_left (usableCapacity_mono v hw) (qFull v), fit.stateOfCharge_mono hq hw⟩

end Sys2Proof.Proofs
end

