-- ==== Sys2Proof/Proofs/PeerView.lean ====
section
/-! PROOFS. Chapter 3, the Peer View: the way a fill takes (R64 to R67), and the obligation about it. The idea: the ways a
record may take stand in rising order, so the first that a search finds is the lowest-numbered. -/

namespace Sys2Proof.Machine

/-! ### The ways a record may take (R64) -/

theorem mem_fin4 (x : Fin 4) : x ∈ fin4 := by
  revert x
  decide

theorem mem_mayTake {critical : Bool} {k : Nat} {x : Fin 4} :
    x ∈ mayTake critical k ↔ critical = true ∨ k ≤ x.val := by
  cases critical <;> simp [mayTake, mem_fin4]

theorem mayTake_rising (critical : Bool) (k : Nat) : (mayTake critical k).Pairwise (· ≤ ·) := by
  have rising : fin4.Pairwise (· ≤ ·) := by decide
  rw [mayTake]
  split
  · exact rising
  · exact rising.filter _

/-- The first find in a rising list is the least. -/
theorem isLeast_of_find? {l : List (Fin 4)} {p : Fin 4 → Bool} {w : Fin 4} (rising : l.Pairwise (· ≤ ·))
    (found : l.find? p = some w) : IsLeast {x | x ∈ l ∧ p x = true} w := by
  obtain ⟨holds, before, after, rfl, none_before⟩ := List.find?_eq_some_iff_append.mp found
  obtain ⟨-, tail_rising, -⟩ := List.pairwise_append.mp rising
  refine ⟨⟨List.mem_append_right _ List.mem_cons_self, holds⟩, ?_⟩
  rintro x ⟨hx, px⟩
  rcases List.mem_append.mp hx with early | late
  · exact absurd px (by simpa using none_before x early)
  · rcases List.mem_cons.mp late with rfl | later
    · exact le_rfl
    · exact List.rel_of_pairwise_cons tail_rising later

/-! ### The way the bits name (R66, R67) -/

/-- The way `ViewSet.victim` takes when no way the record may take is invalid or Stale. -/
def ViewSet.named (v : ViewSet) (critical : Bool) (k : Nat) : Fin 4 :=
  if critical then v.fullTree else v.unpinnedTree k

theorem ViewSet.two_le_upperHalf (v : ViewSet) : 2 ≤ (if v.b2 then 3 else 2 : Fin 4) := by
  split <;> decide

theorem ViewSet.le_unpinnedTree (v : ViewSet) {k : Nat} (hk : k ≤ 3) : k ≤ (v.unpinnedTree k).val := by
  match k, hk with
  | 0, _ => exact Nat.zero_le _
  | 1, _ =>
    simp only [unpinnedTree]
    split
    · exact le_rfl
    · next nonzero => exact Nat.pos_of_ne_zero fun zero => nonzero (Fin.ext zero)
  | 2, _ => exact v.two_le_upperHalf
  | 3, _ => exact le_rfl

theorem ViewSet.named_mem_mayTake (v : ViewSet) (critical : Bool) {k : Nat} (hk : k ≤ 3) :
    v.named critical k ∈ mayTake critical k := by
  rw [mem_mayTake]
  cases critical
  · exact .inr (v.le_unpinnedTree hk)
  · exact .inl rfl

/-! ### The way to fill (R65) -/

/-- What `ViewSet.victim` can answer: the lowest invalid way; with none invalid, the lowest Stale one; with none Stale
either, the one the bits name. -/
theorem ViewSet.victim_cases (v : ViewSet) (critical : Bool) (k : Nat) :
    let ways := mayTake critical k
    IsLeast {x | x ∈ ways ∧ (v.ways.get x).valid = false} (v.victim critical k) ∨
    (∀ x ∈ ways, (v.ways.get x).valid = true) ∧
      (IsLeast {x | x ∈ ways ∧ (v.ways.get x).fresh = .stale} (v.victim critical k) ∨
      (∀ x ∈ ways, (v.ways.get x).fresh ≠ .stale) ∧ v.victim critical k = v.named critical k) := by
  intro ways
  simp only [victim]
  split
  · next w found => exact .inl (by simpa using isLeast_of_find? (mayTake_rising critical k) found)
  · next none_invalid =>
    refine .inr ⟨by simpa using none_invalid, ?_⟩
    split
    · next w found => exact .inl (by simpa using isLeast_of_find? (mayTake_rising critical k) found)
    · next none_stale => exact .inr ⟨by simpa using none_stale, rfl⟩

theorem ViewSet.victim_mem_mayTake (v : ViewSet) (critical : Bool) {k : Nat} (hk : k ≤ 3) :
    v.victim critical k ∈ mayTake critical k := by
  rcases v.victim_cases critical k with ⟨⟨may, -⟩, -⟩ | ⟨-, ⟨⟨may, -⟩, -⟩ | ⟨-, named⟩⟩
  · exact may
  · exact may
  · exact named ▸ v.named_mem_mayTake critical hk

theorem ViewSet.victim_of_invalid {v : ViewSet} {critical : Bool} {k : Nat} {x : Fin 4} (may : x ∈ mayTake critical k)
    (invalid : (v.ways.get x).valid = false) :
    (v.ways.get (v.victim critical k)).valid = false ∧ v.victim critical k ≤ x := by
  rcases v.victim_cases critical k with ⟨⟨-, found⟩, least⟩ | ⟨valid, -⟩
  · exact ⟨found, least ⟨may, invalid⟩⟩
  · exact absurd (valid x may) (by simp [invalid])

theorem ViewSet.victim_of_stale {v : ViewSet} {critical : Bool} {k : Nat} {x : Fin 4}
    (valid : ∀ x ∈ mayTake critical k, (v.ways.get x).valid = true) (may : x ∈ mayTake critical k)
    (stale : (v.ways.get x).fresh = .stale) :
    (v.ways.get (v.victim critical k)).fresh = .stale ∧ v.victim critical k ≤ x := by
  rcases v.victim_cases critical k with ⟨⟨there, invalid⟩, -⟩ | ⟨-, ⟨⟨-, found⟩, least⟩ | ⟨live, -⟩⟩
  · exact absurd (valid _ there) (by simp [invalid])
  · exact ⟨found, least ⟨may, stale⟩⟩
  · exact absurd stale (live x may)

theorem ViewSet.victim_of_live {v : ViewSet} {critical : Bool} {k : Nat}
    (live : ∀ x ∈ mayTake critical k, (v.ways.get x).valid = true ∧ (v.ways.get x).fresh ≠ .stale) :
    v.victim critical k = v.named critical k := by
  rcases v.victim_cases critical k with ⟨⟨there, invalid⟩, -⟩ | ⟨-, ⟨⟨there, stale⟩, -⟩ | ⟨-, named⟩⟩
  · exact absurd (live _ there).1 (by simp [invalid])
  · exact absurd stale (live _ there).2
  · exact named

end Sys2Proof.Machine

namespace Sys2Proof.Proofs

open Sys2Proof.Machine

/-- Settles O40, from what `ViewSet.victim` can answer (R65) and from what the bits name (R66, R67). -/
theorem replacementNamesTheWay : Obligations.ReplacementNamesTheWay := by
  intro v critical k hk w may tree
  have mem {x : Fin 4} : may x ↔ x ∈ mayTake critical k := mem_mayTake.symm
  simp only [mem]
  refine ⟨v.victim_mem_mayTake critical hk, fun _ => ViewSet.victim_of_invalid,
    fun valid _ => ViewSet.victim_of_stale valid, fun live => ?_⟩
  refine (ViewSet.victim_of_live live).trans ?_
  cases critical
  · match k, hk with
    | 0, _ => rfl
    | 1, _ => rfl
    | 2, _ => rfl
    | 3, _ => rfl
  · rfl

end Sys2Proof.Proofs
end

