-- ==== Sys2Proof/Proofs/Soundness.lean ====
section
/-! PROOFS. Every command keeps a sane state sane, and its end makes it sound: the machine's first invariant, command by command. -/

namespace Sys2Proof.Machine

/-! ### Soundness of every command -/

theorem done_sound {was s t : State} (h : s.Sane) (e : done was s = .next t) : t.Sound := by
  cases e
  exact publish_sound was h

/-- A command whose effect keeps a sane state sane ends in a sound one. -/
theorem Keeps.done {was s t : State} (o : was.Sane) (e : done was s = .next t) (h : Keeps was s) : t.Sound :=
  done_sound (h o) e

theorem motionRequest_keeps (s : State) (code : Nat) (f : State → Fin 2 → State) (h : ∀ u ch, Keeps u (f u ch)) :
    Keeps s (s.motionRequest code f) := by
  refine onRequest_keeps s code _ fun u n v => ?_
  split
  · exact (answer_calm u _ _).keeps
  · split
    · exact (answer_calm u _ _).keeps
    · exact h u _

theorem climateReads_keeps (s : State) (x y : Int) : Keeps s (s.climateReads x y) :=
  (setClimate_calm s _).keeps.trans
    (Keeps.ite (fun _ => ((setCall_calm _).trans ((countCall_calm _).trans (heaterFollows_calm _))).keeps)
      (fun _ => Keeps.refl _))

theorem purgeEnds_keeps (s : State) : Keeps s s.purgeEnds :=
  ((setClimate_calm s _).trans (release_calm _ _)).keeps.trans
    (Keeps.ite (fun _ => (askHeater_calm _).keeps) (fun _ => Keeps.refl _))

theorem takeSetpoint_keeps (s : State) (z : Fin 2) (v : Int) : Keeps s (s.takeSetpoint z v) :=
  (setClimate_calm s _).keeps.trans ((setCell_keeps _ _).trans
    ((setDue_calm _ _).trans ((setCall_calm _).trans (heaterFollows_calm _))).keeps)

theorem takeMode_keeps (s : State) (m : ClimateMode) : Keeps s (s.takeMode m) :=
  Keeps.ite (fun _ => Keeps.refl s)
    (fun _ => (setClimate_calm s _).keeps.trans ((setCell_keeps _ _).trans (modeChanged_calm _).keeps))

theorem heaterResets_keeps (s : State) : Keeps s s.heaterResets :=
  (setClimate_calm s _).keeps.trans
    ((Keeps.ite (fun _ => (setCell_keeps _ _).trans (monitor_calm _ _ _).keeps) (fun _ => Keeps.refl _)).trans
      (heaterFollows_calm _).keeps)

theorem takeLevel_calm (s : State) (ch : Fin 8) (v : Int) : Calm s (s.takeLevel ch v) := by
  unfold State.takeLevel
  refine Calm.trans ?_ (courtesyResumes_calm _)
  refine Calm.trans ?_ (answerLights_calm _ _ _)
  refine Calm.trans ?_ (requestGroup_calm _ _ _ _)
  exact Calm.ite (fun _ => courtesyEnds_calm s) (fun _ => Calm.refl s)

theorem takeAllOff_calm (s : State) : Calm s s.takeAllOff := by
  unfold State.takeAllOff
  refine Calm.trans ?_ (answer_calm _ _ _)
  refine Calm.trans ?_ (takeTargets_calm _ _ _)
  refine Calm.trans ?_ (takeTargets_calm _ _ _)
  refine Calm.trans ?_ (abandonRequest_calm _ _)
  exact (courtesyEnds_calm s).trans (abandonRequest_calm _ _)

theorem takeScene_calm (s : State) (n : Fin 4) : Calm s (s.takeScene n) := by
  unfold State.takeScene
  refine Calm.trans ?_ (courtesyResumes_calm _)
  refine Calm.trans ?_ (answerLights_calm _ _ _)
  refine Calm.trans ?_ (requestGroup_calm _ _ _ _)
  exact (courtesyEnds_calm s).trans (requestGroup_calm _ _ _ _)

theorem keepScene_keeps (s : State) (n : Fin 4) : Keeps s (s.keepScene n) :=
  (setLights_calm s _).keeps.trans ((setCell_keeps _ _).trans (answer_calm _ _ _).keeps)

theorem courtesyReturns_calm (s : State) : Calm s s.courtesyReturns := by
  unfold State.courtesyReturns
  dsimp only
  split
  · exact (setLights_calm s _).trans (courtesyChange_calm _ _ _)
  · exact setLights_calm s _

theorem takeShed_keeps (s : State) (n : Nat) (r : Record) : Keeps s (s.takeShed n r) := by
  unfold State.takeShed
  split
  · refine (readAll_calm s _).keeps.trans (Keeps.ite (fun _ => ?_) (fun _ => Keeps.refl _))
    refine Keeps.trans ?_ (levelFollows_steady _).keeps
    exact Calm.keeps (setBroker_calm _ _ (by exact fun h => h))
  · exact Keeps.refl s

theorem closesDump_calm (s : State) : Calm s s.closesDump :=
  Calm.ite (fun _ => (setWater_calm s _).trans ((valveTiming_calm _).trans (valveFollows_calm _)))
    (fun _ => Calm.refl s)

theorem listenEnds_keeps (s : State) (h : s.seq.phase = .listen) (p : Periods) (d : Due) :
    Keeps s (((s.setSeq { s.seq with phase := .setup, phaseTimer := some Config.setupMs }).setPeriods p).setDue d) :=
  (setSeq_keeps s _ (by exact id) (by rfl) (by exact fun k => absurd (h ▸ k) (by decide))).trans
    ((setPeriods_calm _ _).trans (setDue_calm _ _)).keeps

theorem dueIf_keeps {p : Prop} [Decidable p] (s : State) (d : Due) : Keeps s (if p then s.setDue d else s) :=
  Keeps.ite (fun _ => (setDue_calm s d).keeps) (fun _ => Keeps.refl s)

theorem holdChange_keeps (s : State) (f : State → Fin 2 → State) (h : ∀ u ch, Steady u (f u ch)) (p : Pins) :
    Keeps s (if (s.setPins p).motionRuns then f (f (s.setPins p) 0) 1 else s.setPins p) :=
  (setPins_keeps s p).trans
    (Keeps.ite (fun _ => ((h _ 0).trans (h _ 1)).keeps) (fun _ => Keeps.refl _))

theorem hrun_keeps (s : State) (b : Bool) :
    Keeps s (let s := s.setPins { s.pins with hrun := b }
      match s.climate.heater, b with
      | .starting, true => s.enterRunning
      | .running, false => if s.pins.hflt then s else s.heaterFails
      | _, _ => s) := by
  refine (setPins_keeps s { s.pins with hrun := b }).trans ?_
  dsimp only
  split
  · exact (enterRunning_calm _).keeps
  · exact Keeps.ite (fun _ => Keeps.refl _) (fun _ => (heaterFails_calm _).keeps)
  · exact Keeps.refl _

theorem hflt_keeps (s : State) (b : Bool) :
    Keeps s (let s := s.setPins { s.pins with hflt := b }
      match s.climate.heater, b with
      | .starting, true => s.heaterFails
      | .running, true => s.heaterFails
      | _, _ => s) := by
  refine (setPins_keeps s { s.pins with hflt := b }).trans ?_
  dsimp only
  split
  · exact (heaterFails_calm _).keeps
  · exact (heaterFails_calm _).keeps
  · exact Keeps.refl _

theorem execConnectReset_sound {s t : State} (p : Straps) (_ : s.Sane) (e : execConnectReset p s = .next t) : t.Sound := by
  exact done_sound (connects_sane s p) e

theorem execRestart_sound {s t : State} (b : Bool) (_ : s.Sane) (e : execRestart b s = .next t) : t.Sound := by
  exact done_sound (restarts_sane s b) e

theorem execResetReleased_sound {s t : State} (p : Straps) (h : s.Sane) (e : execResetReleased p s = .next t) : t.Sound := by
  exact Keeps.done h e (Keeps.ite (fun _ _ => released_sane s p) fun _ => Keeps.refl s)

theorem execListenTimerExpiry_sound {s t : State} (h : s.Sane) (e : execListenTimerExpiry s = .next t) : t.Sound := by
  exact Keeps.done h e (Keeps.ite (fun k => listenEnds_keeps s k.1 _ _) fun _ => Keeps.refl s)

theorem execSetupTimerExpiry_sound {s t : State} (h : s.Sane) (e : execSetupTimerExpiry s = .next t) : t.Sound := by
  exact Keeps.done h e (Keeps.ite (fun k => setupEnds_keeps s k.1) fun _ => Keeps.refl s)

theorem execCalibrateTimerExpiry_sound {s t : State} (h : s.Sane) (e : execCalibrateTimerExpiry s = .next t) : t.Sound := by
  exact Keeps.done h e (Keeps.ite (fun k => runEntered_keeps s (by rw [k.1]; decide)) fun _ => Keeps.refl s)

theorem execSetup_sound {s t : State} (h : s.Sane) (e : execSetup s = .next t) : t.Sound := by
  exact Keeps.done h e (dispatch_keeps s _ _ fun u _ r _ _ => setupHandled_keeps u r)

theorem execSetupEnd_sound {s t : State} (h : s.Sane) (e : execSetupEnd s = .next t) : t.Sound := by
  refine Keeps.done h e (dispatch_keeps s _ _ fun u _ r k q => setupEnds_keeps u ?_)
  unfold State.isSetupEnd at k
  split at k
  · simp only [Bool.and_eq_true, beq_iff_eq] at k
    exact q ▸ k.1.1
  · exact absurd k (by decide)

theorem execAccountingInterval_sound {s t : State} (i : Int) (v : Int) (x : Int) (h : s.Sane) (e : execAccountingInterval i v x s = .next t) : t.Sound := by
  exact Keeps.done h e (Keeps.ite (fun _ => accountingInterval_keeps s i v x) fun _ => Keeps.refl s)

theorem execShedPeriod_sound {s t : State} (h : s.Sane) (e : execShedPeriod s = .next t) : t.Sound := by
  exact Keeps.done h e (dueIf_keeps s _)

theorem execSupplyPeriod_sound {s t : State} (h : s.Sane) (e : execSupplyPeriod s = .next t) : t.Sound := by
  exact Keeps.done h e (dueIf_keeps s _)

theorem execFrameClose_sound {s t : State} (l : List Bit) (h : s.Sane) (e : execFrameClose l s = .next t) : t.Sound := by
  exact Keeps.done h e (receives_keeps s l)

theorem execBusSilentTimerExpiry_sound {s t : State} (h : s.Sane) (e : execBusSilentTimerExpiry s = .next t) : t.Sound := by
  exact Keeps.done h e (Keeps.ite (fun _ => fallsSilent_keeps s) fun _ => Keeps.refl s)

theorem execDispatchErrorNote_sound {s t : State} (h : s.Sane) (e : execDispatchErrorNote s = .next t) : t.Sound := by
  refine Keeps.done h e (s := match s.bus.rx with
    | .note _ :: q => s.setBus { s.bus with rx := q }
    | _ => s) ?_
  split
  · rename_i q hq
    exact setBus_keeps s _ (by exact fun h => h) (fun k => by
      unfold Bus.queueFits at *
      rw [hq] at k
      exact le_trans (Nat.le_succ _) k) (by exact id) (by exact id) (by exact id)
  · exact Keeps.refl s

theorem execUnknownKind_sound {s t : State} (h : s.Sane) (e : execUnknownKind s = .next t) : t.Sound := by
  exact Keeps.done h e (dispatch_keeps s _ _ fun u _ _ _ _ =>
    setBus_keeps u _ (by exact fun h => h) (by exact fun h => h) (by exact id) (by exact id) (by exact fun _ => sat255_le _))

theorem execNoticePassedOver_sound {s t : State} (h : s.Sane) (e : execNoticePassedOver s = .next t) : t.Sound := by
  exact Keeps.done h e (dispatch_keeps s _ _ fun u _ _ _ _ => Keeps.refl u)

theorem execRequestPassedOver_sound {s t : State} (h : s.Sane) (e : execRequestPassedOver s = .next t) : t.Sound := by
  exact Keeps.done h e (dispatch_keeps s _ _ fun u _ _ _ _ => Keeps.refl u)

theorem execRequestCodeZero_sound {s t : State} (h : s.Sane) (e : execRequestCodeZero s = .next t) : t.Sound := by
  exact Keeps.done h e (onRequest_keeps s _ _ fun u _ _ => Keeps.refl u)

theorem execPeerArrival_sound {s t : State} (h : s.Sane) (e : execPeerArrival s = .next t) : t.Sound := by
  exact Keeps.done h e (dispatch_keeps s _ _ fun u n r _ _ => arrive_keeps u n r)

theorem execViewOverflowTimerExpiry_sound {s t : State} (h : s.Sane) (e : execViewOverflowTimerExpiry s = .next t) : t.Sound := by
  exact Keeps.done h e (Keeps.ite (fun _ => (setView_keeps s _ (by exact fun h => h) (by rfl) (by exact id) (by exact id)).trans
    ((monitor_calm _ _ _).trans (retest_calm _)).keeps) fun _ => Keeps.refl s)

theorem execEntryAging_sound {s t : State} (k : Key) (h : s.Sane) (e : execEntryAging k s = .next t) : t.Sound := by
  exact Keeps.done h e (entryAges_keeps s k)

theorem execEntryStale_sound {s t : State} (k : Key) (h : s.Sane) (e : execEntryStale k s = .next t) : t.Sound := by
  exact Keeps.done h e (entryGoesStale_keeps s k)

theorem execHoldTimerExpiry_sound {s t : State} (h : s.Sane) (e : execHoldTimerExpiry s = .next t) : t.Sound := by
  exact Keeps.done h e (Keeps.ite (fun _ => holdRunsOut_keeps s) fun _ => Keeps.refl s)

theorem execEngChange_sound {s t : State} (b : Bool) (h : s.Sane) (e : execEngChange b s = .next t) : t.Sound := by
  exact Keeps.done h e (Keeps.ite (fun _ => Keeps.refl s) fun _ => (setPins_keeps s _).trans (Keeps.ite (fun _ => Keeps.refl _)
    fun _ => (setView_keeps _ _ (by exact fun h => h) (by rfl) (by exact id) (by exact id)).trans (padFollows_calm _).keeps))

theorem execLocalDriveSet_sound {s t : State} (h : s.Sane) (e : execLocalDriveSet s = .next t) : t.Sound := by
  exact Keeps.done h e (Keeps.ite (fun _ => (setView_keeps s _ (by exact fun h => h) (by rfl) (by exact id) (by exact id)).trans
    (driveFollows_loose _).keeps) fun _ => Keeps.refl s)

theorem execLocalDriveClear_sound {s t : State} (h : s.Sane) (e : execLocalDriveClear s = .next t) : t.Sound := by
  exact Keeps.done h e (Keeps.ite (fun _ => (setView_keeps s _ (by exact fun h => h) (by rfl) (by exact id) (by exact id)).trans
    (driveFollows_loose _).keeps) fun _ => Keeps.refl s)

theorem execChgavChange_sound {s t : State} (b : Bool) (h : s.Sane) (e : execChgavChange b s = .next t) : t.Sound := by
  exact Keeps.done h e ((setPins_keeps s _).trans (padFollows_calm _).keeps)

theorem execShedReceived_sound {s t : State} (h : s.Sane) (e : execShedReceived s = .next t) : t.Sound := by
  exact Keeps.done h e (dispatch_keeps s _ _ fun u n r _ _ => takeShed_keeps u n r)

theorem execContestWindowEnd_sound {s t : State} (id : Fin 7) (h : s.Sane) (e : execContestWindowEnd id s = .next t) : t.Sound := by
  exact Keeps.done h e (Keeps.ite (fun _ => (windowEnd_calm s id).keeps.trans (report_steady _ _ _).keeps) fun _ => Keeps.refl s)

theorem execDrawRepeat_sound {s t : State} (id : Fin 7) (h : s.Sane) (e : execDrawRepeat id s = .next t) : t.Sound := by
  exact Keeps.done h e (Keeps.ite (fun _ => (handDraw_calm s id).keeps) fun _ => Keeps.refl s)

theorem execFrameSendStart_sound {s t : State} (h : s.Sane) (e : execFrameSendStart s = .next t) : t.Sound := by
  exact Keeps.done h e (startsSending_keeps s)

theorem execArbitrationLost_sound {s t : State} (h : s.Sane) (e : execArbitrationLost s = .next t) : t.Sound := by
  exact Keeps.done h e (stopsSending_keeps s)

theorem execBitErrorAbort_sound {s t : State} (h : s.Sane) (e : execBitErrorAbort s = .next t) : t.Sound := by
  exact Keeps.done h e (frameFailed_keeps s)

theorem execFrameCompleted_sound {s t : State} (h : s.Sane) (e : execFrameCompleted s = .next t) : t.Sound := by
  exact Keeps.done h e (frameCompleted_keeps s)

theorem execFrameNoack_sound {s t : State} (h : s.Sane) (e : execFrameNoack s = .next t) : t.Sound := by
  exact Keeps.done h e (frameFailed_keeps s)

theorem execProbeTimerExpiry_sound {s t : State} (h : s.Sane) (e : execProbeTimerExpiry s = .next t) : t.Sound := by
  exact Keeps.done h e (Keeps.ite (fun _ => probeDue_keeps s) fun _ => Keeps.refl s)

theorem execGatherTimeout_sound {s t : State} (c : Nat) (h : s.Sane) (e : execGatherTimeout c s = .next t) : t.Sound := by
  exact Keeps.done h e (Keeps.ite (fun _ => gathered_keeps s c) fun _ => Keeps.refl s)

theorem execWaterReadingEvent_sound {s t : State} (a : Nat) (b : Nat) (c : Nat) (x : Int) (y : Int) (z : Int) (h : s.Sane) (e : execWaterReadingEvent a b c x y z s = .next t) : t.Sound := by
  exact Keeps.done h e (Keeps.ite (fun _ => ((setWater_calm s _).trans (waterReads_calm _ a b c x y z)).keeps)
    fun _ => Keeps.refl s)

theorem execPdemChange_sound {s t : State} (b : Bool) (h : s.Sane) (e : execPdemChange b s = .next t) : t.Sound := by
  exact Keeps.done h e ((setPins_keeps s _).trans (demandFollows_calm _).keeps)

theorem execRunawayCountExpiry_sound {s t : State} (h : s.Sane) (e : execRunawayCountExpiry s = .next t) : t.Sound := by
  exact Keeps.done h e (Keeps.ite (fun _ => ((setWater_calm s _).trans ((pumpReleased_calm _).trans
    ((monitor_calm _ _ _).trans (demandFollows_calm _)))).keeps) fun _ => Keeps.refl s)

theorem execFrostDueTime_sound {s t : State} (h : s.Sane) (e : execFrostDueTime s = .next t) : t.Sound := by
  exact Keeps.done h e (Keeps.ite (fun _ => (takeDue_calm s).keeps) fun _ => Keeps.refl s)

theorem execCirculationTimerExpiry_sound {s t : State} (h : s.Sane) (e : execCirculationTimerExpiry s = .next t) : t.Sound := by
  exact Keeps.done h e (Keeps.ite (fun _ => (cycleCompleted_calm s).keeps) fun _ => Keeps.refl s)

theorem execDumpfbChange_sound {s t : State} (b : Bool) (h : s.Sane) (e : execDumpfbChange b s = .next t) : t.Sound := by
  exact Keeps.done h e (Keeps.ite (fun _ => Keeps.refl s) fun _ => (setPins_keeps s _).trans (Keeps.ite
    (fun _ => ((valveTiming_calm _).trans (valveFollows_calm _)).keeps) fun _ => Keeps.refl _))

theorem execValveFaultTimerExpiry_sound {s t : State} (h : s.Sane) (e : execValveFaultTimerExpiry s = .next t) : t.Sound := by
  exact Keeps.done h e (Keeps.ite (fun _ => (setWater_calm s _).keeps.trans
    (Keeps.ite (fun _ => Keeps.refl _) fun _ => (monitor_calm _ _ _).keeps)) fun _ => Keeps.refl s)

theorem execCloseDump_sound {s t : State} (h : s.Sane) (e : execCloseDump s = .next t) : t.Sound := by
  refine Keeps.done h e (onRequest_keeps s _ _ fun u _ _ => ?_)
  split
  · exact (answer_calm u _ _).keeps
  · exact Keeps.ite (fun _ => (answer_calm u _ _).keeps)
      fun _ => ((answer_calm u _ _).trans (closesDump_calm _)).keeps

theorem execClearPump_sound {s t : State} (h : s.Sane) (e : execClearPump s = .next t) : t.Sound := by
  refine Keeps.done h e (onRequest_keeps s _ _ fun u _ _ => ?_)
  split
  · exact (answer_calm u _ _).keeps
  · exact (answer_calm u _ _).keeps.trans (Keeps.ite (fun _ => ((setWater_calm _ _).trans
      ((monitor_calm _ _ _).trans (demandFollows_calm _))).keeps) fun _ => Keeps.refl _)

theorem execTankPeriod_sound {s t : State} (k : Fin 3) (h : s.Sane) (e : execTankPeriod k s = .next t) : t.Sound := by
  exact Keeps.done h e (dueIf_keeps s _)

theorem execClimateReadingEvent_sound {s t : State} (x : Int) (y : Int) (h : s.Sane) (e : execClimateReadingEvent x y s = .next t) : t.Sound := by
  exact Keeps.done h e (Keeps.ite (fun _ => climateReads_keeps s x y) fun _ => Keeps.refl s)

theorem execHrunChange_sound {s t : State} (b : Bool) (h : s.Sane) (e : execHrunChange b s = .next t) : t.Sound := by
  exact Keeps.done h e (hrun_keeps s b)

theorem execHfltChange_sound {s t : State} (b : Bool) (h : s.Sane) (e : execHfltChange b s = .next t) : t.Sound := by
  exact Keeps.done h e (hflt_keeps s b)

theorem execStartTimerExpiry_sound {s t : State} (h : s.Sane) (e : execStartTimerExpiry s = .next t) : t.Sound := by
  exact Keeps.done h e (Keeps.ite (fun _ => (heaterFails_calm s).keeps) fun _ => Keeps.refl s)

theorem execRunTimerExpiry_sound {s t : State} (h : s.Sane) (e : execRunTimerExpiry s = .next t) : t.Sound := by
  exact Keeps.done h e (Keeps.ite (fun _ => (setClimate_calm s _).keeps) fun _ => Keeps.refl s)

theorem execPurgeTimerExpiry_sound {s t : State} (h : s.Sane) (e : execPurgeTimerExpiry s = .next t) : t.Sound := by
  exact Keeps.done h e (Keeps.ite (fun _ => purgeEnds_keeps s) fun _ => Keeps.refl s)

theorem execSetSetpoint_sound {s t : State} (h : s.Sane) (e : execSetSetpoint s = .next t) : t.Sound := by
  refine Keeps.done h e (onRequest_keeps s _ _ fun u _ _ => ?_)
  split
  · exact (answer_calm u _ _).keeps
  · split
    · exact (answer_calm u _ _).keeps
    · exact (answer_calm u _ _).keeps.trans (takeSetpoint_keeps _ _ _)

theorem execSetClimateMode_sound {s t : State} (h : s.Sane) (e : execSetClimateMode s = .next t) : t.Sound := by
  refine Keeps.done h e (onRequest_keeps s _ _ fun u _ _ => ?_)
  split
  · exact (answer_calm u _ _).keeps
  · split
    · exact (answer_calm u _ _).keeps
    · exact Keeps.ite (fun _ => (answer_calm u _ _).keeps)
        fun _ => (answer_calm u _ _).keeps.trans (takeMode_keeps _ _)

theorem execResetHeater_sound {s t : State} (h : s.Sane) (e : execResetHeater s = .next t) : t.Sound := by
  refine Keeps.done h e (onRequest_keeps s _ _ fun u _ _ => ?_)
  split
  · exact (answer_calm u _ _).keeps
  · exact (answer_calm u _ _).keeps.trans (heaterResets_keeps _)

theorem execClimatePeriod_sound {s t : State} (z : Fin 2) (h : s.Sane) (e : execClimatePeriod z s = .next t) : t.Sound := by
  exact Keeps.done h e (dueIf_keeps s _)

theorem execExtend_sound {s t : State} (h : s.Sane) (e : execExtend s = .next t) : t.Sound := by
  refine Keeps.done h e (motionRequest_keeps s _ _ fun u ch => ?_)
  split
  · exact (answer_calm u _ _).keeps
  · exact (takeExtend_steady u _ ch).keeps

theorem execRetract_sound {s t : State} (h : s.Sane) (e : execRetract s = .next t) : t.Sound := by
  exact Keeps.done h e (motionRequest_keeps s _ _ fun u ch => (takeRetract_steady u _ ch).keeps)

theorem execStop_sound {s t : State} (h : s.Sane) (e : execStop s = .next t) : t.Sound := by
  exact Keeps.done h e (motionRequest_keeps s _ _ fun u ch => (takeStop_steady u _ ch).keeps)

theorem execEndStopChange_sound {s t : State} (ch : Fin 2) (w : EndStop) (b : Bool) (h : s.Sane) (e : execEndStopChange ch w b s = .next t) : t.Sound := by
  exact Keeps.done h e ((setPins_keeps s _).trans
    (Keeps.ite (fun _ => (stopsFollow_steady _ ch).keeps) fun _ => Keeps.refl _))

theorem execDwellTimerExpiry_sound {s t : State} (ch : Fin 2) (h : s.Sane) (e : execDwellTimerExpiry ch s = .next t) : t.Sound := by
  exact Keeps.done h e (Keeps.ite (fun k => (dwellEnds_steady s ch k.1).keeps) fun _ => Keeps.refl s)

theorem execTravelTimerExpiry_sound {s t : State} (ch : Fin 2) (h : s.Sane) (e : execTravelTimerExpiry ch s = .next t) : t.Sound := by
  exact Keeps.done h e (Keeps.ite (fun _ => (travelExpires_steady s ch).keeps) fun _ => Keeps.refl s)

theorem execStallTimerExpiry_sound {s t : State} (ch : Fin 2) (h : s.Sane) (e : execStallTimerExpiry ch s = .next t) : t.Sound := by
  exact Keeps.done h e (Keeps.ite (fun _ => (stalls_steady s ch).keeps) fun _ => Keeps.refl s)

theorem execBackoffTimerExpiry_sound {s t : State} (ch : Fin 2) (h : s.Sane) (e : execBackoffTimerExpiry ch s = .next t) : t.Sound := by
  exact Keeps.done h e (Keeps.ite (fun _ => (backoffEnds_steady s ch).keeps) fun _ => Keeps.refl s)

theorem execIdleTimerExpiry_sound {s t : State} (ch : Fin 2) (h : s.Sane) (e : execIdleTimerExpiry ch s = .next t) : t.Sound := by
  exact Keeps.done h e (Keeps.ite (fun _ => (calibrationBegins_steady s ch).keeps) fun _ => Keeps.refl s)

theorem execCalibrationEnd_sound {s t : State} (ch : Fin 2) (x : Nat) (h : s.Sane) (e : execCalibrationEnd ch x s = .next t) : t.Sound := by
  exact Keeps.done h e (Keeps.ite (fun _ => (setPins_keeps s _).trans (calibrated_steady _ ch).keeps) fun _ => Keeps.refl s)

theorem execWindWindowEnd_sound {s t : State} (h : s.Sane) (e : execWindWindowEnd s = .next t) : t.Sound := by
  exact Keeps.done h e (Keeps.ite (fun _ => (windWindowEnds_steady s).keeps) fun _ => Keeps.refl s)

theorem execWindLockoutExpiry_sound {s t : State} (h : s.Sane) (e : execWindLockoutExpiry s = .next t) : t.Sound := by
  exact Keeps.done h e (Keeps.ite (fun _ => (windLockoutEnds_steady s).keeps) fun _ => Keeps.refl s)

theorem execInterlockRepeat_sound {s t : State} (ch : Fin 2) (h : s.Sane) (e : execInterlockRepeat ch s = .next t) : t.Sound := by
  exact Keeps.done h e (dueIf_keeps s _)

theorem execHoldAsserted_sound {s t : State} (h : s.Sane) (e : execHoldAsserted s = .next t) : t.Sound := by
  exact Keeps.done h e (Keeps.ite (fun _ => Keeps.refl s) fun _ => holdChange_keeps s State.holdFollows holdFollows_steady _)

theorem execHoldReleased_sound {s t : State} (h : s.Sane) (e : execHoldReleased s = .next t) : t.Sound := by
  exact Keeps.done h e (Keeps.ite (fun _ => holdChange_keeps s State.actOnPending actOnPending_steady _) fun _ => Keeps.refl s)

theorem execMotionPeriod_sound {s t : State} (ch : Fin 2) (h : s.Sane) (e : execMotionPeriod ch s = .next t) : t.Sound := by
  exact Keeps.done h e (dueIf_keeps s _)

theorem execFadeStep_sound {s t : State} (ch : Fin 8) (h : s.Sane) (e : execFadeStep ch s = .next t) : t.Sound := by
  exact Keeps.done h e (Keeps.ite (fun _ => (fadeStepped_calm s ch).keeps) fun _ => Keeps.refl s)

theorem execSetLevel_sound {s t : State} (h : s.Sane) (e : execSetLevel s = .next t) : t.Sound := by
  refine Keeps.done h e (onRequest_keeps s _ _ fun u _ _ => ?_)
  split
  · exact (answer_calm u _ _).keeps
  · split
    · exact (answer_calm u _ _).keeps
    · exact (takeLevel_calm u _ _).keeps

theorem execAllOff_sound {s t : State} (h : s.Sane) (e : execAllOff s = .next t) : t.Sound := by
  refine Keeps.done h e (onRequest_keeps s _ _ fun u _ _ => ?_)
  split
  · exact (answer_calm u _ _).keeps
  · exact (takeAllOff_calm u).keeps

theorem execRecallScene_sound {s t : State} (h : s.Sane) (e : execRecallScene s = .next t) : t.Sound := by
  refine Keeps.done h e (onRequest_keeps s _ _ fun u _ _ => ?_)
  split
  · exact (answer_calm u _ _).keeps
  · split
    · exact (answer_calm u _ _).keeps
    · exact (takeScene_calm u _).keeps

theorem execStoreScene_sound {s t : State} (h : s.Sane) (e : execStoreScene s = .next t) : t.Sound := by
  refine Keeps.done h e (onRequest_keeps s _ _ fun u _ _ => ?_)
  split
  · exact (answer_calm u _ _).keeps
  · split
    · exact (answer_calm u _ _).keeps
    · exact keepScene_keeps u _

theorem execCourtesyCountdownExpiry_sound {s t : State} (h : s.Sane) (e : execCourtesyCountdownExpiry s = .next t) : t.Sound := by
  exact Keeps.done h e (Keeps.ite (fun _ => (courtesyReturns_calm s).keeps) fun _ => Keeps.refl s)

theorem execLightPeriod_sound {s t : State} (ch : Fin 8) (h : s.Sane) (e : execLightPeriod ch s = .next t) : t.Sound := by
  exact Keeps.done h e (dueIf_keeps s _)

theorem execStatusPeriod_sound {s t : State} (h : s.Sane) (e : execStatusPeriod s = .next t) : t.Sound := by
  exact Keeps.done h e (dueIf_keeps s _)

theorem execStatusCountersPeriod_sound {s t : State} (h : s.Sane) (e : execStatusCountersPeriod s = .next t) : t.Sound := by
  exact Keeps.done h e (Keeps.ite (fun _ => ((setPeriods_calm s _).trans (setDue_calm _ _)).keeps) fun _ => Keeps.refl s)

theorem execAckAttention_sound {s t : State} (h : s.Sane) (e : execAckAttention s = .next t) : t.Sound := by
  refine Keeps.done h e (onRequest_keeps s _ _ fun u _ _ => ?_)
  split
  · exact (answer_calm u _ _).keeps
  · exact ((answer_calm u _ _).trans (setStatus_calm _ _ (by exact id))).keeps

theorem execEnterStorage_sound {s t : State} (h : s.Sane) (e : execEnterStorage s = .next t) : t.Sound := by
  refine Keeps.done h e (onRequest_keeps s _ _ fun u _ _ => ?_)
  split
  · exact (answer_calm u _ _).keeps
  · exact Keeps.ite (fun _ => (answer_calm u _ _).keeps) fun _ => Keeps.ite (fun _ => (answer_calm u _ _).keeps)
      fun _ => (answer_calm u _ _).keeps.trans (storageEntered_loose _).keeps

theorem execLeaveStorage_sound {s t : State} (h : s.Sane) (e : execLeaveStorage s = .next t) : t.Sound := by
  refine Keeps.done h e (onRequest_keeps s _ _ fun u _ _ => ?_)
  split
  · exact (answer_calm u _ _).keeps
  · exact (answer_calm u _ _).keeps.trans (Keeps.ite (fun _ => (storageLeft_loose _).keeps) fun _ => Keeps.refl _)

theorem execWindPulse_sound {s t : State} (h : s.Sane) (e : execWindPulse s = .next t) : t.Sound := by
  exact Keeps.done h e (Keeps.ite (fun _ => (setMotion_steady s _ (by rfl)).keeps) fun _ => Keeps.refl s)

theorem execMotorCurrentChange_sound {s t : State} (ch : Fin 2) (x : Nat) (h : s.Sane) (e : execMotorCurrentChange ch x s = .next t) : t.Sound := by
  exact Keeps.done h e ((setPins_keeps s _).trans (currentFollows_steady _ ch).keeps)

/-- Every command answers a sound state from a sane one. -/
theorem exec_sound {c : Instr} {s t : State} (h : s.Sane) (e : exec c s = .next t) : t.Sound := by
  cases c with
  | connectReset p => exact execConnectReset_sound p h e
  | restart b => exact execRestart_sound b h e
  | resetReleased p => exact execResetReleased_sound p h e
  | listenTimerExpiry => exact execListenTimerExpiry_sound h e
  | setupTimerExpiry => exact execSetupTimerExpiry_sound h e
  | calibrateTimerExpiry => exact execCalibrateTimerExpiry_sound h e
  | setup => exact execSetup_sound h e
  | setupEnd => exact execSetupEnd_sound h e
  | accountingInterval i v x => exact execAccountingInterval_sound i v x h e
  | shedPeriod => exact execShedPeriod_sound h e
  | supplyPeriod => exact execSupplyPeriod_sound h e
  | frameClose l => exact execFrameClose_sound l h e
  | busSilentTimerExpiry => exact execBusSilentTimerExpiry_sound h e
  | dispatchErrorNote => exact execDispatchErrorNote_sound h e
  | unknownKind => exact execUnknownKind_sound h e
  | noticePassedOver => exact execNoticePassedOver_sound h e
  | requestPassedOver => exact execRequestPassedOver_sound h e
  | requestCodeZero => exact execRequestCodeZero_sound h e
  | peerArrival => exact execPeerArrival_sound h e
  | viewOverflowTimerExpiry => exact execViewOverflowTimerExpiry_sound h e
  | entryAging k => exact execEntryAging_sound k h e
  | entryStale k => exact execEntryStale_sound k h e
  | holdTimerExpiry => exact execHoldTimerExpiry_sound h e
  | engChange b => exact execEngChange_sound b h e
  | localDriveSet => exact execLocalDriveSet_sound h e
  | localDriveClear => exact execLocalDriveClear_sound h e
  | chgavChange b => exact execChgavChange_sound b h e
  | shedReceived => exact execShedReceived_sound h e
  | contestWindowEnd id => exact execContestWindowEnd_sound id h e
  | drawRepeat id => exact execDrawRepeat_sound id h e
  | frameSendStart => exact execFrameSendStart_sound h e
  | arbitrationLost => exact execArbitrationLost_sound h e
  | bitErrorAbort => exact execBitErrorAbort_sound h e
  | frameCompleted => exact execFrameCompleted_sound h e
  | frameNoack => exact execFrameNoack_sound h e
  | probeTimerExpiry => exact execProbeTimerExpiry_sound h e
  | gatherTimeout c => exact execGatherTimeout_sound c h e
  | waterReadingEvent a b c x y z => exact execWaterReadingEvent_sound a b c x y z h e
  | pdemChange b => exact execPdemChange_sound b h e
  | runawayCountExpiry => exact execRunawayCountExpiry_sound h e
  | frostDueTime => exact execFrostDueTime_sound h e
  | circulationTimerExpiry => exact execCirculationTimerExpiry_sound h e
  | dumpfbChange b => exact execDumpfbChange_sound b h e
  | valveFaultTimerExpiry => exact execValveFaultTimerExpiry_sound h e
  | closeDump => exact execCloseDump_sound h e
  | clearPump => exact execClearPump_sound h e
  | tankPeriod k => exact execTankPeriod_sound k h e
  | climateReadingEvent x y => exact execClimateReadingEvent_sound x y h e
  | hrunChange b => exact execHrunChange_sound b h e
  | hfltChange b => exact execHfltChange_sound b h e
  | startTimerExpiry => exact execStartTimerExpiry_sound h e
  | runTimerExpiry => exact execRunTimerExpiry_sound h e
  | purgeTimerExpiry => exact execPurgeTimerExpiry_sound h e
  | setSetpoint => exact execSetSetpoint_sound h e
  | setClimateMode => exact execSetClimateMode_sound h e
  | resetHeater => exact execResetHeater_sound h e
  | climatePeriod z => exact execClimatePeriod_sound z h e
  | extend => exact execExtend_sound h e
  | retract => exact execRetract_sound h e
  | stop => exact execStop_sound h e
  | endStopChange ch w b => exact execEndStopChange_sound ch w b h e
  | dwellTimerExpiry ch => exact execDwellTimerExpiry_sound ch h e
  | travelTimerExpiry ch => exact execTravelTimerExpiry_sound ch h e
  | stallTimerExpiry ch => exact execStallTimerExpiry_sound ch h e
  | backoffTimerExpiry ch => exact execBackoffTimerExpiry_sound ch h e
  | idleTimerExpiry ch => exact execIdleTimerExpiry_sound ch h e
  | calibrationEnd ch x => exact execCalibrationEnd_sound ch x h e
  | windWindowEnd => exact execWindWindowEnd_sound h e
  | windLockoutExpiry => exact execWindLockoutExpiry_sound h e
  | interlockRepeat ch => exact execInterlockRepeat_sound ch h e
  | holdAsserted => exact execHoldAsserted_sound h e
  | holdReleased => exact execHoldReleased_sound h e
  | motionPeriod ch => exact execMotionPeriod_sound ch h e
  | fadeStep ch => exact execFadeStep_sound ch h e
  | setLevel => exact execSetLevel_sound h e
  | allOff => exact execAllOff_sound h e
  | recallScene => exact execRecallScene_sound h e
  | storeScene => exact execStoreScene_sound h e
  | courtesyCountdownExpiry => exact execCourtesyCountdownExpiry_sound h e
  | lightPeriod ch => exact execLightPeriod_sound ch h e
  | statusPeriod => exact execStatusPeriod_sound h e
  | statusCountersPeriod => exact execStatusCountersPeriod_sound h e
  | ackAttention => exact execAckAttention_sound h e
  | enterStorage => exact execEnterStorage_sound h e
  | leaveStorage => exact execLeaveStorage_sound h e
  | windPulse => exact execWindPulse_sound h e
  | motorCurrentChange ch x => exact execMotorCurrentChange_sound ch x h e

end Sys2Proof.Machine

namespace Sys2Proof.Proofs
open Sys2Proof.Machine

/-- Settles O1: `step` on a queue with a front command is its own first equation. -/
theorem stepRunsFrontCommand : Obligations.StepRunsFrontCommand := by
  intro s c rest h
  unfold step
  rw [h]

/-- Settles O4: a command by `exec_sound`, a millisecond by `tick_sound`. -/
theorem soundStep : Obligations.SoundStep := by
  intro s t h e
  unfold step at e
  split at e
  · exact exec_sound (State.Sound.sane (by exact ⟨h.checked, h.lanes, h.queue, h.claims, h.counters, h.extend, h.quiet⟩)) e
  · cases e
    exact tick_sound h

end Sys2Proof.Proofs
end

