-- ==== Sys2Proof/Proofs/Queue.lean ====
section
/-! PROOFS. No operation touches the queue of waiting commands, whatever state it starts from, and every command is done. -/

namespace Sys2Proof.Machine

/-! ### No operation touches the queue -/

/-- `t` has the queue of `s`. -/
def Queued (s t : State) : Prop := t.pending = s.pending

theorem Queued.refl (s : State) : Queued s s := rfl

theorem Queued.trans {s t u : State} (h : Queued s t) (k : Queued t u) : Queued s u := Eq.trans k h

theorem Queued.ite {s a b : State} {p : Prop} [Decidable p] (h : Queued s a) (k : Queued s b) :
    Queued s (if p then a else b) := by
  split
  · exact h
  · exact k

theorem Queued.foldl {α : Type} (f : State → α → State) (h : ∀ s x, Queued s (f s x)) (l : List α) (s : State) :
    Queued s (l.foldl f s) := by
  induction l generalizing s with
  | nil => exact Queued.refl s
  | cons x xs ih => exact (h s x).trans (ih (f s x))

theorem setView_queued (s : State) (v : View) : Queued s (s.setView v) := rfl

theorem setBroker_queued (s : State) (x : Broker) : Queued s (s.setBroker x) := rfl

theorem Shared.queued {s t : State} (h : Shared s t) : Queued s t := by
  unfold Queued
  rw [h]

theorem Warm.queued {s t : State} (h : Warm s t) : Queued s t := Shared.queued (s := { s with climate := t.climate, cell := t.cell }) h

theorem Lit.queued {s t : State} (h : Lit s t) : Queued s t := Shared.queued (s := { s with lights := t.lights }) h

theorem Moved.queued {s t : State} (h : Moved s t) : Queued s t :=
  Shared.queued (s := { s with motion := t.motion, lights := t.lights }) h

theorem Wet.queued {s t : State} (h : Wet s t) : Queued s t :=
  Shared.queued (s := { s with water := t.water, climate := t.climate, cell := t.cell }) h

/-! ### The Peer View -/

theorem hit_queued (s : State) (i : Fin 16) (w : Fin 4) (p : Payload) : Queued s (s.hit i w p) := rfl

theorem fill_queued (s : State) (i : Fin 16) (k : Key) (p : Payload) : Queued s (s.fill i k p) :=
  Queued.ite ((show Queued s _ from rfl).trans (lose_shared _).queued) rfl

theorem arrive_queued (s : State) (n : Nat) (r : Record) : Queued s (s.arrive n r) := by
  unfold State.arrive
  dsimp only
  split
  · exact (read_shared s _).queued.trans (hit_queued _ _ _ _)
  · exact (read_shared s _).queued.trans (fill_queued _ _ _ _)

theorem expel_queued (s : State) (p : Fin 4 → Entry → Bool) (c : Cause) : Queued s (s.expel p c) := rfl

theorem rosterAndPinning_queued (s : State) : Queued s s.rosterAndPinning := by
  unfold State.rosterAndPinning
  refine Queued.trans ?_ (expel_queued _ _ _)
  exact Queued.ite (expel_queued _ _ _) (Queued.refl _)

/-! ### The Broker's reports, the level in force, Storage and drive accepted -/

theorem motionGranted_queued (s : State) (ch : Fin 2) : Queued s (s.motionGranted ch) := (tryStart_moved s ch).queued

theorem lightsYield_queued (s : State) (g : Fin 2) : Queued s (s.lightsYield g) := (requestEnds_lit s g _).queued

theorem report_queued (s : State) (id : Fin 7) (r : Reply) : Queued s (s.report id r) := by
  unfold State.report
  split
  · split
    · exact (heaterGranted_warm s).queued
    · rfl
    · exact (pumpGranted_wet s).queued
    · exact motionGranted_queued s 0
    · exact motionGranted_queued s 1
    · exact (lightsGranted_lit s 0).queued
    · exact (lightsGranted_lit s 1).queued
  · split
    · exact (heaterLost_warm s).queued
    · exact (pumpLost_wet s).queued
    · exact (lightsLost_lit s 0).queued
    · exact (lightsLost_lit s 1).queued
    · rfl
  · exact Queued.ite (heaterWaits_shared s).queued rfl
  · rfl

theorem yieldHeld_queued (s : State) (id : Fin 7) : Queued s (s.yieldHeld id) := by
  unfold State.yieldHeld
  split
  · exact (complete_shared s _).queued.trans (heaterYields_warm _).queued
  · exact (padYields_warm s).queued
  · exact (pumpYields_wet s).queued
  · exact (motionYields_moved s 0).queued
  · exact (motionYields_moved s 1).queued
  · exact (complete_shared s _).queued.trans (lightsYield_queued _ _)
  · exact (complete_shared s _).queued.trans (lightsYield_queued _ _)

theorem lostToLevel_queued (s : State) (id : Fin 7) (r : Reply) : Queued s (s.lostToLevel id r) := by
  unfold State.lostToLevel
  split
  · split
    · exact lightsYield_queued s 0
    · exact lightsYield_queued s 1
    · exact report_queued s id _
  · exact report_queued s id _

theorem yieldOne_queued (s : State) (id : Fin 7) : Queued s (s.yieldOne id) := by
  unfold State.yieldOne
  refine Queued.ite rfl ?_
  split
  · exact yieldHeld_queued s id
  · exact (contestYields_shared s id).queued.trans (lostToLevel_queued _ _ _)
  · rfl

theorem levelFollows_queued (s : State) : Queued s s.levelFollows := by
  unfold State.levelFollows
  dsimp only
  refine (readSupply_shared s).queued.trans ?_
  generalize s.readSupply = u
  have hu := setBroker_queued u { u.broker with level := u.levelNow }
  generalize u.setBroker { u.broker with level := u.levelNow } = v at hu ⊢
  refine Queued.ite (Queued.refl u) (hu.trans (Queued.ite ?_ ?_))
  · refine Queued.trans ?_ (courtesyResumes_lit _).queued
    refine Queued.trans ?_ (ceilingFollows_lit _).queued
    exact Queued.foldl _ yieldOne_queued _ _
  · refine Queued.trans ?_ (retest_shared _).queued
    refine Queued.trans ?_ (ceilingFollows_lit _).queued
    exact Queued.ite ((lightsRestored_shared _ _).queued.trans (lightsRestored_shared _ _).queued) (Queued.refl _)

theorem supplyChanged_queued (s : State) : Queued s s.supplyChanged := by
  unfold State.supplyChanged
  dsimp only
  refine Queued.trans ?_ (padFollows_warm _).queued
  refine (readSupply_shared s).queued.trans ?_
  generalize s.readSupply = u
  have hu := (setBroker_queued u { u.broker with usable := u.usable }).trans (levelFollows_queued _)
  exact Queued.ite (hu.trans (retest_shared _).queued) hu

theorem storageEntered_queued (s : State) : Queued s s.storageEntered := by
  unfold State.storageEntered
  refine Queued.trans ?_ (extendEndsInStorage_moved _ _).queued
  refine Queued.trans ?_ (extendEndsInStorage_moved _ _).queued
  refine Queued.trans ?_ (courtesyResumes_lit _).queued
  refine Queued.trans ?_ (ceilingFollows_lit _).queued
  refine Queued.trans ?_ (modeChanged_warm _).queued
  refine Queued.trans ?_ (requestEndsInStorage_lit _ _).queued
  refine Queued.trans ?_ (requestEndsInStorage_lit _ _).queued
  rfl

theorem storageLeft_queued (s : State) : Queued s s.storageLeft := by
  unfold State.storageLeft
  refine Queued.trans ?_ (ceilingFollows_lit _).queued
  refine Queued.trans ?_ (modeChanged_warm _).queued
  refine Queued.trans ?_ (retest_shared _).queued
  rfl

theorem driveFollows_queued (s : State) : Queued s s.driveFollows := by
  unfold State.driveFollows
  dsimp only
  refine (readAll_shared s fun e => e.kind == .status).queued.trans ?_
  generalize (s.readAll fun e => e.kind == .status) = u
  have hu := setView_queued u { u.view with driveAccepted := u.driveNow }
  generalize u.setView { u.view with driveAccepted := u.driveNow } = v at hu ⊢
  have hv : Queued v (if v.seq.fns.motion then v.motionSeesDrive else v) :=
    Queued.ite (motionSeesDrive_moved v).queued (Queued.refl v)
  exact Queued.ite (Queued.refl u) (hu.trans (Queued.ite (hv.trans (storageLeft_queued _)) hv))

/-! ### The end of a step -/

theorem reactTo_queued (s : State) (c : ViewChange) : Queued s (s.reactTo c) := by
  unfold State.reactTo
  split
  · refine Queued.trans ?_ (padFollows_warm _).queued
    exact Queued.ite (driveFollows_queued s) (Queued.refl s)
  · refine Queued.ite ?_ (Queued.refl s)
    refine Queued.trans ?_ (supplyChanged_queued _)
    exact Queued.ite (setBroker_queued s _) (Queued.refl s)
  · exact Queued.ite (retest_shared s).queued (Queued.refl s)
  · exact (frostService_warm s).queued
  · exact (courtesyFollows_lit s _).queued
  · rfl

theorem tellChanges_queued (n : Nat) (s : State) : Queued s (s.tellChanges n) := by
  induction n generalizing s with
  | zero => rfl
  | succ n ih =>
    unfold State.tellChanges
    split
    · rfl
    · refine Queued.trans ?_ (ih _)
      exact (setView_queued s _).trans (reactTo_queued _ _)

theorem Hands.queued {s t : State} (h : Hands s t) : Queued s t := by
  unfold Queued
  rw [h.rest]
  rfl

theorem publish_queued (was s : State) : Queued s (State.publish was s) := by
  unfold State.publish
  dsimp only
  have h : Queued s s.tellReaders := tellChanges_queued _ s
  refine h.trans ?_
  generalize s.tellReaders = u
  have hu : Queued u (if u.publishes then State.handOver was u else u) :=
    Queued.ite (handOver_hands was u).queued (Queued.refl u)
  exact hu

/-! ### The commands -/

/-- A command that is done and has not touched the queue. -/
def Completes (s : State) (o : Host.Outcome State Fault Refusal) : Prop := ∃ t, o = .next t ∧ t.pending = s.pending

theorem Queued.completes {s u : State} (h : Queued s u) : Completes s (done s u) :=
  ⟨_, rfl, h.trans (publish_queued s u)⟩

/-- The part of a command that acts only under a condition. -/
theorem Queued.act {s u : State} {p : Prop} [Decidable p] (h : Queued s u) : Queued s (if p then u else s) :=
  h.ite (Queued.refl s)

theorem dispatch_queued (s : State) (p : Record → Bool) (f : State → Nat → Record → State)
    (h : ∀ u n r, Queued u (f u n r)) : Queued s (s.dispatch p f) := by
  unfold State.dispatch
  refine Queued.ite (Queued.refl s) ?_
  split
  · exact Queued.refl s
  · refine Queued.act ?_
    exact Queued.ite rfl ((show Queued s (s.setBus _) from rfl).trans (h _ _ _))

theorem onRequest_queued (s : State) (code : Nat) (f : State → Nat → Int → State) (h : ∀ u n v, Queued u (f u n v)) :
    Queued s (s.onRequest code f) := dispatch_queued s _ _ fun u _ _ => h u _ _

/-- A request that is answered, whatever it is, with the queue as it was. -/
theorem refused_queued {s : State} {code : Nat} {r : Option Nat} {u : State} (h : Queued s u) :
    Queued s (match r with
      | some o => s.answer code o
      | none => u) := by
  split
  · rfl
  · exact h

theorem motionRequest_queued (s : State) (code : Nat) (f : State → Fin 2 → State) (h : ∀ u ch, Queued u (f u ch)) :
    Queued s (s.motionRequest code f) := by
  refine onRequest_queued s code _ fun u n v => ?_
  split
  · rfl
  · split
    · rfl
    · exact h u _

theorem calibrateEntered_queued (s : State) : Queued s s.calibrateEntered := by
  unfold State.calibrateEntered
  refine Queued.trans ?_ (Queued.act (by exact rfl))
  refine Queued.trans ?_ (Queued.act (by exact rfl))
  refine Queued.trans ?_ (Queued.act (by exact rfl))
  refine Queued.trans ?_ (Queued.act (by exact rfl))
  rfl

theorem setupEnds_queued (s : State) : Queued s s.setupEnds := by
  unfold State.setupEnds
  refine Queued.trans ?_ (calibrateEntered_queued _)
  refine Queued.trans ?_ (rosterAndPinning_queued _)
  exact Queued.trans (show Queued s (s.setSeq _) from rfl) (Queued.act (by exact rfl))

theorem runEntryNotices_queued (s : State) : Queued s s.runEntryNotices :=
  Queued.foldl _ (fun s n => Queued.act ((hand_shared s _ _).queued.trans (raiseAttention_shared _ _ _).queued)) _ s

theorem waterEntersRun_queued (s : State) : Queued s s.waterEntersRun := by
  unfold State.waterEntersRun
  refine Queued.act ?_
  refine Queued.trans ?_ (demandFollows_wet _).queued
  refine Queued.trans ?_ (Queued.act ((timing_wet _ _).queued.trans (takeDue_wet _).queued))
  rfl

theorem runEntered_queued (s : State) : Queued s s.runEntered := by
  unfold State.runEntered
  refine Queued.trans ?_ (courtesyFollows_lit _ _).queued
  refine Queued.trans ?_ (ceilingFollows_lit _).queued
  refine Queued.trans ?_ (Queued.act (motionEntersRun_moved _).queued)
  refine Queued.trans ?_ (padFollows_warm _).queued
  refine Queued.trans ?_ (heaterFollows_warm _).queued
  refine Queued.trans ?_ (frostService_warm _).queued
  refine Queued.trans ?_ (waterEntersRun_queued _)
  refine Queued.trans ?_ (runEntryNotices_queued _)
  rfl

theorem released_queued (s : State) (p : Straps) : Queued s (s.released p) := by
  unfold State.released
  dsimp only
  refine Queued.trans ?_ (Queued.act (monitor_shared _ _ _).queued)
  refine Queued.trans ?_ (Queued.act (by exact rfl))
  refine Queued.trans ?_ (Queued.act (by exact rfl))
  rfl

theorem handChange_queued (s : State) (n : Fin 19) (a b : Bool) : Queued s (s.handChange n a b) :=
  Queued.ite (Queued.refl s) (monitor_shared s _ _).queued

theorem accountingInterval_queued (s : State) (i v t : Int) : Queued s (s.accountingInterval i v t) := by
  unfold State.accountingInterval State.intervalEnds
  refine Queued.trans ?_ (supplyChanged_queued _)
  refine Queued.trans (t := State.handChange _ _ _ _) ?_ rfl
  refine Queued.trans ?_ (handChange_queued _ _ _ _)
  refine Queued.trans ?_ (handChange_queued _ _ _ _)
  refine Queued.trans (t := State.readAll _ _) ?_ rfl
  refine Queued.trans ?_ (readAll_shared _ _).queued
  refine Queued.trans ?_ (handChange_queued _ _ _ _)
  refine Queued.trans ?_ (handChange_queued _ _ _ _)
  rfl

theorem frameCloses_queued (s : State) (r : Reception) : Queued s (s.frameCloses r) := by
  unfold State.frameCloses State.heardGood
  split
  · exact Queued.trans (show Queued s (State.setBus _ _) from rfl) (Queued.ite (monitor_shared _ _ _).queued (Queued.refl _))
  · rfl

theorem receives_queued (s : State) (l : List Bit) : Queued s (s.receives l) := by
  unfold State.receives
  refine Queued.ite (Queued.refl s) ?_
  split
  · exact frameCloses_queued s _
  · exact Queued.refl s

theorem startsSending_queued (s : State) : Queued s s.startsSending := by
  unfold State.startsSending
  refine Queued.ite (Queued.refl s) ?_
  split
  · rfl
  · rfl

theorem reportCompleted_queued (s : State) (l : List Tagged) : Queued s (s.reportCompleted l) :=
  Queued.foldl _ (fun s t => by
    split
    · exact (announced_shared s _ _).queued
    · exact Queued.refl s) _ s

theorem reportFailed_queued (s : State) (l : List Tagged) : Queued s (s.reportFailed l) :=
  Queued.foldl _ (fun s t => by
    split
    · exact (announceFailed_shared s _ _).queued.trans (report_queued _ _ _)
    · exact Queued.refl s) _ s

theorem declareLineFault_queued (s : State) : Queued s s.declareLineFault := by
  unfold State.declareLineFault
  refine Queued.trans ?_ (reportFailed_queued _ _)
  refine Queued.trans ?_ (monitor_shared _ _ _).queued
  rfl

theorem clearLineFault_queued (s : State) : Queued s s.clearLineFault := by
  unfold State.clearLineFault
  refine Queued.trans ?_ (retest_shared _).queued
  refine Queued.trans ?_ (Queued.act rfl)
  refine Queued.trans ?_ (monitor_shared _ _ _).queued
  rfl

theorem countCompleted_queued (s : State) (p : Bool) : Queued s (s.countCompleted p) := by
  unfold State.countCompleted
  refine Queued.trans (t := s.setBus { s.bus with failed := 0 }) rfl (Queued.act (Queued.ite ?_ rfl))
  exact clearLineFault_queued _

theorem countFailed_queued (s : State) (p : Bool) : Queued s (s.countFailed p) := by
  unfold State.countFailed
  refine Queued.trans ?_ (Queued.act (declareLineFault_queued _))
  rfl

theorem frameCompleted_queued (s : State) : Queued s s.frameCompleted := by
  unfold State.frameCompleted
  split
  · refine Queued.trans ?_ (show Queued _ (State.builds _) from rfl)
    refine Queued.trans ?_ (countCompleted_queued _ _)
    refine Queued.trans ?_ (reportCompleted_queued _ _)
    rfl
  · rfl

theorem frameFailed_queued (s : State) : Queued s s.frameFailed := by
  unfold State.frameFailed
  split
  · refine Queued.trans ?_ (show Queued _ (State.builds _) from rfl)
    refine Queued.trans ?_ (countFailed_queued _ _)
    refine Queued.trans ?_ (reportFailed_queued _ _)
    rfl
  · rfl

theorem probeDue_queued (s : State) : Queued s s.probeDue := by
  unfold State.probeDue State.buildProbe
  refine Queued.trans ?_ (Queued.ite (Queued.refl _) (by exact rfl))
  rfl

theorem purgeEnds_queued (s : State) : Queued s s.purgeEnds := by
  unfold State.purgeEnds
  refine Queued.trans ?_ (Queued.act (askHeater_warm _).queued)
  refine Queued.trans ?_ (release_shared _ _).queued
  rfl

theorem climateReads_queued (s : State) (x y : Int) : Queued s (s.climateReads x y) := by
  unfold State.climateReads
  refine Queued.trans ?_ (Queued.act ((setCall_warm _).trans ((countCall_warm _).trans (heaterFollows_warm _))).queued)
  rfl

theorem takeSetpoint_queued (s : State) (z : Fin 2) (v : Int) : Queued s (s.takeSetpoint z v) := by
  unfold State.takeSetpoint
  refine Queued.trans ?_ (heaterFollows_warm _).queued
  refine Queued.trans ?_ (setCall_warm _).queued
  rfl

theorem takeMode_queued (s : State) (m : ClimateMode) : Queued s (s.takeMode m) := by
  unfold State.takeMode
  refine Queued.ite (Queued.refl s) ?_
  refine Queued.trans ?_ (modeChanged_warm _).queued
  rfl

theorem heaterResets_queued (s : State) : Queued s s.heaterResets := by
  unfold State.heaterResets
  refine Queued.trans ?_ (heaterFollows_warm _).queued
  refine Queued.trans ?_ (Queued.act ((setCell_warm _ _).queued.trans (monitor_shared _ _ _).queued))
  rfl

theorem requestGroup_lit (s : State) (g : Fin 2) (t : Tab 4 Nat) (n : Nat) : Lit s (s.requestGroup g t n) :=
  (abandonRequest_lit s g).trans (changeGroup_lit _ g t n)

theorem takeLevel_queued (s : State) (ch : Fin 8) (v : Int) : Queued s (s.takeLevel ch v) := by
  unfold State.takeLevel
  refine Queued.trans ?_ (courtesyResumes_lit _).queued
  refine Queued.trans ?_ (answer_shared _ _ _).queued
  refine Queued.trans ?_ (requestGroup_lit _ _ _ _).queued
  exact Queued.act rfl

theorem takeAllOff_queued (s : State) : Queued s s.takeAllOff := by
  unfold State.takeAllOff
  refine Queued.trans ?_ (answer_shared _ _ _).queued
  refine Queued.trans ?_ (takeTargets_lit _ _ _).queued
  refine Queued.trans ?_ (takeTargets_lit _ _ _).queued
  refine Queued.trans ?_ (abandonRequest_lit _ _).queued
  refine Queued.trans ?_ (abandonRequest_lit _ _).queued
  rfl

theorem takeScene_queued (s : State) (n : Fin 4) : Queued s (s.takeScene n) := by
  unfold State.takeScene
  refine Queued.trans ?_ (courtesyResumes_lit _).queued
  refine Queued.trans ?_ (answer_shared _ _ _).queued
  refine Queued.trans ?_ (requestGroup_lit _ _ _ _).queued
  refine Queued.trans ?_ (requestGroup_lit _ _ _ _).queued
  rfl

theorem courtesyReturns_queued (s : State) : Queued s s.courtesyReturns := by
  unfold State.courtesyReturns
  dsimp only
  split
  · exact (setLights_lit s _).queued.trans (courtesyChange_lit _ _ _).queued
  · rfl

theorem takeShed_queued (s : State) (n : Nat) (r : Record) : Queued s (s.takeShed n r) := by
  unfold State.takeShed
  split
  · refine (readAll_shared s _).queued.trans (Queued.act ?_)
    exact (setBroker_queued _ _).trans (levelFollows_queued _)
  · rfl

theorem closesDump_queued (s : State) : Queued s s.closesDump :=
  Queued.act ((setWater_wet s _).queued.trans ((valveTiming_wet _).queued.trans (valveFollows_wet _).queued))

theorem takeExtend_queued (s : State) (code : Nat) (ch : Fin 2) : Queued s (s.takeExtend code ch) := by
  unfold State.takeExtend
  dsimp only
  split
  · rfl
  · split <;> rfl
  · exact Queued.ite rfl ((answer_shared s _ _).queued.trans (brake_moved _ _ _ _ _).queued)
  · exact Queued.ite rfl ((answer_shared s _ _).queued.trans (brake_moved _ _ _ _ _).queued)
  · exact Queued.ite rfl ((answer_shared s _ _).queued.trans (takePending_moved _ _ _ _).queued)

theorem takeRetract_queued (s : State) (code : Nat) (ch : Fin 2) : Queued s (s.takeRetract code ch) := by
  have a : ∀ o, Queued s (s.answer code o) := fun _ => rfl
  unfold State.takeRetract
  dsimp only
  split
  · exact a _
  · exact a _
  · exact (a _).trans (backoffRetracts_moved _ _ _).queued
  · exact (a _).trans (brake_moved _ _ _ _ _).queued
  · split
    · exact a _
    · exact a _
    · exact a _
    · refine (a _).trans ((modChan_moved _ _ _).queued.trans (Queued.ite ?_ (Queued.refl _)))
      exact (rerank_shared _ _ _).queued
  · exact (a _).trans (takePending_moved _ _ _ _).queued

theorem takeStop_queued (s : State) (code : Nat) (ch : Fin 2) : Queued s (s.takeStop code ch) := by
  have a : ∀ o, Queued s (s.answer code o) := fun _ => rfl
  unfold State.takeStop
  dsimp only
  refine Queued.ite (a _) (Queued.ite (a _) ((a _).trans (Queued.ite (brake_moved _ _ _ _ _).queued (Queued.ite ?_ ?_))))
  · split
    · exact (modChan_moved _ _ _).queued.trans (release_shared _ _).queued
    · exact (modChan_moved _ _ _).queued.trans (release_shared _ _).queued
    · exact Queued.refl _
  · exact Queued.ite (Queued.refl _) ((modChan_moved _ _ _).queued.trans (release_shared _ _).queued)

theorem stopsFollow_queued (s : State) (ch : Fin 2) : Queued s (s.stopsFollow ch) := by
  unfold State.stopsFollow
  dsimp only
  refine Queued.ite (Queued.act (arriveAt_moved s ch).queued) (Queued.act (Queued.ite (Queued.refl s) ?_))
  refine Queued.trans ?_ (Queued.act (needDue_moved _ _).queued)
  exact (modChan_moved s ch _).queued.trans (stepSeen_lit _ _).queued

theorem holdFollows_queued (s : State) (ch : Fin 2) : Queued s (s.holdFollows ch) := by
  unfold State.holdFollows
  dsimp only
  refine Queued.ite (Queued.act ?_) (Queued.act ?_)
  · refine Queued.trans ?_ (Queued.act (modChan_moved _ _ _).queued)
    exact (reviseOutcome_shared s _ _).queued.trans (brake_moved _ _ _ _ _).queued
  · split
    · exact (endPending_moved s ch _).queued
    · exact (release_shared s _).queued
    · exact Queued.refl s

theorem windWindowEnds_queued (s : State) : Queued s s.windWindowEnds := by
  unfold State.windWindowEnds State.windLockoutBegins
  refine (setMotion_moved s _).queued.trans (Queued.act ?_)
  refine Queued.trans ?_ (needDue_moved _ _).queued
  exact (setMotion_moved _ _).queued.trans (Queued.ite (Queued.refl _) (monitor_shared _ _ _).queued)

theorem calibrated_queued (s : State) (ch : Fin 2) : Queued s (s.calibrated ch) := by
  unfold State.calibrated
  exact (modChan_moved s ch _).queued.trans (actOnPending_moved _ _).queued

theorem setPins_queued (s : State) (p : Pins) : Queued s (s.setPins p) := rfl

/-- Every command is done, and takes nothing from and adds nothing to the queue. -/
theorem exec_completes (c : Instr) (s : State) : Completes s (exec c s) := by
  cases c with
  | connectReset p => exact Queued.completes (s := s) (u := s.connects p) rfl
  | restart b => exact Queued.completes (s := s) (u := s.restarts b) rfl
  | resetReleased p => exact Queued.completes (Queued.act (released_queued s p))
  | listenTimerExpiry => exact Queued.completes (Queued.act (by exact rfl))
  | setupTimerExpiry => exact Queued.completes (Queued.act (setupEnds_queued s))
  | calibrateTimerExpiry => exact Queued.completes (Queued.act (runEntered_queued s))
  | setup =>
    refine Queued.completes (dispatch_queued s _ _ fun u _ r => ?_)
    unfold State.setupHandled State.takeSetup
    exact Queued.ite (Queued.refl u) (Queued.ite rfl (by split <;> rfl))
  | setupEnd => exact Queued.completes (dispatch_queued s _ _ fun u _ _ => setupEnds_queued u)
  | accountingInterval i v t => exact Queued.completes (Queued.act (accountingInterval_queued s i v t))
  | shedPeriod => exact Queued.completes (Queued.act (by exact rfl))
  | supplyPeriod => exact Queued.completes (Queued.act (by exact rfl))
  | frameClose l => exact Queued.completes (receives_queued s l)
  | busSilentTimerExpiry =>
    exact Queued.completes (Queued.act ((show Queued s (s.setBus _) from rfl).trans (monitor_shared _ _ _).queued))
  | dispatchErrorNote => exact Queued.completes (by split <;> rfl)
  | unknownKind => exact Queued.completes (dispatch_queued s _ _ fun _ _ _ => rfl)
  | noticePassedOver => exact Queued.completes (dispatch_queued s _ _ fun _ _ _ => rfl)
  | requestPassedOver => exact Queued.completes (dispatch_queued s _ _ fun _ _ _ => rfl)
  | requestCodeZero => exact Queued.completes (onRequest_queued s _ _ fun _ _ _ => rfl)
  | peerArrival => exact Queued.completes (dispatch_queued s _ _ fun u n r => arrive_queued u n r)
  | viewOverflowTimerExpiry =>
    exact Queued.completes (Queued.act ((setView_queued s _).trans
      ((monitor_shared _ _ _).queued.trans (retest_shared _).queued)))
  | entryAging k => exact Queued.completes (s := s) (u := s.entryAges k) rfl
  | entryStale k => exact Queued.completes (s := s) (u := s.entryGoesStale k) rfl
  | holdTimerExpiry => exact Queued.completes (Queued.act (by exact rfl))
  | engChange b =>
    refine Queued.completes (Queued.ite (Queued.refl s) (Queued.ite rfl ?_))
    refine Queued.trans ?_ (padFollows_warm _).queued
    rfl
  | localDriveSet =>
    exact Queued.completes (Queued.act ((setView_queued s _).trans (driveFollows_queued _)))
  | localDriveClear =>
    exact Queued.completes (Queued.act ((setView_queued s _).trans (driveFollows_queued _)))
  | chgavChange b =>
    exact Queued.completes ((setPins_queued s _).trans (padFollows_warm _).queued)
  | shedReceived => exact Queued.completes (dispatch_queued s _ _ fun u n r => takeShed_queued u n r)
  | contestWindowEnd id =>
    exact Queued.completes (Queued.act ((windowEnd_shared s id).queued.trans (report_queued _ _ _)))
  | drawRepeat id => exact Queued.completes (Queued.act (handDraw_shared s id).queued)
  | frameSendStart => exact Queued.completes (startsSending_queued s)
  | arbitrationLost => exact Queued.completes (s := s) (u := s.stopsSending) rfl
  | bitErrorAbort => exact Queued.completes (frameFailed_queued s)
  | frameCompleted => exact Queued.completes (frameCompleted_queued s)
  | frameNoack => exact Queued.completes (frameFailed_queued s)
  | probeTimerExpiry => exact Queued.completes (Queued.act (probeDue_queued s))
  | gatherTimeout c => exact Queued.completes (Queued.act (by exact rfl))
  | waterReadingEvent a b c x y z =>
    exact Queued.completes (Queued.act ((setWater_wet s _).queued.trans (waterReads_wet _ _ _ _ _ _ _).queued))
  | pdemChange b =>
    exact Queued.completes ((setPins_queued s _).trans (demandFollows_wet _).queued)
  | runawayCountExpiry =>
    exact Queued.completes (Queued.act ((setWater_wet s _).queued.trans ((pumpReleased_wet _).queued.trans
      ((monitor_shared _ _ _).queued.trans (demandFollows_wet _).queued))))
  | frostDueTime => exact Queued.completes (Queued.act (takeDue_wet s).queued)
  | circulationTimerExpiry => exact Queued.completes (Queued.act (cycleCompleted_wet s).queued)
  | dumpfbChange b =>
    refine Queued.completes (Queued.ite (Queued.refl s) ?_)
    exact (setPins_queued s _).trans
      (Queued.act ((valveTiming_wet _).queued.trans (valveFollows_wet _).queued))
  | valveFaultTimerExpiry =>
    exact Queued.completes (Queued.act ((setWater_wet s _).queued.trans
      (Queued.ite (Queued.refl _) (monitor_shared _ _ _).queued)))
  | closeDump =>
    exact Queued.completes (onRequest_queued s _ _ fun u _ _ =>
      refused_queued (Queued.ite rfl ((answer_shared u _ _).queued.trans (closesDump_queued _))))
  | clearPump =>
    exact Queued.completes (onRequest_queued s _ _ fun u _ _ => refused_queued ((answer_shared u _ _).queued.trans
      (Queued.act ((setWater_wet _ _).queued.trans ((monitor_shared _ _ _).queued.trans (demandFollows_wet _).queued)))))
  | tankPeriod k => exact Queued.completes (Queued.act (by exact rfl))
  | climateReadingEvent x y => exact Queued.completes (Queued.act (climateReads_queued s x y))
  | hrunChange b =>
    refine Queued.completes ((setPins_queued s { s.pins with hrun := b }).trans ?_)
    dsimp only
    split
    · exact (enterRunning_warm _).queued
    · exact Queued.ite (Queued.refl _) (heaterFails_warm _).queued
    · exact Queued.refl _
  | hfltChange b =>
    refine Queued.completes ((setPins_queued s { s.pins with hflt := b }).trans ?_)
    dsimp only
    split
    · exact (heaterFails_warm _).queued
    · exact (heaterFails_warm _).queued
    · exact Queued.refl _
  | startTimerExpiry => exact Queued.completes (Queued.act (heaterFails_warm s).queued)
  | runTimerExpiry => exact Queued.completes (Queued.act (by exact rfl))
  | purgeTimerExpiry => exact Queued.completes (Queued.act (purgeEnds_queued s))
  | setSetpoint =>
    refine Queued.completes (onRequest_queued s _ _ fun u _ _ => refused_queued ?_)
    split
    · rfl
    · exact (answer_shared u _ _).queued.trans (takeSetpoint_queued _ _ _)
  | setClimateMode =>
    refine Queued.completes (onRequest_queued s _ _ fun u _ _ => refused_queued ?_)
    split
    · rfl
    · exact Queued.ite rfl ((answer_shared u _ _).queued.trans (takeMode_queued _ _))
  | resetHeater =>
    exact Queued.completes (onRequest_queued s _ _ fun u _ _ =>
      refused_queued ((answer_shared u _ _).queued.trans (heaterResets_queued _)))
  | climatePeriod z => exact Queued.completes (Queued.act (by exact rfl))
  | extend =>
    exact Queued.completes (motionRequest_queued s _ _ fun u ch => by
      split
      · rfl
      · exact takeExtend_queued u _ ch)
  | retract => exact Queued.completes (motionRequest_queued s _ _ fun u ch => takeRetract_queued u _ ch)
  | stop => exact Queued.completes (motionRequest_queued s _ _ fun u ch => takeStop_queued u _ ch)
  | endStopChange ch w b =>
    exact Queued.completes ((setPins_queued s _).trans (Queued.act (stopsFollow_queued _ _)))
  | dwellTimerExpiry ch => exact Queued.completes (Queued.act (dwellEnds_moved s ch).queued)
  | travelTimerExpiry ch =>
    exact Queued.completes (Queued.act ((brake_moved s ch _ _ _).queued.trans (declareTravelFault_moved _ _).queued))
  | stallTimerExpiry ch => exact Queued.completes (Queued.act (stalls_moved s ch).queued)
  | backoffTimerExpiry ch => exact Queued.completes (Queued.act (brake_moved s ch _ _ _).queued)
  | idleTimerExpiry ch => exact Queued.completes (Queued.act (modChan_moved s ch _).queued)
  | calibrationEnd ch x =>
    exact Queued.completes (Queued.act ((setPins_queued s _).trans (calibrated_queued _ _)))
  | windWindowEnd => exact Queued.completes (Queued.act (windWindowEnds_queued s))
  | windLockoutExpiry =>
    exact Queued.completes (Queued.act ((setMotion_moved s _).queued.trans
      ((monitor_shared _ _ _).queued.trans (needEnds_moved _ _).queued)))
  | interlockRepeat ch => exact Queued.completes (Queued.act (by exact rfl))
  | holdAsserted =>
    refine Queued.completes (Queued.ite (Queued.refl s) ?_)
    exact (setPins_queued s _).trans
      (Queued.act ((holdFollows_queued _ _).trans (holdFollows_queued _ _)))
  | holdReleased =>
    refine Queued.completes (Queued.act ?_)
    exact (setPins_queued s _).trans
      (Queued.act ((actOnPending_moved _ _).queued.trans (actOnPending_moved _ _).queued))
  | motionPeriod ch => exact Queued.completes (Queued.act (by exact rfl))
  | fadeStep ch =>
    exact Queued.completes (Queued.act ((setLight_lit s ch _).queued.trans (amend_shared _ _).queued))
  | setLevel =>
    refine Queued.completes (onRequest_queued s _ _ fun u _ _ => ?_)
    split
    · rfl
    · exact refused_queued (takeLevel_queued u _ _)
  | allOff => exact Queued.completes (onRequest_queued s _ _ fun u _ _ => refused_queued (takeAllOff_queued u))
  | recallScene =>
    refine Queued.completes (onRequest_queued s _ _ fun u _ _ => ?_)
    split
    · rfl
    · exact refused_queued (takeScene_queued u _)
  | storeScene =>
    refine Queued.completes (onRequest_queued s _ _ fun u _ _ => ?_)
    split
    · rfl
    · exact refused_queued (by exact rfl)
  | courtesyCountdownExpiry => exact Queued.completes (Queued.act (courtesyReturns_queued s))
  | lightPeriod ch => exact Queued.completes (Queued.act (by exact rfl))
  | statusPeriod => exact Queued.completes (Queued.act (by exact rfl))
  | statusCountersPeriod => exact Queued.completes (Queued.act (by exact rfl))
  | ackAttention =>
    exact Queued.completes (onRequest_queued s _ _ fun u _ _ => refused_queued (by exact rfl))
  | enterStorage =>
    exact Queued.completes (onRequest_queued s _ _ fun u _ _ => refused_queued (Queued.ite rfl (Queued.ite rfl
      ((answer_shared u _ _).queued.trans (storageEntered_queued _)))))
  | leaveStorage =>
    exact Queued.completes (onRequest_queued s _ _ fun u _ _ => refused_queued
      ((answer_shared u _ _).queued.trans (Queued.act (storageLeft_queued _))))
  | windPulse => exact Queued.completes (Queued.act (by exact rfl))
  | motorCurrentChange ch x =>
    exact Queued.completes ((setPins_queued s _).trans (Queued.act (modChan_moved _ _ _).queued))

end Sys2Proof.Machine

namespace Sys2Proof.Proofs
open Sys2Proof.Machine

/-- Settles O3, command by command: `exec_completes`. -/
theorem everyCommandCompletes : Obligations.EveryCommandCompletes := fun c s => exec_completes c s

end Sys2Proof.Proofs
end

