-- ==== Sys2Proof/Proofs/Clock.lean ====
section
/-! PROOFS. A millisecond without a command, field by field, and the state after reset. -/

namespace Sys2Proof.Machine

/-! ### A millisecond -/

theorem tickTimer_eq (x : Timer) : tickTimer x = x.map (· - 1) := rfl

theorem tick_claim (s : State) (id : Fin 7) :
    s.tick.claim id = { s.claim id with window := tickTimer (s.claim id).window } :=
  Tab.get_map s.broker.claims Claim.tick id

theorem tick_light (s : State) (ch : Fin 8) :
    s.tick.light ch = { s.light ch with stepTimer := tickTimer (s.light ch).stepTimer } :=
  Tab.get_map s.lights.chans Light.tick ch

theorem tick_way (s : State) (i : Fin 16) (w : Fin 4) :
    ((s.tick.view.sets.get i).ways.get w) = ((s.view.sets.get i).ways.get w).tick := by
  simp only [State.tick, View.tick, Tab.get_map]

/-- A channel adds its sensed current while it calibrates (R137). -/
theorem Chan.tick_calSum (c : Chan) (sensed : Nat) :
    (c.tick sensed).calSum = c.calSum + if c.calTimer.any (0 < ·) = true then sensed else 0 := by
  unfold Chan.tick
  dsimp only
  split
  · rfl
  · exact (Nat.add_zero _).symm

/-- A millisecond changes an entry's age and check at most. -/
theorem Entry.tick_eq (e : Entry) : e.tick = { e with age := e.tick.age, check := e.tick.check } := by
  unfold Entry.tick
  split
  · rfl
  · rfl

theorem Entry.tick_age_of_room {e : Entry} (v : e.valid = true) (l : e.fresh.live = true) (h : e.age < e.ageLimit) :
    e.tick.age = e.age + 1 := by
  unfold Entry.tick
  rw [if_pos (by simp [v, l, h])]
  rfl

theorem Entry.tick_of_not_live {e : Entry} (l : e.fresh.live = false) : e.tick = e := by
  unfold Entry.tick
  rw [if_neg (by simp [l])]

end Sys2Proof.Machine

namespace Sys2Proof.Proofs
open Sys2Proof.Machine

/-- Settles O2: with an empty queue `step` is `State.tick`, whose fields are read off block by block. -/
theorem idleStepIsAMillisecond : Obligations.IdleStepIsAMillisecond := by
  intro s h
  refine ⟨s.tick, by unfold step; rw [h], ?_⟩
  refine ⟨rfl, rfl, rfl, rfl, rfl, rfl, rfl, tick_claim s, rfl, fun ch => ?_, rfl, tick_light s, rfl, rfl, rfl, rfl,
    fun _ => Tab.get_map _ _ _, fun _ => Tab.get_map _ _ _, fun _ => Tab.get_map _ _ _,
    fun _ => ⟨Tab.get_map _ _ _, Tab.get_map _ _ _⟩, fun _ => Tab.get_map _ _ _, rfl, fun i => ?_⟩
  · rw [tick_chan, ← Chan.tick_calSum]
    rfl
  · have sets : s.tick.view.sets.get i
        = { s.view.sets.get i with ways := (s.view.sets.get i).ways.map Entry.tick } := Tab.get_map _ _ _
    refine ⟨by rw [sets], by rw [sets], by rw [sets], fun w => ?_⟩
    dsimp only
    rw [tick_way]
    generalize (s.view.sets.get i).ways.get w = e
    have same := e.tick_eq
    refine ⟨by rw [same], ?_, by rw [same], by rw [same], by rw [same], by rw [same], ?_, ?_, ?_⟩
    · rw [same]; rfl
    · intro v f k
      refine Entry.tick_age_of_room v (by rw [f]; rfl) ?_
      simp only [Entry.ageLimit, f]
      omega
    · intro v f k
      refine Entry.tick_age_of_room v (by rw [f]; rfl) ?_
      simp only [Entry.ageLimit, f]
      omega
    · intro f
      rw [Entry.tick_of_not_live]
      rcases f with f | f <;> rw [f] <;> rfl

/-- Settles O5: the state after reset meets the executable form of the invariant. -/
theorem fitsAtReset : Obligations.FitsAtReset := Tests.fits_of (by decide +kernel)

/-- Settles O12, clause by clause on the state after reset. -/
theorem afterReset : Obligations.AfterReset := by
  unfold Obligations.AfterReset State.shows State.outputsOff
  dsimp only
  decide +kernel

end Sys2Proof.Proofs
end

