-- ==== Sys2Proof/Proofs/Resets.lean ====
section
/-! PROOFS. The two resets (R183): the part they leave hands nothing over, so that every clause is read off `State.inResetWith`. -/

namespace Sys2Proof.Machine

/-! ### Resets -/

/-- A part in reset hands nothing over: the end of the step leaves it as it is. -/
theorem publish_inResetWith (was s : State) (r : Bool) (n : Nat) (f : Functions) (c : Cell) :
    State.publish was (s.inResetWith r n f c) = s.inResetWith r n f c :=
  publish_rest was _ rfl rfl rfl (by simp [State.motionRuns, State.inRun, State.inResetWith, Seq.reset]) rfl rfl

theorem MState.atReset_eq (er ee : Bool) :
    MState.atReset er ee = if er = ee then .unknown else if er = true then .retracted else .extended := by
  cases er <;> cases ee <;> rfl

/-- Where the stops put a channel at a reset (R146). -/
theorem Motion.reset_chan (p : Pins) (ch : Fin 2) :
    (Motion.reset p).chans.get ch = Chan.reset (MState.atReset (p.er.get ch) (p.ee.get ch)) :=
  match ch with
  | 0 => rfl
  | 1 => rfl

end Sys2Proof.Machine

namespace Sys2Proof.Proofs
open Sys2Proof.Machine

/-- Settles O13. Both resets end as `State.inResetWith`, of whose blocks each clause is read off. -/
theorem resetsStartAfresh : Obligations.ResetsStartAfresh := by
  intro p intact s supply water climate motion lights afresh
  have fresh : ∀ (u : State) (r : Bool) (n : Nat) (f : Functions) (c : Cell), u.pins.dumpOpen = s.pins.dumpOpen →
      u.pins.er = s.pins.er → u.pins.ee = s.pins.ee → u.now = s.now → afresh c (u.inResetWith r n f c) := by
    intro u r n f c hd hr he hn
    have chan : ∀ ch, (u.inResetWith r n f c).chan ch = Chan.reset (MState.atReset (s.pins.er.get ch) (s.pins.ee.get ch)) :=
      fun ch => by rw [← hr, ← he]; exact Motion.reset_chan u.pins ch
    have light : ∀ ch, (u.inResetWith r n f c).light ch = Light.reset := fun ch => Tab.get_fill _ ch
    have off : (u.inResetWith r n f c).outputsOff :=
      ⟨rfl, rfl, rfl, rfl, rfl, fun ch => by rw [chan]; rfl, rfl, rfl, fun ch => by rw [light]; rfl⟩
    refine ⟨rfl, rfl, rfl, rfl, rfl, rfl, fun i => Tab.get_fill _ i, off, rfl, rfl, rfl, rfl, rfl, hn, rfl, rfl,
      ?_, ?_, ?_, ?_, ?_⟩
    · exact ⟨rfl, rfl, rfl, rfl, rfl, rfl, rfl, rfl, rfl, rfl, rfl, rfl, rfl, rfl, rfl, rfl⟩
    · refine ⟨fun k => ?_, rfl, rfl, rfl, rfl, rfl, rfl, rfl, rfl, hd, rfl, rfl⟩
      have tank : (u.inResetWith r n f c).water.tanks.get k = Tank.reset := Tab.get_fill _ k
      rw [tank]
      exact ⟨rfl, rfl, rfl, rfl, rfl⟩
    · exact ⟨fun z => Tab.get_map _ _ z, rfl, rfl, rfl, rfl, rfl, rfl, rfl, rfl, rfl, rfl⟩
    · refine ⟨fun ch => ?_, rfl, rfl, rfl, rfl, rfl⟩
      rw [chan, ← MState.atReset_eq]
      exact ⟨rfl, rfl, rfl, rfl, rfl, rfl, rfl, rfl⟩
    · refine ⟨fun ch => ?_, fun g => Tab.get_fill _ g, rfl, rfl, rfl, rfl, rfl, rfl⟩
      dsimp only
      rw [light]
      exact ⟨rfl, rfl, rfl, rfl, rfl⟩
  constructor
  · refine ⟨s.connects p, congrArg _ (publish_inResetWith s _ _ _ _ _), fresh _ _ _ _ _ rfl rfl rfl rfl, rfl, rfl, rfl, rfl⟩
  · exact ⟨s.restarts intact, congrArg _ (publish_inResetWith s _ _ _ _ _), fresh _ _ _ _ _ rfl rfl rfl rfl, rfl, rfl⟩

end Sys2Proof.Proofs
end

