-- ==== Sys2Proof/Proofs/Handed.lean ====
section
/-! PROOFS. What the handing over of records leaves as it was, monitors outside Run, and the state in which a reset's end leaves the part. -/

namespace Sys2Proof.Machine

/-! ### What handing over leaves (R171) -/

section
variable {s t : State} (h : s.handedOver t)
include h

theorem State.handedOver.now : t.now = s.now := by rw [h]
theorem State.handedOver.pending : t.pending = s.pending := by rw [h]
theorem State.handedOver.pins : t.pins = s.pins := by rw [h]
theorem State.handedOver.seq : t.seq = s.seq := by rw [h]
theorem State.handedOver.cell : t.cell = s.cell := by rw [h]
theorem State.handedOver.status : t.status = s.status := by rw [h]
theorem State.handedOver.broker : t.broker = s.broker := by rw [h]
theorem State.handedOver.view : t.view = s.view := by rw [h]
theorem State.handedOver.supply : t.supply = s.supply := by rw [h]
theorem State.handedOver.water : t.water = s.water := by rw [h]
theorem State.handedOver.climate : t.climate = s.climate := by rw [h]
theorem State.handedOver.lights : t.lights = s.lights := by rw [h]
theorem State.handedOver.due : t.due = Due.reset := by rw [h]
theorem State.handedOver.sending : t.bus.sending = s.bus.sending := by rw [h]
theorem State.handedOver.failed : t.bus.failed = s.bus.failed := by rw [h]
theorem State.handedOver.lineFault : t.bus.lineFault = s.bus.lineFault := by rw [h]
theorem State.handedOver.probeTimer : t.bus.probeTimer = s.bus.probeTimer := by rw [h]
theorem State.handedOver.probeCount : t.bus.probeCount = s.bus.probeCount := by rw [h]
theorem State.handedOver.busSilent : t.bus.busSilent = s.bus.busSilent := by rw [h]
theorem State.handedOver.silenceTimer : t.bus.silenceTimer = s.bus.silenceTimer := by rw [h]
theorem State.handedOver.lastClose : t.bus.lastClose = s.bus.lastClose := by rw [h]
theorem State.handedOver.acked : t.bus.acked = s.bus.acked := by rw [h]
theorem State.handedOver.rx : t.bus.rx = s.bus.rx := by rw [h]
theorem State.handedOver.overrun : t.bus.overrun = s.bus.overrun := by rw [h]
theorem State.handedOver.unknown : t.bus.unknown = s.bus.unknown := by rw [h]
theorem State.handedOver.gatherMs : t.bus.gatherMs = s.bus.gatherMs := by rw [h]
theorem State.handedOver.motion : t.motion = { s.motion with ilock := t.motion.ilock } := by rw [h]
theorem State.handedOver.chan (ch : Fin 2) : t.chan ch = s.chan ch := by
  unfold State.chan
  rw [h]
theorem State.handedOver.claim (id : Fin 7) : t.claim id = s.claim id := by
  unfold State.claim
  rw [h.broker]
theorem State.handedOver.light (ch : Fin 8) : t.light ch = s.light ch := by
  unfold State.light
  rw [h.lights]
theorem State.handedOver.group (g : Fin 2) : t.group g = s.group g := by
  unfold State.group
  rw [h.lights]
theorem State.handedOver.entries : t.entries = s.entries := by
  unfold State.entries
  rw [h.view]

end

/-! ### Monitors outside Run (R181) -/

theorem monitor_outside {s : State} (h : s.inRun = false) (n : Fin 19) (d : Bool) :
    s.monitor n d = (s.setStatus { s.status with
      summary := s.status.summary.set n d, changeCount := sat255 (s.status.changeCount + 1) }).setDue
        { s.due with status2 := true } := by
  have k : ((s.setStatus { s.status with
      summary := s.status.summary.set n d, changeCount := sat255 (s.status.changeCount + 1) }).setDue
        { s.due with status2 := true }).inRun = false := h
  unfold State.monitor State.raiseAttention
  dsimp only
  rw [if_neg (by simp [k]), if_neg (by simp [k])]

/-! ### The end of a reset (R183, R184) -/

/-- The part as a released reset leaves it, before a retained Lockout is handed over. -/
def State.listens (s : State) (p : Straps) : State :=
  let c := s.cell.tested s.seq.isRestart
  let u := (s.setPins { s.pins with straps := p }).inResetWith s.seq.isRestart (p.st + 1) p.fs c
  { u with
    seq := { u.seq with phase := .listen, phaseTimer := some Config.listenMs }
    bus := { u.bus with silenceTimer := some Config.silenceMs }
    motion := if p.fs.motion then { u.motion with windWindow := some Config.windWindowMs } else u.motion
    view := if s.pins.eng then { u.view with driveSetWait := some Config.driveSetMs } else u.view }

theorem released_eq (s : State) (p : Straps) :
    s.released p = if p.fs.heat && (s.cell.tested s.seq.isRestart).lockout then (s.listens p).monitor Mon.lockout true
      else s.listens p := by
  obtain ⟨now, queue, ⟨eng, p1, p2, p3, p4, p5, p6, p7, p8, p9, p10⟩, seq, cell, status, broker, view, bus, supply, water,
    climate, motion, lights, periods, due⟩ := s
  obtain ⟨n, ⟨f0, f1, f2, fitted, f4⟩⟩ := p
  cases eng <;> cases fitted <;> rfl

theorem listens_inRun (s : State) (p : Straps) : (s.listens p).inRun = false := rfl

theorem Cell.tested_eq (c : Cell) (b : Bool) : c.tested b = if b = true ∧ c.good = false then Cell.default else c := by
  cases b <;> cases h : c.good <;> simp [Cell.tested, h]

end Sys2Proof.Machine
end

