-- ==== Sys2Proof/Proofs/Released.lean ====
section
/-! PROOFS. The end of a reset (R183, R184): Listen begins with what the cell keeps. -/

namespace Sys2Proof.Machine

/-! ### The end of a reset (R183, R184) -/

/-- A retained Lockout changes no more than the status and what is due. -/
theorem released_rest (s : State) (p : Straps) :
    s.released p = { s.listens p with status := (s.released p).status, due := (s.released p).due } := by
  rw [released_eq]
  split
  · rw [monitor_outside (listens_inRun s p)]
    rfl
  · rfl

theorem released_status (s : State) (p : Straps) : (s.released p).status =
    if p.fs.heat && (s.cell.tested s.seq.isRestart).lockout then
      { Status.reset with summary := Status.reset.summary.set Mon.lockout true, changeCount := 1 }
    else Status.reset := by
  rw [released_eq]
  split
  · rw [monitor_outside (listens_inRun s p)]
    rfl
  · rfl

/-- Outside Run no channel is in violation, so that ILOCK is off after every step of a sane state (R141). -/
theorem publish_ilock_outside {was s : State} (h : s.Sane) (k : s.view.changes = []) (r : s.inRun = false) :
    (State.publish was s).motion.ilock = false := by
  have hand := publish_handedOver was s k
  have away : ∀ ch, (State.publish was s).inViolation ch = false := fun ch => by
    simp only [State.inViolation, State.motionRuns, State.inRun, hand.seq] at r ⊢
    simp [r]
  obtain ⟨-, -, ilock, -⟩ := (publish_sound was h).quiet
  rw [ilock, away, away]
  rfl

theorem listens_outputs (s : State) (p : Straps) :
    (s.listens p).water.pump = false ∧ (s.listens p).water.dumpDrive = .notDriven ∧ (s.listens p).climate.hen = false
      ∧ (s.listens p).climate.hdem = 0 ∧ (s.listens p).climate.pad = false ∧ (∀ ch, ((s.listens p).chan ch).bridge = .off)
      ∧ (s.listens p).supply.chginh = false ∧ ∀ ch, ((s.listens p).light ch).duty = 0 := by
  have chan : ∀ ch, (s.listens p).chan ch = (Motion.reset s.pins).chans.get ch := fun ch => by
    unfold State.chan State.listens
    dsimp only
    split <;> rfl
  have light : ∀ ch, (s.listens p).light ch = Light.reset := fun ch => Tab.get_fill _ ch
  exact ⟨rfl, rfl, rfl, rfl, rfl, fun ch => by rw [chan, Motion.reset_chan]; rfl, rfl, fun ch => by rw [light]; rfl⟩

end Sys2Proof.Machine

namespace Sys2Proof.Proofs
open Sys2Proof.Machine

/-- Settles O14, from the state in which the reset's end leaves the part, after which records are handed over. -/
theorem resetReleasedBeginsListen : Obligations.ResetReleasedBeginsListen := by
  intro p s quiet
  refine ⟨fun reset => ?_, fun out => ?_⟩
  · refine ⟨State.publish s (s.released p), by
      show done s (if s.inReset then s.released p else s) = _
      rw [if_pos reset]
      rfl, ?_⟩
    have rest := released_rest s p
    have status := released_status s p
    have sane := released_sane s p
    have told : (s.released p).view.changes = [] := by
      rw [rest]
      unfold State.listens
      dsimp only
      split <;> rfl
    have silent : (s.released p).inRun = false := by rw [rest]; rfl
    have hand := publish_handedOver s _ told
    have ilock := publish_ilock_outside (was := s) sane told silent
    generalize State.publish s (s.released p) = t at hand ilock ⊢
    generalize s.released p = r at *
    have cell : s.cell.tested s.seq.isRestart
        = if s.seq.isRestart = true ∧ s.cell.good = false then Cell.default else s.cell := Cell.tested_eq _ _
    dsimp only
    rw [← cell]
    have sub : ∀ ch, t.chan ch = (s.listens p).chan ch := fun ch => by rw [hand.chan, rest]; rfl
    have lights : t.lights = (s.listens p).lights := by rw [hand.lights, rest]
    have sets : t.view.sets = View.reset.sets := by
      rw [hand.view, rest]
      unfold State.listens
      dsimp only
      split <;> rfl
    obtain ⟨o1, o2, o3, o4, o5, o6, o7, o8⟩ := listens_outputs s p
    have seq : t.seq = (s.listens p).seq := by rw [hand.seq, rest]
    have climate : t.climate = (s.listens p).climate := by rw [hand.climate, rest]
    have supply : t.supply = (s.listens p).supply := by rw [hand.supply, rest]
    have water : t.water = (s.listens p).water := by rw [hand.water, rest]
    rw [← hand.status] at status
    refine ⟨by rw [seq]; rfl, by rw [seq]; rfl, by rw [seq]; rfl, by rw [seq]; rfl, by rw [hand.pins, rest]; rfl,
      by rw [hand.silenceTimer, rest]; rfl, by rw [hand.cell, rest]; rfl, by rw [seq]; rfl, by rw [supply]; rfl,
      by rw [supply]; rfl, by rw [supply]; rfl, by rw [lights]; rfl, fun z => ?_, by rw [climate]; rfl,
      by rw [climate]; rfl, ?_, fun id => ?_, ?_, ?_, fun n => ?_⟩
    · rw [climate]
      exact congrArg Zone.setpoint (Tab.get_map _ _ z)
    · unfold State.outputsOff State.light
      rw [water, climate, supply, lights]
      exact ⟨o1, o2, o3, o4, o5, fun ch => by rw [sub]; exact o6 ch, ilock, o7, o8⟩
    · rw [hand.claim, rest]
      exact congrArg Claim.st (Tab.get_fill _ id)
    · unfold State.entries
      rw [sets]
      decide +kernel
    · rw [status]
      simp only [Bool.and_eq_true]
      split <;> rfl
    · rw [status]
      split
      · rename_i both
        simp only [Bool.and_eq_true] at both
        simp only [Tab.get_set, both.1, both.2, Bool.and_true]
        by_cases k : Mon.lockout = n
        · simp [k]
        · rw [if_neg k, Status.reset, Tab.get_fill]
          exact (decide_eq_false (Ne.symm k)).symm
      · rename_i both
        rw [Bool.and_assoc, Bool.eq_false_iff.mpr both, Bool.and_false]
        exact Tab.get_fill _ n
  · refine ⟨State.publish s s, ?_, publish_handedOver s s quiet⟩
    show done s (if s.inReset then s.released p else s) = _
    rw [if_neg (by simp [out])]
    rfl

end Sys2Proof.Proofs
end

