-- ==== Sys2Proof/Proofs/Carrying.lean ====
section
/-! PROOFS. What the Gatherer carries after a record is handed over, and when nothing is pushed out for it (R171, R172). -/

namespace Sys2Proof.Machine

/-! ### What the Gatherer carries (R165, R171, R172) -/

/-- A lane has room for the record, or a waiting record to replace: nothing is pushed out for it. -/
def Bus.admits (b : Bus) (r : Record) : Prop :=
  if r.kind.cls = 0 then b.urgent.any (Waiting.sameKey r) = true ∨ b.urgent.length < Config.urgentSlots
  else b.periodic.any (Waiting.sameKey r) = true ∨ b.periodic.length < Config.periodicSlots

theorem Bus.admits_of_room {b : Bus} {r : Record} (k : r.kind.cls ≠ 0) (h : b.periodic.length < 8) : b.admits r := by
  rw [Bus.admits, if_neg k]
  exact .inr h

theorem mem_coalesce_self {t : Tagged} {l : List Waiting} (h : l.any (Waiting.sameKey t.record) = true) :
    ∃ w ∈ coalesce t l, w.item = t := by
  obtain ⟨w, hw, k⟩ := List.any_eq_true.mp h
  exact ⟨_, List.mem_map_of_mem hw, by simp [k]⟩

/-- The record of another key stays as it is. -/
theorem mem_coalesce_other {t : Tagged} {l : List Waiting} {w : Waiting} (h : w ∈ l)
    (k : w.sameKey t.record = false) : w ∈ coalesce t l :=
  List.mem_map.mpr ⟨w, h, by simp [k]⟩

/-- A record that is handed over waits in its lane. -/
theorem Bus.join_mem {b : Bus} {t : Tagged} (now : Nat) (h : b.admits t.record) :
    ∃ w ∈ (b.join now t).periodic ++ (b.join now t).urgent, w.item = t := by
  unfold Bus.admits at h
  unfold Bus.join
  by_cases c : t.record.kind.cls = 0
  · rw [if_pos c] at h ⊢
    by_cases a : b.urgent.any (Waiting.sameKey t.record) = true
    · rw [if_pos a]
      obtain ⟨w, hw, k⟩ := mem_coalesce_self a
      exact ⟨w, List.mem_append_right _ hw, k⟩
    · rw [if_neg a, if_pos (h.resolve_left a)]
      exact ⟨⟨t, now, false⟩, by simp, rfl⟩
  · rw [if_neg c] at h ⊢
    by_cases a : b.periodic.any (Waiting.sameKey t.record) = true
    · rw [if_pos a]
      obtain ⟨w, hw, k⟩ := mem_coalesce_self a
      exact ⟨w, List.mem_append_left _ hw, k⟩
    · rw [if_neg a, if_pos (h.resolve_left a)]
      exact ⟨⟨t, now, false⟩, by simp, rfl⟩

/-- A waiting record of another key goes on waiting where nothing is pushed out. -/
theorem Bus.join_mem_other {b : Bus} {t : Tagged} (now : Nat) (h : b.admits t.record) {w : Waiting}
    (m : w ∈ b.periodic ++ b.urgent) (k : w.sameKey t.record = false) :
    w ∈ (b.join now t).periodic ++ (b.join now t).urgent := by
  unfold Bus.admits at h
  unfold Bus.join
  rw [List.mem_append] at m ⊢
  by_cases c : t.record.kind.cls = 0
  · rw [if_pos c] at h ⊢
    by_cases a : b.urgent.any (Waiting.sameKey t.record) = true
    · rw [if_pos a]
      exact m.imp_right fun m => mem_coalesce_other m k
    · rw [if_neg a, if_pos (h.resolve_left a)]
      exact m.imp_right fun m => List.mem_append_left _ m
  · rw [if_neg c] at h ⊢
    by_cases a : b.periodic.any (Waiting.sameKey t.record) = true
    · rw [if_pos a]
      exact m.imp_left fun m => mem_coalesce_other m k
    · rw [if_neg a, if_pos (h.resolve_left a)]
      exact m.imp_left fun m => List.mem_append_left _ m

/-- Nothing is discarded where the lane admits the record. -/
theorem Bus.join_dropped_of_admits {b : Bus} {t : Tagged} (now : Nat) (h : b.admits t.record) :
    (b.join now t).dropped = b.dropped := by
  unfold Bus.admits at h
  unfold Bus.join
  by_cases c : t.record.kind.cls = 0
  · rw [if_pos c] at h ⊢
    by_cases a : b.urgent.any (Waiting.sameKey t.record) = true
    · rw [if_pos a]
    · rw [if_neg a, if_pos (h.resolve_left a)]
  · rw [if_neg c] at h ⊢
    by_cases a : b.periodic.any (Waiting.sameKey t.record) = true
    · rw [if_pos a]
    · rw [if_neg a, if_pos (h.resolve_left a)]

/-- One more record waits at most. -/
theorem Bus.join_periodic_length (now : Nat) (t : Tagged) (b : Bus) :
    (b.join now t).periodic.length ≤ b.periodic.length + 1 := by
  have full : (b.joinFullPeriodic now t).periodic.length ≤ b.periodic.length + 1 := by
    unfold Bus.joinFullPeriodic dropOldest
    split
    · simpa using List.length_eraseP_le
    · split
      · simpa using List.length_eraseP_le
      · exact Nat.le_succ _
  unfold Bus.join
  split
  · split
    · exact Nat.le_succ _
    · split <;> exact Nat.le_succ _
  · split
    · rw [coalesce_length]
      exact Nat.le_succ _
    · split
      · simp
      · exact full

/-- What a class's frame leaves in the lane and what it takes are all of the lane. -/
theorem mem_takeOut_or {c : Nat} {l : List Waiting} {w : Waiting} (h : w ∈ l) (n : Nat) :
    w ∈ takeOut c n l ∨ w ∈ (l.filter fun w => w.cls == c).take n := by
  have rest := takeOut_ofClass c w.cls l n
  have there : w ∈ l.filter fun x => x.cls == w.cls := List.mem_filter.mpr ⟨h, by simp⟩
  by_cases k : c = w.cls
  · subst k
    rw [if_pos rfl] at rest
    rw [← List.take_append_drop n (l.filter fun x => x.cls == w.cls), List.mem_append] at there
    rcases there with t | t
    · exact .inr t
    · rw [← rest] at t
      exact .inl (List.mem_filter.mp t).1
  · rw [if_neg k, List.drop_zero] at rest
    rw [← rest] at there
    exact .inl (List.mem_filter.mp there).1

theorem Bus.buildUrgent_carries {b : Bus} {r : Record} (h : b.carries r) : b.buildUrgent.carries r := by
  unfold Bus.buildUrgent
  split
  · rename_i k
    simp only [Bool.and_eq_true, Option.isNone_iff_eq_none] at k
    rcases h with ⟨w, m, e⟩ | ⟨f, m, x⟩
    · rw [List.mem_append] at m
      rcases m with m | m
      · exact .inl ⟨w, List.mem_append_left _ m, e⟩
      · rw [← List.take_append_drop 4 b.urgent, List.mem_append] at m
        rcases m with m | m
        · exact .inr ⟨_, .inl rfl, w.item, List.mem_map_of_mem m, e⟩
        · exact .inl ⟨w, List.mem_append_right _ m, e⟩
    · rcases m with m | m
      · rw [k.1] at m
        cases m
      · exact .inr ⟨f, .inr m, x⟩
  · exact h

theorem Bus.buildNormal_carries {b : Bus} {r : Record} (c : Nat) (n : b.normalBuf = none) (h : b.carries r) :
    (b.buildNormal c).carries r := by
  rcases h with ⟨w, m, e⟩ | ⟨f, m, x⟩
  · rw [List.mem_append] at m
    rcases m with m | m
    · rcases mem_takeOut_or (c := c) m 4 with m | m
      · exact .inl ⟨w, List.mem_append_left _ m, e⟩
      · exact .inr ⟨_, .inr rfl, w.item, List.mem_map_of_mem m, e⟩
    · exact .inl ⟨w, List.mem_append_right _ m, e⟩
  · rcases m with m | m
    · exact .inr ⟨f, .inl m, x⟩
    · rw [n] at m
      cases m

/-- Building loses no record. -/
theorem Bus.build_carries {b : Bus} {r : Record} (now : Nat) (h : b.carries r) : (b.build now).carries r := by
  rw [Bus.build_eq]
  split
  · exact h
  · have u := Bus.buildUrgent_carries h
    generalize b.buildUrgent = c at u
    unfold Bus.buildRest
    split
    · exact u
    · rename_i n
      have n : c.normalBuf = none := by simpa using n
      split
      · exact Bus.buildNormal_carries 1 n u
      · split
        · exact Bus.buildNormal_carries 2 n u
        · split
          · exact Bus.buildNormal_carries 3 n u
          · exact u

theorem Bus.build_periodic_length (now : Nat) (b : Bus) : (b.build now).periodic.length ≤ b.periodic.length := by
  have normal : ∀ (c : Bus) k, (c.buildNormal k).periodic.length ≤ c.periodic.length := fun c k =>
    (takeOut_sublist k 4 c.periodic).length_le
  rw [Bus.build_eq]
  split
  · exact Nat.le_refl _
  · have u : b.buildUrgent.periodic = b.periodic := by
      unfold Bus.buildUrgent
      split <;> rfl
    rw [← u]
    unfold Bus.buildRest
    split
    · exact Nat.le_refl _
    · split
      · exact normal _ _
      · split
        · exact normal _ _
        · split
          · exact normal _ _
          · exact Nat.le_refl _

/-! ### Handing over -/

/-- A record that its lane admits is carried once it is handed over. -/
theorem hand_carries {s : State} {r : Record} (tag : Nat) (h : s.bus.admits r) : (s.hand r tag).bus.carries r := by
  obtain ⟨w, m, e⟩ := Bus.join_mem (t := ⟨r, tag⟩) s.now h
  exact Bus.build_carries s.now (.inl ⟨w, m, by rw [e]⟩)

/-- A record of another key goes on being carried. -/
theorem hand_carries_other {s : State} {r q : Record} (tag : Nat) (h : s.bus.admits r) (c : s.bus.carries q)
    (k : q.kind ≠ r.kind ∨ q.subject ≠ r.subject) : (s.hand r tag).bus.carries q := by
  refine Bus.build_carries s.now ?_
  rcases c with ⟨w, m, e⟩ | ⟨f, m, x⟩
  · refine .inl ⟨w, Bus.join_mem_other (t := ⟨r, tag⟩) s.now h m ?_, e⟩
    unfold Waiting.sameKey
    rw [e]
    rcases k with k | k <;> simp [k]
  · obtain ⟨u, n⟩ := Bus.join_buffers s.now ⟨r, tag⟩ s.bus
    exact .inr ⟨f, by rw [u, n]; exact m, x⟩

theorem hand_dropped_of_admits {s : State} {r : Record} (tag : Nat) (h : s.bus.admits r) :
    (s.hand r tag).bus.dropped = s.bus.dropped :=
  (Bus.build_dropped s.now _).trans (Bus.join_dropped_of_admits (t := ⟨r, tag⟩) s.now h)

theorem hand_periodic_length (s : State) (r : Record) (tag : Nat) :
    (s.hand r tag).bus.periodic.length ≤ s.bus.periodic.length + 1 :=
  (Bus.build_periodic_length s.now _).trans (Bus.join_periodic_length s.now ⟨r, tag⟩ s.bus)

end Sys2Proof.Machine
end

