-- ==== Sys2Proof/Proofs/Offers.lean ====
section
/-! PROOFS. What a step hands over at its end, as one list of records and restarts of periods. -/

namespace Sys2Proof.Machine

/-! ### Handing over as a list of offers (R24, R26, R101, R121, R141, R145, R160, R178)

What a step hands over at its end is a list of records, each with what becomes of its period. None of them but STATUS
subject 1, which counts the records discarded, speaks of the lanes, so that the list is read off the state in which the
handing over begins. -/

/-- A record to hand over, and what its handing over does to the periods. -/
structure Offer where
  record : Record
  restart : Periods → Periods

def State.take (s : State) (o : Offer) : State := (s.hand o.record 0).setPeriods (o.restart s.periods)

theorem take_hands (s : State) (o : Offer) : Hands s (s.take o) := hand_setPeriods_hands s _ _

theorem takes_hands (l : List Offer) (s : State) : Hands s (l.foldl State.take s) := Hands.foldl _ take_hands l s

def State.shedOffers (s : State) : List Offer :=
  match s.supply.latest with
  | some f => if s.due.shed && s.inRun then
      [⟨f.shedRecord, fun p => { p with shed := if 0 < f.level then some Config.shedMs else none }⟩] else []
  | none => []

def State.supplyOffers (s : State) : List Offer :=
  match s.supply.latest with
  | some f => if s.due.supply && s.inRun && s.seq.fns.supply then
      [⟨f.supplyRecord, fun p => { p with supply := some s.supplyPeriodMs }⟩] else []
  | none => []

def State.status0Offers (was s : State) : List Offer :=
  if s.due.status0 || statusState was != statusState s then
    [⟨status0Record s, fun p => { p with status := if s.inRun then some s.statusPeriodMs else none }⟩] else []

def State.status2Offers (s : State) : List Offer := if s.due.status2 then [⟨status2Record s, id⟩] else []

def State.tankOffers (was s : State) (t : Fin 3) : List Offer :=
  if s.seq.fns.water && s.inRun && (s.due.tank.get t || was.water.shared != s.water.shared) then
    [⟨tankRecord s t, fun p => { p with tank := p.tank.set t (some Config.slowPeriodMs) }⟩] else []

def State.climateOffers (was s : State) (z : Fin 2) : List Offer :=
  if s.seq.fns.heat && s.inRun && (s.due.climate.get z || was.climateShared != s.climateShared) then
    [⟨climateRecord s z, fun p => { p with climate := p.climate.set z (some Config.slowPeriodMs) }⟩] else []

def State.motionOffers (was s : State) (ch : Fin 2) : List Offer :=
  if s.motionRuns && (s.due.motion.get ch || motionRecord was ch != motionRecord s ch) then
    [⟨motionRecord s ch, fun p => { p with motion := p.motion.set ch (some (s.motionPeriodMs ch)) }⟩] else []

def State.interlockOffers (was s : State) (ch : Fin 2) : List Offer :=
  if s.inViolation ch && (s.due.interlock.get ch || !was.inViolation ch) then
    [⟨interlockRecord s ch, fun p => { p with interlock := p.interlock.set ch (some Config.interlockMs) }⟩] else []

def State.lightOffers (was s : State) (ch : Fin 8) : List Offer :=
  if s.seq.fns.lights && s.inRun && (s.due.light.get ch || was.lightShared ch != s.lightShared ch
      || ((was.light ch).fading && !(s.light ch).fading)) then
    [⟨lightRecord s ch, fun p => { p with light := p.light.set ch (some Config.slowPeriodMs) }⟩] else []

def State.firstOffers (was s : State) : List Offer := s.shedOffers ++ s.supplyOffers ++ State.status0Offers was s

def State.lastOffers (was s : State) : List Offer :=
  s.status2Offers ++ fin3.flatMap (State.tankOffers was s) ++ fin2.flatMap (State.climateOffers was s)
    ++ fin2.flatMap (fun ch => State.motionOffers was s ch ++ State.interlockOffers was s ch)
    ++ fin8.flatMap (State.lightOffers was s)

/-! #### The records do not speak of the lanes -/

section
variable {s t : State} (h : Hands s t)
include h

theorem shedOffers_hands : t.shedOffers = s.shedOffers := by
  rw [h.rest]
  rfl

theorem supplyOffers_hands : t.supplyOffers = s.supplyOffers := by
  rw [h.rest]
  rfl

theorem statusState_hands : statusState t = statusState s := by
  have line := h.line
  unfold Bus.sameLine at line
  rw [h.rest, line]
  rfl

theorem status0Offers_hands (was : State) : State.status0Offers was t = State.status0Offers was s := by
  unfold State.status0Offers status0Record
  rw [statusState_hands h, h.rest]
  rfl

theorem lastOffers_hands (was : State) : State.lastOffers was t = State.lastOffers was s := by
  rw [h.rest]
  rfl

end

/-! #### A fold of handings-over is the fold of what it offers -/

/-- Publishers that offer what does not speak of the lanes hand over, one after the other, the list of their offers. -/
theorem foldl_offers {α : Type} (f : State → α → State) (g : State → α → List Offer)
    (offers : ∀ s x, f s x = (g s x).foldl State.take s) (same : ∀ s t x, Hands s t → g t x = g s x) (l : List α)
    (s : State) : l.foldl f s = (l.flatMap (g s)).foldl State.take s := by
  induction l generalizing s with
  | nil => rfl
  | cons x xs ih =>
    have hands : Hands s (f s x) := by
      rw [offers]
      exact takes_hands _ s
    rw [List.foldl_cons, ih, List.flatMap_cons, List.foldl_append, ← offers]
    congr 2
    exact funext fun y => same s _ y hands

theorem publishShed_offers (s : State) : s.publishShed = s.shedOffers.foldl State.take s := by
  unfold State.publishShed State.shedOffers
  cases s.supply.latest with
  | none => rfl
  | some f =>
    dsimp only
    split <;> rfl

theorem publishSupply_offers (s : State) : s.publishSupply = s.supplyOffers.foldl State.take s := by
  unfold State.publishSupply State.supplyOffers
  cases s.supply.latest with
  | none => rfl
  | some f =>
    dsimp only
    split <;> rfl

theorem publishStatus0_offers (was s : State) :
    State.publishStatus0 was s = (State.status0Offers was s).foldl State.take s := by
  unfold State.publishStatus0 State.status0Offers
  split <;> rfl

theorem publishStatus2_offers (s : State) : s.publishStatus2 = s.status2Offers.foldl State.take s := by
  unfold State.publishStatus2 State.status2Offers
  split <;> rfl

theorem publishTank_offers (was s : State) (k : Fin 3) :
    State.publishTank was s k = (State.tankOffers was s k).foldl State.take s := by
  unfold State.publishTank State.tankOffers
  split <;> rfl

theorem publishClimate_offers (was s : State) (z : Fin 2) :
    State.publishClimate was s z = (State.climateOffers was s z).foldl State.take s := by
  unfold State.publishClimate State.climateOffers
  split <;> rfl

theorem publishMotion_offers (was s : State) (ch : Fin 2) :
    State.publishMotion was s ch = (State.motionOffers was s ch).foldl State.take s := by
  unfold State.publishMotion State.motionOffers
  split <;> rfl

theorem publishInterlock_offers (was s : State) (ch : Fin 2) :
    State.publishInterlock was s ch = (State.interlockOffers was s ch).foldl State.take s := by
  unfold State.publishInterlock State.interlockOffers
  split <;> rfl

theorem publishLight_offers (was s : State) (ch : Fin 8) :
    State.publishLight was s ch = (State.lightOffers was s ch).foldl State.take s := by
  unfold State.publishLight State.lightOffers
  split <;> rfl

theorem publishMoves_offers (was s : State) (ch : Fin 2) :
    State.publishInterlock was (State.publishMotion was s ch) ch
      = (State.motionOffers was s ch ++ State.interlockOffers was s ch).foldl State.take s := by
  rw [List.foldl_append, ← publishMotion_offers, publishInterlock_offers]
  have hands := publishMotion_hands was s ch
  generalize State.publishMotion was s ch = u at hands ⊢
  rw [hands.rest]
  rfl

/-- What a step hands over at its end: the first offers, the counters where they are due, and the rest. -/
theorem handOver_offers (was s : State) : State.handOver was s
    = (State.lastOffers was s).foldl State.take ((State.firstOffers was s).foldl State.take s).publishStatus1 := by
  unfold State.handOver
  dsimp only
  have first : State.publishStatus0 was s.publishShed.publishSupply = (State.firstOffers was s).foldl State.take s := by
    unfold State.firstOffers
    have shed := publishShed_hands s
    have supply := publishSupply_hands s.publishShed
    rw [List.foldl_append, List.foldl_append, ← publishShed_offers, ← supplyOffers_hands shed, ← publishSupply_offers,
      ← status0Offers_hands (shed.trans supply), ← publishStatus0_offers]
  rw [first]
  have hands := (takes_hands (State.firstOffers was s) s).trans (publishStatus1_hands _)
  generalize (State.publishStatus1 ((State.firstOffers was s).foldl State.take s)) = u at hands ⊢
  rw [← lastOffers_hands hands was, publishStatus2_offers]
  unfold State.lastOffers
  simp only [List.foldl_append]
  have h2 := takes_hands u.status2Offers u
  generalize u.status2Offers.foldl State.take u = v at h2 ⊢
  rw [foldl_offers (fun s k => State.publishTank was s k) (State.tankOffers was) (publishTank_offers was)
    (fun s t x h => by rw [h.rest]; rfl)]
  rw [show State.tankOffers was v = State.tankOffers was u from by rw [h2.rest]; rfl]
  have h3 := h2.trans (takes_hands (fin3.flatMap (State.tankOffers was u)) v)
  generalize (fin3.flatMap (State.tankOffers was u)).foldl State.take v = w at h3 ⊢
  rw [foldl_offers (fun s k => State.publishClimate was s k) (State.climateOffers was) (publishClimate_offers was)
    (fun s t x h => by rw [h.rest]; rfl)]
  rw [show State.climateOffers was w = State.climateOffers was u from by rw [h3.rest]; rfl]
  have h4 := h3.trans (takes_hands (fin2.flatMap (State.climateOffers was u)) w)
  generalize (fin2.flatMap (State.climateOffers was u)).foldl State.take w = x at h4 ⊢
  rw [foldl_offers (fun s ch => State.publishInterlock was (State.publishMotion was s ch) ch)
    (fun s ch => State.motionOffers was s ch ++ State.interlockOffers was s ch) (publishMoves_offers was)
    (fun s t x h => by rw [h.rest]; rfl)]
  rw [show (fun ch => State.motionOffers was x ch ++ State.interlockOffers was x ch)
    = (fun ch => State.motionOffers was u ch ++ State.interlockOffers was u ch) from by rw [h4.rest]; rfl]
  have h5 := h4.trans (takes_hands (fin2.flatMap fun ch =>
    State.motionOffers was u ch ++ State.interlockOffers was u ch) x)
  generalize (fin2.flatMap fun ch => State.motionOffers was u ch ++ State.interlockOffers was u ch).foldl State.take x
    = y at h5 ⊢
  rw [foldl_offers (fun s k => State.publishLight was s k) (State.lightOffers was) (publishLight_offers was)
    (fun s t x h => by rw [h.rest]; rfl)]
  rw [show State.lightOffers was y = State.lightOffers was u from by rw [h5.rest]; rfl]

end Sys2Proof.Machine
end

