-- ==== Sys2Proof/Proofs/Settled.lean ====
section
/-! PROOFS. A step that changes no figure hands over what has been marked as due, and nothing else. -/

namespace Sys2Proof.Machine

/-! ### A settled station hands over what a period has made due (R171, R178) -/

/-- No field that a record carries has changed since `was`: what falls due does so by its period. -/
structure SameFigures (was s : State) : Prop where
  water : was.water.shared = s.water.shared
  climate : was.climateShared = s.climateShared
  motion : ∀ ch, motionRecord was ch = motionRecord s ch
  violation : ∀ ch, was.inViolation ch = s.inViolation ch
  light : ∀ ch, was.lightShared ch = s.lightShared ch
  fading : ∀ ch, (was.light ch).fading = (s.light ch).fading

theorem SameFigures.setDue (s : State) (d : Due) : SameFigures s (s.setDue d) :=
  ⟨rfl, rfl, fun _ => rfl, fun _ => rfl, fun _ => rfl, fun _ => rfl⟩

theorem status0Offers_same {was s : State} (h : statusState was = statusState s) : State.status0Offers was s = if s.due.status0 then
    [⟨status0Record s, fun p => { p with status := if s.inRun then some s.statusPeriodMs else none }⟩] else [] := by
  unfold State.status0Offers
  rw [h]
  simp only [bne_self_eq_false, Bool.or_false]

section
variable {was s : State} (h : SameFigures was s)
include h

theorem tankOffers_same (k : Fin 3) : State.tankOffers was s k = if s.seq.fns.water && s.inRun && s.due.tank.get k then
    [⟨tankRecord s k, fun p => { p with tank := p.tank.set k (some Config.slowPeriodMs) }⟩] else [] := by
  unfold State.tankOffers
  rw [h.water]
  simp only [bne_self_eq_false, Bool.or_false]

theorem climateOffers_same (z : Fin 2) : State.climateOffers was s z = if s.seq.fns.heat && s.inRun && s.due.climate.get z
    then [⟨climateRecord s z, fun p => { p with climate := p.climate.set z (some Config.slowPeriodMs) }⟩] else [] := by
  unfold State.climateOffers
  rw [h.climate]
  simp only [bne_self_eq_false, Bool.or_false]

theorem motionOffers_same (ch : Fin 2) : State.motionOffers was s ch = if s.motionRuns && s.due.motion.get ch then
    [⟨motionRecord s ch, fun p => { p with motion := p.motion.set ch (some (s.motionPeriodMs ch)) }⟩] else [] := by
  unfold State.motionOffers
  rw [h.motion]
  simp only [bne_self_eq_false, Bool.or_false]

theorem interlockOffers_same (ch : Fin 2) : State.interlockOffers was s ch = if s.inViolation ch && s.due.interlock.get ch
    then [⟨interlockRecord s ch, fun p => { p with interlock := p.interlock.set ch (some Config.interlockMs) }⟩]
    else [] := by
  unfold State.interlockOffers
  rw [h.violation]
  cases s.inViolation ch <;> simp

theorem lightOffers_same (ch : Fin 8) : State.lightOffers was s ch = if s.seq.fns.lights && s.inRun && s.due.light.get ch
    then [⟨lightRecord s ch, fun p => { p with light := p.light.set ch (some Config.slowPeriodMs) }⟩] else [] := by
  unfold State.lightOffers
  rw [h.light, h.fading]
  cases (s.light ch).fading <;> simp

end

/-- Where no figure has changed and no mark is set, nothing follows the counters. -/
theorem lastOffers_nil {was s : State} (h : SameFigures was s) (status2 : s.due.status2 = false)
    (tank : s.due.tank = Due.reset.tank) (climate : s.due.climate = Due.reset.climate)
    (motion : s.due.motion = Due.reset.motion) (interlock : s.due.interlock = Due.reset.interlock)
    (light : s.due.light = Due.reset.light) : State.lastOffers was s = [] := by
  unfold State.lastOffers State.status2Offers
  rw [funext (tankOffers_same h), funext (climateOffers_same h), funext (motionOffers_same h),
    funext (interlockOffers_same h), funext (lightOffers_same h), status2, tank, climate, motion, interlock, light]
  simp [Due.reset, Tab.get_fill]

theorem shedOffers_nil {s : State} (h : s.due.shed = false) : s.shedOffers = [] := by
  unfold State.shedOffers
  split
  · simp [h]
  · rfl

theorem supplyOffers_nil {s : State} (h : s.due.supply = false) : s.supplyOffers = [] := by
  unfold State.supplyOffers
  split
  · simp [h]
  · rfl

theorem status2Offers_nil {s : State} (h : s.due.status2 = false) : s.status2Offers = [] := by
  simp [State.status2Offers, h]

theorem flatMap_single {α β : Type} [DecidableEq α] {l : List α} {x : α} {f : α → List β} (d : l.Nodup) (m : x ∈ l)
    (h : ∀ y, y ≠ x → f y = []) : l.flatMap f = f x := by
  induction l with
  | nil => simp at m
  | cons y ys ih =>
    obtain ⟨away, d⟩ := List.nodup_cons.mp d
    rw [List.flatMap_cons]
    by_cases k : y = x
    · subst k
      rw [List.flatMap_eq_nil_iff.mpr fun z hz => h z fun e => away (e ▸ hz), List.append_nil]
    · rw [h y k, List.nil_append, ih d ((List.mem_cons.mp m).resolve_left (Ne.symm k))]

theorem publish_told {was s : State} (h : s.view.changes = []) (p : s.publishes = true) : State.publish was s
    = (((State.lastOffers was s).foldl State.take
      ((State.firstOffers was s).foldl State.take s).publishStatus1).setDue Due.reset).driveIlock := by
  unfold State.publish
  dsimp only
  rw [tellReaders_none h, if_pos p, handOver_offers]

theorem publishStatus1_none {s : State} (h : s.due.status1 = false) : s.publishStatus1 = s := by
  simp [State.publishStatus1, h]

/-- ILOCK and the INTERLOCK repeats of a settled state stand (R141). -/
theorem driveIlock_settled {s : State} (ilock : s.motion.ilock = (s.inViolation 0 || s.inViolation 1))
    (repeats : ∀ ch, s.inViolation ch = false → s.periods.interlock.get ch = none) : s.driveIlock = s := by
  have stands : ∀ ch, (if s.inViolation ch then s.periods.interlock else s.periods.interlock.set ch none)
      = s.periods.interlock := fun ch => by
    split
    · rfl
    · rename_i off
      refine Tab.ext_get fun k => ?_
      rw [Tab.get_set]
      split
      · rename_i e
        rw [← e, repeats ch (by simpa using off)]
      · rfl
  unfold State.driveIlock
  dsimp only
  rw [stands 0, stands 1, ← ilock]
  rfl

/-- The step of a settled station that makes one record due: that record is handed over, its period runs afresh, and
nothing else changes. -/
theorem publish_one {s : State} (q : s.quiet) (run : s.inRun = true) {d : Due} {o : Offer}
    (offers : State.firstOffers s (s.setDue d) ++ State.lastOffers s (s.setDue d) = [o]) (counters : d.status1 = false)
    (repeats : ∀ ch, s.inViolation ch = false → (o.restart s.periods).interlock.get ch = none) :
    State.publish s (s.setDue d) = s.take o := by
  obtain ⟨told, due, ilock, -⟩ := q
  have published : s.publishes = true := by
    simp only [State.inRun, beq_iff_eq] at run
    simp [State.publishes, run]
  rw [publish_told (s := s.setDue d) told published]
  rw [publishStatus1_none, ← List.foldl_append, offers]
  · have settled : ((s.take o).setDue Due.reset) = s.take o := by rw [← due]; rfl
    exact (congrArg State.driveIlock settled).trans (driveIlock_settled ilock repeats)
  · have hands := takes_hands (State.firstOffers s (s.setDue d)) (s.setDue d)
    rw [hands.rest]
    exact counters

/-! #### What each mark makes due -/

section
variable {s : State} {d : Due}

/-- The offers of a state like `s` but for the marks of what is due. -/
def State.offersOf (s : State) (d : Due) : List Offer :=
  State.firstOffers s (s.setDue d) ++ State.lastOffers s (s.setDue d)

theorem offersOf_eq (s : State) (d : Due) : s.offersOf d = (s.setDue d).shedOffers ++ (s.setDue d).supplyOffers
    ++ (if d.status0 then [⟨status0Record s, fun p =>
      { p with status := if s.inRun then some s.statusPeriodMs else none }⟩] else [])
    ++ (if d.status2 then [⟨status2Record s, id⟩] else [])
    ++ fin3.flatMap (fun k => if s.seq.fns.water && s.inRun && d.tank.get k then
      [⟨tankRecord s k, fun p => { p with tank := p.tank.set k (some Config.slowPeriodMs) }⟩] else [])
    ++ fin2.flatMap (fun z => if s.seq.fns.heat && s.inRun && d.climate.get z then
      [⟨climateRecord s z, fun p => { p with climate := p.climate.set z (some Config.slowPeriodMs) }⟩] else [])
    ++ fin2.flatMap (fun ch => (if s.motionRuns && d.motion.get ch then
      [⟨motionRecord s ch, fun p => { p with motion := p.motion.set ch (some (s.motionPeriodMs ch)) }⟩] else [])
      ++ if s.inViolation ch && d.interlock.get ch then
      [⟨interlockRecord s ch, fun p => { p with interlock := p.interlock.set ch (some Config.interlockMs) }⟩] else [])
    ++ fin8.flatMap (fun ch => if s.seq.fns.lights && s.inRun && d.light.get ch then
      [⟨lightRecord s ch, fun p => { p with light := p.light.set ch (some Config.slowPeriodMs) }⟩] else []) := by
  have same := SameFigures.setDue s d
  unfold State.offersOf State.firstOffers State.lastOffers
  rw [status0Offers_same (was := s) (s := s.setDue d) rfl, funext (tankOffers_same same), funext (climateOffers_same same),
    funext (motionOffers_same same), funext (interlockOffers_same same), funext (lightOffers_same same)]
  simp only [List.append_assoc]
  rfl

end

end Sys2Proof.Machine
end

