-- ==== Sys2Proof/Proofs/Periods.lean ====
section
/-! PROOFS. The ends of the periods, one by one (R24, R26, R53, R101, R121, R141, R145, R160, R178). -/

namespace Sys2Proof.Machine

/-! ### The periods, one by one (R24, R26, R101, R121, R141, R145, R160, R178) -/

theorem mark_get {n : Nat} (i k : Fin n) : ((Tab.fill n false).set i true).get k = decide (i = k) := by
  rw [Tab.get_set, Tab.get_fill]
  by_cases h : i = k <;> simp [h]

/-- The one key that a mark names. -/
theorem mark_flatMap {n : Nat} {α : Type} {l : List (Fin n)} (d : l.Nodup) {i : Fin n} (m : i ∈ l) (f : Fin n → α) :
    (l.flatMap fun k => if i = k then [f k] else []) = [f i] := by
  rw [flatMap_single d m fun k h => if_neg (Ne.symm h), if_pos rfl]

theorem flatMap_nothing {α β : Type} (l : List α) : (l.flatMap fun _ => ([] : List β)) = [] :=
  List.flatMap_eq_nil_iff.mpr fun _ _ => rfl

@[simp] theorem mark_fin2 {α : Type} (i : Fin 2) (f : Fin 2 → α) :
    (fin2.flatMap fun k => if i = k then [f k] else []) = [f i] :=
  mark_flatMap (by decide) (by revert i; decide) f

@[simp] theorem mark_fin3 {α : Type} (i : Fin 3) (f : Fin 3 → α) :
    (fin3.flatMap fun k => if i = k then [f k] else []) = [f i] :=
  mark_flatMap (by decide) (by revert i; decide) f

@[simp] theorem mark_fin8 {α : Type} (i : Fin 8) (f : Fin 8 → α) :
    (fin8.flatMap fun k => if i = k then [f k] else []) = [f i] :=
  mark_flatMap (by decide) (by revert i; decide) f

/-- Where SHED and SUPPLY are not due, the offers speak of the rest. -/
theorem offersOf_rest {s : State} {d : Due} (shed : d.shed = false) (supply : d.supply = false) (status0 : d.status0 = false)
    (status2 : d.status2 = false) : s.offersOf d
    = fin3.flatMap (fun k => if s.seq.fns.water && s.inRun && d.tank.get k then
      [⟨tankRecord s k, fun p => { p with tank := p.tank.set k (some Config.slowPeriodMs) }⟩] else [])
    ++ fin2.flatMap (fun z => if s.seq.fns.heat && s.inRun && d.climate.get z then
      [⟨climateRecord s z, fun p => { p with climate := p.climate.set z (some Config.slowPeriodMs) }⟩] else [])
    ++ fin2.flatMap (fun ch => (if s.motionRuns && d.motion.get ch then
      [⟨motionRecord s ch, fun p => { p with motion := p.motion.set ch (some (s.motionPeriodMs ch)) }⟩] else [])
      ++ if s.inViolation ch && d.interlock.get ch then
      [⟨interlockRecord s ch, fun p => { p with interlock := p.interlock.set ch (some Config.interlockMs) }⟩] else [])
    ++ fin8.flatMap (fun ch => if s.seq.fns.lights && s.inRun && d.light.get ch then
      [⟨lightRecord s ch, fun p => { p with light := p.light.set ch (some Config.slowPeriodMs) }⟩] else []) := by
  rw [offersOf_eq, shedOffers_nil (by exact shed), supplyOffers_nil (by exact supply), status0, status2]
  rfl

section
variable {s : State} (q : s.quiet) (run : s.inRun = true)
include q run

theorem status_falls_due : State.publish s (s.setDue { s.due with status0 := true })
    = s.take ⟨status0Record s, fun p => { p with status := some s.statusPeriodMs }⟩ := by
  rw [q.2.1]
  refine publish_one q run ((offersOf_eq s _).trans ?_) rfl q.2.2.2
  rw [shedOffers_nil rfl, supplyOffers_nil rfl]
  simp [Due.reset, Tab.get_fill, flatMap_nothing, run]

theorem tank_falls_due (fitted : s.seq.fns.water = true) (k : Fin 3) :
    State.publish s (s.setDue { s.due with tank := s.due.tank.set k true })
      = s.take ⟨tankRecord s k, fun p => { p with tank := p.tank.set k (some Config.slowPeriodMs) }⟩ := by
  rw [q.2.1]
  refine publish_one q run ((offersOf_rest rfl rfl rfl rfl).trans ?_) rfl q.2.2.2
  simp [Due.reset, Tab.get_fill, flatMap_nothing, mark_get, run, fitted]

theorem climate_falls_due (fitted : s.seq.fns.heat = true) (z : Fin 2) :
    State.publish s (s.setDue { s.due with climate := s.due.climate.set z true })
      = s.take ⟨climateRecord s z, fun p => { p with climate := p.climate.set z (some Config.slowPeriodMs) }⟩ := by
  rw [q.2.1]
  refine publish_one q run ((offersOf_rest rfl rfl rfl rfl).trans ?_) rfl q.2.2.2
  simp [Due.reset, Tab.get_fill, flatMap_nothing, mark_get, run, fitted]

theorem motion_falls_due (fitted : s.seq.fns.motion = true) (ch : Fin 2) :
    State.publish s (s.setDue { s.due with motion := s.due.motion.set ch true })
      = s.take ⟨motionRecord s ch, fun p => { p with motion := p.motion.set ch (some (s.motionPeriodMs ch)) }⟩ := by
  rw [q.2.1]
  refine publish_one q run ((offersOf_rest rfl rfl rfl rfl).trans ?_) rfl q.2.2.2
  simp [Due.reset, Tab.get_fill, flatMap_nothing, mark_get, State.motionRuns, run, fitted]

theorem interlock_falls_due (ch : Fin 2) (violated : s.inViolation ch = true) :
    State.publish s (s.setDue { s.due with interlock := s.due.interlock.set ch true })
      = s.take ⟨interlockRecord s ch, fun p => { p with interlock := p.interlock.set ch (some Config.interlockMs) }⟩ := by
  rw [q.2.1]
  refine publish_one q run ((offersOf_rest rfl rfl rfl rfl).trans ?_) rfl fun k off => ?_
  · have own : ∀ k, s.inViolation k = true ∧ ch = k ↔ ch = k := fun k =>
      ⟨And.right, fun h => ⟨h ▸ violated, h⟩⟩
    simp [Due.reset, Tab.get_fill, flatMap_nothing, mark_get, own]
  · have other : ch ≠ k := by
      rintro rfl
      simp [violated] at off
    simp [other, q.2.2.2 k off]

theorem light_falls_due (fitted : s.seq.fns.lights = true) (ch : Fin 8) :
    State.publish s (s.setDue { s.due with light := s.due.light.set ch true })
      = s.take ⟨lightRecord s ch, fun p => { p with light := p.light.set ch (some Config.slowPeriodMs) }⟩ := by
  rw [q.2.1]
  refine publish_one q run ((offersOf_rest rfl rfl rfl rfl).trans ?_) rfl q.2.2.2
  simp [Due.reset, Tab.get_fill, flatMap_nothing, mark_get, run, fitted]

theorem shed_falls_due {f : Figures} (posted : s.supply.latest = some f) :
    State.publish s (s.setDue { s.due with shed := true })
      = s.take ⟨f.shedRecord, fun p => { p with shed := if 0 < f.level then some Config.shedMs else none }⟩ := by
  rw [q.2.1]
  refine publish_one q run ((offersOf_eq s _).trans ?_) rfl q.2.2.2
  rw [supplyOffers_nil rfl]
  have runs : ∀ d, (s.setDue d).inRun = true := fun _ => run
  simp [Due.reset, Tab.get_fill, flatMap_nothing, State.shedOffers, posted, runs]

theorem supply_falls_due {f : Figures} (posted : s.supply.latest = some f) (fitted : s.seq.fns.supply = true) :
    State.publish s (s.setDue { s.due with supply := true })
      = s.take ⟨f.supplyRecord, fun p => { p with supply := some s.supplyPeriodMs }⟩ := by
  rw [q.2.1]
  refine publish_one q run ((offersOf_eq s _).trans ?_) rfl q.2.2.2
  rw [shedOffers_nil rfl]
  have runs : ∀ d, (s.setDue d).inRun = true := fun _ => run
  simp [Due.reset, Tab.get_fill, flatMap_nothing, State.supplyOffers, posted, fitted, runs]
  rfl

end

/-- A claim's DRAW that is repeated is all that goes out. -/
theorem draw_repeats {s : State} (q : s.quiet) (run : s.inRun = true) (id : Fin 7) :
    State.publish s (s.handDraw id) = s.handDraw id := by
  have published : (s.handDraw id).publishes = true := by
    have run := run
    simp only [State.inRun, beq_iff_eq] at run
    simp [State.publishes, State.handDraw, State.hand, run]
  obtain ⟨told, due, ilock, repeats⟩ := q
  have none : State.firstOffers s (s.handDraw id) = [] ∧ State.lastOffers s (s.handDraw id) = [] := by
    have hands : Hands s (s.handDraw id) := (hand_hands s _ _).trans (setPeriods_hands _ _)
    have shed := (shedOffers_hands hands).trans (shedOffers_nil (by rw [due]; rfl))
    have supply := (supplyOffers_hands hands).trans (supplyOffers_nil (by rw [due]; rfl))
    have all : State.firstOffers s s ++ State.lastOffers s s = [] := by
      rw [show State.firstOffers s s ++ State.lastOffers s s = s.offersOf s.due from rfl, due, offersOf_rest rfl rfl rfl rfl]
      simp [Due.reset, Tab.get_fill, flatMap_nothing]
    obtain ⟨first, last⟩ := List.append_eq_nil_iff.mp all
    refine ⟨?_, (lastOffers_hands hands s).trans last⟩
    rw [← first]
    unfold State.firstOffers
    rw [status0Offers_hands hands, shedOffers_hands hands, supplyOffers_hands hands]
  rw [publish_told (by exact told) published, none.1, none.2, List.foldl_nil, List.foldl_nil, publishStatus1_none]
  · rw [show (s.handDraw id).setDue Due.reset = s.handDraw id from by rw [← due]; rfl]
    exact driveIlock_settled ilock repeats
  · show s.due.status1 = false
    rw [due]
    rfl

/-- The counters' period hands two records over. -/
theorem counters_fall_due {s : State} (q : s.quiet) (run : s.inRun = true) (p : Periods)
    (repeats : p.interlock = s.periods.interlock) :
    State.publish s ((s.setPeriods p).setDue { s.due with status1 := true, status2 := true })
      = ((s.hand (status1Record s) 0).hand (status2Record s) 0).setPeriods p := by
  obtain ⟨told, due, ilock, still⟩ := q
  have published : s.publishes = true := by
    simp only [State.inRun, beq_iff_eq] at run
    simp [State.publishes, run]
  have all : s.offersOf { s.due with status1 := true, status2 := true } = [⟨status2Record s, id⟩] := by
    rw [due, offersOf_eq, shedOffers_nil rfl, supplyOffers_nil rfl]
    simp [Due.reset, Tab.get_fill, flatMap_nothing]
  have first : State.firstOffers s ((s.setPeriods p).setDue { s.due with status1 := true, status2 := true }) = [] := by
    show s.shedOffers ++ s.supplyOffers ++ State.status0Offers s (s.setDue { s.due with status1 := true, status2 := true })
      = []
    rw [shedOffers_nil (by rw [due]; rfl), supplyOffers_nil (by rw [due]; rfl), status0Offers_same (by rfl), due]
    rfl
  have last : State.lastOffers s ((s.setPeriods p).setDue { s.due with status1 := true, status2 := true })
      = [⟨status2Record s, id⟩] := by
    rw [← all]
    show _ = State.firstOffers s ((s.setPeriods p).setDue { s.due with status1 := true, status2 := true }) ++ _
    rw [first]
    rfl
  rw [publish_told (s := (s.setPeriods p).setDue { s.due with status1 := true, status2 := true }) told published, first,
    last]
  rw [List.foldl_nil, State.publishStatus1, if_pos (by rfl), List.foldl_cons, List.foldl_nil]
  generalize t_eq : ((s.hand (status1Record s) 0).hand (status2Record s) 0).setPeriods p = t
  have settled : t.due = Due.reset := by
    rw [← t_eq]
    exact due
  have held : t.driveIlock = t := by
    subst t_eq
    exact driveIlock_settled ilock fun ch off => (congrArg (fun x => x.get ch) repeats).trans (still ch off)
  have gone : t.setDue Due.reset = t := by rw [← settled]; rfl
  refine Eq.trans ?_ ((congrArg State.driveIlock gone).trans held)
  rw [← t_eq]
  rfl

end Sys2Proof.Machine

namespace Sys2Proof.Proofs
open Sys2Proof.Machine

/-- Settles O24: one lemma a period, each by the list of what the step offers. -/
theorem periodsHandOver : Obligations.PeriodsHandOver := by
  intro s quiet phase
  have run : s.inRun = true := by simp [State.inRun, phase]
  have status : s.statusPeriodMs = if s.seq.storage = true then 5000 else 1000 := rfl
  have supply : s.supplyPeriodMs = if s.seq.storage = true then 2500 else 500 := rfl
  have step : ∀ {c : Prop} [Decidable c] {u t : State}, c → State.publish s u = t →
      done s (if c then u else s) = .next t := fun h e => by rw [if_pos h, ← e]; rfl
  refine ⟨fun h => ?_, fun h => ?_, fun f posted => ⟨fun h => ?_, fun fitted h => ?_⟩, fun id h drawing => ?_,
    fun fitted k h => ?_, fun fitted z h => ?_, fun fitted ch => ⟨fun h => ?_, fun h => ?_⟩, fun fitted ch h => ?_⟩
  · rw [← status]
    exact step h (status_falls_due quiet run)
  · exact step h (counters_fall_due quiet run _ rfl)
  · exact step h (shed_falls_due quiet run posted)
  · rw [← supply]
    exact step h (supply_falls_due quiet run posted fitted)
  · have tag : (if (s.claim id).raise = true ∧ (s.claim id).st = .held then (s.claim id).serial else 0)
        = if (s.claim id).contesting then (s.claim id).serial else 0 := by
      unfold Claim.drawing at drawing
      unfold Claim.contesting
      cases e : (s.claim id).st <;> simp_all
    rw [tag]
    refine (step ⟨h, drawing⟩ (draw_repeats quiet run id)).trans ?_
    unfold State.handDraw
    dsimp only
    rw [if_pos drawing]
    rfl
  · exact step h (tank_falls_due quiet run fitted k)
  · exact step h (climate_falls_due quiet run fitted z)
  · have ms : s.motionPeriodMs ch = if (s.chan ch).atRest = true then 1000 else 200 := by
      unfold State.motionPeriodMs Chan.active Chan.moving Chan.atRest
      cases (s.chan ch).st <;> rfl
    rw [← ms]
    exact step h (motion_falls_due quiet run fitted ch)
  · refine step h (interlock_falls_due quiet run ch ?_)
    by_contra off
    rw [quiet.2.2.2 ch (by simpa using off)] at h
    simp at h
  · exact step h (light_falls_due quiet run fitted ch)

end Sys2Proof.Proofs
end

