-- ==== Sys2Proof/Proofs/Holding.lean ====
section
/-! PROOFS. A record of the periodic lane is held through the handing over of others, where there is room for all. -/

namespace Sys2Proof.Machine

/-! ### Holding a record of the periodic lane (R165, R171, R172)

A record of classes 1 to 3 waits in the periodic lane or stands in the normal buffer, whatever the urgent lane does. -/

/-- The record waits in the periodic lane or stands in the normal buffer. -/
def Bus.holds (b : Bus) (q : Record) : Prop :=
  (∃ w ∈ b.periodic, w.item.record = q) ∨ ∃ f, b.normalBuf = some f ∧ ∃ x ∈ f.records, x.record = q

theorem Bus.holds.carries {b : Bus} {q : Record} (h : b.holds q) : b.carries q :=
  h.imp (fun ⟨w, m, e⟩ => ⟨w, List.mem_append_left _ m, e⟩) fun ⟨f, m, x⟩ => ⟨f, .inr m, x⟩

theorem Bus.buildNormal_holds {b : Bus} {q : Record} (c : Nat) (n : b.normalBuf = none) (h : b.holds q) :
    (b.buildNormal c).holds q := by
  rcases h with ⟨w, m, e⟩ | ⟨f, m, x⟩
  · rcases mem_takeOut_or (c := c) m 4 with m | m
    · exact .inl ⟨w, m, e⟩
    · exact .inr ⟨_, rfl, w.item, List.mem_map_of_mem m, e⟩
  · rw [n] at m
    cases m

theorem Bus.build_holds {b : Bus} {q : Record} (now : Nat) (h : b.holds q) : (b.build now).holds q := by
  rw [Bus.build_eq]
  split
  · exact h
  · have u : b.buildUrgent.holds q := by
      unfold Bus.buildUrgent
      split <;> exact h
    generalize b.buildUrgent = c at u
    unfold Bus.buildRest
    split
    · exact u
    · rename_i n
      have n : c.normalBuf = none := by simpa using n
      split
      · exact Bus.buildNormal_holds 1 n u
      · split
        · exact Bus.buildNormal_holds 2 n u
        · split
          · exact Bus.buildNormal_holds 3 n u
          · exact u

/-- The record goes to the urgent lane, or finds its place in the periodic one. -/
def Bus.roomFor (b : Bus) (r : Record) : Prop := r.kind.cls = 0 ∨ b.periodic.length < 8

theorem Bus.join_holds {b : Bus} {r : Record} (now tag : Nat) (c : r.kind.cls ≠ 0) (room : b.periodic.length < 8) :
    (b.join now ⟨r, tag⟩).holds r := by
  unfold Bus.join
  rw [if_neg c]
  split
  · rename_i a
    obtain ⟨w, hw, k⟩ := mem_coalesce_self (t := ⟨r, tag⟩) a
    exact .inl ⟨w, hw, congrArg Tagged.record k⟩
  · rw [if_pos (show b.periodic.length < Config.periodicSlots from room)]
    exact .inl ⟨⟨⟨r, tag⟩, now, false⟩, by simp, rfl⟩

theorem Bus.join_holds_other {b : Bus} {r q : Record} (now tag : Nat) (room : b.roomFor r)
    (k : q.kind ≠ r.kind ∨ q.subject ≠ r.subject) (h : b.holds q) : (b.join now ⟨r, tag⟩).holds q := by
  have other : ∀ w : Waiting, w.item.record = q → w.sameKey r = false := fun w e => by
    unfold Waiting.sameKey
    rw [e]
    rcases k with k | k <;> simp [k]
  unfold Bus.join
  split
  · split
    · exact h
    · split <;> exact h
  · rename_i c
    have room := room.resolve_left c
    split
    · exact h.imp_left fun ⟨w, m, e⟩ => ⟨w, mem_coalesce_other m (other w e), e⟩
    · rw [if_pos (show b.periodic.length < Config.periodicSlots from room)]
      exact h.imp_left fun ⟨w, m, e⟩ => ⟨w, List.mem_append_left _ m, e⟩

theorem Bus.join_urgent_length {b : Bus} {r : Record} (now tag : Nat) (c : r.kind.cls = 0) :
    (b.join now ⟨r, tag⟩).periodic = b.periodic := by
  unfold Bus.join
  rw [if_pos c]
  split
  · rfl
  · split <;> rfl

theorem hand_holds {s : State} {r : Record} (tag : Nat) (c : r.kind.cls ≠ 0) (room : s.bus.periodic.length < 8) :
    (s.hand r tag).bus.holds r :=
  Bus.build_holds s.now (Bus.join_holds s.now tag c room)

theorem hand_holds_other {s : State} {r q : Record} (tag : Nat) (room : s.bus.roomFor r)
    (k : q.kind ≠ r.kind ∨ q.subject ≠ r.subject) (h : s.bus.holds q) : (s.hand r tag).bus.holds q :=
  Bus.build_holds s.now (Bus.join_holds_other s.now tag room k h)

theorem hand_urgent_length {s : State} {r : Record} (tag : Nat) (c : r.kind.cls = 0) :
    (s.hand r tag).bus.periodic.length ≤ s.bus.periodic.length :=
  (Bus.build_periodic_length s.now _).trans (by rw [Bus.join_urgent_length s.now tag c])

/-! ### A list of offers -/

/-- How many records of the list go to the periodic lane. -/
def periodicCount (l : List Offer) : Nat := l.countP fun o => o.record.kind.cls != 0

theorem take_length (s : State) (o : Offer) :
    (s.take o).bus.periodic.length ≤ s.bus.periodic.length + periodicCount [o] := by
  by_cases c : o.record.kind.cls = 0
  · exact (hand_urgent_length 0 c).trans (Nat.le_add_right _ _)
  · have one : periodicCount [o] = 1 := by simp [periodicCount, c]
    rw [one]
    exact hand_periodic_length s o.record 0

theorem periodicCount_cons (o : Offer) (l : List Offer) : periodicCount (o :: l) = periodicCount [o] + periodicCount l := by
  simp only [periodicCount, List.countP_cons, List.countP_nil]
  omega

theorem takes_length (l : List Offer) (s : State) :
    (l.foldl State.take s).bus.periodic.length ≤ s.bus.periodic.length + periodicCount l := by
  induction l generalizing s with
  | nil => exact Nat.le_add_right _ _
  | cons o l ih =>
    have one := take_length s o
    have rest := ih (s.take o)
    rw [periodicCount_cons, List.foldl_cons]
    omega

/-- A record held stays held while records of other keys find their places. -/
theorem takes_holds {l : List Offer} {s : State} {q : Record} (room : s.bus.periodic.length + periodicCount l ≤ 8)
    (other : ∀ o ∈ l, q.kind ≠ o.record.kind ∨ q.subject ≠ o.record.subject) (h : s.bus.holds q) :
    (l.foldl State.take s).bus.holds q := by
  induction l generalizing s with
  | nil => exact h
  | cons o l ih =>
    have one := take_length s o
    rw [periodicCount_cons] at room
    refine ih (by omega) (fun p m => other p (List.mem_cons_of_mem _ m)) ?_
    refine hand_holds_other (s := s) 0 ?_ (other o List.mem_cons_self) h
    by_cases c : o.record.kind.cls = 0
    · exact .inl c
    · have : periodicCount [o] = 1 := by simp [periodicCount, c]
      exact .inr (by omega)

/-- Each record of a list of offers with keys of their own is held after it, where there is room for all of them. -/
theorem offers_hold {l k : List Offer} {o : Offer} {s : State} (c : o.record.kind.cls ≠ 0)
    (room : s.bus.periodic.length + periodicCount (l ++ o :: k) ≤ 8)
    (other : ∀ p ∈ k, o.record.kind ≠ p.record.kind ∨ o.record.subject ≠ p.record.subject) :
    ((l ++ o :: k).foldl State.take s).bus.holds o.record := by
  have before := takes_length l s
  have split : periodicCount (l ++ o :: k) = periodicCount l + (1 + periodicCount k) := by
    have one : periodicCount [o] = 1 := by simp [periodicCount, c]
    rw [← one, ← periodicCount_cons]
    exact List.countP_append
  have one := hand_periodic_length (l.foldl State.take s) o.record 0
  rw [List.foldl_append, List.foldl_cons]
  refine takes_holds ?_ other (hand_holds 0 c (by omega))
  refine Nat.le_trans (Nat.add_le_add_right one _) ?_
  omega

end Sys2Proof.Machine
end

