-- ==== Sys2Proof/Proofs/Listening.lean ====
section
/-! PROOFS. The end of Listen: Setup begins and all of STATUS is handed over (R178, R184). -/

namespace Sys2Proof.Machine

/-! ### STATUS outside Run (R178, R184) -/

/-- Outside Run only STATUS is handed over. -/
theorem firstOffers_outside {was s : State} (h : s.inRun = false) :
    State.firstOffers was s = State.status0Offers was s := by
  have shed : s.shedOffers = [] := by
    unfold State.shedOffers
    split <;> simp [h]
  have supply : s.supplyOffers = [] := by
    unfold State.supplyOffers
    split <;> simp [h]
  simp [State.firstOffers, shed, supply]

theorem lastOffers_outside {was s : State} (h : s.inRun = false) : State.lastOffers was s = s.status2Offers := by
  simp [State.lastOffers, State.tankOffers, State.climateOffers, State.motionOffers, State.interlockOffers,
    State.lightOffers, State.inViolation, State.motionRuns, h]

/-- The records of STATUS agree before and after they are handed over, where nothing is discarded. -/
theorem State.handedOver.status0Record {s t : State} (h : s.handedOver t) : status0Record t = status0Record s := by
  unfold Sys2Proof.Machine.status0Record statusState State.chargeSource
  rw [h.seq, h.view, h.status, h.lineFault, h.busSilent, h.pins]

theorem State.handedOver.status2Record {s t : State} (h : s.handedOver t) : status2Record t = status2Record s := by
  unfold Sys2Proof.Machine.status2Record
  rw [h.seq, h.status]

theorem State.handedOver.status1Record {s t : State} (h : s.handedOver t) (d : t.bus.dropped = s.bus.dropped) :
    status1Record t = status1Record s := by
  unfold Sys2Proof.Machine.status1Record
  rw [h.overrun, h.unknown, h.view, d]

/-- Listen ends: Setup begins and all of STATUS is due (R184). -/
def State.setupBegins (s : State) : State :=
  ((s.setSeq { s.seq with phase := .setup, phaseTimer := some 5000 }).setPeriods
    { s.periods with counters := some 5000 }).setDue { s.due with status0 := true, status1 := true, status2 := true }

theorem listenTimerExpiry_eq {s : State} (h : s.seq.phase = .listen ∧ s.seq.phaseTimer.isSome = true) :
    exec .listenTimerExpiry s = .next (State.publish s s.setupBegins) := by
  have arm : exec .listenTimerExpiry s = execListenTimerExpiry s := rfl
  rw [arm, execListenTimerExpiry, if_pos h]
  rfl

/-- The Gatherer as Setup begins: subjects 0, 1 and 2 handed over in that order. -/
theorem setupBegins_bus {s : State} (told : s.view.changes = []) : (State.publish s s.setupBegins).bus
    = (((s.setupBegins.take ⟨status0Record s.setupBegins, fun p => { p with status := none }⟩).hand
        (status1Record (s.setupBegins.take ⟨status0Record s.setupBegins, fun p => { p with status := none }⟩)) 0).take
        ⟨status2Record s.setupBegins, id⟩).bus := by
  rw [publish_told (s := s.setupBegins) told rfl, firstOffers_outside rfl, lastOffers_outside rfl]
  rfl

theorem setupBegins_counters {s : State} (told : s.view.changes = []) :
    (State.publish s s.setupBegins).periods.counters = some 5000 := by
  rw [publish_told (s := s.setupBegins) told rfl, firstOffers_outside rfl, lastOffers_outside rfl]
  rfl

theorem status0Record_cls (s : State) : (status0Record s).kind.cls ≠ 0 := (by decide : (2 : Nat) ≠ 0)

theorem status1Record_cls (s : State) : (status1Record s).kind.cls ≠ 0 := (by decide : (2 : Nat) ≠ 0)

theorem status2Record_cls (s : State) : (status2Record s).kind.cls ≠ 0 := (by decide : (2 : Nat) ≠ 0)

/-- The three records of STATUS, handed over one after the other with room for all: each is held, and none is discarded. -/
theorem status_held {u v w x : State} {p : Periods → Periods} (lane : u.bus.periodic.length ≤ 5)
    (hv : v = u.take ⟨status0Record u, p⟩) (hw : w = v.hand (status1Record v) 0) (hx : x = w.take ⟨status2Record u, id⟩) :
    x.bus.holds (status0Record u) ∧ x.bus.holds (status1Record u) ∧ x.bus.holds (status2Record u)
      ∧ x.bus.dropped = u.bus.dropped := by
  have len1 : v.bus.periodic.length ≤ 6 := by
    rw [hv]
    exact (hand_periodic_length u (status0Record u) 0).trans (Nat.add_le_add_right lane 1)
  have len2 : w.bus.periodic.length ≤ 7 := by
    rw [hw]
    exact (hand_periodic_length v (status1Record v) 0).trans (Nat.add_le_add_right len1 1)
  have d1 : v.bus.dropped = u.bus.dropped := by
    rw [hv]
    exact hand_dropped_of_admits 0 (Bus.admits_of_room (status0Record_cls _) (by omega))
  have d2 : w.bus.dropped = v.bus.dropped := by
    rw [hw]
    exact hand_dropped_of_admits 0 (Bus.admits_of_room (status1Record_cls _) (by omega))
  have d3 : x.bus.dropped = w.bus.dropped := by
    rw [hx]
    exact hand_dropped_of_admits (s := w) 0 (Bus.admits_of_room (status2Record_cls _) (by omega))
  have hands : Hands u v := hv ▸ take_hands u _
  have same : status1Record v = status1Record u := by
    have line := hands.line
    unfold Bus.sameLine at line
    unfold status1Record
    rw [d1, hands.rest, line]
    rfl
  have in0 : v.bus.holds (status0Record u) := hv ▸ hand_holds (s := u) 0 (status0Record_cls _) (by omega)
  have in1 : w.bus.holds (status0Record u) := by
    rw [hw]
    exact hand_holds_other 0 (.inr (by omega)) (.inr (Nat.zero_ne_one)) in0
  have in1' : w.bus.holds (status1Record u) := by
    rw [hw, same]
    exact hand_holds 0 (status1Record_cls _) (by omega)
  rw [d3, d2, d1, hx]
  exact ⟨hand_holds_other (s := w) 0 (.inr (by omega)) (.inr (by decide : (0 : Nat) ≠ 2)) in1,
    hand_holds_other (s := w) 0 (.inr (by omega)) (.inr (by decide : (1 : Nat) ≠ 2)) in1',
    hand_holds (s := w) 0 (status2Record_cls _) (by omega), rfl⟩

end Sys2Proof.Machine

namespace Sys2Proof.Proofs
open Sys2Proof.Machine

/-- Settles O15: with three free slots each of the three records finds its place, and none pushes another out. -/
theorem listenEndsInSetup : Obligations.ListenEndsInSetup := by
  intro s quiet phase timer room
  refine ⟨_, listenTimerExpiry_eq ⟨phase, timer⟩, publish_handedOver s s.setupBegins quiet.1, ?_, ?_, ?_,
    setupBegins_counters quiet.1⟩
  all_goals
    have hand := publish_handedOver s s.setupBegins quiet.1
    have bus := setupBegins_bus quiet.1
    have lane : s.setupBegins.bus.periodic.length ≤ 5 := room
    generalize State.publish s s.setupBegins = t at hand bus ⊢
    obtain ⟨h0, h1, h2, drop⟩ := status_held lane rfl rfl rfl
    rw [← bus] at h0 h1 h2 drop
  · rw [hand.status0Record]
    exact h0.carries
  · rw [hand.status1Record drop]
    exact h1.carries
  · rw [hand.status2Record]
    exact h2.carries

end Sys2Proof.Proofs
end

