-- ==== Sys2Proof/Proofs/Settings.lean ====
section
/-! PROOFS. SETUP records and what their values are brought to (R185); an answer that changes no other figure (R180, R182). -/

namespace Sys2Proof.Machine

/-! ### Setup values (R185) -/

section
variable {lo hi step : Nat} (v : Nat)

theorem clampStep_mod : clampStep (lo, hi, step) v % step = 0 := Nat.mul_mod_left _ _

/-- Bringing down to a step takes off less than the step. -/
theorem clampStep_near (pos : 0 < step) :
    clampStep (lo, hi, step) v ≤ max lo (min hi v) ∧ max lo (min hi v) < clampStep (lo, hi, step) v + step :=
  ⟨Nat.div_mul_le_self _ _, Nat.lt_div_mul_add pos⟩

/-- A range whose bounds lie on its step is not left by the way down to the step. -/
theorem clampStep_range (pos : 0 < step) (hlo : lo % step = 0) (le : lo ≤ hi) :
    lo ≤ clampStep (lo, hi, step) v ∧ clampStep (lo, hi, step) v ≤ hi := by
  obtain ⟨near, -⟩ := clampStep_near (lo := lo) (hi := hi) v pos
  refine ⟨?_, near.trans (by omega)⟩
  calc lo = lo / step * step := by rw [Nat.div_mul_cancel (Nat.dvd_of_mod_eq_zero hlo)]
    _ ≤ clampStep (lo, hi, step) v := Nat.mul_le_mul_right _ (Nat.div_le_div_right (le_max_left _ _))

theorem clampStep_bound {x : Nat} (hx : x % step = 0) (e : max lo (min hi v) = x) : clampStep (lo, hi, step) v = x := by
  unfold clampStep
  dsimp only
  rw [e, Nat.div_mul_cancel (Nat.dvd_of_mod_eq_zero hx)]

end

/-- A plain item is brought into its range. -/
theorem clampItem_plain {i : Nat} (v : Nat) (points : ¬ (10 ≤ i ∧ i ≤ 17)) (roster : i ≠ 20)
    (tanks : ¬ (22 ≤ i ∧ i ≤ 24)) : clampItem i v = clampStep (itemRange i) v := by
  rw [clampItem, if_neg points, if_neg roster, if_neg tanks]

/-- What a SETUP item leaves. -/
theorem takeSetup_item (s : State) {i : Nat} (h : i < 49) (v : Nat) : s.takeSetup i v = s.setSeq { s.seq with
    pendingItems := s.seq.pendingItems.set ⟨i, h⟩ (some (clampItem i v)), tookItem := true,
    clamped := s.seq.clamped || decide (clampItem i v ≠ v) } := by
  have differs : (clampItem i v != v) = decide (clampItem i v ≠ v) := by
    by_cases e : clampItem i v = v <;> simp [e]
  unfold State.takeSetup asItem
  rw [dif_pos h]
  dsimp only
  rw [differs]

theorem takeSetup_none (s : State) {i : Nat} (h : ¬ i < 49) (v : Nat) :
    s.takeSetup i v = s.setSeq { s.seq with clamped := true } := by
  unfold State.takeSetup asItem
  rw [dif_neg h]

/-- A SETUP that does not end Setup goes to `setupHandled`. -/
theorem setup_dispatched {s : State} {n k i v : Nat}
    (b : s.brings n { subject := k, payload := .setup { index := i, value := v } })
    (away : s.seq.phase = .setup → i = 63 → k ≠ 0 ∧ k ≠ s.seq.station) :
    exec .setup s = .next (State.publish s
      (s.taken.setupHandled { subject := k, payload := .setup { index := i, value := v } })) := by
  have item : s.isSetupItem { subject := k, payload := .setup { index := i, value := v } } = true := by
    by_cases phase : s.seq.phase = .setup
    · by_cases last : i = 63
      · simp [State.isSetupItem, State.isSetupEnd, State.addressed, away phase last]
      · simp [State.isSetupItem, State.isSetupEnd, last]
    · simp [State.isSetupItem, State.isSetupEnd, phase]
  have arm : exec .setup s = done s (s.dispatch s.isSetupItem fun s _ r => s.setupHandled r) := rfl
  rw [arm, dispatch_brings b item]
  rfl

/-! ### An answer (R178, R180) -/

/-- An answer that changes no other figure hands over STATUS subject 0 alone. -/
theorem publish_answer {was s : State} (told : s.view.changes = []) (p : s.publishes = true)
    (due : s.due = { Due.reset with status0 := true }) (same : SameFigures was s) : State.publish was s
      = ((s.take ⟨status0Record s, fun p => { p with status := if s.inRun then some s.statusPeriodMs else none }⟩).setDue
        Due.reset).driveIlock := by
  have first : State.firstOffers was s
      = [⟨status0Record s, fun p => { p with status := if s.inRun then some s.statusPeriodMs else none }⟩] := by
    rw [State.firstOffers, shedOffers_nil (by rw [due]; rfl), supplyOffers_nil (by rw [due]; rfl), State.status0Offers,
      if_pos (by rw [due]; rfl)]
    rfl
  have last : State.lastOffers was s = [] := lastOffers_nil same (by rw [due]; rfl) (by rw [due]) (by rw [due])
    (by rw [due]) (by rw [due]) (by rw [due])
  rw [publish_told told p, first, last, List.foldl_nil, List.foldl_cons, List.foldl_nil, publishStatus1_none]
  show s.due.status1 = false
  rw [due]
  rfl

/-- The Gatherer holds STATUS subject 0 with the answer. -/
theorem publish_answer_carries {was s : State} (told : s.view.changes = []) (p : s.publishes = true)
    (due : s.due = { Due.reset with status0 := true }) (same : SameFigures was s) (room : s.bus.periodic.length ≤ 7) :
    (State.publish was s).bus.carries (status0Record (State.publish was s)) := by
  rw [(publish_handedOver was s told).status0Record, publish_answer told p due same]
  exact (hand_holds 0 (status0Record_cls s) (by omega)).carries

theorem brings_publishes {s : State} {n : Nat} {r : Record} (b : s.brings n r) (phase : s.seq.phase ≠ .listen) :
    s.publishes = true := by
  obtain ⟨out, -, -⟩ := b
  have out : s.seq.phase ≠ .reset := by simpa [State.inReset] using out
  simp [State.publishes, out, phase]

end Sys2Proof.Machine

namespace Sys2Proof.Proofs
open Sys2Proof.Machine

/-- Settles O17: the special items by their own lines, every other by the way down to a step inside its range. -/
theorem setupValuesAreClamped : Obligations.SetupValuesAreClamped := by
  intro i v _ _
  refine ⟨fun h => ?_, fun h => ?_, fun h => ?_, fun lo hi step h => ?_⟩
  · rw [clampItem, if_pos h]
    rfl
  · rw [clampItem, if_neg (by omega), if_neg (by omega), if_pos h]
    rfl
  · rw [clampItem, if_neg (by omega), if_pos h]
  · have row : itemRange i = (lo, hi, step) ∧ 0 < step ∧ lo % step = 0 ∧ hi % step = 0 ∧ lo ≤ hi
        ∧ ¬ (10 ≤ i ∧ i ≤ 17) ∧ i ≠ 20 ∧ ¬ (22 ≤ i ∧ i ≤ 24) := by
      refine (?_ : ∀ e ∈ (_ : List (Nat × Nat × Nat × Nat)), itemRange e.1 = e.2 ∧ 0 < e.2.2.2 ∧ e.2.1 % e.2.2.2 = 0
        ∧ e.2.2.1 % e.2.2.2 = 0 ∧ e.2.1 ≤ e.2.2.1 ∧ ¬ (10 ≤ e.1 ∧ e.1 ≤ 17) ∧ e.1 ≠ 20 ∧ ¬ (22 ≤ e.1 ∧ e.1 ≤ 24))
        (i, lo, hi, step) h
      decide
    obtain ⟨range, pos, hlo, hhi, le, points, roster, tanks⟩ := row
    rw [clampItem_plain v points roster tanks, range]
    obtain ⟨above, below⟩ := clampStep_range (hi := hi) v pos hlo le
    obtain ⟨near, nearer⟩ := clampStep_near (lo := lo) (hi := hi) v pos
    refine ⟨above, below, clampStep_mod v, fun h => clampStep_bound v hhi (by omega),
      fun h => clampStep_bound v hlo (by omega), fun h k => ?_⟩
    have inside : max lo (min hi v) = v := by omega
    rw [inside] at near nearer
    exact ⟨near, nearer⟩

/-- Settles O16: the SETUP reaches `setupHandled`, whose branches are the cases. -/
theorem setupRecordTaken : Obligations.SetupRecordTaken := by
  intro s n k i v told b _ away
  refine ⟨_, setup_dispatched b away, ?_⟩
  generalize r_eq : ({ subject := k, payload := .setup { index := i, value := v } } : Record) = r
  have fields : r.setupFields = (i, v) := by rw [← r_eq]; rfl
  have subject : r.subject = k := by rw [← r_eq]
  have handled : ∀ t : State, t.view.changes = [] → s.taken.setupHandled r = t →
      State.handedOver t (State.publish s (s.taken.setupHandled r)) := fun t h e => by
    rw [e]
    exact publish_handedOver s t h
  split
  · rename_i other
    refine handled _ told ?_
    simp [State.setupHandled, State.addressed, subject, other, State.taken]
  · rename_i own
    have addressed : s.taken.addressed r = true := by
      simp only [State.addressed, subject, State.taken, Bool.or_eq_true, beq_iff_eq]
      by_contra h
      exact own (not_or.mp h)
    split
    · rename_i phase
      refine handled _ told ?_
      have phase : (s.taken.seq.phase != .setup) = true := bne_iff_ne.mpr phase
      rw [State.setupHandled, addressed, phase, sat255]
      rfl
    · rename_i phase
      have enters : s.taken.setupHandled r = s.taken.takeSetup i v := by
        have phase : s.taken.seq.phase = .setup := not_not.mp phase
        simp [State.setupHandled, addressed, phase, fields]
      split
      · rename_i h
        exact handled _ told (enters.trans (takeSetup_item _ h v))
      · rename_i h
        exact handled _ told (enters.trans (takeSetup_none _ h v))

/-- Settles O22: the answer alone changes, and STATUS subject 0 is all that is handed over. -/
theorem ackAttention : Obligations.AckAttention := by
  intro s i v quiet asks
  have arm : exec .ackAttention s = done s (s.onRequest 13 fun s _ _ =>
    match s.refusal true with
    | some o => s.answer 13 o
    | none => (s.answer 13 Outcome.accepted).setStatus { (s.answer 13 Outcome.accepted).status with attention := false }) := rfl
  rw [arm, onRequest_asks asks]
  refine ⟨_, rfl, fun phase => ?_, fun phase => ?_, fun phase room => ?_⟩
  · have refused : s.taken.refusal true = some 10 := by
      simp [State.refusal, State.inRun, State.taken, phase]
      rfl
    rw [refused]
    exact publish_handedOver s (s.taken.answer 13 10) quiet.1
  · have runs : s.taken.refusal true = none := by simp [State.refusal, State.inRun, State.taken, phase]
    rw [runs]
    exact publish_handedOver s ((s.taken.answer 13 1).setStatus _) quiet.1
  · have published : s.publishes = true := by
      obtain ⟨n, k, b, -⟩ := asks
      exact brings_publishes b phase
    have due : ∀ o, (s.taken.answer 13 o).due = { Due.reset with status0 := true } := fun o => by
      rw [← quiet.2.1]
      rfl
    have same : ∀ t : State, (∃ o a, t = (s.taken.answer 13 o).setStatus a) → SameFigures s t := by
      rintro t ⟨o, a, rfl⟩
      exact ⟨rfl, rfl, fun _ => rfl, fun _ => rfl, fun _ => rfl, fun _ => rfl⟩
    split
    · rename_i o _
      exact publish_answer_carries quiet.1 published (due o) (same _ ⟨o, _, rfl⟩) room
    · exact publish_answer_carries quiet.1 published (due Outcome.accepted) (same _ ⟨Outcome.accepted, _, rfl⟩) room

end Sys2Proof.Proofs
end

