-- ==== Sys2Proof/Proofs/Values.lean ====
section
/-! PROOFS. The values at the end of Setup (R6, R185, R186) and the state in which Setup's end leaves the part. -/

namespace Sys2Proof.Machine

/-! ### The end of Setup (R186) -/

/-- What the Start Sequencer holds once the values are taken. -/
def State.seqAtEnd (s : State) : Seq :=
  { s.seq with
    values := (valuesAtEnd s.seq.values s.seq.pendingItems).1, pendingItems := Tab.fill 49 none,
    clamped := s.seq.clamped || (valuesAtEnd s.seq.values s.seq.pendingItems).2,
    defaultsUsed := s.seq.defaultsUsed || !s.seq.tookItem, phase := .calibrate, phaseTimer := some Config.calibrateMs }

/-- The counter, started again where the capacity is another one. -/
def State.supplyAtEnd (s : State) : Supply :=
  if s.seq.fns.supply then s.supply.recount s.seqAtEnd.values else s.supply

def State.cellAtEnd (s : State) : Cell :=
  { s.cell with
    values := s.seqAtEnd.values, q := s.supplyAtEnd.q, r := s.supplyAtEnd.r, anchored := s.supplyAtEnd.anchored,
    capKept := s.supplyAtEnd.capKept }

theorem expel_eq (s : State) (p : Fin 4 → Entry → Bool) (cause : Cause) :
    s.expel p cause = s.setView (s.expel p cause).view := rfl

theorem rosterAndPinning_eq (s : State) : s.rosterAndPinning = s.setView s.rosterAndPinning.view := by
  unfold State.rosterAndPinning
  dsimp only
  split <;> rfl

/-- Entering Calibrate, field by field. -/
theorem calibrateEntered_eq (s : State) : s.calibrateEntered = { s with
    seq := { s.seq with phase := .calibrate, phaseTimer := some Config.calibrateMs }
    motion := if s.seq.fns.motion then ((s.calibrationBegins 0).calibrationBegins 1).motion else s.motion
    water := if s.seq.fns.water then { s.water with readTimer := some 0 } else s.water
    climate := if s.seq.fns.heat then { s.climate with readTimer := some 0 } else s.climate
    supply := if s.seq.fns.supply then { s.supply with intervalTimer := some 0 } else s.supply } := by
  unfold State.calibrateEntered
  obtain ⟨_, _, _, seq, _, _, _, _, _, _, _, _, _, _, _, _⟩ := s
  obtain ⟨_, _, _, _, _, ⟨supply, water, heat, motion, _⟩, _, _, _, _, _, _⟩ := seq
  cases supply <;> cases water <;> cases heat <;> cases motion <;> rfl

/-- The state in which the roster and the pinned ways come into force. -/
def State.valuesTaken (s : State) : State :=
  { s with
    seq := { s.seqAtEnd with phase := s.seq.phase, phaseTimer := s.seq.phaseTimer }, supply := s.supplyAtEnd,
    bus := { s.bus with gatherMs := Item.gatherMs s.seqAtEnd.values }, cell := s.cellAtEnd,
    due := { s.due with status0 := true } }

theorem setupEnds_eq (s : State) : s.setupEnds = s.valuesTaken.rosterAndPinning.calibrateEntered := by
  unfold State.setupEnds
  extract_lets e _ taken counted _ timed _ kept _ marked
  have hc : counted = { taken with supply := s.supplyAtEnd } := by
    show (if s.seq.fns.supply then taken.setSupply (taken.supply.recount taken.seq.values) else taken) = _
    unfold State.supplyAtEnd
    split <;> rfl
  have ht : timed = { taken with supply := s.supplyAtEnd, bus := { s.bus with gatherMs := Item.gatherMs e.1 } } := by
    show counted.setBus { counted.bus with gatherMs := Item.gatherMs counted.seq.values } = _
    rw [hc]
    rfl
  have hk : kept = { timed with cell := s.cellAtEnd } := by
    show timed.setCell { timed.cell with
      values := timed.seq.values, q := timed.supply.q, r := timed.supply.r, anchored := timed.supply.anchored,
      capKept := timed.supply.capKept } = _
    rw [ht]
    rfl
  have hm : marked = s.valuesTaken := by
    show kept.setDue { kept.due with status0 := true } = _
    rw [hk, ht]
    rfl
  rw [hm]

/-- The state in which Setup's end leaves the part, field by field; the view is the roster's and the pinning's. -/
theorem setupEnds_fields (s : State) : s.setupEnds = { s.valuesTaken with
    seq := s.seqAtEnd, view := s.valuesTaken.rosterAndPinning.view
    motion := if s.seq.fns.motion then ((s.calibrationBegins 0).calibrationBegins 1).motion else s.motion
    water := if s.seq.fns.water then { s.water with readTimer := some 0 } else s.water
    climate := if s.seq.fns.heat then { s.climate with readTimer := some 0 } else s.climate
    supply := if s.seq.fns.supply then { s.supplyAtEnd with intervalTimer := some 0 } else s.supplyAtEnd } := by
  rw [setupEnds_eq, calibrateEntered_eq, rosterAndPinning_eq]
  rfl

/-! ### The values at the end of Setup (R6, R185, R186) -/

@[simp] theorem mergeItems_get (v : Values) (p : Tab 49 (Option Nat)) (i : Fin 49) :
    (mergeItems v p).get i = (p.get i).getD (v.get i) := by
  simp [mergeItems, Tab.get]

theorem withRunDraw_get (v : Values) (i : Fin 49) :
    (withRunDraw v).get i = if 27 = i then min (v.get 27) (v.get 26) else v.get i :=
  Tab.get_set v 27 i _

theorem withDefaultTable_get (v : Values) (i : Fin 49) : (withDefaultTable v).get i
    = if 10 ≤ i.val ∧ i.val ≤ 17 then defaultValues.get i else v.get i := by
  have len := v.len
  unfold withDefaultTable Tab.get
  dsimp only
  split
  · rename_i h
    rw [List.getElem_append_left (by simp [len, defaultItems]; omega), List.getElem_append_right (by simp [len]; omega)]
    simp only [List.getElem_take, List.getElem_drop, List.length_take, len]
    exact List.getElem_of_eq rfl (by simp [defaultItems]; omega) |>.trans (by congr 1; omega)
  · rename_i h
    by_cases low : i.val < 10
    · rw [List.getElem_append_left (by simp [len, defaultItems]; omega),
        List.getElem_append_left (by simp [len]; omega), List.getElem_take]
    · rw [List.getElem_append_right (by simp [len, defaultItems]; omega), List.getElem_drop]
      congr 1
      simp [len, defaultItems]
      omega

/-- The open-circuit table's voltages ascend, point by point (R6). -/
theorem tableAscends_iff (v : Values) : tableAscends v = true ↔ v.get 10 / 65536 < v.get 11 / 65536
    ∧ v.get 11 / 65536 < v.get 12 / 65536 ∧ v.get 12 / 65536 < v.get 13 / 65536 ∧ v.get 13 / 65536 < v.get 14 / 65536
    ∧ v.get 14 / 65536 < v.get 15 / 65536 ∧ v.get 15 / 65536 < v.get 16 / 65536
    ∧ v.get 16 / 65536 < v.get 17 / 65536 := by
  simp [tableAscends, strictlyAscending, Item.octPoints, upper16]

theorem withRunDraw_ascends (v : Values) : tableAscends (withRunDraw v) = tableAscends v := by
  rw [Bool.eq_iff_iff, tableAscends_iff, tableAscends_iff]
  simp [withRunDraw_get]

/-- An item in force after Setup. -/
theorem valuesAtEnd_get (v : Values) (p : Tab 49 (Option Nat)) (i : Fin 49) : (valuesAtEnd v p).1.get i
    = if tableAscends (mergeItems v p) = false ∧ 10 ≤ i.val ∧ i.val ≤ 17 then defaultValues.get i
      else if 27 = i then min ((mergeItems v p).get 27) ((mergeItems v p).get 26) else (mergeItems v p).get i := by
  unfold valuesAtEnd
  dsimp only
  rw [withRunDraw_ascends]
  cases tableAscends (mergeItems v p)
  · rw [if_neg (by decide), withDefaultTable_get, withRunDraw_get]
    simp
  · rw [if_pos rfl, withRunDraw_get]
    simp

theorem valuesAtEnd_clamped (v : Values) (p : Tab 49 (Option Nat)) : (valuesAtEnd v p).2
    = (decide ((mergeItems v p).get 26 < (mergeItems v p).get 27) || !tableAscends (mergeItems v p)) := by
  unfold valuesAtEnd
  dsimp only
  rw [withRunDraw_ascends]
  congr 1
  show ((mergeItems v p).get 27 != (withRunDraw (mergeItems v p)).get 27) = _
  rw [withRunDraw_get, if_pos rfl, Bool.eq_iff_iff]
  simp only [bne_iff_ne, decide_eq_true_eq]
  omega

/-! ### The command that ends Setup -/

/-- The Setup timer, or a SETUP End addressed to this station. -/
theorem setup_ends {c : Instr} {s : State} (phase : s.seq.phase = .setup)
    (h : c = .setupTimerExpiry ∧ s.seq.phaseTimer.isSome = true ∨ c = .setupEnd ∧ ∃ n k v,
      s.brings n { subject := k, payload := .setup { index := 63, value := v } } ∧ (k = 0 ∨ k = s.seq.station)) :
    ∃ u, exec c s = .next (State.publish s u.setupEnds) ∧ (u = s ∨ u = s.taken) := by
  rcases h with ⟨rfl, timer⟩ | ⟨rfl, n, k, v, b, own⟩
  · refine ⟨s, ?_, .inl rfl⟩
    have arm : exec .setupTimerExpiry s = execSetupTimerExpiry s := rfl
    rw [arm, execSetupTimerExpiry, if_pos ⟨phase, timer⟩]
    rfl
  · refine ⟨s.taken, ?_, .inr rfl⟩
    have arm : exec .setupEnd s = execSetupEnd s := rfl
    rw [arm, execSetupEnd, dispatch_brings b]
    · rfl
    · simpa [State.isSetupEnd, State.addressed, phase] using own

/-- What the telling of the readers and the handing over leave of a sane state. -/
theorem publish_kin {s : State} (was : State) (h : s.Sane) : State.Kin s (State.publish was s) := by
  obtain ⟨-, -, -, u, kin, hands, e⟩ := publish_keeps was s h.ok h.extend
  generalize (if u.publishes then State.handOver was u else u) = v at hands e
  have rest := hands.rest
  rw [e]
  refine kin.trans ⟨?_, ?_, ?_, ?_, ?_, ?_, ?_, hands.line⟩
  all_goals
    rw [rest]
    rfl

end Sys2Proof.Machine
end

