-- ==== Sys2Proof/Proofs/Calibrate.lean ====
section
/-! PROOFS. The end of Setup (R184, R186): the values, the counter and the cell. -/

namespace Sys2Proof.Machine

theorem taken_keeps (s : State) : Keeps s s.taken :=
  setBus_keeps s { s.bus with rx := dropRecord s.bus.rx } (fun h => h) (fun h => le_trans (dropRecord_length _) h) id id id

theorem rosterAndPinning_view (s : State) : s.rosterAndPinning.view
    = { s.view with sets := s.rosterAndPinning.view.sets, changes := s.rosterAndPinning.view.changes } := by
  unfold State.rosterAndPinning
  dsimp only
  split <;> rfl

theorem recount_capKept (u : Supply) (v : Values) : (u.recount v).capKept = v.get 0 := by
  unfold Supply.recount
  split
  · rename_i h
    exact h.symm
  · rfl

theorem recount_same {u : Supply} {v : Values} (h : u.capKept = v.get 0) : u.recount v = u :=
  if_pos h.symm

theorem recount_other {u : Supply} {v : Values} (h : u.capKept ≠ v.get 0) : (u.recount v).q = v.get 0 * 3600000 / 2
    ∧ (u.recount v).r = 0 ∧ (u.recount v).anchored = false := by
  rw [Supply.recount, if_neg (show Item.capacity v ≠ u.capKept from Ne.symm h)]
  exact ⟨rfl, rfl, rfl⟩

/-- The counter at the end of Setup; the first interval's timer starts. -/
theorem setupEnds_supply (s : State) : s.setupEnds.supply
    = if s.seq.fns.supply then { s.supply.recount s.seqAtEnd.values with intervalTimer := some 0 } else s.supply := by
  rw [setupEnds_fields]
  dsimp only
  unfold State.supplyAtEnd
  split <;> rfl

end Sys2Proof.Machine

namespace Sys2Proof.Proofs
open Sys2Proof.Machine

/-- Settles O18: what Setup's end leaves, of which no telling alters the values, the cell or the counter. -/
theorem setupEndsInCalibrate : Obligations.SetupEndsInCalibrate := by
  intro c s sound phase ends
  obtain ⟨u, run, from_⟩ := setup_ends phase ends
  refine ⟨_, run, ?_⟩
  have sane : u.setupEnds.Sane := by
    rcases from_ with rfl | rfl
    · exact setupEnds_keeps _ phase sound.sane
    · exact setupEnds_keeps _ phase (taken_keeps s sound.sane)
  have kin := publish_kin s sane
  generalize State.publish s u.setupEnds = t at kin
  have seq : u.seq = s.seq := by rcases from_ with rfl | rfl <;> rfl
  have supply : u.supply = s.supply := by rcases from_ with rfl | rfl <;> rfl
  have fields : u.setupEnds.seq = s.seqAtEnd := by
    rw [setupEnds_fields]
    show u.seqAtEnd = s.seqAtEnd
    unfold State.seqAtEnd
    rw [seq]
  have counter : u.setupEnds.supply = if s.seq.fns.supply then
      { s.supply.recount s.seqAtEnd.values with intervalTimer := some 0 } else s.supply := by
    rw [setupEnds_supply, seq, supply, State.seqAtEnd, State.seqAtEnd, seq]
  have cell : u.setupEnds.cell = { u.cell with
      values := s.seqAtEnd.values, q := u.setupEnds.supply.q, r := u.setupEnds.supply.r,
      anchored := u.setupEnds.supply.anchored, capKept := u.setupEnds.supply.capKept } := by
    rw [← fields, setupEnds_fields]
    dsimp only [State.valuesTaken, State.cellAtEnd]
    split <;> rfl
  have bus : u.setupEnds.bus.gatherMs = s.seqAtEnd.values.get 48 := by
    rw [← fields, setupEnds_fields]
    rfl
  have line := kin.bus
  unfold Bus.sameLine at line
  have values : t.seq.values = (valuesAtEnd s.seq.values s.seq.pendingItems).1 := by
    rw [kin.seq, fields]
    rfl
  have asc := tableAscends_iff (mergeItems s.seq.values s.seq.pendingItems)
  simp only [mergeItems_get] at asc
  have seqs : t.seq = { s.seqAtEnd with storage := t.seq.storage } := by rw [kin.seq, fields]
  have supplies : t.supply = { u.setupEnds.supply with onNext := t.supply.onNext } := kin.supply
  have cells : t.cell = { u.setupEnds.cell with lockout := t.cell.lockout } := kin.cell
  have kept : s.seqAtEnd.values = t.seq.values := by rw [values]; rfl
  dsimp only
  refine ⟨by rw [seqs]; rfl, by rw [seqs]; rfl, fun i other plain => ?_, ?_, fun i low high down => ?_,
    by rw [seqs]; rfl, ?_, by rw [seqs]; rfl, by rw [seqs]; rfl, ?_, ?_, ?_, ?_, ?_, ?_, fun fitted => ?_,
    fun fitted other => ?_, fun same => ?_⟩
  · rw [values, valuesAtEnd_get, if_neg, if_neg (Ne.symm other), mergeItems_get]
    rintro ⟨down, low, high⟩
    rcases plain with h | h | h
    · omega
    · omega
    · rw [asc.mpr h] at down
      cases down
  · rw [values, valuesAtEnd_get, if_neg (by simp), if_pos rfl, mergeItems_get, mergeItems_get]
  · rw [values, valuesAtEnd_get, if_pos ⟨Bool.eq_false_iff.mpr fun h => down (asc.mp h), low, high⟩]
  · have clamped : t.seq.clamped = (s.seq.clamped || (valuesAtEnd s.seq.values s.seq.pendingItems).2) := by
      rw [seqs]
      rfl
    rw [clamped, valuesAtEnd_clamped, Bool.or_assoc, mergeItems_get, mergeItems_get]
    congr 2
    rw [Bool.eq_iff_iff, decide_eq_true_eq, ← asc, Bool.not_eq_true', Bool.not_eq_true]
  · rw [line, ← kept]
    exact bus
  · rw [cells, cell, ← kept]
  · rw [cells, cell, supplies]
  · rw [cells, cell, supplies]
  · rw [cells, cell, supplies]
  · rw [cells, cell, supplies]
  · rw [supplies, counter, if_pos fitted, ← kept]
    exact ⟨recount_capKept _ _, rfl⟩
  · rw [supplies, counter, if_pos fitted]
    rw [← kept] at other ⊢
    exact recount_other other
  · rw [supplies, counter]
    split
    · rename_i fitted
      have same := same fitted
      rw [← kept] at same
      rw [recount_same same]
      exact ⟨rfl, rfl, rfl⟩
    · exact ⟨rfl, rfl, rfl⟩

end Sys2Proof.Proofs
end

