-- ==== Sys2Proof/Proofs/Asleep.lean ====
section
/-! PROOFS. A station that sleeps: outside Run the readers of the Peer View move next to nothing. -/

namespace Sys2Proof.Machine

/-! ### A station that sleeps (R61, R75)

Outside Run, with every claim Idle and nothing lit or pending, the readers of the Peer View change no more than the level
in force, the usable SUPPLY, drive accepted, the ceiling, and what the end of Storage changes. -/

structure Dormant (s : State) : Prop where
  checked : s.view.checked
  still : s.inRun = false
  claims : ∀ id, (s.claim id).st = .idle
  chans : ∀ ch, (s.chan ch).pending = .none ∧ (s.chan ch).followOn = .none
  dark : ∀ ch, (s.light ch).target = 0
  due : s.lights.due = .none

structure Sleeps (s t : State) : Prop where
  pins : t.pins = s.pins
  seq : t.seq = { s.seq with storage := t.seq.storage }
  claims : t.broker.claims = s.broker.claims
  sets : t.view.sets = s.view.sets
  water : t.water = s.water
  climate : t.climate = { s.climate with call := t.climate.call, callCount := t.climate.callCount }
  motion : t.motion = s.motion
  bus : t.bus = s.bus
  due : t.due = s.due
  lights : t.lights = { s.lights with ceiling := t.lights.ceiling }

theorem Sleeps.refl (s : State) : Sleeps s s := ⟨rfl, rfl, rfl, rfl, rfl, rfl, rfl, rfl, rfl, rfl⟩

theorem Sleeps.trans {s t u : State} (h : Sleeps s t) (k : Sleeps t u) : Sleeps s u where
  pins := k.pins.trans h.pins
  seq := by rw [k.seq, h.seq]
  claims := k.claims.trans h.claims
  sets := k.sets.trans h.sets
  water := k.water.trans h.water
  climate := by rw [k.climate, h.climate]
  motion := k.motion.trans h.motion
  bus := k.bus.trans h.bus
  due := k.due.trans h.due
  lights := by rw [k.lights, h.lights]

theorem Sleeps.claim {s t : State} (h : Sleeps s t) (id : Fin 7) : t.claim id = s.claim id := by
  unfold State.claim
  rw [h.claims]

theorem Sleeps.chan {s t : State} (h : Sleeps s t) (ch : Fin 2) : t.chan ch = s.chan ch := by
  unfold State.chan
  rw [h.motion]

theorem Sleeps.light {s t : State} (h : Sleeps s t) (ch : Fin 8) : t.light ch = s.light ch := by
  unfold State.light
  rw [h.lights]

theorem Sleeps.dormant {s t : State} (h : Sleeps s t) (d : Dormant s) : Dormant t where
  checked := by
    have c := d.checked
    unfold View.checked at c ⊢
    rw [h.sets]
    exact c
  still := by
    have c := d.still
    unfold State.inRun at c ⊢
    rw [h.seq]
    exact c
  claims id := by
    rw [h.claim]
    exact d.claims id
  chans ch := by
    rw [h.chan]
    exact d.chans ch
  dark ch := by
    rw [h.light]
    exact d.dark ch
  due := by
    rw [h.lights]
    exact d.due

/-- One sleeping step after another. -/
theorem Sleeps.then {s t u : State} (d : Dormant s) (h : Sleeps s t) (k : Dormant t → Sleeps t u) : Sleeps s u :=
  h.trans (k (h.dormant d))

section
variable {s : State} (d : Dormant s)
include d

theorem retest_sleeps : s.retest = s := by
  have none : s.retestOrder = [] := by
    unfold State.retestOrder
    refine List.flatMap_eq_nil_iff.mpr fun r _ => List.filter_eq_nil_iff.mpr fun id _ => ?_
    simp [d.claims id]
  simp [State.retest, none]

theorem padFollows_sleeps : s.padFollows = s := by simp [State.padFollows, d.still]

theorem frostService_sleeps : s.frostService = s := by simp [State.frostService, d.still]

theorem heaterFollows_sleeps : s.heaterFollows = s := by simp [State.heaterFollows, d.still]

theorem courtesyFollows_sleeps (lost : Option Nat) : s.courtesyFollows lost = s := by
  simp [State.courtesyFollows, d.still]

theorem amend_sleeps (g : Fin 2) : s.amend g = s := by simp [State.amend, d.claims]

theorem courtesyResumes_sleeps : s.courtesyResumes = s := by
  unfold State.courtesyResumes
  split
  · rfl
  · exact if_pos d.due

theorem ceilingFollows_sleeps : Sleeps s s.ceilingFollows := by
  have lower : Sleeps s (s.setLights { s.lights with
      ceiling := s.ceilingNow
      chans := s.lights.chans.map fun l =>
        if s.ceilingNow < l.target then l.retarget (Item.fadeMs s.seq.values) s.ceilingNow else l }) := by
    have same : (s.lights.chans.map fun l =>
        if s.ceilingNow < l.target then l.retarget (Item.fadeMs s.seq.values) s.ceilingNow else l) = s.lights.chans := by
      refine Tab.ext_get fun ch => ?_
      rw [Tab.get_map]
      exact if_neg (by
        have dark : (s.lights.chans.get ch).target = 0 := d.dark ch
        omega)
    rw [same]
    exact ⟨rfl, rfl, rfl, rfl, rfl, rfl, rfl, rfl, rfl, rfl⟩
  unfold State.ceilingFollows
  dsimp only
  have after := lower.dormant d
  rw [amend_sleeps after, amend_sleeps after]
  exact lower

theorem modeChanged_sleeps : Sleeps s s.modeChanged := by
  unfold State.modeChanged
  split
  · have call : Sleeps s (if s.modeInForce = .comfort then s else
        s.setClimate { s.climate with call := false, callCount := 0 }) := by
      split
      · exact Sleeps.refl s
      · exact ⟨rfl, rfl, rfl, rfl, rfl, rfl, rfl, rfl, rfl, rfl⟩
    have after := call.dormant d
    dsimp only
    rw [frostService_sleeps after, heaterFollows_sleeps after]
    exact call
  · exact Sleeps.refl s

theorem storageLeft_sleeps : Sleeps s s.storageLeft := by
  unfold State.storageLeft
  dsimp only
  have left : Sleeps s (s.setSeq { s.seq with storage := false }).supplyModeChanged :=
    ⟨rfl, rfl, rfl, rfl, rfl, rfl, rfl, rfl, rfl, rfl⟩
  refine left.then d fun d => ?_
  rw [retest_sleeps d]
  exact (modeChanged_sleeps d).then d fun d => ceilingFollows_sleeps d

theorem needDue_sleeps (ch : Fin 2) : s.needDue ch = s := by simp [State.needDue, State.motionRuns, d.still]

theorem needEnds_sleeps (ch : Fin 2) : s.needEnds ch = s := by
  unfold State.needEnds
  split
  · rfl
  · simp [d.chans ch]

theorem motionSeesDrive_sleeps : s.motionSeesDrive = s := by
  unfold State.motionSeesDrive
  split
  · rw [needDue_sleeps d, needDue_sleeps d]
  · rw [needEnds_sleeps d, needEnds_sleeps d]

theorem driveFollows_sleeps : Sleeps s s.driveFollows := by
  unfold State.driveFollows
  dsimp only
  rw [readAll_checked d.checked]
  split
  · exact Sleeps.refl s
  · have seen : Sleeps s (s.setView { s.view with driveAccepted := s.driveNow }) :=
      ⟨rfl, rfl, rfl, rfl, rfl, rfl, rfl, rfl, rfl, rfl⟩
    have after := seen.dormant d
    generalize s.setView { s.view with driveAccepted := s.driveNow } = t at seen after ⊢
    rw [motionSeesDrive_sleeps after, ite_self]
    split
    · exact seen.trans (storageLeft_sleeps after)
    · exact seen

theorem yieldOne_sleeps (id : Fin 7) : s.yieldOne id = s := by
  unfold State.yieldOne
  simp [d.claims id]

theorem lightsRestored_sleeps (g : Fin 2) : s.lightsRestored g = s := by simp [State.lightsRestored, d.claims]

theorem levelFollows_sleeps : Sleeps s s.levelFollows := by
  unfold State.levelFollows
  dsimp only
  rw [readSupply_checked d.checked]
  split
  · exact Sleeps.refl s
  · have level : Sleeps s (s.setBroker { s.broker with level := s.levelNow }) := ⟨rfl, rfl, rfl, rfl, rfl, rfl, rfl, rfl, rfl, rfl⟩
    have after := level.dormant d
    generalize s.setBroker { s.broker with level := s.levelNow } = t at level after ⊢
    split
    · have none : fin7.foldl State.yieldOne t = t := by simp [fin7, yieldOne_sleeps after]
      rw [none]
      refine level.trans ((ceilingFollows_sleeps after).then after fun d => ?_)
      rw [courtesyResumes_sleeps d]
      exact Sleeps.refl _
    · rw [lightsRestored_sleeps after, lightsRestored_sleeps after, ite_self]
      refine level.trans ((ceilingFollows_sleeps after).then after fun d => ?_)
      rw [retest_sleeps d]
      exact Sleeps.refl _

theorem supplyChanged_sleeps : Sleeps s s.supplyChanged := by
  unfold State.supplyChanged
  dsimp only
  rw [readSupply_checked d.checked]
  have taken : Sleeps s (s.setBroker { s.broker with usable := s.usable }) := ⟨rfl, rfl, rfl, rfl, rfl, rfl, rfl, rfl, rfl, rfl⟩
  refine taken.then d fun d => (levelFollows_sleeps d).then d fun d => ?_
  rw [retest_sleeps d, ite_self, padFollows_sleeps d]
  exact Sleeps.refl _

theorem reactTo_sleeps (c : ViewChange) : Sleeps s (s.reactTo c) := by
  unfold State.reactTo
  split
  · have drive : Sleeps s (if c.movesDrive then s.driveFollows else s) := by
      split
      · exact driveFollows_sleeps d
      · exact Sleeps.refl s
    refine drive.then d fun d => ?_
    rw [padFollows_sleeps d]
    exact Sleeps.refl _
  · split
    · have forgotten : Sleeps s (if c.what.dropped then s.forgetLevel c.key.station else s) := by
        split
        · exact ⟨rfl, rfl, rfl, rfl, rfl, rfl, rfl, rfl, rfl, rfl⟩
        · exact Sleeps.refl s
      exact forgotten.then d fun d => supplyChanged_sleeps d
    · exact Sleeps.refl s
  · rw [retest_sleeps d, ite_self]
    exact Sleeps.refl s
  · rw [frostService_sleeps d]
    exact Sleeps.refl s
  · rw [courtesyFollows_sleeps d]
    exact Sleeps.refl s
  · exact Sleeps.refl s

end

theorem tellChanges_sleeps (n : Nat) {s : State} (d : Dormant s) : Sleeps s (s.tellChanges n) := by
  induction n generalizing s with
  | zero => exact ⟨rfl, rfl, rfl, rfl, rfl, rfl, rfl, rfl, rfl, rfl⟩
  | succ n ih =>
    unfold State.tellChanges
    split
    · exact Sleeps.refl s
    · rename_i c rest _
      have next : Sleeps s (s.setView { s.view with changes := rest }) := ⟨rfl, rfl, rfl, rfl, rfl, rfl, rfl, rfl, rfl, rfl⟩
      exact next.then d fun d => (reactTo_sleeps d c).then d fun d => ih d

/-- The end of a step of a station that sleeps. -/
theorem publish_sleeps (was : State) {s : State} (d : Dormant s) : ∃ u, Sleeps s u ∧ u.view.changes = []
    ∧ State.handedOver u (State.publish was s) ∧ State.publish was s = State.publish was u := by
  have told : s.tellReaders.tellReaders = s.tellReaders := tellReaders_none (tellReaders_empty s)
  have same : State.publish was s = State.publish was s.tellReaders := by
    unfold State.publish
    rw [told]
  exact ⟨s.tellReaders, tellChanges_sleeps _ d, tellReaders_empty s, same ▸ publish_handedOver was _ (tellReaders_empty s), same⟩

end Sys2Proof.Machine
end

