-- ==== Sys2Proof/Proofs/Roster.lean ====
section
/-! PROOFS. What the Peer View gives up at the end of Setup, and what Calibrate starts (R75, R137, R184). -/

namespace Sys2Proof.Machine

/-! ### What the table gives up at the end of Setup (R75) -/

theorem fin4_map_get {α : Type} (f : Fin 4 → α) (h : (fin4.map f).length = 4) (w : Fin 4) :
    Tab.get ⟨fin4.map f, h⟩ w = f w := by
  match w with
  | 0 | 1 | 2 | 3 => rfl

/-- An invalidation takes the valid entries that meet `p` and leaves the rest of its set. -/
theorem expel_set (s : State) (p : Fin 4 → Entry → Bool) (cause : Cause) (i : Fin 16) :
    ((s.expel p cause).view.sets.get i).b0 = (s.view.sets.get i).b0
      ∧ ((s.expel p cause).view.sets.get i).b1 = (s.view.sets.get i).b1
      ∧ ((s.expel p cause).view.sets.get i).b2 = (s.view.sets.get i).b2
      ∧ ∀ w, ((s.expel p cause).view.sets.get i).ways.get w
        = let e := (s.view.sets.get i).ways.get w
          if e.valid && p w e then e.invalidate else e := by
  have sets : (s.expel p cause).view.sets.get i = { s.view.sets.get i with ways := ⟨fin4.map fun w =>
      let e := (s.view.sets.get i).ways.get w
      if e.valid && p w e then e.invalidate else e, rfl⟩ } := Tab.get_map _ _ i
  rw [sets]
  exact ⟨rfl, rfl, rfl, fun w => fin4_map_get _ _ w⟩

theorem invalidate_valid (e : Entry) : e.invalidate.valid = false := rfl

/-- The roster, where it is Closed, and then the pinned ways. -/
theorem rosterAndPinning_set (s : State) (i : Fin 16) : let v := s.rosterAndPinning.view.sets.get i
    v.b0 = (s.view.sets.get i).b0 ∧ v.b1 = (s.view.sets.get i).b1 ∧ v.b2 = (s.view.sets.get i).b2
      ∧ ∀ w, let e := (s.view.sets.get i).ways.get w
        if e.valid = true ∧ (s.seq.values.get 19 = 1 ∧ (s.seq.values.get 20).testBit (e.station - 1) = false
          ∨ e.kind.critical = false ∧ w.val < s.seq.values.get 18) then (v.ways.get w).valid = false
        else v.ways.get w = e := by
  dsimp only
  have roster : ∃ u : State, s.rosterAndPinning
      = u.expel (fun w e => !e.kind.critical && decide (w.val < s.seq.values.get 18)) .pinning
      ∧ (u.view.sets.get i).b0 = (s.view.sets.get i).b0 ∧ (u.view.sets.get i).b1 = (s.view.sets.get i).b1
      ∧ (u.view.sets.get i).b2 = (s.view.sets.get i).b2
      ∧ ∀ w, let e := (s.view.sets.get i).ways.get w
        (u.view.sets.get i).ways.get w = if e.valid = true ∧ s.seq.values.get 19 = 1
          ∧ (s.seq.values.get 20).testBit (e.station - 1) = false then e.invalidate else e := by
    unfold State.rosterAndPinning
    dsimp only
    by_cases closed : Item.rosterClosed s.seq.values = true
    · rw [if_pos closed]
      obtain ⟨b0, b1, b2, ways⟩ := expel_set s (fun _ e => !Item.rosterLists s.seq.values e.station) .roster i
      refine ⟨_, rfl, b0, b1, b2, fun w => (ways w).trans ?_⟩
      have closed : s.seq.values.get 19 = 1 := by simpa [Item.rosterClosed] using closed
      simp [closed, Item.rosterLists]
    · rw [if_neg closed]
      refine ⟨s, rfl, rfl, rfl, rfl, fun w => (if_neg ?_).symm⟩
      rintro ⟨-, closed', -⟩
      exact closed (by simp [Item.rosterClosed, closed'])
  obtain ⟨u, e, b0, b1, b2, ways⟩ := roster
  obtain ⟨c0, c1, c2, pinned⟩ := expel_set u (fun w e => !e.kind.critical && decide (w.val < s.seq.values.get 18)) .pinning i
  rw [e]
  refine ⟨c0.trans b0, c1.trans b1, c2.trans b2, fun w => ?_⟩
  rw [pinned w, ways w]
  generalize (s.view.sets.get i).ways.get w = x
  by_cases out : x.valid = true ∧ s.seq.values.get 19 = 1 ∧ (s.seq.values.get 20).testBit (x.station - 1) = false
  · rw [if_pos ⟨out.1, .inl out.2⟩, if_pos out]
    simp [invalidate_valid]
  · rw [if_neg out]
    split
    · rename_i gone
      obtain ⟨valid, gone⟩ := gone
      have pin := gone.resolve_left fun h => out ⟨valid, h⟩
      rw [if_pos (by simp [valid, pin.1, pin.2])]
      exact invalidate_valid x
    · rename_i stays
      refine if_neg fun h => stays ?_
      simp only [Bool.and_eq_true, Bool.not_eq_true', decide_eq_true_eq] at h
      exact ⟨h.1, .inr h.2⟩

/-! ### The station at the end of Setup sleeps -/

theorem calibrations_chan (s : State) (ch : Fin 2) : ((s.calibrationBegins 0).calibrationBegins 1).chan ch
    = { s.chan ch with calTimer := some 50, calSum := 0, idle := none } := by
  have two : ch = 0 ∨ ch = 1 := by omega
  unfold State.calibrationBegins
  simp only [modChan_chan]
  rcases two with rfl | rfl <;> simp [Config.calibrationMs]

theorem idle_outside {s : State} (h : s.claimsServe) (still : s.inRun = false) (id : Fin 7) : (s.claim id).st = .idle := by
  by_contra busy
  obtain ⟨-, -, claims⟩ := h
  have run := ((claims id).1 busy).1
  rw [still] at run
  cases run

theorem rests_outside {s : State} (h : s.motionFits) (still : s.inRun = false) (ch : Fin 2) :
    (s.chan ch).atRest = true ∧ (s.chan ch).pending = .none ∧ (s.chan ch).followOn = .none := by
  have off : s.motionRuns = false := by simp [State.motionRuns, still]
  obtain ⟨-, follow, -, -, runs, -⟩ := h ch
  have rest : (s.chan ch).atRest = true := by
    by_contra moves
    rw [runs (.inl (by simpa using moves))] at off
    cases off
  refine ⟨rest, ?_, ?_⟩
  · by_contra waits
    rw [runs (.inr waits)] at off
    cases off
  · by_contra braking
    rw [Chan.atRest, follow braking] at rest
    cases rest

theorem Fits.dormant {s : State} (h : s.Fits) (still : s.inRun = false) : Dormant s where
  checked := h.sound.checked
  still := still
  claims := idle_outside h.claims still
  chans ch := (rests_outside h.motion still ch).2
  dark ch := by
    by_contra lit
    obtain ⟨-, chans, -⟩ := h.lights
    obtain ⟨-, -, -, -, -, -, -, held⟩ := chans ch
    have idle := idle_outside h.claims still (loadLights (groupOf ch))
    rw [held (.inr (Nat.pos_of_ne_zero lit))] at idle
    cases idle
  due := by
    obtain ⟨-, -, -, away, -⟩ := h.lights
    rcases away with ⟨run, -⟩ | ⟨due, -⟩
    · rw [still] at run
      cases run
    · exact due

theorem setupEnds_chan (s : State) (ch : Fin 2) : s.setupEnds.chan ch = if s.seq.fns.motion then
    { s.chan ch with calTimer := some 50, calSum := 0, idle := none } else s.chan ch := by
  rw [setupEnds_fields]
  unfold State.chan
  dsimp only
  split
  · exact calibrations_chan s ch
  · rfl

theorem recount_chginh (u : Supply) (v : Values) : (u.recount v).chginh = u.chginh := by
  unfold Supply.recount
  split <;> rfl

/-- So does the state in which Setup's end leaves it. -/
theorem setupEnds_dormant {s : State} (d : Dormant s) (checked : s.setupEnds.view.checked) : Dormant s.setupEnds := by
  have fields := setupEnds_fields s
  have chan : ∀ ch, (s.setupEnds.chan ch).pending = (s.chan ch).pending ∧ (s.setupEnds.chan ch).followOn = (s.chan ch).followOn := by
    intro ch
    rw [setupEnds_chan]
    split <;> exact ⟨rfl, rfl⟩
  refine ⟨checked, ?_, fun id => ?_, fun ch => ?_, fun ch => ?_, ?_⟩
  · rw [fields]
    rfl
  · rw [fields]
    exact d.claims id
  · rw [(chan ch).1, (chan ch).2]
    exact d.chans ch
  · rw [fields]
    exact d.dark ch
  · rw [fields]
    exact d.due

theorem taken_dormant {s : State} (d : Dormant s) : Dormant s.taken :=
  ⟨d.checked, d.still, d.claims, d.chans, d.dark, d.due⟩

/-- STATUS subject 0, made due outside Run, is held. -/
theorem publish_status0_outside {was s : State} (told : s.view.changes = []) (still : s.inRun = false)
    (published : s.publishes = true) (due : s.due = { Due.reset with status0 := true })
    (room : s.bus.periodic.length ≤ 7) :
    (State.publish was s).bus.carries (status0Record (State.publish was s)) := by
  rw [(publish_handedOver was s told).status0Record, publish_told told published, firstOffers_outside still,
    lastOffers_outside still, status2Offers_nil (by rw [due]; rfl)]
  unfold State.status0Offers
  rw [if_pos (by rw [due]; rfl), List.foldl_nil, publishStatus1_none]
  · exact (hand_holds 0 (status0Record_cls s) (by omega)).carries
  · show s.due.status1 = false
    rw [due]
    rfl

end Sys2Proof.Machine

namespace Sys2Proof.Proofs
open Sys2Proof.Machine

/-- Settles O19: the part sleeps at the end of Setup, so that the telling of what the table gave up moves nothing. -/
theorem calibrateStartsTheReadings : Obligations.CalibrateStartsTheReadings := by
  intro c s fits phase ends
  obtain ⟨u, run, from_⟩ := setup_ends phase ends
  refine ⟨_, run, ?_⟩
  have still : s.inRun = false := by simp [State.inRun, phase]
  have asleep : Dormant u := by
    rcases from_ with rfl | rfl
    · exact Fits.dormant fits still
    · exact taken_dormant (Fits.dormant fits still)
  have sane : u.setupEnds.Sane := by
    rcases from_ with rfl | rfl
    · exact setupEnds_keeps _ phase fits.sound.sane
    · exact setupEnds_keeps _ phase (taken_keeps s fits.sound.sane)
  have kin := publish_kin s sane
  have dormant := setupEnds_dormant asleep sane.checked
  obtain ⟨v, sleeps, told, hand, same⟩ := publish_sleeps s dormant
  have fields := setupEnds_fields u
  have view := rosterAndPinning_view u.valuesTaken
  have set := rosterAndPinning_set u.valuesTaken
  have source : u.valuesTaken.view = s.view ∧ u.seq = s.seq ∧ u.pins = s.pins ∧ u.motion = s.motion ∧ u.water = s.water
      ∧ u.climate = s.climate ∧ u.supply.chginh = s.supply.chginh ∧ u.lights = s.lights ∧ u.due = s.due
      ∧ u.bus.periodic = s.bus.periodic := by
    rcases from_ with rfl | rfl <;> exact ⟨rfl, rfl, rfl, rfl, rfl, rfl, rfl, rfl, rfl, rfl⟩
  obtain ⟨uview, useq, upins, umotion, uwater, uclimate, uinh, ulights, udue, uslots⟩ := source
  have seqs : (State.publish s u.setupEnds).seq = { u.seqAtEnd with storage := (State.publish s u.setupEnds).seq.storage } := by
    rw [kin.seq, fields]
  have values : (State.publish s u.setupEnds).seq.values = u.seqAtEnd.values := by rw [seqs]
  have views : (State.publish s u.setupEnds).view = { s.view with
      sets := u.valuesTaken.rosterAndPinning.view.sets
      driveAccepted := (State.publish s u.setupEnds).view.driveAccepted
      changes := (State.publish s u.setupEnds).view.changes } := by
    rw [kin.view, fields]
    dsimp only
    rw [view, uview]
  have asleepChan : ∀ ch, (State.publish s u.setupEnds).chan ch = u.setupEnds.chan ch := fun ch => by
    rw [hand.chan, sleeps.chan]
  have carried : s.bus.periodic.length ≤ 7 →
      (State.publish s u.setupEnds).bus.carries (status0Record (State.publish s u.setupEnds)) := fun room => by
    rw [same]
    have out : v.inRun = false := (sleeps.dormant dormant).still
    refine publish_status0_outside told out ?_ ?_ ?_
    · unfold State.publishes
      rw [sleeps.seq, fields]
      rfl
    · rw [sleeps.due, fields]
      show { u.due with status0 := true } = _
      rw [udue, fits.sound.quiet.2.1]
    · rw [sleeps.bus, fields]
      show u.bus.periodic.length ≤ 7
      rw [uslots]
      exact room
  have lightsOff : s.outputsOff → (State.publish s u.setupEnds).outputsOff := by
    rintro ⟨pump, dump, hen, hdem, pad, bridge, -, inhibit, dark⟩
    have water : (State.publish s u.setupEnds).water.pump = s.water.pump
        ∧ (State.publish s u.setupEnds).water.dumpDrive = s.water.dumpDrive := by
      rw [hand.water, sleeps.water, fields]
      dsimp only
      rw [← uwater]
      split <;> exact ⟨rfl, rfl⟩
    have climate : (State.publish s u.setupEnds).climate.hen = s.climate.hen
        ∧ (State.publish s u.setupEnds).climate.hdem = s.climate.hdem
        ∧ (State.publish s u.setupEnds).climate.pad = s.climate.pad := by
      rw [hand.climate, sleeps.climate, fields]
      dsimp only
      rw [← uclimate]
      split <;> exact ⟨rfl, rfl, rfl⟩
    refine ⟨water.1.trans pump, water.2.trans dump, climate.1.trans hen, climate.2.1.trans hdem, climate.2.2.trans pad,
      fun ch => ?_, ?_, ?_, fun ch => ?_⟩
    · rw [asleepChan, setupEnds_chan]
      have off : (u.chan ch).bridge = .off := by
        unfold State.chan
        rw [umotion]
        exact bridge ch
      split <;> exact off
    · obtain ⟨-, -, ilock, -⟩ := (publish_sound s sane).quiet
      have out : (State.publish s u.setupEnds).inRun = false := by
        unfold State.inRun
        rw [seqs]
        rfl
      have away : ∀ ch, (State.publish s u.setupEnds).inViolation ch = false := fun ch => by
        simp [State.inViolation, State.motionRuns, out]
      rw [ilock, away, away]
      rfl
    · rw [kin.supply, setupEnds_supply]
      dsimp only
      split
      · exact (recount_chginh _ _).trans (uinh.trans inhibit)
      · exact uinh.trans inhibit
    · rw [hand.light, sleeps.light, fields]
      show (u.lights.chans.get ch).duty = 0
      rw [ulights]
      exact dark ch
  generalize State.publish s u.setupEnds = t at *
  dsimp only
  refine ⟨fun i => ?_, by rw [views], by rw [views], by rw [views], by rw [views], by rw [views], by rw [seqs]; rfl,
    by rw [seqs]; rfl, ?_, fun fitted ch => ?_, fun fitted => ?_, fun fitted => ?_, fun fitted => ?_, fun id => ?_,
    lightsOff, carried⟩
  · rw [views, values]
    have st := set i
    dsimp only at st ⊢
    rw [uview] at st
    exact st
  · rw [kin.pins, fields]
    exact upins
  · rw [asleepChan, setupEnds_chan, useq, if_pos fitted]
    unfold State.chan
    rw [umotion]
  · rw [hand.water, sleeps.water, fields]
    dsimp only
    rw [useq, if_pos fitted, uwater]
  · rw [hand.climate, sleeps.climate, fields]
    dsimp only
    rw [useq, if_pos fitted]
  · rw [kin.supply, setupEnds_supply, useq, if_pos fitted]
  · rw [hand.claim, sleeps.claim]
    exact dormant.claims id

end Sys2Proof.Proofs
end

