-- ==== Sys2Proof/Proofs/Line.lean ====
section
/-! PROOFS. A step that makes nothing due; monitors; received frames and their close, what the Dispatcher passes over, and sending (R164 to R170, R181). -/

namespace Sys2Proof.Machine

/-! ### A step that makes nothing due -/

/-- A quiet state with the figures that stood before has nothing to hand over, and ends as it is. -/
theorem publish_nothing {was s : State} (q : s.quiet) (status : statusState was = statusState s)
    (same : SameFigures was s) : State.publish was s = s := by
  obtain ⟨told, due, ilock, repeats⟩ := q
  have reset : s.setDue Due.reset = s := by rw [← due]; rfl
  have none : (if s.publishes then State.handOver was s else s) = s := by
    split
    · rw [handOver_offers, State.firstOffers, shedOffers_nil (by rw [due]; rfl), supplyOffers_nil (by rw [due]; rfl),
        status0Offers_same status, if_neg (by rw [due]; decide), lastOffers_nil same (by rw [due]; rfl) (by rw [due])
          (by rw [due]) (by rw [due]) (by rw [due]) (by rw [due]), List.foldl_nil]
      exact publishStatus1_none (s := s) (by rw [due]; rfl)
    · rfl
  unfold State.publish
  dsimp only
  rw [tellReaders_none told, none, reset]
  exact driveIlock_settled ilock repeats

/-! ### Monitors (R178, R181, R182) -/

/-- The NOTICE of a monitor's change, with the summary and the count after it. -/
def changeNotice (s : State) (n : Fin 19) (d : Bool) : Record :=
  { subject := 0,
    payload := .notice { summary := (s.status.summary.set n d).items, monitor := n.val, declared := d,
                         count := sat255 (s.status.changeCount + 1) } }

/-- What a monitor's change leaves, field by field. -/
theorem monitor_eq (s : State) (n : Fin 19) (d : Bool) : s.monitor n d = { s with
    status := { s.status with
      summary := s.status.summary.set n d, changeCount := sat255 (s.status.changeCount + 1),
      attention := s.status.attention || (d && attentionClass n && s.inRun) }
    due := { s.due with status2 := true }
    bus := if s.inRun then (s.bus.join s.now ⟨changeNotice s n d, 0⟩).build s.now else s.bus } := by
  have raise : ∀ u : State, u.raiseAttention n d = u.setStatus { u.status with
      attention := u.status.attention || (d && attentionClass n && u.inRun) } := fun u => by
    unfold State.raiseAttention
    split
    · rename_i h
      rw [h, Bool.or_true]
    · rename_i h
      rw [Bool.eq_false_iff.mpr h, Bool.or_false]
      rfl
  unfold State.monitor
  dsimp only
  rw [raise]
  by_cases run : s.inRun = true
  · have run' : ∀ x y, ((s.setStatus x).setDue y).inRun = true := fun _ _ => run
    rw [if_pos (run' _ _), if_pos run]
    rfl
  · have run' : ∀ x y, ¬ ((s.setStatus x).setDue y).inRun = true := fun _ _ => run
    rw [if_neg (run' _ _), if_neg run]
    rfl

theorem monitor_summary (s : State) (n k : Fin 19) (d : Bool) :
    (s.monitor n d).status.summary.get k = if n = k then d else s.status.summary.get k := by
  rw [monitor_eq]
  exact Tab.get_set _ _ _ _

theorem monitor_line (s : State) (n : Fin 19) (d : Bool) : s.bus.sameLine (s.monitor n d).bus := by
  rw [monitor_eq]
  dsimp only
  split
  · exact State.hand_sameLine s _ 0
  · exact Bus.sameLine_refl _

theorem Bus.enqueue_good (b : Bus) (station cls : Nat) (records : List Record) :
    b.enqueue (.good station cls records) = { b with
      rx := if b.rx.length < 16 then b.rx ++ [.good station cls records] else b.rx
      overrun := if b.rx.length < 16 then b.overrun else sat255 (b.overrun + 1) } := by
  unfold Bus.enqueue
  have cap : Config.rxCapacity = 16 := rfl
  rw [cap]
  split <;> rfl

theorem Bus.enqueue_note (b : Bus) (d : Disposition) :
    b.enqueue (.note d) = { b with rx := if b.rx.length < 16 then b.rx ++ [.note d] else b.rx } := by
  unfold Bus.enqueue
  have cap : Config.rxCapacity = 16 := rfl
  rw [cap]
  split <;> rfl

/-- A Good frame heard: the silence timer is set, and Bus Silent, where it stood, clears (R168). -/
theorem heardGood_fields (s : State) : s.heardGood.view = s.view ∧ s.heardGood.seq = s.seq
    ∧ s.heardGood.broker = s.broker ∧ s.heardGood.pins = s.pins
    ∧ Bus.sameLine { s.bus with silenceTimer := some 3000, busSilent := false } s.heardGood.bus
    ∧ s.heardGood.status.summary.get Mon.busSilent = (s.status.summary.get Mon.busSilent && !s.bus.busSilent) := by
  unfold State.heardGood
  dsimp only
  split
  · rename_i silent
    refine ⟨?_, ?_, ?_, ?_, monitor_line _ _ _, ?_⟩
    · rw [monitor_eq]; rfl
    · rw [monitor_eq]; rfl
    · rw [monitor_eq]; rfl
    · rw [monitor_eq]; rfl
    · rw [monitor_summary, if_pos rfl, silent]
      simp
  · rename_i silent
    refine ⟨rfl, rfl, rfl, rfl, Bus.sameLine_refl _, ?_⟩
    rw [Bool.eq_false_iff.mpr silent]
    simp

/-- A frame offered on an idle line goes out as the bits of R163. -/
theorem startsSending_offered {s : State} {u : Bool} {f : TxFrame} (reset : s.seq.phase ≠ .reset)
    (listen : s.seq.phase ≠ .listen) (idle : s.bus.sending = none) (offer : s.bus.offer = some (u, f)) :
    s.startsSending = s.setBus { s.bus with sending := some { urgent := u, bits := s.drives f } } := by
  rw [State.startsSending, if_neg (by simp [State.publishes, reset, listen, idle]), offer]

theorem startsSending_none {s : State} (offer : s.bus.offer = none) : s.startsSending = s := by
  unfold State.startsSending
  rw [offer]
  exact ite_self s

end Sys2Proof.Machine

namespace Sys2Proof.Proofs
open Sys2Proof.Machine

/-- Settles O27, reception by reception. -/
theorem frameClose : Obligations.FrameClose := by
  intro s told
  refine ⟨fun line r out idle heard => ?_, fun running => ?_⟩
  · have closes : exec (.frameClose line) s = .next (State.publish s (s.frameCloses r)) := by
      show done s (s.receives line) = _
      unfold State.receives
      rw [out, idle, heard]
      rfl
    refine ⟨_, closes, ?_⟩
    cases r with
    | good cls station records =>
      have fields := heardGood_fields (s.setBus
        { s.bus.enqueue (.good station cls records) with lastClose := some .good, acked := true })
      have enter : s.frameCloses (.good cls station records) = (s.setBus
        { s.bus.enqueue (.good station cls records) with lastClose := some .good, acked := true }).heardGood := rfl
      rw [← enter] at fields
      obtain ⟨view, seq, broker, pins, line, summary⟩ := fields
      have hand := publish_handedOver s (s.frameCloses (.good cls station records)) (by rw [view]; exact told)
      generalize State.publish s (s.frameCloses (.good cls station records)) = t at hand ⊢
      generalize s.frameCloses (.good cls station records) = u at *
      rw [Bus.enqueue_good] at line summary
      unfold Bus.sameLine at line
      refine ⟨hand.view.trans view, hand.seq.trans seq, hand.broker.trans broker, hand.pins.trans pins, ?_⟩
      dsimp only
      rw [hand.lastClose, hand.acked, hand.silenceTimer, hand.busSilent, hand.rx, hand.overrun, hand.status, line, summary]
      exact ⟨rfl, rfl, rfl, rfl, rfl, rfl, rfl⟩
    | error d =>
      have hand := publish_handedOver s (s.frameCloses (.error d)) told
      have bus : (s.frameCloses (.error d)).bus = { s.bus.enqueue (.note d) with lastClose := some d, acked := false } := rfl
      refine ⟨hand.view, hand.seq, hand.broker, hand.pins, ?_⟩
      dsimp only
      rw [hand.lastClose, hand.acked, hand.silenceTimer, hand.busSilent, hand.rx, hand.overrun, bus, Bus.enqueue_note]
      exact ⟨rfl, rfl, rfl, rfl, rfl, rfl⟩
  · have falls : exec .busSilentTimerExpiry s = .next (State.publish s s.fallsSilent) := by
      have arm : exec .busSilentTimerExpiry s = execBusSilentTimerExpiry s := rfl
      rw [arm, execBusSilentTimerExpiry, if_pos running]
      rfl
    refine ⟨_, falls, ?_⟩
    have hand := publish_handedOver s s.fallsSilent (by unfold State.fallsSilent; rw [monitor_eq]; exact told)
    have line := monitor_line (s.setBus { s.bus with silenceTimer := none, busSilent := true }) Mon.busSilent true
    unfold Bus.sameLine at line
    rw [hand.busSilent, hand.silenceTimer, hand.status, hand.rx, hand.sending, hand.view, hand.broker, hand.seq]
    unfold State.fallsSilent
    rw [monitor_summary, if_pos rfl, line, monitor_eq]
    refine ⟨rfl, rfl, rfl, rfl, rfl, rfl, rfl, rfl, ?_⟩
    have class_ : attentionClass Mon.busSilent = false := by decide
    rw [class_]
    simp

/-- Settles O28: each of these commands takes its record from the queue and does at most count. -/
theorem dispatcherPassesOver : Obligations.DispatcherPassesOver := by
  intro s told
  refine ⟨fun d q head => ?_, fun n k x b brings => ?_, fun n k f brings => ?_, fun n k f brings all own => ?_,
    fun i v asks => ?_⟩
  · refine ⟨_, rfl, ?_⟩
    rw [head]
    exact publish_handedOver s (s.setBus { s.bus with rx := q }) told
  · refine ⟨_, rfl, ?_⟩
    rw [dispatch_brings brings (by rfl)]
    exact publish_handedOver s (s.taken.setBus _) told
  · refine ⟨_, rfl, ?_⟩
    rw [dispatch_brings brings (by rfl)]
    exact publish_handedOver s s.taken told
  · refine ⟨_, rfl, ?_⟩
    rw [dispatch_brings brings (by simp [State.addressed, all, own]; rfl)]
    exact publish_handedOver s s.taken told
  · refine ⟨_, rfl, ?_⟩
    rw [onRequest_asks asks]
    exact publish_handedOver s s.taken told

/-- Settles O30, by which buffer the frame stands in. -/
theorem frameSendStart : Obligations.FrameSendStart := by
  intro s quiet
  have starts : exec .frameSendStart s = done s s.startsSending := rfl
  refine ⟨fun listen => ?_, fun reset listen idle => ⟨fun f urgent => ?_, fun f urgent normal => ?_, fun urgent normal => ?_⟩, ?_⟩
  · refine ⟨_, starts, ?_⟩
    have stays : s.startsSending = s := by simp [State.startsSending, State.publishes, listen]
    rw [stays]
    exact publish_handedOver s s quiet.1
  · refine ⟨_, starts, ?_⟩
    rw [startsSending_offered reset listen idle (by rw [Bus.offer, urgent])]
    exact publish_handedOver s (s.setBus _) quiet.1
  · refine ⟨_, starts, ?_⟩
    rw [startsSending_offered reset listen idle (by rw [Bus.offer, urgent, normal]; rfl)]
    exact publish_handedOver s (s.setBus _) quiet.1
  · refine ⟨_, starts, ?_⟩
    rw [startsSending_none (by rw [Bus.offer, urgent, normal]; rfl)]
    exact publish_handedOver s s quiet.1
  · have stops : exec .arbitrationLost s = .next (State.publish s s.stopsSending) := rfl
    rw [stops, publish_nothing (was := s) (s := s.stopsSending) quiet rfl
      ⟨rfl, rfl, fun _ => rfl, fun _ => rfl, fun _ => rfl, fun _ => rfl⟩]
    rfl

end Sys2Proof.Proofs
end

