-- ==== Sys2Proof/Proofs/Foreign.lean ====
section
/-! PROOFS. Records the roster keeps out (R74, R170). -/

namespace Sys2Proof.Machine

/-! ### A record that the roster keeps out (R74, R170) -/

/-- The next record comes from a station the roster keeps out. -/
def State.keepsOut (s : State) (n : Nat) (r : Record) : Prop :=
  s.inReset = false ∧ s.nextRecord = some (n, r) ∧ s.rosterRejects n = true

/-- The record is ignored and counted Foreign, whatever its command would do with it. -/
theorem dispatch_keepsOut {s : State} {n : Nat} {r : Record} (told : s.view.changes = []) (h : s.keepsOut n r)
    {p : Record → Bool} (hp : p r = true) (f : State → Nat → Record → State) :
    ∃ t, done s (s.dispatch p f) = .next t
      ∧ (s.taken.setView { s.view with foreign := min (s.view.foreign + 1) 255 }).handedOver t := by
  obtain ⟨out, next, rejects⟩ := h
  have counted : s.dispatch p f = s.taken.setView { s.view with foreign := min (s.view.foreign + 1) 255 } := by
    unfold State.dispatch
    rw [if_neg (by simp [out]), next]
    dsimp only
    rw [if_pos hp]
    exact if_pos rejects
  rw [counted]
  exact ⟨_, rfl, publish_handedOver s (s.taken.setView _) told⟩

theorem onRequest_keepsOut {s : State} {n k : Nat} {q : RequestRec} (told : s.view.changes = [])
    (h : s.keepsOut n { subject := k, payload := .request q }) (own : k = 0 ∨ k = s.seq.station)
    (f : State → Nat → Int → State) : ∃ t, done s (s.onRequest q.code f) = .next t
      ∧ (s.taken.setView { s.view with foreign := min (s.view.foreign + 1) 255 }).handedOver t :=
  dispatch_keepsOut told h (by simpa [State.isRequest, State.addressed] using own) _

end Sys2Proof.Machine

namespace Sys2Proof.Proofs
open Sys2Proof.Machine

/-- Settles O29, kind by kind and, among the addressed REQUESTs, code by code. -/
theorem rosterKeepsOut : Obligations.RosterKeepsOut := by
  intro s n r c told out next away command
  have rejects : s.rosterRejects n = true := by
    rcases away with h | ⟨closed, unlisted⟩
    · simp [State.rosterRejects, h]
    · simp [State.rosterRejects, Item.rosterClosed, Item.rosterLists, closed, unlisted]
  have kept : s.keepsOut n r := ⟨out, next, rejects⟩
  obtain ⟨k, payload⟩ := r
  cases payload
  case shed f => subst command; exact dispatch_keepsOut told kept rfl _
  case notice f => subst command; exact dispatch_keepsOut told kept rfl _
  case unknown x b => subst command; exact dispatch_keepsOut told kept rfl _
  case setup f =>
    dsimp only at command
    split at command
    · rename_i ends
      subst command
      exact dispatch_keepsOut told kept (by simpa [State.isSetupEnd, State.addressed, and_assoc] using ends) _
    · rename_i item
      subst command
      refine dispatch_keepsOut told kept ?_ _
      have item : ¬ s.isSetupEnd { subject := k, payload := .setup f } = true := by
        simpa [State.isSetupEnd, State.addressed, and_assoc] using item
      simp [State.isSetupItem, item]
  case request f =>
    dsimp only at command
    split at command
    · rename_i own
      obtain ⟨code, index, value⟩ := f
      have low : code < 16 := by
        by_contra high
        rw [List.getElem?_eq_none (by simpa using high)] at command
        cases command
      interval_cases code
      all_goals
        cases command
        exact onRequest_keepsOut told kept own _
    · rename_i other
      subst command
      exact dispatch_keepsOut told kept (by simp [State.addressed, not_or.mp other]; rfl) _
  all_goals
    subst command
    exact dispatch_keepsOut told kept rfl _

end Sys2Proof.Proofs
end

