-- ==== Sys2Proof/Proofs/Joins.lean ====
section
/-! PROOFS. A record joins its lane (R171). -/

namespace Sys2Proof.Machine

/-! ### Joining a lane (R171) -/

theorem Bus.join_urgent {b : Bus} {t : Tagged} (now : Nat) (c : t.record.kind.cls = 0) : b.join now t =
    if b.urgent.any (Waiting.sameKey t.record) then { b with urgent := coalesce t b.urgent }
    else if b.urgent.length < 2 then { b with urgent := b.urgent ++ [⟨t, now, false⟩] }
    else { b with urgent := b.urgent.drop 1 ++ [⟨t, now, false⟩], dropped := sat255 (b.dropped + 1) } := by
  rw [Bus.join, if_pos c]
  rfl

theorem Bus.join_periodic {b : Bus} {t : Tagged} (now : Nat) (c : t.record.kind.cls ≠ 0) : b.join now t =
    if b.periodic.any (Waiting.sameKey t.record) then { b with periodic := coalesce t b.periodic }
    else if b.periodic.length < 8 then { b with periodic := b.periodic ++ [⟨t, now, false⟩] }
    else b.joinFullPeriodic now t := by
  rw [Bus.join, if_neg c]
  rfl

/-- What a full periodic lane gives up: the oldest record of the latest class it may discard. -/
theorem Bus.joinFullPeriodic_gives {b : Bus} (now : Nat) (t : Tagged) (k : Nat)
    (some_ : ∃ w ∈ b.periodic, w.cls = k) (latest : k = 3 ∨ k = 2 ∧ ¬ ∃ w ∈ b.periodic, w.cls = 3) :
    ∃ x w y, b.periodic = x ++ w :: y ∧ w.cls = k ∧ (∀ v ∈ x, v.cls ≠ k)
      ∧ b.joinFullPeriodic now t
        = { b with periodic := x ++ y ++ [⟨t, now, false⟩], dropped := sat255 (b.dropped + 1) } := by
  obtain ⟨w, mem, cls⟩ := some_
  obtain ⟨a, x, y, before, hit, split, erased⟩ :=
    List.exists_of_eraseP (p := fun w : Waiting => w.cls == k) mem (by simpa using cls)
  refine ⟨x, a, y, split, by simpa using hit, fun v m e => before v m (by simpa using e), ?_⟩
  have holds : b.periodic.any (fun w => w.cls == k) = true := List.any_eq_true.mpr ⟨w, mem, by simpa using cls⟩
  unfold Bus.joinFullPeriodic dropOldest
  rcases latest with rfl | ⟨rfl, none⟩
  · rw [if_pos holds, erased]
  · rw [if_neg (by simpa using none), if_pos holds, erased]

end Sys2Proof.Machine

namespace Sys2Proof.Proofs
open Sys2Proof.Machine

/-- Settles O37, lane by lane. -/
theorem recordJoins : Obligations.RecordJoins := by
  intro b now t fits
  obtain ⟨u, n⟩ := Bus.join_buffers now t b
  obtain ⟨-, short, -⟩ := fits
  by_cases c : t.record.kind.cls = 0
  · have join := Bus.join_urgent (b := b) now c
    simp only [c, if_true, ne_eq, not_true_eq_false, false_implies, true_implies, true_or, and_true]
    refine ⟨?_, u, n, fun like => ?_, fun unlike room => ?_, fun unlike full => ?_⟩
    · rw [join]
      split
      · rfl
      · split <;> rfl
    · rw [join, if_pos (show b.urgent.any (Waiting.sameKey t.record) = true from like)]
      exact ⟨rfl, rfl⟩
    · rw [join, if_neg (by rw [show b.urgent.any (Waiting.sameKey t.record) = false from unlike]; decide), if_pos room]
      exact ⟨rfl, rfl⟩
    · rw [join, if_neg (by rw [show b.urgent.any (Waiting.sameKey t.record) = false from unlike]; decide),
        if_neg (by omega)]
      obtain ⟨w, y, e⟩ := List.exists_cons_of_length_pos (l := b.urgent) (by omega)
      exact ⟨[], y, w, e, by simp [e], rfl, rfl⟩
  · have join := Bus.join_periodic (b := b) now c
    simp only [c, if_false, ne_eq, not_false_eq_true, false_implies, true_implies, false_or, true_and]
    refine ⟨?_, u, n, fun like => ?_, fun unlike room => ?_, fun unlike full gives => ?_⟩
    · rw [join]
      split
      · rfl
      · split
        · rfl
        · unfold Bus.joinFullPeriodic
          split
          · rfl
          · split <;> rfl
    · rw [join, if_pos (show b.periodic.any (Waiting.sameKey t.record) = true from like)]
      exact ⟨rfl, rfl⟩
    · rw [join, if_neg (by rw [show b.periodic.any (Waiting.sameKey t.record) = false from unlike]; decide), if_pos room]
      exact ⟨rfl, rfl⟩
    · rw [join, if_neg (by rw [show b.periodic.any (Waiting.sameKey t.record) = false from unlike]; decide),
        if_neg (by omega)]
      by_cases third : ∃ v ∈ b.periodic, v.item.record.kind.cls = 3
      · obtain ⟨x, w, y, split, cls, before, e⟩ := Bus.joinFullPeriodic_gives now t 3 third (.inl rfl)
        rw [e]
        exact ⟨x, y, w, split, rfl, rfl, fun _ => cls, fun h => absurd third h, fun v m => by
          have : w.item.record.kind.cls = 3 := cls
          rw [this]
          exact before v m⟩
      · have second : ∃ v ∈ b.periodic, v.cls = 2 := by
          obtain ⟨w, m, k⟩ := gives
          exact ⟨w, m, k.resolve_right fun k => third ⟨w, m, k⟩⟩
        obtain ⟨x, w, y, split, cls, before, e⟩ := Bus.joinFullPeriodic_gives now t 2 second (.inr ⟨rfl, third⟩)
        rw [e]
        exact ⟨x, y, w, split, rfl, rfl, fun h => absurd h third, fun _ => cls, fun v m => by
          have : w.item.record.kind.cls = 2 := cls
          rw [this]
          exact before v m⟩

end Sys2Proof.Proofs
end

