-- ==== Sys2Proof/Proofs/Gathers.lean ====
section
/-! PROOFS. What the Gatherer builds, and when (R172). -/

namespace Sys2Proof.Machine

/-! ### Readiness (R172) -/

/-- The frame of a class. -/
def Bus.frameOf (b : Bus) (k : Nat) : TxFrame :=
  { cls := k, records := ((b.ofClass k).take 4).map (·.item), probe := false }

/-- A class is ready while a record of class 1 waits, while four wait, or once the oldest has waited the timeout. -/
theorem Bus.ready_true {b : Bus} {now k : Nat} : b.ready now k = true ↔ k = 1 ∧ b.ofClass k ≠ [] ∨ 4 ≤ (b.ofClass k).length
    ∨ ∃ w rest, b.ofClass k = w :: rest ∧ (w.ripe = true ∨ w.join + b.gatherMs ≤ now) := by
  rw [Bus.ready_iff]
  cases b.ofClass k with
  | nil => simp
  | cons w rest => simp [or_assoc]

/-- The lowest class that is ready goes next. -/
theorem Bus.nextNormal_eq (b : Bus) (now : Nat) : b.nextNormal now =
    if b.ready now 1 then some (b.frameOf 1) else if b.ready now 2 then some (b.frameOf 2)
    else if b.ready now 3 then some (b.frameOf 3) else none := by
  unfold Bus.nextNormal Bus.frameOf
  simp only [← Bus.ready_iff, List.find?]
  cases b.ready now 1 <;> cases b.ready now 2 <;> cases b.ready now 3 <;> rfl

/-! ### Building, lane by lane -/

theorem Bus.build_fault {b : Bus} (now : Nat) (h : b.lineFault = true) : b.build now = b := by
  rw [Bus.build_eq, if_pos h]

/-- The normal part of building leaves the urgent lane alone. -/
theorem Bus.buildRest_urgent (now : Nat) (b : Bus) :
    (b.buildRest now).urgentBuf = b.urgentBuf ∧ (b.buildRest now).urgent = b.urgent := by
  unfold Bus.buildRest Bus.buildNormal
  split
  · exact ⟨rfl, rfl⟩
  · split
    · exact ⟨rfl, rfl⟩
    · split
      · exact ⟨rfl, rfl⟩
      · split <;> exact ⟨rfl, rfl⟩

theorem Bus.buildUrgent_normal (b : Bus) : b.buildUrgent.normalBuf = b.normalBuf ∧ b.buildUrgent.periodic = b.periodic := by
  unfold Bus.buildUrgent
  split <;> exact ⟨rfl, rfl⟩

/-- A frame in the urgent buffer stays, and so does an empty lane. -/
theorem Bus.build_urgent_stays {b : Bus} (now : Nat) (h : b.urgentBuf.isSome = true ∨ b.urgent = []) :
    (b.build now).urgentBuf = b.urgentBuf ∧ (b.build now).urgent = b.urgent := by
  rw [Bus.build_eq]
  split
  · exact ⟨rfl, rfl⟩
  · obtain ⟨u, v⟩ := Bus.buildRest_urgent now b.buildUrgent
    have same : b.buildUrgent = b := by
      unfold Bus.buildUrgent
      rw [if_neg]
      rcases h with h | h
      · simp [Option.isSome_iff_ne_none.mp h]
      · simp [h]
    rw [u, v, same]
    exact ⟨rfl, rfl⟩

/-- An empty urgent buffer takes what waits in its lane. -/
theorem Bus.build_urgent_goes {b : Bus} (now : Nat) (fault : b.lineFault = false) (h : b.urgentBuf = none)
    (waits : b.urgent ≠ []) : (b.build now).urgent = b.urgent.drop 4 ∧ (b.build now).urgentBuf
      = some { cls := 0, records := (b.urgent.take 4).map (·.item), probe := false } := by
  rw [Bus.build_eq, if_neg (by simp [fault])]
  obtain ⟨u, v⟩ := Bus.buildRest_urgent now b.buildUrgent
  rw [u, v]
  unfold Bus.buildUrgent
  rw [if_pos (by simp [h, waits])]
  exact ⟨rfl, rfl⟩

/-- A frame in the normal buffer stays, and the lane with it. -/
theorem Bus.build_normal_stays {b : Bus} (now : Nat) (h : b.normalBuf.isSome = true) :
    (b.build now).normalBuf = b.normalBuf ∧ (b.build now).periodic = b.periodic := by
  rw [Bus.build_eq]
  split
  · exact ⟨rfl, rfl⟩
  · obtain ⟨n, p⟩ := Bus.buildUrgent_normal b
    unfold Bus.buildRest
    rw [n, if_pos h]
    exact ⟨n, p⟩

theorem takeOut_none {c n : Nat} {l : List Waiting} (h : l.filter (fun w => w.cls == c) = []) : takeOut c n l = l := by
  induction l generalizing n with
  | nil => rfl
  | cons w rest ih =>
    have away : (w.cls == c) = false := by
      cases e : w.cls == c
      · rfl
      · simp [List.filter_cons, e] at h
    unfold takeOut
    rw [if_neg (by simp [away]), ih]
    simpa [List.filter_cons, away] using h

/-- The one record of its class at the lane's end is taken. -/
theorem takeOut_last {c n : Nat} {l : List Waiting} {w : Waiting} (h : l.filter (fun w => w.cls == c) = [])
    (k : w.cls = c) : takeOut c (n + 1) (l ++ [w]) = l := by
  induction l with
  | nil => simp [takeOut, k]
  | cons v rest ih =>
    have away : (v.cls == c) = false := by
      cases e : v.cls == c
      · rfl
      · simp [List.filter_cons, e] at h
    have rest_none : rest.filter (fun w => w.cls == c) = [] := by simpa [List.filter_cons, away] using h
    rw [List.cons_append, takeOut, if_neg (by simp [away]), ih rest_none]

/-- A record of a new key finds a free slot. -/
theorem Bus.join_free {b : Bus} {t : Tagged} (now : Nat) (c : t.record.kind.cls ≠ 0)
    (other : b.periodic.any (Waiting.sameKey t.record) = false) (room : b.periodic.length ≤ 7) :
    b.join now t = { b with periodic := b.periodic ++ [⟨t, now, false⟩] } := by
  rw [Bus.join_periodic now c, if_neg (by simp [other]), if_pos (by omega)]

theorem Bus.ofClass_append (b : Bus) (w : Waiting) (k : Nat) :
    ({ b with periodic := b.periodic ++ [w] } : Bus).ofClass k = b.ofClass k ++ if w.cls = k then [w] else [] := by
  unfold Bus.ofClass
  dsimp only
  rw [List.filter_append]
  congr 1
  by_cases h : w.cls = k <;> simp [h]

/-- A class with no record waiting holds none of a key of that class. -/
theorem Bus.no_like {b : Bus} {r : Record} (h : b.ofClass r.kind.cls = []) :
    b.periodic.any (Waiting.sameKey r) = false := by
  rw [List.any_eq_false]
  intro w m like
  have same : w.item.record.kind = r.kind := by
    simp only [Waiting.sameKey, Bool.and_eq_true, beq_iff_eq] at like
    exact like.1
  have : w ∈ b.ofClass r.kind.cls := List.mem_filter.mpr ⟨m, by simp [Waiting.cls, same]⟩
  rw [h] at this
  cases this

/-- A class 1 record that finds its class and the buffer empty goes out at once. -/
theorem Bus.one_goes {b : Bus} {t : Tagged} (now : Nat) (fault : b.lineFault = false) (c : t.record.kind.cls = 1)
    (empty : b.normalBuf = none) (none : b.ofClass 1 = []) (room : b.periodic.length ≤ 7) :
    ((b.join now t).build now).normalBuf = some { cls := 1, records := [t], probe := false }
      ∧ ((b.join now t).build now).periodic = b.periodic := by
  rw [Bus.join_free now (by omega) (Bus.no_like (c ▸ none)) room]
  have own : ({ b with periodic := b.periodic ++ [⟨t, now, false⟩] } : Bus).ofClass 1 = [⟨t, now, false⟩] := by
    rw [Bus.ofClass_append, none, if_pos (by exact c)]
    rfl
  have ready : ({ b with periodic := b.periodic ++ [⟨t, now, false⟩] } : Bus).ready now 1 = true :=
    Bus.ready_true.mpr (.inl ⟨rfl, by rw [own]; simp⟩)
  refine ⟨?_, ?_⟩
  · rw [Bus.build_normalBuf, if_neg (by simp [fault, empty]), Bus.nextNormal_eq, if_pos ready, Bus.frameOf, own]
    rfl
  · have built : ∀ x : Bus, x.lineFault = false → x.normalBuf = .none → x.ready now 1 = true →
        (x.build now).periodic = takeOut 1 4 x.periodic := fun x f e r => by
      have r' : x.buildUrgent.ready now 1 = true := by
        unfold Bus.buildUrgent
        split <;> exact r
      rw [Bus.build_eq, if_neg (by simp [f]), Bus.buildRest, if_neg (by simp [(Bus.buildUrgent_normal x).1, e]), if_pos r']
      exact congrArg (takeOut 1 4) (Bus.buildUrgent_normal x).2
    rw [built _ (by exact fault) (by exact empty) ready]
    exact takeOut_last none c

/-- The fourth record of its class takes the other three with it. -/
theorem Bus.four_go {b : Bus} {t : Tagged} (now : Nat) (fault : b.lineFault = false) (c : 2 ≤ t.record.kind.cls)
    (c3 : t.record.kind.cls ≤ 3) (empty : b.normalBuf = none) (none : b.ofClass 1 = [])
    (second : t.record.kind.cls = 3 → b.ofClass 2 = []) (room : b.periodic.length ≤ 7)
    (three : (b.ofClass t.record.kind.cls).length = 3) (other : b.periodic.any (Waiting.sameKey t.record) = false) :
    ((b.join now t).build now).normalBuf = some
        { cls := t.record.kind.cls, records := (b.ofClass t.record.kind.cls).map (·.item) ++ [t], probe := false }
      ∧ ((b.join now t).build now).ofClass t.record.kind.cls = [] := by
  generalize k_eq : t.record.kind.cls = k at c c3 second three ⊢
  rw [Bus.join_free now (by omega) other room]
  have classes : ∀ j, ({ b with periodic := b.periodic ++ [⟨t, now, false⟩] } : Bus).ofClass j
      = b.ofClass j ++ if k = j then [⟨t, now, false⟩] else [] := fun j => by
    rw [Bus.ofClass_append, ← k_eq]
    rfl
  generalize j_eq : ({ b with periodic := b.periodic ++ [⟨t, now, false⟩] } : Bus) = j at classes
  have buf : j.normalBuf = .none := by rw [← j_eq]; exact empty
  have line : j.lineFault = false := by rw [← j_eq]; exact fault
  have own : j.ofClass k = b.ofClass k ++ [⟨t, now, false⟩] := by rw [classes, if_pos rfl]
  have one : j.ready now 1 = false := by
    have : j.ofClass 1 = [] := by rw [classes, none, if_neg (by omega)]; rfl
    simp [Bus.ready, this]
  have full : j.ready now k = true := Bus.ready_true.mpr (.inr (.inl (by rw [own]; simp; omega)))
  have next : j.nextNormal now = some (j.frameOf k) := by
    rw [Bus.nextNormal_eq, if_neg (by simp [one])]
    have two_or_three : k = 2 ∨ k = 3 := by omega
    rcases two_or_three with rfl | rfl
    · rw [if_pos full]
    · have two : j.ready now 2 = false := by
        have : j.ofClass 2 = [] := by rw [classes, second rfl, if_neg (by omega)]; rfl
        simp [Bus.ready, this]
      rw [if_neg (by simp [two]), if_pos full]
  obtain ⟨frame, rest⟩ := Bus.build_refills now j buf
  rw [if_neg (by simp [line]), next] at frame
  refine ⟨?_, ?_⟩
  · rw [frame, Bus.frameOf, own, List.take_of_length_le (by simp; omega), List.map_append]
    rfl
  · rw [rest, own]
    simp [line, next, Bus.frameOf, three]

/-! ### The gather timeout (R172) -/

/-- The oldest record of a class is marked ripe, and those that joined with it; every lane keeps its records. -/
theorem Bus.ripen_ofClass (b : Bus) (c j : Nat) : ((b.ripen c).ofClass j).map (·.item) = (b.ofClass j).map (·.item) := by
  unfold Bus.ripen
  split
  · rfl
  · rename_i w rest _
    unfold Bus.ofClass
    dsimp only
    induction b.periodic with
    | nil => rfl
    | cons x xs ih =>
      rw [List.map_cons, List.filter_cons, List.filter_cons]
      have cls : (if (x.cls == c && decide (x.join ≤ w.join)) = true then { x with ripe := true } else x).cls = x.cls := by
        split <;> rfl
      have item : (if (x.cls == c && decide (x.join ≤ w.join)) = true then { x with ripe := true } else x).item = x.item := by
        split <;> rfl
      rw [cls]
      split
      · rw [List.map_cons, List.map_cons, item, ih]
      · exact ih

theorem Bus.ripen_items (b : Bus) (c : Nat) : (b.ripen c).periodic.map (·.item) = b.periodic.map (·.item) := by
  unfold Bus.ripen
  split
  · rfl
  · rw [List.map_map]
    refine List.map_congr_left fun x _ => ?_
    dsimp only [Function.comp]
    split <;> rfl

/-- Another class's records stand as they were. -/
theorem Bus.ripen_other (b : Bus) {c j : Nat} (h : j ≠ c) : (b.ripen c).ofClass j = b.ofClass j := by
  unfold Bus.ripen
  split
  · rfl
  · rename_i w rest _
    unfold Bus.ofClass
    dsimp only
    induction b.periodic with
    | nil => rfl
    | cons x xs ih =>
      rw [List.map_cons, List.filter_cons, List.filter_cons]
      by_cases e : x.cls = j
      · have stays : (x.cls == c && decide (x.join ≤ w.join)) = false := by simp [e, h]
        have same : (if (x.cls == c && decide (x.join ≤ w.join)) = true then { x with ripe := true } else x) = x :=
          if_neg (by simp [stays])
        rw [same, if_pos (by simpa using e), if_pos (by simpa using e), ih]
      · have cls : (if (x.cls == c && decide (x.join ≤ w.join)) = true then { x with ripe := true } else x).cls = x.cls := by
          split <;> rfl
        rw [cls, if_neg (by simpa using e), if_neg (by simpa using e), ih]

theorem Bus.ripen_ready {b : Bus} {c : Nat} (now : Nat) (h : b.ofClass c ≠ []) : (b.ripen c).ready now c = true := by
  obtain ⟨w, rest, e⟩ := List.exists_cons_of_ne_nil h
  have own : w.cls = c := by
    have : w ∈ b.ofClass c := by rw [e]; exact List.mem_cons_self
    simpa using (List.mem_filter.mp this).2
  have head : ∃ rest', (b.ripen c).ofClass c = { w with ripe := true } :: rest' := by
    unfold Bus.ripen
    rw [e]
    dsimp only
    unfold Bus.ofClass at e ⊢
    dsimp only
    generalize b.periodic = l at e ⊢
    induction l with
    | nil => cases e
    | cons x xs ih =>
      rw [List.map_cons, List.filter_cons]
      rw [List.filter_cons] at e
      have cls : (if (x.cls == c && decide (x.join ≤ w.join)) = true then { x with ripe := true } else x).cls = x.cls := by
        split <;> rfl
      rw [cls]
      by_cases k : x.cls = c
      · rw [if_pos (by simpa using k)] at e ⊢
        obtain ⟨rfl, -⟩ := List.cons.inj e
        exact ⟨_, by rw [if_pos (by simp [k])]⟩
      · rw [if_neg (by simpa using k)] at e ⊢
        exact ih e
  obtain ⟨rest', e'⟩ := head
  exact Bus.ready_true.mpr (.inr (.inr ⟨_, rest', e', .inl rfl⟩))

theorem Bus.ripen_rest (b : Bus) (c : Nat) : b.ripen c = { b with periodic := (b.ripen c).periodic } := by
  unfold Bus.ripen
  split <;> rfl

/-- Only the Gatherer changes at a gather timeout. -/
theorem gatherTimeout_eq {s : State} (q : s.quiet) {c : Nat} (h : c = 2 ∨ c = 3) :
    exec (.gatherTimeout c) s = .next (s.setBus ((s.bus.ripen c).build s.now)) := by
  have arm : exec (.gatherTimeout c) s = execGatherTimeout c s := rfl
  have gathered : s.gathered c = s.setBus ((s.bus.ripen c).build s.now) := rfl
  rw [arm, execGatherTimeout, if_pos h, gathered]
  have line : statusState s = statusState (s.setBus ((s.bus.ripen c).build s.now)) := by
    have l := Bus.build_sameLine s.now (s.bus.ripen c)
    unfold Bus.sameLine at l
    rw [l, Bus.ripen_rest]
    rfl
  have nothing := publish_nothing (was := s) (s := s.setBus ((s.bus.ripen c).build s.now)) q line
    ⟨rfl, rfl, fun _ => rfl, fun _ => rfl, fun _ => rfl, fun _ => rfl⟩
  exact congrArg Host.Outcome.next nothing

/-- The classes are examined in their order, the class whose timeout has run out among them. -/
theorem ripened_next {b : Bus} {now c : Nat} (h : c = 2 ∨ c = 3) (waits : b.ofClass c ≠ []) :
    (b.ripen c).nextNormal now = some ((b.ripen c).frameOf (if b.ofClass 1 ≠ [] then 1
      else if 4 ≤ (b.ofClass 2).length
        ∨ ((b.ofClass 2).head?.any fun w => w.ripe || decide (w.join + b.gatherMs ≤ now)) = true then 2 else c)) := by
  have one : (b.ripen c).ready now 1 = true ↔ b.ofClass 1 ≠ [] := by
    rw [Bus.ready_iff, Bus.ripen_other b (by omega), show (b.ripen c).gatherMs = b.gatherMs from by rw [Bus.ripen_rest]]
    cases b.ofClass 1 <;> simp
  have ripe := Bus.ripen_ready now waits
  rw [Bus.nextNormal_eq]
  by_cases first : b.ofClass 1 ≠ []
  · rw [if_pos (one.mpr first), if_pos first]
  · rw [if_neg fun h => first (one.mp h), if_neg first]
    rcases h with rfl | rfl
    · rw [if_pos ripe, ite_self]
    · have two : (b.ripen 3).ready now 2 = true ↔ 4 ≤ (b.ofClass 2).length
          ∨ ((b.ofClass 2).head?.any fun w => w.ripe || decide (w.join + b.gatherMs ≤ now)) = true := by
        rw [Bus.ready_iff, Bus.ripen_other b (by omega), show (b.ripen 3).gatherMs = b.gatherMs from by rw [Bus.ripen_rest]]
        simp
      by_cases second : 4 ≤ (b.ofClass 2).length
          ∨ ((b.ofClass 2).head?.any fun w => w.ripe || decide (w.join + b.gatherMs ≤ now)) = true
      · rw [if_pos (two.mpr second), if_pos second]
      · rw [if_neg fun h => second (two.mp h), if_pos ripe, if_neg second]

end Sys2Proof.Machine

namespace Sys2Proof.Proofs
open Sys2Proof.Machine

/-- Settles O36: what `nextNormal` names, what a hand-over builds of the lane it has joined, and the ripened class. -/
theorem gatherTimeoutBuilds : Obligations.GatherTimeoutBuilds := by
  refine ⟨fun b now => ?_, fun s r tag => ?_, fun s c quiet cls waits => ?_⟩
  · dsimp only
    rw [Bus.nextNormal_eq]
    have no : ∀ {k : Nat}, ¬ _ → ¬ b.ready now k = true := fun h k => h (Bus.ready_true.mp k)
    refine ⟨fun h => if_pos (Bus.ready_true.mpr h), fun h k => ?_, fun h k l => ?_, fun h k l => ?_⟩
    · rw [if_neg (no h), if_pos (Bus.ready_true.mpr k)]
      rfl
    · rw [if_neg (no h), if_neg (no k), if_pos (Bus.ready_true.mpr l)]
      rfl
    · rw [if_neg (no h), if_neg (no k), if_neg (no l)]
  · dsimp only
    have hand : (s.hand r tag).bus = (s.bus.join s.now ⟨r, tag⟩).build s.now := rfl
    obtain ⟨u, n⟩ := Bus.join_buffers s.now ⟨r, tag⟩ s.bus
    have fault : (s.bus.join s.now ⟨r, tag⟩).lineFault = s.bus.lineFault := by
      have line := Bus.join_sameLine s.now ⟨r, tag⟩ s.bus
      unfold Bus.sameLine at line
      rw [line]
    rw [hand]
    refine ⟨fun h => Bus.build_fault _ (fault.trans h), fun h => ?_, fun h => Bus.build_refills _ _ (n.trans h),
      fun h => ⟨fun k => ?_, fun k waits => Bus.build_urgent_goes _ (fault.trans h) (u.trans k) waits,
        fun c k e => ?_, fun c k none room => Bus.one_goes _ h c k none room,
        fun c k none second room three other => ?_⟩⟩
    · obtain ⟨a, b⟩ := Bus.build_normal_stays s.now (b := s.bus.join s.now ⟨r, tag⟩) (by rw [n]; exact h)
      exact ⟨a.trans n, b⟩
    · obtain ⟨a, b⟩ := Bus.build_urgent_stays s.now (b := s.bus.join s.now ⟨r, tag⟩) (by rw [u]; exact k)
      exact ⟨a.trans u, b⟩
    · have lane : (s.bus.join s.now ⟨r, tag⟩).urgent = [⟨⟨r, tag⟩, s.now, false⟩] := by
        rw [Bus.join_urgent s.now c, e]
        rfl
      obtain ⟨a, b⟩ := Bus.build_urgent_goes s.now (fault.trans h) (u.trans k) (by rw [lane]; simp)
      rw [a, b, lane]
      exact ⟨rfl, rfl⟩
    · have unlike : s.bus.periodic.any (Waiting.sameKey r) = false := by
        rw [List.any_eq_false]
        intro w m like
        simp only [Waiting.sameKey, Bool.and_eq_true, beq_iff_eq] at like
        rcases other w m with o | o
        · exact o like.1
        · exact o like.2
      have three' : r.kind.cls ≤ 3 := by cases r.kind <;> simp [Kind.cls]
      exact Bus.four_go (t := ⟨r, tag⟩) _ h c three' k none second room three unlike
  · refine ⟨_, gatherTimeout_eq quiet cls, rfl, rfl, ?_, fun stays => ?_, fun fault empty => ?_⟩
    · have rest := Bus.ripen_rest s.bus c
      have urgent : (s.bus.ripen c).urgent = s.bus.urgent ∧ (s.bus.ripen c).urgentBuf = s.bus.urgentBuf
          ∧ (s.bus.ripen c).lineFault = s.bus.lineFault := by rw [rest]; exact ⟨rfl, rfl, rfl⟩
      obtain ⟨lane, buf, line⟩ := urgent
      rw [State.setBus_bus]
      split
      · rename_i h
        rcases h with h | h
        · rw [Bus.build_fault _ (line.trans h), buf]
        · rw [(Bus.build_urgent_stays s.now (b := s.bus.ripen c) (by rw [buf, lane]; exact h)).1, buf]
      · rename_i h
        obtain ⟨h1, h2, h3⟩ : s.bus.lineFault = false ∧ s.bus.urgentBuf = none ∧ s.bus.urgent ≠ [] := by
          simpa [not_or] using h
        rw [(Bus.build_urgent_goes s.now (line.trans h1) (buf.trans h2) (by rw [lane]; exact h3)).2, lane]
    · have rest := Bus.ripen_rest s.bus c
      have buf : (s.bus.ripen c).normalBuf = s.bus.normalBuf ∧ (s.bus.ripen c).lineFault = s.bus.lineFault := by
        rw [rest]
        exact ⟨rfl, rfl⟩
      rw [State.setBus_bus]
      rcases stays with h | h
      · rw [Bus.build_fault _ (buf.2.trans h)]
        exact ⟨buf.1, Bus.ripen_items _ _⟩
      · obtain ⟨a, b⟩ := Bus.build_normal_stays s.now (b := s.bus.ripen c) (by rw [buf.1]; exact h)
        rw [a, b]
        exact ⟨buf.1, Bus.ripen_items _ _⟩
    · have rest := Bus.ripen_rest s.bus c
      have buf : (s.bus.ripen c).normalBuf = none ∧ (s.bus.ripen c).lineFault = false := by
        rw [rest]
        exact ⟨empty, fault⟩
      obtain ⟨frame, others⟩ := Bus.build_refills s.now (s.bus.ripen c) buf.1
      have next := ripened_next (now := s.now) cls waits
      rw [if_neg (by simp [buf.2]), next] at frame
      dsimp only
      rw [State.setBus_bus]
      generalize (if s.bus.ofClass 1 ≠ [] then 1 else if 4 ≤ (s.bus.ofClass 2).length
        ∨ ((s.bus.ofClass 2).head?.any fun w => w.ripe || decide (w.join + s.bus.gatherMs ≤ s.now)) = true then 2
        else c) = k at next frame ⊢
      refine ⟨?_, fun j => ?_⟩
      · rw [frame, Bus.frameOf, List.map_take, Bus.ripen_ofClass, List.map_take]
      · rw [others j, List.map_drop, List.map_drop, Bus.ripen_ofClass]
        have same : (k = j) = (j = k) := propext eq_comm
        simp [buf.2, next, Bus.frameOf, same]

end Sys2Proof.Proofs
end

