-- ==== Sys2Proof/Proofs/Completes.lean ====
section
/-! PROOFS. A frame completed: the windows it opens, the counts, and what the Gatherer then builds (R38, R166, R167). -/

namespace Sys2Proof.Machine

/-! ### The announcement of contests (R38, R166) -/

/-- The record announces the claim's contest, which is in its announcing stage. -/
def Claim.announcedBy (c : Claim) (id : Fin 7) (t : Tagged) : Prop :=
  c.contesting = true ∧ c.announcing = true ∧ t.tag ≠ 0 ∧ t.tag = c.serial ∧ t.record.subject = id.val

theorem contestOf_eq_some {t : Tagged} {id : Fin 7} : t.contestOf = some id ↔ t.tag ≠ 0 ∧ t.record.subject = id.val := by
  unfold Tagged.contestOf
  by_cases tag : t.tag = 0
  · simp [tag]
  · rw [if_neg tag]
    by_cases low : t.record.subject < 7
    · rw [dif_pos low, Option.some.injEq, Fin.ext_iff]
      exact ⟨fun h => ⟨tag, h⟩, And.right⟩
    · rw [dif_neg low]
      exact ⟨nofun, fun h => absurd (h.2 ▸ id.isLt) low⟩

/-- The claim once its contest's record is completed: the window runs. -/
def Claim.opens (c : Claim) : Claim := { c with announcing := false, window := some 60 }

theorem announced_claim (s : State) (id j : Fin 7) (tag : Nat) : (s.announced id tag).claim j
    = if id = j ∧ (s.claim j).contesting = true ∧ (s.claim j).announcing = true ∧ tag = (s.claim j).serial
      then (s.claim j).opens else s.claim j := by
  unfold State.announced
  dsimp only
  by_cases e : id = j
  · subst e
    by_cases h : (s.claim id).contesting = true ∧ (s.claim id).announcing = true ∧ tag = (s.claim id).serial
    · rw [if_pos (by simp [h]), if_pos ⟨rfl, h⟩]
      exact Tab.get_set_self _ _ _
    · rw [if_neg (by simpa [and_assoc] using h), if_neg fun k => h k.2]
  · have other : ¬ (id = j ∧ (s.claim j).contesting = true ∧ (s.claim j).announcing = true ∧ tag = (s.claim j).serial) :=
      fun k => e k.1
    rw [if_neg other]
    split
    · exact Tab.get_set_ne _ _ _ _ e
    · rfl

theorem announced_rest (s : State) (id : Fin 7) (tag : Nat) : s.announced id tag
    = s.setBroker { s.broker with claims := (s.announced id tag).broker.claims } := by
  unfold State.announced
  dsimp only
  split <;> rfl

theorem reportCompleted_cons (s : State) (t : Tagged) (l : List Tagged) : s.reportCompleted (t :: l)
    = (match t.contestOf with | some id => s.announced id t.tag | none => s).reportCompleted l := rfl

theorem reportCompleted_rest (s : State) (l : List Tagged) : s.reportCompleted l
    = s.setBroker { s.broker with claims := (s.reportCompleted l).broker.claims } := by
  induction l generalizing s with
  | nil => rfl
  | cons t l ih =>
    rw [reportCompleted_cons]
    cases t.contestOf with
    | none => exact ih s
    | some id =>
      dsimp only
      rw [ih, announced_rest]
      rfl

/-- Each contest that the frame announces has its window started, and every other claim stands. -/
theorem reportCompleted_claim (s : State) (l : List Tagged) (j : Fin 7) :
    ((∃ t ∈ l, (s.claim j).announcedBy j t) → (s.reportCompleted l).claim j = (s.claim j).opens)
      ∧ ((¬ ∃ t ∈ l, (s.claim j).announcedBy j t) → (s.reportCompleted l).claim j = s.claim j) := by
  induction l generalizing s with
  | nil => simp [State.reportCompleted]
  | cons t l ih =>
    rw [reportCompleted_cons]
    by_cases h : (s.claim j).announcedBy j t
    · obtain ⟨contesting, announcing, tag, serial, subject⟩ := h
      rw [contestOf_eq_some.mpr ⟨tag, subject⟩]
      dsimp only
      have now : (s.announced j t.tag).claim j = (s.claim j).opens := by
        rw [announced_claim, if_pos ⟨rfl, contesting, announcing, serial⟩]
      obtain ⟨-, stays⟩ := ih (s.announced j t.tag)
      rw [now] at stays
      refine ⟨fun _ => stays ?_, fun none => absurd ⟨t, List.mem_cons_self, contesting, announcing, tag, serial, subject⟩ none⟩
      rintro ⟨x, -, -, open_, -⟩
      cases open_
    · have same : (match t.contestOf with | some id => s.announced id t.tag | none => s).claim j = s.claim j := by
        cases e : t.contestOf with
        | none => rfl
        | some id =>
          dsimp only
          rw [announced_claim, if_neg]
          rintro ⟨rfl, contesting, announcing, serial⟩
          obtain ⟨tag, subject⟩ := contestOf_eq_some.mp e
          exact h ⟨contesting, announcing, tag, serial, subject⟩
      obtain ⟨opens, stays⟩ := ih (match t.contestOf with | some id => s.announced id t.tag | none => s)
      rw [same] at opens stays
      refine ⟨?_, fun none => stays fun ⟨x, m, k⟩ => none ⟨x, List.mem_cons_of_mem _ m, k⟩⟩
      rintro ⟨x, m, k⟩
      rcases List.mem_cons.mp m with rfl | m
      · exact absurd k h
      · exact opens ⟨x, m, k⟩

/-! ### A completed frame (R166, R167) -/

theorem onLine_eq {b : Bus} {f : TxFrame} {u : Bool} {bits : List Bit} (h : b.sending = some { urgent := u, bits := bits })
    (k : (if u = true then b.urgentBuf else b.normalBuf) = some f) : b.onLine = some f := by
  unfold Bus.onLine
  rw [h]
  exact k

theorem leave_eq {b : Bus} {u : Bool} {bits : List Bit} (h : b.sending = some { urgent := u, bits := bits }) :
    b.leave = { b with
      urgentBuf := if u = true then none else b.urgentBuf, normalBuf := if u = true then b.normalBuf else none,
      sending := none } := by
  unfold Bus.leave
  rw [h]
  cases u <;> rfl

/-- The counts of a completed frame, but for the second probe in a row (R167). -/
theorem countCompleted_eq (s : State) {probe : Bool} (h : s.bus.lineFault = false ∨ probe = false ∨ s.bus.probeCount = 0) :
    s.countCompleted probe = s.setBus { s.bus with
      failed := 0, probeCount := if s.bus.lineFault = true ∧ probe = true then 1 else s.bus.probeCount } := by
  unfold State.countCompleted
  dsimp only
  by_cases both : s.bus.lineFault = true ∧ probe = true
  · have first : s.bus.probeCount = 0 := by
      rcases h with h | h | h
      · rw [both.1] at h
        cases h
      · rw [both.2] at h
        cases h
      · exact h
    rw [if_pos (by simp [both]), if_neg (by simp [first]), if_pos both]
    rfl
  · rw [if_neg (by simpa using both), if_neg both]

/-- An empty urgent buffer after building (R172). -/
theorem Bus.build_urgent_refills {b : Bus} (now : Nat) (h : b.urgentBuf = none) : (b.build now).urgentBuf =
    if b.lineFault = true ∨ b.urgent = [] then none
    else some { cls := 0, records := (b.urgent.take 4).map (·.item), probe := false } := by
  by_cases stays : b.lineFault = true ∨ b.urgent = []
  · rw [if_pos stays]
    rcases stays with fault | none
    · rw [Bus.build_fault now fault, h]
    · rw [(Bus.build_urgent_stays now (.inr none)).1, h]
  · rw [if_neg stays]
    obtain ⟨fault, waits⟩ := not_or.mp stays
    exact (Bus.build_urgent_goes now (by simpa using fault) h waits).2

/-- A state that differs in the Broker and the line, where no light claim's shown state has changed. -/
theorem SameFigures.ofClaims {s t : State} (rest : t = { s with broker := t.broker, bus := t.bus })
    (lights : ∀ g, claimField (s.claim (loadLights g)) = claimField (t.claim (loadLights g))) : SameFigures s t where
  water := by rw [rest]
  climate := by rw [rest]; rfl
  motion := by rw [rest]; exact fun _ => rfl
  violation := by rw [rest]; exact fun _ => rfl
  light ch := by
    have same : ∀ x, t.lightShared ch = ((s.light ch).target, s.courtesyOn ch, s.lights.ceiling, (s.group (groupOf ch)).result, x)
        ↔ claimField (t.claim (loadLights (groupOf ch))) = x := fun x => by
      rw [State.lightShared, rest]
      exact ⟨fun h => (Prod.mk.inj (Prod.mk.inj (Prod.mk.inj (Prod.mk.inj h).2).2).2).2, fun h => by rw [← h]; rfl⟩
    exact ((same _).mpr (lights _).symm).symm
  fading ch := by rw [rest]; rfl

end Sys2Proof.Machine

namespace Sys2Proof.Proofs
open Sys2Proof.Machine

/-- Settles O33: the report opens windows, the count changes, the Gatherer builds, and nothing falls due. -/
theorem frameCompleted : Obligations.FrameCompleted := by
  intro s f u bits quiet sending buffer counts
  have arm : exec .frameCompleted s = .next (State.publish s
      (((s.setBus s.bus.leave).reportCompleted f.records).countCompleted f.probe).builds) := by
    show done s s.frameCompleted = _
    unfold State.frameCompleted
    rw [onLine_eq sending buffer]
    rfl
  have claims := reportCompleted_claim (s.setBus s.bus.leave) f.records
  have rest := reportCompleted_rest (s.setBus s.bus.leave) f.records
  generalize (s.setBus s.bus.leave).reportCompleted f.records = v at arm claims rest
  have bus : v.bus = s.bus.leave := by rw [rest]; rfl
  have leave := leave_eq sending
  rw [countCompleted_eq v (by rw [bus, leave]; exact counts)] at arm
  have field : ∀ j, claimField (s.claim j) = claimField (v.claim j) := fun j => by
    obtain ⟨opens, stays⟩ := claims j
    by_cases h : ∃ t ∈ f.records, (s.claim j).announcedBy j t
    · rw [opens h]
      rfl
    · rw [stays h]
      rfl
  generalize t_eq : (v.setBus { v.bus with
    failed := 0
    probeCount := if v.bus.lineFault = true ∧ f.probe = true then 1 else v.bus.probeCount }).builds = t at arm
  have t_rest : t = { s with broker := v.broker, bus := t.bus } := by
    rw [← t_eq, rest]
    rfl
  have t_bus : t.bus = ({ s.bus.leave with
      failed := 0
      probeCount := if s.bus.lineFault = true ∧ f.probe = true then 1 else s.bus.probeCount } : Bus).build s.now := by
    rw [← t_eq]
    show Bus.build v.now _ = _
    rw [bus, leave, rest]
    rfl
  have line := Bus.build_sameLine s.now { s.bus.leave with
      failed := 0
      probeCount := if s.bus.lineFault = true ∧ f.probe = true then 1 else s.bus.probeCount }
  rw [← t_bus, leave] at line
  unfold Bus.sameLine at line
  have broker : t.broker = v.broker := by rw [t_rest]
  have claim : ∀ j, t.claim j = v.claim j := fun j => by
    unfold State.claim
    rw [broker]
  have settled : State.publish s t = t := by
    refine publish_nothing ?_ ?_ (SameFigures.ofClaims (by rw [broker]; exact t_rest) fun g => by rw [claim]; exact field _)
    · rw [t_rest]
      exact quiet
    · have l : statusState t = statusState { s with broker := v.broker, bus := t.bus } := by rw [← t_rest]
      rw [l, line]
      rfl
  rw [settled] at arm
  refine ⟨t, arm, by rw [line], by rw [line], by rw [line], by rw [t_rest], by rw [t_rest], by rw [line], ?_, ?_, ?_⟩
  · rintro rfl
    rw [t_bus, leave]
    exact Bus.build_urgent_refills s.now rfl
  · rintro rfl
    rw [t_bus, leave]
    exact Bus.build_refills s.now _ rfl
  · intro id
    rw [claim]
    obtain ⟨opens, stays⟩ := claims id
    by_cases h : ∃ x ∈ f.records, (s.claim id).announcedBy id x
    · rw [opens h]
      obtain ⟨x, m, contesting, announcing, tag, serial, subject⟩ := h
      rw [if_pos ⟨contesting, announcing, x, m, tag, serial, subject⟩]
      rfl
    · rw [stays h, if_neg]
      · rfl
      · rintro ⟨contesting, announcing, x, m, tag, serial, subject⟩
        exact h ⟨x, m, contesting, announcing, tag, serial, subject⟩

end Sys2Proof.Proofs
end

