-- ==== Sys2Proof/Proofs/PreTest.lean ====
section
/-! PROOFS. The usable SUPPLY, the known total and the pre-test (R35 to R37, R62). -/

namespace Sys2Proof.Machine

/-! ### The entries of the Peer View (R57, R62) -/

theorem mem_entries {s : State} {e : Entry} :
    e ∈ s.entries ↔ e.valid = true ∧ ∃ i w, (s.view.sets.get i).ways.get w = e := by
  unfold State.entries ViewSet.entries
  simp only [List.mem_flatMap, List.mem_filter, Tab.mem_iff]
  constructor
  · rintro ⟨v, ⟨i, rfl⟩, ⟨w, rfl⟩, valid⟩
    exact ⟨valid, i, w, rfl⟩
  · rintro ⟨valid, i, w, rfl⟩
    exact ⟨_, ⟨i, rfl⟩, ⟨w, rfl⟩, valid⟩

/-- No two entries hold one key (R57). -/
theorem entries_unique {s : State} (h : s.viewFits) {e g : Entry} (he : e ∈ s.entries) (hg : g ∈ s.entries)
    (key : e.key = g.key) : e = g := by
  obtain ⟨ve, i, w, rfl⟩ := mem_entries.mp he
  obtain ⟨vg, j, x, rfl⟩ := mem_entries.mp hg
  obtain ⟨seti, -, -, unique, -⟩ := h i w ve
  obtain ⟨setj, -⟩ := h j x vg
  have same : j = i := by rw [← setj, ← seti, key]
  subst same
  rw [unique x vg key.symm]

/-- The entry gives a usable SUPPLY (R62). -/
def Entry.supplies (e : Entry) : Prop :=
  e.kind = .supply ∧ e.subject = 0 ∧ e.fresh ≠ .stale ∧ 1 ≤ e.station ∧ e.station ≤ 8

theorem usable?_eq {e : Entry} (valid : e.valid = true) (h : e.kind = .supply) (subject : e.subject = 0)
    (fresh : e.fresh ≠ .stale) : ∃ f, e.payload = .supply f ∧ e.usable? = some
      { station := e.station, soc := min f.soc 1000, h := min f.h 30000, withdrawn := f.withdrawn, tc := f.tc } := by
  unfold Entry.kind Payload.kind at h
  unfold Entry.usable?
  cases p : e.payload
  case supply f => exact ⟨f, rfl, if_pos (by simp [valid, subject, fresh])⟩
  all_goals
    rw [p] at h
    cases h

theorem usable?_isSome {e : Entry} (h : e.usable?.isSome = true) :
    e.kind = .supply ∧ e.subject = 0 ∧ e.fresh ≠ .stale := by
  unfold Entry.usable? at h
  unfold Entry.kind Payload.kind
  split at h
  · split at h
    · rename_i f p c
      rw [p]
      simp only [Bool.and_eq_true, beq_iff_eq, bne_iff_ne] at c
      exact ⟨rfl, c.1.2, c.2⟩
    · cases h
  · cases h

/-- Only the usable entries of a station are chosen from it. -/
theorem station_usable_none {s : State} {n : Nat} (one : 1 ≤ n) (eight : n ≤ 8) :
    (s.entries.findSome? fun e => if e.station = n then e.usable? else none) = none
      ↔ ∀ e ∈ s.entries, e.supplies → e.station ≠ n := by
  rw [List.findSome?_eq_none_iff]
  refine forall₂_congr fun e m => ?_
  obtain ⟨valid, -⟩ := mem_entries.mp m
  constructor
  · rintro none ⟨kind, subject, fresh, -⟩ rfl
    obtain ⟨f, -, some_⟩ := usable?_eq valid kind subject fresh
    rw [if_pos rfl, some_] at none
    cases none
  · intro away
    split
    · rename_i here
      by_contra found
      obtain ⟨kind, subject, fresh⟩ := usable?_isSome (Option.isSome_iff_ne_none.mpr found)
      exact away ⟨kind, subject, fresh, here ▸ one, here ▸ eight⟩ here
    · rfl

theorem peerUsable_none {s : State} : s.peerUsable = none ↔ ∀ e ∈ s.entries, ¬ e.supplies := by
  unfold State.peerUsable
  rw [List.findSome?_eq_none_iff]
  constructor
  · intro none e m h
    obtain ⟨-, -, -, one, eight⟩ := id h
    have in_ : e.station ∈ stations := by
      unfold stations
      simp
      omega
    exact (station_usable_none one eight).mp (none _ in_) e m h rfl
  · intro none n m
    have range : 1 ≤ n ∧ n ≤ 8 := by
      unfold stations at m
      simp at m
      omega
    exact (station_usable_none range.1 range.2).mpr fun e m h => absurd h (none e m)

/-- The lowest-numbered station's entry is the one taken (R62). -/
theorem peerUsable_lowest {s : State} (h : s.viewFits) {e : Entry} (m : e ∈ s.entries) (sup : e.supplies)
    (lowest : ∀ x ∈ s.entries, x.supplies → e.station ≤ x.station) : s.peerUsable = e.usable? := by
  obtain ⟨kind, subject, fresh, one, eight⟩ := id sup
  obtain ⟨valid, -⟩ := mem_entries.mp m
  obtain ⟨f, -, taken⟩ := usable?_eq valid kind subject fresh
  have own : (s.entries.findSome? fun x => if x.station = e.station then x.usable? else none) = e.usable? := by
    cases found : s.entries.findSome? fun x => if x.station = e.station then x.usable? else none with
    | none => exact absurd rfl ((station_usable_none one eight).mp found e m sup)
    | some u =>
      obtain ⟨x, mx, hx⟩ := List.exists_of_findSome?_eq_some found
      split at hx
      · rename_i here
        obtain ⟨kx, sx, -⟩ := usable?_isSome (Option.isSome_iff_exists.mpr ⟨u, hx⟩)
        have same : x = e := entries_unique h mx m (by rw [Entry.key, Entry.key, here, kx, sx, kind, subject])
        rw [← same, hx]
      · cases hx
  have below : ∀ n, 1 ≤ n → n < e.station →
      (s.entries.findSome? fun x => if x.station = n then x.usable? else none) = none := fun n n1 lt =>
    (station_usable_none n1 (by omega)).mpr fun x mx hx here => by
      have := lowest x mx hx
      omega
  have split : stations = (List.range' 1 (e.station - 1)) ++ e.station :: List.range' (e.station + 1) (8 - e.station) := by
    generalize e.station = n at one eight
    interval_cases n <;> rfl
  unfold State.peerUsable
  rw [split, List.findSome?_append, List.findSome?_cons, own, taken]
  have none : (List.range' 1 (e.station - 1)).findSome? (fun n => s.entries.findSome? fun x =>
      if x.station = n then x.usable? else none) = none := by
    rw [List.findSome?_eq_none_iff]
    intro n mn
    rw [List.mem_range'_1] at mn
    exact below n mn.1 (by omega)
  rw [none]
  rfl

/-! ### The known total (R35, R36) -/

theorem outranks_eq (r n l rank station load : Nat) :
    Place.outranks { rank := r, station := n, load := l } { rank := rank, station := station, load := load }
      = decide (r < rank ∨ r = rank ∧ (n < station ∨ n = station ∧ l < load)) := by
  simp [Place.outranks, Bool.decide_or, Bool.decide_and]
  rfl

/-- A DRAW entry's share, its fields taken as R175 gives. -/
theorem share_eq {e : Entry} (valid : e.valid = true) (x : Place) : e.share x = match e.payload with
    | .draw f =>
      if e.subject ≤ 6 ∧ (e.fresh = .fresh ∨ e.fresh = .aging) then
        if f.state = 1 ∧ Place.outranks { rank := min f.rank 6, station := e.station, load := e.subject } x = true then
          min f.asked 30000
        else if 1 ≤ f.state ∧ f.state ≤ 3 then min f.held 30000 else 0
      else 0
    | _ => 0 := by
  unfold Entry.share
  have live : e.fresh.live = true ↔ e.fresh = .fresh ∨ e.fresh = .aging := by
    unfold Freshness.live
    cases e.fresh <;> simp
  by_cases counts : e.subject ≤ 6 ∧ (e.fresh = .fresh ∨ e.fresh = .aging)
  · rw [if_pos (by simp [valid, counts.1, live.mpr counts.2])]
    cases e.payload with
    | draw f =>
      dsimp only
      rw [if_pos counts]
      generalize f.state = n
      match n with
      | 0 | 2 | 3 => rfl
      | 1 =>
        by_cases above : Place.outranks { rank := min f.rank 6, station := e.station, load := e.subject } x = true
        · simp [above, Config.maxAmount]
        · simp [above, Config.maxAmount]
      | n + 4 => simp
    | _ => rfl
  · rw [if_neg (by simpa [valid, live, and_comm] using counts)]
    cases e.payload with
    | draw f => exact (if_neg counts).symm
    | _ => rfl

/-- What another own claim counts. -/
theorem ownShare_eq (s : State) (x : Place) (o : Fin 7) : s.ownShare x o =
    let c := s.claim o
    let raised := Place.outranks { rank := if c.rank = 0 ∧ 5 ≤ o.val then 6 else c.rank, station := s.seq.station, load := o.val } x
    if c.st = .held then (if c.raise = true ∧ raised = true then c.asked else c.held)
    else if c.st = .forced then c.held
    else if c.st = .contest ∧ Place.outranks { rank := c.rank, station := s.seq.station, load := o.val } x = true then c.asked
    else 0 := by
  unfold State.ownShare State.place askRank isLightLoad
  dsimp only
  cases e : (s.claim o).st with
  | idle => rfl
  | waiting => rfl
  | forced => rfl
  | contest => simp
  | held => simp

/-- The same with the order among claims written out (R35). -/
theorem ownShare_ordered (s : State) (rank load : Nat) :
    s.ownShare { rank := rank, station := s.seq.station, load := load } = fun o =>
      let outranks := fun r n l : Nat =>
        decide (r < rank ∨ r = rank ∧ (n < s.seq.station ∨ n = s.seq.station ∧ l < load))
      let c := s.claim o
      let raised := outranks (if c.rank = 0 ∧ 5 ≤ o.val then 6 else c.rank) s.seq.station o.val
      if c.st = .held then (if c.raise = true ∧ raised = true then c.asked else c.held)
      else if c.st = .forced then c.held
      else if c.st = .contest ∧ outranks c.rank s.seq.station o.val = true then c.asked else 0 := by
  funext o
  have share := ownShare_eq s { rank := rank, station := s.seq.station, load := load } o
  simp only [outranks_eq] at share ⊢
  exact share

/-- Every other own claim and every peer's DRAW (R36). -/
theorem knownTotal_eq (s : State) (id : Fin 7) (x : Place) : s.knownTotal id x
    = ([0, 1, 2, 3, 4, 5, 6].map fun o : Fin 7 => if o = id then 0 else s.ownShare x o).sum
      + (s.entries.map (Entry.share x)).sum := by
  have others : ∀ l : List (Fin 7), ((l.filter (· ≠ id)).map (s.ownShare x)).sum
      = (l.map fun o => if o = id then 0 else s.ownShare x o).sum := fun l => by
    induction l with
    | nil => rfl
    | cons o l ih =>
      by_cases h : o = id
      · simpa [h] using ih
      · simpa [h] using ih
  unfold State.knownTotal
  rw [others]
  rfl

end Sys2Proof.Machine

namespace Sys2Proof.Proofs
open Sys2Proof.Machine

/-- Settles O35: each share by its case, the pre-test by its conditions, and the usable SUPPLY by what is chosen from. -/
theorem preTestAndKnownTotal : Obligations.PreTestAndKnownTotal := by
  intro s id rank a fits
  have total := knownTotal_eq s id { rank := rank, station := s.seq.station, load := id.val }
  have peers : s.entries.map (Entry.share { rank := rank, station := s.seq.station, load := id.val })
      = s.entries.map fun e => match e.payload with
        | .draw f =>
          if e.subject ≤ 6 ∧ (e.fresh = .fresh ∨ e.fresh = .aging) then
            if f.state = 1 ∧ decide (min f.rank 6 < rank ∨ min f.rank 6 = rank
                ∧ (e.station < s.seq.station ∨ e.station = s.seq.station ∧ e.subject < id.val)) = true then min f.asked 30000
            else if 1 ≤ f.state ∧ f.state ≤ 3 then min f.held 30000 else 0
          else 0
        | _ => 0 := by
    refine List.map_congr_left fun e m => (share_eq (mem_entries.mp m).1 _).trans ?_
    cases e.payload with
    | draw f =>
      dsimp only
      rw [outranks_eq]
    | _ => rfl
  rw [peers, ownShare_ordered] at total
  dsimp only at total ⊢
  refine ⟨total, ?_, fun fitted => ⟨?_, fun f posted => ?_⟩, fun other => ⟨?_, fun e m sup lowest => ?_⟩⟩
  · refine Iff.trans ?_ (exists_congr fun u => and_congr_right fun _ => and_congr_right fun _ => and_congr_right fun _ =>
      and_congr_right fun _ => and_congr_right fun _ => iff_of_eq (congrArg (fun n => n + a ≤ u.h) total))
    unfold State.passes
    cases s.usable with
    | none => simp
    | some u =>
      simp only [Bool.and_eq_true, decide_eq_true_eq, Bool.not_eq_true', Bool.and_eq_false_iff, decide_eq_false_iff_not,
        Option.some.injEq, exists_eq_left', not_and_or, Bool.not_eq_true, and_assoc]
  · unfold State.usable
    rw [if_pos fitted]
    exact Option.map_eq_none_iff
  · unfold State.usable State.ownUsable
    rw [if_pos fitted, posted]
    exact ⟨_, rfl, rfl, rfl, rfl, rfl, rfl⟩
  · unfold State.usable
    rw [if_neg (by simp [other])]
    exact peerUsable_none
  · obtain ⟨kind, subject, fresh, one, eight⟩ := sup
    have sup : e.supplies := ⟨kind, subject, fresh, one, eight⟩
    obtain ⟨f, payload, taken⟩ := usable?_eq (mem_entries.mp m).1 kind subject fresh
    refine ⟨f, payload, ?_⟩
    unfold State.usable
    rw [if_neg (by simp [other]), ← taken]
    exact peerUsable_lowest fits.view m sup lowest

end Sys2Proof.Proofs
end

