-- ==== Sys2Proof/Proofs/Layouts.lean ====
section
/-! PROOFS. The payloads as numbers of 40 bits (R176 to R181). -/

namespace Sys2Proof.Machine

/-! ### Numbers as bits (R163) -/

@[simp] theorem bitsOf_length (w v : Nat) : (bitsOf w v).length = w := by
  induction w with
  | zero => rfl
  | succ w ih => simp [bitsOf, ih]

@[simp] theorem signedBits_length (w : Nat) (z : Int) : (signedBits w z).length = w := bitsOf_length _ _

theorem natOf_append (a b : List Bit) : natOf (a ++ b) = natOf a * 2 ^ b.length + natOf b := by
  have from_ : ∀ (l : List Bit) (n : Nat), l.foldl (fun a x => 2 * a + x.toNat) n = n * 2 ^ l.length + natOf l := by
    intro l
    induction l with
    | nil => simp [natOf]
    | cons x l ih =>
      intro n
      have base := ih x.toNat
      have unfolded : natOf (x :: l) = l.foldl (fun a x => 2 * a + x.toNat) x.toNat := by simp [natOf]
      rw [List.foldl_cons, ih, unfolded, base, List.length_cons]
      ring
  rw [natOf, List.foldl_append, from_ b]
  rfl

theorem natOf_cons (x : Bit) (l : List Bit) : natOf (x :: l) = x.toNat * 2 ^ l.length + natOf l := by
  rw [← List.singleton_append, natOf_append]
  simp [natOf]

@[simp] theorem natOf_nil : natOf [] = 0 := rfl

@[simp] theorem natOf_replicate_false (n : Nat) : natOf (List.replicate n false) = 0 := by
  induction n with
  | zero => rfl
  | succ n ih => rw [List.replicate_succ, natOf_cons, ih]; simp

theorem natOf_bitsOf (w v : Nat) : natOf (bitsOf w v) = v % 2 ^ w := by
  induction w with
  | zero => simp [bitsOf, Nat.mod_one]
  | succ w ih =>
    rw [bitsOf, natOf_cons, ih, bitsOf_length, Nat.mod_pow_succ, Nat.toNat_testBit]
    ring

theorem natOf_bitsOf_of_lt {w v : Nat} (h : v < 2 ^ w) : natOf (bitsOf w v) = v := by
  rw [natOf_bitsOf, Nat.mod_eq_of_lt h]

theorem natOf_signedBits (w : Nat) (z : Int) : natOf (signedBits w z) = (z % (2 ^ w : Nat)).toNat := by
  unfold signedBits
  refine natOf_bitsOf_of_lt ?_
  have pos : 0 < 2 ^ w := Nat.two_pow_pos w
  have low := Int.emod_nonneg z (b := ((2 ^ w : Nat) : Int)) (by omega)
  have high := Int.emod_lt_of_pos z (b := ((2 ^ w : Nat) : Int)) (by omega)
  omega

theorem padTo_eq {w : Nat} {b : List Bit} (h : b.length ≤ w) : padTo w b = b ++ List.replicate (w - b.length) false := by
  unfold padTo
  rw [List.take_append, List.take_of_length_le h, List.take_replicate, Nat.min_eq_left (by omega)]

theorem padTo_full {w : Nat} {b : List Bit} (h : b.length = w) : padTo w b = b := by
  rw [padTo_eq h.le, h, Nat.sub_self, List.replicate_zero, List.append_nil]

theorem padTo_length (w : Nat) (b : List Bit) : (padTo w b).length = w := by
  simp [padTo]

theorem natOf_padTo {w : Nat} {b : List Bit} (h : b.length ≤ w) : natOf (padTo w b) = natOf b * 2 ^ (w - b.length) := by
  rw [padTo_eq h, natOf_append, natOf_replicate_false, List.length_replicate, Nat.add_zero]

/-- The declared-monitor summary as a number: monitor n stands 18 − n bits from the last. -/
theorem natOf_summary {l : List Bit} (h : l.length = 19) (k : Nat) : natOf l * 2 ^ k
    = ((List.range 19).map fun n => (l.getD n false).toNat * 2 ^ (18 + k - n)).sum := by
  have sum : ∀ (l : List Bit) (k : Nat), natOf l * 2 ^ k
      = ((List.range l.length).map fun n => (l.getD n false).toNat * 2 ^ (l.length - 1 + k - n)).sum := by
    intro l
    induction l with
    | nil => simp
    | cons x l ih =>
      intro k
      rw [List.length_cons, List.range_succ_eq_map, List.map_cons, List.sum_cons, natOf_cons, Nat.add_mul, ih,
        List.map_map]
      congr 1
      · simp [pow_add]
        ring
      · congr 1
        refine List.map_congr_left fun n m => ?_
        have : n < l.length := List.mem_range.mp m
        have e : l.length - 1 + k - n = l.length + 1 - 1 + k - (n + 1) := by omega
        simp [e]
  rw [sum l k, h]

end Sys2Proof.Machine

namespace Sys2Proof.Proofs
open Sys2Proof.Machine

/-- Settles O38: each layout's fields one after the other, as a number. -/
theorem tabledLayouts : Obligations.TabledLayouts := by
  refine ⟨fun f fits => ?_, fun f fits => ?_, fun f fits => ?_, fun f fits => ?_, fun f fits => ?_, fun f fits => ?_,
    fun f fits => ?_⟩
  · obtain ⟨soc, h, -, -, trend⟩ := fits
    rw [Payload.bits, natOf_padTo (by simp)]
    simp [natOf_append, natOf_cons, natOf_bitsOf, natOf_signedBits]
    omega
  · obtain ⟨held, asked, rank, state⟩ := fits
    rw [Payload.bits, natOf_padTo (by simp)]
    simp [natOf_append, natOf_bitsOf]
    omega
  · obtain ⟨-, phase, request, outcome⟩ := fits
    rw [Payload.bits, natOf_padTo (by simp)]
    simp [natOf_append, natOf_cons, natOf_bitsOf]
    omega
  · obtain ⟨-, overrun, dropped, foreign, unknown, error⟩ := fits
    rw [Payload.bits, natOf_padTo (by simp)]
    simp [natOf_append, natOf_bitsOf]
    omega
  · obtain ⟨-, late, summary⟩ := fits
    rw [Payload.bits, padTo_full summary, natOf_padTo (by simp [summary]), natOf_append, Nat.add_mul,
      List.length_append, bitsOf_length, summary, natOf_summary summary, natOf_bitsOf_of_lt late, Nat.mul_assoc]
    rfl
  · obtain ⟨summary, monitor, count⟩ := fits
    have order := natOf_summary summary 21
    rw [Payload.bits, padTo_full summary, natOf_padTo (by simp [summary])]
    rw [← order]
    simp [natOf_append, natOf_cons, natOf_bitsOf, summary]
    omega
  · obtain ⟨code, index, -, -⟩ := fits
    rw [Payload.bits, natOf_padTo (by simp)]
    simp [natOf_append, natOf_bitsOf, natOf_signedBits]
    omega

end Sys2Proof.Proofs
end

