-- ==== Sys2Proof/Proofs/Decoding.lean ====
section
/-! PROOFS. Records are read back from their bits (R163, R175 to R181). -/

namespace Sys2Proof.Machine

/-! ### Reading fields back (R163, R175 to R181) -/

@[simp] theorem fieldAt_here (w v : Nat) (y : List Bit) : fieldAt (bitsOf w v ++ y) 0 w = v % 2 ^ w := by
  rw [fieldAt, List.drop_zero, List.take_left' (bitsOf_length w v), natOf_bitsOf]

@[simp] theorem fieldAt_only (w v : Nat) : fieldAt (bitsOf w v) 0 w = v % 2 ^ w := by
  have h := fieldAt_here w v []
  rwa [List.append_nil] at h

theorem fieldAt_skip {x y : List Bit} {off w : Nat} (h : x.length ≤ off) :
    fieldAt (x ++ y) off w = fieldAt y (off - x.length) w := by
  rw [fieldAt, fieldAt, List.drop_append, List.drop_eq_nil_of_le h, List.nil_append]

@[simp] theorem fieldAt_bits_skip {u v off w : Nat} {y : List Bit} (h : u ≤ off) :
    fieldAt (bitsOf u v ++ y) off w = fieldAt y (off - u) w := by
  rw [fieldAt_skip (by simpa using h), bitsOf_length]

@[simp] theorem fieldAt_cons (b : Bit) (y : List Bit) (off w : Nat) : fieldAt (b :: y) (off + 1) w = fieldAt y off w := rfl

@[simp] theorem flagAt_bits_skip {u v off : Nat} {y : List Bit} (h : u ≤ off) :
    flagAt (bitsOf u v ++ y) off = flagAt y (off - u) := by
  unfold flagAt
  rw [List.getD_append_right _ _ _ _ (by simpa using h), bitsOf_length]

@[simp] theorem flagAt_here (b : Bit) (y : List Bit) : flagAt (b :: y) 0 = b := rfl

@[simp] theorem flagAt_cons (b : Bit) (y : List Bit) (off : Nat) : flagAt (b :: y) (off + 1) = flagAt y off := rfl

/-- Two's complement read back. -/
theorem signedOf_signedBits {w m : Nat} {z : Int} (half : 2 ^ (w - 1) = m) (full : 2 ^ w = 2 * m) (low : -(m : Int) ≤ z)
    (high : z < m) : signedOf w ((z % (2 ^ w : Nat)).toNat % 2 ^ w) = z := by
  have e : z % ((2 * m : Nat) : Int) = if z < 0 then z + (2 * m : Nat) else z := by
    split
    · rw [← Int.add_mul_emod_self_left z _ 1, mul_one]
      exact Int.emod_eq_of_lt (by omega) (by omega)
    · exact Int.emod_eq_of_lt (by omega) (by omega)
  unfold signedOf
  rw [half, full, e]
  have same : (if z < 0 then z + (2 * m : Nat) else z).toNat % (2 * m) = (if z < 0 then z + (2 * m : Nat) else z).toNat :=
    Nat.mod_eq_of_lt (by split <;> omega)
  rw [same]
  split <;> split <;> omega

/-- Two's complement fields read back. -/
theorem signed_field {w m : Nat} {z : Int} (y : List Bit) (half : 2 ^ (w - 1) = m) (full : 2 ^ w = 2 * m)
    (low : -(m : Int) ≤ z) (high : z < m) : signedOf w (fieldAt (signedBits w z ++ y) 0 w) = z := by
  rw [signedBits, fieldAt_here]
  exact signedOf_signedBits half full low high

theorem fieldAt_signed_skip {u off w : Nat} {z : Int} {y : List Bit} (h : u ≤ off) :
    fieldAt (signedBits u z ++ y) off w = fieldAt y (off - u) w := fieldAt_bits_skip h

theorem flagAt_signed_skip {u off : Nat} {z : Int} {y : List Bit} (h : u ≤ off) :
    flagAt (signedBits u z ++ y) off = flagAt y (off - u) := flagAt_bits_skip h

theorem payload_bits_length (p : Payload) : p.bits.length = 40 := by
  cases p <;> exact padTo_length _ _

/-- Every payload whose fields fit is read back from its bits. -/
theorem payload_ofBits {k : Nat} {p : Payload} (h : p.fitsBits k) : Payload.ofBits p.kind.code k p.bits = p := by
  cases p with
  | status0 f =>
    obtain ⟨rfl, phase, request, outcome⟩ := h
    rw [Payload.bits, padTo_eq (by simp)]
    simp [Payload.kind, Kind.code, Payload.ofBits, Nat.mod_eq_of_lt phase, Nat.mod_eq_of_lt request,
      Nat.mod_eq_of_lt outcome]
  | status1 f =>
    obtain ⟨rfl, overrun, dropped, foreign, unknown, error⟩ := h
    rw [Payload.bits, padTo_eq (by simp)]
    simp [Payload.kind, Kind.code, Payload.ofBits, Nat.mod_eq_of_lt overrun, Nat.mod_eq_of_lt dropped,
      Nat.mod_eq_of_lt foreign, Nat.mod_eq_of_lt unknown, Nat.mod_eq_of_lt error]
  | status2 f =>
    obtain ⟨rfl, late, summary⟩ := h
    rw [Payload.bits, padTo_full summary, padTo_eq (by simp [summary])]
    simp [Payload.kind, Kind.code, Payload.ofBits, Nat.mod_eq_of_lt late, summary]
  | statusOther b =>
    obtain ⟨three, length⟩ := h
    rw [Payload.bits, padTo_full length]
    obtain ⟨n, rfl⟩ : ∃ n, k = n + 3 := ⟨k - 3, by omega⟩
    rfl
  | supply f =>
    obtain ⟨soc, h, tc, tc', trend⟩ := h
    rw [Payload.bits, padTo_eq (by simp)]
    simp [Payload.kind, Kind.code, Payload.ofBits, signed_field (w := 8) (m := 128) _ rfl rfl tc tc', fieldAt_signed_skip,
      Nat.mod_eq_of_lt soc, Nat.mod_eq_of_lt h, Nat.mod_eq_of_lt trend]
  | draw f =>
    obtain ⟨held, asked, rank, state⟩ := h
    rw [Payload.bits, padTo_eq (by simp)]
    simp [Payload.kind, Kind.code, Payload.ofBits, Nat.mod_eq_of_lt held, Nat.mod_eq_of_lt asked, Nat.mod_eq_of_lt rank,
      Nat.mod_eq_of_lt state]
  | shed f =>
    obtain ⟨level, cause⟩ := h
    rw [Payload.bits, padTo_eq (by simp)]
    simp [Payload.kind, Kind.code, Payload.ofBits, Nat.mod_eq_of_lt level, Nat.mod_eq_of_lt cause]
  | tank f =>
    obtain ⟨level, temp, temp', owed⟩ := h
    rw [Payload.bits, padTo_eq (by simp)]
    simp [Payload.kind, Kind.code, Payload.ofBits, signed_field (w := 11) (m := 1024) _ rfl rfl temp temp',
      fieldAt_signed_skip, flagAt_signed_skip, Nat.mod_eq_of_lt level, Nat.mod_eq_of_lt owed]
  | climate f =>
    obtain ⟨temp, temp', setpoint, mode, heater, demand, frost, pad⟩ := h
    rw [Payload.bits, padTo_eq (by simp)]
    simp [Payload.kind, Kind.code, Payload.ofBits, signed_field (w := 11) (m := 1024) _ rfl rfl temp temp',
      fieldAt_signed_skip, Nat.mod_eq_of_lt setpoint, Nat.mod_eq_of_lt mode, Nat.mod_eq_of_lt heater,
      Nat.mod_eq_of_lt demand, Nat.mod_eq_of_lt frost, Nat.mod_eq_of_lt pad]
  | motion f =>
    obtain ⟨state, position, pending⟩ := h
    rw [Payload.bits, padTo_eq (by simp)]
    simp [Payload.kind, Kind.code, Payload.ofBits, Nat.mod_eq_of_lt state, Nat.mod_eq_of_lt position,
      Nat.mod_eq_of_lt pending]
  | interlock f =>
    obtain ⟨state, move⟩ := h
    rw [Payload.bits, padTo_eq (by simp)]
    simp [Payload.kind, Kind.code, Payload.ofBits, Nat.mod_eq_of_lt state, Nat.mod_eq_of_lt move]
  | light f =>
    obtain ⟨level, target, ceiling, result, claim⟩ := h
    rw [Payload.bits, padTo_eq (by simp)]
    simp [Payload.kind, Kind.code, Payload.ofBits, Nat.mod_eq_of_lt level, Nat.mod_eq_of_lt target,
      Nat.mod_eq_of_lt ceiling, Nat.mod_eq_of_lt result, Nat.mod_eq_of_lt claim]
  | request f =>
    obtain ⟨code, index, value, value'⟩ := h
    rw [Payload.bits, padTo_eq (by simp)]
    simp [Payload.kind, Kind.code, Payload.ofBits, signed_field (w := 16) (m := 32768) _ rfl rfl value value',
      Nat.mod_eq_of_lt code, Nat.mod_eq_of_lt index]
  | setup f =>
    obtain ⟨index, value⟩ := h
    rw [Payload.bits, padTo_eq (by simp)]
    simp [Payload.kind, Kind.code, Payload.ofBits, Nat.mod_eq_of_lt index, Nat.mod_eq_of_lt value]
  | notice f =>
    obtain ⟨summary, monitor, count⟩ := h
    have field : ∀ (y : List Bit) off w, 19 ≤ off → fieldAt (f.summary ++ y) off w = fieldAt y (off - 19) w :=
      fun y off w h => by rw [fieldAt_skip (by omega), summary]
    have flag : ∀ (y : List Bit), flagAt (f.summary ++ y) 24 = flagAt y 5 := fun y => by
      rw [flagAt, List.getD_append_right _ _ _ _ (by omega), summary]
      rfl
    rw [Payload.bits, padTo_full summary, padTo_eq (by simp [summary])]
    simp [Payload.kind, Kind.code, Payload.ofBits, field, flag, summary, Nat.mod_eq_of_lt monitor, Nat.mod_eq_of_lt count]
  | unknown n b =>
    rw [Payload.bits, padTo_full h]
    match n with
    | 0 | 1 | 2 | 3 => rfl

/-- Every record whose fields fit is read back from its bits. -/
theorem record_ofBits {r : Record} (h : r.fitsBits) : Record.ofBits r.bits = r := by
  obtain ⟨subject, payload⟩ := h
  have code : r.kind.code < 16 := by
    cases r.kind with
    | unknown n => exact (by have := n.isLt; simp only [Kind.code]; omega)
    | _ => decide
  have kind : fieldAt r.bits 0 4 = r.kind.code := by
    simp [Record.bits, Nat.mod_eq_of_lt code]
  have sub : fieldAt r.bits 4 4 = r.subject := by
    simp [Record.bits, Nat.mod_eq_of_lt subject]
  have rest : (r.bits.drop 8).take 40 = r.payload.bits := by
    have eight : (bitsOf 4 r.kind.code ++ bitsOf 4 r.subject).length = 8 := by simp
    rw [Record.bits, List.drop_left' eight, List.take_of_length_le (payload_bits_length _).le]
  unfold Record.ofBits
  rw [kind, sub, rest]
  obtain ⟨k, p⟩ := r
  exact congrArg (Record.mk k) (payload_ofBits payload)

theorem record_bits_length (r : Record) : r.bits.length = 48 := by
  simp [Record.bits, payload_bits_length]

/-- Records that follow one another are read back one by one. -/
theorem recordsOf_bits {l : List Record} (h : ∀ r ∈ l, r.fitsBits) (y : List Bit) :
    recordsOf l.length ((l.map Record.bits).flatten ++ y) = l := by
  induction l with
  | nil => rfl
  | cons r l ih =>
    rw [List.length_cons, List.map_cons, List.flatten_cons, List.append_assoc, recordsOf,
      List.take_left' (record_bits_length r), List.drop_left' (record_bits_length r),
      record_ofBits (h r List.mem_cons_self), ih fun x m => h x (List.mem_cons_of_mem _ m)]

end Sys2Proof.Machine
end

