-- ==== Sys2Proof/Proofs/Frames.lean ====
section
/-! PROOFS. Stuffing, and a frame received as it was sent (R163, R164). -/

namespace Sys2Proof.Machine

/-! ### Stuffing and receiving (R163, R164) -/

/-- The bits from the start bit through a check word, which need not be the one worked out. -/
def framed (cls station w : Nat) (records : List Record) : List Bit :=
  [false] ++ headBits cls station records ++ bitsOf 16 w

theorem plainBits_eq (cls station : Nat) (records : List Record) :
    plainBits cls station records = framed cls station (checkWord (headBits cls station records)).toNat records := rfl

/-- A receiver undoes the stuffing, bit by bit, up to the first bit at which the frame is complete. -/
theorem receiveFrom_stuffFrom {bits : List Bit} : ∀ {last run acc} (rest : List Bit), run < 6 → bits ≠ [] →
    (∀ p q, bits = p ++ q → q ≠ [] → complete (acc ++ p) = false ∨ p = []) → complete (acc ++ bits) = true →
      receiveFrom last run acc (stuffFrom last run bits ++ rest) = some (closeWith (acc ++ bits)) := by
  induction bits with
  | nil => exact fun _ _ h => absurd rfl h
  | cons b tail ih =>
    intro last run acc rest short _ sooner whole
    have open6 : run ≠ 6 := by omega
    by_cases last' : tail = []
    · subst last'
      by_cases six : (if b = last then run + 1 else 1) = 6 <;>
        simp [stuffFrom, receiveFrom, six, open6, whole]
    · have still : complete (acc ++ [b]) = false := (sooner [b] tail rfl last').resolve_right (by simp)
      have next : ∀ p q, tail = p ++ q → q ≠ [] → complete (acc ++ [b] ++ p) = false ∨ p = [] := by
        intro p q split more
        refine .inl ?_
        rw [List.append_assoc]
        exact (sooner (b :: p) q (by rw [split, List.cons_append]) more).resolve_right (by simp)
      have ends : complete (acc ++ [b] ++ tail) = true := by
        rw [List.append_assoc]
        exact whole
      have goes := fun last run (short : run < 6) => ih (last := last) (run := run) (acc := acc ++ [b]) rest short last' next ends
      rw [List.append_assoc, List.singleton_append] at goes
      by_cases six : (if b = last then run + 1 else 1) = 6
      · simp only [stuffFrom, if_pos six, List.cons_append, receiveFrom, if_neg open6, still, Bool.false_eq_true, if_false,
          if_true]
        rw [if_neg (by simp)]
        exact goes _ 1 (by decide)
      · simp only [stuffFrom, if_neg six, List.cons_append, receiveFrom, if_neg open6, still, Bool.false_eq_true, if_false]
        exact goes _ _ (by split <;> split at six <;> omega)

theorem fieldAt_prefix {p q : List Bit} {off w : Nat} (h : off + w ≤ p.length) : fieldAt (p ++ q) off w = fieldAt p off w := by
  rw [fieldAt, fieldAt, List.drop_append_of_le_length (by omega), List.take_append_of_le_length (by simp; omega)]

theorem headBits_length (cls station : Nat) (records : List Record) :
    (headBits cls station records).length = 7 + 48 * records.length := by
  have each : ((records.map Record.bits).flatten).length = 48 * records.length := by
    induction records with
    | nil => rfl
    | cons r l ih => rw [List.map_cons, List.flatten_cons, List.length_append, ih, record_bits_length, List.length_cons]; omega
  simp [headBits, each]
  omega

section
variable {cls station w : Nat} {records : List Record}

theorem framed_length (cls station w : Nat) (records : List Record) :
    (framed cls station w records).length = 24 + 48 * records.length := by
  simp [framed, headBits_length]
  omega

theorem framed_count (atLeast : 1 ≤ records.length) (atMost : records.length ≤ 4) :
    countOf (framed cls station w records) = records.length := by
  have e : fieldAt (framed cls station w records) 6 2 = (records.length - 1) % 4 := by
    simp [framed, headBits]
  rw [countOf, e]
  omega

/-- A frame is complete at its last bit. -/
theorem framed_complete (atLeast : 1 ≤ records.length) (atMost : records.length ≤ 4) :
    complete (framed cls station w records) = true := by
  simp [complete, framed_length, framed_count atLeast atMost]
  omega

/-- A frame is complete at no earlier bit: its count field stands from bit 8 on. -/
theorem framed_not_sooner (atLeast : 1 ≤ records.length) (atMost : records.length ≤ 4) (p q : List Bit)
    (split : framed cls station w records = p ++ q) (more : q ≠ []) : complete p = false := by
  by_contra done
  simp only [Bool.not_eq_false, complete, Bool.and_eq_true, decide_eq_true_eq] at done
  obtain ⟨eight, length⟩ := done
  have count : countOf p = records.length := by
    rw [← framed_count (cls := cls) (station := station) (w := w) atLeast atMost, split, countOf, countOf,
      fieldAt_prefix eight]
  have whole := framed_length cls station w records
  rw [split, List.length_append] at whole
  have := List.length_pos_of_ne_nil more
  omega

/-- What a complete frame closes with. -/
theorem closeWith_framed (c : cls ≤ 3) (low : 1 ≤ station) (high : station ≤ 8) (atLeast : 1 ≤ records.length)
    (atMost : records.length ≤ 4) (fit : ∀ r ∈ records, r.fitsBits) (word : w < 65536) :
    closeWith (framed cls station w records) = if w = (checkWord (headBits cls station records)).toNat then
      .good cls station records else .error .checkFail := by
  have length := headBits_length cls station records
  have classIs : fieldAt (framed cls station w records) 1 2 = cls := by
    simp [framed, headBits]
    omega
  have stationIs : fieldAt (framed cls station w records) 3 3 + 1 = station := by
    simp [framed, headBits]
    omega
  have wordIs : fieldAt (framed cls station w records) (8 + 48 * records.length) 16 = w := by
    have e : ([false] ++ headBits cls station records).length = 8 + 48 * records.length := by
      simp [length]
      omega
    rw [framed, fieldAt_skip e.le, e, Nat.sub_self, fieldAt_only]
    exact Nat.mod_eq_of_lt word
  have headIs : ((framed cls station w records).drop 1).take (7 + 48 * records.length) = headBits cls station records := by
    rw [framed, List.append_assoc, List.singleton_append, List.drop_succ_cons, List.drop_zero,
      List.take_left' length]
  have eight : (framed cls station w records).drop 8 = (records.map Record.bits).flatten ++ bitsOf 16 w := by
    have e : framed cls station w records = ([false] ++ bitsOf 2 cls ++ bitsOf 3 (station - 1)
        ++ bitsOf 2 (records.length - 1)) ++ ((records.map Record.bits).flatten ++ bitsOf 16 w) := by
      simp [framed, headBits]
    rw [e, List.drop_left' (by simp)]
  have recordsAre : recordsOf records.length (((framed cls station w records).drop 8).take (48 * records.length)) = records := by
    have e : ((records.map Record.bits).flatten).length = 48 * records.length := by
      have := length
      simp [headBits] at this ⊢
      omega
    rw [eight, List.take_left' e]
    have h := recordsOf_bits fit []
    rwa [List.append_nil] at h
  unfold closeWith
  simp only [framed_count atLeast atMost, classIs, stationIs, wordIs, headIs, recordsAre]

/-- The stuffed bits of a frame are received as the frame closes, whatever bits follow. -/
theorem receive_framed (atLeast : 1 ≤ records.length) (atMost : records.length ≤ 4) (rest : List Bit) :
    receive (stuff (framed cls station w records) ++ rest) = some (closeWith (framed cls station w records)) := by
  have starts : ∃ tail, stuff (framed cls station w records) ++ rest = false :: tail := ⟨_, rfl⟩
  obtain ⟨tail, e⟩ := starts
  have goes : receiveFrom true 0 [] (stuff (framed cls station w records) ++ rest)
      = some (closeWith ([] ++ framed cls station w records)) :=
    receiveFrom_stuffFrom rest (by decide) (by simp [framed])
      (fun p q split more => .inl (framed_not_sooner atLeast atMost p q split more)) (framed_complete atLeast atMost)
  rw [List.nil_append] at goes
  rw [← goes, e]
  rfl

end

/-! ### Runs of equal bits (R163, R164) -/

/-- No run of equal bits is longer than 6, the one under way being of `run` bits of the value `last`. -/
def runsShort (last : Bit) (run : Nat) : List Bit → Prop
  | [] => True
  | b :: l => (if b = last then run + 1 else 1) ≤ 6 ∧ runsShort b (if b = last then run + 1 else 1) l

theorem stuffFrom_runsShort (b : List Bit) : ∀ last run, run < 6 → runsShort last run (stuffFrom last run b) := by
  induction b with
  | nil => exact fun _ _ _ => trivial
  | cons b l ih =>
    intro last run short
    have fits : (if b = last then run + 1 else 1) ≤ 6 := by split <;> omega
    rw [stuffFrom]
    by_cases six : (if b = last then run + 1 else 1) = 6
    · simp only [if_pos six]
      refine ⟨fits, ?_⟩
      rw [six, runsShort, if_neg (by simp)]
      exact ⟨by decide, ih _ 1 (by decide)⟩
    · simp only [if_neg six]
      exact ⟨fits, ih _ _ (by omega)⟩

theorem runsShort_drop {l : List Bit} : ∀ {last run} (i : Nat), runsShort last run l → ∃ last' run', runsShort last' run' (l.drop i) := by
  induction l with
  | nil => exact fun i _ => ⟨false, 0, by rw [List.drop_nil]; trivial⟩
  | cons b l ih =>
    intro last run i h
    match i with
    | 0 => exact ⟨last, run, h⟩
    | i + 1 => exact ih i h.2

theorem not_runsShort_seven (x last : Bit) (run : Nat) (l : List Bit) : ¬ runsShort last run (List.replicate 7 x ++ l) := by
  intro h
  simp only [List.replicate, List.cons_append, List.nil_append, runsShort, if_true] at h
  obtain ⟨_, _, _, _, _, _, seven, _⟩ := h
  split at seven <;> omega

/-- A receiver that has not closed a frame goes on from where it stands. -/
theorem receiveFrom_open {l : List Bit} : ∀ {last run acc}, run ≤ 6 → receiveFrom last run acc l = none →
    ∃ last' run' acc', run' ≤ 6 ∧ ∀ r, receiveFrom last run acc (l ++ r) = receiveFrom last' run' acc' r := by
  induction l with
  | nil => exact fun {last run acc} h _ => ⟨last, run, acc, h, fun _ => rfl⟩
  | cons b l ih =>
    intro last run acc short h
    simp only [receiveFrom] at h
    by_cases six : run = 6
    · rw [if_pos six] at h
      by_cases same : b = last
      · rw [if_pos same] at h
        cases h
      · rw [if_neg same] at h
        obtain ⟨last', run', acc', short', goes⟩ := ih (by decide) h
        exact ⟨last', run', acc', short', fun r => by
          simp only [List.cons_append, receiveFrom, if_pos six, if_neg same, goes]⟩
    · rw [if_neg six] at h
      by_cases full : complete (acc ++ [b]) = true
      · rw [if_pos full] at h
        cases h
      · rw [if_neg full] at h
        obtain ⟨last', run', acc', short', goes⟩ := ih (by split <;> omega) h
        exact ⟨last', run', acc', short', fun r => by
          simp only [List.cons_append, receiveFrom, if_neg six, if_neg full, goes]⟩

/-- Equal bits that leave a frame open lengthen the run. -/
theorem receiveFrom_run {x : Bit} {n : Nat} : ∀ {run acc}, run + n ≤ 6 → receiveFrom x run acc (List.replicate n x) = none →
    ∃ acc', ∀ r, receiveFrom x run acc (List.replicate n x ++ r) = receiveFrom x (run + n) acc' r := by
  induction n with
  | zero => exact fun {run acc} _ _ => ⟨acc, fun _ => rfl⟩
  | succ n ih =>
    intro run acc fits h
    have six : run ≠ 6 := by omega
    simp only [List.replicate_succ, receiveFrom, if_neg six, if_true] at h
    by_cases full : complete (acc ++ [x]) = true
    · rw [if_pos full] at h
      cases h
    · rw [if_neg full] at h
      obtain ⟨acc', goes⟩ := ih (by omega) h
      refine ⟨acc', fun r => ?_⟩
      simp only [List.replicate_succ, List.cons_append, receiveFrom, if_neg six, if_neg full, if_true, goes]
      congr 1
      omega

/-- Bits that follow a closed frame do not open it. -/
theorem receiveFrom_closed {l r : List Bit} {c : Reception} : ∀ {last run acc}, receiveFrom last run acc l = some c →
    receiveFrom last run acc (l ++ r) = some c := by
  induction l with
  | nil => exact fun h => nomatch h
  | cons b l ih =>
    intro last run acc h
    simp only [List.cons_append, receiveFrom] at h ⊢
    split
    · next six =>
      rw [if_pos six] at h
      split
      · next same => rwa [if_pos same] at h
      · next other =>
        rw [if_neg other] at h
        exact ih h
    · next six =>
      rw [if_neg six] at h
      split
      · next full => rwa [if_pos full] at h
      · next more =>
        rw [if_neg more] at h
        exact ih h

theorem receiveFrom_before {l r : List Bit} {last run acc} (h : receiveFrom last run acc (l ++ r) = none) :
    receiveFrom last run acc l = none := by
  by_contra closed
  obtain ⟨c, e⟩ := Option.ne_none_iff_exists'.mp closed
  rw [receiveFrom_closed e] at h
  cases h

/-- The sixth of 6 equal bits that leave a frame open stands at the end of a run of exactly 6. -/
theorem receiveFrom_six {x last : Bit} {run : Nat} {acc : List Bit} (short : run ≤ 6)
    (h : receiveFrom last run acc (List.replicate 6 x) = none) :
    ∃ acc', ∀ r, receiveFrom last run acc (List.replicate 6 x ++ r) = receiveFrom x 6 acc' r := by
  by_cases same : last = x
  · subst same
    have split : List.replicate 6 last = List.replicate (6 - run) last ++ List.replicate run last := by
      rw [List.replicate_append_replicate, Nat.sub_add_cancel short]
    rw [split] at h ⊢
    obtain ⟨acc', goes⟩ := receiveFrom_run (by omega) (receiveFrom_before h)
    rw [goes, Nat.add_sub_cancel' short] at h
    match run with
    | 0 => exact ⟨acc', fun r => by rw [List.append_assoc, goes]; rfl⟩
    | run + 1 => simp [List.replicate_succ, receiveFrom] at h
  · have split : List.replicate 6 x = x :: List.replicate 5 x := rfl
    rw [split] at h ⊢
    simp only [receiveFrom, if_neg (Ne.symm same)] at h
    by_cases six : run = 6
    · rw [if_pos six] at h
      obtain ⟨acc', goes⟩ := receiveFrom_run (by decide) h
      exact ⟨acc', fun r => by simp only [List.cons_append, receiveFrom, if_pos six, if_neg (Ne.symm same), goes]⟩
    · rw [if_neg six] at h
      by_cases full : complete (acc ++ [x]) = true
      · rw [if_pos full] at h
        cases h
      · rw [if_neg full] at h
        obtain ⟨acc', goes⟩ := receiveFrom_run (by decide) h
        exact ⟨acc', fun r => by
          simp only [List.cons_append, receiveFrom, if_neg six, if_neg full, if_neg (Ne.symm same), goes]⟩

/-- A line that begins with a dominant bit is received from that bit on. -/
theorem receive_eq {line : List Bit} (h : line.head? = some false) : receive line = receiveFrom true 0 [] line := by
  match line, h with
  | false :: _, _ => rfl

/-- The seventh of 7 equal bits closes a frame that the sixth left open. -/
theorem receive_seven {x : Bit} {before rest : List Bit} (starts : (before ++ [x]).head? = some false)
    (still : receive (before ++ List.replicate 6 x) = none) :
    receive (before ++ List.replicate 7 x ++ rest) = some (.error (if x = true then .truncated else .stuffError)) := by
  have head : ∀ n r, (before ++ (List.replicate (n + 1) x ++ r)).head? = some false := by
    cases before with
    | nil => exact fun _ _ => starts
    | cons b l => exact fun _ _ => starts
  rw [receive_eq (by simpa using head 5 [])] at still
  obtain ⟨last, run, acc, short, goes⟩ := receiveFrom_open (by decide) (receiveFrom_before still)
  rw [goes] at still
  obtain ⟨acc', six⟩ := receiveFrom_six short still
  have seven : List.replicate 7 x ++ rest = List.replicate 6 x ++ x :: rest := by simp [List.replicate_succ]
  rw [List.append_assoc, receive_eq (head 6 rest), goes, seven, six, receiveFrom, if_pos rfl, if_pos rfl]

end Sys2Proof.Machine
namespace Sys2Proof.Proofs
open Sys2Proof.Machine

/-- Settles O25: the receiver undoes the stuffing up to the bit that completes the frame, which is its last. -/
theorem frameRoundTrip : Obligations.FrameRoundTrip := by
  intro cls station records c low high atLeast atMost fit
  rw [frameBits, plainBits_eq, List.append_assoc, receive_framed atLeast atMost,
    closeWith_framed c low high atLeast atMost fit (BitVec.isLt _), if_pos rfl]

/-- Settles O26: a stuffed frame's runs stay at 6, and a receiver that 6 equal bits leave open counts 6 of them. -/
theorem stuffingAndSevenEqualBits : Obligations.StuffingAndSevenEqualBits := by
  refine ⟨fun b i long ⟨x, equal⟩ => ?_, fun _ _ _ => receive_seven,
    fun cls station w records rest c low high atLeast atMost fit word wrong => ?_⟩
  · obtain ⟨last, run, short⟩ := runsShort_drop i (stuffFrom_runsShort b true 0 (by decide))
    have seven : (stuff b).drop i = List.replicate 7 x ++ (stuff b).drop (i + 7) := by
      rw [← List.take_append_drop 7 ((stuff b).drop i), List.drop_drop]
      congr 1
      refine List.ext_getElem (by simp; omega) fun j h _ => ?_
      have here := equal j (by simp at h; omega)
      rw [List.getD_eq_getElem _ _ (by simp at h; omega)] at here
      rw [List.getElem_take, List.getElem_drop, List.getElem_replicate]
      exact here
    rw [stuff] at seven
    rw [seven] at short
    exact not_runsShort_seven x last run _ short
  · have e : [false] ++ headBits cls station records ++ bitsOf 16 w = framed cls station w records := rfl
    rw [e, receive_framed atLeast atMost, closeWith_framed c low high atLeast atMost fit word, if_neg wrong]

end Sys2Proof.Proofs
end

