-- ==== Sys2Proof/Proofs/Claims.lean ====
section
/-! PROOFS. The operations of the Broker on a claim, and what they leave as it was (R33 to R49). -/

namespace Sys2Proof.Machine

/-! ### What an operation of the Broker leaves as it was -/

/-- A claim that is tested again with success: a contest in its announcing stage (R38, R45). -/
def Claim.toContest (c : Claim) (n : Nat) : Claim :=
  { c with st := .contest, held := 0, raise := false, announcing := true, window := none, serial := n }

/-- From `c` to `d` nothing has happened but, to a Waiting claim, re-tests of a Broker `b` (R45). -/
def Claim.tested (b : Broker) (c d : Claim) : Prop :=
  d = c ∨ c.st = .waiting ∧
    (d = c.toWaiting ∨ c.rank + b.level < 7 ∧ ∃ n, b.nextSerial ≤ n ∧ d = c.toContest n)

theorem Claim.tested_refl (b : Broker) (c : Claim) : Claim.tested b c c := .inl rfl

theorem Claim.tested_trans {b b' : Broker} {c d e : Claim} (level : b'.level = b.level)
    (serial : b.nextSerial ≤ b'.nextSerial) (h : Claim.tested b c d) (k : Claim.tested b' d e) : Claim.tested b c e := by
  rcases h with rfl | ⟨waits, rfl | ⟨_, n, _, rfl⟩⟩
  · rcases k with rfl | ⟨waits, rfl | ⟨rank, n, more, rfl⟩⟩
    · exact .inl rfl
    · exact .inr ⟨waits, .inl rfl⟩
    · exact .inr ⟨waits, .inr ⟨by rw [← level]; exact rank, n, serial.trans more, rfl⟩⟩
  · rcases k with rfl | ⟨_, rfl | ⟨rank, n, more, rfl⟩⟩
    · exact .inr ⟨waits, .inl rfl⟩
    · exact .inr ⟨waits, .inl rfl⟩
    · exact .inr ⟨waits, .inr ⟨by rw [← level]; exact rank, n, serial.trans more, rfl⟩⟩
  · rcases k with rfl | ⟨not, _⟩
    · exact .inr ⟨waits, .inr ⟨by assumption, n, by assumption, rfl⟩⟩
    · cases not

theorem Claim.tested_eq {b : Broker} {c d : Claim} (h : Claim.tested b c d) (k : c.st ≠ .waiting) : d = c :=
  h.resolve_right fun w => k w.1

/-- What a re-test never moves, and what it makes of a claim that waits. -/
theorem Claim.tested_keeps {b : Broker} {c d : Claim} (h : Claim.tested b c d) :
    d.rank = c.rank ∧ d.asked = c.asked ∧ d.single = c.single
      ∧ (d.st = c.st ∨ c.st = .waiting ∧ d.st = .contest) := by
  rcases h with rfl | ⟨waits, rfl | ⟨_, n, _, rfl⟩⟩
  · exact ⟨rfl, rfl, rfl, .inl rfl⟩
  · exact ⟨rfl, rfl, rfl, .inl waits.symm⟩
  · exact ⟨rfl, rfl, rfl, .inr ⟨waits, rfl⟩⟩

/-- A contest in its announcing stage was there before, or has a number from `n` on (R38). -/
def Claim.renews (n : Nat) (c d : Claim) : Prop :=
  d.announcing = true → (c.announcing = true ∧ d.serial = c.serial) ∨ n ≤ d.serial

theorem Claim.renews_off {n : Nat} {c d : Claim} (h : d.announcing = false) : Claim.renews n c d :=
  fun k => by rw [h] at k; cases k

theorem Claim.lose_mute (c : Claim) : c.lose.announcing = false := by
  unfold Claim.lose
  split
  · rfl
  · split
    · rfl
    · rfl

/-- The numbers of the contests go up (R38). -/
structure Fresh (s t : State) : Prop where
  serial : s.broker.nextSerial ≤ t.broker.nextSerial
  claims : ∀ j, Claim.renews s.broker.nextSerial (s.claim j) (t.claim j)

theorem Fresh.refl (s : State) : Fresh s s := ⟨le_rfl, fun _ h => .inl ⟨h, rfl⟩⟩

theorem Fresh.trans {s t u : State} (h : Fresh s t) (k : Fresh t u) : Fresh s u where
  serial := h.serial.trans k.serial
  claims j a := by
    rcases k.claims j a with ⟨a', same⟩ | new
    · rw [same]
      exact h.claims j a'
    · exact .inr (h.serial.trans new)

/-- The contests announced are fresh; and while Line Fault is declared the buffers stand, and so does every claim but those
that meet `p`: a re-test of a Waiting claim leaves it Waiting (R37, R38, R45, R167). -/
structure Stands (p : Fin 7 → Prop) (s t : State) : Prop where
  fault : t.bus.lineFault = s.bus.lineFault
  still : s.bus.lineFault = true → (t.bus.urgentBuf = s.bus.urgentBuf ∧ t.bus.normalBuf = s.bus.normalBuf)
    ∧ ∀ j, ¬ p j → t.claim j = s.claim j ∨ (s.claim j).st = .waiting ∧ t.claim j = (s.claim j).toWaiting
  fresh : Fresh s t

theorem Stands.refl (p : Fin 7 → Prop) (s : State) : Stands p s s :=
  ⟨rfl, fun _ => ⟨⟨rfl, rfl⟩, fun _ _ => .inl rfl⟩, Fresh.refl s⟩

theorem Stands.trans {p : Fin 7 → Prop} {s t u : State} (h : Stands p s t) (k : Stands p t u) : Stands p s u := by
  refine ⟨k.fault.trans h.fault, fun fault => ?_, h.fresh.trans k.fresh⟩
  obtain ⟨bufs, claims⟩ := h.still fault
  obtain ⟨bufs', claims'⟩ := k.still (h.fault.trans fault)
  refine ⟨⟨bufs'.1.trans bufs.1, bufs'.2.trans bufs.2⟩, fun j n => ?_⟩
  rcases claims j n with e | ⟨waits, e⟩
  · rw [← e]
    exact claims' j n
  · refine .inr ⟨waits, ?_⟩
    rcases claims' j n with e' | ⟨-, e'⟩
    · rw [e', e]
    · rw [e', e]
      rfl

theorem Stands.mono {p q : Fin 7 → Prop} {s t : State} (w : ∀ j, p j → q j) (h : Stands p s t) : Stands q s t :=
  ⟨h.fault, fun fault => ⟨(h.still fault).1, fun j n => (h.still fault).2 j fun x => n (w j x)⟩, h.fresh⟩

/-- `t` is `s` but for the claims that meet `p`, the Gatherer, the periods and re-tests of Waiting claims. -/
structure Asked (p : Fin 7 → Prop) (s t : State) : Prop where
  rest : t = { s with broker := t.broker, bus := t.bus, periods := { s.periods with draw := t.periods.draw } }
  broker : t.broker = { s.broker with claims := t.broker.claims, nextSerial := t.broker.nextSerial }
  bus : s.bus.sameLine t.bus
  serial : s.broker.nextSerial ≤ t.broker.nextSerial
  claims : ∀ j, ¬ p j → Claim.tested s.broker (s.claim j) (t.claim j)
  stands : Stands p s t

/-- From an orderly state an operation keeps order and does no more than `Asked` says. -/
def Asks (p : Fin 7 → Prop) (s t : State) : Prop := s.Ok → t.Ok ∧ Asked p s t

section
variable {p q : Fin 7 → Prop} {s t u : State}

theorem Asked.level (h : Asked p s t) : t.broker.level = s.broker.level := by rw [h.broker]

theorem Asked.refl (p : Fin 7 → Prop) (s : State) : Asked p s s :=
  ⟨rfl, rfl, Bus.sameLine_refl _, le_rfl, fun _ _ => Claim.tested_refl _ _, Stands.refl p s⟩

theorem Asked.trans (h : Asked p s t) (k : Asked p t u) : Asked p s u where
  rest := by rw [k.rest, h.rest]
  broker := by rw [k.broker, h.broker]
  bus := Bus.sameLine_trans h.bus k.bus
  serial := h.serial.trans k.serial
  claims j n := Claim.tested_trans h.level h.serial (h.claims j n) (k.claims j n)
  stands := h.stands.trans k.stands

theorem Asked.mono (w : ∀ j, p j → q j) (h : Asked p s t) : Asked q s t :=
  ⟨h.rest, h.broker, h.bus, h.serial, fun j n => h.claims j fun x => n (w j x), h.stands.mono w⟩

theorem Asks.refl (p : Fin 7 → Prop) (s : State) : Asks p s s := fun o => ⟨o, Asked.refl p s⟩

theorem Asks.trans (h : Asks p s t) (k : Asks p t u) : Asks p s u := fun o =>
  ⟨(k (h o).1).1, (h o).2.trans (k (h o).1).2⟩

theorem Asks.mono (w : ∀ j, p j → q j) (h : Asks p s t) : Asks q s t := fun o => ⟨(h o).1, (h o).2.mono w⟩

theorem Asks.intro (h : s.Ok → Asks p s t) : Asks p s t := fun o => h o o

theorem Asks.ite {c : Prop} [Decidable c] {a b : State} (h : c → Asks p s a) (k : ¬c → Asks p s b) :
    Asks p s (if c then a else b) := by
  split
  · exact h ‹_›
  · exact k ‹_›

theorem Asks.itePair {α : Type} {c : Prop} [Decidable c] {a b : State × α} (h : c → Asks p s a.1)
    (k : ¬c → Asks p s b.1) : Asks p s (if c then a else b).1 := by
  split
  · exact h ‹_›
  · exact k ‹_›

theorem Asks.foldl {α : Type} (f : State → α → State) (h : ∀ s x, Asks p s (f s x)) (l : List α) (s : State) :
    Asks p s (l.foldl f s) := by
  induction l generalizing s with
  | nil => exact Asks.refl p s
  | cons x xs ih => exact (h s x).trans (ih (f s x))

theorem Asked.shared (h : Asked p s t) : Shared s t := by
  unfold Shared
  rw [h.rest]

theorem Asked.view (h : Asked p s t) : t.view = s.view := by rw [h.rest]
theorem Asked.status (h : Asked p s t) : t.status = s.status := by rw [h.rest]
theorem Asked.due (h : Asked p s t) : t.due = s.due := by rw [h.rest]
theorem Asked.periods (h : Asked p s t) : t.periods = { s.periods with draw := t.periods.draw } := congrArg State.periods h.rest
theorem Asked.seq (h : Asked p s t) : t.seq = s.seq := by rw [h.rest]
theorem Asked.supply (h : Asked p s t) : t.supply = s.supply := by rw [h.rest]
theorem Asked.water (h : Asked p s t) : t.water = s.water := by rw [h.rest]
theorem Asked.climate (h : Asked p s t) : t.climate = s.climate := by rw [h.rest]
theorem Asked.motion (h : Asked p s t) : t.motion = s.motion := by rw [h.rest]
theorem Asked.lights (h : Asked p s t) : t.lights = s.lights := by rw [h.rest]
theorem Asked.pins (h : Asked p s t) : t.pins = s.pins := by rw [h.rest]
theorem Asked.cell (h : Asked p s t) : t.cell = s.cell := by rw [h.rest]
theorem Asked.lineFault (h : Asked p s t) : t.bus.lineFault = s.bus.lineFault := by rw [h.bus]

end

/-! ### Writing a claim -/

theorem claim_setClaim (s : State) (id j : Fin 7) (c : Claim) :
    (s.setClaim id c).claim j = if id = j then c else s.claim j := Tab.get_set _ _ _ _

@[simp] theorem claim_setClaim_self (s : State) (id : Fin 7) (c : Claim) : (s.setClaim id c).claim id = c :=
  Tab.get_set_self _ _ _

@[simp] theorem claim_putClaim_self (s : State) (id : Fin 7) (c : Claim) : (s.putClaim id c).claim id = c :=
  claim_setClaim_self s id c

@[simp] theorem claim_startContest_self (s : State) (id : Fin 7) (c : Claim) : (s.startContest id c).claim id =
    { c with announcing := true, window := none, serial := s.broker.nextSerial } := claim_setClaim_self _ id _

theorem setClaim_asked {p : Fin 7 → Prop} (s : State) (id : Fin 7) (c : Claim)
    (h : p id) (fresh : Claim.renews s.broker.nextSerial (s.claim id) c) : Asked p s (s.setClaim id c) where
  rest := rfl
  broker := rfl
  bus := Bus.sameLine_refl _
  serial := le_rfl
  claims j n := by
    rw [claim_setClaim]
    split
    · next e => exact absurd h (e ▸ n)
    · exact Claim.tested_refl _ _
  stands := by
    refine ⟨rfl, fun _ => ⟨⟨rfl, rfl⟩, fun j n => ?_⟩, le_rfl, fun j a => ?_⟩
    · refine .inl ?_
      rw [claim_setClaim, if_neg]
      rintro rfl
      exact n h
    · rw [claim_setClaim] at a ⊢
      split at a
      · next e =>
        subst e
        rw [if_pos rfl]
        exact fresh a
      · next e =>
        rw [if_neg e]
        exact .inl ⟨a, rfl⟩

/-- While Line Fault is declared a record handed over builds no frame (R167, R172). -/
theorem hand_stands (p : Fin 7 → Prop) (s : State) (r : Record) (tag : Nat) : Stands p s (s.hand r tag) := by
  have line := State.hand_sameLine s r tag
  unfold Bus.sameLine at line
  refine ⟨by rw [line], fun fault => ⟨?_, fun _ _ => .inl rfl⟩, le_rfl, fun _ a => .inl ⟨a, rfl⟩⟩
  have joins := Bus.join_buffers s.now ⟨r, tag⟩ s.bus
  have joined := Bus.join_sameLine s.now ⟨r, tag⟩ s.bus
  unfold Bus.sameLine at joined
  show ((s.bus.join s.now ⟨r, tag⟩).build s.now).urgentBuf = _ ∧ ((s.bus.join s.now ⟨r, tag⟩).build s.now).normalBuf = _
  rw [Bus.build_fault]
  · exact joins
  · rw [joined]
    exact fault

theorem handDraw_asked (p : Fin 7 → Prop) (s : State) (id : Fin 7) : Asked p s (s.handDraw id) where
  rest := rfl
  broker := rfl
  bus := State.hand_sameLine s _ _
  serial := le_rfl
  claims _ _ := Claim.tested_refl _ _
  stands :=
    have h := hand_stands p s { subject := id.val, payload := .draw (drawOf (s.claim id)) }
      (if (s.claim id).contesting then (s.claim id).serial else 0)
    ⟨h.fault, h.still, h.fresh.serial, h.fresh.claims⟩

theorem putClaim_asked {p : Fin 7 → Prop} (s : State) (id : Fin 7) (c : Claim)
    (h : p id) (fresh : Claim.renews s.broker.nextSerial (s.claim id) c) : Asked p s (s.putClaim id c) :=
  (setClaim_asked s id c h fresh).trans (handDraw_asked p _ id)

/-- The number of the next contest is taken. -/
theorem nextSerial_asked (p : Fin 7 → Prop) (s : State) :
    Asked p s (s.setBroker { s.broker with nextSerial := s.broker.nextSerial + 1 }) where
  rest := rfl
  broker := rfl
  bus := Bus.sameLine_refl _
  serial := Nat.le_succ _
  claims _ _ := Claim.tested_refl _ _
  stands := ⟨rfl, fun _ => ⟨⟨rfl, rfl⟩, fun _ _ => .inl rfl⟩, Nat.le_succ _, fun _ a => .inl ⟨a, rfl⟩⟩

theorem startContest_asked {p : Fin 7 → Prop} (s : State) (id : Fin 7) (c : Claim) (h : p id) :
    Asked p s (s.startContest id c) := by
  have same : s.startContest id c = ((s.setClaim id { c with
      announcing := true, window := none, serial := s.broker.nextSerial }).setBroker { (s.setClaim id { c with
      announcing := true, window := none, serial := s.broker.nextSerial }).broker with
      nextSerial := s.broker.nextSerial + 1 }).handDraw id := rfl
  rw [same]
  exact ((setClaim_asked s id _ h fun _ => .inr le_rfl).trans (nextSerial_asked p _)).trans (handDraw_asked p _ id)

theorem Calm.asks {p : Fin 7 → Prop} {s t : State} (h : Calm s t) (k : s.Ok → Asked p s t) : Asks p s t :=
  fun o => ⟨(h o).1, k o⟩

/-! ### The operations (R33) -/

/-- No pre-test passes while Line Fault is declared (R37). -/
theorem passes_fault {s : State} {id : Fin 7} {rank a : Nat} (fault : s.bus.lineFault = true) : s.passes id rank a = false := by
  unfold State.passes
  split
  · rfl
  · simp [fault]

/-- A pre-test that passes does so at a rank that does not yield to the level in force (R37). -/
theorem passes_rank {s : State} {id : Fin 7} {rank a : Nat} (h : s.passes id rank a = true) :
    rank + s.broker.level < 7 := by
  unfold State.passes at h
  split at h
  · cases h
  · simp only [Bool.and_eq_true, decide_eq_true_eq] at h
    exact h.1.1.1.1

/-- A standing ask or a re-test: what the claim becomes (R38, R45). -/
theorem testWaiting_claim {s : State} (o : s.Ok) (id : Fin 7) : (s.testWaiting id).claim id =
    if s.passes id (s.claim id).rank (s.claim id).asked then (s.claim id).toContest s.broker.nextSerial
    else (s.claim id).toWaiting := by
  simp only [State.testWaiting, brokerReads_checked o.checked]
  split
  · exact claim_startContest_self _ _ _
  · exact claim_setClaim_self _ _ _

theorem testWaiting_asked {p : Fin 7 → Prop} {s : State} (o : s.Ok) (id : Fin 7) (h : p id ∨ (s.claim id).st = .waiting) :
    Asked p s (s.testWaiting id) := by
  have claim := testWaiting_claim o id
  have only : Asked (· = id) s (s.testWaiting id) := by
    simp only [State.testWaiting, brokerReads_checked o.checked]
    split
    · exact startContest_asked s id _ rfl
    · exact setClaim_asked s id _ rfl (Claim.renews_off rfl)
  refine ⟨only.rest, only.broker, only.bus, only.serial, fun j n => ?_, only.stands.fault, fun fault =>
    ⟨(only.stands.still fault).1, fun j n => ?_⟩, only.stands.fresh⟩
  on_goal 2 =>
    by_cases e : j = id
    · subst e
      refine .inr ⟨h.resolve_left n, ?_⟩
      rw [claim, if_neg]
      simp [passes_fault fault]
    · exact (only.stands.still fault).2 j e
  by_cases e : j = id
  · subst e
    have waits := h.resolve_left n
    refine .inr ⟨waits, ?_⟩
    rw [claim]
    split
    · next passes => exact .inr ⟨passes_rank passes, _, le_rfl, rfl⟩
    · exact .inl rfl
  · exact only.claims j e

theorem testWaiting_asks {p : Fin 7 → Prop} (s : State) (id : Fin 7) (h : p id ∨ (s.claim id).st = .waiting) :
    Asks p s (s.testWaiting id) := (testWaiting_calm s id).asks fun o => testWaiting_asked o id h

/-- A re-test event does nothing to a claim that does not wait (R45). -/
theorem retest_asks (p : Fin 7 → Prop) (s : State) : Asks p s s.retest :=
  Asks.foldl _ (fun s id => Asks.ite (fun h => testWaiting_asks s id (.inr h)) (fun _ => Asks.refl p s)) _ _

theorem abandonContest_asks (s : State) (id : Fin 7) : Asks (· = id) s (s.abandonContest id) :=
  (abandonContest_calm s id).asks fun _ => by
    unfold State.abandonContest
    split
    · exact putClaim_asked s id _ rfl (Claim.renews_off rfl)
    · exact Asked.refl _ s

/-- A release touches no other claim but by the re-test it is (R43, R45). -/
theorem release_asks (s : State) (id : Fin 7) : Asks (· = id) s (s.release id) := by
  intro o
  have f := Claim.toIdle_fits (o.claim id).1
  unfold State.release
  split
  · exact Asks.refl _ s o
  · exact (((setClaim_calm s id _ f).asks (p := (· = id)) fun _ => setClaim_asked s id _ rfl (Claim.renews_off rfl)).trans (retest_asks _ _)) o
  · exact (((putClaim_calm s id _ f).asks (p := (· = id)) fun _ => putClaim_asked s id _ rfl (Claim.renews_off rfl)).trans (retest_asks _ _)) o

/-- A release leaves the claim Idle (R43). -/
theorem release_claim {s : State} (o : s.Ok) (id : Fin 7) :
    (s.release id).claim id = if (s.claim id).st = .idle then s.claim id else (s.claim id).toIdle := by
  have f := Claim.toIdle_fits (o.claim id).1
  unfold State.release
  split
  · next idle => rw [if_pos idle]
  · next waits =>
    have o' := ((setClaim_calm s id _ f) o).1
    have same := Claim.tested_eq ((retest_asks (fun _ => False) _ o').2.claims id not_false) (by simp [Claim.toIdle])
    rw [same, if_neg (by simp [waits]), claim_setClaim_self]
  · next st idle waits =>
    have o' := ((putClaim_calm s id _ f) o).1
    have same := Claim.tested_eq ((retest_asks (fun _ => False) _ o').2.claims id not_false) (by simp [Claim.toIdle])
    rw [same, if_neg idle, claim_putClaim_self]

theorem release_idle {s : State} (o : s.Ok) (id : Fin 7) : ((s.release id).claim id).st = .idle := by
  rw [release_claim o]
  split
  · assumption
  · rfl

/-- A release of an Idle claim does nothing. -/
theorem release_of_idle {s : State} {id : Fin 7} (h : (s.claim id).st = .idle) : s.release id = s := by
  unfold State.release
  rw [h]

/-- The pre-test for a claim looks at no waiting record, at no period and at no claim's own state. -/
theorem passes_of_asked {p : Fin 7 → Prop} {s t : State} {id : Fin 7} (h : Asked p s t)
    (k : ∀ j, j ≠ id → t.claim j = s.claim j) (rank a : Nat) : t.passes id rank a = s.passes id rank a := by
  have usable : t.usable = s.usable := by
    rw [State.usable, State.usable, h.seq, State.ownUsable, State.ownUsable, h.supply, h.seq, State.peerUsable,
      State.peerUsable, State.entries, State.entries, h.view]
  have share : ∀ x, ∀ j ∈ fin7.filter (· ≠ id), t.ownShare x j = s.ownShare x j := by
    intro x j m
    have other : j ≠ id := by simpa using (List.mem_filter.mp m).2
    rw [State.ownShare, State.ownShare, k j other, State.place, State.place, h.seq]
  have total : ∀ x, t.knownTotal id x = s.knownTotal id x := by
    intro x
    rw [State.knownTotal, State.knownTotal, List.map_congr_left (share x), State.entries, State.entries, h.view]
  unfold State.passes
  rw [usable, total, h.view, h.seq, h.lineFault, h.level]

theorem claim_putClaim_ne (s : State) {id j : Fin 7} (c : Claim) (h : j ≠ id) : (s.putClaim id c).claim j = s.claim j :=
  (claim_setClaim s id j c).trans (if_neg h.symm)

theorem claim_setClaim_ne (s : State) {id j : Fin 7} (c : Claim) (h : j ≠ id) : (s.setClaim id c).claim j = s.claim j :=
  (claim_setClaim s id j c).trans (if_neg h.symm)

theorem passes_abandonContest (s : State) (id : Fin 7) (rank a : Nat) :
    (s.abandonContest id).passes id rank a = s.passes id rank a := by
  unfold State.abandonContest
  split
  · exact passes_of_asked (p := (· = id)) (putClaim_asked s id _ rfl (Claim.renews_off rfl)) (fun j n => claim_putClaim_ne s _ n) rank a
  · rfl

/-- The claim that an ask of rank `rank` and amount `a` is worked out for (R33). -/
def Claim.asking (c : Claim) (rank a : Nat) (single : Bool) : Claim := { c with rank := rank, asked := a, single := single }

theorem ask_drawing {s : State} {id : Fin 7} (rank a : Nat) (single : Bool) (some : 1 ≤ a)
    (h : (s.claim id).drawing = true) : s.ask id rank a single = (s, .refused) := by
  have more : min a Config.maxAmount ≠ 0 := by
    have : Config.maxAmount = 30000 := rfl
    omega
  unfold State.ask
  rw [if_neg more, if_pos h]

theorem ask_idle_eq {s : State} (o : s.Ok) {id : Fin 7} (rank a : Nat) (single : Bool) (some : 1 ≤ a)
    (h : (s.claim id).drawing = false) : s.ask id rank a single =
      (let u := s.abandonContest id
      let c := { u.claim id with rank := rank, asked := min a 30000, single := single, raise := false }
      if rank = 0 then (u.putClaim id (c.toHeld (min a 30000)), .granted)
      else if s.passes id rank (min a 30000) = true then (u.startContest id { c with st := .contest, held := 0 }, .none)
      else if single = true then (u.setClaim id c.toIdle, .refused)
      else (u.setClaim id c.toWaiting, .none)) := by
  have more : min a Config.maxAmount ≠ 0 := by
    have : Config.maxAmount = 30000 := rfl
    omega
  have draws : ¬ (s.claim id).drawing = true := by simp [h]
  have o' := (abandonContest_calm s id o).1
  unfold State.ask
  rw [if_neg more, if_neg draws]
  simp only [brokerReads_checked o'.checked, passes_abandonContest]
  rfl

theorem abandonContest_claim (s : State) (id : Fin 7) :
    (s.abandonContest id).claim id = if (s.claim id).st = .contest then (s.claim id).toIdle else s.claim id := by
  unfold State.abandonContest
  split
  · exact claim_putClaim_self _ _ _
  · rfl

theorem abandonContest_serial (s : State) (id : Fin 7) : (s.abandonContest id).broker.nextSerial = s.broker.nextSerial := by
  unfold State.abandonContest
  split
  · rfl
  · rfl

/-- An ask reaches no other claim but, where it is one of 0, by the re-test of a release. -/
theorem ask_asks (s : State) (id : Fin 7) (rank a : Nat) (single : Bool) (low : rank ≤ 6) :
    Asks (· = id) s (s.ask id rank a single).1 := by
  intro o
  refine (ask_calm s id rank a single low).asks (fun o => ?_) o
  unfold State.ask
  dsimp only
  split
  · exact (release_asks s id o).2
  split
  · exact Asked.refl _ s
  have first := abandonContest_asks s id o
  refine first.2.trans ?_
  split
  · exact putClaim_asked _ id _ rfl (Claim.renews_off rfl)
  rw [brokerReads_checked first.1.checked]
  split
  · exact startContest_asked _ id _ rfl
  split
  · exact setClaim_asked _ id _ rfl (Claim.renews_off rfl)
  · exact setClaim_asked _ id _ rfl (Claim.renews_off rfl)

section
variable {s : State} (o : s.Ok) {id : Fin 7} (a : Nat) (single : Bool) (some : 1 ≤ a) (h : (s.claim id).drawing = false)
include o some h

/-- An ask at rank 0 is Held at once (R46). -/
theorem ask_zero : (s.ask id 0 a single).2 = .granted
    ∧ (s.ask id 0 a single).1.claim id = ((s.claim id).asking 0 a single).toHeld (min a 30000) := by
  rw [ask_idle_eq o 0 a single some h]
  refine ⟨rfl, (claim_putClaim_self _ _ _).trans ?_⟩
  rw [abandonContest_claim]
  split <;> rfl

/-- An ask that passes its pre-test starts a contest (R38). -/
theorem ask_passes {rank : Nat} (pos : rank ≠ 0) (passes : s.passes id rank (min a 30000) = true) :
    (s.ask id rank a single).2 = .none ∧ (s.ask id rank a single).1.claim id =
      ((s.claim id).asking rank (min a 30000) single).toContest s.broker.nextSerial := by
  rw [ask_idle_eq o rank a single some h, if_neg pos, if_pos passes]
  refine ⟨rfl, (claim_startContest_self _ _ _).trans ?_⟩
  rw [abandonContest_claim, abandonContest_serial]
  split <;> rfl

/-- A Try that fails its pre-test is refused and leaves the claim Idle (R37). -/
theorem try_fails {rank : Nat} (pos : rank ≠ 0) (fails : s.passes id rank (min a 30000) = false) (is : single = true) :
    (s.ask id rank a single).2 = .refused ∧ (s.ask id rank a single).1.claim id =
      ((s.claim id).asking rank 0 single).toIdle := by
  have not : ¬ s.passes id rank (min a 30000) = true := by simp [fails]
  rw [ask_idle_eq o rank a single some h, if_neg pos, if_neg not, if_pos is]
  refine ⟨rfl, (claim_setClaim_self _ _ _).trans ?_⟩
  rw [abandonContest_claim]
  split <;> rfl

/-- A standing ask that fails its pre-test waits (R37). -/
theorem ask_fails {rank : Nat} (pos : rank ≠ 0) (fails : s.passes id rank (min a 30000) = false) (is : single = false) :
    (s.ask id rank a single).2 = .none ∧ (s.ask id rank a single).1.claim id =
      ((s.claim id).asking rank (min a 30000) single).toWaiting := by
  have not : ¬ s.passes id rank (min a 30000) = true := by simp [fails]
  have standing : ¬ single = true := by simp [is]
  rw [ask_idle_eq o rank a single some h, if_neg pos, if_neg not, if_neg standing]
  refine ⟨rfl, (claim_setClaim_self _ _ _).trans ?_⟩
  rw [abandonContest_claim]
  split <;> rfl

end

/-! ### Lower, Raise, Re-rank and Force (R42 to R44, R47) -/

/-- The claim of a Lower that is taken (R43). -/
def Claim.lowered (c : Claim) (a : Nat) : Claim :=
  { c with held := a, asked := a, raise := false, announcing := false, window := none }

theorem lower_eq {s : State} {id : Fin 7} {a : Nat} (some : 1 ≤ a) (draws : (s.claim id).drawing = true)
    (le : a ≤ (s.claim id).held) : s.lower id a = ((s.putClaim id ((s.claim id).lowered a)).retest, .none) := by
  have not : ¬ (!(s.claim id).drawing || decide ((s.claim id).held < a)) = true := by simp [draws, le]
  have pos : a ≠ 0 := by omega
  unfold State.lower
  rw [if_neg not, if_neg pos]
  rfl

theorem lower_asks (s : State) (id : Fin 7) (a : Nat) : Asks (· = id) s (s.lower id a).1 := by
  refine Asks.intro fun o => ?_
  unfold State.lower
  refine Asks.itePair (fun _ => Asks.refl _ s) (fun hd => Asks.itePair (fun _ => release_asks s id) (fun _ => ?_))
  simp only [Bool.or_eq_true, Bool.not_eq_true', decide_eq_true_eq, not_or, not_lt, Bool.not_eq_false] at hd
  exact ((putClaim_calm s id _ (Claim.lowered_fits (o.claim id) hd.1 hd.2)).asks (p := (· = id))
    fun _ => putClaim_asked s id _ rfl (Claim.renews_off rfl)).trans (retest_asks _ _)

/-- A retest after a claim is set to one that does not wait leaves that one alone. -/
theorem retest_put {s : State} (o : s.Ok) {id : Fin 7} {c : Claim} (fits : c.fits) (not : c.st ≠ .waiting) :
    ((s.putClaim id c).retest).claim id = c := by
  have o' := (putClaim_calm s id c fits o).1
  have same := Claim.tested_eq ((retest_asks (fun _ => False) _ o').2.claims id not_false) (by simpa using not)
  rw [same, claim_putClaim_self]

/-- A Lower takes the smaller amount at once (R43). -/
theorem lower_claim {s : State} (o : s.Ok) {id : Fin 7} {a : Nat} (some : 1 ≤ a) (draws : (s.claim id).drawing = true)
    (le : a ≤ (s.claim id).held) :
    (s.lower id a).2 = .none ∧ (s.lower id a).1.claim id = (s.claim id).lowered a := by
  rw [lower_eq some draws le]
  refine ⟨rfl, retest_put o (Claim.lowered_fits (o.claim id) draws le) ?_⟩
  intro w
  have waits : (s.claim id).st = .waiting := w
  simp [Claim.drawing, waits] at draws

theorem abandonRaise_claim (s : State) (id : Fin 7) :
    (s.abandonRaise id).claim id = if (s.claim id).raise then (s.claim id).toHeld (s.claim id).held else s.claim id := by
  unfold State.abandonRaise
  split
  · exact claim_putClaim_self _ _ _
  · rfl

theorem abandonRaise_asked (s : State) (id : Fin 7) : Asked (· = id) s (s.abandonRaise id) := by
  unfold State.abandonRaise
  split
  · exact putClaim_asked s id _ rfl (Claim.renews_off rfl)
  · exact Asked.refl _ s

theorem abandonRaise_other (s : State) {id j : Fin 7} (h : j ≠ id) : (s.abandonRaise id).claim j = s.claim j := by
  unfold State.abandonRaise
  split
  · exact claim_putClaim_ne s _ h
  · rfl

theorem raise_asks (s : State) (id : Fin 7) (a : Nat) : Asks (· = id) s (s.raise id a).1 := by
  intro o
  refine (raise_calm s id a).asks (fun o => ?_) o
  unfold State.raise
  dsimp only
  split
  · exact Asked.refl _ s
  split
  · exact (lower_asks s id _ o).2
  split
  · exact putClaim_asked s id _ rfl (Claim.renews_off rfl)
  have o' := (abandonRaise_calm s id o).1
  rw [brokerReads_checked o'.checked]
  refine (abandonRaise_asked s id).trans ?_
  split
  · exact startContest_asked _ id _ rfl
  · exact Asked.refl _ _

/-- A Raise of a claim that keeps no rank 0, or of a light group, to more than it holds. -/
theorem raise_eq {s : State} (o : s.Ok) {id : Fin 7} {a : Nat} (held : (s.claim id).st = .held)
    (more : (s.claim id).held < min a 30000) (ranked : (s.claim id).rank ≠ 0 ∨ 5 ≤ id.val) :
    s.raise id a = if s.passes id (askRank id (s.claim id)) (min a 30000) = true then
      ((s.abandonRaise id).startContest id { (s.abandonRaise id).claim id with asked := min a 30000, raise := true }, .none)
      else (s.abandonRaise id, .refused) := by
  have o' := (abandonRaise_calm s id o).1
  have notHeld : ¬ (s.claim id).st ≠ .held := by simp [held]
  have notLow : ¬ min a 30000 ≤ (s.claim id).held := by omega
  have notZero : ¬ ((s.claim id).rank = 0 ∧ ¬ isLightLoad id = true) := by
    simp only [isLightLoad, decide_eq_true_eq]
    omega
  have rank : askRank id ((s.abandonRaise id).claim id) = askRank id (s.claim id) := by
    rw [abandonRaise_claim]
    split
    · simp [askRank, Claim.toHeld, held]
    · rfl
  have passes : (s.abandonRaise id).passes id (askRank id (s.claim id)) (min a 30000)
      = s.passes id (askRank id (s.claim id)) (min a 30000) :=
    passes_of_asked (abandonRaise_asked s id) (fun j n => abandonRaise_other s n) _ _
  have max : Config.maxAmount = 30000 := rfl
  unfold State.raise
  dsimp only
  rw [max, if_neg notHeld, if_neg notLow, if_neg notZero, brokerReads_checked o'.checked, rank, passes]

/-- The claim of such a Raise: contested at its old amount, or refused (R42, R51). -/
theorem raise_claim {s : State} (o : s.Ok) {id : Fin 7} {a : Nat} (held : (s.claim id).st = .held)
    (more : (s.claim id).held < min a 30000) (ranked : (s.claim id).rank ≠ 0 ∨ 5 ≤ id.val) :
    let c := s.claim id
    if s.passes id (askRank id c) (min a 30000) = true then (s.raise id a).2 = .none
      ∧ (s.raise id a).1.claim id = { c with
          asked := min a 30000, raise := true, announcing := true, window := none, serial := s.broker.nextSerial }
    else (s.raise id a).2 = .refused
      ∧ (s.raise id a).1.claim id = if c.raise = true then c.toHeld c.held else c := by
  have claim := abandonRaise_claim s id
  have serial : (s.abandonRaise id).broker.nextSerial = s.broker.nextSerial := by
    unfold State.abandonRaise
    split <;> rfl
  have eq := raise_eq o held more ranked
  intro c
  split
  · next wins =>
    rw [eq, if_pos wins]
    refine ⟨rfl, (claim_startContest_self _ _ _).trans ?_⟩
    rw [claim, serial]
    split
    · simp [Claim.toHeld, held, c]
    · rfl
  · next fails =>
    rw [eq, if_neg fails]
    exact ⟨rfl, claim⟩

theorem rerank_asks (s : State) (id : Fin 7) (rank : Nat) (low : rank ≤ 6) : Asks (· = id) s (s.rerank id rank).1 := by
  intro o
  refine (rerank_calm s id rank low).asks (fun o => ?_) o
  unfold State.rerank
  dsimp only
  split
  · next waits =>
    have fits : Claim.fits { s.claim id with rank := rank } := by
      obtain ⟨h1, h2, h3, h4, h5, h6, h7⟩ := o.claim id
      exact ⟨low, h2, h3, h4, h5, h6, fun e => by simp [waits] at e⟩
    have o' := (setClaim_calm s id _ fits o).1
    exact (setClaim_asked (p := (· = id)) s id { s.claim id with rank := rank } rfl fun a => .inl ⟨a, rfl⟩).trans
      (testWaiting_asked o' id (.inl rfl))
  · split
    · exact Asked.refl _ s
    · exact putClaim_asked s id _ rfl fun a => .inl ⟨a, rfl⟩
  · exact Asked.refl _ s

/-- A Re-rank of a Waiting claim works the pre-test at the new rank (R44). -/
theorem rerank_waiting {s : State} (o : s.Ok) {id : Fin 7} {rank : Nat} (low : rank ≤ 6)
    (waits : (s.claim id).st = .waiting) :
    (s.rerank id rank).2 = .none ∧ (s.rerank id rank).1.claim id =
      if s.passes id rank (s.claim id).asked = true then { s.claim id with rank := rank }.toContest s.broker.nextSerial
      else { s.claim id with rank := rank }.toWaiting := by
  have fits : Claim.fits { s.claim id with rank := rank } := by
    obtain ⟨h1, h2, h3, h4, h5, h6, h7⟩ := o.claim id
    exact ⟨low, h2, h3, h4, h5, h6, fun e => by simp [waits] at e⟩
  have o' := (setClaim_calm s id _ fits o).1
  have eq : s.rerank id rank = ((s.setClaim id { s.claim id with rank := rank }).testWaiting id, .none) := by
    unfold State.rerank
    dsimp only
    rw [waits]
  have passes : ∀ r a, (s.setClaim id { s.claim id with rank := rank }).passes id r a = s.passes id r a :=
    passes_of_asked (p := (· = id)) (setClaim_asked s id _ rfl fun a => .inl ⟨a, rfl⟩) fun j n => claim_setClaim_ne s _ n
  rw [eq]
  refine ⟨rfl, (testWaiting_claim o' id).trans ?_⟩
  rw [passes, claim_setClaim_self]
  rfl

/-- A Re-rank of a Held claim takes the rank at once (R44). -/
theorem rerank_held {s : State} {id : Fin 7} (rank : Nat) (held : (s.claim id).st = .held) :
    s.rerank id rank = if rank = (s.claim id).rank then (s, .none)
      else (s.putClaim id { s.claim id with rank := rank },
        if (s.claim id).rank < rank ∧ 7 ≤ rank + s.broker.level then .yield else .none) := by
  unfold State.rerank
  dsimp only
  rw [held]
  rfl

/-- A Re-rank of any other claim is refused (R44). -/
theorem rerank_refused {s : State} {id : Fin 7} (rank : Nat) (waits : (s.claim id).st ≠ .waiting)
    (held : (s.claim id).st ≠ .held) : s.rerank id rank = (s, .refused) := by
  unfold State.rerank
  dsimp only
  split
  · next e => exact absurd e waits
  · next e => exact absurd e held
  · rfl

theorem rerank_held_claim {s : State} {id : Fin 7} (rank : Nat) (held : (s.claim id).st = .held) :
    (s.rerank id rank).1.claim id = { s.claim id with rank := rank } := by
  rw [rerank_held rank held]
  split
  · next same => rw [same]
  · exact claim_putClaim_self _ _ _

theorem force_asks (s : State) (id : Fin 7) (a : Nat) : Asks (· = id) s (s.force id a).1 := by
  intro o
  refine (force_calm s id a).asks (fun o => ?_) o
  have first := abandonContest_asks s id o
  unfold State.force
  simp only [readSupply_checked first.1.checked]
  refine first.2.trans ?_
  split
  · exact putClaim_asked _ id _ rfl (Claim.renews_off rfl)
  split
  · exact setClaim_asked _ id _ rfl (Claim.renews_off rfl)
  · exact setClaim_asked _ id _ rfl (Claim.renews_off rfl)
  · exact Asked.refl _ _

theorem forcedCondition_eq (s : State) :
    s.forcedCondition = s.usable.all fun u => decide (Item.floorF s.seq.values ≤ u.soc) := by
  unfold State.forcedCondition
  split
  · next e => rw [e]; rfl
  · next u e => rw [e]; rfl

/-- A Force is granted when no SUPPLY is usable or its state of charge is at the floor or above; else refused (R47). -/
theorem force_claim {s : State} (o : s.Ok) (id : Fin 7) (a : Nat) :
    if s.forcedCondition = true then (s.force id a).2 = .granted ∧ (s.force id a).1.claim id =
        { s.claim id with rank := 1, st := .forced, held := min a 30000, asked := min a 30000, raise := false,
                          announcing := false, window := none }
    else (s.force id a).2 = .refused ∧ (s.force id a).1.claim id =
        if (s.claim id).drawing = true then s.claim id else (s.claim id).toIdle := by
  have first := abandonContest_asks s id o
  have claim := abandonContest_claim s id
  have usable : (s.abandonContest id).usable = s.usable := by
    rw [State.usable, State.usable, first.2.seq, State.ownUsable, State.ownUsable, first.2.supply, first.2.seq,
      State.peerUsable, State.peerUsable, State.entries, State.entries, first.2.view]
  have condition : (s.abandonContest id).forcedCondition = s.forcedCondition := by
    rw [forcedCondition_eq, forcedCondition_eq, usable, first.2.seq]
  unfold State.force
  simp only [readSupply_checked first.1.checked, condition]
  split
  · refine ⟨rfl, (claim_putClaim_self _ _ _).trans ?_⟩
    rw [claim]
    split <;> rfl
  · rw [claim]
    cases e : (s.claim id).st with
    | contest => exact ⟨rfl, (claim_setClaim_self _ _ _).trans (by simp [claim, e, Claim.drawing, Claim.toIdle])⟩
    | idle => exact ⟨by simp [e], by simp [e, claim, Claim.drawing]⟩
    | waiting => exact ⟨by simp [e], by simp [e, claim, Claim.drawing]⟩
    | held => exact ⟨by simp [e], by simp [e, claim, Claim.drawing]⟩
    | forced => exact ⟨by simp [e], by simp [e, claim, Claim.drawing]⟩

/-! ### Yields, windows and announcements (R38 to R40, R49) -/

theorem complete_asks (s : State) (id : Fin 7) : Asks (· = id) s (s.complete id) :=
  (complete_calm s id).asks fun _ => putClaim_asked s id _ rfl (Claim.renews_off rfl)

theorem complete_claim (s : State) (id : Fin 7) :
    (s.complete id).claim id = { (s.claim id).toHeld (s.claim id).held with rank := 0 } := claim_putClaim_self _ _ _

theorem windowEnd_eq {s : State} (o : s.Ok) (id : Fin 7) : s.windowEnd id =
    if s.passes id (askRank id (s.claim id)) (s.claim id).asked = true then
      (s.putClaim id ((s.claim id).toHeld (s.claim id).asked), .granted)
    else (s.putClaim id (s.claim id).lose, (s.claim id).lossReply) := by
  unfold State.windowEnd
  simp only [brokerReads_checked o.checked]

theorem windowEnd_asks (s : State) (id : Fin 7) : Asks (· = id) s (s.windowEnd id).1 :=
  (windowEnd_calm s id).asks fun o => by
    rw [windowEnd_eq o]
    split
    · exact putClaim_asked s id _ rfl (Claim.renews_off rfl)
    · exact putClaim_asked s id _ rfl (Claim.renews_off (Claim.lose_mute _))

theorem announceFailed_asks (s : State) (id : Fin 7) (tag : Nat) : Asks (· = id) s (s.announceFailed id tag).1 :=
  (announceFailed_calm s id tag).asks fun _ => by
    unfold State.announceFailed
    dsimp only
    split
    · exact setClaim_asked s id _ rfl (Claim.renews_off (Claim.lose_mute _))
    · exact Asked.refl _ s

theorem contestYields_asks (s : State) (id : Fin 7) : Asks (· = id) s (s.contestYields id).1 :=
  (contestYields_calm s id).asks fun _ => putClaim_asked s id _ rfl (Claim.renews_off (Claim.lose_mute _))

end Sys2Proof.Machine
end

