-- ==== Sys2Proof/Proofs/Broker.lean ====
section
/-! PROOFS. What the operations of the Broker answer (R33 to R47). -/

namespace Sys2Proof.Machine

theorem Asked.others {id : Fin 7} {s t : State} (h : Asked (· = id) s t) (j : Fin 7) (n : j ≠ id)
    (w : (s.claim j).st ≠ .waiting) : t.claim j = s.claim j := Claim.tested_eq (h.claims j n) w

theorem State.Sound.ok {s : State} (h : s.Sound) : s.Ok := h.sane.ok

/-- The DRAW of a Held claim (R53). -/
theorem drawOf_held {c : Claim} (h : c.st = .held) : drawOf c =
    ⟨c.held, if c.raise = true then c.asked else c.held, c.rank, if c.raise = true then 1 else 2⟩ := by
  unfold drawOf
  rw [h]
  cases c.raise <;> rfl

/-- A claim that is set has its DRAW carried where the lane has room (R53, R171). -/
theorem putClaim_carries (s : State) (id : Fin 7) (c : Claim) (room : s.bus.periodic.length ≤ 7) :
    (s.putClaim id c).bus.carries { subject := id.val, payload := .draw (drawOf c) } := by
  have e : (s.setClaim id c).claim id = c := claim_setClaim_self s id c
  have carried := hand_carries (s := s.setClaim id c) (r := { subject := id.val, payload := .draw (drawOf c) })
    (if c.contesting then c.serial else 0) (Bus.admits_of_room (show Kind.draw.cls ≠ 0 by decide) (Nat.lt_succ_of_le room))
  unfold State.putClaim State.handDraw
  rw [e]
  exact carried

end Sys2Proof.Machine
namespace Sys2Proof.Proofs
open Sys2Proof.Machine

/-- Settles O47: each operation's claim as its equation gives it, and no other by `Asked`. -/
theorem brokerOperations : Obligations.BrokerOperations := by
  intro s id rank a single sound some small
  have o := sound.ok
  have amount : min a 30000 = a := Nat.min_eq_left small
  refine ⟨fun idle pos low => ?_, fun idle => ?_, ask_drawing rank a single some, fun busy => ?_, fun draws le => ?_,
    fun held more ranked => ?_, fun _ low waits => ?_, fun low held => ?_, ?_⟩
  · have frame := (ask_asks s id rank a single low o).2
    have ranked : rank ≠ 0 := by omega
    refine ⟨frame.others, frame.view, ?_⟩
    cases passes : s.passes id rank a with
    | true =>
      have h := ask_passes o a single some idle ranked (by rwa [amount])
      rwa [amount] at h
    | false =>
      cases kind : single with
      | true =>
        have h := try_fails o a true some idle ranked (by rwa [amount]) rfl
        refine ⟨h.1, ?_⟩
        rw [h.2]
        exact ⟨rfl, rfl⟩
      | false =>
        have h := ask_fails o a false some idle ranked (by rwa [amount]) rfl
        rw [amount] at h
        refine ⟨h.1, ?_⟩
        rw [h.2]
        exact ⟨rfl, rfl, rfl, rfl⟩
  · have h := ask_zero o a single some idle
    rw [amount] at h
    refine ⟨h.1, ?_⟩
    rw [h.2]
    exact ⟨rfl, rfl, rfl, (ask_asks s id 0 a single (by decide) o).2.others⟩
  · have h := release_claim o id
    rw [if_neg busy] at h
    have frame := (release_asks s id o).2
    intro t
    have e : t.claim id = (s.claim id).toIdle := h
    rw [e]
    exact ⟨rfl, rfl, rfl, frame.others, frame.view⟩
  · have h := lower_claim o some draws le
    exact ⟨h.1, h.2, (lower_asks s id a o).2.others⟩
  · have h := raise_claim o held (by rwa [amount]) ranked
    have frame := (raise_asks s id a o).2.others
    rw [amount] at h
    dsimp only at h ⊢
    split at h
    · next wins =>
      rw [if_pos wins, h.2]
      exact ⟨held, rfl, frame, h.1, rfl, rfl, rfl⟩
    · next fails =>
      rw [if_neg fails, h.2]
      refine ⟨?_, ?_, frame, h.1, ?_⟩
      · split
        · rfl
        · exact held
      · split <;> rfl
      · split
        · rfl
        · next no => exact eq_false_of_ne_true no
  · have h := rerank_waiting o low waits
    exact ⟨h.1, (rerank_asks s id rank low o).2.others, h.2⟩
  · have frame := rerank_asks s id rank low o
    refine ⟨rerank_held_claim rank held, fun j n => ?_, frame.2.level, ?_, fun same => ?_, fun other room => ?_⟩
    · rw [rerank_held rank held]
      split
      · rfl
      · exact claim_putClaim_ne s _ n
    · rw [rerank_held rank held]
      split
      · next same => rw [same, if_neg (by omega)]
      · rfl
    · rw [rerank_held rank held, if_pos same]
    · rw [rerank_held rank held, if_neg other]
      have carried := putClaim_carries s id { s.claim id with rank := rank } room
      rw [drawOf_held (show Claim.st { s.claim id with rank := rank } = .held from held)] at carried
      exact carried
  · have h := force_claim o id a
    refine ⟨(force_asks s id a o).2.others, ?_⟩
    rw [forcedCondition_eq, amount] at h
    split at h
    · next granted =>
      rw [if_pos granted, h.2]
      exact ⟨h.1, rfl, rfl, rfl⟩
    · next refused =>
      rw [if_neg refused, h.2]
      refine ⟨h.1, fun draws => if_pos draws, fun idle => ?_⟩
      rw [if_neg (by simp [idle])]
      rfl

end Sys2Proof.Proofs
end

