-- ==== Sys2Proof/Proofs/Tending.lean ====
section
/-! PROOFS. What an owner that acts leaves of the other blocks, the monitors, the requests and the claims: the relation, the updates and the Climate Controller. -/

namespace Sys2Proof.Machine

/-! ### The relation -/

/-- Every request that waits on a channel or a group has a number of at most `n` (R129, R153). -/
def State.waitWithin (n : Nat) (s : State) : Prop :=
  (∀ ch, (s.chan ch).req ≤ n) ∧ ∀ g r, (s.group g).pending = some r → r.req ≤ n

/-- The monitors that an operation may turn, the loads whose claims it may ask, lower or release, whether the level in
force and the usable SUPPLY may follow their inputs, and whether records may be handed over for their periods. -/
structure Scope where
  mons : Fin 19 → Prop
  loads : Fin 7 → Prop
  levels : Prop := False
  hands : Prop := True

/-- Before the handing over at the end of a step, no period has moved but a claim's and a SUPPLY period that stops, and nothing has
fallen due but STATUS subject 2 and MOTION (R26, R53, R145, R178). -/
structure Marked (s t : State) : Prop where
  periods : t.periods = { s.periods with draw := t.periods.draw, supply := t.periods.supply }
  supply : t.periods.supply = s.periods.supply ∨ t.periods.supply = none
  due : t.due = { s.due with status2 := t.due.status2, motion := t.due.motion }
  motion : ∀ ch, s.due.motion.get ch = true → t.due.motion.get ch = true

theorem Marked.same {s t : State} (periods : t.periods = s.periods) (due : t.due = s.due) : Marked s t :=
  ⟨by rw [periods], .inl (by rw [periods]), by rw [due], fun ch h => by rw [due]; exact h⟩

theorem Marked.motionDue (s : State) (ch : Fin 2) : Marked s (s.setDue { s.due with motion := s.due.motion.set ch true }) where
  periods := rfl
  supply := .inl rfl
  due := rfl
  motion k h := by
    show (s.due.motion.set ch true).get k = true
    rw [Tab.get_set]
    exact ite_eq_left_iff.mpr fun _ => h

theorem Marked.trans {s t u : State} (h : Marked s t) (k : Marked t u) : Marked s u where
  periods := by rw [k.periods, h.periods]
  supply := by
    rcases k.supply with e | e
    · rw [e]
      exact h.supply
    · exact .inr e
  due := by rw [k.due, h.due]
  motion ch := k.motion ch ∘ h.motion ch

/-- The level in force and the usable SUPPLY stand unless `levels` lets them move, and no remembered level but falls to 0. -/
def Broker.followed (levels : Prop) (b c : Broker) : Prop :=
  (¬ levels → c.level = b.level ∧ c.usable = b.usable)
    ∧ ∀ i, c.remembered.get i = b.remembered.get i ∨ levels ∧ c.remembered.get i = 0

theorem Broker.followed_same (levels : Prop) {b c : Broker} (level : c.level = b.level) (usable : c.usable = b.usable)
    (remembered : c.remembered = b.remembered) : b.followed levels c :=
  ⟨fun _ => ⟨level, usable⟩, fun _ => .inl (by rw [remembered])⟩

theorem Broker.followed_trans {levels : Prop} {b c d : Broker} (h : b.followed levels c) (k : c.followed levels d) :
    b.followed levels d := by
  refine ⟨fun not => ⟨(k.1 not).1.trans (h.1 not).1, (k.1 not).2.trans (h.1 not).2⟩, fun i => ?_⟩
  rcases k.2 i with e | e
  · rw [e]
    exact h.2 i
  · exact .inr e

/-- Nothing has happened to a claim but, where it waits, re-tests (R45). -/
def Claim.stirs (c d : Claim) : Prop := d = c ∨ c.st = .waiting ∧ (d = c.toWaiting ∨ ∃ n, d = c.toContest n)

theorem Claim.stirs_trans {c d e : Claim} (h : c.stirs d) (k : d.stirs e) : c.stirs e := by
  rcases h with rfl | ⟨waits, rfl | ⟨n, rfl⟩⟩
  · exact k
  · rcases k with rfl | ⟨-, rfl | ⟨m, rfl⟩⟩
    · exact .inr ⟨waits, .inl rfl⟩
    · exact .inr ⟨waits, .inl rfl⟩
    · exact .inr ⟨waits, .inr ⟨m, rfl⟩⟩
  · rcases k with rfl | ⟨not, -⟩
    · exact .inr ⟨waits, .inr ⟨n, rfl⟩⟩
    · cases not

theorem Claim.tested_stirs {b : Broker} {c d : Claim} (h : Claim.tested b c d) : c.stirs d :=
  h.imp_right fun ⟨waits, k⟩ => ⟨waits, k.imp_right fun ⟨_, n, _, e⟩ => ⟨n, e⟩⟩

theorem Stands.same {p : Fin 7 → Prop} {s t : State} (bus : t.bus = s.bus) (broker : t.broker = s.broker) : Stands p s t :=
  ⟨by rw [bus], fun _ => ⟨by rw [bus]; exact ⟨rfl, rfl⟩, fun _ _ => .inl (by rw [State.claim, broker]; rfl)⟩,
    by rw [broker], fun j a => .inl (by unfold State.claim at *; rw [broker] at *; exact ⟨a, rfl⟩)⟩

/-- What an owner that acts leaves as it was, of what other blocks and the cell keep: the requests answered, the monitors
but those of `k`, an attention flag that is set, the zones, the chosen mode, a Lockout that agrees with the cell's, and the
scenes; and where every request that waits, numbered `n` at most, came before the last one answered, the outcome shown. -/
structure Tended (k : Scope) (n : Nat) (s t : State) : Prop where
  serial : t.status.serial = s.status.serial
  request : t.status.lastRequest = s.status.lastRequest
  outcome : n < s.status.serial → t.status.outcome = s.status.outcome
  summary : ∀ n, ¬ k.mons n → t.status.summary.get n = s.status.summary.get n
  attention : s.status.attention = true → t.status.attention = true
  zones : t.climate.zones = s.climate.zones
  chosen : t.climate.chosen = s.climate.chosen
  lockout : s.cell.lockout = s.climate.lockout → t.cell.lockout = t.climate.lockout
  scenes : t.lights.scenes = s.lights.scenes
  stands : Stands k.loads s t
  claims : ∀ j, ¬ k.loads j → (s.claim j).stirs (t.claim j)
  levels : s.broker.followed k.levels t.broker
  marks : ¬ k.hands → Marked s t

/-- From an orderly state whose waiting requests have numbers of at most `n`, an operation keeps both and does no more than
`Tended` says. -/
def Tends (k : Scope) (n : Nat) (s t : State) : Prop :=
  s.Ok → s.waitWithin n → t.Ok ∧ t.waitWithin n ∧ Tended k n s t

section
variable {k : Scope} {n : Nat} {s t u : State}

theorem Tended.refl (k : Scope) (n : Nat) (s : State) : Tended k n s s :=
  ⟨rfl, rfl, fun _ => rfl, fun _ _ => rfl, id, rfl, rfl, id, rfl, Stands.refl _ s, fun _ _ => .inl rfl, Broker.followed_same _ rfl rfl rfl,
    fun _ => Marked.same rfl rfl⟩

theorem Tended.trans (h : Tended k n s t) (j : Tended k n t u) : Tended k n s u where
  serial := j.serial.trans h.serial
  request := j.request.trans h.request
  outcome x := (j.outcome (by rw [h.serial]; exact x)).trans (h.outcome x)
  summary n x := (j.summary n x).trans (h.summary n x)
  attention := j.attention ∘ h.attention
  zones := j.zones.trans h.zones
  chosen := j.chosen.trans h.chosen
  lockout := j.lockout ∘ h.lockout
  scenes := j.scenes.trans h.scenes
  stands := h.stands.trans j.stands
  claims id n := Claim.stirs_trans (h.claims id n) (j.claims id n)
  levels := Broker.followed_trans h.levels j.levels
  marks hands := (h.marks hands).trans (j.marks hands)

/-- An operation that reaches none of these blocks. -/
theorem Tended.same (status : t.status = s.status) (climate : t.climate = s.climate) (cell : t.cell = s.cell)
    (lights : t.lights = s.lights) (bus : t.bus = s.bus) (broker : t.broker = s.broker)
    (marks : ¬ k.hands → Marked s t) : Tended k n s t where
  serial := by rw [status]
  request := by rw [status]
  outcome _ := by rw [status]
  summary _ _ := by rw [status]
  attention := by rw [status]; exact id
  zones := by rw [climate]
  chosen := by rw [climate]
  lockout := by rw [climate, cell]; exact id
  scenes := by rw [lights]
  stands := Stands.same bus broker
  claims _ _ := .inl (by rw [State.claim, broker]; rfl)
  levels := Broker.followed_same _ (by rw [broker]) (by rw [broker]) (by rw [broker])
  marks := marks

theorem Tends.refl (k : Scope) (n : Nat) (s : State) : Tends k n s s := fun o w => ⟨o, w, Tended.refl k n s⟩

theorem Tends.trans (h : Tends k n s t) (j : Tends k n t u) : Tends k n s u := fun o w =>
  have a := h o w
  have b := j a.1 a.2.1
  ⟨b.1, b.2.1, a.2.2.trans b.2.2⟩

theorem Tends.intro (h : s.Ok → s.waitWithin n → Tends k n s t) : Tends k n s t := fun o w => h o w o w

theorem Tends.ite {c : Prop} [Decidable c] {a b : State} (h : c → Tends k n s a) (j : ¬c → Tends k n s b) :
    Tends k n s (if c then a else b) := by
  split
  · exact h ‹_›
  · exact j ‹_›

theorem Tends.foldl {α : Type} (f : State → α → State) (h : ∀ s x, Tends k n s (f s x)) (l : List α) (s : State) :
    Tends k n s (l.foldl f s) := by
  induction l generalizing s with
  | nil => exact Tends.refl k n s
  | cons x xs ih => exact (h s x).trans (ih (f s x))

/-- The operations of the Broker tend, whatever they do to the claims. -/
theorem Asks.tends_within {p : Fin 7 → Prop} (h : Asks p s t) (within : ∀ j, p j → k.loads j) :
    Tends k n s t := fun o w => by
  obtain ⟨o', a⟩ := h o
  refine ⟨o', ?_, ?_⟩
  · simpa only [State.waitWithin, State.chan, State.group, a.motion, a.lights] using w
  · exact ⟨by rw [a.status], by rw [a.status], fun _ => by rw [a.status], fun _ _ => by rw [a.status], by rw [a.status]; exact id, by rw [a.climate],
      by rw [a.climate], by rw [a.climate, a.cell]; exact id, by rw [a.lights], a.stands.mono within,
      fun j x => Claim.tested_stirs (a.claims j fun y => x (within j y)),
      Broker.followed_same _ (by rw [a.broker]) (by rw [a.broker]) (by rw [a.broker]),
      fun _ => ⟨by rw [a.periods], .inl (by rw [a.periods]), by rw [a.due], fun ch h => by rw [a.due]; exact h⟩⟩

theorem Asks.tends {id : Fin 7} (h : Asks (· = id) s t) [own : Fact (k.loads id)] : Tends k n s t :=
  h.tends_within fun _ e => e ▸ own.out

/-! ### Updates of one block -/

theorem setWater_tends (s : State) (x : Water) : Tends k n s (s.setWater x) := fun o w =>
  ⟨(setWater_calm s x o).1, w, Tended.same rfl rfl rfl rfl rfl rfl fun _ => Marked.same rfl rfl⟩

theorem setDue_tends (s : State) (x : Due) (marks : ¬ k.hands → Marked s (s.setDue x)) : Tends k n s (s.setDue x) := fun o w =>
  ⟨(setDue_calm s x o).1, w, Tended.same rfl rfl rfl rfl rfl rfl marks⟩

theorem setPeriods_tends (s : State) (x : Periods) (marks : ¬ k.hands → Marked s (s.setPeriods x)) :
    Tends k n s (s.setPeriods x) := fun o w =>
  ⟨(setPeriods_calm s x o).1, w, Tended.same rfl rfl rfl rfl rfl rfl marks⟩

theorem hand_tends (s : State) (r : Record) (tag : Nat) : Tends k n s (s.hand r tag) := fun o w =>
  ⟨(hand_calm s r tag o).1, w, rfl, rfl, fun _ => rfl, fun _ _ => rfl, id, rfl, rfl, id, rfl, hand_stands _ s r tag, fun _ _ => .inl rfl, Broker.followed_same _ rfl rfl rfl,
    fun _ => Marked.same rfl rfl⟩

/-- Fields of the Climate Controller other than its zones, the chosen mode and Lockout. -/
theorem setClimate_tends (s : State) (x : Climate) (zones : x.zones = s.climate.zones) (chosen : x.chosen = s.climate.chosen)
    (lockout : x.lockout = s.climate.lockout) : Tends k n s (s.setClimate x) := fun o w =>
  ⟨(setClimate_calm s x o).1, w, rfl, rfl, fun _ => rfl, fun _ _ => rfl, id, zones, chosen, fun h => h.trans lockout.symm, rfl,
    Stands.same rfl rfl, fun _ _ => .inl rfl, Broker.followed_same _ rfl rfl rfl,
    fun _ => Marked.same rfl rfl⟩

theorem setLights_tends (s : State) (x : Lights) (scenes : x.scenes = s.lights.scenes)
    (requests : s.waitWithin n → ∀ g r, (x.groups.get g).pending = some r → r.req ≤ n) :
    Tends k n s (s.setLights x) := fun o w =>
  ⟨(setLights_calm s x o).1, ⟨w.1, requests w⟩, rfl, rfl, fun _ => rfl, fun _ _ => rfl, id, rfl, rfl, id, scenes,
    Stands.same rfl rfl, fun _ _ => .inl rfl, Broker.followed_same _ rfl rfl rfl,
    fun _ => Marked.same rfl rfl⟩

/-- Fields of the Light Controller other than its scenes and groups. -/
theorem setLights_tends_same (s : State) (x : Lights) (scenes : x.scenes = s.lights.scenes)
    (groups : x.groups = s.lights.groups) : Tends k n s (s.setLights x) :=
  setLights_tends s x scenes fun w g r h => w.2 g r (by rw [State.group, ← groups]; exact h)

theorem setMotion_tends (s : State) (x : Motion) (requests : s.waitWithin n → ∀ ch, (x.chans.get ch).req ≤ n) :
    Tends k n s (s.setMotion x) := fun o w =>
  ⟨⟨o.checked, o.lanes, o.claims, o.dropped, o.changes⟩, ⟨requests w, w.2⟩, rfl, rfl, fun _ => rfl, fun _ _ => rfl, id, rfl, rfl, id, rfl,
    Stands.same rfl rfl, fun _ _ => .inl rfl, Broker.followed_same _ rfl rfl rfl,
    fun _ => Marked.same rfl rfl⟩

theorem modChan_tends (s : State) (ch : Fin 2) (f : Chan → Chan) (request : s.waitWithin n → (f (s.chan ch)).req ≤ n) :
    Tends k n s (s.modChan ch f) :=
  setMotion_tends s _ fun w j => by
    have e := modChan_chan s ch j f
    unfold State.chan at e
    refine (congrArg Chan.req e).le.trans ?_
    split
    · exact request w
    · exact w.1 j

/-- A channel's request stands. -/
theorem modChan_tends_same (s : State) (ch : Fin 2) (f : Chan → Chan) (request : (f (s.chan ch)).req = (s.chan ch).req) :
    Tends k n s (s.modChan ch f) := modChan_tends s ch f fun w => request.le.trans (w.1 ch)

theorem setOutcome_tends (s : State) (outcome : Nat) (late : ¬ n < s.status.serial) :
    Tends k n s (s.setStatus { s.status with outcome := outcome }) := fun o w =>
  ⟨(setStatus_calm s _ (by exact id) o).1, w, rfl, rfl, fun x => absurd x late, fun _ _ => rfl, id, rfl, rfl, id, rfl,
    Stands.same rfl rfl, fun _ _ => .inl rfl, Broker.followed_same _ rfl rfl rfl,
    fun _ => Marked.same rfl rfl⟩

theorem reviseOutcome_tends (s : State) (req outcome : Nat) (le : s.waitWithin n → req ≤ n) :
    Tends k n s (s.reviseOutcome req outcome) :=
  Tends.intro fun _ w => Tends.ite (fun h => setOutcome_tends s outcome (by
    simp only [Bool.and_eq_true, beq_iff_eq] at h
    have := le w
    omega)) (fun _ => Tends.refl k n s)

theorem raiseAttention_tends (s : State) (m : Fin 19) (d : Bool) : Tends k n s (s.raiseAttention m d) :=
  Tends.ite (fun _ o w =>
    ⟨(setStatus_calm s _ (by exact id) o).1, w, rfl, rfl, fun _ => rfl, fun _ _ => rfl, fun _ => rfl, rfl, rfl, id, rfl,
      Stands.same rfl rfl, fun _ _ => .inl rfl, Broker.followed_same _ rfl rfl rfl,
    fun _ => Marked.same rfl rfl⟩)
    (fun _ => Tends.refl k n s)

/-- A monitor of `k` may turn. -/
theorem monitor_tends (s : State) (m : Fin 19) (d : Bool) (turns : k.mons m) : Tends k n s (s.monitor m d) := by
  refine Tends.trans (t := (s.setStatus { s.status with
    summary := s.status.summary.set m d, changeCount := sat255 (s.status.changeCount + 1) }).setDue
    { s.due with status2 := true }) (fun o w => ?_)
    (Tends.trans (Tends.ite (fun _ => hand_tends _ _ _) (fun _ => Tends.refl k n _)) (raiseAttention_tends _ m d))
  refine ⟨(((setStatus_calm s _ fun _ => sat255_le _).trans (setDue_calm _ _)) o).1, w, rfl, rfl, fun _ => rfl, fun j h => ?_, id, rfl,
    rfl, id, rfl, Stands.same rfl rfl, fun _ _ => .inl rfl, Broker.followed_same _ rfl rfl rfl,
    fun _ => ⟨rfl, .inl rfl, rfl, fun _ => id⟩⟩
  exact Tab.get_set_ne _ _ _ _ fun e => h (e ▸ turns)

theorem readAll_tends (s : State) (p : Entry → Bool) : Tends k n s (s.readAll p) :=
  Tends.intro fun o _ => by rw [readAll_checked o.checked]; exact Tends.refl k n s

theorem readSupply_tends (s : State) : Tends k n s s.readSupply :=
  Tends.intro fun o _ => by rw [readSupply_checked o.checked]; exact Tends.refl k n s

theorem release_tends (s : State) (id : Fin 7) [own : Fact (k.loads id)] : Tends k n s (s.release id) := (release_asks s id).tends

theorem retest_tends (s : State) : Tends k n s s.retest := (retest_asks (fun _ => False) s).tends_within nofun

theorem complete_tends (s : State) (id : Fin 7) [own : Fact (k.loads id)] : Tends k n s (s.complete id) := (complete_asks s id).tends

/-- Fields of the Broker other than its claims and the number of the next contest. -/
theorem setBroker_tends (s : State) (x : Broker) (claims : x.claims = s.broker.claims)
    (serial : x.nextSerial = s.broker.nextSerial) (fits : s.broker.claimsFit → x.claimsFit)
    (levels : s.broker.followed k.levels x) : Tends k n s (s.setBroker x) :=
  fun o w =>
  have claim : ∀ j, (s.setBroker x).claim j = s.claim j := fun j => congrArg (Tab.get · j) claims
  ⟨(setBroker_calm s x fits o).1, w, rfl, rfl, fun _ => rfl, fun _ _ => rfl, id, rfl, rfl, id, rfl,
    ⟨rfl, fun _ => ⟨⟨rfl, rfl⟩, fun j _ => .inl (claim j)⟩, serial.ge, fun j a => .inl (by rw [claim] at a ⊢; exact ⟨a, rfl⟩)⟩,
    fun j _ => .inl (claim j), levels, fun _ => Marked.same rfl rfl⟩

/-! ### The Climate Controller -/

theorem updateHdem_tends (s : State) : Tends k n s s.updateHdem := setClimate_tends s _ rfl rfl rfl

theorem enterPurging_tends (s : State) [heater : Fact (k.loads loadHeater)] : Tends k n s s.enterPurging :=
  (setClimate_tends s _ (by rfl) (by rfl) (by rfl)).trans
    (Tends.ite (fun _ => (lower_asks _ _ _).tends) (fun _ => Tends.refl k n _))

theorem heaterYields_tends (s : State) [heater : Fact (k.loads loadHeater)] : Tends k n s s.heaterYields := by
  unfold State.heaterYields
  split
  · exact enterPurging_tends s
  · exact enterPurging_tends s
  · exact enterPurging_tends s
  · exact Tends.refl k n s

theorem heaterRerank_tends (s : State) [heater : Fact (k.loads loadHeater)] : Tends k n s s.heaterRerank := by
  unfold State.heaterRerank
  refine Tends.ite (fun _ => ?_) (fun _ => Tends.refl k n s)
  have h : Tends k n s (s.rerank loadHeater s.heaterRank).1 := (rerank_asks s _ _ (heaterRank_le s)).tends
  split
  · next t e =>
    rw [e] at h
    exact h.trans ((complete_tends t _).trans (heaterYields_tends _))
  · next t r _ e =>
    rw [e] at h
    exact h

theorem askHeater_tends (s : State) [heater : Fact (k.loads loadHeater)] : Tends k n s s.askHeater := by
  unfold State.askHeater
  refine Tends.ite (fun _ => ?_) (fun _ => (ask_asks s _ _ _ _ (by decide)).tends)
  have h : Tends k n s (s.ask loadHeater 1 (Item.startDraw s.seq.values) true).1 := (ask_asks s _ _ _ _ (by decide)).tends
  split
  · next t e =>
    rw [e] at h
    exact h.trans ((setClimate_tends t _ (by rfl) (by rfl) (by rfl)).trans (ask_asks _ _ _ _ _ (by decide)).tends)
  · next t r _ e =>
    rw [e] at h
    exact h

theorem heaterFollows_tends (s : State) [heater : Fact (k.loads loadHeater)] : Tends k n s s.heaterFollows := by
  unfold State.heaterFollows
  refine Tends.ite (fun _ => ?_) (fun _ => Tends.refl k n s)
  refine Tends.trans ?_ (updateHdem_tends _)
  split
  · split
    · exact Tends.ite (fun _ => askHeater_tends s) (fun _ => Tends.refl k n s)
    · exact Tends.ite (fun _ => Tends.ite (fun _ => Tends.refl k n s)
        (fun _ => (rerank_asks s _ _ (heaterRank_le s)).tends)) (fun _ => release_tends s _)
    · exact Tends.ite (fun _ => Tends.refl k n s) (fun _ => release_tends s _)
    · exact Tends.refl k n s
  · exact Tends.ite (fun _ => heaterRerank_tends s) (fun _ => (enterPurging_tends s).trans (heaterRerank_tends _))
  · exact Tends.ite (fun _ => heaterRerank_tends s) (fun _ => (enterPurging_tends s).trans (heaterRerank_tends _))
  · exact (setClimate_tends s _ (by rfl) (by rfl) (by rfl)).trans (heaterRerank_tends _)
  · exact Tends.refl k n s

theorem heaterStands_tends (s : State) [heater : Fact (k.loads loadHeater)] : Tends k n s s.heaterStands :=
  Tends.ite (fun _ => (ask_asks s _ _ _ _ (heaterRank_le s)).tends) (fun _ => Tends.refl k n s)

theorem heaterLost_tends (s : State) [heater : Fact (k.loads loadHeater)] : Tends k n s s.heaterLost :=
  (Tends.ite (fun _ => setClimate_tends s _ (by rfl) (by rfl) (by rfl)) (fun _ => Tends.refl k n s)).trans
    (heaterStands_tends _)

theorem heaterWaits_tends (s : State) [heater : Fact (k.loads loadHeater)] : Tends k n s s.heaterWaits :=
  Tends.ite (fun _ => heaterStands_tends s) (fun _ => Tends.refl k n s)

theorem frostService_tends (s : State) [heater : Fact (k.loads loadHeater)] : Tends k n s s.frostService := by
  unfold State.frostService
  refine Tends.ite (fun _ => ?_) (fun _ => Tends.refl k n s)
  refine (readAll_tends s fun e => e.kind == .tank && e.fresh.live).trans ?_
  exact Tends.ite (fun _ => Tends.refl k n _)
    (fun _ => (setClimate_tends _ _ (by rfl) (by rfl) (by rfl)).trans (heaterFollows_tends _))

theorem modeChanged_tends (s : State) [heater : Fact (k.loads loadHeater)] : Tends k n s s.modeChanged := by
  unfold State.modeChanged
  refine Tends.ite (fun _ => ?_) (fun _ => Tends.refl k n s)
  refine Tends.trans ?_ ((frostService_tends _).trans (heaterFollows_tends _))
  exact Tends.ite (fun _ => Tends.refl k n s) (fun _ => setClimate_tends s _ (by rfl) (by rfl) (by rfl))

theorem padFollows_tends (s : State) [pad : Fact (k.loads loadPad)] : Tends k n s s.padFollows := by
  unfold State.padFollows
  refine Tends.ite (fun _ => ?_) (fun _ => Tends.refl k n s)
  refine ((readSupply_tends s).trans
    (readAll_tends _ fun e => e.kind == .status && e.subject == 0 && e.fresh.live)).trans ?_
  generalize State.readAll _ _ = u
  refine (setClimate_tends u { u.climate with padWanted := u.padWantedNow } rfl rfl rfl).trans ?_
  refine Tends.ite (fun _ => Tends.ite (fun _ => (ask_asks _ _ _ _ _ (by decide)).tends) (fun _ => Tends.refl k n _))
    (fun _ => ?_)
  exact (setClimate_tends _ _ (by rfl) (by rfl) (by rfl)).trans (release_tends _ _)

theorem padGranted_tends (s : State) : Tends k n s s.padGranted := setClimate_tends s _ rfl rfl rfl

theorem padYields_tends (s : State) [pad : Fact (k.loads loadPad)] : Tends k n s s.padYields :=
  ((setClimate_tends s _ (by rfl) (by rfl) (by rfl)).trans (release_tends _ _)).trans
    (Tends.ite (fun _ => (ask_asks _ _ _ _ _ (by decide)).tends) (fun _ => Tends.refl k n _))

theorem enterRunning_tends (s : State) [heater : Fact (k.loads loadHeater)] : Tends k n s s.enterRunning :=
  (setClimate_tends s _ (by rfl) (by rfl) (by rfl)).trans ((lower_asks _ _ _).tends.trans (updateHdem_tends _))

section
variable (lockout : k.mons Mon.lockout)
include lockout

theorem declareLockout_tends (s : State) : Tends k n s s.declareLockout := by
  unfold State.declareLockout
  refine Tends.trans (t := (s.setClimate { s.climate with lockout := true }).setCell { s.cell with lockout := true })
    (fun o w => ?_) (monitor_tends _ _ _ lockout)
  exact ⟨(((setClimate_calm s _).trans (setLockout_calm _ true)) o).1, w, rfl, rfl, fun _ => rfl, fun _ _ => rfl, id, rfl, rfl,
    fun _ => rfl, rfl, Stands.same rfl rfl, fun _ _ => .inl rfl, Broker.followed_same _ rfl rfl rfl,
    fun _ => Marked.same rfl rfl⟩

theorem heaterFails_tends (s : State) [heater : Fact (k.loads loadHeater)] : Tends k n s s.heaterFails :=
  (setClimate_tends s _ (by rfl) (by rfl) (by rfl)).trans
    ((Tends.ite (fun _ => declareLockout_tends lockout _) (fun _ => Tends.refl k n _)).trans (enterPurging_tends _))

theorem enterStarting_tends (s : State) [heater : Fact (k.loads loadHeater)] : Tends k n s s.enterStarting :=
  ((setClimate_tends s _ (by rfl) (by rfl) (by rfl)).trans (updateHdem_tends _)).trans
    (Tends.ite (fun _ => heaterFails_tends lockout _)
      (fun _ => Tends.ite (fun _ => enterRunning_tends _) (fun _ => Tends.refl k n _)))

theorem heaterGranted_tends (s : State) [heater : Fact (k.loads loadHeater)] : Tends k n s s.heaterGranted :=
  (heaterRerank_tends s).trans (Tends.ite (fun _ => enterStarting_tends lockout _) (fun _ => Tends.refl k n _))

end

end

end Sys2Proof.Machine
end

