-- ==== Sys2Proof/Proofs/LightsTend.lean ====
section
/-! PROOFS. The same of the Light Controller and the Water Manager. -/

namespace Sys2Proof.Machine

section
variable {k : Scope} {n : Nat}

/-! ### The Light Controller -/

theorem setLight_tends (s : State) (ch : Fin 8) (l : Light) : Tends k n s (s.setLight ch l) :=
  setLights_tends_same s _ rfl rfl

theorem group_setGroup (s : State) (g j : Fin 2) (x : Group) :
    (s.setGroup g x).group j = if g = j then x else s.group j := Tab.get_set _ _ _ _

/-- A group's new request has a number of at most `n`. -/
theorem setGroup_tends (s : State) (g : Fin 2) (x : Group) (request : ∀ r, x.pending = some r → r.req ≤ n) :
    Tends k n s (s.setGroup g x) :=
  setLights_tends s _ rfl fun w j r h => by
    have e := group_setGroup s g j x
    have h' : ((s.setGroup g x).group j).pending = some r := h
    rw [e] at h'
    split at h'
    · exact request r h'
    · exact w.2 j r h'

/-- A group without a request. -/
theorem setGroup_tends_none (s : State) (g : Fin 2) (x : Group) (none : x.pending = none) : Tends k n s (s.setGroup g x) :=
  setGroup_tends s g x fun r h => by rw [none] at h; cases h

theorem amend_tends (s : State) (g : Fin 2) [own : Fact (k.loads (loadLights g))] : Tends k n s (s.amend g) := by
  unfold State.amend
  refine Tends.ite (fun _ => ?_) (fun _ => Tends.refl k n s)
  exact Tends.ite (fun _ => release_tends s _)
    (fun _ => Tends.ite (fun _ => (lower_asks s _ _).tends) (fun _ => Tends.refl k n s))

theorem takeTargets_tends (s : State) (g : Fin 2) (t : Tab 4 Nat) [own : Fact (k.loads (loadLights g))] : Tends k n s (s.takeTargets g t) :=
  (Tends.foldl _ (fun s _ => setLight_tends s _ _) _ s).trans (amend_tends _ g)

theorem finishRequest_tends (s : State) (req : Nat) (le : req ≤ n) : Tends k n s (s.finishRequest req) :=
  Tends.ite (fun _ => Tends.refl k n s) (fun _ => reviseOutcome_tends s _ _ fun _ => le)

theorem requestTaken_tends (s : State) (g : Fin 2) (r : GroupReq) (le : r.req ≤ n) [own : Fact (k.loads (loadLights g))] : Tends k n s (s.requestTaken g r) :=
  (setGroup_tends_none s g _ rfl).trans ((takeTargets_tends _ g _).trans (finishRequest_tends _ _ le))

theorem requestRefused_tends (s : State) (g : Fin 2) (r : GroupReq) (le : r.req ≤ n) [own : Fact (k.loads (loadLights g))] : Tends k n s (s.requestRefused g r) :=
  (setGroup_tends_none s g _ rfl).trans ((amend_tends _ g).trans (finishRequest_tends _ _ le))

theorem askGroup_asks (s : State) (g : Fin 2) (a : Nat) : Asks (· = loadLights g) s (s.askGroup g a).1 := by
  unfold State.askGroup
  split
  · exact raise_asks s _ _
  · exact ask_asks s _ _ _ _ (by decide)

theorem tryScales_tends (g : Fin 2) (r : GroupReq) (l : List Nat) (s : State) (req : r.req ≤ n) [own : Fact (k.loads (loadLights g))] :
    Tends k n s (tryScales g r l s) := by
  induction l generalizing r s with
  | nil => exact requestRefused_tends s g r req
  | cons x xs ih =>
    unfold tryScales
    refine Tends.ite (fun _ => requestTaken_tends s g _ req) (fun _ => ?_)
    refine Tends.trans (t := s.setGroup g { s.group g with
      pending := some { r with trial := s.scaledTargets g r.want x, scale := x } })
      (setGroup_tends s g _ fun r' h => by cases h; exact req) ?_
    have h := (askGroup_asks (s.setGroup g { s.group g with
      pending := some { r with trial := s.scaledTargets g r.want x, scale := x } }) g
      (s.covering g (s.scaledTargets g r.want x))).tends (k := k) (n := n)
    split
    · next t e =>
      rw [e] at h
      exact h.trans (ih _ t req)
    · next t e =>
      rw [e] at h
      exact h.trans (requestTaken_tends t g _ req)
    · next t _ _ _ e =>
      rw [e] at h
      exact h

theorem changeGroup_tends (s : State) (g : Fin 2) (t : Tab 4 Nat) (req : Nat) (le : req ≤ n) [own : Fact (k.loads (loadLights g))] :
    Tends k n s (s.changeGroup g t req) := by
  unfold State.changeGroup
  refine Tends.ite (fun _ => takeTargets_tends s g _) (fun _ => ?_)
  refine Tends.trans (t := s.setGroup g { s.group g with
    pending := some { want := t.map fun x => min x s.lights.ceiling, trial := t.map fun x => min x s.lights.ceiling,
                      scale := 1000, req := req } })
    (setGroup_tends s g _ fun r' h => by cases h; exact le) ?_
  have h := (askGroup_asks (s.setGroup g { s.group g with
    pending := some { want := t.map fun x => min x s.lights.ceiling, trial := t.map fun x => min x s.lights.ceiling,
                      scale := 1000, req := req } }) g
    (s.covering g (t.map fun x => min x s.lights.ceiling))).tends (k := k) (n := n)
  dsimp only
  split
  · next t e =>
    rw [e] at h
    exact h.trans (tryScales_tends g _ _ t le)
  · next t e =>
    rw [e] at h
    exact h.trans (requestTaken_tends t g _ le)
  · next t _ _ _ e =>
    rw [e] at h
    exact h

theorem withdrawAsk_asks (s : State) (g : Fin 2) : Asks (· = loadLights g) s (s.withdrawAsk g) := by
  unfold State.withdrawAsk
  split
  · exact raise_asks s _ _
  · exact release_asks s _
  · exact Asks.refl _ s

theorem abandonRequest_tends (s : State) (g : Fin 2) [own : Fact (k.loads (loadLights g))] : Tends k n s (s.abandonRequest g) :=
  Tends.ite (fun _ => (withdrawAsk_asks s g).tends.trans (setGroup_tends_none _ g _ rfl)) (fun _ => Tends.refl k n s)

theorem requestEnds_tends (s : State) (g : Fin 2) (o : Nat) : Tends k n s (s.requestEnds g o) := by
  unfold State.requestEnds
  split
  · exact Tends.refl k n s
  · next r e =>
    exact Tends.intro fun _ w => (setGroup_tends_none s g _ rfl).trans (Tends.ite
      (fun _ => finishRequest_tends _ _ (w.2 g r e)) (fun _ => reviseOutcome_tends _ _ _ fun _ => w.2 g r e))

theorem requestEndsInStorage_tends (s : State) (g : Fin 2) [own : Fact (k.loads (loadLights g))] : Tends k n s (s.requestEndsInStorage g) :=
  Tends.ite (fun _ => (withdrawAsk_asks s g).tends.trans (requestEnds_tends _ g _)) (fun _ => Tends.refl k n s)

theorem courtesyChange_tends (s : State) (ch : Fin 8) (d : CourtesyDue)
    [own : Fact (k.loads (loadLights (groupOf ch)))] : Tends k n s (s.courtesyChange ch d) := by
  unfold State.courtesyChange
  refine Tends.ite (fun _ => setLights_tends_same s _ (by rfl) (by rfl))
    (fun _ => (setLights_tends_same s { s.lights with due := .none } rfl rfl).trans ?_)
  cases d with
  | none => exact Tends.refl k n _
  | light => exact Tends.ite (fun _ => changeGroup_tends _ _ _ _ (Nat.zero_le n)) (fun _ => Tends.refl k n _)
  | restore => exact changeGroup_tends _ _ _ _ (Nat.zero_le n)

theorem courtesyResumes_tends (s : State) [lit : ∀ g, Fact (k.loads (loadLights g))] : Tends k n s s.courtesyResumes := by
  unfold State.courtesyResumes
  split
  · exact Tends.refl k n s
  · exact Tends.ite (fun _ => Tends.refl k n s) (fun _ => courtesyChange_tends s _ _)

theorem courtesyEnds_tends (s : State) : Tends k n s s.courtesyEnds := setLights_tends_same s _ rfl rfl

theorem courtesyFollows_tends (s : State) (lost : Option Nat) [lit : ∀ g, Fact (k.loads (loadLights g))] : Tends k n s (s.courtesyFollows lost) := by
  unfold State.courtesyFollows
  refine Tends.ite (fun _ => Tends.refl k n s) (fun _ => ?_)
  split
  · exact Tends.refl k n s
  · refine (readAll_tends s fun e => e.kind == .motion).trans ?_
    generalize s.readAll _ = u
    dsimp only
    split
    · exact (setLights_tends_same u _ (by rfl) (by rfl)).trans
        (Tends.ite (fun _ => Tends.refl k n _) (fun _ => Tends.ite (fun _ => setLights_tends_same _ _ (by rfl) (by rfl))
          (fun _ => (setLights_tends_same _ _ (by rfl) (by rfl)).trans (courtesyChange_tends _ _ _))))
    · exact (setLights_tends_same u _ (by rfl) (by rfl)).trans
        (Tends.ite (fun _ => setLights_tends_same _ _ (by rfl) (by rfl)) (fun _ => Tends.refl k n _))

theorem ceilingFollows_tends (s : State) [lit : ∀ g, Fact (k.loads (loadLights g))] : Tends k n s s.ceilingFollows :=
  (setLights_tends_same s _ (by rfl) (by rfl)).trans ((amend_tends _ 0).trans (amend_tends _ 1))

theorem lightsGranted_tends (s : State) (g : Fin 2) [lit : ∀ g, Fact (k.loads (loadLights g))] : Tends k n s (s.lightsGranted g) := by
  unfold State.lightsGranted
  split
  · next r e => exact Tends.intro fun _ w => (requestTaken_tends s g _ (w.2 g r e)).trans (courtesyResumes_tends _)
  · exact Tends.refl k n s

theorem lightsLost_tends (s : State) (g : Fin 2) [lit : ∀ g, Fact (k.loads (loadLights g))] : Tends k n s (s.lightsLost g) := by
  unfold State.lightsLost
  split
  · next r e => exact Tends.intro fun _ w => (tryScales_tends g r _ s (w.2 g r e)).trans (courtesyResumes_tends _)
  · exact Tends.refl k n s

theorem lightsYield_tends (s : State) (g : Fin 2) : Tends k n s (s.lightsYield g) := requestEnds_tends s g _

theorem requestGroup_tends (s : State) (g : Fin 2) (t : Tab 4 Nat) (req : Nat) (le : req ≤ n) [own : Fact (k.loads (loadLights g))] :
    Tends k n s (s.requestGroup g t req) :=
  (abandonRequest_tends s g).trans (changeGroup_tends _ g t req le)

theorem fadeStepped_tends (s : State) (ch : Fin 8) [lit : ∀ g, Fact (k.loads (loadLights g))] : Tends k n s (s.fadeStepped ch) :=
  (setLight_tends s ch _).trans (amend_tends _ _)

theorem courtesyReturns_tends (s : State) [lit : ∀ g, Fact (k.loads (loadLights g))] : Tends k n s s.courtesyReturns := by
  unfold State.courtesyReturns
  refine (setLights_tends_same s { s.lights with courtesy := false, countdown := none } rfl rfl).trans ?_
  dsimp only
  split
  · exact courtesyChange_tends _ _ _
  · exact Tends.refl k n _

/-! ### The Water Manager -/

theorem pumpFollows_tends (s : State) : Tends k n s s.pumpFollows := setWater_tends s _

theorem pumpReleased_tends (s : State) [pump : Fact (k.loads loadPump)] : Tends k n s s.pumpReleased := (setWater_tends s _).trans (release_tends _ _)

theorem demandFollows_tends (s : State) [pump : Fact (k.loads loadPump)] : Tends k n s s.demandFollows := by
  unfold State.demandFollows
  refine Tends.ite (fun _ => ?_) (fun _ => Tends.refl k n s)
  refine Tends.trans ?_ (pumpFollows_tends _)
  refine Tends.ite (fun _ => Tends.refl k n s) (fun _ => Tends.ite (fun _ => ?_) (fun _ => ?_))
  · exact Tends.ite (fun _ => (ask_asks s _ _ _ _ (by decide)).tends) (fun _ => Tends.refl k n s)
  · exact Tends.ite (fun _ => Tends.refl k n s) (fun _ => pumpReleased_tends s)

theorem setDemand_tends (s : State) (d : Bool) [heater : Fact (k.loads loadHeater)] : Tends k n s (s.setDemand d) :=
  Tends.ite (fun _ => Tends.refl k n s) (fun _ => (setWater_tends s _).trans (frostService_tends _))

theorem timing_tends (s : State) (ms : Nat) : Tends k n s (s.timing ms) := setWater_tends s _

theorem enterCirculating_tends (s : State) [heater : Fact (k.loads loadHeater)] : Tends k n s s.enterCirculating :=
  (setWater_tends s _).trans ((setDemand_tends _ _).trans (pumpFollows_tends _))

theorem disposeClaim_tends (s : State) [pump : Fact (k.loads loadPump)] : Tends k n s s.disposeClaim := by
  unfold State.disposeClaim
  refine Tends.ite (fun _ => ?_) (fun _ => (pumpReleased_tends s).trans (demandFollows_tends _))
  have h : Tends k n s (s.rerank loadPump 5).1 := (rerank_asks s _ _ (by decide)).tends
  split
  · next t e =>
    rw [e] at h
    exact h.trans ((pumpReleased_tends t).trans (demandFollows_tends _))
  · next t _ _ e =>
    rw [e] at h
    exact h.trans (demandFollows_tends t)

theorem cycleCompleted_tends (s : State) [pump : Fact (k.loads loadPump)] [heater : Fact (k.loads loadHeater)] : Tends k n s s.cycleCompleted :=
  (setDemand_tends s _).trans ((setWater_tends _ _).trans ((timing_tends _ _).trans (disposeClaim_tends _)))

theorem cyclePostponed_tends (s : State) [pump : Fact (k.loads loadPump)] [heater : Fact (k.loads loadHeater)] : Tends k n s s.cyclePostponed :=
  (setDemand_tends s _).trans ((setWater_tends _ _).trans ((timing_tends _ _).trans (demandFollows_tends _)))

theorem cyclingEnds_tends (s : State) [pump : Fact (k.loads loadPump)] [heater : Fact (k.loads loadHeater)] : Tends k n s s.cyclingEnds :=
  (setDemand_tends s _).trans ((setWater_tends _ _).trans
    (Tends.ite (fun _ => disposeClaim_tends _) (fun _ => Tends.refl k n _)))

theorem drain_tends (s : State) [pump : Fact (k.loads loadPump)] [heater : Fact (k.loads loadHeater)] : Tends k n s s.drain :=
  (setDemand_tends s _).trans ((setWater_tends _ _).trans
    (Tends.ite (fun _ => (pumpReleased_tends _).trans (demandFollows_tends _)) (fun _ => demandFollows_tends _)))

theorem valveFollows_tends (s : State) [pump : Fact (k.loads loadPump)] [heater : Fact (k.loads loadHeater)] : Tends k n s s.valveFollows := by
  unfold State.valveFollows
  refine Tends.ite (fun _ => Tends.ite (fun _ => Tends.ite (fun _ => ?_) (fun _ => demandFollows_tends s))
    (fun _ => Tends.ite (fun _ => demandFollows_tends s) (fun _ => drain_tends s))) (fun _ => demandFollows_tends s)
  exact (timing_tends s _).trans (demandFollows_tends _)

theorem pumpGranted_tends (s : State) [pump : Fact (k.loads loadPump)] [heater : Fact (k.loads loadHeater)] : Tends k n s s.pumpGranted :=
  Tends.ite (fun _ => enterCirculating_tends s) (fun _ => pumpFollows_tends s)

theorem pumpLost_tends (s : State) [pump : Fact (k.loads loadPump)] [heater : Fact (k.loads loadHeater)] : Tends k n s s.pumpLost :=
  Tends.ite (fun _ => cyclePostponed_tends s) (fun _ => Tends.refl k n s)

theorem pumpYields_tends (s : State) [pump : Fact (k.loads loadPump)] [heater : Fact (k.loads loadHeater)] : Tends k n s s.pumpYields :=
  (pumpReleased_tends s).trans (Tends.ite (fun _ => cyclePostponed_tends _) (fun _ => demandFollows_tends _))

theorem readTank_tends (s : State) (t : Fin 3) (raw : Nat) (temp : Int) : Tends k n s (s.readTank t raw temp) :=
  setWater_tends s _

theorem tankMonitor_tends (s : State) (t : Fin 3) (turns : k.mons (Mon.tank t)) : Tends k n s (s.tankMonitor t) :=
  (setWater_tends s _).trans (Tends.ite (fun _ => monitor_tends _ _ _ turns) (fun _ => Tends.refl k n _))

theorem pumpReads_tends (s : State) [pump : Fact (k.loads loadPump)] [heater : Fact (k.loads loadHeater)] : Tends k n s s.pumpReads := by
  unfold State.pumpReads
  refine Tends.ite (fun _ => demandFollows_tends s) (fun _ => ?_)
  split
  · exact (release_tends s _).trans ((timing_tends _ _).trans (demandFollows_tends _))
  · exact (setWater_tends s _).trans (cycleCompleted_tends _)
  · exact demandFollows_tends s

section
variable (valve : k.mons Mon.valveFault)
include valve

theorem valveTiming_tends (s : State) : Tends k n s s.valveTiming :=
  Tends.ite (fun _ => (setWater_tends s _).trans
      (Tends.ite (fun _ => (setWater_tends _ _).trans (monitor_tends _ _ _ valve)) (fun _ => Tends.refl k n _)))
    (fun _ => setWater_tends s _)

theorem openDump_tends (s : State) [pump : Fact (k.loads loadPump)] [heater : Fact (k.loads loadHeater)] : Tends k n s s.openDump :=
  (setWater_tends s _).trans ((valveTiming_tends valve _).trans (drain_tends _))

theorem takeDue_tends (s : State) [pump : Fact (k.loads loadPump)] [heater : Fact (k.loads loadHeater)] : Tends k n s s.takeDue := by
  unfold State.takeDue
  refine Tends.ite (fun _ => timing_tends s _)
    (fun _ => Tends.ite (fun _ => Tends.ite (fun _ => ?_) (fun _ => ?_)) (fun _ => ?_))
  · exact (rerank_asks s _ _ (by decide)).tends.trans (enterCirculating_tends _)
  · refine (setWater_tends s { s.water with cycle := .asking, dueTimer := none, dueOnRun := false }).trans ?_
    generalize s.setWater { s.water with cycle := .asking, dueTimer := none, dueOnRun := false } = u
    have h : Tends k n u (u.ask loadPump 1 (Item.pumpDraw s.seq.values) true).1 := (ask_asks u _ _ _ _ (by decide)).tends
    split
    · next t e =>
      rw [e] at h
      exact h.trans (cyclePostponed_tends t)
    · next t _ _ e =>
      rw [e] at h
      exact h
  · have h : Tends k n s (s.force loadPump (Item.pumpDraw s.seq.values)).1 := (force_asks s _ _).tends
    split
    · next t e =>
      rw [e] at h
      exact h.trans (enterCirculating_tends t)
    · next t _ _ e =>
      rw [e] at h
      exact h.trans (openDump_tends valve t)

theorem cyclingBegins_tends (s : State) [pump : Fact (k.loads loadPump)] [heater : Fact (k.loads loadHeater)] : Tends k n s s.cyclingBegins :=
  Tends.ite (fun _ => drain_tends s)
    (fun _ => Tends.ite (fun _ => (timing_tends s _).trans (takeDue_tends valve _)) (fun _ => setWater_tends s _))

theorem guardReads_tends (s : State) (guard : k.mons Mon.frostGuard) [pump : Fact (k.loads loadPump)] [heater : Fact (k.loads loadHeater)] : Tends k n s s.guardReads :=
  Tends.ite
    (fun _ => (setWater_tends s _).trans
      (Tends.ite (fun _ => (monitor_tends _ _ _ guard).trans (cyclingEnds_tends _)) (fun _ => Tends.refl k n _)))
    (fun _ => (setWater_tends s _).trans
      (Tends.ite (fun _ => (monitor_tends _ _ _ guard).trans (cyclingBegins_tends valve _)) (fun _ => Tends.refl k n _)))

theorem dumpReads_tends (s : State) [pump : Fact (k.loads loadPump)] [heater : Fact (k.loads loadHeater)] : Tends k n s s.dumpReads :=
  Tends.ite
    (fun _ => (readAll_tends s _).trans ((setWater_tends _ _).trans
      (Tends.ite (fun _ => openDump_tends valve _) (fun _ => Tends.refl k n _))))
    (fun _ => Tends.refl k n s)

theorem waterReads_tends (s : State) (a b c : Nat) (x y z : Int) (tanks : ∀ t, k.mons (Mon.tank t)) (guard : k.mons Mon.frostGuard) [pump : Fact (k.loads loadPump)] [heater : Fact (k.loads loadHeater)] :
    Tends k n s (s.waterReads a b c x y z) :=
  ((readTank_tends s _ _ _).trans ((readTank_tends _ _ _ _).trans (readTank_tends _ _ _ _))).trans
    ((((tankMonitor_tends _ _ (tanks 0)).trans (tankMonitor_tends _ _ (tanks 1))).trans (tankMonitor_tends _ _ (tanks 2))).trans
      ((guardReads_tends valve _ guard).trans ((dumpReads_tends valve _).trans (pumpReads_tends _))))

theorem waterEntersRun_tends (s : State) [pump : Fact (k.loads loadPump)] [heater : Fact (k.loads loadHeater)] : Tends k n s s.waterEntersRun := by
  unfold State.waterEntersRun
  refine Tends.ite (fun _ => ?_) (fun _ => Tends.refl k n s)
  exact (setWater_tends s _).trans
    ((Tends.ite (fun _ => (timing_tends _ _).trans (takeDue_tends valve _)) (fun _ => Tends.refl k n _)).trans
      (demandFollows_tends _))

end

end

end Sys2Proof.Machine
end

