-- ==== Sys2Proof/Proofs/MotionTends.lean ====
section
/-! PROOFS. The same of the Motion Controller, and of all that follows a report, a yield or a change of the Peer View. -/

namespace Sys2Proof.Machine

section
variable {k : Scope} {n : Nat}

/-! ### The Motion Controller -/

theorem stepSeen_tends (s : State) (ch : Fin 2) [lit : ∀ g, Fact (k.loads (loadLights g))] : Tends k n s (s.stepSeen ch) :=
  Tends.ite (fun _ => courtesyFollows_tends s none) (fun _ => Tends.refl k n s)

theorem brake_tends (s : State) (ch : Fin 2) (f : Move) (req : Nat) (keep : Bool) (le : s.waitWithin n → req ≤ n) [own : Fact (k.loads (loadMotor ch))] [lit : ∀ g, Fact (k.loads (loadLights g))] :
    Tends k n s (s.brake ch f req keep) :=
  (modChan_tends s ch _ le).trans
    ((Tends.ite (fun _ => Tends.refl k n _) (fun _ => release_tends _ _)).trans (stepSeen_tends _ ch))

theorem settle_tends (s : State) (ch : Fin 2) (st : MState) (p : Move) (req : Nat) (le : s.waitWithin n → req ≤ n) [lit : ∀ g, Fact (k.loads (loadLights g))] :
    Tends k n s (s.settle ch st p req) := (modChan_tends s ch _ le).trans (stepSeen_tends _ ch)

theorem dropPending_tends (s : State) (ch : Fin 2) : Tends k n s (s.dropPending ch) :=
  modChan_tends s ch _ fun _ => Nat.zero_le n

theorem endPending_tends (s : State) (ch : Fin 2) (o : Nat) [own : Fact (k.loads (loadMotor ch))] : Tends k n s (s.endPending ch o) :=
  Tends.intro fun _ w =>
    (dropPending_tends s ch).trans ((release_tends _ _).trans (reviseOutcome_tends _ _ _ fun _ => w.1 ch))

theorem claimProtective_asks (s : State) (ch : Fin 2) : Asks (· = loadMotor ch) s (s.claimProtective ch) :=
  Asks.ite (fun _ => rerank_asks s _ _ (by decide)) (fun _ => ask_asks s _ _ _ _ (by decide))

theorem claimRequested_asks (s : State) (ch : Fin 2) : Asks (· = loadMotor ch) s (s.claimRequested ch) :=
  Asks.ite (fun _ => ask_asks s _ _ _ _ (by decide)) (fun _ => Asks.refl _ s)

theorem rerank0_tends (s : State) (id : Fin 7) [own : Fact (k.loads id)] : Tends k n s (s.rerank id 0).1 := (rerank_asks s id 0 (by decide)).tends

theorem backoffRetracts_tends (s : State) (ch : Fin 2) (p : Bool) [lit : ∀ g, Fact (k.loads (loadLights g))] : Tends k n s (s.backoffRetracts ch p) :=
  (modChan_tends_same s ch _ (by rfl)).trans (stepSeen_tends _ ch)

theorem backoffEnds_tends (s : State) (ch : Fin 2) [own : Fact (k.loads (loadMotor ch))] [lit : ∀ g, Fact (k.loads (loadLights g))] : Tends k n s (s.backoffEnds ch) :=
  brake_tends s ch _ _ _ fun w => by
    split
    · exact w.1 ch
    · exact Nat.zero_le n

theorem currentFollows_tends (s : State) (ch : Fin 2) : Tends k n s (s.currentFollows ch) :=
  Tends.ite (fun _ => modChan_tends_same s ch _ (by rfl)) (fun _ => Tends.refl k n s)

theorem extendMeetsNeed_tends (s : State) (ch : Fin 2) [own : Fact (k.loads (loadMotor ch))] : Tends k n s (s.extendMeetsNeed ch) :=
  Tends.ite (fun _ => endPending_tends s ch _) (fun _ => Tends.refl k n s)

theorem replacedByNeed_tends (s : State) (ch : Fin 2) : Tends k n s (s.replacedByNeed ch) :=
  reviseOutcome_tends s _ _ fun w => w.1 ch

theorem needEnds_tends (s : State) (ch : Fin 2) [own : Fact (k.loads (loadMotor ch))] : Tends k n s (s.needEnds ch) :=
  Tends.ite (fun _ => Tends.refl k n s) (fun _ =>
    (Tends.ite (fun _ => (dropPending_tends s ch).trans (release_tends _ _)) (fun _ => Tends.refl k n s)).trans
      (Tends.ite (fun _ => (modChan_tends _ ch _ fun _ => Nat.zero_le n).trans (release_tends _ _))
        (fun _ => Tends.refl k n _)))

theorem holdFollows_tends (s : State) (ch : Fin 2) [own : Fact (k.loads (loadMotor ch))] [lit : ∀ g, Fact (k.loads (loadLights g))] : Tends k n s (s.holdFollows ch) := by
  unfold State.holdFollows
  refine Tends.ite (fun _ => Tends.ite (fun _ => ?_) (fun _ => Tends.refl k n s)) (fun _ => Tends.ite (fun _ => ?_)
    (fun _ => Tends.refl k n s))
  · exact ((reviseOutcome_tends s _ _ fun w => w.1 ch).trans (brake_tends _ ch _ _ _ fun _ => Nat.zero_le n)).trans
      (Tends.ite (fun _ => modChan_tends_same _ ch _ (by rfl)) (fun _ => Tends.refl k n _))
  · split
    · exact endPending_tends s ch _
    · exact release_tends s _
    · exact Tends.refl k n s

theorem motionYields_tends (s : State) (ch : Fin 2) [own : Fact (k.loads (loadMotor ch))] [lit : ∀ g, Fact (k.loads (loadLights g))] : Tends k n s (s.motionYields ch) := by
  unfold State.motionYields
  dsimp only
  split
  · exact brake_tends s ch _ _ _ fun _ => Nat.zero_le n
  · exact complete_tends s _
  · exact complete_tends s _
  · split
    · exact complete_tends s _
    · exact complete_tends s _
    · exact release_tends s _
  · exact release_tends s _

theorem extendEndsInStorage_tends (s : State) (ch : Fin 2) [own : Fact (k.loads (loadMotor ch))] : Tends k n s (s.extendEndsInStorage ch) := by
  unfold State.extendEndsInStorage
  refine Tends.ite (fun _ => Tends.ite (fun _ => endPending_tends s ch _) (fun _ => ?_)) (fun _ => ?_)
  · exact Tends.intro fun _ w => (dropPending_tends s ch).trans (reviseOutcome_tends _ _ _ fun _ => w.1 ch)
  · exact Tends.ite (fun _ => Tends.intro fun _ w => (modChan_tends s ch _ fun _ => Nat.zero_le n).trans
      ((release_tends _ _).trans (reviseOutcome_tends _ _ _ fun _ => w.1 ch))) (fun _ => Tends.refl k n s)

theorem calibrationBegins_tends (s : State) (ch : Fin 2) : Tends k n s (s.calibrationBegins ch) :=
  modChan_tends_same s ch _ rfl

section
variable {ch : Fin 2} (travel : k.mons (Mon.travelFault ch)) (stall : k.mons (Mon.stall ch))

theorem clearStall_tends (stall : k.mons (Mon.stall ch)) (s : State) : Tends k n s (s.clearStall ch) :=
  Tends.ite (fun _ => (modChan_tends_same s ch _ (by rfl)).trans (monitor_tends _ _ _ stall)) (fun _ => Tends.refl k n s)

theorem clearTravelFault_tends (travel : k.mons (Mon.travelFault ch)) (s : State) : Tends k n s (s.clearTravelFault ch) :=
  Tends.ite (fun _ => (modChan_tends_same s ch _ (by rfl)).trans (monitor_tends _ _ _ travel)) (fun _ => Tends.refl k n s)

theorem declareTravelFault_tends (travel : k.mons (Mon.travelFault ch)) (s : State) : Tends k n s (s.declareTravelFault ch) :=
  Tends.ite (fun _ => Tends.refl k n s) (fun _ => (modChan_tends_same s ch _ (by rfl)).trans (monitor_tends _ _ _ travel))

theorem travelExpires_tends (travel : k.mons (Mon.travelFault ch)) (s : State) [own : Fact (k.loads (loadMotor ch))] [lit : ∀ g, Fact (k.loads (loadLights g))] : Tends k n s (s.travelExpires ch) :=
  (brake_tends s ch _ _ _ fun _ => Nat.zero_le n).trans (declareTravelFault_tends travel _)

include travel stall

theorem arriveAt_tends (s : State) [own : Fact (k.loads (loadMotor ch))] [lit : ∀ g, Fact (k.loads (loadLights g))] : Tends k n s (s.arriveAt ch) := by
  refine ((brake_tends s ch _ _ _ fun w => ?_).trans (clearStall_tends stall _)).trans
    (Tends.ite (fun _ => Tends.refl k n _) (fun _ => clearTravelFault_tends travel _))
  split
  · exact w.1 ch
  · exact Nat.zero_le n

theorem begun_tends (s : State) [own : Fact (k.loads (loadMotor ch))] [lit : ∀ g, Fact (k.loads (loadLights g))] : Tends k n s (s.begun ch) :=
  (stepSeen_tends s ch).trans (Tends.ite (fun _ => arriveAt_tends travel stall _) (fun _ => Tends.refl k n _))

theorem startMove_tends (s : State) (m : Move) [own : Fact (k.loads (loadMotor ch))] [lit : ∀ g, Fact (k.loads (loadLights g))] : Tends k n s (s.startMove ch m) :=
  Tends.intro fun _ w => (modChan_tends s ch _ fun _ => Nat.zero_le n).trans
    ((setDue_tends _ _ fun _ => Marked.motionDue _ ch).trans ((reviseOutcome_tends _ _ _ fun _ => w.1 ch).trans (begun_tends travel stall _)))

theorem startBackoff_tends (s : State) [own : Fact (k.loads (loadMotor ch))] [lit : ∀ g, Fact (k.loads (loadLights g))] : Tends k n s (s.startBackoff ch) :=
  (modChan_tends s ch _ fun _ => Nat.zero_le n).trans (begun_tends travel stall _)

theorem tryStart_tends (s : State) [own : Fact (k.loads (loadMotor ch))] [lit : ∀ g, Fact (k.loads (loadLights g))] : Tends k n s (s.tryStart ch) := by
  unfold State.tryStart
  refine Tends.ite (fun _ => Tends.refl k n s) (fun _ => ?_)
  split
  · split
    · exact startMove_tends travel stall s .extend
    · exact endPending_tends s ch _
  · exact Tends.ite (fun _ => release_tends s _) (fun _ => startMove_tends travel stall s .retract)
  · exact Tends.ite (fun _ => release_tends s _) (fun _ => startMove_tends travel stall s .protective)
  · exact Tends.refl k n s

theorem actOnPending_tends (s : State) [own : Fact (k.loads (loadMotor ch))] [lit : ∀ g, Fact (k.loads (loadLights g))] : Tends k n s (s.actOnPending ch) := by
  unfold State.actOnPending
  refine Tends.ite (fun _ => Tends.refl k n s) (fun _ => ?_)
  split
  · exact Tends.ite (fun _ => Tends.refl k n s)
      (fun _ => (claimProtective_asks s ch).tends.trans (tryStart_tends travel stall _))
  · exact Tends.ite (fun _ => Tends.refl k n s)
      (fun _ => (claimRequested_asks s ch).tends.trans (tryStart_tends travel stall _))
  · exact (claimRequested_asks s ch).tends.trans (tryStart_tends travel stall _)
  · exact Tends.refl k n s

theorem takePending_tends (s : State) (m : Move) (req : Nat) (le : req ≤ n) [own : Fact (k.loads (loadMotor ch))] [lit : ∀ g, Fact (k.loads (loadLights g))] : Tends k n s (s.takePending ch m req) :=
  (modChan_tends s ch _ fun _ => le).trans (actOnPending_tends travel stall _)

theorem calibrated_tends (s : State) [own : Fact (k.loads (loadMotor ch))] [lit : ∀ g, Fact (k.loads (loadLights g))] : Tends k n s (s.calibrated ch) :=
  (modChan_tends_same s ch _ (by rfl)).trans (actOnPending_tends travel stall _)

theorem pendProtective_tends (s : State) [own : Fact (k.loads (loadMotor ch))] [lit : ∀ g, Fact (k.loads (loadLights g))] : Tends k n s (s.pendProtective ch) :=
  ((replacedByNeed_tends s ch).trans (Tends.ite (fun _ => release_tends _ _) (fun _ => Tends.refl k n _))).trans
    (takePending_tends travel stall _ _ _ (Nat.zero_le n))

theorem needDue_tends (s : State) [own : Fact (k.loads (loadMotor ch))] [lit : ∀ g, Fact (k.loads (loadLights g))] : Tends k n s (s.needDue ch) := by
  unfold State.needDue
  refine Tends.ite (fun _ => Tends.refl k n s) (fun _ => ?_)
  dsimp only
  split
  · exact extendMeetsNeed_tends s ch
  · exact (brake_tends s ch _ _ _ fun _ => Nat.zero_le n).trans (rerank0_tends _ _)
  · exact (replacedByNeed_tends s ch).trans ((modChan_tends _ ch _ fun _ => Nat.zero_le n).trans (rerank0_tends _ _))
  · exact (replacedByNeed_tends s ch).trans ((modChan_tends _ ch _ fun _ => Nat.zero_le n).trans
      ((rerank0_tends _ _).trans (backoffRetracts_tends _ ch _)))
  · split
    · exact Tends.refl k n s
    · exact rerank0_tends s _
    · exact rerank0_tends s _
    · exact (replacedByNeed_tends s ch).trans ((modChan_tends _ ch _ fun _ => Nat.zero_le n).trans (rerank0_tends _ _))
  · exact Tends.ite (fun _ => extendMeetsNeed_tends s ch) (fun _ => Tends.ite (fun _ => Tends.refl k n s)
      (fun _ => pendProtective_tends travel stall s))

theorem dwellEnds_tends (s : State) [own : Fact (k.loads (loadMotor ch))] [lit : ∀ g, Fact (k.loads (loadLights g))] : Tends k n s (s.dwellEnds ch) := by
  refine Tends.intro fun _ w => ?_
  have own : (s.chan ch).req ≤ n := w.1 ch
  unfold State.dwellEnds
  dsimp only
  refine (modChan_tends_same s ch (fun c => { c with bridge := .off, dwell := none }) rfl).trans ?_
  generalize s.modChan ch (fun c => { c with bridge := .off, dwell := none }) = u
  split
  · exact (settle_tends u ch _ _ _ fun _ => own).trans (actOnPending_tends travel stall _)
  · exact settle_tends u ch _ _ _ fun _ => Nat.zero_le n
  · refine Tends.ite (fun _ => ?_) (fun _ => Tends.ite (fun _ => ?_) (fun _ => startBackoff_tends travel stall u))
    · exact (release_tends u _).trans (settle_tends _ ch _ _ _ fun _ => Nat.zero_le n)
    · exact (claimProtective_asks u ch).tends.trans (startMove_tends travel stall _ _)
  · refine Tends.ite (fun _ => ?_) (fun _ => ?_)
    · split
      · exact startMove_tends travel stall u _
      · exact (release_tends u _).trans ((settle_tends _ ch _ _ _ fun _ => Nat.zero_le n).trans (reviseOutcome_tends _ _ _ fun _ => own))
    · exact (settle_tends u ch _ _ _ fun _ => own).trans (claimRequested_asks _ ch).tends
  · refine Tends.ite (fun _ => ?_) (fun _ => Tends.ite (fun _ => startMove_tends travel stall u _) (fun _ => ?_))
    · exact (release_tends u _).trans (settle_tends _ ch _ _ _ fun _ => own)
    · exact (settle_tends u ch _ _ _ fun _ => own).trans (claimRequested_asks _ ch).tends
  · refine Tends.ite (fun _ => ?_) (fun _ => ?_)
    · exact (release_tends u _).trans (settle_tends _ ch _ _ _ fun _ => own)
    · exact (claimProtective_asks u ch).tends.trans (startMove_tends travel stall _ _)

theorem stalls_tends (s : State) [own : Fact (k.loads (loadMotor ch))] [lit : ∀ g, Fact (k.loads (loadLights g))] : Tends k n s (s.stalls ch) :=
  (Tends.ite (fun _ => Tends.refl k n s)
    (fun _ => (modChan_tends_same s ch _ (by rfl)).trans (monitor_tends _ _ _ stall))).trans
    (Tends.ite (fun _ => brake_tends _ ch _ _ _ fun _ => Nat.zero_le n)
      (fun _ => (brake_tends _ ch _ _ _ fun _ => Nat.zero_le n).trans (declareTravelFault_tends travel _)))

theorem stopsFollow_tends (s : State) [own : Fact (k.loads (loadMotor ch))] [lit : ∀ g, Fact (k.loads (loadLights g))] : Tends k n s (s.stopsFollow ch) := by
  unfold State.stopsFollow
  refine Tends.ite (fun _ => Tends.ite (fun _ => arriveAt_tends travel stall s) (fun _ => Tends.refl k n s)) (fun _ => ?_)
  refine Tends.ite (fun _ => Tends.ite (fun _ => Tends.refl k n s) (fun _ => ?_)) (fun _ => Tends.refl k n s)
  exact ((modChan_tends_same s ch _ (by rfl)).trans (stepSeen_tends _ ch)).trans
    (Tends.ite (fun _ => needDue_tends travel stall _) (fun _ => Tends.refl k n _))

end

/-- The monitors that the owners turn as they hear from the Broker and the Peer View: Lockout and those of the channels. -/
def heard (n : Fin 19) : Prop := 11 ≤ n.val ∧ n.val ≤ 15

theorem setWind_tends (s : State) (x : Motion) (chans : x.chans = s.motion.chans) : Tends k n s (s.setMotion x) :=
  setMotion_tends s x fun w ch => by
    rw [chans]
    exact w.1 ch

section
variable (travel : ∀ ch, k.mons (Mon.travelFault ch)) (stall : ∀ ch, k.mons (Mon.stall ch))
include travel stall

theorem motionSeesDrive_tends (s : State) [motors : ∀ ch, Fact (k.loads (loadMotor ch))] [lit : ∀ g, Fact (k.loads (loadLights g))] : Tends k n s s.motionSeesDrive :=
  Tends.ite (fun _ => (needDue_tends (travel 0) (stall 0) s).trans (needDue_tends (travel 1) (stall 1) _))
    (fun _ => (needEnds_tends s 0).trans (needEnds_tends _ 1))

theorem motionEntersRun_tends (s : State) [motors : ∀ ch, Fact (k.loads (loadMotor ch))] [lit : ∀ g, Fact (k.loads (loadLights g))] : Tends k n s s.motionEntersRun :=
  (Tends.ite (fun _ => needDue_tends (travel 0) (stall 0) s) (fun _ => Tends.refl k n s)).trans
    (Tends.ite (fun _ => needDue_tends (travel 1) (stall 1) _) (fun _ => Tends.refl k n _))

theorem windLockoutBegins_tends (wind : k.mons Mon.windLockout) (s : State) [motors : ∀ ch, Fact (k.loads (loadMotor ch))] [lit : ∀ g, Fact (k.loads (loadLights g))] : Tends k n s s.windLockoutBegins :=
  (setWind_tends s _ (by rfl)).trans
    ((Tends.ite (fun _ => Tends.refl k n _) (fun _ => monitor_tends _ _ _ wind)).trans
      (needDue_tends (travel 1) (stall 1) _))

theorem windWindowEnds_tends (wind : k.mons Mon.windLockout) (s : State) [motors : ∀ ch, Fact (k.loads (loadMotor ch))] [lit : ∀ g, Fact (k.loads (loadLights g))] : Tends k n s s.windWindowEnds :=
  (setWind_tends s _ (by rfl)).trans
    (Tends.ite (fun _ => windLockoutBegins_tends travel stall wind _) (fun _ => Tends.refl k n _))

end

theorem windLockoutEnds_tends (wind : k.mons Mon.windLockout) (s : State) [motors : ∀ ch, Fact (k.loads (loadMotor ch))] : Tends k n s s.windLockoutEnds :=
  (setWind_tends s _ (by rfl)).trans ((monitor_tends _ _ _ wind).trans (needEnds_tends _ 1))

/-! ### Reports, yields and what follows a change (R48 to R52, R61) -/

section
variable (turns : ∀ n, heard n → k.mons n) [all : ∀ j, Fact (k.loads j)]
include turns

omit all in
theorem heard_lockout : k.mons Mon.lockout := turns _ ⟨by decide, by decide⟩

omit all in
theorem heard_travel (ch : Fin 2) : k.mons (Mon.travelFault ch) := turns _ (by
  match ch with
  | 0 => exact ⟨by decide, by decide⟩
  | 1 => exact ⟨by decide, by decide⟩)

omit all in
theorem heard_stall (ch : Fin 2) : k.mons (Mon.stall ch) := turns _ (by
  match ch with
  | 0 => exact ⟨by decide, by decide⟩
  | 1 => exact ⟨by decide, by decide⟩)

/-- The loads whose claims the owner of `id` may ask or lower as it hears from the Broker: its own, the heater's with the
frost-demand flag, and the lights' with the step. -/
def ownersReach (id : Fin 7) : List (Fin 7) :=
  match id with
  | 0 => [0]
  | 1 => [1]
  | 2 => [0, 2]
  | 3 => [3, 5, 6]
  | 4 => [4, 5, 6]
  | 5 | 6 => [5, 6]

omit turns all in
theorem reach_self (id : Fin 7) : id ∈ ownersReach id := by decide +revert

omit turns all in
theorem reach_lights (within : ∀ j ∈ [5, 6], k.loads j) (g : Fin 2) : Fact (k.loads (loadLights g)) :=
  ⟨within _ (by decide +revert)⟩

omit turns all in
theorem reach_lights_of_motor (id : Fin 7) (within : ∀ j ∈ [id, 5, 6], k.loads j) (g : Fin 2) :
    Fact (k.loads (loadLights g)) := reach_lights (fun j h => within j (List.mem_cons_of_mem _ h)) g

omit all in
theorem report_tends (s : State) (id : Fin 7) (r : Reply) (within : ∀ j ∈ ownersReach id, k.loads j) :
    Tends k n s (s.report id r) := by
  have own : Fact (k.loads id) := ⟨within id (reach_self id)⟩
  unfold State.report
  split
  · split
    · exact heaterGranted_tends (heard_lockout turns) s (heater := own)
    · exact padGranted_tends s
    · have : Fact (k.loads loadHeater) := ⟨within 0 (by decide)⟩
      exact pumpGranted_tends s (pump := own)
    · have := reach_lights_of_motor 3 within
      exact tryStart_tends (heard_travel turns 0) (heard_stall turns 0) s (own := own)
    · have := reach_lights_of_motor 4 within
      exact tryStart_tends (heard_travel turns 1) (heard_stall turns 1) s (own := own)
    · have := reach_lights within
      exact lightsGranted_tends s 0
    · have := reach_lights within
      exact lightsGranted_tends s 1
  · split
    · exact heaterLost_tends s (heater := own)
    · have : Fact (k.loads loadHeater) := ⟨within 0 (by decide)⟩
      exact pumpLost_tends s (pump := own)
    · have := reach_lights within
      exact lightsLost_tends s 0
    · have := reach_lights within
      exact lightsLost_tends s 1
    · exact Tends.refl k n s
  · refine Tends.ite (fun e => ?_) (fun _ => Tends.refl k n s)
    subst e
    exact heaterWaits_tends s (heater := own)
  · exact Tends.refl k n s

omit all in
theorem lostToLevel_tends (s : State) (id : Fin 7) (r : Reply) (within : ∀ j ∈ ownersReach id, k.loads j) :
    Tends k n s (s.lostToLevel id r) := by
  unfold State.lostToLevel
  split
  · split
    · exact lightsYield_tends s 0
    · exact lightsYield_tends s 1
    · exact report_tends turns s _ _ within
  · exact report_tends turns s id _ within

omit turns all in
theorem yieldHeld_tends (s : State) (id : Fin 7) (within : ∀ j ∈ ownersReach id, k.loads j) :
    Tends k n s (s.yieldHeld id) := by
  have own : Fact (k.loads id) := ⟨within id (reach_self id)⟩
  unfold State.yieldHeld
  split
  · exact (complete_tends s _ (own := own)).trans (heaterYields_tends _ (heater := own))
  · exact padYields_tends s (pad := own)
  · have : Fact (k.loads loadHeater) := ⟨within 0 (by decide)⟩
    exact pumpYields_tends s (pump := own)
  · have := reach_lights_of_motor 3 within
    exact motionYields_tends s 0 (own := own)
  · have := reach_lights_of_motor 4 within
    exact motionYields_tends s 1 (own := own)
  · exact (complete_tends s _ (own := own)).trans (lightsYield_tends _ 0)
  · exact (complete_tends s _ (own := own)).trans (lightsYield_tends _ 1)

omit all in
theorem yieldOne_tends (s : State) (id : Fin 7) (within : ∀ j ∈ ownersReach id, k.loads j) :
    Tends k n s (s.yieldOne id) := by
  have own : Fact (k.loads id) := ⟨within id (reach_self id)⟩
  unfold State.yieldOne
  refine Tends.ite (fun _ => Tends.refl k n s) (fun _ => ?_)
  split
  · exact yieldHeld_tends s id within
  · exact (contestYields_asks s id).tends.trans (lostToLevel_tends turns _ id _ within)
  · exact Tends.refl k n s

omit turns all in
theorem lightsRestored_tends (s : State) (g : Fin 2) [own : Fact (k.loads (loadLights g))] : Tends k n s (s.lightsRestored g) :=
  ((lightsRestored_calm s g).asks (p := (· = loadLights g)) fun _ => by
    unfold State.lightsRestored
    dsimp only
    split
    · exact putClaim_asked s _ _ rfl fun a => .inl ⟨a, rfl⟩
    · exact Asked.refl _ s).tends

include all

theorem levelFollows_tends (levels : k.levels) (s : State) : Tends k n s s.levelFollows := by
  unfold State.levelFollows
  refine (readSupply_tends s).trans ?_
  generalize s.readSupply = s
  refine Tends.ite (fun _ => Tends.refl k n s) (fun _ => ?_)
  refine (setBroker_tends s { s.broker with level := s.levelNow } rfl rfl (fun h => h)
    ⟨fun not => absurd levels not, fun _ => .inl rfl⟩).trans ?_
  generalize s.setBroker _ = u
  refine Tends.ite (fun _ => ?_) (fun _ => ?_)
  · exact (Tends.foldl _ (fun s id => yieldOne_tends turns s id fun j _ => (all j).out) _ u).trans ((ceilingFollows_tends _).trans (courtesyResumes_tends _))
  · refine (Tends.ite (fun _ => ?_) (fun _ => Tends.refl k n u)).trans ((ceilingFollows_tends _).trans (retest_tends _))
    exact (lightsRestored_tends u 0).trans (lightsRestored_tends _ 1)

theorem supplyChanged_tends (levels : k.levels) (s : State) : Tends k n s s.supplyChanged := by
  unfold State.supplyChanged
  refine (readSupply_tends s).trans ?_
  generalize s.readSupply = u
  refine (setBroker_tends u { u.broker with usable := u.usable } rfl rfl (fun h => h)
    ⟨fun not => absurd levels not, fun _ => .inl rfl⟩).trans ?_
  exact ((levelFollows_tends turns levels _).trans
    (Tends.ite (fun _ => retest_tends _) (fun _ => Tends.refl k n _))).trans (padFollows_tends _)

omit turns all in
theorem supplyModeChanged_tends (s : State) : Tends k n s s.supplyModeChanged := fun o w =>
  ⟨⟨o.checked, o.lanes, o.claims, o.dropped, o.changes⟩, w, Tended.same rfl rfl rfl rfl rfl rfl fun _ => ⟨rfl, .inr rfl, rfl, fun _ => id⟩⟩

omit turns all in
theorem setStorage_tends (s : State) (b : Bool) : Tends k n s (s.setSeq { s.seq with storage := b }) := fun o w =>
  ⟨⟨o.checked, o.lanes, o.claims, o.dropped, o.changes⟩, w, Tended.same rfl rfl rfl rfl rfl rfl fun _ => Marked.same rfl rfl⟩

omit turns in
theorem storageEntered_tends (s : State) : Tends k n s s.storageEntered :=
  ((setStorage_tends s true).trans (supplyModeChanged_tends _)).trans
    (((requestEndsInStorage_tends _ 0).trans (requestEndsInStorage_tends _ 1)).trans
      (((modeChanged_tends _).trans ((ceilingFollows_tends _).trans (courtesyResumes_tends _))).trans
        ((extendEndsInStorage_tends _ 0).trans (extendEndsInStorage_tends _ 1))))

omit turns in
theorem storageLeft_tends (s : State) : Tends k n s s.storageLeft :=
  ((setStorage_tends s false).trans (supplyModeChanged_tends _)).trans
    ((retest_tends _).trans ((modeChanged_tends _).trans (ceilingFollows_tends _)))

theorem driveFollows_tends (s : State) : Tends k n s s.driveFollows := by
  unfold State.driveFollows
  refine (readAll_tends s fun e => e.kind == .status).trans ?_
  generalize (s.readAll fun e => e.kind == .status) = u
  refine Tends.ite (fun _ => Tends.refl k n u) (fun _ => ?_)
  refine Tends.trans (t := u.setView { u.view with driveAccepted := u.driveNow }) (fun o w =>
    ⟨setDrive_ok o _, w, Tended.same rfl rfl rfl rfl rfl rfl fun _ => Marked.same rfl rfl⟩) ?_
  generalize u.setView { u.view with driveAccepted := u.driveNow } = v
  refine Tends.trans (t := if v.seq.fns.motion then v.motionSeesDrive else v) (Tends.ite (fun _ => motionSeesDrive_tends (heard_travel turns) (heard_stall turns) _)
    (fun _ => Tends.refl k n _)) ?_
  exact Tends.ite (fun _ => storageLeft_tends _) (fun _ => Tends.refl k n _)

omit turns all in
theorem forgetLevel_tends (levels : k.levels) (s : State) (station : Nat) : Tends k n s (s.forgetLevel station) :=
  setBroker_tends s _ rfl rfl (fun h => h) ⟨fun not => absurd levels not, fun i => by
    by_cases e : i = stationIx station
    · exact .inr ⟨levels, by rw [e]; exact Tab.get_set_self _ _ _⟩
    · exact .inl (Tab.get_set_ne _ _ _ _ (Ne.symm e))⟩

theorem reactTo_tends (levels : k.levels) (s : State) (c : ViewChange) : Tends k n s (s.reactTo c) := by
  unfold State.reactTo
  split
  · exact (Tends.ite (fun _ => driveFollows_tends turns s) (fun _ => Tends.refl k n s)).trans (padFollows_tends _)
  · exact Tends.ite (fun _ => (Tends.ite (fun _ => forgetLevel_tends levels s _) (fun _ => Tends.refl k n s)).trans
      (supplyChanged_tends turns levels _)) (fun _ => Tends.refl k n s)
  · exact Tends.ite (fun _ => retest_tends s) (fun _ => Tends.refl k n s)
  · exact frostService_tends s
  · exact courtesyFollows_tends s _
  · exact Tends.refl k n s

omit turns all in
theorem setChanges_tends (s : State) (c : List ViewChange) : Tends k n s (s.setView { s.view with changes := c }) :=
  fun o w => ⟨⟨o.checked, o.lanes, o.claims, o.dropped, o.changes⟩, w, Tended.same rfl rfl rfl rfl rfl rfl fun _ => Marked.same rfl rfl⟩

theorem tellReaders_tends (levels : k.levels) (s : State) : Tends k n s s.tellReaders := by
  unfold State.tellReaders
  generalize s.view.changes.length + 65 = m
  induction m generalizing s with
  | zero => exact setChanges_tends s []
  | succ m ih =>
    unfold State.tellChanges
    split
    · exact Tends.refl k n s
    · exact ((setChanges_tends s _).trans (reactTo_tends turns levels _ _)).trans (ih _)

theorem reportFailed_tends (s : State) (l : List Tagged) : Tends k n s (s.reportFailed l) := by
  refine Tends.foldl _ (fun s t => ?_) l s
  split
  · exact (announceFailed_asks s _ _).tends.trans (report_tends turns _ _ _ fun j _ => (all j).out)
  · exact Tends.refl k n s

end

end

end Sys2Proof.Machine
end

