-- ==== Sys2Proof/Proofs/Faults.lean ====
section
/-! PROOFS. The end of a step as a whole; probing and the end of Line Fault (R73, R167). -/

namespace Sys2Proof.Machine

/-! ### The end of a step, once more -/

section
variable (k : Scope) (hands : k.hands)
include hands

theorem take_tends (n : Nat) (s : State) (o : Offer) : Tends k n s (s.take o) :=
  (hand_tends s _ _).trans (setPeriods_tends _ _ fun not => absurd hands not)

theorem handOver_tends (n : Nat) (was s : State) : Tends k n s (State.handOver was s) := by
  rw [handOver_offers]
  exact ((Tends.foldl _ (take_tends k hands n) _ s).trans (Tends.ite (fun _ => hand_tends _ _ _) (fun _ => Tends.refl k n _))).trans
    (Tends.foldl _ (take_tends k hands n) _ _)

theorem driveIlock_tends (n : Nat) (s : State) : Tends k n s s.driveIlock :=
  (setWind_tends s { s.motion with ilock := s.inViolation 0 || s.inViolation 1 } rfl).trans
    (setPeriods_tends _ _ fun not => absurd hands not)

end

/-- All that owners do as they hear of a step: any claim may be asked or lowered, and the monitors of `heard` may turn. -/
def told : Scope := { mons := heard, loads := fun _ => True, levels := True }

theorem told_loads : ∀ j, Fact (told.loads j) := fun _ => ⟨trivial⟩

theorem publish_tends (n : Nat) (was s : State) : Tends told n s (State.publish was s) := by
  have := told_loads
  unfold State.publish
  exact (((tellReaders_tends (fun _ h => h) trivial s).trans
    (Tends.ite (fun _ => handOver_tends _ trivial n was _) (fun _ => Tends.refl _ n _))).trans (setDue_tends _ _ fun not => absurd trivial not)).trans
      (driveIlock_tends _ trivial n _)

theorem waitWithin_exists (s : State) : ∃ n, s.waitWithin n := by
  refine ⟨(s.chan 0).req + (s.chan 1).req + ((s.group 0).pending.elim 0 (·.req)) + ((s.group 1).pending.elim 0 (·.req)),
    fun ch => ?_, fun g r h => ?_⟩
  · match ch with
    | 0 => omega
    | 1 => omega
  · match g with
    | 0 => rw [h, Option.elim_some]; omega
    | 1 => rw [h, Option.elim_some]; omega

/-- At the end of a step every monitor stands that no owner turns as it hears of the step. -/
theorem publish_summary {s : State} (was : State) (o : s.Ok) {n : Fin 19} (h : ¬ heard n) :
    (State.publish was s).status.summary.get n = s.status.summary.get n := by
  obtain ⟨m, w⟩ := waitWithin_exists s
  exact (publish_tends m was s o w).2.2.summary n h

/-! ### Line Fault ends (R73, R167) -/

/-- An entry that meets `p` takes the freshness and the age that `f` names; every other stands. -/
def Entry.refreshed (p : Entry → Bool) (f : Entry → Freshness × Nat) (e : Entry) : Entry :=
  if (e.valid && p e) = true then ({ e with fresh := (f e).1, age := (f e).2 } : Entry).seal else e

theorem refresh_way (s : State) (p : Entry → Bool) (f : Entry → Freshness × Nat) (i : Fin 16) (w : Fin 4) :
    ((s.refresh p f).view.sets.get i).ways.get w = ((s.view.sets.get i).ways.get w).refreshed p f := by
  have sets : (s.refresh p f).view.sets = s.view.sets.map fun v => { v with ways := v.ways.map (Entry.refreshed p f) } := rfl
  rw [sets, Tab.get_map]
  exact Tab.get_map _ _ _

/-- The ways that a hold has kept, once the hold ends (R73). -/
theorem holdResumes_way (s : State) (i : Fin 16) (w : Fin 4) :
    let e := (s.view.sets.get i).ways.get w
    let g := (s.holdResumes.view.sets.get i).ways.get w
    g.valid = e.valid ∧ g.key = e.key
      ∧ (e.valid = true → e.fresh = .held → g.age = e.age ∧ g.fresh = freshnessAt e.kind e.age) := by
  dsimp only
  have h : (s.holdResumes.view.sets.get i).ways.get w = ((s.refresh (fun e => e.fresh == .held)
    fun e => (freshnessAt e.kind e.age, e.age)).view.sets.get i).ways.get w := rfl
  rw [h, refresh_way, Entry.refreshed]
  split
  · exact ⟨rfl, rfl, fun _ _ => ⟨rfl, rfl⟩⟩
  · rename_i other
    refine ⟨rfl, rfl, fun valid held => absurd ?_ other⟩
    rw [valid, held]
    rfl

theorem holdResumes_view {s t : State} (h : t.view = s.view) : t.holdResumes.view = s.holdResumes.view := by
  simp only [State.holdResumes, State.refresh, State.tell, State.mapEntries, State.entries, State.setView, h]

/-- What Line Fault's clearing leaves, in a hold or out of one. -/
theorem clearLineFault_fields {s : State} (o : s.Sane) :
    Bus.sameLine { s.bus with lineFault := false, probeTimer := none, probeCount := 0, failed := 0 } s.clearLineFault.bus
      ∧ s.clearLineFault.view = (if s.view.holdTimer.isSome then s.holdResumes else s).view
      ∧ s.clearLineFault.status.summary.get Mon.lineFault = false := by
  unfold State.clearLineFault
  dsimp only
  have sane := setBus_keeps s { s.bus with lineFault := false, probeTimer := none, probeCount := 0, failed := 0 }
    (fun h => h) (fun h => h) id id id o
  obtain ⟨ok, base, -⟩ := monitor_calm (s.setBus { s.bus with
    lineFault := false, probeTimer := none, probeCount := 0, failed := 0 }) Mon.lineFault false sane.ok
  have sane' := (monitor_calm (s.setBus { s.bus with
    lineFault := false, probeTimer := none, probeCount := 0, failed := 0 }) Mon.lineFault false).keeps sane
  have cleared := monitor_summary (s.setBus { s.bus with
    lineFault := false, probeTimer := none, probeCount := 0, failed := 0 }) Mon.lineFault Mon.lineFault false
  generalize (s.setBus { s.bus with
    lineFault := false, probeTimer := none, probeCount := 0, failed := 0 }).monitor Mon.lineFault false = u at ok base cleared sane'
  have view : u.view = s.view := base.view
  have resumed : (if u.view.holdTimer.isSome then u.holdResumes else u).view
      = (if s.view.holdTimer.isSome then s.holdResumes else s).view := by
    rw [view]
    split
    · exact holdResumes_view view
    · exact view
  have held : Keeps u (if u.view.holdTimer.isSome then u.holdResumes else u) :=
    Keeps.ite (fun _ => holdResumes_keeps u) (fun _ => Keeps.refl u)
  have line : (if u.view.holdTimer.isSome then u.holdResumes else u).bus = u.bus := by split <;> rfl
  have status : (if u.view.holdTimer.isSome then u.holdResumes else u).status = u.status := by split <;> rfl
  obtain ⟨-, tested⟩ := retest_asks (· = 0) (if u.view.holdTimer.isSome then u.holdResumes else u) (held sane').ok
  refine ⟨?_, tested.view.trans resumed, ?_⟩
  · refine Bus.sameLine_trans base.bus ?_
    rw [← line]
    exact tested.bus
  · rw [tested.status, status, cleared, if_pos rfl]

/-- The second probe in a row completed clears Line Fault (R167). -/
theorem countCompleted_second {s : State} (fault : s.bus.lineFault = true) (count : s.bus.probeCount = 1) :
    s.countCompleted true = (s.setBus { s.bus with failed := 0 }).clearLineFault := by
  unfold State.countCompleted
  dsimp only
  rw [if_pos (by rw [Bool.and_true]; exact fault), if_pos (by exact count.ge)]

end Sys2Proof.Machine

namespace Sys2Proof.Proofs
open Sys2Proof.Machine

/-- Settles O34: a probe changes the line alone; the second completed one clears Line Fault and ends the hold. -/
theorem probesAndTheEndOfLineFault : Obligations.ProbesAndTheEndOfLineFault := by
  refine ⟨fun s quiet probing => ?_, fun s f bits fits sending buffer probe fault count => ?_⟩
  · have arm : exec .probeTimerExpiry s = .next (State.publish s s.probeDue) := by
      show done s _ = _
      rw [if_pos probing]
      rfl
    have settled : ∀ b : Bus, b.lineFault = s.bus.lineFault → b.busSilent = s.bus.busSilent →
        State.publish s (s.setBus b) = s.setBus b := fun b lineFault silent =>
      publish_nothing quiet (by simp [statusState, State.setBus, lineFault, silent]; rfl)
        (SameFigures.ofClaims rfl fun _ => rfl)
    rw [arm]
    unfold State.probeDue State.buildProbe
    by_cases waits : s.bus.normalBuf.isSome = true
    · rw [if_pos waits, if_pos (by exact waits)]
      exact congrArg _ (settled { s.bus with probeTimer := some 1000 } rfl rfl)
    · rw [if_neg waits, if_neg (by exact waits)]
      exact congrArg _ (settled _ rfl rfl)
  · have online := onLine_eq (u := false) sending buffer
    have leave := leave_eq sending
    have sane := frameCompleted_keeps s fits.sound.sane
    have completed : s.frameCompleted
        = (((s.setBus s.bus.leave).reportCompleted f.records).countCompleted f.probe).builds := by
      unfold State.frameCompleted
      rw [online]
    have kept := (leave_keeps s).trans (reportCompleted_keeps _ f.records) fits.sound.sane
    have rest := reportCompleted_rest (s.setBus s.bus.leave) f.records
    have arm : exec .frameCompleted s = .next (State.publish s s.frameCompleted) := rfl
    rw [completed] at arm sane
    generalize (s.setBus s.bus.leave).reportCompleted f.records = v at arm rest kept sane
    have bus : v.bus = s.bus.leave := by rw [rest]; rfl
    have view : v.view = s.view := by rw [rest]; rfl
    rw [probe, countCompleted_second (by rw [bus, leave]; exact fault) (by rw [bus, leave]; exact count)] at arm sane
    obtain ⟨line, cleared, monitor⟩ := clearLineFault_fields
      (setBus_keeps v { v.bus with failed := 0 } (fun h => h) (fun h => h) id id id kept)
    generalize (v.setBus { v.bus with failed := 0 }).clearLineFault = u at arm sane line cleared monitor
    have built := Bus.build_sameLine u.now u.bus
    have kin := publish_kin s sane
    have summary := publish_summary s sane.ok (n := Mon.lineFault) (fun h => absurd h.2 (by decide))
    refine ⟨_, arm, ?_⟩
    generalize State.publish s u.builds = t at kin summary
    have t_line := Bus.sameLine_trans line (Bus.sameLine_trans built kin.bus)
    have t_view : t.view = { u.view with driveAccepted := t.view.driveAccepted, changes := t.view.changes } := kin.view
    have hold : u.view.holdTimer = none ∧ ∀ i w, let e := (s.view.sets.get i).ways.get w
        let g := (u.view.sets.get i).ways.get w
        g.valid = e.valid ∧ g.key = e.key
          ∧ (e.valid = true → e.fresh = .held → g.age = e.age ∧ g.fresh = freshnessAt e.kind e.age) := by
      rw [cleared]
      by_cases holds : s.view.holdTimer.isSome = true
      · rw [if_pos (by rw [← view] at holds; exact holds), holdResumes_view (by exact view)]
        exact ⟨rfl, holdResumes_way s⟩
      · rw [if_neg (by rw [← view] at holds; exact holds)]
        show v.view.holdTimer = none ∧ _
        refine ⟨by rw [view]; simpa using holds, fun i w => ⟨by rw [← view]; rfl, by rw [← view]; rfl, fun valid held => ?_⟩⟩
        obtain ⟨-, -, -, -, -, -, -, timer⟩ := fits.view i w valid
        exact absurd (timer held) holds
    unfold Bus.sameLine at t_line
    refine ⟨by rw [t_line], by rw [t_line], by rw [t_line], by rw [t_line], by rw [t_view]; exact hold.1,
      summary.trans monitor, fun i w => ?_⟩
    dsimp only
    rw [t_view]
    exact hold.2 i w

end Sys2Proof.Proofs
end

