-- ==== Sys2Proof/Proofs/FaultBegins.lean ====
section
/-! PROOFS. Failed frames whose contests only wait, and the declaration of Line Fault (R38, R71, R166, R167). -/

namespace Sys2Proof.Machine

/-! ### Failed frames whose contests only wait (R38, R166) -/

/-- What the failure of one record does. -/
def State.failsOne (s : State) (t : Tagged) : State :=
  t.contestOf.elim s fun id => (s.announceFailed id t.tag).1.report id (s.announceFailed id t.tag).2

theorem reportFailed_cons (s : State) (t : Tagged) (l : List Tagged) :
    s.reportFailed (t :: l) = (s.failsOne t).reportFailed l := by
  have h : s.reportFailed [t] = s.failsOne t := by
    unfold State.failsOne State.reportFailed
    rw [List.foldl_cons, List.foldl_nil]
    cases t.contestOf <;> rfl
  rw [← h]
  rfl

theorem contestOf_none {t : Tagged} (h : t.contestOf = none) (id : Fin 7) (c : Claim) : ¬ c.announcedBy id t :=
  fun ⟨_, _, tag, _, subject⟩ => by
    rw [contestOf_eq_some.mpr ⟨tag, subject⟩] at h
    cases h

/-- A record's failure means nothing to a claim whose contest it does not announce. -/
theorem announceFailed_other {s : State} {id : Fin 7} {t : Tagged} (named : t.contestOf = some id)
    (h : ¬ (s.claim id).announcedBy id t) : s.announceFailed id t.tag = (s, .none) := by
  obtain ⟨tag, subject⟩ := contestOf_eq_some.mp named
  unfold State.announceFailed
  refine if_neg fun k => h ?_
  simp only [Bool.and_eq_true, beq_iff_eq] at k
  exact ⟨k.1.1, k.1.2, tag, k.2, subject⟩

/-- Of a standing ask that only waits, the failure of its record leaves the claim Waiting (R38). -/
theorem report_onlyWaits {s : State} {id : Fin 7} {t : Tagged} (h : (s.claim id).announcedBy id t) (w : s.onlyWaits id) :
    s.failsOne t = s.setClaim id (s.claim id).toWaiting := by
  obtain ⟨contesting, announcing, tag, serial, subject⟩ := h
  obtain ⟨contest, standing, rank⟩ := w
  have fails : s.announceFailed id t.tag = (s.setClaim id (s.claim id).toWaiting, .waits) := by
    unfold State.announceFailed
    dsimp only
    rw [if_pos (by simp [contesting, announcing, serial]), Claim.lose, Claim.lossReply, if_neg (by rw [contest]; decide),
      if_neg (by rw [standing]; decide), if_neg (by rw [contest, standing]; decide)]
  rw [State.failsOne, contestOf_eq_some.mpr ⟨tag, subject⟩, Option.elim_some, fails]
  show (if id = 0 then State.heaterWaits _ else _) = _
  split
  · next heater =>
    unfold State.heaterWaits
    rw [if_neg]
    rintro ⟨-, other⟩
    refine other ?_
    subst heater
    show ((s.setClaim 0 _).claim 0).rank = _
    rw [claim_setClaim_self]
    exact rank rfl
  · rfl

/-- A failed frame whose contests are standing asks that only wait: each of their claims waits, and nothing else changes. -/
theorem reportFailed_waits {s : State} {l : List Tagged}
    (h : ∀ t ∈ l, ∀ id, (s.claim id).announcedBy id t → s.onlyWaits id) :
    s.reportFailed l = s.setBroker { s.broker with claims := (s.reportFailed l).broker.claims }
      ∧ ∀ id, ((∃ t ∈ l, (s.claim id).announcedBy id t) → (s.reportFailed l).claim id = (s.claim id).toWaiting)
        ∧ ((¬ ∃ t ∈ l, (s.claim id).announcedBy id t) → (s.reportFailed l).claim id = s.claim id) := by
  induction l generalizing s with
  | nil => exact ⟨rfl, fun id => ⟨by simp, fun _ => rfl⟩⟩
  | cons t l ih =>
    rw [reportFailed_cons]
    have later : ∀ x ∈ l, ∀ id, (s.claim id).announcedBy id x → s.onlyWaits id :=
      fun x m => h x (List.mem_cons_of_mem _ m)
    have skips : (∀ id, ¬ (s.claim id).announcedBy id t) → ∀ id,
        (∃ x ∈ t :: l, (s.claim id).announcedBy id x) ↔ ∃ x ∈ l, (s.claim id).announcedBy id x := fun none id =>
      ⟨fun ⟨x, m, k⟩ => (List.mem_cons.mp m).elim (fun e => absurd (e ▸ k) (none id)) fun m => ⟨x, m, k⟩,
        fun ⟨x, m, k⟩ => ⟨x, List.mem_cons_of_mem _ m, k⟩⟩
    cases named : t.contestOf with
    | none =>
      have same : s.failsOne t = s := by rw [State.failsOne, named, Option.elim_none]
      rw [same]
      simp only [skips (fun id => contestOf_none named id _)]
      exact ih later
    | some id =>
      by_cases announced : (s.claim id).announcedBy id t
      · have waits := h t List.mem_cons_self id announced
        rw [report_onlyWaits announced waits]
        have other : ∀ j, j ≠ id → (s.setClaim id (s.claim id).toWaiting).claim j = s.claim j := fun j n => by
          rw [claim_setClaim, if_neg (Ne.symm n)]
        have mute : ∀ x, ¬ ((s.setClaim id (s.claim id).toWaiting).claim id).announcedBy id x := fun x k => by
          rw [claim_setClaim_self] at k
          cases k.2.1
        obtain ⟨rest, claims⟩ := ih (s := s.setClaim id (s.claim id).toWaiting) fun x m j k => by
          by_cases e : j = id
          · subst e
            exact absurd k (mute x)
          · rw [other j e] at k
            have w := later x m j k
            unfold State.onlyWaits at w ⊢
            rw [other j e]
            exact w
        refine ⟨by rw [rest]; rfl, fun j => ?_⟩
        obtain ⟨opens, stays⟩ := claims j
        by_cases e : j = id
        · subst e
          refine ⟨fun _ => ?_, fun none => absurd ⟨t, List.mem_cons_self, announced⟩ none⟩
          rw [stays fun ⟨x, _, k⟩ => mute x k, claim_setClaim_self]
        · rw [other j e] at opens stays
          refine ⟨fun ⟨x, m, k⟩ => opens ⟨x, ?_, k⟩, fun none => stays fun ⟨x, m, k⟩ => none ⟨x, List.mem_cons_of_mem _ m, k⟩⟩
          refine (List.mem_cons.mp m).resolve_left ?_
          rintro rfl
          obtain ⟨-, -, tag, -, subject⟩ := k
          rw [contestOf_eq_some.mpr ⟨tag, subject⟩] at named
          exact e (Option.some.inj named)
      · have same : s.failsOne t = s := by
          rw [State.failsOne, named, Option.elim_some, announceFailed_other named announced]
          rfl
        rw [same]
        have none : ∀ j, ¬ (s.claim j).announcedBy j t := fun j k => by
          have k' := k
          obtain ⟨-, -, tag, -, subject⟩ := k
          rw [contestOf_eq_some.mpr ⟨tag, subject⟩] at named
          cases named
          exact announced k'
        simp only [skips none]
        exact ih later

theorem heaterRank_congr {s t : State} (h : t.climate = s.climate) : t.heaterRank = s.heaterRank := by
  unfold State.heaterRank
  rw [h]

/-- Two failed frames, one after the other, whose contests only wait. -/
theorem reportFailed_waits_twice {s x : State} {l m : List Tagged}
    (h : ∀ t ∈ l ++ m, ∀ id, (s.claim id).announcedBy id t → s.onlyWaits id)
    (broker : x.broker = (s.reportFailed l).broker) (climate : x.climate = s.climate) {id : Fin 7}
    (announced : ∃ t ∈ l ++ m, (s.claim id).announcedBy id t) : (x.reportFailed m).claim id = (s.claim id).toWaiting := by
  have claim : ∀ j, x.claim j = (s.reportFailed l).claim j := fun j => by rw [State.claim, broker]; rfl
  obtain ⟨-, first⟩ := reportFailed_waits fun t k => h t (List.mem_append_left m k)
  have mute : ∀ j t, ¬ (s.claim j).toWaiting.announcedBy j t := fun j t k => by cases k.2.1
  have stands : ∀ j t, (x.claim j).announcedBy j t → x.claim j = s.claim j := fun j t k => by
    by_cases e : ∃ t ∈ l, (s.claim j).announcedBy j t
    · rw [claim, (first j).1 e] at k
      exact absurd k (mute j t)
    · rw [claim, (first j).2 e]
  obtain ⟨-, second⟩ := reportFailed_waits (s := x) (l := m) fun t k j a => by
    have same := stands j t a
    have w := h t (List.mem_append_right l k) j (same ▸ a)
    unfold State.onlyWaits at w ⊢
    rw [same, heaterRank_congr climate]
    exact w
  by_cases e : ∃ t ∈ l, (s.claim id).announcedBy id t
  · have waits : x.claim id = (s.claim id).toWaiting := (claim id).trans ((first id).1 e)
    rw [(second id).2 fun ⟨t, _, k⟩ => mute id t (waits ▸ k), waits]
  · have same : x.claim id = s.claim id := (claim id).trans ((first id).2 e)
    obtain ⟨t, k, a⟩ := announced
    have later := (List.mem_append.mp k).resolve_left fun k => e ⟨t, k, a⟩
    rw [(second id).1 ⟨t, later, same ▸ a⟩, same]

/-! ### Waiting claims while Line Fault is declared -/

/-- Every load but one. -/
def others (j : Fin 7) : Scope := { mons := heard, loads := (· ≠ j), levels := True }

/-- From an orderly state in Line Fault with the claim `j` Waiting, an operation that leaves the table of the Peer View leaves
that claim Waiting, and does no more than `Tended` says. -/
def Leaves (j : Fin 7) (n : Nat) (s t : State) : Prop :=
  s.bus.lineFault = true → (s.claim j).st = .waiting → s.Ok → s.waitWithin n →
    t.Ok ∧ t.waitWithin n ∧ Tended (others j) n s t ∧ t.view = { s.view with changes := t.view.changes }

section
variable {j : Fin 7} {n : Nat} {s t u : State}

theorem Leaves.refl (j : Fin 7) (n : Nat) (s : State) : Leaves j n s s := fun _ _ o w => ⟨o, w, Tended.refl _ n s, rfl⟩

theorem Tended.waits {j : Fin 7} {n : Nat} {s t : State} (h : Tended (others j) n s t) (fault : s.bus.lineFault = true)
    (waits : (s.claim j).st = .waiting) : t.bus.lineFault = true ∧ (t.claim j).st = .waiting := by
  refine ⟨h.stands.fault.trans fault, ?_⟩
  rcases (h.stands.still fault).2 j fun x => x rfl with e | ⟨-, e⟩
  · rw [e, waits]
  · rw [e]
    rfl

theorem Leaves.trans (h : Leaves j n s t) (k : Leaves j n t u) : Leaves j n s u := fun fault waits o w => by
  obtain ⟨o', w', tended, view⟩ := h fault waits o w
  obtain ⟨fault', waits'⟩ := tended.waits fault waits
  obtain ⟨o'', w'', tended', view'⟩ := k fault' waits' o' w'
  exact ⟨o'', w'', tended.trans tended', by rw [view', view]⟩

theorem Leaves.ite {c : Prop} [Decidable c] {a b : State} (h : c → Leaves j n s a) (k : ¬c → Leaves j n s b) :
    Leaves j n s (if c then a else b) := by
  split
  · exact h ‹_›
  · exact k ‹_›

theorem Leaves.intro (h : (s.claim j).st = .waiting → Leaves j n s t) : Leaves j n s t := fun f w => h w f w

theorem Leaves.foldl {α : Type} (f : State → α → State) (h : ∀ s x, Leaves j n s (f s x)) (l : List α) (s : State) :
    Leaves j n s (l.foldl f s) := by
  induction l generalizing s with
  | nil => exact Leaves.refl j n s
  | cons x xs ih => exact (h s x).trans (ih (f s x))

theorem Tends.leaves (h : Tends (others j) n s t) (k : Steady s t) : Leaves j n s t := fun _ _ o w => by
  obtain ⟨o', w', tended⟩ := h o w
  exact ⟨o', w', tended, by rw [(k o).2.1.view]⟩

end

section
variable {j : Fin 7} {n : Nat} (pump : 2 ≤ j.val) (motor : j.val ≤ 4)
include pump motor

/-- The owner of another load does not reach the claim of the pump or a motor. -/
theorem reach_others {id : Fin 7} (h : j ≠ id) : ∀ i ∈ ownersReach id, (others j).loads i := by
  have far : ∀ j id : Fin 7, 2 ≤ j.val → j.val ≤ 4 → j ≠ id → ∀ i ∈ ownersReach id, i ≠ j := by decide
  exact far j id pump motor h

theorem others_low {id : Fin 7} (h : id.val < 2) : Fact ((others j).loads id) := ⟨by rintro rfl; omega⟩

theorem others_lights (g : Fin 2) : Fact ((others j).loads (loadLights g)) :=
  ⟨reach_others pump motor (id := 5) (by rintro rfl; exact absurd motor (by decide)) _ (by decide +revert)⟩

theorem yieldOne_leaves (s : State) (id : Fin 7) : Leaves j n s (s.yieldOne id) := by
  refine Leaves.intro fun waits => ?_
  by_cases e : j = id
  · subst e
    unfold State.yieldOne
    rw [waits]
    exact Leaves.ite (fun _ => Leaves.refl j n s) (fun _ => Leaves.refl j n s)
  · exact (yieldOne_tends (fun _ h => h) s id (reach_others pump motor e)).leaves (yieldOne_steady s id)

theorem retest_leaves (s : State) : Leaves j n s s.retest := (retest_tends s).leaves (retest_calm s).steady

theorem levelFollows_leaves (s : State) : Leaves j n s s.levelFollows := by
  have := others_lights pump motor
  unfold State.levelFollows
  refine ((readSupply_tends s).leaves (readSupply_calm s).steady).trans ?_
  generalize s.readSupply = s
  refine Leaves.ite (fun _ => Leaves.refl j n s) (fun _ => ?_)
  refine ((setBroker_tends s { s.broker with level := s.levelNow } rfl rfl (fun h => h)
    ⟨fun not => absurd trivial not, fun _ => .inl rfl⟩).leaves
    (setBroker_calm s { s.broker with level := s.levelNow } fun h => h).steady).trans ?_
  generalize s.setBroker _ = u
  have ceiling : ∀ v : State, Leaves j n v v.ceilingFollows := fun v =>
    (ceilingFollows_tends v).leaves (ceilingFollows_calm v).steady
  refine Leaves.ite (fun _ => ?_) (fun _ => ?_)
  · exact (Leaves.foldl _ (yieldOne_leaves pump motor) _ u).trans
      ((ceiling _).trans ((courtesyResumes_tends _).leaves (courtesyResumes_calm _).steady))
  · refine (Leaves.ite (fun _ => ?_) (fun _ => Leaves.refl j n u)).trans ((ceiling _).trans (retest_leaves pump motor _))
    exact ((lightsRestored_tends u 0).trans (lightsRestored_tends _ 1)).leaves
      ((lightsRestored_calm u 0).trans (lightsRestored_calm _ 1)).steady

theorem supplyChanged_leaves (s : State) : Leaves j n s s.supplyChanged := by
  have pad : Fact ((others j).loads loadPad) := others_low pump motor (by decide)
  unfold State.supplyChanged
  refine ((readSupply_tends s).leaves (readSupply_calm s).steady).trans ?_
  generalize s.readSupply = u
  refine ((setBroker_tends u { u.broker with usable := u.usable } rfl rfl (fun h => h)
    ⟨fun not => absurd trivial not, fun _ => .inl rfl⟩).leaves
    (setBroker_calm u { u.broker with usable := u.usable } fun h => h).steady).trans ?_
  exact ((levelFollows_leaves pump motor _).trans
    (Leaves.ite (fun _ => retest_leaves pump motor _) (fun _ => Leaves.refl j n _))).trans
    ((padFollows_tends _).leaves (padFollows_calm _).steady)

/-- What the readers do with a change, where drive accepted agrees with its inputs. -/
theorem reactTo_leaves (s : State) (c : ViewChange) (agrees : s.view.driveAccepted = s.driveNow) :
    Leaves j n s (s.reactTo c) := by
  have pad : Fact ((others j).loads loadPad) := others_low pump motor (by decide)
  have heater : Fact ((others j).loads loadHeater) := others_low pump motor (by decide)
  have lights := others_lights pump motor
  unfold State.reactTo
  split
  · refine Leaves.trans (Leaves.ite (fun _ => ?_) (fun _ => Leaves.refl j n s))
      ((padFollows_tends _).leaves (padFollows_calm _).steady)
    intro f w o
    have same : s.driveFollows = s := by
      unfold State.driveFollows
      rw [readAll_checked o.checked]
      exact if_pos agrees.symm
    rw [same]
    exact Leaves.refl j n s f w o
  · refine Leaves.ite (fun _ => ?_) (fun _ => Leaves.refl j n s)
    exact (Leaves.ite (fun _ => (forgetLevel_tends trivial s _).leaves (forgetLevel_calm s _).steady)
      (fun _ => Leaves.refl j n s)).trans (supplyChanged_leaves pump motor _)
  · exact Leaves.ite (fun _ => retest_leaves pump motor s) (fun _ => Leaves.refl j n s)
  · exact (frostService_tends s).leaves (frostService_calm s).steady
  · exact (courtesyFollows_tends s _).leaves (courtesyFollows_calm s _).steady
  · exact Leaves.refl j n s

theorem tellReaders_leaves (s : State) (agrees : s.view.driveAccepted = s.driveNow) : Leaves j n s s.tellReaders := by
  have setChanges : ∀ (v : State) c, Leaves j n v (v.setView { v.view with changes := c }) := fun v c f _ o w => by
    obtain ⟨o', w', t⟩ := setChanges_tends (k := others j) (n := n) v c o w
    exact ⟨o', w', t, rfl⟩
  unfold State.tellReaders
  generalize s.view.changes.length + 65 = m
  induction m generalizing s with
  | zero => exact setChanges s []
  | succ m ih =>
    unfold State.tellChanges
    split
    · exact Leaves.refl j n s
    · next c rest _ =>
      have first : Leaves j n s ((s.setView { s.view with changes := rest }).reactTo c) :=
        (setChanges s rest).trans (reactTo_leaves pump motor _ c agrees)
      intro f w o x
      obtain ⟨-, -, -, view⟩ := first f w o x
      refine (first.trans (ih _ ?_)) f w o x
      have entries : ((s.setView { s.view with changes := rest }).reactTo c).entries = s.entries := by
        unfold State.entries
        rw [view]
      unfold State.driveNow at agrees ⊢
      rw [entries, view]
      exact agrees

end

/-- The claim of the pump or a motor that waits in Line Fault waits on through the end of a step at which drive accepted
agrees with its inputs. -/
theorem publish_waits {s : State} (was : State) {j : Fin 7} (pump : 2 ≤ j.val) (motor : j.val ≤ 4) (o : s.Ok)
    (fault : s.bus.lineFault = true) (agrees : s.view.driveAccepted = s.driveNow) {c : Claim}
    (waits : s.claim j = c.toWaiting) : (State.publish was s).claim j = c.toWaiting := by
  obtain ⟨n, w⟩ := waitWithin_exists s
  obtain ⟨o', w', told, -⟩ := tellReaders_leaves (n := n) pump motor s agrees fault (by rw [waits]; rfl) o w
  have rest : Tends (others j) n s.tellReaders (State.publish was s) := by
    unfold State.publish
    exact ((Tends.ite (fun _ => handOver_tends _ trivial n was _) (fun _ => Tends.refl _ n _)).trans (setDue_tends _ _ fun not => absurd trivial not)).trans
      (driveIlock_tends _ trivial n _)
  obtain ⟨-, -, tended⟩ := rest o' w'
  rcases ((told.trans tended).stands.still fault).2 j fun x => x rfl with e | ⟨-, e⟩
  · rw [e, waits]
  · rw [e, waits]
    rfl

theorem reportFailed_steady (s : State) (l : List Tagged) : Steady s (s.reportFailed l) := by
  induction l generalizing s with
  | nil => exact Steady.refl s
  | cons t l ih =>
    rw [reportFailed_cons]
    refine Steady.trans ?_ (ih _)
    unfold State.failsOne
    cases t.contestOf with
    | none => exact Steady.refl s
    | some id => exact (announceFailed_calm s id t.tag).steady.trans (report_steady _ _ _)

/-! ### Line Fault begins (R71, R167) -/

/-- The line and the Peer View as Line Fault is declared, before the frames are reported (R71, R167). -/
def State.faultBegins (s : State) : State :=
  ((s.setBus { s.bus with
    lineFault := true, probeTimer := some 1000, probeCount := 0, urgentBuf := none, normalBuf := none }).holdBegins).monitor
    Mon.lineFault true

theorem declareLineFault_eq (s : State) : s.declareLineFault = s.faultBegins.reportFailed s.bus.held := rfl

theorem monitor_stands (p : Fin 7 → Prop) (s : State) (n : Fin 19) (d : Bool) : Stands p s (s.monitor n d) := by
  have claim : ∀ j, (s.monitor n d).claim j = s.claim j := fun j => by rw [monitor_eq]; rfl
  have bus : (s.monitor n d).bus = if s.inRun then (s.hand (changeNotice s n d) 0).bus else s.bus := by
    rw [monitor_eq]
    rfl
  obtain ⟨fault, hand, -⟩ := hand_stands p s (changeNotice s n d) 0
  have fresh : Fresh s (s.monitor n d) :=
    ⟨by rw [monitor_eq], fun j a => .inl (by rw [claim] at a ⊢; exact ⟨a, rfl⟩)⟩
  refine ⟨?_, fun h => ⟨?_, fun j _ => .inl (claim j)⟩, fresh⟩
  · rw [bus]
    split
    · exact fault
    · rfl
  · rw [bus]
    split
    · exact (hand h).1
    · exact ⟨rfl, rfl⟩

theorem Bus.mem_held {b : Bus} {t : Tagged} :
    t ∈ b.held ↔ ∃ z, (b.urgentBuf = some z ∨ b.normalBuf = some z) ∧ t ∈ z.records := by
  unfold Bus.held
  rw [List.mem_append]
  constructor
  · rintro (m | m)
    · cases e : b.urgentBuf with
      | none => rw [e] at m; cases m
      | some z => rw [e] at m; exact ⟨z, .inl rfl, m⟩
    · cases e : b.normalBuf with
      | none => rw [e] at m; cases m
      | some z => rw [e] at m; exact ⟨z, .inr rfl, m⟩
  · rintro ⟨z, e | e, m⟩
    · rw [e]; exact .inl m
    · rw [e]; exact .inr m

/-- What Line Fault's declaration sets. -/
theorem faultBegins_fields {s : State} (o : s.Sane) : s.faultBegins.Sane
    ∧ s.faultBegins.seq = s.seq ∧ s.faultBegins.broker = s.broker ∧ s.faultBegins.climate = s.climate
    ∧ s.faultBegins.bus.lineFault = true ∧ s.faultBegins.bus.failed = s.bus.failed
    ∧ s.faultBegins.bus.probeTimer = some 1000 ∧ s.faultBegins.bus.sending = s.bus.sending
    ∧ s.faultBegins.bus.urgentBuf = none ∧ s.faultBegins.bus.normalBuf = none
    ∧ s.faultBegins.view = s.holdBegins.view ∧ s.faultBegins.status.summary.get Mon.lineFault = true := by
  have emptied : Keeps s (s.setBus { s.bus with
      lineFault := true, probeTimer := some 1000, probeCount := 0, urgentBuf := none, normalBuf := none }) :=
    setBus_keeps s _ (fun h => ⟨h.1, h.2.1, h.2.2.1, h.2.2.2.1, by simp, by simp⟩) (fun h => h) id id id
  unfold State.faultBegins
  have held := (emptied.trans (holdBegins_keeps _)) o
  generalize u_eq : (s.setBus { s.bus with
      lineFault := true, probeTimer := some 1000, probeCount := 0, urgentBuf := none, normalBuf := none }).holdBegins = u
    at held
  have bus : u.bus = { s.bus with
      lineFault := true, probeTimer := some 1000, probeCount := 0, urgentBuf := none, normalBuf := none } := by
    rw [← u_eq]
    rfl
  have line := monitor_line u Mon.lineFault true
  unfold Bus.sameLine at line
  obtain ⟨-, stands, -⟩ := monitor_stands (fun _ => False) u Mon.lineFault true
  obtain ⟨⟨urgent, normal⟩, -⟩ := stands (by rw [bus])
  refine ⟨(monitor_calm u _ _).keeps held, ?_, ?_, ?_, by rw [line, bus], by rw [line, bus], by rw [line, bus],
    by rw [line, bus], by rw [urgent, bus], by rw [normal, bus], ?_, by rw [monitor_summary, if_pos rfl]⟩
  · rw [monitor_eq, ← u_eq]
    rfl
  · rw [monitor_eq, ← u_eq]
    rfl
  · rw [monitor_eq, ← u_eq]
    rfl
  · rw [monitor_eq, ← u_eq]
    rfl

theorem holdBegins_way (s : State) (i : Fin 16) (w : Fin 4) :
    let e := (s.view.sets.get i).ways.get w
    let g := (s.holdBegins.view.sets.get i).ways.get w
    g.valid = e.valid ∧ g.key = e.key ∧ g.payload = e.payload ∧ g.age = e.age
      ∧ (e.valid = true → (e.fresh = .fresh ∨ e.fresh = .aging) → g.fresh = .held) := by
  dsimp only
  have h : (s.holdBegins.view.sets.get i).ways.get w = ((s.refresh (fun e => e.fresh.live)
    fun e => (.held, e.age)).view.sets.get i).ways.get w := rfl
  rw [h, refresh_way, Entry.refreshed]
  split
  · exact ⟨rfl, rfl, rfl, rfl, fun _ _ => rfl⟩
  · rename_i other
    refine ⟨rfl, rfl, rfl, rfl, fun valid live => absurd ?_ other⟩
    rcases live with live | live
    · rw [valid, live]; rfl
    · rw [valid, live]; rfl

theorem valid_of_showsDrive {e : Entry} (h : e.showsDrive = true) : e.valid = true := by
  simp only [Entry.showsDrive, Bool.and_eq_true] at h
  exact h.1.1.1.1

theorem driveNow_congr {s t : State} (h : t.view = s.view) : t.driveNow = s.driveNow := by
  unfold State.driveNow State.entries
  rw [h]

/-- A hold leaves drive accepted's inputs: a Held entry counts as a Fresh one does (R72, R78). -/
theorem holdBegins_driveNow (s : State) : s.holdBegins.driveNow = s.driveNow := by
  have shows : ∀ e : Entry,
      (e.refreshed (fun e => e.fresh.live) fun e => (.held, e.age)).showsDrive = e.showsDrive := fun e => by
    unfold Entry.refreshed
    split
    · next live =>
      have fresh : e.fresh ≠ .stale := fun x => by simp [x, Freshness.live] at live
      simp only [Entry.showsDrive, Entry.seal, Entry.kind, bne_iff_ne.mpr fresh]
      rfl
    · rfl
  have any : (s.holdBegins.entries.any Entry.showsDrive = true) ↔ (s.entries.any Entry.showsDrive = true) := by
    simp only [List.any_eq_true, mem_entries]
    have way : ∀ i w, (s.holdBegins.view.sets.get i).ways.get w = ((s.view.sets.get i).ways.get w).refreshed
      (fun e => e.fresh.live) fun e => (.held, e.age) := refresh_way s _ _
    constructor
    · rintro ⟨_, ⟨-, i, w, rfl⟩, drive⟩
      rw [way, shows] at drive
      exact ⟨_, ⟨valid_of_showsDrive drive, i, w, rfl⟩, drive⟩
    · rintro ⟨_, ⟨-, i, w, rfl⟩, drive⟩
      rw [← shows, ← way] at drive
      exact ⟨_, ⟨valid_of_showsDrive drive, i, w, rfl⟩, drive⟩
  unfold State.driveNow
  rw [Bool.eq_iff_iff.mpr any]
  rfl

end Sys2Proof.Machine

namespace Sys2Proof.Proofs
open Sys2Proof.Machine

/-- Settles O32: the reports leave Waiting claims, the hold begins, and while Line Fault stands no re-test and no frame follows. -/
theorem eighthFailureDeclaresLineFault : Obligations.EighthFailureDeclaresLineFault := by
  intro c s f urg bits cmd fits sending buffer seven fault
  have online := onLine_eq sending buffer
  have leave := leave_eq sending
  have arm : exec c s = .next (State.publish s s.frameFailed) := by
    rcases cmd with rfl | rfl
    · rfl
    · rfl
  have sane := frameFailed_keeps s fits.sound.sane
  have left := leave_keeps s fits.sound.sane
  obtain ⟨-, base, -⟩ := reportFailed_steady (s.setBus s.bus.leave) f.records left.ok
  have waits := reportFailed_waits (s := s.setBus s.bus.leave) (l := f.records)
  have twice := fun x m => @reportFailed_waits_twice (s.setBus s.bus.leave) x f.records m
  have failed : s.frameFailed = (((s.setBus s.bus.leave).reportFailed f.records).countFailed f.probe).builds := by
    unfold State.frameFailed
    rw [online]
  have kept := reportFailed_keeps _ f.records left
  rw [failed] at arm sane
  generalize (s.setBus s.bus.leave).reportFailed f.records = v at arm sane kept base waits twice
  have line := base.bus
  unfold Bus.sameLine at line
  rw [leave] at line
  have count : v.countFailed f.probe = (v.setBus { v.bus with
      failed := 8, probeCount := if f.probe then 0 else v.bus.probeCount }).declareLineFault := by
    unfold State.countFailed
    have eight : v.bus.failed = 7 := by rw [line]; exact seven
    have none : v.bus.lineFault = false := by rw [line]; exact fault
    dsimp only
    rw [eight]
    exact if_pos ⟨rfl, by simp [none]⟩
  rw [count, declareLineFault_eq] at arm sane
  have counted := setBus_keeps v { v.bus with failed := 8, probeCount := if f.probe then 0 else v.bus.probeCount }
    (fun h => h) (fun h => h) id id id kept
  have held : (v.setBus { v.bus with failed := 8, probeCount := if f.probe then 0 else v.bus.probeCount }).bus.held
    = v.bus.held := rfl
  rw [held] at arm sane
  generalize u_eq : v.setBus { v.bus with
    failed := 8, probeCount := if f.probe then 0 else v.bus.probeCount } = u at arm sane counted
  obtain ⟨sane', seq, broker, climate, lineFault, eight, probe, idle, urgent, normal, view, monitor⟩ := faultBegins_fields counted
  obtain ⟨n, within⟩ := waitWithin_exists u.faultBegins
  have loads := told_loads
  have reports := reportFailed_tends (k := told) (n := n) (fun _ h => h) u.faultBegins v.bus.held
  have steady := reportFailed_steady u.faultBegins v.bus.held
  have twice := @twice u.faultBegins v.bus.held
  generalize u.faultBegins = x at *
  obtain ⟨ok, base', -⟩ := steady sane'.ok
  obtain ⟨-, within', tended⟩ := reports sane'.ok within
  generalize x.reportFailed v.bus.held = y at *
  have built : y.builds = y := by
    unfold State.builds
    rw [Bus.build_fault _ (tended.stands.fault.trans lineFault)]
    rfl
  rw [built] at arm sane
  have kin := base'.kin.trans (publish_kin s sane)
  obtain ⟨-, -, published⟩ := publish_tends n s y sane.ok within'
  obtain ⟨⟨urgent', normal'⟩, -⟩ := (tended.trans published).stands.still lineFault
  have summary := (tended.trans published).summary Mon.lineFault fun h => absurd h.2 (by decide)
  have waiting := @publish_waits y s
  refine ⟨_, arm, ?_⟩
  generalize State.publish s y = t at *
  have bus := kin.bus
  unfold Bus.sameLine at bus
  have t_view : t.view = { x.view with driveAccepted := t.view.driveAccepted, changes := t.view.changes } := kin.view
  have u_view : u.view = s.view := by rw [← u_eq]; exact base.view
  refine ⟨by rw [bus, lineFault], by rw [bus, eight, ← u_eq]; rfl, by rw [bus, probe], urgent'.trans urgent,
    normal'.trans normal, by rw [bus, idle, ← u_eq]; exact (congrArg Bus.sending line).trans rfl,
    by rw [t_view, view]; rfl, summary.trans monitor, ?_, ?_, ?_⟩
  · rw [kin.seq, seq, ← u_eq]
    show v.seq.station = _
    rw [base.seq]
    rfl
  · intro i w
    have way := holdBegins_way u i w
    rw [u_view] at way
    dsimp only at way ⊢
    rw [t_view, view]
    exact ⟨way.1, way.2.1, way.2.2.1, fun _ => way.2.2.2.1, way.2.2.2.2⟩
  · intro gone agrees only z id stood announces pump
    have named : ∀ z id, s.announces z id ↔ ∃ t ∈ z.records, (s.claim id).announcedBy id t := fun z id =>
      ⟨fun ⟨a, b, t, m, h⟩ => ⟨t, m, a, b, h⟩, fun ⟨t, m, a, b, h⟩ => ⟨a, b, t, m, h⟩⟩
    have waits := waits fun t m j k => only f j (by cases urg; exacts [.inr buffer, .inl buffer])
      ((named f j).mpr ⟨t, m, k⟩)
    have frames : ∀ t, t ∈ f.records ++ v.bus.held ↔ ∃ z, gone z ∧ t ∈ z.records := fun t => by
      have bus : v.bus = s.bus.leave := by rw [waits.1]; rfl
      rw [List.mem_append, Bus.mem_held, bus, leave]
      cases urg
      · have buffer : s.bus.normalBuf = some f := buffer
        constructor
        · rintro (m | ⟨z, stood | none, m⟩)
          · exact ⟨f, .inr buffer, m⟩
          · exact ⟨z, .inl stood, m⟩
          · cases none
        · rintro ⟨z, stood | stood, m⟩
          · exact .inr ⟨z, .inl stood, m⟩
          · exact .inl (Option.some.inj (buffer.symm.trans stood) ▸ m)
      · have buffer : s.bus.urgentBuf = some f := buffer
        constructor
        · rintro (m | ⟨z, none | stood, m⟩)
          · exact ⟨f, .inl buffer, m⟩
          · cases none
          · exact ⟨z, .inr stood, m⟩
        · rintro ⟨z, stood | stood, m⟩
          · exact .inl (Option.some.inj (buffer.symm.trans stood) ▸ m)
          · exact .inr ⟨z, .inr stood, m⟩
    have all : ∀ t ∈ f.records ++ v.bus.held, ∀ id, (s.claim id).announcedBy id t → s.onlyWaits id := fun t m j a => by
      obtain ⟨z, g, k⟩ := (frames t).mp m
      exact only z j g ((named z j).mpr ⟨t, k, a⟩)
    obtain ⟨contest, standing, -⟩ := only z id stood announces
    have motor : id.val ≤ 4 := by
      by_contra high
      obtain ⟨-, -, serves⟩ := fits.claims
      obtain ⟨-, -, -, -, -, -, -, -, -, -, lights⟩ := serves id
      exact absurd ((lights (by omega)).2.1 contest) (by simp [standing])
    obtain ⟨t, m, a⟩ := (named z id).mp announces
    refine waiting pump motor sane.ok (tended.stands.fault.trans lineFault) ?_
      (twice all (by rw [broker, ← u_eq]; rfl) ?_ ⟨t, (frames t).mpr ⟨z, stood, m⟩, a⟩)
    · rw [driveNow_congr (base'.view.trans view), holdBegins_driveNow, driveNow_congr u_view, base'.view, view]
      show u.view.driveAccepted = _
      rw [u_view]
      exact agrees
    · rw [climate, ← u_eq]
      show v.climate = _
      rw [waits.1]
      rfl

end Sys2Proof.Proofs
end

