-- ==== Sys2Proof/Proofs/Scales.lean ====
section
/-! PROOFS. A group's amount, its targets and its scaled requests (R151 to R153). -/

namespace Sys2Proof.Machine

/-! ### What a pre-test looks at (R36, R37) -/

/-- All that the pre-test of the claim `id` looks at is the same. -/
structure Weighs (id : Fin 7) (s t : State) : Prop where
  seq : t.seq = s.seq
  view : t.view = s.view
  supply : t.supply = s.supply
  level : t.broker.level = s.broker.level
  fault : t.bus.lineFault = s.bus.lineFault
  claims : ∀ j, j ≠ id → t.claim j = s.claim j

theorem Weighs.refl (id : Fin 7) (s : State) : Weighs id s s := ⟨rfl, rfl, rfl, rfl, rfl, fun _ _ => rfl⟩

theorem Weighs.trans {id : Fin 7} {s t u : State} (h : Weighs id s t) (k : Weighs id t u) : Weighs id s u :=
  ⟨k.seq.trans h.seq, k.view.trans h.view, k.supply.trans h.supply, k.level.trans h.level, k.fault.trans h.fault,
    fun j n => (k.claims j n).trans (h.claims j n)⟩

theorem Weighs.passes {id : Fin 7} {s t : State} (h : Weighs id s t) (rank a : Nat) :
    t.passes id rank a = s.passes id rank a := by
  have usable : t.usable = s.usable := by
    rw [State.usable, State.usable, h.seq, State.ownUsable, State.ownUsable, h.supply, h.seq, State.peerUsable,
      State.peerUsable, State.entries, State.entries, h.view]
  have share : ∀ x, ∀ j ∈ fin7.filter (· ≠ id), t.ownShare x j = s.ownShare x j := by
    intro x j m
    have other : j ≠ id := by simpa using (List.mem_filter.mp m).2
    rw [State.ownShare, State.ownShare, h.claims j other, State.place, State.place, h.seq]
  have total : ∀ x, t.knownTotal id x = s.knownTotal id x := by
    intro x
    rw [State.knownTotal, State.knownTotal, List.map_congr_left (share x), State.entries, State.entries, h.view]
  unfold State.passes
  rw [usable, total, h.view, h.seq, h.fault, h.level]

theorem Weighs.setClaim (s : State) (id : Fin 7) (c : Claim) : Weighs id s (s.setClaim id c) :=
  ⟨rfl, rfl, rfl, rfl, rfl, fun _ n => claim_setClaim_ne s c n⟩

theorem Weighs.setLights (s : State) (id : Fin 7) (x : Lights) : Weighs id s (s.setLights x) :=
  ⟨rfl, rfl, rfl, rfl, rfl, fun _ _ => rfl⟩

/-! ### A group's amount and targets (R151, R152) -/

theorem get_fin4 {α : Type} (f : Fin 4 → α) (k : Fin 4) : Tab.get ⟨fin4.map f, rfl⟩ k = f k :=
  match k with
  | 0 => rfl
  | 1 => rfl
  | 2 => rfl
  | 3 => rfl

theorem light_congr {s t : State} (h : t.lights.chans = s.lights.chans) (ch : Fin 8) : t.light ch = s.light ch := by
  rw [State.light, h]
  rfl

theorem covering_congr {s t : State} (chans : t.lights.chans = s.lights.chans) (seq : t.seq = s.seq) (g : Fin 2)
    (x : Tab 4 Nat) : t.covering g x = s.covering g x := by
  unfold State.covering
  simp only [light_congr chans, seq]

theorem scaledTargets_congr {s t : State} (chans : t.lights.chans = s.lights.chans) (g : Fin 2) (want : Tab 4 Nat)
    (x : Nat) : t.scaledTargets g want x = s.scaledTargets g want x := by
  unfold State.scaledTargets
  simp only [light_congr chans]

/-- What a settled group's claim comes to (R151). -/
def Claim.amended (c : Claim) (settled : Bool) (target : Nat) : Claim :=
  if settled = true ∧ c.st = .held then
    if target = 0 then c.toIdle else if target < c.held then c.lowered target else c
  else c

theorem amend_asks (s : State) (g : Fin 2) : Asks (· = loadLights g) s (s.amend g) := by
  unfold State.amend
  refine Asks.ite (fun _ => ?_) (fun _ => Asks.refl _ s)
  exact Asks.ite (fun _ => release_asks s _) (fun _ => Asks.ite (fun _ => lower_asks s _ _) (fun _ => Asks.refl _ s))

theorem amend_claim {s : State} (o : s.Ok) (g : Fin 2) :
    (s.amend g).claim (loadLights g) = (s.claim (loadLights g)).amended (s.settled g) (s.targetAmount g) := by
  unfold State.amend Claim.amended
  dsimp only
  by_cases h : s.settled g = true ∧ (s.claim (loadLights g)).st = .held
  · have draws : (s.claim (loadLights g)).drawing = true := by simp [Claim.drawing, h.2]
    rw [if_pos (by simp [h]), if_pos h]
    by_cases none : s.targetAmount g = 0
    · rw [if_pos none, if_pos none]
      rw [release_claim o, if_neg (by rw [h.2]; decide)]
    · rw [if_neg none, if_neg none]
      split
      · next less => exact (lower_claim o (Nat.pos_of_ne_zero none) draws less.le).2
      · rfl
  · rw [if_neg (by simpa using h), if_neg h]

/-- No contest runs for a claim that has been brought to its target amount, unless one ran before. -/
theorem Claim.amended_calm {c : Claim} (h : c.contesting = false) (settled : Bool) (target : Nat) :
    (c.amended settled target).contesting = false := by
  unfold Claim.amended
  split
  · split
    · rfl
    · split
      · next held _ _ => simp [Claim.contesting, Claim.lowered, held.2]
      · exact h
  · exact h

/-- The channels of a group take new targets, before its claim is looked at. -/
def State.aimed (s : State) (g : Fin 2) (t : Tab 4 Nat) : State :=
  fin4.foldl (fun s k =>
    s.setLight (groupChan g k) ((s.light (groupChan g k)).retarget (Item.fadeMs s.seq.values) (t.get k))) s

theorem takeTargets_eq (s : State) (g : Fin 2) (t : Tab 4 Nat) : s.takeTargets g t = (s.aimed g t).amend g := rfl

theorem light_setLight (s : State) (ch j : Fin 8) (l : Light) :
    (s.setLight ch l).light j = if ch = j then l else s.light j := Tab.get_set _ _ _ _

theorem groupOf_groupChan (g : Fin 2) (k : Fin 4) : groupOf (groupChan g k) = g := by decide +revert

theorem groupChan_injective (g : Fin 2) {k j : Fin 4} (h : groupChan g k = groupChan g j) : k = j := by
  decide +revert

/-- Every channel is one of its group's four. -/
theorem groupChan_surjective (ch : Fin 8) : ∃ k, groupChan (groupOf ch) k = ch := by decide +revert

/-- The channels of the group that a list names take new targets, each once. -/
def State.aims (g : Fin 2) (t : Tab 4 Nat) (l : List (Fin 4)) (s : State) : State :=
  l.foldl (fun s k =>
    s.setLight (groupChan g k) ((s.light (groupChan g k)).retarget (Item.fadeMs s.seq.values) (t.get k))) s

theorem aims_other (g : Fin 2) (t : Tab 4 Nat) (l : List (Fin 4)) (s : State) {ch : Fin 8}
    (h : ∀ k ∈ l, groupChan g k ≠ ch) : (State.aims g t l s).light ch = s.light ch := by
  induction l generalizing s with
  | nil => rfl
  | cons k l ih =>
    refine (ih _ fun j m => h j (List.mem_cons_of_mem k m)).trans ?_
    rw [light_setLight, if_neg (h k List.mem_cons_self)]

theorem aims_light (g : Fin 2) (t : Tab 4 Nat) (l : List (Fin 4)) (distinct : l.Nodup) (s : State) {k : Fin 4}
    (m : k ∈ l) : (State.aims g t l s).light (groupChan g k)
      = (s.light (groupChan g k)).retarget (Item.fadeMs s.seq.values) (t.get k) := by
  induction l generalizing s with
  | nil => cases m
  | cons j l ih =>
    obtain ⟨new, distinct⟩ := List.nodup_cons.mp distinct
    by_cases e : k = j
    · subst e
      refine (aims_other g t l _ fun i m e => new (by rw [← groupChan_injective g e]; exact m)).trans ?_
      rw [light_setLight, if_pos rfl]
    · refine (ih distinct _ ((List.mem_cons.mp m).resolve_left e)).trans ?_
      rw [light_setLight, if_neg fun x => e (groupChan_injective g x).symm]
      rfl

theorem aimed_light (s : State) (g : Fin 2) (t : Tab 4 Nat) (k : Fin 4) : (s.aimed g t).light (groupChan g k)
    = (s.light (groupChan g k)).retarget (Item.fadeMs s.seq.values) (t.get k) :=
  aims_light g t fin4 (by decide) s (by decide +revert)

theorem aimed_other (s : State) (g : Fin 2) (t : Tab 4 Nat) {ch : Fin 8} (h : groupOf ch ≠ g) :
    (s.aimed g t).light ch = s.light ch :=
  aims_other g t fin4 s fun k _ e => h (e ▸ groupOf_groupChan g k)

/-- Taking targets changes the channels alone. -/
theorem aimed_eq (s : State) (g : Fin 2) (t : Tab 4 Nat) :
    s.aimed g t = s.setLights { s.lights with chans := (s.aimed g t).lights.chans } := rfl

theorem retarget_target (fade : Nat) (l : Light) (t : Nat) : (l.retarget fade t).target = t := by
  unfold Light.retarget
  dsimp only
  split
  · next h => exact h.symm
  · split
    · rfl
    · split <;> rfl

/-- A group's targets taken: the channels come to them, and its claim follows where the group settles (R151, R152). -/
theorem takeTargets_light {s : State} (o : s.Ok) (g : Fin 2) (t : Tab 4 Nat) (ch : Fin 8) :
    (s.takeTargets g t).light ch = (s.aimed g t).light ch :=
  light_congr (by rw [takeTargets_eq, (amend_asks (s.aimed g t) g ⟨o.checked, o.lanes, o.claims, o.dropped, o.changes⟩).2.lights]) ch

/-! ### A group's ask (R152) -/

/-- A light group's claim without a contest: Idle, or Held at rank 0 or 6 (R30, R51). -/
structure Claim.lit (c : Claim) : Prop where
  state : c.st = .idle ∨ c.st = .held
  calm : c.contesting = false
  rank : c.st = .held → c.rank = 0 ∨ c.rank = 6

theorem loadLights_ge (g : Fin 2) : 5 ≤ (loadLights g).val := by decide +revert

theorem Claim.lit.askRank {g : Fin 2} {c : Claim} (h : c.lit) (held : c.st = .held) : askRank (loadLights g) c = 6 := by
  have light : isLightLoad (loadLights g) = true := by decide +revert
  unfold Machine.askRank
  rcases h.rank held with rank | rank
  · rw [if_pos ⟨held, rank, light⟩]
  · rw [if_neg (by simp [rank]), rank]

theorem Claim.lit.no_raise {c : Claim} (h : c.lit) (held : c.st = .held) : c.raise = false := by
  simpa [Claim.contesting, held] using h.calm

section
variable {s : State} (o : s.Ok) {g : Fin 2} {a : Nat} (lit : (s.claim (loadLights g)).lit)
  (low : (s.claim (loadLights g)).held < 30000) (more : (s.claim (loadLights g)).held < a)
include o lit low more

/-- A group's ask for more than its claim holds begins a contest at the old amount where the pre-test at rank 6 passes. -/
theorem askGroup_passes (passes : s.passes (loadLights g) 6 (min a 30000) = true) :
    (s.askGroup g a).2 = .none ∧ ((s.askGroup g a).1.claim (loadLights g)).contesting = true
      ∧ ((s.askGroup g a).1.claim (loadLights g)).announcing = true
      ∧ ((s.askGroup g a).1.claim (loadLights g)).held = (s.claim (loadLights g)).held
      ∧ ((s.askGroup g a).1.claim (loadLights g)).asked = min a 30000 := by
  unfold State.askGroup
  by_cases held : (s.claim (loadLights g)).st = .held
  · have raised := raise_claim o (a := a) held (by omega) (.inr (loadLights_ge g))
    dsimp only at raised
    rw [lit.askRank held, if_pos passes] at raised
    rw [if_pos held, raised.1, raised.2]
    refine ⟨rfl, ?_, rfl, rfl, rfl⟩
    simp [Claim.contesting, held]
  · have idle := lit.state.resolve_right held
    have away : (s.claim (loadLights g)).drawing = false := by simp [Claim.drawing, idle]
    have asked := ask_passes o a true (by omega) away (by decide) passes
    have none : (s.claim (loadLights g)).held = 0 := by
      obtain ⟨-, -, -, zero, -⟩ := o.claim (loadLights g)
      exact zero away
    rw [if_neg held, asked.1, asked.2]
    exact ⟨rfl, rfl, rfl, none.symm, rfl⟩

/-- Where it fails the ask is refused, and nothing that a pre-test of the group looks at has changed. -/
theorem askGroup_fails (fails : s.passes (loadLights g) 6 (min a 30000) = false) :
    (s.askGroup g a).2 = .refused ∧ ((s.askGroup g a).1.claim (loadLights g)).lit
      ∧ ((s.askGroup g a).1.claim (loadLights g)).held = (s.claim (loadLights g)).held
      ∧ Weighs (loadLights g) s (s.askGroup g a).1 := by
  unfold State.askGroup
  by_cases held : (s.claim (loadLights g)).st = .held
  · have calm : s.abandonRaise (loadLights g) = s := if_neg (by simp [lit.no_raise held])
    have eq := raise_eq o (a := a) held (by omega) (.inr (loadLights_ge g))
    rw [lit.askRank held, if_neg (by simp [fails]), calm] at eq
    rw [if_pos held, eq]
    exact ⟨rfl, lit, rfl, Weighs.refl _ s⟩
  · have idle := lit.state.resolve_right held
    have away : (s.claim (loadLights g)).drawing = false := by simp [Claim.drawing, idle]
    have none : (s.claim (loadLights g)).held = 0 := by
      obtain ⟨-, -, -, zero, -⟩ := o.claim (loadLights g)
      exact zero away
    rw [if_neg held, ask_idle_eq o 6 a true (by omega) away, if_neg (by decide), if_neg (by simp [fails]), if_pos rfl]
    have same : s.abandonContest (loadLights g) = s := by
      unfold State.abandonContest
      exact if_neg (by simp [idle])
    dsimp only
    rw [same, claim_setClaim_self]
    refine ⟨rfl, ⟨.inl rfl, rfl, nofun⟩, none.symm, Weighs.setClaim s _ _⟩

end

/-! ### The end of a group's request (R152, R153) -/

theorem finishRequest_eq (s : State) (req : Nat) : s.finishRequest req
    = s.setStatus { s.status with outcome := (s.finishRequest req).status.outcome } := by
  unfold State.finishRequest State.reviseOutcome
  split
  · rfl
  · split <;> rfl

/-- The state in which a group's request has ended with its targets taken. -/
structure RequestTaken (s t : State) (g : Fin 2) (r : GroupReq) : Prop where
  group : t.group g = { pending := none, result := resultOf r.scale }
  light : ∀ k, t.light (groupChan g k) = (s.light (groupChan g k)).retarget (Item.fadeMs s.seq.values) (r.trial.get k)
  claim : t.claim (loadLights g) = (s.claim (loadLights g)).amended (t.settled g) (t.targetAmount g)

theorem requestTaken_taken {s : State} (o : s.Ok) (g : Fin 2) (r : GroupReq) : RequestTaken s (s.requestTaken g r) g r := by
  unfold State.requestTaken
  rw [finishRequest_eq]
  generalize s_eq : s.setGroup g { pending := none, result := resultOf r.scale } = u
  have ou : u.Ok := by
    rw [← s_eq]
    exact ⟨o.checked, o.lanes, o.claims, o.dropped, o.changes⟩
  have oa : (u.aimed g r.trial).Ok := ⟨ou.checked, ou.lanes, ou.claims, ou.dropped, ou.changes⟩
  have asks := (amend_asks (u.aimed g r.trial) g oa).2
  have lights : (u.takeTargets g r.trial).lights = (u.aimed g r.trial).lights := asks.lights
  have seq : (u.takeTargets g r.trial).seq = (u.aimed g r.trial).seq := asks.seq
  refine ⟨?_, fun k => ?_, ?_⟩
  · show (u.takeTargets g r.trial).lights.groups.get g = _
    rw [lights]
    show u.lights.groups.get g = _
    rw [← s_eq]
    exact Tab.get_set_self _ _ _
  · show (u.takeTargets g r.trial).light _ = _
    rw [light_congr (congrArg Lights.chans lights), aimed_light, ← s_eq]
    rfl
  · show (u.takeTargets g r.trial).claim _ = (s.claim _).amended ((u.takeTargets g r.trial).settled g)
      ((u.takeTargets g r.trial).targetAmount g)
    have settled : (u.takeTargets g r.trial).settled g = (u.aimed g r.trial).settled g := by
      unfold State.settled State.light State.group
      rw [lights]
    have target : (u.takeTargets g r.trial).targetAmount g = (u.aimed g r.trial).targetAmount g := by
      unfold State.targetAmount State.light
      rw [lights, seq]
    have same : (u.aimed g r.trial).claim (loadLights g) = s.claim (loadLights g) := by
      rw [aimed_eq, ← s_eq]
      rfl
    rw [settled, target, takeTargets_eq, amend_claim oa, same]

/-- The state in which a group's request has ended with no scale that fits. -/
structure RequestRefused (s t : State) (g : Fin 2) : Prop where
  group : t.group g = { pending := none, result := .refused }
  light : ∀ ch, t.light ch = s.light ch
  claim : t.claim (loadLights g) = (s.claim (loadLights g)).amended (t.settled g) (t.targetAmount g)

theorem requestRefused_refused {s : State} (o : s.Ok) (g : Fin 2) (r : GroupReq) :
    RequestRefused s (s.requestRefused g r) g := by
  unfold State.requestRefused
  rw [finishRequest_eq]
  generalize s_eq : s.setGroup g { pending := none, result := .refused } = u
  have ou : u.Ok := by
    rw [← s_eq]
    exact ⟨o.checked, o.lanes, o.claims, o.dropped, o.changes⟩
  have asks := (amend_asks u g ou).2
  refine ⟨?_, fun ch => ?_, ?_⟩
  · show (u.amend g).lights.groups.get g = _
    rw [asks.lights, ← s_eq]
    exact Tab.get_set_self _ _ _
  · show (u.amend g).light ch = _
    rw [light_congr (congrArg Lights.chans asks.lights), ← s_eq]
    rfl
  · show (u.amend g).claim _ = (s.claim _).amended ((u.amend g).settled g) ((u.amend g).targetAmount g)
    have settled : (u.amend g).settled g = u.settled g := by
      unfold State.settled State.light State.group
      rw [asks.lights]
    have target : (u.amend g).targetAmount g = u.targetAmount g := by
      unfold State.targetAmount State.light
      rw [asks.lights, asks.seq]
    rw [settled, target, amend_claim ou, ← s_eq]
    rfl

/-! ### Scaled requests (R153) -/

/-- What a scale's request amounts to. -/
def State.scaleCover (s : State) (g : Fin 2) (want : Tab 4 Nat) (x : Nat) : Nat := s.covering g (s.scaledTargets g want x)

/-- A scale's request fits what the claim holds, or passes the pre-test. -/
def State.scaleFits (s : State) (g : Fin 2) (want : Tab 4 Nat) (x : Nat) : Bool :=
  decide (s.scaleCover g want x ≤ s.groupHeld g) || s.passes (loadLights g) 6 (min (s.scaleCover g want x) 30000)

/-- Nothing that a group's scaled requests look at has changed from `s` to `u`. -/
structure ScaleAlike (g : Fin 2) (s u : State) : Prop where
  ok : u.Ok
  chans : u.lights.chans = s.lights.chans
  weighs : Weighs (loadLights g) s u
  lit : (u.claim (loadLights g)).lit
  held : (u.claim (loadLights g)).held = (s.claim (loadLights g)).held

section
variable {g : Fin 2} {s u : State}

theorem ScaleAlike.cover (h : ScaleAlike g s u) (want : Tab 4 Nat) (x : Nat) : u.scaleCover g want x = s.scaleCover g want x := by
  rw [State.scaleCover, scaledTargets_congr h.chans, covering_congr h.chans h.weighs.seq]
  rfl

theorem ScaleAlike.setGroup (h : ScaleAlike g s u) (x : Group) : ScaleAlike g s (u.setGroup g x) where
  ok := ⟨h.ok.checked, h.ok.lanes, h.ok.claims, h.ok.dropped, h.ok.changes⟩
  chans := h.chans
  weighs := h.weighs.trans (Weighs.setLights u _ _)
  lit := h.lit
  held := h.held

/-- Trying one scale: its targets are taken, its contest begins, or the next is tried in a state alike. -/
theorem tryScales_cons (r : GroupReq) (x : Nat) (xs : List Nat) (u : State) : tryScales g r (x :: xs) u =
    (let r' := { r with trial := u.scaledTargets g r.want x, scale := x }
    let a := (u.setGroup g { u.group g with pending := some r' }).askGroup g (u.scaleCover g r.want x)
    if u.scaleCover g r.want x ≤ u.groupHeld g then u.requestTaken g r'
    else if a.2 = .refused then tryScales g r' xs a.1
    else if a.2 = .granted then a.1.requestTaken g r' else a.1) := by
  rw [tryScales]
  dsimp only
  unfold State.scaleCover
  split
  · rfl
  · split
    · next e => simp [e]
    · next e => simp [e]
    · next n m e => simp only [e]; rw [if_neg n, if_neg m]

/-- The request at a scale (R153). -/
def GroupReq.scaled (r : GroupReq) (s : State) (g : Fin 2) (x : Nat) : GroupReq :=
  { r with trial := s.scaledTargets g r.want x, scale := x }

section
variable (h : ScaleAlike g s u) (low : (s.claim (loadLights g)).held < 30000) (r : GroupReq)
include h low

/-- A scale that does not fit leads to the next one. -/
theorem tryScales_skip {x : Nat} {xs : List Nat} (fails : s.scaleFits g r.want x = false) :
    ∃ v, ScaleAlike g s v ∧ tryScales g r (x :: xs) u = tryScales g (r.scaled s g x) xs v := by
  simp only [State.scaleFits, Bool.or_eq_false_iff, decide_eq_false_iff_not, not_le] at fails
  have trial : u.scaledTargets g r.want x = s.scaledTargets g r.want x := scaledTargets_congr h.chans g _ x
  have cover := h.cover r.want x
  have groupHeld : u.groupHeld g = s.groupHeld g := h.held
  rw [tryScales_cons, cover, groupHeld, trial]
  have alike := h.setGroup { u.group g with pending := some (r.scaled s g x) }
  dsimp only
  rw [if_neg (by omega)]
  change ∃ v, _ ∧ (if ((u.setGroup g { u.group g with pending := some (r.scaled s g x) }).askGroup g _).2 = .refused
    then _ else _) = _
  obtain ⟨refused, lit, held, weighs⟩ := askGroup_fails (a := s.scaleCover g r.want x) alike.ok alike.lit
    (by rw [alike.held]; exact low) (by rw [alike.held]; exact fails.1) (by rw [alike.weighs.passes]; exact fails.2)
  rw [if_pos refused]
  refine ⟨_, ⟨(askGroup_asks _ g _ alike.ok).1, ?_, alike.weighs.trans weighs, lit, held.trans alike.held⟩, rfl⟩
  rw [(askGroup_asks _ g _ alike.ok).2.lights]
  exact alike.chans

/-- A scale that the claim's held amount covers is taken at once. -/
theorem tryScales_take {x : Nat} {xs : List Nat} (covers : s.scaleCover g r.want x ≤ s.groupHeld g) :
    tryScales g r (x :: xs) u = u.requestTaken g (r.scaled s g x) := by
  have trial : u.scaledTargets g r.want x = s.scaledTargets g r.want x := scaledTargets_congr h.chans g _ x
  have cover := h.cover r.want x
  have groupHeld : u.groupHeld g = s.groupHeld g := h.held
  rw [tryScales_cons, cover, groupHeld, trial]
  exact if_pos covers

/-- One above it that passes the pre-test begins its contest. -/
theorem tryScales_contest {x : Nat} {xs : List Nat} (more : s.groupHeld g < s.scaleCover g r.want x)
    (passes : s.passes (loadLights g) 6 (min (s.scaleCover g r.want x) 30000) = true) :
    ((tryScales g r (x :: xs) u).group g).pending = some (r.scaled s g x)
      ∧ ((tryScales g r (x :: xs) u).claim (loadLights g)).contesting = true
      ∧ ((tryScales g r (x :: xs) u).claim (loadLights g)).announcing = true
      ∧ ((tryScales g r (x :: xs) u).claim (loadLights g)).held = s.groupHeld g
      ∧ ((tryScales g r (x :: xs) u).claim (loadLights g)).asked = min (s.scaleCover g r.want x) 30000
      ∧ (tryScales g r (x :: xs) u).lights.chans = s.lights.chans := by
  have trial : u.scaledTargets g r.want x = s.scaledTargets g r.want x := scaledTargets_congr h.chans g _ x
  have cover := h.cover r.want x
  have groupHeld : u.groupHeld g = s.groupHeld g := h.held
  have alike := h.setGroup { u.group g with pending := some (r.scaled s g x) }
  obtain ⟨none, contesting, announcing, held, asked⟩ := askGroup_passes (a := s.scaleCover g r.want x) alike.ok alike.lit
    (by rw [alike.held]; exact low) (by rw [alike.held]; exact more) (by rw [alike.weighs.passes]; exact passes)
  have asks := (askGroup_asks _ g (s.scaleCover g r.want x) alike.ok).2
  have eq : tryScales g r (x :: xs) u
      = ((u.setGroup g { u.group g with pending := some (r.scaled s g x) }).askGroup g (s.scaleCover g r.want x)).1 := by
    rw [tryScales_cons, cover, groupHeld, trial]
    dsimp only
    rw [if_neg (by omega)]
    change (if ((u.setGroup g { u.group g with pending := some (r.scaled s g x) }).askGroup g _).2 = .refused
      then _ else _) = _
    rw [if_neg (by rw [none]; decide)]
    exact if_neg (by
      change ¬ ((u.setGroup g { u.group g with pending := some (r.scaled s g x) }).askGroup g _).2 = .granted
      rw [none]
      decide)
  rw [eq]
  refine ⟨?_, contesting, announcing, held.trans alike.held, asked, by rw [asks.lights]; exact alike.chans⟩
  rw [State.group, asks.lights]
  exact congrArg Group.pending (Tab.get_set_self _ _ _)

end

/-- The scales tried in turn: what the first that fits leads to, and what none does (R153). -/
structure Scaled (g : Fin 2) (s t : State) (r : GroupReq) (l : List Nat) : Prop where
  none : (∀ x ∈ l, s.scaleFits g r.want x = false) → ∃ v r', ScaleAlike g s v ∧ t = v.requestRefused g r'
  take : ∀ x, l.find? (s.scaleFits g r.want) = some x → s.scaleCover g r.want x ≤ s.groupHeld g →
    ∃ v, ScaleAlike g s v ∧ t = v.requestTaken g (r.scaled s g x)
  contest : ∀ x, l.find? (s.scaleFits g r.want) = some x → s.groupHeld g < s.scaleCover g r.want x →
    (t.group g).pending = some (r.scaled s g x) ∧ (t.claim (loadLights g)).contesting = true
      ∧ (t.claim (loadLights g)).announcing = true ∧ (t.claim (loadLights g)).held = s.groupHeld g
      ∧ (t.claim (loadLights g)).asked = min (s.scaleCover g r.want x) 30000 ∧ t.lights.chans = s.lights.chans

theorem tryScales_scaled (h : ScaleAlike g s u) (low : (s.claim (loadLights g)).held < 30000) (r : GroupReq) (l : List Nat) :
    Scaled g s (tryScales g r l u) r l := by
  induction l generalizing u r with
  | nil => exact ⟨fun _ => ⟨u, r, h, rfl⟩, nofun, nofun⟩
  | cons x xs ih =>
    cases fits : s.scaleFits g r.want x with
    | false =>
      obtain ⟨v, alike, eq⟩ := tryScales_skip h low r (xs := xs) fits
      obtain ⟨none, take, contest⟩ := ih alike (r.scaled s g x)
      have find : (x :: xs).find? (s.scaleFits g r.want) = xs.find? (s.scaleFits g r.want) := by
        rw [List.find?_cons, fits]
      rw [eq]
      refine ⟨fun all => none fun y m => all y (List.mem_cons_of_mem x m), fun y e => ?_, fun y e => ?_⟩
      · rw [find] at e
        exact take y e
      · rw [find] at e
        exact contest y e
    | true =>
      have find : (x :: xs).find? (s.scaleFits g r.want) = some x := by rw [List.find?_cons, fits]
      refine ⟨fun all => absurd (all x List.mem_cons_self) (by simp [fits]), fun y e covers => ?_, fun y e more => ?_⟩
      · obtain rfl := Option.some.inj (find.symm.trans e)
        exact ⟨u, h, tryScales_take h low r covers⟩
      · obtain rfl := Option.some.inj (find.symm.trans e)
        refine tryScales_contest h low r more ?_
        simpa [State.scaleFits, more.not_ge] using fits

theorem get_scaledTargets (s : State) (g : Fin 2) (want : Tab 4 Nat) (x : Nat) (k : Fin 4) :
    (s.scaledTargets g want x).get k = if (s.light (groupChan g k)).target < want.get k then
      (s.light (groupChan g k)).target + (want.get k - (s.light (groupChan g k)).target) * x / 1000 else want.get k :=
  get_fin4 _ k

/-- The request goes on to its scaled requests, in the words of R152 and R153. -/
theorem Scaled.scalesDown {t : State} {r : GroupReq} {scale : Nat}
    (h : Scaled g s t r ([750, 500, 250].filter (· < scale))) : s.scalesDown t g r.want scale := by
  obtain ⟨none, take, contest⟩ := h
  unfold State.scalesDown
  have fits : ∀ x, (fin4.map fun k =>
      let m := max (s.light (groupChan g k)).level (let now := (s.light (groupChan g k)).target
        if now < r.want.get k then now + (r.want.get k - now) * x / 1000 else r.want.get k)
      if m = 0 then 0 else max 1 (Item.lightDraw s.seq.values (groupChan g k) * (m * m / 1000) / 1000)).sum
        = s.scaleCover g r.want x := fun x => rfl
  dsimp only at fits ⊢
  simp only [fits]
  split
  · next e =>
    have all : ∀ x ∈ [750, 500, 250].filter (· < scale), s.scaleFits g r.want x = false := fun x m => by
      rw [← Bool.not_eq_true]
      exact List.find?_eq_none.mp e x m
    obtain ⟨v, r', alike, rfl⟩ := none all
    obtain ⟨group, light, claim⟩ := requestRefused_refused alike.ok g r'
    refine ⟨by rw [group], by rw [group], ?_, fun k => ?_⟩
    · rw [claim]
      exact Claim.amended_calm alike.lit.calm _ _
    · rw [light, light_congr alike.chans]
  · next x e =>
    have first : ([750, 500, 250].filter (· < scale)).find? (s.scaleFits g r.want) = some x := e
    split
    · next covers =>
      obtain ⟨v, alike, rfl⟩ := take x first covers
      obtain ⟨group, light, claim⟩ := requestTaken_taken alike.ok g (r.scaled s g x)
      refine ⟨by rw [group], by rw [group]; rfl, ?_, fun k => ?_⟩
      · rw [claim]
        exact Claim.amended_calm alike.lit.calm _ _
      · rw [light, retarget_target]
        exact get_scaledTargets s g r.want x k
    · next more =>
      obtain ⟨pending, contesting, announcing, held, asked, chans⟩ := contest x first (Nat.lt_of_not_le more)
      exact ⟨⟨_, pending, rfl, rfl, get_scaledTargets s g r.want x⟩, contesting, announcing, held, asked,
        fun k => by rw [light_congr chans]⟩

end

end Sys2Proof.Machine
end

