-- ==== Sys2Proof/Proofs/Lost.lean ====
section
/-! PROOFS. The owner of a contest that a failed frame ends (R38, R94, R111, R153). -/

namespace Sys2Proof.Machine

/-! ### What the owners leave of their own blocks -/

/-- From `s` to `t` the Light Controller has changed its channels and the group `g` alone. -/
structure Lamps (g : Fin 2) (s t : State) : Prop where
  lights : t.lights = { s.lights with chans := t.lights.chans, groups := t.lights.groups }
  groups : ∀ j, j ≠ g → t.group j = s.group j

theorem Lamps.refl (g : Fin 2) (s : State) : Lamps g s s := ⟨rfl, fun _ _ => rfl⟩

theorem Lamps.trans {g : Fin 2} {s t u : State} (h : Lamps g s t) (k : Lamps g t u) : Lamps g s u :=
  ⟨by rw [k.lights, h.lights], fun j n => (k.groups j n).trans (h.groups j n)⟩

theorem Shared.lamps {g : Fin 2} {s t : State} (h : Shared s t) : Lamps g s t := by
  refine ⟨by rw [h.lights], fun j _ => ?_⟩
  unfold State.group
  rw [h.lights]

theorem setGroup_lamps (s : State) (g : Fin 2) (x : Group) : Lamps g s (s.setGroup g x) :=
  ⟨rfl, fun j n => (group_setGroup s g j x).trans (if_neg n.symm)⟩

theorem requestTaken_lamps (s : State) (g : Fin 2) (r : GroupReq) : Lamps g s (s.requestTaken g r) := by
  have aims : ∀ u : State, Lamps g u (u.aimed g r.trial) := fun _ => ⟨rfl, fun _ _ => rfl⟩
  exact (setGroup_lamps s g { pending := none, result := resultOf r.scale }).trans
    ((aims _).trans ((amend_shared _ g).trans (finishRequest_shared _ _)).lamps)

theorem requestRefused_lamps (s : State) (g : Fin 2) (r : GroupReq) : Lamps g s (s.requestRefused g r) :=
  (setGroup_lamps s g _).trans ((amend_shared _ g).trans (finishRequest_shared _ _)).lamps

theorem tryScales_lamps (g : Fin 2) (r : GroupReq) (l : List Nat) (s : State) : Lamps g s (tryScales g r l s) := by
  induction l generalizing r s with
  | nil => exact requestRefused_lamps s g r
  | cons x xs ih =>
    have asked : ∀ r' a, Lamps g s ((s.setGroup g { s.group g with pending := some r' }).askGroup g a).1 := fun r' a =>
      (setGroup_lamps s g _).trans (askGroup_shared _ g a).lamps
    rw [tryScales_cons]
    dsimp only
    split
    · exact requestTaken_lamps s g _
    · split
      · exact (asked _ _).trans (ih _ _)
      · split
        · exact (asked _ _).trans (requestTaken_lamps _ g _)
        · exact asked _ _

/-- A change of the courtesy light that waits does so still where it finds a request pending in its group, and there is
nothing to do where none waits. -/
theorem courtesyResumes_none {s : State} (h : s.lights.due = .none) : s.courtesyResumes = s := by
  unfold State.courtesyResumes
  split
  · rfl
  · exact if_pos h

theorem courtesyResumes_waits {s : State} {ch : Fin 8} (named : Item.courtesy s.seq.values = some ch)
    (pending : (s.group (groupOf ch)).pending.isSome = true) : s.courtesyResumes = s := by
  unfold State.courtesyResumes
  rw [named]
  dsimp only
  split
  · rfl
  · unfold State.courtesyChange
    rw [if_pos pending]
    rfl

/-- The demand path leaves the cycle, what is owed, the frost-demand flag and the due time. -/
theorem demandFollows_cycle (s : State) : let w := s.demandFollows.water
    w.cycle = s.water.cycle ∧ w.owed = s.water.owed ∧ w.demand = s.water.demand ∧ w.dueTimer = s.water.dueTimer
      ∧ w.dueOnRun = s.water.dueOnRun ∧ w.circTimer = s.water.circTimer := by
  have released : s.pumpReleased.water = { s.water with pump := false, runawayTimer := none } :=
    (release_shared _ _).water
  have asked : ∀ a b, (s.ask loadPump 5 a b).1.water = s.water := fun a b => (ask_shared _ _ _ _ _).water
  unfold State.demandFollows
  dsimp only
  split
  · unfold State.pumpFollows
    split
    · exact ⟨rfl, rfl, rfl, rfl, rfl, rfl⟩
    · split
      · split
        · simp only [State.setWater, asked, and_self]
        · exact ⟨rfl, rfl, rfl, rfl, rfl, rfl⟩
      · split
        · exact ⟨rfl, rfl, rfl, rfl, rfl, rfl⟩
        · simp only [State.setWater, released, and_self]
  · exact ⟨rfl, rfl, rfl, rfl, rfl, rfl⟩

/-- A cycle that did not circulate is postponed without word to the Climate Controller (R94). -/
theorem cyclePostponed_eq {s : State} (calm : s.water.demand = false) : s.cyclePostponed
    = ((s.setWater { s.water with owed := min 4 (s.water.owed + 1) }).timing
        (Item.frostIntervalMs s.seq.values)).demandFollows := by
  have none : s.setDemand false = s := if_pos calm
  unfold State.cyclePostponed
  rw [none]

theorem cyclePostponed_cycle {s : State} (calm : s.water.demand = false) : let w := s.cyclePostponed.water
    w.cycle = .timing ∧ w.owed = min 4 (s.water.owed + 1) ∧ w.demand = false
      ∧ w.dueTimer = some (Item.frostIntervalMs s.seq.values) ∧ w.dueOnRun = false ∧ w.circTimer = none := by
  rw [cyclePostponed_eq calm]
  obtain ⟨cycle, owed, demand, due, run, circ⟩ := demandFollows_cycle
    ((s.setWater { s.water with owed := min 4 (s.water.owed + 1) }).timing (Item.frostIntervalMs s.seq.values))
  exact ⟨cycle, owed, demand.trans calm, due, run, circ⟩

/-! ### One contest announced (R38) -/

/-- A failed frame that announces no contest does nothing. -/
theorem reportFailed_mute {s : State} {l : List Tagged} (h : ∀ t ∈ l, ∀ j, ¬ (s.claim j).announcedBy j t) :
    s.reportFailed l = s := by
  induction l with
  | nil => rfl
  | cons t l ih =>
    have skip : s.failsOne t = s := by
      unfold State.failsOne
      cases named : t.contestOf with
      | none => rfl
      | some j =>
        rw [Option.elim_some, announceFailed_other named (h t List.mem_cons_self j)]
        rfl
    rw [reportFailed_cons, skip]
    exact ih fun x m => h x (List.mem_cons_of_mem t m)

/-- A failed frame that announces one contest alone, whose records have been handed over with numbers given before: the claim
has lost it, and its owner is told once. -/
theorem reportFailed_one {s : State} {l : List Tagged} {id : Fin 7} (o : s.Ok)
    (marks : ∀ j, (s.claim j).announcing = true → (s.claim j).contesting = true)
    (old : ∀ t ∈ l, t.tag < s.broker.nextSerial) (announced : ∃ t ∈ l, (s.claim id).announcedBy id t)
    (only : ∀ j, (∃ t ∈ l, (s.claim j).announcedBy j t) → j = id) :
    s.reportFailed l = (s.setClaim id (s.claim id).lose).report id (s.claim id).lossReply := by
  induction l with
  | nil => obtain ⟨t, m, -⟩ := announced; cases m
  | cons t l ih =>
    rw [reportFailed_cons]
    by_cases now : (s.claim id).announcedBy id t
    · have first : s.failsOne t = (s.setClaim id (s.claim id).lose).report id (s.claim id).lossReply := by
        obtain ⟨contesting, announcing, tag, serial, subject⟩ := now
        rw [State.failsOne, contestOf_eq_some.mpr ⟨tag, subject⟩, Option.elim_some, State.announceFailed, if_pos (by simp [contesting, announcing, serial])]
      rw [first]
      have lost : (s.setClaim id (s.claim id).lose).Ok := (setClaim_calm s id _ (Claim.lose_fits (o.claim id)) o).1
      obtain ⟨n, w⟩ := waitWithin_exists (s.setClaim id (s.claim id).lose)
      obtain ⟨-, -, tended⟩ := report_tends (k := told) (fun _ h => h) _ id (s.claim id).lossReply (fun _ _ => trivial) lost w
      refine reportFailed_mute fun x m j a => ?_
      obtain ⟨-, announcing, tag, serial, subject⟩ := a
      rcases tended.stands.fresh.claims j announcing with ⟨before, same⟩ | new
      · by_cases e : j = id
        · subst e
          rw [claim_setClaim_self, Claim.lose_mute] at before
          cases before
        · rw [claim_setClaim_ne s _ e] at before same
          refine e (only j ⟨x, List.mem_cons_of_mem t m, marks j before, before, tag, ?_, subject⟩)
          rw [serial, same]
      · have given := old x (List.mem_cons_of_mem t m)
        rw [serial] at given
        exact absurd given (Nat.not_lt_of_le new)
    · have skip : s.failsOne t = s := by
        unfold State.failsOne
        cases named : t.contestOf with
        | none => rfl
        | some j =>
          rw [Option.elim_some, announceFailed_other named]
          · rfl
          · intro a
            obtain rfl := only j ⟨t, List.mem_cons_self, a⟩
            exact now a
      rw [skip]
      refine ih (fun x m => old x (List.mem_cons_of_mem t m)) ?_ fun j ⟨x, m, a⟩ => only j ⟨x, List.mem_cons_of_mem t m, a⟩
      obtain ⟨x, m, a⟩ := announced
      refine ⟨x, (List.mem_cons.mp m).resolve_left ?_, a⟩
      rintro rfl
      exact now a

/-- The counts of a failed frame that is not the eighth in a row (R167). -/
theorem countFailed_eq (s : State) (probe : Bool) (h : s.bus.failed + 1 < 8 ∨ s.bus.lineFault = true) :
    s.countFailed probe = s.setBus { s.bus with
      failed := min 8 (s.bus.failed + 1), probeCount := if probe = true then 0 else s.bus.probeCount } := by
  unfold State.countFailed
  dsimp only
  refine if_neg ?_
  rintro ⟨eight, none⟩
  rcases h with h | h
  · have : min 8 (s.bus.failed + 1) = 8 := eight
    omega
  · exact none h

/-- The heater's contest lost with frost service active: a standing Ask at rank 1 (R111). -/
theorem heaterStands_frost {s : State} (o : s.Ok) (wanted : s.heaterWanted = true) (frost : s.climate.frost = true)
    (draw : 1 ≤ Item.startDraw s.seq.values ∧ Item.startDraw s.seq.values ≤ 30000)
    (away : (s.claim loadHeater).drawing = false) :
    let d := s.heaterStands.claim loadHeater
    d.rank = 1 ∧ d.single = false ∧ d.asked = Item.startDraw s.seq.values ∧ s.heaterStands.climate = s.climate
      ∧ d.st = if s.passes loadHeater 1 (Item.startDraw s.seq.values) = true then .contest else .waiting := by
  have rank : s.heaterRank = 1 := if_pos frost
  have amount : min (Item.startDraw s.seq.values) 30000 = Item.startDraw s.seq.values := min_eq_left draw.2
  unfold State.heaterStands
  rw [if_pos wanted, rank]
  have climate : (s.ask loadHeater 1 (Item.startDraw s.seq.values) false).1.climate = s.climate :=
    (ask_shared s loadHeater 1 (Item.startDraw s.seq.values) false).climate
  by_cases passes : s.passes loadHeater 1 (Item.startDraw s.seq.values) = true
  · obtain ⟨-, claim⟩ := ask_passes o (Item.startDraw s.seq.values) false draw.1 away (rank := 1) (by decide)
      (by rw [amount]; exact passes)
    rw [claim, if_pos passes, amount]
    exact ⟨rfl, rfl, rfl, climate, rfl⟩
  · obtain ⟨-, claim⟩ := ask_fails o (Item.startDraw s.seq.values) false draw.1 away (rank := 1) (by decide)
      (by rw [amount]; simpa using passes) rfl
    rw [claim, if_neg passes, amount]
    exact ⟨rfl, rfl, rfl, climate, rfl⟩

/-! ### The owner of a contest lost, in a state that fits (R38) -/

/-- What the failure of a frame leads to at the owner of the one contest it announces (R38, R94, R111, R153). -/
structure Lost (s t : State) (id : Fin 7) : Prop where
  others : ∀ j, j ≠ id → (s.claim j).st ≠ .waiting → t.claim j = s.claim j
  pump : id = loadPump → s.water.cycle = .asking → t.water.cycle = .timing
    ∧ t.water.owed = min 4 (s.water.owed + 1) ∧ t.water.demand = false
    ∧ t.water.dueTimer = some (Item.frostIntervalMs s.seq.values)
  heater : id = loadHeater → (s.claim id).single = true ∨ (s.claim id).rank = 4 → s.climate.frost = true →
    let d := t.claim id
    d.rank = 1 ∧ d.single = false ∧ d.asked = s.seq.values.get 26 ∧ t.climate.heater = .off
      ∧ d.st = if s.passes id 1 (s.seq.values.get 26) = true then .contest else .waiting
  lights : ∀ g r, id = loadLights g → (s.group g).pending = some r → s.lights.due = .none → (s.claim id).held < 30000 →
    s.scalesDown t g r.want r.scale

section
variable {s : State} (fits : s.Fits)
include fits

/-- A contest of another load than a light group is its claim's own (R42). -/
theorem contest_of_contesting {id : Fin 7} (contesting : (s.claim id).contesting = true) (low : id.val < 5) :
    (s.claim id).st = .contest := by
  obtain ⟨-, -, serves⟩ := fits.claims
  obtain ⟨-, -, raises, -⟩ := serves id
  simp only [Claim.contesting, Bool.or_eq_true, Bool.and_eq_true, beq_iff_eq] at contesting
  rcases contesting with contest | ⟨-, raise⟩
  · exact contest
  · exact absurd (raises raise) (by omega)

/-- A claim that has lost its contest draws what it drew before. -/
theorem lose_held {id : Fin 7} (contesting : (s.claim id).contesting = true) :
    (s.claim id).lose.held = (s.claim id).held ∧ (s.claim id).lose.contesting = false := by
  obtain ⟨-, -, -, zero, -⟩ := fits.sound.ok.claim id
  unfold Claim.lose
  by_cases held : (s.claim id).st = .held
  · rw [if_pos held]
    exact ⟨rfl, by simp [Claim.toHeld, Claim.contesting]⟩
  · rw [if_neg held]
    have contest : (s.claim id).st = .contest := by
      simpa [Claim.contesting, held] using contesting
    have none : (s.claim id).held = 0 := zero (by simp [Claim.drawing, contest])
    split
    · exact ⟨none.symm, rfl⟩
    · exact ⟨none.symm, rfl⟩

theorem lost_heater (contesting : (s.claim loadHeater).contesting = true) :
    Lost s ((s.setClaim loadHeater (s.claim loadHeater).lose).report loadHeater (s.claim loadHeater).lossReply) loadHeater := by
  have contest := contest_of_contesting fits contesting (by decide)
  have o := (setClaim_calm s loadHeater _ (Claim.lose_fits (fits.sound.ok.claim loadHeater)) fits.sound.ok).1
  have weighs := Weighs.setClaim s loadHeater (s.claim loadHeater).lose
  obtain ⟨n, w⟩ := waitWithin_exists (s.setClaim loadHeater (s.claim loadHeater).lose)
  obtain ⟨-, -, tended⟩ := report_tends (k := ⟨heard, (· = loadHeater), False, True⟩) (n := n) (fun _ h => h) _ loadHeater
    (s.claim loadHeater).lossReply (fun j m => List.mem_singleton.mp m) o w
  refine ⟨fun j other stands => ?_, nofun, fun _ reason frost => ?_, fun g r e => ?_⟩
  · have same := claim_setClaim_ne s (s.claim loadHeater).lose other
    have stirred := tended.claims j other
    rw [same] at stirred
    exact stirred.resolve_right fun k => stands k.1
  · obtain ⟨-, -, serves⟩ := fits.claims
    obtain ⟨runs, -⟩ := serves loadHeater
    obtain ⟨run, -⟩ := runs (by rw [contest]; decide)
    obtain ⟨-, -, -, -, -, asking, -, -, -, -, -, -, -, -, locked, -⟩ := fits.climate
    obtain ⟨off, asked⟩ := asking (.inl contest)
    have free : s.climate.lockout = false := by
      rw [← Bool.not_eq_true]
      intro l
      rcases locked l with h | h
      · rw [off] at h; cases h
      · rw [off] at h; cases h
    obtain ⟨items, -⟩ := fits.values.1
    have item : inRange 26 (s.seq.values.get 26) := items 26
    have draw : 1 ≤ s.seq.values.get 26 ∧ s.seq.values.get 26 ≤ 30000 := ⟨item.1, item.2.1⟩
    have away : ((s.setClaim loadHeater (s.claim loadHeater).lose).claim loadHeater).drawing = false := by
      rw [claim_setClaim_self, Claim.lose, if_neg (by rw [contest]; decide)]
      split
      · rfl
      · rfl
    have asks : ∀ v : State, v.Ok → Weighs loadHeater s v → v.climate.frost = true → v.climate.lockout = false →
        v.climate.heater = .off → (v.claim loadHeater).drawing = false →
        let d := v.heaterStands.claim loadHeater
        d.rank = 1 ∧ d.single = false ∧ d.asked = s.seq.values.get 26 ∧ v.heaterStands.climate.heater = .off
          ∧ d.st = if s.passes loadHeater 1 (s.seq.values.get 26) = true then .contest else .waiting := by
      intro v ov like frost free off away
      have seq : v.seq = s.seq := like.seq
      have wanted : v.heaterWanted = true := by simp [State.heaterWanted, State.inRun, frost, free, seq]; simpa [State.inRun] using run
      obtain ⟨rank, single, amount, climate, st⟩ := heaterStands_frost ov wanted frost (by rw [seq]; exact draw) away
      rw [like.passes, seq] at st
      rw [seq] at amount
      exact ⟨rank, single, amount, by rw [climate]; exact off, st⟩
    have notHeld : (s.claim loadHeater).st ≠ .held := by rw [contest]; decide
    rcases Bool.eq_false_or_eq_true (s.claim loadHeater).single with single | standing
    · have reply : (s.claim loadHeater).lossReply = .lost := if_pos (.inr single)
      have same : (s.setClaim loadHeater (s.claim loadHeater).lose).report loadHeater (s.claim loadHeater).lossReply
          = ((s.setClaim loadHeater (s.claim loadHeater).lose).setClimate
            { s.climate with tryFailed := true }).heaterStands := by
        rw [reply]
        show State.heaterStands (if s.climate.frost then _ else _) = _
        rw [if_pos frost]
        rfl
      rw [same]
      exact asks _ ⟨o.checked, o.lanes, o.claims, o.dropped, o.changes⟩ (weighs.trans ⟨rfl, rfl, rfl, rfl, rfl, fun _ _ => rfl⟩)
        frost free off away
    · have lose : (s.claim loadHeater).lose = (s.claim loadHeater).toWaiting := by
        rw [Claim.lose, if_neg notHeld, if_neg (by simp [standing])]
      have reply : (s.claim loadHeater).lossReply = .waits := if_neg (by simp [contest, standing])
      have same : (s.setClaim loadHeater (s.claim loadHeater).lose).report loadHeater (s.claim loadHeater).lossReply
          = (s.setClaim loadHeater (s.claim loadHeater).lose).heaterStands := by
        rw [reply]
        refine if_pos ⟨by rw [claim_setClaim_self, lose]; rfl, ?_⟩
        rw [claim_setClaim_self, lose]
        have weak : (s.claim loadHeater).rank = 4 := reason.resolve_left (by simp [standing])
        have strong : (s.setClaim loadHeater (s.claim loadHeater).toWaiting).heaterRank = 1 := if_pos frost
        rw [strong]
        simp [Claim.toWaiting, weak]
      rw [same]
      exact asks _ o weighs frost free off away
  · exact absurd (congrArg Fin.val e) (by decide +revert)

theorem lost_pump (contesting : (s.claim loadPump).contesting = true) :
    Lost s ((s.setClaim loadPump (s.claim loadPump).lose).report loadPump (s.claim loadPump).lossReply) loadPump := by
  have contest := contest_of_contesting fits contesting (by decide)
  have o := (setClaim_calm s loadPump _ (Claim.lose_fits (fits.sound.ok.claim loadPump)) fits.sound.ok).1
  obtain ⟨n, w⟩ := waitWithin_exists (s.setClaim loadPump (s.claim loadPump).lose)
  obtain ⟨-, -, -, -, -, -, -, demand, -, -, -, asks, -⟩ := fits.water
  have others : ∀ t, Tended ⟨heard, (· = loadPump), False, True⟩ n (s.setClaim loadPump (s.claim loadPump).lose) t → ∀ j, j ≠ loadPump →
      (s.claim j).st ≠ .waiting → t.claim j = s.claim j := fun t tended j other stands => by
    have same := claim_setClaim_ne s (s.claim loadPump).lose other
    have stirred := tended.claims j other
    rw [same] at stirred
    exact stirred.resolve_right fun k => stands k.1
  by_cases asking : s.water.cycle = .asking
  · have calm : s.water.demand = false := by
      rw [← Bool.not_eq_true]
      intro d
      have := demand.mp d
      rw [asking] at this
      cases this
    have reply : (s.claim loadPump).lossReply = .lost := if_pos (.inr (asks asking).2)
    have same : (s.setClaim loadPump (s.claim loadPump).lose).report loadPump (s.claim loadPump).lossReply
        = (s.setClaim loadPump (s.claim loadPump).lose).cyclePostponed := by
      rw [reply]
      exact if_pos asking
    rw [same]
    obtain ⟨cycle, owed, demand', due, -⟩ := cyclePostponed_cycle (s := s.setClaim loadPump (s.claim loadPump).lose) calm
    refine ⟨?_, fun _ _ => ⟨cycle, owed, demand', due⟩, nofun, fun g r e => ?_⟩
    · have own : Fact ((⟨heard, (· = loadPump), False, True⟩ : Scope).loads loadPump) := ⟨rfl⟩
      have tends : Tends ⟨heard, (· = loadPump), False, True⟩ n (s.setClaim loadPump (s.claim loadPump).lose)
          (s.setClaim loadPump (s.claim loadPump).lose).cyclePostponed := by
        rw [cyclePostponed_eq (by exact calm)]
        exact (setWater_tends _ _).trans ((timing_tends _ _).trans (demandFollows_tends _))
      exact others _ (tends o w).2.2
    · exact absurd (congrArg Fin.val e) (by decide +revert)
  · have same : (s.setClaim loadPump (s.claim loadPump).lose).report loadPump (s.claim loadPump).lossReply
        = s.setClaim loadPump (s.claim loadPump).lose := by
      unfold Claim.lossReply
      split
      · exact if_neg asking
      · rfl
    rw [same]
    refine ⟨others _ (Tended.refl _ _ _), fun _ a => absurd a asking, nofun, fun g r e => ?_⟩
    exact absurd (congrArg Fin.val e) (by decide +revert)

omit fits in
theorem loadLights_injective {g j : Fin 2} (h : loadLights g = loadLights j) : g = j := by decide +revert

/-- The claim of a light group that has lost its contest. -/
theorem lose_lit {g : Fin 2} (contesting : (s.claim (loadLights g)).contesting = true) :
    (s.claim (loadLights g)).lose.lit := by
  obtain ⟨-, -, serves⟩ := fits.claims
  obtain ⟨runs, -, -, -, -, -, -, -, -, -, lights⟩ := serves (loadLights g)
  obtain ⟨-, single, -⟩ := lights (loadLights_ge g)
  refine ⟨?_, (lose_held fits contesting).2, fun held => ?_⟩
  · unfold Claim.lose
    by_cases held : (s.claim (loadLights g)).st = .held
    · rw [if_pos held]
      exact .inr rfl
    · have contest : (s.claim (loadLights g)).st = .contest := by
        simpa [Claim.contesting, held] using contesting
      rw [if_neg held, if_pos (single contest)]
      exact .inl rfl
  · have rank : (s.claim (loadLights g)).lose.rank = (s.claim (loadLights g)).rank := by
      unfold Claim.lose
      split
      · rfl
      · split
        · rfl
        · rfl
    obtain ⟨-, -, ranks, -⟩ := runs fun idle => by simp [Claim.contesting, idle] at contesting
    have light : loadRanks (loadLights g) = [0, 6] := by
      match g with
      | 0 => rfl
      | 1 => rfl
    rw [light] at ranks
    rw [rank]
    simpa using ranks

theorem lost_lights {g : Fin 2} (contesting : (s.claim (loadLights g)).contesting = true) :
    Lost s ((s.setClaim (loadLights g) (s.claim (loadLights g)).lose).report (loadLights g)
      (s.claim (loadLights g)).lossReply) (loadLights g) := by
  have o := (setClaim_calm s (loadLights g) _ (Claim.lose_fits (fits.sound.ok.claim (loadLights g))) fits.sound.ok).1
  obtain ⟨n, w⟩ := waitWithin_exists (s.setClaim (loadLights g) (s.claim (loadLights g)).lose)
  obtain ⟨-, -, groups, -, waits⟩ := fits.lights
  obtain ⟨-, pend, -⟩ := groups g
  obtain ⟨pending, -⟩ := pend contesting
  obtain ⟨r, pending⟩ := Option.isSome_iff_exists.mp pending
  have reply : (s.claim (loadLights g)).lossReply = .lost := by
    obtain ⟨-, -, serves⟩ := fits.claims
    obtain ⟨-, -, -, -, -, -, -, -, -, -, lights⟩ := serves (loadLights g)
    obtain ⟨-, single, -⟩ := lights (loadLights_ge g)
    refine if_pos ?_
    by_cases held : (s.claim (loadLights g)).st = .held
    · exact .inl held
    · exact .inr (single (by simpa [Claim.contesting, held] using contesting))
  generalize u_eq : s.setClaim (loadLights g) (s.claim (loadLights g)).lose = u at *
  have same : u.report (loadLights g) (s.claim (loadLights g)).lossReply
      = (tryScales g r ([750, 500, 250].filter (· < r.scale)) u).courtesyResumes := by
    have lost : u.report (loadLights g) .lost = u.lightsLost g := by
      match g with
      | 0 => rfl
      | 1 => rfl
    have group : (u.group g).pending = some r := by rw [← u_eq]; exact pending
    rw [reply, lost, State.lightsLost, group]
  rw [same]
  have alike : ScaleAlike g s u := by
    rw [← u_eq]
    refine ⟨by rw [u_eq]; exact o, rfl, Weighs.setClaim s _ _, ?_, ?_⟩
    · rw [claim_setClaim_self]
      exact lose_lit fits contesting
    · rw [claim_setClaim_self]
      exact (lose_held fits contesting).1
  have lamps := tryScales_lamps g r ([750, 500, 250].filter (· < r.scale)) u
  have unchanged : u.lights = s.lights := by rw [← u_eq]; rfl
  have due : (tryScales g r ([750, 500, 250].filter (· < r.scale)) u).lights.due = s.lights.due := by
    rw [lamps.lights, ← unchanged]
  refine ⟨fun j other stands => ?_, fun e => absurd (loadLights_ge g) (by rw [e]; decide),
    fun e => absurd (loadLights_ge g) (by rw [e]; decide), fun g' r' e pending' none low => ?_⟩
  · have own : Fact ((⟨heard, (· = loadLights g), False, True⟩ : Scope).loads (loadLights g)) := ⟨rfl⟩
    have group : (u.group g).pending = some r := by rw [← u_eq]; exact pending
    have first := tryScales_tends (k := ⟨heard, (· = loadLights g), False, True⟩) g r ([750, 500, 250].filter (· < r.scale)) u (w.2 g r group)
    have values : (tryScales g r ([750, 500, 250].filter (· < r.scale)) u).seq = s.seq :=
      (Shared.seq (tryScales_lit g _ u r)).trans alike.weighs.seq
    have resumes : Tends ⟨heard, (· = loadLights g), False, True⟩ n (tryScales g r ([750, 500, 250].filter (· < r.scale)) u)
        (tryScales g r ([750, 500, 250].filter (· < r.scale)) u).courtesyResumes := by
      generalize tryScales g r ([750, 500, 250].filter (· < r.scale)) u = v at *
      by_cases none : v.lights.due = .none
      · rw [courtesyResumes_none none]
        exact Tends.refl _ n v
      · have courtesy := waits (by rw [← due]; exact none)
        cases named : Item.courtesy s.seq.values with
        | none => rw [named] at courtesy; cases courtesy
        | some ch =>
          rw [named] at courtesy
          by_cases same : groupOf ch = g
          · have own : Fact ((⟨heard, (· = loadLights g), False, True⟩ : Scope).loads (loadLights (groupOf ch))) := ⟨by rw [same]⟩
            unfold State.courtesyResumes
            rw [values, named]
            exact Tends.ite (fun _ => Tends.refl _ n v) (fun _ => courtesyChange_tends v ch _)
          · rw [courtesyResumes_waits (by rw [values]; exact named)]
            · exact Tends.refl _ n v
            · rw [lamps.groups _ same, State.group, unchanged]
              exact courtesy
    obtain ⟨-, -, tended⟩ := (first.trans resumes) o w
    have same := claim_setClaim_ne s (s.claim (loadLights g)).lose other
    rw [u_eq] at same
    have stirred := tended.claims j other
    rw [same] at stirred
    exact stirred.resolve_right fun k => stands k.1
  · obtain rfl := loadLights_injective e
    obtain rfl := Option.some.inj (pending.symm.trans pending')
    rw [courtesyResumes_none (by rw [due]; exact none)]
    exact (tryScales_scaled alike low r _).scalesDown

omit fits in
/-- The owners of the pad and of the motors are not told. -/
theorem lost_untold {id : Fin 7} (none : ∀ r, r = .lost ∨ r = .waits → ∀ u : State, u.report id r = u)
    (pump : id ≠ loadPump) (heater : id ≠ loadHeater) (lights : ∀ g, id ≠ loadLights g) :
    Lost s ((s.setClaim id (s.claim id).lose).report id (s.claim id).lossReply) id := by
  have reply : (s.claim id).lossReply = .lost ∨ (s.claim id).lossReply = .waits := by
    unfold Claim.lossReply
    split
    · exact .inl rfl
    · exact .inr rfl
  rw [none _ reply]
  exact ⟨fun j other _ => claim_setClaim_ne s _ other, fun e => absurd e pump, fun e => absurd e heater,
    fun g _ e => absurd e (lights g)⟩

theorem lost_of_fits {id : Fin 7} (contesting : (s.claim id).contesting = true) :
    Lost s ((s.setClaim id (s.claim id).lose).report id (s.claim id).lossReply) id := by
  match id with
  | 0 => exact lost_heater fits contesting
  | 1 => exact lost_untold (by rintro r (rfl | rfl) u <;> rfl) (by decide) (by decide) (by decide)
  | 2 => exact lost_pump fits contesting
  | 3 => exact lost_untold (by rintro r (rfl | rfl) u <;> rfl) (by decide) (by decide) (by decide)
  | 4 => exact lost_untold (by rintro r (rfl | rfl) u <;> rfl) (by decide) (by decide) (by decide)
  | 5 => exact lost_lights fits (g := 0) contesting
  | 6 => exact lost_lights fits (g := 1) contesting

end

end Sys2Proof.Machine
end

