-- ==== Sys2Proof/Proofs/Fails.lean ====
section
/-! PROOFS. A frame that fails (R38, R166, R167). -/

namespace Sys2Proof.Machine

/-! ### A frame that fails (R38, R166, R167) -/

theorem leave_fits {s : State} (fits : s.Fits) {u : Bool} {bits : List Bit}
    (sending : s.bus.sending = some { urgent := u, bits := bits }) : (s.setBus s.bus.leave).Fits := by
  have sane := leave_keeps s fits.sound.sane
  rw [leave_eq sending] at sane ⊢
  exact ⟨⟨sane.checked, sane.lanes, sane.queue, sane.claims, sane.counters, sane.extend, fits.sound.quiet⟩, fits.values,
    fits.cell, fits.supply, fits.claims, fits.view, fits.water, fits.climate, fits.motion, fits.requests, fits.lights⟩

theorem scalesDown_congr {s s' t t' : State} {g : Fin 2} {want : Tab 4 Nat} {scale : Nat}
    (weighs : Weighs (loadLights g) s' s) (claim : s.claim (loadLights g) = s'.claim (loadLights g))
    (lights : s.lights = s'.lights) (claim' : t'.claim (loadLights g) = t.claim (loadLights g)) (lights' : t'.lights = t.lights)
    (h : s'.scalesDown t g want scale) : s.scalesDown t' g want scale := by
  have light : ∀ ch, s.light ch = s'.light ch := fun ch => light_congr (congrArg Lights.chans lights) ch
  have light' : ∀ ch, t'.light ch = t.light ch := fun ch => light_congr (congrArg Lights.chans lights') ch
  have group : t'.group g = t.group g := by rw [State.group, lights']; rfl
  unfold State.scalesDown at h ⊢
  simp only [light, light', group, claim, claim', weighs.passes, weighs.seq] at h ⊢
  exact h

end Sys2Proof.Machine

namespace Sys2Proof.Proofs
open Sys2Proof.Machine

/-- Settles O31: the report reaches the owners of the contests that the frame announces, and the counts follow. -/
theorem frameFails : Obligations.FrameFails := by
  intro c s f u bits cmd fits sending buffer notEighth
  have leave := leave_eq sending
  have left := leave_fits fits sending
  have failed : s.frameFailed = (((s.setBus s.bus.leave).reportFailed f.records).countFailed f.probe).builds := by
    unfold State.frameFailed
    rw [onLine_eq sending buffer]
  have arm : exec c s = .next (State.publish s s.frameFailed) := by
    rcases cmd with rfl | rfl
    · rfl
    · rfl
  have sane := frameFailed_keeps s fits.sound.sane
  obtain ⟨ok, base, -⟩ := reportFailed_steady (s.setBus s.bus.leave) f.records left.sound.ok
  have waits := reportFailed_waits (s := s.setBus s.bus.leave) (l := f.records)
  have one := fun id => reportFailed_one (l := f.records) (id := id) left.sound.ok
  rw [failed] at arm sane
  generalize (s.setBus s.bus.leave).reportFailed f.records = v at arm sane ok base waits one
  have line := base.bus
  unfold Bus.sameLine at line
  rw [leave] at line
  rw [countFailed_eq v f.probe (by rw [line]; exact notEighth)] at arm sane
  generalize y_eq : (v.setBus { v.bus with
    failed := min 8 (v.bus.failed + 1), probeCount := if f.probe = true then 0 else v.bus.probeCount }).builds = y at arm sane
  have y_rest : y = { v with bus := y.bus } := by rw [← y_eq]; rfl
  have y_bus : y.bus = ({ v.bus with
      failed := min 8 (v.bus.failed + 1), probeCount := if f.probe = true then 0 else v.bus.probeCount } : Bus).build v.now := by
    rw [← y_eq]
    rfl
  have view : y.view = s.view := by rw [y_rest]; exact base.view
  have hand := publish_handedOver s y (by rw [view]; exact fits.sound.quiet.1)
  refine ⟨_, arm, ?_⟩
  have counted := Bus.build_sameLine v.now { v.bus with
      failed := min 8 (v.bus.failed + 1), probeCount := if f.probe = true then 0 else v.bus.probeCount }
  rw [← y_bus] at counted
  unfold Bus.sameLine at counted
  have l_failed : v.bus.failed = s.bus.failed := by rw [line]; rfl
  have l_count : v.bus.probeCount = s.bus.probeCount := by rw [line]; rfl
  have l_fault : v.bus.lineFault = s.bus.lineFault := by rw [line]; rfl
  have counts : (State.publish s y).bus.failed = min 8 (s.bus.failed + 1) ∧ (State.publish s y).bus.sending = none
      ∧ (State.publish s y).bus.lineFault = s.bus.lineFault
      ∧ (State.publish s y).bus.probeCount = (if f.probe = true then 0 else s.bus.probeCount)
      ∧ (State.publish s y).view = s.view ∧ (State.publish s y).seq = s.seq := by
    refine ⟨?_, ?_, ?_, ?_, hand.view.trans view, ?_⟩
    · rw [hand.failed, counted]
      show min 8 (v.bus.failed + 1) = _
      rw [l_failed]
    · rw [hand.sending, counted]
      exact congrArg Bus.sending line
    · rw [hand.lineFault, counted]
      exact l_fault
    · rw [hand.probeCount, counted]
      show (if f.probe = true then 0 else v.bus.probeCount) = _
      rw [l_count]
    · rw [hand.seq, y_rest]
      exact base.seq
  have named : ∀ id, s.announces f id ↔ ∃ t ∈ f.records, (s.claim id).announcedBy id t := fun id =>
    ⟨fun ⟨a, b, t, m, h⟩ => ⟨t, m, a, b, h⟩, fun ⟨t, m, a, b, h⟩ => ⟨a, b, t, m, h⟩⟩
  refine ⟨fun only => ?_, fun old => ⟨counts, ?_, ?_, fun id announces single => ?_⟩⟩
  · obtain ⟨v_rest, claims⟩ := waits fun t m j a => only j ((named j).mpr ⟨t, m, a⟩)
    have v_bus : v.bus = s.bus.leave := by rw [v_rest]; rfl
    have claim : ∀ j, y.claim j = v.claim j := fun j => by rw [y_rest]; rfl
    have lit : ∀ g, y.claim (loadLights g) = s.claim (loadLights g) := fun g => by
      rw [claim]
      refine (claims _).2 fun ⟨t, m, a⟩ => ?_
      obtain ⟨contest, standing, -⟩ := only _ ((named _).mpr ⟨t, m, a⟩)
      obtain ⟨-, -, serves⟩ := fits.claims
      obtain ⟨-, -, -, -, -, -, -, -, -, -, lights⟩ := serves (loadLights g)
      exact absurd ((lights (loadLights_ge g)).2.1 contest) (by simp [standing])
    have y_all : y = { s with broker := y.broker, bus := y.bus } := by
      rw [y_rest, v_rest]
      rfl
    have settled : State.publish s y = y := by
      refine publish_nothing ?_ ?_ (SameFigures.ofClaims y_all fun g => by rw [lit])
      · rw [y_all]
        exact fits.sound.quiet
      · have l : statusState y = statusState { s with broker := y.broker, bus := y.bus } := by rw [← y_all]
        rw [l, counted, v_bus, leave]
        rfl
    refine ⟨counts, ?_, ?_, fun id => ⟨fun announces => ?_, fun silent => ?_⟩, ?_, ?_⟩
    · rw [settled, y_all]
    · rw [settled, y_rest, v_rest]
      rfl
    · rw [settled, claim]
      exact (claims id).1 ((named id).mp announces)
    · rw [settled, claim]
      exact (claims id).2 fun a => silent ((named id).mpr a)
    · rintro rfl
      rw [settled, y_bus, v_bus, leave]
      exact Bus.build_urgent_refills v.now rfl
    · rintro rfl
      have now : v.now = s.now := by rw [v_rest]; rfl
      rw [settled, y_bus, v_bus, leave, now]
      exact Bus.build_refills s.now _ rfl
  · rw [hand.pins, y_rest]
    exact base.pins
  · rw [hand.supply, y_rest]
    exact base.supply
  · have contesting := announces.1
    have marks : ∀ j, (s.claim j).announcing = true → (s.claim j).contesting = true := fun j => by
      obtain ⟨-, -, serves⟩ := fits.claims
      obtain ⟨-, -, -, -, marks, -⟩ := serves j
      exact marks
    have v_eq := one id marks old ((named id).mp announces) fun j a => single j ((named j).mpr a)
    have lost := lost_of_fits left contesting
    have claim : ∀ j, (State.publish s y).claim j = v.claim j := fun j => (hand.claim j).trans (by rw [y_rest]; rfl)
    have water : (State.publish s y).water = v.water := hand.water.trans (by rw [y_rest])
    have climate : (State.publish s y).climate = v.climate := hand.climate.trans (by rw [y_rest])
    have lights : (State.publish s y).lights = v.lights := hand.lights.trans (by rw [y_rest])
    rw [← v_eq] at lost
    obtain ⟨others, pump, heater, scaled⟩ := lost
    have weighs : Weighs id (s.setBus s.bus.leave) s :=
      ⟨rfl, rfl, rfl, rfl, by rw [leave]; rfl, fun _ _ => rfl⟩
    refine ⟨fun j n w => (claim j).trans (others j n w), fun e a => ?_, fun e reason frost => ?_,
      fun g r e pending due low => ?_⟩
    · rw [water]
      exact pump e a
    · have h := heater e reason frost
      rw [claim, climate]
      rw [← weighs.passes] at h
      exact h
    · subst e
      exact scalesDown_congr weighs rfl rfl (claim _) lights (scaled g r rfl pending due low)

end Sys2Proof.Proofs
end

