-- ==== Sys2Proof/Proofs/Telling.lean ====
section
/-! PROOFS. The telling of the readers, and the timers of the Peer View's entries (R48, R59, R61, R70, R73). -/

namespace Sys2Proof.Machine

/-! ### The telling of the readers (R61) -/

/-- From an orderly state an operation keeps order and leaves the Peer View but for drive accepted, which it may bring to
what its inputs show (R78). -/
def Sights (s t : State) : Prop :=
  s.Ok → t.Ok ∧ ∃ d, t.view = { s.view with driveAccepted := d } ∧ (d = s.view.driveAccepted ∨ d = s.driveNow)

section
variable {s t u : State}

theorem Sights.refl (s : State) : Sights s s := fun o => ⟨o, _, rfl, .inl rfl⟩

theorem driveNow_of_view {d : Bool} (h : t.view = { s.view with driveAccepted := d }) : t.driveNow = s.driveNow := by
  unfold State.driveNow State.entries
  rw [h]

theorem Sights.trans (h : Sights s t) (k : Sights t u) : Sights s u := fun o => by
  obtain ⟨o', d, view, turned⟩ := h o
  obtain ⟨o'', d', view', turned'⟩ := k o'
  refine ⟨o'', d', by rw [view', view], ?_⟩
  rcases turned' with e | e
  · rw [view] at e
    rw [e]
    exact turned
  · exact .inr (e.trans (driveNow_of_view view))

theorem Sights.ite {c : Prop} [Decidable c] {a b : State} (h : c → Sights s a) (k : ¬c → Sights s b) :
    Sights s (if c then a else b) := by
  split
  · exact h ‹_›
  · exact k ‹_›

theorem Steady.sights (h : Steady s t) : Sights s t := fun o => by
  obtain ⟨o', base, -⟩ := h o
  exact ⟨o', _, by rw [base.view], .inl rfl⟩

theorem Calm.sights (h : Calm s t) : Sights s t := h.steady.sights

end

theorem supplyModeChanged_sights (s : State) : Sights s s.supplyModeChanged := fun o =>
  ⟨⟨o.checked, o.lanes, o.claims, o.dropped, o.changes⟩, _, rfl, .inl rfl⟩

theorem setStorage_sights (s : State) (b : Bool) : Sights s (s.setSeq { s.seq with storage := b }) := fun o =>
  ⟨⟨o.checked, o.lanes, o.claims, o.dropped, o.changes⟩, _, rfl, .inl rfl⟩

theorem storageLeft_sights (s : State) : Sights s s.storageLeft :=
  ((setStorage_sights s false).trans (supplyModeChanged_sights _)).trans
    ((retest_calm _).trans ((modeChanged_calm _).trans (ceilingFollows_calm _))).sights

theorem motionSeesDrive_steady (s : State) : Steady s s.motionSeesDrive :=
  Steady.ite (fun _ => (needDue_steady s 0).trans (needDue_steady _ 1))
    (fun _ => (needEnds_steady s 0).trans (needEnds_steady _ 1))

/-- What the Motion Controller does with a turn of drive accepted, and the end of Storage by it, leave the Peer View. -/
theorem driveActs_sights (s : State) (d : Bool) :
    Sights s (if d && (if s.seq.fns.motion then s.motionSeesDrive else s).seq.storage then
      (if s.seq.fns.motion then s.motionSeesDrive else s).storageLeft
      else if s.seq.fns.motion then s.motionSeesDrive else s) :=
  (Sights.ite (fun _ => (motionSeesDrive_steady s).sights) (fun _ => Sights.refl s)).trans
    (Sights.ite (fun _ => storageLeft_sights _) (fun _ => Sights.refl _))

/-- Drive accepted, worked out again, is what its inputs show. -/
theorem driveFollows_view {s : State} (o : s.Ok) :
    s.driveFollows.Ok ∧ s.driveFollows.view = { s.view with driveAccepted := s.driveNow } := by
  unfold State.driveFollows
  dsimp only
  rw [readAll_checked o.checked]
  split
  · next same =>
    exact ⟨o, by rw [same]⟩
  · have first := setDrive_ok o s.driveNow
    obtain ⟨o', d, view, turned⟩ := driveActs_sights (s.setView { s.view with driveAccepted := s.driveNow }) s.driveNow first
    refine ⟨o', view.trans ?_⟩
    have shown : (s.setView { s.view with driveAccepted := s.driveNow }).driveNow = s.driveNow := driveNow_of_view rfl
    rw [shown] at turned
    rw [turned.elim id id]
    rfl

theorem driveFollows_sights (s : State) : Sights s s.driveFollows := fun o => by
  obtain ⟨o', view⟩ := driveFollows_view o
  exact ⟨o', _, view, .inr rfl⟩

theorem reactTo_sights (s : State) (c : ViewChange) : Sights s (s.reactTo c) := by
  unfold State.reactTo
  split
  · exact (Sights.ite (fun _ => driveFollows_sights s) (fun _ => Sights.refl s)).trans (padFollows_calm _).sights
  · exact Sights.ite (fun _ => (Calm.ite (fun _ => forgetLevel_calm s _) (fun _ => Calm.refl s)).sights.trans
      (supplyChanged_steady _).sights) (fun _ => Sights.refl s)
  · exact Sights.ite (fun _ => (retest_calm s).sights) (fun _ => Sights.refl s)
  · exact (frostService_calm s).sights
  · exact (courtesyFollows_calm s _).sights
  · exact Sights.refl s

theorem setChanges_ok {s : State} (o : s.Ok) (c : List ViewChange) : (s.setView { s.view with changes := c }).Ok :=
  ⟨o.checked, o.lanes, o.claims, o.dropped, o.changes⟩

/-- What every reaction keeps, and a change told brings about, stands once the readers are told. -/
theorem tellReaders_reaches {P : State → Prop} {s : State} {c : ViewChange} (o : s.Ok) (told : c ∈ s.view.changes)
    (sets : ∀ t d, P t → P (t.setView { t.view with changes := d }))
    (keeps : ∀ t d, t.Ok → P t → P (State.reactTo t d)) (brings : ∀ t, t.Ok → P (State.reactTo t c)) : P s.tellReaders := by
  have go : ∀ n s, s.Ok → s.view.changes.length ≤ n → P s ∨ c ∈ s.view.changes → P (s.tellChanges n) := by
    intro n
    induction n with
    | zero =>
      intro s o short h
      have none : s.view.changes = [] := List.length_eq_zero_iff.mp (Nat.le_zero.mp short)
      rw [none] at h
      exact sets s [] (h.resolve_right (by simp))
    | succ n ih =>
      intro s o short h
      unfold State.tellChanges
      split
      · next none =>
        rw [none] at h
        exact h.resolve_right (by simp)
      · next first rest e =>
        obtain ⟨o', d, view, -⟩ := reactTo_sights (s.setView { s.view with changes := rest }) first (setChanges_ok o rest)
        have left : ((s.setView { s.view with changes := rest }).reactTo first).view.changes = rest := by rw [view]; rfl
        rw [e] at short h
        refine ih _ o' (by rw [left]; simpa using short) ?_
        rw [left]
        rcases h with h | h
        · exact .inl (keeps _ _ (setChanges_ok o rest) (sets s rest h))
        · rcases List.mem_cons.mp h with h | h
          · exact .inl (h ▸ brings _ (setChanges_ok o rest))
          · exact .inr h
  exact go _ s o (by omega) (.inr told)

/-- One change alone is told by one reaction. -/
theorem tellReaders_one {s : State} {c : ViewChange} (o : s.Ok) (h : s.view.changes = [c]) :
    s.tellReaders = (s.setView { s.view with changes := [] }).reactTo c := by
  obtain ⟨-, d, view, -⟩ := reactTo_sights (s.setView { s.view with changes := [] }) c (setChanges_ok o [])
  have left : ((s.setView { s.view with changes := [] }).reactTo c).view.changes = [] := by rw [view]; rfl
  unfold State.tellReaders
  rw [h]
  show State.tellChanges 66 s = _
  unfold State.tellChanges
  rw [h]
  show State.tellChanges 65 _ = _
  unfold State.tellChanges
  rw [left]

/-- The end of a step is that of the state in which the readers are told. -/
theorem publish_tellReaders (was s : State) : State.handedOver s.tellReaders (State.publish was s) := by
  have same : State.publish was s = State.publish was s.tellReaders := by
    unfold State.publish
    rw [tellReaders_none (tellReaders_empty s)]
  rw [same]
  exact publish_handedOver was _ (tellReaders_empty s)

/-- A station whose usable SUPPLY is told as lost has a remembered level of 0 (R48). -/
theorem publish_forgets {s : State} (was : State) {c : ViewChange} (o : s.Ok) (told : c ∈ s.view.changes)
    (supply : c.key.kind = .supply) (first : c.key.subject = 0) (dropped : c.what.dropped = true) :
    (State.publish was s).broker.remembered.get (stationIx c.key.station) = 0 := by
  have broker : (State.publish was s).broker = s.tellReaders.broker := by
    rw [publish_tellReaders was s]
  have := told_loads
  have stays : ∀ t u : State, (∀ n, Tends Machine.told n t u) → t.Ok →
      t.broker.remembered.get (stationIx c.key.station) = 0 → u.broker.remembered.get (stationIx c.key.station) = 0 :=
    fun t u h o zero => by
      obtain ⟨n, w⟩ := waitWithin_exists t
      rcases (h n o w).2.2.levels.2 (stationIx c.key.station) with e | e
      · exact e.trans zero
      · exact e.2
  rw [broker]
  refine tellReaders_reaches o told (P := fun t => t.broker.remembered.get (stationIx c.key.station) = 0)
    (fun _ _ h => h) (fun t d o h => stays t _ (fun n => reactTo_tends (fun _ h => h) trivial t d) o h) fun t o => ?_
  unfold State.reactTo
  rw [supply]
  dsimp only
  rw [if_pos first, if_pos dropped]
  refine stays (t.forgetLevel c.key.station) _ (fun n => supplyChanged_tends (fun _ h => h) trivial _)
    (forgetLevel_calm t _ o).1 (Tab.get_set_self _ _ _)

/-- ILOCK agrees with the violations while the channels, the phase and drive accepted stand (R141). -/
theorem ilock_agrees {s u : State} (sound : s.Sound) (motion : u.motion = s.motion) (seq : u.seq = s.seq)
    (drive : u.view.driveAccepted = s.view.driveAccepted) : u.motion.ilock = (u.inViolation 0 || u.inViolation 1) := by
  have same : ∀ ch, u.inViolation ch = s.inViolation ch := fun ch => by
    unfold State.inViolation State.motionRuns State.inRun State.chan
    rw [motion, seq, drive]
  rw [same, same, motion, ← sound.quiet.2.2.1]

/-- The end of a step, where no change is untold and ILOCK agrees with the violations, hands records over and no more. -/
theorem publish_shared {u : State} (was : State) (sane : u.Sane) (told : u.view.changes = [])
    (agrees : u.motion.ilock = (u.inViolation 0 || u.inViolation 1)) : Shared u (State.publish was u) := by
  have handed := publish_handedOver was u told
  have ilock := (publish_sound was sane).quiet.2.2.1
  generalize State.publish was u = t at handed ilock ⊢
  have same : ∀ ch, t.inViolation ch = u.inViolation ch := fun ch => by rw [handed]; rfl
  rw [same, same, ← agrees] at ilock
  unfold Shared
  rw [handed] at ilock ⊢
  dsimp only at ilock ⊢
  rw [ilock]

/-! ### The timers of the entries (R59, R73) -/

theorem publish_way {s : State} (was : State) (sane : s.Sane) (i : Fin 16) (w : Fin 4) :
    ((State.publish was s).view.sets.get i).ways.get w = (s.view.sets.get i).ways.get w := by
  rw [(publish_kin was sane).view]

theorem mem_entries_of_way {s : State} {i : Fin 16} {w : Fin 4} (valid : ((s.view.sets.get i).ways.get w).valid = true) :
    (s.view.sets.get i).ways.get w ∈ s.entries := mem_entries.mpr ⟨valid, i, w, rfl⟩

/-- The change that tells of an entry's going Stale. -/
theorem entryGoesStale_tells {s : State} {k : Key} {e : Entry} (mem : e ∈ s.entries) (key : e.key = k)
    (live : e.fresh.live = true) (reaches : staleAt e.kind ≤ e.age + 1) :
    { key := k, what := .freshness e.fresh .stale } ∈ (s.entryGoesStale k).view.changes := by
  refine List.mem_append_right _ (List.mem_filterMap.mpr ⟨e, List.mem_filter.mpr ⟨mem, ?_⟩, ?_⟩)
  · simp only [Bool.and_eq_true, beq_iff_eq, live, Entry.reaches, decide_eq_true_eq]
    exact ⟨⟨key, trivial⟩, reaches⟩
  · rw [if_neg (fun h => by rw [h] at live; cases live), key]

end Sys2Proof.Machine

namespace Sys2Proof.Proofs
open Sys2Proof.Machine

/-- Settles O41: each timer changes the entries of its key alone; a Stale SUPPLY is told, and its level forgotten. -/
theorem entryTimers : Obligations.EntryTimers := by
  intro s k sound
  refine ⟨rfl, ?_, ?_, fun holding => ?_, fun ended => ?_, fun runs => ?_⟩
  · have arm : exec (.entryAging k) s = .next (State.publish s (s.entryAges k)) := rfl
    have sane := entryAges_keeps s k sound.sane
    have kin := publish_kin s sane
    refine ⟨_, arm, kin.pins, by rw [kin.view]; rfl, by rw [kin.view]; rfl, fun i w => ?_⟩
    dsimp only
    rw [publish_way s sane, State.entryAges, refresh_way, Entry.refreshed]
    generalize (s.view.sets.get i).ways.get w = e
    have same : (e.valid && (e.key == k && e.fresh == .fresh && e.reaches (agingAt e.kind))) = true
        ↔ e.valid = true ∧ e.key = k ∧ e.fresh = .fresh ∧ agingAt e.kind ≤ e.age + 1 := by
      simp only [Bool.and_eq_true, beq_iff_eq, Entry.reaches, decide_eq_true_eq, and_assoc]
    by_cases due : e.valid = true ∧ e.key = k ∧ e.fresh = .fresh ∧ agingAt e.kind ≤ e.age + 1
    · rw [if_pos due, if_pos (same.mpr due)]
      exact ⟨due.1, due.2.1, rfl, rfl, rfl, rfl⟩
    · rw [if_neg due, if_neg (mt same.mp due)]
  · have arm : exec (.entryStale k) s = .next (State.publish s (s.entryGoesStale k)) := rfl
    have sane := entryGoesStale_keeps s k sound.sane
    have kin := publish_kin s sane
    refine ⟨_, arm, kin.pins, by rw [kin.view]; rfl, by rw [kin.view]; rfl, fun i w => ?_⟩
    have forgets := fun c => publish_forgets s (c := c) sane.ok
    have tells := fun v : ((s.view.sets.get i).ways.get w).valid = true =>
      entryGoesStale_tells (k := k) (mem_entries_of_way v)
    dsimp only
    rw [publish_way s sane, State.entryGoesStale, refresh_way, Entry.refreshed]
    generalize (s.view.sets.get i).ways.get w = e at tells
    have lives : e.fresh.live = true ↔ e.fresh = .fresh ∨ e.fresh = .aging := by cases e.fresh <;> simp [Freshness.live]
    have same : (e.valid && (e.key == k && e.fresh.live && e.reaches (staleAt e.kind))) = true
        ↔ e.valid = true ∧ e.key = k ∧ (e.fresh = .fresh ∨ e.fresh = .aging) ∧ staleAt e.kind ≤ e.age + 1 := by
      simp only [Bool.and_eq_true, beq_iff_eq, Entry.reaches, decide_eq_true_eq, and_assoc, lives]
    by_cases due : e.valid = true ∧ e.key = k ∧ (e.fresh = .fresh ∨ e.fresh = .aging) ∧ staleAt e.kind ≤ e.age + 1
    · rw [if_pos due, if_pos (same.mpr due)]
      obtain ⟨valid, key, live, reaches⟩ := due
      exact ⟨valid, key, rfl, rfl, rfl, fun supply first =>
        forgets _ (tells valid key (lives.mpr live) reaches) supply first rfl⟩
    · rw [if_neg due, if_neg (mt same.mp due)]
  · have arm : exec .holdTimerExpiry s = .next (State.publish s s.holdRunsOut) := by
      show done s _ = _
      rw [if_pos holding]
      rfl
    have sane := holdRunsOut_keeps s sound.sane
    have kin := publish_kin s sane
    have line := kin.bus
    unfold Bus.sameLine at line
    refine ⟨_, arm, kin.pins, by rw [kin.view]; rfl, by rw [line]; rfl, fun i w => ?_⟩
    dsimp only
    have way : (s.holdRunsOut.view.sets.get i).ways.get w
        = ((s.view.sets.get i).ways.get w).refreshed (fun _ => true) fun e => (.stale, staleAt e.kind) :=
      refresh_way s _ _ i w
    rw [publish_way s sane, way, Entry.refreshed]
    generalize (s.view.sets.get i).ways.get w = e
    by_cases valid : e.valid = true
    · rw [if_pos valid, if_pos (by rw [valid]; rfl)]
      exact ⟨valid, rfl, rfl, rfl, rfl⟩
    · rw [if_neg valid, if_neg (by simpa using valid)]
  · have arm : exec .viewOverflowTimerExpiry s = .next (State.publish s ((s.setView { s.view with
        overflow := false, overflowTimer := none }).monitor Mon.viewOverflow false).retest) := by
      show done s _ = _
      rw [if_pos ended]
      rfl
    have cleared : (s.setView { s.view with overflow := false, overflowTimer := none }).Ok :=
      ⟨sound.checked, sound.sane.ok.lanes, sound.claims, sound.sane.ok.dropped, sound.sane.ok.changes⟩
    have kept := ((setView_keeps s { s.view with overflow := false, overflowTimer := none } (fun h => h) rfl id id).trans
      (monitor_calm _ Mon.viewOverflow false).keeps) sound.sane
    have declared := monitor_calm _ Mon.viewOverflow false cleared
    have summary := monitor_summary (s.setView { s.view with overflow := false, overflowTimer := none }) Mon.viewOverflow
      Mon.viewOverflow false
    have shared := monitor_shared (s.setView { s.view with overflow := false, overflowTimer := none }) Mon.viewOverflow false
    have broker : ((s.setView { s.view with overflow := false, overflowTimer := none }).monitor
        Mon.viewOverflow false).broker = s.broker := by rw [monitor_eq]; rfl
    generalize (s.setView { s.view with overflow := false, overflowTimer := none }).monitor Mon.viewOverflow false = u at *
    have sane := (retest_calm u).keeps kept
    obtain ⟨-, asked⟩ := retest_asks (fun _ => False) u declared.1
    have shared' := retest_shared u
    generalize u.retest = v at *
    have view : v.view = { s.view with overflow := false, overflowTimer := none } :=
      asked.view.trans declared.2.1.view
    have handed := publish_handedOver s v (by rw [view]; exact sound.quiet.1)
    refine ⟨_, arm, ?_, ?_, ?_, ?_, fun id => ?_⟩
    · have first : u.motion = s.motion := declared.2.2
      refine (show Shared s (s.setView { s.view with overflow := false, overflowTimer := none }) from rfl).trans
        (shared.trans (shared'.trans (publish_shared s sane (by rw [view]; exact sound.quiet.1) ?_)))
      exact ilock_agrees sound (asked.motion.trans first) (asked.seq.trans declared.2.1.seq) (by rw [view])
    · rw [handed]; exact view
    · rw [handed]
      show v.status.summary.get _ = _
      rw [asked.status, summary, if_pos rfl]
    · rw [handed]
      show v.broker.level = _
      rw [asked.level, broker]
    · have claim : (State.publish s v).claim id = v.claim id := by rw [handed]; rfl
      have before : u.claim id = s.claim id := by unfold State.claim; rw [broker]
      rw [claim]
      have tested := asked.claims id nofun
      rw [before] at tested
      split
      · next waits =>
        rcases tested with e | ⟨-, e | ⟨-, n, -, e⟩⟩
        · rw [e]; exact .inl waits
        · rw [e]; exact .inl rfl
        · rw [e]; exact .inr rfl
      · next not =>
        exact tested.resolve_right fun h => not h.1
  · exact ⟨_, (show done s _ = _ by rw [if_neg runs]; rfl), publish_handedOver s s sound.quiet.1⟩

end Sys2Proof.Proofs
end

