-- ==== Sys2Proof/Proofs/Arrivals.lean ====
section
/-! PROOFS. An arrival in the Peer View (R63 to R68, R70, R77). -/

namespace Sys2Proof.Machine

/-! ### An arrival (R63 to R68, R70, R77) -/

/-- A loss declares View Overflow, or sets its 10 s again (R70). -/
theorem lose_fields (s : State) : s.lose.view = { s.view with overflow := true, overflowTimer := some 10000 }
    ∧ s.lose.pins = s.pins ∧ s.bus.sameLine s.lose.bus ∧ s.lose.status.serial = s.status.serial
    ∧ (s.view.overflow = false → s.lose.status.summary.get Mon.viewOverflow = true) := by
  unfold State.lose
  dsimp only
  cases s.view.overflow with
  | true => exact ⟨rfl, rfl, rfl, rfl, nofun⟩
  | false =>
    refine ⟨by rw [monitor_eq]; rfl, by rw [monitor_eq]; rfl,
      monitor_line (s.setView { s.view with overflow := true, overflowTimer := some Config.overflowMs }) _ _,
      by rw [monitor_eq]; rfl, fun _ => ?_⟩
    exact (monitor_summary _ _ _ _).trans (if_pos rfl)

/-- The entry that a record of key `k` with payload `p` finds in the way `w` of its set (R63). -/
def State.found (s : State) (k : Key) (w : Fin 4) : Entry := (s.view.sets.get (setOf k)).ways.get w

/-- The way holds the key already: the record is a hit (R63). -/
def State.holds (s : State) (k : Key) (w : Fin 4) : Bool := (s.found k w).valid && (s.found k w).key == k

/-- The record that takes the way `w` drives a Fresh or Aging DRAW out (R70). -/
def State.evicts (s : State) (k : Key) (w : Fin 4) : Bool := !s.holds k w && (s.found k w).liveDraw

/-- The entry that stands in the way once the record is stored (R63, R68, R77). -/
def State.storedEntry (s : State) (k : Key) (p : Payload) (w : Fin 4) : Entry :=
  if s.holds k w then (s.found k w).hit p s.view.storeFreshness
  else Entry.filled k.station k.subject p s.view.storeFreshness

/-- What `arrive` does with a record of key `k` and payload `p` that takes the way `w`. -/
structure Arrival (k : Key) (p : Payload) (w : Fin 4) (s t : State) : Prop where
  named : s.holds k w = true
    ∨ (∀ x, s.holds k x = false) ∧ w = (s.view.sets.get (setOf k)).victim k.kind.critical (Item.pinned s.seq.values)
  view : t.view = { s.view with
    sets := s.view.sets.set (setOf k) ({ s.view.sets.get (setOf k) with
      ways := (s.view.sets.get (setOf k)).ways.set w (s.storedEntry k p w) }.touch w)
    overflow := s.view.overflow || s.evicts k w
    overflowTimer := if s.evicts k w then some 10000 else s.view.overflowTimer
    changes := t.view.changes }
  told : ∃ before, { key := k, what := .stored before p } ∈ t.view.changes
  pins : t.pins = s.pins
  bus : s.bus.sameLine t.bus
  serial : t.status.serial = s.status.serial
  summary : s.view.overflow = false →
    t.status.summary.get Mon.viewOverflow = (s.status.summary.get Mon.viewOverflow || s.evicts k w)

theorem arrive_arrival {s : State} (o : s.Ok) (n : Nat) (r : Record) :
    ∃ w, Arrival { station := n, kind := r.kind, subject := r.subject } r.payload w s (s.arrive n r) := by
  unfold State.arrive
  dsimp only
  rw [read_checked o.checked]
  generalize hk : ({ station := n, kind := r.kind, subject := r.subject } : Key) = k
  split
  · next w found =>
    have holds : s.holds k w = true := List.find?_some found
    have key : (s.found k w).key = k := by simpa using (Bool.and_eq_true_iff.mp holds).2
    have evicts : s.evicts k w = false := by unfold State.evicts; rw [holds]; rfl
    refine ⟨w, .inl holds, ?_, ⟨some (s.found k w).payload, ?_⟩, rfl, rfl, rfl, fun _ => ?_⟩
    · rw [evicts, Bool.or_false, if_neg Bool.false_ne_true, State.storedEntry, if_pos holds]
      rfl
    · have first : { key := (s.found k w).key, what := .stored (some (s.found k w).payload) r.payload }
          ∈ (s.hit (setOf k) w r.payload).view.changes := List.mem_append_right _ (List.mem_cons_self ..)
      rwa [key] at first
    · rw [evicts, Bool.or_false]
      rfl
  · next absent =>
    have holds : ∀ x, s.holds k x = false := fun x => by
      have := List.find?_eq_none.mp absent x (by revert x; decide)
      exact eq_false_of_ne_true this
    have victim : ∀ w, s.evicts k w = (s.found k w).liveDraw := fun w => by unfold State.evicts; rw [holds]; rfl
    unfold State.fill
    dsimp only
    generalize hw : (s.view.sets.get (setOf k)).victim k.kind.critical (Item.pinned s.seq.values) = w
    refine ⟨w, ?_⟩
    generalize ht : State.tell (s.setWay (setOf k) w (Entry.filled k.station k.subject r.payload s.view.storeFreshness)) _ = t
    have view : t.view = { s.view with
        sets := s.view.sets.set (setOf k) ({ s.view.sets.get (setOf k) with
          ways := (s.view.sets.get (setOf k)).ways.set w (s.storedEntry k r.payload w) }.touch w)
        changes := t.view.changes } := by
      rw [← ht, State.storedEntry, holds]
      rfl
    have told : { key := k, what := .stored none r.payload } ∈ t.view.changes := by
      rw [← ht]
      exact List.mem_append_right _ (List.mem_append_right _ (List.mem_singleton.mpr rfl))
    have pins : t.pins = s.pins := by rw [← ht]; rfl
    have bus : t.bus = s.bus := by rw [← ht]; rfl
    have status : t.status = s.status := by rw [← ht]; rfl
    have evicts : ((s.view.sets.get (setOf k)).ways.get w).liveDraw = s.evicts k w := (victim w).symm
    rw [evicts]
    obtain ⟨lview, lpins, lbus, lserial, lsummary⟩ := lose_fields t
    rw [bus] at lbus
    split
    · next lost =>
      refine ⟨.inr ⟨holds, hw.symm⟩, ?_, ⟨none, ?_⟩, lpins.trans pins, lbus, lserial.trans (by rw [status]), fun calm => ?_⟩
      · rw [lview, lost, Bool.or_true, view]
        rfl
      · rw [lview]
        exact told
      · rw [lost, Bool.or_true]
        exact lsummary (by rw [view]; exact calm)
    · next stays =>
      have stays := eq_false_of_ne_true stays
      refine ⟨.inr ⟨holds, hw.symm⟩, ?_, ⟨none, told⟩, pins, by rw [bus]; rfl, by rw [status], fun _ => ?_⟩
      · rw [stays, Bool.or_false, if_neg Bool.false_ne_true]
        exact view
      · rw [stays, Bool.or_false, status]

/-- The two bits on the path of the way touched point away from it (R66). -/
theorem touch_fields (v : ViewSet) (w : Fin 4) : (v.touch w).ways = v.ways ∧ (v.touch w).b0 = decide (w.val < 2)
    ∧ (v.touch w).b1 = (if w.val < 2 then decide (w.val = 0) else v.b1)
    ∧ (v.touch w).b2 = (if w.val < 2 then v.b2 else decide (w.val = 2)) := by
  match w with
  | 0 => exact ⟨rfl, rfl, rfl, rfl⟩
  | 1 => exact ⟨rfl, rfl, rfl, rfl⟩
  | 2 => exact ⟨rfl, rfl, rfl, rfl⟩
  | 3 => exact ⟨rfl, rfl, rfl, rfl⟩

/-- The entry just stored (R63, R68). -/
theorem storedEntry_fields (s : State) {k : Key} {p : Payload} (w : Fin 4) (kind : p.kind = k.kind) :
    let g := s.storedEntry k p w
    g.valid = true ∧ g.key = k ∧ g.payload = p ∧ g.age = 0
      ∧ g.fresh = (if s.view.holdTimer.isSome = true then .held else .fresh) := by
  dsimp only
  unfold State.storedEntry
  split
  · next holds =>
    obtain ⟨valid, key⟩ := Bool.and_eq_true_iff.mp holds
    have key : (s.found k w).key = k := by simpa using key
    refine ⟨valid, ?_, rfl, rfl, rfl⟩
    show ({ station := (s.found k w).station, kind := p.kind, subject := (s.found k w).subject } : Key) = k
    rw [kind]
    generalize s.found k w = e at key
    rw [← key]
    rfl
  · refine ⟨rfl, ?_, rfl, rfl, rfl⟩
    show ({ station := k.station, kind := p.kind, subject := k.subject } : Key) = k
    rw [kind]

/-- The debounced drive of a STATUS subject 0 just stored (R77). -/
theorem storedEntry_drive (s : State) (k : Key) (f : StatusState) (w : Fin 4) :
    let g := s.storedEntry k (.status0 f) w
    let e := s.found k w
    (s.holds k w = false ∨ e.fresh = .stale → g.drive = f.localDrive ∧ g.clear = 0)
      ∧ (s.holds k w = true → e.fresh ≠ .stale →
        (f.localDrive = true → g.drive = true ∧ g.clear = 0)
          ∧ (f.localDrive = false → e.drive = true → e.clear < 2 → g.drive = true ∧ g.clear = e.clear + 1)
          ∧ (f.localDrive = false → e.drive = true → 2 ≤ e.clear → g.drive = false ∧ g.clear = 0)
          ∧ (f.localDrive = false → e.drive = false → g.drive = false)) := by
  dsimp only
  unfold State.storedEntry
  by_cases holds : s.holds k w = true
  · rw [if_pos holds]
    refine ⟨fun h => ?_, fun _ lively => ?_⟩
    · have stale := h.resolve_left (by rw [holds]; exact Bool.true_eq_false.mp)
      simp [Entry.hit, Entry.seal, stale, driveFirst, Payload.drive?]
    · refine ⟨fun h => ?_, fun h d c => ?_, fun h d c => ?_, fun h d => ?_⟩
      · simp [Entry.hit, Entry.seal, lively, driveNext, Payload.drive?, h]
      · simp [Entry.hit, Entry.seal, lively, driveNext, Payload.drive?, h, d, c]
      · simp [Entry.hit, Entry.seal, lively, driveNext, Payload.drive?, h, d, Nat.not_lt.mpr c]
      · simp [Entry.hit, Entry.seal, lively, driveNext, Payload.drive?, h, d]
  · rw [if_neg holds]
    exact ⟨fun _ => ⟨rfl, rfl⟩, fun h => absurd h holds⟩

/-- Once a change of a STATUS subject 0 is told, drive accepted is what its inputs show (R78). -/
theorem publish_drive {s : State} (was : State) {c : ViewChange} (o : s.Ok) (told : c ∈ s.view.changes)
    (status : c.key.kind = .status) (first : c.key.subject = 0) :
    (State.publish was s).view.driveAccepted = (State.publish was s).driveNow := by
  have handed := publish_tellReaders was s
  have reached : s.tellReaders.view.driveAccepted = s.tellReaders.driveNow := by
    refine tellReaders_reaches o told (P := fun t => t.view.driveAccepted = t.driveNow) (fun _ _ h => h)
      (fun t d o h => ?_) fun t o => ?_
    · obtain ⟨-, x, view, turned⟩ := reactTo_sights t d o
      rw [driveNow_of_view view, view]
      exact turned.elim (fun e => e.trans h) id
    · have pad : ∀ u : State, u.Ok → u.padFollows.view = u.view := fun u o => (padFollows_calm u o).2.1.view
      obtain ⟨o', view⟩ := driveFollows_view o
      unfold State.reactTo
      rw [status]
      dsimp only
      rw [if_pos (by simp [ViewChange.movesDrive, first]), pad _ o', driveNow_congr (pad _ o'), driveNow_of_view view, view]
  rw [handed]
  exact reached

end Sys2Proof.Machine

namespace Sys2Proof.Proofs
open Sys2Proof.Machine

/-- Settles O39: a hit keeps its way and a fill takes the victim's; the readers' telling leaves the table as it is. -/
theorem peerArrivalStores : Obligations.PeerArrivalStores := by
  intro s n r sound brings stored
  have arm : exec .peerArrival s = .next (State.publish s (s.taken.arrive n r)) := by
    show done s (s.dispatch _ _) = _
    rw [dispatch_brings brings stored]
    rfl
  have taken : s.taken.Sane := setBus_keeps s _ (fun h => h)
    (fun h => le_trans (dropRecord_length _) h) id id id sound.sane
  obtain ⟨w, arrival⟩ := arrive_arrival taken.ok n r
  have sane := arrive_keeps s.taken n r taken
  have kin := publish_kin s sane
  have line := Bus.sameLine_trans arrival.bus kin.bus
  unfold Bus.sameLine at line
  have summary := publish_summary s sane.ok (n := Mon.viewOverflow) (fun h => absurd h.1 (by decide))
  obtain ⟨before, told⟩ := arrival.told
  have drive := publish_drive s sane.ok told
  refine ⟨_, arm, ?_⟩
  generalize s.taken.arrive n r = u at *
  have view : (State.publish s u).view = { u.view with
    driveAccepted := (State.publish s u).view.driveAccepted, changes := (State.publish s u).view.changes } := kin.view
  generalize State.publish s u = t at *
  dsimp only
  generalize hk : ({ station := n, kind := r.kind, subject := r.subject } : Key) = k at *
  have kind : r.payload.kind = k.kind := by rw [← hk]; rfl
  have subject : k.subject = r.subject := by rw [← hk]
  have sets : t.view.sets = s.view.sets.set (setOf k) ({ s.view.sets.get (setOf k) with
      ways := (s.view.sets.get (setOf k)).ways.set w (s.storedEntry k r.payload w) }.touch w) := by
    rw [view, arrival.view]
    rfl
  obtain ⟨valid, key, payload, age, fresh⟩ := storedEntry_fields s w kind
  obtain ⟨ways, b0, b1, b2⟩ := touch_fields { s.view.sets.get (setOf k) with
      ways := (s.view.sets.get (setOf k)).ways.set w (s.storedEntry k r.payload w) } w
  have named : s.holds k w = true
    ∨ (∀ x, s.holds k x = false) ∧ w = (s.view.sets.get (setOf k)).victim k.kind.critical (Item.pinned s.seq.values) :=
    arrival.named
  have self : t.view.sets.get (setOf k) = ViewSet.touch { s.view.sets.get (setOf k) with
      ways := (s.view.sets.get (setOf k)).ways.set w (s.storedEntry k r.payload w) } w := by
    rw [sets]
    exact Tab.get_set_self _ _ _
  have way : (t.view.sets.get (setOf k)).ways.get w = s.storedEntry k r.payload w := by
    rw [self, ways]
    exact Tab.get_set_self _ _ _
  refine ⟨fun j other => ?_, kin.pins.trans arrival.pins, ?_, ?_, fun status first => ?_, w, ?_⟩
  · rw [sets]
    exact Tab.get_set_ne _ _ _ _ (Ne.symm other)
  · rw [line]
    rfl
  · rw [view, arrival.view]
    rfl
  · exact drive (kind.symm.trans status) (subject.trans first)
  · rw [way]
    refine ⟨valid, key, payload, age, fresh, fun x other => ?_, by rw [self]; exact b0, by rw [self]; exact b1,
      by rw [self]; exact b2, fun ⟨x, v, e⟩ => ?_, fun held => ?_, ⟨?_, ?_, fun calm => ?_⟩, ?_⟩
    · rw [self, ways]
      exact Tab.get_set_ne _ _ _ _ (Ne.symm other)
    · refine named.resolve_right fun none => absurd (none.1 x) ?_
      simp only [State.holds, State.found, v, e, beq_self_eq_true, Bool.and_self, Bool.true_eq_false, not_false_eq_true]
    · exact (named.resolve_left fun h => absurd (h.symm.trans held) (by decide)).2.trans (by rw [← hk])
    · rw [view, arrival.view]
      rfl
    · rw [view, arrival.view]
      rfl
    · exact summary.trans (arrival.summary calm)
    · split
      · next f e =>
        rw [e]
        exact storedEntry_drive s k f w
      · trivial

end Sys2Proof.Proofs
end

