-- ==== Sys2Proof/Proofs/Tidy.lean ====
section
/-! PROOFS. What every command keeps of the values, the cell, the supply, the view and the requests. -/

namespace Sys2Proof.Machine

/-! ### What most operations mind -/

/-- The setup values, the cell, the charge figures, the Peer View and the waiting requests are in order. -/
structure State.Tidy (s : State) : Prop where
  values : s.valuesFit
  cell : s.cellMirrors
  supply : s.supplyFits
  view : s.viewFits
  requests : s.requestsFit

theorem State.Fits.tidy {s : State} (h : s.Fits) : s.Tidy := ⟨h.values, h.cell, h.supply, h.view, h.requests⟩

/-- From a sane and tidy state an operation leads to such a state. -/
def Tidies (s t : State) : Prop := s.Sane → s.Tidy → t.Sane ∧ t.Tidy

/-- `t` has the values, the figures and the table of `s`, and its cell agrees with its owners where that of `s` did. -/
structure Minded (s t : State) : Prop where
  station : t.seq.station = s.seq.station
  fns : t.seq.fns = s.seq.fns
  values : t.seq.values = s.seq.values
  pendingItems : t.seq.pendingItems = s.seq.pendingItems
  gather : t.bus.gatherMs = s.bus.gatherMs
  supply : t.supply = { s.supply with onNext := t.supply.onNext }
  sets : t.view.sets = s.view.sets
  hold : t.view.holdTimer = s.view.holdTimer
  cell : t.cell = { s.cell with lockout := t.cell.lockout }
  setpoints : ∀ z, (t.climate.zones.get z).setpoint = (s.climate.zones.get z).setpoint
  chosen : t.climate.chosen = s.climate.chosen
  lockout : s.cell.lockout = s.climate.lockout → t.cell.lockout = t.climate.lockout
  scenes : t.lights.scenes = s.lights.scenes

section
variable {s t u : State}

theorem viewFits_congr (sets : t.view.sets = s.view.sets) (hold : t.view.holdTimer = s.view.holdTimer)
    (station : t.seq.station = s.seq.station) (values : t.seq.values = s.seq.values) (h : s.viewFits) : t.viewFits := by
  unfold State.viewFits at *
  rw [sets, hold, station, values]
  exact h

theorem State.Tidy.minded (h : s.Tidy) (k : Minded s t) (requests : t.requestsFit) : t.Tidy where
  values := by
    obtain ⟨fit, pending, low, high⟩ := h.values
    refine ⟨by rw [k.values]; exact fit, by rw [k.pendingItems]; exact pending, ?_, ?_⟩
    · rw [k.gather]; exact low
    · rw [k.gather]; exact high
  cell := by
    obtain ⟨values, q, r, anchored, cap, setpoints, chosen, lockout, scenes⟩ := h.cell
    refine ⟨?_, ?_, ?_, ?_, ?_, fun z => ?_, ?_, k.lockout lockout, ?_⟩
    · rw [k.cell, k.values]; exact values
    · rw [k.cell, k.supply]; exact q
    · rw [k.cell, k.supply]; exact r
    · rw [k.cell, k.supply]; exact anchored
    · rw [k.cell, k.supply]; exact cap
    · rw [k.cell, k.setpoints]; exact setpoints z
    · rw [k.cell, k.chosen]; exact chosen
    · rw [k.cell, k.scenes]; exact scenes
  supply := by
    unfold State.supplyFits
    rw [k.supply, k.fns, k.values]
    exact h.supply
  view := viewFits_congr k.sets k.hold k.station k.values h.view
  requests := requests

theorem Minded.refl (s : State) : Minded s s := ⟨rfl, rfl, rfl, rfl, rfl, rfl, rfl, rfl, rfl, fun _ => rfl, rfl, id, rfl⟩

theorem Minded.trans (h : Minded s t) (k : Minded t u) : Minded s u where
  station := k.station.trans h.station
  fns := k.fns.trans h.fns
  values := k.values.trans h.values
  pendingItems := k.pendingItems.trans h.pendingItems
  gather := k.gather.trans h.gather
  supply := by rw [k.supply, h.supply]
  sets := k.sets.trans h.sets
  hold := k.hold.trans h.hold
  cell := by rw [k.cell, h.cell]
  setpoints z := (k.setpoints z).trans (h.setpoints z)
  chosen := k.chosen.trans h.chosen
  lockout := k.lockout ∘ h.lockout
  scenes := k.scenes.trans h.scenes

/-- A sane operation that minds all this and leaves the requests. -/
theorem Minded.tidies (k : Minded s t) (keeps : Keeps s t) (requests : s.requestsFit → t.requestsFit) : Tidies s t :=
  fun sane tidy => ⟨keeps sane, tidy.minded k (requests tidy.requests)⟩

theorem Tidies.refl (s : State) : Tidies s s := fun sane tidy => ⟨sane, tidy⟩

theorem Tidies.trans (h : Tidies s t) (k : Tidies t u) : Tidies s u := fun sane tidy =>
  k (h sane tidy).1 (h sane tidy).2

theorem Tidies.ite {p : Prop} [Decidable p] {a b : State} (h : p → Tidies s a) (k : ¬p → Tidies s b) :
    Tidies s (if p then a else b) := by
  split
  · exact h ‹_›
  · exact k ‹_›

theorem Tidies.intro (h : s.Sane → s.Tidy → Tidies s t) : Tidies s t := fun sane tidy => h sane tidy sane tidy

/-! ### Owners that act -/

/-- Any monitor may turn, and any claim may be asked or lowered. -/
def anyone : Scope := { mons := fun _ => True, loads := fun _ => True, levels := True }

theorem anyone_loads : ∀ j, Fact (anyone.loads j) := fun _ => ⟨trivial⟩

theorem requestsFit_iff : s.requestsFit ↔ s.waitWithin s.status.serial := Iff.rfl

/-- What is both loose and tended is minded. -/
theorem minded_of {k : Scope} {n : Nat} (kin : State.Kin s t) (tended : Tended k n s t) : Minded s t where
  station := by rw [kin.seq]
  fns := by rw [kin.seq]
  values := by rw [kin.seq]
  pendingItems := by rw [kin.seq]
  gather := by have line := kin.bus; unfold Bus.sameLine at line; rw [line]
  supply := kin.supply
  sets := by rw [kin.view]
  hold := by rw [kin.view]
  cell := kin.cell
  setpoints z := by rw [tended.zones]
  chosen := tended.chosen
  lockout := tended.lockout
  scenes := tended.scenes

/-- An operation of the owners minds all this. -/
theorem Loose.tidies {k : Scope} (h : Loose s t) (tends : Tends k s.status.serial s t) : Tidies s t := fun sane tidy => by
  obtain ⟨-, -, kin⟩ := h sane.ok sane.extend
  obtain ⟨-, within, tended⟩ := tends sane.ok tidy.requests
  exact ⟨h.keeps sane, tidy.minded (minded_of kin tended) (by rw [requestsFit_iff, tended.serial]; exact within)⟩

theorem Steady.tidies {k : Scope} (h : Steady s t) (tends : Tends k s.status.serial s t) : Tidies s t :=
  h.loose.tidies tends

theorem Calm.tidies {k : Scope} (h : Calm s t) (tends : Tends k s.status.serial s t) : Tidies s t := h.loose.tidies tends

theorem answer_minded (s : State) (code o : Nat) : Minded s (s.answer code o) :=
  ⟨rfl, rfl, rfl, rfl, rfl, rfl, rfl, rfl, rfl, fun _ => rfl, rfl, id, rfl⟩

/-- An answer that follows what a request of its number has brought about. -/
theorem answer_tidies_after {k : Scope} (h : Loose s t) (tends : Tends k (s.status.serial + 1) s t) (code o : Nat) :
    Tidies s (t.answer code o) := fun sane tidy => by
  obtain ⟨-, -, kin⟩ := h sane.ok sane.extend
  have early : s.waitWithin (s.status.serial + 1) :=
    ⟨fun ch => (tidy.requests.1 ch).trans (Nat.le_succ _), fun g r e => (tidy.requests.2 g r e).trans (Nat.le_succ _)⟩
  obtain ⟨-, within, tended⟩ := tends sane.ok early
  refine ⟨(answer_calm t code o).keeps (h.keeps sane), tidy.minded ((minded_of kin tended).trans (answer_minded t code o)) ?_⟩
  have serial : (t.answer code o).status.serial = s.status.serial + 1 := congrArg (· + 1) tended.serial
  rw [requestsFit_iff, serial]
  exact within

theorem answer_tidies (s : State) (code o : Nat) : Tidies s (s.answer code o) :=
  answer_tidies_after (k := anyone) (Loose.refl s) (Tends.refl _ _ s) code o

/-- The end of a step keeps a tidy state tidy. -/
theorem publish_tidies (was s : State) : Tidies s (State.publish was s) := fun sane tidy => by
  obtain ⟨-, within, tended⟩ := publish_tends s.status.serial was s sane.ok tidy.requests
  exact ⟨(publish_sound was sane).sane, tidy.minded (minded_of (publish_kin was sane) tended)
    (by rw [requestsFit_iff, tended.serial]; exact within)⟩

theorem Tidies.done {was s t : State} (h : Tidies was s) (e : done was s = .next t) : Tidies was t := by
  injection e with e
  exact e ▸ h.trans (publish_tidies was s)

/-! ### Pins, the bus and the Receive Queue -/

theorem setPins_tidies (s : State) (p : Pins) : Tidies s (s.setPins p) :=
  Minded.tidies ⟨rfl, rfl, rfl, rfl, rfl, rfl, rfl, rfl, rfl, fun _ => rfl, rfl, id, rfl⟩ (setPins_keeps s p) id

/-- The line without a new gather timeout. -/
theorem setBus_tidies (s : State) (b : Bus) (gather : b.gatherMs = s.bus.gatherMs) (keeps : Keeps s (s.setBus b)) :
    Tidies s (s.setBus b) := Minded.tidies ⟨rfl, rfl, rfl, rfl, gather, rfl, rfl, rfl, rfl, fun _ => rfl, rfl, id, rfl⟩ keeps id

/-- The view without a new table or hold. -/
theorem setView_tidies (s : State) (v : View) (sets : v.sets = s.view.sets) (hold : v.holdTimer = s.view.holdTimer)
    (keeps : Keeps s (s.setView v)) : Tidies s (s.setView v) :=
  Minded.tidies ⟨rfl, rfl, rfl, rfl, rfl, rfl, sets, hold, rfl, fun _ => rfl, rfl, id, rfl⟩ keeps id

/-- The sequencer without new values. -/
theorem setSeq_tidies (s : State) (x : Seq) (station : x.station = s.seq.station) (fns : x.fns = s.seq.fns)
    (values : x.values = s.seq.values) (pending : x.pendingItems = s.seq.pendingItems) (keeps : Keeps s (s.setSeq x)) :
    Tidies s (s.setSeq x) :=
  Minded.tidies ⟨station, fns, values, pending, rfl, rfl, rfl, rfl, rfl, fun _ => rfl, rfl, id, rfl⟩ keeps id

theorem setDue_tidies (s : State) (d : Due) : Tidies s (s.setDue d) :=
  (setDue_calm s d).tidies (k := anyone) (setDue_tends s d fun not => absurd trivial not)

/-- The Dispatcher keeps a state tidy where the block it hands the record to does (R74, R169). -/
theorem dispatch_tidies (s : State) (p : Record → Bool) (f : State → Nat → Record → State)
    (h : ∀ u n r, p r = true → u.seq = s.seq → n ≠ s.seq.station → Tidies u (f u n r)) : Tidies s (s.dispatch p f) := by
  unfold State.dispatch
  refine Tidies.ite (fun _ => Tidies.refl s) (fun _ => ?_)
  split
  · exact Tidies.refl s
  · refine Tidies.ite (fun hp => ?_) (fun _ => Tidies.refl s)
    refine (setBus_tidies s { s.bus with rx := dropRecord s.bus.rx } rfl (setBus_keeps s _ (fun h => h)
      (fun h => le_trans (dropRecord_length _) h) id id id)).trans ?_
    refine Tidies.ite (fun _ => setView_tidies _ _ (by rfl) (by rfl)
      (setView_keeps _ _ (by exact fun h => h) (by rfl) (by exact fun _ => sat255_le _) (by exact id))) (fun admitted => ?_)
    refine h _ _ _ hp rfl fun own => admitted ?_
    simp only [State.rosterRejects, Bool.or_eq_true, beq_iff_eq]
    exact .inr own

theorem onRequest_tidies (s : State) (code : Nat) (f : State → Nat → Int → State) (h : ∀ u n v, Tidies u (f u n v)) :
    Tidies s (s.onRequest code f) := dispatch_tidies s _ _ fun u _ _ _ _ _ => h u _ _

theorem motionRequest_tidies (s : State) (code : Nat) (f : State → Fin 2 → State) (h : ∀ u ch, Tidies u (f u ch)) :
    Tidies s (s.motionRequest code f) := by
  refine onRequest_tidies s code _ fun u n v => ?_
  split
  · exact answer_tidies u _ _
  · split
    · exact answer_tidies u _ _
    · exact h u _

end

end Sys2Proof.Machine
end

