-- ==== Sys2Proof/Proofs/Tables.lean ====
section
/-! PROOFS. The Peer View's table kept in order by ageing, the hold and an arrival (R56 to R60, R63 to R67). -/

namespace Sys2Proof.Machine

/-! ### The table of the Peer View (R57 to R59, R63 to R73) -/

/-- The entry's age lies within what its freshness allows, and it is Held only where a hold is in force (R59, R71). -/
def Entry.timely (holding : Bool) (e : Entry) : Prop :=
  (e.fresh = .fresh → e.age < agingAt e.kind) ∧ (e.fresh = .aging → agingAt e.kind ≤ e.age ∧ e.age < staleAt e.kind)
    ∧ (e.fresh = .held → holding = true)

/-- The thresholds of the kinds the table stores (R59). -/
theorem thresholds {k : Kind} (h : k.stored = true) : 0 < agingAt k ∧ agingAt k < staleAt k := by
  cases k with
  | status | supply | draw | tank | climate | motion | interlock | light => exact ⟨by decide, by decide⟩
  | shed | request | setup | notice | unknown => cases h

/-- A table whose ways hold their old entries, the ages and freshness aside, or nothing. -/
theorem viewFits_of_ways {s t : State} (station : t.seq.station = s.seq.station) (values : t.seq.values = s.seq.values)
    (ways : ∀ i w, let e := (s.view.sets.get i).ways.get w
      let g := (t.view.sets.get i).ways.get w
      g.valid = true → e.valid = true ∧ g.key = e.key
        ∧ (e.kind.stored = true → e.timely s.view.holdTimer.isSome → g.timely t.view.holdTimer.isSome))
    (h : s.viewFits) : t.viewFits := by
  intro i w
  dsimp only
  intro valid
  obtain ⟨old, key, timely⟩ := ways i w valid
  obtain ⟨place, stored, other, one, pinned, fresh, aging, held⟩ := h i w old
  obtain ⟨fresh', aging', held'⟩ := timely stored ⟨fresh, aging, held⟩
  have kind := congrArg Key.kind key
  have from_station := congrArg Key.station key
  have kind : ((t.view.sets.get i).ways.get w).kind = ((s.view.sets.get i).ways.get w).kind := kind
  have from_station : ((t.view.sets.get i).ways.get w).station = ((s.view.sets.get i).ways.get w).station := from_station
  refine ⟨by rw [key]; exact place, by rw [kind]; exact stored, by rw [from_station, station]; exact other,
    fun x v same => ?_, ?_, fresh', aging', held'⟩
  · obtain ⟨old', key', -⟩ := ways i x v
    exact one x old' (by rw [← key', same, key])
  · rw [values, kind]
    exact pinned

/-- Ages and freshness that `f` gives in time keep the table in order. -/
theorem refresh_viewFits {s t : State} {p : Entry → Bool} {f : Entry → Freshness × Nat}
    (sets : t.view.sets = (s.refresh p f).view.sets) (station : t.seq.station = s.seq.station)
    (values : t.seq.values = s.seq.values)
    (others : s.view.holdTimer.isSome = true → t.view.holdTimer.isSome = false → ∀ e : Entry, e.fresh = .held → p e = true)
    (timely : ∀ e : Entry, e.kind.stored = true → e.timely s.view.holdTimer.isSome → p e = true →
      ({ e with fresh := (f e).1, age := (f e).2 } : Entry).timely t.view.holdTimer.isSome) (h : s.viewFits) :
    t.viewFits := by
  refine viewFits_of_ways station values (fun i w => ?_) h
  dsimp only
  rw [sets, refresh_way, Entry.refreshed]
  generalize (s.view.sets.get i).ways.get w = e
  split
  · next met =>
    obtain ⟨valid, met⟩ := Bool.and_eq_true_iff.mp met
    exact fun _ => ⟨valid, rfl, fun stored k => timely e stored k met⟩
  · next unmet =>
    refine fun valid => ⟨valid, rfl, fun _ ⟨fresh, aging, held⟩ => ⟨fresh, aging, fun k => ?_⟩⟩
    by_contra ended
    exact unmet (by rw [valid, others (held k) (by simpa using ended) e k]; rfl)

theorem entryAges_tidies (s : State) (k : Key) : Tidies s (s.entryAges k) := fun sane tidy =>
  ⟨entryAges_keeps s k sane, tidy.values, tidy.cell, tidy.supply,
    refresh_viewFits (s := s) (t := s.entryAges k) rfl rfl rfl
      (fun h k => absurd (h.symm.trans k) (by decide))
      (fun e stored _ _ => ⟨nofun, fun _ => ⟨le_rfl, (thresholds stored).2⟩, nofun⟩) tidy.view, tidy.requests⟩

theorem entryGoesStale_tidies (s : State) (k : Key) : Tidies s (s.entryGoesStale k) := fun sane tidy =>
  ⟨entryGoesStale_keeps s k sane, tidy.values, tidy.cell, tidy.supply,
    refresh_viewFits (s := s) (t := s.entryGoesStale k) rfl rfl rfl
      (fun h k => absurd (h.symm.trans k) (by decide))
      (fun _ _ _ _ => ⟨nofun, nofun, nofun⟩) tidy.view, tidy.requests⟩

theorem holdRunsOut_tidies (s : State) : Tidies s s.holdRunsOut := fun sane tidy =>
  ⟨holdRunsOut_keeps s sane, tidy.values, tidy.cell, tidy.supply,
    refresh_viewFits (s := s) (t := s.holdRunsOut) rfl rfl rfl (fun _ _ _ _ => rfl)
      (fun _ _ _ _ => ⟨nofun, nofun, nofun⟩) tidy.view, tidy.requests⟩

theorem holdBegins_tidies (s : State) : Tidies s s.holdBegins := fun sane tidy =>
  ⟨holdBegins_keeps s sane, tidy.values, tidy.cell, tidy.supply,
    refresh_viewFits (s := s) (t := s.holdBegins) rfl rfl rfl (fun _ k => Bool.noConfusion (k : true = false))
      (fun _ _ _ _ => ⟨nofun, nofun, fun _ => rfl⟩) tidy.view, tidy.requests⟩

/-- The freshness that goes with an age is in time (R59). -/
theorem freshnessAt_timely {k : Kind} {age : Nat} :
    (freshnessAt k age = .fresh → age < agingAt k) ∧ (freshnessAt k age = .aging → agingAt k ≤ age ∧ age < staleAt k)
      ∧ freshnessAt k age ≠ .held := by
  unfold freshnessAt
  split
  · next low => exact ⟨fun _ => low, nofun, nofun⟩
  · next high =>
    split
    · next low => exact ⟨nofun, fun _ => ⟨not_lt.mp high, low⟩, nofun⟩
    · exact ⟨nofun, nofun, nofun⟩

theorem holdResumes_tidies (s : State) : Tidies s s.holdResumes := fun sane tidy =>
  ⟨holdResumes_keeps s sane, tidy.values, tidy.cell, tidy.supply,
    refresh_viewFits (s := s) (t := s.holdResumes) rfl rfl rfl (fun _ _ e h => by rw [h]; rfl)
      (fun _ _ _ _ => ⟨freshnessAt_timely.1, freshnessAt_timely.2.1, fun h => absurd h freshnessAt_timely.2.2⟩) tidy.view,
    tidy.requests⟩

/-- A millisecond takes no age past what the freshness allows (R59). -/
theorem Entry.tick_timely {e : Entry} {holding : Bool} (h : e.timely holding) : e.tick.timely holding := by
  unfold Entry.tick
  split
  · next room =>
    obtain ⟨fresh, aging, held⟩ := h
    have room := (Bool.and_eq_true_iff.mp room).2
    rw [decide_eq_true_eq, Entry.ageLimit] at room
    refine ⟨fun k => ?_, fun k => ?_, held⟩
    · have k : e.fresh = .fresh := k
      rw [k] at room
      dsimp only at room
      show e.age + 1 < agingAt e.kind
      omega
    · have k : e.fresh = .aging := k
      rw [k] at room
      dsimp only at room
      have := (aging k).1
      show agingAt e.kind ≤ e.age + 1 ∧ e.age + 1 < staleAt e.kind
      omega
  · exact h

theorem tick_viewFits {s : State} (h : s.viewFits) : s.tick.viewFits := by
  refine viewFits_of_ways (s := s) (t := s.tick) rfl rfl (fun i w => ?_) h
  dsimp only
  rw [tick_way]
  have holding : s.tick.view.holdTimer.isSome = s.view.holdTimer.isSome := Option.isSome_map
  rw [holding]
  generalize (s.view.sets.get i).ways.get w = e
  exact fun valid => ⟨by rw [Entry.tick_eq] at valid; exact valid, by rw [Entry.tick_eq]; rfl, fun _ => Entry.tick_timely⟩

/-! ### An arrival -/

theorem hit_shared (s : State) (i : Fin 16) (w : Fin 4) (p : Payload) : Shared s (s.hit i w p) := rfl

theorem fill_shared (s : State) (i : Fin 16) (k : Key) (p : Payload) : Shared s (s.fill i k p) :=
  Shared.ite ((show Shared s (State.tell (s.setWay i _ _) _) from rfl).trans (lose_shared _)) rfl

theorem arrive_shared (s : State) (n : Nat) (r : Record) : Shared s (s.arrive n r) := by
  unfold State.arrive
  dsimp only
  split
  · exact (read_shared s _).trans (hit_shared _ _ _ _)
  · exact (read_shared s _).trans (fill_shared _ _ _ _)

/-- The way a record takes is none that is pinned against it (R64). -/
theorem victim_allowed (v : ViewSet) {critical : Bool} {k : Nat} (few : k ≤ 3) (pinned : (v.victim critical k).val < k) :
    critical = true := by
  have may := v.victim_mem_mayTake critical few
  by_contra not
  rw [Bool.not_eq_true] at not
  rw [not] at may pinned
  have := (List.mem_filter.mp may).2
  rw [decide_eq_true_eq] at this
  omega

/-- An arrival from another station keeps the table in order (R57, R63, R64, R72). -/
theorem arrival_viewFits {k : Key} {p : Payload} {w : Fin 4} {s t : State} (h : s.viewFits) (a : Arrival k p w s t)
    (kind : p.kind = k.kind) (stored : k.kind.stored = true) (other : k.station ≠ s.seq.station) (few : Item.pinned s.seq.values ≤ 3)
    (seq : t.seq = s.seq) : t.viewFits := by
  have sets : t.view.sets = s.view.sets.set (setOf k) ({ s.view.sets.get (setOf k) with
      ways := (s.view.sets.get (setOf k)).ways.set w (s.storedEntry k p w) }.touch w) := by rw [a.view]
  have hold : t.view.holdTimer = s.view.holdTimer := by rw [a.view]
  have way : ∀ i x, (t.view.sets.get i).ways.get x
      = if i = setOf k ∧ x = w then s.storedEntry k p w else (s.view.sets.get i).ways.get x := by
    intro i x
    rw [sets]
    by_cases here : i = setOf k
    · rw [here, Tab.get_set_self, (touch_fields _ w).1]
      by_cases same : x = w
      · rw [same, if_pos ⟨rfl, rfl⟩]
        exact Tab.get_set_self _ _ _
      · rw [if_neg fun h => same h.2]
        exact Tab.get_set_ne _ _ _ _ (Ne.symm same)
    · rw [if_neg fun h => here h.1, Tab.get_set_ne _ _ _ _ (Ne.symm here)]
  obtain ⟨valid, key, -, age, fresh⟩ := storedEntry_fields s (p := p) w kind
  have stored_kind : (s.storedEntry k p w).kind = k.kind := congrArg Key.kind key
  have stored_station : (s.storedEntry k p w).station = k.station := congrArg Key.station key
  have sole : ∀ x, ((s.view.sets.get (setOf k)).ways.get x).valid = true →
      ((s.view.sets.get (setOf k)).ways.get x).key = k → x = w := by
    intro x v e
    rcases a.named with holds | ⟨none, -⟩
    · obtain ⟨valid, same⟩ := Bool.and_eq_true_iff.mp holds
      obtain ⟨-, -, -, one, -⟩ := h (setOf k) w valid
      exact one x v (e.trans (beq_iff_eq.mp same).symm)
    · refine absurd (none x) ?_
      simp only [State.holds, State.found, v, e, beq_self_eq_true, Bool.and_self, Bool.true_eq_false, not_false_eq_true]
  intro i x
  dsimp only
  rw [hold, seq, way i x]
  by_cases here : i = setOf k ∧ x = w
  · obtain ⟨rfl, rfl⟩ := here
    rw [if_pos ⟨rfl, rfl⟩]
    refine fun _ => ⟨by rw [key], by rw [stored_kind]; exact stored, by rw [stored_station]; exact other, fun y v e => ?_,
      fun pinned => ?_, fun _ => ?_, fun aging => ?_, fun held => ?_⟩
    · rw [way] at v e
      by_cases same : y = x
      · exact same
      · rw [if_neg fun h => same h.2] at v e
        exact sole y v (e.trans key)
    · rw [stored_kind]
      rcases a.named with holds | ⟨-, victim⟩
      · obtain ⟨valid, same⟩ := Bool.and_eq_true_iff.mp holds
        obtain ⟨-, -, -, -, critical, -⟩ := h (setOf k) x valid
        have := critical pinned
        rw [← beq_iff_eq.mp same]
        exact this
      · exact victim_allowed _ few (by rw [← victim]; exact pinned)
    · rw [age, stored_kind]
      exact (thresholds stored).1
    · rw [fresh] at aging
      split at aging <;> cases aging
    · rw [fresh] at held
      by_contra none
      rw [if_neg none] at held
      cases held
  · rw [if_neg here]
    intro v
    obtain ⟨place, stored', other', one, rest⟩ := h i x v
    refine ⟨place, stored', other', fun y v' e => ?_, rest⟩
    rw [way] at v' e
    by_cases there : i = setOf k ∧ y = w
    · rw [if_pos there, key] at e
      obtain ⟨rfl, rfl⟩ := there
      exact absurd ⟨rfl, sole x v e.symm⟩ here
    · rw [if_neg there] at v' e
      exact one y v' e

/-- Never more than three ways are pinned (R185). -/
theorem pinned_le {s : State} (h : s.valuesFit) : Item.pinned s.seq.values ≤ 3 := (h.1.1 18).2.1

theorem arrive_tidies {s : State} (n : Nat) (r : Record) (stored : r.kind.stored = true) (other : n ≠ s.seq.station) :
    Tidies s (s.arrive n r) := fun sane tidy => by
  obtain ⟨w, arrival⟩ := arrive_arrival sane.ok n r
  have shared := arrive_shared s n r
  have line := arrival.bus
  unfold Bus.sameLine at line
  refine ⟨arrive_keeps s n r sane, ?_, ?_, ?_,
    arrival_viewFits tidy.view arrival rfl stored other (pinned_le tidy.values) shared.seq, ?_⟩
  · unfold State.valuesFit
    rw [shared.seq, line]
    exact tidy.values
  · unfold State.cellMirrors
    rw [shared.seq, shared.cell, shared.supply, shared.climate, shared.lights]
    exact tidy.cell
  · unfold State.supplyFits
    rw [shared.seq, shared.supply]
    exact tidy.supply
  · unfold State.requestsFit State.chan State.group
    rw [shared.motion, shared.lights, arrival.serial]
    exact tidy.requests

end Sys2Proof.Machine
end

