-- ==== Sys2Proof/Proofs/Counter.lean ====
section
/-! PROOFS. The Supply Monitor's figures and the setup values kept within their bounds (R5 to R16, R185). -/

namespace Sys2Proof.Machine

/-! ### The counter and the figures within their bounds (R7 to R15, R22) -/

/-- Part of the way between two values, truncated toward zero, goes past neither. -/
theorem between_le {a b n d : Int} (hn : 0 ≤ n) (nd : n ≤ d) (hd : 0 < d) : a + ((b - a) * n).tdiv d ≤ max a b := by
  rcases le_total a b with le | le
  · have h : ((b - a) * n).tdiv d ≤ b - a := by
      rw [Int.tdiv_eq_ediv_of_nonneg (Int.mul_nonneg (by omega) hn)]
      exact Int.ediv_le_of_le_mul hd (Int.mul_le_mul_of_nonneg_left nd (by omega))
    omega
  · have h : ((b - a) * n).tdiv d ≤ 0 := by
      have neg : (b - a) * n = -((a - b) * n) := by rw [← Int.neg_mul]; congr 1; omega
      rw [neg, Int.neg_tdiv, Int.tdiv_eq_ediv_of_nonneg (Int.mul_nonneg (by omega) hn)]
      have := Int.ediv_nonneg (Int.mul_nonneg (show 0 ≤ a - b by omega) hn) hd.le
      omega
    omega

theorem ocvSegments_le {volts : Int} (l : List (Nat × Nat)) (low : ∀ p ∈ l, p.2 ≤ 1000)
    (above : ∀ p ∈ l.head?, (p.1 : Int) ≤ volts) : ocvSegments volts l ≤ 1000 := by
  induction l with
  | nil => exact Nat.zero_le _
  | cons a l ih =>
    cases l with
    | nil => exact low a (List.mem_singleton.mpr rfl)
    | cons b rest =>
      unfold ocvSegments
      split
      · next within =>
        have from_a := above a rfl
        have := between_le (a := a.2) (b := b.2) (n := volts - a.1) (d := (b.1 : Int) - a.1) (by omega) (by omega) (by omega)
        have la := low a (by simp)
        have lb := low b (by simp)
        omega
      · next past =>
        refine ih (fun p m => low p (List.mem_cons_of_mem _ m)) fun p m => ?_
        have e : b = p := by simpa using m
        rw [← e]
        omega

theorem octPoints_le {v : Values} (fit : v.fit) : ∀ p ∈ Item.octPoints v, p.2 ≤ 1000 := by
  have part : ∀ i : Fin 49, 10 ≤ i.val → i.val ≤ 17 → lower16 (v.get i) ≤ 1000 := fun i l h => by
    have := fit.1 i
    rw [inRange, if_pos ⟨l, h⟩] at this
    exact this.2
  intro p m
  simp only [Item.octPoints, List.map_cons, List.map_nil, List.mem_cons, List.not_mem_nil, or_false] at m
  rcases m with rfl | rfl | rfl | rfl | rfl | rfl | rfl | rfl <;> exact part _ (by decide) (by decide)

theorem ocvCharge_le {v : Values} (fit : v.fit) (volts : Int) : ocvCharge v volts ≤ 1000 := by
  have low := octPoints_le fit
  unfold ocvCharge
  generalize Item.octPoints v = l at low
  split
  · exact Nat.zero_le _
  · next a rest =>
    split
    · exact low a (by simp)
    · next past =>
      refine ocvSegments_le _ low fun p m => ?_
      have e : a = p := by simpa using m
      rw [← e]
      omega

/-- The counter lies within 0 to Qfull, the remainder within 0 to 99, and the level is at most 6 (R7, R22). -/
def Supply.bounded (v : Values) (u : Supply) : Prop := u.q ≤ qFull v ∧ u.r ≤ 99 ∧ u.level ≤ 6

section
variable {v : Values} {u : Supply}

theorem overrangeReads_bounded (h : u.bounded v) (raw : Int) : (u.overrangeReads raw).bounded v := by
  unfold Supply.overrangeReads
  split <;> exact h

theorem lowVoltageReads_bounded (h : u.bounded v) (w : Values) (volts : Int) : (u.lowVoltageReads w volts).bounded v := by
  unfold Supply.lowVoltageReads
  split <;> exact h

theorem permitReads_bounded (h : u.bounded v) (w : Values) (temp : Int) : (u.permitReads w temp).bounded v := by
  unfold Supply.permitReads
  split
  · split <;> exact h
  · exact h

theorem countCharge_bounded (h : u.bounded v) (i : Int) : (u.countCharge v i).bounded v := by
  obtain ⟨-, r, level⟩ := h
  have remainder : (increment (Item.efficiency v) u.r i).2 ≤ 99 := by
    unfold increment
    split
    · exact Nat.le_of_lt_succ (Nat.mod_lt _ (by decide))
    · exact r
  unfold Supply.countCharge
  dsimp only
  split
  · exact ⟨le_rfl, remainder, level⟩
  · next high =>
    split
    · exact ⟨Nat.zero_le _, remainder, level⟩
    · refine ⟨?_, remainder, level⟩
      show Int.toNat _ ≤ qFull v
      omega

theorem anchors_bounded (fit : v.fit) (h : u.bounded v) (i volts : Int) : (u.anchors v i volts).bounded v := by
  obtain ⟨q, r, level⟩ := h
  unfold Supply.anchors
  dsimp only
  generalize (if fullCondition v i volts then u.fullCount + 1 else 0) = f
  generalize (if restCondition i then u.restCount + 1 else 0) = n
  split
  · exact ⟨le_rfl, Nat.zero_le _, level⟩
  · split
    · refine ⟨?_, Nat.zero_le _, level⟩
      calc ocvCharge v volts * qFull v / 1000 ≤ 1000 * qFull v / 1000 :=
            Nat.div_le_div_right (Nat.mul_le_mul_right _ (ocvCharge_le fit volts))
        _ = qFull v := Nat.mul_div_cancel_left _ (by decide)
    · exact ⟨q, r, level⟩

theorem overdrawReads_bounded (h : u.bounded v) (w : Values) (i temp : Int) : (u.overdrawReads w i temp).bounded v := by
  unfold Supply.overdrawReads
  dsimp only
  split <;> exact h

theorem levelReads_bounded (h : u.bounded v) (declared : Bool) : (u.levelReads declared).bounded v := by
  obtain ⟨q, r, level⟩ := h
  have up : min 6 (u.level + 1) ≤ 6 := min_le_left _ _
  unfold Supply.levelReads
  dsimp only
  split
  · exact ⟨q, r, up⟩
  · split
    · refine ⟨q, r, ?_⟩
      show (if _ then _ else _) ≤ 6
      split
      · exact up
      · exact level
    · split
      · refine ⟨q, r, ?_⟩
        show (if _ then _ else _) ≤ 6
        split
        · exact (Nat.sub_le _ _).trans level
        · exact level
      · exact ⟨q, r, level⟩

theorem counted_bounded (fit : v.fit) (h : u.bounded v) (i volts temp : Int) : (u.counted v i volts temp).bounded v :=
  anchors_bounded fit (countCharge_bounded
    (permitReads_bounded (lowVoltageReads_bounded (overrangeReads_bounded h i) v _) v _) _) _ _

theorem headroom_le (fit : v.fit) (low : Bool) (soc : Nat) : headroom v low soc ≤ 30000 := by
  have imax : Item.imax v ≤ 30000 := (fit.1 4).2.1
  unfold headroom
  split
  · exact Nat.zero_le _
  · split
    · exact imax
    · split
      · next short _ =>
        refine le_trans (Nat.div_le_of_le_mul ?_) imax
        rw [Nat.mul_comm 100]
        exact Nat.mul_le_mul_left _ (by omega)
      · exact Nat.zero_le _

theorem posted_bounded (fit : v.fit) (h : u.bounded v) (i temp : Int) (low clash : Bool) :
    (u.posted v i temp low clash).bounded v
      ∧ ∀ f, (u.posted v i temp low clash).latest = some f → f.soc ≤ 1000 ∧ f.h ≤ 30000 ∧ f.level ≤ 6 := by
  have read := overdrawReads_bounded h v (clampCurrent i) (clampTemperature temp)
  have l := levelReads_bounded (v := v)
    (u := { u.overdrawReads v (clampCurrent i) (clampTemperature temp) with roleClash := clash }) read
  refine ⟨l _, fun f e => ?_⟩
  have e := Option.some.inj e
  rw [← e]
  exact ⟨stateOfCharge_le_thousand _ (l _).1, headroom_le fit _ _, (l _).2.2⟩

end

/-- The stages of an interval leave the capacity that the counter is kept for. -/
theorem counted_capKept (u : Supply) (v : Values) (i volts temp : Int) : (u.counted v i volts temp).capKept = u.capKept := by
  have anchors : ∀ (x : Supply) i volts, (x.anchors v i volts).capKept = x.capKept := fun x i volts => by
    unfold Supply.anchors
    dsimp only
    generalize (if fullCondition v i volts then x.fullCount + 1 else 0) = f
    generalize (if restCondition i then x.restCount + 1 else 0) = n
    split
    · rfl
    · split <;> rfl
  have count : ∀ (x : Supply) i, (x.countCharge v i).capKept = x.capKept := fun x _ => by
    unfold Supply.countCharge
    dsimp only
    split
    · rfl
    · split <;> rfl
  have permit : ∀ (x : Supply) temp, (x.permitReads v temp).capKept = x.capKept := fun x _ => by
    unfold Supply.permitReads
    split
    · split <;> rfl
    · rfl
  have low : ∀ (x : Supply) volts, (x.lowVoltageReads v volts).capKept = x.capKept := fun x _ => by
    unfold Supply.lowVoltageReads
    split <;> rfl
  have range : ∀ (x : Supply) raw, (x.overrangeReads raw).capKept = x.capKept := fun x _ => by
    unfold Supply.overrangeReads
    split <;> rfl
  unfold Supply.counted
  rw [anchors, count, permit, low, range]

theorem posted_kept (u : Supply) (v : Values) (i temp : Int) (low clash : Bool) :
    let p := u.posted v i temp low clash
    p.capKept = u.capKept ∧ p.q = u.q ∧ p.r = u.r ∧ p.anchored = u.anchored := by
  have level : ∀ (x : Supply) d, let y := x.levelReads d
      y.capKept = x.capKept ∧ y.q = x.q ∧ y.r = x.r ∧ y.anchored = x.anchored := fun x d => by
    unfold Supply.levelReads
    dsimp only
    split
    · exact ⟨rfl, rfl, rfl, rfl⟩
    · split
      · exact ⟨rfl, rfl, rfl, rfl⟩
      · split <;> exact ⟨rfl, rfl, rfl, rfl⟩
  have over_ : ∀ i temp, let y := u.overdrawReads v i temp
      y.capKept = u.capKept ∧ y.q = u.q ∧ y.r = u.r ∧ y.anchored = u.anchored := fun i temp => by
    unfold Supply.overdrawReads
    dsimp only
    split <;> exact ⟨rfl, rfl, rfl, rfl⟩
  dsimp only
  obtain ⟨a, b, c, d⟩ := over_ (clampCurrent i) (clampTemperature temp)
  obtain ⟨a', b', c', d'⟩ := level { u.overdrawReads v (clampCurrent i) (clampTemperature temp) with roleClash := clash }
    (((u.overdrawReads v (clampCurrent i) (clampTemperature temp)).overdraw && !u.overdraw) || (u.lowVoltage && !low))
  exact ⟨a'.trans a, b'.trans b, c'.trans c, d'.trans d⟩

/-! ### Setup values in their ranges (R185, R186) -/

theorem clampParts_fits (hi lo v : Nat) (l : lo < 65536) :
    upper16 (clampParts hi lo v) ≤ hi ∧ lower16 (clampParts hi lo v) ≤ lo := by
  unfold clampParts upper16 lower16
  constructor <;> omega

theorem clampItem_inRange (i : Fin 49) (v : Nat) : inRange i.val (clampItem i.val v) := by
  unfold inRange clampItem
  by_cases points : 10 ≤ i.val ∧ i.val ≤ 17
  · rw [if_pos points, if_pos points]
    exact clampParts_fits 20000 1000 v (by decide)
  · rw [if_neg points, if_neg points]
    by_cases roster : i.val = 20
    · rw [if_pos roster, if_pos roster]
      exact Nat.mod_lt _ (by decide)
    · rw [if_neg roster, if_neg roster]
      by_cases tanks : 22 ≤ i.val ∧ i.val ≤ 24
      · rw [if_pos tanks, if_pos tanks]
        exact clampParts_fits 4095 4095 v (by decide)
      · rw [if_neg tanks, if_neg tanks]
        have table : ∀ j : Fin 49, 0 < (itemRange j.val).2.2 ∧ (itemRange j.val).1 % (itemRange j.val).2.2 = 0
            ∧ (itemRange j.val).1 ≤ (itemRange j.val).2.1 := by decide
        obtain ⟨pos, on, le⟩ := table i
        obtain ⟨low, high⟩ := clampStep_range v pos on le
        exact ⟨low, high, clampStep_mod v⟩

theorem takeSetup_tidies (s : State) (i v : Nat) : Tidies s (s.takeSetup i v) := fun sane tidy => by
  refine ⟨takeSetup_keeps s i v sane, ?_⟩
  by_cases h : i < 49
  · rw [takeSetup_item s h]
    obtain ⟨fit, pending, gather⟩ := tidy.values
    refine ⟨⟨fit, fun j x e => ?_, gather⟩, tidy.cell, tidy.supply, tidy.view, tidy.requests⟩
    by_cases same : j = ⟨i, h⟩
    · have e : clampItem i v = x := by
        rw [same] at e
        exact Option.some.inj ((Tab.get_set_self _ _ _).symm.trans e)
      rw [same, ← e]
      exact clampItem_inRange ⟨i, h⟩ v
    · exact pending j x ((Tab.get_set_ne _ _ _ _ (Ne.symm same)).symm.trans e)
  · rw [takeSetup_none s h]
    exact ⟨tidy.values, tidy.cell, tidy.supply, tidy.view, tidy.requests⟩

theorem defaults_fit : Values.fit defaultValues :=
  have fits : State.reset.Fits := Proofs.fitsAtReset
  fits.values.1

/-- The values in force after Setup fit, where those before and the pending ones did (R185, R186). -/
theorem valuesAtEnd_fit {v : Values} {p : Tab 49 (Option Nat)} (fit : v.fit)
    (pending : ∀ (i : Fin 49) (x : Nat), p.get i = some x → inRange i.val x) : Values.fit (valuesAtEnd v p).1 := by
  have merged : ∀ i : Fin 49, inRange i.val ((mergeItems v p).get i) := fun i => by
    rw [mergeItems_get]
    cases e : p.get i with
    | none => exact fit.1 i
    | some x => exact pending i x e
  have get := valuesAtEnd_get v p
  refine ⟨fun i => ?_, ?_, ?_⟩
  · rw [get i]
    split
    · exact defaults_fit.1 i
    · split
      · next e =>
        rw [← e]
        have run := (merged 27).1
        have start := (merged 26).1
        have high := (merged 27).2.1
        exact ⟨le_min run start, (min_le_left _ _).trans high, Nat.mod_one _⟩
      · exact merged i
  · show (valuesAtEnd v p).1.get 27 ≤ (valuesAtEnd v p).1.get 26
    rw [get 27, get 26, if_neg (by simp), if_pos rfl, if_neg (by simp), if_neg (by decide)]
    exact min_le_right _ _
  · unfold valuesAtEnd
    dsimp only
    split
    · assumption
    · have points : ∀ i : Fin 49, 10 ≤ i.val ∧ i.val ≤ 17 →
          (withDefaultTable (withRunDraw (mergeItems v p))).get i = defaultValues.get i := fun i h => by
        rw [withDefaultTable_get, if_pos h]
      rw [tableAscends_iff, points 10 (by decide), points 11 (by decide), points 12 (by decide), points 13 (by decide),
        points 14 (by decide), points 15 (by decide), points 16 (by decide), points 17 (by decide)]
      exact (tableAscends_iff _).mp defaults_fit.2.2

end Sys2Proof.Machine
end

