-- ==== Sys2Proof/Proofs/Phases.lean ====
section
/-! PROOFS. A tidy state through the resets and the phases (R183 to R186). -/

namespace Sys2Proof.Machine

/-! ### Resets and phases (R183, R184, R186) -/

theorem monitor_minded (s : State) (n : Fin 19) (d : Bool) : Minded s (s.monitor n d) := by
  have line := monitor_line s n d
  unfold Bus.sameLine at line
  exact ⟨by rw [monitor_eq], by rw [monitor_eq], by rw [monitor_eq], by rw [monitor_eq], by rw [line], by rw [monitor_eq],
    by rw [monitor_eq], by rw [monitor_eq], by rw [monitor_eq], fun _ => by rw [monitor_eq], by rw [monitor_eq],
    by rw [monitor_eq]; exact id, by rw [monitor_eq]⟩

theorem monitor_requests (s : State) (n : Fin 19) (d : Bool) (h : s.requestsFit) : (s.monitor n d).requestsFit := by
  rw [monitor_eq]
  exact h

theorem monitor_tidies (s : State) (n : Fin 19) (d : Bool) : Tidies s (s.monitor n d) :=
  (monitor_minded s n d).tidies (monitor_calm s n d).keeps (monitor_requests s n d)

/-- What the cell holds may come into force at a reset. -/
def Cell.serves (c : Cell) : Prop := c.values.fit ∧ c.q ≤ c.capKept * 3600000 ∧ c.r ≤ 99

theorem State.Tidy.serves {s : State} (h : s.Tidy) : s.cell.serves := by
  obtain ⟨values, q, r, -, cap, -⟩ := h.cell
  refine ⟨by rw [values]; exact h.values.1, by rw [q, cap]; exact h.supply.1, by rw [r]; exact h.supply.2.1⟩

theorem Cell.default_serves : Cell.default.serves := ⟨defaults_fit, by decide, by decide⟩

/-- A reset leaves what the cell holds in force. -/
theorem inResetWith_tidy (s : State) (isRestart : Bool) (station : Nat) (fns : Functions) {c : Cell} (h : c.serves) :
    (s.inResetWith isRestart station fns c).Tidy := by
  have way : ∀ i w, (((s.inResetWith isRestart station fns c).view.sets.get i).ways.get w) = Entry.empty := fun i w => by
    show ((View.reset.sets.get i).ways.get w) = _
    unfold View.reset
    dsimp only
    rw [Tab.get_fill, Tab.get_fill]
  have group : ∀ g, (s.inResetWith isRestart station fns c).group g = { pending := none, result := .none } := fun g =>
    Tab.get_fill _ _
  refine ⟨⟨h.1, fun i x e => ?_, ?_, ?_⟩, ⟨rfl, rfl, rfl, rfl, rfl, fun z => ?_, rfl, rfl, rfl⟩,
    ⟨h.2.1, h.2.2, Nat.zero_le _, fun _ k => Bool.noConfusion (k : false = true), nofun⟩, fun i w valid => ?_,
    fun ch => ?_, fun g r e => ?_⟩
  · have e : (Tab.fill 49 (none : Option Nat)).get i = some x := e
    rw [Tab.get_fill] at e
    cases e
  · exact (by decide : 10 ≤ Config.gatherDefaultMs)
  · exact (by decide : Config.gatherDefaultMs ≤ 250)
  · exact (congrArg Zone.setpoint (Tab.get_map c.setpoints (fun p => ({ temp := 0, setpoint := p, demand := 0 } : Zone)) z)).symm
  · rw [way] at valid
    cases valid
  · match ch with
    | 0 | 1 => exact Nat.zero_le _
  · rw [group] at e
    cases e

theorem connects_tidies (s : State) (p : Straps) : Tidies s (s.connects p) := fun _ _ =>
  ⟨connects_sane s p, inResetWith_tidy _ _ _ _ Cell.default_serves⟩

theorem restarts_tidies (s : State) (b : Bool) : Tidies s (s.restarts b) := fun _ tidy =>
  ⟨restarts_sane s b, inResetWith_tidy _ _ _ _ tidy.serves⟩

theorem Cell.tested_serves {c : Cell} (h : c.serves) (isRestart : Bool) : (c.tested isRestart).serves := by
  unfold Cell.tested
  split
  · exact Cell.default_serves
  · exact h

theorem released_tidies (s : State) (p : Straps) : Tidies s (s.released p) := fun _ tidy => by
  refine ⟨released_sane s p, ?_⟩
  have listens : (s.listens p).Tidy := by
    have reset := inResetWith_tidy (s.setPins { s.pins with straps := p }) s.seq.isRestart (p.st + 1) p.fs
      (Cell.tested_serves tidy.serves s.seq.isRestart)
    refine reset.minded (t := s.listens p) ⟨rfl, rfl, rfl, rfl, rfl, rfl, ?_, ?_, rfl, fun _ => rfl, rfl, id, rfl⟩
      ⟨fun ch => ?_, reset.requests.2⟩
    · unfold State.listens
      dsimp only
      split <;> rfl
    · unfold State.listens
      dsimp only
      split <;> rfl
    · refine le_trans (le_of_eq ?_) (reset.requests.1 ch)
      unfold State.listens State.chan
      dsimp only
      split <;> rfl
  rw [released_eq]
  split
  · exact listens.minded (monitor_minded _ _ _) (monitor_requests _ _ _ listens.requests)
  · exact listens

theorem listenEnds_tidies (s : State) (h : s.seq.phase = .listen) (p : Periods) (d : Due) :
    Tidies s (((s.setSeq { s.seq with phase := .setup, phaseTimer := some Config.setupMs }).setPeriods p).setDue d) :=
  Minded.tidies ⟨rfl, rfl, rfl, rfl, rfl, rfl, rfl, rfl, rfl, fun _ => rfl, rfl, id, rfl⟩ (listenEnds_keeps s h p d) id

theorem setupHandled_tidies (s : State) (r : Record) : Tidies s (s.setupHandled r) :=
  Tidies.ite (fun _ => Tidies.refl s) (fun _ => Tidies.ite
    (fun _ => setSeq_tidies s _ rfl rfl rfl rfl (setSeq_keeps s _ (fun _ => sat255_le _) rfl id))
    (fun _ => takeSetup_tidies s _ _))

/-- A table brought into line with the roster and the pinned ways is in order (R75). -/
theorem brought_into_line {s t : State} (h : s.viewFits) (station : t.seq.station = s.seq.station)
    (hold : t.view.holdTimer = s.view.holdTimer)
    (ways : ∀ i w, let e := (s.view.sets.get i).ways.get w
      if e.valid = true ∧ (t.seq.values.get 19 = 1 ∧ (t.seq.values.get 20).testBit (e.station - 1) = false
        ∨ e.kind.critical = false ∧ w.val < t.seq.values.get 18) then ((t.view.sets.get i).ways.get w).valid = false
      else (t.view.sets.get i).ways.get w = e) : t.viewFits := by
  have stays : ∀ i w, ((t.view.sets.get i).ways.get w).valid = true →
      (t.view.sets.get i).ways.get w = (s.view.sets.get i).ways.get w
        ∧ (w.val < Item.pinned t.seq.values → ((s.view.sets.get i).ways.get w).kind.critical = true) := by
    intro i w valid
    have way := ways i w
    dsimp only at way
    split at way
    · rw [way] at valid
      cases valid
    · next out =>
      refine ⟨way, fun pinned => ?_⟩
      by_contra not
      rw [way] at valid
      exact out ⟨valid, .inr ⟨by simpa using not, pinned⟩⟩
  intro i w
  dsimp only
  intro valid
  obtain ⟨same, critical⟩ := stays i w valid
  rw [same] at valid ⊢
  obtain ⟨place, stored, other, one, -, fresh, aging, held⟩ := h i w valid
  refine ⟨place, stored, by rw [station]; exact other, fun x v e => ?_, critical, fresh, aging, by rw [hold]; exact held⟩
  obtain ⟨same', -⟩ := stays i x v
  rw [same'] at v e
  exact one x v e

/-- The end of Setup takes values that fit into force, and the table, the counter and the cell follow them. -/
theorem setupEnds_tidies (s : State) (h : s.seq.phase = .setup) : Tidies s s.setupEnds := fun sane tidy => by
  refine ⟨setupEnds_keeps s h sane, ?_⟩
  have fit : s.seqAtEnd.values.fit := valuesAtEnd_fit tidy.values.1 tidy.values.2.1
  obtain ⟨values, q, r, anchored, cap, setpoints, chosen, lockout, scenes⟩ := tidy.cell
  obtain ⟨bound, rest, level, kept, figures⟩ := tidy.supply
  have fields := setupEnds_fields s
  have view : s.setupEnds.view = s.valuesTaken.rosterAndPinning.view := by rw [fields]
  have seq : s.setupEnds.seq = s.seqAtEnd := by rw [fields]
  have cell : s.setupEnds.cell = s.cellAtEnd := by rw [fields]; rfl
  have supply : s.setupEnds.supply = if s.seq.fns.supply then { s.supplyAtEnd with intervalTimer := some 0 }
      else s.supplyAtEnd := by rw [fields]
  have climate : s.setupEnds.climate.zones = s.climate.zones ∧ s.setupEnds.climate.chosen = s.climate.chosen
      ∧ s.setupEnds.climate.lockout = s.climate.lockout := by
    rw [fields]
    dsimp only
    split <;> exact ⟨rfl, rfl, rfl⟩
  have lights : s.setupEnds.lights = s.lights := by rw [fields]; rfl
  have counter : s.setupEnds.supply.q = s.supplyAtEnd.q ∧ s.setupEnds.supply.r = s.supplyAtEnd.r
      ∧ s.setupEnds.supply.anchored = s.supplyAtEnd.anchored ∧ s.setupEnds.supply.capKept = s.supplyAtEnd.capKept
      ∧ s.setupEnds.supply.level = s.supplyAtEnd.level ∧ s.setupEnds.supply.latest = s.supplyAtEnd.latest := by
    rw [supply]
    split <;> exact ⟨rfl, rfl, rfl, rfl, rfl, rfl⟩
  obtain ⟨sq, sr, sa, sc, sl, sf⟩ := counter
  have recounted : s.supplyAtEnd.q ≤ s.supplyAtEnd.capKept * 3600000 ∧ s.supplyAtEnd.r ≤ 99
      ∧ s.supplyAtEnd.level = s.supply.level ∧ s.supplyAtEnd.latest = s.supply.latest := by
    unfold State.supplyAtEnd Supply.recount
    split
    · split
      · exact ⟨bound, rest, rfl, rfl⟩
      · exact ⟨Nat.div_le_self _ _, Nat.zero_le _, rfl, rfl⟩
    · exact ⟨bound, rest, rfl, rfl⟩
  obtain ⟨rq, rr, rl, rf⟩ := recounted
  refine ⟨⟨?_, fun i x e => ?_, ?_, ?_⟩, ⟨?_, ?_, ?_, ?_, ?_, fun z => ?_, ?_, ?_, ?_⟩,
    ⟨?_, ?_, ?_, fun fitted _ => ?_, ?_⟩, ?_, fun ch => ?_, ?_⟩
  · rw [seq]; exact fit
  · rw [seq] at e
    have e : (Tab.fill 49 (none : Option Nat)).get i = some x := e
    rw [Tab.get_fill] at e
    cases e
  · rw [fields]; exact (fit.1 48).1
  · rw [fields]; exact (fit.1 48).2.1
  · rw [cell, seq]; rfl
  · rw [cell, sq]; rfl
  · rw [cell, sr]; rfl
  · rw [cell, sa]; rfl
  · rw [cell, sc]; rfl
  · rw [cell, climate.1]; exact setpoints z
  · rw [cell, climate.2.1]; exact chosen
  · rw [cell, climate.2.2]; exact lockout
  · rw [cell, lights]; exact scenes
  · rw [sq, sc]; exact rq
  · rw [sr]; exact rr
  · rw [sl, rl]; exact level
  · rw [sc, seq]
    rw [seq] at fitted
    have on : s.seq.fns.supply = true := fitted
    unfold State.supplyAtEnd
    rw [if_pos on]
    exact recount_capKept _ _
  · rw [sf, rf]; exact figures
  · refine brought_into_line tidy.view (by rw [seq]; rfl) (by rw [view, rosterAndPinning_view]; rfl) fun i => ?_
    obtain ⟨-, -, -, ways⟩ := rosterAndPinning_set s.valuesTaken i
    rw [seq, view]
    exact ways
  · refine le_trans (le_of_eq ?_) ((tidy.requests.1 ch).trans (le_of_eq ?_))
    · rw [setupEnds_chan]
      split <;> rfl
    · rw [fields]; rfl
  · have status : s.setupEnds.status = s.status := by rw [fields]; rfl
    unfold State.group
    rw [lights, status]
    exact tidy.requests.2

end Sys2Proof.Machine
end

