-- ==== Sys2Proof/Proofs/TidyOwners.lean ====
section
/-! PROOFS. A tidy state through entry into Run and the owners' operations. -/

namespace Sys2Proof.Machine

/-! ### The owners' operations, as commands bring them about -/

theorem runEntryNotices_tends {k : Scope} {n : Nat} (s : State) : Tends k n s s.runEntryNotices :=
  Tends.foldl _ (fun s _ => Tends.ite (fun _ => (hand_tends s _ _).trans (raiseAttention_tends _ _ _)) (fun _ => Tends.refl _ _ s)) _ s

theorem enterRun_tidies (s : State) (h : s.seq.phase ≠ .run) :
    Tidies s (s.setSeq { s.seq with phase := .run, phaseTimer := none }) :=
  setSeq_tidies s _ rfl rfl rfl rfl (enterRun_keeps s h)

theorem runEntered_tidies (s : State) (h : s.seq.phase ≠ .run) : Tidies s s.runEntered := by
  have all := anyone_loads
  unfold State.runEntered
  dsimp only
  refine (enterRun_tidies s h).trans ?_
  generalize s.setSeq _ = u
  refine Tidies.trans ?_ (((ceilingFollows_calm _).trans (courtesyFollows_calm _ none)).tidies (k := anyone)
    ((ceilingFollows_tends _).trans (courtesyFollows_tends _ none)))
  generalize hv : (u.setDue _).runEntryNotices.waterEntersRun.frostService.heaterFollows.padFollows = v
  have kv : Tidies u v := hv ▸ (((setDue_calm u _).trans (runEntryNotices_calm _)).trans
    ((waterEntersRun_calm _).trans ((frostService_calm _).trans ((heaterFollows_calm _).trans
      (padFollows_calm _))))).tidies (k := anyone) (((setDue_tends u _ fun not => absurd trivial not).trans (runEntryNotices_tends _)).trans
    ((waterEntersRun_tends trivial _).trans ((frostService_tends _).trans ((heaterFollows_tends _).trans
      (padFollows_tends _)))))
  exact kv.trans (Tidies.ite (fun _ => (motionEntersRun_steady v).tidies (k := anyone)
    (motionEntersRun_tends (fun _ => trivial) (fun _ => trivial) v)) (fun _ => Tidies.refl v))

/-! ### The Climate Controller -/

theorem setCall_tends {k : Scope} {n : Nat} (s : State) : Tends k n s s.setCall :=
  Tends.ite (fun _ => setClimate_tends s _ rfl rfl rfl) (fun _ => Tends.refl k n s)

theorem countCall_tends {k : Scope} {n : Nat} (s : State) : Tends k n s s.countCall :=
  Tends.ite (fun _ => setClimate_tends s _ rfl rfl rfl) (fun _ => Tends.refl k n s)

/-- Fields of the Climate Controller other than the setpoints, the chosen mode and Lockout. -/
theorem setClimate_tidies (s : State) (x : Climate)
    (setpoints : ∀ z, (x.zones.get z).setpoint = (s.climate.zones.get z).setpoint) (chosen : x.chosen = s.climate.chosen)
    (lockout : x.lockout = s.climate.lockout) : Tidies s (s.setClimate x) :=
  Minded.tidies ⟨rfl, rfl, rfl, rfl, rfl, rfl, rfl, rfl, rfl, setpoints, chosen, fun h => h.trans lockout.symm, rfl⟩
    (setClimate_calm s x).keeps id

theorem climateReads_tidies (s : State) (x y : Int) : Tidies s (s.climateReads x y) := by
  have all := anyone_loads
  refine (setClimate_tidies s _ (fun z => ?_) (by rfl) (by rfl)).trans (Tidies.ite
    (fun _ => ((setCall_calm _).trans ((countCall_calm _).trans (heaterFollows_calm _))).tidies (k := anyone)
      ((setCall_tends _).trans ((countCall_tends _).trans (heaterFollows_tends _)))) (fun _ => Tidies.refl _))
  have two : z = 0 ∨ z = 1 := by omega
  rcases two with rfl | rfl <;> simp [Tab.modify, Zone.reading]

theorem hrun_tidies (s : State) (b : Bool) : Tidies s (let s := s.setPins { s.pins with hrun := b }
    match s.climate.heater, b with
    | .starting, true => s.enterRunning
    | .running, false => if s.pins.hflt then s else s.heaterFails
    | _, _ => s) := by
  have all := anyone_loads
  refine (setPins_tidies s { s.pins with hrun := b }).trans ?_
  dsimp only
  split
  · exact (enterRunning_calm _).tidies (k := anyone) (enterRunning_tends _)
  · exact Tidies.ite (fun _ => Tidies.refl _)
      (fun _ => (heaterFails_calm _).tidies (k := anyone) (heaterFails_tends trivial _))
  · exact Tidies.refl _

theorem hflt_tidies (s : State) (b : Bool) : Tidies s (let s := s.setPins { s.pins with hflt := b }
    match s.climate.heater, b with
    | .starting, true => s.heaterFails
    | .running, true => s.heaterFails
    | _, _ => s) := by
  have all := anyone_loads
  refine (setPins_tidies s { s.pins with hflt := b }).trans ?_
  dsimp only
  split
  · exact (heaterFails_calm _).tidies (k := anyone) (heaterFails_tends trivial _)
  · exact (heaterFails_calm _).tidies (k := anyone) (heaterFails_tends trivial _)
  · exact Tidies.refl _

theorem purgeEnds_tidies (s : State) : Tidies s s.purgeEnds := by
  have all := anyone_loads
  exact (setClimate_tidies s _ (by exact fun _ => rfl) (by rfl) (by rfl)).trans
    (((release_calm _ _).tidies (k := anyone) (release_tends _ _)).trans
      (Tidies.ite (fun _ => (askHeater_calm _).tidies (k := anyone) (askHeater_tends _)) (fun _ => Tidies.refl _)))

theorem setCall_tidies (s : State) : Tidies s s.setCall := (setCall_calm s).tidies (k := anyone) (setCall_tends s)

theorem heaterFollows_tidies (s : State) : Tidies s s.heaterFollows := by
  have all := anyone_loads
  exact (heaterFollows_calm s).tidies (k := anyone) (heaterFollows_tends s)

theorem modeChanged_tidies (s : State) : Tidies s s.modeChanged := by
  have all := anyone_loads
  exact (modeChanged_calm s).tidies (k := anyone) (modeChanged_tends s)

theorem takeSetpoint_tidies (s : State) (z : Fin 2) (v : Int) : Tidies s (s.takeSetpoint z v) := by
  unfold State.takeSetpoint
  dsimp only
  refine Tidies.trans (t := (s.setClimate { s.climate with
      zones := s.climate.zones.modify z fun x => { x with
        setpoint := clampInt 50 300 v, demand := zoneDemand (clampInt 50 300 v) x.temp } }).setCell
      { s.cell with setpoints := s.cell.setpoints.set z (clampInt 50 300 v) }) (fun sane tidy => ?_)
    ((setDue_tidies _ _).trans ((setCall_tidies _).trans (heaterFollows_tidies _)))
  obtain ⟨values, q, r, anchored, cap, setpoints, chosen, lockout, scenes⟩ := tidy.cell
  refine ⟨((setClimate_calm s _).keeps.trans (setCell_keeps _ _)) sane, tidy.values,
    ⟨values, q, r, anchored, cap, fun j => ?_, chosen, lockout, scenes⟩, tidy.supply, tidy.view, tidy.requests⟩
  by_cases same : z = j
  · subst same
    simp [Tab.modify, State.setClimate, State.setCell]
  · simpa [Tab.modify, State.setClimate, State.setCell, same] using setpoints j

theorem takeMode_tidies (s : State) (m : ClimateMode) : Tidies s (s.takeMode m) := by
  refine Tidies.ite (fun _ => Tidies.refl s) (fun _ => Tidies.trans (fun sane tidy => ?_) (modeChanged_tidies _))
  obtain ⟨values, q, r, anchored, cap, setpoints, -, lockout, scenes⟩ := tidy.cell
  exact ⟨((setClimate_calm s _).keeps.trans (setCell_keeps _ _)) sane, tidy.values,
    ⟨values, q, r, anchored, cap, setpoints, rfl, lockout, scenes⟩, tidy.supply, tidy.view, tidy.requests⟩

theorem heaterResets_tidies (s : State) : Tidies s s.heaterResets := by
  unfold State.heaterResets
  dsimp only
  refine Tidies.trans (fun sane tidy => ?_) (heaterFollows_tidies _)
  obtain ⟨values, q, r, anchored, cap, setpoints, chosen, lockout, scenes⟩ := tidy.cell
  have first := (setClimate_calm s { s.climate with
    failures := 0, lockout := false, heater := if s.climate.heater = .lockout then .off else s.climate.heater }).keeps
  split
  · have second := (first.trans (setCell_keeps _ { s.cell with lockout := false })) sane
    exact monitor_tidies _ Mon.lockout false second ⟨tidy.values,
      ⟨values, q, r, anchored, cap, setpoints, chosen, rfl, scenes⟩, tidy.supply, tidy.view, tidy.requests⟩
  · next was =>
    exact ⟨first sane, tidy.values, ⟨values, q, r, anchored, cap, setpoints, chosen, lockout.trans (by simpa using was), scenes⟩,
      tidy.supply, tidy.view, tidy.requests⟩

/-! ### The Light Controller -/

theorem keepScene_tidies (s : State) (n : Fin 4) : Tidies s (s.keepScene n) := by
  refine Tidies.trans (fun sane tidy => ?_) (answer_tidies _ _ _)
  obtain ⟨values, q, r, anchored, cap, setpoints, chosen, lockout, -⟩ := tidy.cell
  exact ⟨((setLights_calm s _).keeps.trans (setCell_keeps _ _)) sane, tidy.values,
    ⟨values, q, r, anchored, cap, setpoints, chosen, lockout, rfl⟩, tidy.supply, tidy.view, tidy.requests⟩

theorem courtesyResumes_tidies (s : State) : Tidies s s.courtesyResumes := by
  have all := anyone_loads
  exact (courtesyResumes_calm s).tidies (k := anyone) (courtesyResumes_tends s)

theorem takeLevel_tidies (s : State) (ch : Fin 8) (v : Int) : Tidies s (s.takeLevel ch v) := by
  have all := anyone_loads
  unfold State.takeLevel
  dsimp only
  refine Tidies.trans ?_ (courtesyResumes_tidies _)
  refine answer_tidies_after (k := anyone) (Calm.loose ?_) ?_ _ _
  · exact (Calm.ite (fun _ => courtesyEnds_calm s) (fun _ => Calm.refl s)).trans (requestGroup_calm _ _ _ _)
  · exact (Tends.ite (fun _ => courtesyEnds_tends s) (fun _ => Tends.refl _ _ s)).trans
      (requestGroup_tends _ _ _ _ le_rfl)

theorem takeAllOff_tidies (s : State) : Tidies s s.takeAllOff := by
  have all := anyone_loads
  unfold State.takeAllOff
  dsimp only
  refine Tidies.trans (Calm.tidies (k := anyone) ?_ ?_) (answer_tidies _ _ _)
  · exact (((courtesyEnds_calm s).trans (abandonRequest_calm _ _)).trans (abandonRequest_calm _ _)).trans
      ((takeTargets_calm _ _ _).trans (takeTargets_calm _ _ _))
  · exact (((courtesyEnds_tends s).trans (abandonRequest_tends _ _)).trans (abandonRequest_tends _ _)).trans
      ((takeTargets_tends _ _ _).trans (takeTargets_tends _ _ _))

theorem takeScene_tidies (s : State) (n : Fin 4) : Tidies s (s.takeScene n) := by
  have all := anyone_loads
  unfold State.takeScene
  dsimp only
  refine Tidies.trans (answer_tidies_after (k := anyone) (Calm.loose ?_) ?_ _ _) (courtesyResumes_tidies _)
  · exact (courtesyEnds_calm s).trans ((requestGroup_calm _ _ _ _).trans (requestGroup_calm _ _ _ _))
  · exact (courtesyEnds_tends s).trans ((requestGroup_tends _ _ _ _ le_rfl).trans (requestGroup_tends _ _ _ _ le_rfl))

/-! ### The Motion Controller -/

theorem takeExtend_tidies (s : State) (code : Nat) (ch : Fin 2) : Tidies s (s.takeExtend code ch) := by
  have all := anyone_loads
  unfold State.takeExtend
  dsimp only
  split
  · exact answer_tidies s _ _
  · split
    · exact answer_tidies s _ _
    · exact answer_tidies s _ _
    · exact answer_tidies s _ _
    · exact (answer_tidies s code Outcome.waiting).trans ((modChan_same _ ch _ rfl).tidies (k := anyone)
        (modChan_tends _ ch _ fun _ => le_rfl))
  · refine (answer_tidies s code Outcome.waiting).trans (Tidies.ite (fun _ => ?_) (fun _ => ?_))
    · exact (modChan_same _ ch _ rfl).tidies (k := anyone) (modChan_tends _ ch _ fun _ => le_rfl)
    · exact (brake_steady _ _ _ _ _).tidies (k := anyone) (brake_tends _ _ _ _ _ fun _ => le_rfl)
  · refine (answer_tidies s code Outcome.waiting).trans (Tidies.ite (fun _ => ?_) (fun _ => ?_))
    · exact (modChan_same _ ch _ rfl).tidies (k := anyone) (modChan_tends _ ch _ fun _ => le_rfl)
    · exact (brake_steady _ _ _ _ _).tidies (k := anyone) (brake_tends _ _ _ _ _ fun _ => le_rfl)
  · refine Tidies.ite (fun _ => answer_tidies s _ _) (fun _ => (answer_tidies s code Outcome.waiting).trans ?_)
    exact (takePending_steady _ ch _ _).tidies (k := anyone) (takePending_tends trivial trivial _ _ _ le_rfl)

theorem takeRetract_tidies (s : State) (code : Nat) (ch : Fin 2) : Tidies s (s.takeRetract code ch) := by
  have all := anyone_loads
  unfold State.takeRetract
  dsimp only
  split
  · exact answer_tidies s _ _
  · exact answer_tidies s _ _
  · exact (answer_tidies s code Outcome.accepted).trans ((backoffRetracts_steady _ ch _).tidies (k := anyone) (backoffRetracts_tends _ ch _))
  · exact (answer_tidies s code Outcome.waiting).trans ((brake_steady _ _ _ _ _).tidies (k := anyone)
      (brake_tends _ _ _ _ _ fun _ => le_rfl))
  · split
    · exact answer_tidies s _ _
    · exact answer_tidies s _ _
    · exact answer_tidies s _ _
    · refine (answer_tidies s code Outcome.waiting).trans (Tidies.trans ((modChan_same _ ch _ rfl).tidies (k := anyone)
        (modChan_tends _ ch _ fun _ => le_rfl)) (Tidies.ite (fun _ => ?_) (fun _ => Tidies.refl _)))
      exact (rerank_calm _ _ _ (by decide)).tidies (k := anyone) (rerank0_tends _ _)
  · exact (answer_tidies s code Outcome.waiting).trans ((takePending_steady _ ch _ _).tidies (k := anyone)
      (takePending_tends trivial trivial _ _ _ le_rfl))

theorem takeStop_tidies (s : State) (code : Nat) (ch : Fin 2) : Tidies s (s.takeStop code ch) := by
  have all := anyone_loads
  have releases : ∀ (u : State) f, (∀ c, (f c).st = c.st) → (∀ c, (f c).req = 0) →
      Tidies u ((u.modChan ch f).release (loadMotor ch)) := fun u f st req =>
    ((modChan_same u ch f (st _)).tidies (k := anyone) (modChan_tends u ch f fun _ => by rw [req]; exact Nat.zero_le _)).trans
      ((release_calm _ _).tidies (k := anyone) (release_tends _ _))
  unfold State.takeStop
  dsimp only
  refine Tidies.ite (fun _ => answer_tidies s _ _) (fun _ => Tidies.ite (fun _ => answer_tidies s _ _)
    (fun _ => (answer_tidies s _ _).trans (Tidies.ite (fun _ => ?_) (fun _ => Tidies.ite (fun _ => ?_)
      (fun _ => Tidies.ite (fun _ => Tidies.refl _) (fun _ => ?_))))))
  · exact (brake_steady _ _ _ _ _).tidies (k := anyone) (brake_tends _ _ _ _ _ fun _ => Nat.zero_le _)
  · split
    · exact releases _ _ (fun _ => rfl) (fun _ => rfl)
    · exact releases _ _ (fun _ => rfl) (fun _ => rfl)
    · exact Tidies.refl _
  · exact releases _ _ (fun _ => rfl) (fun _ => rfl)

end Sys2Proof.Machine
end

