-- ==== Sys2Proof/Proofs/Upkeep.lean ====
section
/-! PROOFS. A tidy state through the accounting interval, the line and the Broker. -/

namespace Sys2Proof.Machine

/-! ### The Supply Monitor -/

theorem handChange_minded (s : State) (n : Fin 19) (a b : Bool) :
    Minded s (s.handChange n a b) ∧ (s.handChange n a b).supply = s.supply
      ∧ (s.requestsFit → (s.handChange n a b).requestsFit) := by
  unfold State.handChange
  split
  · exact ⟨Minded.refl s, rfl, id⟩
  · exact ⟨monitor_minded s n b, by rw [monitor_eq], monitor_requests s n b⟩

theorem supplyChanged_tidies (s : State) : Tidies s s.supplyChanged := by
  have all := anyone_loads
  exact (supplyChanged_steady s).tidies (k := anyone) (supplyChanged_tends (fun _ _ => trivial) trivial s)

/-- An interval keeps the figures within their bounds, and the cell holds the counter (R7, R11, R12, R22, R28). -/
theorem accountingInterval_tidies (s : State) (fitted : s.seq.fns.supply = true)
    (runs : s.supply.intervalTimer.isSome = true) (i volts temp : Int) : Tidies s (s.accountingInterval i volts temp) :=
  fun sane tidy => by
  obtain ⟨values, q, r, anchored, cap, setpoints, chosen, lockout, scenes⟩ := tidy.cell
  obtain ⟨bound, rest, level, kept, -⟩ := tidy.supply
  have kept := kept fitted runs
  have fit := tidy.values.1
  have bounded : s.supply.bounded s.seq.values := ⟨bound.trans (by rw [kept]; exact le_rfl), rest, level⟩
  unfold State.accountingInterval
  dsimp only
  generalize hc : s.supply.counted s.seq.values i volts temp = c
  have counted : c.bounded s.seq.values ∧ c.capKept = s.supply.capKept :=
    hc ▸ ⟨counted_bounded fit bounded i volts temp, counted_capKept _ _ _ _ _⟩
  have first := (setSupply_keeps s c) sane
  have read : ∀ u : State, u.Sane → u.readAll Entry.clashes = u := fun u o => readAll_checked o.checked _
  generalize ha : (s.setSupply c).handChange Mon.overrange s.supply.overrange c.overrange = a
  obtain ⟨ma, -, ra⟩ := handChange_minded (s.setSupply c) Mon.overrange s.supply.overrange c.overrange
  have sa := (handChange_keeps (s.setSupply c) Mon.overrange s.supply.overrange c.overrange) first
  rw [ha] at ma ra sa
  generalize hb : a.handChange Mon.lowVoltage s.supply.lowVoltage c.lowVoltage = b
  obtain ⟨mb, -, rb⟩ := handChange_minded a Mon.lowVoltage s.supply.lowVoltage c.lowVoltage
  have sb := (handChange_keeps a Mon.lowVoltage s.supply.lowVoltage c.lowVoltage) sa
  rw [hb] at mb rb sb
  rw [read b sb]
  generalize hp : c.posted s.seq.values i temp s.supply.lowVoltage (b.entries.any Entry.clashes) = p
  obtain ⟨posted, figures⟩ := posted_bounded fit counted.1 i temp s.supply.lowVoltage (b.entries.any Entry.clashes)
  obtain ⟨kept', -⟩ := posted_kept c s.seq.values i temp s.supply.lowVoltage (b.entries.any Entry.clashes)
  rw [hp] at posted figures kept'
  have same := ma.trans mb
  have second := (setSupply_keeps b p) sb
  generalize hd : (b.setSupply p).handChange Mon.overdraw s.supply.overdraw p.overdraw = d
  obtain ⟨md, supply, rd⟩ := handChange_minded (b.setSupply p) Mon.overdraw s.supply.overdraw p.overdraw
  have sd := (handChange_keeps (b.setSupply p) Mon.overdraw s.supply.overdraw p.overdraw) second
  rw [hd] at md rd sd supply
  generalize he : d.handChange Mon.roleClash s.supply.roleClash p.roleClash = e
  obtain ⟨me, supply', re⟩ := handChange_minded d Mon.roleClash s.supply.roleClash p.roleClash
  have se := (handChange_keeps d Mon.roleClash s.supply.roleClash p.roleClash) sd
  rw [he] at me re se supply'
  have supply : e.supply = p := supply'.trans supply
  have after := md.trans me
  have seq_values : e.seq.values = s.seq.values := after.values.trans same.values
  unfold State.intervalEnds
  dsimp only
  refine supplyChanged_tidies _ (((setCell_keeps _ _).trans (setDue_calm _ _).keeps) se) ⟨⟨?_, ?_, ?_, ?_⟩,
    ⟨?_, rfl, rfl, rfl, ?_, fun z => ?_, ?_, ?_, ?_⟩, ⟨?_, ?_, ?_, fun _ _ => ?_, ?_⟩, ?_, ?_⟩
  · show Values.fit e.seq.values
    rw [seq_values]
    exact fit
  · show ∀ j x, e.seq.pendingItems.get j = some x → _
    rw [after.pendingItems.trans same.pendingItems]
    exact tidy.values.2.1
  · show 10 ≤ e.bus.gatherMs
    rw [after.gather.trans same.gather]
    exact tidy.values.2.2.1
  · show e.bus.gatherMs ≤ 250
    rw [after.gather.trans same.gather]
    exact tidy.values.2.2.2
  · show e.cell.values = e.seq.values
    rw [seq_values, after.cell]
    show b.cell.values = _
    rw [same.cell]
    exact values
  · show e.cell.capKept = e.supply.capKept
    rw [supply, kept', counted.2, after.cell]
    show b.cell.capKept = _
    rw [same.cell]
    exact cap
  · show e.cell.setpoints.get z = (e.climate.zones.get z).setpoint
    rw [after.setpoints, after.cell]
    show b.cell.setpoints.get z = (b.climate.zones.get z).setpoint
    rw [same.setpoints, same.cell]
    exact setpoints z
  · show e.cell.chosen = e.climate.chosen
    rw [after.chosen, after.cell]
    show b.cell.chosen = b.climate.chosen
    rw [same.chosen, same.cell]
    exact chosen
  · exact after.lockout (same.lockout lockout)
  · show e.cell.scenes = e.lights.scenes
    rw [after.scenes, after.cell]
    show b.cell.scenes = b.lights.scenes
    rw [same.scenes, same.cell]
    exact scenes
  · show e.supply.q ≤ e.supply.capKept * 3600000
    rw [supply, kept', counted.2, kept]
    exact posted.1
  · show e.supply.r ≤ 99
    rw [supply]
    exact posted.2.1
  · show e.supply.level ≤ 6
    rw [supply]
    exact posted.2.2
  · show e.supply.capKept = e.seq.values.get 0
    rw [supply, kept', counted.2, seq_values]
    exact kept
  · show ∀ f, e.supply.latest = some f → _
    rw [supply]
    exact figures
  · exact viewFits_congr (s := s) (after.sets.trans same.sets) (after.hold.trans same.hold)
      (after.station.trans same.station) seq_values tidy.view
  · exact re (rd (rb (ra tidy.requests)))

/-! ### The Line Controller -/

theorem frameCloses_tidies (s : State) (r : Reception) : Tidies s (s.frameCloses r) := by
  have enqueued : ∀ (e : RxEntry) d a, Tidies s (s.setBus { s.bus.enqueue e with lastClose := d, acked := a }) :=
    fun e d a => setBus_tidies s _ (by unfold Bus.enqueue; split <;> [rfl; split <;> rfl]) (by
      have r := enqueue_rest e s.bus
      exact setBus_keeps s _ r.1 (enqueue_queueFits e s.bus) r.2.1 (fun h => le_of_eq_of_le r.2.2.1 h)
        (fun h => le_of_eq_of_le r.2.2.2 h))
  unfold State.frameCloses
  split
  · generalize hu : s.setBus _ = u
    refine Tidies.trans (hu ▸ enqueued _ _ _) ?_
    exact (setBus_tidies u { u.bus with silenceTimer := some Config.silenceMs, busSilent := false } rfl
      (setBus_keeps u _ (fun h => h) (fun h => h) id id id)).trans
        (Tidies.ite (fun _ => monitor_tidies _ _ _) (fun _ => Tidies.refl _))
  · exact enqueued _ _ _

theorem receives_tidies (s : State) (line : List Bit) : Tidies s (s.receives line) := by
  unfold State.receives
  refine Tidies.ite (fun _ => Tidies.refl s) (fun _ => ?_)
  split
  · exact frameCloses_tidies s _
  · exact Tidies.refl s

theorem fallsSilent_tidies (s : State) : Tidies s s.fallsSilent :=
  (setBus_tidies s { s.bus with silenceTimer := none, busSilent := true } rfl
    (setBus_keeps s _ (fun h => h) (fun h => h) id id id)).trans (monitor_tidies _ _ _)

theorem startsSending_tidies (s : State) : Tidies s s.startsSending := by
  unfold State.startsSending
  refine Tidies.ite (fun _ => Tidies.refl s) (fun _ => ?_)
  split
  · exact setBus_tidies s _ rfl (setSending_keeps s _)
  · exact Tidies.refl s

theorem leave_tidies (s : State) : Tidies s (s.setBus s.bus.leave) :=
  setBus_tidies s _ (by unfold Bus.leave; split <;> [split <;> rfl; rfl]) (leave_keeps s)

theorem reportCompleted_tidies (s : State) (l : List Tagged) : Tidies s (s.reportCompleted l) := by
  have rest := reportCompleted_rest s l
  refine Minded.tidies ?_ (reportCompleted_keeps s l) ?_
  · rw [rest]
    exact ⟨rfl, rfl, rfl, rfl, rfl, rfl, rfl, rfl, rfl, fun _ => rfl, rfl, id, rfl⟩
  · rw [rest]
    exact id

theorem reportFailed_tidies (s : State) (l : List Tagged) : Tidies s (s.reportFailed l) := by
  have all := anyone_loads
  exact (reportFailed_steady s l).tidies (k := anyone) (reportFailed_tends (fun _ _ => trivial) s l)

theorem builds_tidies (s : State) : Tidies s s.builds :=
  setBus_tidies s _ (by have line := Bus.build_sameLine s.now s.bus; unfold Bus.sameLine at line; rw [line]) (builds_keeps s)

theorem declareLineFault_tidies (s : State) : Tidies s s.declareLineFault := by
  unfold State.declareLineFault
  dsimp only
  refine Tidies.trans (t := s.setBus { s.bus with
    lineFault := true, probeTimer := some Config.probeMs, probeCount := 0, urgentBuf := none, normalBuf := none })
    (setBus_tidies s _ rfl ?_) ((holdBegins_tidies _).trans ((monitor_tidies _ _ _).trans (reportFailed_tidies _ _)))
  exact setBus_keeps s _ (fun h => ⟨h.1, h.2.1, h.2.2.1, h.2.2.2.1, by simp, by simp⟩) (fun h => h) id id id

theorem clearLineFault_tidies (s : State) : Tidies s s.clearLineFault := by
  have all := anyone_loads
  exact (setBus_tidies s { s.bus with lineFault := false, probeTimer := none, probeCount := 0, failed := 0 } rfl
    (setBus_keeps s _ (fun h => h) (fun h => h) id id id)).trans ((monitor_tidies _ _ _).trans
      ((Tidies.ite (fun _ => holdResumes_tidies _) (fun _ => Tidies.refl _)).trans
        ((retest_calm _).tidies (k := anyone) (retest_tends _))))

theorem frameCompleted_tidies (s : State) : Tidies s s.frameCompleted := by
  have counted : ∀ (u : State) p, Tidies u (u.countCompleted p) := fun u p =>
    (setBus_tidies u { u.bus with failed := 0 } rfl (setBus_keeps u _ (fun h => h) (fun h => h) id id id)).trans
      (Tidies.ite (fun _ => Tidies.ite (fun _ => clearLineFault_tidies _)
        (fun _ => setBus_tidies _ _ rfl (setBus_keeps _ _ (fun h => h) (fun h => h) id id id))) (fun _ => Tidies.refl _))
  unfold State.frameCompleted
  split
  · exact ((leave_tidies s).trans (reportCompleted_tidies _ _)).trans ((counted _ _).trans (builds_tidies _))
  · exact Tidies.refl s

theorem frameFailed_tidies (s : State) : Tidies s s.frameFailed := by
  have counted : ∀ (u : State) p, Tidies u (u.countFailed p) := fun u p =>
    (setBus_tidies u { u.bus with
      failed := min 8 (u.bus.failed + 1), probeCount := if p then 0 else u.bus.probeCount } rfl
      (setBus_keeps u _ (fun h => h) (fun h => h) id id id)).trans
        (Tidies.ite (fun _ => declareLineFault_tidies _) (fun _ => Tidies.refl _))
  unfold State.frameFailed
  split
  · exact ((leave_tidies s).trans (reportFailed_tidies _ _)).trans ((counted _ _).trans (builds_tidies _))
  · exact Tidies.refl s

theorem probeDue_tidies (s : State) : Tidies s s.probeDue := by
  unfold State.probeDue
  refine (setBus_tidies s { s.bus with probeTimer := some Config.probeMs } rfl
    (setBus_keeps s _ (fun h => h) (fun h => h) id id id)).trans ?_
  generalize s.setBus _ = u
  have keeps := buildProbe_keeps u
  unfold State.buildProbe at keeps ⊢
  split
  · exact Tidies.refl u
  · next free =>
    rw [if_neg free] at keeps
    exact setBus_tidies u _ rfl keeps

theorem gathered_tidies (s : State) (c : Nat) : Tidies s (s.gathered c) := by
  refine Tidies.trans (t := s.setBus (s.bus.ripen c)) (setBus_tidies s _ ?_ ?_) (builds_tidies _)
  · unfold Bus.ripen
    split <;> rfl
  · refine setBus_keeps s _ (ripen_lanes c s.bus) ?_ ?_ ?_ ?_ <;> unfold Bus.ripen <;> split <;> exact id

/-! ### The Peer View and the Load Broker -/

theorem setBroker_tidies (s : State) (x : Broker) (fits : s.broker.claimsFit → x.claimsFit) : Tidies s (s.setBroker x) :=
  Minded.tidies ⟨rfl, rfl, rfl, rfl, rfl, rfl, rfl, rfl, rfl, fun _ => rfl, rfl, id, rfl⟩ (setBroker_calm s x fits).keeps id

theorem levelFollows_tidies (s : State) : Tidies s s.levelFollows := by
  have all := anyone_loads
  exact (levelFollows_steady s).tidies (k := anyone) (levelFollows_tends (fun _ _ => trivial) trivial s)

theorem takeShed_tidies (s : State) (n : Nat) (r : Record) : Tidies s (s.takeShed n r) := by
  unfold State.takeShed
  split
  · refine ((readAll_calm s _).tidies (k := anyone) (readAll_tends s _)).trans (Tidies.ite (fun _ => ?_) (fun _ => Tidies.refl _))
    exact (setBroker_tidies _ _ (by exact fun h => h)).trans (levelFollows_tidies _)
  · exact Tidies.refl s

theorem padFollows_tidies (s : State) : Tidies s s.padFollows := by
  have all := anyone_loads
  exact (padFollows_calm s).tidies (k := anyone) (padFollows_tends s)

theorem driveFollows_tidies (s : State) : Tidies s s.driveFollows := by
  have all := anyone_loads
  exact (driveFollows_loose s).tidies (k := anyone) (driveFollows_tends (fun _ _ => trivial) s)

theorem report_tidies (s : State) (id : Fin 7) (r : Reply) : Tidies s (s.report id r) :=
  (report_steady s id r).tidies (k := anyone) (report_tends (fun _ _ => trivial) s id r fun _ _ => trivial)

end Sys2Proof.Machine
end

