-- ==== Sys2Proof/Proofs/TidySteps.lean ====
section
/-! PROOFS. A tidy state through every step (R56, R185). -/

namespace Sys2Proof.Machine

/-! ### Commands -/

/-- A command that acts only when its premise holds. -/
theorem Tidies.acts {s u : State} {p : Prop} [Decidable p] (h : p → Tidies s u) : Tidies s (if p then u else s) :=
  Tidies.ite h fun _ => Tidies.refl s

theorem isSetupEnd_phase {s : State} {r : Record} (h : s.isSetupEnd r = true) : s.seq.phase = .setup := by
  unfold State.isSetupEnd at h
  split at h
  · simp only [Bool.and_eq_true, beq_iff_eq] at h
    exact h.1.1
  · cases h

theorem errorNote_tidies (s : State) : Tidies s (match s.bus.rx with
    | .note _ :: q => s.setBus { s.bus with rx := q }
    | _ => s) := by
  split
  · next q e =>
    refine setBus_tidies s _ rfl (setBus_keeps s _ (fun h => h) (fun h => ?_) id id id)
    unfold Bus.queueFits at h ⊢
    rw [e] at h
    exact (Nat.le_succ _).trans h
  · exact Tidies.refl s

theorem countUnknown_keeps (s : State) : Keeps s (s.setBus { s.bus with unknown := sat255 (s.bus.unknown + 1) }) :=
  setBus_keeps s _ (fun h => h) (fun h => h) id id fun _ => sat255_le _

/-- The view without a new table, hold, drive accepted or counter. -/
theorem setWaits_tidies (s : State) (v : View) (sets : v.sets = s.view.sets) (hold : v.holdTimer = s.view.holdTimer)
    (drive : v.driveAccepted = s.view.driveAccepted) (foreign : v.foreign = s.view.foreign)
    (errors : v.tableError = s.view.tableError) : Tidies s (s.setView v) :=
  setView_tidies s v sets hold (setView_keeps s v (fun h i w => by rw [sets]; exact h i w) drive (by rw [foreign]; exact id)
    (by rw [errors]; exact id))

theorem overflowEnds_tidies (s : State) : Tidies s
    ((s.setView { s.view with overflow := false, overflowTimer := none }).monitor Mon.viewOverflow false).retest :=
  (setWaits_tidies s _ (by rfl) (by rfl) (by rfl) (by rfl) (by rfl)).trans ((monitor_tidies _ _ _).trans
    ((retest_calm _).tidies (k := anyone) (retest_tends _)))

theorem engChange_tidies (s : State) (b : Bool) : Tidies s (if s.pins.eng = b then s
    else
      let s := s.setPins { s.pins with eng := b }
      if s.inReset then s else (s.setView (s.view.engWaits b)).padFollows) :=
  Tidies.ite (fun _ => Tidies.refl s) fun _ => (setPins_tidies s _).trans (Tidies.ite (fun _ => Tidies.refl _)
    fun _ => (setWaits_tidies _ _ (by rfl) (by rfl) (by rfl) (by rfl) (by rfl)).trans (padFollows_tidies _))

theorem windowEnds_tidies (s : State) (id : Fin 7) : Tidies s (match s.windowEnd id with | (s, r) => s.report id r) := by
  have all := anyone_loads
  exact ((windowEnd_calm s id).tidies (k := anyone) (windowEnd_asks s id).tends).trans (report_tidies _ _ _)

theorem handDraw_tidies (s : State) (id : Fin 7) : Tidies s (s.handDraw id) :=
  (handDraw_calm s id).tidies (k := anyone) ((hand_tends s _ _).trans (setPeriods_tends _ _ fun not => absurd trivial not))

theorem setWater_tidies (s : State) (x : Water) : Tidies s (s.setWater x) :=
  (setWater_calm s x).tidies (k := anyone) (setWater_tends s x)

theorem demandFollows_tidies (s : State) : Tidies s s.demandFollows := by
  have all := anyone_loads
  exact (demandFollows_calm s).tidies (k := anyone) (demandFollows_tends s)

theorem runsAway_tidies (s : State) : Tidies s
    ((s.setWater { s.water with runaway := true }).pumpReleased.monitor Mon.pumpRunaway true).demandFollows := by
  have all := anyone_loads
  exact (setWater_tidies s _).trans (((pumpReleased_calm _).tidies (k := anyone) (pumpReleased_tends _)).trans
    ((monitor_tidies _ _ _).trans (demandFollows_tidies _)))

theorem valveFollows_tidies (s : State) : Tidies s s.valveTiming.valveFollows := by
  have all := anyone_loads
  exact ((valveTiming_calm s).trans (valveFollows_calm _)).tidies (k := anyone)
    ((valveTiming_tends trivial s).trans (valveFollows_tends _))

theorem dumpfb_tidies (s : State) (b : Bool) : Tidies s (if s.pins.dumpOpen = b then s
    else
      let s := s.setPins { s.pins with dumpOpen := b }
      if s.waterActs then s.valveTiming.valveFollows else s) :=
  Tidies.ite (fun _ => Tidies.refl s) fun _ => (setPins_tidies s _).trans
    (Tidies.ite (fun _ => valveFollows_tidies _) (fun _ => Tidies.refl _))

theorem valveFaults_tidies (s : State) : Tidies s (
    let was := s.water.valveFault
    let s := s.setWater { s.water with valveFault := true, valveTimer := none }
    if was then s else s.monitor Mon.valveFault true) :=
  (setWater_tidies s _).trans (Tidies.ite (fun _ => Tidies.refl _) fun _ => monitor_tidies _ _ _)

/-- A request that is refused, or answered and acted on. -/
theorem refusal_tidies {s : State} (code : Nat) (fitted : Bool) {u : State} (h : Tidies s u) :
    Tidies s (match s.refusal fitted with
      | some o => s.answer code o
      | none => u) := by
  split
  · exact answer_tidies s code _
  · exact h

theorem closeDump_tidies (s : State) : Tidies s (match s.refusal s.seq.fns.water with
    | some o => s.answer 11 o
    | none => if s.freshTemp < 30 then s.answer 11 Outcome.frost else (s.answer 11 Outcome.accepted).closesDump) :=
  refusal_tidies 11 _ (Tidies.ite (fun _ => answer_tidies s _ _) fun _ => (answer_tidies s _ _).trans
    (Tidies.ite (fun _ => (setWater_tidies _ _).trans (valveFollows_tidies _)) fun _ => Tidies.refl _))

theorem clearPump_tidies (s : State) : Tidies s (match s.refusal s.seq.fns.water with
    | some o => s.answer 12 o
    | none =>
      let s := s.answer 12 Outcome.accepted
      if s.water.runaway then
        ((s.setWater { s.water with runaway := false }).monitor Mon.pumpRunaway false).demandFollows
      else s) :=
  refusal_tidies 12 _ ((answer_tidies s _ _).trans (Tidies.ite
    (fun _ => (setWater_tidies _ _).trans ((monitor_tidies _ _ _).trans (demandFollows_tidies _))) fun _ => Tidies.refl _))

theorem setSetpoint_tidies (s : State) (zone : Nat) (value : Int) : Tidies s (match s.refusal s.seq.fns.heat with
    | some o => s.answer 1 o
    | none =>
      match asFin2 zone with
      | none => s.answer 1 Outcome.range
      | some z => (s.answer 1 Outcome.accepted).takeSetpoint z value) := by
  refine refusal_tidies 1 _ ?_
  split
  · exact answer_tidies s _ _
  · exact (answer_tidies s _ _).trans (takeSetpoint_tidies _ _ _)

theorem setClimateMode_tidies (s : State) (mode : Nat) : Tidies s (match s.refusal s.seq.fns.heat with
    | some o => s.answer 2 o
    | none =>
      match asMode mode with
      | none => s.answer 2 Outcome.range
      | some m =>
        if s.seq.storage then s.answer 2 Outcome.storage
        else
          (s.answer 2 (if m ≠ .off ∧ s.climate.lockout then Outcome.lockout else Outcome.accepted)).takeMode m) := by
  refine refusal_tidies 2 _ ?_
  split
  · exact answer_tidies s _ _
  · exact Tidies.ite (fun _ => answer_tidies s _ _) fun _ => (answer_tidies s _ _).trans (takeMode_tidies _ _)

theorem resetHeater_tidies (s : State) : Tidies s (match s.refusal s.seq.fns.heat with
    | some o => s.answer 3 o
    | none => (s.answer 3 Outcome.accepted).heaterResets) :=
  refusal_tidies 3 _ ((answer_tidies s _ _).trans (heaterResets_tidies _))

theorem extend_tidies (s : State) (ch : Fin 2) : Tidies s (match s.extendRefusal ch with
    | some o => s.answer 4 o
    | none => s.takeExtend 4 ch) := by
  split
  · exact answer_tidies s _ _
  · exact takeExtend_tidies s _ _

theorem holdAsserted_tidies (s : State) : Tidies s (if s.pins.hold then s
    else
      let s := s.setPins { s.pins with hold := true }
      if s.motionRuns then (s.holdFollows 0).holdFollows 1 else s) := by
  have all := anyone_loads
  exact Tidies.ite (fun _ => Tidies.refl s) fun _ => (setPins_tidies s _).trans (Tidies.ite
    (fun _ => ((holdFollows_steady _ 0).trans (holdFollows_steady _ 1)).tidies (k := anyone)
      ((holdFollows_tends _ 0).trans (holdFollows_tends _ 1))) fun _ => Tidies.refl _)

theorem holdReleased_tidies (s : State) : Tidies s (if s.pins.hold then
      let s := s.setPins { s.pins with hold := false }
      if s.motionRuns then (s.actOnPending 0).actOnPending 1 else s
    else s) := by
  have all := anyone_loads
  exact Tidies.ite (fun _ => (setPins_tidies s _).trans (Tidies.ite
    (fun _ => ((actOnPending_steady _ 0).trans (actOnPending_steady _ 1)).tidies (k := anyone)
      ((actOnPending_tends trivial trivial _).trans (actOnPending_tends trivial trivial _))) fun _ => Tidies.refl _))
    fun _ => Tidies.refl s

theorem setLevel_tidies (s : State) (channel : Nat) (value : Int) : Tidies s (match asFin8 channel with
    | none => s.answer 7 ((s.lightRefusal false).getD Outcome.range)
    | some ch =>
      match s.lightRefusal true with
      | some o => s.answer 7 o
      | none => s.takeLevel ch value) := by
  split
  · exact answer_tidies s _ _
  · split
    · exact answer_tidies s _ _
    · exact takeLevel_tidies s _ _

theorem allOff_tidies (s : State) : Tidies s (match s.refusal s.seq.fns.lights with
    | some o => s.answer 10 o
    | none => s.takeAllOff) := refusal_tidies 10 _ (takeAllOff_tidies s)

theorem recallScene_tidies (s : State) (scene : Nat) : Tidies s (match asFin4 scene with
    | none => s.answer 8 ((s.lightRefusal false).getD Outcome.range)
    | some n =>
      match s.lightRefusal true with
      | some o => s.answer 8 o
      | none => s.takeScene n) := by
  split
  · exact answer_tidies s _ _
  · split
    · exact answer_tidies s _ _
    · exact takeScene_tidies s _

theorem storeScene_tidies (s : State) (scene : Nat) : Tidies s (match asFin4 scene with
    | none => s.answer 9 ((s.lightRefusal false).getD Outcome.range)
    | some n =>
      match s.lightRefusal true with
      | some o => s.answer 9 o
      | none => s.keepScene n) := by
  split
  · exact answer_tidies s _ _
  · split
    · exact answer_tidies s _ _
    · exact keepScene_tidies s _

theorem ackAttention_tidies (s : State) : Tidies s (match s.refusal true with
    | some o => s.answer 13 o
    | none =>
      let s := s.answer 13 Outcome.accepted
      s.setStatus { s.status with attention := false }) :=
  refusal_tidies 13 _ ((answer_tidies s _ _).trans (Minded.tidies
    ⟨rfl, rfl, rfl, rfl, rfl, rfl, rfl, rfl, rfl, fun _ => rfl, rfl, id, rfl⟩
    (setStatus_calm _ _ (by exact id)).keeps id))

theorem enterStorage_tidies (s : State) : Tidies s (match s.refusal true with
    | some o => s.answer 14 o
    | none =>
      if s.seq.storage then s.answer 14 Outcome.accepted
      else if s.view.driveAccepted then s.answer 14 Outcome.drive
      else (s.answer 14 Outcome.accepted).storageEntered) := by
  have all := anyone_loads
  exact refusal_tidies 14 _ (Tidies.ite (fun _ => answer_tidies s _ _) fun _ => Tidies.ite (fun _ => answer_tidies s _ _)
    fun _ => (answer_tidies s _ _).trans ((storageEntered_loose _).tidies (k := anyone) (storageEntered_tends _)))

theorem leaveStorage_tidies (s : State) : Tidies s (match s.refusal true with
    | some o => s.answer 15 o
    | none =>
      let s := s.answer 15 Outcome.accepted
      if s.seq.storage then s.storageLeft else s) := by
  have all := anyone_loads
  exact refusal_tidies 15 _ ((answer_tidies s _ _).trans (Tidies.ite
    (fun _ => (storageLeft_loose _).tidies (k := anyone) (storageLeft_tends _)) fun _ => Tidies.refl _))

theorem falls_tidies (s : State) (d : Due) {p : Prop} [Decidable p] : Tidies s (if p then s.setDue d else s) :=
  Tidies.acts fun _ => setDue_tidies s d

theorem execConnectReset_tidies {s t : State} (p : Straps) (e : execConnectReset p s = .next t) : Tidies s t :=
  Tidies.done (connects_tidies s p) e

theorem execRestart_tidies {s t : State} (b : Bool) (e : execRestart b s = .next t) : Tidies s t :=
  Tidies.done (restarts_tidies s b) e

theorem execResetReleased_tidies {s t : State} (p : Straps) (e : execResetReleased p s = .next t) : Tidies s t :=
  Tidies.done (Tidies.acts fun _ => released_tidies s p) e

theorem execListenTimerExpiry_tidies {s t : State} (e : execListenTimerExpiry s = .next t) : Tidies s t :=
  Tidies.done (Tidies.acts fun h => listenEnds_tidies s h.1 _ _) e

theorem execSetupTimerExpiry_tidies {s t : State} (e : execSetupTimerExpiry s = .next t) : Tidies s t :=
  Tidies.done (Tidies.acts fun h => setupEnds_tidies s h.1) e

theorem execCalibrateTimerExpiry_tidies {s t : State} (e : execCalibrateTimerExpiry s = .next t) : Tidies s t :=
  Tidies.done (Tidies.acts fun h => runEntered_tidies s (by rw [h.1]; decide)) e

theorem execSetup_tidies {s t : State} (e : execSetup s = .next t) : Tidies s t :=
  Tidies.done (dispatch_tidies s _ _ fun u _ r _ _ _ => setupHandled_tidies u r) e

theorem execSetupEnd_tidies {s t : State} (e : execSetupEnd s = .next t) : Tidies s t :=
  Tidies.done (dispatch_tidies s _ _ fun u _ r ends seq _ => setupEnds_tidies u (by rw [seq]; exact isSetupEnd_phase ends)) e

theorem execAccountingInterval_tidies {s t : State} (i : Int) (v : Int) (x : Int) (e : execAccountingInterval i v x s = .next t) : Tidies s t :=
  Tidies.done (Tidies.acts fun h => accountingInterval_tidies s h.1 h.2 i v x) e

theorem execShedPeriod_tidies {s t : State} (e : execShedPeriod s = .next t) : Tidies s t :=
  Tidies.done (falls_tidies s _) e

theorem execSupplyPeriod_tidies {s t : State} (e : execSupplyPeriod s = .next t) : Tidies s t :=
  Tidies.done (falls_tidies s _) e

theorem execFrameClose_tidies {s t : State} (l : List Bit) (e : execFrameClose l s = .next t) : Tidies s t :=
  Tidies.done (receives_tidies s l) e

theorem execBusSilentTimerExpiry_tidies {s t : State} (e : execBusSilentTimerExpiry s = .next t) : Tidies s t :=
  Tidies.done (Tidies.acts fun _ => fallsSilent_tidies s) e

theorem execDispatchErrorNote_tidies {s t : State} (e : execDispatchErrorNote s = .next t) : Tidies s t :=
  Tidies.done (errorNote_tidies s) e

theorem execUnknownKind_tidies {s t : State} (e : execUnknownKind s = .next t) : Tidies s t :=
  Tidies.done (dispatch_tidies s _ _ fun u _ _ _ _ _ => setBus_tidies u _ (by rfl) (countUnknown_keeps u)) e

theorem execNoticePassedOver_tidies {s t : State} (e : execNoticePassedOver s = .next t) : Tidies s t :=
  Tidies.done (dispatch_tidies s _ _ fun u _ _ _ _ _ => Tidies.refl u) e

theorem execRequestPassedOver_tidies {s t : State} (e : execRequestPassedOver s = .next t) : Tidies s t :=
  Tidies.done (dispatch_tidies s _ _ fun u _ _ _ _ _ => Tidies.refl u) e

theorem execRequestCodeZero_tidies {s t : State} (e : execRequestCodeZero s = .next t) : Tidies s t :=
  Tidies.done (onRequest_tidies s _ _ fun u _ _ => Tidies.refl u) e

theorem execPeerArrival_tidies {s t : State} (e : execPeerArrival s = .next t) : Tidies s t :=
  Tidies.done (dispatch_tidies s _ _ fun _ n r stored seq other => arrive_tidies n r stored (by rw [seq]; exact other)) e

theorem execViewOverflowTimerExpiry_tidies {s t : State} (e : execViewOverflowTimerExpiry s = .next t) : Tidies s t :=
  Tidies.done (Tidies.acts fun _ => overflowEnds_tidies s) e

theorem execEntryAging_tidies {s t : State} (k : Key) (e : execEntryAging k s = .next t) : Tidies s t :=
  Tidies.done (entryAges_tidies s k) e

theorem execEntryStale_tidies {s t : State} (k : Key) (e : execEntryStale k s = .next t) : Tidies s t :=
  Tidies.done (entryGoesStale_tidies s k) e

theorem execHoldTimerExpiry_tidies {s t : State} (e : execHoldTimerExpiry s = .next t) : Tidies s t :=
  Tidies.done (Tidies.acts fun _ => holdRunsOut_tidies s) e

theorem execEngChange_tidies {s t : State} (b : Bool) (e : execEngChange b s = .next t) : Tidies s t :=
  Tidies.done (engChange_tidies s b) e

theorem execLocalDriveSet_tidies {s t : State} (e : execLocalDriveSet s = .next t) : Tidies s t :=
  Tidies.done (Tidies.acts fun _ => (setWaits_tidies s _ (by rfl) (by rfl) (by rfl) (by rfl) (by rfl)).trans (driveFollows_tidies _)) e

theorem execLocalDriveClear_tidies {s t : State} (e : execLocalDriveClear s = .next t) : Tidies s t :=
  Tidies.done (Tidies.acts fun _ => (setWaits_tidies s _ (by rfl) (by rfl) (by rfl) (by rfl) (by rfl)).trans (driveFollows_tidies _)) e

theorem execChgavChange_tidies {s t : State} (b : Bool) (e : execChgavChange b s = .next t) : Tidies s t :=
  Tidies.done ((setPins_tidies s _).trans (padFollows_tidies _)) e

theorem execShedReceived_tidies {s t : State} (e : execShedReceived s = .next t) : Tidies s t :=
  Tidies.done (dispatch_tidies s _ _ fun u n r _ _ _ => takeShed_tidies u n r) e

theorem execContestWindowEnd_tidies {s t : State} (id : Fin 7) (e : execContestWindowEnd id s = .next t) : Tidies s t :=
  Tidies.done (Tidies.acts fun _ => windowEnds_tidies s id) e

theorem execDrawRepeat_tidies {s t : State} (id : Fin 7) (e : execDrawRepeat id s = .next t) : Tidies s t :=
  Tidies.done (Tidies.acts fun _ => handDraw_tidies s id) e

theorem execFrameSendStart_tidies {s t : State} (e : execFrameSendStart s = .next t) : Tidies s t :=
  Tidies.done (startsSending_tidies s) e

theorem execArbitrationLost_tidies {s t : State} (e : execArbitrationLost s = .next t) : Tidies s t :=
  Tidies.done (setBus_tidies s _ (by rfl) (by exact stopsSending_keeps s)) e

theorem execBitErrorAbort_tidies {s t : State} (e : execBitErrorAbort s = .next t) : Tidies s t :=
  Tidies.done (frameFailed_tidies s) e

theorem execFrameCompleted_tidies {s t : State} (e : execFrameCompleted s = .next t) : Tidies s t :=
  Tidies.done (frameCompleted_tidies s) e

theorem execFrameNoack_tidies {s t : State} (e : execFrameNoack s = .next t) : Tidies s t :=
  Tidies.done (frameFailed_tidies s) e

theorem execProbeTimerExpiry_tidies {s t : State} (e : execProbeTimerExpiry s = .next t) : Tidies s t :=
  Tidies.done (Tidies.acts fun _ => probeDue_tidies s) e

theorem execGatherTimeout_tidies {s t : State} (c : Nat) (e : execGatherTimeout c s = .next t) : Tidies s t :=
  Tidies.done (Tidies.acts fun _ => gathered_tidies s c) e

theorem execWaterReadingEvent_tidies {s t : State} (a : Nat) (b : Nat) (c : Nat) (x : Int) (y : Int) (z : Int) (e : execWaterReadingEvent a b c x y z s = .next t) : Tidies s t := by
  have all := anyone_loads
  exact Tidies.done (Tidies.acts fun _ => ((setWater_calm s _).trans (waterReads_calm _ a b c x y z)).tidies (k := anyone) ((setWater_tends s _).trans (waterReads_tends trivial _ a b c x y z (fun _ => trivial) trivial))) e

theorem execPdemChange_tidies {s t : State} (b : Bool) (e : execPdemChange b s = .next t) : Tidies s t :=
  Tidies.done ((setPins_tidies s _).trans (demandFollows_tidies _)) e

theorem execRunawayCountExpiry_tidies {s t : State} (e : execRunawayCountExpiry s = .next t) : Tidies s t :=
  Tidies.done (Tidies.acts fun _ => runsAway_tidies s) e

theorem execFrostDueTime_tidies {s t : State} (e : execFrostDueTime s = .next t) : Tidies s t := by
  have all := anyone_loads
  exact Tidies.done (Tidies.acts fun _ => (takeDue_calm s).tidies (k := anyone) (takeDue_tends trivial s)) e

theorem execCirculationTimerExpiry_tidies {s t : State} (e : execCirculationTimerExpiry s = .next t) : Tidies s t := by
  have all := anyone_loads
  exact Tidies.done (Tidies.acts fun _ => (cycleCompleted_calm s).tidies (k := anyone) (cycleCompleted_tends s)) e

theorem execDumpfbChange_tidies {s t : State} (b : Bool) (e : execDumpfbChange b s = .next t) : Tidies s t :=
  Tidies.done (dumpfb_tidies s b) e

theorem execValveFaultTimerExpiry_tidies {s t : State} (e : execValveFaultTimerExpiry s = .next t) : Tidies s t :=
  Tidies.done (Tidies.acts fun _ => valveFaults_tidies s) e

theorem execCloseDump_tidies {s t : State} (e : execCloseDump s = .next t) : Tidies s t :=
  Tidies.done (onRequest_tidies s _ _ fun u _ _ => closeDump_tidies u) e

theorem execClearPump_tidies {s t : State} (e : execClearPump s = .next t) : Tidies s t :=
  Tidies.done (onRequest_tidies s _ _ fun u _ _ => clearPump_tidies u) e

theorem execTankPeriod_tidies {s t : State} (k : Fin 3) (e : execTankPeriod k s = .next t) : Tidies s t :=
  Tidies.done (falls_tidies s _) e

theorem execClimateReadingEvent_tidies {s t : State} (x : Int) (y : Int) (e : execClimateReadingEvent x y s = .next t) : Tidies s t :=
  Tidies.done (Tidies.acts fun _ => climateReads_tidies s x y) e

theorem execHrunChange_tidies {s t : State} (b : Bool) (e : execHrunChange b s = .next t) : Tidies s t :=
  Tidies.done (hrun_tidies s b) e

theorem execHfltChange_tidies {s t : State} (b : Bool) (e : execHfltChange b s = .next t) : Tidies s t :=
  Tidies.done (hflt_tidies s b) e

theorem execStartTimerExpiry_tidies {s t : State} (e : execStartTimerExpiry s = .next t) : Tidies s t := by
  have all := anyone_loads
  exact Tidies.done (Tidies.acts fun _ => (heaterFails_calm s).tidies (k := anyone) (heaterFails_tends trivial s)) e

theorem execRunTimerExpiry_tidies {s t : State} (e : execRunTimerExpiry s = .next t) : Tidies s t :=
  Tidies.done (Tidies.acts fun _ => setClimate_tidies s _ (by exact fun _ => rfl) (by rfl) (by rfl)) e

theorem execPurgeTimerExpiry_tidies {s t : State} (e : execPurgeTimerExpiry s = .next t) : Tidies s t :=
  Tidies.done (Tidies.acts fun _ => purgeEnds_tidies s) e

theorem execSetSetpoint_tidies {s t : State} (e : execSetSetpoint s = .next t) : Tidies s t :=
  Tidies.done (onRequest_tidies s _ _ fun u n v => setSetpoint_tidies u n v) e

theorem execSetClimateMode_tidies {s t : State} (e : execSetClimateMode s = .next t) : Tidies s t :=
  Tidies.done (onRequest_tidies s _ _ fun u n _ => setClimateMode_tidies u n) e

theorem execResetHeater_tidies {s t : State} (e : execResetHeater s = .next t) : Tidies s t :=
  Tidies.done (onRequest_tidies s _ _ fun u _ _ => resetHeater_tidies u) e

theorem execClimatePeriod_tidies {s t : State} (z : Fin 2) (e : execClimatePeriod z s = .next t) : Tidies s t :=
  Tidies.done (falls_tidies s _) e

theorem execExtend_tidies {s t : State} (e : execExtend s = .next t) : Tidies s t :=
  Tidies.done (motionRequest_tidies s _ _ fun u ch => extend_tidies u ch) e

theorem execRetract_tidies {s t : State} (e : execRetract s = .next t) : Tidies s t :=
  Tidies.done (motionRequest_tidies s _ _ fun u ch => takeRetract_tidies u _ ch) e

theorem execStop_tidies {s t : State} (e : execStop s = .next t) : Tidies s t :=
  Tidies.done (motionRequest_tidies s _ _ fun u ch => takeStop_tidies u _ ch) e

theorem execEndStopChange_tidies {s t : State} (ch : Fin 2) (w : EndStop) (b : Bool) (e : execEndStopChange ch w b s = .next t) : Tidies s t := by
  have all := anyone_loads
  exact Tidies.done ((setPins_tidies s _).trans (Tidies.ite (fun _ => (stopsFollow_steady _ ch).tidies (k := anyone) (stopsFollow_tends trivial trivial _)) fun _ => Tidies.refl _)) e

theorem execDwellTimerExpiry_tidies {s t : State} (ch : Fin 2) (e : execDwellTimerExpiry ch s = .next t) : Tidies s t := by
  have all := anyone_loads
  exact Tidies.done (Tidies.acts fun h => (dwellEnds_steady s ch h.1).tidies (k := anyone) (dwellEnds_tends trivial trivial s)) e

theorem execTravelTimerExpiry_tidies {s t : State} (ch : Fin 2) (e : execTravelTimerExpiry ch s = .next t) : Tidies s t := by
  have all := anyone_loads
  exact Tidies.done (Tidies.acts fun _ => (travelExpires_steady s ch).tidies (k := anyone) (travelExpires_tends trivial s)) e

theorem execStallTimerExpiry_tidies {s t : State} (ch : Fin 2) (e : execStallTimerExpiry ch s = .next t) : Tidies s t := by
  have all := anyone_loads
  exact Tidies.done (Tidies.acts fun _ => (stalls_steady s ch).tidies (k := anyone) (stalls_tends trivial trivial s)) e

theorem execBackoffTimerExpiry_tidies {s t : State} (ch : Fin 2) (e : execBackoffTimerExpiry ch s = .next t) : Tidies s t := by
  have all := anyone_loads
  exact Tidies.done (Tidies.acts fun _ => (backoffEnds_steady s ch).tidies (k := anyone) (backoffEnds_tends s ch)) e

theorem execIdleTimerExpiry_tidies {s t : State} (ch : Fin 2) (e : execIdleTimerExpiry ch s = .next t) : Tidies s t := by
  have all := anyone_loads
  exact Tidies.done (Tidies.acts fun _ => (calibrationBegins_steady s ch).tidies (k := anyone) (calibrationBegins_tends s ch)) e

theorem execCalibrationEnd_tidies {s t : State} (ch : Fin 2) (x : Nat) (e : execCalibrationEnd ch x s = .next t) : Tidies s t := by
  have all := anyone_loads
  exact Tidies.done (Tidies.acts fun _ => (setPins_tidies s _).trans ((calibrated_steady _ ch).tidies (k := anyone) (calibrated_tends trivial trivial _))) e

theorem execWindWindowEnd_tidies {s t : State} (e : execWindWindowEnd s = .next t) : Tidies s t := by
  have all := anyone_loads
  exact Tidies.done (Tidies.acts fun _ => (windWindowEnds_steady s).tidies (k := anyone) (windWindowEnds_tends (fun _ => trivial) (fun _ => trivial) trivial s)) e

theorem execWindLockoutExpiry_tidies {s t : State} (e : execWindLockoutExpiry s = .next t) : Tidies s t := by
  have all := anyone_loads
  exact Tidies.done (Tidies.acts fun _ => (windLockoutEnds_steady s).tidies (k := anyone) (windLockoutEnds_tends trivial s)) e

theorem execInterlockRepeat_tidies {s t : State} (ch : Fin 2) (e : execInterlockRepeat ch s = .next t) : Tidies s t :=
  Tidies.done (falls_tidies s _) e

theorem execHoldAsserted_tidies {s t : State} (e : execHoldAsserted s = .next t) : Tidies s t :=
  Tidies.done (holdAsserted_tidies s) e

theorem execHoldReleased_tidies {s t : State} (e : execHoldReleased s = .next t) : Tidies s t :=
  Tidies.done (holdReleased_tidies s) e

theorem execMotionPeriod_tidies {s t : State} (ch : Fin 2) (e : execMotionPeriod ch s = .next t) : Tidies s t :=
  Tidies.done (falls_tidies s _) e

theorem execFadeStep_tidies {s t : State} (ch : Fin 8) (e : execFadeStep ch s = .next t) : Tidies s t := by
  have all := anyone_loads
  exact Tidies.done (Tidies.acts fun _ => (fadeStepped_calm s ch).tidies (k := anyone) (fadeStepped_tends s ch)) e

theorem execSetLevel_tidies {s t : State} (e : execSetLevel s = .next t) : Tidies s t :=
  Tidies.done (onRequest_tidies s _ _ fun u n v => setLevel_tidies u n v) e

theorem execAllOff_tidies {s t : State} (e : execAllOff s = .next t) : Tidies s t :=
  Tidies.done (onRequest_tidies s _ _ fun u _ _ => allOff_tidies u) e

theorem execRecallScene_tidies {s t : State} (e : execRecallScene s = .next t) : Tidies s t :=
  Tidies.done (onRequest_tidies s _ _ fun u n _ => recallScene_tidies u n) e

theorem execStoreScene_tidies {s t : State} (e : execStoreScene s = .next t) : Tidies s t :=
  Tidies.done (onRequest_tidies s _ _ fun u n _ => storeScene_tidies u n) e

theorem execCourtesyCountdownExpiry_tidies {s t : State} (e : execCourtesyCountdownExpiry s = .next t) : Tidies s t := by
  have all := anyone_loads
  exact Tidies.done (Tidies.acts fun _ => (courtesyReturns_calm s).tidies (k := anyone) (courtesyReturns_tends s)) e

theorem execLightPeriod_tidies {s t : State} (ch : Fin 8) (e : execLightPeriod ch s = .next t) : Tidies s t :=
  Tidies.done (falls_tidies s _) e

theorem execStatusPeriod_tidies {s t : State} (e : execStatusPeriod s = .next t) : Tidies s t :=
  Tidies.done (falls_tidies s _) e

theorem execStatusCountersPeriod_tidies {s t : State} (e : execStatusCountersPeriod s = .next t) : Tidies s t := by
  have all := anyone_loads
  exact Tidies.done (Tidies.acts fun _ => ((setPeriods_calm s _).trans (setDue_calm _ _)).tidies (k := anyone) ((setPeriods_tends s _ fun not => absurd trivial not).trans (setDue_tends _ _ fun not => absurd trivial not))) e

theorem execAckAttention_tidies {s t : State} (e : execAckAttention s = .next t) : Tidies s t :=
  Tidies.done (onRequest_tidies s _ _ fun u _ _ => ackAttention_tidies u) e

theorem execEnterStorage_tidies {s t : State} (e : execEnterStorage s = .next t) : Tidies s t :=
  Tidies.done (onRequest_tidies s _ _ fun u _ _ => enterStorage_tidies u) e

theorem execLeaveStorage_tidies {s t : State} (e : execLeaveStorage s = .next t) : Tidies s t :=
  Tidies.done (onRequest_tidies s _ _ fun u _ _ => leaveStorage_tidies u) e

theorem execWindPulse_tidies {s t : State} (e : execWindPulse s = .next t) : Tidies s t := by
  have all := anyone_loads
  exact Tidies.done (Tidies.acts fun _ => (setMotion_steady s _ (by rfl)).tidies (k := anyone) (setWind_tends s _ (by rfl))) e

theorem execMotorCurrentChange_tidies {s t : State} (ch : Fin 2) (x : Nat) (e : execMotorCurrentChange ch x s = .next t) : Tidies s t := by
  have all := anyone_loads
  exact Tidies.done ((setPins_tidies s _).trans ((currentFollows_steady _ ch).tidies (k := anyone) (currentFollows_tends _ ch))) e

/-- Every command leads from a sane and tidy state to a tidy one. -/
theorem exec_tidies {c : Instr} {s t : State} (e : exec c s = .next t) : Tidies s t := by
  cases c with
  | connectReset p => exact execConnectReset_tidies p e
  | restart b => exact execRestart_tidies b e
  | resetReleased p => exact execResetReleased_tidies p e
  | listenTimerExpiry => exact execListenTimerExpiry_tidies e
  | setupTimerExpiry => exact execSetupTimerExpiry_tidies e
  | calibrateTimerExpiry => exact execCalibrateTimerExpiry_tidies e
  | setup => exact execSetup_tidies e
  | setupEnd => exact execSetupEnd_tidies e
  | accountingInterval i v x => exact execAccountingInterval_tidies i v x e
  | shedPeriod => exact execShedPeriod_tidies e
  | supplyPeriod => exact execSupplyPeriod_tidies e
  | frameClose l => exact execFrameClose_tidies l e
  | busSilentTimerExpiry => exact execBusSilentTimerExpiry_tidies e
  | dispatchErrorNote => exact execDispatchErrorNote_tidies e
  | unknownKind => exact execUnknownKind_tidies e
  | noticePassedOver => exact execNoticePassedOver_tidies e
  | requestPassedOver => exact execRequestPassedOver_tidies e
  | requestCodeZero => exact execRequestCodeZero_tidies e
  | peerArrival => exact execPeerArrival_tidies e
  | viewOverflowTimerExpiry => exact execViewOverflowTimerExpiry_tidies e
  | entryAging k => exact execEntryAging_tidies k e
  | entryStale k => exact execEntryStale_tidies k e
  | holdTimerExpiry => exact execHoldTimerExpiry_tidies e
  | engChange b => exact execEngChange_tidies b e
  | localDriveSet => exact execLocalDriveSet_tidies e
  | localDriveClear => exact execLocalDriveClear_tidies e
  | chgavChange b => exact execChgavChange_tidies b e
  | shedReceived => exact execShedReceived_tidies e
  | contestWindowEnd id => exact execContestWindowEnd_tidies id e
  | drawRepeat id => exact execDrawRepeat_tidies id e
  | frameSendStart => exact execFrameSendStart_tidies e
  | arbitrationLost => exact execArbitrationLost_tidies e
  | bitErrorAbort => exact execBitErrorAbort_tidies e
  | frameCompleted => exact execFrameCompleted_tidies e
  | frameNoack => exact execFrameNoack_tidies e
  | probeTimerExpiry => exact execProbeTimerExpiry_tidies e
  | gatherTimeout c => exact execGatherTimeout_tidies c e
  | waterReadingEvent a b c x y z => exact execWaterReadingEvent_tidies a b c x y z e
  | pdemChange b => exact execPdemChange_tidies b e
  | runawayCountExpiry => exact execRunawayCountExpiry_tidies e
  | frostDueTime => exact execFrostDueTime_tidies e
  | circulationTimerExpiry => exact execCirculationTimerExpiry_tidies e
  | dumpfbChange b => exact execDumpfbChange_tidies b e
  | valveFaultTimerExpiry => exact execValveFaultTimerExpiry_tidies e
  | closeDump => exact execCloseDump_tidies e
  | clearPump => exact execClearPump_tidies e
  | tankPeriod k => exact execTankPeriod_tidies k e
  | climateReadingEvent x y => exact execClimateReadingEvent_tidies x y e
  | hrunChange b => exact execHrunChange_tidies b e
  | hfltChange b => exact execHfltChange_tidies b e
  | startTimerExpiry => exact execStartTimerExpiry_tidies e
  | runTimerExpiry => exact execRunTimerExpiry_tidies e
  | purgeTimerExpiry => exact execPurgeTimerExpiry_tidies e
  | setSetpoint => exact execSetSetpoint_tidies e
  | setClimateMode => exact execSetClimateMode_tidies e
  | resetHeater => exact execResetHeater_tidies e
  | climatePeriod z => exact execClimatePeriod_tidies z e
  | extend => exact execExtend_tidies e
  | retract => exact execRetract_tidies e
  | stop => exact execStop_tidies e
  | endStopChange ch w b => exact execEndStopChange_tidies ch w b e
  | dwellTimerExpiry ch => exact execDwellTimerExpiry_tidies ch e
  | travelTimerExpiry ch => exact execTravelTimerExpiry_tidies ch e
  | stallTimerExpiry ch => exact execStallTimerExpiry_tidies ch e
  | backoffTimerExpiry ch => exact execBackoffTimerExpiry_tidies ch e
  | idleTimerExpiry ch => exact execIdleTimerExpiry_tidies ch e
  | calibrationEnd ch x => exact execCalibrationEnd_tidies ch x e
  | windWindowEnd => exact execWindWindowEnd_tidies e
  | windLockoutExpiry => exact execWindLockoutExpiry_tidies e
  | interlockRepeat ch => exact execInterlockRepeat_tidies ch e
  | holdAsserted => exact execHoldAsserted_tidies e
  | holdReleased => exact execHoldReleased_tidies e
  | motionPeriod ch => exact execMotionPeriod_tidies ch e
  | fadeStep ch => exact execFadeStep_tidies ch e
  | setLevel => exact execSetLevel_tidies e
  | allOff => exact execAllOff_tidies e
  | recallScene => exact execRecallScene_tidies e
  | storeScene => exact execStoreScene_tidies e
  | courtesyCountdownExpiry => exact execCourtesyCountdownExpiry_tidies e
  | lightPeriod ch => exact execLightPeriod_tidies ch e
  | statusPeriod => exact execStatusPeriod_tidies e
  | statusCountersPeriod => exact execStatusCountersPeriod_tidies e
  | ackAttention => exact execAckAttention_tidies e
  | enterStorage => exact execEnterStorage_tidies e
  | leaveStorage => exact execLeaveStorage_tidies e
  | windPulse => exact execWindPulse_tidies e
  | motorCurrentChange ch x => exact execMotorCurrentChange_tidies ch x e

theorem tick_tidy {s : State} (h : s.Tidy) : s.tick.Tidy where
  values := h.values
  cell := h.cell
  supply := by
    obtain ⟨q, r, level, kept, figures⟩ := h.supply
    exact ⟨q, r, level, fun fitted runs => kept fitted (by
      have runs : (tickTimer s.supply.intervalTimer).isSome = true := runs
      rwa [tickTimer_eq, Option.isSome_map] at runs), figures⟩
  view := tick_viewFits h.view
  requests := ⟨fun ch => by
    have same : (s.tick.chan ch).req = (s.chan ch).req := by rw [tick_chan]; rfl
    rw [same]
    exact h.requests.1 ch, h.requests.2⟩

/-- Every step from a sound and tidy state leads to a tidy one. -/
theorem step_tidy {s t : State} (sound : s.Sound) (tidy : s.Tidy) (e : step s = .next t) : t.Tidy := by
  unfold step at e
  split at e
  · exact (exec_tidies e ⟨sound.checked, sound.lanes, sound.queue, sound.claims, sound.counters, sound.extend⟩
      ⟨tidy.values, tidy.cell, tidy.supply, tidy.view, tidy.requests⟩).2
  · cases e
    exact tick_tidy tidy

end Sys2Proof.Machine

namespace Sys2Proof.Proofs
open Sys2Proof.Machine

/-- Settles O6: every command keeps a state tidy, as its operations do one by one. -/
theorem stepKeepsValuesCellAndSupply : Obligations.StepKeepsValuesCellAndSupply := by
  intro s t fits e
  have tidy := step_tidy fits.sound fits.tidy e
  exact ⟨tidy.values, tidy.cell, tidy.supply⟩

/-- Settles O7: a tidy state's table is in order. -/
theorem stepKeepsView : Obligations.StepKeepsView := fun _ _ fits e => (step_tidy fits.sound fits.tidy e).view

end Sys2Proof.Proofs
end

