-- ==== Sys2Proof/Proofs/Posting.lean ====
section
/-! PROOFS. What publishing does to a state that only hands records over; the answers of a request. -/

namespace Sys2Proof.Machine

/-! ### The end of a command that tells the readers nothing -/

/-- `t` is `u` but for the bus, the periods and the due marks. -/
def Posted (u t : State) : Prop := t = { u with bus := t.bus, periods := t.periods, due := t.due }

section
variable {s u t : State} (h : Posted u t)
include h

theorem Posted.shared : Shared u t := by unfold Posted Shared at *; rw [h]
theorem Posted.broker : t.broker = u.broker := by rw [h]
theorem Posted.claim (id : Fin 7) : t.claim id = u.claim id := by rw [State.claim, h.broker]; rfl
theorem Posted.status : t.status = u.status := by rw [h]
theorem Posted.view : t.view = u.view := by rw [h]
theorem Posted.water : t.water = u.water := by rw [h]
theorem Posted.climate : t.climate = u.climate := by rw [h]
theorem Posted.motion : t.motion = u.motion := by rw [h]
theorem Posted.lights : t.lights = u.lights := by rw [h]
theorem Posted.seq : t.seq = u.seq := by rw [h]
theorem Posted.pins : t.pins = u.pins := by rw [h]
theorem Posted.cell : t.cell = u.cell := by rw [h]
theorem Posted.wet (k : Wet s u) : Wet s t := k.trans h.shared.wet
theorem Posted.warm (k : Warm s u) : Warm s t := k.trans h.shared.warm

end

theorem publish_posted {u : State} (was : State) (sane : u.Sane) (told : u.view.changes = [])
    (agrees : u.motion.ilock = (u.inViolation 0 || u.inViolation 1)) : Posted u (State.publish was u) := by
  have shared := publish_shared was sane told agrees
  have handed := publish_handedOver was u told
  generalize State.publish was u = t at shared handed ⊢
  have motion := shared.motion
  unfold State.handedOver at handed
  unfold Posted
  rw [handed]
  rw [handed] at motion
  exact congrArg (fun m => ({ u with
    bus := _, periods := _, due := _, motion := m } : State)) motion

/-- A calm operation from a state `v` that has the Motion Controller, the phase and the view of a sound one. -/
theorem calm_posted {s v u : State} (was : State) (sound : s.Sound) (sane : v.Sane) (view : v.view = s.view)
    (seq : v.seq = s.seq) (motion : v.motion = s.motion) (calm : Calm v u) :
    Posted u (State.publish was u) ∧ (State.publish was u).view = s.view := by
  obtain ⟨-, base, same⟩ := calm sane.ok
  have seen : u.view = s.view := base.view.trans view
  have posted := publish_posted was (calm.keeps sane) (by rw [seen]; exact sound.quiet.1)
    (ilock_agrees sound (same.trans motion) (base.seq.trans seq) (by rw [seen]))
  exact ⟨posted, posted.view.trans seen⟩

theorem setPins_sane {s : State} (h : s.Sane) (p : Pins) : (s.setPins p).Sane :=
  ⟨h.checked, h.lanes, h.queue, h.claims, h.counters, h.extend⟩

/-! ### Requests (R126, R180) -/

theorem refusal_absent {s : State} {fitted : Bool} (h : fitted = false) : s.refusal fitted = some 3 := by
  simp [State.refusal, h]
  rfl

theorem refusal_phase {s : State} {fitted : Bool} (h : fitted = true) (phase : s.seq.phase ≠ .run) :
    s.refusal fitted = some 10 := by
  simp [State.refusal, h, State.inRun, phase]
  rfl

theorem refusal_none {s : State} {fitted : Bool} (h : fitted = true) (phase : s.seq.phase = .run) :
    s.refusal fitted = none := by
  simp [State.refusal, h, State.inRun, phase]

/-- A request of a block's: refused with an outcome, or met. -/
def State.meets (s : State) (code : Nat) (fitted : Functions → Bool) (g : State → Nat → Int → State) : State :=
  s.onRequest code fun u i v =>
    match u.refusal (fitted u.seq.fns) with
    | some o => u.answer code o
    | none => g u i v

section
variable {s : State} {code i : Nat} {v : Int} (asks : s.asks code i v) (quiet : s.view.changes = [])
  (fitted : Functions → Bool) (g : State → Nat → Int → State)
include asks

theorem meets_none (has : fitted s.seq.fns = true) (phase : s.seq.phase = .run) : s.meets code fitted g = g s.taken i v := by
  unfold State.meets
  rw [onRequest_asks asks]
  have met : s.taken.refusal (fitted s.taken.seq.fns) = none := refusal_none (s := s.taken) has phase
  rw [met]

include quiet

/-- Absent and Phase, and what a request does otherwise. -/
theorem request_answered : ∃ t, done s (s.meets code fitted g) = .next t
    ∧ (fitted s.seq.fns = false → (s.taken.answered code 3).handedOver t)
    ∧ (fitted s.seq.fns = true → s.seq.phase ≠ .run → (s.taken.answered code 10).handedOver t)
    ∧ (fitted s.seq.fns = true → s.seq.phase = .run → t = State.publish s (g s.taken i v)) := by
  refine ⟨State.publish s (s.meets code fitted g), rfl, fun absent => ?_, fun has phase => ?_, fun has phase => ?_⟩
  · have refused : s.taken.refusal (fitted s.taken.seq.fns) = some 3 := refusal_absent (s := s.taken) absent
    unfold State.meets
    rw [onRequest_asks asks, refused]
    exact publish_handedOver s (s.taken.answer code 3) quiet
  · have refused : s.taken.refusal (fitted s.taken.seq.fns) = some 10 := refusal_phase (s := s.taken) has phase
    unfold State.meets
    rw [onRequest_asks asks, refused]
    exact publish_handedOver s (s.taken.answer code 10) quiet
  · rw [meets_none asks fitted g has phase]

end

end Sys2Proof.Machine
end

