-- ==== Sys2Proof/Proofs/Tap.lean ====
section
/-! PROOFS. The pump's demand path and its claim (R86, R87). -/

namespace Sys2Proof.Machine

/-! ### The values a claim is asked at (R185) -/

theorem State.valuesFit.draw {s : State} (h : s.valuesFit) (i : Fin 49) (plain : (itemRange i.val).1 = 1)
    (le : (itemRange i.val).2.1 = 30000) (one : ¬ (10 ≤ i.val ∧ i.val ≤ 17) ∧ i.val ≠ 20 ∧ ¬ (22 ≤ i.val ∧ i.val ≤ 24)) :
    1 ≤ s.seq.values.get i ∧ s.seq.values.get i ≤ 30000 := by
  have item := h.1.1 i
  unfold inRange at item
  rw [if_neg one.1, if_neg one.2.1, if_neg one.2.2, plain, le] at item
  exact ⟨item.1, item.2.1⟩

theorem State.valuesFit.pumpDraw {s : State} (h : s.valuesFit) :
    1 ≤ Item.pumpDraw s.seq.values ∧ Item.pumpDraw s.seq.values ≤ 30000 :=
  h.draw 25 rfl rfl (by decide)

theorem State.valuesFit.startDraw {s : State} (h : s.valuesFit) :
    1 ≤ Item.startDraw s.seq.values ∧ Item.startDraw s.seq.values ≤ 30000 :=
  h.draw 26 rfl rfl (by decide)

theorem State.valuesFit.padDraw {s : State} (h : s.valuesFit) :
    1 ≤ Item.padDraw s.seq.values ∧ Item.padDraw s.seq.values ≤ 30000 :=
  h.draw 29 rfl rfl (by decide)

theorem State.valuesFit.motionDraw {s : State} (h : s.valuesFit) (ch : Fin 2) :
    1 ≤ Item.motionDraw s.seq.values ch ∧ Item.motionDraw s.seq.values ch ≤ 30000 := by
  match ch with
  | 0 => exact h.draw 30 rfl rfl (by decide)
  | 1 => exact h.draw 31 rfl rfl (by decide)

/-! ### PUMP and the demand path (R86 to R88) -/

/-- What PUMP is by R87 with its claim `c`. -/
def State.pumpOn (s : State) (c : Claim) : Bool :=
  c.drawing && s.freshOk && s.valveClosed
    && ((s.demandWants && c.st == .held && c.rank == 5) || s.water.cycle == .circulating)

/-- The Water Manager with PUMP and the runaway count that follow the claim `c`. -/
def State.pumped (s : State) (c : Claim) : Water :=
  { s.water with
    pump := s.pumpOn c
    runawayTimer := if s.pumpOn c && s.water.cycle != .circulating then
      some (s.water.runawayTimer.getD Config.runawayMs) else none }

theorem pumpFollows_eq (s : State) : s.pumpFollows = s.setWater (s.pumped (s.claim loadPump)) := rfl

theorem pumpOn_idle {s : State} {c : Claim} (h : c.st = .idle) : s.pumpOn c = false := by
  simp [State.pumpOn, Claim.drawing, h]

theorem pumpOn_undrawn {s : State} {c : Claim} (h : c.drawing = false) : s.pumpOn c = false := by
  simp [State.pumpOn, h]

/-- What the demand path does with its claim, before PUMP follows (R86). -/
def State.demandActs (s : State) : State :=
  if s.water.cycle.holdsClaim then s
  else if s.demandWants then
    if (s.claim loadPump).st = .idle then (s.ask loadPump 5 (Item.pumpDraw s.seq.values) false).1 else s
  else if (s.claim loadPump).st = .idle then s
  else s.pumpReleased

theorem demandFollows_runs {s : State} (fitted : s.seq.fns.water = true) (run : s.inRun = true) :
    s.demandFollows = s.demandActs.pumpFollows := by
  unfold State.demandFollows
  rw [if_pos (by simp [fitted, run])]
  rfl

theorem demandFollows_rests {s : State} (h : s.seq.fns.water = false ∨ s.inRun = false) : s.demandFollows = s := by
  unfold State.demandFollows
  exact if_neg (by rcases h with h | h <;> simp [h])

theorem pumpReleased_claim {s : State} (o : s.Ok) : (s.pumpReleased.claim loadPump).st = .idle :=
  release_idle (setWater_calm s _ o).1 loadPump

theorem pumpReleased_water (s : State) : s.pumpReleased.water = { s.water with pump := false, runawayTimer := none } :=
  (release_shared _ _).water

theorem pumpReleased_seq (s : State) : s.pumpReleased.seq = s.seq := (release_shared _ _).seq

theorem pumpReleased_pins (s : State) : s.pumpReleased.pins = s.pins := (release_shared _ _).pins

section
variable {s : State} (fitted : s.seq.fns.water = true) (run : s.inRun = true)
include fitted run

/-- The Water Manager after the demand path has followed: PUMP and the runaway count by the claim it has then. -/
theorem demandFollows_water (o : s.Ok) : s.demandFollows.water = s.pumped (s.demandFollows.claim loadPump) := by
  rw [demandFollows_runs fitted run, pumpFollows_eq]
  show s.demandActs.pumped (s.demandActs.claim loadPump) = s.pumped (s.demandActs.claim loadPump)
  unfold State.demandActs
  split
  · rfl
  split
  · split
    · have asked := ask_shared s loadPump 5 (Item.pumpDraw s.seq.values) false
      generalize (s.ask loadPump 5 (Item.pumpDraw s.seq.values) false).1 = u at asked
      unfold State.pumped State.pumpOn State.freshOk State.valveClosed State.demandWants State.freshOk State.valveClosed State.inRun
      rw [asked.water, asked.pins, asked.seq]
    · rfl
  split
  · rfl
  · have off := pumpOn_idle (s := s) (pumpReleased_claim o)
    have off' := pumpOn_idle (s := s.pumpReleased) (pumpReleased_claim o)
    unfold State.pumped
    rw [off, off', pumpReleased_water]
    rfl

/-- While a cycle holds the claim the demand path leaves it. -/
theorem demandFollows_cycling (holds : s.water.cycle.holdsClaim = true) :
    s.demandFollows.claim loadPump = s.claim loadPump := by
  rw [demandFollows_runs fitted run]
  unfold State.demandActs
  rw [if_pos holds]
  rfl

section
variable (free : s.water.cycle.holdsClaim = false)
include free

/-- A demand that does not want the pump has no claim. -/
theorem demandFollows_unwanted (o : s.Ok) (not : s.demandWants = false) : (s.demandFollows.claim loadPump).st = .idle := by
  rw [demandFollows_runs fitted run]
  unfold State.demandActs
  rw [if_neg (by simp [free]), if_neg (by simp [not])]
  split
  · assumption
  · exact pumpReleased_claim o

/-- A demand that wants the pump keeps the claim it has. -/
theorem demandFollows_has (wants : s.demandWants = true) (has : (s.claim loadPump).st ≠ .idle) :
    s.demandFollows.claim loadPump = s.claim loadPump := by
  rw [demandFollows_runs fitted run]
  unfold State.demandActs
  rw [if_neg (by simp [free]), if_pos wants, if_neg has]
  rfl

/-- A demand that wants the pump and has no claim makes a standing Ask at rank 5 (R86). -/
theorem demandFollows_asks (o : s.Ok)
    (draw : 1 ≤ Item.pumpDraw s.seq.values ∧ Item.pumpDraw s.seq.values ≤ 30000) (wants : s.demandWants = true) (idle : (s.claim loadPump).st = .idle) :
    s.demandFollows.claim loadPump =
      if s.passes loadPump 5 (Item.pumpDraw s.seq.values) = true then
        ((s.claim loadPump).asking 5 (Item.pumpDraw s.seq.values) false).toContest s.broker.nextSerial
      else ((s.claim loadPump).asking 5 (Item.pumpDraw s.seq.values) false).toWaiting := by
  obtain ⟨one, le⟩ := draw
  have min_eq : min (Item.pumpDraw s.seq.values) 30000 = Item.pumpDraw s.seq.values := by omega
  have draws : (s.claim loadPump).drawing = false := by simp [Claim.drawing, idle]
  rw [demandFollows_runs fitted run]
  unfold State.demandActs
  rw [if_neg (by simp [free]), if_pos wants, if_pos idle]
  show (s.ask loadPump 5 (Item.pumpDraw s.seq.values) false).1.claim loadPump = _
  split
  · next passes =>
    rw [← min_eq] at passes
    rw [(ask_passes o _ false one draws (by decide) passes).2, min_eq]
  · next fails =>
    rw [Bool.not_eq_true, ← min_eq] at fails
    rw [(ask_fails o _ false one draws (by decide) fails rfl).2, min_eq]

end
end

end Sys2Proof.Machine
end

