-- ==== Sys2Proof/Proofs/PumpCommands.lean ====
section
/-! PROOFS. The tap's switch, the runaway count and ClearPump (R86 to R89). -/

namespace Sys2Proof.Machine

theorem passes_congr {s t : State} (broker : t.broker = s.broker) (view : t.view = s.view) (seq : t.seq = s.seq)
    (supply : t.supply = s.supply) (fault : t.bus.lineFault = s.bus.lineFault) (id : Fin 7) (rank a : Nat) :
    t.passes id rank a = s.passes id rank a := by
  unfold State.passes State.usable State.ownUsable State.peerUsable State.knownTotal State.ownShare State.place State.entries
    State.claim
  rw [broker, view, seq, supply, fault]

theorem demandFollows_status {s : State} (o : s.Ok) : s.demandFollows.status = s.status := by
  have asked := (ask_asks s loadPump 5 (Item.pumpDraw s.seq.values) false (by decide) o).2.status
  have released := (release_asks (s.setWater { s.water with pump := false, runawayTimer := none }) loadPump
    (setWater_calm s _ o).1).2.status
  unfold State.demandFollows
  split
  · show State.status (ite _ _ _) = _
    split
    · rfl
    split
    · split
      · exact asked
      · rfl
    split
    · rfl
    · exact released
  · rfl

theorem monitor_shows (s : State) (n : Fin 19) (d : Bool) (code outcome : Nat) (h : s.shows code outcome) :
    (s.monitor n d).shows code outcome := by
  rw [monitor_eq]
  exact h

theorem monitor_attention (s : State) (n : Fin 19) (d : Bool) :
    (s.monitor n d).status.attention = (s.status.attention || (d && attentionClass n && s.inRun)) := by
  rw [monitor_eq]

theorem monitor_broker (s : State) (n : Fin 19) (d : Bool) : (s.monitor n d).broker = s.broker := by rw [monitor_eq]

theorem monitor_claim (s : State) (n : Fin 19) (d : Bool) (id : Fin 7) : (s.monitor n d).claim id = s.claim id := by
  rw [monitor_eq]
  rfl

theorem passes_monitor (s : State) (n : Fin 19) (d : Bool) (id : Fin 7) (rank a : Nat) :
    (s.monitor n d).passes id rank a = s.passes id rank a :=
  passes_congr (monitor_broker s n d) (by rw [monitor_eq]) (by rw [monitor_eq]) (by rw [monitor_eq])
    (by have line := monitor_line s n d; unfold Bus.sameLine at line; rw [line]) id rank a

/-- While nothing holds or asks for the claim for a cycle, a claim that is not Idle stands at rank 5 and is not Forced. -/
theorem State.Fits.pumpForTap {s : State} (h : s.Fits) (free : s.water.cycle.holdsClaim = false)
    (has : (s.claim loadPump).st ≠ .idle) : (s.claim loadPump).rank = 5 ∧ (s.claim loadPump).st ≠ .forced := by
  obtain ⟨-, -, -, -, -, -, -, -, -, -, forced, -, ranked⟩ := h.water
  have notCycle : ¬ (s.water.cycle = .asking ∨ s.water.cycle = .circulating) := by
    rintro (e | e) <;> simp [e, Cycle.holdsClaim] at free
  obtain ⟨-, -, ranks, -⟩ := (h.claims.2.2 loadPump).1 has
  have one := (ranked has).not.mpr notCycle
  have ranks : (s.claim loadPump).rank ∈ [1, 5] := ranks
  rw [List.mem_pair] at ranks
  exact ⟨ranks.resolve_left one, fun e => notCycle (.inr (forced e))⟩

theorem State.Fits.pumpOfCycle {s : State} (h : s.Fits) (holds : s.water.cycle.holdsClaim = true) :
    (s.claim loadPump).st ≠ .idle := by
  obtain ⟨-, -, -, -, -, -, -, -, -, circulates, -, asks, -⟩ := h.water
  intro idle
  cases e : s.water.cycle <;> simp [e, Cycle.holdsClaim] at holds
  · exact absurd ((asks e).1.symm.trans idle) (by decide)
  · have draws := circulates e
    simp [Claim.drawing, idle] at draws

/-- A ClearPump that is met (R89). -/
def State.clearsPump (s : State) : State :=
  let s := s.answer 12 Outcome.accepted
  if s.water.runaway then
    ((s.setWater { s.water with runaway := false }).monitor Mon.pumpRunaway false).demandFollows
  else s

/-- PUMP for a claim that stands for the tap. -/
theorem pumpOn_tap {s : State} {c : Claim} (wants : s.demandWants = true) (free : s.water.cycle.holdsClaim = false)
    (five : c.rank = 5) (forced : c.st ≠ .forced) : s.pumpOn c = decide (c.st = .held) := by
  have notCirc : s.water.cycle ≠ .circulating := fun e => by simp [e, Cycle.holdsClaim] at free
  have both : s.freshOk = true ∧ s.valveClosed = true := by
    simp only [State.demandWants, Bool.and_eq_true] at wants
    exact ⟨wants.1.1.2, wants.1.2⟩
  unfold State.pumpOn Claim.drawing
  cases e : c.st <;> simp [both, wants, five, notCirc, e] at forced ⊢

end Sys2Proof.Machine

namespace Sys2Proof.Proofs
open Sys2Proof.Machine

section
variable {s : State} (fits : s.Fits)
include fits

theorem pdem_taken (a : Bool) : ∃ t, exec (.pdemChange a) s = .next t ∧ Wet (s.setPins { s.pins with pdem := a }) t
    ∧ t.view = s.view ∧ t.water.cycle = s.water.cycle
    ∧ (s.seq.fns.water = false ∨ s.inRun = false ∨ s.water.cycle.holdsClaim = true → t.broker = s.broker)
    ∧ (s.seq.fns.water = true → s.inRun = true → s.water.cycle.holdsClaim = false →
        if (a && !s.water.runaway && s.freshOk && s.valveClosed) = true then
          if (s.claim loadPump).st = .idle then
            (t.claim loadPump).rank = 5 ∧ (t.claim loadPump).asked = s.seq.values.get 25 ∧ t.water.pump = false
              ∧ (t.claim loadPump).st = if s.passes loadPump 5 (s.seq.values.get 25) = true then .contest else .waiting
          else t.claim loadPump = s.claim loadPump ∧ t.water.pump = decide ((s.claim loadPump).st = .held)
        else (t.claim loadPump).st = .idle ∧ t.water.pump = false) := by
  have arm : exec (.pdemChange a) s = .next (State.publish s (s.setPins { s.pins with pdem := a }).demandFollows) := rfl
  have sane := setPins_sane fits.sound.sane { s.pins with pdem := a }
  have wet := demandFollows_wet (s.setPins { s.pins with pdem := a })
  have cycle := (demandFollows_cycle (s.setPins { s.pins with pdem := a })).1
  have calm := demandFollows_calm (s.setPins { s.pins with pdem := a })
  obtain ⟨posted, view⟩ := calm_posted s fits.sound sane rfl rfl rfl calm
  generalize hv : s.setPins { s.pins with pdem := a } = v at *
  have claim : v.claim loadPump = s.claim loadPump := by rw [← hv]; rfl
  have water : v.water = s.water := by rw [← hv]; rfl
  have seq : v.seq = s.seq := by rw [← hv]; rfl
  have passes : ∀ r x, v.passes loadPump r x = s.passes loadPump r x := fun r x => by rw [← hv]; rfl
  refine ⟨_, arm, posted.wet wet, view, by rw [posted.water, cycle, water], fun rests => ?_, fun fitted run free => ?_⟩
  · rw [posted.broker]
    have same : v.broker = s.broker := by rw [← hv]; rfl
    rcases rests with h | h | h
    · rw [demandFollows_rests (.inl (by rw [seq]; exact h)), same]
    · rw [demandFollows_rests (.inr (by rw [← hv]; exact h)), same]
    · by_cases acts : v.seq.fns.water = true ∧ v.inRun = true
      · rw [demandFollows_runs acts.1 acts.2, State.demandActs, if_pos (by rw [water]; exact h)]
        exact same
      · rw [not_and_or, Bool.not_eq_true, Bool.not_eq_true] at acts
        rw [demandFollows_rests acts, same]
  · have fitted' : v.seq.fns.water = true := by rw [seq]; exact fitted
    have run' : v.inRun = true := by rw [← hv]; exact run
    have free' : v.water.cycle.holdsClaim = false := by rw [water]; exact free
    have wants : v.demandWants = (a && !s.water.runaway && s.freshOk && s.valveClosed) := by
      rw [← hv]
      show (a && !s.water.runaway && s.freshOk && s.valveClosed && s.inRun) = _
      rw [run, Bool.and_true]
    have pump : (State.publish s v.demandFollows).water.pump = v.pumpOn (v.demandFollows.claim loadPump) := by
      rw [posted.water, demandFollows_water fitted' run' sane.ok]
      rfl
    rw [← wants, posted.claim, pump]
    split
    · next w =>
      split
      · next idle =>
        have draw := fits.values.pumpDraw
        rw [← seq] at draw
        rw [demandFollows_asks fitted' run' free' sane.ok draw w (by rw [claim]; exact idle), passes, seq]
        unfold Item.pumpDraw
        split
        · exact ⟨rfl, rfl, pumpOn_undrawn rfl, rfl⟩
        · exact ⟨rfl, rfl, pumpOn_undrawn rfl, rfl⟩
      · next has =>
        rw [demandFollows_has fitted' run' free' w (by rw [claim]; exact has), claim]
        obtain ⟨five, forced⟩ := fits.pumpForTap free has
        exact ⟨rfl, pumpOn_tap w free' five forced⟩
    · next not =>
      have idle := demandFollows_unwanted fitted' run' free' sane.ok (by simpa using not)
      exact ⟨idle, pumpOn_idle idle⟩

theorem runaway_taken (count : s.water.runawayTimer.isSome = true) : ∃ t, exec .runawayCountExpiry s = .next t ∧ Wet s t
    ∧ t.view = s.view ∧ t.water.runaway = true ∧ t.water.pump = false ∧ t.water.runawayTimer = none
    ∧ (t.claim loadPump).st = .idle ∧ t.status.summary.get Mon.pumpRunaway = true ∧ t.status.attention = true
    ∧ t.water.cycle = s.water.cycle := by
  have arm : exec .runawayCountExpiry s = .next (State.publish s
      ((s.setWater { s.water with runaway := true }).pumpReleased.monitor Mon.pumpRunaway true).demandFollows) := by
    show done s _ = _
    rw [if_pos count]
    rfl
  obtain ⟨pumps, counts, -, -, -, -, -, -, -, -, -, asks, -⟩ := fits.water
  obtain ⟨on, notCirc⟩ := counts count
  obtain ⟨draws, -, -, run, fitted⟩ := pumps on
  have free : s.water.cycle.holdsClaim = false := by
    cases e : s.water.cycle
    case asking =>
      have contest : (s.claim loadPump).st = .contest := (asks e).1
      simp [Claim.drawing, contest] at draws
    case circulating => exact absurd e notCirc
    all_goals rfl
  have wet := (setWater_wet s { s.water with runaway := true }).trans (pumpReleased_wet _)
  have calm := (setWater_calm s { s.water with runaway := true }).trans (pumpReleased_calm _)
  have ok := (calm fits.sound.ok).1
  have water := pumpReleased_water (s.setWater { s.water with runaway := true })
  have seq := pumpReleased_seq (s.setWater { s.water with runaway := true })
  generalize (s.setWater { s.water with runaway := true }).pumpReleased = u at *
  have loud := calm.trans (monitor_calm u Mon.pumpRunaway true)
  have shared := monitor_shared u Mon.pumpRunaway true
  have declared := monitor_summary u Mon.pumpRunaway Mon.pumpRunaway true
  have attention := monitor_attention u Mon.pumpRunaway true
  have ok' := (loud fits.sound.ok).1
  obtain ⟨posted, view⟩ := calm_posted s fits.sound fits.sound.sane rfl rfl rfl (loud.trans (demandFollows_calm _))
  have wet' := (wet.trans shared.wet).trans (demandFollows_wet _)
  have running : u.inRun = true := by rw [State.inRun, seq]; exact run
  generalize u.monitor Mon.pumpRunaway true = v at *
  have water' : v.water = { s.water with runaway := true, pump := false, runawayTimer := none } := by
    rw [shared.water, water]
    rfl
  have fitted' : v.seq.fns.water = true := by rw [shared.seq, seq]; exact fitted
  have run' : v.inRun = true := by rw [State.inRun, shared.seq]; exact running
  have free' : v.water.cycle.holdsClaim = false := by rw [water']; exact free
  have idle := demandFollows_unwanted fitted' run' free' ok' (by simp [State.demandWants, water'])
  have pumped := demandFollows_water fitted' run' ok'
  have off := pumpOn_idle (s := v) idle
  refine ⟨_, arm, posted.wet wet', view, ?_, ?_, ?_, ?_, ?_, ?_, ?_⟩
  · rw [posted.water, pumped, State.pumped, water']
  · rw [posted.water, pumped, State.pumped, off]
  · rw [posted.water, pumped, State.pumped, off]
    rfl
  · rw [posted.claim]
    exact idle
  · rw [posted.status, demandFollows_status ok', declared]
    rfl
  · rw [posted.status, demandFollows_status ok', attention, running]
    exact Bool.or_true _
  · rw [posted.water, pumped, State.pumped, water']

/-- ClearPump clears a Pump Runaway that is declared, and the demand path of an open tap asks at once (R89). -/
theorem clearPump_clears (fitted : s.seq.fns.water = true) (phase : s.seq.phase = .run) (away : s.water.runaway = true) :
    let t := State.publish s s.taken.clearsPump
    Wet s t ∧ t.view = s.view ∧ t.shows 12 1 ∧ t.water.runaway = false
      ∧ t.status.summary.get Mon.pumpRunaway = false ∧ (s.demandWants = false → s.pins.pdem = true → s.freshOk = true →
        s.valveClosed = true → (t.claim loadPump).st ≠ .idle ∧ ((s.claim loadPump).st = .idle →
          (t.claim loadPump).rank = 5 ∧ (t.claim loadPump).single = false ∧ (t.claim loadPump).asked = s.seq.values.get 25
            ∧ (t.claim loadPump).st =
              if s.passes loadPump 5 (s.seq.values.get 25) = true then .contest else .waiting)) := by
  have eq : s.taken.clearsPump = ((((s.taken.answer 12 1).setWater { s.water with runaway := false }).monitor
    Mon.pumpRunaway false).demandFollows) := if_pos away
  rw [eq]
  have calm := (answer_calm s.taken 12 1).trans (setWater_calm _ { s.water with runaway := false })
  have ok := (calm (taken_keeps s fits.sound.sane).ok).1
  have claim : ((s.taken.answer 12 1).setWater { s.water with runaway := false }).claim loadPump = s.claim loadPump := rfl
  have passes : ∀ r x, ((s.taken.answer 12 1).setWater { s.water with runaway := false }).passes loadPump r x
    = s.passes loadPump r x := fun _ _ => rfl
  have wet : Wet s ((s.taken.answer 12 1).setWater { s.water with runaway := false }) := rfl
  have shows : State.shows ((s.taken.answer 12 1).setWater { s.water with runaway := false }) 12 1 := ⟨rfl, rfl⟩
  have fields : ((s.taken.answer 12 1).setWater { s.water with runaway := false }).seq = s.seq
    ∧ ((s.taken.answer 12 1).setWater { s.water with runaway := false }).pins = s.pins
    ∧ ((s.taken.answer 12 1).setWater { s.water with runaway := false }).water = { s.water with runaway := false } := ⟨rfl, rfl, rfl⟩
  generalize (s.taken.answer 12 1).setWater { s.water with runaway := false } = u at *
  obtain ⟨seq, pins, water⟩ := fields
  have loud := calm.trans (monitor_calm u Mon.pumpRunaway false)
  have ok' := (loud (taken_keeps s fits.sound.sane).ok).1
  have shared := monitor_shared u Mon.pumpRunaway false
  have cleared := monitor_summary u Mon.pumpRunaway Mon.pumpRunaway false
  have shown := monitor_shows u Mon.pumpRunaway false 12 1 shows
  have same := monitor_claim u Mon.pumpRunaway false loadPump
  have passes' := passes_monitor u Mon.pumpRunaway false loadPump
  obtain ⟨posted, view⟩ := calm_posted s fits.sound (taken_keeps s fits.sound.sane) rfl rfl rfl
    (loud.trans (demandFollows_calm _))
  have wet' := (wet.trans shared.wet).trans (demandFollows_wet _)
  generalize u.monitor Mon.pumpRunaway false = w at *
  have water' : w.water = { s.water with runaway := false } := shared.water.trans water
  have fitted' : w.seq.fns.water = true := by rw [shared.seq, seq]; exact fitted
  have run' : w.inRun = true := by rw [State.inRun, shared.seq, seq, phase]; rfl
  have pumped := demandFollows_water fitted' run' ok'
  refine ⟨posted.wet wet', view, ?_, ?_, ?_, fun _ tap fresh closed => ?_⟩
  · show State.shows (State.publish s w.demandFollows) 12 1
    unfold State.shows at *
    rw [posted.status, demandFollows_status ok']
    exact shown
  · rw [posted.water, pumped, State.pumped, water']
  · rw [posted.status, demandFollows_status ok', cleared]
    rfl
  have wants : w.demandWants = true := by
    have pins' : w.pins = s.pins := shared.pins.trans pins
    have fresh' : w.freshOk = s.freshOk := by unfold State.freshOk; rw [water']
    have closed' : w.valveClosed = s.valveClosed := by unfold State.valveClosed; rw [water', pins']
    unfold State.demandWants
    rw [fresh', closed', run', fresh, closed, water', pins', tap]
    rfl
  rw [posted.claim]
  have claim' : w.claim loadPump = s.claim loadPump := same.trans claim
  by_cases holds : s.water.cycle.holdsClaim = true
  · have has := fits.pumpOfCycle holds
    rw [demandFollows_cycling fitted' run' (by rw [water']; exact holds), claim']
    exact ⟨has, fun idle => absurd idle has⟩
  have free' : w.water.cycle.holdsClaim = false := by rw [water']; simpa using holds
  by_cases idle : (s.claim loadPump).st = .idle
  · have draw := fits.values.pumpDraw
    rw [← seq, ← shared.seq] at draw
    rw [demandFollows_asks fitted' run' free' ok' draw wants (by rw [claim']; exact idle), passes', passes, shared.seq, seq]
    unfold Item.pumpDraw
    split
    · exact ⟨nofun, fun _ => ⟨rfl, rfl, rfl, rfl⟩⟩
    · exact ⟨nofun, fun _ => ⟨rfl, rfl, rfl, rfl⟩⟩
  · rw [demandFollows_has fitted' run' free' wants (by rw [claim']; exact idle), claim']
    exact ⟨idle, fun h => absurd h idle⟩

end

/-- Settles O49: the demand path follows the tap, the count's end and ClearPump alike. -/
theorem pumpCommands : Obligations.PumpCommands := by
  intro s a fits
  refine ⟨pdem_taken fits a, runaway_taken fits, fun i v asks => ?_⟩
  obtain ⟨t, arm, absent, early, met⟩ := request_answered asks fits.sound.quiet.1 (·.water) fun u _ _ => u.clearsPump
  refine ⟨t, arm, absent, early, fun fitted phase => ?_⟩
  rw [met fitted phase]
  split
  · next away => exact clearPump_clears fits fitted phase away
  · next quiet =>
    have stands : s.taken.clearsPump = s.taken.answer 12 1 := if_neg quiet
    rw [stands]
    exact publish_handedOver s (s.taken.answer 12 1) fits.sound.quiet.1

end Sys2Proof.Proofs
end

