-- ==== Sys2Proof/Proofs/Cycles.lean ====
section
/-! PROOFS. The frost cycle's operations, equation by equation (R92 to R96). -/

namespace Sys2Proof.Machine

/-! ### The frost-demand flag and the heater (R93, R110) -/

/-- Only the heater's claim is reached, and no monitor. -/
def heaterAlone : Scope := { mons := fun _ => False, loads := (· = loadHeater) }

theorem setDemand_water (s : State) (d : Bool) : (s.setDemand d).water = { s.water with demand := d } := by
  unfold State.setDemand
  split
  · next same => rw [← same]
  · have warm := frostService_warm (s.setWater { s.water with demand := d })
    rw [Warm, Shared] at warm
    rw [warm]
    rfl

theorem setDemand_tended {s : State} {n : Nat} (o : s.Ok) (w : s.waitWithin n) (d : Bool) :
    Tended heaterAlone n s (s.setDemand d) := by
  have own : Fact (heaterAlone.loads loadHeater) := ⟨rfl⟩
  exact (setDemand_tends s d o w).2.2

/-- A claim other than the heater's that does not wait stands through a change of the flag. -/
theorem setDemand_claim {s : State} (o : s.Ok) (d : Bool) {id : Fin 7} (other : id ≠ loadHeater)
    (settled : (s.claim id).st ≠ .waiting) : (s.setDemand d).claim id = s.claim id :=
  ((setDemand_tended o (waitWithin_exists s).choose_spec d).claims id other).resolve_right fun h => settled h.1

theorem setDemand_level {s : State} (o : s.Ok) (d : Bool) : (s.setDemand d).broker.level = s.broker.level :=
  ((setDemand_tended o (waitWithin_exists s).choose_spec d).levels.1 not_false).1

/-! ### What the demand path leaves of the Water Manager -/

theorem demandFollows_rest (s : State) : s.demandFollows.water
    = { s.water with pump := s.demandFollows.water.pump, runawayTimer := s.demandFollows.water.runawayTimer } := by
  have released : s.pumpReleased.water = { s.water with pump := false, runawayTimer := none } :=
    (release_shared _ _).water
  have asked := (ask_shared s loadPump 5 (Item.pumpDraw s.seq.values) false).water
  unfold State.demandFollows
  split
  · unfold State.pumpFollows
    split
    · rfl
    · split
      · split
        · simp only [State.setWater, asked]
        · rfl
      · split
        · rfl
        · simp only [State.setWater, released]
  · rfl

theorem demandWants_congr {s t : State} (pins : t.pins = s.pins) (runaway : t.water.runaway = s.water.runaway)
    (tanks : t.water.tanks = s.water.tanks) (cmd : t.water.dumpCmdOpen = s.water.dumpCmdOpen) (seq : t.seq = s.seq) :
    t.demandWants = s.demandWants := by
  unfold State.demandWants State.freshOk State.valveClosed State.inRun
  rw [pins, runaway, tanks, cmd, seq]

theorem valveClosed_congr {s t : State} (pins : t.pins = s.pins) (cmd : t.water.dumpCmdOpen = s.water.dumpCmdOpen) :
    t.valveClosed = s.valveClosed := by
  unfold State.valveClosed
  rw [pins, cmd]

theorem freshOk_congr {s t : State} (tanks : t.water.tanks = s.water.tanks) : t.freshOk = s.freshOk := by
  unfold State.freshOk
  rw [tanks]

/-- A demand with PUMP off and its claim Idle: a tap that wants the pump asks, any other is left with no claim (R86). -/
theorem pumpReleased_follows {s : State} (o : s.Ok) (fitted : s.seq.fns.water = true) (run : s.inRun = true)
    (free : s.water.cycle.holdsClaim = false)
    (draw : 1 ≤ Item.pumpDraw s.seq.values ∧ Item.pumpDraw s.seq.values ≤ 30000) :
    let t := s.pumpReleased.demandFollows
    t.water.pump = false ∧ (s.demandWants = false → (t.claim loadPump).st = .idle)
      ∧ (s.demandWants = true → (t.claim loadPump).rank = 5 ∧ (t.claim loadPump).asked = Item.pumpDraw s.seq.values
        ∧ ((t.claim loadPump).st = .waiting ∨ (t.claim loadPump).st = .contest)) := by
  have water := pumpReleased_water s
  have seq := pumpReleased_seq s
  have wants : s.pumpReleased.demandWants = s.demandWants :=
    demandWants_congr (pumpReleased_pins s) (by rw [water]) (by rw [water]) (by rw [water]) seq
  have idle := pumpReleased_claim o
  have ok := (pumpReleased_calm s o).1
  generalize s.pumpReleased = u at *
  have fitted' : u.seq.fns.water = true := by rw [seq]; exact fitted
  have run' : u.inRun = true := by rw [State.inRun, seq]; exact run
  have free' : u.water.cycle.holdsClaim = false := by rw [water]; exact free
  have pump : u.demandFollows.water.pump = u.pumpOn (u.demandFollows.claim loadPump) := by
    rw [demandFollows_water fitted' run' ok]
    rfl
  intro t
  rw [pump]
  by_cases w : s.demandWants = true
  · have claim := demandFollows_asks fitted' run' free' ok (by rw [seq]; exact draw) (wants.trans w) idle
    rw [claim, seq]
    split
    · exact ⟨pumpOn_undrawn rfl, fun h => absurd w (by simp [h]), fun _ => ⟨rfl, rfl, .inr rfl⟩⟩
    · exact ⟨pumpOn_undrawn rfl, fun h => absurd w (by simp [h]), fun _ => ⟨rfl, rfl, .inl rfl⟩⟩
  · have none := demandFollows_unwanted fitted' run' free' ok (by rw [wants]; simpa using w)
    exact ⟨pumpOn_idle none, fun _ => none, fun h => absurd h w⟩

/-! ### Frost cycles (R92 to R98) -/

theorem enterCirculating_water {s : State} (o : s.Ok) (draws : (s.claim loadPump).drawing = true) :
    s.enterCirculating.water = { s.water with
      cycle := .circulating, circTimer := some 120000, dueTimer := none, demand := true
      pump := s.freshOk && s.valveClosed, runawayTimer := none }
    ∧ s.enterCirculating.claim loadPump = s.claim loadPump := by
  have settled : (s.claim loadPump).st ≠ .waiting := fun e => by simp [Claim.drawing, e] at draws
  let u := s.setWater { s.water with cycle := .circulating, circTimer := some Config.circulationMs, dueTimer := none }
  have ok : u.Ok := (setWater_calm s _ o).1
  have water := setDemand_water u true
  have pins := (setDemand_calm u true ok).2.1.pins
  have claim : (u.setDemand true).claim loadPump = s.claim loadPump :=
    setDemand_claim ok true (by decide) settled
  have eq : s.enterCirculating = (u.setDemand true).pumpFollows := rfl
  rw [eq]
  generalize u.setDemand true = t at *
  have fresh : t.freshOk = s.freshOk := freshOk_congr (by rw [water]; rfl)
  have closed : t.valveClosed = s.valveClosed := valveClosed_congr pins (by rw [water]; rfl)
  refine ⟨?_, claim⟩
  show t.pumped (t.claim loadPump) = _
  have cycle : t.water.cycle = .circulating := by rw [water]; rfl
  unfold State.pumped State.pumpOn
  have same : (Cycle.circulating == Cycle.circulating) = true := rfl
  have differs : (Cycle.circulating != Cycle.circulating) = false := rfl
  rw [claim, draws, fresh, closed, cycle, water, same, differs, Bool.or_true, Bool.and_true, Bool.and_false, Bool.true_and]
  rfl

theorem enterCirculating_claim {s : State} (o : s.Ok) (draws : (s.claim loadPump).drawing = true) :
    s.enterCirculating.claim loadPump = s.claim loadPump := (enterCirculating_water o draws).2

/-- The valve is open: Drained, with nothing owed, and the tap's demand has no claim (R95, R98). -/
theorem drain_water {s : State} (o : s.Ok) (fitted : s.seq.fns.water = true) (run : s.inRun = true)
    (closed : s.valveClosed = false) : s.drain.water = { s.water with
      demand := false, cycle := .drained, owed := 0, dueTimer := none, dueOnRun := false, circTimer := none
      pump := false, runawayTimer := none }
    ∧ (s.drain.claim loadPump).st = .idle := by
  let d := s.setDemand false
  have calm := setDemand_calm s false o
  have water := setDemand_water s false
  let u := d.setWater { d.water with
    cycle := .drained, owed := 0, dueTimer := none, dueOnRun := false, circTimer := none }
  have ok : u.Ok := (setWater_calm d _ calm.1).1
  have eq : s.drain = if s.water.cycle.holdsClaim then u.pumpReleased.demandFollows else u.demandFollows := rfl
  have water' : u.water = { s.water with
      demand := false, cycle := .drained, owed := 0, dueTimer := none, dueOnRun := false, circTimer := none } := by
    show ({ (s.setDemand false).water with
      cycle := .drained, owed := 0, dueTimer := none, dueOnRun := false, circTimer := none } : Water) = _
    rw [water]
  have pins : u.pins = s.pins := calm.2.1.pins
  have seq : u.seq = s.seq := calm.2.1.seq
  rw [eq]
  generalize u = u at *
  have fitted' : u.seq.fns.water = true := by rw [seq]; exact fitted
  have run' : u.inRun = true := by rw [State.inRun, seq]; exact run
  have open' : u.valveClosed = false := by rw [valveClosed_congr pins (by rw [water'])]; exact closed
  have settles : ∀ x : State, x.Ok → x.seq = u.seq → x.pins = u.pins
      → x.water = { u.water with pump := x.water.pump, runawayTimer := x.water.runawayTimer } →
      x.demandFollows.water = { u.water with pump := false, runawayTimer := none }
        ∧ (x.demandFollows.claim loadPump).st = .idle := by
    intro x okx seqx pinsx waterx
    have fittedx : x.seq.fns.water = true := by rw [seqx]; exact fitted'
    have runx : x.inRun = true := by rw [State.inRun, seqx]; exact run'
    have openx : x.valveClosed = false := by rw [valveClosed_congr pinsx (by rw [waterx])]; exact open'
    have wants : x.demandWants = false := by simp [State.demandWants, openx]
    have off : ∀ c, x.pumpOn c = false := fun c => by simp [State.pumpOn, openx]
    refine ⟨?_, demandFollows_unwanted fittedx runx (by rw [waterx, water']; rfl) okx wants⟩
    rw [demandFollows_water fittedx runx okx, State.pumped, off, waterx]
    rfl
  have done : ∀ t : State, t.water = { u.water with pump := false, runawayTimer := none } → t.water = { s.water with
      demand := false, cycle := .drained, owed := 0, dueTimer := none, dueOnRun := false, circTimer := none
      pump := false, runawayTimer := none } := fun t e => by rw [e, water']
  split
  · obtain ⟨w, c⟩ := settles u.pumpReleased (pumpReleased_calm u ok).1 (pumpReleased_seq u) (pumpReleased_pins u)
      (by rw [pumpReleased_water])
    exact ⟨done _ w, c⟩
  · obtain ⟨w, c⟩ := settles u ok rfl rfl rfl
    exact ⟨done _ w, c⟩

theorem valveTiming_water (s : State) : s.valveTiming.water =
    if s.water.dumpCmdOpen = s.pins.dumpOpen then { s.water with valveTimer := none, valveFault := false }
    else { s.water with valveTimer := some 10000 } := by
  unfold State.valveTiming
  split
  · dsimp only
    split
    · exact (monitor_shared _ _ _).water
    · next quiet =>
      have off : s.water.valveFault = false := by simpa using quiet
      rw [← off]
      rfl
  · rfl

theorem valveTiming_broker (s : State) : s.valveTiming.broker = s.broker := by
  unfold State.valveTiming
  split
  · dsimp only
    split
    · exact monitor_broker _ _ _
    · rfl
  · rfl

theorem valveTiming_claim (s : State) (id : Fin 7) : s.valveTiming.claim id = s.claim id := by
  rw [State.claim, valveTiming_broker]
  rfl

theorem openDump_water {s : State} (o : s.Ok) (fitted : s.seq.fns.water = true) (run : s.inRun = true) :
    let w := s.openDump.water
    w.cycle = .drained ∧ w.owed = 0 ∧ w.dumpCmdOpen = true ∧ w.dumpDrive = .toOpen ∧ w.dumpCount = 0 ∧ w.pump = false
      ∧ (s.openDump.claim loadPump).st = .idle ∧ w.guard = s.water.guard ∧ w.guardCount = s.water.guardCount
      ∧ w.tanks = s.water.tanks ∧ w.readTimer = s.water.readTimer := by
  let u := s.setWater { s.water with dumpCmdOpen := true, dumpDrive := .toOpen, dumpCount := 0 }
  have calm := ((setWater_calm s _).trans (valveTiming_calm u)) o
  have water := valveTiming_water u
  have fields : u.valveTiming.water = { u.water with
      valveTimer := u.valveTiming.water.valveTimer, valveFault := u.valveTiming.water.valveFault } := by
    rw [water]
    split <;> rfl
  have fitted' : u.valveTiming.seq.fns.water = true := by rw [calm.2.1.seq]; exact fitted
  have run' : u.valveTiming.inRun = true := by rw [State.inRun, calm.2.1.seq]; exact run
  have open' : u.valveTiming.valveClosed = false := by
    unfold State.valveClosed
    rw [fields]
    rfl
  obtain ⟨drained, idle⟩ := drain_water calm.1 fitted' run' open'
  have eq : s.openDump = u.valveTiming.drain := rfl
  rw [eq, drained]
  refine ⟨rfl, rfl, ?_, ?_, ?_, rfl, idle, ?_, ?_, ?_, ?_⟩ <;> rw [fields] <;> rfl

theorem timing_water (s : State) (ms : Nat) :
    (s.timing ms).water = { s.water with cycle := .timing, dueTimer := some ms, dueOnRun := false, circTimer := none } := rfl

/-- The pump claim passes back to a tap that wants it, or is released (R96). -/
theorem disposeClaim_claim {s : State} (o : s.Ok) (fitted : s.seq.fns.water = true) (run : s.inRun = true)
    (free : s.water.cycle.holdsClaim = false)
    (draw : 1 ≤ Item.pumpDraw s.seq.values ∧ Item.pumpDraw s.seq.values ≤ 30000) :
    (s.demandWants = false → (s.disposeClaim.claim loadPump).st = .idle ∧ s.disposeClaim.water.pump = false)
      ∧ (s.demandWants = true → (s.claim loadPump).st = .held → (s.claim loadPump).rank = 1 → s.seq.storage = false →
          s.broker.level ≤ 1 → s.disposeClaim.claim loadPump = { s.claim loadPump with rank := 5 } ∧ s.disposeClaim.water.pump = true)
      ∧ (s.demandWants = true → (s.claim loadPump).rank = 1 →
          (s.claim loadPump).st ≠ .held ∨ s.seq.storage = true ∨ 2 ≤ s.broker.level →
          (s.disposeClaim.claim loadPump).rank = 5 ∧ (s.disposeClaim.claim loadPump).asked = Item.pumpDraw s.seq.values ∧ s.disposeClaim.water.pump = false
            ∧ ((s.disposeClaim.claim loadPump).st = .waiting ∨ (s.disposeClaim.claim loadPump).st = .contest)) := by
  obtain ⟨off, unwanted, wanted⟩ := pumpReleased_follows o fitted run free draw
  by_cases passes : s.demandWants = true ∧ (s.claim loadPump).st = .held ∧ ¬ s.seq.storage = true
  · obtain ⟨wants, held, away⟩ := passes
    have claim := rerank_held_claim 5 held
    have asked := rerank_asks s loadPump 5 (by decide) o
    have reply : (s.claim loadPump).rank = 1 → (s.rerank loadPump 5).2 = if 2 ≤ s.broker.level then .yield else .none := by
      intro one
      rw [rerank_held 5 held, if_neg (by simp [one])]
      dsimp only
      exact if_congr (by omega) rfl rfl
    have eq : s.disposeClaim = match s.rerank loadPump 5 with
      | (s, .yield) => s.pumpReleased.demandFollows
      | (s, _) => s.demandFollows := if_pos ⟨wants, held, away⟩
    obtain ⟨ok, asked⟩ := asked
    have wants' : (s.rerank loadPump 5).1.demandWants = true :=
      (demandWants_congr asked.pins (by rw [asked.water]) (by rw [asked.water]) (by rw [asked.water]) asked.seq).trans wants
    obtain ⟨off', -, wanted'⟩ := pumpReleased_follows ok (by rw [asked.seq]; exact fitted)
      (by rw [State.inRun, asked.seq]; exact run) (by rw [asked.water]; exact free) (by rw [asked.seq]; exact draw)
    generalize s.rerank loadPump 5 = r at *
    obtain ⟨u, reply'⟩ := r
    have fitted' : u.seq.fns.water = true := by rw [asked.seq]; exact fitted
    have run' : u.inRun = true := by rw [State.inRun, asked.seq]; exact run
    have free' : u.water.cycle.holdsClaim = false := by rw [asked.water]; exact free
    refine ⟨fun not => absurd wants (by simp [not]), fun _ _ one _ low => ?_, fun _ one why => ?_⟩
    · have answer : reply' = .none := (reply one).trans (if_neg (by omega))
      subst answer
      have stands : u.demandFollows.claim loadPump = u.claim loadPump :=
        demandFollows_has fitted' run' free' wants' (by rw [claim, held]; decide)
      have pump : u.demandFollows.water.pump = u.pumpOn (u.demandFollows.claim loadPump) := by
        rw [demandFollows_water fitted' run' ok]
        rfl
      rw [eq]
      refine ⟨stands.trans claim, ?_⟩
      show u.demandFollows.water.pump = true
      rw [pump, stands, claim, pumpOn_tap wants' free' rfl (by rw [held]; decide), held]
      rfl
    · have high : 2 ≤ s.broker.level := why.elim (fun n => absurd held n) fun h => h.elim (fun h => absurd h away) id
      have answer : reply' = .yield := (reply one).trans (if_pos high)
      subst answer
      obtain ⟨rank, amount, waits⟩ := wanted' wants'
      rw [eq]
      refine ⟨rank, amount.trans (by rw [asked.seq]), off', waits⟩
  · have eq : s.disposeClaim = s.pumpReleased.demandFollows := if_neg passes
    refine ⟨fun not => ?_, fun wants held one away low => absurd ⟨wants, held, by simp [away]⟩ passes, fun wants one why => ?_⟩
    · rw [eq]
      exact ⟨unwanted not, off⟩
    · obtain ⟨rank, amount, waits⟩ := wanted wants
      rw [eq]
      exact ⟨rank, amount, off, waits⟩

end Sys2Proof.Machine
end

