-- ==== Sys2Proof/Proofs/DueCycles.lean ====
section
/-! PROOFS. A due frost cycle and the end of one (R92 to R98). -/

namespace Sys2Proof.Machine

/-- While the cycle is not Off the station has the water function, and is out of reset (R90, R91). -/
theorem State.Fits.guarded {s : State} (h : s.Fits) (cycle : s.water.cycle ≠ .off) :
    s.seq.fns.water = true ∧ s.inReset = false := by
  obtain ⟨-, -, -, off, guard, -⟩ := h.water
  exact guard (by simpa using off.not.mpr cycle)

/-- The station is in order and in Run, and the pump is neither Forced nor in a frost cycle's demand. -/
structure State.DuePump (s : State) : Prop where
  ok : s.Ok
  fitted : s.seq.fns.water = true
  run : s.inRun = true
  draw : 1 ≤ Item.pumpDraw s.seq.values ∧ Item.pumpDraw s.seq.values ≤ 30000
  forced : (s.claim loadPump).st ≠ .forced
  calm : s.water.demand = false

section
variable {s : State} (fits : s.Fits) (run : s.inRun = true)
include fits run

section
variable (timing : s.water.cycle = .timing)
include timing

omit run in
theorem State.Fits.timingPump : (s.claim loadPump).st ≠ .forced ∧ s.water.demand = false
    ∧ ((s.claim loadPump).st ≠ .idle → (s.claim loadPump).rank = 5) := by
  obtain ⟨-, -, -, -, -, -, -, demand, -, -, forced, -, -⟩ := fits.water
  refine ⟨fun e => absurd ((forced e).symm.trans timing) nofun, ?_, fun has =>
    (fits.pumpForTap (by rw [timing]; rfl) has).1⟩
  rw [← Bool.not_eq_true, demand, timing]
  nofun

/-- What taking a due cycle goes by: an orderly station in Run, whose pump no other cycle has. -/
theorem State.Fits.duePump : s.DuePump :=
  have pump := fits.timingPump timing
  ⟨fits.sound.ok, (fits.guarded (by rw [timing]; nofun)).1, run, fits.values.pumpDraw, pump.1, pump.2.1⟩

end
end

section
variable {s : State} (due : s.DuePump)
include due

omit due in
/-- A due cycle with the fresh level low is skipped (R92). -/
theorem takeDue_skips (low : s.freshOk = false) : s.takeDue = s.timing (Item.frostIntervalMs s.seq.values) := by
  unfold State.takeDue
  exact if_pos (by simp [low])

/-- A claim Held for the tap is taken over (R96). -/
theorem takeDue_takesOver (fresh : s.freshOk = true) (owed : s.water.owed < 4) (held : (s.claim loadPump).st = .held) :
    s.takeDue.water = { s.water with
      cycle := .circulating, circTimer := some 120000, dueTimer := none, demand := true
      pump := s.valveClosed, runawayTimer := none }
    ∧ s.takeDue.claim loadPump = { s.claim loadPump with rank := 1 } := by
  have eq : s.takeDue = (s.rerank loadPump 1).1.enterCirculating := by
    unfold State.takeDue
    dsimp only
    rw [if_neg (by simp [fresh]), if_pos owed, if_pos held]
  obtain ⟨ok, asked⟩ := rerank_asks s loadPump 1 (by decide) due.ok
  have claim := rerank_held_claim 1 held
  rw [eq]
  generalize (s.rerank loadPump 1).1 = u at *
  obtain ⟨water, same⟩ := enterCirculating_water ok (by rw [claim]; simp [Claim.drawing, held])
  rw [water, freshOk_congr (t := u) (s := s) (by rw [asked.water]), valveClosed_congr asked.pins (by rw [asked.water]), fresh, Bool.true_and,
    asked.water]
  exact ⟨rfl, same.trans claim⟩

section
variable (fresh : s.freshOk = true) (owed : s.water.owed < 4) (free : (s.claim loadPump).st ≠ .held)
include fresh owed free

omit due in
theorem takeDue_tries : s.takeDue = match (s.setWater { s.water with
      cycle := .asking, dueTimer := none, dueOnRun := false }).ask loadPump 1 (Item.pumpDraw s.seq.values) true with
    | (u, .refused) => u.cyclePostponed
    | (u, _) => u := by
  unfold State.takeDue
  dsimp only
  rw [if_neg (by simp [fresh]), if_pos owed, if_neg free] <;> rfl

omit fresh owed in
theorem due_undrawn : (s.claim loadPump).drawing = false := by
  have forced := due.forced
  cases e : (s.claim loadPump).st <;> simp [Claim.drawing, e] at free forced ⊢

/-- A cycle tries for the pump, whose contest then runs (R92). -/
theorem takeDue_contests (passes : s.passes loadPump 1 (Item.pumpDraw s.seq.values) = true) :
    s.takeDue.water = { s.water with cycle := .asking, dueTimer := none, dueOnRun := false }
    ∧ s.takeDue.claim loadPump = ((s.claim loadPump).asking 1 (Item.pumpDraw s.seq.values) true).toContest
        s.broker.nextSerial := by
  obtain ⟨one, le⟩ := due.draw
  have min_eq : min (Item.pumpDraw s.seq.values) 30000 = Item.pumpDraw s.seq.values := by omega
  rw [takeDue_tries fresh owed free]
  have draws := due_undrawn due free
  generalize hu : s.setWater { s.water with cycle := .asking, dueTimer := none, dueOnRun := false } = u at *
  have ok : u.Ok := hu ▸ (setWater_calm s _ due.ok).1
  have claim : u.claim loadPump = s.claim loadPump := by rw [← hu]; rfl
  have passes' : u.passes loadPump 1 (min (Item.pumpDraw s.seq.values) 30000) = true := by
    rw [min_eq, ← hu]
    exact passes
  obtain ⟨reply, result⟩ := ask_passes ok (Item.pumpDraw s.seq.values) true one (by rw [claim]; exact draws) (by decide) passes'
  have water := (ask_shared u loadPump 1 (Item.pumpDraw s.seq.values) true).water
  generalize u.ask loadPump 1 (Item.pumpDraw s.seq.values) true = r at *
  obtain ⟨t, answer⟩ := r
  subst reply
  refine ⟨water.trans (by rw [← hu]; rfl), result.trans ?_⟩
  rw [min_eq, claim, ← hu]
  rfl

/-- A cycle whose pre-test fails is postponed, and the tap's demand follows (R92, R94). -/
theorem takeDue_postponed (fails : s.passes loadPump 1 (Item.pumpDraw s.seq.values) = false) :
    let t := s.takeDue
    t.water.cycle = .timing ∧ t.water.owed = s.water.owed + 1
      ∧ t.water.dueTimer = some (Item.frostIntervalMs s.seq.values) ∧ t.water.demand = false
      ∧ (s.demandWants = true → (t.claim loadPump).st ≠ .idle ∧ (t.claim loadPump).rank = 5) := by
  obtain ⟨one, le⟩ := due.draw
  have min_eq : min (Item.pumpDraw s.seq.values) 30000 = Item.pumpDraw s.seq.values := by omega
  have draws := due_undrawn due free
  rw [takeDue_tries fresh owed free]
  generalize hu : s.setWater { s.water with cycle := .asking, dueTimer := none, dueOnRun := false } = u at *
  have ok : u.Ok := hu ▸ (setWater_calm s _ due.ok).1
  have claim : u.claim loadPump = s.claim loadPump := by rw [← hu]; rfl
  have fails' : u.passes loadPump 1 (min (Item.pumpDraw s.seq.values) 30000) = false := by
    rw [min_eq, ← hu]
    exact fails
  obtain ⟨reply, result⟩ := try_fails ok (Item.pumpDraw s.seq.values) true one (by rw [claim]; exact draws) (by decide) fails' rfl
  obtain ⟨ok', asked⟩ := ask_asks u loadPump 1 (Item.pumpDraw s.seq.values) true (by decide) ok
  generalize u.ask loadPump 1 (Item.pumpDraw s.seq.values) true = r at *
  obtain ⟨t, answer⟩ := r
  subst reply
  have water : t.water = { s.water with cycle := .asking, dueTimer := none, dueOnRun := false } :=
    asked.water.trans (by rw [← hu]; rfl)
  have seq : t.seq = s.seq := asked.seq.trans (by rw [← hu]; rfl)
  have pins : t.pins = s.pins := asked.pins.trans (by rw [← hu]; rfl)
  have quiet : t.water.demand = false := by rw [water]; exact due.calm
  obtain ⟨cycle, more, demand, next, -⟩ := cyclePostponed_cycle quiet
  show t.cyclePostponed.water.cycle = .timing ∧ t.cyclePostponed.water.owed = s.water.owed + 1
    ∧ t.cyclePostponed.water.dueTimer = _ ∧ t.cyclePostponed.water.demand = false
    ∧ (_ → (t.cyclePostponed.claim loadPump).st ≠ .idle ∧ (t.cyclePostponed.claim loadPump).rank = 5)
  have before : t.water.owed = s.water.owed := by rw [water]
  refine ⟨cycle, more.trans (by omega), next.trans (by rw [seq]), demand, fun wants => ?_⟩
  rw [cyclePostponed_eq quiet]
  generalize hx : (t.setWater { t.water with owed := min 4 (t.water.owed + 1) }).timing
    (Item.frostIntervalMs t.seq.values) = x
  have okx : x.Ok := hx ▸ ((setWater_calm t _).trans (setWater_calm _ _) ok').1
  have wants' : x.demandWants = true :=
    (demandWants_congr (by rw [← hx]; exact pins) (by rw [← hx]; show t.water.runaway = _; rw [water])
      (by rw [← hx]; show t.water.tanks = _; rw [water])
      (by rw [← hx]; show t.water.dumpCmdOpen = _; rw [water]) (by rw [← hx]; exact seq)).trans wants
  have seqx : x.seq = s.seq := by rw [← hx]; exact seq
  have claimx : x.claim loadPump = t.claim loadPump := by rw [← hx]; rfl
  have fittedx : x.seq.fns.water = true := by rw [seqx]; exact due.fitted
  have runx : x.inRun = true := by rw [State.inRun, seqx]; exact due.run
  have idle : (x.claim loadPump).st = .idle := by rw [claimx, result]; rfl
  rw [demandFollows_asks fittedx runx (by rw [← hx]; rfl) okx (by rw [seqx]; exact ⟨one, le⟩) wants' idle]
  split
  · exact ⟨nofun, rfl⟩
  · exact ⟨nofun, rfl⟩

end

/-- With four owed the claim is Forced, or the dump valve opens (R47, R92). -/
theorem takeDue_forces (fresh : s.freshOk = true) (owed : ¬ s.water.owed < 4) :
    if (s.usable.all fun u => decide (Item.floorF s.seq.values ≤ u.soc)) = true then
      s.takeDue.water = { s.water with
        cycle := .circulating, circTimer := some 120000, dueTimer := none, demand := true
        pump := s.valveClosed, runawayTimer := none }
      ∧ s.takeDue.claim loadPump = { s.claim loadPump with
          rank := 1, st := .forced, held := Item.pumpDraw s.seq.values, asked := Item.pumpDraw s.seq.values, raise := false
          announcing := false, window := none }
    else
      s.takeDue.water.cycle = .drained ∧ s.takeDue.water.owed = 0 ∧ s.takeDue.water.dumpCmdOpen = true
        ∧ s.takeDue.water.dumpDrive = .toOpen ∧ s.takeDue.water.pump = false ∧ (s.takeDue.claim loadPump).st = .idle := by
  obtain ⟨-, le⟩ := due.draw
  have min_eq : min (Item.pumpDraw s.seq.values) 30000 = Item.pumpDraw s.seq.values := by omega
  have eq : s.takeDue = match s.force loadPump (Item.pumpDraw s.seq.values) with
      | (s, .granted) => s.enterCirculating
      | (s, _) => s.openDump := by
    unfold State.takeDue
    dsimp only
    rw [if_neg (by simp [fresh]), if_neg owed] <;> rfl
  have result := force_claim due.ok loadPump (Item.pumpDraw s.seq.values)
  obtain ⟨ok, asked⟩ := force_asks s loadPump (Item.pumpDraw s.seq.values) due.ok
  rw [forcedCondition_eq] at result
  rw [eq]
  generalize s.force loadPump (Item.pumpDraw s.seq.values) = r at *
  obtain ⟨u, reply⟩ := r
  split
  · next some =>
    rw [if_pos some] at result
    obtain ⟨rfl, claim⟩ := result
    rw [min_eq] at claim
    obtain ⟨water, same⟩ := enterCirculating_water (s := u) ok (by rw [claim]; rfl)
    refine ⟨water.trans ?_, same.trans claim⟩
    rw [freshOk_congr (t := u) (s := s) (by rw [asked.water]), valveClosed_congr asked.pins (by rw [asked.water]), fresh,
      Bool.true_and, asked.water]
  · next none =>
    rw [if_neg none] at result
    obtain ⟨rfl, -⟩ := result
    obtain ⟨cycle, nothing, cmd, drive, -, off, idle, -⟩ := openDump_water (s := u) ok (by rw [asked.seq]; exact due.fitted)
      (by rw [State.inRun, asked.seq]; exact due.run)
    exact ⟨cycle, nothing, cmd, drive, off, idle⟩

end

theorem pumpReleased_rest (s : State) : s.pumpReleased.demandFollows.water = { s.water with
    pump := s.pumpReleased.demandFollows.water.pump
    runawayTimer := s.pumpReleased.demandFollows.water.runawayTimer } := by
  rw [demandFollows_rest, pumpReleased_water]

theorem disposeClaim_rest (s : State) : s.disposeClaim.water
    = { s.water with pump := s.disposeClaim.water.pump, runawayTimer := s.disposeClaim.water.runawayTimer } := by
  unfold State.disposeClaim
  split
  · have same := (rerank_shared s loadPump 5).water
    generalize s.rerank loadPump 5 = r at *
    obtain ⟨u, reply⟩ := r
    have same : u.water = s.water := same
    rw [← same]
    cases reply with
    | yield => exact pumpReleased_rest u
    | _ => exact demandFollows_rest u
  · exact pumpReleased_rest s

/-- The state in which a completed cycle disposes of its claim (R93). -/
def State.cycleDone (s : State) : State :=
  let u := s.setDemand false
  let owed := u.water.owed - 1
  (u.setWater { u.water with owed := owed }).timing
    (if 0 < owed then Config.catchUpMs else Item.frostIntervalMs u.seq.values)

theorem cycleCompleted_eq (s : State) : s.cycleCompleted = s.cycleDone.disposeClaim := rfl

theorem cycleDone_calm (s : State) : Calm s s.cycleDone :=
  (setDemand_calm s false).trans ((setWater_calm _ _).trans (setWater_calm _ _))

theorem cycleDone_water {s : State} (o : s.Ok) : s.cycleDone.water = { s.water with
    demand := false, owed := s.water.owed - 1, cycle := .timing, dueOnRun := false, circTimer := none
    dueTimer := if 1 < s.water.owed then some 300000 else some (Item.frostIntervalMs s.seq.values) } := by
  unfold State.cycleDone
  dsimp only
  rw [timing_water]
  show ({ (s.setDemand false).water with
    owed := (s.setDemand false).water.owed - 1, cycle := .timing, dueOnRun := false, circTimer := none
    dueTimer := some (if 0 < (s.setDemand false).water.owed - 1 then Config.catchUpMs
      else Item.frostIntervalMs (s.setDemand false).seq.values) } : Water) = _
  rw [setDemand_water, (setDemand_calm s false o).2.1.seq]
  by_cases more : 1 < s.water.owed
  · rw [if_pos (show 0 < s.water.owed - 1 by omega), if_pos more]
    rfl
  · rw [if_neg (show ¬ 0 < s.water.owed - 1 by omega), if_neg more]

theorem cycleDone_claim {s : State} (o : s.Ok) (draws : (s.claim loadPump).drawing = true) :
    s.cycleDone.claim loadPump = s.claim loadPump :=
  setDemand_claim o false (by decide) fun e => by simp [Claim.drawing, e] at draws

end Sys2Proof.Machine

namespace Sys2Proof.Proofs
open Sys2Proof.Machine

section
variable {s : State} (fits : s.Fits) (run : s.inRun = true)
include fits run

theorem dueTime_taken (timing : s.water.cycle = .timing) (due : s.water.dueTimer.isSome = true) :
    ∃ t, exec .frostDueTime s = .next t ∧ Wet s t ∧ t.view = s.view ∧
      let interval := s.seq.values.get 21 * 60000
      let draw := s.seq.values.get 25
      let c := s.claim loadPump
      let circulates := t.water.cycle = .circulating ∧ t.water.circTimer = some 120000 ∧ t.water.demand = true
        ∧ t.water.owed = s.water.owed ∧ t.water.pump = s.valveClosed
      let d := t.claim loadPump
      if s.freshOk = false then
        t.water = { s.water with dueTimer := some interval, dueOnRun := false, circTimer := none } ∧ t.broker = s.broker
      else if s.water.owed < 4 then
        if c.st = .held then circulates ∧ d.st = .held ∧ d.held = c.held ∧ d.rank = 1
        else if s.passes loadPump 1 draw = true then
          t.water.cycle = .asking ∧ d.st = .contest ∧ d.rank = 1 ∧ d.asked = draw ∧ d.single = true
            ∧ t.water.owed = s.water.owed
        else t.water.cycle = .timing ∧ t.water.owed = s.water.owed + 1 ∧ t.water.dueTimer = some interval
          ∧ t.water.demand = false ∧ (s.demandWants = true → d.st ≠ .idle ∧ d.rank = 5)
      else if (s.usable.all fun u => decide (s.seq.values.get 9 ≤ u.soc)) = true then
        circulates ∧ d.st = .forced ∧ d.held = draw ∧ d.rank = 1
      else t.water.cycle = .drained ∧ t.water.owed = 0 ∧ t.water.dumpCmdOpen = true ∧ t.water.dumpDrive = .toOpen
        ∧ t.water.pump = false ∧ d.st = .idle := by
  have arm : exec .frostDueTime s = .next (State.publish s s.takeDue) := by
    show done s _ = _
    rw [if_pos ⟨run, timing, due⟩]
    rfl
  obtain ⟨posted, view⟩ := calm_posted s fits.sound fits.sound.sane rfl rfl rfl (takeDue_calm s)
  refine ⟨_, arm, posted.wet (takeDue_wet s), view, ?_⟩
  dsimp only
  rw [posted.water, posted.claim, posted.broker]
  split
  · next low =>
    rw [takeDue_skips low, timing_water, ← timing]
    exact ⟨rfl, rfl⟩
  have fresh : s.freshOk = true := by simpa using ‹¬ s.freshOk = false›
  split
  · next owed =>
    split
    · next held =>
      obtain ⟨water, claim⟩ := takeDue_takesOver (fits.duePump run timing) fresh owed held
      rw [water, claim]
      exact ⟨⟨rfl, rfl, rfl, rfl, rfl⟩, held, rfl, rfl⟩
    · next free =>
      split
      · next passes =>
        obtain ⟨water, claim⟩ := takeDue_contests (fits.duePump run timing) fresh owed free passes
        rw [water, claim]
        exact ⟨rfl, rfl, rfl, rfl, rfl, rfl⟩
      · next fails => exact takeDue_postponed (fits.duePump run timing) fresh owed free (Bool.eq_false_iff.mpr fails)
  · next owed =>
    have forces := takeDue_forces (fits.duePump run timing) fresh owed
    split
    · next some =>
      rw [if_pos (by exact some)] at forces
      rw [forces.1, forces.2]
      exact ⟨⟨rfl, rfl, rfl, rfl, rfl⟩, rfl, rfl, rfl⟩
    · next none =>
      rw [if_neg (by exact none)] at forces
      exact forces

theorem circulation_taken (circ : s.water.circTimer.isSome = true) : ∃ t, exec .circulationTimerExpiry s = .next t ∧
    let interval := s.seq.values.get 21 * 60000
    let c := s.claim loadPump
    Wet s t ∧ t.view = s.view ∧ t.water.cycle = .timing ∧ t.water.owed = s.water.owed - 1 ∧ t.water.demand = false
      ∧ t.water.circTimer = none ∧ t.water.dueTimer = (if 1 < s.water.owed then some 300000 else some interval)
      ∧ (s.demandWants = false → (t.claim loadPump).st = .idle ∧ t.water.pump = false)
      ∧ (s.demandWants = true → c.st = .held → s.seq.storage = false → s.broker.level ≤ 1 →
          (t.claim loadPump).st = .held ∧ (t.claim loadPump).rank = 5 ∧ t.water.pump = true)
      ∧ (s.demandWants = true → c.st = .forced ∨ s.seq.storage = true ∨ 2 ≤ s.broker.level →
          (t.claim loadPump).rank = 5 ∧ t.water.pump = false
            ∧ ((t.claim loadPump).st = .waiting ∨ (t.claim loadPump).st = .contest)) := by
  have arm : exec .circulationTimerExpiry s = .next (State.publish s s.cycleCompleted) := by
    show done s _ = _
    rw [if_pos circ]
    rfl
  obtain ⟨posted, view⟩ := calm_posted s fits.sound fits.sound.sane rfl rfl rfl (cycleCompleted_calm s)
  obtain ⟨-, -, -, -, -, -, -, -, timer, draws, -, -, ranked⟩ := fits.water
  have cycle := timer.mp circ
  have draws := draws cycle
  obtain ⟨fitted, -⟩ := fits.guarded (by rw [cycle]; nofun)
  have ok := fits.sound.ok
  have one : (s.claim loadPump).rank = 1 := (ranked fun e => by
    rw [Claim.drawing, e] at draws
    cases draws).mpr (.inr cycle)
  have base := (cycleDone_calm s ok).2.1
  have ok' := (cycleDone_calm s ok).1
  have water := cycleDone_water ok
  have claim := cycleDone_claim ok draws
  have level : s.cycleDone.broker.level = s.broker.level := setDemand_level ok false
  refine ⟨_, arm, posted.wet (cycleCompleted_wet s), view, ?_⟩
  rw [posted.water, posted.claim, cycleCompleted_eq]
  generalize s.cycleDone = u at *
  have wants : u.demandWants = s.demandWants :=
    demandWants_congr base.pins (by rw [water]) (by rw [water]) (by rw [water]) base.seq
  obtain ⟨unwanted, passed, asks⟩ := disposeClaim_claim ok' (by rw [base.seq]; exact fitted)
    (by rw [State.inRun, base.seq]; exact run) (by rw [water]; rfl) (by rw [base.seq]; exact fits.values.pumpDraw)
  rw [wants, claim, base.seq, level] at *
  refine ⟨?_, ?_, ?_, ?_, ?_, unwanted, fun w held away low => ?_, fun w why => ?_⟩
  · rw [disposeClaim_rest, water]
  · rw [disposeClaim_rest, water]
  · rw [disposeClaim_rest, water]
  · rw [disposeClaim_rest, water]
  · rw [disposeClaim_rest, water]
    rfl
  · obtain ⟨same, on⟩ := passed w held one away low
    rw [same]
    exact ⟨held, rfl, on⟩
  · obtain ⟨rank, -, off, waits⟩ := asks w one (why.imp_left fun e => by rw [e]; nofun)
    exact ⟨rank, off, waits⟩

end

/-- Settles O50: a due cycle and a completed one, by the case of each. -/
theorem frostCycles : Obligations.FrostCycles := fun _ fits run =>
  ⟨dueTime_taken fits run, circulation_taken fits run⟩

end Sys2Proof.Proofs
end

