-- ==== Sys2Proof/Proofs/Valve.lean ====
section
/-! PROOFS. The dump valve's feedback, Valve Fault and CloseDump (R98 to R100). -/

namespace Sys2Proof.Machine

/-- A request answered and acted on shows its outcome, where what waits came before it (R129, R180). -/
theorem shows_of_tends {k : Scope} {s u : State} {code o : Nat} (fits : s.requestsFit) (sane : s.Sane)
    (tends : Tends k s.status.serial (s.taken.answer code o) u) : u.shows code o := by
  have ok := (answer_calm s.taken code o (taken_keeps s sane).ok).1
  obtain ⟨-, -, tended⟩ := tends ok fits
  exact ⟨tended.request, tended.outcome (Nat.lt_succ_self _)⟩

/-! ### The dump valve (R95, R98 to R100) -/

theorem drain_rest (s : State) : s.drain.water = { s.water with
    demand := false, cycle := .drained, owed := 0, dueTimer := none, dueOnRun := false, circTimer := none
    pump := s.drain.water.pump, runawayTimer := s.drain.water.runawayTimer } := by
  unfold State.drain
  dsimp only
  split
  · rw [pumpReleased_rest]
    show ({ ({ (s.setDemand false).water with
      cycle := .drained, owed := 0, dueTimer := none, dueOnRun := false, circTimer := none } : Water) with
      pump := _, runawayTimer := _ } : Water) = _
    rw [setDemand_water]
  · rw [demandFollows_rest]
    show ({ ({ (s.setDemand false).water with
      cycle := .drained, owed := 0, dueTimer := none, dueOnRun := false, circTimer := none } : Water) with
      pump := _, runawayTimer := _ } : Water) = _
    rw [setDemand_water]

/-- What the frost cycle does as the valve follows: it drains, is timed anew, or stands (R95, R98). -/
theorem valveFollows_rest (s : State) : s.valveFollows.water = { s.water with
    cycle := s.valveFollows.water.cycle, owed := s.valveFollows.water.owed, demand := s.valveFollows.water.demand
    dueTimer := s.valveFollows.water.dueTimer, dueOnRun := s.valveFollows.water.dueOnRun
    circTimer := s.valveFollows.water.circTimer
    pump := s.valveFollows.water.pump, runawayTimer := s.valveFollows.water.runawayTimer } := by
  unfold State.valveFollows
  split
  · split
    · split
      · rw [demandFollows_rest]
        rfl
      · rw [demandFollows_rest]
    · split
      · rw [demandFollows_rest]
      · rw [drain_rest]
  · rw [demandFollows_rest]

/-- While the guard is declared and the valve is open the cycle is Drained, with nothing owed. -/
theorem valveFollows_drains {s : State} (guard : s.water.guard = true) (closed : s.valveClosed = false)
    (drained : s.water.cycle = .drained → s.water.owed = 0 ∧ s.water.demand = false) :
    s.valveFollows.water.cycle = .drained ∧ s.valveFollows.water.owed = 0 ∧ s.valveFollows.water.demand = false := by
  unfold State.valveFollows
  rw [if_pos guard, if_neg (by simp [closed])]
  split
  · next already =>
    rw [demandFollows_rest]
    exact ⟨already, drained already⟩
  · rw [drain_rest]
    exact ⟨rfl, rfl, rfl⟩

/-- Drained with the valve closed again: the next cycle is an interval away (R95). -/
theorem valveFollows_times {s : State} (guard : s.water.guard = true) (closed : s.valveClosed = true)
    (drained : s.water.cycle = .drained) : s.valveFollows.water.cycle = .timing
      ∧ s.valveFollows.water.dueTimer = some (Item.frostIntervalMs s.seq.values) := by
  unfold State.valveFollows
  rw [if_pos guard, if_pos closed, if_pos drained, demandFollows_rest]
  exact ⟨rfl, rfl⟩

/-- The pump's and the heater's claims are reached, and no monitor. -/
def waterReach : Scope := { mons := fun _ => False, loads := fun id => id = loadPump ∨ id = loadHeater }

/-- Valve Fault's monitor may turn too. -/
def valveReach : Scope := { mons := (· = Mon.valveFault), loads := fun id => id = loadPump ∨ id = loadHeater }

theorem valveFollows_reaches (k : Scope) (pump : k.loads loadPump) (heater : k.loads loadHeater) (n : Nat) (s : State) :
    Tends k n s s.valveFollows := by
  have pump : Fact (k.loads loadPump) := ⟨pump⟩
  have heater : Fact (k.loads loadHeater) := ⟨heater⟩
  exact valveFollows_tends s

theorem valveFollows_monitors {s : State} (o : s.Ok) (m : Fin 19) :
    s.valveFollows.status.summary.get m = s.status.summary.get m :=
  ((valveFollows_reaches waterReach (.inl rfl) (.inr rfl) _ s) o (waitWithin_exists s).choose_spec).2.2.summary m not_false

/-- The monitor of Valve Fault is clear where the valve's timing has cleared it. -/
theorem valveTiming_cleared {s : State} (h : s.valveTiming.water.valveFault ≠ s.water.valveFault) :
    s.valveTiming.status.summary.get Mon.valveFault = false := by
  unfold State.valveTiming at h ⊢
  split at h
  · next agree =>
    rw [if_pos agree]
    dsimp only at h ⊢
    split at h
    · next fault =>
      rw [if_pos (by exact fault), monitor_summary]
      rfl
    · exact absurd rfl h
  · exact absurd rfl h

end Sys2Proof.Machine

namespace Sys2Proof.Proofs
open Sys2Proof.Machine

section
variable {s : State} (fits : s.Fits)
include fits

theorem dumpfb_taken (b : Bool) : ∃ t, exec (.dumpfbChange b) s = .next t ∧
    (s.pins.dumpOpen = b → s.handedOver t)
      ∧ (s.pins.dumpOpen ≠ b → s.waterActs = false → (s.setPins { s.pins with dumpOpen := b }).handedOver t)
      ∧ (s.pins.dumpOpen ≠ b → s.waterActs = true → Wet (s.setPins { s.pins with dumpOpen := b }) t ∧ t.view = s.view
          ∧ t.water.dumpCmdOpen = s.water.dumpCmdOpen ∧ t.water.guard = s.water.guard
          ∧ t.water.valveTimer = (if s.water.dumpCmdOpen = b then none else some 10000)
          ∧ t.water.valveFault = (s.water.valveFault && decide (s.water.dumpCmdOpen ≠ b))
          ∧ (t.water.valveFault ≠ s.water.valveFault → t.status.summary.get Mon.valveFault = false)
          ∧ (s.water.guard = true → s.water.dumpCmdOpen = true ∨ b = true →
              t.water.cycle = .drained ∧ t.water.owed = 0 ∧ t.water.demand = false)
          ∧ (s.water.cycle = .drained → s.water.dumpCmdOpen = false → b = false →
              t.water.cycle = .timing ∧ t.water.dueTimer = some (s.seq.values.get 21 * 60000))) := by
  have quiet := fits.sound.quiet.1
  by_cases same : s.pins.dumpOpen = b
  · have arm : exec (.dumpfbChange b) s = .next (State.publish s s) := by
      show done s _ = _
      rw [if_pos same]
      rfl
    exact ⟨_, arm, fun _ => publish_handedOver s s quiet, fun h => absurd same h, fun h => absurd same h⟩
  generalize hv : s.setPins { s.pins with dumpOpen := b } = v
  have arm : exec (.dumpfbChange b) s = .next (State.publish s (if s.waterActs then v.valveTiming.valveFollows else v)) := by
    rw [← hv]
    show done s _ = _
    rw [if_neg same]
    rfl
  have sane : v.Sane := hv ▸ setPins_sane fits.sound.sane _
  by_cases acts : s.waterActs = true
  swap
  · rw [if_neg acts] at arm
    refine ⟨_, arm, fun h => absurd h same, fun _ _ => publish_handedOver s v ?_, fun _ h => absurd h acts⟩
    rw [← hv]
    exact quiet
  rw [if_pos acts] at arm
  obtain ⟨posted, view⟩ := calm_posted s fits.sound sane (by rw [← hv]; rfl) (by rw [← hv]; rfl) (by rw [← hv]; rfl)
    ((valveTiming_calm v).trans (valveFollows_calm _))
  have wet := (valveTiming_wet v).trans (valveFollows_wet _)
  have timed := valveTiming_water v
  have cleared := @valveTiming_cleared v
  have ok := (valveTiming_calm v sane.ok).1
  have base := (valveTiming_calm v sane.ok).2.1
  have heard := valveFollows_monitors ok Mon.valveFault
  refine ⟨_, arm, fun h => absurd h same, fun _ h => absurd acts (by simp [h]), fun _ _ => ⟨posted.wet wet, view, ?_⟩⟩
  rw [posted.water, posted.status, heard]
  have cmd : v.water.dumpCmdOpen = s.water.dumpCmdOpen := by rw [← hv]; rfl
  have open' : v.pins.dumpOpen = b := by rw [← hv]; rfl
  have water : v.water = s.water := by rw [← hv]; rfl
  have seq : v.seq = s.seq := by rw [← hv]; rfl
  generalize v.valveTiming = u at *
  rw [cmd, open'] at timed
  have kept : u.water = { s.water with valveTimer := u.water.valveTimer, valveFault := u.water.valveFault } := by
    rw [timed, water]
    split <;> rfl
  obtain ⟨-, -, -, -, -, resting, -, demand, -⟩ := fits.water
  have undrawn : s.water.cycle ≠ .circulating → s.water.demand = false := fun h => by
    rw [← Bool.not_eq_true, demand]
    exact h
  have closed : u.valveClosed = (!s.water.dumpCmdOpen && !b) := by
    unfold State.valveClosed
    rw [base.pins, open', kept]
  refine ⟨?_, ?_, ?_, ?_, fun turned => ?_, fun guard opened => ?_, fun drained shut low => ?_⟩
  · rw [valveFollows_rest, kept]
  · rw [valveFollows_rest, kept]
  · rw [valveFollows_rest, timed]
    split <;> rfl
  · rw [valveFollows_rest, timed]
    split
    · next e => simp [e]
    · next e => simp [e, water]
  · refine cleared ?_
    rw [valveFollows_rest, ← water] at turned
    exact turned
  · refine valveFollows_drains (by rw [kept]; exact guard) ?_ fun drained => ?_
    · rw [closed]
      rcases opened with e | e <;> simp [e]
    · rw [kept] at drained ⊢
      exact ⟨resting (.inr drained), undrawn fun e => nomatch drained.symm.trans e⟩
  · have guard : s.water.guard = true := by
      obtain ⟨-, -, -, off, -⟩ := fits.water
      by_contra h
      exact nomatch (off.mp (by simpa using h)).symm.trans drained
    obtain ⟨timing, due⟩ := valveFollows_times (s := u) (by rw [kept]; exact guard) (by rw [closed, shut, low]; rfl)
      (by rw [kept]; exact drained)
    rw [timing, due, base.seq, seq]
    exact ⟨rfl, rfl⟩

theorem valveFault_taken (running : s.water.valveTimer.isSome = true) : ∃ t, exec .valveFaultTimerExpiry s = .next t ∧
    Shared (s.setWater { s.water with valveFault := true, valveTimer := none }) t ∧ t.view = s.view
      ∧ t.broker = s.broker ∧ (s.water.valveFault = false → t.status.summary.get Mon.valveFault = true)
      ∧ (s.water.valveFault = true → t.status = s.status) := by
  generalize hv : s.setWater { s.water with valveFault := true, valveTimer := none } = v
  have arm : exec .valveFaultTimerExpiry s = .next (State.publish s
      (if s.water.valveFault then v else v.monitor Mon.valveFault true)) := by
    rw [← hv]
    show done s _ = _
    rw [if_pos running]
    rfl
  have calm : Calm s v := hv ▸ setWater_calm s _
  have loud : Calm s (if s.water.valveFault then v else v.monitor Mon.valveFault true) :=
    Calm.ite (fun _ => calm) fun _ => calm.trans (monitor_calm v _ _)
  obtain ⟨posted, view⟩ := calm_posted s fits.sound fits.sound.sane rfl rfl rfl loud
  have broker : v.broker = s.broker := by rw [← hv]; rfl
  have status : v.status = s.status := by rw [← hv]; rfl
  refine ⟨_, arm, ?_, view, ?_, fun clear => ?_, fun set => ?_⟩
  · exact Shared.trans (Shared.ite (Shared.refl v) (monitor_shared v _ _)) posted.shared
  · rw [posted.broker]
    split
    · exact broker
    · rw [monitor_broker, broker]
  · rw [posted.status, if_neg (by simp [clear]), monitor_summary]
    rfl
  · rw [posted.status, if_pos set, status]

/-- CloseDump with the command Open (R99). -/
theorem closeDump_closes (opened : s.water.dumpCmdOpen = true) :
    let t := State.publish s (s.taken.answer 11 1).closesDump
    Wet s t ∧ t.view = s.view ∧ t.shows 11 1 ∧ t.water.dumpCmdOpen = false ∧ t.water.dumpDrive = .toClosed
      ∧ t.water.dumpCount = 0 ∧ t.water.valveTimer = (if s.pins.dumpOpen = true then some 10000 else none) := by
  generalize hv : (s.taken.answer 11 1).setWater { s.water with
    dumpCmdOpen := false, dumpDrive := .toClosed, dumpCount := 0 } = v
  have eq : (s.taken.answer 11 1).closesDump = v.valveTiming.valveFollows := by
    rw [← hv]
    exact if_pos opened
  rw [eq]
  have sane := taken_keeps s fits.sound.sane
  have calm : Calm s.taken v := hv ▸ (answer_calm s.taken 11 1).trans (setWater_calm _ _)
  have wet : Wet s v := by rw [← hv]; rfl
  obtain ⟨posted, view⟩ := calm_posted s fits.sound sane rfl rfl rfl
    (calm.trans ((valveTiming_calm v).trans (valveFollows_calm _)))
  have tends : Tends valveReach s.status.serial (s.taken.answer 11 1) v.valveTiming.valveFollows := by
    rw [← hv]
    exact (setWater_tends _ _).trans ((valveTiming_tends rfl _).trans
      (valveFollows_reaches valveReach (.inl rfl) (.inr rfl) _ _))
  have shown := shows_of_tends fits.requests fits.sound.sane tends
  have timed := valveTiming_water v
  have pins : v.pins = s.pins := by rw [← hv]; rfl
  have water : v.water = { s.water with dumpCmdOpen := false, dumpDrive := .toClosed, dumpCount := 0 } := by
    rw [← hv]
    rfl
  refine ⟨posted.wet (wet.trans ((valveTiming_wet v).trans (valveFollows_wet _))), view, ?_, ?_, ?_, ?_, ?_⟩
  · unfold State.shows at *
    rw [posted.status]
    exact shown
  all_goals rw [posted.water, valveFollows_rest, timed, water, pins]
  · split <;> rfl
  · split <;> rfl
  · split <;> rfl
  · cases s.pins.dumpOpen <;> rfl

end

/-- Settles O51: the feedback, the fault's timer and CloseDump, each by the state of the valve. -/
theorem dumpValve : Obligations.DumpValve := by
  intro s b fits
  refine ⟨dumpfb_taken fits b, valveFault_taken fits, fun i v asks => ?_⟩
  have quiet := fits.sound.quiet.1
  obtain ⟨t, arm, absent, early, met⟩ := request_answered asks quiet (·.water) fun u _ _ =>
    if u.freshTemp < 30 then u.answer 11 Outcome.frost else (u.answer 11 Outcome.accepted).closesDump
  refine ⟨t, arm, absent, early, fun fitted phase cold => ?_, fun fitted phase warm =>
    ⟨fun shut => ?_, fun opened => ?_⟩⟩
  all_goals rw [met fitted phase]
  · have same : ∀ u : State, (if s.taken.freshTemp < 30 then s.taken.answer 11 Outcome.frost else u)
      = s.taken.answer 11 Outcome.frost := fun u => if_pos cold
    rw [same]
    exact publish_handedOver s (s.taken.answer 11 7) quiet
  all_goals
    have same : ∀ u w : State, (if s.taken.freshTemp < 30 then u else w) = w := fun u w =>
      if_neg (show ¬ (s.water.tanks.get 0).temp < 30 by omega)
    rw [same]
  · have stands : (s.taken.answer 11 Outcome.accepted).closesDump = s.taken.answer 11 1 :=
      if_neg (show ¬ s.water.dumpCmdOpen = true by simp [shut])
    rw [stands]
    exact publish_handedOver s (s.taken.answer 11 1) quiet
  · exact closeDump_closes fits opened

end Sys2Proof.Proofs
end

