-- ==== Sys2Proof/Proofs/Cycled.lean ====
section
/-! PROOFS. What the Water Manager's operations keep of the tanks, the guard and the dump command; the heater's claim. -/

namespace Sys2Proof.Machine

/-! ### What the frost cycle leaves of the Water Manager -/

/-- `x` is `w` but for PUMP, the runaway count and the frost cycle's own fields. -/
def Cycled (w x : Water) : Prop :=
  x = { w with
    cycle := x.cycle, owed := x.owed, demand := x.demand, dueTimer := x.dueTimer, dueOnRun := x.dueOnRun
    circTimer := x.circTimer, pump := x.pump, runawayTimer := x.runawayTimer }

theorem Cycled.refl (w : Water) : Cycled w w := rfl

theorem Cycled.trans {w x y : Water} (h : Cycled w x) (k : Cycled x y) : Cycled w y := by
  unfold Cycled at *
  rw [k, h]

theorem Cycled.ite {w : Water} {p : Prop} [Decidable p] {s t : State} (h : Cycled w s.water) (k : Cycled w t.water) :
    Cycled w (if p then s else t).water := by
  split
  · exact h
  · exact k

theorem Shared.cycled {s t : State} (h : Shared s t) : Cycled s.water t.water := by rw [h.water]; rfl

theorem demandFollows_cycled (s : State) : Cycled s.water s.demandFollows.water := by
  rw [demandFollows_rest]
  rfl

theorem pumpReleased_cycled (s : State) : Cycled s.water s.pumpReleased.demandFollows.water := by
  rw [pumpReleased_rest]
  rfl

theorem setDemand_cycled (s : State) (d : Bool) : Cycled s.water (s.setDemand d).water := by
  rw [setDemand_water]
  rfl

theorem drain_cycled (s : State) : Cycled s.water s.drain.water := by
  rw [drain_rest]
  rfl

theorem valveFollows_cycled (s : State) : Cycled s.water s.valveFollows.water := by
  rw [valveFollows_rest]
  rfl

theorem disposeClaim_cycled (s : State) : Cycled s.water s.disposeClaim.water := by
  rw [disposeClaim_rest]
  rfl

theorem enterCirculating_cycled (s : State) : Cycled s.water s.enterCirculating.water := by
  have circ : Cycled s.water (s.setWater { s.water with
    cycle := .circulating, circTimer := some Config.circulationMs, dueTimer := none }).water := rfl
  have pumps : ∀ u : State, Cycled u.water u.pumpFollows.water := fun _ => rfl
  exact circ.trans ((setDemand_cycled _ true).trans (pumps _))

theorem cycleCompleted_cycled (s : State) : Cycled s.water s.cycleCompleted.water := by
  have timed : Cycled (s.setDemand false).water s.cycleDone.water := rfl
  rw [cycleCompleted_eq]
  exact (setDemand_cycled s false).trans (timed.trans (disposeClaim_cycled _))

theorem cyclePostponed_cycled (s : State) : Cycled s.water s.cyclePostponed.water := by
  have timed : ∀ u : State, Cycled u.water ((u.setWater { u.water with owed := min 4 (u.water.owed + 1) }).timing
    (Item.frostIntervalMs u.seq.values)).water := fun _ => rfl
  exact (setDemand_cycled s false).trans ((timed _).trans (demandFollows_cycled _))

theorem cyclingEnds_cycled (s : State) : Cycled s.water s.cyclingEnds.water := by
  have off : Cycled (s.setDemand false).water ((s.setDemand false).setWater { (s.setDemand false).water with
    cycle := .off, owed := 0, dueTimer := none, dueOnRun := false, circTimer := none }).water := rfl
  exact (setDemand_cycled s false).trans (off.trans (Cycled.ite (disposeClaim_cycled _) (Cycled.refl _)))

theorem takeDue_cycled {s : State} (owed : s.water.owed < 4) : Cycled s.water s.takeDue.water := by
  unfold State.takeDue
  dsimp only
  refine Cycled.ite rfl ?_
  rw [if_pos owed]
  refine Cycled.ite (((rerank_shared s loadPump 1).cycled).trans (enterCirculating_cycled _)) ?_
  have asks : Cycled s.water (s.setWater { s.water with cycle := .asking, dueTimer := none, dueOnRun := false }).water := rfl
  have asked := (ask_shared (s.setWater { s.water with cycle := .asking, dueTimer := none, dueOnRun := false }) loadPump 1
    (Item.pumpDraw s.seq.values) true).cycled
  generalize State.ask _ loadPump 1 (Item.pumpDraw s.seq.values) true = r at *
  obtain ⟨u, reply⟩ := r
  cases reply with
  | refused => exact asks.trans (asked.trans (cyclePostponed_cycled u))
  | _ => exact asks.trans asked

theorem cyclingBegins_cycled {s : State} (owed : s.water.owed < 4) : Cycled s.water s.cyclingBegins.water := by
  have timed : Cycled s.water (s.timing 0).water := rfl
  have taken : Cycled (s.timing 0).water (s.timing 0).takeDue.water := takeDue_cycled (by exact owed)
  have waits : Cycled s.water (s.setWater { s.water with cycle := .timing, dueOnRun := true }).water := rfl
  unfold State.cyclingBegins
  split
  · exact drain_cycled s
  split
  · exact timed.trans taken
  · exact waits

theorem pumpReads_cycled (s : State) : Cycled s.water s.pumpReads.water := by
  unfold State.pumpReads
  refine Cycled.ite (demandFollows_cycled s) ?_
  split
  · have timed : ∀ (u : State) (ms : Nat), Cycled u.water (u.timing ms).water := fun _ _ => rfl
    exact (release_shared s loadPump).cycled.trans ((timed _ _).trans (demandFollows_cycled _))
  · have off : Cycled s.water (s.setWater { s.water with pump := false, runawayTimer := none }).water := rfl
    exact off.trans (cycleCompleted_cycled _)
  · exact demandFollows_cycled s

/-! ### The heater's state under the frost-demand flag (R110 to R112) -/

theorem rerank_climate (s : State) (id : Fin 7) (r : Nat) : (s.rerank id r).1.climate = s.climate := (rerank_shared s id r).climate

/-- A Re-rank to a stronger rank is no yield, and so leaves the heater as it is. -/
theorem heaterRerank_strong {s : State} (frost : s.climate.frost = true) : s.heaterRerank.climate = s.climate := by
  unfold State.heaterRerank
  dsimp only
  split
  · next h =>
    obtain ⟨held, some, -⟩ := h
    have one : s.heaterRank = 1 := if_pos frost
    have reply : (s.rerank loadHeater s.heaterRank).2 = .none := by
      rw [one, rerank_held 1 held]
      split
      · rfl
      · exact if_neg (by omega)
    have same := rerank_climate s loadHeater s.heaterRank
    generalize s.rerank loadHeater s.heaterRank = r at *
    obtain ⟨u, answer⟩ := r
    subst reply
    exact same
  · rfl

/-- A heater that is wanted, with frost service active, stays in its state. -/
theorem heaterFollows_frost {s : State} (frost : s.climate.frost = true)
    (open_ : s.climate.heater = .running → s.climate.lockout = false ∧ s.inRun = true) :
    s.climate.heater = .running → s.heaterFollows.climate.heater = .running := by
  intro runs
  obtain ⟨unlocked, run⟩ := open_ runs
  have wanted : s.heaterWanted = true := by simp [State.heaterWanted, frost, unlocked, run]
  unfold State.heaterFollows
  split
  · rw [runs, wanted]
    show s.heaterRerank.climate.heater = .running
    rw [heaterRerank_strong frost]
    exact runs
  · exact runs

theorem enterPurging_heater (s : State) : s.enterPurging.climate.heater = .purging := by
  unfold State.enterPurging
  dsimp only
  split
  · rw [(lower_shared _ _ _).climate]
    rfl
  · rfl

/-- A yield and a Re-rank never make the heater run. -/
theorem heaterRerank_idles {s : State} (not : s.climate.heater ≠ .running) : s.heaterRerank.climate.heater ≠ .running := by
  unfold State.heaterRerank
  dsimp only
  split
  · have same := rerank_climate s loadHeater s.heaterRank
    generalize s.rerank loadHeater s.heaterRank = r at *
    obtain ⟨u, answer⟩ := r
    have yields : (u.complete loadHeater).heaterYields.climate.heater ≠ .running := by
      have keeps : (u.complete loadHeater).climate.heater ≠ .running := by
        rw [(complete_shared u loadHeater).climate]
        exact fun e => not (same ▸ e)
      unfold State.heaterYields
      split
      · rw [enterPurging_heater]; nofun
      · rw [enterPurging_heater]; nofun
      · rw [enterPurging_heater]; nofun
      · exact keeps
    cases answer with
    | yield => exact yields
    | _ => exact fun e => not (same ▸ e)
  · exact not

theorem askHeater_heater (s : State) : s.askHeater.climate.heater = s.climate.heater := by
  unfold State.askHeater
  dsimp only
  split
  · have same := (ask_shared s loadHeater 1 (Item.startDraw s.seq.values) true).climate
    generalize s.ask loadHeater 1 (Item.startDraw s.seq.values) true = r at *
    obtain ⟨u, answer⟩ := r
    cases answer with
    | refused =>
      show ((u.setClimate { u.climate with tryFailed := true }).ask loadHeater 1 _ false).1.climate.heater = _
      rw [(ask_shared _ _ _ _ _).climate]
      have same : u.climate = s.climate := same
      show u.climate.heater = s.climate.heater
      rw [same]
    | _ => exact congrArg Climate.heater same
  · rw [(ask_shared _ _ _ _ _).climate]

/-- The heater that follows whether it is wanted does not come to run. -/
theorem heaterFollows_idles {s : State} (not : s.climate.heater ≠ .running) : s.heaterFollows.climate.heater ≠ .running := by
  unfold State.heaterFollows
  split
  · have hdem : ∀ u : State, u.climate.heater ≠ .running → u.updateHdem.climate.heater ≠ .running := fun _ h => h
    refine hdem _ ?_
    cases e : s.climate.heater with
    | running => exact absurd e not
    | off =>
      dsimp only
      split
      · split
        · rw [askHeater_heater]; exact not
        · exact not
      · split
        · split
          · exact not
          · rw [rerank_climate]; exact not
        · rw [(release_shared _ _).climate]; exact not
      · split
        · exact not
        · rw [(release_shared _ _).climate]; exact not
      · exact not
    | starting =>
      dsimp only
      split
      · exact heaterRerank_idles not
      · exact heaterRerank_idles (by rw [enterPurging_heater]; nofun)
    | purging => exact heaterRerank_idles (by show s.climate.heater ≠ .running; exact not)
    | lockout => exact not
  · exact not

end Sys2Proof.Machine
end

