-- ==== Sys2Proof/Proofs/Tanks.lean ====
section
/-! PROOFS. A reading of the tanks and their monitors (R83 to R85). -/

namespace Sys2Proof.Machine

/-! ### The tanks of a reading (R82 to R85) -/

/-- The tank stands in the condition its monitor counts (R85). -/
def Tank.condition (k : Fin 3) (x : Tank) : Bool :=
  match x.level with
  | some l => tankCondition k x.declared l
  | none => false

/-- The tank's count, gone on, and whether it is full. -/
def Tank.count3 (k : Fin 3) (x : Tank) : Nat × Bool := countTo 3 (x.condition k) x.count

/-- A tank with its monitor's count gone on (R85). -/
def Tank.counted (k : Fin 3) (x : Tank) : Tank :=
  { x with count := (x.count3 k).1, declared := x.declared != (x.count3 k).2 }

/-- Stage 2 for a tank: its count goes on, and its monitor turns where the count is full. -/
theorem tankMonitor_eq (s : State) (t : Fin 3) : s.tankMonitor t =
    (let x := s.water.tanks.get t
    let u := s.setWater { s.water with tanks := s.water.tanks.set t (x.counted t) }
    if (x.count3 t).2 then u.monitor (Mon.tank t) (!x.declared) else u) := rfl

theorem readTank_eq (s : State) (t : Fin 3) (raw : Nat) (temp : Int) : s.readTank t raw temp = s.setWater { s.water with
    tanks := (s.readTank t raw temp).water.tanks } := rfl

theorem readTank_tank (s : State) (t k : Fin 3) (raw : Nat) (temp : Int) : (s.readTank t raw temp).water.tanks.get k =
    if t = k then (s.water.tanks.get k).reading (probeLevel (Item.tankEmpty s.seq.values t) (Item.tankFull s.seq.values t) raw)
      (clampInt (-400) 850 temp) s.view.driveAccepted
    else s.water.tanks.get k := by
  show (s.water.tanks.modify t _).get k = _
  unfold Tab.modify
  rw [Tab.get_set]
  split
  · next e => rw [e]
  · rfl

/-- `t` is `s` but for the tanks, Station Status and the records handed over. -/
structure Probed (s t : State) : Prop where
  water : t.water = { s.water with tanks := t.water.tanks }
  broker : t.broker = s.broker
  climate : t.climate = s.climate
  pins : t.pins = s.pins
  seq : t.seq = s.seq
  view : t.view = s.view
  supply : t.supply = s.supply
  fault : t.bus.lineFault = s.bus.lineFault

theorem Probed.trans {s t u : State} (h : Probed s t) (k : Probed t u) : Probed s u :=
  ⟨by rw [k.water, h.water], k.broker.trans h.broker, k.climate.trans h.climate, k.pins.trans h.pins, k.seq.trans h.seq,
    k.view.trans h.view, k.supply.trans h.supply, k.fault.trans h.fault⟩

theorem monitor_probed (s : State) (n : Fin 19) (d : Bool) : Probed s (s.monitor n d) := by
  have line := monitor_line s n d
  unfold Bus.sameLine at line
  refine ⟨?_, monitor_broker s n d, ?_, ?_, ?_, ?_, ?_, by rw [line]⟩ <;> rw [monitor_eq]

theorem readTank_probed (s : State) (t : Fin 3) (raw : Nat) (temp : Int) : Probed s (s.readTank t raw temp) :=
  ⟨rfl, rfl, rfl, rfl, rfl, rfl, rfl, rfl⟩

theorem tankMonitor_probed (s : State) (t : Fin 3) : Probed s (s.tankMonitor t) := by
  rw [tankMonitor_eq]
  dsimp only
  have set : ∀ x, Probed s (s.setWater { s.water with tanks := x }) := fun x => ⟨rfl, rfl, rfl, rfl, rfl, rfl, rfl, rfl⟩
  generalize s.water.tanks.set t _ = x
  split
  · exact (set x).trans (monitor_probed _ _ _)
  · exact set x

theorem tankMonitor_tank (s : State) (t k : Fin 3) : (s.tankMonitor t).water.tanks.get k =
    if t = k then Tank.counted k (s.water.tanks.get k) else s.water.tanks.get k := by
  have get : (s.tankMonitor t).water.tanks = s.water.tanks.set t (Tank.counted t (s.water.tanks.get t)) := by
    rw [tankMonitor_eq]
    dsimp only
    split
    · rw [(monitor_shared _ _ _).water]
      rfl
    · rfl
  rw [get, Tab.get_set]
  split
  · next e => rw [e]
  · rfl

/-- A tank monitor that turns is shown as it stands, and the others stand. -/
theorem tankMonitor_summary (s : State) (t : Fin 3) (m : Fin 19) : (s.tankMonitor t).status.summary.get m =
    if Mon.tank t = m ∧ (Tank.count3 t (s.water.tanks.get t)).2 = true then
      (Tank.counted t (s.water.tanks.get t)).declared
    else s.status.summary.get m := by
  have shown : ∀ d : Bool, (!d) = (d != true) := by decide
  rw [tankMonitor_eq]
  dsimp only
  split
  · next full =>
    rw [monitor_summary, shown]
    unfold Tank.counted
    rw [full]
    simp only [and_true]
    rfl
  · next more =>
    rw [if_neg fun h => more h.2]
    rfl

theorem tankMonitor_other (s : State) {t k : Fin 3} (h : t ≠ k) :
    (s.tankMonitor t).status.summary.get (Mon.tank k) = s.status.summary.get (Mon.tank k) := by
  have apart : Mon.tank t ≠ Mon.tank k := by decide +revert
  rw [tankMonitor_summary, if_neg fun e => apart e.1]

/-- A tank monitor that has turned is shown. -/
theorem tankMonitor_turned (s : State) {t : Fin 3} {x : Tank} (tank : s.water.tanks.get t = x)
    (turned : (Tank.counted t x).declared ≠ x.declared) :
    (s.tankMonitor t).status.summary.get (Mon.tank t) = (Tank.counted t x).declared := by
  have full : ∀ d n : Bool, (d != n) ≠ d → n = true := by decide
  rw [tankMonitor_summary, tank, if_pos ⟨rfl, full _ _ turned⟩]

/-- The state in which the tanks have been read and their monitors have counted: stages 1 and 2. -/
def State.tanksRead (s : State) (raw : Fin 3 → Nat) (temp : Fin 3 → Int) : State :=
  ((((((s.readTank 0 (raw 0) (temp 0)).readTank 1 (raw 1) (temp 1)).readTank 2 (raw 2) (temp 2)).tankMonitor 0).tankMonitor
    1).tankMonitor 2)

/-- A tank as the reading leaves it. -/
def State.tankRead (s : State) (raw : Nat) (temp : Int) (k : Fin 3) : Tank :=
  (s.water.tanks.get k).reading (probeLevel (Item.tankEmpty s.seq.values k) (Item.tankFull s.seq.values k) raw)
    (clampInt (-400) 850 temp) s.view.driveAccepted

section
variable (s : State) (raw : Fin 3 → Nat) (temp : Fin 3 → Int)

theorem tanksRead_probed : Probed s (s.tanksRead raw temp) :=
  (readTank_probed s 0 _ _).trans ((readTank_probed _ 1 _ _).trans ((readTank_probed _ 2 _ _).trans
    ((tankMonitor_probed _ 0).trans ((tankMonitor_probed _ 1).trans (tankMonitor_probed _ 2)))))

theorem tanksRead_tank (k : Fin 3) :
    (s.tanksRead raw temp).water.tanks.get k = Tank.counted k (s.tankRead (raw k) (temp k) k) := by
  unfold State.tanksRead State.tankRead
  match k with
  | 0 => simp [tankMonitor_tank, readTank_tank]
  | 1 => simp [tankMonitor_tank, readTank_tank]; rfl
  | 2 => simp [tankMonitor_tank, readTank_tank]; rfl

theorem tanksRead_summary (k : Fin 3)
    (turned : ((s.tanksRead raw temp).water.tanks.get k).declared ≠ (s.water.tanks.get k).declared) :
    (s.tanksRead raw temp).status.summary.get (Mon.tank k) = ((s.tanksRead raw temp).water.tanks.get k).declared := by
  have declared : (s.tankRead (raw k) (temp k) k).declared = (s.water.tanks.get k).declared := by
    unfold State.tankRead Tank.reading
    split <;> rfl
  rw [tanksRead_tank] at turned ⊢
  rw [← declared] at turned
  have tank : ∀ u : State, u.water.tanks.get k = s.tankRead (raw k) (temp k) k →
      (u.tankMonitor k).status.summary.get (Mon.tank k) = (Tank.counted k (s.tankRead (raw k) (temp k) k)).declared :=
    fun u e => tankMonitor_turned u e turned
  unfold State.tanksRead
  match k with
  | 0 =>
    rw [tankMonitor_other _ (by decide), tankMonitor_other _ (by decide)]
    exact tank _ (by simp [State.tankRead, readTank_tank])
  | 1 =>
    rw [tankMonitor_other _ (by decide)]
    exact tank _ (by simp [State.tankRead, tankMonitor_tank, readTank_tank]; rfl)
  | 2 => exact tank _ (by simp [State.tankRead, tankMonitor_tank, readTank_tank]; rfl)

end

end Sys2Proof.Machine
end

