-- ==== Sys2Proof/Proofs/Guard.lean ====
section
/-! PROOFS. The frost guard and the dump count of a reading (R90, R91, R97). -/

namespace Sys2Proof.Machine

/-! ### The frost guard and the dump count (R90, R91, R97) -/

/-- The Water Manager with the guard's count gone on (R90). -/
def State.guardCounted (s : State) : Water :=
  if s.water.guard then
    let n := countTo 10 (decide (50 ≤ s.freshTemp)) s.water.guardCount
    { s.water with guardCount := n.1, guard := !n.2 }
  else
    let n := countTo 3 (decide (s.freshTemp < 30)) s.water.guardCount
    { s.water with guardCount := n.1, guard := n.2 }

/-- The guard turns. -/
def State.guardTurns (s : State) : Bool := s.guardCounted.guard != s.water.guard

theorem guardReads_eq (s : State) : s.guardReads =
    (let u := s.setWater s.guardCounted
    if s.guardTurns then
      let v := u.monitor Mon.frostGuard (!s.water.guard)
      if s.water.guard then v.cyclingEnds else v.cyclingBegins
    else u) := by
  unfold State.guardReads State.guardTurns State.guardCounted
  cases guard : s.water.guard with
  | true =>
    rw [if_pos rfl, if_pos rfl]
    dsimp only
    generalize countTo 10 _ _ = n
    obtain ⟨n, full⟩ := n
    cases full <;> rfl
  | false =>
    rw [if_neg Bool.false_ne_true, if_neg Bool.false_ne_true]
    dsimp only
    generalize countTo 3 _ _ = n
    obtain ⟨n, full⟩ := n
    cases full <;> rfl

theorem guardCounted_rest (s : State) : s.guardCounted
    = { s.water with guard := s.guardCounted.guard, guardCount := s.guardCounted.guardCount } := by
  unfold State.guardCounted
  split <;> rfl

theorem guardCounted_cycled {s : State} (owed : s.water.guard = false → s.water.owed < 4) :
    Cycled s.guardCounted s.guardReads.water := by
  rw [guardReads_eq]
  dsimp only
  have water : ((s.setWater s.guardCounted).monitor Mon.frostGuard (!s.water.guard)).water = s.guardCounted :=
    (monitor_shared _ _ _).water
  split
  · split
    · have ends := cyclingEnds_cycled ((s.setWater s.guardCounted).monitor Mon.frostGuard (!s.water.guard))
      rwa [water] at ends
    · next off =>
      have begins := cyclingBegins_cycled (s := (s.setWater s.guardCounted).monitor Mon.frostGuard (!s.water.guard))
        (by rw [water, guardCounted_rest]; exact owed (by simpa using off))
      rwa [water] at begins
  · exact Cycled.refl _

/-- The conditions of the dump count (R97). -/
def State.dumpsNow (s : State) : Bool :=
  s.water.guard && s.valveClosed && decide (s.freshTemp ≤ 5) && s.freshAbove30 && !s.heaterKnown

theorem dumpReads_eq {s : State} (o : s.Ok) : s.dumpReads =
    if s.inRun then
      let n := countTo 5 s.dumpsNow s.water.dumpCount
      let u := s.setWater { s.water with dumpCount := n.1 }
      if n.2 then u.openDump else u
    else s := by
  unfold State.dumpReads
  rw [readAll_checked o.checked]
  rfl

theorem countTo_full {limit count : Nat} {cond : Bool} : (countTo limit cond count).2 = true ↔ cond = true ∧ limit ≤ count + 1 := by
  unfold countTo
  cases cond with
  | true =>
    rw [if_pos rfl]
    split
    · next h => exact ⟨fun _ => ⟨rfl, h⟩, fun _ => rfl⟩
    · next h => exact ⟨nofun, fun k => absurd k.2 h⟩
  | false => exact ⟨nofun, fun h => nomatch h.1⟩

theorem countTo_count {limit count : Nat} {cond : Bool} :
    (countTo limit cond count).1 = if cond = true ∧ count + 1 < limit then count + 1 else 0 := by
  unfold countTo
  cases cond with
  | true =>
    rw [if_pos rfl]
    split
    · next h => rw [if_neg (by omega)]
    · next h => rw [if_pos ⟨rfl, by omega⟩]
  | false => rw [if_neg nofun, if_neg fun h => nomatch h.1]

theorem freshOk_of_above {s : State} (h : s.freshAbove30 = true) : s.freshOk = true := by
  unfold State.freshAbove30 at h
  unfold State.freshOk
  cases e : (s.water.tanks.get 0).level with
  | none => rw [e] at h; cases h
  | some l =>
    rw [e] at h
    simp only [decide_eq_true_eq] at h ⊢
    omega

/-- At a reading the demand path follows, but for a cycle that the low level ends (R95). -/
theorem pumpReads_demand {s : State} (h : s.freshOk = true ∨ s.water.cycle.holdsClaim = false) :
    s.pumpReads = s.demandFollows := by
  unfold State.pumpReads
  split
  · rfl
  · next low =>
    have free := h.resolve_left low
    split
    · next e => rw [e] at free; cases free
    · next e => rw [e] at free; cases free
    · rfl

/-! ### Frost cycling begins (R91, R92) -/

theorem demandFollows_climate (s : State) : s.demandFollows.climate = s.climate := by
  have asked := (ask_shared s loadPump 5 (Item.pumpDraw s.seq.values) false).climate
  have released : s.pumpReleased.climate = s.climate := (release_shared _ _).climate
  unfold State.demandFollows
  split
  · show State.climate (ite _ _ _) = _
    split
    · rfl
    split
    · split
      · exact asked
      · rfl
    split
    · rfl
    · exact released
  · rfl

theorem drain_quiet {s : State} (calm : s.water.demand = false) (free : s.water.cycle.holdsClaim = false) :
    s.drain = (s.setWater { s.water with
      cycle := .drained, owed := 0, dueTimer := none, dueOnRun := false, circTimer := none }).demandFollows := by
  have none : s.setDemand false = s := if_pos calm
  unfold State.drain
  rw [none, if_neg (by simp [free])]

/-- The heater's running does not turn on the frost-demand flag (R110 to R112). -/
theorem setDemand_running {s : State} (o : s.Ok) (frost : s.climate.frost = s.frostServiceNow)
    (open_ : s.climate.heater = .running → s.climate.lockout = false ∧ s.inRun = true) :
    ((s.setDemand true).climate.heater = .running ↔ s.climate.heater = .running) := by
  unfold State.setDemand
  split
  · exact Iff.rfl
  · generalize hu : s.setWater { s.water with demand := true } = u
    have climate : u.climate = s.climate := by rw [← hu]; rfl
    have run : u.inRun = s.inRun := by rw [← hu]; rfl
    have ok : u.Ok := hu ▸ (setWater_calm s _ o).1
    have more : s.frostServiceNow = true → u.frostServiceNow = true := by
      rw [← hu]
      intro h
      unfold State.frostServiceNow at *
      simp only [Bool.and_eq_true, Bool.or_eq_true] at h ⊢
      obtain ⟨⟨⟨fitted, run⟩, mode⟩, asks⟩ := h
      exact ⟨⟨⟨fitted, run⟩, mode⟩, asks.imp_left fun h => ⟨h.1, rfl⟩⟩
    unfold State.frostService
    rw [readAll_checked ok.checked]
    split
    · dsimp only
      split
      · rw [climate]
      · next differs =>
        have on : u.frostServiceNow = true := by
          rw [climate, frost] at differs
          cases e : s.frostServiceNow with
          | true => exact more e
          | false => simpa [e] using differs
        rw [on]
        generalize hw : u.setClimate { u.climate with frost := true, tryFailed := u.climate.tryFailed && true } = w
        have heater : w.climate.heater = s.climate.heater := by rw [← hw, ← climate]; rfl
        have lock : w.climate.lockout = s.climate.lockout := by rw [← hw, ← climate]; rfl
        have runs : w.inRun = s.inRun := by rw [← hw, ← run]; rfl
        rw [← heater]
        constructor
        · intro h
          by_contra not
          exact heaterFollows_idles not h
        · intro h
          refine heaterFollows_frost (by rw [← hw]; rfl) (fun _ => ?_) h
          rw [lock, runs]
          exact open_ (heater ▸ h)
    · rw [climate]

end Sys2Proof.Machine
end

