-- ==== Sys2Proof/Proofs/CyclingBegins.lean ====
section
/-! PROOFS. A reading that opens the dump valve, or begins frost cycling (R91, R92, R97). -/

namespace Sys2Proof.Machine

/-! ### The demand path with the valve open (R86, R97) -/

/-- With the valve not closed the demand path leaves PUMP off and the claim Idle. -/
theorem demandFollows_shut {s : State} (o : s.Ok) (fitted : s.seq.fns.water = true)
    (free : s.water.cycle.holdsClaim = false) (open_ : s.valveClosed = false)
    (rests : s.inRun = false → s.water.pump = false ∧ (s.claim loadPump).st = .idle) :
    s.demandFollows.water.pump = false ∧ (s.demandFollows.claim loadPump).st = .idle := by
  by_cases run : s.inRun = true
  · have off : ∀ c, s.pumpOn c = false := fun c => by simp [State.pumpOn, open_]
    refine ⟨?_, demandFollows_unwanted fitted run free o (by simp [State.demandWants, open_])⟩
    rw [demandFollows_water fitted run o, State.pumped, off]
  · rw [Bool.not_eq_true] at run
    rw [demandFollows_rests (.inr run)]
    exact rests run

/-! ### The dump valve opens (R97) -/

/-- A reading that opens the dump valve leaves it open, the cycle Drained with nothing owed, and the pump off. -/
theorem openDump_reads {s : State} (o : s.Ok) (fitted : s.seq.fns.water = true) (run : s.inRun = true) :
    let t := s.openDump.pumpReads
    t.water.dumpCmdOpen = true ∧ t.water.dumpDrive = .toOpen ∧ t.water.cycle = .drained ∧ t.water.owed = 0
      ∧ t.water.dumpCount = 0 ∧ t.water.pump = false ∧ (t.claim loadPump).st = .idle := by
  obtain ⟨cycle, owed, cmd, drive, count, -⟩ := openDump_water o fitted run
  have calm := openDump_calm s o
  have seq : s.openDump.seq = s.seq := calm.2.1.seq
  dsimp only
  generalize s.openDump = u at *
  have free : u.water.cycle.holdsClaim = false := by rw [cycle]; rfl
  have shut := demandFollows_shut calm.1 (by rw [seq]; exact fitted) free (by simp [State.valveClosed, cmd])
    fun h => by rw [State.inRun, seq] at h; rw [State.inRun, h] at run; cases run
  rw [pumpReads_demand (.inr free)]
  have rest := demandFollows_rest u
  refine ⟨?_, ?_, ?_, ?_, ?_, shut⟩ <;> rw [rest] <;> assumption

/-! ### Frost cycling begins at a reading (R91, R92) -/

/-- A station whose guard is only now declared: no cycle has run, nothing is owed and no demand is remembered. -/
structure State.Unfrosted (s : State) : Prop where
  ok : s.Ok
  fitted : s.seq.fns.water = true
  draw : 1 ≤ Item.pumpDraw s.seq.values ∧ Item.pumpDraw s.seq.values ≤ 30000
  forced : (s.claim loadPump).st ≠ .forced
  calm : s.water.demand = false
  off : s.water.cycle = .off
  owed : s.water.owed = 0
  still : s.inRun = false → (s.claim loadPump).st = .idle
  shut : s.valveClosed = false → s.water.pump = false

theorem State.Unfrosted.due {s : State} (h : s.Unfrosted) (run : s.inRun = true) : (s.timing 0).DuePump :=
  ⟨(setWater_calm s _ h.ok).1, h.fitted, run, h.draw, h.forced, h.calm⟩

section
variable {s : State} (h : s.Unfrosted) (c : Nat)
include h

/-- The reading goes on to the pump conditions from where the cycling has begun. -/
theorem begun_drains (open_ : s.valveClosed = false) :
    let t := (s.drain.setWater { s.drain.water with dumpCount := c }).pumpReads
    t.water.cycle = .drained ∧ t.water.owed = 0 ∧ t.water.pump = false ∧ (t.claim loadPump).st = .idle := by
  have rests : ∀ u : State, u.Ok → u.seq = s.seq → u.water.cycle.holdsClaim = false → u.valveClosed = false →
      u.water.pump = false → (s.inRun = false → (u.claim loadPump).st = .idle) →
      u.demandFollows.water.pump = false ∧ (u.demandFollows.claim loadPump).st = .idle :=
    fun u ok seq free shut pump idle => demandFollows_shut ok (by rw [seq]; exact h.fitted) free shut fun run =>
      ⟨pump, idle (by rw [State.inRun, seq] at run; exact run)⟩
  generalize hu : s.setWater { s.water with
    cycle := .drained, owed := 0, dueTimer := none, dueOnRun := false, circTimer := none } = u
  have ok : u.Ok := hu ▸ (setWater_calm s _ h.ok).1
  have drained : s.drain = u.demandFollows := by rw [drain_quiet h.calm (by rw [h.off]; rfl), hu]
  obtain ⟨off, idle⟩ := rests u ok (by rw [← hu]; rfl) (by rw [← hu]; rfl) (by rw [← hu]; exact open_)
    (by rw [← hu]; exact h.shut open_) (by rw [← hu]; exact h.still)
  have rest := demandFollows_rest u
  have calm := demandFollows_calm u ok
  have seq : u.demandFollows.seq = s.seq := calm.2.1.seq.trans (by rw [← hu]; rfl)
  have pins : u.demandFollows.pins = s.pins := (demandFollows_wet u).pins.trans (by rw [← hu]; rfl)
  rw [drained]
  generalize u.demandFollows = x at *
  have cycle : x.water.cycle = .drained := by rw [rest, ← hu]; rfl
  have owed : x.water.owed = 0 := by rw [rest, ← hu]; rfl
  have cmd : x.water.dumpCmdOpen = s.water.dumpCmdOpen := by rw [rest, ← hu]; rfl
  generalize hy : x.setWater { x.water with dumpCount := c } = y
  have free : y.water.cycle.holdsClaim = false := by
    rw [← hy]
    show x.water.cycle.holdsClaim = false
    rw [cycle]
    rfl
  obtain ⟨off', idle'⟩ := rests y (hy ▸ (setWater_calm x _ calm.1).1) (by rw [← hy]; exact seq) free
    ((valveClosed_congr (by rw [← hy]; exact pins) (by rw [← hy]; exact cmd)).trans open_) (by rw [← hy]; exact off)
    fun _ => by rw [← hy]; exact idle
  dsimp only
  rw [pumpReads_demand (.inr free), demandFollows_rest y]
  refine ⟨?_, ?_, off', idle'⟩ <;> rw [← hy] <;> assumption

/-- Before Run the first cycle is due on entry into Run (R91). -/
theorem begun_waits (still : s.inRun = false) :
    let u := s.setWater { s.water with cycle := .timing, dueOnRun := true }
    let t := (u.setWater { u.water with dumpCount := c }).pumpReads
    t.water.cycle = .timing ∧ t.water.dueOnRun = true ∧ t.water.owed = 0 ∧ (t.claim loadPump).st = .idle := by
  dsimp only
  rw [pumpReads_demand (.inr rfl), demandFollows_rests (.inr (by exact still))]
  exact ⟨rfl, rfl, h.owed, h.still still⟩

section
variable (run : s.inRun = true)
include run

theorem begun_skips (low : s.freshOk = false) :
    let u := (s.timing 0).takeDue
    let t := (u.setWater { u.water with dumpCount := c }).pumpReads
    t.water.cycle = .timing ∧ t.water.dueTimer = some (Item.frostIntervalMs s.seq.values) ∧ t.water.owed = 0 := by
  dsimp only
  rw [takeDue_skips (by exact low), pumpReads_demand (.inr rfl), demandFollows_rest]
  exact ⟨rfl, rfl, h.owed⟩

section
variable (fresh : s.freshOk = true)
include fresh

theorem begun_takesOver (closed : s.valveClosed = true) (held : (s.claim loadPump).st = .held) :
    let u := (s.timing 0).takeDue
    let t := (u.setWater { u.water with dumpCount := c }).pumpReads
    t.water.cycle = .circulating ∧ t.water.circTimer = some 120000 ∧ t.water.demand = true ∧ t.water.pump = true
      ∧ t.water.owed = 0 ∧ t.claim loadPump = { s.claim loadPump with rank := 1 } := by
  have due := h.due run
  obtain ⟨water, claim⟩ := takeDue_takesOver due (by exact fresh) (by rw [timing_water]; exact h.owed.trans_lt (by decide))
    (by exact held)
  have calm := takeDue_calm (s.timing 0) due.ok
  have wet := takeDue_wet (s.timing 0)
  dsimp only
  generalize (s.timing 0).takeDue = u at *
  have pins : u.pins = s.pins := wet.pins
  have seq : u.seq = s.seq := calm.2.1.seq
  generalize hx : u.setWater { u.water with dumpCount := c } = x
  have ok : x.Ok := hx ▸ (setWater_calm u _ calm.1).1
  have waterx : x.water = { u.water with dumpCount := c } := by rw [← hx]; rfl
  have fresh' : x.freshOk = true := by rw [freshOk_congr (t := x) (s := s) (by rw [waterx, water]; rfl)]; exact fresh
  have fittedx : x.seq.fns.water = true := by rw [← hx]; show u.seq.fns.water = true; rw [seq]; exact h.fitted
  have runx : x.inRun = true := by rw [← hx]; show u.inRun = true; rw [State.inRun, seq]; exact run
  have stands : x.demandFollows.claim loadPump = { s.claim loadPump with rank := 1 } :=
    (demandFollows_cycling fittedx runx (by rw [waterx, water]; rfl)).trans (by rw [← hx]; exact claim)
  have closed' : x.valveClosed = true :=
    (valveClosed_congr (s := s) (by rw [← hx]; exact pins) (by rw [waterx, water]; rfl)).trans closed
  have on : x.pumpOn (x.demandFollows.claim loadPump) = true := by
    rw [stands]
    simp [State.pumpOn, Claim.drawing, held, fresh', closed', runx, waterx, water]
  rw [pumpReads_demand (.inl fresh'), demandFollows_water fittedx runx ok]
  unfold State.pumped
  rw [on, waterx, water]
  exact ⟨rfl, rfl, rfl, rfl, h.owed, stands⟩

section
variable (free : (s.claim loadPump).st ≠ .held)
include free

theorem begun_asks (passes : s.passes loadPump 1 (Item.pumpDraw s.seq.values) = true) :
    let u := (s.timing 0).takeDue
    let t := (u.setWater { u.water with dumpCount := c }).pumpReads
    t.water.cycle = .asking ∧ t.water.owed = 0 ∧ t.claim loadPump =
      ((s.claim loadPump).asking 1 (Item.pumpDraw s.seq.values) true).toContest s.broker.nextSerial := by
  have due := h.due run
  obtain ⟨water, claim⟩ := takeDue_contests due (by exact fresh) (by rw [timing_water]; exact h.owed.trans_lt (by decide))
    (by exact free) (by exact passes)
  have calm := takeDue_calm (s.timing 0) due.ok
  dsimp only
  generalize (s.timing 0).takeDue = u at *
  have seq : u.seq = s.seq := calm.2.1.seq
  generalize hx : u.setWater { u.water with dumpCount := c } = x
  have waterx : x.water = { u.water with dumpCount := c } := by rw [← hx]; rfl
  have fresh' : x.freshOk = true := by rw [freshOk_congr (t := x) (s := s) (by rw [waterx, water]; rfl)]; exact fresh
  have fittedx : x.seq.fns.water = true := by rw [← hx]; show u.seq.fns.water = true; rw [seq]; exact h.fitted
  have runx : x.inRun = true := by rw [← hx]; show u.inRun = true; rw [State.inRun, seq]; exact run
  have stands := demandFollows_cycling fittedx runx (by rw [waterx, water]; rfl)
  rw [pumpReads_demand (.inl fresh'), demandFollows_rest, waterx, water]
  exact ⟨rfl, h.owed, stands.trans (by rw [← hx]; exact claim)⟩

theorem begun_postponed (fails : s.passes loadPump 1 (Item.pumpDraw s.seq.values) = false) :
    let u := (s.timing 0).takeDue
    let t := (u.setWater { u.water with dumpCount := c }).pumpReads
    t.water.cycle = .timing ∧ t.water.dueTimer = some (Item.frostIntervalMs s.seq.values) ∧ t.water.owed = 1
      ∧ t.water.demand = false := by
  have due := h.due run
  obtain ⟨cycle, owed, next, demand, -⟩ := takeDue_postponed due (by exact fresh)
    (by rw [timing_water]; exact h.owed.trans_lt (by decide)) (by exact free) (by exact fails)
  dsimp only
  generalize (s.timing 0).takeDue = u at *
  rw [pumpReads_demand (.inr (by show u.water.cycle.holdsClaim = false; rw [cycle]; rfl)), demandFollows_rest]
  exact ⟨cycle, next, owed.trans (by rw [timing_water]; exact congrArg (· + 1) h.owed), demand⟩

end
end
end
end

end Sys2Proof.Machine
end

