-- ==== Sys2Proof/Proofs/GuardTurns.lean ====
section
/-! PROOFS. The guard that turns, and the heater known to run meanwhile (R90, R97). -/

namespace Sys2Proof.Machine

/-! ### A reading of the Water Manager, stage by stage (R81) -/

theorem frostServiceNow_congr {s t : State} (view : t.view = s.view) (seq : t.seq = s.seq) (climate : t.climate = s.climate)
    (demand : t.water.demand = s.water.demand) : t.frostServiceNow = s.frostServiceNow := by
  unfold State.frostServiceNow State.modeInForce State.inRun State.entries
  rw [view, seq, climate, demand]

/-- The heater's state by which a CLIMATE record of it would show it running stands while frost cycling begins (R97). -/
theorem takeDue_running {s : State} (due : s.DuePump) (owed : s.water.owed < 4) (frost : s.climate.frost = s.frostServiceNow)
    (open_ : s.climate.heater = .running → s.climate.lockout = false ∧ s.inRun = true) :
    (s.takeDue.climate.heater = .running ↔ s.climate.heater = .running) := by
  by_cases fresh : s.freshOk = true
  swap
  · rw [takeDue_skips (by simpa using fresh)]
    exact Iff.rfl
  by_cases held : (s.claim loadPump).st = .held
  · have eq : s.takeDue = (s.rerank loadPump 1).1.enterCirculating := by
      unfold State.takeDue
      dsimp only
      rw [if_neg (by simp [fresh]), if_pos owed, if_pos held]
    obtain ⟨ok, asked⟩ := rerank_asks s loadPump 1 (by decide) due.ok
    have view := (rerank_calm s loadPump 1 (by decide) due.ok).2.1.view
    rw [eq]
    generalize (s.rerank loadPump 1).1 = u at *
    generalize hx : u.setWater { u.water with
      cycle := .circulating, circTimer := some Config.circulationMs, dueTimer := none } = x
    have climate : x.climate = s.climate := by rw [← hx]; exact asked.climate
    have run : x.inRun = s.inRun := by rw [← hx, State.inRun, State.inRun, ← asked.seq]; rfl
    have frost' : x.climate.frost = x.frostServiceNow := by
      rw [climate, frost, frostServiceNow_congr (t := x) (s := s) (by rw [← hx]; exact view) (by rw [← hx]; exact asked.seq)
        (by rw [← hx]; exact asked.climate) (by rw [← hx]; show u.water.demand = _; rw [asked.water])]
    have turned := setDemand_running (s := x) (hx ▸ (setWater_calm u _ ok).1) frost' (by rw [climate, run]; exact open_)
    rw [climate] at turned
    rw [← turned, ← hx]
    exact Iff.rfl
  · rw [takeDue_tries fresh owed held]
    have shared := (ask_shared (s.setWater { s.water with cycle := .asking, dueTimer := none, dueOnRun := false }) loadPump 1
      (Item.pumpDraw s.seq.values) true)
    generalize State.ask _ loadPump 1 (Item.pumpDraw s.seq.values) true = r at *
    obtain ⟨u, reply⟩ := r
    have climate : u.climate = s.climate := shared.climate
    have quiet : u.water.demand = false := by rw [show u.water = _ from shared.water]; exact due.calm
    cases reply with
    | refused =>
      show u.cyclePostponed.climate.heater = _ ↔ _
      rw [cyclePostponed_eq quiet, demandFollows_climate]
      show u.climate.heater = _ ↔ _
      rw [climate]
    | _ =>
      show u.climate.heater = _ ↔ _
      rw [climate]

theorem State.Fits.heaterRuns {s : State} (fits : s.Fits) (runs : s.climate.heater = .running) :
    s.climate.lockout = false ∧ s.inRun = true := by
  obtain ⟨-, -, -, -, held, -, -, -, -, -, -, -, -, -, lockout, -⟩ := fits.climate
  obtain ⟨-, -, claims⟩ := fits.claims
  obtain ⟨asks, -⟩ := claims loadHeater
  refine ⟨?_, (asks (by rw [held.mpr (.inr (.inl runs))]; nofun)).1⟩
  rw [← Bool.not_eq_true]
  intro locked
  rcases lockout locked with e | e <;> rw [runs] at e <;> cases e

/-- The tanks, the demand flag and the cycle of a state in order whose guard is clear (R90 to R93). -/
theorem State.Fits.unfrosted {s m : State} (fits : s.Fits) (fitted : s.seq.fns.water = true) (off : s.water.guard = false)
    (ok : m.Ok) (broker : m.broker = s.broker) (pins : m.pins = s.pins) (seq : m.seq = s.seq)
    (demand : m.water.demand = s.water.demand) (cycle : m.water.cycle = s.water.cycle) (owed : m.water.owed = s.water.owed)
    (pump : m.water.pump = s.water.pump) (cmd : m.water.dumpCmdOpen = s.water.dumpCmdOpen) : m.Unfrosted := by
  obtain ⟨on, -, -, guard, -, nothing, -, flag, -, -, forced, -⟩ := fits.water
  obtain ⟨-, -, claims⟩ := fits.claims
  obtain ⟨asks, -⟩ := claims loadPump
  have claim : m.claim loadPump = s.claim loadPump := by rw [State.claim, broker]; rfl
  have calm := guard.mp off
  have run : m.inRun = s.inRun := by rw [State.inRun, seq]; rfl
  refine ⟨ok, by rw [seq]; exact fitted, by rw [seq]; exact fits.values.pumpDraw, ?_, ?_, cycle.trans calm,
    owed.trans (nothing (.inl calm)), fun still => ?_, fun open_ => ?_⟩
  · rw [claim]
    intro e
    rw [calm] at forced
    cases forced e
  · rw [demand, ← Bool.not_eq_true, flag, calm]
    nofun
  · rw [claim]
    by_contra has
    rw [run, (asks has).1] at still
    cases still
  · rw [pump, ← Bool.not_eq_true]
    intro h
    rw [valveClosed_congr pins cmd, (on h).2.2.1] at open_
    cases open_

/-- A reading that declares the guard, in the state in which its monitor has turned. -/
def State.guardDeclared (s : State) : State := (s.setWater s.guardCounted).monitor Mon.frostGuard true

theorem guardReads_declares {s : State} (off : s.water.guard = false) (on : s.guardCounted.guard = true) :
    s.guardReads = s.guardDeclared.cyclingBegins := by
  have turns : s.guardTurns = true := by rw [State.guardTurns, on, off]; rfl
  rw [guardReads_eq]
  dsimp only
  rw [if_pos turns, if_neg (by simp [off]), off]
  rfl

theorem guardReads_stands {s : State} (same : s.guardCounted.guard = s.water.guard) :
    s.guardReads = s.setWater s.guardCounted := by
  have turns : s.guardTurns = false := by rw [State.guardTurns, same]; simp
  rw [guardReads_eq]
  dsimp only
  rw [if_neg (by simp [turns])]

theorem guardDeclared_probed (s : State) : Probed (s.setWater s.guardCounted) s.guardDeclared := monitor_probed _ _ _

theorem guardDeclared_water (s : State) : s.guardDeclared.water = s.guardCounted := (monitor_shared _ _ _).water

/-- The frost guard by its count, which stands at a temperature read (R90). -/
theorem guardCounted_guard (s : State) : s.guardCounted.guard = (if s.water.guard = true
    then !(decide (50 ≤ s.freshTemp) && decide (10 ≤ s.water.guardCount + 1))
    else decide (s.freshTemp < 30) && decide (3 ≤ s.water.guardCount + 1)) := by
  have full : ∀ limit n cond, (countTo limit cond n).2 = (cond && decide (limit ≤ n + 1)) := by
    intro limit n cond
    rw [Bool.eq_iff_iff, countTo_full, Bool.and_eq_true, decide_eq_true_eq]
  unfold State.guardCounted
  split
  · dsimp only
    rw [full]
  · dsimp only
    rw [full]

theorem guardCounted_count (s : State) : s.guardCounted.guardCount = (if s.water.guard = true
    then (if 50 ≤ s.freshTemp ∧ s.water.guardCount + 1 < 10 then s.water.guardCount + 1 else 0)
    else if s.freshTemp < 30 ∧ s.water.guardCount + 1 < 3 then s.water.guardCount + 1 else 0) := by
  unfold State.guardCounted
  split
  · dsimp only
    rw [countTo_count]
    simp only [decide_eq_true_eq]
  · dsimp only
    rw [countTo_count]
    simp only [decide_eq_true_eq]

/-- A guard that turns is shown as it stands, and a guard that stands leaves its monitor. -/
theorem guardReads_summary {s : State} (o : s.Ok) (turned : s.guardCounted.guard ≠ s.water.guard) :
    s.guardReads.status.summary.get Mon.frostGuard = s.guardCounted.guard := by
  have turns : s.guardTurns = true := by
    rw [State.guardTurns]
    cases e : s.guardCounted.guard <;> cases e' : s.water.guard <;> simp [e, e'] at turned ⊢
  have opposite : s.guardCounted.guard = !s.water.guard := by
    cases e : s.guardCounted.guard <;> cases e' : s.water.guard <;> simp [e, e'] at turned ⊢
  rw [guardReads_eq]
  dsimp only
  rw [if_pos turns]
  generalize hm : (s.setWater s.guardCounted).monitor Mon.frostGuard (!s.water.guard) = m
  have ok : m.Ok := hm ▸ ((setWater_calm s _).trans (monitor_calm _ _ _) o).1
  have shown : m.status.summary.get Mon.frostGuard = s.guardCounted.guard := by
    rw [← hm, monitor_summary, if_pos rfl, opposite]
  have pump : Fact (valveReach.loads loadPump) := ⟨.inl rfl⟩
  have heater : Fact (valveReach.loads loadHeater) := ⟨.inr rfl⟩
  have within := (waitWithin_exists m).choose_spec
  have apart : ¬ valveReach.mons Mon.frostGuard := show ¬ Mon.frostGuard = Mon.valveFault by decide
  split
  · rw [((cyclingEnds_tends (k := valveReach) m) ok within).2.2.summary _ apart, shown]
  · rw [((cyclingBegins_tends (k := valveReach) rfl m) ok within).2.2.summary _ apart, shown]

end Sys2Proof.Machine
end

