-- ==== Sys2Proof/Proofs/Reading.lean ====
section
/-! PROOFS. A reading of the Water Manager, stage by stage (R81). -/

namespace Sys2Proof.Machine

/-- The station in which a reading has taken the tanks, and the Water Manager as the frost guard's stage finds it. -/
structure State.Read (s v : State) : Prop where
  ok : v.Ok
  probed : Probed s v
  fitted : s.seq.fns.water = true
  fits : s.Fits

/-- The monitors of the guard and of the valve, and the two claims that frost cycling reaches. -/
def frostReach : Scope :=
  { mons := fun n => n = Mon.frostGuard ∨ n = Mon.valveFault, loads := fun id => id = loadPump ∨ id = loadHeater }

section
variable {s v : State} (read : s.Read v)
include read

/-- A guard newly declared finds a station without a cycle. -/
theorem State.Read.unfrosted (off : s.water.guard = false) : v.guardDeclared.Unfrosted := by
  have calm := (setWater_calm v v.guardCounted).trans (monitor_calm _ Mon.frostGuard true)
  have probed := guardDeclared_probed v
  have water : v.guardDeclared.water = { s.water with
      tanks := v.water.tanks, guard := v.guardCounted.guard, guardCount := v.guardCounted.guardCount } := by
    rw [guardDeclared_water, guardCounted_rest, read.probed.water]
  refine read.fits.unfrosted read.fitted off (calm read.ok).1 (probed.broker.trans read.probed.broker)
    (probed.pins.trans read.probed.pins) (probed.seq.trans read.probed.seq) ?_ ?_ ?_ ?_ ?_ <;> rw [water]

theorem State.Read.guarded : v.water.guard = s.water.guard := by rw [read.probed.water]

theorem State.Read.cycled : Cycled v.guardCounted v.guardReads.water := by
  refine guardCounted_cycled fun off => ?_
  obtain ⟨-, -, -, guard, -, nothing, -⟩ := read.fits.water
  have owed : v.water.owed = s.water.owed := by rw [read.probed.water]
  rw [owed, nothing (.inl (guard.mp (read.guarded ▸ off)))]
  decide

theorem State.Read.guard : v.guardReads.water.guard = v.guardCounted.guard := by rw [read.cycled]

/-- A heater is known to run after the guard's stage where it was before, while the guard is declared (R97). -/
theorem State.Read.known (on : v.guardCounted.guard = true) : v.guardReads.heaterKnown
    = ((s.seq.fns.heat && s.climate.heater == .running) || s.entries.any Entry.showsHeater) := by
  have calm := guardReads_calm v read.ok
  have seq : v.guardReads.seq = s.seq := calm.2.1.seq.trans read.probed.seq
  have view : v.guardReads.view = s.view := calm.2.1.view.trans read.probed.view
  have heater : v.guardReads.climate.heater = .running ↔ s.climate.heater = .running := by
    by_cases off : s.water.guard = true
    · rw [guardReads_stands (by rw [on, read.guarded, off])]
      show v.climate.heater = _ ↔ _
      rw [read.probed.climate]
    rw [Bool.not_eq_true] at off
    rw [guardReads_declares (read.guarded.trans off) on]
    have unfrosted := read.unfrosted off
    have probed := guardDeclared_probed v
    have climate : v.guardDeclared.climate = s.climate := probed.climate.trans read.probed.climate
    have demand : v.guardDeclared.water.demand = s.water.demand := by
      rw [guardDeclared_water, guardCounted_rest, read.probed.water]
    have frost := frostServiceNow_congr (t := v.guardDeclared) (probed.view.trans read.probed.view)
      (probed.seq.trans read.probed.seq) climate demand
    have run : v.guardDeclared.inRun = s.inRun := by rw [State.inRun, probed.seq.trans read.probed.seq]; rfl
    generalize v.guardDeclared = m at *
    unfold State.cyclingBegins
    split
    · rw [drain_quiet unfrosted.calm (by rw [unfrosted.off]; rfl), demandFollows_climate]
      show m.climate.heater = _ ↔ _
      rw [climate]
    split
    · next inRun =>
      obtain ⟨-, service, -⟩ := read.fits.climate
      have kept := takeDue_running (unfrosted.due inRun) (by rw [timing_water]; exact unfrosted.owed.trans_lt (by decide))
        (show m.climate.frost = m.frostServiceNow by rw [climate, frost, service])
        (show m.climate.heater = .running → m.climate.lockout = false ∧ m.inRun = true by
          rw [climate, run]; exact read.fits.heaterRuns)
      rw [kept]
      show m.climate.heater = _ ↔ _
      rw [climate]
    · show m.climate.heater = _ ↔ _
      rw [climate]
  have same : (v.guardReads.climate.heater == .running) = (s.climate.heater == .running) := by
    rw [Bool.eq_iff_iff, beq_iff_eq, beq_iff_eq, heater]
  unfold State.heaterKnown State.entries
  rw [seq, view, same]

/-- The conditions of the dump count, as the guard's stage leaves them (R97). -/
theorem State.Read.dumps : v.guardReads.dumpsNow = (v.guardCounted.guard && s.valveClosed && decide (v.freshTemp ≤ 5)
    && !((s.seq.fns.heat && s.climate.heater == .running) || s.entries.any Entry.showsHeater) && v.freshAbove30) := by
  have cycled := read.cycled
  have tanks : v.guardReads.water.tanks = v.water.tanks := by rw [cycled, guardCounted_rest]
  have cmd : v.guardReads.water.dumpCmdOpen = s.water.dumpCmdOpen := by
    rw [cycled, guardCounted_rest, read.probed.water]
  have closed : v.guardReads.valveClosed = s.valveClosed :=
    valveClosed_congr ((guardReads_wet v).pins.trans read.probed.pins) cmd
  unfold State.dumpsNow State.freshTemp State.freshAbove30
  rw [tanks, closed, read.guard]
  by_cases on : v.guardCounted.guard = true
  · rw [read.known on, on, Bool.and_right_comm (_ && decide _)]
  · rw [Bool.not_eq_true] at on
    rw [on]
    rfl

end

end Sys2Proof.Machine
end

