-- ==== Sys2Proof/Proofs/ReadingStages.lean ====
section
/-! PROOFS. What the stages of a reading leave of tanks, monitors and cycle. -/

namespace Sys2Proof.Machine

theorem State.Fits.rereads {s : State} (fits : s.Fits) (t : Timer) : (s.setWater { s.water with readTimer := t }).Fits where
  sound := ⟨fits.sound.checked, fits.sound.lanes, fits.sound.queue, fits.sound.claims, fits.sound.counters,
    fits.sound.extend, fits.sound.quiet⟩
  values := fits.values
  cell := fits.cell
  supply := fits.supply
  claims := fits.claims
  view := fits.view
  water := fits.water
  climate := fits.climate
  motion := fits.motion
  requests := fits.requests
  lights := fits.lights

/-! ### The tank a reading leaves (R83 to R85) -/

section
variable (s : State) (raw : Nat) (temp : Int) (k : Fin 3)

theorem tankRead_temp : (s.tankRead raw temp k).temp = max (-400) (min temp 850) := by
  unfold State.tankRead Tank.reading
  split <;> rfl

/-- The two points of a tank that is not fitted give no level (R82). -/
theorem tankRead_unfitted (h : Item.tankEmpty s.seq.values k = Item.tankFull s.seq.values k) :
    (s.tankRead raw temp k).level = (s.water.tanks.get k).level ∧ (s.tankRead raw temp k).prev = (s.water.tanks.get k).prev := by
  unfold State.tankRead probeLevel
  rw [if_pos h]
  exact ⟨rfl, rfl⟩

theorem tankRead_fitted (h : Item.tankEmpty s.seq.values k ≠ Item.tankFull s.seq.values k) :
    let x := (max 0 (min ((((raw : Int) - Item.tankEmpty s.seq.values k) * 1000).tdiv
      ((Item.tankFull s.seq.values k : Int) - Item.tankEmpty s.seq.values k)) 1000)).toNat
    (s.tankRead raw temp k).prev = some x
      ∧ (s.tankRead raw temp k).level = if s.view.driveAccepted = false
          ∧ ((s.water.tanks.get k).prev.any fun p => decide (x ≤ p + 20) && decide (p ≤ x + 20)) = true
        then some x else (s.water.tanks.get k).level := by
  unfold State.tankRead probeLevel
  rw [if_neg h]
  refine ⟨rfl, ?_⟩
  unfold Tank.reading
  dsimp only
  refine if_congr ?_ rfl rfl
  rw [Bool.and_eq_true, Bool.not_eq_true']
  refine and_congr_right fun _ => ?_
  cases (s.water.tanks.get k).prev <;> rfl

theorem tankRead_declared : (s.tankRead raw temp k).declared = (s.water.tanks.get k).declared
    ∧ (s.tankRead raw temp k).count = (s.water.tanks.get k).count := by
  unfold State.tankRead Tank.reading
  split <;> exact ⟨rfl, rfl⟩

end

theorem Tank.condition_eq (k : Fin 3) (x : Tank) : x.condition k = x.level.any fun l =>
    if k = 0 then (if x.declared = true then decide (150 ≤ l) else decide (l < 100))
    else if x.declared = true then decide (l < 850) else decide (900 ≤ l) := by
  unfold Tank.condition
  match level : x.level, k, declared : x.declared with
  | none, _, _ => rfl
  | some l, 0, true => rfl
  | some l, 0, false => rfl
  | some l, 1, true => rfl
  | some l, 1, false => rfl
  | some l, 2, true => rfl
  | some l, 2, false => rfl

/-- What a reading leaves of a tank. -/
theorem tanksRead_spec (s : State) (raw : Fin 3 → Nat) (temp : Fin 3 → Int) (k : Fin 3) :
    let old := s.water.tanks.get k
    let new := (s.tanksRead raw temp).water.tanks.get k
    let e := Item.tankEmpty s.seq.values k
    let full := Item.tankFull s.seq.values k
    let cond : Bool := new.level.any fun l =>
      if k = 0 then (if old.declared = true then decide (150 ≤ l) else decide (l < 100))
      else if old.declared = true then decide (l < 850) else decide (900 ≤ l)
    new.temp = max (-400) (min (temp k) 850) ∧ (e = full → new.level = old.level ∧ new.prev = old.prev)
      ∧ (e ≠ full → let x := (max 0 (min ((((raw k : Int) - e) * 1000).tdiv ((full : Int) - e)) 1000)).toNat
          new.prev = some x
            ∧ new.level = if s.view.driveAccepted = false
                ∧ (old.prev.any fun p => decide (x ≤ p + 20) && decide (p ≤ x + 20)) = true
              then some x else old.level)
      ∧ new.declared = (old.declared != (cond && decide (3 ≤ old.count + 1)))
      ∧ new.count = (if cond = true ∧ old.count + 1 < 3 then old.count + 1 else 0) := by
  dsimp only
  rw [tanksRead_tank]
  have unfitted := tankRead_unfitted s (raw k) (temp k) k
  have fitted := tankRead_fitted s (raw k) (temp k) k
  have warm := tankRead_temp s (raw k) (temp k) k
  obtain ⟨declared, count⟩ := tankRead_declared s (raw k) (temp k) k
  generalize s.tankRead (raw k) (temp k) k = x at *
  refine ⟨warm, unfitted, fitted, ?_, ?_⟩
  · show (x.declared != (x.count3 k).2) = _
    have full : (x.count3 k).2 = (x.condition k && decide (3 ≤ x.count + 1)) := by
      rw [Bool.eq_iff_iff, Tank.count3, countTo_full, Bool.and_eq_true, decide_eq_true_eq]
    rw [full, Tank.condition_eq, declared, count]
    rfl
  · show (x.count3 k).1 = _
    rw [Tank.count3, countTo_count, Tank.condition_eq, declared, count]
    rfl

/-! ### Where frost cycling begins (R91) -/

section
variable {m : State}

theorem cyclingBegins_drains (h : m.valveClosed = false) : m.cyclingBegins = m.drain := if_pos (by simp [h])

theorem cyclingBegins_waits (h : ¬ m.valveClosed = false) (k : m.inRun = false) :
    m.cyclingBegins = m.setWater { m.water with cycle := .timing, dueOnRun := true } :=
  (if_neg (by simpa using h)).trans (if_neg (by simp [k]))

theorem cyclingBegins_takes (h : ¬ m.valveClosed = false) (k : ¬ m.inRun = false) :
    m.cyclingBegins = (m.timing 0).takeDue :=
  (if_neg (by simpa using h)).trans (if_pos (by simpa using k))

end

/-! ### The monitors of a reading -/

section
variable {s v : State} (read : s.Read v)
include read

/-- A tank's monitor stands through the later stages of a reading. -/
theorem State.Read.tankShown (k : Fin 3) : v.guardReads.dumpReads.pumpReads.status.summary.get (Mon.tank k)
    = v.status.summary.get (Mon.tank k) := by
  have pump : Fact (frostReach.loads loadPump) := ⟨.inl rfl⟩
  have heater : Fact (frostReach.loads loadHeater) := ⟨.inr rfl⟩
  have tends := ((guardReads_tends (k := frostReach) (.inr rfl) v (.inl rfl)).trans
    ((dumpReads_tends (k := frostReach) (.inr rfl) _).trans (pumpReads_tends _))) read.ok (waitWithin_exists v).choose_spec
  refine tends.2.2.summary _ ?_
  show ¬ (Mon.tank k = Mon.frostGuard ∨ Mon.tank k = Mon.valveFault)
  decide +revert

theorem State.Read.guardShown (turned : v.guardCounted.guard ≠ s.water.guard) :
    v.guardReads.dumpReads.pumpReads.status.summary.get Mon.frostGuard = v.guardCounted.guard := by
  have pump : Fact (valveReach.loads loadPump) := ⟨.inl rfl⟩
  have heater : Fact (valveReach.loads loadHeater) := ⟨.inr rfl⟩
  have ok := (guardReads_calm v read.ok).1
  have tends := ((dumpReads_tends (k := valveReach) rfl v.guardReads).trans (pumpReads_tends _)) ok
    (waitWithin_exists v.guardReads).choose_spec
  rw [tends.2.2.summary _ (show ¬ Mon.frostGuard = Mon.valveFault by decide)]
  exact guardReads_summary read.ok (by rw [read.guarded]; exact turned)

/-- The count of the dump, and whether a reading opens the valve (R97). -/
theorem State.Read.dumpReads_eq : v.guardReads.dumpReads = if s.inRun then
      let n := countTo 5 v.guardReads.dumpsNow s.water.dumpCount
      let u := v.guardReads.setWater { v.guardReads.water with dumpCount := n.1 }
      if n.2 then u.openDump else u
    else v.guardReads := by
  have ok := (guardReads_calm v read.ok).1
  have run : v.guardReads.inRun = s.inRun := by
    rw [State.inRun, (guardReads_calm v read.ok).2.1.seq, read.probed.seq]
    rfl
  have count : v.guardReads.water.dumpCount = s.water.dumpCount := by
    rw [read.cycled, guardCounted_rest, read.probed.water]
  rw [Sys2Proof.Machine.dumpReads_eq ok, run, count]

/-- The tanks, the guard and the reading's own timer stand through the later stages. -/
theorem State.Read.settled : let t := v.guardReads.dumpReads.pumpReads
    t.water.tanks = v.water.tanks ∧ t.water.guard = v.guardCounted.guard ∧ t.water.guardCount = v.guardCounted.guardCount
      ∧ t.water.readTimer = s.water.readTimer := by
  have cycled := read.cycled
  have calm := guardReads_calm v read.ok
  have seq : v.guardReads.seq = s.seq := calm.2.1.seq.trans read.probed.seq
  have fields : v.guardReads.water.tanks = v.water.tanks ∧ v.guardReads.water.guard = v.guardCounted.guard
      ∧ v.guardReads.water.guardCount = v.guardCounted.guardCount
      ∧ v.guardReads.water.readTimer = s.water.readTimer := by
    refine ⟨?_, ?_, ?_, ?_⟩ <;> rw [cycled]
    · rw [guardCounted_rest]
    · rw [guardCounted_rest, read.probed.water]
  have last : ∀ u : State, u.water.tanks = v.guardReads.water.tanks ∧ u.water.guard = v.guardReads.water.guard
      ∧ u.water.guardCount = v.guardReads.water.guardCount ∧ u.water.readTimer = v.guardReads.water.readTimer →
      u.pumpReads.water.tanks = v.water.tanks ∧ u.pumpReads.water.guard = v.guardCounted.guard
        ∧ u.pumpReads.water.guardCount = v.guardCounted.guardCount ∧ u.pumpReads.water.readTimer = s.water.readTimer := by
    intro u ⟨tanks, guard, count, timer⟩
    have rest := pumpReads_cycled u
    refine ⟨?_, ?_, ?_, ?_⟩ <;> rw [rest]
    · exact tanks.trans fields.1
    · exact guard.trans fields.2.1
    · exact count.trans fields.2.2.1
    · exact timer.trans fields.2.2.2
  dsimp only
  rw [read.dumpReads_eq]
  split
  · next run =>
    dsimp only
    split
    · generalize hu : v.guardReads.setWater _ = u
      have sequ : u.seq = s.seq := by rw [← hu]; exact seq
      obtain ⟨-, -, -, -, -, -, -, guard, count, tanks, timer⟩ := openDump_water (hu ▸ (setWater_calm _ _ calm.1).1)
        (by rw [sequ]; exact read.fitted) (by rw [State.inRun, sequ]; exact run)
      exact last _ ⟨tanks.trans (by rw [← hu]; rfl), guard.trans (by rw [← hu]; rfl), count.trans (by rw [← hu]; rfl),
        timer.trans (by rw [← hu]; rfl)⟩
    · exact last _ ⟨rfl, rfl, rfl, rfl⟩
  · exact last _ ⟨rfl, rfl, rfl, rfl⟩

/-- The valve opens at the fifth counted reading (R97). -/
theorem State.Read.opens (run : s.inRun = true) (counted : v.guardReads.dumpsNow = true) (full : 5 ≤ s.water.dumpCount + 1) :
    let t := v.guardReads.dumpReads.pumpReads
    t.water.dumpCmdOpen = true ∧ t.water.dumpDrive = .toOpen ∧ t.water.cycle = .drained ∧ t.water.owed = 0
      ∧ t.water.dumpCount = 0 ∧ t.water.pump = false ∧ (t.claim loadPump).st = .idle := by
  have calm := guardReads_calm v read.ok
  have seq : v.guardReads.seq = s.seq := calm.2.1.seq.trans read.probed.seq
  rw [read.dumpReads_eq, if_pos run]
  dsimp only
  rw [if_pos (countTo_full.mpr ⟨counted, full⟩)]
  generalize hu : v.guardReads.setWater _ = u
  have sequ : u.seq = s.seq := by rw [← hu]; exact seq
  exact openDump_reads (hu ▸ (setWater_calm _ _ calm.1).1) (by rw [sequ]; exact read.fitted)
    (by rw [State.inRun, sequ]; exact run)

section
variable (more : ¬ (s.inRun = true ∧ v.guardReads.dumpsNow = true ∧ 5 ≤ s.water.dumpCount + 1))
include more

/-- A reading that does not open the valve goes on to the pump conditions with no more than its count. -/
theorem State.Read.counts : ∃ c, v.guardReads.dumpReads = v.guardReads.setWater { v.guardReads.water with dumpCount := c }
    ∧ (s.inRun = true → c = if v.guardReads.dumpsNow = true then s.water.dumpCount + 1 else 0) := by
  rw [read.dumpReads_eq]
  by_cases run : s.inRun = true
  · rw [if_pos run]
    dsimp only
    rw [if_neg (by rw [countTo_full]; exact fun h => more ⟨run, h⟩)]
    refine ⟨_, rfl, fun _ => ?_⟩
    rw [countTo_count]
    refine if_congr ⟨And.left, fun h => ⟨h, ?_⟩⟩ rfl rfl
    by_contra full
    exact more ⟨run, h, by omega⟩
  · rw [if_neg run]
    exact ⟨_, rfl, fun h => absurd h run⟩

/-- The command stands, and frost cycling begins where the guard is newly declared (R91, R92). -/
theorem State.Read.begins : let t := v.guardReads.dumpReads.pumpReads
    t.water.dumpCmdOpen = s.water.dumpCmdOpen ∧ (s.inRun = true →
        t.water.dumpCount = if v.guardReads.dumpsNow = true then s.water.dumpCount + 1 else 0)
      ∧ (s.water.guard = false → v.guardCounted.guard = true →
          if s.valveClosed = false then
            t.water.cycle = .drained ∧ t.water.owed = 0 ∧ t.water.pump = false ∧ (t.claim loadPump).st = .idle
          else if s.inRun = false then
            t.water.cycle = .timing ∧ t.water.dueOnRun = true ∧ t.water.owed = 0 ∧ (t.claim loadPump).st = .idle
          else if v.freshOk = false then
            t.water.cycle = .timing ∧ t.water.dueTimer = some (Item.frostIntervalMs s.seq.values) ∧ t.water.owed = 0
          else if (s.claim loadPump).st = .held then
            t.water.cycle = .circulating ∧ t.water.circTimer = some 120000 ∧ t.water.demand = true
              ∧ t.water.pump = true ∧ t.water.owed = 0 ∧ t.claim loadPump = { s.claim loadPump with rank := 1 }
          else if s.passes loadPump 1 (Item.pumpDraw s.seq.values) = true then
            t.water.cycle = .asking ∧ t.water.owed = 0 ∧ (t.claim loadPump).st = .contest ∧ (t.claim loadPump).rank = 1
              ∧ (t.claim loadPump).asked = Item.pumpDraw s.seq.values ∧ (t.claim loadPump).single = true
          else t.water.cycle = .timing ∧ t.water.dueTimer = some (Item.frostIntervalMs s.seq.values) ∧ t.water.owed = 1
            ∧ t.water.demand = false) := by
  obtain ⟨c, eq, count⟩ := read.counts more
  have cycled := read.cycled
  rw [eq]
  generalize hu : v.guardReads.setWater { v.guardReads.water with dumpCount := c } = u
  have after : u.water = { v.guardReads.water with dumpCount := c } := by rw [← hu]; rfl
  have last := pumpReads_cycled u
  refine ⟨?_, fun run => ?_, fun off on => ?_⟩
  · rw [last, after, cycled, guardCounted_rest, read.probed.water]
  · rw [last, after]
    exact count run
  · rw [guardReads_declares (read.guarded.trans off) on] at hu
    have unfrosted := read.unfrosted off
    have probed := guardDeclared_probed v
    have seq : v.guardDeclared.seq = s.seq := probed.seq.trans read.probed.seq
    have broker : v.guardDeclared.broker = s.broker := probed.broker.trans read.probed.broker
    have run : v.guardDeclared.inRun = s.inRun := by rw [State.inRun, seq]; rfl
    have claim : v.guardDeclared.claim loadPump = s.claim loadPump := by rw [State.claim, broker]; rfl
    have water : v.guardDeclared.water = { s.water with
        tanks := v.water.tanks, guard := v.guardCounted.guard, guardCount := v.guardCounted.guardCount } := by
      rw [guardDeclared_water, guardCounted_rest, read.probed.water]
    have closed : v.guardDeclared.valveClosed = s.valveClosed :=
      valveClosed_congr (probed.pins.trans read.probed.pins) (by rw [water])
    have fresh : v.guardDeclared.freshOk = v.freshOk := freshOk_congr (by rw [water])
    have passes := passes_congr (s := s) (t := v.guardDeclared) broker (probed.view.trans read.probed.view) seq
      (probed.supply.trans read.probed.supply) (probed.fault.trans read.probed.fault) loadPump 1 (Item.pumpDraw s.seq.values)
    rw [← run, ← closed, ← fresh, ← claim, ← passes, ← seq]
    generalize v.guardDeclared = m at *
    rw [← hu]
    by_cases shut : m.valveClosed = false
    · rw [cyclingBegins_drains shut, if_pos shut]
      exact begun_drains unfrosted c shut
    rw [if_neg shut]
    by_cases still : m.inRun = false
    · rw [cyclingBegins_waits shut still, if_pos still]
      exact begun_waits unfrosted c still
    rw [cyclingBegins_takes shut still, if_neg still]
    have runs : m.inRun = true := by simpa using still
    by_cases low : m.freshOk = false
    · rw [if_pos low]
      exact begun_skips unfrosted c runs low
    rw [if_neg low]
    have enough : m.freshOk = true := by simpa using low
    by_cases held : (m.claim loadPump).st = .held
    · rw [if_pos held]
      exact begun_takesOver unfrosted c runs enough (by simpa using shut) held
    rw [if_neg held]
    by_cases pass : m.passes loadPump 1 (Item.pumpDraw m.seq.values) = true
    · rw [if_pos pass]
      obtain ⟨cycle, owed, contest⟩ := begun_asks unfrosted c runs enough held pass
      rw [contest]
      exact ⟨cycle, owed, rfl, rfl, rfl, rfl⟩
    · rw [if_neg pass]
      exact begun_postponed unfrosted c runs enough held (by simpa using pass)

end
end

end Sys2Proof.Machine
end

