-- ==== Sys2Proof/Proofs/WaterReadings.lean ====
section
/-! PROOFS. A reading event of the Water Manager (R81 to R97). -/

namespace Sys2Proof.Machine

theorem freshOk_any (s : State) : s.freshOk = (s.water.tanks.get 0).level.any fun l => decide (30 ≤ l) := by
  unfold State.freshOk
  cases (s.water.tanks.get 0).level <;> rfl

theorem freshAbove30_any (s : State) : s.freshAbove30 = (s.water.tanks.get 0).level.any fun l => decide (30 < l) := by
  unfold State.freshAbove30
  cases (s.water.tanks.get 0).level <;> rfl

end Sys2Proof.Machine

namespace Sys2Proof.Proofs
open Sys2Proof.Machine

/-- Settles O48, the stages of a reading one after the other: the tanks by `tanksRead_spec`, the guard by
`guardCounted_guard`, the dump count by `State.Read.opens`, and what follows by `State.Read.begins`. -/
theorem waterReading : Obligations.WaterReading := by
  unfold Obligations.WaterReading
  intro s raw temp fits acts timed
  obtain ⟨fitted, -⟩ : s.seq.fns.water = true ∧ s.inReset = false := by simpa [State.waterActs] using acts
  generalize hw : s.setWater { s.water with readTimer := some Config.readingMs } = w
  have fits' : w.Fits := hw ▸ fits.rereads _
  generalize hv : w.tanksRead raw temp = v
  have probed : Probed w v := hv ▸ tanksRead_probed w raw temp
  have arm : exec (.waterReadingEvent (raw 0) (raw 1) (raw 2) (temp 0) (temp 1) (temp 2)) s
      = .next (State.publish s v.guardReads.dumpReads.pumpReads) := by
    rw [← hv, ← hw]
    show done s _ = _
    rw [if_pos ⟨acts, timed⟩]
    rfl
  have calm := waterReads_calm w (raw 0) (raw 1) (raw 2) (temp 0) (temp 1) (temp 2)
  have wet := waterReads_wet w (raw 0) (raw 1) (raw 2) (temp 0) (temp 1) (temp 2)
  have stages : w.waterReads (raw 0) (raw 1) (raw 2) (temp 0) (temp 1) (temp 2)
      = v.guardReads.dumpReads.pumpReads := by rw [← hv]; rfl
  rw [stages] at calm wet
  have ok : v.Ok := by
    rw [← hv]
    exact ((readTank_calm w _ _ _).trans ((readTank_calm _ _ _ _).trans ((readTank_calm _ _ _ _).trans
      ((tankMonitor_calm _ _).trans ((tankMonitor_calm _ _).trans (tankMonitor_calm _ _)))))
      fits'.sound.ok).1
  have read : w.Read v := ⟨ok, probed, by rw [← hw]; exact fitted, fits'⟩
  obtain ⟨posted, view⟩ := calm_posted s fits.sound fits'.sound.sane (by rw [← hw]; rfl) (by rw [← hw]; rfl)
    (by rw [← hw]; rfl) calm
  have wet' : Wet s v.guardReads.dumpReads.pumpReads := ((hw ▸ setWater_wet s _ : Wet s w)).trans wet
  obtain ⟨tanks, guard, count, timer⟩ := read.settled
  have tank := tanksRead_spec w raw temp
  have shown := tanksRead_summary w raw temp
  rw [hv] at tank shown
  have cold : v.freshTemp = max (-400) (min (temp 0) 850) := (tank 0).1
  have still : v.water = { s.water with tanks := v.water.tanks, readTimer := v.water.readTimer } := by
    rw [probed.water, ← hw]
    rfl
  have stood : v.guardReads.dumpsNow = (v.guardCounted.guard && s.valveClosed && decide (v.freshTemp ≤ 5)
      && !((s.seq.fns.heat && s.climate.heater == .running) || s.entries.any Entry.showsHeater) && v.freshAbove30) := by
    have dumps := read.dumps
    rw [← hw] at dumps
    exact dumps
  have counted : (s.inRun && v.guardCounted.guard && s.valveClosed && decide (v.freshTemp ≤ 5)
      && !((s.seq.fns.heat && s.climate.heater == .running) || s.entries.any Entry.showsHeater) && v.freshAbove30)
      = (s.inRun && v.guardReads.dumpsNow) := by
    rw [stood]
    simp only [Bool.and_assoc]
  have base : w.inRun = s.inRun ∧ w.water.dumpCount = s.water.dumpCount ∧ w.water.guard = s.water.guard
      ∧ w.water.dumpCmdOpen = s.water.dumpCmdOpen ∧ w.valveClosed = s.valveClosed ∧ w.claim loadPump = s.claim loadPump
      ∧ w.passes loadPump 1 (Item.pumpDraw s.seq.values) = s.passes loadPump 1 (Item.pumpDraw s.seq.values)
      ∧ w.seq = s.seq := by
    rw [← hw]
    exact ⟨rfl, rfl, rfl, rfl, rfl, rfl, rfl, rfl⟩
  obtain ⟨run, dumpCount, guarded, cmd, closed, claim, passes, seq⟩ := base
  have guardV : v.water.guard = s.water.guard := by rw [still]
  have countV : v.water.guardCount = s.water.guardCount := by rw [still]
  refine ⟨_, arm, posted.wet wet', view, posted.water ▸ timer.trans (by rw [← hw]; rfl), fun k => ?_, ?_, ?_, ?_, ?_⟩
  · obtain ⟨warm, unfitted, filled, declared, counts⟩ := tank k
    rw [posted.water, posted.status, read.tankShown, tanks]
    rw [← hw] at unfitted filled declared counts shown
    exact ⟨warm, unfitted, filled, declared, counts, shown k⟩
  · rw [posted.water, guard, guardCounted_guard, guardV, countV, cold]
  · rw [posted.water, count, guardCounted_count, guardV, countV, cold]
  · rw [posted.water, posted.status, guard]
    intro turned
    exact read.guardShown (by rw [guarded]; exact turned)
  · dsimp only
    rw [posted.water, posted.claim, guard, tanks, ← freshAbove30_any, ← freshOk_any, ← cold, counted]
    by_cases opens : (s.inRun && v.guardReads.dumpsNow) = true ∧ 5 ≤ s.water.dumpCount + 1
    · rw [if_pos opens]
      obtain ⟨now, full⟩ := opens
      obtain ⟨runs, now⟩ := Bool.and_eq_true_iff.mp now
      exact read.opens (run.trans runs) now (by rw [dumpCount]; exact full)
    · rw [if_neg opens]
      have begins := read.begins (by rw [run, dumpCount, ← and_assoc, ← Bool.and_eq_true]; exact opens)
      rw [run, dumpCount, guarded, cmd, closed, claim, seq, passes] at begins
      obtain ⟨stands, counts, begins⟩ := begins
      refine ⟨stands, fun runs => ?_, fun off on => ?_⟩
      · rw [runs, Bool.true_and]
        exact counts runs
      · exact begins off on

end Sys2Proof.Proofs
end

