-- ==== Sys2Proof/Proofs/Heater.lean ====
section
/-! PROOFS. The heater's order with its claim, a purge's beginning, and an ask of a heater that is Off (R111 to R114). -/

namespace Sys2Proof.Machine

/-! ### The heater and its claim (R108, R111 to R116) -/

/-- The heater, its timers and its claim agree: what `climateFits` says of the heater, with no claim Forced and no standing
ask that is a Try. -/
structure HeaterOrder (c : Climate) (v : Values) (k : Claim) : Prop where
  zones : ∀ z, (c.zones.get z).demand ≤ 100
  single : k.st = .contest → k.single = true → k.rank = 1
  hen : c.hen = true ↔ c.heater = .starting ∨ c.heater = .running
  held : k.st = .held ↔ c.heater = .starting ∨ c.heater = .running ∨ c.heater = .purging
  asks : k.st = .contest ∨ k.st = .waiting → c.heater = .off ∧ k.asked = Item.startDraw v
  starting : c.heater = .starting → k.held = Item.startDraw v
  running : c.heater = .running → k.held = Item.runDraw v
  cold : c.hen = false → c.hdem = 0
  hdem : c.hdem ≤ 100
  startTimer : c.startTimer.isSome = true ↔ c.heater = .starting
  runTimer : c.runTimer.isSome = true → c.heater = .running
  purgeTimer : c.purgeTimer.isSome = true ↔ c.heater = .purging
  locked : c.heater = .lockout → c.lockout = true
  lockout : c.lockout = true → c.heater = .lockout ∨ c.heater = .purging
  failures : c.failures ≤ 2
  unforced : k.st ≠ .forced
  standing : k.st = .waiting → k.single = false

def State.heaterFits (s : State) : Prop := HeaterOrder s.climate s.seq.values (s.claim loadHeater)

theorem State.Fits.heater {s : State} (fits : s.Fits) : s.heaterFits := by
  obtain ⟨zones, -, single, hen, held, asks, starting, running, cold, hdem, startTimer, runTimer, purgeTimer, locked, lockout, -,
    failures⟩ := fits.climate
  obtain ⟨-, -, claims⟩ := fits.claims
  obtain ⟨-, -, -, forced, -, -, -, standing, -⟩ := claims loadHeater
  exact ⟨zones, single, hen, held, asks, starting, running, cold, hdem, startTimer, runTimer, purgeTimer, locked, lockout,
    failures, fun e => absurd (forced e) (by decide), standing⟩

/-- What the heater's order rests on: the Climate Controller, the values in force and the heater's claim. -/
theorem State.heaterFits.congr {s t : State} (h : s.heaterFits) (climate : t.climate = s.climate)
    (seq : t.seq.values = s.seq.values) (claim : t.claim loadHeater = s.claim loadHeater) : t.heaterFits := by
  unfold State.heaterFits at *
  rwa [climate, seq, claim]

/-- A claim that asks is a heater's that is Off. -/
theorem HeaterOrder.asking {c : Climate} {v : Values} {k d : Claim} (h : HeaterOrder c v k)
    (off : c.heater = .off) (st : d.st = .contest ∨ d.st = .waiting) (asked : d.asked = Item.startDraw v)
    (single : d.st = .contest → d.single = true → d.rank = 1) (standing : d.st = .waiting → d.single = false) :
    HeaterOrder c v d := by
  have held : ¬ (c.heater = .starting ∨ c.heater = .running ∨ c.heater = .purging) := by rw [off]; simp
  refine { h with single, standing, held := ⟨fun e => ?_, fun e => absurd e held⟩, asks := fun _ => ⟨off, asked⟩,
                  starting := ?_, running := ?_, unforced := ?_ }
  · rcases st with k | k <;> rw [k] at e <;> cases e
  · rw [off]; nofun
  · rw [off]; nofun
  · rcases st with k | k <;> rw [k] <;> nofun

/-- A heater whose claim is Idle is Off or in Lockout. -/
theorem HeaterOrder.idle {c : Climate} {v : Values} {k d : Claim} (h : HeaterOrder c v k)
    (off : c.heater = .off ∨ c.heater = .lockout) (st : d.st = .idle) : HeaterOrder c v d := by
  refine { h with single := ?_, standing := ?_, held := ?_, asks := ?_, starting := ?_, running := ?_, unforced := ?_ }
  · rw [st]; nofun
  · rw [st]; rcases off with e | e <;> simp [e]
  · rw [st]; nofun
  · rcases off with e | e <;> rw [e] <;> nofun
  · rcases off with e | e <;> rw [e] <;> nofun
  · rw [st]; nofun
  · rw [st]; nofun

/-- A heater's claim that only waits in other owners' events keeps the order. -/
theorem State.heaterFits.stirs {s t : State} (h : s.heaterFits) (climate : t.climate = s.climate)
    (seq : t.seq.values = s.seq.values) (stirs : (s.claim loadHeater).stirs (t.claim loadHeater)) : t.heaterFits := by
  unfold State.heaterFits at *
  rw [climate, seq]
  rcases stirs with same | ⟨waits, moved⟩
  · rwa [same]
  obtain ⟨off, asked⟩ := h.asks (.inr waits)
  have standing := h.standing waits
  rcases moved with e | ⟨n, e⟩ <;> rw [e]
  · exact h.asking off (.inr rfl) asked nofun fun _ => standing
  · exact h.asking off (.inl rfl) asked (fun _ k => by rw [show (s.claim loadHeater).single = true from k] at standing; cases standing)
      nofun

/-! ### A purge begins (R114) -/

/-- The Climate Controller as a purge begins. -/
def State.purged (s : State) : Climate :=
  { s.climate with
    heater := .purging, hen := false, hdem := 0, startTimer := none, runTimer := none
    purgeTimer := some 180000, remembered := s.heaterWanted }

theorem enterPurging_climate (s : State) : s.enterPurging.climate = s.purged := by
  unfold State.enterPurging
  dsimp only
  split
  · exact (lower_shared _ _ _).climate
  · rfl

/-- A claim that draws is lowered to the run draw where it is above it (R114). -/
theorem enterPurging_claim {s : State} (draws : (s.claim loadHeater).drawing = true) (o : s.Ok)
    (run : 1 ≤ Item.runDraw s.seq.values) : s.enterPurging.claim loadHeater =
      if Item.runDraw s.seq.values < (s.claim loadHeater).held then (s.claim loadHeater).lowered (Item.runDraw s.seq.values)
      else s.claim loadHeater := by
  unfold State.enterPurging
  dsimp only
  generalize hu : s.setClimate _ = u
  have claim : u.claim loadHeater = s.claim loadHeater := by rw [← hu]; rfl
  have seq : u.seq = s.seq := by rw [← hu]; rfl
  have ok : u.Ok := hu ▸ (setClimate_calm s _ o).1
  rw [claim, seq]
  split
  · next above =>
    rw [(lower_claim ok run (by rw [claim]; exact draws) (by rw [claim]; omega)).2, claim]
  · exact claim

theorem enterPurging_held {s : State} (held : (s.claim loadHeater).st = .held) (o : s.Ok)
    (run : 1 ≤ Item.runDraw s.seq.values) : (s.enterPurging.claim loadHeater).st = .held
      ∧ (s.enterPurging.claim loadHeater).held = min (s.claim loadHeater).held (Item.runDraw s.seq.values)
      ∧ (s.enterPurging.claim loadHeater).rank = (s.claim loadHeater).rank := by
  rw [enterPurging_claim (by simp [Claim.drawing, held]) o run]
  split
  · next above => exact ⟨held, (min_eq_right (le_of_lt above)).symm, rfl⟩
  · next below => exact ⟨held, (min_eq_left (not_lt.mp below)).symm, rfl⟩

/-! ### The rank follows the reason (R111, R114) -/

/-- A Re-rank of a Held claim leaves the heater, or purges it where the claim yields at once. -/
theorem heaterRerank_cases {s : State} (held : (s.claim loadHeater).st = .held) (o : s.Ok)
    (run : 1 ≤ Item.runDraw s.seq.values) : (s.heaterRerank.claim loadHeater).st = .held
      ∧ (s.heaterRerank.climate = s.climate ∧ (s.heaterRerank.claim loadHeater).held = (s.claim loadHeater).held
          ∨ (s.climate.heater ≠ .purging ∧ s.climate.heater ≠ .lockout) ∧ s.heaterRerank.climate = s.purged
            ∧ (s.heaterRerank.claim loadHeater).held = min (s.claim loadHeater).held (Item.runDraw s.seq.values)) := by
  unfold State.heaterRerank
  dsimp only
  split
  · have claim := rerank_held_claim s.heaterRank held
    have low : s.heaterRank ≤ 6 := by unfold State.heaterRank; split <;> decide
    obtain ⟨ok, asked⟩ := rerank_asks s loadHeater s.heaterRank low o
    generalize s.rerank loadHeater s.heaterRank = r at *
    obtain ⟨u, reply⟩ := r
    have claim : u.claim loadHeater = { s.claim loadHeater with rank := s.heaterRank } := claim
    have climate : u.climate = s.climate := asked.climate
    have seq : u.seq = s.seq := asked.seq
    have stands : (u.claim loadHeater).st = .held ∧ (u.climate = s.climate ∧ (u.claim loadHeater).held = (s.claim loadHeater).held
        ∨ (s.climate.heater ≠ .purging ∧ s.climate.heater ≠ .lockout) ∧ u.climate = s.purged
          ∧ (u.claim loadHeater).held = min (s.claim loadHeater).held (Item.runDraw s.seq.values)) := by
      rw [claim]
      exact ⟨held, .inl ⟨climate, rfl⟩⟩
    split
    · next e =>
      obtain ⟨rfl, -⟩ := Prod.mk.inj e
      have done := complete_claim u loadHeater
      have okc := (complete_calm u loadHeater ok).1
      have climatec : (u.complete loadHeater).climate = s.climate := (complete_shared _ _).climate.trans climate
      have seqc : (u.complete loadHeater).seq = s.seq := (complete_shared _ _).seq.trans seq
      rw [claim] at done
      generalize u.complete loadHeater = x at *
      have heldx : (x.claim loadHeater).st = .held ∧ (x.claim loadHeater).held = (s.claim loadHeater).held := by
        rw [done]; exact ⟨rfl, rfl⟩
      have purges : (x.enterPurging.claim loadHeater).st = .held ∧ x.enterPurging.climate = s.purged
          ∧ (x.enterPurging.claim loadHeater).held = min (s.claim loadHeater).held (Item.runDraw s.seq.values) := by
        obtain ⟨st, amount, -⟩ := enterPurging_held heldx.1 okc (by rw [seqc]; exact run)
        refine ⟨st, ?_, by rw [amount, heldx.2, seqc]⟩
        rw [enterPurging_climate]
        unfold State.purged State.heaterWanted State.inRun
        rw [climatec, seqc]
      obtain ⟨pst, pclimate, pheld⟩ := purges
      unfold State.heaterYields
      rw [climatec]
      cases heater : s.climate.heater with
      | purging => exact ⟨heldx.1, .inl ⟨climatec, heldx.2⟩⟩
      | lockout => exact ⟨heldx.1, .inl ⟨climatec, heldx.2⟩⟩
      | _ => exact ⟨pst, .inr ⟨⟨nofun, nofun⟩, pclimate, pheld⟩⟩
    · next e =>
      obtain ⟨rfl, -⟩ := Prod.mk.inj e
      exact stands
  · exact ⟨held, .inl ⟨rfl, rfl⟩⟩

/-! ### A heater that is Off asks (R111) -/

/-- A heater that has no claim asks for its start draw at the reason's rank: with frost service by a Try, and by a standing
Ask where that is refused. -/
theorem askHeater_claim {s : State} (idle : (s.claim loadHeater).drawing = false) (o : s.Ok)
    (draw : 1 ≤ Item.startDraw s.seq.values ∧ Item.startDraw s.seq.values ≤ 30000) :
    (s.askHeater.claim loadHeater).asked = Item.startDraw s.seq.values
      ∧ (s.askHeater.claim loadHeater).rank = s.heaterRank
      ∧ ((s.askHeater.claim loadHeater).st = .contest ∧ ((s.askHeater.claim loadHeater).single = true → s.heaterRank = 1)
        ∨ (s.askHeater.claim loadHeater).st = .waiting ∧ (s.askHeater.claim loadHeater).single = false) := by
  obtain ⟨one, le⟩ := draw
  have amount : min (Item.startDraw s.seq.values) 30000 = Item.startDraw s.seq.values := by omega
  have standing : ∀ u : State, u.Ok → (u.claim loadHeater).drawing = false → u.seq = s.seq → ∀ rank, rank ≠ 0 →
      let t := (u.ask loadHeater rank (Item.startDraw s.seq.values) false).1
      (t.claim loadHeater).asked = Item.startDraw s.seq.values ∧ (t.claim loadHeater).rank = rank
        ∧ (t.claim loadHeater).single = false
        ∧ ((t.claim loadHeater).st = .contest ∨ (t.claim loadHeater).st = .waiting) := by
    intro u ok draws seq rank pos
    dsimp only
    cases passes : u.passes loadHeater rank (min (Item.startDraw s.seq.values) 30000) with
    | true =>
      rw [(ask_passes ok _ false one draws pos passes).2, amount]
      exact ⟨rfl, rfl, rfl, .inl rfl⟩
    | false =>
      rw [(ask_fails ok _ false one draws pos passes rfl).2, amount]
      exact ⟨rfl, rfl, rfl, .inr rfl⟩
  unfold State.askHeater State.heaterRank
  dsimp only
  split
  · cases passes : s.passes loadHeater 1 (min (Item.startDraw s.seq.values) 30000) with
    | true =>
      obtain ⟨reply, claim⟩ := ask_passes o (Item.startDraw s.seq.values) true one idle (by decide) passes
      generalize s.ask loadHeater 1 (Item.startDraw s.seq.values) true = r at *
      obtain ⟨u, answer⟩ := r
      subst reply
      show (u.claim loadHeater).asked = _ ∧ (u.claim loadHeater).rank = 1
        ∧ ((u.claim loadHeater).st = .contest ∧ (_ → 1 = 1) ∨ (u.claim loadHeater).st = .waiting ∧ (u.claim loadHeater).single = false)
      rw [show u.claim loadHeater = _ from claim, amount]
      exact ⟨rfl, rfl, .inl ⟨rfl, fun _ => rfl⟩⟩
    | false =>
      obtain ⟨reply, claim⟩ := try_fails o (Item.startDraw s.seq.values) true one idle (by decide) passes rfl
      obtain ⟨ok, asked⟩ := ask_asks s loadHeater 1 (Item.startDraw s.seq.values) true (by decide) o
      generalize s.ask loadHeater 1 (Item.startDraw s.seq.values) true = r at *
      obtain ⟨u, answer⟩ := r
      subst reply
      obtain ⟨amount, rank, single, st⟩ := standing (u.setClimate { u.climate with tryFailed := true })
        (setClimate_calm u _ ok).1 (by show (u.claim loadHeater).drawing = false; rw [show u.claim loadHeater = _ from claim]; rfl)
        asked.seq 1 (by decide)
      exact ⟨amount, rank, st.imp (fun e => ⟨e, fun _ => rfl⟩) fun e => ⟨e, single⟩⟩
  · obtain ⟨amount, rank, single, st⟩ := standing s o idle rfl 4 (by decide)
    exact ⟨amount, rank, st.imp (fun e => ⟨e, fun k => by rw [single] at k; cases k⟩) fun e => ⟨e, single⟩⟩

theorem askHeater_climate (s : State) :
    s.askHeater.climate = { s.climate with tryFailed := s.askHeater.climate.tryFailed } := by
  unfold State.askHeater
  dsimp only
  split
  · have same := (ask_shared s loadHeater 1 (Item.startDraw s.seq.values) true).climate
    generalize s.ask loadHeater 1 (Item.startDraw s.seq.values) true = r at *
    obtain ⟨u, answer⟩ := r
    have same : u.climate = s.climate := same
    split
    · next e =>
      obtain ⟨rfl, -⟩ := Prod.mk.inj e
      rw [(ask_shared _ _ _ _ _).climate]
      show ({ u.climate with tryFailed := true } : Climate) = _
      rw [same]
      rfl
    · next e =>
      obtain ⟨rfl, -⟩ := Prod.mk.inj e
      rw [same]
  · rw [(ask_shared _ _ _ _ _).climate]

end Sys2Proof.Machine
end

