-- ==== Sys2Proof/Proofs/HeaterActs.lean ====
section
/-! PROOFS. A heater that follows its demand, by its state and its claim's (R111 to R114). -/

namespace Sys2Proof.Machine

/-! ### The heater's order under a change of its state -/

/-- The heater's order says nothing of the call, frost service, the mode, the pad and the reading timer. -/
theorem HeaterOrder.free {c d : Climate} {v : Values} {k : Claim} (h : HeaterOrder c v k) (same : d = { c with
    chosen := d.chosen, call := d.call, callCount := d.callCount, frost := d.frost, tryFailed := d.tryFailed
    remembered := d.remembered, padWanted := d.padWanted, pad := d.pad, readTimer := d.readTimer }) : HeaterOrder d v k := by
  rw [same]
  exact { h with }

theorem HeaterOrder.holding {c : Climate} {v : Values} {k d : Claim} (h : HeaterOrder c v k) (was : k.st = .held)
    (st : d.st = .held) (held : d.held = k.held) : HeaterOrder c v d :=
  { h with
    single := by rw [st]; nofun
    standing := by rw [st]; nofun
    held := ⟨fun _ => h.held.mp was, fun _ => st⟩
    asks := by rw [st]; nofun
    starting := fun e => held.trans (h.starting e)
    running := fun e => held.trans (h.running e)
    unforced := by rw [st]; nofun }

/-- A purge holds its claim, whatever it began from. -/
theorem HeaterOrder.purge {c d : Climate} {v : Values} {k : Claim} (zones : ∀ z, (c.zones.get z).demand ≤ 100)
    (failures : c.failures ≤ 2) (st : k.st = .held) (same : d = { c with
      heater := .purging, hen := false, hdem := 0, startTimer := none, runTimer := none, purgeTimer := some 180000
      remembered := d.remembered }) : HeaterOrder d v k := by
  rw [same]
  exact {
    zones, failures
    single := by rw [st]; nofun
    hen := by simp
    held := by simp [st]
    asks := by rw [st]; nofun
    starting := nofun
    running := nofun
    cold := fun _ => rfl
    hdem := Nat.zero_le _
    startTimer := by simp
    runTimer := nofun
    purgeTimer := by simp
    locked := nofun
    lockout := fun _ => .inr rfl
    unforced := by rw [st]; nofun
    standing := by rw [st]; nofun }

theorem comfortDemand_le {s : State} (zones : ∀ z, (s.climate.zones.get z).demand ≤ 100) : s.comfortDemand ≤ 100 := by
  unfold State.comfortDemand
  split
  · exact max_le (zones 0) (zones 1)
  · exact Nat.zero_le _

theorem heaterDemand_le {s : State} (zones : ∀ z, (s.climate.zones.get z).demand ≤ 100) : s.heaterDemand ≤ 100 := by
  unfold State.heaterDemand
  split
  · exact max_le (comfortDemand_le zones) (by decide)
  · exact comfortDemand_le zones

/-- HDEM worked out again (R108). -/
theorem updateHdem_fits {s : State} (h : s.heaterFits) : s.updateHdem.heaterFits := by
  have hen := h.hen
  refine { h with cold := fun off => ?_, hdem := ?_ }
  · show (if _ then _ else _) = _
    exact if_neg fun on => absurd ((hen.mpr on).symm.trans off) nofun
  · show (if _ then _ else _) ≤ _
    split
    · exact heaterDemand_le h.zones
    · exact Nat.zero_le _

/-! ### The heater follows its demand (R111 to R114) -/

/-- What a heater that follows its demand does, before HDEM is worked out again. -/
def State.heaterActs (s : State) : State :=
  match s.climate.heater with
  | .off =>
    match (s.claim loadHeater).st with
    | .idle => if s.heaterWanted then s.askHeater else s
    | .waiting =>
      if s.heaterWanted then
        if (s.claim loadHeater).rank = s.heaterRank then s else (s.rerank loadHeater s.heaterRank).1
      else s.release loadHeater
    | .contest => if s.heaterWanted then s else s.release loadHeater
    | _ => s
  | .starting | .running => if s.heaterWanted then s.heaterRerank else s.enterPurging.heaterRerank
  | .purging => (s.setClimate { s.climate with remembered := s.heaterWanted }).heaterRerank
  | .lockout => s

theorem heaterFollows_eq {s : State} (fitted : s.seq.fns.heat = true) (run : s.inRun = true) :
    s.heaterFollows = s.heaterActs.updateHdem :=
  if_pos (by simp [fitted, run])

theorem heaterFollows_rests {s : State} (h : s.seq.fns.heat = false ∨ s.inRun = false) : s.heaterFollows = s :=
  if_neg (by rcases h with h | h <;> simp [h])

theorem State.valuesFit.runDraw {s : State} (h : s.valuesFit) : 1 ≤ Item.runDraw s.seq.values := by
  have item := h.1.1 27
  unfold inRange at item
  rw [if_neg (by decide), if_neg (by decide), if_neg (by decide)] at item
  exact item.1

/-- What the values in force bound the heater's claim by. -/
def State.heaterDraws (s : State) : Prop :=
  (1 ≤ Item.startDraw s.seq.values ∧ Item.startDraw s.seq.values ≤ 30000)
    ∧ 1 ≤ Item.runDraw s.seq.values ∧ Item.runDraw s.seq.values ≤ Item.startDraw s.seq.values

theorem State.valuesFit.heaterDraws {s : State} (h : s.valuesFit) : s.heaterDraws :=
  ⟨h.startDraw, h.runDraw, h.1.2.1⟩

/-- From `s` to `t` the heater has followed its demand. -/
structure HeaterActed (s t : State) : Prop where
  fits : t.heaterFits
  climate : t.climate = { s.climate with
    heater := t.climate.heater, hen := t.climate.hen, hdem := t.climate.hdem, startTimer := t.climate.startTimer
    runTimer := t.climate.runTimer, purgeTimer := t.climate.purgeTimer, remembered := t.climate.remembered
    tryFailed := t.climate.tryFailed }
  works : t.climate.heater = .starting ∨ t.climate.heater = .running → s.heaterWanted = true
  off : t.climate.heater = .off → (s.heaterWanted = true ↔ (t.claim loadHeater).st ≠ .idle)
  purges : s.climate.heater ≠ .purging → t.climate.heater = .purging →
    t.climate.purgeTimer = some 180000 ∧ (t.claim loadHeater).held ≤ Item.runDraw s.seq.values
  stays : t.climate.heater = s.climate.heater
    ∨ (s.climate.heater = .starting ∨ s.climate.heater = .running) ∧ t.climate.heater = .purging
  awaits : s.climate.heater = .purging → t.climate.remembered = s.heaterWanted
    ∧ t.climate.purgeTimer = s.climate.purgeTimer ∧ (t.claim loadHeater).held = (s.claim loadHeater).held
  rank : s.climate.heater = .off → (s.claim loadHeater).st = .idle → s.heaterWanted = true →
    (t.claim loadHeater).rank = s.heaterRank

section
variable {s t : State}

/-- The heater has stood as it was, Off or in Lockout, with a claim that may have changed. -/
theorem HeaterActed.rests (fits : t.heaterFits) (climate : t.climate = { s.climate with tryFailed := t.climate.tryFailed })
    (state : s.climate.heater = .off ∨ s.climate.heater = .lockout)
    (off : s.climate.heater = .off → (s.heaterWanted = true ↔ (t.claim loadHeater).st ≠ .idle))
    (rank : s.climate.heater = .off → (s.claim loadHeater).st = .idle → s.heaterWanted = true →
      (t.claim loadHeater).rank = s.heaterRank) : HeaterActed s t := by
  have same : t.climate.heater = s.climate.heater := by rw [climate]
  refine ⟨fits, by rw [climate], fun e => ?_, fun e => off (same ▸ e), fun _ e => ?_, .inl same, fun e => ?_, rank⟩
  · rw [same] at e
    rcases state with k | k <;> rw [k] at e <;> simp at e
  · rw [same] at e
    rcases state with k | k <;> rw [k] at e <;> cases e
  · rcases state with k | k <;> rw [k] at e <;> cases e

section
variable (work : s.climate.heater = .starting ∨ s.climate.heater = .running)
include work

/-- A purge that the heater has begun. -/
theorem HeaterActed.purged (h : s.heaterFits) (climate : t.climate = s.purged) (st : (t.claim loadHeater).st = .held)
    (held : (t.claim loadHeater).held ≤ Item.runDraw s.seq.values) : HeaterActed s t := by
  have state : t.climate.heater = .purging := by rw [climate]; rfl
  refine ⟨?_, by rw [climate]; rfl, fun e => ?_, fun e => ?_, fun _ _ => ⟨by rw [climate]; rfl, held⟩, .inr ⟨work, state⟩, fun e => ?_, fun e => ?_⟩
  · exact HeaterOrder.purge h.zones h.failures st (by rw [climate]; rfl)
  · rw [state] at e; simp at e
  · rw [state] at e; cases e
  · rcases work with k | k <;> rw [k] at e <;> cases e
  · rcases work with k | k <;> rw [k] at e <;> cases e

/-- A heater that goes on as it did. -/
theorem HeaterActed.goesOn (fits : t.heaterFits) (wanted : s.heaterWanted = true) (climate : t.climate = s.climate) :
    HeaterActed s t := by
  have not : s.climate.heater ≠ .off ∧ s.climate.heater ≠ .purging := by rcases work with k | k <;> simp [k]
  exact ⟨fits, by rw [climate], fun _ => wanted, fun e => absurd (climate ▸ e) not.1, fun _ e => absurd (climate ▸ e) not.2,
    .inl (by rw [climate]), fun e => absurd e not.2, fun e => absurd e not.1⟩

end
end

section
variable {s : State} (o : s.Ok) (h : s.heaterFits) (draws : s.heaterDraws)
include o h draws

/-- A heater at work goes on while it is wanted, and else purges. -/
theorem heaterWorks_acted (work : s.climate.heater = .starting ∨ s.climate.heater = .running) :
    HeaterActed s (if s.heaterWanted then s.heaterRerank else s.enterPurging.heaterRerank) := by
  obtain ⟨-, one, -⟩ := draws
  have held : (s.claim loadHeater).st = .held := h.held.mpr (work.imp_right .inl)
  split
  · next wanted =>
    obtain ⟨st, ⟨climate, amount⟩ | ⟨-, climate, amount⟩⟩ := heaterRerank_cases held o one
    · have values := (heaterRerank_calm s o).2.1.seq
      refine .goesOn work ?_ wanted climate
      unfold State.heaterFits
      rw [climate, values]
      exact h.holding held st amount
    · exact .purged work h climate st (by rw [amount]; exact min_le_right _ _)
  · obtain ⟨st, amount, -⟩ := enterPurging_held held o one
    have climate := enterPurging_climate s
    have calm := enterPurging_calm s o
    have values : s.enterPurging.seq = s.seq := calm.2.1.seq
    generalize s.enterPurging = u at *
    obtain ⟨st', ⟨climate', amount'⟩ | ⟨not, -⟩⟩ := heaterRerank_cases st calm.1 (by rw [values]; exact one)
    · exact .purged work h (climate'.trans climate) st' (by rw [amount', amount]; exact min_le_right _ _)
    · rw [climate] at not
      exact absurd rfl not.1

/-- A purge runs on, and remembers whether the heater is wanted. -/
theorem heaterPurges_acted (heater : s.climate.heater = .purging) :
    HeaterActed s (s.setClimate { s.climate with remembered := s.heaterWanted }).heaterRerank := by
  obtain ⟨-, one, -⟩ := draws
  have held : (s.claim loadHeater).st = .held := h.held.mpr (.inr (.inr heater))
  generalize hu : s.setClimate { s.climate with remembered := s.heaterWanted } = u
  have ok : u.Ok := hu ▸ (setClimate_calm s _ o).1
  have climate : u.climate = { s.climate with remembered := s.heaterWanted } := by rw [← hu]; rfl
  have claim : u.claim loadHeater = s.claim loadHeater := by rw [← hu]; rfl
  have seq : u.seq = s.seq := by rw [← hu]; rfl
  obtain ⟨st, ⟨climate', amount⟩ | ⟨not, -⟩⟩ := heaterRerank_cases (claim ▸ held) ok (by rw [seq]; exact one)
  · have values := (heaterRerank_calm u ok).2.1.seq
    generalize u.heaterRerank = t at *
    have state : t.climate.heater = .purging := by rw [climate', climate]; exact heater
    refine ⟨?_, by rw [climate', climate], fun e => ?_, fun e => ?_, fun e => absurd heater e, .inl (state.trans heater.symm),
      fun _ => ⟨by rw [climate', climate], by rw [climate', climate], by rw [amount, claim]⟩, fun e => ?_⟩
    · unfold State.heaterFits
      rw [climate', climate, values, seq]
      exact (h.free rfl).holding held st (amount.trans (by rw [claim]))
    · rw [state] at e; simp at e
    · rw [state] at e; cases e
    · rw [heater] at e; cases e
  · rw [climate] at not
    exact absurd heater not.1

section
variable (heater : s.climate.heater = .off)
include heater

omit o draws in
theorem heaterIdle_acted {t : State} (climate : t.climate = s.climate) (seq : t.seq = s.seq)
    (idle : (t.claim loadHeater).st = .idle) (not : s.heaterWanted = false) : HeaterActed s t :=
  .rests (by unfold State.heaterFits; rw [climate, seq]; exact h.idle (.inl heater) idle) (by rw [climate]) (.inl heater)
    (fun _ => by rw [not, idle]; simp) fun _ _ k => by rw [not] at k; cases k

omit draws in
theorem heaterReleased_acted (not : s.heaterWanted = false) : HeaterActed s (s.release loadHeater) :=
  have shared := release_shared s loadHeater
  heaterIdle_acted h heater shared.climate shared.seq (release_idle o loadHeater) not

/-- A heater that is Off and wanted, with no claim, asks. -/
theorem askHeater_acted (idle : (s.claim loadHeater).st = .idle) (wanted : s.heaterWanted = true) :
    HeaterActed s s.askHeater := by
  obtain ⟨asked, rank, state⟩ := askHeater_claim (by simp [Claim.drawing, idle]) o draws.1
  have climate := askHeater_climate s
  have seq := (askHeater_calm s o).2.1.seq
  refine .rests ?_ climate (.inl heater) (fun _ => ⟨fun _ => ?_, fun _ => wanted⟩) fun _ _ _ => rank
  · unfold State.heaterFits
    rw [climate, seq]
    refine (h.free (by rfl)).asking heater (state.imp And.left And.left) asked (fun e k => ?_) fun e => ?_
    · rcases state with ⟨-, one⟩ | ⟨e', -⟩
      · rw [rank]; exact one k
      · rw [e] at e'; cases e'
    · rcases state with ⟨e', -⟩ | ⟨-, single⟩
      · rw [e] at e'; cases e'
      · exact single
  · rcases state with ⟨e, -⟩ | ⟨e, -⟩ <;> rw [e] <;> nofun

omit draws in
/-- A wanted heater's standing ask is tested again at the reason's rank. -/
theorem heaterWaiting_acted (st : (s.claim loadHeater).st = .waiting) (wanted : s.heaterWanted = true) :
    HeaterActed s (if (s.claim loadHeater).rank = s.heaterRank then s else (s.rerank loadHeater s.heaterRank).1) := by
  obtain ⟨-, asked⟩ := h.asks (.inr st)
  have standing := h.standing st
  split
  · exact .rests h (by rfl) (.inl heater) (fun _ => by simp [wanted, st]) fun _ k => by rw [st] at k; cases k
  · have low : s.heaterRank ≤ 6 := by unfold State.heaterRank; split <;> decide
    have claim := (rerank_waiting o low st).2
    have shared := rerank_shared s loadHeater s.heaterRank
    generalize (s.rerank loadHeater s.heaterRank).1 = t at *
    have facts : (t.claim loadHeater).asked = (s.claim loadHeater).asked ∧ (t.claim loadHeater).single = false
        ∧ ((t.claim loadHeater).st = .contest ∨ (t.claim loadHeater).st = .waiting) := by
      rw [claim]
      split
      · exact ⟨rfl, standing, .inl rfl⟩
      · exact ⟨rfl, standing, .inr rfl⟩
    obtain ⟨same, single, state⟩ := facts
    refine .rests ?_ (by rw [shared.climate]) (.inl heater) (fun _ => ⟨fun _ => ?_, fun _ => wanted⟩)
      fun _ k => by rw [st] at k; cases k
    · unfold State.heaterFits
      rw [shared.climate, shared.seq]
      exact h.asking heater state (same.trans asked) (fun _ k => by rw [single] at k; cases k) fun _ => single
    · rcases state with e | e <;> rw [e] <;> nofun

end

/-- The heater acts as its demand, its state and its claim say. -/
theorem heaterActs_acted : HeaterActed s s.heaterActs := by
  unfold State.heaterActs
  cases heater : s.climate.heater with
  | starting => exact heaterWorks_acted o h draws (.inl heater)
  | running => exact heaterWorks_acted o h draws (.inr heater)
  | lockout =>
    exact .rests h (by rfl) (.inr heater) (fun e => by rw [heater] at e; cases e) fun e => by rw [heater] at e; cases e
  | purging => exact heaterPurges_acted o h draws heater
  | off =>
    dsimp only
    cases st : (s.claim loadHeater).st with
    | held => rcases h.held.mp st with k | k | k <;> rw [k] at heater <;> cases heater
    | forced => exact absurd st h.unforced
    | idle =>
      dsimp only
      split
      · next wanted => exact askHeater_acted o h draws heater st wanted
      · next not => exact heaterIdle_acted h heater rfl rfl st (by simpa using not)
    | waiting =>
      dsimp only
      split
      · next wanted => exact heaterWaiting_acted o h heater st wanted
      · next not => exact heaterReleased_acted o h heater (by simpa using not)
    | contest =>
      dsimp only
      split
      · next wanted => exact .rests h (by rfl) (.inl heater) (fun _ => by simp [wanted, st]) fun _ k => by rw [st] at k; cases k
      · next not => exact heaterReleased_acted o h heater (by simpa using not)

end

end Sys2Proof.Machine
end

