-- ==== Sys2Proof/Proofs/HeaterFollows.lean ====
section
/-! PROOFS. HDEM, frost service and the heater that follows them (R108, R110). -/

namespace Sys2Proof.Machine

/-! ### What the heater has followed (R108, R110, R111) -/

/-- From `s` to `t` the heater has followed its demand, and HDEM with it. -/
structure HeaterFollowed (s t : State) : Prop extends HeaterActed s t where
  duty : t.climate.hdem =
    if t.climate.heater = .starting ∨ t.climate.heater = .running then t.heaterDemand else 0

theorem heaterFollows_followed {s : State} (o : s.Ok) (h : s.heaterFits) (draws : s.heaterDraws)
    (fitted : s.seq.fns.heat = true) (run : s.inRun = true) : HeaterFollowed s s.heaterFollows := by
  have acted := heaterActs_acted o h draws
  rw [heaterFollows_eq fitted run]
  generalize s.heaterActs = u at *
  exact {
    fits := updateHdem_fits acted.fits
    climate := by
      show ({ u.climate with hdem := _ } : Climate) = _
      rw [acted.climate]
      rfl
    works := acted.works
    off := acted.off
    purges := acted.purges
    stays := acted.stays
    awaits := acted.awaits
    rank := acted.rank
    duty := rfl }

section
variable {s t : State} (h : HeaterActed s t)
include h

theorem HeaterActed.call : t.climate.call = s.climate.call := by rw [h.climate]
theorem HeaterActed.callCount : t.climate.callCount = s.climate.callCount := by rw [h.climate]
theorem HeaterActed.frost : t.climate.frost = s.climate.frost := by rw [h.climate]
theorem HeaterActed.locked : t.climate.lockout = s.climate.lockout := by rw [h.climate]
theorem HeaterActed.zones : t.climate.zones = s.climate.zones := by rw [h.climate]
theorem HeaterActed.chosen : t.climate.chosen = s.climate.chosen := by rw [h.climate]

end

/-- Frost service as its inputs now give it; where it turns, the heater follows (R110). -/
theorem frostService_eq {s : State} (o : s.Ok) (fitted : s.seq.fns.heat = true) (run : s.inRun = true) : s.frostService =
    if s.frostServiceNow = s.climate.frost then s
    else (s.setClimate { s.climate with
      frost := s.frostServiceNow, tryFailed := s.climate.tryFailed && s.frostServiceNow }).heaterFollows := by
  unfold State.frostService
  rw [readAll_checked o.checked, if_pos (by simp [fitted, run])]

/-- From `s` to `t` frost service has been worked out as `f` and the heater has followed it. -/
structure FrostServed (f : Bool) (s t : State) : Prop where
  fits : t.heaterFits
  climate : t.climate = { s.climate with
    frost := f, heater := t.climate.heater, hen := t.climate.hen, hdem := t.climate.hdem
    startTimer := t.climate.startTimer, runTimer := t.climate.runTimer, purgeTimer := t.climate.purgeTimer
    remembered := t.climate.remembered, tryFailed := t.climate.tryFailed }
  stays : t.climate.heater = s.climate.heater
    ∨ (s.climate.heater = .starting ∨ s.climate.heater = .running) ∧ t.climate.heater = .purging
  purges : s.climate.heater ≠ .purging → t.climate.heater = .purging →
    t.climate.purgeTimer = some 180000 ∧ (t.claim loadHeater).held ≤ Item.runDraw s.seq.values

theorem frostService_served {s : State} (o : s.Ok) (h : s.heaterFits) (draws : s.heaterDraws)
    (fitted : s.seq.fns.heat = true) (run : s.inRun = true) : FrostServed s.frostServiceNow s s.frostService := by
  rw [frostService_eq o fitted run]
  split
  · next same =>
    exact ⟨h, by rw [same], .inl rfl, fun not e => absurd e not⟩
  · generalize hu : s.setClimate _ = u
    have climate : u.climate = { s.climate with
        frost := s.frostServiceNow, tryFailed := s.climate.tryFailed && s.frostServiceNow } := by rw [← hu]; rfl
    have seq : u.seq = s.seq := by rw [← hu]; rfl
    have fits : u.heaterFits := by
      have claim : u.claim loadHeater = s.claim loadHeater := by rw [← hu]; rfl
      unfold State.heaterFits
      rw [climate, seq, claim]
      exact h.free rfl
    have acted := heaterFollows_followed (hu ▸ (setClimate_calm s _ o).1) fits (by unfold State.heaterDraws; rw [seq]; exact draws)
      (by rw [seq]; exact fitted) (by rw [State.inRun, seq]; exact run)
    refine ⟨acted.fits, ?_, ?_, ?_⟩
    · rw [acted.climate, climate]
    · have stays := acted.stays
      rw [climate] at stays
      exact stays
    · have purges := acted.purges
      rw [climate, seq] at purges
      exact purges

end Sys2Proof.Machine
end

