-- ==== Sys2Proof/Proofs/ClimateDemand.lean ====
section
/-! PROOFS. Zones, comfort demand and the call (R104 to R109). -/

namespace Sys2Proof.Machine

/-! ### Readings, setpoints and the call (R104 to R109) -/

theorem comfortDemand_eq {s t : State} (storage : t.seq.storage = s.seq.storage) : t.comfortDemand =
    if s.seq.storage = false ∧ t.climate.chosen = .comfort
    then max (t.climate.zones.get 0).demand (t.climate.zones.get 1).demand else 0 := by
  unfold State.comfortDemand State.modeInForce
  rw [storage]
  cases s.seq.storage with
  | true => rfl
  | false => exact if_congr (by simp) rfl rfl

theorem zoneDemand_eq (setpoint temp : Int) :
    (zoneDemand setpoint temp : Int) = max (0 : Int) (min (((setpoint - temp) * 25).tdiv 10) 100) := by
  unfold zoneDemand clampInt
  omega

theorem zoneDemand_le (setpoint temp : Int) : zoneDemand setpoint temp ≤ 100 := by
  have := zoneDemand_eq setpoint temp
  omega

/-- What `Obligations.ClimateSettings` asks of the heater after a command in Run. -/
def State.follows (s t : State) : Prop :=
  let comfort := if s.seq.storage = false ∧ t.climate.chosen = .comfort
    then max (t.climate.zones.get 0).demand (t.climate.zones.get 1).demand else 0
  t.climate.hdem = (if t.climate.heater = .starting ∨ t.climate.heater = .running then
      (if t.climate.frost = true then max comfort 30 else comfort) else 0)
    ∧ (t.climate.heater = .starting ∨ t.climate.heater = .running → t.climate.call = true ∨ t.climate.frost = true)
    ∧ (t.climate.heater = .off → (t.climate.call = true ∨ t.climate.frost = true ↔ (t.claim loadHeater).st ≠ .idle))
    ∧ (s.climate.heater = .running → t.climate.heater = .purging →
        t.climate.hen = false ∧ t.climate.purgeTimer = some 180000 ∧ (t.claim loadHeater).held ≤ s.seq.values.get 27)

theorem HeaterFollowed.follows {s u t : State} (h : HeaterFollowed u t) (run : u.inRun = true) (seq : t.seq = s.seq)
    (purges : s.climate.heater = .running → t.climate.heater = .purging →
      t.climate.purgeTimer = some 180000 ∧ (t.claim loadHeater).held ≤ Item.runDraw s.seq.values) : s.follows t := by
  have wanted : u.heaterWanted = ((t.climate.call || t.climate.frost) && !t.climate.lockout) := by
    unfold State.heaterWanted
    rw [run, Bool.and_true, h.call, h.frost, h.locked]
  have hen := h.fits.hen
  refine ⟨?_, fun work => ?_, fun off => ?_, fun runs purge => ⟨?_, purges runs purge⟩⟩
  · rw [h.duty]
    unfold State.heaterDemand
    rw [comfortDemand_eq (s := s) (by rw [seq])]
  · have wants := h.works work
    rw [wanted] at wants
    simp only [Bool.and_eq_true, Bool.or_eq_true] at wants
    exact wants.1
  · have open_ : t.climate.lockout = false := by
      rw [← Bool.not_eq_true]
      intro l
      rcases h.fits.lockout l with k | k <;> rw [k] at off <;> cases off
    rw [← h.off off, wanted, open_]
    simp
  · rw [← Bool.not_eq_true, hen, purge]
    simp

/-- The Climate Controller with both zones read (R104, R108). -/
def Climate.read (c : Climate) (a b : Int) : Climate :=
  { c with zones := (c.zones.modify 0 (·.reading a)).modify 1 (·.reading b), readTimer := some 1000 }

theorem Climate.read_zone (c : Climate) (temp : Fin 2 → Int) (z : Fin 2) :
    (c.read (temp 0) (temp 1)).zones.get z = (c.zones.get z).reading (temp z) := by
  unfold Climate.read Tab.modify
  match z with
  | 0 => simp [Tab.get_set]
  | 1 => simp [Tab.get_set]

theorem setCall_eq {s : State} (run : s.inRun = true) :
    s.setCall = s.setClimate { s.climate with call := s.climate.call || decide (10 ≤ s.comfortDemand) } := by
  unfold State.setCall
  split
  · next h => rw [decide_eq_true h.2, Bool.or_true]
  · next h =>
    rw [decide_eq_false fun k => h ⟨run, k⟩, Bool.or_false]
    rfl

theorem countCall_eq (s : State) : s.countCall = s.setClimate { s.climate with
    call := s.climate.call && !(s.comfortDemand == 0 && decide (60 ≤ s.climate.callCount + 1))
    callCount := if s.climate.call = true then
      (if s.comfortDemand = 0 ∧ s.climate.callCount + 1 < 60 then s.climate.callCount + 1 else 0)
      else s.climate.callCount } := by
  have full : (countTo 60 (s.comfortDemand == 0) s.climate.callCount).2
      = (s.comfortDemand == 0 && decide (60 ≤ s.climate.callCount + 1)) := by
    rw [Bool.eq_iff_iff, countTo_full, Bool.and_eq_true, decide_eq_true_eq]
  unfold State.countCall
  split
  · next call =>
    dsimp only
    rw [full, countTo_count, call]
    simp only [beq_iff_eq]
    rfl
  · next quiet =>
    rw [Bool.not_eq_true] at quiet
    rw [quiet, Bool.false_and, ← quiet]
    rfl

end Sys2Proof.Machine
end

