-- ==== Sys2Proof/Proofs/ClimateReadings.lean ====
section
/-! PROOFS. A reading of the Climate Controller (R104, R108, R109). -/

namespace Sys2Proof.Machine

/-- The demand path of a reading in Run: the call set and counted (R109). -/
theorem called_climate {s : State} (run : s.inRun = true) : s.setCall.countCall = s.setClimate { s.climate with
    call := decide (10 ≤ s.comfortDemand)
      || (s.climate.call && !(s.comfortDemand == 0 && decide (60 ≤ s.climate.callCount + 1)))
    callCount := if s.climate.call = true ∨ 10 ≤ s.comfortDemand then
      (if s.comfortDemand = 0 ∧ s.climate.callCount + 1 < 60 then s.climate.callCount + 1 else 0)
      else s.climate.callCount } := by
  rw [setCall_eq run, countCall_eq]
  generalize hu : s.setClimate { s.climate with call := s.climate.call || decide (10 ≤ s.comfortDemand) } = u
  have comfort : u.comfortDemand = s.comfortDemand := by rw [← hu]; rfl
  have count : u.climate.callCount = s.climate.callCount := by rw [← hu]; rfl
  have call : u.climate.call = (s.climate.call || decide (10 ≤ s.comfortDemand)) := by rw [← hu]; rfl
  have set : ((s.climate.call || decide (10 ≤ s.comfortDemand))
      && !(s.comfortDemand == 0 && decide (60 ≤ s.climate.callCount + 1)))
      = (decide (10 ≤ s.comfortDemand)
        || (s.climate.call && !(s.comfortDemand == 0 && decide (60 ≤ s.climate.callCount + 1)))) := by
    by_cases high : 10 ≤ s.comfortDemand
    · have some : (s.comfortDemand == 0) = false := by simp; omega
      simp [high, some]
    · simp [high]
  have counts : ∀ a b : Nat, (if (s.climate.call || decide (10 ≤ s.comfortDemand)) = true then a else b)
      = if s.climate.call = true ∨ 10 ≤ s.comfortDemand then a else b :=
    fun _ _ => if_congr (by simp) rfl rfl
  rw [comfort, count, call, set, counts, ← hu]
  rfl

/-- The heater's order says nothing of a zone but that its demand is at most 100. -/
theorem HeaterOrder.zoned {c d : Climate} {v : Values} {k : Claim} (h : HeaterOrder c v k)
    (zones : ∀ z, (d.zones.get z).demand ≤ 100) (same : d = { c with
      zones := d.zones, chosen := d.chosen, call := d.call, callCount := d.callCount, frost := d.frost
      tryFailed := d.tryFailed, remembered := d.remembered, padWanted := d.padWanted, pad := d.pad
      readTimer := d.readTimer }) : HeaterOrder d v k := by
  rw [same] at zones ⊢
  exact { h with zones }

theorem Zone.reading_demand_le (z : Zone) (temp : Int) : (z.reading temp).demand ≤ 100 := zoneDemand_le _ _

end Sys2Proof.Machine

namespace Sys2Proof.Proofs
open Sys2Proof.Machine

section
variable {s : State} (fits : s.Fits)
include fits

theorem climate_read (temp : Fin 2 → Int) (fitted : s.seq.fns.heat = true) (timed : s.climate.readTimer.isSome = true) :
    ∃ t, exec (.climateReadingEvent (temp 0) (temp 1)) s = .next t ∧
      Warm s t ∧ t.view = s.view ∧ t.climate.readTimer = some 1000 ∧ t.climate.chosen = s.climate.chosen
        ∧ t.climate.zones = (s.climate.read (temp 0) (temp 1)).zones
        ∧ (t.climate.call = if s.inRun = true then decide (10 ≤ t.comfortDemand)
            || (s.climate.call && !(t.comfortDemand == 0 && decide (60 ≤ s.climate.callCount + 1))) else s.climate.call)
        ∧ (t.climate.callCount = if s.inRun = true ∧ (s.climate.call = true ∨ 10 ≤ t.comfortDemand) then
            (if t.comfortDemand = 0 ∧ s.climate.callCount + 1 < 60 then s.climate.callCount + 1 else 0) else s.climate.callCount)
        ∧ t.seq = s.seq ∧ (s.inRun = true → s.follows t) := by
  generalize hv : s.setClimate (s.climate.read (temp 0) (temp 1)) = v
  have climate : v.climate = s.climate.read (temp 0) (temp 1) := by rw [← hv]; rfl
  have runs : v.inRun = s.inRun := by rw [← hv]; rfl
  have arm : exec (.climateReadingEvent (temp 0) (temp 1)) s
      = .next (State.publish s (if v.inRun then v.setCall.countCall.heaterFollows else v)) := by
    rw [← hv]
    show done s _ = _
    rw [if_pos ⟨fitted, timed⟩]
    rfl
  have calmV : Calm s v := hv ▸ setClimate_calm s _
  by_cases run : s.inRun = true
  swap
  · rw [runs, if_neg run] at arm
    obtain ⟨posted, view⟩ := calm_posted s fits.sound fits.sound.sane rfl rfl rfl calmV
    refine ⟨_, arm, posted.warm (hv ▸ setClimate_warm s _), view, ?_, ?_, ?_, ?_, ?_, ?_, fun h => absurd h run⟩
    · rw [posted.climate, climate]; rfl
    · rw [posted.climate, climate]; rfl
    · rw [posted.climate, climate]
    · rw [posted.climate, climate, if_neg run]; rfl
    · rw [posted.climate, climate, if_neg fun h => run h.1]; rfl
    · rw [posted.seq, ← hv]; rfl
  rw [runs, if_pos run, called_climate (runs.trans run)] at arm
  generalize hw : v.setClimate _ = w at arm
  have climateW := congrArg State.climate hw.symm
  have calmW : Calm s w := calmV.trans (hw ▸ setClimate_calm v _)
  have ok := (calmW fits.sound.ok).1
  have seq : w.seq = s.seq := by rw [← hw, ← hv]; rfl
  have claim : w.claim loadHeater = s.claim loadHeater := by rw [← hw, ← hv]; rfl
  have heater : w.climate.heater = s.climate.heater := by rw [climateW]; show v.climate.heater = _; rw [climate]; rfl
  have order : w.heaterFits := by
    unfold State.heaterFits
    rw [seq, claim]
    refine fits.heater.zoned ?_ ?_
    · rw [climateW]
      show ∀ z, (v.climate.zones.get z).demand ≤ 100
      rw [climate]
      intro z
      rw [Climate.read_zone]
      exact Zone.reading_demand_le _ _
    · rw [climateW]
      show ({ v.climate with call := _, callCount := _ } : Climate) = _
      rw [climate]
      rfl
  have runW : w.inRun = true := by rw [State.inRun, seq]; exact run
  have followed := heaterFollows_followed ok order (by unfold State.heaterDraws; rw [seq]; exact fits.values.heaterDraws)
    (by rw [seq]; exact fitted) runW
  obtain ⟨posted, view⟩ := calm_posted s fits.sound fits.sound.sane rfl rfl rfl (calmW.trans (heaterFollows_calm w))
  have warm : Warm s w.heaterFollows :=
    ((hv ▸ setClimate_warm s _ : Warm s v).trans (hw ▸ setClimate_warm v _)).trans (heaterFollows_warm w)
  have zones : w.heaterFollows.climate.zones = v.climate.zones := by rw [followed.zones, climateW]; rfl
  have chosen : w.heaterFollows.climate.chosen = v.climate.chosen := by rw [followed.chosen, climateW]; rfl
  have seqT : w.heaterFollows.seq = s.seq := (heaterFollows_calm w ok).2.1.seq.trans seq
  have comfort : w.heaterFollows.comfortDemand = v.comfortDemand := by
    unfold State.comfortDemand State.modeInForce
    rw [zones, chosen, seqT, ← hv]
    rfl
  have comfortT : (State.publish s w.heaterFollows).comfortDemand = v.comfortDemand := by
    rw [← comfort]
    unfold State.comfortDemand State.modeInForce
    rw [posted.climate, posted.seq]
  refine ⟨_, arm, posted.warm warm, view, ?_, ?_, ?_, ?_, ?_, posted.seq.trans seqT, fun _ => ?_⟩
  · rw [posted.climate, followed.climate, climateW]; show v.climate.readTimer = _; rw [climate]; rfl
  · rw [posted.climate, chosen, climate]; rfl
  · rw [posted.climate, zones, climate]
  · rw [posted.climate, followed.call, climateW, comfortT, if_pos run]
    show (_ || (v.climate.call && !(_ && decide (60 ≤ v.climate.callCount + 1)))) = _
    rw [climate]
    rfl
  · rw [posted.climate, followed.callCount, climateW, comfortT]
    show (if v.climate.call = true ∨ _ then (if _ ∧ v.climate.callCount + 1 < 60 then v.climate.callCount + 1 else 0)
      else v.climate.callCount) = _
    rw [climate]
    exact if_congr (by rw [run]; simp [Climate.read]) rfl rfl
  · have follows : s.follows w.heaterFollows := followed.follows runW seqT fun runs purge => by
      rw [← seq]
      exact followed.purges (by rw [heater, runs]; nofun) purge
    unfold State.follows at *
    rw [posted.climate, posted.claim]
    exact follows

end

end Sys2Proof.Proofs
end

