-- ==== Sys2Proof/Proofs/Setpoints.lean ====
section
/-! PROOFS. A setpoint taken (R105, R106). -/

namespace Sys2Proof.Machine

/-- An owner that acts where a request has been answered leaves the outcome shown (R180). -/
theorem shows_after {k : Scope} {s x u : State} {code o : Nat} (fits : s.requestsFit) (ok : x.Ok) (shown : x.shows code o)
    (serial : s.status.serial < x.status.serial) (motion : x.motion = s.motion) (lights : x.lights = s.lights)
    (tends : Tends k s.status.serial x u) : u.shows code o := by
  have within : x.waitWithin s.status.serial := by
    unfold State.waitWithin State.chan State.group
    rw [motion, lights]
    exact fits
  obtain ⟨-, -, tended⟩ := tends ok within
  exact ⟨tended.request.trans shown.1, (tended.outcome serial).trans shown.2⟩

theorem answer_shows (s : State) (code o : Nat) :
    (s.taken.answer code o).shows code o ∧ s.status.serial < (s.taken.answer code o).status.serial :=
  ⟨⟨rfl, rfl⟩, Nat.lt_succ_self _⟩

/-- A zone with a setpoint taken (R105, R106). -/
def Zone.setTo (x : Zone) (value : Int) : Zone :=
  { x with setpoint := max 50 (min value 300), demand := zoneDemand (max 50 (min value 300)) x.temp }

/-- The state in which a setpoint has been taken, before the call and the heater follow. -/
def State.setpointTaken (s : State) (z : Fin 2) (value : Int) : State :=
  let u := s.setClimate { s.climate with zones := s.climate.zones.modify z (·.setTo value) }
  let v := u.setCell { u.cell with setpoints := u.cell.setpoints.set z (max 50 (min value 300)) }
  v.setDue { v.due with climate := v.due.climate.set z true }

theorem takeSetpoint_eq (s : State) (z : Fin 2) (value : Int) :
    s.takeSetpoint z value = (s.setpointTaken z value).setCall.heaterFollows := rfl

theorem setpointTaken_sane {s : State} (h : s.Sane) (z : Fin 2) (value : Int) : (s.setpointTaken z value).Sane :=
  ((setClimate_calm s _).keeps.trans ((setCell_keeps _ _).trans (setDue_calm _ _).keeps)) h

/-- A state that another's answer to a request leaves: all but Station Status and the line is as it was. -/
theorem answer_rest (s : State) (code o : Nat) : s.taken.answer code o
    = { s with bus := (s.taken.answer code o).bus, status := (s.taken.answer code o).status, due := (s.taken.answer code o).due } := rfl

/-- What a setpoint taken leaves, where a request has been answered. -/
theorem setpointTaken_rest {s a : State} (h : a = { s with bus := a.bus, status := a.status, due := a.due }) (z : Fin 2) (value : Int) :
    a.setpointTaken z value = { s with
      bus := a.bus, status := a.status, due := (a.setpointTaken z value).due
      climate := { s.climate with zones := s.climate.zones.modify z (·.setTo value) }
      cell := { s.cell with setpoints := s.cell.setpoints.set z (max 50 (min value 300)) } } := by
  unfold State.setpointTaken
  rw [h]
  rfl

end Sys2Proof.Machine

namespace Sys2Proof.Proofs
open Sys2Proof.Machine

section
variable {s : State} (fits : s.Fits)
include fits

theorem setpoint_taken (z : Fin 2) (value : Int) (fitted : s.seq.fns.heat = true) (phase : s.seq.phase = .run) :
    let t := State.publish s ((s.taken.answer 1 1).takeSetpoint z value)
    Warm s t ∧ t.view = s.view ∧ t.shows 1 1 ∧ s.follows t
      ∧ t.climate.zones = s.climate.zones.modify z (·.setTo value) ∧ t.climate.chosen = s.climate.chosen
      ∧ t.climate.call = (s.climate.call || decide (10 ≤ t.comfortDemand)) ∧ t.climate.callCount = s.climate.callCount
      ∧ t.cell.setpoints = s.cell.setpoints.set z (max 50 (min value 300)) ∧ t.seq = s.seq := by
  have saneA : (s.taken.answer 1 1).Sane := (answer_calm _ _ _).keeps (taken_keeps s fits.sound.sane)
  generalize hv : (s.taken.answer 1 1).setpointTaken z value = v
  have sane : v.Sane := hv ▸ setpointTaken_sane saneA z value
  have rest := setpointTaken_rest (answer_rest s 1 1) z value
  have eq : (s.taken.answer 1 1).takeSetpoint z value = v.setCall.heaterFollows := by rw [takeSetpoint_eq, hv]
  have answered := answer_shows s 1 1
  have statusV : v.status = (s.taken.answer 1 1).status := by rw [← hv, rest]
  rw [hv] at rest
  generalize s.taken.answer 1 1 = a at *
  have climate : v.climate = { s.climate with zones := s.climate.zones.modify z (·.setTo value) } := by rw [rest]
  have seq : v.seq = s.seq := by rw [rest]
  have run : v.inRun = true := by rw [State.inRun, seq, phase]; rfl
  have warmV : Warm s v := by rw [rest]; rfl
  have cellV : v.cell = { s.cell with setpoints := s.cell.setpoints.set z (max 50 (min value 300)) } := by rw [rest]
  have motionV : v.motion = s.motion := by rw [rest]
  have lightsV : v.lights = s.lights := by rw [rest]
  have viewV : v.view = s.view := by rw [rest]
  have brokerV : v.broker = s.broker := by rw [rest]
  have calm := (setCall_calm v).trans (heaterFollows_calm _)
  obtain ⟨posted, view⟩ := calm_posted s fits.sound sane viewV seq motionV calm
  have heater : Fact (heaterAlone.loads loadHeater) := ⟨rfl⟩
  have tends : Tends heaterAlone s.status.serial v v.setCall.heaterFollows := (setCall_tends v).trans (heaterFollows_tends _)
  have shows : v.setCall.heaterFollows.shows 1 1 := 
    shows_after fits.requests sane.ok (by unfold State.shows at *; rw [statusV]; exact answered.1)
      (by rw [statusV]; exact answered.2) motionV lightsV tends
  have ok := (setCall_calm v sane.ok).1
  dsimp only
  rw [eq]
  generalize hw : v.setCall = w at *
  have climateW : w.climate = { v.climate with call := v.climate.call || decide (10 ≤ v.comfortDemand) } := by
    rw [← hw, setCall_eq run]; rfl
  have seqW : w.seq = s.seq := by rw [← hw, setCall_eq run]; exact seq
  have claim : w.claim loadHeater = s.claim loadHeater := by
    rw [← hw, setCall_eq run]
    show v.broker.claims.get loadHeater = _
    rw [brokerV]
    rfl
  have cellW : w.cell = v.cell := by rw [← hw, setCall_eq run]; rfl
  have runW : w.inRun = true := by rw [State.inRun, seqW, phase]; rfl
  have order : w.heaterFits := by
    unfold State.heaterFits
    rw [seqW, claim]
    refine fits.heater.zoned ?_ (by rw [climateW, climate])
    rw [climateW, climate]
    intro k
    show ((s.climate.zones.set z _).get k).demand ≤ 100
    rw [Tab.get_set]
    split
    · exact zoneDemand_le _ _
    · exact fits.heater.zones k
  have followed := heaterFollows_followed ok order (by unfold State.heaterDraws; rw [seqW]; exact fits.values.heaterDraws)
    (by rw [seqW]; exact fitted) runW
  have seqT : w.heaterFollows.seq = s.seq := (heaterFollows_calm w ok).2.1.seq.trans seqW
  have heaterW : w.climate.heater = s.climate.heater := by rw [climateW, climate]
  have comfort : w.heaterFollows.comfortDemand = v.comfortDemand := by
    unfold State.comfortDemand State.modeInForce
    rw [followed.zones, followed.chosen, seqT, climateW, seq]
  have comfortT : (State.publish s w.heaterFollows).comfortDemand = v.comfortDemand := by
    rw [← comfort]
    unfold State.comfortDemand State.modeInForce
    rw [posted.climate, posted.seq]
  have follows : s.follows w.heaterFollows := followed.follows runW seqT fun runs purge => by
    rw [← seqW]
    exact followed.purges (by rw [heaterW, runs]; nofun) purge
  have kept := (heaterFollows_calm w ok).2.1.cell
  refine ⟨posted.warm ((warmV.trans (hw ▸ setCall_warm v)).trans (heaterFollows_warm w)), view, ?_, ?_, ?_, ?_, ?_, ?_, ?_,
    posted.seq.trans seqT⟩
  · unfold State.shows at *
    rw [posted.status]
    exact shows
  · unfold State.follows at *
    rw [posted.climate, posted.claim]
    exact follows
  · rw [posted.climate, followed.zones, climateW, climate]
  · rw [posted.climate, followed.chosen, climateW, climate]
  · rw [posted.climate, followed.call, climateW, comfortT, climate]
  · rw [posted.climate, followed.callCount, climateW, climate]
  · rw [posted.cell, kept, cellW, cellV]

end

end Sys2Proof.Proofs
end

