-- ==== Sys2Proof/Proofs/ClimateModes.lean ====
section
/-! PROOFS. A mode taken, and the settings of the Climate Controller settled (R105 to R109). -/

namespace Sys2Proof.Machine

/-! ### The mode is changed (R105, R107, R109) -/

/-- The Climate Controller with a mode chosen: away from Comfort the call is cleared, with its count. -/
def Climate.choose (c : Climate) (m : ClimateMode) : Climate :=
  { c with chosen := m, call := c.call && decide (m = .comfort), callCount := if m = .comfort then c.callCount else 0 }

theorem asMode_none {n : Nat} (h : 3 ≤ n) : asMode n = none := by
  match n, h with
  | _ + 3, _ => rfl

theorem asMode_some {n : Nat} (h : n < 3) :
    asMode n = some (if n = 0 then .off else if n = 1 then .comfort else .frostOnly) := by
  match n, h with
  | 0, _ => rfl
  | 1, _ => rfl
  | 2, _ => rfl

theorem modeOf_off {n : Nat} : (if n = 0 then ClimateMode.off else if n = 1 then .comfort else .frostOnly) = .off ↔ n = 0 := by
  split
  · next h => simp [h]
  · next h => split <;> simp [h]

theorem modeOf_comfort {n : Nat} :
    (if n = 0 then ClimateMode.off else if n = 1 then .comfort else .frostOnly) = .comfort ↔ n = 1 := by
  split
  · next h => simp [h]
  · split
    · next h => simp [h]
    · next h => simp [h]

/-- The state in which a mode has been chosen, before frost service and the heater follow. -/
def State.modeTaken (s : State) (m : ClimateMode) : State :=
  (s.setCell { s.cell with chosen := m }).setClimate (s.climate.choose m)

theorem modeTaken_sane {s : State} (h : s.Sane) (m : ClimateMode) : (s.modeTaken m).Sane :=
  ((setCell_keeps _ _).trans (setClimate_calm _ _).keeps) h

theorem takeMode_eq {s : State} {m : ClimateMode} (fitted : s.seq.fns.heat = true) (storage : s.seq.storage = false)
    (differs : s.climate.chosen ≠ m) : s.takeMode m = (s.modeTaken m).frostService.heaterFollows := by
  have mode : ((s.setClimate { s.climate with chosen := m }).setCell { s.cell with chosen := m }).modeInForce = m := by
    unfold State.modeInForce
    exact if_neg (by simp [storage])
  unfold State.takeMode
  rw [if_neg differs]
  unfold State.modeChanged
  refine (if_pos (by exact fitted)).trans ?_
  dsimp only
  rw [mode]
  by_cases comfort : m = .comfort
  · rw [if_pos comfort]
    unfold State.modeTaken Climate.choose
    rw [if_pos comfort, decide_eq_true comfort, Bool.and_true]
    rfl
  · rw [if_neg comfort]
    unfold State.modeTaken Climate.choose
    rw [if_neg comfort, decide_eq_false comfort, Bool.and_false]
    rfl

theorem modeTaken_rest {s a : State} (h : a = { s with bus := a.bus, status := a.status, due := a.due }) (m : ClimateMode) :
    a.modeTaken m = { s with
      bus := a.bus, status := a.status, due := a.due, climate := s.climate.choose m, cell := { s.cell with chosen := m } } := by
  unfold State.modeTaken
  rw [h]
  rfl

end Sys2Proof.Machine

namespace Sys2Proof.Proofs
open Sys2Proof.Machine

section
variable {s : State} (fits : s.Fits)
include fits

theorem mode_taken {m : ClimateMode} (o : Nat) (fitted : s.seq.fns.heat = true) (phase : s.seq.phase = .run)
    (storage : s.seq.storage = false) (differs : s.climate.chosen ≠ m) :
    let t := State.publish s ((s.taken.answer 2 o).takeMode m)
    Warm s t ∧ t.view = s.view ∧ t.shows 2 o ∧ t.climate.chosen = m ∧ t.cell.chosen = m ∧ t.climate.zones = s.climate.zones
      ∧ t.climate.call = (s.climate.call && decide (m = .comfort)) ∧ (m ≠ .comfort → t.climate.callCount = 0)
      ∧ (m = .off → t.climate.frost = false) ∧ s.follows t := by
  have saneA : (s.taken.answer 2 o).Sane := (answer_calm _ _ _).keeps (taken_keeps s fits.sound.sane)
  generalize hv : (s.taken.answer 2 o).modeTaken m = v
  have sane : v.Sane := hv ▸ modeTaken_sane saneA m
  have rest := modeTaken_rest (answer_rest s 2 o) m
  have eq : (s.taken.answer 2 o).takeMode m = v.frostService.heaterFollows := by
    rw [takeMode_eq (s := s.taken.answer 2 o) fitted storage differs, hv]
  have answered := answer_shows s 2 o
  have statusV : v.status = (s.taken.answer 2 o).status := by rw [← hv, rest]
  rw [hv] at rest
  generalize s.taken.answer 2 o = a at *
  have climate : v.climate = s.climate.choose m := by rw [rest]
  have seq : v.seq = s.seq := by rw [rest]
  have run : v.inRun = true := by rw [State.inRun, seq, phase]; rfl
  have fittedV : v.seq.fns.heat = true := by rw [seq]; exact fitted
  have warmV : Warm s v := by rw [rest]; rfl
  have cellV : v.cell = { s.cell with chosen := m } := by rw [rest]
  have motionV : v.motion = s.motion := by rw [rest]
  have lightsV : v.lights = s.lights := by rw [rest]
  have viewV : v.view = s.view := by rw [rest]
  have claimV : v.claim loadHeater = s.claim loadHeater := by rw [rest]; rfl
  have order : v.heaterFits := by
    unfold State.heaterFits
    rw [seq, claimV, climate]
    exact fits.heater.free rfl
  have draws : v.heaterDraws := by unfold State.heaterDraws; rw [seq]; exact fits.values.heaterDraws
  have calm := (frostService_calm v).trans (heaterFollows_calm _)
  obtain ⟨posted, view⟩ := calm_posted s fits.sound sane viewV seq motionV calm
  have heater : Fact (heaterAlone.loads loadHeater) := ⟨rfl⟩
  have tends : Tends heaterAlone s.status.serial v v.frostService.heaterFollows :=
    (frostService_tends v).trans (heaterFollows_tends _)
  have shows : v.frostService.heaterFollows.shows 2 o :=
    shows_after fits.requests sane.ok (by unfold State.shows at *; rw [statusV]; exact answered.1)
      (by rw [statusV]; exact answered.2) motionV lightsV tends
  have warm := (warmV.trans (frostService_warm v)).trans (heaterFollows_warm _)
  have kept := (calm sane.ok).2.1.cell
  have served := frostService_served sane.ok order draws fittedV run
  have okW := (frostService_calm v sane.ok).1
  have seqW : v.frostService.seq = s.seq := (frostService_calm v sane.ok).2.1.seq.trans seq
  have seqT : v.frostService.heaterFollows.seq = s.seq := (calm sane.ok).2.1.seq.trans seq
  have off : m = .off → v.frostServiceNow = false := by
    intro e
    have mode : v.modeInForce = .off := by
      unfold State.modeInForce
      rw [seq, storage, climate, e]
      rfl
    unfold State.frostServiceNow
    rw [mode]
    simp
  dsimp only
  rw [eq]
  generalize v.frostService = w at *
  have followed := heaterFollows_followed okW served.fits (by unfold State.heaterDraws; rw [seqW]; exact fits.values.heaterDraws)
    (by rw [seqW]; exact fitted) (by rw [State.inRun, seqW, phase]; rfl)
  have runW : w.inRun = true := by rw [State.inRun, seqW, phase]; rfl
  have follows : s.follows w.heaterFollows := by
    refine followed.follows runW seqT fun runs purge => ?_
    have was : v.climate.heater = .running := by rw [climate]; exact runs
    by_cases now : w.climate.heater = .purging
    · obtain ⟨-, timer, held⟩ := followed.awaits now
      obtain ⟨timerW, heldW⟩ := served.purges (by rw [was]; nofun) now
      rw [timer, held, ← seq]
      exact ⟨timerW, heldW⟩
    · rw [← seqW]
      exact followed.purges now purge
  have fieldsW := served.climate
  refine ⟨posted.warm warm, view, ?_, ?_, ?_, ?_, ?_, fun away => ?_, fun e => ?_, ?_⟩
  · unfold State.shows at *
    rw [posted.status]
    exact shows
  · rw [posted.climate, followed.chosen, fieldsW, climate]; rfl
  · rw [posted.cell, kept, cellV]
  · rw [posted.climate, followed.zones, fieldsW, climate]; rfl
  · rw [posted.climate, followed.call, fieldsW, climate]; rfl
  · rw [posted.climate, followed.callCount, fieldsW, climate]
    exact if_neg away
  · rw [posted.climate, followed.frost, fieldsW]
    exact off e
  · unfold State.follows at *
    rw [posted.climate, posted.claim]
    exact follows

end

/-- Settles O52: a reading by `climate_read`, a setpoint by `setpoint_taken`, and a mode by `mode_taken`. -/
theorem climateSettings : Obligations.ClimateSettings := by
  unfold Obligations.ClimateSettings
  intro s fits
  have quiet := fits.sound.quiet.1
  refine ⟨fun temp fitted timed => ?_, fun zone value asks => ?_, fun mode value asks => ?_⟩
  · obtain ⟨t, arm, warm, view, timer, chosen, zones, call, count, seq, follows⟩ := climate_read fits temp fitted timed
    rw [comfortDemand_eq (s := s) (by rw [seq])] at call count
    refine ⟨t, arm, warm, view, timer, chosen, fun z => ?_, call, count, follows⟩
    rw [zones, Climate.read_zone]
    exact ⟨rfl, rfl, zoneDemand_eq _ _⟩
  · obtain ⟨t, arm, absent, early, met⟩ := request_answered asks quiet (·.heat) fun u zone value =>
      match asFin2 zone with
      | none => u.answer 1 Outcome.range
      | some z => (u.answer 1 Outcome.accepted).takeSetpoint z value
    refine ⟨t, arm, absent, early, fun fitted phase range => ?_, fun fitted phase range => ?_⟩
    · have none : asFin2 zone = none := dif_neg (by omega)
      have eq := met fitted phase
      rw [none] at eq
      rw [eq]
      exact publish_handedOver s (s.taken.answer 1 11) quiet
    · have some : asFin2 zone = some ⟨zone, range⟩ := dif_pos range
      have eq := met fitted phase
      rw [some] at eq
      obtain ⟨warm, view, shows, follows, zones, chosen, call, count, cell, seq⟩ :=
        setpoint_taken fits ⟨zone, range⟩ value fitted phase
      have mirrors := fits.cell.2.2.2.2.2.1
      replace eq : t = State.publish s ((s.taken.answer 1 1).takeSetpoint ⟨zone, range⟩ value) := eq
      rw [← eq] at warm view shows follows zones chosen call count cell seq
      rw [comfortDemand_eq (s := s) (by rw [seq])] at call
      have zone_eq : ∀ z, t.climate.zones.get z = if ⟨zone, range⟩ = z then (s.climate.zones.get z).setTo value
          else s.climate.zones.get z := fun z => by
        rw [zones, Tab.modify, Tab.get_set]
        split
        · next e => rw [e]
        · rfl
      refine ⟨warm, view, shows, follows, fun z => ?_, chosen, call, count, fun z => ?_⟩
      · rw [zone_eq]
        by_cases e : z.val = zone
        · have same : (⟨zone, range⟩ : Fin 2) = z := Fin.ext e.symm
          rw [if_pos e, if_pos same]
          exact ⟨rfl, rfl, zoneDemand_eq _ _⟩
        · rw [if_neg e, if_neg fun k => e (by rw [← k])]
      · rw [zone_eq, cell, Tab.get_set, mirrors]
        split <;> rfl
  · obtain ⟨t, arm, absent, early, met⟩ := request_answered asks quiet (·.heat) fun u mode _ =>
      match asMode mode with
      | none => u.answer 2 Outcome.range
      | some m =>
        if u.seq.storage then u.answer 2 Outcome.storage
        else (u.answer 2 (if m ≠ .off ∧ u.climate.lockout then Outcome.lockout else Outcome.accepted)).takeMode m
    refine ⟨t, arm, absent, early, fun fitted phase => ?_⟩
    have eq := met fitted phase
    refine ⟨fun range => ?_, fun range storage => ?_, fun range storage => ?_⟩
    · rw [asMode_none range] at eq
      rw [eq]
      exact publish_handedOver s (s.taken.answer 2 11) quiet
    · rw [asMode_some range] at eq
      dsimp only at eq
      rw [if_pos (by exact storage)] at eq
      rw [eq]
      exact publish_handedOver s (s.taken.answer 2 9) quiet
    · have off := modeOf_off (n := mode)
      have comfort := modeOf_comfort (n := mode)
      rw [asMode_some range] at eq
      generalize (if mode = 0 then ClimateMode.off else if mode = 1 then .comfort else .frostOnly) = m at *
      have shown : (if m ≠ .off ∧ s.taken.climate.lockout then Outcome.lockout else Outcome.accepted)
          = if s.climate.lockout = true ∧ mode ≠ 0 then 8 else 1 :=
        if_congr (and_comm.trans (and_congr_right fun _ => off.not)) rfl rfl
      dsimp only at eq ⊢
      rw [if_neg (show ¬ s.taken.seq.storage = true from (show ¬ s.seq.storage = true by simp [storage])), shown] at eq
      generalize (if s.climate.lockout = true ∧ mode ≠ 0 then 8 else 1) = o at *
      split
      · next same =>
        have stands : (s.taken.answer 2 o).takeMode m = s.taken.answer 2 o := if_pos (by exact same)
        rw [stands] at eq
        rw [eq]
        exact publish_handedOver s (s.taken.answer 2 o) quiet
      · next differs =>
        obtain ⟨warm, view, shows, chosen, cell, zones, call, count, frost, follows⟩ := mode_taken fits o fitted phase storage differs
        rw [← eq] at warm view shows chosen cell zones call count frost follows
        refine ⟨warm, view, shows, chosen, cell, zones, ?_, fun e => count (comfort.not.mpr e), fun e => frost (off.mpr e), follows⟩
        rw [call]
        exact congrArg _ (decide_eq_decide.mpr comfort)

end Sys2Proof.Proofs
end

