-- ==== Sys2Proof/Proofs/HeaterFailures.lean ====
section
/-! PROOFS. A failed start, fault or flame-out, and a start that runs (R113, R115). -/

namespace Sys2Proof.Machine

/-! ### Failures of the heater (R115) -/

/-- The Climate Controller after a failure: counted, locked out by the second, and purging. -/
def Climate.failed (c : Climate) : Climate :=
  { c with
    heater := .purging, hen := false, hdem := 0, startTimer := none, runTimer := none, purgeTimer := some 180000
    failures := min 2 (c.failures + 1), lockout := c.lockout || decide (1 ≤ c.failures)
    remembered := (c.call || c.frost) && !(c.lockout || decide (1 ≤ c.failures)) }

/-- The state in which a failure has been counted and Lockout declared where it is the second. -/
def State.failureCounted (s : State) : State :=
  let u := s.setClimate { s.climate with failures := min 2 (s.climate.failures + 1) }
  if u.climate.failures = 2 ∧ ¬ u.climate.lockout then u.declareLockout else u

theorem heaterFails_eq (s : State) : s.heaterFails = s.failureCounted.enterPurging := rfl

section
variable {s : State}

theorem failureCounted_climate (open_ : s.climate.lockout = false) : s.failureCounted.climate = { s.climate with
    failures := min 2 (s.climate.failures + 1), lockout := decide (1 ≤ s.climate.failures) } := by
  unfold State.failureCounted
  dsimp only
  by_cases second : 1 ≤ s.climate.failures
  · rw [if_pos ⟨show min 2 (s.climate.failures + 1) = 2 by omega, show ¬ s.climate.lockout = true by simp [open_]⟩,
      decide_eq_true second]
    exact (monitor_shared _ _ _).climate
  · rw [if_neg fun h => second (by have : min 2 (s.climate.failures + 1) = 2 := h.1; omega), decide_eq_false second, ← open_]
    rfl

theorem failureCounted_broker (s : State) : s.failureCounted.broker = s.broker := by
  unfold State.failureCounted
  dsimp only
  split
  · exact monitor_broker _ _ _
  · rfl

theorem failureCounted_warm (s : State) : Warm s s.failureCounted :=
  (setClimate_warm s _).trans (Warm.ite (declareLockout_warm _) (Warm.refl _))

theorem failureCounted_calm (s : State) : Calm s s.failureCounted :=
  (setClimate_calm s _).trans (Calm.ite (fun _ => declareLockout_calm _) (fun _ => Calm.refl _))

theorem failureCounted_locks (open_ : s.climate.lockout = false) (run : s.inRun = true) (second : 1 ≤ s.climate.failures) :
    s.failureCounted.cell.lockout = true ∧ s.failureCounted.status.summary.get Mon.lockout = true
      ∧ s.failureCounted.status.attention = true := by
  unfold State.failureCounted
  dsimp only
  rw [if_pos ⟨show min 2 (s.climate.failures + 1) = 2 by omega, show ¬ s.climate.lockout = true by simp [open_]⟩]
  unfold State.declareLockout
  dsimp only
  refine ⟨?_, ?_, ?_⟩
  · rw [monitor_eq]
    rfl
  · rw [monitor_summary, if_pos rfl]
  · rw [monitor_attention]
    show (_ || (true && true && s.inRun)) = true
    rw [run]
    exact Bool.or_true _

end

/-- A failure in a heater at work (R115). -/
structure HeaterFailed (s t : State) : Prop where
  climate : t.climate = s.climate.failed
  open_ : s.climate.lockout = false
  cell : t.climate.lockout = true → t.cell.lockout = true
  declared : 1 ≤ s.climate.failures → t.status.summary.get Mon.lockout = true ∧ t.status.attention = true
  st : (t.claim loadHeater).st = .held
  held : (t.claim loadHeater).held = min (s.claim loadHeater).held (Item.runDraw s.seq.values)

theorem heaterFails_failed {s : State} (o : s.Ok) (h : s.heaterFits) (run : s.inRun = true) (draw : 1 ≤ Item.runDraw s.seq.values)
    (work : s.climate.heater = .starting ∨ s.climate.heater = .running) : HeaterFailed s s.heaterFails := by
  have open_ : s.climate.lockout = false := by
    rw [← Bool.not_eq_true]
    intro l
    rcases h.lockout l with k | k <;> rcases work with w | w <;> rw [w] at k <;> cases k
  have held : (s.claim loadHeater).st = .held := h.held.mpr (work.imp_right .inl)
  have climate := failureCounted_climate open_
  have calm := failureCounted_calm s o
  have locks := failureCounted_locks open_ run
  have claim : s.failureCounted.claim loadHeater = s.claim loadHeater := by
    rw [State.claim, failureCounted_broker]
    rfl
  rw [heaterFails_eq]
  generalize s.failureCounted = u at *
  have seq : u.seq = s.seq := calm.2.1.seq
  obtain ⟨st, amount, -⟩ := enterPurging_held (claim ▸ held) calm.1 (by rw [seq]; exact draw)
  have purged : u.enterPurging.climate = s.climate.failed := by
    rw [enterPurging_climate]
    unfold State.purged State.heaterWanted State.inRun Climate.failed
    rw [show u.seq.phase = s.seq.phase by rw [seq], show (s.seq.phase == .run) = true from run, climate, open_]
    simp only [Bool.and_true, Bool.false_or]
  have heater : Fact (heaterAlone.loads loadHeater) := ⟨rfl⟩
  obtain ⟨-, -, tended⟩ := enterPurging_tends (k := heaterAlone) u calm.1 (waitWithin_exists u).choose_spec
  have cell : u.enterPurging.cell = u.cell := by
    unfold State.enterPurging
    dsimp only
    split
    · exact (lower_shared _ _ _).cell
    · rfl
  refine ⟨purged, open_, fun l => ?_, fun second => ?_, st, by rw [amount, claim, seq]⟩
  · rw [purged, Climate.failed, open_] at l
    rw [cell]
    exact (locks (by simpa using l)).1
  · obtain ⟨-, summary, attention⟩ := locks second
    exact ⟨(tended.summary _ not_false).trans summary, tended.attention attention⟩

/-! ### A start that runs (R113) -/

theorem enterRunning_runs {s : State} (o : s.Ok) (held : (s.claim loadHeater).st = .held) (draw : 1 ≤ Item.runDraw s.seq.values)
    (le : Item.runDraw s.seq.values ≤ (s.claim loadHeater).held) :
    s.enterRunning.climate = { s.climate with
      heater := .running, startTimer := none, runTimer := some 60000, tryFailed := false, hdem := s.heaterDemand }
    ∧ s.enterRunning.claim loadHeater = (s.claim loadHeater).lowered (Item.runDraw s.seq.values) := by
  unfold State.enterRunning
  dsimp only
  generalize hu : s.setClimate _ = u
  have climate := congrArg State.climate hu.symm
  have claim : u.claim loadHeater = s.claim loadHeater := by rw [← hu]; rfl
  have seq : u.seq = s.seq := by rw [← hu]; rfl
  have ok : u.Ok := hu ▸ (setClimate_calm s _ o).1
  obtain ⟨-, lowered⟩ := lower_claim (id := loadHeater) ok (a := Item.runDraw u.seq.values) (by rw [seq]; exact draw)
    (by rw [claim]; simp [Claim.drawing, held]) (by rw [claim, seq]; exact le)
  have shared := lower_shared u loadHeater (Item.runDraw u.seq.values)
  generalize (u.lower loadHeater (Item.runDraw u.seq.values)).1 = x at *
  refine ⟨?_, lowered.trans (by rw [claim, seq])⟩
  unfold State.updateHdem State.heaterDemand State.comfortDemand State.modeInForce
  show ({ x.climate with hdem := _ } : Climate) = _
  rw [shared.climate, shared.seq, seq, climate]
  exact congrArg (fun n => ({ s.climate with
    heater := .running, startTimer := none, runTimer := some 60000, tryFailed := false, hdem := n } : Climate))
    (if_pos (.inr rfl))

end Sys2Proof.Machine
end

