-- ==== Sys2Proof/Proofs/HeaterLinks.lean ====
section
/-! PROOFS. The commands of the heater link (R111 to R118). -/

namespace Sys2Proof.Machine

/-- What `Obligations.HeaterLink` asks after a failure. -/
def State.failsTo (s t : State) : Prop :=
  t.climate.heater = .purging ∧ t.climate.hen = false ∧ t.climate.hdem = 0
    ∧ t.climate.startTimer = none ∧ t.climate.runTimer = none ∧ t.climate.purgeTimer = some 180000
    ∧ t.climate.failures = min 2 (s.climate.failures + 1) ∧ t.climate.lockout = (s.climate.lockout || decide (1 ≤ s.climate.failures))
    ∧ t.climate.remembered = ((t.climate.call || t.climate.frost) && !t.climate.lockout)
    ∧ (t.climate.lockout = true → t.cell.lockout = true)
    ∧ (s.climate.lockout = false → 1 ≤ s.climate.failures → t.status.summary.get Mon.lockout = true ∧ t.status.attention = true)
    ∧ (t.claim loadHeater).st = .held
    ∧ (t.claim loadHeater).held = min (s.claim loadHeater).held (s.seq.values.get 27)

theorem HeaterFailed.failsTo {s v u t : State} (h : HeaterFailed v u) (posted : Posted u t) (climate : v.climate = s.climate)
    (claim : v.claim loadHeater = s.claim loadHeater) (seq : v.seq = s.seq) : s.failsTo t := by
  have fields := h.climate
  rw [climate] at fields
  have locks := h.cell
  have declared := h.declared
  have held := h.held
  rw [climate] at declared
  rw [claim, seq] at held
  unfold State.failsTo
  rw [posted.climate, posted.cell, posted.status, posted.claim]
  rw [fields] at locks ⊢
  exact ⟨rfl, rfl, rfl, rfl, rfl, rfl, rfl, rfl, rfl, locks, fun _ => declared, h.st, held⟩

/-- The state in which a purge has ended, before the heater may be asked for again (R114, R116). -/
def State.purgeEnded (s : State) : State :=
  (s.setClimate { s.climate with
    heater := if s.climate.lockout then .lockout else .off, purgeTimer := none, remembered := false }).release loadHeater

theorem purgeEnds_eq (s : State) : s.purgeEnds =
    if s.climate.remembered && s.purgeEnded.heaterWanted then s.purgeEnded.askHeater else s.purgeEnded := rfl

theorem purgeEnded_climate (s : State) : s.purgeEnded.climate = { s.climate with
    heater := if s.climate.lockout then .lockout else .off, purgeTimer := none, remembered := false } :=
  (release_shared _ _).climate

/-- The state in which ResetHeater has been accepted, before the heater follows (R116). -/
def State.lockoutReset (s : State) : State :=
  let u := s.setClimate { s.climate with
    failures := 0, lockout := false, heater := if s.climate.heater = .lockout then .off else s.climate.heater }
  if s.climate.lockout then (u.setCell { u.cell with lockout := false }).monitor Mon.lockout false else u

theorem heaterResets_eq (s : State) : s.heaterResets = s.lockoutReset.heaterFollows := rfl

section
variable (s : State)

theorem lockoutReset_sane (h : s.Sane) : s.lockoutReset.Sane :=
  ((setClimate_calm s _).keeps.trans
    (Keeps.ite (fun _ => (setCell_keeps _ _).trans (monitor_calm _ _ _).keeps) (fun _ => Keeps.refl _))) h

theorem lockoutReset_warm : Warm s s.lockoutReset :=
  (setClimate_warm s _).trans (Warm.ite ((setCell_warm _ _).trans (monitor_shared _ _ _).warm) (Warm.refl _))

theorem lockoutReset_climate : s.lockoutReset.climate = { s.climate with
    failures := 0, lockout := false, heater := if s.climate.heater = .lockout then .off else s.climate.heater } := by
  unfold State.lockoutReset
  dsimp only
  split
  · exact (monitor_shared _ _ _).climate
  · rfl

theorem lockoutReset_broker : s.lockoutReset.broker = s.broker := by
  unfold State.lockoutReset
  dsimp only
  split
  · exact monitor_broker _ _ _
  · rfl

theorem lockoutReset_cell (agrees : s.cell.lockout = s.climate.lockout) : s.lockoutReset.cell.lockout = false := by
  unfold State.lockoutReset
  dsimp only
  split
  · rw [(monitor_shared _ _ _).cell]
    rfl
  · next open_ => exact agrees.trans (by simpa using open_)

theorem lockoutReset_summary (locked : s.climate.lockout = true) : s.lockoutReset.status.summary.get Mon.lockout = false := by
  unfold State.lockoutReset
  dsimp only
  rw [if_pos locked, monitor_summary, if_pos rfl]

theorem lockoutReset_shows {code o : Nat} (h : s.shows code o) : s.lockoutReset.shows code o := by
  unfold State.lockoutReset
  dsimp only
  split
  · exact monitor_shows _ _ _ _ _ h
  · exact h

theorem lockoutReset_serial : s.lockoutReset.status.serial = s.status.serial := by
  unfold State.lockoutReset
  dsimp only
  split
  · rw [monitor_eq]
    rfl
  · rfl

theorem lockoutReset_rest : s.lockoutReset.seq = s.seq ∧ s.lockoutReset.view = s.view ∧ s.lockoutReset.motion = s.motion
    ∧ s.lockoutReset.lights = s.lights := by
  unfold State.lockoutReset
  dsimp only
  split
  · rw [monitor_eq]
    exact ⟨rfl, rfl, rfl, rfl⟩
  · exact ⟨rfl, rfl, rfl, rfl⟩

end

/-- ResetHeater clears the failures and Lockout: the heater's order stands (R116). -/
theorem lockoutReset_fits {s : State} (h : s.heaterFits) : s.lockoutReset.heaterFits := by
  have claim : s.lockoutReset.claim loadHeater = s.claim loadHeater := by rw [State.claim, lockoutReset_broker]; rfl
  unfold State.heaterFits
  rw [lockoutReset_climate, (lockoutReset_rest s).1, claim]
  by_cases locked : s.climate.heater = .lockout
  · have idle : (s.claim loadHeater).st = .idle := by
      cases e : (s.claim loadHeater).st with
      | idle => rfl
      | contest => exact absurd (h.asks (.inl e)).1 (by rw [locked]; nofun)
      | waiting => exact absurd (h.asks (.inr e)).1 (by rw [locked]; nofun)
      | forced => exact absurd e h.unforced
      | held => rcases h.held.mp e with k | k | k <;> rw [k] at locked <;> cases locked
    have timers : s.climate.hen = false ∧ s.climate.startTimer = none ∧ s.climate.runTimer = none ∧ s.climate.purgeTimer = none := by
      have hen := h.hen
      have start := h.startTimer
      have run := h.runTimer
      have purge := h.purgeTimer
      rw [locked] at hen start run purge
      simp at hen start run purge
      exact ⟨hen, start, run, purge⟩
    obtain ⟨hen, start, run, purge⟩ := timers
    rw [if_pos locked]
    exact { zones := h.zones, hdem := h.hdem, cold := h.cold
            single := by rw [idle]; nofun
            hen := by simp [hen]
            held := by simp [idle]
            asks := by rw [idle]; nofun
            starting := nofun
            running := nofun
            startTimer := by simp [start]
            runTimer := by simp [run]
            purgeTimer := by simp [purge]
            locked := nofun
            lockout := nofun
            failures := Nat.zero_le _
            unforced := by rw [idle]; nofun
            standing := by rw [idle]; nofun }
  · rw [if_neg locked]
    exact { h with lockout := nofun, failures := Nat.zero_le _, locked := fun e => absurd e locked }

end Sys2Proof.Machine

namespace Sys2Proof.Proofs
open Sys2Proof.Machine

section
variable {s : State} (fits : s.Fits)
include fits

/-- A heater at work holds its claim, in Run on a station with the function. -/
theorem heater_works (work : s.climate.heater = .starting ∨ s.climate.heater = .running) :
    (s.claim loadHeater).st = .held ∧ s.inRun = true := by
  have held : (s.claim loadHeater).st = .held := fits.heater.held.mpr (work.imp_right .inl)
  obtain ⟨-, -, claims⟩ := fits.claims
  obtain ⟨asks, -⟩ := claims loadHeater
  exact ⟨held, (asks (by rw [held]; nofun)).1⟩

/-- A failure, in a state that differs from one in order by a pin alone. -/
theorem fails_published (p : Pins) (work : s.climate.heater = .starting ∨ s.climate.heater = .running) :
    let t := State.publish s (s.setPins p).heaterFails
    Warm (s.setPins p) t ∧ t.view = s.view ∧ s.failsTo t := by
  have failed := heaterFails_failed (s := s.setPins p) (setPins_sane fits.sound.sane p).ok
    (fits.heater.congr rfl rfl rfl) (heater_works fits work).2 fits.values.runDraw work
  obtain ⟨posted, view⟩ := calm_posted s fits.sound (setPins_sane fits.sound.sane p) rfl rfl rfl (heaterFails_calm _)
  exact ⟨posted.warm (heaterFails_warm _), view, failed.failsTo posted rfl rfl rfl⟩

theorem hrun_taken (a : Bool) : ∃ t, exec (.hrunChange a) s = .next t ∧
    (s.climate.heater = .starting → a = true → Warm (s.setPins { s.pins with hrun := a }) t ∧ t.view = s.view
        ∧ t.climate.heater = .running ∧ t.climate.hen = true ∧ t.climate.startTimer = none
        ∧ t.climate.runTimer = some 60000 ∧ t.climate.hdem = s.heaterDemand ∧ t.climate.failures = s.climate.failures
        ∧ (t.claim loadHeater).st = .held ∧ (t.claim loadHeater).held = s.seq.values.get 27
        ∧ (t.claim loadHeater).rank = (s.claim loadHeater).rank)
      ∧ (s.climate.heater = .running → a = false → s.pins.hflt = false →
          Warm (s.setPins { s.pins with hrun := a }) t ∧ t.view = s.view ∧ s.failsTo t)
      ∧ (¬ (s.climate.heater = .starting ∧ a = true) → ¬ (s.climate.heater = .running ∧ a = false ∧ s.pins.hflt = false) →
          (s.setPins { s.pins with hrun := a }).handedOver t) := by
  have quiet := fits.sound.quiet.1
  have arm : ∀ u, (match s.climate.heater, a with
      | .starting, true => (s.setPins { s.pins with hrun := a }).enterRunning
      | .running, false => if s.pins.hflt then s.setPins { s.pins with hrun := a }
        else (s.setPins { s.pins with hrun := a }).heaterFails
      | _, _ => s.setPins { s.pins with hrun := a }) = u → exec (.hrunChange a) s = .next (State.publish s u) := by
    intro u e
    rw [← e]
    rfl
  generalize hv : s.setPins { s.pins with hrun := a } = v at arm
  have sane : v.Sane := hv ▸ setPins_sane fits.sound.sane _
  have handed : v.handedOver (State.publish s v) := publish_handedOver s v (by rw [← hv]; exact quiet)
  by_cases starts : s.climate.heater = .starting ∧ a = true
  · obtain ⟨starting, rfl⟩ := starts
    refine ⟨_, arm v.enterRunning (by rw [starting]), fun _ _ => ?_, fun e => (by rw [starting] at e; cases e),
      fun n => absurd ⟨starting, rfl⟩ n⟩
    have held := fits.heater.starting starting
    have st := (heater_works fits (.inl starting)).1
    obtain ⟨-, one, le⟩ := fits.values.heaterDraws
    have hen := fits.heater.hen.mpr (.inl starting)
    obtain ⟨climate, claim⟩ := enterRunning_runs (s := v) sane.ok (by rw [← hv]; exact st) (by rw [← hv]; exact one)
      (by rw [← hv]; exact le.trans held.ge)
    obtain ⟨posted, view⟩ := calm_posted s fits.sound sane (by rw [← hv]; rfl) (by rw [← hv]; rfl) (by rw [← hv]; rfl)
      (enterRunning_calm v)
    refine ⟨posted.warm (enterRunning_warm v), view, ?_⟩
    rw [posted.climate, posted.claim, climate, claim, ← hv]
    exact ⟨rfl, hen, rfl, rfl, rfl, rfl, st, rfl, rfl⟩
  by_cases lost : s.climate.heater = .running ∧ a = false ∧ s.pins.hflt = false
  · obtain ⟨running, rfl, quietFault⟩ := lost
    refine ⟨_, arm v.heaterFails (by rw [running]; exact if_neg (by simp [quietFault])), fun e => (by rw [running] at e; cases e),
      fun _ _ _ => ?_, fun _ n => absurd ⟨running, rfl, quietFault⟩ n⟩
    rw [← hv]
    exact fails_published fits _ (.inr running)
  · refine ⟨_, arm v ?_, fun e k => absurd ⟨e, k⟩ starts, fun e k f => absurd ⟨e, k, f⟩ lost, fun _ _ => handed⟩
    cases heater : s.climate.heater with
    | starting =>
      cases a with
      | true => exact absurd ⟨heater, rfl⟩ starts
      | false => rfl
    | running =>
      cases a with
      | true => rfl
      | false =>
        have fault : s.pins.hflt = true := by
          rw [← Bool.not_eq_false]
          exact fun f => lost ⟨heater, rfl, f⟩
        exact if_pos fault
    | _ => cases a <;> rfl

theorem hflt_taken (a : Bool) : ∃ t, exec (.hfltChange a) s = .next t ∧
    if a = true ∧ (s.climate.heater = .starting ∨ s.climate.heater = .running) then
      Warm (s.setPins { s.pins with hflt := a }) t ∧ t.view = s.view ∧ s.failsTo t
    else (s.setPins { s.pins with hflt := a }).handedOver t := by
  have quiet := fits.sound.quiet.1
  have arm : ∀ u, (match s.climate.heater, a with
      | .starting, true => (s.setPins { s.pins with hflt := a }).heaterFails
      | .running, true => (s.setPins { s.pins with hflt := a }).heaterFails
      | _, _ => s.setPins { s.pins with hflt := a }) = u → exec (.hfltChange a) s = .next (State.publish s u) := by
    intro u e
    rw [← e]
    rfl
  by_cases fault : a = true ∧ (s.climate.heater = .starting ∨ s.climate.heater = .running)
  · obtain ⟨rfl, work⟩ := fault
    refine ⟨_, arm (s.setPins { s.pins with hflt := true }).heaterFails ?_, ?_⟩
    · rcases work with e | e <;> rw [e]
    · rw [if_pos ⟨rfl, work⟩]
      exact fails_published fits _ work
  · refine ⟨_, arm (s.setPins { s.pins with hflt := a }) ?_, ?_⟩
    · cases a with
      | true =>
        cases heater : s.climate.heater with
        | starting => exact absurd ⟨rfl, .inl heater⟩ fault
        | running => exact absurd ⟨rfl, .inr heater⟩ fault
        | _ => rfl
      | false => cases s.climate.heater <;> rfl
    · rw [if_neg fault]
      exact publish_handedOver s (s.setPins { s.pins with hflt := a }) quiet

theorem purge_ended (timed : s.climate.purgeTimer.isSome = true) : ∃ t, exec .purgeTimerExpiry s = .next t ∧
    Warm s t ∧ t.view = s.view ∧ t.climate.purgeTimer = none ∧ t.climate.hen = false
      ∧ t.climate.heater = (if s.climate.lockout = true then .lockout else .off)
      ∧ ((s.climate.remembered && ((s.climate.call || s.climate.frost) && !s.climate.lockout) && s.inRun) = false →
          (t.claim loadHeater).st = .idle)
      ∧ ((s.climate.remembered && ((s.climate.call || s.climate.frost) && !s.climate.lockout) && s.inRun) = true →
          (t.claim loadHeater).asked = s.seq.values.get 26
          ∧ (t.claim loadHeater).rank = (if s.climate.frost = true then 1 else 4)
          ∧ ((t.claim loadHeater).st = .contest ∨ (t.claim loadHeater).st = .waiting)) := by
  have arm : exec .purgeTimerExpiry s = .next (State.publish s s.purgeEnds) := by
    show done s _ = _
    rw [if_pos timed]
    rfl
  have purging := fits.heater.purgeTimer.mp timed
  have hen : s.climate.hen = false := by
    rw [← Bool.not_eq_true, fits.heater.hen, purging]
    simp
  have calm : Calm s s.purgeEnded := (setClimate_calm s _).trans (release_calm _ _)
  have warm : Warm s s.purgeEnded := (setClimate_warm s _).trans (release_shared _ _).warm
  have idle : (s.purgeEnded.claim loadHeater).st = .idle := release_idle (setClimate_calm s _ fits.sound.ok).1 loadHeater
  have climate := purgeEnded_climate s
  rw [purgeEnds_eq] at arm
  generalize s.purgeEnded = u at *
  obtain ⟨ok, base, -⟩ := calm fits.sound.ok
  have wanted : (s.climate.remembered && u.heaterWanted)
      = (s.climate.remembered && ((s.climate.call || s.climate.frost) && !s.climate.lockout) && s.inRun) := by
    unfold State.heaterWanted State.inRun
    rw [climate, base.seq]
    exact (Bool.and_assoc _ _ _).symm
  rw [wanted] at arm
  split at arm
  · next again =>
    obtain ⟨posted, view⟩ := calm_posted s fits.sound fits.sound.sane rfl rfl rfl (calm.trans (askHeater_calm u))
    obtain ⟨asked, rank, state⟩ := askHeater_claim (s := u) (by simp [Claim.drawing, idle]) ok
      (by rw [base.seq]; exact fits.values.startDraw)
    have fields := askHeater_climate u
    rw [climate] at fields
    have reason : u.heaterRank = if s.climate.frost = true then 1 else 4 := by
      unfold State.heaterRank
      rw [climate]
    refine ⟨_, arm, posted.warm (warm.trans (askHeater_warm u)), view, ?_, ?_, ?_, fun n => absurd again (by rw [n]; nofun), fun _ => ?_⟩
    · rw [posted.climate, fields]
    · rw [posted.climate, fields]; exact hen
    · rw [posted.climate, fields]
    · rw [posted.claim]
      exact ⟨asked.trans (by rw [base.seq]; rfl), rank.trans reason, state.imp And.left And.left⟩
  · next still =>
    obtain ⟨posted, view⟩ := calm_posted s fits.sound fits.sound.sane rfl rfl rfl calm
    refine ⟨_, arm, posted.warm warm, view, ?_, ?_, ?_, fun _ => ?_, fun n => absurd n still⟩
    · rw [posted.climate, climate]
    · rw [posted.climate, climate]; exact hen
    · rw [posted.climate, climate]
    · rw [posted.claim]; exact idle

theorem heater_reset (fitted : s.seq.fns.heat = true) (phase : s.seq.phase = .run) :
    let t := State.publish s (s.taken.answer 3 1).heaterResets
    let wants := (t.climate.call || t.climate.frost) && !t.climate.lockout
    Warm s t ∧ t.view = s.view ∧ t.shows 3 1
      ∧ t.climate.failures = 0 ∧ t.climate.lockout = false ∧ t.cell.lockout = false
      ∧ (s.climate.lockout = true → t.status.summary.get Mon.lockout = false)
      ∧ (s.climate.heater = .lockout → t.climate.heater = .off
          ∧ (wants = true → (t.claim loadHeater).asked = s.seq.values.get 26)
          ∧ (wants = false → (t.claim loadHeater).st = .idle))
      ∧ (s.climate.heater = .purging → t.climate.heater = .purging ∧ t.climate.purgeTimer = s.climate.purgeTimer) := by
  have saneA : (s.taken.answer 3 1).Sane := (answer_calm _ _ _).keeps (taken_keeps s fits.sound.sane)
  have answered := answer_shows s 3 1
  have fields : (s.taken.answer 3 1).seq = s.seq ∧ (s.taken.answer 3 1).view = s.view ∧ (s.taken.answer 3 1).motion = s.motion
    ∧ (s.taken.answer 3 1).lights = s.lights ∧ (s.taken.answer 3 1).climate = s.climate ∧ (s.taken.answer 3 1).cell = s.cell
    ∧ (s.taken.answer 3 1).broker = s.broker := ⟨rfl, rfl, rfl, rfl, rfl, rfl, rfl⟩
  have warmA : Warm s (s.taken.answer 3 1) := rfl
  generalize s.taken.answer 3 1 = a at *
  obtain ⟨seqA, viewA, motionA, lightsA, climateA, cellA, brokerA⟩ := fields
  have mirrors : a.cell.lockout = a.climate.lockout := by
    rw [cellA, climateA]
    exact fits.cell.2.2.2.2.2.2.2.1
  have orderA : a.heaterFits := fits.heater.congr climateA (by rw [seqA]) (by rw [State.claim, brokerA]; rfl)
  obtain ⟨seq, view, motion, lights⟩ := lockoutReset_rest a
  have sane := lockoutReset_sane a saneA
  have order := lockoutReset_fits orderA
  have climate := lockoutReset_climate a
  have cell := lockoutReset_cell a mirrors
  have cleared := lockoutReset_summary a
  have shown := lockoutReset_shows a answered.1
  have serial := lockoutReset_serial a
  have claim : a.lockoutReset.claim loadHeater = s.claim loadHeater := by
    rw [State.claim, lockoutReset_broker, brokerA]
    rfl
  have warm := warmA.trans (lockoutReset_warm a)
  rw [heaterResets_eq]
  generalize a.lockoutReset = u at *
  rw [climateA] at climate cleared
  rw [seqA] at seq
  have run : u.inRun = true := by rw [State.inRun, seq, phase]; rfl
  have followed := heaterFollows_followed sane.ok order (by unfold State.heaterDraws; rw [seq]; exact fits.values.heaterDraws)
    (by rw [seq]; exact fitted) run
  have heater : Fact (heaterAlone.loads loadHeater) := ⟨rfl⟩
  have tends : Tends heaterAlone s.status.serial u u.heaterFollows := heaterFollows_tends u
  have shows := shows_after fits.requests sane.ok shown (by rw [serial]; exact answered.2) (motion.trans motionA)
    (lights.trans lightsA) tends
  obtain ⟨-, -, tended⟩ := tends sane.ok (by
    unfold State.waitWithin State.chan State.group
    rw [motion, lights, motionA, lightsA]
    exact fits.requests)
  have calm := heaterFollows_calm u sane.ok
  obtain ⟨posted, view'⟩ := calm_posted s fits.sound sane (view.trans viewA) seq (motion.trans motionA) (heaterFollows_calm u)
  have lockout : u.heaterFollows.climate.lockout = false := by rw [followed.locked, climate]
  have kept : u.heaterFollows.cell.lockout = false :=
    (tended.lockout (by rw [cell, climate])).trans lockout
  have wants : u.heaterWanted = ((u.heaterFollows.climate.call || u.heaterFollows.climate.frost) && !u.heaterFollows.climate.lockout) := by
    unfold State.heaterWanted
    rw [run, Bool.and_true, followed.call, followed.frost, followed.locked]
  dsimp only
  rw [posted.climate, posted.claim, posted.cell, posted.status]
  refine ⟨posted.warm (warm.trans (heaterFollows_warm u)), view', ?_, ?_, lockout, kept, fun l => ?_, fun locked => ?_, fun purging => ?_⟩
  · unfold State.shows at *
    rw [posted.status]
    exact shows
  · rw [followed.climate, climate]
  · rw [tended.summary _ not_false]
    exact cleared l
  · have off : u.climate.heater = .off := by rw [climate]; exact if_pos locked
    have stays : u.heaterFollows.climate.heater = .off := by
      rcases followed.stays with e | ⟨e, -⟩
      · exact e.trans off
      · rw [off] at e; simp at e
    refine ⟨stays, fun w => ?_, fun w => ?_⟩
    · rw [← wants] at w
      have has := (followed.off stays).mp w
      have asks : (u.heaterFollows.claim loadHeater).st = .contest ∨ (u.heaterFollows.claim loadHeater).st = .waiting := by
        cases e : (u.heaterFollows.claim loadHeater).st with
        | idle => exact absurd e has
        | contest => exact .inl rfl
        | waiting => exact .inr rfl
        | forced => exact absurd e followed.fits.unforced
        | held => rcases followed.fits.held.mp e with k | k | k <;> rw [k] at stays <;> cases stays
      rw [(followed.fits.asks asks).2, calm.2.1.seq, seq]
      rfl
    · rw [← wants] at w
      by_contra has
      rw [(followed.off stays).mpr has] at w
      cases w
  · have still : u.climate.heater = .purging := by rw [climate]; show (if _ then _ else _) = _; rw [purging]; rfl
    obtain ⟨-, timer, -⟩ := followed.awaits still
    refine ⟨?_, by rw [timer, climate]⟩
    rcases followed.stays with e | ⟨-, e⟩
    · exact e.trans still
    · exact e

end

/-- Settles O53, command by command. -/
theorem heaterLink : Obligations.HeaterLink := by
  unfold Obligations.HeaterLink
  intro s fits
  have quiet := fits.sound.quiet.1
  refine ⟨fun a => hrun_taken fits a, fun a => hflt_taken fits a, fun timed => ?_, fun timed => ?_,
    fun timed => purge_ended fits timed, fun i v asks => ?_⟩
  · have arm : exec .startTimerExpiry s = .next (State.publish s s.heaterFails) := by
      show done s _ = _
      rw [if_pos timed]
      rfl
    exact ⟨_, arm, fails_published fits s.pins (.inl (fits.heater.startTimer.mp timed))⟩
  · have arm : exec .runTimerExpiry s
        = .next (State.publish s (s.setClimate { s.climate with failures := 0, runTimer := none })) := by
      show done s _ = _
      rw [if_pos timed]
      rfl
    exact ⟨_, arm, publish_handedOver s (s.setClimate { s.climate with failures := 0, runTimer := none }) quiet⟩
  · obtain ⟨t, arm, absent, early, met⟩ := request_answered asks quiet (·.heat) fun u _ _ =>
      (u.answer 3 Outcome.accepted).heaterResets
    refine ⟨t, arm, absent, early, fun fitted phase => ?_⟩
    rw [met fitted phase]
    exact heater_reset fits fitted phase

end Sys2Proof.Proofs
end

