-- ==== Sys2Proof/Proofs/StatusKept.lean ====
section
/-! PROOFS. What a channel's step leaves of Station Status and of its claim (R159, R180). -/

namespace Sys2Proof.Machine

/-! ### Operations that leave Station Status -/

/-- From an orderly state an operation keeps order and leaves Station Status. -/
def Hushed (s t : State) : Prop := s.Ok → t.Ok ∧ t.status = s.status

theorem Hushed.refl (s : State) : Hushed s s := fun o => ⟨o, rfl⟩

theorem Hushed.trans {s t u : State} (h : Hushed s t) (k : Hushed t u) : Hushed s u := fun o =>
  have a := h o
  have b := k a.1
  ⟨b.1, b.2.trans a.2⟩

theorem Hushed.ite {c : Prop} [Decidable c] {s a b : State} (h : c → Hushed s a) (k : ¬ c → Hushed s b) :
    Hushed s (if c then a else b) := by
  split
  · exact h ‹_›
  · exact k ‹_›

theorem Hushed.foldl {α : Type} (f : State → α → State) (h : ∀ s x, Hushed s (f s x)) (l : List α) (s : State) :
    Hushed s (l.foldl f s) := by
  induction l generalizing s with
  | nil => exact Hushed.refl s
  | cons x xs ih => exact (h s x).trans (ih (f s x))

theorem Asks.hushed {p : Fin 7 → Prop} {s t : State} (h : Asks p s t) : Hushed s t := fun o => ⟨(h o).1, (h o).2.status⟩

theorem Calm.hushed {s t : State} (h : Calm s t) (status : t.status = s.status) : Hushed s t := fun o => ⟨(h o).1, status⟩

/-! ### The courtesy light (R159): its changes come from no request -/

theorem setLight_hushed (s : State) (ch : Fin 8) (l : Light) : Hushed s (s.setLight ch l) := (setLight_calm s ch l).hushed rfl

theorem setLights_hushed (s : State) (l : Lights) : Hushed s (s.setLights l) := (setLights_calm s l).hushed rfl

theorem setGroup_hushed (s : State) (g : Fin 2) (x : Group) : Hushed s (s.setGroup g x) := (setGroup_calm s g x).hushed rfl

theorem amend_hushed (s : State) (g : Fin 2) : Hushed s (s.amend g) :=
  Hushed.ite (fun _ => Hushed.ite (fun _ => (release_asks s _).hushed)
    (fun _ => Hushed.ite (fun _ => (lower_asks s _ _).hushed) (fun _ => Hushed.refl s))) (fun _ => Hushed.refl s)

theorem takeTargets_hushed (s : State) (g : Fin 2) (t : Tab 4 Nat) : Hushed s (s.takeTargets g t) :=
  (Hushed.foldl _ (fun s _ => setLight_hushed s _ _) _ s).trans (amend_hushed _ g)

theorem finishRequest_zero (s : State) : s.finishRequest 0 = s := by
  unfold State.finishRequest State.reviseOutcome
  split
  · rfl
  · rfl

theorem requestTaken_hushed (s : State) (g : Fin 2) (r : GroupReq) (none : r.req = 0) : Hushed s (s.requestTaken g r) := by
  unfold State.requestTaken
  rw [none, finishRequest_zero]
  exact (setGroup_hushed s g _).trans (takeTargets_hushed _ g _)

theorem requestRefused_hushed (s : State) (g : Fin 2) (r : GroupReq) (none : r.req = 0) : Hushed s (s.requestRefused g r) := by
  unfold State.requestRefused
  rw [none, finishRequest_zero]
  exact (setGroup_hushed s g _).trans (amend_hushed _ g)

theorem askGroup_hushed (s : State) (g : Fin 2) (a : Nat) : Hushed s (s.askGroup g a).1 := (askGroup_asks s g a).hushed

theorem tryScales_hushed (g : Fin 2) (r : GroupReq) (l : List Nat) (s : State) (none : r.req = 0) : Hushed s (tryScales g r l s) := by
  induction l generalizing r s with
  | nil => exact requestRefused_hushed s g r none
  | cons x xs ih =>
    unfold tryScales
    refine Hushed.ite (fun _ => requestTaken_hushed s g _ none) (fun _ => ?_)
    have put := setGroup_hushed s g { s.group g with
      pending := some { r with trial := s.scaledTargets g r.want x, scale := x } }
    have asked := askGroup_hushed (s.setGroup g { s.group g with
      pending := some { r with trial := s.scaledTargets g r.want x, scale := x } }) g
      (s.covering g (s.scaledTargets g r.want x))
    dsimp only
    split
    · next t e =>
      rw [e] at asked
      exact put.trans (asked.trans (ih _ t none))
    · next t e =>
      rw [e] at asked
      exact put.trans (asked.trans (requestTaken_hushed t g _ none))
    · next t _ _ _ e =>
      rw [e] at asked
      exact put.trans asked

theorem changeGroup_hushed (s : State) (g : Fin 2) (t : Tab 4 Nat) : Hushed s (s.changeGroup g t 0) := by
  unfold State.changeGroup
  refine Hushed.ite (fun _ => takeTargets_hushed s g _) (fun _ => ?_)
  generalize t.map (fun x => min x s.lights.ceiling) = w
  have put := setGroup_hushed s g { s.group g with pending := some { want := w, trial := w, scale := 1000, req := 0 } }
  have asked := askGroup_hushed (s.setGroup g { s.group g with
    pending := some { want := w, trial := w, scale := 1000, req := 0 } }) g (s.covering g w)
  dsimp only
  split
  · next t e =>
    rw [e] at asked
    exact put.trans (asked.trans (tryScales_hushed g _ _ t rfl))
  · next t e =>
    rw [e] at asked
    exact put.trans (asked.trans (requestTaken_hushed t g _ rfl))
  · next t _ _ _ e =>
    rw [e] at asked
    exact put.trans asked

theorem courtesyChange_hushed (s : State) (ch : Fin 8) (d : CourtesyDue) : Hushed s (s.courtesyChange ch d) := by
  unfold State.courtesyChange
  refine Hushed.ite (fun _ => setLights_hushed s _) (fun _ => (setLights_hushed s { s.lights with due := .none }).trans ?_)
  cases d with
  | none => exact Hushed.refl _
  | light => exact Hushed.ite (fun _ => changeGroup_hushed _ _ _) (fun _ => Hushed.refl _)
  | restore => exact changeGroup_hushed _ _ _

theorem courtesyFollows_hushed (s : State) (lost : Option Nat) : Hushed s (s.courtesyFollows lost) := by
  unfold State.courtesyFollows
  refine Hushed.ite (fun _ => Hushed.refl s) (fun _ => ?_)
  split
  · exact Hushed.refl s
  · intro o
    rw [readAll_checked o.checked]
    revert o
    dsimp only
    split
    · exact (setLights_hushed s _).trans
        (Hushed.ite (fun _ => Hushed.refl _) (fun _ => Hushed.ite (fun _ => setLights_hushed _ _)
          (fun _ => (setLights_hushed _ _).trans (courtesyChange_hushed _ _ _))))
    · exact (setLights_hushed s _).trans
        (Hushed.ite (fun _ => setLights_hushed _ _) (fun _ => Hushed.refl _))

theorem stepSeen_hushed (s : State) (ch : Fin 2) : Hushed s (s.stepSeen ch) :=
  Hushed.ite (fun _ => courtesyFollows_hushed s none) (fun _ => Hushed.refl s)

/-! ### What the step's state change leaves of a channel and its claim -/

/-- The light groups' claims are reached, and no monitor. -/
def lightsReach : Scope := { mons := fun _ => False, loads := fun id => 5 ≤ id.val }

theorem lightsReach_lit (g : Fin 2) : Fact (lightsReach.loads (loadLights g)) := ⟨show 5 ≤ (loadLights g).val by decide +revert⟩

theorem stepSeen_motion (s : State) (ch : Fin 2) : (s.stepSeen ch).motion = s.motion :=
  have lit : (s.stepSeen ch) = _ := stepSeen_lit s ch
  by rw [lit]

theorem stepSeen_stirs {s : State} (o : s.Ok) (ch : Fin 2) {id : Fin 7} (low : id.val < 5) :
    (s.claim id).stirs ((s.stepSeen ch).claim id) := by
  have lit := lightsReach_lit
  obtain ⟨-, -, tended⟩ := (stepSeen_tends (k := lightsReach) s ch) o (waitWithin_exists s).choose_spec
  exact tended.claims id (show ¬ 5 ≤ id.val by omega)

theorem Claim.stirs_same {c d : Claim} (h : c.stirs d) (not : c.st ≠ .waiting) : d = c :=
  h.elim id fun k => absurd k.1 not

theorem stepSeen_claim {s : State} (o : s.Ok) (ch : Fin 2) {id : Fin 7} (low : id.val < 5) (not : (s.claim id).st ≠ .waiting) :
    (s.stepSeen ch).claim id = s.claim id :=
  Claim.stirs_same (stepSeen_stirs o ch low) not

theorem motor_low (ch : Fin 2) : (loadMotor ch).val < 5 := by decide +revert

end Sys2Proof.Machine
end

