-- ==== Sys2Proof/Proofs/Channels.lean ====
section
/-! PROOFS. Dwells, arrivals and starts of a channel (R130 to R132). -/

namespace Sys2Proof.Machine

/-! ### A channel put to a new state -/

theorem tab_set_set {n : Nat} {α : Type} (t : Tab n α) (i : Fin n) (x y : α) : (t.set i x).set i y = t.set i y := by
  apply Tab.ext_get
  intro j
  rw [Tab.get_set, Tab.get_set, Tab.get_set]
  split
  · rfl
  · rfl

theorem setChan_ok {s : State} (o : s.Ok) (ch : Fin 2) (c : Chan) : (s.setChan ch c).Ok :=
  ⟨o.checked, o.lanes, o.claims, o.dropped, o.changes⟩

theorem chan_setChan (s : State) (ch o : Fin 2) (c : Chan) : (s.setChan ch c).chan o = if ch = o then c else s.chan o :=
  Tab.get_set _ _ _ _

theorem chan_setChan_self (s : State) (ch : Fin 2) (c : Chan) : (s.setChan ch c).chan ch = c := by
  rw [chan_setChan, if_pos rfl]

theorem chan_of_motion {s t : State} (h : t.motion = s.motion) (ch : Fin 2) : t.chan ch = s.chan ch := by
  rw [State.chan, h]
  rfl

/-- The Motion Controller with channel `ch` put to `c`, all else of it as in `s`. -/
def State.puts (s : State) (ch : Fin 2) (c : Chan) (t : State) : Prop := t.motion = (s.setChan ch c).motion

section
variable {s t u : State} {ch : Fin 2} {c d : Chan}

theorem puts_self (s : State) (ch : Fin 2) (c : Chan) : s.puts ch c (s.setChan ch c) := rfl

theorem puts_same (s : State) (ch : Fin 2) : s.puts ch (s.chan ch) s := by
  unfold State.puts State.setChan State.chan
  show s.motion = { s.motion with chans := s.motion.chans.set ch (s.motion.chans.get ch) }
  rw [Tab.set_get]

theorem State.puts.chan (h : s.puts ch c t) : t.chan ch = c := (chan_of_motion h ch).trans (chan_setChan_self s ch c)

theorem State.puts.other (h : s.puts ch c t) (o : Fin 2) (ne : o ≠ ch) : t.chan o = s.chan o := by
  rw [chan_of_motion h, chan_setChan, if_neg (Ne.symm ne)]

theorem State.puts.trans (h : s.puts ch c t) (k : t.puts ch d u) : s.puts ch d u := by
  unfold State.puts State.setChan at *
  rw [k, h]
  exact congrArg (fun x => ({ s.motion with chans := x } : Motion)) (tab_set_set s.motion.chans ch c d)

theorem State.puts.still (h : s.puts ch c t) (k : u.motion = t.motion) : s.puts ch c u := by
  unfold State.puts at *
  rw [k, h]

theorem State.puts.wind (h : s.puts ch c t) : t.motion = { s.motion with chans := t.motion.chans } := by
  unfold State.puts at h
  rw [h]
  rfl

end

/-! ### Entering a dwell (R132) -/

/-- The channel as it brakes. -/
def Chan.braked (c : Chan) (f : Move) (req : Nat) : Chan :=
  { c with
    st := .braking, bridge := .short, pending := .none, followOn := f, protective := false, req := req
    travel := none, stall := none, backoff := none, idle := none, dwell := some 300 }

section
variable (s : State) (ch : Fin 2) (f : Move) (req : Nat) (keep : Bool)

theorem brake_puts : s.puts ch ((s.chan ch).braked f req) (s.brake ch f req keep) := by
  unfold State.brake
  dsimp only
  generalize hu : s.modChan ch _ = u
  have put : s.puts ch ((s.chan ch).braked f req) u := by rw [← hu]; rfl
  refine put.still ((stepSeen_motion _ ch).trans ?_)
  split
  · rfl
  · exact (release_shared _ _).motion

theorem brake_hushed : Hushed s (s.brake ch f req keep) := by
  unfold State.brake
  dsimp only
  generalize hu : s.modChan ch _ = u
  have first : Hushed s u := fun o => ⟨hu ▸ setChan_ok o ch _, by rw [← hu]; rfl⟩
  exact first.trans ((Hushed.ite (fun _ => Hushed.refl u) (fun _ => (release_asks u _).hushed)).trans (stepSeen_hushed _ ch))

variable {s ch f req keep} (o : s.Ok)
include o

/-- The claim is kept for a follow-on that moves (R132). -/
theorem brake_keeps (k : keep = true) (moves : f.isMove = true) (held : (s.claim (loadMotor ch)).st = .held) :
    (s.brake ch f req keep).claim (loadMotor ch) = s.claim (loadMotor ch) := by
  unfold State.brake
  dsimp only
  generalize hu : s.modChan ch _ = u
  have ok : u.Ok := hu ▸ setChan_ok o ch _
  have claim : u.claim (loadMotor ch) = s.claim (loadMotor ch) := by rw [← hu]; rfl
  rw [if_pos (by simp [k, moves, State.motorHeld, claim, held]), stepSeen_claim ok ch (motor_low ch) (by rw [claim, held]; nofun), claim]

/-- Otherwise it is released. -/
theorem brake_frees (h : keep = false ∨ f.isMove = false ∨ (s.claim (loadMotor ch)).st ≠ .held) :
    ((s.brake ch f req keep).claim (loadMotor ch)).st = .idle := by
  unfold State.brake
  dsimp only
  generalize hu : s.modChan ch _ = u
  have ok : u.Ok := hu ▸ setChan_ok o ch _
  have claim : u.claim (loadMotor ch) = s.claim (loadMotor ch) := by rw [← hu]; rfl
  have not : ¬ (keep && f.isMove && u.motorHeld ch) = true := by
    unfold State.motorHeld
    rw [claim]
    rcases h with h | h | h <;> simp [h]
  have idle := release_idle ok (loadMotor ch)
  rw [if_neg not, stepSeen_claim (release_calm u _ ok).1 ch (motor_low ch) (by rw [idle]; nofun)]
  exact idle

end

/-! ### Coming to rest (R132, R137) -/

/-- The channel as it settles. -/
def Chan.settled (c : Chan) (st : MState) (pending : Move) (req : Nat) : Chan :=
  { c with
    st := st, bridge := .off, pending := pending, followOn := .none, protective := false, req := req, dwell := none
    idle := if pending = .none then some 600000 else none }

section
variable (s : State) (ch : Fin 2) (st : MState) (pending : Move) (req : Nat)

theorem settle_puts : s.puts ch ((s.chan ch).settled st pending req) (s.settle ch st pending req) :=
  (puts_self s ch _).still (stepSeen_motion _ ch)

theorem settle_hushed : Hushed s (s.settle ch st pending req) := by
  unfold State.settle
  generalize hu : s.modChan ch _ = u
  have first : Hushed s u := fun o => ⟨hu ▸ setChan_ok o ch _, by rw [← hu]; rfl⟩
  exact first.trans (stepSeen_hushed u ch)

theorem settle_stirs (o : s.Ok) : (s.claim (loadMotor ch)).stirs ((s.settle ch st pending req).claim (loadMotor ch)) := by
  unfold State.settle
  generalize hu : s.modChan ch _ = u
  have claim : u.claim (loadMotor ch) = s.claim (loadMotor ch) := by rw [← hu]; rfl
  rw [← claim]
  exact stepSeen_stirs (hu ▸ setChan_ok o ch _) ch (motor_low ch)

end

/-! ### The monitors of a channel (R131, R133, R134, R136) -/

section
variable (s : State) (ch : Fin 2)

theorem monitor_motion (n : Fin 19) (d : Bool) : (s.monitor n d).motion = s.motion := (monitor_shared s n d).motion

theorem monitor_claimOf (n : Fin 19) (d : Bool) (id : Fin 7) : (s.monitor n d).claim id = s.claim id := by
  rw [State.claim, monitor_broker]
  rfl

theorem clearStall_puts : s.puts ch { s.chan ch with stalled := false } (s.clearStall ch) := by
  unfold State.clearStall
  split
  · exact (puts_self s ch _).still (monitor_motion _ _ _)
  · next clear =>
    have same : { s.chan ch with stalled := false } = s.chan ch := by
      rw [Bool.not_eq_true] at clear
      rw [← clear]
    rw [same]
    exact puts_same s ch

theorem clearTravelFault_puts : s.puts ch { s.chan ch with travelFault := false } (s.clearTravelFault ch) := by
  unfold State.clearTravelFault
  split
  · exact (puts_self s ch _).still (monitor_motion _ _ _)
  · next clear =>
    have same : { s.chan ch with travelFault := false } = s.chan ch := by
      rw [Bool.not_eq_true] at clear
      rw [← clear]
    rw [same]
    exact puts_same s ch

theorem declareTravelFault_puts : s.puts ch { s.chan ch with travelFault := true } (s.declareTravelFault ch) := by
  unfold State.declareTravelFault
  split
  · next set =>
    have same : { s.chan ch with travelFault := true } = s.chan ch := by rw [← set]
    rw [same]
    exact puts_same s ch
  · exact (puts_self s ch _).still (monitor_motion _ _ _)

theorem clearStall_claim (id : Fin 7) : (s.clearStall ch).claim id = s.claim id := by
  unfold State.clearStall
  split
  · rw [monitor_claimOf]
    rfl
  · rfl

theorem clearTravelFault_claim (id : Fin 7) : (s.clearTravelFault ch).claim id = s.claim id := by
  unfold State.clearTravelFault
  split
  · rw [monitor_claimOf]
    rfl
  · rfl

theorem declareTravelFault_claim (id : Fin 7) : (s.declareTravelFault ch).claim id = s.claim id := by
  unfold State.declareTravelFault
  split
  · rfl
  · rw [monitor_claimOf]
    rfl

end

/-! ### Arrivals and starts (R130, R131) -/

/-- The channel as it arrives: Stall is clear, and coming home Travel Fault too. -/
def Chan.arrived (c : Chan) : Chan :=
  { c.braked (if c.pending = .extend then .extend else .none) (if c.pending = .extend then c.req else 0) with
    stalled := false, travelFault := c.travelFault && decide (c.st = .extending) }

section
variable (s : State) (ch : Fin 2)

theorem arriveAt_puts : s.puts ch (s.chan ch).arrived (s.arriveAt ch) := by
  have follow : ∀ {α : Type} (a b : α), (if ((s.chan ch).pending == .extend) = true then a else b)
      = if (s.chan ch).pending = .extend then a else b := fun _ _ => if_congr beq_iff_eq rfl rfl
  unfold State.arriveAt
  dsimp only
  rw [follow, follow]
  have braked := brake_puts s ch (if (s.chan ch).pending = .extend then .extend else .none)
    (if (s.chan ch).pending = .extend then (s.chan ch).req else 0) false
  generalize s.brake ch _ _ false = u at *
  have stalled := braked.trans (clearStall_puts u ch)
  generalize u.clearStall ch = w at *
  rw [braked.chan] at stalled
  split
  · next out =>
    have same : (s.chan ch).arrived = { (s.chan ch).braked (if (s.chan ch).pending = .extend then .extend else .none)
        (if (s.chan ch).pending = .extend then (s.chan ch).req else 0) with stalled := false } := by
      unfold Chan.arrived
      rw [decide_eq_true out, Bool.and_true]
      rfl
    rw [same]
    exact stalled
  · next home =>
    have cleared := stalled.trans (clearTravelFault_puts w ch)
    rw [stalled.chan] at cleared
    have same : (s.chan ch).arrived = { (s.chan ch).braked (if (s.chan ch).pending = .extend then .extend else .none)
        (if (s.chan ch).pending = .extend then (s.chan ch).req else 0) with stalled := false, travelFault := false } := by
      unfold Chan.arrived
      rw [decide_eq_false home, Bool.and_false]
    rw [same]
    exact cleared

theorem arriveAt_frees (o : s.Ok) : ((s.arriveAt ch).claim (loadMotor ch)).st = .idle := by
  have idle : ∀ f req, ((s.brake ch f req false).claim (loadMotor ch)).st = .idle := fun _ _ => brake_frees o (.inl rfl)
  unfold State.arriveAt
  dsimp only
  split
  · rw [clearStall_claim]
    exact idle _ _
  · rw [clearTravelFault_claim, clearStall_claim]
    exact idle _ _

/-- A move that has begun short of its stop goes on; at the stop it has arrived (R131). -/
theorem begun_still (h : s.atTarget ch = false) : s.begun ch = s.stepSeen ch := by
  have at_ : (s.stepSeen ch).atTarget ch = s.atTarget ch := by
    have lit : s.stepSeen ch = _ := stepSeen_lit s ch
    unfold State.atTarget State.chan
    rw [lit]
  exact if_neg (by rw [at_, h]; nofun)

theorem begun_arrives (h : s.atTarget ch = true) : s.begun ch = (s.stepSeen ch).arriveAt ch := by
  have at_ : (s.stepSeen ch).atTarget ch = s.atTarget ch := by
    have lit : s.stepSeen ch = _ := stepSeen_lit s ch
    unfold State.atTarget State.chan
    rw [lit]
  exact if_pos (at_.trans h)

end

/-- The channel as a move starts. -/
def Chan.started (c : Chan) (m : Move) (travel : Nat) (stall : Timer) : Chan :=
  { c with
    st := if m = .extend then .extending else .retracting, bridge := if m = .extend then .extend else .retract
    pending := .none, followOn := .none, protective := m == .protective, req := 0, travel := some travel, stall := stall
    backoff := none, dwell := none, idle := none }

/-- The state in which a move has started, before its stop is looked at. -/
def State.moveBegins (s : State) (ch : Fin 2) (m : Move) : State :=
  let u := s.setChan ch ((s.chan ch).started m (Item.travelMs s.seq.values ch) (s.stallArmed ch))
  (u.setDue { u.due with motion := u.due.motion.set ch true }).reviseOutcome (s.chan ch).req Outcome.accepted

theorem startMove_eq (s : State) (ch : Fin 2) (m : Move) : s.startMove ch m = (s.moveBegins ch m).begun ch := rfl

section
variable (s : State) (ch : Fin 2) (m : Move)

theorem moveBegins_puts :
    s.puts ch ((s.chan ch).started m (Item.travelMs s.seq.values ch) (s.stallArmed ch)) (s.moveBegins ch m) :=
  (puts_self s ch _).still (reviseOutcome_shared _ _ _).motion

theorem moveBegins_ok (o : s.Ok) : (s.moveBegins ch m).Ok := by
  unfold State.moveBegins
  dsimp only
  generalize hu : s.setChan ch _ = u
  have ok : u.Ok := hu ▸ setChan_ok o ch _
  exact (reviseOutcome_calm _ _ _ ((setDue_calm u _ ok).1)).1

theorem moveBegins_rest : (s.moveBegins ch m).pins = s.pins ∧ (s.moveBegins ch m).seq = s.seq
    ∧ (s.moveBegins ch m).broker = s.broker ∧ (s.moveBegins ch m).view = s.view
    ∧ (s.moveBegins ch m).status = (s.reviseOutcome (s.chan ch).req Outcome.accepted).status := by
  unfold State.moveBegins State.reviseOutcome
  dsimp only
  split
  · next h => rw [if_pos (by exact h)]; exact ⟨rfl, rfl, rfl, rfl, rfl⟩
  · next h => rw [if_neg (by exact h)]; exact ⟨rfl, rfl, rfl, rfl, rfl⟩

theorem moveBegins_atTarget : (s.moveBegins ch m).atTarget ch = if m = .extend then s.pins.ee.get ch else s.pins.er.get ch := by
  unfold State.atTarget
  rw [(moveBegins_puts s ch m).chan, (moveBegins_rest s ch m).1]
  unfold Chan.started
  dsimp only
  by_cases out : m = .extend
  · rw [if_pos out, if_pos out]
  · rw [if_neg out, if_neg out]

/-- A move that starts short of its stop is under way (R130). -/
theorem startMove_goes (target : (if m = .extend then s.pins.ee.get ch else s.pins.er.get ch) = false) :
    s.startMove ch m = (s.moveBegins ch m).stepSeen ch := by
  rw [startMove_eq, begun_still _ _ ((moveBegins_atTarget s ch m).trans target)]

theorem startMove_puts (target : (if m = .extend then s.pins.ee.get ch else s.pins.er.get ch) = false) :
    s.puts ch ((s.chan ch).started m (Item.travelMs s.seq.values ch) (s.stallArmed ch)) (s.startMove ch m) := by
  rw [startMove_goes s ch m target]
  exact (moveBegins_puts s ch m).still (stepSeen_motion _ _)

theorem startMove_claim (o : s.Ok) (target : (if m = .extend then s.pins.ee.get ch else s.pins.er.get ch) = false)
    (held : (s.claim (loadMotor ch)).st = .held) :
    (s.startMove ch m).claim (loadMotor ch) = s.claim (loadMotor ch) := by
  have claim : (s.moveBegins ch m).claim (loadMotor ch) = s.claim (loadMotor ch) := by
    rw [State.claim, (moveBegins_rest s ch m).2.2.1]
    rfl
  rw [startMove_goes s ch m target, stepSeen_claim (moveBegins_ok s ch m o) ch (motor_low ch) (by rw [claim, held]; nofun), claim]

theorem startMove_status (o : s.Ok) (target : (if m = .extend then s.pins.ee.get ch else s.pins.er.get ch) = false) :
    (s.startMove ch m).status = (s.reviseOutcome (s.chan ch).req Outcome.accepted).status := by
  rw [startMove_goes s ch m target, (stepSeen_hushed _ ch (moveBegins_ok s ch m o)).2]
  exact (moveBegins_rest s ch m).2.2.2.2

end

end Sys2Proof.Machine
end

