-- ==== Sys2Proof/Proofs/PendingMoves.lean ====
section
/-! PROOFS. The claim of a move and acting on a pending one (R127, R130, R138). -/

namespace Sys2Proof.Machine

/-! ### The claim of a move (R127, R128, R138) -/

section
variable {s : State} (ch : Fin 2) (o : s.Ok)
  (draw : 1 ≤ Item.motionDraw s.seq.values ch ∧ Item.motionDraw s.seq.values ch ≤ 30000)

theorem claimRequested_motion (s : State) : (s.claimRequested ch).motion = s.motion := by
  unfold State.claimRequested
  split
  · exact (ask_shared _ _ _ _ _).motion
  · rfl

theorem claimRequested_stands (s : State) (h : (s.claim (loadMotor ch)).st ≠ .idle) : s.claimRequested ch = s := if_neg h

include o draw

/-- A standing ask at rank 3 for the rated draw (R127). -/
theorem claimRequested_claim (idle : (s.claim (loadMotor ch)).st = .idle) :
    let d := (s.claimRequested ch).claim (loadMotor ch)
    d.rank = 3 ∧ d.asked = Item.motionDraw s.seq.values ch ∧ d.single = false
      ∧ d.st = if s.passes (loadMotor ch) 3 (Item.motionDraw s.seq.values ch) = true then .contest else .waiting := by
  obtain ⟨one, le⟩ := draw
  have amount : min (Item.motionDraw s.seq.values ch) 30000 = Item.motionDraw s.seq.values ch := by omega
  have draws : (s.claim (loadMotor ch)).drawing = false := by simp [Claim.drawing, idle]
  have eq : s.claimRequested ch = (s.ask (loadMotor ch) 3 (Item.motionDraw s.seq.values ch) false).1 := if_pos idle
  dsimp only
  rw [eq]
  cases passes : s.passes (loadMotor ch) 3 (min (Item.motionDraw s.seq.values ch) 30000) with
  | true =>
    rw [(ask_passes o _ false one draws (by decide) passes).2, amount]
    rw [amount] at passes
    exact ⟨rfl, rfl, rfl, (if_pos passes).symm⟩
  | false =>
    rw [(ask_fails o _ false one draws (by decide) passes rfl).2, amount]
    rw [amount] at passes
    exact ⟨rfl, rfl, rfl, (if_neg (by simp [passes])).symm⟩

/-- The claim of a Protective move is Held at rank 0 (R46, R138). -/
theorem claimProtective_holds (unforced : (s.claim (loadMotor ch)).st ≠ .forced) :
    ((s.claimProtective ch).claim (loadMotor ch)).st = .held ∧ ((s.claimProtective ch).claim (loadMotor ch)).rank = 0 := by
  obtain ⟨one, le⟩ := draw
  unfold State.claimProtective
  by_cases held : (s.claim (loadMotor ch)).st = .held
  · rw [if_pos (by simp [State.motorHeld, held]), rerank_held_claim 0 held]
    exact ⟨held, rfl⟩
  · have draws : (s.claim (loadMotor ch)).drawing = false := by
      cases e : (s.claim (loadMotor ch)).st <;> simp [Claim.drawing, e] at held unforced ⊢
    rw [if_neg (by simp [State.motorHeld, held]), (ask_zero o _ false one draws).2]
    exact ⟨rfl, rfl⟩

end

theorem claimProtective_motion (s : State) (ch : Fin 2) : (s.claimProtective ch).motion = s.motion := by
  unfold State.claimProtective
  split
  · exact (rerank_shared _ _ _).motion
  · exact (ask_shared _ _ _ _ _).motion

theorem claimProtective_hushed (s : State) (ch : Fin 2) : Hushed s (s.claimProtective ch) := (claimProtective_asks s ch).hushed

theorem claimRequested_hushed (s : State) (ch : Fin 2) : Hushed s (s.claimRequested ch) := (claimRequested_asks s ch).hushed

/-! ### A pending move (R130, R137, R143) -/

section
variable {s : State} {ch : Fin 2}

theorem tryStart_rests (h : s.motionRuns = false ∨ (s.chan ch).atRest = false ∨ (s.chan ch).calTimer.isSome = true
    ∨ (s.claim (loadMotor ch)).st ≠ .held) : s.tryStart ch = s := by
  refine if_pos ?_
  rcases h with h | h | h | h <;> simp [h, Chan.calibrating, State.motorHeld]

/-- What keeps a channel at rest from a start is gone. -/
structure State.Ready (s : State) (ch : Fin 2) : Prop where
  runs : s.motionRuns = true
  rest : (s.chan ch).atRest = true
  cal : (s.chan ch).calTimer = none
  held : (s.claim (loadMotor ch)).st = .held

section
variable (ready : s.Ready ch)
include ready

theorem ready_not : ¬ (!s.motionRuns || !(s.chan ch).atRest || (s.chan ch).calibrating || !s.motorHeld ch) = true := by
  simp [ready.runs, ready.rest, ready.cal, ready.held, Chan.calibrating, State.motorHeld]

theorem tryStart_protects (pending : (s.chan ch).pending = .protective) (free : s.pins.hold = false) :
    s.tryStart ch = s.startMove ch .protective := by
  unfold State.tryStart
  dsimp only
  rw [if_neg (ready_not ready), pending]
  exact if_neg (by simp [free])

theorem tryStart_retracts (pending : (s.chan ch).pending = .retract) (free : s.pins.hold = false) :
    s.tryStart ch = s.startMove ch .retract := by
  unfold State.tryStart
  dsimp only
  rw [if_neg (ready_not ready), pending]
  exact if_neg (by simp [free])

theorem tryStart_extends (pending : (s.chan ch).pending = .extend) (free : s.extendRefusal ch = none) :
    s.tryStart ch = s.startMove ch .extend := by
  unfold State.tryStart
  dsimp only
  rw [if_neg (ready_not ready), pending]
  dsimp only
  rw [free]

theorem tryStart_refuses {o : Nat} (pending : (s.chan ch).pending = .extend) (refused : s.extendRefusal ch = some o) :
    s.tryStart ch = s.endPending ch o := by
  unfold State.tryStart
  dsimp only
  rw [if_neg (ready_not ready), pending]
  dsimp only
  rw [refused]

end

theorem actOnPending_rests (h : (s.chan ch).atRest = false ∨ (s.chan ch).calTimer.isSome = true) : s.actOnPending ch = s :=
  if_pos (by rcases h with h | h <;> simp [h, Chan.calibrating])

theorem actOnPending_none (h : (s.chan ch).pending = .none) : s.actOnPending ch = s := by
  unfold State.actOnPending
  dsimp only
  split
  · rfl
  · rw [h]

section
variable (rest : (s.chan ch).atRest = true) (cal : (s.chan ch).calTimer = none)
include rest cal

theorem rest_not : ¬ (!(s.chan ch).atRest || (s.chan ch).calibrating) = true := by
  simp [rest, cal, Chan.calibrating]

theorem actOnPending_extends (pending : (s.chan ch).pending = .extend) :
    s.actOnPending ch = (s.claimRequested ch).tryStart ch := by
  unfold State.actOnPending
  dsimp only
  rw [if_neg (rest_not rest cal), pending]

theorem actOnPending_retracts (pending : (s.chan ch).pending = .retract) :
    s.actOnPending ch = if s.pins.hold then s else (s.claimRequested ch).tryStart ch := by
  unfold State.actOnPending
  dsimp only
  rw [if_neg (rest_not rest cal), pending]

theorem actOnPending_protects (pending : (s.chan ch).pending = .protective) :
    s.actOnPending ch = if s.pins.hold then s else (s.claimProtective ch).tryStart ch := by
  unfold State.actOnPending
  dsimp only
  rw [if_neg (rest_not rest cal), pending]

end

/-- A requested move with no claim asks for one and waits for the report (R127, R128). -/
theorem actOnPending_asks (o : s.Ok) (draw : 1 ≤ Item.motionDraw s.seq.values ch ∧ Item.motionDraw s.seq.values ch ≤ 30000)
    (rest : (s.chan ch).atRest = true) (cal : (s.chan ch).calTimer = none)
    (pending : (s.chan ch).pending = .extend ∨ (s.chan ch).pending = .retract ∧ s.pins.hold = false)
    (waits : (s.claim (loadMotor ch)).st ≠ .held) : s.actOnPending ch = s.claimRequested ch := by
  have unheld : ((s.claimRequested ch).claim (loadMotor ch)).st ≠ .held := by
    by_cases idle : (s.claim (loadMotor ch)).st = .idle
    · rw [(claimRequested_claim ch o draw idle).2.2.2]
      split <;> nofun
    · rw [claimRequested_stands ch s idle]
      exact waits
  have stays := tryStart_rests (.inr (.inr (.inr unheld)))
  rcases pending with pending | ⟨pending, free⟩
  · rw [actOnPending_extends rest cal pending, stays]
  · rw [actOnPending_retracts rest cal pending, if_neg (by simp [free]), stays]

end

/-! ### The end of a command of the Motion Controller -/

/-- The stall and travel monitors, the motor's claim and the lights'. -/
def motionReach (ch : Fin 2) : Scope :=
  { mons := fun n => n = Mon.travelFault ch ∨ n = Mon.stall ch, loads := fun id => id = loadMotor ch ∨ 5 ≤ id.val }

theorem motionReach_own (ch : Fin 2) : Fact ((motionReach ch).loads (loadMotor ch)) := ⟨.inl rfl⟩

theorem motionReach_lit (ch g : Fin 2) : Fact ((motionReach ch).loads (loadLights g)) :=
  ⟨.inr (show 5 ≤ (loadLights g).val by decide +revert)⟩

/-- Where an operation reaches the motion and the lights, the command that ends with it does so too. -/
theorem handed_moved {s u t : State} (h : u.handedOver t) (k : Moved s u) : Moved s t := by
  unfold State.handedOver Moved Shared at *
  rw [h, k]

/-- `v` is `s` as far as the claims, the channels, the groups, the view and the phase go, with no request that waits later
than the last one it shows as answered. -/
structure State.Start (s v : State) : Prop where
  sane : v.Sane
  view : v.view = s.view
  broker : v.broker = s.broker
  motion : v.motion = s.motion
  groups : ∀ g, v.group g = s.group g
  seq : v.seq = s.seq
  serial : s.status.serial ≤ v.status.serial

section
variable {s v : State} (start : s.Start v)
include start

theorem State.Start.chan (ch : Fin 2) : v.chan ch = s.chan ch := chan_of_motion start.motion ch

theorem State.Start.claim (id : Fin 7) : v.claim id = s.claim id := by rw [State.claim, start.broker]; rfl

theorem State.Start.runs : v.motionRuns = s.motionRuns := motionRuns_of_seq start.seq

theorem State.Start.needs (ch : Fin 2) : v.needs ch = s.needs ch := by rw [State.needs, start.view, start.motion]; rfl

theorem State.Start.within (fits : s.requestsFit) : v.waitWithin v.status.serial := by
  refine ⟨fun ch => by rw [start.chan]; exact (fits.1 ch).trans start.serial, fun g r h => ?_⟩
  rw [start.groups] at h
  exact (fits.2 g r h).trans start.serial

/-- A command of the Motion Controller ends: what it publishes. -/
theorem State.Start.ends {u : State} (fits : s.Fits) (was : State) {ch : Fin 2} (steady : Steady v u) (moved : Moved v u)
    (own : ∀ o, o ≠ ch → u.chan o = v.chan o) (tends : Tends (motionReach ch) v.status.serial v u) :
    (Moved v (State.publish was u) ∧ (State.publish was u).view = s.view
      ∧ (∀ o, o ≠ ch → (State.publish was u).chan o = s.chan o)
      ∧ ∀ id : Fin 7, id.val < 5 → id ≠ loadMotor ch → (s.claim id).st ≠ .waiting → (State.publish was u).claim id = s.claim id)
    ∧ u.handedOver (State.publish was u) := by
  obtain ⟨ok, base, -⟩ := steady start.sane.ok
  have view : u.view = s.view := base.view.trans start.view
  have handed := publish_handedOver was u (by rw [view]; exact fits.sound.quiet.1)
  obtain ⟨-, -, tended⟩ := tends start.sane.ok (start.within fits.requests)
  refine ⟨⟨handed_moved handed moved, handed.view.trans view, fun o ne => ?_, fun id low ne not => ?_⟩, handed⟩
  · rw [handed.chan, own o ne, start.chan]
  · rw [handed.claim, Claim.stirs_same (tended.claims id (by rintro (k | k); exacts [ne k, absurd low (by omega)]))
      (by rw [start.claim]; exact not), start.claim]

end

theorem answered_start {s : State} (fits : s.Fits) (code o : Nat) : s.Start (s.taken.answer code o) :=
  ⟨(answer_calm _ _ _).keeps (taken_keeps s fits.sound.sane), rfl, rfl, rfl, fun _ => rfl, rfl, Nat.le_succ _⟩

end Sys2Proof.Machine
end

