-- ==== Sys2Proof/Proofs/OneChannel.lean ====
section
/-! PROOFS. What acts on one channel leaves the other and the wind (R124). -/

namespace Sys2Proof.Machine

/-! ### What acts on one channel leaves the other and the wind (R124) -/

/-- Of the Motion Controller, no more than channel `ch` has changed. -/
def Only (ch : Fin 2) (s t : State) : Prop := s.puts ch (t.chan ch) t

section
variable {s t u a b : State} {ch : Fin 2} {c : Chan}

theorem State.puts.only (h : s.puts ch c t) : Only ch s t := by
  unfold Only
  rw [h.chan]
  exact h

theorem Only.same (h : t.motion = s.motion) : Only ch s t := ((puts_same s ch).still h).only

theorem Only.refl (s : State) : Only ch s s := Only.same rfl

theorem Only.trans (h : Only ch s t) (k : Only ch t u) : Only ch s u := State.puts.trans h k

theorem Only.ite {p : Prop} [Decidable p] (h : Only ch s a) (k : Only ch s b) : Only ch s (if p then a else b) := by
  split
  · exact h
  · exact k

theorem Only.other (h : Only ch s t) : ∀ o, o ≠ ch → t.chan o = s.chan o := State.puts.other h

theorem Only.wind (h : Only ch s t) : t.motion = { s.motion with chans := t.motion.chans } := State.puts.wind h

theorem Shared.only (h : Shared s t) : Only ch s t := Only.same h.motion

end

section
variable (s : State) (ch : Fin 2)

theorem modChan_only (f : Chan → Chan) : Only ch s (s.modChan ch f) := (puts_self s ch _).only

theorem stepSeen_only : Only ch s (s.stepSeen ch) := Only.same (stepSeen_motion s ch)

theorem brake_only (f : Move) (req : Nat) (keep : Bool) : Only ch s (s.brake ch f req keep) := (brake_puts s ch f req keep).only

theorem declareTravelFault_only : Only ch s (s.declareTravelFault ch) := (declareTravelFault_puts s ch).only

theorem arriveAt_only : Only ch s (s.arriveAt ch) := (arriveAt_puts s ch).only

theorem begun_only : Only ch s (s.begun ch) :=
  (stepSeen_only s ch).trans (Only.ite (arriveAt_only _ ch) (Only.refl _))

theorem startMove_only (m : Move) : Only ch s (s.startMove ch m) := (moveBegins_puts s ch m).only.trans (begun_only _ ch)

theorem startBackoff_only : Only ch s (s.startBackoff ch) := (modChan_only s ch _).trans (begun_only _ ch)

theorem settle_only (st : MState) (m : Move) (req : Nat) : Only ch s (s.settle ch st m req) := (settle_puts s ch st m req).only

theorem endPending_only (o : Nat) : Only ch s (s.endPending ch o) :=
  (modChan_only s ch _).trans ((release_shared _ _).only.trans (reviseOutcome_shared _ _ _).only)

theorem tryStart_only : Only ch s (s.tryStart ch) := by
  unfold State.tryStart
  dsimp only
  refine Only.ite (Only.refl s) ?_
  split
  · split
    · exact startMove_only s ch _
    · exact endPending_only s ch _
  · exact Only.ite (release_shared _ _).only (startMove_only s ch _)
  · exact Only.ite (release_shared _ _).only (startMove_only s ch _)
  · exact Only.refl s

theorem actOnPending_only : Only ch s (s.actOnPending ch) := by
  have protects := (claimProtective_shared s ch).only.trans (tryStart_only _ ch)
  have requests := (claimRequested_shared s ch).only.trans (tryStart_only _ ch)
  unfold State.actOnPending
  dsimp only
  refine Only.ite (Only.refl s) ?_
  split
  · exact Only.ite (Only.refl s) protects
  · exact Only.ite (Only.refl s) requests
  · exact requests
  · exact Only.refl s

theorem takePending_only (m : Move) (req : Nat) : Only ch s (s.takePending ch m req) :=
  (modChan_only s ch _).trans (actOnPending_only _ ch)

theorem backoffRetracts_only (p : Bool) : Only ch s (s.backoffRetracts ch p) := (modChan_only s ch _).trans (stepSeen_only _ ch)

theorem extendMeetsNeed_only : Only ch s (s.extendMeetsNeed ch) := Only.ite (endPending_only s ch _) (Only.refl s)

theorem pendProtective_only : Only ch s (s.pendProtective ch) :=
  ((replacedByNeed_shared s ch).only.trans (Only.ite (release_shared _ _).only (Only.refl _))).trans (takePending_only _ ch _ _)

theorem needDue_only : Only ch s (s.needDue ch) := by
  have yields : ∀ u, Only ch u (u.rerank (loadMotor ch) 0).1 := fun u => (rerank_shared u _ _).only
  unfold State.needDue
  dsimp only
  refine Only.ite (Only.refl s) ?_
  split
  · exact extendMeetsNeed_only s ch
  · exact (brake_only s ch _ _ _).trans (yields _)
  · exact ((replacedByNeed_shared s ch).only.trans (modChan_only _ ch _)).trans (yields _)
  · exact (((replacedByNeed_shared s ch).only.trans (modChan_only _ ch _)).trans (yields _)).trans (backoffRetracts_only _ ch _)
  · split
    · exact Only.refl s
    · exact yields s
    · exact yields s
    · exact ((replacedByNeed_shared s ch).only.trans (modChan_only _ ch _)).trans (yields _)
  · exact Only.ite (extendMeetsNeed_only s ch) (Only.ite (Only.refl s) (pendProtective_only s ch))

theorem needEnds_only : Only ch s (s.needEnds ch) := by
  have drops : Only ch s (if (s.chan ch).pending = .protective then (s.dropPending ch).release (loadMotor ch) else s) :=
    Only.ite ((modChan_only s ch _).trans (release_shared _ _).only) (Only.refl s)
  exact Only.ite (Only.refl s) (Only.ite ((drops.trans (modChan_only _ ch _)).trans (release_shared _ _).only) drops)

theorem dwellEnds_only : Only ch s (s.dwellEnds ch) := by
  unfold State.dwellEnds
  dsimp only
  generalize hu : s.modChan ch _ = u
  refine Only.trans (t := u) (hu ▸ modChan_only s ch _) ?_
  have frees : ∀ st m req, Only ch u ((u.release (loadMotor ch)).settle ch st m req) := fun _ _ _ =>
    (release_shared _ _).only.trans (settle_only _ ch _ _ _)
  have protects := (claimProtective_shared u ch).only.trans (startMove_only (u.claimProtective ch) ch .protective)
  have asks : ∀ st m req, Only ch u ((u.settle ch st m req).claimRequested ch) := fun _ _ _ =>
    (settle_only u ch _ _ _).trans (claimRequested_shared _ ch).only
  split
  · exact (settle_only u ch _ _ _).trans (actOnPending_only _ ch)
  · exact settle_only u ch _ _ _
  · exact Only.ite (frees _ _ _) (Only.ite protects (startBackoff_only u ch))
  · refine Only.ite ?_ (asks _ _ _)
    split
    · exact startMove_only u ch _
    · exact (frees _ _ _).trans (reviseOutcome_shared _ _ _).only
  · exact Only.ite (frees _ _ _) (Only.ite (startMove_only u ch _) (asks _ _ _))
  · exact Only.ite (frees _ _ _) protects

theorem travelExpires_only : Only ch s (s.travelExpires ch) := (brake_only s ch _ _ _).trans (declareTravelFault_only _ ch)

theorem stalls_only : Only ch s (s.stalls ch) := by
  have declared : Only ch s (if (s.chan ch).stalled then s
      else (s.modChan ch fun c => { c with stalled := true }).monitor (Mon.stall ch) true) :=
    Only.ite (Only.refl s) ((modChan_only s ch _).trans (monitor_shared _ _ _).only)
  exact Only.ite (declared.trans (brake_only _ ch _ _ _))
    ((declared.trans (brake_only _ ch _ _ _)).trans (declareTravelFault_only _ ch))

theorem calibrated_only : Only ch s (s.calibrated ch) := (modChan_only s ch _).trans (actOnPending_only _ ch)

theorem stopsFollow_only : Only ch s (s.stopsFollow ch) :=
  Only.ite (Only.ite (arriveAt_only s ch) (Only.refl s))
    (Only.ite (Only.ite (Only.refl s)
      (((modChan_only s ch _).trans (stepSeen_only _ ch)).trans (Only.ite (needDue_only _ ch) (Only.refl _)))) (Only.refl s))

theorem holdFollows_only : Only ch s (s.holdFollows ch) := by
  unfold State.holdFollows
  dsimp only
  refine Only.ite (Only.ite ?_ (Only.refl s)) (Only.ite ?_ (Only.refl s))
  · exact ((reviseOutcome_shared _ _ _).only.trans (brake_only _ ch _ _ _)).trans (Only.ite (modChan_only _ ch _) (Only.refl _))
  · split
    · exact endPending_only s ch _
    · exact (release_shared _ _).only
    · exact Only.refl s

end

end Sys2Proof.Machine
end

