-- ==== Sys2Proof/Proofs/MotionRequests.lean ====
section
/-! PROOFS. Requests of the Motion Controller, and the refusals of an Extend (R127). -/

namespace Sys2Proof.Machine

/-! ### Requests of the Motion Controller (R127 to R129) -/

/-- A request that names a channel: refused with Range where it names none. -/
def State.toChannel (code : Nat) (f : State → Fin 2 → State) (u : State) (i : Nat) (_ : Int) : State :=
  match asFin2 i with
  | none => u.answer code Outcome.range
  | some ch => f u ch

theorem motionRequest_eq (s : State) (code : Nat) (f : State → Fin 2 → State) :
    s.motionRequest code f = s.meets code (·.motion) (State.toChannel code f) := rfl

theorem toChannel_out (code : Nat) (f : State → Fin 2 → State) (u : State) {i : Nat} (v : Int) (h : 2 ≤ i) :
    u.toChannel code f i v = u.answer code 11 := by
  unfold State.toChannel
  rw [asFin2, dif_neg (by omega)]
  rfl

theorem toChannel_in (code : Nat) (f : State → Fin 2 → State) (u : State) {i : Nat} (v : Int) {ch : Fin 2} (h : i = ch.val) :
    u.toChannel code f i v = f u ch := by
  unfold State.toChannel
  rw [asFin2, dif_pos (by omega)]
  simp [h]

/-- Absent, Phase and Range, and what a request of the Motion Controller does otherwise. -/
theorem motion_answered {s : State} {code i : Nat} {v : Int} (asks : s.asks code i v) (quiet : s.view.changes = [])
    (f : State → Fin 2 → State) : ∃ t, done s (s.motionRequest code f) = .next t
      ∧ (s.seq.fns.motion = false → (s.taken.answered code 3).handedOver t)
      ∧ (s.seq.fns.motion = true → s.seq.phase ≠ .run → (s.taken.answered code 10).handedOver t)
      ∧ (s.seq.fns.motion = true → s.seq.phase = .run → 2 ≤ i → (s.taken.answered code 11).handedOver t)
      ∧ ∀ ch : Fin 2, s.seq.fns.motion = true → s.seq.phase = .run → i = ch.val → t = State.publish s (f s.taken ch) := by
  rw [motionRequest_eq]
  obtain ⟨t, done, absent, early, met⟩ := request_answered asks quiet (·.motion) (State.toChannel code f)
  refine ⟨t, done, absent, early, fun has phase out => ?_, fun ch has phase within => ?_⟩
  · rw [met has phase, toChannel_out code f _ v out]
    exact publish_handedOver s (s.taken.answer code 11) quiet
  · rw [met has phase, toChannel_in code f _ v within]

/-! ### The refusals of an Extend (R127) -/

section
variable {s : State} {ch : Fin 2}

theorem extendRefusal_drive (drive : s.view.driveAccepted = true) : s.extendRefusal ch = some 4 := if_pos drive

section
variable (drive : s.view.driveAccepted = false)
include drive

theorem extendRefusal_storage (storage : s.seq.storage = true) : s.extendRefusal ch = some 9 := by
  simp [State.extendRefusal, drive, storage]
  rfl

variable (storage : s.seq.storage = false)
include storage

theorem extendRefusal_hold (hold : s.pins.hold = true) : s.extendRefusal ch = some 5 := by
  simp [State.extendRefusal, drive, storage, hold]
  rfl

variable (hold : s.pins.hold = false)
include hold

theorem extendRefusal_fault (fault : (s.chan ch).st = .fault) : s.extendRefusal ch = some 12 := by
  simp [State.extendRefusal, drive, storage, hold, fault]
  rfl

theorem extendRefusal_wind (well : (s.chan ch).st ≠ .fault) (wind : ch = 1 ∧ s.motion.windLockout.isSome = true) :
    s.extendRefusal ch = some 6 := by
  rw [wind.1] at well ⊢
  simp [State.extendRefusal, drive, storage, hold, well, wind.2]
  rfl

end

/-! ### What an Extend does in each state (R127, R128, R130) -/

variable {code : Nat}

theorem takeExtend_out (h : (s.chan ch).st = .extending ∨ (s.chan ch).st = .extended ∧ (s.chan ch).pending = .none) :
    s.takeExtend code ch = s.answer code Outcome.accepted := by
  unfold State.takeExtend
  dsimp only
  rcases h with h | ⟨h, k⟩
  · rw [h]
  · rw [h]
    exact if_pos ⟨rfl, k⟩

section
variable (st : (s.chan ch).st = .braking)
include st

theorem takeExtend_faulty (h : (s.chan ch).followOn = .backoff ∨ (s.chan ch).followOn = .settleFault) :
    s.takeExtend code ch = s.answer code Outcome.fault := by
  unfold State.takeExtend
  dsimp only
  rw [st]
  rcases h with h | h <;> rw [h]

theorem takeExtend_driven (h : (s.chan ch).followOn = .protective) : s.takeExtend code ch = s.answer code Outcome.drive := by
  unfold State.takeExtend
  dsimp only
  rw [st, h]

theorem takeExtend_follows (h : (s.chan ch).followOn = .none ∨ (s.chan ch).followOn = .extend ∨ (s.chan ch).followOn = .retract) :
    s.takeExtend code ch = (s.answer code Outcome.waiting).setChan ch { s.chan ch with followOn := .extend, req := s.status.serial + 1 } := by
  generalize taken : State.setChan _ ch _ = r
  unfold State.takeExtend
  dsimp only
  rw [st]
  rcases h with h | h | h
  · rw [h]; exact taken
  · rw [h]; exact taken
  · rw [h]; exact taken

end

theorem takeExtend_returning (st : (s.chan ch).st = .retracting ∨ (s.chan ch).st = .backoff) :
    s.takeExtend code ch = if (s.claim (loadMotor ch)).rank = 0 then
        (s.answer code Outcome.waiting).setChan ch { s.chan ch with pending := .extend, req := s.status.serial + 1 }
      else (s.answer code Outcome.waiting).brake ch .extend (s.status.serial + 1) true := by
  generalize taken : (if (s.claim (loadMotor ch)).rank = 0 then _ else _ : State) = r
  unfold State.takeExtend
  dsimp only
  rcases st with st | st
  · rw [st]; exact taken
  · rw [st]; exact taken

/-- The state in which a pending move has been taken, before it is acted on. -/
def State.pends (s : State) (ch : Fin 2) (m : Move) (req : Nat) : State :=
  s.setChan ch { s.chan ch with pending := m, req := req, idle := none }

theorem takePending_eq (s : State) (ch : Fin 2) (m : Move) (req : Nat) :
    s.takePending ch m req = (s.pends ch m req).actOnPending ch := rfl

theorem takeExtend_pends (rest : (s.chan ch).atRest = true) (not : ¬ ((s.chan ch).st = .extended ∧ (s.chan ch).pending = .none)) :
    s.takeExtend code ch = (s.answer code Outcome.waiting).takePending ch .extend (s.status.serial + 1) := by
  unfold State.takeExtend
  dsimp only
  split
  · next st => simp [Chan.atRest, st] at rest
  · next st => simp [Chan.atRest, st] at rest
  · next st => simp [Chan.atRest, st] at rest
  · next st => simp [Chan.atRest, st] at rest
  · exact if_neg not

end

end Sys2Proof.Machine
end

