-- ==== Sys2Proof/Proofs/ChannelOrder.lean ====
section
/-! PROOFS. The order of a channel by its parts (R124 to R142). -/

namespace Sys2Proof.Machine

/-! ### The order of a channel (R124 to R142) -/

/-- `State.chanFits` by its parts: the channel, the state of its claim, and whether the Motion Controller acts. -/
structure ChanOrder (runs : Bool) (c : Chan) (k : ClaimState) : Prop where
  bridge : c.bridge = c.st.bridge
  follows : c.followOn ≠ .none → c.st = .braking
  backs : c.pending ≠ .backoff
  settles : c.pending ≠ .settleFault
  active : c.atRest = false ∨ c.pending ≠ .none → runs = true
  braking : c.st = .braking → c.pending = .none ∨ c.pending = .protective ∧ (c.followOn = .none ∨ c.followOn = .extend)
  moving : c.moving = true → c.pending = .none ∨ c.pending = .extend
  travel : c.travel.isSome = true ↔ c.st = .extending ∨ c.st = .retracting
  backoff : c.backoff.isSome = true ↔ c.st = .backoff
  dwell : c.dwell.isSome = true ↔ c.st = .braking
  stall : c.stall.isSome = true → c.moving = true
  calibrates : c.calTimer.isSome = true → c.atRest = true ∧ c.idle = none
  calLeft : c.calTimer.getD 0 ≤ Config.calibrationMs
  calSum : c.calTimer = none → c.calSum = 0
  idle : c.idle.isSome = true → c.atRest = true ∧ c.pending = .none
  protective : c.protective = true → c.st = .retracting
  held : c.moving = true ∨ c.followOn = .backoff → k = .held
  kept : c.st = .braking → k = .idle ∨ c.followOn.isMove = true ∧ k = .held
  freed : c.atRest = true → c.pending = .none → k = .idle

theorem chanFits_iff (s : State) (ch : Fin 2) :
    s.chanFits ch ↔ ChanOrder s.motionRuns (s.chan ch) (s.claim (loadMotor ch)).st := by
  constructor
  · rintro ⟨a, b, c, d, e, f, g, h, i, j, k, l, m, n, o, p, q, r, t⟩
    exact ⟨a, b, c, d, e, f, g, h, i, j, k, l, m, n, o, p, q, r, t⟩
  · intro h
    exact ⟨h.bridge, h.follows, h.backs, h.settles, h.active, h.braking, h.moving, h.travel, h.backoff, h.dwell, h.stall,
      h.calibrates, h.calLeft, h.calSum, h.idle, h.protective, h.held, h.kept, h.freed⟩

theorem motor_not_pump (ch : Fin 2) : loadMotor ch ≠ loadPump := by decide +revert

section
variable {s : State} (fits : s.Fits) (ch : Fin 2)
include fits

theorem State.Fits.channel : ChanOrder s.motionRuns (s.chan ch) (s.claim (loadMotor ch)).st := (chanFits_iff s ch).mp (fits.motion ch)

theorem State.Fits.motor_unforced : (s.claim (loadMotor ch)).st ≠ .forced := by
  intro forced
  obtain ⟨-, -, serves⟩ := fits.claims
  obtain ⟨-, -, -, pump, -⟩ := serves (loadMotor ch)
  exact motor_not_pump ch (pump forced)

end

section
variable {runs : Bool} {c : Chan} {k : ClaimState} (h : ChanOrder runs c k)
include h

theorem ChanOrder.moving_timers (moving : c.moving = true) : c.idle = none ∧ c.dwell = none ∧ c.calTimer = none := by
  refine ⟨?_, ?_, ?_⟩
  · cases e : c.idle with
    | none => rfl
    | some n =>
      obtain ⟨rest, -⟩ := h.idle (by rw [e]; rfl)
      cases st : c.st <;> simp [Chan.atRest, Chan.moving, st] at rest moving
  · cases e : c.dwell with
    | none => rfl
    | some n =>
      have st := h.dwell.mp (by rw [e]; rfl)
      simp [Chan.moving, st] at moving
  · cases e : c.calTimer with
    | none => rfl
    | some n =>
      obtain ⟨rest, -⟩ := h.calibrates (by rw [e]; rfl)
      cases st : c.st <;> simp [Chan.atRest, Chan.moving, st] at rest moving

end

/-! ### A pending move that has no claim Held -/

section
variable {s : State} {ch : Fin 2} (o : s.Ok)
  (draw : 1 ≤ Item.motionDraw s.seq.values ch ∧ Item.motionDraw s.seq.values ch ≤ 30000)
include o draw

/-- A requested move is pending: it asks where the claim is Idle and no calibration runs, and waits. -/
theorem actOnPending_waits (rest : (s.chan ch).atRest = true)
    (pending : (s.chan ch).pending = .extend ∨ (s.chan ch).pending = .retract ∧ s.pins.hold = false)
    (waits : (s.claim (loadMotor ch)).st ≠ .held ∨ (s.chan ch).calTimer.isSome = true) :
    s.actOnPending ch = if (s.claim (loadMotor ch)).st = .idle ∧ (s.chan ch).calTimer = none then s.claimRequested ch else s := by
  cases cal : (s.chan ch).calTimer with
  | some n =>
    rw [actOnPending_rests (.inr (by rw [cal]; rfl)), if_neg (by rintro ⟨-, k⟩; cases k)]
  | none =>
    have unheld : (s.claim (loadMotor ch)).st ≠ .held := waits.resolve_right (by rw [cal]; nofun)
    rw [actOnPending_asks o draw rest cal pending unheld]
    split
    · rfl
    · next not => exact claimRequested_stands ch s fun idle => not ⟨idle, rfl⟩

end

end Sys2Proof.Machine
end

