-- ==== Sys2Proof/Proofs/Extends.lean ====
section
/-! PROOFS. EXTEND in each state of the channel (R127, R130). -/

namespace Sys2Proof.Machine

/-- What a command of the Motion Controller leaves, where nothing of channel `ch` is said. -/
def State.framed (s w : State) (ch : Fin 2) (t : State) : Prop :=
  Moved w t ∧ t.view = s.view ∧ (∀ o, o ≠ ch → t.chan o = s.chan o)
    ∧ ∀ id : Fin 7, id.val < 5 → id ≠ loadMotor ch → (s.claim id).st ≠ .waiting → t.claim id = s.claim id

theorem State.framed.after {s v t : State} {ch : Fin 2} (h : s.framed v ch t) (k : Moved s v) : s.framed s ch t := by
  obtain ⟨moved, rest⟩ := h
  exact ⟨k.trans moved, rest⟩

theorem answered_moved (s : State) (code o : Nat) : Moved s (s.taken.answer code o) :=
  Shared.moved (show Shared s (s.taken.answer code o) from rfl)

theorem shows_handed {u v t : State} {code o : Nat} (h : u.handedOver t) (status : u.status = v.status) (shown : v.shows code o) :
    t.shows code o := by
  unfold State.shows at *
  rw [h.status, status]
  exact shown

theorem motionReach_travel (ch : Fin 2) : (motionReach ch).mons (Mon.travelFault ch) := .inl rfl

theorem motionReach_stall (ch : Fin 2) : (motionReach ch).mons (Mon.stall ch) := .inr rfl

section
variable {s : State} (fits : s.Fits) {code o : Nat} {ch : Fin 2}
include fits

/-- A channel brakes after a request, the move to follow on keeping its claim (R132). -/
theorem request_brakes {f : Move} {req : Nat} (le : req ≤ s.status.serial + 1) (moves : f.isMove = true)
    (moving : (s.chan ch).moving = true) :
    let t := State.publish s ((s.taken.answer code o).brake ch f req true)
    s.framed s ch t ∧ t.shows code o ∧ t.claim (loadMotor ch) = s.claim (loadMotor ch) ∧ t.chan ch = (s.chan ch).braked f req := by
  have start := answered_start fits code o
  have own := motionReach_own ch
  have lit := motionReach_lit ch
  have shown := (answer_shows s code o).1
  have moved := answered_moved s code o
  generalize hv : s.taken.answer code o = v at *
  obtain ⟨framed, handed⟩ := start.ends fits s (brake_steady v ch f req true) (brake_moved v ch f req true)
    (brake_only v ch f req true).other (brake_tends v ch f req true fun _ => by rw [← hv]; exact le)
  have held := (fits.channel ch).held (.inl moving)
  have claim := start.claim (loadMotor ch)
  dsimp only
  refine ⟨State.framed.after framed moved, shows_handed handed (brake_hushed v ch f req true start.sane.ok).2 shown, ?_, ?_⟩
  · rw [handed.claim, brake_keeps start.sane.ok rfl moves (by rw [claim]; exact held), claim]
  · rw [handed.chan, (brake_puts v ch f req true).chan, start.chan]

end

theorem motionDraw_item (v : Values) (ch : Fin 2) : Item.motionDraw v ch = v.get (if ch = 0 then 30 else 31) :=
  match ch with
  | 0 => rfl
  | 1 => rfl

section
variable {s : State} (fits : s.Fits) {code : Nat} {ch : Fin 2}
include fits

/-- A requested move at rest waits for its claim (R127, R128, R130). -/
theorem request_waits {m : Move} (move : m = .extend ∨ m = .retract ∧ s.pins.hold = false) (rest : (s.chan ch).atRest = true)
    (waits : (s.claim (loadMotor ch)).st ≠ .held ∨ (s.chan ch).calTimer.isSome = true) :
    let c := s.chan ch
    let claim := s.claim (loadMotor ch)
    let t := State.publish s ((s.taken.answer code Outcome.waiting).takePending ch m (s.status.serial + 1))
    s.framed s ch t ∧ t.shows code 2 ∧ t.chan ch = { c with pending := m, req := s.status.serial + 1, idle := none }
      ∧ (claim.st = .idle → c.calTimer = none →
        let d := t.claim (loadMotor ch)
        d.rank = 3 ∧ d.asked = s.seq.values.get (if ch = 0 then 30 else 31)
          ∧ d.st = if s.passes (loadMotor ch) 3 (Item.motionDraw s.seq.values ch) = true then .contest else .waiting)
      ∧ (claim.st ≠ .idle ∨ c.calTimer.isSome = true → t.claim (loadMotor ch) = claim) := by
  have start := answered_start fits code Outcome.waiting
  have own := motionReach_own ch
  have lit := motionReach_lit ch
  have shown := (answer_shows s code Outcome.waiting).1
  have moved := answered_moved s code Outcome.waiting
  have pins : (s.taken.answer code Outcome.waiting).pins = s.pins := rfl
  have draw := fits.values.motionDraw ch
  have statusV : (s.taken.answer code Outcome.waiting).status.serial = s.status.serial + 1 := rfl
  have passV : ∀ r a, (s.taken.answer code Outcome.waiting).passes (loadMotor ch) r a = s.passes (loadMotor ch) r a :=
    fun r a => passes_congr rfl rfl rfl rfl rfl _ _ _
  generalize hv : s.taken.answer code Outcome.waiting = v at *
  obtain ⟨framed, handed⟩ := start.ends fits s (takePending_steady v ch m (s.status.serial + 1))
    (takePending_moved v ch m (s.status.serial + 1)) (takePending_only v ch m (s.status.serial + 1)).other
    (takePending_tends (motionReach_travel ch) (motionReach_stall ch) v m (s.status.serial + 1) (Nat.le_of_eq statusV.symm))
  rw [takePending_eq] at *
  generalize hw : v.pends ch m (s.status.serial + 1) = w at *
  have okW : w.Ok := hw ▸ setChan_ok start.sane.ok ch _
  have chanW : w.chan ch = { s.chan ch with pending := m, req := s.status.serial + 1, idle := none } := by
    rw [← hw, ← start.chan]
    exact chan_setChan_self v ch _
  have claimW : w.claim (loadMotor ch) = s.claim (loadMotor ch) := by
    rw [← start.claim, ← hw]
    rfl
  have seqW : w.seq = s.seq := by rw [← start.seq, ← hw]; rfl
  have pinsW : w.pins = s.pins := by rw [← pins, ← hw]; rfl
  have passW : ∀ r a, w.passes (loadMotor ch) r a = s.passes (loadMotor ch) r a := fun r a => by
    rw [← passV, ← hw]
    exact passes_congr rfl rfl rfl rfl rfl _ _ _
  have statusW : w.status = v.status := by rw [← hw]; rfl
  have acted := actOnPending_waits okW (by rw [seqW]; exact draw) (by rw [chanW]; exact rest)
    (by rw [chanW, pinsW]; exact move) (by rw [claimW, chanW]; exact waits)
  rw [claimW, show (w.chan ch).calTimer = (s.chan ch).calTimer by rw [chanW]] at acted
  have motion : (w.actOnPending ch).motion = w.motion := by
    rw [acted]
    split
    · exact claimRequested_motion ch w
    · rfl
  have status : (w.actOnPending ch).status = v.status := by
    rw [acted, ← statusW]
    split
    · exact (claimRequested_hushed w ch okW).2
    · rfl
  dsimp only
  refine ⟨State.framed.after framed moved, shows_handed handed status shown, ?_, fun idle cal => ?_, fun stands => ?_⟩
  · rw [handed.chan, chan_of_motion motion, chanW]
  · have asks := claimRequested_claim ch okW (by rw [seqW]; exact draw) (by rw [claimW]; exact idle)
    rw [handed.claim, acted, if_pos ⟨idle, cal⟩]
    dsimp only at asks
    rw [seqW, passW] at asks
    obtain ⟨rank, asked, -, st⟩ := asks
    exact ⟨rank, asked.trans (motionDraw_item s.seq.values ch), st⟩
  · rw [handed.claim, acted, if_neg ?_, claimW]
    rintro ⟨idle, cal⟩
    rcases stands with h | h
    · exact h idle
    · rw [cal] at h
      cases h

end

end Sys2Proof.Machine

namespace Sys2Proof.Proofs
open Sys2Proof.Machine

/-- Settles O54. -/
theorem motionExtend : Obligations.MotionExtend := by
  unfold Obligations.MotionExtend
  intro s i v fits
  have quiet := fits.sound.quiet.1
  dsimp only
  have arm : exec .extend s = done s (s.motionRequest 4 fun s ch =>
    match s.extendRefusal ch with
    | some o => s.answer 4 o
    | none => s.takeExtend 4 ch) := rfl
  rw [arm]
  refine ⟨fun asks => ?_, fun ch asks fitted run within free => ?_⟩
  · obtain ⟨t, done, absent, early, out, met⟩ := motion_answered asks quiet _
    refine ⟨t, done, absent, early, out, fun ch fitted run within => ?_⟩
    rw [met ch fitted run within]
    have refused : ∀ o, s.extendRefusal ch = some o → (s.taken.answered 4 o).handedOver
        (State.publish s (match s.taken.extendRefusal ch with
          | some o => s.taken.answer 4 o
          | none => s.taken.takeExtend 4 ch)) := fun o h => by
      rw [show s.taken.extendRefusal ch = some o from h]
      exact publish_handedOver s (s.taken.answer 4 o) quiet
    exact ⟨fun drive => refused 4 (extendRefusal_drive drive),
      fun drive storage => refused 9 (extendRefusal_storage drive storage),
      fun drive storage hold => refused 5 (extendRefusal_hold drive storage hold),
      fun drive storage hold fault => refused 12 (extendRefusal_fault drive storage hold fault),
      fun drive storage hold well wind => refused 6 (extendRefusal_wind drive storage hold well wind)⟩
  · obtain ⟨t, done, -, -, -, met⟩ := motion_answered asks quiet fun s ch =>
      match s.extendRefusal ch with
      | some o => s.answer 4 o
      | none => s.takeExtend 4 ch
    refine ⟨t, done, ?_⟩
    have taken : t = State.publish s (s.taken.takeExtend 4 ch) := by
      rw [met ch fitted run within]
      rw [show s.taken.extendRefusal ch = none from free]
    rw [taken]
    have order := fits.channel ch
    refine ⟨fun out => ?_, fun st => ⟨fun faulty => ?_, fun driven => ?_, fun follows => ?_⟩, fun st => ⟨fun zero => ?_, fun rank => ?_⟩,
      fun rest not waits => ?_⟩
    · rw [takeExtend_out (s := s.taken) out]
      exact publish_handedOver s (s.taken.answer 4 1) quiet
    · rw [takeExtend_faulty (s := s.taken) st faulty]
      exact publish_handedOver s (s.taken.answer 4 12) quiet
    · rw [takeExtend_driven (s := s.taken) st driven]
      exact publish_handedOver s (s.taken.answer 4 4) quiet
    · rw [takeExtend_follows (s := s.taken) st follows]
      exact publish_handedOver s ((s.taken.answer 4 2).setChan ch _) quiet
    · rw [takeExtend_returning (s := s.taken) st, if_pos (by exact zero)]
      exact publish_handedOver s ((s.taken.answer 4 2).setChan ch _) quiet
    · rw [takeExtend_returning (s := s.taken) st, if_neg (by exact rank)]
      have moving : (s.chan ch).moving = true := by
        rcases st with st | st
        · simp [Chan.moving, st]
        · simp [Chan.moving, st]
      exact request_brakes fits (Nat.le_refl _) rfl moving
    · rw [takeExtend_pends (s := s.taken) rest not]
      exact request_waits fits (.inl rfl) rest waits

end Sys2Proof.Proofs
end

