-- ==== Sys2Proof/Proofs/Homing.lean ====
section
/-! PROOFS. A Protective retract that starts, and the outcome shown (R130, R138). -/

namespace Sys2Proof.Machine

/-! ### The outcome shown -/

theorem reviseOutcome_congr {s t : State} (h : t.status = s.status) (req o : Nat) :
    (t.reviseOutcome req o).status = (s.reviseOutcome req o).status := by
  unfold State.reviseOutcome
  rw [h]
  split
  · rfl
  · exact h

theorem monitor_outcome (s : State) (n : Fin 19) (d : Bool) : (s.monitor n d).status.outcome = s.status.outcome := by
  unfold State.monitor State.raiseAttention
  dsimp only
  split
  · split <;> rfl
  · split <;> rfl

theorem clearStall_outcome (s : State) (ch : Fin 2) : (s.clearStall ch).status.outcome = s.status.outcome := by
  unfold State.clearStall
  split
  · exact monitor_outcome _ _ _
  · rfl

theorem clearTravelFault_outcome (s : State) (ch : Fin 2) : (s.clearTravelFault ch).status.outcome = s.status.outcome := by
  unfold State.clearTravelFault
  split
  · exact monitor_outcome _ _ _
  · rfl

theorem arriveAt_outcome {s : State} (o : s.Ok) (ch : Fin 2) : (s.arriveAt ch).status.outcome = s.status.outcome := by
  have braked : ∀ f req, (s.brake ch f req false).status = s.status := fun _ _ => (brake_hushed s ch _ _ _ o).2
  unfold State.arriveAt
  dsimp only
  split
  · rw [clearStall_outcome, braked]
  · rw [clearTravelFault_outcome, clearStall_outcome, braked]

/-! ### A Protective retract that starts (R130, R138) -/

/-- From `s` a Protective retract of channel `ch` has started, short of its stop. -/
structure Homing (s : State) (ch : Fin 2) (t : State) : Prop where
  puts : ∃ stall, s.puts ch ((s.chan ch).started .protective (Item.travelMs s.seq.values ch) stall) t
  held : (t.claim (loadMotor ch)).st = .held
  zero : (t.claim (loadMotor ch)).rank = 0
  status : t.status = (s.reviseOutcome (s.chan ch).req Outcome.accepted).status

section
variable {s : State} {ch : Fin 2} (o : s.Ok)
  (draw : 1 ≤ Item.motionDraw s.seq.values ch ∧ Item.motionDraw s.seq.values ch ≤ 30000)
  (unforced : (s.claim (loadMotor ch)).st ≠ .forced)
include o draw unforced

/-- With its claim Held at rank 0 a Protective retract starts. -/
theorem startsHome_homing (away : s.pins.er.get ch = false) :
    Homing s ch ((s.claimProtective ch).startMove ch .protective) := by
  obtain ⟨held, zero⟩ := claimProtective_holds ch o draw unforced
  obtain ⟨ok, status⟩ := claimProtective_hushed s ch o
  have shared := claimProtective_shared s ch
  have motion := shared.motion
  have target : (if Move.protective = .extend then (s.claimProtective ch).pins.ee.get ch else (s.claimProtective ch).pins.er.get ch) = false := by
    rw [if_neg nofun, shared.pins]
    exact away
  have chan := chan_of_motion motion ch
  have claim := startMove_claim (s.claimProtective ch) ch .protective ok target held
  have puts := startMove_puts (s.claimProtective ch) ch .protective target
  have shown := startMove_status (s.claimProtective ch) ch .protective ok target
  rw [chan] at puts shown
  rw [shared.seq] at puts
  refine ⟨⟨_, ((puts_same s ch).still motion).trans puts⟩, by rw [claim]; exact held, by rw [claim]; exact zero, shown.trans ?_⟩
  exact reviseOutcome_congr status _ _

/-- At its stop already, the channel arrives in the same event (R131). -/
theorem startsHome_arrives (home : s.pins.er.get ch = true) :
    let t := (s.claimProtective ch).startMove ch .protective
    (t.claim (loadMotor ch)).st = .idle ∧ (t.chan ch).st = .braking ∧ (t.chan ch).bridge = .short ∧ (t.chan ch).followOn = .none
      ∧ (t.chan ch).pending = .none ∧ t.status.outcome = (s.reviseOutcome (s.chan ch).req Outcome.accepted).status.outcome := by
  obtain ⟨ok, status⟩ := claimProtective_hushed s ch o
  have shared := claimProtective_shared s ch
  have chan := chan_of_motion shared.motion ch
  generalize s.claimProtective ch = u at *
  have target : (u.moveBegins ch .protective).atTarget ch = true := by
    rw [moveBegins_atTarget, if_neg nofun, shared.pins]
    exact home
  have begins := moveBegins_puts u ch .protective
  have shown := (moveBegins_rest u ch .protective).2.2.2.2
  have okB := moveBegins_ok u ch .protective ok
  dsimp only
  rw [startMove_eq, begun_arrives _ _ target]
  generalize u.moveBegins ch .protective = w at *
  obtain ⟨okW, statusW⟩ := stepSeen_hushed w ch okB
  have started : (w.stepSeen ch).chan ch = _ := (begins.still (stepSeen_motion w ch)).chan
  generalize w.stepSeen ch = x at *
  have arrived := (arriveAt_puts x ch).chan
  rw [started] at arrived
  refine ⟨arriveAt_frees x ch okW, by rw [arrived]; rfl, by rw [arrived]; rfl, by rw [arrived]; rfl, by rw [arrived]; rfl, ?_⟩
  rw [arriveAt_outcome okW, statusW, shown, chan, reviseOutcome_congr status]

section
variable (runs : s.motionRuns = true) (rest : (s.chan ch).atRest = true) (cal : (s.chan ch).calTimer = none)
  (pending : (s.chan ch).pending = .protective)
include runs rest cal pending

/-- A pending Protective move that nothing keeps back starts. -/
theorem actOnPending_homes (free : s.pins.hold = false) :
    s.actOnPending ch = (s.claimProtective ch).startMove ch .protective := by
  have shared := claimProtective_shared s ch
  have chan := chan_of_motion shared.motion ch
  have ready : (s.claimProtective ch).Ready ch := ⟨(motionRuns_of_seq shared.seq).trans runs, by rw [chan]; exact rest,
    by rw [chan]; exact cal, (claimProtective_holds ch o draw unforced).1⟩
  rw [actOnPending_protects rest cal pending, if_neg (by simp [free]),
    tryStart_protects ready (by rw [chan]; exact pending) (by rw [shared.pins]; exact free)]

end

end

end Sys2Proof.Machine
end

