-- ==== Sys2Proof/Proofs/Retracts.lean ====
section
/-! PROOFS. RETRACT in each state of the channel (R128). -/

namespace Sys2Proof.Machine

/-! ### What a Retract and a Stop do in each state (R128, R129) -/

section
variable {s : State} {ch : Fin 2} {code : Nat}

theorem takeRetract_home (h : (s.chan ch).st = .retracted ∨ (s.chan ch).st = .retracting) :
    s.takeRetract code ch = s.answer code Outcome.accepted := by
  unfold State.takeRetract
  dsimp only
  rcases h with h | h <;> rw [h]

theorem takeRetract_backoff (st : (s.chan ch).st = .backoff) :
    s.takeRetract code ch = (s.answer code Outcome.accepted).backoffRetracts ch (s.needs ch) := by
  unfold State.takeRetract
  dsimp only
  rw [st]

theorem takeRetract_extending (st : (s.chan ch).st = .extending) :
    s.takeRetract code ch = (s.answer code Outcome.waiting).brake ch (s.retractMove ch) (s.status.serial + 1) true := by
  unfold State.takeRetract
  dsimp only
  rw [st]
  rfl

section
variable (st : (s.chan ch).st = .braking)
include st

theorem takeRetract_faulty (h : (s.chan ch).followOn = .backoff ∨ (s.chan ch).followOn = .settleFault) :
    s.takeRetract code ch = s.answer code Outcome.fault := by
  unfold State.takeRetract
  dsimp only
  rw [st]
  rcases h with h | h <;> rw [h]

theorem takeRetract_protected (h : (s.chan ch).followOn = .protective) :
    s.takeRetract code ch = s.answer code Outcome.accepted := by
  unfold State.takeRetract
  dsimp only
  rw [st, h]

/-- The state in which a retract follows on, before its claim is re-ranked. -/
def State.retractFollows (s : State) (ch : Fin 2) (req : Nat) : State :=
  s.setChan ch { s.chan ch with pending := .none, followOn := s.retractMove ch, req := req }

theorem takeRetract_follows (h : (s.chan ch).followOn = .none ∨ (s.chan ch).followOn = .extend ∨ (s.chan ch).followOn = .retract) :
    s.takeRetract code ch =
      let u := (s.answer code Outcome.waiting).retractFollows ch (s.status.serial + 1)
      if s.needs ch && s.motorHeld ch then (u.rerank (loadMotor ch) 0).1 else u := by
  generalize taken : (let u := (s.answer code Outcome.waiting).retractFollows ch (s.status.serial + 1)
    if s.needs ch && s.motorHeld ch then (u.rerank (loadMotor ch) 0).1 else u) = r
  unfold State.takeRetract
  dsimp only
  rw [st]
  rcases h with h | h | h
  · rw [h]; exact taken
  · rw [h]; exact taken
  · rw [h]; exact taken

end

theorem takeRetract_pends (rest : (s.chan ch).atRest = true) (out : (s.chan ch).st ≠ .retracted) :
    s.takeRetract code ch = (s.answer code Outcome.waiting).takePending ch (s.retractMove ch) (s.status.serial + 1) := by
  unfold State.takeRetract
  dsimp only
  split
  · next st => exact absurd st out
  · next st => simp [Chan.atRest, st] at rest
  · next st => simp [Chan.atRest, st] at rest
  · next st => simp [Chan.atRest, st] at rest
  · next st => simp [Chan.atRest, st] at rest
  · rfl

theorem retractMove_eq (s : State) (ch : Fin 2) : s.retractMove ch = if s.needs ch = true then .protective else .retract := rfl

theorem needs_iff (s : State) (ch : Fin 2) :
    s.needs ch = true ↔ s.view.driveAccepted = true ∨ ch = 1 ∧ s.motion.windLockout.isSome = true := by
  unfold State.needs
  rw [Bool.or_eq_true, Bool.and_eq_true, beq_iff_eq]

end

section
variable {s : State} (fits : s.Fits) {code : Nat} {ch : Fin 2}
include fits

/-- A Backoff becomes a full retract (R128). -/
theorem request_retracts (st : (s.chan ch).st = .backoff) :
    let t := State.publish s ((s.taken.answer code Outcome.accepted).backoffRetracts ch (s.needs ch))
    s.framed s ch t ∧ t.shows code 1 ∧ t.claim (loadMotor ch) = s.claim (loadMotor ch) ∧ t.chan ch = { s.chan ch with
      st := .retracting, backoff := none, travel := some (Item.travelMs s.seq.values ch), protective := s.needs ch } := by
  have start := answered_start fits code Outcome.accepted
  have lit := motionReach_lit ch
  have shown := (answer_shows s code Outcome.accepted).1
  have moved := answered_moved s code Outcome.accepted
  generalize s.taken.answer code Outcome.accepted = v at *
  obtain ⟨framed, handed⟩ := start.ends fits s (backoffRetracts_steady v ch (s.needs ch)) (backoffRetracts_moved v ch (s.needs ch))
    (backoffRetracts_only v ch (s.needs ch)).other (backoffRetracts_tends v ch (s.needs ch))
  generalize hu : v.setChan ch { v.chan ch with
    st := .retracting, backoff := none, travel := some (Item.travelMs v.seq.values ch), protective := s.needs ch } = u
  have seen : v.backoffRetracts ch (s.needs ch) = u.stepSeen ch := by rw [← hu]; rfl
  have okU : u.Ok := hu ▸ setChan_ok start.sane.ok ch _
  have claimU : u.claim (loadMotor ch) = s.claim (loadMotor ch) := by rw [← start.claim, ← hu]; rfl
  have held : (s.claim (loadMotor ch)).st = .held := (fits.channel ch).held (.inl (by simp [Chan.moving, st]))
  have status : (v.backoffRetracts ch (s.needs ch)).status = v.status := by
    rw [seen, (stepSeen_hushed u ch okU).2, ← hu]
    rfl
  refine ⟨State.framed.after framed moved, shows_handed handed status shown, ?_, ?_⟩
  · rw [handed.claim, seen, stepSeen_claim okU ch (motor_low ch) (by rw [claimU, held]; nofun), claimU]
  · rw [handed.chan, seen, chan_of_motion (stepSeen_motion u ch), ← hu, chan_setChan_self, start.chan, start.seq]

/-- A dwell takes the retract as its follow-on (R128). -/
theorem request_follows :
    let claim := s.claim (loadMotor ch)
    let v := (s.taken.answer code Outcome.waiting).retractFollows ch (s.status.serial + 1)
    let t := State.publish s (if s.needs ch && s.motorHeld ch then (v.rerank (loadMotor ch) 0).1 else v)
    s.framed s ch t ∧ t.shows code 2
      ∧ t.chan ch = { s.chan ch with pending := .none, followOn := s.retractMove ch, req := s.status.serial + 1 }
      ∧ (t.claim (loadMotor ch)).st = claim.st
      ∧ (claim.st = .held → (t.claim (loadMotor ch)).rank = if s.needs ch = true then 0 else claim.rank) := by
  have start := answered_start fits code Outcome.waiting
  have own := motionReach_own ch
  have shown := (answer_shows s code Outcome.waiting).1
  have moved := answered_moved s code Outcome.waiting
  have moves : (s.taken.answer code Outcome.waiting).retractMove ch = s.retractMove ch := rfl
  have serial : (s.taken.answer code Outcome.waiting).status.serial = s.status.serial + 1 := rfl
  generalize s.taken.answer code Outcome.waiting = v at *
  generalize hw : v.retractFollows ch (s.status.serial + 1) = w
  have puts : v.puts ch { s.chan ch with pending := .none, followOn := s.retractMove ch, req := s.status.serial + 1 } w := by
    rw [← hw, ← start.chan, ← moves]
    exact puts_self v ch _
  have okW : w.Ok := hw ▸ setChan_ok start.sane.ok ch _
  have claimW : w.claim (loadMotor ch) = s.claim (loadMotor ch) := by rw [← start.claim, ← hw]; rfl
  have steadyW : Steady v w := hw ▸ modChan_same v ch (fun c => { c with
    pending := .none, followOn := v.retractMove ch, req := s.status.serial + 1 }) rfl
  have movedW : Moved v w := hw ▸ modChan_moved v ch (fun c => { c with
    pending := .none, followOn := v.retractMove ch, req := s.status.serial + 1 })
  have tendsW : Tends (motionReach ch) v.status.serial v w := hw ▸ modChan_tends v ch (fun c => { c with
    pending := .none, followOn := v.retractMove ch, req := s.status.serial + 1 }) fun _ => Nat.le_of_eq serial.symm
  have statusW : w.status = v.status := by rw [← hw]; rfl
  generalize hu : (if s.needs ch && s.motorHeld ch then (w.rerank (loadMotor ch) 0).1 else w) = u
  have motionU : u.motion = w.motion := by
    rw [← hu]
    split
    · exact (rerank_shared _ _ _).motion
    · rfl
  obtain ⟨framed, handed⟩ := start.ends fits s (steadyW.trans (hu ▸ Steady.ite (fun _ => rerank0_steady w _) (fun _ => Steady.refl w)))
    (movedW.trans (hu ▸ Moved.ite (rerank_shared _ _ _).moved (Moved.refl w))) (puts.still motionU).only.other
    (tendsW.trans (hu ▸ Tends.ite (fun _ => rerank0_tends w _) (fun _ => Tends.refl _ _ w)))
  have status : u.status = v.status := by
    rw [← hu, ← statusW]
    split
    · exact ((rerank_asks w _ 0 (by decide)).hushed okW).2
    · rfl
  dsimp only
  rw [hu]
  refine ⟨State.framed.after framed moved, shows_handed handed status shown, by rw [handed.chan, (puts.still motionU).chan], ?_⟩
  rw [handed.claim, ← hu]
  by_cases held : (s.claim (loadMotor ch)).st = .held
  · by_cases need : s.needs ch = true
    · rw [if_pos (by simp [State.motorHeld, held, need]), rerank_held_claim 0 (by rw [claimW]; exact held), claimW, if_pos need]
      exact ⟨rfl, fun _ => rfl⟩
    · rw [if_neg (by simp [need]), claimW, if_neg need]
      exact ⟨rfl, fun _ => rfl⟩
  · rw [if_neg (by simp [State.motorHeld, held]), claimW]
    exact ⟨rfl, fun k => absurd k held⟩

end

end Sys2Proof.Machine
end

