-- ==== Sys2Proof/Proofs/Stops.lean ====
section
/-! PROOFS. STOP, and the retracts that pend (R128, R129). -/

namespace Sys2Proof.Machine

section
variable {s : State} (fits : s.Fits) {code : Nat} {ch : Fin 2}
include fits

/-- A Protective retract of a channel at rest starts at once (R128, R138). -/
theorem request_homes (rest : (s.chan ch).atRest = true) (free : s.pins.hold = false) (cal : (s.chan ch).calTimer = none)
    (runs : s.motionRuns = true) (away : s.pins.er.get ch = false) :
    let t := State.publish s ((s.taken.answer code Outcome.waiting).takePending ch .protective (s.status.serial + 1))
    t.shows code 1 ∧ (t.chan ch).st = .retracting ∧ (t.chan ch).bridge = .retract
      ∧ (t.chan ch).protective = true ∧ (t.chan ch).travel = some (Item.travelMs s.seq.values ch)
      ∧ (t.claim (loadMotor ch)).st = .held ∧ (t.claim (loadMotor ch)).rank = 0 := by
  have start := answered_start fits code Outcome.waiting
  have own := motionReach_own ch
  have lit := motionReach_lit ch
  have pins : (s.taken.answer code Outcome.waiting).pins = s.pins := rfl
  have serial : (s.taken.answer code Outcome.waiting).status.serial = s.status.serial + 1 := rfl
  have asked : (s.taken.answer code Outcome.waiting).status.lastRequest = code := rfl
  generalize s.taken.answer code Outcome.waiting = v at *
  obtain ⟨-, handed⟩ := start.ends fits s (takePending_steady v ch .protective (s.status.serial + 1))
    (takePending_moved v ch _ _) (takePending_only v ch _ _).other
    (takePending_tends (motionReach_travel ch) (motionReach_stall ch) v _ _ (Nat.le_of_eq serial.symm))
  rw [takePending_eq] at *
  generalize hw : v.pends ch .protective (s.status.serial + 1) = w at *
  have okW : w.Ok := hw ▸ setChan_ok start.sane.ok ch _
  have chanW : w.chan ch = { s.chan ch with pending := .protective, req := s.status.serial + 1, idle := none } := by
    rw [← hw, ← start.chan]
    exact chan_setChan_self v ch _
  have claimW : w.claim (loadMotor ch) = s.claim (loadMotor ch) := by rw [← start.claim, ← hw]; rfl
  have seqW : w.seq = s.seq := by rw [← start.seq, ← hw]; rfl
  have pinsW : w.pins = s.pins := by rw [← pins, ← hw]; rfl
  have statusW : w.status = v.status := by rw [← hw]; rfl
  have draw : 1 ≤ Item.motionDraw w.seq.values ch ∧ Item.motionDraw w.seq.values ch ≤ 30000 := by
    rw [seqW]
    exact fits.values.motionDraw ch
  have unforced : (w.claim (loadMotor ch)).st ≠ .forced := by rw [claimW]; exact fits.motor_unforced ch
  have acted := actOnPending_homes okW draw unforced ((motionRuns_of_seq seqW).trans runs)
    (by rw [chanW]; exact rest) (by rw [chanW]; exact cal) (by rw [chanW]) (by rw [pinsW]; exact free)
  have homing := startsHome_homing okW draw unforced (by rw [pinsW]; exact away)
  rw [← acted] at homing
  obtain ⟨⟨stall, puts⟩, held, zero, status⟩ := homing
  have chan := puts.chan
  rw [seqW] at chan
  have revised : (w.actOnPending ch).status = { v.status with outcome := Outcome.accepted } := by
    rw [status, chanW]
    have now : s.status.serial + 1 ≠ 0 ∧ s.status.serial + 1 = w.status.serial := ⟨by omega, by rw [statusW, serial]⟩
    unfold State.reviseOutcome
    rw [if_pos (by simpa using now), ← statusW]
    rfl
  refine ⟨?_, by rw [handed.chan, chan]; rfl, by rw [handed.chan, chan]; rfl, by rw [handed.chan, chan]; rfl,
    by rw [handed.chan, chan]; rfl, by rw [handed.claim, held], by rw [handed.claim, zero]⟩
  unfold State.shows
  rw [handed.status, revised]
  exact ⟨asked, rfl⟩

/-- A retract of a channel at rest away from home, as far as HOLD, calibration and the claim let it (R128). -/
theorem request_pends (runs : s.motionRuns = true) (rest : (s.chan ch).atRest = true) (m : Move) :
    let t := State.publish s ((s.taken.answer code Outcome.waiting).takePending ch m (s.status.serial + 1))
    s.framed s ch t ∧ (m = .protective ∨ m = .retract → s.pins.hold = true ∨ (s.chan ch).calTimer.isSome = true →
      t.shows code 2 ∧ t.claim (loadMotor ch) = s.claim (loadMotor ch)
        ∧ t.chan ch = { s.chan ch with pending := m, req := s.status.serial + 1, idle := none }) := by
  have start := answered_start fits code Outcome.waiting
  have own := motionReach_own ch
  have lit := motionReach_lit ch
  have shown := (answer_shows s code Outcome.waiting).1
  have moved := answered_moved s code Outcome.waiting
  have pins : (s.taken.answer code Outcome.waiting).pins = s.pins := rfl
  have serial : (s.taken.answer code Outcome.waiting).status.serial = s.status.serial + 1 := rfl
  generalize s.taken.answer code Outcome.waiting = v at *
  obtain ⟨framed, handed⟩ := start.ends fits s (takePending_steady v ch m (s.status.serial + 1))
    (takePending_moved v ch _ _) (takePending_only v ch _ _).other
    (takePending_tends (motionReach_travel ch) (motionReach_stall ch) v _ _ (Nat.le_of_eq serial.symm))
  refine ⟨State.framed.after framed moved, fun retracts kept => ?_⟩
  have rests : v.takePending ch m (s.status.serial + 1) = v.pends ch m (s.status.serial + 1) := by
    rw [takePending_eq]
    have chanW : (v.pends ch m (s.status.serial + 1)).chan ch
        = { s.chan ch with pending := m, req := s.status.serial + 1, idle := none } := by
      rw [← start.chan]
      exact chan_setChan_self v ch _
    have pinsW : (v.pends ch m (s.status.serial + 1)).pins = s.pins := pins
    generalize v.pends ch m (s.status.serial + 1) = w at *
    cases cal : (s.chan ch).calTimer with
    | some n => exact actOnPending_rests (.inr (by rw [chanW]; dsimp only; rw [cal]; rfl))
    | none =>
      have hold := kept.resolve_right (by rw [cal]; nofun)
      rcases retracts with m | m
      · rw [actOnPending_protects (by rw [chanW]; exact rest) (by rw [chanW]; exact cal) (by rw [chanW]; exact m),
          if_pos (by rw [pinsW]; exact hold)]
      · rw [actOnPending_retracts (by rw [chanW]; exact rest) (by rw [chanW]; exact cal) (by rw [chanW]; exact m),
          if_pos (by rw [pinsW]; exact hold)]
  rw [rests] at handed ⊢
  refine ⟨shows_handed handed rfl shown, ?_, ?_⟩
  · rw [handed.claim, ← start.claim]
    rfl
  · rw [handed.chan, ← start.chan]
    exact chan_setChan_self v ch _

end

/-! ### A Stop (R129) -/

/-- What a Stop that nothing refuses does with its channel. -/
def State.stopActs (s : State) (ch : Fin 2) : State :=
  let c := s.chan ch
  if c.moving then s.brake ch .none 0 false
  else if c.st = .braking then
    match c.followOn with
    | .extend | .retract => (s.modChan ch fun c => { c with followOn := .none, req := 0 }).release (loadMotor ch)
    | _ => s
  else if c.pending = .none then s
  else (s.dropPending ch).release (loadMotor ch)

section
variable (s : State) (ch : Fin 2)

theorem takeStop_eq (code : Nat) : s.takeStop code ch
    = if (s.chan ch).isProtective && s.view.driveAccepted then s.answer code Outcome.drive
      else if (s.chan ch).isProtective && ch == 1 then s.answer code Outcome.wind
      else (s.answer code Outcome.accepted).stopActs ch := rfl

theorem stopActs_steady : Steady s (s.stopActs ch) := by
  refine Steady.ite (fun _ => brake_steady s ch _ _ _) (fun _ => Steady.ite (fun _ => ?_) (fun _ => Steady.ite (fun _ => Steady.refl s)
    (fun _ => (dropPending_steady s ch).trans (release_steady _ _))))
  split
  · exact (modChan_same s ch _ rfl).trans (release_steady _ _)
  · exact (modChan_same s ch _ rfl).trans (release_steady _ _)
  · exact Steady.refl s

theorem stopActs_moved : Moved s (s.stopActs ch) := by
  refine Moved.ite (brake_moved s ch _ _ _) (Moved.ite ?_ (Moved.ite (Moved.refl s)
    ((modChan_moved s ch _).trans (release_shared _ _).moved)))
  split
  · exact (modChan_moved s ch _).trans (release_shared _ _).moved
  · exact (modChan_moved s ch _).trans (release_shared _ _).moved
  · exact Moved.refl s

theorem stopActs_only : Only ch s (s.stopActs ch) := by
  refine Only.ite (brake_only s ch _ _ _) (Only.ite ?_ (Only.ite (Only.refl s)
    ((modChan_only s ch _).trans (release_shared _ _).only)))
  split
  · exact (modChan_only s ch _).trans (release_shared _ _).only
  · exact (modChan_only s ch _).trans (release_shared _ _).only
  · exact Only.refl s

theorem stopActs_tends (n : Nat) : Tends (motionReach ch) n s (s.stopActs ch) := by
  have own := motionReach_own ch
  have lit := motionReach_lit ch
  refine Tends.ite (fun _ => brake_tends s ch _ _ _ fun _ => Nat.zero_le n) (fun _ => Tends.ite (fun _ => ?_)
    (fun _ => Tends.ite (fun _ => Tends.refl _ n s) (fun _ => (dropPending_tends s ch).trans (release_tends _ _))))
  split
  · exact (modChan_tends s ch _ fun _ => Nat.zero_le n).trans (release_tends _ _)
  · exact (modChan_tends s ch _ fun _ => Nat.zero_le n).trans (release_tends _ _)
  · exact Tends.refl _ n s

theorem stopActs_hushed : Hushed s (s.stopActs ch) := by
  have put : ∀ c, Hushed s ((s.setChan ch c).release (loadMotor ch)) := fun c o =>
    (release_asks _ _).hushed (setChan_ok o ch c)
  refine Hushed.ite (fun _ => brake_hushed s ch _ _ _) (fun _ => Hushed.ite (fun _ => ?_) (fun _ => Hushed.ite (fun _ => Hushed.refl s)
    (fun _ => put _)))
  split
  · exact put _
  · exact put _
  · exact Hushed.refl s

variable {s ch}

theorem stopActs_brakes (o : s.Ok) (moving : (s.chan ch).moving = true) :
    ((s.stopActs ch).claim (loadMotor ch)).st = .idle ∧ (s.stopActs ch).chan ch = (s.chan ch).braked .none 0 := by
  have eq : s.stopActs ch = s.brake ch .none 0 false := if_pos moving
  rw [eq]
  exact ⟨brake_frees o (.inl rfl), (brake_puts s ch _ _ _).chan⟩

theorem stopActs_drops (o : s.Ok) (st : (s.chan ch).st = .braking) (follows : (s.chan ch).followOn = .extend ∨ (s.chan ch).followOn = .retract) :
    ((s.stopActs ch).claim (loadMotor ch)).st = .idle ∧ (s.stopActs ch).chan ch = { s.chan ch with followOn := .none, req := 0 } := by
  have eq : s.stopActs ch = (s.setChan ch { s.chan ch with followOn := .none, req := 0 }).release (loadMotor ch) := by
    generalize dropped : State.release _ _ = r
    unfold State.stopActs
    dsimp only
    rw [if_neg (by simp [Chan.moving, st]), if_pos st]
    rcases follows with f | f
    · rw [f]; exact dropped
    · rw [f]; exact dropped
  rw [eq]
  refine ⟨release_idle (setChan_ok o ch _) _, ?_⟩
  rw [chan_of_motion (release_shared _ _).motion, chan_setChan_self]

theorem stopActs_ends (o : s.Ok) (rest : (s.chan ch).atRest = true) (pending : (s.chan ch).pending ≠ .none) :
    ((s.stopActs ch).claim (loadMotor ch)).st = .idle ∧ ((s.stopActs ch).chan ch).pending = .none
      ∧ ((s.stopActs ch).chan ch).st = (s.chan ch).st := by
  have still : ¬ (s.chan ch).moving = true ∧ (s.chan ch).st ≠ .braking := by
    cases st : (s.chan ch).st <;> simp [Chan.atRest, Chan.moving, st] at rest ⊢
  have eq : s.stopActs ch = (s.dropPending ch).release (loadMotor ch) := by
    unfold State.stopActs
    dsimp only
    rw [if_neg still.1, if_neg still.2, if_neg pending]
  rw [eq]
  refine ⟨release_idle (setChan_ok o ch _) _, ?_⟩
  rw [chan_of_motion (release_shared _ _).motion, State.dropPending, State.modChan, chan_setChan_self]
  exact ⟨rfl, rfl⟩

theorem stopActs_rests (still : (s.chan ch).moving = false) (pending : (s.chan ch).pending = .none)
    (extend : (s.chan ch).followOn ≠ .extend) (retract : (s.chan ch).followOn ≠ .retract) : s.stopActs ch = s := by
  unfold State.stopActs
  dsimp only
  rw [if_neg (by simp [still]), if_pos pending]
  split
  · split
    · next f => exact absurd f extend
    · next f => exact absurd f retract
    · rfl
  · rfl

theorem isProtective_iff (c : Chan) : c.isProtective = true ↔ c.protective = true ∨ c.pending = .protective ∨ c.followOn = .protective := by
  unfold Chan.isProtective
  rw [Bool.or_eq_true, Bool.or_eq_true, beq_iff_eq, beq_iff_eq, or_assoc]

end

end Sys2Proof.Machine

namespace Sys2Proof.Proofs
open Sys2Proof.Machine

section
variable {s : State} (fits : s.Fits) (ch : Fin 2) (runs : s.motionRuns = true)
include fits runs

theorem retract_acts :
    let t := State.publish s (s.taken.takeRetract 5 ch)
    let c := s.chan ch
    let m : Move := if s.needs ch = true then .protective else .retract
    let req := s.status.serial + 1
    let claim := s.claim (loadMotor ch)
    (c.st = .retracted ∨ c.st = .retracting → (s.taken.answered 5 1).handedOver t)
      ∧ (c.st = .backoff → s.framed s ch t ∧ t.shows 5 1 ∧ t.claim (loadMotor ch) = claim ∧ t.chan ch = { c with
          st := .retracting, backoff := none, travel := some (Item.travelMs s.seq.values ch), protective := s.needs ch })
      ∧ (c.st = .extending → s.framed s ch t ∧ t.shows 5 2 ∧ t.claim (loadMotor ch) = claim ∧ t.chan ch = c.braked m req)
      ∧ (c.st = .braking →
          (c.followOn = .backoff ∨ c.followOn = .settleFault → (s.taken.answered 5 12).handedOver t)
            ∧ (c.followOn = .protective → (s.taken.answered 5 1).handedOver t)
            ∧ (c.followOn = .none ∨ c.followOn = .extend ∨ c.followOn = .retract → s.framed s ch t ∧ t.shows 5 2
                ∧ t.chan ch = { c with pending := .none, followOn := m, req := req }
                ∧ (t.claim (loadMotor ch)).st = claim.st
                ∧ (claim.st = .held → (t.claim (loadMotor ch)).rank = if s.needs ch = true then 0 else claim.rank)))
      ∧ (c.atRest = true → c.st ≠ .retracted → s.framed s ch t ∧
          (s.pins.hold = true ∨ c.calTimer.isSome = true → t.shows 5 2 ∧ t.claim (loadMotor ch) = claim
              ∧ t.chan ch = { c with pending := m, req := req, idle := none })
            ∧ (s.pins.hold = false → c.calTimer = none → s.needs ch = true → s.pins.er.get ch = false →
                t.shows 5 1 ∧ (t.chan ch).st = .retracting ∧ (t.chan ch).bridge = .retract
                  ∧ (t.chan ch).protective = true ∧ (t.chan ch).travel = some (Item.travelMs s.seq.values ch)
                  ∧ (t.claim (loadMotor ch)).st = .held ∧ (t.claim (loadMotor ch)).rank = 0)
            ∧ (s.pins.hold = false → c.calTimer = none → ¬ s.needs ch = true → claim.st = .idle →
                let d := t.claim (loadMotor ch)
                t.shows 5 2 ∧ (t.chan ch).st = c.st ∧ (t.chan ch).pending = .retract ∧ d.rank = 3
                  ∧ d.asked = s.seq.values.get (if ch = 0 then 30 else 31)
                  ∧ d.st = if s.passes (loadMotor ch) 3 (Item.motionDraw s.seq.values ch) = true then .contest
                    else .waiting)) := by
  have quiet := fits.sound.quiet.1
  have move : s.taken.retractMove ch = if s.needs ch = true then .protective else .retract := rfl
  dsimp only
  refine ⟨fun home => ?_, fun st => ?_, fun st => ?_, fun st => ⟨fun faulty => ?_, fun kept => ?_, fun follows => ?_⟩, fun rest out => ?_⟩
  · rw [takeRetract_home (s := s.taken) home]
    exact publish_handedOver s (s.taken.answer 5 1) quiet
  · rw [takeRetract_backoff (s := s.taken) st]
    exact request_retracts fits st
  · rw [takeRetract_extending (s := s.taken) st, move]
    exact request_brakes fits (Nat.le_refl _) (by split <;> rfl) (by simp [Chan.moving, st])
  · rw [takeRetract_faulty (s := s.taken) st faulty]
    exact publish_handedOver s (s.taken.answer 5 12) quiet
  · rw [takeRetract_protected (s := s.taken) st kept]
    exact publish_handedOver s (s.taken.answer 5 1) quiet
  · rw [takeRetract_follows (s := s.taken) st follows]
    exact request_follows fits
  · rw [takeRetract_pends (s := s.taken) rest out, move]
    obtain ⟨framed, rests⟩ := request_pends fits (code := 5) runs rest (if s.needs ch = true then .protective else .retract)
    refine ⟨framed, rests (by split; exacts [.inl rfl, .inr rfl]), fun free cal need away => ?_, fun free cal not idle => ?_⟩
    · rw [if_pos need]
      exact request_homes fits rest free cal runs away
    · rw [if_neg not]
      obtain ⟨-, shown, chan, asks, -⟩ := request_waits fits (code := 5) (.inr ⟨rfl, free⟩) rest (.inl (by rw [idle]; nofun))
      obtain ⟨rank, asked, st⟩ := asks idle cal
      exact ⟨shown, (congrArg Chan.st chan).trans rfl, (congrArg Chan.pending chan).trans rfl, rank, asked, st⟩

omit runs in
theorem stop_acts :
    let t := State.publish s (s.taken.takeStop 6 ch)
    let c := s.chan ch
    let protective := c.protective = true ∨ c.pending = .protective ∨ c.followOn = .protective
    (protective → s.view.driveAccepted = true → (s.taken.answered 6 4).handedOver t)
      ∧ (protective → s.view.driveAccepted = false → ch = 1 → (s.taken.answered 6 6).handedOver t)
      ∧ (¬ protective ∨ s.view.driveAccepted = false ∧ ch = 0 → s.framed s ch t ∧ t.shows 6 1
          ∧ (c.moving = true → (t.claim (loadMotor ch)).st = .idle ∧ t.chan ch = c.braked .none 0)
          ∧ (c.st = .braking → c.followOn = .extend ∨ c.followOn = .retract →
              (t.claim (loadMotor ch)).st = .idle ∧ t.chan ch = { c with followOn := .none, req := 0 })
          ∧ (c.atRest = true → c.pending ≠ .none → (t.claim (loadMotor ch)).st = .idle
              ∧ (t.chan ch).pending = .none ∧ (t.chan ch).st = c.st)
          ∧ (c.moving = false → c.pending = .none → c.followOn ≠ .extend → c.followOn ≠ .retract →
              (s.taken.answered 6 1).handedOver t)) := by
  have quiet := fits.sound.quiet.1
  have met : s.taken.takeStop 6 ch = if (s.chan ch).isProtective && s.view.driveAccepted then s.taken.answer 6 Outcome.drive
      else if (s.chan ch).isProtective && ch == 1 then s.taken.answer 6 Outcome.wind
      else (s.taken.answer 6 Outcome.accepted).stopActs ch := takeStop_eq s.taken ch 6
  dsimp only
  rw [← isProtective_iff, met]
  refine ⟨fun protects drive => ?_, fun protects drive awning => ?_, fun free => ?_⟩
  · rw [if_pos (by simp [protects, drive])]
    exact publish_handedOver s (s.taken.answer 6 4) quiet
  · rw [if_neg (by simp [drive]), if_pos (by rw [protects, awning]; rfl)]
    exact publish_handedOver s (s.taken.answer 6 6) quiet
  · have unkept : ¬ ((s.chan ch).isProtective && s.view.driveAccepted) = true ∧ ¬ ((s.chan ch).isProtective && ch == 1) = true := by
      rcases free with h | ⟨h, rfl⟩
      · simp [h]
      · simp [h]
    rw [if_neg unkept.1, if_neg unkept.2]
    have handedBack := publish_handedOver s (s.taken.answer 6 1) quiet
    have start := answered_start fits 6 Outcome.accepted
    have shown := (answer_shows s 6 Outcome.accepted).1
    have moved := answered_moved s 6 Outcome.accepted
    have first : s.taken.answer 6 1 = s.taken.answer 6 Outcome.accepted := rfl
    have back : (s.taken.answer 6 Outcome.accepted).handedOver (State.publish s (s.taken.answer 6 Outcome.accepted)) →
      (s.taken.answered 6 1).handedOver (State.publish s (s.taken.answer 6 Outcome.accepted)) := fun h => h
    rw [first] at handedBack
    generalize s.taken.answer 6 Outcome.accepted = v at *
    obtain ⟨framed, handed⟩ := start.ends fits s (stopActs_steady v ch) (stopActs_moved v ch) (stopActs_only v ch).other
      (stopActs_tends v ch _)
    have ok := start.sane.ok
    have chan := start.chan ch
    refine ⟨State.framed.after framed moved, shows_handed handed (stopActs_hushed v ch ok).2 shown, fun moving => ?_,
      fun st follows => ?_, fun rest pending => ?_, fun still none extend retract => ?_⟩
    · obtain ⟨idle, put⟩ := stopActs_brakes ok (by rw [chan]; exact moving)
      exact ⟨by rw [handed.claim]; exact idle, by rw [handed.chan, put, chan]⟩
    · obtain ⟨idle, put⟩ := stopActs_drops ok (by rw [chan]; exact st) (by rw [chan]; exact follows)
      exact ⟨by rw [handed.claim]; exact idle, by rw [handed.chan, put, chan]⟩
    · obtain ⟨idle, ended, same⟩ := stopActs_ends ok (by rw [chan]; exact rest) (by rw [chan]; exact pending)
      exact ⟨by rw [handed.claim]; exact idle, by rw [handed.chan, ended], by rw [handed.chan, same, chan]⟩
    · rw [stopActs_rests (by rw [chan]; exact still) (by rw [chan]; exact none) (by rw [chan]; exact extend) (by rw [chan]; exact retract)]
      exact back handedBack

end

/-- Settles O55. -/
theorem motionRetractAndStop : Obligations.MotionRetractAndStop := by
  unfold Obligations.MotionRetractAndStop
  intro s i v fits
  have quiet := fits.sound.quiet.1
  dsimp only
  refine ⟨fun asks => ?_, fun asks => ?_⟩
  · obtain ⟨t, done, absent, early, out, met⟩ := motion_answered asks quiet fun s ch => s.takeRetract 5 ch
    refine ⟨t, done, ⟨absent, early, out⟩, fun ch fitted run within => ?_⟩
    have runs : s.motionRuns = true := by simp [State.motionRuns, State.inRun, fitted, run]
    rw [met ch fitted run within]
    obtain ⟨home, backoff, extending, braking, rest⟩ := retract_acts fits ch runs
    simp only [← needs_iff]
    exact ⟨trivial, home, backoff, extending, braking, rest⟩
  · obtain ⟨t, done, absent, early, out, met⟩ := motion_answered asks quiet fun s ch => s.takeStop 6 ch
    refine ⟨t, done, ⟨absent, early, out⟩, fun ch fitted run within => ?_⟩
    rw [met ch fitted run within]
    exact stop_acts fits ch

end Sys2Proof.Proofs
end

