-- ==== Sys2Proof/Proofs/Dwells.lean ====
section
/-! PROOFS. The end of a dwell by its follow-on (R132). -/

namespace Sys2Proof.Machine

/-! ### Commands that act on a channel from the state as it stands -/

theorem start_refl {s : State} (fits : s.Fits) : s.Start s := ⟨fits.sound.sane, rfl, rfl, rfl, fun _ => rfl, rfl, Nat.le_refl _⟩

theorem start_pins {s : State} (fits : s.Fits) (p : Pins) : s.Start (s.setPins p) :=
  ⟨setPins_sane fits.sound.sane p, rfl, rfl, rfl, fun _ => rfl, rfl, Nat.le_refl _⟩

/-! ### The end of a dwell (R132) -/

/-- Where the stops put a channel that has braked (R126). -/
def State.stopState (s : State) (ch : Fin 2) : MState :=
  if s.pins.er.get ch = true then (if s.pins.ee.get ch = true then .unknown else .retracted)
  else if s.pins.ee.get ch = true then .extended else .midway

theorem byStops_braking (s : State) (ch : Fin 2) : s.byStops ch .braking = s.stopState ch := by
  unfold State.byStops State.stopState
  cases s.pins.er.get ch with
  | true => cases s.pins.ee.get ch <;> rfl
  | false => cases s.pins.ee.get ch <;> rfl

/-- The state in which a dwell is over and its follow-on not yet taken. -/
def State.dwelt (s : State) (ch : Fin 2) : State := s.setChan ch { s.chan ch with bridge := .off, dwell := none }

section
variable {s : State} {ch : Fin 2}

theorem dwellEnds_none (h : (s.chan ch).followOn = .none) : s.dwellEnds ch
    = ((s.dwelt ch).settle ch ((s.dwelt ch).byStops ch .braking) (s.chan ch).pending (s.chan ch).req).actOnPending ch := by
  unfold State.dwellEnds
  dsimp only
  rw [h]
  rfl

theorem dwellEnds_settleFault (h : (s.chan ch).followOn = .settleFault) :
    s.dwellEnds ch = (s.dwelt ch).settle ch .fault .none 0 := by
  unfold State.dwellEnds
  dsimp only
  rw [h]
  rfl

theorem dwellEnds_backoff (h : (s.chan ch).followOn = .backoff) : s.dwellEnds ch
    = if s.pins.hold then ((s.dwelt ch).release (loadMotor ch)).settle ch .midway (if s.needs ch then .protective else .none) 0
      else if s.needs ch then ((s.dwelt ch).claimProtective ch).startMove ch .protective
      else (s.dwelt ch).startBackoff ch := by
  unfold State.dwellEnds
  dsimp only
  rw [h]
  rfl

theorem dwellEnds_extend (h : (s.chan ch).followOn = .extend) : s.dwellEnds ch
    = if (s.dwelt ch).motorHeld ch then
        match (s.dwelt ch).extendRefusal ch with
        | none => (s.dwelt ch).startMove ch .extend
        | some o => (((s.dwelt ch).release (loadMotor ch)).settle ch ((s.dwelt ch).byStops ch .braking) .none 0).reviseOutcome (s.chan ch).req o
      else ((s.dwelt ch).settle ch ((s.dwelt ch).byStops ch .braking) .extend (s.chan ch).req).claimRequested ch := by
  unfold State.dwellEnds
  dsimp only
  rw [h]
  rfl

theorem dwellEnds_retract (h : (s.chan ch).followOn = .retract) : s.dwellEnds ch
    = if s.pins.hold then ((s.dwelt ch).release (loadMotor ch)).settle ch ((s.dwelt ch).byStops ch .braking) .retract (s.chan ch).req
      else if (s.dwelt ch).motorHeld ch then (s.dwelt ch).startMove ch .retract
      else ((s.dwelt ch).settle ch ((s.dwelt ch).byStops ch .braking) .retract (s.chan ch).req).claimRequested ch := by
  unfold State.dwellEnds
  dsimp only
  rw [h]
  rfl

theorem dwellEnds_protective (h : (s.chan ch).followOn = .protective) : s.dwellEnds ch
    = if s.pins.hold then ((s.dwelt ch).release (loadMotor ch)).settle ch ((s.dwelt ch).byStops ch .braking) .protective (s.chan ch).req
      else ((s.dwelt ch).claimProtective ch).startMove ch .protective := by
  unfold State.dwellEnds
  dsimp only
  rw [h]
  rfl

end

/-! ### How a channel stands after it -/

/-- The channel stands at rest, with `m` pending. -/
def State.rests (u : State) (ch : Fin 2) (st : MState) (m : Move) : Prop :=
  (u.chan ch).st = st ∧ (u.chan ch).bridge = .off ∧ (u.chan ch).pending = m ∧ (u.chan ch).followOn = .none ∧ (u.chan ch).dwell = none

/-- The channel is under way with its claim Held. -/
def State.underWay (u : State) (ch : Fin 2) (travel : Nat) (st : MState) (b : Bridge) : Prop :=
  (u.chan ch).st = st ∧ (u.chan ch).bridge = b ∧ (u.chan ch).pending = .none ∧ (u.chan ch).followOn = .none
    ∧ (u.chan ch).dwell = none ∧ (u.claim (loadMotor ch)).st = .held
    ∧ (st ≠ .backoff → (u.chan ch).travel = some travel ∧ (u.chan ch).backoff = none)
    ∧ (st = .backoff → (u.chan ch).backoff = some 1000 ∧ (u.chan ch).travel = none)

theorem rests_of_settled {u : State} {ch : Fin 2} {c : Chan} {st : MState} {m : Move} {req : Nat} (h : u.chan ch = c.settled st m req) :
    u.rests ch st m ∧ (m = .none → (u.chan ch).idle = some 600000) := by
  unfold State.rests
  rw [h]
  exact ⟨⟨rfl, rfl, rfl, rfl, rfl⟩, fun e => if_pos e⟩

theorem underWay_of_started {u : State} {ch : Fin 2} {c : Chan} {m : Move} {travel : Nat} {stall : Timer}
    (h : u.chan ch = c.started m travel stall) (held : (u.claim (loadMotor ch)).st = .held) :
    u.underWay ch travel (if m = .extend then .extending else .retracting) (if m = .extend then .extend else .retract)
      ∧ (u.chan ch).protective = (m == .protective) := by
  unfold State.underWay
  rw [h]
  refine ⟨⟨rfl, rfl, rfl, rfl, rfl, held, fun _ => ⟨rfl, rfl⟩, fun k => ?_⟩, rfl⟩
  split at k <;> cases k

section
variable {s : State} {ch : Fin 2}

/-- A channel whose claim is released settles with it Idle. -/
theorem settle_frees (o : s.Ok) (st : MState) (m : Move) (req : Nat) :
    (((s.release (loadMotor ch)).settle ch st m req).claim (loadMotor ch)).st = .idle := by
  have idle := release_idle o (loadMotor ch)
  have ok := (release_calm s (loadMotor ch) o).1
  rw [Claim.stirs_same (settle_stirs _ ch st m req ok) (by rw [idle]; nofun)]
  exact idle

theorem settle_released (st : MState) (m : Move) (req : Nat) :
    ((s.release (loadMotor ch)).settle ch st m req).chan ch = (s.chan ch).settled st m req := by
  rw [(settle_puts _ ch st m req).chan, chan_of_motion (release_shared _ _).motion]

/-- The channel as a Backoff begins. -/
def Chan.backing (c : Chan) (stall : Timer) : Chan :=
  { c with
    st := .backoff, bridge := .retract, pending := .none, followOn := .none, protective := false, req := 0
    travel := none, stall := stall, backoff := some 1000, dwell := none, idle := none }

/-- A Backoff that starts short of the retracted stop goes on with its claim (R135). -/
theorem startBackoff_goes (o : s.Ok) (away : s.pins.er.get ch = false) (held : (s.claim (loadMotor ch)).st = .held) :
    (∃ stall, (s.startBackoff ch).chan ch = (s.chan ch).backing stall)
      ∧ (s.startBackoff ch).claim (loadMotor ch) = s.claim (loadMotor ch) := by
  generalize hu : s.setChan ch ((s.chan ch).backing (s.stallArmed ch)) = u
  have begins : s.startBackoff ch = u.begun ch := by rw [← hu]; rfl
  have chan : u.chan ch = (s.chan ch).backing (s.stallArmed ch) := by rw [← hu]; exact chan_setChan_self s ch _
  have claim : u.claim (loadMotor ch) = s.claim (loadMotor ch) := by rw [← hu]; rfl
  have target : u.atTarget ch = false := by
    unfold State.atTarget
    rw [chan, ← hu]
    exact away
  have ok : u.Ok := hu ▸ setChan_ok o ch _
  rw [begins, begun_still u ch target]
  refine ⟨⟨s.stallArmed ch, by rw [chan_of_motion (stepSeen_motion u ch), chan]⟩, ?_⟩
  rw [stepSeen_claim ok ch (motor_low ch) (by rw [claim, held]; nofun), claim]

/-- A settled channel that asks for its claim. -/
theorem settle_asks (o : s.Ok) (draw : 1 ≤ Item.motionDraw s.seq.values ch ∧ Item.motionDraw s.seq.values ch ≤ 30000)
    (idle : (s.claim (loadMotor ch)).st = .idle) (st : MState) (m : Move) (req : Nat) :
    let u := (s.settle ch st m req).claimRequested ch
    u.chan ch = (s.chan ch).settled st m req ∧ (u.claim (loadMotor ch)).rank = 3
      ∧ (u.claim (loadMotor ch)).asked = Item.motionDraw s.seq.values ch
      ∧ ((u.claim (loadMotor ch)).st = .contest ∨ (u.claim (loadMotor ch)).st = .waiting) := by
  have ok := (settle_hushed s ch st m req o).1
  have chan := (settle_puts s ch st m req).chan
  have claim := Claim.stirs_same (settle_stirs s ch st m req o) (by rw [idle]; nofun)
  have seq : (s.settle ch st m req).seq = s.seq := (settle_moved s ch st m req).seq
  generalize s.settle ch st m req = w at *
  obtain ⟨rank, asked, -, state⟩ := claimRequested_claim ch ok (by rw [seq]; exact draw) (by rw [claim]; exact idle)
  dsimp only
  refine ⟨by rw [chan_of_motion (claimRequested_motion ch w), chan], rank, by rw [asked, seq], ?_⟩
  rw [state]
  split
  · exact .inl rfl
  · exact .inr rfl

end

end Sys2Proof.Machine
end

