-- ==== Sys2Proof/Proofs/DwellEnds.lean ====
section
/-! PROOFS. Where each follow-on leads in a state in order (R132, R135). -/

namespace Sys2Proof.Machine

theorem reviseOutcome_claim (s : State) (req o : Nat) (id : Fin 7) : (s.reviseOutcome req o).claim id = s.claim id := by
  unfold State.reviseOutcome
  split <;> rfl

section
variable {s : State} (fits : s.Fits) (ch : Fin 2) (dwells : (s.chan ch).dwell.isSome = true) (runs : s.motionRuns = true)
include fits dwells

/-! ### The state in which a dwell is over -/

omit fits dwells in
theorem dwelt_chan : (s.dwelt ch).chan ch = { s.chan ch with bridge := .off, dwell := none } := chan_setChan_self s ch _

omit fits dwells in
theorem dwelt_claim : (s.dwelt ch).claim (loadMotor ch) = s.claim (loadMotor ch) := rfl

omit dwells in
theorem dwelt_ok : (s.dwelt ch).Ok := setChan_ok fits.sound.ok ch _

theorem dwell_brakes : (s.chan ch).st = .braking := (fits.channel ch).dwell.mp dwells

omit fits in
theorem dwelt_stops : (s.dwelt ch).byStops ch .braking = s.stopState ch := byStops_braking s ch

/-! ### What each follow-on leads to -/

theorem dwell_settles (none : (s.chan ch).followOn = .none) (pending : (s.chan ch).pending = .none) :
    (s.dwellEnds ch).rests ch (s.stopState ch) .none ∧ ((s.dwellEnds ch).chan ch).idle = some 600000
      ∧ ((s.dwellEnds ch).claim (loadMotor ch)).st = .idle := by
  have idle : (s.claim (loadMotor ch)).st = .idle :=
    ((fits.channel ch).kept (dwell_brakes fits ch dwells)).resolve_right (by rw [none]; rintro ⟨k, -⟩; cases k)
  rw [dwellEnds_none none, pending, dwelt_stops ch dwells]
  have chan := (settle_puts (s.dwelt ch) ch (s.stopState ch) .none (s.chan ch).req).chan
  have claim := Claim.stirs_same (settle_stirs (s.dwelt ch) ch (s.stopState ch) .none (s.chan ch).req (dwelt_ok fits ch))
    (by rw [dwelt_claim, idle]; nofun)
  rw [actOnPending_none (by rw [chan]; rfl)]
  obtain ⟨rests, timer⟩ := rests_of_settled chan
  exact ⟨rests, timer rfl, by rw [claim]; exact idle⟩

theorem dwell_faults (fault : (s.chan ch).followOn = .settleFault) :
    (s.dwellEnds ch).rests ch .fault .none ∧ ((s.dwellEnds ch).claim (loadMotor ch)).st = .idle := by
  have idle : (s.claim (loadMotor ch)).st = .idle :=
    ((fits.channel ch).kept (dwell_brakes fits ch dwells)).resolve_right (by rw [fault]; rintro ⟨k, -⟩; cases k)
  rw [dwellEnds_settleFault fault]
  have claim := Claim.stirs_same (settle_stirs (s.dwelt ch) ch .fault .none 0 (dwelt_ok fits ch))
    (by rw [dwelt_claim, idle]; nofun)
  exact ⟨(rests_of_settled (settle_puts (s.dwelt ch) ch .fault .none 0).chan).1, by rw [claim]; exact idle⟩

omit dwells in
theorem dwelt_homes (away : s.pins.er.get ch = false) :
    let u := ((s.dwelt ch).claimProtective ch).startMove ch .protective
    u.underWay ch (Item.travelMs s.seq.values ch) .retracting .retract ∧ (u.chan ch).protective = true
      ∧ (u.claim (loadMotor ch)).rank = 0 := by
  have homing := startsHome_homing (dwelt_ok fits ch) (fits.values.motionDraw ch) (fits.motor_unforced ch) away
  obtain ⟨⟨stall, puts⟩, held, zero, -⟩ := homing
  obtain ⟨way, protective⟩ := underWay_of_started puts.chan held
  exact ⟨way, protective, zero⟩

omit dwells in
theorem dwelt_starts {m : Move} (away : (if m = .extend then s.pins.ee.get ch else s.pins.er.get ch) = false)
    (held : (s.claim (loadMotor ch)).st = .held) :
    let u := (s.dwelt ch).startMove ch m
    u.underWay ch (Item.travelMs s.seq.values ch) (if m = .extend then .extending else .retracting) (if m = .extend then .extend else .retract)
      ∧ u.claim (loadMotor ch) = s.claim (loadMotor ch) := by
  have puts := startMove_puts (s.dwelt ch) ch m away
  have claim := startMove_claim (s.dwelt ch) ch m (dwelt_ok fits ch) away held
  exact ⟨(underWay_of_started puts.chan (by rw [claim]; exact held)).1, claim⟩

omit dwells in
theorem dwelt_frees (st : MState) (m : Move) (req : Nat) :
    let u := ((s.dwelt ch).release (loadMotor ch)).settle ch st m req
    u.rests ch st m ∧ (u.claim (loadMotor ch)).st = .idle :=
  ⟨(rests_of_settled (settle_released st m req)).1, settle_frees (dwelt_ok fits ch) st m req⟩

theorem dwell_backs (back : (s.chan ch).followOn = .backoff) :
    if s.pins.hold = true then
      (s.dwellEnds ch).rests ch .midway (if s.needs ch = true then .protective else .none)
        ∧ ((s.dwellEnds ch).claim (loadMotor ch)).st = .idle
    else s.pins.er.get ch = false → if s.needs ch = true then
        (s.dwellEnds ch).underWay ch (Item.travelMs s.seq.values ch) .retracting .retract
          ∧ ((s.dwellEnds ch).chan ch).protective = true ∧ ((s.dwellEnds ch).claim (loadMotor ch)).rank = 0
      else (s.dwellEnds ch).underWay ch (Item.travelMs s.seq.values ch) .backoff .retract
        ∧ (s.dwellEnds ch).claim (loadMotor ch) = s.claim (loadMotor ch) := by
  have held : (s.claim (loadMotor ch)).st = .held := (fits.channel ch).held (.inr back)
  rw [dwellEnds_backoff back]
  split
  · exact dwelt_frees fits ch _ _ _
  · intro away
    split
    · exact dwelt_homes fits ch away
    · obtain ⟨⟨stall, chan⟩, claim⟩ := startBackoff_goes (dwelt_ok fits ch) away held
      refine ⟨?_, claim⟩
      unfold State.underWay
      rw [chan, claim]
      exact ⟨rfl, rfl, rfl, rfl, rfl, held, fun k => absurd rfl k, fun _ => ⟨rfl, rfl⟩⟩

theorem extendRefusal_dwelt : (s.dwelt ch).extendRefusal ch = s.extendRefusal ch := by
  unfold State.extendRefusal
  rw [dwelt_chan]
  rfl

theorem dwell_extends (extend : (s.chan ch).followOn = .extend) :
    if (s.claim (loadMotor ch)).st = .held then
      if s.extendRefusal ch = none then s.pins.ee.get ch = false →
        (s.dwellEnds ch).underWay ch (Item.travelMs s.seq.values ch) .extending .extend
          ∧ (s.dwellEnds ch).claim (loadMotor ch) = s.claim (loadMotor ch)
      else (s.dwellEnds ch).rests ch (s.stopState ch) .none ∧ ((s.dwellEnds ch).claim (loadMotor ch)).st = .idle
    else (s.dwellEnds ch).rests ch (s.stopState ch) .extend ∧ ((s.dwellEnds ch).claim (loadMotor ch)).rank = 3
      ∧ ((s.dwellEnds ch).claim (loadMotor ch)).asked = Item.motionDraw s.seq.values ch
      ∧ (((s.dwellEnds ch).claim (loadMotor ch)).st = .contest ∨ ((s.dwellEnds ch).claim (loadMotor ch)).st = .waiting) := by
  rw [dwellEnds_extend extend, extendRefusal_dwelt fits ch dwells, dwelt_stops ch dwells]
  by_cases held : (s.claim (loadMotor ch)).st = .held
  · have motor : (s.dwelt ch).motorHeld ch = true := by simp [State.motorHeld, dwelt_claim, held]
    rw [if_pos held, if_pos motor]
    cases refusal : s.extendRefusal ch with
    | none =>
      rw [if_pos rfl]
      exact fun away => dwelt_starts fits ch (m := .extend) away held
    | some o =>
      rw [if_neg nofun]
      obtain ⟨rests, idle⟩ := dwelt_frees fits ch (s.stopState ch) .none 0
      have shared := reviseOutcome_shared (((s.dwelt ch).release (loadMotor ch)).settle ch (s.stopState ch) .none 0) (s.chan ch).req o
      unfold State.rests
      rw [chan_of_motion shared.motion, reviseOutcome_claim]
      exact ⟨rests, idle⟩
  · have idle : (s.claim (loadMotor ch)).st = .idle :=
      ((fits.channel ch).kept (dwell_brakes fits ch dwells)).resolve_right fun k => held k.2
    have motor : ¬ (s.dwelt ch).motorHeld ch = true := by simp [State.motorHeld, dwelt_claim, held]
    rw [if_neg held, if_neg motor]
    obtain ⟨chan, asks⟩ := settle_asks (dwelt_ok fits ch) (fits.values.motionDraw ch) idle (s.stopState ch) .extend (s.chan ch).req
    exact ⟨(rests_of_settled chan).1, asks⟩

theorem dwell_retracts (retract : (s.chan ch).followOn = .retract) :
    if s.pins.hold = true then
      (s.dwellEnds ch).rests ch (s.stopState ch) .retract ∧ ((s.dwellEnds ch).claim (loadMotor ch)).st = .idle
    else if (s.claim (loadMotor ch)).st = .held then s.pins.er.get ch = false →
      (s.dwellEnds ch).underWay ch (Item.travelMs s.seq.values ch) .retracting .retract
        ∧ (s.dwellEnds ch).claim (loadMotor ch) = s.claim (loadMotor ch)
    else (s.dwellEnds ch).rests ch (s.stopState ch) .retract ∧ ((s.dwellEnds ch).claim (loadMotor ch)).rank = 3 := by
  rw [dwellEnds_retract retract, dwelt_stops ch dwells]
  split
  · exact dwelt_frees fits ch _ _ _
  · by_cases held : (s.claim (loadMotor ch)).st = .held
    · rw [if_pos held, if_pos (by simp [State.motorHeld, dwelt_claim, held])]
      exact fun away => dwelt_starts fits ch (m := .retract) away held
    · have idle : (s.claim (loadMotor ch)).st = .idle :=
        ((fits.channel ch).kept (dwell_brakes fits ch dwells)).resolve_right fun k => held k.2
      rw [if_neg held, if_neg (by simp [State.motorHeld, dwelt_claim, held])]
      obtain ⟨chan, rank, -⟩ := settle_asks (dwelt_ok fits ch) (fits.values.motionDraw ch) idle (s.stopState ch) .retract (s.chan ch).req
      exact ⟨(rests_of_settled chan).1, rank⟩

theorem dwell_protects (protective : (s.chan ch).followOn = .protective) :
    if s.pins.hold = true then
      (s.dwellEnds ch).rests ch (s.stopState ch) .protective ∧ ((s.dwellEnds ch).claim (loadMotor ch)).st = .idle
    else s.pins.er.get ch = false →
      (s.dwellEnds ch).underWay ch (Item.travelMs s.seq.values ch) .retracting .retract
        ∧ ((s.dwellEnds ch).chan ch).protective = true ∧ ((s.dwellEnds ch).claim (loadMotor ch)).rank = 0 := by
  rw [dwellEnds_protective protective, dwelt_stops ch dwells]
  split
  · exact dwelt_frees fits ch _ _ _
  · exact dwelt_homes fits ch

end

end Sys2Proof.Machine
end

