-- ==== Sys2Proof/Proofs/ChannelTimers.lean ====
section
/-! PROOFS. The travel limit, a stall and a calibration (R133, R134, R137). -/

namespace Sys2Proof.Machine

/-! ### The travel limit and a stall (R133, R134) -/

/-- The channel has entered a dwell. -/
def State.brakes (u : State) (ch : Fin 2) (m : Move) : Prop :=
  (u.chan ch).st = .braking ∧ (u.chan ch).bridge = .short ∧ (u.chan ch).followOn = m ∧ (u.chan ch).dwell = some 300
    ∧ (u.chan ch).travel = none ∧ (u.chan ch).stall = none ∧ (u.chan ch).backoff = none

theorem summary_of_status {s t : State} (h : t.status = s.status) (n : Fin 19) :
    t.status.summary.get n = s.status.summary.get n := by rw [h]

theorem stall_not_travel (ch : Fin 2) : Mon.stall ch ≠ Mon.travelFault ch := by decide +revert

section
variable {s : State} {ch : Fin 2} (o : s.Ok)
include o

theorem declared_summary (clear : (s.chan ch).travelFault = false) :
    (s.declareTravelFault ch).status.summary.get (Mon.travelFault ch) = true := by
  unfold State.declareTravelFault
  rw [if_neg (by simp [clear]), monitor_summary, if_pos rfl]

omit o in
theorem declareTravelFault_summary (n : Fin 19) (ne : n ≠ Mon.travelFault ch) :
    (s.declareTravelFault ch).status.summary.get n = s.status.summary.get n := by
  unfold State.declareTravelFault
  split
  · rfl
  · rw [monitor_summary, if_neg (Ne.symm ne)]
    rfl

theorem travelExpires_chan : (s.travelExpires ch).chan ch = { (s.chan ch).braked .settleFault 0 with travelFault := true } := by
  unfold State.travelExpires
  rw [(declareTravelFault_puts _ ch).chan, (brake_puts s ch .settleFault 0 false).chan]

theorem travelExpires_claim : ((s.travelExpires ch).claim (loadMotor ch)).st = .idle := by
  unfold State.travelExpires
  rw [declareTravelFault_claim]
  exact brake_frees o (.inl rfl)

theorem travelExpires_summary (clear : (s.chan ch).travelFault = false) :
    (s.travelExpires ch).status.summary.get (Mon.travelFault ch) = true :=
  declared_summary (brake_hushed s ch .settleFault 0 false o).1 (by rw [(brake_puts s ch .settleFault 0 false).chan]; exact clear)

/-- The state in which the stall is declared (R134). -/
def State.stallDeclared (s : State) (ch : Fin 2) : State :=
  if (s.chan ch).stalled then s else (s.modChan ch fun c => { c with stalled := true }).monitor (Mon.stall ch) true

omit o in
theorem stalls_eq : s.stalls ch = if (s.chan ch).st = .extending then (s.stallDeclared ch).brake ch .backoff 0 true
    else (s.stallDeclared ch).travelExpires ch := by
  unfold State.stalls
  exact if_congr beq_iff_eq rfl rfl

theorem stallDeclared_ok : (s.stallDeclared ch).Ok :=
  (Steady.ite (fun _ => Steady.refl s) (fun _ => (modChan_same s ch _ rfl).trans (monitor_steady _ _ _)) o).1

omit o in
theorem stallDeclared_puts : s.puts ch { s.chan ch with stalled := true } (s.stallDeclared ch) := by
  unfold State.stallDeclared
  split
  · next set =>
    have same : { s.chan ch with stalled := true } = s.chan ch := by rw [← set]
    rw [same]
    exact puts_same s ch
  · exact (puts_self s ch _).still (monitor_motion _ _ _)

omit o in
theorem stallDeclared_claim (id : Fin 7) : (s.stallDeclared ch).claim id = s.claim id := by
  unfold State.stallDeclared
  split
  · rfl
  · rw [monitor_claimOf]
    rfl

omit o in
theorem stallDeclared_summary (clear : (s.chan ch).stalled = false) : (s.stallDeclared ch).status.summary.get (Mon.stall ch) = true := by
  unfold State.stallDeclared
  rw [if_neg (by simp [clear]), monitor_summary, if_pos rfl]

/-- A stall while Extending backs off with the claim kept. -/
theorem stalls_backs (st : (s.chan ch).st = .extending) (held : (s.claim (loadMotor ch)).st = .held) :
    (s.stalls ch).chan ch = { (s.chan ch).braked .backoff 0 with stalled := true }
      ∧ (s.stalls ch).claim (loadMotor ch) = s.claim (loadMotor ch)
      ∧ ((s.chan ch).stalled = false → (s.stalls ch).status.summary.get (Mon.stall ch) = true) := by
  rw [stalls_eq, if_pos st]
  have ok := stallDeclared_ok (ch := ch) o
  have claim := stallDeclared_claim (s := s) (ch := ch) (loadMotor ch)
  refine ⟨?_, ?_, fun clear => ?_⟩
  · rw [(brake_puts _ ch _ _ _).chan, stallDeclared_puts.chan]
    rfl
  · rw [brake_keeps ok rfl rfl (by rw [claim]; exact held), claim]
  · rw [summary_of_status (brake_hushed _ ch .backoff 0 true ok).2]
    exact stallDeclared_summary clear

/-- A stall on the way home is a fault, with both monitors. -/
theorem stalls_faults (st : (s.chan ch).st ≠ .extending) :
    (s.stalls ch).chan ch = { (s.chan ch).braked .settleFault 0 with stalled := true, travelFault := true }
      ∧ ((s.stalls ch).claim (loadMotor ch)).st = .idle
      ∧ ((s.chan ch).stalled = false → (s.stalls ch).status.summary.get (Mon.stall ch) = true)
      ∧ ((s.chan ch).travelFault = false → (s.stalls ch).status.summary.get (Mon.travelFault ch) = true) := by
  rw [stalls_eq, if_neg st]
  have ok := stallDeclared_ok (ch := ch) o
  have chan : (s.stallDeclared ch).chan ch = _ := stallDeclared_puts.chan
  refine ⟨?_, travelExpires_claim ok, fun clear => ?_, fun clear => travelExpires_summary ok (by rw [chan]; exact clear)⟩
  · rw [travelExpires_chan ok, chan]
    rfl
  · unfold State.travelExpires
    rw [declareTravelFault_summary _ (stall_not_travel ch), summary_of_status (brake_hushed _ ch .settleFault 0 false ok).2]
    exact stallDeclared_summary clear

end

/-! ### A calibration (R137) -/

/-- Offset and calibration are as they were. -/
def Chan.tuned (c d : Chan) : Prop := d.offset = c.offset ∧ d.calTimer = c.calTimer ∧ d.calSum = c.calSum

section
variable (s : State) (ch : Fin 2)

theorem begun_tuned {c : Chan} (h : c.tuned (s.chan ch)) : c.tuned ((s.begun ch).chan ch) := by
  have seen : (s.stepSeen ch).chan ch = s.chan ch := chan_of_motion (stepSeen_motion s ch) ch
  cases target : s.atTarget ch with
  | false =>
    rw [begun_still s ch target, seen]
    exact h
  | true =>
    rw [begun_arrives s ch target, (arriveAt_puts _ ch).chan, seen]
    exact h

theorem tryStart_tuned : (s.chan ch).tuned ((s.tryStart ch).chan ch) := by
  have starts : ∀ m, (s.chan ch).tuned ((s.startMove ch m).chan ch) := fun m => by
    rw [startMove_eq]
    exact begun_tuned _ ch (by rw [(moveBegins_puts s ch m).chan]; exact ⟨rfl, rfl, rfl⟩)
  have frees : (s.chan ch).tuned ((s.release (loadMotor ch)).chan ch) := by
    rw [chan_of_motion (release_shared _ _).motion]
    exact ⟨rfl, rfl, rfl⟩
  have ends : ∀ o, (s.chan ch).tuned ((s.endPending ch o).chan ch) := fun o => by
    unfold State.endPending
    dsimp only
    rw [chan_of_motion (reviseOutcome_shared _ _ _).motion, chan_of_motion (release_shared _ _).motion, State.dropPending,
      State.modChan, chan_setChan_self]
    exact ⟨rfl, rfl, rfl⟩
  unfold State.tryStart
  dsimp only
  split
  · exact ⟨rfl, rfl, rfl⟩
  · split
    · split
      · exact starts _
      · exact ends _
    · split
      · exact frees
      · exact starts _
    · split
      · exact frees
      · exact starts _
    · exact ⟨rfl, rfl, rfl⟩

theorem actOnPending_tuned : (s.chan ch).tuned ((s.actOnPending ch).chan ch) := by
  have protects : (s.chan ch).tuned (((s.claimProtective ch).tryStart ch).chan ch) := by
    have h := tryStart_tuned (s.claimProtective ch) ch
    rw [chan_of_motion (claimProtective_motion s ch)] at h
    exact h
  have requests : (s.chan ch).tuned (((s.claimRequested ch).tryStart ch).chan ch) := by
    have h := tryStart_tuned (s.claimRequested ch) ch
    rw [chan_of_motion (claimRequested_motion ch s)] at h
    exact h
  unfold State.actOnPending
  dsimp only
  split
  · exact ⟨rfl, rfl, rfl⟩
  · split
    · split
      · exact ⟨rfl, rfl, rfl⟩
      · exact protects
    · split
      · exact ⟨rfl, rfl, rfl⟩
      · exact requests
    · exact requests
    · exact ⟨rfl, rfl, rfl⟩

end

end Sys2Proof.Machine
end

