-- ==== Sys2Proof/Proofs/MotionTimer.lean ====
section
/-! PROOFS. The timers of a channel, settled (R131 to R137). -/

namespace Sys2Proof.Machine

section
variable {s : State} (fits : s.Fits) (ch : Fin 2)
include fits

/-- A command that acts on channel `ch` from the state as it stands. -/
theorem channel_ends {u : State} (steady : Steady s u) (moved : Moved s u) (only : Only ch s u)
    (tends : Tends (motionReach ch) s.status.serial s u) :
    s.framed s ch (State.publish s u) ∧ u.handedOver (State.publish s u) :=
  (start_refl fits).ends fits s steady moved only.other tends

theorem dwell_ends (runs : s.motionRuns = true) :
    s.framed s ch (State.publish s (s.dwellEnds ch)) ∧ (s.dwellEnds ch).handedOver (State.publish s (s.dwellEnds ch)) :=
  have _ := motionReach_own ch
  have _ := motionReach_lit ch
  channel_ends fits ch (dwellEnds_steady s ch runs) (dwellEnds_moved s ch) (dwellEnds_only s ch)
    (dwellEnds_tends (motionReach_travel ch) (motionReach_stall ch) s)

theorem travel_ends :
    s.framed s ch (State.publish s (s.travelExpires ch)) ∧ (s.travelExpires ch).handedOver (State.publish s (s.travelExpires ch)) :=
  have _ := motionReach_own ch
  have _ := motionReach_lit ch
  channel_ends fits ch (travelExpires_steady s ch) ((brake_moved s ch _ _ _).trans (declareTravelFault_moved _ _)) (travelExpires_only s ch)
    (travelExpires_tends (motionReach_travel ch) s)

theorem stall_ends :
    s.framed s ch (State.publish s (s.stalls ch)) ∧ (s.stalls ch).handedOver (State.publish s (s.stalls ch)) :=
  have _ := motionReach_own ch
  have _ := motionReach_lit ch
  channel_ends fits ch (stalls_steady s ch) (stalls_moved s ch) (stalls_only s ch)
    (stalls_tends (motionReach_travel ch) (motionReach_stall ch) s)

theorem backoff_ends :
    s.framed s ch (State.publish s (s.backoffEnds ch)) ∧ (s.backoffEnds ch).handedOver (State.publish s (s.backoffEnds ch)) :=
  have _ := motionReach_own ch
  have _ := motionReach_lit ch
  channel_ends fits ch (backoffEnds_steady s ch) (brake_moved s ch _ _ _) (brake_only s ch _ _ _) (backoffEnds_tends s ch)

end

theorem backoffEnds_eq (s : State) (ch : Fin 2) : s.backoffEnds ch
    = s.brake ch (if (s.chan ch).pending = .extend then .extend else .none) (if (s.chan ch).pending = .extend then (s.chan ch).req else 0) false := by
  have follow : ∀ {α : Type} (a b : α), (if ((s.chan ch).pending == .extend) = true then a else b)
      = if (s.chan ch).pending = .extend then a else b := fun _ _ => if_congr beq_iff_eq rfl rfl
  unfold State.backoffEnds
  dsimp only
  rw [follow, follow]

/-! ### The end of a calibration -/

/-- The state in which a calibration is over, before the channel acts on its pending move. -/
def State.tunes (s : State) (ch : Fin 2) : State :=
  s.setChan ch { s.chan ch with
    calTimer := none, calSum := 0, offset := (s.chan ch).calMean (s.pins.motor.get ch)
    idle := if (s.chan ch).atRest && (s.chan ch).pending == .none then some Config.idleMs else (s.chan ch).idle }

theorem calibrated_eq (s : State) (ch : Fin 2) : s.calibrated ch = (s.tunes ch).actOnPending ch := rfl

section
variable {s : State} (fits : s.Fits) (ch : Fin 2) (x : Nat) (cal : (s.chan ch).calTimer.isSome = true)
include fits cal

/-- The end of a calibration (R137). -/
theorem calibration_ends :
    let c := s.chan ch
    let u := s.setPins { s.pins with motor := s.pins.motor.set ch x }
    let t := State.publish s (u.calibrated ch)
    let mean := (c.calSum + c.calTimer.getD 0 * x) / 50
    s.framed u ch t ∧ ((t.chan ch).offset = mean ∧ (t.chan ch).calTimer = none ∧ (t.chan ch).calSum = 0)
      ∧ (c.pending = .none →
          (u.setChan ch { c with calTimer := none, calSum := 0, offset := mean, idle := some 600000 }).handedOver t)
      ∧ (c.pending = .extend ∨ c.pending = .retract → (s.claim (loadMotor ch)).st = .idle →
          s.pins.hold = false ∨ c.pending = .extend → (t.claim (loadMotor ch)).rank = 3 ∧ (t.chan ch).pending = c.pending)
      ∧ (c.pending = .protective → s.motionRuns = true → s.pins.hold = false → s.pins.er.get ch = false →
          t.underWay ch (Item.travelMs s.seq.values ch) .retracting .retract ∧ (t.chan ch).protective = true
            ∧ (t.claim (loadMotor ch)).rank = 0) := by
  have own := motionReach_own ch
  have lit := motionReach_lit ch
  have start := start_pins fits { s.pins with motor := s.pins.motor.set ch x }
  have quiet : ∀ y : State, y.view = s.view → y.handedOver (State.publish s y) := fun y h =>
    publish_handedOver s y (by rw [h]; exact fits.sound.quiet.1)
  have pins : ((s.setPins { s.pins with motor := s.pins.motor.set ch x }).pins.hold = s.pins.hold)
      ∧ (s.setPins { s.pins with motor := s.pins.motor.set ch x }).pins.er = s.pins.er := ⟨rfl, rfl⟩
  have motor : (s.setPins { s.pins with motor := s.pins.motor.set ch x }).pins.motor.get ch = x := by
    show (s.pins.motor.set ch x).get ch = x
    rw [Tab.get_set, if_pos rfl]
  dsimp only
  generalize s.setPins { s.pins with motor := s.pins.motor.set ch x } = u at *
  have rest := ((fits.channel ch).calibrates cal).1
  obtain ⟨framed, handed⟩ := start.ends fits s (calibrated_steady u ch) ((modChan_moved u ch _).trans (actOnPending_moved _ ch))
    (calibrated_only u ch).other (calibrated_tends (motionReach_travel ch) (motionReach_stall ch) u)
  rw [calibrated_eq] at *
  have chanW : (u.tunes ch).chan ch = { s.chan ch with
      calTimer := none, calSum := 0, offset := ((s.chan ch).calSum + (s.chan ch).calTimer.getD 0 * x) / 50
      idle := if (s.chan ch).atRest && (s.chan ch).pending == .none then some Config.idleMs else (s.chan ch).idle } := by
    rw [State.tunes, chan_setChan_self, start.chan, motor]
    rfl
  have tunes : (u.tunes ch) = u.setChan ch ((u.tunes ch).chan ch) := by
    rw [State.tunes, chan_setChan_self]
  have claimW : (u.tunes ch).claim (loadMotor ch) = s.claim (loadMotor ch) := start.claim (loadMotor ch)
  have okW : (u.tunes ch).Ok := setChan_ok start.sane.ok ch _
  have seqW : (u.tunes ch).seq = s.seq := start.seq
  have pinsW : (u.tunes ch).pins.hold = s.pins.hold ∧ (u.tunes ch).pins.er = s.pins.er := pins
  have viewW : (u.tunes ch).view = s.view := start.view
  generalize u.tunes ch = w at *
  have draw : 1 ≤ Item.motionDraw w.seq.values ch ∧ Item.motionDraw w.seq.values ch ≤ 30000 := by
    rw [seqW]
    exact fits.values.motionDraw ch
  have tuned := actOnPending_tuned w ch
  rw [chanW] at tuned
  rw [handed.chan]
  refine ⟨framed, tuned, fun empty => ?_, fun moves idle free => ?_, fun protects runs free away => ?_⟩
  · have acted := actOnPending_none (s := w) (ch := ch) (by rw [chanW]; exact empty)
    have idles : ((s.chan ch).atRest && (s.chan ch).pending == .none) = true := by rw [rest, empty]; rfl
    rw [if_pos idles] at chanW
    have put : w = u.setChan ch { s.chan ch with
        calTimer := none, calSum := 0, offset := ((s.chan ch).calSum + (s.chan ch).calTimer.getD 0 * x) / 50, idle := some 600000 } := by
      rw [tunes, chanW]
      rfl
    rw [acted, ← put]
    exact quiet w viewW
  · have acted := actOnPending_asks okW draw (by rw [chanW]; exact rest) (by rw [chanW])
      (by
        rw [chanW, pinsW.1]
        rcases moves with m | m
        · exact .inl m
        · exact .inr ⟨m, free.resolve_right (by rw [m]; nofun)⟩)
      (by rw [claimW, idle]; nofun)
    have asks := claimRequested_claim ch okW draw (by rw [claimW]; exact idle)
    rw [handed.claim, acted, chan_of_motion (claimRequested_motion ch w), chanW]
    exact ⟨asks.1, rfl⟩
  · have unforced : (w.claim (loadMotor ch)).st ≠ .forced := by rw [claimW]; exact fits.motor_unforced ch
    have acted := actOnPending_homes okW draw unforced ((motionRuns_of_seq seqW).trans runs) (by rw [chanW]; exact rest)
      (by rw [chanW]) (by rw [chanW]; exact protects) (by rw [pinsW.1]; exact free)
    obtain ⟨⟨stall, puts⟩, held, zero, -⟩ := startsHome_homing okW draw unforced (by rw [pinsW.2]; exact away)
    obtain ⟨way, protective⟩ := underWay_of_started puts.chan held
    rw [← acted] at way protective zero
    rw [seqW] at way
    unfold State.underWay at *
    rw [handed.chan, handed.claim]
    exact ⟨way, protective, zero⟩

end

/-! ### The sensed current (R134) -/

theorem currentFollows_eq (s : State) (ch : Fin 2) (x : Nat) :
    let u := s.setPins { s.pins with motor := s.pins.motor.set ch x }
    u.currentFollows ch = if (s.chan ch).moving = true then
        u.setChan ch { s.chan ch with
          stall := if Item.stallThreshold s.seq.values ch < x - (s.chan ch).offset then some ((s.chan ch).stall.getD 200) else none }
      else u := by
  have exceeds : (s.setPins { s.pins with motor := s.pins.motor.set ch x }).overCurrent ch
      = decide (Item.stallThreshold s.seq.values ch < x - (s.chan ch).offset) := by
    show decide (Item.stallThreshold s.seq.values ch < (s.pins.motor.set ch x).get ch - (s.chan ch).offset) = _
    rw [Tab.get_set, if_pos rfl]
  dsimp only
  unfold State.currentFollows State.modChan
  rw [exceeds]
  have same : (s.setPins { s.pins with motor := s.pins.motor.set ch x }).chan ch = s.chan ch := rfl
  rw [same]
  dsimp only
  rw [if_congr (decide_eq_true_iff (p := Item.stallThreshold s.seq.values ch < x - (s.chan ch).offset)) rfl rfl]
  rfl

end Sys2Proof.Machine

namespace Sys2Proof.Proofs
open Sys2Proof.Machine

/-- Settles O56. -/
theorem motionTimers : Obligations.MotionTimers := by
  unfold Obligations.MotionTimers
  intro s ch fits
  have quiet := fits.sound.quiet.1
  have order := fits.channel ch
  dsimp only
  refine ⟨fun dwells runs => ?_, fun travels => ?_, fun stalls => ?_, fun backs => ?_, fun idles => ?_, fun x cal => ?_, fun x => ?_⟩
  · obtain ⟨framed, handed⟩ := dwell_ends fits ch runs
    have arm : exec (.dwellTimerExpiry ch) s = .next (State.publish s (s.dwellEnds ch)) := by
      show done s _ = _
      rw [if_pos ⟨runs, dwells⟩]
      rfl
    refine ⟨_, arm, framed, ?_⟩
    rw [handed.chan, handed.claim]
    exact ⟨dwell_settles fits ch dwells, dwell_faults fits ch dwells, dwell_backs fits ch dwells, dwell_extends fits ch dwells,
      dwell_retracts fits ch dwells, dwell_protects fits ch dwells⟩
  · obtain ⟨framed, handed⟩ := travel_ends fits ch
    have arm : exec (.travelTimerExpiry ch) s = .next (State.publish s (s.travelExpires ch)) := by
      show done s _ = _
      rw [if_pos travels]
      rfl
    refine ⟨_, arm, framed, ?_⟩
    rw [handed.chan, handed.claim, handed.status, travelExpires_chan fits.sound.ok]
    exact ⟨⟨rfl, rfl, rfl, rfl, rfl, rfl, rfl⟩, rfl, travelExpires_claim fits.sound.ok, rfl, travelExpires_summary fits.sound.ok⟩
  · obtain ⟨framed, handed⟩ := stall_ends fits ch
    have arm : exec (.stallTimerExpiry ch) s = .next (State.publish s (s.stalls ch)) := by
      show done s _ = _
      rw [if_pos stalls]
      rfl
    refine ⟨_, arm, framed, ?_⟩
    rw [handed.chan, handed.claim, handed.status]
    by_cases st : (s.chan ch).st = .extending
    · obtain ⟨chan, claim, shown⟩ := stalls_backs fits.sound.ok st (order.held (.inl (order.stall stalls)))
      rw [if_pos st, chan]
      exact ⟨rfl, shown, ⟨rfl, rfl, rfl, rfl, rfl, rfl, rfl⟩, claim, rfl⟩
    · obtain ⟨chan, claim, shown, travel⟩ := stalls_faults fits.sound.ok st
      rw [if_neg st, chan]
      exact ⟨rfl, shown, ⟨rfl, rfl, rfl, rfl, rfl, rfl, rfl⟩, claim, rfl, travel⟩
  · obtain ⟨framed, handed⟩ := backoff_ends fits ch
    have arm : exec (.backoffTimerExpiry ch) s = .next (State.publish s (s.backoffEnds ch)) := by
      show done s _ = _
      rw [if_pos backs]
      rfl
    refine ⟨_, arm, framed, ?_⟩
    rw [handed.chan, handed.claim]
    rw [backoffEnds_eq, (brake_puts s ch _ _ _).chan]
    exact ⟨⟨rfl, rfl, rfl, rfl, rfl, rfl, rfl⟩, brake_frees fits.sound.ok (.inl rfl), rfl, rfl⟩
  · have arm : exec (.idleTimerExpiry ch) s = .next (State.publish s (s.calibrationBegins ch)) := by
      show done s _ = _
      rw [if_pos idles]
      rfl
    exact ⟨_, arm, publish_handedOver s (s.calibrationBegins ch) quiet⟩
  · have arm : exec (.calibrationEnd ch x) s
        = .next (State.publish s ((s.setPins { s.pins with motor := s.pins.motor.set ch x }).calibrated ch)) := by
      show done s _ = _
      rw [if_pos (show (s.chan ch).calibrating = true from cal)]
      rfl
    obtain ⟨framed, ⟨offset, timer, sum⟩, rests, asks, homes⟩ := calibration_ends fits ch x cal
    exact ⟨_, arm, framed, offset, timer, sum, rests, asks, homes⟩
  · refine ⟨State.publish s ((s.setPins { s.pins with motor := s.pins.motor.set ch x }).currentFollows ch), rfl, ?_⟩
    have handed := publish_handedOver s ((s.setPins { s.pins with motor := s.pins.motor.set ch x }).currentFollows ch)
      (by rw [currentFollows_eq]; split <;> exact quiet)
    rw [currentFollows_eq] at handed ⊢
    exact handed

end Sys2Proof.Proofs
end

