-- ==== Sys2Proof/Proofs/StopsRetest.lean ====
section
/-! PROOFS. A stop's change that re-tests a Waiting claim (R45, R126, R159). -/

namespace Sys2Proof.Proofs
open Sys2Proof.Machine Sys2Proof.Tests

/-- The step stands Midway with a Retract pending, its claim Waiting for 800 counts; a SUPPLY offers 850, and the courtesy
channel, on its way from 1000 to 0, stands at 600 on a claim Held for 100. -/
def dimming : State :=
  let values := run.seq.values.set 47 0
  let s := (offering run 850).setSeq { run.seq with values := values }
  let s := waitingAt (pends (resting (s.setCell { s.cell with values := values }) 0 .midway) 0 .retract) 3 3 800
  (holding s 5 6 100).setLight 0 ⟨600, 0, 1000, 320, true, some 20, 360⟩

theorem dimming_fits : dimming.Fits := fits_of (by decide +kernel)

/-- With the extended stop active the step is Extended, the courtesy light's target becomes the 600 where it stands, its
group's claim comes down to 36, and the re-test that follows passes: the motor's claim is in Contest. -/
theorem dimming_contests :
    (dimming.claim (loadMotor 0)).st = .waiting
      ∧ ((after (.endStopChange 0 .extended true) dimming).claim (loadMotor 0)).st = .contest := by decide +kernel

/-- Refutes O57: a stop's change at rest does not leave the channel's claim as it was where that claim is Waiting. The
change of the step's state begins the courtesy (R159), which can lower a light group's claim (R151), and the Broker then
tests the Waiting claims again (R45). -/
theorem not_motionEvents : ¬ Obligations.MotionEvents := by
  intro h
  obtain ⟨stops, -⟩ := h dimming 0 dimming_fits
  obtain ⟨t, next, -, -, -, rest, -⟩ := stops true .extended
  obtain ⟨-, claim⟩ := rest (by decide +kernel) (by decide +kernel) (by decide +kernel) (.inl (by decide +kernel))
  have left : after (.endStopChange 0 .extended true) dimming = t := by
    unfold after
    rw [next]
  obtain ⟨waits, contests⟩ := dimming_contests
  rw [left, claim, waits] at contests
  cases contests

end Sys2Proof.Proofs
end

