-- ==== Sys2Proof/Proofs/CourtesySources.lean ====
section
/-! PROOFS. An entry of station 0 and the courtesy call (R159). -/

namespace Sys2Proof.Proofs
open Sys2Proof.Machine Sys2Proof.Tests

/-- The step brakes at its retracted stop with nothing to follow, the courtesy light is on for it, and an entry whose station
field is 0 shows a step Extending: a state in order bounds no entry's station from below. -/
def haunted : State :=
  let values := run.seq.values.set 47 0
  let s := (run.setSeq { run.seq with values := values }).setCell { run.cell with values := values }
  let s := braking (knows s 0 ⟨0, .motion ⟨4, 0, 0, false, false, false, false, false⟩⟩) 0 .none
  let s := s.setPins { s.pins with er := s.pins.er.set 0 true }
  s.setLights { s.lights with courtesy := true, call := true, source := 0 }

theorem haunted_fits : haunted.Fits := fits_of (by decide +kernel)

/-- No entry of a station other than 0 shows the step out. -/
theorem haunted_alone : ∀ e ∈ haunted.entries, e.station = 0 := by decide +kernel

/-- The step settles Retracted, and the courtesy call stays set, for the entry shows a step out. -/
theorem haunted_calls : (after (.dwellTimerExpiry 0) haunted).lights.call = true := by decide +kernel

/-- Refutes O60: in its last clause "no peer shows the step out" leaves out station 0, and an entry of that station, which a
state in order may hold, keeps the courtesy call set when the own step settles Retracted (R159). -/
theorem not_scenesAndCourtesy : ¬ Obligations.ScenesAndCourtesy := by
  intro h
  obtain ⟨-, -, -, courtesy⟩ := h haunted 0 0 haunted_fits
  obtain ⟨-, -, -, settles⟩ := courtesy 0 (by decide +kernel) (by decide +kernel) (by decide +kernel)
  have alone : ∀ c, ¬ ∃ e ∈ haunted.entries, e.station ≠ 0 ∧ e.stepCode? = some c := by
    rintro c ⟨e, member, other, -⟩
    exact other (haunted_alone e member)
  obtain ⟨t, next, ⟨call, -⟩, -⟩ := settles (by decide +kernel) (by decide +kernel) (by decide +kernel) (by decide +kernel)
    (by decide +kernel) (by decide +kernel) (by decide +kernel) (by decide +kernel) (alone 4) (alone 2)
  have left : after (.dwellTimerExpiry 0) haunted = t := by
    unfold after
    rw [next]
  have calls := haunted_calls
  rw [left, call] at calls
  cases calls

end Sys2Proof.Proofs
end

