-- ==== Sys2Proof/Proofs/FadeStep.lean ====
section
/-! PROOFS. A fade step and what it leaves of the group's claim (R149 to R151). -/

namespace Sys2Proof.Machine

/-! ### A fade step (R149 to R151) -/

section
variable (fade : Nat) (l : Light)

theorem fadeStep_target : (l.fadeStep fade).target = l.target := by
  unfold Light.fadeStep
  dsimp only
  split <;> rfl

theorem fadeStep_duty : (l.fadeStep fade).duty = (l.fadeStep fade).level * (l.fadeStep fade).level / 1000 := by
  unfold Light.fadeStep
  dsimp only
  split <;> rfl

variable {fade l}

theorem fadeStep_ends (h : fade ≤ l.elapsed + 20) :
    (l.fadeStep fade).level = l.target ∧ (l.fadeStep fade).fading = false ∧ (l.fadeStep fade).stepTimer = none := by
  unfold Light.fadeStep
  dsimp only
  rw [if_neg (show ¬ l.elapsed + Config.fadeStepMs < fade from Nat.not_lt.mpr h)]
  exact ⟨rfl, rfl, rfl⟩

/-- The part of the way that has elapsed does not lead below 0. -/
theorem fade_nonneg (start target : Nat) {e : Nat} (h : e < fade) :
    0 ≤ (start : Int) + (((target : Int) - start) * e).tdiv fade := by
  have pos : (0 : Int) < fade := by omega
  have low : -(start : Int) * fade ≤ ((target : Int) - start) * e := by
    have one : (0 : Int) ≤ (target : Int) * e := by positivity
    have two : (start : Int) * e ≤ start * fade := by gcongr
    linarith [sub_mul (target : Int) start e]
  have quotient : -(start : Int) ≤ (((target : Int) - start) * e).tdiv fade := by
    have mono := Int.tdiv_le_tdiv pos low
    rwa [Int.mul_tdiv_cancel _ (ne_of_gt pos)] at mono
  omega

theorem fadeStep_goes (h : l.elapsed + 20 < fade) :
    ((l.fadeStep fade).level : Int) = l.start + (((l.target : Int) - l.start) * ((l.elapsed + 20 : Nat) : Int)).tdiv fade
      ∧ (l.fadeStep fade).elapsed = l.elapsed + 20 ∧ (l.fadeStep fade).fading = l.fading ∧ (l.fadeStep fade).stepTimer = some 20 := by
  unfold Light.fadeStep
  dsimp only
  rw [if_pos (show l.elapsed + Config.fadeStepMs < fade from h)]
  exact ⟨Int.toNat_of_nonneg (fade_nonneg l.start l.target h), rfl, rfl, rfl⟩

end

theorem targetAmount_eq (s : State) (g : Fin 2) : s.targetAmount g = (fin4.map fun k => let x := s.light (groupChan g k)
    if x.target = 0 then 0 else max 1 (Item.lightDraw s.seq.values (groupChan g k) * (x.target * x.target / 1000) / 1000)).sum := rfl

theorem settled_iff (s : State) (g : Fin 2) :
    s.settled g = true ↔ (∀ k, (s.light (groupChan g k)).fading = false) ∧ (s.group g).pending = none := by
  unfold State.settled
  rw [Bool.and_eq_true, List.all_eq_true, Option.isNone_iff_eq_none]
  refine and_congr_left fun _ => ⟨fun h k => by simpa using h k (by decide +revert), fun h k _ => by simp [h k]⟩

/-- A settled group's Held claim comes down to the target amount, or is released (R151). -/
theorem Claim.amended_held {c : Claim} (held : c.st = .held) (target : Nat) :
    (target = 0 → (c.amended true target).st = .idle)
      ∧ (0 < target → (c.amended true target).st = .held ∧ (c.amended true target).held = min target c.held) := by
  unfold Claim.amended
  rw [if_pos ⟨rfl, held⟩]
  refine ⟨fun none => by rw [if_pos none]; rfl, fun some => ?_⟩
  rw [if_neg (by omega)]
  split
  · next less => exact ⟨held, (min_eq_left less.le).symm⟩
  · next more => exact ⟨held, (min_eq_right (not_lt.mp more)).symm⟩

theorem Claim.amended_stands {c : Claim} {settled : Bool} {target : Nat} (h : settled = false ∨ c.st ≠ .held) :
    c.amended settled target = c :=
  if_neg fun k => h.elim (fun e => by rw [e] at k; cases k.1) fun e => e k.2

end Sys2Proof.Machine
end

