-- ==== Sys2Proof/Proofs/FadeSteps.lean ====
section
/-! PROOFS. FADE_STEP, settled (R149 to R151). -/

namespace Sys2Proof.Machine

/-- What the Light Controller leaves of the other loads' claims. -/
theorem Tends.low {n : Nat} {s t : State} (h : Tends lightsReach n s t) (o : s.Ok) (within : s.waitWithin n) (id : Fin 7)
    (low : id.val < 5) : (s.claim id).stirs (t.claim id) := by
  obtain ⟨-, -, tended⟩ := h o within
  exact tended.claims id (show ¬ 5 ≤ id.val by omega)

/-- A command of the Light Controller ends: what it publishes, and what it leaves of the other loads' claims. -/
theorem State.Start.lights_end {s v u : State} (start : s.Start v) (fits : s.Fits) (was : State) (calm : Calm v u) (lit : Lit v u)
    (stirs : ∀ id : Fin 7, id.val < 5 → (v.claim id).stirs (u.claim id)) :
    Lit v (State.publish was u) ∧ (State.publish was u).view = s.view
      ∧ (∀ id : Fin 7, id.val < 5 → (s.claim id).st ≠ .waiting → (State.publish was u).claim id = s.claim id)
      ∧ Posted u (State.publish was u) := by
  obtain ⟨posted, view⟩ := calm_posted was fits.sound start.sane start.view start.seq start.motion calm
  refine ⟨lit.trans posted.shared.lit, view, fun id low not => ?_, posted⟩
  rw [posted.claim, Claim.stirs_same (stirs id low) (by rw [start.claim]; exact not), start.claim]

theorem Posted.light {u t : State} (h : Posted u t) (ch : Fin 8) : t.light ch = u.light ch := light_congr (by rw [h.lights]) ch

theorem Posted.group {u t : State} (h : Posted u t) (g : Fin 2) : t.group g = u.group g := by
  rw [State.group, h.lights]
  rfl

/-- A group with nothing pending has no contest. -/
theorem State.Fits.settledClaim {s : State} (fits : s.Fits) {g : Fin 2} (none : (s.group g).pending = none) :
    (s.claim (loadLights g)).contesting = false := by
  obtain ⟨-, -, groups, -⟩ := fits.lights
  obtain ⟨-, contests, -⟩ := groups g
  cases c : (s.claim (loadLights g)).contesting with
  | false => rfl
  | true =>
    have waits := (contests c).1
    rw [none] at waits
    cases waits

end Sys2Proof.Machine

namespace Sys2Proof.Proofs
open Sys2Proof.Machine

/-- Settles O58. -/
theorem fadeSteps : Obligations.FadeSteps := by
  unfold Obligations.FadeSteps
  intro s ch fits
  dsimp only
  intro running
  have arm : exec (.fadeStep ch) s = .next (State.publish s (s.fadeStepped ch)) := by
    show done s _ = _
    rw [if_pos running]
    rfl
  have lit := lightsReach_lit
  have stepped : Lit s (s.fadeStepped ch) := (setLight_lit s ch _).trans (amend_shared _ _).lit
  obtain ⟨lit, view, claims, posted⟩ := (start_refl fits).lights_end fits s (fadeStepped_calm s ch) stepped
    ((fadeStepped_tends s ch).low fits.sound.ok ((start_refl fits).within fits.requests))
  refine ⟨_, arm, ?_⟩
  generalize State.publish s (s.fadeStepped ch) = t at *
  have fading : (s.light ch).fading = true := by
    obtain ⟨-, lights, -⟩ := fits.lights
    obtain ⟨-, -, -, -, -, timer, -⟩ := lights ch
    exact timer.mp running
  generalize hu : s.setLight ch ((s.light ch).fadeStep (Item.fadeMs s.seq.values)) = u
  have ok : u.Ok := (hu ▸ setLight_calm s ch _ fits.sound.ok).1
  have amended : s.fadeStepped ch = u.amend (groupOf ch) := by rw [← hu]; rfl
  have lightU : ∀ o, u.light o = if ch = o then (s.light ch).fadeStep (Item.fadeMs s.seq.values) else s.light o := fun o => by
    rw [← hu]
    exact light_setLight s ch o _
  have groupU : u.group (groupOf ch) = s.group (groupOf ch) := by rw [← hu]; rfl
  have claimU : u.claim (loadLights (groupOf ch)) = s.claim (loadLights (groupOf ch)) := by rw [← hu]; rfl
  have seqU : u.seq = s.seq := by rw [← hu]; rfl
  have light : ∀ o, t.light o = u.light o := fun o => by
    rw [posted.light, amended]
    exact light_congr (by rw [(amend_asks u (groupOf ch) ok).2.lights]) o
  have claim : t.claim (loadLights (groupOf ch))
      = (s.claim (loadLights (groupOf ch))).amended (u.settled (groupOf ch)) (u.targetAmount (groupOf ch)) := by
    rw [posted.claim, amended, amend_claim ok, claimU]
  have settled : u.settled (groupOf ch) = true
      ↔ (∀ k, (t.light (groupChan (groupOf ch) k)).fading = false) ∧ (s.group (groupOf ch)).pending = none := by
    rw [settled_iff, groupU]
    simp only [light]
  have own : t.light ch = (s.light ch).fadeStep (Item.fadeMs s.seq.values) := by rw [light, lightU, if_pos rfl]
  refine ⟨lit, view, fun o ne => ?_, ?_, ?_, claims, fun less => ?_, fun whole => ?_, fun goes => ?_, fun done held => ?_⟩
  · rw [light, lightU, if_neg (Ne.symm ne)]
  · rw [own, fadeStep_target]
  · rw [own, fadeStep_duty]
  · obtain ⟨level, elapsed, still, timer⟩ := fadeStep_goes (l := s.light ch) less
    rw [own]
    exact ⟨level, elapsed, still.trans fading, timer⟩
  · rw [own]
    exact fadeStep_ends whole
  · rw [claim, Claim.amended_stands (.inl (by simpa using fun k => goes (settled.mp k)))]
  · have amount : u.targetAmount (groupOf ch) = (fin4.map fun k => let x := t.light (groupChan (groupOf ch) k)
        if x.target = 0 then 0
        else max 1 (Item.lightDraw s.seq.values (groupChan (groupOf ch) k) * (x.target * x.target / 1000) / 1000)).sum := by
      rw [targetAmount_eq, seqU]
      simp only [light]
    rw [claim, settled.mpr done, amount]
    exact Claim.amended_held held _

end Sys2Proof.Proofs
end

