-- ==== Sys2Proof/Proofs/LightRequests.lean ====
section
/-! PROOFS. A request to the lights is abandoned, and the Broker in states that look alike to it (R154). -/

namespace Sys2Proof.Machine

/-! ### The Broker in two states that look alike to it -/

/-- All that the Broker's operations look at is the same. -/
structure Alike (s t : State) : Prop where
  checked : s.view.checked
  broker : t.broker = s.broker
  view : t.view = s.view
  seq : t.seq = s.seq
  supply : t.supply = s.supply
  fault : t.bus.lineFault = s.bus.lineFault

section
variable {s t : State} (h : Alike s t)
include h

theorem Alike.claim (id : Fin 7) : t.claim id = s.claim id := by
  rw [State.claim, h.broker]
  rfl

theorem Alike.passes (id : Fin 7) (rank a : Nat) : t.passes id rank a = s.passes id rank a :=
  passes_congr h.broker h.view h.seq h.supply h.fault id rank a

theorem Alike.weighs (id : Fin 7) : Weighs id s t :=
  ⟨h.seq, h.view, h.supply, by rw [h.broker], h.fault, fun j _ => h.claim j⟩

theorem Alike.setClaim (id : Fin 7) (c : Claim) : Alike (s.setClaim id c) (t.setClaim id c) where
  checked := h.checked
  broker := by
    unfold State.setClaim
    rw [h.broker] <;> rfl
  view := h.view
  seq := h.seq
  supply := h.supply
  fault := h.fault

theorem Alike.setLights (x y : Lights) : Alike (s.setLights x) (t.setLights y) :=
  ⟨h.checked, h.broker, h.view, h.seq, h.supply, h.fault⟩

theorem Alike.putClaim (id : Fin 7) (c : Claim) : Alike (s.putClaim id c) (t.putClaim id c) where
  checked := h.checked
  broker := (h.setClaim id c).broker
  view := h.view
  seq := h.seq
  supply := h.supply
  fault := by
    have one := (handDraw_asked (fun _ => False) (s.setClaim id c) id).lineFault
    have two := (handDraw_asked (fun _ => False) (t.setClaim id c) id).lineFault
    exact two.trans (h.fault.trans one.symm)

theorem Alike.startContest (id : Fin 7) (c : Claim) : Alike (s.startContest id c) (t.startContest id c) := by
  unfold State.startContest
  dsimp only
  rw [h.broker]
  have next : Alike (s.setBroker { s.broker with nextSerial := s.broker.nextSerial + 1 })
      (t.setBroker { s.broker with nextSerial := s.broker.nextSerial + 1 }) :=
    ⟨h.checked, rfl, h.view, h.seq, h.supply, h.fault⟩
  exact next.putClaim id _

theorem Alike.testWaiting (id : Fin 7) : Alike (s.testWaiting id) (t.testWaiting id) := by
  have checked : t.view.checked := by rw [h.view]; exact h.checked
  unfold State.testWaiting
  dsimp only
  rw [brokerReads_checked h.checked, brokerReads_checked checked, h.claim, h.passes]
  split
  · exact h.startContest id _
  · exact h.setClaim id _

theorem Alike.retest : Alike s.retest t.retest := by
  unfold State.retest
  have order : t.retestOrder = s.retestOrder := by
    unfold State.retestOrder
    simp only [h.claim]
  rw [order]
  clear order
  generalize s.retestOrder = l
  induction l generalizing s t with
  | nil => exact h
  | cons id l ih =>
    refine ih ?_
    dsimp only
    rw [h.claim]
    split
    · exact h.testWaiting id
    · exact h

theorem Alike.release (id : Fin 7) : Alike (s.release id) (t.release id) := by
  unfold State.release
  rw [h.claim]
  cases (s.claim id).st with
  | idle => exact h
  | waiting => exact (h.setClaim id _).retest
  | contest => exact (h.putClaim id _).retest
  | held => exact (h.putClaim id _).retest
  | forced => exact (h.putClaim id _).retest

theorem Alike.lower (id : Fin 7) (a : Nat) : Alike (s.lower id a).1 (t.lower id a).1 := by
  unfold State.lower
  rw [h.claim]
  dsimp only
  split
  · exact h
  · split
    · exact h.release id
    · exact (h.putClaim id _).retest

end

/-! ### A request is abandoned (R154) -/

theorem raise_low {s : State} {id : Fin 7} {a : Nat} (held : (s.claim id).st = .held) (le : min a 30000 ≤ (s.claim id).held) :
    s.raise id a = s.lower id (min a 30000) := by
  unfold State.raise
  dsimp only
  rw [if_neg (by simp [held]), if_pos (show min a Config.maxAmount ≤ _ from le)]
  rfl

theorem Alike.withdrawAsk {s t : State} (h : Alike s t) (g : Fin 2) : Alike (s.withdrawAsk g) (t.withdrawAsk g) := by
  unfold State.withdrawAsk State.groupHeld
  rw [h.claim]
  split
  · next held =>
    rw [raise_low held (by omega), raise_low (by rw [h.claim]; exact held) (by rw [h.claim]; omega)]
    exact h.lower _ _
  · exact h.release _
  · exact h

theorem Alike.abandonRequest {s t : State} (h : Alike s t) {g : Fin 2} (group : t.group g = s.group g) :
    Alike (s.abandonRequest g) (t.abandonRequest g) := by
  unfold State.abandonRequest
  rw [group]
  split
  · exact (h.withdrawAsk g).setLights _ _
  · exact h

/-- The claim of a light group as its owner uses it: asked for by a Try, Held for at least 1 count (R30, R51). -/
structure Claim.serves (c : Claim) : Prop where
  fits : c.fits
  state : c.st = .idle ∨ c.st = .contest ∨ c.st = .held
  rank : c.st = .held → c.rank = 0 ∨ c.rank = 6
  some : c.st = .held → 1 ≤ c.held

/-- The state in which the group's pending request has been abandoned. -/
structure Abandoned (g : Fin 2) (s t : State) : Prop where
  ok : t.Ok
  status : t.status = s.status
  lights : t.lights = { s.lights with groups := t.lights.groups }
  none : (t.group g).pending = none
  others : ∀ j, j ≠ g → t.group j = s.group j
  lit : (t.claim (loadLights g)).lit
  held : (t.claim (loadLights g)).held = (s.claim (loadLights g)).held
  stands : (s.claim (loadLights g)).st = .held → (t.claim (loadLights g)).st = .held
  ends : (s.claim (loadLights g)).st = .contest → (t.claim (loadLights g)).st = .idle
  low : ∀ j, j ≠ loadLights g → (s.claim j).st ≠ .waiting → t.claim j = s.claim j

theorem Abandoned.light {g : Fin 2} {s t : State} (h : Abandoned g s t) (ch : Fin 8) : t.light ch = s.light ch :=
  light_congr (by rw [h.lights]) ch

section
variable {s : State} (o : s.Ok) {g : Fin 2} (serves : (s.claim (loadLights g)).serves)
include o serves

/-- The claim after its ask has been withdrawn: Held at its old amount, or Idle. -/
theorem withdrawAsk_claim : ((s.withdrawAsk g).claim (loadLights g)).lit
    ∧ ((s.withdrawAsk g).claim (loadLights g)).held = (s.claim (loadLights g)).held
    ∧ ((s.claim (loadLights g)).st = .held → ((s.withdrawAsk g).claim (loadLights g)).st = .held)
    ∧ ((s.claim (loadLights g)).st = .contest → ((s.withdrawAsk g).claim (loadLights g)).st = .idle) := by
  obtain ⟨fits, state, rank, some⟩ := serves
  obtain ⟨-, most, -, zero, -⟩ := fits
  unfold State.withdrawAsk State.groupHeld
  rcases state with idle | contest | held
  · rw [idle]
    dsimp only
    exact ⟨⟨.inl idle, by simp [Claim.contesting, idle], by simp [idle]⟩, rfl, nofun, fun _ => idle⟩
  · rw [contest]
    dsimp only
    have claim := release_claim o (loadLights g)
    rw [if_neg (by rw [contest]; decide)] at claim
    rw [claim]
    exact ⟨⟨.inl rfl, rfl, nofun⟩, (zero (by simp [Claim.drawing, contest])).symm, nofun, fun _ => rfl⟩
  · rw [held]
    dsimp only
    have draws : (s.claim (loadLights g)).drawing = true := by simp [Claim.drawing, held]
    have amount : min (s.claim (loadLights g)).held 30000 = (s.claim (loadLights g)).held := min_eq_left most
    rw [raise_low held (by omega), amount, (lower_claim o (some held) draws le_rfl).2]
    exact ⟨⟨.inr held, by simp [Claim.contesting, Claim.lowered, held], fun _ => rank held⟩, rfl, fun _ => held, nofun⟩

theorem abandonRequest_abandoned (calm : (s.group g).pending = none → (s.claim (loadLights g)).contesting = false) :
    Abandoned g s (s.abandonRequest g) := by
  have asks := withdrawAsk_asks s g o
  obtain ⟨lit, held, stands, ends⟩ := withdrawAsk_claim o serves
  unfold State.abandonRequest
  split
  · have lights := asks.2.lights
    refine ⟨⟨asks.1.checked, asks.1.lanes, asks.1.claims, asks.1.dropped, asks.1.changes⟩, asks.2.status, ?_, ?_, fun j ne => ?_,
      lit, held, stands, ends, fun j ne not => Claim.tested_eq (asks.2.claims j ne) not⟩
    · dsimp only
      generalize (s.withdrawAsk g) = v at *
      exact congrArg (fun l : Lights => { l with groups := (v.setGroup g { v.group g with pending := none }).lights.groups }) lights
    · rw [group_setGroup, if_pos rfl]
    · rw [group_setGroup, if_neg (Ne.symm ne)]
      show (s.withdrawAsk g).lights.groups.get j = _
      rw [lights]
      rfl
  · next waits =>
    have none : (s.group g).pending = none := by simpa using waits
    have quiet := calm none
    obtain ⟨-, state, rank, -⟩ := serves
    have state : (s.claim (loadLights g)).st = .idle ∨ (s.claim (loadLights g)).st = .held := by
      rcases state with h | h | h
      · exact .inl h
      · simp [Claim.contesting, h] at quiet
      · exact .inr h
    refine ⟨o, rfl, rfl, none, fun _ _ => rfl, ⟨state, quiet, rank⟩, rfl, id, fun contest => ?_, fun _ _ _ => rfl⟩
    simp [Claim.contesting, contest] at quiet

end

/-- The claim of a light group in a state that fits. -/
theorem State.Fits.serves {s : State} (fits : s.Fits) (g : Fin 2) : (s.claim (loadLights g)).serves := by
  obtain ⟨-, -, serves⟩ := fits.claims
  obtain ⟨runs, amount, -, forced, -, -, -, -, -, -, lights⟩ := serves (loadLights g)
  obtain ⟨waiting, -⟩ := lights (loadLights_ge g)
  have ranks : loadRanks (loadLights g) = [0, 6] := by
    match g with
    | 0 => rfl
    | 1 => rfl
  refine ⟨fits.sound.ok.claim _, ?_, fun held => ?_, fun held => amount (by simp [Claim.drawing, held])⟩
  · cases e : (s.claim (loadLights g)).st with
    | idle => exact .inl rfl
    | contest => exact .inr (.inl rfl)
    | held => exact .inr (.inr rfl)
    | waiting => exact absurd e waiting
    | forced =>
      have pump := forced e
      match g with
      | 0 => exact absurd pump (by decide)
      | 1 => exact absurd pump (by decide)
  · obtain ⟨-, -, rank, -⟩ := runs (by rw [held]; decide)
    rw [ranks] at rank
    simpa using rank

end Sys2Proof.Machine
end

