-- ==== Sys2Proof/Proofs/GroupChange.lean ====
section
/-! PROOFS. A change of a group's targets: taken, contested or scaled down (R152, R153). -/

namespace Sys2Proof.Machine

/-! ### What a change of a group's targets leaves of the other lights (R152, R153, R159) -/

/-- From `s` to `t` the courtesy stands, and so do the other group's channels and its request. -/
structure Confined (g : Fin 2) (s t : State) : Prop where
  courtesy : t.lights.courtesy = s.lights.courtesy
  countdown : t.lights.countdown = s.lights.countdown
  light : ∀ ch, groupOf ch ≠ g → t.light ch = s.light ch
  groups : ∀ j, j ≠ g → t.group j = s.group j

section
variable {g : Fin 2} {s t u : State}

theorem Confined.refl (g : Fin 2) (s : State) : Confined g s s := ⟨rfl, rfl, fun _ _ => rfl, fun _ _ => rfl⟩

theorem Confined.trans (h : Confined g s t) (k : Confined g t u) : Confined g s u :=
  ⟨k.courtesy.trans h.courtesy, k.countdown.trans h.countdown, fun ch n => (k.light ch n).trans (h.light ch n), fun j n => (k.groups j n).trans (h.groups j n)⟩

theorem Confined.ite {c : Prop} [Decidable c] {a b : State} (h : c → Confined g s a) (k : ¬ c → Confined g s b) :
    Confined g s (if c then a else b) := by
  split
  · exact h ‹_›
  · exact k ‹_›

theorem Lamps.confined (h : Lamps g s t) (light : ∀ ch, groupOf ch ≠ g → t.light ch = s.light ch) : Confined g s t :=
  ⟨by rw [h.lights], by rw [h.lights], light, h.groups⟩

theorem Shared.confined (h : Shared s t) : Confined g s t := h.lamps.confined fun ch _ => light_congr (by rw [h.lights]) ch

end

theorem setGroup_confined (s : State) (g : Fin 2) (x : Group) : Confined g s (s.setGroup g x) :=
  (setGroup_lamps s g x).confined fun _ _ => rfl

theorem takeTargets_confined (s : State) (g : Fin 2) (t : Tab 4 Nat) : Confined g s (s.takeTargets g t) :=
  have aimed : Confined g s (s.aimed g t) := ⟨rfl, rfl, fun _ n => aimed_other s g t n, fun _ _ => rfl⟩
  aimed.trans (amend_shared (s.aimed g t) g).confined

theorem requestTaken_confined (s : State) (g : Fin 2) (r : GroupReq) : Confined g s (s.requestTaken g r) :=
  (setGroup_confined s g _).trans ((takeTargets_confined _ g _).trans (finishRequest_shared _ _).confined)

theorem requestRefused_confined (s : State) (g : Fin 2) (r : GroupReq) : Confined g s (s.requestRefused g r) :=
  (setGroup_confined s g _).trans ((amend_shared _ g).trans (finishRequest_shared _ _)).confined

theorem askGroup_confined (s : State) (g : Fin 2) (r : Group) (a : Nat) : Confined g s ((s.setGroup g r).askGroup g a).1 :=
  (setGroup_confined s g r).trans (askGroup_shared _ g a).confined

theorem tryScales_confined (g : Fin 2) (r : GroupReq) (l : List Nat) (s : State) : Confined g s (tryScales g r l s) := by
  induction l generalizing r s with
  | nil => exact requestRefused_confined s g r
  | cons x xs ih =>
    rw [tryScales_cons]
    exact Confined.ite (fun _ => requestTaken_confined s g _) (fun _ => Confined.ite
      (fun _ => (askGroup_confined s g _ _).trans (ih _ _)) (fun _ => Confined.ite
        (fun _ => (askGroup_confined s g _ _).trans (requestTaken_confined _ g _)) (fun _ => askGroup_confined s g _ _)))

/-- The targets of a request, no more than the ceiling (R155). -/
def State.capped (s : State) (t : Tab 4 Nat) : Tab 4 Nat := t.map fun x => min x s.lights.ceiling

/-- A request for a group's targets at its own scale, and the state in which it is pending. -/
def State.requestFor (s : State) (t : Tab 4 Nat) (req : Nat) : GroupReq :=
  { want := s.capped t, trial := s.capped t, scale := 1000, req := req }

def State.proposed (s : State) (g : Fin 2) (t : Tab 4 Nat) (req : Nat) : State :=
  s.setGroup g { s.group g with pending := some (s.requestFor t req) }

/-- A change of a group's targets: taken at once, or asked for, at its own scale first (R152, R153). -/
theorem changeGroup_eq (s : State) (g : Fin 2) (t : Tab 4 Nat) (req : Nat) : s.changeGroup g t req =
    (let a := (s.proposed g t req).askGroup g (s.covering g (s.capped t))
    if s.covering g (s.capped t) ≤ s.groupHeld g then s.takeTargets g (s.capped t)
    else if a.2 = .refused then tryScales g (s.requestFor t req) [750, 500, 250] a.1
    else if a.2 = .granted then a.1.requestTaken g (s.requestFor t req) else a.1) := by
  unfold State.changeGroup State.proposed State.requestFor State.capped
  dsimp only
  split
  · rfl
  · split
    · next e => simp [e]
    · next e => simp [e]
    · next n m e => simp only [e]; rw [if_neg n, if_neg m]

theorem changeGroup_confined (s : State) (g : Fin 2) (t : Tab 4 Nat) (req : Nat) : Confined g s (s.changeGroup g t req) := by
  rw [changeGroup_eq]
  exact Confined.ite (fun _ => takeTargets_confined s g _) (fun _ => Confined.ite
    (fun _ => (askGroup_confined s g _ _).trans (tryScales_confined g _ _ _)) (fun _ => Confined.ite
      (fun _ => (askGroup_confined s g _ _).trans (requestTaken_confined _ g _)) (fun _ => askGroup_confined s g _ _)))

theorem courtesyChange_confined (s : State) (ch : Fin 8) (d : CourtesyDue) : Confined (groupOf ch) s (s.courtesyChange ch d) := by
  have marked : ∀ d, Confined (groupOf ch) s (s.setLights { s.lights with due := d }) :=
    fun _ => ⟨rfl, rfl, fun _ _ => rfl, fun _ _ => rfl⟩
  unfold State.courtesyChange
  refine Confined.ite (fun _ => marked d) (fun _ => (marked .none).trans ?_)
  cases d with
  | none => exact Confined.refl _ _
  | light => exact Confined.ite (fun _ => changeGroup_confined _ _ _ _) (fun _ => Confined.refl _ _)
  | restore => exact changeGroup_confined _ _ _ _

/-- Where a change of the courtesy light that is due waits for the other group, it waits on. -/
theorem courtesyResumes_confined {s : State} {g : Fin 2} (waits : ∀ ch, Item.courtesy s.seq.values = some ch → s.lights.due ≠ .none →
    groupOf ch ≠ g → (s.group (groupOf ch)).pending.isSome = true) : Confined g s s.courtesyResumes := by
  by_cases none : s.lights.due = .none
  · rw [courtesyResumes_none none]
    exact Confined.refl g s
  cases named : Item.courtesy s.seq.values with
  | none =>
    unfold State.courtesyResumes
    rw [named]
    exact Confined.refl g s
  | some ch =>
    by_cases own : groupOf ch = g
    · unfold State.courtesyResumes
      rw [named, ← own]
      exact Confined.ite (fun _ => Confined.refl _ s) (fun _ => courtesyChange_confined s ch _)
    · rw [courtesyResumes_waits named (waits ch named none own)]
      exact Confined.refl g s

/-! ### The number of a request -/

theorem requestTaken_pending {s : State} (o : s.Ok) (g : Fin 2) (r : GroupReq) : ((s.requestTaken g r).group g).pending = none :=
  by rw [(requestTaken_taken o g r).group]

theorem askGroup_pending {s : State} (o : s.Ok) (g : Fin 2) (x : Group) (a : Nat) :
    ((s.setGroup g x).askGroup g a).1.Ok ∧ ((s.setGroup g x).askGroup g a).1.group g = x := by
  obtain ⟨ok, asked⟩ := askGroup_asks (s.setGroup g x) g a (setGroup_calm s g x o).1
  refine ⟨ok, ?_⟩
  rw [State.group, asked.lights]
  exact Tab.get_set_self _ _ _

/-- A request keeps its number while its scales are tried. -/
theorem tryScales_req (g : Fin 2) (r : GroupReq) (l : List Nat) {s : State} (o : s.Ok) (x : GroupReq)
    (h : ((tryScales g r l s).group g).pending = some x) : x.req = r.req := by
  induction l generalizing r s with
  | nil =>
    rw [show tryScales g r [] s = s.requestRefused g r from rfl, (requestRefused_refused o g r).group] at h
    cases h
  | cons y ys ih =>
    rw [tryScales_cons] at h
    dsimp only at h
    obtain ⟨ok, group⟩ := askGroup_pending o g { s.group g with
      pending := some { r with trial := s.scaledTargets g r.want y, scale := y } } (s.scaleCover g r.want y)
    split at h
    · rw [requestTaken_pending o] at h
      cases h
    · split at h
      · exact ih { r with trial := s.scaledTargets g r.want y, scale := y } ok h
      · split at h
        · rw [requestTaken_pending ok] at h
          cases h
        · rw [group] at h
          cases h
          rfl

theorem takeTargets_pending (s : State) (g : Fin 2) (t : Tab 4 Nat) (j : Fin 2) : (s.takeTargets g t).group j = s.group j := by
  have shared : Shared (s.aimed g t) (s.takeTargets g t) := amend_shared (s.aimed g t) g
  rw [State.group, shared.lights]
  rfl

theorem changeGroup_req {s : State} (o : s.Ok) {g : Fin 2} (none : (s.group g).pending = none) (t : Tab 4 Nat) (req : Nat)
    (x : GroupReq) (h : ((s.changeGroup g t req).group g).pending = some x) : x.req = req := by
  rw [changeGroup_eq] at h
  dsimp only at h
  obtain ⟨ok, group⟩ := askGroup_pending o g { s.group g with pending := some (s.requestFor t req) } (s.covering g (s.capped t))
  change ((s.proposed g t req).askGroup g (s.covering g (s.capped t))).1.group g = _ at group
  change ((s.proposed g t req).askGroup g (s.covering g (s.capped t))).1.Ok at ok
  split at h
  · rw [takeTargets_pending, none] at h
    cases h
  · split at h
    · exact tryScales_req g _ _ ok x h
    · split at h
      · rw [requestTaken_pending ok] at h
        cases h
      · rw [group] at h
        cases h
        rfl

/-! ### A change that the claim covers, one that contests and one that is scaled down -/

section
variable {s : State} {g : Fin 2} {t : Tab 4 Nat} {req : Nat}

theorem changeGroup_takes (covers : s.covering g (s.capped t) ≤ s.groupHeld g) :
    s.changeGroup g t req = s.takeTargets g (s.capped t) := by
  rw [changeGroup_eq]
  exact if_pos covers

/-- The targets of a group are taken: the channels aim at them, and no contest begins (R151). -/
theorem takeTargets_taken (o : s.Ok) (calm : (s.claim (loadLights g)).contesting = false) :
    (∀ k, (s.takeTargets g t).light (groupChan g k) = (s.light (groupChan g k)).retarget (Item.fadeMs s.seq.values) (t.get k))
      ∧ ((s.takeTargets g t).claim (loadLights g)).contesting = false := by
  have ok : (s.aimed g t).Ok := ⟨o.checked, o.lanes, o.claims, o.dropped, o.changes⟩
  refine ⟨fun k => (takeTargets_light o g t _).trans (aimed_light s g t k), ?_⟩
  rw [takeTargets_eq, amend_claim ok]
  exact Claim.amended_calm calm _ _

variable (o : s.Ok) (lit : (s.claim (loadLights g)).lit) (low : (s.claim (loadLights g)).held < 30000)
  (more : (s.claim (loadLights g)).held < s.covering g (s.capped t))
include o lit low more

theorem changeGroup_contests (passes : s.passes (loadLights g) 6 (min (s.covering g (s.capped t)) 30000) = true) :
    let u := s.changeGroup g t req
    (u.claim (loadLights g)).contesting = true ∧ (u.claim (loadLights g)).held = (s.claim (loadLights g)).held
      ∧ (u.claim (loadLights g)).asked = min (s.covering g (s.capped t)) 30000 ∧ u.lights.chans = s.lights.chans
      ∧ (u.group g).pending = some (s.requestFor t req) := by
  have ok : (s.proposed g t req).Ok := (setGroup_calm s g _ o).1
  have weighs : Weighs (loadLights g) s (s.proposed g t req) := Weighs.setLights s _ _
  obtain ⟨reply, contesting, -, held, asked⟩ := askGroup_passes (s := s.proposed g t req) (a := s.covering g (s.capped t)) ok lit low more
    (by rw [weighs.passes]; exact passes)
  have lights := (askGroup_asks (s.proposed g t req) g (s.covering g (s.capped t)) ok).2.lights
  have eq : s.changeGroup g t req = ((s.proposed g t req).askGroup g (s.covering g (s.capped t))).1 := by
    rw [changeGroup_eq]
    dsimp only
    rw [if_neg (show ¬ s.covering g (s.capped t) ≤ s.groupHeld g from not_le.mpr more), if_neg (by rw [reply]; decide),
      if_neg (by rw [reply]; decide)]
  dsimp only
  rw [eq]
  refine ⟨contesting, held, asked, by rw [lights]; rfl, ?_⟩
  exact congrArg Group.pending (askGroup_pending o g { s.group g with pending := some (s.requestFor t req) } _).2

theorem changeGroup_scales (fails : s.passes (loadLights g) 6 (min (s.covering g (s.capped t)) 30000) = false) :
    ∃ v, ScaleAlike g s v
      ∧ s.changeGroup g t req = tryScales g (s.requestFor t req) [750, 500, 250] v := by
  have ok : (s.proposed g t req).Ok := (setGroup_calm s g _ o).1
  have weighs : Weighs (loadLights g) s (s.proposed g t req) := Weighs.setLights s _ _
  obtain ⟨reply, lit', held, weighs'⟩ := askGroup_fails (s := s.proposed g t req) (a := s.covering g (s.capped t)) ok lit low more
    (by rw [weighs.passes]; exact fails)
  obtain ⟨ok', asked⟩ := askGroup_asks (s.proposed g t req) g (s.covering g (s.capped t)) ok
  refine ⟨((s.proposed g t req).askGroup g (s.covering g (s.capped t))).1,
    ⟨ok', by rw [asked.lights]; rfl, weighs.trans weighs', lit', held⟩, ?_⟩
  rw [changeGroup_eq]
  dsimp only
  rw [if_neg (show ¬ s.covering g (s.capped t) ≤ s.groupHeld g from not_le.mpr more), if_pos reply]

end

end Sys2Proof.Machine
end

