-- ==== Sys2Proof/Proofs/LightOpens.lean ====
section
/-! PROOFS. The state a user's request to the lights is worked out in (R154, R157). -/

namespace Sys2Proof.Machine

/-! ### A user's request to the lights (R154, R157) -/

/-- `w` is `s` as far as a request to the lights goes; a courtesy change that is due in `w` was so in `s`. -/
structure State.Opens (s w : State) : Prop where
  start : s.Start w
  alike : Alike s w
  lit : Lit s w
  chans : w.lights.chans = s.lights.chans
  ceiling : w.lights.ceiling = s.lights.ceiling
  status : w.status = s.status
  due : w.lights.due ≠ .none → s.lights.due ≠ .none

theorem taken_opens {s : State} (fits : s.Fits) : s.Opens s.taken where
  start := ⟨taken_keeps s fits.sound.sane, rfl, rfl, rfl, fun _ => rfl, rfl, le_rfl⟩
  alike := ⟨fits.sound.checked, rfl, rfl, rfl, rfl, rfl⟩
  lit := rfl
  chans := rfl
  ceiling := rfl
  status := rfl
  due := id

theorem ended_opens {s : State} (fits : s.Fits) : s.Opens s.taken.courtesyEnds where
  start := ⟨(courtesyEnds_calm _).keeps (taken_keeps s fits.sound.sane), rfl, rfl, rfl, fun _ => rfl, rfl, le_rfl⟩
  alike := ⟨fits.sound.checked, rfl, rfl, rfl, rfl, rfl⟩
  lit := rfl
  chans := rfl
  ceiling := rfl
  status := rfl
  due h := absurd rfl h

section
variable {s w : State} (opens : s.Opens w) (fits : s.Fits)
include opens

theorem State.Opens.light (ch : Fin 8) : w.light ch = s.light ch := light_congr opens.chans ch

include fits

/-- What is pending in the group is abandoned. -/
theorem State.Opens.abandoned (g : Fin 2) : Abandoned g w (w.abandonRequest g) := by
  have serves := fits.serves g
  refine abandonRequest_abandoned opens.start.sane.ok (by rw [opens.start.claim]; exact serves) fun none => ?_
  rw [opens.start.claim]
  rw [opens.start.groups] at none
  exact fits.settledClaim none

/-- A courtesy change that is due waits for the request pending in its group. -/
theorem State.Opens.waits (due : w.lights.due ≠ .none) {ch : Fin 8} (named : Item.courtesy s.seq.values = some ch) :
    (s.group (groupOf ch)).pending.isSome = true := by
  obtain ⟨-, -, -, -, waits⟩ := fits.lights
  simpa [named] using waits (opens.due due)

/-- No target lies above the ceiling (R155). -/
theorem State.Opens.capped {g : Fin 2} {t : Tab 4 Nat} {want : Fin 8 → Nat} {u : State} (ceiling : u.lights.ceiling = w.lights.ceiling)
    (wants : ∀ k, want (groupChan g k) = min (t.get k) s.lights.ceiling) : u.capped t = ⟨fin4.map fun k => want (groupChan g k), rfl⟩ := by
  refine Tab.ext_get fun k => ?_
  refine Eq.trans ?_ (get_fin4 (fun k => want (groupChan g k)) k).symm
  rw [State.capped, Tab.get_map, ceiling, opens.ceiling, wants]

end

theorem Abandoned.confined {g : Fin 2} {s t : State} (h : Abandoned g s t) : Confined g s t :=
  ⟨by rw [h.lights], by rw [h.lights], fun ch _ => h.light ch, h.others⟩

theorem takeTargets_lamps (s : State) (g : Fin 2) (t : Tab 4 Nat) : Lamps g s (s.takeTargets g t) :=
  Lamps.trans (t := s.aimed g t) ⟨rfl, fun _ _ => rfl⟩ (amend_shared _ g).lamps

theorem changeGroup_lamps (s : State) (g : Fin 2) (t : Tab 4 Nat) (req : Nat) : Lamps g s (s.changeGroup g t req) := by
  have asks : Lamps g s ((s.proposed g t req).askGroup g (s.covering g (s.capped t))).1 :=
    (setGroup_lamps s g _).trans (askGroup_shared _ g _).lamps
  rw [changeGroup_eq]
  dsimp only
  split
  · exact takeTargets_lamps s g _
  · split
    · exact asks.trans (tryScales_lamps g _ _ _)
    · split
      · exact asks.trans (requestTaken_lamps _ g _)
      · exact asks

theorem requestPending_iff (s : State) (req : Nat) :
    s.requestPending req = true ↔ ∃ g r, (s.group g).pending = some r ∧ r.req = req := by
  have all : ∀ g : Fin 2, g ∈ [(0 : Fin 2), 1] := by decide
  unfold State.requestPending
  rw [List.any_eq_true]
  refine exists_congr fun g => ?_
  cases (s.group g).pending with
  | none => exact ⟨fun h => (nomatch h.2), nofun⟩
  | some r => exact ⟨fun h => ⟨r, rfl, beq_iff_eq.mp h.2⟩, fun ⟨_, e, h⟩ => ⟨all g, beq_iff_eq.mpr (by cases e; exact h)⟩⟩

/-- The request numbered `req` is pending where something is, in the one group that may wait for it. -/
theorem requestPending_eq {s : State} {g : Fin 2} {req : Nat} (own : ∀ r, (s.group g).pending = some r → r.req = req)
    (other : ∀ j, j ≠ g → ∀ r, (s.group j).pending = some r → r.req ≠ req) : s.requestPending req = (s.group g).pending.isSome := by
  rw [Bool.eq_iff_iff, requestPending_iff, Option.isSome_iff_exists]
  refine ⟨fun ⟨j, r, pending, number⟩ => ?_, fun ⟨r, pending⟩ => ⟨g, r, pending, own r pending⟩⟩
  by_cases e : j = g
  · exact ⟨r, e ▸ pending⟩
  · exact absurd number (other j e r pending)

/-- A target changes (R151): its fade begins at the present level, or ends at once. -/
theorem retarget_same (fade : Nat) (l : Light) {x : Nat} (h : x = l.target) : l.retarget fade x = l := if_pos h

theorem retarget_still {fade : Nat} {l : Light} {x : Nat} (moves : x ≠ l.target) (there : x = l.level) :
    (l.retarget fade x).fading = false := by
  unfold Light.retarget
  rw [if_neg moves]
  dsimp only
  rw [if_pos there]

theorem retarget_fades {fade : Nat} {l : Light} {x : Nat} (moves : x ≠ l.target) (away : x ≠ l.level) (slow : 0 < fade) :
    (l.retarget fade x).level = l.level ∧ (l.retarget fade x).start = l.level ∧ (l.retarget fade x).elapsed = 0
      ∧ (l.retarget fade x).fading = true ∧ (l.retarget fade x).stepTimer = some 20 := by
  unfold Light.retarget
  rw [if_neg moves]
  dsimp only
  rw [if_neg away, if_neg (by omega)]
  exact ⟨rfl, rfl, rfl, rfl, rfl⟩

/-! ### The refusals of a request to the lights -/

section
variable {s : State}

theorem lightRefusal_absent (h : s.seq.fns.lights = false) (inRange : Bool) : s.lightRefusal inRange = some 3 := by
  rw [State.lightRefusal, refusal_absent h]

variable (has : s.seq.fns.lights = true)
include has

theorem lightRefusal_phase (phase : s.seq.phase ≠ .run) (inRange : Bool) : s.lightRefusal inRange = some 10 := by
  rw [State.lightRefusal, refusal_phase has phase]

variable (phase : s.seq.phase = .run)
include phase

theorem lightRefusal_range : s.lightRefusal false = some 11 := by
  rw [State.lightRefusal, refusal_none has phase]
  rfl

theorem lightRefusal_storage (storage : s.seq.storage = true) : s.lightRefusal true = some 9 := by
  rw [State.lightRefusal, refusal_none has phase]
  simp [storage]
  rfl

theorem lightRefusal_none (storage : s.seq.storage = false) : s.lightRefusal true = none := by
  rw [State.lightRefusal, refusal_none has phase]
  simp [storage]

end

end Sys2Proof.Machine
end

