-- ==== Sys2Proof/Proofs/SetLevel.lean ====
section
/-! PROOFS. A SetLevel that is taken (R157). -/

namespace Sys2Proof.Machine

/-! ### A SetLevel that is taken (R154, R157) -/

theorem courtesyResumes_hushed (s : State) : Hushed s s.courtesyResumes := by
  unfold State.courtesyResumes
  split
  · exact Hushed.refl s
  · exact Hushed.ite (fun _ => Hushed.refl s) (fun _ => courtesyChange_hushed s _ _)

section
variable (s : State) (code req : Nat)

theorem answerLights_lights : (s.answerLights code req).lights = s.lights := rfl

theorem answerLights_seq : (s.answerLights code req).seq = s.seq := rfl

theorem answerLights_broker : (s.answerLights code req).broker = s.broker := rfl

theorem answerLights_lit : Lit s (s.answerLights code req) := rfl

theorem answerLights_confined (g : Fin 2) : Confined g s (s.answerLights code req) := ⟨rfl, rfl, fun _ _ => rfl, fun _ _ => rfl⟩

theorem answerLights_shows : (s.answerLights code req).shows code (if s.requestPending req = true then 2 else 1) := ⟨rfl, rfl⟩

theorem answerLights_group (g : Fin 2) : (s.answerLights code req).group g = s.group g := rfl

theorem answerLights_claim (id : Fin 7) : (s.answerLights code req).claim id = s.claim id := rfl

end

/-- The targets a SetLevel asks for. -/
def State.levelTargets (s : State) (ch : Fin 8) (value : Int) : Tab 4 Nat :=
  ⟨fin4.map fun k => if groupChan (groupOf ch) k = ch then clampLevel value else (s.light (groupChan (groupOf ch) k)).target, rfl⟩

/-- A group's change worked out for a request of the user's, once what was pending has been abandoned. -/
def State.regroups (w : State) (g : Fin 2) (t : Tab 4 Nat) : State := w.requestGroup g t (w.status.serial + 1)

/-- What a SetLevel leaves, once its outcome is shown and a courtesy change that waited has been made. -/
def State.levelled (w : State) (g : Fin 2) (t : Tab 4 Nat) : State :=
  ((w.regroups g t).answerLights 7 (w.status.serial + 1)).courtesyResumes

section
variable {s w : State} (opens : s.Opens w) (fits : s.Fits) (g : Fin 2) (t : Tab 4 Nat)
include opens fits

theorem State.Opens.number (j : Fin 2) (r : GroupReq) (h : (w.group j).pending = some r) : r.req ≠ w.status.serial + 1 := by
  rw [opens.start.groups] at h
  rw [opens.status]
  exact Nat.ne_of_lt (Nat.lt_succ_of_le (fits.requests.2 j r h))

theorem regroups_confined : Confined g w (w.regroups g t) :=
  (opens.abandoned fits g).confined.trans (changeGroup_confined _ g t _)

theorem regroups_ok : (w.regroups g t).Ok := (requestGroup_calm w g t _ opens.start.sane.ok).1

theorem regroups_due : (w.regroups g t).lights.due = w.lights.due := by
  have lamps := changeGroup_lamps (w.abandonRequest g) g t (w.status.serial + 1)
  have abandoned := opens.abandoned fits g
  unfold State.regroups State.requestGroup
  rw [lamps.lights, abandoned.lights]

theorem regroups_seq : (w.regroups g t).seq = s.seq :=
  (Shared.seq (requestGroup_lit w g t _)).trans opens.start.seq

theorem regroups_pending : (w.regroups g t).requestPending (w.status.serial + 1) = ((w.regroups g t).group g).pending.isSome := by
  have abandoned := opens.abandoned fits g
  refine requestPending_eq (fun r h => changeGroup_req abandoned.ok abandoned.none t _ r h) fun j ne r h => ?_
  rw [(regroups_confined opens fits g t).groups j ne] at h
  exact opens.number fits j r h

/-- The outcome shown is the new request's. -/
theorem levelled_shows : (w.levelled g t).shows 7 (if ((w.regroups g t).group g).pending.isSome = true then 2 else 1) := by
  have ok : ((w.regroups g t).answerLights 7 (w.status.serial + 1)).Ok := (answerLights_calm _ _ _ (regroups_ok opens fits g t)).1
  have status := (courtesyResumes_hushed _ ok).2
  have shown := answerLights_shows (w.regroups g t) 7 (w.status.serial + 1)
  rw [regroups_pending opens fits g t] at shown
  unfold State.shows State.levelled
  rw [status]
  exact shown

/-- A courtesy change that waits for the other group waits on; any other is made in this one. -/
theorem levelled_confined : Confined g w (w.levelled g t) := by
  have confined := regroups_confined opens fits g t
  refine (confined.trans (answerLights_confined _ 7 (w.status.serial + 1) g)).trans
    (courtesyResumes_confined (s := (w.regroups g t).answerLights 7 (w.status.serial + 1)) fun ch named due ne => ?_)
  rw [answerLights_seq, regroups_seq opens fits g t] at named
  rw [answerLights_lights, regroups_due opens fits g t] at due
  rw [answerLights_group, confined.groups _ ne, opens.start.groups]
  exact opens.waits fits due named

/-- With no change due, or with the request pending, nothing is made after it. -/
theorem levelled_rests (h : s.lights.due = .none ∨ ((w.regroups g t).group g).pending.isSome = true) :
    w.levelled g t = (w.regroups g t).answerLights 7 (w.status.serial + 1) := by
  have confined := regroups_confined opens fits g t
  have seq := regroups_seq opens fits g t
  by_cases none : w.lights.due = .none
  · exact courtesyResumes_none (by rw [answerLights_lights, regroups_due opens fits g t, none])
  have pending := h.resolve_left (opens.due none)
  cases named : Item.courtesy s.seq.values with
  | none =>
    unfold State.levelled State.courtesyResumes
    rw [answerLights_seq, seq, named]
  | some ch =>
    refine courtesyResumes_waits (by rw [answerLights_seq, seq]; exact named) ?_
    rw [answerLights_group]
    by_cases own : groupOf ch = g
    · rw [own]
      exact pending
    · rw [confined.groups _ own, opens.start.groups]
      exact opens.waits fits none named

theorem levelled_stirs (id : Fin 7) (low : id.val < 5) : (w.claim id).stirs ((w.levelled g t).claim id) := by
  have lit := lightsReach_lit
  have within := opens.start.within fits.requests
  have asked := (requestGroup_tends (k := lightsReach) w g t _ (le_refl (w.status.serial + 1))).low opens.start.sane.ok
    ⟨fun ch => (within.1 ch).trans (Nat.le_succ _), fun j r h => (within.2 j r h).trans (Nat.le_succ _)⟩ id low
  obtain ⟨n, waits⟩ := waitWithin_exists ((w.regroups g t).answerLights 7 (w.status.serial + 1))
  have resumed := (courtesyResumes_tends (k := lightsReach) ((w.regroups g t).answerLights 7 (w.status.serial + 1))).low
    (answerLights_calm _ _ _ (regroups_ok opens fits g t)).1 waits id low
  rw [answerLights_claim] at resumed
  exact Claim.stirs_trans asked resumed

omit opens fits in
theorem levelled_calm : Calm w (w.levelled g t) :=
  (requestGroup_calm w g t _).trans ((answerLights_calm _ _ _).trans (courtesyResumes_calm _))

omit opens fits in
theorem levelled_lit : Lit w (w.levelled g t) :=
  (requestGroup_lit w g t _).trans ((answerLights_lit _ 7 (w.status.serial + 1)).trans (courtesyResumes_lit _))

end

/-- The SetLevel that is taken, from the state in which the courtesy has ended where its channel is set. -/
theorem takeLevel_eq (s : State) (ch : Fin 8) (v : Int) : s.takeLevel ch v =
    (if Item.courtesy s.seq.values = some ch then s.courtesyEnds else s).levelled (groupOf ch) (s.levelTargets ch v) := by
  unfold State.takeLevel State.levelled State.regroups State.levelTargets
  dsimp only
  by_cases own : Item.courtesy s.seq.values = some ch
  · rw [if_pos own] <;> rfl
  · rw [if_neg own] <;> rfl

/-- The state a SetLevel is worked out in. -/
theorem level_opens {s : State} (fits : s.Fits) (ch : Fin 8) :
    s.Opens (if Item.courtesy s.taken.seq.values = some ch then s.taken.courtesyEnds else s.taken) := by
  split
  · exact ended_opens fits
  · exact taken_opens fits

end Sys2Proof.Machine
end

