-- ==== Sys2Proof/Proofs/SetLevelWays.lean ====
section
/-! PROOFS. The three ways of a SetLevel (R152, R153). -/

namespace Sys2Proof.Machine

/-! ### The three ways of a SetLevel (R152, R153) -/

section
variable {s w : State} (opens : s.Opens w) (fits : s.Fits) {g : Fin 2} {t : Tab 4 Nat} {want : Fin 8 → Nat}
  (wants : ∀ k, want (groupChan g k) = min (t.get k) s.lights.ceiling)
include opens fits wants

/-- The new targets of a group, no more than the ceiling, and the amount that covers them. -/
theorem abandoned_capped : (w.abandonRequest g).capped t = ⟨fin4.map fun k => want (groupChan g k), rfl⟩ := by
  have abandoned := opens.abandoned fits g
  exact opens.capped fits (by rw [abandoned.lights]) wants

theorem abandoned_want (k : Fin 4) : ((w.abandonRequest g).capped t).get k = want (groupChan g k) := by
  have abandoned := opens.abandoned fits g
  rw [State.capped, Tab.get_map, abandoned.lights, opens.ceiling, wants]

theorem abandoned_covering : (w.abandonRequest g).covering g ((w.abandonRequest g).capped t)
    = (fin4.map fun k => drawTerm (Item.lightDraw s.seq.values (groupChan g k))
        (max (s.light (groupChan g k)).level (want (groupChan g k)))).sum := by
  have abandoned := opens.abandoned fits g
  have seq : (w.abandonRequest g).seq = s.seq := (Shared.seq (abandonRequest_lit w g)).trans opens.start.seq
  rw [State.covering]
  refine congrArg List.sum (List.map_congr_left fun k _ => ?_)
  rw [abandoned_want opens fits wants, abandoned.light, opens.light, seq]

omit wants in
theorem abandoned_held : ((w.abandonRequest g).claim (loadLights g)).held = (s.claim (loadLights g)).held := by
  rw [(opens.abandoned fits g).held, opens.start.claim]

/-- A change that the claim covers is taken at once. -/
theorem regroups_takes (covers : (fin4.map fun k => drawTerm (Item.lightDraw s.seq.values (groupChan g k))
      (max (s.light (groupChan g k)).level (want (groupChan g k)))).sum ≤ (s.claim (loadLights g)).held) :
    let u := w.regroups g t
    (u.group g).pending = none ∧ (u.claim (loadLights g)).contesting = false
      ∧ ∀ k, u.light (groupChan g k) = (s.light (groupChan g k)).retarget (Item.fadeMs s.seq.values) (want (groupChan g k)) := by
  have abandoned := opens.abandoned fits g
  have seq : (w.abandonRequest g).seq = s.seq := (Shared.seq (abandonRequest_lit w g)).trans opens.start.seq
  rw [← abandoned_covering opens fits wants, ← abandoned_held opens fits] at covers
  have taken : w.regroups g t = (w.abandonRequest g).takeTargets g ((w.abandonRequest g).capped t) := changeGroup_takes covers
  obtain ⟨lights, calm⟩ := takeTargets_taken (t := (w.abandonRequest g).capped t) abandoned.ok abandoned.lit.calm
  dsimp only
  rw [taken, takeTargets_pending]
  refine ⟨abandoned.none, calm, fun k => ?_⟩
  rw [lights, abandoned.light, opens.light, seq, abandoned_want opens fits wants]

variable (low : (s.claim (loadLights g)).held < 30000) (more : (s.claim (loadLights g)).held
  < (fin4.map fun k => drawTerm (Item.lightDraw s.seq.values (groupChan g k))
      (max (s.light (groupChan g k)).level (want (groupChan g k)))).sum)
include low more

/-- One above it whose ask passes the pre-test contests. -/
theorem regroups_contests (passes : (s.abandonRequest g).passes (loadLights g) 6 (min (fin4.map fun k =>
      drawTerm (Item.lightDraw s.seq.values (groupChan g k)) (max (s.light (groupChan g k)).level (want (groupChan g k)))).sum 30000) = true) :
    let u := w.regroups g t
    (u.claim (loadLights g)).contesting = true ∧ (u.claim (loadLights g)).held = (s.claim (loadLights g)).held
      ∧ (u.claim (loadLights g)).asked = min (fin4.map fun k => drawTerm (Item.lightDraw s.seq.values (groupChan g k))
          (max (s.light (groupChan g k)).level (want (groupChan g k)))).sum 30000
      ∧ (∀ o, u.light o = s.light o)
      ∧ ∃ r, (u.group g).pending = some r ∧ (∀ k, r.want.get k = want (groupChan g k)) ∧ r.trial = r.want ∧ r.scale = 1000 := by
  have abandoned := opens.abandoned fits g
  have alike := opens.alike.abandonRequest (opens.start.groups g)
  rw [← abandoned_covering opens fits wants] at more passes ⊢
  rw [← abandoned_held opens fits] at low more
  obtain ⟨contesting, held, asked, chans, pending⟩ := changeGroup_contests (req := w.status.serial + 1) abandoned.ok abandoned.lit low
    more (by rw [alike.passes]; exact passes)
  dsimp only
  unfold State.regroups State.requestGroup
  refine ⟨contesting, held.trans (abandoned_held opens fits), asked, fun o => ?_, _, pending, fun k => ?_, rfl, rfl⟩
  · rw [light_congr chans, abandoned.light, opens.light]
  · exact abandoned_want opens fits wants k

/-- One whose ask fails the pre-test goes on to its scaled requests. -/
theorem regroups_scales (fails : (s.abandonRequest g).passes (loadLights g) 6 (min (fin4.map fun k =>
      drawTerm (Item.lightDraw s.seq.values (groupChan g k)) (max (s.light (groupChan g k)).level (want (groupChan g k)))).sum 30000) = false) :
    (s.abandonRequest g).scalesDown (w.regroups g t) g ⟨fin4.map fun k => want (groupChan g k), rfl⟩ 1000 := by
  have abandoned := opens.abandoned fits g
  have alike := opens.alike.abandonRequest (opens.start.groups g)
  have sane : s.Ok := fits.sound.ok
  have own : Abandoned g s (s.abandonRequest g) := abandonRequest_abandoned sane (fits.serves g) fun none => fits.settledClaim none
  rw [← abandoned_covering opens fits wants] at more fails
  rw [← abandoned_held opens fits] at low more
  obtain ⟨v, like, eq⟩ := changeGroup_scales (req := w.status.serial + 1) abandoned.ok abandoned.lit low more (by rw [alike.passes]; exact fails)
  have scaled : ScaleAlike g (s.abandonRequest g) v := by
    refine ⟨like.ok, ?_, (alike.weighs _).trans like.weighs, like.lit, by rw [like.held, alike.claim]⟩
    rw [like.chans, abandoned.lights, own.lights]
    exact opens.chans
  have result := (tryScales_scaled scaled (by rw [← alike.claim]; exact low) ((w.abandonRequest g).requestFor t (w.status.serial + 1))
    ([750, 500, 250].filter (· < 1000))).scalesDown (scale := 1000)
  rw [State.requestFor, abandoned_capped opens fits wants] at result
  have same : w.regroups g t = _ := eq
  rw [same, State.requestFor, abandoned_capped opens fits wants]
  exact result

end

end Sys2Proof.Machine
end

