-- ==== Sys2Proof/Proofs/AllOff.lean ====
section
/-! PROOFS. AllOff (R157). -/

namespace Sys2Proof.Machine

/-! ### AllOff (R157) -/

/-- What AllOff leaves before its outcome is shown. -/
def State.darkens (w : State) : State :=
  (((w.abandonRequest 0).abandonRequest 1).takeTargets 0 (Tab.fill 4 0)).takeTargets 1 (Tab.fill 4 0)

theorem takeAllOff_eq (s : State) : s.takeAllOff = s.courtesyEnds.darkens.answer 10 1 := rfl

/-- A group's targets taken: what its claim comes to, and the other group's channels and claim. -/
theorem takeTargets_claim {s : State} (o : s.Ok) (g : Fin 2) (t : Tab 4 Nat) : (s.takeTargets g t).Ok
    ∧ (s.takeTargets g t).claim (loadLights g)
      = (s.claim (loadLights g)).amended ((s.takeTargets g t).settled g) ((s.takeTargets g t).targetAmount g)
    ∧ ∀ id, id ≠ loadLights g → (s.claim id).st ≠ .waiting → (s.takeTargets g t).claim id = s.claim id := by
  have ok : (s.aimed g t).Ok := ⟨o.checked, o.lanes, o.claims, o.dropped, o.changes⟩
  obtain ⟨ok', asked⟩ := amend_asks (s.aimed g t) g ok
  have settled : (s.takeTargets g t).settled g = (s.aimed g t).settled g := by
    rw [takeTargets_eq]
    unfold State.settled State.light State.group
    rw [asked.lights]
  have target : (s.takeTargets g t).targetAmount g = (s.aimed g t).targetAmount g := by
    rw [takeTargets_eq]
    unfold State.targetAmount State.light
    rw [asked.lights, asked.seq]
  refine ⟨ok', ?_, fun id ne not => ?_⟩
  · rw [settled, target, takeTargets_eq, amend_claim ok]
    rfl
  · rw [takeTargets_eq, Claim.tested_eq (asked.claims id ne) not]
    rfl

/-- A channel whose target becomes 0 (R151). -/
theorem retarget_dark (fade : Nat) (l : Light) : (l.retarget fade 0).target = 0
    ∧ (l.level = 0 → (l.fading = false ∨ l.target ≠ 0) → (l.retarget fade 0).level = 0 ∧ (l.retarget fade 0).fading = false)
    ∧ (0 < fade → (l.fading = false → l.level = l.target) → (l.fading = true → l.level ≠ l.target) →
        (l.retarget fade 0).level = l.level ∧ ((l.retarget fade 0).fading = true ↔ 0 < l.level)) := by
  refine ⟨retarget_target fade l 0, fun dark still => ?_, fun slow there away => ?_⟩
  · by_cases same : 0 = l.target
    · rw [retarget_same fade l same]
      exact ⟨dark, still.resolve_right fun h => h same.symm⟩
    · refine ⟨?_, retarget_still same dark.symm⟩
      unfold Light.retarget
      rw [if_neg same]
      dsimp only
      rw [if_pos dark.symm]
      exact dark
  · by_cases same : 0 = l.target
    · rw [retarget_same fade l same]
      refine ⟨rfl, fun fading => ?_, fun lit => ?_⟩
      · have := away fading
        omega
      · rw [← Bool.not_eq_false]
        intro still
        have := there still
        omega
    · by_cases dark : l.level = 0
      · have still := retarget_still (fade := fade) same dark.symm
        refine ⟨?_, by rw [still, dark]; decide⟩
        unfold Light.retarget
        rw [if_neg same]
        dsimp only
        rw [if_pos dark.symm]
      · obtain ⟨level, -, -, fading, -⟩ := retarget_fades (fade := fade) same (Ne.symm dark) slow
        exact ⟨level, fun _ => Nat.pos_of_ne_zero dark, fun _ => fading⟩

/-- The target amount of a dark group is 0, and a claim that comes to it ends (R151). -/
theorem targetAmount_dark {s : State} {g : Fin 2} (h : ∀ k, (s.light (groupChan g k)).target = 0) : s.targetAmount g = 0 := by
  rw [targetAmount_eq]
  simp only [h]
  rfl

theorem Claim.lit.ends {c : Claim} (h : c.lit) : (c.amended true 0).st = .idle := by
  unfold Claim.amended
  rcases h.state with idle | held
  · rw [if_neg (by simp [idle])]
    exact idle
  · rw [if_pos ⟨rfl, held⟩]
    rfl

section
variable {s : State} (fits : s.Fits)
include fits

/-- Both requests have been abandoned: both claims are without a contest. -/
theorem both_abandoned : let w := s.taken.courtesyEnds
    let a := (w.abandonRequest 0).abandonRequest 1
    a.Ok ∧ (∀ ch, a.light ch = s.light ch) ∧ (∀ g, (a.group g).pending = none) ∧ (∀ g, (a.claim (loadLights g)).lit)
      ∧ a.seq = s.seq ∧ a.lights = { s.taken.courtesyEnds.lights with groups := a.lights.groups } := by
  have opens := ended_opens fits
  dsimp only
  generalize s.taken.courtesyEnds = w at *
  have first := opens.abandoned fits 0
  generalize ha : w.abandonRequest 0 = a at *
  have other : a.claim (loadLights 1) = s.claim (loadLights 1) := by
    obtain ⟨-, state, -⟩ := fits.serves 1
    rw [first.low _ (by decide) (by rw [opens.start.claim]; rcases state with e | e | e <;> rw [e] <;> decide), opens.start.claim]
  have group : a.group 1 = s.group 1 := (first.others 1 (by decide)).trans (opens.start.groups 1)
  have second : Abandoned 1 a (a.abandonRequest 1) := by
    refine abandonRequest_abandoned first.ok (by rw [other]; exact fits.serves 1) fun none => ?_
    rw [other]
    rw [group] at none
    exact fits.settledClaim none
  have seq : (a.abandonRequest 1).seq = s.seq := by
    rw [Shared.seq (abandonRequest_lit a 1), ← ha, Shared.seq (abandonRequest_lit w 0), opens.start.seq]
  refine ⟨second.ok, fun ch => ?_, fun g => ?_, fun g => ?_, seq, ?_⟩
  · rw [second.light, first.light, opens.light]
  · match g with
    | 0 => rw [second.others 0 (by decide)]; exact first.none
    | 1 => exact second.none
  · match g with
    | 0 =>
      have stands : (a.claim (loadLights 0)).st ≠ .waiting := by rcases first.lit.state with e | e <;> rw [e] <;> decide
      rw [second.low _ (by decide) stands]
      exact first.lit
    | 1 => exact second.lit
  · rw [second.lights, first.lights]

/-- The courtesy ends with AllOff, and a change of its light that waited is dropped (R157, R159). -/
theorem darkens_courtesy : let u := s.taken.courtesyEnds.darkens
    u.lights.courtesy = false ∧ u.lights.countdown = none ∧ u.lights.due = .none := by
  obtain ⟨-, -, -, -, -, lights⟩ := both_abandoned fits
  dsimp only at lights ⊢
  unfold State.darkens
  generalize (s.taken.courtesyEnds.abandonRequest 0).abandonRequest 1 = a at *
  have first := takeTargets_lamps a 0 (Tab.fill 4 0)
  have second := takeTargets_lamps (a.takeTargets 0 (Tab.fill 4 0)) 1 (Tab.fill 4 0)
  rw [second.lights, first.lights, lights]
  exact ⟨rfl, rfl, rfl⟩

/-- Every channel comes to target 0, and a group wholly dark has its claim Idle (R157). -/
theorem darkens_dark (g : Fin 2) : let u := s.taken.courtesyEnds.darkens
    (u.group g).pending = none
      ∧ (∀ k, u.light (groupChan g k) = (s.light (groupChan g k)).retarget (Item.fadeMs s.seq.values) 0)
      ∧ ((∀ k, (s.light (groupChan g k)).level = 0) → (u.claim (loadLights g)).st = .idle) := by
  obtain ⟨ok, light, pending, lit, seq, -⟩ := both_abandoned fits
  dsimp only at ok light pending lit seq ⊢
  unfold State.darkens
  generalize (s.taken.courtesyEnds.abandonRequest 0).abandonRequest 1 = a at *
  obtain ⟨ok₀, claim₀, others₀⟩ := takeTargets_claim ok 0 (Tab.fill 4 0)
  obtain ⟨lights₀, calm₀⟩ := takeTargets_taken (t := Tab.fill 4 0) ok (lit 0).calm
  have confined₀ := takeTargets_confined a 0 (Tab.fill 4 0)
  have group₀ := takeTargets_pending a 0 (Tab.fill 4 0)
  have seq₀ : (a.takeTargets 0 (Tab.fill 4 0)).seq = s.seq := by
    have asked := (amend_asks (a.aimed 0 (Tab.fill 4 0)) 0 ⟨ok.checked, ok.lanes, ok.claims, ok.dropped, ok.changes⟩).2.seq
    exact asked.trans seq
  generalize hb : a.takeTargets 0 (Tab.fill 4 0) = b at *
  have claim₁ : b.claim (loadLights 1) = a.claim (loadLights 1) :=
    others₀ _ (by decide) (by rcases (lit 1).state with e | e <;> rw [e] <;> decide)
  obtain ⟨ok₁, claim, others₁⟩ := takeTargets_claim ok₀ 1 (Tab.fill 4 0)
  obtain ⟨lights₁, -⟩ := takeTargets_taken (t := Tab.fill 4 0) ok₀ (by rw [claim₁]; exact (lit 1).calm)
  have confined₁ := takeTargets_confined b 1 (Tab.fill 4 0)
  have group₁ := takeTargets_pending b 1 (Tab.fill 4 0)
  generalize hc : b.takeTargets 1 (Tab.fill 4 0) = c at *
  have aims : ∀ j k, c.light (groupChan j k) = (s.light (groupChan j k)).retarget (Item.fadeMs s.seq.values) 0 := by
    intro j k
    match j with
    | 0 => rw [confined₁.light _ (by rw [groupOf_groupChan]; decide), lights₀, light, seq, Tab.get_fill]
    | 1 => rw [lights₁, confined₀.light _ (by rw [groupOf_groupChan]; decide), light, seq₀, Tab.get_fill]
  have none : ∀ j, (c.group j).pending = none := fun j => by rw [group₁, group₀, pending]
  refine ⟨none g, aims g, fun dark => ?_⟩
  have still : ∀ k, (c.light (groupChan g k)).fading = false := by
    intro k
    obtain ⟨-, lights, -⟩ := fits.lights
    obtain ⟨-, -, -, -, -, -, fades, -⟩ := lights (groupChan g k)
    have stays : (s.light (groupChan g k)).fading = false ∨ (s.light (groupChan g k)).target ≠ 0 := by
      cases fading : (s.light (groupChan g k)).fading with
      | false => exact .inl rfl
      | true => exact .inr fun zero => (fades fading).2.1 (by rw [dark k, zero])
    rw [aims]
    exact ((retarget_dark _ _).2.1 (dark k) stays).2
  match g with
  | 0 =>
    have same : ∀ k, b.light (groupChan 0 k) = c.light (groupChan 0 k) :=
      fun k => (confined₁.light _ (by rw [groupOf_groupChan]; decide)).symm
    have settled₀ : b.settled 0 = true := (settled_iff b 0).mpr ⟨fun k => by rw [same]; exact still k, by rw [group₀, pending]⟩
    have amount₀ : b.targetAmount 0 = 0 := targetAmount_dark fun k => by rw [same, aims]; exact retarget_target _ _ _
    have idle : (b.claim (loadLights 0)).st = .idle := by
      rw [claim₀, settled₀, amount₀]
      exact (lit 0).ends
    rw [others₁ _ (by decide) (by rw [idle]; decide)]
    exact idle
  | 1 =>
    have amount : c.targetAmount 1 = 0 := targetAmount_dark fun k => by rw [aims]; exact retarget_target _ _ _
    have settled : c.settled 1 = true := (settled_iff c 1).mpr ⟨still, none 1⟩
    rw [claim, settled, amount, claim₁]
    exact (lit 1).ends

omit fits in
theorem darkens_lit (w : State) : Lit w w.darkens :=
  ((abandonRequest_lit w 0).trans (abandonRequest_lit _ 1)).trans ((takeTargets_lit _ 0 _).trans (takeTargets_lit _ 1 _))

omit fits in
theorem darkens_tends (n : Nat) (w : State) : Tends lightsReach n w w.darkens :=
  have lit := lightsReach_lit
  ((abandonRequest_tends w 0).trans (abandonRequest_tends _ 1)).trans ((takeTargets_tends _ 0 _).trans (takeTargets_tends _ 1 _))

end

end Sys2Proof.Machine
end

