-- ==== Sys2Proof/Proofs/LightLevels.lean ====
section
/-! PROOFS. SetLevel and AllOff, settled (R157). -/

namespace Sys2Proof.Machine

theorem groupChan_mod (ch : Fin 8) : groupChan (groupOf ch) ⟨ch.val % 4, Nat.mod_lt _ (by decide)⟩ = ch := by decide +revert

/-- The command SetLevel runs: its refusals, and the level taken. -/
def State.setLevelRequest (s : State) (channel : Nat) (value : Int) : State :=
  match asFin8 channel with
  | none => s.answer 7 ((s.lightRefusal false).getD Outcome.range)
  | some ch =>
    match s.lightRefusal true with
    | some o => s.answer 7 o
    | none => s.takeLevel ch value

section
variable {s : State} {i : Nat} (v : Int)

theorem setLevelRequest_refused {o : Nat} (out : s.lightRefusal false = some o) (refused : i < 8 → s.lightRefusal true = some o) :
    s.setLevelRequest i v = s.answer 7 o := by
  unfold State.setLevelRequest asFin8
  by_cases h : i < 8
  · rw [dif_pos h]
    dsimp only
    rw [refused h]
  · rw [dif_neg h]
    dsimp only
    rw [out]
    rfl

theorem setLevelRequest_out (has : s.seq.fns.lights = true) (phase : s.seq.phase = .run) (out : 8 ≤ i) :
    s.setLevelRequest i v = s.answer 7 11 :=
  setLevelRequest_refused v (lightRefusal_range has phase) fun h => absurd h (by omega)

theorem setLevelRequest_stored (has : s.seq.fns.lights = true) (phase : s.seq.phase = .run) (within : i < 8)
    (storage : s.seq.storage = true) : s.setLevelRequest i v = s.answer 7 9 := by
  unfold State.setLevelRequest asFin8
  rw [dif_pos within]
  dsimp only
  rw [lightRefusal_storage has phase storage]

theorem setLevelRequest_takes (has : s.seq.fns.lights = true) (phase : s.seq.phase = .run) {ch : Fin 8} (within : i = ch.val)
    (storage : s.seq.storage = false) : s.setLevelRequest i v = s.takeLevel ch v := by
  subst within
  unfold State.setLevelRequest asFin8
  rw [dif_pos ch.isLt]
  dsimp only
  rw [lightRefusal_none has phase storage]

end

theorem darkens_calm (w : State) : Calm w w.darkens :=
  ((abandonRequest_calm w 0).trans (abandonRequest_calm _ 1)).trans ((takeTargets_calm _ 0 _).trans (takeTargets_calm _ 1 _))

/-- AllOff that is taken (R157). -/
theorem allOff_ends {s : State} (fits : s.Fits) : let t := State.publish s (s.taken.courtesyEnds.darkens.answer 10 1)
    Lit s t ∧ t.view = s.view ∧ t.shows 10 1
      ∧ t.lights.courtesy = false ∧ t.lights.countdown = none ∧ t.lights.due = .none
      ∧ (∀ id : Fin 7, id.val < 5 → (s.claim id).st ≠ .waiting → t.claim id = s.claim id)
      ∧ ∀ g, (t.group g).pending = none
          ∧ ((∀ k, (s.light (groupChan g k)).level = 0) → (t.claim (loadLights g)).st = .idle)
          ∧ ∀ k, let l := s.light (groupChan g k)
            let x := t.light (groupChan g k)
            x.target = 0 ∧ (l.level = 0 → x.level = 0 ∧ x.fading = false)
              ∧ (0 < s.seq.values.get 38 → x.level = l.level ∧ (x.fading = true ↔ 0 < l.level)) := by
  have opens := ended_opens fits
  have dark := darkens_dark fits
  obtain ⟨courtesy, countdown, due⟩ := darkens_courtesy fits
  have lit := darkens_lit s.taken.courtesyEnds
  have stirs := fun id low => (darkens_tends s.taken.courtesyEnds.status.serial s.taken.courtesyEnds).low opens.start.sane.ok (opens.start.within fits.requests) id low
  have calm := darkens_calm s.taken.courtesyEnds
  generalize s.taken.courtesyEnds = w at *
  generalize w.darkens = u at *
  dsimp only at dark ⊢
  have lit : Lit w (u.answer 10 1) := lit.trans (rfl : Lit u (u.answer 10 1))
  obtain ⟨lit, view, claims, posted⟩ := opens.start.lights_end (u := u.answer 10 1) fits s (calm.trans (answer_calm u 10 1)) lit stirs
  have shown : (State.publish s (u.answer 10 1)).shows 10 1 := by
    unfold State.shows
    rw [posted.status]
    exact ⟨rfl, rfl⟩
  have lights : (State.publish s (u.answer 10 1)).lights = u.lights := posted.lights
  have claim : ∀ id, (State.publish s (u.answer 10 1)).claim id = u.claim id := posted.claim
  generalize State.publish s (u.answer 10 1) = t at *
  refine ⟨opens.lit.trans lit, view, shown, by rw [lights, courtesy], by rw [lights, countdown], by rw [lights, due], claims, fun g => ?_⟩
  obtain ⟨none, aims, idle⟩ := dark g
  refine ⟨by rw [State.group, lights]; exact none, fun all => by rw [claim]; exact idle all, fun k => ?_⟩
  obtain ⟨-, channels, -⟩ := fits.lights
  obtain ⟨-, -, -, -, rests, -, fades, -⟩ := channels (groupChan g k)
  obtain ⟨target, out, goes⟩ := retarget_dark (Item.fadeMs s.seq.values) (s.light (groupChan g k))
  have light : t.light (groupChan g k) = u.light (groupChan g k) := light_congr (by rw [lights]) _
  rw [light, aims]
  refine ⟨target, fun zero => out zero ?_, fun slow => goes slow rests fun fading => (fades fading).2.1⟩
  cases fading : (s.light (groupChan g k)).fading with
  | false => exact .inl rfl
  | true => exact .inr fun dark => (fades fading).2.1 (by rw [zero, dark])

end Sys2Proof.Machine

namespace Sys2Proof.Proofs
open Sys2Proof.Machine

/-- Settles O59: a change is worked out once the group's pending request has been abandoned. -/
theorem lightLevels : Obligations.LightLevels := by
  unfold Obligations.LightLevels
  intro s i v fits
  have quiet := fits.sound.quiet.1
  refine ⟨fun asks => ?_, fun asks => ?_⟩
  · have arm : exec .setLevel s = .next (State.publish s (s.taken.setLevelRequest i v)) := by
      show done s (s.onRequest 7 State.setLevelRequest) = _
      rw [onRequest_asks asks]
      rfl
    refine ⟨_, arm, fun absent => ?_, fun has phase => ?_, fun has phase out => ?_, fun has phase within storage => ?_,
      fun ch has phase own storage => ?_⟩
    · rw [setLevelRequest_refused (s := s.taken) v (lightRefusal_absent (s := s.taken) absent false) fun _ => lightRefusal_absent (s := s.taken) absent true]
      exact publish_handedOver s _ quiet
    · rw [setLevelRequest_refused (s := s.taken) v (lightRefusal_phase (s := s.taken) has phase false) fun _ => lightRefusal_phase (s := s.taken) has phase true]
      exact publish_handedOver s _ quiet
    · rw [setLevelRequest_out (s := s.taken) v has phase out]
      exact publish_handedOver s _ quiet
    · rw [setLevelRequest_stored (s := s.taken) v has phase within storage]
      exact publish_handedOver s _ quiet
    rw [setLevelRequest_takes (s := s.taken) v has phase own storage, takeLevel_eq]
    have opens := level_opens fits ch
    have courtesy : (if Item.courtesy s.taken.seq.values = some ch then s.taken.courtesyEnds else s.taken).lights.courtesy
        = (s.lights.courtesy && !(Item.courtesy s.seq.values == some ch)) := by
      by_cases named : Item.courtesy s.taken.seq.values = some ch
      · rw [if_pos named, show Item.courtesy s.seq.values = some ch from named]
        simp [State.courtesyEnds, State.setLights]
      · rw [if_neg named, beq_eq_false_iff_ne.mpr (show Item.courtesy s.seq.values ≠ some ch from named)]
        exact (Bool.and_true _).symm
    generalize (if Item.courtesy s.taken.seq.values = some ch then s.taken.courtesyEnds else s.taken) = w at opens courtesy ⊢
    dsimp only
    generalize hx : min (max 0 (min v 1000)).toNat s.lights.ceiling = x
    have wants : ∀ k, (fun o : Fin 8 => if o = ch then x else (s.light o).target) (groupChan (groupOf ch) k)
        = min ((s.taken.levelTargets ch v).get k) s.lights.ceiling := by
      intro k
      obtain ⟨-, lights, -⟩ := fits.lights
      obtain ⟨-, -, under, -⟩ := lights (groupChan (groupOf ch) k)
      refine Eq.trans ?_ (congrArg (min · _) (get_fin4 (fun k => if groupChan (groupOf ch) k = ch then clampLevel v
        else (s.light (groupChan (groupOf ch) k)).target) k).symm)
      dsimp only
      split
      · exact hx.symm
      · exact (min_eq_left under).symm
    generalize s.taken.levelTargets ch v = targets at wants
    obtain ⟨lit, view, claims, posted⟩ := opens.start.lights_end fits s (levelled_calm _ _) (levelled_lit _ _)
      (levelled_stirs opens fits (groupOf ch) targets)
    have confined := levelled_confined opens fits (groupOf ch) targets
    have shows := levelled_shows opens fits (groupOf ch) targets
    have rests := levelled_rests opens fits (groupOf ch) targets
    have takes := regroups_takes opens fits (want := fun o => if o = ch then x else (s.light o).target) wants
    have contests := regroups_contests opens fits (want := fun o => if o = ch then x else (s.light o).target) wants
    have scales := regroups_scales opens fits (want := fun o => if o = ch then x else (s.light o).target) wants
    have within := (regroups_confined opens fits (groupOf ch) targets).light
    generalize hu : w.regroups (groupOf ch) targets = u at *
    generalize hd : w.levelled (groupOf ch) targets = d at *
    generalize State.publish s d = t at *
    have group : s.lights.due = .none ∨ (u.group (groupOf ch)).pending.isSome = true → t.lights = u.lights ∧ ∀ id, t.claim id = u.claim id := by
      intro h
      rw [posted.lights, rests h]
      exact ⟨rfl, fun id => by rw [posted.claim, rests h]; rfl⟩
    have shown : t.shows 7 (if (u.group (groupOf ch)).pending.isSome = true then 2 else 1) := by
      unfold State.shows
      rw [posted.status]
      exact shows
    have chanOf : ∀ o, groupOf o = groupOf ch → ∃ k, groupChan (groupOf ch) k = o := fun o e => by
      obtain ⟨k, eq⟩ := groupChan_surjective o
      exact ⟨k, by rw [← e]; exact eq⟩
    refine ⟨opens.lit.trans lit, view, fun o ne => ?_, claims, ?_, fun pending => ?_, fun due covers => ?_, fun more passes low => ?_,
      fun due more fails low => ?_⟩
    · rw [posted.light, confined.light o ne, opens.light]
    · rw [posted.lights, confined.courtesy, courtesy]
    · have own := abandonRequest_abandoned fits.sound.ok (fits.serves (groupOf ch)) fun none => fits.settledClaim none
      exact ⟨own.none, own.lit.calm, own.held, own.stands, own.ends⟩
    · obtain ⟨none, calm, light⟩ := takes covers
      obtain ⟨lights, claim⟩ := group (.inl due)
      have lightT : ∀ o, t.light o = u.light o := light_congr (by rw [lights])
      have aimed : t.light ch = (s.light ch).retarget (Item.fadeMs s.seq.values) x := by
        have it := light ⟨ch.val % 4, Nat.mod_lt _ (by decide)⟩
        rw [groupChan_mod] at it
        rw [lightT, it, if_pos rfl]
      refine ⟨?_, ?_, ?_, ?_, fun o ne => ?_, fun same => ?_, fun moves there => ?_, fun moves away slow => ?_⟩
      · rw [none] at shown
        exact shown
      · rw [aimed, retarget_target]
      · rw [State.group, lights]
        exact none
      · rw [claim]
        exact calm
      · by_cases e : groupOf o = groupOf ch
        · obtain ⟨k, rfl⟩ := chanOf o e
          rw [lightT, light, if_neg ne, retarget_same _ _ rfl]
        · rw [lightT, within o e, opens.light]
      · rw [aimed, retarget_same _ _ same]
      · rw [aimed]
        exact retarget_still moves there
      · rw [aimed]
        exact retarget_fades moves away slow
    · obtain ⟨contesting, held, asked, light, r, pending, want, trial, scale⟩ := contests low more passes
      obtain ⟨lights, claim⟩ := group (.inr (by rw [pending]; rfl))
      rw [pending] at shown
      refine ⟨shown, fun o => ?_, by rw [claim]; exact contesting, by rw [claim]; exact asked, by rw [claim]; exact held, r, ?_, ?_, trial, scale⟩
      · rw [← light]
        exact light_congr (by rw [lights]) o
      · rw [State.group, lights]
        exact pending
      · rw [want, groupChan_mod]
        exact if_pos rfl
    · obtain ⟨lights, claim⟩ := group (.inl due)
      have own : (t.group (groupOf ch)) = u.group (groupOf ch) := by
        rw [State.group, lights]
        rfl
      rw [own]
      exact ⟨scalesDown_congr (Weighs.refl _ _) rfl rfl (claim _) lights (scales low more fails), shown⟩
  · have met := request_answered asks quiet (·.lights) (fun u _ _ => u.takeAllOff)
    obtain ⟨t, arm, absent, early, taken⟩ := met
    refine ⟨t, arm, absent, early, fun has phase => ?_⟩
    rw [taken has phase, takeAllOff_eq]
    exact allOff_ends fits

end Sys2Proof.Proofs
end

