-- ==== Sys2Proof/Proofs/NeedDue.lean ====
section
/-! PROOFS. A need for protection falls due on a channel (R138, R139). -/

namespace Sys2Proof.Machine

/-! ### A need for protection falls due on a channel (R138, R139) -/

/-- The claim that goes on at rank 0, where it is Held. -/
def Claim.atZero (c : Claim) : Claim := if c.st = .held then { c with rank := 0 } else c

theorem Claim.atZero_held {c : Claim} (h : c.st = .held) : c.atZero = { c with rank := 0 } := if_pos h

/-- What a need leaves of the claim that a channel keeps. -/
theorem Claim.atZero_keeps (c : Claim) : c.atZero.st = c.st ∧ c.atZero.held = c.held ∧ (c.st = .held → c.atZero.rank = 0) := by
  unfold Claim.atZero
  split
  · exact ⟨rfl, rfl, fun _ => rfl⟩
  · next not => exact ⟨rfl, rfl, fun held => absurd held not⟩

theorem rerank0_claim {s : State} {id : Fin 7} (not : (s.claim id).st ≠ .waiting) :
    (s.rerank id 0).1.claim id = (s.claim id).atZero := by
  unfold Claim.atZero
  split
  · next held => exact rerank_held_claim 0 held
  · next unheld => rw [rerank_refused 0 not unheld]

theorem rerank0_hushed (s : State) (id : Fin 7) : Hushed s (s.rerank id 0).1 := (rerank_asks s id 0 (by decide)).hushed

theorem replacedByNeed_ok {s : State} (o : s.Ok) (ch : Fin 2) : (s.replacedByNeed ch).Ok := (reviseOutcome_calm s _ _ o).1

theorem replacedByNeed_shows {s : State} {ch : Fin 2} (some : (s.chan ch).req ≠ 0) (last : (s.chan ch).req = s.status.serial) :
    (s.replacedByNeed ch).status.outcome = s.needOutcome := by
  unfold State.replacedByNeed State.reviseOutcome
  split
  · rfl
  · next not => exact absurd (by rw [Bool.and_eq_true, bne_iff_ne, beq_iff_eq]; exact ⟨some, last⟩) not

theorem replacedByNeed_either (s : State) (ch : Fin 2) : (s.replacedByNeed ch).status.outcome = s.status.outcome
    ∨ (s.replacedByNeed ch).status.outcome = s.needOutcome := by
  unfold State.replacedByNeed State.reviseOutcome
  split
  · exact .inr rfl
  · exact .inl rfl

/-- What a need has done to a channel, its claim and the outcome shown: either nothing that is pending is replaced, or what
a need shows is shown for it. -/
structure Met (s : State) (ch : Fin 2) (c : Chan) (d : Claim) (replaces : Bool) (t : State) : Prop where
  chan : t.chan ch = c
  claim : t.claim (loadMotor ch) = d
  outcome : t.status.outcome = if replaces = true then (s.replacedByNeed ch).status.outcome else s.status.outcome

section
variable {s : State} {ch : Fin 2} (o : s.Ok) (runs : s.motionRuns = true)
include runs

theorem needDue_cases : s.needDue ch = (let c := s.chan ch
    match c.st with
    | .retracted => s.extendMeetsNeed ch
    | .extending => ((s.brake ch .protective 0 true).rerank (loadMotor ch) 0).1
    | .retracting =>
      let s := s.replacedByNeed ch
      ((s.modChan ch fun c => { c with protective := true, pending := .none, req := 0 }).rerank (loadMotor ch) 0).1
    | .backoff =>
      let s := (s.replacedByNeed ch).modChan ch fun c => { c with pending := .none, req := 0 }
      ((s.rerank (loadMotor ch) 0).1).backoffRetracts ch true
    | .braking =>
      match c.followOn with
      | .settleFault => s
      | .backoff | .protective => (s.rerank (loadMotor ch) 0).1
      | _ =>
        let s := s.replacedByNeed ch
        ((s.modChan ch fun c => { c with followOn := .protective, pending := .none, req := 0 }).rerank
          (loadMotor ch) 0).1
    | st =>
      if st = .unknown ∧ s.pins.er.get ch then s.extendMeetsNeed ch
      else if c.pending = .protective then s
      else s.pendProtective ch) := by
  unfold State.needDue
  exact if_neg (by simp [runs])

include o

/-- An Extending channel brakes for a protective retract. -/
theorem needDue_extending (st : (s.chan ch).st = .extending) (held : (s.claim (loadMotor ch)).st = .held) :
    Met s ch ((s.chan ch).braked .protective 0) (s.claim (loadMotor ch)).atZero false (s.needDue ch) := by
  have eq : s.needDue ch = ((s.brake ch .protective 0 true).rerank (loadMotor ch) 0).1 := by
    rw [needDue_cases runs]
    dsimp only
    rw [st]
  have claim := brake_keeps (f := .protective) (req := 0) o rfl rfl held
  obtain ⟨ok, status⟩ := brake_hushed s ch .protective 0 true o
  have puts := brake_puts s ch .protective 0 true
  rw [eq]
  refine ⟨(puts.still (rerank_shared _ _ _).motion).chan, ?_, ?_⟩
  · rw [rerank0_claim (by rw [claim, held]; nofun), claim]
  · rw [(rerank0_hushed _ _ ok).2, status]
    rfl

omit runs in
/-- A requested move that a need replaces is shown so, and no more (R129). -/
theorem replacedByNeed_rest : let u := s.replacedByNeed ch
    u.Ok ∧ (∀ o, u.chan o = s.chan o) ∧ (∀ id, u.claim id = s.claim id) ∧ u.seq = s.seq ∧ u.pins = s.pins := by
  have shared := reviseOutcome_shared s (s.chan ch).req s.needOutcome
  exact ⟨replacedByNeed_ok o ch, fun o => chan_of_motion shared.motion o, fun id => reviseOutcome_claim s _ _ id, shared.seq, shared.pins⟩

omit runs in
/-- The state in which a need has replaced what was pending or followed on. -/
theorem modChan_replaced (f : Chan → Chan) : let u := (s.replacedByNeed ch).modChan ch f
    u.Ok ∧ u.chan ch = f (s.chan ch) ∧ (∀ id, u.claim id = s.claim id) ∧ u.status = (s.replacedByNeed ch).status
      ∧ u.seq = s.seq ∧ u.pins = s.pins := by
  obtain ⟨ok, chan, claim, seq, pins⟩ := replacedByNeed_rest o (ch := ch)
  generalize s.replacedByNeed ch = u at *
  refine ⟨setChan_ok ok ch _, ?_, claim, rfl, seq, pins⟩
  show (u.setChan ch _).chan ch = _
  rw [chan_setChan_self, chan]

theorem needDue_retracting (st : (s.chan ch).st = .retracting) (not : (s.claim (loadMotor ch)).st ≠ .waiting) :
    Met s ch { s.chan ch with protective := true, pending := .none, req := 0 } (s.claim (loadMotor ch)).atZero true (s.needDue ch) := by
  have eq : s.needDue ch = (((s.replacedByNeed ch).modChan ch fun c => { c with
      protective := true, pending := .none, req := 0 }).rerank (loadMotor ch) 0).1 := by
    rw [needDue_cases runs]
    dsimp only
    rw [st]
  obtain ⟨ok, chan, claim, status, -⟩ := modChan_replaced o (ch := ch) fun c => { c with protective := true, pending := .none, req := 0 }
  rw [eq]
  generalize (s.replacedByNeed ch).modChan ch _ = u at *
  refine ⟨?_, ?_, ?_⟩
  · rw [chan_of_motion (rerank_shared _ _ _).motion, chan]
  · rw [rerank0_claim (by rw [claim]; exact not), claim]
  · rw [(rerank0_hushed _ _ ok).2, status]
    rfl

theorem needDue_backoff (st : (s.chan ch).st = .backoff) (not : (s.claim (loadMotor ch)).st ≠ .waiting) :
    Met s ch { s.chan ch with
      st := .retracting, backoff := none, travel := some (Item.travelMs s.seq.values ch), protective := true
      pending := .none, req := 0 } (s.claim (loadMotor ch)).atZero true (s.needDue ch) := by
  have eq : s.needDue ch = ((((s.replacedByNeed ch).modChan ch fun c => { c with pending := .none, req := 0 }).rerank
      (loadMotor ch) 0).1).backoffRetracts ch true := by
    rw [needDue_cases runs]
    dsimp only
    rw [st]
  obtain ⟨ok, chan, claim, status, seq, -⟩ := modChan_replaced o (ch := ch) fun c => { c with pending := .none, req := 0 }
  rw [eq]
  generalize (s.replacedByNeed ch).modChan ch _ = u at *
  have chanW := (chan_of_motion (rerank_shared u (loadMotor ch) 0).motion ch).trans chan
  have claimW := rerank0_claim (s := u) (id := loadMotor ch) (by rw [claim]; exact not)
  obtain ⟨okW, statusW⟩ := rerank0_hushed u (loadMotor ch) ok
  have seqW := (rerank_shared u (loadMotor ch) 0).seq.trans seq
  rw [claim] at claimW
  generalize (u.rerank (loadMotor ch) 0).1 = w at *
  generalize hx : w.setChan ch { w.chan ch with
    st := .retracting, backoff := none, travel := some (Item.travelMs w.seq.values ch), protective := true } = x
  have seen : w.backoffRetracts ch true = x.stepSeen ch := by rw [← hx]; rfl
  have okX : x.Ok := hx ▸ setChan_ok okW ch _
  have claimX : x.claim (loadMotor ch) = (s.claim (loadMotor ch)).atZero := by rw [← claimW, ← hx]; rfl
  rw [seen]
  refine ⟨?_, ?_, ?_⟩
  · rw [chan_of_motion (stepSeen_motion x ch), ← hx, chan_setChan_self, chanW, seqW]
  · rw [stepSeen_claim okX ch (motor_low ch) (by rw [claimX, (Claim.atZero_keeps _).1]; exact not), claimX]
  · rw [(stepSeen_hushed x ch okX).2, ← hx]
    show w.status.outcome = _
    rw [statusW, status]
    rfl

section
variable (st : (s.chan ch).st = .braking)
include st

omit o in
theorem needDue_settles (follow : (s.chan ch).followOn = .settleFault) : s.needDue ch = s := by
  rw [needDue_cases runs]
  dsimp only
  rw [st]
  dsimp only
  rw [follow]

theorem needDue_kept (follow : (s.chan ch).followOn = .backoff ∨ (s.chan ch).followOn = .protective)
    (not : (s.claim (loadMotor ch)).st ≠ .waiting) :
    Met s ch (s.chan ch) (s.claim (loadMotor ch)).atZero false (s.needDue ch) := by
  have eq : s.needDue ch = (s.rerank (loadMotor ch) 0).1 := by
    rw [needDue_cases runs]
    dsimp only
    rw [st]
    dsimp only
    rcases follow with follow | follow <;> rw [follow]
  rw [eq]
  exact ⟨chan_of_motion (rerank_shared _ _ _).motion ch, rerank0_claim not, congrArg Status.outcome (rerank0_hushed _ _ o).2⟩

theorem needDue_follows (follow : (s.chan ch).followOn = .none ∨ (s.chan ch).followOn = .extend ∨ (s.chan ch).followOn = .retract)
    (not : (s.claim (loadMotor ch)).st ≠ .waiting) :
    Met s ch { s.chan ch with followOn := .protective, pending := .none, req := 0 } (s.claim (loadMotor ch)).atZero true
      (s.needDue ch) := by
  have eq : s.needDue ch = (((s.replacedByNeed ch).modChan ch fun c => { c with
      followOn := .protective, pending := .none, req := 0 }).rerank (loadMotor ch) 0).1 := by
    generalize taken : (((s.replacedByNeed ch).modChan ch fun c => { c with
      followOn := .protective, pending := .none, req := 0 }).rerank (loadMotor ch) 0).1 = r
    rw [needDue_cases runs]
    dsimp only
    rw [st]
    rcases follow with follow | follow | follow
    · rw [follow]; exact taken
    · rw [follow]; exact taken
    · rw [follow]; exact taken
  obtain ⟨ok, chan, claim, status, -⟩ := modChan_replaced o (ch := ch) fun c => { c with
    followOn := .protective, pending := .none, req := 0 }
  rw [eq]
  generalize (s.replacedByNeed ch).modChan ch _ = u at *
  refine ⟨?_, ?_, ?_⟩
  · rw [chan_of_motion (rerank_shared _ _ _).motion, chan]
  · rw [rerank0_claim (by rw [claim]; exact not), claim]
  · rw [(rerank0_hushed _ _ ok).2, status]
    rfl

end

/-! ### A channel at rest -/

/-- At home, where a retract has nothing to do, an Extend that is pending ends. -/
def State.atHome (s : State) (ch : Fin 2) : Prop :=
  (s.chan ch).st = .retracted ∨ (s.chan ch).st = .unknown ∧ s.pins.er.get ch = true

omit o in
theorem needDue_home (home : s.atHome ch) : s.needDue ch = s.extendMeetsNeed ch := by
  rw [needDue_cases runs]
  dsimp only
  rcases home with st | ⟨st, er⟩
  · rw [st]
  · rw [st]
    dsimp only
    rw [if_pos ⟨rfl, er⟩]

omit o in
theorem needDue_rest (rest : (s.chan ch).atRest = true) (away : ¬ s.atHome ch) :
    s.needDue ch = if (s.chan ch).pending = .protective then s else s.pendProtective ch := by
  rw [needDue_cases runs]
  dsimp only
  unfold State.atHome at away
  cases st : (s.chan ch).st with
  | unknown =>
    dsimp only
    rw [if_neg (by rintro ⟨-, er⟩; exact away (.inr ⟨st, er⟩))]
  | retracted => exact absurd (.inl st) away
  | extended => rfl
  | midway => rfl
  | fault => rfl
  | extending => simp [Chan.atRest, st] at rest
  | retracting => simp [Chan.atRest, st] at rest
  | backoff => simp [Chan.atRest, st] at rest
  | braking => simp [Chan.atRest, st] at rest

omit runs in
theorem endPending_ended (out : Nat) :
    (s.endPending ch out).chan ch = { s.chan ch with
      pending := .none, req := 0, idle := if (s.chan ch).atRest && !(s.chan ch).calibrating then some Config.idleMs else (s.chan ch).idle }
    ∧ ((s.endPending ch out).claim (loadMotor ch)).st = .idle
    ∧ (s.endPending ch out).status = (s.reviseOutcome (s.chan ch).req out).status := by
  unfold State.endPending State.dropPending
  dsimp only
  have ok := setChan_ok o ch { s.chan ch with
      pending := .none, req := 0, idle := if (s.chan ch).atRest && !(s.chan ch).calibrating then some Config.idleMs else (s.chan ch).idle }
  generalize hu : s.modChan ch _ = u
  have same : s.setChan ch { s.chan ch with
      pending := .none, req := 0, idle := if (s.chan ch).atRest && !(s.chan ch).calibrating then some Config.idleMs else (s.chan ch).idle } = u := hu
  rw [same] at ok
  have idle := release_idle ok (loadMotor ch)
  have motion := (release_shared u (loadMotor ch)).motion
  have status := (release_asks u (loadMotor ch) ok).2.status
  generalize u.release (loadMotor ch) = w at *
  have shared := reviseOutcome_shared w (s.chan ch).req out
  refine ⟨?_, ?_, ?_⟩
  · rw [chan_of_motion shared.motion, chan_of_motion motion, ← same, chan_setChan_self]
  · rw [reviseOutcome_claim]
    exact idle
  · exact reviseOutcome_congr (status.trans (by rw [← hu]; rfl)) _ _

omit runs in
/-- What keeps the Protective move back leaves it pending with no claim. -/
theorem pendProtective_waits (rest : (s.chan ch).atRest = true)
    (kept : s.pins.hold = true ∨ (s.chan ch).calTimer.isSome = true) :
    ∃ d, d.st = .idle ∧ Met s ch { s.chan ch with pending := .protective, req := 0, idle := none } d true (s.pendProtective ch) := by
  obtain ⟨ok, chanN, -, -, pinsN⟩ := replacedByNeed_rest o (ch := ch)
  unfold State.pendProtective
  dsimp only
  generalize hN : s.replacedByNeed ch = u at *
  have back : (u.pins.hold || (u.chan ch).calibrating) = true := by
    rw [pinsN, chanN]
    rcases kept with h | h <;> simp [h, Chan.calibrating]
  rw [if_pos back]
  have idle := release_idle ok (loadMotor ch)
  have shared := release_shared u (loadMotor ch)
  have status := (release_asks u (loadMotor ch) ok).2.status
  generalize u.release (loadMotor ch) = w at *
  have chanW : w.chan ch = s.chan ch := (chan_of_motion shared.motion ch).trans (chanN ch)
  generalize hx : w.setChan ch { w.chan ch with pending := .protective, req := 0, idle := none } = x
  have chanX : x.chan ch = { s.chan ch with pending := .protective, req := 0, idle := none } := by
    rw [← hx, chan_setChan_self, chanW]
  have stays : x.actOnPending ch = x := by
    cases cal : (s.chan ch).calTimer with
    | some n => exact actOnPending_rests (.inr (by rw [chanX]; simp [cal]))
    | none =>
      have hold : s.pins.hold = true := kept.resolve_right (by simp [cal])
      rw [actOnPending_protects (by rw [chanX]; exact rest) (by rw [chanX]; exact cal) (by rw [chanX])]
      exact if_pos (by rw [← hx]; exact (congrArg Pins.hold (shared.pins.trans pinsN)).trans hold)
  have taken : w.takePending ch .protective 0 = x := by
    show (w.setChan ch _).actOnPending ch = x
    rw [hx, stays]
  rw [taken]
  exact ⟨x.claim (loadMotor ch), by rw [← hx]; exact idle, chanX, rfl, by rw [← hx]; rw [if_pos rfl, hN]; exact congrArg Status.outcome status⟩

section
variable (draw : 1 ≤ Item.motionDraw s.seq.values ch ∧ Item.motionDraw s.seq.values ch ≤ 30000)
  (unforced : (s.claim (loadMotor ch)).st ≠ .forced) (rest : (s.chan ch).atRest = true)
  (free : s.pins.hold = false) (cal : (s.chan ch).calTimer = none)
include draw unforced rest free cal

/-- Where nothing keeps it back the retract starts. -/
theorem pendProtective_starts : ∃ x : State, x.Ok ∧ s.pendProtective ch = (x.claimProtective ch).startMove ch .protective
    ∧ x.chan ch = { s.chan ch with pending := .protective, req := 0, idle := none } ∧ x.status = (s.replacedByNeed ch).status
    ∧ x.seq = s.seq ∧ x.pins = s.pins ∧ x.claim (loadMotor ch) = s.claim (loadMotor ch) := by
  obtain ⟨ok, chanN, claimN, seqN, pinsN⟩ := replacedByNeed_rest o (ch := ch)
  unfold State.pendProtective
  dsimp only
  generalize s.replacedByNeed ch = u at *
  have go : ¬ (u.pins.hold || (u.chan ch).calibrating) = true := by
    rw [pinsN, chanN]
    simp [free, cal, Chan.calibrating]
  rw [if_neg go]
  generalize hx : u.setChan ch { u.chan ch with pending := .protective, req := 0, idle := none } = x
  have chanX : x.chan ch = { s.chan ch with pending := .protective, req := 0, idle := none } := by
    rw [← hx, chan_setChan_self, chanN]
  have claimX : x.claim (loadMotor ch) = s.claim (loadMotor ch) := by rw [← claimN, ← hx]; rfl
  have seqX : x.seq = s.seq := by rw [← seqN, ← hx]; rfl
  have pinsX : x.pins = s.pins := by rw [← pinsN, ← hx]; rfl
  have okX : x.Ok := hx ▸ setChan_ok ok ch _
  have homes := actOnPending_homes okX (ch := ch) (by rw [seqX]; exact draw) (by rw [claimX]; exact unforced)
    ((motionRuns_of_seq seqX).trans runs) (by rw [chanX]; exact rest) (by rw [chanX]; exact cal) (by rw [chanX])
    (by rw [pinsX]; exact free)
  refine ⟨x, okX, ?_, chanX, by rw [← hx]; rfl, seqX, pinsX, claimX⟩
  show (u.setChan ch _).actOnPending ch = _
  rw [hx, homes]

theorem pendProtective_homes (away : s.pins.er.get ch = false) :
    ∃ stall d, d.st = .held ∧ d.rank = 0 ∧ Met s ch (({ s.chan ch with pending := .protective, req := 0, idle := none } : Chan).started
      .protective (Item.travelMs s.seq.values ch) stall) d true (s.pendProtective ch) := by
  obtain ⟨x, ok, eq, chan, status, seq, pins, claim⟩ := pendProtective_starts o runs draw unforced rest free cal
  obtain ⟨⟨stall, puts⟩, held, zero, shown⟩ := startsHome_homing ok (ch := ch) (by rw [seq]; exact draw) (by rw [claim]; exact unforced)
    (by rw [pins]; exact away)
  have put := puts.chan
  rw [chan, seq] at put
  refine ⟨stall, _, held, zero, by rw [eq]; exact put, by rw [eq], ?_⟩
  rw [eq, shown, chan, ← status]
  rfl

theorem pendProtective_arrives (home : s.pins.er.get ch = true) : let t := s.pendProtective ch
    (t.claim (loadMotor ch)).st = .idle ∧ (t.chan ch).st = .braking ∧ (t.chan ch).bridge = .short ∧ (t.chan ch).followOn = .none
      ∧ (t.chan ch).pending = .none ∧ t.status.outcome = (s.replacedByNeed ch).status.outcome := by
  obtain ⟨x, ok, eq, chan, status, seq, pins, claim⟩ := pendProtective_starts o runs draw unforced rest free cal
  have arrived := startsHome_arrives ok (ch := ch) (by rw [seq]; exact draw) (by rw [claim]; exact unforced)
    (by rw [pins]; exact home)
  dsimp only at arrived ⊢
  rw [chan] at arrived
  rw [eq, ← status]
  exact arrived

end

end

end Sys2Proof.Machine
end

