-- ==== Sys2Proof/Proofs/NeedMet.lean ====
section
/-! PROOFS. A need as the table of R139 has it met. -/

namespace Sys2Proof.Machine

/-! ### A need that has been met, as the table of R139 has it -/

theorem Chan.braked_eq {c : Chan} (idle : c.idle = none) (backoff : c.backoff = none) {f : Move} {req : Nat} : c.braked f req = { c with
    st := .braking, bridge := .short, pending := .none, followOn := f, protective := false, req := req
    travel := none, stall := none, dwell := some 300 } := by
  cases c
  cases idle
  cases backoff
  rfl

/-- What the station does on a channel stands in for `s` when a need falls due on it: `u` is the state in which it falls due
and `t` the one that the command ends in. -/
structure NeedFalls (s u t : State) (ch : Fin 2) : Prop where
  ok : u.Ok
  runs : u.motionRuns = true
  order : ChanOrder true (s.chan ch) (s.claim (loadMotor ch)).st
  unforced : (s.claim (loadMotor ch)).st ≠ .forced
  draw : 1 ≤ Item.motionDraw s.seq.values ch ∧ Item.motionDraw s.seq.values ch ≤ 30000
  chan : u.chan ch = s.chan ch
  claim : (s.claim (loadMotor ch)).stirs (u.claim (loadMotor ch))
  pins : u.pins = s.pins
  values : u.seq.values = s.seq.values
  serial : u.status.serial = s.status.serial
  chanT : t.chan ch = (u.needDue ch).chan ch
  claimT : ((u.needDue ch).claim (loadMotor ch)).stirs (t.claim (loadMotor ch))
  shown : t.status.outcome = (u.needDue ch).status.outcome ∨ t.status.outcome = u.needOutcome
  need : u.needOutcome = if t.view.driveAccepted = true then 4 else 6

section
variable {s u t : State} {ch : Fin 2} (h : NeedFalls s u t ch)
include h

theorem NeedFalls.same (not : (s.claim (loadMotor ch)).st ≠ .waiting) : u.claim (loadMotor ch) = s.claim (loadMotor ch) :=
  Claim.stirs_same h.claim not

theorem NeedFalls.met {c : Chan} {d : Claim} {r : Bool} (m : Met u ch c d r (u.needDue ch)) (not : d.st ≠ .waiting) :
    t.claim (loadMotor ch) = d ∧ t.chan ch = c := by
  have same := Claim.stirs_same h.claimT (by rw [m.claim]; exact not)
  exact ⟨same.trans m.claim, h.chanT.trans m.chan⟩

/-- A claim that a channel keeps goes on, at rank 0 where it is Held. -/
theorem NeedFalls.keeps {c : Chan} {r : Bool} (not : (s.claim (loadMotor ch)).st ≠ .waiting)
    (m : Met u ch c (u.claim (loadMotor ch)).atZero r (u.needDue ch)) :
    ((t.claim (loadMotor ch)).st = (s.claim (loadMotor ch)).st ∧ (t.claim (loadMotor ch)).held = (s.claim (loadMotor ch)).held
      ∧ ((s.claim (loadMotor ch)).st = .held → (t.claim (loadMotor ch)).rank = 0)) ∧ t.chan ch = c := by
  rw [h.same not] at m
  obtain ⟨claim, chan⟩ := h.met m (by rw [(Claim.atZero_keeps _).1]; exact not)
  rw [claim]
  exact ⟨Claim.atZero_keeps _, chan⟩

theorem NeedFalls.moving (moving : (s.chan ch).moving = true) : (s.claim (loadMotor ch)).st = .held := h.order.held (.inl moving)

theorem NeedFalls.braking (st : (s.chan ch).st = .braking) : (s.claim (loadMotor ch)).st ≠ .waiting := by
  rcases h.order.kept st with k | ⟨-, k⟩ <;> rw [k] <;> nofun

theorem NeedFalls.home_iff : u.atHome ch ↔ (s.chan ch).st = .retracted ∨ (s.chan ch).st = .unknown ∧ s.pins.er.get ch = true := by
  unfold State.atHome
  rw [h.chan, h.pins]

/-- A state's outcome after a need that replaces a request shows what the need shows. -/
theorem NeedFalls.shows {c : Chan} {d : Claim} (m : Met u ch c d true (u.needDue ch)) (some : (s.chan ch).req ≠ 0)
    (last : (s.chan ch).req = s.status.serial) : t.status.outcome = if t.view.driveAccepted = true then 4 else 6 := by
  have replaced := replacedByNeed_shows (s := u) (ch := ch) (by rw [h.chan]; exact some) (by rw [h.chan, h.serial]; exact last)
  rw [← h.need]
  rcases h.shown with e | e
  · rw [e, m.outcome, if_pos rfl, replaced]
  · exact e

end

section
variable {s u t : State} {ch : Fin 2} (h : NeedFalls s u t ch)
include h

theorem NeedFalls.extending (st : (s.chan ch).st = .extending) :
    Met u ch ((s.chan ch).braked .protective 0) (u.claim (loadMotor ch)).atZero false (u.needDue ch) := by
  have held := h.moving (by simp [Chan.moving, st])
  have met := needDue_extending (ch := ch) h.ok h.runs (by rw [h.chan]; exact st) (by rw [h.same (by rw [held]; nofun)]; exact held)
  rwa [h.chan] at met

theorem NeedFalls.retracting (st : (s.chan ch).st = .retracting) :
    Met u ch { s.chan ch with protective := true, pending := .none, req := 0 } (u.claim (loadMotor ch)).atZero true (u.needDue ch) := by
  have held := h.moving (by simp [Chan.moving, st])
  have met := needDue_retracting (ch := ch) h.ok h.runs (by rw [h.chan]; exact st) (by rw [h.same (by rw [held]; nofun), held]; nofun)
  rwa [h.chan] at met

theorem NeedFalls.backoff (st : (s.chan ch).st = .backoff) : Met u ch { s.chan ch with
    st := .retracting, backoff := none, travel := some (Item.travelMs s.seq.values ch), protective := true
    pending := .none, req := 0 } (u.claim (loadMotor ch)).atZero true (u.needDue ch) := by
  have held := h.moving (by simp [Chan.moving, st])
  have met := needDue_backoff (ch := ch) h.ok h.runs (by rw [h.chan]; exact st) (by rw [h.same (by rw [held]; nofun), held]; nofun)
  rwa [h.chan, h.values] at met

theorem NeedFalls.follows (st : (s.chan ch).st = .braking)
    (follow : (s.chan ch).followOn = .none ∨ (s.chan ch).followOn = .extend ∨ (s.chan ch).followOn = .retract) :
    Met u ch { s.chan ch with followOn := .protective, pending := .none, req := 0 } (u.claim (loadMotor ch)).atZero true (u.needDue ch) := by
  have not := h.braking st
  have met := needDue_follows (ch := ch) h.ok h.runs (by rw [h.chan]; exact st) (by rw [h.chan]; exact follow) (by rw [h.same not]; exact not)
  rwa [h.chan] at met

theorem NeedFalls.kept (st : (s.chan ch).st = .braking) (follow : (s.chan ch).followOn = .backoff ∨ (s.chan ch).followOn = .protective) :
    Met u ch (s.chan ch) (u.claim (loadMotor ch)).atZero false (u.needDue ch) := by
  have not := h.braking st
  have met := needDue_kept (ch := ch) h.ok h.runs (by rw [h.chan]; exact st) (by rw [h.chan]; exact follow) (by rw [h.same not]; exact not)
  rwa [h.chan] at met

/-- An Extend that is pending at home ends. -/
theorem NeedFalls.ends (home : u.atHome ch) (pending : (s.chan ch).pending = .extend) : ∃ c d, c.st = (s.chan ch).st ∧ c.pending = .none
    ∧ c.followOn = (s.chan ch).followOn ∧ d.st = .idle ∧ Met u ch c d true (u.needDue ch) := by
  have eq : u.needDue ch = u.endPending ch u.needOutcome := by
    rw [needDue_home h.runs home]
    exact if_pos (by rw [h.chan]; exact pending)
  obtain ⟨chan, claim, status⟩ := endPending_ended (ch := ch) h.ok u.needOutcome
  refine ⟨_, _, ?_, ?_, ?_, claim, by rw [eq], by rw [eq], by rw [eq, status, if_pos rfl]; rfl⟩
  · rw [chan, h.chan]
  · rw [chan]
  · rw [chan, h.chan]

/-- At rest away from home. -/
theorem NeedFalls.pends (rest : (s.chan ch).atRest = true) (away : ¬ u.atHome ch) (free : (s.chan ch).pending ≠ .protective) :
    u.needDue ch = u.pendProtective ch := by
  rw [needDue_rest h.runs (by rw [h.chan]; exact rest) away]
  exact if_neg (by rw [h.chan]; exact free)

theorem NeedFalls.unforcedU : (u.claim (loadMotor ch)).st ≠ .forced := by
  rcases h.claim with e | ⟨-, e | ⟨n, e⟩⟩
  · rw [e]; exact h.unforced
  · rw [e]; nofun
  · rw [e]; nofun

theorem NeedFalls.waits (rest : (s.chan ch).atRest = true) (away : ¬ u.atHome ch) (free : (s.chan ch).pending ≠ .protective)
    (kept : s.pins.hold = true ∨ (s.chan ch).calTimer.isSome = true) :
    ∃ d, d.st = .idle ∧ Met u ch { s.chan ch with pending := .protective, req := 0, idle := none } d true (u.needDue ch) := by
  have waits := pendProtective_waits (ch := ch) h.ok (by rw [h.chan]; exact rest) (by rw [h.pins, h.chan]; exact kept)
  rwa [← h.pends rest away free, h.chan] at waits

theorem NeedFalls.homes (rest : (s.chan ch).atRest = true) (away : ¬ u.atHome ch) (free : (s.chan ch).pending ≠ .protective)
    (hold : s.pins.hold = false) (cal : (s.chan ch).calTimer = none) (stop : s.pins.er.get ch = false) :
    ∃ stall d, d.st = .held ∧ d.rank = 0 ∧ Met u ch (({ s.chan ch with pending := .protective, req := 0, idle := none } : Chan).started
      .protective (Item.travelMs s.seq.values ch) stall) d true (u.needDue ch) := by
  have homes := pendProtective_homes (ch := ch) h.ok h.runs (by rw [h.values]; exact h.draw) h.unforcedU (by rw [h.chan]; exact rest)
    (by rw [h.pins]; exact hold) (by rw [h.chan]; exact cal) (by rw [h.pins]; exact stop)
  rwa [← h.pends rest away free, h.chan, h.values] at homes

theorem NeedFalls.arrives (rest : (s.chan ch).atRest = true) (away : ¬ u.atHome ch) (free : (s.chan ch).pending ≠ .protective)
    (hold : s.pins.hold = false) (cal : (s.chan ch).calTimer = none) (stop : s.pins.er.get ch = true) :
    ∃ c d, c.st = .braking ∧ c.bridge = .short ∧ c.followOn = .none ∧ c.pending = .none ∧ d.st = .idle ∧ Met u ch c d true (u.needDue ch) := by
  have arrives := pendProtective_arrives (ch := ch) h.ok h.runs (by rw [h.values]; exact h.draw) h.unforcedU (by rw [h.chan]; exact rest)
    (by rw [h.pins]; exact hold) (by rw [h.chan]; exact cal) (by rw [h.pins]; exact stop)
  rw [← h.pends rest away free] at arrives
  obtain ⟨idle, st, bridge, follow, pending, outcome⟩ := arrives
  exact ⟨_, _, st, bridge, follow, pending, idle, rfl, rfl, outcome.trans (if_pos rfl).symm⟩

theorem NeedFalls.braked (st : (s.chan ch).st = .extending) : (s.chan ch).braked .protective 0 = { s.chan ch with
    st := .braking, bridge := .short, pending := .none, followOn := .protective, protective := false, req := 0
    travel := none, stall := none, dwell := some 300 } := by
  obtain ⟨idle, -, -⟩ := h.order.moving_timers (by simp [Chan.moving, st])
  have backoff : (s.chan ch).backoff = none := by
    have iff := h.order.backoff
    rw [st] at iff
    simpa using iff
  exact Chan.braked_eq idle backoff

/-- The request that a need replaces is shown so (R129). -/
theorem NeedFalls.replaces (out : (s.chan ch).st ≠ .extending) (waits : (s.chan ch).pending = .extend ∨ (s.chan ch).followOn = .extend) :
    ∃ c d, Met u ch c d true (u.needDue ch) := by
  have away : (s.chan ch).st ≠ .braking → (s.chan ch).pending = .extend := fun not =>
    waits.resolve_right fun follow => not (h.order.follows (by rw [follow]; nofun))
  have rested : (s.chan ch).atRest = true → ∃ c d, Met u ch c d true (u.needDue ch) := fun rest => by
    have pending := away (by intro st; simp [Chan.atRest, st] at rest)
    have free : (s.chan ch).pending ≠ .protective := by rw [pending]; nofun
    by_cases home : u.atHome ch
    · obtain ⟨c, d, -, -, -, -, met⟩ := h.ends home pending
      exact ⟨c, d, met⟩
    by_cases kept : s.pins.hold = true ∨ (s.chan ch).calTimer.isSome = true
    · obtain ⟨d, -, met⟩ := h.waits rest home free kept
      exact ⟨_, d, met⟩
    · simp only [not_or, Bool.not_eq_true, Option.isSome_eq_false_iff, Option.isNone_iff_eq_none] at kept
      cases stop : s.pins.er.get ch with
      | true =>
        obtain ⟨c, d, -, -, -, -, -, met⟩ := h.arrives rest home free kept.1 kept.2 stop
        exact ⟨c, d, met⟩
      | false =>
        obtain ⟨_, d, -, -, met⟩ := h.homes rest home free kept.1 kept.2 stop
        exact ⟨_, d, met⟩
  cases st : (s.chan ch).st with
  | extending => exact absurd st out
  | retracting => exact ⟨_, _, h.retracting st⟩
  | backoff => exact ⟨_, _, h.backoff st⟩
  | braking =>
    refine ⟨_, _, h.follows st ?_⟩
    rcases h.order.braking st with none | ⟨protective, follow⟩
    · exact .inr (.inl (waits.resolve_left (by rw [none]; nofun)))
    · exact follow.imp id .inl
  | unknown => exact rested (by simp [Chan.atRest, st])
  | retracted => exact rested (by simp [Chan.atRest, st])
  | extended => exact rested (by simp [Chan.atRest, st])
  | midway => exact rested (by simp [Chan.atRest, st])
  | fault => exact rested (by simp [Chan.atRest, st])

/-- A need is met by the row of R139 for the channel's state. -/
theorem NeedFalls.meets : s.meetsNeed t ch := by
  refine ⟨fun st => ?_, fun st => ?_, fun st => ?_, fun st => ⟨fun follow => ?_, fun follow => ?_, fun follow => ?_⟩,
    fun home => ⟨fun pending => ?_, fun pending => ?_⟩, fun rest away => ⟨fun pending => ?_, fun free kept => ?_, fun free hold cal => ?_⟩,
    fun out waits some last => ?_⟩
  · have held := h.moving (by simp [Chan.moving, st])
    have met := h.extending st
    rw [h.braked st] at met
    exact h.keeps (by rw [held]; nofun) met
  · have held := h.moving (by simp [Chan.moving, st])
    exact h.keeps (by rw [held]; nofun) (h.retracting st)
  · have held := h.moving (by simp [Chan.moving, st])
    exact h.keeps (by rw [held]; nofun) (h.backoff st)
  · have eq := needDue_settles (ch := ch) h.runs (by rw [h.chan]; exact st) (by rw [h.chan]; exact follow)
    have chan := h.chanT
    have claim := h.claimT
    rw [eq] at chan claim
    rw [h.same (h.braking st)] at claim
    exact ⟨Claim.stirs_same claim (h.braking st), chan.trans h.chan⟩
  · exact h.keeps (h.braking st) (h.kept st follow)
  · exact h.keeps (h.braking st) (h.follows st follow)
  · obtain ⟨c, d, st, none, -, idle, met⟩ := h.ends (h.home_iff.mpr home) pending
    obtain ⟨claim, chan⟩ := h.met met (by rw [idle]; nofun)
    rw [claim, chan]
    exact ⟨idle, st, none⟩
  · have eq : u.needDue ch = u := by
      rw [needDue_home h.runs (h.home_iff.mpr home)]
      exact if_neg (by rw [h.chan]; exact pending)
    have chan := h.chanT
    rw [eq] at chan
    exact chan.trans h.chan
  · have eq : u.needDue ch = u := by
      rw [needDue_rest h.runs (by rw [h.chan]; exact rest) fun home => away (h.home_iff.mp home)]
      exact if_pos (by rw [h.chan]; exact pending)
    have chan := h.chanT
    rw [eq] at chan
    exact chan.trans h.chan
  · obtain ⟨d, idle, met⟩ := h.waits rest (fun home => away (h.home_iff.mp home)) free kept
    obtain ⟨claim, chan⟩ := h.met met (by rw [idle]; nofun)
    rw [claim]
    exact ⟨idle, chan⟩
  · split
    · next stop =>
      obtain ⟨c, d, st, bridge, follow, -, idle, met⟩ := h.arrives rest (fun home => away (h.home_iff.mp home)) free hold cal stop
      obtain ⟨claim, chan⟩ := h.met met (by rw [idle]; nofun)
      rw [claim, chan]
      exact ⟨idle, st, bridge, follow⟩
    · next stop =>
      obtain ⟨stall, d, held, zero, met⟩ := h.homes rest (fun home => away (h.home_iff.mp home)) free hold cal (by simpa using stop)
      obtain ⟨claim, chan⟩ := h.met met (by rw [held]; nofun)
      rw [claim, chan]
      exact ⟨held, zero, rfl, rfl, rfl, rfl, rfl⟩
  · obtain ⟨c, d, met⟩ := h.replaces out waits
    exact h.shows met some last

/-- What a need leaves: the outcome as it was or what a need shows, and no Extend that is pending or follows on. -/
structure Cleared (u t : State) (ch : Fin 2) : Prop where
  outcome : t.status.outcome = u.status.outcome ∨ t.status.outcome = u.needOutcome
  pending : (t.chan ch).pending ≠ .extend
  follow : (t.chan ch).followOn ≠ .extend

omit h in
theorem Met.cleared {c : Chan} {d : Claim} {r : Bool} (m : Met u ch c d r (u.needDue ch)) (pending : c.pending ≠ .extend)
    (follow : c.followOn ≠ .extend) : Cleared u (u.needDue ch) ch := by
  refine ⟨?_, by rw [m.chan]; exact pending, by rw [m.chan]; exact follow⟩
  rw [m.outcome]
  split
  · exact replacedByNeed_either u ch
  · exact .inl rfl

theorem NeedFalls.stands (eq : u.needDue ch = u) (pending : (s.chan ch).pending ≠ .extend) (follow : (s.chan ch).followOn ≠ .extend) :
    Cleared u (u.needDue ch) ch := by
  rw [eq]
  exact ⟨.inl rfl, by rw [h.chan]; exact pending, by rw [h.chan]; exact follow⟩

theorem NeedFalls.cleared : Cleared u (u.needDue ch) ch := by
  have alone : (s.chan ch).st ≠ .braking → (s.chan ch).followOn ≠ .extend := fun not follow =>
    not (h.order.follows (by rw [follow]; nofun))
  have rested : (s.chan ch).atRest = true → Cleared u (u.needDue ch) ch := fun rest => by
    have follow := alone (by intro st; simp [Chan.atRest, st] at rest)
    by_cases home : u.atHome ch
    · by_cases pending : (s.chan ch).pending = .extend
      · obtain ⟨c, d, -, none, same, -, met⟩ := h.ends home pending
        exact met.cleared (by rw [none]; nofun) (by rw [same]; exact follow)
      · exact h.stands ((needDue_home h.runs home).trans (if_neg (by rw [h.chan]; exact pending))) pending follow
    by_cases free : (s.chan ch).pending = .protective
    · exact h.stands ((needDue_rest h.runs (by rw [h.chan]; exact rest) home).trans (if_pos (by rw [h.chan]; exact free)))
        (by rw [free]; nofun) follow
    by_cases kept : s.pins.hold = true ∨ (s.chan ch).calTimer.isSome = true
    · obtain ⟨d, -, met⟩ := h.waits rest home free kept
      exact met.cleared nofun follow
    · simp only [not_or, Bool.not_eq_true, Option.isSome_eq_false_iff, Option.isNone_iff_eq_none] at kept
      cases stop : s.pins.er.get ch with
      | true =>
        obtain ⟨c, d, -, -, none, pending, -, met⟩ := h.arrives rest home free kept.1 kept.2 stop
        exact met.cleared (by rw [pending]; nofun) (by rw [none]; nofun)
      | false =>
        obtain ⟨_, d, -, -, met⟩ := h.homes rest home free kept.1 kept.2 stop
        exact met.cleared nofun nofun
  cases st : (s.chan ch).st with
  | extending => exact (h.extending st).cleared nofun nofun
  | retracting => exact (h.retracting st).cleared nofun (alone (by rw [st]; nofun))
  | backoff => exact (h.backoff st).cleared nofun (alone (by rw [st]; nofun))
  | braking =>
    have pending : (s.chan ch).pending ≠ .extend := by
      rcases h.order.braking st with e | ⟨e, -⟩ <;> rw [e] <;> nofun
    cases follow : (s.chan ch).followOn with
    | none => exact (h.follows st (.inl follow)).cleared nofun nofun
    | extend => exact (h.follows st (.inr (.inl follow))).cleared nofun nofun
    | retract => exact (h.follows st (.inr (.inr follow))).cleared nofun nofun
    | protective => exact (h.kept st (.inr follow)).cleared pending (by rw [follow]; nofun)
    | backoff => exact (h.kept st (.inl follow)).cleared pending (by rw [follow]; nofun)
    | settleFault => exact h.stands (needDue_settles h.runs (by rw [h.chan]; exact st) (by rw [h.chan]; exact follow)) pending (by rw [follow]; nofun)
  | unknown => exact rested (by simp [Chan.atRest, st])
  | retracted => exact rested (by simp [Chan.atRest, st])
  | extended => exact rested (by simp [Chan.atRest, st])
  | midway => exact rested (by simp [Chan.atRest, st])
  | fault => exact rested (by simp [Chan.atRest, st])

end

end Sys2Proof.Machine
end

