-- ==== Sys2Proof/Proofs/NeedEnds.lean ====
section
/-! PROOFS. A need that has ended, and the end of Storage (R140, R187). -/

namespace Sys2Proof.Machine

/-! ### A need has ended (R138 to R140) -/

section
variable {s u t : State} {ch : Fin 2}

/-- What the end of a need leaves of a channel. -/
def State.unneeded (s : State) (ch : Fin 2) : Chan :=
  let c := s.chan ch
  { c with
    pending := if c.pending = .protective then .none else c.pending, followOn := if c.followOn = .protective then .none else c.followOn
    req := if c.pending = .protective ∨ c.followOn = .protective then 0 else c.req
    idle := if c.pending = .protective ∧ c.atRest = true ∧ c.calTimer = none then some 600000 else c.idle }

theorem needEnds_needed (h : s.needs ch = true) : s.needEnds ch = s := if_pos h

/-- A pending Protective move is dropped with its claim. -/
theorem dropPending_release (o : s.Ok) : let u := (s.dropPending ch).release (loadMotor ch)
    u.Ok ∧ (u.claim (loadMotor ch)).st = .idle ∧ u.chan ch = { s.chan ch with
      pending := .none, req := 0, idle := if (s.chan ch).atRest && !(s.chan ch).calibrating then some Config.idleMs else (s.chan ch).idle } := by
  have ok : (s.dropPending ch).Ok := setChan_ok o ch _
  have chan : (s.dropPending ch).chan ch = { s.chan ch with
      pending := .none, req := 0, idle := if (s.chan ch).atRest && !(s.chan ch).calibrating then some Config.idleMs else (s.chan ch).idle } :=
    chan_setChan_self s ch _
  generalize s.dropPending ch = v at *
  exact ⟨(release_calm v _ ok).1, release_idle ok _, (chan_of_motion (release_shared v _).motion ch).trans chan⟩

/-- A Protective follow-on is dropped with its claim. -/
theorem dropFollow_release (o : s.Ok) : let u := (s.modChan ch fun c => { c with followOn := .none, req := 0 }).release (loadMotor ch)
    (u.claim (loadMotor ch)).st = .idle ∧ u.chan ch = { s.chan ch with followOn := .none, req := 0 } := by
  have ok : (s.modChan ch fun c => { c with followOn := .none, req := 0 }).Ok := setChan_ok o ch _
  have chan : (s.modChan ch fun c => { c with followOn := .none, req := 0 }).chan ch = { s.chan ch with followOn := .none, req := 0 } :=
    chan_setChan_self s ch _
  generalize s.modChan ch _ = v at *
  exact ⟨release_idle ok _, (chan_of_motion (release_shared v _).motion ch).trans chan⟩

theorem needEnds_eq (free : s.needs ch = false) : s.needEnds ch =
    (let u := if (s.chan ch).pending = .protective then (s.dropPending ch).release (loadMotor ch) else s
    if (u.chan ch).followOn = .protective then (u.modChan ch fun c => { c with followOn := .none, req := 0 }).release (loadMotor ch)
    else u) := by
  unfold State.needEnds
  rw [if_neg (by simp [free])]

theorem needEnds_ended (o : s.Ok) (free : s.needs ch = false) : (s.needEnds ch).chan ch = s.unneeded ch
    ∧ ((s.chan ch).pending = .protective ∨ (s.chan ch).followOn = .protective → ((s.needEnds ch).claim (loadMotor ch)).st = .idle)
    ∧ ((s.chan ch).pending ≠ .protective → (s.chan ch).followOn ≠ .protective → s.needEnds ch = s) := by
  rw [needEnds_eq free]
  dsimp only
  by_cases drops : (s.chan ch).pending = .protective
  · rw [if_pos drops]
    obtain ⟨ok, idle, chan⟩ := dropPending_release (ch := ch) o
    dsimp only at ok idle chan
    generalize (s.dropPending ch).release (loadMotor ch) = v at *
    have same : (v.chan ch).followOn = (s.chan ch).followOn := by rw [chan]
    have timer : (if ((s.chan ch).atRest && !(s.chan ch).calibrating) = true then some Config.idleMs else (s.chan ch).idle)
        = if (s.chan ch).pending = .protective ∧ (s.chan ch).atRest = true ∧ (s.chan ch).calTimer = none then some 600000 else (s.chan ch).idle := by
      refine if_congr ?_ rfl rfl
      simp [drops, Chan.calibrating]
    rw [timer] at chan
    refine ⟨?_, fun _ => ?_, fun not => absurd drops not⟩
    · split
      · next off =>
        rw [same] at off
        rw [(dropFollow_release ok).2, chan]
        simp [State.unneeded, drops, off]
      · next off =>
        rw [same] at off
        rw [chan]
        simp [State.unneeded, drops, off]
    · split
      · exact (dropFollow_release ok).1
      · exact idle
  · rw [if_neg drops]
    refine ⟨?_, fun gone => ?_, fun _ stays => if_neg stays⟩
    · split
      · next off =>
        rw [(dropFollow_release o).2]
        simp [State.unneeded, drops, off]
      · next off =>
        simp [State.unneeded, drops, off]
    · rw [if_pos (gone.resolve_left drops)]
      exact (dropFollow_release o).1

/-- The end of a need, as it reaches a channel and its claim in the state the command ends in. -/
theorem needEnds_loses (o : u.Ok) (free : u.needs ch = false) (chan : u.chan ch = s.chan ch)
    (claim : (s.claim (loadMotor ch)).stirs (u.claim (loadMotor ch))) (chanT : t.chan ch = (u.needEnds ch).chan ch)
    (claimT : ((u.needEnds ch).claim (loadMotor ch)).stirs (t.claim (loadMotor ch))) : s.losesNeed t ch := by
  obtain ⟨ended, idle, same⟩ := needEnds_ended o free
  rw [chan] at idle same
  refine ⟨fun gone => ?_, fun drops off not => ?_, ?_⟩
  · have now := idle gone
    rw [Claim.stirs_same claimT (by rw [now]; nofun)]
    exact now
  · rw [same drops off] at claimT
    exact Claim.stirs_same (Claim.stirs_trans claim claimT) not
  · rw [chanT, ended]
    unfold State.unneeded
    rw [chan]

end

/-! ### The heater and the end of Storage leave Station Status -/

theorem setClimate_hushed (s : State) (x : Climate) : Hushed s (s.setClimate x) := (setClimate_calm s x).hushed rfl

theorem enterPurging_hushed (s : State) : Hushed s s.enterPurging :=
  (setClimate_hushed s _).trans (Hushed.ite (fun _ => (lower_asks _ _ _).hushed) (fun _ => Hushed.refl _))

theorem heaterYields_hushed (s : State) : Hushed s s.heaterYields := by
  unfold State.heaterYields
  split
  · exact enterPurging_hushed s
  · exact enterPurging_hushed s
  · exact enterPurging_hushed s
  · exact Hushed.refl s

theorem heaterRerank_hushed (s : State) : Hushed s s.heaterRerank := by
  unfold State.heaterRerank
  refine Hushed.ite (fun _ => ?_) (fun _ => Hushed.refl s)
  have ranked : Hushed s (s.rerank loadHeater s.heaterRank).1 := (rerank_asks s _ _ (heaterRank_le s)).hushed
  split
  · next t e =>
    rw [e] at ranked
    exact ranked.trans ((complete_asks t _).hushed.trans (heaterYields_hushed _))
  · next t r _ e =>
    rw [e] at ranked
    exact ranked

theorem askHeater_hushed (s : State) : Hushed s s.askHeater := by
  unfold State.askHeater
  refine Hushed.ite (fun _ => ?_) (fun _ => (ask_asks s _ _ _ _ (by decide)).hushed)
  have tried : Hushed s (s.ask loadHeater 1 (Item.startDraw s.seq.values) true).1 := (ask_asks s _ _ _ _ (by decide)).hushed
  split
  · next t e =>
    rw [e] at tried
    exact tried.trans ((setClimate_hushed t _).trans (ask_asks _ _ _ _ _ (by decide)).hushed)
  · next t r _ e =>
    rw [e] at tried
    exact tried

theorem heaterFollows_hushed (s : State) : Hushed s s.heaterFollows := by
  unfold State.heaterFollows
  refine Hushed.ite (fun _ => ?_) (fun _ => Hushed.refl s)
  refine Hushed.trans ?_ (setClimate_hushed _ _)
  split
  · split
    · exact Hushed.ite (fun _ => askHeater_hushed s) (fun _ => Hushed.refl s)
    · exact Hushed.ite (fun _ => Hushed.ite (fun _ => Hushed.refl s) (fun _ => (rerank_asks s _ _ (heaterRank_le s)).hushed))
        (fun _ => (release_asks s _).hushed)
    · exact Hushed.ite (fun _ => Hushed.refl s) (fun _ => (release_asks s _).hushed)
    · exact Hushed.refl s
  · exact Hushed.ite (fun _ => heaterRerank_hushed s) (fun _ => (enterPurging_hushed s).trans (heaterRerank_hushed _))
  · exact Hushed.ite (fun _ => heaterRerank_hushed s) (fun _ => (enterPurging_hushed s).trans (heaterRerank_hushed _))
  · exact (setClimate_hushed s _).trans (heaterRerank_hushed _)
  · exact Hushed.refl s

theorem frostService_hushed (s : State) : Hushed s s.frostService := by
  intro o
  unfold State.frostService
  rw [readAll_checked o.checked]
  revert o
  exact Hushed.ite (fun _ => Hushed.ite (fun _ => Hushed.refl s)
    (fun _ => (setClimate_hushed s _).trans (heaterFollows_hushed _))) (fun _ => Hushed.refl s)

theorem modeChanged_hushed (s : State) : Hushed s s.modeChanged :=
  Hushed.ite (fun _ => (Hushed.ite (fun _ => Hushed.refl s) (fun _ => setClimate_hushed s _)).trans
    ((frostService_hushed _).trans (heaterFollows_hushed _))) (fun _ => Hushed.refl s)

theorem ceilingFollows_hushed (s : State) : Hushed s s.ceilingFollows :=
  (setLights_hushed s _).trans ((amend_hushed _ 0).trans (amend_hushed _ 1))

/-- The mode of Storage has changed, before the blocks are told. -/
def State.storageSet (s : State) (b : Bool) : State := (s.setSeq { s.seq with storage := b }).supplyModeChanged

theorem storageLeft_eq (s : State) : s.storageLeft = (s.storageSet false).retest.modeChanged.ceilingFollows := rfl

theorem storageSet_ok {s : State} (o : s.Ok) (b : Bool) : (s.storageSet b).Ok := ⟨o.checked, o.lanes, o.claims, o.dropped, o.changes⟩

/-- The heater's claim and the lights' are reached, and no monitor. -/
def modeReach : Scope := { mons := fun _ => False, loads := fun id => id = loadHeater ∨ 5 ≤ id.val }

/-- The end of Storage leaves the Motion Controller, the pins and Station Status; of the claims but the heater's and the
lights' it tests those that wait again. -/
theorem storageLeft_rest {s : State} (o : s.Ok) : s.storageLeft.Ok ∧ s.storageLeft.view = s.view ∧ s.storageLeft.motion = s.motion
    ∧ s.storageLeft.seq = { s.seq with storage := false } ∧ s.storageLeft.pins = s.pins ∧ s.storageLeft.status = s.status
    ∧ ∀ id, ¬ modeReach.loads id → (s.claim id).stirs (s.storageLeft.claim id) := by
  have lit : ∀ g, Fact (modeReach.loads (loadLights g)) := fun g => ⟨.inr (loadLights_ge g)⟩
  have heater : Fact (modeReach.loads loadHeater) := ⟨.inl rfl⟩
  have ok := storageSet_ok o false
  rw [storageLeft_eq]
  have calm : Calm (s.storageSet false) (s.storageSet false).retest.modeChanged.ceilingFollows :=
    (retest_calm _).trans ((modeChanged_calm _).trans (ceilingFollows_calm _))
  have hush : Hushed (s.storageSet false) (s.storageSet false).retest.modeChanged.ceilingFollows :=
    (retest_asks (fun _ => False) _).hushed.trans ((modeChanged_hushed _).trans (ceilingFollows_hushed _))
  obtain ⟨n, within⟩ := waitWithin_exists (s.storageSet false)
  obtain ⟨-, -, tended⟩ := ((retest_tends (k := modeReach) (n := n) (s.storageSet false)).trans
    ((modeChanged_tends _).trans (ceilingFollows_tends _))) ok within
  obtain ⟨ok', base, motion⟩ := calm ok
  exact ⟨ok', base.view, motion, base.seq, base.pins, (hush ok).2, fun id not => tended.claims id not⟩

end Sys2Proof.Machine
end

