-- ==== Sys2Proof/Proofs/DriveTurns.lean ====
section
/-! PROOFS. Drive accepted follows its inputs (R78, R139). -/

namespace Sys2Proof.Machine

/-! ### Drive accepted follows its inputs (R78, R139) -/

/-- The state in which drive accepted is `d`, before anything acts on it. -/
def State.driven (v : State) (d : Bool) : State := v.setView { v.view with driveAccepted := d }

/-- The Motion Controller has acted on drive accepted. -/
def State.driveMoves (v : State) : State :=
  if v.seq.fns.motion then (v.driven v.driveNow).motionSeesDrive else v.driven v.driveNow

theorem driveFollows_eq {v : State} (o : v.Ok) : v.driveFollows =
    if v.driveNow = v.view.driveAccepted then v
    else if v.driveNow && v.driveMoves.seq.storage then v.driveMoves.storageLeft else v.driveMoves := by
  unfold State.driveFollows
  rw [readAll_checked o.checked]
  rfl

/-- The motors' claims and the lights' are reached. -/
def motorsReach : Scope := { mons := fun n => ∃ ch, n = Mon.travelFault ch ∨ n = Mon.stall ch, loads := fun id => 3 ≤ id.val }

theorem motorsReach_motor (ch : Fin 2) : Fact (motorsReach.loads (loadMotor ch)) := ⟨show 3 ≤ (loadMotor ch).val by decide +revert⟩

theorem motorsReach_lit (g : Fin 2) : Fact (motorsReach.loads (loadLights g)) := ⟨show 3 ≤ (loadLights g).val by decide +revert⟩

theorem driveMoves_rest {v : State} (o : v.Ok) : v.driveMoves.Ok ∧ v.driveMoves.seq = v.seq ∧ v.driveMoves.pins = v.pins := by
  have ok := setDrive_ok o v.driveNow
  unfold State.driveMoves
  split
  · obtain ⟨ok', base, -⟩ := motionSeesDrive_steady (v.driven v.driveNow) ok
    exact ⟨ok', base.seq, base.pins⟩
  · exact ⟨ok, rfl, rfl⟩

theorem loadMotor_injective {ch j : Fin 2} (h : loadMotor j = loadMotor ch) : j = ch := by decide +revert

/-- A motor is reached by its own channel's acts, not by the other's. -/
theorem needDue_other {s : State} (o : s.Ok) {ch j : Fin 2} (ne : j ≠ ch) :
    (s.needDue ch).chan j = s.chan j ∧ (s.claim (loadMotor j)).stirs ((s.needDue ch).claim (loadMotor j)) := by
  have own := motionReach_own ch
  have lit := motionReach_lit ch
  obtain ⟨n, within⟩ := waitWithin_exists s
  obtain ⟨-, -, tended⟩ := needDue_tends (motionReach_travel ch) (motionReach_stall ch) s o within
  refine ⟨(needDue_only s ch).other j ne, tended.claims _ ?_⟩
  rintro (e | e)
  · exact ne (loadMotor_injective e)
  · exact absurd (motor_low j) (by omega)

theorem needDue_serial {s : State} (o : s.Ok) (ch : Fin 2) : (s.needDue ch).status.serial = s.status.serial := by
  have own := motionReach_own ch
  have lit := motionReach_lit ch
  obtain ⟨n, within⟩ := waitWithin_exists s
  exact (needDue_tends (motionReach_travel ch) (motionReach_stall ch) s o within).2.2.serial

theorem needEnds_other {s : State} (o : s.Ok) {ch j : Fin 2} (ne : j ≠ ch) :
    (s.needEnds ch).chan j = s.chan j ∧ (s.claim (loadMotor j)).stirs ((s.needEnds ch).claim (loadMotor j)) := by
  have own := motionReach_own ch
  obtain ⟨n, within⟩ := waitWithin_exists s
  obtain ⟨-, -, tended⟩ := needEnds_tends (k := motionReach ch) s ch o within
  refine ⟨(needEnds_only s ch).other j ne, tended.claims _ ?_⟩
  rintro (e | e)
  · exact ne (loadMotor_injective e)
  · exact absurd (motor_low j) (by omega)

/-- `v` is `s` as far as drive accepted's readers look at it, but for its inputs. -/
structure State.Drives (s v : State) : Prop where
  ok : v.Ok
  broker : v.broker = s.broker
  motion : v.motion = s.motion
  seq : v.seq = s.seq
  pins : v.pins = s.pins
  status : v.status = s.status
  accepted : v.view.driveAccepted = s.view.driveAccepted
  quiet : v.view.changes = []

section
variable {s v : State} (drives : s.Drives v) (fits : s.Fits)
include drives

theorem State.Drives.chan (d : Bool) (ch : Fin 2) : (v.driven d).chan ch = s.chan ch := chan_of_motion drives.motion ch

theorem State.Drives.claim (d : Bool) (id : Fin 7) : (v.driven d).claim id = s.claim id := by
  show v.broker.claims.get id = _
  rw [drives.broker]
  rfl

theorem State.Drives.okOf (d : Bool) : (v.driven d).Ok := setDrive_ok drives.ok d

theorem State.Drives.runs (d : Bool) : (v.driven d).motionRuns = s.motionRuns := motionRuns_of_seq drives.seq

/-- What the command ends in, by what drive accepted has become. -/
theorem State.Drives.ends : let t := State.publish s v.driveFollows
    t.pins = s.pins ∧ t.view = { v.view with driveAccepted := v.driveNow }
      ∧ t.seq = { s.seq with storage := if v.driveNow = true ∧ s.view.driveAccepted = false then false else s.seq.storage }
      ∧ (v.driveNow = s.view.driveAccepted → ∀ ch, t.chan ch = s.chan ch)
      ∧ (v.driveNow ≠ s.view.driveAccepted → (∀ ch, t.chan ch = v.driveMoves.chan ch) ∧ t.status = v.driveMoves.status
        ∧ ∀ ch, (v.driveMoves.claim (loadMotor ch)).stirs (t.claim (loadMotor ch))) := by
  obtain ⟨ok, view⟩ := driveFollows_view drives.ok
  have handed := publish_handedOver s v.driveFollows (by rw [view]; exact drives.quiet)
  have eq := driveFollows_eq drives.ok
  obtain ⟨okM, seqM, pinsM⟩ := driveMoves_rest drives.ok
  have leaves := storageLeft_rest okM
  rw [drives.accepted] at eq
  rw [seqM, drives.seq] at eq
  obtain ⟨-, -, motionL, seqL, pinsL, statusL, claimL⟩ := leaves
  have away : ∀ ch, ¬ modeReach.loads (loadMotor ch) := by
    rintro ch (e | e)
    · exact absurd e (by decide +revert)
    · exact absurd (motor_low ch) (by omega)
  dsimp only
  refine ⟨?_, handed.view.trans view, ?_, fun same ch => ?_, fun turns => ⟨fun ch => ?_, ?_, fun ch => ?_⟩⟩
  · rw [handed.pins, eq]
    split
    · exact drives.pins
    · split
      · rw [pinsL, pinsM, drives.pins]
      · rw [pinsM, drives.pins]
  · rw [handed.seq, eq]
    by_cases same : v.driveNow = s.view.driveAccepted
    · have not : ¬ (v.driveNow = true ∧ s.view.driveAccepted = false) := fun ⟨now, before⟩ => by
        rw [now, before] at same
        cases same
      rw [if_pos same, if_neg not]
      exact drives.seq
    · rw [if_neg same]
      have moved : v.driveMoves.seq = s.seq := seqM.trans drives.seq
      rw [moved] at seqL
      by_cases leaves : (v.driveNow && s.seq.storage) = true
      · rw [if_pos leaves, seqL]
        obtain ⟨now, -⟩ := Bool.and_eq_true_iff.mp leaves
        have before : s.view.driveAccepted = false := by simpa [now] using same
        rw [if_pos ⟨now, before⟩]
      · have stays : (if v.driveNow = true ∧ s.view.driveAccepted = false then false else s.seq.storage) = s.seq.storage := by
          split
          · next turns => simpa [turns.1] using leaves
          · rfl
        rw [if_neg leaves, moved, stays]
  · rw [handed.chan, eq, if_pos same]
    exact chan_of_motion drives.motion ch
  · rw [handed.chan, eq, if_neg turns]
    split
    · exact chan_of_motion motionL ch
    · rfl
  · rw [handed.status, eq, if_neg turns]
    split
    · exact statusL
    · rfl
  · rw [handed.claim, eq, if_neg turns]
    split
    · exact claimL _ (away ch)
    · exact .inl rfl

include fits

theorem State.Drives.driveMoves_eq (runs : s.motionRuns = true) : v.driveMoves =
    if v.driveNow = true then ((v.driven v.driveNow).needDue 0).needDue 1 else ((v.driven v.driveNow).needEnds 0).needEnds 1 := by
  have motion : v.seq.fns.motion = true := by
    rw [drives.seq]
    simp only [State.motionRuns, Bool.and_eq_true] at runs
    exact runs.1
  unfold State.driveMoves
  rw [if_pos motion]
  rfl

omit drives in
theorem State.Fits.rested (still : s.motionRuns = false) (ch : Fin 2) : (s.chan ch).pending = .none ∧ (s.chan ch).followOn = .none := by
  have order := fits.channel ch
  rw [still] at order
  constructor
  · by_contra not
    cases order.active (.inr not)
  · by_contra not
    cases order.active (.inl (by simp [Chan.atRest, order.follows not]))

/-- Where the Motion Controller does not act, its channels stand. -/
theorem State.Drives.still (runs : s.motionRuns = false) (ch : Fin 2) : v.driveMoves.chan ch = s.chan ch := by
  have rested := fits.rested runs
  have needs : ∀ (u : State) (j : Fin 2), u.motion = s.motion → u.needEnds j = u := by
    intro u j motion
    have same := chan_of_motion motion j
    obtain ⟨pending, follow⟩ := rested j
    unfold State.needEnds
    split
    · rfl
    · have kept : (if (u.chan j).pending = .protective then (u.dropPending j).release (loadMotor j) else u) = u :=
        if_neg (by rw [same, pending]; nofun)
      dsimp only
      rw [kept]
      exact if_neg (by rw [same, follow]; nofun)
  have idle : ∀ (u : State) (j : Fin 2), u.seq = s.seq → u.needDue j = u := fun u j seq =>
    if_pos (by rw [motionRuns_of_seq seq, runs]; rfl)
  have chan := drives.chan v.driveNow ch
  have motion : (v.driven v.driveNow).motion = s.motion := drives.motion
  have seq : (v.driven v.driveNow).seq = s.seq := drives.seq
  unfold State.driveMoves State.motionSeesDrive
  generalize v.driven v.driveNow = w at *
  split
  · split
    · rw [idle w 0 seq, idle w 1 seq, chan]
    · rw [needs w 0 motion, needs w 1 motion, chan]
  · exact chan

/-- The two channels meet a need in turn. -/
theorem State.Drives.falls {t : State} (runs : s.motionRuns = true) (now : v.driveNow = true)
    (chanT : ∀ ch, t.chan ch = v.driveMoves.chan ch) (status : t.status = v.driveMoves.status)
    (claimT : ∀ ch, (v.driveMoves.claim (loadMotor ch)).stirs (t.claim (loadMotor ch))) (accepted : t.view.driveAccepted = true)
    (ch : Fin 2) : ∃ u, NeedFalls s u t ch := by
  have eq := drives.driveMoves_eq fits runs
  rw [if_pos now, now] at eq
  rw [eq] at chanT status claimT
  have okW := drives.okOf true
  have chanW := drives.chan true
  have claimW := drives.claim true
  have runsW := (drives.runs true).trans runs
  have pinsW : (v.driven true).pins = s.pins := drives.pins
  have seqW : (v.driven true).seq = s.seq := drives.seq
  have statusW : (v.driven true).status = s.status := drives.status
  have needW : (v.driven true).needOutcome = 4 := rfl
  have viewW : (v.driven true).view.driveAccepted = true := rfl
  generalize v.driven true = w at *
  obtain ⟨okA, baseA, -⟩ := needDue_steady w 0 okW
  have otherA := needDue_other okW (ch := 0) (j := 1) (by decide)
  have serialA := needDue_serial okW 0
  have order := fun j => fits.channel j
  simp only [runs] at order
  have needA : (w.needDue 0).needOutcome = 4 := by
    unfold State.needOutcome at needW ⊢
    rw [baseA.view]
    exact needW
  have second : NeedFalls s (w.needDue 0) t 1 := {
    ok := okA
    runs := (motionRuns_of_seq baseA.seq).trans runsW
    order := order 1
    unforced := fits.motor_unforced 1
    draw := fits.values.motionDraw 1
    chan := otherA.1.trans (chanW 1)
    claim := by rw [← claimW]; exact otherA.2
    pins := baseA.pins.trans pinsW
    values := by rw [baseA.seq, seqW]
    serial := serialA.trans (by rw [statusW])
    chanT := chanT 1
    claimT := claimT 1
    shown := .inl (by rw [status])
    need := by rw [needA, accepted]; rfl }
  have otherB := needDue_other okA (ch := 1) (j := 0) (by decide)
  have first : NeedFalls s w t 0 := {
    ok := okW
    runs := runsW
    order := order 0
    unforced := fits.motor_unforced 0
    draw := fits.values.motionDraw 0
    chan := chanW 0
    claim := by rw [← claimW]; exact .inl rfl
    pins := pinsW
    values := by rw [seqW]
    serial := by rw [statusW]
    chanT := (chanT 0).trans otherB.1
    claimT := Claim.stirs_trans otherB.2 (claimT 0)
    shown := by
      rw [status, needW, ← needA]
      exact second.cleared.outcome
    need := by rw [needW, accepted]; rfl }
  match ch with
  | 0 => exact ⟨w, first⟩
  | 1 => exact ⟨_, second⟩

/-- The two channels lose a need in turn. -/
theorem State.Drives.loses {t : State} (runs : s.motionRuns = true) (now : v.driveNow = false)
    (chanT : ∀ ch, t.chan ch = v.driveMoves.chan ch)
    (claimT : ∀ ch, (v.driveMoves.claim (loadMotor ch)).stirs (t.claim (loadMotor ch))) (ch : Fin 2) :
    if ch = 1 ∧ s.motion.windLockout.isSome = true then t.chan ch = s.chan ch else s.losesNeed t ch := by
  have eq := drives.driveMoves_eq fits runs
  rw [if_neg (by rw [now]; nofun), now] at eq
  rw [eq] at chanT claimT
  have okW := drives.okOf false
  have chanW := drives.chan false
  have claimW := drives.claim false
  have needW : ∀ j, (v.driven false).needs j = (j == 1 && s.motion.windLockout.isSome) := fun j => by
    rw [← drives.motion]
    rfl
  generalize v.driven false = w at *
  obtain ⟨okA, baseA, -⟩ := needEnds_steady w 0 okW
  have otherA := needEnds_other okW (ch := 0) (j := 1) (by decide)
  have otherB := needEnds_other okA (ch := 1) (j := 0) (by decide)
  have wind : (w.needEnds 0).needs 1 = w.needs 1 := by
    unfold State.needs
    rw [baseA.view, (needEnds_only w 0).wind]
  match ch with
  | 0 =>
    rw [if_neg (by rintro ⟨k, -⟩; cases k)]
    exact needEnds_loses okW ((needW 0).trans rfl) (chanW 0) (by rw [← claimW]; exact .inl rfl) ((chanT 0).trans otherB.1)
      (Claim.stirs_trans otherB.2 (claimT 0))
  | 1 =>
    have need := (wind.trans (needW 1))
    split
    · next blows =>
      rw [chanT, needEnds_needed (by rw [need, blows.2]; rfl), otherA.1, chanW]
    · next calm =>
      have free : s.motion.windLockout.isSome = false := by simpa using calm
      exact needEnds_loses okA (by rw [need, free]; rfl) (otherA.1.trans (chanW 1)) (by rw [← claimW]; exact otherA.2)
        (chanT 1) (claimT 1)

end

end Sys2Proof.Machine
end

