-- ==== Sys2Proof/Proofs/DriveInputs.lean ====
section
/-! PROOFS. ENG, the local drive and CHGAV, settled (R76, R119, R139). -/

namespace Sys2Proof.Machine

/-! ### The warming pad follows its inputs (R119) -/

theorem padWantedNow_eq {s : State} (run : s.inRun = true) : s.padWantedNow
    = ((s.usable.any fun u => u.withdrawn && decide (u.tc < 5)) && (s.pins.eng || s.pins.chgav || s.entries.any Entry.showsCharge)) := by
  unfold State.padWantedNow State.chargeSource
  rw [run, Bool.true_and]
  cases s.usable <;> rfl

theorem padFollows_eq {s : State} (o : s.Ok) (fitted : s.seq.fns.heat = true) (pad : Item.padFitted s.seq.values = true)
    (run : s.inRun = true) : s.padFollows =
      (let u := s.setClimate { s.climate with padWanted := s.padWantedNow }
      if s.padWantedNow = true then
        if (s.claim loadPad).st = .idle then (u.ask loadPad 2 (Item.padDraw s.seq.values) false).1 else u
      else (u.setClimate { u.climate with pad := false }).release loadPad) := by
  unfold State.padFollows
  rw [if_pos (by simp [fitted, pad, run]), readSupply_checked o.checked, readAll_checked o.checked]
  rfl

/-- The pad is wanted as its inputs give, and one that is not wanted is off with its claim Idle. -/
theorem padFollows_wants {s : State} (o : s.Ok) (fitted : s.seq.fns.heat = true) (pad : Item.padFitted s.seq.values = true)
    (run : s.inRun = true) : s.padFollows.climate.padWanted = s.padWantedNow
      ∧ (s.padFollows.climate.padWanted = false → s.padFollows.climate.pad = false ∧ (s.padFollows.claim loadPad).st = .idle) := by
  rw [padFollows_eq o fitted pad run]
  dsimp only
  have okU : (s.setClimate { s.climate with padWanted := s.padWantedNow }).Ok := (setClimate_calm s _ o).1
  have climateU : (s.setClimate { s.climate with padWanted := s.padWantedNow }).climate = { s.climate with padWanted := s.padWantedNow } := rfl
  generalize s.setClimate { s.climate with padWanted := s.padWantedNow } = u at *
  cases wanted : s.padWantedNow with
  | true =>
    rw [wanted] at climateU
    rw [if_pos rfl]
    split
    · rw [(ask_shared u loadPad 2 (Item.padDraw s.seq.values) false).climate, climateU]
      exact ⟨rfl, nofun⟩
    · rw [climateU]
      exact ⟨rfl, nofun⟩
  | false =>
    rw [wanted] at climateU
    rw [if_neg nofun]
    have okV : (u.setClimate { u.climate with pad := false }).Ok := (setClimate_calm u _ okU).1
    have climateV : (u.setClimate { u.climate with pad := false }).climate = { u.climate with pad := false } := rfl
    generalize u.setClimate { u.climate with pad := false } = v at *
    rw [(release_shared v loadPad).climate, climateV, climateU]
    exact ⟨rfl, fun _ => ⟨rfl, release_idle okV loadPad⟩⟩

theorem engWaits_eq (v : View) (a : Bool) : v.engWaits a = { v with
    driveSetWait := if a = true ∧ v.localDrive = false then some 1000 else none
    driveClearWait := if a = false ∧ v.localDrive = true then some 3000 else none } := by
  unfold View.engWaits
  simp only [Bool.and_eq_true, Bool.not_eq_true']
  rfl

/-- The pad after a command that ends by working it out again. -/
theorem pad_ends {s v : State} (sound : s.Sound) (sane : v.Sane) (seq : v.seq = s.seq) (motion : v.motion = s.motion)
    (supply : v.supply = s.supply) (entries : v.entries = s.entries) (quiet : v.view.changes = [])
    (accepted : v.view.driveAccepted = s.view.driveAccepted) : let t := State.publish s v.padFollows
    Warm v t ∧ t.view = v.view ∧ t.pins = v.pins
      ∧ (s.seq.fns.heat = true → Item.padFitted s.seq.values = true → s.seq.phase = .run →
        t.climate.padWanted = ((s.usable.any fun u => u.withdrawn && decide (u.tc < 5))
            && (t.pins.eng || t.pins.chgav || s.entries.any Entry.showsCharge))
          ∧ (t.climate.padWanted = false → t.climate.pad = false ∧ (t.claim loadPad).st = .idle)) := by
  have calm := padFollows_calm v
  obtain ⟨-, base, same⟩ := calm sane.ok
  have posted := publish_posted s (calm.keeps sane) (by rw [base.view]; exact quiet)
    (ilock_agrees sound (same.trans motion) (base.seq.trans seq) (by rw [base.view]; exact accepted))
  have warm := padFollows_warm v
  dsimp only
  refine ⟨posted.warm warm, posted.view.trans base.view, posted.pins.trans base.pins, fun fitted pad phase => ?_⟩
  have run : v.inRun = true := by
    rw [State.inRun, seq]
    simpa using phase
  obtain ⟨wants, off⟩ := padFollows_wants sane.ok (by rw [seq]; exact fitted) (by rw [seq]; exact pad) run
  have usable : v.usable = s.usable := by
    unfold State.usable State.ownUsable State.peerUsable
    rw [entries, seq, supply]
  rw [posted.climate, posted.pins, base.pins, posted.claim, ← usable, ← entries, ← padWantedNow_eq run]
  exact ⟨wants, off⟩

/-- An input of drive accepted has changed. -/
theorem setView_drives {s : State} (fits : s.Fits) (x : View) (accepted : x.driveAccepted = s.view.driveAccepted) (quiet : x.changes = [])
    (checked : x.checked) : s.Drives (s.setView x) where
  ok := ⟨checked, fits.sound.ok.lanes, fits.sound.ok.claims, fits.sound.ok.dropped, fits.sound.ok.changes⟩
  broker := rfl
  motion := rfl
  seq := rfl
  pins := rfl
  status := rfl
  accepted := accepted
  quiet := quiet

end Sys2Proof.Machine

namespace Sys2Proof.Proofs
open Sys2Proof.Machine

/-- Settles O42: the local drive's turns by `State.Drives`, a need on a channel by `NeedFalls`. -/
theorem driveInputs : Obligations.DriveInputs := by
  unfold Obligations.DriveInputs
  intro s a fits
  dsimp only
  have sane := fits.sound.sane
  have quiet := fits.sound.quiet.1
  refine ⟨⟨_, rfl, fun same => ?_, fun turns reset => ?_, fun turns out => ?_⟩, fun waits => ?_, fun waits => ?_, ?_⟩
  · rw [if_pos same]
    exact publish_handedOver s s quiet
  · rw [if_neg turns]
    dsimp only
    rw [if_pos (show (s.setPins { s.pins with eng := a }).inReset = true from by simp [State.inReset, State.setPins, reset])]
    exact publish_handedOver s _ quiet
  · rw [if_neg turns]
    dsimp only
    rw [if_neg (show ¬ (s.setPins { s.pins with eng := a }).inReset = true from by simp [State.inReset, State.setPins, out])]
    generalize hv : (s.setPins { s.pins with eng := a }).setView ((s.setPins { s.pins with eng := a }).view.engWaits a) = v
    have pins : v.pins = { s.pins with eng := a } := by rw [← hv]; rfl
    have view : v.view = s.view.engWaits a := by rw [← hv]; rfl
    have saneV : v.Sane := hv ▸ (show State.Sane _ from
      ⟨sane.checked, sane.lanes, sane.queue, sane.claims, sane.counters, sane.extend⟩)
    obtain ⟨warm, viewT, pinsT, pad⟩ := pad_ends fits.sound saneV (by rw [← hv]; rfl) (by rw [← hv]; rfl) (by rw [← hv]; rfl)
      (by rw [← hv]; rfl) (by rw [view]; exact quiet) (by rw [view]; rfl)
    refine ⟨?_, pad, ?_⟩
    · have same : Warm (s.setPins { s.pins with eng := a }) v := by rw [← hv]; rfl
      exact same.trans warm
    · rw [viewT, view, engWaits_eq]
  · have arm : exec .localDriveSet s = .next (State.publish s
        (s.setView { s.view with localDrive := true, driveSetWait := none }).driveFollows) := by
      show done s _ = _
      rw [if_pos waits]
      rfl
    refine ⟨_, arm, ?_⟩
    generalize hv : s.setView { s.view with localDrive := true, driveSetWait := none } = v
    have drives : s.Drives v := hv ▸ setView_drives fits _ rfl fits.sound.quiet.1 sane.ok.checked
    have now : v.driveNow = true := by rw [← hv]; rfl
    have view : v.view = { s.view with localDrive := true, driveSetWait := none } := by rw [← hv]; rfl
    obtain ⟨pins, viewT, seq, same, turned⟩ := drives.ends
    rw [now] at viewT seq same turned
    have accepted : (State.publish s v.driveFollows).view.driveAccepted = true := by rw [viewT]
    have meets : s.view.driveAccepted = false → s.motionRuns = true → ∀ ch, ∃ u, NeedFalls s u (State.publish s v.driveFollows) ch := by
      intro before runs
      obtain ⟨chan, status, claim⟩ := turned (by rw [before]; nofun)
      exact drives.falls fits runs now chan status claim accepted
    refine ⟨pins, by rw [viewT, view], ?_, fun still ch => ?_, fun before runs ch => ?_, fun before ch => ?_⟩
    · rw [seq]
      cases s.view.driveAccepted <;> rfl
    · cases before : s.view.driveAccepted with
      | true => exact same before.symm ch
      | false =>
        rw [(turned (by rw [before]; nofun)).1]
        exact drives.still fits (still.resolve_left (by rw [before]; nofun)) ch
    · obtain ⟨u, falls⟩ := meets before runs ch
      exact falls.meets
    · cases runs : s.motionRuns with
      | true =>
        obtain ⟨u, falls⟩ := meets before runs ch
        obtain ⟨-, pending, follow⟩ := falls.cleared
        obtain ⟨-, -, -, -, home, -⟩ := falls.meets
        rw [falls.chanT]
        refine ⟨pending, follow, fun st => ?_⟩
        rw [← falls.chanT]
        obtain ⟨ends, stands⟩ := home (.inl st)
        by_cases extends_ : (s.chan ch).pending = .extend
        · obtain ⟨idle, same, none⟩ := ends extends_
          exact ⟨same.trans st, fun _ => ⟨none, idle⟩⟩
        · rw [stands extends_]
          exact ⟨st, fun k => absurd k extends_⟩
      | false =>
        have chan : (State.publish s v.driveFollows).chan ch = s.chan ch := by
          rw [(turned (by rw [before]; nofun)).1]
          exact drives.still fits runs ch
        obtain ⟨pending, follow⟩ := fits.rested runs ch
        rw [chan, pending, follow]
        exact ⟨nofun, nofun, fun st => ⟨st, nofun⟩⟩
  · have arm : exec .localDriveClear s = .next (State.publish s
        (s.setView { s.view with localDrive := false, driveClearWait := none }).driveFollows) := by
      show done s _ = _
      rw [if_pos waits]
      rfl
    refine ⟨_, arm, ?_⟩
    generalize hv : s.setView { s.view with localDrive := false, driveClearWait := none } = v
    have drives : s.Drives v := hv ▸ setView_drives fits _ rfl fits.sound.quiet.1 sane.ok.checked
    have now : v.driveNow = s.entries.any Entry.showsDrive := by rw [← hv]; rfl
    have view : v.view = { s.view with localDrive := false, driveClearWait := none } := by rw [← hv]; rfl
    obtain ⟨pins, viewT, seq, same, turned⟩ := drives.ends
    rw [← now]
    refine ⟨pins, by rw [viewT, view], seq, fun still ch => ?_, fun before after runs ch => ?_, fun before after runs ch => ?_⟩
    · by_cases turns : v.driveNow = s.view.driveAccepted
      · exact same turns ch
      · rw [(turned turns).1]
        exact drives.still fits (still.resolve_left turns) ch
    · obtain ⟨chan, status, claim⟩ := turned (by rw [before, after]; nofun)
      obtain ⟨u, falls⟩ := drives.falls fits runs after chan status claim (by rw [viewT]; exact after) ch
      exact falls.meets
    · obtain ⟨chan, -, claim⟩ := turned (by rw [before, after]; nofun)
      exact drives.loses fits runs after chan claim ch
  · refine ⟨_, rfl, ?_⟩
    have ended := pad_ends (v := s.setPins { s.pins with chgav := a }) fits.sound (setPins_sane sane _) rfl rfl rfl rfl quiet rfl
    exact ⟨ended.1, ended.2.1, ended.2.2.2⟩

end Sys2Proof.Proofs
end

