-- ==== Sys2Proof/Proofs/PeriodsHanded.lean ====
section
/-! PROOFS. The periods at the end of a step (R24, R26, R101, R121, R141, R145, R160, R178). -/

namespace Sys2Proof.Machine

/-! ### The periods at the end of a step (R24, R26, R101, R121, R141, R145, R160, R178) -/

/-- What a list of offers does to the periods. -/
def periodsBy (l : List Offer) (p : Periods) : Periods := l.foldl (fun p o => o.restart p) p

theorem takes_periods (l : List Offer) (s : State) : (l.foldl State.take s).periods = periodsBy l s.periods := by
  induction l generalizing s with
  | nil => rfl
  | cons o l ih => exact ih (s.take o)

theorem periodsBy_append (l m : List Offer) (p : Periods) : periodsBy (l ++ m) p = periodsBy m (periodsBy l p) :=
  List.foldl_append

/-- Each offer of the list leaves what `f` reads of the periods. -/
def Spares {α : Type} (f : Periods → α) (l : List Offer) : Prop := ∀ p, f (periodsBy l p) = f p

section
variable {α ι : Type} {f : Periods → α}

theorem Spares.nil : Spares f [] := fun _ => rfl

theorem Spares.append {l m : List Offer} (h : Spares f l) (k : Spares f m) : Spares f (l ++ m) := fun p => by
  rw [periodsBy_append, k, h]

theorem Spares.one {o : Offer} (h : ∀ p, f (o.restart p) = f p) : Spares f [o] := h

theorem Spares.ite {c : Prop} [Decidable c] {l m : List Offer} (h : Spares f l) (k : Spares f m) :
    Spares f (if c then l else m) := by
  split
  · exact h
  · exact k

theorem Spares.flatMap {l : List ι} {g : ι → List Offer} (h : ∀ i ∈ l, Spares f (g i)) : Spares f (l.flatMap g) := by
  induction l with
  | nil => exact Spares.nil
  | cons i l ih =>
    rw [List.flatMap_cons]
    exact (h i (List.mem_cons_self ..)).append (ih fun j m => h j (List.mem_cons_of_mem i m))

/-- One key of a family of offers sets what `f` reads, and no other key does. -/
theorem periodsBy_flatMap {l : List ι} {g : ι → List Offer} {i : ι} {x : α} {c : Prop} [Decidable c] (nodup : l.Nodup)
    (mem : i ∈ l) (sets : ∀ p, f (periodsBy (g i) p) = if c then x else f p) (others : ∀ j, j ≠ i → Spares f (g j))
    (p : Periods) : f (periodsBy (l.flatMap g) p) = if c then x else f p := by
  obtain ⟨a, b, rfl⟩ := List.append_of_mem mem
  rw [List.nodup_append] at nodup
  obtain ⟨-, right, apart⟩ := nodup
  have after : Spares f (b.flatMap g) := Spares.flatMap fun j m => others j fun e =>
    (List.nodup_cons.mp right).1 (e ▸ m)
  have before : Spares f (a.flatMap g) := Spares.flatMap fun j m => others j fun e =>
    apart j m i (List.mem_cons_self ..) e
  rw [List.flatMap_append, List.flatMap_cons, periodsBy_append, periodsBy_append, after, sets, before]

end

/-- Every offer of a list spares what `f` reads, where each of its kinds does. -/
theorem firstOffers_eq (was s : State) : State.firstOffers was s = s.shedOffers ++ s.supplyOffers ++ State.status0Offers was s := rfl

section
variable {α : Type} {f : Periods → α} (was s : State)

theorem shedOffers_spares (h : ∀ p x, f { p with shed := x } = f p) : Spares f s.shedOffers := by
  unfold State.shedOffers
  split
  · exact Spares.ite (Spares.one fun p => h p _) Spares.nil
  · exact Spares.nil

theorem supplyOffers_spares (h : ∀ p x, f { p with supply := x } = f p) : Spares f s.supplyOffers := by
  unfold State.supplyOffers
  split
  · exact Spares.ite (Spares.one fun p => h p _) Spares.nil
  · exact Spares.nil

theorem status0Offers_spares (h : ∀ p x, f { p with status := x } = f p) : Spares f (State.status0Offers was s) :=
  Spares.ite (Spares.one fun p => h p _) Spares.nil

theorem status2Offers_spares : Spares f s.status2Offers := Spares.ite (Spares.one fun _ => rfl) Spares.nil

theorem tankOffers_spares (k : Fin 3) (h : ∀ p x, f { p with tank := p.tank.set k x } = f p) :
    Spares f (State.tankOffers was s k) := Spares.ite (Spares.one fun p => h p _) Spares.nil

theorem climateOffers_spares (z : Fin 2) (h : ∀ p x, f { p with climate := p.climate.set z x } = f p) :
    Spares f (State.climateOffers was s z) := Spares.ite (Spares.one fun p => h p _) Spares.nil

theorem motionOffers_spares (ch : Fin 2) (h : ∀ p x, f { p with motion := p.motion.set ch x } = f p) :
    Spares f (State.motionOffers was s ch) := Spares.ite (Spares.one fun p => h p _) Spares.nil

theorem interlockOffers_spares (ch : Fin 2) (h : ∀ p x, f { p with interlock := p.interlock.set ch x } = f p) :
    Spares f (State.interlockOffers was s ch) := Spares.ite (Spares.one fun p => h p _) Spares.nil

theorem lightOffers_spares (ch : Fin 8) (h : ∀ p x, f { p with light := p.light.set ch x } = f p) :
    Spares f (State.lightOffers was s ch) := Spares.ite (Spares.one fun p => h p _) Spares.nil

end

/-- What a step hands over does to the periods. -/
def State.restarted (was u : State) : Periods := periodsBy (State.lastOffers was u) (periodsBy (State.firstOffers was u) u.periods)

section
variable {was u : State} (told : u.view.changes = []) (pub : u.publishes = true)
include told pub

theorem publish_periods : (State.publish was u).periods = { State.restarted was u with
    interlock := (State.publish was u).periods.interlock } := by
  rw [publish_told told pub]
  have hands : ((State.firstOffers was u).foldl State.take u).publishStatus1.periods = ((State.firstOffers was u).foldl State.take u).periods := by
    unfold State.publishStatus1
    split <;> rfl
  unfold State.restarted
  rw [← takes_periods, ← hands, ← takes_periods]
  rfl

theorem publish_periods_interlock (ch : Fin 2) : (State.publish was u).periods.interlock.get ch =
    if u.inViolation ch = true then (State.restarted was u).interlock.get ch else none := by
  rw [publish_told told pub]
  have same : ((State.firstOffers was u).foldl State.take u).publishStatus1.periods = ((State.firstOffers was u).foldl State.take u).periods := by
    unfold State.publishStatus1
    split <;> rfl
  unfold State.restarted
  rw [← takes_periods, ← same, ← takes_periods]
  have hands := ((takes_hands (State.firstOffers was u) u).trans (publishStatus1_hands _)).trans (takes_hands (State.lastOffers was u) _)
  generalize (State.lastOffers was u).foldl State.take _ = v at hands ⊢
  have violates : ∀ k, v.inViolation k = u.inViolation k := fun k => by rw [hands.rest]; rfl
  show (if (v.setDue Due.reset).inViolation 1 then if (v.setDue Due.reset).inViolation 0 then v.periods.interlock else
    v.periods.interlock.set 0 none else (if (v.setDue Due.reset).inViolation 0 then v.periods.interlock else
    v.periods.interlock.set 0 none).set 1 none).get ch = _
  have due : ∀ k, (v.setDue Due.reset).inViolation k = u.inViolation k := violates
  rw [due, due]
  match ch with
  | 0 => cases u.inViolation 0 <;> cases u.inViolation 1 <;> simp
  | 1 => cases u.inViolation 0 <;> cases u.inViolation 1 <;> simp

end

section
variable (was u : State)

theorem lastOffers_spares {α : Type} {f : Periods → α}
    (h : ∀ p a b c d e, f { p with tank := a, climate := b, motion := c, interlock := d, light := e } = f p) :
    Spares f (State.lastOffers was u) :=
  ((((status2Offers_spares u).append (Spares.flatMap fun k _ => tankOffers_spares was u k fun p _ => h p _ p.climate p.motion
      p.interlock p.light)).append (Spares.flatMap fun z _ => climateOffers_spares was u z fun p _ => h p p.tank _ p.motion
      p.interlock p.light)).append (Spares.flatMap fun ch _ => (motionOffers_spares was u ch fun p _ => h p p.tank p.climate _
      p.interlock p.light).append (interlockOffers_spares was u ch fun p _ => h p p.tank p.climate p.motion _ p.light))).append
    (Spares.flatMap fun ch _ => lightOffers_spares was u ch fun p _ => h p p.tank p.climate p.motion p.interlock _)

/-- STATUS subject 0 goes out with its period (R178). -/
theorem restarted_status : (State.restarted was u).status = if (u.due.status0 || statusState was != statusState u) = true then
    (if u.inRun then some u.statusPeriodMs else none) else u.periods.status := by
  have last : Spares Periods.status (State.lastOffers was u) := lastOffers_spares was u fun _ _ _ _ _ _ => rfl
  have first : Spares Periods.status (u.shedOffers ++ u.supplyOffers) :=
    (shedOffers_spares u fun _ _ => rfl).append (supplyOffers_spares u fun _ _ => rfl)
  unfold State.restarted
  rw [last, firstOffers_eq, periodsBy_append]
  unfold State.status0Offers
  split
  · rfl
  · exact first u.periods

/-- SHED goes out with its period (R24). -/
theorem restarted_shed : (State.restarted was u).shed = match u.supply.latest with
    | some f => if (u.due.shed && u.inRun) = true then (if 0 < f.level then some Config.shedMs else none) else u.periods.shed
    | none => u.periods.shed := by
  have last : Spares Periods.shed (State.lastOffers was u) := lastOffers_spares was u fun _ _ _ _ _ _ => rfl
  have first : Spares Periods.shed (u.supplyOffers ++ State.status0Offers was u) :=
    (supplyOffers_spares u fun _ _ => rfl).append (status0Offers_spares was u fun _ _ => rfl)
  unfold State.restarted
  rw [last, firstOffers_eq, List.append_assoc, periodsBy_append, first]
  unfold State.shedOffers
  cases u.supply.latest with
  | none => rfl
  | some f =>
    dsimp only
    split <;> rfl

/-- SUPPLY goes out with its period (R26). -/
theorem restarted_supply : (State.restarted was u).supply =
    if u.supply.latest.isSome = true ∧ (u.due.supply && u.inRun && u.seq.fns.supply) = true then some u.supplyPeriodMs else u.periods.supply := by
  have last : Spares Periods.supply (State.lastOffers was u) := lastOffers_spares was u fun _ _ _ _ _ _ => rfl
  unfold State.restarted
  have status := status0Offers_spares (f := Periods.supply) was u fun _ _ => rfl
  rw [last, firstOffers_eq, periodsBy_append, status, periodsBy_append]
  have shed := shedOffers_spares (f := Periods.supply) u (fun _ _ => rfl) u.periods
  unfold State.supplyOffers
  cases u.supply.latest with
  | none => exact shed
  | some f =>
    dsimp only
    split
    · next due => exact (if_pos ⟨rfl, due⟩).symm
    · next due => exact shed.trans (if_neg fun h => due h.2).symm

theorem firstOffers_spares {α : Type} {f : Periods → α} (h : ∀ p x y z, f { p with shed := x, supply := y, status := z } = f p) :
    Spares f (State.firstOffers was u) :=
  ((shedOffers_spares u fun p x => h p x p.supply p.status).append (supplyOffers_spares u fun p x => h p p.shed x p.status)).append
    (status0Offers_spares was u fun p x => h p p.shed p.supply x)

/-- A keyed period is set by its key's offer alone. -/
theorem restarted_key {ι : Type} {l : List ι} {g : ι → List Offer} {i : ι} {f : Periods → Timer} {x : Timer} {c : Prop}
    [Decidable c] {before after : List Offer} (split : State.lastOffers was u = before ++ l.flatMap g ++ after)
    (first : ∀ p x y z, f { p with shed := x, supply := y, status := z } = f p) (pre : Spares f before) (post : Spares f after)
    (nodup : l.Nodup) (mem : i ∈ l) (sets : ∀ p, f (periodsBy (g i) p) = if c then x else f p)
    (others : ∀ j, j ≠ i → Spares f (g j)) : f (State.restarted was u) = if c then x else f u.periods := by
  unfold State.restarted
  rw [split, periodsBy_append, periodsBy_append, post, periodsBy_flatMap nodup mem sets others, pre,
    firstOffers_spares was u first]

/-- An offer that sets one key of a table, where it is made. -/
theorem periodsBy_offer {n : Nat} (table : Periods → Tab n Timer) (i : Fin n) (o : Offer) (x : Timer) (c : Prop) [Decidable c]
    (h : ∀ p, table (o.restart p) = (table p).set i x) (p : Periods) :
    (table (periodsBy (if c then [o] else []) p)).get i = if c then x else (table p).get i := by
  split
  · exact (congrArg (Tab.get · i) (h p)).trans (Tab.get_set_self _ _ _)
  · rfl

theorem lastOffers_eq : State.lastOffers was u = u.status2Offers ++ fin3.flatMap (State.tankOffers was u)
    ++ fin2.flatMap (State.climateOffers was u) ++ fin2.flatMap (fun ch => State.motionOffers was u ch ++ State.interlockOffers was u ch)
    ++ fin8.flatMap (State.lightOffers was u) := rfl

theorem mem_fin2 : ∀ k, k ∈ fin2 := by decide
theorem mem_fin3 : ∀ k, k ∈ fin3 := by decide
theorem mem_fin8 : ∀ k, k ∈ fin8 := by decide

section
variable {f : Periods → Timer}

theorem tanks_spare (h : ∀ p x, f { p with tank := x } = f p) : Spares f (fin3.flatMap (State.tankOffers was u)) :=
  Spares.flatMap fun k _ => tankOffers_spares was u k fun p _ => h p _

theorem climates_spare (h : ∀ p x, f { p with climate := x } = f p) : Spares f (fin2.flatMap (State.climateOffers was u)) :=
  Spares.flatMap fun z _ => climateOffers_spares was u z fun p _ => h p _

theorem moves_spare (h : ∀ p x y, f { p with motion := x, interlock := y } = f p) :
    Spares f (fin2.flatMap fun ch => State.motionOffers was u ch ++ State.interlockOffers was u ch) :=
  Spares.flatMap fun ch _ => (motionOffers_spares was u ch fun p _ => h p _ p.interlock).append
    (interlockOffers_spares was u ch fun p _ => h p p.motion _)

theorem lights_spare (h : ∀ p x, f { p with light := x } = f p) : Spares f (fin8.flatMap (State.lightOffers was u)) :=
  Spares.flatMap fun ch _ => lightOffers_spares was u ch fun p _ => h p _

end

/-- TANK goes out with its period (R101). -/
theorem restarted_tank (k : Fin 3) : (State.restarted was u).tank.get k =
    if (u.seq.fns.water && u.inRun && (u.due.tank.get k || was.water.shared != u.water.shared)) = true then some Config.slowPeriodMs
    else u.periods.tank.get k :=
  restarted_key was u (f := fun p => p.tank.get k) (i := k) (by rw [lastOffers_eq]; simp only [List.append_assoc]) (fun _ _ _ _ => rfl)
    (status2Offers_spares u) ((climates_spare was u fun _ _ => rfl).append
      ((moves_spare was u fun _ _ _ => rfl).append (lights_spare was u fun _ _ => rfl))) (by decide) (mem_fin3 k)
    (periodsBy_offer Periods.tank k _ _ _ fun _ => rfl)
    fun j e => tankOffers_spares was u j fun _ _ => Tab.get_set_ne _ _ _ _ e

/-- CLIMATE goes out with its period (R121). -/
theorem restarted_climate (z : Fin 2) : (State.restarted was u).climate.get z =
    if (u.seq.fns.heat && u.inRun && (u.due.climate.get z || was.climateShared != u.climateShared)) = true then some Config.slowPeriodMs
    else u.periods.climate.get z :=
  restarted_key was u (f := fun p => p.climate.get z) (i := z) (by rw [lastOffers_eq]; simp only [List.append_assoc]) (fun _ _ _ _ => rfl)
    ((status2Offers_spares u).append (tanks_spare was u fun _ _ => rfl))
    ((moves_spare was u fun _ _ _ => rfl).append (lights_spare was u fun _ _ => rfl)) (by decide) (mem_fin2 z)
    (periodsBy_offer Periods.climate z _ _ _ fun _ => rfl)
    fun j e => climateOffers_spares was u j fun _ _ => Tab.get_set_ne _ _ _ _ e

/-- MOTION goes out with its period (R145). -/
theorem restarted_motion (ch : Fin 2) : (State.restarted was u).motion.get ch =
    if (u.motionRuns && (u.due.motion.get ch || motionRecord was ch != motionRecord u ch)) = true then some (u.motionPeriodMs ch)
    else u.periods.motion.get ch :=
  restarted_key was u (f := fun p => p.motion.get ch) (i := ch) (lastOffers_eq was u) (fun _ _ _ _ => rfl)
    (((status2Offers_spares u).append (tanks_spare was u fun _ _ => rfl)).append (climates_spare was u fun _ _ => rfl))
    (lights_spare was u fun _ _ => rfl) (by decide) (mem_fin2 ch)
    (fun p => by
      have spares : Spares (fun p => p.motion.get ch) (State.interlockOffers was u ch) := interlockOffers_spares was u ch fun _ _ => rfl
      rw [periodsBy_append]
      exact (spares _).trans (periodsBy_offer Periods.motion ch _ _ _ (fun _ => rfl) p))
    fun j e => (motionOffers_spares was u j fun _ _ => Tab.get_set_ne _ _ _ _ e).append (interlockOffers_spares was u j fun _ _ => rfl)

/-- INTERLOCK goes out with its period (R141). -/
theorem restarted_interlock (ch : Fin 2) : (State.restarted was u).interlock.get ch =
    if (u.inViolation ch && (u.due.interlock.get ch || !was.inViolation ch)) = true then some Config.interlockMs
    else u.periods.interlock.get ch :=
  restarted_key was u (f := fun p => p.interlock.get ch) (i := ch) (lastOffers_eq was u) (fun _ _ _ _ => rfl)
    (((status2Offers_spares u).append (tanks_spare was u fun _ _ => rfl)).append (climates_spare was u fun _ _ => rfl))
    (lights_spare was u fun _ _ => rfl) (by decide) (mem_fin2 ch)
    (fun p => by
      have spares : Spares (fun p => p.interlock.get ch) (State.motionOffers was u ch) := motionOffers_spares was u ch fun _ _ => rfl
      rw [periodsBy_append]
      exact (periodsBy_offer Periods.interlock ch _ _ _ (fun _ => rfl) _).trans (if_congr Iff.rfl rfl (spares p)))
    fun j e => (motionOffers_spares was u j fun _ _ => rfl).append (interlockOffers_spares was u j fun _ _ => Tab.get_set_ne _ _ _ _ e)

/-- LIGHT goes out with its period (R160). -/
theorem restarted_light (ch : Fin 8) : (State.restarted was u).light.get ch =
    if (u.seq.fns.lights && u.inRun && (u.due.light.get ch || was.lightShared ch != u.lightShared ch
      || ((was.light ch).fading && !(u.light ch).fading))) = true then some Config.slowPeriodMs
    else u.periods.light.get ch :=
  restarted_key was u (f := fun p => p.light.get ch) (i := ch) (after := []) (by rw [lastOffers_eq, List.append_nil]) (fun _ _ _ _ => rfl)
    ((((status2Offers_spares u).append (tanks_spare was u fun _ _ => rfl)).append (climates_spare was u fun _ _ => rfl)).append
      (moves_spare was u fun _ _ _ => rfl)) Spares.nil (by decide) (mem_fin8 ch)
    (periodsBy_offer Periods.light ch _ _ _ fun _ => rfl)
    fun j e => lightOffers_spares was u j fun _ _ => Tab.get_set_ne _ _ _ _ e

end

end Sys2Proof.Machine
end

