-- ==== Sys2Proof/Proofs/ModeTurns.lean ====
section
/-! PROOFS. The mode in force has changed, and the heater with it (R105, R109, R110). -/

namespace Sys2Proof.Machine

/-! ### The mode in force has changed (R105, R109, R110) -/

/-- A heater that works. -/
def Heater.works (h : Heater) : Prop := h = .starting ∨ h = .running

/-- With frost service active a Held heater's claim stands at rank 1, or at the 0 a yield has left it (R50, R111). -/
theorem heaterRerank_frost {s : State} (frost : s.climate.frost = true) (held : (s.claim loadHeater).st = .held) :
    s.heaterRerank.claim loadHeater = { s.claim loadHeater with rank := if (s.claim loadHeater).rank = 0 then 0 else 1 } := by
  have one : s.heaterRank = 1 := if_pos frost
  unfold State.heaterRerank
  dsimp only
  by_cases turns : (s.claim loadHeater).rank ≠ 0 ∧ (s.claim loadHeater).rank ≠ s.heaterRank
  · rw [if_pos ⟨held, turns⟩, if_neg turns.1]
    have claim := rerank_held_claim s.heaterRank held
    have reply : (s.rerank loadHeater s.heaterRank).2 = .none := by
      have some := turns.1
      rw [one, rerank_held 1 held]
      split
      · rfl
      · exact if_neg (by omega)
    rw [one] at claim reply ⊢
    generalize s.rerank loadHeater 1 = r at *
    obtain ⟨u, answer⟩ := r
    subst reply
    exact claim
  · rw [if_neg fun h => turns h.2]
    rw [one] at turns
    by_cases zero : (s.claim loadHeater).rank = 0
    · rw [if_pos zero]
      exact (congrArg (fun r => { s.claim loadHeater with rank := r }) zero)
    · have same : (s.claim loadHeater).rank = 1 := by
        by_contra not
        exact turns ⟨zero, not⟩
      rw [if_neg zero]
      exact (congrArg (fun r => { s.claim loadHeater with rank := r }) same)

section
variable {s : State} (works : s.climate.heater.works) (order : s.heaterFits) (run : s.inRun = true)
include works order run

theorem heaterWorks_wanted (frost : s.climate.frost = true) : s.heaterWanted = true := by
  have open_ : s.climate.lockout = false := by
    by_contra locked
    rcases order.lockout (by simpa using locked) with e | e <;> rw [e] at works <;> exact absurd works (by simp [Heater.works])
  simp [State.heaterWanted, frost, open_, run]

theorem heaterWorks_held : (s.claim loadHeater).st = .held := order.held.mpr (works.imp_right .inl)

/-- With frost service active a heater at work goes on. -/
theorem heaterFollows_goesOn (fitted : s.seq.fns.heat = true) (frost : s.climate.frost = true) :
    s.heaterFollows.climate.heater = s.climate.heater ∧ s.heaterFollows.climate.frost = true
      ∧ s.heaterFollows.claim loadHeater = { s.claim loadHeater with rank := if (s.claim loadHeater).rank = 0 then 0 else 1 } := by
  have acts : s.heaterActs = s.heaterRerank := by
    have wanted := heaterWorks_wanted works order run frost
    unfold State.heaterActs
    rcases works with e | e <;> rw [e] <;> exact if_pos wanted
  rw [heaterFollows_eq fitted run, acts]
  have same := heaterRerank_strong frost
  have claim := heaterRerank_frost frost (heaterWorks_held works order run)
  generalize s.heaterRerank = u at *
  have heater : u.climate.heater = s.climate.heater := by rw [same]
  have on : u.climate.frost = true := by rw [same]; exact frost
  exact ⟨heater, on, claim⟩

end

/-- From `s` to `t` the mode in force has changed: the call is cleared unless the mode is Comfort, frost service is worked out
again, and the heater follows. -/
structure ModeTurned (s t : State) : Prop where
  fits : t.heaterFits
  climate : t.climate = { s.climate with
    call := if s.modeInForce = .comfort then s.climate.call else false
    callCount := if s.modeInForce = .comfort then s.climate.callCount else 0
    frost := s.frostServiceNow, heater := t.climate.heater, hen := t.climate.hen, hdem := t.climate.hdem
    startTimer := t.climate.startTimer, runTimer := t.climate.runTimer, purgeTimer := t.climate.purgeTimer
    remembered := t.climate.remembered, tryFailed := t.climate.tryFailed }
  purges : s.climate.heater.works → t.climate.call = false → t.climate.frost = false →
    t.climate.heater = .purging ∧ t.climate.hen = false ∧ t.climate.hdem = 0 ∧ t.climate.purgeTimer = some 180000
  goesOn : s.climate.heater.works → t.climate.frost = true → t.climate.heater = s.climate.heater
    ∧ t.claim loadHeater = { s.claim loadHeater with rank := if (s.claim loadHeater).rank = 0 then 0 else 1 }
  off : s.climate.heater = .off → t.climate.call = false → t.climate.frost = false → (t.claim loadHeater).st = .idle

theorem modeChanged_turned {s : State} (o : s.Ok) (h : s.heaterFits) (draws : s.heaterDraws)
    (fitted : s.seq.fns.heat = true) (run : s.inRun = true) : ModeTurned s s.modeChanged := by
  generalize hv : (if s.modeInForce = .comfort then s else s.setClimate { s.climate with call := false, callCount := 0 }) = v
  have eq : s.modeChanged = v.frostService.heaterFollows := by
    unfold State.modeChanged
    rw [if_pos fitted, ← hv]
  have rest : v = { s with climate := { s.climate with
      call := if s.modeInForce = .comfort then s.climate.call else false
      callCount := if s.modeInForce = .comfort then s.climate.callCount else 0 } } := by
    rw [← hv]
    split <;> rfl
  have ok : v.Ok := by
    rw [rest]
    exact ⟨o.checked, o.lanes, o.claims, o.dropped, o.changes⟩
  have now : v.frostServiceNow = s.frostServiceNow := by rw [rest]; rfl
  have seq : v.seq = s.seq := by rw [rest]
  have claim : v.claim loadHeater = s.claim loadHeater := by rw [rest]; rfl
  have climate : v.climate = { s.climate with
      call := if s.modeInForce = .comfort then s.climate.call else false
      callCount := if s.modeInForce = .comfort then s.climate.callCount else 0 } := by rw [rest]
  clear rest hv
  have order : v.heaterFits := by
    unfold State.heaterFits
    rw [climate, seq, claim]
    exact h.free rfl
  have fittedV : v.seq.fns.heat = true := by rw [seq]; exact fitted
  have runV : v.inRun = true := by rw [State.inRun, seq]; exact run
  have drawsV : v.heaterDraws := by unfold State.heaterDraws; rw [seq]; exact draws
  have served := frostService_served ok order drawsV fittedV runV
  have okW := (frostService_calm v ok).1
  have seqW : v.frostService.seq = s.seq := (frostService_calm v ok).2.1.seq.trans seq
  have runW : v.frostService.inRun = true := by rw [State.inRun, seqW]; exact run
  have fittedW : v.frostService.seq.fns.heat = true := by rw [seqW]; exact fitted
  have heater : v.climate.heater = s.climate.heater := by rw [climate]
  rw [now] at served
  have strong : v.climate.heater.works → v.frostService.climate.frost = true → v.frostService.climate.heater = v.climate.heater
      ∧ ({ v.frostService.claim loadHeater with rank := if (v.frostService.claim loadHeater).rank = 0 then 0 else 1 } : Claim)
        = { v.claim loadHeater with rank := if (v.claim loadHeater).rank = 0 then 0 else 1 } := by
    rw [frostService_eq ok fittedV runV]
    intro works frost
    split at frost
    · next same => rw [if_pos same]; exact ⟨rfl, rfl⟩
    · next turns =>
      rw [if_neg turns]
      have okX := (setClimate_calm v { v.climate with
        frost := v.frostServiceNow, tryFailed := v.climate.tryFailed && v.frostServiceNow } ok).1
      generalize hx : v.setClimate { v.climate with
        frost := v.frostServiceNow, tryFailed := v.climate.tryFailed && v.frostServiceNow } = x at *
      have climateX : x.climate = { v.climate with
        frost := v.frostServiceNow, tryFailed := v.climate.tryFailed && v.frostServiceNow } := by rw [← hx]; rfl
      have seqX : x.seq = v.seq := by rw [← hx]; rfl
      have claimX : x.claim loadHeater = v.claim loadHeater := by rw [← hx]; rfl
      have orderX : x.heaterFits := by
        unfold State.heaterFits
        rw [climateX, seqX, claimX]
        exact order.free rfl
      have nowX : x.climate.frost = true := by
        rw [← frost]
        exact (heaterFollows_followed okX orderX (by unfold State.heaterDraws; rw [seqX]; exact drawsV)
          (by rw [seqX]; exact fittedV) (by rw [State.inRun, seqX]; exact runV)).frost.symm
      have worksX : x.climate.heater.works := by rw [climateX]; exact works
      obtain ⟨same, -, ranked⟩ := heaterFollows_goesOn worksX orderX (by rw [State.inRun, seqX]; exact runV) (by rw [seqX]; exact fittedV) nowX
      rw [same, ranked, claimX, climateX]
      refine ⟨rfl, ?_⟩
      split <;> simp_all
  rw [eq]
  generalize v.frostService = w at *
  have followed := heaterFollows_followed okW served.fits (by unfold State.heaterDraws; rw [seqW]; exact draws) fittedW runW
  have fieldsW := served.climate
  have callT : w.heaterFollows.climate.call = w.climate.call := followed.call
  have frostT : w.heaterFollows.climate.frost = w.climate.frost := followed.frost
  have unwanted : w.heaterFollows.climate.call = false → w.heaterFollows.climate.frost = false → w.heaterWanted = false := by
    intro call frost
    rw [callT] at call
    rw [frostT] at frost
    simp [State.heaterWanted, call, frost]
  refine ⟨followed.fits, ?_, fun works call frost => ?_, fun works frost => ?_, fun off call frost => ?_⟩
  · rw [followed.climate, fieldsW, climate]
  · have not := unwanted call frost
    have idles : ¬ w.heaterFollows.climate.heater.works := fun e => by rw [followed.works e] at not; cases not
    have purge : w.heaterFollows.climate.heater = .purging := by
      rcases served.stays with e | ⟨-, e⟩
      · rcases followed.stays with k | ⟨-, k⟩
        · rw [k, e, heater] at idles
          exact absurd works idles
        · exact k
      · rcases followed.stays with k | ⟨-, k⟩
        · rw [k, e]
        · exact k
    have hen : w.heaterFollows.climate.hen = false := by
      have on := followed.fits.hen
      by_contra e
      exact idles (on.mp (by simpa using e))
    refine ⟨purge, hen, followed.fits.cold hen, ?_⟩
    by_cases before : w.climate.heater = .purging
    · obtain ⟨-, timer, -⟩ := followed.awaits before
      rw [timer]
      exact (served.purges (by rw [heater]; rintro e; rw [e] at works; exact absurd works (by simp [Heater.works])) before).1
    · exact (followed.purges before purge).1
  · rw [frostT] at frost
    obtain ⟨same, ranked⟩ := strong (by rw [heater]; exact works) frost
    have worksW : w.climate.heater.works := by rw [same, heater]; exact works
    obtain ⟨stays, -, claimT⟩ := heaterFollows_goesOn worksW served.fits runW fittedW frost
    rw [stays, same, heater, claimT, ranked, claim]
    exact ⟨rfl, rfl⟩
  · have idleW : w.climate.heater = .off := by
      rcases served.stays with e | ⟨e, -⟩
      · rw [e, heater, off]
      · rw [heater, off] at e
        exact absurd e (by simp)
    have idleT : w.heaterFollows.climate.heater = .off := by
      rcases followed.stays with e | ⟨e, -⟩
      · rw [e, idleW]
      · rw [idleW] at e
        exact absurd e (by simp)
    by_contra claims
    have wanted := (followed.off idleT).mpr claims
    rw [unwanted call frost] at wanted
    cases wanted

end Sys2Proof.Machine
end

