-- ==== Sys2Proof/Proofs/Ceiling.lean ====
section
/-! PROOFS. Targets stay within the ceiling (R155). -/

namespace Sys2Proof.Machine

/-! ### Targets stay within the ceiling (R155) -/

/-- No target lies above the ceiling. -/
def State.within (s : State) : Prop := ∀ ch, (s.light ch).target ≤ s.lights.ceiling

/-- The ceiling stands, and targets within it stay so. -/
def Caps (s t : State) : Prop := t.lights.ceiling = s.lights.ceiling ∧ (s.within → t.within)

section
variable {s t u : State}

theorem Caps.refl (s : State) : Caps s s := ⟨rfl, id⟩

theorem Caps.trans (h : Caps s t) (k : Caps t u) : Caps s u := ⟨k.1.trans h.1, k.2 ∘ h.2⟩

theorem Caps.ite {c : Prop} [Decidable c] {a b : State} (h : c → Caps s a) (k : ¬ c → Caps s b) : Caps s (if c then a else b) := by
  split
  · exact h ‹_›
  · exact k ‹_›

/-- An operation that leaves the channels and the ceiling. -/
theorem Caps.same (chans : t.lights.chans = s.lights.chans) (ceiling : t.lights.ceiling = s.lights.ceiling) : Caps s t :=
  ⟨ceiling, fun w ch => by
    rw [light_congr chans, ceiling]
    exact w ch⟩

theorem Shared.caps (h : Shared s t) : Caps s t := Caps.same (by rw [h.lights]) (by rw [h.lights])

end

theorem setGroup_caps (s : State) (g : Fin 2) (x : Group) : Caps s (s.setGroup g x) := Caps.same rfl rfl

theorem takeTargets_caps (s : State) (g : Fin 2) (t : Tab 4 Nat) (h : ∀ k, t.get k ≤ s.lights.ceiling) : Caps s (s.takeTargets g t) := by
  have aimed : Caps s (s.aimed g t) := by
    refine ⟨rfl, fun w ch => ?_⟩
    show ((s.aimed g t).light ch).target ≤ s.lights.ceiling
    by_cases own : groupOf ch = g
    · subst own
      obtain ⟨k, e⟩ := groupChan_surjective ch
      have light := aimed_light s (groupOf ch) t k
      rw [e] at light
      rw [light, retarget_target]
      exact h k
    · rw [aimed_other s g t own]
      exact w ch
  exact aimed.trans (amend_shared (s.aimed g t) g).caps

theorem requestTaken_caps (s : State) (g : Fin 2) (r : GroupReq) (h : ∀ k, r.trial.get k ≤ s.lights.ceiling) :
    Caps s (s.requestTaken g r) := by
  have set := setGroup_caps s g { pending := none, result := resultOf r.scale }
  unfold State.requestTaken
  generalize s.setGroup g { pending := none, result := resultOf r.scale } = u at *
  exact set.trans ((takeTargets_caps u g _ fun k => by rw [set.1]; exact h k).trans (finishRequest_shared _ _).caps)

theorem requestRefused_caps (s : State) (g : Fin 2) (r : GroupReq) : Caps s (s.requestRefused g r) :=
  (setGroup_caps s g _).trans ((amend_shared _ g).trans (finishRequest_shared _ _)).caps

theorem askGroup_caps (s : State) (g : Fin 2) (x : Group) (a : Nat) : Caps s ((s.setGroup g x).askGroup g a).1 :=
  (setGroup_caps s g x).trans (askGroup_shared _ g a).caps

/-- A scaled request lies between the targets and what was wanted. -/
theorem scaledTargets_le {s : State} {g : Fin 2} {want : Tab 4 Nat} {x : Nat} (scale : x ≤ 1000) {c : Nat} (h : ∀ k, want.get k ≤ c)
    (k : Fin 4) : (s.scaledTargets g want x).get k ≤ c := by
  rw [get_scaledTargets]
  have bound := h k
  split
  · next below =>
    have part : (want.get k - (s.light (groupChan g k)).target) * x / 1000 ≤ want.get k - (s.light (groupChan g k)).target := by
      apply Nat.div_le_of_le_mul
      rw [Nat.mul_comm]
      exact Nat.mul_le_mul_right _ scale
    omega
  · exact bound

theorem tryScales_caps (g : Fin 2) (r : GroupReq) (l : List Nat) (s : State) (scales : ∀ x ∈ l, x ≤ 1000)
    (h : ∀ k, r.want.get k ≤ s.lights.ceiling) : Caps s (tryScales g r l s) := by
  induction l generalizing r s with
  | nil => exact requestRefused_caps s g r
  | cons x xs ih =>
    have trial := scaledTargets_le (s := s) (g := g) (scales x (List.mem_cons_self ..)) h
    rw [tryScales_cons]
    dsimp only
    have asked := askGroup_caps s g { s.group g with pending := some { r with trial := s.scaledTargets g r.want x, scale := x } }
      (s.scaleCover g r.want x)
    refine Caps.ite (fun _ => requestTaken_caps s g _ trial) (fun _ => Caps.ite (fun _ => asked.trans (ih _ _
      (fun y m => scales y (List.mem_cons_of_mem _ m)) fun k => ?_)) (fun _ => Caps.ite
        (fun _ => asked.trans (requestTaken_caps _ g _ fun k => ?_)) (fun _ => asked)))
    · rw [asked.1]
      exact h k
    · rw [asked.1]
      exact trial k

theorem capped_le (s : State) (t : Tab 4 Nat) (k : Fin 4) : (s.capped t).get k ≤ s.lights.ceiling :=
  (congrArg (· ≤ s.lights.ceiling) (Tab.get_map _ _ _)).mpr (min_le_right _ _)

theorem scales_le : ∀ x ∈ [750, 500, 250], x ≤ 1000 := by decide

theorem changeGroup_caps (s : State) (g : Fin 2) (t : Tab 4 Nat) (req : Nat) : Caps s (s.changeGroup g t req) := by
  rw [changeGroup_eq]
  have asked : Caps s ((s.proposed g t req).askGroup g (s.covering g (s.capped t))).1 := askGroup_caps s g _ _
  refine Caps.ite (fun _ => takeTargets_caps s g _ (capped_le s t)) (fun _ => Caps.ite
    (fun _ => asked.trans (tryScales_caps g _ _ _ scales_le fun k => ?_)) (fun _ => Caps.ite
      (fun _ => asked.trans (requestTaken_caps _ g _ fun k => ?_)) (fun _ => asked)))
  · rw [asked.1]
    exact capped_le s t k
  · rw [asked.1]
    exact capped_le s t k

theorem courtesyChange_caps (s : State) (ch : Fin 8) (d : CourtesyDue) : Caps s (s.courtesyChange ch d) := by
  have marked : ∀ d, Caps s (s.setLights { s.lights with due := d }) := fun _ => Caps.same rfl rfl
  unfold State.courtesyChange
  refine Caps.ite (fun _ => marked d) (fun _ => (marked .none).trans ?_)
  cases d with
  | none => exact Caps.refl _
  | light => exact Caps.ite (fun _ => changeGroup_caps _ _ _ _) (fun _ => Caps.refl _)
  | restore => exact changeGroup_caps _ _ _ _

theorem courtesyResumes_caps (s : State) : Caps s s.courtesyResumes := by
  unfold State.courtesyResumes
  split
  · exact Caps.refl s
  · exact Caps.ite (fun _ => Caps.refl s) (fun _ => courtesyChange_caps s _ _)

theorem amend_lights (s : State) (g : Fin 2) : (s.amend g).lights = s.lights := (amend_shared s g).lights

/-- The ceiling worked out again is the one in force, and the targets come down to it. -/
theorem ceilingFollows_lights (s : State) : s.ceilingFollows.lights = { s.lights with
    ceiling := s.ceilingNow
    chans := s.lights.chans.map fun l => if s.ceilingNow < l.target then l.retarget (Item.fadeMs s.seq.values) s.ceilingNow else l } := by
  unfold State.ceilingFollows
  rw [amend_lights, amend_lights]
  rfl

theorem ceilingFollows_light (s : State) (ch : Fin 8) : s.ceilingFollows.light ch =
    if s.ceilingNow < (s.light ch).target then (s.light ch).retarget (Item.fadeMs s.seq.values) s.ceilingNow else s.light ch := by
  unfold State.light
  rw [ceilingFollows_lights]
  exact Tab.get_map _ _ _

theorem ceilingFollows_within (s : State) : s.ceilingFollows.within := fun ch => by
  rw [ceilingFollows_light, ceilingFollows_lights]
  split
  · exact (retarget_target _ _ _).le
  · next h => exact not_lt.mp h

end Sys2Proof.Machine
end

