-- ==== Sys2Proof/Proofs/StorageTold.lean ====
section
/-! PROOFS. Storage is told to the lights, the heater and the channels (R147, R187). -/

namespace Sys2Proof.Machine

/-! ### Storage is entered or left (R187) -/

/-- Any claim may be asked or released, no monitor turns, and nothing is handed over for its period. -/
def quietly : Scope := { mons := fun _ => False, loads := fun _ => True, hands := False }

theorem quietly_loads : ∀ j, Fact (quietly.loads j) := fun _ => ⟨trivial⟩

theorem inStorage_lit (s : State) : Lit s ((s.requestEndsInStorage 0).requestEndsInStorage 1) :=
  (requestEndsInStorage_lit s 0).trans (requestEndsInStorage_lit _ 1)

theorem setStorage_rest (s : State) (b : Bool) : (s.storageSet b).climate = s.climate ∧ (s.storageSet b).seq = { s.seq with storage := b }
    ∧ (s.storageSet b).water = s.water ∧ (s.storageSet b).view = s.view ∧ (s.storageSet b).broker = s.broker
    ∧ (s.storageSet b).lights = s.lights ∧ (s.storageSet b).motion = s.motion ∧ (s.storageSet b).pins = s.pins
    ∧ (s.storageSet b).supply = { s.supply with onNext := s.seq.fns.supply } := ⟨rfl, rfl, rfl, rfl, rfl, rfl, rfl, rfl, rfl⟩

/-- The mode of Storage, before frost service and the lights follow it. -/
theorem storageSet_served (s : State) (b : Bool) (fitted : s.seq.fns.heat = true) (run : s.inRun = true) :
    (s.storageSet b).frostServiceNow = (decide (b = true ∨ s.climate.chosen ≠ .off)
      && ((s.seq.fns.water && s.water.demand) || s.entries.any Entry.showsFrostDemand)) := by
  show (s.seq.fns.heat && s.inRun && (if b = true then ClimateMode.frostOnly else s.climate.chosen) != .off
    && ((s.seq.fns.water && s.water.demand) || s.entries.any Entry.showsFrostDemand)) = _
  rw [fitted, run]
  cases b <;> cases s.climate.chosen <;> rfl

/-! #### The Extends that Storage ends (R147) -/

section
variable {s : State} (o : s.Ok) (ch : Fin 2) (order : (s.chan ch).followOn ≠ .none → (s.chan ch).pending ≠ .extend)
include o order

theorem extendEndsInStorage_chan : ((s.extendEndsInStorage ch).chan ch).pending ≠ .extend
    ∧ ((s.extendEndsInStorage ch).chan ch).followOn ≠ .extend := by
  unfold State.extendEndsInStorage
  dsimp only
  by_cases pends : (s.chan ch).pending = .extend
  · have calm : (s.chan ch).followOn ≠ .extend := by
      intro e
      exact order (by rw [e]; nofun) pends
    rw [if_pos pends]
    split
    · rw [(endPending_ended o _).1]
      exact ⟨nofun, calm⟩
    · have motion : ((s.dropPending ch).reviseOutcome (s.chan ch).req Outcome.storage).motion = (s.dropPending ch).motion :=
        (reviseOutcome_shared _ _ _).motion
      rw [chan_of_motion motion ch]
      have dropped : (s.dropPending ch).chan ch = { s.chan ch with
          pending := .none, req := 0, idle := if (s.chan ch).atRest && !(s.chan ch).calibrating then some Config.idleMs else (s.chan ch).idle } :=
        chan_setChan_self s ch _
      rw [dropped]
      exact ⟨nofun, calm⟩
  · rw [if_neg pends]
    split
    · have motion : (((s.modChan ch fun c => { c with followOn := .none, req := 0 }).release (loadMotor ch)).reviseOutcome (s.chan ch).req
          Outcome.storage).motion = (s.modChan ch fun c => { c with followOn := .none, req := 0 }).motion :=
        ((release_shared _ _).trans (reviseOutcome_shared _ _ _)).motion
      rw [chan_of_motion motion ch]
      have dropped : (s.modChan ch fun c => { c with followOn := .none, req := 0 }).chan ch = { s.chan ch with followOn := .none, req := 0 } :=
        chan_setChan_self s ch _
      rw [dropped]
      exact ⟨pends, nofun⟩
    · next follows => exact ⟨pends, follows⟩

end

theorem extendEndsInStorage_only (s : State) (ch : Fin 2) : Only ch s (s.extendEndsInStorage ch) := by
  unfold State.extendEndsInStorage
  exact Only.ite (Only.ite (endPending_only s ch _) ((modChan_only s ch _).trans (reviseOutcome_shared _ _ _).only))
    (Only.ite ((modChan_only s ch _).trans (((release_shared _ _).trans (reviseOutcome_shared _ _ _)).only)) (Only.refl s))

/-- The Extends of both channels end. -/
def State.extendsEnd (s : State) : State := (s.extendEndsInStorage 0).extendEndsInStorage 1

theorem extendsEnd_moved (s : State) : Moved s s.extendsEnd :=
  (extendEndsInStorage_moved s 0).trans (extendEndsInStorage_moved _ 1)

theorem extendsEnd_steady (s : State) : Steady s s.extendsEnd :=
  (extendEndsInStorage_steady s 0).trans (extendEndsInStorage_steady _ 1)

theorem extendEndsInStorage_lights (s : State) (ch : Fin 2) : (s.extendEndsInStorage ch).lights = s.lights := by
  unfold State.extendEndsInStorage
  dsimp only
  split
  · split
    · exact ((release_shared _ _).trans (reviseOutcome_shared _ _ _)).lights
    · exact (reviseOutcome_shared _ _ _).lights
  · split
    · exact ((release_shared _ _).trans (reviseOutcome_shared _ _ _)).lights
    · rfl

theorem extendsEnd_lights (s : State) : s.extendsEnd.lights = s.lights :=
  (extendEndsInStorage_lights _ 1).trans (extendEndsInStorage_lights s 0)

theorem extendsEnd_chan {s : State} (o : s.Ok) (order : ∀ ch, (s.chan ch).followOn ≠ .none → (s.chan ch).pending ≠ .extend) (ch : Fin 2) :
    (s.extendsEnd.chan ch).pending ≠ .extend ∧ (s.extendsEnd.chan ch).followOn ≠ .extend := by
  have first := extendEndsInStorage_chan o 0 (order 0)
  have stands := (extendEndsInStorage_only s 0).other 1 (by decide)
  have ok := (extendEndsInStorage_steady s 0 o).1
  unfold State.extendsEnd
  generalize s.extendEndsInStorage 0 = u at *
  match ch with
  | 0 =>
    rw [(extendEndsInStorage_only u 1).other 0 (by decide)]
    exact first
  | 1 => exact extendEndsInStorage_chan ok 1 (by rw [stands]; exact order 1)

/-- Once the requests of the lights have ended, the mode changes and the lights come down to the ceiling. -/
def State.modeFollows (s : State) : State := s.modeChanged.ceilingFollows.courtesyResumes

theorem storageEntered_eq (s : State) : s.storageEntered
    = (((s.storageSet true).requestEndsInStorage 0).requestEndsInStorage 1).modeFollows.extendsEnd := rfl

theorem modeFollows_calm (s : State) : Calm s s.modeFollows :=
  (modeChanged_calm s).trans ((ceilingFollows_calm _).trans (courtesyResumes_calm _))

/-- The lights as a change of the mode leaves them. -/
theorem modeFollows_lights {s : State} (o : s.Ok) :
    s.modeFollows.lights.ceiling = s.ceilingNow ∧ s.modeFollows.within := by
  have lights : s.modeChanged.lights = s.lights := (modeChanged_warm s).lights
  obtain ⟨-, base, -⟩ := modeChanged_calm s o
  have level : s.modeChanged.broker.level = s.broker.level := by
    have heater : Fact (heaterAlone.loads loadHeater) := ⟨rfl⟩
    obtain ⟨n, within⟩ := waitWithin_exists s
    obtain ⟨-, -, tended⟩ := modeChanged_tends (k := heaterAlone) s o within
    exact (tended.levels.1 id).1
  have now : s.modeChanged.ceilingNow = s.ceilingNow := by
    unfold State.ceilingNow
    rw [base.seq, level]
  unfold State.modeFollows
  generalize s.modeChanged = v at *
  obtain ⟨ceiling, keeps⟩ := courtesyResumes_caps v.ceilingFollows
  refine ⟨?_, keeps (ceilingFollows_within v)⟩
  rw [ceiling, ceilingFollows_lights, ← now]

end Sys2Proof.Machine
end

