-- ==== Sys2Proof/Proofs/StorageRequests.lean ====
section
/-! PROOFS. EnterStorage and LeaveStorage, settled (R187). -/

namespace Sys2Proof.Proofs
open Sys2Proof.Machine

/-! ### Storage is entered and left (R187) -/

/-- What the answer to a request and the new mode of Storage leave, before any block is told. -/
structure Told (b : Bool) (s v : State) : Prop where
  ok : v.Ok
  seq : v.seq = { s.seq with storage := b }
  climate : v.climate = s.climate
  view : v.view = s.view
  water : v.water = s.water
  broker : v.broker = s.broker
  motion : v.motion = s.motion
  lights : v.lights = s.lights
  pins : v.pins = s.pins
  supply : v.supply = { s.supply with onNext := s.seq.fns.supply }
  period : v.periods.supply = none
  status0 : v.due.status0 = true
  supplyDue : v.due.supply = false
  tells : v.status.serial = s.status.serial + 1

theorem answer_serial (s : State) (code o : Nat) : (s.taken.answer code o).status.serial = s.status.serial + 1 := rfl

theorem answer_due (s : State) (code o : Nat) : (s.taken.answer code o).due.status0 = true
    ∧ (s.taken.answer code o).due.supply = s.due.supply := ⟨rfl, rfl⟩

theorem answer_storage (s : State) (code o : Nat) : (s.taken.answer code o).seq.storage = s.seq.storage := rfl

section
variable {s v : State} {b : Bool} {code : Nat} (fits : s.Fits)
include fits

theorem answered_told (code o : Nat) (b : Bool) : Told b s ((s.taken.answer code o).storageSet b) := by
  have ok := storageSet_ok (answer_calm s.taken code o (taken_keeps s fits.sound.sane).ok).1 b
  have rest := answer_rest s code o
  have serial := answer_serial s code o
  have quiet : s.due.supply = false := by rw [fits.sound.quiet.2.1]; rfl
  obtain ⟨status0, due⟩ := answer_due s code o
  generalize s.taken.answer code o = a at *
  obtain ⟨climate, seq, water, view, broker, lights, motion, pins, supply⟩ := setStorage_rest a b
  exact {
    ok := ok
    seq := by rw [seq, rest]
    climate := by rw [climate, rest]
    view := by rw [view, rest]
    water := by rw [water, rest]
    broker := by rw [broker, rest]
    motion := by rw [motion, rest]
    lights := by rw [lights, rest]
    pins := by rw [pins, rest]
    supply := by rw [supply, rest]
    period := rfl
    status0 := status0
    supplyDue := due.trans quiet
    tells := serial }

variable (told : Told b s v)
include told

omit fits in
theorem Told.claim (id : Fin 7) : v.claim id = s.claim id := by rw [State.claim, told.broker]; rfl

theorem Told.order : v.heaterFits := by
  unfold State.heaterFits
  rw [told.climate, told.seq, told.claim]
  exact fits.heater

theorem Told.within : v.waitWithin s.status.serial := by
  unfold State.waitWithin State.chan State.group
  rw [told.motion, told.lights]
  exact fits.requests

/-- The periods and the outcome at the end of the step, where the owners have acted on the new mode. -/
theorem Told.ends {u : State} (run : s.seq.phase = .run) (seq : u.seq = v.seq) (view : u.view = v.view)
    (tends : Tends quietly s.status.serial v u) :
    let t := State.publish s u
    t.periods.supply = none ∧ t.periods.status = some (if b = true then 5000 else 1000)
      ∧ (s.seq.fns.heat = true → s.modeInForce ≠ u.modeInForce → ∀ z, t.periods.climate.get z = some 5000)
      ∧ (v.shows code 1 → u.shows code 1) := by
  obtain ⟨-, -, tended⟩ := tends told.ok (told.within fits)
  have marks := tended.marks id
  have quiet : u.view.changes = [] := by rw [view, told.view]; exact fits.sound.quiet.1
  have pub : u.publishes = true := by
    rw [State.publishes, seq, told.seq]
    simp [run]
  have runs : u.inRun = true := by rw [State.inRun, seq, told.seq]; simp [run]
  have status0 : u.due.status0 = true := by rw [marks.due]; exact told.status0
  have supplyDue : u.due.supply = false := by rw [marks.due]; exact told.supplyDue
  have period : u.periods.supply = none := marks.supply.elim (fun e => e.trans told.period) id
  dsimp only
  rw [publish_periods quiet pub]
  refine ⟨?_, ?_, fun fitted differs z => ?_, fun shown => ?_⟩
  · show (State.restarted s u).supply = none
    rw [restarted_supply, if_neg (by rw [supplyDue]; simp), period]
  · show (State.restarted s u).status = _
    rw [restarted_status, if_pos (by rw [status0]; rfl), if_pos runs]
    unfold State.statusPeriodMs
    rw [seq, told.seq]
    cases b <;> rfl
  · show (State.restarted s u).climate.get z = _
    rw [restarted_climate, if_pos]
    · rfl
    · have apart : s.climateShared ≠ u.climateShared := fun e => differs (congrArg (fun x => x.2.1) e)
      rw [seq, told.seq, runs]
      simp [fitted, apart]
  · exact ⟨tended.request.trans shown.1, (tended.outcome (by rw [told.tells]; exact Nat.lt_succ_self _)).trans shown.2⟩

end

section
variable {s : State} (fits : s.Fits) (run : s.seq.phase = .run)
include fits run

/-- The heater as the mode of Storage turns, from the state in which the lights have been told. -/
theorem heater_turned {b : Bool} {v w : State} (told : Told b s v) (fitted : s.seq.fns.heat = true) (ok : w.Ok) (seq : w.seq = v.seq)
    (climate : w.climate = v.climate) (view : w.view = v.view) (water : w.water = v.water)
    (stirs : (v.claim loadHeater).stirs (w.claim loadHeater)) :
    ModeTurned w w.modeChanged ∧ w.climate = s.climate ∧ w.modeInForce = (if b = true then ClimateMode.frostOnly else s.climate.chosen)
      ∧ w.frostServiceNow = (decide (b = true ∨ s.climate.chosen ≠ .off)
        && ((s.seq.fns.water && s.water.demand) || s.entries.any Entry.showsFrostDemand))
      ∧ (s.climate.heater.works → w.claim loadHeater = s.claim loadHeater) := by
  have order : w.heaterFits := (told.order fits).stirs climate (by rw [seq]) stirs
  have climateS : w.climate = s.climate := climate.trans told.climate
  have seqS : w.seq = { s.seq with storage := b } := seq.trans told.seq
  refine ⟨modeChanged_turned ok order (by unfold State.heaterDraws; rw [seqS]; exact fits.values.heaterDraws)
    (by rw [seqS]; exact fitted) (by rw [State.inRun, seqS]; simp [run]), climateS, ?_, ?_, fun works => ?_⟩
  · unfold State.modeInForce
    rw [seqS, climateS]
  · rw [← storageSet_served s b fitted (by simp [State.inRun, run])]
    exact frostServiceNow_congr (view.trans told.view) seqS climateS (by rw [water, told.water]; rfl)
  · have held : (v.claim loadHeater).st = .held := by
      rw [told.claim]
      exact fits.heater.held.mpr (works.imp_right .inl)
    rw [Claim.stirs_same stirs (by rw [held]; nofun), told.claim]

theorem storage_entered (storage : s.seq.storage = false) (drive : s.view.driveAccepted = false) :
    let t := State.publish s (s.taken.answer 14 1).storageEntered
    t.seq = { s.seq with storage := true } ∧ t.shows 14 1 ∧ t.pins = s.pins ∧ t.lights.ceiling = 0
      ∧ (∀ ch, (t.light ch).target = 0) ∧ (∀ ch, (t.chan ch).pending ≠ .extend ∧ (t.chan ch).followOn ≠ .extend)
      ∧ t.supply = { s.supply with onNext := s.seq.fns.supply } ∧ t.periods.supply = none
      ∧ t.periods.status = some 5000
      ∧ (s.seq.fns.heat = true → t.climate.chosen = s.climate.chosen ∧ t.climate.call = false
          ∧ t.climate.callCount = 0 ∧ t.climate.frost = ((s.seq.fns.water && s.water.demand) || s.entries.any Entry.showsFrostDemand)
          ∧ (s.climate.heater.works → t.climate.frost = false → t.climate.heater = .purging ∧ t.climate.hen = false
              ∧ t.climate.hdem = 0 ∧ t.climate.purgeTimer = some 180000)
          ∧ (s.climate.heater.works → t.climate.frost = true → t.climate.heater = s.climate.heater
              ∧ (t.claim loadHeater).st = .held
              ∧ (t.claim loadHeater).rank = if (s.claim loadHeater).rank = 0 then 0 else 1)
          ∧ (s.climate.heater = .off → t.climate.frost = false → (t.claim loadHeater).st = .idle)
          ∧ (s.climate.chosen ≠ .frostOnly → ∀ z, t.periods.climate.get z = some 5000)) := by
  have told := answered_told fits 14 1 true
  have shown : ((s.taken.answer 14 1).storageSet true).shows 14 1 := ⟨rfl, rfl⟩
  rw [storageEntered_eq]
  generalize (s.taken.answer 14 1).storageSet true = v at told shown ⊢
  have all := quietly_loads
  have within := told.within fits
  have litV := inStorage_lit v
  have calmW : Calm v ((v.requestEndsInStorage 0).requestEndsInStorage 1) :=
    (requestEndsInStorage_calm v 0).trans (requestEndsInStorage_calm _ 1)
  have tendsW : ∀ k : Scope, (∀ g, Fact (k.loads (loadLights g))) → Tends k s.status.serial v
      ((v.requestEndsInStorage 0).requestEndsInStorage 1) := fun k lit =>
    (requestEndsInStorage_tends v 0).trans (requestEndsInStorage_tends _ 1)
  generalize (v.requestEndsInStorage 0).requestEndsInStorage 1 = w at litV calmW tendsW ⊢
  obtain ⟨okW, baseW, motionW⟩ := calmW told.ok
  have heater := (tendsW lightsReach lightsReach_lit told.ok within).2.2.claims loadHeater (show ¬ 5 ≤ (0 : Fin 7).val by decide)
  have climateW : w.climate = v.climate := litV.climate
  have waterW : w.water = v.water := litV.water
  have turned := fun fitted => heater_turned fits run told fitted okW baseW.seq climateW baseW.view waterW heater
  obtain ⟨okX, baseX, motionX⟩ := modeFollows_calm w okW
  obtain ⟨ceilingX, withinX⟩ := modeFollows_lights okW
  have litX : Lit w.modeChanged w.modeFollows := (ceilingFollows_lit _).trans (courtesyResumes_lit _)
  have tendsX : Tends lightsReach s.status.serial w.modeChanged w.modeFollows :=
    have lit := lightsReach_lit
    (ceilingFollows_tends _).trans (courtesyResumes_tends _)
  have okM := (modeChanged_calm w okW).1
  have tends : Tends quietly s.status.serial v w.modeFollows.extendsEnd :=
    (tendsW quietly fun _ => ⟨trivial⟩).trans (((modeChanged_tends w).trans ((ceilingFollows_tends _).trans (courtesyResumes_tends _))).trans
      ((extendEndsInStorage_tends _ 0).trans (extendEndsInStorage_tends _ 1)))
  have heaterX : (w.modeChanged.claim loadHeater).stirs (w.modeFollows.claim loadHeater) := by
    obtain ⟨n, x⟩ := waitWithin_exists w.modeChanged
    have lit := lightsReach_lit
    exact (((ceilingFollows_tends (k := lightsReach) _).trans (courtesyResumes_tends _)) okM x).2.2.claims loadHeater
      (show ¬ 5 ≤ (0 : Fin 7).val by decide)
  have climateX : w.modeFollows.climate = w.modeChanged.climate := litX.climate
  generalize w.modeFollows = x at okX baseX motionX ceilingX withinX litX tendsX tends heaterX climateX ⊢
  have order : ∀ ch, (x.chan ch).followOn ≠ .none → (x.chan ch).pending ≠ .extend := fun ch follows => by
    rw [chan_of_motion (motionX.trans (motionW.trans told.motion)) ch] at follows ⊢
    have chan := fits.channel ch
    rcases chan.braking (chan.follows follows) with e | ⟨e, -⟩ <;> rw [e] <;> nofun
  have chans := extendsEnd_chan okX order
  obtain ⟨okY, baseY, -⟩ := extendsEnd_steady x okX
  have lightsY := extendsEnd_lights x
  have climateY : x.extendsEnd.climate = x.climate := (extendsEnd_moved x).climate
  have heaterY : (x.claim loadHeater).stirs (x.extendsEnd.claim loadHeater) := by
    have motors := motorsReach_motor
    obtain ⟨n, z⟩ := waitWithin_exists x
    exact (((extendEndsInStorage_tends (k := motorsReach) x 0).trans (extendEndsInStorage_tends _ 1)) okX z).2.2.claims loadHeater
      (show ¬ 3 ≤ (0 : Fin 7).val by decide)
  generalize x.extendsEnd = u at chans okY baseY lightsY climateY heaterY tends ⊢
  have seq : u.seq = v.seq := baseY.seq.trans (baseX.seq.trans baseW.seq)
  have view : u.view = v.view := baseY.view.trans (baseX.view.trans baseW.view)
  have supply : u.supply = v.supply := baseY.supply.trans (baseX.supply.trans baseW.supply)
  have pins : u.pins = v.pins := baseY.pins.trans (baseX.pins.trans baseW.pins)
  obtain ⟨stopped, status, climates, shows⟩ := told.ends fits (code := 14) run seq view tends
  have handed := publish_handedOver s u (by rw [view, told.view]; exact fits.sound.quiet.1)
  have zero : x.lights.ceiling = 0 := by
    rw [ceilingX]
    unfold State.ceilingNow
    rw [baseW.seq, told.seq]
    rfl
  have climate : u.climate = w.modeChanged.climate := climateY.trans climateX
  have claim : (w.modeChanged.claim loadHeater).stirs (u.claim loadHeater) := Claim.stirs_trans heaterX heaterY
  dsimp only
  generalize State.publish s u = t at *
  refine ⟨by rw [handed.seq, seq, told.seq], ?_, by rw [handed.pins, pins, told.pins], by rw [handed.lights, lightsY, zero],
    fun ch => ?_, fun ch => ?_, by rw [handed.supply, supply, told.supply], stopped, status, fun fitted => ?_⟩
  · unfold State.shows
    rw [handed.status]
    exact shows shown
  · have bound := withinX ch
    rw [handed.light, light_congr (s := x) (t := u) (by rw [lightsY]), ← Nat.le_zero, ← zero]
    exact bound
  · rw [handed.chan]
    exact chans ch
  · obtain ⟨mode, climateS, force, now, claimS⟩ := turned fitted
    have fields := mode.climate
    have frosty : w.modeInForce ≠ .comfort := by rw [force]; exact nofun
    rw [climateS, if_neg frosty, if_neg frosty, now] at fields
    rw [handed.climate, climate, handed.claim]
    refine ⟨by rw [fields], by rw [fields], by rw [fields], by rw [fields]; rfl, fun works frost => ?_, fun works frost => ?_,
      fun off frost => ?_, fun chosen => ?_⟩
    · exact mode.purges (by rw [climateS]; exact works) (by rw [fields]) frost
    · obtain ⟨stays, ranked⟩ := mode.goesOn (by rw [climateS]; exact works) frost
      rw [climateS] at stays
      rw [claimS works] at ranked
      have held : (w.modeChanged.claim loadHeater).st = .held := by
        rw [ranked]
        exact fits.heater.held.mpr (works.imp_right .inl)
      rw [Claim.stirs_same claim (by rw [held]; nofun)]
      exact ⟨stays, held, by rw [ranked]⟩
    · have idle := mode.off (by rw [climateS]; exact off) (by rw [fields]) frost
      rw [Claim.stirs_same claim (by rw [idle]; nofun)]
      exact idle
    · refine climates fitted ?_
      unfold State.modeInForce
      rw [storage, seq, told.seq]
      exact chosen

theorem storage_left (storage : s.seq.storage = true) :
    let t := State.publish s (s.taken.answer 15 1).storageLeft
    t.seq = { s.seq with storage := false } ∧ t.shows 15 1 ∧ t.pins = s.pins
      ∧ t.lights.ceiling = (if s.broker.level = 0 then 1000 else if s.broker.level = 1 then 250 else 0)
      ∧ t.supply = { s.supply with onNext := s.seq.fns.supply } ∧ t.periods.supply = none
      ∧ t.periods.status = some 1000
      ∧ (s.seq.fns.heat = true → t.climate.chosen = s.climate.chosen
          ∧ t.climate.frost = (decide (s.climate.chosen ≠ .off)
            && ((s.seq.fns.water && s.water.demand) || s.entries.any Entry.showsFrostDemand))
          ∧ (if s.climate.chosen = .comfort then t.climate.call = s.climate.call
            else t.climate.call = false ∧ t.climate.callCount = 0)
          ∧ (s.climate.heater.works → t.climate.call = false → t.climate.frost = false → t.climate.heater = .purging
              ∧ t.climate.hen = false ∧ t.climate.hdem = 0 ∧ t.climate.purgeTimer = some 180000)
          ∧ (s.climate.heater.works → t.climate.frost = true → t.climate.heater = s.climate.heater)
          ∧ (s.climate.chosen ≠ .frostOnly → ∀ z, t.periods.climate.get z = some 5000)) := by
  have told := answered_told fits 15 1 false
  have shown : ((s.taken.answer 15 1).storageSet false).shows 15 1 := ⟨rfl, rfl⟩
  rw [storageLeft_eq]
  generalize (s.taken.answer 15 1).storageSet false = v at told shown ⊢
  have all := quietly_loads
  obtain ⟨okW, baseW, motionW⟩ := retest_calm v told.ok
  have heater : (v.claim loadHeater).stirs (v.retest.claim loadHeater) :=
    ((retest_asks (fun _ => False) v told.ok).2.claims loadHeater nofun).elim .inl fun ⟨waits, moved⟩ =>
      .inr ⟨waits, moved.imp_right fun ⟨_, n, _, e⟩ => ⟨n, e⟩⟩
  have asked := (retest_asks (fun _ => False) v told.ok).2
  have tends : Tends quietly s.status.serial v v.retest.modeChanged.ceilingFollows :=
    (retest_tends v).trans ((modeChanged_tends _).trans (ceilingFollows_tends _))
  have calm : Calm v v.retest.modeChanged.ceilingFollows := (retest_calm v).trans ((modeChanged_calm _).trans (ceilingFollows_calm _))
  have turned := fun fitted => heater_turned fits run told fitted okW baseW.seq asked.climate baseW.view asked.water heater
  generalize v.retest = w at okW baseW motionW heater asked tends turned calm ⊢
  have climate : w.modeChanged.ceilingFollows.climate = w.modeChanged.climate := (ceilingFollows_lit _).climate
  have lights := ceilingFollows_lights w.modeChanged
  have now : w.modeChanged.ceilingNow = w.ceilingNow := by
    have heater : Fact (heaterAlone.loads loadHeater) := ⟨rfl⟩
    obtain ⟨n, within⟩ := waitWithin_exists w
    have level := ((modeChanged_tends (k := heaterAlone) w okW within).2.2.levels.1 id).1
    unfold State.ceilingNow
    rw [(modeChanged_calm w okW).2.1.seq, level]
  obtain ⟨-, base, -⟩ := calm told.ok
  generalize w.modeChanged.ceilingFollows = u at climate lights tends base ⊢
  obtain ⟨stopped, status, climates, shows⟩ := told.ends fits (code := 15) run base.seq base.view tends
  have handed := publish_handedOver s u (by rw [base.view, told.view]; exact fits.sound.quiet.1)
  dsimp only
  generalize State.publish s u = t at *
  refine ⟨by rw [handed.seq, base.seq, told.seq], ?_, by rw [handed.pins, base.pins, told.pins], ?_,
    by rw [handed.supply, base.supply, told.supply], stopped, status, fun fitted => ?_⟩
  · unfold State.shows
    rw [handed.status]
    exact shows shown
  · rw [handed.lights, lights]
    show w.modeChanged.ceilingNow = _
    rw [now]
    unfold State.ceilingNow
    rw [baseW.seq, told.seq, asked.level, told.broker]
    show (match s.broker.level with | 0 => 1000 | 1 => 250 | _ => 0) = _
    split
    · next e => rw [e]; rfl
    · next e => rw [e]; rfl
    · next zero one => rw [if_neg zero, if_neg one]
  · obtain ⟨mode, climateS, force, served, -⟩ := turned fitted
    have fields := mode.climate
    rw [climateS, served] at fields
    rw [if_neg Bool.false_ne_true] at force
    rw [force] at fields
    rw [handed.climate, climate]
    refine ⟨by rw [fields], by rw [fields]; simp, ?_, fun works call frost => ?_, fun works frost => ?_, fun chosen => ?_⟩
    · rw [fields]
      split
      · rfl
      · exact ⟨rfl, rfl⟩
    · exact mode.purges (by rw [climateS]; exact works) call frost
    · rw [(mode.goesOn (by rw [climateS]; exact works) frost).1, climateS]
    · refine climates fitted ?_
      unfold State.modeInForce
      rw [storage, base.seq, told.seq, climate, fields]
      exact chosen.symm

end

/-- Settles O23: Storage is entered by `storage_entered` and left by `storage_left`. -/
theorem storageRequests : Obligations.StorageRequests := by
  unfold Obligations.StorageRequests
  intro s i v fits
  have quiet := fits.sound.quiet.1
  refine ⟨fun asks => ?_, fun asks => ?_⟩
  · obtain ⟨t, arm, -, early, met⟩ := request_answered asks quiet (fun _ => true) fun u _ _ =>
      if u.seq.storage then u.answer 14 Outcome.accepted
      else if u.view.driveAccepted then u.answer 14 Outcome.drive
      else (u.answer 14 Outcome.accepted).storageEntered
    refine ⟨t, arm, early rfl, fun run storage => ?_, fun run storage drive => ?_, fun run storage drive => ?_⟩
    · rw [met rfl run, if_pos (by exact storage)]
      exact publish_handedOver s (s.taken.answer 14 1) quiet
    · rw [met rfl run, if_neg (by show ¬ s.seq.storage = true; simp [storage]), if_pos (by exact drive)]
      exact publish_handedOver s (s.taken.answer 14 4) quiet
    · have eq := met rfl run
      rw [if_neg (by show ¬ s.seq.storage = true; simp [storage]), if_neg (by show ¬ s.view.driveAccepted = true; simp [drive])] at eq
      replace eq : t = State.publish s (s.taken.answer 14 1).storageEntered := eq
      have entered := storage_entered fits run storage drive
      dsimp only at entered
      rw [← eq] at entered
      exact entered
  · obtain ⟨t, arm, -, early, met⟩ := request_answered asks quiet (fun _ => true) fun u _ _ =>
      if (u.answer 15 Outcome.accepted).seq.storage then (u.answer 15 Outcome.accepted).storageLeft else u.answer 15 Outcome.accepted
    refine ⟨t, arm, early rfl, fun run storage => ?_, fun run storage => ?_⟩
    · have eq := met rfl run
      rw [if_neg (by rw [answer_storage, storage]; exact Bool.false_ne_true)] at eq
      rw [eq]
      exact publish_handedOver s (s.taken.answer 15 1) quiet
    · have eq := met rfl run
      rw [if_pos (by rw [answer_storage, storage])] at eq
      replace eq : t = State.publish s (s.taken.answer 15 1).storageLeft := eq
      have left := storage_left fits run storage
      dsimp only at left
      rw [← eq] at left
      exact left

end Sys2Proof.Proofs
end

