-- ==== Sys2Proof/Proofs/ContestWindow.lean ====
section
/-! PROOFS. The end of a contest's window, settled (R38, R39, R86, R94, R111, R112, R133, R153). -/

namespace Sys2Proof.Machine

/-! ### What the Gatherer and the periods do not touch -/

/-- Another Gatherer on the same line, and other periods, leave a state in order. -/
theorem State.Fits.gathered {s : State} (fits : s.Fits) {b : Bus} {p : Periods} (same : s.bus.sameLine b) (lanes : b.lanesFit)
    (dropped : b.dropped ≤ 255) (alerts : p.interlock = s.periods.interlock) : ({ s with bus := b, periods := p } : State).Fits := by
  unfold Bus.sameLine at same
  obtain ⟨overrun, -, counters⟩ := fits.sound.counters
  refine ⟨⟨fits.sound.checked, lanes, ?_, fits.sound.claims, ⟨?_, dropped, ?_⟩, fits.sound.extend, ?_⟩, ?_,
    fits.cell, fits.supply, fits.claims, fits.view, fits.water, fits.climate, fits.motion, fits.requests, fits.lights⟩
  · show b.queueFits
    rw [same]
    exact fits.sound.queue
  · show b.overrun ≤ 255
    rw [same]
    exact overrun
  · show b.unknown ≤ 255 ∧ _
    rw [same]
    exact counters
  · obtain ⟨told, due, ilock, silent⟩ := fits.sound.quiet
    refine ⟨told, due, ilock, fun ch calm => ?_⟩
    show p.interlock.get ch = none
    rw [alerts]
    exact silent ch calm
  · obtain ⟨values, pending, low, high⟩ := fits.values
    refine ⟨values, pending, ?_, ?_⟩
    · show 10 ≤ b.gatherMs
      rw [same]
      exact low
    · show b.gatherMs ≤ 250
      rw [same]
      exact high

/-- What is handed over on the same line is handed over. -/
theorem State.handedOver.gathered {s t : State} {b : Bus} {p : Periods} (same : s.bus.sameLine b)
    (h : ({ s with bus := b, periods := p } : State).handedOver t) : s.handedOver t := by
  unfold Bus.sameLine at same
  unfold State.handedOver at h ⊢
  dsimp only at h
  rw [same] at h
  exact h

section
variable {s : State} (fits : s.Fits) (id : Fin 7) (c : Claim)
include fits

/-- The state that has handed over a claim's DRAW, before the claim is written. -/
theorem putClaim_split (ok : c.fits) : ∃ u : State, u.Fits ∧ s.putClaim id c = u.setClaim id c
    ∧ u = { s with bus := u.bus, periods := u.periods } ∧ s.bus.sameLine u.bus := by
  have order := putClaim_calm s id c ok fits.sound.ok
  have line : s.bus.sameLine (s.putClaim id c).bus := (handDraw_asked (fun _ => True) (s.setClaim id c) id).bus
  exact ⟨{ s with bus := (s.putClaim id c).bus, periods := (s.putClaim id c).periods },
    fits.gathered line order.1.lanes order.1.dropped rfl, rfl, rfl, line⟩

/-- What a contest not won leads to at its owner is the same whatever the Gatherer and the periods hold. -/
theorem windowLost (contesting : (s.claim id).contesting = true)
    (fails : s.passes id (askRank id (s.claim id)) (s.claim id).asked = false) :
    Lost s ((s.windowEnd id).1.report id (s.windowEnd id).2) id := by
  obtain ⟨u, fits', split, rest, line⟩ := putClaim_split fits id (s.claim id).lose (Claim.lose_fits (fits.sound.ok.claim id))
  rw [windowEnd_eq fits.sound.ok, if_neg (by simp [fails])]
  dsimp only
  rw [split]
  have claim : ∀ j, u.claim j = s.claim j := fun j => by rw [rest]; rfl
  have lost := lost_of_fits fits' (id := id) (by rw [claim]; exact contesting)
  rw [claim] at lost
  unfold Bus.sameLine at line
  have weighs : Weighs id u s := by
    refine ⟨?_, ?_, ?_, ?_, ?_, fun j _ => (claim j).symm⟩
    · rw [rest]
    · rw [rest]
    · rw [rest]
    · rw [rest]
    · rw [line]
  generalize (u.setClaim id (s.claim id).lose).report id (s.claim id).lossReply = t at *
  obtain ⟨others, pump, heater, lights⟩ := lost
  have water : u.water = s.water := by rw [rest]
  have seq : u.seq = s.seq := by rw [rest]
  have climate : u.climate = s.climate := by rw [rest]
  have lit : u.lights = s.lights := by rw [rest]
  refine ⟨fun j n w => ?_, fun e a => ?_, fun e reason frost => ?_, fun g r e pending due low => ?_⟩
  · rw [← claim]
    exact others j n (by rw [claim]; exact w)
  · have h := pump e (by rw [water]; exact a)
    rw [water, seq] at h
    exact h
  · have h := heater e (by rw [claim]; exact reason) (by rw [climate]; exact frost)
    rw [seq, ← weighs.passes] at h
    exact h
  · subst e
    exact scalesDown_congr weighs (claim _).symm lit.symm rfl rfl
      (lights g r rfl (by rw [State.group, lit]; exact pending) (by rw [lit]; exact due) (by rw [claim]; exact low))

end

/-- A standing ask's contest that fails leaves its claim Waiting, and its owner has nothing to add. -/
theorem windowWaits {s : State} (o : s.Ok) {id : Fin 7} (contest : (s.claim id).st = .contest) (standing : (s.claim id).single = false)
    (still : id = loadHeater → (s.claim id).rank = s.heaterRank)
    (fails : s.passes id (askRank id (s.claim id)) (s.claim id).asked = false) :
    (s.windowEnd id).1.report id (s.windowEnd id).2 = s.putClaim id (s.claim id).toWaiting := by
  have lose : (s.claim id).lose = (s.claim id).toWaiting := by simp [Claim.lose, contest, standing]
  have reply : (s.claim id).lossReply = .waits := by simp [Claim.lossReply, contest, standing]
  rw [windowEnd_eq o, if_neg (by simp [fails]), lose, reply]
  show (if id = 0 then (s.putClaim id (s.claim id).toWaiting).heaterWaits else _) = _
  split
  · next e =>
    subst e
    refine if_neg fun ⟨_, other⟩ => other ?_
    exact (congrArg Claim.rank (claim_putClaim_self s loadHeater _)).trans (still rfl)
  · rfl

/-! ### A contest won (R39) -/

/-- The claim of a contest won. -/
def State.wins (s : State) (id : Fin 7) : State := s.putClaim id ((s.claim id).toHeld (s.claim id).asked)

theorem windowWon {s : State} {id : Fin 7} (o : s.Ok) (won : s.passes id (askRank id (s.claim id)) (s.claim id).asked = true) :
    (s.windowEnd id).1.report id (s.windowEnd id).2 = (s.wins id).report id .granted := by
  rw [windowEnd_eq o, if_pos won]
  rfl

section
variable {s : State} (fits : s.Fits)
include fits

theorem wins_ok (id : Fin 7) : (s.wins id).Ok ∧ (s.wins id).claim id = (s.claim id).toHeld (s.claim id).asked := by
  obtain ⟨rank, -, asked, -⟩ := fits.sound.ok.claim id
  exact ⟨(putClaim_calm s id _ (Claim.toHeld_fits rank asked) fits.sound.ok).1, claim_putClaim_self s id _⟩

theorem wins_pad : ((s.wins loadPad).report loadPad .granted).climate.pad = true
    ∧ ((s.wins loadPad).report loadPad .granted).claim loadPad = (s.claim loadPad).toHeld (s.claim loadPad).asked :=
  ⟨rfl, claim_putClaim_self s loadPad _⟩

/-- The heater starts where neither of its inputs is asserted (R112). -/
theorem wins_heater (contesting : (s.claim loadHeater).contesting = true) (rank : (s.claim loadHeater).rank = s.heaterRank)
    (calm : s.pins.hrun = false ∧ s.pins.hflt = false) :
    let t := (s.wins loadHeater).report loadHeater .granted
    t.climate.heater = .starting ∧ t.climate.hen = true ∧ t.climate.startTimer = some 180000
      ∧ t.claim loadHeater = (s.claim loadHeater).toHeld (s.claim loadHeater).asked := by
  have contest := contest_of_contesting fits contesting (by decide)
  obtain ⟨-, -, -, -, -, asking, -⟩ := fits.climate
  obtain ⟨off, -⟩ := asking (.inl contest)
  have same : (s.wins loadHeater).heaterRerank = s.wins loadHeater := by
    refine if_neg ?_
    rw [(wins_ok fits loadHeater).2]
    exact fun ⟨_, _, other⟩ => other rank
  have granted : (s.wins loadHeater).report loadHeater .granted = (s.wins loadHeater).enterStarting := by
    show (if (s.wins loadHeater).heaterRerank.climate.heater = .off then (s.wins loadHeater).heaterRerank.enterStarting
      else (s.wins loadHeater).heaterRerank) = _
    rw [same]
    exact if_pos off
  have starts : (s.wins loadHeater).enterStarting = ((s.wins loadHeater).setClimate { s.climate with
      heater := .starting, hen := true, startTimer := some Config.heaterStartMs }).updateHdem := by
    have hflt : (s.wins loadHeater).pins.hflt = false := calm.2
    have hrun : (s.wins loadHeater).pins.hrun = false := calm.1
    refine (if_neg ?_).trans (if_neg ?_)
    · exact Bool.not_eq_true _ ▸ hflt
    · exact Bool.not_eq_true _ ▸ hrun
  dsimp only
  rw [granted, starts]
  exact ⟨rfl, rfl, rfl, claim_putClaim_self s loadHeater _⟩

/-- The pump circulates for a cycle that asked, and runs for the tap otherwise (R86, R94). -/
theorem wins_pump (contesting : (s.claim loadPump).contesting = true) :
    let t := (s.wins loadPump).report loadPump .granted
    t.claim loadPump = (s.claim loadPump).toHeld (s.claim loadPump).asked
      ∧ (s.water.cycle = .asking → t.water.cycle = .circulating ∧ t.water.circTimer = some 120000
          ∧ t.water.demand = true ∧ t.water.pump = (s.freshOk && s.valveClosed))
      ∧ (s.water.cycle ≠ .asking → t.water.cycle = s.water.cycle ∧ t.water.pump = s.demandWants) := by
  have contest := contest_of_contesting fits contesting (by decide)
  obtain ⟨o, claim⟩ := wins_ok fits loadPump
  by_cases asking : s.water.cycle = .asking
  · have granted : (s.wins loadPump).report loadPump .granted = (s.wins loadPump).enterCirculating := if_pos asking
    obtain ⟨water, same⟩ := enterCirculating_water o (by rw [claim]; rfl)
    dsimp only
    rw [granted]
    refine ⟨same.trans claim, fun _ => ?_, fun other => absurd asking other⟩
    rw [water]
    exact ⟨rfl, rfl, rfl, rfl⟩
  · have granted : (s.wins loadPump).report loadPump .granted = (s.wins loadPump).pumpFollows := if_neg asking
    dsimp only
    rw [granted, pumpFollows_eq]
    refine ⟨claim, fun e => absurd e asking, fun _ => ⟨rfl, ?_⟩⟩
    show (s.wins loadPump).pumpOn ((s.wins loadPump).claim loadPump) = _
    rw [claim]
    obtain ⟨-, -, -, -, -, -, -, -, -, circulating, -, -, first⟩ := fits.water
    have still : s.water.cycle ≠ .circulating := fun e => by
      have draws := circulating e
      simp [Claim.drawing, contest] at draws
    have five : (s.claim loadPump).rank = 5 := by
      obtain ⟨-, -, serves⟩ := fits.claims
      obtain ⟨-, -, ranks, -⟩ := (serves loadPump).1 (by rw [contest]; decide)
      have other : (s.claim loadPump).rank ≠ 1 := fun e => ((first (by rw [contest]; decide)).mp e).elim asking still
      have either : (s.claim loadPump).rank ∈ [1, 5] := ranks
      simpa [other] using either
    show ((((s.claim loadPump).toHeld (s.claim loadPump).asked).drawing && s.freshOk && s.valveClosed)
      && ((s.demandWants && ((s.claim loadPump).toHeld (s.claim loadPump).asked).st == .held
        && ((s.claim loadPump).toHeld (s.claim loadPump).asked).rank == 5) || s.water.cycle == .circulating)) = _
    have free : (s.water.cycle == .circulating) = false := by simpa using still
    cases wants : s.demandWants with
    | false => simp [free]
    | true =>
      have both := wants
      simp only [State.demandWants, Bool.and_eq_true] at both
      obtain ⟨⟨⟨-, fresh⟩, closed⟩, -⟩ := both
      simp [Claim.toHeld, Claim.drawing, five, fresh, closed]

/-- A pending move that nothing refuses starts (R133). -/
theorem wins_motor {ch : Fin 2} (contesting : (s.claim (loadMotor ch)).contesting = true) (free : (s.chan ch).calTimer = none) :
    let t := (s.wins (loadMotor ch)).report (loadMotor ch) .granted
    ∀ m : Move, (s.chan ch).pending = m → m = .extend ∧ s.extendRefusal ch = none ∨ m = .retract ∧ s.pins.hold = false →
      (if m = .extend then s.pins.ee.get ch else s.pins.er.get ch) = false →
      t.chan ch = (s.chan ch).started m (Item.travelMs s.seq.values ch) (s.stallArmed ch)
        ∧ t.claim (loadMotor ch) = (s.claim (loadMotor ch)).toHeld (s.claim (loadMotor ch)).asked := by
  have low : (loadMotor ch).val < 5 := by match ch with
    | 0 => decide
    | 1 => decide
  have contest := contest_of_contesting fits contesting low
  obtain ⟨o, claim⟩ := wins_ok fits (loadMotor ch)
  have granted : (s.wins (loadMotor ch)).report (loadMotor ch) .granted = (s.wins (loadMotor ch)).tryStart ch := by
    match ch with
    | 0 => rfl
    | 1 => rfl
  obtain ⟨-, -, -, -, runs, -, -, -, -, -, -, -, -, -, -, -, moves, brakes, -⟩ := fits.motion ch
  dsimp only
  rw [granted]
  intro m pending may away
  have rest : (s.chan ch).atRest = true := by
    have still : (s.chan ch).moving = false := by
      rw [← Bool.not_eq_true]
      intro e
      have := moves (.inl e)
      rw [contest] at this
      cases this
    have notBraking : (s.chan ch).st ≠ .braking := fun e => by
      rcases brakes e with h | ⟨-, h⟩
      · rw [contest] at h; cases h
      · rw [contest] at h; cases h
    unfold Chan.moving at still
    unfold Chan.atRest
    cases e : (s.chan ch).st <;> simp_all
  have ready : (s.wins (loadMotor ch)).Ready ch := by
    refine ⟨runs (.inr ?_), rest, free, by rw [claim]; rfl⟩
    rw [pending]
    rcases may with ⟨rfl, -⟩ | ⟨rfl, -⟩
    · decide
    · decide
  have starts : (s.wins (loadMotor ch)).tryStart ch = (s.wins (loadMotor ch)).startMove ch m := by
    rcases may with ⟨rfl, allowed⟩ | ⟨rfl, allowed⟩
    · exact tryStart_extends ready pending allowed
    · exact tryStart_retracts ready pending allowed
  have puts := startMove_puts (s.wins (loadMotor ch)) ch m away
  have same := startMove_claim (s.wins (loadMotor ch)) ch m o away (by rw [claim]; rfl)
  rw [starts]
  exact ⟨puts.chan, same.trans claim⟩

/-- A light group's request takes its targets (R153). -/
theorem wins_lights {g : Fin 2} {r : GroupReq} (pending : (s.group g).pending = some r) (still : s.lights.due = .none) :
    let t := (s.wins (loadLights g)).report (loadLights g) .granted
    (t.group g).pending = none ∧ (t.group g).result = resultOf r.scale
      ∧ ∀ k, (t.light (groupChan g k)).target = r.trial.get k := by
  obtain ⟨o, -⟩ := wins_ok fits (loadLights g)
  have granted : (s.wins (loadLights g)).report (loadLights g) .granted
      = ((s.wins (loadLights g)).requestTaken g r).courtesyResumes := by
    have lights : (s.wins (loadLights g)).report (loadLights g) .granted = (s.wins (loadLights g)).lightsGranted g := by
      match g with
      | 0 => rfl
      | 1 => rfl
    have group : ((s.wins (loadLights g)).group g).pending = some r := pending
    rw [lights, State.lightsGranted, group]
  have taken := requestTaken_taken o g r
  have lamps := requestTaken_lamps (s.wins (loadLights g)) g r
  dsimp only
  rw [granted, courtesyResumes_none (by rw [lamps.lights]; exact still), taken.group]
  exact ⟨rfl, rfl, fun k => by rw [taken.light, retarget_target]⟩

end

end Sys2Proof.Machine

namespace Sys2Proof.Proofs
open Sys2Proof.Machine

/-- Settles O46: the pre-test worked again decides, and the owner is told. -/
theorem contestWindowDecides : Obligations.ContestWindowDecides := by
  intro s id fits window
  have arm : exec (.contestWindowEnd id) s
      = .next (State.publish s ((s.windowEnd id).1.report id (s.windowEnd id).2)) := by
    show done s (if (s.claim id).window.isSome then _ else s) = _
    rw [if_pos window]
    rfl
  obtain ⟨-, -, serves⟩ := fits.claims
  obtain ⟨-, -, -, -, -, timed, -⟩ := serves id
  obtain ⟨contesting, -⟩ := timed window
  have ended := windowEnd_calm s id fits.sound.ok
  have told := (report_steady _ id (s.windowEnd id).2 ended.1).2.1
  have base := ended.2.1.trans told
  have waits := windowWaits (id := id) fits.sound.ok
  have lost := windowLost fits id contesting
  have wins := windowWon (id := id) fits.sound.ok
  generalize (s.windowEnd id).1.report id (s.windowEnd id).2 = u at *
  have hand := publish_handedOver s u (by rw [base.view]; exact fits.sound.quiet.1)
  refine ⟨_, arm, ?_⟩
  generalize State.publish s u = t at hand
  refine ⟨hand.view.trans base.view, hand.pins.trans base.pins, hand.supply.trans base.supply, hand.seq.trans base.seq,
    fun fails contest standing still => ?_, fun fails => ?_, fun fails e reason frost => ?_, fun won => ⟨?_, ?_, ?_, ?_, ?_⟩,
    fun g r fails e pending due low => ?_⟩
  · rw [waits contest standing still fails] at hand
    exact State.handedOver.gathered (handDraw_asked (fun _ => True) (s.setClaim id (s.claim id).toWaiting) id).bus hand
  · rw [hand.water]
    exact (lost fails).pump
  · dsimp only
    rw [hand.claim, hand.climate]
    exact (lost fails).heater e reason frost
  · rintro rfl
    rw [hand.climate, hand.claim, wins won, (wins_pad fits).2]
    exact ⟨(wins_pad fits).1, rfl, rfl⟩
  · rintro rfl rank hrun hflt
    obtain ⟨starting, hen, timer, claim⟩ := wins_heater fits contesting rank ⟨hrun, hflt⟩
    rw [hand.climate, hand.claim, wins won, claim]
    exact ⟨starting, hen, timer, rfl, rfl, rfl⟩
  · rintro rfl
    obtain ⟨claim, asking, demand⟩ := wins_pump fits contesting
    rw [hand.water, hand.claim, wins won, claim]
    exact ⟨rfl, rfl, asking, demand⟩
  · rintro ch rfl free
    have motor := wins_motor fits contesting free
    rw [hand.chan, hand.claim, wins won]
    refine ⟨fun pending allowed away => ?_, fun pending allowed away => ?_⟩
    · obtain ⟨chan, claim⟩ := motor .extend pending (.inl ⟨rfl, allowed⟩) away
      rw [chan, claim]
      exact ⟨rfl, rfl, rfl, rfl, rfl⟩
    · obtain ⟨chan, claim⟩ := motor .retract pending (.inr ⟨rfl, allowed⟩) away
      rw [chan, claim]
      exact ⟨rfl, rfl, rfl, rfl, rfl⟩
  · rintro g r rfl pending still
    have lights := wins_lights fits pending still
    rw [hand.group]
    simp only [hand.light, wins won]
    exact lights
  · subst e
    have scaled := (lost fails).lights g r rfl pending due low
    exact scalesDown_congr ⟨rfl, rfl, rfl, rfl, rfl, fun _ _ => rfl⟩ rfl rfl (hand.claim _) hand.lights scaled

end Sys2Proof.Proofs
end

