-- ==== Sys2Proof/Proofs/Orders.lean ====
section
/-! PROOFS. What is in order, part by part. -/

namespace Sys2Proof.Machine

/-! ### What is in order, part by part -/

/-- A part of the machine whose order an operation may keep, break or mend. `cool` says that there is no frost service where
the heater does not act; `station` what is known of the station and its phase; `live` and `calm` speak of one load: that its
owner acts, and that its claim does not yield to the level in force; `figures` bounds the level of the own figures. -/
inductive Part
  | water | heater | pad | chan (ch : Fin 2) | lights | due | frost | cool | ceiling | figures
  | station (f : Seq → Prop) | live (id : Fin 7) | calm (id : Fin 7)

/-- The block order that a load's claim stands in. -/
def Part.owner (id : Fin 7) : Part :=
  match id with
  | 0 => .heater
  | 1 => .pad
  | 2 => .water
  | 3 => .chan 0
  | 4 => .chan 1
  | 5 | 6 => .lights

/-- The owner of a load acts: the station is in Run and has its function. -/
def State.live (s : State) (id : Fin 7) : Prop := s.inRun = true ∧ s.ownerFitted id = true

/-- A claim as its owner uses it, whatever the level in force (R30, R32, R34, R38, R42, R47). -/
structure Claim.Serves (live : Prop) (id : Fin 7) (c : Claim) : Prop where
  asks : c.st ≠ .idle → live ∧ c.rank ∈ loadRanks id ∧ 1 ≤ c.asked
  draws : c.drawing = true → 1 ≤ c.held
  raises : c.raise = true → 5 ≤ id.val
  forced : c.st = .forced → id = loadPump
  announces : c.announcing = true → c.contesting = true
  timed : c.window.isSome = true → c.contesting = true ∧ c.announcing = false
  staged : c.contesting = true → c.announcing = true ∨ c.window.isSome = true
  stands : c.st = .waiting → c.single = false
  ranked : c.st = .contest ∨ c.st = .waiting → c.rank ≠ 0
  lit : 5 ≤ id.val → c.st ≠ .waiting ∧ (c.st = .contest → c.single = true)

/-- A claim that does not yield to the level (R37, R49, R51). -/
structure Claim.Bears (level : Nat) (id : Fin 7) (c : Claim) : Prop where
  contests : c.contesting = true → askRank id c + level < 7
  held : c.st = .held → c.rank + level < 7
  lit : 5 ≤ id.val → c.st = .held → c.rank = 0 → 0 < level

/-- The Water Manager and its claim (R32, R81, R87 to R96). -/
structure State.WaterOrder (s : State) : Prop where
  pump : s.water.pump = true → (s.claim loadPump).drawing = true ∧ s.freshOk = true ∧ s.valveClosed = true
    ∧ s.inRun = true ∧ s.seq.fns.water = true
  runaway : s.water.runawayTimer.isSome = true → s.water.pump = true ∧ s.water.cycle ≠ .circulating
  owed : s.water.owed ≤ 4
  clear : s.water.guard = false ↔ s.water.cycle = .off
  guarded : s.water.guard = true → s.seq.fns.water = true ∧ s.inReset = false
  nothing : s.water.cycle = .off ∨ s.water.cycle = .drained → s.water.owed = 0
  drained : s.water.cycle = .drained → s.valveClosed = false
  demand : s.water.demand = true ↔ s.water.cycle = .circulating
  timed : s.water.circTimer.isSome = true ↔ s.water.cycle = .circulating
  draws : s.water.cycle = .circulating → (s.claim loadPump).drawing = true
  forced : (s.claim loadPump).st = .forced → s.water.cycle = .circulating
  tries : s.water.cycle = .asking → (s.claim loadPump).st = .contest ∧ (s.claim loadPump).single = true
  first : (s.claim loadPump).st ≠ .idle →
    ((s.claim loadPump).rank = 1 ↔ s.water.cycle = .asking ∨ s.water.cycle = .circulating)

theorem waterFits_iff (s : State) : s.waterFits ↔ s.WaterOrder :=
  ⟨fun ⟨a, b, c, d, e, f, g, h, i, j, k, l, m⟩ => ⟨a, b, c, d, e, f, g, h, i, j, k, l, m⟩,
    fun ⟨a, b, c, d, e, f, g, h, i, j, k, l, m⟩ => ⟨a, b, c, d, e, f, g, h, i, j, k, l, m⟩⟩

/-- PAD is on exactly while its claim is Held (R120). -/
def State.padOrder (s : State) : Prop := (s.claim loadPad).st = .held ↔ s.climate.pad = true

/-- A light channel under a ceiling, with the fade time and the state of its group's claim (R149, R150, R155). -/
structure Light.Order (ceiling fade : Nat) (k : ClaimState) (l : Light) : Prop where
  level : l.level ≤ 1000
  start : l.start ≤ 1000
  target : l.target ≤ ceiling
  duty : l.duty = dutyOf l.level
  still : l.fading = false → l.level = l.target
  step : l.stepTimer.isSome = true ↔ l.fading = true
  fades : l.fading = true → l.elapsed < fade ∧ l.level ≠ l.target
    ∧ (l.level : Int) = l.start + (((l.target : Int) - l.start) * l.elapsed).tdiv fade
  lit : 0 < l.level ∨ 0 < l.target → k = .held

/-- A group's pending request and its claim (R152, R154); only above the level 0 does a claim stay at rank 0, and it does not
raise there (R51). -/
structure Group.Order (storage : Bool) (level : Nat) (c : Claim) (x : Group) : Prop where
  levels : ∀ r, x.pending = some r → ∀ k, r.want.get k ≤ 1000 ∧ r.trial.get k ≤ 1000
  contests : c.contesting = true → x.pending.isSome = true ∧ storage = false
  asks : x.pending.isSome = true → c.st ≠ .idle
  raised : c.raise = true → c.rank ≠ 0
  lit : c.st = .held → c.rank = 0 → 0 < level

/-- The Light Controller and its claims, apart from what the ceiling is and from a waiting change of the courtesy light
(R32, R148 to R155). -/
structure State.LightsOrder (s : State) : Prop where
  ceiling : s.lights.ceiling ≤ 1000
  lights : ∀ ch, (s.light ch).Order s.lights.ceiling (Item.fadeMs s.seq.values) (s.claim (loadLights (groupOf ch))).st
  groups : ∀ g, (s.group g).Order s.seq.storage s.broker.level (s.claim (loadLights g))
  away : s.inRun = true ∧ s.seq.fns.lights = true
    ∨ s.lights.due = .none ∧ s.lights.countdown = none ∧ s.lights.courtesy = false
  named : s.lights.due ≠ .none → (Item.courtesy s.seq.values).isSome = true

/-- A change of the courtesy light waits only for a request pending in its group (R154, R159). -/
def State.dueWaits (s : State) : Prop := s.lights.due ≠ .none →
  ((Item.courtesy s.seq.values).any fun ch => (s.group (groupOf ch)).pending.isSome) = true

/-- The readers have still to be told of a change of a TANK entry (R61). -/
def State.tanksUntold (s : State) : Prop := ∃ c ∈ s.view.changes, c.key.kind = .tank

def State.orderly (s : State) : Part → Prop
  | .water => s.WaterOrder
  | .heater => s.heaterFits
  | .pad => s.padOrder
  | .chan ch => s.chanFits ch
  | .lights => s.LightsOrder
  | .due => s.dueWaits
  | .frost => s.climate.frost = s.frostServiceNow ∨ s.tanksUntold
  | .cool => s.live loadHeater ∨ s.climate.frost = false
  | .ceiling => s.lights.ceiling = s.ceilingNow
  | .figures => ∀ f, s.supply.latest = some f → f.level ≤ 6
  | .station f => f s.seq
  | .live id => s.live id
  | .calm id => Claim.Bears s.broker.level id (s.claim id)

/-- The parts that meet `p` are in order, and so are the values in force, the levels and the claims as their owners use them. -/
structure State.Order (p : Part → Prop) (s : State) : Prop where
  values : Values.fit s.seq.values
  level : s.broker.level ≤ 6
  remembered : ∀ n, s.broker.remembered.get n ≤ 6
  serves : ∀ id, Claim.Serves (s.live id) id (s.claim id)
  parts : ∀ x, p x → s.orderly x

/-- From an orderly state in which the parts of `p` are in order, those of `q` are after the operation. -/
def Leads (p q : Part → Prop) (s t : State) : Prop := s.Ok → s.Order p → t.Ok ∧ t.Order q

/-- All parts but one. -/
def Part.but (p : Part → Prop) (x : Part) : Part → Prop := fun y => y ≠ x ∧ p y

/-- And one part more. -/
def Part.with (p : Part → Prop) (x : Part) : Part → Prop := fun y => y = x ∨ p y

section
variable {p q r : Part → Prop} {s t u : State}

theorem State.Order.mono (w : ∀ x, q x → p x) (h : s.Order p) : s.Order q :=
  ⟨h.values, h.level, h.remembered, h.serves, fun x m => h.parts x (w x m)⟩

theorem Leads.refl (p : Part → Prop) (s : State) : Leads p p s s := fun o h => ⟨o, h⟩

theorem Leads.trans (h : Leads p q s t) (k : Leads q r t u) : Leads p r s u := fun o a =>
  k (h o a).1 (h o a).2

theorem Leads.mono {p' q' : Part → Prop} (w : ∀ x, p x → p' x) (v : ∀ x, q' x → q x) (h : Leads p q s t) : Leads p' q' s t :=
  fun o a => ⟨(h o (a.mono w)).1, (h o (a.mono w)).2.mono v⟩

theorem Leads.intro (h : s.Ok → s.Order p → Leads p q s t) : Leads p q s t := fun o a => h o a o a

theorem Leads.ite {c : Prop} [Decidable c] {a b : State} (h : c → Leads p q s a) (k : ¬c → Leads p q s b) :
    Leads p q s (if c then a else b) := by
  split
  · exact h ‹_›
  · exact k ‹_›

theorem Leads.foldl {α : Type} (f : State → α → State) (h : ∀ s x, Leads p p s (f s x)) (l : List α) (s : State) :
    Leads p p s (l.foldl f s) := by
  induction l generalizing s with
  | nil => exact Leads.refl p s
  | cons x xs ih => exact (h s x).trans (ih (f s x))

/-- A part that the operation mends, or keeps by an argument of its own. -/
theorem Leads.mends (x : Part) (h : Leads p (Part.but q x) s t) (k : s.Ok → s.Order p → t.Ok → t.Order (Part.but q x) → q x → t.orderly x) :
    Leads p q s t := fun o a => by
  obtain ⟨ok, order⟩ := h o a
  refine ⟨ok, order.values, order.level, order.remembered, order.serves, fun y m => ?_⟩
  by_cases e : y = x
  · subst e
    exact k o a ok order m
  · exact order.parts y ⟨e, m⟩

end

/-! ### What the orders of the Water Manager and of the Light Controller rest on -/

theorem State.WaterOrder.congr {s t : State} (h : s.WaterOrder) (water : t.water = s.water) (pins : t.pins = s.pins)
    (seq : t.seq = s.seq) (claim : t.claim loadPump = s.claim loadPump) : t.WaterOrder := by
  rw [← waterFits_iff] at h ⊢
  unfold State.waterFits State.freshOk State.valveClosed State.inRun State.inReset at *
  rw [water, pins, seq, claim]
  exact h

theorem State.LightsOrder.congr {s t : State} (h : s.LightsOrder) (lights : t.lights = s.lights) (seq : t.seq = s.seq)
    (level : t.broker.level = s.broker.level) (claims : ∀ g, t.claim (loadLights g) = s.claim (loadLights g)) : t.LightsOrder := by
  obtain ⟨ceiling, channels, groups, away, named⟩ := h
  unfold State.inRun at away
  refine ⟨?_, fun ch => ?_, fun g => ?_, ?_, by rw [lights, seq]; exact named⟩
  · rw [lights]
    exact ceiling
  · rw [State.light, lights, seq, claims]
    exact channels ch
  · rw [State.group, lights, seq, level, claims]
    exact groups g
  · rw [State.inRun, lights, seq]
    exact away

/-! ### Re-tests of a claim that waits keep every order -/

theorem Claim.stirs_held {c d : Claim} (h : c.stirs d) (st : ClaimState) (away : st ≠ .waiting ∧ st ≠ .contest) :
    d.st = st ↔ c.st = st := by
  rcases h with rfl | ⟨waits, rfl | ⟨n, rfl⟩⟩
  · exact Iff.rfl
  · rw [waits]
    exact ⟨fun e => absurd e.symm away.1, fun e => absurd e.symm away.1⟩
  · rw [waits]
    exact ⟨fun e => absurd e.symm away.2, fun e => absurd e.symm away.1⟩

theorem Claim.Serves.stirs {live : Prop} {id : Fin 7} {c d : Claim} (h : c.Serves live id) (k : c.stirs d) :
    d.Serves live id := by
  rcases k with rfl | ⟨waits, moved⟩
  · exact h
  obtain ⟨on, rank, some⟩ := h.asks (by rw [waits]; decide)
  have low : ¬ 5 ≤ id.val := fun five => (h.lit five).1 waits
  have standing := h.stands waits
  have ranked := h.ranked (.inr waits)
  rcases moved with rfl | ⟨n, rfl⟩
  · exact ⟨fun _ => ⟨on, rank, some⟩, nofun, nofun, nofun, nofun, nofun, nofun, fun _ => standing, fun _ => ranked,
      fun five => absurd five low⟩
  · exact ⟨fun _ => ⟨on, rank, some⟩, nofun, nofun, nofun, fun _ => rfl, nofun, fun _ => .inl rfl, nofun, fun _ => ranked,
      fun five => absurd five low⟩

theorem Claim.Bears.tested {b : Broker} {id : Fin 7} {c d : Claim} (h : Claim.Bears b.level id c) (k : Claim.tested b c d) :
    Claim.Bears b.level id d := by
  rcases k with rfl | ⟨waits, rfl | ⟨low, n, -, rfl⟩⟩
  · exact h
  · exact ⟨nofun, nofun, nofun⟩
  · exact ⟨fun _ => low, nofun, nofun⟩

theorem ChanOrder.stirs {runs : Bool} {c : Chan} {k d : Claim} (h : ChanOrder runs c k.st) (w : k.stirs d) :
    ChanOrder runs c d.st := by
  have held := Claim.stirs_held w .held ⟨by decide, by decide⟩
  have idle := Claim.stirs_held w .idle ⟨by decide, by decide⟩
  exact { h with
    held := fun e => held.mpr (h.held e)
    kept := fun e => (h.kept e).imp idle.mpr fun ⟨move, e⟩ => ⟨move, held.mpr e⟩
    freed := fun e n => idle.mpr (h.freed e n) }

end Sys2Proof.Machine
end

