-- ==== Sys2Proof/Proofs/OrderUpdates.lean ====
section
/-! PROOFS. Updates that the orders do not see. -/

namespace Sys2Proof.Machine

/-! ### Updates that the orders do not see -/

section
variable {p : Part → Prop} {s t : State}

theorem live_congr (seq : t.seq = s.seq) (id : Fin 7) : t.live id ↔ s.live id := by
  unfold State.live State.inRun State.ownerFitted
  rw [seq]

/-- An operation that keeps the values, the levels and each claim's use, and each part that must be kept. -/
theorem Leads.each (ok : s.Ok → t.Ok) (values : t.seq.values = s.seq.values) (level : t.broker.level = s.broker.level)
    (remembered : t.broker.remembered = s.broker.remembered)
    (serves : (∀ id, Claim.Serves (s.live id) id (s.claim id)) → ∀ id, Claim.Serves (t.live id) id (t.claim id))
    (parts : ∀ x, p x → s.orderly x → t.orderly x) : Leads p p s t := fun o h =>
  ⟨ok o, by rw [values]; exact h.values, by rw [level]; exact h.level, by rw [remembered]; exact h.remembered, serves h.serves,
    fun x m => parts x m (h.parts x m)⟩

/-- What no order sees may change freely. -/
theorem Leads.still (ok : s.Ok → t.Ok) (h : t = { s with
    bus := t.bus, periods := t.periods, due := t.due, status := t.status, cell := t.cell, now := t.now
    pending := t.pending }) : Leads p p s t := by
  refine Leads.each ok ?_ ?_ ?_ (fun k => ?_) fun x _ k => ?_
  · rw [h]
  · rw [h]
  · rw [h]
  · rw [h]
    exact k
  · rw [h]
    cases x with
    | water => exact State.WaterOrder.congr k rfl rfl rfl rfl
    | lights => exact State.LightsOrder.congr k rfl rfl rfl fun _ => rfl
    | _ => exact k

theorem hand_leads (s : State) (r : Record) (n : Nat) : Leads p p s (s.hand r n) :=
  Leads.still (fun o => (hand_calm s r n o).1) rfl

theorem setDue_leads (s : State) (d : Due) : Leads p p s (s.setDue d) := Leads.still (fun o => (setDue_calm s d o).1) rfl

theorem setPeriods_leads (s : State) (x : Periods) : Leads p p s (s.setPeriods x) :=
  Leads.still (fun o => (setPeriods_calm s x o).1) rfl

theorem reviseOutcome_leads (s : State) (req o : Nat) : Leads p p s (s.reviseOutcome req o) :=
  Leads.still (fun k => (reviseOutcome_calm s req o k).1) (by unfold State.reviseOutcome; split <;> rfl)

theorem monitor_still (s : State) (n : Fin 19) (d : Bool) : s.monitor n d = { s with
    bus := (s.monitor n d).bus, due := (s.monitor n d).due, status := (s.monitor n d).status } := by
  unfold State.monitor State.raiseAttention
  dsimp only
  split
  · split <;> rfl
  · split <;> rfl

theorem monitor_leads (s : State) (n : Fin 19) (d : Bool) : Leads p p s (s.monitor n d) :=
  Leads.still (fun o => (monitor_calm s n d o).1) (by rw [monitor_still])

/-! ### Updates of one block -/

/-- The Climate Controller changes: the heater's order is another matter. -/
theorem setClimate_leads (s : State) (c : Climate) (heater : p .heater → HeaterOrder s.climate s.seq.values (s.claim loadHeater) →
      HeaterOrder c s.seq.values (s.claim loadHeater)) (pad : p .pad → c.pad = s.climate.pad)
    (frost : p .frost → c.frost = s.climate.frost ∧ c.chosen = s.climate.chosen)
    (cool : p .cool → s.live loadHeater ∨ c.frost = s.climate.frost) : Leads p p s (s.setClimate c) := by
  refine Leads.each (fun o => (setClimate_calm s c o).1) rfl rfl rfl id fun x m k => ?_
  cases x with
  | heater => exact heater m k
  | pad =>
    show (s.claim loadPad).st = .held ↔ c.pad = true
    rw [pad m]
    exact k
  | frost =>
    obtain ⟨frost, chosen⟩ := frost m
    refine k.imp_left fun k => ?_
    show c.frost = (s.setClimate c).frostServiceNow
    rw [frost, k]
    unfold State.frostServiceNow State.modeInForce
    rw [show (s.setClimate c).climate = c from rfl, chosen]
    rfl
  | cool =>
    rcases cool m with live | same
    · exact .inl live
    · exact k.imp_right fun none => same.trans none
  | water => exact State.WaterOrder.congr k rfl rfl rfl rfl
  | chan ch => exact k
  | lights => exact State.LightsOrder.congr k rfl rfl rfl fun _ => rfl
  | _ => exact k

/-- The Water Manager changes. -/
theorem setWater_leads (s : State) (w : Water) (water : p .water → s.WaterOrder → (s.setWater w).WaterOrder)
    (frost : p .frost → w.demand = s.water.demand) : Leads p p s (s.setWater w) := by
  refine Leads.each (fun o => (setWater_calm s w o).1) rfl rfl rfl id fun x m k => ?_
  cases x with
  | water => exact water m k
  | frost =>
    refine k.imp_left fun k => ?_
    show s.climate.frost = (s.setWater w).frostServiceNow
    rw [k]
    unfold State.frostServiceNow
    rw [show (s.setWater w).water = w from rfl, frost m]
    rfl
  | lights => exact State.LightsOrder.congr k rfl rfl rfl fun _ => rfl
  | _ => exact k

/-- A motion channel changes. -/
theorem setChan_leads (s : State) (ch : Fin 2) (c : Chan) (chan : p (.chan ch) → s.chanFits ch → (s.setChan ch c).chanFits ch) :
    Leads p p s (s.setChan ch c) := by
  refine Leads.each (setChan_ok · ch c) rfl rfl rfl id fun x m k => ?_
  cases x with
  | chan other =>
    by_cases e : other = ch
    · subst e
      exact chan m k
    · have same : (s.setChan ch c).chan other = s.chan other := (chan_setChan s ch other c).trans (if_neg fun h => e h.symm)
      show (s.setChan ch c).chanFits other
      rw [chanFits_iff, same]
      exact (chanFits_iff s other).mp k
  | water => exact State.WaterOrder.congr k rfl rfl rfl rfl
  | lights => exact State.LightsOrder.congr k rfl rfl rfl fun _ => rfl
  | _ => exact k

/-- The wind's part of the Motion Controller changes. -/
theorem setMotion_leads (s : State) (m : Motion) (chans : m.chans = s.motion.chans) : Leads p p s (s.setMotion m) := by
  have chan : ∀ ch, (s.setMotion m).chan ch = s.chan ch := fun ch => by
    show m.chans.get ch = s.motion.chans.get ch
    rw [chans]
  refine Leads.each (fun o => ⟨o.checked, o.lanes, o.claims, o.dropped, o.changes⟩) rfl rfl rfl id fun x _ k => ?_
  cases x with
  | chan ch =>
    show (s.setMotion m).chanFits ch
    rw [chanFits_iff, chan]
    exact (chanFits_iff s ch).mp k
  | water => exact State.WaterOrder.congr k rfl rfl rfl rfl
  | lights => exact State.LightsOrder.congr k rfl rfl rfl fun _ => rfl
  | _ => exact k

/-- The Light Controller changes. -/
theorem setLights_leads (s : State) (l : Lights) (lights : p .lights → s.LightsOrder → (s.setLights l).LightsOrder)
    (ceiling : p .ceiling → l.ceiling = s.lights.ceiling) (due : p .due → s.dueWaits → (s.setLights l).dueWaits) :
    Leads p p s (s.setLights l) := by
  refine Leads.each (fun o => (setLights_calm s l o).1) rfl rfl rfl id fun x m k => ?_
  cases x with
  | lights => exact lights m k
  | due => exact due m k
  | ceiling => exact (ceiling m).trans k
  | water => exact State.WaterOrder.congr k rfl rfl rfl rfl
  | _ => exact k

end

end Sys2Proof.Machine
end

