-- ==== Sys2Proof/Proofs/BrokerOrders.lean ====
section
/-! PROOFS. What the Broker's operations lead to (R33 to R49). -/

namespace Sys2Proof.Machine

/-! ### What the Broker's operations lead to (R33 to R49) -/

section
variable {p : Part → Prop} {s t : State}

/-- A part whose block the operation leaves, with its claims but for re-tests. -/
theorem orderly_stirs {x : Part} (h : t = { s with broker := t.broker, bus := t.bus, periods := t.periods })
    (level : t.broker.level = s.broker.level) (serves : ∀ id, Claim.Serves (s.live id) id (s.claim id))
    (stirs : ∀ id, x = .owner id → (s.claim id).stirs (t.claim id))
    (calm : ∀ id, x = .calm id → Claim.Bears t.broker.level id (t.claim id)) (k : s.orderly x) : t.orderly x := by
  have water : t.water = s.water := by rw [h]
  have climate : t.climate = s.climate := by rw [h]
  have motion : t.motion = s.motion := by rw [h]
  have lights : t.lights = s.lights := by rw [h]
  have seq : t.seq = s.seq := by rw [h]
  have pins : t.pins = s.pins := by rw [h]
  have entries : t.entries = s.entries := by rw [h]; rfl
  have view : t.view = s.view := by rw [h]
  have supply : t.supply = s.supply := by rw [h]
  cases x with
  | water =>
    have k : s.WaterOrder := k
    rcases stirs 2 rfl with same | ⟨waits, moved⟩
    · exact k.congr water pins seq same
    have ask : ∀ d : Claim, d.rank = (s.claim loadPump).rank → d.drawing = false → d.st ≠ .forced → t.claim loadPump = d →
        t.WaterOrder := by
      intro d rank draws unforced e
      rw [← waterFits_iff] at k ⊢
      have waits : (s.claim loadPump).st = .waiting := waits
      have still : s.water.cycle ≠ .asking ∧ s.water.cycle ≠ .circulating := by
        obtain ⟨-, -, -, -, -, -, -, -, -, draws, -, tries, -⟩ := k
        refine ⟨fun e => ?_, fun e => ?_⟩
        · have := (tries e).1
          rw [waits] at this
          cases this
        · have := draws e
          simp [Claim.drawing, waits] at this
      unfold State.waterFits State.freshOk State.valveClosed State.inRun State.inReset at k ⊢
      rw [water, pins, seq, e]
      obtain ⟨pump, runaway, owed, clear, guarded, nothing, drained, demand, timed, -, -, -, first⟩ := k
      refine ⟨fun on => ?_, runaway, owed, clear, guarded, nothing, drained, demand, timed, fun c => absurd c still.2,
        fun f => absurd f unforced, fun c => absurd c still.1, fun _ => ?_⟩
      · have := (pump on).1
        simp [Claim.drawing, waits] at this
      · rw [rank]
        exact first (by rw [waits]; decide)
    rcases moved with e | ⟨n, e⟩
    · exact ask (s.claim loadPump).toWaiting rfl rfl nofun e
    · exact ask ((s.claim loadPump).toContest n) rfl rfl nofun e
  | heater => exact State.heaterFits.stirs k climate (by rw [seq]) (stirs 0 rfl)
  | pad =>
    show (t.claim loadPad).st = .held ↔ t.climate.pad = true
    rw [climate]
    exact (Claim.stirs_held (stirs 1 rfl) .held ⟨by decide, by decide⟩).trans k
  | chan ch =>
    show t.chanFits ch
    rw [chanFits_iff, State.motionRuns, State.inRun, State.chan, seq, motion]
    have stirred : (s.claim (loadMotor ch)).stirs (t.claim (loadMotor ch)) := by
      match ch with
      | 0 => exact stirs 3 rfl
      | 1 => exact stirs 4 rfl
    exact ((chanFits_iff s ch).mp k).stirs stirred
  | lights =>
    refine State.LightsOrder.congr k lights seq level fun g => ?_
    have stirred : (s.claim (loadLights g)).stirs (t.claim (loadLights g)) := by
      match g with
      | 0 => exact stirs 5 rfl
      | 1 => exact stirs 6 rfl
    exact stirred.resolve_right fun w => (((serves (loadLights g)).lit (loadLights_ge g)).1) w.1
  | due =>
    show t.dueWaits
    unfold State.dueWaits State.group
    rw [lights, seq]
    exact k
  | frost =>
    show t.climate.frost = t.frostServiceNow ∨ t.tanksUntold
    unfold State.tanksUntold State.frostServiceNow State.inRun State.modeInForce
    rw [climate, seq, water, entries, view]
    exact k
  | cool =>
    show t.live loadHeater ∨ t.climate.frost = false
    rw [live_congr seq, climate]
    exact k
  | ceiling =>
    show t.lights.ceiling = t.ceilingNow
    unfold State.ceilingNow
    rw [lights, seq, level]
    exact k
  | figures =>
    show ∀ f, t.supply.latest = some f → f.level ≤ 6
    rw [supply]
    exact k
  | station f =>
    show f t.seq
    rw [seq]
    exact k
  | live id => exact (live_congr seq id).mpr k
  | calm id => exact calm id rfl

/-- An operation of the Broker on the claims of `q`: their owners' orders are another matter. -/
theorem Asks.leads {q : Fin 7 → Prop} (h : Asks q s t)
    (own : ∀ id, q id → s.Ok → s.Order p →
      Claim.Serves (s.live id) id (t.claim id) ∧ (p (.calm id) → Claim.Bears s.broker.level id (t.claim id)))
    (off : ∀ id, q id → ¬ p (.owner id)) : Leads p p s t := fun o order => by
  obtain ⟨ok, asked⟩ := h o
  have serves : ∀ id, Claim.Serves (t.live id) id (t.claim id) := fun id => by
    rw [live_congr asked.seq]
    by_cases m : q id
    · exact (own id m o order).1
    · exact (order.serves id).stirs (Claim.tested_stirs (asked.claims id m))
  refine ⟨ok, by rw [asked.seq]; exact order.values, by rw [asked.level]; exact order.level,
    by rw [asked.broker]; exact order.remembered, serves, fun x m => ?_⟩
  refine orderly_stirs ?_ asked.level order.serves (fun id e => ?_) (fun id e => ?_) (order.parts x m)
  · rw [asked.rest]
  · subst e
    exact Claim.tested_stirs (asked.claims id fun k => off id k m)
  · subst e
    rw [asked.level]
    by_cases k : q id
    · exact (own id k o order).2 m
    · have bears : Claim.Bears s.broker.level id (s.claim id) := order.parts _ m
      exact bears.tested (asked.claims id k)

theorem retest_leads (s : State) : Leads p p s s.retest :=
  (retest_asks (fun _ => False) s).leads (fun _ m => m.elim) fun _ m => m.elim

theorem Claim.toIdle_serves (live : Prop) (id : Fin 7) (c : Claim) : Claim.Serves live id c.toIdle :=
  ⟨fun h => absurd rfl h, nofun, nofun, nofun, nofun, nofun, nofun, nofun, nofun, fun _ => ⟨nofun, nofun⟩⟩

theorem Claim.bears_idle {level : Nat} {id : Fin 7} {c : Claim} (h : c.st = .idle) : Claim.Bears level id c := by
  refine ⟨fun k => ?_, fun k => ?_, fun _ k => ?_⟩
  · simp [Claim.contesting, h] at k
  · rw [h] at k; cases k
  · rw [h] at k; cases k

section
variable (s) (id : Fin 7) (off : ¬ p (.owner id))
include off

/-- A release (R40, R43). -/
theorem release_leads : Leads p p s (s.release id) :=
  (release_asks s id).leads (fun j e o h => by
    subst e
    refine ⟨?_, fun _ => Claim.bears_idle (release_idle o j)⟩
    rw [release_claim o]
    split
    · exact h.serves j
    · exact Claim.toIdle_serves _ _ _) fun _ e => e ▸ off

theorem release_mends : Leads (Part.but p (.calm id)) p s (s.release id) :=
  Leads.mends (.calm id) ((release_leads (p := Part.but p (.calm id)) s id fun m => off m.2)) fun o _ _ _ _ =>
    Claim.bears_idle (release_idle o id)

/-- A yield by completion mends the claim (R49). -/
theorem complete_leads (held : (s.claim id).st = .held) (yields : 5 ≤ id.val → 0 < s.broker.level) (zero : 0 ∈ loadRanks id) :
    Leads p (Part.with p (.calm id)) s (s.complete id) := by
  have claim := complete_claim s id
  have serves : s.Order p → Claim.Serves (s.live id) id ((s.complete id).claim id) := fun h => by
    obtain ⟨live, -, some⟩ := (h.serves id).asks (by rw [held]; decide)
    have more := (h.serves id).draws (by simp [Claim.drawing, held])
    rw [claim]
    exact ⟨fun _ => ⟨live, zero, more⟩, fun _ => more, nofun, nofun, nofun, nofun, nofun, nofun, nofun,
      fun _ => ⟨nofun, nofun⟩⟩
  have bears : s.Order p → Claim.Bears s.broker.level id ((s.complete id).claim id) := fun h => by
    have low := h.level
    rw [claim]
    exact ⟨nofun, fun _ => by show 0 + s.broker.level < 7; omega, fun five _ _ => yields five⟩
  intro o h
  obtain ⟨ok, order⟩ := (complete_asks s id).leads (p := p) (fun j e _ h => by subst e; exact ⟨serves h, fun _ => bears h⟩)
    (fun _ e => e ▸ off) o h
  refine ⟨ok, order.values, order.level, order.remembered, order.serves, fun x m => ?_⟩
  rcases m with rfl | m
  · show Claim.Bears (s.complete id).broker.level id _
    exact bears h
  · exact order.parts x m

/-- An ask at a rank of the load (R37, R38, R46). -/
theorem ask_leads {rank a : Nat} {single : Bool} (live : s.live id) (some : 1 ≤ a) (ranks : rank ∈ loadRanks id)
    (light : 5 ≤ id.val → single = true ∧ rank ≠ 0) :
    Leads p p s (s.ask id rank a single).1 := by
  have low : rank ≤ 6 := by
    match id with
    | 0 | 1 | 2 | 3 | 4 | 5 | 6 => revert ranks; simp [loadRanks]; omega
  refine (ask_asks s id rank a single low).leads (fun j e o h => ?_) fun _ e => e ▸ off
  subst e
  by_cases draws : (s.claim j).drawing = true
  · rw [ask_drawing rank a single some draws]
    exact ⟨h.serves j, fun m => h.parts _ m⟩
  have away : (s.claim j).drawing = false := by simpa using draws
  have more : 1 ≤ min a 30000 := by omega
  by_cases zero : rank = 0
  · subst zero
    rw [(ask_zero o a single some away).2]
    exact ⟨⟨fun _ => ⟨live, ranks, more⟩, fun _ => more, nofun, nofun, nofun, nofun, nofun, nofun, nofun,
      fun five => absurd rfl (light five).2⟩, fun _ => ⟨nofun, fun _ => by have := h.level; show 0 + s.broker.level < 7; omega,
      fun five => absurd rfl (light five).2⟩⟩
  cases passes : s.passes j rank (min a 30000) with
  | true =>
    rw [(ask_passes o a single some away zero passes).2]
    exact ⟨⟨fun _ => ⟨live, ranks, more⟩, nofun, nofun, nofun, fun _ => rfl, nofun, fun _ => .inl rfl, nofun, fun _ => zero,
      fun five => ⟨nofun, fun _ => (light five).1⟩⟩, fun _ => ⟨fun _ => passes_rank passes, nofun, nofun⟩⟩
  | false =>
    cases single with
    | true =>
      rw [(try_fails o a true some away zero passes rfl).2]
      exact ⟨Claim.toIdle_serves _ _ _, fun _ => Claim.bears_idle rfl⟩
    | false =>
      rw [(ask_fails o a false some away zero passes rfl).2]
      exact ⟨⟨fun _ => ⟨live, ranks, more⟩, nofun, nofun, nofun, nofun, nofun, nofun, fun _ => rfl, fun _ => zero,
        fun five => nomatch (light five).1⟩, fun _ => ⟨nofun, nofun, nofun⟩⟩

/-- A Lower (R43). -/
theorem lower_leads (a : Nat) : Leads p p s (s.lower id a).1 := by
  refine Leads.intro fun o h => ?_
  by_cases taken : (s.claim id).drawing = true ∧ a ≤ (s.claim id).held
  · obtain ⟨draws, le⟩ := taken
    by_cases zero : a = 0
    · have eq : (s.lower id a).1 = s.release id := by
        unfold State.lower
        rw [if_neg (by simp [draws, le]), if_pos zero]
      rw [eq]
      exact release_leads s id off
    · refine (lower_asks s id a).leads (fun j e o h => ?_) fun _ e => e ▸ off
      subst e
      rw [(lower_claim o (Nat.one_le_iff_ne_zero.mpr zero) draws le).2]
      have serves := h.serves j
      have some := Nat.one_le_iff_ne_zero.mpr zero
      have settled : ((s.claim j).lowered a).contesting = false := by
        simp only [Claim.drawing, Bool.or_eq_true, beq_iff_eq] at draws
        rcases draws with e | e <;> simp [Claim.contesting, Claim.lowered, e]
      refine ⟨⟨fun st => ?_, fun _ => some, nofun, serves.forced, nofun, nofun, fun k => (nomatch settled.symm.trans k), serves.stands,
        serves.ranked, serves.lit⟩, fun m => ?_⟩
      · obtain ⟨live, ranks, -⟩ := serves.asks st
        exact ⟨live, ranks, some⟩
      · have bears : Claim.Bears s.broker.level j (s.claim j) := h.parts _ m
        exact ⟨fun k => (nomatch settled.symm.trans k), bears.held, bears.lit⟩
  · have eq : (s.lower id a).1 = s := by
      unfold State.lower
      rw [if_pos]
      simp only [Bool.or_eq_true, Bool.not_eq_true', decide_eq_true_eq]
      by_contra not
      simp only [not_or, Bool.not_eq_false, not_lt] at not
      exact taken not
    rw [eq]
    exact Leads.refl p s

end

end

end Sys2Proof.Machine
end

