-- ==== Sys2Proof/Proofs/ContestOrders.lean ====
section
/-! PROOFS. Raise, Re-rank, Force and the end of a contest keep every order (R38 to R44, R47). -/

namespace Sys2Proof.Machine

/-! ### Raise, Re-rank, Force and the end of a contest (R38 to R44, R47) -/

section
variable {p : Part → Prop} {s t : State}

theorem Claim.Serves.toHeld {live : Prop} {id : Fin 7} {c : Claim} (h : c.Serves live id) (st : c.st ≠ .idle) {a : Nat}
    (some : 1 ≤ a) : (c.toHeld a).Serves live id := by
  obtain ⟨on, rank, -⟩ := h.asks st
  exact ⟨fun _ => ⟨on, rank, some⟩, fun _ => some, nofun, nofun, nofun, nofun, nofun, nofun, nofun, fun _ => ⟨nofun, nofun⟩⟩

theorem Claim.Serves.lose {live : Prop} {id : Fin 7} {c : Claim} (h : c.Serves live id) (contesting : c.contesting = true) :
    c.lose.Serves live id := by
  unfold Claim.lose
  have st : c.st ≠ .idle := fun e => by simp [Claim.contesting, e] at contesting
  split
  · next held => exact h.toHeld st (h.draws (by simp [Claim.drawing, held]))
  · next not =>
    have contest : c.st = .contest := by simpa [Claim.contesting, not] using contesting
    split
    · exact Claim.toIdle_serves _ _ _
    · next standing =>
      obtain ⟨on, rank, some⟩ := h.asks st
      exact ⟨fun _ => ⟨on, rank, some⟩, nofun, nofun, nofun, nofun, nofun, nofun, fun _ => Bool.eq_false_iff.mpr standing,
        fun _ => h.ranked (.inl contest), fun five => absurd ((h.lit five).2 contest) standing⟩

theorem Claim.Bears.lose {level : Nat} {id : Fin 7} {c : Claim} (h : Claim.Bears level id c) : Claim.Bears level id c.lose := by
  unfold Claim.lose
  split
  · next held => exact ⟨nofun, fun _ => h.held held, fun five _ zero => h.lit five held zero⟩
  · split
    · exact Claim.bears_idle rfl
    · exact ⟨nofun, nofun, nofun⟩

/-- A contest won at a rank that does not yield. -/
theorem Claim.Bears.win {level : Nat} {id : Fin 7} {c : Claim} (h : Claim.Bears level id c) (contesting : c.contesting = true)
    (ranked : c.st = .contest → c.rank ≠ 0) (a : Nat) : Claim.Bears level id (c.toHeld a) := by
  by_cases held : c.st = .held
  · exact ⟨nofun, fun _ => h.held held, fun five _ zero => h.lit five held zero⟩
  · have contest : c.st = .contest := by simpa [Claim.contesting, held] using contesting
    have low := h.contests contesting
    rw [askRank, if_neg (by simp [held])] at low
    exact ⟨nofun, fun _ => low, fun _ _ zero => absurd zero (ranked contest)⟩

section
variable (s) (id : Fin 7) (off : ¬ p (.owner id))
include off

/-- The end of a contest's window (R39). -/
theorem windowEnd_leads (contesting : (s.claim id).contesting = true) : Leads p p s (s.windowEnd id).1 :=
  (windowEnd_asks s id).leads (fun j e o h => by
    subst e
    have serves := h.serves j
    have st : (s.claim j).st ≠ .idle := fun e => by simp [Claim.contesting, e] at contesting
    obtain ⟨-, -, some⟩ := serves.asks st
    rw [windowEnd_eq o]
    split
    · rw [show ((s.putClaim j _, Reply.granted).1).claim j = _ from claim_putClaim_self s j _]
      exact ⟨serves.toHeld st some, fun m => Claim.Bears.win (h.parts _ m) contesting (fun e => serves.ranked (.inl e)) _⟩
    · rw [show ((s.putClaim j _, (s.claim j).lossReply).1).claim j = _ from claim_putClaim_self s j _]
      exact ⟨serves.lose contesting, fun m => Claim.Bears.lose (h.parts _ m)⟩) fun _ e => e ▸ off

/-- The failure of a contest's announcement (R38). -/
theorem announceFailed_leads (tag : Nat) : Leads p p s (s.announceFailed id tag).1 :=
  (announceFailed_asks s id tag).leads (fun j e o h => by
    subst e
    have serves := h.serves j
    unfold State.announceFailed
    dsimp only
    split
    · next given =>
      simp only [Bool.and_eq_true] at given
      rw [claim_setClaim_self]
      exact ⟨serves.lose given.1.1, fun m => Claim.Bears.lose (h.parts _ m)⟩
    · exact ⟨serves, fun m => h.parts _ m⟩) fun _ e => e ▸ off

/-- A contest ended by the level: its claim no longer contests at a rank that yields (R40). -/
theorem contestYields_leads (contest : (s.claim id).st = .contest) :
    Leads p (Part.with p (.calm id)) s (s.contestYields id).1 := by
  have claim : (s.contestYields id).1.claim id = (s.claim id).lose := claim_putClaim_self _ _ _
  have contesting : (s.claim id).contesting = true := by simp [Claim.contesting, contest]
  have bears : ∀ level, Claim.Bears level id (s.claim id).lose := fun level => by
    unfold Claim.lose
    rw [if_neg (by rw [contest]; decide)]
    split
    · exact Claim.bears_idle rfl
    · exact ⟨nofun, nofun, nofun⟩
  intro o h
  obtain ⟨ok, order⟩ := (contestYields_asks s id).leads (p := p)
    (fun j e _ h => by subst e; rw [claim]; exact ⟨(h.serves j).lose contesting, fun _ => bears _⟩) (fun _ e => e ▸ off) o h
  refine ⟨ok, order.values, order.level, order.remembered, order.serves, fun x m => ?_⟩
  rcases m with rfl | m
  · show Claim.Bears _ id ((s.contestYields id).1.claim id)
    rw [claim]
    exact bears _
  · exact order.parts x m

/-- A Raise of a light group (R42, R51). -/
theorem raise_leads (five : 5 ≤ id.val) (a : Nat) : Leads p p s (s.raise id a).1 := by
  by_cases held : (s.claim id).st = .held
  · by_cases le : min a 30000 ≤ (s.claim id).held
    · have eq : s.raise id a = s.lower id (min a 30000) := by
        unfold State.raise
        exact (if_neg (by simp [held])).trans (if_pos le)
      rw [eq]
      exact lower_leads s id off _
    · refine (raise_asks s id a).leads (fun j e o h => ?_) fun _ e => e ▸ off
      subst e
      have result := raise_claim (a := a) o held (by omega) (.inr five)
      have serves := h.serves j
      obtain ⟨live, ranks, -⟩ := serves.asks (by rw [held]; decide)
      have draws := serves.draws (by simp [Claim.drawing, held])
      dsimp only at result
      split at result
      · next passes =>
        rw [result.2]
        refine ⟨⟨fun _ => ⟨live, ranks, by show 1 ≤ min a 30000; omega⟩, fun _ => draws, fun _ => five, serves.forced,
          fun _ => by simp [Claim.contesting, held], nofun, fun _ => .inl rfl, serves.stands, serves.ranked, serves.lit⟩, fun m => ?_⟩
        have bears : Claim.Bears s.broker.level j (s.claim j) := h.parts _ m
        exact ⟨fun _ => passes_rank passes, bears.held, bears.lit⟩
      · rw [result.2]
        split
        · refine ⟨serves.toHeld (by rw [held]; decide) draws, fun m => ?_⟩
          have bears : Claim.Bears s.broker.level j (s.claim j) := h.parts _ m
          exact ⟨nofun, fun _ => bears.held held, fun five _ zero => bears.lit five held zero⟩
        · exact ⟨serves, fun m => h.parts _ m⟩
  · have eq : s.raise id a = (s, .refused) := by
      unfold State.raise
      exact if_pos held
    rw [eq]
    exact Leads.refl p s

/-- A Force of the pump (R47). -/
theorem force_leads (pump : id = loadPump) (live : s.live id) {a : Nat} (some : 1 ≤ a) : Leads p p s (s.force id a).1 :=
  (force_asks s id a).leads (fun j e o h => by
    subst e
    have result := force_claim o j a
    have more : 1 ≤ min a 30000 := by omega
    split at result
    · rw [result.2]
      refine ⟨⟨fun _ => ⟨live, by rw [pump]; exact List.mem_cons_self, more⟩, fun _ => more, nofun, fun _ => pump, nofun, nofun, nofun, nofun, nofun,
        fun five => by rw [pump] at five; exact absurd five (by decide)⟩, fun _ => ⟨nofun, nofun, nofun⟩⟩
    · rw [result.2]
      split
      · exact ⟨h.serves j, fun m => h.parts _ m⟩
      · exact ⟨Claim.toIdle_serves _ _ _, fun _ => Claim.bears_idle rfl⟩) fun _ e => e ▸ off

/-- A Re-rank of a claim that is not a light group's: the weaker rank of a Held claim may yield at once (R44). -/
theorem rerank_leads {rank : Nat} (low : id.val < 5) (ranks : rank ∈ loadRanks id)
    (pos : (s.claim id).st = .waiting → rank ≠ 0) :
    Leads p (if (s.rerank id rank).2 = .yield then Part.but p (.calm id) else p) s (s.rerank id rank).1 := by
  have le : rank ≤ 6 := by
    match id with
    | 0 | 1 | 2 | 3 | 4 | 5 | 6 => revert ranks; simp [loadRanks]; omega
  have part : ∀ q : Part → Prop, (∀ x, q x → p x) → ((s.rerank id rank).2 = .yield → ¬ q (.calm id)) →
      Leads p q s (s.rerank id rank).1 := by
    intro q w spared o h
    refine (rerank_asks s id rank le).leads (p := q) (fun j e o h => ?_) (fun _ e m => off (e ▸ w _ m)) o (h.mono w)
    subst e
    have serves := h.serves j
    cases st : (s.claim j).st with
    | waiting =>
      obtain ⟨live, -, some⟩ := serves.asks (by rw [st]; decide)
      have standing := serves.stands st
      rw [(rerank_waiting o le st).2]
      split
      · next passes =>
        exact ⟨⟨fun _ => ⟨live, ranks, some⟩, nofun, nofun, nofun, fun _ => rfl, nofun, fun _ => .inl rfl, nofun, fun _ => pos st,
          fun five => absurd five (by omega)⟩, fun _ => ⟨fun _ => passes_rank passes, nofun, nofun⟩⟩
      · exact ⟨⟨fun _ => ⟨live, ranks, some⟩, nofun, nofun, nofun, nofun, nofun, nofun, fun _ => standing, fun _ => pos st,
          fun five => absurd five (by omega)⟩, fun _ => ⟨nofun, nofun, nofun⟩⟩
    | held =>
      obtain ⟨live, -, some⟩ := serves.asks (by rw [st]; decide)
      have calm : (s.claim j).contesting = false := by
        have raise : (s.claim j).raise = false := by
          rw [← Bool.not_eq_true]
          exact fun e => absurd (serves.raises e) (by omega)
        simp [Claim.contesting, st, raise]
      rw [rerank_held_claim rank st]
      have away : ¬ ((s.claim j).st = .contest ∨ (s.claim j).st = .waiting) := by rw [st]; decide
      refine ⟨⟨fun _ => ⟨live, ranks, some⟩, serves.draws, serves.raises, serves.forced, serves.announces, serves.timed, serves.staged,
        serves.stands, fun e => absurd e away, serves.lit⟩, fun m => ?_⟩
      have bears : Claim.Bears s.broker.level j (s.claim j) := h.parts _ m
      refine ⟨fun k => (nomatch calm.symm.trans k), fun _ => ?_, fun five => absurd five (by omega)⟩
      show rank + s.broker.level < 7
      have stood := bears.held st
      by_contra yields
      refine spared ?_ m
      rw [rerank_held rank st, if_neg (by omega)]
      exact if_pos ⟨by omega, by omega⟩
    | _ =>
      rw [rerank_refused rank (by rw [st]; decide) (by rw [st]; decide)]
      exact ⟨serves, fun m => h.parts _ m⟩
  split
  · next yields => exact part _ (fun _ m => m.2) fun _ m => m.1 rfl
  · next not => exact part p (fun _ m => m) fun e => absurd e not

end

end

end Sys2Proof.Machine
end

