-- ==== Sys2Proof/Proofs/HeaterOrders.lean ====
section
/-! PROOFS. The heater's operations, its own order aside (R109 to R117). -/

namespace Sys2Proof.Machine

/-! ### The amounts asked for (R185) -/

theorem Values.fit.draw {v : Values} (h : Values.fit v) (i : Fin 49) (plain : (itemRange i.val).1 = 1)
    (one : ¬ (10 ≤ i.val ∧ i.val ≤ 17) ∧ i.val ≠ 20 ∧ ¬ (22 ≤ i.val ∧ i.val ≤ 24)) : 1 ≤ v.get i := by
  have item := h.1 i
  unfold inRange at item
  rw [if_neg one.1, if_neg one.2.1, if_neg one.2.2, plain] at item
  exact item.1

/-! ### The heater's operations, its own order aside (R111 to R117) -/

section
variable {p : Part → Prop} {s t : State}

/-- That an owner acts may be taken as one more part in order. -/
theorem Leads.acts {id : Fin 7} (live : s.live id) (h : Leads (Part.with p (.live id)) (Part.with p (.live id)) s t) :
    Leads p p s t := fun o k => by
  obtain ⟨ok, order⟩ := h o ⟨k.values, k.level, k.remembered, k.serves, fun x m => m.elim (fun e => e ▸ live) (k.parts x)⟩
  exact ⟨ok, order.mono fun _ m => .inr m⟩

theorem readAll_leads (s : State) (f : Entry → Bool) : Leads p p s (s.readAll f) :=
  Leads.intro fun o _ => by rw [readAll_checked o.checked]; exact Leads.refl p s

theorem setCell_leads (s : State) (c : Cell) : Leads p p s (s.setCell c) :=
  Leads.still (fun o => ⟨o.checked, o.lanes, o.claims, o.dropped, o.changes⟩) rfl

theorem readSupply_leads (s : State) : Leads p p s s.readSupply :=
  Leads.intro fun o _ => by rw [readSupply_checked o.checked]; exact Leads.refl p s

/-- A change of the Climate Controller that the pad and frost service do not see. -/
theorem setClimate_off (s : State) (c : Climate) (off : ¬ p .heater) (pad : c.pad = s.climate.pad)
    (frost : c.frost = s.climate.frost) (chosen : c.chosen = s.climate.chosen) : Leads p p s (s.setClimate c) :=
  setClimate_leads s c (fun m => absurd m off) (fun _ => pad) (fun _ => ⟨frost, chosen⟩) fun _ => .inr frost

section
variable (off : ¬ p .heater) (s)
include off

theorem updateHdem_off : Leads p p s s.updateHdem := setClimate_off s _ off rfl rfl rfl

theorem enterPurging_off : Leads p p s s.enterPurging := by
  unfold State.enterPurging
  refine (setClimate_off s { s.climate with
    heater := .purging, hen := false, hdem := 0, startTimer := none, runTimer := none
    purgeTimer := some Config.heaterPurgeMs, remembered := s.heaterWanted } off rfl rfl rfl).trans ?_
  exact (Leads.ite (fun _ => lower_leads _ loadHeater off _) fun _ => Leads.refl p _)

theorem heaterYields_off : Leads p p s s.heaterYields := by
  unfold State.heaterYields
  split
  · exact enterPurging_off s off
  · exact enterPurging_off s off
  · exact enterPurging_off s off
  · exact Leads.refl p s

omit off in
theorem heaterRank_mem (s : State) : s.heaterRank ∈ loadRanks loadHeater ∧ s.heaterRank ≠ 0 := by
  unfold State.heaterRank
  split
  · exact ⟨by decide, by decide⟩
  · exact ⟨by decide, by decide⟩

/-- A Re-rank whose weaker rank gives way at once is followed by a yield by completion, which mends the claim. -/
theorem heaterRerank_off : Leads p p s s.heaterRerank := by
  unfold State.heaterRerank
  refine Leads.ite (fun held => ?_) fun _ => Leads.refl p s
  have moved := rerank_leads s loadHeater off (by decide) (heaterRank_mem s).1 fun _ => (heaterRank_mem s).2
  have claim := rerank_held_claim s.heaterRank held.1
  generalize s.rerank loadHeater s.heaterRank = r at *
  obtain ⟨u, reply⟩ := r
  dsimp only at moved claim ⊢
  split
  · next e =>
    obtain ⟨rfl, rfl⟩ := Prod.mk.inj e
    rw [if_pos rfl] at moved
    have mended := complete_leads (p := Part.but p (.calm loadHeater)) u loadHeater (fun m => off m.2)
      (by rw [claim]; exact held.1) (fun five => absurd five (by decide)) List.mem_cons_self
    refine (moved.trans (mended.mono (fun _ m => m) fun x m => ?_)).trans (heaterYields_off _ off)
    by_cases e : x = .calm loadHeater
    · exact .inl e
    · exact .inr ⟨e, m⟩
  · next other e =>
    obtain ⟨rfl, rfl⟩ := Prod.mk.inj e
    rw [if_neg fun yields => other yields] at moved
    exact moved

theorem askHeater_off (live : p (.live loadHeater)) : Leads p p s s.askHeater := by
  refine Leads.intro fun _ h => ?_
  have on : s.live loadHeater := h.parts _ live
  have some : 1 ≤ Item.startDraw s.seq.values := h.values.draw 26 rfl (by decide)
  unfold State.askHeater
  dsimp only
  split
  · have first := ask_leads s loadHeater off (rank := 1) (single := true) on some (by decide) (fun five => absurd five (by decide))
    generalize s.ask loadHeater 1 (Item.startDraw s.seq.values) true = r at *
    obtain ⟨u, reply⟩ := r
    split
    · next e =>
      obtain ⟨rfl, rfl⟩ := Prod.mk.inj e
      refine first.trans ((setClimate_off u { u.climate with tryFailed := true } off rfl rfl rfl).trans (Leads.intro fun _ k => ?_))
      exact ask_leads _ loadHeater off (rank := 1) (k.parts _ live) some (by decide) fun five => absurd five (by decide)
    · next e =>
      obtain ⟨rfl, rfl⟩ := Prod.mk.inj e
      exact first
  · exact ask_leads s loadHeater off (rank := 4) on some (by decide) fun five => absurd five (by decide)

theorem heaterActs_off (live : s.live loadHeater) : Leads p p s s.heaterActs := by
  have standing := fun rank => rerank_leads (p := p) s loadHeater off (rank := rank) (by decide)
  unfold State.heaterActs
  split
  · split
    · exact Leads.ite (fun _ => Leads.acts live (askHeater_off s (fun m => m.elim nofun off) (.inl rfl))) fun _ => Leads.refl p s
    · next waits =>
      refine Leads.ite (fun _ => Leads.ite (fun _ => Leads.refl p s) fun _ => ?_) fun _ => release_leads s loadHeater off
      have moved := standing s.heaterRank (heaterRank_mem s).1 fun _ => (heaterRank_mem s).2
      rwa [if_neg] at moved
      unfold State.rerank
      dsimp only
      rw [waits]
      nofun
    · exact Leads.ite (fun _ => Leads.refl p s) fun _ => release_leads s loadHeater off
    · exact Leads.refl p s
  · exact Leads.ite (fun _ => heaterRerank_off s off) fun _ => (enterPurging_off s off).trans (heaterRerank_off _ off)
  · exact Leads.ite (fun _ => heaterRerank_off s off) fun _ => (enterPurging_off s off).trans (heaterRerank_off _ off)
  · exact (setClimate_off s { s.climate with remembered := s.heaterWanted } off rfl rfl rfl).trans (heaterRerank_off _ off)
  · exact Leads.refl p s

theorem heaterFollows_off : Leads p p s s.heaterFollows := by
  by_cases on : s.seq.fns.heat = true ∧ s.inRun = true
  · rw [heaterFollows_eq on.1 on.2]
    exact (heaterActs_off s off ⟨on.2, on.1⟩).trans (updateHdem_off _ off)
  · rw [heaterFollows_rests (by
      by_contra not
      simp only [not_or, Bool.not_eq_false] at not
      exact on not)]
    exact Leads.refl p s

theorem enterRunning_off : Leads p p s s.enterRunning :=
  (setClimate_off s { s.climate with
    heater := .running, startTimer := none, runTimer := some Config.heaterRunMs, tryFailed := false } off rfl rfl rfl).trans
    ((lower_leads _ loadHeater off _).trans (updateHdem_off _ off))

theorem declareLockout_off : Leads p p s s.declareLockout :=
  (setClimate_off s { s.climate with lockout := true } off rfl rfl rfl).trans
    ((setCell_leads _ _).trans (monitor_leads _ _ _))

theorem heaterFails_off : Leads p p s s.heaterFails :=
  (setClimate_off s { s.climate with failures := min 2 (s.climate.failures + 1) } off rfl rfl rfl).trans
    ((Leads.ite (fun _ => declareLockout_off _ off) fun _ => Leads.refl p _).trans (enterPurging_off _ off))

theorem enterStarting_off : Leads p p s s.enterStarting :=
  (setClimate_off s { s.climate with heater := .starting, hen := true, startTimer := some Config.heaterStartMs } off rfl rfl rfl).trans
    ((updateHdem_off _ off).trans (Leads.ite (fun _ => heaterFails_off _ off)
      fun _ => Leads.ite (fun _ => enterRunning_off _ off) fun _ => Leads.refl p _))

theorem heaterGranted_off : Leads p p s s.heaterGranted :=
  (heaterRerank_off s off).trans (Leads.ite (fun _ => enterStarting_off _ off) fun _ => Leads.refl p _)

theorem heaterStands_off (live : p (.live loadHeater)) : Leads p p s s.heaterStands :=
  Leads.ite (fun _ => Leads.intro fun _ h => ask_leads s loadHeater off (h.parts _ live) (h.values.draw 26 rfl (by decide))
    (heaterRank_mem s).1 fun five => absurd five (by decide)) fun _ => Leads.refl p s

theorem heaterLost_off (live : p (.live loadHeater)) : Leads p p s s.heaterLost :=
  (Leads.ite (fun _ => setClimate_off s { s.climate with tryFailed := true } off rfl rfl rfl) fun _ => Leads.refl p s).trans
    (heaterStands_off _ off live)

theorem heaterWaits_off (live : p (.live loadHeater)) : Leads p p s s.heaterWaits :=
  Leads.ite (fun _ => heaterStands_off s off live) fun _ => Leads.refl p s

end

end

end Sys2Proof.Machine
end

