-- ==== Sys2Proof/Proofs/HeaterKept.lean ====
section
/-! PROOFS. The heater's own order, kept (R111 to R117). -/

namespace Sys2Proof.Machine

/-! ### The heater's own order, kept (R111 to R117) -/

theorem Values.fit.heaterDraws {s : State} (h : Values.fit s.seq.values) : s.heaterDraws := by
  have start := h.1 26
  have run := h.1 27
  unfold inRange at start run
  rw [if_neg (by decide), if_neg (by decide), if_neg (by decide)] at start run
  exact ⟨⟨start.1, start.2.1⟩, run.1, h.2.1⟩

section
variable {p : Part → Prop} {s t : State}

/-- A part that an operation keeps by an argument of its own, beside the others. -/
theorem Leads.keeps (x : Part) (h : Leads (Part.but p x) (Part.but p x) s t)
    (k : s.Ok → s.Order p → t.Ok → p x → t.orderly x) : Leads p p s t :=
  Leads.mends x (h.mono (fun _ m => m.2) fun _ m => m) fun o a ok _ m => k o a ok m

theorem Part.but_not (p : Part → Prop) (x : Part) : ¬ Part.but p x x := fun m => m.1 rfl

theorem heaterFollows_leads (s : State) : Leads p p s s.heaterFollows :=
  Leads.keeps .heater (heaterFollows_off s (Part.but_not p _)) fun o h _ m => by
    have fits : s.heaterFits := h.parts _ m
    show s.heaterFollows.heaterFits
    by_cases on : s.seq.fns.heat = true ∧ s.inRun = true
    · exact (heaterFollows_followed o fits h.values.heaterDraws on.1 on.2).fits
    · rw [heaterFollows_rests (by
        by_contra not
        simp only [not_or, Bool.not_eq_false] at not
        exact on not)]
      exact fits

/-- A change that the heater's order does not speak of. -/
theorem setClimate_free (s : State) (c : Climate) (same : c = { s.climate with
    call := c.call, callCount := c.callCount, tryFailed := c.tryFailed, remembered := c.remembered
    padWanted := c.padWanted, readTimer := c.readTimer }) : Leads p p s (s.setClimate c) :=
  setClimate_leads s c (fun _ h => h.free (by rw [same])) (fun _ => by rw [same]) (fun _ => by rw [same]; exact ⟨rfl, rfl⟩)
    fun _ => .inr (by rw [same])

/-- Frost service worked out again is what its inputs give; elsewhere than where the heater acts there is none (R110). -/
theorem frostService_leads (s : State) (cool : p .cool) : Leads (Part.but p .frost) p s s.frostService := by
  unfold State.frostService
  split
  · next on =>
    simp only [Bool.and_eq_true] at on
    have live : s.live loadHeater := ⟨on.2, on.1⟩
    refine Leads.intro fun o _ => ?_
    rw [readAll_checked o.checked]
    dsimp only
    split
    · next same =>
      exact Leads.mends .frost (Leads.refl _ s) fun _ _ _ _ _ => .inl same.symm
    · have served : Leads (Part.but p .frost) (Part.but p .frost) s (s.setClimate { s.climate with
          frost := s.frostServiceNow, tryFailed := s.climate.tryFailed && s.frostServiceNow }) :=
        setClimate_leads s _ (fun _ h => h.free rfl) (fun _ => rfl) (fun m => absurd rfl m.1) fun _ => .inl live
      exact Leads.trans (q := p) (Leads.mends .frost served fun _ _ _ _ _ => .inl rfl) (heaterFollows_leads _)
  · next not =>
    refine Leads.mends .frost (Leads.refl _ s) fun _ h _ _ _ => ?_
    have none : s.climate.frost = false := (h.parts .cool ⟨nofun, cool⟩).resolve_left fun live => not (by
      rw [show s.seq.fns.heat = true from live.2, live.1]; rfl)
    refine .inl ?_
    show s.climate.frost = s.frostServiceNow
    rw [none]
    unfold State.frostServiceNow
    rw [Bool.eq_false_iff.mpr not]
    rfl

/-- The mode in force has changed (R105, R109, R110). -/
theorem modeChanged_leads (s : State) (cool : p .cool) : Leads (Part.but p .frost) p s s.modeChanged := by
  unfold State.modeChanged
  split
  · refine Leads.trans (q := Part.but p .frost) (Leads.ite (fun _ => Leads.refl _ s) fun _ => ?_)
      ((frostService_leads _ cool).trans (heaterFollows_leads _))
    exact setClimate_free s _ rfl
  · next not =>
    refine Leads.mends .frost (Leads.refl _ s) fun _ h _ _ _ => ?_
    have none : s.climate.frost = false := (h.parts .cool ⟨nofun, cool⟩).resolve_left fun live => not live.2
    refine .inl ?_
    show s.climate.frost = s.frostServiceNow
    rw [none]
    unfold State.frostServiceNow
    rw [Bool.eq_false_iff.mpr not]
    rfl

end

/-! ### A heater that starts, and one that stands (R111 to R113) -/

/-- A failure keeps the order. -/
theorem HeaterFailed.order {s t : State} (h : s.heaterFits) (seq : t.seq = s.seq) (failed : HeaterFailed s t) : t.heaterFits := by
  unfold State.heaterFits
  rw [failed.climate, seq]
  exact HeaterOrder.purge (c := { s.climate with
    failures := min 2 (s.climate.failures + 1), lockout := s.climate.lockout || decide (1 ≤ s.climate.failures) })
    h.zones (min_le_left _ _) failed.st rfl

section
variable {s : State} {k : Claim} (o : s.Ok) (h : HeaterOrder s.climate s.seq.values k) (draws : s.heaterDraws)
include o h draws

section
variable (off : s.climate.heater = .off)
include off

theorem enterStarting_fits (run : s.inRun = true) (held : (s.claim loadHeater).st = .held)
    (amount : (s.claim loadHeater).held = Item.startDraw s.seq.values) : s.enterStarting.heaterFits := by
  unfold State.enterStarting
  dsimp only
  generalize hu : (s.setClimate { s.climate with
    heater := .starting, hen := true, startTimer := some Config.heaterStartMs }).updateHdem = u
  have ok : u.Ok := hu ▸ (setClimate_calm _ _ ((setClimate_calm s _ o).1)).1
  have claim : u.claim loadHeater = s.claim loadHeater := by rw [← hu]; rfl
  have seq : u.seq = s.seq := by rw [← hu]; rfl
  have pins : u.pins = s.pins := by rw [← hu]; rfl
  have unlocked : s.climate.lockout = false := by
    rw [← Bool.not_eq_true]
    intro l
    rcases h.lockout l with e | e <;> rw [off] at e <;> cases e
  have timers : s.climate.runTimer = none ∧ s.climate.purgeTimer = none := by
    refine ⟨?_, ?_⟩
    · cases e : s.climate.runTimer with
      | none => rfl
      | some _ => exact absurd (h.runTimer (by rw [e]; rfl)) (by rw [off]; nofun)
    · cases e : s.climate.purgeTimer with
      | none => rfl
      | some _ => exact absurd (h.purgeTimer.mp (by rw [e]; rfl)) (by rw [off]; nofun)
  have fits : u.heaterFits := by
    rw [← hu]
    refine updateHdem_fits ?_
    exact {
      zones := h.zones, failures := h.failures
      single := fun e => absurd (held.symm.trans e) nofun
      hen := by simp [State.setClimate]
      held := ⟨fun _ => .inl rfl, fun _ => held⟩
      asks := fun e => by
        have held : ((s.setClimate { s.climate with
          heater := .starting, hen := true, startTimer := some Config.heaterStartMs }).claim loadHeater).st = .held := held
        rw [held] at e
        simp at e
      starting := fun _ => amount
      running := nofun
      cold := nofun
      hdem := h.hdem
      startTimer := by simp [State.setClimate]
      runTimer := fun e => absurd e (by show ¬ s.climate.runTimer.isSome = true; rw [timers.1]; decide)
      purgeTimer := ⟨fun e => absurd e (by show ¬ s.climate.purgeTimer.isSome = true; rw [timers.2]; decide), nofun⟩
      locked := nofun
      lockout := fun e => absurd (unlocked.symm.trans e) nofun
      unforced := fun e => absurd (held.symm.trans e) nofun
      standing := fun e => absurd (held.symm.trans e) nofun }
  have starting : u.climate.heater = .starting := by rw [← hu]; rfl
  obtain ⟨-, one, le⟩ := draws
  split
  · have failed := heaterFails_failed ok fits (by rw [State.inRun, seq]; exact run) (by rw [seq]; exact one) (.inl starting)
    exact failed.order fits (heaterFails_calm u ok).2.1.seq
  split
  · obtain ⟨climate, lowered⟩ := enterRunning_runs ok (by rw [claim]; exact held) (by rw [seq]; exact one)
      (by rw [claim, seq, amount]; exact le)
    have same := (enterRunning_calm u ok).2.1.seq
    have hen : u.climate.hen = true := by rw [← hu]; rfl
    have st : ((u.claim loadHeater).lowered (Item.runDraw u.seq.values)).st = .held := by
      show (u.claim loadHeater).st = .held
      rw [claim]
      exact held
    have zones := heaterDemand_le fits.zones
    unfold State.heaterFits
    rw [climate, lowered, same]
    exact {
      zones := fits.zones, failures := fits.failures
      single := fun e => absurd (st.symm.trans e) nofun
      hen := ⟨fun _ => .inr rfl, fun _ => hen⟩
      held := ⟨fun _ => .inr (.inl rfl), fun _ => st⟩
      asks := fun e => by rw [st] at e; simp at e
      starting := nofun
      running := fun _ => rfl
      cold := fun e => absurd (hen.symm.trans e) nofun
      hdem := zones
      startTimer := ⟨nofun, nofun⟩
      runTimer := fun _ => rfl
      purgeTimer := ⟨fun e => absurd (fits.purgeTimer.mp e) (by rw [starting]; nofun), nofun⟩
      locked := nofun
      lockout := fun e => absurd (fits.lockout e) (by rw [starting]; nofun)
      unforced := fun e => absurd (st.symm.trans e) nofun
      standing := fun e => absurd (st.symm.trans e) nofun }
  · exact fits

/-- A contest won: the heater starts, unless its weaker rank has yielded (R111, R112). -/
theorem heaterGranted_fits (run : s.inRun = true) (held : (s.claim loadHeater).st = .held)
    (amount : (s.claim loadHeater).held = Item.startDraw s.seq.values) : s.heaterGranted.heaterFits := by
  obtain ⟨st, same⟩ := heaterRerank_cases held o draws.2.1
  have calm := heaterRerank_calm s o
  have seq := calm.2.1.seq
  unfold State.heaterGranted
  dsimp only
  generalize s.heaterRerank = u at *
  rcases same with ⟨climate, kept⟩ | ⟨-, climate, -⟩
  · rw [if_pos (by rw [climate]; exact off)]
    refine enterStarting_fits calm.1 (k := k) (by rw [climate, seq]; exact h) (by unfold State.heaterDraws; rw [seq]; exact draws)
      (by rw [climate]; exact off) (by rw [State.inRun, seq]; exact run) st (by rw [kept, amount, seq])
  · rw [if_neg (by rw [climate]; nofun)]
    exact HeaterOrder.purge h.zones h.failures st (by rw [climate]; rfl)

/-- A standing ask after a contest lost: where the heater is not wanted, the claim stands as the loss has left it (R111). -/
theorem heaterStands_fits (left : HeaterOrder s.climate s.seq.values (s.claim loadHeater))
    (away : (s.claim loadHeater).drawing = false) : s.heaterStands.heaterFits := by
  unfold State.heaterStands
  split
  · have pos := (heaterRank_mem s).2
    have amount : min (Item.startDraw s.seq.values) 30000 = Item.startDraw s.seq.values := min_eq_left draws.1.2
    have shared := ask_shared s loadHeater s.heaterRank (Item.startDraw s.seq.values) false
    have facts : let d := (s.ask loadHeater s.heaterRank (Item.startDraw s.seq.values) false).1.claim loadHeater
        (d.st = .contest ∨ d.st = .waiting) ∧ d.asked = Item.startDraw s.seq.values ∧ d.single = false := by
      dsimp only
      cases passes : s.passes loadHeater s.heaterRank (min (Item.startDraw s.seq.values) 30000) with
      | true =>
        rw [(ask_passes o _ false draws.1.1 away pos passes).2, amount]
        exact ⟨.inl rfl, rfl, rfl⟩
      | false =>
        rw [(ask_fails o _ false draws.1.1 away pos passes rfl).2, amount]
        exact ⟨.inr rfl, rfl, rfl⟩
    obtain ⟨st, asked, single⟩ := facts
    unfold State.heaterFits
    rw [shared.climate, shared.seq]
    exact h.asking off st asked (fun _ e => absurd (single.symm.trans e) nofun) fun _ => single
  · exact left

end

end

end Sys2Proof.Machine
end

