-- ==== Sys2Proof/Proofs/HeatContests.lean ====
section
/-! PROOFS. A contest of the heater or the pad ends, and a Held one yields (R38 to R40, R50, R117, R120). -/

namespace Sys2Proof.Machine

/-! ### A contest of the heater ends, and a Held heater yields (R38 to R40, R50, R117) -/

section
variable {p : Part → Prop} {s : State}

theorem reportHeater_off (off : ¬ p .heater) (live : p (.live loadHeater)) (s : State) (r : Reply) :
    Leads p p s (s.report loadHeater r) := by
  cases r with
  | granted => exact heaterGranted_off s off
  | lost => exact heaterLost_off s off live
  | waits => exact heaterWaits_off s off live
  | _ => exact Leads.refl p s

/-- A claim that stands for something has an owner that acts. -/
theorem State.Order.live {id : Fin 7} (h : s.Order p) (st : (s.claim id).st ≠ .idle) : s.live id :=
  ((h.serves id).asks st).1

theorem contesting_stands {c : Claim} (h : c.contesting = true) : c.st ≠ .idle :=
  fun e => by simp [Claim.contesting, e] at h

/-- A heater's contest lost (R38, R111). -/
theorem heaterLoses_fits {u : State} (fits : s.heaterFits) (draws : s.heaterDraws) (raise : (s.claim loadHeater).raise = false)
    (contesting : (s.claim loadHeater).contesting = true) (ok : u.Ok) (climate : u.climate = s.climate) (seq : u.seq = s.seq)
    (claim : u.claim loadHeater = (s.claim loadHeater).lose) :
    (u.report loadHeater (s.claim loadHeater).lossReply).heaterFits := by
  have contest : (s.claim loadHeater).st = .contest := by simpa [Claim.contesting, raise] using contesting
  obtain ⟨off, asked⟩ := fits.asks (.inl contest)
  have order : HeaterOrder u.climate u.seq.values (s.claim loadHeater) := by rw [climate, seq]; exact fits
  have draws' : u.heaterDraws := by unfold State.heaterDraws; rw [seq]; exact draws
  have offu : u.climate.heater = .off := by rw [climate]; exact off
  cases single : (s.claim loadHeater).single with
  | true =>
    have lose : (s.claim loadHeater).lose = (s.claim loadHeater).toIdle := by simp [Claim.lose, contest, single]
    have reply : (s.claim loadHeater).lossReply = .lost := by simp [Claim.lossReply, single]
    rw [reply]
    rw [lose] at claim
    have idle : (u.claim loadHeater).st = .idle := by rw [claim]; rfl
    show (State.heaterStands _).heaterFits
    have stands : ∀ v : State, v.Ok → HeaterOrder v.climate v.seq.values (s.claim loadHeater) → v.heaterDraws →
        v.climate.heater = .off → (v.claim loadHeater).st = .idle → v.heaterStands.heaterFits :=
      fun v ok order draws off idle => heaterStands_fits ok order draws off (order.idle (.inl off) idle)
        (by simp [Claim.drawing, idle])
    split
    · exact stands _ (setClimate_calm u _ ok).1 (order.free rfl) draws' offu idle
    · exact stands u ok order draws' offu idle
  | false =>
    have lose : (s.claim loadHeater).lose = (s.claim loadHeater).toWaiting := by simp [Claim.lose, contest, single]
    have reply : (s.claim loadHeater).lossReply = .waits := by simp [Claim.lossReply, contest, single]
    rw [reply]
    rw [lose] at claim
    have left : u.heaterFits := by
      unfold State.heaterFits
      rw [claim]
      refine order.asking offu (.inr rfl) (by rw [seq]; exact asked) (fun e => ?_) fun _ => single
      cases e
    show (if _ then u.heaterStands else u).heaterFits
    split
    · exact heaterStands_fits ok order draws' offu left (by rw [claim]; rfl)
    · exact left

/-- The end of the window of the heater's contest (R39, R111, R112). -/
theorem heaterWindow_leads (contesting : (s.claim loadHeater).contesting = true) :
    Leads p p s ((s.windowEnd loadHeater).1.report loadHeater (s.windowEnd loadHeater).2) := by
  refine Leads.intro fun _ h => Leads.acts (h.live (contesting_stands contesting)) (Leads.keeps .heater
    ((windowEnd_leads s loadHeater (Part.but_not _ _) contesting).trans
      (reportHeater_off (Part.but_not _ _) ⟨nofun, .inl rfl⟩ _ _)) fun o h _ m => ?_)
  have fits : s.heaterFits := h.parts _ m
  have serves := h.serves loadHeater
  have raise : (s.claim loadHeater).raise = false := by
    rw [← Bool.not_eq_true]
    exact fun e => absurd (serves.raises e) (by decide)
  have calm := windowEnd_calm s loadHeater o
  show (State.report _ _ _).heaterFits
  rw [windowEnd_eq o] at calm ⊢
  split at calm
  · next won =>
    rw [if_pos won]
    have contest : (s.claim loadHeater).st = .contest := by simpa [Claim.contesting, raise] using contesting
    obtain ⟨off, asked⟩ := fits.asks (.inl contest)
    refine heaterGranted_fits (k := s.claim loadHeater) calm.1 fits h.values.heaterDraws off (h.live (contesting_stands contesting)).1 ?_ ?_
    · exact congrArg Claim.st (claim_putClaim_self s loadHeater _)
    · exact (congrArg Claim.held (claim_putClaim_self s loadHeater _)).trans asked
  · next lost =>
    rw [if_neg lost]
    exact heaterLoses_fits fits h.values.heaterDraws raise contesting calm.1 rfl rfl (claim_putClaim_self s loadHeater _)

/-- The failure of the announcement of the heater's contest (R38, R111). -/
theorem heaterUnsent_leads (tag : Nat) : Leads p p s
    ((s.announceFailed loadHeater tag).1.report loadHeater (s.announceFailed loadHeater tag).2) := by
  refine Leads.intro fun o _ => ?_
  have calm := announceFailed_calm s loadHeater tag o
  have leads := fun p off => announceFailed_leads (p := p) s loadHeater off tag
  unfold State.announceFailed at *
  dsimp only at *
  split at calm
  · next given =>
    rw [if_pos given] at leads ⊢
    simp only [Bool.and_eq_true] at given
    have contesting := given.1.1
    refine Leads.intro fun _ h => Leads.acts (h.live (contesting_stands contesting)) (Leads.keeps .heater
      ((leads _ (Part.but_not _ _)).trans (reportHeater_off (Part.but_not _ _) ⟨nofun, .inl rfl⟩ _ _)) fun o h _ m => ?_)
    have raise : (s.claim loadHeater).raise = false := by
      rw [← Bool.not_eq_true]
      exact fun e => absurd ((h.serves loadHeater).raises e) (by decide)
    exact heaterLoses_fits (h.parts _ m) h.values.heaterDraws raise contesting calm.1 rfl rfl (claim_setClaim_self s loadHeater _)
  · next not =>
    rw [if_neg not]
    exact Leads.refl p s

/-- The heater's contest ended by the level (R40, R111). -/
theorem heaterEnded_leads (contest : (s.claim loadHeater).st = .contest) : Leads p (Part.with p (.calm loadHeater)) s
    ((s.contestYields loadHeater).1.report loadHeater (s.contestYields loadHeater).2) := by
  have contesting : (s.claim loadHeater).contesting = true := by simp [Claim.contesting, contest]
  intro o h
  have live := h.live (contesting_stands contesting)
  have calm := contestYields_calm s loadHeater o
  have ends := contestYields_leads (p := Part.but (Part.with p (.live loadHeater)) .heater) s loadHeater (Part.but_not _ _) contest
  obtain ⟨ok, order⟩ := ends o ⟨h.values, h.level, h.remembered, h.serves,
    fun x m => m.2.elim (fun e => e ▸ live) (h.parts x)⟩
  obtain ⟨ok, order⟩ := reportHeater_off (p := Part.with (Part.but (Part.with p (.live loadHeater)) .heater) (.calm loadHeater))
    (fun m => m.elim nofun (Part.but_not _ _)) (.inr ⟨nofun, .inl rfl⟩) _ (s.contestYields loadHeater).2 ok order
  refine ⟨ok, order.values, order.level, order.remembered, order.serves, fun x m => ?_⟩
  by_cases heater : x = .heater
  · subst heater
    have fits : s.heaterFits := h.parts _ (m.resolve_left nofun)
    have raise : (s.claim loadHeater).raise = false := by
      rw [← Bool.not_eq_true]
      exact fun e => absurd ((h.serves loadHeater).raises e) (by decide)
    exact heaterLoses_fits fits h.values.heaterDraws raise contesting calm.1 rfl rfl (claim_putClaim_self s loadHeater _)
  · exact order.parts x (m.imp id fun k => ⟨heater, .inr k⟩)

/-- A Held heater yields by completion, and purges (R50, R117). -/
theorem heaterYield_leads (held : (s.claim loadHeater).st = .held) :
    Leads p (Part.with p (.calm loadHeater)) s (s.complete loadHeater).heaterYields := by
  intro o h
  have calm := complete_calm s loadHeater o
  have claim := complete_claim s loadHeater
  have ends := complete_leads (p := Part.but p .heater) s loadHeater (Part.but_not _ _) held
    (fun five => absurd five (by decide)) List.mem_cons_self
  obtain ⟨ok, order⟩ := ends o (h.mono fun _ m => m.2)
  obtain ⟨ok', order'⟩ := heaterYields_off (p := Part.with (Part.but p .heater) (.calm loadHeater)) _
    (fun m => m.elim nofun (Part.but_not _ _)) ok order
  refine ⟨ok', order'.values, order'.level, order'.remembered, order'.serves, fun x m => ?_⟩
  by_cases heater : x = .heater
  · subst heater
    have fits : s.heaterFits := h.parts _ (m.resolve_left nofun)
    have climate : (s.complete loadHeater).climate = s.climate := (complete_shared _ _).climate
    have seq : (s.complete loadHeater).seq = s.seq := (complete_shared _ _).seq
    have stands : (s.complete loadHeater).heaterFits := by
      unfold State.heaterFits
      rw [climate, seq, claim]
      exact fits.holding held rfl rfl
    show (s.complete loadHeater).heaterYields.heaterFits
    generalize s.complete loadHeater = u at *
    have purged : u.enterPurging.heaterFits := by
      obtain ⟨st, -⟩ := enterPurging_held (s := u) (by rw [claim]; rfl) ok (by rw [seq]; exact h.values.heaterDraws.2.1)
      exact HeaterOrder.purge stands.zones stands.failures st (by rw [enterPurging_climate]; rfl)
    unfold State.heaterYields
    split
    · exact purged
    · exact purged
    · exact purged
    · exact stands
  · exact order'.parts x (m.imp id fun k => ⟨heater, k⟩)

/-! ### The pad (R119, R120) -/

/-- What the pad's operations change of the Climate Controller. -/
theorem setClimate_pad (s : State) (c : Climate) (off : ¬ p .pad) (same : c = { s.climate with pad := c.pad, padWanted := c.padWanted }) :
    Leads p p s (s.setClimate c) :=
  setClimate_leads s c (fun _ h => h.free (by rw [same])) (fun m => absurd m off) (fun _ => by rw [same]; exact ⟨rfl, rfl⟩)
    fun _ => .inr (by rw [same])

section
variable (s) (off : ¬ p .pad)
include off

theorem askPad_off (live : p (.live loadPad)) : Leads p p s (s.ask loadPad 2 (Item.padDraw s.seq.values) false).1 :=
  Leads.intro fun _ h => ask_leads s loadPad off (h.parts _ live) (h.values.draw 29 rfl (by decide)) List.mem_cons_self
    fun five => absurd five (by decide)

theorem padYields_off (live : p (.live loadPad)) : Leads p p s s.padYields :=
  ((setClimate_pad s { s.climate with pad := false } off rfl).trans (release_leads _ loadPad off)).trans
    (Leads.ite (fun _ => askPad_off _ off live) fun _ => Leads.refl p _)

theorem padFollows_off : Leads p p s s.padFollows := by
  unfold State.padFollows
  refine Leads.ite (fun on => ?_) fun _ => Leads.refl p s
  simp only [Bool.and_eq_true] at on
  refine Leads.acts (id := loadPad) ⟨on.2, on.1.1⟩ (Leads.intro fun o _ => ?_)
  rw [readSupply_checked o.checked, readAll_checked o.checked]
  have off' : ¬ Part.with p (.live loadPad) .pad := fun m => m.elim nofun off
  refine (setClimate_pad s { s.climate with padWanted := s.padWantedNow } off' rfl).trans (Leads.ite (fun _ => ?_) fun _ => ?_)
  · exact Leads.ite (fun _ => askPad_off _ off' (.inl rfl)) fun _ => Leads.refl _ _
  · exact (setClimate_pad _ _ off' rfl).trans (release_leads _ loadPad off')

end

/-- An ask for the pad is not Held at once. -/
theorem askPad_unheld {u : State} (o : u.Ok) {a : Nat} (some : 1 ≤ a) (away : (u.claim loadPad).st ≠ .held) (unforced : (u.claim loadPad).st ≠ .forced) :
    ((u.ask loadPad 2 a false).1.claim loadPad).st ≠ .held := by
  have draws : (u.claim loadPad).drawing = false := by
    unfold Claim.drawing
    cases e : (u.claim loadPad).st with
    | held => exact absurd e away
    | forced => exact absurd e unforced
    | _ => rfl
  cases passes : u.passes loadPad 2 (min a 30000) with
  | true =>
    rw [(ask_passes o a false some draws (by decide) passes).2]
    nofun
  | false =>
    rw [(ask_fails o a false some draws (by decide) passes rfl).2]
    nofun

theorem padFollows_leads (s : State) : Leads p p s s.padFollows :=
  Leads.keeps .pad (padFollows_off s (Part.but_not _ _)) fun o h _ m => by
    have pad : (s.claim loadPad).st = .held ↔ s.climate.pad = true := h.parts _ m
    show s.padFollows.padOrder
    unfold State.padFollows
    split
    · rw [readSupply_checked o.checked, readAll_checked o.checked]
      dsimp only
      generalize hu : s.setClimate { s.climate with padWanted := s.padWantedNow } = u
      have ok : u.Ok := hu ▸ (setClimate_calm s _ o).1
      have claim : u.claim loadPad = s.claim loadPad := by rw [← hu]; rfl
      have same : u.climate.pad = s.climate.pad := by rw [← hu]; rfl
      have seq : u.seq = s.seq := by rw [← hu]; rfl
      split
      · split
        · next idle =>
          have not : u.climate.pad = false := by
            rw [same, ← Bool.not_eq_true]
            intro on
            rw [claim, pad.mpr on] at idle
            cases idle
          have away := askPad_unheld ok (a := Item.padDraw u.seq.values) (by rw [seq]; exact h.values.draw 29 rfl (by decide))
            (by rw [idle]; nofun) (by rw [idle]; nofun)
          unfold State.padOrder
          rw [(ask_shared u loadPad 2 (Item.padDraw u.seq.values) false).climate, not]
          exact ⟨fun e => absurd e away, nofun⟩
        · unfold State.padOrder
          rw [claim, same]
          exact pad
      · have off : (u.setClimate { u.climate with pad := false }).Ok := (setClimate_calm u _ ok).1
        unfold State.padOrder
        rw [release_idle off, (release_shared _ loadPad).climate]
        exact ⟨nofun, nofun⟩
    · exact pad

/-- The claim of the pad after a contest lost, with the pad as it was. -/
theorem padLost_order {u : State} (pad : s.padOrder) (raise : (s.claim loadPad).raise = false)
    (contesting : (s.claim loadPad).contesting = true) (climate : u.climate = s.climate)
    (claim : u.claim loadPad = (s.claim loadPad).lose) : u.padOrder := by
  have contest : (s.claim loadPad).st = .contest := by simpa [Claim.contesting, raise] using contesting
  have none : s.climate.pad = false := by
    rw [← Bool.not_eq_true, ← show (s.claim loadPad).st = .held ↔ s.climate.pad = true from pad, contest]
    nofun
  unfold State.padOrder
  rw [climate, none, claim]
  refine ⟨fun e => ?_, nofun⟩
  unfold Claim.lose at e
  rw [if_neg (by rw [contest]; nofun)] at e
  split at e <;> cases e

theorem reportPad_lost (c : Claim) (u : State) : u.report loadPad c.lossReply = u := by
  unfold Claim.lossReply
  split <;> rfl

/-- The end of the window of the pad's contest (R39, R120). -/
theorem padWindow_leads (contesting : (s.claim loadPad).contesting = true) :
    Leads p p s ((s.windowEnd loadPad).1.report loadPad (s.windowEnd loadPad).2) := by
  refine Leads.keeps .pad ((windowEnd_leads s loadPad (Part.but_not _ _) contesting).trans ?_) fun o h _ m => ?_
  · cases (s.windowEnd loadPad).2 with
    | granted => exact setClimate_pad _ _ (Part.but_not _ _) rfl
    | _ => exact Leads.refl _ _
  · have pad : (s.claim loadPad).st = .held ↔ s.climate.pad = true := h.parts _ m
    have raise : (s.claim loadPad).raise = false := by
      rw [← Bool.not_eq_true]
      exact fun e => absurd ((h.serves loadPad).raises e) (by decide)
    show (State.report _ _ _).padOrder
    rw [windowEnd_eq o]
    split
    · exact ⟨fun _ => rfl, fun _ => congrArg Claim.st (claim_putClaim_self s loadPad _)⟩
    · dsimp only
      rw [reportPad_lost]
      exact padLost_order pad raise contesting rfl (claim_putClaim_self s loadPad _)

/-- The failure of the announcement of the pad's contest (R38). -/
theorem padUnsent_leads (tag : Nat) : Leads p p s
    ((s.announceFailed loadPad tag).1.report loadPad (s.announceFailed loadPad tag).2) := by
  have leads := announceFailed_leads (p := Part.but p .pad) s loadPad (Part.but_not _ _) tag
  unfold State.announceFailed at *
  dsimp only at *
  split at leads
  · next given =>
    rw [if_pos given]
    simp only [Bool.and_eq_true] at given
    dsimp only
    rw [reportPad_lost]
    refine Leads.keeps .pad leads fun o h _ m => ?_
    have raise : (s.claim loadPad).raise = false := by
      rw [← Bool.not_eq_true]
      exact fun e => absurd ((h.serves loadPad).raises e) (by decide)
    exact padLost_order (h.parts _ m) raise given.1.1 rfl (claim_setClaim_self s loadPad _)
  · next not =>
    rw [if_neg not]
    exact Leads.refl p s

/-- The pad's contest ended by the level (R40). -/
theorem padEnded_leads (contest : (s.claim loadPad).st = .contest) : Leads p (Part.with p (.calm loadPad)) s
    ((s.contestYields loadPad).1.report loadPad (s.contestYields loadPad).2) := by
  have contesting : (s.claim loadPad).contesting = true := by simp [Claim.contesting, contest]
  have told : (s.contestYields loadPad).1.report loadPad (s.contestYields loadPad).2 = (s.contestYields loadPad).1 :=
    reportPad_lost _ _
  rw [told]
  refine Leads.mends .pad ((contestYields_leads (p := Part.but p .pad) s loadPad (Part.but_not _ _) contest).mono
    (fun _ m => m.2) fun x m => m.2.imp id fun k => ⟨m.1, k⟩) fun o h _ _ m => ?_
  have raise : (s.claim loadPad).raise = false := by
    rw [← Bool.not_eq_true]
    exact fun e => absurd ((h.serves loadPad).raises e) (by decide)
  exact padLost_order (h.parts _ (m.resolve_left nofun)) raise contesting rfl (claim_putClaim_self s loadPad _)

/-- A Held pad yields by release (R50, R120). -/
theorem padYield_leads (held : (s.claim loadPad).st = .held) : Leads p (Part.with p (.calm loadPad)) s s.padYields := by
  intro o h
  have live := h.live (id := loadPad) (by rw [held]; nofun)
  have off := (setClimate_pad (p := Part.but (Part.with p (.live loadPad)) .pad) s { s.climate with pad := false } (Part.but_not _ _) rfl).trans
    (release_leads _ loadPad (Part.but_not _ _))
  obtain ⟨ok, order⟩ := off o ⟨h.values, h.level, h.remembered, h.serves, fun x m => m.2.elim (fun e => e ▸ live) (h.parts x)⟩
  have idle := release_idle ((setClimate_calm s { s.climate with pad := false } o).1) loadPad
  have none : ((s.setClimate { s.climate with pad := false }).release loadPad).climate.pad = false := by
    rw [(release_shared _ loadPad).climate]
    rfl
  have mended : Leads (Part.but (Part.with p (.live loadPad)) .pad) (Part.but (Part.with p (.calm loadPad)) .pad)
      ((s.setClimate { s.climate with pad := false }).release loadPad) s.padYields := by
    have calm : Leads (Part.but (Part.with p (.live loadPad)) .pad) (Part.with (Part.but (Part.with p (.live loadPad)) .pad) (.calm loadPad))
        ((s.setClimate { s.climate with pad := false }).release loadPad) ((s.setClimate { s.climate with pad := false }).release loadPad) :=
      fun o h => ⟨o, h.values, h.level, h.remembered, h.serves,
        fun x m => m.elim (fun e => e ▸ Claim.bears_idle idle) (h.parts x)⟩
    refine (calm.trans (r := Part.with (Part.but (Part.with p (.live loadPad)) .pad) (.calm loadPad)) ?_).mono (fun _ m => m)
      fun x m => m.2.imp id fun k => ⟨m.1, .inr k⟩
    exact Leads.ite (fun _ => askPad_off _ (fun m => m.elim nofun (Part.but_not _ _)) (.inr ⟨nofun, .inl rfl⟩)) fun _ => Leads.refl _ _
  refine Leads.mends (p := Part.but (Part.with p (.live loadPad)) .pad) .pad mended (fun o' h' _ _ _ => ?_) ok order
  show s.padYields.padOrder
  unfold State.padYields
  dsimp only
  generalize (s.setClimate { s.climate with pad := false }).release loadPad = u at *
  split
  · have away := askPad_unheld o' (a := Item.padDraw u.seq.values) (h'.values.draw 29 rfl (by decide))
      (by rw [idle]; nofun) (by rw [idle]; nofun)
    unfold State.padOrder
    rw [(ask_shared u loadPad 2 (Item.padDraw u.seq.values) false).climate, none]
    exact ⟨fun e => absurd e away, nofun⟩
  · unfold State.padOrder
    rw [idle, none]
    exact ⟨nofun, nofun⟩

end

end Sys2Proof.Machine
end

