-- ==== Sys2Proof/Proofs/WaterOrders.lean ====
section
/-! PROOFS. The Water Manager's operations, its own order aside (R81 to R98). -/

namespace Sys2Proof.Machine

/-! ### The Water Manager's operations, its own order aside (R81 to R98) -/

section
variable {p : Part → Prop} (s : State) (off : ¬ p .water)
include off

/-- A change of the Water Manager but for the frost-demand flag. -/
theorem setWater_off (w : Water) (same : w.demand = s.water.demand) : Leads p p s (s.setWater w) :=
  setWater_leads s w (fun m => absurd m off) fun _ => same

theorem pumpFollows_off : Leads p p s s.pumpFollows := setWater_off s off _ (by rfl)

theorem pumpReleased_off : Leads p p s s.pumpReleased :=
  (setWater_off s off { s.water with pump := false, runawayTimer := none } rfl).trans (release_leads _ loadPump off)

theorem demandFollows_off : Leads p p s s.demandFollows := by
  refine Leads.ite (fun on => ?_) fun _ => Leads.refl p s
  simp only [Bool.and_eq_true] at on
  refine Leads.trans (q := p) (Leads.ite (fun _ => Leads.refl p s) fun _ => Leads.ite (fun _ => Leads.ite (fun _ => ?_)
    fun _ => Leads.refl p s) fun _ => Leads.ite (fun _ => Leads.refl p s) fun _ => pumpReleased_off s off) (pumpFollows_off _ off)
  exact Leads.intro fun _ h => ask_leads s loadPump off (rank := 5) ⟨on.2, on.1⟩ (h.values.draw 25 rfl (by decide)) (by decide)
    fun five => absurd five (by decide)

theorem timing_off (ms : Nat) : Leads p p s (s.timing ms) := setWater_off s off _ (by rfl)

section
variable (cool : p .cool)
include cool

/-- Frost service follows the frost-demand flag (R93, R110). -/
theorem setDemand_off (d : Bool) : Leads p p s (s.setDemand d) :=
  Leads.ite (fun _ => Leads.refl p s) fun _ =>
    ((setWater_leads (p := Part.but p .frost) s { s.water with demand := d } (fun m => absurd m.2 off) fun m => absurd rfl m.1).mono
      (fun _ m => m.2) fun _ m => m).trans (frostService_leads _ cool)

theorem enterCirculating_off : Leads p p s s.enterCirculating :=
  ((setWater_off s off { s.water with cycle := .circulating, circTimer := some Config.circulationMs, dueTimer := none } rfl).trans
    (setDemand_off _ off cool true)).trans (pumpFollows_off _ off)

omit cool in
/-- A Re-rank whose weaker rank gives way at once is followed by a release, which mends the claim. -/
theorem disposeClaim_off : Leads p p s s.disposeClaim := by
  unfold State.disposeClaim
  refine Leads.ite (fun _ => ?_) fun _ => (pumpReleased_off s off).trans (demandFollows_off _ off)
  have moved := rerank_leads (rank := 5) s loadPump off (by decide) (by decide) fun _ => by decide
  generalize s.rerank loadPump 5 = r at *
  obtain ⟨u, reply⟩ := r
  dsimp only at moved ⊢
  split
  · next e =>
    obtain ⟨rfl, rfl⟩ := Prod.mk.inj e
    rw [if_pos rfl] at moved
    have freed : Leads (Part.but p (.calm loadPump)) p u u.pumpReleased :=
      (setWater_off u (fun m => off m.2) { u.water with pump := false, runawayTimer := none } rfl).trans (release_mends _ loadPump off)
    exact (moved.trans freed).trans (demandFollows_off _ off)
  · next other e =>
    obtain ⟨rfl, rfl⟩ := Prod.mk.inj e
    rw [if_neg fun yields => other yields] at moved
    exact moved.trans (demandFollows_off _ off)

theorem cycleCompleted_off : Leads p p s s.cycleCompleted :=
  ((setDemand_off s off cool false).trans ((setWater_off _ off _ (by rfl)).trans (timing_off _ off _))).trans (disposeClaim_off _ off)

theorem cyclePostponed_off : Leads p p s s.cyclePostponed :=
  ((setDemand_off s off cool false).trans ((setWater_off _ off _ (by rfl)).trans (timing_off _ off _))).trans (demandFollows_off _ off)

theorem cyclingEnds_off : Leads p p s s.cyclingEnds :=
  ((setDemand_off s off cool false).trans (setWater_off _ off _ (by rfl))).trans
    (Leads.ite (fun _ => disposeClaim_off _ off) fun _ => Leads.refl p _)

theorem drain_off : Leads p p s s.drain :=
  ((setDemand_off s off cool false).trans (setWater_off _ off _ (by rfl))).trans
    (Leads.ite (fun _ => (pumpReleased_off _ off).trans (demandFollows_off _ off)) fun _ => demandFollows_off _ off)

omit cool in
theorem valveTiming_off : Leads p p s s.valveTiming :=
  Leads.ite (fun _ => (setWater_off s off _ (by rfl)).trans (Leads.ite (fun _ => (setWater_off _ off _ (by rfl)).trans (monitor_leads _ _ _))
    fun _ => Leads.refl p _)) fun _ => setWater_off s off _ (by rfl)

theorem openDump_off : Leads p p s s.openDump :=
  ((setWater_off s off _ (by rfl)).trans (valveTiming_off _ off)).trans (drain_off _ off cool)

theorem valveFollows_off : Leads p p s s.valveFollows :=
  Leads.ite (fun _ => Leads.ite (fun _ => Leads.ite (fun _ => (timing_off s off _).trans (demandFollows_off _ off))
    fun _ => demandFollows_off s off) fun _ => Leads.ite (fun _ => demandFollows_off s off) fun _ => drain_off s off cool)
    fun _ => demandFollows_off s off

theorem takeDue_off (live : p (.live loadPump)) : Leads p p s s.takeDue := by
  unfold State.takeDue
  dsimp only
  refine Leads.ite (fun _ => timing_off s off _) fun _ => Leads.ite (fun _ => Leads.ite (fun held => ?_) fun _ => ?_) fun _ => ?_
  · refine Leads.trans (q := p) ?_ (enterCirculating_off _ off cool)
    refine Leads.intro fun _ h => ?_
    have moved := rerank_leads (rank := 1) s loadPump off (by decide) (by decide) fun _ => by decide
    rwa [if_neg] at moved
    rw [rerank_held 1 held]
    split
    · nofun
    · have ranks := ((h.serves loadPump).asks (by rw [held]; nofun)).2.1
      have weak : ¬ (s.claim loadPump).rank < 1 := by
        have two : (s.claim loadPump).rank ∈ [1, 5] := ranks
        simp only [List.mem_cons, List.not_mem_nil, or_false] at two
        omega
      rw [if_neg fun k => weak k.1]
      nofun
  · have asks := (setWater_off s off { s.water with cycle := .asking, dueTimer := none, dueOnRun := false } rfl).trans
      (Leads.intro fun _ h => ask_leads (single := true) _ loadPump off (rank := 1) (h.parts _ live) (h.values.draw 25 rfl (by decide)) (by decide)
        fun five => absurd five (by decide))
    have same : (s.setWater { s.water with cycle := .asking, dueTimer := none, dueOnRun := false }).seq = s.seq := rfl
    generalize s.setWater { s.water with cycle := .asking, dueTimer := none, dueOnRun := false } = w at *
    rw [same] at asks
    change Leads p p s (w.ask loadPump 1 (Item.pumpDraw s.seq.values) true).1 at asks
    generalize w.ask loadPump 1 (Item.pumpDraw s.seq.values) true = r at *
    obtain ⟨u, reply⟩ := r
    split
    · next e =>
      obtain ⟨rfl, rfl⟩ := Prod.mk.inj e
      exact asks.trans (cyclePostponed_off _ off cool)
    · next e =>
      obtain ⟨rfl, rfl⟩ := Prod.mk.inj e
      exact asks
  · have forced : Leads p p s (s.force loadPump (Item.pumpDraw s.seq.values)).1 :=
      Leads.intro fun _ h => force_leads s loadPump off rfl (h.parts _ live) (h.values.draw 25 rfl (by decide))
    generalize s.force loadPump (Item.pumpDraw s.seq.values) = r at *
    obtain ⟨u, reply⟩ := r
    split
    · next e =>
      obtain ⟨rfl, rfl⟩ := Prod.mk.inj e
      exact forced.trans (enterCirculating_off _ off cool)
    · next e =>
      obtain ⟨rfl, rfl⟩ := Prod.mk.inj e
      exact forced.trans (openDump_off _ off cool)

theorem pumpGranted_off : Leads p p s s.pumpGranted :=
  Leads.ite (fun _ => enterCirculating_off s off cool) fun _ => pumpFollows_off s off

theorem pumpLost_off : Leads p p s s.pumpLost := Leads.ite (fun _ => cyclePostponed_off s off cool) fun _ => Leads.refl p s

theorem pumpYields_off : Leads p p s s.pumpYields :=
  (pumpReleased_off s off).trans (Leads.ite (fun _ => cyclePostponed_off _ off cool) fun _ => demandFollows_off _ off)

theorem reportPump_off (r : Reply) : Leads p p s (s.report loadPump r) := by
  cases r with
  | granted => exact pumpGranted_off s off cool
  | lost => exact pumpLost_off s off cool
  | _ => exact Leads.refl p s

theorem cyclingBegins_off (fitted : p (.station fun q => q.fns.water = true)) : Leads p p s s.cyclingBegins := by
  unfold State.cyclingBegins
  refine Leads.ite (fun _ => drain_off s off cool) fun _ => Leads.ite (fun run => ?_) fun _ => setWater_off s off _ (by rfl)
  refine Leads.intro fun _ h => ?_
  have live : s.live loadPump := ⟨run, h.parts _ fitted⟩
  exact Leads.acts live ((timing_off s (fun m => m.elim nofun off) 0).trans
    (takeDue_off _ (fun m => m.elim nofun off) (.inr cool) (.inl rfl)))

omit cool in
theorem readTank_off (t : Fin 3) (raw : Nat) (temp : Int) : Leads p p s (s.readTank t raw temp) := setWater_off s off _ (by rfl)

omit cool in
theorem tankMonitor_off (t : Fin 3) : Leads p p s (s.tankMonitor t) :=
  (setWater_off s off _ (by rfl)).trans (Leads.ite (fun _ => monitor_leads _ _ _) fun _ => Leads.refl p _)

theorem guardReads_off (fitted : p (.station fun q => q.fns.water = true)) : Leads p p s s.guardReads :=
  Leads.ite (fun _ => (setWater_off s off _ (by rfl)).trans (Leads.ite (fun _ => (monitor_leads _ _ _).trans (cyclingEnds_off _ off cool))
    fun _ => Leads.refl p _)) fun _ => (setWater_off s off _ (by rfl)).trans
      (Leads.ite (fun _ => (monitor_leads _ _ _).trans (cyclingBegins_off _ off cool fitted)) fun _ => Leads.refl p _)

theorem dumpReads_off : Leads p p s s.dumpReads :=
  Leads.ite (fun _ => (readAll_leads s _).trans ((setWater_off _ off _ (by rfl)).trans
    (Leads.ite (fun _ => openDump_off _ off cool) fun _ => Leads.refl p _))) fun _ => Leads.refl p s

theorem pumpReads_off : Leads p p s s.pumpReads := by
  unfold State.pumpReads
  refine Leads.ite (fun _ => demandFollows_off s off) fun _ => ?_
  split
  · exact ((release_leads s loadPump off).trans (timing_off _ off _)).trans (demandFollows_off _ off)
  · exact (setWater_off s off _ (by rfl)).trans (cycleCompleted_off _ off cool)
  · exact demandFollows_off s off

end

end

end Sys2Proof.Machine
end

