-- ==== Sys2Proof/Proofs/WaterParts.lean ====
section
/-! PROOFS. The order of the Water Manager by its parts. -/

namespace Sys2Proof.Machine

/-! ### The order of the Water Manager by its parts -/

/-- The frost guard, its cycle and what is owed (R90 to R96). -/
structure State.WaterCore (s : State) : Prop where
  owed : s.water.owed ≤ 4
  clear : s.water.guard = false ↔ s.water.cycle = .off
  guarded : s.water.guard = true → s.seq.fns.water = true ∧ s.inReset = false
  nothing : s.water.cycle = .off ∨ s.water.cycle = .drained → s.water.owed = 0
  drained : s.water.cycle = .drained → s.valveClosed = false
  demand : s.water.demand = true ↔ s.water.cycle = .circulating
  timed : s.water.circTimer.isSome = true ↔ s.water.cycle = .circulating

/-- A cycle and the claim it holds (R92, R93, R96). -/
structure Cycle.Serves (y : Cycle) (c : Claim) : Prop where
  draws : y = .circulating → c.drawing = true
  forced : c.st = .forced → y = .circulating
  tries : y = .asking → c.st = .contest ∧ c.single = true
  first : c.st ≠ .idle → (c.rank = 1 ↔ y = .asking ∨ y = .circulating)

/-- PUMP and the runaway count by their conditions (R87, R88). -/
structure State.PumpSafe (s : State) : Prop where
  pump : s.water.pump = true → (s.claim loadPump).drawing = true ∧ s.freshOk = true ∧ s.valveClosed = true
    ∧ s.inRun = true ∧ s.seq.fns.water = true
  runaway : s.water.runawayTimer.isSome = true → s.water.pump = true ∧ s.water.cycle ≠ .circulating

/-- What stands while PUMP is still to follow: the rest, and that PUMP is off where the Water Manager does not act. -/
structure State.WaterLoose (s : State) : Prop where
  core : s.WaterCore
  serves : s.water.cycle.Serves (s.claim loadPump)
  rests : ¬ s.live loadPump → s.water.pump = false ∧ s.water.runawayTimer = none

theorem State.PumpSafe.rests {s : State} (h : s.PumpSafe) (away : ¬ s.live loadPump) :
    s.water.pump = false ∧ s.water.runawayTimer = none := by
  have off : s.water.pump = false := by
    rw [← Bool.not_eq_true]
    intro on
    obtain ⟨-, -, -, run, fitted⟩ := h.pump on
    exact away ⟨run, fitted⟩
  refine ⟨off, ?_⟩
  cases e : s.water.runawayTimer with
  | none => rfl
  | some _ => exact absurd (h.runaway (by rw [e]; rfl)).1 (by simp [off])

theorem State.WaterOrder.safe {s : State} (h : s.WaterOrder) : s.PumpSafe := ⟨h.pump, h.runaway⟩

theorem State.WaterOrder.loose {s : State} (h : s.WaterOrder) : s.WaterLoose :=
  ⟨⟨h.owed, h.clear, h.guarded, h.nothing, h.drained, h.demand, h.timed⟩, ⟨h.draws, h.forced, h.tries, h.first⟩, h.safe.rests⟩

theorem State.WaterLoose.order {s : State} (h : s.WaterLoose) (safe : s.PumpSafe) : s.WaterOrder :=
  ⟨safe.pump, safe.runaway, h.core.owed, h.core.clear, h.core.guarded, h.core.nothing, h.core.drained, h.core.demand, h.core.timed,
    h.serves.draws, h.serves.forced, h.serves.tries, h.serves.first⟩

/-- Where the Water Manager does not act PUMP is off, and so safe. -/
theorem State.WaterLoose.away {s : State} (h : s.WaterLoose) (away : ¬ s.live loadPump) : s.WaterOrder := by
  obtain ⟨off, none⟩ := h.rests away
  exact h.order ⟨fun e => absurd (off.symm.trans e) nofun, fun e => by rw [none] at e; cases e⟩

/-- A claim that no cycle holds. -/
def Claim.free (c : Claim) : Prop := c.st ≠ .forced ∧ (c.st ≠ .idle → c.rank ≠ 1)

theorem Claim.free_idle {c : Claim} (h : c.st = .idle) : c.free := ⟨by rw [h]; nofun, fun e => absurd h e⟩

theorem Claim.free_stirs {c d : Claim} (h : c.free) (k : c.stirs d) : d.free := by
  rcases k with rfl | ⟨waits, rfl | ⟨n, rfl⟩⟩
  · exact h
  · exact ⟨nofun, fun _ => h.2 (by rw [waits]; nofun)⟩
  · exact ⟨nofun, fun _ => h.2 (by rw [waits]; nofun)⟩

theorem Cycle.Serves.free {y : Cycle} {c : Claim} (h : y.Serves c) (not : y.holdsClaim = false) : c.free := by
  refine ⟨fun f => ?_, fun st one => ?_⟩
  · rw [h.forced f] at not
    cases not
  · rcases (h.first st).mp one with e | e <;> rw [e] at not <;> cases not

/-- Whatever cycle does not hold the claim serves a free one. -/
theorem Claim.free.serves {y : Cycle} {c : Claim} (h : c.free) (not : y.holdsClaim = false) : y.Serves c := by
  refine ⟨fun e => ?_, fun e => absurd e h.1, fun e => ?_, fun st => ⟨fun e => absurd e (h.2 st), fun e => ?_⟩⟩
  · rw [e] at not; cases not
  · rw [e] at not; cases not
  · rcases e with e | e <;> rw [e] at not <;> cases not

theorem Cycle.Serves.stirs {y : Cycle} {c d : Claim} (h : y.Serves c) (k : c.stirs d) : y.Serves d := by
  by_cases holds : y.holdsClaim = true
  · rcases k with rfl | ⟨waits, -⟩
    · exact h
    · unfold Cycle.holdsClaim at holds
      split at holds
      · have := (h.tries rfl).1
        rw [waits] at this
        cases this
      · have := h.draws rfl
        simp [Claim.drawing, waits] at this
      · cases holds
  · have not : y.holdsClaim = false := by simpa using holds
    exact (Claim.free_stirs (h.free not) k).serves not

/-- What the core rests on. -/
theorem State.WaterCore.congr {s t : State} (h : s.WaterCore) (owed : t.water.owed = s.water.owed)
    (guard : t.water.guard = s.water.guard) (cycle : t.water.cycle = s.water.cycle) (demand : t.water.demand = s.water.demand)
    (timer : t.water.circTimer.isSome = s.water.circTimer.isSome) (closed : t.valveClosed = s.valveClosed) (seq : t.seq = s.seq) :
    t.WaterCore := by
  refine ⟨?_, ?_, ?_, ?_, ?_, ?_, ?_⟩
  · rw [owed]; exact h.owed
  · rw [guard, cycle]; exact h.clear
  · rw [guard, State.inReset, seq]; exact h.guarded
  · rw [owed, cycle]; exact h.nothing
  · rw [cycle, closed]; exact h.drained
  · rw [demand, cycle]; exact h.demand
  · rw [timer, cycle]; exact h.timed

/-! ### PUMP follows, and the demand path (R86 to R88) -/

section
variable {s : State}

theorem pumped_safe (live : s.live loadPump) {t : State} (c : Claim) (water : t.water = s.pumped c) (pins : t.pins = s.pins)
    (seq : t.seq = s.seq) (claim : t.claim loadPump = c) : t.PumpSafe := by
  have fresh : t.freshOk = s.freshOk := freshOk_congr (by rw [water]; rfl)
  have closed : t.valveClosed = s.valveClosed := valveClosed_congr pins (by rw [water]; rfl)
  refine ⟨fun on => ?_, fun runs => ?_⟩
  · rw [water] at on
    have on : s.pumpOn c = true := on
    unfold State.pumpOn at on
    simp only [Bool.and_eq_true] at on
    rw [claim, fresh, closed, State.inRun, seq]
    exact ⟨on.1.1.1, on.1.1.2, on.1.2, live.1, live.2⟩
  · rw [water] at runs ⊢
    have runs : (if (s.pumpOn c && s.water.cycle != .circulating) = true then _ else _ : Timer).isSome = true := runs
    split at runs
    · next on =>
      simp only [Bool.and_eq_true, bne_iff_ne, ne_eq] at on
      exact on
    · cases runs

theorem pumpFollows_safe (live : s.live loadPump) : s.pumpFollows.PumpSafe :=
  pumped_safe live (s.claim loadPump) (by rw [pumpFollows_eq]; rfl) rfl rfl rfl

/-- PUMP follows the claim of a cycle that serves. -/
theorem pumpFollows_order (live : s.live loadPump) (core : s.WaterCore) (serves : s.water.cycle.Serves (s.claim loadPump)) :
    s.pumpFollows.WaterOrder :=
  State.WaterLoose.order ⟨core.congr rfl rfl rfl rfl rfl rfl rfl, serves, fun away => absurd live away⟩ (pumpFollows_safe live)

section
variable (o : s.Ok) (values : Values.fit s.seq.values)
include o values

/-- The demand path leaves a claim that no cycle holds free. -/
theorem demandFollows_free (live : s.live loadPump) (not : s.water.cycle.holdsClaim = false) (free : (s.claim loadPump).free) :
    (s.demandFollows.claim loadPump).free := by
  obtain ⟨run, fitted⟩ := live
  have item := values.1 25
  unfold inRange at item
  rw [if_neg (by decide), if_neg (by decide), if_neg (by decide)] at item
  have draw : 1 ≤ Item.pumpDraw s.seq.values ∧ Item.pumpDraw s.seq.values ≤ 30000 := ⟨item.1, item.2.1⟩
  cases wants : s.demandWants with
  | false => exact Claim.free_idle (demandFollows_unwanted fitted run not o wants)
  | true =>
    by_cases idle : (s.claim loadPump).st = .idle
    · rw [demandFollows_asks fitted run not o draw wants idle]
      split
      · exact ⟨nofun, fun _ => by show (5 : Nat) ≠ 1; decide⟩
      · exact ⟨nofun, fun _ => by show (5 : Nat) ≠ 1; decide⟩
    · rw [demandFollows_has fitted run not wants idle]
      exact free

/-- The demand path puts the Water Manager in order, whatever PUMP was. -/
theorem demandFollows_order (loose : s.WaterLoose) : s.demandFollows.WaterOrder := by
  by_cases live : s.live loadPump
  · have calm := demandFollows_calm s o
    have seq := calm.2.1.seq
    have pins := calm.2.1.pins
    have water := demandFollows_water live.2 live.1 o
    have safe := pumped_safe live (t := s.demandFollows) _ water pins seq rfl
    refine State.WaterLoose.order ⟨?_, ?_, fun away => absurd ((live_congr seq _).mpr live) away⟩ safe
    · exact loose.core.congr (by rw [water]; rfl) (by rw [water]; rfl) (by rw [water]; rfl) (by rw [water]; rfl)
        (by rw [water]; rfl) (valveClosed_congr pins (by rw [water]; rfl)) seq
    · have cycle : s.demandFollows.water.cycle = s.water.cycle := by rw [water]; rfl
      rw [cycle]
      cases holds : s.water.cycle.holdsClaim with
      | true =>
        rw [demandFollows_cycling live.2 live.1 holds]
        exact loose.serves
      | false => exact (demandFollows_free o values live holds (loose.serves.free holds)).serves holds
  · rw [demandFollows_rests (by
      by_contra both
      simp only [not_or, Bool.not_eq_false] at both
      exact live ⟨both.2, both.1⟩)]
    exact loose.away live

end

theorem pumpReleased_loose (o : s.Ok) (core : s.WaterCore) (not : s.water.cycle.holdsClaim = false) : s.pumpReleased.WaterLoose := by
  have water := pumpReleased_water s
  refine ⟨core.congr (by rw [water]) (by rw [water]) (by rw [water]) (by rw [water]) (by rw [water])
    (valveClosed_congr (pumpReleased_pins s) (by rw [water])) (pumpReleased_seq s), ?_, fun _ => by rw [water]; exact ⟨rfl, rfl⟩⟩
  rw [water]
  exact (Claim.free_idle (pumpReleased_claim o)).serves not

end

/-! ### Cycles (R91 to R96) -/

/-- What a change of the frost-demand flag leaves (R93). -/
structure Flagged (s : State) (d : Bool) (t : State) : Prop where
  ok : t.Ok
  water : t.water = { s.water with demand := d }
  pins : t.pins = s.pins
  seq : t.seq = s.seq
  stirs : (s.claim loadPump).stirs (t.claim loadPump)

theorem setDemand_flagged {s : State} (o : s.Ok) (d : Bool) : Flagged s d (s.setDemand d) := by
  have calm := setDemand_calm s d o
  exact ⟨calm.1, setDemand_water s d, calm.2.1.pins, calm.2.1.seq,
    (setDemand_tended o (waitWithin_exists s).choose_spec d).claims loadPump (by nofun)⟩

/-- A cycle that holds no claim any longer: its claim is free, what is owed and the guard agree with it. -/
theorem setWater_loose {s : State} {w : Water} (free : (s.claim loadPump).free) (not : w.cycle.holdsClaim = false)
    (owed : w.owed ≤ 4) (clear : w.guard = false ↔ w.cycle = .off) (guarded : w.guard = true → s.seq.fns.water = true ∧ s.inReset = false)
    (nothing : w.cycle = .off ∨ w.cycle = .drained → w.owed = 0) (drained : w.cycle = .drained → (s.setWater w).valveClosed = false)
    (demand : w.demand = false) (timer : w.circTimer = none)
    (rests : ¬ s.live loadPump → w.pump = false ∧ w.runawayTimer = none) : (s.setWater w).WaterLoose := by
  have still : w.cycle ≠ .circulating := fun e => by rw [e] at not; cases not
  refine ⟨⟨owed, clear, guarded, nothing, drained, ⟨fun e => absurd (demand.symm.trans e) nofun, fun e => absurd e still⟩,
    ⟨fun e => ?_, fun e => absurd e still⟩⟩, free.serves not, rests⟩
  have e : w.circTimer.isSome = true := e
  rw [timer] at e
  cases e

section
variable {s : State} (o : s.Ok) (values : Values.fit s.seq.values)
include o values

/-- A cycle is postponed (R94). -/
theorem cyclePostponed_order (core : s.WaterCore) (free : (s.claim loadPump).free) (on : s.water.cycle ≠ .off)
    (rests : ¬ s.live loadPump → s.water.pump = false ∧ s.water.runawayTimer = none) : s.cyclePostponed.WaterOrder := by
  obtain ⟨ok, water, pins, seq, stirs⟩ := setDemand_flagged o false
  unfold State.cyclePostponed
  dsimp only
  generalize s.setDemand false = u at *
  have eq : (u.setWater { u.water with owed := min 4 (u.water.owed + 1) }).timing (Item.frostIntervalMs u.seq.values)
      = u.setWater { u.water with
          owed := min 4 (u.water.owed + 1), cycle := .timing, dueTimer := some (Item.frostIntervalMs u.seq.values)
          dueOnRun := false, circTimer := none } := rfl
  rw [eq]
  have guard : u.water.guard = true := by
    rw [water]
    show s.water.guard = true
    rw [← Bool.not_eq_false]
    exact fun e => on (core.clear.mp e)
  refine demandFollows_order (setWater_calm u _ ok).1 (by show Values.fit u.seq.values; rw [seq]; exact values)
    (setWater_loose (Claim.free_stirs free stirs) rfl (min_le_left _ _) ?_ ?_ ?_ nofun (by rw [water]) rfl ?_)
  · exact ⟨fun e => absurd (guard.symm.trans e) nofun, nofun⟩
  · rw [State.inReset, seq, water]
    exact core.guarded
  · rintro (e | e) <;> cases e
  · intro away
    rw [water]
    exact rests fun live => away ((live_congr seq _).mpr live)

/-- The claim passes back to the demand path, or is released (R96). -/
theorem disposeClaim_order (core : s.WaterCore) (not : s.water.cycle.holdsClaim = false)
    (rests : ¬ s.live loadPump → s.water.pump = false ∧ s.water.runawayTimer = none) : s.disposeClaim.WaterOrder := by
  have released : ∀ u : State, u.Ok → Values.fit u.seq.values → u.WaterCore → u.water.cycle.holdsClaim = false →
      u.pumpReleased.demandFollows.WaterOrder := fun u o values core not =>
    demandFollows_order (pumpReleased_calm u o).1 (by rw [pumpReleased_seq]; exact values) (pumpReleased_loose o core not)
  unfold State.disposeClaim
  split
  · next passes =>
    obtain ⟨-, held, -⟩ := passes
    have claim := rerank_held_claim 5 held
    obtain ⟨ok, asked⟩ := rerank_asks s loadPump 5 (by decide) o
    have core' : (s.rerank loadPump 5).1.WaterCore := core.congr (by rw [asked.water]) (by rw [asked.water]) (by rw [asked.water])
      (by rw [asked.water]) (by rw [asked.water]) (valveClosed_congr asked.pins (by rw [asked.water])) asked.seq
    generalize s.rerank loadPump 5 = r at *
    obtain ⟨u, reply⟩ := r
    have valuesu : Values.fit u.seq.values := by rw [show u.seq = s.seq from asked.seq]; exact values
    have notu : u.water.cycle.holdsClaim = false := by rw [show u.water = s.water from asked.water]; exact not
    split
    · next e =>
      obtain ⟨rfl, -⟩ := Prod.mk.inj e
      exact released u ok valuesu core' notu
    · next e =>
      obtain ⟨rfl, -⟩ := Prod.mk.inj e
      refine demandFollows_order ok valuesu ⟨core', Claim.free.serves ⟨?_, fun _ => ?_⟩ notu, fun away => ?_⟩
      · rw [show u.claim loadPump = _ from claim]
        exact fun f => absurd (held.symm.trans f) nofun
      · rw [show u.claim loadPump = _ from claim]
        show (5 : Nat) ≠ 1
        decide
      · rw [show u.water = s.water from asked.water]
        exact rests fun live => away ((live_congr asked.seq _).mpr live)
  · exact released s o values core not

/-- A cycle is completed (R93). -/
theorem cycleCompleted_order (core : s.WaterCore) (on : s.water.cycle ≠ .off) (owing : s.water.cycle ≠ .drained)
    (rests : ¬ s.live loadPump → s.water.pump = false ∧ s.water.runawayTimer = none) : s.cycleCompleted.WaterOrder := by
  obtain ⟨ok, water, pins, seq, -⟩ := setDemand_flagged o false
  unfold State.cycleCompleted
  dsimp only
  generalize s.setDemand false = u at *
  generalize (if 0 < u.water.owed - 1 then Config.catchUpMs else Item.frostIntervalMs u.seq.values) = ms
  generalize ht : (u.setWater { u.water with owed := u.water.owed - 1 }).timing ms = t
  have watert : t.water = { u.water with
      owed := u.water.owed - 1, cycle := .timing, dueTimer := some ms, dueOnRun := false, circTimer := none } := by rw [← ht]; rfl
  have okt : t.Ok := ht ▸ (setWater_calm _ _ ((setWater_calm u _ ok).1)).1
  have seqt : t.seq = s.seq := by rw [← ht]; exact seq
  have guard : t.water.guard = true := by
    rw [watert, water, ← Bool.not_eq_false]
    exact fun e => on (core.clear.mp e)
  have low := core.owed
  refine disposeClaim_order okt (by rw [seqt]; exact values) ⟨?_, ?_, ?_, ?_, ?_, ?_, ?_⟩ (by rw [watert]; rfl) fun away => ?_
  · rw [watert, water]
    show s.water.owed - 1 ≤ 4
    omega
  · rw [guard, watert]
    exact ⟨nofun, nofun⟩
  · rw [State.inReset, seqt, watert, water]
    exact core.guarded
  · rw [watert]
    rintro (e | e) <;> cases e
  · rw [watert]
    nofun
  · rw [watert, water]
    exact ⟨nofun, nofun⟩
  · rw [watert]
    exact ⟨nofun, nofun⟩
  · rw [watert, water]
    exact rests fun live => away ((live_congr seqt _).mpr live)

/-- The frost guard has cleared, and its cycle ends (R91): PUMP may still have to follow. -/
theorem cyclingEnds_loose (guard : s.water.guard = false) (serves : s.water.cycle.Serves (s.claim loadPump))
    (rests : ¬ s.live loadPump → s.water.pump = false ∧ s.water.runawayTimer = none) : s.cyclingEnds.WaterLoose := by
  obtain ⟨ok, water, pins, seq, stirs⟩ := setDemand_flagged o false
  unfold State.cyclingEnds
  dsimp only
  generalize s.setDemand false = u at *
  have restsu : ¬ u.live loadPump → u.water.pump = false ∧ u.water.runawayTimer = none := fun away => by
    rw [water]
    exact rests fun live => away ((live_congr seq _).mpr live)
  have core : (u.setWater { u.water with
      cycle := .off, owed := 0, dueTimer := none, dueOnRun := false, circTimer := none }).WaterCore := by
    refine ⟨Nat.zero_le _, ⟨fun _ => rfl, fun _ => ?_⟩, fun e => ?_, fun _ => rfl, nofun, ⟨fun e => ?_, nofun⟩, ⟨nofun, nofun⟩⟩
    · show u.water.guard = false
      rw [water]
      exact guard
    · have e : u.water.guard = true := e
      rw [water] at e
      exact absurd (guard.symm.trans e) nofun
    · have e : u.water.demand = true := e
      rw [water] at e
      cases e
  split
  · exact (disposeClaim_order (setWater_calm u _ ok).1 (by show Values.fit u.seq.values; rw [seq]; exact values) core rfl restsu).loose
  · next not =>
    exact ⟨core, (Claim.free_stirs (serves.free (by simpa using not)) stirs).serves rfl, restsu⟩

/-- The valve is not closed while the guard is declared: Drained (R95, R98). -/
theorem drain_order (guard : s.water.guard = true) (guarded : s.seq.fns.water = true ∧ s.inReset = false)
    (serves : s.water.cycle.Serves (s.claim loadPump)) (closed : s.valveClosed = false)
    (rests : ¬ s.live loadPump → s.water.pump = false ∧ s.water.runawayTimer = none) : s.drain.WaterOrder := by
  obtain ⟨ok, water, pins, seq, stirs⟩ := setDemand_flagged o false
  unfold State.drain
  dsimp only
  generalize s.setDemand false = u at *
  generalize ht : u.setWater { u.water with
      cycle := .drained, owed := 0, dueTimer := none, dueOnRun := false, circTimer := none } = t
  have watert : t.water = { s.water with
      demand := false, cycle := .drained, owed := 0, dueTimer := none, dueOnRun := false, circTimer := none } := by
    rw [← ht, show u.setWater _ = _ from rfl, water]
    rfl
  have okt : t.Ok := ht ▸ (setWater_calm u _ ok).1
  have seqt : t.seq = s.seq := by rw [← ht]; exact seq
  have pinst : t.pins = s.pins := by rw [← ht]; exact pins
  have claimt : t.claim loadPump = u.claim loadPump := by rw [← ht]; rfl
  have closedt : t.valveClosed = false := (valveClosed_congr pinst (by rw [watert])).trans closed
  have core : t.WaterCore := by
    refine ⟨?_, ?_, ?_, fun _ => ?_, fun _ => closedt, ?_, ?_⟩
    · rw [watert]; exact Nat.zero_le _
    · rw [watert]; exact ⟨fun e => absurd (guard.symm.trans e) nofun, nofun⟩
    · rw [watert, State.inReset, seqt]; exact fun _ => guarded
    · rw [watert]
    · rw [watert]; exact ⟨nofun, nofun⟩
    · rw [watert]; exact ⟨nofun, nofun⟩
  have restst : ¬ t.live loadPump → t.water.pump = false ∧ t.water.runawayTimer = none := fun away => by
    rw [watert]
    exact rests fun live => away ((live_congr seqt _).mpr live)
  split
  · exact demandFollows_order (pumpReleased_calm t okt).1 (by rw [pumpReleased_seq, seqt]; exact values)
      (pumpReleased_loose okt core (by rw [watert]; rfl))
  · next not =>
    refine demandFollows_order okt (by rw [seqt]; exact values) ⟨core, ?_, restst⟩
    rw [claimt]
    exact (Claim.free_stirs (serves.free (by simpa using not)) stirs).serves (by rw [watert]; rfl)

/-- The dump valve opens while the guard is declared (R98). -/
theorem openDump_order (guard : s.water.guard = true) (guarded : s.seq.fns.water = true ∧ s.inReset = false)
    (serves : s.water.cycle.Serves (s.claim loadPump))
    (rests : ¬ s.live loadPump → s.water.pump = false ∧ s.water.runawayTimer = none) : s.openDump.WaterOrder := by
  unfold State.openDump
  generalize hu : s.setWater { s.water with dumpCmdOpen := true, dumpDrive := .toOpen, dumpCount := 0 } = u
  have calm := ((setWater_calm s { s.water with dumpCmdOpen := true, dumpDrive := .toOpen, dumpCount := 0 }).trans (valveTiming_calm _)) o
  rw [hu] at calm
  have wateru : u.water = { s.water with dumpCmdOpen := true, dumpDrive := .toOpen, dumpCount := 0 } := by rw [← hu]; rfl
  have water : u.valveTiming.water = { u.water with
      valveTimer := u.valveTiming.water.valveTimer, valveFault := u.valveTiming.water.valveFault } := by
    rw [valveTiming_water]
    split <;> rfl
  have claim : u.valveTiming.claim loadPump = s.claim loadPump := by rw [valveTiming_claim, ← hu]; rfl
  refine drain_order calm.1 (by rw [calm.2.1.seq]; exact values) ?_ ?_ ?_ ?_ fun away => ?_
  · rw [water, wateru]; exact guard
  · rw [State.inReset, calm.2.1.seq]; exact guarded
  · rw [water, wateru, claim]; exact serves
  · unfold State.valveClosed
    rw [water, wateru]
    rfl
  · rw [water, wateru]
    exact rests fun live => away ((live_congr calm.2.1.seq _).mpr live)

/-- A cycle circulates on a claim that draws at rank 1 (R92, R93, R96). -/
theorem enterCirculating_order (core : s.WaterCore) (on : s.water.cycle ≠ .off) (live : s.live loadPump)
    (draws : (s.claim loadPump).drawing = true) (rank : (s.claim loadPump).rank = 1) : s.enterCirculating.WaterOrder := by
  unfold State.enterCirculating
  generalize hw : s.setWater { s.water with cycle := .circulating, circTimer := some Config.circulationMs, dueTimer := none } = w
  have okw : w.Ok := hw ▸ (setWater_calm s _ o).1
  obtain ⟨ok, water, pins, seq, stirs⟩ := setDemand_flagged okw true
  have waterw : w.water = { s.water with cycle := .circulating, circTimer := some 120000, dueTimer := none } := by rw [← hw]; rfl
  have claimw : w.claim loadPump = s.claim loadPump := by rw [← hw]; rfl
  have seqw : w.seq = s.seq := by rw [← hw]; rfl
  have claim : (w.setDemand true).claim loadPump = s.claim loadPump := by
    rcases stirs with e | ⟨waits, -⟩
    · exact e.trans claimw
    · rw [claimw] at waits
      simp [Claim.drawing, waits] at draws
  generalize w.setDemand true = u at *
  have guard : u.water.guard = true := by
    rw [water, waterw, ← Bool.not_eq_false]
    exact fun e => on (core.clear.mp e)
  refine pumpFollows_order ((live_congr (seq.trans seqw) _).mpr live) ⟨?_, ?_, ?_, ?_, ?_, ?_, ?_⟩ ⟨?_, ?_, ?_, ?_⟩
  · rw [water, waterw]; exact core.owed
  · rw [guard, water, waterw]; exact ⟨nofun, nofun⟩
  · rw [State.inReset, seq, seqw, water, waterw]; exact core.guarded
  · rw [water, waterw]; rintro (e | e) <;> cases e
  · rw [water, waterw]; nofun
  · rw [water, waterw]; exact ⟨fun _ => rfl, fun _ => rfl⟩
  · rw [water, waterw]; exact ⟨fun _ => rfl, fun _ => rfl⟩
  · rw [claim]; exact fun _ => draws
  · rw [water, waterw]; exact fun _ => rfl
  · rw [water, waterw]; nofun
  · rw [claim, water, waterw]; exact fun _ => ⟨fun _ => .inr rfl, fun _ => rank⟩

end

end Sys2Proof.Machine
end

