-- ==== Sys2Proof/Proofs/WaterCycles.lean ====
section
/-! PROOFS. A due cycle, the valve and a reading (R81 to R98). -/

namespace Sys2Proof.Machine

/-! ### A due cycle, the valve and a reading (R81 to R98) -/

section
variable {s : State} (o : s.Ok) (values : Values.fit s.seq.values)
include o values

theorem Values.fit.pumpDraw : 1 ≤ Item.pumpDraw s.seq.values ∧ Item.pumpDraw s.seq.values ≤ 30000 := by
  have item := values.1 25
  unfold inRange at item
  rw [if_neg (by decide), if_neg (by decide), if_neg (by decide)] at item
  exact ⟨item.1, item.2.1⟩

/-- A due cycle that is skipped, tried, forced or postponed, or opens the valve (R92, R96). -/
theorem takeDue_loose (loose : s.WaterLoose) (timing : s.water.cycle = .timing) (live : s.live loadPump) :
    s.takeDue.WaterLoose ∧ (s.PumpSafe → s.takeDue.PumpSafe) := by
  have order : ∀ t : State, t.WaterOrder → t.WaterLoose ∧ (s.PumpSafe → t.PumpSafe) := fun t h => ⟨h.loose, fun _ => h.safe⟩
  have core := loose.core
  have on : s.water.cycle ≠ .off := by rw [timing]; nofun
  have guard : s.water.guard = true := by
    rw [← Bool.not_eq_false]
    exact fun e => on (core.clear.mp e)
  have free := loose.serves.free (by rw [timing]; rfl)
  have draw := Values.fit.pumpDraw o values
  unfold State.takeDue
  dsimp only
  split
  · refine ⟨⟨core.congr rfl rfl timing.symm rfl ?_ rfl rfl, free.serves rfl, loose.rests⟩, fun safe => ⟨safe.pump, fun e => ⟨(safe.runaway e).1, nofun⟩⟩⟩
    show false = s.water.circTimer.isSome
    rw [Eq.comm, ← Bool.not_eq_true]
    intro e
    rw [core.timed.mp e] at timing
    cases timing
  split
  · split
    · next held =>
      refine order _ ?_
      have claim := rerank_held_claim 1 held
      obtain ⟨ok, asked⟩ := rerank_asks s loadPump 1 (by decide) o
      generalize (s.rerank loadPump 1).1 = u at *
      refine enterCirculating_order ok (by rw [asked.seq]; exact values) ?_ (by rw [asked.water]; exact on)
        ((live_congr asked.seq _).mpr live) ?_ ?_
      · exact core.congr (by rw [asked.water]) (by rw [asked.water]) (by rw [asked.water]) (by rw [asked.water])
          (by rw [asked.water]) (valveClosed_congr asked.pins (by rw [asked.water])) asked.seq
      · rw [claim]
        simp [Claim.drawing, held]
      · rw [claim]
    · next away =>
      have draws : (s.claim loadPump).drawing = false := by
        have unforced := free.1
        unfold Claim.drawing
        cases e : (s.claim loadPump).st with
        | held => exact absurd e away
        | forced => exact absurd e unforced
        | _ => rfl
      generalize hw : s.setWater { s.water with cycle := .asking, dueTimer := none, dueOnRun := false } = w
      have okw : w.Ok := hw ▸ (setWater_calm s _ o).1
      have waterw : w.water = { s.water with cycle := .asking, dueTimer := none, dueOnRun := false } := by rw [← hw]; rfl
      have seqw : w.seq = s.seq := by rw [← hw]; rfl
      have pinsw : w.pins = s.pins := by rw [← hw]; rfl
      have claimw : w.claim loadPump = s.claim loadPump := by rw [← hw]; rfl
      have asks := ask_asks w loadPump 1 (Item.pumpDraw s.seq.values) true (by decide) okw
      have result : (w.ask loadPump 1 (Item.pumpDraw s.seq.values) true).2 = .none
            ∧ ((w.ask loadPump 1 (Item.pumpDraw s.seq.values) true).1.claim loadPump).st = .contest
            ∧ ((w.ask loadPump 1 (Item.pumpDraw s.seq.values) true).1.claim loadPump).single = true
            ∧ ((w.ask loadPump 1 (Item.pumpDraw s.seq.values) true).1.claim loadPump).rank = 1
          ∨ (w.ask loadPump 1 (Item.pumpDraw s.seq.values) true).2 = .refused
            ∧ ((w.ask loadPump 1 (Item.pumpDraw s.seq.values) true).1.claim loadPump).st = .idle := by
        cases passes : w.passes loadPump 1 (min (Item.pumpDraw s.seq.values) 30000) with
        | true =>
          obtain ⟨reply, claim⟩ := ask_passes okw (Item.pumpDraw s.seq.values) true draw.1 (by rw [claimw]; exact draws) (by decide) passes
          rw [claim]
          exact .inl ⟨reply, rfl, rfl, rfl⟩
        | false =>
          obtain ⟨reply, claim⟩ := try_fails okw (Item.pumpDraw s.seq.values) true draw.1 (by rw [claimw]; exact draws) (by decide) passes rfl
          rw [claim]
          exact .inr ⟨reply, rfl⟩
      generalize w.ask loadPump 1 (Item.pumpDraw s.seq.values) true = r at *
      obtain ⟨u, reply⟩ := r
      obtain ⟨ok, asked⟩ := asks
      have wateru : u.water = { s.water with cycle := .asking, dueTimer := none, dueOnRun := false } := asked.water.trans waterw
      have sequ : u.seq = s.seq := asked.seq.trans seqw
      have pinsu : u.pins = s.pins := asked.pins.trans pinsw
      have coreu : u.WaterCore := by
        refine ⟨?_, ?_, ?_, ?_, ?_, ?_, ?_⟩
        · rw [wateru]; exact core.owed
        · rw [wateru]; exact ⟨fun e => absurd (guard.symm.trans e) nofun, nofun⟩
        · rw [State.inReset, wateru, sequ]; exact core.guarded
        · rw [wateru]; rintro (e | e) <;> cases e
        · rw [wateru]; nofun
        · rw [wateru]
          exact ⟨fun e => absurd (core.demand.mp e) (by rw [timing]; nofun), nofun⟩
        · rw [wateru]
          exact ⟨fun e => absurd (core.timed.mp e) (by rw [timing]; nofun), nofun⟩
      have liveu : u.live loadPump := (live_congr sequ _).mpr live
      split
      · next e =>
        obtain ⟨rfl, rfl⟩ := Prod.mk.inj e
        obtain ⟨-, idle⟩ := result.resolve_left fun k => nomatch k.1
        exact order _ (cyclePostponed_order ok (by rw [sequ]; exact values) coreu (Claim.free_idle idle)
          (by rw [wateru]; nofun) fun away => absurd liveu away)
      · next other e =>
        obtain ⟨rfl, rfl⟩ := Prod.mk.inj e
        obtain ⟨-, contest, single, rank⟩ := result.resolve_right fun k => other k.1
        have contest : (u.claim loadPump).st = .contest := contest
        have single : (u.claim loadPump).single = true := single
        have rank : (u.claim loadPump).rank = 1 := rank
        refine ⟨⟨coreu, ?_, fun away => absurd liveu away⟩, fun safe => ⟨fun e => ?_, fun e => ?_⟩⟩
        · rw [wateru]
          exact ⟨nofun, fun f => absurd (contest.symm.trans f) nofun, fun _ => ⟨contest, single⟩, fun _ => ⟨fun _ => .inl rfl, fun _ => rank⟩⟩
        · rw [wateru] at e
          exact absurd (draws.symm.trans (safe.pump e).1) nofun
        · rw [wateru] at e
          exact absurd (draws.symm.trans (safe.pump (safe.runaway e).1).1) nofun
  · have result := force_claim o loadPump (Item.pumpDraw s.seq.values)
    have asks := force_asks s loadPump (Item.pumpDraw s.seq.values) o
    have draws : (s.claim loadPump).st ≠ .forced := free.1
    generalize s.force loadPump (Item.pumpDraw s.seq.values) = r at *
    obtain ⟨u, reply⟩ := r
    obtain ⟨ok, asked⟩ := asks
    have wateru : u.water = s.water := asked.water
    have sequ : u.seq = s.seq := asked.seq
    have pinsu : u.pins = s.pins := asked.pins
    have coreu : u.WaterCore := core.congr (by rw [wateru]) (by rw [wateru]) (by rw [wateru]) (by rw [wateru]) (by rw [wateru])
      (valveClosed_congr pinsu (by rw [wateru])) sequ
    have liveu : u.live loadPump := (live_congr sequ _).mpr live
    have valuesu : Values.fit u.seq.values := by rw [sequ]; exact values
    split
    · next e =>
      obtain ⟨rfl, rfl⟩ := Prod.mk.inj e
      split at result
      · have claim : u.claim loadPump = _ := result.2
        exact order _ (enterCirculating_order ok valuesu coreu (by rw [wateru]; exact on) liveu (by rw [claim]; rfl) (by rw [claim]))
      · cases result.1
    · next other e =>
      obtain ⟨rfl, rfl⟩ := Prod.mk.inj e
      split at result
      · exact absurd result.1 other
      · have claim : u.claim loadPump = _ := result.2
        refine order _ (openDump_order ok valuesu (by rw [wateru]; exact guard) ?_ ?_ fun away => absurd liveu away)
        · rw [State.inReset, sequ]
          exact core.guarded guard
        · rw [wateru, timing, claim]
          refine Claim.free.serves ?_ rfl
          split
          · exact free
          · exact Claim.free_idle rfl

/-- The frost guard becomes declared (R91). -/
theorem cyclingBegins_loose (core : s.water.owed ≤ 4 ∧ s.water.cycle = .off ∧ s.water.owed = 0 ∧ s.water.demand = false
      ∧ s.water.circTimer = none) (guard : s.water.guard = true) (guarded : s.seq.fns.water = true ∧ s.inReset = false)
    (free : (s.claim loadPump).free)
    (rests : ¬ s.live loadPump → s.water.pump = false ∧ s.water.runawayTimer = none) : s.cyclingBegins.WaterLoose := by
  obtain ⟨-, off, owed, demand, timer⟩ := core
  have serves : s.water.cycle.Serves (s.claim loadPump) := free.serves (by rw [off]; rfl)
  have timing : ∀ w : Water, w.owed = 0 → w.guard = true → w.cycle = .timing → w.demand = false → w.circTimer = none →
      w.pump = s.water.pump → w.runawayTimer = s.water.runawayTimer → (s.setWater w).WaterLoose := by
    intro w owed' guard' cycle demand' timer' pump' runaway'
    refine setWater_loose free (by rw [cycle]; rfl) (by omega) ?_ (fun _ => guarded) ?_ (by rw [cycle]; nofun) demand' timer' ?_
    · rw [guard', cycle]; exact ⟨nofun, nofun⟩
    · rw [cycle]; rintro (e | e) <;> cases e
    · rw [pump', runaway']; exact rests
  unfold State.cyclingBegins
  split
  · next closed => exact (drain_order o values guard guarded serves (by simpa using closed) rests).loose
  · split
    · next run =>
      have loose := timing { s.water with cycle := .timing, dueTimer := some 0, dueOnRun := false, circTimer := none }
        owed guard rfl demand rfl rfl rfl
      refine (takeDue_loose (s := s.setWater { s.water with
        cycle := .timing, dueTimer := some 0, dueOnRun := false, circTimer := none }) ?_ values loose rfl ⟨run, guarded.1⟩).1
      exact (setWater_calm s _ o).1
    · exact timing { s.water with cycle := .timing, dueOnRun := true } owed guard rfl demand timer rfl rfl

/-- The pump's conditions against the new fresh level put the Water Manager in order again (R86, R87, R95). -/
theorem pumpReads_order (loose : s.WaterLoose) : s.pumpReads.WaterOrder := by
  have core := loose.core
  unfold State.pumpReads
  split
  · exact demandFollows_order o values loose
  · split
    · next asking =>
      have shared := release_shared s loadPump
      have ok := (release_calm s loadPump o).1
      have idle := release_idle o loadPump
      generalize s.release loadPump = u at *
      have guard : s.water.guard = true := by
        rw [← Bool.not_eq_false]
        exact fun e => absurd (core.clear.mp e) (by rw [asking]; nofun)
      have loose' : (u.setWater { u.water with
          cycle := .timing, dueTimer := some (Item.frostIntervalMs s.seq.values), dueOnRun := false, circTimer := none }).WaterLoose := by
        refine setWater_loose (Claim.free_idle idle) rfl ?_ ?_ ?_ ?_ nofun ?_ rfl fun away => ?_
        · rw [shared.water]; exact core.owed
        · rw [shared.water]; exact ⟨fun e => absurd (guard.symm.trans e) nofun, nofun⟩
        · rw [State.inReset, shared.water, shared.seq]; exact core.guarded
        · rintro (e | e) <;> cases e
        · rw [shared.water, ← Bool.not_eq_true]
          exact fun e => absurd (core.demand.mp e) (by rw [asking]; nofun)
        · rw [shared.water]
          exact loose.rests fun live => away ((live_congr shared.seq _).mpr live)
      exact demandFollows_order (setWater_calm u _ ok).1 (by show Values.fit u.seq.values; rw [shared.seq]; exact values) loose'
    · next circulating =>
      refine cycleCompleted_order (setWater_calm s _ o).1 values (core.congr rfl rfl rfl rfl rfl rfl rfl) ?_ ?_ fun _ => ⟨rfl, rfl⟩
      · show s.water.cycle ≠ .off
        rw [circulating]; nofun
      · show s.water.cycle ≠ .drained
        rw [circulating]; nofun
    · exact demandFollows_order o values loose

/-- The frost cycle state follows the valve (R95, R98). -/
theorem valveFollows_order (core : s.water.owed ≤ 4 ∧ (s.water.guard = false ↔ s.water.cycle = .off)
      ∧ (s.water.guard = true → s.seq.fns.water = true ∧ s.inReset = false)
      ∧ (s.water.cycle = .off ∨ s.water.cycle = .drained → s.water.owed = 0)
      ∧ (s.water.demand = true ↔ s.water.cycle = .circulating) ∧ (s.water.circTimer.isSome = true ↔ s.water.cycle = .circulating))
    (serves : s.water.cycle.Serves (s.claim loadPump))
    (rests : ¬ s.live loadPump → s.water.pump = false ∧ s.water.runawayTimer = none) : s.valveFollows.WaterOrder := by
  obtain ⟨owed, clear, guarded, nothing, demand, timed⟩ := core
  have follows : (s.water.cycle = .drained → s.valveClosed = false) → s.demandFollows.WaterOrder := fun drained =>
    demandFollows_order o values ⟨⟨owed, clear, guarded, nothing, drained, demand, timed⟩, serves, rests⟩
  unfold State.valveFollows
  split
  · next guard =>
    split
    · split
      · next drained =>
        refine demandFollows_order (setWater_calm s _ o).1 values (setWater_loose ((serves.free (by rw [drained]; rfl))) rfl owed ?_
          guarded ?_ nofun ?_ rfl rests)
        · exact ⟨fun e => absurd (guard.symm.trans e) nofun, nofun⟩
        · rintro (e | e) <;> cases e
        · rw [← Bool.not_eq_true]
          exact fun e => absurd (demand.mp e) (by rw [drained]; nofun)
      · next other => exact follows fun e => absurd e other
    · next opened =>
      have closed : s.valveClosed = false := by simpa using opened
      split
      · exact follows fun _ => closed
      · exact drain_order o values guard (guarded guard) serves closed rests
  · next clearGuard =>
    have off := clear.mp (by simpa using clearGuard)
    exact follows fun e => absurd (off.symm.trans e) nofun

end

end Sys2Proof.Machine
end

