-- ==== Sys2Proof/Proofs/PumpContests.lean ====
section
/-! PROOFS. The demand path, the pump's contest and its yield (R38 to R40, R50, R86, R94). -/

namespace Sys2Proof.Machine

/-! ### The demand path, the pump's contest and its yield (R38 to R40, R50, R86, R94) -/

section
variable {p : Part → Prop} {s : State}

theorem demandFollows_leads (s : State) : Leads p p s s.demandFollows :=
  Leads.keeps .water (demandFollows_off s (Part.but_not _ _)) fun o h _ m =>
    demandFollows_order o h.values (State.WaterOrder.loose (h.parts _ m))

/-- A claim that contests without a raise does not draw, and PUMP is off. -/
theorem contest_undrawn {c : Claim} (contest : c.st = .contest) : c.drawing = false := by
  simp [Claim.drawing, contest]

theorem State.WaterOrder.pump_off (h : s.WaterOrder) (away : (s.claim loadPump).drawing = false) :
    s.water.pump = false ∧ s.water.runawayTimer = none := by
  have off : s.water.pump = false := by
    rw [← Bool.not_eq_true]
    exact fun on => absurd (away.symm.trans (h.pump on).1) nofun
  refine ⟨off, ?_⟩
  cases e : s.water.runawayTimer with
  | none => rfl
  | some _ => exact absurd (off.symm.trans (h.runaway (by rw [e]; rfl)).1) nofun

/-- With PUMP and the runaway count off the Water Manager is in order as far as its claim serves. -/
theorem State.WaterLoose.off_order (h : s.WaterLoose) (off : s.water.pump = false ∧ s.water.runawayTimer = none) : s.WaterOrder :=
  h.order ⟨fun on => absurd (off.1.symm.trans on) nofun, fun e => by rw [off.2] at e; cases e⟩

/-- The pump's contest lost: the Try of a cycle is postponed (R94), the demand path waits. -/
theorem pumpLoses_order {u : State} (order : s.WaterOrder) (values : Values.fit s.seq.values) (contest : (s.claim loadPump).st = .contest)
    (ok : u.Ok) (water : u.water = s.water) (pins : u.pins = s.pins) (seq : u.seq = s.seq)
    (claim : u.claim loadPump = (s.claim loadPump).lose) :
    (u.report loadPump (s.claim loadPump).lossReply).WaterOrder := by
  have off := order.pump_off (contest_undrawn contest)
  have core : u.WaterCore := order.loose.core.congr (by rw [water]) (by rw [water]) (by rw [water]) (by rw [water]) (by rw [water])
    (valveClosed_congr pins (by rw [water])) seq
  by_cases asking : s.water.cycle = .asking
  · have single := (order.tries asking).2
    have reply : (s.claim loadPump).lossReply = .lost := if_pos (.inr single)
    have idle : (u.claim loadPump).st = .idle := by rw [claim, Claim.lose, if_neg (by rw [contest]; nofun), if_pos single]; rfl
    rw [reply]
    show u.pumpLost.WaterOrder
    rw [show u.pumpLost = u.cyclePostponed from if_pos (by rw [water]; exact asking)]
    exact cyclePostponed_order ok (by rw [seq]; exact values) core (Claim.free_idle idle) (by rw [water, asking]; nofun)
      fun _ => by rw [water]; exact off
  · have same : u.report loadPump (s.claim loadPump).lossReply = u := by
      have lost : u.pumpLost = u := if_neg (by rw [water]; exact asking)
      unfold Claim.lossReply
      split
      · exact lost
      · rfl
    have still : s.water.cycle ≠ .circulating := fun e => by
      have := order.draws e
      rw [contest_undrawn contest] at this
      cases this
    have not : s.water.cycle.holdsClaim = false := by
      unfold Cycle.holdsClaim
      split
      · exact absurd ‹_› asking
      · exact absurd ‹_› still
      · rfl
    rw [same]
    refine State.WaterLoose.off_order ⟨core, ?_, fun _ => by rw [water]; exact off⟩ (by rw [water]; exact off)
    rw [water, claim]
    refine Claim.free.serves ?_ not
    have free := order.loose.serves.free not
    unfold Claim.lose
    rw [if_neg (by rw [contest]; nofun)]
    split
    · exact Claim.free_idle rfl
    · exact ⟨nofun, fun _ => free.2 (by rw [contest]; nofun)⟩

theorem contest_of_unraised {c : Claim} (raise : c.raise = false) (contesting : c.contesting = true) : c.st = .contest := by
  simpa [Claim.contesting, raise] using contesting

/-- Only a light group raises. -/
theorem Claim.Serves.unraised {live : Prop} {id : Fin 7} {c : Claim} (h : c.Serves live id) (low : id.val < 5) : c.raise = false := by
  rw [← Bool.not_eq_true]
  exact fun e => absurd (h.raises e) (by omega)

/-- What ends a load's claim and then works on it: the calm it brings stays, the order of its owner is an argument of its own. -/
theorem Leads.ends {x : Part} {id : Fin 7} {t u : State} (h : Leads (Part.but p x) (Part.with (Part.but p x) (.calm id)) s t)
    (k : Leads (Part.with (Part.but p x) (.calm id)) (Part.with (Part.but p x) (.calm id)) t u)
    (other : x ≠ .calm id) (own : s.Ok → s.Order p → u.Ok → p x → u.orderly x) : Leads p (Part.with p (.calm id)) s u :=
  Leads.mends x ((h.trans k).mono (fun _ m => m.2) fun y m => m.2.imp (fun e => e) fun n => ⟨m.1, n⟩)
    fun o h ok _ m => own o h ok (m.resolve_left other)

section
variable (cool : p .cool)
include cool

/-- The end of the window of the pump's contest (R39, R86, R92). -/
theorem pumpWindow_leads (contesting : (s.claim loadPump).contesting = true) :
    Leads p p s ((s.windowEnd loadPump).1.report loadPump (s.windowEnd loadPump).2) := by
  refine Leads.keeps .water ((windowEnd_leads s loadPump (Part.but_not _ _) contesting).trans
    (reportPump_off _ (Part.but_not _ _) ⟨nofun, cool⟩ _)) fun o h _ m => ?_
  have order : s.WaterOrder := h.parts _ m
  have contest := contest_of_unraised ((h.serves loadPump).unraised (by decide)) contesting
  have calm := windowEnd_calm s loadPump o
  show State.WaterOrder (State.report _ _ _)
  rw [windowEnd_eq o] at calm ⊢
  split at calm
  · next won =>
    rw [if_pos won]
    have live := h.live (id := loadPump) (by rw [contest]; nofun)
    have claim : (s.putClaim loadPump ((s.claim loadPump).toHeld (s.claim loadPump).asked)).claim loadPump = _ :=
      claim_putClaim_self s loadPump _
    show (State.pumpGranted _).WaterOrder
    have core : (s.putClaim loadPump ((s.claim loadPump).toHeld (s.claim loadPump).asked)).WaterCore :=
      order.loose.core.congr rfl rfl rfl rfl rfl rfl rfl
    have first := order.first (by rw [contest]; nofun)
    unfold State.pumpGranted
    split
    · next asking =>
      have asking : s.water.cycle = .asking := asking
      refine enterCirculating_order calm.1 h.values core (by show s.water.cycle ≠ _; rw [asking]; nofun) live (by rw [claim]; rfl) ?_
      rw [claim]
      exact first.mpr (.inl asking)
    · next not =>
      have not : s.water.cycle ≠ .asking := not
      have still : s.water.cycle ≠ .circulating := fun e => by
        have := order.draws e
        rw [contest_undrawn contest] at this
        cases this
      refine pumpFollows_order live core ⟨fun e => absurd e still, ?_, fun e => absurd e not, fun _ => ?_⟩
      · rw [claim]; nofun
      · rw [claim]; exact first
  · next lost =>
    rw [if_neg lost]
    exact pumpLoses_order order h.values contest calm.1 rfl rfl rfl (claim_putClaim_self s loadPump _)

/-- The failure of the announcement of the pump's contest (R38, R94). -/
theorem pumpUnsent_leads (tag : Nat) : Leads p p s
    ((s.announceFailed loadPump tag).1.report loadPump (s.announceFailed loadPump tag).2) := by
  refine Leads.keeps .water ((announceFailed_leads s loadPump (Part.but_not _ _) tag).trans
    (reportPump_off _ (Part.but_not _ _) ⟨nofun, cool⟩ _)) fun o h _ m => ?_
  have calm := announceFailed_calm s loadPump tag o
  show State.WaterOrder (State.report _ _ _)
  unfold State.announceFailed at *
  dsimp only at *
  split at calm
  · next given =>
    rw [if_pos given]
    simp only [Bool.and_eq_true] at given
    have contest := contest_of_unraised ((h.serves loadPump).unraised (by decide)) given.1.1
    exact pumpLoses_order (h.parts _ m) h.values contest calm.1 rfl rfl rfl (claim_setClaim_self s loadPump _)
  · next not =>
    rw [if_neg not]
    exact h.parts _ m

/-- The pump's contest ended by the level (R40, R94). -/
theorem pumpEnded_leads (contest : (s.claim loadPump).st = .contest) : Leads p (Part.with p (.calm loadPump)) s
    ((s.contestYields loadPump).1.report loadPump (s.contestYields loadPump).2) :=
  Leads.ends (contestYields_leads s loadPump (Part.but_not _ _) contest)
    (reportPump_off _ (fun m => m.elim nofun (Part.but_not _ _)) (.inr ⟨nofun, cool⟩) _) nofun fun o h _ m =>
    pumpLoses_order (h.parts _ m) h.values contest (contestYields_calm s loadPump o).1 rfl rfl rfl (claim_putClaim_self s loadPump _)

/-- A pump claim that is not contesting yields by release (R50, R86, R94). -/
theorem pumpYields_leads (away : s.water.cycle ≠ .asking) : Leads p (Part.with p (.calm loadPump)) s s.pumpYields := by
  refine Leads.ends (x := .water) (t := s.pumpReleased) ?_
    (Leads.ite (fun _ => cyclePostponed_off _ (fun m => m.elim nofun (Part.but_not _ _)) (.inr ⟨nofun, cool⟩))
      fun _ => demandFollows_off _ fun m => m.elim nofun (Part.but_not _ _)) nofun fun o h _ m => ?_
  · refine Leads.mends (.calm loadPump) ((pumpReleased_off s (p := Part.but p .water) (Part.but_not _ _)).mono (fun _ m => m)
      fun _ m => m.2.resolve_left m.1) fun o _ _ _ _ => Claim.bears_idle (pumpReleased_claim o)
  · have order : s.WaterOrder := h.parts _ m
    have ok := (pumpReleased_calm s o).1
    have seq := pumpReleased_seq s
    have water := pumpReleased_water s
    have pins := pumpReleased_pins s
    have idle := pumpReleased_claim o
    have loose := pumpReleased_loose (s := s) o order.loose.core
    have core : s.pumpReleased.WaterCore := order.loose.core.congr (by rw [water]) (by rw [water]) (by rw [water]) (by rw [water])
      (by rw [water]) (valveClosed_congr pins (by rw [water])) seq
    show s.pumpYields.WaterOrder
    unfold State.pumpYields
    dsimp only
    generalize s.pumpReleased = u at *
    have values : Values.fit u.seq.values := by rw [seq]; exact h.values
    split
    · next circulating =>
      exact cyclePostponed_order ok values core (Claim.free_idle idle) (by rw [circulating]; nofun)
        fun _ => by rw [water]; exact ⟨rfl, rfl⟩
    · next still =>
      have still : s.water.cycle ≠ .circulating := by rw [water] at still; exact still
      refine demandFollows_order ok values (loose ?_)
      unfold Cycle.holdsClaim
      split
      · exact absurd ‹_› away
      · exact absurd ‹_› still
      · rfl

end

end

end Sys2Proof.Machine
end

