-- ==== Sys2Proof/Proofs/WaterMeasured.lean ====
section
/-! PROOFS. A reading of the Water Manager keeps every order (R81 to R98). -/

namespace Sys2Proof.Machine

/-! ### A reading of the Water Manager (R81 to R98) -/

theorem State.WaterLoose.congr {s t : State} (h : s.WaterLoose) (water : t.water = { s.water with
      tanks := t.water.tanks, guardCount := t.water.guardCount, dumpCount := t.water.dumpCount, dueTimer := t.water.dueTimer
      dueOnRun := t.water.dueOnRun, runaway := t.water.runaway, dumpDrive := t.water.dumpDrive
      valveFault := t.water.valveFault, valveTimer := t.water.valveTimer, readTimer := t.water.readTimer })
    (valve : t.pins.dumpOpen = s.pins.dumpOpen) (seq : t.seq = s.seq) (claim : t.claim loadPump = s.claim loadPump) :
    t.WaterLoose := by
  have closed : t.valveClosed = s.valveClosed := by
    unfold State.valveClosed
    rw [valve, water]
  refine ⟨h.core.congr (by rw [water]) (by rw [water]) (by rw [water]) (by rw [water]) (by rw [water]) closed seq, ?_, fun away => ?_⟩
  · rw [water, claim]
    exact h.serves
  · rw [water]
    exact h.rests fun live => away ((live_congr seq _).mpr live)

section
variable {s : State}

theorem readTank_loose (h : s.WaterLoose) (t : Fin 3) (raw : Nat) (temp : Int) : (s.readTank t raw temp).WaterLoose :=
  h.congr rfl rfl rfl rfl

theorem monitor_loose (h : s.WaterLoose) (n : Fin 19) (d : Bool) : (s.monitor n d).WaterLoose := by
  rw [monitor_still]
  exact h.congr rfl rfl rfl rfl

theorem tankMonitor_loose (h : s.WaterLoose) (t : Fin 3) : (s.tankMonitor t).WaterLoose := by
  unfold State.tankMonitor
  dsimp only
  generalize countTo 3 _ _ = n
  split
  · refine monitor_loose ?_ _ _
    exact h.congr rfl rfl rfl rfl
  · exact h.congr rfl rfl rfl rfl

section
variable (o : s.Ok) (values : Values.fit s.seq.values) (loose : s.WaterLoose)
include o values loose

/-- The frost guard, and the cycle that begins or ends with it (R90, R91). -/
theorem guardReads_loose (acts : s.seq.fns.water = true ∧ s.inReset = false) : s.guardReads.WaterLoose := by
  have rest := guardCounted_rest s
  rw [guardReads_eq]
  dsimp only
  generalize hv : (s.setWater s.guardCounted).monitor Mon.frostGuard (!s.water.guard) = v
  have water : v.water = { s.water with guard := s.guardCounted.guard, guardCount := s.guardCounted.guardCount } := by
    rw [← hv, ← rest]
    exact (monitor_shared _ _ _).water
  have okv : v.Ok := hv ▸ (monitor_calm _ _ _ ((setWater_calm s _ o).1)).1
  have seq : v.seq = s.seq := by rw [← hv, monitor_still]; rfl
  have claim : v.claim loadPump = s.claim loadPump := by rw [← hv, monitor_claim]; rfl
  have valuesv : Values.fit v.seq.values := by rw [seq]; exact values
  have rests : ¬ v.live loadPump → v.water.pump = false ∧ v.water.runawayTimer = none := fun away => by
    rw [water]
    exact loose.rests fun live => away ((live_congr seq _).mpr live)
  have core := loose.core
  split
  · next turns =>
    have turns : s.guardCounted.guard ≠ s.water.guard := by simpa [State.guardTurns] using turns
    split
    · next guard =>
      refine cyclingEnds_loose okv valuesv ?_ (by rw [claim, water]; exact loose.serves) rests
      rw [water]
      show s.guardCounted.guard = false
      rwa [guard, ne_eq, Bool.not_eq_true] at turns
    · next none =>
      have none : s.water.guard = false := by simpa using none
      have off := core.clear.mp none
      have declared : v.water.guard = true := by
        rw [water]
        show s.guardCounted.guard = true
        rwa [none, ne_eq, Bool.not_eq_false] at turns
      refine cyclingBegins_loose okv valuesv ?_ declared (by rw [State.inReset, seq]; exact acts) ?_ rests
      · rw [water]
        refine ⟨core.owed, off, core.nothing (.inl off), ?_, ?_⟩
        · show s.water.demand = false
          rw [← Bool.not_eq_true]
          exact fun e => absurd (core.demand.mp e) (by rw [off]; nofun)
        · show s.water.circTimer = Option.none
          rw [← Option.not_isSome_iff_eq_none]
          exact fun e => absurd (core.timed.mp e) (by rw [off]; nofun)
      · rw [claim]
        exact loose.serves.free (by rw [off]; rfl)
  · next same =>
    have same : s.guardCounted.guard = s.water.guard := by simpa [State.guardTurns] using same
    refine loose.congr ?_ rfl rfl rfl
    show s.guardCounted = _
    rw [rest, same]
    rfl

/-- The dump count, and the valve that opens at its end (R97, R98). -/
theorem dumpReads_loose (acts : s.seq.fns.water = true ∧ s.inReset = false) : s.dumpReads.WaterLoose := by
  rw [dumpReads_eq o]
  split
  · have counted : ∀ n, (s.setWater { s.water with dumpCount := n }).WaterLoose := fun _ => loose.congr rfl rfl rfl rfl
    dsimp only
    split
    · next full =>
      have guard : s.water.guard = true := by
        have conditions := (countTo_full.mp full).1
        unfold State.dumpsNow at conditions
        simp only [Bool.and_eq_true] at conditions
        exact conditions.1.1.1.1
      have stands := counted (countTo 5 s.dumpsNow s.water.dumpCount).1
      exact (openDump_order (setWater_calm s _ o).1 values guard acts stands.serves stands.rests).loose
    · exact counted _
  · exact loose

end

theorem setWater_readTimer_loose (h : s.WaterLoose) (x : Timer) : (s.setWater { s.water with readTimer := x }).WaterLoose :=
  h.congr rfl rfl rfl rfl

end

section
variable {p : Part → Prop}

/-- The six tanks' stages leave what the later stages rest on. -/
structure Measured (s t : State) : Prop where
  ok : t.Ok
  seq : t.seq = s.seq
  loose : t.WaterLoose

theorem Measured.trans {s t u : State} (h : Measured s t) (k : t.Ok → t.WaterLoose → Measured t u) : Measured s u :=
  ⟨(k h.ok h.loose).ok, (k h.ok h.loose).seq.trans h.seq, (k h.ok h.loose).loose⟩

theorem measured (s : State) (o : s.Ok) (loose : s.WaterLoose) (a b c : Nat) (x y z : Int) :
    Measured s (((((((s.readTank 0 a x).readTank 1 b y).readTank 2 c z).tankMonitor 0).tankMonitor 1).tankMonitor 2)) := by
  have read : ∀ (u : State) t raw temp, u.Ok → u.WaterLoose → Measured u (u.readTank t raw temp) := fun u t raw temp o h =>
    ⟨(setWater_calm u _ o).1, rfl, readTank_loose h t raw temp⟩
  have watch : ∀ (u : State) t, u.Ok → u.WaterLoose → Measured u (u.tankMonitor t) := fun u t o h =>
    ⟨(tankMonitor_calm u t o).1, (tankMonitor_calm u t o).2.1.seq, tankMonitor_loose h t⟩
  exact ((((((read s 0 a x o loose).trans (read _ 1 b y)).trans (read _ 2 c z)).trans (watch _ 0)).trans (watch _ 1)).trans (watch _ 2))

/-- A reading event (R81). -/
theorem waterReads_leads (s : State) (cool : p .cool) (acts : s.seq.fns.water = true ∧ s.inReset = false) (a b c : Nat) (x y z : Int) :
    Leads p p s (s.waterReads a b c x y z) := by
  have off : ∀ q : Part → Prop, ¬ q .water → q .cool → q (.station fun f => f.fns.water = true) →
      Leads q q s (s.waterReads a b c x y z) := fun q off cool fitted =>
    ((readTank_off s off 0 a x).trans ((readTank_off _ off 1 b y).trans (readTank_off _ off 2 c z))).trans
      (((tankMonitor_off _ off 0).trans ((tankMonitor_off _ off 1).trans (tankMonitor_off _ off 2))).trans
        ((guardReads_off _ off cool fitted).trans ((dumpReads_off _ off cool).trans (pumpReads_off _ off cool))))
  refine Leads.keeps .water ?_ fun o h _ m => ?_
  · intro o h
    have fitted := off (Part.with (Part.but p .water) (.station fun f => f.fns.water = true))
      (fun m => m.elim nofun (Part.but_not _ _)) (.inr ⟨nofun, cool⟩) (.inl rfl) o ⟨h.values, h.level, h.remembered, h.serves,
        fun y m => m.elim (fun e => e ▸ acts.1) (h.parts y)⟩
    exact ⟨fitted.1, fitted.2.mono fun _ m => .inr m⟩
  · have order : s.WaterOrder := h.parts _ m
    obtain ⟨ok, seq, loose⟩ := measured s o order.loose a b c x y z
    show State.WaterOrder (State.pumpReads _)
    generalize (((((s.readTank 0 a x).readTank 1 b y).readTank 2 c z).tankMonitor 0).tankMonitor 1).tankMonitor 2 = u at *
    have values : Values.fit u.seq.values := by rw [seq]; exact h.values
    have acting : u.seq.fns.water = true ∧ u.inReset = false := by rw [State.inReset, seq]; exact acts
    have guard := guardReads_calm u ok
    have acting' : u.guardReads.seq.fns.water = true ∧ u.guardReads.inReset = false := by
      rw [State.inReset, guard.2.1.seq]; exact acting
    have loose' := guardReads_loose ok values loose acting
    have dump := dumpReads_calm _ guard.1
    have loose'' := dumpReads_loose guard.1 (by rw [guard.2.1.seq]; exact values) loose' acting'
    exact pumpReads_order dump.1 (by rw [dump.2.1.seq, guard.2.1.seq]; exact values) loose''

end

end Sys2Proof.Machine
end

