-- ==== Sys2Proof/Proofs/WaterCommands.lean ====
section
/-! PROOFS. The commands of the Water Manager keep every order (R86 to R100). -/

namespace Sys2Proof.Machine

/-! ### The commands of the Water Manager (R86 to R100) -/

section
variable {p : Part → Prop}

/-- Pins change, the dump valve's feedback aside. -/
theorem setPins_leads (s : State) (x : Pins) (valve : x.dumpOpen = s.pins.dumpOpen) : Leads p p s (s.setPins x) := by
  refine Leads.each (fun o => ⟨o.checked, o.lanes, o.claims, o.dropped, o.changes⟩) rfl rfl rfl (fun k => k) fun y _ k => ?_
  cases y with
  | water =>
    have k := (waterFits_iff s).mpr k
    refine (waterFits_iff _).mp ?_
    unfold State.waterFits State.valveClosed at *
    rw [show (s.setPins x).pins.dumpOpen = s.pins.dumpOpen from valve]
    exact k
  | lights => exact State.LightsOrder.congr k rfl rfl rfl fun _ => rfl
  | _ => exact k

/-- What the Water Manager's order does not speak of. -/
theorem setWater_free (s : State) (w : Water) (same : w = { s.water with
      guardCount := w.guardCount, dumpCount := w.dumpCount, dueTimer := w.dueTimer, dueOnRun := w.dueOnRun, runaway := w.runaway
      dumpDrive := w.dumpDrive, valveFault := w.valveFault, valveTimer := w.valveTimer, readTimer := w.readTimer }) :
    Leads p p s (s.setWater w) := by
  refine setWater_leads s w (fun _ k => ?_) fun _ => by rw [same]
  rw [same]
  exact (waterFits_iff _).mp ((waterFits_iff s).mpr k)

/-- The valve is not closed while a cycle circulates, only by PUMP off; no cycle that asks runs the pump. -/
theorem State.WaterOrder.runs_free {s : State} (h : s.WaterOrder) (runs : s.water.runawayTimer.isSome = true) :
    s.water.cycle.holdsClaim = false := by
  obtain ⟨on, still⟩ := h.runaway runs
  unfold Cycle.holdsClaim
  split
  · next asking =>
    have draws := (h.pump on).1
    rw [contest_undrawn (h.tries asking).1] at draws
    cases draws
  · exact absurd ‹_› still
  · rfl

/-- The runaway count is complete (R88). -/
theorem runsAway_leads (s : State) (runs : s.water.runawayTimer.isSome = true) :
    Leads p p s ((((s.setWater { s.water with runaway := true }).pumpReleased).monitor Mon.pumpRunaway true).demandFollows) := by
  refine Leads.keeps .water ((setWater_off s (Part.but_not _ _) _ (by rfl)).trans ((pumpReleased_off _ (Part.but_not _ _)).trans
    ((monitor_leads _ _ _).trans (demandFollows_leads _)))) fun o h _ m => ?_
  have order : s.WaterOrder := h.parts _ m
  have core : (s.setWater { s.water with runaway := true }).WaterCore := order.loose.core.congr rfl rfl rfl rfl rfl rfl rfl
  have ok := (setWater_calm s { s.water with runaway := true } o).1
  have released := pumpReleased_calm _ ok
  have loose := pumpReleased_loose ok core (order.runs_free runs)
  refine demandFollows_order (monitor_calm _ Mon.pumpRunaway true released.1).1 ?_ (monitor_loose loose _ _)
  rw [(monitor_calm _ Mon.pumpRunaway true released.1).2.1.seq, released.2.1.seq]
  exact h.values

/-- ClearPump (R89). -/
theorem clearsPump_leads (s : State) : Leads p p s
    (((s.setWater { s.water with runaway := false }).monitor Mon.pumpRunaway false).demandFollows) :=
  (setWater_free s { s.water with runaway := false } rfl).trans ((monitor_leads _ _ _).trans (demandFollows_leads _))

/-- A guard that is declared is that of a station with the function. -/
theorem State.WaterOrder.guards {s : State} (h : s.WaterOrder) (on : s.water.cycle ≠ .off) : s.water.guard = true := by
  rw [← Bool.not_eq_false]
  exact fun e => on (h.clear.mp e)

/-- A due cycle is taken (R92, R96). -/
theorem takeDue_leads (s : State) (water : p .water) (cool : p .cool) (run : s.inRun = true) (timing : s.water.cycle = .timing) :
    Leads p p s s.takeDue := by
  refine Leads.intro fun _ h => ?_
  have order : s.WaterOrder := h.parts _ water
  have live : s.live loadPump := ⟨run, (order.guarded (order.guards (by rw [timing]; nofun))).1⟩
  refine Leads.acts live (Leads.keeps .water (takeDue_off s (Part.but_not _ _) ⟨nofun, .inr cool⟩ ⟨nofun, .inl rfl⟩) fun o h _ _ => ?_)
  obtain ⟨loose, safe⟩ := takeDue_loose o h.values order.loose timing live
  exact loose.order (safe order.safe)

/-- A circulation is complete (R93). -/
theorem circulated_leads (s : State) (cool : p .cool) (runs : s.water.circTimer.isSome = true) : Leads p p s s.cycleCompleted := by
  refine Leads.keeps .water (cycleCompleted_off s (Part.but_not _ _) ⟨nofun, cool⟩) fun o h _ m => ?_
  have order : s.WaterOrder := h.parts _ m
  have circulating := order.timed.mp runs
  exact cycleCompleted_order o h.values order.loose.core (by rw [circulating]; nofun) (by rw [circulating]; nofun) order.loose.rests

/-- The timing of Valve Fault, and the cycle and the demand path that follow the valve (R95, R98, R100). -/
theorem valveMoved_order {s : State} (o : s.Ok) (values : Values.fit s.seq.values)
    (core : s.water.owed ≤ 4 ∧ (s.water.guard = false ↔ s.water.cycle = .off)
      ∧ (s.water.guard = true → s.seq.fns.water = true ∧ s.inReset = false)
      ∧ (s.water.cycle = .off ∨ s.water.cycle = .drained → s.water.owed = 0)
      ∧ (s.water.demand = true ↔ s.water.cycle = .circulating) ∧ (s.water.circTimer.isSome = true ↔ s.water.cycle = .circulating))
    (serves : s.water.cycle.Serves (s.claim loadPump))
    (rests : ¬ s.live loadPump → s.water.pump = false ∧ s.water.runawayTimer = none) : s.valveTiming.valveFollows.WaterOrder := by
  have calm := valveTiming_calm s o
  have seq := calm.2.1.seq
  have water : s.valveTiming.water = { s.water with
      valveTimer := s.valveTiming.water.valveTimer, valveFault := s.valveTiming.water.valveFault } := by
    rw [valveTiming_water]
    split <;> rfl
  refine valveFollows_order calm.1 (by rw [seq]; exact values) ?_ ?_ fun away => ?_
  · rw [State.inReset, seq, water]
    exact core
  · rw [valveTiming_claim, water]
    exact serves
  · rw [water]
    exact rests fun live => away ((live_congr seq _).mpr live)

/-- CloseDump (R99). -/
theorem closesDump_leads (s : State) (cool : p .cool) : Leads p p s s.closesDump := by
  refine Leads.ite (fun _ => ?_) fun _ => Leads.refl p s
  refine Leads.keeps .water ((setWater_off s (Part.but_not _ _) _ (by rfl)).trans ((valveTiming_off _ (Part.but_not _ _)).trans
    (valveFollows_off _ (Part.but_not _ _) ⟨nofun, cool⟩))) fun o h _ m => ?_
  have order : s.WaterOrder := h.parts _ m
  exact valveMoved_order (setWater_calm s _ o).1 h.values
    ⟨order.owed, order.clear, order.guarded, order.nothing, order.demand, order.timed⟩ order.loose.serves order.loose.rests

/-- The feedback of the dump valve changes (R98, R100). -/
theorem valveMoves_leads (s : State) (cool : p .cool) (isOpen : Bool) : Leads p p s
    (let s := s.setPins { s.pins with dumpOpen := isOpen }
    if s.waterActs then s.valveTiming.valveFollows else s) := by
  dsimp only
  have pins : Leads (Part.but p .water) (Part.but p .water) s (s.setPins { s.pins with dumpOpen := isOpen }) := by
    refine Leads.each (fun o => ⟨o.checked, o.lanes, o.claims, o.dropped, o.changes⟩) rfl rfl rfl (fun k => k) fun y m k => ?_
    cases y with
    | water => exact absurd rfl m.1
    | lights => exact State.LightsOrder.congr k rfl rfl rfl fun _ => rfl
    | _ => exact k
  refine Leads.keeps .water (pins.trans (Leads.ite (fun _ => (valveTiming_off _ (Part.but_not _ _)).trans
    (valveFollows_off _ (Part.but_not _ _) ⟨nofun, cool⟩)) fun _ => Leads.refl _ _)) fun o h _ m => ?_
  have order : s.WaterOrder := h.parts _ m
  show State.WaterOrder _
  split
  · exact valveMoved_order (s := s.setPins { s.pins with dumpOpen := isOpen })
      ⟨o.checked, o.lanes, o.claims, o.dropped, o.changes⟩ h.values
      ⟨order.owed, order.clear, order.guarded, order.nothing, order.demand, order.timed⟩ order.loose.serves order.loose.rests
  · next rests =>
    have rests : ¬ (s.seq.fns.water = true ∧ s.inReset = false) := fun e => rests (by
      show (s.seq.fns.water && !s.inReset) = true
      rw [e.1, e.2]
      rfl)
    have clear : s.water.cycle = .off := order.clear.mp (by
      rw [← Bool.not_eq_true]
      exact fun e => rests (order.guarded e))
    have away : ¬ s.live loadPump := fun live => rests ⟨live.2, by
      have run := live.1
      unfold State.inRun at run
      unfold State.inReset
      rw [show s.seq.phase = .run from by simpa using run]
      rfl⟩
    have loose : (s.setPins { s.pins with dumpOpen := isOpen }).WaterLoose :=
      ⟨⟨order.owed, order.clear, order.guarded, order.nothing, fun e => absurd (clear.symm.trans e) nofun, order.demand, order.timed⟩,
        order.loose.serves, order.loose.rests⟩
    exact loose.away away

/-- The Water Manager enters Run (R86, R91, R102). -/
theorem waterEntersRun_leads (s : State) (water : p .water) (cool : p .cool) (run : s.inRun = true) : Leads p p s s.waterEntersRun := by
  refine Leads.ite (fun _ => ?_) fun _ => Leads.refl p s
  dsimp only
  refine (setWater_free s { s.water with dumpDrive := if s.water.dumpCmdOpen then .toOpen else .toClosed } rfl).trans
    (Leads.trans (q := p) (Leads.ite (fun due => ?_) fun _ => Leads.refl p _) (demandFollows_leads _))
  have timing : ∀ u : State, u.water.cycle = .timing → u.inRun = true → Leads p p u (u.timing 0).takeDue := by
    intro u timing run
    refine Leads.trans (q := p) ?_ (takeDue_leads _ water cool run rfl)
    refine Leads.keeps .water (timing_off u (Part.but_not _ _) 0) fun o h _ m => ?_
    have order : u.WaterOrder := h.parts _ m
    have still : u.water.circTimer = none := by
      rw [← Option.not_isSome_iff_eq_none]
      exact fun e => absurd (order.timed.mp e) (by rw [timing]; nofun)
    have eq : u.timing 0 = u.setWater { u.water with dueTimer := some 0, dueOnRun := false } := by
      unfold State.timing
      rw [← timing, ← still]
    rw [eq]
    exact (waterFits_iff _).mp ((waterFits_iff u).mpr order)
  exact timing _ due.1 run

end

end Sys2Proof.Machine
end

