-- ==== Sys2Proof/Proofs/LightOrders.lean ====
section
/-! PROOFS. Fades keep a channel in order (R149, R150). -/

namespace Sys2Proof.Machine

/-! ### Fades keep a channel in order (R149, R150) -/

section
variable {ceiling fade : Nat} {k : ClaimState} {l : Light}

theorem Light.Order.dark (h : l.Order ceiling fade k) (st : k ≠ .held) : l.level = 0 ∧ l.target = 0 := by
  have dark : ¬ (0 < l.level ∨ 0 < l.target) := fun e => st (h.lit e)
  omega

/-- A channel's order does not see what keeps its claim Held. -/
theorem Light.Order.mono (h : l.Order ceiling fade k) {k' : ClaimState} (w : k = .held → k' = .held) : l.Order ceiling fade k' :=
  { h with lit := fun e => w (h.lit e) }

/-- A new target starts its fade at the present level (R150). -/
theorem Light.Order.retarget (h : l.Order ceiling fade k) {x ceiling' : Nat} (le : x ≤ ceiling') (low : ceiling' ≤ 1000)
    (lit : 0 < x → k = .held) : (l.retarget fade x).Order ceiling' fade k := by
  unfold Light.retarget
  split
  · next same => exact { h with target := same ▸ le }
  · next moves =>
    dsimp only
    have dark : 0 < l.level ∨ 0 < x → k = .held := fun e => e.elim (fun e => h.lit (.inl e)) lit
    split
    · next there =>
      exact ⟨h.level, h.start, le, h.duty, fun _ => there.symm, ⟨nofun, nofun⟩, nofun, dark⟩
    · next away =>
      split
      · exact ⟨le.trans low, h.start, le, rfl, fun _ => rfl, ⟨nofun, nofun⟩, nofun, fun e => lit (e.elim (fun e => e) fun e => e)⟩
      · next slow =>
        refine ⟨h.level, h.level, le, h.duty, nofun, ⟨fun _ => rfl, fun _ => rfl⟩,
          fun _ => ⟨Nat.pos_of_ne_zero slow, fun e => away e.symm, ?_⟩, dark⟩
        simp

/-- The part of the way that has elapsed does not lead to its end. -/
theorem fade_short {start target e : Nat} (lt : e < fade) (moves : start ≠ target) :
    (start : Int) + (((target : Int) - start) * e).tdiv fade ≠ target := by
  intro there
  have whole : (((target : Int) - start) * e).tdiv fade = (target : Int) - start := by omega
  have parts := congrArg Int.natAbs whole
  rw [Int.natAbs_tdiv, Int.natAbs_mul, Int.natAbs_natCast] at parts
  have pos : 0 < ((target : Int) - start).natAbs := by omega
  have less : ((target : Int) - start).natAbs * e / fade < ((target : Int) - start).natAbs :=
    Nat.div_lt_of_lt_mul (by rw [Nat.mul_comm]; exact Nat.mul_lt_mul_of_pos_right lt pos)
  rw [Int.natAbs_natCast] at parts
  exact less.ne parts

/-- One step of a fade (R150). -/
theorem Light.Order.fadeStep (h : l.Order ceiling fade k) (low : ceiling ≤ 1000) (fading : l.fading = true) :
    (l.fadeStep fade).Order ceiling fade k := by
  obtain ⟨-, away, place⟩ := h.fades fading
  have held : k = .held := by
    by_contra st
    obtain ⟨level, target⟩ := h.dark st
    omega
  have moves : l.start ≠ l.target := fun e => by
    rw [e, Int.sub_self, Int.zero_mul, Int.zero_tdiv] at place
    omega
  have duty := fadeStep_duty fade l
  have aim := fadeStep_target fade l
  have start : (l.fadeStep fade).start = l.start := by
    unfold Light.fadeStep
    dsimp only
    split <;> rfl
  by_cases goes : l.elapsed + 20 < fade
  · obtain ⟨level, elapsed, stays, timer⟩ := fadeStep_goes goes
    have bound := between_le (a := l.start) (b := l.target) (n := ((l.elapsed + 20 : Nat) : Int)) (d := fade) (by omega) (by omega) (by omega)
    rw [← level] at bound
    have below := h.start
    have under := h.target
    refine ⟨by omega, by rw [start]; exact below, by rw [aim]; exact under, duty, fun e => ?_, ?_, fun _ => ⟨?_, ?_, ?_⟩, fun _ => held⟩
    · rw [stays, fading] at e
      cases e
    · rw [timer, stays, fading]
      exact ⟨fun _ => rfl, fun _ => rfl⟩
    · rw [elapsed]
      exact goes
    · have short := fade_short goes moves
      rw [aim]
      omega
    · rw [start, aim, elapsed]
      exact level
  · obtain ⟨level, stays, timer⟩ := fadeStep_ends (l := l) (fade := fade) (by omega)
    have under := h.target
    refine ⟨by rw [level]; omega, by rw [start]; exact h.start, by rw [aim]; exact under, duty, fun _ => by rw [level, aim], ?_, fun e => ?_,
      fun _ => held⟩
    · rw [timer, stays]
      exact ⟨nofun, nofun⟩
    · rw [stays] at e
      cases e

end

/-! ### One group's order -/

/-- One group's channels and request with its claim (R148 to R155). -/
structure State.GroupOrder (s : State) (g : Fin 2) : Prop where
  lights : ∀ k, (s.light (groupChan g k)).Order s.lights.ceiling (Item.fadeMs s.seq.values) (s.claim (loadLights g)).st
  group : (s.group g).Order s.seq.storage s.broker.level (s.claim (loadLights g))

/-- A light group's claim without a contest, above rank 0 but where the level is above 0 (R51). -/
structure Claim.Rests (level : Nat) (c : Claim) : Prop where
  lit : c.lit
  raise : c.raise = false
  ranked : c.st = .held → c.rank = 0 → 0 < level

/-- One group between requests: its channels in order, and its claim without a contest. -/
structure State.GroupRests (s : State) (g : Fin 2) : Prop where
  lights : ∀ k, (s.light (groupChan g k)).Order s.lights.ceiling (Item.fadeMs s.seq.values) (s.claim (loadLights g)).st
  rests : Claim.Rests s.broker.level (s.claim (loadLights g))

/-- The Light Controller's order, group by group. -/
theorem lightsOrder_of_groups {s : State} (ceiling : s.lights.ceiling ≤ 1000) (groups : ∀ g, s.GroupOrder g)
    (away : s.inRun = true ∧ s.seq.fns.lights = true
      ∨ s.lights.due = .none ∧ s.lights.countdown = none ∧ s.lights.courtesy = false)
    (named : s.lights.due ≠ .none → (Item.courtesy s.seq.values).isSome = true) : s.LightsOrder := by
  refine ⟨ceiling, fun ch => ?_, fun g => (groups g).group, away, named⟩
  obtain ⟨k, e⟩ := groupChan_surjective ch
  have light := (groups (groupOf ch)).lights k
  rw [e] at light
  exact light

theorem State.LightsOrder.groupOrder {s : State} (h : s.LightsOrder) (g : Fin 2) : s.GroupOrder g := by
  refine ⟨fun k => ?_, h.groups g⟩
  have light := h.lights (groupChan g k)
  rw [groupOf_groupChan] at light
  exact light

section
variable {s t : State} {g : Fin 2}

/-- The ranks of a light group's claim. -/
theorem Claim.Serves.lit_rank {live : Prop} {c : Claim} (h : c.Serves live (loadLights g)) (st : c.st ≠ .idle) : c.rank = 0 ∨ c.rank = 6 := by
  obtain ⟨-, ranks, -⟩ := h.asks st
  match g with
  | 0 | 1 => simpa [loadRanks, loadLights] using ranks

theorem loadLights_ne_pump (g : Fin 2) : loadLights g ≠ loadPump := by decide +revert

/-- A light group's claim is Idle, contests or is Held (R51). -/
theorem Claim.Serves.lit_states {live : Prop} {c : Claim} (h : c.Serves live (loadLights g)) :
    c.st = .idle ∨ c.st = .contest ∨ c.st = .held := by
  cases e : c.st with
  | idle => exact .inl rfl
  | contest => exact .inr (.inl rfl)
  | held => exact .inr (.inr rfl)
  | waiting => exact absurd e (h.lit (loadLights_ge g)).1
  | forced => exact absurd (h.forced e) (loadLights_ne_pump g)

theorem Claim.unraised_of_away {c : Claim} (fits : c.fits) (st : c.st ≠ .held) : c.raise = false := by
  obtain ⟨-, -, -, -, raise, -⟩ := fits
  rw [← Bool.not_eq_true]
  exact fun e => st (raise e)

/-- Without a contest the group rests. -/
theorem State.GroupOrder.rests (h : s.GroupOrder g) (o : s.Ok) (serves : (s.claim (loadLights g)).Serves (s.live (loadLights g)) (loadLights g))
    (calm : (s.claim (loadLights g)).contesting = false) : s.GroupRests g := by
  have state := serves.lit_states
  have raise : (s.claim (loadLights g)).raise = false := by
    by_cases held : (s.claim (loadLights g)).st = .held
    · simpa [Claim.contesting, held] using calm
    · exact Claim.unraised_of_away (o.claim _) held
  refine ⟨h.lights, ⟨⟨?_, calm, fun held => serves.lit_rank (by rw [held]; nofun)⟩, raise, h.group.lit⟩⟩
  rcases state with e | e | e
  · exact .inl e
  · simp [Claim.contesting, e] at calm
  · exact .inr e

theorem State.GroupOrder.rests_of_none (h : s.GroupOrder g) (o : s.Ok)
    (serves : (s.claim (loadLights g)).Serves (s.live (loadLights g)) (loadLights g)) (none : (s.group g).pending = none) : s.GroupRests g :=
  h.rests o serves (by
    rw [← Bool.not_eq_true]
    intro e
    have := (h.group.contests e).1
    rw [none] at this
    cases this)

/-- A group that rests is in order with no request, or with one that its claim stands for. -/
theorem State.GroupRests.order (h : s.GroupRests g)
    (levels : ∀ r, (s.group g).pending = some r → ∀ k, r.want.get k ≤ 1000 ∧ r.trial.get k ≤ 1000)
    (asks : (s.group g).pending.isSome = true → (s.claim (loadLights g)).st ≠ .idle) : s.GroupOrder g :=
  ⟨h.lights, levels, fun e => absurd (h.rests.lit.calm.symm.trans e) nofun, asks, fun e => absurd (h.rests.raise.symm.trans e) nofun,
    h.rests.ranked⟩

theorem State.GroupRests.order_none (h : s.GroupRests g) (none : (s.group g).pending = none) : s.GroupOrder g :=
  h.order (fun r e => by rw [none] at e; cases e) fun e => by rw [none] at e; cases e

/-- What a resting group rests on. -/
theorem State.GroupRests.congr (h : s.GroupRests g) (chans : t.lights.chans = s.lights.chans) (ceiling : t.lights.ceiling = s.lights.ceiling)
    (seq : t.seq = s.seq) (level : t.broker.level = s.broker.level) (claim : t.claim (loadLights g) = s.claim (loadLights g)) :
    t.GroupRests g := by
  refine ⟨fun k => ?_, ?_⟩
  · rw [light_congr chans, ceiling, seq, claim]
    exact h.lights k
  · rw [level, claim]
    exact h.rests

end

end Sys2Proof.Machine
end

