-- ==== Sys2Proof/Proofs/GroupFrames.lean ====
section
/-! PROOFS. What an operation on one group leaves of the rest (R151 to R154). -/

namespace Sys2Proof.Machine

/-! ### What an operation on one group leaves of the rest (R151 to R154) -/

/-- From `s` to `t` the group `g` alone has changed, with its claim; another claim no more than by re-tests. -/
structure Regroups (g : Fin 2) (s t : State) : Prop where
  ok : t.Ok
  lamps : Lamps g s t
  light : ∀ ch, groupOf ch ≠ g → t.light ch = s.light ch
  seq : t.seq = s.seq
  level : t.broker.level = s.broker.level
  claims : ∀ j, j ≠ loadLights g → (s.claim j).stirs (t.claim j)

def Regroup (g : Fin 2) (s t : State) : Prop := s.Ok → Regroups g s t

section
variable {g : Fin 2} {s t u : State}

theorem Regroup.refl (g : Fin 2) (s : State) : Regroup g s s := fun o =>
  ⟨o, Lamps.refl g s, fun _ _ => rfl, rfl, rfl, fun _ _ => .inl rfl⟩

theorem Regroup.trans (h : Regroup g s t) (k : Regroup g t u) : Regroup g s u := fun o => by
  have a := h o
  have b := k a.ok
  exact ⟨b.ok, a.lamps.trans b.lamps, fun ch n => (b.light ch n).trans (a.light ch n), b.seq.trans a.seq, b.level.trans a.level,
    fun j n => Claim.stirs_trans (a.claims j n) (b.claims j n)⟩

theorem Regroup.ite {c : Prop} [Decidable c] {a b : State} (h : c → Regroup g s a) (k : ¬ c → Regroup g s b) :
    Regroup g s (if c then a else b) := by
  split
  · exact h ‹_›
  · exact k ‹_›

theorem Asks.regroup (h : Asks (· = loadLights g) s t) : Regroup g s t := fun o => by
  obtain ⟨ok, asked⟩ := h o
  have lights := asked.lights
  exact ⟨ok, ⟨by rw [lights], fun j _ => by rw [State.group, lights]; rfl⟩, fun ch _ => light_congr (by rw [lights]) ch, asked.seq,
    asked.level, fun j n => Claim.tested_stirs (asked.claims j n)⟩

theorem setGroup_regroup (s : State) (g : Fin 2) (x : Group) : Regroup g s (s.setGroup g x) := fun o =>
  ⟨(setGroup_calm s g x o).1, setGroup_lamps s g x, fun _ _ => rfl, rfl, rfl, fun _ _ => .inl rfl⟩

theorem aimed_regroup (s : State) (g : Fin 2) (x : Tab 4 Nat) : Regroup g s (s.aimed g x) := fun o =>
  ⟨⟨o.checked, o.lanes, o.claims, o.dropped, o.changes⟩, ⟨rfl, fun _ _ => rfl⟩, fun _ n => aimed_other s g x n, rfl, rfl, fun _ _ => .inl rfl⟩

theorem takeTargets_regroup (s : State) (g : Fin 2) (x : Tab 4 Nat) : Regroup g s (s.takeTargets g x) :=
  (aimed_regroup s g x).trans (amend_asks (s.aimed g x) g).regroup

theorem finishRequest_regroup (s : State) (g : Fin 2) (req : Nat) : Regroup g s (s.finishRequest req) := fun o => by
  rw [finishRequest_eq]
  exact ⟨⟨o.checked, o.lanes, o.claims, o.dropped, o.changes⟩, ⟨rfl, fun _ _ => rfl⟩, fun _ _ => rfl, rfl, rfl, fun _ _ => .inl rfl⟩

theorem requestTaken_regroup (s : State) (g : Fin 2) (r : GroupReq) : Regroup g s (s.requestTaken g r) :=
  (setGroup_regroup s g _).trans ((takeTargets_regroup _ g _).trans (finishRequest_regroup _ g _))

theorem requestRefused_regroup (s : State) (g : Fin 2) (r : GroupReq) : Regroup g s (s.requestRefused g r) :=
  (setGroup_regroup s g _).trans ((amend_asks _ g).regroup.trans (finishRequest_regroup _ g _))

theorem askGroup_regroup (s : State) (g : Fin 2) (x : Group) (a : Nat) : Regroup g s ((s.setGroup g x).askGroup g a).1 :=
  (setGroup_regroup s g x).trans (askGroup_asks _ g a).regroup

theorem tryScales_regroup (g : Fin 2) (r : GroupReq) (l : List Nat) (s : State) : Regroup g s (tryScales g r l s) := by
  induction l generalizing r s with
  | nil => exact requestRefused_regroup s g r
  | cons x xs ih =>
    rw [tryScales_cons]
    exact Regroup.ite (fun _ => requestTaken_regroup s g _) fun _ => Regroup.ite
      (fun _ => (askGroup_regroup s g _ _).trans (ih _ _)) fun _ => Regroup.ite
        (fun _ => (askGroup_regroup s g _ _).trans (requestTaken_regroup _ g _)) fun _ => askGroup_regroup s g _ _

theorem changeGroup_regroup (s : State) (g : Fin 2) (x : Tab 4 Nat) (req : Nat) : Regroup g s (s.changeGroup g x req) := by
  rw [changeGroup_eq]
  exact Regroup.ite (fun _ => takeTargets_regroup s g _) fun _ => Regroup.ite
    (fun _ => (askGroup_regroup s g _ _).trans (tryScales_regroup g _ _ _)) fun _ => Regroup.ite
      (fun _ => (askGroup_regroup s g _ _).trans (requestTaken_regroup _ g _)) fun _ => askGroup_regroup s g _ _

theorem abandonRequest_regroup (s : State) (g : Fin 2) : Regroup g s (s.abandonRequest g) :=
  Regroup.ite (fun _ => (withdrawAsk_asks s g).regroup.trans (setGroup_regroup _ g _)) fun _ => Regroup.refl g s

theorem reviseOutcome_regroup (s : State) (g : Fin 2) (req outcome : Nat) : Regroup g s (s.reviseOutcome req outcome) := by
  unfold State.reviseOutcome
  exact Regroup.ite (fun _ o => ⟨⟨o.checked, o.lanes, o.claims, o.dropped, o.changes⟩, ⟨rfl, fun _ _ => rfl⟩, fun _ _ => rfl, rfl, rfl,
    fun _ _ => .inl rfl⟩) fun _ => Regroup.refl g s

theorem requestEnds_regroup (s : State) (g : Fin 2) (outcome : Nat) : Regroup g s (s.requestEnds g outcome) := by
  unfold State.requestEnds
  split
  · exact Regroup.refl g s
  · exact (setGroup_regroup s g _).trans (Regroup.ite (fun _ => finishRequest_regroup _ g _) fun _ => reviseOutcome_regroup _ g _ _)

/-- The Light Controller's order once the group that has changed is in order. -/
theorem Regroups.order {p : Part → Prop} (h : Regroups g s t) (order : s.Order p) (lights : s.LightsOrder) (own : t.GroupOrder g) :
    t.LightsOrder := by
  have frame := h.lamps.lights
  refine lightsOrder_of_groups (by rw [frame]; exact lights.ceiling) (fun j => ?_)
    (by rw [State.inRun, h.seq, frame]; exact lights.away) (by rw [h.seq, frame]; exact lights.named)
  by_cases same : j = g
  · exact same ▸ own
  · obtain ⟨channels, group⟩ := lights.groupOrder j
    have claim : t.claim (loadLights j) = s.claim (loadLights j) :=
      (h.claims _ fun e => same (loadLights_injective e)).resolve_right fun w => ((order.serves (loadLights j)).lit (loadLights_ge j)).1 w.1
    refine ⟨fun k => ?_, ?_⟩
    · rw [h.light _ (by rw [groupOf_groupChan]; exact same), claim, h.seq, frame]
      exact channels k
    · rw [h.lamps.groups j same, claim, h.seq, h.level]
      exact group

/-- A change of the courtesy light that waits still waits where the group that has changed had no request. -/
theorem Regroups.due (h : Regroups g s t) (due : s.dueWaits) (none : (s.group g).pending = none) : t.dueWaits := by
  have frame := h.lamps.lights
  unfold State.dueWaits
  rw [h.seq, frame]
  intro waits
  have waits := due waits
  cases named : Item.courtesy s.seq.values with
  | none => rw [named] at waits; cases waits
  | some ch =>
    rw [named] at waits
    have waits : (s.group (groupOf ch)).pending.isSome = true := waits
    show (t.group (groupOf ch)).pending.isSome = true
    have other : groupOf ch ≠ g := fun e => by
      rw [e, none] at waits
      cases waits
    rw [h.lamps.groups _ other]
    exact waits

end

end Sys2Proof.Machine
end

