-- ==== Sys2Proof/Proofs/GroupOrders.lean ====
section
/-! PROOFS. One group's operations keep its order (R151 to R154). -/

namespace Sys2Proof.Machine

/-! ### One group's operations keep its order (R151 to R154) -/

section
variable {s : State} {g : Fin 2}

/-! #### A settled claim comes down to the target amount (R151) -/

theorem drawTerm_pos {rated level : Nat} (lit : 0 < level) : 1 ≤ drawTerm rated level := by
  unfold drawTerm
  rw [if_neg (by omega)]
  exact le_max_left _ _

/-- Each channel's part is within its group's amount. -/
theorem le_sum_fin4 (f : Fin 4 → Nat) (k : Fin 4) : f k ≤ (fin4.map f).sum := by
  have sum : (fin4.map f).sum = f 0 + (f 1 + (f 2 + (f 3 + 0))) := rfl
  match k with
  | 0 | 1 | 2 | 3 => omega

theorem target_dark (none : s.targetAmount g = 0) (k : Fin 4) : (s.light (groupChan g k)).target = 0 := by
  by_contra lit
  have part := le_sum_fin4 (fun k => drawTerm (Item.lightDraw s.seq.values (groupChan g k)) (s.light (groupChan g k)).target) k
  have some := drawTerm_pos (rated := Item.lightDraw s.seq.values (groupChan g k)) (Nat.pos_of_ne_zero lit)
  unfold State.targetAmount at none
  omega

theorem Claim.amended_rests {level : Nat} {c : Claim} (h : Claim.Rests level c) (settled : Bool) (target : Nat) :
    Claim.Rests level (c.amended settled target) := by
  obtain ⟨⟨state, calm, rank⟩, raise, ranked⟩ := h
  unfold Claim.amended
  split
  · next held =>
    split
    · exact ⟨⟨.inl rfl, rfl, nofun⟩, rfl, nofun⟩
    · split
      · exact ⟨⟨.inr held.2, by simp [Claim.contesting, Claim.lowered, held.2], rank⟩, rfl, ranked⟩
      · exact ⟨⟨state, calm, rank⟩, raise, ranked⟩
  · exact ⟨⟨state, calm, rank⟩, raise, ranked⟩

theorem amend_rests (o : s.Ok) (h : s.GroupRests g) : (s.amend g).GroupRests g := by
  have asked := (amend_asks s g o).2
  have claim := amend_claim o g
  refine ⟨fun k => ?_, by rw [claim, asked.level]; exact Claim.amended_rests h.rests _ _⟩
  rw [light_congr (s := s) (by rw [asked.lights]), asked.lights, asked.seq, claim]
  have light := h.lights k
  unfold Claim.amended
  split
  · next settled =>
    split
    · next none =>
      have target := target_dark none k
      have still := light.still (((settled_iff s g).mp settled.1).1 k)
      exact { light with lit := fun e => by omega }
    · split
      · exact light.mono fun held => held
      · exact light
  · exact light

/-! #### Targets are taken (R151, R152) -/

theorem aimed_rests (h : s.GroupRests g) {x : Tab 4 Nat} (low : s.lights.ceiling ≤ 1000) (le : ∀ k, x.get k ≤ s.lights.ceiling)
    (lit : ∀ k, 0 < x.get k → (s.claim (loadLights g)).st = .held) : (s.aimed g x).GroupRests g := by
  refine ⟨fun k => ?_, h.rests⟩
  rw [aimed_light]
  exact (h.lights k).retarget (le k) low (lit k)

theorem takeTargets_rests (o : s.Ok) (h : s.GroupRests g) {x : Tab 4 Nat} (low : s.lights.ceiling ≤ 1000)
    (le : ∀ k, x.get k ≤ s.lights.ceiling) (lit : ∀ k, 0 < x.get k → (s.claim (loadLights g)).st = .held) :
    (s.takeTargets g x).GroupRests g :=
  amend_rests ⟨o.checked, o.lanes, o.claims, o.dropped, o.changes⟩ (aimed_rests h low le lit)

/-- What the claim holds covers no target above 0 unless the claim is Held. -/
theorem covered_held (o : s.Ok) (h : Claim.Rests s.broker.level (s.claim (loadLights g))) {x : Tab 4 Nat}
    (covers : s.covering g x ≤ s.groupHeld g) (k : Fin 4) (lit : 0 < x.get k) : (s.claim (loadLights g)).st = .held := by
  refine h.lit.state.resolve_left fun idle => ?_
  obtain ⟨-, -, -, zero, -⟩ := o.claim (loadLights g)
  have none : s.groupHeld g = 0 := zero (by simp [Claim.drawing, idle])
  have part := le_sum_fin4 (fun k => drawTerm (Item.lightDraw s.seq.values (groupChan g k))
    (max (s.light (groupChan g k)).level (x.get k))) k
  have some := drawTerm_pos (rated := Item.lightDraw s.seq.values (groupChan g k)) (level := max (s.light (groupChan g k)).level (x.get k)) (by omega)
  unfold State.covering at covers
  omega

theorem finishRequest_rests (h : s.GroupRests g) (req : Nat) : (s.finishRequest req).GroupRests g := by
  rw [finishRequest_eq]
  exact h.congr rfl rfl rfl rfl rfl

theorem finishRequest_group (s : State) (req : Nat) (g : Fin 2) : (s.finishRequest req).group g = s.group g := by
  rw [finishRequest_eq]
  rfl

theorem requestTaken_order (o : s.Ok) (h : s.GroupRests g) {r : GroupReq} (low : s.lights.ceiling ≤ 1000)
    (le : ∀ k, r.trial.get k ≤ s.lights.ceiling) (lit : ∀ k, 0 < r.trial.get k → (s.claim (loadLights g)).st = .held) :
    (s.requestTaken g r).GroupOrder g := by
  refine State.GroupRests.order_none ?_ (requestTaken_pending o g r)
  have set : (s.setGroup g { pending := none, result := resultOf r.scale }).GroupRests g := h.congr rfl rfl rfl rfl rfl
  exact finishRequest_rests (takeTargets_rests (setGroup_calm s g _ o).1 set low le lit) _

theorem requestRefused_order (o : s.Ok) (h : s.GroupRests g) (r : GroupReq) : (s.requestRefused g r).GroupOrder g := by
  refine State.GroupRests.order_none ?_ (by rw [(requestRefused_refused o g r).group])
  have set : (s.setGroup g { pending := none, result := .refused }).GroupRests g := h.congr rfl rfl rfl rfl rfl
  exact finishRequest_rests (amend_rests (setGroup_calm s g _ o).1 set) _

/-! #### Asks (R152, R153) -/

theorem passes_storage {id : Fin 7} {rank a : Nat} (h : s.passes id rank a = true) (five : 5 ≤ rank) : s.seq.storage = false := by
  rw [← Bool.not_eq_true]
  intro storage
  unfold State.passes at h
  split at h
  · cases h
  · simp [storage, five] at h

/-- A claim after a group's ask that is not refused: what its request waits for, or what it already holds. -/
structure Claim.Pends (storage : Bool) (level : Nat) (c : Claim) : Prop where
  contests : c.contesting = true → storage = false
  asks : c.st ≠ .idle
  raised : c.raise = true → c.rank ≠ 0
  ranked : c.st = .held → c.rank = 0 → 0 < level

theorem askGroup_result (o : s.Ok) (h : Claim.Rests s.broker.level (s.claim (loadLights g))) {a : Nat} (some : 1 ≤ a) :
    let r := s.askGroup g a
    let d := r.1.claim (loadLights g)
    ((s.claim (loadLights g)).st = .held → d.st = .held)
      ∧ (r.2 = .refused ∧ Claim.Rests s.broker.level d ∨ r.2 = .none ∧ Claim.Pends s.seq.storage s.broker.level d) := by
  obtain ⟨lit, raise, ranked⟩ := h
  have five := loadLights_ge g
  unfold State.askGroup
  by_cases held : (s.claim (loadLights g)).st = .held
  · rw [if_pos held]
    dsimp only
    by_cases le : min a 30000 ≤ (s.claim (loadLights g)).held
    · have draws : (s.claim (loadLights g)).drawing = true := by simp [Claim.drawing, held]
      obtain ⟨reply, claim⟩ := lower_claim o (a := min a 30000) (by omega) draws le
      rw [raise_low held le, reply, claim]
      exact ⟨fun _ => held, .inr ⟨rfl, fun e => by simp [Claim.contesting, Claim.lowered, held] at e,
        by show (s.claim (loadLights g)).st ≠ .idle; rw [held]; nofun, nofun, ranked⟩⟩
    · have result := raise_claim o (a := a) held (by omega) (.inr five)
      dsimp only at result
      split at result
      · next passes =>
        rw [result.1, result.2]
        have calm := passes_rank passes
        have six := lit.askRank (g := g) held
        refine ⟨fun _ => held, .inr ⟨rfl, fun _ => passes_storage passes (by omega), by show (s.claim (loadLights g)).st ≠ .idle; rw [held]; nofun,
          fun _ zero => ?_, ranked⟩⟩
        have := ranked held zero
        omega
      · rw [result.1, result.2, if_neg (by simp [raise])]
        exact ⟨fun e => e, .inl ⟨rfl, lit, raise, ranked⟩⟩
  · rw [if_neg held]
    have away : (s.claim (loadLights g)).drawing = false := by simp [Claim.drawing, lit.state.resolve_right held]
    refine ⟨fun e => absurd e held, ?_⟩
    cases passes : s.passes (loadLights g) 6 (min a 30000) with
    | true =>
      rw [(ask_passes o a true some away (by decide) passes).1, (ask_passes o a true some away (by decide) passes).2]
      exact .inr ⟨rfl, fun _ => passes_storage passes (by decide), nofun, nofun, nofun⟩
    | false =>
      rw [(try_fails o a true some away (by decide) passes rfl).1, (try_fails o a true some away (by decide) passes rfl).2]
      exact .inl ⟨rfl, ⟨.inl rfl, rfl, nofun⟩, rfl, nofun⟩

/-- A group's ask with its request pending: refused with the group at rest, or the request waits. -/
theorem askGroup_order (o : s.Ok) (h : s.GroupRests g) {r : GroupReq} (want : ∀ k, r.want.get k ≤ 1000) (trial : ∀ k, r.trial.get k ≤ 1000)
    {x : Group} (pending : x.pending = some r) {a : Nat} (some : 1 ≤ a) :
    let v := (s.setGroup g x).askGroup g a
    v.1.Ok ∧ v.1.lights.ceiling = s.lights.ceiling
      ∧ (v.2 = .refused ∧ v.1.GroupRests g ∨ v.2 = .none ∧ v.1.GroupOrder g) := by
  have rests : (s.setGroup g x).GroupRests g := h.congr rfl rfl rfl rfl rfl
  have ou := (setGroup_calm s g x o).1
  have ceiling : (s.setGroup g x).lights.ceiling = s.lights.ceiling := rfl
  have result := askGroup_result (g := g) ou rests.rests (a := a) some
  have group := (askGroup_pending o g x a).2
  obtain ⟨ok, asked⟩ := askGroup_asks (s.setGroup g x) g a ou
  generalize s.setGroup g x = u at *
  dsimp only at result ⊢
  generalize u.askGroup g a = v at *
  obtain ⟨held, result⟩ := result
  have lights : ∀ k, (v.1.light (groupChan g k)).Order v.1.lights.ceiling (Item.fadeMs v.1.seq.values) (v.1.claim (loadLights g)).st := fun k => by
    rw [light_congr (s := u) (by rw [asked.lights]), asked.lights, asked.seq]
    exact (rests.lights k).mono held
  refine ⟨ok, by rw [asked.lights]; exact ceiling, result.imp (fun ⟨e, k⟩ => ⟨e, lights, by rw [asked.level]; exact k⟩)
    fun ⟨e, contests, asks, raised, ranked⟩ => ⟨e, lights, ?_⟩⟩
  rw [group, asked.seq, asked.level]
  refine ⟨fun y f k => ?_, fun f => ⟨by rw [pending]; rfl, contests f⟩, fun _ => asks, raised, ranked⟩
  rw [pending] at f
  cases f
  exact ⟨want k, trial k⟩

/-- The scales of a request, tried in turn (R153). -/
theorem tryScales_order (o : s.Ok) (h : s.GroupRests g) (low : s.lights.ceiling ≤ 1000) (r : GroupReq) (l : List Nat)
    (scales : ∀ x ∈ l, x ≤ 1000) (want : ∀ k, r.want.get k ≤ s.lights.ceiling) : (tryScales g r l s).GroupOrder g := by
  induction l generalizing r s with
  | nil => exact requestRefused_order o h r
  | cons x xs ih =>
    have trial := scaledTargets_le (s := s) (g := g) (scales x List.mem_cons_self) want
    rw [tryScales_cons]
    dsimp only
    split
    · next covers => exact requestTaken_order o h low trial (covered_held o h.rests covers)
    · next more =>
      have step := askGroup_order o h (r := { r with trial := s.scaledTargets g r.want x, scale := x })
        (fun k => (want k).trans low) (fun k => (trial k).trans low)
        (x := { s.group g with pending := some { r with trial := s.scaledTargets g r.want x, scale := x } }) rfl
        (a := s.scaleCover g r.want x) (by omega)
      dsimp only at step
      generalize (s.setGroup g _).askGroup g _ = v at *
      obtain ⟨ok, ceiling, ⟨refused, rests⟩ | ⟨none, order⟩⟩ := step
      · rw [if_pos refused]
        exact ih ok rests (by rw [ceiling]; exact low) _ (fun y m => scales y (List.mem_cons_of_mem _ m))
          (by rw [ceiling]; exact want)
      · rw [if_neg (by rw [none]; nofun), if_neg (by rw [none]; nofun)]
        exact order

/-- A change of a group's targets (R152). -/
theorem changeGroup_order (o : s.Ok) (h : s.GroupRests g) (none : (s.group g).pending = none) (low : s.lights.ceiling ≤ 1000)
    (t : Tab 4 Nat) (req : Nat) : (s.changeGroup g t req).GroupOrder g := by
  have le := capped_le s t
  rw [changeGroup_eq]
  dsimp only
  split
  · next covers =>
    refine State.GroupRests.order_none (takeTargets_rests o h low le (covered_held o h.rests covers)) ?_
    rw [takeTargets_pending, none]
  · next more =>
    have step := askGroup_order o h (r := s.requestFor t req) (fun k => (le k).trans low) (fun k => (le k).trans low)
      (x := { s.group g with pending := some (s.requestFor t req) }) rfl (a := s.covering g (s.capped t)) (by omega)
    dsimp only at step
    rw [show s.setGroup g { s.group g with pending := some (s.requestFor t req) } = s.proposed g t req from rfl] at step
    generalize (s.proposed g t req).askGroup g _ = v at *
    obtain ⟨ok, ceiling, ⟨refused, rests⟩ | ⟨none, order⟩⟩ := step
    · rw [if_pos refused]
      exact tryScales_order ok rests (by rw [ceiling]; exact low) _ _ scales_le (by rw [ceiling]; exact le)
    · rw [if_neg (by rw [none]; nofun), if_neg (by rw [none]; nofun)]
      exact order

/-! #### A request abandoned (R154) -/

/-- The claim after its ask has been withdrawn. -/
theorem withdrawAsk_rests (o : s.Ok)
    (lights : ∀ k, (s.light (groupChan g k)).Order s.lights.ceiling (Item.fadeMs s.seq.values) (s.claim (loadLights g)).st)
    (lit : (s.claim (loadLights g)).st = .held → (s.claim (loadLights g)).rank = 0 → 0 < s.broker.level)
    (serves : (s.claim (loadLights g)).Serves (s.live (loadLights g)) (loadLights g)) : (s.withdrawAsk g).GroupRests g := by
  obtain ⟨ok, asked⟩ := withdrawAsk_asks s g o
  have fits := o.claim (loadLights g)
  have claim : Claim.Rests s.broker.level ((s.withdrawAsk g).claim (loadLights g))
      ∧ ((s.claim (loadLights g)).st = .held → ((s.withdrawAsk g).claim (loadLights g)).st = .held) := by
    unfold State.withdrawAsk State.groupHeld
    rcases serves.lit_states with idle | contest | held
    · rw [idle]
      dsimp only
      exact ⟨⟨⟨.inl idle, by simp [Claim.contesting, idle], fun e => absurd (idle.symm.trans e) nofun⟩,
        Claim.unraised_of_away fits (by rw [idle]; nofun), fun e => absurd (idle.symm.trans e) nofun⟩, nofun⟩
    · rw [contest]
      dsimp only
      have claim := release_claim o (loadLights g)
      rw [if_neg (by rw [contest]; nofun)] at claim
      rw [claim]
      exact ⟨⟨⟨.inl rfl, rfl, nofun⟩, rfl, nofun⟩, nofun⟩
    · rw [held]
      dsimp only
      have draws : (s.claim (loadLights g)).drawing = true := by simp [Claim.drawing, held]
      have amount : min (s.claim (loadLights g)).held 30000 = (s.claim (loadLights g)).held := min_eq_left fits.2.1
      rw [raise_low held (by omega), amount, (lower_claim o (serves.draws draws) draws le_rfl).2]
      exact ⟨⟨⟨.inr held, by simp [Claim.contesting, Claim.lowered, held], fun _ => serves.lit_rank (by rw [held]; nofun)⟩, rfl, lit⟩,
        fun _ => held⟩
  refine ⟨fun k => ?_, by rw [asked.level]; exact claim.1⟩
  rw [light_congr (s := s) (by rw [asked.lights]), asked.lights, asked.seq]
  exact (lights k).mono claim.2

theorem abandonRequest_rests (o : s.Ok) (h : s.GroupOrder g)
    (serves : (s.claim (loadLights g)).Serves (s.live (loadLights g)) (loadLights g)) :
    (s.abandonRequest g).GroupRests g ∧ ((s.abandonRequest g).group g).pending = none := by
  unfold State.abandonRequest
  split
  · exact ⟨(withdrawAsk_rests o h.lights h.group.lit serves).congr rfl rfl rfl rfl rfl, by rw [group_setGroup, if_pos rfl]⟩
  · next waits =>
    have none : (s.group g).pending = none := by simpa using waits
    exact ⟨h.rests_of_none o serves none, none⟩

/-- A request that ends with its claim dealt with (R154, R156). -/
theorem requestEnds_order (h : s.GroupRests g) (outcome : Nat) : (s.requestEnds g outcome).GroupOrder g := by
  unfold State.requestEnds
  split
  · next none => exact h.order_none none
  · next r pending =>
    have set : (s.setGroup g { pending := none, result := .refused }).GroupRests g := h.congr rfl rfl rfl rfl rfl
    have ended : ((s.setGroup g { pending := none, result := .refused }).group g).pending = none := by
      rw [group_setGroup, if_pos rfl]
    dsimp only
    split
    · exact (finishRequest_rests set _).order_none (by rw [finishRequest_group]; exact ended)
    · unfold State.reviseOutcome
      split
      · exact State.GroupRests.order_none (set.congr rfl rfl rfl rfl rfl) ended
      · exact set.order_none ended

end

end Sys2Proof.Machine
end

