-- ==== Sys2Proof/Proofs/LampOrders.lean ====
section
/-! PROOFS. The Light Controller's operations, its own order aside (R149 to R159). -/

namespace Sys2Proof.Machine

/-! ### The Light Controller's operations, its own order aside (R149 to R159) -/

/-- All parts but the Light Controller's order and the courtesy light's waiting change. -/
def Part.unlit (p : Part → Prop) : Part → Prop := Part.but (Part.but p .lights) .due

theorem live_lights {s : State} {j : Fin 2} (live : s.live (loadLights j)) (g : Fin 2) : s.live (loadLights g) := by
  match j, g with
  | 0, 0 | 0, 1 | 1, 0 | 1, 1 => exact live

section
variable {p : Part → Prop} {s t : State}

theorem Part.unlit_lights : ¬ Part.unlit p .lights := fun m => m.2.1 rfl

theorem Part.unlit_due : ¬ Part.unlit p .due := fun m => m.1 rfl

/-- An operation on the lights: their order and the waiting change are arguments of their own. -/
theorem Leads.lamps (h : Leads (Part.unlit p) (Part.unlit p) s t) (lights : s.Ok → s.Order p → t.Ok → p .lights → t.LightsOrder)
    (due : s.Ok → s.Order p → t.Ok → p .due → t.dueWaits) : Leads p p s t :=
  Leads.mends .lights (Leads.mends .due (h.mono (fun _ m => m.2.2) fun x m => ⟨m.1, m.2.1, m.2.2⟩)
    fun o h ok _ m => due o h ok m.2) fun o h ok _ m => lights o h ok m

section
variable (off : ¬ p .lights) (idle : ¬ p .due)
include off idle

theorem setLights_off (s : State) (l : Lights) (ceiling : l.ceiling = s.lights.ceiling) : Leads p p s (s.setLights l) :=
  setLights_leads s l (fun m => absurd m off) (fun _ => ceiling) fun m => absurd m idle

theorem setGroup_off (s : State) (g : Fin 2) (x : Group) : Leads p p s (s.setGroup g x) := setLights_off off idle s _ (by rfl)

omit idle in
theorem amend_off (s : State) (g : Fin 2) : Leads p p s (s.amend g) := by
  have owner : ¬ p (.owner (loadLights g)) := by
    match g with
    | 0 | 1 => exact off
  exact Leads.ite (fun _ => Leads.ite (fun _ => release_leads s _ owner) fun _ => Leads.ite (fun _ => lower_leads s _ owner _)
    fun _ => Leads.refl p s) fun _ => Leads.refl p s

theorem takeTargets_off (s : State) (g : Fin 2) (x : Tab 4 Nat) : Leads p p s (s.takeTargets g x) := by
  rw [takeTargets_eq, aimed_eq]
  exact (setLights_off off idle s _ (by rfl)).trans (amend_off off _ g)

omit off idle in
theorem finishRequest_leads (s : State) (req : Nat) : Leads p p s (s.finishRequest req) :=
  Leads.ite (fun _ => Leads.refl p s) fun _ => reviseOutcome_leads s req _

theorem requestTaken_off (s : State) (g : Fin 2) (r : GroupReq) : Leads p p s (s.requestTaken g r) :=
  (setGroup_off off idle s g _).trans ((takeTargets_off off idle _ g _).trans (finishRequest_leads _ _))

theorem requestRefused_off (s : State) (g : Fin 2) (r : GroupReq) : Leads p p s (s.requestRefused g r) :=
  (setGroup_off off idle s g _).trans ((amend_off off _ g).trans (finishRequest_leads _ _))

omit idle in
theorem askGroup_off (acts : p (.live (loadLights 0))) (s : State) (g : Fin 2) {a : Nat} (some : 1 ≤ a) :
    Leads p p s (s.askGroup g a).1 := by
  have owner : ¬ p (.owner (loadLights g)) := by
    match g with
    | 0 | 1 => exact off
  have six : 6 ∈ loadRanks (loadLights g) := by
    match g with
    | 0 | 1 => decide
  unfold State.askGroup
  split
  · exact raise_leads s _ owner (loadLights_ge g) a
  · exact Leads.intro fun _ h => ask_leads s _ owner (live_lights (h.parts _ acts) g) some six fun _ => ⟨rfl, by decide⟩

theorem withdrawAsk_off (s : State) (g : Fin 2) : Leads p p s (s.withdrawAsk g) := by
  have owner : ¬ p (.owner (loadLights g)) := by
    match g with
    | 0 | 1 => exact off
  unfold State.withdrawAsk
  split
  · exact raise_leads s _ owner (loadLights_ge g) _
  · exact release_leads s _ owner
  · exact Leads.refl p s

theorem abandonRequest_off (s : State) (g : Fin 2) : Leads p p s (s.abandonRequest g) :=
  Leads.ite (fun _ => (withdrawAsk_off off idle s g).trans (setGroup_off off idle _ g _)) fun _ => Leads.refl p s

theorem requestEnds_off (s : State) (g : Fin 2) (outcome : Nat) : Leads p p s (s.requestEnds g outcome) := by
  unfold State.requestEnds
  split
  · exact Leads.refl p s
  · exact (setGroup_off off idle s g _).trans (Leads.ite (fun _ => finishRequest_leads _ _) fun _ => reviseOutcome_leads _ _ _)

section
variable (acts : p (.live (loadLights 0)))
include acts

theorem tryScales_off (g : Fin 2) (r : GroupReq) (l : List Nat) (s : State) : Leads p p s (tryScales g r l s) := by
  induction l generalizing r s with
  | nil => exact requestRefused_off off idle s g r
  | cons x xs ih =>
    rw [tryScales_cons]
    refine Leads.ite (fun _ => requestTaken_off off idle s g _) fun more => ?_
    have asked := (setGroup_off off idle s g { s.group g with
      pending := some { r with trial := s.scaledTargets g r.want x, scale := x } }).trans
      (askGroup_off off acts _ g (a := s.scaleCover g r.want x) (by omega))
    exact Leads.ite (fun _ => asked.trans (ih _ _)) fun _ => Leads.ite (fun _ => asked.trans (requestTaken_off off idle _ g _)) fun _ => asked

theorem changeGroup_off (s : State) (g : Fin 2) (x : Tab 4 Nat) (req : Nat) : Leads p p s (s.changeGroup g x req) := by
  rw [changeGroup_eq]
  refine Leads.ite (fun _ => takeTargets_off off idle s g _) fun more => ?_
  have asked : Leads p p s ((s.proposed g x req).askGroup g (s.covering g (s.capped x))).1 :=
    (setGroup_off off idle s g _).trans (askGroup_off off acts _ g (by omega))
  exact Leads.ite (fun _ => asked.trans (tryScales_off off idle acts g _ _ _)) fun _ => Leads.ite
    (fun _ => asked.trans (requestTaken_off off idle _ g _)) fun _ => asked

theorem courtesyChange_off (s : State) (ch : Fin 8) (d : CourtesyDue) : Leads p p s (s.courtesyChange ch d) := by
  unfold State.courtesyChange
  refine Leads.ite (fun _ => setLights_off off idle s _ (by rfl)) fun _ =>
    (setLights_off off idle s { s.lights with due := .none } rfl).trans ?_
  cases d with
  | none => exact Leads.refl p _
  | light => exact Leads.ite (fun _ => changeGroup_off off idle acts _ _ _ _) fun _ => Leads.refl p _
  | restore => exact changeGroup_off off idle acts _ _ _ _

end

end

/-! ### Changes of a group's targets (R152, R159) -/

/-- What the Light Controller's order does not speak of may change. -/
theorem setLights_marks (s : State) (l : Lights) (same : l = { s.lights with
      due := l.due, countdown := l.countdown, courtesy := l.courtesy, prevTarget := l.prevTarget, call := l.call, source := l.source
      scenes := l.scenes })
    (away : p .lights → (s.inRun = true ∧ s.seq.fns.lights = true ∨ s.lights.due = .none ∧ s.lights.countdown = none ∧ s.lights.courtesy = false) →
      s.inRun = true ∧ s.seq.fns.lights = true ∨ l.due = .none ∧ l.countdown = none ∧ l.courtesy = false)
    (named : p .lights → (s.lights.due ≠ .none → (Item.courtesy s.seq.values).isSome = true) → l.due ≠ .none →
      (Item.courtesy s.seq.values).isSome = true)
    (due : p .due → l.due = s.lights.due ∨ l.due = .none) : Leads p p s (s.setLights l) := by
  have chans : l.chans = s.lights.chans := by rw [same]
  have groups : l.groups = s.lights.groups := by rw [same]
  have ceiling : l.ceiling = s.lights.ceiling := by rw [same]
  refine setLights_leads s l (fun m k => ?_) (fun _ => ceiling) fun m k => ?_
  · refine ⟨ceiling.le.trans k.ceiling, fun ch => ?_, fun g => ?_, away m k.away, named m k.named⟩
    · show (l.chans.get ch).Order l.ceiling _ _
      rw [chans, ceiling]
      exact k.lights ch
    · show (l.groups.get g).Order _ _ _
      rw [groups]
      exact k.groups g
  · have k : s.dueWaits := k
    rcases due m with e | e
    · show l.due ≠ .none → ((Item.courtesy s.seq.values).any fun ch => (l.groups.get (groupOf ch)).pending.isSome) = true
      rw [e, groups]
      exact k
    · exact fun n => absurd e n

theorem changeGroup_leads (s : State) (acts : s.live (loadLights 0)) (g : Fin 2) (none : (s.group g).pending = none) (x : Tab 4 Nat) (req : Nat) :
    Leads p p s (s.changeGroup g x req) :=
  Leads.acts acts (Leads.lamps (changeGroup_off Part.unlit_lights Part.unlit_due ⟨nofun, nofun, .inl rfl⟩ s g x req)
    (fun o h _ m => by
      have lights : s.LightsOrder := h.parts _ m
      exact (changeGroup_regroup s g x req o).order h lights
        (changeGroup_order o ((lights.groupOrder g).rests_of_none o (h.serves _) none) none lights.ceiling x req))
    fun o h _ m => (changeGroup_regroup s g x req o).due (h.parts .due m) none)

/-- The courtesy channel's target falls due to change: it changes, or waits (R154, R159). -/
theorem courtesyChange_leads (s : State) (acts : s.live (loadLights 0)) {ch : Fin 8} (named : Item.courtesy s.seq.values = some ch)
    (d : CourtesyDue) : Leads (Part.but p .due) p s (s.courtesyChange ch d) := by
  have marks : ∀ d, Leads (Part.but p .due) (Part.but p .due) s (s.setLights { s.lights with due := d }) := fun d =>
    setLights_marks s _ rfl (fun _ _ => .inl acts) (fun _ _ _ => by rw [named]; rfl) fun m => absurd rfl m.1
  unfold State.courtesyChange
  refine Leads.ite (fun pending => ?_) fun still => ?_
  · refine Leads.mends .due (marks d) fun _ _ _ _ _ _ => ?_
    show ((Item.courtesy s.seq.values).any _) = true
    rw [named]
    exact pending
  · have cleared : Leads (Part.but p .due) p s (s.setLights { s.lights with due := .none }) :=
      Leads.mends .due (marks .none) fun _ _ _ _ _ n => absurd rfl n
    have none : ((s.setLights { s.lights with due := .none }).group (groupOf ch)).pending = Option.none := by
      show (s.group (groupOf ch)).pending = Option.none
      simpa using still
    refine cleared.trans ?_
    cases d with
    | none => exact Leads.refl p _
    | light => exact Leads.ite (fun _ => changeGroup_leads (s.setLights { s.lights with due := .none }) acts _ none _ _) fun _ => Leads.refl p _
    | restore => exact changeGroup_leads (s.setLights { s.lights with due := .none }) acts _ none _ _

/-- A courtesy change that waited is made, or waits on (R154, R159). -/
theorem courtesyResumes_leads (s : State) (lights : p .lights) : Leads (Part.but p .due) p s s.courtesyResumes := by
  unfold State.courtesyResumes
  refine Leads.intro fun _ h => ?_
  have order : s.LightsOrder := h.parts .lights ⟨nofun, lights⟩
  split
  · next nameless =>
    refine Leads.mends .due (Leads.refl _ s) fun _ _ _ _ _ waits => ?_
    have named := order.named waits
    rw [nameless] at named
    cases named
  · next ch named =>
    refine Leads.ite (fun none => Leads.mends .due (Leads.refl _ s) fun _ _ _ _ _ waits => absurd none waits) fun waits => ?_
    exact courtesyChange_leads s (order.away.resolve_right fun e => waits e.1) named _

/-- The courtesy call is worked out (R159). -/
theorem courtesyFollows_leads (s : State) (lost : Option Nat) : Leads p p s (s.courtesyFollows lost) := by
  unfold State.courtesyFollows
  split
  · exact Leads.refl p s
  · next acts =>
    have live : s.live (loadLights 0) := by
      simp only [Bool.not_eq_true', Bool.not_eq_false, Bool.and_eq_true] at acts
      exact ⟨acts.2, acts.1⟩
    split
    · exact Leads.refl p s
    · next ch named =>
      refine Leads.intro fun o _ => ?_
      rw [readAll_checked o.checked]
      dsimp only
      have marks : ∀ (u : State) (l : Lights), u.seq = s.seq → l = { u.lights with
          countdown := l.countdown, courtesy := l.courtesy, prevTarget := l.prevTarget, call := l.call, source := l.source } →
          Leads p p u (u.setLights l) := fun u l seq same =>
        setLights_marks u l (by rw [same]) (fun _ _ => .inl (by rw [State.inRun, seq]; exact live)) (fun _ k => by rw [same]; exact k)
          fun _ => .inl (by rw [same])
      split
      · next from_ _ =>
        refine (marks s { s.lights with call := true, source := from_ } rfl rfl).trans ?_
        have seq : (s.setLights { s.lights with call := true, source := from_ }).seq = s.seq := rfl
        generalize s.setLights { s.lights with call := true, source := from_ } = u at *
        refine Leads.ite (fun _ => Leads.refl p _) fun _ => Leads.ite (fun _ => marks u _ seq (by rfl)) fun _ => ?_
        refine (marks u { u.lights with courtesy := true, prevTarget := (u.light ch).target } seq rfl).trans ?_
        exact Leads.mono (p := Part.but p .due) (fun _ m => m.2) (fun _ m => m)
          (courtesyChange_leads (u.setLights { u.lights with courtesy := true, prevTarget := (u.light ch).target })
            ((live_congr seq _).mpr live) (show Item.courtesy u.seq.values = some ch by rw [seq]; exact named) .light)
      · refine (marks s { s.lights with call := false } rfl rfl).trans ?_
        exact Leads.ite (fun _ => marks _ _ (by rfl) (by rfl)) fun _ => Leads.refl p _

theorem stepSeen_leads (s : State) (ch : Fin 2) : Leads p p s (s.stepSeen ch) :=
  Leads.ite (fun _ => courtesyFollows_leads s none) fun _ => Leads.refl p s

end

end Sys2Proof.Machine
end

