-- ==== Sys2Proof/Proofs/CeilingOrders.lean ====
section
/-! PROOFS. Amends, the ceiling and fades keep every order (R150, R151, R155). -/

namespace Sys2Proof.Machine

/-! ### Amends, the ceiling and fades (R150, R151, R155) -/

section
variable {p : Part → Prop} {s : State} {g : Fin 2}

theorem amend_order (o : s.Ok) (h : s.GroupOrder g) (serves : (s.claim (loadLights g)).Serves (s.live (loadLights g)) (loadLights g)) :
    (s.amend g).GroupOrder g := by
  by_cases none : (s.group g).pending = none
  · refine (amend_rests o (h.rests_of_none o serves none)).order_none ?_
    unfold State.group
    rw [amend_lights]
    exact none
  · have same : s.amend g = s := if_neg (by
      intro e
      simp only [Bool.and_eq_true] at e
      exact none ((settled_iff s g).mp e.1).2)
    rw [same]
    exact h

theorem amend_leads (s : State) (g : Fin 2) : Leads p p s (s.amend g) := by
  refine Leads.lamps (amend_off Part.unlit_lights s g) (fun o h _ m => ?_) fun _ h _ m => ?_
  · have lights : s.LightsOrder := h.parts _ m
    exact ((amend_asks s g).regroup o).order h lights (amend_order o (lights.groupOrder g) (h.serves _))
  · have due : s.dueWaits := h.parts _ m
    unfold State.dueWaits State.group
    rw [amend_lights, (amend_shared s g).seq]
    exact due

theorem ceilingNow_le (s : State) : s.ceilingNow ≤ 1000 := by
  unfold State.ceilingNow
  split
  · decide
  · split <;> decide

/-- The ceiling follows, and with it the targets (R155). -/
theorem ceilingFollows_leads (s : State) : Leads (Part.but p .ceiling) p s s.ceilingFollows := by
  unfold State.ceilingFollows
  dsimp only
  refine Leads.trans (q := p) (Leads.mends .ceiling ?_ fun _ _ _ _ _ => ?_) ((amend_leads _ 0).trans (amend_leads _ 1))
  · refine setLights_leads s _ (fun _ k => ?_) (fun m => absurd rfl m.1) fun _ k => k
    refine ⟨ceilingNow_le s, fun ch => ?_, k.groups, k.away, k.named⟩
    have light := k.lights ch
    show Light.Order s.ceilingNow _ _ (Tab.get (s.lights.chans.map _) ch)
    rw [Tab.get_map]
    split
    · next above => exact light.retarget le_rfl (ceilingNow_le s) fun _ => light.lit (.inr (by show 0 < (s.light ch).target; exact Nat.zero_lt_of_lt above))
    · next under => exact { light with target := not_lt.mp under }
  · rfl

/-- A fade step (R150, R151). -/
theorem fadeStepped_leads (s : State) (ch : Fin 8) (runs : (s.light ch).stepTimer.isSome = true) : Leads p p s (s.fadeStepped ch) := by
  refine Leads.trans (q := p) (setLights_leads s { s.lights with
    chans := s.lights.chans.set ch ((s.light ch).fadeStep (Item.fadeMs s.seq.values)) } (fun _ k => ?_) (fun _ => rfl) fun _ k => k) (amend_leads _ _)
  refine ⟨k.ceiling, fun j => ?_, k.groups, k.away, k.named⟩
  have light := light_setLight s ch j ((s.light ch).fadeStep (Item.fadeMs s.seq.values))
  show State.light (s.setLight ch _) j |>.Order _ _ _
  rw [light]
  split
  · next same =>
    subst same
    exact (k.lights _).fadeStep k.ceiling (((k.lights ch).step).mp runs)
  · exact k.lights j

/-! ### A group's contest ends (R38 to R40, R152 to R154) -/

/-- What a contest of a light group says of the ceiling (R37, R155). -/
theorem contest_ceiling (h : s.Order p) (lights : s.LightsOrder) (calm : Claim.Bears s.broker.level (loadLights g) (s.claim (loadLights g)))
    (ceiling : s.lights.ceiling = s.ceilingNow) (contesting : (s.claim (loadLights g)).contesting = true) :
    s.lights.ceiling = 1000 := by
  have group := lights.groups g
  have serves := h.serves (loadLights g)
  have st := contesting_stands contesting
  have pos : (s.claim (loadLights g)).rank ≠ 0 := by
    simp only [Claim.contesting, Bool.or_eq_true, Bool.and_eq_true, beq_iff_eq] at contesting
    rcases contesting with e | e
    · exact serves.ranked (.inl e)
    · exact group.raised e.2
  have six := (serves.lit_rank st).resolve_left pos
  have low := calm.contests contesting
  rw [askRank, if_neg (fun e => pos e.2.1), six] at low
  have level : s.broker.level = 0 := by omega
  rw [ceiling, State.ceilingNow, if_neg (by rw [(group.contests contesting).2]; nofun), level] <;> rfl

/-- A group whose claim's contest has ended rests. -/
theorem ended_rests {u : State} {c : Claim} (h : s.GroupOrder g) (lights : u.lights = s.lights) (seq : u.seq = s.seq)
    (level : u.broker.level = s.broker.level) (claim : u.claim (loadLights g) = c) (rests : Claim.Rests s.broker.level c)
    (held : (s.claim (loadLights g)).st = .held → c.st = .held) : u.GroupRests g := by
  refine ⟨fun k => ?_, by rw [level, claim]; exact rests⟩
  rw [light_congr (s := s) (by rw [lights]), lights, seq, claim]
  exact (h.lights k).mono held

theorem Claim.toHeld_rests {level : Nat} {c : Claim} (a : Nat) (rank : c.rank = 0 ∨ c.rank = 6) (pos : c.rank = 0 → 0 < level) :
    Claim.Rests level (c.toHeld a) :=
  ⟨⟨.inr rfl, rfl, fun _ => rank⟩, rfl, fun _ => pos⟩

theorem Claim.toIdle_rests (level : Nat) (c : Claim) : Claim.Rests level c.toIdle := ⟨⟨.inl rfl, rfl, nofun⟩, rfl, nofun⟩

/-- A light group's claim after its contest is lost (R38, R153). -/
theorem lose_rests {level : Nat} {live : Prop} {c : Claim} (serves : c.Serves live (loadLights g)) (contesting : c.contesting = true)
    (pos : c.st = .held → c.rank = 0 → 0 < level) : Claim.Rests level c.lose ∧ (c.st = .held → c.lose.st = .held) ∧ c.lossReply = .lost := by
  unfold Claim.lose Claim.lossReply
  by_cases held : c.st = .held
  · rw [if_pos held, if_pos (.inl held)]
    exact ⟨Claim.toHeld_rests _ (serves.lit_rank (by rw [held]; nofun)) (pos held), fun _ => rfl, rfl⟩
  · have contest : c.st = .contest := by simpa [Claim.contesting, held] using contesting
    have single := (serves.lit (loadLights_ge g)).2 contest
    rw [if_neg held, if_pos single, if_pos (.inr single)]
    exact ⟨Claim.toIdle_rests _ _, fun e => absurd e held, rfl⟩

theorem report_lightsGranted (u : State) (g : Fin 2) : u.report (loadLights g) .granted = u.lightsGranted g := by
  match g with
  | 0 | 1 => rfl

theorem report_lightsLost (u : State) (g : Fin 2) : u.report (loadLights g) .lost = u.lightsLost g := by
  match g with
  | 0 | 1 => rfl

/-- After a group's request has been told its fate the waiting change of the courtesy light is made (R154, R159). -/
theorem lightsTold_leads {t : State} (lights : p .lights) (off : Leads (Part.unlit p) (Part.unlit p) s t) (alone : Regroup g s t)
    (own : s.Ok → s.Order p → t.GroupOrder g) : Leads p p s t.courtesyResumes := by
  refine Leads.trans (q := Part.but p .due) ?_ (courtesyResumes_leads t lights)
  refine Leads.mends .lights (off.mono (fun _ m => m.2.2) fun x m => ⟨m.2.1, m.1, m.2.2⟩) fun o h _ _ _ => ?_
  exact (alone o).order h (h.parts _ lights) (own o h)

section
variable (lights : p .lights) (ceil : p .ceiling) (calm : p (.calm (loadLights g)))
include lights ceil calm

/-- The lost contest of a group: the next scale is tried (R153). -/
theorem lightsLose_leads {u : State} (contesting : (s.claim (loadLights g)).contesting = true)
    (asks : Asks (· = loadLights g) s u) (off : Leads (Part.unlit p) (Part.unlit p) s u)
    (claim : u.claim (loadLights g) = (s.claim (loadLights g)).lose) : Leads p p s (u.report (loadLights g) (s.claim (loadLights g)).lossReply) := by
  refine Leads.intro fun o h => Leads.acts (live_lights (h.live (contesting_stands contesting)) 0) ?_
  have order : s.LightsOrder := h.parts _ lights
  have group := order.groupOrder g
  obtain ⟨rests, held, reply⟩ := lose_rests (h.serves (loadLights g)) contesting group.group.lit
  obtain ⟨ok, asked⟩ := asks o
  have pending := (group.group.contests contesting).1
  obtain ⟨r, e⟩ := Option.isSome_iff_exists.mp pending
  have same : (u.group g).pending = some r := by
    rw [State.group, asked.lights]
    exact e
  have told : u.lightsLost g = (tryScales g r ([750, 500, 250].filter (· < r.scale)) u).courtesyResumes := by
    unfold State.lightsLost
    rw [same]
  rw [reply, report_lightsLost, told]
  have high := contest_ceiling h order (h.parts _ calm) (h.parts _ ceil) contesting
  have acting : Leads (Part.unlit (Part.with p (.live (loadLights 0)))) (Part.unlit (Part.with p (.live (loadLights 0)))) s u := by
    intro o k
    obtain ⟨ok, order⟩ := off o (k.mono fun _ m => ⟨m.1, m.2.1, .inr m.2.2⟩)
    refine ⟨ok, order.values, order.level, order.remembered, order.serves, fun x m => ?_⟩
    rcases m.2.2 with rfl | n
    · exact (live_congr asked.seq _).mpr (k.parts _ m)
    · exact order.parts x ⟨m.1, m.2.1, n⟩
  refine lightsTold_leads (.inr lights) (acting.trans (tryScales_off Part.unlit_lights Part.unlit_due ⟨nofun, nofun, .inl rfl⟩ g r _ u))
    (asks.regroup.trans (tryScales_regroup g r _ u)) fun _ _ => ?_
  refine tryScales_order ok (ended_rests group asked.lights asked.seq asked.level claim rests held) (by rw [asked.lights, high]) r _
    (fun x m => scales_le x (List.mem_of_mem_filter m)) fun k => ?_
  rw [asked.lights, high]
  exact ((group.group.levels r e) k).1

/-- The end of the window of a group's contest (R39, R152). -/
theorem lightsWindow_leads (contesting : (s.claim (loadLights g)).contesting = true) :
    Leads p p s ((s.windowEnd (loadLights g)).1.report (loadLights g) (s.windowEnd (loadLights g)).2) := by
  have owner : ¬ Part.unlit p (.owner (loadLights g)) := by
    match g with
    | 0 | 1 => exact Part.unlit_lights
  refine Leads.intro fun o h => ?_
  have asks := windowEnd_asks s (loadLights g)
  have off := windowEnd_leads (p := Part.unlit p) s (loadLights g) owner contesting
  rw [windowEnd_eq o] at asks off ⊢
  split
  · next won =>
    rw [if_pos won] at asks off
    have order : s.LightsOrder := h.parts _ lights
    have group := order.groupOrder g
    have st := contesting_stands contesting
    obtain ⟨r, e⟩ := Option.isSome_iff_exists.mp (group.group.contests contesting).1
    have high := contest_ceiling h order (h.parts _ calm) (h.parts _ ceil) contesting
    obtain ⟨ok, asked⟩ := asks o
    have claim : (s.putClaim (loadLights g) ((s.claim (loadLights g)).toHeld (s.claim (loadLights g)).asked)).claim (loadLights g) = _ :=
      claim_putClaim_self s (loadLights g) _
    have pos : (s.claim (loadLights g)).rank = 0 → 0 < s.broker.level := fun zero => by
      by_cases held : (s.claim (loadLights g)).st = .held
      · exact group.group.lit held zero
      · have contest : (s.claim (loadLights g)).st = .contest := by simpa [Claim.contesting, held] using contesting
        exact absurd zero ((h.serves (loadLights g)).ranked (.inl contest))
    dsimp only at asked ok off ⊢
    generalize s.putClaim (loadLights g) _ = u at *
    have told : u.lightsGranted g = (u.requestTaken g r).courtesyResumes := by
      have same : (u.group g).pending = some r := by
        rw [State.group, asked.lights]
        exact e
      unfold State.lightsGranted
      rw [same]
    rw [report_lightsGranted, told]
    refine lightsTold_leads lights (off.trans (requestTaken_off Part.unlit_lights Part.unlit_due u g r))
      (Regroup.trans asks.regroup (requestTaken_regroup u g r)) fun _ _ => ?_
    have levels := group.group.levels r e
    refine requestTaken_order ok (ended_rests group asked.lights asked.seq asked.level claim
      (Claim.toHeld_rests _ ((h.serves (loadLights g)).lit_rank st) pos) fun _ => rfl) (by rw [asked.lights, high]) (fun k => ?_) fun _ _ => ?_
    · rw [asked.lights, high]
      exact (levels k).2
    · rw [claim]
      rfl
  · next lost =>
    rw [if_neg lost] at asks off
    exact lightsLose_leads lights ceil calm contesting asks off (claim_putClaim_self s (loadLights g) _)

/-- The failure of the announcement of a group's contest (R38, R153). -/
theorem lightsUnsent_leads (tag : Nat) : Leads p p s
    ((s.announceFailed (loadLights g) tag).1.report (loadLights g) (s.announceFailed (loadLights g) tag).2) := by
  have owner : ¬ Part.unlit p (.owner (loadLights g)) := by
    match g with
    | 0 | 1 => exact Part.unlit_lights
  have asks := announceFailed_asks s (loadLights g) tag
  have off := announceFailed_leads (p := Part.unlit p) s (loadLights g) owner tag
  unfold State.announceFailed at *
  dsimp only at *
  split at asks
  · next given =>
    rw [if_pos given] at off ⊢
    simp only [Bool.and_eq_true] at given
    exact lightsLose_leads lights ceil calm given.1.1 asks off (claim_setClaim_self s (loadLights g) _)
  · next not =>
    rw [if_neg not]
    exact Leads.refl p s

end

/-! ### A group yields to the level (R40, R49, R154, R156) -/

section
variable (idle : ¬ p .due)
include idle

/-- A group's contest ended by the level ends its request (R40, R154). -/
theorem lightsEnded_leads (contest : (s.claim (loadLights g)).st = .contest) :
    Leads p (Part.with p (.calm (loadLights g))) s
      ((s.contestYields (loadLights g)).1.lostToLevel (loadLights g) (s.contestYields (loadLights g)).2) := by
  have owner : ¬ Part.but p .lights (.owner (loadLights g)) := by
    match g with
    | 0 | 1 => exact Part.but_not _ _
  have contesting : (s.claim (loadLights g)).contesting = true := by simp [Claim.contesting, contest]
  refine Leads.intro fun o h => ?_
  have told : (s.contestYields (loadLights g)).1.lostToLevel (loadLights g) (s.contestYields (loadLights g)).2
      = (s.contestYields (loadLights g)).1.lightsYield g := by
    have reply : (s.contestYields (loadLights g)).2 = .lost := by
      show (s.claim (loadLights g)).lossReply = .lost
      exact if_pos (.inr (((h.serves (loadLights g)).lit (loadLights_ge g)).2 contest))
    rw [reply]
    match g with
    | 0 | 1 => rfl
  rw [told]
  refine Leads.ends (contestYields_leads s _ owner contest)
    (requestEnds_off (fun m => m.elim nofun (Part.but_not _ _)) (fun m => m.elim nofun fun n => idle n.2) _ g _) nofun fun o h _ m => ?_
  have order : s.LightsOrder := h.parts _ m
  have group := order.groupOrder g
  obtain ⟨rests, held, -⟩ := lose_rests (h.serves (loadLights g)) contesting group.group.lit
  obtain ⟨ok, asked⟩ := contestYields_asks s (loadLights g) o
  refine (Regroup.trans (contestYields_asks s (loadLights g)).regroup (requestEnds_regroup _ g _) o).order h order (requestEnds_order ?_ _)
  exact ended_rests group asked.lights asked.seq asked.level (claim_putClaim_self s (loadLights g) _) rests held

/-- A Held group yields by completion, and its request ends (R50, R154, R156). -/
theorem lightsYield_leads (held : (s.claim (loadLights g)).st = .held) (yields : 0 < s.broker.level) :
    Leads p (Part.with p (.calm (loadLights g))) s ((s.complete (loadLights g)).lightsYield g) := by
  have owner : ¬ Part.but p .lights (.owner (loadLights g)) := by
    match g with
    | 0 | 1 => exact Part.but_not _ _
  have zero : 0 ∈ loadRanks (loadLights g) := by
    match g with
    | 0 | 1 => decide
  refine Leads.ends (complete_leads s _ owner held (fun _ => yields) zero)
    (requestEnds_off (fun m => m.elim nofun (Part.but_not _ _)) (fun m => m.elim nofun fun n => idle n.2) _ g _) nofun fun o h _ m => ?_
  have order : s.LightsOrder := h.parts _ m
  obtain ⟨ok, asked⟩ := complete_asks s (loadLights g) o
  refine (Regroup.trans (complete_asks s (loadLights g)).regroup (requestEnds_regroup _ g _) o).order h order (requestEnds_order ?_ _)
  exact ended_rests (order.groupOrder g) asked.lights asked.seq asked.level (complete_claim s (loadLights g))
    ⟨⟨.inr rfl, rfl, fun _ => .inl rfl⟩, rfl, fun _ _ => yields⟩ fun _ => rfl

end

end

end Sys2Proof.Machine
end

