-- ==== Sys2Proof/Proofs/ChanOrders.lean ====
section
/-! PROOFS. A channel's order through the changes of its state (R126 to R137). -/

namespace Sys2Proof.Machine

/-! ### A channel's order through the changes of its state (R126 to R137) -/

/-- No calibration runs, and none has left a reading. -/
def Chan.uncalibrating (c : Chan) : Prop := c.calTimer = none ∧ c.calSum = 0

theorem not_isSome {α : Type} {x : Option α} (h : x = none) : ¬ x.isSome = true := by
  rw [h]
  nofun

/-- A channel at rest does not move, and its bridge is off (R126). -/
theorem Chan.still_of_atRest {c : Chan} (h : c.atRest = true) : c.moving = false ∧ c.st.bridge = .off := by
  unfold Chan.atRest at h
  unfold Chan.moving MState.bridge
  cases st : c.st <;> rw [st] at h <;> simp at h ⊢

section
variable {runs : Bool} {c : Chan} {k : ClaimState}

theorem ChanOrder.uncalibrating (h : ChanOrder runs c k) (away : c.atRest = false) : c.uncalibrating := by
  have none : c.calTimer = none := by
    rw [← Option.not_isSome_iff_eq_none]
    exact fun e => absurd (away.symm.trans (h.calibrates e).1) nofun
  exact ⟨none, h.calSum none⟩

theorem Chan.uncalibrating.calLeft (h : c.uncalibrating) : c.calTimer.getD 0 ≤ Config.calibrationMs := by
  rw [h.1]
  exact Nat.zero_le _

/-- A channel that brakes, its claim Idle or kept for the move that follows on (R132). -/
theorem ChanOrder.braked (cal : c.uncalibrating) {f : Move} (claim : k = .idle ∧ f ≠ .backoff ∨ f.isMove = true ∧ k = .held) (req : Nat) :
    ChanOrder true (c.braked f req) k where
  bridge := rfl
  follows _ := rfl
  backs := nofun
  settles := nofun
  active _ := rfl
  braking _ := .inl rfl
  moving := nofun
  travel := ⟨nofun, fun e => e.elim nofun nofun⟩
  backoff := ⟨nofun, nofun⟩
  dwell := ⟨fun _ => rfl, fun _ => rfl⟩
  stall := nofun
  calibrates e := absurd e (not_isSome cal.1)
  calLeft := cal.calLeft
  calSum _ := cal.2
  idle := nofun
  protective := nofun
  held e := by
    rcases e with e | e
    · cases e
    · exact claim.elim (fun h => absurd e h.2) fun h => h.2
  kept _ := claim.imp (fun h => h.1) fun h => h
  freed := nofun

/-- A channel on a move, its claim Held (R130). -/
theorem ChanOrder.started (cal : c.uncalibrating) (held : k = .held) (m : Move) (travel : Nat) (stall : Timer) :
    ChanOrder true (c.started m travel stall) k := by
  have st : (c.started m travel stall).st = .extending ∨ (c.started m travel stall).st = .retracting := by
    unfold Chan.started
    dsimp only
    split
    · exact .inl rfl
    · exact .inr rfl
  have moving : (c.started m travel stall).moving = true := by
    unfold Chan.moving
    rcases st with e | e <;> rw [e]
  have rest : (c.started m travel stall).atRest = false := by
    unfold Chan.atRest
    rcases st with e | e <;> rw [e]
  have out : ∀ x : MState, x ≠ .extending → x ≠ .retracting → (c.started m travel stall).st ≠ x := fun x a b e => by
    rcases st with f | f
    · exact a (e.symm.trans f)
    · exact b (e.symm.trans f)
  exact {
    bridge := by
      unfold Chan.started
      dsimp only
      split <;> rfl
    follows := fun e => absurd rfl e
    backs := nofun
    settles := nofun
    active := fun _ => rfl
    braking := fun e => absurd e (out _ nofun nofun)
    moving := fun _ => .inl rfl
    travel := ⟨fun _ => st, fun _ => rfl⟩
    backoff := ⟨nofun, fun e => absurd e (out _ nofun nofun)⟩
    dwell := ⟨nofun, fun e => absurd e (out _ nofun nofun)⟩
    stall := fun _ => moving
    calibrates := fun e => absurd e (not_isSome cal.1)
    calLeft := cal.calLeft
    calSum := fun _ => cal.2
    idle := nofun
    protective := fun e => by
      have e : (m == .protective) = true := e
      have m : m = .protective := by simpa using e
      subst m
      rfl
    held := fun _ => held
    kept := fun e => absurd e (out _ nofun nofun)
    freed := fun e => absurd (rest.symm.trans e) nofun }

/-- A channel that backs off, its claim Held (R135). -/
theorem ChanOrder.backs_off (cal : c.uncalibrating) (held : k = .held) (stall : Timer) : ChanOrder true { c with
    st := .backoff, bridge := .retract, pending := .none, followOn := .none, protective := false, req := 0
    travel := none, stall := stall, backoff := some Config.backoffMs, dwell := none, idle := none } k where
  bridge := rfl
  follows e := absurd rfl e
  backs := nofun
  settles := nofun
  active _ := rfl
  braking := nofun
  moving _ := .inl rfl
  travel := ⟨nofun, fun e => e.elim nofun nofun⟩
  backoff := ⟨fun _ => rfl, fun _ => rfl⟩
  dwell := ⟨nofun, nofun⟩
  stall _ := rfl
  calibrates e := absurd e (not_isSome cal.1)
  calLeft := cal.calLeft
  calSum _ := cal.2
  idle := nofun
  protective := nofun
  held _ := held
  kept := nofun
  freed := nofun

/-- A channel that settles at rest, with nothing pending only when its claim is Idle (R132, R137). -/
theorem ChanOrder.settled (cal : c.uncalibrating) (timers : c.travel = none ∧ c.stall = none ∧ c.backoff = none) {st : MState}
    {pending : Move} {req : Nat} (rest : (c.settled st pending req).atRest = true) (move : pending ≠ .backoff ∧ pending ≠ .settleFault)
    (active : pending ≠ .none → runs = true) (idle : pending = .none → k = .idle) : ChanOrder runs (c.settled st pending req) k := by
  have out : ∀ x : MState, Chan.atRest { c with st := x } = false → (c.settled st pending req).st ≠ x := fun x a e => by
    unfold Chan.atRest at rest a
    rw [e] at rest
    exact absurd (a.symm.trans rest) nofun
  obtain ⟨still, bridge⟩ := Chan.still_of_atRest rest
  exact {
    bridge := bridge.symm
    follows := fun e => absurd rfl e
    backs := move.1
    settles := move.2
    active := fun e => active (e.resolve_left fun f => absurd (f.symm.trans rest) nofun)
    braking := fun e => absurd e (out _ rfl)
    moving := fun e => absurd (still.symm.trans e) nofun
    travel := ⟨fun e => absurd e (not_isSome timers.1), fun e => e.elim (fun e => absurd e (out _ rfl)) fun e => absurd e (out _ rfl)⟩
    backoff := ⟨fun e => absurd e (not_isSome timers.2.2), fun e => absurd e (out _ rfl)⟩
    dwell := ⟨nofun, fun e => absurd e (out _ rfl)⟩
    stall := fun e => absurd e (not_isSome timers.2.1)
    calibrates := fun e => absurd e (not_isSome cal.1)
    calLeft := cal.calLeft
    calSum := fun _ => cal.2
    idle := fun e => ⟨rest, by
      have e : (if pending = .none then some 600000 else none : Timer).isSome = true := e
      split at e
      · next none => exact none
      · cases e⟩
    protective := nofun
    held := fun e => e.elim (fun e => absurd (still.symm.trans e) nofun) nofun
    kept := fun e => absurd e (out _ rfl)
    freed := fun _ => idle }

end

end Sys2Proof.Machine
end

