-- ==== Sys2Proof/Proofs/ChanMoves.lean ====
section
/-! PROOFS. Dwells, arrivals, starts and rests keep every order (R130 to R137). -/

namespace Sys2Proof.Machine

/-! ### Dwells, arrivals, starts and rests keep every order (R130 to R137) -/

/-- A channel's order does not see its faults, its offset and its request. -/
theorem ChanOrder.marks {runs : Bool} {c d : Chan} {k : ClaimState} (h : ChanOrder runs c k) (same : d = { c with
    stalled := d.stalled, travelFault := d.travelFault, offset := d.offset, req := d.req }) : ChanOrder runs d k := by
  rw [same]
  exact { h with }

section
variable {p : Part → Prop} (s : State) (ch : Fin 2)

theorem stepSeen_seq : (s.stepSeen ch).seq = s.seq := by
  have lit : s.stepSeen ch = _ := stepSeen_lit s ch
  rw [lit]

theorem motor_owner : ¬ Part.but p (.chan ch) (.owner (loadMotor ch)) := by
  match ch with
  | 0 | 1 => exact Part.but_not _ _

theorem live_motor (runs : s.motionRuns = true) : s.live (loadMotor ch) := by
  unfold State.motionRuns at runs
  rw [Bool.and_eq_true] at runs
  match ch with
  | 0 | 1 => exact ⟨runs.2, runs.1⟩

theorem setChan_off (c : Chan) : Leads (Part.but p (.chan ch)) (Part.but p (.chan ch)) s (s.setChan ch c) :=
  setChan_leads s ch c fun m => absurd m (Part.but_not _ _)

variable {s ch} in
/-- An operation that puts the channel and its claim in order. -/
theorem Leads.chan {t : State} (h : Leads (Part.but p (.chan ch)) (Part.but p (.chan ch)) s t)
    (own : s.Ok → s.Order (Part.but p (.chan ch)) → t.Ok → t.seq = s.seq ∧ ChanOrder s.motionRuns (t.chan ch) (t.claim (loadMotor ch)).st) :
    Leads (Part.but p (.chan ch)) p s t :=
  Leads.mends (.chan ch) h fun o k ok _ _ => by
    obtain ⟨seq, order⟩ := own o k ok
    show t.chanFits ch
    rw [chanFits_iff, motionRuns_of_seq seq]
    exact order

/-- A fault, or a new offset: no order sees it. -/
theorem setChan_marks (d : Chan) (same : d = { s.chan ch with
    stalled := d.stalled, travelFault := d.travelFault, offset := d.offset, req := d.req }) : Leads p p s (s.setChan ch d) :=
  setChan_leads s ch d fun _ k => by
    rw [chanFits_iff, chan_setChan_self]
    exact ((chanFits_iff s ch).mp k).marks same

theorem clearStall_leads : Leads p p s (s.clearStall ch) :=
  Leads.ite (fun _ => (setChan_marks s ch _ (by rfl)).trans (monitor_leads _ _ _)) fun _ => Leads.refl p s

theorem clearTravelFault_leads : Leads p p s (s.clearTravelFault ch) :=
  Leads.ite (fun _ => (setChan_marks s ch _ (by rfl)).trans (monitor_leads _ _ _)) fun _ => Leads.refl p s

theorem declareTravelFault_leads : Leads p p s (s.declareTravelFault ch) :=
  Leads.ite (fun _ => Leads.refl p s) fun _ => (setChan_marks s ch _ (by rfl)).trans (monitor_leads _ _ _)

theorem brake_off (f : Move) (req : Nat) (keep : Bool) :
    Leads (Part.but p (.chan ch)) (Part.but p (.chan ch)) s (s.brake ch f req keep) :=
  (setChan_off s ch _).trans ((Leads.ite (fun _ => Leads.refl _ _) fun _ => release_leads _ _ (motor_owner ch)).trans (stepSeen_leads _ ch))

/-- A channel enters Braking in Run (R132). -/
theorem brake_leads (runs : s.motionRuns = true) (cal : (s.chan ch).uncalibrating) (f : Move) (req : Nat) (keep : Bool)
    (back : f = .backoff → keep = true ∧ (s.claim (loadMotor ch)).st = .held) :
    Leads (Part.but p (.chan ch)) p s (s.brake ch f req keep) := by
  refine (brake_off s ch f req keep).chan fun o _ _ => ⟨(brake_moved s ch f req keep).seq, ?_⟩
  rw [(brake_puts s ch f req keep).chan, runs]
  refine ChanOrder.braked cal ?_ req
  by_cases kept : keep = true ∧ f.isMove = true ∧ (s.claim (loadMotor ch)).st = .held
  · obtain ⟨keeps, moves, held⟩ := kept
    rw [brake_keeps o keeps moves held]
    exact .inr ⟨moves, held⟩
  · refine .inl ⟨brake_frees o ?_, fun e => kept ⟨(back e).1, by rw [e]; rfl, (back e).2⟩⟩
    by_cases keeps : keep = true
    · by_cases moves : f.isMove = true
      · exact .inr (.inr fun held => kept ⟨keeps, moves, held⟩)
      · exact .inr (.inl (by simpa using moves))
    · exact .inl (by simpa using keeps)

theorem arriveAt_leads (runs : s.motionRuns = true) (cal : (s.chan ch).uncalibrating) :
    Leads (Part.but p (.chan ch)) p s (s.arriveAt ch) := by
  unfold State.arriveAt
  dsimp only
  refine (brake_leads s ch runs cal _ _ false ?_).trans ((clearStall_leads _ ch).trans
    (Leads.ite (fun _ => Leads.refl p _) fun _ => clearTravelFault_leads _ ch))
  split <;> nofun

theorem begun_leads (runs : s.motionRuns = true) (cal : (s.chan ch).uncalibrating) : Leads p p s (s.begun ch) := by
  refine (stepSeen_leads s ch).trans ?_
  refine Leads.intro fun _ _ => Leads.ite (fun _ => ?_) fun _ => Leads.refl p _
  have seq := stepSeen_seq s ch
  exact (arriveAt_leads (s.stepSeen ch) ch (by rw [motionRuns_of_seq seq]; exact runs)
    (by rw [chan_of_motion (stepSeen_motion s ch)]; exact cal)).mono (fun _ m => m.2) fun _ m => m

/-- A move starts with its claim Held (R130). -/
theorem startMove_leads (m : Move) (runs : s.motionRuns = true) (cal : (s.chan ch).uncalibrating)
    (held : (s.claim (loadMotor ch)).st = .held) : Leads (Part.but p (.chan ch)) p s (s.startMove ch m) := by
  obtain ⟨-, seq, broker, -⟩ := moveBegins_rest s ch m
  have chan := (moveBegins_puts s ch m).chan
  rw [startMove_eq]
  refine Leads.trans (q := p) (Leads.chan ?_ fun _ _ _ => ⟨seq, ?_⟩) (begun_leads _ ch (by rw [motionRuns_of_seq seq]; exact runs)
    (by rw [chan]; exact cal))
  · exact (setChan_off s ch _).trans ((setDue_leads _ _).trans (reviseOutcome_leads _ _ _))
  · rw [chan, runs, State.claim, broker]
    exact ChanOrder.started cal held m _ _

/-- A Backoff starts with its claim Held (R135). -/
theorem startBackoff_leads (runs : s.motionRuns = true) (cal : (s.chan ch).uncalibrating)
    (held : (s.claim (loadMotor ch)).st = .held) : Leads (Part.but p (.chan ch)) p s (s.startBackoff ch) := by
  unfold State.startBackoff
  dsimp only
  refine Leads.trans (q := p) (Leads.chan (setChan_off s ch _) fun _ _ _ => ⟨rfl, ?_⟩) (begun_leads _ ch runs (by
    show Chan.uncalibrating ((s.setChan ch _).chan ch)
    rw [chan_setChan_self]
    exact cal))
  rw [chan_setChan_self, runs]
  exact ChanOrder.backs_off cal held _

/-- A channel settles at rest (R132, R137). -/
theorem settle_leads (st : MState) (pending : Move) (req : Nat) (cal : (s.chan ch).uncalibrating)
    (timers : (s.chan ch).travel = none ∧ (s.chan ch).stall = none ∧ (s.chan ch).backoff = none)
    (rest : ((s.chan ch).settled st pending req).atRest = true) (move : pending ≠ .backoff ∧ pending ≠ .settleFault)
    (active : pending ≠ .none → s.motionRuns = true) (idle : pending = .none → (s.claim (loadMotor ch)).st = .idle) :
    Leads (Part.but p (.chan ch)) p s (s.settle ch st pending req) := by
  refine Leads.chan ((setChan_off s ch _).trans (stepSeen_leads _ ch)) fun o _ _ => ⟨?_, ?_⟩
  · exact stepSeen_seq (s.modChan ch _) ch
  · rw [(settle_puts s ch st pending req).chan]
    refine ChanOrder.settled cal timers rest move active fun none => ?_
    exact (Claim.stirs_held (settle_stirs s ch st pending req o) .idle ⟨nofun, nofun⟩).mpr (idle none)

end

end Sys2Proof.Machine
end

