-- ==== Sys2Proof/Proofs/ChanPends.lean ====
section
/-! PROOFS. A pending move keeps every order (R127 to R130, R137). -/

namespace Sys2Proof.Machine

/-! ### A pending move keeps every order (R127 to R130, R137) -/

section
variable {runs : Bool} {c : Chan} {k : ClaimState} (h : ChanOrder runs c k)
include h

/-- A channel at rest with a pending move: its order does not see its claim. -/
theorem ChanOrder.pends (rest : c.atRest = true) (pending : c.pending ≠ .none) (d : ClaimState) : ChanOrder runs c d :=
  have still := (Chan.still_of_atRest rest).1
  have away : c.st ≠ .braking := fun e => by
    unfold Chan.atRest at rest
    rw [e] at rest
    cases rest
  have free : c.followOn = .none := by
    by_contra some
    exact away (h.follows some)
  { h with
    held := fun e => e.elim (fun e => nomatch still.symm.trans e) fun e => nomatch free.symm.trans e
    kept := fun e => absurd e away
    freed := fun _ e => absurd e pending }

/-- A channel that does not move and will not back off may lose its claim. -/
theorem ChanOrder.freed_claim (still : c.moving = false) (back : c.followOn ≠ .backoff) : ChanOrder runs c .idle :=
  { h with
    held := fun e => e.elim (fun e => nomatch still.symm.trans e) fun e => absurd e back
    kept := fun _ => .inl rfl
    freed := fun _ _ => rfl }

/-- The pending move of a channel is dropped; at rest its claim must be Idle. -/
theorem ChanOrder.dropped (idle : c.atRest = true → k = .idle) : ChanOrder runs { c with
    pending := .none, req := 0, idle := if c.atRest && !c.calibrating then some Config.idleMs else c.idle } k :=
  { h with
    backs := nofun
    settles := nofun
    active := fun e => h.active (e.imp id fun e => absurd rfl e)
    braking := fun _ => .inl rfl
    moving := fun _ => .inl rfl
    calibrates := fun e => by
      obtain ⟨rest, unset⟩ := h.calibrates e
      refine ⟨rest, ?_⟩
      have cal : c.calibrating = true := e
      show (if c.atRest && !c.calibrating then some Config.idleMs else c.idle) = none
      rw [if_neg (by simp [cal])]
      exact unset
    idle := fun e => by
      have e : (if c.atRest && !c.calibrating then some Config.idleMs else c.idle).isSome = true := e
      split at e
      · next rest =>
        rw [Bool.and_eq_true] at rest
        exact ⟨rest.1, rfl⟩
      · exact ⟨(h.idle e).1, rfl⟩
    freed := fun rest _ => idle rest }

/-- A follow-on is dropped with its claim. -/
theorem ChanOrder.unfollowed (brakes : c.st = .braking) : ChanOrder runs { c with followOn := .none, req := 0 } .idle :=
  { h with
    follows := fun e => absurd rfl e
    braking := fun e => (h.braking e).imp id fun k => ⟨k.1, .inl rfl⟩
    held := fun e => by
      have e : c.moving = true := e.resolve_right nofun
      unfold Chan.moving at e
      rw [brakes] at e
      cases e
    kept := fun _ => .inl rfl
    freed := fun _ _ => rfl }

/-- A channel at rest in Run takes a pending move. -/
theorem ChanOrder.takes (rest : c.atRest = true) (active : runs = true) {m : Move} (move : m = .extend ∨ m = .retract ∨ m = .protective)
    (req : Nat) : ChanOrder runs { c with pending := m, req := req, idle := none } k :=
  have still := (Chan.still_of_atRest rest).1
  have away : c.st ≠ .braking := fun e => by
    unfold Chan.atRest at rest
    rw [e] at rest
    cases rest
  { h with
    backs := fun e => by
      have e : m = .backoff := e
      rcases move with rfl | rfl | rfl <;> cases e
    settles := fun e => by
      have e : m = .settleFault := e
      rcases move with rfl | rfl | rfl <;> cases e
    active := fun _ => active
    braking := fun e => absurd e away
    moving := fun e => nomatch still.symm.trans e
    calibrates := fun e => ⟨rest, rfl⟩
    idle := nofun
    freed := fun _ e => by
      have e : m = .none := e
      rcases move with rfl | rfl | rfl <;> cases e }

end

theorem loadMotor_low (ch : Fin 2) : (loadMotor ch).val < 5 := by decide +revert

theorem loadMotor_zero (ch : Fin 2) : 0 ∈ loadRanks (loadMotor ch) := by decide +revert

theorem loadMotor_three (ch : Fin 2) : 3 ∈ loadRanks (loadMotor ch) := by decide +revert

theorem State.Order.chanOrder {s : State} {ch : Fin 2} {p : Part → Prop} (h : s.Order p) (chan : p (.chan ch)) :
    ChanOrder s.motionRuns (s.chan ch) (s.claim (loadMotor ch)).st := (chanFits_iff s ch).mp (h.parts _ chan)

/-- A channel at rest has nothing to follow on. -/
theorem ChanOrder.rests {runs : Bool} {c : Chan} {k : ClaimState} (h : ChanOrder runs c k) (rest : c.atRest = true) :
    c.moving = false ∧ c.followOn = .none := by
  refine ⟨(Chan.still_of_atRest rest).1, ?_⟩
  by_contra some
  unfold Chan.atRest at rest
  rw [h.follows some] at rest
  cases rest

section
variable {p : Part → Prop} (s : State) (ch : Fin 2)

variable {s ch} in
/-- An operation on the claim of a channel at rest with a pending move. -/
theorem Leads.pends {t : State} (h : Leads (Part.but p (.chan ch)) (Part.but p (.chan ch)) s t) (motion : t.motion = s.motion)
    (seq : t.seq = s.seq) (rest : (s.chan ch).atRest = true) (pending : (s.chan ch).pending ≠ .none) : Leads p p s t :=
  Leads.keeps (.chan ch) h fun _ k _ chan => by
    show t.chanFits ch
    rw [chanFits_iff, motionRuns_of_seq seq, chan_of_motion motion]
    exact ((chanFits_iff s ch).mp (k.parts _ chan)).pends rest pending _

theorem release_chan : Leads (Part.but p (.chan ch)) (Part.but p (.chan ch)) s (s.release (loadMotor ch)) :=
  release_leads s (loadMotor ch) (motor_owner ch)

theorem askMotor_off {rank : Nat} (runs : s.motionRuns = true) (ranks : rank ∈ loadRanks (loadMotor ch)) :
    Leads (Part.but p (.chan ch)) (Part.but p (.chan ch)) s (s.ask (loadMotor ch) rank (Item.motionDraw s.seq.values ch) false).1 :=
  Leads.intro fun _ h => ask_leads s (loadMotor ch) (motor_owner ch) (live_motor s ch runs) (by
    match ch with
    | 0 => exact h.values.draw 30 rfl (by decide)
    | 1 => exact h.values.draw 31 rfl (by decide)) ranks fun five => absurd (loadMotor_low ch) (by omega)

/-- A Re-rank to 0 never yields. -/
theorem rerank0_stays (id : Fin 7) : s.broker.level ≤ 6 → (s.rerank id 0).2 ≠ .yield := fun low e => by
  by_cases held : (s.claim id).st = .held
  · rw [rerank_held 0 held] at e
    split at e
    · cases e
    · split at e
      · next weak => omega
      · cases e
  · by_cases waits : (s.claim id).st = .waiting
    · unfold State.rerank at e
      dsimp only at e
      rw [waits] at e
      cases e
    · rw [rerank_refused 0 waits held] at e
      cases e

/-- A motor's claim goes on at rank 0 (R46, R139). -/
theorem rerank0_leads (not : (s.claim (loadMotor ch)).st ≠ .waiting) : Leads p p s (s.rerank (loadMotor ch) 0).1 := by
  refine Leads.keeps (.chan ch) (Leads.intro fun _ h => ?_) fun _ k _ chan => ?_
  · have moved := rerank_leads (p := Part.but p (.chan ch)) s (loadMotor ch) (motor_owner ch) (rank := 0) (loadMotor_low ch)
      (loadMotor_zero ch) fun e => absurd e not
    rwa [if_neg (rerank0_stays s _ h.level)] at moved
  · show (s.rerank (loadMotor ch) 0).1.chanFits ch
    rw [chanFits_iff, motionRuns_of_seq (rerank_shared s (loadMotor ch) 0).seq, chan_of_motion (rerank_shared s (loadMotor ch) 0).motion,
      rerank0_claim not, (Claim.atZero_keeps _).1]
    exact (chanFits_iff s ch).mp (k.parts _ chan)

theorem claimProtective_off (runs : s.motionRuns = true) : Leads (Part.but p (.chan ch)) (Part.but p (.chan ch)) s (s.claimProtective ch) := by
  refine Leads.ite (fun held => rerank0_leads s ch ?_) fun _ => askMotor_off s ch runs (loadMotor_zero ch)
  rw [show (s.claim (loadMotor ch)).st = .held by simpa [State.motorHeld] using held]
  nofun

theorem claimRequested_off (runs : s.motionRuns = true) : Leads (Part.but p (.chan ch)) (Part.but p (.chan ch)) s (s.claimRequested ch) :=
  Leads.ite (fun _ => askMotor_off s ch runs (loadMotor_three ch)) fun _ => Leads.refl _ s

/-- A pending move ends, and its claim is released (R129). -/
theorem dropPending_leads (order : ∃ k, ChanOrder s.motionRuns (s.chan ch) k) (still : (s.chan ch).moving = false)
    (back : (s.chan ch).followOn ≠ .backoff) : Leads (Part.but p (.chan ch)) p s ((s.dropPending ch).release (loadMotor ch)) := by
  refine Leads.chan ((setChan_off s ch _).trans (release_chan _ ch)) fun o _ _ => ?_
  have claim : (((s.dropPending ch).release (loadMotor ch)).claim (loadMotor ch)).st = .idle := release_idle (setChan_ok o ch _) _
  have shared := release_shared (s.dropPending ch) (loadMotor ch)
  refine ⟨shared.seq, ?_⟩
  obtain ⟨k, order⟩ := order
  rw [claim, chan_of_motion shared.motion]
  show ChanOrder _ ((s.setChan ch _).chan ch) _
  rw [chan_setChan_self]
  exact (order.freed_claim still back).dropped fun _ => rfl

theorem endPending_leads (out : Nat) (order : ∃ k, ChanOrder s.motionRuns (s.chan ch) k) (still : (s.chan ch).moving = false)
    (back : (s.chan ch).followOn ≠ .backoff) : Leads (Part.but p (.chan ch)) p s (s.endPending ch out) :=
  (dropPending_leads s ch order still back).trans (reviseOutcome_leads _ _ _)

section
variable (chan : p (.chan ch))
include chan

theorem tryStart_leads : Leads p p s (s.tryStart ch) := by
  refine Leads.intro fun o h => ?_
  have order := h.chanOrder chan
  unfold State.tryStart
  dsimp only
  split
  · exact Leads.refl p s
  · next not =>
    simp only [Bool.or_eq_true, not_or, Bool.not_eq_true, Bool.not_eq_false'] at not
    obtain ⟨⟨⟨runs, rest⟩, free⟩, held⟩ := not
    have none : (s.chan ch).calTimer = none := by
      rw [← Option.not_isSome_iff_eq_none]
      exact fun e => nomatch (free.symm.trans e)
    have cal : (s.chan ch).uncalibrating := ⟨none, order.calSum none⟩
    have held : (s.claim (loadMotor ch)).st = .held := by simpa [State.motorHeld] using held
    obtain ⟨still, follow⟩ := order.rests rest
    have start : ∀ m, Leads p p s (s.startMove ch m) := fun m =>
      (startMove_leads s ch m runs cal held).mono (fun _ m => m.2) fun _ m => m
    have drop : (s.chan ch).pending ≠ .none → Leads p p s (s.release (loadMotor ch)) := fun pending =>
      (release_chan s ch).pends (release_shared _ _).motion (release_shared _ _).seq rest pending
    split
    · split
      · exact start _
      · exact (endPending_leads s ch _ ⟨_, order⟩ still (by rw [follow]; nofun)).mono (fun _ m => m.2) fun _ m => m
    · next pending => exact Leads.ite (fun _ => drop (by rw [pending]; nofun)) fun _ => start _
    · next pending => exact Leads.ite (fun _ => drop (by rw [pending]; nofun)) fun _ => start _
    · exact Leads.refl p s

theorem actOnPending_leads : Leads p p s (s.actOnPending ch) := by
  refine Leads.intro fun o h => ?_
  have order := h.chanOrder chan
  unfold State.actOnPending
  dsimp only
  split
  · exact Leads.refl p s
  · next not =>
    simp only [Bool.or_eq_true, not_or, Bool.not_eq_true, Bool.not_eq_false'] at not
    obtain ⟨rest, -⟩ := not
    have asked : (s.chan ch).pending ≠ .none → Leads p p s (s.claimRequested ch) := fun pending =>
      (claimRequested_off s ch (order.active (.inr pending))).pends (claimRequested_motion ch s)
        (claimRequested_asks s ch o).2.seq rest pending
    have protects : (s.chan ch).pending ≠ .none → Leads p p s (s.claimProtective ch) := fun pending =>
      (claimProtective_off s ch (order.active (.inr pending))).pends (claimProtective_motion s ch)
        (claimProtective_asks s ch o).2.seq rest pending
    split
    · next pending =>
      exact Leads.ite (fun _ => Leads.refl p s) fun _ => (protects (by rw [pending]; nofun)).trans (tryStart_leads _ ch chan)
    · next pending =>
      exact Leads.ite (fun _ => Leads.refl p s) fun _ => (asked (by rw [pending]; nofun)).trans (tryStart_leads _ ch chan)
    · next pending => exact (asked (by rw [pending]; nofun)).trans (tryStart_leads _ ch chan)
    · exact Leads.refl p s

/-- A channel at rest takes a pending move in Run (R137). -/
theorem takePending_leads (runs : s.motionRuns = true) (rest : (s.chan ch).atRest = true) {m : Move}
    (move : m = .extend ∨ m = .retract ∨ m = .protective) (req : Nat) : Leads p p s (s.takePending ch m req) := by
  refine Leads.trans (q := p) ?_ (actOnPending_leads _ ch chan)
  refine setChan_leads s ch _ fun _ k => ?_
  rw [chanFits_iff, chan_setChan_self]
  exact ((chanFits_iff s ch).mp k).takes rest runs move req

end

end

end Sys2Proof.Machine
end

