-- ==== Sys2Proof/Proofs/ChanNeeds.lean ====
section
/-! PROOFS. Requests and the need for protection keep every order (R127 to R140). -/

namespace Sys2Proof.Machine

/-! ### Requests and the need for protection keep every order (R127 to R140) -/

section
variable {runs : Bool} {c : Chan} {k : ClaimState} (h : ChanOrder runs c k)
include h

theorem ChanOrder.unwaiting (away : c.moving = true ∨ c.st = .braking) : k ≠ .waiting := by
  rcases away with e | e
  · rw [h.held (.inl e)]
    nofun
  · rcases h.kept e with e | ⟨-, e⟩ <;> rw [e] <;> nofun

/-- A channel that moves loses or takes an Extend pending behind its move. -/
theorem ChanOrder.behind (moving : c.moving = true) (m : Move) (move : m = .none ∨ m = .extend) (req : Nat) (prot : Bool)
    (only : prot = true → c.st = .retracting) : ChanOrder runs { c with pending := m, req := req, protective := prot } k :=
  have rest : c.atRest = false := by
    unfold Chan.moving at moving
    unfold Chan.atRest
    cases st : c.st <;> rw [st] at moving <;> simp at moving ⊢
  have away : c.st ≠ .braking := fun e => by
    unfold Chan.moving at moving
    rw [e] at moving
    cases moving
  { h with
    backs := fun e => by
      have e : m = .backoff := e
      rcases move with rfl | rfl <;> cases e
    settles := fun e => by
      have e : m = .settleFault := e
      rcases move with rfl | rfl <;> cases e
    active := fun _ => h.active (.inl rest)
    braking := fun e => absurd e away
    moving := fun _ => move
    idle := fun e => nomatch (rest.symm.trans (h.idle e).1)
    protective := only
    freed := fun e => nomatch (rest.symm.trans e) }

/-- A Backoff becomes a full retract (R128, R139). -/
theorem ChanOrder.retracts (st : c.st = .backoff) (n : Nat) (prot : Bool) : ChanOrder runs { c with
    st := .retracting, backoff := none, travel := some n, protective := prot } k :=
  have moving : c.moving = true := by
    unfold Chan.moving
    rw [st]
  have rest : c.atRest = false := by
    unfold Chan.atRest
    rw [st]
  have follow : c.followOn = .none := by
    by_contra some
    exact nomatch (h.follows some).symm.trans st
  { h with
    bridge := h.bridge.trans (by rw [st]; rfl)
    follows := fun e => absurd follow e
    active := fun _ => h.active (.inl rest)
    braking := nofun
    moving := fun _ => h.moving moving
    travel := ⟨fun _ => .inr rfl, fun _ => rfl⟩
    backoff := ⟨nofun, nofun⟩
    dwell := ⟨fun e => absurd ((h.dwell.mp e).symm.trans st) nofun, nofun⟩
    stall := fun _ => rfl
    calibrates := fun e => nomatch rest.symm.trans (h.calibrates e).1
    idle := fun e => nomatch rest.symm.trans (h.idle e).1
    protective := fun _ => rfl
    held := fun _ => h.held (.inl moving)
    kept := nofun
    freed := nofun }

/-- A Braking channel takes another follow-on. -/
theorem ChanOrder.refollows (st : c.st = .braking) {m : Move} (move : m = .extend ∨ m = .retract ∨ m = .protective) {q : Move}
    (pending : q = .none ∨ q = c.pending ∧ m = .extend) (req : Nat) :
    ChanOrder runs { c with pending := q, followOn := m, req := req } k :=
  have still : c.moving = false := by
    unfold Chan.moving
    rw [st]
  have rest : c.atRest = false := by
    unfold Chan.atRest
    rw [st]
  have stays : q = .none ∨ q = .protective ∧ m = .extend :=
    pending.elim .inl fun e => (h.braking st).imp (fun k => e.1.trans k) fun k => ⟨e.1.trans k.1, e.2⟩
  { h with
    follows := fun _ => st
    backs := fun e => by
      have e : q = .backoff := e
      rcases stays with rfl | ⟨rfl, -⟩ <;> cases e
    settles := fun e => by
      have e : q = .settleFault := e
      rcases stays with rfl | ⟨rfl, -⟩ <;> cases e
    active := fun _ => h.active (.inl rest)
    braking := fun _ => stays.imp id fun e => ⟨e.1, .inr e.2⟩
    moving := fun e => nomatch still.symm.trans e
    idle := fun e => nomatch rest.symm.trans (h.idle e).1
    held := fun e => e.elim (fun e => nomatch still.symm.trans e) fun e => by
      have e : m = .backoff := e
      rcases move with rfl | rfl | rfl <;> cases e
    kept := fun _ => (h.kept st).imp id fun e => ⟨by rcases move with rfl | rfl | rfl <;> rfl, e.2⟩
    freed := fun e => nomatch rest.symm.trans e }

end

section
variable {p : Part → Prop} (s : State) (ch : Fin 2)

theorem answer_leads (code o : Nat) : Leads p p s (s.answer code o) := Leads.still (fun k => (answer_calm s code o k).1) rfl

variable {s ch} in
/-- A channel put to another that is in order with its claim as it stands. -/
theorem modChan_leads {f : Chan → Chan} (own : ∀ {k}, ChanOrder s.motionRuns (s.chan ch) k →
    ChanOrder s.motionRuns (f (s.chan ch)) k) : Leads p p s (s.modChan ch f) :=
  setChan_leads s ch _ fun _ k => by
    rw [chanFits_iff, chan_setChan_self]
    exact own ((chanFits_iff s ch).mp k)

theorem replacedByNeed_leads : Leads p p s (s.replacedByNeed ch) := reviseOutcome_leads s _ _

section
variable (chan : p (.chan ch))
include chan

/-- The claim of a channel that moves or brakes goes on at rank 0. -/
theorem rerank0_away (away : (s.chan ch).moving = true ∨ (s.chan ch).st = .braking) : Leads p p s (s.rerank (loadMotor ch) 0).1 :=
  Leads.intro fun _ h => rerank0_leads s ch ((h.chanOrder chan).unwaiting away)

theorem ended_leads (out : Nat) (rest : (s.chan ch).atRest = true) : Leads p p s (s.endPending ch out) :=
  Leads.intro fun _ h => by
    have order := h.chanOrder chan
    obtain ⟨still, follow⟩ := order.rests rest
    exact (endPending_leads s ch out ⟨_, order⟩ still (by rw [follow]; nofun)).mono (fun _ m => m.2) fun _ m => m

/-- A follow-on is dropped, and its claim released. -/
theorem unfollow_leads (some : (s.chan ch).followOn ≠ .none) :
    Leads p p s ((s.modChan ch fun c => { c with followOn := .none, req := 0 }).release (loadMotor ch)) := by
  refine Leads.keeps (.chan ch) ((setChan_off s ch _).trans (release_chan _ ch)) fun o h _ _ => ?_
  have order := h.chanOrder chan
  have claim := release_idle (setChan_ok o ch { s.chan ch with followOn := .none, req := 0 }) (loadMotor ch)
  have shared := release_shared (s.setChan ch { s.chan ch with followOn := .none, req := 0 }) (loadMotor ch)
  show ((s.setChan ch _).release _).chanFits ch
  rw [chanFits_iff, motionRuns_of_seq (s := s) shared.seq, chan_of_motion shared.motion, claim, chan_setChan_self]
  exact order.unfollowed (order.follows some)

theorem extendMeetsNeed_leads (rest : (s.chan ch).atRest = true) : Leads p p s (s.extendMeetsNeed ch) :=
  Leads.ite (fun _ => ended_leads s ch chan _ rest) fun _ => Leads.refl p s

/-- A channel that does not move, and will not back off, may have its claim released. -/
theorem release_still (still : (s.chan ch).moving = false) (back : (s.chan ch).followOn ≠ .backoff) :
    Leads p p s (s.release (loadMotor ch)) :=
  Leads.keeps (.chan ch) (release_chan s ch) fun o h _ _ => by
    have shared := release_shared s (loadMotor ch)
    show (s.release (loadMotor ch)).chanFits ch
    rw [chanFits_iff, motionRuns_of_seq shared.seq, chan_of_motion shared.motion, release_idle o]
    exact (h.chanOrder chan).freed_claim still back

theorem release_rest (rest : (s.chan ch).atRest = true) : Leads p p s (s.release (loadMotor ch)) :=
  Leads.intro fun _ h => by
    obtain ⟨still, follow⟩ := (h.chanOrder chan).rests rest
    exact release_still s ch chan still (by rw [follow]; nofun)

theorem pendProtective_leads (runs : s.motionRuns = true) (rest : (s.chan ch).atRest = true) : Leads p p s (s.pendProtective ch) := by
  have motion : (s.replacedByNeed ch).motion = s.motion := (reviseOutcome_shared s _ _).motion
  have seq : (s.replacedByNeed ch).seq = s.seq := (reviseOutcome_shared s _ _).seq
  unfold State.pendProtective
  dsimp only
  refine (replacedByNeed_leads s ch).trans ?_
  generalize s.replacedByNeed ch = u at *
  have runs : u.motionRuns = true := by rw [motionRuns_of_seq seq]; exact runs
  have rest : (u.chan ch).atRest = true := by rw [chan_of_motion motion]; exact rest
  split
  · have shared := release_shared u (loadMotor ch)
    exact (release_rest u ch chan rest).trans (takePending_leads _ ch chan (by rw [motionRuns_of_seq shared.seq]; exact runs)
      (by rw [chan_of_motion shared.motion]; exact rest) (.inr (.inr rfl)) 0)
  · exact takePending_leads u ch chan runs rest (.inr (.inr rfl)) 0

theorem backoffRetracts_leads (st : (s.chan ch).st = .backoff) (prot : Bool) : Leads p p s (s.backoffRetracts ch prot) :=
  (modChan_leads fun h => h.retracts st _ prot).trans (stepSeen_leads _ ch)

/-- A need for protection falls due on a channel (R138 to R140). -/
theorem needDue_leads : Leads p p s (s.needDue ch) := by
  refine Leads.intro fun o h => ?_
  have order := h.chanOrder chan
  have moving : ∀ {st}, (s.chan ch).st = st → Chan.moving { s.chan ch with st := st } = true → (s.chan ch).moving = true :=
    fun e k => by rw [← e] at k; exact k
  have same : (s.replacedByNeed ch).chan ch = s.chan ch := chan_of_motion (reviseOutcome_shared s _ _).motion ch
  unfold State.needDue
  dsimp only
  split
  · exact Leads.refl p s
  next on =>
  have runs : s.motionRuns = true := by simpa using on
  split
  · next st => exact extendMeetsNeed_leads s ch chan (by simp [Chan.atRest, st])
  · next st =>
    have brakes := brake_leads (p := p) s ch runs (order.uncalibrating (by simp [Chan.atRest, st])) .protective 0 true nofun
    refine (brakes.mono (fun _ m => m.2) fun _ m => m).trans (rerank0_away _ ch chan (.inr ?_))
    rw [(brake_puts s ch .protective 0 true).chan]
    rfl
  · next st =>
    have on := moving st rfl
    refine (replacedByNeed_leads s ch).trans (Leads.trans (q := p) (modChan_leads fun k => ?_) (rerank0_away _ ch chan (.inl ?_)))
    · exact k.behind (by rw [same]; exact on) .none (.inl rfl) 0 true fun _ => by rw [same]; exact st
    · show ((State.setChan _ ch _).chan ch).moving = true
      rw [chan_setChan_self, same]
      exact on
  · next st =>
    have on := moving st rfl
    have put : ((s.replacedByNeed ch).modChan ch fun c => { c with pending := .none, req := 0 }).chan ch
        = { s.chan ch with pending := .none, req := 0 } := by
      unfold State.modChan
      rw [chan_setChan_self, same]
    refine (replacedByNeed_leads s ch).trans (Leads.trans (q := p) (modChan_leads fun k => ?_)
      ((rerank0_away _ ch chan (.inl ?_)).trans (backoffRetracts_leads _ ch chan ?_ true)))
    · exact k.behind (by rw [same]; exact on) .none (.inl rfl) 0 ((s.replacedByNeed ch).chan ch).protective k.protective
    · rw [put]
      exact on
    · rw [chan_of_motion (rerank_shared _ _ 0).motion, put]
      exact st
  · next st =>
    split
    · exact Leads.refl p s
    · exact rerank0_away s ch chan (.inr st)
    · exact rerank0_away s ch chan (.inr st)
    · refine (replacedByNeed_leads s ch).trans (Leads.trans (q := p) (modChan_leads fun k => ?_) (rerank0_away _ ch chan (.inr ?_)))
      · exact k.refollows (by rw [same]; exact st) (.inr (.inr rfl)) (.inl rfl) 0
      · show ((State.setChan _ ch _).chan ch).st = .braking
        rw [chan_setChan_self, same]
        exact st
  · next retracted extending retracting backoff braking =>
    have rest : (s.chan ch).atRest = true := by
      unfold Chan.atRest
      cases st : (s.chan ch).st <;> simp [st] at retracted extending retracting backoff braking ⊢
    exact Leads.ite (fun _ => extendMeetsNeed_leads s ch chan rest) fun _ => Leads.ite (fun _ => Leads.refl p s)
      fun _ => pendProtective_leads s ch chan runs rest

/-- The need has ended on a channel (R138 to R140). -/
theorem needEnds_leads : Leads p p s (s.needEnds ch) := by
  unfold State.needEnds
  dsimp only
  refine Leads.ite (fun _ => Leads.refl p s) fun _ => ?_
  have pends : Leads p p s (if (s.chan ch).pending = .protective then (s.dropPending ch).release (loadMotor ch) else s) := by
    refine Leads.ite (fun pending => Leads.intro fun _ h => ?_) fun _ => Leads.refl p s
    have order := h.chanOrder chan
    have still : (s.chan ch).moving = false := by
      rw [← Bool.not_eq_true]
      exact fun on => by rcases order.moving on with e | e <;> rw [pending] at e <;> cases e
    have back : (s.chan ch).followOn ≠ .backoff := fun follow => by
      have st := order.follows (by rw [follow]; nofun)
      rcases order.braking st with e | ⟨-, e⟩
      · rw [pending] at e
        cases e
      · rw [follow] at e
        rcases e with e | e <;> cases e
    exact (dropPending_leads s ch ⟨_, order⟩ still back).mono (fun _ m => m.2) fun _ m => m
  refine pends.trans ?_
  generalize (if (s.chan ch).pending = .protective then (s.dropPending ch).release (loadMotor ch) else s) = u
  exact Leads.ite (fun follow => unfollow_leads u ch chan (by rw [follow]; nofun)) fun _ => Leads.refl p u

end

end

end Sys2Proof.Machine
end

