-- ==== Sys2Proof/Proofs/ChanDwells.lean ====
section
/-! PROOFS. The end of a dwell keeps every order (R132). -/

namespace Sys2Proof.Machine

/-! ### The end of a dwell keeps every order (R132) -/

theorem Values.fit.motionDraw {v : Values} (h : Values.fit v) (ch : Fin 2) :
    1 ≤ Item.motionDraw v ch ∧ Item.motionDraw v ch ≤ 30000 := by
  have first := h.1 30
  have second := h.1 31
  unfold inRange at first second
  rw [if_neg (by decide), if_neg (by decide), if_neg (by decide)] at first second
  match ch with
  | 0 => exact ⟨first.1, first.2.1⟩
  | 1 => exact ⟨second.1, second.2.1⟩

section
variable {p : Part → Prop} (s : State) (ch : Fin 2)

theorem byStops_rests : Chan.atRest { s.chan ch with st := s.byStops ch .braking } = true := by
  unfold State.byStops
  split <;> rfl

/-- A channel in Run whose timers are out: it may start, back off or settle. -/
structure State.Freed (s : State) (ch : Fin 2) : Prop where
  runs : s.motionRuns = true
  cal : (s.chan ch).uncalibrating
  timers : (s.chan ch).travel = none ∧ (s.chan ch).stall = none ∧ (s.chan ch).backoff = none

section
variable {s ch} (freed : s.Freed ch)
include freed

theorem State.Freed.congr {t : State} (motion : t.motion = s.motion) (seq : t.seq = s.seq) : t.Freed ch := by
  obtain ⟨runs, cal, timers⟩ := freed
  rw [← motionRuns_of_seq seq] at runs
  rw [← chan_of_motion motion ch] at cal timers
  exact ⟨runs, cal, timers⟩

theorem State.Freed.settles {st : MState} {pending : Move} {req : Nat} (rest : Chan.atRest { s.chan ch with st := st } = true)
    (move : pending ≠ .backoff ∧ pending ≠ .settleFault) (idle : pending = .none → (s.claim (loadMotor ch)).st = .idle) :
    Leads (Part.but p (.chan ch)) p s (s.settle ch st pending req) :=
  settle_leads s ch st pending req freed.cal freed.timers rest move (fun _ => freed.runs) idle

theorem State.Freed.released {st : MState} {pending : Move} {req : Nat} (rest : Chan.atRest { s.chan ch with st := st } = true)
    (move : pending ≠ .backoff ∧ pending ≠ .settleFault) :
    Leads (Part.but p (.chan ch)) p s ((s.release (loadMotor ch)).settle ch st pending req) := by
  have shared := release_shared s (loadMotor ch)
  refine Leads.intro fun o _ => (release_chan s ch).trans ((freed.congr shared.motion shared.seq).settles ?_ move fun _ => release_idle o _)
  rw [chan_of_motion shared.motion]
  exact rest

/-- The Protective move starts with its claim. -/
theorem State.Freed.protects (unforced : (s.claim (loadMotor ch)).st ≠ .forced) :
    Leads (Part.but p (.chan ch)) p s ((s.claimProtective ch).startMove ch .protective) := by
  refine Leads.intro fun o h => ?_
  have held := (claimProtective_holds ch o (Values.fit.motionDraw h.values ch) unforced).1
  have freed' := freed.congr (claimProtective_motion s ch) (claimProtective_asks s ch o).2.seq
  exact (claimProtective_off s ch freed.runs).trans (startMove_leads _ ch .protective freed'.runs freed'.cal held)

/-- A requested move settles without its claim, and asks for it (R132). -/
theorem State.Freed.requests {st : MState} {pending : Move} {req : Nat} (rest : Chan.atRest { s.chan ch with st := st } = true)
    (move : pending = .extend ∨ pending = .retract) :
    Leads (Part.but p (.chan ch)) p s ((s.settle ch st pending req).claimRequested ch) := by
  have pend : pending ≠ .none := by rcases move with rfl | rfl <;> nofun
  refine (freed.settles (req := req) rest ⟨by rcases move with rfl | rfl <;> nofun, by rcases move with rfl | rfl <;> nofun⟩
    fun e => absurd e pend).trans (Leads.intro fun o _ => ?_)
  have put := (settle_puts s ch st pending req).chan
  have seq : (s.settle ch st pending req).seq = s.seq := stepSeen_seq (s.modChan ch _) ch
  exact (claimRequested_off _ ch (by rw [motionRuns_of_seq seq]; exact freed.runs)).pends (claimRequested_motion ch _)
    (claimRequested_asks _ ch o).2.seq (by rw [put]; exact rest) (by rw [put]; exact pend)

end

/-- The dwell of a channel ends, and its follow-on is taken (R132). -/
theorem dwellEnds_leads (chan : p (.chan ch)) (dwells : (s.chan ch).dwell.isSome = true) : Leads p p s (s.dwellEnds ch) := by
  refine Leads.intro fun o h => ?_
  have order := h.chanOrder chan
  have st := order.dwell.mp dwells
  have away : (s.chan ch).atRest = false := by
    unfold Chan.atRest
    rw [st]
  have moves : (s.chan ch).moving = false := by
    unfold Chan.moving
    rw [st]
  have freed : (s.setChan ch { s.chan ch with bridge := .off, dwell := none }).Freed ch := by
    refine ⟨order.active (.inl away), ?_, ?_⟩ <;> rw [chan_setChan_self]
    · exact order.uncalibrating away
    refine ⟨?_, ?_, ?_⟩ <;> refine Option.not_isSome_iff_eq_none.mp fun e => ?_
    · rcases order.travel.mp e with k | k <;> exact absurd (st.symm.trans k) nofun
    · exact nomatch moves.symm.trans (order.stall e)
    · exact absurd (st.symm.trans (order.backoff.mp e)) nofun
  have unforced : (s.claim (loadMotor ch)).st ≠ .forced := fun e =>
    motor_not_pump ch ((h.serves (loadMotor ch)).forced e)
  have idle : (s.chan ch).followOn.isMove = false → (s.claim (loadMotor ch)).st = .idle := fun e =>
    (order.kept st).resolve_right fun k => nomatch e.symm.trans k.1
  have rests := byStops_rests s ch
  have pending := order.braking st
  have back : (s.chan ch).followOn = .backoff → (s.claim (loadMotor ch)).st = .held := fun e => order.held (.inr e)
  unfold State.dwellEnds State.modChan
  dsimp only
  refine ((setChan_off (p := p) s ch { s.chan ch with bridge := .off, dwell := none }).trans ?_).mono (fun _ m => m.2) fun _ m => m
  have stands : (s.setChan ch { s.chan ch with bridge := .off, dwell := none }).claim (loadMotor ch) = s.claim (loadMotor ch) := rfl
  have byStops : (s.setChan ch { s.chan ch with bridge := .off, dwell := none }).byStops ch .braking = s.byStops ch .braking := rfl
  generalize s.setChan ch { s.chan ch with bridge := .off, dwell := none } = u at *
  rw [← stands] at unforced idle back
  have rest : Chan.atRest { u.chan ch with st := u.byStops ch .braking } = true := byStops ▸ rests
  split
  · next follow =>
    have move : (s.chan ch).pending ≠ .backoff ∧ (s.chan ch).pending ≠ .settleFault := ⟨order.backs, order.settles⟩
    exact (freed.settles rest move fun _ => idle (by rw [follow]; rfl)).trans (actOnPending_leads _ ch chan)
  · next follow => exact freed.settles (pending := .none) rfl ⟨nofun, nofun⟩ fun _ => idle (by rw [follow]; rfl)
  · next follow =>
    have move : ∀ c : Bool, (if c = true then Move.protective else .none) ≠ .backoff
        ∧ (if c = true then Move.protective else .none) ≠ .settleFault := by decide
    exact Leads.ite (fun _ => freed.released rfl (move _)) fun _ => Leads.ite (fun _ => freed.protects unforced) fun _ =>
      startBackoff_leads u ch freed.runs freed.cal (back follow)
  · split
    · next held =>
      have held : (u.claim (loadMotor ch)).st = .held := by simpa [State.motorHeld] using held
      split
      · exact startMove_leads u ch .extend freed.runs freed.cal held
      · exact (freed.released (pending := .none) rest ⟨nofun, nofun⟩).trans (reviseOutcome_leads _ _ _)
    · exact freed.requests rest (.inl rfl)
  · refine Leads.ite (fun _ => freed.released (pending := .retract) rest ⟨nofun, nofun⟩) fun _ => Leads.ite (fun held => ?_) fun _ =>
      freed.requests rest (.inr rfl)
    exact startMove_leads u ch .retract freed.runs freed.cal (by simpa [State.motorHeld] using held)
  · exact Leads.ite (fun _ => freed.released (pending := .protective) rest ⟨nofun, nofun⟩) fun _ => freed.protects unforced

end

end Sys2Proof.Machine
end

