-- ==== Sys2Proof/Proofs/ChanTimers.lean ====
section
/-! PROOFS. The timers, stops and yields of a channel keep every order (R126 to R147). -/

namespace Sys2Proof.Machine

/-! ### The timers, stops and yields of a channel keep every order (R126 to R147) -/

section
variable {runs : Bool} {c : Chan} {k : ClaimState} (h : ChanOrder runs c k)
include h

theorem ChanOrder.away_rest (away : c.moving = true ∨ c.st = .braking) : c.atRest = false := by
  unfold Chan.moving at away
  unfold Chan.atRest
  cases st : c.st <;> simp [st] at away ⊢

/-- A calibration begins on a channel that idles (R137). -/
theorem ChanOrder.calibrating (idle : c.idle.isSome = true) :
    ChanOrder runs { c with calTimer := some Config.calibrationMs, calSum := 0, idle := none } k :=
  { h with
    calibrates := fun _ => ⟨(h.idle idle).1, rfl⟩
    calLeft := le_refl Config.calibrationMs
    calSum := fun _ => rfl
    idle := nofun }

/-- A calibration ends (R137). -/
theorem ChanOrder.calibrated (offset : Nat) : ChanOrder runs { c with
    calTimer := none, calSum := 0, offset := offset
    idle := if c.atRest && c.pending == .none then some Config.idleMs else c.idle } k :=
  { h with
    calibrates := nofun
    calLeft := Nat.zero_le _
    calSum := fun _ => rfl
    idle := fun e => by
      have e : (if c.atRest && c.pending == .none then some Config.idleMs else c.idle).isSome = true := e
      split at e
      · next rest =>
        rw [Bool.and_eq_true, beq_iff_eq] at rest
        exact rest
      · exact h.idle e }

/-- The stall timer of a moving channel (R134). -/
theorem ChanOrder.stalling (moving : c.moving = true) (t : Timer) : ChanOrder runs { c with stall := t } k :=
  { h with stall := fun _ => moving }

/-- A channel at rest stands elsewhere, at rest too (R126). -/
theorem ChanOrder.restands (rest : c.atRest = true) {st : MState} (there : Chan.atRest { c with st := st } = true) :
    ChanOrder runs { c with st := st } k :=
  have out : ∀ x : MState, Chan.atRest { c with st := x } = false → st ≠ x := fun x a e => by
    rw [e] at there
    exact absurd (a.symm.trans there) nofun
  have off : ∀ x : MState, Chan.atRest { c with st := x } = false → c.st ≠ x := fun x a e => by
    unfold Chan.atRest at rest a
    rw [e] at rest
    exact absurd (a.symm.trans rest) nofun
  have still := (Chan.still_of_atRest rest).1
  have stays := Chan.still_of_atRest there
  { h with
    bridge := (h.bridge.trans (Chan.still_of_atRest rest).2).trans stays.2.symm
    follows := fun e => absurd (h.rests rest).2 e
    active := fun e => e.elim (fun e => nomatch e.symm.trans there) fun e => h.active (.inr e)
    braking := fun e => absurd e (out _ rfl)
    moving := fun e => nomatch stays.1.symm.trans e
    travel := ⟨fun e => (h.travel.mp e).elim (fun e => absurd e (off _ rfl)) fun e => absurd e (off _ rfl),
      fun e => e.elim (fun e => absurd e (out _ rfl)) fun e => absurd e (out _ rfl)⟩
    backoff := ⟨fun e => absurd (h.backoff.mp e) (off _ rfl), fun e => absurd e (out _ rfl)⟩
    dwell := ⟨fun e => absurd (h.dwell.mp e) (off _ rfl), fun e => absurd e (out _ rfl)⟩
    stall := fun e => nomatch still.symm.trans (h.stall e)
    calibrates := fun e => ⟨there, (h.calibrates e).2⟩
    idle := fun e => ⟨there, (h.idle e).2⟩
    protective := fun e => absurd (h.protective e) (off _ rfl)
    held := fun e => e.elim (fun e => nomatch stays.1.symm.trans e) fun e => nomatch (h.rests rest).2.symm.trans e
    kept := fun e => absurd e (out _ rfl)
    freed := fun _ => h.freed rest }

/-- HOLD leaves a Protective move pending behind a dwell (R142). -/
theorem ChanOrder.repends (st : c.st = .braking) (follow : c.followOn = .none) : ChanOrder runs { c with pending := .protective } k :=
  have rest := h.away_rest (.inr st)
  have still : c.moving = false := by
    unfold Chan.moving
    rw [st]
  { h with
    backs := nofun
    settles := nofun
    active := fun _ => h.active (.inl rest)
    braking := fun _ => .inr ⟨rfl, .inl follow⟩
    moving := fun e => nomatch still.symm.trans e
    idle := fun e => nomatch rest.symm.trans (h.idle e).1
    freed := fun e => nomatch rest.symm.trans e }

end

theorem Chan.moving_rest {c : Chan} (moving : c.moving = true) : c.atRest = false := by
  unfold Chan.moving at moving
  unfold Chan.atRest
  cases st : c.st <;> simp [st] at moving ⊢

section
variable {p : Part → Prop} (s : State) (ch : Fin 2) (chan : p (.chan ch))
include chan

/-- A channel in order that is not at rest brakes. -/
theorem brakes_leads (away : (s.chan ch).atRest = false) (f : Move) (req : Nat) (keep : Bool)
    (back : f = .backoff → keep = true ∧ (s.chan ch).moving = true) : Leads p p s (s.brake ch f req keep) :=
  Leads.intro fun _ h =>
    have order := h.chanOrder chan
    (brake_leads s ch (order.active (.inl away)) (order.uncalibrating away) f req keep
      fun e => ⟨(back e).1, order.held (.inl (back e).2)⟩).mono (fun _ m => m.2) fun _ m => m

/-- The travel limit (R133). -/
theorem travelExpires_leads (runs : (s.chan ch).travel.isSome = true) : Leads p p s (s.travelExpires ch) :=
  Leads.intro fun _ h => by
    have away : (s.chan ch).atRest = false := by
      unfold Chan.atRest
      rcases (h.chanOrder chan).travel.mp runs with e | e <;> rw [e]
    exact (brakes_leads s ch chan away .settleFault 0 false nofun).trans (declareTravelFault_leads _ ch)

/-- A stall (R134). -/
theorem stalls_leads (runs : (s.chan ch).stall.isSome = true) : Leads p p s (s.stalls ch) :=
  Leads.intro fun o h => by
    have moving := (h.chanOrder chan).stall runs
    unfold State.stalls
    dsimp only
    have declares : Leads p p s (if (s.chan ch).stalled then s
        else (s.modChan ch fun c => { c with stalled := true }).monitor (Mon.stall ch) true) :=
      Leads.ite (fun _ => Leads.refl p s) fun _ => (setChan_marks s ch _ (by rfl)).trans (monitor_leads _ _ _)
    have same : ((if (s.chan ch).stalled then s
        else (s.modChan ch fun c => { c with stalled := true }).monitor (Mon.stall ch) true).chan ch).st = (s.chan ch).st := by
      split
      · rfl
      · rw [chan_of_motion (monitor_shared _ _ _).motion]
        unfold State.modChan
        rw [chan_setChan_self]
    refine declares.trans ?_
    generalize (if (s.chan ch).stalled then s
        else (s.modChan ch fun c => { c with stalled := true }).monitor (Mon.stall ch) true) = u at *
    have moves : (u.chan ch).moving = true := by
      unfold Chan.moving at *
      rw [same]
      exact moving
    have away := Chan.moving_rest moves
    exact Leads.ite (fun _ => brakes_leads u ch chan away _ _ _ fun _ => ⟨rfl, moves⟩)
      fun _ => (brakes_leads u ch chan away .settleFault 0 false nofun).trans (declareTravelFault_leads _ ch)

/-- The end of a Backoff's second (R135). -/
theorem backoffEnds_leads (runs : (s.chan ch).backoff.isSome = true) : Leads p p s (s.backoffEnds ch) :=
  Leads.intro fun _ h => by
    have away : (s.chan ch).atRest = false := by
      unfold Chan.atRest
      rw [(h.chanOrder chan).backoff.mp runs]
    refine brakes_leads s ch chan away _ _ _ fun e => ?_
    split at e <;> cases e

omit chan in
theorem calibrationBegins_leads (runs : (s.chan ch).idle.isSome = true) : Leads p p s (s.calibrationBegins ch) :=
  modChan_leads fun h => h.calibrating runs

theorem calibrated_leads : Leads p p s (s.calibrated ch) :=
  Leads.trans (q := p) (modChan_leads fun h => h.calibrated _) (actOnPending_leads _ ch chan)

omit chan in
theorem currentFollows_leads : Leads p p s (s.currentFollows ch) :=
  Leads.ite (fun moving => modChan_leads fun h => h.stalling moving _) fun _ => Leads.refl p s

theorem arrives_leads (moving : (s.chan ch).moving = true) : Leads p p s (s.arriveAt ch) :=
  Leads.intro fun _ h =>
    have order := h.chanOrder chan
    have away := Chan.moving_rest moving
    (arriveAt_leads s ch (order.active (.inl away)) (order.uncalibrating away)).mono (fun _ m => m.2) fun _ m => m

/-- A channel's stops change (R126, R131, R138). -/
theorem stopsFollow_leads : Leads p p s (s.stopsFollow ch) := by
  unfold State.stopsFollow
  dsimp only
  refine Leads.ite (fun moving => Leads.ite (fun _ => arrives_leads s ch chan moving) fun _ => Leads.refl p s) fun _ => ?_
  refine Leads.ite (fun rests => Leads.ite (fun _ => Leads.refl p s) fun _ => ?_) fun _ => Leads.refl p s
  rw [Bool.and_eq_true] at rests
  have there : Chan.atRest { s.chan ch with st := s.byStops ch (s.chan ch).st } = true := by
    unfold State.byStops
    split
    · rfl
    · rfl
    · by_cases unknown : (s.chan ch).st = .unknown
      · rw [if_pos unknown]
        rfl
      · rw [if_neg unknown]
        rfl
    · rfl
  refine Leads.trans (q := p) (modChan_leads (f := fun c => { c with st := s.byStops ch (s.chan ch).st }) fun h => h.restands rests.1 there) ((stepSeen_leads _ ch).trans ?_)
  exact Leads.ite (fun _ => needDue_leads _ ch chan) fun _ => Leads.refl p _

/-- HOLD becomes asserted (R142). -/
theorem holdFollows_leads : Leads p p s (s.holdFollows ch) := by
  unfold State.holdFollows
  dsimp only
  refine Leads.ite (fun moving => Leads.ite (fun _ => ?_) fun _ => Leads.refl p s) fun _ => Leads.ite (fun rest => ?_) fun _ => Leads.refl p s
  · have same : (s.reviseOutcome (s.chan ch).req Outcome.hold).chan ch = s.chan ch := chan_of_motion (reviseOutcome_shared s _ _).motion ch
    have brakes := brakes_leads (s.reviseOutcome (s.chan ch).req Outcome.hold) ch chan (by rw [same]; exact Chan.moving_rest moving)
      .none 0 false nofun
    refine ((reviseOutcome_leads s _ _).trans brakes).trans (Leads.ite (fun _ => modChan_leads fun h => ?_) fun _ => Leads.refl p _)
    exact h.repends (by rw [(brake_puts _ ch .none 0 false).chan]; rfl) (by rw [(brake_puts _ ch .none 0 false).chan]; rfl)
  · split
    · exact ended_leads s ch chan _ rest
    · exact release_rest s ch chan rest
    · exact Leads.refl p s

/-- Storage ends a pending Extend (R147). -/
theorem extendEndsInStorage_leads : Leads p p s (s.extendEndsInStorage ch) := by
  unfold State.extendEndsInStorage
  dsimp only
  refine Leads.ite (fun _ => Leads.ite (fun rest => ended_leads s ch chan _ rest) fun away => ?_) fun _ => Leads.ite (fun follow => ?_)
    fun _ => Leads.refl p s
  · exact (modChan_leads fun h => h.dropped fun rest => absurd rest away).trans (reviseOutcome_leads _ _ _)
  · exact (unfollow_leads s ch chan (by rw [follow]; nofun)).trans (reviseOutcome_leads _ _ _)

end

end Sys2Proof.Machine
end

