-- ==== Sys2Proof/Proofs/MotionOrders.lean ====
section
/-! PROOFS. Requests, wind and yields of the motors keep every order (R127 to R129, R140, R144). -/

namespace Sys2Proof.Machine

/-! ### Requests, wind and yields of the motors keep every order (R127 to R129, R140, R144) -/

section
variable {p : Part → Prop}

/-- An operation after which a claim bears the level. -/
theorem Leads.calms {s t : State} {id : Fin 7} (h : Leads p p s t)
    (own : s.Ok → s.Order p → t.Ok → t.Order p → Claim.Bears t.broker.level id (t.claim id)) : Leads p (Part.with p (.calm id)) s t :=
  fun o k => by
    obtain ⟨ok, order⟩ := h o k
    exact ⟨ok, order.values, order.level, order.remembered, order.serves,
      fun x m => m.elim (fun e => e ▸ own o k ok order) (order.parts x)⟩

theorem retractMove_move (u : State) (ch : Fin 2) : u.retractMove ch = .extend ∨ u.retractMove ch = .retract ∨ u.retractMove ch = .protective := by
  unfold State.retractMove
  split
  · exact .inr (.inr rfl)
  · exact .inr (.inl rfl)

theorem answered_chan (s : State) (ch : Fin 2) (code o : Nat) : (s.answer code o).chan ch = s.chan ch := rfl

variable (s : State) (ch : Fin 2) (chan : p (.chan ch))
include chan

section
variable (runs : s.motionRuns = true)
include runs

/-- An Extend that is taken (R127). -/
theorem takeExtend_leads (code : Nat) : Leads p p s (s.takeExtend code ch) := by
  refine Leads.intro fun _ h => ?_
  have order := h.chanOrder chan
  unfold State.takeExtend
  dsimp only
  have ans := answer_leads (p := p) s code
  have moves : ∀ {u : State}, u.chan ch = s.chan ch → (s.chan ch).moving = true → Leads p p u
      (if (u.claim (loadMotor ch)).rank = 0 then u.modChan ch fun c => { c with pending := .extend, req := u.status.serial }
        else u.brake ch .extend u.status.serial true) := fun {u} same moving => by
    refine Leads.ite (fun _ => modChan_leads fun k => ?_) fun _ => brakes_leads u ch chan ?_ .extend _ true nofun
    · rw [same] at k ⊢
      exact k.behind moving .extend (.inr rfl) _ (s.chan ch).protective k.protective
    · rw [same]
      exact Chan.moving_rest moving
  split
  · exact ans _
  · next st =>
    split
    · exact ans _
    · exact ans _
    · exact ans _
    · refine (ans Outcome.waiting).trans (modChan_leads fun k => ?_)
      exact k.refollows st (.inl rfl) (.inr ⟨rfl, rfl⟩) _
  · next st => exact (ans Outcome.waiting).trans (moves rfl (by simp [Chan.moving, st]))
  · next st => exact (ans Outcome.waiting).trans (moves rfl (by simp [Chan.moving, st]))
  · next extending braking retracting backoff =>
    have rest : (s.chan ch).atRest = true := by
      unfold Chan.atRest
      cases st : (s.chan ch).st <;> simp [st] at extending retracting backoff braking ⊢
    exact Leads.ite (fun _ => ans _) fun _ => (ans Outcome.waiting).trans (takePending_leads (s.answer code Outcome.waiting) ch chan runs rest (.inl rfl) _)

/-- A Retract that is taken (R128). -/
theorem takeRetract_leads (code : Nat) : Leads p p s (s.takeRetract code ch) := by
  refine Leads.intro fun _ h => ?_
  have order := h.chanOrder chan
  unfold State.takeRetract
  dsimp only
  have ans := answer_leads (p := p) s code
  split
  · exact ans _
  · exact ans _
  · next st => exact (ans Outcome.accepted).trans (backoffRetracts_leads (s.answer code Outcome.accepted) ch chan st _)
  · next st =>
    refine (ans Outcome.waiting).trans (brakes_leads (s.answer code Outcome.waiting) ch chan (by simp [answered_chan, Chan.atRest, st]) _ _ true fun e => ?_)
    rcases retractMove_move (s.answer code Outcome.waiting) ch with k | k | k <;> rw [k] at e <;> cases e
  · next st =>
    split
    · exact ans _
    · exact ans _
    · exact ans _
    · refine (ans Outcome.waiting).trans (Leads.trans (q := p) (modChan_leads fun k =>
        k.refollows st (retractMove_move _ ch) (.inl rfl) _) (Leads.ite (fun _ => rerank0_away _ ch chan (.inr ?_)) fun _ => Leads.refl p _))
      show ((State.setChan _ ch _).chan ch).st = .braking
      rw [chan_setChan_self]
      exact st
  · next retracted retracting backoff extending braking =>
    have rest : (s.chan ch).atRest = true := by
      unfold Chan.atRest
      cases st : (s.chan ch).st <;> simp [st] at retracted extending retracting backoff braking ⊢
    exact (ans Outcome.waiting).trans (takePending_leads (s.answer code Outcome.waiting) ch chan runs rest (retractMove_move _ ch) _)

end

/-- A Stop that is taken (R129). -/
theorem takeStop_leads (code : Nat) : Leads p p s (s.takeStop code ch) := by
  refine Leads.intro fun _ h => ?_
  have order := h.chanOrder chan
  have ans := answer_leads (p := p) s code
  unfold State.takeStop
  dsimp only
  refine Leads.ite (fun _ => ans _) fun _ => Leads.ite (fun _ => ans _) fun _ => (ans Outcome.accepted).trans ?_
  refine Leads.ite (fun moving => brakes_leads (s.answer code Outcome.accepted) ch chan (Chan.moving_rest moving) .none 0 false nofun) fun still => Leads.ite (fun st => ?_) fun away =>
    Leads.ite (fun _ => Leads.refl p _) fun _ => ?_
  · split
    · next follow => exact unfollow_leads (s.answer code Outcome.accepted) ch chan (by rw [answered_chan s ch, follow]; nofun)
    · next follow => exact unfollow_leads (s.answer code Outcome.accepted) ch chan (by rw [answered_chan s ch, follow]; nofun)
    · exact Leads.refl p _
  · have rest : (s.chan ch).atRest = true := by
      unfold Chan.atRest
      unfold Chan.moving at still
      cases st : (s.chan ch).st <;> simp [st] at still away ⊢
    obtain ⟨still, follow⟩ := order.rests rest
    exact (dropPending_leads (s.answer code Outcome.accepted) ch ⟨_, order⟩ still (by rw [answered_chan s ch, follow]; nofun)).mono
      (fun _ m => m.2) fun _ m => m

/-- A Held motor claim yields to the shed level (R50, R144). -/
theorem motionYields_leads (held : (s.claim (loadMotor ch)).st = .held) :
    Leads p (Part.with p (.calm (loadMotor ch))) s (s.motionYields ch) := by
  refine Leads.intro fun o h => ?_
  have order := h.chanOrder chan
  have completes : Leads p (Part.with p (.calm (loadMotor ch))) s (s.complete (loadMotor ch)) := by
    have moved := complete_leads (p := Part.but p (.chan ch)) s (loadMotor ch) (motor_owner ch) held
      (fun five => absurd (loadMotor_low ch) (by omega)) (loadMotor_zero ch)
    refine Leads.ends moved (Leads.refl _ _) nofun fun _ _ _ _ => ?_
    have shared := complete_shared s (loadMotor ch)
    show (s.complete (loadMotor ch)).chanFits ch
    rw [chanFits_iff, motionRuns_of_seq shared.seq, chan_of_motion shared.motion, complete_claim]
    rw [held] at order
    exact order
  have releases : (s.chan ch).moving = false → (s.chan ch).followOn ≠ .backoff →
      Leads p (Part.with p (.calm (loadMotor ch))) s (s.release (loadMotor ch)) := fun still back =>
    (release_still s ch chan still back).calms fun o _ _ _ => Claim.bears_idle (release_idle o _)
  have away : ∀ {m : MState}, (s.chan ch).st = m → Chan.moving { s.chan ch with st := m } = false → (s.chan ch).moving = false :=
    fun e k => by
      unfold Chan.moving at *
      rw [e]
      exact k
  unfold State.motionYields
  dsimp only
  split
  · next st =>
    exact (brakes_leads s ch chan (by simp [Chan.atRest, st]) .none 0 false nofun).calms fun o _ _ _ =>
      Claim.bears_idle (brake_frees o (.inl rfl))
  · exact completes
  · exact completes
  · next st =>
    split
    · exact completes
    · exact completes
    · next retract backoff => exact releases (away st rfl) backoff
  · next extending retracting backoff braking =>
    have rest : (s.chan ch).atRest = true := by
      unfold Chan.atRest
      cases st : (s.chan ch).st <;> simp [st] at extending retracting backoff braking ⊢
    obtain ⟨still, follow⟩ := order.rests rest
    exact releases still (by rw [follow]; nofun)

end

section
variable {p : Part → Prop} (s : State) (chans : ∀ ch, p (.chan ch))
include chans

theorem motionSeesDrive_leads : Leads p p s s.motionSeesDrive :=
  Leads.ite (fun _ => (needDue_leads s 0 (chans 0)).trans (needDue_leads _ 1 (chans 1)))
    fun _ => (needEnds_leads s 0 (chans 0)).trans (needEnds_leads _ 1 (chans 1))

theorem motionEntersRun_leads : Leads p p s s.motionEntersRun :=
  (Leads.ite (fun _ => needDue_leads s 0 (chans 0)) fun _ => Leads.refl p s).trans
    (Leads.ite (fun _ => needDue_leads _ 1 (chans 1)) fun _ => Leads.refl p _)

theorem windLockoutBegins_leads : Leads p p s s.windLockoutBegins := by
  unfold State.windLockoutBegins
  dsimp only
  exact (setMotion_leads s _ (by rfl)).trans ((Leads.ite (fun _ => Leads.refl p _) fun _ => monitor_leads _ _ _).trans (needDue_leads _ 1 (chans 1)))

theorem windWindowEnds_leads : Leads p p s s.windWindowEnds := by
  unfold State.windWindowEnds
  dsimp only
  exact (setMotion_leads s _ (by rfl)).trans (Leads.ite (fun _ => windLockoutBegins_leads _ chans) fun _ => Leads.refl p _)

theorem windLockoutEnds_leads : Leads p p s s.windLockoutEnds := by
  unfold State.windLockoutEnds
  dsimp only
  exact (setMotion_leads s _ (by rfl)).trans ((monitor_leads _ _ _).trans (needEnds_leads _ 1 (chans 1)))

end

/-! ### The contests of the motors (R39, R40) -/

theorem reportMotor_lost (c : Claim) (u : State) (ch : Fin 2) : u.report (loadMotor ch) c.lossReply = u := by
  unfold Claim.lossReply
  match ch with
  | 0 | 1 => split <;> rfl

/-- A motor claim that contests belongs to a channel at rest with a pending move. -/
theorem ChanOrder.contests {runs : Bool} {c : Chan} (h : ChanOrder runs c .contest) : c.atRest = true ∧ c.pending ≠ .none := by
  have rest : c.atRest = true := by
    rw [← Bool.not_eq_false]
    intro away
    have moves : c.moving = true ∨ c.st = .braking := by
      unfold Chan.atRest at away
      unfold Chan.moving
      cases st : c.st <;> simp [st] at away ⊢
    rcases moves with e | e
    · exact nomatch h.held (.inl e)
    · rcases h.kept e with k | ⟨-, k⟩ <;> cases k
  exact ⟨rest, fun none => nomatch h.freed rest none⟩

theorem State.Order.motorContests {p : Part → Prop} {s : State} {ch : Fin 2} (h : s.Order p) (chan : p (.chan ch))
    (contest : (s.claim (loadMotor ch)).contesting = true) : (s.chan ch).atRest = true ∧ (s.chan ch).pending ≠ .none := by
  have order := h.chanOrder chan
  rw [contest_of_unraised ((h.serves (loadMotor ch)).unraised (loadMotor_low ch)) contest] at order
  exact order.contests

section
variable {p : Part → Prop} (s : State) (ch : Fin 2) (chan : p (.chan ch))
include chan

/-- What is told of a motor's claim. -/
theorem reportMotor_leads (r : Reply) : Leads p p s (s.report (loadMotor ch) r) := by
  match ch with
  | 0 | 1 =>
    cases r with
    | granted => exact tryStart_leads s _ chan
    | _ => exact Leads.refl p s

/-- The end of the window of a motor's contest (R39, R130). -/
theorem motorWindow_leads (contest : (s.claim (loadMotor ch)).contesting = true) :
    Leads p p s ((s.windowEnd (loadMotor ch)).1.report (loadMotor ch) (s.windowEnd (loadMotor ch)).2) := by
  refine Leads.intro fun o h => ?_
  obtain ⟨rest, pending⟩ := h.motorContests chan contest
  have shared := windowEnd_shared s (loadMotor ch)
  exact ((windowEnd_leads s (loadMotor ch) (motor_owner ch) contest).pends shared.motion shared.seq rest pending).trans
    (reportMotor_leads _ ch chan _)

/-- The failure of the announcement of a motor's contest (R38). -/
theorem motorUnsent_leads (tag : Nat) :
    Leads p p s ((s.announceFailed (loadMotor ch) tag).1.report (loadMotor ch) (s.announceFailed (loadMotor ch) tag).2) := by
  refine Leads.trans (q := p) ?_ (reportMotor_leads _ ch chan _)
  refine Leads.intro fun o h => ?_
  have leads := announceFailed_leads (p := Part.but p (.chan ch)) s (loadMotor ch) (motor_owner ch) tag
  have shared := announceFailed_shared s (loadMotor ch) tag
  by_cases contest : (s.claim (loadMotor ch)).contesting = true
  · obtain ⟨rest, pending⟩ := h.motorContests chan contest
    exact leads.pends shared.motion shared.seq rest pending
  · unfold State.announceFailed
    dsimp only
    rw [if_neg (by simp [contest])]
    exact Leads.refl p s

/-- A motor's contest ended by the level (R40). -/
theorem motorEnded_leads (contest : (s.claim (loadMotor ch)).st = .contest) : Leads p (Part.with p (.calm (loadMotor ch))) s
    ((s.contestYields (loadMotor ch)).1.report (loadMotor ch) (s.contestYields (loadMotor ch)).2) := by
  have told : (s.contestYields (loadMotor ch)).1.report (loadMotor ch) (s.contestYields (loadMotor ch)).2 = (s.contestYields (loadMotor ch)).1 :=
    reportMotor_lost _ _ ch
  have moved := contestYields_leads (p := Part.but p (.chan ch)) s (loadMotor ch) (motor_owner ch) contest
  rw [told]
  refine Leads.ends moved (Leads.refl _ _) nofun fun o h _ _ => ?_
  obtain ⟨rest, pending⟩ := h.motorContests chan (by simp [Claim.contesting, contest])
  have shared := contestYields_shared s (loadMotor ch)
  show (s.contestYields (loadMotor ch)).1.chanFits ch
  rw [chanFits_iff, motionRuns_of_seq shared.seq, chan_of_motion shared.motion]
  exact (h.chanOrder chan).pends rest pending _

end

end Sys2Proof.Machine
end

