-- ==== Sys2Proof/Proofs/LightCommandOrders.lean ====
section
/-! PROOFS. Light requests, scenes and the courtesy's end keep every order (R154 to R159). -/

namespace Sys2Proof.Machine

/-! ### Light requests, scenes and the courtesy's end keep every order (R154 to R159) -/

section
variable {p : Part → Prop}

theorem setScenes_leads (s : State) (x : Tab 4 (Tab 8 Nat)) : Leads p p s (s.setLights { s.lights with scenes := x }) :=
  setLights_marks s _ rfl (fun _ k => k) (fun _ k => k) fun _ => .inl rfl

/-- A request of the user ends the courtesy (R157 to R159). -/
theorem courtesyEnds_leads (s : State) : Leads (Part.but p .due) p s s.courtesyEnds := by
  refine Leads.mends .due ?_ fun _ _ _ _ _ waits => absurd rfl waits
  exact setLights_marks s _ rfl (fun _ _ => .inr ⟨rfl, rfl, rfl⟩) (fun _ _ waits => absurd rfl waits) fun _ => .inr rfl

/-- A pending request is abandoned (R154). -/
theorem abandonRequest_leads (idle : ¬ p .due) (s : State) (g : Fin 2) : Leads p p s (s.abandonRequest g) :=
  Leads.lamps (abandonRequest_off Part.unlit_lights Part.unlit_due s g) (fun o h _ m => by
    have lights : s.LightsOrder := h.parts _ m
    obtain ⟨rests, none⟩ := abandonRequest_rests o (lights.groupOrder g) (h.serves _)
    exact (abandonRequest_regroup s g o).order h lights (rests.order_none none)) fun _ _ _ m => absurd m idle

/-- A group takes targets within the ceiling that its claim covers (R152). -/
theorem takeTargets_leads (s : State) (g : Fin 2) (x : Tab 4 Nat) (none : (s.group g).pending = none) (dark : ∀ k, x.get k = 0) :
    Leads p p s (s.takeTargets g x) :=
  Leads.lamps (takeTargets_off Part.unlit_lights Part.unlit_due s g x) (fun o h _ m => by
    have lights : s.LightsOrder := h.parts _ m
    refine (takeTargets_regroup s g x o).order h lights (State.GroupRests.order_none (takeTargets_rests o
      ((lights.groupOrder g).rests_of_none o (h.serves _) none) lights.ceiling (fun k => by rw [dark k]; exact Nat.zero_le _)
        fun k lit => by rw [dark k] at lit; cases lit) ?_)
    rw [takeTargets_pending, none])
    fun o h _ m => (takeTargets_regroup s g x o).due (h.parts .due m) none

section
variable (lights : p .lights)
include lights

/-- After an abandoned request none is pending. -/
theorem State.Order.abandoned {s : State} (h : s.Order p) (o : s.Ok) (g : Fin 2) : ((s.abandonRequest g).group g).pending = none :=
  (abandonRequest_rests o ((h.parts _ lights : s.LightsOrder).groupOrder g) (h.serves _)).2

theorem requestGroup_leads (idle : ¬ p .due) (s : State) (acts : s.live (loadLights 0)) (g : Fin 2) (t : Tab 4 Nat) (req : Nat) :
    Leads p p s (s.requestGroup g t req) := by
  refine Leads.intro fun o h => (abandonRequest_leads idle s g).trans ?_
  exact changeGroup_leads _ ((live_congr (abandonRequest_regroup s g o).seq _).mpr acts) g (h.abandoned lights o g) t req

theorem answerLights_leads (s : State) (code req : Nat) : Leads p p s (s.answerLights code req) := answer_leads s code _

/-- A SetLevel that is taken (R157). -/
theorem takeLevel_leads (s : State) (acts : s.live (loadLights 0)) (ch : Fin 8) (value : Int) : Leads p p s (s.takeLevel ch value) := by
  unfold State.takeLevel
  dsimp only
  have ends : Leads (Part.but p .due) (Part.but p .due) s (if Item.courtesy s.seq.values = some ch then s.courtesyEnds else s) :=
    Leads.ite (fun _ => (courtesyEnds_leads (p := Part.but p .due) s).mono (fun _ m => m.2) fun _ m => m) fun _ => Leads.refl _ s
  have live : (if Item.courtesy s.seq.values = some ch then s.courtesyEnds else s).live (loadLights 0) := by
    split
    · exact (live_congr (s := s) rfl _).mpr acts
    · exact acts
  refine (ends.mono (fun _ m => m.2) fun _ m => m).trans ?_
  generalize (if Item.courtesy s.seq.values = some ch then s.courtesyEnds else s) = u at *
  exact (requestGroup_leads (p := Part.but p .due) ⟨nofun, lights⟩ (Part.but_not _ _) u live _ _ _).trans
    ((answer_leads _ _ _).trans (courtesyResumes_leads _ lights))

/-- A RecallScene that is taken (R158). -/
theorem takeScene_leads (s : State) (acts : s.live (loadLights 0)) (n : Fin 4) : Leads p p s (s.takeScene n) := by
  have within : Part.but p .due .lights := ⟨nofun, lights⟩
  have idle : ¬ Part.but p .due .due := Part.but_not _ _
  unfold State.takeScene
  dsimp only
  refine Leads.trans (q := Part.but p .due) ((courtesyEnds_leads (p := Part.but p .due) s).mono (fun _ m => m.2.2) fun _ m => m) ?_
  have live : s.courtesyEnds.live (loadLights 0) := acts
  generalize s.courtesyEnds = u at *
  refine Leads.intro fun o h => ?_
  have seq := ((abandonRequest_regroup u 0).trans (changeGroup_regroup _ 0 (sceneGroup 0 (s.lights.scenes.get n)) (s.status.serial + 1)) o).seq
  exact (requestGroup_leads within idle u live 0 _ _).trans ((requestGroup_leads within idle _ ((live_congr seq _).mpr live) 1 _ _).trans
    ((answer_leads _ _ _).trans (courtesyResumes_leads _ lights)))

/-- Both groups' requests are abandoned. -/
theorem abandonBoth_leads (idle : ¬ p .due) (s : State) : Leads p p s ((s.abandonRequest 0).abandonRequest 1) :=
  (abandonRequest_leads idle s 0).trans (abandonRequest_leads idle _ 1)

theorem State.Order.abandonedBoth {s : State} (h : s.Order p) (idle : ¬ p .due) (o : s.Ok) (g : Fin 2) :
    (((s.abandonRequest 0).abandonRequest 1).group g).pending = none := by
  obtain ⟨ok, order⟩ := abandonRequest_leads idle s 0 o h
  match g with
  | 0 =>
    rw [(abandonRequest_regroup (s.abandonRequest 0) 1 ok).lamps.groups 0 (by decide)]
    exact h.abandoned lights o 0
  | 1 => exact order.abandoned lights ok 1

/-- An AllOff that is taken (R157). -/
theorem takeAllOff_leads (s : State) : Leads p p s s.takeAllOff := by
  have within : Part.but p .due .lights := ⟨nofun, lights⟩
  have idle : ¬ Part.but p .due .due := Part.but_not _ _
  have dark : ∀ k : Fin 4, (Tab.fill 4 0).get k = 0 := by decide
  have due : ∀ {g : Fin 2} {u v : State}, u.Ok → Regroup g u v → v.lights.due = u.lights.due := fun o h => by
    rw [(h o).lamps.lights]
  unfold State.takeAllOff
  dsimp only
  have ends := courtesyEnds_leads (p := Part.but p .due) s
  have rest : s.courtesyEnds.Ok → s.courtesyEnds.Order (Part.but p .due) → Leads (Part.but p .due) (Part.but p .due) s.courtesyEnds
      ((((s.courtesyEnds.abandonRequest 0).abandonRequest 1).takeTargets 0 (Tab.fill 4 0)).takeTargets 1 (Tab.fill 4 0))
      ∧ ((((s.courtesyEnds.abandonRequest 0).abandonRequest 1).takeTargets 0 (Tab.fill 4 0)).takeTargets 1 (Tab.fill 4 0)).lights.due = .none := by
    intro o h
    have none := h.abandonedBoth within idle o
    have both := abandonBoth_leads within idle s.courtesyEnds
    have first := due o (abandonRequest_regroup s.courtesyEnds 0)
    have second := due (abandonRequest_regroup s.courtesyEnds 0 o).ok (abandonRequest_regroup (s.courtesyEnds.abandonRequest 0) 1)
    have ok := (both o h).1
    generalize (s.courtesyEnds.abandonRequest 0).abandonRequest 1 = u at *
    have aimed := takeTargets_regroup u 0 (Tab.fill 4 0)
    have other : ((u.takeTargets 0 (Tab.fill 4 0)).group 1).pending = .none := by
      rw [(aimed ok).lamps.groups 1 (by decide)]
      exact none 1
    exact ⟨both.trans ((takeTargets_leads u 0 _ (none 0) dark).trans (takeTargets_leads _ 1 _ other dark)),
      (due (aimed ok).ok (takeTargets_regroup _ 1 _)).trans ((due ok aimed).trans (second.trans first))⟩
  generalize ((((s.courtesyEnds.abandonRequest 0).abandonRequest 1).takeTargets 0 (Tab.fill 4 0)).takeTargets 1 (Tab.fill 4 0)) = w at *
  refine Leads.mends .due (Leads.trans (q := Part.but p .due) (ends.mono (fun _ m => m.2.2) fun _ m => m)
    (Leads.intro fun o h => (rest o h).1.trans (answer_leads _ _ _))) fun o h _ _ _ waits => ?_
  obtain ⟨ok, order⟩ := ends o (h.mono fun _ m => m.2.2)
  exact absurd (rest ok order).2 waits

end

theorem keepScene_leads (s : State) (n : Fin 4) : Leads p p s (s.keepScene n) :=
  (setScenes_leads s _).trans ((setCell_leads _ _).trans (answer_leads _ _ _))

/-- The courtesy's countdown ends (R159). -/
theorem courtesyReturns_leads (lights : p .lights) (s : State) (runs : s.lights.countdown.isSome = true) : Leads p p s s.courtesyReturns := by
  refine Leads.intro fun _ h => ?_
  have live : s.live (loadLights 0) := (h.parts .lights lights : s.LightsOrder).away.resolve_right fun e => by
    rw [e.2.1] at runs
    cases runs
  unfold State.courtesyReturns
  dsimp only
  refine Leads.trans (q := p) (setLights_marks s { s.lights with courtesy := false, countdown := none } rfl (fun _ _ => .inl live)
    (fun _ k => k) fun _ => .inl rfl) ?_
  split
  · next ch named =>
    exact (courtesyChange_leads (s.setLights { s.lights with courtesy := false, countdown := none }) live named .restore).mono
      (fun _ m => m.2) fun _ m => m
  · exact Leads.refl p _

end

end Sys2Proof.Machine
end

