-- ==== Sys2Proof/Proofs/StoredLights.lean ====
section
/-! PROOFS. Storage and the lights (R154, R155, R187). -/

namespace Sys2Proof.Machine

/-! ### Storage and the lights (R154, R155, R187) -/

section
variable {p : Part → Prop}

/-- The own figures stand. -/
theorem setSupply_leads (s : State) (x : Supply) (latest : x.latest = s.supply.latest) : Leads p p s (s.setSupply x) := by
  refine Leads.each (fun o => ⟨o.checked, o.lanes, o.claims, o.dropped, o.changes⟩) rfl rfl rfl id fun y _ k => ?_
  cases y with
  | figures =>
    show ∀ f, x.latest = some f → f.level ≤ 6
    rw [latest]
    exact k
  | water => exact State.WaterOrder.congr k rfl rfl rfl rfl
  | lights => exact State.LightsOrder.congr k rfl rfl rfl fun _ => rfl
  | _ => exact k

/-- What Storage's beginning and end leave in order at once. -/
def Part.stored (p : Part → Prop) (b : Bool) : Part → Prop := fun x => p x ∧ match x with
  | .ceiling | .frost | .station _ => False
  | .lights => b = false
  | _ => True

/-- Storage begins or ends. -/
theorem storageSet_leads (s : State) (b : Bool) : Leads p (Part.stored p b) s (s.storageSet b) := by
  refine Leads.mono (p := Part.stored p b) (fun _ m => m.1) (fun _ m => m) ?_
  unfold State.storageSet State.supplyModeChanged
  refine Leads.trans (q := Part.stored p b) ?_ ((setSupply_leads _ _ (by rfl)).trans (setPeriods_leads _ _))
  refine Leads.each (fun o => ⟨o.checked, o.lanes, o.claims, o.dropped, o.changes⟩) rfl rfl rfl id fun x m k => ?_
  cases x with
  | ceiling => exact m.2.elim
  | frost => exact m.2.elim
  | station f => exact m.2.elim
  | lights =>
    have off : b = false := m.2
    have k : s.LightsOrder := k
    exact ⟨k.ceiling, k.lights, fun g => { k.groups g with contests := fun e => ⟨((k.groups g).contests e).1, off⟩ }, k.away, k.named⟩
  | water =>
    have k : s.WaterOrder := k
    rw [← waterFits_iff] at k
    exact (waterFits_iff _).mp k
  | heater => exact k
  | chan ch => exact k
  | _ => exact k

/-- A group whose request Storage ends is in order with it in force (R154). -/
theorem endsInStorage_order {s : State} {g : Fin 2} (o : s.Ok)
    (lights : ∀ k, (s.light (groupChan g k)).Order s.lights.ceiling (Item.fadeMs s.seq.values) (s.claim (loadLights g)).st)
    (lit : (s.claim (loadLights g)).st = .held → (s.claim (loadLights g)).rank = 0 → 0 < s.broker.level)
    (contests : (s.claim (loadLights g)).contesting = true → (s.group g).pending.isSome = true)
    (serves : (s.claim (loadLights g)).Serves (s.live (loadLights g)) (loadLights g)) :
    (s.requestEndsInStorage g).GroupOrder g := by
  unfold State.requestEndsInStorage
  split
  · exact requestEnds_order (withdrawAsk_rests o lights lit serves) _
  · next not =>
    have none : (s.group g).pending = none := by simpa using not
    have calm : (s.claim (loadLights g)).contesting = false := by
      rw [← Bool.not_eq_true]
      exact fun e => not (contests e)
    have empty : ∀ {q : Prop} {r : GroupReq}, (s.group g).pending = some r → q := fun e => nomatch none.symm.trans e
    refine ⟨lights, fun r e => empty e, fun e => (nomatch calm.symm.trans e), fun e => ?_, fun raise => ?_, lit⟩
    · rw [none] at e
      cases e
    have held : (s.claim (loadLights g)).st = .held := by
      obtain ⟨-, -, -, -, held, -⟩ := o.claim (loadLights g)
      exact held raise
    simp [Claim.contesting, held, raise] at calm

theorem requestEndsInStorage_regroup (s : State) (g : Fin 2) : Regroup g s (s.requestEndsInStorage g) :=
  Regroup.ite (fun _ => (withdrawAsk_asks s g).regroup.trans (requestEnds_regroup _ g _)) fun _ => Regroup.refl g s

theorem requestEndsInStorage_off (off : ¬ p .lights) (idle : ¬ p .due) (s : State) (g : Fin 2) : Leads p p s (s.requestEndsInStorage g) :=
  Leads.ite (fun _ => (withdrawAsk_off off idle s g).trans (requestEnds_off off idle _ g _)) fun _ => Leads.refl p s

/-- A light group's claim is not stirred by re-tests. -/
theorem Regroups.claim {g j : Fin 2} {s t : State} (h : Regroups g s t) (order : s.Order p) (other : j ≠ g) :
    t.claim (loadLights j) = s.claim (loadLights j) :=
  (h.claims _ fun e => other (loadLights_injective e)).resolve_right fun w => ((order.serves (loadLights j)).lit (loadLights_ge j)).1 w.1

/-- Both groups' requests end, and the lights are in order in Storage (R154, R187). -/
theorem requestsEndInStorage_leads (lights : p .lights) (s : State) :
    Leads p (Part.with (Part.but (Part.stored p true) .due) .lights) s (((s.storageSet true).requestEndsInStorage 0).requestEndsInStorage 1) := by
  have away : ¬ Part.but (Part.stored p true) .due .lights := fun m => nomatch m.2.2
  have idle : ¬ Part.but (Part.stored p true) .due .due := Part.but_not _ _
  have set := storageSet_leads (p := p) s true
  have off := ((set.mono (fun _ m => m) fun _ m => m.2).trans (requestEndsInStorage_off away idle (s.storageSet true) 0)).trans
    (requestEndsInStorage_off away idle _ 1)
  intro o h
  have order : s.LightsOrder := h.parts _ lights
  obtain ⟨ok, base⟩ := set o h
  have lits : (s.storageSet true).lights = s.lights := rfl
  have seq : (s.storageSet true).seq.values = s.seq.values ∧ (s.storageSet true).inRun = s.inRun ∧ (s.storageSet true).seq.fns = s.seq.fns :=
    ⟨rfl, rfl, rfl⟩
  have claims : ∀ id, (s.storageSet true).claim id = s.claim id := fun _ => rfl
  have level : (s.storageSet true).broker.level = s.broker.level := rfl
  generalize s.storageSet true = u at *
  have ready : ∀ g, (∀ k, (u.light (groupChan g k)).Order u.lights.ceiling (Item.fadeMs u.seq.values) (u.claim (loadLights g)).st)
      ∧ ((u.claim (loadLights g)).st = .held → (u.claim (loadLights g)).rank = 0 → 0 < u.broker.level)
      ∧ ((u.claim (loadLights g)).contesting = true → (u.group g).pending.isSome = true) := fun g => by
    have group := order.groupOrder g
    have same : u.group g = s.group g := by rw [State.group, lits]; rfl
    rw [claims, level, lits, seq.1, same]
    refine ⟨fun k => ?_, group.group.lit, fun e => (group.group.contests e).1⟩
    rw [light_congr (s := s) (by rw [lits])]
    exact group.lights k
  have first := requestEndsInStorage_regroup u 0 ok
  obtain ⟨lights0, lit0, contests0⟩ := ready 0
  have order0 := endsInStorage_order ok lights0 lit0 contests0 (base.serves _)
  obtain ⟨-, base1⟩ := requestEndsInStorage_off away idle u 0 ok (base.mono fun _ m => m.2)
  have second := requestEndsInStorage_regroup (u.requestEndsInStorage 0) 1 first.ok
  obtain ⟨lights1, lit1, contests1⟩ := ready 1
  have claim1 : (u.requestEndsInStorage 0).claim (loadLights 1) = u.claim (loadLights 1) := first.claim base (by decide)
  have group1 : (u.requestEndsInStorage 0).group 1 = u.group 1 := first.lamps.groups 1 (by decide)
  have ceiling1 : (u.requestEndsInStorage 0).lights.ceiling = u.lights.ceiling := by rw [first.lamps.lights]
  have order1 := endsInStorage_order (g := 1) first.ok (fun k => by
      rw [first.light _ (by rw [groupOf_groupChan]; decide), ceiling1, first.seq, claim1]
      exact lights1 k) (by rw [claim1, first.level]; exact lit1) (by rw [claim1, group1]; exact contests1) (base1.serves _)
  obtain ⟨ok', order'⟩ := off o h
  refine ⟨ok', order'.values, order'.level, order'.remembered, order'.serves, fun x m => m.elim (fun e => ?_) (order'.parts x)⟩
  subst e
  have frame := second.lamps.lights
  have frame0 := first.lamps.lights
  show State.LightsOrder _
  generalize u.requestEndsInStorage 0 = v at *
  have claim0 : (v.requestEndsInStorage 1).claim (loadLights 0) = v.claim (loadLights 0) := second.claim base1 (by decide)
  have back : (v.requestEndsInStorage 1).GroupOrder 0 := by
    obtain ⟨channels, group⟩ := order0
    refine ⟨fun k => ?_, ?_⟩
    · rw [second.light _ (by rw [groupOf_groupChan]; decide), claim0, second.seq, frame]
      exact channels k
    · rw [second.lamps.groups 0 (by decide), claim0, second.seq, second.level]
      exact group
  refine lightsOrder_of_groups ?_ (fun g => ?_) ?_ ?_
  · rw [frame, frame0, lits]
    exact order.ceiling
  · match g with
    | 0 => exact back
    | 1 => exact order1
  · rw [frame, frame0, lits, State.inRun, second.seq, first.seq, seq.2.2]
    exact order.away.imp (fun e => ⟨seq.2.1.trans e.1, e.2⟩) id
  · rw [frame, frame0, lits, second.seq, first.seq, seq.1]
    exact order.named

/-! ### The level falls (R51, R156) -/

/-- A light group's claim at rank 0 comes back to rank 6 (R51). -/
def Claim.restored (c : Claim) : Claim := if c.st = .held ∧ c.rank = 0 then { c with rank := 6 } else c

theorem lightsRestored_claim (s : State) (g : Fin 2) (id : Fin 7) :
    (s.lightsRestored g).claim id = if id = loadLights g then (s.claim id).restored else s.claim id := by
  unfold State.lightsRestored Claim.restored
  dsimp only
  split
  · next low =>
    by_cases same : id = loadLights g
    · subst same
      rw [claim_putClaim_self, if_pos rfl, if_pos low]
    · rw [claim_putClaim_ne s _ same, if_neg same]
  · next not =>
    split
    · next same =>
      subst same
      rw [if_neg not]
    · rfl

theorem lightsRestored_asks (s : State) (g : Fin 2) : Asks (· = loadLights g) s (s.lightsRestored g) :=
  (lightsRestored_calm s g).asks (p := (· = loadLights g)) fun _ => by
    unfold State.lightsRestored
    dsimp only
    split
    · exact putClaim_asked s (loadLights g) _ rfl fun a => .inl ⟨a, rfl⟩
    · exact Asked.refl _ s

theorem Claim.Serves.restored {live : Prop} {g : Fin 2} {c : Claim} (h : c.Serves live (loadLights g)) :
    c.restored.Serves live (loadLights g) := by
  unfold Claim.restored
  split
  · next low =>
    have six : 6 ∈ loadRanks (loadLights g) := by
      match g with
      | 0 | 1 => decide
    exact { h with
      asks := fun st => ⟨(h.asks st).1, six, (h.asks st).2.2⟩
      ranked := fun _ => (nofun : (6 : Nat) ≠ 0) }
  · exact h

/-- At the level 0 a restored claim bears it. -/
theorem Claim.Bears.restored {level : Nat} {id : Fin 7} {c : Claim} (h : Claim.Bears level id c) (raised : c.raise = true → c.rank ≠ 0) :
    Claim.Bears 0 id c.restored := by
  unfold Claim.restored
  split
  · next low =>
    have calm : c.contesting = false := by
      have raise : c.raise = false := by
        rw [← Bool.not_eq_true]
        exact fun e => raised e low.2
      simp [Claim.contesting, low.1, raise]
    exact ⟨fun e => (nomatch calm.symm.trans e), fun _ => show (6 : Nat) + 0 < 7 by decide, fun _ _ => nofun⟩
  · next not =>
    exact ⟨fun e => by have := h.contests e; omega, fun e => by have := h.held e; omega, fun _ held zero => absurd ⟨held, zero⟩ not⟩

/-- What a fall of the level leaves in order at once. -/
def Part.fallen (p : Part → Prop) (l : Nat) : Part → Prop := fun x => p x ∧ match x with
  | .ceiling => False
  | .lights => l ≠ 0
  | .calm id => l ≠ 0 ∨ id.val < 5
  | _ => True

/-- The level comes down. -/
theorem levelFalls_leads (s : State) {l : Nat} (le : l ≤ s.broker.level) : Leads p (Part.fallen p l) s (s.setBroker { s.broker with level := l }) := by
  intro o h
  refine ⟨⟨o.checked, o.lanes, o.claims, o.dropped, o.changes⟩, h.values, le.trans h.level, h.remembered, h.serves, fun x m => ?_⟩
  have k := h.parts x m.1
  cases x with
  | ceiling => exact m.2.elim
  | lights =>
    have pos : l ≠ 0 := m.2
    have k : s.LightsOrder := k
    exact ⟨k.ceiling, k.lights, fun g => { k.groups g with lit := fun _ _ => Nat.pos_of_ne_zero pos }, k.away, k.named⟩
  | calm id =>
    have some : l ≠ 0 ∨ id.val < 5 := m.2
    have k : Claim.Bears s.broker.level id (s.claim id) := k
    exact ⟨fun e => by have := k.contests e; show askRank id (s.claim id) + l < 7; omega, fun e => by have := k.held e; show (s.claim id).rank + l < 7; omega,
      fun five _ _ => Nat.pos_of_ne_zero (some.resolve_right (by omega))⟩
  | water => exact State.WaterOrder.congr k rfl rfl rfl rfl
  | heater => exact k
  | chan ch => exact k
  | _ => exact k

/-- The level comes down to 0, and the light groups kept at rank 0 are restored (R51). -/
theorem lightsRestored_leads (s : State) (lights : p .lights) :
    Leads p (Part.but p .ceiling) s (((s.setBroker { s.broker with level := 0 }).lightsRestored 0).lightsRestored 1) := by
  intro o h
  have order : s.LightsOrder := h.parts _ lights
  obtain ⟨ok, base⟩ := levelFalls_leads s (Nat.zero_le _) o h
  have claims : ∀ id, (s.setBroker { s.broker with level := 0 }).claim id = s.claim id := fun _ => rfl
  have same : (s.setBroker { s.broker with level := 0 }).lights = s.lights ∧ (s.setBroker { s.broker with level := 0 }).seq = s.seq
      ∧ (s.setBroker { s.broker with level := 0 }).broker.level = 0 := ⟨rfl, rfl, rfl⟩
  generalize s.setBroker { s.broker with level := 0 } = u at *
  have off : ∀ g, ¬ Part.fallen p 0 (.owner (loadLights g)) := fun g m => by
    match g with
    | 0 | 1 => exact m.2 rfl
  have restores : ∀ (v : State) (g : Fin 2), Leads (Part.fallen p 0) (Part.fallen p 0) v (v.lightsRestored g) := fun v g =>
    (lightsRestored_asks v g).leads (fun id e _ k => by
      subst e
      rw [lightsRestored_claim, if_pos rfl]
      refine ⟨(k.serves _).restored, fun m => ?_⟩
      have low : (0 : Nat) ≠ 0 ∨ (loadLights g).val < 5 := m.2
      have := loadLights_ge g
      omega) fun _ e => e ▸ off g
  obtain ⟨ok1, order1⟩ := restores u 0 ok base
  obtain ⟨ok2, order2⟩ := restores _ 1 ok1 order1
  obtain ⟨-, first⟩ := lightsRestored_asks u 0 ok
  obtain ⟨-, second⟩ := lightsRestored_asks (u.lightsRestored 0) 1 ok1
  have claim : ∀ g, ((u.lightsRestored 0).lightsRestored 1).claim (loadLights g) = (s.claim (loadLights g)).restored := fun g => by
    rw [lightsRestored_claim, lightsRestored_claim, claims]
    match g with
    | 0 | 1 => rfl
  have lits : ((u.lightsRestored 0).lightsRestored 1).lights = s.lights := by rw [second.lights, first.lights, same.1]
  have seq : ((u.lightsRestored 0).lightsRestored 1).seq = s.seq := by rw [second.seq, first.seq, same.2.1]
  have level : ((u.lightsRestored 0).lightsRestored 1).broker.level = 0 := by rw [second.level, first.level, same.2.2]
  generalize (u.lightsRestored 0).lightsRestored 1 = t at *
  have st : ∀ c : Claim, c.restored.st = c.st ∧ c.restored.contesting = c.contesting ∧ c.restored.raise = c.raise := fun c => by
    unfold Claim.restored
    split <;> exact ⟨rfl, rfl, rfl⟩
  refine ⟨ok2, order2.values, order2.level, order2.remembered, order2.serves, fun x m => ?_⟩
  by_cases kept : Part.fallen p 0 x
  · exact order2.parts x kept
  · cases x with
    | ceiling => exact absurd rfl m.1
    | lights =>
      refine ⟨by rw [lits]; exact order.ceiling, fun ch => ?_, fun g => ?_, by rw [lits, State.inRun, seq]; exact order.away,
        by rw [lits, seq]; exact order.named⟩
      · rw [light_congr (s := s) (by rw [lits]), lits, seq, claim, (st _).1]
        exact order.lights ch
      · have k := order.groups g
        rw [State.group, lits, seq, level, claim]
        refine ⟨k.levels, by rw [(st _).2.1]; exact k.contests, by rw [(st _).1]; exact k.asks, fun raise => ?_, fun held zero => ?_⟩
        · rw [(st _).2.2] at raise
          unfold Claim.restored
          split
          · nofun
          · exact k.raised raise
        · rw [(st _).1] at held
          unfold Claim.restored at zero
          split at zero
          · cases zero
          · next not => exact absurd ⟨held, zero⟩ not
    | calm id =>
      have five : 5 ≤ id.val := by
        by_contra low
        exact kept ⟨m.2, .inr (by omega)⟩
      have bears : Claim.Bears s.broker.level id (s.claim id) := h.parts _ m.2
      show Claim.Bears t.broker.level id (t.claim id)
      have lit : ∃ g, id = loadLights g := by
        match id with
        | 0 | 1 | 2 | 3 | 4 => exact absurd five (by decide)
        | 5 => exact ⟨0, rfl⟩
        | 6 => exact ⟨1, rfl⟩
      obtain ⟨g, rfl⟩ := lit
      rw [level, claim]
      exact bears.restored (order.groups g).raised
    | _ => exact absurd ⟨m.2, trivial⟩ kept

end

end Sys2Proof.Machine
end

