-- ==== Sys2Proof/Proofs/Yields.lean ====
section
/-! PROOFS. Reports, windows and yields of every load (R33 to R40, R49). -/

namespace Sys2Proof.Machine

/-! ### Reports, windows and yields of every load (R33 to R40, R49) -/

/-- Everything but what is known of the station and which owners act. -/
def Part.whole : Part → Prop
  | .station _ | .live _ => False
  | _ => True

section
variable (s : State) (id : Fin 7)

/-- The end of the window of a contest (R39). -/
theorem windowEnds_leads (contesting : (s.claim id).contesting = true) :
    Leads Part.whole Part.whole s ((s.windowEnd id).1.report id (s.windowEnd id).2) := by
  match id with
  | 0 => exact heaterWindow_leads contesting
  | 1 => exact padWindow_leads contesting
  | 2 => exact pumpWindow_leads trivial contesting
  | 3 => exact motorWindow_leads s 0 trivial contesting
  | 4 => exact motorWindow_leads s 1 trivial contesting
  | 5 => exact lightsWindow_leads (g := 0) trivial trivial trivial contesting
  | 6 => exact lightsWindow_leads (g := 1) trivial trivial trivial contesting

/-- The failure of the announcement of a contest (R38). -/
theorem unsent_leads (tag : Nat) : Leads Part.whole Part.whole s ((s.announceFailed id tag).1.report id (s.announceFailed id tag).2) := by
  match id with
  | 0 => exact heaterUnsent_leads tag
  | 1 => exact padUnsent_leads tag
  | 2 => exact pumpUnsent_leads trivial tag
  | 3 => exact motorUnsent_leads s 0 trivial tag
  | 4 => exact motorUnsent_leads s 1 trivial tag
  | 5 => exact lightsUnsent_leads (g := 0) trivial trivial trivial tag
  | 6 => exact lightsUnsent_leads (g := 1) trivial trivial trivial tag

end

/-- The parts that hold while the claims yield: no waiting change of the courtesy light is told before all have. -/
structure Part.Yields (p : Part → Prop) : Prop where
  water : p .water
  cool : p .cool
  chans : ∀ ch, p (.chan ch)
  lights : p .lights
  due : ¬ p .due

section
variable {p : Part → Prop} (parts : Part.Yields p) (s : State) (id : Fin 7)
include parts

theorem Part.Yields.with_calm : Part.Yields (Part.with p (.calm id)) :=
  ⟨.inr parts.water, .inr parts.cool, fun ch => .inr (parts.chans ch), .inr parts.lights, fun m => m.elim nofun parts.due⟩

/-- A Held claim yields in the way of its load (R49, R50). -/
theorem yieldHeld_leads (held : (s.claim id).st = .held) (yields : 0 < s.broker.level) :
    Leads p (Part.with p (.calm id)) s (s.yieldHeld id) := by
  match id with
  | 0 => exact heaterYield_leads held
  | 1 => exact padYield_leads held
  | 2 =>
    refine Leads.intro fun _ h => pumpYields_leads parts.cool fun asking => ?_
    have order : s.WaterOrder := h.parts .water parts.water
    exact absurd (held.symm.trans (order.tries asking).1) nofun
  | 3 => exact motionYields_leads s 0 (parts.chans 0) held
  | 4 => exact motionYields_leads s 1 (parts.chans 1) held
  | 5 => exact lightsYield_leads (g := 0) parts.due held yields
  | 6 => exact lightsYield_leads (g := 1) parts.due held yields

/-- The level ends a contest (R40). -/
theorem contestEnds_leads (contest : (s.claim id).st = .contest) :
    Leads p (Part.with p (.calm id)) s ((s.contestYields id).1.lostToLevel id (s.contestYields id).2) := by
  have told : id.val < 5 → (s.contestYields id).1.lostToLevel id (s.contestYields id).2
      = (s.contestYields id).1.report id (s.contestYields id).2 := fun low => by
    unfold State.lostToLevel
    match id with
    | 0 | 1 | 2 | 3 | 4 => split <;> simp_all
    | 5 | 6 => exact absurd low (by decide)
  match id with
  | 0 => rw [told (by decide)]; exact heaterEnded_leads contest
  | 1 => rw [told (by decide)]; exact padEnded_leads contest
  | 2 => rw [told (by decide)]; exact pumpEnded_leads parts.cool contest
  | 3 => rw [told (by decide)]; exact motorEnded_leads s 0 (parts.chans 0) contest
  | 4 => rw [told (by decide)]; exact motorEnded_leads s 1 (parts.chans 1) contest
  | 5 => exact lightsEnded_leads (g := 0) parts.due contest
  | 6 => exact lightsEnded_leads (g := 1) parts.due contest

/-- A claim whose rank does not yield bears the level (R49). -/
theorem bears_of_rank {s : State} (h : s.Order p) (stays : (s.claim id).rank + s.broker.level < 7) :
    Claim.Bears s.broker.level id (s.claim id) := by
  have order : s.LightsOrder := h.parts .lights parts.lights
  have lit : 5 ≤ id.val → ∃ g, id = loadLights g := fun five => by
    match id with
    | 0 | 1 | 2 | 3 | 4 => exact absurd five (by decide)
    | 5 => exact ⟨0, rfl⟩
    | 6 => exact ⟨1, rfl⟩
  refine ⟨fun contesting => ?_, fun _ => stays, fun five held zero => ?_⟩
  · unfold askRank
    rw [if_neg]
    · exact stays
    · rintro ⟨held, zero, light⟩
      obtain ⟨g, rfl⟩ := lit (by simpa [isLightLoad] using light)
      exact (order.groups g).raised (by simpa [Claim.contesting, held] using contesting) zero
  · obtain ⟨g, rfl⟩ := lit five
    exact (order.groups g).lit held zero

/-- One claim's part of a rise of the level (R40, R49). -/
theorem yieldOne_leads : Leads p (Part.with p (.calm id)) s (s.yieldOne id) := by
  refine Leads.intro fun _ h => ?_
  have same : (s.rankYields id = true → (s.claim id).st ≠ .held ∧ (s.claim id).st ≠ .contest) → Leads p (Part.with p (.calm id)) s s := fun away =>
    (Leads.refl p s).calms fun o h _ _ => by
      by_cases yields : s.rankYields id = true
      · obtain ⟨held, contest⟩ := away yields
        refine ⟨fun e => ?_, fun e => absurd e held, fun _ e => absurd e held⟩
        simp [Claim.contesting, held, contest] at e
      · refine bears_of_rank parts id h ?_
        simpa [State.rankYields] using yields
  unfold State.yieldOne
  refine Leads.ite (fun stays => same fun e => ?_) fun yields => ?_
  · simp [e] at stays
  · split
    · next held =>
      refine yieldHeld_leads parts s id held ?_
      have ranks := (h.serves id).asks (by rw [held]; nofun)
      simp only [State.rankYields, Bool.not_eq_true', Bool.not_eq_false, decide_eq_true_eq] at yields
      have low : ∀ id : Fin 7, ∀ r ∈ loadRanks id, r ≤ 6 := by decide
      have := low id _ ranks.2.1
      omega
    · next contest => exact contestEnds_leads parts s id contest
    · next held contest => exact same fun _ => ⟨held, contest⟩

omit s id in
theorem yieldAll_leads (l : List (Fin 7)) (s : State) :
    Leads p (fun x => p x ∨ ∃ id ∈ l, x = .calm id) s (l.foldl State.yieldOne s) := by
  induction l generalizing p s with
  | nil => exact (Leads.refl p s).mono (fun _ m => m) fun _ m => m.resolve_right fun ⟨_, m, _⟩ => nomatch m
  | cons x xs ih =>
    refine (yieldOne_leads parts s x).trans ((ih (parts.with_calm x) (s.yieldOne x)).mono (fun _ m => m) fun y m => ?_)
    rcases m with m | ⟨id, m, e⟩
    · exact .inl (.inr m)
    · rcases List.mem_cons.mp m with rfl | m
      · exact .inl (.inl e)
      · exact .inr ⟨id, m, e⟩

end

end Sys2Proof.Machine
end

