-- ==== Sys2Proof/Proofs/LevelOrders.lean ====
section
/-! PROOFS. The level, the usable SUPPLY, Storage and drive keep every order (R48 to R52, R62, R78, R187). -/

namespace Sys2Proof.Machine

/-! ### The level, the usable SUPPLY, Storage and drive keep every order (R48 to R52, R62, R78, R187) -/

/-- What a rise of the level leaves in order at once. -/
def Part.risen : Part → Prop := fun x => Part.whole x ∧ match x with
  | .ceiling | .calm _ | .due => False
  | _ => True

theorem Part.risen_yields : Part.Yields Part.risen :=
  ⟨⟨trivial, trivial⟩, ⟨trivial, trivial⟩, fun _ => ⟨trivial, trivial⟩, ⟨trivial, trivial⟩, fun m => m.2⟩

/-- The level in force is at most 6 (R22, R48). -/
theorem State.Order.levelNow {p : Part → Prop} {s : State} (h : s.Order p) (figures : p .figures) : s.levelNow ≤ 6 := by
  unfold State.levelNow
  split
  · split
    · next f e => exact (h.parts .figures figures : ∀ f, s.supply.latest = some f → f.level ≤ 6) f e
    · exact Nat.zero_le 6
  · split
    · exact h.remembered _
    · exact Nat.zero_le 6

/-- The level goes up. -/
theorem levelRises_leads (s : State) {l : Nat} (rises : s.broker.level < l) (le : l ≤ 6) :
    Leads Part.whole Part.risen s (s.setBroker { s.broker with level := l }) := by
  intro o h
  refine ⟨⟨o.checked, o.lanes, o.claims, o.dropped, o.changes⟩, h.values, le, h.remembered, h.serves, fun x m => ?_⟩
  have k := h.parts x m.1
  cases x with
  | ceiling => exact m.2.elim
  | calm id => exact m.2.elim
  | lights =>
    have k : s.LightsOrder := k
    exact ⟨k.ceiling, k.lights, fun g => { k.groups g with lit := fun _ _ => Nat.zero_lt_of_lt rises }, k.away, k.named⟩
  | water => exact State.WaterOrder.congr k rfl rfl rfl rfl
  | heater => exact k
  | chan ch => exact k
  | _ => exact k

/-- The level in force is worked out again (R48, R49, R51). -/
theorem levelFollows_leads (s : State) : Leads Part.whole Part.whole s s.levelFollows := by
  refine Leads.intro fun o h => ?_
  have low := h.levelNow (p := Part.whole) trivial
  unfold State.levelFollows
  rw [readSupply_checked o.checked]
  dsimp only
  refine Leads.ite (fun _ => Leads.refl _ s) fun moves => Leads.ite (fun rises => ?_) fun falls => ?_
  · have all : ∀ id : Fin 7, id ∈ fin7 := by decide
    refine (levelRises_leads s rises low).trans ((yieldAll_leads Part.risen_yields fin7 _).trans ?_)
    generalize fin7.foldl State.yieldOne _ = u
    refine Leads.trans (q := Part.but Part.whole .due) ?_ (courtesyResumes_leads _ trivial)
    refine (ceilingFollows_leads (p := Part.but Part.whole .due) u).mono (fun x m => ?_) fun _ m => m
    obtain ⟨ceiling, due, whole⟩ := m
    cases x with
    | ceiling => exact absurd rfl ceiling
    | due => exact absurd rfl due
    | calm id => exact .inr ⟨id, all id, rfl⟩
    | _ => exact .inl ⟨whole, trivial⟩
  · have le : s.levelNow ≤ s.broker.level := by omega
    refine Leads.trans (q := Part.but Part.whole .ceiling) ?_ ((ceilingFollows_leads _).trans (retest_leads _))
    refine Leads.intro fun _ _ => Leads.ite (fun zero => ?_) fun some => ?_
    · rw [zero]
      exact lightsRestored_leads s trivial
    · refine (levelFalls_leads s le).mono (fun _ m => m) fun x m => ⟨m.2, ?_⟩
      obtain ⟨ceiling, whole⟩ := m
      cases x with
      | ceiling => exact absurd rfl ceiling
      | lights => exact some
      | calm id => exact .inl some
      | _ => exact trivial

/-- What the Broker keeps beside the claims, the level and the remembered levels. -/
theorem setUsable_leads {p : Part → Prop} (s : State) (u : Option Usable) : Leads p p s (s.setBroker { s.broker with usable := u }) := by
  refine Leads.each (fun o => ⟨o.checked, o.lanes, o.claims, o.dropped, o.changes⟩) rfl rfl rfl id fun x _ k => ?_
  cases x with
  | water => exact State.WaterOrder.congr k rfl rfl rfl rfl
  | lights => exact State.LightsOrder.congr k rfl rfl rfl fun _ => rfl
  | _ => exact k

/-- A remembered level (R48). -/
theorem setRemembered_leads {p : Part → Prop} (s : State) (n : Fin 8) {l : Nat} (le : l ≤ 6) :
    Leads p p s (s.setBroker { s.broker with remembered := s.broker.remembered.set n l }) := by
  intro o h
  refine ⟨⟨o.checked, o.lanes, o.claims, o.dropped, o.changes⟩, h.values, h.level, fun j => ?_, h.serves, fun x m => ?_⟩
  · show (s.broker.remembered.set n l).get j ≤ 6
    rw [Tab.get_set]
    split
    · exact le
    · exact h.remembered j
  · have k := h.parts x m
    cases x with
    | water => exact State.WaterOrder.congr k rfl rfl rfl rfl
    | lights => exact State.LightsOrder.congr k rfl rfl rfl fun _ => rfl
    | _ => exact k

theorem forgetLevel_leads {p : Part → Prop} (s : State) (n : Nat) : Leads p p s (s.forgetLevel n) :=
  setRemembered_leads s (stationIx n) (Nat.zero_le 6)

/-- The usable SUPPLY entry is chosen afresh (R62). -/
theorem supplyChanged_leads (s : State) : Leads Part.whole Part.whole s s.supplyChanged := by
  refine Leads.intro fun o _ => ?_
  unfold State.supplyChanged
  rw [readSupply_checked o.checked]
  dsimp only
  exact (setUsable_leads s _).trans ((levelFollows_leads _).trans
    ((Leads.ite (fun _ => retest_leads _) fun _ => Leads.refl _ _).trans (padFollows_leads _)))

/-- Storage is entered, and every block is told (R187). -/
theorem storageEntered_leads (s : State) : Leads Part.whole Part.whole s s.storageEntered := by
  show Leads _ _ s ((((((s.storageSet true).requestEndsInStorage 0).requestEndsInStorage 1).modeChanged.ceilingFollows.courtesyResumes).extendEndsInStorage
    0).extendEndsInStorage 1)
  refine (requestsEndInStorage_leads (p := Part.whole) trivial s).trans ?_
  generalize ((s.storageSet true).requestEndsInStorage 0).requestEndsInStorage 1 = u
  refine Leads.trans (q := Part.whole) ?_ ((extendEndsInStorage_leads _ 0 trivial).trans (extendEndsInStorage_leads _ 1 trivial))
  refine Leads.trans (q := Part.but Part.whole .due) ?_ (courtesyResumes_leads _ trivial)
  refine Leads.trans (q := Part.but (Part.but Part.whole .due) .ceiling) ?_ (ceilingFollows_leads _)
  refine (modeChanged_leads (p := Part.but (Part.but Part.whole .due) .ceiling) u ⟨nofun, nofun, trivial⟩).mono (fun x m => ?_) fun _ m => m
  obtain ⟨frost, ceiling, due, whole⟩ := m
  cases x with
  | frost => exact absurd rfl frost
  | ceiling => exact absurd rfl ceiling
  | station f => exact whole.elim
  | lights => exact .inl rfl
  | _ => exact .inr ⟨due, whole, trivial⟩

/-- Storage is left, and every block is told (R187). -/
theorem storageLeft_leads (s : State) : Leads Part.whole Part.whole s s.storageLeft := by
  rw [storageLeft_eq]
  refine (storageSet_leads (p := Part.whole) s false).trans ((retest_leads _).trans ?_)
  refine Leads.trans (q := Part.but Part.whole .ceiling) ?_ (ceilingFollows_leads _)
  refine (modeChanged_leads (p := Part.but Part.whole .ceiling) _ ⟨nofun, trivial⟩).mono (fun x m => ?_) fun _ m => m
  obtain ⟨frost, ceiling, whole⟩ := m
  cases x with
  | frost => exact absurd rfl frost
  | ceiling => exact absurd rfl ceiling
  | station f => exact whole.elim
  | lights => exact ⟨whole, rfl⟩
  | _ => exact ⟨whole, trivial⟩

/-- The Peer View's part that no order sees. -/
theorem setView_leads {p : Part → Prop} (s : State) (v : View) (ok : s.Ok → (s.setView v).Ok) (sets : v.sets = s.view.sets)
    (changes : p .frost → (∃ c ∈ s.view.changes, c.key.kind = .tank) → s.climate.frost = s.frostServiceNow ∨ ∃ c ∈ v.changes, c.key.kind = .tank) :
    Leads p p s (s.setView v) := by
  refine Leads.each ok rfl rfl rfl id fun x m k => ?_
  cases x with
  | frost =>
    have k : s.climate.frost = s.frostServiceNow ∨ s.tanksUntold := k
    have entries : (s.setView v).entries = s.entries := by
      show v.sets.items.flatMap ViewSet.entries = _
      rw [sets]
      rfl
    have same : (s.setView v).frostServiceNow = s.frostServiceNow := by
      unfold State.frostServiceNow
      rw [entries]
      rfl
    show s.climate.frost = (s.setView v).frostServiceNow ∨ (s.setView v).tanksUntold
    rw [same]
    exact k.elim .inl fun untold => changes m untold
  | water => exact State.WaterOrder.congr k rfl rfl rfl rfl
  | lights => exact State.LightsOrder.congr k rfl rfl rfl fun _ => rfl
  | _ => exact k

end Sys2Proof.Machine
end

