-- ==== Sys2Proof/Proofs/ReaderOrders.lean ====
section
/-! PROOFS. The readers of the Peer View keep every order (R61, R78), and so does the end of a step. -/

namespace Sys2Proof.Machine

/-! ### The readers of the Peer View keep every order (R61, R78), and so does the end of a step -/

/-- Drive accepted follows its inputs (R78). -/
theorem driveFollows_leads (s : State) : Leads Part.whole Part.whole s s.driveFollows := by
  refine Leads.intro fun o _ => ?_
  unfold State.driveFollows
  rw [readAll_checked o.checked]
  dsimp only
  refine Leads.ite (fun _ => Leads.refl _ s) fun _ => ?_
  refine (setView_leads s { s.view with driveAccepted := s.driveNow } (fun o => setDrive_ok o _) rfl fun _ k => .inr k).trans ?_
  refine Leads.trans (q := Part.whole) (t := if (s.setView { s.view with driveAccepted := s.driveNow }).seq.fns.motion then _ else _)
    (Leads.ite (fun _ => motionSeesDrive_leads _ fun _ => trivial) fun _ => Leads.refl _ _) ?_
  exact Leads.ite (fun _ => storageLeft_leads _) fun _ => Leads.refl _ _

/-- What the readers do with one change. -/
theorem reactTo_leads (s : State) (c : ViewChange) : Leads (if c.key.kind = .tank then Part.but Part.whole .frost else Part.whole) Part.whole
    s (s.reactTo c) := by
  by_cases tank : c.key.kind = .tank
  · rw [if_pos tank]
    unfold State.reactTo
    rw [tank]
    exact frostService_leads s trivial
  · rw [if_neg tank]
    unfold State.reactTo
    split
    · exact (Leads.ite (fun _ => driveFollows_leads s) fun _ => Leads.refl _ s).trans (padFollows_leads _)
    · exact Leads.ite (fun _ => (Leads.ite (fun _ => forgetLevel_leads s _) fun _ => Leads.refl _ s).trans (supplyChanged_leads _))
        fun _ => Leads.refl _ s
    · exact Leads.ite (fun _ => retest_leads s) fun _ => Leads.refl _ s
    · next e => exact absurd e tank
    · exact courtesyFollows_leads s _
    · exact Leads.refl _ s

/-- A change is taken from the list to be told. -/
theorem tells_leads (s : State) (first : ViewChange) (rest : List ViewChange) (e : s.view.changes = first :: rest) :
    Leads Part.whole (if first.key.kind = .tank then Part.but Part.whole .frost else Part.whole) s
      (s.setView { s.view with changes := rest }) := by
  split
  · exact (setView_leads (p := Part.but Part.whole .frost) s _ (setChanges_ok · rest) rfl fun m => absurd rfl m.1).mono (fun _ m => m.2) fun _ m => m
  · next tank =>
    refine setView_leads s _ (setChanges_ok · rest) rfl fun _ k => .inr ?_
    obtain ⟨c, m, kind⟩ := k
    rw [e] at m
    rcases List.mem_cons.mp m with rfl | m
    · exact absurd kind tank
    · exact ⟨c, m, kind⟩

/-- The readers are told of every change (R61). -/
theorem tellReaders_leads (s : State) : Leads Part.whole Part.whole s s.tellReaders := by
  have go : ∀ n s, s.view.changes.length ≤ n → Leads Part.whole Part.whole s (s.tellChanges n) := by
    intro n
    induction n with
    | zero =>
      intro s short
      have none : s.view.changes = [] := List.length_eq_zero_iff.mp (Nat.le_zero.mp short)
      refine setView_leads s _ (setChanges_ok · []) rfl fun _ k => ?_
      obtain ⟨c, m, -⟩ := k
      rw [none] at m
      cases m
    | succ n ih =>
      intro s short
      unfold State.tellChanges
      split
      · exact Leads.refl _ s
      · next first rest e =>
        refine Leads.intro fun o _ => ((tells_leads s first rest e).trans (reactTo_leads _ first)).trans (ih _ ?_)
        obtain ⟨-, d, view, -⟩ := reactTo_sights (s.setView { s.view with changes := rest }) first (setChanges_ok o rest)
        rw [view]
        show rest.length ≤ n
        rw [e] at short
        exact Nat.le_of_succ_le_succ short
  exact go _ s (by omega)

/-- The owners are told of a failed frame (R166). -/
theorem reportFailed_leads (s : State) (l : List Tagged) : Leads Part.whole Part.whole s (s.reportFailed l) :=
  Leads.foldl _ (fun s t => by
    dsimp only
    split
    · exact unsent_leads s _ t.tag
    · exact Leads.refl _ s) l s

/-- A state in order, with its readers told, after what hands its records over. -/
theorem handedOver_order {s t : State} (h : s.Order Part.whole) (handed : s.handedOver t) : t.Order Part.whole := by
  have broker := handed.broker
  have seq := handed.seq
  have water := handed.water
  have climate := handed.climate
  have lights := handed.lights
  have pins := handed.pins
  have view := handed.view
  refine ⟨by rw [seq]; exact h.values, by rw [broker]; exact h.level, by rw [broker]; exact h.remembered, fun id => ?_, fun x m => ?_⟩
  · rw [live_congr seq, handed.claim]
    exact h.serves id
  · have k := h.parts x m
    cases x with
    | water => exact State.WaterOrder.congr k water pins seq (handed.claim _)
    | lights => exact State.LightsOrder.congr k lights seq (by rw [broker]) fun g => handed.claim _
    | heater =>
      show t.heaterFits
      unfold State.heaterFits
      rw [climate, seq, handed.claim]
      exact k
    | pad =>
      show t.padOrder
      unfold State.padOrder
      rw [climate, handed.claim]
      exact k
    | chan ch =>
      show t.chanFits ch
      rw [chanFits_iff, motionRuns_of_seq seq, handed.chan, handed.claim]
      exact (chanFits_iff s ch).mp k
    | due =>
      show t.dueWaits
      unfold State.dueWaits State.group
      rw [lights, seq]
      exact k
    | frost =>
      show t.climate.frost = t.frostServiceNow ∨ t.tanksUntold
      unfold State.tanksUntold
      rw [climate, frostServiceNow_congr view seq climate (by rw [water]), view]
      exact k
    | cool =>
      show t.live loadHeater ∨ t.climate.frost = false
      rw [live_congr seq, climate]
      exact k
    | ceiling =>
      show t.lights.ceiling = t.ceilingNow
      unfold State.ceilingNow
      rw [lights, seq, broker]
      exact k
    | figures =>
      show ∀ f, t.supply.latest = some f → f.level ≤ 6
      rw [handed.supply]
      exact k
    | station f => exact m.elim
    | live id => exact m.elim
    | calm id =>
      show Claim.Bears t.broker.level id (t.claim id)
      rw [broker, handed.claim]
      exact k

/-- The end of a step leaves every part in order, and nothing untold (R61). -/
theorem publish_order {s : State} (was : State) (o : s.Ok) (h : s.Order Part.whole) : (State.publish was s).Order Part.whole ∧
    (State.publish was s).view.changes = [] := by
  have handed := publish_tellReaders was s
  refine ⟨handedOver_order (tellReaders_leads s o h).2 handed, ?_⟩
  rw [handed.view]
  exact tellReaders_empty s

end Sys2Proof.Machine
end

