-- ==== Sys2Proof/Proofs/OrderBridge.lean ====
section
/-! PROOFS. Between steps: the block invariants and the orders of the parts. -/

namespace Sys2Proof.Machine

/-! ### Between steps: the block invariants and the orders of the parts -/

section
variable {s : State} (fits : s.Fits)
include fits

theorem State.Fits.serving (id : Fin 7) : Claim.Serves (s.live id) id (s.claim id) := by
  obtain ⟨-, -, serves⟩ := fits.claims
  obtain ⟨asks, draws, raises, forced, announces, timed, staged, stands, ranked, -, lit⟩ := serves id
  exact ⟨fun st => ⟨⟨(asks st).1, (asks st).2.1⟩, (asks st).2.2⟩, draws, raises, forced, announces, timed, fun c => (staged c).1, stands, ranked,
    fun five => ⟨(lit five).1, (lit five).2.1⟩⟩

theorem State.Fits.bears (id : Fin 7) : Claim.Bears s.broker.level id (s.claim id) := by
  obtain ⟨-, -, serves⟩ := fits.claims
  obtain ⟨-, -, -, -, -, -, staged, -, -, held, lit⟩ := serves id
  exact ⟨fun c => (staged c).2, held, fun five => (lit five).2.2⟩

/-- A light group kept at rank 0 does not raise: its raise would be at rank 6, above the level 0 (R37, R51). -/
theorem State.Fits.raised (g : Fin 2) (raise : (s.claim (loadLights g)).raise = true) : (s.claim (loadLights g)).rank ≠ 0 := by
  intro zero
  obtain ⟨-, -, -, -, held, -⟩ := fits.sound.ok.claim (loadLights g)
  have held := held raise
  have bears := fits.bears (loadLights g)
  have low := bears.contests (by simp [Claim.contesting, held, raise])
  have pos := bears.lit (loadLights_ge g) held zero
  rw [askRank, if_pos ⟨held, zero, by simp [isLightLoad, loadLights_ge g]⟩] at low
  omega

theorem State.Fits.lightsOrder : s.LightsOrder := by
  obtain ⟨ceiling, channels, groups, away, waits⟩ := fits.lights
  refine ⟨?_, fun ch => ?_, fun g => ?_, away, fun some => ?_⟩
  · rw [ceiling]
    exact ceilingNow_le s
  · obtain ⟨level, start, target, duty, still, step, fades, lit⟩ := channels ch
    exact ⟨level, start, target, duty, still, step, fades, lit⟩
  · obtain ⟨levels, contests, asks⟩ := groups g
    exact ⟨levels, contests, asks, fits.raised g, (fits.bears (loadLights g)).lit (loadLights_ge g)⟩
  · have named := waits some
    cases e : Item.courtesy s.seq.values with
    | none =>
      rw [e] at named
      cases named
    | some ch => rfl

/-- A state that fits has every part in order. -/
theorem State.Fits.order : s.Order Part.whole := by
  obtain ⟨level, remembered, -⟩ := fits.claims
  refine ⟨fits.values.1, level, remembered, fits.serving, fun x m => ?_⟩
  have frost : s.climate.frost = s.frostServiceNow := fits.climate.2.1
  cases x with
  | water => exact (waterFits_iff s).mp fits.water
  | heater => exact fits.heater
  | pad =>
    obtain ⟨-, -, -, -, -, -, -, -, -, -, -, -, -, -, -, pad, -⟩ := fits.climate
    exact pad
  | chan ch => exact fits.motion ch
  | lights => exact fits.lightsOrder
  | due =>
    obtain ⟨-, -, -, -, waits⟩ := fits.lights
    exact waits
  | frost => exact .inl frost
  | cool =>
    show s.live loadHeater ∨ s.climate.frost = false
    by_cases acts : (s.seq.fns.heat && s.inRun) = true
    · rw [Bool.and_eq_true] at acts
      exact .inl ⟨acts.2, acts.1⟩
    · refine .inr (frost.trans ?_)
      unfold State.frostServiceNow
      rw [Bool.eq_false_iff.mpr acts]
      rfl
  | ceiling => exact fits.lights.1
  | figures =>
    obtain ⟨-, -, -, -, latest⟩ := fits.supply
    exact fun f e => (latest f e).2.2
  | station f => exact m.elim
  | live id => exact m.elim
  | calm id => exact fits.bears id

end

section
variable {s : State} (h : s.Order Part.whole)
include h

theorem State.Order.waterFits : s.waterFits := (waterFits_iff s).mpr (h.parts .water trivial)

theorem State.Order.climateFits (told : s.view.changes = []) : s.climateFits := by
  have heater : HeaterOrder s.climate s.seq.values (s.claim loadHeater) := h.parts .heater trivial
  have frost : s.climate.frost = s.frostServiceNow ∨ s.tanksUntold := h.parts .frost trivial
  have pad : (s.claim loadPad).st = .held ↔ s.climate.pad = true := h.parts .pad trivial
  refine ⟨heater.zones, frost.resolve_right ?_, heater.single, heater.hen, heater.held, heater.asks, heater.starting, heater.running,
    heater.cold, heater.hdem, heater.startTimer, heater.runTimer, heater.purgeTimer, heater.locked, heater.lockout, pad, heater.failures⟩
  rintro ⟨c, m, -⟩
  rw [told] at m
  cases m

theorem State.Order.motionFits : s.motionFits := fun ch => h.parts (.chan ch) trivial

theorem State.Order.lightsFit : s.lightsFit := by
  have order : s.LightsOrder := h.parts .lights trivial
  refine ⟨h.parts .ceiling trivial, fun ch => ?_, fun g => ?_, order.away, h.parts .due trivial⟩
  · obtain ⟨level, start, target, duty, still, step, fades, lit⟩ := order.lights ch
    exact ⟨level, start, target, duty, still, step, fades, lit⟩
  · have group := order.groups g
    exact ⟨group.levels, group.contests, group.asks⟩

theorem State.Order.claimsServe : s.claimsServe := by
  refine ⟨h.level, h.remembered, fun id => ?_⟩
  have serves := h.serves id
  have bears : Claim.Bears s.broker.level id (s.claim id) := h.parts (.calm id) trivial
  exact ⟨fun st => ⟨(serves.asks st).1.1, (serves.asks st).1.2, (serves.asks st).2⟩, serves.draws, serves.raises, serves.forced,
    serves.announces, serves.timed, fun c => ⟨serves.staged c, bears.contests c⟩, serves.stands, serves.ranked, bears.held,
    fun five => ⟨(serves.lit five).1, (serves.lit five).2, bears.lit five⟩⟩

end

/-- What a command's result must keep: from a state that fits, every part is in order before the readers are told. -/
def Lands (s : State) (r : Host.Outcome State Fault Refusal) : Prop := ∀ t, r = .next t → t.Order Part.whole ∧ t.view.changes = []

section
variable {s u : State}

theorem Lands.done (fits : s.Fits) (ok : u.Ok) (h : u.Order Part.whole) : Lands s (done s u) := fun t e => by
  cases e
  exact publish_order s ok h

theorem Leads.lands (fits : s.Fits) (h : Leads Part.whole Part.whole s u) : Lands s (done s u) :=
  Lands.done fits (h fits.sound.ok fits.order).1 (h fits.sound.ok fits.order).2

end

end Sys2Proof.Machine
end

