-- ==== Sys2Proof/Proofs/ViewOrders.lean ====
section
/-! PROOFS. Changes of the Peer View keep every order (R61, R63 to R73). -/

namespace Sys2Proof.Machine

/-! ### Changes of the Peer View keep every order (R61, R63 to R73) -/

theorem Entry.frost_tank {e : Entry} (h : e.showsFrostDemand = true) : e.kind = .tank := by
  unfold Entry.showsFrostDemand at h
  unfold Entry.kind
  cases payload : e.payload <;> rw [payload] at h <;> simp at h ⊢
  rfl

/-- Frost demand as the ways of the table show it. -/
theorem frostDemand_iff (s : State) : s.entries.any Entry.showsFrostDemand = true
    ↔ ∃ i w, ((s.view.sets.get i).ways.get w).showsFrostDemand = true := by
  rw [List.any_eq_true]
  constructor
  · rintro ⟨e, m, shows⟩
    obtain ⟨-, i, w, rfl⟩ := mem_entries.mp m
    exact ⟨i, w, shows⟩
  · rintro ⟨i, w, shows⟩
    refine ⟨_, mem_entries_of_way ?_, shows⟩
    unfold Entry.showsFrostDemand at shows
    simp only [Bool.and_eq_true] at shows
    exact shows.1.1

section
variable {p : Part → Prop}

/-- A new view: each change of what a TANK entry shows is told. -/
theorem setView_tells (s : State) (v : View) (ok : s.Ok → (s.setView v).Ok) (changes : ∀ c ∈ s.view.changes, c ∈ v.changes)
    (ways : ∀ i w, ((v.sets.get i).ways.get w).showsFrostDemand = ((s.view.sets.get i).ways.get w).showsFrostDemand
      ∨ ∃ c ∈ v.changes, c.key.kind = .tank) : Leads p p s (s.setView v) := by
  refine Leads.each ok rfl rfl rfl id fun x m k => ?_
  cases x with
  | frost =>
    have k : s.climate.frost = s.frostServiceNow ∨ s.tanksUntold := k
    show s.climate.frost = (s.setView v).frostServiceNow ∨ ∃ c ∈ v.changes, c.key.kind = .tank
    by_cases told : ∃ c ∈ v.changes, c.key.kind = .tank
    · exact .inr told
    · refine k.imp (fun k => ?_) fun ⟨c, m, kind⟩ => ⟨c, changes c m, kind⟩
      have same : (s.setView v).entries.any Entry.showsFrostDemand = s.entries.any Entry.showsFrostDemand := by
        rw [Bool.eq_iff_iff, frostDemand_iff, frostDemand_iff]
        refine exists_congr fun i => exists_congr fun w => ?_
        rw [show (s.setView v).view = v from rfl, (ways i w).resolve_right told]
      unfold State.frostServiceNow at k ⊢
      rw [same]
      exact k
  | water => exact State.WaterOrder.congr k rfl rfl rfl rfl
  | lights => exact State.LightsOrder.congr k rfl rfl rfl fun _ => rfl
  | _ => exact k

/-- Waits, counts and flags of the Peer View. -/
theorem setWaits_leads (s : State) (v : View) (same : v = { v with sets := s.view.sets, changes := s.view.changes }) :
    Leads p p s (s.setView v) :=
  setView_leads s v (fun o => ⟨by rw [same]; exact o.checked, o.lanes, o.claims, o.dropped, o.changes⟩) (by rw [same])
    fun _ k => .inr (by rw [same]; exact k)

theorem lose_leads (s : State) : Leads p p s s.lose :=
  (setWaits_leads s _ rfl).trans (Leads.ite (fun _ => Leads.refl p _) fun _ => monitor_leads _ _ _)

/-- A change of freshness (R59, R71, R73). -/
theorem refresh_leads (s : State) (q : Entry → Bool) (f : Entry → Freshness × Nat) : Leads p p s (s.refresh q f) := by
  refine setView_tells s (s.refresh q f).view (fun o => ⟨fun i w => ?_, o.lanes, o.claims, o.dropped, o.changes⟩)
    (fun c m => List.mem_append_left _ m) fun i w => ?_
  · show (((s.refresh q f).view.sets.get i).ways.get w).bad = false
    rw [refresh_way]
    unfold Entry.refreshed
    split
    · exact Entry.seal_good _
    · exact o.checked i w
  · rw [refresh_way]
    generalize he : (s.view.sets.get i).ways.get w = e
    unfold Entry.refreshed
    split
    · next meets =>
      rw [Bool.and_eq_true] at meets
      by_cases fresh : e.fresh = (f e).1
      · left
        unfold Entry.showsFrostDemand
        show (e.valid && (f e).1.live && _) = (e.valid && e.fresh.live && _)
        rw [fresh]
        rfl
      · by_cases tank : e.kind = .tank
        · right
          refine ⟨{ key := e.key, what := .freshness e.fresh (f e).1 }, List.mem_append_right _ ?_, tank⟩
          rw [List.mem_filterMap]
          refine ⟨e, List.mem_filter.mpr ⟨he ▸ mem_entries_of_way (by rw [he]; exact meets.1), meets.2⟩, ?_⟩
          rw [if_neg fresh]
        · left
          have none : ∀ g : Entry, g.kind = e.kind → g.showsFrostDemand = false := fun _ kind =>
            eq_false_of_ne_true fun shows => tank (kind.symm.trans (Entry.frost_tank shows))
          rw [none e rfl]
          exact none _ rfl
    · exact .inl rfl

theorem entryAges_leads (s : State) (k : Key) : Leads p p s (s.entryAges k) := refresh_leads s _ _

theorem entryGoesStale_leads (s : State) (k : Key) : Leads p p s (s.entryGoesStale k) := refresh_leads s _ _

theorem holdBegins_leads (s : State) : Leads p p s s.holdBegins := (refresh_leads s _ _).trans (setWaits_leads _ _ rfl)

theorem holdResumes_leads (s : State) : Leads p p s s.holdResumes := (refresh_leads s _ _).trans (setWaits_leads _ _ rfl)

theorem holdRunsOut_leads (s : State) : Leads p p s s.holdRunsOut := (refresh_leads s _ _).trans (setWaits_leads _ _ rfl)

/-- One way takes an entry, and its readers are told (R63). -/
theorem setWay_leads (s : State) (i : Fin 16) (w : Fin 4) (e : Entry) (good : e.bad = false) (cs : List ViewChange)
    (told : (((s.view.sets.get i).ways.get w).valid = true ∧ ((s.view.sets.get i).ways.get w).kind = .tank) ∨ e.kind = .tank →
      ∃ c ∈ cs, c.key.kind = .tank) : Leads p p s ((s.setWay i w e).tell cs) := by
  have ways : ∀ v : ViewSet, (v.touch w).ways = v.ways := fun v => by
    unfold ViewSet.touch
    split <;> rfl
  have way : ∀ j x, ((((s.setWay i w e).tell cs).view.sets.get j).ways.get x)
      = if i = j ∧ w = x then e else (s.view.sets.get j).ways.get x := fun j x => by
    show ((s.view.sets.set i _).get j).ways.get x = _
    rw [Tab.get_set]
    split
    · next same =>
      subst same
      rw [ways, Tab.get_set]
      split
      · next same => rw [if_pos ⟨rfl, same⟩]
      · next other => rw [if_neg fun e => other e.2]
    · next other => rw [if_neg fun e => other e.1]
  refine setView_tells s ((s.setWay i w e).tell cs).view (fun o => ⟨fun j x => ?_, o.lanes, o.claims, o.dropped, o.changes⟩)
    (fun c m => List.mem_append_left _ m) fun j x => ?_
  · show ((((s.setWay i w e).tell cs).view.sets.get j).ways.get x).bad = false
    rw [way]
    split
    · exact good
    · exact o.checked j x
  · rw [way]
    split
    · next same =>
      obtain ⟨rfl, rfl⟩ := same
      by_cases tank : (((s.view.sets.get i).ways.get w).valid = true ∧ ((s.view.sets.get i).ways.get w).kind = .tank) ∨ e.kind = .tank
      · obtain ⟨c, m, kind⟩ := told tank
        exact .inr ⟨c, List.mem_append_right _ m, kind⟩
      · left
        have was : ((s.view.sets.get i).ways.get w).showsFrostDemand = false := eq_false_of_ne_true fun shows => by
          refine tank (.inl ⟨?_, Entry.frost_tank shows⟩)
          unfold Entry.showsFrostDemand at shows
          simp only [Bool.and_eq_true] at shows
          exact shows.1.1
        rw [was]
        exact eq_false_of_ne_true fun shows => tank (.inr (Entry.frost_tank shows))
    · exact .inl rfl

/-- An arrival (R63 to R65). -/
theorem arrive_leads (s : State) (n : Nat) (r : Record) : Leads p p s (s.arrive n r) := by
  refine Leads.intro fun o _ => ?_
  unfold State.arrive
  dsimp only
  rw [read_checked o.checked]
  split
  · next w found =>
    have holds := List.find?_some found
    rw [Bool.and_eq_true, beq_iff_eq] at holds
    have kind : ((s.view.sets.get (setOf { station := n, kind := r.kind, subject := r.subject })).ways.get w).kind = r.payload.kind :=
      congrArg Key.kind holds.2
    refine setWay_leads s _ w _ (Entry.seal_good _) _ fun tank => ⟨_, List.mem_cons_self, ?_⟩
    refine kind.trans (tank.elim (fun e => kind.symm.trans e.2) id)
  · unfold State.fill
    dsimp only
    refine Leads.trans (q := p) (setWay_leads s _ _ _ (Entry.seal_good _) _ fun tank => ?_)
      (Leads.ite (fun _ => lose_leads _) fun _ => Leads.refl p _)
    rcases tank with ⟨valid, tank⟩ | tank
    · rw [if_pos valid]
      exact ⟨_, List.mem_cons_self, tank⟩
    · exact ⟨_, List.mem_append_right _ List.mem_cons_self, tank⟩

/-- The end of View Overflow (R70). -/
theorem overflowEnds_leads (s : State) : Leads p p s
    ((s.setView { s.view with overflow := false, overflowTimer := none }).monitor Mon.viewOverflow false).retest :=
  (setWaits_leads s _ rfl).trans ((monitor_leads _ _ _).trans (retest_leads _))

end

end Sys2Proof.Machine
end

