-- ==== Sys2Proof/Proofs/LineOrders.lean ====
section
/-! PROOFS. The line and the Dispatcher keep every order (R162 to R172). -/

namespace Sys2Proof.Machine

/-! ### The line and the Dispatcher keep every order (R162 to R172) -/

section
variable {p : Part → Prop}

theorem setBus_leads (s : State) (b : Bus) (lanes : s.bus.lanesFit → b.lanesFit) (dropped : s.bus.dropped ≤ 255 → b.dropped ≤ 255) :
    Leads p p s (s.setBus b) := Leads.still (fun o => ⟨o.checked, lanes o.lanes, o.claims, dropped o.dropped, o.changes⟩) rfl

/-- A record is taken from the Receive Queue: it is ignored and counted, or handed on (R74, R170). -/
theorem dispatch_leads (s : State) (q : Record → Bool) (f : State → Nat → Record → State)
    (h : ∀ u n r, q r = true → u.seq = s.seq → Leads p p u (f u n r)) : Leads p p s (s.dispatch q f) := by
  unfold State.dispatch
  refine Leads.ite (fun _ => Leads.refl p s) fun _ => ?_
  split
  · exact Leads.refl p s
  · next r _ =>
    refine Leads.ite (fun meets => ?_) fun _ => Leads.refl p s
    refine Leads.trans (q := p) (setBus_leads s { s.bus with rx := dropRecord s.bus.rx } id id) ?_
    exact Leads.ite (fun _ => setWaits_leads _ _ rfl) fun _ => h _ _ _ meets rfl

theorem onRequest_leads (s : State) (code : Nat) (f : State → Nat → Int → State)
    (h : ∀ u n v, u.seq = s.seq → Leads p p u (f u n v)) : Leads p p s (s.onRequest code f) :=
  dispatch_leads s _ _ fun u _ r _ seq => h u _ _ seq

theorem errorNote_leads (s : State) : Leads p p s (match s.bus.rx with
    | .note _ :: q => s.setBus { s.bus with rx := q }
    | _ => s) := by
  split
  · exact setBus_leads s _ id id
  · exact Leads.refl p s

theorem frameCloses_leads (s : State) (r : Reception) : Leads p p s (s.frameCloses r) := by
  have key : ∀ e d a, Leads p p s (s.setBus { s.bus.enqueue e with lastClose := d, acked := a }) := fun e d a =>
    have r := enqueue_rest e s.bus
    setBus_leads s _ r.1 (fun h => le_of_eq_of_le r.2.2.1 h)
  unfold State.frameCloses
  split
  · generalize hu : s.setBus _ = u
    refine Leads.trans (q := p) (hu ▸ key _ _ _) ?_
    exact (setBus_leads u { u.bus with silenceTimer := some Config.silenceMs, busSilent := false } id id).trans
      (Leads.ite (fun _ => monitor_leads _ _ _) fun _ => Leads.refl p _)
  · exact key _ _ _

theorem receives_leads (s : State) (line : List Bit) : Leads p p s (s.receives line) := by
  unfold State.receives
  refine Leads.ite (fun _ => Leads.refl p s) fun _ => ?_
  split
  · exact frameCloses_leads s _
  · exact Leads.refl p s

theorem fallsSilent_leads (s : State) : Leads p p s s.fallsSilent :=
  (setBus_leads s { s.bus with silenceTimer := none, busSilent := true } id id).trans (monitor_leads _ _ _)

theorem startsSending_leads (s : State) : Leads p p s s.startsSending := by
  unfold State.startsSending
  refine Leads.ite (fun _ => Leads.refl p s) fun _ => ?_
  split
  · exact setBus_leads s _ id id
  · exact Leads.refl p s

theorem stopsSending_leads (s : State) : Leads p p s s.stopsSending := setBus_leads s { s.bus with sending := none } id id

theorem leave_leads (s : State) : Leads p p s (s.setBus s.bus.leave) := by
  unfold Bus.leave
  split
  · split
    · exact setBus_leads s _ (fun h => ⟨h.1, h.2.1, h.2.2.1, h.2.2.2.1, by simp, h.2.2.2.2.2⟩) id
    · exact setBus_leads s _ (fun h => ⟨h.1, h.2.1, h.2.2.1, h.2.2.2.1, h.2.2.2.2.1, by simp⟩) id
  · exact setBus_leads s _ id id

theorem builds_leads (s : State) : Leads p p s s.builds :=
  setBus_leads s _ (Bus.build_fits _ _) fun h => by rw [Bus.build_dropped]; exact h

theorem gathered_leads (s : State) (c : Nat) : Leads p p s (s.gathered c) :=
  (setBus_leads s (s.bus.ripen c) (ripen_lanes c s.bus) (by unfold Bus.ripen; split <;> exact id)).trans (builds_leads _)

theorem buildProbe_leads (s : State) : Leads p p s s.buildProbe := by
  unfold State.buildProbe
  refine Leads.ite (fun _ => Leads.refl p s) fun _ => setBus_leads s _ (fun h => ?_) id
  obtain ⟨h1, h2, h3, h4, h5, h6⟩ := h
  refine ⟨le_trans (List.length_filter_le _ _) h1, h2, h3.sublist List.filter_sublist, h4, h5, ?_⟩
  intro f hf
  simp only [Option.some.injEq] at hf
  subst hf
  exact ⟨le_refl 1, by simp⟩

theorem probeDue_leads (s : State) : Leads p p s s.probeDue :=
  (setBus_leads s { s.bus with probeTimer := some Config.probeMs } id id).trans (buildProbe_leads _)

/-- A claim whose announcement or window moves is to its owner as it was. -/
def Claim.retimed (c d : Claim) : Prop := ∃ a w, d = { c with announcing := a, window := w }

theorem State.WaterOrder.retimed {s t : State} (h : s.WaterOrder) (water : t.water = s.water) (pins : t.pins = s.pins) (seq : t.seq = s.seq)
    (claim : (s.claim loadPump).retimed (t.claim loadPump)) : t.WaterOrder := by
  obtain ⟨a, w, claim⟩ := claim
  rw [← waterFits_iff] at h ⊢
  unfold State.waterFits State.freshOk State.valveClosed State.inRun State.inReset at *
  rw [water, pins, seq, claim]
  exact h

theorem Claim.Bears.retimed {level : Nat} {id : Fin 7} {c d : Claim} (h : Claim.Bears level id c) (k : c.retimed d) : Claim.Bears level id d := by
  obtain ⟨a, w, rfl⟩ := k
  exact ⟨h.contests, h.held, h.lit⟩

theorem State.LightsOrder.retimed {s t : State} (h : s.LightsOrder) (lights : t.lights = s.lights) (seq : t.seq = s.seq)
    (level : t.broker.level = s.broker.level) (claims : ∀ g, (s.claim (loadLights g)).retimed (t.claim (loadLights g))) : t.LightsOrder := by
  refine ⟨by rw [lights]; exact h.ceiling, fun ch => ?_, fun g => ?_, by rw [State.inRun, lights, seq]; exact h.away,
    by rw [lights, seq]; exact h.named⟩
  · obtain ⟨a, w, claim⟩ := claims (groupOf ch)
    rw [light_congr (s := s) (by rw [lights]), lights, seq, claim]
    exact h.lights ch
  · obtain ⟨a, w, claim⟩ := claims g
    have k := h.groups g
    rw [State.group, lights, seq, level, claim]
    exact ⟨k.levels, k.contests, k.asks, k.raised, k.lit⟩

/-- The Broker moves announcements and windows alone: no owner sees it. -/
theorem Leads.retimed {s t : State} (ok : s.Ok → t.Ok) (h : t = { s with broker := t.broker }) (level : t.broker.level = s.broker.level)
    (remembered : t.broker.remembered = s.broker.remembered) (claims : ∀ j, (s.claim j).retimed (t.claim j))
    (serves : ∀ j live, (s.claim j).Serves live j → (t.claim j).Serves live j) : Leads p p s t := by
  have seq : t.seq = s.seq := by rw [h]
  refine Leads.each ok (by rw [seq]) level remembered (fun k j => ?_) fun x m k => ?_
  · rw [live_congr seq]
    exact serves j _ (k j)
  · cases x with
    | water => exact State.WaterOrder.retimed k (by rw [h]) (by rw [h]) seq (claims _)
    | heater =>
      obtain ⟨a, w, claim⟩ := claims loadHeater
      have k : HeaterOrder s.climate s.seq.values (s.claim loadHeater) := k
      show HeaterOrder t.climate t.seq.values (t.claim loadHeater)
      rw [show t.climate = s.climate by rw [h], seq, claim]
      exact { k with }
    | pad =>
      obtain ⟨a, w, claim⟩ := claims loadPad
      show (t.claim loadPad).st = .held ↔ t.climate.pad = true
      rw [show t.climate = s.climate by rw [h], claim]
      exact k
    | chan ch =>
      obtain ⟨a, w, claim⟩ := claims (loadMotor ch)
      show t.chanFits ch
      rw [chanFits_iff, motionRuns_of_seq seq, chan_of_motion (by rw [h]), claim]
      exact (chanFits_iff s ch).mp k
    | lights => exact State.LightsOrder.retimed k (by rw [h]) seq level fun g => claims _
    | calm id =>
      show Claim.Bears t.broker.level id (t.claim id)
      rw [level]
      exact Claim.Bears.retimed k (claims id)
    | due =>
      show t.dueWaits
      unfold State.dueWaits State.group
      rw [show t.lights = s.lights by rw [h], seq]
      exact k
    | ceiling =>
      show t.lights.ceiling = t.ceilingNow
      unfold State.ceilingNow
      rw [show t.lights = s.lights by rw [h], seq, level]
      exact k
    | frost =>
      show t.climate.frost = t.frostServiceNow ∨ t.tanksUntold
      unfold State.tanksUntold
      rw [show t.climate = s.climate by rw [h], frostServiceNow_congr (s := s) (by rw [h]) seq (by rw [h]) (by rw [h]), show t.view = s.view by rw [h]]
      exact k
    | cool =>
      show t.live loadHeater ∨ t.climate.frost = false
      rw [live_congr seq, show t.climate = s.climate by rw [h]]
      exact k
    | figures =>
      show ∀ f, t.supply.latest = some f → f.level ≤ 6
      rw [show t.supply = s.supply by rw [h]]
      exact k
    | station f =>
      show f t.seq
      rw [seq]
      exact k
    | live id => exact (live_congr seq id).mpr k

/-- A contest's window starts (R38). -/
theorem announced_leads (s : State) (id : Fin 7) (tag : Nat) : Leads p p s (s.announced id tag) := by
  have rest := announced_rest s id tag
  refine Leads.retimed (fun o => (announced_calm s id tag o).1) (by rw [rest]; rfl) (by rw [rest]; rfl) (by rw [rest]; rfl)
    (fun j => ?_) fun j live k => ?_
  · rw [announced_claim]
    split
    · exact ⟨_, _, rfl⟩
    · exact ⟨_, _, rfl⟩
  · rw [announced_claim]
    split
    · next given =>
      exact ⟨k.asks, k.draws, k.raises, k.forced, nofun, fun _ => ⟨given.2.1, rfl⟩, fun _ => .inr rfl, k.stands, k.ranked, k.lit⟩
    · exact k

theorem reportCompleted_leads (s : State) (l : List Tagged) : Leads p p s (s.reportCompleted l) :=
  Leads.foldl _ (fun s t => by
    split
    · exact announced_leads s _ t.tag
    · exact Leads.refl p s) l s

theorem clearLineFault_leads (s : State) : Leads p p s s.clearLineFault := by
  unfold State.clearLineFault
  dsimp only
  refine (setBus_leads s { s.bus with lineFault := false, probeTimer := none, probeCount := 0, failed := 0 } id id).trans
    ((monitor_leads _ _ _).trans (Leads.trans (q := p) (Leads.ite (fun _ => holdResumes_leads _) fun _ => Leads.refl p _) (retest_leads _)))

theorem countCompleted_leads (s : State) (b : Bool) : Leads p p s (s.countCompleted b) :=
  (setBus_leads s { s.bus with failed := 0 } id id).trans (Leads.ite (fun _ => Leads.ite (fun _ => clearLineFault_leads _)
    fun _ => setBus_leads _ _ (by exact id) (by exact id)) fun _ => Leads.refl p _)

theorem frameCompleted_leads (s : State) : Leads p p s s.frameCompleted := by
  unfold State.frameCompleted
  split
  · exact ((leave_leads s).trans (reportCompleted_leads _ _)).trans ((countCompleted_leads _ _).trans (builds_leads _))
  · exact Leads.refl p s

end

/-! A failed frame is told to the owners. -/

theorem declareLineFault_leads (s : State) : Leads Part.whole Part.whole s s.declareLineFault := by
  unfold State.declareLineFault
  dsimp only
  refine Leads.trans (q := Part.whole) (t := s.setBus { s.bus with
    lineFault := true, probeTimer := some Config.probeMs, probeCount := 0, urgentBuf := none, normalBuf := none })
    (setBus_leads s _ (fun h => ⟨h.1, h.2.1, h.2.2.1, h.2.2.2.1, by simp, by simp⟩) id) ?_
  exact (holdBegins_leads _).trans ((monitor_leads _ _ _).trans (reportFailed_leads _ _))

theorem countFailed_leads (s : State) (b : Bool) : Leads Part.whole Part.whole s (s.countFailed b) := by
  unfold State.countFailed
  dsimp only
  exact (setBus_leads s { s.bus with
    failed := min 8 (s.bus.failed + 1), probeCount := if b then 0 else s.bus.probeCount } id id).trans
    (Leads.ite (fun _ => declareLineFault_leads _) fun _ => Leads.refl _ _)

theorem frameFailed_leads (s : State) : Leads Part.whole Part.whole s s.frameFailed := by
  unfold State.frameFailed
  split
  · exact ((leave_leads s).trans (reportFailed_leads _ _)).trans ((countFailed_leads _ _).trans (builds_leads _))
  · exact Leads.refl _ s

end Sys2Proof.Machine
end

