-- ==== Sys2Proof/Proofs/ClimateOrders.lean ====
section
/-! PROOFS. The commands of the Climate Controller keep every order (R104 to R116). -/

namespace Sys2Proof.Machine

/-! ### The commands of the Climate Controller (R104 to R116) -/

/-- An operation that a command does only where its premise holds. -/
theorem Leads.when {p : Part → Prop} {s u : State} {c : Prop} [Decidable c] (h : c → Leads p p s u) :
    Leads p p s (if c then u else s) := Leads.ite h fun _ => Leads.refl p s

section
variable {p : Part → Prop} (s : State)

/-- A change of what the heater's order reads but for the zones, which keep within their bound. -/
theorem setClimate_zoned (c : Climate) (same : c = { s.climate with
      zones := c.zones, call := c.call, callCount := c.callCount, readTimer := c.readTimer })
    (zones : (∀ z, (s.climate.zones.get z).demand ≤ 100) → ∀ z, (c.zones.get z).demand ≤ 100) : Leads p p s (s.setClimate c) :=
  setClimate_leads s c (fun _ h => h.zoned (zones h.zones) (by rw [same])) (fun _ => by rw [same])
    (fun _ => by rw [same]; exact ⟨rfl, rfl⟩) fun _ => .inr (by rw [same])

theorem setCall_leads : Leads p p s s.setCall := Leads.when fun _ => setClimate_free s _ rfl

theorem countCall_leads : Leads p p s s.countCall := Leads.when fun _ => setClimate_free s _ rfl

theorem climateReads_leads (x y : Int) : Leads p p s (s.climateReads x y) := by
  refine Leads.trans (q := p) (t := s.setClimate (s.climate.read x y)) (setClimate_zoned s _ rfl fun _ z => ?_)
    (Leads.when fun _ => (setCall_leads _).trans ((countCall_leads _).trans (heaterFollows_leads _)))
  show (((s.climate.read x y)).zones.get z).demand ≤ 100
  have read := s.climate.read_zone (fun z => if z = 0 then x else y) z
  rw [if_pos rfl, if_neg (by decide)] at read
  rw [read]
  exact Zone.reading_demand_le _ _

theorem takeSetpoint_leads (z : Fin 2) (value : Int) : Leads p p s (s.takeSetpoint z value) := by
  rw [takeSetpoint_eq]
  unfold State.setpointTaken
  refine Leads.trans (q := p) ((setClimate_zoned s { s.climate with zones := s.climate.zones.modify z (·.setTo value) } rfl
    fun h x => ?_).trans ((setCell_leads _ _).trans (setDue_leads _ _))) ((setCall_leads _).trans (heaterFollows_leads _))
  show ((s.climate.zones.set z _).get x).demand ≤ 100
  rw [Tab.get_set]
  split
  · exact zoneDemand_le _ _
  · exact h x

/-- A mode is chosen: frost service, which reads it, is worked out again (R105, R110). -/
theorem takeMode_leads (cool : p .cool) (m : ClimateMode) : Leads p p s (s.takeMode m) := by
  unfold State.takeMode
  refine Leads.ite (fun _ => Leads.refl p s) fun _ => ?_
  refine Leads.trans (q := Part.but p .frost) ?_ (modeChanged_leads _ cool)
  refine Leads.trans (q := Part.but p .frost) (t := s.setClimate { s.climate with chosen := m }) ?_ (setCell_leads _ _)
  exact (setClimate_leads s { s.climate with chosen := m } (p := Part.but p .frost) (fun _ h => h.free rfl) (fun _ => rfl)
    (fun m => absurd rfl m.1) fun _ => .inr rfl).mono (fun _ m => m.2) fun _ m => m

theorem heaterResets_leads : Leads p p s s.heaterResets := by
  rw [heaterResets_eq]
  refine Leads.trans (q := p) (Leads.keeps .heater ?_ fun _ h _ m => lockoutReset_fits (h.parts .heater m)) (heaterFollows_leads _)
  unfold State.lockoutReset
  refine Leads.trans (q := Part.but p .heater) (setClimate_off s { s.climate with
    failures := 0, lockout := false, heater := if s.climate.heater = .lockout then .off else s.climate.heater }
    (Part.but_not p _) rfl rfl rfl) (Leads.when fun _ => (setCell_leads _ _).trans (monitor_leads _ _ _))

/-- A heater at work acts. -/
theorem State.Order.heaterWorks {s : State} (h : s.Order p) (heater : p .heater)
    (work : s.climate.heater = .starting ∨ s.climate.heater = .running) : s.live loadHeater :=
  h.live (by rw [HeaterOrder.held (h.parts .heater heater) |>.mpr (work.imp_right .inl)]; nofun)

theorem heaterFails_leads (heater : p .heater) (work : s.climate.heater = .starting ∨ s.climate.heater = .running) :
    Leads p p s s.heaterFails :=
  Leads.keeps .heater (heaterFails_off s (Part.but_not p _)) fun o h _ m => by
    have order : s.heaterFits := h.parts .heater m
    exact (heaterFails_failed o order (h.heaterWorks heater work).1 h.values.heaterDraws.2.1 work).order order
      (heaterFails_calm s o).2.1.seq

theorem enterRunning_leads (starting : s.climate.heater = .starting) : Leads p p s s.enterRunning :=
  Leads.keeps .heater (enterRunning_off s (Part.but_not p _)) fun o h _ m => by
    have order : s.heaterFits := h.parts .heater m
    obtain ⟨-, one, le⟩ := h.values.heaterDraws
    have held := order.held.mpr (.inl starting)
    have hen := order.hen.mpr (.inl starting)
    obtain ⟨climate, lowered⟩ := enterRunning_runs o held one (le.trans (order.starting starting).ge)
    have st : ((s.claim loadHeater).lowered (Item.runDraw s.seq.values)).st = .held := held
    show s.enterRunning.heaterFits
    unfold State.heaterFits
    rw [climate, lowered, (enterRunning_calm s o).2.1.seq]
    exact {
      zones := order.zones, failures := order.failures
      single := fun e => absurd (st.symm.trans e) nofun
      hen := ⟨fun _ => .inr rfl, fun _ => hen⟩
      held := ⟨fun _ => .inr (.inl rfl), fun _ => st⟩
      asks := fun e => by rw [st] at e; simp at e
      starting := nofun
      running := fun _ => rfl
      cold := fun e => absurd (hen.symm.trans e) nofun
      hdem := heaterDemand_le order.zones
      startTimer := ⟨nofun, nofun⟩
      runTimer := fun _ => rfl
      purgeTimer := ⟨fun e => absurd (order.purgeTimer.mp e) (by rw [starting]; nofun), nofun⟩
      locked := nofun
      lockout := fun e => absurd (order.lockout e) (by rw [starting]; nofun)
      unforced := fun e => absurd (st.symm.trans e) nofun
      standing := fun e => absurd (st.symm.trans e) nofun }

theorem runTimed_leads : Leads p p s (s.setClimate { s.climate with failures := 0, runTimer := none }) :=
  setClimate_leads s _ (fun _ h => { h with failures := Nat.zero_le _, runTimer := nofun }) (fun _ => rfl) (fun _ => ⟨rfl, rfl⟩)
    fun _ => .inr rfl

/-- The purge is over and the claim released: the heater is Off, or in Lockout (R114, R116). -/
theorem HeaterOrder.purged {c : Climate} {v : Values} {k d : Claim} (h : HeaterOrder c v k) (purging : c.heater = .purging)
    (idle : d.st = .idle) : HeaterOrder { c with
      heater := if c.lockout then .lockout else .off, purgeTimer := none, remembered := false } v d := by
  have hen := h.hen
  have start := h.startTimer
  have run := h.runTimer
  rw [purging] at hen start run
  simp at hen start run
  have rests : (if c.lockout then Heater.lockout else .off) = .lockout ∧ c.lockout = true
      ∨ (if c.lockout then Heater.lockout else .off) = .off ∧ c.lockout = false := by
    cases c.lockout
    · exact .inr ⟨rfl, rfl⟩
    · exact .inl ⟨rfl, rfl⟩
  generalize (if c.lockout then Heater.lockout else .off) = x at rests
  refine { zones := h.zones, hdem := h.hdem, cold := h.cold, failures := h.failures
           single := by rw [idle]; nofun
           hen := ?_
           held := ?_
           asks := by rw [idle]; nofun
           starting := ?_
           running := ?_
           startTimer := ?_
           runTimer := by simp [run]
           purgeTimer := ?_
           locked := ?_
           lockout := ?_
           unforced := by rw [idle]; nofun
           standing := by rw [idle]; nofun }
  all_goals rcases rests with ⟨rfl, locked⟩ | ⟨rfl, locked⟩ <;> simp [hen, start, idle, locked]

theorem purgeEnds_leads (heater : p .heater) (timed : s.climate.purgeTimer.isSome = true) : Leads p p s s.purgeEnds := by
  refine Leads.intro fun o h => ?_
  have order : s.heaterFits := h.parts .heater heater
  have purging := order.purgeTimer.mp timed
  have live : s.live loadHeater := h.live (by rw [order.held.mpr (.inr (.inr purging))]; nofun)
  refine Leads.acts live ?_
  rw [purgeEnds_eq]
  have calm : Calm s s.purgeEnded := (setClimate_calm s _).trans (release_calm _ _)
  have ok := (calm o).1
  have seq := (calm o).2.1.seq
  have idle : (s.purgeEnded.claim loadHeater).st = .idle := release_idle (setClimate_calm s _ o).1 loadHeater
  have rests : s.purgeEnded.heaterFits := by
    unfold State.heaterFits
    rw [purgeEnded_climate, seq]
    exact order.purged purging idle
  have off : s.purgeEnded.climate.heater = if s.climate.lockout then .lockout else .off := by rw [purgeEnded_climate]
  have lockout : s.purgeEnded.climate.lockout = s.climate.lockout := by rw [purgeEnded_climate]
  refine Leads.keeps .heater ?_ fun _ k _ _ => ?_
  · have ends : Leads (Part.but (Part.with p (.live loadHeater)) .heater) (Part.but (Part.with p (.live loadHeater)) .heater) s
        s.purgeEnded := (setClimate_off s { s.climate with
      heater := if s.climate.lockout then .lockout else .off, purgeTimer := none, remembered := false } (Part.but_not _ _) rfl rfl
      rfl).trans (release_leads _ loadHeater (Part.but_not _ _))
    exact ends.trans (Leads.when fun _ => askHeater_off _ (Part.but_not _ _) ⟨nofun, .inl rfl⟩)
  · show State.heaterFits _
    split
    · next wants =>
      simp only [Bool.and_eq_true] at wants
      have unlocked : s.climate.lockout = false := by
        have w := wants.2
        unfold State.heaterWanted at w
        rw [lockout] at w
        simp only [Bool.and_eq_true, Bool.not_eq_true'] at w
        exact w.1.2
      rw [unlocked] at off
      exact (askHeater_acted ok rests (by unfold State.heaterDraws; rw [seq]; exact h.values.heaterDraws) off idle wants.2).fits
    · exact rests

/-- HRUN changes (R112, R113). -/
theorem hrunFollows_leads (heater : p .heater) (b : Bool) : Leads p p s (
    let s := s.setPins { s.pins with hrun := b }
    match s.climate.heater, b with
    | .starting, true => s.enterRunning
    | .running, false => if s.pins.hflt then s else s.heaterFails
    | _, _ => s) := by
  dsimp only
  refine Leads.trans (q := p) (t := s.setPins { s.pins with hrun := b }) (setPins_leads s _ rfl) ?_
  generalize s.setPins { s.pins with hrun := b } = u
  split
  · next e => exact enterRunning_leads u e
  · next e => exact Leads.ite (fun _ => Leads.refl p u) fun _ => heaterFails_leads u heater (.inr e)
  · exact Leads.refl p u

/-- HFLT changes (R112, R113). -/
theorem hfltFollows_leads (heater : p .heater) (b : Bool) : Leads p p s (
    let s := s.setPins { s.pins with hflt := b }
    match s.climate.heater, b with
    | .starting, true => s.heaterFails
    | .running, true => s.heaterFails
    | _, _ => s) := by
  dsimp only
  refine Leads.trans (q := p) (t := s.setPins { s.pins with hflt := b }) (setPins_leads s _ rfl) ?_
  generalize s.setPins { s.pins with hflt := b } = u
  split
  · next e => exact heaterFails_leads u heater (.inl e)
  · next e => exact heaterFails_leads u heater (.inr e)
  · exact Leads.refl p u

theorem startTimed_leads (heater : p .heater) (timed : s.climate.startTimer.isSome = true) : Leads p p s s.heaterFails :=
  Leads.intro fun _ h => heaterFails_leads s heater
    (.inl (HeaterOrder.startTimer (c := s.climate) (h.parts .heater heater) |>.mp timed))

end

end Sys2Proof.Machine
end

