-- ==== Sys2Proof/Proofs/CommandOrders.lean ====
section
/-! PROOFS. The commands, from a state in order (R28 to R182). -/

namespace Sys2Proof.Machine

/-! ### The commands, from a state in order (R28 to R182) -/

section
variable {p : Part → Prop} (s : State)

/-- A request that is refused, or answered and acted on where the block is fitted and the part in Run. -/
theorem refused_leads (code : Nat) (fitted : Bool) {u : State} (h : fitted = true → s.inRun = true → Leads p p s u) :
    Leads p p s (match s.refusal fitted with
      | some o => s.answer code o
      | none => u) := by
  split
  · exact answer_leads s code _
  · next e =>
    unfold State.refusal at e
    split at e
    · cases e
    · next fits =>
      split at e
      · cases e
      · next run => exact h (by simpa using fits) (by simpa using run)

/-- A light request that Storage too refuses. -/
theorem lightRefused_leads (code : Nat) (range : Bool) {u : State} (h : s.live (loadLights 0) → Leads p p s u) :
    Leads p p s (match s.lightRefusal range with
      | some o => s.answer code o
      | none => u) := by
  split
  · exact answer_leads s code _
  · next e =>
    unfold State.lightRefusal State.refusal at e
    by_cases fitted : s.seq.fns.lights = true
    · by_cases run : s.inRun = true
      · exact h ⟨run, fitted⟩
      · rw [Bool.not_eq_true] at run
        simp [fitted, run] at e
    · rw [Bool.not_eq_true] at fitted
      simp [fitted] at e

theorem handDraw_leads (id : Fin 7) : Leads p p s (s.handDraw id) := by
  unfold State.handDraw
  exact (hand_leads s _ _).trans (setPeriods_leads _ _)

theorem clearAttention_leads : Leads p p s (s.setStatus { s.status with attention := false }) :=
  Leads.still (fun k => (setStatus_calm s _ (by exact id) k).1) rfl

theorem falls_leads (d : Due) {c : Prop} [Decidable c] : Leads p p s (if c then s.setDue d else s) :=
  Leads.when fun _ => setDue_leads s d

theorem takeShed_leads (n : Nat) (r : Record) : Leads Part.whole Part.whole s (s.takeShed n r) := by
  unfold State.takeShed
  split
  · dsimp only
    exact (readAll_leads s _).trans (Leads.when fun _ =>
      (setRemembered_leads _ _ (min_le_right _ _)).trans (levelFollows_leads _))
  · exact Leads.refl _ s

theorem engFollows_leads (b : Bool) : Leads p p s (if s.pins.eng = b then s
    else
      let s := s.setPins { s.pins with eng := b }
      if s.inReset then s else (s.setView (s.view.engWaits b)).padFollows) := by
  dsimp only
  refine Leads.ite (fun _ => Leads.refl p s) fun _ =>
    Leads.trans (q := p) (t := s.setPins { s.pins with eng := b }) (setPins_leads s _ rfl) ?_
  generalize s.setPins { s.pins with eng := b } = u
  exact Leads.ite (fun _ => Leads.refl p u) fun _ => (setWaits_leads u (u.view.engWaits b) rfl).trans (padFollows_leads _)

theorem driveSet_leads : Leads Part.whole Part.whole s
    (s.setView { s.view with localDrive := true, driveSetWait := none }).driveFollows :=
  (setWaits_leads s { s.view with localDrive := true, driveSetWait := none } rfl).trans (driveFollows_leads _)

theorem driveClears_leads : Leads Part.whole Part.whole s
    (s.setView { s.view with localDrive := false, driveClearWait := none }).driveFollows :=
  (setWaits_leads s { s.view with localDrive := false, driveClearWait := none } rfl).trans (driveFollows_leads _)

theorem chgavFollows_leads (b : Bool) : Leads p p s (s.setPins { s.pins with chgav := b }).padFollows :=
  (setPins_leads s { s.pins with chgav := b } rfl).trans (padFollows_leads _)

/-- Only a contest's window runs (R38). -/
theorem contestWindow_leads (id : Fin 7) (timed : (s.claim id).window.isSome = true) : Leads Part.whole Part.whole s
    (match s.windowEnd id with | (s, r) => s.report id r) :=
  Leads.intro fun _ h => windowEnds_leads s id ((h.serves id).timed timed).1

theorem valveFaults_leads : Leads p p s (
    let was := s.water.valveFault
    let s := s.setWater { s.water with valveFault := true, valveTimer := none }
    if was then s else s.monitor Mon.valveFault true) :=
  (setWater_free s { s.water with valveFault := true, valveTimer := none } rfl).trans
    (Leads.ite (fun _ => Leads.refl p _) fun _ => monitor_leads _ _ _)

theorem pdemFollows_leads (b : Bool) : Leads p p s (s.setPins { s.pins with pdem := b }).demandFollows :=
  (setPins_leads s { s.pins with pdem := b } rfl).trans (demandFollows_leads _)

section
variable (cool : p .cool)
include cool

theorem waterRead_leads (acts : s.waterActs = true) (a b c : Nat) (x y z : Int) : Leads p p s
    ((s.setWater { s.water with readTimer := some Config.readingMs }).waterReads a b c x y z) := by
  unfold State.waterActs at acts
  simp only [Bool.and_eq_true, Bool.not_eq_true'] at acts
  exact (setWater_free s { s.water with readTimer := some Config.readingMs } rfl).trans
    (waterReads_leads _ cool (by exact acts) a b c x y z)

theorem closeDump_leads : Leads p p s (match s.refusal s.seq.fns.water with
    | some o => s.answer 11 o
    | none => if s.freshTemp < 30 then s.answer 11 Outcome.frost else (s.answer 11 Outcome.accepted).closesDump) :=
  refused_leads s 11 _ fun _ _ => Leads.ite (fun _ => answer_leads s _ _) fun _ =>
    (answer_leads s _ _).trans (closesDump_leads _ cool)

theorem setClimateMode_leads (mode : Nat) : Leads p p s (match s.refusal s.seq.fns.heat with
    | some o => s.answer 2 o
    | none =>
      match asMode mode with
      | none => s.answer 2 Outcome.range
      | some m =>
        if s.seq.storage then s.answer 2 Outcome.storage
        else
          (s.answer 2 (if m ≠ .off ∧ s.climate.lockout then Outcome.lockout else Outcome.accepted)).takeMode m) := by
  refine refused_leads s 2 _ fun _ _ => ?_
  split
  · exact answer_leads s _ _
  · exact Leads.ite (fun _ => answer_leads s _ _) fun _ => (answer_leads s _ _).trans (takeMode_leads _ cool _)

end

theorem clearPump_leads : Leads p p s (match s.refusal s.seq.fns.water with
    | some o => s.answer 12 o
    | none =>
      let s := s.answer 12 Outcome.accepted
      if s.water.runaway then
        ((s.setWater { s.water with runaway := false }).monitor Mon.pumpRunaway false).demandFollows
      else s) :=
  refused_leads s 12 _ fun _ _ => (answer_leads s _ _).trans (Leads.when fun _ => clearsPump_leads _)

theorem setSetpoint_leads (zone : Nat) (value : Int) : Leads p p s (match s.refusal s.seq.fns.heat with
    | some o => s.answer 1 o
    | none =>
      match asFin2 zone with
      | none => s.answer 1 Outcome.range
      | some z => (s.answer 1 Outcome.accepted).takeSetpoint z value) := by
  refine refused_leads s 1 _ fun _ _ => ?_
  split
  · exact answer_leads s _ _
  · exact (answer_leads s _ _).trans (takeSetpoint_leads _ _ _)

theorem resetHeater_leads : Leads p p s (match s.refusal s.seq.fns.heat with
    | some o => s.answer 3 o
    | none => (s.answer 3 Outcome.accepted).heaterResets) :=
  refused_leads s 3 _ fun _ _ => (answer_leads s _ _).trans (heaterResets_leads _)

section
variable (chans : ∀ ch, p (.chan ch))
include chans

/-- A motion request (R127): what it does with a channel, in Run on a station with the function. -/
theorem motionRequest_leads (code : Nat) (f : State → Fin 2 → State) (h : ∀ u ch, u.motionRuns = true → Leads p p u (f u ch)) :
    Leads p p s (s.motionRequest code f) :=
  onRequest_leads s code _ fun u n _ _ => refused_leads u code _ fun fitted run => by
    split
    · exact answer_leads u _ _
    · exact h u _ (by unfold State.motionRuns; rw [fitted, run]; rfl)

theorem extend_leads (ch : Fin 2) (runs : s.motionRuns = true) : Leads p p s (match s.extendRefusal ch with
    | some o => s.answer 4 o
    | none => s.takeExtend 4 ch) := by
  split
  · exact answer_leads s _ _
  · exact takeExtend_leads s ch (chans ch) runs 4

theorem endStop_leads (ch : Fin 2) (which : EndStop) (active : Bool) : Leads p p s (
    let s := s.setPins (s.pins.withStop ch which active)
    if s.motionActs then s.stopsFollow ch else s) :=
  (setPins_leads s (s.pins.withStop ch which active) (by cases which <;> rfl)).trans
    (Leads.when fun _ => stopsFollow_leads _ ch (chans ch))

theorem calibrationEnds_leads (ch : Fin 2) (x : Nat) : Leads p p s
    ((s.setPins { s.pins with motor := s.pins.motor.set ch x }).calibrated ch) :=
  (setPins_leads s { s.pins with motor := s.pins.motor.set ch x } rfl).trans (calibrated_leads _ ch (chans ch))

theorem holdAsserted_leads : Leads p p s (if s.pins.hold then s
    else
      let s := s.setPins { s.pins with hold := true }
      if s.motionRuns then (s.holdFollows 0).holdFollows 1 else s) :=
  Leads.ite (fun _ => Leads.refl p s) fun _ => (setPins_leads s { s.pins with hold := true } rfl).trans
    (Leads.when fun _ => (holdFollows_leads _ 0 (chans 0)).trans (holdFollows_leads _ 1 (chans 1)))

theorem holdReleased_leads : Leads p p s (if s.pins.hold then
      let s := s.setPins { s.pins with hold := false }
      if s.motionRuns then (s.actOnPending 0).actOnPending 1 else s
    else s) :=
  Leads.when fun _ => (setPins_leads s { s.pins with hold := false } rfl).trans
    (Leads.when fun _ => (actOnPending_leads _ 0 (chans 0)).trans (actOnPending_leads _ 1 (chans 1)))

end

theorem motorCurrent_leads (ch : Fin 2) (x : Nat) : Leads p p s
    ((s.setPins { s.pins with motor := s.pins.motor.set ch x }).currentFollows ch) :=
  (setPins_leads s { s.pins with motor := s.pins.motor.set ch x } rfl).trans (currentFollows_leads _ ch)

section
variable (lights : p .lights)
include lights

theorem setLevel_leads (channel : Nat) (value : Int) : Leads p p s (match asFin8 channel with
    | none => s.answer 7 ((s.lightRefusal false).getD Outcome.range)
    | some ch =>
      match s.lightRefusal true with
      | some o => s.answer 7 o
      | none => s.takeLevel ch value) := by
  split
  · exact answer_leads s _ _
  · exact lightRefused_leads s 7 _ fun acts => takeLevel_leads lights s acts _ value

theorem recallScene_leads (scene : Nat) : Leads p p s (match asFin4 scene with
    | none => s.answer 8 ((s.lightRefusal false).getD Outcome.range)
    | some n =>
      match s.lightRefusal true with
      | some o => s.answer 8 o
      | none => s.takeScene n) := by
  split
  · exact answer_leads s _ _
  · exact lightRefused_leads s 8 _ fun acts => takeScene_leads lights s acts _

theorem allOff_leads : Leads p p s (match s.refusal s.seq.fns.lights with
    | some o => s.answer 10 o
    | none => s.takeAllOff) := refused_leads s 10 _ fun _ _ => takeAllOff_leads lights s

end

theorem storeScene_leads (scene : Nat) : Leads p p s (match asFin4 scene with
    | none => s.answer 9 ((s.lightRefusal false).getD Outcome.range)
    | some n =>
      match s.lightRefusal true with
      | some o => s.answer 9 o
      | none => s.keepScene n) := by
  split
  · exact answer_leads s _ _
  · exact lightRefused_leads s 9 _ fun _ => keepScene_leads s _

theorem ackAttention_leads : Leads p p s (match s.refusal true with
    | some o => s.answer 13 o
    | none =>
      let s := s.answer 13 Outcome.accepted
      s.setStatus { s.status with attention := false }) :=
  refused_leads s 13 _ fun _ _ => (answer_leads s _ _).trans (clearAttention_leads _)

theorem enterStorage_leads : Leads Part.whole Part.whole s (match s.refusal true with
    | some o => s.answer 14 o
    | none =>
      if s.seq.storage then s.answer 14 Outcome.accepted
      else if s.view.driveAccepted then s.answer 14 Outcome.drive
      else (s.answer 14 Outcome.accepted).storageEntered) :=
  refused_leads s 14 _ fun _ _ => Leads.ite (fun _ => answer_leads s _ _) fun _ => Leads.ite (fun _ => answer_leads s _ _)
    fun _ => (answer_leads s _ _).trans (storageEntered_leads _)

theorem leaveStorage_leads : Leads Part.whole Part.whole s (match s.refusal true with
    | some o => s.answer 15 o
    | none =>
      let s := s.answer 15 Outcome.accepted
      if s.seq.storage then s.storageLeft else s) :=
  refused_leads s 15 _ fun _ _ => (answer_leads s _ _).trans (Leads.when fun _ => storageLeft_leads _)

theorem countersPeriod_leads {c : Prop} [Decidable c] : Leads p p s (if c then
      (s.setPeriods { s.periods with counters := some Config.countersMs }).setDue
        { s.due with status1 := true, status2 := true }
    else s) := Leads.when fun _ => (setPeriods_leads s _).trans (setDue_leads _ _)

/-- A record of a kind the part does not know is counted (R170). -/
theorem countUnknown_leads : Leads p p s (s.setBus { s.bus with unknown := sat255 (s.bus.unknown + 1) }) :=
  setBus_leads s _ (fun h => h) (fun h => h)

end

end Sys2Proof.Machine
end

