-- ==== Sys2Proof/Proofs/PhaseOrders.lean ====
section
/-! PROOFS. Resets and phases keep every order (R183 to R186). -/

namespace Sys2Proof.Machine

/-! ### Out of Run, and the accounting interval (R2, R183 to R186) -/

/-- A claim out of Run is at rest, whatever its owner. -/
theorem Claim.serves_idle {live : Prop} {id : Fin 7} {c : Claim} (fits : c.fits) (idle : c.st = .idle)
    (announces : c.announcing = true → c.contesting = true) (timed : c.window.isSome = true → c.contesting = true) :
    c.Serves live id := by
  obtain ⟨-, -, -, undrawn, raises, -⟩ := fits
  have raise : c.raise = false := by
    by_contra e
    rw [Bool.not_eq_false] at e
    exact absurd (raises e) (by rw [idle]; nofun)
  have quiet : c.contesting = false := by simp [Claim.contesting, idle, raise]
  refine ⟨fun e => absurd idle e, fun e => ?_, fun e => ?_, fun e => ?_, announces, fun e => ?_, fun e => ?_, fun e => ?_,
    fun e => ?_, fun _ => ⟨by rw [idle]; nofun, fun e => ?_⟩⟩
  · simp [Claim.drawing, idle] at e
  · rw [raise] at e; cases e
  · rw [idle] at e; cases e
  · have e := timed e
    rw [quiet] at e
    cases e
  · rw [quiet] at e; cases e
  · rw [idle] at e; cases e
  · rw [idle] at e; simp at e
  · rw [idle] at e; cases e

theorem HeaterOrder.revalued {c : Climate} {v w : Values} {k : Claim} (h : HeaterOrder c v k) (idle : k.st = .idle) :
    HeaterOrder c w k := by
  have off : ¬ (c.heater = .starting ∨ c.heater = .running ∨ c.heater = .purging) := fun e => by
    have held := h.held.mpr e
    rw [idle] at held
    cases held
  exact { h with
    asks := fun e => by rw [idle] at e; simp at e
    starting := fun e => absurd (.inl e) off
    running := fun e => absurd (.inr (.inl e)) off }

/-- A light that is dark has no fade, whatever the fade time. -/
theorem Light.Order.refaded {ceiling fade other : Nat} {l : Light} (h : l.Order ceiling fade .idle) : l.Order ceiling other .idle :=
  { h with
    fades := fun e => by
      obtain ⟨-, differs, -⟩ := h.fades e
      have lit : 0 < l.level ∨ 0 < l.target := by omega
      exact absurd (h.lit lit) nofun }

section
variable {s t : State} (h : s.Order Part.whole)
include h

theorem State.Order.idle (out : s.inRun = false) (id : Fin 7) : (s.claim id).st = .idle := by
  by_contra busy
  have live := (h.live busy).1
  rw [out] at live
  cases live

theorem State.Order.frostless (out : s.inRun = false) : s.climate.frost = false :=
  (h.parts .cool trivial).resolve_left fun live => by
    have run := live.1
    rw [out] at run
    cases run

/-- Out of Run the values in force, the phase and the reading timers change, and channels that rest calibrate. -/
theorem State.Order.rested (out : s.inRun = false) (out' : t.inRun = false) (values : Values.fit t.seq.values)
    (fns : t.seq.fns = s.seq.fns) (storage : t.seq.storage = s.seq.storage) (reset : s.inReset = false → t.inReset = false)
    (broker : t.broker = s.broker) (pins : t.pins.dumpOpen = s.pins.dumpOpen)
    (water : t.water = { s.water with readTimer := t.water.readTimer })
    (climate : t.climate = { s.climate with readTimer := t.climate.readTimer }) (lights : t.lights = s.lights)
    (latest : t.supply.latest = s.supply.latest)
    (chans : ∀ ch, ChanOrder false (s.chan ch) .idle → ChanOrder false (t.chan ch) .idle) : t.Order Part.whole := by
  have claim : ∀ id, t.claim id = s.claim id := fun id => by rw [State.claim, broker]; rfl
  have idle := h.idle out
  have frost := h.frostless out
  have lit : s.LightsOrder := h.parts .lights trivial
  have due : s.lights.due = .none := (lit.away.resolve_left fun e => by rw [out] at e; cases e.1).1
  refine ⟨values, by rw [broker]; exact h.level, by rw [broker]; exact h.remembered, fun id => ?_, fun x m => ?_⟩
  · have serves := h.serves id
    rw [claim]
    exact { serves with asks := fun e => absurd (idle id) e }
  cases x with
  | water =>
    have order : s.WaterOrder := h.parts .water trivial
    show t.WaterOrder
    have valve : t.valveClosed = s.valveClosed := by unfold State.valveClosed; rw [pins, water]
    have fields : t.water.pump = s.water.pump ∧ t.water.runawayTimer = s.water.runawayTimer ∧ t.water.owed = s.water.owed
        ∧ t.water.guard = s.water.guard ∧ t.water.cycle = s.water.cycle ∧ t.water.demand = s.water.demand
        ∧ t.water.circTimer = s.water.circTimer := by rw [water]; exact ⟨rfl, rfl, rfl, rfl, rfl, rfl, rfl⟩
    obtain ⟨pump, runaway, owed, guard, cycle, demand, circ⟩ := fields
    have still : s.water.pump = false := by
      by_contra on
      rw [Bool.not_eq_false] at on
      have run := (order.pump on).2.2.2.1
      rw [out] at run
      cases run
    constructor
    · rw [pump, still]; nofun
    · rw [pump, runaway, cycle]; exact order.runaway
    · rw [owed]; exact order.owed
    · rw [guard, cycle]; exact order.clear
    · rw [guard, fns]; exact fun e => ⟨(order.guarded e).1, reset (order.guarded e).2⟩
    · rw [cycle, owed]; exact order.nothing
    · rw [cycle, valve]; exact order.drained
    · rw [demand, cycle]; exact order.demand
    · rw [circ, cycle]; exact order.timed
    · rw [cycle, claim]; exact order.draws
    · rw [cycle, claim]; exact order.forced
    · rw [cycle, claim]; exact order.tries
    · rw [cycle, claim]; exact order.first
  | heater =>
    have order : HeaterOrder s.climate s.seq.values (s.claim loadHeater) := h.parts .heater trivial
    show HeaterOrder t.climate t.seq.values (t.claim loadHeater)
    rw [claim, climate]
    exact (order.revalued (idle loadHeater)).free rfl
  | pad =>
    have order : s.padOrder := h.parts .pad trivial
    show (t.claim loadPad).st = .held ↔ t.climate.pad = true
    rw [claim, climate]
    exact order
  | chan ch =>
    have order := (chanFits_iff s ch).mp (h.parts (.chan ch) trivial)
    refine (chanFits_iff t ch).mpr ?_
    have off : s.motionRuns = false := by simp [State.motionRuns, out]
    have off' : t.motionRuns = false := by simp [State.motionRuns, out']
    rw [off, idle] at order
    rw [off', claim, idle]
    exact chans ch order
  | lights =>
    refine ⟨by rw [lights]; exact lit.ceiling, fun ch => ?_, fun g => ?_, .inr ?_, fun e => ?_⟩
    · have order := lit.lights ch
      rw [idle] at order
      rw [State.light, lights, claim, idle]
      exact order.refaded
    · have group := lit.groups g
      rw [State.group, lights, storage, broker, claim]
      exact group
    · rw [lights]
      exact lit.away.resolve_left fun e => by rw [out] at e; cases e.1
    · rw [lights] at e
      exact absurd due e
  | due =>
    intro e
    rw [lights] at e
    exact absurd due e
  | frost =>
    refine .inl ?_
    rw [climate, State.frostServiceNow, out', Bool.and_false]
    exact frost
  | cool =>
    refine .inr ?_
    rw [climate]
    exact frost
  | ceiling =>
    have order : s.lights.ceiling = s.ceilingNow := h.parts .ceiling trivial
    show t.lights.ceiling = t.ceilingNow
    unfold State.ceilingNow at *
    rw [lights, storage, broker]
    exact order
  | figures =>
    have order : ∀ f, s.supply.latest = some f → f.level ≤ 6 := h.parts .figures trivial
    show ∀ f, t.supply.latest = some f → f.level ≤ 6
    rw [latest]
    exact order
  | station f => exact m.elim
  | live id => exact m.elim
  | calm id => exact Claim.bears_idle (by rw [claim]; exact idle id)

end

theorem expel_checked {s : State} (o : s.view.checked) (p : Fin 4 → Entry → Bool) (c : Cause) : (s.expel p c).view.checked :=
  fun i w => by
    rw [(expel_set s p c i).2.2.2 w]
    dsimp only
    split
    · exact Entry.invalidate_good _
    · exact o i w

theorem rosterAndPinning_checked {s : State} (o : s.view.checked) : s.rosterAndPinning.view.checked := by
  unfold State.rosterAndPinning
  dsimp only
  refine expel_checked ?_ _ _
  split
  · exact expel_checked o _ _
  · exact o

section
variable {s : State}

theorem setup_out (phase : s.seq.phase = .setup) : s.inRun = false ∧ s.inReset = false := by
  rw [State.inRun, State.inReset, phase]
  exact ⟨rfl, rfl⟩

/-- The Listen timer runs out (R184). -/
theorem listenEnds_leads (phase : s.seq.phase = .listen) : Leads Part.whole Part.whole s
    (((s.setSeq { s.seq with phase := .setup, phaseTimer := some Config.setupMs }).setPeriods
      { s.periods with counters := some Config.countersMs }).setDue
      { s.due with status0 := true, status1 := true, status2 := true }) := by
  refine Leads.trans (q := Part.whole) (t := s.setSeq { s.seq with phase := .setup, phaseTimer := some Config.setupMs })
    (fun o h => ⟨⟨o.checked, o.lanes, o.claims, o.dropped, o.changes⟩, ?_⟩) ((setPeriods_leads _ _).trans (setDue_leads _ _))
  exact h.rested (by rw [State.inRun, phase]; rfl) rfl h.values rfl rfl (fun _ => rfl) rfl rfl rfl rfl rfl rfl fun _ k => k

/-- Setup ends (R186). -/
theorem setupEnds_leads (phase : s.seq.phase = .setup)
    (pending : ∀ (i : Fin 49) (x : Nat), s.seq.pendingItems.get i = some x → inRange i.val x) :
    Leads Part.whole Part.whole s s.setupEnds := fun o h => by
  have fields := setupEnds_fields s
  have checked : s.valuesTaken.rosterAndPinning.view.checked := rosterAndPinning_checked o.checked
  obtain ⟨out, away⟩ := setup_out phase
  have chan : ∀ ch, s.setupEnds.chan ch = if s.seq.fns.motion then
      { s.chan ch with calTimer := some 50, calSum := 0, idle := none } else s.chan ch := fun ch => by
    rw [State.chan, fields]
    dsimp only
    split
    · exact calibrations_chan s ch
    · rfl
  refine ⟨⟨?_, ?_, ?_, ?_, ?_⟩, h.rested out ?_ ?_ ?_ ?_ ?_ ?_ ?_ ?_ ?_ ?_ ?_ fun ch k => ?_⟩
  · rw [fields]; exact checked
  · rw [fields]; exact o.lanes
  · rw [fields]; exact o.claims
  · rw [fields]; exact o.dropped
  · rw [fields]; exact o.changes
  · rw [fields]; rfl
  · rw [fields]
    exact valuesAtEnd_fit h.values pending
  · rw [fields]; rfl
  · rw [fields]; rfl
  · rw [fields]; exact fun _ => rfl
  · rw [fields]; rfl
  · rw [fields]; rfl
  · rw [fields]
    dsimp only
    split <;> rfl
  · rw [fields]
    dsimp only
    split <;> rfl
  · rw [fields]; rfl
  · rw [fields]
    have kept : s.supplyAtEnd.latest = s.supply.latest := by
      unfold State.supplyAtEnd Supply.recount
      split
      · split <;> rfl
      · rfl
    dsimp only
    split
    · exact kept
    · exact kept
  · rw [chan]
    have rest : (s.chan ch).atRest = true := by
      by_contra e
      rw [Bool.not_eq_true] at e
      have := k.active (.inl e)
      cases this
    split
    · exact { k with calibrates := fun _ => ⟨rest, rfl⟩, calLeft := le_refl 50, calSum := fun _ => rfl, idle := nofun }
    · exact k

/-- A change of what no order reads of the station. -/
theorem setSeq_still (s : State) (q : Seq) (same : q = { s.seq with
      pendingItems := q.pendingItems, tookItem := q.tookItem, clamped := q.clamped, lateSetup := q.lateSetup }) :
    Leads Part.whole Part.whole s (s.setSeq q) := fun o h => by
  have calm : ∀ x, Part.whole x → s.orderly x → (s.setSeq q).orderly x := fun x m k => by
    cases x with
    | water =>
      have k : s.WaterOrder := k
      show (s.setSeq q).WaterOrder
      rw [same]
      exact ⟨k.pump, k.runaway, k.owed, k.clear, k.guarded, k.nothing, k.drained, k.demand, k.timed, k.draws, k.forced, k.tries,
        k.first⟩
    | lights =>
      have k : s.LightsOrder := k
      show (s.setSeq q).LightsOrder
      rw [same]
      exact ⟨k.ceiling, k.lights, k.groups, k.away, k.named⟩
    | station f => exact m.elim
    | live id => exact m.elim
    | _ => rw [same]; exact k
  refine ⟨⟨o.checked, o.lanes, o.claims, o.dropped, o.changes⟩, ?_, h.level, h.remembered, ?_, fun x m => calm x m (h.parts x m)⟩
  · rw [same]
    exact h.values
  · rw [same]
    exact h.serves

theorem setupHandled_leads (s : State) (r : Record) : Leads Part.whole Part.whole s (s.setupHandled r) := by
  unfold State.setupHandled
  refine Leads.ite (fun _ => Leads.refl _ s) fun _ => Leads.ite (fun _ => setSeq_still s _ rfl) fun _ => ?_
  unfold State.takeSetup
  split
  · exact setSeq_still s _ rfl
  · exact setSeq_still s _ rfl

end

/-! Resets -/

/-- A reset leaves every part in order (R27, R31, R79, R102, R122, R146, R161, R173, R183). -/
theorem inResetWith_order (s : State) (isRestart : Bool) (station : Nat) (fns : Functions) {c : Cell} (h : c.serves) :
    (s.inResetWith isRestart station fns c).Order Part.whole := by
  generalize ht : s.inResetWith isRestart station fns c = t
  have claim : ∀ id, t.claim id = Claim.reset := fun id => by rw [← ht]; exact Tab.get_fill _ id
  have light : ∀ ch, t.light ch = Light.reset := fun ch => by rw [← ht]; exact Tab.get_fill _ ch
  have group : ∀ g, t.group g = { pending := none, result := .none } := fun g => by rw [← ht]; exact Tab.get_fill _ g
  have seq : t.seq = Seq.reset isRestart station fns c.values := by rw [← ht]; rfl
  have broker : t.broker = Broker.reset := by rw [← ht]; rfl
  have water : t.water = Water.reset s.pins.dumpOpen := by rw [← ht]; rfl
  have climate : t.climate = Climate.reset c := by rw [← ht]; rfl
  have lights : t.lights = Lights.reset c := by rw [← ht]; rfl
  have motion : t.motion = Motion.reset s.pins := by rw [← ht]; rfl
  have supply : t.supply = Supply.reset c := by rw [← ht]; rfl
  clear ht
  have out : t.inRun = false := by rw [State.inRun, seq]; rfl
  refine ⟨by rw [seq]; exact h.1, by rw [broker]; decide, fun n => ?_, fun id => ?_, fun x m => ?_⟩
  · rw [broker]
    show (Tab.fill 8 0).get n ≤ 6
    rw [Tab.get_fill]
    decide
  · rw [claim]
    refine ⟨nofun, nofun, nofun, nofun, nofun, nofun, nofun, nofun, fun e => ?_, fun _ => ⟨nofun, nofun⟩⟩
    rcases e with e | e <;> cases e
  cases x with
  | water =>
    show t.WaterOrder
    constructor <;> simp [water, Water.reset, claim, Claim.reset]
  | heater =>
    show HeaterOrder t.climate t.seq.values (t.claim loadHeater)
    rw [climate, claim]
    constructor
    · intro z
      show ((c.setpoints.map fun p => ({ temp := 0, setpoint := p, demand := 0 } : Zone)).get z).demand ≤ 100
      rw [Tab.get_map]
      exact Nat.zero_le _
    all_goals cases e : c.lockout <;> simp [Climate.reset, Claim.reset, e]
  | pad =>
    show (t.claim loadPad).st = .held ↔ t.climate.pad = true
    rw [claim, climate]
    exact ⟨nofun, nofun⟩
  | chan ch =>
    refine (chanFits_iff t ch).mpr ?_
    obtain ⟨st, at_, chan⟩ : ∃ st, (st = .retracted ∨ st = .extended ∨ st = .midway ∨ st = .unknown) ∧ t.chan ch = Chan.reset st := by
      have atReset : ∀ a b, MState.atReset a b = .retracted ∨ MState.atReset a b = .extended ∨ MState.atReset a b = .midway
          ∨ MState.atReset a b = .unknown := by decide
      rw [State.chan, motion]
      match ch with
      | 0 => exact ⟨_, atReset _ _, rfl⟩
      | 1 => exact ⟨_, atReset _ _, rfl⟩
    rw [chan, claim]
    rcases at_ with rfl | rfl | rfl | rfl <;> constructor <;> simp [Chan.reset, Chan.atRest, Chan.moving, MState.bridge, Claim.reset]
  | lights =>
    refine ⟨by rw [lights]; exact le_refl 1000, fun ch => ?_, fun g => ?_, .inr ?_, ?_⟩
    · rw [light, claim]
      constructor <;> simp [Light.reset, dutyOf, Claim.reset]
    · rw [group, claim]
      constructor <;> simp [Claim.reset, Claim.contesting]
    · rw [lights]
      exact ⟨rfl, rfl, rfl⟩
    · rw [lights]
      exact fun e => absurd rfl e
  | due =>
    intro e
    rw [lights] at e
    exact absurd rfl e
  | frost =>
    refine .inl ?_
    rw [climate, State.frostServiceNow, out, Bool.and_false]
    rfl
  | cool => exact .inr (by rw [climate]; rfl)
  | ceiling =>
    show t.lights.ceiling = t.ceilingNow
    rw [lights, State.ceilingNow, seq, broker]
    rfl
  | figures =>
    show ∀ f, t.supply.latest = some f → f.level ≤ 6
    rw [supply]
    nofun
  | station f => exact m.elim
  | live id => exact m.elim
  | calm id => exact Claim.bears_idle (by rw [claim]; rfl)

/-- A reset is over and Listen begins (R184). -/
theorem released_order (s : State) (p : Straps) (h : s.cell.serves) : (s.released p).Order Part.whole := by
  have ok : (s.listens p).Ok := by
    refine ⟨?_, Bus.reset_lanesFit, Broker.reset_fits, Nat.zero_le _, Nat.zero_le _⟩
    have view : (s.listens p).view.sets = View.reset.sets := by
      unfold State.listens
      dsimp only
      split <;> rfl
    unfold View.checked
    rw [view]
    exact View.reset_checked
  have reset := inResetWith_order (s.setPins { s.pins with straps := p }) s.seq.isRestart (p.st + 1) p.fs
    (Cell.tested_serves h s.seq.isRestart)
  have listens : (s.listens p).Order Part.whole := by
    refine reset.rested rfl rfl reset.values rfl rfl nofun rfl rfl rfl rfl rfl rfl fun ch k => ?_
    have same : (s.listens p).chan ch = ((s.setPins { s.pins with straps := p }).inResetWith s.seq.isRestart (p.st + 1) p.fs
        (s.cell.tested s.seq.isRestart)).chan ch := by
      unfold State.listens State.chan
      dsimp only
      split <;> rfl
    rw [same]
    exact k
  rw [released_eq]
  split
  · exact (monitor_leads (s.listens p) Mon.lockout true ok listens).2
  · exact listens

end Sys2Proof.Machine
end

