-- ==== Sys2Proof/Proofs/RunOrders.lean ====
section
/-! PROOFS. Entry into Run and the accounting interval keep every order (R2, R184). -/

namespace Sys2Proof.Machine

/-! ### Entry into Run, and the accounting interval (R2, R184) -/

/-- Run is entered: with no claim asked and nothing moving, every part stays in order but frost service, which has still to be
worked out. -/
theorem enterRun_leads {s : State} (out : s.inRun = false) (away : s.inReset = false) : Leads Part.whole (Part.but Part.whole .frost) s
    (s.setSeq { s.seq with phase := .run, phaseTimer := none }) := fun o h => by
  have idle := h.idle out
  refine ⟨⟨o.checked, o.lanes, o.claims, o.dropped, o.changes⟩, h.values, h.level, h.remembered, fun id => ?_, fun x m => ?_⟩
  · exact { h.serves id with asks := fun e => absurd (idle id) e }
  obtain ⟨other, m⟩ := m
  have k := h.parts x m
  cases x with
  | water =>
    have k : s.WaterOrder := k
    exact ⟨fun on => ⟨(k.pump on).1, (k.pump on).2.1, (k.pump on).2.2.1, rfl, (k.pump on).2.2.2.2⟩, k.runaway, k.owed, k.clear,
      fun on => ⟨(k.guarded on).1, rfl⟩, k.nothing, k.drained, k.demand, k.timed, k.draws, k.forced, k.tries, k.first⟩
  | chan ch =>
    have k := (chanFits_iff s ch).mp k
    refine (chanFits_iff _ ch).mpr { k with active := fun e => ?_ }
    have runs := k.active e
    rw [State.motionRuns, out, Bool.and_false] at runs
    cases runs
  | lights =>
    have k : s.LightsOrder := k
    exact ⟨k.ceiling, k.lights, k.groups, .inr (k.away.resolve_left fun e => by rw [out] at e; cases e.1), k.named⟩
  | frost => exact absurd rfl other
  | cool => exact .inr (h.frostless out)
  | station f => exact m.elim
  | live id => exact m.elim
  | _ => exact k

section
variable {p : Part → Prop} (s : State)

theorem raiseAttention_leads (n : Fin 19) (d : Bool) : Leads p p s (s.raiseAttention n d) :=
  Leads.still (fun o => (raiseAttention_calm s n d o).1) (by unfold State.raiseAttention; split <;> rfl)

theorem runEntryNotices_leads : Leads p p s s.runEntryNotices :=
  Leads.foldl _ (fun s n => Leads.when fun _ => (hand_leads s _ _).trans (raiseAttention_leads _ n true)) _ s

theorem runEntered_leads (out : s.inRun = false) (away : s.inReset = false) : Leads Part.whole Part.whole s s.runEntered := by
  unfold State.runEntered
  dsimp only
  refine (enterRun_leads out away).trans ?_
  have run : (s.setSeq { s.seq with phase := .run, phaseTimer := none }).inRun = true := rfl
  generalize s.setSeq { s.seq with phase := .run, phaseTimer := none } = u at run
  refine Leads.trans (q := Part.whole) (Leads.trans (q := Part.whole) (Leads.intro fun o _ => ?_)
    (Leads.when fun _ => motionEntersRun_leads _ fun _ => trivial))
    (((ceilingFollows_leads _).mono (fun _ m => m.2) fun _ m => m).trans (courtesyFollows_leads _ none))
  have seq := ((setDue_calm u (u.due.atRun (decide (0 < u.supply.level)))).trans (runEntryNotices_calm _) o).2.1.seq
  have notes : Leads (Part.but Part.whole .frost) (Part.but Part.whole .frost) u
      (u.setDue (u.due.atRun (decide (0 < u.supply.level)))).runEntryNotices :=
    (setDue_leads u _).trans (runEntryNotices_leads _)
  generalize (u.setDue (u.due.atRun (decide (0 < u.supply.level)))).runEntryNotices = v at seq notes
  refine notes.trans (Leads.trans (waterEntersRun_leads v ⟨nofun, trivial⟩ ⟨nofun, trivial⟩ (by rw [State.inRun, seq]; exact run)) ?_)
  exact (frostService_leads _ trivial).trans ((heaterFollows_leads _).trans (padFollows_leads _))

theorem setSupply_figures (x : Supply) (latest : ∀ f, x.latest = some f → f.level ≤ 6) : Leads p p s (s.setSupply x) := by
  refine Leads.each (fun o => ⟨o.checked, o.lanes, o.claims, o.dropped, o.changes⟩) rfl rfl rfl (fun k => k) fun y _ k => ?_
  cases y with
  | water => exact State.WaterOrder.congr k rfl rfl rfl rfl
  | lights => exact State.LightsOrder.congr k rfl rfl rfl fun _ => rfl
  | figures => exact latest
  | _ => exact k

theorem handChange_leads (n : Fin 19) (a b : Bool) : Leads p p s (s.handChange n a b) :=
  Leads.ite (fun _ => Leads.refl p s) fun _ => monitor_leads s n b

end

theorem counted_latest (u : Supply) (v : Values) (i volts temp : Int) : (u.counted v i volts temp).latest = u.latest := by
  have anchors : ∀ (x : Supply) i volts, (x.anchors v i volts).latest = x.latest := fun x i volts => by
    unfold Supply.anchors
    dsimp only
    generalize (if fullCondition v i volts then x.fullCount + 1 else 0) = full
    generalize (if restCondition i then x.restCount + 1 else 0) = rest
    split
    · rfl
    · split <;> rfl
  have count : ∀ (x : Supply) i, (x.countCharge v i).latest = x.latest := fun x _ => by
    unfold Supply.countCharge
    dsimp only
    split
    · rfl
    · split <;> rfl
  have permit : ∀ (x : Supply) temp, (x.permitReads v temp).latest = x.latest := fun x _ => by
    unfold Supply.permitReads
    split
    · split <;> rfl
    · rfl
  have low : ∀ (x : Supply) volts, (x.lowVoltageReads v volts).latest = x.latest := fun x _ => by
    unfold Supply.lowVoltageReads
    split <;> rfl
  have range : ∀ (x : Supply) raw, (x.overrangeReads raw).latest = x.latest := fun x _ => by
    unfold Supply.overrangeReads
    split <;> rfl
  unfold Supply.counted
  rw [anchors, count, permit, low, range]

/-- An accounting interval: the level posted is at most 6, as the Supply Monitor's is (R22). -/
theorem accountingInterval_leads {s : State} (fits : s.Fits) (runs : s.seq.fns.supply = true ∧ s.supply.intervalTimer.isSome = true)
    (i volts temp : Int) : Leads Part.whole Part.whole s (s.accountingInterval i volts temp) := by
  obtain ⟨bound, rest, level, kept, latest⟩ := fits.supply
  have bounded : s.supply.bounded s.seq.values := ⟨bound.trans (by rw [kept runs.1 runs.2]; exact le_rfl), rest, level⟩
  have fit := fits.values.1
  unfold State.accountingInterval
  dsimp only
  have counted := counted_bounded fit bounded i volts temp
  have same := counted_latest s.supply s.seq.values i volts temp
  generalize s.supply.counted s.seq.values i volts temp = c at *
  have first : Leads Part.whole Part.whole s ((((s.setSupply c).handChange Mon.overrange s.supply.overrange c.overrange).handChange
      Mon.lowVoltage s.supply.lowVoltage c.lowVoltage).readAll Entry.clashes) :=
    (setSupply_leads s c same).trans ((handChange_leads _ _ _ _).trans ((handChange_leads _ _ _ _).trans (readAll_leads _ _)))
  generalize (((s.setSupply c).handChange Mon.overrange s.supply.overrange c.overrange).handChange
      Mon.lowVoltage s.supply.lowVoltage c.lowVoltage).readAll Entry.clashes = u at first
  refine first.trans ?_
  have posted := (posted_bounded fit counted i temp s.supply.lowVoltage (u.entries.any Entry.clashes)).2
  generalize c.posted s.seq.values i temp s.supply.lowVoltage (u.entries.any Entry.clashes) = x at *
  refine Leads.trans (t := ((u.setSupply x).handChange Mon.overdraw s.supply.overdraw x.overdraw).handChange Mon.roleClash
    s.supply.roleClash x.roleClash) ((setSupply_figures u x fun f e => (posted f e).2.2).trans ((handChange_leads _ _ _ _).trans
    (handChange_leads _ _ _ _))) ?_
  exact (setCell_leads _ _).trans ((setDue_leads _ _).trans (supplyChanged_leads _))

end Sys2Proof.Machine
end

