-- ==== Sys2Proof/Proofs/TickOrders.lean ====
section
/-! PROOFS. A millisecond keeps every order (R59). -/

namespace Sys2Proof.Machine

/-! ### A millisecond (R59) -/

theorem tickTimer_some (x : Timer) : (tickTimer x).isSome = x.isSome := by
  rw [tickTimer_eq, Option.isSome_map]

theorem tickTimer_none {x : Timer} : tickTimer x = none ↔ x = none := by
  rw [tickTimer_eq, Option.map_eq_none_iff]

theorem Entry.tick_frostDemand (e : Entry) : e.tick.showsFrostDemand = e.showsFrostDemand := by
  unfold Entry.tick
  split <;> rfl

theorem Claim.Serves.tick {live : Prop} {id : Fin 7} {c : Claim} (h : c.Serves live id) : c.tick.Serves live id := by
  have window : c.tick.window.isSome = c.window.isSome := tickTimer_some _
  exact ⟨h.asks, h.draws, h.raises, h.forced, h.announces, fun e => h.timed (window.symm.trans e),
    fun e => (h.staged e).imp_right window.trans, h.stands, h.ranked, h.lit⟩

theorem ChanOrder.tick {runs : Bool} {c : Chan} {k : ClaimState} (h : ChanOrder runs c k) (x : Nat) :
    ChanOrder runs (c.tick x) k := by
  refine { h with
    travel := (Eq.congr_left (tickTimer_some c.travel)).trans h.travel
    backoff := (Eq.congr_left (tickTimer_some c.backoff)).trans h.backoff
    dwell := (Eq.congr_left (tickTimer_some c.dwell)).trans h.dwell
    stall := fun e => h.stall ((tickTimer_some _).symm.trans e)
    calibrates := fun e => ?_
    calLeft := ?_
    calSum := fun e => ?_
    idle := fun e => h.idle ((tickTimer_some _).symm.trans e) }
  · obtain ⟨rest, none⟩ := h.calibrates ((tickTimer_some _).symm.trans e)
    exact ⟨rest, tickTimer_none.mpr none⟩
  · have left := h.calLeft
    show (tickTimer c.calTimer).getD 0 ≤ _
    rw [tickTimer_eq]
    cases e : c.calTimer with
    | none => exact Nat.zero_le _
    | some n =>
      rw [e] at left
      exact (Nat.sub_le n 1).trans left
  · have none : c.calTimer = none := tickTimer_none.mp e
    show (if c.calTimer.any (0 < ·) then _ else c.calSum) = 0
    rw [none]
    exact h.calSum none

theorem HeaterOrder.tick {c : Climate} {v : Values} {k : Claim} (h : HeaterOrder c v k) (window : Timer) :
    HeaterOrder c.tick v { k with window := window } :=
  ⟨h.zones, h.single, h.hen, h.held, h.asks, h.starting, h.running, h.cold, h.hdem,
    (Eq.congr_left (tickTimer_some c.startTimer)).trans h.startTimer, fun e => h.runTimer ((tickTimer_some _).symm.trans e),
    (Eq.congr_left (tickTimer_some c.purgeTimer)).trans h.purgeTimer, h.locked, h.lockout, h.failures, h.unforced, h.standing⟩

theorem State.WaterOrder.tick {s : State} (h : s.WaterOrder) : s.tick.WaterOrder := by
  have claim := tick_claim s loadPump
  have circ : s.tick.water.circTimer.isSome = s.water.circTimer.isSome := tickTimer_some _
  have runaway : s.tick.water.runawayTimer.isSome = s.water.runawayTimer.isSome := tickTimer_some _
  constructor
  · rw [claim]; exact h.pump
  · rw [runaway]; exact h.runaway
  · exact h.owed
  · exact h.clear
  · exact h.guarded
  · exact h.nothing
  · exact h.drained
  · exact h.demand
  · rw [circ]; exact h.timed
  · rw [claim]; exact h.draws
  · rw [claim]; exact h.forced
  · rw [claim]; exact h.tries
  · rw [claim]; exact h.first

theorem State.LightsOrder.tick {s : State} (h : s.LightsOrder) : s.tick.LightsOrder := by
  refine ⟨h.ceiling, fun ch => ?_, fun g => ?_, ?_, h.named⟩
  · have light := h.lights ch
    rw [tick_light, tick_claim]
    exact { light with step := (Eq.congr_left (tickTimer_some _)).trans light.step }
  · rw [tick_claim]
    have group := h.groups g
    exact ⟨group.levels, group.contests, group.asks, group.raised, group.lit⟩
  · exact h.away.imp_right fun ⟨due, countdown, courtesy⟩ => ⟨due, tickTimer_none.mpr countdown, courtesy⟩

/-- A millisecond leaves every part in order. -/
theorem State.Order.tick {s : State} (h : s.Order Part.whole) (told : s.view.changes = []) : s.tick.Order Part.whole := by
  refine ⟨h.values, h.level, h.remembered, fun id => ?_, fun x m => ?_⟩
  · rw [tick_claim]
    exact (h.serves id).tick
  have k := h.parts x m
  cases x with
  | water => exact State.WaterOrder.tick k
  | heater =>
    have k : HeaterOrder s.climate s.seq.values (s.claim loadHeater) := k
    show HeaterOrder s.tick.climate s.tick.seq.values (s.tick.claim loadHeater)
    rw [tick_claim]
    exact k.tick _
  | pad =>
    show (s.tick.claim loadPad).st = .held ↔ s.tick.climate.pad = true
    rw [tick_claim]
    exact k
  | chan ch =>
    refine (chanFits_iff _ ch).mpr ?_
    rw [tick_chan, tick_claim]
    exact ((chanFits_iff s ch).mp k).tick _
  | lights => exact State.LightsOrder.tick k
  | frost =>
    have k : s.climate.frost = s.frostServiceNow ∨ s.tanksUntold := k
    refine .inl ((k.resolve_right fun ⟨c, m, _⟩ => by rw [told] at m; cases m).trans ?_)
    have shows : s.tick.entries.any Entry.showsFrostDemand = s.entries.any Entry.showsFrostDemand := by
      rw [Bool.eq_iff_iff, frostDemand_iff, frostDemand_iff]
      refine exists_congr fun i => exists_congr fun w => ?_
      have way : (s.tick.view.sets.get i).ways.get w = ((s.view.sets.get i).ways.get w).tick := by
        have set : s.tick.view.sets.get i = { s.view.sets.get i with ways := (s.view.sets.get i).ways.map Entry.tick } :=
          Tab.get_map _ _ i
        rw [set]
        exact Tab.get_map _ _ w
      rw [way, Entry.tick_frostDemand]
    unfold State.frostServiceNow
    rw [shows]
    rfl
  | calm id =>
    have k : Claim.Bears s.broker.level id (s.claim id) := k
    show Claim.Bears s.broker.level id (s.tick.claim id)
    rw [tick_claim]
    exact ⟨k.contests, k.held, k.lit⟩
  | station f => exact m.elim
  | live id => exact m.elim
  | _ => exact k

end Sys2Proof.Machine
end

