-- ==== Sys2Proof/Proofs/StepOrders.lean ====
section
/-! PROOFS. Every command, and so every step, leaves every part in order. -/

namespace Sys2Proof.Machine

/-! ### Every command, from a state in order -/

section
variable {s : State} (fits : s.Fits)
include fits

theorem connects_lands (p : Straps) : Lands s (exec (.connectReset p) s) :=
  Lands.done fits (connects_sane s p).ok (inResetWith_order _ _ _ _ Cell.default_serves)

theorem restarts_lands (b : Bool) : Lands s (exec (.restart b) s) :=
  Lands.done fits (restarts_sane s b).ok (inResetWith_order _ _ _ _ fits.tidy.serves)

theorem released_lands (p : Straps) : Lands s (exec (.resetReleased p) s) := by
  by_cases reset : s.inReset = true
  · have arm : exec (.resetReleased p) s = done s (s.released p) := congrArg (done s) (if_pos reset)
    rw [arm]
    exact Lands.done fits (released_sane s p).ok (released_order s p fits.tidy.serves)
  · have arm : exec (.resetReleased p) s = done s s := congrArg (done s) (if_neg reset)
    rw [arm]
    exact Leads.lands fits (Leads.refl _ s)

/-- A SETUP End is applied in Setup, where every pending value lies in its range. -/
theorem setupEnd_leads : Leads Part.whole Part.whole s (s.dispatch s.isSetupEnd fun s _ _ => s.setupEnds) :=
  dispatch_leads s _ _ fun u _ _ ends seq => setupEnds_leads (by rw [seq]; exact isSetupEnd_phase ends)
    (by rw [seq]; exact fits.values.2.1)

/-- Every command leaves every part in order, and no reader untold. -/
theorem exec_lands (c : Instr) : Lands s (exec c s) := by
  have all : Part.whole .water ∧ Part.whole .cool ∧ Part.whole .heater ∧ Part.whole .lights := ⟨trivial, trivial, trivial, trivial⟩
  obtain ⟨water, cool, heater, lights⟩ := all
  have chans : ∀ ch, Part.whole (.chan ch) := fun _ => trivial
  cases c with
  | connectReset p => exact connects_lands fits p
  | restart b => exact restarts_lands fits b
  | resetReleased p => exact released_lands fits p
  | listenTimerExpiry => exact Leads.lands fits (Leads.when fun h => listenEnds_leads h.1)
  | setupTimerExpiry => exact Leads.lands fits (Leads.when fun h => setupEnds_leads h.1 fits.values.2.1)
  | calibrateTimerExpiry =>
    exact Leads.lands fits (Leads.when fun h => runEntered_leads s (by rw [State.inRun, h.1]; rfl) (by rw [State.inReset, h.1]; rfl))
  | setup => exact Leads.lands fits (dispatch_leads s _ _ fun u _ r _ _ => setupHandled_leads u r)
  | setupEnd => exact Leads.lands fits (setupEnd_leads fits)
  | accountingInterval i v x => exact Leads.lands fits (Leads.when fun h => accountingInterval_leads fits h i v x)
  | shedPeriod => exact Leads.lands fits (falls_leads s _)
  | supplyPeriod => exact Leads.lands fits (falls_leads s _)
  | frameClose l => exact Leads.lands fits (receives_leads s l)
  | busSilentTimerExpiry => exact Leads.lands fits (Leads.when fun _ => fallsSilent_leads s)
  | dispatchErrorNote => exact Leads.lands fits (errorNote_leads s)
  | unknownKind => exact Leads.lands fits (dispatch_leads s _ _ fun u _ _ _ _ => countUnknown_leads u)
  | noticePassedOver => exact Leads.lands fits (dispatch_leads s _ _ fun u _ _ _ _ => Leads.refl _ u)
  | requestPassedOver => exact Leads.lands fits (dispatch_leads s _ _ fun u _ _ _ _ => Leads.refl _ u)
  | requestCodeZero => exact Leads.lands fits (onRequest_leads s _ _ fun u _ _ _ => Leads.refl _ u)
  | peerArrival => exact Leads.lands fits (dispatch_leads s _ _ fun u n r _ _ => arrive_leads u n r)
  | viewOverflowTimerExpiry => exact Leads.lands fits (Leads.when fun _ => overflowEnds_leads s)
  | entryAging k => exact Leads.lands fits (entryAges_leads s k)
  | entryStale k => exact Leads.lands fits (entryGoesStale_leads s k)
  | holdTimerExpiry => exact Leads.lands fits (Leads.when fun _ => holdRunsOut_leads s)
  | engChange b => exact Leads.lands fits (engFollows_leads s b)
  | localDriveSet => exact Leads.lands fits (Leads.when fun _ => driveSet_leads s)
  | localDriveClear => exact Leads.lands fits (Leads.when fun _ => driveClears_leads s)
  | chgavChange b => exact Leads.lands fits (chgavFollows_leads s b)
  | shedReceived => exact Leads.lands fits (dispatch_leads s _ _ fun u n r _ _ => takeShed_leads u n r)
  | contestWindowEnd id => exact Leads.lands fits (Leads.when fun h => contestWindow_leads s id h)
  | drawRepeat id => exact Leads.lands fits (Leads.when fun _ => handDraw_leads s id)
  | frameSendStart => exact Leads.lands fits (startsSending_leads s)
  | arbitrationLost => exact Leads.lands fits (stopsSending_leads s)
  | bitErrorAbort => exact Leads.lands fits (frameFailed_leads s)
  | frameCompleted => exact Leads.lands fits (frameCompleted_leads s)
  | frameNoack => exact Leads.lands fits (frameFailed_leads s)
  | probeTimerExpiry => exact Leads.lands fits (Leads.when fun _ => probeDue_leads s)
  | gatherTimeout c => exact Leads.lands fits (Leads.when fun _ => gathered_leads s c)
  | waterReadingEvent a b c x y z =>
    exact Leads.lands fits (Leads.when fun h => waterRead_leads s cool h.1 a b c x y z)
  | pdemChange b => exact Leads.lands fits (pdemFollows_leads s b)
  | runawayCountExpiry => exact Leads.lands fits (Leads.when fun h => runsAway_leads s h)
  | frostDueTime => exact Leads.lands fits (Leads.when fun h => takeDue_leads s water cool h.1 h.2.1)
  | circulationTimerExpiry => exact Leads.lands fits (Leads.when fun h => circulated_leads s cool h)
  | dumpfbChange b => exact Leads.lands fits (Leads.ite (fun _ => Leads.refl _ s) fun _ => valveMoves_leads s cool b)
  | valveFaultTimerExpiry => exact Leads.lands fits (Leads.when fun _ => valveFaults_leads s)
  | closeDump => exact Leads.lands fits (onRequest_leads s _ _ fun u _ _ _ => closeDump_leads u cool)
  | clearPump => exact Leads.lands fits (onRequest_leads s _ _ fun u _ _ _ => clearPump_leads u)
  | tankPeriod k => exact Leads.lands fits (falls_leads s _)
  | climateReadingEvent x y => exact Leads.lands fits (Leads.when fun _ => climateReads_leads s x y)
  | hrunChange b => exact Leads.lands fits (hrunFollows_leads s heater b)
  | hfltChange b => exact Leads.lands fits (hfltFollows_leads s heater b)
  | startTimerExpiry => exact Leads.lands fits (Leads.when fun h => startTimed_leads s heater h)
  | runTimerExpiry => exact Leads.lands fits (Leads.when fun _ => runTimed_leads s)
  | purgeTimerExpiry => exact Leads.lands fits (Leads.when fun h => purgeEnds_leads s heater h)
  | setSetpoint => exact Leads.lands fits (onRequest_leads s _ _ fun u n v _ => setSetpoint_leads u n v)
  | setClimateMode => exact Leads.lands fits (onRequest_leads s _ _ fun u n _ _ => setClimateMode_leads u cool n)
  | resetHeater => exact Leads.lands fits (onRequest_leads s _ _ fun u _ _ _ => resetHeater_leads u)
  | climatePeriod z => exact Leads.lands fits (falls_leads s _)
  | extend => exact Leads.lands fits (motionRequest_leads s chans _ _ fun u ch runs => extend_leads u chans ch runs)
  | retract =>
    exact Leads.lands fits (motionRequest_leads s chans _ _ fun u ch runs => takeRetract_leads u ch (chans ch) runs 5)
  | stop => exact Leads.lands fits (motionRequest_leads s chans _ _ fun u ch _ => takeStop_leads u ch (chans ch) 6)
  | endStopChange ch w b => exact Leads.lands fits (endStop_leads s chans ch w b)
  | dwellTimerExpiry ch => exact Leads.lands fits (Leads.when fun h => dwellEnds_leads s ch (chans ch) h.2)
  | travelTimerExpiry ch => exact Leads.lands fits (Leads.when fun h => travelExpires_leads s ch (chans ch) h)
  | stallTimerExpiry ch => exact Leads.lands fits (Leads.when fun h => stalls_leads s ch (chans ch) h)
  | backoffTimerExpiry ch => exact Leads.lands fits (Leads.when fun h => backoffEnds_leads s ch (chans ch) h)
  | idleTimerExpiry ch => exact Leads.lands fits (Leads.when fun h => calibrationBegins_leads s ch h)
  | calibrationEnd ch x => exact Leads.lands fits (Leads.when fun _ => calibrationEnds_leads s chans ch x)
  | windWindowEnd => exact Leads.lands fits (Leads.when fun _ => windWindowEnds_leads s chans)
  | windLockoutExpiry => exact Leads.lands fits (Leads.when fun _ => windLockoutEnds_leads s chans)
  | interlockRepeat ch => exact Leads.lands fits (falls_leads s _)
  | holdAsserted => exact Leads.lands fits (holdAsserted_leads s chans)
  | holdReleased => exact Leads.lands fits (holdReleased_leads s chans)
  | motionPeriod ch => exact Leads.lands fits (falls_leads s _)
  | fadeStep ch => exact Leads.lands fits (Leads.when fun h => fadeStepped_leads s ch h)
  | setLevel => exact Leads.lands fits (onRequest_leads s _ _ fun u n v _ => setLevel_leads u lights n v)
  | allOff => exact Leads.lands fits (onRequest_leads s _ _ fun u _ _ _ => allOff_leads u lights)
  | recallScene => exact Leads.lands fits (onRequest_leads s _ _ fun u n _ _ => recallScene_leads u lights n)
  | storeScene => exact Leads.lands fits (onRequest_leads s _ _ fun u n _ _ => storeScene_leads u n)
  | courtesyCountdownExpiry => exact Leads.lands fits (Leads.when fun h => courtesyReturns_leads lights s h)
  | lightPeriod ch => exact Leads.lands fits (falls_leads s _)
  | statusPeriod => exact Leads.lands fits (falls_leads s _)
  | statusCountersPeriod => exact Leads.lands fits (countersPeriod_leads s)
  | ackAttention => exact Leads.lands fits (onRequest_leads s _ _ fun u _ _ _ => ackAttention_leads u)
  | enterStorage => exact Leads.lands fits (onRequest_leads s _ _ fun u _ _ _ => enterStorage_leads u)
  | leaveStorage => exact Leads.lands fits (onRequest_leads s _ _ fun u _ _ _ => leaveStorage_leads u)
  | windPulse =>
    exact Leads.lands fits (Leads.when fun _ => setMotion_leads s { s.motion with windPulses := s.motion.windPulses + 1 } rfl)
  | motorCurrentChange ch x => exact Leads.lands fits (motorCurrent_leads s ch x)

/-- A state fits with its queue's rest: no block reads it. -/
theorem State.Fits.queued (q : List Instr) : ({ s with pending := q } : State).Fits :=
  ⟨⟨fits.sound.checked, fits.sound.lanes, fits.sound.queue, fits.sound.claims, fits.sound.counters, fits.sound.extend,
      fits.sound.quiet⟩, fits.values, fits.cell, fits.supply, fits.claims, fits.view, fits.water, fits.climate, fits.motion,
    fits.requests, fits.lights⟩

/-- Every step from a state that fits leaves every part in order. -/
theorem step_lands : Lands s (step s) := fun t e => by
  unfold step at e
  split at e
  · next c q _ => exact exec_lands (fits.queued q) c t e
  · cases e
    have told := fits.sound.quiet.1
    exact ⟨fits.order.tick told, told⟩

end

end Sys2Proof.Machine
end

