-- ==== Sys2Proof/Proofs/Safety.lean ====
section
/-! PROOFS. The block invariants of every step, and no load without its claim, settled (R30 to R51, R81 to R155). -/

namespace Sys2Proof.Machine

/-! ### No load draws without its claim (R32) -/

theorem run_of_live {s : State} {id : Fin 7} (live : s.live id) : s.seq.phase = .run := by
  have run := live.1
  unfold State.inRun at run
  simpa using run

section
variable {t : State} (order : t.Order Part.whole)
include order

/-- A claim that is Held or Forced is so in Run. -/
theorem State.Order.draws {id : Fin 7} (h : (t.claim id).drawing = true) : t.seq.phase = .run :=
  run_of_live (order.live (id := id) fun idle => by simp [Claim.drawing, idle] at h)

theorem State.Order.heats (h : t.climate.hen = true) : t.seq.phase = .run ∧ (t.claim loadHeater).st = .held := by
  have heater : HeaterOrder t.climate t.seq.values (t.claim loadHeater) := order.parts .heater trivial
  have held := heater.held.mpr ((heater.hen.mp h).imp_right .inl)
  exact ⟨order.draws (id := loadHeater) (by simp [Claim.drawing, held]), held⟩

theorem State.Order.warms (h : t.climate.pad = true) : t.seq.phase = .run ∧ (t.claim loadPad).st = .held := by
  have pad : (t.claim loadPad).st = .held ↔ t.climate.pad = true := order.parts .pad trivial
  have held := pad.mpr h
  exact ⟨order.draws (id := loadPad) (by simp [Claim.drawing, held]), held⟩

theorem State.Order.pumps (h : t.water.pump = true) :
    t.seq.phase = .run ∧ ((t.claim loadPump).st = .held ∨ (t.claim loadPump).st = .forced) := by
  have water : t.WaterOrder := order.parts .water trivial
  have draws := (water.pump h).1
  refine ⟨order.draws draws, ?_⟩
  simpa [Claim.drawing] using draws

theorem State.Order.drives (ch : Fin 2) (h : (t.chan ch).bridge = .extend ∨ (t.chan ch).bridge = .retract) :
    t.seq.phase = .run ∧ (t.claim (loadMotor ch)).st = .held := by
  have chan := (chanFits_iff t ch).mp (order.parts (.chan ch) trivial)
  have moving : (t.chan ch).moving = true := by
    rw [chan.bridge] at h
    unfold Chan.moving
    generalize (t.chan ch).st = st at h
    cases st with
    | extending | retracting | backoff => rfl
    | _ => rcases h with h | h <;> cases h
  have held := chan.held (.inl moving)
  exact ⟨order.draws (id := loadMotor ch) (by simp [Claim.drawing, held]), held⟩

theorem State.Order.glows (ch : Fin 8) (h : 0 < (t.light ch).duty) :
    t.seq.phase = .run ∧ (t.claim (loadLights (groupOf ch))).st = .held := by
  have lights : t.LightsOrder := order.parts .lights trivial
  have light := lights.lights ch
  have lit : 0 < (t.light ch).level := by
    by_contra dark
    have zero : (t.light ch).level = 0 := by omega
    rw [light.duty, zero] at h
    exact absurd h (by decide)
  have held := light.lit (.inl lit)
  exact ⟨order.draws (id := loadLights (groupOf ch)) (by simp [Claim.drawing, held]), held⟩

theorem State.Order.capped (ch : Fin 8) : (t.light ch).target ≤ (if t.seq.storage = true then 0 else if t.broker.level = 0 then 1000
    else if t.broker.level = 1 then 250 else 0) := by
  have lights : t.LightsOrder := order.parts .lights trivial
  have ceiling : t.lights.ceiling = t.ceilingNow := order.parts .ceiling trivial
  refine (lights.lights ch).target.trans (le_of_eq (ceiling.trans ?_))
  unfold State.ceilingNow
  refine if_congr Iff.rfl rfl ?_
  match t.broker.level with
  | 0 => rfl
  | 1 => rfl
  | n + 2 => rw [if_neg (by omega), if_neg (by omega)]; rfl

end

end Sys2Proof.Machine

namespace Sys2Proof.Proofs
open Sys2Proof.Machine

/-- Settles O8: every command keeps each part in order, the Water Manager's and the Climate Controller's among them. -/
theorem stepKeepsHeatAndWater : Obligations.StepKeepsHeatAndWater := fun _ t fits e =>
  have ⟨order, told⟩ := step_lands fits t e
  ⟨order.waterFits, order.climateFits told⟩

/-- Settles O9: each channel is a part in order, and a tidy state's requests are. -/
theorem stepKeepsMotion : Obligations.StepKeepsMotion := fun _ t fits e =>
  ⟨(step_lands fits t e).1.motionFits, (step_tidy fits.sound fits.tidy e).requests⟩

/-- Settles O10: the Light Controller and the claims are parts in order. -/
theorem stepKeepsLightsAndClaims : Obligations.StepKeepsLightsAndClaims := fun _ t fits e =>
  have ⟨order, _⟩ := step_lands fits t e
  ⟨order.lightsFit, order.claimsServe⟩

/-- Settles O11: an output is on only on a claim that draws, which is so only in Run; that nothing extends while drive is accepted
is part of soundness. -/
theorem noLoadDrawsWithoutItsClaim : Obligations.NoLoadDrawsWithoutItsClaim := fun s t fits e =>
  have ⟨order, _⟩ := step_lands fits t e
  ⟨order.heats, order.warms, order.pumps, order.drives, order.glows, fun ch st => ((soundStep s t fits.sound e).extend ch st).1,
    order.capped⟩

end Sys2Proof.Proofs
end

