-- ==== Sys2Proof/Proofs/Withheld.lean ====
section
/-! PROOFS. Operations by which no claim comes to be Held (R38, R39), the cell stands and no period moves but the claims' own. -/

namespace Sys2Proof.Machine

/-! ### Operations by which no claim comes to be Held (R38, R39) -/

/-- A claim Held after an operation was Held before; the cell stands, and so does every period but the claims' own. -/
structure Withheld (s t : State) : Prop where
  cell : t.cell = s.cell
  periods : t.periods = { s.periods with draw := t.periods.draw }
  held : ∀ j, (t.claim j).st = .held → (s.claim j).st = .held

/-- From an orderly state an operation keeps order and withholds every claim. -/
def Withholds (s t : State) : Prop := s.Ok → t.Ok ∧ Withheld s t

theorem Withholds.refl (s : State) : Withholds s s := fun o => ⟨o, rfl, rfl, fun _ => id⟩

theorem Withholds.trans {s t u : State} (h : Withholds s t) (k : Withholds t u) : Withholds s u := fun o =>
  have ⟨o', a⟩ := h o
  have ⟨o'', b⟩ := k o'
  ⟨o'', b.cell.trans a.cell, by rw [b.periods, a.periods], fun j e => a.held j (b.held j e)⟩

theorem Withholds.ite {c : Prop} [Decidable c] {s a b : State} (h : c → Withholds s a) (k : ¬ c → Withholds s b) :
    Withholds s (if c then a else b) := by
  split
  · exact h ‹_›
  · exact k ‹_›

theorem Withholds.foldl {α : Type} (f : State → α → State) (h : ∀ s x, Withholds s (f s x)) (l : List α) (s : State) :
    Withholds s (l.foldl f s) := by
  induction l generalizing s with
  | nil => exact Withholds.refl s
  | cons x xs ih => exact (h s x).trans (ih (f s x))

theorem Calm.withholds {s t : State} (h : Calm s t) (broker : t.broker = s.broker) (cell : t.cell = s.cell)
    (periods : t.periods = s.periods) : Withholds s t := fun o =>
  ⟨(h o).1, cell, by rw [periods], fun j e => by rwa [State.claim, broker] at e⟩

theorem Claim.tested_held {b : Broker} {c d : Claim} (h : Claim.tested b c d) (held : d.st = .held) : c.st = .held := by
  rcases (Claim.tested_keeps h).2.2.2 with same | ⟨-, contest⟩
  · rw [← same, held]
  · rw [held] at contest
    cases contest

/-- It is enough to look at the claim that the operation is of: the others are tested again at most (R45). -/
theorem Asks.withheld {p : Fin 7 → Prop} {s t : State} (h : Asks p s t)
    (own : s.Ok → ∀ j, p j → (t.claim j).st = .held → (s.claim j).st = .held) : Withholds s t := fun o =>
  ⟨(h o).1, (h o).2.cell, (h o).2.periods, fun j e => by
    by_cases m : p j
    · exact own o j m e
    · exact Claim.tested_held ((h o).2.claims j m) e⟩

theorem Asks.withholds {i : Fin 7} {s t : State} (h : Asks (· = i) s t)
    (own : s.Ok → (t.claim i).st = .held → (s.claim i).st = .held) : Withholds s t :=
  h.withheld fun o j m => m ▸ own o

theorem complete_withholds {s : State} {id : Fin 7} (held : s.Ok → (s.claim id).st = .held) : Withholds s (s.complete id) :=
  (complete_asks s id).withholds fun o _ => held o

section
variable (s : State)

theorem release_withholds (id : Fin 7) : Withholds s (s.release id) :=
  (release_asks s id).withholds fun o e => by
    rw [release_idle o] at e
    cases e

theorem ask_withholds (id : Fin 7) {rank : Nat} (a : Nat) (single : Bool) (pos : rank ≠ 0) (low : rank ≤ 6) :
    Withholds s (s.ask id rank a single).1 := by
  rcases Nat.eq_zero_or_pos a with rfl | some
  · exact release_withholds s id
  refine (ask_asks s id rank a single low).withholds fun o e => ?_
  cases draws : (s.claim id).drawing with
  | true => rwa [ask_drawing rank a single some draws] at e
  | false =>
    cases passes : s.passes id rank (min a 30000) with
    | true =>
      rw [(ask_passes o a single some draws pos passes).2] at e
      cases e
    | false =>
      cases is : single with
      | true =>
        rw [is, (try_fails o a true some draws pos passes rfl).2] at e
        cases e
      | false =>
        rw [is, (ask_fails o a false some draws pos passes rfl).2] at e
        cases e

theorem lower_withholds (id : Fin 7) (a : Nat) : Withholds s (s.lower id a).1 := by
  refine (lower_asks s id a).withholds fun o => ?_
  cases draws : (s.claim id).drawing with
  | false => simp [State.lower, draws]
  | true =>
    by_cases le : a ≤ (s.claim id).held
    · rcases Nat.eq_zero_or_pos a with rfl | some
      · have eq : s.lower id 0 = (s.release id, .none) := by simp [State.lower, draws]
        rw [eq]
        exact fun e => absurd ((release_idle o id).symm.trans e) nofun
      · rw [(lower_claim o some draws le).2]
        exact fun e => e
    · have eq : s.lower id a = (s, .refused) := by simp [State.lower, draws, Nat.lt_of_not_le le]
      rw [eq]
      exact fun e => e

theorem raise_withholds (id : Fin 7) (a : Nat) : Withholds s (s.raise id a).1 :=
  (raise_asks s id a).withholds fun _ e => by
    by_cases held : (s.claim id).st = .held
    · exact held
    · rwa [State.raise, if_pos held] at e

theorem rerank_withholds (id : Fin 7) {rank : Nat} (low : rank ≤ 6) : Withholds s (s.rerank id rank).1 := by
  refine (rerank_asks s id rank low).withholds fun o e => ?_
  by_cases waits : (s.claim id).st = .waiting
  · rw [(rerank_waiting o low waits).2] at e
    split at e <;> cases e
  · by_cases held : (s.claim id).st = .held
    · exact held
    · rwa [rerank_refused rank waits held] at e

theorem contestYields_withholds (id : Fin 7) : Withholds s (s.contestYields id).1 :=
  (contestYields_asks s id).withholds fun _ e => by
    by_contra not
    have eq : (s.contestYields id).1.claim id = (s.claim id).lose := claim_putClaim_self s id _
    rw [eq, Claim.lose, if_neg not] at e
    split at e <;> cases e

/-- The level, the usable SUPPLY and the remembered levels may change. -/
theorem setBroker_withholds (x : Broker) (claims : x.claims = s.broker.claims) : Withholds s (s.setBroker x) := fun o =>
  ⟨(setBroker_calm s x (fun h => by unfold Broker.claimsFit at *; rw [claims]; exact h) o).1, rfl, rfl, fun j e => by
    have same : (s.setBroker x).claim j = s.claim j := congrArg (fun t => Tab.get t j) claims
    rwa [same] at e⟩

/-! ### The Light Controller's -/

theorem setLight_withholds (ch : Fin 8) (l : Light) : Withholds s (s.setLight ch l) := (setLight_calm s ch l).withholds rfl rfl rfl

theorem setLights_withholds (l : Lights) : Withholds s (s.setLights l) := (setLights_calm s l).withholds rfl rfl rfl

theorem setGroup_withholds (g : Fin 2) (x : Group) : Withholds s (s.setGroup g x) := (setGroup_calm s g x).withholds rfl rfl rfl

theorem amend_withholds (g : Fin 2) : Withholds s (s.amend g) :=
  Withholds.ite (fun _ => Withholds.ite (fun _ => release_withholds s _)
    (fun _ => Withholds.ite (fun _ => lower_withholds s _ _) (fun _ => Withholds.refl s))) (fun _ => Withholds.refl s)

theorem takeTargets_withholds (g : Fin 2) (t : Tab 4 Nat) : Withholds s (s.takeTargets g t) :=
  (Withholds.foldl _ (fun s _ => setLight_withholds s _ _) _ s).trans (amend_withholds _ g)

theorem reviseOutcome_withholds (req outcome : Nat) : Withholds s (s.reviseOutcome req outcome) :=
  have shared := reviseOutcome_shared s req outcome
  have same : (s.reviseOutcome req outcome).broker = s.broker ∧ (s.reviseOutcome req outcome).periods = s.periods := by
    unfold State.reviseOutcome
    split <;> exact ⟨rfl, rfl⟩
  (reviseOutcome_calm s req outcome).withholds same.1 shared.cell same.2

theorem finishRequest_withholds (req : Nat) : Withholds s (s.finishRequest req) :=
  Withholds.ite (fun _ => Withholds.refl s) (fun _ => reviseOutcome_withholds s _ _)

theorem requestTaken_withholds (g : Fin 2) (r : GroupReq) : Withholds s (s.requestTaken g r) :=
  (setGroup_withholds s g _).trans ((takeTargets_withholds _ g _).trans (finishRequest_withholds _ _))

theorem requestRefused_withholds (g : Fin 2) (r : GroupReq) : Withholds s (s.requestRefused g r) :=
  (setGroup_withholds s g _).trans ((amend_withholds _ g).trans (finishRequest_withholds _ _))

theorem askGroup_withholds (g : Fin 2) (a : Nat) : Withholds s (s.askGroup g a).1 := by
  unfold State.askGroup
  split
  · exact raise_withholds s _ a
  · exact ask_withholds s _ a true (by decide) (by decide)

theorem tryScales_withholds (g : Fin 2) (r : GroupReq) (l : List Nat) : Withholds s (tryScales g r l s) := by
  induction l generalizing r s with
  | nil => exact requestRefused_withholds s g r
  | cons x xs ih =>
    unfold tryScales
    refine Withholds.ite (fun _ => requestTaken_withholds s g _) (fun _ => ?_)
    have asked := (setGroup_withholds s g { s.group g with
      pending := some { r with trial := s.scaledTargets g r.want x, scale := x } }).trans
      (askGroup_withholds _ g (s.covering g (s.scaledTargets g r.want x)))
    dsimp only
    split
    · next t e =>
      rw [e] at asked
      exact asked.trans (ih t _)
    · next t e =>
      rw [e] at asked
      exact asked.trans (requestTaken_withholds t g _)
    · next t _ _ _ e =>
      rw [e] at asked
      exact asked

theorem changeGroup_withholds (g : Fin 2) (t : Tab 4 Nat) (req : Nat) : Withholds s (s.changeGroup g t req) := by
  unfold State.changeGroup
  refine Withholds.ite (fun _ => takeTargets_withholds s g _) (fun _ => ?_)
  generalize t.map (fun x => min x s.lights.ceiling) = w
  have asked := (setGroup_withholds s g { s.group g with
    pending := some { want := w, trial := w, scale := 1000, req := req } }).trans (askGroup_withholds _ g (s.covering g w))
  dsimp only
  split
  · next t e =>
    rw [e] at asked
    exact asked.trans (tryScales_withholds t g _ _)
  · next t e =>
    rw [e] at asked
    exact asked.trans (requestTaken_withholds t g _)
  · next t _ _ _ e =>
    rw [e] at asked
    exact asked

theorem courtesyChange_withholds (ch : Fin 8) (d : CourtesyDue) : Withholds s (s.courtesyChange ch d) := by
  unfold State.courtesyChange
  refine Withholds.ite (fun _ => setLights_withholds s _)
    (fun _ => (setLights_withholds s { s.lights with due := .none }).trans ?_)
  cases d with
  | none => exact Withholds.refl _
  | light => exact Withholds.ite (fun _ => changeGroup_withholds _ _ _ _) (fun _ => Withholds.refl _)
  | restore => exact changeGroup_withholds _ _ _ _

theorem courtesyResumes_withholds : Withholds s s.courtesyResumes := by
  unfold State.courtesyResumes
  split
  · exact Withholds.refl s
  · exact Withholds.ite (fun _ => Withholds.refl s) (fun _ => courtesyChange_withholds s _ _)

theorem courtesyFollows_withholds (lost : Option Nat) : Withholds s (s.courtesyFollows lost) := by
  unfold State.courtesyFollows
  refine Withholds.ite (fun _ => Withholds.refl s) (fun _ => ?_)
  split
  · exact Withholds.refl s
  · intro o
    rw [readAll_checked o.checked]
    revert o
    dsimp only
    split
    · exact (setLights_withholds s _).trans
        (Withholds.ite (fun _ => Withholds.refl _) (fun _ => Withholds.ite (fun _ => setLights_withholds _ _)
          (fun _ => (setLights_withholds _ _).trans (courtesyChange_withholds _ _ _))))
    · exact (setLights_withholds s _).trans
        (Withholds.ite (fun _ => setLights_withholds _ _) (fun _ => Withholds.refl _))

theorem ceilingFollows_withholds : Withholds s s.ceilingFollows :=
  (setLights_withholds s _).trans ((amend_withholds _ 0).trans (amend_withholds _ 1))

theorem lightsYield_withholds (g : Fin 2) : Withholds s (s.lightsYield g) := by
  unfold State.lightsYield State.requestEnds
  split
  · exact Withholds.refl s
  · exact (setGroup_withholds s g _).trans (Withholds.ite (fun _ => finishRequest_withholds _ _)
      (fun _ => reviseOutcome_withholds _ _ _))

/-! ### The Motion Controller's -/

theorem stepSeen_withholds (ch : Fin 2) : Withholds s (s.stepSeen ch) :=
  Withholds.ite (fun _ => courtesyFollows_withholds s none) (fun _ => Withholds.refl s)

theorem modChan_withholds (ch : Fin 2) (f : Chan → Chan) : Withholds s (s.modChan ch f) := fun o =>
  ⟨setChan_ok o ch _, rfl, rfl, fun _ => id⟩

theorem brake_withholds (ch : Fin 2) (f : Move) (req : Nat) (keep : Bool) : Withholds s (s.brake ch f req keep) :=
  (modChan_withholds s ch _).trans
    ((Withholds.ite (fun _ => Withholds.refl _) (fun _ => release_withholds _ _)).trans (stepSeen_withholds _ ch))

theorem motionYields_withholds (ch : Fin 2) (held : (s.claim (loadMotor ch)).st = .held) : Withholds s (s.motionYields ch) := by
  have completes : Withholds s (s.complete (loadMotor ch)) := complete_withholds fun _ => held
  unfold State.motionYields
  dsimp only
  split
  · exact brake_withholds s ch _ _ _
  · exact completes
  · exact completes
  · split
    · exact completes
    · exact completes
    · exact release_withholds s _
  · exact release_withholds s _

/-! ### The Climate Controller's -/

theorem setClimate_withholds (x : Climate) : Withholds s (s.setClimate x) := (setClimate_calm s x).withholds rfl rfl rfl

theorem enterPurging_withholds : Withholds s s.enterPurging :=
  (setClimate_withholds s _).trans (Withholds.ite (fun _ => lower_withholds _ _ _) (fun _ => Withholds.refl _))

theorem heaterYields_withholds : Withholds s s.heaterYields := by
  unfold State.heaterYields
  split
  · exact enterPurging_withholds s
  · exact enterPurging_withholds s
  · exact enterPurging_withholds s
  · exact Withholds.refl s

theorem heaterRerank_withholds : Withholds s s.heaterRerank := by
  unfold State.heaterRerank
  refine Withholds.ite (fun h => ?_) (fun _ => Withholds.refl s)
  have reranks : Withholds s (s.rerank loadHeater s.heaterRank).1 := rerank_withholds s _ (heaterRank_le s)
  have held : ((s.rerank loadHeater s.heaterRank).1.claim loadHeater).st = .held := by
    rw [rerank_held_claim _ h.1]
    exact h.1
  split
  · next t e =>
    rw [e] at reranks held
    exact reranks.trans ((complete_withholds fun _ => held).trans (heaterYields_withholds _))
  · next t r _ e =>
    rw [e] at reranks
    exact reranks

theorem askHeater_withholds : Withholds s s.askHeater := by
  unfold State.askHeater
  refine Withholds.ite (fun _ => ?_) (fun _ => ask_withholds s _ _ _ (by decide) (by decide))
  have tries : Withholds s (s.ask loadHeater 1 (Item.startDraw s.seq.values) true).1 :=
    ask_withholds s _ _ _ (by decide) (by decide)
  split
  · next t e =>
    rw [e] at tries
    exact tries.trans ((setClimate_withholds t _).trans (ask_withholds _ _ _ _ (by decide) (by decide)))
  · next t r _ e =>
    rw [e] at tries
    exact tries

theorem heaterFollows_withholds : Withholds s s.heaterFollows := by
  unfold State.heaterFollows
  refine Withholds.ite (fun _ => ?_) (fun _ => Withholds.refl s)
  refine Withholds.trans ?_ (setClimate_withholds _ _)
  split
  · split
    · exact Withholds.ite (fun _ => askHeater_withholds s) (fun _ => Withholds.refl s)
    · exact Withholds.ite (fun _ => Withholds.ite (fun _ => Withholds.refl s)
        (fun _ => rerank_withholds s _ (heaterRank_le s))) (fun _ => release_withholds s _)
    · exact Withholds.ite (fun _ => Withholds.refl s) (fun _ => release_withholds s _)
    · exact Withholds.refl s
  · exact Withholds.ite (fun _ => heaterRerank_withholds s)
      (fun _ => (enterPurging_withholds s).trans (heaterRerank_withholds _))
  · exact Withholds.ite (fun _ => heaterRerank_withholds s)
      (fun _ => (enterPurging_withholds s).trans (heaterRerank_withholds _))
  · exact (setClimate_withholds s _).trans (heaterRerank_withholds _)
  · exact Withholds.refl s

theorem heaterStands_withholds : Withholds s s.heaterStands :=
  Withholds.ite (fun _ => ask_withholds s _ _ _ (by unfold State.heaterRank; split <;> decide) (heaterRank_le s))
    (fun _ => Withholds.refl s)

theorem heaterLost_withholds : Withholds s s.heaterLost :=
  (Withholds.ite (fun _ => setClimate_withholds s _) (fun _ => Withholds.refl s)).trans (heaterStands_withholds _)

theorem heaterWaits_withholds : Withholds s s.heaterWaits :=
  Withholds.ite (fun _ => heaterStands_withholds s) (fun _ => Withholds.refl s)

theorem frostService_withholds : Withholds s s.frostService := by
  unfold State.frostService
  refine Withholds.ite (fun _ => fun o => ?_) (fun _ => Withholds.refl s)
  rw [readAll_checked o.checked]
  exact (Withholds.ite (fun _ => Withholds.refl s)
    (fun _ => (setClimate_withholds s _).trans (heaterFollows_withholds _))) o

theorem padYields_withholds : Withholds s s.padYields :=
  ((setClimate_withholds s _).trans (release_withholds _ _)).trans
    (Withholds.ite (fun _ => ask_withholds _ _ _ _ (by decide) (by decide)) (fun _ => Withholds.refl _))

/-! ### The Water Manager's -/

theorem setWater_withholds (x : Water) : Withholds s (s.setWater x) := (setWater_calm s x).withholds rfl rfl rfl

theorem pumpReleased_withholds : Withholds s s.pumpReleased := (setWater_withholds s _).trans (release_withholds _ _)

theorem demandFollows_withholds : Withholds s s.demandFollows := by
  unfold State.demandFollows
  refine Withholds.ite (fun _ => ?_) (fun _ => Withholds.refl s)
  refine Withholds.trans ?_ (setWater_withholds _ _)
  refine Withholds.ite (fun _ => Withholds.refl s) (fun _ => Withholds.ite (fun _ => ?_) (fun _ => ?_))
  · exact Withholds.ite (fun _ => ask_withholds s _ _ _ (by decide) (by decide)) (fun _ => Withholds.refl s)
  · exact Withholds.ite (fun _ => Withholds.refl s) (fun _ => pumpReleased_withholds s)

theorem cyclePostponed_withholds : Withholds s s.cyclePostponed :=
  (Withholds.ite (fun _ => Withholds.refl s) (fun _ => (setWater_withholds s _).trans (frostService_withholds _))).trans
    ((setWater_withholds _ _).trans ((setWater_withholds _ _).trans (demandFollows_withholds _)))

theorem pumpLost_withholds : Withholds s s.pumpLost :=
  Withholds.ite (fun _ => cyclePostponed_withholds s) (fun _ => Withholds.refl s)

theorem pumpYields_withholds : Withholds s s.pumpYields :=
  (pumpReleased_withholds s).trans (Withholds.ite (fun _ => cyclePostponed_withholds _) (fun _ => demandFollows_withholds _))

/-! ### A rise of the level (R40, R49) -/

theorem yieldHeld_withholds (id : Fin 7) (held : (s.claim id).st = .held) : Withholds s (s.yieldHeld id) := by
  unfold State.yieldHeld
  split
  · exact (complete_withholds fun _ => held).trans (heaterYields_withholds _)
  · exact padYields_withholds s
  · exact pumpYields_withholds s
  · exact motionYields_withholds s 0 held
  · exact motionYields_withholds s 1 held
  · exact (complete_withholds fun _ => held).trans (lightsYield_withholds _ 0)
  · exact (complete_withholds fun _ => held).trans (lightsYield_withholds _ 1)

theorem lostToLevel_withholds (id : Fin 7) {r : Reply} (lost : r ≠ .granted) : Withholds s (s.lostToLevel id r) := by
  unfold State.lostToLevel State.report
  cases r with
  | granted => exact absurd rfl lost
  | lost =>
    match id with
    | 0 => exact heaterLost_withholds s
    | 2 => exact pumpLost_withholds s
    | 5 => exact lightsYield_withholds s 0
    | 6 => exact lightsYield_withholds s 1
    | 1 | 3 | 4 => exact Withholds.refl s
  | waits => exact Withholds.ite (fun _ => heaterWaits_withholds s) (fun _ => Withholds.refl s)
  | _ => exact Withholds.refl s

theorem yieldOne_withholds (id : Fin 7) : Withholds s (s.yieldOne id) := by
  unfold State.yieldOne
  refine Withholds.ite (fun _ => Withholds.refl s) (fun _ => ?_)
  split
  · next held => exact yieldHeld_withholds s id held
  · refine (contestYields_withholds s id).trans (lostToLevel_withholds _ id ?_)
    unfold Claim.lossReply
    split <;> nofun
  · exact Withholds.refl s

end

end Sys2Proof.Machine
end

