-- ==== Sys2Proof/Proofs/Turns.lean ====
section
/-! PROOFS. What one claim's part of a rise of the level leaves (R40, R49). -/

namespace Sys2Proof.Machine

/-! ### What one claim's part of a rise leaves (R40, R49) -/

/-- The claims that the part of one load in a rise reaches. -/
def turn (id : Fin 7) : Scope := { mons := heard, loads := (· ∈ ownersReach id) }

theorem yieldOne_within {s : State} (o : s.Ok) (id : Fin 7) :
    s.broker.followed False (s.yieldOne id).broker
      ∧ ∀ j, j ∉ ownersReach id → (s.claim j).stirs ((s.yieldOne id).claim j) := by
  obtain ⟨n, w⟩ := waitWithin_exists s
  obtain ⟨-, -, tended⟩ := yieldOne_tends (k := turn id) (n := n) (fun _ h => h) s id (fun _ m => m) o w
  exact ⟨tended.levels, fun j m => tended.claims j m⟩

/-- The end of a contest is told to the owners of the heater, the pump and the lights only (R40). -/
theorem lostToLevel_untold {id : Fin 7} (h : id = loadPad ∨ ∃ ch, id = loadMotor ch) (s : State) {r : Reply} (lost : r ≠ .granted) :
    s.lostToLevel id r = s := by
  have deaf : id = 1 ∨ id = 3 ∨ id = 4 := by
    rcases h with rfl | ⟨ch, rfl⟩
    · exact .inl rfl
    · match ch with
      | 0 => exact .inr (.inl rfl)
      | 1 => exact .inr (.inr rfl)
  unfold State.lostToLevel State.report
  cases r with
  | granted => exact absurd rfl lost
  | lost => rcases deaf with rfl | rfl | rfl <;> rfl
  | waits => rcases deaf with rfl | rfl | rfl <;> rfl
  | _ => rfl

theorem lossReply_ne (c : Claim) : c.lossReply ≠ .granted := by
  unfold Claim.lossReply
  split <;> nofun

theorem yieldOne_eq (s : State) (id : Fin 7) :
    s.yieldOne id = if s.rankYields id = false then s
      else match (s.claim id).st with
        | .held => s.yieldHeld id
        | .contest => (s.putClaim id (s.claim id).lose).lostToLevel id (s.claim id).lossReply
        | _ => s := by
  unfold State.yieldOne
  cases s.rankYields id <;> rfl

/-- A contest that ends in a rise, of an owner that is not told. -/
theorem yieldOne_untold {s : State} {id : Fin 7} (h : id = loadPad ∨ ∃ ch, id = loadMotor ch) (away : (s.claim id).st ≠ .held) :
    Shared s (s.yieldOne id) := by
  rw [yieldOne_eq]
  refine Shared.ite (Shared.refl s) ?_
  split
  · next held => exact absurd held away
  · rw [lostToLevel_untold h _ (lossReply_ne _)]
    exact putClaim_shared s id _
  · exact Shared.refl s

theorem lostToLevel_lights (s : State) (g : Fin 2) {r : Reply} (lost : r ≠ .granted) : Lit s (s.lostToLevel (loadLights g) r) := by
  have not : loadLights g ≠ 0 := by decide +revert
  have yields : (s.lostToLevel (loadLights g) .lost) = s.lightsYield g := by
    match g with
    | 0 => rfl
    | 1 => rfl
  cases r with
  | granted => exact absurd rfl lost
  | lost =>
    rw [yields]
    exact requestEnds_lit s g _
  | waits =>
    have same : s.lostToLevel (loadLights g) .waits = s := if_neg not
    rw [same]
    exact Lit.refl s
  | _ => exact Lit.refl s

theorem yieldOne_lights (s : State) (g : Fin 2) : Lit s (s.yieldOne (loadLights g)) := by
  have yields : s.yieldHeld (loadLights g) = (s.complete (loadLights g)).lightsYield g := by
    match g with
    | 0 => rfl
    | 1 => rfl
  rw [yieldOne_eq]
  refine Lit.ite (Lit.refl s) ?_
  split
  · rw [yields]
    exact (complete_shared s _).lit.trans (requestEnds_lit _ g _)
  · exact (putClaim_shared s _ _).lit.trans (lostToLevel_lights _ g (lossReply_ne _))
  · exact Lit.refl s

theorem motionYields_only (s : State) (ch : Fin 2) : Only ch s (s.motionYields ch) := by
  unfold State.motionYields
  dsimp only
  split
  · exact brake_only s ch _ _ _
  · exact (complete_shared s _).only
  · exact (complete_shared s _).only
  · split
    · exact (complete_shared s _).only
    · exact (complete_shared s _).only
    · exact (release_shared s _).only
  · exact (release_shared s _).only

theorem yieldOne_motor (s : State) (ch : Fin 2) :
    Moved s (s.yieldOne (loadMotor ch)) ∧ Only ch s (s.yieldOne (loadMotor ch)) := by
  by_cases held : (s.claim (loadMotor ch)).st = .held
  · have yields : s.yieldHeld (loadMotor ch) = s.motionYields ch := by
      match ch with
      | 0 => rfl
      | 1 => rfl
    rw [yieldOne_eq, held, yields]
    exact ⟨Moved.ite (Moved.refl s) (motionYields_moved s ch), Only.ite (Only.refl s) (motionYields_only s ch)⟩
  · have shared := yieldOne_untold (.inr ⟨ch, rfl⟩) held
    exact ⟨shared.moved, shared.only⟩

theorem yieldOne_heater (s : State) : Warm s (s.yieldOne loadHeater) := by
  rw [yieldOne_eq]
  refine Warm.ite (Warm.refl s) ?_
  split
  · exact (complete_shared s _).warm.trans (heaterYields_warm _)
  · refine (putClaim_shared s loadHeater (s.claim loadHeater).lose).warm.trans ?_
    cases e : (s.claim loadHeater).lossReply with
    | granted => exact absurd e (lossReply_ne _)
    | lost => exact heaterLost_warm _
    | waits => exact (heaterWaits_shared _).warm
    | _ => exact Warm.refl _
  · exact Warm.refl s

theorem yieldOne_pad (s : State) : Warm s (s.yieldOne loadPad) := by
  by_cases held : (s.claim loadPad).st = .held
  · rw [yieldOne_eq, held]
    exact Warm.ite (Warm.refl s) (padYields_warm s)
  · exact (yieldOne_untold (.inl rfl) held).warm

theorem yieldOne_pump (s : State) : Wet s (s.yieldOne loadPump) := by
  rw [yieldOne_eq]
  refine Wet.ite (Wet.refl s) ?_
  split
  · exact pumpYields_wet s
  · refine (putClaim_shared s loadPump (s.claim loadPump).lose).wet.trans ?_
    cases e : (s.claim loadPump).lossReply with
    | granted => exact absurd e (lossReply_ne _)
    | lost => exact pumpLost_wet _
    | _ => exact Wet.refl _
  · exact Wet.refl s

theorem Warm.water {s t : State} (h : Warm s t) : t.water = s.water := Shared.water (s := { s with climate := t.climate, cell := t.cell }) h

theorem Moved.water {s t : State} (h : Moved s t) : t.water = s.water := Shared.water (s := { s with motion := t.motion, lights := t.lights }) h

theorem Wet.motion {s t : State} (h : Wet s t) : t.motion = s.motion :=
  Shared.motion (s := { s with water := t.water, climate := t.climate, cell := t.cell }) h

theorem Lit.motion {s t : State} (h : Lit s t) : t.motion = s.motion := Shared.motion (s := { s with lights := t.lights }) h

/-- The loads by their owners (R30). -/
theorem load_cases (id : Fin 7) :
    id = loadHeater ∨ id = loadPad ∨ id = loadPump ∨ (∃ ch, id = loadMotor ch) ∨ ∃ g, id = loadLights g := by
  decide +revert

section
variable (s : State) (id : Fin 7)

theorem yieldOne_water (not : id ≠ loadPump) : (s.yieldOne id).water = s.water := by
  rcases load_cases id with rfl | rfl | e | ⟨ch, rfl⟩ | ⟨g, rfl⟩
  · exact (yieldOne_heater s).water
  · exact (yieldOne_pad s).water
  · exact absurd e not
  · exact (yieldOne_motor s ch).1.water
  · exact (yieldOne_lights s g).moved.water

theorem yieldOne_chan (ch : Fin 2) (not : id ≠ loadMotor ch) : (s.yieldOne id).chan ch = s.chan ch := by
  rcases load_cases id with rfl | rfl | rfl | ⟨o, rfl⟩ | ⟨g, rfl⟩
  · exact chan_of_motion ((yieldOne_heater s).wet.motion) ch
  · exact chan_of_motion ((yieldOne_pad s).wet.motion) ch
  · exact chan_of_motion ((yieldOne_pump s).motion) ch
  · exact (yieldOne_motor s o).2.other ch fun e => not (e ▸ rfl)
  · exact chan_of_motion ((yieldOne_lights s g).motion) ch

end

/-! ### The parts of several loads in turn -/

section
variable (l : List (Fin 7)) (s : State)

theorem turns_water (away : loadPump ∉ l) : (l.foldl State.yieldOne s).water = s.water := by
  induction l generalizing s with
  | nil => rfl
  | cons id ids ih =>
    obtain ⟨not, rest⟩ := List.ne_and_not_mem_of_not_mem_cons away
    exact (ih (s.yieldOne id) rest).trans (yieldOne_water s id not.symm)

theorem turns_chan (ch : Fin 2) (away : loadMotor ch ∉ l) : (l.foldl State.yieldOne s).chan ch = s.chan ch := by
  induction l generalizing s with
  | nil => rfl
  | cons id ids ih =>
    obtain ⟨not, rest⟩ := List.ne_and_not_mem_of_not_mem_cons away
    exact (ih (s.yieldOne id) rest).trans (yieldOne_chan s id ch not.symm)

variable {s} (o : s.Ok)
include o

theorem turns_stir : (l.foldl State.yieldOne s).Ok ∧ s.broker.followed False (l.foldl State.yieldOne s).broker
    ∧ ∀ j, (∀ id ∈ l, j ∉ ownersReach id) → (s.claim j).stirs ((l.foldl State.yieldOne s).claim j) := by
  induction l generalizing s with
  | nil => exact ⟨o, Broker.followed_same _ rfl rfl rfl, fun j _ => .inl rfl⟩
  | cons id ids ih =>
    obtain ⟨levels, stirs⟩ := yieldOne_within o id
    obtain ⟨ok, levels', stirs'⟩ := ih (yieldOne_withholds s id o).1
    exact ⟨ok, Broker.followed_trans levels levels', fun j away =>
      Claim.stirs_trans (stirs j (away id (.head _))) (stirs' j fun i m => away i (.tail _ m))⟩

end

end Sys2Proof.Machine
end

