-- ==== Sys2Proof/Proofs/Rises.lean ====
section
/-! PROOFS. A rise of the level, from the side of one load (R40, R49, R155). -/

namespace Sys2Proof.Machine

/-! ### A rise of the level, from the side of one load (R40, R49, R155) -/

/-- The level rises to `l`: the claims yield in turn, and the ceiling follows. -/
def State.risesTo (s : State) (l : Nat) : State :=
  ((fin7.foldl State.yieldOne (s.setBroker { s.broker with level := l })).ceilingFollows).courtesyResumes

theorem levelFollows_rises {s : State} (o : s.Ok) (rises : s.broker.level < s.levelNow) :
    s.levelFollows = s.risesTo s.levelNow := by
  unfold State.levelFollows
  rw [readSupply_checked o.checked]
  dsimp only
  rw [if_neg (by omega), if_pos rises]
  rfl

/-- What follows the last load's turn reaches only the light groups. -/
theorem risen_lights {u : State} (o : u.Ok) : Withholds u u.ceilingFollows.courtesyResumes
    ∧ Lit u u.ceilingFollows.courtesyResumes
    ∧ u.broker.followed False u.ceilingFollows.courtesyResumes.broker
    ∧ ∀ j : Fin 7, j.val < 5 → (u.claim j).stirs (u.ceilingFollows.courtesyResumes.claim j) := by
  have lit := lightsReach_lit
  obtain ⟨n, w⟩ := waitWithin_exists u
  obtain ⟨-, -, tended⟩ := ((ceilingFollows_tends (k := lightsReach) (n := n) u).trans (courtesyResumes_tends _)) o w
  refine ⟨(ceilingFollows_withholds u).trans (courtesyResumes_withholds _),
    (ceilingFollows_lit u).trans (courtesyResumes_lit _), tended.levels,
    fun j low => tended.claims j (show ¬ 5 ≤ j.val by omega)⟩

/-- The state `u` in which the load `id` has its turn in a rise from `s` to `t`. -/
structure Turn (s t u : State) (l : Nat) (id : Fin 7) : Prop where
  ok : u.Ok
  level : u.broker.level = l
  claim : (s.claim id).stirs (u.claim id)
  water : id = loadPump → u.water = s.water ∧ t.water = (u.yieldOne id).water
  chan : ∀ ch, id = loadMotor ch → u.chan ch = s.chan ch ∧ t.chan ch = (u.yieldOne id).chan ch
  after : id ≠ loadHeater → ((u.yieldOne id).claim id).stirs (t.claim id)
  withholds : Withholds (u.yieldOne id) t

theorem fin7_split (id : Fin 7) : ∃ pre post, fin7 = pre ++ id :: post ∧ (∀ i ∈ pre, i < id) ∧ ∀ i ∈ post, id < i := by
  match id with
  | 0 => exact ⟨[], [1, 2, 3, 4, 5, 6], rfl, by decide, by decide⟩
  | 1 => exact ⟨[0], [2, 3, 4, 5, 6], rfl, by decide, by decide⟩
  | 2 => exact ⟨[0, 1], [3, 4, 5, 6], rfl, by decide, by decide⟩
  | 3 => exact ⟨[0, 1, 2], [4, 5, 6], rfl, by decide, by decide⟩
  | 4 => exact ⟨[0, 1, 2, 3], [5, 6], rfl, by decide, by decide⟩
  | 5 => exact ⟨[0, 1, 2, 3, 4], [6], rfl, by decide, by decide⟩
  | 6 => exact ⟨[0, 1, 2, 3, 4, 5], [], rfl, by decide, by decide⟩

theorem reach_before {i id : Fin 7} (low : id.val < 5) (lt : i < id) : id ∉ ownersReach i := by decide +revert

theorem reach_after {i id : Fin 7} (low : id.val < 5) (lt : id < i) (not : id ≠ loadHeater) : id ∉ ownersReach i := by
  decide +revert

theorem risesTo_turn {s : State} (o : s.Ok) (l : Nat) {id : Fin 7} (low : id.val < 5) :
    ∃ u, Turn s (s.risesTo l) u l id := by
  obtain ⟨pre, post, split, before, after⟩ := fin7_split id
  have ok : (s.setBroker { s.broker with level := l }).Ok := (setBroker_calm s { s.broker with level := l } (fun k => k) o).1
  have eq : s.risesTo l = (post.foldl State.yieldOne ((pre.foldl State.yieldOne
      (s.setBroker { s.broker with level := l })).yieldOne id)).ceilingFollows.courtesyResumes := by
    rw [State.risesTo, split, List.foldl_append]
    rfl
  rw [eq]
  obtain ⟨ok, levels, stirs⟩ := turns_stir pre ok
  have water : loadPump ∉ pre → (pre.foldl State.yieldOne (s.setBroker { s.broker with level := l })).water = s.water :=
    turns_water pre _
  have chan : ∀ ch, loadMotor ch ∉ pre →
      (pre.foldl State.yieldOne (s.setBroker { s.broker with level := l })).chan ch = s.chan ch := turns_chan pre _
  generalize pre.foldl State.yieldOne (s.setBroker { s.broker with level := l }) = u at *
  obtain ⟨ok', -, stirs'⟩ := turns_stir post (yieldOne_withholds u id ok).1
  obtain ⟨withholds, lit, -, stirs''⟩ := risen_lights ok'
  refine ⟨u, {
    ok := ok
    level := (levels.1 nofun).1
    claim := stirs id fun i m => reach_before low (before i m)
    water := fun e => ?_
    chan := fun ch e => ?_
    after := fun not => ?_
    withholds := (Withholds.foldl _ (fun s i => yieldOne_withholds s i) post _).trans withholds }⟩
  · have there : loadPump ∉ pre := fun m => absurd (before _ m) (e ▸ lt_irrefl _)
    have gone : loadPump ∉ post := fun m => absurd (after _ m) (e ▸ lt_irrefl _)
    exact ⟨water there, lit.moved.water.trans (turns_water post _ gone)⟩
  · have there : loadMotor ch ∉ pre := fun m => absurd (before _ m) (e ▸ lt_irrefl _)
    have gone : loadMotor ch ∉ post := fun m => absurd (after _ m) (e ▸ lt_irrefl _)
    exact ⟨chan ch there, (chan_of_motion lit.motion ch).trans (turns_chan post _ ch gone)⟩
  · exact Claim.stirs_trans (stirs' id fun i m => reach_after low (after i m) not) (stirs'' id low)

/-- A rise leaves the remembered levels and sets the level. -/
theorem risesTo_level {s : State} (o : s.Ok) (l : Nat) :
    (s.risesTo l).broker.level = l ∧ ∀ n, (s.risesTo l).broker.remembered.get n = s.broker.remembered.get n := by
  have ok : (s.setBroker { s.broker with level := l }).Ok := (setBroker_calm s { s.broker with level := l } (fun k => k) o).1
  obtain ⟨ok, turns, -⟩ := turns_stir fin7 ok
  unfold State.risesTo
  generalize fin7.foldl State.yieldOne _ = u at ok turns ⊢
  obtain ⟨-, -, lights, -⟩ := risen_lights ok
  obtain ⟨levels, remembered⟩ := Broker.followed_trans turns lights
  exact ⟨(levels nofun).1, fun n => (remembered n).elim id nofun⟩

theorem risesTo_withholds (s : State) (l : Nat) : Withholds s (s.risesTo l) :=
  (setBroker_withholds s { s.broker with level := l } (by rfl)).trans
    ((Withholds.foldl State.yieldOne yieldOne_withholds fin7 _).trans
      ((ceilingFollows_withholds _).trans (courtesyResumes_withholds _)))

end Sys2Proof.Machine
end

