-- ==== Sys2Proof/Proofs/OwnTurns.lean ====
section
/-! PROOFS. A claim's own turn in a rise (R40, R49, R50, R144). -/

namespace Sys2Proof.Machine

/-! ### A claim's own turn in a rise (R40, R49, R50, R144) -/

section
variable {s t u : State} {l : Nat} {id : Fin 7}

theorem yieldOne_held (yields : 7 ≤ (s.claim id).rank + s.broker.level) (held : (s.claim id).st = .held) :
    s.yieldOne id = s.yieldHeld id := by
  rw [yieldOne_eq, State.rankYields, decide_eq_true yields, held]
  rfl

theorem yieldOne_contest (yields : 7 ≤ (s.claim id).rank + s.broker.level) (contest : (s.claim id).st = .contest) :
    s.yieldOne id = (s.putClaim id (s.claim id).lose).lostToLevel id (s.claim id).lossReply := by
  rw [yieldOne_eq, State.rankYields, decide_eq_true yields, contest]
  rfl

/-- A claim that does not wait comes to its turn as it was. -/
theorem Turn.own (h : Turn s t u l id) (not : (s.claim id).st ≠ .waiting) : u.claim id = s.claim id :=
  Claim.stirs_same h.claim not

section
variable (h : Turn s t u l id) (yields : 7 ≤ (s.claim id).rank + l)
include h yields

theorem Turn.held (held : (s.claim id).st = .held) : u.yieldOne id = u.yieldHeld id := by
  have own := h.own (by rw [held]; decide)
  exact yieldOne_held (by rw [own, h.level]; exact yields) (by rw [own, held])

theorem Turn.contest (contest : (s.claim id).st = .contest) :
    u.yieldOne id = (u.putClaim id (s.claim id).lose).lostToLevel id (s.claim id).lossReply := by
  have own := h.own (by rw [contest]; decide)
  rw [yieldOne_contest (by rw [own, h.level]; exact yields) (by rw [own, contest]), own]

end

/-! ### Release by the pad and the pump -/

theorem padYields_frees (o : u.Ok) : (u.padYields.claim loadPad).st ≠ .held := fun held => by
  have released := release_idle (setClimate_calm u { u.climate with pad := false } o).1 loadPad
  have rest : Withholds ((u.setClimate { u.climate with pad := false }).release loadPad) u.padYields :=
    Withholds.ite (fun _ => ask_withholds _ _ _ _ (by decide) (by decide)) (fun _ => Withholds.refl _)
  have was := (rest (release_calm _ loadPad (setClimate_calm u _ o).1).1).2.held loadPad held
  rw [released] at was
  cases was

theorem pumpYields_frees (o : u.Ok) : (u.pumpYields.claim loadPump).st ≠ .held := fun held => by
  have ok := (setWater_calm u { u.water with pump := false, runawayTimer := none } o).1
  have released : (u.pumpReleased.claim loadPump).st = .idle := release_idle ok loadPump
  have rest : Withholds u.pumpReleased u.pumpYields :=
    Withholds.ite (fun _ => cyclePostponed_withholds _) (fun _ => demandFollows_withholds _)
  have was := (rest (release_calm _ loadPump ok).1).2.held loadPump held
  rw [released] at was
  cases was

theorem Turn.frees (h : Turn s t u l id) (yields : 7 ≤ (s.claim id).rank + l) (held : (s.claim id).st = .held)
    (load : id = loadPad ∨ id = loadPump) : (t.claim id).st ≠ .held := fun e => by
  have own := (h.withholds (yieldOne_withholds u id h.ok).1).2.held id e
  rw [h.held yields held] at own
  rcases load with rfl | rfl
  · exact padYields_frees h.ok own
  · exact pumpYields_frees h.ok own

/-! ### The motors -/

theorem Claim.stirs_idle {c d : Claim} (h : c.stirs d) (idle : c.st = .idle) : d.st = .idle := by
  rw [Claim.stirs_same h (by rw [idle]; decide), idle]

theorem motor_away (ch : Fin 2) : loadMotor ch ≠ loadHeater := by decide +revert

section
variable {ch : Fin 2} (h : Turn s t u l (loadMotor ch)) (yields : 7 ≤ (s.claim (loadMotor ch)).rank + l)
  (held : (s.claim (loadMotor ch)).st = .held)
include h yields held

theorem Turn.motor : u.yieldOne (loadMotor ch) = u.motionYields ch := by
  rw [h.held yields held]
  match ch with
  | 0 => rfl
  | 1 => rfl

theorem Turn.brakes (extends_ : (s.chan ch).st = .extending) :
    (t.claim (loadMotor ch)).st = .idle ∧ t.chan ch = (s.chan ch).braked .none 0 := by
  obtain ⟨was, is⟩ := h.chan ch rfl
  have stirs := h.after (motor_away ch)
  have turn : u.yieldOne (loadMotor ch) = u.brake ch .none 0 false := by
    rw [h.motor yields held, State.motionYields, was, extends_]
  rw [turn] at is stirs
  exact ⟨Claim.stirs_idle stirs (brake_frees h.ok (.inl rfl)), by rw [is, (brake_puts u ch .none 0 false).chan, was]⟩

theorem Turn.completes (homes : (s.chan ch).st = .retracting ∨ (s.chan ch).st = .backoff
      ∨ (s.chan ch).st = .braking ∧ ((s.chan ch).followOn = .retract ∨ (s.chan ch).followOn = .backoff)) :
    (t.claim (loadMotor ch)).st = .held ∧ (t.claim (loadMotor ch)).rank = 0
      ∧ (t.claim (loadMotor ch)).held = (s.claim (loadMotor ch)).held ∧ t.chan ch = s.chan ch := by
  obtain ⟨was, is⟩ := h.chan ch rfl
  have stirs := h.after (motor_away ch)
  have own := h.own (by rw [held]; decide)
  have turn : u.yieldOne (loadMotor ch) = u.complete (loadMotor ch) := by
    rw [h.motor yields held, State.motionYields, was]
    rcases homes with st | st | ⟨st, follow | follow⟩
    · rw [st]
    · rw [st]
    · rw [st, follow]
    · rw [st, follow]
  rw [turn, complete_claim, own] at stirs
  rw [turn] at is
  rw [Claim.stirs_same stirs nofun, is]
  exact ⟨rfl, rfl, rfl, was⟩

theorem Turn.releases (st : (s.chan ch).st = .braking) (follow : (s.chan ch).followOn = .extend) :
    (t.claim (loadMotor ch)).st = .idle ∧ t.chan ch = s.chan ch := by
  obtain ⟨was, is⟩ := h.chan ch rfl
  have stirs := h.after (motor_away ch)
  have turn : u.yieldOne (loadMotor ch) = u.release (loadMotor ch) := by
    rw [h.motor yields held, State.motionYields, was, st, follow]
  rw [turn] at is stirs
  exact ⟨Claim.stirs_idle stirs (release_idle h.ok _), is.trans ((chan_of_motion (release_shared u _).motion ch).trans was)⟩

end

/-! ### A contest that ends -/

/-- A contest of a standing ask waits, but for one that the level lets run again (R40, R45). -/
theorem Turn.waits (h : Turn s t u l id) (yields : 7 ≤ (s.claim id).rank + l) (contest : (s.claim id).st = .contest)
    (single : (s.claim id).single = false) (not : id ≠ loadHeater) : (s.claim id).toWaiting.stirs (t.claim id) := by
  have stirs := h.after not
  have lose : (s.claim id).lose = (s.claim id).toWaiting := by simp [Claim.lose, contest, single]
  have reply : (s.claim id).lossReply = .waits := by simp [Claim.lossReply, contest, single]
  have same : ∀ v : State, v.lostToLevel id .waits = v := fun _ => if_neg not
  rwa [h.contest yields contest, lose, reply, same, claim_putClaim_self] at stirs

theorem Turn.postpones (h : Turn s t u l loadPump) (yields : 7 ≤ (s.claim loadPump).rank + l)
    (contest : (s.claim loadPump).st = .contest) (single : (s.claim loadPump).single = true)
    (asking : s.water.cycle = .asking) (calm : s.water.demand = false) :
    t.water.cycle = .timing ∧ t.water.owed = min 4 (s.water.owed + 1) := by
  obtain ⟨was, is⟩ := h.water rfl
  have reply : (s.claim loadPump).lossReply = .lost := by simp [Claim.lossReply, single]
  have turn : u.yieldOne loadPump = (u.putClaim loadPump (s.claim loadPump).lose).cyclePostponed := by
    rw [h.contest yields contest, reply]
    show (if (u.putClaim loadPump _).water.cycle = .asking then _ else _) = _
    exact if_pos (show u.water.cycle = .asking by rw [was, asking])
  obtain ⟨cycle, owed, -⟩ :=
    cyclePostponed_cycle (s := u.putClaim loadPump (s.claim loadPump).lose) (show u.water.demand = false by rw [was, calm])
  rw [is, turn]
  refine ⟨cycle, owed.trans ?_⟩
  show min 4 (u.water.owed + 1) = _
  rw [was]

end

end Sys2Proof.Machine
end

