-- ==== Sys2Proof/Proofs/HeaterRests.lean ====
section
/-! PROOFS. The heater after its turn in a rise (R117). -/

namespace Sys2Proof.Machine

/-! ### The heater in a rise (R40, R49, R111, R117) -/

/-- A purging heater whose claim is kept at rank 0. -/
structure State.HeaterRests (s : State) : Prop where
  purges : s.climate.heater = .purging
  held : (s.claim loadHeater).st = .held
  last : (s.claim loadHeater).rank = 0

/-- From an orderly state in which the heater rests, an operation keeps it at rest. -/
def LetsRest (s t : State) : Prop := s.Ok → s.HeaterRests → t.Ok ∧ t.HeaterRests

section
variable {s t u : State}

theorem LetsRest.refl (s : State) : LetsRest s s := fun o h => ⟨o, h⟩

theorem LetsRest.trans (h : LetsRest s t) (k : LetsRest t u) : LetsRest s u := fun o r =>
  have ⟨o', r'⟩ := h o r
  k o' r'

theorem LetsRest.ite {c : Prop} [Decidable c] {a b : State} (h : c → LetsRest s a) (k : ¬ c → LetsRest s b) :
    LetsRest s (if c then a else b) := by
  split
  · exact h ‹_›
  · exact k ‹_›

theorem State.HeaterRests.of (h : s.HeaterRests) (heater : t.climate.heater = s.climate.heater)
    (claim : t.claim loadHeater = s.claim loadHeater) : t.HeaterRests :=
  ⟨heater.trans h.purges, by rw [claim, h.held], by rw [claim, h.last]⟩

/-- Another owner's use of the Broker. -/
theorem Asks.letsRest {id : Fin 7} (h : Asks (· = id) s t) (other : loadHeater ≠ id) : LetsRest s t := fun o r =>
  ⟨(h o).1, r.of (by rw [(h o).2.climate]) ((h o).2.others loadHeater other (by rw [r.held]; decide))⟩

theorem setWater_letsRest (s : State) (x : Water) : LetsRest s (s.setWater x) := fun o r => ⟨(setWater_calm s x o).1, r.of rfl rfl⟩

theorem setClimate_letsRest (s : State) (x : Climate) (heater : x.heater = s.climate.heater) : LetsRest s (s.setClimate x) :=
  fun o r => ⟨(setClimate_calm s x o).1, r.of heater rfl⟩

theorem heaterRerank_rests (h : (s.claim loadHeater).rank = 0) : s.heaterRerank = s := if_neg fun k => k.2.1 h

theorem heaterFollows_letsRest (s : State) : LetsRest s s.heaterFollows := fun o r => by
  unfold State.heaterFollows
  split
  · rw [r.purges]
    have climate := setClimate_calm s { s.climate with remembered := s.heaterWanted } o
    dsimp only
    rw [heaterRerank_rests (s := s.setClimate { s.climate with remembered := s.heaterWanted }) r.last]
    exact ⟨(setClimate_calm _ _ climate.1).1, r.of rfl rfl⟩
  · exact ⟨o, r⟩

theorem frostService_letsRest (s : State) : LetsRest s s.frostService := by
  unfold State.frostService
  refine LetsRest.ite (fun _ o => ?_) (fun _ => LetsRest.refl s)
  rw [readAll_checked o.checked]
  exact LetsRest.ite (fun _ => LetsRest.refl s) (fun _ =>
    (setClimate_letsRest s _ (by rfl)).trans (heaterFollows_letsRest _)) o

theorem pumpReleased_letsRest (s : State) : LetsRest s s.pumpReleased :=
  (setWater_letsRest s _).trans ((release_asks _ _).letsRest (by decide))

theorem demandFollows_letsRest (s : State) : LetsRest s s.demandFollows := by
  unfold State.demandFollows
  refine LetsRest.ite (fun _ => ?_) (fun _ => LetsRest.refl s)
  refine LetsRest.trans ?_ (setWater_letsRest _ _)
  refine LetsRest.ite (fun _ => LetsRest.refl s) (fun _ => LetsRest.ite (fun _ => ?_) (fun _ => ?_))
  · exact LetsRest.ite (fun _ => (ask_asks s _ _ _ _ (by decide)).letsRest (by decide)) (fun _ => LetsRest.refl s)
  · exact LetsRest.ite (fun _ => LetsRest.refl s) (fun _ => pumpReleased_letsRest s)

theorem cyclePostponed_letsRest (s : State) : LetsRest s s.cyclePostponed :=
  (LetsRest.ite (fun _ => LetsRest.refl s) (fun _ => (setWater_letsRest s _).trans (frostService_letsRest _))).trans
    ((setWater_letsRest _ _).trans ((setWater_letsRest _ _).trans (demandFollows_letsRest _)))

theorem pumpYields_letsRest (s : State) : LetsRest s s.pumpYields :=
  (pumpReleased_letsRest s).trans (LetsRest.ite (fun _ => cyclePostponed_letsRest _) (fun _ => demandFollows_letsRest _))

theorem yieldOne_pump_letsRest (s : State) : LetsRest s (s.yieldOne loadPump) := by
  rw [yieldOne_eq]
  refine LetsRest.ite (fun _ => LetsRest.refl s) (fun _ => ?_)
  split
  · exact pumpYields_letsRest s
  · refine ((contestYields_asks s loadPump).letsRest (t := s.putClaim loadPump (s.claim loadPump).lose) (by decide)).trans ?_
    cases e : (s.claim loadPump).lossReply with
    | granted => exact absurd e (lossReply_ne _)
    | lost => exact LetsRest.ite (fun _ => cyclePostponed_letsRest _) (fun _ => LetsRest.refl _)
    | _ => exact LetsRest.refl _
  · exact LetsRest.refl s

theorem yieldOne_pad_letsRest (s : State) : LetsRest s (s.yieldOne loadPad) := fun o r => by
  have claim := Claim.stirs_same ((yieldOne_within o loadPad).2 loadHeater (by decide)) (by rw [r.held]; decide)
  refine ⟨(yieldOne_withholds s loadPad o).1, r.of ?_ claim⟩
  by_cases held : (s.claim loadPad).st = .held
  · rw [yieldOne_eq, held]
    split
    · rfl
    · show s.padYields.climate.heater = _
      unfold State.padYields
      dsimp only
      split
      · rw [(ask_shared _ _ _ _ _).climate, (release_shared _ _).climate]
        rfl
      · rw [(release_shared _ _).climate]
        rfl
  · rw [(yieldOne_untold (.inl rfl) held).climate]

/-! ### The pump's turn with no cycle circulating -/

theorem yieldOne_pump_calm {s : State} (o : s.Ok) (calm : s.water.demand = false) :
    (s.claim loadHeater).stirs ((s.yieldOne loadPump).claim loadHeater) := by
  let k : Scope := { mons := fun _ => False, loads := (· = loadPump) }
  have pump : Fact (k.loads loadPump) := ⟨rfl⟩
  obtain ⟨n, w⟩ := waitWithin_exists s
  have postponed : ∀ v : State, v.water.demand = false → Tends k n v v.cyclePostponed := fun v calm => by
    rw [cyclePostponed_eq calm]
    exact (setWater_tends v _).trans ((timing_tends _ _).trans (demandFollows_tends _))
  have tends : Tends k n s (s.yieldOne loadPump) := by
    rw [yieldOne_eq]
    refine Tends.ite (fun _ => Tends.refl k n s) (fun _ => ?_)
    split
    · exact (pumpReleased_tends s).trans (Tends.ite
        (fun _ => postponed _ (by rw [State.pumpReleased, (release_shared _ _).water]; exact calm)) (fun _ => demandFollows_tends _))
    · refine Tends.trans (t := s.putClaim loadPump (s.claim loadPump).lose) (contestYields_asks s loadPump).tends ?_
      cases e : (s.claim loadPump).lossReply with
      | granted => exact absurd e (lossReply_ne _)
      | lost => exact Tends.ite (fun _ => postponed _ calm) (fun _ => Tends.refl k n _)
      | _ => exact Tends.refl k n _
    · exact Tends.refl k n s
  exact (tends o w).2.2.claims loadHeater (show ¬ loadHeater = loadPump by decide)

end

end Sys2Proof.Machine
end

