-- ==== Sys2Proof/Proofs/RisenClaims.lean ====
section
/-! PROOFS. Where a rise leaves the heater's claim and the waiting ones (R40, R49, R111). -/

namespace Sys2Proof.Machine

/-! ### A rise of the level: where it leaves each claim (R40, R49, R111) -/

section
variable {s t : State} {l : Nat}

/-- A claim that waits at a rank that yields to the level waits on. -/
theorem Claim.Bears.waits {c d : Claim} {id : Fin 7} (bears : Claim.Bears l id d) (low : 7 ≤ c.rank + l)
    (stirs : c.toWaiting.stirs d) : d = c.toWaiting := by
  rcases stirs with same | ⟨-, same | ⟨n, contest⟩⟩
  · exact same
  · exact same
  · have rank := bears.contests (by rw [contest]; rfl)
    rw [contest] at rank
    have own : askRank id (c.toWaiting.toContest n) = c.rank := if_neg fun h => nomatch h.1
    omega

/-- A rise after the heater's turn. -/
def State.afterHeater (u : State) : State :=
  ([3, 4, 5, 6].foldl State.yieldOne ((u.yieldOne loadPad).yieldOne loadPump)).ceilingFollows.courtesyResumes

theorem risesTo_eq (s : State) (l : Nat) :
    s.risesTo l = ((s.setBroker { s.broker with level := l }).yieldOne loadHeater).afterHeater := by
  have split : fin7 = [loadHeater, loadPad, loadPump] ++ [3, 4, 5, 6] := rfl
  have three : ∀ v, [loadHeater, loadPad, loadPump].foldl State.yieldOne v
      = ((v.yieldOne loadHeater).yieldOne loadPad).yieldOne loadPump := fun _ => rfl
  rw [State.risesTo, State.afterHeater, split, List.foldl_append, three]

section
variable {u : State} (ok : u.Ok)
include ok

theorem afterHeater_stirs :
    (((u.yieldOne loadPad).yieldOne loadPump).claim loadHeater).stirs (u.afterHeater.claim loadHeater) := by
  have ok' := (yieldOne_withholds u loadPad ok).1
  obtain ⟨ok'', -, stirs⟩ := turns_stir [3, 4, 5, 6] (yieldOne_withholds _ loadPump ok').1
  obtain ⟨-, -, -, stirs'⟩ := risen_lights ok''
  exact Claim.stirs_trans (stirs loadHeater (by decide)) (stirs' loadHeater (by decide))

theorem afterHeater_rests (rests : u.HeaterRests) :
    (u.afterHeater.claim loadHeater).st = .held ∧ (u.afterHeater.claim loadHeater).rank = 0 := by
  obtain ⟨-, rests⟩ := (yieldOne_pad_letsRest u).trans (yieldOne_pump_letsRest _) ok rests
  rw [Claim.stirs_same (afterHeater_stirs ok) (by rw [rests.held]; decide)]
  exact ⟨rests.held, rests.last⟩

theorem afterHeater_calm (calm : u.water.demand = false) :
    (u.claim loadHeater).stirs (u.afterHeater.claim loadHeater) := by
  have pad := (yieldOne_within ok loadPad).2 loadHeater (by decide)
  have pump := yieldOne_pump_calm (yieldOne_withholds u loadPad ok).1 (by
    rw [yieldOne_water _ _ (by decide)]
    exact calm)
  exact Claim.stirs_trans pad (Claim.stirs_trans pump (afterHeater_stirs ok))

end

section
variable (o : s.Ok)
include o

/-- A Held heater claim is kept at rank 0, and the heater purges (R49, R117). -/
theorem heater_completes (order : s.heaterFits) (run : 1 ≤ Item.runDraw s.seq.values)
    (held : (s.claim loadHeater).st = .held) (yields : 7 ≤ (s.claim loadHeater).rank + l) :
    ((s.risesTo l).claim loadHeater).st = .held ∧ ((s.risesTo l).claim loadHeater).rank = 0 := by
  have ok : (s.setBroker { s.broker with level := l }).Ok := (setBroker_calm s { s.broker with level := l } (fun k => k) o).1
  rw [risesTo_eq]
  refine afterHeater_rests (yieldOne_withholds _ loadHeater ok).1 ?_
  have turn := yieldOne_held (s := s.setBroker { s.broker with level := l }) (id := loadHeater) yields held
  rw [turn]
  show (((s.setBroker { s.broker with level := l }).complete loadHeater).heaterYields).HeaterRests
  have ok := (complete_calm _ loadHeater ok).1
  have claim := complete_claim (s.setBroker { s.broker with level := l }) loadHeater
  have climate : ((s.setBroker { s.broker with level := l }).complete loadHeater).climate = s.climate := rfl
  have seq : ((s.setBroker { s.broker with level := l }).complete loadHeater).seq = s.seq := rfl
  generalize (s.setBroker { s.broker with level := l }).complete loadHeater = u at *
  have kept : (u.claim loadHeater).st = .held ∧ (u.claim loadHeater).rank = 0 := by
    rw [claim]
    exact ⟨rfl, rfl⟩
  have purges : u.enterPurging.HeaterRests := by
    obtain ⟨st, -, rank⟩ := enterPurging_held kept.1 ok (by rw [seq]; exact run)
    exact ⟨by rw [enterPurging_climate]; rfl, st, rank.trans kept.2⟩
  unfold State.heaterYields
  rw [climate]
  rcases order.held.mp held with st | st | st
  · rw [st]
    exact purges
  · rw [st]
    exact purges
  · rw [st]
    exact ⟨by rw [climate, st], kept.1, kept.2⟩

section
variable (contest : (s.claim loadHeater).st = .contest) (yields : 7 ≤ (s.claim loadHeater).rank + l)
  (calm : s.water.demand = false)
include contest yields calm

/-- A contest of the heater at its reason's rank waits (R40). -/
theorem heater_waits (single : (s.claim loadHeater).single = false) (rank : (s.claim loadHeater).rank = s.heaterRank) :
    (s.claim loadHeater).toWaiting.stirs ((s.risesTo l).claim loadHeater) := by
  have ok : (s.setBroker { s.broker with level := l }).Ok := (setBroker_calm s { s.broker with level := l } (fun k => k) o).1
  have turn := yieldOne_contest (s := s.setBroker { s.broker with level := l }) (id := loadHeater) yields contest
  have stirs := afterHeater_calm (yieldOne_withholds _ loadHeater ok).1
    (by rw [yieldOne_water _ _ (by decide)]; exact calm : _ = false)
  have own : (s.setBroker { s.broker with level := l }).claim loadHeater = s.claim loadHeater := rfl
  have lose : (s.claim loadHeater).lose = (s.claim loadHeater).toWaiting := by simp [Claim.lose, contest, single]
  have reply : (s.claim loadHeater).lossReply = .waits := by simp [Claim.lossReply, contest, single]
  have stays : ∀ v : State, (v.claim loadHeater).rank = v.heaterRank → v.lostToLevel loadHeater .waits = v := fun v e =>
    show v.heaterWaits = v from if_neg fun k => k.2 e
  rw [own, lose, reply] at turn
  rw [stays _ (by rw [claim_putClaim_self]; exact rank)] at turn
  rwa [turn, claim_putClaim_self, ← turn, ← risesTo_eq] at stirs

/-- A frost Try of the heater that ends is followed by a standing Ask at rank 1 (R111). -/
theorem heater_stands (order : s.heaterFits) (draw : 1 ≤ Item.startDraw s.seq.values ∧ Item.startDraw s.seq.values ≤ 30000)
    (run : s.inRun = true) (single : (s.claim loadHeater).single = true) (frost : s.climate.frost = true) :
    let d := (s.risesTo l).claim loadHeater
    d.rank = 1 ∧ d.single = false ∧ (d.st = .waiting ∨ d.st = .contest) := by
  have ok : (s.setBroker { s.broker with level := l }).Ok := (setBroker_calm s { s.broker with level := l } (fun k => k) o).1
  have turn := yieldOne_contest (s := s.setBroker { s.broker with level := l }) (id := loadHeater) yields contest
  have stirs := afterHeater_calm (yieldOne_withholds _ loadHeater ok).1
    (by rw [yieldOne_water _ _ (by decide)]; exact calm : _ = false)
  have own : (s.setBroker { s.broker with level := l }).claim loadHeater = s.claim loadHeater := rfl
  have lose : (s.claim loadHeater).lose = (s.claim loadHeater).toIdle := by simp [Claim.lose, contest, single]
  have reply : (s.claim loadHeater).lossReply = .lost := by simp [Claim.lossReply, single]
  have free : s.climate.lockout = false := by
    rw [← Bool.not_eq_true]
    intro locked
    have off := (order.asks (.inl contest)).1
    rcases order.lockout locked with h | h <;> rw [off] at h <;> cases h
  have told : ∀ v : State, v.climate.frost = true →
      v.lostToLevel loadHeater .lost = (v.setClimate { v.climate with tryFailed := true }).heaterStands := fun v frost => by
    show State.heaterStands (if v.climate.frost then _ else _) = _
    rw [if_pos frost]
  rw [own, lose, reply, told ((s.setBroker { s.broker with level := l }).putClaim loadHeater (s.claim loadHeater).toIdle) frost]
    at turn
  have ok := (putClaim_calm _ loadHeater (s.claim loadHeater).toIdle (Claim.toIdle_fits (o.claim loadHeater).1) ok).1
  have away : (((s.setBroker { s.broker with level := l }).putClaim loadHeater (s.claim loadHeater).toIdle).claim
      loadHeater).drawing = false := by
    rw [claim_putClaim_self]
    rfl
  have climate : ((s.setBroker { s.broker with level := l }).putClaim loadHeater (s.claim loadHeater).toIdle).climate
    = s.climate := rfl
  have seq : ((s.setBroker { s.broker with level := l }).putClaim loadHeater (s.claim loadHeater).toIdle).seq = s.seq := rfl
  generalize (s.setBroker { s.broker with level := l }).putClaim loadHeater (s.claim loadHeater).toIdle = v at *
  have wanted : (v.setClimate { v.climate with tryFailed := true }).heaterWanted = true := by
    have run' : v.inRun = true := by rw [State.inRun, seq]; exact run
    show ((v.climate.call || v.climate.frost) && !v.climate.lockout && v.inRun) = true
    rw [climate, frost, free, run', Bool.or_true]
    rfl
  obtain ⟨rank, standing, -, -, st⟩ := heaterStands_frost (s := v.setClimate { v.climate with tryFailed := true })
    (setClimate_calm v _ ok).1 wanted (by rw [← frost, ← climate]; rfl) (by rw [← seq] at draw; exact draw) away
  rw [risesTo_eq, turn]
  rw [turn] at stirs
  generalize (v.setClimate { v.climate with tryFailed := true }).heaterStands.claim loadHeater = c at *
  dsimp only
  rcases stirs with same | ⟨-, same | ⟨n, same⟩⟩
  · rw [same]
    refine ⟨rank, standing, ?_⟩
    rw [st]
    split
    · exact .inr rfl
    · exact .inl rfl
  · rw [same]
    exact ⟨rank, standing, .inl rfl⟩
  · rw [same]
    exact ⟨rank, standing, .inr rfl⟩

end
end
end

end Sys2Proof.Machine
end

