-- ==== Sys2Proof/Proofs/Sheds.lean ====
section
/-! PROOFS. A SHED that is taken, settled (R48 to R51, R144, R155). -/

namespace Sys2Proof.Machine

/-! ### A SHED that is taken (R48) -/

/-- The SHED's source stands in the Peer View. -/
theorem shedSource_any (s : State) (n : Nat) : s.entries.any (Entry.shedSource n)
    = s.entries.any fun e => e.kind == .supply && e.subject == 0 && e.station == n && e.fresh != .stale := by
  rw [Bool.eq_iff_iff, List.any_eq_true, List.any_eq_true]
  refine exists_congr fun e => and_congr_right fun m => ?_
  rw [Entry.shedSource, (mem_entries.mp m).1, Bool.true_and]

/-- The state in which the level follows a SHED: the record is taken from the queue, its level remembered. -/
def State.shedTaken (s : State) (n l : Nat) : State :=
  s.taken.setBroker { s.broker with remembered := s.broker.remembered.set (stationIx n) (min l 6) }

section
variable {s : State} {n k l c : Nat} (fits : s.Fits) (brings : s.brings n { subject := k, payload := .shed { level := l, cause := c } })
include fits

theorem shedTaken_sane : (s.shedTaken n l).Sane :=
  (setBroker_calm s.taken { s.broker with remembered := s.broker.remembered.set (stationIx n) (min l 6) } fun h => h).keeps (taken_keeps s fits.sound.sane)

include brings

theorem shedReceived_eq : exec .shedReceived s = .next (State.publish s
    (if (s.entries.any fun e => e.kind == .supply && e.subject == 0 && e.station == n && e.fresh != .stale) = true
      then (s.shedTaken n l).levelFollows else s.taken)) := by
  show done s (s.dispatch (fun r => r.kind == .shed) fun s station r => s.takeShed station r) = _
  rw [dispatch_brings brings rfl]
  have checked : s.taken.readAll (Entry.shedSource n) = s.taken := readAll_checked (s := s.taken) fits.sound.ok.checked _
  unfold State.takeShed
  dsimp only
  rw [checked, ← shedSource_any]
  rfl

end

/-! ### The level in force follows (R48, R51, R155) -/

theorem levelNow_eq (s : State) : s.levelNow = if s.seq.fns.supply = true then s.supply.latest.elim 0 (·.level)
    else s.peerUsable.elim 0 fun u => s.broker.remembered.get (stationIx u.station) := by
  unfold State.levelNow
  refine if_congr Iff.rfl ?_ ?_
  · cases s.supply.latest <;> rfl
  · cases s.peerUsable <;> rfl

/-- A level that does not rise has the lights restored and the Waiting claims tested again at most. -/
theorem levelFollows_falls {s : State} (o : s.Ok) (falls : ¬ s.broker.level < s.levelNow) :
    s.levelFollows.broker.level = s.levelNow ∧ (∀ n, s.levelFollows.broker.remembered.get n = s.broker.remembered.get n)
      ∧ ∀ j : Fin 7, j.val < 5 → (s.claim j).stirs (s.levelFollows.claim j) := by
  unfold State.levelFollows
  rw [readSupply_checked o.checked]
  dsimp only
  by_cases same : s.levelNow = s.broker.level
  · rw [if_pos same]
    exact ⟨same.symm, fun _ => rfl, fun _ _ => .inl rfl⟩
  rw [if_neg same, if_neg falls]
  have ok := (setBroker_calm s { s.broker with level := s.levelNow } (fun k => k) o).1
  have level : (s.setBroker { s.broker with level := s.levelNow }).broker.level = s.levelNow := rfl
  have remembered : (s.setBroker { s.broker with level := s.levelNow }).broker.remembered = s.broker.remembered := rfl
  have claims : ∀ j, (s.setBroker { s.broker with level := s.levelNow }).claim j = s.claim j := fun _ => rfl
  generalize s.setBroker { s.broker with level := s.levelNow } = u at *
  have lit := lightsReach_lit
  obtain ⟨n, w⟩ := waitWithin_exists u
  have tends : Tends lightsReach n u
      (if s.levelNow = 0 then (u.lightsRestored 0).lightsRestored 1 else u).ceilingFollows.retest :=
    (Tends.ite (fun _ => (lightsRestored_tends u 0).trans (lightsRestored_tends _ 1)) (fun _ => Tends.refl _ n u)).trans
      ((ceilingFollows_tends _).trans (retest_tends _))
  generalize (if s.levelNow = 0 then (u.lightsRestored 0).lightsRestored 1 else u).ceilingFollows.retest = v at tends ⊢
  obtain ⟨-, -, tended⟩ := tends ok w
  obtain ⟨levels, same⟩ := tended.levels
  refine ⟨((levels nofun).1).trans level, fun n => ((same n).elim id nofun).trans (by rw [remembered]), fun j low => ?_⟩
  rw [← claims]
  exact tended.claims j (show ¬ 5 ≤ j.val by omega)

theorem levelFollows_level {s : State} (o : s.Ok) : s.levelFollows.broker.level = s.levelNow
    ∧ ∀ n, s.levelFollows.broker.remembered.get n = s.broker.remembered.get n := by
  by_cases rises : s.broker.level < s.levelNow
  · rw [levelFollows_rises o rises]
    exact risesTo_level o _
  · obtain ⟨level, remembered, -⟩ := levelFollows_falls o rises
    exact ⟨level, remembered⟩

/-- A Forced claim stays whatever the level (R49). -/
theorem levelFollows_forced {s : State} (o : s.Ok) (forced : (s.claim loadPump).st = .forced) :
    s.levelFollows.claim loadPump = s.claim loadPump := by
  have not : (s.claim loadPump).st ≠ .waiting := by rw [forced]; decide
  by_cases rises : s.broker.level < s.levelNow
  · rw [levelFollows_rises o rises]
    obtain ⟨u, turn⟩ := risesTo_turn o s.levelNow (id := loadPump) (by decide)
    have own := turn.own not
    have stays : u.yieldOne loadPump = u := by
      rw [yieldOne_eq, own, forced]
      exact ite_self u
    have stirs := turn.after (by decide)
    rw [stays, own] at stirs
    exact Claim.stirs_same stirs not
  · exact Claim.stirs_same ((levelFollows_falls o rises).2.2 loadPump (by decide)) not

/-! ### What the order after a rise says of the lights -/

section
variable {t : State} (order : t.Order Part.whole)
include order

theorem State.Order.lights_held {id : Fin 7} (five : 5 ≤ id.val) (held : (t.claim id).st = .held) (high : 0 < t.broker.level) :
    (t.claim id).rank = 0 := by
  have bears : Claim.Bears t.broker.level id (t.claim id) := order.parts (.calm id) trivial
  have ranks := ((order.serves id).asks (by rw [held]; decide)).2.1
  have six : (t.claim id).rank = 0 ∨ (t.claim id).rank = 6 := by
    generalize (t.claim id).rank = r at ranks
    clear bears held order
    match id with
    | 5 => simpa [loadRanks] using ranks
    | 6 => simpa [loadRanks] using ranks
  have low := bears.held held
  omega

omit order in
theorem lights_not_pump (g : Fin 2) : loadLights g ≠ loadPump := by decide +revert

/-- Above the level 0 no light group contests; one that has not come to hold its claim is Idle with nothing pending. -/
theorem State.Order.lights_idle {g : Fin 2} (not : (t.claim (loadLights g)).st ≠ .held) (high : 0 < t.broker.level) :
    (t.claim (loadLights g)).st = .idle ∧ (t.group g).pending = none := by
  have five : 5 ≤ (loadLights g).val := loadLights_ge g
  have bears : Claim.Bears t.broker.level (loadLights g) (t.claim (loadLights g)) := order.parts (.calm _) trivial
  have serves := order.serves (loadLights g)
  have idle : (t.claim (loadLights g)).st = .idle := by
    cases st : (t.claim (loadLights g)).st with
    | idle => rfl
    | waiting => exact absurd st (serves.lit five).1
    | held => exact absurd st not
    | forced => exact absurd (serves.forced st) (lights_not_pump g)
    | contest =>
      have ranks := (serves.asks (by rw [st]; decide)).2.1
      have pos := serves.ranked (.inl st)
      have low := bears.contests (by simp [Claim.contesting, st])
      rw [askRank, if_neg fun k => absurd (k.1.symm.trans st) (by decide)] at low
      have six : (t.claim (loadLights g)).rank = 0 ∨ (t.claim (loadLights g)).rank = 6 := by
        generalize (t.claim (loadLights g)).rank = r at ranks
        match g with
        | 0 => simpa [loadRanks, loadLights] using ranks
        | 1 => simpa [loadRanks, loadLights] using ranks
      omega
  refine ⟨idle, ?_⟩
  have lights : t.LightsOrder := order.parts .lights trivial
  rw [← Option.not_isSome_iff_eq_none]
  exact fun some => (lights.groups g).asks some idle

end

theorem lights_place {id : Fin 7} (five : 5 ≤ id.val) :
    ∃ g, id = loadLights g ∧ (if id = loadLights 0 then (0 : Fin 2) else 1) = g := by
  decide +revert

/-- The ceiling by Storage and the level in force (R155). -/
theorem ceilingNow_eq (s : State) : s.ceilingNow = if s.seq.storage = true then 0 else if s.broker.level = 0 then 1000
    else if s.broker.level = 1 then 250 else 0 := by
  unfold State.ceilingNow
  refine if_congr Iff.rfl rfl ?_
  match s.broker.level with
  | 0 => rfl
  | 1 => rfl
  | n + 2 => rfl

theorem Chan.braked_still {c : Chan} (protective : c.protective = false) (backoff : c.backoff = none) (idle : c.idle = none) :
    c.braked .none 0 = { c with
      st := .braking, bridge := .short, pending := .none, followOn := .none, req := 0,
      travel := none, stall := none, dwell := some 300 } := by
  cases c
  dsimp only at protective backoff idle
  subst protective backoff idle
  rfl

section
variable {s t : State} (fits : s.Fits) (order : t.Order Part.whole) (n l : Nat)
  (rises : s.broker.level < (s.shedTaken n l).levelNow) (level : t.broker.level = (s.shedTaken n l).levelNow)
  (claim : ∀ id, t.claim id = ((s.shedTaken n l).risesTo t.broker.level).claim id)
  {id : Fin 7} (yields : 7 ≤ (s.claim id).rank + t.broker.level)
include fits rises level claim yields

theorem shed_held (held : (s.claim id).st = .held)
    (chans : ∀ ch, t.chan ch = ((s.shedTaken n l).risesTo t.broker.level).chan ch) :
    (id = loadPad ∨ id = loadPump → (t.claim id).st ≠ .held)
      ∧ (id = loadHeater → (t.claim id).st = .held ∧ (t.claim id).rank = 0)
      ∧ ∀ ch, id = loadMotor ch → let c := s.chan ch;
        (c.st = .extending → (t.claim id).st = .idle ∧ t.chan ch = { c with
            st := .braking, bridge := .short, pending := .none, followOn := .none, req := 0,
            travel := none, stall := none, dwell := some 300 })
          ∧ (c.st = .retracting ∨ c.st = .backoff ∨ c.followOn = .retract ∨ c.followOn = .backoff →
              (t.claim id).st = .held ∧ (t.claim id).rank = 0 ∧ (t.claim id).held = (s.claim id).held
                ∧ t.chan ch = c)
          ∧ (c.followOn = .extend → (t.claim id).st = .idle ∧ t.chan ch = c) := by
  have o : (s.shedTaken n l).Ok := (shedTaken_sane fits).ok
  rw [claim]
  refine ⟨fun load => ?_, fun e => ?_, fun ch e => ?_⟩
  · obtain ⟨u, turn⟩ := risesTo_turn o t.broker.level (id := id) (by rcases load with rfl | rfl <;> decide)
    exact turn.frees yields held load
  · subst e
    exact heater_completes (s := s.shedTaken n l) (l := t.broker.level) o (fits.heater.congr rfl rfl rfl) fits.values.heaterDraws.2.1 held yields
  · subst e
    obtain ⟨u, turn⟩ := risesTo_turn o t.broker.level (motor_low ch)
    have chan := fits.channel ch
    have brakes : (s.chan ch).followOn ≠ .none → (s.chan ch).st = .braking := chan.follows
    rw [chans]
    refine ⟨fun st => ?_, fun homes => turn.completes yields held ?_, fun follow =>
      turn.releases yields held (brakes (by rw [follow]; decide)) follow⟩
    · obtain ⟨idle, braked⟩ := turn.brakes yields held st
      refine ⟨idle, braked.trans ?_⟩
      have calm : (s.chan ch).protective = false ∧ (s.chan ch).backoff = none ∧ (s.chan ch).idle = none := by
        refine ⟨?_, ?_, ?_⟩
        · rw [← Bool.not_eq_true]
          exact fun on => absurd (st.symm.trans (chan.protective on)) (by decide)
        · rw [← Option.not_isSome_iff_eq_none]
          exact fun on => absurd (st.symm.trans (chan.backoff.mp on)) (by decide)
        · rw [← Option.not_isSome_iff_eq_none]
          exact fun on => absurd (chan.idle on).1 (by simp [Chan.atRest, st])
      exact Chan.braked_still calm.1 calm.2.1 calm.2.2
    · rcases homes with st | st | follow | follow
      · exact .inl st
      · exact .inr (.inl st)
      · exact .inr (.inr ⟨brakes (by rw [follow]; decide), .inl follow⟩)
      · exact .inr (.inr ⟨brakes (by rw [follow]; decide), .inr follow⟩)

include order

theorem shed_contest (contest : (s.claim id).st = .contest)
    (water : t.water = ((s.shedTaken n l).risesTo t.broker.level).water) :
    ((s.claim id).single = false → (id = loadHeater → (s.claim id).rank = s.heaterRank ∧ s.water.demand = false) →
        t.claim id = { s.claim id with st := .waiting, held := 0, raise := false, announcing := false, window := none })
      ∧ (5 ≤ id.val → (t.claim id).st = .idle ∧ (t.group (if id = loadLights 0 then 0 else 1)).pending = none)
      ∧ (id = loadPump → s.water.cycle = .asking → t.water.cycle = .timing ∧ t.water.owed = min 4 (s.water.owed + 1))
      ∧ (id = loadHeater → (s.claim id).single = true → s.climate.frost = true → s.water.demand = false →
          (t.claim id).st = .waiting ∧ (t.claim id).rank = 1 ∧ (t.claim id).single = false) := by
  have o : (s.shedTaken n l).Ok := (shedTaken_sane fits).ok
  have bears : Claim.Bears t.broker.level id (t.claim id) := order.parts (.calm id) trivial
  have high : 0 < t.broker.level := by omega
  refine ⟨fun single heater => bears.waits yields ?_, fun five => ?_, fun e asking => ?_, fun e single frost calm => ?_⟩
  · rw [claim]
    by_cases not : id = loadHeater
    · subst not
      obtain ⟨rank, calm⟩ := heater rfl
      exact heater_waits (s := s.shedTaken n l) (l := t.broker.level) o contest yields calm single rank
    · have low : id.val < 5 := by
        by_contra five
        exact absurd (((fits.serving id).lit (by omega)).2 contest) (by rw [single]; decide)
      obtain ⟨u, turn⟩ := risesTo_turn o t.broker.level low
      exact turn.waits yields contest single not
  · have away : (t.claim id).st ≠ .held := fun held => by
      rw [claim] at held
      have was := ((risesTo_withholds (s.shedTaken n l) t.broker.level) o).2.held id held
      exact absurd (contest.symm.trans was) (by decide)
    obtain ⟨g, rfl, place⟩ : ∃ g, id = loadLights g ∧ (if id = loadLights 0 then (0 : Fin 2) else 1) = g := lights_place five
    rw [place]
    exact order.lights_idle away high
  · subst e
    obtain ⟨u, turn⟩ := risesTo_turn o t.broker.level (id := loadPump) (by decide)
    have cycle : s.WaterOrder := (waterFits_iff s).mp fits.water
    have calm : s.water.demand = false := by
      rw [← Bool.not_eq_true]
      exact fun on => absurd (asking.symm.trans (cycle.demand.mp on)) (by decide)
    rw [water]
    exact turn.postpones yields contest (cycle.tries asking).2 asking calm
  · subst e
    have run : s.inRun = true := ((fits.serving loadHeater).asks (by rw [contest]; decide)).1.1
    obtain ⟨rank, standing, st⟩ := heater_stands (s := s.shedTaken n l) (l := t.broker.level) o contest yields calm (fits.heater.congr rfl rfl rfl)
      fits.values.heaterDraws.1 run single frost
    rw [← claim] at rank standing st
    refine ⟨st.resolve_right fun k => ?_, rank, standing⟩
    have low := bears.contests (by simp [Claim.contesting, k])
    rw [askRank, if_neg fun e => absurd (e.1.symm.trans k) (by decide), rank] at low
    have first := (fits.heater.single contest single)
    omega

end

end Sys2Proof.Machine

namespace Sys2Proof.Proofs
open Sys2Proof.Machine

/-- Settles O45: the level's rise is followed load by load, and the order after it says the rest. -/
theorem shedReceived : Obligations.ShedReceived := by
  intro s n k l c fits brings
  refine ⟨_, shedReceived_eq fits brings, ?_⟩
  obtain ⟨order, -⟩ := exec_lands fits .shedReceived _ (shedReceived_eq fits brings)
  generalize (s.entries.any fun e => e.kind == .supply && e.subject == 0 && e.station == n && e.fresh != .stale) = source at order ⊢
  refine ⟨fun e => ?_, fun e => ?_⟩
  · rw [e]
    exact publish_handedOver s s.taken fits.sound.quiet.1
  rw [if_pos e] at order ⊢
  have sane := shedTaken_sane (n := n) (l := l) fits
  have o := sane.ok
  obtain ⟨-, base, -⟩ := levelFollows_steady _ o
  obtain ⟨level, remembered⟩ := levelFollows_level o
  have forced := levelFollows_forced o
  have followed := levelFollows_rises o
  have hand := publish_handedOver s (s.shedTaken n l).levelFollows (by rw [base.view]; exact fits.sound.quiet.1)
  generalize (s.shedTaken n l).levelFollows = v at *
  generalize State.publish s v = t at hand order ⊢
  have level : t.broker.level = (s.shedTaken n l).levelNow := by rw [hand.broker, level]
  have kept : t.broker.remembered = s.broker.remembered.set (stationIx n) (min l 6) := by
    rw [hand.broker]
    exact Tab.ext_get remembered
  refine ⟨hand.view.trans base.view, hand.pins.trans base.pins, hand.supply.trans base.supply, hand.seq.trans base.seq, kept,
    ?_, ?_, fun id => ⟨?_, fun f => ?_, fun held rises yields => ?_, fun contest rises yields => ?_⟩⟩
  · rw [level, levelNow_eq, kept]
    rfl
  · have ceiling : t.lights.ceiling = t.ceilingNow := order.parts .ceiling trivial
    rw [ceiling, ceilingNow_eq, hand.seq, base.seq]
    rfl
  · exact fun held => (Claim.Bears.held (order.parts (.calm id) trivial) held)
  · have pump := (fits.serving id).forced f
    subst pump
    rw [hand.claim]
    exact forced f
  · have eq := followed (by rw [← level]; exact rises)
    obtain ⟨frees, heater, motor⟩ := shed_held fits n l (by rw [← level]; exact rises) level
      (fun id => by rw [hand.claim, eq, level]) yields held (fun ch => by rw [hand.chan, eq, level])
    exact ⟨frees, heater, fun five held => order.lights_held five held (by omega), motor⟩
  · have eq := followed (by rw [← level]; exact rises)
    exact shed_contest fits order n l (by rw [← level]; exact rises) level (fun id => by rw [hand.claim, eq, level]) yields contest
      (by rw [hand.water, eq, level])

end Sys2Proof.Proofs
end

