-- ==== Sys2Proof/Proofs/FullLanes.lean ====
section
/-! PROOFS. What a full lane keeps (R171). -/

namespace Sys2Proof.Machine

/-! ### What a full lane keeps (R171)

A lane gives up its oldest class-3 record first: while at most seven of the others wait, these are safe. -/

/-- How many records of the periodic lane are not of class 3. -/
def Bus.firm (b : Bus) : Nat := b.periodic.countP fun w => w.cls != 3

theorem Bus.firm_le_length (b : Bus) : b.firm ≤ b.periodic.length := List.countP_le_length

theorem Bus.build_sublist (now : Nat) (b : Bus) : (b.build now).periodic.Sublist b.periodic := by
  rw [Bus.build_eq]
  split
  · exact List.Sublist.refl _
  · have urgent := (Bus.buildUrgent_normal b).2
    rw [← urgent]
    generalize b.buildUrgent = c
    have normal : ∀ n, (c.buildNormal n).periodic.Sublist c.periodic := fun n => takeOut_sublist n 4 c.periodic
    unfold Bus.buildRest
    split
    · exact List.Sublist.refl _
    · split
      · exact normal 1
      · split
        · exact normal 2
        · split
          · exact normal 3
          · exact List.Sublist.refl _

theorem Bus.build_firm (now : Nat) (b : Bus) : (b.build now).firm ≤ b.firm := (Bus.build_sublist now b).countP_le

theorem coalesce_countP (t : Tagged) (l : List Waiting) :
    (coalesce t l).countP (fun w => w.cls != 3) = l.countP fun w => w.cls != 3 := by
  unfold coalesce
  rw [List.countP_map]
  refine List.countP_congr fun w _ => ?_
  dsimp only [Function.comp]
  split
  · next same =>
    have kind : w.item.record.kind = t.record.kind := by
      simp only [Waiting.sameKey, Bool.and_eq_true, beq_iff_eq] at same
      exact same.1
    rw [show Waiting.cls { w with item := t } = w.cls from congrArg Kind.cls kind.symm]
  · rfl

theorem full_has_soft {b : Bus} (full : ¬ b.periodic.length < 8) (room : b.firm ≤ 7) :
    b.periodic.any (fun w => w.cls == 3) = true := by
  by_contra none
  have all : b.firm = b.periodic.length := List.countP_eq_length.mpr fun w m => by
    simp only [Bool.not_eq_true, List.any_eq_false] at none
    simpa using none w m
  omega

section
variable {b : Bus} {r : Record} (now tag : Nat)

/-- What becomes of the lane when a record of its joins. -/
theorem Bus.join_lane (c : r.kind.cls ≠ 0) (room : b.firm ≤ 7) :
    (b.join now ⟨r, tag⟩).periodic = if b.periodic.any (Waiting.sameKey r) then coalesce ⟨r, tag⟩ b.periodic
      else if b.periodic.length < 8 then b.periodic ++ [⟨⟨r, tag⟩, now, false⟩]
      else dropOldest (fun w => w.cls == 3) b.periodic ++ [⟨⟨r, tag⟩, now, false⟩] := by
  unfold Bus.join
  rw [if_neg c]
  split
  · rfl
  · split
    · next room => rw [if_pos (show b.periodic.length < 8 from room)]
    · next full =>
      rw [if_neg (show ¬ b.periodic.length < 8 from full), Bus.joinFullPeriodic, if_pos (full_has_soft full room)]

theorem Bus.join_normalBuf (t : Tagged) : (b.join now t).normalBuf = b.normalBuf := by
  unfold Bus.join Bus.joinFullPeriodic
  split
  · split
    · rfl
    · split <;> rfl
  · split
    · rfl
    · split
      · rfl
      · split
        · rfl
        · split <;> rfl

theorem dropOldest_countP (l : List Waiting) :
    (dropOldest (fun w => w.cls == 3) l).countP (fun w => w.cls != 3) = l.countP fun w => w.cls != 3 := by
  unfold dropOldest
  induction l with
  | nil => rfl
  | cons w l ih =>
    by_cases soft : w.cls = 3
    · simp [soft]
    · simp [soft, ih]

theorem Bus.join_firm (room : b.firm ≤ 7) :
    (b.join now ⟨r, tag⟩).firm ≤ b.firm + (if r.kind.cls = 0 ∨ r.kind.cls = 3 then 0 else 1) := by
  by_cases c : r.kind.cls = 0
  · have same := Bus.join_urgent_length (b := b) now tag c
    rw [Bus.firm, same]
    exact Nat.le_add_right _ _
  have one : List.countP (fun w : Waiting => w.cls != 3) [⟨⟨r, tag⟩, now, false⟩]
      = if r.kind.cls = 0 ∨ r.kind.cls = 3 then 0 else 1 := by
    by_cases soft : r.kind.cls = 3
    · simp [Waiting.cls, soft]
    · simp [Waiting.cls, soft, c]
  rw [Bus.firm, Bus.join_lane now tag c room]
  split
  · rw [coalesce_countP]
    exact Nat.le_add_right _ _
  · split
    · rw [List.countP_append, one]
      exact le_rfl
    · rw [List.countP_append, dropOldest_countP, one]
      exact le_rfl

theorem Bus.join_holds_firm (c : r.kind.cls ≠ 0) (room : b.firm ≤ 7) : (b.join now ⟨r, tag⟩).holds r := by
  left
  rw [Bus.join_lane now tag c room]
  split
  · next any =>
    obtain ⟨w, m, e⟩ := mem_coalesce_self (t := ⟨r, tag⟩) any
    exact ⟨w, m, congrArg Tagged.record e⟩
  · split <;> exact ⟨⟨⟨r, tag⟩, now, false⟩, by simp, rfl⟩

theorem Bus.join_holds_other_firm {q : Record} (room : b.firm ≤ 7) (k : q.kind ≠ r.kind ∨ q.subject ≠ r.subject)
    (firm : q.kind.cls ≠ 3) (h : b.holds q) : (b.join now ⟨r, tag⟩).holds q := by
  by_cases c : r.kind.cls = 0
  · exact Bus.join_holds_other now tag (.inl c) k h
  have other : ∀ w : Waiting, w.item.record = q → w.sameKey r = false := fun w e => by
    unfold Waiting.sameKey
    rw [e]
    rcases k with k | k <;> simp [k]
  unfold Bus.holds
  rw [Bus.join_normalBuf, Bus.join_lane now tag c room]
  refine h.imp_left fun ⟨w, m, e⟩ => ⟨w, ?_, e⟩
  split
  · exact mem_coalesce_other m (other w e)
  · split
    · exact List.mem_append_left _ m
    · refine List.mem_append_left _ ((List.mem_eraseP_of_neg ?_).mpr m)
      simp only [beq_iff_eq]
      rw [Waiting.cls, e]
      exact firm

end

section
variable {s : State} {r : Record} (tag : Nat) (room : s.bus.firm ≤ 7)
include room

theorem hand_firm : (s.hand r tag).bus.firm ≤ s.bus.firm + (if r.kind.cls = 0 ∨ r.kind.cls = 3 then 0 else 1) :=
  (Bus.build_firm s.now _).trans (Bus.join_firm s.now tag room)

theorem hand_holds_firm (c : r.kind.cls ≠ 0) : (s.hand r tag).bus.holds r :=
  Bus.build_holds s.now (Bus.join_holds_firm s.now tag c room)

theorem hand_holds_other_firm {q : Record} (k : q.kind ≠ r.kind ∨ q.subject ≠ r.subject) (firm : q.kind.cls ≠ 3)
    (h : s.bus.holds q) : (s.hand r tag).bus.holds q :=
  Bus.build_holds s.now (Bus.join_holds_other_firm s.now tag room k firm h)

end

/-! ### A list of offers -/

/-- How many records of the list are neither urgent nor of class 3. -/
def firmCount (l : List Offer) : Nat := l.countP fun o => o.record.kind.cls != 0 && o.record.kind.cls != 3

theorem firmCount_cons (o : Offer) (l : List Offer) :
    firmCount (o :: l) = firmCount l + (if o.record.kind.cls = 0 ∨ o.record.kind.cls = 3 then 0 else 1) := by
  unfold firmCount
  rw [List.countP_cons]
  by_cases zero : o.record.kind.cls = 0
  · simp [zero]
  · by_cases three : o.record.kind.cls = 3
    · simp [three]
    · simp [zero, three]

theorem firmCount_append (l k : List Offer) : firmCount (l ++ k) = firmCount l + firmCount k := List.countP_append

section
variable {l : List Offer} {s : State}

theorem takes_firm (room : s.bus.firm + firmCount l ≤ 7) : (l.foldl State.take s).bus.firm ≤ s.bus.firm + firmCount l := by
  induction l generalizing s with
  | nil => exact Nat.le_add_right _ _
  | cons o l ih =>
    rw [firmCount_cons] at room ⊢
    have one := hand_firm (r := o.record) 0 (show s.bus.firm ≤ 7 by omega)
    have rest := ih (s := s.take o) (by show (s.hand o.record 0).bus.firm + _ ≤ 7; omega)
    exact rest.trans (by show (s.hand o.record 0).bus.firm + _ ≤ _; omega)

/-- A record of class 1 or 2 stays held while no more than seven of its like come to wait. -/
theorem takes_holds_firm {q : Record} (room : s.bus.firm + firmCount l ≤ 7)
    (other : ∀ o ∈ l, q.kind ≠ o.record.kind ∨ q.subject ≠ o.record.subject) (firm : q.kind.cls ≠ 3) (h : s.bus.holds q) :
    (l.foldl State.take s).bus.holds q := by
  induction l generalizing s with
  | nil => exact h
  | cons o l ih =>
    rw [firmCount_cons] at room
    have one := hand_firm (r := o.record) 0 (show s.bus.firm ≤ 7 by omega)
    exact ih (s := s.take o) (by show (s.hand o.record 0).bus.firm + _ ≤ 7; omega)
      (fun p m => other p (List.mem_cons_of_mem _ m))
      (hand_holds_other_firm 0 (by omega) (other o List.mem_cons_self) firm h)

/-- A record of class 1 or 2 handed over among others. -/
theorem offers_hold_firm {k : List Offer} {o : Offer} (c : o.record.kind.cls ≠ 0) (firm : o.record.kind.cls ≠ 3)
    (room : s.bus.firm + firmCount (l ++ o :: k) ≤ 7)
    (other : ∀ p ∈ k, o.record.kind ≠ p.record.kind ∨ o.record.subject ≠ p.record.subject) :
    ((l ++ o :: k).foldl State.take s).bus.holds o.record := by
  rw [firmCount_append, firmCount_cons] at room
  rw [List.foldl_append, List.foldl_cons]
  have before := takes_firm (l := l) (s := s) (by omega)
  have one := hand_firm (s := l.foldl State.take s) (r := o.record) 0 (by omega)
  refine takes_holds_firm ?_ other firm (hand_holds_firm 0 (by omega) c)
  show ((l.foldl State.take s).hand o.record 0).bus.firm + _ ≤ 7
  omega

end

/-! ### The urgent lane -/

/-- The record waits in the urgent lane or stands in the urgent buffer. -/
def Bus.urges (b : Bus) (q : Record) : Prop :=
  (∃ w ∈ b.urgent, w.item.record = q) ∨ ∃ f, b.urgentBuf = some f ∧ ∃ x ∈ f.records, x.record = q

theorem Bus.urges.carries {b : Bus} {q : Record} (h : b.urges q) : b.carries q :=
  h.imp (fun ⟨w, m, e⟩ => ⟨w, List.mem_append_right _ m, e⟩) fun ⟨f, m, x⟩ => ⟨f, .inl m, x⟩

theorem Bus.build_urges {b : Bus} {q : Record} (now : Nat) (h : b.urges q) : (b.build now).urges q := by
  have rest : ∀ b : Bus, (b.buildRest now).urgent = b.urgent ∧ (b.buildRest now).urgentBuf = b.urgentBuf := fun b => by
    unfold Bus.buildRest
    split
    · exact ⟨rfl, rfl⟩
    · split
      · exact ⟨rfl, rfl⟩
      · split
        · exact ⟨rfl, rfl⟩
        · split <;> exact ⟨rfl, rfl⟩
  rw [Bus.build_eq]
  split
  · exact h
  · unfold Bus.urges
    rw [(rest _).1, (rest _).2]
    unfold Bus.buildUrgent
    split
    · next empty =>
      rcases h with ⟨w, m, e⟩ | ⟨f, m, -⟩
      · rw [← List.take_append_drop 4 b.urgent, List.mem_append] at m
        exact m.symm.imp (fun m => ⟨w, m, e⟩) fun m => ⟨_, rfl, w.item, List.mem_map_of_mem m, e⟩
      · rw [m] at empty
        cases empty
    · exact h

theorem hand_urges {s : State} {r : Record} (tag : Nat) (c : r.kind.cls = 0) : (s.hand r tag).bus.urges r := by
  refine Bus.build_urges s.now (.inl ?_)
  unfold Bus.join
  rw [if_pos c]
  split
  · next any =>
    obtain ⟨w, m, e⟩ := mem_coalesce_self (t := ⟨r, tag⟩) any
    exact ⟨w, m, congrArg Tagged.record e⟩
  · split <;> exact ⟨⟨⟨r, tag⟩, s.now, false⟩, by simp, rfl⟩

theorem hand_urges_other {s : State} {r q : Record} (tag : Nat) (c : r.kind.cls ≠ 0) (h : s.bus.urges q) :
    (s.hand r tag).bus.urges q := by
  refine Bus.build_urges s.now ?_
  have same : (s.bus.join s.now ⟨r, tag⟩).urgent = s.bus.urgent
      ∧ (s.bus.join s.now ⟨r, tag⟩).urgentBuf = s.bus.urgentBuf := by
    unfold Bus.join Bus.joinFullPeriodic
    rw [if_neg c]
    split
    · exact ⟨rfl, rfl⟩
    · split
      · exact ⟨rfl, rfl⟩
      · split
        · exact ⟨rfl, rfl⟩
        · split <;> exact ⟨rfl, rfl⟩
  unfold Bus.urges
  rw [same.1, same.2]
  exact h

theorem takes_urges {l : List Offer} {s : State} {q : Record} (away : ∀ o ∈ l, o.record.kind.cls ≠ 0) (h : s.bus.urges q) :
    (l.foldl State.take s).bus.urges q := by
  induction l generalizing s with
  | nil => exact h
  | cons o l ih =>
    exact ih (s := s.take o) (fun p m => away p (List.mem_cons_of_mem _ m))
      (hand_urges_other 0 (away o List.mem_cons_self) h)

end Sys2Proof.Machine
end

