-- ==== Sys2Proof/Proofs/IntervalStages.lean ====
section
/-! PROOFS. The stages of an interval as updates of the Supply Monitor (R4 to R9, R16 to R23). -/

namespace Sys2Proof.Machine

/-! ### The stages of an interval, as updates of the Supply Monitor (R4, R8, R9, R13 to R17, R20 to R23) -/

/-- A count goes up by one while its condition holds and falls short of its limit, and is 0 otherwise. -/
def counting (limit : Nat) (holds : Bool) (count : Nat) : Nat := if holds = true ∧ count + 1 < limit then count + 1 else 0

theorem countTo_eq (limit : Nat) (holds : Bool) (count : Nat) :
    countTo limit holds count = (counting limit holds count, holds && decide (limit ≤ count + 1)) := by
  unfold countTo counting
  cases holds with
  | false => simp
  | true =>
    by_cases done : limit ≤ count + 1
    · simp [done]
    · simp [done, Nat.lt_of_not_le done]

section
variable (u : Supply) (v : Values)

theorem overrangeReads_eq (raw : Int) : u.overrangeReads raw = { u with
    overrange := if u.overrange = true then !(!beyondRange raw && decide (10 ≤ u.overrangeCount + 1)) else beyondRange raw
    overrangeCount := counting 10 (u.overrange && !beyondRange raw) u.overrangeCount } := by
  unfold Supply.overrangeReads
  cases u.overrange with
  | false => simp [counting]
  | true => simp [countTo_eq]

/-- The condition that Low Voltage counts. -/
def Supply.lowNow (u : Supply) (v : Values) (volts : Int) : Bool :=
  if u.lowVoltage = true then decide ((Item.vcut v : Int) + 300 ≤ volts) else decide (volts < Item.vcut v)

theorem lowVoltageReads_eq (volts : Int) : u.lowVoltageReads v volts = { u with
    lowVoltage := if u.lowVoltage = true then !(u.lowNow v volts && decide (50 ≤ u.lowVoltageCount + 1))
      else u.lowNow v volts && decide (5 ≤ u.lowVoltageCount + 1)
    lowVoltageCount := counting (if u.lowVoltage = true then 50 else 5) (u.lowNow v volts) u.lowVoltageCount } := by
  unfold Supply.lowVoltageReads Supply.lowNow
  cases low : u.lowVoltage with
  | false => simp [countTo_eq]
  | true => simp [countTo_eq]

/-- The permit after an interval at a temperature. -/
def Supply.permitNow (u : Supply) (v : Values) (temp : Int) : Bool :=
  if Item.lithium v = true then (if u.permit = true then decide (0 ≤ temp) else decide (20 ≤ temp) && decide (50 ≤ u.permitCount + 1))
  else true

theorem permitReads_eq (temp : Int) : u.permitReads v temp = { u with
    permit := u.permitNow v temp
    permitCount := counting 50 (Item.lithium v && !u.permit && decide (20 ≤ temp)) u.permitCount
    chginh := !u.permitNow v temp } := by
  unfold Supply.permitReads Supply.permitNow
  cases Item.lithium v with
  | false => simp [counting]
  | true =>
    cases u.permit with
    | false => simp [countTo_eq]
    | true =>
      by_cases cold : temp < 0
      · simp [counting, cold]
      · simp [counting, cold, Int.not_lt.mp cold]

/-- The sum of Step 1, before it is clamped (R8). -/
def Supply.sum (u : Supply) (v : Values) (i : Int) : Int := (u.q : Int) + (increment (Item.efficiency v) u.r i).1

theorem countCharge_eq (i : Int) : u.countCharge v i = { u with
    q := (max 0 (min (u.sum v i) (qFull v))).toNat
    r := (increment (Item.efficiency v) u.r i).2
    full := decide ((qFull v : Int) < u.sum v i) || (u.full && decide ((qFull v : Int) ≤ u.sum v i))
    empty := decide (u.sum v i < 0) || (u.empty && decide (u.sum v i ≤ 0)) } := by
  unfold Supply.countCharge
  dsimp only
  rw [show (u.q : Int) + (increment (Item.efficiency v) u.r i).1 = u.sum v i from rfl]
  have pos : (0 : Int) ≤ qFull v := Int.natCast_nonneg _
  generalize qFull v = full at *
  generalize u.sum v i = sum at *
  by_cases high : (full : Int) < sum
  · rw [if_pos high, min_eq_right high.le, max_eq_right pos]
    simp [high, show ¬ sum < 0 by omega, show ¬ sum ≤ 0 by omega]
  · rw [if_neg high]
    by_cases low : sum < 0
    · rw [if_pos low, min_eq_left (by omega), max_eq_left low.le]
      simp [low, high, show ¬ (full : Int) ≤ sum by omega]
    · rw [if_neg low, min_eq_left (by omega), max_eq_right (by omega)]
      have one : (full ≤ sum.toNat) = ((full : Int) ≤ sum) := by apply propext; omega
      have two : (sum.toNat = 0) = (sum ≤ 0) := by apply propext; omega
      simp [low, high, one, two]

/-- Excess discharge (R17). -/
def Supply.strained (u : Supply) (v : Values) (i temp : Int) : Bool :=
  let excess := decide (((u.headroomNow v temp + Item.baseLoad v : Nat) : Int) < -i)
  if u.overdraw = true then !excess else excess

theorem overdrawReads_eq (i temp : Int) : u.overdrawReads v i temp = { u with
    overdraw := if u.overdraw = true then !(u.strained v i temp && decide (30 ≤ u.overdrawCount + 1))
      else u.strained v i temp && decide (10 ≤ u.overdrawCount + 1)
    overdrawCount := counting (if u.overdraw = true then 30 else 10) (u.strained v i temp) u.overdrawCount } := by
  unfold Supply.overdrawReads Supply.strained
  cases u.overdraw with
  | false => simp [countTo_eq]
  | true => simp [countTo_eq]

/-- The level after an interval, where Overdraw or Low Voltage has become declared in it, or not (R22, R23). -/
def Supply.levelNext (u : Supply) (declared : Bool) : Nat :=
  if declared = true then min 6 (u.level + 1)
  else if u.overdraw = true ∨ u.lowVoltage = true then (if 10 ≤ u.escalation + 1 then min 6 (u.level + 1) else u.level)
  else if 100 ≤ u.recovery + 1 then u.level - 1 else u.level

theorem levelReads_eq (declared : Bool) : u.levelReads declared = { u with
    level := u.levelNext declared
    escalation := if declared = true then 0
      else if u.overdraw = true ∨ u.lowVoltage = true then counting 10 true u.escalation else u.escalation
    recovery := if declared = true ∨ u.overdraw = true ∨ u.lowVoltage = true then 0
      else counting 100 (decide (0 < u.level)) u.recovery } := by
  unfold Supply.levelReads Supply.levelNext
  cases declared with
  | true => simp
  | false =>
    cases strain : u.overdraw || u.lowVoltage with
    | true =>
      have or : u.overdraw = true ∨ u.lowVoltage = true := by simpa using strain
      simp [countTo_eq, or]
    | false =>
      have or : ¬ (u.overdraw = true ∨ u.lowVoltage = true) := by simpa using strain
      by_cases pos : 0 < u.level
      · simp [countTo_eq, or, pos]
      · have zero : u.level = 0 := by omega
        simp [counting, or, zero]

end

end Sys2Proof.Machine
end

