-- ==== Sys2Proof/Proofs/OpenCircuit.lean ====
section
/-! PROOFS. The open-circuit table (R6, R14). -/

namespace Sys2Proof.Machine

/-! ### The open-circuit table (R6, R14) -/

/-- Part of the way between two values goes below neither. -/
theorem between_ge {a b n d : Int} (hn : 0 ≤ n) (nd : n ≤ d) (hd : 0 < d) : min a b ≤ a + ((b - a) * n).tdiv d := by
  have mirrored := between_le (a := -a) (b := -b) hn nd hd
  have neg : (-b - -a) * n = -((b - a) * n) := by rw [← Int.neg_mul]; congr 1; omega
  rw [neg, Int.neg_tdiv] at mirrored
  omega

/-- Segments whose upper point is reached are passed over. -/
theorem ocvSegments_skip {volts : Int} (pre : List (Nat × Nat)) (a : Nat × Nat) (rest : List (Nat × Nat))
    (reached : ∀ p ∈ pre ++ [a], (p.1 : Int) ≤ volts) : ocvSegments volts (pre ++ a :: rest) = ocvSegments volts (a :: rest) := by
  induction pre with
  | nil => rfl
  | cons x pre ih =>
    have rest_reached : ∀ p ∈ pre ++ [a], (p.1 : Int) ≤ volts := fun p m => reached p (List.mem_cons_of_mem _ m)
    rw [← ih rest_reached]
    cases pre with
    | nil =>
      have high := rest_reached a (by simp)
      exact if_neg (by omega)
    | cons y pre =>
      have high := rest_reached y (by simp)
      exact if_neg (by omega)

theorem ocvSegments_within {volts : Int} {a b : Nat × Nat} (rest : List (Nat × Nat)) (low : (a.1 : Int) ≤ volts)
    (high : volts < b.1) : (ocvSegments volts (a :: b :: rest) : Int)
      = a.2 + (((b.2 : Int) - a.2) * (volts - a.1)).tdiv ((b.1 : Int) - a.1) := by
  have bound := between_ge (a := a.2) (b := b.2) (n := volts - a.1) (d := (b.1 : Int) - a.1) (by omega) (by omega) (by omega)
  unfold ocvSegments
  rw [if_pos high]
  exact Int.toNat_of_nonneg (by omega)

/-- The millivolts and the per mille of a point. -/
def ocvVolts (v : Values) (k : Fin 8) : Nat := v.get ⟨10 + k.val, by omega⟩ / 65536

def ocvMille (v : Values) (k : Fin 8) : Nat := v.get ⟨10 + k.val, by omega⟩ % 65536

def ocvPoint (v : Values) (k : Fin 8) : Nat × Nat := (ocvVolts v k, ocvMille v k)

theorem octPoints_eq (v : Values) : Item.octPoints v = [0, 1, 2, 3, 4, 5, 6, 7].map (ocvPoint v) := rfl

theorem ocv_ascends {v : Values} (fit : v.fit) {j k : Fin 8} (le : j ≤ k) : ocvVolts v j ≤ ocvVolts v k := by
  obtain ⟨h0, h1, h2, h3, h4, h5, h6⟩ := (tableAscends_iff v).mp fit.2.2
  have next : ∀ k : Fin 7, ocvVolts v k.castSucc ≤ ocvVolts v k.succ := fun k => by
    match k with
    | 0 => exact h0.le
    | 1 => exact h1.le
    | 2 => exact h2.le
    | 3 => exact h3.le
    | 4 => exact h4.le
    | 5 => exact h5.le
    | 6 => exact h6.le
  exact Fin.monotone_iff_le_succ.mpr next le

theorem ocvSegments_from {v : Values} (fit : v.fit) {volts : Int} {pre post : List (Fin 8)} {k : Fin 8}
    (before : ∀ j ∈ pre, j ≤ k) (low : (ocvVolts v k : Int) ≤ volts) :
    ocvSegments volts ((pre ++ k :: post).map (ocvPoint v)) = ocvSegments volts ((k :: post).map (ocvPoint v)) := by
  rw [List.map_append]
  refine ocvSegments_skip (pre.map (ocvPoint v)) (ocvPoint v k) (post.map (ocvPoint v)) fun p m => ?_
  have within : ∃ j, j ≤ k ∧ ocvPoint v j = p := by
    simp only [List.mem_append, List.mem_map, List.mem_singleton] at m
    rcases m with ⟨j, m, e⟩ | e
    · exact ⟨j, before j m, e⟩
    · exact ⟨k, le_rfl, e.symm⟩
  obtain ⟨j, le, rfl⟩ := within
  have := ocv_ascends fit le
  show (ocvVolts v j : Int) ≤ volts
  omega

theorem points_split (k : Fin 7) : ∃ pre post, ([0, 1, 2, 3, 4, 5, 6, 7] : List (Fin 8)) = pre ++ k.castSucc :: k.succ :: post
    ∧ ∀ j ∈ pre, j ≤ k.castSucc := by
  match k with
  | 0 => exact ⟨[], [2, 3, 4, 5, 6, 7], rfl, by decide⟩
  | 1 => exact ⟨[0], [3, 4, 5, 6, 7], rfl, by decide⟩
  | 2 => exact ⟨[0, 1], [4, 5, 6, 7], rfl, by decide⟩
  | 3 => exact ⟨[0, 1, 2], [5, 6, 7], rfl, by decide⟩
  | 4 => exact ⟨[0, 1, 2, 3], [6, 7], rfl, by decide⟩
  | 5 => exact ⟨[0, 1, 2, 3, 4], [7], rfl, by decide⟩
  | 6 => exact ⟨[0, 1, 2, 3, 4, 5], [], rfl, by decide⟩

section
variable (v : Values) (volts : Int)

theorem ocvCharge_eq : ocvCharge v volts = if volts ≤ ocvVolts v 0 then ocvMille v 0
    else ocvSegments volts ([0, 1, 2, 3, 4, 5, 6, 7].map (ocvPoint v)) := rfl

theorem ocvCharge_low (low : volts ≤ ocvVolts v 0) : ocvCharge v volts = ocvMille v 0 := by
  rw [ocvCharge_eq, if_pos low]

variable {v volts} (fit : v.fit)
include fit

theorem ocvCharge_high (high : (ocvVolts v 7 : Int) ≤ volts) : ocvCharge v volts = ocvMille v 7 := by
  have above : ¬ volts ≤ ocvVolts v 0 := by
    obtain ⟨h0, -⟩ := (tableAscends_iff v).mp fit.2.2
    have first : ocvVolts v 0 < ocvVolts v 1 := h0
    have rest := ocv_ascends fit (j := 1) (k := 7) (by decide)
    omega
  rw [ocvCharge_eq, if_neg above]
  exact ocvSegments_from fit (pre := [0, 1, 2, 3, 4, 5, 6]) (post := []) (k := 7) (by decide) high

theorem ocvCharge_between (k : Fin 7) (low : (ocvVolts v k.castSucc : Int) ≤ volts) (high : volts < ocvVolts v k.succ) :
    (ocvCharge v volts : Int) = ocvMille v k.castSucc
      + (((ocvMille v k.succ : Int) - ocvMille v k.castSucc) * (volts - ocvVolts v k.castSucc)).tdiv
        ((ocvVolts v k.succ : Int) - ocvVolts v k.castSucc) := by
  by_cases first : volts ≤ ocvVolts v 0
  · have at_first : (ocvVolts v k.castSucc : Int) = volts := by
      have := ocv_ascends fit (j := 0) (k := k.castSucc) (Fin.zero_le _)
      omega
    have zero : k = 0 := by
      by_contra not
      obtain ⟨h0, -⟩ := (tableAscends_iff v).mp fit.2.2
      have one : ocvVolts v 0 < ocvVolts v 1 := h0
      have rest := ocv_ascends fit (j := 1) (k := k.castSucc) (by
        rw [Fin.le_def]
        have : k.val ≠ 0 := fun e => not (Fin.ext e)
        show 1 ≤ k.val
        omega)
      omega
    subst zero
    rw [ocvCharge_low v volts first, at_first]
    simp
  · obtain ⟨pre, post, split, before⟩ := points_split k
    rw [ocvCharge_eq, if_neg first, split, ocvSegments_from fit before low]
    exact ocvSegments_within _ low high

end

end Sys2Proof.Machine
end

