-- ==== Sys2Proof/Proofs/IntervalFigures.lean ====
section
/-! PROOFS. The counter, the anchors and the figures of an interval (R2 to R25). -/

namespace Sys2Proof.Machine

/-! ### An interval's counter, counts and figures (R2 to R25) -/

section
variable (u : Supply) (v : Values) (rawI rawV rawT : Int)

/-- The Supply Monitor after stages 1 to 7 of an interval, before the anchors. -/
def Supply.tallied : Supply :=
  let volts := clampVoltage rawV
  let temp := clampTemperature rawT
  let i := clampCurrent rawI
  { u with
    overrange := if u.overrange = true then !(!beyondRange rawI && decide (10 ≤ u.overrangeCount + 1)) else beyondRange rawI
    overrangeCount := counting 10 (u.overrange && !beyondRange rawI) u.overrangeCount
    lowVoltage := if u.lowVoltage = true then !(u.lowNow v volts && decide (50 ≤ u.lowVoltageCount + 1))
      else u.lowNow v volts && decide (5 ≤ u.lowVoltageCount + 1)
    lowVoltageCount := counting (if u.lowVoltage = true then 50 else 5) (u.lowNow v volts) u.lowVoltageCount
    permit := u.permitNow v temp
    permitCount := counting 50 (Item.lithium v && !u.permit && decide (20 ≤ temp)) u.permitCount
    chginh := !u.permitNow v temp
    q := (max 0 (min (u.sum v i) (qFull v))).toNat
    r := (increment (Item.efficiency v) u.r i).2
    full := decide ((qFull v : Int) < u.sum v i) || (u.full && decide ((qFull v : Int) ≤ u.sum v i))
    empty := decide (u.sum v i < 0) || (u.empty && decide (u.sum v i ≤ 0)) }

theorem counted_eq : u.counted v rawI rawV rawT = (u.tallied v rawI rawV rawT).anchors v (clampCurrent rawI) (clampVoltage rawV) := by
  unfold Supply.counted
  rw [overrangeReads_eq, lowVoltageReads_eq, permitReads_eq, countCharge_eq]
  rfl

/-- The full anchor completes in this interval (R13). -/
def Supply.fullAnchors (i volts : Int) : Prop :=
  (Item.vfull v : Int) ≤ volts ∧ 0 < i ∧ i ≤ Item.itail v ∧ 3000 ≤ u.fullCount + 1

/-- The rest anchor's count completes in this interval (R14). -/
def Supply.restAnchors (i : Int) : Prop := -20 ≤ i ∧ i ≤ 20 ∧ 18000 ≤ u.restCount + 1

section
variable {u v} {i volts : Int}

theorem fullCondition_iff : fullCondition v i volts = true ↔ (Item.vfull v : Int) ≤ volts ∧ 0 < i ∧ i ≤ Item.itail v := by
  simp [fullCondition, and_assoc]

theorem restCondition_iff : restCondition i = true ↔ -20 ≤ i ∧ i ≤ 20 := by simp [restCondition]

theorem anchors_full (h : u.fullAnchors v i volts) : u.anchors v i volts = { u with
    q := qFull v, r := 0, anchored := true, empty := false, fullCount := 0, restCount := 0 } := by
  obtain ⟨high, pos, tail, count⟩ := h
  unfold Supply.anchors
  rw [if_pos (fullCondition_iff.mpr ⟨high, pos, tail⟩)]
  exact if_pos count

theorem not_fullAnchors (h : ¬ u.fullAnchors v i volts) :
    ¬ 3000 ≤ (if fullCondition v i volts = true then u.fullCount + 1 else 0) := fun le => by
  split at le
  · next cond =>
    obtain ⟨high, pos, tail⟩ := fullCondition_iff.mp cond
    exact h ⟨high, pos, tail, le⟩
  · omega

theorem anchors_rest (not : ¬ u.fullAnchors v i volts) (h : u.restAnchors i) : u.anchors v i volts = { u with
    q := ocvCharge v volts * qFull v / 1000, r := 0, anchored := true, fullCount := 0, restCount := 0
    full := u.full && decide (ocvCharge v volts * qFull v / 1000 = qFull v)
    empty := u.empty && decide (ocvCharge v volts * qFull v / 1000 = 0) } := by
  obtain ⟨low, high, count⟩ := h
  unfold Supply.anchors
  dsimp only
  rw [if_neg (not_fullAnchors not), if_pos (restCondition_iff.mpr ⟨low, high⟩)]
  exact if_pos count

theorem anchors_none (not : ¬ u.fullAnchors v i volts) (rest : ¬ u.restAnchors i) : u.anchors v i volts = { u with
    fullCount := if (Item.vfull v : Int) ≤ volts ∧ 0 < i ∧ i ≤ Item.itail v then u.fullCount + 1 else 0
    restCount := if -20 ≤ i ∧ i ≤ 20 then u.restCount + 1 else 0 } := by
  have short : ¬ 18000 ≤ (if restCondition i = true then u.restCount + 1 else 0) := fun le => by
    split at le
    · next cond =>
      obtain ⟨low, high⟩ := restCondition_iff.mp cond
      exact rest ⟨low, high, le⟩
    · omega
  unfold Supply.anchors
  dsimp only
  rw [if_neg (not_fullAnchors not), if_neg short]
  simp only [fullCondition_iff, restCondition_iff]

/-- The anchors touch the counter, its marks and their counts only. -/
theorem anchors_frame : ∃ q r anchored full empty n m, u.anchors v i volts = { u with
    q := q, r := r, anchored := anchored, full := full, empty := empty, fullCount := n, restCount := m } := by
  by_cases full : u.fullAnchors v i volts
  · exact ⟨_, _, _, _, _, _, _, anchors_full full⟩
  · by_cases rest : u.restAnchors i
    · exact ⟨_, _, _, _, _, _, _, anchors_rest full rest⟩
    · exact ⟨_, _, _, _, _, _, _, anchors_none full rest⟩

end

/-- What an interval posts, from the counter and monitors of stages 1 to 8. -/
theorem posted_eq (lowWas clash : Bool) :
    let i := clampCurrent rawI
    let temp := clampTemperature rawT
    let overdraw := if u.overdraw = true then !(u.strained v i temp && decide (30 ≤ u.overdrawCount + 1))
      else u.strained v i temp && decide (10 ≤ u.overdrawCount + 1)
    let declared := (overdraw && !u.overdraw) || (u.lowVoltage && !lowWas)
    let l : Supply := { u with
      overdraw := overdraw
      overdrawCount := counting (if u.overdraw = true then 30 else 10) (u.strained v i temp) u.overdrawCount
      roleClash := clash
      level := Supply.levelNext { u with overdraw := overdraw } declared
      escalation := if declared = true then 0
        else if overdraw = true ∨ u.lowVoltage = true then counting 10 true u.escalation else u.escalation
      recovery := if declared = true ∨ overdraw = true ∨ u.lowVoltage = true then 0
        else counting 100 (decide (0 < u.level)) u.recovery }
    u.posted v rawI rawT lowWas clash
      = { l with latest := some (l.figures v i temp), intervalTimer := some 100, onNext := false } := by
  unfold Supply.posted
  dsimp only
  rw [overdrawReads_eq, levelReads_eq]
  rfl

end

end Sys2Proof.Machine
end

