-- ==== Sys2Proof/Proofs/SupplyChosen.lean ====
section
/-! PROOFS. What the choice of the usable SUPPLY changes (R45, R48, R62). -/

namespace Sys2Proof.Machine

/-! ### What the choice of the usable SUPPLY changes (R45, R48, R62) -/

section
variable (s : State)

theorem retest_withholds : Withholds s s.retest :=
  (retest_asks (fun _ => False) s).withheld fun _ _ none => none.elim

theorem padFollows_withholds : Withholds s s.padFollows := by
  refine Withholds.ite (fun _ => ?_) fun _ => Withholds.refl s
  intro o
  rw [readSupply_checked o.checked, readAll_checked o.checked]
  refine Withholds.trans (t := s.setClimate { s.climate with padWanted := s.padWantedNow }) (setClimate_withholds s _) ?_ o
  exact Withholds.ite (fun _ => Withholds.ite (fun _ => ask_withholds _ loadPad _ false (by decide) (by decide))
    fun _ => Withholds.refl _) fun _ => (setClimate_withholds _ _).trans (release_withholds _ loadPad)

theorem lightsRestored_withholds (g : Fin 2) : Withholds s (s.lightsRestored g) :=
  (lightsRestored_asks s g).withholds fun _ e => by
    unfold State.lightsRestored at e
    dsimp only at e
    split at e
    · next held => exact held.1
    · exact e

theorem levelFollows_withholds : Withholds s s.levelFollows := by
  intro o
  by_cases rises : s.broker.level < s.levelNow
  · rw [levelFollows_rises o rises]
    exact risesTo_withholds s _ o
  unfold State.levelFollows
  rw [readSupply_checked o.checked]
  dsimp only
  rw [if_neg rises]
  refine Withholds.ite (fun _ => Withholds.refl s) (fun _ => ?_) o
  refine (setBroker_withholds s { s.broker with level := s.levelNow } (by rfl)).trans ?_
  generalize s.setBroker { s.broker with level := s.levelNow } = u
  exact (Withholds.ite (fun _ => (lightsRestored_withholds u 0).trans (lightsRestored_withholds _ 1))
    fun _ => Withholds.refl u).trans ((ceilingFollows_withholds _).trans (retest_withholds _))

/-- The state with its usable SUPPLY chosen, in which the level follows. -/
def State.chosen (s : State) : State := s.setBroker { s.broker with usable := s.usable }

theorem supplyChanged_eq {s : State} (o : s.Ok) : s.supplyChanged
    = (if raisesH s.broker.usable s.usable then s.chosen.levelFollows.retest else s.chosen.levelFollows).padFollows := by
  unfold State.supplyChanged
  rw [readSupply_checked o.checked]
  rfl

theorem chosen_withholds : Withholds s s.chosen := setBroker_withholds s _ (by rfl)

theorem supplyChanged_withholds : Withholds s s.supplyChanged := by
  intro o
  rw [supplyChanged_eq o]
  have level := (chosen_withholds s).trans (levelFollows_withholds _)
  exact ((Withholds.ite (fun _ => level.trans (retest_withholds _)) fun _ => level).trans (padFollows_withholds _)) o

theorem padFollows_level {s : State} (o : s.Ok) : s.padFollows.broker.level = s.broker.level := by
  have pad : Fact (({ mons := heard, loads := fun _ => True } : Scope).loads loadPad) := ⟨trivial⟩
  obtain ⟨n, w⟩ := waitWithin_exists s
  obtain ⟨-, -, tended⟩ := padFollows_tends (k := { mons := heard, loads := fun _ => True }) (n := n) s o w
  exact (tended.levels.1 nofun).1

/-- The level in force becomes that of the station's own figures (R48). -/
theorem supplyChanged_level {s : State} (o : s.Ok) (own : s.seq.fns.supply = true) :
    s.supplyChanged.broker.level = s.supply.latest.elim 0 (·.level) := by
  have now : s.chosen.levelNow = s.supply.latest.elim 0 (·.level) := (levelNow_eq s.chosen).trans (if_pos own)
  have ok := (chosen_withholds s o).1
  have after := (levelFollows_withholds _ ok).1
  have tested := retest_asks (fun _ => False) _ after
  rw [supplyChanged_eq o, ← now, ← (levelFollows_level ok).1]
  split
  · rw [padFollows_level tested.1, tested.2.level]
  · exact padFollows_level after

/-! ### The channels -/

/-- A Retracted channel stays Retracted. -/
def StaysHome (s t : State) : Prop := ∀ ch, (s.chan ch).st = .retracted → (t.chan ch).st = .retracted

theorem StaysHome.trans {s t u : State} (h : StaysHome s t) (k : StaysHome t u) : StaysHome s u := fun ch e => k ch (h ch e)

theorem StaysHome.same {s t : State} (h : t.motion = s.motion) : StaysHome s t := fun ch e => by rwa [chan_of_motion h ch]

theorem StaysHome.ite {c : Prop} [Decidable c] {s a b : State} (h : c → StaysHome s a) (k : ¬ c → StaysHome s b) :
    StaysHome s (if c then a else b) := by
  split
  · exact h ‹_›
  · exact k ‹_›

/-- A motor's part of a rise brakes only an Extending channel (R144). -/
theorem yieldOne_home (id : Fin 7) : StaysHome s (s.yieldOne id) := fun ch home => by
  by_cases own : id = loadMotor ch
  · subst own
    by_cases held : (s.claim (loadMotor ch)).st = .held
    · have yields : s.yieldHeld (loadMotor ch) = s.release (loadMotor ch) := by
        have yields : s.yieldHeld (loadMotor ch) = s.motionYields ch := by
          match ch with
          | 0 => rfl
          | 1 => rfl
        rw [yields, State.motionYields, home]
      rw [yieldOne_eq, held, yields]
      split
      · exact home
      · rw [chan_of_motion (release_shared s _).motion]
        exact home
    · rw [chan_of_motion (yieldOne_untold (.inr ⟨ch, rfl⟩) held).motion]
      exact home
  · rw [yieldOne_chan s id ch own]
    exact home

theorem turns_home (l : List (Fin 7)) : StaysHome s (l.foldl State.yieldOne s) := by
  induction l generalizing s with
  | nil => exact fun _ => id
  | cons id ids ih => exact (yieldOne_home s id).trans (ih _)

theorem levelFollows_home {s : State} (o : s.Ok) : StaysHome s s.levelFollows := by
  have follows : ∀ u : State, u.ceilingFollows.motion = u.motion := fun u => (ceilingFollows_lit u).motion
  unfold State.levelFollows
  rw [readSupply_checked o.checked]
  dsimp only
  refine StaysHome.ite (fun _ => StaysHome.same rfl) fun _ => ?_
  have level : StaysHome s (s.setBroker { s.broker with level := s.levelNow }) := StaysHome.same rfl
  generalize s.setBroker { s.broker with level := s.levelNow } = u at level ⊢
  refine level.trans (StaysHome.ite (fun _ => (turns_home u fin7).trans (StaysHome.same ?_)) fun _ => ?_)
  · exact (courtesyResumes_lit _).motion.trans (follows _)
  · refine StaysHome.trans (t := if s.levelNow = 0 then (u.lightsRestored 0).lightsRestored 1 else u)
      (StaysHome.ite (fun _ => StaysHome.same ?_) fun _ => StaysHome.same rfl) (StaysHome.same ?_)
    · exact (lightsRestored_shared _ 1).motion.trans (lightsRestored_shared u 0).motion
    · exact (retest_shared _).motion.trans (follows _)

theorem supplyChanged_home {s : State} (o : s.Ok) : StaysHome s s.supplyChanged := by
  rw [supplyChanged_eq o]
  have level : StaysHome s s.chosen.levelFollows := (levelFollows_home (chosen_withholds s o).1 : StaysHome s.chosen _)
  refine StaysHome.trans (StaysHome.ite (fun _ => level.trans (StaysHome.same (retest_shared _).motion)) fun _ => level)
    (StaysHome.same (padFollows_warm _).wet.motion)

end

end Sys2Proof.Machine
end

