-- ==== Sys2Proof/Proofs/SilentChoice.lean ====
section
/-! PROOFS. The choice of the usable SUPPLY with every claim Idle (R45, R62). -/

namespace Sys2Proof.Machine

/-! ### With every claim Idle the choice of the usable SUPPLY hands nothing over -/

/-- Every claim is Idle. -/
def State.allIdle (s : State) : Prop := ∀ id, (s.claim id).st = .idle

section
variable {s : State} (idle : s.allIdle)
include idle

theorem yieldOne_idle (id : Fin 7) : s.yieldOne id = s := by
  rw [yieldOne_eq, idle id]
  exact ite_self s

theorem turns_idle (l : List (Fin 7)) : l.foldl State.yieldOne s = s := by
  induction l with
  | nil => rfl
  | cons id ids ih =>
    rw [List.foldl_cons, yieldOne_idle idle]
    exact ih

theorem retest_idle : s.retest = s := by
  have none : s.retestOrder = [] := by
    unfold State.retestOrder
    simp [idle _]
  unfold State.retest
  rw [none]
  rfl

theorem lightsRestored_idle (g : Fin 2) : s.lightsRestored g = s := if_neg fun h => by
  rw [idle] at h
  exact absurd h.1 nofun

theorem amend_idle (g : Fin 2) : s.amend g = s := by
  unfold State.amend
  dsimp only
  rw [idle, show (ClaimState.idle == ClaimState.held) = false from rfl, Bool.and_false]
  exact if_neg nofun

end

/-- What is left but for the lights' ceiling, levels and targets and the Broker's own figures. -/
structure Silent (s t : State) : Prop where
  bus : t.bus = s.bus
  marks : t.due = s.due
  motion : t.motion = s.motion
  seq : t.seq = s.seq
  claims : t.broker.claims = s.broker.claims
  waits : t.lights.due = s.lights.due

theorem Silent.refl (s : State) : Silent s s := ⟨rfl, rfl, rfl, rfl, rfl, rfl⟩

theorem Silent.trans {s t u : State} (h : Silent s t) (k : Silent t u) : Silent s u :=
  ⟨k.bus.trans h.bus, k.marks.trans h.marks, k.motion.trans h.motion, k.seq.trans h.seq, k.claims.trans h.claims,
    k.waits.trans h.waits⟩

theorem Silent.allIdle {s t : State} (h : Silent s t) (idle : s.allIdle) : t.allIdle := fun id => by
  rw [State.claim, h.claims]
  exact idle id

theorem ceilingFollows_silent {s : State} (idle : s.allIdle) : Silent s s.ceilingFollows := by
  unfold State.ceilingFollows
  dsimp only
  generalize e : s.setLights _ = u
  have lowers : Silent s u := e ▸ ⟨rfl, rfl, rfl, rfl, rfl, rfl⟩
  rw [amend_idle (lowers.allIdle idle), amend_idle (lowers.allIdle idle)]
  exact lowers

theorem levelFollows_silent {s : State} (o : s.Ok) (idle : s.allIdle) (due : s.lights.due = .none) : Silent s s.levelFollows := by
  unfold State.levelFollows
  rw [readSupply_checked o.checked]
  dsimp only
  split
  · exact Silent.refl s
  have level : Silent s (s.setBroker { s.broker with level := s.levelNow }) := ⟨rfl, rfl, rfl, rfl, rfl, rfl⟩
  generalize s.setBroker { s.broker with level := s.levelNow } = u at level ⊢
  have idle := level.allIdle idle
  have ceiling := ceilingFollows_silent idle
  split
  · rw [turns_idle idle, courtesyResumes_none (ceiling.waits.trans (level.waits.trans due))]
    exact level.trans ceiling
  · rw [lightsRestored_idle idle, lightsRestored_idle idle, ite_self, retest_idle (ceiling.allIdle idle)]
    exact level.trans ceiling

theorem supplyChanged_silent {s : State} (o : s.Ok) (idle : s.allIdle) (due : s.lights.due = .none)
    (pad : Item.padFitted s.seq.values = false) : Silent s s.supplyChanged := by
  have chosen : Silent s s.chosen := ⟨rfl, rfl, rfl, rfl, rfl, rfl⟩
  have level := chosen.trans (levelFollows_silent (chosen_withholds s o).1 (chosen.allIdle idle) due)
  rw [supplyChanged_eq o, retest_idle (level.allIdle idle), ite_self]
  have off : s.chosen.levelFollows.padFollows = s.chosen.levelFollows := by
    unfold State.padFollows
    rw [level.seq, pad, Bool.and_false, Bool.false_and]
    rfl
  rw [off]
  exact level

/-- In order, a change of the courtesy light waits only beside a request, and so beside a claim (R154, R159). -/
theorem State.Order.due_none {s : State} (order : s.Order Part.whole) (idle : s.allIdle) : s.lights.due = .none := by
  by_contra waits
  have pending : s.dueWaits := order.parts .due trivial
  have lights : s.LightsOrder := order.parts .lights trivial
  have some := pending waits
  rw [Option.any_eq_true] at some
  obtain ⟨ch, -, some⟩ := some
  exact (lights.groups _).asks some (idle _)

end Sys2Proof.Machine
end

