-- ==== Sys2Proof/Proofs/MonitorTurns.lean ====
section
/-! PROOFS. Monitors turned one after another in an interval (R19, R178, R181). -/

namespace Sys2Proof.Machine

/-! ### Monitors turned one after another (R178, R181) -/

/-- At most `k` records wait in the periodic lane, or one more with a NOTICE among them. -/
def Bus.roomy (k : Nat) (b : Bus) : Prop :=
  b.periodic.length ≤ k
    ∨ b.periodic.length ≤ k + 1 ∧ ∃ w ∈ b.periodic, w.item.record.kind = .notice ∧ w.item.record.subject = 0

section
variable {k : Nat} {b : Bus}

theorem Bus.roomy.length (h : b.roomy k) : b.periodic.length ≤ k + 1 := h.elim (fun h => h.trans (Nat.le_succ k)) fun h => h.1

theorem Bus.build_roomy (now : Nat) (h : b.roomy k) : (b.build now).roomy k := by
  have sub := Bus.build_sublist now b
  rcases h with h | ⟨h, notice⟩
  · exact .inl (sub.length_le.trans h)
  · rcases Nat.lt_or_ge (b.build now).periodic.length b.periodic.length with less | same
    · exact .inl (by omega)
    · rw [Bus.roomy, sub.eq_of_length_le same]
      exact .inr ⟨h, notice⟩

/-- A NOTICE takes the place of the one that waits, or a free slot (R171). -/
theorem Bus.join_roomy {r : Record} (now tag : Nat) (kind : r.kind = .notice) (subject : r.subject = 0) (le : k ≤ 7) (h : b.roomy k) :
    (b.join now ⟨r, tag⟩).roomy k ∧ (b.join now ⟨r, tag⟩).holds r := by
  have cls : r.kind.cls ≠ 0 := by rw [kind]; decide
  have key : ∀ w : Waiting, w.sameKey r = true ↔ w.item.record.kind = .notice ∧ w.item.record.subject = 0 := fun w => by
    rw [Waiting.sameKey, kind, subject, Bool.and_eq_true, beq_iff_eq, beq_iff_eq]
  unfold Bus.join
  rw [if_neg cls]
  split
  · next any =>
    obtain ⟨w, m, e⟩ := mem_coalesce_self (t := ⟨r, tag⟩) any
    refine ⟨.inr ⟨?_, w, m, by rw [e]; exact ⟨kind, subject⟩⟩, .inl ⟨w, m, by rw [e]⟩⟩
    show (coalesce _ b.periodic).length ≤ k + 1
    rw [coalesce, List.length_map]
    exact h.length
  · next none =>
    have few : b.periodic.length ≤ k := h.elim id fun ⟨_, w, m, e⟩ => absurd (List.any_eq_true.mpr ⟨w, m, (key w).mpr e⟩) none
    rw [if_pos (show b.periodic.length < Config.periodicSlots from Nat.lt_succ_of_le (few.trans le))]
    refine ⟨.inr ⟨?_, _, List.mem_append_right _ List.mem_cons_self, kind, subject⟩,
      .inl ⟨_, List.mem_append_right _ List.mem_cons_self, rfl⟩⟩
    show (b.periodic ++ [_]).length ≤ k + 1
    rw [List.length_append, List.length_singleton]
    exact Nat.succ_le_succ few

end

/-- What a turn of monitors changes. -/
structure Turned (s t : State) : Prop where
  rest : t = { s with status := t.status, due := { s.due with status2 := t.due.status2 }, bus := t.bus }
  roomy : ∀ k ≤ 7, s.bus.roomy k → t.bus.roomy k

theorem Turned.trans {s t u : State} (h : Turned s t) (k : Turned t u) : Turned s u :=
  ⟨by rw [k.rest, h.rest], fun n le r => k.roomy n le (h.roomy n le r)⟩

section
variable (s : State) (n : Fin 19)

theorem monitor_turned (d : Bool) : Turned s (s.monitor n d) where
  rest := by rw [monitor_eq]
  roomy k le h := by
    rw [monitor_eq]
    show Bus.roomy k (if s.inRun = true then _ else s.bus)
    split
    · exact Bus.build_roomy s.now (Bus.join_roomy s.now 0 rfl rfl le h).1
    · exact h

variable (a b : Bool)

theorem handChange_turned : Turned s (s.handChange n a b) := by
  unfold State.handChange
  split
  · exact ⟨rfl, fun _ _ => id⟩
  · exact monitor_turned s n b

theorem handChange_summary (m : Fin 19) : (s.handChange n a b).status.summary.get m
    = if m = n then (if a = b then s.status.summary.get n else b) else s.status.summary.get m := by
  unfold State.handChange
  by_cases same : a = b
  · rw [if_pos same, if_pos same]
    split
    · next e => rw [e]
    · rfl
  · rw [if_neg same, if_neg same, monitor_eq]
    show (s.status.summary.set n b).get m = _
    split
    · next e => rw [e, Tab.get_set_self]
    · next e => rw [Tab.get_set_ne _ _ _ _ (Ne.symm e)]

end

/-! ### The state of an interval (R2) -/

section
variable (s : State) (rawI rawV rawT : Int)

/-- The Supply Monitor after stages 1 to 8. -/
def State.counted (s : State) (rawI rawV rawT : Int) : Supply := s.supply.counted s.seq.values rawI rawV rawT

/-- The Supply Monitor as posted. -/
def State.posted (s : State) (rawI rawV rawT : Int) : Supply :=
  (s.counted rawI rawV rawT).posted s.seq.values rawI rawT s.supply.lowVoltage (s.entries.any Entry.clashes)

/-- The state with the figures posted and the four monitors turned. -/
def State.turned (s : State) (rawI rawV rawT : Int) : State :=
  let c := s.counted rawI rawV rawT
  let p := s.posted rawI rawV rawT
  let u := ((s.setSupply c).handChange Mon.overrange s.supply.overrange c.overrange).handChange Mon.lowVoltage
    s.supply.lowVoltage c.lowVoltage
  ((u.setSupply p).handChange Mon.overdraw s.supply.overdraw p.overdraw).handChange Mon.roleClash s.supply.roleClash p.roleClash

theorem turned_rest : s.turned rawI rawV rawT = { s with
    supply := s.posted rawI rawV rawT
    status := (s.turned rawI rawV rawT).status
    due := { s.due with status2 := (s.turned rawI rawV rawT).due.status2 }
    bus := (s.turned rawI rawV rawT).bus } := by
  unfold State.turned
  dsimp only
  generalize s.counted rawI rawV rawT = c
  generalize s.posted rawI rawV rawT = p
  generalize hu : State.handChange _ Mon.lowVoltage s.supply.lowVoltage c.lowVoltage = u
  have first : Turned (s.setSupply c) u := hu ▸ (handChange_turned _ _ _ _).trans (handChange_turned _ _ _ _)
  generalize hv : State.handChange _ Mon.roleClash s.supply.roleClash p.roleClash = v
  have last : Turned (u.setSupply p) v := hv ▸ (handChange_turned _ _ _ _).trans (handChange_turned _ _ _ _)
  have rest := last.rest
  rw [first.rest] at rest
  exact rest

theorem turned_roomy {k : Nat} (le : k ≤ 7) (h : s.bus.roomy k) : (s.turned rawI rawV rawT).bus.roomy k := by
  unfold State.turned
  dsimp only
  generalize s.counted rawI rawV rawT = c
  generalize s.posted rawI rawV rawT = p
  generalize hu : State.handChange _ Mon.lowVoltage s.supply.lowVoltage c.lowVoltage = u
  have first : Turned (s.setSupply c) u := hu ▸ (handChange_turned _ _ _ _).trans (handChange_turned _ _ _ _)
  exact ((handChange_turned (u.setSupply p) _ _ _).trans (handChange_turned _ _ _ _)).roomy k le (first.roomy k le h)

theorem turned_keeps : Keeps s (s.turned rawI rawV rawT) := by
  unfold State.turned
  dsimp only
  generalize s.counted rawI rawV rawT = c
  generalize s.posted rawI rawV rawT = p
  generalize hu : State.handChange _ Mon.lowVoltage s.supply.lowVoltage c.lowVoltage = u
  have first : Keeps s u := hu ▸ (setSupply_keeps s c).trans ((handChange_keeps _ _ _ _).trans (handChange_keeps _ _ _ _))
  exact first.trans ((setSupply_keeps u p).trans ((handChange_keeps _ _ _ _).trans (handChange_keeps _ _ _ _)))

theorem turned_summary (n : Fin 4) :
    let c := s.counted rawI rawV rawT
    let p := s.posted rawI rawV rawT
    let old := [s.supply.overrange, s.supply.lowVoltage, s.supply.overdraw, s.supply.roleClash].getD n.val false
    let new := [c.overrange, c.lowVoltage, p.overdraw, p.roleClash].getD n.val false
    let place : Fin 19 := ⟨n.val, by omega⟩
    (s.turned rawI rawV rawT).status.summary.get place = if old = new then s.status.summary.get place else new := by
  dsimp only
  unfold State.turned
  dsimp only
  generalize s.counted rawI rawV rawT = c
  generalize s.posted rawI rawV rawT = p
  have first := handChange_summary (s.setSupply c) Mon.overrange s.supply.overrange c.overrange
  generalize (s.setSupply c).handChange Mon.overrange s.supply.overrange c.overrange = u at first
  have second := handChange_summary u Mon.lowVoltage s.supply.lowVoltage c.lowVoltage
  generalize u.handChange Mon.lowVoltage s.supply.lowVoltage c.lowVoltage = v at second
  have third : ∀ m, ((v.setSupply p).handChange Mon.overdraw s.supply.overdraw p.overdraw).status.summary.get m
      = if m = Mon.overdraw then (if s.supply.overdraw = p.overdraw then v.status.summary.get Mon.overdraw else p.overdraw)
        else v.status.summary.get m := handChange_summary (v.setSupply p) Mon.overdraw s.supply.overdraw p.overdraw
  generalize (v.setSupply p).handChange Mon.overdraw s.supply.overdraw p.overdraw = w at third
  rw [handChange_summary]
  match n with
  | 0 => exact (third 0).trans ((second 0).trans (first 0))
  | 1 => exact (third 1).trans ((second 1).trans (congrArg
      (fun x => if s.supply.lowVoltage = c.lowVoltage then x else c.lowVoltage) (first 1)))
  | 2 => exact (third 2).trans (congrArg
      (fun x => if s.supply.overdraw = p.overdraw then x else p.overdraw) ((second 2).trans (first 2)))
  | 3 => exact (congrArg (fun x => if s.supply.roleClash = p.roleClash then x else p.roleClash)
      ((third 3).trans ((second 3).trans (first 3))))

theorem accountingInterval_eq {s : State} (o : s.Sane) (rawI rawV rawT : Int) :
    s.accountingInterval rawI rawV rawT = (s.turned rawI rawV rawT).intervalEnds s.supply := by
  unfold State.accountingInterval
  dsimp only
  generalize hu : State.handChange _ Mon.lowVoltage s.supply.lowVoltage _ = u
  have first : Turned (s.setSupply (s.counted rawI rawV rawT)) u :=
    hu ▸ (handChange_turned _ _ _ _).trans (handChange_turned _ _ _ _)
  have keeps : Keeps s u := hu ▸ (setSupply_keeps s _).trans ((handChange_keeps _ _ _ _).trans (handChange_keeps _ _ _ _))
  have entries : u.entries = s.entries := by rw [first.rest]; rfl
  rw [readAll_checked (keeps o).checked, entries]
  unfold State.turned
  dsimp only
  rw [← hu]
  rfl

end

end Sys2Proof.Machine
end

