-- ==== Sys2Proof/Proofs/UrgentFirst.lean ====
section
/-! PROOFS. SHED and SUPPLY among the records of a step (R24, R25, R171). -/

namespace Sys2Proof.Machine

/-! ### SHED and SUPPLY among the records of a step (R24, R25, R171) -/

section
variable {was u : State}

theorem mem_offer {c : Prop} [Decidable c] {o x : Offer} (m : o ∈ if c then [x] else []) : o = x := by
  split at m
  · exact List.mem_singleton.mp m
  · cases m

/-- What the records from STATUS subject 2 on are, where no violation is reported. -/
theorem mem_lastOffers {o : Offer} (calm : ∀ ch, State.interlockOffers was u ch = []) (m : o ∈ State.lastOffers was u) :
    o.record = status2Record u ∨ (∃ k, o.record = tankRecord u k) ∨ (∃ z, o.record = climateRecord u z)
      ∨ (∃ ch, o ∈ State.motionOffers was u ch) ∨ ∃ ch, o.record = lightRecord u ch := by
  rw [lastOffers_eq] at m
  simp only [List.mem_append, List.mem_flatMap] at m
  rcases m with (((m | ⟨k, -, m⟩) | ⟨z, -, m⟩) | ⟨ch, -, m | m⟩) | ⟨ch, -, m⟩
  · exact .inl (congrArg Offer.record (mem_offer m))
  · exact .inr (.inl ⟨k, congrArg Offer.record (mem_offer m)⟩)
  · exact .inr (.inr (.inl ⟨z, congrArg Offer.record (mem_offer m)⟩))
  · exact .inr (.inr (.inr (.inl ⟨ch, m⟩)))
  · rw [calm] at m
    cases m
  · exact .inr (.inr (.inr (.inr ⟨ch, congrArg Offer.record (mem_offer m)⟩)))

theorem lastOffers_cls {o : Offer} (calm : ∀ ch, State.interlockOffers was u ch = []) (m : o ∈ State.lastOffers was u) :
    o.record.kind.cls ≠ 0 := by
  rcases mem_lastOffers calm m with e | ⟨_, e⟩ | ⟨_, e⟩ | ⟨ch, m⟩ | ⟨_, e⟩
  · rw [e]; exact nofun
  · rw [e]; exact nofun
  · rw [e]; exact nofun
  · rw [mem_offer m]; exact nofun
  · rw [e]; exact nofun

theorem firmCount_zero {l : List Offer} (soft : ∀ o ∈ l, o.record.kind.cls = 0 ∨ o.record.kind.cls = 3) : firmCount l = 0 := by
  refine List.countP_eq_zero.mpr fun o m => ?_
  rcases soft o m with e | e <;> simp [e]

theorem firmCount_one {c : Prop} [Decidable c] (o : Offer) : firmCount (if c then [o] else []) ≤ 1 := by
  split
  · exact List.countP_le_length
  · exact Nat.zero_le 1

/-- With no MOTION and no INTERLOCK among them, STATUS subject 2 alone of the last records is of class 1 or 2. -/
theorem lastOffers_firm (calm : ∀ ch, State.interlockOffers was u ch = []) (still : ∀ ch, State.motionOffers was u ch = []) :
    firmCount (State.lastOffers was u) ≤ 1 := by
  have moves : fin2.flatMap (fun ch => State.motionOffers was u ch ++ State.interlockOffers was u ch) = [] := by
    simp [calm, still]
  have tanks : firmCount (fin3.flatMap (State.tankOffers was u)) = 0 := firmCount_zero fun o m => by
    obtain ⟨k, -, m⟩ := List.mem_flatMap.mp m
    rw [mem_offer m]
    exact .inr rfl
  have zones : firmCount (fin2.flatMap (State.climateOffers was u)) = 0 := firmCount_zero fun o m => by
    obtain ⟨z, -, m⟩ := List.mem_flatMap.mp m
    rw [mem_offer m]
    exact .inr rfl
  have lamps : firmCount (fin8.flatMap (State.lightOffers was u)) = 0 := firmCount_zero fun o m => by
    obtain ⟨ch, -, m⟩ := List.mem_flatMap.mp m
    rw [mem_offer m]
    exact .inr rfl
  rw [lastOffers_eq, moves, List.append_nil, firmCount_append, firmCount_append, firmCount_append, tanks, zones, lamps]
  exact firmCount_one _

variable (told : u.view.changes = []) (pub : u.publishes = true) (counters : u.due.status1 = false)
include told pub counters

/-- The lanes after a step are those the offered records leave. -/
theorem publish_lanes : (State.publish was u).bus = ((State.firstOffers was u ++ State.lastOffers was u).foldl State.take u).bus := by
  have same : ((State.firstOffers was u).foldl State.take u).publishStatus1 = (State.firstOffers was u).foldl State.take u :=
    publishStatus1_none (by rw [(takes_hands _ u).rest]; exact counters)
  rw [publish_told told pub, same, List.foldl_append]
  rfl

variable {f : Figures} (latest : u.supply.latest = some f) (run : u.inRun = true)
  (calm : ∀ ch, State.interlockOffers was u ch = [])
include latest run calm

/-- A SHED that is due is carried: no other urgent record follows it. -/
theorem publish_carries_shed (due : u.due.shed = true) : (State.publish was u).bus.carries f.shedRecord := by
  have shed : u.shedOffers = [⟨f.shedRecord, fun p => { p with shed := if 0 < f.level then some Config.shedMs else none }⟩] := by
    unfold State.shedOffers
    rw [latest, due, run]
    rfl
  rw [publish_lanes told pub counters, firstOffers_eq, shed]
  refine Bus.urges.carries ?_
  rw [List.append_assoc, List.append_assoc, List.singleton_append, List.foldl_cons]
  refine takes_urges (fun o m => ?_) (hand_urges 0 rfl)
  rw [List.mem_append, List.mem_append] at m
  rcases m with m | m | m
  · unfold State.supplyOffers at m
    rw [latest] at m
    rw [mem_offer m]
    exact nofun
  · rw [mem_offer m]
    exact nofun
  · exact lastOffers_cls calm m

/-- A SUPPLY that is due is carried, where at most four records of classes 1 and 2 wait and no MOTION follows it. -/
theorem publish_carries_supply (due : u.due.supply = true) (own : u.seq.fns.supply = true) (room : u.bus.firm ≤ 4)
    (still : ∀ ch, State.motionOffers was u ch = []) : (State.publish was u).bus.carries f.supplyRecord := by
  have supply : u.supplyOffers = [⟨f.supplyRecord, fun p => { p with supply := some u.supplyPeriodMs }⟩] := by
    unfold State.supplyOffers
    rw [latest, due, run, own]
    rfl
  have shed : firmCount u.shedOffers = 0 := firmCount_zero fun o m => by
    unfold State.shedOffers at m
    rw [latest] at m
    rw [mem_offer m]
    exact .inl rfl
  have status : firmCount (State.status0Offers was u) ≤ 1 := firmCount_one _
  have last := lastOffers_firm calm still
  rw [publish_lanes told pub counters, firstOffers_eq, supply, List.append_assoc, List.append_assoc, List.singleton_append]
  refine Bus.holds.carries (offers_hold_firm (o := ⟨f.supplyRecord, _⟩) (by exact nofun) (by exact nofun) ?_ fun o m => .inl ?_)
  · rw [firmCount_append, firmCount_cons, firmCount_append, shed]
    show u.bus.firm + (0 + (_ + 1)) ≤ 7
    omega
  · rw [List.mem_append] at m
    rcases m with m | m
    · rw [mem_offer m]
      exact nofun
    · rcases mem_lastOffers calm m with e | ⟨_, e⟩ | ⟨_, e⟩ | ⟨ch, m⟩ | ⟨_, e⟩
      · rw [e]; exact nofun
      · rw [e]; exact nofun
      · rw [e]; exact nofun
      · rw [still] at m; cases m
      · rw [e]; exact nofun

end

end Sys2Proof.Machine
end

