-- ==== Sys2Proof/Proofs/IntervalLeaves.lean ====
section
/-! PROOFS. What an interval leaves before its records are handed over (R2, R28, R48). -/

namespace Sys2Proof.Machine

/-! ### What an accounting interval leaves at the end of its command (R2, R24, R26, R28, R48) -/

section
variable (s : State) (rawI rawV rawT : Int)

/-- The state in which the usable SUPPLY is chosen afresh: the counter is in the cell, and what is to be handed over is due. -/
def State.fallen (s : State) (rawI rawV rawT : Int) : State :=
  let t := s.turned rawI rawV rawT
  let p := t.supply
  let t := t.setCell { t.cell with q := p.q, r := p.r, anchored := p.anchored }
  t.setDue { t.due with
    supply := t.due.supply || (t.inRun && (s.supply.lowVoltage != p.lowVoltage || s.supply.permit != p.permit || s.supply.onNext))
    shed := t.due.shed || (t.inRun && s.supply.level != p.level) }

theorem fallen_rest : s.fallen rawI rawV rawT = { s with
    supply := s.posted rawI rawV rawT
    status := (s.turned rawI rawV rawT).status
    bus := (s.turned rawI rawV rawT).bus
    cell :=
      let p := s.posted rawI rawV rawT
      { s.cell with q := p.q, r := p.r, anchored := p.anchored }
    due :=
      let p := s.posted rawI rawV rawT
      { s.due with
        status2 := (s.turned rawI rawV rawT).due.status2
        supply := s.due.supply
          || (s.inRun && (s.supply.lowVoltage != p.lowVoltage || s.supply.permit != p.permit || s.supply.onNext))
        shed := s.due.shed || (s.inRun && s.supply.level != p.level) } } := by
  have rest := turned_rest s rawI rawV rawT
  have run : (s.turned rawI rawV rawT).inRun = s.inRun := by rw [rest]; rfl
  unfold State.fallen
  dsimp only
  show State.setDue (State.setCell _ _) { (s.turned rawI rawV rawT).due with
    supply := _ || ((s.turned rawI rawV rawT).inRun && _), shed := _ || ((s.turned rawI rawV rawT).inRun && _) } = _
  rw [run]
  generalize s.turned rawI rawV rawT = t at rest ⊢
  rw [rest]
  rfl

variable {s} (o : s.Sane)
include o

theorem fallen_sane : (s.fallen rawI rawV rawT).Sane :=
  ((setCell_keeps _ _).trans (setDue_calm _ _).keeps) (turned_keeps s rawI rawV rawT o)

end

section
variable {s : State} (fits : s.Fits) (rawI rawV rawT : Int)
include fits

theorem interval_done (own : s.seq.fns.supply = true) (runs : s.supply.intervalTimer.isSome = true) :
    exec (.accountingInterval rawI rawV rawT) s = .next (State.publish s (s.fallen rawI rawV rawT).supplyChanged) := by
  show done s _ = _
  rw [if_pos ⟨own, runs⟩, accountingInterval_eq fits.sound.sane]
  rfl

theorem posted_latest : (s.posted rawI rawV rawT).latest.elim 0 (·.level) = (s.posted rawI rawV rawT).level := rfl

theorem concluded_base : State.Base (s.fallen rawI rawV rawT) (s.fallen rawI rawV rawT).supplyChanged :=
  (supplyChanged_steady _ (fallen_sane rawI rawV rawT fits.sound.sane).ok).2.1

theorem concluded_view : (s.fallen rawI rawV rawT).supplyChanged.view = s.view :=
  (concluded_base fits rawI rawV rawT).view.trans (by rw [fallen_rest])

theorem concluded_seq : (s.fallen rawI rawV rawT).supplyChanged.seq = s.seq :=
  (concluded_base fits rawI rawV rawT).seq.trans (by rw [fallen_rest])

theorem concluded_supply : (s.fallen rawI rawV rawT).supplyChanged.supply = s.posted rawI rawV rawT :=
  (concluded_base fits rawI rawV rawT).supply.trans (by rw [fallen_rest])

theorem concluded_inRun : (s.fallen rawI rawV rawT).supplyChanged.inRun = s.inRun := by
  rw [State.inRun, concluded_seq fits, State.inRun]

theorem concluded_told : (s.fallen rawI rawV rawT).supplyChanged.view.changes = [] := by
  rw [concluded_view fits]
  exact fits.sound.quiet.1

theorem concluded_withheld : Withheld (s.fallen rawI rawV rawT) (s.fallen rawI rawV rawT).supplyChanged :=
  (supplyChanged_withholds _ (fallen_sane rawI rawV rawT fits.sound.sane).ok).2

theorem concluded_cell : (s.fallen rawI rawV rawT).supplyChanged.cell =
    let p := s.posted rawI rawV rawT
    { s.cell with q := p.q, r := p.r, anchored := p.anchored } :=
  (concluded_withheld fits rawI rawV rawT).cell.trans (by rw [fallen_rest])

theorem concluded_periods : (s.fallen rawI rawV rawT).supplyChanged.periods
    = { s.periods with draw := (s.fallen rawI rawV rawT).supplyChanged.periods.draw } :=
  (concluded_withheld fits rawI rawV rawT).periods.trans (by rw [fallen_rest])

/-- The choice of the usable SUPPLY reaches every claim, the level in force, and the monitors of the heater and the motors. -/
def choice : Scope := { mons := heard, loads := fun _ => True, levels := True, hands := False }

theorem concluded_tended : ∃ n, Tended choice n (s.fallen rawI rawV rawT) (s.fallen rawI rawV rawT).supplyChanged := by
  have all : ∀ j, Fact (choice.loads j) := fun _ => ⟨trivial⟩
  obtain ⟨n, w⟩ := waitWithin_exists (s.fallen rawI rawV rawT)
  exact ⟨n, (supplyChanged_tends (k := choice) (n := n) (fun _ h => h) trivial _
    (fallen_sane rawI rawV rawT fits.sound.sane).ok w).2.2⟩

/-- The marks of what is to be handed over. -/
theorem concluded_due : ∃ m, (s.fallen rawI rawV rawT).supplyChanged.due =
    let p := s.posted rawI rawV rawT
    { Due.reset with
      status2 := (s.fallen rawI rawV rawT).supplyChanged.due.status2, motion := m
      supply := s.inRun && (s.supply.lowVoltage != p.lowVoltage || s.supply.permit != p.permit || s.supply.onNext)
      shed := s.inRun && s.supply.level != p.level } := by
  obtain ⟨n, tended⟩ := concluded_tended fits rawI rawV rawT
  have marks := (tended.marks nofun).due
  obtain ⟨-, due, -⟩ := fits.sound.quiet
  refine ⟨(s.fallen rawI rawV rawT).supplyChanged.due.motion, marks.trans ?_⟩
  generalize (s.fallen rawI rawV rawT).supplyChanged = w
  rw [fallen_rest, due]
  rfl

theorem concluded_calm (ch : Fin 2) : State.interlockOffers s (s.fallen rawI rawV rawT).supplyChanged ch = [] := by
  obtain ⟨m, due⟩ := concluded_due fits rawI rawV rawT
  have home : StaysHome s (s.fallen rawI rawV rawT).supplyChanged := by
    have base := supplyChanged_home (s := s.fallen rawI rawV rawT) (fallen_sane rawI rawV rawT fits.sound.sane).ok
    have same : StaysHome s (s.fallen rawI rawV rawT) := StaysHome.same (by rw [fallen_rest])
    exact same.trans base
  unfold State.interlockOffers
  refine if_neg fun h => ?_
  rw [due] at h
  simp only [Bool.and_eq_true] at h
  obtain ⟨violated, began⟩ := h
  have reset : Due.reset.interlock.get ch = false := by
    match ch with
    | 0 => rfl
    | 1 => rfl
  simp only [reset, Bool.false_or, Bool.not_eq_true'] at began
  have st : ((s.fallen rawI rawV rawT).supplyChanged.chan ch).st ≠ .retracted := by
    simp only [State.inViolation, Bool.and_eq_true, bne_iff_ne] at violated
    exact violated.2
  have was : (s.chan ch).st ≠ .retracted := fun e => st (home ch e)
  have same : s.motionRuns = true ∧ s.view.driveAccepted = true := by
    simp only [State.inViolation, Bool.and_eq_true, concluded_view fits, motionRuns_of_seq (concluded_seq fits rawI rawV rawT)] at violated
    exact violated.1
  rw [State.inViolation, same.1, same.2] at began
  exact absurd began (by simp [was])

end

end Sys2Proof.Machine
end

