-- ==== Sys2Proof/Proofs/IntervalRecords.lean ====
section
/-! PROOFS. The records and periods of an interval (R24, R26). -/

namespace Sys2Proof.Machine

/-! ### The records and periods of an interval (R24, R26) -/

/-- Before Setup the end of a step hands nothing over. -/
theorem publish_periods_mute {was u : State} (told : u.view.changes = []) (mute : u.publishes = false) :
    (State.publish was u).periods = { u.periods with interlock := (State.publish was u).periods.interlock } := by
  unfold State.publish
  dsimp only
  rw [tellReaders_none told, mute]
  rfl

/-- In Run the part hands records over. -/
theorem publishes_of_run {u : State} (run : u.inRun = true) : u.publishes = true := by
  unfold State.inRun at run
  unfold State.publishes
  rw [beq_iff_eq.mp run]
  rfl

section
variable {s : State} (fits : s.Fits) (rawI rawV rawT : Int)
include fits

theorem concluded_publishes : (s.fallen rawI rawV rawT).supplyChanged.publishes = s.publishes := by
  rw [State.publishes, concluded_seq fits, State.publishes]

/-- With every claim Idle and no pad fitted nothing joins the lanes before the records of the step, and no MOTION follows. -/
theorem concluded_quiet (idle : s.allIdle) (item : s.seq.values.get 28 = 0) (few : s.bus.periodic.length ≤ 3) :
    (s.fallen rawI rawV rawT).supplyChanged.bus.firm ≤ 4
      ∧ ∀ ch, State.motionOffers s (s.fallen rawI rawV rawT).supplyChanged ch = [] := by
  have rest := fallen_rest s rawI rawV rawT
  have silent : Silent (s.fallen rawI rawV rawT) (s.fallen rawI rawV rawT).supplyChanged := by
    refine supplyChanged_silent (fallen_sane rawI rawV rawT fits.sound.sane).ok (fun id => ?_) ?_ ?_
    · rw [rest]
      exact idle id
    · rw [rest]
      exact fits.order.due_none idle
    · rw [rest]
      show (s.seq.values.get 28 == 1) = false
      rw [item]
      rfl
  refine ⟨?_, fun ch => ?_⟩
  · rw [silent.bus, rest]
    exact Bus.firm_le_length _ |>.trans (turned_roomy s rawI rawV rawT (k := 3) (by decide) (.inl few)).length
  · have due : (s.fallen rawI rawV rawT).supplyChanged.due.motion.get ch = false := by
      rw [silent.marks, rest]
      show s.due.motion.get ch = false
      rw [fits.sound.quiet.2.1]
      match ch with
      | 0 => rfl
      | 1 => rfl
    have record : motionRecord (s.fallen rawI rawV rawT).supplyChanged ch = motionRecord s ch := by
      have motion : (s.fallen rawI rawV rawT).supplyChanged.motion = s.motion := silent.motion.trans (by rw [rest])
      have pins : (s.fallen rawI rawV rawT).supplyChanged.pins = s.pins :=
        (concluded_base fits rawI rawV rawT).pins.trans (by rw [rest])
      unfold motionRecord State.position State.chan
      rw [motion, pins]
    unfold State.motionOffers
    rw [due, record]
    simp

/-- SHED and its 200 ms in Run (R24). -/
theorem interval_shed {f : Figures} (latest : (s.posted rawI rawV rawT).latest = some f) (level : f.level = (s.posted rawI rawV rawT).level) :
    let t := State.publish s (s.fallen rawI rawV rawT).supplyChanged
    let p := s.posted rawI rawV rawT
    if s.seq.phase = .run ∧ p.level ≠ s.supply.level then
      t.periods.shed = (if 0 < p.level then some 200 else none) ∧ t.bus.carries f.shedRecord
    else t.periods.shed = s.periods.shed := by
  have told := concluded_told fits rawI rawV rawT
  have supply := concluded_supply fits rawI rawV rawT
  have run := concluded_inRun fits rawI rawV rawT
  have pub := concluded_publishes fits rawI rawV rawT
  have calm := concluded_calm fits rawI rawV rawT
  obtain ⟨m, due⟩ := concluded_due fits rawI rawV rawT
  have shed := congrArg Due.shed due
  have counters := congrArg Due.status1 due
  have periods := congrArg Periods.shed (concluded_periods fits rawI rawV rawT)
  generalize (s.fallen rawI rawV rawT).supplyChanged = w at told supply run pub calm shed counters periods
  dsimp only at shed ⊢
  have restarted : w.publishes = true → (State.publish s w).periods.shed
      = if (s.inRun && s.supply.level != (s.posted rawI rawV rawT).level) = true
        then (if 0 < (s.posted rawI rawV rawT).level then some 200 else none) else s.periods.shed := fun p => by
    refine (congrArg Periods.shed (publish_periods told p)).trans ?_
    show (State.restarted s w).shed = _
    rw [restarted_shed, supply, latest]
    dsimp only
    rw [shed, run, periods, level, Bool.and_right_comm, Bool.and_self]
    rfl
  by_cases changes : s.seq.phase = .run ∧ (s.posted rawI rawV rawT).level ≠ s.supply.level
  · have inRun : s.inRun = true := beq_iff_eq.mpr changes.1
    have published : w.publishes = true := pub.trans (publishes_of_run inRun)
    have differs : (s.supply.level != (s.posted rawI rawV rawT).level) = true := bne_iff_ne.mpr changes.2.symm
    rw [inRun, differs] at shed
    rw [if_pos changes, restarted published, inRun, differs]
    exact ⟨rfl, publish_carries_shed told published counters (by rw [supply]; exact latest) (run.trans inRun) calm shed⟩
  · rw [if_neg changes]
    have none : (s.inRun && s.supply.level != (s.posted rawI rawV rawT).level) = false :=
      Bool.eq_false_iff.mpr fun h =>
        have ⟨a, b⟩ := Bool.and_eq_true_iff.mp h
        changes ⟨beq_iff_eq.mp a, (bne_iff_ne.mp b).symm⟩
    cases published : w.publishes with
    | true => rw [restarted published, none]; rfl
    | false => exact (congrArg Periods.shed (publish_periods_mute told published)).trans periods

/-- SUPPLY and its period in Run (R26). -/
theorem interval_supply (own : s.seq.fns.supply = true) {f : Figures} (latest : (s.posted rawI rawV rawT).latest = some f) :
    let t := State.publish s (s.fallen rawI rawV rawT).supplyChanged
    let p := s.posted rawI rawV rawT
    if s.seq.phase = .run ∧ (p.lowVoltage ≠ s.supply.lowVoltage ∨ p.permit ≠ s.supply.permit ∨ s.supply.onNext = true) then
      t.periods.supply = some (if s.seq.storage = true then 2500 else 500)
        ∧ (s.allIdle → s.seq.values.get 28 = 0 → s.bus.periodic.length ≤ 3 → t.bus.carries f.supplyRecord)
    else t.periods.supply = s.periods.supply := by
  have told := concluded_told fits rawI rawV rawT
  have supply := concluded_supply fits rawI rawV rawT
  have run := concluded_inRun fits rawI rawV rawT
  have pub := concluded_publishes fits rawI rawV rawT
  have calm := concluded_calm fits rawI rawV rawT
  have seq := concluded_seq fits rawI rawV rawT
  have quiet := concluded_quiet fits rawI rawV rawT
  obtain ⟨m, due⟩ := concluded_due fits rawI rawV rawT
  have supplies := congrArg Due.supply due
  have counters := congrArg Due.status1 due
  have periods := congrArg Periods.supply (concluded_periods fits rawI rawV rawT)
  generalize (s.fallen rawI rawV rawT).supplyChanged = w at told supply run pub calm seq quiet supplies counters periods
  dsimp only at supplies ⊢
  generalize changed : (s.inRun && (s.supply.lowVoltage != (s.posted rawI rawV rawT).lowVoltage
    || s.supply.permit != (s.posted rawI rawV rawT).permit || s.supply.onNext)) = c at supplies
  have restarted : w.publishes = true → (State.publish s w).periods.supply
      = if c = true then some (if s.seq.storage = true then 2500 else 500) else s.periods.supply := fun p => by
    have inRun : c = true → s.inRun = true := fun e => by
      rw [← changed] at e
      exact (Bool.and_eq_true_iff.mp e).1
    refine (congrArg Periods.supply (publish_periods told p)).trans ?_
    show (State.restarted s w).supply = _
    rw [restarted_supply, supply, latest, supplies, run, seq, own, periods, State.supplyPeriodMs, seq]
    cases c with
    | true => rw [inRun rfl]; rfl
    | false => rfl
  have when : (s.seq.phase = .run ∧ ((s.posted rawI rawV rawT).lowVoltage ≠ s.supply.lowVoltage
      ∨ (s.posted rawI rawV rawT).permit ≠ s.supply.permit ∨ s.supply.onNext = true)) ↔ c = true := by
    rw [← changed]
    simp only [State.inRun, Bool.and_eq_true, Bool.or_eq_true, beq_iff_eq, bne_iff_ne, or_assoc, ne_comm]
  by_cases changes : c = true
  · rw [if_pos (when.mpr changes)]
    have inRun : s.inRun = true := beq_iff_eq.mpr (when.mpr changes).1
    have published : w.publishes = true := pub.trans (publishes_of_run inRun)
    refine ⟨by rw [restarted published, if_pos changes], fun idle item few => ?_⟩
    obtain ⟨room, still⟩ := quiet idle item few
    exact publish_carries_supply told published counters (by rw [supply]; exact latest) (run.trans inRun) calm
      (supplies.trans changes) (by rw [seq]; exact own) room still
  · rw [if_neg fun h => changes (when.mp h)]
    cases published : w.publishes with
    | true => rw [restarted published, if_neg changes]
    | false => exact (congrArg Periods.supply (publish_periods_mute told published)).trans periods

end

end Sys2Proof.Machine
end

