-- ==== Sys2Proof/Proofs/IntervalMonitor.lean ====
section
/-! PROOFS. The Supply Monitor after an interval (R2 to R23). -/

namespace Sys2Proof.Machine

/-! ### The Supply Monitor after an interval (R2 to R23) -/

section
variable (u : Supply) (v : Values) (rawI rawV rawT : Int) (clash : Bool)

/-- The Supply Monitor after an interval, Role Clash as read. -/
def Supply.interval (u : Supply) (v : Values) (rawI rawV rawT : Int) (clash : Bool) : Supply :=
  (u.counted v rawI rawV rawT).posted v rawI rawT u.lowVoltage clash

/-- The posting leaves the counter and the monitors of stages 1 to 7. -/
theorem interval_counted :
    let p := u.interval v rawI rawV rawT clash
    let c := u.counted v rawI rawV rawT
    p.q = c.q ∧ p.r = c.r ∧ p.anchored = c.anchored ∧ p.full = c.full ∧ p.empty = c.empty ∧ p.fullCount = c.fullCount
      ∧ p.restCount = c.restCount ∧ p.lowVoltage = c.lowVoltage ∧ p.lowVoltageCount = c.lowVoltageCount
      ∧ p.overrange = c.overrange ∧ p.overrangeCount = c.overrangeCount ∧ p.permit = c.permit ∧ p.permitCount = c.permitCount
      ∧ p.chginh = c.chginh := by
  unfold Supply.interval
  rw [posted_eq]
  exact ⟨rfl, rfl, rfl, rfl, rfl, rfl, rfl, rfl, rfl, rfl, rfl, rfl, rfl, rfl⟩

/-- The anchors leave what is not of the counter. -/
theorem counted_tallied :
    let c := u.counted v rawI rawV rawT
    let x := u.tallied v rawI rawV rawT
    c.lowVoltage = x.lowVoltage ∧ c.lowVoltageCount = x.lowVoltageCount ∧ c.overrange = x.overrange
      ∧ c.overrangeCount = x.overrangeCount ∧ c.permit = x.permit ∧ c.permitCount = x.permitCount ∧ c.chginh = x.chginh
      ∧ c.overdraw = u.overdraw ∧ c.overdrawCount = u.overdrawCount ∧ c.level = u.level ∧ c.escalation = u.escalation
      ∧ c.recovery = u.recovery := by
  obtain ⟨q, r, anchored, full, empty, n, m, e⟩ :=
    anchors_frame (u := u.tallied v rawI rawV rawT) (v := v) (i := clampCurrent rawI) (volts := clampVoltage rawV)
  rw [counted_eq, e]
  exact ⟨rfl, rfl, rfl, rfl, rfl, rfl, rfl, rfl, rfl, rfl, rfl, rfl⟩

/-- The sum of Step 1 as R8 gives it. -/
theorem sum_eq (i : Int) : u.sum v i
    = u.q + (if 0 < i then (((i.toNat * v.get 2 + u.r) / 100 : Nat) : Int) else i)
      ∧ ((increment (Item.efficiency v) u.r i).2 : Int)
        = if 0 < i then (((i.toNat * v.get 2 + u.r) % 100 : Nat) : Int) else u.r := by
  unfold Supply.sum increment
  split <;> exact ⟨rfl, rfl⟩

section
variable {u v rawI rawV rawT clash}

/-- Without an anchor the sum is clamped into the counter (R8, R9). -/
theorem interval_plain (full : ¬ u.fullAnchors v (clampCurrent rawI) (clampVoltage rawV)) (rest : ¬ u.restAnchors (clampCurrent rawI)) :
    let p := u.interval v rawI rawV rawT clash
    let i := clampCurrent rawI
    (p.q : Int) = max 0 (min (u.sum v i) (qFull v)) ∧ p.r = (increment (Item.efficiency v) u.r i).2 ∧ p.anchored = u.anchored
      ∧ p.fullCount = (if (Item.vfull v : Int) ≤ clampVoltage rawV ∧ 0 < i ∧ i ≤ Item.itail v then u.fullCount + 1 else 0)
      ∧ p.restCount = (if -20 ≤ i ∧ i ≤ 20 then u.restCount + 1 else 0)
      ∧ p.full = (decide ((qFull v : Int) < u.sum v i) || (u.full && decide ((qFull v : Int) ≤ u.sum v i)))
      ∧ p.empty = (decide (u.sum v i < 0) || (u.empty && decide (u.sum v i ≤ 0))) := by
  obtain ⟨q, r, anchored, isFull, isEmpty, fulls, rests, -⟩ := interval_counted u v rawI rawV rawT clash
  dsimp only
  rw [q, r, anchored, isFull, isEmpty, fulls, rests, counted_eq, anchors_none (u := u.tallied v rawI rawV rawT) full rest]
  exact ⟨Int.toNat_of_nonneg (le_max_left _ _), rfl, rfl, rfl, rfl, rfl, rfl⟩

/-- The full anchor (R13, R15). -/
theorem interval_full (full : u.fullAnchors v (clampCurrent rawI) (clampVoltage rawV)) :
    let p := u.interval v rawI rawV rawT clash
    let i := clampCurrent rawI
    p.q = qFull v ∧ p.r = 0 ∧ p.anchored = true ∧ p.fullCount = 0 ∧ p.restCount = 0
      ∧ p.full = (decide ((qFull v : Int) < u.sum v i) || (u.full && decide ((qFull v : Int) ≤ u.sum v i))) ∧ p.empty = false := by
  obtain ⟨q, r, anchored, isFull, isEmpty, fulls, rests, -⟩ := interval_counted u v rawI rawV rawT clash
  dsimp only
  rw [q, r, anchored, isFull, isEmpty, fulls, rests, counted_eq, anchors_full (u := u.tallied v rawI rawV rawT) full]
  exact ⟨rfl, rfl, rfl, rfl, rfl, rfl, rfl⟩

/-- The rest anchor (R14, R15). -/
theorem interval_rest (full : ¬ u.fullAnchors v (clampCurrent rawI) (clampVoltage rawV)) (rest : u.restAnchors (clampCurrent rawI)) :
    let p := u.interval v rawI rawV rawT clash
    let i := clampCurrent rawI
    p.q = ocvCharge v (clampVoltage rawV) * qFull v / 1000 ∧ p.r = 0 ∧ p.anchored = true ∧ p.fullCount = 0 ∧ p.restCount = 0
      ∧ p.full = ((decide ((qFull v : Int) < u.sum v i) || (u.full && decide ((qFull v : Int) ≤ u.sum v i)))
          && decide (p.q = qFull v))
      ∧ p.empty = ((decide (u.sum v i < 0) || (u.empty && decide (u.sum v i ≤ 0))) && decide (p.q = 0)) := by
  obtain ⟨q, r, anchored, isFull, isEmpty, fulls, rests, -⟩ := interval_counted u v rawI rawV rawT clash
  dsimp only
  rw [q, r, anchored, isFull, isEmpty, fulls, rests, counted_eq, anchors_rest (u := u.tallied v rawI rawV rawT) full rest]
  exact ⟨rfl, rfl, rfl, rfl, rfl, rfl, rfl⟩

end

/-- Overrange, Low Voltage and the permit with their counts (R4, R16, R20, R21). -/
theorem interval_monitors :
    let p := u.interval v rawI rawV rawT clash
    let x := u.tallied v rawI rawV rawT
    p.lowVoltage = x.lowVoltage ∧ p.lowVoltageCount = x.lowVoltageCount ∧ p.overrange = x.overrange
      ∧ p.overrangeCount = x.overrangeCount ∧ p.permit = x.permit ∧ p.permitCount = x.permitCount ∧ p.chginh = !x.permit := by
  obtain ⟨-, -, -, -, -, -, -, low, lows, range, ranges, permit, permits, inh⟩ := interval_counted u v rawI rawV rawT clash
  obtain ⟨low', lows', range', ranges', permit', permits', inh', -⟩ := counted_tallied u v rawI rawV rawT
  exact ⟨low.trans low', lows.trans lows', range.trans range', ranges.trans ranges', permit.trans permit',
    permits.trans permits', inh.trans inh'⟩

/-- The headroom of an interval, from the figures it posts (R11, R12). -/
def Supply.room (p : Supply) (v : Values) (temp : Int) : Nat := headroom v p.lowVoltage (stateOfCharge v p.q temp)

/-- Overdraw and its count (R17). -/
theorem interval_overdraw :
    let p := u.interval v rawI rawV rawT clash
    let excess := decide (((p.room v (clampTemperature rawT) + Item.baseLoad v : Nat) : Int) < -clampCurrent rawI)
    let strained := if u.overdraw = true then !excess else excess
    p.overdraw = (if u.overdraw = true then !(strained && decide (30 ≤ u.overdrawCount + 1))
        else strained && decide (10 ≤ u.overdrawCount + 1))
      ∧ p.overdrawCount = counting (if u.overdraw = true then 30 else 10) strained u.overdrawCount := by
  obtain ⟨q, -, -, -, -, -, -, low, -⟩ := interval_counted u v rawI rawV rawT clash
  obtain ⟨-, -, -, -, -, -, -, drawn, drawns, -⟩ := counted_tallied u v rawI rawV rawT
  have room : (u.interval v rawI rawV rawT clash).room v (clampTemperature rawT)
      = (u.counted v rawI rawV rawT).headroomNow v (clampTemperature rawT) := by
    unfold Supply.room
    rw [q, low]
    rfl
  dsimp only
  rw [room, ← drawn, ← drawns]
  unfold Supply.interval
  rw [posted_eq]
  exact ⟨rfl, rfl⟩

/-- The shed level and its counts (R22, R23). -/
theorem interval_level :
    let p := u.interval v rawI rawV rawT clash
    let newly := (p.overdraw && !u.overdraw) || (p.lowVoltage && !u.lowVoltage)
    p.level = (if newly = true then min 6 (u.level + 1)
        else if p.overdraw = true ∨ p.lowVoltage = true then (if 10 ≤ u.escalation + 1 then min 6 (u.level + 1) else u.level)
        else if 100 ≤ u.recovery + 1 then u.level - 1 else u.level)
      ∧ p.escalation = (if newly = true then 0
          else if p.overdraw = true ∨ p.lowVoltage = true then counting 10 true u.escalation else u.escalation)
      ∧ p.recovery = (if newly = true ∨ p.overdraw = true ∨ p.lowVoltage = true then 0
          else counting 100 (decide (0 < u.level)) u.recovery) := by
  obtain ⟨-, -, -, -, -, -, -, drawn, -, level, esc, rec⟩ := counted_tallied u v rawI rawV rawT
  dsimp only
  rw [← drawn, ← level, ← esc, ← rec]
  unfold Supply.interval
  rw [posted_eq]
  exact ⟨rfl, rfl, rfl⟩

/-- The figures posted (R2). -/
theorem interval_latest :
    let p := u.interval v rawI rawV rawT clash
    p.latest = some (p.figures v (clampCurrent rawI) (clampTemperature rawT)) ∧ p.intervalTimer = some 100 ∧ p.onNext = false
      ∧ p.roleClash = clash := by
  unfold Supply.interval
  rw [posted_eq]
  exact ⟨rfl, rfl, rfl, rfl⟩

end

end Sys2Proof.Machine
end

