-- ==== Sys2Proof/Proofs/Intervals.lean ====
section
/-! PROOFS. The accounting interval, settled (R2 to R28). -/

namespace Sys2Proof.Machine

section
variable {s : State} (fits : s.Fits) (rawI rawV rawT : Int)
include fits

/-- The first four monitors after an interval (R4, R16 to R18, R178). -/
theorem interval_summary (n : Fin 4) :
    let t := State.publish s (s.fallen rawI rawV rawT).supplyChanged
    let p := s.posted rawI rawV rawT
    let old := [s.supply.overrange, s.supply.lowVoltage, s.supply.overdraw, s.supply.roleClash].getD n.val false
    let new := [p.overrange, p.lowVoltage, p.overdraw, p.roleClash].getD n.val false
    let place : Fin 19 := ⟨n.val, by omega⟩
    t.status.summary.get place = if old = new then s.status.summary.get place else new := by
  obtain ⟨-, -, -, -, -, -, -, low, -, range, -⟩ :=
    interval_counted s.supply s.seq.values rawI rawV rawT (s.entries.any Entry.clashes)
  have handed := publish_handedOver s _ (concluded_told fits rawI rawV rawT)
  obtain ⟨k, tended⟩ := concluded_tended fits rawI rawV rawT
  have away : ¬ heard ⟨n.val, by omega⟩ := fun h => by
    have : 11 ≤ n.val := h.1
    omega
  have same : (s.fallen rawI rawV rawT).status = (s.turned rawI rawV rawT).status := by rw [fallen_rest]
  have turns := turned_summary s rawI rawV rawT n
  dsimp only at turns ⊢
  rw [handed.status, tended.summary _ away, same, turns]
  have range' : (s.posted rawI rawV rawT).overrange = (s.counted rawI rawV rawT).overrange := range
  have low' : (s.posted rawI rawV rawT).lowVoltage = (s.counted rawI rawV rawT).lowVoltage := low
  rw [range', low']

/-- The fields of the part that an interval leaves, or sets whole (R2, R28, R48). -/
theorem interval_fields (own : s.seq.fns.supply = true) :
    let t := State.publish s (s.fallen rawI rawV rawT).supplyChanged
    let p := s.posted rawI rawV rawT
    t.pins = s.pins ∧ t.view = s.view ∧ t.seq = s.seq ∧ t.supply = p
      ∧ t.cell = { s.cell with q := p.q, r := p.r, anchored := p.anchored } ∧ t.broker.level = p.level := by
  have handed := publish_handedOver s _ (concluded_told fits rawI rawV rawT)
  have rest := fallen_rest s rawI rawV rawT
  dsimp only
  refine ⟨?_, ?_, ?_, ?_, ?_, ?_⟩
  · rw [handed.pins, (concluded_base fits rawI rawV rawT).pins, rest]
  · rw [handed.view, concluded_view fits]
  · rw [handed.seq, concluded_seq fits]
  · rw [handed.supply, concluded_supply fits]
  · rw [handed.cell, concluded_cell fits]
  · rw [handed.broker, supplyChanged_level (fallen_sane rawI rawV rawT fits.sound.sane).ok (by rw [rest]; exact own), rest]
    rfl

end

/-- The derating as R10 gives it. -/
theorem derating_eq (v : Values) (temp : Int) : derating (Item.lithium v) (wholeDegrees temp)
    = if 20 ≤ temp / 10 then 1000 else (max 500 (1000 - (if v.get 1 = 1 then 3 else 8) * (20 - temp / 10)) : Int).toNat := by
  unfold derating wholeDegrees Item.lithium
  simp only [beq_iff_eq]

/-- C_use as R10 gives it. -/
def usableBy (v : Values) (temp : Int) : Nat := v.get 0 * 3600000
  * (if 20 ≤ temp / 10 then 1000 else (max 500 (1000 - (if v.get 1 = 1 then 3 else 8) * (20 - temp / 10)) : Int).toNat) / 1000

theorem usableCapacity_eq (v : Values) (temp : Int) : usableCapacity v temp = usableBy v temp := by
  unfold usableBy
  rw [← derating_eq]
  rfl

theorem available_eq (v : Values) (q : Nat) (temp : Int) : available v q temp =
    let full := v.get 0 * 3600000
    let cuse := usableBy v temp
    q - (full - cuse) := by
  dsimp only
  rw [← usableCapacity_eq]
  rfl

theorem stateOfCharge_eq (v : Values) (q : Nat) (temp : Int) : stateOfCharge v q temp =
    let full := v.get 0 * 3600000
    let cuse := usableBy v temp
    (q - (full - cuse)) * 1000 / cuse := by
  dsimp only
  rw [← usableCapacity_eq]
  rfl

theorem trendOf_eq (p : Supply) (i : Int) : trendOf p i = if p.full = true ∨ p.empty = true then .atBound else if 20 < i then .charging
    else if i < -20 then .discharging else .rest := by
  unfold trendOf
  simp only [Bool.or_eq_true]

/-- The headroom as R12 gives it, from the state of charge of R11. -/
theorem room_eq (p : Supply) (v : Values) (temp : Int) : p.room v temp =
    let full := v.get 0 * 3600000
    let cuse := usableBy v temp
    let soc := (p.q - (full - cuse)) * 1000 / cuse
    if p.lowVoltage = true then 0 else if v.get 3 + 100 ≤ soc then v.get 4
      else if v.get 3 < soc then v.get 4 * (soc - v.get 3) / 100 else 0 := by
  dsimp only
  rw [← usableCapacity_eq]
  rfl

theorem lithium_eq (v : Values) : Item.lithium v = decide (v.get 1 = 1) := by
  rw [Bool.eq_iff_iff, decide_eq_true_iff, Item.lithium, beq_iff_eq]

/-- The permit as R20 and R21 give it. -/
theorem permitNow_eq (u : Supply) (v : Values) (temp : Int) : u.permitNow v temp
    = if v.get 1 = 1 then (if u.permit = true then decide (0 ≤ temp)
        else decide (20 ≤ temp) && decide (50 ≤ u.permitCount + 1)) else true := by
  unfold Supply.permitNow
  rw [lithium_eq]
  simp only [decide_eq_true_iff]

theorem clashes_eq (s : State) :
    s.entries.any Entry.clashes = s.entries.any fun e => e.kind == .supply && e.subject == 0 && e.fresh.live := by
  rw [Bool.eq_iff_iff, List.any_eq_true, List.any_eq_true]
  refine exists_congr fun e => and_congr_right fun m => ?_
  rw [Entry.clashes, (mem_entries.mp m).1, Bool.true_and]

end Sys2Proof.Machine

namespace Sys2Proof.Proofs
open Sys2Proof.Machine

/-- Settles O43, from the state the interval leaves before the usable SUPPLY is chosen afresh, the stages of the Supply
Monitor as updates of its record, and the lanes after the records of the step. -/
theorem accountingInterval : Obligations.AccountingInterval := by
  intro s rawI rawV rawT fits own runs
  refine ⟨_, interval_done fits rawI rawV rawT own runs, ?_⟩
  have fit : Values.fit s.seq.values := fits.values.1
  obtain ⟨latest, timer, onNext, clash⟩ := interval_latest s.supply s.seq.values rawI rawV rawT (s.entries.any Entry.clashes)
  have shed := interval_shed fits rawI rawV rawT latest rfl
  have supplies := interval_supply fits rawI rawV rawT own latest
  have summary := interval_summary fits rawI rawV rawT
  obtain ⟨pins, view, seq, supply, cell, level⟩ := interval_fields fits rawI rawV rawT own
  generalize State.publish s (s.fallen rawI rawV rawT).supplyChanged = t at shed supplies summary pins view seq supply cell level ⊢
  have posted : s.posted rawI rawV rawT = s.supply.interval s.seq.values rawI rawV rawT (s.entries.any Entry.clashes) := rfl
  rw [posted] at shed supplies summary supply cell level
  have plain := interval_plain (u := s.supply) (v := s.seq.values) (rawI := rawI) (rawV := rawV) (rawT := rawT)
    (clash := s.entries.any Entry.clashes)
  have fulls := interval_full (u := s.supply) (v := s.seq.values) (rawI := rawI) (rawV := rawV) (rawT := rawT)
    (clash := s.entries.any Entry.clashes)
  have rests := interval_rest (u := s.supply) (v := s.seq.values) (rawI := rawI) (rawV := rawV) (rawT := rawT)
    (clash := s.entries.any Entry.clashes)
  obtain ⟨low, lows, range, ranges, permit, permits, inh⟩ :=
    interval_monitors s.supply s.seq.values rawI rawV rawT (s.entries.any Entry.clashes)
  obtain ⟨drawn, drawns⟩ := interval_overdraw s.supply s.seq.values rawI rawV rawT (s.entries.any Entry.clashes)
  obtain ⟨next, escalation, recovery⟩ := interval_level s.supply s.seq.values rawI rawV rawT (s.entries.any Entry.clashes)
  rw [supply]
  generalize s.supply.interval s.seq.values rawI rawV rawT (s.entries.any Entry.clashes) = p at *
  refine ⟨pins, view, seq, timer, ?_, ?_, ?_, ?_, ?_, ?_, low, lows, ?_, ?_, range, ranges, ?_, ?_, ?_, ?_, ?_, ?_, ?_, ?_, ?_,
    level, onNext, ?_, ?_⟩
  · intro full rest
    obtain ⟨q, r, anchored, -⟩ := plain full rest
    obtain ⟨sums, rem⟩ := sum_eq s.supply s.seq.values (clampCurrent rawI)
    rw [sums] at q
    exact ⟨q, r ▸ rem, anchored⟩
  · intro full
    obtain ⟨q, r, anchored, -⟩ := fulls full
    exact ⟨q, r, anchored⟩
  · intro full rest
    obtain ⟨q, r, anchored, -⟩ := rests full rest
    exact ⟨r, anchored, _, q, fun le => ocvCharge_low _ _ le, fun le => ocvCharge_high fit le,
      fun k le lt => ocvCharge_between fit k le lt⟩
  · intro anchors
    by_cases full : s.supply.fullAnchors s.seq.values (clampCurrent rawI) (clampVoltage rawV)
    · obtain ⟨-, -, -, none, none', -⟩ := fulls full
      exact ⟨none, none'⟩
    · obtain ⟨-, -, -, none, none', -⟩ := rests full (anchors.resolve_left full)
      exact ⟨none, none'⟩
  · intro full rest
    obtain ⟨-, -, -, count, count', -⟩ := plain full rest
    exact ⟨count, count'⟩
  · rw [cell]
  · rw [room_eq] at drawn
    exact drawn
  · rw [room_eq] at drawns
    exact drawns
  · rw [clash, clashes_eq]
  · exact permit.trans (permitNow_eq s.supply s.seq.values (clampTemperature rawT))
  · refine permits.trans ?_
    show counting 50 (Item.lithium s.seq.values && _ && _) _ = _
    rw [lithium_eq]
    rfl
  · rw [inh, permit]
  · exact summary
  · exact next
  · intro newly
    rw [escalation]
    exact if_pos newly
  · intro newly strain
    rw [escalation]
    exact (if_neg (by rw [newly]; exact nofun)).trans (if_pos strain)
  · exact recovery
  · obtain ⟨sums, -⟩ := sum_eq s.supply s.seq.values (clampCurrent rawI)
    dsimp only at plain fulls rests
    rw [sums] at plain fulls rests
    by_cases full : s.supply.fullAnchors s.seq.values (clampCurrent rawI) (clampVoltage rawV)
    · obtain ⟨-, -, -, -, -, isFull, isEmpty⟩ := fulls full
      exact ⟨isFull.trans (if_neg fun h => h.1 full).symm, isEmpty.trans (if_pos full).symm⟩
    · by_cases rest : s.supply.restAnchors (clampCurrent rawI)
      · obtain ⟨-, -, -, -, -, isFull, isEmpty⟩ := rests full rest
        exact ⟨isFull.trans (if_pos ⟨full, rest⟩).symm, isEmpty.trans ((if_neg full).trans (if_pos rest)).symm⟩
      · obtain ⟨-, -, -, -, -, isFull, isEmpty⟩ := plain full rest
        exact ⟨isFull.trans (if_neg fun h => rest h.2).symm, isEmpty.trans ((if_neg full).trans (if_neg rest)).symm⟩
  · refine ⟨_, latest, rfl, rfl, ?_, rfl, rfl, rfl, ?_, ?_, ?_, rfl, rfl, rfl, rfl, rfl, rfl, rfl, ?_, shed, supplies⟩
    · exact trendOf_eq _ _
    · exact usableCapacity_eq _ _
    · exact stateOfCharge_eq _ _ _
    · exact room_eq _ _ _
    · exact available_eq _ _ _

end Sys2Proof.Proofs
end

