-- ==== Sys2Proof/Proofs/EntryNotices.lean ====
section
/-! PROOFS. The monitors' NOTICEs on entry into Run (R181, R182). -/

namespace Sys2Proof.Machine

/-! ### The monitors' NOTICEs on entry into Run (R181, R182) -/

/-- The NOTICE of declaration of a monitor, with the summary and the count as they stand. -/
def standingNotice (s : State) (n : Fin 19) : Record := noticeRecord s n true

/-- The part after the NOTICEs of the declared monitors in a list. -/
def State.notified (s : State) (l : List (Fin 19)) : State := { s with
  status := { s.status with attention := s.status.attention || l.any fun n => s.status.summary.get n && attentionClass n }
  bus := (l.filter fun n => s.status.summary.get n).foldl
    (fun b n => (b.join s.now { record := standingNotice s n, tag := 0 }).build s.now) s.bus }

theorem notice_step {s : State} (run : s.inRun = true) (n : Fin 19) :
    (if s.status.summary.get n then (s.hand (noticeRecord s n true) 0).raiseAttention n true else s) = s.notified [n] := by
  unfold State.notified
  cases declared : s.status.summary.get n with
  | false => simp [declared]
  | true =>
    have run' : (s.hand (noticeRecord s n true) 0).inRun = true := run
    unfold State.raiseAttention
    cases attends : attentionClass n with
    | false => simp [declared, attends]; rfl
    | true => simp [declared, attends, run']; rfl

theorem notified_append {s : State} (l m : List (Fin 19)) : (s.notified l).notified m = s.notified (l ++ m) := by
  unfold State.notified
  simp only [List.any_append, List.filter_append, List.foldl_append, Bool.or_assoc]
  rfl

theorem notices_eq {s : State} (run : s.inRun = true) (l : List (Fin 19)) :
    l.foldl (fun s n => if s.status.summary.get n then (s.hand (noticeRecord s n true) 0).raiseAttention n true else s) s
      = s.notified l := by
  induction l generalizing s with
  | nil => simp [State.notified]
  | cons n l ih =>
    rw [List.foldl_cons, notice_step run, ih (show (s.notified [n]).inRun = true from run), notified_append]
    rfl

theorem runEntryNotices_eq {s : State} (run : s.inRun = true) : s.runEntryNotices = s.notified fin19 := notices_eq run fin19

theorem fin19_eq : fin19 = List.finRange 19 := by decide

theorem mem_fin19 (n : Fin 19) : n ∈ fin19 := by decide +revert

theorem attentionClass_eq (n : Fin 19) : attentionClass n = decide (n.val ∈ [1, 2, 3, 9, 10, 11, 12, 13, 16, 17]) := by
  decide +revert

theorem notified_attention (s : State) : (s.notified fin19).status.attention = true ↔ s.status.attention = true
    ∨ ∃ n : Fin 19, n.val ∈ [1, 2, 3, 9, 10, 11, 12, 13, 16, 17] ∧ s.status.summary.get n = true := by
  show (_ || _) = true ↔ _
  rw [Bool.or_eq_true, List.any_eq_true]
  refine or_congr_right ⟨fun ⟨n, _, e⟩ => ?_, fun ⟨n, m, e⟩ => ⟨n, mem_fin19 n, ?_⟩⟩
  · rw [Bool.and_eq_true, attentionClass_eq, decide_eq_true_iff] at e
    exact ⟨n, e.2, e.1⟩
  · rw [Bool.and_eq_true, attentionClass_eq, decide_eq_true_iff]
    exact ⟨e, m⟩

/-! ### The lane after the NOTICEs (R171) -/

theorem notices_roomy (s : State) {b : Bus} {k : Nat} (le : k ≤ 7) (l : List (Fin 19)) (h : b.roomy k) :
    (l.foldl (fun b n => (b.join s.now { record := standingNotice s n, tag := 0 }).build s.now) b).roomy k := by
  induction l generalizing b with
  | nil => exact h
  | cons n l ih => exact ih (Bus.build_roomy s.now (Bus.join_roomy s.now 0 rfl rfl le h).1)

/-- The last of the declared monitors in a list that ascends. -/
theorem filter_last {s : State} {k : Fin 19} (declared : s.status.summary.get k = true)
    (last : ∀ m, s.status.summary.get m = true → m ≤ k) :
    ∃ l, fin19.filter (fun n => s.status.summary.get n) = l ++ [k] := by
  have ascends : (fin19.filter fun n => s.status.summary.get n).Pairwise (· < ·) :=
    List.Pairwise.filter _ (by decide)
  have m : k ∈ fin19.filter fun n => s.status.summary.get n := List.mem_filter.mpr ⟨mem_fin19 k, declared⟩
  have all : ∀ n ∈ fin19.filter fun n => s.status.summary.get n, n ≤ k := fun n h => last n (List.mem_filter.mp h).2
  generalize fin19.filter (fun n => s.status.summary.get n) = l at ascends m all
  obtain ⟨pre, post, rfl⟩ := List.append_of_mem m
  cases post with
  | nil => exact ⟨pre, rfl⟩
  | cons x post =>
    have less : k < x := by
      have p := (List.pairwise_append.mp ascends).2.1
      exact (List.pairwise_cons.mp p).1 x List.mem_cons_self
    exact absurd (all x (by simp)) (not_le.mpr less)

/-- The Gatherer holds the NOTICE of the last declared monitor (R171, R181). -/
theorem notified_holds {s : State} {k : Nat} (le : k ≤ 7) (room : s.bus.roomy k) {n : Fin 19} (declared : s.status.summary.get n = true)
    (last : ∀ m, s.status.summary.get m = true → m ≤ n) : (s.notified fin19).bus.holds (standingNotice s n) := by
  obtain ⟨l, e⟩ := filter_last declared last
  show Bus.holds (List.foldl _ s.bus (fin19.filter _)) _
  rw [e, List.foldl_append]
  exact Bus.build_holds s.now (Bus.join_roomy s.now 0 rfl rfl le (notices_roomy s le l room)).2

/-- The first part of O21: a monitor's change (R181, R182). -/
theorem monitor_changes (s : State) (n : Fin 19) (d : Bool) : let t := s.monitor n d
    (∀ k, t.status.summary.get k = if k = n then d else s.status.summary.get k)
      ∧ t.status.changeCount = min (s.status.changeCount + 1) 255 ∧ t.due = { s.due with status2 := true }
      ∧ t.status.attention = (s.status.attention
          || (d && decide (n.val ∈ [1, 2, 3, 9, 10, 11, 12, 13, 16, 17]) && decide (s.seq.phase = .run)))
      ∧ (s.seq.phase ≠ .run → t.bus = s.bus)
      ∧ (s.seq.phase = .run → s.bus.periodic.length ≤ 7 → t.bus.carries (Record.mk 0 (.notice
          { summary := t.status.summary.items, monitor := n.val, declared := d, count := t.status.changeCount })))
      ∧ t.status.lastRequest = s.status.lastRequest ∧ t.status.outcome = s.status.outcome := by
  dsimp only
  rw [monitor_eq]
  refine ⟨fun k => ?_, ?_, rfl, ?_, fun out => ?_, fun run few => ?_, rfl, rfl⟩
  · show (s.status.summary.set n d).get k = _
    rw [Tab.get_set]
    simp only [eq_comm]
  · rfl
  · show (_ || (d && attentionClass n && s.inRun)) = _
    rw [attentionClass_eq]
    rfl
  · exact if_neg fun e => out (beq_iff_eq.mp e)
  · have inRun : s.inRun = true := beq_iff_eq.mpr run
    show Bus.carries (if s.inRun = true then _ else _) _
    rw [if_pos inRun]
    exact Bus.holds.carries (Bus.build_holds s.now (Bus.join_roomy s.now 0 rfl rfl (k := 7) le_rfl (.inl few)).2)

end Sys2Proof.Machine
end

