-- ==== Sys2Proof/Proofs/EntryStages.lean ====
section
/-! PROOFS. The stages of entry into Run, and what each keeps (R184). -/

namespace Sys2Proof.Machine

/-! ### The stages of entry into Run (R184) -/

/-- Run has begun, and no block has acted yet. -/
def State.entersRun (s : State) : State := s.setSeq { s.seq with phase := .run, phaseTimer := none }

/-- The first records are due, and the NOTICEs of the declared monitors have gone out. -/
def State.noticed (s : State) : State :=
  (s.entersRun.setDue (s.entersRun.due.atRun (decide (0 < s.entersRun.supply.level)))).runEntryNotices

/-- The heater has followed, after the Water Manager. -/
def State.heated (s : State) : State := s.noticed.waterEntersRun.frostService.heaterFollows

/-- The Motion Controller has acted, after the pad. -/
def State.motored (s : State) : State :=
  if s.heated.padFollows.seq.fns.motion then s.heated.padFollows.motionEntersRun else s.heated.padFollows

theorem runEntered_eq (s : State) : s.runEntered = s.motored.ceilingFollows.courtesyFollows none := by
  unfold State.runEntered State.motored State.heated State.noticed State.entersRun
  dsimp only

/-- The part as the blocks find it on entry into Run. -/
theorem noticed_eq (s : State) : s.noticed = { s with
    seq := { s.seq with phase := .run, phaseTimer := none }
    status := s.noticed.status, bus := s.noticed.bus, due := s.due.atRun (decide (0 < s.supply.level)) } := by
  unfold State.noticed
  rw [runEntryNotices_eq rfl]
  rfl

theorem noticed_seq (s : State) : s.noticed.seq = { s.seq with phase := .run, phaseTimer := none } := by rw [noticed_eq]

theorem noticed_inRun (s : State) : s.noticed.inRun = true := by rw [State.inRun, noticed_seq]; rfl

/-- What the blocks do on entry into Run, for a scope that takes in their claims and monitors. -/
structure Scope.Entry (k : Scope) : Prop where
  pump : k.loads loadPump
  heater : k.loads loadHeater
  pad : k.loads loadPad
  motors : ∀ ch, k.loads (loadMotor ch)
  lit : ∀ g, k.loads (loadLights g)
  valve : k.mons Mon.valveFault
  travel : ∀ ch, k.mons (Mon.travelFault ch)
  stall : ∀ ch, k.mons (Mon.stall ch)

section
variable (k : Scope) (n : Nat) (s : State)

theorem lightsEnter_tends (lit : ∀ g, k.loads (loadLights g)) : Tends k n s (s.ceilingFollows.courtesyFollows none) := by
  have lit : ∀ g, Fact (k.loads (loadLights g)) := fun g => ⟨lit g⟩
  exact (ceilingFollows_tends s).trans (courtesyFollows_tends _ none)

theorem motored_tends (travel : ∀ ch, k.mons (Mon.travelFault ch)) (stall : ∀ ch, k.mons (Mon.stall ch))
    (motors : ∀ ch, k.loads (loadMotor ch)) (lit : ∀ g, k.loads (loadLights g)) :
    Tends k n s.heated.padFollows s.motored := by
  have motors : ∀ ch, Fact (k.loads (loadMotor ch)) := fun ch => ⟨motors ch⟩
  have lit : ∀ g, Fact (k.loads (loadLights g)) := fun g => ⟨lit g⟩
  unfold State.motored
  exact Tends.ite (fun _ => motionEntersRun_tends travel stall _) fun _ => Tends.refl k n _

theorem heated_tends (pump : k.loads loadPump) (heater : k.loads loadHeater) (valve : k.mons Mon.valveFault) :
    Tends k n s.noticed s.heated := by
  have pump : Fact (k.loads loadPump) := ⟨pump⟩
  have heater : Fact (k.loads loadHeater) := ⟨heater⟩
  unfold State.heated
  exact (waterEntersRun_tends valve _).trans ((frostService_tends _).trans (heaterFollows_tends _))

theorem runEntered_tends (entry : k.Entry) : Tends k n s.noticed s.runEntered := by
  have pad : Fact (k.loads loadPad) := ⟨entry.pad⟩
  rw [runEntered_eq]
  exact (heated_tends k n s entry.pump entry.heater entry.valve).trans ((padFollows_tends _).trans
    ((motored_tends k n s entry.travel entry.stall entry.motors entry.lit).trans (lightsEnter_tends k n _ entry.lit)))

theorem heated_calm : Calm s.noticed s.heated := by
  unfold State.heated
  exact (waterEntersRun_calm _).trans ((frostService_calm _).trans (heaterFollows_calm _))

theorem motored_steady : Steady s.heated.padFollows s.motored := by
  unfold State.motored
  exact Steady.ite (fun _ => motionEntersRun_steady _) fun _ => Steady.refl _

theorem runEntered_steady : Steady s.noticed s.runEntered := by
  rw [runEntered_eq]
  exact (heated_calm s).steady.trans ((padFollows_calm _).steady.trans ((motored_steady s).trans
    ((ceilingFollows_calm _).trans (courtesyFollows_calm _ none)).steady))

end

/-! ### A part that leaves Calibrate, in order -/

section
variable {s : State} (fits : s.Fits) (calibrates : s.seq.phase = .calibrate)
include calibrates

theorem calibrates_inRun : s.inRun = false := by rw [State.inRun, calibrates]; rfl

theorem calibrates_inReset : s.inReset = false := by rw [State.inReset, calibrates]; rfl

theorem entry_done (expires : s.seq.phaseTimer.isSome = true) :
    exec .calibrateTimerExpiry s = .next (State.publish s s.runEntered) := by
  show done s _ = _
  rw [if_pos ⟨calibrates, expires⟩]
  rfl

include fits

theorem calibrates_idle : s.allIdle := fits.order.idle (calibrates_inRun calibrates)

theorem noticed_order : s.noticed.Ok ∧ s.noticed.Order (Part.but Part.whole .frost) := by
  have leads : Leads Part.whole (Part.but Part.whole .frost) s s.noticed :=
    (enterRun_leads (calibrates_inRun calibrates) (calibrates_inReset calibrates)).trans
      ((setDue_leads s.entersRun _).trans (runEntryNotices_leads _))
  exact leads fits.sound.sane.ok fits.order

theorem runEntered_order : s.runEntered.Ok ∧ s.runEntered.Order Part.whole :=
  runEntered_leads s (calibrates_inRun calibrates) (calibrates_inReset calibrates) fits.sound.sane.ok fits.order

end

end Sys2Proof.Machine
end

