-- ==== Sys2Proof/Proofs/EntryPeriods.lean ====
section
/-! PROOFS. The periods on entry into Run (R24, R26, R101, R121, R141, R145, R160, R178). -/

namespace Sys2Proof.Machine

/-! ### The periods on entry into Run (R24, R26, R101, R121, R141, R145, R160, R178) -/

/-- Entry into Run reaches every claim of the five blocks and the monitors of the valve and the motors. -/
def entryReach : Scope :=
  { mons := fun n => n = Mon.valveFault ∨ ∃ ch, n = Mon.travelFault ch ∨ n = Mon.stall ch, loads := fun _ => True, hands := False }

theorem entryReach_entry : entryReach.Entry :=
  ⟨trivial, trivial, trivial, fun _ => trivial, fun _ => trivial, .inl rfl, fun ch => .inr ⟨ch, .inl rfl⟩, fun ch => .inr ⟨ch, .inr rfl⟩⟩

section
variable {s : State} (fits : s.Fits) (calibrates : s.seq.phase = .calibrate)
include fits calibrates

theorem entered_base : State.Base s.noticed s.runEntered :=
  (runEntered_steady s (noticed_order fits calibrates).1).2.1

theorem entered_seq : s.runEntered.seq = { s.seq with phase := .run, phaseTimer := none } :=
  (entered_base fits calibrates).seq.trans (noticed_seq s)

theorem entered_inRun : s.runEntered.inRun = true := by rw [State.inRun, entered_seq fits calibrates]; rfl

theorem entered_view : s.runEntered.view = s.view := (entered_base fits calibrates).view.trans (by rw [noticed_eq])

theorem entered_pins : s.runEntered.pins = s.pins := (entered_base fits calibrates).pins.trans (by rw [noticed_eq])

theorem entered_supply : s.runEntered.supply = s.supply := (entered_base fits calibrates).supply.trans (by rw [noticed_eq])

theorem entered_told : s.runEntered.view.changes = [] := by
  rw [entered_view fits calibrates]
  exact fits.sound.quiet.1

theorem entered_publishes : s.runEntered.publishes = true := publishes_of_run (entered_inRun fits calibrates)

theorem entered_tended : ∃ n, Tended entryReach n s.noticed s.runEntered := by
  obtain ⟨n, w⟩ := waitWithin_exists s.noticed
  exact ⟨n, (runEntered_tends entryReach n s entryReach_entry (noticed_order fits calibrates).1 w).2.2⟩

theorem entered_level : s.runEntered.broker.level = s.broker.level := by
  obtain ⟨n, tended⟩ := entered_tended fits calibrates
  exact (tended.levels.1 nofun).1.trans (by rw [noticed_eq])

theorem entered_marks : ∃ m, s.runEntered.due = { Due.reset.atRun (decide (0 < s.supply.level)) with
    status2 := s.runEntered.due.status2, motion := m } ∧ ∀ ch, m.get ch = true := by
  obtain ⟨n, tended⟩ := entered_tended fits calibrates
  have marks := tended.marks nofun
  have due : s.noticed.due = Due.reset.atRun (decide (0 < s.supply.level)) := by
    rw [noticed_eq]
    show s.due.atRun _ = _
    rw [fits.sound.quiet.2.1]
  have same := marks.due
  have motion := marks.motion
  rw [due] at same motion
  refine ⟨_, same, fun ch => motion ch ?_⟩
  match ch with
  | 0 => rfl
  | 1 => rfl

/-- The Gatherer's offers of entry into Run come from a state in which everything but STATUS subject 1 is due. -/
theorem entered_counters : s.runEntered.due.status1 = false := by
  obtain ⟨m, due, -⟩ := entered_marks fits calibrates
  rw [due]
  rfl

theorem entered_periods : ∃ x, (State.publish s s.runEntered).periods = { State.restarted s s.runEntered with interlock := x } :=
  ⟨_, publish_periods (entered_told fits calibrates) (entered_publishes fits calibrates)⟩

theorem entered_status_period : (State.publish s s.runEntered).periods.status = some (if s.seq.storage = true then 5000 else 1000) := by
  obtain ⟨m, due, -⟩ := entered_marks fits calibrates
  obtain ⟨x, periods⟩ := entered_periods fits calibrates
  rw [periods]
  dsimp only
  rw [restarted_status, due, entered_inRun fits calibrates, State.statusPeriodMs, entered_seq fits calibrates]
  rfl

theorem entered_supply_period (own : s.seq.fns.supply = true) {f : Figures} (latest : s.supply.latest = some f) :
    (State.publish s s.runEntered).periods.supply = some (if s.seq.storage = true then 2500 else 500)
      ∧ (0 < s.supply.level → 0 < f.level → (State.publish s s.runEntered).periods.shed = some 200) := by
  obtain ⟨m, due, -⟩ := entered_marks fits calibrates
  obtain ⟨x, periods⟩ := entered_periods fits calibrates
  rw [periods]
  refine ⟨?_, fun sheds some => ?_⟩
  · dsimp only
    rw [restarted_supply, due, entered_inRun fits calibrates, State.supplyPeriodMs, entered_seq fits calibrates,
      entered_supply fits calibrates, latest, own]
    rfl
  · dsimp only
    rw [restarted_shed, due, entered_inRun fits calibrates, entered_supply fits calibrates, latest, decide_eq_true sheds]
    exact if_pos some

theorem entered_tank_period (own : s.seq.fns.water = true) (k : Fin 3) :
    (State.publish s s.runEntered).periods.tank.get k = some 5000 := by
  obtain ⟨m, due, -⟩ := entered_marks fits calibrates
  obtain ⟨x, periods⟩ := entered_periods fits calibrates
  rw [periods]
  dsimp only
  rw [restarted_tank, due, entered_inRun fits calibrates, entered_seq fits calibrates]
  have all : (Tab.fill 3 true).get k = true := by decide +revert
  show (if (s.seq.fns.water && true && ((Tab.fill 3 true).get k || _)) = true then _ else _) = _
  rw [own, all]
  rfl

theorem entered_climate_period (own : s.seq.fns.heat = true) (z : Fin 2) :
    (State.publish s s.runEntered).periods.climate.get z = some 5000 := by
  obtain ⟨m, due, -⟩ := entered_marks fits calibrates
  obtain ⟨x, periods⟩ := entered_periods fits calibrates
  rw [periods]
  dsimp only
  rw [restarted_climate, due, entered_inRun fits calibrates, entered_seq fits calibrates]
  have all : (Tab.fill 2 true).get z = true := by decide +revert
  show (if (s.seq.fns.heat && true && ((Tab.fill 2 true).get z || _)) = true then _ else _) = _
  rw [own, all]
  rfl

theorem entered_light_period (own : s.seq.fns.lights = true) (ch : Fin 8) :
    (State.publish s s.runEntered).periods.light.get ch = some 5000 := by
  obtain ⟨m, due, -⟩ := entered_marks fits calibrates
  obtain ⟨x, periods⟩ := entered_periods fits calibrates
  rw [periods]
  dsimp only
  rw [restarted_light, due, entered_inRun fits calibrates, entered_seq fits calibrates]
  have all : (Tab.fill 8 true).get ch = true := by decide +revert
  show (if (s.seq.fns.lights && true && ((Tab.fill 8 true).get ch || _ || _)) = true then _ else _) = _
  rw [own, all]
  rfl

theorem entered_motionRuns (own : s.seq.fns.motion = true) : s.runEntered.motionRuns = true := by
  rw [State.motionRuns, entered_inRun fits calibrates, entered_seq fits calibrates, own]
  rfl

theorem entered_motion_period (own : s.seq.fns.motion = true) (ch : Fin 2) :
    ((State.publish s s.runEntered).periods.motion.get ch).isSome = true
      ∧ (s.view.driveAccepted = true → ((State.publish s s.runEntered).chan ch).st ≠ .retracted →
          (State.publish s s.runEntered).periods.interlock.get ch = some 200) := by
  obtain ⟨m, due, moves⟩ := entered_marks fits calibrates
  have runs := entered_motionRuns fits calibrates own
  constructor
  · obtain ⟨x, periods⟩ := entered_periods fits calibrates
    rw [periods]
    dsimp only
    rw [restarted_motion, due, runs]
    show Option.isSome (if (true && (m.get ch || _)) = true then _ else _) = true
    rw [moves]
    rfl
  · intro drive away
    have handed := publish_handedOver s _ (entered_told fits calibrates)
    rw [handed.chan] at away
    have violated : s.runEntered.inViolation ch = true := by
      rw [State.inViolation, runs, entered_view fits calibrates, drive, bne_iff_ne.mpr away]
      rfl
    have before : s.inViolation ch = false := by
      rw [State.inViolation, State.motionRuns, calibrates_inRun calibrates, Bool.and_false]
      rfl
    rw [publish_periods_interlock (entered_told fits calibrates) (entered_publishes fits calibrates), if_pos violated,
      restarted_interlock, violated, before, Bool.not_false, Bool.or_true]
    rfl

end

end Sys2Proof.Machine
end

