-- ==== Sys2Proof/Proofs/PumpAtRest.lean ====
section
/-! PROOFS. The pump's claim before Run, and an ask that starts no contest (R36, R37, R86). -/

namespace Sys2Proof.Machine

/-! ### An ask that starts no contest, every claim being Idle (R36, R37) -/

/-- A Try that fails its pre-test marks its claim alone, which stays Idle. -/
theorem try_refused_eq {s : State} (o : s.Ok) {id : Fin 7} {rank a : Nat} (some : 1 ≤ a) (le : a ≤ 30000)
    (idle : (s.claim id).st = .idle) (pos : rank ≠ 0) (fails : s.passes id rank a = false) :
    ∃ x : Claim, x.st = .idle ∧ s.ask id rank a true = (s.setClaim id x, .refused) := by
  have draws : (s.claim id).drawing = false := by simp [Claim.drawing, idle]
  have same : s.abandonContest id = s := if_neg (by rw [idle]; nofun)
  have min_eq : min a 30000 = a := by omega
  rw [ask_idle_eq o rank a true some draws, if_neg pos, min_eq, if_neg (by rw [fails]; nofun), same, if_pos rfl]
  exact ⟨_, rfl, rfl⟩

theorem setClaim_allIdle {s : State} (idle : s.allIdle) (id : Fin 7) {x : Claim} (st : x.st = .idle) : (s.setClaim id x).allIdle := by
  intro j
  by_cases e : j = id
  · subst e
    rw [claim_setClaim_self]
    exact st
  · rw [claim_setClaim_ne _ _ e]
    exact idle j

/-! ### The pump's claim on entry into Run (R86, R91, R92, R102) -/

/-- A claim that asks for an amount at a rank: it contests or waits. -/
def Claim.asksAt (c : Claim) (rank a : Nat) : Prop := (c.st = .contest ∨ c.st = .waiting) ∧ c.rank = rank ∧ c.asked = a

theorem Claim.asksAt.away {c : Claim} {rank a : Nat} (h : c.asksAt rank a) : c.st ≠ .idle := by
  rcases h.1 with e | e <;> rw [e] <;> nofun

/-- In Run, in order, with every claim Idle and no cycle that has the pump. -/
structure State.PumpRests (s : State) : Prop where
  ok : s.Ok
  fitted : s.seq.fns.water = true
  run : s.inRun = true
  draw : 1 ≤ Item.pumpDraw s.seq.values ∧ Item.pumpDraw s.seq.values ≤ 30000
  idle : s.allIdle
  free : s.water.cycle.holdsClaim = false
  calm : s.water.demand = false

theorem State.PumpRests.due {s : State} (h : s.PumpRests) : s.DuePump :=
  ⟨h.ok, h.fitted, h.run, h.draw, by rw [h.idle]; nofun, h.calm⟩

theorem State.PumpRests.undrawn {s : State} (h : s.PumpRests) : (s.claim loadPump).drawing = false := by
  simp [Claim.drawing, h.idle _]

/-- A change of the Water Manager's own figures leaves the pump at rest. -/
theorem State.PumpRests.setWater {s : State} (h : s.PumpRests) (w : Water) (free : w.cycle.holdsClaim = false)
    (calm : w.demand = false) : (s.setWater w).PumpRests :=
  ⟨(setWater_calm s w h.ok).1, h.fitted, h.run, h.draw, h.idle, free, calm⟩

theorem State.PumpRests.timing {s : State} (h : s.PumpRests) (ms : Nat) : (s.timing ms).PumpRests :=
  h.setWater _ rfl h.calm

section
variable {s : State} (rests : s.PumpRests)
include rests

/-- Without a wish for the pump the demand path leaves all but the pump's own output. -/
theorem demandFollows_rested (not : s.demandWants = false) :
    s.demandFollows = s.setWater { s.water with pump := false, runawayTimer := none } := by
  rw [demandFollows_runs rests.fitted rests.run]
  have acts : s.demandActs = s := by
    unfold State.demandActs
    rw [if_neg (by simp [rests.free]), if_neg (by simp [not]), if_pos (rests.idle _)]
  rw [acts, pumpFollows_eq]
  unfold State.pumped
  rw [pumpOn_idle (rests.idle _)]
  rfl

/-- With a wish for the pump it asks at rank 5. -/
theorem demandFollows_wished (wants : s.demandWants = true) :
    (s.demandFollows.claim loadPump).asksAt 5 (Item.pumpDraw s.seq.values) ∧ (s.demandFollows.claim loadPump).single = false := by
  rw [demandFollows_asks rests.fitted rests.run rests.free rests.ok rests.draw wants (rests.idle _)]
  split
  · exact ⟨⟨.inl rfl, rfl, rfl⟩, rfl⟩
  · exact ⟨⟨.inr rfl, rfl, rfl⟩, rfl⟩

theorem demandFollows_undrawn : (s.demandFollows.claim loadPump).drawing = false := by
  cases wants : s.demandWants with
  | false =>
    rw [demandFollows_rested rests wants]
    exact rests.undrawn
  | true =>
    obtain ⟨⟨e | e, -⟩, -⟩ := demandFollows_wished rests wants <;> simp [Claim.drawing, e]

theorem demandFollows_pump_off : s.demandFollows.water = { s.water with pump := false, runawayTimer := none } := by
  rw [demandFollows_water rests.fitted rests.run rests.ok]
  unfold State.pumped
  rw [pumpOn_undrawn (demandFollows_undrawn rests)]
  rfl

/-- The demand path has nothing more to do once it has acted. -/
theorem demandFollows_again : s.demandFollows.demandFollows = s.demandFollows := by
  have water := demandFollows_pump_off rests
  have undrawn := demandFollows_undrawn rests
  obtain ⟨-, same, -⟩ := demandFollows_calm s rests.ok
  have wants' : s.demandFollows.demandWants = s.demandWants :=
    demandWants_congr same.pins (by rw [water]) (by rw [water]) (by rw [water]) same.seq
  have acts : s.demandFollows.demandActs = s.demandFollows := by
    unfold State.demandActs
    rw [water, wants']
    rw [if_neg (by simp [rests.free])]
    cases wants : s.demandWants with
    | false =>
      rw [if_neg nofun, if_pos]
      rw [demandFollows_rested rests wants]
      exact rests.idle _
    | true => rw [if_pos rfl, if_neg (demandFollows_wished rests wants).1.away]
  rw [demandFollows_runs (by rw [same.seq]; exact rests.fitted) (by rw [State.inRun, same.seq]; exact rests.run), acts,
    pumpFollows_eq]
  unfold State.pumped
  rw [pumpOn_undrawn undrawn]
  generalize s.demandFollows = t at *
  show { t with water := _ } = t
  cases t
  subst water
  rfl

end

end Sys2Proof.Machine
end

