-- ==== Sys2Proof/Proofs/EntryWater.lean ====
section
/-! PROOFS. The Water Manager's stage of entry into Run (R92, R98, R102). -/

namespace Sys2Proof.Machine

/-! ### The Water Manager's stage of entry into Run (R92, R102) -/

/-- DUMP is driven toward the dump command. -/
def State.dumpDriven (s : State) : State :=
  s.setWater { s.water with dumpDrive := if s.water.dumpCmdOpen then .toOpen else .toClosed }

/-- A cycle that fell due before Run is taken. -/
def State.dueTaken (s : State) : State :=
  if s.water.cycle = .timing ∧ s.water.dueOnRun then (s.timing 0).takeDue else s

theorem waterEntersRun_eq {s : State} (fitted : s.seq.fns.water = true) :
    s.waterEntersRun = s.dumpDriven.dueTaken.demandFollows := by
  unfold State.waterEntersRun
  rw [if_pos fitted]
  rfl

theorem waterEntersRun_unfitted {s : State} (unfitted : s.seq.fns.water = false) : s.waterEntersRun = s := by
  unfold State.waterEntersRun
  rw [if_neg (by rw [unfitted]; nofun)]

/-- A NOTICE may have been handed over, and nothing else has reached the lanes. -/
def Bus.noticedAt (now : Nat) (b c : Bus) : Prop :=
  c = b ∨ ∃ r : Record, r.kind = .notice ∧ r.subject = 0 ∧ c = (b.join now ⟨r, 0⟩).build now

/-- Nothing but the Water Manager's own figures has changed, the pump is at rest, and its monitor is silent where no Valve
Fault stands. -/
structure State.Spared (s w : State) : Prop where
  rests : w.PumpRests
  seq : w.seq = s.seq
  pins : w.pins = s.pins
  view : w.view = s.view
  supply : w.supply = s.supply
  climate : w.climate = s.climate
  motion : w.motion = s.motion
  lights : w.lights = s.lights
  due : s.water.valveFault = false → w.due = s.due
  bus : s.water.valveFault = false → w.bus = s.bus
  guard : w.water.guard = s.water.guard
  lane : Bus.noticedAt s.now s.bus w.bus
  others : ∀ id ≠ loadPump, w.claim id = s.claim id

theorem State.PumpRests.spared {s : State} (h : s.PumpRests) : s.Spared s :=
  ⟨h, rfl, rfl, rfl, rfl, rfl, rfl, rfl, fun _ => rfl, fun _ => rfl, rfl, .inl rfl, fun _ _ => rfl⟩

/-- A Force that is refused an Idle claim leaves it Idle, and nothing else changes (R47). -/
theorem force_refused_eq {s : State} (o : s.Ok) {id : Fin 7} (a : Nat) (idle : (s.claim id).st = .idle)
    (short : s.forcedCondition = false) : s.force id a = (s.setClaim id (s.claim id).toIdle, .refused) := by
  have same : s.abandonContest id = s := if_neg (by rw [idle]; nofun)
  unfold State.force
  rw [same, readSupply_checked o.checked]
  dsimp only
  rw [if_neg (by rw [short]; nofun), idle]

/-- The valve's timing says nothing where no Valve Fault stands (R100). -/
theorem valveTiming_mute {s : State} (well : s.water.valveFault = false) :
    s.valveTiming.due = s.due ∧ s.valveTiming.bus = s.bus ∧ s.valveTiming.status = s.status := by
  unfold State.valveTiming
  dsimp only
  split
  · rw [if_neg (by rw [well]; nofun)]
    exact ⟨rfl, rfl, rfl⟩
  · exact ⟨rfl, rfl, rfl⟩

/-- The valve's timing hands over no more than its own NOTICE (R100, R181). -/
theorem valveTiming_lane {s : State} (run : s.inRun = true) : Bus.noticedAt s.now s.bus s.valveTiming.bus := by
  unfold State.valveTiming
  dsimp only
  split
  · split
    · rw [monitor_eq]
      refine .inr ⟨_, ?_, ?_, if_pos run⟩
      · rfl
      · rfl
    · exact .inl rfl
  · exact .inl rfl

/-- The valve's timing leaves all blocks but its own. -/
theorem valveTiming_blocks (s : State) : s.valveTiming.climate = s.climate ∧ s.valveTiming.motion = s.motion
    ∧ s.valveTiming.lights = s.lights := by
  unfold State.valveTiming
  dsimp only
  split
  · split
    · rw [monitor_eq]
      exact ⟨rfl, rfl, rfl⟩
    · exact ⟨rfl, rfl, rfl⟩
  · exact ⟨rfl, rfl, rfl⟩

section
variable {s w : State} (spared : s.Spared w)
include spared

theorem State.Spared.setWater (x : Water) (free : x.cycle.holdsClaim = false) (calm : x.demand = false)
    (guard : x.guard = w.water.guard) : s.Spared (w.setWater x) where
  rests := spared.rests.setWater x free calm
  seq := spared.seq
  pins := spared.pins
  view := spared.view
  supply := spared.supply
  climate := spared.climate
  motion := spared.motion
  lights := spared.lights
  due := spared.due
  bus := spared.bus
  guard := guard.trans spared.guard
  lane := spared.lane
  others := spared.others

theorem State.Spared.setClaim {x : Claim} (ok : (w.setClaim loadPump x).Ok) (st : x.st = .idle) :
    s.Spared (w.setClaim loadPump x) where
  rests := ⟨ok, spared.rests.fitted, spared.rests.run, spared.rests.draw, setClaim_allIdle spared.rests.idle loadPump st,
    spared.rests.free, spared.rests.calm⟩
  seq := spared.seq
  pins := spared.pins
  view := spared.view
  supply := spared.supply
  climate := spared.climate
  motion := spared.motion
  lights := spared.lights
  due := spared.due
  bus := spared.bus
  guard := spared.guard
  lane := spared.lane
  others id ne := by rw [claim_setClaim_ne _ _ ne]; exact spared.others id ne

end

section
variable {s : State} (rests : s.PumpRests)
include rests

/-- The state in which a cycle whose pre-test fails is postponed, before the tap's demand follows (R94). -/
theorem takeDue_defers (fresh : s.freshOk = true) (owed : s.water.owed < 4)
    (fails : s.passes loadPump 1 (Item.pumpDraw s.seq.values) = false) :
    ∃ w, s.Spared w ∧ s.takeDue = w.demandFollows
      ∧ w.water = { s.water with
          cycle := .timing, owed := s.water.owed + 1, dueTimer := some (Item.frostIntervalMs s.seq.values)
          dueOnRun := false, circTimer := none } := by
  have free : (s.claim loadPump).st ≠ .held := by rw [rests.idle]; nofun
  rw [takeDue_tries fresh owed free]
  obtain ⟨one, le⟩ := rests.draw
  have asks := setWater_calm s { s.water with cycle := .asking, dueTimer := none, dueOnRun := false } rests.ok
  generalize hu : s.setWater { s.water with cycle := .asking, dueTimer := none, dueOnRun := false } = u at asks
  have idle : (u.claim loadPump).st = .idle := by rw [← hu]; exact rests.idle _
  have fails' : u.passes loadPump 1 (Item.pumpDraw s.seq.values) = false := by rw [← hu]; exact fails
  obtain ⟨x, st, asked⟩ := try_refused_eq asks.1 one le idle (by decide) fails'
  have ok := (ask_asks u loadPump 1 (Item.pumpDraw s.seq.values) true (by decide) asks.1).1
  rw [asked] at ok ⊢
  dsimp only at ok ⊢
  have calm : (u.setClaim loadPump x).water.demand = false := by rw [← hu]; exact rests.calm
  rw [cyclePostponed_eq calm]
  have least : min 4 (s.water.owed + 1) = s.water.owed + 1 := by omega
  subst hu
  have okw : (s.setClaim loadPump x).Ok := (setWater_calm _ s.water ok).1
  refine ⟨_, ((rests.spared.setClaim okw st).setWater _ ?_ ?_ ?_), rfl, ?_⟩
  · rfl
  · exact rests.calm
  · rfl
  · show { s.water with
      cycle := .timing, owed := min 4 (s.water.owed + 1), dueTimer := some (Item.frostIntervalMs s.seq.values)
      dueOnRun := false, circTimer := none } = _
    rw [least]

/-- The state in which the dump valve has opened, before the tap's demand follows (R92, R98). -/
theorem takeDue_opens (fresh : s.freshOk = true) (owed : ¬ s.water.owed < 4) (timing : s.water.cycle = .timing)
    (short : s.forcedCondition = false) : ∃ w, s.Spared w ∧ s.takeDue = w.demandFollows := by
  have eq : s.takeDue = match s.force loadPump (Item.pumpDraw s.seq.values) with
      | (s, .granted) => s.enterCirculating
      | (s, _) => s.openDump := by
    unfold State.takeDue
    dsimp only
    rw [if_neg (by simp [fresh]), if_neg owed] <;> rfl
  have ok := (force_asks s loadPump (Item.pumpDraw s.seq.values) rests.ok).1
  rw [eq]
  rw [force_refused_eq rests.ok _ (rests.idle _) short] at ok ⊢
  dsimp only at ok ⊢
  have at_rest := rests.spared.setClaim ok (x := (s.claim loadPump).toIdle) rfl
  generalize hv : s.setClaim loadPump (s.claim loadPump).toIdle = v at ok at_rest ⊢
  have cycle : v.water.cycle = .timing := by rw [← hv]; exact timing
  have fault : v.water.valveFault = s.water.valveFault := by rw [← hv]; rfl
  have opens := setWater_calm v { v.water with dumpCmdOpen := true, dumpDrive := .toOpen, dumpCount := 0 } ok
  obtain ⟨okx, base, -⟩ := (valveTiming_calm _) opens.1
  have said : s.water.valveFault = false → _ := fun well => valveTiming_mute
    (s := v.setWater { v.water with dumpCmdOpen := true, dumpDrive := .toOpen, dumpCount := 0 }) (fault.trans well)
  have blocks := valveTiming_blocks (v.setWater { v.water with dumpCmdOpen := true, dumpDrive := .toOpen, dumpCount := 0 })
  have water := valveTiming_water (v.setWater { v.water with dumpCmdOpen := true, dumpDrive := .toOpen, dumpCount := 0 })
  have noticed : Bus.noticedAt s.now s.bus (v.setWater { v.water with
      dumpCmdOpen := true, dumpDrive := .toOpen, dumpCount := 0 }).valveTiming.bus := by
    rw [← hv]
    exact valveTiming_lane (s := (s.setClaim loadPump (s.claim loadPump).toIdle).setWater _) rests.run
  have claim := valveTiming_claim (v.setWater { v.water with dumpCmdOpen := true, dumpDrive := .toOpen, dumpCount := 0 })
  have opened : v.openDump = ((v.setWater { v.water with
    dumpCmdOpen := true, dumpDrive := .toOpen, dumpCount := 0 }).valveTiming).drain := rfl
  rw [opened]
  generalize (v.setWater { v.water with dumpCmdOpen := true, dumpDrive := .toOpen, dumpCount := 0 }).valveTiming = x at *
  have calm : x.water.demand = false := by
    rw [water]
    split
    · exact at_rest.rests.calm
    · exact at_rest.rests.calm
  have timed : x.water.cycle = .timing := by
    rw [water]
    split
    · exact cycle
    · exact cycle
  have guard : x.water.guard = v.water.guard := by
    rw [water]
    split
    · rfl
    · rfl
  have drains : x.drain = (x.setWater { x.water with
      cycle := .drained, owed := 0, dueTimer := none, dueOnRun := false, circTimer := none }).demandFollows := by
    unfold State.drain
    have none : x.setDemand false = x := if_pos calm
    rw [none]
    dsimp only
    rw [if_neg (by rw [timed]; nofun)]
  have spared : s.Spared x :=
    { rests := ⟨okx, by rw [base.seq]; exact at_rest.rests.fitted, by rw [State.inRun, base.seq]; exact at_rest.rests.run
        , by rw [base.seq]; exact at_rest.rests.draw, fun id => by rw [claim id]; exact at_rest.rests.idle id
        , by rw [timed]; rfl, calm⟩
      seq := base.seq.trans at_rest.seq, pins := base.pins.trans at_rest.pins, view := base.view.trans at_rest.view
      supply := base.supply.trans at_rest.supply, climate := blocks.1.trans at_rest.climate
      motion := blocks.2.1.trans at_rest.motion, lights := blocks.2.2.trans at_rest.lights
      due := fun well => (said well).1.trans (at_rest.due well), bus := fun well => (said well).2.1.trans (at_rest.bus well)
      guard := guard.trans at_rest.guard, lane := noticed
      others := fun id ne => (claim id).trans (at_rest.others id ne) }
  exact ⟨x.setWater { x.water with cycle := .drained, owed := 0, dueTimer := none, dueOnRun := false, circTimer := none },
    spared.setWater _ rfl calm rfl, drains⟩

/-- With four owed and the charge at the floor the claim is Forced (R47, R92). -/
theorem takeDue_forced (fresh : s.freshOk = true) (owed : ¬ s.water.owed < 4) (charged : s.forcedCondition = true) :
    s.takeDue.water.cycle = .circulating ∧ (s.takeDue.claim loadPump).st = .forced := by
  have forces := takeDue_forces rests.due fresh owed
  rw [forcedCondition_eq] at charged
  rw [if_pos charged] at forces
  exact ⟨by rw [forces.1], by rw [forces.2]⟩

end

end Sys2Proof.Machine
end

