-- ==== Sys2Proof/Proofs/EntryMutes.lean ====
section
/-! PROOFS. What entry into Run leaves of the monitors, block by block (R181, R182). -/

namespace Sys2Proof.Machine

/-! ### What entry into Run leaves of the monitors (R181, R182) -/

/-- From an orderly state the attention flag stays, no monitor is declared, and where the part is clean none clears. -/
def Mutes (clean : Prop) (s t : State) : Prop := s.Ok → t.Ok ∧ t.status.attention = s.status.attention
  ∧ (∀ n, t.status.summary.get n = true → s.status.summary.get n = true)
  ∧ (clean → t.status.summary = s.status.summary ∧ t.status.changeCount = s.status.changeCount)

section
variable {clean : Prop}

theorem Mutes.refl (s : State) : Mutes clean s s := fun o => ⟨o, rfl, fun _ => id, fun _ => ⟨rfl, rfl⟩⟩

theorem Mutes.trans {s t u : State} (h : Mutes clean s t) (k : Mutes clean t u) : Mutes clean s u := fun o => by
  obtain ⟨ok, attention, fewer, stands⟩ := h o
  obtain ⟨ok', attention', fewer', stands'⟩ := k ok
  exact ⟨ok', attention'.trans attention, fun n m => fewer n (fewer' n m),
    fun c => ⟨(stands' c).1.trans (stands c).1, (stands' c).2.trans (stands c).2⟩⟩

theorem Mutes.ite {c : Prop} [Decidable c] {s a b : State} (h : c → Mutes clean s a) (k : ¬ c → Mutes clean s b) :
    Mutes clean s (if c then a else b) := by
  split
  · exact h ‹_›
  · exact k ‹_›

theorem Hushed.mutes {s t : State} (h : Hushed s t) : Mutes clean s t := fun o => by
  obtain ⟨ok, status⟩ := h o
  rw [status]
  exact ⟨ok, rfl, fun _ => id, fun _ => ⟨rfl, rfl⟩⟩

theorem reviseOutcome_mutes (s : State) (req out : Nat) : Mutes clean s (s.reviseOutcome req out) := fun o => by
  refine ⟨(reviseOutcome_calm s req out o).1, ?_⟩
  unfold State.reviseOutcome
  split
  · exact ⟨rfl, fun _ => id, fun _ => ⟨rfl, rfl⟩⟩
  · exact ⟨rfl, fun _ => id, fun _ => ⟨rfl, rfl⟩⟩

/-- A monitor that clears. -/
theorem clears_mutes {s t : State} (n : Fin 19) (ok : s.Ok → t.Ok) (status : t.status = s.status) (unclean : ¬ clean) :
    Mutes clean s (t.monitor n false) := fun o => by
  refine ⟨(monitor_calm t n false (ok o)).1, ?_, fun m => ?_, fun c => absurd c unclean⟩
  · rw [monitor_attention, status]
    simp
  · rw [monitor_eq]
    show (t.status.summary.set n false).get m = true → _
    rw [Tab.get_set, status]
    split
    · exact nofun
    · exact id

/-! ### The Water Manager -/

theorem setWater_hushed (s : State) (w : Water) : Hushed s (s.setWater w) := (setWater_calm s w).hushed rfl

theorem pumpFollows_hushed (s : State) : Hushed s s.pumpFollows := setWater_hushed s _

theorem demandFollows_hushed (s : State) : Hushed s s.demandFollows := fun o => ⟨(demandFollows_calm s o).1, demandFollows_status o⟩

theorem setDemand_hushed (s : State) (d : Bool) : Hushed s (s.setDemand d) :=
  Hushed.ite (fun _ => Hushed.refl s) (fun _ => (setWater_hushed s _).trans (frostService_hushed _))

theorem enterCirculating_hushed (s : State) : Hushed s s.enterCirculating :=
  (setWater_hushed s _).trans ((setDemand_hushed _ true).trans (pumpFollows_hushed _))

theorem cyclePostponed_hushed (s : State) : Hushed s s.cyclePostponed :=
  (setDemand_hushed s false).trans ((setWater_hushed _ _).trans ((setWater_hushed _ _).trans (demandFollows_hushed _)))

theorem pumpReleased_hushed (s : State) : Hushed s s.pumpReleased := (setWater_hushed s _).trans (release_asks _ _).hushed

theorem drain_hushed (s : State) : Hushed s s.drain :=
  (setDemand_hushed s false).trans ((setWater_hushed _ _).trans
    (Hushed.ite (fun _ => (pumpReleased_hushed _).trans (demandFollows_hushed _)) fun _ => demandFollows_hushed _))

theorem valveTiming_mutes (s : State) (well : clean → s.water.valveFault = false) : Mutes clean s s.valveTiming := by
  unfold State.valveTiming
  refine Mutes.ite (fun _ => ?_) fun _ => (setWater_hushed s _).mutes
  refine Mutes.ite (fun faulty => ?_) fun _ => (setWater_hushed s _).mutes
  have faulty : s.water.valveFault = true := faulty
  refine clears_mutes Mon.valveFault (fun o => ((setWater_calm s _).trans (setWater_calm _ _) o).1) rfl fun c => ?_
  rw [well c] at faulty
  cases faulty

theorem openDump_mutes (s : State) (well : clean → s.water.valveFault = false) : Mutes clean s s.openDump := by
  have timed := valveTiming_mutes (s.setWater { s.water with dumpCmdOpen := true, dumpDrive := .toOpen, dumpCount := 0 }) well
  exact (setWater_hushed s _).mutes.trans (timed.trans (drain_hushed _).mutes)

theorem takeDue_mutes (s : State) (well : clean → s.water.valveFault = false) : Mutes clean s s.takeDue := by
  unfold State.takeDue
  refine Mutes.ite (fun _ => (setWater_hushed s _).mutes) fun _ => Mutes.ite (fun _ => ?_) fun _ => ?_
  · refine Mutes.ite (fun _ => ((rerank_asks s loadPump 1 (by decide)).hushed.trans (enterCirculating_hushed _)).mutes) fun _ => ?_
    have put := setWater_hushed s { s.water with cycle := .asking, dueTimer := none, dueOnRun := false }
    have asked : Hushed _ _ := (ask_asks (s.setWater { s.water with cycle := .asking, dueTimer := none, dueOnRun := false })
      loadPump 1 (Item.pumpDraw s.seq.values) true (by decide)).hushed
    split
    · next t e =>
      rw [e] at asked
      exact (put.trans (asked.trans (cyclePostponed_hushed t))).mutes
    · next t r _ e =>
      rw [e] at asked
      exact (put.trans asked).mutes
  · have forced : Hushed s _ := (force_asks s loadPump (Item.pumpDraw s.seq.values)).hushed
    have water := (force_shared s loadPump (Item.pumpDraw s.seq.values)).water
    split
    · next t e =>
      rw [e] at forced
      exact (forced.trans (enterCirculating_hushed t)).mutes
    · next t r _ e =>
      rw [e] at forced water
      exact forced.mutes.trans (openDump_mutes t fun c => by rw [show t.water = s.water from water]; exact well c)

theorem waterEntersRun_mutes (s : State) (well : clean → s.water.valveFault = false) : Mutes clean s s.waterEntersRun := by
  unfold State.waterEntersRun
  refine Mutes.ite (fun _ => ?_) fun _ => Mutes.refl s
  refine (setWater_hushed s _).mutes.trans (Mutes.trans (Mutes.ite (fun _ => ?_) fun _ => Mutes.refl _) (demandFollows_hushed _).mutes)
  exact (setWater_hushed _ _).mutes.trans (takeDue_mutes _ well)

/-! ### The Motion Controller -/

section
variable (s : State) (ch : Fin 2)

theorem clearStall_mutes (free : clean → (s.chan ch).stalled = false) : Mutes clean s (s.clearStall ch) := by
  unfold State.clearStall
  refine Mutes.ite (fun stalled => ?_) fun _ => Mutes.refl s
  refine clears_mutes (Mon.stall ch) (fun o => setChan_ok o ch _) rfl fun c => ?_
  rw [free c] at stalled
  cases stalled

theorem clearTravelFault_mutes (free : clean → (s.chan ch).travelFault = false) : Mutes clean s (s.clearTravelFault ch) := by
  unfold State.clearTravelFault
  refine Mutes.ite (fun stalled => ?_) fun _ => Mutes.refl s
  refine clears_mutes (Mon.travelFault ch) (fun o => setChan_ok o ch _) rfl fun c => ?_
  rw [free c] at stalled
  cases stalled

/-- The channel shows neither a Stall nor a Travel Fault. -/
def Chan.sound (c : Chan) : Prop := c.stalled = false ∧ c.travelFault = false

variable {s ch} (sound : clean → (s.chan ch).sound)
include sound

theorem arriveAt_mutes : Mutes clean s (s.arriveAt ch) := by
  unfold State.arriveAt
  dsimp only
  have braked := brake_puts s ch (if (s.chan ch).pending == .extend then .extend else .none)
    (if (s.chan ch).pending == .extend then (s.chan ch).req else 0) false
  have hushed := brake_hushed s ch (if (s.chan ch).pending == .extend then .extend else .none)
    (if (s.chan ch).pending == .extend then (s.chan ch).req else 0) false
  generalize s.brake ch _ _ false = u at braked hushed ⊢
  have chanU : clean → (u.chan ch).sound := fun c => by
    rw [braked.chan]
    exact sound c
  have cleared := clearStall_mutes u ch fun c => (chanU c).1
  have chanV := (clearStall_puts u ch).chan
  refine hushed.mutes.trans (cleared.trans (Mutes.ite (fun _ => Mutes.refl _) fun _ => clearTravelFault_mutes _ ch fun c => ?_))
  rw [chanV]
  exact (chanU c).2

theorem startMove_mutes (m : Move) : Mutes clean s (s.startMove ch m) := by
  rw [startMove_eq]
  have begins : Mutes clean s (s.moveBegins ch m) := fun o => by
    refine ⟨moveBegins_ok s ch m o, ?_⟩
    rw [(moveBegins_rest s ch m).2.2.2.2]
    exact (reviseOutcome_mutes s _ _ o).2
  have chanU : clean → ((s.moveBegins ch m).chan ch).sound := fun c => by
    rw [(moveBegins_puts s ch m).chan]
    exact sound c
  generalize s.moveBegins ch m = u at begins chanU ⊢
  refine begins.trans ((stepSeen_hushed u ch).mutes.trans (Mutes.ite (fun _ => arriveAt_mutes fun c => ?_) fun _ => Mutes.refl _))
  rw [chan_of_motion (stepSeen_motion u ch)]
  exact chanU c

omit sound in
theorem endPending_mutes (out : Nat) : Mutes clean s (s.endPending ch out) := fun o => by
  have ends := (endPending_ended o out (ch := ch)).2.2
  refine ⟨(endPending_steady s ch out o).1, ?_⟩
  rw [ends]
  exact (reviseOutcome_mutes s _ _ o).2

theorem tryStart_mutes : Mutes clean s (s.tryStart ch) := by
  unfold State.tryStart
  refine Mutes.ite (fun _ => Mutes.refl s) fun _ => ?_
  split
  · split
    · exact startMove_mutes sound _
    · exact endPending_mutes _
  · exact Mutes.ite (fun _ => (release_asks s _).hushed.mutes) fun _ => startMove_mutes sound _
  · exact Mutes.ite (fun _ => (release_asks s _).hushed.mutes) fun _ => startMove_mutes sound _
  · exact Mutes.refl s

theorem actOnPending_mutes : Mutes clean s (s.actOnPending ch) := by
  have protects : clean → ((s.claimProtective ch).chan ch).sound := fun c => by
    rw [chan_of_motion (claimProtective_motion s ch)]
    exact sound c
  have requests : clean → ((s.claimRequested ch).chan ch).sound := fun c => by
    rw [chan_of_motion (claimRequested_motion ch s)]
    exact sound c
  unfold State.actOnPending
  refine Mutes.ite (fun _ => Mutes.refl s) fun _ => ?_
  split
  · exact Mutes.ite (fun _ => Mutes.refl s) fun _ => (claimProtective_hushed s ch).mutes.trans (tryStart_mutes protects)
  · exact Mutes.ite (fun _ => Mutes.refl s) fun _ => (claimRequested_hushed s ch).mutes.trans (tryStart_mutes requests)
  · exact (claimRequested_hushed s ch).mutes.trans (tryStart_mutes requests)
  · exact Mutes.refl s

theorem pendProtective_mutes : Mutes clean s (s.pendProtective ch) := by
  intro o
  obtain ⟨ok, chanN, -⟩ := replacedByNeed_rest o (ch := ch)
  have replaced : Mutes clean s (s.replacedByNeed ch) := reviseOutcome_mutes s _ _
  unfold State.pendProtective
  dsimp only
  generalize s.replacedByNeed ch = u at *
  have freed : Hushed u (if (u.pins.hold || (u.chan ch).calibrating) = true then u.release (loadMotor ch) else u) :=
    Hushed.ite (fun _ => (release_asks u _).hushed) fun _ => Hushed.refl u
  have motion : (if (u.pins.hold || (u.chan ch).calibrating) = true then u.release (loadMotor ch) else u).motion = u.motion := by
    split
    · exact (release_shared u _).motion
    · rfl
  generalize (if (u.pins.hold || (u.chan ch).calibrating) = true then u.release (loadMotor ch) else u) = v at freed motion ⊢
  have pends : Hushed v (v.setChan ch { v.chan ch with pending := .protective, req := 0, idle := none }) :=
    fun o => ⟨setChan_ok o ch _, rfl⟩
  have soundV : clean → ((v.setChan ch { v.chan ch with pending := .protective, req := 0, idle := none }).chan ch).sound :=
    fun c => by
      rw [chan_setChan_self]
      show (v.chan ch).sound
      rw [chan_of_motion motion, chanN]
      exact sound c
  exact (replaced.trans (freed.mutes.trans (pends.mutes.trans (actOnPending_mutes soundV)))) o

/-- A need that meets a channel at rest with nothing pending (R138). -/
theorem needDue_mutes (rest : (s.chan ch).atRest = true) (none : (s.chan ch).pending = .none) : Mutes clean s (s.needDue ch) := by
  cases runs : s.motionRuns with
  | false =>
    have same : s.needDue ch = s := by
      unfold State.needDue
      rw [if_pos (by rw [runs]; rfl)]
    rw [same]
    exact Mutes.refl s
  | true =>
    by_cases home : s.atHome ch
    · rw [needDue_home runs home]
      unfold State.extendMeetsNeed
      rw [if_neg (by rw [none]; nofun)]
      exact Mutes.refl s
    · rw [needDue_rest runs rest home, if_neg (by rw [none]; nofun)]
      exact pendProtective_mutes sound

end

end

end Sys2Proof.Machine
end

