-- ==== Sys2Proof/Proofs/EntryMonitors.lean ====
section
/-! PROOFS. The monitors over entry into Run (R181, R182, R184). -/

namespace Sys2Proof.Machine

theorem padFollows_hushed (s : State) : Hushed s s.padFollows := fun o => by
  refine ⟨(padFollows_calm s o).1, ?_⟩
  unfold State.padFollows
  rw [readSupply_checked o.checked, readAll_checked o.checked]
  split
  · have okU := (setClimate_calm s { s.climate with padWanted := s.padWantedNow } o).1
    dsimp only
    generalize hu : s.setClimate { s.climate with padWanted := s.padWantedNow } = u at okU ⊢
    have status : u.status = s.status := by rw [← hu]; rfl
    split
    · split
      · exact ((ask_asks u loadPad 2 (Item.padDraw u.seq.values) false (by decide)).hushed okU).2.trans status
      · exact status
    · have okV := (setClimate_calm u { u.climate with pad := false } okU).1
      exact ((release_asks _ loadPad).hushed okV).2.trans status
  · rfl

/-! ### The monitors over entry into Run (R181, R182, R184) -/

/-- No channel shows a fault and no Valve Fault stands. -/
def State.faultless (s : State) : Prop := (∀ ch, (s.chan ch).sound) ∧ s.water.valveFault = false

section
variable {s : State} (fits : s.Fits) (calibrates : s.seq.phase = .calibrate)
include fits calibrates

/-- Before Run a channel is at rest with nothing pending (R124). -/
theorem calibrates_rests (ch : Fin 2) : (s.chan ch).atRest = true ∧ (s.chan ch).pending = .none := by
  have order := (chanFits_iff s ch).mp (fits.motion ch)
  have still : s.motionRuns = false := by rw [State.motionRuns, calibrates_inRun calibrates, Bool.and_false]
  have active := mt order.active (by rw [still]; nofun)
  rw [not_or] at active
  exact ⟨by simpa using active.1, by simpa using active.2⟩

theorem heated_ok : s.heated.Ok := (heated_calm s (noticed_order fits calibrates).1).1

theorem padded_ok : s.heated.padFollows.Ok := (padFollows_calm _ (heated_ok fits calibrates)).1

theorem padded_motion : s.heated.padFollows.motion = s.motion := by
  have heat := (heated_calm s (noticed_order fits calibrates).1).2.2
  have pad := (padFollows_calm _ (heated_ok fits calibrates)).2.2
  rw [pad, heat, noticed_eq]

theorem padded_base : State.Base s.noticed s.heated.padFollows :=
  ((heated_calm s).trans (padFollows_calm _) (noticed_order fits calibrates).1).2.1

theorem motored_mutes {clean : Prop} (sound : ∀ ch, clean → (s.chan ch).sound) : Mutes clean s.heated.padFollows s.motored := by
  unfold State.motored
  have chan : ∀ ch, s.heated.padFollows.chan ch = s.chan ch := fun ch => chan_of_motion (padded_motion fits calibrates) ch
  have ok := padded_ok fits calibrates
  generalize s.heated.padFollows = u at chan ok ⊢
  refine Mutes.ite (fun _ => ?_) fun _ => Mutes.refl u
  have rests : ∀ ch, (u.chan ch).atRest = true ∧ (u.chan ch).pending = .none := fun ch => by
    rw [chan]
    exact calibrates_rests fits calibrates ch
  have first : Mutes clean u (if u.needs 0 then u.needDue 0 else u) :=
    Mutes.ite (fun _ => needDue_mutes (fun c => by rw [chan]; exact sound 0 c) (rests 0).1 (rests 0).2) fun _ => Mutes.refl u
  have other : (if u.needs 0 then u.needDue 0 else u).chan 1 = u.chan 1 := by
    split
    · exact (needDue_other ok (show (1 : Fin 2) ≠ 0 by decide)).1
    · rfl
  unfold State.motionEntersRun
  dsimp only
  refine first.trans (Mutes.ite (fun _ => needDue_mutes (fun c => ?_) ?_ ?_) fun _ => Mutes.refl _)
  · rw [other, chan]
    exact sound 1 c
  · rw [other]
    exact (rests 1).1
  · rw [other]
    exact (rests 1).2

theorem runEntered_mutes : Mutes s.faultless s.noticed s.runEntered := by
  rw [runEntered_eq]
  have water := waterEntersRun_mutes (clean := s.faultless) s.noticed fun c => by rw [noticed_eq]; exact c.2
  have heat : Mutes s.faultless s.noticed s.heated := by
    unfold State.heated
    exact water.trans ((frostService_hushed _).mutes.trans (heaterFollows_hushed _).mutes)
  exact heat.trans ((padFollows_hushed _).mutes.trans ((motored_mutes fits calibrates fun ch c => c.1 ch).trans
    ((ceilingFollows_hushed _).mutes.trans (courtesyFollows_hushed _ none).mutes)))

/-- Of the status the end of Calibrate sets the attention flag, and declares no monitor (R181, R182). -/
theorem entered_status : let t := State.publish s s.runEntered
    (t.status.attention = true ↔ s.status.attention = true
        ∨ ∃ n : Fin 19, n.val ∈ [1, 2, 3, 9, 10, 11, 12, 13, 16, 17] ∧ s.status.summary.get n = true)
      ∧ (∀ n, t.status.summary.get n = true → s.status.summary.get n = true)
      ∧ (s.faultless → t.status.summary = s.status.summary ∧ t.status.changeCount = s.status.changeCount) := by
  dsimp only
  obtain ⟨-, attention, fewer, stands⟩ := runEntered_mutes fits calibrates (noticed_order fits calibrates).1
  rw [(publish_handedOver s _ (entered_told fits calibrates)).status]
  have notified : s.noticed.status = ((s.entersRun.setDue (s.entersRun.due.atRun (decide (0 < s.entersRun.supply.level)))).notified fin19).status := by
    unfold State.noticed
    rw [runEntryNotices_eq rfl]
  rw [notified] at attention fewer stands
  refine ⟨?_, fewer, stands⟩
  rw [attention]
  exact notified_attention _

end

end Sys2Proof.Machine
end

