-- ==== Sys2Proof/Proofs/EntryHeat.lean ====
section
/-! PROOFS. A heater and a pad that stay Idle hand nothing over (R110, R111, R119). -/

namespace Sys2Proof.Machine

/-! ### A heater that stays Idle hands nothing over (R110, R111) -/

/-- A heater with its claim Idle is Off or in Lockout. -/
theorem HeaterOrder.rests {c : Climate} {v : Values} {k : Claim} (h : HeaterOrder c v k) (idle : k.st = .idle) :
    c.heater = .off ∨ c.heater = .lockout := by
  have free := mt h.held.mpr (by rw [idle]; nofun)
  cases e : c.heater <;> simp [e] at free ⊢

/-- A heater in Lockout has its claim Idle. -/
theorem HeaterOrder.locks {c : Climate} {v : Values} {k : Claim} (h : HeaterOrder c v k) (lockout : c.heater = .lockout) :
    k.st = .idle := by
  have asks := h.asks
  have held := h.held
  have forced := h.unforced
  rw [lockout] at asks held
  cases e : k.st <;> simp [e] at asks held forced ⊢

section
variable {s : State} (o : s.Ok) (h : s.heaterFits) (draws : s.heaterDraws)
include o h draws

theorem heaterFollows_silent (idle : s.allIdle) (stays : (s.heaterFollows.claim loadHeater).st = .idle) : Silent s s.heaterFollows := by
  by_cases lives : s.seq.fns.heat = true ∧ s.inRun = true
  · obtain ⟨fitted, run⟩ := lives
    have followed := heaterFollows_followed o h draws fitted run
    have acts : s.heaterActs = s := by
      unfold State.heaterActs
      rcases HeaterOrder.rests h (idle _) with off | lockout
      · have same : s.heaterFollows.climate.heater = .off := by
          rcases followed.stays with e | ⟨e, -⟩
          · rw [e, off]
          · rw [off] at e
            rcases e with e | e <;> cases e
        have unwanted := mt (followed.off same).mp (by rw [stays]; simp)
        rw [off, idle]
        exact if_neg unwanted
      · rw [lockout]
    rw [heaterFollows_eq fitted run, acts]
    exact ⟨rfl, rfl, rfl, rfl, rfl, rfl⟩
  · have off : s.seq.fns.heat = false ∨ s.inRun = false := by
      rw [Decidable.not_and_iff_or_not] at lives
      exact lives.imp Bool.eq_false_iff.mpr Bool.eq_false_iff.mpr
    rw [heaterFollows_rests off]
    exact Silent.refl s

/-- Once it has followed, a heater that is Idle after it follows again was Idle before. -/
theorem heaterFollows_twice (stays : (s.heaterFollows.heaterFollows.claim loadHeater).st = .idle) :
    (s.heaterFollows.claim loadHeater).st = .idle := by
  by_cases lives : s.seq.fns.heat = true ∧ s.inRun = true
  · obtain ⟨fitted, run⟩ := lives
    have first := heaterFollows_followed o h draws fitted run
    obtain ⟨ok, base, -⟩ := heaterFollows_calm s o
    generalize s.heaterFollows = t at *
    have second := heaterFollows_followed ok first.fits (by unfold State.heaterDraws; rw [base.seq]; exact draws)
      (by rw [base.seq]; exact fitted) (by rw [State.inRun, base.seq]; exact run)
    generalize t.heaterFollows = u at *
    have wanted : t.heaterWanted = s.heaterWanted := by
      rw [State.heaterWanted, State.heaterWanted, first.call, first.frost, first.locked, State.inRun, State.inRun, base.seq]
    have rests := HeaterOrder.rests second.fits stays
    rcases second.stays with same | ⟨-, purging⟩
    · rcases rests with off | lockout
      · have unwanted := mt (second.off off).mp (by rw [stays]; simp)
        rw [wanted] at unwanted
        by_contra away
        exact unwanted ((first.off (same ▸ off)).mpr away)
      · exact HeaterOrder.locks first.fits (same ▸ lockout)
    · rw [purging] at rests
      rcases rests with e | e <;> cases e
  · have off : s.seq.fns.heat = false ∨ s.inRun = false := by
      rw [Decidable.not_and_iff_or_not] at lives
      exact lives.imp Bool.eq_false_iff.mpr Bool.eq_false_iff.mpr
    rw [heaterFollows_rests off] at stays ⊢
    rw [heaterFollows_rests off] at stays
    exact stays

/-- The climate stage of entry into Run, where the heater's claim stays Idle. -/
theorem heat_silent (idle : s.allIdle) (stays : (s.frostService.heaterFollows.claim loadHeater).st = .idle) :
    Silent s s.frostService.heaterFollows := by
  by_cases lives : s.seq.fns.heat = true ∧ s.inRun = true
  · obtain ⟨fitted, run⟩ := lives
    rw [frostService_eq o fitted run] at stays ⊢
    split at stays
    · next same =>
      rw [if_pos same]
      exact heaterFollows_silent o h draws idle stays
    · next turns =>
      rw [if_neg turns]
      have okU := (setClimate_calm s { s.climate with
        frost := s.frostServiceNow, tryFailed := s.climate.tryFailed && s.frostServiceNow } o).1
      have fitsU : (s.setClimate { s.climate with
        frost := s.frostServiceNow, tryFailed := s.climate.tryFailed && s.frostServiceNow }).heaterFits := HeaterOrder.free h rfl
      have put : Silent s (s.setClimate { s.climate with
        frost := s.frostServiceNow, tryFailed := s.climate.tryFailed && s.frostServiceNow }) := ⟨rfl, rfl, rfl, rfl, rfl, rfl⟩
      have drawsU : (s.setClimate { s.climate with
        frost := s.frostServiceNow, tryFailed := s.climate.tryFailed && s.frostServiceNow }).heaterDraws := draws
      have run' : (s.setClimate { s.climate with
        frost := s.frostServiceNow, tryFailed := s.climate.tryFailed && s.frostServiceNow }).inRun = true := run
      generalize s.setClimate _ = u at *
      have once := heaterFollows_twice okU fitsU drawsU stays
      have first := heaterFollows_silent okU fitsU drawsU (put.allIdle idle) once
      have followed := heaterFollows_followed okU fitsU drawsU (by rw [put.seq]; exact fitted) run'
      have ok := (heaterFollows_calm u okU).1
      refine put.trans (first.trans (heaterFollows_silent ok followed.fits ?_ (first.allIdle (put.allIdle idle)) stays))
      unfold State.heaterDraws
      rw [first.seq]
      exact drawsU
  · have off : s.seq.fns.heat = false ∨ s.inRun = false := by
      rw [Decidable.not_and_iff_or_not] at lives
      exact lives.imp Bool.eq_false_iff.mpr Bool.eq_false_iff.mpr
    have same : s.frostService = s := by
      unfold State.frostService
      rw [if_neg (by rw [Bool.and_eq_true]; exact lives)]
    rw [same] at stays ⊢
    exact heaterFollows_silent o h draws idle stays

end

/-! ### The pad, and the lights (R119, R159) -/

theorem padFollows_silent {s : State} (o : s.Ok) (draw : 1 ≤ Item.padDraw s.seq.values ∧ Item.padDraw s.seq.values ≤ 30000)
    (idle : s.allIdle) (stays : (s.padFollows.claim loadPad).st = .idle) : Silent s s.padFollows := by
  by_cases lives : (s.seq.fns.heat && Item.padFitted s.seq.values && s.inRun) = true
  · simp only [Bool.and_eq_true] at lives
    obtain ⟨⟨fitted, pad⟩, run⟩ := lives
    rw [padFollows_eq o fitted pad run] at stays ⊢
    dsimp only at stays ⊢
    have okU := (setClimate_calm s { s.climate with padWanted := s.padWantedNow } o).1
    have put : Silent s (s.setClimate { s.climate with padWanted := s.padWantedNow }) := ⟨rfl, rfl, rfl, rfl, rfl, rfl⟩
    generalize s.setClimate { s.climate with padWanted := s.padWantedNow } = u at *
    have idleU := put.allIdle idle
    split at stays
    · rw [if_pos (idle _)] at stays
      have undrawn : (u.claim loadPad).drawing = false := by simp [Claim.drawing, idleU _]
      cases passes : u.passes loadPad 2 (min (Item.padDraw s.seq.values) 30000) with
      | true =>
        rw [(ask_passes okU _ false draw.1 undrawn (by decide) passes).2] at stays
        cases stays
      | false =>
        rw [(ask_fails okU _ false draw.1 undrawn (by decide) passes rfl).2] at stays
        cases stays
    · next unwanted =>
      rw [if_neg unwanted]
      have off : Silent u (u.setClimate { u.climate with pad := false }) := ⟨rfl, rfl, rfl, rfl, rfl, rfl⟩
      generalize u.setClimate { u.climate with pad := false } = v at off ⊢
      rw [release_of_idle (off.allIdle idleU loadPad)]
      exact put.trans off
  · have same : s.padFollows = s := by
      unfold State.padFollows
      rw [if_neg lives]
    rw [same]
    exact Silent.refl s

end Sys2Proof.Machine
end

