-- ==== Sys2Proof/Proofs/EntryLights.lean ====
section
/-! PROOFS. A light group that stays Idle hands nothing over (R152, R153, R159). -/

namespace Sys2Proof.Machine

/-! ### A light group that stays Idle hands nothing over (R152, R153, R159) -/

/-- Where the group's claim is Idle in the end, the lanes and the marks are as they were. -/
def Dims (g : Fin 2) (s t : State) : Prop := (t.claim (loadLights g)).st = .idle → t.bus = s.bus ∧ t.due = s.due

/-- Lights have changed, and no claim, lane or mark. -/
structure Lamplit (s t : State) : Prop where
  claims : t.broker.claims = s.broker.claims
  bus : t.bus = s.bus
  due : t.due = s.due

theorem Lamplit.refl (s : State) : Lamplit s s := ⟨rfl, rfl, rfl⟩

theorem Lamplit.trans {s t u : State} (h : Lamplit s t) (k : Lamplit t u) : Lamplit s u :=
  ⟨k.claims.trans h.claims, k.bus.trans h.bus, k.due.trans h.due⟩

theorem Lamplit.allIdle {s t : State} (h : Lamplit s t) (idle : s.allIdle) : t.allIdle := fun id => by
  rw [State.claim, h.claims]
  exact idle id

theorem Lamplit.dims {s t : State} (h : Lamplit s t) (g : Fin 2) : Dims g s t := fun _ => ⟨h.bus, h.due⟩

theorem Lamplit.then {g : Fin 2} {s t u : State} (h : Lamplit s t) (k : Dims g t u) : Dims g s u := fun idle =>
  ⟨(k idle).1.trans h.bus, (k idle).2.trans h.due⟩

theorem Lamplit.foldl {α : Type} (f : State → α → State) (h : ∀ s x, Lamplit s (f s x)) (l : List α) (s : State) :
    Lamplit s (l.foldl f s) := by
  induction l generalizing s with
  | nil => exact Lamplit.refl s
  | cons x xs ih => exact (h s x).trans (ih (f s x))

theorem finishRequest_lamplit (s : State) (req : Nat) : Lamplit s (s.finishRequest req) := by
  unfold State.finishRequest State.reviseOutcome
  split
  · exact Lamplit.refl s
  · split
    · exact ⟨rfl, rfl, rfl⟩
    · exact Lamplit.refl s

section
variable {s : State} (idle : s.allIdle) (g : Fin 2)
include idle

theorem takeTargets_lamplit (t : Tab 4 Nat) : Lamplit s (s.takeTargets g t) := by
  unfold State.takeTargets
  have faded := Lamplit.foldl (fun s k => s.setLight (groupChan g k)
    ((s.light (groupChan g k)).retarget (Item.fadeMs s.seq.values) (t.get k))) (fun s _ => ⟨rfl, rfl, rfl⟩) fin4 s
  rw [amend_idle (faded.allIdle idle)]
  exact faded

theorem requestTaken_lamplit (r : GroupReq) : Lamplit s (s.requestTaken g r) := by
  unfold State.requestTaken
  have put : Lamplit s (s.setGroup g { pending := none, result := resultOf r.scale }) := ⟨rfl, rfl, rfl⟩
  exact put.trans ((takeTargets_lamplit (put.allIdle idle) g _).trans (finishRequest_lamplit _ _))

theorem requestRefused_lamplit (r : GroupReq) : Lamplit s (s.requestRefused g r) := by
  unfold State.requestRefused
  have put : Lamplit s (s.setGroup g { pending := none, result := .refused }) := ⟨rfl, rfl, rfl⟩
  rw [amend_idle (put.allIdle idle)]
  exact put.trans (finishRequest_lamplit _ _)

/-- An Idle group's ask is refused and leaves it Idle, or contests. -/
theorem askGroup_idle (o : s.Ok) {a : Nat} (some : 1 ≤ a) :
    (∃ t, s.askGroup g a = (t, .refused) ∧ Lamplit s { t with broker := s.broker } ∧ t.allIdle ∧ t.Ok)
    ∨ ∃ t, s.askGroup g a = (t, .none) ∧ (t.claim (loadLights g)).st = .contest := by
  have asks : s.askGroup g a = s.ask (loadLights g) 6 a true := if_neg (by rw [idle]; nofun)
  have ok := (ask_asks s (loadLights g) 6 a true (by decide) o).1
  have undrawn : (s.claim (loadLights g)).drawing = false := by simp [Claim.drawing, idle _]
  rw [asks]
  cases passes : s.passes (loadLights g) 6 (min a 30000) with
  | true =>
    obtain ⟨reply, claim⟩ := ask_passes o a true some undrawn (by decide) passes
    exact .inr ⟨_, Prod.ext rfl reply, by rw [claim]; rfl⟩
  | false =>
    have same : s.abandonContest (loadLights g) = s := if_neg (by rw [idle]; nofun)
    rw [ask_idle_eq o 6 a true some undrawn, if_neg (by decide), if_neg (by rw [passes]; nofun), same, if_pos rfl] at ok ⊢
    exact .inl ⟨_, rfl, ⟨rfl, rfl, rfl⟩, setClaim_allIdle idle _ rfl, ok⟩

end

theorem tryScales_dims (g : Fin 2) (r : GroupReq) (l : List Nat) {s : State} (o : s.Ok) (idle : s.allIdle) :
    Dims g s (tryScales g r l s) := by
  induction l generalizing r s with
  | nil => exact (requestRefused_lamplit idle g r).dims g
  | cons x xs ih =>
    unfold tryScales
    dsimp only
    split
    · exact (requestTaken_lamplit idle g _).dims g
    · next more =>
      have some : 1 ≤ s.covering g (s.scaledTargets g r.want x) := by omega
      generalize s.covering g (s.scaledTargets g r.want x) = a at some ⊢
      have put : Lamplit s (s.setGroup g { s.group g with
        pending := Option.some { r with trial := s.scaledTargets g r.want x, scale := x } }) := ⟨rfl, rfl, rfl⟩
      have ok := (setGroup_calm s g { s.group g with
        pending := Option.some { r with trial := s.scaledTargets g r.want x, scale := x } } o).1
      generalize s.setGroup g { s.group g with
        pending := Option.some { r with trial := s.scaledTargets g r.want x, scale := x } } = u at put ok ⊢
      rcases askGroup_idle (put.allIdle idle) g ok some with ⟨t, e, same, idleT, okT⟩ | ⟨t, e, contests⟩
      · rw [e]
        dsimp only
        exact fun stays => ⟨(ih _ okT idleT stays).1.trans (same.bus.trans put.bus), (ih _ okT idleT stays).2.trans (same.due.trans put.due)⟩
      · rw [e]
        dsimp only
        exact fun stays => absurd (stays.symm.trans contests) nofun

theorem changeGroup_dims (g : Fin 2) (t : Tab 4 Nat) (req : Nat) {s : State} (o : s.Ok) (idle : s.allIdle) :
    Dims g s (s.changeGroup g t req) := by
  unfold State.changeGroup
  generalize t.map (fun x => min x s.lights.ceiling) = w
  dsimp only
  split
  · exact (takeTargets_lamplit idle g w).dims g
  · next more =>
    have some : 1 ≤ s.covering g w := by omega
    generalize s.covering g w = a at some ⊢
    have put : Lamplit s (s.setGroup g { s.group g with
      pending := Option.some { want := w, trial := w, scale := 1000, req := req } }) := ⟨rfl, rfl, rfl⟩
    have ok := (setGroup_calm s g { s.group g with
      pending := Option.some { want := w, trial := w, scale := 1000, req := req } } o).1
    generalize s.setGroup g { s.group g with
      pending := Option.some { want := w, trial := w, scale := 1000, req := req } } = u at put ok ⊢
    rcases askGroup_idle (put.allIdle idle) g ok some with ⟨t, e, same, idleT, okT⟩ | ⟨t, e, contests⟩
    · rw [e]
      dsimp only
      have tries := tryScales_dims g { want := w, trial := w, scale := 1000, req := req } [750, 500, 250] okT idleT
      exact fun stays => ⟨(tries stays).1.trans (same.bus.trans put.bus), (tries stays).2.trans (same.due.trans put.due)⟩
    · rw [e]
      dsimp only
      exact fun stays => absurd (stays.symm.trans contests) nofun

/-- The courtesy light's part of entry into Run, where every light group stays Idle. -/
theorem courtesyFollows_dims {s : State} (o : s.Ok) (idle : s.allIdle) (lost : Option Nat)
    (stays : ∀ g, ((s.courtesyFollows lost).claim (loadLights g)).st = .idle) :
    (s.courtesyFollows lost).bus = s.bus ∧ (s.courtesyFollows lost).due = s.due := by
  have change : ∀ (u : State) (ch : Fin 8) (d : CourtesyDue), u.Ok → u.allIdle → Dims (groupOf ch) u (u.courtesyChange ch d) := by
    intro u ch d ok idle
    unfold State.courtesyChange
    split
    · exact Lamplit.dims ⟨rfl, rfl, rfl⟩ _
    · have put : Lamplit u (u.setLights { u.lights with due := .none }) := ⟨rfl, rfl, rfl⟩
      have okV := (setLights_calm u { u.lights with due := .none } ok).1
      generalize u.setLights { u.lights with due := .none } = v at put okV ⊢
      have changes : ∀ x, Dims (groupOf ch) u (v.changeChannel ch x 0) := fun x =>
        put.then (changeGroup_dims _ _ 0 okV (put.allIdle idle))
      cases d with
      | none => exact put.dims _
      | light =>
        dsimp only
        split
        · exact changes 600
        · exact put.dims _
      | restore => exact changes _
  revert stays
  unfold State.courtesyFollows
  split
  · exact fun _ => ⟨rfl, rfl⟩
  · split
    · exact fun _ => ⟨rfl, rfl⟩
    · next ch _ =>
      rw [readAll_checked o.checked]
      dsimp only
      split
      · next from_ _ =>
        split
        · exact fun _ => ⟨rfl, rfl⟩
        · split
          · exact fun _ => ⟨rfl, rfl⟩
          · intro stays
            have ok := ((setLights_calm s { s.lights with call := true, source := from_ }).trans (setLights_calm _
              { s.lights with call := true, source := from_, courtesy := true, prevTarget := (s.light ch).target }) o).1
            exact change _ ch .light ok idle (stays _)
      · split
        · exact fun _ => ⟨rfl, rfl⟩
        · exact fun _ => ⟨rfl, rfl⟩

end Sys2Proof.Machine
end

