-- ==== Sys2Proof/Proofs/EntryIdle.lean ====
section
/-! PROOFS. Entry into Run with every claim Idle in the end (R184). -/

namespace Sys2Proof.Machine

/-! ### Entry into Run with every claim Idle in the end (R184) -/

/-- A claim that is Idle in the end was Idle. -/
theorem Claim.idle_of_stirs {c d : Claim} (h : c.stirs d) (idle : d.st = .idle) : c.st = .idle := by
  rcases h with rfl | ⟨-, rfl | ⟨n, rfl⟩⟩
  · exact idle
  · cases idle
  · cases idle

theorem noticed_water (s : State) : s.noticed.water = s.water := by rw [noticed_eq]

theorem noticed_climate (s : State) : s.noticed.climate = s.climate := by rw [noticed_eq]

theorem noticed_view (s : State) : s.noticed.view = s.view := by rw [noticed_eq]

/-- What one stage tends stirs the claims it does not reach. -/
theorem Tends.stirs {loads : Fin 7 → Prop} {s t : State} (o : s.Ok)
    (h : ∀ n, Tends { mons := fun _ => True, loads := loads } n s t) {id : Fin 7} (not : ¬ loads id) : (s.claim id).stirs (t.claim id) := by
  obtain ⟨n, w⟩ := waitWithin_exists s
  exact (h n o w).2.2.claims id not

section
variable {s : State} (fits : s.Fits) (calibrates : s.seq.phase = .calibrate)
include fits calibrates

theorem noticed_idle : s.noticed.allIdle := fun id => by
  rw [noticed_eq]
  exact calibrates_idle fits calibrates id

/-- A cycle has no claim before Run, so it is neither asking nor circulating. -/
theorem calibrates_free : s.water.cycle.holdsClaim = false := by
  by_contra holds
  exact fits.pumpOfCycle (by simpa using holds) (calibrates_idle fits calibrates loadPump)

theorem calibrates_calm : s.water.demand = false := by
  have order : s.WaterOrder := (waterFits_iff s).mp fits.water
  rw [← Bool.not_eq_true, order.demand]
  intro e
  have free := calibrates_free fits calibrates
  rw [e] at free
  cases free

theorem noticed_rests (fitted : s.seq.fns.water = true) : s.noticed.PumpRests where
  ok := (noticed_order fits calibrates).1
  fitted := by rw [noticed_seq]; exact fitted
  run := noticed_inRun s
  draw := by rw [noticed_seq]; exact fits.values.pumpDraw
  idle := noticed_idle fits calibrates
  free := by rw [noticed_water]; exact calibrates_free fits calibrates
  calm := by rw [noticed_water]; exact calibrates_calm fits calibrates

end

section
variable {s : State} (rests : s.PumpRests)
include rests

/-- A due cycle that is taken leaves the pump at rest and the demand path acting, or has the pump's claim. -/
theorem dueTaken_cases : (∃ w, s.Spared w ∧ s.dueTaken.demandFollows = w.demandFollows)
    ∨ (s.dueTaken.demandFollows.claim loadPump).st ≠ .idle := by
  unfold State.dueTaken
  split
  · next due =>
    have timed := rests.timing 0
    have spared : s.Spared (s.timing 0) := rests.spared.setWater _ rfl rests.calm rfl
    have widen : ∀ {w}, (s.timing 0).Spared w → s.Spared w := fun h =>
      ⟨h.rests, h.seq, h.pins, h.view, h.supply, h.climate, h.motion, h.lights, h.due, h.bus, h.guard, h.lane, h.others⟩
    generalize hu : s.timing 0 = u at timed spared widen ⊢
    have cycle : u.water.cycle = .timing := by rw [← hu]; rfl
    have acts : ∀ {w}, u.Spared w → u.takeDue = w.demandFollows → (∃ w, s.Spared w ∧ u.takeDue.demandFollows = w.demandFollows)
        ∨ (u.takeDue.demandFollows.claim loadPump).st ≠ .idle := fun {w} spared eq =>
      .inl ⟨w, widen spared, by rw [eq, demandFollows_again spared.rests]⟩
    cases fresh : u.freshOk with
    | false =>
      have skips := takeDue_skips (s := u) fresh
      exact .inl ⟨u.timing (Item.frostIntervalMs u.seq.values), spared.setWater _ rfl timed.calm rfl, by rw [skips]⟩
    | true =>
      by_cases owed : u.water.owed < 4
      · cases passes : u.passes loadPump 1 (Item.pumpDraw u.seq.values) with
        | false =>
          obtain ⟨w, sparedW, eq, -⟩ := takeDue_defers timed fresh owed passes
          exact acts sparedW eq
        | true =>
          obtain ⟨water, claim⟩ := takeDue_contests timed.due fresh owed (by rw [timed.idle]; nofun) passes
          have base := (takeDue_calm u timed.ok).2.1
          have holds : u.takeDue.water.cycle.holdsClaim = true := by rw [water]; rfl
          refine .inr ?_
          rw [demandFollows_cycling (by rw [base.seq]; exact timed.fitted) (by rw [State.inRun, base.seq]; exact timed.run) holds, claim]
          exact nofun
      · cases charged : u.forcedCondition with
        | false =>
          obtain ⟨w, sparedW, eq⟩ := takeDue_opens timed fresh owed cycle charged
          exact acts sparedW eq
        | true =>
          obtain ⟨circulates, forced⟩ := takeDue_forced timed fresh owed charged
          have base := (takeDue_calm u timed.ok).2.1
          have holds : u.takeDue.water.cycle.holdsClaim = true := by rw [circulates]; rfl
          refine .inr ?_
          rw [demandFollows_cycling (by rw [base.seq]; exact timed.fitted) (by rw [State.inRun, base.seq]; exact timed.run) holds, forced]
          exact nofun
  · exact .inl ⟨s, rests.spared, rfl⟩

end

/-- The pump's stage with its claim Idle in the end: no more than the valve's NOTICE goes out. -/
structure Lulled (s t : State) : Prop where
  idle : t.allIdle
  seq : t.seq = s.seq
  climate : t.climate = s.climate
  lane : Bus.noticedAt s.now s.bus t.bus
  mute : s.water.valveFault = false → t.bus = s.bus ∧ t.due = s.due

/-- The stage where the pump's claim stays Idle. -/
theorem waterEnters_lulled {s : State} (rests : s.PumpRests) (stays : (s.waterEntersRun.claim loadPump).st = .idle) :
    Lulled s s.waterEntersRun := by
  have driven := rests.setWater { s.water with dumpDrive := if s.water.dumpCmdOpen then .toOpen else .toClosed } rests.free rests.calm
  have put : Lulled s s.dumpDriven := ⟨driven.idle, rfl, rfl, .inl rfl, fun _ => ⟨rfl, rfl⟩⟩
  have same : s.dumpDriven.now = s.now ∧ s.dumpDriven.bus = s.bus ∧ s.dumpDriven.due = s.due
      ∧ s.dumpDriven.water.valveFault = s.water.valveFault := ⟨rfl, rfl, rfl, rfl⟩
  rw [waterEntersRun_eq rests.fitted] at stays ⊢
  have rests : s.dumpDriven.PumpRests := driven
  generalize s.dumpDriven = u at *
  obtain ⟨now, bus, due, fault⟩ := same
  rcases dueTaken_cases rests with ⟨w, spared, eq⟩ | away
  · rw [eq] at stays ⊢
    cases wants : w.demandWants with
    | true => exact absurd stays (demandFollows_wished spared.rests wants).1.away
    | false =>
      have lane := spared.lane
      rw [now, bus] at lane
      rw [demandFollows_rested spared.rests wants]
      exact ⟨spared.rests.idle, spared.seq.trans put.seq, spared.climate.trans put.climate, lane, fun well =>
        ⟨(spared.bus (fault.trans well)).trans bus, (spared.due (fault.trans well)).trans due⟩⟩
  · exact absurd stays away

theorem motionEntersRun_still {s : State} (drive : s.view.driveAccepted = false) (wind : s.motion.windLockout = none) :
    s.motionEntersRun = s := by
  have calm : ∀ ch, s.needs ch = false := fun ch => by
    unfold State.needs
    rw [drive, wind]
    exact Bool.and_false _
  unfold State.motionEntersRun
  simp only [calm, Bool.false_eq_true, if_false]

/-- What follows the Water Manager on entry into Run where nothing moves: heater, pad and lights. -/
def State.followsIdly (s : State) : State :=
  s.frostService.heaterFollows.padFollows.ceilingFollows.courtesyFollows none

section
variable {s : State} (o : s.Ok)
include o

theorem padEnters_stirs (id : Fin 7) (pad : id ≠ loadPad) (lit : ∀ g, id ≠ loadLights g) :
    (s.claim id).stirs ((s.padFollows.ceilingFollows.courtesyFollows none).claim id) :=
  Tends.stirs (loads := (· ≠ id)) o (fun n => by
    have pad : Fact (loadPad ≠ id) := ⟨pad.symm⟩
    have pads : Tends { mons := fun _ => True, loads := (· ≠ id) } n s s.padFollows := padFollows_tends s
    exact pads.trans (lightsEnter_tends _ n _ fun g => (lit g).symm)) (not_not.mpr rfl)

theorem lightsEnter_stirs (id : Fin 7) (lit : ∀ g, id ≠ loadLights g) :
    (s.claim id).stirs ((s.ceilingFollows.courtesyFollows none).claim id) :=
  Tends.stirs (loads := (· ≠ id)) o (fun n => lightsEnter_tends _ n _ fun g => (lit g).symm) (not_not.mpr rfl)

theorem followsIdly_stirs (id : Fin 7) (heater : id ≠ loadHeater) (pad : id ≠ loadPad) (lit : ∀ g, id ≠ loadLights g) :
    (s.claim id).stirs (s.followsIdly.claim id) := by
  have heats : ∀ n, Tends { mons := fun _ => True, loads := (· ≠ id) } n s s.frostService.heaterFollows := fun n => by
    have heater : Fact (loadHeater ≠ id) := ⟨heater.symm⟩
    exact (frostService_tends s).trans (heaterFollows_tends _)
  have first := Tends.stirs o heats (id := id) (not_not.mpr rfl)
  have ok := (((frostService_calm s).trans (heaterFollows_calm _)) o).1
  unfold State.followsIdly
  generalize s.frostService.heaterFollows = u at *
  exact Claim.stirs_trans first (padEnters_stirs ok id pad lit)

/-- Where every claim stays Idle, the lanes and the marks are as they were. -/
theorem followsIdly_mute (h : s.heaterFits) (draws : s.heaterDraws)
    (pad : 1 ≤ Item.padDraw s.seq.values ∧ Item.padDraw s.seq.values ≤ 30000) (idle : s.allIdle) (stays : s.followsIdly.allIdle) :
    s.followsIdly.bus = s.bus ∧ s.followsIdly.due = s.due := by
  unfold State.followsIdly at stays ⊢
  have silent := heat_silent o h draws idle
  have okH := (((frostService_calm s).trans (heaterFollows_calm _)) o).1
  generalize s.frostService.heaterFollows = u at *
  have heated := silent (Claim.idle_of_stirs (padEnters_stirs okH loadHeater (by decide) (by decide)) (stays _))
  rw [← heated.seq] at pad
  have padded := padFollows_silent okH pad (heated.allIdle idle)
  have okP := (padFollows_calm u okH).1
  generalize u.padFollows = v at *
  have padded := heated.trans (padded (Claim.idle_of_stirs (lightsEnter_stirs okP loadPad (by decide)) (stays _)))
  have ceiling := padded.trans (ceilingFollows_silent (padded.allIdle idle))
  have okC := (ceilingFollows_calm v okP).1
  generalize v.ceilingFollows = w at *
  obtain ⟨bus, due⟩ := courtesyFollows_dims okC (ceiling.allIdle idle) none fun g => stays _
  exact ⟨bus.trans ceiling.bus, due.trans ceiling.marks⟩

end

section
variable {s : State} (fits : s.Fits) (calibrates : s.seq.phase = .calibrate)
include fits calibrates

/-- The Water Manager's stage, where the pump's claim stays Idle. -/
theorem water_lulled (stays : (s.noticed.waterEntersRun.claim loadPump).st = .idle) : Lulled s.noticed s.noticed.waterEntersRun := by
  have idle := noticed_idle fits calibrates
  have rests := noticed_rests fits calibrates
  have fns : s.noticed.seq.fns = s.seq.fns := by rw [noticed_seq]
  generalize s.noticed = n at *
  cases fitted : s.seq.fns.water with
  | false =>
    rw [waterEntersRun_unfitted (by rw [fns]; exact fitted)]
    exact ⟨idle, rfl, rfl, .inl rfl, fun _ => ⟨rfl, rfl⟩⟩
  | true => exact waterEnters_lulled (rests fitted) stays

variable (idle : s.runEntered.allIdle)
  (drive : s.view.driveAccepted = false) (wind : s.motion.windLockout = none)
include drive wind

theorem motored_still : s.motored = s.heated.padFollows := by
  have view : s.heated.padFollows.view.driveAccepted = false := by
    rw [(padded_base fits calibrates).view, noticed_view]
    exact drive
  have lockout : s.heated.padFollows.motion.windLockout = none := by
    rw [padded_motion fits calibrates]
    exact wind
  unfold State.motored
  rw [motionEntersRun_still view lockout]
  exact ite_self _

include idle

/-- With nothing that asks or moves, entry into Run leaves the lanes as the NOTICEs have left them, or one more NOTICE. -/
theorem runEntered_lane : Bus.noticedAt s.now s.noticed.bus s.runEntered.bus
    ∧ (s.water.valveFault = false → s.runEntered.bus = s.noticed.bus ∧ s.runEntered.due = s.noticed.due) := by
  have ok := (noticed_order fits calibrates).1
  have eq : s.runEntered = s.noticed.waterEntersRun.followsIdly := by
    rw [runEntered_eq, motored_still fits calibrates drive wind, State.heated, State.followsIdly]
  have okW := (waterEntersRun_calm s.noticed ok).1
  have lulled := water_lulled fits calibrates
  have seq := noticed_seq s
  have climate := noticed_climate s
  have now : s.noticed.now = s.now := by rw [noticed_eq]
  have fault : s.noticed.water.valveFault = s.water.valveFault := by rw [noticed_water]
  rw [eq] at idle ⊢
  generalize s.noticed.waterEntersRun = a at *
  have lulled := lulled (Claim.idle_of_stirs (followsIdly_stirs okW loadPump (by decide) (by decide) (by decide)) (idle _))
  have heater : a.heaterFits := by
    unfold State.heaterFits
    rw [lulled.climate, climate, lulled.seq, seq]
    exact HeaterOrder.idle fits.heater (HeaterOrder.rests fits.heater (calibrates_idle fits calibrates _)) (lulled.idle _)
  have draws : a.heaterDraws := by
    unfold State.heaterDraws
    rw [lulled.seq, seq]
    exact fits.values.heaterDraws
  obtain ⟨bus, due⟩ := followsIdly_mute okW heater draws (by rw [lulled.seq, seq]; exact fits.values.padDraw) lulled.idle idle
  have lane := lulled.lane
  rw [now] at lane
  rw [bus, due]
  exact ⟨lane, fun well => lulled.mute (fault.trans well)⟩

end

end Sys2Proof.Machine
end

