-- ==== Sys2Proof/Proofs/Monitors.lean ====
section
/-! PROOFS. A monitor's change and the NOTICEs on entry into Run, settled (R181, R182). -/

namespace Sys2Proof.Machine

/-! ### The Gatherer after entry into Run (R171, R181, R184) -/

section
variable {was u : State} (calm : ∀ ch, State.interlockOffers was u ch = []) (quiet : u.due.status2 = false)
include calm quiet

/-- With no violation and no monitor turned, the two MOTION records alone of the last ones are of class 1 or 2. -/
theorem lastOffers_firm_moves : firmCount (State.lastOffers was u) ≤ 2 := by
  have tanks : firmCount (fin3.flatMap (State.tankOffers was u)) = 0 := firmCount_zero fun o m => by
    obtain ⟨k, -, m⟩ := List.mem_flatMap.mp m
    rw [mem_offer m]
    exact .inr rfl
  have zones : firmCount (fin2.flatMap (State.climateOffers was u)) = 0 := firmCount_zero fun o m => by
    obtain ⟨z, -, m⟩ := List.mem_flatMap.mp m
    rw [mem_offer m]
    exact .inr rfl
  have lamps : firmCount (fin8.flatMap (State.lightOffers was u)) = 0 := firmCount_zero fun o m => by
    obtain ⟨ch, -, m⟩ := List.mem_flatMap.mp m
    rw [mem_offer m]
    exact .inr rfl
  have moves : firmCount (fin2.flatMap fun ch => State.motionOffers was u ch ++ State.interlockOffers was u ch) ≤ 2 := by
    have both : fin2.flatMap (fun ch => State.motionOffers was u ch ++ State.interlockOffers was u ch)
        = State.motionOffers was u 0 ++ State.motionOffers was u 1 := by
      simp [fin2, calm]
    rw [both, firmCount_append]
    exact Nat.add_le_add (firmCount_one _) (firmCount_one _)
  rw [lastOffers_eq, firmCount_append, firmCount_append, firmCount_append, firmCount_append, tanks, zones, lamps,
    show u.status2Offers = [] from status2Offers_nil quiet]
  show 0 + 0 + 0 + _ + 0 ≤ 2
  omega

theorem offers_firm : firmCount (State.firstOffers was u ++ State.lastOffers was u) ≤ 4 := by
  have last := lastOffers_firm_moves calm quiet
  have shed : firmCount u.shedOffers = 0 := firmCount_zero fun o m => by
    unfold State.shedOffers at m
    split at m
    · rw [mem_offer m]
      exact .inl rfl
    · cases m
  have supply : firmCount u.supplyOffers ≤ 1 := by
    unfold State.supplyOffers
    split
    · exact firmCount_one _
    · exact Nat.zero_le 1
  have status : firmCount (State.status0Offers was u) ≤ 1 := firmCount_one _
  rw [firstOffers_eq, firmCount_append, firmCount_append, firmCount_append, shed]
  omega

/-- No record that a step offers is a NOTICE. -/
theorem offers_no_notice {o : Offer} (m : o ∈ State.firstOffers was u ++ State.lastOffers was u) : o.record.kind ≠ .notice := by
  rw [List.mem_append, firstOffers_eq, List.mem_append, List.mem_append] at m
  rcases m with ((m | m) | m) | m
  · unfold State.shedOffers at m
    split at m
    · rw [mem_offer m]
      exact nofun
    · cases m
  · unfold State.supplyOffers at m
    split at m
    · rw [mem_offer m]
      exact nofun
    · cases m
  · rw [mem_offer m]
    exact nofun
  · rcases mem_lastOffers calm m with e | ⟨_, e⟩ | ⟨_, e⟩ | ⟨ch, m⟩ | ⟨_, e⟩
    · rw [e]; exact nofun
    · rw [e]; exact nofun
    · rw [e]; exact nofun
    · rw [mem_offer m]; exact nofun
    · rw [e]; exact nofun

end

section
variable {s : State} (fits : s.Fits) (calibrates : s.seq.phase = .calibrate)

theorem noticed_bus (s : State) : s.noticed.bus =
    ((s.entersRun.setDue (s.entersRun.due.atRun (decide (0 < s.entersRun.supply.level)))).notified fin19).bus := by
  unfold State.noticed
  rw [runEntryNotices_eq rfl]

theorem noticed_due (s : State) : s.noticed.due = s.due.atRun (decide (0 < s.supply.level)) := by rw [noticed_eq]

theorem standingNotice_congr {t : State} (h : t.status = s.status) (n : Fin 19) : standingNotice t n = standingNotice s n := by
  unfold standingNotice noticeRecord
  rw [h]

/-- The lane after the NOTICEs of entry into Run. -/
theorem noticed_room (few : s.bus.periodic.length ≤ 2) : s.noticed.bus.roomy 2 := by
  rw [noticed_bus]
  have bus : (s.entersRun.setDue (s.entersRun.due.atRun (decide (0 < s.entersRun.supply.level)))).bus = s.bus := rfl
  generalize s.entersRun.setDue _ = u at bus ⊢
  exact notices_roomy u (by omega) (fin19.filter fun n => u.status.summary.get n) (.inl (by rw [bus]; exact few))

theorem noticed_holds (few : s.bus.periodic.length ≤ 2) {n : Fin 19} (declared : s.status.summary.get n = true)
    (last : ∀ m, s.status.summary.get m = true → m ≤ n) : s.noticed.bus.holds (standingNotice s n) := by
  rw [noticed_bus]
  have bus : (s.entersRun.setDue (s.entersRun.due.atRun (decide (0 < s.entersRun.supply.level)))).bus = s.bus := rfl
  have status : (s.entersRun.setDue (s.entersRun.due.atRun (decide (0 < s.entersRun.supply.level)))).status = s.status := rfl
  generalize s.entersRun.setDue _ = u at bus status ⊢
  rw [← standingNotice_congr status]
  exact notified_holds (k := 2) (by omega) (.inl (by rw [bus]; exact few)) (by rw [status]; exact declared)
    (by rw [status]; exact last)

include fits calibrates

/-- Without drive no channel violates the interlock. -/
theorem entered_unviolated (drive : s.view.driveAccepted = false) (ch : Fin 2) : State.interlockOffers s s.runEntered ch = [] := by
  have none : s.runEntered.inViolation ch = false := by
    rw [State.inViolation, entered_view fits calibrates, drive, Bool.and_false, Bool.false_and]
  unfold State.interlockOffers
  rw [none]
  rfl

/-- Where nothing asks or moves, the Gatherer holds the last NOTICE after the command. -/
theorem entered_holds_notice (well : s.water.valveFault = false) (idle : s.runEntered.allIdle)
    (drive : s.view.driveAccepted = false) (wind : s.motion.windLockout = none) (few : s.bus.periodic.length ≤ 2) {n : Fin 19}
    (declared : s.status.summary.get n = true) (last : ∀ m, s.status.summary.get m = true → m ≤ n) :
    (State.publish s s.runEntered).bus.holds (standingNotice s n) := by
  obtain ⟨bus, due⟩ := (runEntered_lane fits calibrates idle drive wind).2 well
  have calm := entered_unviolated fits calibrates drive
  have quiet : s.runEntered.due.status2 = false := by
    rw [due, noticed_due, fits.sound.quiet.2.1]
    rfl
  have held : s.runEntered.bus.holds (standingNotice s n) := by
    rw [bus]
    exact noticed_holds few declared last
  have short : s.runEntered.bus.firm ≤ 3 := by
    rw [bus]
    exact (Bus.firm_le_length _).trans (noticed_room few).length
  have firm := offers_firm calm quiet
  rw [publish_lanes (entered_told fits calibrates) (entered_publishes fits calibrates) (entered_counters fits calibrates)]
  exact takes_holds_firm (by omega) (fun o m => .inl (offers_no_notice calm quiet m).symm) (by exact nofun) held

end

end Sys2Proof.Machine

namespace Sys2Proof.Proofs
open Sys2Proof.Machine

/-- On entry into Run (R181, R182). -/
theorem entryNotices_settle (s : State) (run : s.seq.phase = .run) : let u := s.runEntryNotices
    let notice := fun k : Fin 19 => Record.mk 0 (.notice
      { summary := s.status.summary.items, monitor := k.val, declared := true, count := s.status.changeCount })
    u.status.summary = s.status.summary ∧ u.status.changeCount = s.status.changeCount
      ∧ (u.status.attention = true ↔ s.status.attention = true
          ∨ ∃ n : Fin 19, n.val ∈ [1, 2, 3, 9, 10, 11, 12, 13, 16, 17] ∧ s.status.summary.get n = true)
      ∧ u.bus = ((List.finRange 19).filter fun k => s.status.summary.get k).foldl
          (fun b k => (b.join s.now { record := notice k, tag := 0 }).build s.now) s.bus
      ∧ (∀ k, s.status.summary.get k = true → (∀ m, s.status.summary.get m = true → m ≤ k) →
          s.bus.periodic.length ≤ 7 → u.bus.carries (notice k))
      ∧ ((∀ n, s.status.summary.get n = false) → u = s) := by
  dsimp only
  have inRun : s.inRun = true := beq_iff_eq.mpr run
  rw [runEntryNotices_eq inRun, ← fin19_eq]
  refine ⟨rfl, rfl, notified_attention s, rfl, fun k declared last few =>
    Bus.holds.carries (notified_holds (k := 7) le_rfl (.inl few) declared last), fun none => ?_⟩
  have silent : fin19.any (fun n => s.status.summary.get n && attentionClass n) = false := by
    rw [List.any_eq_false]
    intro n _
    rw [none n]
    nofun
  have nothing : fin19.filter (fun n => s.status.summary.get n) = [] :=
    List.filter_eq_nil_iff.mpr fun n _ => by rw [none n]; nofun
  unfold State.notified
  rw [silent, nothing, Bool.or_false]
  rfl

/-- Settles O21: a monitor's change, the NOTICEs on entry into Run, and the command that ends Calibrate. -/
theorem monitorChange : Obligations.MonitorChange := by
  unfold Obligations.MonitorChange
  intro s n d
  dsimp only
  obtain ⟨summary, count, due, attention, before, after, request, outcome⟩ := monitor_changes s n d
  refine ⟨summary, count, due, attention, before, after, request, outcome, fun run => entryNotices_settle s run,
    fun fits calibrates expires => ⟨_, entry_done calibrates expires, ?_⟩⟩
  obtain ⟨attention, fewer, stands⟩ := entered_status fits calibrates
  refine ⟨attention, fewer, fun sound well => ⟨(stands ⟨sound, well⟩).1, (stands ⟨sound, well⟩).2, fun idle drive wind few k declared last => ?_⟩⟩
  have idle : s.runEntered.allIdle := fun id => by
    rw [← (publish_handedOver s _ (entered_told fits calibrates)).claim id]
    exact idle id
  exact Bus.holds.carries (entered_holds_notice fits calibrates well idle drive wind few declared last)

end Sys2Proof.Proofs
end

