-- ==== Sys2Proof/Proofs/EntryPump.lean ====
section
/-! PROOFS. The pump's ask on entry into Run (R86, R92, R102). -/

namespace Sys2Proof.Machine

/-! ### What follows the Water Manager on entry into Run (R184) -/

section
variable (k : Scope) (n : Nat) (s : State)

theorem afterPad_tends (travel : ∀ ch, k.mons (Mon.travelFault ch)) (stall : ∀ ch, k.mons (Mon.stall ch))
    (motors : ∀ ch, k.loads (loadMotor ch)) (lit : ∀ g, k.loads (loadLights g)) : Tends k n s.heated.padFollows s.runEntered := by
  rw [runEntered_eq]
  exact (motored_tends k n s travel stall motors lit).trans (lightsEnter_tends k n _ lit)

theorem afterHeat_tends (travel : ∀ ch, k.mons (Mon.travelFault ch)) (stall : ∀ ch, k.mons (Mon.stall ch))
    (pad : k.loads loadPad) (motors : ∀ ch, k.loads (loadMotor ch)) (lit : ∀ g, k.loads (loadLights g)) :
    Tends k n s.heated s.runEntered := by
  have pad : Fact (k.loads loadPad) := ⟨pad⟩
  exact (padFollows_tends _).trans (afterPad_tends k n s travel stall motors lit)

theorem afterWater_tends (travel : ∀ ch, k.mons (Mon.travelFault ch)) (stall : ∀ ch, k.mons (Mon.stall ch))
    (heater : k.loads loadHeater) (pad : k.loads loadPad) (motors : ∀ ch, k.loads (loadMotor ch))
    (lit : ∀ g, k.loads (loadLights g)) : Tends k n s.noticed.waterEntersRun s.runEntered := by
  have heater : Fact (k.loads loadHeater) := ⟨heater⟩
  have heats : Tends k n s.noticed.waterEntersRun s.heated := (frostService_tends _).trans (heaterFollows_tends _)
  exact heats.trans (afterHeat_tends k n s travel stall pad motors lit)

end

/-- What comes after the heater on entry into Run leaves the Water Manager. -/
theorem motored_water (s : State) : s.motored.water = s.heated.padFollows.water := by
  unfold State.motored
  split
  · exact (motionEntersRun_moved _).water
  · rfl

theorem runEntered_water (s : State) : s.runEntered.water = s.noticed.waterEntersRun.water := by
  have lights := ((ceilingFollows_lit s.motored).trans (courtesyFollows_lit _ none)).moved.water
  have heat : s.heated.water = s.noticed.waterEntersRun.water :=
    ((frostService_warm s.noticed.waterEntersRun).trans (heaterFollows_warm _)).water
  rw [runEntered_eq]
  exact lights.trans ((motored_water s).trans ((padFollows_warm _).water.trans heat))

/-! ### The pump's ask on entry into Run (R86, R92, R102) -/

theorem Claim.asksAt.stirs {c d : Claim} {rank a : Nat} (h : c.asksAt rank a) (k : c.stirs d) :
    d.asksAt rank a ∧ d.single = c.single := by
  rcases k with rfl | ⟨-, rfl | ⟨n, rfl⟩⟩
  · exact ⟨h, rfl⟩
  · exact ⟨⟨.inr rfl, h.2.1, h.2.2⟩, rfl⟩
  · exact ⟨⟨.inl rfl, h.2.1, h.2.2⟩, rfl⟩

theorem demandWants_iff {s : State} (run : s.inRun = true) : s.demandWants = true ↔ s.pins.pdem = true ∧ s.water.runaway = false
    ∧ s.freshOk = true ∧ s.water.dumpCmdOpen = false ∧ s.pins.dumpOpen = false := by
  unfold State.demandWants State.valveClosed
  rw [run]
  simp only [Bool.and_eq_true, Bool.not_eq_true', and_assoc, and_true]

/-- What the demand path leaves on entry into Run. -/
structure Tapped (w t : State) : Prop where
  water : t.water = { w.water with pump := false, runawayTimer := none }
  asks : w.demandWants = true → (t.claim loadPump).asksAt 5 (Item.pumpDraw w.seq.values) ∧ (t.claim loadPump).single = false
  rests : w.demandWants = false → (t.claim loadPump).st = .idle

theorem State.PumpRests.tapped {w t : State} (rests : w.PumpRests) (water : t.water = w.demandFollows.water)
    (claim : (w.demandFollows.claim loadPump).stirs (t.claim loadPump)) : Tapped w t where
  water := water.trans (demandFollows_pump_off rests)
  asks wants := by
    obtain ⟨asks, single⟩ := demandFollows_wished rests wants
    obtain ⟨asks, same⟩ := asks.stirs claim
    exact ⟨asks, same.trans single⟩
  rests not := by
    rw [demandFollows_rested rests not] at claim
    exact Claim.stirs_idle claim (rests.idle _)

/-- A cycle fell due before Run (R91). -/
def State.fellDue (s : State) : Prop := s.water.cycle = .timing ∧ s.water.dueOnRun = true

section
variable {s t : State} (rests : s.PumpRests) (water : t.water = s.dueTaken.demandFollows.water)
  (claim : (s.dueTaken.demandFollows.claim loadPump).stirs (t.claim loadPump))
include rests water claim

theorem undue_tapped (not : ¬ s.fellDue) : Tapped s t := by
  have same : s.dueTaken = s := if_neg not
  rw [same] at water claim
  exact rests.tapped water claim

section
variable (due : s.fellDue)
include due

theorem skipped_tapped (low : s.freshOk = false) : Tapped (s.timing (Item.frostIntervalMs s.seq.values)) t := by
  have same : s.dueTaken = (s.timing 0).takeDue := if_pos due
  have skips : (s.timing 0).takeDue = (s.timing 0).timing (Item.frostIntervalMs s.seq.values) := takeDue_skips (s := s.timing 0) low
  have again : (s.timing 0).timing (Item.frostIntervalMs s.seq.values) = s.timing (Item.frostIntervalMs s.seq.values) := rfl
  rw [same, skips, again] at water claim
  exact (rests.timing _).tapped water claim

variable (fresh : s.freshOk = true) (owed : s.water.owed < 4)
include fresh owed

/-- A due cycle whose pre-test passes asks with a Try at rank 1. -/
theorem tried_asks (passes : s.passes loadPump 1 (Item.pumpDraw s.seq.values) = true) :
    t.water = { s.water with
        cycle := .asking, dueTimer := none, dueOnRun := false, circTimer := none, pump := false, runawayTimer := none }
      ∧ (t.claim loadPump).asksAt 1 (Item.pumpDraw s.seq.values) ∧ (t.claim loadPump).single = true := by
  have same : s.dueTaken = (s.timing 0).takeDue := if_pos due
  rw [same] at water claim
  have timed := rests.timing 0
  obtain ⟨asking, contests⟩ := takeDue_contests timed.due (show (s.timing 0).freshOk = true from fresh)
    (show (s.timing 0).water.owed < 4 from owed) (by rw [timed.idle]; nofun)
    (show (s.timing 0).passes loadPump 1 (Item.pumpDraw (s.timing 0).seq.values) = true from passes)
  have base := (takeDue_calm (s.timing 0) timed.ok).2.1
  have ok := (takeDue_calm (s.timing 0) timed.ok).1
  have fitted : (s.timing 0).takeDue.seq.fns.water = true := by rw [base.seq]; exact timed.fitted
  have run : (s.timing 0).takeDue.inRun = true := by rw [State.inRun, base.seq]; exact timed.run
  have timedWater := timing_water s 0
  have timedClaim : (s.timing 0).claim loadPump = s.claim loadPump := rfl
  have seq : (s.timing 0).seq = s.seq := rfl
  generalize s.timing 0 = u at *
  have holds : u.takeDue.water.cycle.holdsClaim = true := by rw [asking]; rfl
  have kept := demandFollows_cycling fitted run holds
  have ends := demandFollows_water fitted run ok
  rw [kept, contests, seq] at claim
  have undrawn : (u.takeDue.demandFollows.claim loadPump).drawing = false := by
    rw [kept, contests]
    rfl
  unfold State.pumped at ends
  rw [pumpOn_undrawn undrawn, asking, timedWater] at ends
  have asks : (((u.claim loadPump).asking 1 (Item.pumpDraw s.seq.values) true).toContest u.broker.nextSerial).asksAt 1
      (Item.pumpDraw s.seq.values) := ⟨.inl rfl, rfl, rfl⟩
  obtain ⟨asks, single⟩ := asks.stirs claim
  exact ⟨water.trans ends, asks, single⟩

theorem deferred_tapped (fails : s.passes loadPump 1 (Item.pumpDraw s.seq.values) = false) : ∃ w, s.Spared w ∧ Tapped w t
    ∧ w.water = { s.water with
        cycle := .timing, owed := s.water.owed + 1, dueTimer := some (Item.frostIntervalMs s.seq.values)
        dueOnRun := false, circTimer := none } := by
  have same : s.dueTaken = (s.timing 0).takeDue := if_pos due
  rw [same] at water claim
  obtain ⟨w, spared, eq, figures⟩ := takeDue_defers (rests.timing 0) (show (s.timing 0).freshOk = true from fresh)
    (show (s.timing 0).water.owed < 4 from owed) (show (s.timing 0).passes loadPump 1 (Item.pumpDraw (s.timing 0).seq.values) = false from fails)
  rw [eq, demandFollows_again spared.rests] at water claim
  exact ⟨w, ⟨spared.rests, spared.seq, spared.pins, spared.view, spared.supply, spared.climate, spared.motion, spared.lights,
    spared.due, spared.bus, spared.guard, spared.lane, spared.others⟩, spared.rests.tapped water claim, figures⟩

end
end

end Sys2Proof.Machine
end

