-- ==== Sys2Proof/Proofs/EntryTap.lean ====
section
/-! PROOFS. The Water Manager after entry into Run (R86, R91, R92, R102). -/

namespace Sys2Proof.Machine

/-! ### The figures a claim is tested against, on entry into Run (R36, R37) -/

theorem entersRun_passes (s : State) (id : Fin 7) (rank a : Nat) : s.entersRun.passes id rank a = s.passes id rank a := rfl

theorem sameLine_fault {b c : Bus} (h : b.sameLine c) : c.lineFault = b.lineFault := by
  unfold Bus.sameLine at h
  rw [h]

theorem noticed_line {s : State} (o : s.Ok) : s.noticed.bus.lineFault = s.bus.lineFault := by
  have ok : s.entersRun.Ok := ⟨o.checked, o.lanes, o.claims, o.dropped, o.changes⟩
  have bus : s.entersRun.bus = s.bus := rfl
  have calm : Calm s.entersRun s.noticed := by
    unfold State.noticed
    exact (setDue_calm _ _).trans (runEntryNotices_calm _)
  rw [← bus]
  generalize s.entersRun = u at *
  exact sameLine_fault (calm ok).2.1.bus

theorem noticed_passes {s : State} (o : s.Ok) (id : Fin 7) (rank a : Nat) : s.noticed.passes id rank a = s.passes id rank a := by
  have same : s.noticed.passes id rank a = s.entersRun.passes id rank a :=
    passes_congr (s := s.entersRun) (by rw [noticed_eq]; rfl) (by rw [noticed_eq]; rfl) (noticed_seq s) (by rw [noticed_eq]; rfl)
      (noticed_line o) id rank a
  exact same.trans (entersRun_passes s id rank a)

/-! ### The Water Manager after entry into Run (R86, R91, R92, R98, R102) -/

/-- A claim asks at a rank for an amount, as the statement of O20 tests it. -/
theorem Claim.asksAt_iff (c : Claim) (rank a : Nat) :
    decide ((c.st = .contest ∨ c.st = .waiting) ∧ c.rank = rank ∧ c.asked = a) = true ↔ c.asksAt rank a := decide_eq_true_iff

theorem Tapped.ends {w t : State} {wants : Prop} [Decidable wants] (h : Tapped w t) (iff : w.demandWants = true ↔ wants) :
    if wants then (t.claim loadPump).asksAt 5 (Item.pumpDraw w.seq.values) ∧ (t.claim loadPump).single = false
    else (t.claim loadPump).st = .idle := by
  split
  · next yes => exact h.asks (iff.mpr yes)
  · next not => exact h.rests (by rw [← Bool.not_eq_true, iff]; exact not)

theorem dumpDriven_water (s : State) : s.dumpDriven.water
    = { s.water with dumpDrive := if s.water.dumpCmdOpen then .toOpen else .toClosed } := rfl

theorem dumpDriven_rest (s : State) : s.dumpDriven.seq = s.seq ∧ s.dumpDriven.pins = s.pins
    ∧ ∀ id rank a, s.dumpDriven.passes id rank a = s.passes id rank a := ⟨rfl, rfl, fun _ _ _ => rfl⟩

theorem State.PumpRests.dumpDriven {s : State} (h : s.PumpRests) : s.dumpDriven.PumpRests := h.setWater _ h.free h.calm

/-- The pump's stage of entry into Run, as it stands in the end. -/
theorem driven_water (s : State) : s.noticed.dumpDriven.water
    = { s.water with dumpDrive := if s.water.dumpCmdOpen then .toOpen else .toClosed } := by
  rw [dumpDriven_water, noticed_water]

section
variable {s : State} (fits : s.Fits) (calibrates : s.seq.phase = .calibrate) (fitted : s.seq.fns.water = true)
include fitted

theorem entered_water_eq : s.runEntered.water = s.noticed.dumpDriven.dueTaken.demandFollows.water := by
  rw [runEntered_water, waterEntersRun_eq (s := s.noticed) (by rw [noticed_seq]; exact fitted)]

include fits calibrates

theorem entered_pump_stirs :
    (s.noticed.dumpDriven.dueTaken.demandFollows.claim loadPump).stirs (s.runEntered.claim loadPump) := by
  have eq := waterEntersRun_eq (s := s.noticed) (by rw [noticed_seq]; exact fitted)
  have ok := (waterEntersRun_calm _ (noticed_order fits calibrates).1).1
  rw [← eq]
  exact Tends.stirs (loads := (· ≠ loadPump)) ok (fun n => afterWater_tends _ n s (fun _ => trivial) (fun _ => trivial)
    (by decide) (by decide) (by decide) (by decide)) (not_not.mpr rfl)

/-- What the Water Manager shows and asks for in the end, with fewer than four cycles owed. -/
theorem entered_water (owed : s.water.owed < 4) :
    let t := s.runEntered
    let pump := t.claim loadPump
    let draw := Item.pumpDraw s.seq.values
    let interval := Item.frostIntervalMs s.seq.values
    let wants := s.pins.pdem = true ∧ s.water.runaway = false ∧ s.freshOk = true ∧ s.water.dumpCmdOpen = false ∧ s.pins.dumpOpen = false
    t.water.dumpDrive = (if t.water.dumpCmdOpen = true then .toOpen else .toClosed)
      ∧ t.water.dumpCmdOpen = s.water.dumpCmdOpen ∧ t.water.pump = false ∧ t.water.guard = s.water.guard
      ∧ (s.fellDue → s.freshOk = false → t.water.cycle = .timing ∧ t.water.dueTimer = some interval
          ∧ t.water.owed = s.water.owed ∧ pump.st = .idle)
      ∧ (s.fellDue → s.freshOk = true → s.passes loadPump 1 draw = true →
          t.water.cycle = .asking ∧ pump.asksAt 1 draw ∧ pump.single = true)
      ∧ (s.fellDue → s.freshOk = true → s.passes loadPump 1 draw = false →
          t.water.cycle = .timing ∧ t.water.dueTimer = some interval ∧ t.water.owed = s.water.owed + 1)
      ∧ (¬ s.fellDue → t.water.cycle = s.water.cycle ∧ t.water.owed = s.water.owed)
      ∧ (t.water.cycle ≠ .asking → if wants then pump.asksAt 5 draw ∧ pump.single = false else pump.st = .idle) := by
  dsimp only
  have claim := entered_pump_stirs fits calibrates fitted
  have water := entered_water_eq fitted
  have driven := driven_water s
  have free := calibrates_free fits calibrates
  have rests := (noticed_rests fits calibrates fitted).dumpDriven
  obtain ⟨seq, pins, passes⟩ := dumpDriven_rest s.noticed
  have seq : s.noticed.dumpDriven.seq.values = s.seq.values := by rw [seq, noticed_seq]
  have pins : s.noticed.dumpDriven.pins = s.pins := pins.trans (by rw [noticed_eq])
  have passes : ∀ rank a, s.noticed.dumpDriven.passes loadPump rank a = s.passes loadPump rank a := fun rank a =>
    (passes loadPump rank a).trans (noticed_passes fits.sound.ok loadPump rank a)
  generalize s.noticed.dumpDriven = u at *
  generalize s.runEntered = t at *
  have due : u.fellDue ↔ s.fellDue := by unfold State.fellDue; rw [driven]
  have fresh : u.freshOk = s.freshOk := freshOk_congr (by rw [driven])
  have owes : u.water.owed = s.water.owed := by rw [driven]
  have wants : ∀ {w : State}, w.inRun = true → w.pins = u.pins → w.water.runaway = s.water.runaway → w.water.tanks = s.water.tanks →
      w.water.dumpCmdOpen = s.water.dumpCmdOpen → (w.demandWants = true ↔ s.pins.pdem = true ∧ s.water.runaway = false
        ∧ s.freshOk = true ∧ s.water.dumpCmdOpen = false ∧ s.pins.dumpOpen = false) := fun run same runaway tanks cmd => by
    rw [demandWants_iff run, same, pins, runaway, freshOk_congr tanks, cmd]
  by_cases fell : s.fellDue
  · have fell' := due.mpr fell
    cases full : s.freshOk with
    | false =>
      have tapped := skipped_tapped rests water claim fell' (fresh.trans full)
      rw [seq] at tapped
      have figures := tapped.water
      rw [timing_water, driven] at figures
      have iff := wants (w := u.timing (Item.frostIntervalMs s.seq.values)) rests.run rfl (by rw [timing_water, driven])
        (by rw [timing_water, driven]) (by rw [timing_water, driven])
      have idle : (t.claim loadPump).st = .idle := tapped.rests (by
        rw [← Bool.not_eq_true, iff, full]
        exact fun h => absurd h.2.2.1 nofun)
      rw [figures]
      refine ⟨rfl, rfl, rfl, rfl, fun _ _ => ⟨rfl, rfl, rfl, idle⟩, fun _ => nofun, fun _ => nofun, fun not => absurd fell not,
        fun _ => ?_⟩
      rw [if_neg (fun h => absurd h.2.2.1 nofun)]
      exact idle
    | true =>
      cases pass : s.passes loadPump 1 (Item.pumpDraw s.seq.values) with
      | true =>
        obtain ⟨figures, asks, single⟩ := tried_asks rests water claim fell' (fresh.trans full) (owes ▸ owed)
          (by rw [seq, passes]; exact pass)
        rw [seq] at asks
        rw [driven] at figures
        rw [figures]
        exact ⟨rfl, rfl, rfl, rfl, fun _ => nofun, fun _ _ _ => ⟨rfl, asks, single⟩, fun _ _ => nofun, fun not => absurd fell not,
          fun not => absurd rfl not⟩
      | false =>
        obtain ⟨w, spared, tapped, figures⟩ := deferred_tapped rests water claim fell' (fresh.trans full) (owes ▸ owed)
          (by rw [seq, passes]; exact pass)
        rw [driven, seq] at figures
        have iff := wants spared.rests.run spared.pins (by rw [figures]) (by rw [figures]) (by rw [figures])
        have ends := tapped.ends iff
        have shown := tapped.water
        rw [figures] at shown
        rw [spared.seq, seq, full] at ends
        rw [shown]
        exact ⟨rfl, rfl, rfl, rfl, fun _ => nofun, fun _ _ => nofun, fun _ _ _ => ⟨rfl, rfl, rfl⟩, fun not => absurd fell not,
          fun _ => ends⟩
  · have tapped := undue_tapped rests water claim (mt due.mp fell)
    have iff := wants rests.run rfl (by rw [driven]) (by rw [driven]) (by rw [driven])
    have ends := tapped.ends iff
    have shown := tapped.water
    rw [driven] at shown
    rw [seq] at ends
    rw [shown]
    exact ⟨rfl, rfl, rfl, rfl, fun yes => absurd yes fell, fun yes => absurd yes fell, fun yes => absurd yes fell,
      fun _ => ⟨rfl, rfl⟩, fun _ => ends⟩

end

end Sys2Proof.Machine
end

