-- ==== Sys2Proof/Proofs/EntryHearth.lean ====
section
/-! PROOFS. The heater through the Water Manager's stage of entry into Run (R110, R111). -/

namespace Sys2Proof.Machine

/-! ### The heater on entry into Run (R110, R111) -/

/-- The heater stands as `c` has it, and where it is Off its claim asks at its reason's rank. -/
structure State.Hearth (c : Climate) (s : State) : Prop where
  ok : s.Ok
  fits : s.heaterFits
  heater : s.climate.heater = c.heater
  call : s.climate.call = c.call
  lockout : s.climate.lockout = c.lockout
  chosen : s.climate.chosen = c.chosen
  ranked : (s.claim loadHeater).st ≠ .idle → (s.claim loadHeater).rank = s.heaterRank

/-- Frost service is what its inputs give, or the heater's claim is Idle. -/
def State.frostServed (s : State) : Prop := s.climate.frost = s.frostServiceNow ∨ (s.claim loadHeater).st = .idle

section
variable {c : Climate} {s : State} (h : State.Hearth c s)
include h

/-- Nothing of the heater has changed but that its claim is stirred. -/
theorem State.Hearth.stirs {t : State} (ok : t.Ok) (climate : t.climate = s.climate) (seq : t.seq = s.seq)
    (claim : (s.claim loadHeater).stirs (t.claim loadHeater)) : State.Hearth c t where
  ok := ok
  fits := h.fits.stirs climate (by rw [seq]) claim
  heater := by rw [climate]; exact h.heater
  call := by rw [climate]; exact h.call
  lockout := by rw [climate]; exact h.lockout
  chosen := by rw [climate]; exact h.chosen
  ranked away := by
    have rank : (t.claim loadHeater).rank = (s.claim loadHeater).rank := by
      rcases claim with e | ⟨-, e | ⟨n, e⟩⟩ <;> rw [e] <;> rfl
    have same : t.heaterRank = s.heaterRank := by rw [State.heaterRank, State.heaterRank, climate]
    rw [rank, same]
    exact h.ranked fun idle => away (Claim.stirs_idle claim idle)

variable (draws : s.heaterDraws) (fitted : s.seq.fns.heat = true) (run : s.inRun = true)
  (rest : c.heater = .off ∨ c.heater = .lockout)
include draws fitted run rest

/-- The heater follows: it stays as it was, and its claim asks exactly where it is Off and wanted. -/
theorem State.Hearth.follows : State.Hearth c s.heaterFollows ∧ s.heaterFollows.climate.frost = s.climate.frost
    ∧ (c.heater = .off → (s.heaterWanted = true ↔ (s.heaterFollows.claim loadHeater).st ≠ .idle)) := by
  have followed := heaterFollows_followed h.ok h.fits draws fitted run
  have stays : s.heaterFollows.climate.heater = s.climate.heater := by
    rcases followed.stays with e | ⟨e, -⟩
    · exact e
    · rw [h.heater] at e
      rcases rest with r | r <;> rw [r] at e <;> rcases e with e | e <;> cases e
  have ok := (heaterFollows_calm s h.ok).1
  have rank : s.heaterFollows.heaterRank = s.heaterRank := by rw [State.heaterRank, State.heaterRank, followed.frost]
  have ranked : (s.heaterFollows.claim loadHeater).st ≠ .idle → (s.heaterFollows.claim loadHeater).rank = s.heaterRank := by
    intro away
    have off : s.climate.heater = .off := by
      rcases rest with r | r
      · exact h.heater.trans r
      · exact absurd (HeaterOrder.locks followed.fits (stays.trans (h.heater.trans r))) away
    have wanted := (followed.off (stays.trans off)).mpr away
    by_cases idle : (s.claim loadHeater).st = .idle
    · exact followed.rank off idle wanted
    · have same : s.heaterActs = s := by
        unfold State.heaterActs
        rw [off]
        cases st : (s.claim loadHeater).st with
        | idle => exact absurd st idle
        | waiting =>
          dsimp only
          rw [if_pos wanted, if_pos (h.ranked idle)]
        | contest => exact if_pos wanted
        | held => rfl
        | forced => rfl
      rw [heaterFollows_eq fitted run, same]
      exact h.ranked idle
  refine ⟨⟨ok, followed.fits, stays.trans h.heater, followed.call.trans h.call, followed.locked.trans h.lockout,
    followed.chosen.trans h.chosen, by rw [rank]; exact ranked⟩, followed.frost, fun off => followed.off (stays.trans (h.heater.trans off))⟩

/-- Frost service is worked out, and the heater follows where it turns. -/
theorem State.Hearth.serves (served : s.frostServed) :
    State.Hearth c s.frostService ∧ s.frostService.climate.frost = s.frostServiceNow := by
  rw [frostService_eq h.ok fitted run]
  split
  · next same => exact ⟨h, same.symm⟩
  · next turns =>
    have idle := served.resolve_left fun e => turns e.symm
    have hearth : State.Hearth c (s.setClimate { s.climate with
        frost := s.frostServiceNow, tryFailed := s.climate.tryFailed && s.frostServiceNow }) :=
      { ok := (setClimate_calm s _ h.ok).1, fits := HeaterOrder.free h.fits rfl, heater := h.heater, call := h.call
        lockout := h.lockout, chosen := h.chosen, ranked := fun away => absurd idle away }
    have drawsU : (s.setClimate { s.climate with
        frost := s.frostServiceNow, tryFailed := s.climate.tryFailed && s.frostServiceNow }).heaterDraws := draws
    obtain ⟨ends, frost, -⟩ := hearth.follows drawsU fitted run rest
    exact ⟨ends, frost⟩

end

/-! ### The heater through the Water Manager's stage (R93, R110) -/

/-- The heater's claim is stirred and nothing else of what the heater goes by has changed. -/
structure Heatless (s t : State) : Prop where
  ok : t.Ok
  climate : t.climate = s.climate
  seq : t.seq = s.seq
  view : t.view = s.view
  claim : (s.claim loadHeater).stirs (t.claim loadHeater)

theorem Heatless.trans {s t u : State} (h : Heatless s t) (k : Heatless t u) : Heatless s u :=
  ⟨k.ok, k.climate.trans h.climate, k.seq.trans h.seq, k.view.trans h.view, Claim.stirs_trans h.claim k.claim⟩

theorem setWater_heatless {s : State} (o : s.Ok) (w : Water) : Heatless s (s.setWater w) :=
  ⟨(setWater_calm s w o).1, rfl, rfl, rfl, .inl rfl⟩

/-- The pump's owner reaches no other claim. -/
theorem Asks.heatless {s t : State} (o : s.Ok) (h : Asks (· = loadPump) s t) (shared : Shared s t) (view : t.view = s.view) :
    Heatless s t where
  ok := (h o).1
  climate := shared.climate
  seq := shared.seq
  view := view
  claim := Tends.stirs (loads := (· = loadPump)) o (fun n => h.tends_within fun _ e => e) (by decide)

theorem demandFollows_heatless {s : State} (o : s.Ok) : Heatless s s.demandFollows where
  ok := (demandFollows_calm s o).1
  climate := demandFollows_climate s
  seq := (demandFollows_calm s o).2.1.seq
  view := (demandFollows_calm s o).2.1.view
  claim := by
    have pump : Fact ((fun id => id = loadPump) loadPump) := ⟨rfl⟩
    exact Tends.stirs (loads := (· = loadPump)) o (fun n => demandFollows_tends s) (by decide)

section
variable {c : Climate} {s t : State} (h : State.Hearth c s) (k : Heatless s t)
include h k

theorem State.Hearth.heatless : State.Hearth c t := h.stirs k.ok k.climate k.seq k.claim

omit h in
theorem Heatless.idle (idle : (s.claim loadHeater).st = .idle) : (t.claim loadHeater).st = .idle := Claim.stirs_idle k.claim idle

omit h in
theorem Heatless.served (demand : t.water.demand = s.water.demand) (served : s.frostServed) : t.frostServed := by
  unfold State.frostServed
  rw [k.climate, frostServiceNow_congr k.view k.seq k.climate demand]
  exact served.imp id k.idle

end

section
variable {s : State} (rests : s.PumpRests) (fresh : s.freshOk = true)
include rests fresh

/-- The Try of a due cycle whose pre-test passes. -/
theorem takeDue_asks_heatless (owed : s.water.owed < 4) (passes : s.passes loadPump 1 (Item.pumpDraw s.seq.values) = true) :
    Heatless s s.takeDue := by
  rw [takeDue_tries fresh owed (by rw [rests.idle]; nofun)]
  have put := setWater_heatless rests.ok { s.water with cycle := .asking, dueTimer := none, dueOnRun := false }
  have idle : ((s.setWater { s.water with cycle := .asking, dueTimer := none, dueOnRun := false }).claim loadPump).drawing = false :=
    rests.undrawn
  have passes : (s.setWater { s.water with cycle := .asking, dueTimer := none, dueOnRun := false }).passes loadPump 1
      (min (Item.pumpDraw s.seq.values) 30000) = true := by
    rw [show min (Item.pumpDraw s.seq.values) 30000 = Item.pumpDraw s.seq.values from Nat.min_eq_left rests.draw.2]
    exact passes
  generalize s.setWater { s.water with cycle := .asking, dueTimer := none, dueOnRun := false } = u at put idle passes ⊢
  have asks := ask_asks u loadPump 1 (Item.pumpDraw s.seq.values) true (by decide)
  have shared := ask_shared u loadPump 1 (Item.pumpDraw s.seq.values) true
  have view := (ask_calm u loadPump 1 (Item.pumpDraw s.seq.values) true (by decide) put.ok).2.1.view
  have reply := (ask_passes put.ok (Item.pumpDraw s.seq.values) true rests.draw.1 idle (by decide) passes).1
  generalize u.ask loadPump 1 (Item.pumpDraw s.seq.values) true = r at *
  obtain ⟨t, answer⟩ := r
  subst reply
  exact put.trans (asks.heatless put.ok shared view)

/-- The Force of a due cycle with four owed. -/
theorem takeDue_forces_heatless (owed : ¬ s.water.owed < 4) (charged : s.forcedCondition = true) :
    ∃ x, s.takeDue = x.enterCirculating ∧ Heatless s x ∧ (x.claim loadPump).st = .forced := by
  have eq : s.takeDue = match s.force loadPump (Item.pumpDraw s.seq.values) with
      | (s, .granted) => s.enterCirculating
      | (s, _) => s.openDump := by
    unfold State.takeDue
    dsimp only
    rw [if_neg (by simp [fresh]), if_neg owed] <;> rfl
  have result := force_claim rests.ok loadPump (Item.pumpDraw s.seq.values)
  rw [if_pos charged] at result
  have asks := force_asks s loadPump (Item.pumpDraw s.seq.values)
  have shared := force_shared s loadPump (Item.pumpDraw s.seq.values)
  have view := (force_calm s loadPump (Item.pumpDraw s.seq.values) rests.ok).2.1.view
  rw [eq]
  generalize s.force loadPump (Item.pumpDraw s.seq.values) = r at *
  obtain ⟨t, answer⟩ := r
  obtain ⟨reply, claim⟩ := result
  subst reply
  exact ⟨t, rfl, asks.heatless rests.ok shared view, by rw [claim]⟩

end

section
variable {c : Climate} {s : State} (h : State.Hearth c s) (rests : s.PumpRests) (draws : s.heaterDraws)
  (rest : c.heater = .off ∨ c.heater = .lockout)
include h rests

/-- The pump's owner has done no more than ask: the heater's claim stays Idle. -/
theorem State.Hearth.idly {t : State} (k : Heatless s t) : State.Hearth c t ∧ t.frostServed :=
  ⟨h.heatless k, .inr (k.idle (rests.idle _))⟩

include draws rest

/-- A cycle that circulates raises the frost demand of the station (R93). -/
theorem State.Hearth.circulates {t : State} (k : Heatless s t) (pump : (t.claim loadPump).drawing = true) (heat : s.seq.fns.heat = true) :
    State.Hearth c t.enterCirculating.demandFollows ∧ t.enterCirculating.demandFollows.frostServed := by
  have first := setWater_heatless k.ok { t.water with cycle := .circulating, circTimer := some Config.circulationMs, dueTimer := none }
  obtain ⟨figures, -⟩ := enterCirculating_water k.ok pump
  have okT := (enterCirculating_calm t k.ok).1
  have after := demandFollows_heatless okT
  have same := demandFollows_cycle t.enterCirculating
  have rise : State.Hearth c t.enterCirculating ∧ t.enterCirculating.frostServed := by
    have eq : t.enterCirculating = ((t.setWater { t.water with
        cycle := .circulating, circTimer := some Config.circulationMs, dueTimer := none }).setDemand true).pumpFollows := rfl
    rw [eq]
    have begun := k.trans first
    generalize t.setWater { t.water with
      cycle := .circulating, circTimer := some Config.circulationMs, dueTimer := none } = u at begun ⊢
    have idle := begun.idle (rests.idle _)
    have demanded : State.Hearth c (u.setDemand true) ∧ (u.setDemand true).frostServed := by
      unfold State.setDemand
      split
      · exact ⟨h.heatless begun, .inr idle⟩
      · have put := begun.trans (setWater_heatless begun.ok { u.water with demand := true })
        have water : (u.setWater { u.water with demand := true }).water.demand = true := rfl
        generalize u.setWater { u.water with demand := true } = v at put water ⊢
        have served := (h.heatless put).serves (by unfold State.heaterDraws; rw [put.seq]; exact draws)
          (by rw [put.seq]; exact heat) (by rw [State.inRun, put.seq]; exact rests.run) rest (.inr (put.idle (rests.idle _)))
        have base := (frostService_calm v put.ok).2.1
        have still := (frostService_warm v).water
        have now : v.frostService.frostServiceNow = v.frostServiceNow := by
          have chosen : v.frostService.climate.chosen = v.climate.chosen :=
            served.1.chosen.trans (h.heatless put).chosen.symm
          unfold State.frostServiceNow State.inRun State.modeInForce State.entries
          rw [base.seq, base.view, chosen, still]
        exact ⟨served.1, .inl (served.2.trans now.symm)⟩
    have pumps := setWater_heatless demanded.1.ok ((u.setDemand true).pumped ((u.setDemand true).claim loadPump))
    rw [pumpFollows_eq]
    exact ⟨demanded.1.heatless pumps, pumps.served rfl demanded.2⟩
  exact ⟨rise.1.heatless after, after.served same.2.2.1 rise.2⟩

/-- A due cycle that is taken, or none, and the demand path after it. -/
theorem State.Hearth.dueTaken (heat : s.seq.fns.heat = true) :
    State.Hearth c s.dueTaken.demandFollows ∧ s.dueTaken.demandFollows.frostServed := by
  unfold State.dueTaken
  split
  · next due =>
    have timed := rests.timing 0
    have hearth := h.heatless (setWater_heatless rests.ok { s.water with cycle := .timing, dueTimer := some 0, dueOnRun := false, circTimer := none })
    have hearth : State.Hearth c (s.timing 0) := hearth
    have draws : (s.timing 0).heaterDraws := draws
    have heat : (s.timing 0).seq.fns.heat = true := heat
    have cycle : (s.timing 0).water.cycle = .timing := rfl
    generalize s.timing 0 = u at *
    have spared : ∀ {w}, u.Spared w → u.takeDue = w.demandFollows →
        State.Hearth c u.takeDue.demandFollows ∧ u.takeDue.demandFollows.frostServed := fun {w} spared eq => by
      rw [eq, demandFollows_again spared.rests]
      have still : Heatless u w := ⟨spared.rests.ok, spared.climate, spared.seq, spared.view, .inl (spared.others _ (by decide))⟩
      exact hearth.idly timed (still.trans (demandFollows_heatless spared.rests.ok))
    cases fresh : u.freshOk with
    | false =>
      rw [takeDue_skips (s := u) fresh]
      have still := setWater_heatless timed.ok { u.water with
        cycle := .timing, dueTimer := some (Item.frostIntervalMs u.seq.values), dueOnRun := false, circTimer := none }
      exact hearth.idly timed (still.trans (demandFollows_heatless still.ok))
    | true =>
      by_cases owed : u.water.owed < 4
      · cases passes : u.passes loadPump 1 (Item.pumpDraw u.seq.values) with
        | false =>
          obtain ⟨w, sparedW, eq, -⟩ := takeDue_defers timed fresh owed passes
          exact spared sparedW eq
        | true =>
          have still := takeDue_asks_heatless timed fresh owed passes
          exact hearth.idly timed (still.trans (demandFollows_heatless still.ok))
      · cases charged : u.forcedCondition with
        | false =>
          obtain ⟨w, sparedW, eq⟩ := takeDue_opens timed fresh owed cycle charged
          exact spared sparedW eq
        | true =>
          obtain ⟨x, eq, still, forced⟩ := takeDue_forces_heatless timed fresh owed charged
          rw [eq]
          exact hearth.circulates timed draws rest still (by rw [Claim.drawing, forced]; rfl) heat
  · exact h.idly rests (demandFollows_heatless rests.ok)

end

end Sys2Proof.Machine
end

