-- ==== Sys2Proof/Proofs/EntryClimate.lean ====
section
/-! PROOFS. The Climate Controller after entry into Run (R110, R111, R119). -/

namespace Sys2Proof.Machine

/-! ### The climate after entry into Run (R110, R111, R119) -/

theorem padFollows_climate {s : State} (o : s.Ok) : s.padFollows.climate
    = { s.climate with padWanted := s.padFollows.climate.padWanted, pad := s.padFollows.climate.pad } := by
  unfold State.padFollows
  rw [readSupply_checked o.checked, readAll_checked o.checked]
  split
  · dsimp only
    generalize hu : s.setClimate { s.climate with padWanted := s.padWantedNow } = u
    have climate : u.climate = { s.climate with padWanted := s.padWantedNow } := by rw [← hu]; rfl
    split
    · split
      · rw [(ask_shared u loadPad 2 (Item.padDraw u.seq.values) false).climate, climate]
      · rw [climate]
    · rw [(release_shared _ loadPad).climate]
      show ({ u.climate with pad := false } : Climate) = _
      rw [climate]
      rfl
  · rfl

/-- A pad that is wanted asks at rank 2, where its claim is Idle. -/
theorem padFollows_asks {s : State} (o : s.Ok) (draw : 1 ≤ Item.padDraw s.seq.values ∧ Item.padDraw s.seq.values ≤ 30000)
    (fitted : s.seq.fns.heat = true) (pad : Item.padFitted s.seq.values = true) (run : s.inRun = true)
    (idle : (s.claim loadPad).st = .idle) (wanted : s.padWantedNow = true) :
    (s.padFollows.claim loadPad).asksAt 2 (Item.padDraw s.seq.values) := by
  rw [padFollows_eq o fitted pad run]
  dsimp only
  rw [if_pos wanted, if_pos idle]
  have okU := (setClimate_calm s { s.climate with padWanted := s.padWantedNow } o).1
  have idleU : ((s.setClimate { s.climate with padWanted := s.padWantedNow }).claim loadPad).drawing = false := by
    show (s.claim loadPad).drawing = false
    simp [Claim.drawing, idle]
  generalize s.setClimate { s.climate with padWanted := s.padWantedNow } = u at okU idleU ⊢
  have least : min (Item.padDraw s.seq.values) 30000 = Item.padDraw s.seq.values := Nat.min_eq_left draw.2
  cases passes : u.passes loadPad 2 (min (Item.padDraw s.seq.values) 30000) with
  | true =>
    rw [(ask_passes okU _ false draw.1 idleU (by decide) passes).2, least]
    exact ⟨.inl rfl, rfl, rfl⟩
  | false =>
    rw [(ask_fails okU _ false draw.1 idleU (by decide) passes rfl).2, least]
    exact ⟨.inr rfl, rfl, rfl⟩

theorem Lit.climate {s t : State} (h : Lit s t) : t.climate = s.climate := Shared.climate (s := { s with lights := t.lights }) h

theorem Moved.climate {s t : State} (h : Moved s t) : t.climate = s.climate :=
  Shared.climate (s := { s with motion := t.motion, lights := t.lights }) h

theorem runEntered_climate (s : State) : s.runEntered.climate = s.heated.padFollows.climate := by
  have lights := ((ceilingFollows_lit s.motored).trans (courtesyFollows_lit _ none)).climate
  have motion : s.motored.climate = s.heated.padFollows.climate := by
    unfold State.motored
    split
    · exact (motionEntersRun_moved _).climate
    · rfl
  rw [runEntered_eq]
  exact lights.trans motion

theorem noticed_rest (s : State) : s.noticed.pins = s.pins ∧ s.noticed.supply = s.supply := ⟨by rw [noticed_eq], by rw [noticed_eq]⟩

section
variable {s : State} (fits : s.Fits) (calibrates : s.seq.phase = .calibrate) (fitted : s.seq.fns.heat = true)
include fits calibrates fitted

theorem calibrates_heater : s.climate.heater = .off ∨ s.climate.heater = .lockout :=
  HeaterOrder.rests fits.heater (calibrates_idle fits calibrates _)

theorem noticed_draws : s.noticed.heaterDraws := by
  unfold State.heaterDraws
  rw [noticed_seq]
  exact fits.values.heaterDraws

theorem noticed_hearth : State.Hearth s.climate s.noticed where
  ok := (noticed_order fits calibrates).1
  fits := by
    unfold State.heaterFits
    rw [noticed_climate, noticed_seq]
    exact HeaterOrder.idle fits.heater (calibrates_heater fits calibrates fitted) (noticed_idle fits calibrates _)
  heater := by rw [noticed_climate]
  call := by rw [noticed_climate]
  lockout := by rw [noticed_climate]
  chosen := by rw [noticed_climate]
  ranked away := absurd (noticed_idle fits calibrates _) away

theorem watered_hearth : State.Hearth s.climate s.noticed.waterEntersRun ∧ s.noticed.waterEntersRun.frostServed := by
  have hearth := noticed_hearth fits calibrates fitted
  have idle := noticed_idle fits calibrates loadHeater
  have rests := noticed_rests fits calibrates
  have draws := noticed_draws fits calibrates fitted
  have fns : s.noticed.seq.fns = s.seq.fns := by rw [noticed_seq]
  have rest := calibrates_heater fits calibrates fitted
  generalize s.noticed = n at *
  cases water : s.seq.fns.water with
  | false =>
    rw [waterEntersRun_unfitted (by rw [fns]; exact water)]
    exact ⟨hearth, .inr idle⟩
  | true =>
    have rests := (rests water)
    have hearth := hearth.heatless (setWater_heatless rests.ok { n.water with
      dumpDrive := if n.water.dumpCmdOpen then .toOpen else .toClosed })
    have driven : State.Hearth s.climate n.dumpDriven := hearth
    rw [waterEntersRun_eq rests.fitted]
    exact driven.dueTaken rests.dumpDriven draws rest (by rw [(dumpDriven_rest n).1, fns]; exact fitted)

theorem watered_base : State.Base s.noticed s.noticed.waterEntersRun :=
  (waterEntersRun_calm _ (noticed_order fits calibrates).1).2.1

/-- The heater after its stage of entry into Run. -/
theorem heated_hearth : State.Hearth s.climate s.heated
    ∧ (s.climate.heater = .off → (s.heated.heaterWanted = true ↔ (s.heated.claim loadHeater).st ≠ .idle)) := by
  obtain ⟨hearth, served⟩ := watered_hearth fits calibrates fitted
  have seq := (watered_base fits calibrates fitted).seq.trans (noticed_seq s)
  have rest := calibrates_heater fits calibrates fitted
  have values := fits.values.heaterDraws
  unfold State.heated
  generalize s.noticed.waterEntersRun = a at *
  have draws : a.heaterDraws := by
    unfold State.heaterDraws
    rw [seq]
    exact values
  have run : a.inRun = true := by rw [State.inRun, seq]; rfl
  have first := (hearth.serves draws (by rw [seq]; exact fitted) run rest served).1
  have base := (frostService_calm a hearth.ok).2.1
  generalize a.frostService = b at *
  obtain ⟨ends, frost, off⟩ := first.follows (by unfold State.heaterDraws; rw [base.seq]; exact draws)
    (by rw [base.seq, seq]; exact fitted) (by rw [State.inRun, base.seq]; exact run) rest
  have same := (heaterFollows_calm b first.ok).2.1.seq
  have wanted : b.heaterFollows.heaterWanted = b.heaterWanted := by
    rw [State.heaterWanted, State.heaterWanted, ends.call, first.call, ends.lockout, first.lockout, frost, State.inRun, State.inRun, same]
  rw [wanted]
  exact ⟨ends, off⟩

theorem heated_base : State.Base s.noticed s.heated := (heated_calm s (noticed_order fits calibrates).1).2.1

/-- The heater in the end: it stands as it was, and its claim asks exactly where it is Off and wanted. -/
theorem entered_heater : let t := s.runEntered
    t.climate.heater = s.climate.heater ∧ t.climate.call = s.climate.call ∧ t.climate.chosen = s.climate.chosen
      ∧ (s.climate.heater = .off →
          if (t.climate.call = true ∨ t.climate.frost = true) ∧ s.climate.lockout = false then
            (t.claim loadHeater).asksAt (if t.climate.frost = true then 1 else 4) (Item.startDraw s.seq.values)
          else (t.claim loadHeater).st = .idle) := by
  dsimp only
  obtain ⟨hearth, asks⟩ := heated_hearth fits calibrates fitted
  have climate := (runEntered_climate s).trans (padFollows_climate (heated_ok fits calibrates))
  have claim : (s.heated.claim loadHeater).stirs (s.runEntered.claim loadHeater) :=
    Tends.stirs (loads := (· ≠ loadHeater)) (heated_ok fits calibrates) (fun n => afterHeat_tends _ n s (fun _ => trivial)
      (fun _ => trivial) (by decide) (by decide) (by decide)) (not_not.mpr rfl)
  have seq := (heated_base fits calibrates fitted).seq.trans (noticed_seq s)
  generalize s.heated.padFollows.climate.padWanted = wanted at climate
  generalize s.heated.padFollows.climate.pad = pad at climate
  generalize s.runEntered = t at *
  generalize s.heated = h at *
  have call : t.climate.call = s.climate.call := by rw [climate]; exact hearth.call
  have frost : t.climate.frost = h.climate.frost := by rw [climate]
  have run : h.inRun = true := by rw [State.inRun, seq]; rfl
  refine ⟨by rw [climate]; exact hearth.heater, call, by rw [climate]; exact hearth.chosen, fun off => ?_⟩
  have iff : h.heaterWanted = true ↔ (t.climate.call = true ∨ t.climate.frost = true) ∧ s.climate.lockout = false := by
    rw [State.heaterWanted, run, hearth.call, hearth.lockout, frost, call]
    simp
  have asks := asks off
  rw [iff] at asks
  split
  · next wants =>
    have away := asks.mp wants
    have standing : (h.claim loadHeater).asksAt (if t.climate.frost = true then 1 else 4) (Item.startDraw s.seq.values) := by
      have held := hearth.fits.held.mp
      have unforced := hearth.fits.unforced
      have asked := hearth.fits.asks
      have ranked := hearth.ranked away
      rw [hearth.heater, off] at held
      rw [State.heaterRank, ← frost] at ranked
      have st : (h.claim loadHeater).st = .contest ∨ (h.claim loadHeater).st = .waiting := by
        cases e : (h.claim loadHeater).st <;> simp [e] at away held unforced ⊢
      exact ⟨st, ranked, by rw [(asked st).2, seq]⟩
    exact (standing.stirs claim).1
  · next not =>
    by_contra away
    exact not (asks.mpr fun idle => away (Claim.stirs_idle claim idle))

/-- Frost service is what the mode and the frost-demand flags give (R110). -/
theorem entered_frost : s.runEntered.climate.frost = (decide (s.seq.storage = true ∨ s.climate.chosen ≠ .off)
    && ((s.seq.fns.water && s.runEntered.water.demand) || s.entries.any Entry.showsFrostDemand)) := by
  have order : s.runEntered.climate.frost = s.runEntered.frostServiceNow ∨ s.runEntered.tanksUntold :=
    (runEntered_order fits calibrates).2.parts .frost trivial
  have told : ¬ s.runEntered.tanksUntold := by
    rintro ⟨c, m, -⟩
    rw [entered_told fits calibrates] at m
    cases m
  have chosen := (entered_heater fits calibrates fitted).2.2.1
  rw [order.resolve_right told]
  unfold State.frostServiceNow State.modeInForce State.entries
  rw [chosen, entered_inRun fits calibrates, entered_seq fits calibrates, entered_view fits calibrates]
  generalize s.climate.chosen = mode
  dsimp only
  rw [fitted]
  cases s.seq.storage <;> cases mode <;> rfl

/-- The pad, where one is fitted (R119, R120). -/
theorem entered_pad (pad : Item.padFitted s.seq.values = true) : let t := s.runEntered
    t.climate.padWanted = ((s.usable.any fun u => u.withdrawn && decide (u.tc < 5))
        && (s.pins.eng || s.pins.chgav || s.entries.any Entry.showsCharge))
      ∧ (if t.climate.padWanted = true then (t.claim loadPad).asksAt 2 (Item.padDraw s.seq.values) else (t.claim loadPad).st = .idle) := by
  dsimp only
  have base := heated_base fits calibrates fitted
  have seq := base.seq.trans (noticed_seq s)
  have ok := heated_ok fits calibrates
  have okN := (noticed_order fits calibrates).1
  have idle : (s.heated.claim loadPad).st = .idle := by
    refine Claim.stirs_idle (Tends.stirs (loads := (· ≠ loadPad)) okN (fun n => heated_tends _ n s (by decide) (by decide) trivial)
      (not_not.mpr rfl)) (noticed_idle fits calibrates _)
  have claim : (s.heated.padFollows.claim loadPad).stirs (s.runEntered.claim loadPad) :=
    Tends.stirs (loads := (· ≠ loadPad)) (padded_ok fits calibrates) (fun n => afterPad_tends _ n s (fun _ => trivial)
      (fun _ => trivial) (by decide) (by decide)) (not_not.mpr rfl)
  have climate := runEntered_climate s
  have view := base.view.trans (noticed_view s)
  have pins := base.pins.trans (noticed_rest s).1
  have supply := base.supply.trans (noticed_rest s).2
  have draw := fits.values.padDraw
  generalize s.runEntered = t at *
  generalize s.heated = h at *
  have run : h.inRun = true := by rw [State.inRun, seq]; rfl
  have wantedNow : h.padWantedNow = ((s.usable.any fun u => u.withdrawn && decide (u.tc < 5))
      && (s.pins.eng || s.pins.chgav || s.entries.any Entry.showsCharge)) := by
    rw [padWantedNow_eq run]
    unfold State.usable State.ownUsable State.peerUsable State.entries
    rw [view, pins, supply, seq]
  have heat : h.seq.fns.heat = true := by rw [seq]; exact fitted
  have item : Item.padFitted h.seq.values = true := by rw [seq]; exact pad
  obtain ⟨shows, off⟩ := padFollows_wants ok heat item run
  rw [climate, ← wantedNow]
  refine ⟨shows, ?_⟩
  split
  · next wanted =>
    have asks := padFollows_asks ok (by rw [seq]; exact draw) heat item run idle (shows ▸ wanted)
    rw [seq] at asks
    exact (asks.stirs claim).1
  · next not => exact Claim.stirs_idle claim (off (by simpa using not)).2

end

end Sys2Proof.Machine
end

