-- ==== Sys2Proof/Proofs/EntryGuards.lean ====
section
/-! PROOFS. The Motion Controller after entry into Run (R138, R139). -/

namespace Sys2Proof.Machine

/-! ### The Motion Controller on entry into Run (R138, R139) -/

/-- What entry into Run makes of a channel at rest with nothing pending, and of its claim. -/
structure Guarded (s : State) (ch : Fin 2) (c : Chan) (k : Claim) : Prop where
  stays : s.needs ch = false ∨ s.atHome ch → c = s.chan ch ∧ k.st = .idle
  waits : s.needs ch = true → ¬ s.atHome ch → (s.chan ch).calTimer.isSome = true ∨ s.pins.hold = true →
    c = { s.chan ch with pending := .protective, req := 0, idle := none }
  homes : s.needs ch = true → ¬ s.atHome ch → (s.chan ch).calTimer = none → s.pins.hold = false → s.pins.er.get ch = false →
    c.st = .retracting ∧ c.bridge = .retract ∧ c.protective = true ∧ k.st = .held ∧ k.rank = 0

/-- One channel's part of entry into Run. -/
def State.guards (s : State) (ch : Fin 2) : State := if s.needs ch then s.needDue ch else s

theorem motionEntersRun_eq (s : State) : s.motionEntersRun = (s.guards 0).guards 1 := rfl

theorem Guarded.stirs {s : State} {ch : Fin 2} {c : Chan} {k l : Claim} (h : Guarded s ch c k) (stirs : k.stirs l) : Guarded s ch c l where
  stays x := ⟨(h.stays x).1, Claim.stirs_idle stirs (h.stays x).2⟩
  waits := h.waits
  homes need away cal hold er := by
    obtain ⟨st, bridge, protective, held, rank⟩ := h.homes need away cal hold er
    have same := Claim.stirs_same stirs (by rw [held]; decide)
    rw [same]
    exact ⟨st, bridge, protective, held, rank⟩

theorem Guarded.congr {s t : State} {ch : Fin 2} {c : Chan} {k : Claim} (h : Guarded s ch c k) (chan : t.chan ch = s.chan ch)
    (pins : t.pins = s.pins) (needs : t.needs ch = s.needs ch) : Guarded t ch c k := by
  have home : t.atHome ch ↔ s.atHome ch := by
    unfold State.atHome
    rw [chan, pins]
  constructor
  · rw [needs, home, chan]
    exact h.stays
  · rw [needs, home, chan, pins]
    exact h.waits
  · rw [needs, home, chan, pins]
    exact h.homes

section
variable {s : State} {ch : Fin 2} (o : s.Ok) (runs : s.motionRuns = true)
  (draw : 1 ≤ Item.motionDraw s.seq.values ch ∧ Item.motionDraw s.seq.values ch ≤ 30000)
  (rest : (s.chan ch).atRest = true) (none : (s.chan ch).pending = .none) (idle : (s.claim (loadMotor ch)).st = .idle)
include o runs draw rest none idle

theorem guards_guarded : Guarded s ch ((s.guards ch).chan ch) ((s.guards ch).claim (loadMotor ch)) := by
  unfold State.guards
  cases need : s.needs ch with
  | false =>
    rw [if_neg nofun]
    exact ⟨fun _ => ⟨rfl, idle⟩, fun e => absurd (e.symm.trans need) nofun, fun e => absurd (e.symm.trans need) nofun⟩
  | true =>
    rw [if_pos rfl]
    by_cases home : s.atHome ch
    · have same : s.needDue ch = s := by
        rw [needDue_home runs home]
        exact if_neg (by rw [none]; nofun)
      rw [same]
      exact ⟨fun _ => ⟨rfl, idle⟩, fun _ away => absurd home away, fun _ away => absurd home away⟩
    · rw [needDue_rest runs rest home, if_neg (by rw [none]; nofun)]
      refine ⟨fun e => ?_, fun _ _ kept => ?_, fun _ _ cal free er => ?_⟩
      · rcases e with e | e
        · rw [need] at e
          cases e
        · exact absurd e home
      · obtain ⟨d, -, met⟩ := pendProtective_waits o rest (kept.symm)
        exact met.chan
      · obtain ⟨stall, d, held, zero, met⟩ := pendProtective_homes o runs draw (by rw [idle]; nofun) rest free cal er
        rw [met.chan, met.claim]
        exact ⟨rfl, rfl, rfl, held, zero⟩

end

/-- One channel's part leaves the other channel, and with it what the other needs. -/
structure Elsewhere (ch : Fin 2) (s t : State) : Prop where
  ok : t.Ok
  seq : t.seq = s.seq
  pins : t.pins = s.pins
  chan : t.chan ch = s.chan ch
  needs : t.needs ch = s.needs ch
  claim : (s.claim (loadMotor ch)).stirs (t.claim (loadMotor ch))

theorem guards_elsewhere {s : State} (o : s.Ok) {ch j : Fin 2} (ne : j ≠ ch) : Elsewhere j s (s.guards ch) := by
  unfold State.guards
  split
  · obtain ⟨ok, base, -⟩ := needDue_steady s ch o
    obtain ⟨chan, claim⟩ := needDue_other o ne
    refine ⟨ok, base.seq, base.pins, chan, ?_, claim⟩
    unfold State.needs
    rw [base.view, (needDue_only s ch).wind]
  · exact ⟨o, rfl, rfl, rfl, rfl, .inl rfl⟩

/-- Both channels after the Motion Controller's part of entry into Run. -/
theorem motionEntersRun_guarded {s : State} (o : s.Ok) (runs : s.motionRuns = true)
    (draw : ∀ ch, 1 ≤ Item.motionDraw s.seq.values ch ∧ Item.motionDraw s.seq.values ch ≤ 30000)
    (rest : ∀ ch, (s.chan ch).atRest = true ∧ (s.chan ch).pending = .none) (idle : ∀ ch, (s.claim (loadMotor ch)).st = .idle)
    (ch : Fin 2) : Guarded s ch (s.motionEntersRun.chan ch) (s.motionEntersRun.claim (loadMotor ch)) := by
  rw [motionEntersRun_eq]
  have first := guards_guarded o runs (draw 0) (rest 0).1 (rest 0).2 (idle 0)
  have second := guards_elsewhere o (ch := 0) (j := 1) (by decide)
  generalize s.guards 0 = u at *
  match ch with
  | 0 =>
    have after := guards_elsewhere second.ok (ch := 1) (j := 0) (by decide)
    rw [after.chan]
    exact first.stirs after.claim
  | 1 =>
    have last := guards_guarded (ch := 1) second.ok ((motionRuns_of_seq second.seq).trans runs) (by rw [second.seq]; exact draw 1)
      (by rw [second.chan]; exact (rest 1).1) (by rw [second.chan]; exact (rest 1).2) (Claim.stirs_idle second.claim (idle 1))
    exact last.congr second.chan.symm second.pins.symm second.needs.symm

section
variable {s : State} (fits : s.Fits) (calibrates : s.seq.phase = .calibrate) (fitted : s.seq.fns.motion = true)
include fits calibrates fitted

theorem entered_chan (ch : Fin 2) : Guarded s ch (s.runEntered.chan ch) (s.runEntered.claim (loadMotor ch)) := by
  have okN := (noticed_order fits calibrates).1
  have base := padded_base fits calibrates
  have seq := base.seq.trans (noticed_seq s)
  have view := base.view.trans (noticed_view s)
  have pins := base.pins.trans (noticed_rest s).1
  have motion := padded_motion fits calibrates
  have ok := padded_ok fits calibrates
  have idle : ∀ ch, (s.heated.padFollows.claim (loadMotor ch)).st = .idle := fun ch => by
    have tends : ∀ n, Tends { mons := fun _ => True, loads := fun id => id.val < 3 } n s.noticed s.heated.padFollows := fun n => by
      have pad : Fact ((fun id : Fin 7 => id.val < 3) loadPad) := ⟨by decide⟩
      exact (heated_tends _ n s (by decide) (by decide) trivial).trans (padFollows_tends _)
    exact Claim.stirs_idle (Tends.stirs okN tends (by decide +revert)) (noticed_idle fits calibrates _)
  have lights : ∀ n, Tends { mons := fun _ => True, loads := fun id => 5 ≤ id.val } n s.motored
      (s.motored.ceilingFollows.courtesyFollows none) := fun n => lightsEnter_tends _ n _ (by decide)
  have okM := (motored_steady s ok).1
  have still : (s.motored.ceilingFollows.courtesyFollows none).motion = s.motored.motion :=
    ((ceilingFollows_lit s.motored).trans (courtesyFollows_lit _ none)).motion
  have stirs := Tends.stirs okM lights (id := loadMotor ch) (by decide +revert)
  have runs : s.heated.padFollows.motionRuns = true := by
    rw [State.motionRuns, State.inRun, seq, fitted]
    rfl
  have eq : s.motored = s.heated.padFollows.motionEntersRun := by
    unfold State.motored
    exact if_pos (by rw [seq]; exact fitted)
  have rests := calibrates_rests fits calibrates
  rw [runEntered_eq, chan_of_motion still]
  rw [eq] at stirs ⊢
  generalize s.heated.padFollows = u at *
  have chan : ∀ j, u.chan j = s.chan j := chan_of_motion motion
  have guarded := motionEntersRun_guarded ok runs (fun j => by rw [seq]; exact fits.values.motionDraw j)
    (fun j => by rw [chan]; exact rests j) idle ch
  have needs : s.needs ch = u.needs ch := by
    unfold State.needs
    rw [view, motion]
  exact (guarded.congr (chan ch).symm pins.symm needs).stirs stirs

end

end Sys2Proof.Machine
end

