-- ==== Sys2Proof/Proofs/CourtesyCall.lean ====
section
/-! PROOFS. The courtesy call, worked out anew (R159). -/

namespace Sys2Proof.Machine

/-! ### The courtesy call on entry into Run (R159) -/

theorem courtesyChange_call (s : State) (ch : Fin 8) (d : CourtesyDue) : (s.courtesyChange ch d).lights.call = s.lights.call
    ∧ (s.courtesyChange ch d).lights.courtesy = s.lights.courtesy := by
  have change : ∀ (u : State) x, (u.changeChannel ch x 0).lights.call = u.lights.call
      ∧ (u.changeChannel ch x 0).lights.courtesy = u.lights.courtesy := fun u x => by
    unfold State.changeChannel
    rw [(changeGroup_lamps u _ _ 0).lights]
    exact ⟨rfl, rfl⟩
  unfold State.courtesyChange
  split
  · exact ⟨rfl, rfl⟩
  · cases d with
    | none => exact ⟨rfl, rfl⟩
    | light =>
      dsimp only
      split
      · exact change _ 600
      · exact ⟨rfl, rfl⟩
    | restore => exact change (s.setLights { s.lights with due := .none }) _

/-- The courtesy channel is named, and the Light Controller acts. -/
def State.lightsStep (s : State) : Prop :=
  s.seq.fns.lights = true ∧ s.inRun = true ∧ (Item.courtesy s.seq.values).isSome = true

/-- The call is what the step shows, and the courtesy begins where it becomes set. -/
theorem courtesyFollows_call {s : State} (o : s.Ok) (acts : s.lightsStep) (lost : Option Nat) :
    (s.courtesyFollows lost).lights.call = s.stepOut.isSome
      ∧ (s.courtesyFollows lost).lights.courtesy = (s.lights.courtesy || (s.stepOut.isSome && !s.lights.call)) := by
  obtain ⟨fitted, run, named⟩ := acts
  obtain ⟨ch, named⟩ := Option.isSome_iff_exists.mp named
  unfold State.courtesyFollows
  rw [if_neg (by simp [fitted, run]), named]
  dsimp only
  rw [readAll_checked o.checked]
  cases out : s.stepOut with
  | none =>
    dsimp only
    split
    · exact ⟨rfl, by simp⟩
    · exact ⟨rfl, by simp⟩
  | some from_ =>
    dsimp only
    cases was : s.lights.call with
    | true => exact ⟨rfl, by simp⟩
    | false =>
      rw [if_neg nofun]
      split
      · next lit => exact ⟨rfl, by simpa using lit⟩
      · next dark =>
        have dark : s.lights.courtesy = false := by simpa using dark
        rw [dark]
        exact courtesyChange_call _ ch .light

/-! ### The courtesy call while the step comes home -/

/-- A peer's step is out. -/
def State.peerOut (s : State) : Bool := (s.entries.find? fun e => e.stepCode? == some 4 || e.stepCode? == some 2).isSome

/-- The courtesy light is lit for the call alone, and the call is a peer's. -/
structure State.CallsFor (s : State) : Prop where
  ok : s.Ok
  acts : s.lightsStep
  lit : s.lights.courtesy = s.lights.call
  peers : s.lights.call = true → s.peerOut = true

/-- The own step is not out. -/
def State.stepIn (s : State) : Prop := (s.chan 0).st ≠ .extending ∧ (s.chan 0).st ≠ .extended

theorem stepOut_in {s : State} (stepIn : s.stepIn) : s.stepOut.isSome = s.peerOut := by
  have own : ¬ (s.ownStep = some .extending ∨ s.ownStep = some .extended) := by
    unfold State.ownStep
    split
    · rintro (e | e)
      · exact stepIn.1 (Option.some.inj e)
      · exact stepIn.2 (Option.some.inj e)
    · rintro (e | e) <;> cases e
  unfold State.stepOut State.peerOut
  rw [if_neg own, Option.isSome_map]

theorem stepOut_of_peerOut {s : State} (out : s.peerOut = true) : s.stepOut.isSome = true := by
  unfold State.stepOut
  split
  · rfl
  · rw [Option.isSome_map]
    exact out

section
variable {s t : State} (h : s.CallsFor)
include h

theorem State.CallsFor.same (ok : t.Ok) (seq : t.seq = s.seq) (view : t.view = s.view) (lights : t.lights = s.lights) : t.CallsFor where
  ok := ok
  acts := by
    unfold State.lightsStep State.inRun
    rw [seq]
    exact h.acts
  lit := by rw [lights]; exact h.lit
  peers := by
    unfold State.peerOut State.entries
    rw [lights, view]
    exact h.peers

/-- What no light takes part in. -/
theorem State.CallsFor.calm (calm : Calm s t) (lights : t.lights = s.lights) : t.CallsFor :=
  have c := calm h.ok
  h.same c.1 c.2.1.seq c.2.1.view lights

theorem State.CallsFor.follows : (s.courtesyFollows none).lights.call = s.stepOut.isSome
    ∧ (s.courtesyFollows none).lights.courtesy = s.stepOut.isSome := by
  obtain ⟨call, courtesy⟩ := courtesyFollows_call h.ok h.acts none
  refine ⟨call, courtesy.trans ?_⟩
  rw [h.lit]
  cases was : s.lights.call with
  | true => rw [stepOut_of_peerOut (h.peers was)]; rfl
  | false => simp

theorem State.CallsFor.stepSeen (ch : Fin 2) (stepIn : ch = 0 → s.stepIn) : (s.stepSeen ch).CallsFor := by
  unfold State.stepSeen
  split
  · next own =>
    obtain ⟨call, courtesy⟩ := h.follows
    have calm := courtesyFollows_calm s none h.ok
    rw [stepOut_in (stepIn own)] at call courtesy
    refine ⟨calm.1, ?_, courtesy.trans call.symm, fun out => ?_⟩
    · unfold State.lightsStep State.inRun
      rw [calm.2.1.seq]
      exact h.acts
    · rw [call] at out
      unfold State.peerOut State.entries
      rw [calm.2.1.view]
      exact out
  · exact h

end

end Sys2Proof.Machine
end

