-- ==== Sys2Proof/Proofs/EntryCall.lean ====
section
/-! PROOFS. The courtesy call through the Motion Controller's stage of entry into Run (R138, R159). -/

namespace Sys2Proof.Machine

/-! ### The courtesy call through the Motion Controller's part of entry into Run (R138, R159) -/

section
variable {s : State} (h : s.CallsFor) (ch : Fin 2)
include h

/-- A channel and what else no light takes part in. -/
theorem State.CallsFor.setChan (c : Chan) : (s.setChan ch c).CallsFor := h.same (setChan_ok h.ok ch c) rfl rfl rfl

theorem State.CallsFor.release (id : Fin 7) : (s.release id).CallsFor := h.calm (release_calm s id) (release_shared s id).lights

theorem State.CallsFor.monitor (n : Fin 19) (d : Bool) : (s.monitor n d).CallsFor := h.calm (monitor_calm s n d) (monitor_shared s n d).lights

theorem State.CallsFor.clearStall : (s.clearStall ch).CallsFor := by
  unfold State.clearStall
  split
  · exact State.CallsFor.monitor (h.setChan ch _) _ _
  · exact h

theorem State.CallsFor.clearTravelFault : (s.clearTravelFault ch).CallsFor := by
  unfold State.clearTravelFault
  split
  · exact State.CallsFor.monitor (h.setChan ch _) _ _
  · exact h

omit h in
theorem stepIn_of_chan {s : State} {ch : Fin 2} {c : Chan} (chan : s.chan ch = c) (st : c.st ≠ .extending ∧ c.st ≠ .extended) :
    ch = 0 → s.stepIn := by
  rintro rfl
  unfold State.stepIn
  rw [chan]
  exact st

omit h in
theorem braked_in (c : Chan) (f : Move) (req : Nat) : (c.braked f req).st ≠ .extending ∧ (c.braked f req).st ≠ .extended :=
  ⟨nofun, nofun⟩

theorem State.CallsFor.brake (f : Move) (req : Nat) (keep : Bool) : (s.brake ch f req keep).CallsFor := by
  unfold State.brake
  dsimp only
  have put := h.setChan ch ((s.chan ch).braked f req)
  have chan : (s.setChan ch ((s.chan ch).braked f req)).chan ch = (s.chan ch).braked f req := chan_setChan_self _ _ _
  have eq : (s.modChan ch fun c => { c with
    st := .braking, bridge := .short, pending := .none, followOn := f, protective := false, req := req,
    travel := none, stall := none, backoff := none, idle := none, dwell := some Config.dwellMs })
      = s.setChan ch ((s.chan ch).braked f req) := rfl
  rw [eq]
  generalize s.setChan ch ((s.chan ch).braked f req) = u at put chan ⊢
  split
  · exact put.stepSeen ch (stepIn_of_chan chan (braked_in _ _ _))
  · refine (put.release (loadMotor ch)).stepSeen ch (stepIn_of_chan (c := (s.chan ch).braked f req) ?_ (braked_in _ _ _))
    rw [chan_of_motion (release_shared u _).motion, chan]

theorem State.CallsFor.arriveAt : (s.arriveAt ch).CallsFor := by
  unfold State.arriveAt
  dsimp only
  have cleared := (h.brake ch (if (s.chan ch).pending == .extend then .extend else .none)
    (if (s.chan ch).pending == .extend then (s.chan ch).req else 0) false).clearStall ch
  split
  · exact cleared
  · exact cleared.clearTravelFault ch

/-- A retract that starts, and its arrival. -/
theorem State.CallsFor.startMove : (s.startMove ch .protective).CallsFor := by
  rw [startMove_eq]
  have rest := moveBegins_rest s ch .protective
  have chan := (moveBegins_puts s ch .protective).chan
  have lights : (s.moveBegins ch .protective).lights = s.lights := by
    unfold State.moveBegins
    exact (reviseOutcome_shared _ _ _).lights
  have begun := h.same (moveBegins_ok s ch .protective h.ok) rest.2.1 rest.2.2.2.1 lights
  generalize s.moveBegins ch .protective = u at *
  have seen := begun.stepSeen ch (stepIn_of_chan chan ⟨nofun, nofun⟩)
  unfold State.begun
  dsimp only
  split
  · exact seen.arriveAt ch
  · exact seen

theorem State.CallsFor.tryStart (pending : (s.chan ch).pending = .protective) : (s.tryStart ch).CallsFor := by
  unfold State.tryStart
  dsimp only
  split
  · exact h
  · rw [pending]
    dsimp only
    split
    · exact h.release _
    · exact h.startMove ch

theorem State.CallsFor.pendProtective : (s.pendProtective ch).CallsFor := by
  have replaced : (s.replacedByNeed ch).CallsFor := h.calm (reviseOutcome_calm s _ _) (reviseOutcome_shared s _ _).lights
  unfold State.pendProtective
  dsimp only
  generalize s.replacedByNeed ch = u at replaced ⊢
  have freed : (if (u.pins.hold || (u.chan ch).calibrating) = true then u.release (loadMotor ch) else u).CallsFor := by
    split
    · exact replaced.release _
    · exact replaced
  generalize (if (u.pins.hold || (u.chan ch).calibrating) = true then u.release (loadMotor ch) else u) = v at freed ⊢
  have put := freed.setChan ch { v.chan ch with pending := .protective, req := 0, idle := none }
  have chan := chan_setChan_self v ch { v.chan ch with pending := .protective, req := 0, idle := none }
  show ((v.setChan ch { v.chan ch with pending := .protective, req := 0, idle := none }).actOnPending ch).CallsFor
  generalize v.setChan ch { v.chan ch with pending := .protective, req := 0, idle := none } = w at put chan ⊢
  have pending : (w.chan ch).pending = .protective := by rw [chan]
  unfold State.actOnPending
  dsimp only
  split
  · exact put
  · rw [pending]
    dsimp only
    split
    · exact put
    · have claimed := put.calm (t := w.claimProtective ch) (claimProtective_calm w ch) (claimProtective_shared w ch).lights
      exact claimed.tryStart ch (by rw [chan_of_motion (claimProtective_motion w ch)]; exact pending)

theorem State.CallsFor.guards (rest : (s.chan ch).atRest = true) (none : (s.chan ch).pending = .none) : (s.guards ch).CallsFor := by
  unfold State.guards
  split
  · cases runs : s.motionRuns with
    | false =>
      have same : s.needDue ch = s := by
        unfold State.needDue
        rw [if_pos (by rw [runs]; rfl)]
      rw [same]
      exact h
    | true =>
      by_cases home : s.atHome ch
      · rw [needDue_home runs home]
        unfold State.extendMeetsNeed
        rw [if_neg (by rw [none]; nofun)]
        exact h
      · rw [needDue_rest runs rest home, if_neg (by rw [none]; nofun)]
        exact h.pendProtective ch
  · exact h

theorem State.CallsFor.motionEntersRun (rest : ∀ ch, (s.chan ch).atRest = true ∧ (s.chan ch).pending = .none) :
    s.motionEntersRun.CallsFor := by
  rw [motionEntersRun_eq]
  have first := h.guards 0 (rest 0).1 (rest 0).2
  have other := guards_elsewhere h.ok (ch := 0) (j := 1) (by decide)
  exact first.guards 1 (by rw [other.chan]; exact (rest 1).1) (by rw [other.chan]; exact (rest 1).2)

end

end Sys2Proof.Machine
end

