-- ==== Sys2Proof/Proofs/EntryCeiling.lean ====
section
/-! PROOFS. The Light Controller after entry into Run (R155, R159). -/

namespace Sys2Proof.Machine

/-! ### The Light Controller on entry into Run (R155, R159) -/

theorem Wet.lights {s t : State} (h : Wet s t) : t.lights = s.lights :=
  Shared.lights (s := { s with water := t.water, climate := t.climate, cell := t.cell }) h

theorem waterEntersRun_wet (s : State) : Wet s s.waterEntersRun := by
  cases fitted : s.seq.fns.water with
  | false => rw [waterEntersRun_unfitted fitted]; exact Wet.refl s
  | true =>
    have taken : Wet s.dumpDriven s.dumpDriven.dueTaken := by
      unfold State.dueTaken
      exact Wet.ite ((timing_wet _ _).trans (takeDue_wet _)) (Wet.refl _)
    rw [waterEntersRun_eq fitted]
    exact ((setWater_wet s _).trans taken).trans (demandFollows_wet _)

/-- What comes before the motors on entry into Run leaves the lights. -/
theorem padded_lights (s : State) : s.heated.padFollows.lights = s.lights := by
  have noticed : s.noticed.lights = s.lights := by rw [noticed_eq]
  have pad := (padFollows_warm s.heated).wet
  have heats : Wet s.noticed.waterEntersRun s.heated := ((frostService_warm _).trans (heaterFollows_warm _)).wet
  exact (((waterEntersRun_wet s.noticed).trans heats).trans pad).lights.trans noticed

theorem stepOut_congr {s t : State} (seq : t.seq = s.seq) (view : t.view = s.view) (motion : t.motion = s.motion) :
    t.stepOut = s.stepOut := by
  unfold State.stepOut State.ownStep State.entries
  rw [seq, view, chan_of_motion motion]

/-- The ceiling's turn leaves the courtesy. -/
theorem State.CallsFor.ceiling {s : State} (h : s.CallsFor) : s.ceilingFollows.CallsFor := by
  have calm := ceilingFollows_calm s h.ok
  refine ⟨calm.1, ?_, ?_, ?_⟩
  · unfold State.lightsStep State.inRun
    rw [calm.2.1.seq]
    exact h.acts
  · rw [ceilingFollows_lights]
    exact h.lit
  · unfold State.peerOut State.entries
    rw [ceilingFollows_lights, calm.2.1.view]
    exact h.peers

/-- The last of the actions on entry: the call is what the step shows, and the courtesy is lit by it. -/
theorem State.CallsFor.ends {s : State} (h : s.CallsFor) :
    let t := s.ceilingFollows.courtesyFollows none;
    t.lights.call = t.stepOut.isSome ∧ t.lights.courtesy = t.lights.call := by
  obtain ⟨call, courtesy⟩ := h.ceiling.follows
  have base := (courtesyFollows_calm s.ceilingFollows none h.ceiling.ok).2.1
  have out := stepOut_congr base.seq base.view (courtesyFollows_lit s.ceilingFollows none).motion
  exact ⟨by rw [call, out], courtesy.trans call.symm⟩

section
variable {s : State} (fits : s.Fits) (calibrates : s.seq.phase = .calibrate)
include fits calibrates

theorem calibrates_unlit : s.lights.courtesy = false := by
  obtain ⟨-, -, -, away, -⟩ := fits.lights
  rcases away with ⟨run, -⟩ | ⟨-, -, unlit⟩
  · rw [calibrates_inRun calibrates] at run
    cases run
  · exact unlit

theorem entered_ceiling : s.runEntered.lights.ceiling = if s.seq.storage = true then 0 else if s.broker.level = 0 then 1000
    else if s.broker.level = 1 then 250 else 0 := by
  have ceiling : s.runEntered.lights.ceiling = s.runEntered.ceilingNow := (runEntered_order fits calibrates).2.parts .ceiling trivial
  rw [ceiling, ceilingNow_eq, entered_seq fits calibrates, entered_level fits calibrates]

theorem entered_call (fitted : s.seq.fns.lights = true) (named : (Item.courtesy s.seq.values).isSome = true)
    (none : s.lights.call = false) :
    s.runEntered.lights.call = s.runEntered.stepOut.isSome ∧ s.runEntered.lights.courtesy = s.runEntered.lights.call := by
  have ok := padded_ok fits calibrates
  have base := padded_base fits calibrates
  have seq := base.seq.trans (noticed_seq s)
  have lights := padded_lights s
  have motion := padded_motion fits calibrates
  have unlit := calibrates_unlit fits calibrates
  have rests := calibrates_rests fits calibrates
  have padded : s.heated.padFollows.CallsFor := by
    generalize s.heated.padFollows = u at *
    refine ⟨ok, ?_, by rw [lights, none, unlit], fun call => ?_⟩
    · rw [State.lightsStep, State.inRun, seq]
      exact ⟨fitted, rfl, named⟩
    · rw [lights, none] at call
      cases call
  have motored : s.motored.CallsFor := by
    unfold State.motored
    generalize s.heated.padFollows = u at *
    split
    · exact padded.motionEntersRun fun ch => by rw [chan_of_motion motion]; exact rests ch
    · exact padded
  rw [runEntered_eq]
  exact motored.ends

end

end Sys2Proof.Machine
end

