-- ==== Sys2Proof/Proofs/Voices.lean ====
section
/-! PROOFS. A lane that no DRAW is ever discarded from (R38, R53, R171). -/

namespace Sys2Proof.Machine

/-! ### A lane whose class-1 records are the DRAWs of the seven loads (R53, R171)

Seven DRAWs do not fill the lane, so that none is ever discarded. -/

/-- The record is of a class that a full lane gives up, or a load's DRAW. -/
def Record.speaks (r : Record) : Prop := r.kind.cls = 2 ∨ r.kind.cls = 3 ∨ r.kind = .draw ∧ r.subject < 7

def Bus.speaks (b : Bus) : Prop := b.lanesFit ∧ ∀ w ∈ b.periodic, w.item.record.speaks

/-- A full lane holds a record that it may give up. -/
theorem Bus.speaks.gives {b : Bus} (h : b.speaks) (full : 8 ≤ b.periodic.length) :
    (∃ w ∈ b.periodic, w.cls = 3) ∨ ∃ w ∈ b.periodic, w.cls = 2 := by
  by_contra none
  obtain ⟨no3, no2⟩ := not_or.mp none
  obtain ⟨⟨-, -, differ, -⟩, speaks⟩ := h
  have draws : ∀ w ∈ b.periodic, w.item.record.kind = .draw ∧ w.item.record.subject < 7 := fun w m => by
    rcases speaks w m with e | e | e
    · exact absurd ⟨w, m, e⟩ no2
    · exact absurd ⟨w, m, e⟩ no3
    · exact e
  have nodup : (b.periodic.map fun w => w.item.record.subject).Nodup := by
    refine List.pairwise_map.mpr (differ.imp_of_mem fun ma mb differ same => ?_)
    rcases differ with k | k
    · exact k ((draws _ ma).1.trans (draws _ mb).1.symm)
    · exact k same
  have within : (b.periodic.map fun w => w.item.record.subject) ⊆ List.range 7 := fun x m => by
    obtain ⟨w, there, rfl⟩ := List.mem_map.mp m
    exact List.mem_range.mpr (draws w there).2
  have few := (nodup.subperm within).length_le
  rw [List.length_map, List.length_range] at few
  omega

section
variable {b : Bus} {r : Record} (now tag : Nat) (h : b.speaks)
include h

/-- What a joining record does to a lane: it takes its like's place, the end, or the end in place of one of a class above 1. -/
theorem Bus.speaks.join_lane (c : r.kind.cls ≠ 0) :
    (∃ p : Waiting → Bool, (∀ w, p w = true → w.cls ≠ 1) ∧ b.periodic.any (Waiting.sameKey r) = false
        ∧ (b.join now ⟨r, tag⟩).periodic = b.periodic.eraseP p ++ [⟨⟨r, tag⟩, now, false⟩])
      ∨ b.periodic.any (Waiting.sameKey r) = true ∧ (b.join now ⟨r, tag⟩).periodic = coalesce ⟨r, tag⟩ b.periodic := by
  rw [Bus.join_periodic now c]
  cases like : b.periodic.any (Waiting.sameKey r) with
  | true => exact .inr ⟨rfl, by rw [if_pos rfl]⟩
  | false =>
    left
    rw [if_neg nofun]
    by_cases room : b.periodic.length < 8
    · rw [if_pos room]
      have none : b.periodic.eraseP (fun _ => false) = b.periodic := List.eraseP_of_forall_not fun _ _ => Bool.false_ne_true
      exact ⟨fun _ => false, fun _ e => absurd e Bool.false_ne_true, rfl, by rw [none]⟩
    · rw [if_neg room]
      unfold Bus.joinFullPeriodic
      by_cases soft : b.periodic.any (fun w => w.cls == 3) = true
      · rw [if_pos soft]
        exact ⟨_, fun w e => by rw [beq_iff_eq.mp e]; decide, rfl, rfl⟩
      · rw [if_neg soft]
        have some2 : b.periodic.any (fun w => w.cls == 2) = true := by
          rcases h.gives (not_lt.mp room) with ⟨w, m, e⟩ | ⟨w, m, e⟩
          · exact absurd (List.any_eq_true.mpr ⟨w, m, by rw [e]; rfl⟩) soft
          · exact List.any_eq_true.mpr ⟨w, m, by rw [e]; rfl⟩
        rw [if_pos some2]
        exact ⟨_, fun w e => by rw [beq_iff_eq.mp e]; decide, rfl, rfl⟩

theorem Bus.speaks.join (speaks : r.kind.cls = 0 ∨ r.speaks) : (b.join now ⟨r, tag⟩).speaks := by
  refine ⟨Bus.join_fits now _ b h.1, ?_⟩
  by_cases c : r.kind.cls = 0
  · rw [Bus.join_urgent_length now tag c]
    exact h.2
  · have speaks := speaks.resolve_left c
    rcases h.join_lane now tag c with ⟨p, -, -, e⟩ | ⟨-, e⟩
    · rw [e]
      intro w m
      rcases List.mem_append.mp m with m | m
      · exact h.2 w (List.mem_of_mem_eraseP m)
      · rw [List.mem_singleton.mp m]
        exact speaks
    · rw [e]
      intro w m
      obtain ⟨v, there, rfl⟩ := List.mem_map.mp m
      split
      · exact speaks
      · exact h.2 v there

theorem Bus.speaks.build : (b.build now).speaks :=
  ⟨Bus.build_fits now b h.1, fun w m => h.2 w ((Bus.build_sublist now b).mem m)⟩

theorem Bus.speaks.join_says (c : r.kind.cls ≠ 0) : (b.join now ⟨r, tag⟩).holds r := by
  left
  rcases h.join_lane now tag c with ⟨p, -, -, e⟩ | ⟨like, e⟩
  · rw [e]
    exact ⟨⟨⟨r, tag⟩, now, false⟩, by simp, rfl⟩
  · rw [e]
    obtain ⟨w, m, e⟩ := mem_coalesce_self (t := ⟨r, tag⟩) like
    exact ⟨w, m, congrArg Tagged.record e⟩

/-- A DRAW that waits is not discarded. -/
theorem Bus.speaks.join_says_other {q : Record} (draw : q.kind = .draw) (k : q.kind ≠ r.kind ∨ q.subject ≠ r.subject)
    (holds : b.holds q) : (b.join now ⟨r, tag⟩).holds q := by
  by_cases c : r.kind.cls = 0
  · exact Bus.join_holds_other now tag (.inl c) k holds
  have other : ∀ w : Waiting, w.item.record = q → w.sameKey r = false := fun w e => by
    unfold Waiting.sameKey
    rw [e]
    rcases k with k | k <;> simp [k]
  unfold Bus.holds
  rw [Bus.join_normalBuf]
  refine holds.imp_left fun ⟨w, m, e⟩ => ⟨w, ?_, e⟩
  have one : w.cls = 1 := by rw [Waiting.cls, e, draw]; rfl
  rcases h.join_lane now tag c with ⟨p, above, -, lane⟩ | ⟨-, lane⟩
  · rw [lane]
    exact List.mem_append_left _ ((List.mem_eraseP_of_neg fun yes => above w yes one).mpr m)
  · rw [lane]
    exact mem_coalesce_other m (other w e)

end

/-! ### Every contest that runs has its DRAW in the Gatherer (R38) -/

def drawRecord (id : Fin 7) (c : Claim) : Record := { subject := id.val, payload := .draw (drawOf c) }

structure State.Voiced (s : State) : Prop where
  speaks : s.bus.speaks
  voices : ∀ id, (s.claim id).contesting = true → s.bus.holds (drawRecord id (s.claim id))

/-- The operation hands over the DRAW of every contest that it starts. -/
def Voices (s t : State) : Prop := s.Voiced → t.Voiced

section
variable {s t u : State}

theorem Voices.refl (s : State) : Voices s s := id

theorem Voices.trans (h : Voices s t) (k : Voices t u) : Voices s u := k ∘ h

theorem Voices.ite {c : Prop} [Decidable c] {a b : State} (h : Voices s a) (k : Voices s b) : Voices s (if c then a else b) := by
  split
  · exact h
  · exact k

theorem Voices.foldl {α : Type} (f : State → α → State) (h : ∀ s x, Voices s (f s x)) (l : List α) (s : State) :
    Voices s (l.foldl f s) := by
  induction l generalizing s with
  | nil => exact Voices.refl s
  | cons x l ih => exact (h s x).trans (ih _)

/-- What reaches neither the Gatherer nor the claims. -/
theorem Voices.same (bus : t.bus = s.bus) (claims : t.broker.claims = s.broker.claims) : Voices s t := fun v => by
  have claim : ∀ id, t.claim id = s.claim id := fun id => by
    unfold State.claim
    rw [claims]
  refine ⟨by rw [bus]; exact v.speaks, fun id contests => ?_⟩
  rw [claim] at contests ⊢
  rw [bus]
  exact v.voices id contests

end

/-- A record that is no DRAW. -/
theorem hand_voices (s : State) {r : Record} (tag : Nat) (not : r.kind.cls ≠ 1) (le : r.kind.cls ≤ 3) : Voices s (s.hand r tag) := fun v => by
  have speaks : r.kind.cls = 0 ∨ r.speaks := by
    unfold Record.speaks
    omega
  have draw : r.kind ≠ .draw := fun e => not (by rw [e]; rfl)
  exact ⟨(v.speaks.join s.now tag speaks).build s.now, fun id contests => Bus.build_holds s.now
    (v.speaks.join_says_other s.now tag rfl (.inl draw.symm) (v.voices id contests))⟩

/-- A claim that is put has its DRAW handed over. -/
theorem putClaim_voices (s : State) (id : Fin 7) (c : Claim) : Voices s (s.putClaim id c) := fun v => by
  obtain ⟨tag, bus⟩ : ∃ tag, (s.putClaim id c).bus = (s.bus.join s.now ⟨drawRecord id c, tag⟩).build s.now := by
    refine ⟨if c.contesting then c.serial else 0, ?_⟩
    have same : (s.setClaim id c).claim id = c := claim_setClaim_self s id c
    unfold State.putClaim State.handDraw
    rw [same]
    rfl
  refine ⟨by rw [bus]; exact (v.speaks.join s.now tag (.inr (.inr (.inr ⟨rfl, id.isLt⟩)))).build s.now, fun j contests => ?_⟩
  rw [bus]
  refine Bus.build_holds s.now ?_
  by_cases own : j = id
  · subst own
    rw [claim_putClaim_self]
    exact v.speaks.join_says s.now tag Nat.one_ne_zero
  · rw [claim_putClaim_ne s c own] at contests ⊢
    exact v.speaks.join_says_other s.now tag rfl (.inr fun e => own (Fin.ext e)) (v.voices j contests)

/-- A claim that is set to one without a contest. -/
theorem setClaim_voices (s : State) (id : Fin 7) {c : Claim} (calm : c.contesting = false) : Voices s (s.setClaim id c) := fun v => by
  refine ⟨v.speaks, fun j contests => ?_⟩
  by_cases own : j = id
  · subst own
    rw [claim_setClaim_self, calm] at contests
    cases contests
  · rw [claim_setClaim_ne s c own] at contests ⊢
    exact v.voices j contests

end Sys2Proof.Machine
end

