-- ==== Sys2Proof/Proofs/VoicesOfBlocks.lean ====
section
/-! PROOFS. The Broker, the Climate Controller and the Water Manager hand over the DRAW of every contest (R33 to R47). -/

namespace Sys2Proof.Machine

section
variable (s : State)

/-! ### The status and the Peer View (R69, R70, R181) -/

theorem monitor_voices (n : Fin 19) (d : Bool) : Voices s (s.monitor n d) := by
  unfold State.monitor
  dsimp only
  refine (Voices.trans (t := (s.setStatus { s.status with
    summary := s.status.summary.set n d, changeCount := sat255 (s.status.changeCount + 1) }).setDue
    { s.due with status2 := true }) (Voices.same rfl rfl) ?_)
  generalize State.setDue _ _ = u
  have hands : Voices u (if u.inRun = true then u.hand (noticeRecord u n d) 0 else u) :=
    Voices.ite (hand_voices u 0 (Nat.succ_ne_self 1) (Nat.le_succ 2)) (Voices.refl u)
  exact hands.trans (Voices.ite (Voices.same rfl rfl) (Voices.refl _))

theorem setView_voices (v : View) : Voices s (s.setView v) := Voices.same rfl rfl

theorem lose_voices : Voices s s.lose := by
  unfold State.lose
  dsimp only
  exact Voices.ite (setView_voices s _) ((setView_voices s _).trans (monitor_voices _ _ _))

theorem readAll_voices (p : Entry → Bool) : Voices s (s.readAll p) := by
  unfold State.readAll State.read
  dsimp only
  exact Voices.ite (Voices.refl s) (Voices.ite ((setView_voices s _).trans (lose_voices _)) (setView_voices s _))

theorem reviseOutcome_voices (req outcome : Nat) : Voices s (s.reviseOutcome req outcome) :=
  Voices.ite (Voices.same rfl rfl) (Voices.refl s)

/-! ### The Broker's operations hand over their DRAWs (R33 to R47) -/

theorem readSupply_voices : Voices s s.readSupply := Voices.ite (Voices.refl s) (readAll_voices s _)

theorem brokerReads_voices : Voices s s.brokerReads := (readSupply_voices s).trans (readAll_voices _ _)

theorem startContest_voices (id : Fin 7) (c : Claim) : Voices s (s.startContest id c) :=
  (Voices.same (s := s) (t := s.setBroker { s.broker with nextSerial := s.broker.nextSerial + 1 }) rfl rfl).trans
    (putClaim_voices _ id { c with announcing := true, window := none, serial := s.broker.nextSerial })

theorem testWaiting_voices (id : Fin 7) : Voices s (s.testWaiting id) :=
  (brokerReads_voices s).trans (Voices.ite (startContest_voices _ id _) (setClaim_voices _ id (by rfl)))

theorem retest_voices : Voices s s.retest :=
  Voices.foldl _ (fun s id => Voices.ite (testWaiting_voices s id) (Voices.refl s)) _ s

theorem release_voices (id : Fin 7) : Voices s (s.release id) := by
  unfold State.release
  split
  · exact Voices.refl s
  · exact (setClaim_voices s id (by rfl)).trans (retest_voices _)
  · exact (putClaim_voices s id _).trans (retest_voices _)

theorem abandonContest_voices (id : Fin 7) : Voices s (s.abandonContest id) := Voices.ite (putClaim_voices s id _) (Voices.refl s)

theorem ask_voices (id : Fin 7) (rank a : Nat) (single : Bool) : Voices s (s.ask id rank a single).1 := by
  unfold State.ask
  dsimp only
  split
  · exact release_voices s id
  · split
    · exact Voices.refl s
    · refine (abandonContest_voices s id).trans ?_
      generalize s.abandonContest id = u
      split
      · exact putClaim_voices u id _
      · refine (brokerReads_voices u).trans ?_
        generalize u.brokerReads = v
        split
        · exact startContest_voices v id _
        · split
          · exact setClaim_voices v id (by rfl)
          · exact setClaim_voices v id (by rfl)

theorem lower_voices (id : Fin 7) (a : Nat) : Voices s (s.lower id a).1 := by
  unfold State.lower
  dsimp only
  split
  · exact Voices.refl s
  · split
    · exact release_voices s id
    · exact (putClaim_voices s id _).trans (retest_voices _)

theorem raise_voices (id : Fin 7) (a : Nat) : Voices s (s.raise id a).1 := by
  unfold State.raise
  dsimp only
  split
  · exact Voices.refl s
  · split
    · exact lower_voices s id _
    · split
      · exact putClaim_voices s id _
      · have abandons : Voices s (s.abandonRaise id) := Voices.ite (putClaim_voices s id _) (Voices.refl s)
        refine (abandons.trans (brokerReads_voices _)).trans ?_
        generalize (s.abandonRaise id).brokerReads = u
        split
        · exact startContest_voices u id _
        · exact Voices.refl u

theorem rerank_voices (id : Fin 7) (rank : Nat) : Voices s (s.rerank id rank).1 := by
  unfold State.rerank
  dsimp only
  split
  · next waits =>
    exact (setClaim_voices s id (c := { s.claim id with rank := rank }) (by unfold Claim.contesting; rw [waits]; rfl)).trans
      (testWaiting_voices _ id)
  · split
    · exact Voices.refl s
    · exact putClaim_voices s id _
  · exact Voices.refl s

theorem force_voices (id : Fin 7) (a : Nat) : Voices s (s.force id a).1 := by
  unfold State.force
  dsimp only
  refine ((abandonContest_voices s id).trans (readSupply_voices _)).trans ?_
  generalize (s.abandonContest id).readSupply = u
  split
  · exact putClaim_voices u id _
  · split
    · exact setClaim_voices u id (by rfl)
    · exact setClaim_voices u id (by rfl)
    · exact Voices.refl u

theorem complete_voices (id : Fin 7) : Voices s (s.complete id) := putClaim_voices s id _

/-! ### The Climate Controller (R110 to R119) -/

theorem setClimate_voices (x : Climate) : Voices s (s.setClimate x) := Voices.same rfl rfl

theorem enterPurging_voices : Voices s s.enterPurging :=
  (setClimate_voices s _).trans (Voices.ite (lower_voices _ _ _) (Voices.refl _))

theorem heaterYields_voices : Voices s s.heaterYields := by
  unfold State.heaterYields
  split
  · exact enterPurging_voices s
  · exact enterPurging_voices s
  · exact enterPurging_voices s
  · exact Voices.refl s

theorem heaterRerank_voices : Voices s s.heaterRerank := by
  unfold State.heaterRerank
  dsimp only
  refine Voices.ite ?_ (Voices.refl s)
  have reranks := rerank_voices s loadHeater s.heaterRank
  split
  · next t e =>
    rw [e] at reranks
    exact reranks.trans ((complete_voices t _).trans (heaterYields_voices _))
  · next t r _ e =>
    rw [e] at reranks
    exact reranks

theorem askHeater_voices : Voices s s.askHeater := by
  unfold State.askHeater
  dsimp only
  refine Voices.ite ?_ (ask_voices s _ _ _ _)
  have tries := ask_voices s loadHeater 1 (Item.startDraw s.seq.values) true
  split
  · next t e =>
    rw [e] at tries
    exact tries.trans ((setClimate_voices t _).trans (ask_voices _ _ _ _ _))
  · next t r _ e =>
    rw [e] at tries
    exact tries

theorem heaterFollows_voices : Voices s s.heaterFollows := by
  unfold State.heaterFollows
  refine Voices.ite ?_ (Voices.refl s)
  refine Voices.trans ?_ (setClimate_voices _ _)
  split
  · split
    · exact Voices.ite (askHeater_voices s) (Voices.refl s)
    · exact Voices.ite (Voices.ite (Voices.refl s) (rerank_voices s _ _)) (release_voices s _)
    · exact Voices.ite (Voices.refl s) (release_voices s _)
    · exact Voices.refl s
  · exact Voices.ite (heaterRerank_voices s) ((enterPurging_voices s).trans (heaterRerank_voices _))
  · exact Voices.ite (heaterRerank_voices s) ((enterPurging_voices s).trans (heaterRerank_voices _))
  · exact (setClimate_voices s _).trans (heaterRerank_voices _)
  · exact Voices.refl s

theorem frostService_voices : Voices s s.frostService :=
  Voices.ite ((readAll_voices s _).trans (Voices.ite (Voices.refl _) ((setClimate_voices _ _).trans (heaterFollows_voices _))))
    (Voices.refl s)

theorem padFollows_voices : Voices s s.padFollows := by
  unfold State.padFollows
  refine Voices.ite ?_ (Voices.refl s)
  dsimp only
  refine Voices.trans ((readSupply_voices s).trans (readAll_voices _ fun e => e.kind == .status && e.subject == 0 && e.fresh.live)) ?_
  generalize s.readSupply.readAll _ = u
  refine (setClimate_voices u { u.climate with padWanted := u.padWantedNow }).trans ?_
  generalize u.setClimate { u.climate with padWanted := u.padWantedNow } = v
  exact Voices.ite (Voices.ite (ask_voices v _ _ _ _) (Voices.refl v)) ((setClimate_voices v _).trans (release_voices _ _))

/-! ### The Water Manager (R86, R91, R92, R102) -/

theorem setWater_voices (x : Water) : Voices s (s.setWater x) := Voices.same rfl rfl

theorem pumpReleased_voices : Voices s s.pumpReleased := (setWater_voices s _).trans (release_voices _ _)

theorem demandFollows_voices : Voices s s.demandFollows := by
  unfold State.demandFollows
  refine Voices.ite ?_ (Voices.refl s)
  refine Voices.trans ?_ (setWater_voices _ _)
  exact Voices.ite (Voices.refl s) (Voices.ite (Voices.ite (ask_voices s _ _ _ _) (Voices.refl s))
    (Voices.ite (Voices.refl s) (pumpReleased_voices s)))

theorem setDemand_voices (d : Bool) : Voices s (s.setDemand d) :=
  Voices.ite (Voices.refl s) ((setWater_voices s _).trans (frostService_voices _))

theorem enterCirculating_voices : Voices s s.enterCirculating :=
  ((setWater_voices s _).trans (setDemand_voices _ true)).trans (setWater_voices _ _)

theorem cyclePostponed_voices : Voices s s.cyclePostponed :=
  (setDemand_voices s false).trans ((setWater_voices _ _).trans ((setWater_voices _ _).trans (demandFollows_voices _)))

theorem drain_voices : Voices s s.drain :=
  ((setDemand_voices s false).trans (setWater_voices _ _)).trans
    (Voices.ite ((pumpReleased_voices _).trans (demandFollows_voices _)) (demandFollows_voices _))

theorem valveTiming_voices : Voices s s.valveTiming :=
  Voices.ite ((setWater_voices s { s.water with valveTimer := none }).trans
    (Voices.ite ((setWater_voices _ _).trans (monitor_voices _ _ _)) (Voices.refl _))) (setWater_voices s _)

theorem openDump_voices : Voices s s.openDump :=
  ((setWater_voices s _).trans (valveTiming_voices _)).trans (drain_voices _)

theorem takeDue_voices : Voices s s.takeDue := by
  unfold State.takeDue
  dsimp only
  refine Voices.ite (setWater_voices s _) (Voices.ite (Voices.ite ((rerank_voices s _ _).trans (enterCirculating_voices _)) ?_) ?_)
  · have asking := setWater_voices s { s.water with cycle := .asking, dueTimer := none, dueOnRun := false }
    generalize s.setWater { s.water with cycle := .asking, dueTimer := none, dueOnRun := false } = u at asking ⊢
    have tries := ask_voices u loadPump 1 (Item.pumpDraw s.seq.values) true
    split
    · next t e =>
      rw [e] at tries
      exact asking.trans (tries.trans (cyclePostponed_voices t))
    · next t r _ e =>
      rw [e] at tries
      exact asking.trans tries
  · have forces := force_voices s loadPump (Item.pumpDraw s.seq.values)
    split
    · next t e =>
      rw [e] at forces
      exact forces.trans (enterCirculating_voices t)
    · next t r _ e =>
      rw [e] at forces
      exact forces.trans (openDump_voices t)

theorem waterEntersRun_voices : Voices s s.waterEntersRun := by
  unfold State.waterEntersRun
  refine Voices.ite ?_ (Voices.refl s)
  refine (setWater_voices s { s.water with dumpDrive := if s.water.dumpCmdOpen then .toOpen else .toClosed }).trans ?_
  exact (Voices.ite ((setWater_voices _ _).trans (takeDue_voices _)) (Voices.refl _)).trans (demandFollows_voices _)

end

end Sys2Proof.Machine
end

