-- ==== Sys2Proof/Proofs/VoicesOfMoves.lean ====
section
/-! PROOFS. The Light Controller and the Motion Controller hand over the DRAW of every contest (R124, R152). -/

namespace Sys2Proof.Machine

/-! ### The Light Controller's and the Motion Controller's contests have their DRAWs (R124, R152) -/

section
variable (s : State)

theorem setLights_voices (l : Lights) : Voices s (s.setLights l) := Voices.same rfl rfl

theorem setGroup_voices (g : Fin 2) (x : Group) : Voices s (s.setGroup g x) := Voices.same rfl rfl

theorem amend_voices (g : Fin 2) : Voices s (s.amend g) :=
  Voices.ite (Voices.ite (release_voices s _) (Voices.ite (lower_voices s _ _) (Voices.refl s))) (Voices.refl s)

theorem takeTargets_voices (g : Fin 2) (t : Tab 4 Nat) : Voices s (s.takeTargets g t) :=
  (Voices.foldl _ (fun s _ => setLights_voices s _) _ s).trans (amend_voices _ g)

theorem finishRequest_voices (req : Nat) : Voices s (s.finishRequest req) := Voices.ite (Voices.refl s) (reviseOutcome_voices s _ _)

theorem requestTaken_voices (g : Fin 2) (r : GroupReq) : Voices s (s.requestTaken g r) :=
  (setGroup_voices s g _).trans ((takeTargets_voices _ g _).trans (finishRequest_voices _ _))

theorem requestRefused_voices (g : Fin 2) (r : GroupReq) : Voices s (s.requestRefused g r) :=
  (setGroup_voices s g _).trans ((amend_voices _ g).trans (finishRequest_voices _ _))

theorem askGroup_voices (g : Fin 2) (a : Nat) : Voices s (s.askGroup g a).1 := by
  unfold State.askGroup
  split
  · exact raise_voices s _ _
  · exact ask_voices s _ _ _ _

omit s in
theorem tryScales_voices (g : Fin 2) (r : GroupReq) (l : List Nat) (s : State) : Voices s (tryScales g r l s) := by
  induction l generalizing r s with
  | nil => exact requestRefused_voices s g r
  | cons x xs ih =>
    rw [tryScales_cons]
    have asked := (setGroup_voices s g { s.group g with pending := some { r with trial := s.scaledTargets g r.want x, scale := x } }).trans
      (askGroup_voices _ g (s.scaleCover g r.want x))
    exact Voices.ite (requestTaken_voices s g _) (Voices.ite (asked.trans (ih _ _))
      (Voices.ite (asked.trans (requestTaken_voices _ g _)) asked))

theorem changeGroup_voices (g : Fin 2) (t : Tab 4 Nat) (req : Nat) : Voices s (s.changeGroup g t req) := by
  have proposed : Voices s (s.proposed g t req) := setGroup_voices s g _
  rw [changeGroup_eq]
  have asked := proposed.trans (askGroup_voices _ g (s.covering g (s.capped t)))
  exact Voices.ite (takeTargets_voices s g _) (Voices.ite (asked.trans (tryScales_voices g _ _ _))
    (Voices.ite (asked.trans (requestTaken_voices _ g _)) asked))

theorem courtesyChange_voices (ch : Fin 8) (d : CourtesyDue) : Voices s (s.courtesyChange ch d) := by
  unfold State.courtesyChange
  refine Voices.ite (setLights_voices s _) ((setLights_voices s { s.lights with due := .none }).trans ?_)
  cases d with
  | none => exact Voices.refl _
  | light => exact Voices.ite (changeGroup_voices _ _ _ _) (Voices.refl _)
  | restore => exact changeGroup_voices _ _ _ _

theorem courtesyFollows_voices (lost : Option Nat) : Voices s (s.courtesyFollows lost) := by
  unfold State.courtesyFollows
  refine Voices.ite (Voices.refl s) ?_
  split
  · exact Voices.refl s
  · refine (readAll_voices s fun e => e.kind == .motion).trans ?_
    generalize s.readAll _ = u
    dsimp only
    split
    · exact (setLights_voices u _).trans (Voices.ite (Voices.refl _) (Voices.ite (setLights_voices _ _)
        ((setLights_voices _ _).trans (courtesyChange_voices _ _ _))))
    · exact (setLights_voices u _).trans (Voices.ite (setLights_voices _ _) (Voices.refl _))

theorem ceilingFollows_voices : Voices s s.ceilingFollows :=
  (setLights_voices s _).trans ((amend_voices _ 0).trans (amend_voices _ 1))

variable (ch : Fin 2)

theorem setChan_voices (c : Chan) : Voices s (s.setChan ch c) := Voices.same rfl rfl

theorem stepSeen_voices : Voices s (s.stepSeen ch) := Voices.ite (courtesyFollows_voices s none) (Voices.refl s)

theorem clearStall_voices : Voices s (s.clearStall ch) :=
  Voices.ite ((setChan_voices s ch _).trans (monitor_voices _ _ _)) (Voices.refl s)

theorem clearTravelFault_voices : Voices s (s.clearTravelFault ch) :=
  Voices.ite ((setChan_voices s ch _).trans (monitor_voices _ _ _)) (Voices.refl s)

theorem brake_voices (f : Move) (req : Nat) (keep : Bool) : Voices s (s.brake ch f req keep) :=
  (setChan_voices s ch _).trans ((Voices.ite (Voices.refl _) (release_voices _ _)).trans (stepSeen_voices _ ch))

theorem arriveAt_voices : Voices s (s.arriveAt ch) := by
  have cleared := (brake_voices s ch (if (s.chan ch).pending == .extend then .extend else .none)
    (if (s.chan ch).pending == .extend then (s.chan ch).req else 0) false).trans (clearStall_voices _ ch)
  unfold State.arriveAt
  exact Voices.ite cleared (cleared.trans (clearTravelFault_voices _ ch))

theorem begun_voices : Voices s (s.begun ch) :=
  (stepSeen_voices s ch).trans (Voices.ite (arriveAt_voices _ ch) (Voices.refl _))

theorem startMove_voices (m : Move) : Voices s (s.startMove ch m) := by
  have begins : Voices s (s.moveBegins ch m) := by
    unfold State.moveBegins
    dsimp only
    refine Voices.trans ?_ (reviseOutcome_voices _ _ _)
    exact Voices.same rfl rfl
  rw [startMove_eq]
  exact begins.trans (begun_voices _ ch)

theorem endPending_voices (outcome : Nat) : Voices s (s.endPending ch outcome) :=
  (setChan_voices s ch _).trans ((release_voices _ _).trans (reviseOutcome_voices _ _ _))

theorem tryStart_voices : Voices s (s.tryStart ch) := by
  unfold State.tryStart
  dsimp only
  refine Voices.ite (Voices.refl s) ?_
  split
  · split
    · exact startMove_voices s ch _
    · exact endPending_voices s ch _
  · exact Voices.ite (release_voices s _) (startMove_voices s ch _)
  · exact Voices.ite (release_voices s _) (startMove_voices s ch _)
  · exact Voices.refl s

theorem claimProtective_voices : Voices s (s.claimProtective ch) := Voices.ite (rerank_voices s _ _) (ask_voices s _ _ _ _)

theorem claimRequested_voices : Voices s (s.claimRequested ch) := by
  unfold State.claimRequested
  exact Voices.ite (ask_voices s _ _ _ _) (Voices.refl s)

theorem actOnPending_voices : Voices s (s.actOnPending ch) := by
  unfold State.actOnPending
  dsimp only
  refine Voices.ite (Voices.refl s) ?_
  split
  · exact Voices.ite (Voices.refl s) ((claimProtective_voices s ch).trans (tryStart_voices _ ch))
  · exact Voices.ite (Voices.refl s) ((claimRequested_voices s ch).trans (tryStart_voices _ ch))
  · exact (claimRequested_voices s ch).trans (tryStart_voices _ ch)
  · exact Voices.refl s

theorem pendProtective_voices : Voices s (s.pendProtective ch) := by
  have replaced : Voices s (s.replacedByNeed ch) := reviseOutcome_voices s _ _
  unfold State.pendProtective
  dsimp only
  generalize s.replacedByNeed ch = u at replaced ⊢
  have freed : Voices u (if (u.pins.hold || (u.chan ch).calibrating) = true then u.release (loadMotor ch) else u) :=
    Voices.ite (release_voices u _) (Voices.refl u)
  exact (replaced.trans freed).trans ((setChan_voices _ ch _).trans (actOnPending_voices _ ch))

theorem guards_voices (rest : (s.chan ch).atRest = true) (none : (s.chan ch).pending = .none) : Voices s (s.guards ch) := by
  unfold State.guards
  refine Voices.ite ?_ (Voices.refl s)
  cases runs : s.motionRuns with
  | false =>
    have same : s.needDue ch = s := by
      unfold State.needDue
      rw [if_pos (by rw [runs]; rfl)]
    rw [same]
    exact Voices.refl s
  | true =>
    by_cases home : s.atHome ch
    · rw [needDue_home runs home]
      unfold State.extendMeetsNeed
      rw [if_neg (by rw [none]; nofun)]
      exact Voices.refl s
    · rw [needDue_rest runs rest home, if_neg (by rw [none]; nofun)]
      exact pendProtective_voices s ch

end

theorem motionEntersRun_voices {s : State} (o : s.Ok) (rest : ∀ ch, (s.chan ch).atRest = true ∧ (s.chan ch).pending = .none) :
    Voices s s.motionEntersRun := by
  have other := guards_elsewhere o (ch := 0) (j := 1) (by decide)
  rw [motionEntersRun_eq]
  exact (guards_voices s 0 (rest 0).1 (rest 0).2).trans
    (guards_voices _ 1 (by rw [other.chan]; exact (rest 1).1) (by rw [other.chan]; exact (rest 1).2))

end Sys2Proof.Machine
end

