-- ==== Sys2Proof/Proofs/EntryVoices.lean ====
section
/-! PROOFS. The DRAW of every contest after entry into Run (R38, R171, R184). -/

namespace Sys2Proof.Machine

/-! ### The keys of the records that a step hands over at its end (R165, R171) -/

/-- The kind and the subject of the record, by which it finds its like in the lane. -/
def Offer.key (o : Offer) : Kind × Nat := (o.record.kind, o.record.subject)

/-- The keys of the records of the periods in the order of handover, without those of the counters: first those of no light. -/
def dayKeys : List (Kind × Nat) :=
  [(.shed, 0)] ++ [(.supply, 0)] ++ [(.status, 0)]
    ++ ([(.status, 2)] ++ fin3.flatMap (fun k => [(.tank, k.val)]) ++ fin2.flatMap (fun z => [(.climate, z.val)])
      ++ fin2.flatMap (fun ch => [(.motion, ch.val)] ++ [(.interlock, ch.val)]))

def lightKeys : List (Kind × Nat) := fin8.flatMap fun ch => [(.light, ch.val)]

theorem offerKeys_nodup : (dayKeys ++ lightKeys).Nodup := by decide

theorem offerKeys_kinds : ∀ k ∈ dayKeys ++ lightKeys, k.1.cls ≠ 1 ∧ k.1 ≠ .notice := by decide

theorem Kind.cls_le (k : Kind) : k.cls ≤ 3 := by
  match k with
  | .shed | .interlock => exact Nat.zero_le 3
  | .draw | .request | .setup => exact Nat.le_of_lt_succ (by decide)
  | .status | .supply | .motion | .notice => exact Nat.le_succ 2
  | .tank | .climate | .light | .unknown _ => exact Nat.le_refl 3

theorem keys_flatMap {ι : Type} {l : List ι} {f : ι → List Offer} {g : ι → List (Kind × Nat)}
    (h : ∀ i, ((f i).map Offer.key).Sublist (g i)) : ((l.flatMap f).map Offer.key).Sublist (l.flatMap g) := by
  induction l with
  | nil => exact List.Sublist.refl _
  | cons i l ih =>
    rw [List.flatMap_cons, List.flatMap_cons, List.map_append]
    exact (h i).append ih

theorem keys_offer {c : Prop} [Decidable c] (o : Offer) : ((if c then [o] else []).map Offer.key).Sublist [o.key] := by
  split
  · exact List.Sublist.refl _
  · exact List.nil_sublist _

section
variable (was u : State)

/-- The records of the periods but for the lights', in the order of handover. -/
def State.dayOffers : List Offer := State.firstOffers was u
  ++ (u.status2Offers ++ fin3.flatMap (State.tankOffers was u) ++ fin2.flatMap (State.climateOffers was u)
    ++ fin2.flatMap (fun ch => State.motionOffers was u ch ++ State.interlockOffers was u ch))

def State.lampOffers : List Offer := fin8.flatMap (State.lightOffers was u)

theorem offers_eq : State.firstOffers was u ++ State.lastOffers was u = State.dayOffers was u ++ State.lampOffers was u := by
  unfold State.dayOffers State.lampOffers
  rw [lastOffers_eq, List.append_assoc (State.firstOffers was u)]

theorem firstOffers_keys : ((State.firstOffers was u).map Offer.key).Sublist ([(.shed, 0)] ++ [(.supply, 0)] ++ [(.status, 0)]) := by
  have shed : (u.shedOffers.map Offer.key).Sublist [(.shed, 0)] := by
    unfold State.shedOffers
    split
    · exact keys_offer _
    · exact List.nil_sublist _
  have supply : (u.supplyOffers.map Offer.key).Sublist [(.supply, 0)] := by
    unfold State.supplyOffers
    split
    · exact keys_offer _
    · exact List.nil_sublist _
  rw [firstOffers_eq, List.map_append, List.map_append]
  exact (shed.append supply).append (keys_offer _)

theorem moves_keys : ((fin2.flatMap fun ch => State.motionOffers was u ch ++ State.interlockOffers was u ch).map Offer.key).Sublist
    (fin2.flatMap fun ch => [(.motion, ch.val)] ++ [(.interlock, ch.val)]) :=
  keys_flatMap fun ch => by
    rw [List.map_append]
    exact (keys_offer _).append (keys_offer _)

theorem dayOffers_keys : ((State.dayOffers was u).map Offer.key).Sublist dayKeys := by
  unfold State.dayOffers
  simp only [List.map_append]
  exact (firstOffers_keys was u).append ((((keys_offer _).append (keys_flatMap fun _ => keys_offer _)).append
    (keys_flatMap fun _ => keys_offer _)).append (moves_keys was u))

theorem offers_keys : ((State.firstOffers was u ++ State.lastOffers was u).map Offer.key).Sublist (dayKeys ++ lightKeys) := by
  rw [offers_eq, List.map_append]
  exact (dayOffers_keys was u).append (keys_flatMap fun _ => keys_offer _)

theorem offers_nodup : ((State.firstOffers was u ++ State.lastOffers was u).map Offer.key).Nodup :=
  offerKeys_nodup.sublist (offers_keys was u)

end

/-- No record of a period is of class 1. -/
theorem offers_soft {was u : State} {o : Offer} (m : o ∈ State.firstOffers was u ++ State.lastOffers was u) :
    o.record.kind.cls ≠ 1 ∧ o.record.kind ≠ .notice :=
  offerKeys_kinds o.key ((offers_keys was u).mem (List.mem_map_of_mem m))

/-! ### The DRAW of every contest of entry into Run (R38, R171) -/

theorem takes_voices {l : List Offer} (soft : ∀ o ∈ l, o.record.kind.cls ≠ 1) (s : State) : Voices s (l.foldl State.take s) := by
  induction l generalizing s with
  | nil => exact Voices.refl s
  | cons o l ih =>
    have first : Voices s (s.take o) := (hand_voices s 0 (soft o List.mem_cons_self) (Kind.cls_le _)).trans (Voices.same rfl rfl)
    exact first.trans (ih (fun p m => soft p (List.mem_cons_of_mem _ m)) _)

theorem notices_speak (s : State) {b : Bus} (l : List (Fin 19)) (h : b.speaks) :
    (l.foldl (fun b n => (b.join s.now { record := standingNotice s n, tag := 0 }).build s.now) b).speaks := by
  induction l generalizing b with
  | nil => exact h
  | cons n l ih => exact ih ((h.join s.now 0 (.inr (.inl rfl))).build s.now)

section
variable {s : State} (fits : s.Fits) (calibrates : s.seq.phase = .calibrate)
include fits calibrates

theorem noticed_voiced (empty : s.bus.periodic = []) : s.noticed.Voiced := by
  refine ⟨?_, fun id contests => ?_⟩
  · rw [noticed_bus]
    have bus : (s.entersRun.setDue (s.entersRun.due.atRun (decide (0 < s.entersRun.supply.level)))).bus = s.bus := rfl
    generalize s.entersRun.setDue _ = u at bus ⊢
    exact notices_speak u (fin19.filter fun n => u.status.summary.get n)
      ⟨by rw [bus]; exact fits.sound.lanes, fun w m => by rw [bus, empty] at m; cases m⟩
  · have idle := noticed_idle fits calibrates id
    rw [Claim.contesting, idle] at contests
    cases contests

theorem entered_voices (empty : s.bus.periodic = []) (id : Fin 7)
    (contests : ((State.publish s s.runEntered).claim id).contesting = true) :
    (State.publish s s.runEntered).bus.carries (drawRecord id ((State.publish s s.runEntered).claim id)) := by
  have voiced := noticed_voiced fits calibrates empty
  have motion := padded_motion fits calibrates
  have ok := padded_ok fits calibrates
  have rests := calibrates_rests fits calibrates
  have padded : Voices s.noticed s.heated.padFollows := ((waterEntersRun_voices _).trans ((frostService_voices _).trans
    (heaterFollows_voices _))).trans (padFollows_voices _)
  have motored : Voices s.heated.padFollows s.motored := by
    unfold State.motored
    generalize s.heated.padFollows = u at *
    exact Voices.ite (motionEntersRun_voices ok fun ch => by rw [chan_of_motion motion]; exact rests ch) (Voices.refl u)
  have entered : Voices s.noticed s.runEntered := by
    rw [runEntered_eq]
    exact padded.trans (motored.trans ((ceilingFollows_voices _).trans (courtesyFollows_voices _ none)))
  have told := entered_told fits calibrates
  rw [(publish_handedOver s _ told).claim] at contests ⊢
  have last := takes_voices (l := State.firstOffers s s.runEntered ++ State.lastOffers s s.runEntered)
    (fun o m => (offers_soft m).1) s.runEntered (entered voiced)
  rw [publish_lanes told (entered_publishes fits calibrates) (entered_counters fits calibrates)]
  generalize s.runEntered = u at *
  have claim : (List.foldl State.take u (State.firstOffers s u ++ State.lastOffers s u)).claim id = u.claim id := by
    rw [(takes_hands (State.firstOffers s u ++ State.lastOffers s u) u).rest]
    rfl
  rw [← claim] at contests ⊢
  exact (last.voices id contests).carries

end

end Sys2Proof.Machine
end

