-- ==== Sys2Proof/Proofs/YoungLanes.lean ====
section
/-! PROOFS. A lane of records that have just joined (R171, R172). -/

namespace Sys2Proof.Machine

/-! ### A lane of records that have just joined (R171, R172)

Records of classes 2 and 3 that join at the present moment go out four of a class at a time, into an empty normal buffer. So
an unfilled buffer leaves at most three of each class in the lane, and a filled one has taken four of the records joined. -/

/-- Every waiting record is of class 2 or 3 and has just joined. -/
structure Bus.young (now : Nat) (b : Bus) : Prop where
  line : b.lineFault = false
  gathers : 0 < b.gatherMs
  fresh : ∀ w ∈ b.periodic, w.ripe = false ∧ now < w.join + b.gatherMs ∧ (w.cls = 2 ∨ w.cls = 3)

/-- The records waiting, and the four that a frame has taken. -/
def Bus.weight (b : Bus) : Nat := b.periodic.length + if b.normalBuf.isSome = true then 4 else 0

theorem Bus.sameLine.line {b c : Bus} (h : b.sameLine c) : c.lineFault = b.lineFault ∧ c.gatherMs = b.gatherMs := by
  unfold Bus.sameLine at h
  rw [h]
  exact ⟨rfl, rfl⟩

section
variable {b : Bus} {now : Nat} (h : b.young now)
include h

theorem Bus.young.lengths : b.periodic.length = (b.ofClass 2).length + (b.ofClass 3).length := by
  have all : ∀ w ∈ b.periodic, w.cls = 2 ∨ w.cls = 3 := fun w m => (h.fresh w m).2.2
  unfold Bus.ofClass
  generalize b.periodic = l at all
  induction l with
  | nil => rfl
  | cons w l ih =>
    have rest := ih fun v m => all v (List.mem_cons_of_mem _ m)
    rcases all w List.mem_cons_self with e | e
    · simp [e, rest]
      omega
    · simp [e, rest]
      omega

theorem Bus.young.ready {k : Nat} : b.ready now k = true ↔ 4 ≤ (b.ofClass k).length := by
  rw [Bus.ready_true]
  refine ⟨?_, fun four => .inr (.inl four)⟩
  rintro (⟨rfl, some⟩ | four | ⟨w, rest, e, late⟩)
  · obtain ⟨w, m⟩ := List.exists_mem_of_ne_nil _ some
    obtain ⟨m, e⟩ := List.mem_filter.mp m
    have := (h.fresh w m).2.2
    have := beq_iff_eq.mp e
    omega
  · exact four
  · have m : w ∈ b.ofClass k := by rw [e]; exact List.mem_cons_self
    obtain ⟨young, now, -⟩ := h.fresh w (List.mem_filter.mp m).1
    rcases late with late | late
    · rw [young] at late
      cases late
    · omega

/-- No class of a young lane is ready at three of its records. -/
theorem Bus.young.unready {k : Nat} (few : ¬ 4 ≤ (b.ofClass k).length) : b.ready now k = false :=
  Bool.eq_false_iff.mpr (mt h.ready.mp few)

theorem Bus.young.unready_one : b.ready now 1 = false := by
  refine h.unready fun four => ?_
  obtain ⟨w, m⟩ := List.exists_mem_of_length_pos (Nat.lt_of_lt_of_le (by decide) four)
  obtain ⟨m, e⟩ := List.mem_filter.mp m
  have := (h.fresh w m).2.2
  have := beq_iff_eq.mp e
  omega

theorem Bus.young.build : (b.build now).young now := by
  obtain ⟨line, gathers⟩ := (Bus.build_sameLine now b).line
  refine ⟨line.trans h.line, by rw [gathers]; exact h.gathers, fun w m => ?_⟩
  rw [gathers]
  exact h.fresh w ((Bus.build_sublist now b).mem m)

/-- What an empty buffer takes and leaves. -/
theorem Bus.young.fills (none : b.normalBuf = none) :
    let c := b.build now;
    c.weight ≤ b.weight ∧ (c.normalBuf = .none → c = b.buildUrgent ∧ (b.ofClass 2).length ≤ 3 ∧ (b.ofClass 3).length ≤ 3) := by
  obtain ⟨frame, classes⟩ := Bus.build_refills now b none
  rw [if_neg (by rw [h.line]; nofun)] at frame classes
  have young := h.build
  have lengths := h.lengths
  have after := young.lengths
  have weight : b.weight = b.periodic.length := by rw [Bus.weight, none]; rfl
  rw [classes, classes] at after
  have next := Bus.nextNormal_eq b now
  rw [h.unready_one, if_neg nofun] at next
  dsimp only
  rw [weight, Bus.weight]
  by_cases two : 4 ≤ (b.ofClass 2).length
  · rw [if_pos (h.ready.mpr two)] at next
    rw [next] at frame after
    rw [frame]
    refine ⟨?_, fun e => nomatch e⟩
    simp [Bus.frameOf] at after ⊢
    omega
  · rw [h.unready two, if_neg nofun] at next
    by_cases three : 4 ≤ (b.ofClass 3).length
    · rw [if_pos (h.ready.mpr three)] at next
      rw [next] at frame after
      rw [frame]
      refine ⟨?_, fun e => nomatch e⟩
      simp [Bus.frameOf] at after ⊢
      omega
    · rw [h.unready three, if_neg nofun] at next
      rw [next] at frame after
      rw [frame]
      refine ⟨?_, fun _ => ⟨?_, by omega, by omega⟩⟩
      · simp at after ⊢
        omega
      · have same : ∀ k, b.buildUrgent.ready now k = b.ready now k := fun k => by
          unfold Bus.buildUrgent
          split <;> rfl
        rw [Bus.build_eq, if_neg (by rw [h.line]; nofun), Bus.buildRest, (Bus.buildUrgent_normal b).1, none, same, same, same,
          h.unready_one, h.unready two, h.unready three]
        rfl

end

/-- A record in the lane after another has joined was there, or is that one, at its place or its like's. -/
theorem Bus.mem_join {b : Bus} {t : Tagged} {now : Nat} {w : Waiting} (m : w ∈ (b.join now t).periodic) :
    w ∈ b.periodic ∨ t.record.kind.cls ≠ 0 ∧ (w = ⟨t, now, false⟩ ∨ ∃ v ∈ b.periodic, w = { v with item := t }) := by
  by_cases c : t.record.kind.cls = 0
  · exact .inl (by rwa [Bus.join_urgent_length now t.tag c] at m)
  rw [Bus.join_periodic now c] at m
  have ends : ∀ {l : List Waiting}, l ⊆ b.periodic → w ∈ l ++ [⟨t, now, false⟩] → w ∈ b.periodic ∨ w = ⟨t, now, false⟩ := fun sub m =>
    (List.mem_append.mp m).imp (fun m => sub m) List.mem_singleton.mp
  have joined : w ∈ b.periodic ∨ w = ⟨t, now, false⟩ → w ∈ b.periodic
      ∨ t.record.kind.cls ≠ 0 ∧ (w = ⟨t, now, false⟩ ∨ ∃ v ∈ b.periodic, w = { v with item := t }) :=
    Or.imp_right fun e => ⟨c, .inl e⟩
  split at m
  · obtain ⟨v, there, e⟩ := List.mem_map.mp m
    split at e
    · exact .inr ⟨c, .inr ⟨v, there, e.symm⟩⟩
    · exact .inl (e ▸ there)
  · split at m
    · exact joined (ends (List.Subset.refl _) m)
    · unfold Bus.joinFullPeriodic at m
      split at m
      · exact joined (ends List.eraseP_subset m)
      · split at m
        · exact joined (ends List.eraseP_subset m)
        · exact .inl m

section
variable {b : Bus} {now : Nat} {r : Record} (tag : Nat)

theorem Bus.young.join (h : b.young now) (soft : r.kind.cls ≠ 1) : (b.join now ⟨r, tag⟩).young now := by
  obtain ⟨line, gathers⟩ := (Bus.join_sameLine now ⟨r, tag⟩ b).line
  refine ⟨line.trans h.line, by rw [gathers]; exact h.gathers, fun w m => ?_⟩
  rw [gathers]
  have le := Kind.cls_le r.kind
  rcases Bus.mem_join m with m | ⟨c, rfl | ⟨v, there, rfl⟩⟩
  · exact h.fresh w m
  · exact ⟨rfl, Nat.lt_add_of_pos_right h.gathers, show r.kind.cls = 2 ∨ r.kind.cls = 3 by simp only at c; omega⟩
  · obtain ⟨young, now, -⟩ := h.fresh v there
    exact ⟨young, now, show r.kind.cls = 2 ∨ r.kind.cls = 3 by simp only at c; omega⟩

theorem Bus.join_weight : (b.join now ⟨r, tag⟩).weight ≤ b.weight + if r.kind.cls = 0 then 0 else 1 := by
  have one := Bus.join_periodic_length now ⟨r, tag⟩ b
  unfold Bus.weight
  rw [Bus.join_normalBuf]
  by_cases c : r.kind.cls = 0
  · rw [Bus.join_urgent_length now tag c, if_pos c]
    exact le_rfl
  · rw [if_neg c]
    omega

end

/-! #### A lane that at most `n` records have joined -/

/-- At most `n` young records have joined, and what was ready has been built. -/
structure Bus.opens (now n : Nat) (b : Bus) : Prop where
  young : b.young now
  weight : b.weight ≤ n
  built : b.normalBuf = none → (b.ofClass 2).length ≤ 3 ∧ (b.ofClass 3).length ≤ 3

section
variable {b : Bus} {now n : Nat}

/-- Of twelve records that join none is discarded. -/
theorem Bus.opens.room (h : b.opens now n) (few : n ≤ 11) : b.periodic.length < 8 := by
  have weight := h.weight
  unfold Bus.weight at weight
  cases e : b.normalBuf with
  | none =>
    obtain ⟨two, three⟩ := h.built e
    have := h.young.lengths
    omega
  | some f =>
    rw [e] at weight
    simp only [Option.isSome_some, if_true] at weight
    omega

theorem Bus.young.opens (h : b.young now) (weight : b.weight ≤ n) : (b.build now).opens now n := by
  cases e : b.normalBuf with
  | none =>
    obtain ⟨less, fills⟩ := h.fills e
    refine ⟨h.build, less.trans weight, fun none => ?_⟩
    obtain ⟨same, few⟩ := fills none
    have classes : ∀ k, (b.build now).ofClass k = b.ofClass k := fun k => by
      rw [same]
      unfold Bus.ofClass
      rw [(Bus.buildUrgent_normal b).2]
    rw [classes, classes]
    exact few
  | some f =>
    obtain ⟨buf, lane⟩ := Bus.build_normal_stays (b := b) now (by rw [e]; rfl)
    refine ⟨h.build, ?_, fun none => ?_⟩
    · unfold Bus.weight at weight ⊢
      rw [buf, lane]
      exact weight
    · rw [buf, e] at none
      cases none

theorem Bus.opens.hands (h : b.opens now n) {r : Record} (tag : Nat) (soft : r.kind.cls ≠ 1) :
    ((b.join now ⟨r, tag⟩).build now).opens now (n + if r.kind.cls = 0 then 0 else 1) :=
  (h.young.join tag soft).opens ((Bus.join_weight tag).trans (Nat.add_le_add_right h.weight _))

end

section
variable {l : List Offer} {s : State} {n : Nat}

theorem State.take_bus (s : State) (o : Offer) : (s.take o).bus = (s.bus.join s.now ⟨o.record, 0⟩).build s.now := rfl

theorem periodicCount_one (o : Offer) : periodicCount [o] = if o.record.kind.cls = 0 then 0 else 1 := by
  by_cases c : o.record.kind.cls = 0 <;> simp [periodicCount, c]

theorem takes_open (opens : s.bus.opens s.now n) (soft : ∀ o ∈ l, o.record.kind.cls ≠ 1) :
    (l.foldl State.take s).bus.opens s.now (n + periodicCount l) := by
  induction l generalizing s n with
  | nil => exact opens
  | cons o l ih =>
    have first := opens.hands 0 (soft o List.mem_cons_self)
    rw [← periodicCount_one] at first
    rw [periodicCount_cons, ← Nat.add_assoc]
    exact ih (s := s.take o) first fun p m => soft p (List.mem_cons_of_mem _ m)

variable (opens : s.bus.opens s.now n) (soft : ∀ o ∈ l, o.record.kind.cls ≠ 1) (few : n + periodicCount l ≤ 12)
include opens soft few

theorem takes_open_holds {q : Record} (other : ∀ o ∈ l, q.kind ≠ o.record.kind ∨ q.subject ≠ o.record.subject) (h : s.bus.holds q) :
    (l.foldl State.take s).bus.holds q := by
  induction l generalizing s n with
  | nil => exact h
  | cons o l ih =>
    have first := opens.hands 0 (soft o List.mem_cons_self)
    rw [← periodicCount_one] at first
    rw [periodicCount_cons] at few
    have room : s.bus.roomFor o.record := by
      by_cases c : o.record.kind.cls = 0
      · exact .inl c
      · rw [periodicCount_one, if_neg c] at few
        exact .inr (opens.room (by omega))
    exact ih (s := s.take o) first (fun p m => soft p (List.mem_cons_of_mem _ m)) (by omega)
      (fun p m => other p (List.mem_cons_of_mem _ m)) (hand_holds_other 0 room (other o List.mem_cons_self) h)

/-- Each of them with a key of its own is held at the end. -/
theorem offers_open_hold (nodup : (l.map Offer.key).Nodup) {o : Offer} (m : o ∈ l) (c : o.record.kind.cls ≠ 0) :
    (l.foldl State.take s).bus.holds o.record := by
  obtain ⟨before, after, rfl⟩ := List.append_of_mem m
  have opened := takes_open (l := before) opens fun p m => soft p (List.mem_append_left _ m)
  have count : periodicCount (before ++ o :: after) = periodicCount before + (periodicCount [o] + periodicCount after) := by
    rw [← periodicCount_cons]
    exact List.countP_append
  rw [periodicCount_one, if_neg c] at count
  have now : (before.foldl State.take s).now = s.now := by
    rw [(takes_hands before s).rest]
    rfl
  rw [← now] at opened
  rw [List.foldl_append, List.foldl_cons]
  generalize before.foldl State.take s = u at opened
  have next := opened.hands (r := o.record) 0 (soft o m)
  rw [if_neg c] at next
  rw [List.map_append, List.nodup_append, List.map_cons, List.nodup_cons] at nodup
  refine takes_open_holds (s := u.take o) next (fun p m => soft p (List.mem_append_right _ (List.mem_cons_of_mem _ m))) (by omega)
    (fun p m => ?_) (hand_holds 0 c (opened.room (by omega)))
  by_contra same
  obtain ⟨kind, subject⟩ := not_or.mp same
  obtain ⟨-, ⟨alone, -⟩, -⟩ := nodup
  exact alone (List.mem_map.mpr ⟨p, m, Prod.ext (not_not.mp kind).symm (not_not.mp subject).symm⟩)

end

end Sys2Proof.Machine
end

