-- ==== Sys2Proof/Proofs/Pushes.lean ====
section
/-! PROOFS. A full lane gives up its oldest record of class 3 (R171). -/

namespace Sys2Proof.Machine

/-! ### A full lane gives up its oldest record of class 3 (R171) -/

/-- The record as it waits when it has just joined. -/
def Offer.slot (now : Nat) (o : Offer) : Waiting := { item := ⟨o.record, 0⟩, join := now, ripe := false }

section
variable {b : Bus} {now : Nat} {P X : List Waiting}

theorem Bus.join_pushes {o : Offer} (lane : b.periodic = P ++ X) (firm : ∀ w ∈ P, w.cls ≠ 3) (soft : ∀ w ∈ X, w.cls = 3)
    (few : P.length ≤ 7) (fits : P.length + X.length ≤ 8) (c : o.record.kind.cls ≠ 0) (new : ∀ w ∈ P ++ X, w.sameKey o.record = false) :
    (b.join now ⟨o.record, 0⟩).periodic = P ++ (X ++ [o.slot now]).drop (P.length + X.length + 1 - 8) := by
  have unlike : b.periodic.any (Waiting.sameKey o.record) = false := by
    rw [lane, List.any_eq_false]
    exact fun w m => by rw [new w m]; nofun
  rw [Bus.join_periodic now c, if_neg (by rw [unlike]; nofun)]
  by_cases room : P.length + X.length < 8
  · rw [if_pos (by rw [lane, List.length_append]; exact room)]
    have zero : P.length + X.length + 1 - 8 = 0 := by omega
    rw [zero, lane, List.drop_zero, List.append_assoc]
    rfl
  · rw [if_neg (by rw [lane, List.length_append]; exact room)]
    have one : P.length + X.length + 1 - 8 = 1 := by omega
    rw [one]
    cases X with
    | nil =>
      simp only [List.length_nil] at room
      omega
    | cons x X =>
      have three := soft x List.mem_cons_self
      have any : b.periodic.any (fun w => w.cls == 3) = true :=
        List.any_eq_true.mpr ⟨x, by rw [lane]; simp, by rw [three]; rfl⟩
      have erased : (P ++ x :: X).eraseP (fun w => w.cls == 3) = P ++ X := by
        rw [List.eraseP_append_right _ fun w m => by simpa using firm w m, List.eraseP_cons_of_pos (by rw [three]; rfl)]
      unfold Bus.joinFullPeriodic dropOldest
      rw [if_pos any, lane, erased, List.append_assoc]
      rfl

end

theorem takes_push {l : List Offer} {s : State} {P X : List Waiting} (built : s.bus.normalBuf.isSome = true)
    (lane : s.bus.periodic = P ++ X) (firm : ∀ w ∈ P, w.cls ≠ 3) (soft : ∀ w ∈ X, w.cls = 3)
    (few : P.length ≤ 7) (fits : P.length + X.length ≤ 8) (three : ∀ o ∈ l, o.record.kind.cls = 3)
    (new : ∀ o ∈ l, ∀ w ∈ P ++ X, w.sameKey o.record = false) (nodup : (l.map Offer.key).Nodup) :
    (l.foldl State.take s).bus.periodic
      = P ++ (X ++ l.map (Offer.slot s.now)).drop (P.length + X.length + l.length - 8) := by
  induction l generalizing s X with
  | nil =>
    have zero : P.length + X.length - 8 = 0 := by omega
    simp [lane, zero]
  | cons o l ih =>
    have c := three o List.mem_cons_self
    have pushed := Bus.join_pushes (now := s.now) lane firm soft few fits (by omega) (new o List.mem_cons_self)
    have stays := Bus.build_normal_stays (b := s.bus.join s.now ⟨o.record, 0⟩) s.now (by rw [Bus.join_normalBuf]; exact built)
    rw [List.map_cons, List.nodup_cons] at nodup
    obtain ⟨alone, nodup⟩ := nodup
    have next : (s.take o).bus.periodic = P ++ (X ++ [o.slot s.now]).drop (P.length + X.length + 1 - 8) :=
      stays.2.trans pushed
    rw [List.foldl_cons, ih (s := s.take o) (by rw [State.take_bus, stays.1, Bus.join_normalBuf]; exact built) next ?_ ?_
      (fun p m => three p (List.mem_cons_of_mem _ m)) ?_ nodup]
    · have within : P.length + X.length + 1 - 8 ≤ (X ++ [o.slot s.now]).length := by
        rw [List.length_append, List.length_singleton]
        omega
      rw [← List.drop_append_of_le_length within, List.drop_drop, List.length_drop, List.append_assoc, List.length_append,
        List.length_singleton, List.map_cons, List.length_cons]
      have count : P.length + X.length + 1 - 8 + (P.length + (X.length + 1 - (P.length + X.length + 1 - 8)) + l.length - 8)
          = P.length + X.length + (l.length + 1) - 8 := by omega
      rw [count]
      rfl
    · intro w m
      rcases List.mem_append.mp (List.mem_of_mem_drop m) with m | m
      · exact soft w m
      · rw [List.mem_singleton.mp m]
        exact c
    · simp
      omega
    · intro p m w there
      have before := new p (List.mem_cons_of_mem _ m)
      rcases List.mem_append.mp there with there | there
      · exact before w (List.mem_append_left _ there)
      · rcases List.mem_append.mp (List.mem_of_mem_drop there) with there | there
        · exact before w (List.mem_append_right _ there)
        · rw [List.mem_singleton.mp there]
          have differs : o.key ≠ p.key := fun e => alone (List.mem_map.mpr ⟨p, m, e.symm⟩)
          by_contra same
          have same := Bool.eq_true_of_not_eq_false same
          unfold Waiting.sameKey at same
          obtain ⟨kind, subject⟩ := Bool.and_eq_true_iff.mp same
          exact differs (Prod.ext (beq_iff_eq.mp kind) (beq_iff_eq.mp subject))

end Sys2Proof.Machine
end

