-- ==== Sys2Proof/Proofs/EntryLane.lean ====
section
/-! PROOFS. The lane that entry into Run finds where nothing waits or asks (R181, R184). -/

namespace Sys2Proof.Machine

/-! ### The lane that entry into Run finds, where nothing waits or asks (R181, R184) -/

/-- Nothing waits or has been built. -/
structure Bus.empty (b : Bus) : Prop where
  line : b.lineFault = false
  gathers : 0 < b.gatherMs
  lane : b.periodic = []
  urgent : b.urgent = []
  normal : b.normalBuf = none

/-- `c` is the empty `b`, or holds one NOTICE that has just joined. -/
def Bus.noted (now : Nat) (b c : Bus) : Prop :=
  c = b ∨ ∃ r : Record, r.kind = .notice ∧ r.subject = 0 ∧ c = { b with periodic := [⟨⟨r, 0⟩, now, false⟩] }

section
variable {b c : Bus} {now : Nat} (h : b.empty)
include h

theorem Bus.empty.holding {r : Record} (kind : r.kind = .notice) :
    let c : Bus := { b with periodic := [⟨⟨r, 0⟩, now, false⟩] }; c.opens now 1 ∧ c.build now = c := by
  have young : Bus.young now { b with periodic := [⟨⟨r, 0⟩, now, false⟩] } := by
    refine ⟨h.line, h.gathers, fun w m => ?_⟩
    rw [List.mem_singleton.mp m]
    exact ⟨rfl, Nat.lt_add_of_pos_right h.gathers, .inl (by rw [Waiting.cls, kind]; rfl)⟩
  have few : ∀ k, (Bus.ofClass k { b with periodic := [⟨⟨r, 0⟩, now, false⟩] }).length ≤ 1 := fun k => List.length_filter_le _ _
  have unready : ∀ k, Bus.ready now k { b with periodic := [⟨⟨r, 0⟩, now, false⟩] } = false := fun k =>
    young.unready (by have := few k; omega)
  have urgent : Bus.buildUrgent { b with periodic := [⟨⟨r, 0⟩, now, false⟩] } = { b with periodic := [⟨⟨r, 0⟩, now, false⟩] } := by
    unfold Bus.buildUrgent
    rw [if_neg (by simp [h.urgent])]
  refine ⟨⟨young, ?_, fun _ => ⟨(few 2).trans (by decide), (few 3).trans (by decide)⟩⟩, ?_⟩
  · simp [Bus.weight, h.normal]
  · rw [Bus.build_eq, if_neg (by simp [h.line]), urgent]
    unfold Bus.buildRest
    rw [unready, unready, unready]
    simp

theorem Bus.noted.notice (k : Bus.noted now b c) {r : Record} (kind : r.kind = .notice) (subject : r.subject = 0) :
    Bus.noted now b ((c.join now ⟨r, 0⟩).build now) := by
  have cls : r.kind.cls ≠ 0 := by rw [kind]; exact Nat.succ_ne_zero 1
  refine .inr ⟨r, kind, subject, ?_⟩
  have joined : c.join now ⟨r, 0⟩ = { b with periodic := [⟨⟨r, 0⟩, now, false⟩] } := by
    rw [Bus.join_periodic now cls]
    rcases k with rfl | ⟨q, qkind, qsubject, rfl⟩
    · simp [h.lane]
    · have like : Waiting.sameKey r ⟨⟨q, 0⟩, now, false⟩ = true := by
        unfold Waiting.sameKey
        rw [qkind, qsubject, kind, subject]
        rfl
      simp [like, coalesce]
  rw [joined]
  exact (h.holding kind).2

theorem Bus.noted.opens (k : Bus.noted now b c) : c.opens now 1 ∧ (∀ w ∈ c.periodic, w.cls = 2) ∧ c.firm ≤ 1 := by
  rcases k with rfl | ⟨r, kind, -, rfl⟩
  · have none : ∀ w ∈ c.periodic, False := fun w m => by rw [h.lane] at m; cases m
    refine ⟨⟨⟨h.line, h.gathers, fun w m => (none w m).elim⟩, ?_, fun _ => ?_⟩, fun w m => (none w m).elim, ?_⟩
    · simp [Bus.weight, h.lane, h.normal]
    · simp [Bus.ofClass, h.lane]
    · simp [Bus.firm, h.lane]
  · refine ⟨(h.holding kind).1, fun w m => ?_, (Bus.firm_le_length _).trans (le_of_eq List.length_singleton)⟩
    rw [List.mem_singleton.mp m, Waiting.cls, kind]
    rfl

theorem notices_noted (s : State) (l : List (Fin 19)) (k : Bus.noted s.now b c) :
    Bus.noted s.now b (l.foldl (fun b n => (b.join s.now { record := standingNotice s n, tag := 0 }).build s.now) c) := by
  induction l generalizing c with
  | nil => exact k
  | cons n l ih => exact ih (k.notice h rfl rfl)

end

section
variable {s : State} (fits : s.Fits) (calibrates : s.seq.phase = .calibrate)
include fits calibrates

theorem entered_noted (empty : s.bus.empty) (idle : s.runEntered.allIdle) (drive : s.view.driveAccepted = false)
    (wind : s.motion.windLockout = none) : Bus.noted s.now s.bus s.runEntered.bus := by
  have noticed : Bus.noted s.now s.bus s.noticed.bus := by
    rw [noticed_bus]
    have bus : (s.entersRun.setDue (s.entersRun.due.atRun (decide (0 < s.entersRun.supply.level)))).bus = s.bus := rfl
    have now : (s.entersRun.setDue (s.entersRun.due.atRun (decide (0 < s.entersRun.supply.level)))).now = s.now := rfl
    generalize s.entersRun.setDue _ = u at bus now ⊢
    rw [← now, ← bus] 
    exact notices_noted (by rw [bus]; exact empty) u (fin19.filter fun n => u.status.summary.get n) (.inl rfl)
  have lane := (runEntered_lane fits calibrates idle drive wind).1
  rcases lane with e | ⟨r, kind, subject, e⟩
  · rw [e]
    exact noticed
  · rw [e]
    exact noticed.notice empty kind subject

end

end Sys2Proof.Machine
end

