-- ==== Sys2Proof/Proofs/EntryRecords.lean ====
section
/-! PROOFS. The records that the Gatherer holds after entry into Run (R171, R184). -/

namespace Sys2Proof.Machine

/-! ### What the Gatherer holds after entry into Run (R171, R184) -/

theorem Offer.countP_key (p : Kind → Bool) (l : List Offer) :
    l.countP (fun o => p o.record.kind) = (l.map Offer.key).countP fun k => p k.1 := by
  rw [List.countP_map]
  rfl

section
variable (was u : State)

theorem offers_firm_keys : firmCount (State.firstOffers was u ++ State.lastOffers was u) ≤ 5 := by
  have few : (dayKeys ++ lightKeys).countP (fun k => k.1.cls != 0 && k.1.cls != 3) = 5 := by decide
  rw [← few, firmCount, Offer.countP_key fun k => k.cls != 0 && k.cls != 3]
  exact (offers_keys was u).countP_le

/-- Without lights at most ten records go to the periodic lane. -/
theorem dayOffers_count : periodicCount (State.dayOffers was u) ≤ 10 := by
  have few : dayKeys.countP (fun k => k.1.cls != 0) = 10 := by decide
  rw [← few, periodicCount, Offer.countP_key fun k => k.cls != 0]
  exact (dayOffers_keys was u).countP_le

/-- The keys of the classes 0 and 2. -/
def firmKeys : List (Kind × Nat) := [(.shed, 0)] ++ [(.supply, 0)] ++ [(.status, 0)]
  ++ ([(.status, 2)] ++ fin2.flatMap (fun ch => [(.motion, ch.val)] ++ [(.interlock, ch.val)]))

/-- Without tanks and zones they are all. -/
theorem dayOffers_dry (dry : u.seq.fns.water = false) (cold : u.seq.fns.heat = false) :
    ((State.dayOffers was u).map Offer.key).Sublist firmKeys := by
  have tanks : fin3.flatMap (State.tankOffers was u) = [] :=
    List.flatMap_eq_nil_iff.mpr fun k _ => by unfold State.tankOffers; rw [dry]; rfl
  have zones : fin2.flatMap (State.climateOffers was u) = [] :=
    List.flatMap_eq_nil_iff.mpr fun k _ => by unfold State.climateOffers; rw [cold]; rfl
  unfold State.dayOffers firmKeys
  rw [tanks, zones, List.append_nil, List.append_nil]
  simp only [List.map_append]
  exact (firstOffers_keys was u).append ((keys_offer _).append (moves_keys was u))

end

section
variable {l : List Offer} {s : State}

theorem takes_all {p : Record → Prop} (all : ∀ w ∈ s.bus.periodic, p w.item.record)
    (each : ∀ o ∈ l, o.record.kind.cls ≠ 0 → p o.record) : ∀ w ∈ (l.foldl State.take s).bus.periodic, p w.item.record := by
  induction l generalizing s with
  | nil => exact all
  | cons o l ih =>
    refine ih (s := s.take o) (fun w m => ?_) fun q m => each q (List.mem_cons_of_mem _ m)
    rcases Bus.mem_join ((Bus.build_sublist s.now _).mem m) with m | ⟨c, rfl | ⟨v, -, rfl⟩⟩
    · exact all w m
    · exact each o List.mem_cons_self c
    · exact each o List.mem_cons_self c

end

/-- Every record of a period is due, and entered Run finds the lane empty but for a NOTICE. -/
structure Opening (was u : State) : Prop where
  run : u.inRun = true
  told : u.view.changes = []
  publishes : u.publishes = true
  counters : u.due.status1 = false
  status : u.due.status0 = true
  supply : u.due.supply = true
  tank : ∀ k, u.due.tank.get k = true
  climate : ∀ z, u.due.climate.get z = true
  motion : ∀ ch, u.due.motion.get ch = true
  light : ∀ ch, u.due.light.get ch = true
  opens : u.bus.opens u.now 1
  two : ∀ w ∈ u.bus.periodic, w.item.record.kind.cls = 2
  firm : u.bus.firm ≤ 1

section
variable {was u : State} (h : Opening was u)
include h

theorem Opening.lanes : (State.publish was u).bus = ((State.firstOffers was u ++ State.lastOffers was u).foldl State.take u).bus :=
  publish_lanes h.told h.publishes h.counters

/-- Each record of class 2 is held. -/
theorem Opening.holds_firm {o : Offer} (m : o ∈ State.firstOffers was u ++ State.lastOffers was u) (c : o.record.kind.cls = 2) :
    (State.publish was u).bus.holds o.record := by
  have nodup := offers_nodup was u
  have firm := offers_firm_keys was u
  have room := h.firm
  rw [h.lanes]
  obtain ⟨before, after, e⟩ := List.append_of_mem m
  rw [e] at nodup firm ⊢
  rw [List.map_append, List.map_cons, List.nodup_append, List.nodup_cons] at nodup
  obtain ⟨-, ⟨alone, -⟩, -⟩ := nodup
  refine offers_hold_firm (by omega) (by omega) (by omega) fun p m => ?_
  by_contra same
  obtain ⟨kind, subject⟩ := not_or.mp same
  exact alone (List.mem_map.mpr ⟨p, m, Prod.ext (not_not.mp kind).symm (not_not.mp subject).symm⟩)

/-- Without lights every record is held. -/
theorem Opening.holds_dark (dark : u.seq.fns.lights = false) {o : Offer} (m : o ∈ State.dayOffers was u) (c : o.record.kind.cls ≠ 0) :
    (State.publish was u).bus.holds o.record := by
  have lamps : State.lampOffers was u = [] :=
    List.flatMap_eq_nil_iff.mpr fun k _ => by unfold State.lightOffers; rw [dark]; rfl
  have nodup := offers_nodup was u
  have few := dayOffers_count was u
  have soft : ∀ o ∈ State.dayOffers was u, o.record.kind.cls ≠ 1 := fun o m =>
    (offers_soft (was := was) (u := u) (by rw [offers_eq]; exact List.mem_append_left _ m)).1
  rw [h.lanes, offers_eq, lamps, List.append_nil]
  rw [offers_eq, lamps, List.append_nil] at nodup
  exact offers_open_hold h.opens soft (by omega) nodup m c

end

end Sys2Proof.Machine
end

