-- ==== Sys2Proof/Proofs/EntryLamps.lean ====
section
/-! PROOFS. The LIGHT records after entry into Run (R171, R184). -/

namespace Sys2Proof.Machine

/-! ### The LIGHT records after entry into Run (R171, R184) -/

/-- The LIGHT record of a channel that is due. -/
def State.lampOffer (u : State) (ch : Fin 8) : Offer :=
  ⟨lightRecord u ch, fun p => { p with light := p.light.set ch (some Config.slowPeriodMs) }⟩

/-- Of the records of class 2 that came before, a filled buffer leaves two at most; the lights push out each other. -/
theorem lamps_push {b : State} {was u : State} (offers : State.lampOffers was u = fin8.map u.lampOffer)
    (built : b.bus.normalBuf.isSome = true) (two : ∀ w ∈ b.bus.periodic, w.item.record.kind.cls = 2)
    (few : b.bus.periodic.length ≤ 2) (nodup : ((State.lampOffers was u).map Offer.key).Nodup) {ch : Fin 8} (high : 3 ≤ ch.val) :
    ((State.lampOffers was u).foldl State.take b).bus.holds (lightRecord u ch) := by
  rw [offers] at nodup ⊢
  have lane := takes_push (P := b.bus.periodic) (X := []) (l := fin8.map u.lampOffer) built (List.append_nil _).symm
    (fun w m => by rw [Waiting.cls, two w m]; decide) (fun _ m => nomatch m) (few.trans (by decide)) (few.trans (by decide))
    (fun o m => by obtain ⟨c, -, rfl⟩ := List.mem_map.mp m; rfl)
    (fun o m w there => by
      obtain ⟨c, -, rfl⟩ := List.mem_map.mp m
      rw [List.append_nil] at there
      have cls := two w there
      unfold Waiting.sameKey
      refine Bool.and_eq_false_imp.mpr fun same => ?_
      rw [beq_iff_eq.mp same] at cls
      cases cls) nodup
  have there : ∀ k : Fin 3, ∀ c : Fin 8, 3 ≤ c.val → c ∈ fin8.drop k.val := by decide
  have mem := there ⟨b.bus.periodic.length, by omega⟩ ch high
  refine .inl ⟨(u.lampOffer ch).slot b.now, ?_, rfl⟩
  rw [lane]
  refine List.mem_append_right _ ?_
  rw [List.nil_append, List.map_map]
  have count : b.bus.periodic.length + ([] : List Waiting).length + (fin8.map u.lampOffer).length - 8 = b.bus.periodic.length := rfl
  rw [count, ← List.map_drop]
  exact List.mem_map_of_mem mem

section
variable {was u : State} (h : Opening was u)
include h

theorem Opening.lamps (fitted : u.seq.fns.lights = true) : State.lampOffers was u = fin8.map u.lampOffer := by
  have each : ∀ ch, State.lightOffers was u ch = [u.lampOffer ch] := fun ch => by
    unfold State.lightOffers
    rw [fitted, h.run, h.light ch]
    rfl
  unfold State.lampOffers
  rw [funext each]
  rfl

/-- With lights, and neither tanks nor zones, the LIGHT records of channels 3 and up are held. -/
theorem Opening.holds_light (fitted : u.seq.fns.lights = true) (dry : u.seq.fns.water = false) (cold : u.seq.fns.heat = false)
    {ch : Fin 8} (high : 3 ≤ ch.val) : (State.publish was u).bus.holds (lightRecord u ch) := by
  have lamps := h.lamps fitted
  have keys := dayOffers_dry was u dry cold
  have kinds : ∀ o ∈ State.dayOffers was u, o.record.kind.cls ≠ 1 ∧ (o.record.kind.cls ≠ 0 → o.record.kind.cls = 2) := fun o m => by
    have all : ∀ k ∈ firmKeys, k.1.cls ≠ 1 ∧ (k.1.cls ≠ 0 → k.1.cls = 2) := by decide
    exact all o.key (keys.mem (List.mem_map_of_mem m))
  have count : periodicCount (State.dayOffers was u) ≤ 5 := by
    have five : firmKeys.countP (fun k => k.1.cls != 0) = 5 := by decide
    rw [← five, periodicCount, Offer.countP_key fun k => k.cls != 0]
    exact keys.countP_le
  have nodup := offers_nodup was u
  rw [h.lanes, offers_eq, List.foldl_append]
  rw [offers_eq, List.map_append, List.nodup_append] at nodup
  obtain ⟨-, nodup, -⟩ := nodup
  have opened := takes_open h.opens fun o m => (kinds o m).1
  have two := takes_all (p := fun r => r.kind.cls = 2) h.two fun o m => (kinds o m).2
  have now : ((State.dayOffers was u).foldl State.take u).now = u.now := by
    rw [(takes_hands _ u).rest]
    rfl
  rw [← now] at opened
  generalize (State.dayOffers was u).foldl State.take u = b at opened two
  cases e : b.bus.normalBuf with
  | some f =>
    have weight := opened.weight
    unfold Bus.weight at weight
    rw [e] at weight
    simp only [Option.isSome_some, if_true] at weight
    exact lamps_push lamps (by rw [e]; rfl) two (by omega) nodup high
  | none =>
    obtain ⟨few, -⟩ := opened.built e
    have soft : b.bus.ofClass 3 = [] := List.filter_eq_nil_iff.mpr fun w m => by
      rw [Waiting.cls, two w m]
      decide
    have lengths := opened.young.lengths
    rw [soft, List.length_nil] at lengths
    have three : b.bus.opens b.now 3 := ⟨opened.young, by rw [Bus.weight, e]; simp; omega, opened.built⟩
    have eight : periodicCount (State.lampOffers was u) = 8 := by rw [lamps]; rfl
    refine offers_open_hold (o := u.lampOffer ch) three (fun o m => ?_) (by omega) nodup ?_ (by exact Nat.succ_ne_zero 2)
    · rw [lamps] at m
      obtain ⟨c, -, rfl⟩ := List.mem_map.mp m
      show 3 ≠ 1
      decide
    · rw [lamps]
      exact List.mem_map_of_mem (mem_fin8 ch)

end

end Sys2Proof.Machine
end

