-- ==== Sys2Proof/Proofs/EntryCarries.lean ====
section
/-! PROOFS. The first records of Run in the Gatherer (R171, R184). -/

namespace Sys2Proof.Machine

/-! ### The end of Calibrate (R184) -/

section
variable {u t : State} (h : u.handedOver t)
include h

theorem State.handedOver.motionRecord (ch : Fin 2) : motionRecord t ch = motionRecord u ch := by
  unfold Sys2Proof.Machine.motionRecord State.position
  rw [h.chan, h.pins, h.motion]

theorem State.handedOver.tankRecord (k : Fin 3) : tankRecord t k = tankRecord u k := by
  unfold Sys2Proof.Machine.tankRecord
  rw [h.water]

theorem State.handedOver.climateRecord (z : Fin 2) : climateRecord t z = climateRecord u z := by
  unfold Sys2Proof.Machine.climateRecord State.frostField State.padField State.modeInForce
  rw [h.climate, h.seq]

theorem State.handedOver.lightRecord (ch : Fin 8) : lightRecord t ch = lightRecord u ch := by
  unfold Sys2Proof.Machine.lightRecord State.courtesyOn
  rw [h.light, h.lights, h.seq, h.group, h.claim]

theorem State.handedOver.stepOut : t.stepOut = u.stepOut := by
  unfold State.stepOut State.ownStep
  rw [h.chan, h.seq, h.entries]

end

section
variable {s : State} (fits : s.Fits) (calibrates : s.seq.phase = .calibrate)
include fits calibrates

theorem entered_now : s.runEntered.now = s.now := (entered_base fits calibrates).now.trans (by rw [noticed_eq])

theorem entered_opening (empty : s.bus.empty) (idle : s.runEntered.allIdle) (drive : s.view.driveAccepted = false)
    (wind : s.motion.windLockout = none) : Opening s s.runEntered := by
  obtain ⟨m, due, moves⟩ := entered_marks fits calibrates
  obtain ⟨opens, two, firm⟩ := (entered_noted fits calibrates empty idle drive wind).opens empty
  rw [← entered_now fits calibrates] at opens
  have run := entered_inRun fits calibrates
  have told := entered_told fits calibrates
  have publishes := entered_publishes fits calibrates
  have counters := entered_counters fits calibrates
  generalize s.runEntered = u at *
  exact {
    run, told, publishes, counters, opens, two, firm
    status := by rw [due]; rfl
    supply := by rw [due]; rfl
    tank := fun k => by rw [due]; exact Tab.get_fill _ _
    climate := fun z => by rw [due]; exact Tab.get_fill _ _
    motion := fun ch => by rw [due]; exact moves ch
    light := fun ch => by rw [due]; exact Tab.get_fill _ _ }

/-- Where nothing waits, asks or moves, the first records of Run are in the Gatherer (R184). -/
theorem entered_carries (empty : s.bus.empty) (idle : s.runEntered.allIdle) (drive : s.view.driveAccepted = false)
    (wind : s.motion.windLockout = none) : let u := s.runEntered
    let bus := (State.publish s u).bus
    bus.carries (status0Record u)
      ∧ (s.seq.fns.supply = true → ∀ f, s.supply.latest = some f →
          bus.carries f.supplyRecord ∧ (0 < s.supply.level → bus.carries f.shedRecord))
      ∧ (s.seq.fns.motion = true → ∀ ch, bus.carries (motionRecord u ch))
      ∧ (s.seq.fns.lights = false → (s.seq.fns.water = true → ∀ k, bus.carries (tankRecord u k))
          ∧ (s.seq.fns.heat = true → ∀ z, bus.carries (climateRecord u z)))
      ∧ (s.seq.fns.lights = true → s.seq.fns.water = false → s.seq.fns.heat = false →
          ∀ ch : Fin 8, 3 ≤ ch.val → bus.carries (lightRecord u ch)) := by
  have h := entered_opening fits calibrates empty idle drive wind
  have calm := entered_unviolated fits calibrates drive
  have fns : s.runEntered.seq.fns = s.seq.fns := by rw [entered_seq fits calibrates]
  have supply := entered_supply fits calibrates
  obtain ⟨m, due, -⟩ := entered_marks fits calibrates
  have runs := entered_motionRuns fits calibrates
  dsimp only
  generalize s.runEntered = u at *
  have first : ∀ {o}, o ∈ State.firstOffers s u → o ∈ State.firstOffers s u ++ State.lastOffers s u := List.mem_append_left _
  have last : ∀ {o}, o ∈ State.lastOffers s u → o ∈ State.firstOffers s u ++ State.lastOffers s u := List.mem_append_right _
  refine ⟨?_, fun own f latest => ⟨?_, fun some => ?_⟩, fun own ch => ?_, fun dark => ⟨fun own k => ?_, fun own z => ?_⟩,
    fun lit dry cold ch high => ?_⟩
  · have mem : (⟨status0Record u, fun p => { p with status := if u.inRun then some u.statusPeriodMs else none }⟩ : Offer)
        ∈ State.firstOffers s u := by
      rw [firstOffers_eq]
      refine List.mem_append_right _ ?_
      unfold State.status0Offers
      rw [h.status, Bool.true_or, if_pos rfl]
      exact List.mem_singleton_self _
    exact (h.holds_firm (first mem) rfl).carries
  · have mem : (⟨f.supplyRecord, fun p => { p with supply := some u.supplyPeriodMs }⟩ : Offer) ∈ State.firstOffers s u := by
      rw [firstOffers_eq]
      refine List.mem_append_left _ (List.mem_append_right _ ?_)
      unfold State.supplyOffers
      rw [supply, latest, h.supply, h.run, fns, own]
      exact List.mem_singleton_self _
    exact (h.holds_firm (first mem) rfl).carries
  · refine publish_carries_shed h.told h.publishes h.counters (by rw [supply]; exact latest) h.run calm ?_
    rw [due]
    exact decide_eq_true some
  · have mem : (⟨motionRecord u ch, fun p => { p with motion := p.motion.set ch (some (u.motionPeriodMs ch)) }⟩ : Offer)
        ∈ State.lastOffers s u := by
      rw [lastOffers_eq]
      refine List.mem_append_left _ (List.mem_append_right _ (List.mem_flatMap.mpr ⟨ch, mem_fin2 ch, List.mem_append_left _ ?_⟩))
      unfold State.motionOffers
      rw [runs own, h.motion ch]
      exact List.mem_singleton_self _
    exact (h.holds_firm (last mem) rfl).carries
  · have mem : (⟨tankRecord u k, fun p => { p with tank := p.tank.set k (some Config.slowPeriodMs) }⟩ : Offer)
        ∈ State.dayOffers s u := by
      refine List.mem_append_right _ (List.mem_append_left _ (List.mem_append_left _ (List.mem_append_right _
        (List.mem_flatMap.mpr ⟨k, mem_fin3 k, ?_⟩))))
      unfold State.tankOffers
      rw [fns, own, h.run, h.tank k]
      exact List.mem_singleton_self _
    exact (h.holds_dark (by rw [fns]; exact dark) mem (Nat.succ_ne_zero 2)).carries
  · have mem : (⟨climateRecord u z, fun p => { p with climate := p.climate.set z (some Config.slowPeriodMs) }⟩ : Offer)
        ∈ State.dayOffers s u := by
      refine List.mem_append_right _ (List.mem_append_left _ (List.mem_append_right _
        (List.mem_flatMap.mpr ⟨z, mem_fin2 z, ?_⟩)))
      unfold State.climateOffers
      rw [fns, own, h.run, h.climate z]
      exact List.mem_singleton_self _
    exact (h.holds_dark (by rw [fns]; exact dark) mem (Nat.succ_ne_zero 2)).carries
  · exact (h.holds_light (by rw [fns]; exact lit) (by rw [fns]; exact dry) (by rw [fns]; exact cold) high).carries

end

end Sys2Proof.Machine
end

