-- ==== Sys2Proof/Proofs/CalibrateEnds.lean ====
section
/-! PROOFS. The end of Calibrate, settled (R184). -/

namespace Sys2Proof.Machine

section
variable {s : State} (fits : s.Fits) (calibrates : s.seq.phase = .calibrate)
include fits calibrates

/-- The Motion Controller's part, in the words of R138. -/
theorem entered_motion (fitted : s.seq.fns.motion = true) (ch : Fin 2) : let c := s.chan ch
    let u := s.runEntered
    let need := s.view.driveAccepted = true ∨ ch = 1 ∧ s.motion.windLockout.isSome = true
    let home := c.st = .retracted ∨ c.st = .unknown ∧ s.pins.er.get ch = true
    (¬ need ∨ home → u.chan ch = c ∧ (u.claim (loadMotor ch)).st = .idle)
      ∧ (need → ¬ home → c.calTimer.isSome = true ∨ s.pins.hold = true →
          u.chan ch = { c with pending := .protective, req := 0, idle := none })
      ∧ (need → ¬ home → c.calTimer = none → s.pins.hold = false → s.pins.er.get ch = false →
          (u.chan ch).st = .retracting ∧ (u.chan ch).bridge = .retract ∧ (u.chan ch).protective = true
            ∧ (u.claim (loadMotor ch)).st = .held ∧ (u.claim (loadMotor ch)).rank = 0) := by
  obtain ⟨stays, waits, homes⟩ := entered_chan fits calibrates fitted ch
  have needs := needs_iff s ch
  exact ⟨fun rests => stays (rests.imp_left fun no => Bool.eq_false_iff.mpr (mt needs.mp no)),
    fun need away => waits (needs.mpr need) away, fun need away => homes (needs.mpr need) away⟩

/-- The Water Manager's part, with the fresh level in the words of R92. -/
theorem entered_tap (fitted : s.seq.fns.water = true) (owed : s.water.owed < 4) :
    let u := s.runEntered
    let v := s.seq.values
    let pump := u.claim loadPump
    let fresh := (s.water.tanks.get 0).level.any fun l => decide (30 ≤ l)
    let first := s.water.cycle = .timing ∧ s.water.dueOnRun = true
    let wants := s.pins.pdem = true ∧ s.water.runaway = false ∧ fresh = true ∧ s.water.dumpCmdOpen = false ∧ s.pins.dumpOpen = false
    let asks := fun (c : Claim) (rank a : Nat) => decide ((c.st = .contest ∨ c.st = .waiting) ∧ c.rank = rank ∧ c.asked = a)
    u.water.dumpDrive = (if u.water.dumpCmdOpen = true then .toOpen else .toClosed)
      ∧ u.water.dumpCmdOpen = s.water.dumpCmdOpen ∧ u.water.pump = false ∧ u.water.guard = s.water.guard
      ∧ (first → fresh = false → u.water.cycle = .timing ∧ u.water.dueTimer = some (v.get 21 * 60000)
          ∧ u.water.owed = s.water.owed ∧ pump.st = .idle)
      ∧ (first → fresh = true → s.passes loadPump 1 (v.get 25) = true →
          u.water.cycle = .asking ∧ asks pump 1 (v.get 25) = true ∧ pump.single = true)
      ∧ (first → fresh = true → s.passes loadPump 1 (v.get 25) = false →
          u.water.cycle = .timing ∧ u.water.dueTimer = some (v.get 21 * 60000) ∧ u.water.owed = s.water.owed + 1)
      ∧ (¬ first → u.water.cycle = s.water.cycle ∧ u.water.owed = s.water.owed)
      ∧ (u.water.cycle ≠ .asking → if wants then asks pump 5 (v.get 25) = true ∧ pump.single = false else pump.st = .idle) := by
  have water := entered_water fits calibrates fitted owed
  dsimp only at water ⊢
  rw [← freshOk_any]
  simp only [Claim.asksAt_iff]
  exact water

end

end Sys2Proof.Machine

namespace Sys2Proof.Proofs
open Sys2Proof.Machine

/-- Settles O20, block by block: what each does on entry into Run, and what the Gatherer then holds. -/
theorem calibrateEndsInRun : Obligations.CalibrateEndsInRun := by
  unfold Obligations.CalibrateEndsInRun
  intro s fits calibrates expires
  have handed := publish_handedOver s _ (entered_told fits calibrates)
  refine ⟨_, entry_done calibrates expires, ?_⟩
  dsimp only
  rw [handed.seq, handed.pins, handed.supply, handed.view, handed.water, handed.climate, handed.lights, handed.stepOut,
    handed.status0Record]
  simp only [handed.claim, handed.chan, handed.motionRecord, handed.tankRecord, handed.climateRecord, handed.lightRecord,
    Claim.asksAt_iff]
  refine ⟨entered_seq fits calibrates, entered_pins fits calibrates, entered_supply fits calibrates, entered_view fits calibrates,
    fun fitted owed => ?_, fun fitted => ?_, fun fitted ch => entered_motion fits calibrates fitted ch,
    entered_ceiling fits calibrates, fun fitted named none => entered_call fits calibrates fitted ?_ none,
    entered_status_period fits calibrates, fun own f latest => entered_supply_period fits calibrates own latest,
    fun own k => entered_tank_period fits calibrates own k, fun own z => entered_climate_period fits calibrates own z,
    fun own ch => ?_, fun own ch => entered_light_period fits calibrates own ch,
    fun lane urgent _ normal line idle drive wind => ?_, fun _ empty id contests => ?_⟩
  · have water := entered_tap fits calibrates fitted owed
    simp only [Claim.asksAt_iff] at water
    exact water
  · obtain ⟨heater, call, -, asks⟩ := entered_heater fits calibrates fitted
    refine ⟨heater, call, entered_frost fits calibrates fitted, ?_,
      fun pad => entered_pad fits calibrates fitted (beq_iff_eq.mpr pad)⟩
    unfold Item.startDraw at asks
    generalize s.runEntered = u at asks ⊢
    exact asks
  · unfold Item.courtesy
    rw [dif_pos named]
    rfl
  · obtain ⟨period, interlock⟩ := entered_motion_period fits calibrates own ch
    rw [handed.chan] at interlock
    exact ⟨period, interlock⟩
  · obtain ⟨-, -, gathers, -⟩ := fits.values
    have empty : s.bus.empty := ⟨line, Nat.lt_of_lt_of_le (Nat.succ_pos 9) gathers, lane, urgent, normal⟩
    exact entered_carries fits calibrates empty idle drive wind
  · have voices := entered_voices fits calibrates empty id
    rw [handed.claim] at voices
    exact voices contests

end Sys2Proof.Proofs
end
